-- ==== Sys2Proof/Word.lean ====
section
/-! DEFINITION. The word types of the FJ192 and the names of its numbered units (00 Scope, table Numbering). -/

namespace Sys2Proof

/-- A register word (R6). -/
abbrev Word := BitVec 32
/-- A byte of a frame, a mailbox area or memory. -/
abbrev Byte := BitVec 8

/-- Channel OUT0-OUT191. -/
abbrev Ch := Fin 192
/-- Position axis AX0-AX255. -/
abbrev Ax := Fin 256
/-- Wheel input WHL0-WHL63. -/
abbrev Whl := Fin 64
/-- Bank BANK0-BANK23. -/
abbrev Bank := Fin 24
/-- Cluster CL0-CL11. -/
abbrev Cl := Fin 12
/-- Seed sensor SDS0-SDS95. -/
abbrev Sds := Fin 96
/-- General comparator CMP0-CMP15. -/
abbrev Cmp := Fin 16
/-- Modulator ADC0-ADC3. -/
abbrev Adc := Fin 4
/-- Filigree engine FE0-FE31. -/
abbrev Fe := Fin 32
/-- Timer TIM0-TIM15. -/
abbrev Tim := Fin 16
/-- Mandrel distance slot DS0-DS7. -/
abbrev Ds := Fin 8
/-- Deflection input DF0-DF7. -/
abbrev Df := Fin 8
/-- Island number of R464: 0-11 clusters, 12 observer, 13 axis, 14 map, 15 HOST-A, 16 HOST-B, 17 management. -/
abbrev Isl := Fin 18
/-- Fabric link number of R494. -/
abbrev Link := Fin 38
/-- Interrupt source number of R385. -/
abbrev Src := Fin 512
/-- Interrupt group G0-G31. -/
abbrev Grp := Fin 32
/-- Mailbox index: 0-7 HOST-A, 8-15 HOST-B, 16-19 Anvil-C (R318). -/
abbrev Mbx := Fin 20
/-- Capture converter 0-7. -/
abbrev Cap := Fin 8
/-- Event pool index (R132). -/
abbrev Pool := Fin 16384
/-- Sensor supply SUP0-SUP7. -/
abbrev Sup := Fin 8
/-- Power die: 0 half A, 1 half B. -/
abbrev Die := Fin 2

/-- A host port (R308). -/
inductive Port where
  | a
  | b
deriving DecidableEq, Repr

/-- Who writes or reads on the bus: the two Anvil cores and the two host ports (R320). -/
inductive Writer where
  | anvilC
  | hostA
  | hostB
  | anvilV
deriving DecidableEq, Repr

/-- One of the two Anvil cores. -/
inductive Core where
  | v
  | c
deriving DecidableEq, Repr

/-- What an access wants to do (R489). -/
inductive Access where
  | read
  | write
  | exec
deriving DecidableEq, Repr

end Sys2Proof
end

