-- ==== Sys2Proof/Syntax.lean ====
section
/-! DEFINITION. The commands of the FJ192: one constructor per row of spec/opcode_table.json, with the operands the row needs. -/

namespace Sys2Proof

/-- What a wheel input's front end measures at one diagnosis evaluation (R50): voltages in mV, current in 10 uA. -/
structure WhlPins where
  diffMv : Int
  commonMv : Int
  pinMv : Int
  otherMv : Int
  cur10uA : Int
deriving DecidableEq, Repr

/-- Where a word with a parity error lies (R30 to R32, R381): in the SRAM window, in the Anvil-C tightly coupled memory, or in the memory of a
cluster island. -/
inductive ParityPlace where
  | window
  | tcm
  | cluster (c : Fin 12)
deriving DecidableEq, Repr

/-- What a NAND target announces at mount (R288), maxMode being the highest of its timing modes that R540 allows. -/
structure NandPage where
  crcOk : Bool
  bitsPerCell : Nat
  luns : Nat
  gbit : Nat
  pageBytes : Nat
  spareBytes : Nat
  tRus : Nat
  tProgUs : Nat
  tBersUs : Nat
  maxMode : Nat
  log2Ppb : Nat
  blocks : Nat
  endurance : Nat
  factoryBad : List Nat
deriving DecidableEq, Repr

/-- A block that the last loss of supply cut short (R289, R297): its erase, or a program that leaves a page which fails ECC. -/
structure NandCut where
  target : Fin 2
  block : Nat
  erase : Bool
deriving DecidableEq, Repr

/-- How one NAND operation ended (R291, R292, R540); the verify of a codeword that was written (R296); a directory record, and whether the log
cannot commit it (R296, R300). A codeword that is none has failed three times, at its read and at two retries. -/
inductive NandEnd where
  | read (block : Nat) (corrected : Option Nat)
  | verify (block : Nat) (corrected : Option Nat)
  | program (block : Nat) (failed : Bool)
  | erase (block : Nat) (failed : Bool)
  | log (failed : Bool)
deriving DecidableEq, Repr

/-- What the verification pass of a tile flush met (R296, R300). -/
inductive FlushEnd where
  | committed
  | refused
deriving DecidableEq, Repr

/-- The source of a module reset (R473, RST_CAUSE of R495). -/
inductive ResetCause where
  | pin
  | command
  | supply
  | fabric
  | vrestart
  | mgmt
deriving DecidableEq, Repr

/-- The levels of the module's rails in mV (R504). -/
structure Rails where
  vcore : Nat
  vio : Nat
  vana : Nat
  vbat : Nat
deriving DecidableEq, Repr

/-- The fault conditions of a sensor supply (R518). -/
inductive SupCond where
  | above
  | battery
  | reversed
  | hot
  | openLoad
deriving DecidableEq, Repr

/-- What SELF_TEST bit 1 meets at one bank (R347): the channels above their threshold in the supply test, whether the bank node still
stands after 5 ms, and per channel the node voltage and VBK of its node test, in mV. -/
structure BankTest where
  above : BitVec 8
  nodeHi : Bool
  nodes : List (Int × Int)
deriving DecidableEq, Repr

/-- What a WHEEL_EDGE carries of its reading (R47, R48): the differential voltage (front end 0) or the pin voltage (front end 1) in mV, or the
current (front end 2) in 10 uA, and the TB ticks for which it has stood there. -/
structure WhlSample where
  reading : Int
  held : Nat
deriving DecidableEq, Repr

/-- What the boot ROM and Gelow meet outside the block (R482): the recovery pin is low; which NAND target becomes ready within 20 ms of its
Reset. -/
structure BootPins where
  recoveryLow : Bool
  t0Ready : Bool
  t1Ready : Bool
deriving DecidableEq, Repr

/-- A unit with window comparators (R424). -/
inductive CmpUnit where
  | cmp (n : Cmp)
  | sds (n : Sds)
deriving DecidableEq, Repr

/-- One result of a decimator, before clipping: the input voltage in nV (R410). -/
abbrev NanoVolt := Int

/-- The commands of the block, in the order of spec/opcode_table.json. -/
inductive Instr where
  | fabricWord (l : Link) (w : Word) (rx : List (BitVec 33))
  | tbBroadcast
  | sramParityRead (reader : Writer) (place : ParityPlace) (addr : Nat) (held : Word)
  | sramRefetchDone
  | lockstepFault
  | anvilCProtectionTrap (addr : Word) (k : Access)
  | anvilAccessFault (core : Core) (addr : Word) (k : Access)
  | registerWrite (who : Writer) (addr : BitVec 24) (w : Word)
  | rcRead (addr : BitVec 24)
  | vrArm (n : Fin 16) (mv : Nat)
  | wheelEdge (n : Whl) (x : WhlSample) (steepOther : Bool) (both : Bool)
  | whlMissingReference (n : Whl)
  | whlDiagEvaluation (n : Whl) (p : WhlPins)
  | whlPullTest (n : Whl) (up : Bool) (down : Bool)
  | whlFaultExit (n : Whl)
  | whlStopTimeout (n : Whl)
  | whlDirPulseTimeout (n : Whl)
  | whlInterpolationTick (n : Whl)
  | whlCfgWrite (who : Writer) (n : Whl) (w : Word)
  | whlResync (who : Writer) (n : Whl)
  | whlFaultClr (who : Writer) (n : Whl)
  | whlEdgeSnapshotRead (n : Whl)
  | whlIdxSnapshotRead (n : Whl)
  | predictionTick
  | slotMeasurement (k : Ds)
  | slotWordTimeout (k : Ds)
  | slipEvaluation
  | mdlSrcEnable (who : Writer) (k : Ds) (w : Word)
  | mdlEnable (who : Writer) (w : Word)
  | stillTimer
  | coastTimeout
  | mdlHistoryEntry
  | poseCommit (who : Writer)
  | poseProcessed
  | poseTimeout
  | fieldSet (who : Writer)
  | learnClr (who : Writer)
  | yawHostWrite (who : Writer) (w : Word)
  | yawSourceTimeout
  | deflectionSample (d : Df)
  | deflectionTimeout (d : Df)
  | axCfgWrite (who : Writer) (a : Ax) (w : Word)
  | mdlSnapshotRead
  | axSnapshotRead (a : Ax)
  | chArm (who : Writer) (ch : Ch)
  | chCancel (who : Writer) (ch : Ch) (handle : BitVec 22)
  | chCancelAll (who : Writer) (ch : Ch)
  | eventInstall (jsn : BitVec 48)
  | compareFire (ch : Ch)
  | pulseEnd (ch : Ch)
  | eventDeadline (i : Pool)
  | lateWindowExceeded (i : Pool)
  | standingSpanEnd (i : Pool)
  | chLastRead (ch : Ch)
  | chHeadRead (ch : Ch)
  | chSlotInfoRead (ch : Ch)
  | trainPulseFire (ch : Ch)
  | trainRateLimitFire (ch : Ch)
  | trainPulseOff (ch : Ch)
  | trainUpdate (who : Writer) (ch : Ch)
  | trainLengthEnd (ch : Ch)
  | latticeUpdate (ch : Ch)
  | latticePwmPeriod (ch : Ch)
  | latticePwmOff (ch : Ch)
  | latticeEnable (who : Writer) (ch : Ch) (w : Word)
  | latticeStall (ch : Ch)
  | latticeFaultExit (ch : Ch)
  | tubeClr (who : Writer) (ch : Ch)
  | trimClr (who : Writer) (ch : Ch)
  | dropWindowEnd (ch : Ch)
  | landingEvaluation (ch : Ch)
  | boostGrant (b : Bank)
  | boostDeferTimeout (ch : Ch)
  | boostCurrentReached (ch : Ch) (code : Nat)
  | boostTimeout (ch : Ch)
  | peakTimeout (ch : Ch)
  | maxonTimeout (ch : Ch)
  | windowCrossing (ch : Ch) (code : Nat)
  | decayEnd (ch : Ch)
  | bankEnableWrite (who : Writer) (b : Bank) (w : Word)
  | clusterSilence (c : Cl)
  | boostCtlEnable (who : Writer) (w : Word)
  | boostReady (mv : Nat)
  | boostStartTimeout
  | boostIlim (shuntMv : Nat)
  | railClampOn (d : Die) (mv : Nat)
  | boostOvIn (mv : Nat)
  | boostOvOut (mv : Nat)
  | chDrvWindowWrite (who : Writer) (ch : Ch) (hold : Bool) (w : Word)
  | dutyCheck (ch : Ch)
  | channelTemperature (ch : Ch) (celsius : Int)
  | dieLossBudget (d : Die) (lossMw : Nat)
  | vbkUndervoltage (b : Bank) (mv : Nat) (heldUs : Nat)
  | vbkLost (b : Bank) (mv : Nat) (heldUs : Nat)
  | vbkBack (b : Bank) (mv : Nat) (heldUs : Nat)
  | nodeTestStart (ch : Ch)
  | nodeTestRequest (who : Writer) (ch : Ch)
  | nodeTestResult (ch : Ch) (voutMv : Int) (vbkMv : Int)
  | supplyTestStart (b : Bank)
  | supplyTestRequest (who : Writer) (b : Bank)
  | supplyTestResult (b : Bank) (above : BitVec 8)
  | supplyTestNodeHi (b : Bank)
  | shortCircuitTrip (ch : Ch) (ma : Nat)
  | tooFast (ch : Ch) (code : Nat)
  | noRise (ch : Ch) (code : Nat)
  | heldLowAtTurnOff (ch : Ch) (voutMv : Int)
  | diagClear (who : Writer) (ch : Ch)
  | notchFound (ch : Ch) (samples : List (Nat × Nat))
  | notchTimeout (ch : Ch)
  | dgNotchRead (ch : Ch)
  | captureLaneDone (c : Cap) (lane : Fin 4) (samples : List (BitVec 12))
  | captureRelease (who : Writer) (c : Cap) (lanes : BitVec 4)
  | captureRequest (who : Writer) (c : Cap) (idx : Fin 24)
  | captureArmTimeout (c : Cap) (lane : Fin 4)
  | gelowTick
  | wearSave
  | bcapCompute (vbatMv : Nat)
  | tileLoadDone (presc : Bool) (slot : Nat) (uncorrectable : Bool)
  | tileFlushStart (slot : Fin 24)
  | tileFlushCommit (slot : Fin 24) (r : FlushEnd)
  | mapScan
  | gateActionsCommit (ch : Ch)
  | gateActionFire (ch : Ch)
  | mapGateDisable (ch : Option Ch)
  | coverageWriteback
  | nandMount (t0 : Option NandPage) (t1 : Option NandPage) (cuts : List NandCut)
  | nandOperationDone (t : Fin 2) (e : NandEnd)
  | nandRefresh (t : Fin 2) (uncorrectable : Bool)
  | nandPatrolRead (t : Fin 2) (block : Nat) (corrected : Option Nat) (roundEnd : Bool)
  | nandWearLevelMove (t : Fin 2)
  | nandTargetFail (t : Fin 2)
  | nandEolCompute
  | writeFrame (p : Port) (bytes : List Byte)
  | readFrame (p : Port) (bytes : List Byte)
  | syncFrame (p : Port) (bytes : List Byte) (csTb : Nat)
  | frameCut (p : Port) (bytes : List Byte) (afterTurnaround : Bool)
  | mbDoor (m : Mbx) (seq : Byte)
  | mbAbort (m : Mbx)
  | mbNext (m : Mbx)
  | responseRead (m : Mbx)
  | hpQHeadWrite (p : Port) (w : Word)
  | uploadChunkCopy (p : Port)
  | chunkHoldTimeout (m : Mbx)
  | chunkDelivery (m : Mbx)
  | identify (m : Mbx)
  | status (m : Mbx)
  | options (m : Mbx)
  | resetAnvilC (m : Mbx)
  | resetModule (m : Mbx)
  | axisSet (m : Mbx)
  | axisGet (m : Mbx)
  | arm (m : Mbx)
  | cancel (m : Mbx)
  | inhibitSet (m : Mbx)
  | inhibitRelease (m : Mbx)
  | eventGet (m : Mbx)
  | armTrain (m : Mbx)
  | trainUpd (m : Mbx)
  | trainReport (m : Mbx)
  | latticeSet (m : Mbx)
  | latticeReport (m : Mbx)
  | mount (m : Mbx)
  | mapConfig (m : Mbx)
  | rateSet (m : Mbx)
  | mapChSet (m : Mbx)
  | tileLoad (m : Mbx)
  | coverageExport (m : Mbx)
  | journalRead (m : Mbx)
  | journalCollect (m : Mbx)
  | journalFind (m : Mbx)
  | counters (m : Mbx)
  | captureGet (m : Mbx)
  | wearReport (m : Mbx)
  | wearParam (m : Mbx)
  | wearReset (m : Mbx)
  | calSweep (m : Mbx)
  | selfTest (m : Mbx) (t0 : List NanoVolt) (t2 t3 t4 : Nat) (banks : List BankTest)
  | fwUpdate (m : Mbx)
  | gelowResume
  | anvilVRestart
  | journalPhaseWord
  | journalHeartbeat
  | crucibleUncorrectable (addr : BitVec 21)
  | clusterRetry (c : Cl)
  | interruptEntry (core : Core) (arrivals : List (Fin 6 × Src))
  | handlerMret (core : Core)
  | queueRecordWrite (p : Port)
  | holdoffExpire (g : Grp)
  | intSwset (who : Writer) (n : Src)
  | intClrpend (who : Writer) (w : Word)
  | wakeSource (n : Src)
  | adcResult (u : Adc) (v : NanoVolt)
  | adcStart (who : Writer) (u : Adc)
  | adcCtlWrite (who : Writer) (u : Adc) (w : Word)
  | adcResRead (u : Adc)
  | assayStart (who : Writer) (w : Word)
  | assayEntryStart
  | assayEntryStore (results : List NanoVolt)
  | comparatorChange (u : CmpUnit) (code : Nat) (firstTb : Nat)
  | comparatorFirstEval (u : CmpUnit) (code : Nat)
  | cmpTbRead (n : Cmp)
  | sdsExcursionEnd (n : Sds)
  | sdsBlocked (n : Sds)
  | sdsDiagEvaluation (n : Sds) (pinMv : Int)
  | sdsDropRead (n : Sds)
  | jump (e : Fe) (pins : BitVec 64)
  | waitfor (e : Fe) (pins : BitVec 64)
  | xfer (e : Fe) (pins : BitVec 64)
  | swap (e : Fe)
  | move (e : Fe) (pins : BitVec 64)
  | loadk (e : Fe)
  | addk (e : Fe)
  | drive (e : Fe)
  | gsig (e : Fe)
  | illegalInstruction (e : Fe)
  | feStallClear (e : Fe) (pins : BitVec 64)
  | feHoldEnd (e : Fe)
  | feTxWrite (who : Writer) (e : Fe) (w : Word)
  | feRxRead (e : Fe)
  | feProgWrite (who : Writer) (e : Fe) (i : Fin 64) (w : Word)
  | feEnableWrite (who : Writer) (e : Fe) (en : Bool)
  | feSyncHalt (who : Writer)
  | feSyncReset (who : Writer)
  | feSyncPhase (who : Writer)
  | feSyncRun (who : Writer)
  | timerTick (n : Tim)
  | timerCapture (n : Tim) (rising : Bool)
  | timCapRead (n : Tim)
  | timerFreeze (core : Core) (halt : Bool)
  | clockSwitchStart (who : Writer) (i : Isl) (sel : BitVec 2)
  | clockSwitchDone (i : Isl)
  | clockSwitchTimeout (i : Isl)
  | clockStop (i : Isl)
  | clockAutoRecover (i : Isl)
  | xtalLoss (cycles : Nat)
  | xtalRestore
  | trimMark (pps : Bool)
  | trimHoldTimeout
  | moduleReset (cause : ResetCause)
  | islandReset (who : Writer) (i : Isl)
  | wdtVExpire
  | wdtCExpire
  | anvilCRestart
  | sleepRequest (who : Writer)
  | wakeRequest (who : Writer)
  | bootRom (p : BootPins)
  | gelowStart
  | bootRcvGo (p : Port) (w : Word)
  | keyProgGo (who : Writer) (slot : Fin 4)
  | keyProgRevoke (who : Writer) (slot : Fin 4)
  | keyProgDone
  | protSeal (who : Writer)
  | powerUp (r : Rails) (nrstHigh : Bool)
  | powerLoss (r : Rails)
  | supplyMonitorChange (bit : Fin 6) (mv : Nat) (heldUs : Nat)
  | lossDetectArm (vbsnsMv : Nat) (heldUs : Nat)
  | supplyLossDetection (vbsnsMv : Nat) (vbatMv : Nat) (heldUs : Nat)
  | boostDisconnectOpen (vbsnsMv : Nat)
  | boostDisconnectClose (vbsnsMv : Nat) (heldUs : Nat)
  | supFaultDetect (n : Sup) (c : SupCond) (level : Int) (heldUs : Nat)
  | supReclose (n : Sup) (level : Int) (heldUs : Nat)
  | supCtlWrite (who : Writer) (w : Word) (pinsOut : BitVec 8)
  | islandClockReturn (i : Isl)
  | islandResetRelease (i : Isl)
  | sdsPullTest (n : Sds) (up : Bool) (down : Bool)
  | supFltClear (n : Sup) (ua : Nat) (heldUs : Nat)
  | adcSelWrite (who : Writer) (u : Adc) (w : Word)
  | comparatorCfgWrite (who : Writer) (u : CmpUnit) (thr : Bool) (w : Word)
  | timerCtlWrite (who : Writer) (n : Tim) (cnt : Bool) (w : Word)
  | blankingExpiry (ch : Ch) (code : Nat)
  | channelConfigWrite (who : Writer) (ch : Ch) (reg : Fin 3) (w : Word)
deriving DecidableEq, Repr

end Sys2Proof
end

