-- ==== Sys2Proof/Decode.lean ====
section
/-! DEFINITION. The block has no words to decode: no row of spec/opcode_table.json gives bits. Its commands come from outside, each with
its operands. -/

namespace Sys2Proof

/-- The command that a word of the opcode table spells: none, since no row gives bits. -/
def decodeTableWord (_nbits _w : Nat) : Option Instr := none

end Sys2Proof
end

