-- ==== Sys2Proof/Machine/Fixed.lean ====
section
/-! DEFINITION. Fixed-point arithmetic of Mandrel and the loops: numbers with 32 fraction bits (R82 asks for at least 16), square roots,
sine and cosine. The manual states no rounding; every quotient rounds down. -/

namespace Sys2Proof.Machine

/-- One, with 32 fraction bits. -/
def fxOne : Int := 4294967296

/-- An integer with 32 fraction bits. -/
def fx (i : Int) : Int := i * fxOne

/-- The integer part, rounded down. -/
def fxInt (x : Int) : Int := x / fxOne

/-- The product of two numbers with 32 fraction bits. -/
def fxMul (x y : Int) : Int := x * y / fxOne

/-- The magnitude of a signed number. -/
def absI (x : Int) : Int := if x < 0 then -x else x

/-- The smaller of two signed numbers. -/
def minI (x y : Int) : Int := if x ≤ y then x else y

/-- The larger of two signed numbers. -/
def maxI (x y : Int) : Int := if x ≤ y then y else x

/-- A quotient, rounded to the nearest with halves up; 0 for a divisor of 0. -/
def roundDiv (x d : Int) : Int := if d = 0 then 0 else (2 * x + d) / (2 * d)

/-- The square root of n, rounded down, bit by bit from bit k. -/
def sqrtBits (n k r : Nat) : Nat :=
  match k with
  | 0 => if (r + 1) * (r + 1) ≤ n then r + 1 else r
  | j + 1 =>
    let c := r + 2 ^ (j + 1)
    sqrtBits n j (if c * c ≤ n then c else r)

/-- The square root, rounded down, of a number below 2^128. -/
def isqrt (n : Nat) : Nat := sqrtBits n 63 0

/-- 2π with 32 fraction bits. -/
def fxTwoPi : Int := 26986075409

/-- The natural frequency 2π · bw · scale, bw in units of 1/den Hz, with 32 fraction bits, in rad/s. -/
def omegaOf (bw den : Nat) : Int := fxTwoPi * bw / den

/-- Powers of x over factorials, alternating, from the term t of order k on: n terms of a Taylor series. -/
def taylor (x2 t : Int) (k n : Nat) : Int :=
  match n with
  | 0 => 0
  | j + 1 => t + taylor x2 (-(fxMul t x2) / ((k + 1) * (k + 2) : Nat)) (k + 2) j

/-- The sine of an angle in radians, at most a quarter turn, with 32 fraction bits. -/
def sinRad (x : Int) : Int := taylor (fxMul x x) x 1 9

/-- The cosine of an angle in radians, at most a quarter turn, with 32 fraction bits. -/
def cosRad (x : Int) : Int := taylor (fxMul x x) fxOne 0 9

/-- Radians, with 32 fraction bits, of a fraction of a turn in 1/2^32. -/
def turnToRad (f : Nat) : Int := fxTwoPi * f / fxOne

/-- The sine of a wrapped fraction of a turn in 1/2^32 (R82). -/
def sinTurn (f : Nat) : Int :=
  let q := f % 2 ^ 32 / 2 ^ 30
  let r := turnToRad (f % 2 ^ 30)
  if q = 0 then sinRad r else if q = 1 then cosRad r else if q = 2 then -(sinRad r) else -(cosRad r)

/-- The cosine of a wrapped fraction of a turn in 1/2^32 (R82). -/
def cosTurn (f : Nat) : Int := sinTurn (f + 2 ^ 30)

end Sys2Proof.Machine
end

