-- ==== Sys2Proof/Config.lean ====
section
/-! DEFINITION. What the FJ192 manual leaves open, as constants with no body: nothing can be proved of their values. -/

namespace Sys2Proof.Config

/-- Free value n: the skew, 0 or 1 TB, of an island's replica after broadcast n (R21 bounds it, nothing gives it). DESIGN CHOICE, unsafe: log entry 10. -/
opaque replicaSkew : Nat → Nat → Bool
/-- Free value n: which of the free pool indices a new slot takes (R134 leaves it unspecified). DESIGN CHOICE, safe: log entry 11. -/
opaque poolChoice : Nat → Nat
/-- SHA-256 of an image or key (R483 names the algorithm, the manual does not restate it). DESIGN CHOICE, safe: log entry 25. -/
opaque sha256 : List Byte → List Byte
/-- ECDSA P-256: key, digest, signature (R483 names the algorithm, the manual does not restate it). DESIGN CHOICE, safe: log entry 25. -/
opaque ecdsaVerify : List Byte → List Byte → List Byte → Bool
/-- The CRC-32 of tile headers and directory records (R290 names no polynomial). DESIGN CHOICE, safe: log entry 25. -/
opaque crc32 : List Byte → BitVec 32
/-- Free value n: a value the manual states no result for (each use names its log entry). DESIGN CHOICE, safe: log entry 5. -/
opaque freeInt : Nat → Int

end Sys2Proof.Config
end

