-- ==== Sys2Proof/Machine/Fields.lean ====
section
/-! DEFINITION. The register maps of the FJ192: every field of every map of spec/ (834), with its address, bits, access code and reset value.
Each field is named REGISTER_FIELD as the manual writes REGISTER.FIELD; a register of one field bears the register's name. -/

namespace Sys2Proof.Machine

/-- Access codes (R7). -/
inductive Acc where
  | rw
  | ro
  | w1c
  | wo
  | rc
  | sl
deriving DecidableEq, Repr

/-- Where the instances of a block's registers lie: instance i * n2 + j at the first address plus i * stride1 + j * stride2. -/
structure Geo where
  n1 : Nat
  stride1 : Nat
  n2 : Nat
  stride2 : Nat
deriving DecidableEq, Repr

/-- How a field's reset value depends on its instance: the same for all; the instance number (CH_AXIS); the urgency and tie rank
of R406; the targets of R385; input 24 from an instance on (R433, R434). -/
inductive RstKind where
  | all
  | inst
  | urgent
  | target
  | input24 (first : Nat)
deriving DecidableEq, Repr

/-- A register field: the address of its register at instance 0, its lowest bit, its width, its access code, its reset value. -/
structure Field where
  addr : Nat
  lsb : Nat
  w : Nat
  acc : Acc
  rst : Nat
  geo : Geo
  rk : RstKind := .all
  /-- The field lies within the 32 bits of its register (R6). -/
  fits : lsb + w ≤ 32
deriving DecidableEq, Repr

/-- The key of a field in the register file: no two fields share a register and a lowest bit. -/
def Field.id (f : Field) : Nat := 32 * f.addr + f.lsb

/-- The reset value of a field at an instance (R12 and the Reset columns). -/
def Field.reset (f : Field) (i : Nat) : Nat :=
  match f.rk with
  | .all => f.rst
  | .inst => i
  | .urgent => if 325 ≤ i ∧ i ≤ 330 then 0 else 15
  | .target => if i = 324 then 2 else if 325 ≤ i ∧ i ≤ 330 then 1 else 0
  | .input24 n => if n ≤ i then 24 else 0

/-- Block WHL: first address 0x300000. -/
def geoWHL : Geo := ⟨64, 0x400, 1, 0x0⟩
def WHL_CFG_MODE : Field := ⟨0x300000, 0, 3, .rw, 0, geoWHL, .all, by decide⟩
def WHL_CFG_REF : Field := ⟨0x300000, 4, 2, .rw, 0, geoWHL, .all, by decide⟩
def WHL_CFG_EDGE : Field := ⟨0x300000, 6, 1, .rw, 0, geoWHL, .all, by decide⟩
def WHL_CFG_ACQ : Field := ⟨0x300000, 7, 1, .rw, 0, geoWHL, .all, by decide⟩
def WHL_CFG_DIR_SRC : Field := ⟨0x300000, 8, 2, .rw, 0, geoWHL, .all, by decide⟩
def WHL_CFG_REALIGN : Field := ⟨0x300000, 10, 1, .rw, 0, geoWHL, .all, by decide⟩
def WHL_CFG_LATCH_FLT : Field := ⟨0x300000, 11, 1, .rw, 0, geoWHL, .all, by decide⟩
def WHL_CFG_MISSING : Field := ⟨0x300000, 12, 2, .rw, 0, geoWHL, .all, by decide⟩
def WHL_TEETH_TEETH : Field := ⟨0x300004, 0, 12, .rw, 0, geoWHL, .all, by decide⟩
def WHL_TEETH_IDX_TOL : Field := ⟨0x300004, 16, 3, .rw, 0, geoWHL, .all, by decide⟩
def WHL_QUAL_MIN_IVL : Field := ⟨0x300008, 0, 20, .rw, 0, geoWHL, .all, by decide⟩
def WHL_QUAL_EFLT_LIM : Field := ⟨0x300008, 24, 6, .rw, 0, geoWHL, .all, by decide⟩
def WHL_TIMEOUT_STOP_TMO : Field := ⟨0x30000c, 0, 16, .rw, 0, geoWHL, .all, by decide⟩
def WHL_GAP_GAP_HI : Field := ⟨0x300010, 0, 8, .rw, 24, geoWHL, .all, by decide⟩
def WHL_SRC_INDEX_SRC : Field := ⟨0x300014, 0, 6, .rw, 0, geoWHL, .all, by decide⟩
def WHL_SRC_IDX_EDGE : Field := ⟨0x300014, 6, 1, .rw, 0, geoWHL, .all, by decide⟩
def WHL_SRC_DIR_IN : Field := ⟨0x300014, 8, 6, .rw, 0, geoWHL, .all, by decide⟩
def WHL_SRC_DIR_POL : Field := ⟨0x300014, 14, 1, .rw, 0, geoWHL, .all, by decide⟩
def WHL_SRC_SUP : Field := ⟨0x300014, 16, 3, .rw, 0, geoWHL, .all, by decide⟩
def WHL_SRC_SUP_EN : Field := ⟨0x300014, 19, 1, .rw, 0, geoWHL, .all, by decide⟩
def WHL_SRC_DIR_PW : Field := ⟨0x300014, 20, 12, .rw, 0, geoWHL, .all, by decide⟩
def WHL_FE_FE : Field := ⟨0x300018, 0, 2, .rw, 1, geoWHL, .all, by decide⟩
def WHL_FE_HALL_THR : Field := ⟨0x300018, 2, 2, .rw, 0, geoWHL, .all, by decide⟩
def WHL_FE_PULL : Field := ⟨0x300018, 4, 2, .rw, 0, geoWHL, .all, by decide⟩
def WHL_FE_THR_FRAC : Field := ⟨0x300018, 6, 2, .rw, 1, geoWHL, .all, by decide⟩
def WHL_FE_VR_MIN : Field := ⟨0x300018, 8, 8, .rw, 10, geoWHL, .all, by decide⟩
def WHL_FE_FILT : Field := ⟨0x300018, 16, 8, .rw, 25, geoWHL, .all, by decide⟩
def WHL_FE_INV : Field := ⟨0x300018, 24, 1, .rw, 0, geoWHL, .all, by decide⟩
def WHL_FE_AUTO_POL : Field := ⟨0x300018, 25, 1, .rw, 0, geoWHL, .all, by decide⟩
def WHL_FE_DIAG_EN : Field := ⟨0x300018, 26, 1, .rw, 1, geoWHL, .all, by decide⟩
def WHL_STAT_STATE : Field := ⟨0x300020, 0, 3, .ro, 0, geoWHL, .all, by decide⟩
def WHL_STAT_ANGLE_VALID : Field := ⟨0x300020, 3, 1, .ro, 0, geoWHL, .all, by decide⟩
def WHL_STAT_STOP : Field := ⟨0x300020, 4, 1, .ro, 0, geoWHL, .all, by decide⟩
def WHL_STAT_DIR : Field := ⟨0x300020, 5, 1, .ro, 0, geoWHL, .all, by decide⟩
def WHL_STAT_POL_INV : Field := ⟨0x300020, 6, 1, .ro, 0, geoWHL, .all, by decide⟩
def WHL_STAT_LINE : Field := ⟨0x300020, 7, 1, .ro, 0, geoWHL, .all, by decide⟩
def WHL_STAT_EFLT_WIN : Field := ⟨0x300020, 8, 6, .ro, 0, geoWHL, .all, by decide⟩
def WHL_STAT_COND : Field := ⟨0x300020, 14, 5, .ro, 0, geoWHL, .all, by decide⟩
def WHL_FLAGS : Field := ⟨0x300024, 0, 19, .w1c, 0, geoWHL, .all, by decide⟩
def WHL_DIRSET_DIR : Field := ⟨0x30002c, 0, 1, .rw, 0, geoWHL, .all, by decide⟩
def WHL_CMD_RESYNC : Field := ⟨0x300030, 0, 1, .wo, 0, geoWHL, .all, by decide⟩
def WHL_CMD_FAULT_CLR : Field := ⟨0x300030, 1, 1, .wo, 0, geoWHL, .all, by decide⟩
def WHL_CNT : Field := ⟨0x300040, 0, 32, .ro, 0, geoWHL, .all, by decide⟩
def WHL_ANGLE : Field := ⟨0x300044, 0, 32, .ro, 0, geoWHL, .all, by decide⟩
def WHL_TURN : Field := ⟨0x300048, 0, 24, .ro, 0, geoWHL, .all, by decide⟩
def WHL_EDGE_TB_LO : Field := ⟨0x300050, 0, 32, .ro, 0, geoWHL, .all, by decide⟩
def WHL_EDGE_TB_HI : Field := ⟨0x300054, 0, 32, .ro, 0, geoWHL, .all, by decide⟩
def WHL_SNAP_CNT : Field := ⟨0x300058, 0, 32, .ro, 0, geoWHL, .all, by decide⟩
def WHL_SNAP_IVL : Field := ⟨0x30005c, 0, 32, .ro, 0, geoWHL, .all, by decide⟩
def WHL_IVL : Field := ⟨0x300060, 0, 32, .ro, 4294967295, geoWHL, .all, by decide⟩
def WHL_IDX_LATCH : Field := ⟨0x300064, 0, 32, .ro, 0, geoWHL, .all, by decide⟩
def WHL_IDX_TB_LO : Field := ⟨0x300068, 0, 32, .ro, 0, geoWHL, .all, by decide⟩
def WHL_IDX_TB_HI : Field := ⟨0x30006c, 0, 32, .ro, 0, geoWHL, .all, by decide⟩
def WHL_IDX_DELTA : Field := ⟨0x300070, 0, 16, .ro, 0, geoWHL, .all, by decide⟩
def WHL_DRIFT : Field := ⟨0x300074, 0, 16, .ro, 0, geoWHL, .all, by decide⟩
def WHL_EFLT_CNT : Field := ⟨0x300078, 0, 16, .rc, 0, geoWHL, .all, by decide⟩
def WHL_TCNT_CNT : Field := ⟨0x30007c, 0, 16, .rc, 0, geoWHL, .all, by decide⟩
def WHL_QERR_CNT : Field := ⟨0x300080, 0, 16, .rc, 0, geoWHL, .all, by decide⟩
def WHL_MISM_CNT : Field := ⟨0x300084, 0, 16, .rc, 0, geoWHL, .all, by decide⟩
def WHL_VR_PEAK : Field := ⟨0x300088, 0, 16, .ro, 0, geoWHL, .all, by decide⟩
def WHL_DIAG_PIN_MV : Field := ⟨0x30008c, 0, 16, .ro, 0, geoWHL, .all, by decide⟩
def WHL_DIAG_PIN_CUR : Field := ⟨0x30008c, 16, 16, .ro, 0, geoWHL, .all, by decide⟩
def WHL_IE : Field := ⟨0x300028, 0, 19, .rw, 0, geoWHL, .all, by decide⟩

/-- Block MDL: first address 0x380000. -/
def geoMDL : Geo := ⟨1, 0x0, 1, 0x0⟩
def MDL_CFG_EN : Field := ⟨0x380000, 0, 1, .rw, 0, geoMDL, .all, by decide⟩
def MDL_CFG_ACC_BW : Field := ⟨0x380000, 8, 8, .rw, 20, geoMDL, .all, by decide⟩
def MDL_CFG_COAST_MS : Field := ⟨0x380000, 16, 16, .rw, 500, geoMDL, .all, by decide⟩
def MDL_STILL_STILL_V : Field := ⟨0x380004, 0, 16, .rw, 20, geoMDL, .all, by decide⟩
def MDL_STILL_STILL_MS : Field := ⟨0x380004, 16, 8, .rw, 100, geoMDL, .all, by decide⟩
def MDL_STILL_STILL_YAW : Field := ⟨0x380004, 24, 8, .rw, 10, geoMDL, .all, by decide⟩
def MDL_STAT_STATE : Field := ⟨0x380008, 0, 3, .ro, 0, geoMDL, .all, by decide⟩
def MDL_STAT_NTRACK : Field := ⟨0x380008, 3, 4, .ro, 0, geoMDL, .all, by decide⟩
def MDL_STAT_BEST : Field := ⟨0x380008, 7, 4, .ro, 15, geoMDL, .all, by decide⟩
def MDL_STAT_YAW_ACT : Field := ⟨0x380008, 11, 3, .ro, 0, geoMDL, .all, by decide⟩
def MDL_STAT_FIELD_OK : Field := ⟨0x380008, 14, 1, .ro, 0, geoMDL, .all, by decide⟩
def MDL_STAT_FIELD_DR : Field := ⟨0x380008, 15, 1, .ro, 0, geoMDL, .all, by decide⟩
def MDL_STAT_POSE_CUR : Field := ⟨0x380008, 16, 1, .ro, 0, geoMDL, .all, by decide⟩
def MDL_FLAGS : Field := ⟨0x38000c, 0, 17, .w1c, 0, geoMDL, .all, by decide⟩
def MDL_CMD_FIELD_SET : Field := ⟨0x380014, 0, 1, .wo, 0, geoMDL, .all, by decide⟩
def MDL_CMD_LEARN_CLR : Field := ⟨0x380014, 1, 1, .wo, 0, geoMDL, .all, by decide⟩
def MDL_TB_LO : Field := ⟨0x380020, 0, 32, .ro, 0, geoMDL, .all, by decide⟩
def MDL_TB_HI : Field := ⟨0x380024, 0, 32, .ro, 0, geoMDL, .all, by decide⟩
def MDL_S_LO : Field := ⟨0x380028, 0, 32, .ro, 0, geoMDL, .all, by decide⟩
def MDL_S_HI : Field := ⟨0x38002c, 0, 8, .ro, 0, geoMDL, .all, by decide⟩
def MDL_V : Field := ⟨0x380030, 0, 32, .ro, 0, geoMDL, .all, by decide⟩
def MDL_A : Field := ⟨0x380034, 0, 32, .ro, 0, geoMDL, .all, by decide⟩
def MDL_YAW : Field := ⟨0x380038, 0, 32, .ro, 0, geoMDL, .all, by decide⟩
def MDL_YAWRATE : Field := ⟨0x38003c, 0, 32, .ro, 0, geoMDL, .all, by decide⟩
def MDL_E : Field := ⟨0x380040, 0, 32, .ro, 0, geoMDL, .all, by decide⟩
def MDL_N : Field := ⟨0x380044, 0, 32, .ro, 0, geoMDL, .all, by decide⟩
def MDL_POSE_E : Field := ⟨0x380080, 0, 32, .rw, 0, geoMDL, .all, by decide⟩
def MDL_POSE_N : Field := ⟨0x380084, 0, 32, .rw, 0, geoMDL, .all, by decide⟩
def MDL_POSE_HDG : Field := ⟨0x380088, 0, 32, .rw, 0, geoMDL, .all, by decide⟩
def MDL_POSE_SPD : Field := ⟨0x38008c, 0, 32, .rw, 0, geoMDL, .all, by decide⟩
def MDL_POSE_TB_LO : Field := ⟨0x380090, 0, 32, .rw, 0, geoMDL, .all, by decide⟩
def MDL_POSE_TB_HI : Field := ⟨0x380094, 0, 32, .rw, 0, geoMDL, .all, by decide⟩
def MDL_POSE_QUAL_SIGMA : Field := ⟨0x380098, 0, 16, .rw, 0, geoMDL, .all, by decide⟩
def MDL_POSE_QUAL_HDG_SIGMA : Field := ⟨0x380098, 16, 8, .rw, 0, geoMDL, .all, by decide⟩
def MDL_POSE_QUAL_HDG_VALID : Field := ⟨0x380098, 24, 1, .rw, 0, geoMDL, .all, by decide⟩
def MDL_POSE_QUAL_SPD_VALID : Field := ⟨0x380098, 25, 1, .rw, 0, geoMDL, .all, by decide⟩
def MDL_POSE_CMD_COMMIT : Field := ⟨0x38009c, 0, 1, .wo, 0, geoMDL, .all, by decide⟩
def MDL_POSE_STAT_LAST : Field := ⟨0x3800a0, 0, 3, .ro, 0, geoMDL, .all, by decide⟩
def MDL_POSE_STAT_BUSY : Field := ⟨0x3800a0, 3, 1, .ro, 0, geoMDL, .all, by decide⟩
def MDL_POSE_STAT_LOOP : Field := ⟨0x3800a0, 4, 3, .ro, 0, geoMDL, .all, by decide⟩
def MDL_POSE_CFG_POS_BW : Field := ⟨0x3800a4, 0, 8, .rw, 50, geoMDL, .all, by decide⟩
def MDL_POSE_CFG_HDG_BW : Field := ⟨0x3800a4, 8, 8, .rw, 20, geoMDL, .all, by decide⟩
def MDL_POSE_CFG_GATE : Field := ⟨0x3800a4, 16, 8, .rw, 5, geoMDL, .all, by decide⟩
def MDL_POSE_CFG_REJ_MAX : Field := ⟨0x3800a4, 24, 4, .rw, 3, geoMDL, .all, by decide⟩
def MDL_POSE_TMO_TMO : Field := ⟨0x3800a8, 0, 16, .rw, 500, geoMDL, .all, by decide⟩
def MDL_POSE_LOOP_BW : Field := ⟨0x3800ac, 0, 8, .rw, 5, geoMDL, .all, by decide⟩
def MDL_POSE_LOOP_WEIGHT : Field := ⟨0x3800ac, 8, 8, .rw, 0, geoMDL, .all, by decide⟩
def MDL_POSE_LOOP_RANK : Field := ⟨0x3800ac, 16, 2, .rw, 3, geoMDL, .all, by decide⟩
def MDL_POSE_REJ_CNT : Field := ⟨0x3800b0, 0, 16, .rc, 0, geoMDL, .all, by decide⟩
def MDL_POSE_V : Field := ⟨0x3800b4, 0, 32, .ro, 0, geoMDL, .all, by decide⟩
def MDL_YAW_CFG_PRI : Field := ⟨0x3800c0, 0, 3, .rw, 0, geoMDL, .all, by decide⟩
def MDL_YAW_CFG_SEC : Field := ⟨0x3800c0, 3, 3, .rw, 0, geoMDL, .all, by decide⟩
def MDL_YAW_CFG_FE : Field := ⟨0x3800c0, 6, 5, .rw, 0, geoMDL, .all, by decide⟩
def MDL_YAW_CFG_WL : Field := ⟨0x3800c0, 11, 3, .rw, 0, geoMDL, .all, by decide⟩
def MDL_YAW_CFG_WR : Field := ⟨0x3800c0, 14, 3, .rw, 0, geoMDL, .all, by decide⟩
def MDL_YAW_CFG_LAT : Field := ⟨0x3800c0, 17, 8, .rw, 0, geoMDL, .all, by decide⟩
def MDL_YAW_TRACK_TRACK : Field := ⟨0x3800c4, 0, 16, .rw, 0, geoMDL, .all, by decide⟩
def MDL_YAW_TRACK_TMO : Field := ⟨0x3800c4, 16, 16, .rw, 50, geoMDL, .all, by decide⟩
def MDL_YAW_SCALE : Field := ⟨0x3800c8, 0, 32, .rw, 65536, geoMDL, .all, by decide⟩
def MDL_YAW_HOST : Field := ⟨0x3800cc, 0, 32, .rw, 0, geoMDL, .all, by decide⟩
def MDL_YAW_BIAS : Field := ⟨0x3800d0, 0, 32, .ro, 0, geoMDL, .all, by decide⟩
def MDL_IE : Field := ⟨0x380010, 0, 17, .rw, 0, geoMDL, .all, by decide⟩

/-- Block MDL_DF: first address 0x380100. -/
def geoMDL_DF : Geo := ⟨8, 0x20, 1, 0x0⟩
def MDL_DF_CFG_SRC : Field := ⟨0x380100, 0, 2, .rw, 0, geoMDL_DF, .all, by decide⟩
def MDL_DF_CFG_UNIT : Field := ⟨0x380100, 2, 5, .rw, 0, geoMDL_DF, .all, by decide⟩
def MDL_DF_CFG_AIN : Field := ⟨0x380100, 7, 6, .rw, 0, geoMDL_DF, .all, by decide⟩
def MDL_DF_CFG_BW : Field := ⟨0x380100, 16, 8, .rw, 20, geoMDL_DF, .all, by decide⟩
def MDL_DF_CFG_TMO : Field := ⟨0x380100, 24, 8, .rw, 50, geoMDL_DF, .all, by decide⟩
def MDL_DF_SCALE : Field := ⟨0x380104, 0, 32, .rw, 0, geoMDL_DF, .all, by decide⟩
def MDL_DF_OFS : Field := ⟨0x380108, 0, 32, .rw, 0, geoMDL_DF, .all, by decide⟩
def MDL_DF_VAL : Field := ⟨0x38010c, 0, 32, .ro, 0, geoMDL_DF, .all, by decide⟩
def MDL_DF_HOST : Field := ⟨0x380110, 0, 32, .rw, 0, geoMDL_DF, .all, by decide⟩

/-- Block MDL_SRC: first address 0x380200. -/
def geoMDL_SRC : Geo := ⟨8, 0x40, 1, 0x0⟩
def MDL_SRC_CFG_EN : Field := ⟨0x380200, 0, 1, .rw, 0, geoMDL_SRC, .all, by decide⟩
def MDL_SRC_CFG_TYPE : Field := ⟨0x380200, 1, 1, .rw, 0, geoMDL_SRC, .all, by decide⟩
def MDL_SRC_CFG_INPUT : Field := ⟨0x380200, 2, 6, .rw, 0, geoMDL_SRC, .all, by decide⟩
def MDL_SRC_CFG_RANK : Field := ⟨0x380200, 8, 2, .rw, 1, geoMDL_SRC, .all, by decide⟩
def MDL_SRC_CFG_WEIGHT : Field := ⟨0x380200, 16, 8, .rw, 0, geoMDL_SRC, .all, by decide⟩
def MDL_SRC_CFG_LEARN : Field := ⟨0x380200, 24, 1, .rw, 0, geoMDL_SRC, .all, by decide⟩
def MDL_SRC_CFG_SIGN : Field := ⟨0x380200, 25, 1, .rw, 0, geoMDL_SRC, .all, by decide⟩
def MDL_SRC_CFG_NOCH : Field := ⟨0x380200, 26, 1, .rw, 0, geoMDL_SRC, .all, by decide⟩
def MDL_SRC_SCALE : Field := ⟨0x380204, 0, 32, .rw, 0, geoMDL_SRC, .all, by decide⟩
def MDL_SRC_LOOP_BW : Field := ⟨0x380208, 0, 8, .rw, 40, geoMDL_SRC, .all, by decide⟩
def MDL_SRC_LOOP_GATE : Field := ⟨0x380208, 8, 8, .rw, 16, geoMDL_SRC, .all, by decide⟩
def MDL_SRC_LOOP_ACQ_EDGES : Field := ⟨0x380208, 16, 4, .rw, 4, geoMDL_SRC, .all, by decide⟩
def MDL_SRC_LOOP_REJ_MAX : Field := ⟨0x380208, 20, 4, .rw, 4, geoMDL_SRC, .all, by decide⟩
def MDL_SRC_LOOP_LAT : Field := ⟨0x380208, 24, 8, .rw, 0, geoMDL_SRC, .all, by decide⟩
def MDL_SRC_SLIP_THR : Field := ⟨0x38020c, 0, 10, .rw, 30, geoMDL_SRC, .all, by decide⟩
def MDL_SRC_SLIP_SLIP_MS : Field := ⟨0x38020c, 10, 10, .rw, 20, geoMDL_SRC, .all, by decide⟩
def MDL_SRC_SLIP_REJOIN_MS : Field := ⟨0x38020c, 20, 10, .rw, 500, geoMDL_SRC, .all, by decide⟩
def MDL_SRC_LEARN_LIM : Field := ⟨0x380210, 0, 8, .rw, 50, geoMDL_SRC, .all, by decide⟩
def MDL_SRC_LEARN_TC : Field := ⟨0x380210, 8, 8, .rw, 60, geoMDL_SRC, .all, by decide⟩
def MDL_SRC_STAT_STATE : Field := ⟨0x380214, 0, 3, .ro, 0, geoMDL_SRC, .all, by decide⟩
def MDL_SRC_STAT_DIR : Field := ⟨0x380214, 3, 1, .ro, 0, geoMDL_SRC, .all, by decide⟩
def MDL_SRC_FLAGS : Field := ⟨0x380218, 0, 8, .w1c, 0, geoMDL_SRC, .all, by decide⟩
def MDL_SRC_V : Field := ⟨0x38021c, 0, 32, .ro, 0, geoMDL_SRC, .all, by decide⟩
def MDL_SRC_RATIO : Field := ⟨0x380220, 0, 16, .ro, 0, geoMDL_SRC, .all, by decide⟩
def MDL_SRC_JIT : Field := ⟨0x380224, 0, 16, .ro, 0, geoMDL_SRC, .all, by decide⟩
def MDL_SRC_SCALE_L : Field := ⟨0x380228, 0, 32, .ro, 0, geoMDL_SRC, .all, by decide⟩
def MDL_SRC_CNT_CORR : Field := ⟨0x38022c, 0, 16, .rc, 0, geoMDL_SRC, .all, by decide⟩
def MDL_SRC_CNT_REJ : Field := ⟨0x38022c, 16, 16, .rc, 0, geoMDL_SRC, .all, by decide⟩
def MDL_SRC_SIGMA : Field := ⟨0x380230, 0, 16, .ro, 0, geoMDL_SRC, .all, by decide⟩

/-- Block AX: first address 0x200000. -/
def geoAX : Geo := ⟨256, 0x100, 1, 0x0⟩
def AX_CFG_KIND : Field := ⟨0x200000, 0, 2, .rw, 0, geoAX, .all, by decide⟩
def AX_CFG_SLOT : Field := ⟨0x200000, 2, 3, .rw, 0, geoAX, .all, by decide⟩
def AX_Y : Field := ⟨0x200004, 0, 32, .rw, 0, geoAX, .all, by decide⟩
def AX_X : Field := ⟨0x200008, 0, 32, .rw, 0, geoAX, .all, by decide⟩
def AX_DEFL_DSEL : Field := ⟨0x20000c, 0, 3, .rw, 0, geoAX, .all, by decide⟩
def AX_DEFL_DEN : Field := ⟨0x20000c, 3, 1, .rw, 0, geoAX, .all, by decide⟩
def AX_DEFL_K : Field := ⟨0x20000c, 16, 16, .rw, 0, geoAX, .all, by decide⟩
def AX_STAT_STATE : Field := ⟨0x200010, 0, 2, .ro, 0, geoAX, .all, by decide⟩
def AX_STAT_DIR : Field := ⟨0x200010, 2, 1, .ro, 0, geoAX, .all, by decide⟩
def AX_STAT_FIELD_OK : Field := ⟨0x200010, 3, 1, .ro, 0, geoAX, .all, by decide⟩
def AX_FLAGS : Field := ⟨0x200014, 0, 4, .w1c, 0, geoAX, .all, by decide⟩
def AX_POS_LO : Field := ⟨0x200020, 0, 32, .ro, 0, geoAX, .all, by decide⟩
def AX_POS_HI : Field := ⟨0x200024, 0, 8, .ro, 0, geoAX, .all, by decide⟩
def AX_TB_LO : Field := ⟨0x200028, 0, 32, .ro, 0, geoAX, .all, by decide⟩
def AX_TB_HI : Field := ⟨0x20002c, 0, 32, .ro, 0, geoAX, .all, by decide⟩
def AX_V : Field := ⟨0x200030, 0, 32, .ro, 0, geoAX, .all, by decide⟩
def AX_A : Field := ⟨0x200034, 0, 32, .ro, 0, geoAX, .all, by decide⟩
def AX_FE : Field := ⟨0x200038, 0, 32, .ro, 0, geoAX, .all, by decide⟩
def AX_FN : Field := ⟨0x20003c, 0, 32, .ro, 0, geoAX, .all, by decide⟩

/-- Block CH: first address 0x100000. -/
def geoCH : Geo := ⟨192, 0x1000, 1, 0x0⟩
def CH_CTL_MODE : Field := ⟨0x100000, 0, 2, .rw, 0, geoCH, .all, by decide⟩
def CH_AXIS_AX : Field := ⟨0x100004, 0, 8, .rw, 0, geoCH, .inst, by decide⟩
def CH_TOL_TOL : Field := ⟨0x100008, 0, 16, .rw, 1280, geoCH, .all, by decide⟩
def CH_TOL_LATE : Field := ⟨0x100008, 16, 16, .rw, 400, geoCH, .all, by decide⟩
def CH_ADV_MODE : Field := ⟨0x10000c, 0, 1, .rw, 0, geoCH, .all, by decide⟩
def CH_ADV_SHIFT : Field := ⟨0x10000c, 1, 3, .rw, 2, geoCH, .all, by decide⟩
def CH_ADV_OPEN : Field := ⟨0x100010, 0, 24, .rw, 0, geoCH, .all, by decide⟩
def CH_ADV_CLOSE : Field := ⟨0x100014, 0, 24, .rw, 0, geoCH, .all, by decide⟩
def CH_ADV_LIM_MIN : Field := ⟨0x100018, 0, 16, .rw, 0, geoCH, .all, by decide⟩
def CH_ADV_LIM_MAX : Field := ⟨0x100018, 16, 16, .rw, 20000, geoCH, .all, by decide⟩
def CH_ADV_USED : Field := ⟨0x10001c, 0, 24, .ro, 0, geoCH, .all, by decide⟩
def CH_BIDIR_HYS : Field := ⟨0x100020, 0, 16, .rw, 256, geoCH, .all, by decide⟩
def CH_BIDIR_SPAN : Field := ⟨0x100020, 16, 16, .rw, 0, geoCH, .all, by decide⟩
def CH_STAT_OUT : Field := ⟨0x100024, 0, 1, .ro, 0, geoCH, .all, by decide⟩
def CH_STAT_INH : Field := ⟨0x100024, 1, 2, .ro, 0, geoCH, .all, by decide⟩
def CH_STAT_HEAD_VALID : Field := ⟨0x100024, 3, 1, .ro, 0, geoCH, .all, by decide⟩
def CH_STAT_PEND : Field := ⟨0x100024, 4, 8, .ro, 0, geoCH, .all, by decide⟩
def CH_STAT_STAND : Field := ⟨0x100024, 12, 8, .ro, 0, geoCH, .all, by decide⟩
def CH_STAT_INH_C : Field := ⟨0x100024, 20, 1, .ro, 0, geoCH, .all, by decide⟩
def CH_FLAGS : Field := ⟨0x100028, 0, 13, .w1c, 0, geoCH, .all, by decide⟩
def CH_HEAD_TB_LO : Field := ⟨0x100030, 0, 32, .ro, 4294967295, geoCH, .all, by decide⟩
def CH_HEAD_TB_HI : Field := ⟨0x100034, 0, 32, .ro, 4294967295, geoCH, .all, by decide⟩
def CH_HEAD_F_LO : Field := ⟨0x100038, 0, 32, .ro, 0, geoCH, .all, by decide⟩
def CH_HEAD_F_HI : Field := ⟨0x10003c, 0, 8, .ro, 0, geoCH, .all, by decide⟩
def CH_HEAD_H : Field := ⟨0x100040, 0, 22, .ro, 0, geoCH, .all, by decide⟩
def CH_ARM_T_LO : Field := ⟨0x100050, 0, 32, .rw, 0, geoCH, .all, by decide⟩
def CH_ARM_T_HI : Field := ⟨0x100054, 0, 8, .rw, 0, geoCH, .all, by decide⟩
def CH_ARM_P_KIND : Field := ⟨0x100058, 0, 3, .rw, 0, geoCH, .all, by decide⟩
def CH_ARM_P_NOADV : Field := ⟨0x100058, 3, 1, .rw, 0, geoCH, .all, by decide⟩
def CH_ARM_P_BIDIR : Field := ⟨0x100058, 4, 1, .rw, 0, geoCH, .all, by decide⟩
def CH_ARM_P_WIDTH : Field := ⟨0x100058, 8, 24, .rw, 0, geoCH, .all, by decide⟩
def CH_ARM_DL_LO : Field := ⟨0x10005c, 0, 32, .rw, 0, geoCH, .all, by decide⟩
def CH_ARM_DL_HI : Field := ⟨0x100060, 0, 32, .rw, 0, geoCH, .all, by decide⟩
def CH_ARM_CMD_ARM : Field := ⟨0x100064, 0, 1, .wo, 0, geoCH, .all, by decide⟩
def CH_ARM_CMD_CANCEL : Field := ⟨0x100064, 1, 1, .wo, 0, geoCH, .all, by decide⟩
def CH_ARM_CMD_CANCEL_ALL : Field := ⟨0x100064, 2, 1, .wo, 0, geoCH, .all, by decide⟩
def CH_ARM_CMD_HANDLE : Field := ⟨0x100064, 10, 22, .wo, 0, geoCH, .all, by decide⟩
def CH_ARM_RES_HANDLE : Field := ⟨0x100068, 0, 22, .ro, 0, geoCH, .all, by decide⟩
def CH_ARM_RES_CODE : Field := ⟨0x100068, 24, 4, .ro, 0, geoCH, .all, by decide⟩
def CH_LAST_O_HANDLE : Field := ⟨0x100070, 0, 22, .ro, 0, geoCH, .all, by decide⟩
def CH_LAST_O_OUTCOME : Field := ⟨0x100070, 22, 3, .ro, 0, geoCH, .all, by decide⟩
def CH_LAST_O_CAUSE : Field := ⟨0x100070, 25, 4, .ro, 0, geoCH, .all, by decide⟩
def CH_LAST_O_OWNER : Field := ⟨0x100070, 29, 2, .ro, 0, geoCH, .all, by decide⟩
def CH_LAST_O_JOUR : Field := ⟨0x100070, 31, 1, .ro, 0, geoCH, .all, by decide⟩
def CH_LAST_LAT : Field := ⟨0x100074, 0, 32, .ro, 0, geoCH, .all, by decide⟩
def CH_LAST_TB_LO : Field := ⟨0x100078, 0, 32, .ro, 0, geoCH, .all, by decide⟩
def CH_LAST_TB_HI : Field := ⟨0x10007c, 0, 32, .ro, 0, geoCH, .all, by decide⟩
def CH_CNT_A_EXEC : Field := ⟨0x100080, 0, 16, .rc, 0, geoCH, .all, by decide⟩
def CH_CNT_A_LATE : Field := ⟨0x100080, 16, 16, .rc, 0, geoCH, .all, by decide⟩
def CH_CNT_B_MISS : Field := ⟨0x100084, 0, 16, .rc, 0, geoCH, .all, by decide⟩
def CH_CNT_B_OVR : Field := ⟨0x100084, 16, 16, .rc, 0, geoCH, .all, by decide⟩
def CH_POOL_FREE : Field := ⟨0x100088, 0, 15, .ro, 16384, geoCH, .all, by decide⟩
def CH_POOL_LOW : Field := ⟨0x100088, 16, 15, .ro, 16384, geoCH, .all, by decide⟩
def CH_SLOT_SEL_IDX : Field := ⟨0x100090, 0, 7, .rw, 0, geoCH, .all, by decide⟩
def CH_SLOT_INFO_HANDLE : Field := ⟨0x100094, 0, 22, .ro, 0, geoCH, .all, by decide⟩
def CH_SLOT_INFO_KIND : Field := ⟨0x100094, 22, 3, .ro, 0, geoCH, .all, by decide⟩
def CH_SLOT_INFO_STANDING : Field := ⟨0x100094, 25, 1, .ro, 0, geoCH, .all, by decide⟩
def CH_SLOT_INFO_OWNER : Field := ⟨0x100094, 26, 2, .ro, 0, geoCH, .all, by decide⟩
def CH_SLOT_INFO_JOUR : Field := ⟨0x100094, 28, 1, .ro, 0, geoCH, .all, by decide⟩
def CH_SLOT_INFO_RESV : Field := ⟨0x100094, 29, 1, .ro, 0, geoCH, .all, by decide⟩
def CH_SLOT_INFO_VALID : Field := ⟨0x100094, 31, 1, .ro, 0, geoCH, .all, by decide⟩
def CH_SLOT_T_LO : Field := ⟨0x100098, 0, 32, .ro, 0, geoCH, .all, by decide⟩
def CH_SLOT_T_HI : Field := ⟨0x10009c, 0, 8, .ro, 0, geoCH, .all, by decide⟩
def TR_CFG_FMAX : Field := ⟨0x100200, 0, 7, .rw, 50, geoCH, .all, by decide⟩
def TR_CFG_PRX : Field := ⟨0x100200, 7, 1, .rw, 0, geoCH, .all, by decide⟩
def TR_PITCH : Field := ⟨0x100204, 0, 31, .rw, 0, geoCH, .all, by decide⟩
def TR_WIDTH : Field := ⟨0x100208, 0, 24, .rw, 0, geoCH, .all, by decide⟩
def TR_PHASE : Field := ⟨0x10020c, 0, 16, .rw, 0, geoCH, .all, by decide⟩
def TR_LEN : Field := ⟨0x100210, 0, 31, .rw, 0, geoCH, .all, by decide⟩
def TR_CMD_UPD : Field := ⟨0x100214, 0, 1, .wo, 0, geoCH, .all, by decide⟩
def TR_STAT_RUN : Field := ⟨0x100218, 0, 1, .ro, 0, geoCH, .all, by decide⟩
def TR_STAT_PEND : Field := ⟨0x100218, 1, 1, .ro, 0, geoCH, .all, by decide⟩
def TR_STAT_SAT : Field := ⟨0x100218, 2, 1, .ro, 0, geoCH, .all, by decide⟩
def TR_STAT_PAUSE : Field := ⟨0x100218, 3, 1, .ro, 0, geoCH, .all, by decide⟩
def TR_FLAGS : Field := ⟨0x10021c, 0, 6, .w1c, 0, geoCH, .all, by decide⟩
def TR_RUN_PITCH : Field := ⟨0x100220, 0, 31, .ro, 0, geoCH, .all, by decide⟩
def TR_RUN_WIDTH : Field := ⟨0x100224, 0, 24, .ro, 0, geoCH, .all, by decide⟩
def TR_NEXT_LO : Field := ⟨0x100228, 0, 32, .ro, 0, geoCH, .all, by decide⟩
def TR_NEXT_HI : Field := ⟨0x10022c, 0, 8, .ro, 0, geoCH, .all, by decide⟩
def TR_PULSES : Field := ⟨0x100230, 0, 32, .ro, 0, geoCH, .all, by decide⟩
def TR_SKIP_CNT_SKIP : Field := ⟨0x100234, 0, 16, .rc, 0, geoCH, .all, by decide⟩
def TR_SKIP_CNT_SAT : Field := ⟨0x100234, 16, 16, .rc, 0, geoCH, .all, by decide⟩
def LAT_CFG_EN : Field := ⟨0x100400, 0, 1, .rw, 0, geoCH, .all, by decide⟩
def LAT_CFG_TYPE : Field := ⟨0x100400, 1, 1, .rw, 0, geoCH, .all, by decide⟩
def LAT_CFG_OUTSEL : Field := ⟨0x100400, 2, 1, .rw, 0, geoCH, .all, by decide⟩
def LAT_CFG_GATE : Field := ⟨0x100400, 3, 1, .rw, 0, geoCH, .all, by decide⟩
def LAT_CFG_NOSDS : Field := ⟨0x100400, 4, 1, .rw, 0, geoCH, .all, by decide⟩
def LAT_CFG_LEARN : Field := ⟨0x100400, 5, 1, .rw, 0, geoCH, .all, by decide⟩
def LAT_CFG_TRIM : Field := ⟨0x100400, 6, 1, .rw, 0, geoCH, .all, by decide⟩
def LAT_CFG_FREE : Field := ⟨0x100400, 7, 1, .rw, 0, geoCH, .all, by decide⟩
def LAT_CFG_CELLS : Field := ⟨0x100400, 8, 8, .rw, 0, geoCH, .all, by decide⟩
def LAT_CFG_WHL : Field := ⟨0x100400, 16, 6, .rw, 0, geoCH, .all, by decide⟩
def LAT_CFG_SDS : Field := ⟨0x100400, 22, 7, .rw, 0, geoCH, .all, by decide⟩
def LAT_E0 : Field := ⟨0x100404, 0, 32, .rw, 0, geoCH, .all, by decide⟩
def LAT_N0 : Field := ⟨0x100408, 0, 32, .rw, 0, geoCH, .all, by decide⟩
def LAT_BRG : Field := ⟨0x10040c, 0, 32, .rw, 0, geoCH, .all, by decide⟩
def LAT_PITCH_A : Field := ⟨0x100410, 0, 16, .rw, 0, geoCH, .all, by decide⟩
def LAT_PITCH_B : Field := ⟨0x100410, 16, 16, .rw, 0, geoCH, .all, by decide⟩
def LAT_ALIGN_ALIGN : Field := ⟨0x100414, 0, 8, .rw, 50, geoCH, .all, by decide⟩
def LAT_ALIGN_LINE_TOL : Field := ⟨0x100414, 8, 8, .rw, 25, geoCH, .all, by decide⟩
def LAT_ALIGN_VMIN : Field := ⟨0x100414, 16, 16, .rw, 300, geoCH, .all, by decide⟩
def LAT_LOOP_BW : Field := ⟨0x100418, 0, 8, .rw, 20, geoCH, .all, by decide⟩
def LAT_LOOP_SLEW : Field := ⟨0x100418, 8, 8, .rw, 10, geoCH, .all, by decide⟩
def LAT_LOOP_LOCK_THR : Field := ⟨0x100418, 16, 8, .rw, 13, geoCH, .all, by decide⟩
def LAT_LOOP_LOCK_N : Field := ⟨0x100418, 24, 4, .rw, 8, geoCH, .all, by decide⟩
def LAT_OUT_UNIT : Field := ⟨0x10041c, 0, 8, .rw, 0, geoCH, .all, by decide⟩
def LAT_OUT_CARRIER : Field := ⟨0x10041c, 8, 8, .rw, 100, geoCH, .all, by decide⟩
def LAT_OSCALE : Field := ⟨0x100420, 0, 32, .rw, 65536, geoCH, .all, by decide⟩
def LAT_OOFS : Field := ⟨0x100424, 0, 32, .rw, 0, geoCH, .all, by decide⟩
def LAT_CELL_OFS : Field := ⟨0x100428, 0, 16, .rw, 0, geoCH, .all, by decide⟩
def LAT_TUBE_T0 : Field := ⟨0x10042c, 0, 20, .rw, 0, geoCH, .all, by decide⟩
def LAT_FALL : Field := ⟨0x100430, 0, 16, .rw, 0, geoCH, .all, by decide⟩
def LAT_LEARN_TSHIFT : Field := ⟨0x100434, 0, 4, .rw, 4, geoCH, .all, by decide⟩
def LAT_LEARN_PSHIFT : Field := ⟨0x100434, 4, 4, .rw, 6, geoCH, .all, by decide⟩
def LAT_LEARN_TLIM : Field := ⟨0x100434, 8, 8, .rw, 30, geoCH, .all, by decide⟩
def LAT_CMD_TUBE_CLR : Field := ⟨0x100438, 0, 1, .wo, 0, geoCH, .all, by decide⟩
def LAT_CMD_TRIM_CLR : Field := ⟨0x100438, 1, 1, .wo, 0, geoCH, .all, by decide⟩
def LAT_STAT_STATE : Field := ⟨0x100440, 0, 3, .ro, 0, geoCH, .all, by decide⟩
def LAT_STAT_REF : Field := ⟨0x100440, 3, 1, .ro, 0, geoCH, .all, by decide⟩
def LAT_STAT_DR : Field := ⟨0x100440, 4, 1, .ro, 0, geoCH, .all, by decide⟩
def LAT_STAT_SAT : Field := ⟨0x100440, 5, 1, .ro, 0, geoCH, .all, by decide⟩
def LAT_STAT_ODD : Field := ⟨0x100440, 6, 1, .ro, 0, geoCH, .all, by decide⟩
def LAT_STAT_ALIGNED : Field := ⟨0x100440, 7, 1, .ro, 0, geoCH, .all, by decide⟩
def LAT_FLAGS : Field := ⟨0x100444, 0, 16, .w1c, 0, geoCH, .all, by decide⟩
def LAT_ERR : Field := ⟨0x100448, 0, 16, .ro, 0, geoCH, .all, by decide⟩
def LAT_LINE : Field := ⟨0x10044c, 0, 32, .ro, 0, geoCH, .all, by decide⟩
def LAT_C : Field := ⟨0x100450, 0, 32, .ro, 0, geoCH, .all, by decide⟩
def LAT_TUBE_L : Field := ⟨0x100454, 0, 20, .ro, 0, geoCH, .all, by decide⟩
def LAT_TRIM : Field := ⟨0x100458, 0, 16, .ro, 0, geoCH, .all, by decide⟩
def LAT_DROP_ERR : Field := ⟨0x10045c, 0, 16, .ro, 0, geoCH, .all, by decide⟩
def LAT_SPREAD : Field := ⟨0x100460, 0, 16, .ro, 0, geoCH, .all, by decide⟩
def LAT_SEEDS : Field := ⟨0x100464, 0, 32, .ro, 0, geoCH, .all, by decide⟩
def LAT_SKIP_CNT_SKIP : Field := ⟨0x100468, 0, 16, .rc, 0, geoCH, .all, by decide⟩
def LAT_SKIP_CNT_DBL : Field := ⟨0x100468, 16, 16, .rc, 0, geoCH, .all, by decide⟩
def CH_DRV_CFG_PROFILE : Field := ⟨0x100800, 0, 2, .rw, 0, geoCH, .all, by decide⟩
def CH_DRV_CFG_BST_EN : Field := ⟨0x100800, 2, 1, .rw, 1, geoCH, .all, by decide⟩
def CH_DRV_CFG_PK_NOTCH : Field := ⟨0x100800, 3, 1, .rw, 0, geoCH, .all, by decide⟩
def CH_DRV_CFG_STEP_BP : Field := ⟨0x100800, 4, 1, .rw, 0, geoCH, .all, by decide⟩
def CH_DRV_CFG_STEP_PH : Field := ⟨0x100800, 5, 1, .rw, 0, geoCH, .all, by decide⟩
def CH_DRV_CFG_OFF_DECAY : Field := ⟨0x100800, 6, 1, .rw, 0, geoCH, .all, by decide⟩
def CH_DRV_CFG_CHOP_FAST : Field := ⟨0x100800, 7, 1, .rw, 0, geoCH, .all, by decide⟩
def CH_DRV_CFG_BLANK : Field := ⟨0x100800, 8, 4, .rw, 8, geoCH, .all, by decide⟩
def CH_DRV_CFG_MAXON : Field := ⟨0x100800, 16, 16, .rw, 0, geoCH, .all, by decide⟩
def CH_DRV_BST_I_BST : Field := ⟨0x100804, 0, 10, .rw, 250, geoCH, .all, by decide⟩
def CH_DRV_BST_T_BST : Field := ⟨0x100804, 16, 12, .rw, 300, geoCH, .all, by decide⟩
def CH_DRV_PK_PK_LO : Field := ⟨0x100808, 0, 10, .rw, 240, geoCH, .all, by decide⟩
def CH_DRV_PK_PK_HI : Field := ⟨0x100808, 16, 10, .rw, 260, geoCH, .all, by decide⟩
def CH_DRV_PKT_T_PK : Field := ⟨0x10080c, 0, 16, .rw, 1000, geoCH, .all, by decide⟩
def CH_DRV_HD_HD_LO : Field := ⟨0x100810, 0, 10, .rw, 70, geoCH, .all, by decide⟩
def CH_DRV_HD_HD_HI : Field := ⟨0x100810, 16, 10, .rw, 80, geoCH, .all, by decide⟩
def CH_DRV_FLOOR_FLOOR : Field := ⟨0x100814, 0, 10, .rw, 1023, geoCH, .all, by decide⟩
def CH_DRV_PLAIN_LIM : Field := ⟨0x100818, 0, 10, .rw, 125, geoCH, .all, by decide⟩
def CH_DRV_STAT_PHASE : Field := ⟨0x100820, 0, 3, .ro, 0, geoCH, .all, by decide⟩
def CH_DRV_STAT_LS : Field := ⟨0x100820, 3, 1, .ro, 0, geoCH, .all, by decide⟩
def CH_DRV_STAT_FW : Field := ⟨0x100820, 4, 1, .ro, 0, geoCH, .all, by decide⟩
def CH_DRV_STAT_HSB_OWN : Field := ⟨0x100820, 5, 1, .ro, 0, geoCH, .all, by decide⟩
def CH_DRV_STAT_THERM_OFF : Field := ⟨0x100820, 6, 1, .ro, 0, geoCH, .all, by decide⟩
def CH_DRV_STAT_DUTY_LIM : Field := ⟨0x100820, 7, 1, .ro, 0, geoCH, .all, by decide⟩
def CH_DRV_STAT_TRIM : Field := ⟨0x100820, 8, 1, .ro, 0, geoCH, .all, by decide⟩
def CH_DRV_FLAGS : Field := ⟨0x100824, 0, 11, .w1c, 0, geoCH, .all, by decide⟩
def CH_DRV_I_NOW : Field := ⟨0x10082c, 0, 10, .ro, 0, geoCH, .all, by decide⟩
def CH_DRV_I_RMS : Field := ⟨0x10082c, 16, 10, .ro, 0, geoCH, .all, by decide⟩
def CH_DRV_HD_EFF_LO_EFF : Field := ⟨0x100830, 0, 10, .ro, 70, geoCH, .all, by decide⟩
def CH_DRV_HD_EFF_HI_EFF : Field := ⟨0x100830, 16, 10, .ro, 80, geoCH, .all, by decide⟩
def CH_DRV_TJ : Field := ⟨0x100834, 0, 10, .ro, 0, geoCH, .all, by decide⟩
def CH_DRV_DUTY : Field := ⟨0x100838, 0, 10, .ro, 0, geoCH, .all, by decide⟩
def CH_DRV_LAST_WAIT : Field := ⟨0x10083c, 0, 10, .ro, 0, geoCH, .all, by decide⟩
def CH_DRV_LAST_BST : Field := ⟨0x10083c, 16, 12, .ro, 0, geoCH, .all, by decide⟩
def CH_DRV_ACT : Field := ⟨0x100840, 0, 32, .ro, 0, geoCH, .all, by decide⟩
def CH_DRV_DENY : Field := ⟨0x100844, 0, 16, .rc, 0, geoCH, .all, by decide⟩
def CH_IE : Field := ⟨0x10002c, 0, 13, .rw, 0, geoCH, .all, by decide⟩
def CH_DRV_IE : Field := ⟨0x100828, 0, 11, .rw, 0, geoCH, .all, by decide⟩

/-- Block BK: first address 0x400000. -/
def geoBK : Geo := ⟨24, 0x400, 1, 0x0⟩
def BK_CTL_EN : Field := ⟨0x400000, 0, 1, .rw, 0, geoBK, .all, by decide⟩
def BK_CTL_DEFER : Field := ⟨0x400000, 4, 9, .rw, 100, geoBK, .all, by decide⟩
def BK_LIM0_BV_MAX : Field := ⟨0x400004, 0, 8, .ro, 65, geoBK, .all, by decide⟩
def BK_LIM0_IPK_MAX : Field := ⟨0x400004, 8, 10, .ro, 1000, geoBK, .all, by decide⟩
def BK_LIM0_DUTY_MAX : Field := ⟨0x400004, 18, 10, .ro, 1000, geoBK, .all, by decide⟩
def BK_LIM1_TBST_MAX : Field := ⟨0x400008, 0, 12, .ro, 4095, geoBK, .all, by decide⟩
def BK_STAT_HSB : Field := ⟨0x40000c, 0, 1, .ro, 0, geoBK, .all, by decide⟩
def BK_STAT_HSS : Field := ⟨0x40000c, 1, 1, .ro, 0, geoBK, .all, by decide⟩
def BK_STAT_HOLDER : Field := ⟨0x40000c, 2, 3, .ro, 0, geoBK, .all, by decide⟩
def BK_STAT_WAITING : Field := ⟨0x40000c, 5, 3, .ro, 0, geoBK, .all, by decide⟩
def BK_STAT_DECAY : Field := ⟨0x40000c, 8, 1, .ro, 0, geoBK, .all, by decide⟩
def BK_STAT_UV : Field := ⟨0x40000c, 9, 1, .ro, 0, geoBK, .all, by decide⟩
def BK_STAT_LOST : Field := ⟨0x40000c, 10, 1, .ro, 0, geoBK, .all, by decide⟩
def BK_V_VBK : Field := ⟨0x400018, 0, 16, .ro, 0, geoBK, .all, by decide⟩
def BK_V_NODE : Field := ⟨0x400018, 16, 16, .ro, 0, geoBK, .all, by decide⟩
def BK_I : Field := ⟨0x40001c, 0, 16, .ro, 0, geoBK, .all, by decide⟩
def BK_PWR : Field := ⟨0x400020, 0, 16, .ro, 0, geoBK, .all, by decide⟩
def BK_CNT_GRANTS : Field := ⟨0x400024, 0, 16, .rc, 0, geoBK, .all, by decide⟩
def BK_CNT_DENIES : Field := ⟨0x400024, 16, 16, .rc, 0, geoBK, .all, by decide⟩
def BK_FLAGS : Field := ⟨0x400010, 0, 6, .w1c, 0, geoBK, .all, by decide⟩
def BK_IE : Field := ⟨0x400014, 0, 6, .rw, 0, geoBK, .all, by decide⟩

/-- Block BST: first address 0x400000. -/
def geoBST : Geo := ⟨1, 0x0, 1, 0x0⟩
def BST_CTL_EN : Field := ⟨0x400200, 0, 1, .rw, 0, geoBST, .all, by decide⟩
def BST_CTL_VB_SET : Field := ⟨0x400200, 8, 8, .rw, 48, geoBST, .all, by decide⟩
def BST_CTL_FREQ : Field := ⟨0x400200, 16, 8, .rw, 40, geoBST, .all, by decide⟩
def BST_CTL_ILIM : Field := ⟨0x400200, 24, 8, .rw, 80, geoBST, .all, by decide⟩
def BST_MARG_RDY : Field := ⟨0x400204, 0, 4, .rw, 4, geoBST, .all, by decide⟩
def BST_MARG_CL_OFS : Field := ⟨0x400204, 4, 4, .rw, 6, geoBST, .all, by decide⟩
def BST_STAT_STATE : Field := ⟨0x400208, 0, 3, .ro, 0, geoBST, .all, by decide⟩
def BST_STAT_READY : Field := ⟨0x400208, 3, 1, .ro, 0, geoBST, .all, by decide⟩
def BST_STAT_CLAMP : Field := ⟨0x400208, 4, 1, .ro, 0, geoBST, .all, by decide⟩
def BST_STAT_OV : Field := ⟨0x400208, 5, 1, .ro, 0, geoBST, .all, by decide⟩
def BST_FLAGS : Field := ⟨0x40020c, 0, 7, .w1c, 0, geoBST, .all, by decide⟩
def BST_IE : Field := ⟨0x400210, 0, 7, .rw, 0, geoBST, .all, by decide⟩
def BST_V : Field := ⟨0x400214, 0, 16, .ro, 0, geoBST, .all, by decide⟩
def BST_RCHG : Field := ⟨0x400218, 0, 20, .ro, 0, geoBST, .all, by decide⟩
def BST_DROOP_DROOP : Field := ⟨0x40021c, 0, 16, .ro, 0, geoBST, .all, by decide⟩
def BST_DROOP_STEP : Field := ⟨0x40021c, 16, 16, .ro, 0, geoBST, .all, by decide⟩
def BST_EOUT : Field := ⟨0x400220, 0, 32, .ro, 0, geoBST, .all, by decide⟩
def BST_CLAMP_E : Field := ⟨0x400224, 0, 32, .ro, 0, geoBST, .all, by decide⟩
def BST_ERET : Field := ⟨0x400228, 0, 32, .ro, 0, geoBST, .all, by decide⟩

/-- Block PWR: first address 0x400000. -/
def geoPWR : Geo := ⟨2, 0x3000, 1, 0x0⟩
def PWR_CTL_BUDGET : Field := ⟨0x400300, 0, 16, .rw, 6000, geoPWR, .all, by decide⟩
def PWR_CTL_TRIM_STEP : Field := ⟨0x400300, 16, 8, .rw, 2, geoPWR, .all, by decide⟩
def PWR_CTL_TJ_WARN : Field := ⟨0x400300, 24, 8, .rw, 150, geoPWR, .all, by decide⟩
def PWR_STAT_P_EST : Field := ⟨0x400304, 0, 16, .ro, 0, geoPWR, .all, by decide⟩
def PWR_STAT_TRIM : Field := ⟨0x400304, 16, 1, .ro, 0, geoPWR, .all, by decide⟩
def PWR_STAT_FLOOR : Field := ⟨0x400304, 17, 1, .ro, 0, geoPWR, .all, by decide⟩
def PWR_FLAGS : Field := ⟨0x400308, 0, 5, .w1c, 0, geoPWR, .all, by decide⟩
def PWR_IE : Field := ⟨0x40030c, 0, 5, .rw, 0, geoPWR, .all, by decide⟩
def PWR_TMAX_TJ : Field := ⟨0x400310, 0, 10, .ro, 0, geoPWR, .all, by decide⟩
def PWR_TMAX_CH : Field := ⟨0x400310, 16, 8, .ro, 0, geoPWR, .all, by decide⟩

/-- Block DG: first address 0x480000. -/
def geoDG : Geo := ⟨192, 0x40, 1, 0x0⟩
def DG_CFG_OFF_EN : Field := ⟨0x480000, 0, 1, .rw, 0, geoDG, .all, by decide⟩
def DG_CFG_ON_EN : Field := ⟨0x480000, 1, 1, .rw, 1, geoDG, .all, by decide⟩
def DG_CFG_OL_SAFE : Field := ⟨0x480000, 2, 1, .rw, 1, geoDG, .all, by decide⟩
def DG_CFG_SG_BANK : Field := ⟨0x480000, 3, 1, .rw, 0, geoDG, .all, by decide⟩
def DG_CFG_RETRY : Field := ⟨0x480000, 4, 1, .rw, 0, geoDG, .all, by decide⟩
def DG_CFG_OFF_PER : Field := ⟨0x480000, 8, 8, .rw, 10, geoDG, .all, by decide⟩
def DG_ON0_I_FAST : Field := ⟨0x480004, 0, 10, .rw, 250, geoDG, .all, by decide⟩
def DG_ON0_T_FAST : Field := ⟨0x480004, 16, 8, .rw, 10, geoDG, .all, by decide⟩
def DG_ON1_I_NORISE : Field := ⟨0x480008, 0, 10, .rw, 25, geoDG, .all, by decide⟩
def DG_ON1_T_NORISE : Field := ⟨0x480008, 16, 12, .rw, 500, geoDG, .all, by decide⟩
def DG_NOTCH_T_MIN : Field := ⟨0x48000c, 0, 12, .rw, 50, geoDG, .all, by decide⟩
def DG_NOTCH_T_MAX : Field := ⟨0x48000c, 12, 12, .rw, 1500, geoDG, .all, by decide⟩
def DG_NOTCH_DROP : Field := ⟨0x48000c, 24, 7, .rw, 30, geoDG, .all, by decide⟩
def DG_STAT_STATE : Field := ⟨0x480010, 0, 2, .ro, 0, geoDG, .all, by decide⟩
def DG_STAT_OFF_RES : Field := ⟨0x480010, 2, 2, .ro, 0, geoDG, .all, by decide⟩
def DG_STAT_COND : Field := ⟨0x480010, 5, 4, .ro, 0, geoDG, .all, by decide⟩
def DG_FLAGS : Field := ⟨0x480014, 0, 11, .w1c, 0, geoDG, .all, by decide⟩
def DG_IE : Field := ⟨0x480018, 0, 11, .rw, 0, geoDG, .all, by decide⟩
def DG_CMD_CLR : Field := ⟨0x48001c, 0, 1, .wo, 0, geoDG, .all, by decide⟩
def DG_CMD_TEST : Field := ⟨0x48001c, 1, 1, .wo, 0, geoDG, .all, by decide⟩
def DG_NOTCH_T_M : Field := ⟨0x480020, 0, 24, .ro, 0, geoDG, .all, by decide⟩
def DG_NOTCH_T_MEAS : Field := ⟨0x480020, 24, 1, .ro, 0, geoDG, .all, by decide⟩
def DG_NOTCH_TB_LO : Field := ⟨0x480024, 0, 32, .ro, 0, geoDG, .all, by decide⟩
def DG_NOTCH_TB_HI : Field := ⟨0x480028, 0, 32, .ro, 0, geoDG, .all, by decide⟩
def DG_NODE : Field := ⟨0x48002c, 0, 16, .ro, 0, geoDG, .all, by decide⟩
def DG_CNT_NO_NOTCH : Field := ⟨0x480030, 0, 16, .rc, 0, geoDG, .all, by decide⟩
def DG_CNT_TRIPS : Field := ⟨0x480030, 16, 16, .rc, 0, geoDG, .all, by decide⟩
def DG_WEAR0_W : Field := ⟨0x480034, 0, 8, .ro, 0, geoDG, .all, by decide⟩
def DG_WEAR0_WSTATE : Field := ⟨0x480034, 8, 2, .ro, 0, geoDG, .all, by decide⟩
def DG_WEAR0_NREM : Field := ⟨0x480034, 16, 16, .ro, 65535, geoDG, .all, by decide⟩
def DG_WEAR1_MU : Field := ⟨0x480038, 0, 16, .ro, 0, geoDG, .all, by decide⟩
def DG_WEAR1_SIGMA : Field := ⟨0x480038, 16, 16, .ro, 0, geoDG, .all, by decide⟩
def DG_WEAR2_MU0 : Field := ⟨0x48003c, 0, 16, .ro, 0, geoDG, .all, by decide⟩
def DG_WEAR2_EOL_DAYS : Field := ⟨0x48003c, 16, 16, .ro, 65535, geoDG, .all, by decide⟩

/-- Block DGB: first address 0x484000. -/
def geoDGB : Geo := ⟨24, 0x20, 1, 0x0⟩
def DGB_CFG_SB_EN : Field := ⟨0x484000, 0, 1, .rw, 0, geoDGB, .all, by decide⟩
def DGB_CFG_PER : Field := ⟨0x484000, 8, 8, .rw, 10, geoDGB, .all, by decide⟩
def DGB_STAT_BUSY : Field := ⟨0x484004, 0, 1, .ro, 0, geoDGB, .all, by decide⟩
def DGB_STAT_NODE_HI : Field := ⟨0x484004, 1, 1, .ro, 0, geoDGB, .all, by decide⟩
def DGB_STAT_SB_CH : Field := ⟨0x484004, 2, 8, .ro, 0, geoDGB, .all, by decide⟩
def DGB_FLAGS : Field := ⟨0x484008, 0, 4, .w1c, 0, geoDGB, .all, by decide⟩
def DGB_IE : Field := ⟨0x48400c, 0, 4, .rw, 0, geoDGB, .all, by decide⟩
def DGB_CMD_TEST : Field := ⟨0x484010, 0, 1, .wo, 0, geoDGB, .all, by decide⟩

/-- Block CAP: first address 0x488000. -/
def geoCAP : Geo := ⟨8, 0x80, 1, 0x0⟩
def CAP_CFG_EN : Field := ⟨0x488000, 0, 1, .rw, 1, geoCAP, .all, by decide⟩
def CAP_CFG_LANES : Field := ⟨0x488000, 1, 2, .rw, 2, geoCAP, .all, by decide⟩
def CAP_CFG_DEC : Field := ⟨0x488000, 3, 2, .rw, 2, geoCAP, .all, by decide⟩
def CAP_STAT_NEXT : Field := ⟨0x488004, 0, 5, .ro, 0, geoCAP, .all, by decide⟩
def CAP_FLAGS : Field := ⟨0x488008, 0, 3, .w1c, 0, geoCAP, .all, by decide⟩
def CAP_IE : Field := ⟨0x48800c, 0, 3, .rw, 0, geoCAP, .all, by decide⟩
def CAP_CMD_CH : Field := ⟨0x488010, 0, 5, .wo, 0, geoCAP, .all, by decide⟩
def CAP_CMD_REQ : Field := ⟨0x488010, 5, 1, .wo, 0, geoCAP, .all, by decide⟩
def CAP_CMD_REL : Field := ⟨0x488010, 8, 4, .wo, 0, geoCAP, .all, by decide⟩

/-- Block CAPL: first address 0x488020. -/
def geoCAPL : Geo := ⟨8, 0x80, 4, 0x10⟩
def CAP_L_CH : Field := ⟨0x488020, 0, 8, .ro, 0, geoCAPL, .all, by decide⟩
def CAP_L_CH_LSTATE : Field := ⟨0x488020, 8, 2, .ro, 0, geoCAPL, .all, by decide⟩
def CAP_L_TB_LO : Field := ⟨0x488024, 0, 32, .ro, 0, geoCAPL, .all, by decide⟩
def CAP_L_TB_HI : Field := ⟨0x488028, 0, 32, .ro, 0, geoCAPL, .all, by decide⟩
def CAP_L_NOTCH : Field := ⟨0x48802c, 0, 16, .ro, 65535, geoCAPL, .all, by decide⟩

/-- Block BCAP: first address 0x48c000. -/
def geoBCAP : Geo := ⟨1, 0x0, 1, 0x0⟩
def BCAP_CFG_C_NODE : Field := ⟨0x48c000, 0, 16, .rw, 100, geoBCAP, .all, by decide⟩
def BCAP_ESR_ESR : Field := ⟨0x48c004, 0, 16, .ro, 0, geoBCAP, .all, by decide⟩
def BCAP_ESR_BASE : Field := ⟨0x48c004, 16, 16, .ro, 0, geoBCAP, .all, by decide⟩
def BCAP_C : Field := ⟨0x48c008, 0, 16, .ro, 0, geoBCAP, .all, by decide⟩
def BCAP_EOL : Field := ⟨0x48c00c, 0, 16, .ro, 65535, geoBCAP, .all, by decide⟩

/-- Block MAP: first address 0x700000. -/
def geoMAP : Geo := ⟨1, 0x0, 1, 0x0⟩
def MAP_CFG_EN : Field := ⟨0x700000, 0, 1, .rw, 0, geoMAP, .all, by decide⟩
def MAP_CFG_UNK : Field := ⟨0x700000, 1, 1, .rw, 0, geoMAP, .all, by decide⟩
def MAP_CFG_NOFIELD : Field := ⟨0x700000, 2, 1, .rw, 0, geoMAP, .all, by decide⟩
def MAP_CFG_FLUSH_S : Field := ⟨0x700000, 8, 8, .rw, 10, geoMAP, .all, by decide⟩
def MAP_CFG_LOOK : Field := ⟨0x700000, 16, 16, .rw, 1000, geoMAP, .all, by decide⟩
def MAP_STAT_ACTIVE : Field := ⟨0x700004, 0, 1, .ro, 0, geoMAP, .all, by decide⟩
def MAP_STAT_FIELD : Field := ⟨0x700004, 1, 1, .ro, 0, geoMAP, .all, by decide⟩
def MAP_STAT_DR : Field := ⟨0x700004, 2, 1, .ro, 0, geoMAP, .all, by decide⟩
def MAP_STAT_CT_USED : Field := ⟨0x700004, 8, 5, .ro, 0, geoMAP, .all, by decide⟩
def MAP_STAT_PT_USED : Field := ⟨0x700004, 13, 7, .ro, 0, geoMAP, .all, by decide⟩
def MAP_STAT_REQ_MISS : Field := ⟨0x700004, 20, 4, .ro, 0, geoMAP, .all, by decide⟩
def MAP_FLAGS : Field := ⟨0x700008, 0, 10, .w1c, 0, geoMAP, .all, by decide⟩
def MAP_IE : Field := ⟨0x70000c, 0, 10, .rw, 0, geoMAP, .all, by decide⟩
def MAP_DEF_DEF_RATE : Field := ⟨0x700010, 0, 8, .rw, 0, geoMAP, .all, by decide⟩
def MAP_CNT_MISS : Field := ⟨0x700014, 0, 16, .rc, 0, geoMAP, .all, by decide⟩
def MAP_CNT_COV_DROP : Field := ⟨0x700014, 16, 16, .rc, 0, geoMAP, .all, by decide⟩
def MAP_SCAN_TB_LO : Field := ⟨0x700018, 0, 32, .ro, 0, geoMAP, .all, by decide⟩
def MAP_SCAN_TB_HI : Field := ⟨0x70001c, 0, 32, .ro, 0, geoMAP, .all, by decide⟩
def MAP_CNT2_COV_REVERT : Field := ⟨0x700020, 0, 16, .rc, 0, geoMAP, .all, by decide⟩
def MAP_CNT2_LATE_GATE : Field := ⟨0x700020, 16, 16, .rc, 0, geoMAP, .all, by decide⟩

/-- Block MAPCH: first address 0x701000. -/
def geoMAPCH : Geo := ⟨192, 0x10, 1, 0x0⟩
def MAP_CH_CFG_GATE_EN : Field := ⟨0x701000, 0, 1, .rw, 0, geoMAPCH, .all, by decide⟩
def MAP_CH_CFG_WB_EN : Field := ⟨0x701000, 1, 1, .rw, 0, geoMAPCH, .all, by decide⟩
def MAP_CH_CFG_PRX_EN : Field := ⟨0x701000, 2, 1, .rw, 0, geoMAPCH, .all, by decide⟩
def MAP_CH_CFG_OVL_N : Field := ⟨0x701000, 3, 3, .rw, 3, geoMAPCH, .all, by decide⟩
def MAP_CH_CFG_WSCALE : Field := ⟨0x701000, 8, 8, .rw, 128, geoMAPCH, .all, by decide⟩
def MAP_CH_CFG_SWATH : Field := ⟨0x701000, 16, 16, .rw, 250, geoMAPCH, .all, by decide⟩
def MAP_CH_STAT_GATE : Field := ⟨0x701004, 0, 1, .ro, 1, geoMAPCH, .all, by decide⟩
def MAP_CH_STAT_OWN_ON : Field := ⟨0x701004, 1, 1, .ro, 0, geoMAPCH, .all, by decide⟩
def MAP_CH_STAT_STROKE : Field := ⟨0x701004, 2, 1, .ro, 0, geoMAPCH, .all, by decide⟩
def MAP_CH_STAT_QN : Field := ⟨0x701004, 3, 3, .ro, 0, geoMAPCH, .all, by decide⟩
def MAP_CH_STAT_RATE : Field := ⟨0x701004, 6, 8, .ro, 0, geoMAPCH, .all, by decide⟩
def MAP_CH_STAT_COVN : Field := ⟨0x701004, 14, 3, .ro, 0, geoMAPCH, .all, by decide⟩
def MAP_CH_STAT_EXCL : Field := ⟨0x701004, 17, 1, .ro, 0, geoMAPCH, .all, by decide⟩
def MAP_CH_CNT_GATED : Field := ⟨0x701008, 0, 16, .rc, 0, geoMAPCH, .all, by decide⟩
def MAP_CH_CNT_CLOSES : Field := ⟨0x701008, 16, 16, .rc, 0, geoMAPCH, .all, by decide⟩
def MAP_CH_AREA : Field := ⟨0x70100c, 0, 32, .ro, 0, geoMAPCH, .all, by decide⟩

/-- Block RATE: first address 0x704000. -/
def geoRATE : Geo := ⟨256, 0x4, 1, 0x0⟩
def MAP_RATE_WIDTH : Field := ⟨0x704000, 0, 24, .rw, 0, geoRATE, .all, by decide⟩
def MAP_RATE_OFF : Field := ⟨0x704000, 31, 1, .rw, 0, geoRATE, .all, by decide⟩

/-- Block CT: first address 0x705000. -/
def geoCT : Geo := ⟨24, 0x8, 1, 0x0⟩
def MAP_CT_POS_TE : Field := ⟨0x705000, 0, 16, .ro, 0, geoCT, .all, by decide⟩
def MAP_CT_POS_TN : Field := ⟨0x705000, 16, 16, .ro, 0, geoCT, .all, by decide⟩
def MAP_CT_STAT_STATE : Field := ⟨0x705004, 0, 3, .ro, 0, geoCT, .all, by decide⟩
def MAP_CT_STAT_REQ : Field := ⟨0x705004, 3, 1, .ro, 0, geoCT, .all, by decide⟩
def MAP_CT_STAT_VER : Field := ⟨0x705004, 16, 16, .ro, 0, geoCT, .all, by decide⟩

/-- Block NC: first address 0x780000. -/
def geoNC : Geo := ⟨1, 0x0, 1, 0x0⟩
def NC_CFG_EN : Field := ⟨0x780000, 0, 1, .rw, 0, geoNC, .all, by decide⟩
def NC_CFG_MIRROR : Field := ⟨0x780000, 1, 1, .rw, 0, geoNC, .all, by decide⟩
def NC_CFG_T1_EN : Field := ⟨0x780000, 2, 1, .rw, 0, geoNC, .all, by decide⟩
def NC_CFG_TMODE : Field := ⟨0x780000, 3, 3, .rw, 5, geoNC, .all, by decide⟩
def NC_CFG_REFRESH_THR : Field := ⟨0x780000, 8, 8, .rw, 24, geoNC, .all, by decide⟩
def NC_CFG_WL_DELTA : Field := ⟨0x780000, 16, 16, .rw, 1000, geoNC, .all, by decide⟩
def NC_STAT_MSTATE : Field := ⟨0x780004, 0, 3, .ro, 0, geoNC, .all, by decide⟩
def NC_STAT_BUSY : Field := ⟨0x780004, 3, 1, .ro, 0, geoNC, .all, by decide⟩
def NC_STAT_T0_OK : Field := ⟨0x780004, 4, 1, .ro, 0, geoNC, .all, by decide⟩
def NC_STAT_T1_OK : Field := ⟨0x780004, 5, 1, .ro, 0, geoNC, .all, by decide⟩
def NC_FLAGS : Field := ⟨0x780008, 0, 10, .w1c, 0, geoNC, .all, by decide⟩
def NC_IE : Field := ⟨0x78000c, 0, 10, .rw, 0, geoNC, .all, by decide⟩
def NC_GEOM_PAGE : Field := ⟨0x780010, 0, 2, .ro, 0, geoNC, .all, by decide⟩
def NC_GEOM_PPB : Field := ⟨0x780010, 8, 8, .ro, 0, geoNC, .all, by decide⟩
def NC_GEOM2_BLOCKS : Field := ⟨0x780040, 0, 32, .ro, 0, geoNC, .all, by decide⟩
def NC_BLK_GOOD : Field := ⟨0x780014, 0, 32, .ro, 0, geoNC, .all, by decide⟩
def NC_SPARE : Field := ⟨0x78003c, 0, 32, .ro, 0, geoNC, .all, by decide⟩
def NC_EC_MAX : Field := ⟨0x780018, 0, 32, .ro, 0, geoNC, .all, by decide⟩
def NC_EC_MEAN : Field := ⟨0x78001c, 0, 32, .ro, 0, geoNC, .all, by decide⟩
def NC_ENDUR : Field := ⟨0x780020, 0, 32, .ro, 0, geoNC, .all, by decide⟩
def NC_ECC_MAXC_ROUND : Field := ⟨0x780024, 0, 6, .ro, 0, geoNC, .all, by decide⟩
def NC_ECC_MAXC_ALL : Field := ⟨0x780024, 8, 6, .ro, 0, geoNC, .all, by decide⟩
def NC_CNT_REFRESH : Field := ⟨0x780028, 0, 16, .rc, 0, geoNC, .all, by decide⟩
def NC_CNT_UNCORR : Field := ⟨0x780028, 16, 16, .rc, 0, geoNC, .all, by decide⟩
def NC_PATROL_HOURS : Field := ⟨0x78002c, 0, 16, .rw, 168, geoNC, .all, by decide⟩
def NC_PATROL_RD_LIM : Field := ⟨0x78002c, 16, 16, .rw, 100, geoNC, .all, by decide⟩
def NC_PROG_ROUND : Field := ⟨0x780030, 0, 16, .ro, 0, geoNC, .all, by decide⟩
def NC_EOL_EOL_DAYS : Field := ⟨0x780034, 0, 16, .ro, 65535, geoNC, .all, by decide⟩
def NC_EOL_USED : Field := ⟨0x780034, 16, 8, .ro, 0, geoNC, .all, by decide⟩
def NC_WRITES : Field := ⟨0x780038, 0, 32, .ro, 0, geoNC, .all, by decide⟩

/-- Block MB: first address 0x1000. -/
def geoMB : Geo := ⟨20, 0x400, 1, 0x0⟩
def MB_STATUS_PROGRESS : Field := ⟨0x1200, 0, 16, .ro, 0, geoMB, .all, by decide⟩
def MB_STATUS_SEQ : Field := ⟨0x1200, 16, 8, .ro, 0, geoMB, .all, by decide⟩
def MB_STATUS_REASON : Field := ⟨0x1200, 24, 4, .ro, 0, geoMB, .all, by decide⟩
def MB_STATUS_STATE : Field := ⟨0x1200, 28, 4, .ro, 0, geoMB, .all, by decide⟩
def MB_DOOR_SEQ : Field := ⟨0x1204, 0, 8, .wo, 0, geoMB, .all, by decide⟩
def MB_CTL_ABORT : Field := ⟨0x1208, 0, 1, .wo, 0, geoMB, .all, by decide⟩
def MB_CTL_NEXT : Field := ⟨0x1208, 1, 1, .wo, 0, geoMB, .all, by decide⟩
def MB_CHUNK_INDEX : Field := ⟨0x120c, 0, 16, .ro, 0, geoMB, .all, by decide⟩
def MB_CHUNK_LEN : Field := ⟨0x120c, 16, 15, .ro, 0, geoMB, .all, by decide⟩
def MB_CHUNK_LAST : Field := ⟨0x120c, 31, 1, .ro, 0, geoMB, .all, by decide⟩
def MB_INFO_RESP_RD : Field := ⟨0x1210, 0, 1, .ro, 1, geoMB, .all, by decide⟩
def MB_INFO_HELD : Field := ⟨0x1210, 1, 1, .ro, 0, geoMB, .all, by decide⟩
def MB_INFO_UP_WAIT : Field := ⟨0x1210, 2, 1, .ro, 0, geoMB, .all, by decide⟩
def MB_INFO_DOOR_RES : Field := ⟨0x1210, 8, 8, .ro, 0, geoMB, .all, by decide⟩

/-- Block HP: first address 0x0. -/
def geoHP : Geo := ⟨2, 0x100, 1, 0x0⟩
def HP_CFG_IRQ_POL : Field := ⟨0x0, 0, 1, .rw, 0, geoHP, .all, by decide⟩
def HP_CFG_NOTIFY : Field := ⟨0x0, 1, 1, .rw, 0, geoHP, .all, by decide⟩
def HP_STAT_GELOW_UP : Field := ⟨0x4, 0, 1, .ro, 0, geoHP, .all, by decide⟩
def HP_STAT_QNE : Field := ⟨0x4, 1, 1, .ro, 0, geoHP, .all, by decide⟩
def HP_STAT_UP_BUSY : Field := ⟨0x4, 2, 1, .ro, 0, geoHP, .all, by decide⟩
def HP_STAT_UP_TAKEN : Field := ⟨0x4, 3, 1, .ro, 0, geoHP, .all, by decide⟩
def HP_STAT_UP_MB : Field := ⟨0x4, 4, 3, .ro, 0, geoHP, .all, by decide⟩
def HP_FLAGS : Field := ⟨0x8, 0, 11, .w1c, 0, geoHP, .all, by decide⟩
def HP_IE : Field := ⟨0xc, 0, 11, .rw, 0, geoHP, .all, by decide⟩
def HP_CNT_CRC : Field := ⟨0x10, 0, 16, .rc, 0, geoHP, .all, by decide⟩
def HP_CNT_CUT : Field := ⟨0x10, 16, 16, .rc, 0, geoHP, .all, by decide⟩
def HP_SYNC_TB_LO : Field := ⟨0x14, 0, 32, .ro, 0, geoHP, .all, by decide⟩
def HP_SYNC_TB_HI : Field := ⟨0x18, 0, 32, .ro, 0, geoHP, .all, by decide⟩
def HP_Q_HEAD : Field := ⟨0x20, 0, 13, .rw, 0, geoHP, .all, by decide⟩
def HP_Q_TAIL : Field := ⟨0x24, 0, 13, .ro, 0, geoHP, .all, by decide⟩
def HP_UP_LEN : Field := ⟨0x28, 0, 17, .rw, 0, geoHP, .all, by decide⟩

/-- Block ISRC: first address 0x600000. -/
def geoISRC : Geo := ⟨512, 0x4, 1, 0x0⟩
def INT_SRC_URG : Field := ⟨0x600000, 0, 4, .rw, 0, geoISRC, .urgent, by decide⟩
def INT_SRC_TIE : Field := ⟨0x600000, 4, 4, .rw, 0, geoISRC, .urgent, by decide⟩
def INT_SRC_TGT : Field := ⟨0x600000, 8, 4, .rw, 0, geoISRC, .target, by decide⟩
def INT_SRC_LVL : Field := ⟨0x600000, 12, 1, .rw, 0, geoISRC, .all, by decide⟩
def INT_SRC_PEND : Field := ⟨0x600000, 16, 4, .ro, 0, geoISRC, .all, by decide⟩
def INT_SRC_ACT : Field := ⟨0x600000, 20, 2, .ro, 0, geoISRC, .all, by decide⟩
def INT_SRC_ASSERT : Field := ⟨0x600000, 22, 1, .ro, 0, geoISRC, .all, by decide⟩

/-- Block IGRP: first address 0x600800. -/
def geoIGRP : Geo := ⟨32, 0x4, 1, 0x0⟩
def INT_GRP_HOLD : Field := ⟨0x600800, 0, 10, .rw, 0, geoIGRP, .all, by decide⟩
def INT_GRP_HO_TGT : Field := ⟨0x600800, 12, 4, .rw, 0, geoIGRP, .all, by decide⟩
def INT_GRP_RUN : Field := ⟨0x600800, 16, 1, .ro, 0, geoIGRP, .all, by decide⟩

/-- Block ITGT: first address 0x600900. -/
def geoITGT : Geo := ⟨4, 0x20, 1, 0x0⟩
def INT_TCTL_GEN : Field := ⟨0x600900, 0, 1, .rw, 1, geoITGT, .all, by decide⟩
def INT_TCTL_NOPRE : Field := ⟨0x600900, 1, 1, .rw, 0, geoITGT, .all, by decide⟩
def INT_TSTAT_ACTIVE : Field := ⟨0x600904, 0, 9, .ro, 511, geoITGT, .all, by decide⟩
def INT_TSTAT_NEST : Field := ⟨0x600904, 9, 5, .ro, 0, geoITGT, .all, by decide⟩
def INT_TSTAT_RUNURG : Field := ⟨0x600904, 16, 4, .ro, 15, geoITGT, .all, by decide⟩
def INT_TSTAT_RUNTIE : Field := ⟨0x600904, 20, 4, .ro, 15, geoITGT, .all, by decide⟩
def INT_TSTAT_QFULL : Field := ⟨0x600904, 24, 1, .ro, 0, geoITGT, .all, by decide⟩
def INT_PSUM : Field := ⟨0x600908, 0, 32, .ro, 0, geoITGT, .all, by decide⟩
def INT_QOVF_CNT : Field := ⟨0x60090c, 0, 16, .rc, 0, geoITGT, .all, by decide⟩

/-- Block INT: first address 0x600000. -/
def geoINT : Geo := ⟨1, 0x0, 1, 0x0⟩
def INT_SWSET_SRC : Field := ⟨0x600a00, 0, 9, .wo, 0, geoINT, .all, by decide⟩
def INT_CLRPEND_SRC : Field := ⟨0x600a04, 0, 9, .wo, 0, geoINT, .all, by decide⟩
def INT_CLRPEND_TGT : Field := ⟨0x600a04, 12, 4, .wo, 0, geoINT, .all, by decide⟩
def INT_WAKE_SRC_SRC : Field := ⟨0x600a50, 0, 9, .ro, 0, geoINT, .all, by decide⟩
def INT_WAKE_SRC_VALID : Field := ⟨0x600a50, 31, 1, .ro, 0, geoINT, .all, by decide⟩

/-- Block IWAKE: first address 0x600a10. -/
def geoIWAKE : Geo := ⟨16, 0x4, 1, 0x0⟩
def INT_WAKE : Field := ⟨0x600a10, 0, 32, .rw, 0, geoIWAKE, .all, by decide⟩

/-- Block ADC: first address 0x500000. -/
def geoADC : Geo := ⟨4, 0x100, 1, 0x0⟩
def ADC_CTL_MODE : Field := ⟨0x500000, 0, 2, .rw, 0, geoADC, .all, by decide⟩
def ADC_CTL_RATE : Field := ⟨0x500000, 2, 3, .rw, 3, geoADC, .all, by decide⟩
def ADC_CTL_ALIGN : Field := ⟨0x500000, 5, 1, .rw, 0, geoADC, .all, by decide⟩
def ADC_CTL_PAIR : Field := ⟨0x500000, 6, 1, .rw, 0, geoADC, .all, by decide⟩
def ADC_SEL_INPUT : Field := ⟨0x500004, 0, 10, .rw, 0, geoADC, (.input24 2), by decide⟩
def ADC_CMD_START : Field := ⟨0x500008, 0, 1, .wo, 0, geoADC, .all, by decide⟩
def ADC_STAT_BUSY : Field := ⟨0x50000c, 0, 1, .ro, 0, geoADC, .all, by decide⟩
def ADC_STAT_SETTLE : Field := ⟨0x50000c, 1, 1, .ro, 0, geoADC, .all, by decide⟩
def ADC_STAT_NEW : Field := ⟨0x50000c, 2, 1, .ro, 0, geoADC, .all, by decide⟩
def ADC_STAT_PAIRED : Field := ⟨0x50000c, 3, 1, .ro, 0, geoADC, .all, by decide⟩
def ADC_FLAGS : Field := ⟨0x500010, 0, 4, .w1c, 0, geoADC, .all, by decide⟩
def ADC_IE : Field := ⟨0x500014, 0, 4, .rw, 0, geoADC, .all, by decide⟩
def ADC_RES : Field := ⟨0x500018, 0, 32, .ro, 0, geoADC, .all, by decide⟩
def ADC_RES_INFO_INPUT : Field := ⟨0x50001c, 0, 10, .ro, 0, geoADC, .all, by decide⟩
def ADC_RES_INFO_UNIT : Field := ⟨0x50001c, 10, 2, .ro, 0, geoADC, .all, by decide⟩
def ADC_RES_INFO_CLIP : Field := ⟨0x50001c, 12, 1, .ro, 0, geoADC, .all, by decide⟩
def ADC_RES_TB_LO : Field := ⟨0x500020, 0, 32, .ro, 0, geoADC, .all, by decide⟩
def ADC_RES_TB_HI : Field := ⟨0x500024, 0, 32, .ro, 0, geoADC, .all, by decide⟩
def ADC_PAIR_OFS : Field := ⟨0x500028, 0, 16, .rw, 0, geoADC, .all, by decide⟩

/-- Block AS: first address 0x500000. -/
def geoAS : Geo := ⟨1, 0x0, 1, 0x0⟩
def AS_CTL_EN : Field := ⟨0x500400, 0, 1, .rw, 0, geoAS, .all, by decide⟩
def AS_CTL_STOP_LIM : Field := ⟨0x500400, 1, 1, .rw, 0, geoAS, .all, by decide⟩
def AS_STAT_RUN : Field := ⟨0x500404, 0, 1, .ro, 0, geoAS, .all, by decide⟩
def AS_STAT_ENTRY : Field := ⟨0x500404, 1, 6, .ro, 0, geoAS, .all, by decide⟩
def AS_STAT_LIM_ENT : Field := ⟨0x500404, 7, 6, .ro, 0, geoAS, .all, by decide⟩
def AS_STAT_LOOPS : Field := ⟨0x500404, 16, 16, .ro, 0, geoAS, .all, by decide⟩
def AS_FLAGS : Field := ⟨0x500408, 0, 4, .w1c, 0, geoAS, .all, by decide⟩
def AS_IE : Field := ⟨0x50040c, 0, 4, .rw, 0, geoAS, .all, by decide⟩

/-- Block ASE: first address 0x500800. -/
def geoASE : Geo := ⟨64, 0x10, 1, 0x0⟩
def AS_E0_INPUT : Field := ⟨0x500800, 0, 10, .rw, 0, geoASE, .all, by decide⟩
def AS_E0_UNIT : Field := ⟨0x500800, 10, 2, .rw, 0, geoASE, .all, by decide⟩
def AS_E0_RATE : Field := ⟨0x500800, 12, 3, .rw, 3, geoASE, .all, by decide⟩
def AS_E0_PULL : Field := ⟨0x500800, 15, 2, .rw, 0, geoASE, .all, by decide⟩
def AS_E0_LAST : Field := ⟨0x500800, 17, 1, .rw, 0, geoASE, .all, by decide⟩
def AS_E0_EN : Field := ⟨0x500800, 18, 1, .rw, 0, geoASE, .all, by decide⟩
def AS_E1_DELAY : Field := ⟨0x500804, 0, 16, .rw, 0, geoASE, .all, by decide⟩
def AS_E1_REPEAT : Field := ⟨0x500804, 16, 8, .rw, 0, geoASE, .all, by decide⟩
def AS_E2_LIM_LO : Field := ⟨0x500808, 0, 32, .rw, 1, geoASE, .all, by decide⟩
def AS_E3_LIM_HI : Field := ⟨0x50080c, 0, 32, .rw, 0, geoASE, .all, by decide⟩

/-- Block ASRES: first address 0x500c00. -/
def geoASRES : Geo := ⟨64, 0x4, 1, 0x0⟩
def AS_RES : Field := ⟨0x500c00, 0, 32, .ro, 0, geoASRES, .all, by decide⟩

/-- Block CMP: first address 0x501000. -/
def geoCMP : Geo := ⟨16, 0x20, 1, 0x0⟩
def CMP_CFG_EN : Field := ⟨0x501000, 0, 1, .rw, 0, geoCMP, .all, by decide⟩
def CMP_CFG_AIN : Field := ⟨0x501000, 1, 6, .rw, 0, geoCMP, (.input24 8), by decide⟩
def CMP_CFG_INIT : Field := ⟨0x501000, 7, 2, .rw, 0, geoCMP, .all, by decide⟩
def CMP_CFG_HYS : Field := ⟨0x501000, 9, 4, .rw, 0, geoCMP, .all, by decide⟩
def CMP_CFG_FILT : Field := ⟨0x501000, 13, 8, .rw, 0, geoCMP, .all, by decide⟩
def CMP_CFG_AON : Field := ⟨0x501000, 21, 1, .rw, 0, geoCMP, .all, by decide⟩
def CMP_THR_LO : Field := ⟨0x501004, 0, 10, .rw, 0, geoCMP, .all, by decide⟩
def CMP_THR_HI : Field := ⟨0x501004, 16, 10, .rw, 1023, geoCMP, .all, by decide⟩
def CMP_STAT_STATE : Field := ⟨0x501008, 0, 2, .ro, 0, geoCMP, .all, by decide⟩
def CMP_STAT_VALID : Field := ⟨0x501008, 2, 1, .ro, 0, geoCMP, .all, by decide⟩
def CMP_FLAGS : Field := ⟨0x50100c, 0, 4, .w1c, 0, geoCMP, .all, by decide⟩
def CMP_IE : Field := ⟨0x501010, 0, 4, .rw, 0, geoCMP, .all, by decide⟩
def CMP_TB_LO : Field := ⟨0x501014, 0, 32, .ro, 0, geoCMP, .all, by decide⟩
def CMP_TB_HI : Field := ⟨0x501018, 0, 32, .ro, 0, geoCMP, .all, by decide⟩
def CMP_CNT : Field := ⟨0x50101c, 0, 16, .rc, 0, geoCMP, .all, by decide⟩

/-- Block SDS: first address 0x502000. -/
def geoSDS : Geo := ⟨96, 0x40, 1, 0x0⟩
def SDS_CFG_EN : Field := ⟨0x502000, 0, 1, .rw, 0, geoSDS, .all, by decide⟩
def SDS_CFG_POL : Field := ⟨0x502000, 1, 1, .rw, 0, geoSDS, .all, by decide⟩
def SDS_CFG_HYS : Field := ⟨0x502000, 2, 4, .rw, 0, geoSDS, .all, by decide⟩
def SDS_CFG_PULL : Field := ⟨0x502000, 6, 2, .rw, 0, geoSDS, .all, by decide⟩
def SDS_CFG_DIAG_EN : Field := ⟨0x502000, 8, 1, .rw, 1, geoSDS, .all, by decide⟩
def SDS_CFG_INIT : Field := ⟨0x502000, 9, 2, .rw, 1, geoSDS, .all, by decide⟩
def SDS_CFG_FILT : Field := ⟨0x502000, 11, 8, .rw, 0, geoSDS, .all, by decide⟩
def SDS_THR_LO : Field := ⟨0x502004, 0, 10, .rw, 0, geoSDS, .all, by decide⟩
def SDS_THR_HI : Field := ⟨0x502004, 16, 10, .rw, 1023, geoSDS, .all, by decide⟩
def SDS_WID_W_MIN : Field := ⟨0x502008, 0, 16, .rw, 300, geoSDS, .all, by decide⟩
def SDS_WID_W_MAX : Field := ⟨0x502008, 16, 16, .rw, 2000, geoSDS, .all, by decide⟩
def SDS_STAT_STATE : Field := ⟨0x50200c, 0, 2, .ro, 1, geoSDS, .all, by decide⟩
def SDS_STAT_VALID : Field := ⟨0x50200c, 2, 1, .ro, 0, geoSDS, .all, by decide⟩
def SDS_STAT_COND : Field := ⟨0x50200c, 3, 4, .ro, 0, geoSDS, .all, by decide⟩
def SDS_FLAGS : Field := ⟨0x502010, 0, 8, .w1c, 0, geoSDS, .all, by decide⟩
def SDS_IE : Field := ⟨0x502014, 0, 8, .rw, 0, geoSDS, .all, by decide⟩
def SDS_DROP_TB_LO : Field := ⟨0x502018, 0, 32, .ro, 0, geoSDS, .all, by decide⟩
def SDS_DROP_TB_HI : Field := ⟨0x50201c, 0, 32, .ro, 0, geoSDS, .all, by decide⟩
def SDS_DROP_W : Field := ⟨0x502020, 0, 16, .ro, 0, geoSDS, .all, by decide⟩
def SDS_DROPS : Field := ⟨0x502024, 0, 32, .ro, 0, geoSDS, .all, by decide⟩
def SDS_CNT_SHORTP : Field := ⟨0x502028, 0, 16, .rc, 0, geoSDS, .all, by decide⟩
def SDS_CNT_BLOCKED : Field := ⟨0x502028, 16, 16, .rc, 0, geoSDS, .all, by decide⟩

/-- Block SDSG: first address 0x503800. -/
def geoSDSG : Geo := ⟨6, 0x8, 1, 0x0⟩
def SDSG_FLAGS : Field := ⟨0x503800, 0, 16, .w1c, 0, geoSDSG, .all, by decide⟩
def SDSG_IE : Field := ⟨0x503804, 0, 16, .rw, 0, geoSDSG, .all, by decide⟩

/-- Block AIN: first address 0x503900. -/
def geoAIN : Geo := ⟨48, 0x4, 1, 0x0⟩
def AIN_CFG_PULL : Field := ⟨0x503900, 0, 2, .rw, 0, geoAIN, .all, by decide⟩

/-- Block FE: first address 0x580000. -/
def geoFE : Geo := ⟨32, 0x200, 1, 0x0⟩
def FE_CTL_EN : Field := ⟨0x580000, 0, 1, .rw, 0, geoFE, .all, by decide⟩
def FE_CLKDIV_FRAC : Field := ⟨0x580004, 0, 8, .rw, 0, geoFE, .all, by decide⟩
def FE_CLKDIV_INT : Field := ⟨0x580004, 8, 16, .rw, 1, geoFE, .all, by decide⟩
def FE_EXEC_ENTRY : Field := ⟨0x580008, 0, 6, .rw, 0, geoFE, .all, by decide⟩
def FE_EXEC_LOOP : Field := ⟨0x580008, 8, 6, .rw, 0, geoFE, .all, by decide⟩
def FE_LANE_DIR : Field := ⟨0x58000c, 0, 1, .rw, 0, geoFE, .all, by decide⟩
def FE_LANE_AUTO : Field := ⟨0x58000c, 1, 1, .rw, 0, geoFE, .all, by decide⟩
def FE_LANE_ASTORE : Field := ⟨0x58000c, 2, 1, .rw, 0, geoFE, .all, by decide⟩
def FE_LANE_ALOAD : Field := ⟨0x58000c, 3, 1, .rw, 0, geoFE, .all, by decide⟩
def FE_LANE_FRAME : Field := ⟨0x58000c, 4, 5, .rw, 0, geoFE, .all, by decide⟩
def FE_LANE_RX_OVW : Field := ⟨0x58000c, 9, 1, .rw, 0, geoFE, .all, by decide⟩
def FE_LANE_TX_THR : Field := ⟨0x58000c, 10, 4, .rw, 0, geoFE, .all, by decide⟩
def FE_PINS_IN_BASE : Field := ⟨0x580010, 0, 6, .rw, 0, geoFE, .all, by decide⟩
def FE_PINS_OUT_BASE : Field := ⟨0x580010, 6, 6, .rw, 0, geoFE, .all, by decide⟩
def FE_PINS_OUT_N : Field := ⟨0x580010, 12, 6, .rw, 0, geoFE, .all, by decide⟩
def FE_PINS_SET_BASE : Field := ⟨0x580010, 18, 6, .rw, 0, geoFE, .all, by decide⟩
def FE_PINS_SET_N : Field := ⟨0x580010, 24, 4, .rw, 0, geoFE, .all, by decide⟩
def FE_PAT_BASE : Field := ⟨0x580014, 0, 6, .rw, 0, geoFE, .all, by decide⟩
def FE_PAT_N : Field := ⟨0x580014, 6, 3, .rw, 0, geoFE, .all, by decide⟩
def FE_TX : Field := ⟨0x580018, 0, 32, .wo, 0, geoFE, .all, by decide⟩
def FE_RX : Field := ⟨0x58001c, 0, 32, .ro, 0, geoFE, .all, by decide⟩
def FE_STAT_PC : Field := ⟨0x580020, 0, 6, .ro, 0, geoFE, .all, by decide⟩
def FE_STAT_STALL : Field := ⟨0x580020, 6, 1, .ro, 0, geoFE, .all, by decide⟩
def FE_STAT_CAUSE : Field := ⟨0x580020, 7, 3, .ro, 0, geoFE, .all, by decide⟩
def FE_STAT_TX_LVL : Field := ⟨0x580020, 10, 4, .ro, 0, geoFE, .all, by decide⟩
def FE_STAT_RX_LVL : Field := ⟨0x580020, 14, 4, .ro, 0, geoFE, .all, by decide⟩
def FE_STAT_BC : Field := ⟨0x580020, 18, 6, .ro, 0, geoFE, .all, by decide⟩
def FE_FLAGS : Field := ⟨0x580024, 0, 6, .w1c, 0, geoFE, .all, by decide⟩
def FE_IE : Field := ⟨0x580028, 0, 6, .rw, 0, geoFE, .all, by decide⟩
def FE_A : Field := ⟨0x58002c, 0, 32, .ro, 0, geoFE, .all, by decide⟩
def FE_B : Field := ⟨0x580030, 0, 32, .ro, 0, geoFE, .all, by decide⟩
def FE_PATTAB : Field := ⟨0x580034, 0, 28, .rw, 0, geoFE, .all, by decide⟩
def FE_SIGSEL_SIG0 : Field := ⟨0x580038, 0, 8, .rw, 0, geoFE, .all, by decide⟩
def FE_SIGSEL_SIG1 : Field := ⟨0x580038, 8, 8, .rw, 0, geoFE, .all, by decide⟩
def FE_SIGSEL_SIG2 : Field := ⟨0x580038, 16, 8, .rw, 0, geoFE, .all, by decide⟩
def FE_SIGSEL_SIG3 : Field := ⟨0x580038, 24, 8, .rw, 0, geoFE, .all, by decide⟩
def FE_SR : Field := ⟨0x58003c, 0, 32, .ro, 0, geoFE, .all, by decide⟩

/-- Block FEPROG: first address 0x580100. -/
def geoFEPROG : Geo := ⟨32, 0x200, 64, 0x4⟩
def FE_PROG : Field := ⟨0x580100, 0, 24, .rw, 0, geoFEPROG, .all, by decide⟩

/-- Block FIO: first address 0x584000. -/
def geoFIO : Geo := ⟨64, 0x4, 1, 0x0⟩
def FIO_CFG_SRC : Field := ⟨0x584000, 0, 2, .rw, 0, geoFIO, .all, by decide⟩
def FIO_CFG_UNIT : Field := ⟨0x584000, 2, 5, .rw, 0, geoFIO, .all, by decide⟩
def FIO_CFG_OD : Field := ⟨0x584000, 7, 1, .rw, 0, geoFIO, .all, by decide⟩
def FIO_CFG_PULL : Field := ⟨0x584000, 8, 2, .rw, 0, geoFIO, .all, by decide⟩
def FIO_CFG_LEVEL : Field := ⟨0x584000, 16, 1, .ro, 0, geoFIO, .all, by decide⟩

/-- Block FG: first address 0x585000. -/
def geoFG : Geo := ⟨4, 0x4, 1, 0x0⟩
def FG_FLAGS : Field := ⟨0x585000, 0, 8, .w1c, 0, geoFG, .all, by decide⟩

/-- Block FESYNC: first address 0x580000. -/
def geoFESYNC : Geo := ⟨1, 0x0, 1, 0x0⟩
def FE_SYNC_MASK : Field := ⟨0x585100, 0, 32, .rw, 0, geoFESYNC, .all, by decide⟩
def FE_SYNC_CMD : Field := ⟨0x585104, 0, 4, .wo, 0, geoFESYNC, .all, by decide⟩

/-- Block TIM: first address 0x5c0000. -/
def geoTIM : Geo := ⟨16, 0x40, 1, 0x0⟩
def TIM_CTL_EN : Field := ⟨0x5c0000, 0, 1, .rw, 0, geoTIM, .all, by decide⟩
def TIM_CTL_MODE : Field := ⟨0x5c0000, 1, 2, .rw, 0, geoTIM, .all, by decide⟩
def TIM_CTL_CLK : Field := ⟨0x5c0000, 3, 1, .rw, 0, geoTIM, .all, by decide⟩
def TIM_CTL_PRESC : Field := ⟨0x5c0000, 4, 16, .rw, 0, geoTIM, .all, by decide⟩
def TIM_CTL_DBG_FRZ : Field := ⟨0x5c0000, 20, 2, .rw, 0, geoTIM, .all, by decide⟩
def TIM_CTL_OUTM : Field := ⟨0x5c0000, 22, 2, .rw, 0, geoTIM, .all, by decide⟩
def TIM_CTL_AON : Field := ⟨0x5c0000, 24, 1, .rw, 0, geoTIM, .all, by decide⟩
def TIM_SRC_CAP_SEL : Field := ⟨0x5c0004, 0, 8, .rw, 0, geoTIM, .all, by decide⟩
def TIM_SRC_CAP_EDGE : Field := ⟨0x5c0004, 8, 2, .rw, 0, geoTIM, .all, by decide⟩
def TIM_SRC_CNT_SEL : Field := ⟨0x5c0004, 10, 8, .rw, 0, geoTIM, .all, by decide⟩
def TIM_SRC_CNT_EDGE : Field := ⟨0x5c0004, 18, 2, .rw, 1, geoTIM, .all, by decide⟩
def TIM_CNT : Field := ⟨0x5c0008, 0, 32, .rw, 0, geoTIM, .all, by decide⟩
def TIM_PER : Field := ⟨0x5c000c, 0, 32, .rw, 4294967295, geoTIM, .all, by decide⟩
def TIM_CMP : Field := ⟨0x5c0010, 0, 32, .rw, 4294967295, geoTIM, .all, by decide⟩
def TIM_CAP : Field := ⟨0x5c0014, 0, 32, .ro, 0, geoTIM, .all, by decide⟩
def TIM_CAP_TB_LO : Field := ⟨0x5c0018, 0, 32, .ro, 0, geoTIM, .all, by decide⟩
def TIM_CAP_TB_HI : Field := ⟨0x5c001c, 0, 32, .ro, 0, geoTIM, .all, by decide⟩
def TIM_STAT_NEW : Field := ⟨0x5c0020, 0, 1, .ro, 0, geoTIM, .all, by decide⟩
def TIM_STAT_RUN : Field := ⟨0x5c0020, 1, 1, .ro, 0, geoTIM, .all, by decide⟩
def TIM_STAT_FROZEN : Field := ⟨0x5c0020, 2, 1, .ro, 0, geoTIM, .all, by decide⟩
def TIM_STAT_OUT : Field := ⟨0x5c0020, 3, 1, .ro, 0, geoTIM, .all, by decide⟩
def TIM_FLAGS : Field := ⟨0x5c0024, 0, 4, .w1c, 0, geoTIM, .all, by decide⟩
def TIM_IE : Field := ⟨0x5c0028, 0, 4, .rw, 0, geoTIM, .all, by decide⟩

/-- Block SYS: first address 0x680000. -/
def geoSYS : Geo := ⟨1, 0x0, 1, 0x0⟩
def SYS_ID_REV : Field := ⟨0x680000, 0, 4, .ro, 1, geoSYS, .all, by decide⟩
def SYS_ID_PART : Field := ⟨0x680000, 16, 16, .ro, 402, geoSYS, .all, by decide⟩
def CLK_CFG_XTAL_EN : Field := ⟨0x680004, 0, 1, .rw, 0, geoSYS, .all, by decide⟩
def CLK_CFG_XTAL_EXT : Field := ⟨0x680004, 1, 1, .rw, 0, geoSYS, .all, by decide⟩
def CLK_CFG_PLLA_EN : Field := ⟨0x680004, 2, 1, .rw, 0, geoSYS, .all, by decide⟩
def CLK_CFG_HOLD_EN : Field := ⟨0x680004, 3, 1, .rw, 1, geoSYS, .all, by decide⟩
def CLK_STAT_XTAL_OK : Field := ⟨0x680008, 0, 1, .ro, 0, geoSYS, .all, by decide⟩
def CLK_STAT_PLLA_LOCK : Field := ⟨0x680008, 1, 1, .ro, 0, geoSYS, .all, by decide⟩
def CLK_STAT_PLLB_LOCK : Field := ⟨0x680008, 2, 1, .ro, 0, geoSYS, .all, by decide⟩
def CLK_STAT_HOLDOVER : Field := ⟨0x680008, 3, 1, .ro, 0, geoSYS, .all, by decide⟩
def CLK_STAT_TRIM : Field := ⟨0x680008, 4, 2, .ro, 0, geoSYS, .all, by decide⟩
def CLK_SEL0 : Field := ⟨0x68000c, 0, 32, .rw, 1431655765, geoSYS, .all, by decide⟩
def CLK_SEL1 : Field := ⟨0x680010, 0, 4, .rw, 5, geoSYS, .all, by decide⟩
def CLK_SWBUSY : Field := ⟨0x680014, 0, 18, .ro, 0, geoSYS, .all, by decide⟩
def CLK_ISL_FLT : Field := ⟨0x680018, 0, 18, .w1c, 0, geoSYS, .all, by decide⟩
def CLK_STOPPED : Field := ⟨0x68001c, 0, 18, .ro, 0, geoSYS, .all, by decide⟩
def CLK_AUTO : Field := ⟨0x680020, 0, 18, .rw, 262143, geoSYS, .all, by decide⟩
def CLK_TRIM_REF : Field := ⟨0x680024, 0, 2, .rw, 0, geoSYS, .all, by decide⟩
def CLK_TRIM_SHIFT : Field := ⟨0x680024, 2, 4, .rw, 4, geoSYS, .all, by decide⟩
def CLK_TRIM_SYNC_IVL : Field := ⟨0x680024, 16, 16, .rw, 100, geoSYS, .all, by decide⟩
def CLK_TRIM_ERR : Field := ⟨0x680028, 0, 32, .ro, 0, geoSYS, .all, by decide⟩
def CLK_CORR : Field := ⟨0x68002c, 0, 32, .ro, 0, geoSYS, .all, by decide⟩
def CLK_GATE0 : Field := ⟨0x680030, 0, 31, .rw, 2147483647, geoSYS, .all, by decide⟩
def CLK_GATE1 : Field := ⟨0x680034, 0, 24, .rw, 16777215, geoSYS, .all, by decide⟩
def RST_ISL : Field := ⟨0x680040, 0, 18, .wo, 0, geoSYS, .all, by decide⟩
def RST_CAUSE : Field := ⟨0x680044, 0, 7, .w1c, 1, geoSYS, .all, by decide⟩
def RST_LAST_ISL : Field := ⟨0x680048, 0, 5, .ro, 31, geoSYS, .all, by decide⟩
def RST_LAST_AUTO : Field := ⟨0x680048, 8, 1, .ro, 0, geoSYS, .all, by decide⟩
def RST_CFG_CL_RETRY : Field := ⟨0x68004c, 0, 1, .rw, 1, geoSYS, .all, by decide⟩
def WDT_V_TMO : Field := ⟨0x680050, 0, 16, .rw, 50, geoSYS, .all, by decide⟩
def WDT_V_KICK : Field := ⟨0x680054, 0, 8, .wo, 0, geoSYS, .all, by decide⟩
def WDT_C_KICK : Field := ⟨0x680058, 0, 8, .wo, 0, geoSYS, .all, by decide⟩
def SYS_SLEEP_REQ : Field := ⟨0x680060, 0, 1, .wo, 0, geoSYS, .all, by decide⟩
def SYS_SLEEP_WAKE : Field := ⟨0x680060, 1, 1, .wo, 0, geoSYS, .all, by decide⟩
def SYS_SLEEP_REF : Field := ⟨0x680060, 8, 1, .ro, 0, geoSYS, .all, by decide⟩
def BOOT_STAT_STAGE : Field := ⟨0x680064, 0, 4, .ro, 0, geoSYS, .all, by decide⟩
def BOOT_STAT_ERR : Field := ⟨0x680064, 4, 4, .ro, 0, geoSYS, .all, by decide⟩
def BOOT_STAT_FALLBACK : Field := ⟨0x680064, 8, 1, .ro, 0, geoSYS, .all, by decide⟩
def BOOT_RCV_LEN : Field := ⟨0x680068, 0, 17, .rw, 0, geoSYS, .all, by decide⟩
def BOOT_RCV_GO : Field := ⟨0x680068, 31, 1, .wo, 0, geoSYS, .all, by decide⟩
def SYS_FLT_FLAGS : Field := ⟨0x680070, 0, 5, .w1c, 0, geoSYS, .all, by decide⟩
def SYS_FLT_IE : Field := ⟨0x680074, 0, 5, .rw, 31, geoSYS, .all, by decide⟩
def SYS_PAR_ADDR_ADDR : Field := ⟨0x680078, 0, 24, .ro, 0, geoSYS, .all, by decide⟩
def SYS_PAR_ADDR_TCM : Field := ⟨0x680078, 31, 1, .ro, 0, geoSYS, .all, by decide⟩
def SYS_CRUC_ADDR : Field := ⟨0x68007c, 0, 21, .ro, 0, geoSYS, .all, by decide⟩
def SYS_VRST_CNT : Field := ⟨0x680080, 0, 8, .ro, 0, geoSYS, .all, by decide⟩
def FAB_STAT0 : Field := ⟨0x680090, 0, 32, .ro, 0, geoSYS, .all, by decide⟩
def FAB_STAT1 : Field := ⟨0x680094, 0, 6, .ro, 0, geoSYS, .all, by decide⟩
def SUPM_STAT : Field := ⟨0x680200, 0, 6, .ro, 0, geoSYS, .all, by decide⟩
def SUPM_FLAGS : Field := ⟨0x680204, 0, 6, .w1c, 0, geoSYS, .all, by decide⟩
def SUPM_IE : Field := ⟨0x680208, 0, 6, .rw, 0, geoSYS, .all, by decide⟩
def SUP_CTL_EN : Field := ⟨0x680210, 0, 8, .rw, 0, geoSYS, .all, by decide⟩
def SUP_STAT_FLT : Field := ⟨0x680214, 0, 8, .ro, 0, geoSYS, .all, by decide⟩
def SUP_FLAGS : Field := ⟨0x680218, 0, 8, .w1c, 0, geoSYS, .all, by decide⟩
def SUP_IE : Field := ⟨0x68021c, 0, 8, .rw, 0, geoSYS, .all, by decide⟩

/-- Block FABC: first address 0x680100. -/
def geoFABC : Geo := ⟨38, 0x4, 1, 0x0⟩
def FAB_CNT : Field := ⟨0x680100, 0, 16, .rc, 0, geoFABC, .all, by decide⟩

/-- Block PCH: first address 0x6c0000. -/
def geoPCH : Geo := ⟨12, 0x4, 1, 0x0⟩
def PROT_CH_OWN : Field := ⟨0x6c0000, 0, 32, .sl, 4294967295, geoPCH, .all, by decide⟩

/-- Block PAX: first address 0x6c0040. -/
def geoPAX : Geo := ⟨16, 0x4, 1, 0x0⟩
def PROT_AX_OWN : Field := ⟨0x6c0040, 0, 32, .sl, 4294967295, geoPAX, .all, by decide⟩

/-- Block PROT: first address 0x6c0000. -/
def geoPROT : Geo := ⟨1, 0x0, 1, 0x0⟩
def PROT_ROLE_GEOM : Field := ⟨0x6c0080, 0, 2, .sl, 3, geoPROT, .all, by decide⟩
def PROT_ROLE_POSE : Field := ⟨0x6c0080, 2, 2, .sl, 3, geoPROT, .all, by decide⟩
def PROT_ROLE_DRIVE : Field := ⟨0x6c0080, 4, 2, .sl, 3, geoPROT, .all, by decide⟩
def PROT_ROLE_SYSTEM : Field := ⟨0x6c0080, 6, 2, .sl, 3, geoPROT, .all, by decide⟩
def PROT_DW : Field := ⟨0x6c0084, 0, 3, .sl, 0, geoPROT, .all, by decide⟩
def PROT_SHR_A : Field := ⟨0x6c0280, 0, 16, .sl, 0, geoPROT, .all, by decide⟩
def PROT_SHR_B : Field := ⟨0x6c0280, 16, 16, .sl, 0, geoPROT, .all, by decide⟩
def PROT_WDTC_TMO : Field := ⟨0x6c0300, 0, 16, .sl, 0, geoPROT, .all, by decide⟩
def PROT_DBG_C : Field := ⟨0x6c0304, 0, 1, .sl, 0, geoPROT, .all, by decide⟩
def PROT_DBG_V : Field := ⟨0x6c0304, 1, 1, .sl, 0, geoPROT, .all, by decide⟩
def PROT_SEAL_SEAL : Field := ⟨0x6c03f0, 0, 1, .sl, 0, geoPROT, .all, by decide⟩
def KEY_PROG_SLOT : Field := ⟨0x6c04a0, 0, 2, .sl, 0, geoPROT, .all, by decide⟩
def KEY_PROG_GO : Field := ⟨0x6c04a0, 8, 1, .sl, 0, geoPROT, .all, by decide⟩
def KEY_PROG_REVOKE : Field := ⟨0x6c04a0, 9, 1, .sl, 0, geoPROT, .all, by decide⟩
def KEY_STAT_PROG : Field := ⟨0x6c04a4, 0, 4, .ro, 0, geoPROT, .all, by decide⟩
def KEY_STAT_REV : Field := ⟨0x6c04a4, 4, 4, .ro, 0, geoPROT, .all, by decide⟩
def KEY_STAT_LIFE : Field := ⟨0x6c04a4, 8, 1, .ro, 0, geoPROT, .all, by decide⟩
def KEY_STAT_BUSY : Field := ⟨0x6c04a4, 9, 1, .ro, 0, geoPROT, .all, by decide⟩
def KEY_STAT_PERR : Field := ⟨0x6c04a4, 10, 1, .ro, 0, geoPROT, .all, by decide⟩

/-- Block PBANK: first address 0x6c0100. -/
def geoPBANK : Geo := ⟨24, 0x8, 1, 0x0⟩
def PROT_BANK_BV_MAX : Field := ⟨0x6c0100, 0, 8, .sl, 65, geoPBANK, .all, by decide⟩
def PROT_BANK_IPK_MAX : Field := ⟨0x6c0100, 8, 10, .sl, 1000, geoPBANK, .all, by decide⟩
def PROT_BANK_DUTY_MAX : Field := ⟨0x6c0100, 18, 10, .sl, 1000, geoPBANK, .all, by decide⟩
def PROT_BANK_TBST_MAX : Field := ⟨0x6c0104, 0, 12, .sl, 4095, geoPBANK, .all, by decide⟩

/-- Block PMPU: first address 0x6c0200. -/
def geoPMPU : Geo := ⟨8, 0x8, 1, 0x0⟩
def PROT_MPU_BASE : Field := ⟨0x6c0200, 12, 20, .sl, 0, geoPMPU, .all, by decide⟩
def PROT_MPU_SIZE : Field := ⟨0x6c0204, 0, 5, .sl, 12, geoPMPU, .all, by decide⟩
def PROT_MPU_R : Field := ⟨0x6c0204, 8, 1, .sl, 0, geoPMPU, .all, by decide⟩
def PROT_MPU_W : Field := ⟨0x6c0204, 9, 1, .sl, 0, geoPMPU, .all, by decide⟩
def PROT_MPU_X : Field := ⟨0x6c0204, 10, 1, .sl, 0, geoPMPU, .all, by decide⟩
def PROT_MPU_EN : Field := ⟨0x6c0204, 31, 1, .sl, 0, geoPMPU, .all, by decide⟩

/-- Block KHASH: first address 0x6c0400. -/
def geoKHASH : Geo := ⟨4, 0x20, 8, 0x4⟩
def KEY_HASH : Field := ⟨0x6c0400, 0, 32, .ro, 0, geoKHASH, .all, by decide⟩

/-- Block KDATA: first address 0x6c0480. -/
def geoKDATA : Geo := ⟨8, 0x4, 1, 0x0⟩
def KEY_DATA : Field := ⟨0x6c0480, 0, 32, .sl, 0, geoKDATA, .all, by decide⟩

/-- Block PT: first address 0x705100. -/
def geoPT : Geo := ⟨64, 0x8, 1, 0x0⟩
def MAP_PT_POS_TE : Field := ⟨0x705100, 0, 16, .ro, 0, geoPT, .all, by decide⟩
def MAP_PT_POS_TN : Field := ⟨0x705100, 16, 16, .ro, 0, geoPT, .all, by decide⟩
def MAP_PT_STAT_STATE : Field := ⟨0x705104, 0, 3, .ro, 0, geoPT, .all, by decide⟩
def MAP_PT_STAT_REQ : Field := ⟨0x705104, 3, 1, .ro, 0, geoPT, .all, by decide⟩
def MAP_PT_STAT_VER : Field := ⟨0x705104, 16, 16, .ro, 0, geoPT, .all, by decide⟩

/-! Bits of the flags registers. -/

/-! WHL_FLAGS (02_wheel_inputs.md R80). -/
def WHL_FLAGS_EDGE_FLT : Nat := 0
def WHL_FLAGS_QERR : Nat := 1
def WHL_FLAGS_TCNT_ERR : Nat := 2
def WHL_FLAGS_IDX_MISMATCH : Nat := 3
def WHL_FLAGS_SYNC_ACQ : Nat := 4
def WHL_FLAGS_SYNC_LOST : Nat := 5
def WHL_FLAGS_ANGLE_STEP : Nat := 6
def WHL_FLAGS_STOP_IN : Nat := 7
def WHL_FLAGS_START : Nat := 8
def WHL_FLAGS_DIR_CHG : Nat := 9
def WHL_FLAGS_OPEN : Nat := 10
def WHL_FLAGS_SHORT_GND : Nat := 11
def WHL_FLAGS_SHORT_BAT : Nat := 12
def WHL_FLAGS_REV : Nat := 13
def WHL_FLAGS_SUP_FLT : Nat := 14
def WHL_FLAGS_FAULT_IN : Nat := 15
def WHL_FLAGS_FAULT_OUT : Nat := 16
def WHL_FLAGS_CFG_ERR : Nat := 17
def WHL_FLAGS_NOISE : Nat := 18

/-! MDL_FLAGS (03_mandrel_and_axes.md R125). -/
def MDL_FLAGS_STATE_CHG : Nat := 0
def MDL_FLAGS_SRC_EVT : Nat := 1
def MDL_FLAGS_SINGLE : Nat := 2
def MDL_FLAGS_SLIP_AMBIG : Nat := 3
def MDL_FLAGS_COAST_IN : Nat := 4
def MDL_FLAGS_INVALID_IN : Nat := 5
def MDL_FLAGS_STILL_IN : Nat := 6
def MDL_FLAGS_STILL_OUT : Nat := 7
def MDL_FLAGS_POSE_REJ : Nat := 8
def MDL_FLAGS_FIELD_JUMP : Nat := 9
def MDL_FLAGS_POSE_LOST : Nat := 10
def MDL_FLAGS_YAW_FALLBACK : Nat := 11
def MDL_FLAGS_YAW_LOST : Nat := 12
def MDL_FLAGS_DEFL_LOST : Nat := 13
def MDL_FLAGS_FIELD_RANGE : Nat := 14
def MDL_FLAGS_CFG_ERR : Nat := 15
def MDL_FLAGS_POSE_REFUSED : Nat := 16

/-! CH_FLAGS (04_event_scheduling.md R170). -/
def CH_FLAGS_EXEC : Nat := 0
def CH_FLAGS_LATE : Nat := 1
def CH_FLAGS_MISSED : Nat := 2
def CH_FLAGS_CANCELLED : Nat := 3
def CH_FLAGS_OVERRIDDEN : Nat := 4
def CH_FLAGS_REFIRE : Nat := 5
def CH_FLAGS_ARM_REFUSED : Nat := 6
def CH_FLAGS_CFG_ERR : Nat := 7
def CH_FLAGS_INH_SET : Nat := 8
def CH_FLAGS_INH_CLR : Nat := 9
def CH_FLAGS_ADV_CLAMP : Nat := 10
def CH_FLAGS_BUNCHED : Nat := 11
def CH_FLAGS_POOL_EMPTY : Nat := 12

/-! TR_FLAGS (05_trains_and_lattice.md R198). -/
def TR_FLAGS_RATE_LIM : Nat := 0
def TR_FLAGS_SKIP : Nat := 1
def TR_FLAGS_TR_END : Nat := 2
def TR_FLAGS_TR_STOP : Nat := 3
def TR_FLAGS_UPD_DONE : Nat := 4
def TR_FLAGS_UPD_REF : Nat := 5

/-! CH_DRV_FLAGS (06_actuator_drive.md R229). -/
def CH_DRV_FLAGS_BST_DENIED : Nat := 0
def CH_DRV_FLAGS_BST_WAIT : Nat := 1
def CH_DRV_FLAGS_BST_TMO : Nat := 2
def CH_DRV_FLAGS_DECAY_SLOW : Nat := 3
def CH_DRV_FLAGS_MAXON : Nat := 4
def CH_DRV_FLAGS_THERM_WARN : Nat := 5
def CH_DRV_FLAGS_THERM_OFF : Nat := 6
def CH_DRV_FLAGS_DUTY_LIM : Nat := 7
def CH_DRV_FLAGS_CFG_CLAMP : Nat := 8
def CH_DRV_FLAGS_CFG_ERR : Nat := 9
def CH_DRV_FLAGS_RESTART : Nat := 10

/-! BK_FLAGS (06_actuator_drive.md R230). -/
def BK_FLAGS_CH_EVT : Nat := 0
def BK_FLAGS_BST_DENIED : Nat := 1
def BK_FLAGS_BV_BLOCK : Nat := 2
def BK_FLAGS_UV : Nat := 3
def BK_FLAGS_VBK_LOST : Nat := 4
def BK_FLAGS_VBK_BACK : Nat := 5

/-! MDL_SRC_FLAGS (03_mandrel_and_axes.md R125). -/
def MDL_SRC_FLAGS_ACQ_DONE : Nat := 0
def MDL_SRC_FLAGS_SLIP_IN : Nat := 1
def MDL_SRC_FLAGS_SLIP_OUT : Nat := 2
def MDL_SRC_FLAGS_LOST : Nat := 3
def MDL_SRC_FLAGS_TOOTH_CORR : Nat := 4
def MDL_SRC_FLAGS_REJECT : Nat := 5
def MDL_SRC_FLAGS_LEARN_LIM : Nat := 6
def MDL_SRC_FLAGS_ACQ_SLIP : Nat := 7

/-! AX_FLAGS (03_mandrel_and_axes.md R126). -/
def AX_FLAGS_REV_IN : Nat := 0
def AX_FLAGS_FWD_IN : Nat := 1
def AX_FLAGS_HELD_IN : Nat := 2
def AX_FLAGS_HELD_OUT : Nat := 3

/-! LAT_FLAGS (05_trains_and_lattice.md R199). -/
def LAT_FLAGS_LOCK_IN : Nat := 0
def LAT_FLAGS_LOCK_OUT : Nat := 1
def LAT_FLAGS_TGT_STEP : Nat := 2
def LAT_FLAGS_LINE_CHG : Nat := 3
def LAT_FLAGS_MISALIGN : Nat := 4
def LAT_FLAGS_OFFLINE : Nat := 5
def LAT_FLAGS_WHL_LOST : Nat := 6
def LAT_FLAGS_SKIP : Nat := 7
def LAT_FLAGS_DOUBLE : Nat := 8
def LAT_FLAGS_NO_SEED : Nat := 9
def LAT_FLAGS_TUBE_LIM : Nat := 10
def LAT_FLAGS_TRIM_LIM : Nat := 11
def LAT_FLAGS_OUT_OVF : Nat := 12
def LAT_FLAGS_CFG_ERR : Nat := 13
def LAT_FLAGS_FAULT_IN : Nat := 14
def LAT_FLAGS_FAULT_OUT : Nat := 15

/-! BST_FLAGS (06_actuator_drive.md R231). -/
def BST_FLAGS_READY_IN : Nat := 0
def BST_FLAGS_READY_OUT : Nat := 1
def BST_FLAGS_CLAMP_ON : Nat := 2
def BST_FLAGS_OV_IN : Nat := 3
def BST_FLAGS_OV_OUT : Nat := 4
def BST_FLAGS_START_TMO : Nat := 5
def BST_FLAGS_ILIM : Nat := 6

/-! PWR_FLAGS (06_actuator_drive.md R232). -/
def PWR_FLAGS_TRIM_IN : Nat := 0
def PWR_FLAGS_TRIM_OUT : Nat := 1
def PWR_FLAGS_FLOOR : Nat := 2
def PWR_FLAGS_THERM_WARN : Nat := 3
def PWR_FLAGS_THERM_OFF : Nat := 4

/-! DG_FLAGS (07_actuator_diagnostics.md R259). -/
def DG_FLAGS_OPEN : Nat := 0
def DG_FLAGS_SHORT_GND : Nat := 1
def DG_FLAGS_SHORT_BAT : Nat := 2
def DG_FLAGS_NO_RISE : Nat := 3
def DG_FLAGS_SAFE_IN : Nat := 4
def DG_FLAGS_SAFE_OUT : Nat := 5
def DG_FLAGS_CLR_REF : Nat := 6
def DG_FLAGS_NOTCH : Nat := 7
def DG_FLAGS_NO_NOTCH : Nat := 8
def DG_FLAGS_ISOL : Nat := 9
def DG_FLAGS_TEST_ABORT : Nat := 10

/-! DGB_FLAGS (07_actuator_diagnostics.md R260). -/
def DGB_FLAGS_CH_EVT : Nat := 0
def DGB_FLAGS_NODE_HI : Nat := 1
def DGB_FLAGS_TEST_DONE : Nat := 2
def DGB_FLAGS_TEST_ABORT : Nat := 3

/-! CAP_FLAGS (07_actuator_diagnostics.md R260). -/
def CAP_FLAGS_DONE : Nat := 0
def CAP_FLAGS_ROUND : Nat := 1
def CAP_FLAGS_SKIPPED : Nat := 2

/-! MAP_FLAGS (08_maps_and_storage.md R304). -/
def MAP_FLAGS_TILE_LOADED : Nat := 0
def MAP_FLAGS_TILE_FLUSHED : Nat := 1
def MAP_FLAGS_MISS : Nat := 2
def MAP_FLAGS_COV_DROP : Nat := 3
def MAP_FLAGS_COV_REVERT : Nat := 4
def MAP_FLAGS_TILE_LOST : Nat := 5
def MAP_FLAGS_LATE_GATE : Nat := 6
def MAP_FLAGS_RANGE : Nat := 7
def MAP_FLAGS_CACHE_FULL : Nat := 8
def MAP_FLAGS_FLUSH_FAIL : Nat := 9

/-! NC_FLAGS (08_maps_and_storage.md R307). -/
def NC_FLAGS_MOUNTED : Nat := 0
def NC_FLAGS_REFRESH : Nat := 1
def NC_FLAGS_UNCORR : Nat := 2
def NC_FLAGS_GROWN_BAD : Nat := 3
def NC_FLAGS_PROG_FAIL : Nat := 4
def NC_FLAGS_ERASE_FAIL : Nat := 5
def NC_FLAGS_STATE_CHG : Nat := 6
def NC_FLAGS_PATROL_DONE : Nat := 7
def NC_FLAGS_TARGET_FAIL : Nat := 8
def NC_FLAGS_PWR_CUT : Nat := 9

/-! HP_FLAGS (09_host_interface.md R355). -/
def HP_FLAGS_HCRC : Nat := 0
def HP_FLAGS_DCRC : Nat := 1
def HP_FLAGS_FRAME_CUT : Nat := 2
def HP_FLAGS_BAD_HDR : Nat := 3
def HP_FLAGS_RPT_HIT : Nat := 4
def HP_FLAGS_DOOR_REF : Nat := 5
def HP_FLAGS_LOCKED_WR : Nat := 6
def HP_FLAGS_ABORT_LATE : Nat := 7
def HP_FLAGS_GELOW_DOWN : Nat := 8
def HP_FLAGS_GELOW_UP_IN : Nat := 9
def HP_FLAGS_HEAD_REF : Nat := 10

/-! ADC_FLAGS (12_analogue.md R433). -/
def ADC_FLAGS_DRDY : Nat := 0
def ADC_FLAGS_OVR : Nat := 1
def ADC_FLAGS_RANGE : Nat := 2
def ADC_FLAGS_CFG_ERR : Nat := 3

/-! AS_FLAGS (12_analogue.md R433). -/
def AS_FLAGS_LIMIT : Nat := 0
def AS_FLAGS_LOOP : Nat := 1
def AS_FLAGS_SKIP : Nat := 2
def AS_FLAGS_STOPPED : Nat := 3

/-! CMP_FLAGS (12_analogue.md R434). -/
def CMP_FLAGS_BELOW_IN : Nat := 0
def CMP_FLAGS_INSIDE_IN : Nat := 1
def CMP_FLAGS_ABOVE_IN : Nat := 2
def CMP_FLAGS_CFG_ERR : Nat := 3

/-! SDS_FLAGS (12_analogue.md R434). -/
def SDS_FLAGS_DROP : Nat := 0
def SDS_FLAGS_SHORTP : Nat := 1
def SDS_FLAGS_BLOCKED : Nat := 2
def SDS_FLAGS_OPEN : Nat := 3
def SDS_FLAGS_SHORT_BAT : Nat := 4
def SDS_FLAGS_REV : Nat := 5
def SDS_FLAGS_CFG_ERR : Nat := 6
def SDS_FLAGS_WRONG_SIDE : Nat := 7

/-! FE_FLAGS (13_filigree_and_timers.md R453). -/
def FE_FLAGS_RX_PUSH : Nat := 0
def FE_FLAGS_TX_LOW : Nat := 1
def FE_FLAGS_RX_OVF : Nat := 2
def FE_FLAGS_TX_OVF : Nat := 3
def FE_FLAGS_SIG : Nat := 4
def FE_FLAGS_ILL : Nat := 5

/-! TIM_FLAGS (13_filigree_and_timers.md R461). -/
def TIM_FLAGS_CAP : Nat := 0
def TIM_FLAGS_OVR : Nat := 1
def TIM_FLAGS_CMP : Nat := 2
def TIM_FLAGS_WRAP : Nat := 3

/-! SYS_FLT_FLAGS (14 R493). -/
def SYS_FLT_FLAGS_LINK : Nat := 0
def SYS_FLT_FLAGS_SRAM : Nat := 1
def SYS_FLT_FLAGS_LOCKSTEP : Nat := 2
def SYS_FLT_FLAGS_CRUC : Nat := 3
def SYS_FLT_FLAGS_CLK : Nat := 4

/-! The fields of each block, for word accesses. -/

def fieldsWHL : List Field :=
  [WHL_CFG_MODE, WHL_CFG_REF, WHL_CFG_EDGE, WHL_CFG_ACQ, WHL_CFG_DIR_SRC, WHL_CFG_REALIGN, WHL_CFG_LATCH_FLT, WHL_CFG_MISSING, WHL_TEETH_TEETH, WHL_TEETH_IDX_TOL, WHL_QUAL_MIN_IVL, WHL_QUAL_EFLT_LIM, WHL_TIMEOUT_STOP_TMO, WHL_GAP_GAP_HI, WHL_SRC_INDEX_SRC, WHL_SRC_IDX_EDGE, WHL_SRC_DIR_IN, WHL_SRC_DIR_POL, WHL_SRC_SUP, WHL_SRC_SUP_EN, WHL_SRC_DIR_PW, WHL_FE_FE, WHL_FE_HALL_THR, WHL_FE_PULL] ++
  [WHL_FE_THR_FRAC, WHL_FE_VR_MIN, WHL_FE_FILT, WHL_FE_INV, WHL_FE_AUTO_POL, WHL_FE_DIAG_EN, WHL_STAT_STATE, WHL_STAT_ANGLE_VALID, WHL_STAT_STOP, WHL_STAT_DIR, WHL_STAT_POL_INV, WHL_STAT_LINE, WHL_STAT_EFLT_WIN, WHL_STAT_COND, WHL_FLAGS, WHL_DIRSET_DIR, WHL_CMD_RESYNC, WHL_CMD_FAULT_CLR, WHL_CNT, WHL_ANGLE, WHL_TURN, WHL_EDGE_TB_LO, WHL_EDGE_TB_HI, WHL_SNAP_CNT] ++
  [WHL_SNAP_IVL, WHL_IVL, WHL_IDX_LATCH, WHL_IDX_TB_LO, WHL_IDX_TB_HI, WHL_IDX_DELTA, WHL_DRIFT, WHL_EFLT_CNT, WHL_TCNT_CNT, WHL_QERR_CNT, WHL_MISM_CNT, WHL_VR_PEAK, WHL_DIAG_PIN_MV, WHL_DIAG_PIN_CUR, WHL_IE]
def fieldsMDL : List Field :=
  [MDL_CFG_EN, MDL_CFG_ACC_BW, MDL_CFG_COAST_MS, MDL_STILL_STILL_V, MDL_STILL_STILL_MS, MDL_STILL_STILL_YAW, MDL_STAT_STATE, MDL_STAT_NTRACK, MDL_STAT_BEST, MDL_STAT_YAW_ACT, MDL_STAT_FIELD_OK, MDL_STAT_FIELD_DR, MDL_STAT_POSE_CUR, MDL_FLAGS, MDL_CMD_FIELD_SET, MDL_CMD_LEARN_CLR, MDL_TB_LO, MDL_TB_HI, MDL_S_LO, MDL_S_HI, MDL_V, MDL_A, MDL_YAW, MDL_YAWRATE] ++
  [MDL_E, MDL_N, MDL_POSE_E, MDL_POSE_N, MDL_POSE_HDG, MDL_POSE_SPD, MDL_POSE_TB_LO, MDL_POSE_TB_HI, MDL_POSE_QUAL_SIGMA, MDL_POSE_QUAL_HDG_SIGMA, MDL_POSE_QUAL_HDG_VALID, MDL_POSE_QUAL_SPD_VALID, MDL_POSE_CMD_COMMIT, MDL_POSE_STAT_LAST, MDL_POSE_STAT_BUSY, MDL_POSE_STAT_LOOP, MDL_POSE_CFG_POS_BW, MDL_POSE_CFG_HDG_BW, MDL_POSE_CFG_GATE, MDL_POSE_CFG_REJ_MAX, MDL_POSE_TMO_TMO, MDL_POSE_LOOP_BW, MDL_POSE_LOOP_WEIGHT, MDL_POSE_LOOP_RANK] ++
  [MDL_POSE_REJ_CNT, MDL_POSE_V, MDL_YAW_CFG_PRI, MDL_YAW_CFG_SEC, MDL_YAW_CFG_FE, MDL_YAW_CFG_WL, MDL_YAW_CFG_WR, MDL_YAW_CFG_LAT, MDL_YAW_TRACK_TRACK, MDL_YAW_TRACK_TMO, MDL_YAW_SCALE, MDL_YAW_HOST, MDL_YAW_BIAS, MDL_IE]
def fieldsMDL_DF : List Field :=
  [MDL_DF_CFG_SRC, MDL_DF_CFG_UNIT, MDL_DF_CFG_AIN, MDL_DF_CFG_BW, MDL_DF_CFG_TMO, MDL_DF_SCALE, MDL_DF_OFS, MDL_DF_VAL, MDL_DF_HOST]
def fieldsMDL_SRC : List Field :=
  [MDL_SRC_CFG_EN, MDL_SRC_CFG_TYPE, MDL_SRC_CFG_INPUT, MDL_SRC_CFG_RANK, MDL_SRC_CFG_WEIGHT, MDL_SRC_CFG_LEARN, MDL_SRC_CFG_SIGN, MDL_SRC_CFG_NOCH, MDL_SRC_SCALE, MDL_SRC_LOOP_BW, MDL_SRC_LOOP_GATE, MDL_SRC_LOOP_ACQ_EDGES, MDL_SRC_LOOP_REJ_MAX, MDL_SRC_LOOP_LAT, MDL_SRC_SLIP_THR, MDL_SRC_SLIP_SLIP_MS, MDL_SRC_SLIP_REJOIN_MS, MDL_SRC_LEARN_LIM, MDL_SRC_LEARN_TC, MDL_SRC_STAT_STATE, MDL_SRC_STAT_DIR, MDL_SRC_FLAGS, MDL_SRC_V, MDL_SRC_RATIO] ++
  [MDL_SRC_JIT, MDL_SRC_SCALE_L, MDL_SRC_CNT_CORR, MDL_SRC_CNT_REJ, MDL_SRC_SIGMA]
def fieldsAX : List Field :=
  [AX_CFG_KIND, AX_CFG_SLOT, AX_Y, AX_X, AX_DEFL_DSEL, AX_DEFL_DEN, AX_DEFL_K, AX_STAT_STATE, AX_STAT_DIR, AX_STAT_FIELD_OK, AX_FLAGS, AX_POS_LO, AX_POS_HI, AX_TB_LO, AX_TB_HI, AX_V, AX_A, AX_FE, AX_FN]
def fieldsCH : List Field :=
  [CH_CTL_MODE, CH_AXIS_AX, CH_TOL_TOL, CH_TOL_LATE, CH_ADV_MODE, CH_ADV_SHIFT, CH_ADV_OPEN, CH_ADV_CLOSE, CH_ADV_LIM_MIN, CH_ADV_LIM_MAX, CH_ADV_USED, CH_BIDIR_HYS, CH_BIDIR_SPAN, CH_STAT_OUT, CH_STAT_INH, CH_STAT_HEAD_VALID, CH_STAT_PEND, CH_STAT_STAND, CH_STAT_INH_C, CH_FLAGS, CH_HEAD_TB_LO, CH_HEAD_TB_HI, CH_HEAD_F_LO, CH_HEAD_F_HI] ++
  [CH_HEAD_H, CH_ARM_T_LO, CH_ARM_T_HI, CH_ARM_P_KIND, CH_ARM_P_NOADV, CH_ARM_P_BIDIR, CH_ARM_P_WIDTH, CH_ARM_DL_LO, CH_ARM_DL_HI, CH_ARM_CMD_ARM, CH_ARM_CMD_CANCEL, CH_ARM_CMD_CANCEL_ALL, CH_ARM_CMD_HANDLE, CH_ARM_RES_HANDLE, CH_ARM_RES_CODE, CH_LAST_O_HANDLE, CH_LAST_O_OUTCOME, CH_LAST_O_CAUSE, CH_LAST_O_OWNER, CH_LAST_O_JOUR, CH_LAST_LAT, CH_LAST_TB_LO, CH_LAST_TB_HI, CH_CNT_A_EXEC] ++
  [CH_CNT_A_LATE, CH_CNT_B_MISS, CH_CNT_B_OVR, CH_POOL_FREE, CH_POOL_LOW, CH_SLOT_SEL_IDX, CH_SLOT_INFO_HANDLE, CH_SLOT_INFO_KIND, CH_SLOT_INFO_STANDING, CH_SLOT_INFO_OWNER, CH_SLOT_INFO_JOUR, CH_SLOT_INFO_RESV, CH_SLOT_INFO_VALID, CH_SLOT_T_LO, CH_SLOT_T_HI, TR_CFG_FMAX, TR_CFG_PRX, TR_PITCH, TR_WIDTH, TR_PHASE, TR_LEN, TR_CMD_UPD, TR_STAT_RUN, TR_STAT_PEND] ++
  [TR_STAT_SAT, TR_STAT_PAUSE, TR_FLAGS, TR_RUN_PITCH, TR_RUN_WIDTH, TR_NEXT_LO, TR_NEXT_HI, TR_PULSES, TR_SKIP_CNT_SKIP, TR_SKIP_CNT_SAT, LAT_CFG_EN, LAT_CFG_TYPE, LAT_CFG_OUTSEL, LAT_CFG_GATE, LAT_CFG_NOSDS, LAT_CFG_LEARN, LAT_CFG_TRIM, LAT_CFG_FREE, LAT_CFG_CELLS, LAT_CFG_WHL, LAT_CFG_SDS, LAT_E0, LAT_N0, LAT_BRG] ++
  [LAT_PITCH_A, LAT_PITCH_B, LAT_ALIGN_ALIGN, LAT_ALIGN_LINE_TOL, LAT_ALIGN_VMIN, LAT_LOOP_BW, LAT_LOOP_SLEW, LAT_LOOP_LOCK_THR, LAT_LOOP_LOCK_N, LAT_OUT_UNIT, LAT_OUT_CARRIER, LAT_OSCALE, LAT_OOFS, LAT_CELL_OFS, LAT_TUBE_T0, LAT_FALL, LAT_LEARN_TSHIFT, LAT_LEARN_PSHIFT, LAT_LEARN_TLIM, LAT_CMD_TUBE_CLR, LAT_CMD_TRIM_CLR, LAT_STAT_STATE, LAT_STAT_REF, LAT_STAT_DR] ++
  [LAT_STAT_SAT, LAT_STAT_ODD, LAT_STAT_ALIGNED, LAT_FLAGS, LAT_ERR, LAT_LINE, LAT_C, LAT_TUBE_L, LAT_TRIM, LAT_DROP_ERR, LAT_SPREAD, LAT_SEEDS, LAT_SKIP_CNT_SKIP, LAT_SKIP_CNT_DBL, CH_DRV_CFG_PROFILE, CH_DRV_CFG_BST_EN, CH_DRV_CFG_PK_NOTCH, CH_DRV_CFG_STEP_BP, CH_DRV_CFG_STEP_PH, CH_DRV_CFG_OFF_DECAY, CH_DRV_CFG_CHOP_FAST, CH_DRV_CFG_BLANK, CH_DRV_CFG_MAXON, CH_DRV_BST_I_BST] ++
  [CH_DRV_BST_T_BST, CH_DRV_PK_PK_LO, CH_DRV_PK_PK_HI, CH_DRV_PKT_T_PK, CH_DRV_HD_HD_LO, CH_DRV_HD_HD_HI, CH_DRV_FLOOR_FLOOR, CH_DRV_PLAIN_LIM, CH_DRV_STAT_PHASE, CH_DRV_STAT_LS, CH_DRV_STAT_FW, CH_DRV_STAT_HSB_OWN, CH_DRV_STAT_THERM_OFF, CH_DRV_STAT_DUTY_LIM, CH_DRV_STAT_TRIM, CH_DRV_FLAGS, CH_DRV_I_NOW, CH_DRV_I_RMS, CH_DRV_HD_EFF_LO_EFF, CH_DRV_HD_EFF_HI_EFF, CH_DRV_TJ, CH_DRV_DUTY, CH_DRV_LAST_WAIT, CH_DRV_LAST_BST] ++
  [CH_DRV_ACT, CH_DRV_DENY, CH_IE, CH_DRV_IE]
def fieldsBK : List Field :=
  [BK_CTL_EN, BK_CTL_DEFER, BK_LIM0_BV_MAX, BK_LIM0_IPK_MAX, BK_LIM0_DUTY_MAX, BK_LIM1_TBST_MAX, BK_STAT_HSB, BK_STAT_HSS, BK_STAT_HOLDER, BK_STAT_WAITING, BK_STAT_DECAY, BK_STAT_UV, BK_STAT_LOST, BK_V_VBK, BK_V_NODE, BK_I, BK_PWR, BK_CNT_GRANTS, BK_CNT_DENIES, BK_FLAGS, BK_IE]
def fieldsBST : List Field :=
  [BST_CTL_EN, BST_CTL_VB_SET, BST_CTL_FREQ, BST_CTL_ILIM, BST_MARG_RDY, BST_MARG_CL_OFS, BST_STAT_STATE, BST_STAT_READY, BST_STAT_CLAMP, BST_STAT_OV, BST_FLAGS, BST_IE, BST_V, BST_RCHG, BST_DROOP_DROOP, BST_DROOP_STEP, BST_EOUT, BST_CLAMP_E, BST_ERET]
def fieldsPWR : List Field :=
  [PWR_CTL_BUDGET, PWR_CTL_TRIM_STEP, PWR_CTL_TJ_WARN, PWR_STAT_P_EST, PWR_STAT_TRIM, PWR_STAT_FLOOR, PWR_FLAGS, PWR_IE, PWR_TMAX_TJ, PWR_TMAX_CH]
def fieldsDG : List Field :=
  [DG_CFG_OFF_EN, DG_CFG_ON_EN, DG_CFG_OL_SAFE, DG_CFG_SG_BANK, DG_CFG_RETRY, DG_CFG_OFF_PER, DG_ON0_I_FAST, DG_ON0_T_FAST, DG_ON1_I_NORISE, DG_ON1_T_NORISE, DG_NOTCH_T_MIN, DG_NOTCH_T_MAX, DG_NOTCH_DROP, DG_STAT_STATE, DG_STAT_OFF_RES, DG_STAT_COND, DG_FLAGS, DG_IE, DG_CMD_CLR, DG_CMD_TEST, DG_NOTCH_T_M, DG_NOTCH_T_MEAS, DG_NOTCH_TB_LO, DG_NOTCH_TB_HI] ++
  [DG_NODE, DG_CNT_NO_NOTCH, DG_CNT_TRIPS, DG_WEAR0_W, DG_WEAR0_WSTATE, DG_WEAR0_NREM, DG_WEAR1_MU, DG_WEAR1_SIGMA, DG_WEAR2_MU0, DG_WEAR2_EOL_DAYS]
def fieldsDGB : List Field :=
  [DGB_CFG_SB_EN, DGB_CFG_PER, DGB_STAT_BUSY, DGB_STAT_NODE_HI, DGB_STAT_SB_CH, DGB_FLAGS, DGB_IE, DGB_CMD_TEST]
def fieldsCAP : List Field :=
  [CAP_CFG_EN, CAP_CFG_LANES, CAP_CFG_DEC, CAP_STAT_NEXT, CAP_FLAGS, CAP_IE, CAP_CMD_CH, CAP_CMD_REQ, CAP_CMD_REL]
def fieldsCAPL : List Field :=
  [CAP_L_CH, CAP_L_CH_LSTATE, CAP_L_TB_LO, CAP_L_TB_HI, CAP_L_NOTCH]
def fieldsBCAP : List Field :=
  [BCAP_CFG_C_NODE, BCAP_ESR_ESR, BCAP_ESR_BASE, BCAP_C, BCAP_EOL]
def fieldsMAP : List Field :=
  [MAP_CFG_EN, MAP_CFG_UNK, MAP_CFG_NOFIELD, MAP_CFG_FLUSH_S, MAP_CFG_LOOK, MAP_STAT_ACTIVE, MAP_STAT_FIELD, MAP_STAT_DR, MAP_STAT_CT_USED, MAP_STAT_PT_USED, MAP_STAT_REQ_MISS, MAP_FLAGS, MAP_IE, MAP_DEF_DEF_RATE, MAP_CNT_MISS, MAP_CNT_COV_DROP, MAP_SCAN_TB_LO, MAP_SCAN_TB_HI, MAP_CNT2_COV_REVERT, MAP_CNT2_LATE_GATE]
def fieldsMAPCH : List Field :=
  [MAP_CH_CFG_GATE_EN, MAP_CH_CFG_WB_EN, MAP_CH_CFG_PRX_EN, MAP_CH_CFG_OVL_N, MAP_CH_CFG_WSCALE, MAP_CH_CFG_SWATH, MAP_CH_STAT_GATE, MAP_CH_STAT_OWN_ON, MAP_CH_STAT_STROKE, MAP_CH_STAT_QN, MAP_CH_STAT_RATE, MAP_CH_STAT_COVN, MAP_CH_STAT_EXCL, MAP_CH_CNT_GATED, MAP_CH_CNT_CLOSES, MAP_CH_AREA]
def fieldsRATE : List Field :=
  [MAP_RATE_WIDTH, MAP_RATE_OFF]
def fieldsCT : List Field :=
  [MAP_CT_POS_TE, MAP_CT_POS_TN, MAP_CT_STAT_STATE, MAP_CT_STAT_REQ, MAP_CT_STAT_VER]
def fieldsNC : List Field :=
  [NC_CFG_EN, NC_CFG_MIRROR, NC_CFG_T1_EN, NC_CFG_TMODE, NC_CFG_REFRESH_THR, NC_CFG_WL_DELTA, NC_STAT_MSTATE, NC_STAT_BUSY, NC_STAT_T0_OK, NC_STAT_T1_OK, NC_FLAGS, NC_IE, NC_GEOM_PAGE, NC_GEOM_PPB, NC_GEOM2_BLOCKS, NC_BLK_GOOD, NC_SPARE, NC_EC_MAX, NC_EC_MEAN, NC_ENDUR, NC_ECC_MAXC_ROUND, NC_ECC_MAXC_ALL, NC_CNT_REFRESH, NC_CNT_UNCORR] ++
  [NC_PATROL_HOURS, NC_PATROL_RD_LIM, NC_PROG_ROUND, NC_EOL_EOL_DAYS, NC_EOL_USED, NC_WRITES]
def fieldsMB : List Field :=
  [MB_STATUS_PROGRESS, MB_STATUS_SEQ, MB_STATUS_REASON, MB_STATUS_STATE, MB_DOOR_SEQ, MB_CTL_ABORT, MB_CTL_NEXT, MB_CHUNK_INDEX, MB_CHUNK_LEN, MB_CHUNK_LAST, MB_INFO_RESP_RD, MB_INFO_HELD, MB_INFO_UP_WAIT, MB_INFO_DOOR_RES]
def fieldsHP : List Field :=
  [HP_CFG_IRQ_POL, HP_CFG_NOTIFY, HP_STAT_GELOW_UP, HP_STAT_QNE, HP_STAT_UP_BUSY, HP_STAT_UP_TAKEN, HP_STAT_UP_MB, HP_FLAGS, HP_IE, HP_CNT_CRC, HP_CNT_CUT, HP_SYNC_TB_LO, HP_SYNC_TB_HI, HP_Q_HEAD, HP_Q_TAIL, HP_UP_LEN]
def fieldsISRC : List Field :=
  [INT_SRC_URG, INT_SRC_TIE, INT_SRC_TGT, INT_SRC_LVL, INT_SRC_PEND, INT_SRC_ACT, INT_SRC_ASSERT]
def fieldsIGRP : List Field :=
  [INT_GRP_HOLD, INT_GRP_HO_TGT, INT_GRP_RUN]
def fieldsITGT : List Field :=
  [INT_TCTL_GEN, INT_TCTL_NOPRE, INT_TSTAT_ACTIVE, INT_TSTAT_NEST, INT_TSTAT_RUNURG, INT_TSTAT_RUNTIE, INT_TSTAT_QFULL, INT_PSUM, INT_QOVF_CNT]
def fieldsINT : List Field :=
  [INT_SWSET_SRC, INT_CLRPEND_SRC, INT_CLRPEND_TGT, INT_WAKE_SRC_SRC, INT_WAKE_SRC_VALID]
def fieldsIWAKE : List Field :=
  [INT_WAKE]
def fieldsADC : List Field :=
  [ADC_CTL_MODE, ADC_CTL_RATE, ADC_CTL_ALIGN, ADC_CTL_PAIR, ADC_SEL_INPUT, ADC_CMD_START, ADC_STAT_BUSY, ADC_STAT_SETTLE, ADC_STAT_NEW, ADC_STAT_PAIRED, ADC_FLAGS, ADC_IE, ADC_RES, ADC_RES_INFO_INPUT, ADC_RES_INFO_UNIT, ADC_RES_INFO_CLIP, ADC_RES_TB_LO, ADC_RES_TB_HI, ADC_PAIR_OFS]
def fieldsAS : List Field :=
  [AS_CTL_EN, AS_CTL_STOP_LIM, AS_STAT_RUN, AS_STAT_ENTRY, AS_STAT_LIM_ENT, AS_STAT_LOOPS, AS_FLAGS, AS_IE]
def fieldsASE : List Field :=
  [AS_E0_INPUT, AS_E0_UNIT, AS_E0_RATE, AS_E0_PULL, AS_E0_LAST, AS_E0_EN, AS_E1_DELAY, AS_E1_REPEAT, AS_E2_LIM_LO, AS_E3_LIM_HI]
def fieldsASRES : List Field :=
  [AS_RES]
def fieldsCMP : List Field :=
  [CMP_CFG_EN, CMP_CFG_AIN, CMP_CFG_INIT, CMP_CFG_HYS, CMP_CFG_FILT, CMP_CFG_AON, CMP_THR_LO, CMP_THR_HI, CMP_STAT_STATE, CMP_STAT_VALID, CMP_FLAGS, CMP_IE, CMP_TB_LO, CMP_TB_HI, CMP_CNT]
def fieldsSDS : List Field :=
  [SDS_CFG_EN, SDS_CFG_POL, SDS_CFG_HYS, SDS_CFG_PULL, SDS_CFG_DIAG_EN, SDS_CFG_INIT, SDS_CFG_FILT, SDS_THR_LO, SDS_THR_HI, SDS_WID_W_MIN, SDS_WID_W_MAX, SDS_STAT_STATE, SDS_STAT_VALID, SDS_STAT_COND, SDS_FLAGS, SDS_IE, SDS_DROP_TB_LO, SDS_DROP_TB_HI, SDS_DROP_W, SDS_DROPS, SDS_CNT_SHORTP, SDS_CNT_BLOCKED]
def fieldsSDSG : List Field :=
  [SDSG_FLAGS, SDSG_IE]
def fieldsAIN : List Field :=
  [AIN_CFG_PULL]
def fieldsFE : List Field :=
  [FE_CTL_EN, FE_CLKDIV_FRAC, FE_CLKDIV_INT, FE_EXEC_ENTRY, FE_EXEC_LOOP, FE_LANE_DIR, FE_LANE_AUTO, FE_LANE_ASTORE, FE_LANE_ALOAD, FE_LANE_FRAME, FE_LANE_RX_OVW, FE_LANE_TX_THR, FE_PINS_IN_BASE, FE_PINS_OUT_BASE, FE_PINS_OUT_N, FE_PINS_SET_BASE, FE_PINS_SET_N, FE_PAT_BASE, FE_PAT_N, FE_TX, FE_RX, FE_STAT_PC, FE_STAT_STALL, FE_STAT_CAUSE] ++
  [FE_STAT_TX_LVL, FE_STAT_RX_LVL, FE_STAT_BC, FE_FLAGS, FE_IE, FE_A, FE_B, FE_PATTAB, FE_SIGSEL_SIG0, FE_SIGSEL_SIG1, FE_SIGSEL_SIG2, FE_SIGSEL_SIG3, FE_SR]
def fieldsFEPROG : List Field :=
  [FE_PROG]
def fieldsFIO : List Field :=
  [FIO_CFG_SRC, FIO_CFG_UNIT, FIO_CFG_OD, FIO_CFG_PULL, FIO_CFG_LEVEL]
def fieldsFG : List Field :=
  [FG_FLAGS]
def fieldsFESYNC : List Field :=
  [FE_SYNC_MASK, FE_SYNC_CMD]
def fieldsTIM : List Field :=
  [TIM_CTL_EN, TIM_CTL_MODE, TIM_CTL_CLK, TIM_CTL_PRESC, TIM_CTL_DBG_FRZ, TIM_CTL_OUTM, TIM_CTL_AON, TIM_SRC_CAP_SEL, TIM_SRC_CAP_EDGE, TIM_SRC_CNT_SEL, TIM_SRC_CNT_EDGE, TIM_CNT, TIM_PER, TIM_CMP, TIM_CAP, TIM_CAP_TB_LO, TIM_CAP_TB_HI, TIM_STAT_NEW, TIM_STAT_RUN, TIM_STAT_FROZEN, TIM_STAT_OUT, TIM_FLAGS, TIM_IE]
def fieldsSYS : List Field :=
  [SYS_ID_REV, SYS_ID_PART, CLK_CFG_XTAL_EN, CLK_CFG_XTAL_EXT, CLK_CFG_PLLA_EN, CLK_CFG_HOLD_EN, CLK_STAT_XTAL_OK, CLK_STAT_PLLA_LOCK, CLK_STAT_PLLB_LOCK, CLK_STAT_HOLDOVER, CLK_STAT_TRIM, CLK_SEL0, CLK_SEL1, CLK_SWBUSY, CLK_ISL_FLT, CLK_STOPPED, CLK_AUTO, CLK_TRIM_REF, CLK_TRIM_SHIFT, CLK_TRIM_SYNC_IVL, CLK_TRIM_ERR, CLK_CORR, CLK_GATE0, CLK_GATE1] ++
  [RST_ISL, RST_CAUSE, RST_LAST_ISL, RST_LAST_AUTO, RST_CFG_CL_RETRY, WDT_V_TMO, WDT_V_KICK, WDT_C_KICK, SYS_SLEEP_REQ, SYS_SLEEP_WAKE, SYS_SLEEP_REF, BOOT_STAT_STAGE, BOOT_STAT_ERR, BOOT_STAT_FALLBACK, BOOT_RCV_LEN, BOOT_RCV_GO, SYS_FLT_FLAGS, SYS_FLT_IE, SYS_PAR_ADDR_ADDR, SYS_PAR_ADDR_TCM, SYS_CRUC_ADDR, SYS_VRST_CNT, FAB_STAT0, FAB_STAT1] ++
  [SUPM_STAT, SUPM_FLAGS, SUPM_IE, SUP_CTL_EN, SUP_STAT_FLT, SUP_FLAGS, SUP_IE]
def fieldsFABC : List Field :=
  [FAB_CNT]
def fieldsPCH : List Field :=
  [PROT_CH_OWN]
def fieldsPAX : List Field :=
  [PROT_AX_OWN]
def fieldsPROT : List Field :=
  [PROT_ROLE_GEOM, PROT_ROLE_POSE, PROT_ROLE_DRIVE, PROT_ROLE_SYSTEM, PROT_DW, PROT_SHR_A, PROT_SHR_B, PROT_WDTC_TMO, PROT_DBG_C, PROT_DBG_V, PROT_SEAL_SEAL, KEY_PROG_SLOT, KEY_PROG_GO, KEY_PROG_REVOKE, KEY_STAT_PROG, KEY_STAT_REV, KEY_STAT_LIFE, KEY_STAT_BUSY, KEY_STAT_PERR]
def fieldsPBANK : List Field :=
  [PROT_BANK_BV_MAX, PROT_BANK_IPK_MAX, PROT_BANK_DUTY_MAX, PROT_BANK_TBST_MAX]
def fieldsPMPU : List Field :=
  [PROT_MPU_BASE, PROT_MPU_SIZE, PROT_MPU_R, PROT_MPU_W, PROT_MPU_X, PROT_MPU_EN]
def fieldsKHASH : List Field :=
  [KEY_HASH]
def fieldsKDATA : List Field :=
  [KEY_DATA]
def fieldsPT : List Field :=
  [MAP_PT_POS_TE, MAP_PT_POS_TN, MAP_PT_STAT_STATE, MAP_PT_STAT_REQ, MAP_PT_STAT_VER]

end Sys2Proof.Machine
end

