-- ==== Sys2Proof/Machine/Tab.lean ====
section
/-! DEFINITION. Tables: plain data keyed by a number, sorted by key with no repeats; a key that is not listed reads as the given default. -/

namespace Sys2Proof.Machine

/-- A table from numbers to values, keys strictly rising. -/
abbrev Tab (α : Type) := List (Nat × α)

/-- The value at a key, or the default. -/
def tabGet {α : Type} (t : Tab α) (k : Nat) (d : α) : α :=
  match t with
  | [] => d
  | (j, v) :: r => if j = k then v else tabGet r k d

/-- The value at a key, where the key is listed. -/
def tabFind {α : Type} (t : Tab α) (k : Nat) : Option α :=
  match t with
  | [] => none
  | (j, v) :: r => if j = k then some v else tabFind r k

/-- The table with one key set. -/
def tabPut {α : Type} (t : Tab α) (k : Nat) (v : α) : Tab α :=
  match t with
  | [] => [(k, v)]
  | (j, w) :: r =>
    if k < j then (k, v) :: (j, w) :: r
    else if k = j then (k, v) :: r
    else (j, w) :: tabPut r k v

/-- The table without the keys that a test picks. -/
def tabDrop {α : Type} (t : Tab α) (p : Nat → Bool) : Tab α :=
  match t with
  | [] => []
  | (j, w) :: r => if p j then tabDrop r p else (j, w) :: tabDrop r p

/-- An element placed before the first element it may stand before. -/
def insertBy {α : Type} (le : α → α → Bool) (x : α) (l : List α) : List α :=
  match l with
  | [] => [x]
  | y :: r => if le x y then x :: y :: r else y :: insertBy le x r

/-- A list in the order of a test. -/
def sortBy {α : Type} (le : α → α → Bool) (l : List α) : List α :=
  match l with
  | [] => []
  | x :: r => insertBy le x (sortBy le r)

/-- Every key is greater than the bound, and the keys rise strictly. -/
def tabRising {α : Type} (lo : Nat) (t : Tab α) : Bool :=
  match t with
  | [] => true
  | (j, _) :: r => decide (lo ≤ j) && tabRising (j + 1) r

/-- The canonical form of a table. -/
def tabWf {α : Type} (t : Tab α) : Bool := tabRising 0 t

end Sys2Proof.Machine
end

