-- ==== Sys2Proof/Machine/State.lean ====
section
/-! DEFINITION. The state of the FJ192: the register file, byte memory, the state the rules name beside the registers, and the queue of
waiting commands. Every part is plain data. A field of a structure has the value it has after a module reset as its default. -/

namespace Sys2Proof.Machine

/-- An island of R464 (index 0-17). -/
structure Island where
  /-- The replica shows TB + 1 where true (R21: replicas differ by at most 1 TB). -/
  skew : Bool := false
  /-- The TB at which the island's reset ends, while it is in reset (R473). -/
  resetEnd : Option Nat := none
  /-- The TB of the present clock switch and the select value before it (R465). -/
  switchAt : Option (Nat × Nat) := none
  /-- A switch timed out and only a reset recovers the island (R467). -/
  hung : Bool := false
  /-- The TB of the stop, while the clock shows no edge (R468). -/
  stoppedAt : Option Nat := none
  /-- A cluster's safe state and the TB of its entry (R27); a reset of the axis island put it there (R375). -/
  safeSince : Option Nat := none
  byAxis : Bool := false
  /-- Resets by Gelow since the module reset (R475). -/
  retries : Nat := 0
deriving DecidableEq, Repr

/-- An accumulator of a host port (R398): empty while cnt = 0. -/
structure Accum where
  cnt : Nat := 0
  tb : Nat := 0
  ovf : Bool := false
  data : Nat := 0
deriving DecidableEq, Repr

/-- What an entry saves (R392): ra, t0-t6, a0-a7, mepc and mstatus, and the source whose handler the frame serves. -/
structure Frame where
  words : List Nat
  src : Nat
deriving DecidableEq, Repr

/-- An Anvil core as the interrupt controller and the traps see it (R391-R394, R42, R35); mode 3 is machine mode, 0 user mode. -/
structure CoreSt where
  /-- ra, t0-t6, a0-a7: the sixteen registers an entry saves. -/
  gpr : List Nat := List.replicate 16 0
  pc : Nat := 0
  mode : Nat := 3
  mepc : Nat := 0
  mstatus : Nat := 0
  mtvec : Nat := 0
  mcause : Nat := 0
  mtval : Nat := 0
  /-- Frames in use, newest first (R392). -/
  frames : List Frame := []
  /-- The core runs code (Anvil-C stays halted after a failed image check, R477). -/
  running : Bool := false
  /-- A debugger holds the core (R459, R491). -/
  halted : Bool := false
deriving DecidableEq, Repr

/-- What a reference has changed, kept for the rest of its cycle: a RESYNC of that cycle acts before it (R74). -/
structure RefUndo where
  /-- The cycle, the reference count and the TB of the reference; it was an index reference. -/
  tb : Nat
  count : Nat
  at_ : Nat
  index : Bool
  /-- The registers before: STATE, ANGLE_VALID, WHL_IDX_LATCH, WHL_IDX_DELTA, WHL_DRIFT, WHL_ANGLE, WHL_TURN, WHL_FLAGS, WHL_TCNT_CNT,
  WHL_MISM_CNT. -/
  regs : List Nat
  refCnt : Nat
  acqRef : Nat
  prevRef : Option Nat
  mismRef : Option Nat
  missing : Nat
  chk : Int
  idxTb : Nat
  idxMark : Bool
  tcntMark : Bool
deriving DecidableEq, Repr

/-- A wheel input beside its registers (02 R44-R79). -/
structure Wheel where
  /-- R45: armed, and the previous positive peak in 10 mV steps. -/
  armed : Bool := false
  peak : Nat := 0
  /-- R46: consecutive teeth with the steeper slope on the other crossing; the last 16 had it so, and the polarity is not inverted. -/
  steep : Nat := 0
  revSlope : Bool := false
  /-- R50: per row of its table evaluations present and absent in a row, and whether the row's condition stands. -/
  present : List Nat := [0, 0, 0, 0, 0, 0, 0, 0]
  absent : List Nat := [0, 0, 0, 0, 0, 0, 0, 0]
  stands : List Bool := [false, false, false, false, false, false, false, false]
  /-- R50: what the last pull test found: the line followed both. -/
  pullOpen : Bool := false
  /-- R52: TB at which a fault condition was last present. -/
  condTb : Option Nat := none
  /-- R57: qualified edges in the window; a NOISE fault stands. -/
  winEdges : Nat := 0
  noise : Bool := false
  /-- R56: TB of the last qualified edge on this line; for a quadrature pair, of line B too. -/
  lastTb : Option Nat := none
  lastTbB : Option Nat := none
  /-- R59: why the next qualified edge ends a start interval; the enabling one. -/
  startNext : Bool := false
  firstNext : Bool := false
  /-- R58: TB from which the stop timeout runs. -/
  idleFrom : Nat := 0
  /-- R59, R67: the previous interval, and whether the last and the one before it were start intervals. -/
  prevIvl : Nat := 0
  lastStart : Bool := true
  /-- R65: REF_CNT, and the acquisition frame of R70. -/
  refCnt : Nat := 0
  acqRef : Nat := 0
  /-- R69: the reference before, where there is one; R72: the mismatching reference. -/
  prevRef : Option Nat := none
  mismRef : Option Nat := none
  /-- R72: missing references since the entry into SUSPECT. -/
  missing : Nat := 0
  /-- R71: the count from which the next expected reference is looked for. -/
  chk : Int := 0
  /-- R69, R77: TB of the last reference. -/
  idxTb : Nat := 0
  /-- TB of the last qualified edge as EDGE_TB gives it, and the count after it (R77). -/
  edgeTb : Nat := 0
  edgeCnt : Nat := 0
  /-- R66: interpolation term in fraction steps (signed). -/
  interp : Int := 0
  /-- R68: TB of the latest qualified edges and the count after each, newest first. -/
  counts : List (Nat × Nat) := []
  /-- R68: an index edge at this TB waits until every tooth edge of an earlier or the same TB has passed its filter. -/
  idxPend : Option Nat := none
  /-- R62: an edge at this TB waits until the direction line's level at that TB is known. -/
  dirPend : Option Nat := none
  /-- R76: an index reference, and a TCNT_ERR, since the last edge record. -/
  idxMark : Bool := false
  tcntMark : Bool := false
  /-- R47, R48: the comparator before the inversion; the filtered line, and its latest changes, newest first. -/
  comp : Bool := false
  line : Bool := false
  past : List (Nat × Bool) := []
  /-- R63: TB of the leading transition of a direction pulse in progress. -/
  leadTb : Option Nat := none
  /-- R54: the values in use of QUAL, GAP and SRC, where the next qualified edge does not take the register itself. -/
  minIvl : Nat := 0
  efltLim : Nat := 0
  gapHi : Nat := 24
  indexSrc : Nat := 0
  idxEdge : Nat := 0
  sup : Nat := 0
  supEn : Bool := false
  /-- R74: the reference of the present cycle. -/
  undo : Option RefUndo := none
deriving DecidableEq, Repr

/-- An edge or stop record to Mandrel, or a filigree word (R76, R83). -/
structure EdgeRec where
  /-- The wheel input, or the engine of a word. -/
  input : Nat
  tb : Nat
  /-- The signed change of count, or the signed value of a filigree word. -/
  dcnt : Int
  /-- Travel is reverse. -/
  rev : Bool
  start : Bool
  stop : Bool
  gapRef : Bool
  idxRef : Bool
  tcntErr : Bool
  state : Nat
deriving DecidableEq, Repr

/-- A distance slot, or the pose loop, beside its registers (03 R83-R95). Positions in pu and speeds in pu/s with 32 fraction bits. -/
structure Slot where
  /-- M_k, s-hat, v-hat. -/
  meas : Int := 0
  s : Int := 0
  v : Int := 0
  /-- s-hat at the last prediction tick, and its increment over that tick (R96). -/
  sTick : Int := 0
  inc : Int := 0
  /-- R94: the learned scale as MDL_SRC_SCALE_L shows it, with 32 more fraction bits. -/
  learned : Int := 0
  /-- TB of the last accepted measurement, where there is one. -/
  lastTb : Option Nat := none
  /-- Accepted measurements in a row toward TRACK (R91). -/
  accepted : Nat := 0
  /-- R90: the next measurement is a start edge; the next after it sets the first speed. -/
  startPend : Bool := true
  speedPend : Bool := false
  /-- R89: rejections in a row. -/
  rejects : Nat := 0
  /-- R92: failing evaluations in a row; R91: passing evaluations in a row. -/
  fails : Nat := 0
  passes : Nat := 0
  /-- MDL_SRC_SLIP and MDL_SRC_LEARN as they act since a prediction tick (R84). -/
  slipThr : Nat := 0
  slipMs : Nat := 0
  rejoinMs : Nat := 0
  learnLim : Nat := 0
  learnTc : Nat := 0
  /-- R85: TB of the last word. -/
  wordTb : Nat := 0
  /-- R95: e / v-hat in 1/256 of 0.1 us of the last 64 accepted measurements, newest first, and the last interval in TB. -/
  jitter : List Int := []
  ivl : Nat := 0
  /-- Records and words that wait, oldest first (R83). -/
  inbox : List EdgeRec := []
deriving DecidableEq, Repr

/-- An entry of Mandrel's history (R100). -/
structure HistEntry where
  tb : Nat
  s : Int
  sP : Int
  psi : Int
  e : Int
  n : Int
deriving DecidableEq, Repr

/-- A pose as copied at its commit (R102). -/
structure Pose where
  e : Int
  n : Int
  hdg : Nat
  spd : Int
  tb : Nat
  sigma : Nat
  hdgValid : Bool
  spdValid : Bool
deriving DecidableEq, Repr

/-- A yaw-rate source (R107, R108): its last rate in urad/s with 32 fraction bits, and the TB of its delivery. -/
structure YawSrc where
  rate : Int := 0
  tb : Option Nat := none
deriving DecidableEq, Repr

/-- A deflection input (R110, R111): the latest converted value, and d and its rate in pu, pu/s with 32 fraction bits. -/
structure Defl where
  target : Int := 0
  d : Int := 0
  rate : Int := 0
  /-- d at the last prediction tick but one, for the increments of R113. -/
  dTick : Int := 0
  tb : Option Nat := none
  lost : Bool := false
  /-- Raw values that wait, oldest first. -/
  inbox : List Int := []
deriving DecidableEq, Repr

/-- What an axis publishes at a prediction tick (R116, R118, R120): its position is a 40-bit integer part and a 16-bit fraction. -/
structure AxisPub where
  pos : Nat := 0
  v : Int := 0
  a : Int := 0
  fe : Int := 0
  fn : Int := 0
deriving DecidableEq, Repr

/-- An axis that is not off (R112-R118): as published at the latest tick, and at the tick before (R120). -/
structure Axis where
  pos : Nat := 0
  v : Int := 0
  a : Int := 0
  fe : Int := 0
  fn : Int := 0
  old : AxisPub := {}
  /-- R165: the axis has been turned off since the latest tick; the acceptance order of the events that this ends. -/
  offOrder : Option Nat := none
deriving DecidableEq, Repr

/-- The chassis state that Mandrel publishes at a prediction tick (R82); e and n read 0 without a field position. -/
structure ChassisPub where
  tb : Nat := 0
  s : Int := 0
  v : Int := 0
  a : Int := 0
  psi : Nat := 0
  rate : Int := 0
  e : Int := 0
  n : Int := 0
deriving DecidableEq, Repr

/-- Mandrel (03 R81-R124). Lengths in pu, field positions in mm, yaw in 1/2^32 turn, yaw rates in urad/s, all with 32 fraction bits. -/
structure Mandrel where
  /-- DS0-DS7, and the pose loop under key 8. -/
  slots : Tab Slot := []
  /-- s_c, v_c, a_c. -/
  s : Int := 0
  v : Int := 0
  a : Int := 0
  /-- The chassis increment and the yaw change of the last tick; the yaw change in urad/s times us, with 32 fraction bits. -/
  ds : Int := 0
  dpsi : Int := 0
  /-- R109: of the samples since the last tick, the sum of the changes of rate, and that of the changes times the TB of the sample. -/
  rateAcc : Int := 0
  rateTbAcc : Int := 0
  /-- Counts accepted in STILL since the last tick (R99). -/
  stillAcc : Int := 0
  /-- psi (unwrapped), omega of the active source, the filtered derivative of omega, the bias b. -/
  psi : Int := 0
  omega : Int := 0
  alpha : Int := 0
  bias : Int := 0
  /-- E_c, N_c and the rest of a field correction (R103). -/
  e : Int := 0
  n : Int := 0
  corrE : Int := 0
  corrN : Int := 0
  /-- TB of the latest prediction tick; what it published, and what the tick before it published (R82, R120). -/
  tickTb : Nat := 0
  pub : ChassisPub := {}
  pubOld : ChassisPub := {}
  /-- R99: TB since which abs(v_c) has been below STILL_V; the still timer has run out. -/
  lowSince : Option Nat := none
  lowHeld : Bool := false
  /-- R99: a slot of the active set entered TRACK from STOPPED since the last tick. -/
  pulled : Bool := false
  /-- R98: TB of the entry into COAST. -/
  coastAt : Nat := 0
  /-- R98: set 1 slots in TRACK at the last tick, for SINGLE. -/
  ntrack1 : Nat := 0
  /-- History, newest first (R100). -/
  hist : List HistEntry := []
  /-- R102: the pose in process; the last accepted pose; TB of its acceptance. -/
  pose : Option Pose := none
  last : Option Pose := none
  lastHdg : Option (Nat × Nat) := none
  acceptTb : Nat := 0
  /-- R103: rejections in a row, FIELD_SET pending, no pose yet since enable. -/
  poseRejects : Nat := 0
  fieldSet : Bool := false
  firstPose : Bool := true
  /-- Yaw sources by code (R107). -/
  yaw : Tab YawSrc := []
  /-- Deflection inputs. -/
  defl : Tab Defl := []
deriving DecidableEq, Repr

/-- Where a slot of the event pool stands (R127, R132, R153, R174). -/
inductive EvLife where
  | reserved
  | armed
  | flying
  | standing
  | train
deriving DecidableEq, Repr

/-- An occupied slot of the event pool (04 R127-R169); for a pulse in flight, its outcome as decided at its firing (R370). -/
structure Ev where
  gen : Nat
  ch : Nat
  owner : Nat
  kind : Nat
  noadv : Bool
  bidir : Bool
  width : Nat
  target : Nat
  deadline : Nat
  jsn : Option Nat
  life : EvLife
  /-- Acceptance order (R143, R156). -/
  order : Nat
  /-- Fires at the next tick (the equal case of R150). -/
  equal : Bool := false
  /-- The next action is the forward one, and it is armed (R153). -/
  fwd : Bool := true
  ready : Bool := true
  /-- Train parameters (R173). -/
  pitch : Nat := 0
  phase : Nat := 0
  len : Nat := 0
  outcome : Nat := 0
  cause : Nat := 0
  lat : Int := 0
  fireTb : Nat := 0
deriving DecidableEq, Repr

/-- What a pool index remembers of its last event (R134). -/
structure PoolLast where
  /-- The tag that the next event of this index takes. -/
  gen : Nat := 0
  handle : Option Nat := none
  owner : Nat := 0
  journaled : Bool := false
  ch : Nat := 0
deriving DecidableEq, Repr

/-- An action held by a channel's compare (R143, R144): keys below 16384 are pool indices, 16384 the next pulse point. -/
structure Head where
  key : Nat
  tb : Nat
  /-- Reached when it was loaded (R144), and fired under R145. -/
  load : Bool
  bunch : Bool
  rank : Nat
  order : Nat
  /-- Distance to the fire point, speed and acceleration in the action's own direction at the tick of the load, and that tick. -/
  dist : Int
  v : Int
  a : Int
  tick : Nat
  /-- The fire point. -/
  fp : Nat
deriving DecidableEq, Repr

/-- A gate action of a channel (R273, R274). -/
structure Gate where
  at_ : Nat
  opens : Bool
  late : Bool := false
  fireTb : Option Nat := none
deriving DecidableEq, Repr

/-- A pulse in flight (R129): it turns the output off at its end unless a later action has made the output stay or taken it over. -/
structure Pulse where
  idx : Nat
  endTb : Nat
  stays : Bool := false
  taken : Bool := false
deriving DecidableEq, Repr

/-- A running train (R174-R182): its pulse points are tgt + off + round((ph / 65536 + n) * pitch). -/
structure Train where
  idx : Nat
  owner : Nat
  order : Nat
  tgt : Nat
  off : Nat := 0
  ph : Nat
  n : Nat := 0
  pitch : Nat
  width : Nat
  prevWidth : Nat := 0
  noadv : Bool
  len : Nat
  tPrev : Option Nat := none
  /-- R279: a width from the map, and the axis position from which it applies. -/
  nextWidth : Option (Nat × Nat) := none
deriving DecidableEq, Repr

/-- A stroke of coverage write-back (R281-R283). -/
structure Stroke where
  start : Nat
  /-- The end, once the turn-off is known; the end that the last pulse of a train gives. -/
  stop : Option Nat := none
  lastOff : Nat := 0
  train : Bool := false
  /-- The highest axis position reached. -/
  high : Option Nat := none
deriving DecidableEq, Repr

/-- A time in which the low-side switch of an actuation conducts (R246): it is one that the notch detector samples, not an on-segment of window
regulation; the window rise, in codes. -/
structure OnSeg where
  start : Nat
  stop : Option Nat := none
  first : Bool
  rise : Nat := 0
deriving DecidableEq, Repr

/-- A channel's drive beside its registers (06 R201-R226, 07 R233-R247): the settings copied at the start of the actuation (R220) and what
has happened in it. -/
structure Drv where
  phaseTb : Nat := 0
  startTb : Nat := 0
  fireTb : Nat := 0
  fromOff : Bool := false
  denied : Bool := false
  restart : Bool := false
  /-- A step decay in progress, and whether it is fast (R213). -/
  step : Option Bool := none
  /-- The turn-off decay in progress is fast, and so whatever R208 requires (R241). -/
  fast : Bool := false
  forced : Bool := false
  /-- TB at which blanking ends. -/
  blankTb : Nat := 0
  plain : Bool := false
  bstEn : Bool := true
  pkNotch : Bool := false
  stepBp : Bool := false
  stepPh : Bool := false
  offSlow : Bool := false
  chopFast : Bool := false
  blank : Nat := 8
  maxon : Nat := 0
  iBst : Nat := 250
  tBst : Nat := 300
  tPk : Nat := 1000
  floor : Nat := 1023
  lim : Nat := 125
  /-- TB of the boost request; its wait in us as CH_DRV_LAST.WAIT gives it, 0 without a request; TB at which HSB came on for the channel. -/
  reqTb : Nat := 0
  waited : Nat := 0
  hsbTb : Nat := 0
  /-- HSB came from another channel (R216, R256). -/
  passed : Bool := false
  /-- TB at which the low-side switch first turned on in an actuation from OFF (R238). -/
  onTb : Option Nat := none
  /-- NO_RISE was recorded in this actuation, or its time has been judged. -/
  noRise : Bool := false
  noRiseDone : Bool := false
  /-- The notch detector still searches (R246), with its settings. -/
  notch : Bool := false
  nMin : Nat := 50
  nMax : Nat := 1500
  nDrop : Nat := 30
  /-- The conduction of the low-side switch in this actuation, newest first; it has turned on in PEAK (R246). -/
  ons : List OnSeg := []
  pkOn : Bool := false
  /-- Phase and low-side switch while a lane records the channel, each with the TB since which they hold, newest first (R250). -/
  capLog : List (Nat × Nat × Bool) := []
  /-- The last turn-off: its TB and current. -/
  offTb : Option Nat := none
  offCode : Nat := 0
  /-- TB since which the phase has been OFF. -/
  offSince : Nat := 0
  /-- On-times of the last second, newest first: start and, once over, end (R221). -/
  onIv : List (Nat × Option Nat) := []
  /-- Codes by which the hold window is lowered (R224). -/
  trim : Nat := 0
  /-- Node test: its start, a request, the result before (R233, R235); the supply result before (R234). -/
  nodeTb : Option Nat := none
  nodeReq : Bool := false
  nodePrev : Nat := 0
  supPrev : Option Bool := none
  /-- SHORT_BAT came from an on-state detection; from the supply test; one of either came in this stay in SAFE. -/
  sbOn : Bool := false
  sbSup : Bool := false
  sbHold : Bool := false
  /-- TB of the last detection (R245), and the precedence of the condition that it flagged (R240). -/
  det : Option (Nat × Nat) := none
  /-- TB of the last notch, the TB at which it committed, and M, MEAS and TB of the notch before it (R248); inputs of the wear model that Gelow
  has not taken (R254). -/
  notchTb : Nat := 0
  notchAt : Option Nat := none
  notchWas : Nat × Bool × Nat := (0, false, 0)
  wearIn : List Nat := []
deriving DecidableEq, Repr

/-- A grant at the request's own TB, and the channel before it: a request of the same TB on a lower channel takes its place (R215). -/
structure Grant where
  tb : Nat
  ch : Nat
  phase : Nat
  drv : Drv
  ls : Bool
  fw : Bool
  wait : Nat
deriving DecidableEq, Repr

/-- A release of a lattice whose window is open (R195). -/
structure Release where
  tr : Int
  /-- The window, in TB. -/
  from_ : Int
  upto : Int
  drops : Nat := 0
  firstDrop : Option Nat := none
  /-- The landing error as formed (R197); the window is over. -/
  eps : Option Int := none
  closed : Bool := false
deriving DecidableEq, Repr

/-- LAT_ALIGN, LAT_LOOP, LAT_OSCALE, LAT_OOFS, LAT_CELL_OFS, LAT_FALL and LAT_LEARN as they act since a 1 ms update (R192). -/
structure LatSet where
  align : Nat := 50
  lineTol : Nat := 25
  vmin : Nat := 300
  bw : Nat := 20
  slew : Nat := 10
  lockThr : Nat := 13
  lockN : Nat := 8
  oscale : Int := 65536
  oofs : Int := 0
  cellOfs : Nat := 0
  fall : Nat := 0
  tshift : Nat := 0
  pshift : Nat := 0
  tlim : Nat := 0
deriving DecidableEq, Repr

/-- A lattice (05 R183-R197): cells, cells/s and us with 32 fraction bits. -/
structure Lat where
  /-- The anchor of spacing, in pu with 32 fraction bits (R186). -/
  anc : Int := 0
  /-- Phase, along-row speed in pu/s and reference of the last tick (R184-R186); a tick has come since the enable. -/
  phi : Int := 0
  vu : Int := 0
  tick : Nat := 0
  begun : Bool := false
  j : Int := 0
  sigma : Int := 1
  theta : Int := 0
  e : Int := 0
  integ : Int := 0
  c : Int := 0
  /-- Direction in which the previous command was clamped: 1 up, -1 down (R190). -/
  clampDir : Int := 0
  /-- Edges in a row within the threshold; beyond twice the threshold (R193). -/
  inRow : Nat := 0
  outRow : Nat := 0
  /-- TB of the last edge, or of the entry into ACQ; an edge has come since. -/
  edgeTb : Nat := 0
  hadEdge : Bool := false
  /-- TB since which the phase wheel has been usable; a stall led to FAULT, at this TB. -/
  usableFrom : Option Nat := none
  stalled : Bool := false
  faultTb : Nat := 0
  tube : Int := 0
  trim : Int := 0
  releases : List Release := []
  /-- Drops whose windows the next edges tell, oldest first (R195). -/
  loose : List Nat := []
  /-- The command and whether windows open, each with the TB since which it holds, newest first (R195). -/
  cmds : List (Nat × Int × Bool) := []
  skips : Nat := 0
  acts : LatSet := {}
  /-- Landing errors of the last 64 single drops, in 0.1 mm with 32 fraction bits. -/
  errors : List Int := []
  /-- PWM: the value that acts from the next period start, the period start and the end of the on-time. -/
  pwmOut : Int := 0
  periodTb : Option Nat := none
  offTb : Option Nat := none
deriving DecidableEq, Repr

/-- A resolution as CH_LAST_O, CH_LAST_LAT and CH_LAST_TB report it (R170). -/
structure LastRes where
  word : Nat := 0
  lat : Int := 0
  tb : Nat := 0
deriving DecidableEq, Repr

/-- A channel beside its registers. -/
structure Chan where
  heads : List Head := []
  /-- Actions fired since the last tick (R145). -/
  fired : Nat := 0
  /-- The nearest action of the last tick, and of the tick before: firing TB, fire point, handle (R146, R170). -/
  near : Option (Option Nat × Nat × Nat) := none
  nearOld : Option (Option Nat × Nat × Nat) := none
  /-- CH_ADV_CLOSE and CH_BIDIR as they act (R544), t_meas (R140). -/
  close : Nat := 0
  hys : Nat := 256
  span : Nat := 0
  tMeas : Nat := 0
  /-- Lateness and TB of the last resolution (R170); the TB at which it committed, and the resolution before that TB. -/
  lastLat : Int := 0
  lastTb : Nat := 0
  lastAt : Option Nat := none
  lastWas : LastRes := {}
  pulses : List Pulse := []
  train : Option Train := none
  /-- End of a train pulse in flight (R175), and the rank of its owner. -/
  trainOff : Option Nat := none
  /-- Gate actions that wait (R273). -/
  gates : List Gate := []
  /-- Gate actions that have fired and whose boundary a scan may still find ahead. -/
  gateDone : List Gate := []
  /-- The stroke in the making; strokes with an end that the next tick marks. -/
  stroke : Option Stroke := none
  strokes : List Stroke := []
  drv : Drv := {}
  lat : Lat := {}
deriving DecidableEq, Repr

/-- The boost controller, the bank diagnostics and the power dies beside their registers. -/
structure BankSt where
  /-- The bank was lost to a voltage above 40.0 V (R513). -/
  tooHigh : Bool := false
  /-- Supply test: its start and a request (R234). -/
  supTb : Option Nat := none
  supReq : Bool := false
  /-- R215: the latest grant at once. -/
  granted : Option Grant := none
deriving DecidableEq, Repr

structure BoostSt where
  startTb : Nat := 0
  /-- VBOOST as last measured, in mV; the switching frequency in kHz, 0 while not switching (R205). -/
  mv : Nat := 0
  swKhz : Nat := 0
  /-- TB of the last sum of the clamp energy (R207), and of the end of the last boost phase (R209). -/
  clampTb : Option Nat := none
  lastBst : Option Nat := none
  clampA : Bool := false
  clampB : Bool := false
  /-- End of the boost phase whose recharge is being timed (R209). -/
  rchgFrom : Option Nat := none
  /-- Per die: the filtered loss in mW with 32 fraction bits, and the TB since which it has stood above its budget (R224). -/
  pEstA : Int := 0
  pEstB : Int := 0
  aboveA : Option Nat := none
  aboveB : Option Nat := none
deriving DecidableEq, Repr

/-- The capacitor bank as Gelow follows it (R256). -/
structure Bcap where
  /-- TB since which the controller has been in RUN, and its boost operation before, in TB. -/
  runFrom : Option Nat := none
  runAcc : Nat := 0
  /-- Boost operation at the last computation, in TB. -/
  last : Nat := 0
  /-- Bank of the latest boost phase that began from HSS, and its STEP. -/
  phase : Option (Nat × Nat) := none
  /-- The baseline in the making: operation at its reset, and sums of ESR, of t_r / ΔV with 32 fraction bits and of VBAT. -/
  from_ : Nat := 0
  esrs : List Nat := []
  ratios : List Nat := []
  vbats : List Nat := []
  /-- The baseline, once it is complete: ESR, ratio, VBAT. -/
  base : Option (Nat × Nat × Nat) := none
  /-- ESR and C_rel of the last 50 hours of operation, newest first. -/
  hist : List (Nat × Nat) := []
deriving DecidableEq, Repr

/-- The wear model of a channel (R254, R255) and what a wear save keeps of it. -/
structure Wear where
  inputs : Nat := 0
  sum0 : Nat := 0
  last : List Nat := []
  /-- Input count and W at each checkpoint, newest first. -/
  marks : List (Nat × Nat) := []
  /-- Inputs of the days with any input, newest first, and the day of the newest. -/
  days : List Nat := []
  day : Nat := 0
  /-- The limits of the valve class in us. -/
  dLim : Nat := 600
  sLim : Nat := 250
  /-- A wear reset has come, so a mount restores nothing older (R345). -/
  cleared : Bool := false
deriving DecidableEq, Repr

/-- A capture as Gelow copied it (R251, R253). -/
structure Copy where
  tb : Nat
  notch : Nat
  lanes : Nat
  dec : Nat
  samples : List Nat
deriving DecidableEq, Repr

/-- A word of the axis island to the journal writer (R364). -/
structure JWord where
  jsn : Nat
  phase : Nat
  outcome : Nat := 0
  cause : Nat := 0
  stand : Bool := false
  tb : Nat := 0
  lat : Int := 0
deriving DecidableEq, Repr

/-- A record of the Crucible with its command identity (R359, R365), and its slot. -/
structure Rec where
  jsn : Nat
  owner : Nat
  opcode : Nat
  ch : Nat
  tag : Nat
  target : Nat
  mbx : Nat
  seq : Nat
  first : Nat
  slot : Nat
  /-- Entries accepted of its command (R342); its place among the entries, and its handle (R353). -/
  acc : Nat := 1
  entry : Nat := 0
  handle : Nat := 0
  phase : Nat := 0
  outcome : Nat := 0
  cause : Nat := 0
  restart : Bool := false
  stand : Bool := false
  tb : Nat := 0
  lat : Int := 0
deriving DecidableEq, Repr

/-- An entry in the staging area (R363): an event's reserved pool index, an INHIBIT's parameters, or a diagnostics command. -/
inductive Staged where
  | event (jsn idx : Nat)
  | inhibit (jsn : Nat) (params : List Nat)
  | diag (jsn : Nat)
deriving DecidableEq, Repr

/-- The Crucible and the journal writer (10 R357-R384). -/
structure Journal where
  recs : List Rec := []
  nextJsn : Nat := 1
  /-- The newest hallmark of each owner (R342). -/
  newest : Tab Nat := []
  /-- The slot pointer (R361). -/
  ptr : Nat := 0
  staged : List Staged := []
  /-- Words on the way to the journal writer, oldest first. -/
  words : List JWord := []
  heartbeat : Nat := 0
  /-- The TB that R376 takes at the restart: of the shutdown marker, or the heartbeat that a module reset found. -/
  marker : Option Nat := none
  /-- An uncorrectable word was found; journaled commands fail (R382). -/
  broken : Bool := false
  /-- A module reset has come since (R382). -/
  again : Bool := false
deriving DecidableEq, Repr

/-- A filigree engine beside its registers (13 R435-R451). -/
structure Engine where
  /-- TB at which the next engine cycle starts, and the divider residue there (R436). -/
  next : Nat := 0
  residue : Nat := 0
  /-- Hold cycles left from then (R439). -/
  hold : Nat := 0
  /-- While stalled: the instruction that stalled (R448); its word has been replaced (R449). -/
  word : Nat := 0
  replaced : Bool := false
  tx : List Nat := []
  rx : List Nat := []
  /-- Output and direction latches, one bit per FIO pin. -/
  out : Nat := 0
  dir : Nat := 0
deriving DecidableEq, Repr

/-- A general timer beside its registers (R454-R459). -/
structure Tmr where
  /-- TB of the last tick; the prescaler phase held by a freeze. -/
  last : Nat := 0
  phase : Nat := 0
  /-- Since the return to 0 no compare has come; the toggle level (R455). -/
  cyc : Bool := false
  tog : Bool := false
  /-- TB of the latest capture; qualifying edges of the count source since the last tick (R454). -/
  capTb : Nat := 0
  edges : Nat := 0
deriving DecidableEq, Repr

/-- A modulator beside its registers (12 R415-R418). -/
structure AdcUnit where
  /-- TB of the latest restart, and the earliest TB of the next result. -/
  start : Nat := 0
  next : Nat := 0
  /-- The input being converted and its rate; in a pair, the next result is the partner's. -/
  input : Nat := 0
  rate : Nat := 0
  other : Bool := false
  /-- A write of ADC_SEL or of RATE restarts the decimator at this output period boundary, at which a result of the old input lands (R415). -/
  restart : Option Nat := none
  /-- Information of the latest result. -/
  resInput : Nat := 0
  resUnit : Nat := 0
  resClip : Bool := false
  resTb : Nat := 0
deriving DecidableEq, Repr

/-- An Assay entry as copied at its start (R419). -/
structure AsRun where
  entry : Nat
  input : Nat
  unit : Nat
  rate : Nat
  pull : Nat
  delay : Nat
  rep : Nat
  lo : Nat
  hi : Nat
  last : Bool
  start : Nat
deriving DecidableEq, Repr

/-- Assay beside its registers: the next entry, the run in progress, and whether an entry ran in this pass. -/
structure Assay where
  pos : Nat := 0
  run : Option AsRun := none
  ran : Bool := false
deriving DecidableEq, Repr

/-- A general comparator or a seed sensor beside its registers (R424-R430). -/
structure Cmpr where
  enTb : Nat := 0
  /-- TB of the last change. -/
  tb : Nat := 0
  /-- The excursion in progress, and whether it was found blocked; excursions that have ended and wait to be judged. -/
  exc : Option Nat := none
  blocked : Bool := false
  ended : List (Nat × Nat × Bool) := []
  dropTb : Nat := 0
  dropW : Nat := 0
  /-- R430: per condition (OPEN, SHORT_BAT, REV), evaluations present and absent in a row; what the last pull test found. -/
  present : List Nat := [0, 0, 0]
  absent : List Nat := [0, 0, 0]
  pullOpen : Bool := false
deriving DecidableEq, Repr

/-- A tile cache slot beside its registers (R266, R285): the copy that a flush writes, and whether a cell has changed since; the TB of the
flush before; a cell state to apply once a host load has committed. -/
structure TileSt where
  copy : List Host.Cell := []
  changed : Bool := false
  flushTb : Nat := 0
deriving DecidableEq, Repr

/-- What a scan has found for a channel and not yet committed, or what the lookahead record shows (R272, R273, R279, R306). -/
structure Scan where
  tb : Nat := 0
  gates : List Gate := []
  width : Option (Nat × Nat) := none
deriving DecidableEq, Repr

/-- Where a channel's nozzle stood at the last write-back tick (R282): east, north and heading; the axis position. -/
structure WbPoint where
  e : Int := 0
  n : Int := 0
  hdg : Nat := 0
  pos : Nat := 0
  axis : Nat := 0
deriving DecidableEq, Repr

/-- A host load that has committed: layer 0 coverage or 1 prescription, tile, mode, cells, and its version. -/
structure TileLoad where
  layer : Nat
  te : Int
  tn : Int
  merge : Bool
  cells : List Host.Cell
  ver : Nat
deriving DecidableEq, Repr

/-- The map engine and the tile cache beside their registers. -/
structure MapSt where
  /-- Slots: 0-23 coverage, 24-87 prescription. -/
  tiles : Tab TileSt := []
  scans : Tab Scan := []
  points : Tab WbPoint := []
  /-- TB of the last write-back tick. -/
  wbTb : Nat := 0
  /-- What Gelow writes back after a reset of the map island (R474). -/
  saved : Option (Tab (Tab Nat)) := none
  /-- Host loads that have committed and wait for the next tick (R286). -/
  loads : List TileLoad := []
deriving DecidableEq, Repr

/-- A committed tile (R296): its version, its bytes that are not 0, and the target that holds it. -/
structure NTile where
  ver : Nat
  cells : List Host.Cell
  target : Nat
deriving DecidableEq, Repr

/-- A NAND target as Gelow manages it (R288, R292, R294, R295). -/
structure NTarget where
  /-- It is mounted and has not failed. -/
  ok : Bool := false
  blocks : Nat := 0
  endurance : Nat := 0
  /-- The highest timing mode that it announces and whose timing R540 allows (R287). -/
  maxMode : Nat := 0
  /-- Blocks that must be erased before they are used: their last erase or program was cut short (R289, R297). -/
  torn : List Nat := []
  /-- Bad blocks; those of them that have grown bad. -/
  bad : List Nat := []
  grown : Nat := 0
  /-- Erase counts, and reads since the last erase, per block. -/
  ec : Tab Nat := []
  reads : Tab Nat := []
  /-- Blocks queued for refresh (R291). -/
  queue : List Nat := []
  /-- Blocks that hold pages programmed since their last erase; those in which a verify has failed once (R292, R294, R296). -/
  used : List Nat := []
  unsure : List Nat := []
  /-- Blocks read more often than NC_PATROL.RD_LIM allows, with the TB of the read that passed it (R295). -/
  hot : Tab Nat := []
deriving DecidableEq, Repr

/-- The medium and its manager (R289-R302). -/
structure Nand where
  t0 : NTarget := {}
  t1 : NTarget := {}
  tiles : Tab NTile := []
  /-- The directory log cannot commit. -/
  logFail : Bool := false
  /-- Highest corrected count of the present patrol round, and the TB at which the round began. -/
  roundMax : Nat := 0
  roundTb : Nat := 0
  /-- Days with any write, newest first: erases, grown bad blocks, bytes programmed; the number of the newest day. -/
  days : List (Nat × Nat × Nat) := []
  day : Nat := 0
  /-- The wear states and the capacitor baselines as last saved (R255, R293). -/
  wear : Tab Wear := []
  bcap : Option (Nat × Nat × Nat) := none
  /-- The boot area's two copies, and the image slots (R293, R302); the active slots of Gelow and of Anvil-C. -/
  boot : List (List Byte) := []
  images : Tab (List Byte) := []
  /-- The image slots whose directory record names target 1 (R299). -/
  imgT1 : List Nat := []
  activeV : Nat := 0
  activeC : Nat := 2
deriving DecidableEq, Repr

/-- A channel in a CAL_SWEEP (R346). -/
structure Cal where
  ch : Nat
  skip : Bool := false
  started : Bool := false
  left : Nat
  ms : List Nat := []
  /-- TB of the pulse whose notch is awaited. -/
  pulse : Option Nat := none
deriving DecidableEq, Repr

/-- A long command in progress (R329-R331, R346). -/
structure LongRun where
  op : Nat
  /-- The record of a journaled command. -/
  jsn : Nat := 0
  /-- Upload bytes still due, and those that have come. -/
  due : Nat := 0
  got : List Byte := []
  /-- Result bytes still to be delivered, and the next chunk number; the response payload. -/
  out : List Byte := []
  idx : Nat := 0
  resp : List Byte := []
  /-- The result is complete. -/
  full : Bool := false
  hold : Bool := false
  /-- The request payload, for the end of the command. -/
  req : List Byte := []
  /-- The last effect of the command has committed (R331). -/
  late : Bool := false
  cals : List Cal := []
  next : Nat := 0
deriving DecidableEq, Repr

/-- A mailbox beside its registers and areas (R326-R331). -/
structure Mbox where
  doorTb : Nat := 0
  /-- An abort is latched. -/
  abort : Bool := false
  /-- TB since which a chunk is held. -/
  heldTb : Nat := 0
  /-- TB at which an upload chunk was handed over. -/
  nextTb : Option Nat := none
  run : Option LongRun := none
deriving DecidableEq, Repr

/-- A host port beside its registers (R315): the kept write and read frames, and the bytes that the port drove in the last frame. -/
structure HostPort where
  keptW : Option (Nat × Nat × Nat × Nat) := none
  keptR : Option (Nat × Nat × Nat × List Byte) := none
  out : List Byte := []
deriving DecidableEq, Repr

/-- A COUNTERS result whose hallmark has not been collected (R344): record, owner, class and unit, and the totals then. -/
structure Snap where
  jsn : Nat
  owner : Nat
  unit : Nat
  totals : List Nat
deriving DecidableEq, Repr

/-- What Gelow keeps (09, 14). -/
structure Gelow where
  /-- Gelow runs and takes doors. -/
  up : Bool := false
  /-- Mailboxes taken and not yet executed, in order (R328). -/
  batch : List Nat := []
  collect : Bool := false
  collectTb : Nat := 0
  /-- Totals of the RC counters: class * 65536 + unit * 64 + field. -/
  totals : Tab Nat := []
  /-- Totals at the last collected COUNTERS: owner * 2^20 + class * 256 + unit. -/
  bases : Tab (List Nat) := []
  snaps : List Snap := []
  /-- TB from which each port's hallmark notice of R373 is due. -/
  noticeA : Bool := false
  noticeB : Bool := false
deriving DecidableEq, Repr

/-- Clocks, resets, boot and supplies beside their registers (14, 15). -/
structure SysSt where
  /-- TB of the last watchdog kicks (R477); in sleep, the time since them. -/
  wdtV : Nat := 0
  wdtC : Nat := 0
  /-- Anvil-V restarts of the last 10 s, newest first (R473). -/
  vRestarts : List Nat := []
  /-- An Anvil-V restart, and an Anvil-C restart, that Gelow has not completed, with its TB. -/
  vDown : Option Nat := none
  cDown : Option Nat := none
  /-- The steps of R377 are done. -/
  vReady : Bool := false
  /-- TB since which XTAL_OK has stood at 1 (R463). -/
  xtalTb : Nat := 0
  /-- TB at which the module reset ends (R473). -/
  holdTb : Nat := 0
  /-- RESET (0x0104): the TB at which the reset begins. -/
  modAt : Option Nat := none
  cAt : Option Nat := none
  /-- SYS_SLEEP.REQ waits for the tick (R480). -/
  sleepReq : Bool := false
  /-- R470: the last mark, and the last accepted one; marks within 200 ppb in a row. -/
  mark : Option Nat := none
  markOk : Option Nat := none
  near : Nat := 0
  /-- Key programming in progress: slot and TB (R484). -/
  key : Option (Nat × Nat) := none
  /-- The version and the entry of the running Gelow image; the version of the running Anvil-C image, 0 for none (R333, R477). -/
  vVersion : Nat := 0
  vEntry : Nat := 0
  cVersion : Nat := 0
  /-- NAND target 0, and target 1, became ready within 20 ms of the release (R482, R484). -/
  t0Ready : Bool := true
  t1Ready : Bool := true
  /-- No power (R508); VIO is 3.3 V (R505). -/
  off : Bool := false
  vio33 : Bool := true
  /-- Loss detection is armed (R510), and the TB of a detection (R379). -/
  armed : Bool := false
  lossTb : Option Nat := none
  /-- The boost input disconnect is closed (R515). -/
  disc : Bool := true
deriving DecidableEq, Repr

/-- A sensor supply beside its registers (R517-R519): its switch, the condition that holds FLT (0 over, 1 battery, 2 reversed, 3 hot, 4 open),
the TB of the opening and of the reclosing. -/
structure Supply where
  closed : Bool := false
  cond : Option Nat := none
  openTb : Nat := 0
  backTb : Option Nat := none
deriving DecidableEq, Repr

/-- A fabric link beside its registers (R23-R28): the last word that was accepted, and how many were. -/
structure LinkSt where
  last : Nat := 0
  n : Nat := 0
deriving DecidableEq, Repr

/-- A read that waits for a refetch (R30): the reader, and the address of the word in the host space. -/
structure Refetch where
  reader : Writer
  addr : Nat
  tb : Nat
deriving DecidableEq, Repr

/-- A result as ADC_RES and its information hold it; whether the result that lands on it set OVR anew (R417). -/
structure AdcOld where
  word : Nat
  input : Nat
  unit : Nat
  clip : Bool
  tb : Nat
  ovr : Bool
deriving DecidableEq, Repr

/-- What has happened in one cycle (R10, R11, R317, R397): its TB, the W1C bits that hardware has set (field, instance, bit), the RC fields that
hardware has counted (field, instance, the value before, the amount), the words written, with the place of the last writer in the order of R317,
and what writes have taken from the next selection, which they do not reach: pending bits and targets of sources, host accumulators, targets
added to a group's hold-off, targets whose GEN was cleared; and what results, changes and drops of this cycle have replaced, which a read of
this cycle still returns: per modulator, Assay entry, comparator, seed sensor and timer (R417, R421, R434, R458); the counter of a timer before a
write of it (R458); group flags lowered (R443), words that writes of FE_TX have entered per engine (R447), and engines whose EN a synchronous
command has set (R450); the gate words before a write of them (R472), wake sources that have occurred (R481), whether the set-up was sealed
(R486), and sensor supplies whose fault has set SUP_FLAGS (R519). -/
structure Cycle where
  tb : Nat := 0
  sets : List (Nat × Nat × Nat) := []
  counts : List (Nat × Nat × Nat × Nat) := []
  writes : Tab Nat := []
  pends : Tab Nat := []
  targets : Tab Nat := []
  accums : Tab Accum := []
  holds : Tab Nat := []
  gens : List Nat := []
  adcs : Tab AdcOld := []
  results : Tab Nat := []
  changes : Tab Nat := []
  drops : Tab (Nat × Nat) := []
  captures : Tab (Nat × Nat × Bool) := []
  counters : Tab Nat := []
  lowers : List (Nat × Nat) := []
  words : Tab Nat := []
  synced : List Nat := []
  gates : Option (Nat × Nat) := none
  wakes : List Nat := []
  sealed : Bool := false
  sups : List Nat := []
deriving DecidableEq, Repr

/-- The whole of the block but its queue of commands. -/
structure Chip where
  /-- The TB count, in the observer island (R21, R464). -/
  tb : Nat
  /-- The register file: per field (by Field.id), per instance, the fields that have been written since reset. -/
  regs : Tab (Tab Nat)
  /-- Bytes of the host address space that are not registers, and of the tightly coupled memory at 0x2000_0000. -/
  mem : List Host.Cell
  /-- The cycle of the last set, count or write. -/
  cyc : Cycle
  /-- Islands by number (R464). -/
  isl : Tab Island
  /-- TB of the last happening of each kind that comes at a period (Ops: Period). -/
  stamps : Tab Nat
  /-- How many free values have been taken (the model's own counter). -/
  frees : Nat
  /-- What the last read through a register returned (the model's own). -/
  rdata : Nat
  /-- The device sleeps (R480). -/
  asleep : Bool
  /-- Host accumulators: port * 1024 + source, or + 512 hallmark, + 513 port change, + 520 + mailbox (R398). -/
  accums : Tab Accum
  /-- Hold-off end per group (R402). -/
  holdEnd : Tab Nat
  /-- Anvil-V and Anvil-C. -/
  coreV : CoreSt
  coreC : CoreSt
  /-- Wheel inputs. -/
  whl : Tab Wheel
  /-- Mandrel, and the axes that are not off. -/
  mdl : Mandrel
  axes : Tab Axis
  /-- The event pool by pool index; what each index remembers; the next acceptance order. -/
  pool : Tab Ev
  poolLast : Tab PoolLast
  orderNo : Nat
  /-- Channels, banks, the boost controller and the dies. -/
  chans : Tab Chan
  banks : Tab BankSt
  boost : BoostSt
  /-- Capture: requests that wait, per converter; TB of the arming of each lane; Gelow's copies, per channel. -/
  capReq : Tab (List Nat)
  capTb : Tab Nat
  copies : Tab Copy
  /-- Wear models, per channel, and the capacitor model. -/
  wear : Tab Wear
  bcap : Bcap
  /-- The Crucible and the journal writer. -/
  jour : Journal
  /-- Filigree engines, the levels of the FIO pins as the last command that samples them gave them, and timers. -/
  fe : Tab Engine
  fio : Nat
  tim : Tab Tmr
  /-- Modulators, Assay, general comparators and seed sensors. -/
  adc : Tab AdcUnit
  assay : Assay
  cmp : Tab Cmpr
  sds : Tab Cmpr
  /-- The map engine, the medium, the mailboxes (0-19), the host ports, Gelow. -/
  map : MapSt
  nand : Nand
  mbox : Tab Mbox
  port : Tab HostPort
  gelow : Gelow
  /-- Clocks, resets and supplies; sensor supplies; fabric links; reads that wait for a refetch. -/
  sys : SysSt
  sup : Tab Supply
  link : Tab LinkSt
  refetch : List Refetch
deriving DecidableEq, Repr

/-- The block after a power-up (R473): TB 0, every register at its reset value, and everything else as its default gives it. -/
def Chip.fresh : Chip where
  tb := 0
  regs := []
  mem := []
  cyc := {}
  isl := []
  stamps := []
  frees := 0
  rdata := 0
  asleep := false
  accums := []
  holdEnd := []
  coreV := { running := true }
  coreC := {}
  whl := []
  mdl := {}
  axes := []
  pool := []
  poolLast := []
  orderNo := 0
  chans := []
  banks := []
  boost := {}
  capReq := []
  capTb := []
  copies := []
  wear := []
  bcap := {}
  jour := {}
  fe := []
  fio := 0
  tim := []
  adc := []
  assay := {}
  cmp := []
  sds := []
  map := {}
  nand := {}
  mbox := []
  port := []
  gelow := {}
  sys := {}
  sup := []
  link := []
  refetch := []

/-- Why the block stops. No rule of the manual stops the block for good, so there is no such reason: a command whose conditions do not
hold leaves the state as it is, and a loss of power is a state of its own (R508). Safe: nothing is claimed of a stop. -/
inductive Fault where
deriving DecidableEq, Repr

/-- Why a command has no meaning. -/
inductive Refusal where
  /-- The command's meaning has not been written: raised by the arms of exec alone. Safe: nothing can be proved of its effect. -/
  | notModelled (mnemonic : String)
deriving DecidableEq, Repr

/-- The block and the queue of commands that wait, first in, first out. -/
structure State where
  chip : Chip
  pending : List Instr
deriving DecidableEq, Repr

/-- The machine right after the release of a power-up reset: the block as R473 leaves it, and no command. -/
def State.reset : State := ⟨Chip.fresh, []⟩

end Sys2Proof.Machine
end

