-- ==== Sys2Proof/Machine/Ops.lean ====
section
/-! DEFINITION. The named operations every command is built from: fields and memory, time, flags and their occurrences (R386-R398). -/

namespace Sys2Proof.Machine

/-! ## Numbers -/

/-- Bit b of a number. -/
def bitAt (n b : Nat) : Bool := n.testBit b

/-- A number with bit b set. -/
def setBit (n b : Nat) : Nat := n ||| (1 <<< b)

/-- A number with bit b cleared. -/
def clrBit (n b : Nat) : Nat := if n.testBit b then n - (1 <<< b) else n

/-- A number with bit b set or cleared. -/
def putBit (n b : Nat) (v : Bool) : Nat := if v then setBit n b else clrBit n b

/-- The signed value of a two's complement number of w bits (R4). -/
def toSigned (w n : Nat) : Int := if n % 2 ^ w < 2 ^ (w - 1) then (n % 2 ^ w : Nat) else (n % 2 ^ w : Nat) - (2 ^ w : Nat)

/-- The two's complement number of w bits of a signed value (R4). -/
def ofSigned (w : Nat) (i : Int) : Nat := (i % (2 ^ w : Nat)).toNat

/-- A signed value held between two limits. -/
def clampI (lo hi i : Int) : Int := if i < lo then lo else if hi < i then hi else i

/-- A number held between two limits. -/
def clampN (lo hi n : Nat) : Nat := if n < lo then lo else if hi < n then hi else n

/-- One of two numbers. -/
def b2n (b : Bool) : Nat := if b then 1 else 0

/-- Half a range ahead (R5): a is ahead of b. -/
def ahead (a b : Nat) : Bool := let d := ofSigned 40 ((a : Int) - (b : Int)); decide (1 ≤ d) && decide (d < 2 ^ 39)

/-- The signed modular difference a - b of two axis positions (R5). -/
def posDiff (a b : Nat) : Int := toSigned 40 (ofSigned 40 ((a : Int) - (b : Int)))

/-- TB counts in a microsecond and a millisecond (R4). -/
def usTb : Nat := 200
def msTb : Nat := 200000

/-! ## Fields -/

/-- A field as it stands. -/
def Chip.rd (m : Chip) (f : Field) (i : Nat := 0) : Nat := tabGet (tabGet m.regs f.id []) i (f.reset i)

/-- A field set, cut to its width. -/
def Chip.wr (m : Chip) (f : Field) (i v : Nat) : Chip :=
  { m with regs := tabPut m.regs f.id (tabPut (tabGet m.regs f.id []) i (v % 2 ^ f.w)) }

/-- A one-bit field as it stands. -/
def Chip.rdB (m : Chip) (f : Field) (i : Nat := 0) : Bool := m.rd f i != 0

/-- A one-bit field set. -/
def Chip.wrB (m : Chip) (f : Field) (i : Nat) (b : Bool) : Chip := m.wr f i (b2n b)

/-- A signed field as it stands. -/
def Chip.rdI (m : Chip) (f : Field) (i : Nat := 0) : Int := toSigned f.w (m.rd f i)

/-- A signed field set. -/
def Chip.wrI (m : Chip) (f : Field) (i : Nat) (v : Int) : Chip := m.wr f i (ofSigned f.w v)

/-- What has happened in the present cycle. -/
def Chip.cycle (m : Chip) : Cycle := if m.cyc.tb = m.tb then m.cyc else { tb := m.tb }

/-- What has happened in the present cycle, set. -/
def Chip.setCycle (m : Chip) (c : Cycle) : Chip := { m with cyc := c }

/-- Hardware sets a bit of a flags register in this cycle (R10). -/
def Chip.setFlag (m : Chip) (f : Field) (i b : Nat) : Chip :=
  (m.wr f i (setBit (m.rd f i) b)).setCycle { m.cycle with sets := (f.id, i, b) :: m.cycle.sets }

/-- A bit that hardware has set in this cycle is taken back. -/
def Chip.unsetFlag (m : Chip) (f : Field) (i b : Nat) : Chip :=
  (m.wr f i (clrBit (m.rd f i) b)).setCycle { m.cycle with sets := m.cycle.sets.filter (· != (f.id, i, b)) }

/-- The bits of a flags register that hardware has set in this cycle. -/
def Chip.setNow (m : Chip) (f : Field) (i : Nat) : Nat :=
  m.cycle.sets.foldl (fun a x => if x.1 = f.id ∧ x.2.1 = i then setBit a x.2.2 else a) 0

/-- A write of 1 to bits of a flags register: those that hardware sets in the same cycle stay set (R10). -/
def Chip.clearFlags (m : Chip) (f : Field) (i w : Nat) : Chip :=
  let old := m.rd f i
  m.wr f i ((old - (old &&& w)) ||| (m.setNow f i &&& old))

/-- The counts of this cycle that a counted field has had: its value before them and their sum (R11). -/
def Chip.countsNow (m : Chip) (f : Field) (i : Nat) : Option (Nat × Nat) :=
  (m.cycle.counts.find? fun x => x.1 == f.id && x.2.1 == i).map (·.2.2)

/-- The counts of this cycle that another field has had. -/
def Chip.otherCounts (m : Chip) (f : Field) (i : Nat) : List (Nat × Nat × Nat × Nat) :=
  m.cycle.counts.filter fun x => !(x.1 == f.id && x.2.1 == i)

/-- A count of this cycle is kept beside the value before the first (R11). -/
def Chip.noteCount (m : Chip) (f : Field) (i n : Nat) : Chip :=
  let (old, k) := (m.countsNow f i).getD (m.rd f i, 0)
  m.setCycle { m.cycle with counts := (f.id, i, old, k + n) :: m.otherCounts f i }

/-- A saturating counter advanced (the counters of R7 that clear on read saturate at their width). -/
def Chip.count (m : Chip) (f : Field) (i : Nat) (n : Nat := 1) : Chip :=
  (m.noteCount f i n).wr f i (min (m.rd f i + n) (2 ^ f.w - 1))

/-- An RC field is read: what the read returns, and the field after it (R7, R11). -/
def Chip.rcRead (m : Chip) (f : Field) (i : Nat) : Nat × Nat :=
  match m.countsNow f i with
  | some (old, k) => (old, min k (2 ^ f.w - 1))
  | none => (m.rd f i, 0)

/-- A 64-bit TB written into a low and a high field. -/
def Chip.wrTb (m : Chip) (lo hi : Field) (i t : Nat) : Chip := (m.wr lo i t).wr hi i (t / 2 ^ 32)

/-- The word that the fields of one register spell. -/
def Chip.word (m : Chip) (fs : List Field) (i : Nat := 0) : Nat := fs.foldl (fun a f => a + m.rd f i * 2 ^ f.lsb) 0

/-- Fields returned to their reset values at the instances a test picks. -/
def Chip.resetFields (m : Chip) (fs : List Field) (p : Nat → Bool) : Chip :=
  fs.foldl (fun m f => { m with regs := tabPut m.regs f.id (tabDrop (tabGet m.regs f.id []) p) }) m

/-! ## Memory -/

/-- A byte of a list of cells; an unlisted byte reads 0. -/
def memGet (c : List Host.Cell) (a : Nat) : Byte :=
  match c with
  | [] => 0
  | (j, v) :: r => if j = a then v else memGet r a

/-- The cells with one byte written, in canonical form: addresses rise strictly and no listed byte is 0. -/
def memPut (c : List Host.Cell) (a : Nat) (b : Byte) : List Host.Cell :=
  match c with
  | [] => if b = 0 then [] else [(a, b)]
  | (j, v) :: r =>
    if a < j then (if b = 0 then (j, v) :: r else (a, b) :: (j, v) :: r)
    else if a = j then (if b = 0 then r else (a, b) :: r)
    else (j, v) :: memPut r a b

/-- Every listed address is at least the bound, they rise strictly, and no listed byte is 0. -/
def memRising (lo : Nat) (c : List Host.Cell) : Bool :=
  match c with
  | [] => true
  | (j, v) :: r => decide (lo ≤ j) && decide (v ≠ 0) && memRising (j + 1) r

/-- The canonical form of memory. -/
def Memory.wf (c : List Host.Cell) : Bool := memRising 0 c

/-- A byte of memory. -/
def Chip.byte (m : Chip) (a : Nat) : Byte := memGet m.mem a

/-- Bytes stored from an address upward. -/
def Chip.store (m : Chip) (a : Nat) (bs : List Byte) : Chip :=
  match bs with
  | [] => m
  | b :: r => Chip.store { m with mem := memPut m.mem a b } (a + 1) r

/-- n bytes from an address upward. -/
def Chip.load (m : Chip) (a n : Nat) : List Byte :=
  match n with
  | 0 => []
  | k + 1 => m.byte a :: m.load (a + 1) k

/-- The number that bytes spell, least significant first (R6). -/
def leNat (bs : List Byte) : Nat :=
  match bs with
  | [] => 0
  | b :: r => b.toNat + 256 * leNat r

/-- A number as n bytes, least significant first (R6). -/
def leBytes (n v : Nat) : List Byte :=
  match n with
  | 0 => []
  | k + 1 => BitVec.ofNat 8 v :: leBytes k (v / 256)

/-- A little-endian number of n bytes in memory. -/
def Chip.loadNat (m : Chip) (a n : Nat) : Nat := leNat (m.load a n)

/-- A little-endian number of n bytes stored. -/
def Chip.storeNat (m : Chip) (a n v : Nat) : Chip := m.store a (leBytes n v)

/-- Memory without the bytes of a range. -/
def memClear (c : List Host.Cell) (lo n : Nat) : List Host.Cell :=
  match c with
  | [] => []
  | (j, v) :: r => if lo ≤ j ∧ j < lo + n then memClear r lo n else (j, v) :: memClear r lo n

/-- The range of memory reads 0 from now on. -/
def Chip.clearMem (m : Chip) (lo n : Nat) : Chip := { m with mem := memClear m.mem lo n }

/-! ## Time -/

/-- The happenings that come at a period, each with a unit number. -/
inductive Period where
  | broadcast
  | prediction
  | history
  | slip
  | whlDiag
  | whlPull
  | whlInterp
  | lattice
  | duty
  | temperature
  | dieLoss
  | gelow
  | wearSave
  | bcap
  | mapScan
  | writeback
  | nandWear
  | nandEol
  | heartbeat
  | sdsDiag
  | sdsPull
  | queueRecord
deriving DecidableEq, Repr

/-- The length of each period in TB (the rule of each happening). -/
def Period.length : Period → Nat
  | .broadcast => 200
  | .prediction => 200
  | .history => 200000
  | .slip => 200000
  | .whlDiag => 200000
  | .whlPull => 2000000
  | .whlInterp => 200
  | .lattice => 200000
  | .duty => 200000
  | .temperature => 20000
  | .dieLoss => 200000
  | .gelow => 1000000
  | .wearSave => 120000000000
  | .bcap => 12000000000
  | .mapScan => 1000000
  | .writeback => 1000000
  | .nandWear => 200000000
  | .nandEol => 17280000000000
  | .heartbeat => 200000
  | .sdsDiag => 200000
  | .sdsPull => 2000000
  | .queueRecord => 8

/-- The number of a kind of happening. -/
def Period.no : Period → Nat
  | .broadcast => 0
  | .prediction => 1
  | .history => 2
  | .slip => 3
  | .whlDiag => 4
  | .whlPull => 5
  | .whlInterp => 6
  | .lattice => 7
  | .duty => 8
  | .temperature => 9
  | .dieLoss => 10
  | .gelow => 11
  | .wearSave => 12
  | .bcap => 13
  | .mapScan => 14
  | .writeback => 15
  | .nandWear => 16
  | .nandEol => 17
  | .heartbeat => 18
  | .sdsDiag => 19
  | .sdsPull => 20
  | .queueRecord => 21

/-- A happening of this kind and unit may come now: none came within its period. The stamp holds TB + 1; 0 is never. -/
def Chip.due (m : Chip) (p : Period) (i : Nat := 0) : Bool :=
  let s := tabGet m.stamps (p.no * 1024 + i) 0
  s == 0 || decide (s - 1 + p.length ≤ m.tb)

/-- The happening of this kind and unit comes now. -/
def Chip.stamp (m : Chip) (p : Period) (i : Nat := 0) : Chip :=
  { m with stamps := tabPut m.stamps (p.no * 1024 + i) (m.tb + 1) }

/-- TB of the latest prediction tick. -/
def Chip.tickAt (m : Chip) : Nat := tabGet m.stamps (Period.prediction.no * 1024) 1 - 1

/-! ## Islands -/

def Chip.island (m : Chip) (i : Nat) : Island := tabGet m.isl i {}
def Chip.setIsland (m : Chip) (i : Nat) (x : Island) : Chip := { m with isl := tabPut m.isl i x }

/-- Island numbers of R464. -/
def islObserver : Nat := 12
def islAxis : Nat := 13
def islMap : Nat := 14
def islHostA : Nat := 15
def islHostB : Nat := 16
def islMgmt : Nat := 17

/-- The TB replica of an island (R21). -/
def Chip.tbOf (m : Chip) (i : Nat) : Nat := m.tb + b2n (m.island i).skew

/-- An island is not in reset and its clock has not stopped. -/
def Chip.clockOk (m : Chip) (i : Nat) : Bool := (m.island i).resetEnd.isNone && (m.island i).stoppedAt.isNone && !(m.island i).hung

/-- An island runs; in sleep only the host islands do (R480). -/
def Chip.runs (m : Chip) (i : Nat) : Bool := m.clockOk i && (!m.asleep || i == 15 || i == 16)

/-- The device has power and is out of its module reset (R473, R505). -/
def Chip.powered (m : Chip) : Bool := !m.sys.off && m.sys.holdTb == 0

/-- A cluster stands in its safe state (R27). -/
def Chip.safe (m : Chip) (c : Nat) : Bool := (m.island c).safeSince.isSome

/-- The boost input disconnect is closed (R511, R515). -/
def Chip.discClosed (m : Chip) : Bool := m.sys.disc && m.sys.lossTb.isNone

/-- TB counts: 1 for each cycle of 5 ns, 200 for each cycle of the always-on clock in sleep (R480); nothing while the observer island has
no clock, or without power (R464, R468, R508). -/
def Chip.idle (m : Chip) : Chip :=
  let o := m.island islObserver
  if m.sys.off || o.hung || o.stoppedAt.isSome then m else { m with tb := m.tb + if m.asleep then 200 else 1 }

/-! ## Free values -/

/-- The next free value, and the machine that has taken it. -/
def Chip.free (m : Chip) : Int × Chip := (Config.freeInt m.frees, { m with frees := m.frees + 1 })

/-- A figure that the device takes every per TB and the rules do not give: what the field holds stands until the next sample, which nothing
constrains. -/
def Chip.freeSample (m : Chip) (f : Field) (i per : Nat) : Chip :=
  let k := 1048576 + f.id * 1024 + i
  if tabGet m.stamps k 0 = m.tb / per then m
  else
    let (x, m) := m.free
    { m with stamps := tabPut m.stamps k (m.tb / per) }.wr f i (ofSigned f.w x)

/-! ## Interrupt sources (R385-R404) -/

/-- The island that observes a source's happenings (R22, R385). -/
def srcIsland (n : Nat) : Nat :=
  if n < 192 then n / 16
  else if n < 256 then islObserver
  else if n < 280 then (n - 256) / 2
  else if n < 283 then islMgmt
  else if n = 283 then islObserver
  else if 288 ≤ n ∧ n < 312 then (n - 288) / 2
  else if n = 320 then islMap
  else if n = 322 then islHostA
  else if n = 323 then islHostB
  else if 336 ≤ n ∧ n < 411 then islObserver
  else islMgmt

/-- A source number that never occurs (R388). -/
def srcReserved (n : Nat) : Bool :=
  decide (284 ≤ n ∧ n ≤ 287) || decide (332 ≤ n ∧ n ≤ 335) || decide (411 ≤ n ∧ n ≤ 415) || decide (512 ≤ n)

/-- The sources that can wake the device (R404). -/
def srcWakes (n : Nat) : Bool :=
  decide (192 ≤ n ∧ n ≤ 255) || n == 322 || n == 323 || n == 330 || n == 331 ||
  decide (336 ≤ n ∧ n ≤ 351) || decide (384 ≤ n ∧ n ≤ 399)

/-- The gate words as they stood at the start of the cycle (R472). -/
def Chip.gateWords (m : Chip) : Nat × Nat := m.cycle.gates.getD (m.rd CLK_GATE0, m.rd CLK_GATE1)

/-- A block's clock gate is open: word 0 or 1, bit; a write of the gate words acts from the next cycle on (R472, R495). -/
def Chip.ungated (m : Chip) (word bit : Nat) : Bool := bitAt (if word = 0 then m.gateWords.1 else m.gateWords.2) bit

/-- The clock gate of a source's block is closed, so it makes no occurrence (R472). -/
def Chip.srcGated (m : Chip) (n : Nat) : Bool :=
  if 336 ≤ n ∧ n < 352 then !m.ungated 0 (4 + (n - 336))
  else if 352 ≤ n ∧ n < 384 then !m.ungated 0 ((n - 352) / 8)
  else if 400 ≤ n ∧ n < 404 then !m.ungated 0 (20 + (n - 400))
  else if n = 404 then !m.ungated 0 24
  else if 405 ≤ n ∧ n < 411 then !m.ungated 0 (25 + (n - 405))
  else if 384 ≤ n ∧ n < 400 then !m.ungated 1 (n - 384)
  else if 312 ≤ n ∧ n < 320 then !m.ungated 1 (16 + (n - 312))
  else false

/-- Records in a port's queue (R348). -/
def Chip.queueLen (m : Chip) (p : Nat) : Nat := ofSigned 13 ((m.rd HP_Q_TAIL p : Int) - (m.rd HP_Q_HEAD p : Int))

/-- The queue of a port holds 4096 records (R400). -/
def Chip.queueFull (m : Chip) (p : Nat) : Bool := decide (4096 ≤ m.queueLen p)

def Chip.accum (m : Chip) (p k : Nat) : Accum := tabGet m.accums (p * 1024 + k) {}
def Chip.setAccum (m : Chip) (p k : Nat) (a : Accum) : Chip := { m with accums := tabPut m.accums (p * 1024 + k) a }

/-- A happening collects in an accumulator of a port (R398, R400). -/
def Chip.collect (m : Chip) (p k t data : Nat) : Chip :=
  let a := m.accum p k
  if a.cnt = 0 then m.setAccum p k ⟨1, t, false, data⟩
  else
    let full := m.queueFull p
    let m := m.setAccum p k ⟨min (a.cnt + 1) 255, a.tb, a.ovf || full || a.cnt == 255, data⟩
    if full then m.count INT_QOVF_CNT (p + 2) else m

/-- Every island runs again (R481); the watchdogs go on from where the sleep held them. -/
def Chip.awake (m : Chip) : Chip :=
  { m with asleep := false, sys := { m.sys with wdtV := m.tb - m.sys.wdtV, wdtC := m.tb - m.sys.wdtC } }

/-- Wake from sleep by a source (R404): every island runs again. -/
def Chip.wakeBy (m : Chip) (n : Nat) : Chip :=
  (m.awake.wr INT_WAKE_SRC_SRC 0 n).wrB INT_WAKE_SRC_VALID 0 true

/-- The pending bit of a core target after an occurrence (R387, R395, R396). -/
def Chip.pendCore (m : Chip) (n t : Nat) : Chip :=
  if bitAt (m.rd INT_SRC_TGT n) t && !(bitAt (m.rd INT_SRC_ACT n) t && m.rdB INT_SRC_LVL n) then
    m.wr INT_SRC_PEND n (setBit (m.rd INT_SRC_PEND n) t)
  else m

/-- The accumulator of a host target after an occurrence (R387, R398). -/
def Chip.pendHost (m : Chip) (n p t : Nat) : Chip :=
  if bitAt (m.rd INT_SRC_TGT n) (p + 2) then
    (m.collect p n t 0).wr INT_SRC_PEND n (setBit (m.rd INT_SRC_PEND n) (p + 2))
  else m

/-- A source is enabled to wake the device (R404). -/
def Chip.canWake (m : Chip) (n : Nat) : Bool := srcWakes n && bitAt (m.rd INT_WAKE (n / 32)) (n % 32)

/-- An occurrence of a wake source is kept for the entry of sleep in its cycle (R481). -/
def Chip.noteWake (m : Chip) (n : Nat) : Chip :=
  if m.canWake n then m.setCycle { m.cycle with wakes := n :: m.cycle.wakes } else m

/-- An occurrence of a source (R386, R387, R404). -/
def Chip.occur (m : Chip) (n : Nat) : Chip :=
  if srcReserved n || m.srcGated n then m
  else
    let m := if m.asleep && m.canWake n then m.wakeBy n else m.noteWake n
    let t := m.tbOf (srcIsland n)
    (((m.pendCore n 0).pendCore n 1).pendHost n 0 t).pendHost n 1 t

/-- A bit of a flags register sets; it is an occurrence of its source when its enable is 1 and it was not 1 before (R386). -/
def Chip.raise (m : Chip) (fl ie : Field) (i b src : Nat) : Chip :=
  let was := bitAt (m.rd fl i) b
  let m := m.setFlag fl i b
  if !was && bitAt (m.rd ie i) b then m.occur src else m

/-- A write of a flags register's enables: a bit that becomes 1 over a standing flag is an occurrence (R386). -/
def Chip.enable (m : Chip) (fl ie : Field) (i src v : Nat) : Chip :=
  let old := m.rd ie i
  let m := m.wr ie i v
  if m.rd ie i &&& m.rd fl i ≠ 0 ∧ (m.rd ie i &&& m.rd fl i) ≠ (old &&& m.rd ie i &&& m.rd fl i) then m.occur src else m

/-- A flag of a channel, a wheel, Mandrel, a channel's drive, a bank and so on, by its rule. -/
def Chip.chFlag (m : Chip) (ch b : Nat) : Chip := m.raise CH_FLAGS CH_IE ch b ch
def Chip.whlFlag (m : Chip) (n b : Nat) : Chip := m.raise WHL_FLAGS WHL_IE n b (192 + n)
def Chip.bkFlag (m : Chip) (n b : Nat) : Chip := m.raise BK_FLAGS BK_IE n b (256 + n)
def Chip.bstFlag (m : Chip) (b : Nat) : Chip := m.raise BST_FLAGS BST_IE 0 b 280
def Chip.pwrFlag (m : Chip) (d b : Nat) : Chip := m.raise PWR_FLAGS PWR_IE d b (281 + d)
def Chip.mdlFlag (m : Chip) (b : Nat) : Chip := m.raise MDL_FLAGS MDL_IE 0 b 283
def Chip.dgbFlag (m : Chip) (n b : Nat) : Chip := m.raise DGB_FLAGS DGB_IE n b (288 + n)
def Chip.capFlag (m : Chip) (c b : Nat) : Chip := m.raise CAP_FLAGS CAP_IE c b (312 + c)
def Chip.mapFlag (m : Chip) (b : Nat) : Chip := m.raise MAP_FLAGS MAP_IE 0 b 320
def Chip.ncFlag (m : Chip) (b : Nat) : Chip := m.raise NC_FLAGS NC_IE 0 b 321
def Chip.hpFlag (m : Chip) (p b : Nat) : Chip := m.raise HP_FLAGS HP_IE p b (322 + p)
def Chip.adcFlag (m : Chip) (u b : Nat) : Chip := m.raise ADC_FLAGS ADC_IE u b (400 + u)
def Chip.asFlag (m : Chip) (b : Nat) : Chip := m.raise AS_FLAGS AS_IE 0 b 404
def Chip.cmpFlag (m : Chip) (n b : Nat) : Chip := m.raise CMP_FLAGS CMP_IE n b (384 + n)
def Chip.feFlag (m : Chip) (e b : Nat) : Chip := m.raise FE_FLAGS FE_IE e b (352 + e)
def Chip.timFlag (m : Chip) (n b : Nat) : Chip := m.raise TIM_FLAGS TIM_IE n b (336 + n)
def Chip.supmFlag (m : Chip) (b : Nat) : Chip := m.raise SUPM_FLAGS SUPM_IE 0 b 330
def Chip.supFlag (m : Chip) (b : Nat) : Chip := m.raise SUP_FLAGS SUP_IE 0 b 331

/-- A bit of SYS_FLT_FLAGS: each is a source of its own (R493). -/
def Chip.sysFlag (m : Chip) (b : Nat) : Chip := m.raise SYS_FLT_FLAGS SYS_FLT_IE 0 b (325 + b)

/-! ## Owners and roles (R320, R487) -/

/-- The owner number of a writer: 0 Anvil-C, 1 HOST-A, 2 HOST-B; Anvil-V owns nothing. -/
def writerCode : Writer → Nat
  | .anvilC => 0
  | .hostA => 1
  | .hostB => 2
  | .anvilV => 4

/-- The owner of a channel (R487). -/
def Chip.chOwner (m : Chip) (ch : Nat) : Nat := m.rd PROT_CH_OWN (ch / 16) / 2 ^ (2 * (ch % 16)) % 4

/-- The owner of an axis (R487). -/
def Chip.axOwner (m : Chip) (a : Nat) : Nat := m.rd PROT_AX_OWN (a / 16) / 2 ^ (2 * (a % 16)) % 4

/-- Rank of an owner (R36, R130, R487): HOST-B above HOST-A above Anvil-C above none. -/
def ownerRank (o : Nat) : Nat := if o = 2 then 3 else if o = 1 then 2 else if o = 0 then 1 else 0

/-- The writer may write directly at all (R487). -/
def Chip.dwOk (m : Chip) (w : Writer) : Bool :=
  match w with
  | .anvilC => bitAt (m.rd PROT_DW) 0
  | .hostA => bitAt (m.rd PROT_DW) 1
  | .hostB => bitAt (m.rd PROT_DW) 2
  | .anvilV => true

/-- The writer may write directly and is the owner or role holder named. -/
def Chip.isOwner (m : Chip) (w : Writer) (o : Nat) : Bool := writerCode w == o && m.dwOk w

/-- The port number of a host writer. -/
def writerPort : Writer → Option Nat
  | .hostA => some 0
  | .hostB => some 1
  | _ => none

/-- The system owner and Anvil-V write (R320, R452). -/
def Chip.sysOk (m : Chip) (w : Writer) : Bool := w == .anvilV || m.isOwner w (m.rd PROT_ROLE_SYSTEM)

/-! ## Outcomes -/

/-- A command that changes the block alone. -/
def State.upd (s : State) (f : Chip → Chip) : Host.Outcome State Fault Refusal := .next { s with chip := f s.chip }

end Sys2Proof.Machine
end

