-- ==== Sys2Proof/Machine/MandrelOps.lean ====
section
/-! DEFINITION. Operations of Mandrel's slots, fusion and axes (03 R81-R124). -/

namespace Sys2Proof.Machine

/-- A signed value into a field; a value the field cannot hold is not stated, so a free value stands there. -/
def Chip.wrFit (m : Chip) (f : Field) (i : Nat) (v : Int) : Chip :=
  if -(2 ^ (f.w - 1) : Nat) ≤ v ∧ v < (2 ^ (f.w - 1) : Nat) then m.wrI f i v
  else let (x, m) := m.free; m.wrI f i x

/-- A signed value into a field that saturates (R70, R95, R104). -/
def Chip.wrSat (m : Chip) (f : Field) (i : Nat) (v : Int) : Chip :=
  m.wrI f i (clampI (-(2 ^ (f.w - 1) : Nat)) ((2 ^ (f.w - 1) : Nat) - 1) v)

def Chip.slot (m : Chip) (k : Nat) : Slot := tabGet m.mdl.slots k {}
def Chip.setSlot (m : Chip) (k : Nat) (x : Slot) : Chip := { m with mdl := { m.mdl with slots := tabPut m.mdl.slots k x } }

/-- Slot states of the table before R91. -/
def slotOff : Nat := 0
def slotAcq : Nat := 1
def slotTrack : Nat := 2
def slotStopped : Nat := 3
def slotSlip : Nat := 4
def slotLost : Nat := 5

/-- The pose loop's number among the slots. -/
def poseSlot : Nat := 8

def Chip.slotState (m : Chip) (k : Nat) : Nat := if k = poseSlot then m.rd MDL_POSE_STAT_LOOP else m.rd MDL_SRC_STAT_STATE k
def Chip.setSlotState (m : Chip) (k st : Nat) : Chip :=
  if k = poseSlot then m.wr MDL_POSE_STAT_LOOP 0 st else m.wr MDL_SRC_STAT_STATE k st

/-- A slot flag, and SRC_EVT (R121); the pose loop has no flags register. -/
def Chip.srcFlag (m : Chip) (k b : Nat) : Chip :=
  if k = poseSlot then m
  else (m.setFlag MDL_SRC_FLAGS k b).mdlFlag MDL_FLAGS_SRC_EVT

/-- One count of a slot in pu, with 32 fraction bits (R83). -/
def Chip.slotScale (m : Chip) (k : Nat) : Int :=
  if m.rdB MDL_SRC_CFG_LEARN k then (m.slot k).learned / 65536 else (m.rd MDL_SRC_SCALE k : Int) * 65536

/-- The loop's natural frequency in rad/s (R88, R105): bandwidths in 0.1 Hz, 0 acts as 1. -/
def Chip.slotOmega (m : Chip) (k : Nat) : Int :=
  omegaOf (max 1 (if k = poseSlot then m.rd MDL_POSE_LOOP_BW else m.rd MDL_SRC_LOOP_BW k)) 10

/-- A slot that takes part in the chassis (R86). -/
def Chip.chassisSlot (m : Chip) (k : Nat) : Bool := m.rdB MDL_SRC_CFG_EN k && !m.rdB MDL_SRC_CFG_NOCH k

def Chip.live (m : Chip) (k : Nat) : Bool := m.slotState k == slotTrack || m.slotState k == slotStopped

/-- The three sets of the fusion (03, Fusion and chassis states). -/
def Chip.set1 (m : Chip) : List Nat :=
  (List.range 8).filter fun k => m.chassisSlot k && m.rd MDL_SRC_CFG_WEIGHT k != 0 && m.live k
def Chip.set2 (m : Chip) : List Nat :=
  ((List.range 8).filter fun k => m.chassisSlot k && m.rd MDL_SRC_CFG_WEIGHT k == 0 && m.live k) ++
    (if m.live poseSlot then [poseSlot] else [])
def Chip.set3 (m : Chip) : List Nat := (List.range 8).filter fun k => m.chassisSlot k && m.slotState k == slotSlip

/-- The active set, and whether it is set 1, fused by weight. -/
def Chip.activeSet (m : Chip) : Bool × List Nat :=
  if m.set1 ≠ [] then (true, m.set1) else if m.set2 ≠ [] then (false, m.set2) else (false, m.set3)

/-- A slot's speed in the fusion: 0 in STOPPED. -/
def Chip.slotV (m : Chip) (k : Nat) : Int := if m.slotState k = slotStopped then 0 else (m.slot k).v

/-- The weighted mean of a figure over slots; equal weights unless weights are asked for and not all 0. -/
def Chip.wmean (m : Chip) (byWeight : Bool) (ks : List Nat) (f : Nat → Int) : Int :=
  let w := fun k : Nat => if byWeight then (m.rd MDL_SRC_CFG_WEIGHT k : Int) else 1
  let tot := ks.foldl (fun a k => a + w k) 0
  if tot = 0 then 0 else ks.foldl (fun a k => a + w k * f k) 0 / tot

/-- The mean speed of the other slots of the active set, where there are any (R91, R92). -/
def Chip.vOthers (m : Chip) (k : Nat) : Option Int :=
  let (byW, ks) := m.activeSet
  let os := ks.filter (· ≠ k)
  if os = [] then none else some (m.wmean byW os m.slotV)

/-- STILL_V in pu/s with 32 fraction bits. -/
def Chip.stillV (m : Chip) : Int := fx (m.rd MDL_STILL_STILL_V * 256)

/-- A slot loses its source (R91). -/
def Chip.slotLose (m : Chip) (k : Nat) : Chip :=
  let st := m.slotState k
  if st = slotOff ∨ st = slotLost then m else (m.setSlotState k slotLost).srcFlag k 3

/-- |r| of R92 against a threshold in per mille: abs(v - ref) * 1000 compared with thr * abs(ref). -/
def slipFails (v ref : Int) (thr : Nat) : Bool := decide ((thr : Int) * absI ref < absI (v - ref) * 1000)

/-- The speed below which no slip ratio is formed: 1000 mm/s (R92). -/
def slipFloor : Int := fx 256000

/-- The end of acquisition: TRACK, or SLIP when the entry slip test fails (R91); a slot with NOCH takes no part in slip tests (R86). -/
def Chip.acqEnd (m : Chip) (k : Nat) : Chip :=
  match m.vOthers k with
  | none => (m.setSlotState k slotTrack).srcFlag k 0
  | some r =>
    if m.chassisSlot k ∧ slipFloor ≤ absI r ∧ slipFails (m.slot k).v r (m.slot k).slipThr then
      ((m.setSlotState k slotSlip).srcFlag k 0).srcFlag k 7
    else (m.setSlotState k slotTrack).srcFlag k 0

/-- R122: sigma_j,k of a slot in pu, with 32 fraction bits, from its last 64 accepted measurements. -/
def Chip.slotSigma (m : Chip) (k : Nat) : Int × Nat :=
  let x := m.slot k
  let rms := isqrt ((x.jitter.foldl (fun a j => a + j * j) 0) / 64).toNat
  let root := isqrt ((m.slotOmega k * 106 * x.ivl / 20000000000).toNat * 4294967296)
  (absI x.v * rms * root / (2560000000 * fxOne), rms)

/-- R95: the jitter figures of a slot, 0 until 64 measurements have been accepted. -/
def Chip.slotFigures (m : Chip) (k : Nat) : Nat × Nat :=
  if (m.slot k).jitter.length < 64 then (0, 0)
  else
    let (sig, rms) := m.slotSigma k
    (min (rms / 256) 65535, min (sig * 16 / fxOne).toNat 65535)

/-- R99: counts move the chassis in STILL. -/
def Chip.stillCount (m : Chip) (k : Nat) (d : Int) : Chip :=
  let ks := m.activeSet.2
  if m.rd MDL_STAT_STATE = 4 ∧ k ∈ ks then { m with mdl := { m.mdl with stillAcc := m.mdl.stillAcc + d / (ks.length : Int) } } else m

/-- An accepted measurement with innovation e (R88), and what it brings the slot's state (R91). The pose loop, whose counts R105 does not give,
enters TRACK at its first accepted measurement, and LOST after MDL_POSE_CFG.REJ_MAX rejections (DESIGN CHOICE, log entry 137). -/
def Chip.slotAccept (m : Chip) (k : Nat) (x : Slot) (e : Int) (te : Nat) : Chip :=
  let t : Int := (te : Int) - (x.lastTb.getD te : Nat)
  let w := m.slotOmega k
  let g1 := minI fxOne (w * 1414 * t / (1000 * 200000000))
  let g2 := if t ≤ 0 then fxMul w w * t / 200000000 else minI (200000000 * fxOne / t) (fxMul w w * t / 200000000)
  let v := x.v + fxMul g2 e
  let j := if v = 0 then x.jitter else (e * 2560000000 / v :: x.jitter).take 64
  let x := { x with s := x.s + fxMul g1 e, v := v, lastTb := some te, ivl := t.toNat, jitter := j, rejects := 0, accepted := x.accepted + 1 }
  let m := m.setSlot k x
  let need := if k = poseSlot then 1 else max 1 (m.rd MDL_SRC_LOOP_ACQ_EDGES k)
  let m := if m.slotState k = slotAcq ∧ need ≤ x.accepted then m.acqEnd k else m
  let (jit, sig) := m.slotFigures k
  if k = poseSlot then m else (m.wr MDL_SRC_JIT k jit).wr MDL_SRC_SIGMA k sig

/-- The count correction of R89: j from 1 to 3 in magnitude, nearest first. -/
def toothCorr (e s g : Int) : Option Int :=
  ([1, -1, 2, -2, 3, -3] : List Int).find? fun j => decide (absI (e - j * s) ≤ g)

/-- Entry into ACQ (R91): M_k kept, s-hat on it, no speed, the next measurement a start edge (R90), the figures of R95 begun again. -/
def Chip.slotAcquire (m : Chip) (k : Nat) : Chip :=
  let x := m.slot k
  let m := (m.setSlotState k slotAcq).setSlot k
    { x with s := x.meas, sTick := x.meas, v := 0, startPend := true, speedPend := false, accepted := 0, rejects := 0, jitter := [] }
  if k = poseSlot then m else (m.wr MDL_SRC_JIT k 0).wr MDL_SRC_SIGMA k 0

/-- A slot enters TRACK from STOPPED; one of the active set pulls the chassis out of STILL (R91, R99). -/
def Chip.slotPull (m : Chip) (k : Nat) : Chip :=
  ({ m with mdl := { m.mdl with pulled := m.mdl.pulled || m.activeSet.2.contains k } }).setSlotState k slotTrack

/-- A measurement of a slot (R88-R91): its change of position c (pu), its TB, its start mark, the gate and the size of a count. -/
def Chip.slotMeasure (m : Chip) (k : Nat) (c : Int) (te : Nat) (startMark : Bool) (gate count : Int) : Chip :=
  let st := m.slotState k
  if st = slotOff then m
  else
    let m := if st = slotLost then m.slotAcquire k else m
    let x := m.slot k
    let x := { x with meas := x.meas + c }
    if startMark || x.startPend then
      (m.setSlot k { x with s := x.meas, v := 0, startPend := false, speedPend := true, lastTb := some te, rejects := 0 }).stillCount k c
    else if x.speedPend then
      let t : Int := (te : Int) - (x.lastTb.getD te : Nat)
      let v := if t = 0 then 0 else c * 200000000 / t
      let m := m.setSlot k { x with s := x.meas, v := v, speedPend := false, lastTb := some te, ivl := t.toNat, rejects := 0 }
      let m := m.stillCount k c
      if m.slotState k = slotStopped then m.slotPull k else m
    else
      let e := x.meas - (x.s - x.v * ((m.mdl.tickTb : Int) - te) / 200000000)
      if absI e ≤ gate then (m.slotAccept k x e te).stillCount k c
      else
        match (if count = 0 then none else toothCorr e count gate) with
        | some j =>
          let m := m.count MDL_SRC_CNT_CORR k
          let m := m.srcFlag k 4
          (m.slotAccept k { x with meas := x.meas - j * count } (e - j * count) te).stillCount k (c - j * count)
        | none =>
          let m := if k = poseSlot then m else (m.count MDL_SRC_CNT_REJ k).srcFlag k 5
          let m := m.setSlot k { x with rejects := x.rejects + 1, accepted := 0 }
          let lim := if k = poseSlot then max 1 (m.rd MDL_POSE_CFG_REJ_MAX) else max 1 (m.rd MDL_SRC_LOOP_REJ_MAX k)
          if lim ≤ x.rejects + 1 then m.slotLose k else m

/-- A stop record (R91). The chassis speed is that of the other active slots; with no other active slot, and for a slot with NOCH, which takes no
part in the chassis (R86), the slot stops (DESIGN CHOICE, log entry 138). A stop record is a record: one in LOST begins an acquisition. -/
def Chip.slotStop (m : Chip) (k : Nat) : Chip :=
  let st := m.slotState k
  let x := m.slot k
  let fast : Bool := m.chassisSlot k && (match m.vOthers k with
    | none => false
    | some r => decide (m.stillV < absI r))
  if st = slotAcq then m.setSlot k { x with v := 0, accepted := 0 }
  else if st = slotTrack ∨ st = slotStopped then
    if fast then (m.setSlotState k slotSlip).srcFlag k 1
    else (m.setSlotState k slotStopped).setSlot k { x with v := 0 }
  else if st = slotSlip ∧ !fast then ((m.setSlotState k slotStopped).setSlot k { x with v := 0 }).srcFlag k 2
  else if st = slotLost then m.slotAcquire k
  else m

/-- The gate of R89 in pu with 32 fraction bits: 32 or above acts as 31. -/
def Chip.slotGate (m : Chip) (k : Nat) : Int := m.slotScale k * (min 31 (m.rd MDL_SRC_LOOP_GATE k)) / 64

/-- A record or word taken by a slot (R83). -/
def Chip.slotTake (m : Chip) (k : Nat) (r : EdgeRec) : Chip :=
  if r.stop then m.slotStop k
  else
    let c := if m.rdB MDL_SRC_CFG_SIGN k then -r.dcnt else r.dcnt
    m.slotMeasure k (c * m.slotScale k) r.tb r.start (m.slotGate k) (m.slotScale k)

/-- A record of a wheel input joins the inbox of each slot that takes that input (R83). -/
def Chip.slotsDeliver (m : Chip) (type input : Nat) (r : EdgeRec) : Chip :=
  (List.range 8).foldl (fun m k =>
    if m.rdB MDL_SRC_CFG_EN k ∧ m.rd MDL_SRC_CFG_TYPE k = type ∧ m.rd MDL_SRC_CFG_INPUT k = input then
      let x := m.slot k
      m.setSlot k { x with inbox := x.inbox ++ [r], wordTb := m.tb }
    else m) m

/-- A wheel input in OFF or FAULT: its slots lose it (R76, R91). -/
def Chip.slotsLoseWheel (m : Chip) (n : Nat) : Chip :=
  (List.range 8).foldl (fun m k =>
    if m.rdB MDL_SRC_CFG_EN k ∧ m.rd MDL_SRC_CFG_TYPE k = 0 ∧ m.rd MDL_SRC_CFG_INPUT k = n then m.slotLose k else m) m

/-! ## Slip and learning (R92-R94) -/

/-- R92: one slot's ratio, and its counters: failing evaluations count in TRACK, passing ones in SLIP. -/
def Chip.slipOne (m : Chip) (k : Nat) : Chip :=
  let st := m.slotState k
  let x := m.slot k
  if m.chassisSlot k ∧ (st = slotTrack ∨ st = slotSlip) then
    match m.vOthers k with
    | none => (m.wr MDL_SRC_RATIO k 0).setSlot k { x with passes := 0 }
    | some r =>
      if absI r < slipFloor then (m.wr MDL_SRC_RATIO k 0).setSlot k { x with passes := 0 }
      else
        let m := m.wrSat MDL_SRC_RATIO k ((x.v - r) * 1000 / r)
        let f := decide (st = slotTrack) && slipFails x.v r x.slipThr
        let p := decide (st = slotSlip) && decide (absI (x.v - r) * 2000 ≤ (x.slipThr : Int) * absI r)
        m.setSlot k { x with fails := (if f then x.fails + 1 else 0), passes := (if p then x.passes + 1 else 0) }
  else (m.wr MDL_SRC_RATIO k 0).setSlot k { x with fails := 0, passes := 0 }

/-- R92, R93: the slots that fail now. -/
def Chip.slipFailing (m : Chip) : List Nat :=
  (List.range 8).filter fun k => m.chassisSlot k && m.slotState k == slotTrack &&
    decide (max 1 (m.slot k).slipMs ≤ (m.slot k).fails)

/-- R93: failing slots enter SLIP, but for those of the highest rank when nothing else would be left. -/
def Chip.slipEnter (m : Chip) : Chip :=
  let fs := m.slipFailing
  let left := (m.set1 ++ m.set2).filter fun k => !fs.contains k
  let top := fs.foldl (fun a k => max a (m.rd MDL_SRC_CFG_RANK k)) 0
  let go := if left = [] then fs.filter fun k => decide (m.rd MDL_SRC_CFG_RANK k < top) else fs
  let m := if left = [] ∧ go.length + 2 ≤ fs.length then m.mdlFlag MDL_FLAGS_SLIP_AMBIG else m
  go.foldl (fun m k => ((m.setSlotState k slotSlip).setSlot k { m.slot k with fails := 0, passes := 0 }).srcFlag k 1) m

/-- R91: a slot rejoins. -/
def Chip.slipRejoin (m : Chip) (k : Nat) : Chip :=
  if m.slotState k = slotSlip ∧ max 1 (m.slot k).rejoinMs ≤ (m.slot k).passes then
    ((m.setSlotState k slotTrack).setSlot k { m.slot k with fails := 0, passes := 0 }).srcFlag k 2
  else m

/-- R94: one slot's learned scale. -/
def Chip.learnOne (m : Chip) (k : Nat) : Chip :=
  let hs := (List.range 8).filter fun j =>
    m.chassisSlot j && m.slotState j == slotTrack && decide (m.rd MDL_SRC_CFG_RANK k < m.rd MDL_SRC_CFG_RANK j)
  if m.rdB MDL_SRC_CFG_LEARN k ∧ m.slotState k = slotTrack ∧ hs ≠ [] ∧ slipFloor ≤ absI m.mdl.v then
    let byW := hs.any fun j => m.rd MDL_SRC_CFG_WEIGHT j != 0
    let ref := m.wmean byW hs m.slotV
    if ref = 0 then m
    else
      let x := m.slot k
      let tc : Int := max 1 x.learnTc
      let l := x.learned - x.learned * (x.v - ref) / ref / (1000 * tc)
      let base : Int := (m.rd MDL_SRC_SCALE k : Int) * fxOne
      let lim : Int := x.learnLim
      let c := clampI (base * (1000 - lim) / 1000) (base * (1000 + lim) / 1000) l
      let m := (m.setSlot k { x with learned := c }).wr MDL_SRC_SCALE_L k (c / fxOne).toNat
      if c = l then m else m.srcFlag k 6
  else m

/-- MDL_SRC_SLIP and MDL_SRC_LEARN of a slot take effect (R84). -/
def Chip.slotAdopt (m : Chip) (k : Nat) : Chip :=
  m.setSlot k { m.slot k with
    slipThr := m.rd MDL_SRC_SLIP_THR k, slipMs := m.rd MDL_SRC_SLIP_SLIP_MS k, rejoinMs := m.rd MDL_SRC_SLIP_REJOIN_MS k
    learnLim := m.rd MDL_SRC_LEARN_LIM k, learnTc := m.rd MDL_SRC_LEARN_TC k }

/-- The scale before learning (R94). -/
def Chip.learnClear (m : Chip) (k : Nat) : Chip :=
  (m.setSlot k { m.slot k with learned := (m.rd MDL_SRC_SCALE k : Int) * fxOne }).wr MDL_SRC_SCALE_L k (m.rd MDL_SRC_SCALE k)

/-! ## History (R100) -/

/-- The chassis as a history entry, at the latest tick. -/
def Chip.histNow (m : Chip) : HistEntry := ⟨m.mdl.tickTb, m.mdl.s, (m.slot poseSlot).s, m.mdl.psi, m.mdl.e, m.mdl.n⟩

/-- Linear interpolation between two history entries at t. -/
def histBetween (new old : HistEntry) (t : Nat) : HistEntry :=
  let d : Int := (new.tb : Int) - old.tb
  let f := fun a b : Int => if d = 0 then a else b + (a - b) * ((t : Int) - old.tb) / d
  ⟨t, f new.s old.s, f new.sP old.sP, f new.psi old.psi, f new.e old.e, f new.n old.n⟩

/-- The value at a TB in a list of entries, newest first: interpolated, or the nearest end. -/
def histAt (h : HistEntry) (l : List HistEntry) (t : Nat) : HistEntry :=
  match l with
  | [] => h
  | o :: r => if h.tb ≤ t then h else if o.tb ≤ t then histBetween h o t else histAt o r t

def Chip.histAtTb (m : Chip) (t : Nat) : HistEntry := histAt m.histNow m.mdl.hist t

/-! ## Yaw (R107-R109) -/

def Chip.yawSrc (m : Chip) (c : Nat) : YawSrc := tabGet m.mdl.yaw c {}

/-- A code of MDL_YAW_CFG as it acts: 5-7 act as 0. -/
def yawCode (c : Nat) : Nat := if 4 < c then 0 else c

/-- A yaw source is live (R108). -/
def Chip.yawLive (m : Chip) (c : Nat) : Bool :=
  match (m.yawSrc c).tb with
  | none => false
  | some t =>
    if c = 0 then false
    else decide (m.tb ≤ t + (if c = 4 then m.rd MDL_POSE_TMO_TMO else m.rd MDL_YAW_TRACK_TMO) * msTb)

/-- The active source is chosen (R108). -/
def Chip.yawSelect (m : Chip) : Chip :=
  let p := yawCode (m.rd MDL_YAW_CFG_PRI)
  let q := yawCode (m.rd MDL_YAW_CFG_SEC)
  let was := m.rd MDL_STAT_YAW_ACT
  let now := if m.yawLive p then p else if m.yawLive q then q else 0
  let m := m.wr MDL_STAT_YAW_ACT 0 now
  let m := if was ≠ 0 ∧ was = p ∧ now = q ∧ p ≠ q ∧ now ≠ 0 then m.mdlFlag MDL_FLAGS_YAW_FALLBACK else m
  let m := if was ≠ 0 ∧ now = 0 then m.mdlFlag MDL_FLAGS_YAW_LOST else m
  { m with mdl := { m.mdl with omega := if now = 0 then 0 else (m.yawSrc now).rate } }

/-- A sample of a yaw source, stamped ts (R107, R109): the correction is made at the next prediction tick. -/
def Chip.yawSample (m : Chip) (c : Nat) (rate : Int) (ts : Nat) : Chip :=
  let m := { m with mdl := { m.mdl with yaw := tabPut m.mdl.yaw c ⟨rate, some m.tb⟩ } }
  let old := m.mdl.omega
  let m := m.yawSelect
  if m.rd MDL_STAT_YAW_ACT = c then
    { m with mdl := { m.mdl with rateAcc := m.mdl.rateAcc + (rate - old), rateTbAcc := m.mdl.rateTbAcc + (rate - old) * ts } }
  else m

/-- The wheel pair's sample of a tick (R107 code 3); a slot with NOCH takes no part in the chassis state (R86). -/
def Chip.yawPair (m : Chip) : Chip :=
  let wl := m.rd MDL_YAW_CFG_WL
  let wr := m.rd MDL_YAW_CFG_WR
  if (m.rd MDL_YAW_CFG_PRI = 3 ∨ m.rd MDL_YAW_CFG_SEC = 3) ∧
      m.chassisSlot wl ∧ m.chassisSlot wr ∧ m.slotState wl = slotTrack ∧ m.slotState wr = slotTrack then
    let d := (m.slot wr).v - (m.slot wl).v
    let tr := m.rd MDL_YAW_TRACK_TRACK
    let (rate, m) := if tr = 0 then m.free else (d * 1000000 / (256 * (tr : Int)), m)
    { m with mdl := { m.mdl with yaw := tabPut m.mdl.yaw 3 ⟨rate, some m.tb⟩ } }
  else m

/-- The published yaw rate: the source rate less the bias; 0 in STILL and without a source (R108, R109). -/
def Chip.omegaPub (m : Chip) : Int :=
  if m.rd MDL_STAT_STATE = 4 ∨ m.rd MDL_STAT_YAW_ACT = 0 then 0 else m.mdl.omega - m.mdl.bias

/-- A yaw change in urad/s times us, both with 32 fraction bits, in 1/2^32 turn. -/
def yawTurns (x : Int) : Int := x * 68356527558 / 100000000000000

/-! ## Deflection (R110, R111) -/

def Chip.dfl (m : Chip) (d : Nat) : Defl := tabGet m.mdl.defl d {}

/-- A raw value joins the inbox of a deflection input (R110). -/
def Chip.deflOffer (m : Chip) (d : Nat) (raw : Int) : Chip :=
  let x := m.dfl d
  { m with mdl := { m.mdl with defl := tabPut m.mdl.defl d { x with inbox := x.inbox ++ [raw] } } }

/-- A raw value of a deflection input, converted; the filter goes on from the d it holds (R110, R111). -/
def Chip.deflTake (m : Chip) (d : Nat) (raw : Int) : Chip :=
  { m with mdl := { m.mdl with defl := tabPut m.mdl.defl d { m.dfl d with
    target := (raw - m.rdI MDL_DF_OFS d) * m.rdI MDL_DF_SCALE d * 65536, tb := some m.tb, lost := false } } }

/-- The filter of a deflection input over a tick: first order at MDL_DF_CFG.BW towards the latest value; d holds without a source and while the
input is lost (R110, R111). -/
def Chip.deflTick (m : Chip) (d : Nat) : Chip :=
  let x := m.dfl d
  let on := m.rd MDL_DF_CFG_SRC d != 0 && !x.lost && x.tb.isSome
  let rate := if on then fxMul (omegaOf (max 1 (m.rd MDL_DF_CFG_BW d)) 1) (x.target - x.d) else 0
  let nd := x.d + rate / 1000000
  ({ m with mdl := { m.mdl with defl := tabPut m.mdl.defl d { x with d := nd, dTick := x.d, rate := rate } } }).wrFit MDL_DF_VAL d (fxInt nd)

/-! ## The prediction tick (R82, R87, R96-R99, R104, R109) -/

/-- One slot's propagation over a tick (R87). -/
def Chip.slotTick (m : Chip) (k : Nat) : Chip :=
  let st := m.slotState k
  let x := m.slot k
  let x := if st = slotAcq ∨ st = slotTrack ∨ st = slotSlip then
      { x with s := x.s + x.v / 1000000 + m.mdl.a / 2000000000000, v := x.v + m.mdl.a / 1000000 }
    else x
  let m := m.setSlot k { x with inc := x.s - x.sTick, sTick := x.s }
  if k = poseSlot then m.wrFit MDL_POSE_V 0 (fxInt x.v)
  else (m.wrFit MDL_SRC_V k (fxInt x.v)).wrB MDL_SRC_STAT_DIR k (decide (x.v < 0))

/-- The slots that are on. -/
def Chip.slotsOn (m : Chip) : List Nat := (List.range 9).filter fun k => m.slotState k != slotOff

/-- The chassis enters a state (R98). -/
def Chip.chassisTo (m : Chip) (st : Nat) : Chip :=
  let old := m.rd MDL_STAT_STATE
  if old = st then m
  else
    let m := (m.wr MDL_STAT_STATE 0 st).mdlFlag MDL_FLAGS_STATE_CHG
    let m := if old = 4 then m.mdlFlag MDL_FLAGS_STILL_OUT else m
    let m := if st = 4 then m.mdlFlag MDL_FLAGS_STILL_IN
      else if st = 5 then m.mdlFlag MDL_FLAGS_COAST_IN
      else if st = 6 then m.mdlFlag MDL_FLAGS_INVALID_IN
      else m
    { m with mdl := { m.mdl with a := 0, coastAt := m.tb, v := if st = 5 ∨ st = 2 ∨ st = 3 then m.mdl.v else 0 } }

/-- R99: the still condition. -/
def Chip.stillHolds (m : Chip) : Bool :=
  let ks := m.activeSet.2
  ks != [] && (ks.all (fun k => m.slotState k == slotStopped) || m.mdl.lowHeld) &&
    decide (absI m.omegaPub < fx (m.rd MDL_STILL_STILL_YAW * 1000))

/-- R99: the exit condition of STILL; the yaw rate is the source's, since the published one reads 0 there. -/
def Chip.stillEnds (m : Chip) : Bool :=
  m.mdl.pulled || m.activeSet.2.any (fun k => decide (2 * m.stillV ≤ absI (m.slotV k))) ||
    decide (fx (m.rd MDL_STILL_STILL_YAW * 1000) ≤ absI (if m.rd MDL_STAT_YAW_ACT = 0 then 0 else m.mdl.omega - m.mdl.bias))

/-- The state changes of R98 that a tick brings. -/
def Chip.chassisStep (m : Chip) : Chip :=
  let st := m.rd MDL_STAT_STATE
  let bySet := if m.set1 ≠ [] then 2 else 3
  let none' := m.activeSet.2 = []
  if st = 1 ∨ st = 5 ∨ st = 6 then if none' then m else m.chassisTo bySet
  else if st = 2 ∨ st = 3 then if none' then m.chassisTo 5 else if m.stillHolds then m.chassisTo 4 else m.chassisTo bySet
  else if st = 4 then if none' then m.chassisTo 5 else if m.stillEnds then m.chassisTo bySet else m
  else m

/-- The low-speed clock of R99. -/
def Chip.lowClock (m : Chip) : Chip :=
  if absI m.mdl.v < m.stillV then
    { m with mdl := { m.mdl with lowSince := some (m.mdl.lowSince.getD m.tb) } }
  else { m with mdl := { m.mdl with lowSince := none, lowHeld := false } }

/-- The chassis distance, speed and acceleration of the tick (R96, R97). -/
def Chip.chassisMove (m : Chip) (was : Nat) : Chip :=
  let st := m.rd MDL_STAT_STATE
  let (byW, ks) := m.activeSet
  if st = 2 ∨ st = 3 then
    let ds := m.wmean byW ks (fun k => (m.slot k).inc)
    let v := m.wmean byW ks m.slotV
    let bw := max 1 (m.rd MDL_CFG_ACC_BW)
    let a := if was = st then m.mdl.a + ((v - m.mdl.v) * 1000000 - m.mdl.a) * (bw * 628318531 : Nat) / 1000000000000000 else 0
    { m with mdl := { m.mdl with ds := ds, s := m.mdl.s + ds, v := v, a := a } }
  else if st = 4 then { m with mdl := { m.mdl with ds := m.mdl.stillAcc, s := m.mdl.s + m.mdl.stillAcc, v := 0, a := 0 } }
  else if st = 5 then
    let ds := m.mdl.v / 1000000
    { m with mdl := { m.mdl with ds := ds, s := m.mdl.s + ds, a := 0 } }
  else { m with mdl := { m.mdl with ds := 0, v := 0, a := 0 } }

/-- The yaw of the tick with the corrections of the samples since the tick before (R109), and the filtered derivative of the published yaw rate
(R116). -/
def Chip.yawMove (m : Chip) : Chip :=
  let bw := max 1 (m.rd MDL_CFG_ACC_BW)
  let al := m.mdl.alpha + ((m.omegaPub - m.mdl.pub.rate) * 1000000 - m.mdl.alpha) * (bw * 628318531 : Nat) / 1000000000000000
  if m.rd MDL_STAT_STATE = 4 then { m with mdl := { m.mdl with dpsi := 0, rateAcc := 0, rateTbAcc := 0, alpha := al } }
  else
    let src := if m.rd MDL_STAT_YAW_ACT = 0 then 0 else m.mdl.omega
    let d := src - m.mdl.bias + (m.mdl.rateAcc * m.mdl.tickTb - m.mdl.rateTbAcc) / 200
    { m with mdl := { m.mdl with dpsi := d, rateAcc := 0, rateTbAcc := 0, psi := m.mdl.psi + yawTurns d, alpha := al } }

/-- The wrapped yaw (R82). -/
def Chip.psiPub (m : Chip) : Nat := ofSigned 32 (fxInt m.mdl.psi)

/-- A field coordinate held in the signed 32-bit range (R104). -/
def fieldClamp (x : Int) : Int := clampI (fx (-2147483648)) (fx 2147483647) x

/-- E_c and N_c moved, held in their range (R104). -/
def Chip.fieldTo (m : Chip) (e n : Int) : Chip :=
  let m := if fieldClamp e ≠ e ∨ fieldClamp n ≠ n then m.mdlFlag MDL_FLAGS_FIELD_RANGE else m
  { m with mdl := { m.mdl with e := fieldClamp e, n := fieldClamp n } }

/-- The field position of the tick (R103, R104). -/
def Chip.fieldMove (m : Chip) : Chip :=
  let f := m.psiPub
  let k : Int := (m.rd MDL_POSE_CFG_POS_BW * 628318531 : Nat)
  let ce := m.mdl.corrE * k / 10000000000000000
  let cn := m.mdl.corrN * k / 10000000000000000
  let m := m.fieldTo (m.mdl.e + fxMul m.mdl.ds (cosTurn f) / 256 + ce) (m.mdl.n + fxMul m.mdl.ds (sinTurn f) / 256 + cn)
  { m with mdl := { m.mdl with corrE := m.mdl.corrE - ce, corrN := m.mdl.corrN - cn } }

/-- The slot that gives the least sigma (R122): of the active slots that have figures. -/
def Chip.bestSlot (m : Chip) : Nat :=
  ((m.activeSet.2.filter fun k => decide (64 ≤ (m.slot k).jitter.length)).foldl
    (fun (b : Nat × Int) k => let g := (m.slotSigma k).1; if b.1 = 15 ∨ g < b.2 then (k, g) else b) (15, 0)).1

/-- The status of the tick (MDL_STAT, SINGLE of R98). -/
def Chip.chassisStatus (m : Chip) : Chip :=
  let tr := m.set1.filter fun k => m.slotState k == slotTrack
  let all := (List.range 9).filter fun k => (k == poseSlot || m.chassisSlot k) && m.slotState k == slotTrack
  let m := if tr.length = 1 ∧ 1 < m.mdl.ntrack1 then m.mdlFlag MDL_FLAGS_SINGLE else m
  let m := { m with mdl := { m.mdl with ntrack1 := tr.length } }
  ((m.wr MDL_STAT_NTRACK 0 all.length).wr MDL_STAT_BEST 0 m.bestSlot).wrFit MDL_YAW_BIAS 0 (fxInt m.mdl.bias)

/-- The chassis state is published (R82). -/
def Chip.publish (m : Chip) : Chip :=
  let ok := m.rdB MDL_STAT_FIELD_OK
  let x := m.mdl
  { m with mdl := { x with
    pulled := false, stillAcc := 0, pubOld := x.pub
    pub := ⟨x.tickTb, x.s, x.v, x.a, m.psiPub, m.omegaPub, if ok then x.e else 0, if ok then x.n else 0⟩ } }

/-- Mandrel's part of a prediction tick. -/
def Chip.mandrelTick (m : Chip) : Chip :=
  let m := { m with mdl := { m.mdl with tickTb := m.tb } }
  let m := (m.mdl.defl.map (·.1)).foldl Chip.deflTick m
  let m := ((List.range 8).filter fun k => m.rdB MDL_SRC_CFG_EN k).foldl Chip.slotAdopt m
  let m := m.slotsOn.foldl Chip.slotTick m
  let m := m.yawPair.yawSelect
  let was := m.rd MDL_STAT_STATE
  (m.chassisStep.chassisMove was).yawMove.fieldMove.lowClock.chassisStatus.publish

/-! ## Axes (R112-R118) -/

def Chip.axis (m : Chip) (i : Nat) : Axis := tabGet m.axes i {}

/-- The kind of an axis as it acts: 3 acts as 0 (R112). -/
def Chip.axKind (m : Chip) (i : Nat) : Nat := if m.rd AX_CFG_KIND i = 3 then 0 else m.rd AX_CFG_KIND i

/-- The state an axis stands in (R115): 0 OFF, 1 RUN, 2 HELD. -/
def Chip.axState (m : Chip) (i : Nat) : Nat :=
  let k := m.axKind i
  if k = 0 then 0
  else if k = 1 then
    let st := m.rd MDL_STAT_STATE
    if st = 0 ∨ st = 1 ∨ st = 6 then 2 else 1
  else
    let st := m.slotState (m.rd AX_CFG_SLOT i)
    if st = slotOff ∨ st = slotAcq ∨ st = slotLost then 2 else 1

/-- A flag of an axis; axes are no interrupt sources (R121). -/
def Chip.axFlag (m : Chip) (i b : Nat) : Chip := m.setFlag AX_FLAGS i b

/-- The integer position of an axis (R114). -/
def Axis.posInt (x : Axis) : Nat := x.pos / 65536

/-- The increment of an axis over the tick, in pu (R112, R113). -/
def Chip.axInc (m : Chip) (i : Nat) : Int :=
  if m.axKind i = 2 then (m.slot (m.rd AX_CFG_SLOT i)).inc
  else
    let x := m.dfl (m.rd AX_DEFL_DSEL i)
    let dd := if m.rdB AX_DEFL_DEN i then m.rdI AX_DEFL_K i * (x.d - x.dTick) / 32768 else 0
    m.mdl.ds - m.rdI AX_Y i * m.mdl.dpsi * 256 / 1000000000000 + dd

/-- The speed of an axis (R116). -/
def Chip.axSpeed (m : Chip) (i : Nat) : Int :=
  if m.axKind i = 2 then m.slotV (m.rd AX_CFG_SLOT i)
  else
    let x := m.dfl (m.rd AX_DEFL_DSEL i)
    let dd := if m.rdB AX_DEFL_DEN i then m.rdI AX_DEFL_K i * x.rate / 32768 else 0
    m.mdl.v - m.rdI AX_Y i * m.omegaPub * 256 / 1000000 + dd

/-- The acceleration of an axis (R116). -/
def Chip.axAccel (m : Chip) (i : Nat) : Int :=
  if m.axKind i = 2 then m.mdl.a else m.mdl.a - m.rdI AX_Y i * m.mdl.alpha * 256 / 1000000

/-- The state of an axis with its flags (R115). -/
def Chip.axEnter (m : Chip) (i : Nat) : Chip :=
  let old := m.rd AX_STAT_STATE i
  let new := m.axState i
  let m := m.wr AX_STAT_STATE i new
  let m := if new = 2 ∧ old ≠ 2 then m.axFlag i 2 else m
  if old = 2 ∧ new ≠ 2 then m.axFlag i 3 else m

/-- The direction of an axis with its flags (R116). -/
def Chip.axDir (m : Chip) (i : Nat) (v : Int) : Chip :=
  let old := m.rdB AX_STAT_DIR i
  if v < 0 ∧ !old then (m.wrB AX_STAT_DIR i true).axFlag i 0
  else if 0 < v ∧ old then (m.wrB AX_STAT_DIR i false).axFlag i 1
  else m

/-- The field position of an axis, in mm with 32 fraction bits (R118). -/
def Chip.axField (m : Chip) (i : Nat) : Int × Int :=
  let f := m.psiPub
  (m.mdl.e + m.rdI AX_X i * cosTurn f - m.rdI AX_Y i * sinTurn f, m.mdl.n + m.rdI AX_X i * sinTurn f + m.rdI AX_Y i * cosTurn f)

/-- What an axis has published at the latest tick. -/
def Chip.axPub (m : Chip) (i : Nat) : AxisPub := let x := m.axis i; ⟨x.pos, x.v, x.a, x.fe, x.fn⟩

/-- One axis over a tick (R113-R118). -/
def Chip.axTick (m : Chip) (i : Nat) : Chip :=
  let m := m.axEnter i
  let x := m.axis i
  let m := m.wrB AX_STAT_FIELD_OK i (m.rdB MDL_STAT_FIELD_OK)
  let fld := m.rdB MDL_STAT_FIELD_OK && m.axKind i == 1
  let (fe, fn) := m.axField i
  let x := { x with fe := if fld then fe else 0, fn := if fld then fn else 0, old := m.axPub i }
  if m.rd AX_STAT_STATE i = 1 then
    let v := m.axSpeed i
    let x := { x with pos := ofSigned 56 (x.pos + m.axInc i / 65536), v := v, a := m.axAccel i }
    ({ m with axes := tabPut m.axes i x }).axDir i v
  else { m with axes := tabPut m.axes i { x with v := 0, a := 0 } }

/-- The axes' part of a prediction tick. -/
def Chip.axesTick (m : Chip) : Chip := (m.axes.map (·.1)).foldl Chip.axTick m

end Sys2Proof.Machine
end

