-- ==== Sys2Proof/Machine/DriveOps.lean ====
section
/-! DEFINITION. Operations of the channel drives, the boost switch and the hooks of diagnosis in an actuation (06 R201-R229, 07 R236-R251). -/

namespace Sys2Proof.Machine

def Chip.chan (m : Chip) (ch : Nat) : Chan := tabGet m.chans ch {}
def Chip.setChan (m : Chip) (ch : Nat) (x : Chan) : Chip := { m with chans := tabPut m.chans ch x }
def Chip.drv (m : Chip) (ch : Nat) : Drv := (m.chan ch).drv
def Chip.setDrv (m : Chip) (ch : Nat) (d : Drv) : Chip := m.setChan ch { m.chan ch with drv := d }
def Chip.bank (m : Chip) (b : Nat) : BankSt := tabGet m.banks b {}
def Chip.setBank (m : Chip) (b : Nat) (x : BankSt) : Chip := { m with banks := tabPut m.banks b x }

/-- Bank, cluster and die of a channel (R22). -/
def bankOf (ch : Nat) : Nat := ch / 8
def clusterOf (ch : Nat) : Nat := ch / 16
def dieOf (ch : Nat) : Nat := ch / 96

/-- The channels of a bank, a cluster and a die. -/
def bankChs (b : Nat) : List Nat := (List.range 8).map (8 * b + ·)
def clusterChs (c : Nat) : List Nat := (List.range 16).map (16 * c + ·)
def dieChs (d : Nat) : List Nat := (List.range 96).map (96 * d + ·)

/-- A drive flag; CH_EVT of its bank when its enable is 1 as it sets (R227). -/
def Chip.drvFlag (m : Chip) (ch b : Nat) : Chip :=
  let was := bitAt (m.rd CH_DRV_FLAGS ch) b
  let m := m.setFlag CH_DRV_FLAGS ch b
  if !was && bitAt (m.rd CH_DRV_IE ch) b then m.bkFlag (bankOf ch) BK_FLAGS_CH_EVT else m

/-- A diagnostics flag; CH_EVT of its bank's diagnostics when its enable is 1 as it sets (R257). -/
def Chip.dgFlag (m : Chip) (ch b : Nat) : Chip :=
  let was := bitAt (m.rd DG_FLAGS ch) b
  let m := m.setFlag DG_FLAGS ch b
  if !was && bitAt (m.rd DG_IE ch) b then m.dgbFlag (bankOf ch) DGB_FLAGS_CH_EVT else m

/-! ## Phases (R210) -/

def phOff : Nat := 0
def phWait : Nat := 1
def phBoost : Nat := 2
def phPeak : Nat := 3
def phHold : Nat := 4
def phDecay : Nat := 5
def phPlain : Nat := 6

def Chip.phase (m : Chip) (ch : Nat) : Nat := m.rd CH_DRV_STAT_PHASE ch

/-- The phases that count toward the duty (R221). -/
def onPhase (ph : Nat) : Bool := ph == 2 || ph == 3 || ph == 4 || ph == 6

/-- The present current, and 20 mA in its code (R210). -/
def Chip.iNow (m : Chip) (ch : Nat) : Nat := m.rd CH_DRV_I_NOW ch
def zeroCode : Nat := 5

/-- The fast step or fast turn-off of a channel (R215), a decay that goes on in WAIT included (R211). -/
def Chip.fastDecay (m : Chip) (ch : Nat) : Bool :=
  let d := m.drv ch
  d.step == some true || (d.fast && (m.phase ch == phDecay || m.phase ch == phWait))

/-- BK_STAT.DECAY and BK_STAT.WAITING as they stand. -/
def Chip.bankStat (m : Chip) (b : Nat) : Chip :=
  (m.wrB BK_STAT_DECAY b ((bankChs b).any m.fastDecay)).wr BK_STAT_WAITING b
    (min 7 ((bankChs b).filter fun c => m.phase c == phWait).length)

/-- Phase and low-side switch are kept while a lane records the channel (R250). -/
def Chip.capNote (m : Chip) (ch : Nat) : Chip :=
  let d := m.drv ch
  if d.capLog = [] then m else m.setDrv ch { d with capLog := (m.tb, m.phase ch, m.rdB CH_DRV_STAT_LS ch) :: d.capLog }

/-- A channel enters a phase. -/
def Chip.setPhase (m : Chip) (ch ph : Nat) : Chip :=
  let old := m.phase ch
  let d := m.drv ch
  let iv := if onPhase ph && !onPhase old then (m.tb, none) :: d.onIv
    else if !onPhase ph && onPhase old then
      match d.onIv with
      | (s, _) :: r => (s, some m.tb) :: r
      | [] => []
    else d.onIv
  let m := m.wr CH_DRV_STAT_PHASE ch ph
  let m := m.setDrv ch { d with phaseTb := m.tb, onIv := iv, offSince := if ph = phOff ∧ old ≠ phOff then m.tb else d.offSince }
  (m.capNote ch).bankStat (bankOf ch)

/-- The window of a phase: lower and upper threshold (R210, R226). -/
def Chip.window (m : Chip) (ch ph : Nat) : Nat × Nat :=
  if ph = phPeak then (m.rd CH_DRV_PK_PK_LO ch, m.rd CH_DRV_PK_PK_HI ch)
  else if ph = phHold then (m.rd CH_DRV_HD_EFF_LO_EFF ch, m.rd CH_DRV_HD_EFF_HI_EFF ch)
  else let d := m.drv ch; (d.lim - 25, d.lim)

/-- The conduction of the low-side switch as the notch detector sees it, after the switch turns on or off in a phase (R246). -/
def Chip.onSegs (m : Chip) (ch : Nat) (ls : Bool) : List OnSeg :=
  let d := m.drv ch
  let ph := m.phase ch
  if ls then { start := m.tb, first := ph == phBoost || (ph == phPeak && !d.pkOn) } :: d.ons
  else match d.ons with
    | s :: r => { s with stop := some m.tb, rise := (m.window ch ph).2 - (m.window ch ph).1 } :: r
    | [] => []

/-- The low-side and freewheel switches; a change of the low-side switch starts the blanking (R212). -/
def Chip.setSw (m : Chip) (ch : Nat) (ls fw : Bool) : Chip :=
  let d := m.drv ch
  let was := m.rdB CH_DRV_STAT_LS ch
  let ons := if was = ls then d.ons else m.onSegs ch ls
  let pk := d.pkOn || (ls && !was && m.phase ch == phPeak)
  let m := (m.wrB CH_DRV_STAT_LS ch ls).wrB CH_DRV_STAT_FW ch fw
  let on := if ls && d.fromOff && d.onTb.isNone then some m.tb else d.onTb
  (m.setDrv ch { d with blankTb := if was = ls then d.blankTb else m.tb + max 1 d.blank * 50, onTb := on, ons := ons, pkOn := pk }).capNote ch

/-- A decay chosen fast or slow, as it acts under R208 and R214, with DECAY_SLOW. -/
def Chip.decayAs (m : Chip) (ch : Nat) (fast : Bool) : Bool × Chip :=
  if m.rdB BST_STAT_OV then (false, m.drvFlag ch CH_DRV_FLAGS_DECAY_SLOW)
  else if fast && m.rdB BK_STAT_HSB (bankOf ch) then (true, m.drvFlag ch CH_DRV_FLAGS_DECAY_SLOW)
  else (fast, m)

/-- A decay that is fast whatever R208 requires (R241), with DECAY_SLOW under R214. -/
def Chip.decayForced (m : Chip) (ch : Nat) : Bool × Chip :=
  (true, if m.rdB BK_STAT_HSB (bankOf ch) then m.drvFlag ch CH_DRV_FLAGS_DECAY_SLOW else m)

/-- Entry into PEAK or HOLD from the phase before it, with its step decay (R213). -/
def Chip.stepTo (m : Chip) (ch ph : Nat) (fastStep : Bool) : Chip :=
  let m := m.setPhase ch ph
  let (lo, hi) := m.window ch ph
  if hi < m.iNow ch then
    let (fast, m) := m.decayAs ch fastStep
    let m := m.setSw ch false (!fast)
    (m.setDrv ch { m.drv ch with step := some fast }).bankStat (bankOf ch)
  else if m.iNow ch ≤ lo then m.setSw ch true false
  else m

/-- Entry into PEAK or PLAIN at the start of an actuation or from WAIT (R211): current above the lower threshold keeps decaying first. -/
def Chip.startWindow (m : Chip) (ch ph : Nat) : Chip :=
  let m := m.setPhase ch ph
  let (lo, _) := m.window ch ph
  let d := m.drv ch
  if m.iNow ch ≤ lo then (m.setDrv ch { d with fast := false }).setSw ch true false |>.bankStat (bankOf ch)
  else (m.setDrv ch { d with step := some d.fast, fast := false }).bankStat (bankOf ch)

/-! ## The boost switch (R215-R217) -/

/-- Waiting channels of a bank in the order of R216. -/
def Chip.waiting (m : Chip) (b : Nat) : List Nat :=
  let ws := (bankChs b).filter fun c => m.phase c == phWait
  sortBy (fun x y => let p := (m.drv x).reqTb; let q := (m.drv y).reqTb; decide (p < q) || (p == q && decide (x ≤ y))) ws

/-- The wait of a boost request so far, as CH_DRV_LAST.WAIT gives it. -/
def Chip.waitUs (m : Chip) (ch : Nat) : Nat := min 1023 (if m.phase ch = phWait then (m.tb - (m.drv ch).reqTb) / usTb else 0)

/-- The wait of a boost request ends. -/
def Chip.waitDone (m : Chip) (ch : Nat) : Chip :=
  let u := m.waitUs ch
  (m.wr CH_DRV_LAST_WAIT ch u).setDrv ch { m.drv ch with waited := u }

/-- A channel takes HSB and enters BOOST. -/
def Chip.boostTake (m : Chip) (ch : Nat) : Chip :=
  let b := bankOf ch
  let waited := m.phase ch == phWait
  let m := m.waitDone ch
  let d := { m.drv ch with passed := m.rdB BK_STAT_HSB b }
  let m := ((m.wr BK_STAT_HSB b 1).wr BK_STAT_HSS b 0).wr BK_STAT_HOLDER b (ch % 8)
  let m := m.wr CH_DRV_STAT_HSB_OWN ch 1
  let m := (m.setDrv ch { d with hsbTb := m.tb, fast := false }).setPhase ch phBoost
  let m := { m with boost := { m.boost with rchgFrom := none } }.setSw ch true false
  if waited then m.drvFlag ch CH_DRV_FLAGS_BST_WAIT else m

/-- A channel is granted HSB. -/
def Chip.boostStart (m : Chip) (ch : Nat) : Chip := (m.boostTake ch).count BK_CNT_GRANTS (bankOf ch)

/-- The controller's state changes; boost operation is its time in RUN (R256). -/
def Chip.bstSet (m : Chip) (st : Nat) : Chip :=
  let b := m.bcap
  let b := match b.runFrom with
    | some t => if st = 2 then b else { b with runFrom := none, runAcc := b.runAcc + (m.tb - t) }
    | none => if st = 2 then { b with runFrom := some m.tb } else b
  { m with bcap := b }.wr BST_STAT_STATE 0 st

/-- The figures of R209 after a boost phase; the manual gives no way to compute them from commands, so they are free values. -/
def Chip.boostFigures (m : Chip) (ch : Nat) : Chip :=
  let m := m.wr CH_DRV_LAST_BST ch (min 4095 ((m.tb - (m.drv ch).hsbTb) / usTb))
  let (x, m) := m.free
  let (y, m) := m.free
  let m := (m.wrI BST_DROOP_STEP 0 x).wrI BST_DROOP_DROOP 0 y
  let c := if !(m.drv ch).passed then { m.bcap with phase := some (bankOf ch, m.rd BST_DROOP_STEP) } else m.bcap
  { m with boost := { m.boost with rchgFrom := some m.tb, lastBst := some m.tb }, bcap := c }

/-- HSB leaves its holder: to the first waiting request while READY, else HSB opens and HSS closes in an enabled bank that is not lost. -/
def Chip.boostPass (m : Chip) (b fuel : Nat) : Chip :=
  match fuel with
  | 0 => m
  | k + 1 =>
    match m.waiting b with
    | w :: _ =>
      if m.rdB BST_STAT_READY then
        let m := m.boostStart w
        if (m.drv w).iBst ≤ m.iNow w then
          let m := (m.boostFigures w).wr CH_DRV_STAT_HSB_OWN w 0
          (m.stepTo w phPeak (m.drv w).stepBp).boostPass b k
        else m
      else (m.wr BK_STAT_HSB b 0).wrB BK_STAT_HSS b (m.rdB BK_CTL_EN b && !m.rdB BK_STAT_LOST b)
    | [] => (m.wr BK_STAT_HSB b 0).wrB BK_STAT_HSS b (m.rdB BK_CTL_EN b && !m.rdB BK_STAT_LOST b)

/-- The end of a boost phase: BOOST to PEAK (R210), then HSB passes on (R216). -/
def Chip.boostEnd (m : Chip) (ch : Nat) : Chip :=
  let m := (m.boostFigures ch).wr CH_DRV_STAT_HSB_OWN ch 0
  (m.stepTo ch phPeak (m.drv ch).stepBp).boostPass (bankOf ch) 9

/-- Current at or above I_BST ends BOOST at once (R211). -/
def Chip.boostFull (m : Chip) (ch : Nat) : Chip := if (m.drv ch).iBst ≤ m.iNow ch then m.boostEnd ch else m

/-- A grant outside a hand-over. -/
def Chip.boostGrant (m : Chip) (ch : Nat) : Chip := (m.boostStart ch).boostFull ch

/-- A denied request starts in PEAK (R217). -/
def Chip.boostDeny (m : Chip) (ch : Nat) : Chip :=
  let b := bankOf ch
  let m := ((m.waitDone ch).count CH_DRV_DENY ch).count BK_CNT_DENIES b
  let m := (m.drvFlag ch CH_DRV_FLAGS_BST_DENIED).bkFlag b BK_FLAGS_BST_DENIED
  (m.setDrv ch { m.drv ch with denied := true }).startWindow ch phPeak

/-- The three conditions of R215. -/
def Chip.boostFree (m : Chip) (b : Nat) : Bool := !m.rdB BK_STAT_HSB b && m.rdB BST_STAT_READY && !m.rdB BK_STAT_DECAY b

/-- BK_CTL.DEFER as it acts (R230). -/
def Chip.defer (m : Chip) (b : Nat) : Nat := min 500 (m.rd BK_CTL_DEFER b)

/-- The channel as it stands before a grant at once. -/
def Chip.grantNow (m : Chip) (ch : Nat) : Grant :=
  ⟨m.tb, ch, m.phase ch, m.drv ch, m.rdB CH_DRV_STAT_LS ch, m.rdB CH_DRV_STAT_FW ch, m.rd CH_DRV_LAST_WAIT ch⟩

/-- The grant of this TB whose place a request of channel ch takes: that of a higher channel (R215). -/
def Chip.grantOver (m : Chip) (ch : Nat) : Option Grant :=
  (m.bank (bankOf ch)).granted.filter fun g => g.tb == m.tb && decide (ch < g.ch) && m.phase g.ch == phBoost && m.rdB CH_DRV_STAT_HSB_OWN g.ch

/-- A channel whose grant a lower channel of the same TB takes: it waits, or is denied where nothing may wait. -/
def Chip.grantYield (m : Chip) (g : Grant) : Chip :=
  let b := bankOf g.ch
  let m := ((m.wr CH_DRV_STAT_HSB_OWN g.ch 0).wr CH_DRV_LAST_WAIT g.ch g.wait).wr BK_STAT_HSB b 0
  let m := ((m.setPhase g.ch g.phase).wrB CH_DRV_STAT_LS g.ch g.ls).wrB CH_DRV_STAT_FW g.ch g.fw
  let m := m.setDrv g.ch g.drv
  if m.defer b = 0 then m.boostDeny g.ch else m.setPhase g.ch phWait

/-- A grant at once; it stands until a lower channel of the same TB asks. -/
def Chip.grantAtOnce (m : Chip) (ch : Nat) : Chip :=
  let b := bankOf ch
  let g := m.grantNow ch
  let m := m.boostGrant ch
  m.setBank b { m.bank b with granted := some g }

/-- A boost request (R215-R217). -/
def Chip.boostRequest (m : Chip) (ch : Nat) : Chip :=
  let b := bankOf ch
  let m := m.setDrv ch { m.drv ch with reqTb := m.tb }
  let tooHigh := decide (m.rd BK_LIM0_BV_MAX b * 100 < m.rd BST_V)
  let m := if tooHigh then m.bkFlag b BK_FLAGS_BV_BLOCK else m
  if m.rd BST_STAT_STATE = 0 ∨ m.rd BST_STAT_STATE = 3 ∨ tooHigh then m.boostDeny ch
  else match m.grantOver ch with
    | some g =>
      let h := m.grantNow ch
      let m := (m.grantYield g).boostTake ch
      (m.setBank b { m.bank b with granted := some h }).boostFull ch
    | none =>
      if m.boostFree b ∧ m.waiting b = [] then m.grantAtOnce ch
      else if m.defer b = 0 then m.boostDeny ch
      else m.setPhase ch phWait

/-! ## Start and turn-off -/

/-- A lock-out of R223. -/
def Chip.locked (m : Chip) (ch : Nat) : Bool :=
  m.rdB CH_DRV_STAT_THERM_OFF ch || m.rdB CH_DRV_STAT_DUTY_LIM ch || !m.rdB BK_CTL_EN (bankOf ch) || m.rdB BK_STAT_LOST (bankOf ch)

/-- Diagnosis SAFE (R243). -/
def Chip.dgSafe (m : Chip) (ch : Nat) : Bool := m.rd DG_STAT_STATE ch == 2

/-- A node test in progress is abandoned (R236). -/
def Chip.nodeAbort (m : Chip) (ch : Nat) : Chip :=
  if (m.drv ch).nodeTb.isSome then (m.setDrv ch { m.drv ch with nodeTb := none }).dgFlag ch DG_FLAGS_TEST_ABORT else m

/-- A supply test in progress is abandoned (R236). -/
def Chip.supAbort (m : Chip) (b : Nat) : Chip :=
  if (m.bank b).supTb.isSome then
    ((m.setBank b { m.bank b with supTb := none }).wr DGB_STAT_BUSY b 0).dgbFlag b DGB_FLAGS_TEST_ABORT
  else m

/-- A lane records the channel. -/
def Chip.recorded (m : Chip) (ch : Nat) : Bool :=
  (List.range 4).any fun l => let i := 4 * (ch / 24) + l; m.rd CAP_L_CH_LSTATE i == 2 && m.rd CAP_L_CH i == ch

/-- What the recording shows of the channel's state begins with its first sample (R250). -/
def Chip.capStart (m : Chip) (ch t : Nat) : Chip :=
  let d := m.drv ch
  if d.capLog = [] ∧ m.recorded ch then m.setDrv ch { d with capLog := [(t, m.phase ch, m.rdB CH_DRV_STAT_LS ch)] } else m

/-- Armed lanes of the channel begin to record (R251). -/
def Chip.laneRecord (m : Chip) (ch t : Nat) : Chip :=
  Chip.capStart (ch := ch) (t := t) <| (List.range 4).foldl (fun m l =>
    let i := 4 * (ch / 24) + l
    if m.rd CAP_L_CH_LSTATE i = 1 ∧ m.rd CAP_L_CH i = ch then
      ((m.wr CAP_L_CH_LSTATE i 2).wrTb CAP_L_TB_LO CAP_L_TB_HI i t).wr CAP_L_NOTCH i 65535
    else m) m

/-- The lattices that are on. -/
def Chip.latsOn (m : Chip) : List Nat := (m.chans.map (·.1)).filter fun ch => m.rdB LAT_CFG_EN ch

/-- The enabled lattice that uses a channel as its PWM output (R191). -/
def Chip.pwmUser (m : Chip) (o : Nat) : Option Nat := m.latsOn.find? fun ch => m.rdB LAT_CFG_OUTSEL ch && m.rd LAT_OUT_UNIT ch == o

/-- The settings that an actuation copies at its start (R220, R247); the PWM output of a lattice is a plain switch (R191, R226). -/
def Chip.drvCopy (m : Chip) (ch t : Nat) : Drv :=
  { m.drv ch with
    startTb := m.tb, fireTb := t, denied := false, step := none, onTb := none, noRise := false, noRiseDone := false
    waited := 0, forced := false, ons := [], pkOn := false
    plain := m.rd CH_DRV_CFG_PROFILE ch == 1 || (m.pwmUser ch).isSome, bstEn := m.rdB CH_DRV_CFG_BST_EN ch, pkNotch := m.rdB CH_DRV_CFG_PK_NOTCH ch
    stepBp := m.rdB CH_DRV_CFG_STEP_BP ch, stepPh := m.rdB CH_DRV_CFG_STEP_PH ch, offSlow := m.rdB CH_DRV_CFG_OFF_DECAY ch
    chopFast := m.rdB CH_DRV_CFG_CHOP_FAST ch, blank := m.rd CH_DRV_CFG_BLANK ch, maxon := m.rd CH_DRV_CFG_MAXON ch
    iBst := m.rd CH_DRV_BST_I_BST ch, tBst := min (m.rd CH_DRV_BST_T_BST ch) (m.rd BK_LIM1_TBST_MAX (bankOf ch))
    tPk := m.rd CH_DRV_PKT_T_PK ch, floor := m.rd CH_DRV_FLOOR_FLOOR ch, lim := m.rd CH_DRV_PLAIN_LIM ch
    nMin := m.rd DG_NOTCH_T_MIN ch, nMax := m.rd DG_NOTCH_T_MAX ch, nDrop := max 1 (m.rd DG_NOTCH_DROP ch) }

/-- The start of an actuation at firing TB t (R210, R211, R226, R236, R251); a channel that is on, locked out or SAFE starts nothing. -/
def Chip.drvStart (m : Chip) (ch t : Nat) : Chip :=
  let ph := m.phase ch
  if (ph ≠ phOff ∧ ph ≠ phDecay) ∨ m.locked ch ∨ m.dgSafe ch then m
  else
    let m := ((m.nodeAbort ch).supAbort (bankOf ch)).laneRecord ch t
    let d := m.drvCopy ch t
    let re := ph == phDecay
    let m := m.setDrv ch { d with fromOff := !re, restart := re, notch := !d.plain }
    let m := if re then m.drvFlag ch CH_DRV_FLAGS_RESTART else m
    if d.plain then m.startWindow ch phPlain
    else
      let m := m.wr CH_DRV_ACT ch (m.rd CH_DRV_ACT ch + 1)
      if d.bstEn then m.boostRequest ch else m.startWindow ch phPeak

/-- A stroke begins at a spray start (R281); a train's stroke that is open goes on, and one that has its end waits for its tick. -/
def Chip.strokeBegin (m : Chip) (ch t : Nat) : Chip :=
  let x := m.chan ch
  let new := some { start := t, train := x.train.isSome : Stroke }
  if !m.rdB MAP_CH_CFG_WB_EN ch || !x.drv.fromOff then m
  else match x.stroke with
    | some k => if k.stop.isNone then m else (m.setChan ch { x with stroke := new, strokes := x.strokes ++ [k] }).wr MAP_CH_STAT_STROKE ch 1
    | none => (m.setChan ch { x with stroke := new }).wr MAP_CH_STAT_STROKE ch 1

/-- A turn-off ends the stroke, but for a pulse end of a running train, which only marks where it would end (R281). -/
def Chip.strokeOff (m : Chip) (ch : Nat) : Chip :=
  let x := m.chan ch
  match x.stroke with
  | none => m
  | some k =>
    let t := m.tb + m.rd CH_ADV_CLOSE ch
    if k.stop.isSome then m
    else if k.train && x.train.isSome then m.setChan ch { x with stroke := some { k with lastOff := t } }
    else m.setChan ch { x with stroke := some { k with stop := some t, lastOff := t } }

/-- The stroke of a train ends where its last pulse ended (R281). -/
def Chip.strokeCut (m : Chip) (ch : Nat) : Chip :=
  let x := m.chan ch
  match x.stroke with
  | none => m
  | some k => if k.train && k.stop.isNone then m.setChan ch { x with stroke := some { k with stop := some k.lastOff } } else m

/-- A train ends or pauses: its stroke ends, but for a pulse in flight, which completes its width (R281). -/
def Chip.strokeTrainEnd (m : Chip) (ch : Nat) : Chip := if (m.chan ch).trainOff.isNone then m.strokeCut ch else m

/-- No notch was found (R247); the stroke then begins on the advance in use, unless NO_RISE was recorded (R281). -/
def Chip.noNotch (m : Chip) (ch : Nat) : Chip :=
  let d := m.drv ch
  if d.notch then
    let m := (m.setDrv ch { d with notch := false }).count DG_CNT_NO_NOTCH ch
    let m := m.dgFlag ch DG_FLAGS_NO_NOTCH
    if d.noRise then m else m.strokeBegin ch (d.fireTb + m.rd CH_ADV_USED ch)
  else m

/-- A turn-off with the decay that a rule picks (R210, R213); it never waits. -/
def Chip.drvOffBy (m : Chip) (ch : Nat) (pick : Chip → Bool × Chip) : Chip :=
  let ph := m.phase ch
  if ph = phOff ∨ ph = phDecay then m
  else if ph = phWait then
    let m := (m.noNotch ch).waitDone ch
    let m := if m.iNow ch < zeroCode then ((m.setDrv ch { m.drv ch with fast := false }).setSw ch false false).setPhase ch phOff
      else m.setPhase ch phDecay
    m.strokeOff ch
  else
    let m := (m.noNotch ch).strokeOff ch
    let m := if ph = phBoost then (m.boostFigures ch).wr CH_DRV_STAT_HSB_OWN ch 0 else m
    let (fast, m) := pick m
    let m := m.setDrv ch { m.drv ch with fast := fast, step := none, offTb := some m.tb, offCode := m.iNow ch }
    let m := (m.setPhase ch phDecay).setSw ch false (!fast)
    if ph = phBoost then m.boostPass (bankOf ch) 9 else m

/-- The channels of a bank, those that wait first, so that no request is granted while the bank is being turned off. -/
def Chip.offOrder (m : Chip) (b : Nat) : List Nat :=
  ((bankChs b).filter fun c => m.phase c == phWait) ++ (bankChs b).filter fun c => m.phase c != phWait

/-- The channels of a cluster in such an order. -/
def Chip.clusterOrder (m : Chip) (c : Nat) : List Nat := m.offOrder (2 * c) ++ m.offOrder (2 * c + 1)

/-- HSB opens; HSS closes in an enabled bank that is not lost (R202, R204). -/
def Chip.hsbOpen (m : Chip) (b : Nat) : Chip :=
  if m.rdB BK_STAT_HSB b then (m.wr BK_STAT_HSB b 0).wrB BK_STAT_HSS b (m.rdB BK_CTL_EN b && !m.rdB BK_STAT_LOST b) else m

/-- A turn-off with the decay fast or slow. -/
def Chip.drvOffAs (m : Chip) (ch : Nat) (fastSet : Bool) : Chip := m.drvOffBy ch fun m => m.decayAs ch fastSet

/-- A turn-off by the channel's own decay. -/
def Chip.drvOff (m : Chip) (ch : Nat) : Chip := m.drvOffAs ch (!(m.drv ch).offSlow)

/-- PWR_STAT.TRIM is 1 while any channel of the die is trimmed; TRIM_OUT sets when every one is restored (R224, R232). -/
def Chip.trimStat (m : Chip) (d : Nat) : Chip :=
  if m.rdB PWR_STAT_TRIM d && (dieChs d).all (fun c => (m.drv c).trim == 0) then (m.wr PWR_STAT_TRIM d 0).pwrFlag d PWR_FLAGS_TRIM_OUT else m

end Sys2Proof.Machine
end

