-- ==== Sys2Proof/Machine/CaptureOps.lean ====
section
/-! DEFINITION. Operations of the capture converters and their rota (07 R249-R253). -/

namespace Sys2Proof.Machine

/-- Lanes of a converter (R260: LANES 3 acts as 2). -/
def Chip.lanes (m : Chip) (c : Nat) : Nat := 2 ^ min 2 (m.rd CAP_CFG_LANES c)

/-- The index of a lane, and its state. -/
def laneIx (c l : Nat) : Nat := 4 * c + l
def Chip.lane (m : Chip) (c l : Nat) : Nat := m.rd CAP_L_CH_LSTATE (laneIx c l)

/-- A channel is armed or recording in a lane of a converter. -/
def Chip.laneHas (m : Chip) (c ch : Nat) : Bool :=
  (List.range 4).any fun l => (m.lane c l == 1 || m.lane c l == 2) && m.rd CAP_L_CH (laneIx c l) == ch

/-- The rota does not pass a channel over (R252). -/
def Chip.rotaOk (m : Chip) (c ch : Nat) : Bool :=
  (m.rd CH_CTL_MODE ch == 1 || m.rd CH_CTL_MODE ch == 2) && m.rdB BK_CTL_EN (bankOf ch) && !m.laneHas c ch

/-- The first index from i on that the rota does not pass over, and whether it passed the end of the group. -/
def Chip.rotaNext (m : Chip) (c i fuel : Nat) (wrapped : Bool) : Option (Nat × Bool) :=
  match fuel with
  | 0 => none
  | k + 1 =>
    if m.rotaOk c (24 * c + i) then some (i, wrapped || i == 23)
    else m.rotaNext c (if i = 23 then 0 else i + 1) k (wrapped || i == 23)

/-- A lane is armed for a channel; an actuation of it that starts in the same cycle is recorded (R251). -/
def Chip.laneArm (m : Chip) (c l ch : Nat) : Chip :=
  let m := (m.wr CAP_L_CH (laneIx c l) ch).wr CAP_L_CH_LSTATE (laneIx c l) 1
  let m := { m with capTb := tabPut m.capTb (laneIx c l) m.tb }
  let d := m.drv ch
  if d.startTb = m.tb ∧ m.phase ch ≠ phOff ∧ m.phase ch ≠ phDecay then m.laneRecord ch d.fireTb else m

/-- A free lane is armed: for a channel that a request names, else for the next of the rota. -/
def Chip.laneFill (m : Chip) (c l : Nat) : Chip :=
  if m.lane c l ≠ 0 ∨ m.lanes c ≤ l then m
  else match tabGet m.capReq c [] with
    | i :: r => { m with capReq := tabPut m.capReq c r }.laneArm c l (24 * c + i)
    | [] =>
      if !m.rdB CAP_CFG_EN c then m
      else match m.rotaNext c (m.rd CAP_STAT_NEXT c) 24 false with
        | none => m
        | some (i, wrap) =>
          let m := (m.wr CAP_STAT_NEXT c (if i = 23 then 0 else i + 1)).laneArm c l (24 * c + i)
          if wrap then m.capFlag c CAP_FLAGS_ROUND else m

/-- The free lanes of a converter are armed, in ascending order. -/
def Chip.capFill (m : Chip) (c : Nat) : Chip := (List.range 4).foldl (fun m l => m.laneFill c l) m

/-- Samples of a lane, and TB of one of them (R249). -/
def Chip.laneLen (m : Chip) (c : Nat) : Nat := 32768 / m.lanes c
def Chip.laneStep (m : Chip) (c : Nat) : Nat := 20 * m.lanes c * 2 ^ m.rd CAP_CFG_DEC c

/-- The buffer of a lane (R40, R249). -/
def Chip.laneBase (m : Chip) (c l : Nat) : Nat := 0x920000 + c * 0x10000 + l * (0x10000 / m.lanes c)

/-- The TB of a lane's first sample. -/
def Chip.laneTb (m : Chip) (c l : Nat) : Nat := m.rd CAP_L_TB_LO (laneIx c l) + 2 ^ 32 * m.rd CAP_L_TB_HI (laneIx c l)

/-- Phase and low-side switch of a channel at a TB, from what was kept newest first. -/
def capBits (log : List (Nat × Nat × Bool)) (t : Nat) : Nat :=
  match log with
  | [] => 0
  | [(_, p, l)] => 4096 * p + 32768 * b2n l
  | (u, p, l) :: r => if u ≤ t then 4096 * p + 32768 * b2n l else capBits r t

/-- The stored samples of a lane from sample k on, 2^DEC raw samples each (R249, R250). -/
def capWords (log : List (Nat × Nat × Bool)) (t0 step per : Nat) (raw : List (BitVec 12)) (k n : Nat) : List Nat :=
  match n with
  | 0 => []
  | j + 1 =>
    let avg := ((raw.take per).foldl (fun a x => a + x.toNat) 0) / per
    (avg + capBits log (t0 + k * step)) :: capWords log t0 step per (raw.drop per) (k + 1) j

/-- Raw samples of a lane to a stored one. -/
def Chip.lanePer (m : Chip) (c : Nat) : Nat := 2 ^ m.rd CAP_CFG_DEC c

/-- What a full lane stores. -/
def Chip.laneWords (m : Chip) (c l : Nat) (raw : List (BitVec 12)) : List Nat :=
  capWords (m.drv (m.rd CAP_L_CH (laneIx c l))).capLog (m.laneTb c l) (m.laneStep c) (m.lanePer c) raw 0 (m.laneLen c)

/-- A recording of a channel has ended: its state is kept no longer than the last lane records it. -/
def Chip.capStop (m : Chip) (ch : Nat) : Chip := if m.recorded ch then m else m.setDrv ch { m.drv ch with capLog := [] }

/-- A recording lane becomes full; its channel may be armed in another lane again (R252). -/
def Chip.laneDone (m : Chip) (c l : Nat) (raw : List (BitVec 12)) : Chip :=
  if m.lane c l = 2 ∧ raw.length = m.laneLen c * m.lanePer c ∧ m.laneTb c l + m.laneLen c * m.laneStep c ≤ m.tb then
    let m := m.store (m.laneBase c l) ((m.laneWords c l raw).flatMap (leBytes 2))
    let m := (m.wr CAP_L_CH_LSTATE (laneIx c l) 3).capStop (m.rd CAP_L_CH (laneIx c l))
    (m.capFlag c CAP_FLAGS_DONE).capFill c
  else m

/-- A done lane is released, and free lanes are armed at once. -/
def Chip.laneFree (m : Chip) (c l : Nat) : Chip :=
  if m.lane c l = 3 then ((m.wr CAP_L_CH_LSTATE (laneIx c l) 0).laneFill c l).capFill c else m

/-- A lane has been armed for 100 ms. -/
def Chip.laneSkip (m : Chip) (c l : Nat) : Chip :=
  if m.lane c l = 1 ∧ tabGet m.capTb (laneIx c l) 0 + 100 * msTb ≤ m.tb then
    (((m.wr CAP_L_CH_LSTATE (laneIx c l) 0).laneFill c l).capFill c).capFlag c CAP_FLAGS_SKIPPED
  else m

/-- The notch of a channel in the lane that records it. -/
def Chip.laneNotch (m : Chip) (ch t : Nat) : Chip :=
  let c := ch / 24
  (List.range 4).foldl (fun m l =>
    if m.lane c l = 2 ∧ m.rd CAP_L_CH (laneIx c l) = ch then
      let k := (t - m.laneTb c l) / m.laneStep c
      if k < m.laneLen c then m.wr CAP_L_NOTCH (laneIx c l) k else m
    else m) m

/-- A write of CAP_CMD: requests and releases. -/
def Chip.capCmd (m : Chip) (c : Nat) (req : Option Nat) (rel : Nat) : Chip :=
  let m := match req with
    | some i => if i < 24 then { m with capReq := tabPut m.capReq c (tabGet m.capReq c [] ++ [i]) }.capFill c else m
    | none => m
  (List.range 4).foldl (fun m l => if bitAt rel l then m.laneFree c l else m) m

end Sys2Proof.Machine
end

