-- ==== Sys2Proof/Machine/EventOps.lean ====
section
/-! DEFINITION. Operations of the event pool, the conversion from position to time, firing, inhibits, trains' ends and safe states
(04 R127-R169, 05 R173-R182, 10 R369-R375). -/

namespace Sys2Proof.Machine

/-! ## Conversion (R141, R142) -/

/-- The root of v² + 2 a d in pu/s, with 32 fraction bits, where it exists. -/
def rootOf (v a d : Int) : Option Int :=
  let x := v * v + 2 * a * d
  if x < 0 then none else some (isqrt x.toNat : Nat)

/-- τ_T of R141 in s, with 32 fraction bits; none where the target is not reachable. -/
def tauOf (v a d : Int) : Option Int :=
  if d ≤ 0 then some 0
  else match rootOf v a d with
    | none => none
    | some r => if v + r ≤ 0 then none else some (2 * d * fxOne / (v + r))

/-- A time in TB as seconds with 32 fraction bits. -/
def tbSec (t : Int) : Int := t * fxOne / 200000000

/-- A distance in pu with 32 fraction bits as a signed modular difference (R5). -/
def wrapPu (x : Int) : Int := (x + 549755813888 * fxOne) % (1099511627776 * fxOne) - 549755813888 * fxOne

/-- D_F of R141: the distance to the fire point of a forward action, d the distance to its target. -/
def fireDist (v a d : Int) (adv : Nat) : Option Int :=
  match tauOf v a d with
  | none => none
  | some t =>
    let ta := tbSec adv
    some (wrapPu (d - maxI 0 (fxMul (v + fxMul a t) ta - fxMul a (fxMul ta ta) / 2)))

/-- The distance, in the direction of reverse travel, to the fire point of a reverse action (R153). -/
def backDist (v d : Int) (adv : Nat) : Int := wrapPu (-d - fxMul (absI v) (tbSec adv))

/-- τ_F of R142 in TB, rounded to the nearest; none where it has no positive value. -/
def tauTb (v a d : Int) : Option Int :=
  if d ≤ 0 then none
  else match rootOf v a d with
    | none => none
    | some r => if v + r ≤ 0 then none else some (roundDiv (2 * d * 200000000) (v + r))

/-- The travel in pu, with 32 fraction bits, over a time in TB. -/
def travel (v a : Int) (t : Int) : Int := let s := tbSec t; fxMul v s + fxMul a (fxMul s s) / 2

/-! ## The pool -/

def poolSize : Nat := 16384
def chSlots : Nat := 128

def Chip.ev (m : Chip) (i : Nat) : Option Ev := tabFind m.pool i
def Chip.setEv (m : Chip) (i : Nat) (e : Ev) : Chip := { m with pool := tabPut m.pool i e }

/-- The slots of a channel (R132). -/
def Chip.chEvs (m : Chip) (ch : Nat) : List (Nat × Ev) := m.pool.filter fun p => p.2.ch == ch

/-- CH_STAT.PEND, CH_STAT.STAND and CH_POOL.FREE as they stand. -/
def Chip.pend (m : Chip) (ch : Nat) : Nat := (m.chEvs ch).length
def Chip.standCount (m : Chip) (ch : Nat) : Nat := ((m.chEvs ch).filter fun p => p.2.life == .standing).length
def Chip.poolFree (m : Chip) : Nat := poolSize - m.pool.length

/-- A channel holds an unfired TRAIN (R173). -/
def Chip.trainPend (m : Chip) (ch : Nat) : Bool :=
  (m.chEvs ch).any fun p => p.2.kind == 4 && p.2.life == .armed

/-- An unfired TRAIN event is held or accepted (R173 at acceptance, R133). -/
def Chip.trainTaken (m : Chip) (ch : Nat) : Bool :=
  m.trainPend ch || (m.chEvs ch).any fun p => p.2.kind == 4 && p.2.life == .reserved

/-- The 22-bit handle (R134). -/
def handleOf (i gen : Nat) : Nat := i + 16384 * (gen % 256)

/-- The first free index from c on, cyclically. -/
def firstFree (p : Tab Ev) (c fuel : Nat) : Nat :=
  match fuel with
  | 0 => c
  | k + 1 => if (tabFind p c).isNone then c else firstFree p ((c + 1) % 16384) k

/-- A slot taken for an event; which free index it takes is a free value (R134). -/
def Chip.takeSlot (m : Chip) (e : Ev) : Nat × Chip :=
  let i := firstFree m.pool (Config.poolChoice m.frees % 16384) 16384
  let l := tabGet m.poolLast i {}
  let m := { m with frees := m.frees + 1, orderNo := m.orderNo + 1 }
  let m := m.setEv i { e with gen := l.gen, order := m.orderNo }
  let m := { m with poolLast := tabPut m.poolLast i { l with handle := none } }
  (i, m.wr CH_POOL_LOW 0 (min (m.rd CH_POOL_LOW) m.poolFree))

/-- A slot freed (R134); its channel's compare holds no action of it. -/
def Chip.freeSlot (m : Chip) (i : Nat) : Chip :=
  match m.ev i with
  | none => m
  | some e =>
    { m with
      pool := tabDrop m.pool (· == i)
      poolLast := tabPut m.poolLast i ⟨(e.gen + 1) % 256, some (handleOf i e.gen), e.owner, e.jsn.isSome, e.ch⟩ }.setChan e.ch
        { m.chan e.ch with heads := (m.chan e.ch).heads.filter (·.key != i) }

/-! ## Words to the journal and resolution (R364, R369-R372) -/

def Chip.jpush (m : Chip) (w : JWord) : Chip := { m with jour := { m.jour with words := m.jour.words ++ [w] } }

/-- The flag of an outcome, and its counter. -/
def Chip.outcomeFlag (m : Chip) (ch out : Nat) : Chip :=
  if out = 1 then (m.count CH_CNT_A_EXEC ch).chFlag ch CH_FLAGS_EXEC
  else if out = 2 then (m.count CH_CNT_A_LATE ch).chFlag ch CH_FLAGS_LATE
  else if out = 3 then (m.count CH_CNT_B_MISS ch).chFlag ch CH_FLAGS_MISSED
  else if out = 4 then m.chFlag ch CH_FLAGS_CANCELLED
  else if out = 5 then (m.count CH_CNT_B_OVR ch).chFlag ch CH_FLAGS_OVERRIDDEN
  else m

/-- The fields of CH_LAST_O. -/
def lastFields : List Field := [CH_LAST_O_HANDLE, CH_LAST_O_OUTCOME, CH_LAST_O_CAUSE, CH_LAST_O_OWNER, CH_LAST_O_JOUR]

/-- The last resolution of a channel is replaced; a read in this cycle still finds the one before it (R170). -/
def Chip.lastPut (m : Chip) (ch : Nat) (lat : Int) (tb : Nat) : Chip :=
  let x := m.chan ch
  let was := if x.lastAt = some m.tb then x.lastWas else ⟨m.word lastFields ch, x.lastLat, x.lastTb⟩
  m.setChan ch { x with lastLat := lat, lastTb := tb, lastAt := some m.tb, lastWas := was }

/-- An event resolves (R170, R369): its last-outcome fields, counters, flags and word; REFUSED never reaches the channel block (R366). The
TB of the hallmark may differ from the TB of CH_LAST_TB where a pulse is overridden (R374). -/
def Chip.resolve (m : Chip) (i : Nat) (e : Ev) (out cause : Nat) (lat : Int) (tb htb : Nat) (stand : Bool) : Chip :=
  let ch := e.ch
  let m := match e.jsn with
    | some j => m.jpush { jsn := j, phase := 3, outcome := out, cause := cause, stand := stand, tb := htb, lat := lat }
    | none => m
  if out = 7 then m
  else
    let m := m.lastPut ch lat tb
    let m := (m.wr CH_LAST_O_HANDLE ch (handleOf i e.gen)).wr CH_LAST_O_OUTCOME ch out
    let m := ((m.wr CH_LAST_O_CAUSE ch cause).wr CH_LAST_O_OWNER ch e.owner).wrB CH_LAST_O_JOUR ch e.jsn.isSome
    m.outcomeFlag ch out

/-- An event that has not fired resolves at the axis island's TB (R22), and its slot is freed. -/
def Chip.finish (m : Chip) (i : Nat) (e : Ev) (out cause : Nat) : Chip :=
  let t := m.tbOf islAxis
  (m.resolve i e out cause 0 t t false).freeSlot i

/-- An accepted event that is staged leaves the staging area (R363). -/
def Chip.unstage (m : Chip) (i : Nat) : Chip :=
  { m with jour := { m.jour with staged := m.jour.staged.filter fun s => match s with
    | .event _ k => k != i
    | _ => true } }

/-! ## Output, gate and owner state (R275, R276) -/

def Chip.gateOpen (m : Chip) (ch : Nat) : Bool := m.rdB MAP_CH_STAT_GATE ch

/-- A gate action that closes falls at or before a TB (R277). -/
def Chip.gateCloses (m : Chip) (ch t : Nat) : Bool := (m.chan ch).gates.any fun g => !g.opens && g.fireTb.any fun u => decide (u ≤ t)

/-- The output follows OWN_ON with the gate applied; an actuation that starts has firing TB t, and none starts that a gate action of its own
TB would stop (R277). -/
def Chip.outApply (m : Chip) (ch t : Nat) : Chip :=
  let was := m.rdB CH_STAT_OUT ch
  let now := m.rdB MAP_CH_STAT_OWN_ON ch && m.gateOpen ch && (was || !m.gateCloses ch t)
  let m := m.wrB CH_STAT_OUT ch now
  if now && !was then m.drvStart ch t else if !now && was then m.drvOff ch else m

/-- The owner state changes (R275). -/
def Chip.ownSet (m : Chip) (ch : Nat) (on : Bool) (t : Nat) : Chip := (m.wrB MAP_CH_STAT_OWN_ON ch on).outApply ch t

/-- An action that turns the channel on takes effect; with the gate closed it counts in GATED (R276). -/
def Chip.ownOn (m : Chip) (ch t : Nat) : Chip :=
  let m := if m.gateOpen ch then m else m.count MAP_CH_CNT_GATED ch
  m.ownSet ch true t

/-! ## Ends of trains, standing events and pulses -/

/-- A running train ends with TR_STOP (R181), its slot freed; a pulse in flight ends as an OFF ends it where the flag asks. -/
def Chip.trainStop (m : Chip) (ch : Nat) (cut : Bool) : Chip :=
  let x := m.chan ch
  let m := if cut && x.trainOff.isSome then (m.setChan ch { x with trainOff := none }).ownSet ch false m.tb else m
  match x.train with
  | none => m
  | some t =>
    let m := (m.strokeTrainEnd ch)
    let m := m.setChan ch { m.chan ch with train := none, heads := (m.chan ch).heads.filter (·.key != 16384) }
    let m := ((m.wr TR_STAT_RUN ch 0).wr TR_STAT_SAT ch 0).wr TR_STAT_PAUSE ch 0
    (m.setFlag TR_FLAGS ch TR_FLAGS_TR_STOP).freeSlot t.idx

/-- The standing events of a channel end (R155). -/
def Chip.standEndAll (m : Chip) (ch : Nat) : Chip :=
  (m.chEvs ch).foldl (fun m p => if p.2.life = .standing then m.freeSlot p.1 else m) m

/-- A pulse in flight resolves and leaves its channel; its output turns off where it still holds it and the flag asks (R129, R370). -/
def Chip.pulseResolve (m : Chip) (ch i out cause htb : Nat) : Chip :=
  match m.ev i with
  | none => m
  | some e =>
    let m := m.setChan ch { m.chan ch with pulses := (m.chan ch).pulses.filter (·.idx != i) }
    (m.resolve i e out cause e.lat e.fireTb htb false).freeSlot i

/-- A pulse in flight ends before its time with its own outcome (R129). -/
def Chip.pulseOwn (m : Chip) (ch i : Nat) : Chip :=
  match m.ev i with
  | none => m
  | some e => m.pulseResolve ch i e.outcome e.cause e.fireTb

/-- The drive cuts the output (R244, R370): pulses in flight resolve INTERRUPTED with the cause given. -/
def Chip.cutPulses (m : Chip) (ch cause : Nat) : Chip :=
  (m.chan ch).pulses.foldl (fun m p => m.pulseResolve ch p.idx 6 cause (match m.ev p.idx with | some e => e.fireTb | none => 0)) m

/-- A turn-off by the drive itself (R202, R210, R221, R222, R225): the channel is commanded off and its pulses are interrupted. -/
def Chip.driveCut (m : Chip) (ch : Nat) (fast : Bool) : Chip :=
  let m := ((m.wr MAP_CH_STAT_OWN_ON ch 0).wr CH_STAT_OUT ch 0).cutPulses ch 6
  let m := m.setChan ch { m.chan ch with trainOff := none }
  m.drvOffAs ch fast

/-- A turn-off by the drive in the channel's own decay. -/
def Chip.driveCutOwn (m : Chip) (ch : Nat) : Chip := m.driveCut ch (!(m.drv ch).offSlow)

/-! ## Inhibits (R157, R158) -/

/-- The rank of the highest holder of an inhibit on a channel; 0 for none. -/
def Chip.inhRank (m : Chip) (ch : Nat) : Nat :=
  let b := m.rd CH_STAT_INH ch
  if bitAt b 1 then 3 else if bitAt b 0 then 2 else if m.rdB CH_STAT_INH_C ch then 1 else 0

/-- An owner holds an inhibit on a channel. -/
def Chip.inhHeld (m : Chip) (ch o : Nat) : Bool := if o = 0 then m.rdB CH_STAT_INH_C ch else bitAt (m.rd CH_STAT_INH ch) (o - 1)

def Chip.inhPut (m : Chip) (ch o : Nat) (v : Bool) : Chip :=
  if o = 0 then m.wrB CH_STAT_INH_C ch v else m.wr CH_STAT_INH ch (putBit (m.rd CH_STAT_INH ch) (o - 1) v)

/-- An inhibit is set: pulses and trains of owners below it end as an OFF ends them. -/
def Chip.inhSet (m : Chip) (ch o : Nat) : Chip :=
  let m := if m.inhHeld ch o then m else (m.inhPut ch o true).chFlag ch CH_FLAGS_INH_SET
  let m := (m.chan ch).pulses.foldl (fun m p =>
    match m.ev p.idx with
    | none => m
    | some e =>
      if ownerRank e.owner < ownerRank o then
        let m := m.pulseResolve ch p.idx 5 9 (m.tbOf (ch / 16))
        if p.stays || p.taken then m else m.ownSet ch false m.tb
      else m) m
  match (m.chan ch).train with
  | some t => if ownerRank t.owner < ownerRank o then m.trainStop ch true else m
  | none => if (m.chan ch).trainOff.isSome && decide (ownerRank (m.chOwner ch) < ownerRank o) then m.trainStop ch true else m

/-- An inhibit is removed. -/
def Chip.inhClear (m : Chip) (ch o : Nat) : Chip :=
  if m.inhHeld ch o then (m.inhPut ch o false).chFlag ch CH_FLAGS_INH_CLR else m

/-! ## Firing -/

/-- The late window L in pu with 32 fraction bits (R148). -/
def Chip.lateWin (m : Chip) (ch : Nat) : Int := fx (m.rd CH_TOL_LATE ch * 64)

/-- What keeps an action that falls due from actuating (R543, R244): outcome and cause. -/
def Chip.stops (m : Chip) (ch owner : Nat) (drives : Bool) : Option (Nat × Nat) :=
  if drives && decide (ownerRank owner < m.inhRank ch) then some (5, 7)
  else if m.dgSafe ch then some (3, 6)
  else if drives && m.locked ch then some (3, 6)
  else none

/-- A pulse end, or T_MIN of the frequency cap, of a width in us. -/
def widthTb (w : Nat) : Nat := w * usTb

/-- A train pulse fires at t and turns its channel on (R175); with the gate closed it only counts, and ends the stroke (R276, R281). -/
def Chip.trainPulse (m : Chip) (ch : Nat) (t : Nat) (first : Bool) : Chip :=
  match (m.chan ch).train with
  | none => m
  | some tr =>
    let gated := !m.gateOpen ch
    let m := if gated && !first then m.strokeCut ch else m
    let tr := if gated then tr else { tr with tPrev := some t, prevWidth := tr.width }
    let m := m.setChan ch { m.chan ch with train := some { tr with n := tr.n + 1 }, trainOff := some (t + widthTb tr.width) }
    let m := if gated then m else m.wr TR_PULSES ch (m.rd TR_PULSES ch + 1)
    (m.wr TR_STAT_PAUSE ch 0).ownOn ch t

/-- A TRAIN starts its train (R174). -/
def Chip.trainStart (m : Chip) (i : Nat) (e : Ev) (t : Nat) : Chip :=
  let ch := e.ch
  let tr : Train := {
    idx := i, owner := e.owner, order := e.order, tgt := e.target, ph := e.phase, pitch := e.pitch
    width := e.width, noadv := e.noadv, len := e.len }
  let m := m.setChan ch { m.chan ch with train := some tr }
  let m := ((m.wr TR_STAT_RUN ch 1).wr TR_STAT_SAT ch 0).wr TR_STAT_PAUSE ch 0
  let m := (m.wr TR_RUN_PITCH ch e.pitch).wr TR_RUN_WIDTH ch e.width
  let m := m.setEv i { e with life := .train }
  if e.phase = 0 then m.trainPulse ch t true else m

/-- The effect of an ON, OFF or MARK action that takes effect at t (R129, R156, R181). -/
def Chip.act (m : Chip) (ch owner kind t : Nat) : Chip :=
  if kind = 1 then
    let m := m.trainStop ch true
    let m := m.setChan ch { m.chan ch with pulses := (m.chan ch).pulses.map fun p => { p with stays := true } }
    m.ownOn ch t
  else if kind = 2 then
    let m := (m.trainStop ch true).ownSet ch false t
    if ownerRank (m.chOwner ch) < ownerRank owner then m.inhSet ch owner
    else (m.chan ch).pulses.foldl (fun m p => if p.taken then m else m.pulseOwn ch p.idx) m
  else m

/-- What keeps an event from firing at t with lateness lat: its deadline, the late window, and what R543 names, as outcome and cause; cause is
that of the firing, 1 at arming and 2 in the equal case, which knows no late window (R149, R163, R172). -/
def Chip.evBar (m : Chip) (e : Ev) (lat : Int) (cause t : Nat) : Option (Nat × Nat) :=
  if e.deadline ≠ 0 ∧ e.deadline < t then some (3, 4)
  else if cause ≠ 2 ∧ m.lateWin e.ch < lat then some (3, if cause = 1 then 1 else 6)
  else m.stops e.ch e.owner (e.kind == 1 || e.kind == 3 || e.kind == 4)

/-- An event's first action fires at t with lateness lat (R128, R148, R154, R157). -/
def Chip.evActs (m : Chip) (i : Nat) (e : Ev) (lat : Int) (cause t : Nat) : Chip :=
  let ch := e.ch
  let out := if cause = 2 ∨ lat ≤ fx (m.rd CH_TOL_TOL ch) then 1 else 2
  let l := fxInt lat
  let m := match e.jsn with
    | some j => m.jpush { jsn := j, phase := 2, tb := t }
    | none => m
  if e.kind = 3 then
    let m := m.trainStop ch true
    let x := m.chan ch
    let m := m.setChan ch { x with pulses := (x.pulses.map fun p => { p with taken := true }) ++ [{ idx := i, endTb := t + widthTb e.width }] }
    let m := m.setEv i { e with life := .flying, outcome := out, cause := cause, lat := l, fireTb := t }
    m.ownOn ch t
  else if e.kind = 4 then
    let m := m.trainStop ch true
    let x := m.chan ch
    let m := m.setChan ch { x with pulses := x.pulses.map fun p => { p with taken := true } }
    (m.resolve i e out cause l t t false).trainStart i e t
  else
    let m := m.resolve i e out cause l t t e.bidir
    let m := if e.bidir then m.setEv i { e with life := .standing, fwd := false, ready := false } else m.freeSlot i
    if e.kind = 6 then m.inhClear ch e.owner else m.act ch e.owner e.kind t

/-- An event falls due at t with lateness lat: it fires, or resolves as what keeps it from firing says. -/
def Chip.evFire (m : Chip) (i : Nat) (e : Ev) (lat : Int) (cause t : Nat) : Chip :=
  match m.evBar e lat cause t with
  | some (o, c) => m.finish i e o c
  | none => m.evActs i e lat cause t

/-- The kind of a standing event's next action (R153). -/
def Ev.nextKind (e : Ev) : Nat := if e.fwd then e.kind else if e.kind = 1 then 2 else if e.kind = 2 then 1 else e.kind

/-- A standing event's actions alternate (R153). -/
def Chip.standStep (m : Chip) (i : Nat) (e : Ev) : Chip := m.setEv i { e with fwd := !e.fwd, ready := false }

/-- A refire (R154, R543): too late or stopped, it is skipped as if it had fired. -/
def Chip.refire (m : Chip) (i : Nat) (e : Ev) (lat : Int) (t : Nat) : Chip :=
  let ch := e.ch
  let m := m.standStep i e
  if m.lateWin ch < lat ∨ (m.stops ch e.owner true).isSome then m
  else (m.chFlag ch CH_FLAGS_REFIRE).act ch e.owner e.nextKind t

/-! ## The head pair (R143-R146) -/

/-- An armed action at a tick: distance to its fire point in its own direction. -/
structure Cand where
  key : Nat
  rank : Nat
  order : Nat
  far : Int
  dist : Option Int
  fwd : Bool
deriving DecidableEq, Repr

def Chip.chAxis (m : Chip) (ch : Nat) : Axis := m.axis (m.rd CH_AXIS_AX ch)

/-- The distance from an axis position to a target, in pu with 32 fraction bits (R141). -/
def axDist (x : Axis) (tgt : Nat) : Int := fx (posDiff tgt x.posInt) - ((x.pos % 65536 : Nat) : Int) * 65536

/-- The advance of an action (R138). -/
def Chip.advOf (m : Chip) (ch kind : Nat) (noadv : Bool) : Nat :=
  if noadv ∨ kind = 5 ∨ kind = 6 then 0
  else if kind = 2 then (m.chan ch).close
  else m.rd CH_ADV_USED ch

/-- The next pulse point of a train, as an offset from its T (R174, R179). -/
def Train.offset (t : Train) (n : Nat) : Nat := t.off + ((t.ph + n * 65536) * t.pitch + 32768) / 65536
def Train.point (t : Train) (n : Nat) : Nat := (t.tgt + t.offset n) % 2 ^ 40
def Train.beyond (t : Train) (n : Nat) : Bool := t.len != 0 && decide (t.len * 256 < t.offset n)

/-- A train's next point has no firing TB (R178). -/
def Chip.trainHalted (m : Chip) (ch : Nat) : Bool :=
  let a := m.rd CH_AXIS_AX ch
  m.rd AX_STAT_STATE a != 1 || m.rdB AX_STAT_DIR a || (m.axis a).v == 0

/-- The armed actions of a channel in the direction of travel, nearest ahead first; an event of the equal case has its firing set (R150). -/
def Chip.cands (m : Chip) (ch : Nat) : List Cand :=
  let x := m.chAxis ch
  let back := m.rdB AX_STAT_DIR (m.rd CH_AXIS_AX ch)
  let evs := (m.chEvs ch).filterMap fun (i, e) =>
    if (e.life = .armed ∧ !e.equal) ∨ (e.life = .standing ∧ e.ready) then
      if e.fwd = back then none
      else
        let d := axDist x e.target
        let adv := m.advOf ch e.nextKind e.noadv
        if e.fwd then
          let f := fireDist x.v x.a d adv
          some ⟨i, ownerRank e.owner, e.order, f.getD d, f, true⟩
        else
          let f := backDist x.v d adv
          some ⟨i, ownerRank e.owner, e.order, f, some f, false⟩
    else none
  let pts := match (m.chan ch).train with
    | some t =>
      if m.trainHalted ch || t.beyond t.n then []
      else
        let d := axDist x (t.point t.n)
        let f := fireDist x.v x.a d (m.advOf ch 1 t.noadv)
        [⟨16384, ownerRank t.owner, t.order, f.getD d, f, true⟩]
    | none => []
  sortBy (fun (p q : Cand) => decide (p.far < q.far) || (decide (p.far = q.far) &&
    (decide (q.rank < p.rank) || (p.rank == q.rank && decide (p.order ≤ q.order))))) (evs ++ pts)

/-- The cluster's replica (R22). -/
def Chip.chTb (m : Chip) (ch : Nat) : Nat := m.tbOf (clusterOf ch)

/-- A candidate as the compare holds it from the tick (R142, R144); none where it has no firing TB. A standing action more than L behind,
and an event that R164 will end, hold none. -/
def Chip.headOf (m : Chip) (ch : Nat) (c : Cand) : Option Head :=
  match c.dist with
  | none => none
  | some d =>
    let x := m.chAxis ch
    let v := if c.fwd then x.v else -x.v
    let a := if c.fwd then x.a else -x.a
    let f := ofSigned 40 ((fx x.posInt + ((x.pos % 65536 : Nat) : Int) * 65536 + if c.fwd then d else -d) / fxOne)
    let h := fun t ld => some ⟨c.key, t, ld, ld && decide (2 ≤ (m.chan ch).fired), c.rank, c.order, d, v, a, m.tb, f⟩
    if d ≤ 0 then if c.key < 16384 ∧ d < -(m.lateWin ch) then none else h (m.chTb ch) true
    else match tauTb v a d with
      | none => none
      | some t => h (m.tb + t.toNat) false

/-- The compare of a channel may fire: axis island and cluster run, and the cluster is not in its safe state (R166). -/
def Chip.canFire (m : Chip) (ch : Nat) : Bool := m.runs islAxis && m.runs (clusterOf ch) && !m.safe (clusterOf ch)

/-- T_min in TB (R177): the cap, rounded up to a whole TB, and the previous pulse with 1000 us. -/
def Chip.tMin (m : Chip) (ch : Nat) (t : Train) : Nat :=
  let f := clampN 1 100 (m.rd TR_CFG_FMAX ch)
  max ((200000000 + f - 1) / f) (widthTb (t.prevWidth + 1000))

/-- The TB before which the frequency cap lets no pulse fire. -/
def Chip.trainCapTb (m : Chip) (ch : Nat) (t : Train) : Nat :=
  match t.tPrev with
  | none => 0
  | some p => p + m.tMin ch t

/-- The actions that the compare of a channel holds: none while its axis is HELD or OFF (R146). -/
def Chip.heldHeads (m : Chip) (ch : Nat) : List Head := if m.rd AX_STAT_STATE (m.rd CH_AXIS_AX ch) = 1 then (m.chan ch).heads else []

/-- The TB at which an action that is held falls due: a pulse point waits for the frequency cap (R144, R177). -/
def Chip.effTb (m : Chip) (ch : Nat) (h : Head) : Nat :=
  if h.key < 16384 then h.tb
  else match (m.chan ch).train with
    | some t => max h.tb (m.trainCapTb ch t)
    | none => h.tb

/-- The first action of a channel that falls due by t: by TB, owner rank and acceptance order (R144, R156). -/
def Chip.dueBy (m : Chip) (ch t : Nat) : Option Head :=
  if m.canFire ch then
    let e := m.effTb ch
    (sortBy (fun (p q : Head) => decide (e p < e q) || (e p == e q && (decide (q.rank < p.rank) || (p.rank == q.rank && decide (p.order ≤ q.order)))))
      ((m.heldHeads ch).filter fun h => decide (e h ≤ t))).head?
  else none

/-- The due action of a channel. -/
def Chip.dueHead (m : Chip) (ch : Nat) : Option Head := m.dueBy ch (m.chTb ch)

/-- The lateness of a firing at t (R147). -/
def Head.lateness (h : Head) (t : Nat) : Int := travel h.v h.a ((t : Int) - h.tick) - h.dist

/-- An action leaves the compare as it fires (R145). -/
def Chip.unload (m : Chip) (ch : Nat) (h : Head) : Chip :=
  let x := m.chan ch
  let m := m.setChan ch { x with heads := x.heads.filter (·.key != h.key), fired := x.fired + 1 }
  if h.bunch then m.chFlag ch CH_FLAGS_BUNCHED else m

/-- An event's action fires from the compare. -/
def Chip.headFire (m : Chip) (ch : Nat) (h : Head) : Chip :=
  let m := m.unload ch h
  match m.ev h.key with
  | none => m
  | some e =>
    if e.life = .armed then m.evFire h.key e (h.lateness h.tb) (if h.load then 3 else 0) h.tb
    else m.refire h.key e (h.lateness h.tb) h.tb

/-- A point of a running train is dropped as too late, or because its drive is locked out (R176, R223). -/
def Chip.trainSkip (m : Chip) (ch : Nat) (t : Train) : Chip :=
  let m := m.setChan ch { m.chan ch with train := some { t with n := t.n + 1 } }
  (m.count TR_SKIP_CNT_SKIP ch).setFlag TR_FLAGS ch TR_FLAGS_SKIP

/-- A point that is too late; with the gate closed it only counts in GATED (R276). -/
def Chip.trainTooLate (m : Chip) (ch : Nat) (t : Train) : Chip :=
  if m.gateOpen ch then m.trainSkip ch t
  else (m.setChan ch { m.chan ch with train := some { t with n := t.n + 1 } }).count MAP_CH_CNT_GATED ch

/-- A width from the map applies from the first point at or beyond its position (R279). -/
def Chip.trainWidth (m : Chip) (ch : Nat) (t : Train) : Chip :=
  match t.nextWidth with
  | none => m
  | some (w, p) =>
    if 0 ≤ posDiff (t.point t.n) p then
      (m.setChan ch { m.chan ch with train := some { t with width := w, nextWidth := none } }).wr TR_RUN_WIDTH ch w
    else m

/-- The drive of a train pulse is held off (R223, R244). -/
def Chip.trainBarred (m : Chip) (ch : Nat) (t : Train) : Bool := (m.stops ch t.owner true).isSome

/-- The least of the late window and half the pitch (R176). -/
def Chip.trainLate (m : Chip) (ch : Nat) (t : Train) : Int := minI (m.lateWin ch) (fx t.pitch / 2)

/-- A pulse point fires at its own firing TB, or is dropped (R175, R176). -/
def Chip.pointFire (m : Chip) (ch : Nat) (t : Train) (h : Head) : Chip :=
  let m := m.unload ch h
  if m.trainBarred ch t then m.trainSkip ch t
  else if m.trainLate ch t < h.lateness h.tb then m.trainTooLate ch t
  else ((m.trainWidth ch t).wr TR_STAT_SAT ch 0).trainPulse ch h.tb false

/-- The last pulse point, from n on, whose fire point lies within the travel r from the latest tick. -/
def Chip.lastReached (m : Chip) (ch : Nat) (t : Train) (r : Int) (n fuel : Nat) : Nat :=
  match fuel with
  | 0 => n
  | k + 1 =>
    let x := m.chAxis ch
    match fireDist x.v x.a (axDist x (t.point (n + 1))) (m.advOf ch 1 t.noadv) with
    | none => n
    | some f => if f ≤ r ∧ !t.beyond (n + 1) then m.lastReached ch t r (n + 1) k else n

/-- The cap fires a pulse at t_prev + T_min, at the last point reached, and drops the points before it (R177); with the gate closed each of
them only counts in GATED (R276). -/
def Chip.capFire (m : Chip) (ch : Nat) (t : Train) (h : Head) : Chip :=
  let tf := m.trainCapTb ch t
  let x := m.chAxis ch
  let r := travel x.v x.a ((tf : Int) - m.tickAt)
  let d := axDist x (t.point t.n)
  let k := m.lastReached ch t r t.n (2 * ((r - d) / fx (max 1 t.pitch)).toNat + 64)
  let m := m.unload ch h
  let gated := !m.gateOpen ch
  let m := if gated then m.count MAP_CH_CNT_GATED ch (k - t.n) else m.count TR_SKIP_CNT_SAT ch (k - t.n)
  let t := { t with n := k }
  let m := m.setChan ch { m.chan ch with train := some t }
  if m.trainBarred ch t then m.trainSkip ch t
  else
    let m := (m.trainWidth ch t).trainPulse ch tf false
    if gated then m else (m.wr TR_STAT_SAT ch 1).setFlag TR_FLAGS ch TR_FLAGS_RATE_LIM

/-- A due action fires. -/
def Chip.dueFire (m : Chip) (ch : Nat) (h : Head) : Chip :=
  if h.key < 16384 then m.headFire ch h
  else match (m.chan ch).train with
    | none => m.unload ch h
    | some t => if h.tb < m.trainCapTb ch t then m.capFire ch t h else m.pointFire ch t h

/-- The first pulse in flight that ends by t (R127, R129, R370). -/
def Chip.pulseDue (m : Chip) (ch t : Nat) : Option Pulse :=
  (sortBy (fun p q : Pulse => decide (p.endTb ≤ q.endTb)) ((m.chan ch).pulses.filter fun p => decide (p.endTb ≤ t))).head?

/-- The width of a pulse runs out. -/
def Chip.pulseEnd (m : Chip) (ch : Nat) (p : Pulse) : Chip :=
  let m := m.pulseOwn ch p.idx
  if p.stays || p.taken then m else m.ownSet ch false p.endTb

/-- The width of a train pulse runs out at t (R175, R180). -/
def Chip.trainOffAt (m : Chip) (ch t : Nat) : Chip := (m.setChan ch { m.chan ch with trainOff := none }).ownSet ch false t

/-- The end of a pulse or of a train pulse, whichever comes first. -/
def Chip.endNext (m : Chip) (ch : Nat) (p : Option Pulse) (o : Option Nat) : Option Chip :=
  match p, o with
  | some p, some u => some (if p.endTb ≤ u then m.pulseEnd ch p else m.trainOffAt ch u)
  | some p, none => some (m.pulseEnd ch p)
  | none, some u => some (m.trainOffAt ch u)
  | none, none => none

/-- What falls due next on a channel by t: an action, then at the same TB the end of a pulse, then the end of a train pulse. -/
def Chip.ownerNext (m : Chip) (ch t : Nat) : Option Chip :=
  let p := if m.runs (clusterOf ch) then m.pulseDue ch t else none
  let o := if m.runs (clusterOf ch) then (m.chan ch).trainOff.filter (· ≤ t) else none
  let soon := min ((p.map (·.endTb)).getD (2 ^ 64)) (o.getD (2 ^ 64))
  match m.dueBy ch t with
  | some h => if m.effTb ch h ≤ soon then some (m.dueFire ch h) else m.endNext ch p o
  | none => m.endNext ch p o

/-- Everything of a channel that falls due by t happens, in its order (R161, R277). -/
def Chip.dueAll (m : Chip) (ch t fuel : Nat) : Chip :=
  match fuel with
  | 0 => m
  | k + 1 => match m.ownerNext ch t with
    | some n => n.dueAll ch t k
    | none => m

/-- The event of the equal case that fires next on a channel (R150, R156). -/
def Chip.equalNext (m : Chip) (ch : Nat) : Option (Nat × Ev) :=
  (sortBy (fun p q : Nat × Ev => decide (ownerRank q.2.owner < ownerRank p.2.owner) ||
    (ownerRank p.2.owner == ownerRank q.2.owner && decide (p.2.order ≤ q.2.order)))
    ((m.chEvs ch).filter fun p => p.2.equal && p.2.life == .armed)).head?

/-- The events of the equal case fire at the tick; what falls due before them, or at the same TB and stands before them, fires first (R156). -/
def Chip.equalFire (m : Chip) (ch fuel : Nat) : Chip :=
  match fuel with
  | 0 => m
  | k + 1 => match m.equalNext ch with
    | none => m
    | some (i, e) =>
      let t := m.chTb ch
      let r := ownerRank e.owner
      match (m.dueBy ch t).filter fun h => decide (m.effTb ch h < t) || decide (r < h.rank) || (r == h.rank && decide (h.order ≤ e.order)) with
      | some h => (m.dueFire ch h).equalFire ch k
      | none =>
        let x := m.chAxis ch
        let d := axDist x e.target
        (m.evFire i e (-((fireDist x.v x.a d (m.advOf ch e.kind e.noadv)).getD d)) 2 t).equalFire ch k

/-- R153: the next action of a standing event is armed; R154: one more than L behind is skipped. -/
def Chip.standTick (m : Chip) (ch i : Nat) : Chip :=
  match m.ev i with
  | none => m
  | some e =>
    if e.life = .standing then
      let x := m.chan ch
      let d := axDist (m.chAxis ch) e.target
      if !e.ready then
        if (!e.fwd && decide (d < -(fx x.hys))) || (e.fwd && decide (fx x.hys < d)) then m.setEv i { e with ready := true } else m
      else
        let ax := m.chAxis ch
        let adv := m.advOf ch e.nextKind e.noadv
        let f := if e.fwd then fireDist ax.v ax.a d adv else some (backDist ax.v d adv)
        match f with
        | some f => if f < -(m.lateWin ch) ∧ e.fwd ≠ m.rdB AX_STAT_DIR (m.rd CH_AXIS_AX ch) then m.standStep i e else m
        | none => m
    else m

/-- R165: the axis has been turned off; the events of acceptance order up to lim end. -/
def Chip.axisOffEnd (m : Chip) (ch lim : Nat) : Chip :=
  let m := (m.chEvs ch).foldl (fun m p =>
    if lim < p.2.order then m
    else if p.2.life = .armed then m.finish p.1 p.2 3 5
    else if p.2.life = .standing then m.freeSlot p.1 else m) m
  if (m.chan ch).train.any fun t => decide (t.order ≤ lim) then m.trainStop ch false else m

/-- The head pair of a channel is converted (R143): what has fallen due is kept, and so is a pulse point that waits for the cap, unless its
train has no firing TB (R178). -/
def Chip.headsTick (m : Chip) (ch : Nat) : Chip :=
  let x := m.chan ch
  if m.rd AX_STAT_STATE (m.rd CH_AXIS_AX ch) = 1 then
    let t := m.chTb ch
    let kept := x.heads.filter fun h => decide (m.effTb ch h ≤ t) || (decide (h.tb ≤ t) && !m.trainHalted ch)
    let cs := (m.cands ch).filter fun c => kept.all (·.key != c.key)
    let hs := (cs.take (2 - kept.length)).filterMap (m.headOf ch)
    let near := match cs.head? with
      | none => none
      | some c =>
        let h := m.headOf ch c
        let i := if c.key < 16384 then c.key else match x.train with | some t => t.idx | none => 0
        some (h.map (·.tb), (match h with | some h => h.fp | none => 0), match m.ev i with | some e => handleOf i e.gen | none => 0)
    m.setChan ch { x with heads := kept ++ hs, fired := 0, near := near, nearOld := x.near }
  else m.setChan ch { x with heads := [], fired := 0, near := none, nearOld := x.near }

/-- A channel's part of a prediction tick: settings that act from it (R140, R544), standing events, the head pair, events in the equal case. -/
def Chip.chanTick (m : Chip) (ch : Nat) : Chip :=
  let a := m.rd CH_AXIS_AX ch
  let open_ := if m.rdB CH_ADV_MODE ch then (m.chan ch).tMeas else m.rd CH_ADV_OPEN ch
  let m := m.wr CH_ADV_USED ch open_
  let m := m.setChan ch { m.chan ch with close := m.rd CH_ADV_CLOSE ch, hys := m.rd CH_BIDIR_HYS ch, span := m.rd CH_BIDIR_SPAN ch }
  if !m.runs islAxis then m
  else
    let m := if m.axKind a = 0 then m.axisOffEnd ch m.orderNo else match (m.axis a).offOrder with
      | some n => m.axisOffEnd ch n
      | none => m
    let m := if m.rd AX_STAT_STATE a = 1 then (m.chEvs ch).foldl (fun m p => m.standTick ch p.1) m else m
    let m := if (m.chan ch).train.isSome ∧ m.trainHalted ch then m.wr TR_STAT_PAUSE ch 1 |>.strokeTrainEnd ch else m
    let m := m.headsTick ch
    if m.canFire ch then m.equalFire ch 400 else m

/-! ## Gate actions at a tick (R274) -/

/-- The firing TB of a gate action from the tick; one already due keeps it. -/
def Chip.gateConvert (m : Chip) (ch : Nat) (g : Gate) : Gate :=
  let x := m.chAxis ch
  let a := m.rd CH_AXIS_AX ch
  let t :=
    if m.rd AX_STAT_STATE a ≠ 1 ∨ m.rdB AX_STAT_DIR a ∨ x.v = 0 then none
    else match fireDist x.v x.a (axDist x g.at_) (if g.opens then m.rd CH_ADV_USED ch else (m.chan ch).close) with
      | none => none
      | some f => if f ≤ 0 then some m.tb else (tauTb x.v x.a f).map fun t => m.tb + t.toNat
  match g.fireTb with
  | some u => if u ≤ m.chTb ch then g else { g with fireTb := t }
  | none => { g with fireTb := t }

/-- A channel's gate actions over a tick. -/
def Chip.gateTick (m : Chip) (ch : Nat) : Chip :=
  let x := m.chan ch
  if x.gates = [] then m else m.setChan ch { x with gates := x.gates.map (m.gateConvert ch) }

/-! ## Arming (R136, R150) and cancelling (R159-R161) -/

/-- The arming cases for the event at pool index i, armed now; the answer is the code of R171. An event behind within the late window that
is kept from firing answers 3, as nothing fired (R171). -/
def Chip.armCase (m : Chip) (i : Nat) (e : Ev) : Nat × Chip :=
  let ch := e.ch
  let x := m.chAxis ch
  let e := { e with life := .armed }
  let m := m.setEv i e
  if posDiff e.target x.posInt = -549755813888 then (3, m.finish i e 3 1)
  else match fireDist x.v x.a (axDist x e.target) (m.advOf ch e.kind e.noadv) with
    | none => (1, m)
    | some f =>
      let frac : Int := ((x.pos % 65536 : Nat) : Int) * 65536
      let δ := toSigned 40 (ofSigned 40 ((f + frac) / fxOne))
      if δ = 0 then (2, m.setEv i { e with equal := true })
      else if 0 < δ then (1, m)
      else if -δ ≤ m.rd CH_TOL_LATE ch * 64 ∧ m.canFire ch then
        let t := m.chTb ch
        let lat := travel x.v x.a ((t : Int) - m.tickAt) - f
        (if (m.evBar e lat 1 t).isSome then 3 else 2, m.evFire i e lat 1 t)
      else (3, m.finish i e 3 1)

/-- What is due comes first (R161). -/
def Chip.fireDue (m : Chip) (ch fuel : Nat) : Chip := m.dueAll ch (m.chTb ch) fuel

/-- A cancel that reaches an occupied slot of its owner (R160): true where it is already complete. -/
def Chip.cancelSlot (m : Chip) (i : Nat) (e : Ev) : Bool × Chip :=
  match e.life with
  | .reserved => (false, (m.finish i e 4 10).unstage i)
  | .armed => (false, m.finish i e 4 10)
  | .standing => (false, m.freeSlot i)
  | .train => (true, m)
  | .flying =>
    let holds := (m.chan e.ch).pulses.any fun p => p.idx == i && !p.stays && !p.taken
    let m := m.pulseResolve e.ch i 4 8 e.fireTb
    (false, if holds then m.ownSet e.ch false m.tb else m)

/-! ## Resets and safe states (R27, R166, R375) -/

/-- R375 for one channel: every unresolved event resolves, standing events and trains end, and the output goes off. -/
def Chip.chanSafe (m : Chip) (ch : Nat) (fast : Bool) : Chip :=
  let due := (m.heldHeads ch).filter fun h => decide (h.tb ≤ m.chTb ch)
  let m := (m.chEvs ch).foldl (fun m p =>
    let (i, e) := p
    match e.life with
    | .flying => m.pulseResolve ch i 6 11 e.fireTb
    | .standing => m.freeSlot i
    | .train => m
    | .reserved => (m.finish i e 3 11).unstage i
    | .armed => m.finish i e (if due.any (·.key == i) then 6 else 3) 11) m
  let m := m.trainStop ch false
  let m := m.setChan ch { m.chan ch with heads := [], pulses := [], trainOff := none, near := none }
  ((m.wr MAP_CH_STAT_OWN_ON ch 0).wr CH_STAT_OUT ch 0).drvOffAs ch fast

/-- A cluster enters its safe state (R27, R204); one that stands in it stays as it is. -/
def Chip.clusterSafe (m : Chip) (c : Nat) : Chip :=
  if m.safe c then m
  else
    let m := (m.hsbOpen (2 * c)).hsbOpen (2 * c + 1)
    let m := (m.clusterOrder c).foldl (fun m ch => m.chanSafe ch true) m
    m.setIsland c { m.island c with safeSince := some m.tb }

end Sys2Proof.Machine
end

