-- ==== Sys2Proof/Machine/LatticeOps.lean ====
section
/-! DEFINITION. Operations of the seed lattices (05 R183-R197): cells, cells/s and us with 32 fraction bits. -/

namespace Sys2Proof.Machine

def Chip.lat (m : Chip) (ch : Nat) : Lat := (m.chan ch).lat
def Chip.setLat (m : Chip) (ch : Nat) (x : Lat) : Chip := m.setChan ch { m.chan ch with lat := x }

/-- A lattice flag; no interrupt source (R200). -/
def Chip.latFlag (m : Chip) (ch b : Nat) : Chip := m.setFlag LAT_FLAGS ch b

def latOff : Nat := 0
def latWait : Nat := 1
def latAcq : Nat := 2
def latLock : Nat := 3
def latFault : Nat := 4

def Chip.latState (m : Chip) (ch : Nat) : Nat := m.rd LAT_STAT_STATE ch

/-- The fraction of a number with 32 fraction bits. -/
def fxFrac (x : Int) : Int := x % fxOne

/-- A phase difference wrapped into -1/2 to below +1/2 cell. -/
def fxWrap (x : Int) : Int := let f := x % fxOne; if f < 2147483648 then f else f - fxOne

/-- The lattice definition's cell in pu: 256 · A, A in 0.1 mm. -/
def Chip.latCell (m : Chip) (ch : Nat) : Int := (m.rd LAT_PITCH_A ch : Int) * 256

/-- A length in pu with 32 fraction bits in cells. -/
def Chip.latCells (m : Chip) (ch : Nat) (d : Int) : Int := let a := m.latCell ch; if a = 0 then 0 else d * 10 / a

/-- The lock threshold in cells. -/
def Chip.lockThr (m : Chip) (ch : Nat) : Int := ((m.lat ch).acts.lockThr : Int) * 16777216

/-! ## Geometry (R183-R186) -/

/-- The alignment β in 1/2^32 turn and the direction σ (R184). -/
def Chip.latAlign (m : Chip) (ch : Nat) : Int × Int :=
  let d := toSigned 32 (ofSigned 32 ((m.psiPub : Int) - m.rd LAT_BRG ch))
  if -1073741824 ≤ d ∧ d ≤ 1073741824 then (d, 1)
  else (toSigned 32 (ofSigned 32 (d + 2147483648)), -1)

/-- β lies within ALIGN. -/
def Chip.latStraight (m : Chip) (ch : Nat) : Bool :=
  decide (absI (m.latAlign ch).1 * 3600 ≤ ((m.lat ch).acts.align : Int) * 4294967296)

/-- Line j, offset η from it and φ_L at a field position (R184, R185). -/
def Chip.latPlace (m : Chip) (ch : Nat) (fe fn : Int) : Int × Int × Int :=
  let t := m.rd LAT_BRG ch
  let dE := fe - fx (m.rdI LAT_E0 ch)
  let dN := fn - fx (m.rdI LAT_N0 ch)
  let u := fxMul dE (cosTurn t) + fxMul dN (sinTurn t)
  let w := -(fxMul dE (sinTurn t)) + fxMul dN (cosTurn t)
  let b : Int := max 1 (m.rd LAT_PITCH_B ch)
  let j := (2 * w + b * fxOne) / (2 * b * fxOne)
  let η := w / b - fx j
  let h : Int := if m.rdB LAT_CFG_TYPE ch ∧ j % 2 ≠ 0 then 2147483648 else 0
  let a : Int := max 1 (m.rd LAT_PITCH_A ch)
  (j, η, fxFrac ((m.latAlign ch).2 * (u * 10 / a - h)))

/-- The reference is the lattice (R186). -/
def Chip.latRef (m : Chip) (ch : Nat) : Bool :=
  let a := m.rd CH_AXIS_AX ch
  m.axKind a == 1 && m.rdB AX_STAT_FIELD_OK a && !m.rdB LAT_CFG_FREE ch && m.latStraight ch

/-- φ_S for an anchor (R186). -/
def Chip.latSpacing (m : Chip) (ch : Nat) (anc : Int) : Int :=
  let p := (m.chAxis ch).pos * 65536 - anc
  let w := p % (1099511627776 * fxOne)
  fxFrac (m.latCells ch (if w < 549755813888 * fxOne then w else w - 1099511627776 * fxOne))

/-- φ_ref at a TB, extrapolated from the latest tick with v_u (R189). -/
def Chip.phiRef (m : Chip) (ch : Nat) (t : Int) : Int :=
  let x := m.lat ch
  x.phi + m.latCells ch (x.vu * (t - x.tick) / 200000000)

/-- φ_T at a TB (R189). -/
def Chip.phiTarget (m : Chip) (ch : Nat) (t : Int) : Int :=
  let x := m.lat ch
  fxFrac (m.phiRef ch t + m.latCells ch (fxMul x.vu x.tube / 1000000) + x.trim)

/-! ## The phase wheel (R187) -/

/-- TC of a wheel in pulse edges per turn (R65): from its teeth and its mode. -/
def Chip.whlTc (m : Chip) (n : Nat) : Nat :=
  let t := m.rd WHL_TEETH_TEETH n
  if m.rd WHL_CFG_MODE n = 3 ∨ m.rd WHL_CFG_MODE n = 4 then 4 * t else t

def Chip.latUsable (m : Chip) (ch : Nat) : Bool :=
  let w := m.rd LAT_CFG_WHL ch
  let st := m.rd WHL_STAT_STATE w
  (m.rd WHL_CFG_MODE w == 2 || m.rd WHL_CFG_MODE w == 4) && (st == 2 || st == 3 || st == 4) && !m.rdB WHL_STAT_DIR w &&
    (m.rdB WHL_STAT_ANGLE_VALID w || m.whlTc w == m.rd LAT_CFG_CELLS ch)

/-! ## States (R193) -/

/-- The PWM channel of a lattice, where it has one. -/
def Chip.latPwm (m : Chip) (ch : Nat) : Option Nat :=
  if m.rdB LAT_CFG_EN ch && m.rdB LAT_CFG_OUTSEL ch then some (m.rd LAT_OUT_UNIT ch) else none

/-- The PWM output goes on, firing at the present TB, or off (R191). -/
def Chip.pwmSet (m : Chip) (o : Nat) (on : Bool) : Chip :=
  let was := m.rdB CH_STAT_OUT o
  let m := m.wrB CH_STAT_OUT o on
  if on && !was then m.drvStart o m.tb else if !on && was then m.drvOff o else m

/-- The PWM output of a lattice stops. -/
def Chip.pwmStop (m : Chip) (ch : Nat) : Chip :=
  match m.latPwm ch with
  | some o => (m.setLat ch { m.lat ch with periodTb := none, offTb := none, pwmOut := 0 }).pwmSet o false
  | none => m

/-- A lattice enters a state: I = 0 and c = 0 in WAIT, c = 0 in FAULT (R190, R193). -/
def Chip.latGo (m : Chip) (ch st : Nat) : Chip :=
  let old := m.latState ch
  let m := m.wr LAT_STAT_STATE ch st
  let x := m.lat ch
  if st = latWait then ((m.setLat ch { x with integ := 0, c := 0, clampDir := 0, releases := x.releases }).wr LAT_C ch 0).pwmStop ch |>.wr LAT_STAT_SAT ch 0
  else if st = latFault then (((m.setLat ch { x with c := 0, clampDir := 0, faultTb := m.tb }).wr LAT_C ch 0).pwmStop ch).wr LAT_STAT_SAT ch 0
  else if st = latAcq then
    if old = latLock then m.setLat ch { x with inRow := 0, outRow := 0 }
    else (m.setLat ch { x with e := 0, inRow := 0, outRow := 0, edgeTb := m.tb, hadEdge := false }).wr LAT_ERR ch 0
  else m.setLat ch { x with inRow := 0, outRow := 0 }

/-- The command and whether windows open, from now on (R195). -/
def Chip.latNote (m : Chip) (ch : Nat) : Chip :=
  let x := m.lat ch
  let st := m.latState ch
  m.setLat ch { x with cmds := (m.tb, x.c, st == latAcq || st == latLock) :: x.cmds }

/-- A drop in no window counts as a double (R195). -/
def Chip.latLoose (m : Chip) (ch : Nat) : Chip :=
  let m := (m.latFlag ch LAT_FLAGS_DOUBLE).count LAT_SKIP_CNT_DBL ch
  m.wr LAT_SEEDS ch (m.rd LAT_SEEDS ch + 1)

/-- The drops that wait for an edge fall in no window. -/
def Chip.latLooseAll (m : Chip) (ch : Nat) : Chip :=
  let ds := (m.lat ch).loose
  ds.foldl (fun m _ => m.latLoose ch) (m.setLat ch { m.lat ch with loose := [] })

/-- A lattice enters a state; in FAULT no edge comes that could open a window for the drops that wait. -/
def Chip.latTo (m : Chip) (ch st : Nat) : Chip :=
  let m := (m.latGo ch st).latNote ch
  if st = latFault then m.latLooseAll ch else m

/-- Entry into FAULT (R193). -/
def Chip.latFail (m : Chip) (ch : Nat) (stall : Bool) : Chip :=
  let m := (m.latFlag ch LAT_FLAGS_WHL_LOST).latFlag ch LAT_FLAGS_FAULT_IN
  (m.setLat ch { m.lat ch with stalled := stall }).latTo ch latFault

/-- A target step (R194): the lattice in LOCK goes to ACQ. -/
def Chip.latStep (m : Chip) (ch : Nat) (d : Int) : Chip :=
  if m.lockThr ch < absI (fxWrap d) then
    let m := m.latFlag ch LAT_FLAGS_TGT_STEP
    if m.latState ch = latLock then (m.latFlag ch LAT_FLAGS_LOCK_OUT).latTo ch latAcq else m
  else m

/-- What LAT_ALIGN, LAT_LOOP, LAT_OSCALE, LAT_OOFS, LAT_CELL_OFS, LAT_FALL and LAT_LEARN hold takes effect (R192). -/
def Chip.latAdopt (m : Chip) (ch : Nat) : Chip :=
  m.setLat ch { m.lat ch with acts := {
    align := m.rd LAT_ALIGN_ALIGN ch, lineTol := m.rd LAT_ALIGN_LINE_TOL ch, vmin := m.rd LAT_ALIGN_VMIN ch
    bw := m.rd LAT_LOOP_BW ch, slew := m.rd LAT_LOOP_SLEW ch, lockThr := m.rd LAT_LOOP_LOCK_THR ch, lockN := m.rd LAT_LOOP_LOCK_N ch
    oscale := m.rdI LAT_OSCALE ch, oofs := m.rdI LAT_OOFS ch, cellOfs := m.rd LAT_CELL_OFS ch, fall := m.rd LAT_FALL ch
    tshift := m.rd LAT_LEARN_TSHIFT ch, pshift := m.rd LAT_LEARN_PSHIFT ch, tlim := m.rd LAT_LEARN_TLIM ch } }

/-- Ready (R193). -/
def Chip.latReady (m : Chip) (ch : Nat) : Bool :=
  m.rd AX_STAT_STATE (m.rd CH_AXIS_AX ch) == 1 && decide (fx ((m.lat ch).acts.vmin * 256) ≤ (m.lat ch).vu) && m.latUsable ch &&
    (!m.rdB LAT_CFG_GATE ch || m.rdB CH_STAT_OUT ch)

/-- The phase of the tick, with the line, its flags and a target step (R184-R186, R194). -/
def Chip.latPhase (m : Chip) (ch : Nat) : Chip :=
  let x := m.lat ch
  let ax := m.chAxis ch
  let (β, σ) := m.latAlign ch
  let vu := fxMul ax.v (cosTurn (ofSigned 32 β))
  let ref := m.latRef ch
  let was := m.rdB LAT_STAT_REF ch
  let (j, η, φ) := m.latPlace ch ax.fe ax.fn
  let fld := m.rdB AX_STAT_FIELD_OK (m.rd CH_AXIS_AX ch)
  let near := decide (absI η * 100 ≤ (x.acts.lineTol : Int) * fxOne)
  let m := if fld then
      let m := if x.begun ∧ j ≠ x.j then m.latFlag ch LAT_FLAGS_LINE_CHG else m
      let m := if near then m else m.latFlag ch LAT_FLAGS_OFFLINE
      (m.wrI LAT_LINE ch j).wrB LAT_STAT_ODD ch (decide (j % 2 ≠ 0))
    else m
  let m := if m.latStraight ch then m else m.latFlag ch LAT_FLAGS_MISALIGN
  let m := (m.wrB LAT_STAT_ALIGNED ch (m.latStraight ch && fld && near)).wrB LAT_STAT_REF ch ref
  let m := m.wrB LAT_STAT_DR ch (m.rdB MDL_STAT_FIELD_DR)
  let anc := if ref then x.anc
    else if !x.begun then ax.pos * 65536
    else if was then ax.pos * 65536 - x.phi * m.latCell ch / 10
    else x.anc
  let phi := if ref then φ else m.latSpacing ch anc
  let m := m.setLat ch { m.lat ch with anc := anc, phi := phi, vu := vu, tick := m.tb, begun := true, j := if fld then j else x.j, sigma := σ }
  if !x.begun then m
  else if ref ∧ !was then m.latStep ch (φ - m.latSpacing ch x.anc)
  else if ref ∧ m.rdB LAT_CFG_TYPE ch ∧ j % 2 ≠ x.j % 2 then m.latStep ch 2147483648
  else m

/-- A lattice over a prediction tick. -/
def Chip.latTick (m : Chip) (ch : Nat) : Chip :=
  if m.latState ch = latOff then m
  else
    let m := m.latPhase ch
    let us := m.latUsable ch
    let x := m.lat ch
    let m := m.setLat ch { x with usableFrom := if us then some (x.usableFrom.getD m.tb) else none }
    let st := m.latState ch
    if st = latFault then m
    else if !us then m.latFail ch false
    else if st = latWait then if m.latReady ch then m.latTo ch latAcq else m
    else if m.latReady ch then m
    else
      let m := if st = latLock then m.latFlag ch LAT_FLAGS_LOCK_OUT else m
      m.latTo ch latWait

/-! ## Edges of the phase wheel (R188, R189, R193, R195) -/

/-- Releases between two edges: θ_d passes each whole number of cells on the way from the old phase over adv cells. -/
def relList (θ adv : Int) (te dt : Int) (n : Nat) : List Int :=
  match n with
  | 0 => []
  | k + 1 => relList θ adv te dt k ++ (if adv = 0 then [] else [te - (θ + adv - fx (k + 1 : Nat)) * dt / adv])

/-- The command at a TB, and whether windows open then (R195). -/
def cmdAt (l : List (Nat × Int × Bool)) (t : Int) : Int × Bool :=
  match l with
  | [] => (0, false)
  | (u, c, o) :: r => if (u : Int) ≤ t then (c, o) else cmdAt r t

/-- The commands that an edge at t leaves of interest: those since, and the one that holds at t. -/
def cmdsFrom (l : List (Nat × Int × Bool)) (t : Nat) : List (Nat × Int × Bool) :=
  match l with
  | [] => []
  | (u, c) :: r => if u ≤ t then [(u, c)] else (u, c) :: cmdsFrom r t

/-- Half the width of a window in TB (R195). -/
def windowHalf (c : Int) : Int := if c ≤ 0 then 0 else 100000000 * fxOne / c

/-- The middle of a window less the TB of its release (R195). -/
def Chip.windowMid (m : Chip) (ch : Nat) : Int :=
  let x := m.lat ch
  x.tube * 200 / fxOne - x.acts.fall * 200

/-- A release at tr opens its window, if the lattice was in ACQ or LOCK then, with the command of that moment (R195). -/
def Chip.latRelease (m : Chip) (ch : Nat) (tr : Int) : Chip :=
  let x := m.lat ch
  let (c, open_) := cmdAt x.cmds tr
  if m.rdB LAT_CFG_NOSDS ch ∨ c ≤ 0 ∨ !open_ then m
  else
    let mid := tr + m.windowMid ch
    let half := windowHalf c
    m.setLat ch { x with releases := x.releases ++ [{ tr := tr, from_ := mid - half, upto := mid + half }] }

/-- A window that a drop falls in. -/
def Release.hit (r : Release) (td : Nat) : Bool := !r.closed && decide (r.from_ ≤ td) && decide ((td : Int) ≤ r.upto)

/-- A drop put to the first window that it falls in. -/
def putDrop (rs : List Release) (td : Nat) : List Release :=
  match rs with
  | [] => []
  | r :: l => if r.hit td then { r with drops := r.drops + 1, firstDrop := some (r.firstDrop.getD td) } :: l else r :: putDrop l td

/-- A drop: into the window it falls in; else it waits until an edge tells the releases around it (R195; DESIGN CHOICE, log entry 139). -/
def Chip.latDrop (m : Chip) (ch td : Nat) : Chip :=
  let x := m.lat ch
  if x.releases.any (·.hit td) then m.setLat ch { x with releases := putDrop x.releases td }
  else if m.latState ch = latFault then m.latLoose ch
  else m.setLat ch { x with loose := x.loose ++ [td] }

/-- The drops that wait, after an edge at te: each goes into a window, waits on, or falls in none, as no later release can reach it. -/
def Chip.latSettle (m : Chip) (ch te : Nat) : Chip :=
  let ds := (m.lat ch).loose
  ds.foldl (fun m td =>
    let x := m.lat ch
    if !x.releases.any (·.hit td) ∧ (td : Int) < te + m.windowMid ch - windowHalf x.c then m.latLoose ch else m.latDrop ch td)
    (m.setLat ch { m.lat ch with loose := [] })

/-- A qualified edge of the usable phase wheel at te, d counts on, the wheel's angle with no interpolation given as a fraction of 2^32. -/
def Chip.latEdge (m : Chip) (ch : Nat) (te : Nat) (angle : Nat) (d : Int) : Chip :=
  if m.latState ch = latOff ∨ !m.latUsable ch then m
  else
    let x := m.lat ch
    let cells : Int := m.rd LAT_CFG_CELLS ch
    let θ := fxFrac (cells * angle + (x.acts.cellOfs : Int) * 65536)
    let tc : Int := max 1 (m.whlTc (m.rd LAT_CFG_WHL ch))
    let adv := cells * d * fxOne / tc
    let rels := if x.hadEdge ∧ 0 < adv then relList x.theta adv te ((te : Int) - x.edgeTb) (fxInt (x.theta + adv)).toNat else []
    let m := (rels.foldl (fun m t => m.latRelease ch t) m).latSettle ch te
    let e := fxWrap (θ - m.phiTarget ch te)
    let e := if 2147483648 - 65536 < e then 2147483648 - 65536 else e
    let thr := m.lockThr ch
    let inR := if absI e ≤ thr then x.inRow + 1 else 0
    let outR := if 2 * thr < absI e then x.outRow + 1 else 0
    let m := (m.setLat ch { m.lat ch with theta := θ, e := e, edgeTb := te, hadEdge := true, inRow := inR, outRow := outR, cmds := cmdsFrom x.cmds te }).wrI LAT_ERR ch (e / 65536)
    if m.latState ch = latAcq ∧ max 1 x.acts.lockN ≤ inR then (m.latFlag ch LAT_FLAGS_LOCK_IN).latTo ch latLock
    else if m.latState ch = latLock ∧ 2 ≤ outR then (m.latFlag ch LAT_FLAGS_LOCK_OUT).latTo ch latAcq
    else m

/-- An edge of a wheel goes to the lattice that names it (R187). -/
def Chip.latWheelEdge (m : Chip) (n te angle : Nat) (d : Int) : Chip :=
  m.latsOn.foldl (fun m ch => if m.rd LAT_CFG_WHL ch = n then m.latEdge ch te angle d else m) m

/-! ## Drops (R195-R197) -/

/-- The root mean square of the last 64 landing errors, in 0.1 mm. -/
def latSpread (es : List Int) : Nat :=
  if es.length < 64 then 0 else min 65535 (isqrt ((es.foldl (fun a x => a + x * x) 0) / 64 / fxOne).toNat / 65536)

/-- What a single drop whose landing error is known brings (R197). -/
def Chip.latLanded (m : Chip) (ch : Nat) (ε : Int) : Chip :=
  let x := m.lat ch
  let mm := ε * m.rd LAT_PITCH_A ch
  let es := (mm :: x.errors).take 64
  let m := (m.setLat ch { x with errors := es }).wrSat LAT_DROP_ERR ch (fxInt mm)
  let m := m.wr LAT_SPREAD ch (latSpread es)
  if m.rdB LAT_CFG_TRIM ch ∧ m.latState ch = latLock then
    let τ := x.trim - ε / (2 ^ x.acts.pshift : Nat)
    let c := clampI (-1073741824) 1073741824 τ
    let m := (m.setLat ch { m.lat ch with trim := c }).wrI LAT_TRIM ch (c / 65536)
    if c = τ then m else m.latFlag ch LAT_FLAGS_TRIM_LIM
  else m

/-- The learned tube delay after a single drop in LOCK (R196). -/
def Chip.latLearn (m : Chip) (ch : Nat) (td : Nat) (tr : Int) : Chip :=
  if m.rdB LAT_CFG_LEARN ch ∧ m.latState ch = latLock then
    let x := m.lat ch
    let meas := ((td : Int) - tr) * fxOne / 200 + fx x.acts.fall
    let t := x.tube + (meas - x.tube) / (2 ^ x.acts.tshift : Nat)
    let t0 := fx (m.rd LAT_TUBE_T0 ch)
    let lim : Int := x.acts.tlim
    let c := clampI (t0 * (100 - lim) / 100) (t0 * (100 + lim) / 100) t
    let m := (m.setLat ch { x with tube := c }).wrI LAT_TUBE_L ch (roundDiv c fxOne)
    if c = t then m else m.latFlag ch LAT_FLAGS_TUBE_LIM
  else m

/-- A drop of a seed sensor goes to the lattice that names it (R195). -/
def Chip.latSensorDrop (m : Chip) (n td : Nat) : Chip :=
  m.latsOn.foldl (fun m ch => if !m.rdB LAT_CFG_NOSDS ch ∧ m.rd LAT_CFG_SDS ch = n then m.latDrop ch td else m) m

/-- The judgement of a release whose window is over (R195, R196). -/
def Chip.latJudge (m : Chip) (ch : Nat) (r : Release) : Chip :=
  if r.drops = 0 then
    let x := m.lat ch
    let m := ((m.setLat ch { x with skips := x.skips + 1 }).count LAT_SKIP_CNT_SKIP ch).latFlag ch LAT_FLAGS_SKIP
    if x.skips + 1 = 16 then m.latFlag ch LAT_FLAGS_NO_SEED else m
  else
    let m := m.setLat ch { m.lat ch with skips := 0 }
    let m := m.wr LAT_SEEDS ch (m.rd LAT_SEEDS ch + r.drops)
    if r.drops = 1 then
      let m := m.latLearn ch (r.firstDrop.getD 0) r.tr
      match r.eps with
      | some ε => m.latLanded ch ε
      | none => m
    else (m.count LAT_SKIP_CNT_DBL ch (r.drops - 1)).latFlag ch LAT_FLAGS_DOUBLE

/-! ## Safe states -/

/-- A cluster enters its safe state, and its lattice outputs stop (R27, R204). -/
def Chip.clusterStop (m : Chip) (c : Nat) : Chip :=
  (clusterChs c).foldl (fun m ch => if m.rdB LAT_CFG_EN ch then m.pwmStop ch else m) (m.clusterSafe c)

end Sys2Proof.Machine
end

