-- ==== Sys2Proof/Machine/AnalogOps.lean ====
section
/-! DEFINITION. Operations of the modulators, Assay, the general comparators and the seed sensors (12 R408-R434). -/

namespace Sys2Proof.Machine

def Chip.adcU (m : Chip) (u : Nat) : AdcUnit := tabGet m.adc u {}
def Chip.setAdc (m : Chip) (u : Nat) (x : AdcUnit) : Chip := { m with adc := tabPut m.adc u x }

/-! ## Inputs and codes (R408-R411) -/

/-- A differential input code. -/
def inDiff (c : Nat) : Bool := decide (64 ≤ c) && decide (c < 88)

/-- The die of an input code: 0, 1, or 2 for an input of both dies; none for no input. -/
def inDie (c : Nat) : Option Nat :=
  if c < 48 then some (c / 24)
  else if c < 64 then none
  else if c < 88 then some (2 * (c - 64) / 24)
  else if c < 128 then none
  else if c < 160 then some ((c - 128) / 2 / 8)
  else if c < 256 then none
  else if c < 640 then some ((c - 256) / 2 / 96)
  else if c < 832 then some ((c - 640) / 2 / 48)
  else if 896 ≤ c ∧ c < 899 then some 2
  else none

/-- A modulator reaches an input. -/
def adcReach (u c : Nat) : Bool :=
  match inDie c with
  | none => false
  | some d => d == 2 || d == u / 2

/-- The code of a voltage in nV before clipping (R410). -/
def adcCode (diff : Bool) (nv : Int) : Int := if diff then roundDiv (nv * 8388608) 2500000000 else nv * 16777216 / 5000000000

/-- The clipped code. -/
def adcClip (diff : Bool) (c : Int) : Int := if diff then clampI (-8388608) 8388607 c else clampI 0 16777215 c

/-- A code in a result word (R411). -/
def adcWord (left : Bool) (c : Int) : Nat := if left then ofSigned 24 c * 256 else ofSigned 32 c

/-- Three output periods in TB, and the least whole number of TB in n half periods, of a rate (R413). -/
def adcHalves (rate n : Nat) : Nat := 100000 * n / 2 ^ min rate 6

/-! ## Conversion (R415-R418) -/

/-- ADC0 or ADC2 runs a pair. -/
def Chip.adcPair (m : Chip) (u : Nat) : Bool := m.rdB ADC_CTL_PAIR u

/-- The rate at which a modulator converts by its registers. -/
def Chip.adcRate (m : Chip) (u : Nat) : Nat := if m.adcPair u then 6 else min 6 (m.rd ADC_CTL_RATE u)

/-- A restart of the decimator at a TB; the first result lands three periods later. -/
def Chip.adcRestart (m : Chip) (u input t : Nat) : Chip :=
  let r := m.adcRate u
  m.setAdc u { m.adcU u with start := t, next := t + adcHalves r 6, input := input, rate := r, other := false, restart := none }

/-- The next output period boundary of a modulator. -/
def Chip.adcBoundary (m : Chip) (u : Nat) : Nat :=
  let x := m.adcU u
  let p := adcHalves x.rate 2
  if x.next ≤ m.tb ∨ p = 0 then max m.tb x.next else x.next - (x.next - m.tb) / p * p

/-- A write of ADC_SEL or of RATE in MODE 1: a restart at the next boundary; where a result is due there, it lands first (R415). -/
def Chip.adcSwitch (m : Chip) (u : Nat) : Chip :=
  let x := m.adcU u
  let b := m.adcBoundary u
  if b = x.next then m.setAdc u { x with restart := some b } else m.adcRestart u (m.rd ADC_SEL_INPUT u) b

/-- ADC_STAT.SETTLE as it stands: the two outputs after a restart are being discarded. -/
def Chip.adcSettle (m : Chip) (u : Nat) : Bool :=
  let x := m.adcU u
  m.rdB ADC_STAT_BUSY u && decide (x.start ≤ m.tb ∧ m.tb < x.start + adcHalves x.rate 4)

/-- A result's TB: the landing TB less one and a half periods; half a TB falls either way. -/
def Chip.adcTb (m : Chip) (u : Nat) : Nat × Chip :=
  let r := (m.adcU u).rate
  if r = 6 then
    let (x, m) := m.free
    (m.tbOf islObserver - 4687 - (x % 2).toNat, m)
  else (m.tbOf islObserver - adcHalves r 3, m)

/-- Every deflection input fed by the modulator takes the code of a result (R110, R417). -/
def Chip.adcDeflect (m : Chip) (u input : Nat) (c : Int) : Chip :=
  (List.range 8).foldl (fun m d =>
    if m.rd MDL_DF_CFG_SRC d = 1 ∧ m.rd MDL_DF_CFG_UNIT d = u ∧ m.rd MDL_DF_CFG_AIN d = input then m.deflOffer d c else m) m

/-- What lands with a result: its flags, its register, and the deflection it measures. -/
def Chip.adcPut (m : Chip) (u : Nat) (input : Nat) (raw c : Int) (lost : Bool) : Chip :=
  let m := if c = raw then m else m.adcFlag u ADC_FLAGS_RANGE
  let m := if lost then m.adcFlag u ADC_FLAGS_OVR else m
  let m := (m.wr ADC_RES u (adcWord (m.rdB ADC_CTL_ALIGN u) c)).wr ADC_STAT_NEW u 1
  let m := if m.rd ADC_CTL_MODE u = 2 then m.wr ADC_STAT_BUSY u 0 else m
  (m.adcFlag u ADC_FLAGS_DRDY).adcDeflect u input c

/-- A result lands; in a pair the two modulators land 1562 and 1563 TB apart in turn. A read of this cycle returns the one before it (R417). -/
def Chip.adcLand (m : Chip) (u : Nat) (nv : Int) : Chip :=
  let x := m.adcU u
  let pair := m.adcPair u
  let other := pair && x.other
  let raw := adcCode (inDiff x.input) nv + (if other then m.rdI ADC_PAIR_OFS u else 0)
  let c := adcClip (inDiff x.input) raw
  let (t, m) := m.adcTb u
  let period := if pair then (if other then 1563 else 1562) else adcHalves x.rate 2
  let lost := m.rdB ADC_STAT_NEW u
  let old : AdcOld := ⟨m.rd ADC_RES u, x.resInput, x.resUnit, x.resClip, x.resTb, lost && !bitAt (m.rd ADC_FLAGS u) ADC_FLAGS_OVR⟩
  let m := m.setCycle { m.cycle with adcs := tabPut m.cycle.adcs u old }
  let m := m.setAdc u { x with
    next := m.tb + period, other := pair && !x.other, resInput := x.input, resUnit := if other then u + 1 else u
    resClip := c != raw, resTb := t }
  let m := match x.restart with
    | some b => m.adcRestart u (m.rd ADC_SEL_INPUT u) b
    | none => m
  m.adcPut u x.input raw c lost

/-- The modulator's clock runs. -/
def Chip.adcClock (m : Chip) (u : Nat) : Bool := m.runs islObserver && m.ungated 0 (20 + u)

/-- A modulator takes a mode. -/
def Chip.adcMode (m : Chip) (u mode : Nat) : Chip := (m.wr ADC_CTL_MODE u mode).wrB ADC_STAT_BUSY u (mode == 1)

/-- A pair ends: the partner returns to MODE 0. -/
def Chip.pairEnd (m : Chip) (u : Nat) : Chip := ((m.wr ADC_CTL_PAIR u 0).adcMode (u + 1) 0).wr ADC_STAT_PAIRED (u + 1) 0

/-- A write of ADC_CTL (R415, R416, R418). -/
def Chip.adcCtl (m : Chip) (u mode rate : Nat) (left pair : Bool) : Chip :=
  if m.rdB ADC_STAT_PAIRED u then m.adcFlag u ADC_FLAGS_CFG_ERR
  else
    let first := u % 2 == 0
    let was := m.adcPair u
    if first && pair && !was && (mode != 1 || m.rd ADC_CTL_MODE (u + 1) != 0) then m.adcFlag u ADC_FLAGS_CFG_ERR
    else
      let oldMode := m.rd ADC_CTL_MODE u
      let oldRate := m.rd ADC_CTL_RATE u
      let m := (m.wr ADC_CTL_RATE u rate).wrB ADC_CTL_ALIGN u left
      let m := if was ∧ (!pair ∨ mode ≠ 1) then m.pairEnd u else m
      let start := first && pair && !was
      let m := if start then ((m.wr ADC_CTL_PAIR u 1).adcMode (u + 1) 1).wr ADC_STAT_PAIRED (u + 1) 1 else m
      let m := if mode = oldMode then m else m.adcMode u mode
      if mode ≠ 1 then m
      else if oldMode = 1 ∧ !start then (if rate ≠ oldRate ∧ !m.adcPair u then m.adcSwitch u else m)
      else m.adcRestart u (m.rd ADC_SEL_INPUT u) m.tb

/-- A write of ADC_SEL (R415, R416). -/
def Chip.adcSel (m : Chip) (u input : Nat) : Chip :=
  if m.rdB ADC_STAT_PAIRED u ∨ !adcReach u input then m.adcFlag u ADC_FLAGS_CFG_ERR
  else
    let m := m.wr ADC_SEL_INPUT u input
    if m.rd ADC_CTL_MODE u = 1 then m.adcSwitch u else m

/-- A write of ADC_CMD.START. -/
def Chip.adcBegin (m : Chip) (u : Nat) : Chip :=
  if m.rdB ADC_STAT_PAIRED u ∨ m.rd ADC_CTL_MODE u ≠ 2 ∨ m.rdB ADC_STAT_BUSY u then m.adcFlag u ADC_FLAGS_CFG_ERR
  else (m.wr ADC_STAT_BUSY u 1).adcRestart u (m.rd ADC_SEL_INPUT u) m.tb

/-! ## Assay (R419-R421) -/

/-- Assay stops. -/
def Chip.asStop (m : Chip) : Chip :=
  let m := match m.assay.run with
    | some r => if m.rd ADC_CTL_MODE r.unit = 3 then m.wr ADC_STAT_BUSY r.unit 0 else m
    | none => m
  { (m.wr AS_CTL_EN 0 0).wr AS_STAT_RUN 0 0 with assay := {} }

/-- Entry i as Assay would run it. -/
def Chip.asEntry (m : Chip) (i : Nat) : AsRun :=
  { entry := i, input := m.rd AS_E0_INPUT i, unit := m.rd AS_E0_UNIT i, rate := min 6 (m.rd AS_E0_RATE i), pull := m.rd AS_E0_PULL i
    delay := m.rd AS_E1_DELAY i, rep := m.rd AS_E1_REPEAT i, lo := m.rd AS_E2_LIM_LO i, hi := m.rd AS_E3_LIM_HI i
    last := m.rdB AS_E0_LAST i, start := m.tb }

/-- Assay moves on past an entry, returning to entry 0 after the last; a full pass that ran nothing stops it (R421). -/
def Chip.asAdvance (m : Chip) (i : Nat) (last : Bool) : Chip :=
  if last ∨ 63 ≤ i then
    let m := (m.wr AS_STAT_LOOPS 0 (m.rd AS_STAT_LOOPS + 1)).asFlag AS_FLAGS_LOOP
    if m.assay.ran then { m with assay := { m.assay with pos := 0, ran := false } }
    else m.asStop.asFlag AS_FLAGS_STOPPED
  else { m with assay := { m.assay with pos := i + 1 } }

/-- Entries are taken in order until one runs or Assay stops. -/
def Chip.asTake (m : Chip) (fuel : Nat) : Chip :=
  match fuel with
  | 0 => m
  | k + 1 =>
    let i := m.assay.pos
    let e := m.asEntry i
    if !m.rdB AS_CTL_EN then m
    else if !m.rdB AS_E0_EN i then (m.asAdvance i e.last).asTake k
    else if m.rd ADC_CTL_MODE e.unit ≠ 3 ∨ !adcReach e.unit e.input then ((m.asFlag AS_FLAGS_SKIP).asAdvance i e.last).asTake k
    else
      let m := m.setAdc e.unit { m.adcU e.unit with start := m.tb + e.delay * usTb, input := e.input, rate := e.rate, other := false, restart := none }
      { (m.wr AS_STAT_ENTRY 0 i).wr ADC_STAT_BUSY e.unit 1 with assay := { m.assay with run := some e, ran := true } }

/-- The mean of codes, rounded to the nearest with ties away from zero. -/
def meanAway (cs : List Int) : Int :=
  let n : Int := cs.length
  let s := cs.foldl (· + ·) 0
  if n = 0 then 0 else if s < 0 then -((-s * 2 + n) / (2 * n)) else (s * 2 + n) / (2 * n)

/-- The limit test of an entry (R420). -/
def asOut (r : AsRun) (w : Nat) : Bool :=
  let f := fun x : Nat => if inDiff r.input then toSigned 32 x else (x : Int)
  decide (f r.lo ≤ f r.hi) && (decide (f w < f r.lo) || decide (f r.hi < f w))

/-- TB from the start of an entry to its store (R422). -/
def asSpan (r : AsRun) : Nat := r.delay * usTb + adcHalves r.rate (2 * (3 + r.rep))

/-- The store of an entry; a read of this cycle returns the value before it (R421). -/
def Chip.asStore (m : Chip) (r : AsRun) (results : List Int) : Chip :=
  let raws := results.map (adcCode (inDiff r.input))
  let cs := raws.map (adcClip (inDiff r.input))
  let w := adcWord false (meanAway cs)
  let m := m.setCycle { m.cycle with results := tabPut m.cycle.results r.entry (m.rd AS_RES r.entry) }
  let m := { (m.wr AS_RES r.entry w).wr ADC_STAT_BUSY r.unit 0 with assay := { m.assay with run := none } }
  let m := if cs = raws then m else m.adcFlag r.unit ADC_FLAGS_RANGE
  if asOut r w then
    let m := (m.wr AS_STAT_LIM_ENT 0 r.entry).asFlag AS_FLAGS_LIMIT
    if m.rdB AS_CTL_STOP_LIM then m.asStop.asFlag AS_FLAGS_STOPPED else m.asAdvance r.entry r.last
  else m.asAdvance r.entry r.last

/-- The pull on an AIN pin: Assay's for the duration of its entry, else the register's (R423). -/
def Chip.ainPull (m : Chip) (n : Nat) : Nat :=
  let act := fun p : Nat => if p = 3 then 0 else p
  match m.assay.run with
  | some r =>
    if r.input = n ∨ (inDiff r.input ∧ (r.input - 64 = n / 2)) then act r.pull else act (m.rd AIN_CFG_PULL n)
  | none => act (m.rd AIN_CFG_PULL n)

/-! ## Window comparators (R424-R428) -/

/-- The state after an evaluation of a code, the farther change first. -/
def windowNext (st : Nat) (lo hi hys code : Int) : Nat :=
  if st = 0 then (if hi + hys ≤ code then 2 else if lo + hys ≤ code then 1 else 0)
  else if st = 2 then (if code < lo - hys then 0 else if code < hi - hys then 1 else 2)
  else if hi + hys ≤ code then 2 else if code < lo - hys then 0 else 1

/-- INIT as it acts: 3 acts as 1. -/
def initState (i : Nat) : Nat := if i = 3 then 1 else i

def Chip.cmpU (m : Chip) (n : Nat) : Cmpr := tabGet m.cmp n {}
def Chip.setCmp (m : Chip) (n : Nat) (x : Cmpr) : Chip := { m with cmp := tabPut m.cmp n x }
def Chip.sdsU (m : Chip) (n : Nat) : Cmpr := tabGet m.sds n {}
def Chip.setSds (m : Chip) (n : Nat) (x : Cmpr) : Chip := { m with sds := tabPut m.sds n x }

/-- The clock of a comparator runs; in sleep only with AON (R427, R472, R480). -/
def Chip.cmpClock (m : Chip) (n : Nat) : Bool :=
  m.clockOk islObserver && m.ungated 1 n && (!m.asleep || m.rdB CMP_CFG_AON n)

/-- The clock of a seed sensor's group runs. -/
def Chip.sdsClock (m : Chip) (n : Nat) : Bool := m.runs islObserver && m.ungated 0 (25 + n / 16)

/-- A flag of a seed sensor, and its bit in the group's flags (R432). -/
def Chip.sdsFlag (m : Chip) (n b : Nat) : Chip :=
  let was := bitAt (m.rd SDS_FLAGS n) b
  let m := m.setFlag SDS_FLAGS n b
  if !was && bitAt (m.rd SDS_IE n) b then m.raise SDSG_FLAGS SDSG_IE (n / 16) (n % 16) (405 + n / 16) else m

/-- A stable classification has stood for FILT samples of 20 ns (R425). -/
def Chip.stable (m : Chip) (firstTb filt : Nat) : Bool := decide (firstTb + 4 * (filt - 1) ≤ m.tbOf islObserver)

/-- A general comparator's classification changes. -/
def Chip.cmpChange (m : Chip) (n code firstTb : Nat) : Chip :=
  let st := m.rd CMP_STAT_STATE n
  let nw := windowNext st (m.rd CMP_THR_LO n) (m.rd CMP_THR_HI n) (m.rd CMP_CFG_HYS n) code
  if !m.rdB CMP_STAT_VALID n ∨ !m.cmpClock n ∨ !m.stable firstTb (m.rd CMP_CFG_FILT n) ∨ nw = st then m
  else
    let m := m.setCycle { m.cycle with changes := tabPut m.cycle.changes n ((tabFind m.cycle.changes n).getD (m.cmpU n).tb) }
    let m := ((m.wr CMP_STAT_STATE n nw).count CMP_CNT n).setCmp n { m.cmpU n with tb := firstTb }
    let m := if st ≠ 1 ∧ nw ≠ 1 then m.cmpFlag n CMP_FLAGS_INSIDE_IN else m
    m.cmpFlag n nw

/-- The active side of a seed sensor (R429). -/
def Chip.sdsActive (m : Chip) (n : Nat) : Nat := if m.rdB SDS_CFG_POL n then 2 else 0

/-- The conditions that force a seed sensor to INSIDE stand (R430). -/
def Chip.sdsForced (m : Chip) (n : Nat) : Bool := bitAt (m.rd SDS_STAT_COND n) 1 || bitAt (m.rd SDS_STAT_COND n) 2

/-- An excursion ends at t2 and waits to be judged; BLOCKED leaves the conditions. -/
def Chip.sdsLeave (m : Chip) (n t2 : Nat) : Chip :=
  let x := m.sdsU n
  match x.exc with
  | none => m
  | some t1 =>
    (m.setSds n { x with exc := none, blocked := false, ended := x.ended ++ [(t1, t2, x.blocked)] }).wr SDS_STAT_COND n
      (clrBit (m.rd SDS_STAT_COND n) 3)

/-- A seed sensor's classification changes (R424, R429). -/
def Chip.sdsChange (m : Chip) (n code firstTb : Nat) : Chip :=
  let st := m.rd SDS_STAT_STATE n
  let nw := windowNext st (m.rd SDS_THR_LO n) (m.rd SDS_THR_HI n) (m.rd SDS_CFG_HYS n) code
  if !m.rdB SDS_STAT_VALID n ∨ !m.sdsClock n ∨ m.sdsForced n ∨ !m.stable firstTb (m.rd SDS_CFG_FILT n) ∨ nw = st then m
  else
    let m := m.wr SDS_STAT_STATE n nw
    let act := m.sdsActive n
    let m := if st = act then m.sdsLeave n firstTb else m
    let m := if nw = act then m.setSds n { m.sdsU n with exc := some firstTb, blocked := false } else m
    if nw ≠ act ∧ nw ≠ 1 then m.sdsFlag n SDS_FLAGS_WRONG_SIDE else m

/-- The first evaluation after an enable (R426). -/
def Chip.cmpFirst (m : Chip) (n code : Nat) : Chip :=
  if m.rdB CMP_CFG_EN n ∧ !m.rdB CMP_STAT_VALID n ∧ m.cmpClock n ∧ (m.cmpU n).enTb + usTb ≤ m.tb then
    (m.wr CMP_STAT_STATE n (windowNext (m.rd CMP_STAT_STATE n) (m.rd CMP_THR_LO n) (m.rd CMP_THR_HI n) (m.rd CMP_CFG_HYS n) code)).wr CMP_STAT_VALID n 1
  else m

def Chip.sdsFirst (m : Chip) (n code : Nat) : Chip :=
  if m.rdB SDS_CFG_EN n ∧ !m.rdB SDS_STAT_VALID n ∧ m.sdsClock n ∧ (m.sdsU n).enTb + usTb ≤ m.tb then
    let st := windowNext (m.rd SDS_STAT_STATE n) (m.rd SDS_THR_LO n) (m.rd SDS_THR_HI n) (m.rd SDS_CFG_HYS n) code
    (m.wr SDS_STAT_STATE n (if m.sdsForced n then 1 else st)).wr SDS_STAT_VALID n 1
  else m

/-- The judgement of an excursion (R429). -/
def Chip.sdsJudge (m : Chip) (n t1 t2 : Nat) (blocked : Bool) : Chip :=
  let w := t2 - t1
  if blocked then m
  else if w < m.rd SDS_WID_W_MIN n * usTb then (m.count SDS_CNT_SHORTP n).sdsFlag n SDS_FLAGS_SHORTP
  else if m.rd SDS_WID_W_MAX n * 10 * usTb < w then (m.count SDS_CNT_BLOCKED n).sdsFlag n SDS_FLAGS_BLOCKED
  else
    let td := t1 + w / 2
    let x := m.sdsU n
    let m := m.setCycle { m.cycle with drops := tabPut m.cycle.drops n ((tabFind m.cycle.drops n).getD (x.dropTb, x.dropW)) }
    let m := m.setSds n { m.sdsU n with dropTb := td, dropW := min 65535 (w / usTb) }
    let m := (m.wr SDS_DROPS n (m.rd SDS_DROPS n + 1)).sdsFlag n SDS_FLAGS_DROP
    m.latSensorDrop n td

/-- One condition's evaluation: counters, its bit of COND and its flag (R430). -/
def Chip.sdsCond (m : Chip) (n k : Nat) (now : Bool) : Chip :=
  let x := m.sdsU n
  let p := if now then x.present.getD k 0 + 1 else 0
  let a := if now then 0 else x.absent.getD k 0 + 1
  let m := m.setSds n { x with present := x.present.set k (min p 2), absent := x.absent.set k (min a 10) }
  if 2 ≤ p ∧ !bitAt (m.rd SDS_STAT_COND n) k then (m.wr SDS_STAT_COND n (setBit (m.rd SDS_STAT_COND n) k)).sdsFlag n (SDS_FLAGS_OPEN + k)
  else if 10 ≤ a then m.wr SDS_STAT_COND n (clrBit (m.rd SDS_STAT_COND n) k)
  else m

/-- A faulted pin is classified INSIDE, and an excursion on it yields nothing (R430). -/
def Chip.sdsForce (m : Chip) (n : Nat) : Chip :=
  if m.sdsForced n then
    ((m.setSds n { m.sdsU n with exc := none, blocked := false }).wr SDS_STAT_STATE n 1).wr SDS_STAT_COND n (clrBit (m.rd SDS_STAT_COND n) 3)
  else m

/-- The wiring conditions of a seed sensor, every 1 ms. -/
def Chip.sdsDiag (m : Chip) (n : Nat) (pinMv : Int) : Chip :=
  let high := decide (6000 < pinMv)
  let low := decide (pinMv < -500)
  let m := ((m.sdsCond n 0 ((m.sdsU n).pullOpen && m.rd SDS_CFG_PULL n == 3)).sdsCond n 1 high).sdsCond n 2 low
  m.sdsForce n

end Sys2Proof.Machine
end

