-- ==== Sys2Proof/Machine/Mandrel.lean ====
section
/-! DEFINITION. The commands of Mandrel (03 R81-R125) that do not reach into the channels. -/

namespace Sys2Proof.Machine

/-- The geometry owner writes (R101). -/
def Chip.geomOk (m : Chip) (w : Writer) : Bool := m.isOwner w (m.rd PROT_ROLE_GEOM) && m.runs islObserver

/-- The pose owner writes (R101). -/
def Chip.poseOk (m : Chip) (w : Writer) : Bool := m.isOwner w (m.rd PROT_ROLE_POSE) && m.runs islObserver

/-- The field of a word that would be written. -/
def wordField (f : Field) (w : Nat) : Nat := w / 2 ^ f.lsb % 2 ^ f.w

/-- A field set from its place in a written word. -/
def Chip.wrFrom (m : Chip) (f : Field) (i w : Nat) : Chip := m.wr f i (wordField f w)

/-! ## Slots -/

/-- The oldest waiting record of a slot is taken (R83). -/
def Chip.slotNext (m : Chip) (k : Nat) : Chip :=
  let x := m.slot k
  match x.inbox with
  | [] => m
  | r :: rs => (m.setSlot k { x with inbox := rs }).slotTake k r

def execSlotMeasurement (k : Ds) (s : State) : Host.Outcome State Fault Refusal := s.upd (·.slotNext k.val)

/-- R85: no word for 100 ms. -/
def Chip.wordTimeout (m : Chip) (k : Nat) : Chip :=
  if m.rdB MDL_SRC_CFG_EN k ∧ m.rd MDL_SRC_CFG_TYPE k = 1 ∧ (m.slot k).wordTb + 100 * msTb ≤ m.tb then m.slotLose k else m

def execSlotWordTimeout (k : Ds) (s : State) : Host.Outcome State Fault Refusal := s.upd (·.wordTimeout k.val)

/-- R92-R94: every 1 ms. -/
def Chip.slipEval (m : Chip) : Chip :=
  if m.due .slip then
    let m := m.stamp .slip
    let m := (List.range 8).foldl Chip.slipOne m
    let m := m.slipEnter
    let m := (List.range 8).foldl Chip.slipRejoin m
    (List.range 8).foldl Chip.learnOne m
  else m

def execSlipEvaluation (s : State) : Host.Outcome State Fault Refusal := s.upd Chip.slipEval

/-- The fields of MDL_SRC_CFG but EN. -/
def srcCfgFields : List Field :=
  [MDL_SRC_CFG_TYPE, MDL_SRC_CFG_INPUT, MDL_SRC_CFG_RANK, MDL_SRC_CFG_WEIGHT, MDL_SRC_CFG_LEARN, MDL_SRC_CFG_SIGN, MDL_SRC_CFG_NOCH]

/-- R84: the enable of a slot is refused. -/
def Chip.srcRefused (m : Chip) (k w : Nat) : Bool :=
  let n := wordField MDL_SRC_CFG_INPUT w
  (wordField MDL_SRC_CFG_TYPE w == 0 && m.rd WHL_CFG_MODE n != 1 && m.rd WHL_CFG_MODE n != 3) || m.rd MDL_SRC_SCALE k == 0

/-- The source of a slot is a wheel input in OFF (0) or FAULT (1) (R76, R91). -/
def Chip.srcDead (m : Chip) (k : Nat) : Bool :=
  let st := m.rd WHL_STAT_STATE (m.rd MDL_SRC_CFG_INPUT k)
  m.rd MDL_SRC_CFG_TYPE k == 0 && decide (st ≤ 1)

/-- A slot is turned off (R91). -/
def Chip.srcOff (m : Chip) (k : Nat) : Chip :=
  let m := ((m.wr MDL_SRC_CFG_EN k 0).setSlotState k slotOff).setSlot k {}
  (m.wr MDL_SRC_V k 0).wrB MDL_SRC_STAT_DIR k false

/-- A slot is turned on: ACQ, and LOST at once where its input is in OFF or FAULT (R91). -/
def Chip.srcOn (m : Chip) (k : Nat) : Chip :=
  let m := ((m.setSlot k { wordTb := m.tb }).wr MDL_SRC_CFG_EN k 1).slotAdopt k
  let m := (m.learnClear k).slotAcquire k
  if m.srcDead k then m.slotLose k else m

/-- A write of MDL_SRC_CFG (R84, R91). -/
def Chip.srcCfgWrite (m : Chip) (k w : Nat) : Chip :=
  let en := wordField MDL_SRC_CFG_EN w
  if m.rdB MDL_SRC_CFG_EN k then if en = 0 then m.srcOff k else m
  else
    let m := srcCfgFields.foldl (fun m f => m.wrFrom f k w) m
    if en = 0 then m
    else if m.srcRefused k w then m.mdlFlag MDL_FLAGS_CFG_ERR
    else m.srcOn k

def execMdlSrcEnable (who : Writer) (k : Ds) (w : Word) (s : State) : Host.Outcome State Fault Refusal :=
  s.upd fun m => if m.geomOk who then m.srcCfgWrite k.val w.toNat else m

/-! ## The chassis -/

/-- A write of MDL_CFG (R98). -/
def Chip.mdlCfgWrite (m : Chip) (w : Nat) : Chip :=
  let en := wordField MDL_CFG_EN w
  let was := m.rd MDL_CFG_EN
  let m := ((m.wr MDL_CFG_EN 0 en).wrFrom MDL_CFG_ACC_BW 0 w).wrFrom MDL_CFG_COAST_MS 0 w
  if en = was then m
  else if en = 0 then ((m.chassisTo 0).setSlotState poseSlot slotOff).chassisStatus
  else
    let m := m.chassisTo 1
    let m := { m with mdl := { m.mdl with
      s := 0, firstPose := true, fieldSet := false, poseRejects := 0, pose := none, last := none, lastHdg := none, lowSince := none, lowHeld := false } }
    let m := ((m.wr MDL_STAT_FIELD_OK 0 0).wr MDL_POSE_STAT_LAST 0 0).wr MDL_POSE_STAT_BUSY 0 0
    (m.setSlot poseSlot {}).slotAcquire poseSlot

def execMdlEnable (who : Writer) (w : Word) (s : State) : Host.Outcome State Fault Refusal :=
  s.upd fun m => if m.geomOk who then m.mdlCfgWrite w.toNat else m

/-- R99: abs(v_c) has been low for STILL_MS. -/
def Chip.stillTimeout (m : Chip) : Chip :=
  match m.mdl.lowSince with
  | none => m
  | some t =>
    if (m.rd MDL_STAT_STATE = 2 ∨ m.rd MDL_STAT_STATE = 3) ∧ t + m.rd MDL_STILL_STILL_MS * msTb ≤ m.tb then
      { m with mdl := { m.mdl with lowHeld := true } }
    else m

def execStillTimer (s : State) : Host.Outcome State Fault Refusal := s.upd Chip.stillTimeout

/-- R98: COAST ends. -/
def Chip.coastEnd (m : Chip) : Chip :=
  if m.rd MDL_STAT_STATE = 5 ∧ m.mdl.coastAt + m.rd MDL_CFG_COAST_MS * msTb ≤ m.tb then m.chassisTo 6 else m

def execCoastTimeout (s : State) : Host.Outcome State Fault Refusal := s.upd Chip.coastEnd

/-- R100: one history entry per 1 ms, 256 kept. -/
def Chip.histPush (m : Chip) : Chip :=
  if m.due .history then
    let m := m.stamp .history
    { m with mdl := { m.mdl with hist := ({ m.histNow with tb := m.tb } :: m.mdl.hist).take 256 } }
  else m

def execMdlHistoryEntry (s : State) : Host.Outcome State Fault Refusal := s.upd Chip.histPush

/-! ## Poses (R101-R106) -/

/-- The staged pose. -/
def Chip.staged (m : Chip) : Pose :=
  { e := m.rdI MDL_POSE_E, n := m.rdI MDL_POSE_N, hdg := m.rd MDL_POSE_HDG, spd := m.rdI MDL_POSE_SPD,
    tb := m.rd MDL_POSE_TB_HI * 2 ^ 32 + m.rd MDL_POSE_TB_LO, sigma := m.rd MDL_POSE_QUAL_SIGMA,
    hdgValid := m.rdB MDL_POSE_QUAL_HDG_VALID, spdValid := m.rdB MDL_POSE_QUAL_SPD_VALID }

/-- The first test of R102 that a pose fails at a commit, by its code; 0 for none. -/
def Chip.poseTest (m : Chip) (p : Pose) : Nat :=
  let t := m.tbOf islObserver
  if m.rdB MDL_POSE_STAT_BUSY then 3
  else if t + 200000 < p.tb then 4
  else if p.tb + 51200000 < t then 5
  else match m.mdl.last with
    | some q => if p.tb ≤ q.tb then 6 else 0
    | none => 0

/-- A commit (R102). -/
def Chip.poseCommit (m : Chip) : Chip :=
  let p := m.staged
  let c := m.poseTest p
  if c = 0 then { m with mdl := { m.mdl with pose := some p } }.wr MDL_POSE_STAT_BUSY 0 1
  else (m.wr MDL_POSE_STAT_LAST 0 c).mdlFlag MDL_FLAGS_POSE_REFUSED

def execPoseCommit (who : Writer) (s : State) : Host.Outcome State Fault Refusal :=
  s.upd fun m => if m.poseOk who then m.poseCommit else m

/-- The heading loop of R109 at an accepted pose, its history heading psiH given; psi holds in STILL. -/
def Chip.headingLoop (m : Chip) (p : Pose) (psiH : Int) : Chip :=
  match m.mdl.lastHdg with
  | none => m
  | some (_, t0) =>
    let t : Int := (p.tb : Int) - t0
    let w := omegaOf (m.rd MDL_POSE_CFG_HDG_BW) 100
    let d := toSigned 32 (ofSigned 32 ((p.hdg : Int) - fxInt psiH))
    let g := minI fxOne (w * 1414 * t / (1000 * 200000000))
    let murad := d * fxTwoPi * 1000000 / fxOne
    { m with mdl := { m.mdl with
      psi := if m.rd MDL_STAT_STATE = 4 then m.mdl.psi else m.mdl.psi + g * d
      bias := m.mdl.bias - fxMul w w * t / 200000000 * murad / fxOne } }

/-- The heading of an accepted pose feeds the pose-heading yaw source (R107 code 4). -/
def Chip.headingSample (m : Chip) (p : Pose) : Chip :=
  if p.hdgValid then
    let m := match m.mdl.lastHdg with
      | none => m
      | some (h0, t0) =>
        let d := toSigned 32 (ofSigned 32 ((p.hdg : Int) - h0))
        let t : Int := (p.tb : Int) - t0
        if t ≤ 0 then m else m.yawSample 4 (d * fxTwoPi * 200000000000000 / (fxOne * t)) p.tb
    { m with mdl := { m.mdl with lastHdg := some (p.hdg, p.tb) } }
  else m

/-- The pose loop at an accepted pose (R105). -/
def Chip.poseLoop (m : Chip) (p : Pose) (sigma : Nat) (psiH : Int) : Chip :=
  let f := ofSigned 32 (fxInt psiH)
  let c := match m.mdl.last with
    | none => 0
    | some q => ((p.e - q.e) * cosTurn f + (p.n - q.n) * sinTurn f) * 256
  let t : Int := (p.tb : Int) - ((m.slot poseSlot).lastTb.getD p.tb : Nat)
  let m := m.slotMeasure poseSlot c p.tb false (fx (2 * sigma * 256)) 0
  if p.spdValid ∧ m.slotState poseSlot ≠ slotOff then
    let x := m.slot poseSlot
    let g := minI fxOne (m.slotOmega poseSlot * 1414 * t / (1000 * 200000000))
    let vAt := x.v - m.mdl.a * ((m.mdl.tickTb : Int) - p.tb) / 200000000
    m.setSlot poseSlot { x with v := x.v + fxMul g (fx p.spd - vAt) }
  else m

/-- What every accepted pose does (R102-R107). -/
def Chip.poseAccept (m : Chip) (p : Pose) (sigma : Nat) (psiH : Int) (code : Nat) : Chip :=
  let m := (m.poseLoop p sigma psiH).headingSample p
  let m := { m with mdl := { m.mdl with
    last := some p, acceptTb := m.tb, poseRejects := 0, firstPose := false, fieldSet := false } }
  (((m.wr MDL_STAT_FIELD_OK 0 1).wr MDL_STAT_POSE_CUR 0 1).wr MDL_STAT_FIELD_DR 0 0).wr MDL_POSE_STAT_LAST 0 code

/-- Processing of a pose completes (R103, R105, R109). -/
def Chip.poseProcess (m : Chip) : Chip :=
  match m.mdl.pose with
  | none => m
  | some p =>
    let m := { m with mdl := { m.mdl with pose := none } }.wr MDL_POSE_STAT_BUSY 0 0
    let h := m.histAtTb p.tb
    let dE := fx p.e - h.e
    let dN := fx p.n - h.n
    let sigma := max p.sigma 10
    let gate := fx (m.rd MDL_POSE_CFG_GATE * sigma)
    if m.mdl.firstPose ∨ m.mdl.fieldSet ∨ m.rd MDL_POSE_CFG_REJ_MAX ≤ m.mdl.poseRejects then
      let m := m.fieldTo (m.mdl.e + dE) (m.mdl.n + dN)
      let m := { m with mdl := { m.mdl with corrE := 0, corrN := 0, psi := if p.hdgValid then fx p.hdg else m.mdl.psi } }
      let m := m.mdlFlag MDL_FLAGS_FIELD_JUMP
      (m.slotAcquire poseSlot).poseAccept p sigma h.psi 2
    else if gate * gate < dE * dE + dN * dN then
      let m := { m with mdl := { m.mdl with poseRejects := m.mdl.poseRejects + 1 } }
      ((m.mdlFlag MDL_FLAGS_POSE_REJ).count MDL_POSE_REJ_CNT 0).wr MDL_POSE_STAT_LAST 0 7
    else
      let m := { m with mdl := { m.mdl with corrE := dE, corrN := dN } }
      let m := if p.hdgValid then m.headingLoop p h.psi else m
      m.poseAccept p sigma h.psi 1

/-- R106: the pose is no longer current. -/
def Chip.poseTimeout (m : Chip) : Chip :=
  if m.rdB MDL_STAT_POSE_CUR ∧ m.mdl.acceptTb + m.rd MDL_POSE_TMO_TMO * msTb ≤ m.tb then
    (((m.wr MDL_STAT_POSE_CUR 0 0).wr MDL_STAT_FIELD_DR 0 1).mdlFlag MDL_FLAGS_POSE_LOST).slotLose poseSlot
  else m

def execPoseTimeout (s : State) : Host.Outcome State Fault Refusal := s.upd Chip.poseTimeout

/-- MDL_CMD.FIELD_SET (R103). -/
def Chip.fieldSetCmd (m : Chip) : Chip := { m with mdl := { m.mdl with fieldSet := true } }

def execFieldSet (who : Writer) (s : State) : Host.Outcome State Fault Refusal :=
  s.upd fun m => if m.geomOk who then m.fieldSetCmd else m

/-- MDL_CMD.LEARN_CLR (R94). -/
def Chip.learnClearAll (m : Chip) : Chip := (List.range 8).foldl Chip.learnClear m

def execLearnClr (who : Writer) (s : State) : Host.Outcome State Fault Refusal :=
  s.upd fun m => if m.geomOk who then m.learnClearAll else m

/-! ## Yaw and deflection -/

/-- A write of MDL_YAW_HOST is a sample (R107 code 2). -/
def Chip.yawHost (m : Chip) (w : Nat) : Chip :=
  let m := m.wr MDL_YAW_HOST 0 w
  m.yawSample 2 (fx (toSigned 32 w)) m.tb

def execYawHostWrite (who : Writer) (w : Word) (s : State) : Host.Outcome State Fault Refusal :=
  s.upd fun m => if m.poseOk who then m.yawHost w.toNat else m

def execYawSourceTimeout (s : State) : Host.Outcome State Fault Refusal := s.upd Chip.yawSelect

/-- The oldest waiting raw value is taken by a deflection input that is on (R110). -/
def Chip.deflNext (m : Chip) (d : Nat) : Chip :=
  let x := m.dfl d
  match x.inbox with
  | [] => m
  | r :: rs =>
    let m := { m with mdl := { m.mdl with defl := tabPut m.mdl.defl d { x with inbox := rs } } }
    if m.rd MDL_DF_CFG_SRC d = 0 then m else m.deflTake d r

def execDeflectionSample (d : Df) (s : State) : Host.Outcome State Fault Refusal := s.upd (·.deflNext d.val)

/-- R111: no raw value for TMO ms. -/
def Chip.deflTimeout (m : Chip) (d : Nat) : Chip :=
  let x := m.dfl d
  if m.rd MDL_DF_CFG_SRC d ≠ 0 ∧ !x.lost ∧ x.tb.getD 0 + m.rd MDL_DF_CFG_TMO d * msTb ≤ m.tb then
    { m with mdl := { m.mdl with defl := tabPut m.mdl.defl d { x with lost := true, rate := 0 } } }.mdlFlag MDL_FLAGS_DEFL_LOST
  else m

def execDeflectionTimeout (d : Df) (s : State) : Host.Outcome State Fault Refusal := s.upd (·.deflTimeout d.val)

/-! ## Axes -/

/-- An axis is turned off; the next tick ends what is bound to it (R165). -/
def Chip.axOff (m : Chip) (a : Nat) : Chip :=
  ({ m with axes := tabPut m.axes a { m.axis a with offOrder := some m.orderNo } }.wr AX_CFG_KIND a 0).axEnter a

/-- A write of AX_CFG (R114, R117): only a KIND of 0 acts while the axis is on; turning it on puts its position to 0. -/
def Chip.axCfgWrite (m : Chip) (a w : Nat) : Chip :=
  if m.axKind a ≠ 0 then
    if wordField AX_CFG_KIND w = 0 then m.axOff a else m
  else
    let m := (m.wrFrom AX_CFG_KIND a w).wrFrom AX_CFG_SLOT a w
    if m.axKind a = 0 then m else { m with axes := tabPut m.axes a { old := m.axPub a, offOrder := (m.axis a).offOrder } }.axEnter a

def execAxCfgWrite (who : Writer) (a : Ax) (w : Word) (s : State) : Host.Outcome State Fault Refusal :=
  s.upd fun m => if m.isOwner who (m.axOwner a.val) && m.runs islAxis then m.axCfgWrite a.val w.toNat else m

/-! ## Snapshots (R120) -/

/-- The chassis state that a read in this cycle finds: that of the latest tick, and of the tick before while a tick commits (R120). -/
def Chip.pubSeen (m : Chip) : ChassisPub := if m.mdl.tickTb = m.tb then m.mdl.pubOld else m.mdl.pub

/-- A read of MDL_TB_LO. -/
def Chip.mdlSnapshot (m : Chip) : Chip :=
  let x := m.pubSeen
  let m := m.wrTb MDL_TB_LO MDL_TB_HI 0 x.tb
  let s := ofSigned 40 (fxInt x.s)
  let m := (m.wr MDL_S_LO 0 s).wr MDL_S_HI 0 (s / 2 ^ 32)
  let m := (m.wrFit MDL_V 0 (fxInt x.v)).wrFit MDL_A 0 (fxInt x.a)
  let m := (m.wr MDL_YAW 0 x.psi).wrFit MDL_YAWRATE 0 (fxInt x.rate)
  let m := (m.wrI MDL_E 0 (fxInt x.e)).wrI MDL_N 0 (fxInt x.n)
  { m with rdata := m.rd MDL_TB_LO }

def execMdlSnapshotRead (s : State) : Host.Outcome State Fault Refusal := s.upd Chip.mdlSnapshot

/-- A read of AX_POS_LO: what the latest tick published, and the tick before while a tick commits (R120). -/
def Chip.axSnapshot (m : Chip) (a : Nat) : Chip :=
  let now := m.tickAt = m.tb
  let x := if now then (m.axis a).old else m.axPub a
  let m := (m.wr AX_POS_LO a (x.pos / 65536)).wr AX_POS_HI a (x.pos / 65536 / 2 ^ 32)
  let m := m.wrTb AX_TB_LO AX_TB_HI a (if now then m.tickAt - 200 else m.tickAt)
  let m := (m.wrFit AX_V a (fxInt x.v)).wrFit AX_A a (fxInt x.a)
  let m := (m.wrFit AX_FE a (fxInt x.fe)).wrFit AX_FN a (fxInt x.fn)
  { m with rdata := m.rd AX_POS_LO a }

def execAxSnapshotRead (a : Ax) (s : State) : Host.Outcome State Fault Refusal := s.upd (·.axSnapshot a.val)

end Sys2Proof.Machine
end

