-- ==== Sys2Proof/Machine/Analog.lean ====
section
/-! DEFINITION. The commands of the modulators, Assay, the comparators and the seed sensors (12 R408-R434). -/

namespace Sys2Proof.Machine

/-! ## Modulators -/

/-- A decimator result lands (R415, R417, R418). -/
def Chip.adcResult (m : Chip) (u : Nat) (v : Int) : Chip :=
  let on := m.rd ADC_CTL_MODE u == 1 || (m.rd ADC_CTL_MODE u == 2 && m.rdB ADC_STAT_BUSY u)
  if on && !m.rdB ADC_STAT_PAIRED u && m.adcClock u && decide ((m.adcU u).next ≤ m.tb) then m.adcLand u v else m

def execAdcResult (u : Adc) (v : NanoVolt) (s : State) : Host.Outcome State Fault Refusal := s.upd (·.adcResult u.val v)

def execAdcStart (who : Writer) (u : Adc) (s : State) : Host.Outcome State Fault Refusal :=
  s.upd fun m => if m.sysOk who && m.adcClock u.val then m.adcBegin u.val else m

/-- A write of ADC_CTL; PAIR exists on ADC0 and ADC2 only. -/
def execAdcCtlWrite (who : Writer) (u : Adc) (w : Word) (s : State) : Host.Outcome State Fault Refusal :=
  s.upd fun m =>
    if m.sysOk who && m.adcClock u.val then
      m.adcCtl u.val (wordField ADC_CTL_MODE w.toNat) (wordField ADC_CTL_RATE w.toNat) (bitAt w.toNat 5) (bitAt w.toNat 6 && u.val % 2 == 0)
    else m

def execAdcSelWrite (who : Writer) (u : Adc) (w : Word) (s : State) : Host.Outcome State Fault Refusal :=
  s.upd fun m => if m.sysOk who && m.adcClock u.val then m.adcSel u.val (w.toNat % 1024) else m

/-- A read that meets a result landing in its cycle: the earlier one is returned, NEW stays set for the new one, and OVR does not set (R417). -/
def Chip.adcReadOld (m : Chip) (u : Nat) (o : AdcOld) : Chip :=
  let m := ((m.wr ADC_RES_INFO_INPUT u o.input).wr ADC_RES_INFO_UNIT u o.unit).wrB ADC_RES_INFO_CLIP u o.clip
  let m := m.wrTb ADC_RES_TB_LO ADC_RES_TB_HI u o.tb
  let m := if o.ovr then m.unsetFlag ADC_FLAGS u ADC_FLAGS_OVR else m
  { m with rdata := o.word }

/-- A read of ADC_RES (R417). -/
def Chip.adcRead (m : Chip) (u : Nat) : Chip :=
  if m.adcClock u then
    match tabFind m.cycle.adcs u with
    | some o => m.adcReadOld u o
    | none =>
      let x := m.adcU u
      let m := ((m.wr ADC_RES_INFO_INPUT u x.resInput).wr ADC_RES_INFO_UNIT u x.resUnit).wrB ADC_RES_INFO_CLIP u x.resClip
      let m := (m.wrTb ADC_RES_TB_LO ADC_RES_TB_HI u x.resTb).wr ADC_STAT_NEW u 0
      { m with rdata := m.rd ADC_RES u }
  else { m with rdata := 0 }

def execAdcResRead (u : Adc) (s : State) : Host.Outcome State Fault Refusal := s.upd (·.adcRead u.val)

/-! ## Assay -/

/-- Assay's clock runs. -/
def Chip.asClock (m : Chip) : Bool := m.runs islObserver && m.ungated 0 24

/-- A write of AS_CTL (R419, R421). -/
def Chip.asCtl (m : Chip) (w : Nat) : Chip :=
  let m := m.wrFrom AS_CTL_STOP_LIM 0 w
  if bitAt w 0 then
    if m.rdB AS_CTL_EN then m
    else { (m.wr AS_CTL_EN 0 1).wr AS_STAT_RUN 0 1 with assay := {} }.wr AS_STAT_ENTRY 0 0
  else if m.rdB AS_CTL_EN then m.asStop else m

def execAssayStart (who : Writer) (w : Word) (s : State) : Host.Outcome State Fault Refusal :=
  s.upd fun m => if m.sysOk who && m.asClock then m.asCtl w.toNat else m

/-- Assay starts its next entry (R419). -/
def Chip.asStart (m : Chip) : Chip := if m.rdB AS_CTL_EN ∧ m.asClock ∧ m.assay.run.isNone then m.asTake 130 else m

def execAssayEntryStart (s : State) : Host.Outcome State Fault Refusal := s.upd Chip.asStart

/-- Assay stores the mean of an entry's results (R420). -/
def Chip.asEnd (m : Chip) (results : List Int) : Chip :=
  match m.assay.run with
  | none => m
  | some r =>
    if m.asClock ∧ m.rd ADC_CTL_MODE r.unit = 3 ∧ results.length = r.rep + 1 ∧ r.start + asSpan r ≤ m.tb then m.asStore r results else m

/-- A read of AS_RES (R421). -/
def Chip.asRead (m : Chip) (e : Nat) : Chip := { m with rdata := (tabFind m.cycle.results e).getD (m.rd AS_RES e) }

def execAssayEntryStore (results : List NanoVolt) (s : State) : Host.Outcome State Fault Refusal := s.upd (·.asEnd results)

/-! ## Comparators and seed sensors -/

def execComparatorChange (u : CmpUnit) (code : Nat) (firstTb : Nat) (s : State) : Host.Outcome State Fault Refusal :=
  s.upd fun m => match u with
    | .cmp n => m.cmpChange n.val code firstTb
    | .sds n => m.sdsChange n.val code firstTb

def execComparatorFirstEval (u : CmpUnit) (code : Nat) (s : State) : Host.Outcome State Fault Refusal :=
  s.upd fun m => match u with
    | .cmp n => m.cmpFirst n.val code
    | .sds n => m.sdsFirst n.val code

/-- A write of CMP_CFG or CMP_THR (R426, R427). -/
def Chip.cmpWrite (m : Chip) (n w : Nat) (thr : Bool) : Chip :=
  if thr then
    if w % 1024 < w / 65536 % 1024 then (m.wrFrom CMP_THR_LO n w).wrFrom CMP_THR_HI n w else m.cmpFlag n CMP_FLAGS_CFG_ERR
  else
    let en := bitAt w 0
    let off := fun m : Chip => (m.wr CMP_STAT_STATE n (initState (m.rd CMP_CFG_INIT n))).wr CMP_STAT_VALID n 0
    if m.rdB CMP_CFG_EN n then (if en then m else off (m.wr CMP_CFG_EN n 0))
    else if en ∧ (wordField CMP_CFG_AIN w) / 24 ≠ n / 8 then m.cmpFlag n CMP_FLAGS_CFG_ERR
    else
      let m := [CMP_CFG_EN, CMP_CFG_AIN, CMP_CFG_INIT, CMP_CFG_HYS, CMP_CFG_FILT, CMP_CFG_AON].foldl (fun m f => m.wrFrom f n w) m
      let m := off m
      if en then m.setCmp n { m.cmpU n with enTb := m.tb } else m

/-- A write of SDS_CFG or SDS_THR (R426, R434). -/
def Chip.sdsWrite (m : Chip) (n w : Nat) (thr : Bool) : Chip :=
  if thr then
    if w % 1024 < w / 65536 % 1024 then (m.wrFrom SDS_THR_LO n w).wrFrom SDS_THR_HI n w else m.sdsFlag n SDS_FLAGS_CFG_ERR
  else
    let en := bitAt w 0
    let off := fun m : Chip =>
      (((m.wr SDS_STAT_STATE n (initState (m.rd SDS_CFG_INIT n))).wr SDS_STAT_VALID n 0).setSds n
        { m.sdsU n with exc := none, blocked := false }).wr SDS_STAT_COND n (clrBit (m.rd SDS_STAT_COND n) 3)
    if m.rdB SDS_CFG_EN n then (if en then m else off (m.wr SDS_CFG_EN n 0))
    else
      let m := [SDS_CFG_EN, SDS_CFG_POL, SDS_CFG_HYS, SDS_CFG_PULL, SDS_CFG_DIAG_EN, SDS_CFG_INIT, SDS_CFG_FILT].foldl (fun m f => m.wrFrom f n w) m
      let m := off m
      if en then m.setSds n { m.sdsU n with enTb := m.tb } else m

def execComparatorCfgWrite (who : Writer) (u : CmpUnit) (thr : Bool) (w : Word) (s : State) : Host.Outcome State Fault Refusal :=
  s.upd fun m => if !m.sysOk who then m else match u with
    | .cmp n => if m.cmpClock n.val then m.cmpWrite n.val w.toNat thr else m
    | .sds n => if m.sdsClock n.val then m.sdsWrite n.val w.toNat thr else m

/-- A read of CMP_TB_LO; of a change of this cycle it takes the earlier TB (R434). -/
def Chip.cmpRead (m : Chip) (n : Nat) : Chip :=
  if m.cmpClock n then
    let m := m.wrTb CMP_TB_LO CMP_TB_HI n ((tabFind m.cycle.changes n).getD (m.cmpU n).tb)
    { m with rdata := m.rd CMP_TB_LO n }
  else { m with rdata := 0 }

def execCmpTbRead (n : Cmp) (s : State) : Host.Outcome State Fault Refusal := s.upd (·.cmpRead n.val)

/-- The oldest ended excursion is judged (R429). -/
def Chip.sdsEnd (m : Chip) (n : Nat) : Chip :=
  let x := m.sdsU n
  match x.ended with
  | [] => m
  | (t1, t2, b) :: r => (m.setSds n { x with ended := r }).sdsJudge n t1 t2 b

def execSdsExcursionEnd (n : Sds) (s : State) : Host.Outcome State Fault Refusal := s.upd (·.sdsEnd n.val)

/-- An excursion has lasted beyond W_MAX (R429). -/
def Chip.sdsBlock (m : Chip) (n : Nat) : Chip :=
  let x := m.sdsU n
  match x.exc with
  | none => m
  | some t1 =>
    if !x.blocked ∧ m.sdsClock n ∧ t1 + m.rd SDS_WID_W_MAX n * 10 * usTb < m.tbOf islObserver then
      let m := (m.setSds n { x with blocked := true }).wr SDS_STAT_COND n (setBit (m.rd SDS_STAT_COND n) 3)
      (m.count SDS_CNT_BLOCKED n).sdsFlag n SDS_FLAGS_BLOCKED
    else m

def execSdsBlocked (n : Sds) (s : State) : Host.Outcome State Fault Refusal := s.upd (·.sdsBlock n.val)

/-- R430, every 1 ms. -/
def execSdsDiagEvaluation (n : Sds) (pinMv : Int) (s : State) : Host.Outcome State Fault Refusal :=
  s.upd fun m => if m.rdB SDS_CFG_DIAG_EN n.val ∧ m.due .sdsDiag n.val ∧ m.sdsClock n.val then (m.stamp .sdsDiag n.val).sdsDiag n.val pinMv else m

/-- R430, every 10 ms: the line follows the pull-up, and the pull-down; on a faulted pin the pulls are disconnected. -/
def Chip.sdsPull (m : Chip) (n : Nat) (up down : Bool) : Chip :=
  if m.rdB SDS_CFG_DIAG_EN n ∧ m.rd SDS_CFG_PULL n = 3 ∧ m.due .sdsPull n ∧ m.sdsClock n ∧ !m.sdsForced n then
    (m.stamp .sdsPull n).setSds n { m.sdsU n with pullOpen := up && down }
  else m

def execSdsPullTest (n : Sds) (up : Bool) (down : Bool) (s : State) : Host.Outcome State Fault Refusal := s.upd (·.sdsPull n.val up down)

/-- A read of SDS_DROP_TB_LO; of a drop of this cycle it takes the earlier values (R434). -/
def Chip.sdsRead (m : Chip) (n : Nat) : Chip :=
  if m.sdsClock n then
    let x := m.sdsU n
    let (t, w) := (tabFind m.cycle.drops n).getD (x.dropTb, x.dropW)
    let m := (m.wrTb SDS_DROP_TB_LO SDS_DROP_TB_HI n t).wr SDS_DROP_W n w
    { m with rdata := m.rd SDS_DROP_TB_LO n }
  else { m with rdata := 0 }

def execSdsDropRead (n : Sds) (s : State) : Host.Outcome State Fault Refusal := s.upd (·.sdsRead n.val)

end Sys2Proof.Machine
end

