-- ==== Sys2Proof/Machine/Event.lean ====
section
/-! DEFINITION. The commands of the event pool and the prediction tick (04 R127-R172, 03 R82, R102-R106). -/

namespace Sys2Proof.Machine

/-- The channel's owner writes its block (R130, R320). -/
def Chip.chOk (m : Chip) (w : Writer) (ch : Nat) : Bool := m.isOwner w (m.chOwner ch) && m.runs (clusterOf ch)

/-- A channel's entry stands among those that ticks visit. -/
def Chip.touch (m : Chip) (ch : Nat) : Chip := m.setChan ch (m.chan ch)

/-! ## Direct arming (R130, R131, R150, R168, R171, R173) -/

/-- A 40-bit target and a deadline from their staged halves. -/
def Chip.armTarget (m : Chip) (ch : Nat) : Nat := 2 ^ 32 * m.rd CH_ARM_T_HI ch + m.rd CH_ARM_T_LO ch
def Chip.armDeadline (m : Chip) (ch : Nat) : Nat := 2 ^ 32 * m.rd CH_ARM_DL_HI ch + m.rd CH_ARM_DL_LO ch

/-- R173: train parameters that no TRAIN may take. -/
def trainBad (pitch width len : Nat) : Bool := decide (pitch < 256) || width == 0 || decide (2 ^ 31 ≤ len)

/-- A kind that may not be armed so (R127, R129, R130, R153, R173). -/
def Chip.armKindBad (m : Chip) (ch : Nat) : Bool :=
  let k := m.rd CH_ARM_P_KIND ch
  k == 0 || k == 7 || k == 6 || (k == 3 && m.rd CH_ARM_P_WIDTH ch == 0) || ((k == 3 || k == 4) && m.rdB CH_ARM_P_BIDIR ch) ||
    (k == 4 && (trainBad (m.rd TR_PITCH ch) (m.rd TR_WIDTH ch) (m.rd TR_LEN ch) || m.trainPend ch))

/-- The code of the first ground on which a direct arming is refused; 0 for none. -/
def Chip.armRefusal (m : Chip) (ch : Nat) : Nat :=
  if m.rd CH_CTL_MODE ch ≠ 1 then 8
  else if m.armKindBad ch then 7
  else if m.axKind (m.rd CH_AXIS_AX ch) = 0 then 9
  else if m.armDeadline ch ≠ 0 ∧ m.armDeadline ch ≤ m.tbOf islAxis then 10
  else if chSlots ≤ m.pend ch then 4
  else if m.poolFree = 0 then 5
  else if posDiff (m.armTarget ch) (m.chAxis ch).posInt = -549755813888 then 6
  else 0

/-- The event that the staged fields spell. -/
def Chip.armEvent (m : Chip) (ch : Nat) : Ev :=
  let train := m.rd CH_ARM_P_KIND ch == 4
  { gen := 0, ch := ch, owner := m.chOwner ch, kind := m.rd CH_ARM_P_KIND ch, noadv := m.rdB CH_ARM_P_NOADV ch
    bidir := m.rdB CH_ARM_P_BIDIR ch, width := if train then m.rd TR_WIDTH ch else m.rd CH_ARM_P_WIDTH ch
    target := m.armTarget ch, deadline := m.armDeadline ch, jsn := none, life := .armed, order := 0
    pitch := if train then m.rd TR_PITCH ch else 0, phase := if train then m.rd TR_PHASE ch else 0
    len := if train then m.rd TR_LEN ch else 0 }

/-- The case of R150 of a direct arming, and its code. -/
def Chip.armCoded (m : Chip) (ch i : Nat) (e : Ev) : Chip :=
  let (code, m) := m.armCase i e
  m.wr CH_ARM_RES_CODE ch code

/-- A direct arming takes its slot: the handle, and the case of R150. -/
def Chip.armTaken (m : Chip) (ch i : Nat) : Chip :=
  match m.ev i with
  | none => m
  | some e => (m.wr CH_ARM_RES_HANDLE ch (handleOf i e.gen)).armCoded ch i e

/-- A direct arming is refused (R168, R171). -/
def Chip.armRefuse (m : Chip) (ch c : Nat) : Chip :=
  let m := if m.poolFree = 0 then m.chFlag ch CH_FLAGS_POOL_EMPTY else m
  (m.wr CH_ARM_RES_CODE ch c).chFlag ch CH_FLAGS_ARM_REFUSED

/-- A write of 1 to CH_ARM_CMD.ARM. -/
def Chip.armDirect (m : Chip) (ch : Nat) : Chip :=
  let c := m.armRefusal ch
  if c = 0 then
    let (i, m) := (m.touch ch).takeSlot (m.armEvent ch)
    m.armTaken ch i
  else m.armRefuse ch c

def execChArm (who : Writer) (ch : Ch) (s : State) : Host.Outcome State Fault Refusal :=
  s.upd fun m => if m.chOk who ch.val then m.armDirect ch.val else m

/-- A cancel by handle h of the owner o, journaled or not: the code of R171 (R159-R161, R134). -/
def Chip.cancelHandle (m : Chip) (o h : Nat) (jour : Bool) : Nat × Chip :=
  let i := h % 16384
  let m := match m.ev i with
    | some e => if handleOf i e.gen = h then m.fireDue e.ch 200 else m
    | none => m
  match m.ev i with
  | some e =>
    if handleOf i e.gen = h ∧ e.owner = o ∧ e.jsn.isSome = jour then
      let (done, m) := m.cancelSlot i e
      (if done then 12 else 11, m)
    else (13, m)
  | none =>
    let l := tabGet m.poolLast i {}
    (if l.handle = some h ∧ l.owner = o ∧ l.journaled = jour then 12 else 13, m)

/-- A write of CH_ARM_CMD.CANCEL. -/
def Chip.cancelDirect (m : Chip) (who : Writer) (ch h : Nat) : Chip :=
  let (c, m) := m.cancelHandle (writerCode who) h false
  m.wr CH_ARM_RES_CODE ch c

def execChCancel (who : Writer) (ch : Ch) (handle : BitVec 22) (s : State) : Host.Outcome State Fault Refusal :=
  s.upd fun m => if m.chOk who ch.val then m.cancelDirect who ch.val handle.toNat else m

/-- A write of CH_ARM_CMD.CANCEL_ALL (R159). -/
def Chip.cancelAll (m : Chip) (who : Writer) (ch : Nat) : Chip :=
  let m := m.fireDue ch 200
  (m.chEvs ch).foldl (fun m p =>
    match m.ev p.1 with
    | some e => if e.jsn.isNone ∧ e.owner = writerCode who ∧ e.gen = p.2.gen then (m.cancelSlot p.1 e).2 else m
    | none => m) m

def execChCancelAll (who : Writer) (ch : Ch) (s : State) : Host.Outcome State Fault Refusal :=
  s.upd fun m => if m.chOk who ch.val then m.cancelAll who ch.val else m

/-! ## Installation (R136, R163, R363, R364, R368) -/

/-- The pool index reserved for a record. -/
def stagedIdx (l : List Staged) (jsn : Nat) : Option Nat :=
  match l with
  | [] => none
  | .event j i :: r => if j = jsn then some i else stagedIdx r jsn
  | _ :: r => stagedIdx r jsn

/-- R368: an accepted event that installation refuses. -/
def Chip.installRefused (m : Chip) (e : Ev) : Bool :=
  m.axKind (m.rd CH_AXIS_AX e.ch) == 0 || (e.kind == 4 && (m.chEvs e.ch).any fun p => p.2.kind == 4 && p.2.life == .armed && p.2.jsn.isNone)

/-- Gelow's installation of an accepted event commits. -/
def Chip.install (m : Chip) (jsn : Nat) : Chip :=
  match stagedIdx m.jour.staged jsn with
  | none => m
  | some i =>
    match m.ev i with
    | none => m
    | some e =>
      if e.life ≠ .reserved ∨ !m.runs islAxis then m
      else
        let m := m.touch e.ch
        if m.installRefused e then (m.finish i e 7 12).unstage i
        else
          let m := m.unstage i |>.jpush { jsn := jsn, phase := 1, tb := m.tb }
          if e.deadline ≠ 0 ∧ e.deadline ≤ m.tbOf islAxis then m.finish i e 3 4
          else (m.armCase i e).2

def execEventInstall (jsn : BitVec 48) (s : State) : Host.Outcome State Fault Refusal := s.upd (·.install jsn.toNat)

/-! ## Firing and the ends of events -/

/-- The compare of a channel fires the due event (R144). -/
def Chip.compareFire (m : Chip) (ch : Nat) : Chip :=
  match m.dueHead ch with
  | some h => if h.key < 16384 then m.headFire ch h else m
  | none => m

def execCompareFire (ch : Ch) (s : State) : Host.Outcome State Fault Refusal := s.upd (·.compareFire ch.val)

/-- The width of a pulse runs out (R127, R129, R370). -/
def Chip.pulseTimeout (m : Chip) (ch : Nat) : Chip :=
  if m.runs (clusterOf ch) then
    match m.pulseDue ch (m.chTb ch) with
    | none => m
    | some p => m.pulseEnd ch p
  else m

def execPulseEnd (ch : Ch) (s : State) : Host.Outcome State Fault Refusal := s.upd (·.pulseTimeout ch.val)

/-- R163: the deadline has passed, and no firing TB at or before it is held. -/
def Chip.deadlineEnd (m : Chip) (i : Nat) : Chip :=
  match m.ev i with
  | none => m
  | some e =>
    if e.life = .armed ∧ e.deadline ≠ 0 ∧ e.deadline < m.chTb e.ch ∧
        !(m.canFire e.ch && (m.heldHeads e.ch).any fun h => h.key == i && decide (h.tb ≤ e.deadline)) then m.finish i e 3 4
    else m

def execEventDeadline (i : Pool) (s : State) : Host.Outcome State Fault Refusal := s.upd (·.deadlineEnd i.val)

/-- Distance to the fire point of an event, where the conversion has a solution. -/
def Chip.evFireDist (m : Chip) (e : Ev) : Option Int :=
  let x := m.chAxis e.ch
  fireDist x.v x.a (axDist x e.target) (m.advOf e.ch e.kind e.noadv)

/-- An armed event has overrun its fire point by more than LATE (R164). -/
def Chip.overrun (m : Chip) (e : Ev) : Bool :=
  e.life == .armed && !e.equal && (m.evFireDist e).any fun f => decide (f < -(m.lateWin e.ch))

/-- R164. -/
def Chip.lateEnd (m : Chip) (i : Nat) : Chip :=
  match m.ev i with
  | none => m
  | some e => if m.overrun e then m.finish i e 3 6 else m

def execLateWindowExceeded (i : Pool) (s : State) : Host.Outcome State Fault Refusal := s.upd (·.lateEnd i.val)

/-- R155: the axis is ahead of T by more than SPAN mm after a forward action. -/
def Chip.spanEnd (m : Chip) (i : Nat) : Chip :=
  match m.ev i with
  | none => m
  | some e =>
    let span := (m.chan e.ch).span
    if e.life = .standing ∧ !e.fwd ∧ span ≠ 0 ∧ axDist (m.chAxis e.ch) e.target < -(fx (span * 256)) then m.freeSlot i else m

def execStandingSpanEnd (i : Pool) (s : State) : Host.Outcome State Fault Refusal := s.upd (·.spanEnd i.val)

/-! ## Snapshot reads (R170) -/

/-- A read of CH_LAST_O: a resolution of the same cycle is not seen yet. -/
def Chip.chLastRead (m : Chip) (ch : Nat) : Chip :=
  let x := m.chan ch
  let r : LastRes := if x.lastAt = some m.tb then x.lastWas else ⟨m.word lastFields ch, x.lastLat, x.lastTb⟩
  let m := (m.wrSat CH_LAST_LAT ch r.lat).wrTb CH_LAST_TB_LO CH_LAST_TB_HI ch r.tb
  { m with rdata := r.word }

def execChLastRead (ch : Ch) (s : State) : Host.Outcome State Fault Refusal := s.upd (·.chLastRead ch.val)

/-- The nearest action that a read in this cycle finds: that of the tick before while a tick commits; none while the axis is HELD or OFF
(R146, R170). -/
def Chip.nearSeen (m : Chip) (ch : Nat) : Option (Option Nat × Nat × Nat) :=
  let x := m.chan ch
  if m.tickAt = m.tb then x.nearOld else if m.rd AX_STAT_STATE (m.rd CH_AXIS_AX ch) = 1 then x.near else none

/-- A read of CH_HEAD_TB_LO (R146). -/
def Chip.chHeadRead (m : Chip) (ch : Nat) : Chip :=
  let (t, f, h) := (m.nearSeen ch).getD (none, 0, 0)
  let m := m.wrTb CH_HEAD_TB_LO CH_HEAD_TB_HI ch (t.getD (2 ^ 64 - 1))
  let m := ((m.wr CH_HEAD_F_LO ch f).wr CH_HEAD_F_HI ch (f / 2 ^ 32)).wr CH_HEAD_H ch h
  { m with rdata := m.rd CH_HEAD_TB_LO ch }

def execChHeadRead (ch : Ch) (s : State) : Host.Outcome State Fault Refusal := s.upd (·.chHeadRead ch.val)

/-- The slots of a channel from the head in the direction of travel (R143, R170): the armed actions in their order, then the other installed
slots by the distance to their targets, then the reservations. -/
def Chip.slotOrder (m : Chip) (ch : Nat) : List (Nat × Ev) :=
  let p := (m.chAxis ch).posInt
  let back := m.rdB AX_STAT_DIR (m.rd CH_AXIS_AX ch)
  let far := fun e : Ev => if back then ofSigned 40 ((p : Int) - (e.target : Int)) else ofSigned 40 ((e.target : Int) - (p : Int))
  let le := fun x y : Nat × Ev => decide (far x.2 < far y.2) || (far x.2 == far y.2 &&
    (decide (ownerRank y.2.owner < ownerRank x.2.owner) || (ownerRank x.2.owner == ownerRank y.2.owner && decide (x.2.order ≤ y.2.order))))
  let keys := (m.cands ch).map fun c => if c.key < 16384 then c.key else match (m.chan ch).train with | some t => t.idx | none => c.key
  let evs := m.chEvs ch
  keys.filterMap (fun i => evs.find? (·.1 == i)) ++ sortBy le (evs.filter fun x => x.2.life != .reserved && !keys.contains x.1) ++
    evs.filter fun x => x.2.life == .reserved

/-- A read of CH_SLOT_INFO. -/
def Chip.chSlotRead (m : Chip) (ch : Nat) : Chip :=
  let m := match (m.slotOrder ch)[m.rd CH_SLOT_SEL_IDX ch]? with
    | none =>
      (m.resetFields [CH_SLOT_INFO_HANDLE, CH_SLOT_INFO_KIND, CH_SLOT_INFO_STANDING, CH_SLOT_INFO_OWNER, CH_SLOT_INFO_JOUR,
        CH_SLOT_INFO_RESV, CH_SLOT_INFO_VALID, CH_SLOT_T_LO, CH_SLOT_T_HI] (· == ch))
    | some (i, e) =>
      let t := if e.life = EvLife.reserved then 0 else e.target
      let m := ((m.wr CH_SLOT_INFO_HANDLE ch (handleOf i e.gen)).wr CH_SLOT_INFO_KIND ch e.kind).wr CH_SLOT_INFO_OWNER ch e.owner
      let m := (m.wrB CH_SLOT_INFO_STANDING ch (e.life == EvLife.standing)).wrB CH_SLOT_INFO_JOUR ch e.jsn.isSome
      let m := (m.wrB CH_SLOT_INFO_RESV ch (e.life == EvLife.reserved)).wr CH_SLOT_INFO_VALID ch 1
      (m.wr CH_SLOT_T_LO ch t).wr CH_SLOT_T_HI ch (t / 2 ^ 32)
  { m with rdata := m.word [CH_SLOT_INFO_HANDLE, CH_SLOT_INFO_KIND, CH_SLOT_INFO_STANDING, CH_SLOT_INFO_OWNER, CH_SLOT_INFO_JOUR,
      CH_SLOT_INFO_RESV, CH_SLOT_INFO_VALID] ch }

def execChSlotInfoRead (ch : Ch) (s : State) : Host.Outcome State Fault Refusal := s.upd (·.chSlotRead ch.val)

/-! ## Configuration (R135, R140, R167, R192) -/

/-- A write of CH_CTL. -/
def Chip.chCtlWrite (m : Chip) (ch w : Nat) : Chip :=
  let v := wordField CH_CTL_MODE w
  if (v = 0 ∨ v = 3) ∧ m.pend ch ≠ 0 then m.chFlag ch CH_FLAGS_CFG_ERR
  else match m.pwmUser ch with
    | some l => if v = 0 ∨ v = 3 then m.wr CH_CTL_MODE ch v else m.latFlag l LAT_FLAGS_CFG_ERR
    | none => ((m.wr CH_CTL_MODE ch v).touch ch).capFill (ch / 24)

/-- A write of CH_AXIS. -/
def Chip.chAxisWrite (m : Chip) (ch w : Nat) : Chip :=
  if m.pend ch ≠ 0 then m.chFlag ch CH_FLAGS_CFG_ERR else (m.wrFrom CH_AXIS_AX ch w).touch ch

/-- A write of CH_ADV: the measured mode begins at CH_ADV_OPEN. -/
def Chip.chAdvWrite (m : Chip) (ch w : Nat) : Chip :=
  let was := m.rd CH_ADV_MODE ch
  let m := (m.wrFrom CH_ADV_MODE ch w).wrFrom CH_ADV_SHIFT ch w
  let m := m.touch ch
  if was = 0 ∧ m.rdB CH_ADV_MODE ch then m.setChan ch { m.chan ch with tMeas := m.rd CH_ADV_OPEN ch } else m

/-- CH_CTL, CH_AXIS or CH_ADV written, by register 0, 1 or 2. -/
def Chip.chCfgWrite (m : Chip) (ch reg w : Nat) : Chip :=
  if reg = 0 then m.chCtlWrite ch w else if reg = 1 then m.chAxisWrite ch w else m.chAdvWrite ch w

def execChannelConfigWrite (who : Writer) (ch : Ch) (reg : Fin 3) (w : Word) (s : State) : Host.Outcome State Fault Refusal :=
  s.upd fun m => if m.chOk who ch.val then m.chCfgWrite ch.val reg.val w.toNat else m

/-! ## The prediction tick (R82) -/

/-- The channels, their gates and the lattices over a tick. -/
def Chip.chansTick (m : Chip) : Chip :=
  let cs := m.chans.map (·.1)
  let m := cs.foldl Chip.chanTick m
  let m := if m.runs islAxis then { m with axes := m.axes.map fun p => (p.1, { p.2 with offOrder := none }) } else m
  let m := cs.foldl Chip.gateTick m
  cs.foldl (fun m ch => if m.runs (clusterOf ch) then m.latTick ch else m) m

/-- Every 1 us: Mandrel, then the axes, then the channels. -/
def Chip.predictionTick (m : Chip) : Chip :=
  if m.due .prediction ∧ m.tb % 200 = 0 then
    let m := m.stamp .prediction
    let m := if m.runs islObserver then m.mandrelTick else m
    let m := if m.runs islAxis then m.axesTick else m
    m.chansTick
  else m

def execPredictionTick (s : State) : Host.Outcome State Fault Refusal := s.upd Chip.predictionTick

/-- A field jump moves the targets of the lattices whose reference is the lattice (R194). -/
def Chip.jumpSteps (old m : Chip) : Chip :=
  m.latsOn.foldl (fun m ch =>
    if m.rdB LAT_STAT_REF ch ∧ (m.lat ch).begun then
      let a := m.rd CH_AXIS_AX ch
      let p := old.latPlace ch (old.axField a).1 (old.axField a).2
      let q := m.latPlace ch (m.axField a).1 (m.axField a).2
      m.latStep ch (q.2.2 - p.2.2)
    else m) m

/-- Processing of a pose completes; a field jump is a target step of the lattices. -/
def Chip.posesDone (m : Chip) : Chip :=
  let n := m.poseProcess
  if n.rd MDL_POSE_STAT_LAST = 2 ∧ m.mdl.pose.isSome then m.jumpSteps n else n

def execPoseProcessed (s : State) : Host.Outcome State Fault Refusal := s.upd Chip.posesDone

end Sys2Proof.Machine
end

