-- ==== Sys2Proof/Machine/Drive.lean ====
section
/-! DEFINITION. The commands of the actuator drive, the boost controller, the limiters and the bank supplies (06 R201-R232). -/

namespace Sys2Proof.Machine

/-- The drive owner writes (R228). -/
def Chip.driveOk (m : Chip) (w : Writer) : Bool := m.isOwner w (m.rd PROT_ROLE_DRIVE) && m.runs islMgmt

/-! ## Boost switch (R210, R215, R216) -/

/-- The first waiting request is granted when the conditions hold. -/
def Chip.grantFirst (m : Chip) (b : Nat) : Chip :=
  match m.waiting b with
  | w :: _ => if m.boostFree b then m.boostGrant w else m
  | [] => m

def execBoostGrant (b : Bank) (s : State) : Host.Outcome State Fault Refusal := s.upd (·.grantFirst b.val)

/-- A request has waited DEFER us. -/
def Chip.deferEnd (m : Chip) (ch : Nat) : Chip :=
  if m.phase ch = phWait ∧ (m.drv ch).reqTb + m.defer (bankOf ch) * usTb ≤ m.tb then m.boostDeny ch else m

def execBoostDeferTimeout (ch : Ch) (s : State) : Host.Outcome State Fault Refusal := s.upd (·.deferEnd ch.val)

/-- The coil current reaches I_BST. -/
def Chip.boostReached (m : Chip) (ch code : Nat) : Chip :=
  if m.phase ch = phBoost ∧ (m.drv ch).iBst ≤ code then (m.wr CH_DRV_I_NOW ch code).boostEnd ch else m

def execBoostCurrentReached (ch : Ch) (code : Nat) (s : State) : Host.Outcome State Fault Refusal := s.upd (·.boostReached ch.val code)

/-- T_BST elapses in BOOST. -/
def Chip.boostLimit (m : Chip) (ch : Nat) : Chip :=
  if m.phase ch = phBoost ∧ (m.drv ch).hsbTb + (m.drv ch).tBst * usTb ≤ m.tb then (m.drvFlag ch CH_DRV_FLAGS_BST_TMO).boostEnd ch else m

def execBoostTimeout (ch : Ch) (s : State) : Host.Outcome State Fault Refusal := s.upd (·.boostLimit ch.val)

/-! ## Phases (R210-R213) -/

/-- PEAK to HOLD. -/
def Chip.toHold (m : Chip) (ch : Nat) : Chip := m.stepTo ch phHold (m.drv ch).stepPh

/-- T_PK elapses. -/
def Chip.peakEnd (m : Chip) (ch : Nat) : Chip :=
  if m.phase ch = phPeak ∧ (m.drv ch).phaseTb + (m.drv ch).tPk * usTb ≤ m.tb then m.toHold ch else m

def execPeakTimeout (ch : Ch) (s : State) : Host.Outcome State Fault Refusal := s.upd (·.peakEnd ch.val)

/-- The on-time reaches MAXON x 0.1 s. -/
def Chip.maxonEnd (m : Chip) (ch : Nat) : Chip :=
  let d := m.drv ch
  if (m.phase ch = phHold ∨ m.phase ch = phPlain) ∧ d.maxon ≠ 0 ∧ d.startTb + d.maxon * 20000000 ≤ m.tb then
    (m.drvFlag ch CH_DRV_FLAGS_MAXON).driveCutOwn ch
  else m

def execMaxonTimeout (ch : Ch) (s : State) : Host.Outcome State Fault Refusal := s.upd (·.maxonEnd ch.val)

/-- The window regulator meets a current that is not blanked (R211-R213). -/
def Chip.regulate (m : Chip) (ch : Nat) : Chip :=
  let ph := m.phase ch
  let d := m.drv ch
  let i := m.iNow ch
  let (lo, hi) := m.window ch ph
  if ph ≠ phPeak ∧ ph ≠ phHold ∧ ph ≠ phPlain then m
  else if m.tb < d.blankTb then m
  else if d.step.isSome then
    if i ≤ lo then ((m.setDrv ch { d with step := none }).setSw ch true false).bankStat (bankOf ch) else m
  else if m.rdB CH_DRV_STAT_LS ch then
    if hi ≤ i then m.setSw ch false (!(d.chopFast && !m.rdB BK_STAT_HSB (bankOf ch) && !m.rdB BST_STAT_OV)) else m
  else if i ≤ lo then m.setSw ch true false
  else m

/-- The coil current of a channel that is not OFF crosses a threshold. -/
def Chip.currentAt (m : Chip) (ch code : Nat) : Chip :=
  if m.phase ch = phOff then m else (m.wr CH_DRV_I_NOW ch code).regulate ch

def execWindowCrossing (ch : Ch) (code : Nat) (s : State) : Host.Outcome State Fault Refusal := s.upd (·.currentAt ch.val code)

/-- The blanking time is over, and the current stands where it is. -/
def Chip.blankEnd (m : Chip) (ch code : Nat) : Chip := if (m.drv ch).blankTb ≤ m.tb then m.currentAt ch code else m

def execBlankingExpiry (ch : Ch) (code : Nat) (s : State) : Host.Outcome State Fault Refusal := s.upd (·.blankEnd ch.val code)

/-- HSS of a bank that is not enabled opens when all eight currents are zero (R202). -/
def Chip.hssIdle (m : Chip) (b : Nat) : Chip :=
  if !m.rdB BK_CTL_EN b ∧ (bankChs b).all (fun c => m.phase c == phOff) then m.wr BK_STAT_HSS b 0 else m

/-- The current of a decay ends (R210, R211). -/
def Chip.decayOver (m : Chip) (ch : Nat) : Chip :=
  let d := m.drv ch
  if m.phase ch = phDecay ∧ d.phaseTb + 2 * usTb ≤ m.tb then
    let m := ((m.wr CH_DRV_I_NOW ch 0).setDrv ch { d with fast := false }).setSw ch false false
    (m.setPhase ch phOff).hssIdle (bankOf ch)
  else if m.phase ch = phWait then
    (((m.wr CH_DRV_I_NOW ch 0).setDrv ch { d with fast := false }).setSw ch false false).bankStat (bankOf ch)
  else m

def execDecayEnd (ch : Ch) (s : State) : Host.Outcome State Fault Refusal := s.upd (·.decayOver ch.val)

/-! ## Banks (R202, R204, R225) -/

/-- Every channel of a bank is cut by its own turn-off decay, and its node test abandoned (R236). -/
def Chip.bankCut (m : Chip) (b : Nat) : Chip := (bankChs b).foldl Chip.nodeAbort ((m.offOrder b).foldl Chip.driveCutOwn m)

/-- A write of BK_CTL (R202). -/
def Chip.bankCtl (m : Chip) (b w : Nat) : Chip :=
  let m := m.wrFrom BK_CTL_DEFER b w
  if bitAt w 0 then
    if m.rdB BK_CTL_EN b then m
    else
      let m := (m.supAbort b).wr BK_CTL_EN b 1
      (m.wrB BK_STAT_HSS b (!m.rdB BK_STAT_HSB b && !m.rdB BK_STAT_LOST b)).capFill (b / 3)
  else if m.rdB BK_CTL_EN b then ((m.bankCut b).wr BK_CTL_EN b 0).hssIdle b
  else m

def execBankEnableWrite (who : Writer) (b : Bank) (w : Word) (s : State) : Host.Outcome State Fault Refusal :=
  s.upd fun m => if m.driveOk who then m.bankCtl b.val w.toNat else m

def execClusterSilence (c : Cl) (s : State) : Host.Outcome State Fault Refusal := s.upd (·.clusterStop c.val)

/-- VBKn below 7.0 V, or back at 7.5 V, for 1 ms (R225). -/
def Chip.vbkUv (m : Chip) (b mv us : Nat) : Chip :=
  let m := m.wr BK_V_VBK b (mv / 10)
  if mv < 7000 ∧ 1000 ≤ us then (m.wr BK_STAT_UV b 1).bkFlag b BK_FLAGS_UV
  else if 7500 ≤ mv ∧ 1000 ≤ us then m.wr BK_STAT_UV b 0
  else m

def execVbkUndervoltage (b : Bank) (mv : Nat) (heldUs : Nat) (s : State) : Host.Outcome State Fault Refusal :=
  s.upd (·.vbkUv b.val mv heldUs)

/-- VBKn below 4.5 V, or above 40.0 V (R513), for 10 us: the bank is lost. -/
def Chip.bankLose (m : Chip) (b mv us : Nat) : Chip :=
  let m := m.wr BK_V_VBK b (mv / 10)
  let lost := decide (10 ≤ us) && (decide (mv < 4500) || decide (40000 < mv))
  let m := if lost then m.setBank b { m.bank b with tooHigh := decide (40000 < mv) } else m
  if lost ∧ !m.rdB BK_STAT_LOST b then
    (((m.wr BK_STAT_LOST b 1).wr BK_STAT_HSS b 0).bankCut b).bkFlag b BK_FLAGS_VBK_LOST
  else m

def execVbkLost (b : Bank) (mv : Nat) (heldUs : Nat) (s : State) : Host.Outcome State Fault Refusal :=
  s.upd (·.bankLose b.val mv heldUs)

/-- VBKn back at 6.0 V, or after R513 at 38.0 V or less, for 1 ms: the bank returns. -/
def Chip.bankBack (m : Chip) (b mv us : Nat) : Chip :=
  let m := m.wr BK_V_VBK b (mv / 10)
  let m := if 7500 ≤ mv ∧ 1000 ≤ us then m.wr BK_STAT_UV b 0 else m
  let back := if (m.bank b).tooHigh then decide (mv ≤ 38000) && decide (4500 ≤ mv) else decide (6000 ≤ mv)
  if back ∧ 1000 ≤ us ∧ m.rdB BK_STAT_LOST b then
    ((m.wr BK_STAT_LOST b 0).wrB BK_STAT_HSS b (m.rdB BK_CTL_EN b && !m.rdB BK_STAT_HSB b)).bkFlag b BK_FLAGS_VBK_BACK
  else m

def execVbkBack (b : Bank) (mv : Nat) (heldUs : Nat) (s : State) : Host.Outcome State Fault Refusal :=
  s.upd (·.bankBack b.val mv heldUs)

/-! ## The boost controller (R205-R209) -/

/-- VB_SET, its READY level and the clamp threshold, in mV (R206, R207, R231). -/
def Chip.vbSet (m : Chip) : Nat := clampN 24 65 (m.rd BST_CTL_VB_SET) * 1000
def Chip.vbReady (m : Chip) : Nat := m.vbSet - m.rd BST_MARG_RDY * 1000
def Chip.vbClamp (m : Chip) : Nat := m.vbSet + max 1 (m.rd BST_MARG_CL_OFS) * 500

/-- Clamp energy up to now, in BST_CLAMP_E: the rules do not give it, so while a clamp conducts a free amount that is not negative is added
(R207). -/
def Chip.clampTake (m : Chip) : Chip :=
  if (m.boost.clampA || m.boost.clampB) && m.boost.clampTb != some m.tb then
    let (x, m) := m.free
    { m with boost := { m.boost with clampTb := some m.tb } }.wr BST_CLAMP_E 0 (m.rd BST_CLAMP_E + x.toNat)
  else m

/-- The controller's switching at the level of VBOOST (R205): its frequency in kHz, 0 while it does not switch. -/
def Chip.boostSwitch (m : Chip) : Chip :=
  let st := m.rd BST_STAT_STATE
  let mv := m.boost.mv
  let f := clampN 20 100 (m.rd BST_CTL_FREQ) * 5
  let sw := if st ≠ 1 ∧ st ≠ 2 then 0 else if mv < m.vbSet then f else if m.vbSet + 250 ≤ mv ∨ m.boost.swKhz = 0 then 0 else f
  { m with boost := { m.boost with swKhz := sw } }

/-- The controller's state and READY at a level (R205, R206). -/
def Chip.boostState (m : Chip) (mv : Nat) : Chip :=
  let st := m.rd BST_STAT_STATE
  let ok := decide (m.vbReady ≤ mv)
  if st = 1 ∧ ok then ((m.bstSet 2).wr BST_STAT_READY 0 1).bstFlag BST_FLAGS_READY_IN
  else if st = 2 then
    if ok && !m.rdB BST_STAT_READY then (m.wr BST_STAT_READY 0 1).bstFlag BST_FLAGS_READY_IN
    else if !ok && m.rdB BST_STAT_READY then (m.wr BST_STAT_READY 0 0).bstFlag BST_FLAGS_READY_OUT
    else m
  else m

/-- What VBOOST, as last measured, brings under the settings as they stand: READY, the switching, and the end of the clamps' conduction
(R205-R207). -/
def Chip.boostEval (m : Chip) : Chip :=
  let m := ((m.boostState m.boost.mv).boostSwitch).clampTake
  if m.boost.mv ≤ m.vbClamp then { m with boost := { m.boost with clampA := false, clampB := false } }.wr BST_STAT_CLAMP 0 0 else m

/-- VBOOST is measured: what follows from its level. -/
def Chip.boostV (m : Chip) (mv : Nat) : Chip :=
  let m := { m with boost := { m.boost with mv := mv } }.wr BST_V 0 (mv / 10)
  let m := match m.boost.rchgFrom with
    | some t => if m.vbSet ≤ mv then { m with boost := { m.boost with rchgFrom := none } }.wr BST_RCHG 0 (min 1048575 ((m.tb - t) / usTb)) else m
    | none => m
  m.boostEval

/-- A write of BST_CTL (R205, R231). -/
def Chip.bstCtl (m : Chip) (w : Nat) : Chip :=
  let m := ((m.wrFrom BST_CTL_VB_SET 0 w).wrFrom BST_CTL_FREQ 0 w).wrFrom BST_CTL_ILIM 0 w
  let m := m.wrB BST_CTL_EN 0 (bitAt w 0)
  let m := if !bitAt w 0 then (m.bstSet 0).wr BST_STAT_READY 0 0
    else if m.rd BST_STAT_STATE = 0 then { m with boost := { m.boost with startTb := m.tb } }.bstSet 1
    else m
  m.boostEval

def execBoostCtlEnable (who : Writer) (w : Word) (s : State) : Host.Outcome State Fault Refusal :=
  s.upd fun m => if m.driveOk who then m.bstCtl w.toNat else m

def execBoostReady (mv : Nat) (s : State) : Host.Outcome State Fault Refusal := s.upd (·.boostV mv)

/-- 200 ms in START. -/
def Chip.boostStartEnd (m : Chip) : Chip :=
  if m.rd BST_STAT_STATE = 1 ∧ m.boost.startTb + 200 * msTb ≤ m.tb then (m.bstSet 3).boostSwitch.bstFlag BST_FLAGS_START_TMO else m

def execBoostStartTimeout (s : State) : Host.Outcome State Fault Refusal := s.upd Chip.boostStartEnd

/-- The shunt voltage ends a switching cycle (R205). -/
def Chip.boostCycle (m : Chip) (mv : Nat) : Chip :=
  if m.boost.swKhz ≠ 0 ∧ m.discClosed ∧ clampN 10 150 (m.rd BST_CTL_ILIM) ≤ mv then m.bstFlag BST_FLAGS_ILIM else m

def execBoostIlim (shuntMv : Nat) (s : State) : Host.Outcome State Fault Refusal := s.upd (·.boostCycle shuntMv)

/-- A rail clamp starts to conduct (R207). -/
def Chip.clampStart (m : Chip) (d mv : Nat) : Chip :=
  let m := m.boostV mv
  let on := if d = 0 then m.boost.clampA else m.boost.clampB
  if m.vbClamp < mv ∧ !on then
    let b := if d = 0 then { m.boost with clampA := true } else { m.boost with clampB := true }
    ({ m with boost := b }.wr BST_STAT_CLAMP 0 1).bstFlag BST_FLAGS_CLAMP_ON
  else m

def execRailClampOn (d : Die) (mv : Nat) (s : State) : Host.Outcome State Fault Refusal := s.upd (·.clampStart d.val mv)

/-- A channel while OV is 1: a turn-off or a step by fast decay goes on slow and sets DECAY_SLOW, but for one that R241 forces; a fast chop goes
on slow, so that no coil energy enters the rail (R208). -/
def Chip.decaySlow (m : Chip) (ch : Nat) : Chip :=
  let d := m.drv ch
  let ph := m.phase ch
  if (ph = phDecay ∨ ph = phWait) ∧ d.fast ∧ !d.forced then
    ((m.setDrv ch { d with fast := false }).setSw ch false true).drvFlag ch CH_DRV_FLAGS_DECAY_SLOW |>.bankStat (bankOf ch)
  else if d.step = some true then
    ((m.setDrv ch { d with step := some false }).setSw ch false true).drvFlag ch CH_DRV_FLAGS_DECAY_SLOW |>.bankStat (bankOf ch)
  else if (ph = phPeak ∨ ph = phHold ∨ ph = phPlain) ∧ !m.rdB CH_DRV_STAT_LS ch then m.setSw ch false true
  else m

/-- VBOOST reaches 70.0 V (R208). -/
def Chip.ovIn (m : Chip) (mv : Nat) : Chip :=
  let m := m.boostV mv
  if 70000 ≤ mv ∧ !m.rdB BST_STAT_OV then
    (m.chans.map (·.1)).foldl Chip.decaySlow ((m.wr BST_STAT_OV 0 1).bstFlag BST_FLAGS_OV_IN)
  else m

def execBoostOvIn (mv : Nat) (s : State) : Host.Outcome State Fault Refusal := s.upd (·.ovIn mv)

/-- VBOOST falls below 68.0 V (R208). -/
def Chip.ovOut (m : Chip) (mv : Nat) : Chip :=
  let m := m.boostV mv
  if mv < 68000 ∧ m.rdB BST_STAT_OV then (m.wr BST_STAT_OV 0 0).bstFlag BST_FLAGS_OV_OUT else m

def execBoostOvOut (mv : Nat) (s : State) : Host.Outcome State Fault Refusal := s.upd (·.ovOut mv)

/-! ## Limits (R219-R224) -/

/-- The cap of the boost and peak thresholds, and that of the hold thresholds, the floor and the plain limit. -/
def Chip.capPeak (m : Chip) (ch : Nat) : Nat := min (m.rd BK_LIM0_IPK_MAX (bankOf ch)) 1000
def Chip.capHold (m : Chip) (ch : Nat) : Nat := min (m.rd BK_LIM0_IPK_MAX (bankOf ch)) 500

/-- The effective hold window as the trim leaves it (R224). -/
def Chip.holdEff (m : Chip) (ch : Nat) : Chip :=
  let d := m.drv ch
  let lo := m.rd CH_DRV_HD_HD_LO ch
  let t := min d.trim (lo - d.floor)
  ((m.setDrv ch { d with trim := t }).wr CH_DRV_HD_EFF_LO_EFF ch (lo - t)).wr CH_DRV_HD_EFF_HI_EFF ch (m.rd CH_DRV_HD_HD_HI ch - t)
    |>.wrB CH_DRV_STAT_TRIM ch (decide (t ≠ 0))

/-- A write of CH_DRV_PK or CH_DRV_HD. -/
def Chip.windowWrite (m : Chip) (ch w : Nat) (hold : Bool) : Chip :=
  let cap := if hold then m.capHold ch else m.capPeak ch
  let lo := w % 1024
  let hi := w / 65536 % 1024
  let hi' := min hi cap
  let lo' := if cap < hi then min lo (cap - 1) else min lo cap
  if hi' ≤ lo' then m.drvFlag ch CH_DRV_FLAGS_CFG_ERR
  else
    let m := if hold then (((m.wr CH_DRV_HD_HD_LO ch lo').wr CH_DRV_HD_HD_HI ch hi').holdEff ch).trimStat (dieOf ch)
      else (m.wr CH_DRV_PK_PK_LO ch lo').wr CH_DRV_PK_PK_HI ch hi'
    if hi' ≠ hi ∨ lo' ≠ lo then m.drvFlag ch CH_DRV_FLAGS_CFG_CLAMP else m

def execChDrvWindowWrite (who : Writer) (ch : Ch) (hold : Bool) (w : Word) (s : State) : Host.Outcome State Fault Refusal :=
  s.upd fun m => if m.chOk who ch.val then m.windowWrite ch.val w.toNat hold else m

/-- A threshold stored under its cap (R219): the boost level, the hold floor, the plain limit. -/
def Chip.cappedWrite (m : Chip) (f : Field) (ch v cap : Nat) : Chip :=
  let m := m.wr f ch (min v cap)
  if cap < v then m.drvFlag ch CH_DRV_FLAGS_CFG_CLAMP else m

/-- The on-time of the last second, in TB. -/
def onTime (iv : List (Nat × Option Nat)) (now : Nat) : Nat :=
  let lo := now - 200000000
  iv.foldl (fun a p => a + ((p.2.getD now) - max p.1 lo)) 0

/-- R221, every 1 ms. -/
def Chip.dutyStep (m : Chip) (ch : Nat) : Chip :=
  if !m.due .duty ch then m
  else
    let m := m.stamp .duty ch
    let d := m.drv ch
    let m := m.setDrv ch { d with onIv := d.onIv.filter fun p => match p.2 with
      | some t => decide (m.tb < t + 200000000)
      | none => true }
    let on := onTime (m.drv ch).onIv m.tb
    let m := m.wr CH_DRV_DUTY ch (on * 1000 / 200000000)
    let lim := m.rd BK_LIM0_DUTY_MAX (bankOf ch)
    if m.rdB CH_DRV_STAT_DUTY_LIM ch then
      if (on : Int) * 1000 ≤ ((lim : Int) - 50) * 200000000 ∨ lim = 1000 then m.wr CH_DRV_STAT_DUTY_LIM ch 0 else m
    else if lim ≠ 1000 ∧ lim * 200000000 ≤ on * 1000 then
      ((m.driveCutOwn ch).wr CH_DRV_STAT_DUTY_LIM ch 1).drvFlag ch CH_DRV_FLAGS_DUTY_LIM
    else m

def execDutyCheck (ch : Ch) (s : State) : Host.Outcome State Fault Refusal := s.upd (·.dutyStep ch.val)

/-- The hottest channel of a die. -/
def Chip.hottest (m : Chip) (d : Nat) : Chip :=
  let c := (dieChs d).foldl (fun b c => if m.rdI CH_DRV_TJ b < m.rdI CH_DRV_TJ c then c else b) (96 * d)
  (m.wr PWR_TMAX_TJ d (m.rd CH_DRV_TJ c)).wr PWR_TMAX_CH d c

/-- R222, every 100 us. -/
def Chip.temperature (m : Chip) (ch : Nat) (t : Int) : Chip :=
  if !m.due .temperature ch then m
  else
    let m := m.stamp .temperature ch
    let d := dieOf ch
    let was := m.rdI CH_DRV_TJ ch
    let m := (m.wrFit CH_DRV_TJ ch t).hottest d
    let warn : Int := m.rd PWR_CTL_TJ_WARN d
    let m := if warn ≤ t ∧ was < warn then (m.drvFlag ch CH_DRV_FLAGS_THERM_WARN).pwrFlag d PWR_FLAGS_THERM_WARN else m
    if 175 ≤ t ∧ !m.rdB CH_DRV_STAT_THERM_OFF ch then
      (((m.driveCut ch true).wr CH_DRV_STAT_THERM_OFF ch 1).drvFlag ch CH_DRV_FLAGS_THERM_OFF).pwrFlag d PWR_FLAGS_THERM_OFF
    else if t < 160 then m.wr CH_DRV_STAT_THERM_OFF ch 0
    else m

def execChannelTemperature (ch : Ch) (celsius : Int) (s : State) : Host.Outcome State Fault Refusal :=
  s.upd (·.temperature ch.val celsius)

/-- A channel in HOLD that the budget may trim (R224). -/
def Chip.trimmable (m : Chip) (ch : Nat) : Bool := m.phase ch == phHold && decide ((m.drv ch).floor < m.rd CH_DRV_HD_HD_LO ch)

/-- Hold windows lowered by one step, and raised by one. -/
def Chip.trimDown (m : Chip) (d step : Nat) : Chip :=
  let cs := (dieChs d).filter m.trimmable
  let any := cs.any fun c => decide ((m.drv c).floor < m.rd CH_DRV_HD_EFF_LO_EFF c)
  let m := cs.foldl (fun m c => (m.setDrv c { m.drv c with trim := (m.drv c).trim + step }).holdEff c) m
  if any && !m.rdB PWR_STAT_TRIM d then (m.wr PWR_STAT_TRIM d 1).pwrFlag d PWR_FLAGS_TRIM_IN else m

def Chip.trimUp (m : Chip) (d step : Nat) : Chip :=
  let cs := (dieChs d).filter fun c => (m.drv c).trim != 0
  (cs.foldl (fun m c => (m.setDrv c { m.drv c with trim := (m.drv c).trim - step }).holdEff c) m).trimStat d

/-- A channel cannot be trimmed further. -/
def Chip.atFloor (m : Chip) (c : Nat) : Bool := !m.trimmable c || decide (m.rd CH_DRV_HD_EFF_LO_EFF c ≤ (m.drv c).floor)

/-- R224, every 1 ms. -/
def Chip.lossStep (m : Chip) (d lossMw : Nat) : Chip :=
  if !m.due .dieLoss d then m
  else
    let m := m.stamp .dieLoss d
    let old := if d = 0 then m.boost.pEstA else m.boost.pEstB
    let p := old + (fx lossMw - old) / 100
    let b : Int := min 6000 (m.rd PWR_CTL_BUDGET d)
    let since := if d = 0 then m.boost.aboveA else m.boost.aboveB
    let above := if fx b < p then some (since.getD m.tb) else none
    let bs := if d = 0 then { m.boost with pEstA := p, aboveA := above } else { m.boost with pEstB := p, aboveB := above }
    let m := { m with boost := bs }.wr PWR_STAT_P_EST d (clampI 0 65535 (fxInt p)).toNat
    let step := max 1 (m.rd PWR_CTL_TRIM_STEP d)
    let m := if fx b < p then m.trimDown d step else if p * 100 < fx b * 95 then m.trimUp d step else m
    let floor := (dieChs d).all m.atFloor
    let long := match above with
      | some t => decide (t + 100 * msTb ≤ m.tb)
      | none => false
    if floor && long then
      if m.rdB PWR_STAT_FLOOR d then m else (m.wr PWR_STAT_FLOOR d 1).pwrFlag d PWR_FLAGS_FLOOR
    else if floor then m
    else m.wr PWR_STAT_FLOOR d 0

def execDieLossBudget (d : Die) (lossMw : Nat) (s : State) : Host.Outcome State Fault Refusal := s.upd (·.lossStep d.val lossMw)

end Sys2Proof.Machine
end

