-- ==== Sys2Proof/Machine/DiagOps.lean ====
section
/-! DEFINITION. Operations of actuator diagnosis: conditions, states and the reactions to a detection (07 R233-R248). -/

namespace Sys2Proof.Machine

/-- Bits of DG_STAT.COND: OPEN, SHORT_GND, SHORT_BAT, NO_RISE. -/
def Chip.cond (m : Chip) (ch b : Nat) : Bool := bitAt (m.rd DG_STAT_COND ch) b
def Chip.setCond (m : Chip) (ch b : Nat) (v : Bool) : Chip := m.wr DG_STAT_COND ch (putBit (m.rd DG_STAT_COND ch) b v)

/-- Precedence of a condition's flag within a cycle (R240); NO_RISE comes last. -/
def condRank (b : Nat) : Nat := if b = 2 then 3 else if b = 1 then 2 else if b = 0 then 1 else 0

/-- A condition is detected: recorded in COND, and flagged unless a higher one was flagged in the same cycle (R240). -/
def Chip.detect (m : Chip) (ch b : Nat) : Chip :=
  let m := m.setCond ch b true
  let d := m.drv ch
  let same := match d.det with
    | some (t, p) => t == m.tb && decide (condRank b < p)
    | none => false
  if same then m else (m.setDrv ch { d with det := some (m.tb, condRank b) }).dgFlag ch b

/-- The output of a channel in SAFE: both switches off. A forced one opens the freewheel switch whatever R208 requires (R241). -/
def Chip.safeOff (m : Chip) (ch : Nat) (forced : Bool) : Chip :=
  let m := ((m.wr MAP_CH_STAT_OWN_ON ch 0).wr CH_STAT_OUT ch 0).cutPulses ch 6
  let m := m.setChan ch { m.chan ch with trainOff := none }
  let pick := fun m : Chip => if forced then m.decayForced ch else m.decayAs ch true
  let m := if m.phase ch = phDecay then m else m.drvOffBy ch pick
  let m := if m.phase ch = phDecay ∧ !(m.drv ch).fast then
      let (fast, m) := pick m
      ((m.setDrv ch { m.drv ch with fast := fast }).setSw ch false (!fast)).bankStat (bankOf ch)
    else m
  if forced then m.setDrv ch { m.drv ch with forced := true } else m

/-- Entry into SAFE (R243, R244). -/
def Chip.enterSafe (m : Chip) (ch : Nat) (forced : Bool) : Chip :=
  if m.dgSafe ch then m
  else
    let m := m.safeOff ch forced
    let m := (m.trainStop ch false).standEndAll ch
    (m.wr DG_STAT_STATE ch 2).dgFlag ch DG_FLAGS_SAFE_IN

/-- Exit from SAFE. -/
def Chip.leaveSafe (m : Chip) (ch : Nat) : Chip :=
  (((m.setDrv ch { m.drv ch with sbHold := false }).wr DG_STAT_STATE ch 0)).dgFlag ch DG_FLAGS_SAFE_OUT

/-- OPEN is confirmed (R243). -/
def Chip.openFound (m : Chip) (ch : Nat) : Chip :=
  let m := if m.cond ch 0 && m.dgSafe ch then m else m.detect ch 0
  if m.dgSafe ch then m else if m.rdB DG_CFG_OL_SAFE ch then m.enterSafe ch false else m.wr DG_STAT_STATE ch 0

/-- SHORT_GND is found; its bank is disabled where SG_BANK asks (R242). -/
def Chip.groundFound (m : Chip) (ch : Nat) : Chip :=
  let m := (if m.cond ch 1 && m.dgSafe ch then m else m.detect ch 1).enterSafe ch false
  let b := bankOf ch
  if m.rdB DG_CFG_SG_BANK ch then (m.bankCtl b (16 * m.rd BK_CTL_DEFER b)).dgFlag ch DG_FLAGS_ISOL else m

/-- SHORT_BAT by an on-state detection (R237, R238, R241); a channel that is SAFE opens its switches too. -/
def Chip.supplyFoundOn (m : Chip) (ch : Nat) : Chip :=
  let m := (m.count DG_CNT_TRIPS ch).detect ch 2
  let m := m.setDrv ch { m.drv ch with sbOn := true, sbHold := true }
  if m.dgSafe ch then m.safeOff ch true else m.enterSafe ch true

/-- SHORT_BAT by the supply test. -/
def Chip.supplyFoundOff (m : Chip) (ch : Nat) : Chip :=
  let m := if (m.drv ch).sbSup then m else m.detect ch 2
  (m.setDrv ch { m.drv ch with sbSup := true, sbHold := true }).enterSafe ch false

/-- An actuation is in progress. -/
def Chip.acting (m : Chip) (ch : Nat) : Bool := m.phase ch != phOff && m.phase ch != phDecay

/-! ## Node test (R233, R235, R239) -/

/-- The bank and phase conditions of a node test. -/
def Chip.nodeReady (m : Chip) (ch : Nat) : Bool :=
  m.rdB BK_CTL_EN (bankOf ch) && !m.rdB BK_STAT_LOST (bankOf ch) && m.phase ch == phOff &&
  decide ((m.drv ch).offSince + msTb ≤ m.tb) && m.clockOk (clusterOf ch) && (m.drv ch).nodeTb.isNone

/-- A node test starts, at its period or for the request that waits. -/
def Chip.nodeStart (m : Chip) (ch : Nat) : Chip :=
  let d := m.drv ch
  let per := m.rdB DG_CFG_OFF_EN ch && m.tb % (max 1 (m.rd DG_CFG_OFF_PER ch) * msTb) == 0
  if m.nodeReady ch && (d.nodeReq || per) then m.setDrv ch { d with nodeTb := some m.tb, nodeReq := false } else m

/-- The result of a node voltage: 1 high, 2 mid, 3 low. -/
def nodeResult (vout vbk : Int) : Nat := if vbk - 3000 ≤ vout then 1 else if 1500 ≤ vout then 2 else 3

/-- What a result clears (R235): OPEN, and SHORT_GND. -/
def Chip.clearsOpen (m : Chip) (ch prev r : Nat) : Bool := m.cond ch 0 && prev != 0 && prev != 2 && r != 2
def Chip.clearsGround (m : Chip) (ch prev r : Nat) : Bool := m.cond ch 1 && prev != 0 && prev != 3 && r != 3
def Chip.nodeClear (m : Chip) (ch prev r : Nat) : Chip :=
  let o := m.clearsOpen ch prev r
  let g := m.clearsGround ch prev r
  let m := if o then m.setCond ch 0 false else m
  if g then m.setCond ch 1 false else m

/-- The retry once COND is clear of OPEN and SHORT_GND, with no SHORT_BAT (R243). -/
def Chip.nodeRetry (m : Chip) (ch : Nat) : Chip :=
  if m.dgSafe ch && m.rdB DG_CFG_RETRY ch && !m.cond ch 0 && !m.cond ch 1 && !m.cond ch 2 && !(m.drv ch).sbHold then m.leaveSafe ch else m

/-- What a result confirms (R235); it settles a NO_RISE alone (R239). -/
def Chip.nodeConfirm (m : Chip) (ch prev r : Nat) : Chip :=
  let settle := m.cond ch 3
  let m := m.setCond ch 3 false
  if r = 1 then if m.rd DG_STAT_STATE ch = 1 then m.wr DG_STAT_STATE ch 0 else m
  else if r = 2 then if settle || prev == 2 then m.openFound ch else m
  else if settle || prev == 3 then m.groundFound ch
  else m

/-- The end of a node test's dwell. -/
def Chip.nodeEnd (m : Chip) (ch : Nat) (vout vbk : Int) : Chip :=
  let d := m.drv ch
  match d.nodeTb with
  | none => m
  | some t =>
    if m.tb < t + 200 * usTb then m
    else
      let r := nodeResult vout vbk
      let m := (m.setDrv ch { d with nodeTb := none, nodePrev := r }).wr DG_STAT_OFF_RES ch r
      let cleared := m.clearsOpen ch d.nodePrev r || m.clearsGround ch d.nodePrev r
      let m := (m.nodeClear ch d.nodePrev r).nodeConfirm ch d.nodePrev r
      if cleared then m.nodeRetry ch else m

/-! ## Supply test (R234, R235) -/

/-- The bank and channel conditions of a supply test. -/
def Chip.supReady (m : Chip) (b : Nat) : Bool :=
  !m.rdB BK_CTL_EN b && (bankChs b).all (fun c => m.phase c == phOff) && (m.bank b).supTb.isNone && m.clockOk (b / 2)

/-- A supply test starts, at its period or for the request that waits. -/
def Chip.supStart (m : Chip) (b : Nat) : Chip :=
  let per := m.rdB DGB_CFG_SB_EN b && m.tb % (max 1 (m.rd DGB_CFG_PER b) * (10 * msTb)) == 0
  if m.supReady b && ((m.bank b).supReq || per) then (m.setBank b { m.bank b with supTb := some m.tb, supReq := false }).wr DGB_STAT_BUSY b 1 else m

/-- A channel's result of a supply test. -/
def Chip.supChannel (m : Chip) (ch : Nat) (r : Bool) : Chip :=
  let d := m.drv ch
  let m := m.setDrv ch { d with supPrev := some r }
  if r && d.supPrev == some true then m.supplyFoundOff ch
  else if !r && d.supPrev == some false && d.sbSup then
    (m.setDrv ch { m.drv ch with sbSup := false }).setCond ch 2 d.sbOn
  else m

/-- A supply test ends with results, one bit for each channel of the bank. -/
def Chip.supEnd (m : Chip) (b bits : Nat) : Chip :=
  match (m.bank b).supTb with
  | none => m
  | some t =>
    if m.tb < t + 100 * usTb then m
    else
      let m := (((m.setBank b { m.bank b with supTb := none }).wr DGB_STAT_BUSY b 0).wr DGB_STAT_NODE_HI b 0).wr DGB_STAT_SB_CH b bits
      let m := (List.range 8).foldl (fun m k => m.supChannel (8 * b + k) (bitAt bits k)) m
      m.dgbFlag b DGB_FLAGS_TEST_DONE

/-- The bank node still stands 5 ms after the start. -/
def Chip.supNodeHi (m : Chip) (b : Nat) : Chip :=
  match (m.bank b).supTb with
  | none => m
  | some t =>
    if m.tb < t + 5 * msTb then m
    else ((((m.setBank b { m.bank b with supTb := none }).wr DGB_STAT_BUSY b 0).wr DGB_STAT_NODE_HI b 1)).dgbFlag b DGB_FLAGS_NODE_HI

/-! ## On-state signatures (R237-R239) -/

/-- The test of a signature applies: an actuation from OFF whose low-side switch first turned on at the TB given. -/
def Chip.onTest (m : Chip) (ch : Nat) : Option Nat :=
  let d := m.drv ch
  if m.rdB DG_CFG_ON_EN ch && m.acting ch && d.fromOff then d.onTb else none

def Chip.tripShort (m : Chip) (ch ma : Nat) : Chip := if 6000 ≤ ma then m.supplyFoundOn ch else m

def Chip.tooFastAt (m : Chip) (ch code : Nat) : Chip :=
  match m.onTest ch with
  | none => m
  | some t =>
    if m.rd DG_ON0_I_FAST ch ≤ code ∧ m.tb ≤ t + max 1 (m.rd DG_ON0_T_FAST ch) * usTb then
      (m.wr CH_DRV_I_NOW ch code).supplyFoundOn ch
    else m

def Chip.noRiseAt (m : Chip) (ch code : Nat) : Chip :=
  match m.onTest ch with
  | none => m
  | some t =>
    let d := m.drv ch
    let ph := m.phase ch
    if d.plain || d.noRiseDone || decide (m.tb < t + max 1 (m.rd DG_ON1_T_NORISE ch) * usTb) || (ph != phBoost && ph != phPeak && ph != phHold) then m
    else
      let m := (m.wr CH_DRV_I_NOW ch code).setDrv ch { d with noRiseDone := true }
      if code < m.rd DG_ON1_I_NORISE ch then
        let m := (m.setDrv ch { m.drv ch with noRise := true }).detect ch 3
        if m.rd DG_STAT_STATE ch = 0 then m.wr DG_STAT_STATE ch 1 else m
      else m

def Chip.heldLow (m : Chip) (ch : Nat) (vout : Int) : Chip :=
  let d := m.drv ch
  match d.offTb with
  | none => m
  | some t =>
    if m.tb < t + 20 * usTb ∨ m.acting ch then m
    else
      let m := m.setDrv ch { d with offTb := none }
      if m.rdB DG_CFG_ON_EN ch && d.fromOff && decide (m.rd DG_ON1_I_NORISE ch ≤ d.offCode) && decide (vout < 1500) then m.groundFound ch else m

/-! ## Clear, notch (R243, R245-R248) -/

/-- A write of DG_CMD.CLR. -/
def Chip.diagClr (m : Chip) (ch : Nat) : Chip :=
  let d := m.drv ch
  let now := match d.det with
    | some (t, _) => t == m.tb
    | none => false
  if now then m.dgFlag ch DG_FLAGS_CLR_REF
  else if !m.dgSafe ch then m
  else if m.cond ch 0 || m.cond ch 1 || d.sbSup then m.dgFlag ch DG_FLAGS_CLR_REF
  else ((m.setDrv ch { d with sbOn := false }).setCond ch 2 false).leaveSafe ch

/-- A measurement moves t_meas (R140). -/
def Chip.measure (m : Chip) (ch mt : Nat) : Chip :=
  let x := m.chan ch
  let d : Int := (mt : Int) - x.tMeas
  let t := (x.tMeas : Int) + d / ((2 ^ m.rd CH_ADV_SHIFT ch : Nat) : Int)
  let lo : Int := (m.rd CH_ADV_LIM_MIN ch * usTb : Nat)
  let hi : Int := (m.rd CH_ADV_LIM_MAX ch * usTb : Nat)
  if hi < lo then
    let (f, m) := m.free
    m.setChan ch { x with tMeas := f.toNat % 2 ^ 24 }
  else
    let m := m.setChan ch { x with tMeas := (clampI lo hi t).toNat }
    if t < lo ∨ hi < t then m.chFlag ch CH_FLAGS_ADV_CLAMP else m

/-! ### The notch detector (R246) -/

/-- The search so far: the running maximum of the slope since T_MIN, the least slope after the dip with its TB and the span that it is timed
back by, and the notch TB. Slopes are in mA per TB with 32 fraction bits. -/
structure NotchScan where
  top : Option Int := none
  least : Option (Int × Nat × Nat) := none
  found : Option Nat := none
deriving DecidableEq, Repr

/-- One slope: its TB, its value, and the span that its TB is corrected by. -/
def NotchScan.step (drop : Nat) (s : NotchScan) (x : Nat × Int × Nat) : NotchScan :=
  if s.found.isSome then s
  else
    let top := maxI (s.top.getD x.2.1) x.2.1
    match s.least with
    | none => { s with top := some top, least := if x.2.1 * 100 < (100 - (drop : Int)) * top then some (x.2.1, x.1, x.2.2) else none }
    | some (l, t, k) =>
      if x.2.1 < l then { s with top := some top, least := some (x.2.1, x.1, x.2.2) }
      else if (drop : Int) * top < (x.2.1 - l) * 200 then { s with top := some top, found := some (t - k) }
      else { s with top := some top }

/-- A sample may be used: the low-side switch conducts without interruption from its turn-on in BOOST or its first in PEAK, outside blanking. -/
def OnSeg.samples (blank : Nat) (s : OnSeg) (t : Nat) : Bool :=
  s.first && decide (s.start + blank ≤ t) && s.stop.all fun u => decide (t ≤ u)

/-- Slopes over 8 us of the samples, pairs of TB and mA, from TB lo on. -/
def sampleSlopes (ons : List OnSeg) (blank lo : Nat) (xs : List (Nat × Nat)) : List (Nat × Int × Nat) :=
  xs.filterMap fun (t, i) =>
    match xs.find? fun y => y.1 + 8 * usTb == t with
    | none => none
    | some (u, j) =>
      if lo ≤ u ∧ ons.any (fun s => s.samples blank u && s.samples blank t) then some (t, ((i : Int) - j) * 4294967296 / (8 * usTb : Nat), 4 * usTb)
      else none

/-- Slopes of the on-segments of window regulation, timed at their middle; a code is 4 mA. -/
def segmentSlopes (ons : List OnSeg) (lo : Nat) : List (Nat × Int × Nat) :=
  ons.filterMap fun s =>
    match s.stop with
    | none => none
    | some u =>
      let t := (s.start + u) / 2
      if s.first ∨ t < lo ∨ u ≤ s.start then none else some (t, (4 * s.rise : Nat) * 4294967296 / ((u : Int) - s.start), 0)

/-- The notch TB that the samples of the current and the on-segments so far show. -/
def Chip.notchIn (m : Chip) (ch : Nat) (xs : List (Nat × Nat)) : Option Nat :=
  let d := m.drv ch
  let lo := d.fireTb + d.nMin * 2000
  let hi := min m.tb (d.fireTb + d.nMax * 2000)
  let ss := (sampleSlopes d.ons (max 1 d.blank * 50) lo xs ++ segmentSlopes d.ons lo).filter fun x => decide (x.1 ≤ hi)
  ((sortBy (fun x y => decide (x.1 ≤ y.1)) ss).foldl (NotchScan.step d.nDrop) {}).found

/-- A notch at TB t (R247): the registers, the measurement, the stroke, the recorded waveform, and PEAK's end. -/
def Chip.notchAt (m : Chip) (ch t : Nat) : Chip :=
  let d := m.drv ch
  let mt := t - d.fireTb
  let meas := d.fromOff && !d.denied
  let was := if d.notchAt = some m.tb then d.notchWas else (m.rd DG_NOTCH_T_M ch, m.rdB DG_NOTCH_T_MEAS ch, d.notchTb)
  let m := ((m.wr DG_NOTCH_T_M ch mt).wrB DG_NOTCH_T_MEAS ch meas).wrTb DG_NOTCH_TB_LO DG_NOTCH_TB_HI ch t
  let m := m.setDrv ch { d with
    notch := false, notchTb := t, notchAt := some m.tb, notchWas := was
    wearIn := if meas then d.wearIn ++ [mt - d.waited * usTb] else d.wearIn }
  let m := if meas then m.measure ch mt else m
  let m := ((m.strokeBegin ch t).laneNotch ch t).dgFlag ch DG_FLAGS_NOTCH
  if d.pkNotch ∧ m.phase ch = phPeak then m.toHold ch else m

/-- The detector finds a notch in the current of a shaped actuation between T_MIN and T_MAX. -/
def Chip.notchSeek (m : Chip) (ch : Nat) (xs : List (Nat × Nat)) : Chip :=
  let d := m.drv ch
  if d.notch && m.acting ch && decide (m.tb ≤ d.fireTb + d.nMax * 2000) then
    match m.notchIn ch xs with
    | some t => m.notchAt ch t
    | none => m
  else m

/-- T_MAX passes with no notch. -/
def Chip.notchEnd (m : Chip) (ch : Nat) : Chip :=
  let d := m.drv ch
  if d.notch ∧ d.fireTb + d.nMax * 2000 ≤ m.tb then m.noNotch ch else m

/-- A read of DG_NOTCH_T loads the notch TB of the same notch; in the cycle of a notch both take the earlier one (R248). -/
def Chip.dgNotchRead (m : Chip) (ch : Nat) : Chip :=
  let d := m.drv ch
  if d.notchAt = some m.tb then
    let m := m.wrTb DG_NOTCH_TB_LO DG_NOTCH_TB_HI ch d.notchWas.2.2
    { m with rdata := d.notchWas.1 + b2n d.notchWas.2.1 * 2 ^ 24 }
  else
    let m := m.wrTb DG_NOTCH_TB_LO DG_NOTCH_TB_HI ch d.notchTb
    { m with rdata := m.word [DG_NOTCH_T_M, DG_NOTCH_T_MEAS] ch }

end Sys2Proof.Machine
end

