-- ==== Sys2Proof/Machine/Diag.lean ====
section
/-! DEFINITION. The commands of actuator diagnosis, the notch detector and waveform capture (07 R233-R253). -/

namespace Sys2Proof.Machine

def execNodeTestStart (ch : Ch) (s : State) : Host.Outcome State Fault Refusal := s.upd (·.nodeStart ch.val)

/-- A write of DG_CMD.TEST: the request waits for its test. -/
def execNodeTestRequest (who : Writer) (ch : Ch) (s : State) : Host.Outcome State Fault Refusal :=
  s.upd fun m => if m.isOwner who (m.chOwner ch.val) && m.runs (clusterOf ch.val) then m.setDrv ch.val { m.drv ch.val with nodeReq := true } else m

def execNodeTestResult (ch : Ch) (voutMv vbkMv : Int) (s : State) : Host.Outcome State Fault Refusal :=
  s.upd (·.nodeEnd ch.val voutMv vbkMv)

def execSupplyTestStart (b : Bank) (s : State) : Host.Outcome State Fault Refusal := s.upd (·.supStart b.val)

/-- A write of DGB_CMD.TEST. -/
def execSupplyTestRequest (who : Writer) (b : Bank) (s : State) : Host.Outcome State Fault Refusal :=
  s.upd fun m => if m.driveOk who then m.setBank b.val { m.bank b.val with supReq := true } else m

def execSupplyTestResult (b : Bank) (above : BitVec 8) (s : State) : Host.Outcome State Fault Refusal :=
  s.upd (·.supEnd b.val above.toNat)

def execSupplyTestNodeHi (b : Bank) (s : State) : Host.Outcome State Fault Refusal := s.upd (·.supNodeHi b.val)

def execShortCircuitTrip (ch : Ch) (ma : Nat) (s : State) : Host.Outcome State Fault Refusal := s.upd (·.tripShort ch.val ma)

def execTooFast (ch : Ch) (code : Nat) (s : State) : Host.Outcome State Fault Refusal := s.upd (·.tooFastAt ch.val code)

def execNoRise (ch : Ch) (code : Nat) (s : State) : Host.Outcome State Fault Refusal := s.upd (·.noRiseAt ch.val code)

def execHeldLowAtTurnOff (ch : Ch) (voutMv : Int) (s : State) : Host.Outcome State Fault Refusal := s.upd (·.heldLow ch.val voutMv)

def execDiagClear (who : Writer) (ch : Ch) (s : State) : Host.Outcome State Fault Refusal :=
  s.upd fun m => if m.isOwner who (m.chOwner ch.val) && m.runs (clusterOf ch.val) then m.diagClr ch.val else m

def execNotchFound (ch : Ch) (samples : List (Nat × Nat)) (s : State) : Host.Outcome State Fault Refusal := s.upd (·.notchSeek ch.val samples)

def execNotchTimeout (ch : Ch) (s : State) : Host.Outcome State Fault Refusal := s.upd (·.notchEnd ch.val)

def execDgNotchRead (ch : Ch) (s : State) : Host.Outcome State Fault Refusal := s.upd (·.dgNotchRead ch.val)

def execCaptureLaneDone (c : Cap) (lane : Fin 4) (samples : List (BitVec 12)) (s : State) : Host.Outcome State Fault Refusal :=
  s.upd (·.laneDone c.val lane.val samples)

def execCaptureRelease (who : Writer) (c : Cap) (lanes : BitVec 4) (s : State) : Host.Outcome State Fault Refusal :=
  s.upd fun m => if m.driveOk who then m.capCmd c.val none lanes.toNat else m

def execCaptureRequest (who : Writer) (c : Cap) (idx : Fin 24) (s : State) : Host.Outcome State Fault Refusal :=
  s.upd fun m => if m.driveOk who then m.capCmd c.val (some idx.val) 0 else m

def execCaptureArmTimeout (c : Cap) (lane : Fin 4) (s : State) : Host.Outcome State Fault Refusal := s.upd (·.laneSkip c.val lane.val)

end Sys2Proof.Machine
end

