-- ==== Sys2Proof/Machine/JournalOps.lean ====
section
/-! DEFINITION. Operations of the journal writer: commits of phases and resolutions, notices, the restart (10 R357-R379, 09 R350). -/

namespace Sys2Proof.Machine

/-- The record of a JSN. -/
def Chip.rec? (m : Chip) (j : Nat) : Option Rec := m.jour.recs.find? (·.jsn == j)

/-- A record replaced. -/
def Chip.setRec (m : Chip) (r : Rec) : Chip :=
  { m with jour := { m.jour with recs := m.jour.recs.map fun x => if x.jsn = r.jsn then r else x } }

/-- Keys of the accumulators of a port beside those of the sources (R398). -/
def accHallmark : Nat := 512
def accPort : Nat := 513
def accMbox : Nat := 520

/-- The commit of a hallmark is noted to its owner (R350, R373). -/
def Chip.noteHallmark (m : Chip) (owner jsn : Nat) : Chip :=
  if owner = 0 then m.occur 324
  else if owner = 1 ∨ owner = 2 then m.collect (owner - 1) accHallmark (m.tbOf islMgmt) jsn
  else m

/-- The newest hallmark of an owner (R342). -/
def Chip.jourNewest (m : Chip) (owner jsn : Nat) : Chip :=
  { m with jour := { m.jour with newest := tabPut m.jour.newest owner (max (tabGet m.jour.newest owner 0) jsn) } }

/-- A resolution commits; the first one stands (R369). -/
def Chip.jourResolve (m : Chip) (jsn out cause : Nat) (stand : Bool) (tb : Nat) (lat : Int) : Chip :=
  match m.rec? jsn with
  | none => m
  | some r =>
    if r.phase = 3 then m
    else (m.setRec { r with phase := 3, outcome := out, cause := cause, stand := stand, tb := tb, lat := clampI (-8388608) 8388607 lat }).jourNewest r.owner jsn |>.noteHallmark r.owner jsn

/-- The journal writer commits the word it received first; the phase never goes back (R364). -/
def Chip.jourWord (m : Chip) : Chip :=
  match m.jour.words with
  | [] => m
  | w :: r =>
    let m := { m with jour := { m.jour with words := r } }
    if w.phase = 3 then m.jourResolve w.jsn w.outcome w.cause w.stand w.tb w.lat
    else match m.rec? w.jsn with
      | none => m
      | some x => if x.phase < w.phase ∧ w.phase < 3 then m.setRec { x with phase := w.phase, tb := if w.phase = 2 then w.tb else x.tb } else m

/-- Every word is delivered and committed (R378). -/
def Chip.jourDrain (m : Chip) (fuel : Nat) : Chip :=
  match fuel with
  | 0 => m
  | k + 1 => if m.jour.words = [] then m else m.jourWord.jourDrain k

/-- Every word on the way. -/
def Chip.drain (m : Chip) : Chip := m.jourDrain m.jour.words.length

/-- The outcome of an unresolved record at a restart after a module reset (R376); INHIBIT is 0x0303, diagnostics are of class 0x08. -/
def restartOutcome (r : Rec) : Nat := if r.opcode / 256 = 8 then 6 else if r.opcode = 0x0303 then 3 else if r.phase = 2 then 6 else 3

/-- R376: every record that is not resolved is resolved, and the staging area is cleared. -/
def Chip.jourRestart (m : Chip) : Chip :=
  let t := m.jour.marker.getD m.jour.heartbeat
  let recs := m.jour.recs.map fun r =>
    if r.phase = 3 then r else { r with phase := 3, outcome := restartOutcome r, cause := 11, restart := true, tb := t, lat := 0 }
  let c := m.jour.recs.any fun r => r.phase != 3 && r.owner == 0
  let m := recs.foldl (fun m r => m.jourNewest r.owner r.jsn) { m with jour := { m.jour with recs := recs, staged := [], words := [], marker := none } }
  if c then m.occur 324 else m

/-- The notice of R373 for a port whose owner holds a resolved, uncollected hallmark. -/
def Chip.jourNotice (m : Chip) (p : Nat) : Chip :=
  match (m.jour.recs.filter fun r => r.phase == 3 && r.owner == p + 1).getLast? with
  | none => m
  | some r => m.collect p accHallmark (m.tbOf islMgmt) r.jsn

/-! ## Port changes and mailbox changes (R350) -/

/-- A port change is noted in its port's queue with the flag bit that sets. -/
def Chip.portChange (m : Chip) (p bit : Nat) : Chip :=
  let a := m.accum p accPort
  let old := if a.cnt = 0 then 0 else a.data
  (m.collect p accPort (m.tbOf islMgmt) (setBit old bit)).hpFlag p bit

/-- Gelow stops taking doors. -/
def Chip.gelowDown (m : Chip) : Chip :=
  if m.gelow.up then
    let m := { m with gelow := { m.gelow with up := false } }
    [0, 1].foldl (fun m p => (m.wr HP_STAT_GELOW_UP p 0).portChange p HP_FLAGS_GELOW_DOWN) m
  else m

/-- Gelow takes doors. -/
def Chip.gelowUp (m : Chip) : Chip :=
  if m.gelow.up then m
  else
    let m := { m with gelow := { m.gelow with up := true } }
    let m := [0, 1].foldl (fun m p => (m.wr HP_STAT_GELOW_UP p 1).portChange p HP_FLAGS_GELOW_UP_IN) m
    let m := if m.gelow.noticeA then m.jourNotice 0 else m
    let m := if m.gelow.noticeB then m.jourNotice 1 else m
    { m with gelow := { m.gelow with noticeA := false, noticeB := false } }

/-- The host port of a mailbox, where it has one. -/
def mbPort (x : Nat) : Option Nat := if x < 8 then some 0 else if x < 16 then some 1 else none

/-- The owner number of a mailbox's writer. -/
def mbOwner (x : Nat) : Nat := if x < 8 then 1 else if x < 16 then 2 else 0

/-- A mailbox takes a state and reason; a change of STATE is noted where NOTIFY asks. -/
def Chip.mbState (m : Chip) (x st reason : Nat) : Chip :=
  let was := m.rd MB_STATUS_STATE x
  let m := (m.wr MB_STATUS_STATE x st).wr MB_STATUS_REASON x reason
  match mbPort x with
  | none => m
  | some p =>
    if was ≠ st ∧ m.rdB HP_CFG_NOTIFY p then
      m.collect p (accMbox + x % 8) (m.tbOf islMgmt) (st * 16 + reason + m.rd MB_STATUS_SEQ x * 256 + m.rd MB_STATUS_PROGRESS x * 65536)
    else m

end Sys2Proof.Machine
end

