-- ==== Sys2Proof/Machine/IntrOps.lean ====
section
/-! DEFINITION. Operations of the interrupt controller: selection, entry, return, hold-off and the records of the host queues
(11 R385-R403, 09 R348-R352). What an entry does to mstatus, mepc and the mode is the RISC-V privileged architecture's. -/

namespace Sys2Proof.Machine

/-- The flags register of a source, its enables and their instance (R385). -/
def srcRegs (n : Nat) : Option (Field × Field × Nat) :=
  if n < 192 then some (CH_FLAGS, CH_IE, n)
  else if n < 256 then some (WHL_FLAGS, WHL_IE, n - 192)
  else if n < 280 then some (BK_FLAGS, BK_IE, n - 256)
  else if n = 280 then some (BST_FLAGS, BST_IE, 0)
  else if n < 283 then some (PWR_FLAGS, PWR_IE, n - 281)
  else if n = 283 then some (MDL_FLAGS, MDL_IE, 0)
  else if 288 ≤ n ∧ n < 312 then some (DGB_FLAGS, DGB_IE, n - 288)
  else if 312 ≤ n ∧ n < 320 then some (CAP_FLAGS, CAP_IE, n - 312)
  else if n = 320 then some (MAP_FLAGS, MAP_IE, 0)
  else if n = 321 then some (NC_FLAGS, NC_IE, 0)
  else if 322 ≤ n ∧ n < 324 then some (HP_FLAGS, HP_IE, n - 322)
  else if 325 ≤ n ∧ n < 330 then some (SYS_FLT_FLAGS, SYS_FLT_IE, 0)
  else if n = 330 then some (SUPM_FLAGS, SUPM_IE, 0)
  else if n = 331 then some (SUP_FLAGS, SUP_IE, 0)
  else if 336 ≤ n ∧ n < 352 then some (TIM_FLAGS, TIM_IE, n - 336)
  else if 352 ≤ n ∧ n < 384 then some (FE_FLAGS, FE_IE, n - 352)
  else if 384 ≤ n ∧ n < 400 then some (CMP_FLAGS, CMP_IE, n - 384)
  else if 400 ≤ n ∧ n < 404 then some (ADC_FLAGS, ADC_IE, n - 400)
  else if n = 404 then some (AS_FLAGS, AS_IE, 0)
  else if 405 ≤ n ∧ n < 411 then some (SDSG_FLAGS, SDSG_IE, n - 405)
  else none

/-- A source is asserted (R386); sources 325-329 by one bit each (R493). -/
def Chip.asserted (m : Chip) (n : Nat) : Bool :=
  match srcRegs n with
  | none => false
  | some (fl, ie, i) =>
    let x := m.rd fl i &&& m.rd ie i
    if 325 ≤ n ∧ n < 330 then bitAt x (n - 325) else x != 0

/-- A hold-off covers a source for a target (R402); a write of this cycle that adds the target comes after the selection (R397). -/
def Chip.heldOff (m : Chip) (n t : Nat) : Bool :=
  m.rdB INT_GRP_RUN (n / 16) && bitAt (m.rd INT_GRP_HO_TGT (n / 16)) t && !bitAt (tabGet m.cycle.holds (n / 16) 0) t

/-- A source is pending for a target, and may be delivered (R387, R402). A write of the selection cycle that clears its pending state or its
target takes effect after the selection (R397, R407). -/
def Chip.deliverable (m : Chip) (n t : Nat) : Bool :=
  (bitAt (m.rd INT_SRC_PEND n) t || bitAt (tabGet m.cycle.pends n 0) t) && (bitAt (m.rd INT_SRC_TGT n) t || bitAt (tabGet m.cycle.targets n 0) t) &&
    !m.heldOff n t

/-- GEN of a target as a selection sees it (R397, R403). -/
def Chip.genOn (m : Chip) (t : Nat) : Bool := m.rdB INT_TCTL_GEN t || m.cycle.gens.contains t

/-- A selection takes the pending state of a source for a target: what a write of this cycle has cleared, else the bit itself. -/
def Chip.takePend (m : Chip) (n t : Nat) : Chip :=
  let c := tabGet m.cycle.pends n 0
  if bitAt c t then m.setCycle { m.cycle with pends := tabPut m.cycle.pends n (clrBit c t) }
  else m.wr INT_SRC_PEND n (clrBit (m.rd INT_SRC_PEND n) t)

/-- The order of R390: urgency, tie rank, number. -/
def Chip.srcRank (m : Chip) (n : Nat) : Nat := m.rd INT_SRC_URG n * 8192 + m.rd INT_SRC_TIE n * 512 + n

/-- The first of some sources under R390. -/
def Chip.firstSrc (m : Chip) (l : List Nat) : Option Nat :=
  l.foldl (fun b n => match b with
    | none => some n
    | some k => if m.srcRank n < m.srcRank k then some n else some k) none

/-- Sources with pending state for any target. -/
def Chip.pendingSrcs (m : Chip) : List Nat :=
  let l := (tabGet m.regs INT_SRC_PEND.id []).map (·.1)
  l ++ (m.cycle.pends.map (·.1)).filter fun n => !l.contains n

/-- The winner for a target among the sources that a test admits (R390). -/
def Chip.winner (m : Chip) (t : Nat) (p : Nat → Bool) : Option Nat :=
  m.firstSrc (m.pendingSrcs.filter fun n => m.deliverable n t && p n)

/-- A selection starts the hold-off of its group (R402). -/
def Chip.startHold (m : Chip) (n t : Nat) : Chip :=
  let g := n / 16
  if m.rd INT_GRP_HOLD g ≠ 0 ∧ bitAt (m.rd INT_GRP_HO_TGT g) t then
    { m.wr INT_GRP_RUN g 1 with holdEnd := tabPut m.holdEnd g (m.tb + m.rd INT_GRP_HOLD g * usTb) }
  else m

/-- The timer of a group ends. -/
def Chip.holdExpire (m : Chip) (g : Nat) : Chip :=
  if m.rdB INT_GRP_RUN g ∧ tabGet m.holdEnd g 0 ≤ m.tb then m.wr INT_GRP_RUN g 0 else m

/-! ## The Anvil cores -/

/-- A core: 0 Anvil-V, 1 Anvil-C. -/
def Chip.core (m : Chip) (t : Nat) : CoreSt := if t = 0 then m.coreV else m.coreC
def Chip.setCore (m : Chip) (t : Nat) (c : CoreSt) : Chip := if t = 0 then { m with coreV := c } else { m with coreC := c }

/-- A core executes. -/
def Chip.coreRuns (m : Chip) (t : Nat) : Bool :=
  m.runs islMgmt && m.powered && (m.core t).running && !(m.core t).halted

/-- mstatus after a trap or an entry: MPIE takes MIE, MIE clears, MPP takes the mode. -/
def trapStatus (s mode : Nat) : Nat :=
  let s := putBit s 7 (bitAt s 3)
  let s := clrBit s 3
  putBit (putBit s 11 (bitAt mode 0)) 12 (bitAt mode 1)

/-- mstatus after an mret: MIE takes MPIE, MPIE sets, MPP clears. -/
def retStatus (s : Nat) : Nat :=
  let s := putBit s 3 (bitAt s 7)
  clrBit (clrBit (setBit s 7) 11) 12

/-- The mode that an mret returns to. -/
def retMode (s : Nat) : Nat := if bitAt s 11 && bitAt s 12 then 3 else 0

/-- The urgency of a source for the test of R391. -/
def Chip.preUrg (m : Chip) (n t : Nat) : Nat := if m.rdB INT_TCTL_NOPRE t then 0 else m.rd INT_SRC_URG n

/-- A source may be entered against the handlers that are active on a core (R391). -/
def Chip.mayEnter (m : Chip) (n t : Nat) : Bool :=
  (m.core t).frames.all (fun f => decide (m.preUrg n t < m.preUrg f.src t)) && decide ((m.core t).frames.length < 16)

/-- A core accepts entries: GEN of its target and mstatus.MIE (R391). -/
def Chip.accepts (m : Chip) (t : Nat) : Bool := m.coreRuns t && m.genOn t && bitAt (m.core t).mstatus 3

/-- INT_TSTAT of a core follows its frames (R406). -/
def Chip.coreStat (m : Chip) (t : Nat) : Chip :=
  let fs := (m.core t).frames
  let m := m.wr INT_TSTAT_NEST t fs.length
  match fs with
  | [] => ((m.wr INT_TSTAT_ACTIVE t 511).wr INT_TSTAT_RUNURG t 15).wr INT_TSTAT_RUNTIE t 15
  | f :: _ => ((m.wr INT_TSTAT_ACTIVE t f.src).wr INT_TSTAT_RUNURG t (m.rd INT_SRC_URG f.src)).wr INT_TSTAT_RUNTIE t (m.rd INT_SRC_TIE f.src)

/-- A core enters a source with these frames (R392): mcause is its number, the vector mtvec base + 4 × source. -/
def Chip.enter (m : Chip) (t n : Nat) (fs : List Frame) : Chip :=
  let c := m.core t
  let m := m.setCore t { c with
    frames := fs, mcause := n, mepc := c.pc, mstatus := trapStatus c.mstatus c.mode, mode := 3
    pc := (c.mtvec / 4 * 4 + 4 * n) % 2 ^ 32 }
  let m := m.takePend n t
  (m.wr INT_SRC_ACT n (setBit (m.rd INT_SRC_ACT n) t)).coreStat t

/-- The frame that an entry writes. -/
def frameOf (c : CoreSt) (n : Nat) : Frame := ⟨c.gpr ++ [c.mepc, c.mstatus], n⟩

/-- An entry (R391-R393): the selected source, and those that became pending during cycles 0-5, which do not take part in the selection. -/
def Chip.intEntry (m : Chip) (t : Nat) (arrivals : List Nat) : Chip :=
  if !m.accepts t then m
  else match m.winner t (fun n => !arrivals.contains n) with
    | none => m
    | some n =>
      if !m.mayEnter n t then m
      else
        let m := m.startHold n t
        let late := m.firstSrc (arrivals.filter fun k => m.deliverable k t && decide (m.rd INT_SRC_URG k < m.rd INT_SRC_URG n))
        let c := m.core t
        match late with
        | none => m.enter t n (frameOf c n :: c.frames)
        | some k => (m.startHold k t).enter t k (frameOf c k :: c.frames)

/-- A handler completes (R394-R396): a handover on the newest frame, or a return that reloads it. -/
def Chip.intReturn (m : Chip) (t : Nat) : Chip :=
  let c := m.core t
  match c.frames with
  | [] => m
  | f :: r =>
    if !m.coreRuns t then m
    else
      let m := m.wr INT_SRC_ACT f.src (clrBit (m.rd INT_SRC_ACT f.src) t)
      let m := if m.rdB INT_SRC_LVL f.src && m.asserted f.src then m.wr INT_SRC_PEND f.src (setBit (m.rd INT_SRC_PEND f.src) t) else m
      let back := { c with pc := c.mepc, mode := retMode c.mstatus, mstatus := retStatus c.mstatus, frames := r }
      let m := m.setCore t back
      match (if m.accepts t then m.winner t (fun n => m.mayEnter n t) else none) with
      | some n => (m.startHold n t).enter t n ({ f with src := n } :: r)
      | none =>
        (m.setCore t { back with gpr := f.words.take 16, mepc := (f.words.drop 16).headD 0, mstatus := (f.words.drop 17).headD 0 }).coreStat t

/-! ## The host queues -/

/-- The event queue of a port (R40). -/
def queueBase (p : Nat) : Nat := 0x800000 + p * 0x10000

/-- A record written, and TAIL advanced (R348, R349). -/
def Chip.putRecord (m : Chip) (p src kind : Nat) (a : Accum) (data : Nat) : Chip :=
  let t := m.rd HP_Q_TAIL p
  let bytes := leBytes 2 src ++ leBytes 1 (kind + if a.ovf then 128 else 0) ++ leBytes 1 a.cnt ++ leBytes 8 a.tb ++ leBytes 4 data
  (m.store (queueBase p + t % 4096 * 16) bytes).wr HP_Q_TAIL p ((t + 1) % 8192)

/-- An accumulator emptied. -/
def Chip.dropAccum (m : Chip) (p k : Nat) : Chip := { m with accums := tabDrop m.accums (· == p * 1024 + k) }

/-- The first mailbox of a port whose accumulator is not empty. -/
def Chip.mbPending (m : Chip) (p : Nat) : Option Nat := (List.range 8).find? fun k => (m.accum p (accMbox + k)).cnt != 0

/-- The flags register of a source, for a record (R399). -/
def Chip.srcData (m : Chip) (n : Nat) : Nat :=
  match srcRegs n with
  | none => 0
  | some (fl, _, i) => m.rd fl i

/-- The accumulator of a source as a selection finds it: one that a write of this cycle has emptied still stands (R407). -/
def Chip.srcAccum (m : Chip) (p n : Nat) : Accum := (tabFind m.cycle.accums (p * 1024 + n)).getD (m.accum p n)

/-- The accumulator of a source emptied into its record. -/
def Chip.takeAccum (m : Chip) (p n : Nat) : Chip :=
  let k := p * 1024 + n
  if (tabFind m.cycle.accums k).isSome then m.setCycle { m.cycle with accums := tabDrop m.cycle.accums (· == k) } else m.dropAccum p n

/-- A port writes the record of its first accumulator in the order of R399. -/
def Chip.queueWrite (m : Chip) (p : Nat) : Chip :=
  let a := m.accum p accPort
  let h := m.accum p accHallmark
  if a.cnt ≠ 0 then ((m.putRecord p 0 3 a a.data).dropAccum p accPort).stamp .queueRecord p
  else if h.cnt ≠ 0 then ((m.putRecord p (h.data / 2 ^ 32) 1 h (h.data % 2 ^ 32)).dropAccum p accHallmark).stamp .queueRecord p
  else match m.mbPending p with
    | some k =>
      let b := m.accum p (accMbox + k)
      ((m.putRecord p k 2 b b.data).dropAccum p (accMbox + k)).stamp .queueRecord p
    | none =>
      if !m.genOn (p + 2) then m
      else match m.winner (p + 2) (fun n => (m.srcAccum p n).cnt != 0) with
        | none => m
        | some n =>
          let m := m.putRecord p n 0 (m.srcAccum p n) (m.srcData n)
          let m := (m.takeAccum p n).takePend n (p + 2)
          (m.startHold n (p + 2)).stamp .queueRecord p

/-- The level of an interrupt pin: none while the island is in reset (R352, R476). -/
def Chip.irqLevel (m : Chip) (p : Nat) : Option Bool :=
  if (m.island (islHostA + p)).resetEnd.isSome then none
  else some ((m.queueLen p != 0) == m.rdB HP_CFG_IRQ_POL p)

/-- A write of INT_CLRPEND: pending bits cleared, host accumulators emptied (R406); a selection of this cycle still finds them (R407). -/
def Chip.clrPend (m : Chip) (w : Nat) : Chip :=
  let n := wordSlice w 0 9
  let g := wordSlice w 12 4
  let old := m.rd INT_SRC_PEND n
  let was := [0, 1].filterMap fun p => if bitAt g (p + 2) && (m.accum p n).cnt != 0 then some (p * 1024 + n, m.accum p n) else none
  let m := m.setCycle { m.cycle with
    pends := if old &&& g = 0 then m.cycle.pends else tabPut m.cycle.pends n (tabGet m.cycle.pends n 0 ||| (old &&& g))
    accums := was.foldl (fun t (x : Nat × Accum) => if (tabFind t x.1).isSome then t else tabPut t x.1 x.2) m.cycle.accums }
  let m := m.wr INT_SRC_PEND n (old &&& (15 - g))
  [0, 1].foldl (fun m p => if bitAt g (p + 2) then m.dropAccum p n else m) m
where
  /-- k bits of a word from bit b on. -/
  wordSlice (w b k : Nat) : Nat := w / 2 ^ b % 2 ^ k

/-- What a write of INT_SRC, INT_GRP or INT_TCTL takes from a target acts after a selection of this cycle (R397): the machine before it, after it. -/
def Chip.lateWrite (m m' : Chip) (b i : Nat) : Chip :=
  if b = INT_SRC_URG.addr then
    let gone := m.rd INT_SRC_TGT i &&& (15 - m'.rd INT_SRC_TGT i)
    if gone = 0 then m' else m'.setCycle { m'.cycle with targets := tabPut m'.cycle.targets i (tabGet m'.cycle.targets i 0 ||| gone) }
  else if b = INT_GRP_HOLD.addr then
    let new := m'.rd INT_GRP_HO_TGT i &&& (15 - m.rd INT_GRP_HO_TGT i)
    if new = 0 then m' else m'.setCycle { m'.cycle with holds := tabPut m'.cycle.holds i (tabGet m'.cycle.holds i 0 ||| new) }
  else if b = INT_TCTL_GEN.addr ∧ m.rdB INT_TCTL_GEN i ∧ !m'.rdB INT_TCTL_GEN i then m'.setCycle { m'.cycle with gens := i :: m'.cycle.gens }
  else m'

end Sys2Proof.Machine
end

