-- ==== Sys2Proof/Machine/ResetOps.lean ====
section
/-! DEFINITION. Resets: of an island, of the module, of the Anvil cores, and the loss of power (14 R473-R479, 10 R375-R378, 15 R505-R508). -/

namespace Sys2Proof.Machine

/-- A module reset, and an island reset, in TB (R473). -/
def moduleResetTb : Nat := 200 * usTb
def islandResetTb : Nat := 10 * usTb

/-- RST_CAUSE bits (R495). -/
def causeBit : ResetCause → Nat
  | .pin => 1
  | .command => 2
  | .supply => 3
  | .fabric => 4
  | .vrestart => 5
  | .mgmt => 6

/-- The resets of the module that are ordered (R378). -/
def causeOrdered : ResetCause → Bool
  | .fabric => false
  | .vrestart => false
  | _ => true

/-- Every island in reset until a TB. -/
def heldIslands (t : Nat) : Tab Island := (List.range 18).map fun i => (i, { resetEnd := some t })

/-- The fields that no module reset reaches: the fuses, RST_CAUSE and SYS_VRST_CNT (R473). -/
def keptFields : List Field := [KEY_HASH, KEY_STAT_PROG, KEY_STAT_REV, KEY_STAT_LIFE, RST_CAUSE, SYS_VRST_CNT]

/-- The rows of the register file of some fields. -/
def keepRows (fs : List Field) (r : Tab (Tab Nat)) : Tab (Tab Nat) := r.filter fun p => fs.any fun f => f.id == p.1

/-- A target as it stands before a mount. -/
def unmounted (t : NTarget) : NTarget := { t with ok := false, queue := [] }

/-- What outlives every reset: the Crucible, the medium and the fuses. The patrol round and the queues of the manager do not. -/
def Chip.durable (m : Chip) (fs : List Field) : Chip :=
  { Chip.fresh with
    regs := keepRows fs m.regs
    frees := m.frees
    jour := { m.jour with words := [], again := true, marker := some (m.jour.marker.getD m.jour.heartbeat) }
    nand := { m.nand with t0 := unmounted m.nand.t0, t1 := unmounted m.nand.t1, roundMax := 0, logFail := false } }

/-- A module reset (R473, R478). -/
def Chip.moduleReset (m : Chip) (c : ResetCause) : Chip :=
  let m := if causeOrdered c then m.drain else m
  let n := m.durable keptFields
  let n := { n with isl := heldIslands moduleResetTb, sys := { vio33 := m.sys.vio33, disc := m.sys.disc, holdTb := moduleResetTb } }
  n.wr RST_CAUSE 0 (setBit (m.rd RST_CAUSE) (causeBit c))

/-- A power-up (R473, R478, R505). -/
def Chip.powerUp (m : Chip) (vio33 : Bool) : Chip :=
  let n := m.durable [KEY_HASH, KEY_STAT_PROG, KEY_STAT_REV, KEY_STAT_LIFE]
  { n with isl := heldIslands moduleResetTb, sys := { vio33 := vio33, holdTb := moduleResetTb } }

/-- No power: held as at power-up until the rails return (R508). -/
def Chip.powerOff (m : Chip) : Chip :=
  let n := m.durable [KEY_HASH, KEY_STAT_PROG, KEY_STAT_REV, KEY_STAT_LIFE]
  { n with isl := heldIslands (2 ^ 64), coreV := {}, sys := { off := true } }

/-! ## Islands (R474) -/

/-- Outputs of a cluster off for an ordered reset: each channel by its own turn-off decay (R378), every outcome by R375. -/
def Chip.clusterQuiet (m : Chip) (c : Nat) : Chip :=
  let m := (m.clusterOrder c).foldl (fun m ch => m.chanSafe ch (!(m.drv ch).offSlow)) m
  (clusterChs c).foldl (fun m ch => if m.rdB LAT_CFG_EN ch then m.pwmStop ch else m) m

/-- The fields of a channel block that a cluster holds: all but CH_POOL (R169). -/
def clusterFields : List Field := fieldsCH.filter fun f => f.id != CH_POOL_FREE.id && f.id != CH_POOL_LOW.id

/-- What a channel keeps over the reset of its cluster: how long it has been off, what a recording shows of it, and what Gelow has not taken. -/
def Chip.chanKept (m : Chip) (ch : Nat) : Chan :=
  let d := m.drv ch
  { drv := { offSince := if m.phase ch = phOff then d.offSince else m.tb, capLog := d.capLog, wearIn := d.wearIn } }

/-- The state of a cluster's channels after its reset. -/
def Chip.clusterClear (m : Chip) (c : Nat) : Chip :=
  let m := { m with chans := m.chans.map fun (p : Nat × Chan) => (p.1, if p.1 / 16 = c then m.chanKept p.1 else p.2) }
  let m := (m.resetFields clusterFields fun ch => ch / 16 == c).resetFields fieldsDG fun ch => ch / 16 == c
  let m := (clusterChs c).foldl (fun m ch => (m.wr MAP_CH_STAT_QN ch 0).capNote ch) m
  ((m.bankStat (2 * c)).bankStat (2 * c + 1)).trimStat (c / 6)

def Chip.clusterReset (m : Chip) (c : Nat) : Chip :=
  let m := if m.clockOk c then (m.clusterQuiet c).drain else if m.safe c then m.clusterQuiet c else m.clusterStop c
  let m := m.clusterClear c
  m.setIsland c { m.island c with safeSince := some ((m.island c).safeSince.getD m.tb) }

/-- The observer's registers; not the TB count. -/
def observerFields : List Field :=
  fieldsWHL ++ fieldsMDL ++ fieldsMDL_DF ++ fieldsMDL_SRC ++ fieldsADC ++ fieldsAS ++ fieldsASE ++ fieldsASRES ++ fieldsCMP ++ fieldsSDS ++
    fieldsSDSG ++ fieldsAIN ++ fieldsFE ++ fieldsFEPROG ++ fieldsFIO ++ fieldsFG ++ fieldsFESYNC ++ fieldsTIM

def Chip.observerReset (m : Chip) : Chip :=
  { m with whl := [], mdl := {}, fe := [], tim := [], adc := [], assay := {}, cmp := [], sds := [] }.resetFields observerFields fun _ => true

/-- A cluster at a reset of the axis island. -/
def Chip.axisSafe (m : Chip) (c : Nat) : Chip :=
  let m := m.clusterQuiet c
  if m.safe c then m else m.setIsland c { m.island c with safeSince := some m.tb, byAxis := true }

/-- The axis island's own state after its reset. -/
def Chip.axisClear (m : Chip) : Chip :=
  { m with axes := [], pool := [] }.resetFields (fieldsAX ++ [CH_POOL_FREE, CH_POOL_LOW]) fun _ => true

/-- The axis island: every cluster safe while it lasts, and the pool empty (R375). -/
def Chip.axisReset (m : Chip) : Chip := ((List.range 12).foldl Chip.axisSafe m).drain.axisClear

/-- The map engine's registers but for GATE and OWN_ON. -/
def mapFields : List Field :=
  fieldsMAP ++ (fieldsMAPCH.filter fun f => f.id != MAP_CH_STAT_GATE.id && f.id != MAP_CH_STAT_OWN_ON.id) ++ fieldsRATE ++ fieldsCT ++ fieldsPT

/-- The registers of the map engine that Gelow holds and writes back. -/
def mapHeld : List Field :=
  [MAP_CFG_EN, MAP_CFG_UNK, MAP_CFG_NOFIELD, MAP_CFG_FLUSH_S, MAP_CFG_LOOK, MAP_IE, MAP_DEF_DEF_RATE, MAP_CH_CFG_GATE_EN, MAP_CH_CFG_WB_EN,
    MAP_CH_CFG_PRX_EN, MAP_CH_CFG_OVL_N, MAP_CH_CFG_WSCALE, MAP_CH_CFG_SWATH] ++ fieldsRATE ++ fieldsCT ++ fieldsPT

def Chip.mapReset (m : Chip) : Chip :=
  let held := keepRows mapHeld m.regs
  let m := { m with
    map := { m.map with scans := [], points := [], saved := some (m.map.saved.getD held) }
    chans := m.chans.map fun (p : Nat × Chan) => (p.1, { p.2 with gates := [] }) }
  m.resetFields mapFields fun _ => true

/-- What Gelow wrote back after a reset of the map island. -/
def Chip.mapRestore (m : Chip) : Chip :=
  match m.map.saved with
  | none => m
  | some r => if m.runs islMap then r.foldl (fun m p => { m with regs := tabPut m.regs p.1 p.2 }) { m with map := { m.map with saved := none } } else m

/-- The mailboxes of a port. -/
def portMbs (p : Nat) : List Nat := (List.range 8).map (8 * p + ·)

/-- A host island: port registers, mailboxes, upload buffer, queue pointers, accumulators (R354, R401). -/
def Chip.hostReset (m : Chip) (p : Nat) : Chip :=
  let m := m.resetFields fieldsHP (· == p)
  let m := m.resetFields fieldsMB fun x => x / 8 == p
  let m := (m.clearMem (0x1000 + p * 0x2000) 0x2000).clearMem (0x40000 + p * 0x10000) 0x10000
  let m := { m with
    mbox := tabDrop m.mbox fun x => x / 8 == p
    port := tabDrop m.port (· == p)
    accums := tabDrop m.accums fun k => k / 1024 == p
    gelow := { m.gelow with batch := m.gelow.batch.filter fun x => x / 8 != p } }
  let m := (List.range 512).foldl (fun m n => if bitAt (m.rd INT_SRC_PEND n) (p + 2) then m.wr INT_SRC_PEND n (clrBit (m.rd INT_SRC_PEND n) (p + 2)) else m) m
  m.resetFields [INT_QOVF_CNT, INT_TSTAT_ACTIVE, INT_TSTAT_NEST, INT_TSTAT_RUNURG, INT_TSTAT_RUNTIE, INT_TSTAT_QFULL] (· == p + 2)

/-- Links that end at an island (R494): their FAB_STAT bits clear at its reset. -/
def linkEnds (l : Nat) : List Nat :=
  if l < 12 then [l, islAxis]
  else if l < 24 then [l - 12]
  else if l < 26 then [islObserver, islAxis]
  else if l < 28 then [islAxis, islMgmt]
  else if l < 30 then [islMap, islMgmt]
  else if l < 32 then [islAxis, islMap]
  else if l < 34 then [islObserver, islMgmt]
  else if l < 36 then [islHostA, islMgmt]
  else [islHostB, islMgmt]

def Chip.linkFaulty (m : Chip) (l : Nat) : Bool := if l < 32 then bitAt (m.rd FAB_STAT0) l else bitAt (m.rd FAB_STAT1) (l - 32)

def Chip.setLinkFaulty (m : Chip) (l : Nat) (v : Bool) : Chip :=
  if l < 32 then m.wr FAB_STAT0 0 (putBit (m.rd FAB_STAT0) l v) else m.wr FAB_STAT1 0 (putBit (m.rd FAB_STAT1) (l - 32) v)

/-- What the reset of an island reaches. -/
def Chip.islandReach (m : Chip) (i : Nat) : Chip :=
  if i < 12 then m.clusterReset i
  else if i = islObserver then m.observerReset
  else if i = islAxis then m.axisReset
  else if i = islMap then m.mapReset
  else if i = islHostA then m.hostReset 0
  else m.hostReset 1

/-- An island reset begins (R473, R474); that of the management island is a module reset. -/
def Chip.islandReset (m : Chip) (i : Nat) (auto : Bool) : Chip :=
  if i = islMgmt then m.moduleReset .mgmt
  else
    let m := m.islandReach i
    let m := (List.range 38).foldl (fun m l => if m.linkFaulty l && (linkEnds l).contains i then m.setLinkFaulty l false else m) m
    let x := m.island i
    let x := { x with resetEnd := some (m.tb + islandResetTb) }
    let m := m.setIsland i (if i = islObserver then { x with stoppedAt := none, hung := false } else x)
    (m.wr RST_LAST_ISL 0 i).wrB RST_LAST_AUTO 0 auto

/-- The reset of an island ends (R465-R468, R474, R476). -/
def Chip.islandRelease (m : Chip) (i : Nat) : Chip :=
  let x := m.island i
  match x.resetEnd with
  | none => m
  | some t =>
    if m.tb < t ∨ m.sys.holdTb ≠ 0 then m
    else
      let axisHeld := (m.island islAxis).resetEnd.isSome
      let x := { x with resetEnd := none, switchAt := none, hung := false, stoppedAt := none }
      let x := if i < 12 then (if axisHeld then { x with safeSince := some m.tb, byAxis := true } else { x with safeSince := none, byAxis := false }) else x
      let m := m.setIsland i x
      let m := ((m.wr CLK_SWBUSY 0 (clrBit (m.rd CLK_SWBUSY) i)).wr CLK_STOPPED 0 (clrBit (m.rd CLK_STOPPED) i))
      if i = islAxis then
        (List.range 12).foldl (fun m c =>
          let y := m.island c
          if y.byAxis then m.setIsland c { y with byAxis := false, safeSince := none } else m) m
      else if i = islHostA ∨ i = islHostB then
        let p := i - islHostA
        if m.gelow.up then (m.wr HP_STAT_GELOW_UP p 1).jourNotice p
        else { m with gelow := if p = 0 then { m.gelow with noticeA := true } else { m.gelow with noticeB := true } }
      else m

/-! ## The Anvil cores (R34, R477, R478) -/

/-- A core after its reset; its handlers are no longer active. -/
def Chip.coreReset (m : Chip) (t : Nat) : Chip :=
  let fs := if t = 0 then m.coreV.frames else m.coreC.frames
  let m := fs.foldl (fun m f => m.wr INT_SRC_ACT f.src (clrBit (m.rd INT_SRC_ACT f.src) t)) m
  let m := m.resetFields [INT_TSTAT_ACTIVE, INT_TSTAT_NEST, INT_TSTAT_RUNURG, INT_TSTAT_RUNTIE] (· == t)
  if t = 0 then { m with coreV := {} } else { m with coreC := {} }

/-- An Anvil-V restart: Gelow stops taking doors; the third within 10 s is a module reset (R473). -/
def Chip.vRestart (m : Chip) : Chip :=
  let m := (m.count SYS_VRST_CNT 0).coreReset 0
  let m := m.gelowDown
  let rs := m.tb :: m.sys.vRestarts.filter fun t => decide (m.tb < t + 10000 * msTb)
  if 3 ≤ rs.length then m.moduleReset .vrestart
  else { m with sys := { m.sys with vRestarts := rs, vDown := some m.tb, vReady := false, wdtV := m.tb } }

/-- The tightly coupled memory of Anvil-C (R42). -/
def tcmBase : Nat := 0x20000000
def tcmSize : Nat := 0x80000

/-- An Anvil-C restart begins. -/
def Chip.cRestart (m : Chip) : Chip :=
  let m := (m.coreReset 1).clearMem tcmBase tcmSize
  { m with sys := { m.sys with cDown := some m.tb, cVersion := 0, wdtC := m.tb } }

end Sys2Proof.Machine
end

