-- ==== Sys2Proof/Machine/SysOps.lean ====
section
/-! DEFINITION. Operations of clocks, trim, sleep, images and the boot (14 R462-R486). -/

namespace Sys2Proof.Machine

/-! ## Clock sources and island multiplexers (R462-R469) -/

/-- The select value of an island as written; 0 is PLLA, every other value PLLB (R495). -/
def Chip.sel (m : Chip) (i : Nat) : Nat := if i < 16 then m.rd CLK_SEL0 / 4 ^ i % 4 else m.rd CLK_SEL1 / 4 ^ (i - 16) % 4

/-- The select value set. -/
def Chip.setSel (m : Chip) (i v : Nat) : Chip :=
  if i < 16 then m.wr CLK_SEL0 0 (m.rd CLK_SEL0 - m.sel i * 4 ^ i + v * 4 ^ i)
  else m.wr CLK_SEL1 0 (m.rd CLK_SEL1 - m.sel i * 4 ^ (i - 16) + v * 4 ^ (i - 16))

/-- PLLA gives its clock (R462, R463). -/
def Chip.pllaRuns (m : Chip) : Bool := m.rdB CLK_CFG_PLLA_EN && (m.rdB CLK_STAT_XTAL_OK || m.rdB CLK_STAT_HOLDOVER)

/-- The source of a select value gives its clock; PLLB always does (R462). -/
def Chip.srcRuns (m : Chip) (v : Nat) : Bool := v != 0 || m.pllaRuns

/-- PLLA_LOCK follows PLLA. -/
def Chip.pllaLock (m : Chip) : Chip := m.wrB CLK_STAT_PLLA_LOCK 0 m.pllaRuns

/-- A write of CLK_CFG: PLLA_EN = 0 is ignored while an island selects PLLA (R462). -/
def Chip.clkCfg (m : Chip) (w : Nat) : Chip :=
  let used := (List.range 18).any fun i => m.sel i == 0
  let m := ((m.wrFrom CLK_CFG_XTAL_EN 0 w).wrFrom CLK_CFG_XTAL_EXT 0 w).wrFrom CLK_CFG_HOLD_EN 0 w
  (if used && wordField CLK_CFG_PLLA_EN w == 0 then m else m.wrFrom CLK_CFG_PLLA_EN 0 w).pllaLock

/-- A write that changes an island's select field starts a switch (R465). -/
def Chip.switchStart (m : Chip) (i v : Nat) : Chip :=
  if bitAt (m.rd CLK_SWBUSY) i ∨ m.sel i = v then m
  else
    let x := m.island i
    let m := m.setIsland i { x with switchAt := some (m.tb, m.sel i) }
    (m.setSel i v).wr CLK_SWBUSY 0 (setBit (m.rd CLK_SWBUSY) i)

/-- A write of CLK_SEL0 or CLK_SEL1: every field that it changes. -/
def Chip.selWrite (m : Chip) (first n w : Nat) : Chip :=
  (List.range n).foldl (fun m k => m.switchStart (first + k) (w / 4 ^ k % 4)) m

/-- The multiplexer passes the new clock: the old one gave its low phase, and the new one too (R465, R467). -/
def Chip.switchDone (m : Chip) (i : Nat) : Chip :=
  let x := m.island i
  match x.switchAt with
  | none => m
  | some (_, old) =>
    if x.hung || x.stoppedAt.isSome || x.resetEnd.isSome || !m.srcRuns old || !m.srcRuns (m.sel i) then m
    else (m.setIsland i { x with switchAt := none }).wr CLK_SWBUSY 0 (clrBit (m.rd CLK_SWBUSY) i)

/-- An island's bit in CLK_ISL_FLT, and the CLK fault; a cluster without a clock stands in its safe state (R467, R468). -/
def Chip.islFault (m : Chip) (i : Nat) : Chip :=
  let m := m.setFlag CLK_ISL_FLT 0 i
  let m := if i < 12 then m.clusterStop i else m
  m.sysFlag SYS_FLT_FLAGS_CLK

/-- A switch has not completed 10 µs after it started (R467). The time runs on LPO, so a stopped TB does not hold it. -/
def Chip.switchTimeout (m : Chip) (i : Nat) : Chip :=
  let x := m.island i
  match x.switchAt with
  | none => m
  | some (t, _) =>
    if x.hung || x.resetEnd.isSome then m
    else if t + 10 * usTb ≤ m.tb ∨ !m.clockOk islObserver then (m.setIsland i { x with hung := true }).islFault i
    else m

/-- An island's clock shows no edge for 1 µs (R468). -/
def Chip.clockStop (m : Chip) (i : Nat) : Chip :=
  let x := m.island i
  if x.stoppedAt.isSome || x.resetEnd.isSome || (m.asleep && i != islHostA && i != islHostB) then m
  else ((m.setIsland i { x with stoppedAt := some m.tb }).wr CLK_STOPPED 0 (setBit (m.rd CLK_STOPPED) i)).islFault i

/-- The clock of a stopped island shows an edge again (R468). -/
def Chip.clockReturn (m : Chip) (i : Nat) : Chip :=
  let x := m.island i
  if x.stoppedAt.isNone || x.hung || x.resetEnd.isSome then m
  else (m.setIsland i { x with stoppedAt := none }).wr CLK_STOPPED 0 (clrBit (m.rd CLK_STOPPED) i)

/-- The always-on domain recovers an island itself (R469); the management island whatever its bit holds. -/
def Chip.autoRecover (m : Chip) (i : Nat) : Chip :=
  let x := m.island i
  if x.resetEnd.isSome || !(bitAt (m.rd CLK_AUTO) i || i == islMgmt) then m
  else if x.hung then m.islandReset i true
  else match x.stoppedAt with
    | none => m
    | some t =>
      if t + 2 * usTb ≤ m.tb ∨ !m.clockOk islObserver then (m.setSel i (if m.sel i = 0 then 1 else 0)).islandReset i true
      else m

/-- An evaluation of the XIN count over one LPO period (R463); XIN does not run with XTAL_EN = 0. -/
def Chip.xtalEval (m : Chip) (cycles : Nat) : Chip :=
  let ok := m.rdB CLK_CFG_XTAL_EN && decide (24 ≤ cycles ∧ cycles ≤ 26)
  let was := m.rdB CLK_STAT_XTAL_OK
  let m := m.wrB CLK_STAT_XTAL_OK 0 ok
  let m := if ok && !was then { m with sys := { m.sys with xtalTb := m.tb } } else m
  (if was && !ok && m.rdB CLK_CFG_HOLD_EN then m.wr CLK_STAT_HOLDOVER 0 1 else m).pllaLock

/-- PLLA returns to XIN after XTAL_OK has stood for 100 ms (R463). -/
def Chip.xtalBack (m : Chip) : Chip :=
  if m.rdB CLK_STAT_XTAL_OK ∧ m.rdB CLK_STAT_HOLDOVER ∧ m.sys.xtalTb + 100 * msTb ≤ m.tb then (m.wr CLK_STAT_HOLDOVER 0 0).pllaLock else m

/-! ## Trim (R470, R471) -/

/-- The trim reference; 3 acts as 0. -/
def Chip.trimRef (m : Chip) : Nat := let r := m.rd CLK_TRIM_REF; if r = 3 then 0 else r

/-- One expected interval in TB: a second for PPS, SYNC_IVL ms for sync frames. -/
def Chip.trimIvl (m : Chip) : Nat := if m.trimRef = 1 then 1000 * msTb else (if m.rd CLK_TRIM_SYNC_IVL = 0 then 1 else m.rd CLK_TRIM_SYNC_IVL) * msTb

/-- The expected interval that places Δ within 0.2 %, where there is one. -/
def Chip.trimFit (m : Chip) (d : Nat) : Option Nat :=
  let ks := if m.trimRef = 1 then [1] else [1, 2, 3, 4]
  (ks.map (· * m.trimIvl)).find? fun n => decide (500 * (d - n + (n - d)) ≤ n)

/-- The range of CLK_CORR in ppb (16 Clocks and trim). -/
def corrMax : Int := 20000000

/-- An accepted mark: e, c and the state. -/
def Chip.trimApply (m : Chip) (t d n : Nat) : Chip :=
  let e := roundDiv (((d : Int) - n) * 1000000000) n
  let c := m.rdI CLK_CORR - e / 2 ^ m.rd CLK_TRIM_SHIFT
  let held := decide (c < -corrMax ∨ corrMax < c)
  let near := if absI e < 200 then m.sys.near + 1 else 0
  let st := m.rd CLK_STAT_TRIM
  let st := if held then 1 else if 4 ≤ near then 2 else if st = 2 ∧ absI e < 1000 then 2 else 1
  let m := (m.wrI CLK_TRIM_ERR 0 e).wrI CLK_CORR 0 (clampI (-corrMax) corrMax c)
  { m with sys := { m.sys with mark := some t, markOk := some t, near := near } }.wr CLK_STAT_TRIM 0 st

/-- A mark at a TB: the first one, or one that fits no interval, only starts an interval. -/
def Chip.trimMark (m : Chip) (t : Nat) : Chip :=
  match m.sys.mark.bind fun p => (m.trimFit (t - p)).map fun n => (t - p, n) with
  | none => { m with sys := { m.sys with mark := some t } }
  | some (d, n) => m.trimApply t d n

/-- A write of CLK_TRIM: a reference starts acquiring, none stops; c is kept. -/
def Chip.trimWrite (m : Chip) (w : Nat) : Chip :=
  let old := m.trimRef
  let m := ((m.wrFrom CLK_TRIM_REF 0 w).wrFrom CLK_TRIM_SHIFT 0 w).wrFrom CLK_TRIM_SYNC_IVL 0 w
  if m.trimRef = old then m
  else
    let m := m.wr CLK_STAT_TRIM 0 (if m.trimRef = 0 then 0 else 1)
    { m with sys := { m.sys with mark := none, markOk := some m.tb, near := 0 } }

/-- No mark accepted for 10 expected intervals: holding. -/
def Chip.trimHold (m : Chip) : Chip :=
  if m.trimRef ≠ 0 ∧ m.sys.markOk.getD 0 + 10 * m.trimIvl ≤ m.tb then { m.wr CLK_STAT_TRIM 0 3 with sys := { m.sys with near := 0 } } else m

/-! ## Sleep (R480, R481) -/

/-- No target of the NAND works on a tile: none is being loaded or flushed (R480). -/
def Chip.nandIdle (m : Chip) : Bool :=
  (List.range 24).all (fun k => let s := m.rd MAP_CT_STAT_STATE k; s != 1 && s != 4) && (List.range 64).all fun k => m.rd MAP_PT_STAT_STATE k != 1

/-- The conditions under which the device may sleep (R480). -/
def Chip.mayNap (m : Chip) : Bool :=
  (List.range 24).all (fun b => !m.rdB BK_CTL_EN b) && !m.rdB BST_CTL_EN && m.poolFree == 16384 && !m.rdB MDL_CFG_EN && m.nandIdle &&
    (List.range 20).all fun x => let s := m.rd MB_STATUS_STATE x; s != 1 && s != 2 && s != 3

/-- The device goes to sleep; a wake source that has occurred in this cycle wakes it at once (R480, R481). -/
def Chip.sleep (m : Chip) : Chip :=
  let m := { m.wr INT_WAKE_SRC_VALID 0 0 with asleep := true, sys := { m.sys with wdtV := m.tb - m.sys.wdtV, wdtC := m.tb - m.sys.wdtC } }
  match m.cycle.wakes with
  | [] => m
  | n :: _ => m.wakeBy n

/-- A sleep request is decided at a tick. -/
def Chip.nap (m : Chip) : Chip :=
  if m.sys.sleepReq then
    let ok := m.mayNap
    let m := { m with sys := { m.sys with sleepReq := false } }.wrB SYS_SLEEP_REF 0 (!ok)
    if ok then m.sleep else m
  else m

/-! ## Images (R483) -/

/-- A header word of an image. -/
def imgWord (img : List Byte) (o : Nat) : Nat := leNat ((img.drop o).take 4)

/-- MAGIC and TYPE match. -/
def imgHead (img : List Byte) (ty : Nat) : Bool :=
  img.take 4 == [0x4B, 0x46, 0x49, 0x4D] && (img.drop 4).head? == some (BitVec.ofNat 8 ty)

/-- The Gelow code region in the Anvil view (R40, R42). -/
def gelowLo : Nat := 0x40D40000
def gelowHi : Nat := 0x41000000

/-- The body lies within its region. -/
def imgRegion (img : List Byte) (ty : Nat) : Bool :=
  let len := imgWord img 12
  let at_ := imgWord img 16
  if ty = 2 then decide (tcmBase ≤ at_ ∧ at_ + len ≤ tcmBase + tcmSize)
  else decide (gelowLo ≤ at_ ∧ at_ + len ≤ gelowHi ∧ len ≤ if ty = 0 then 196608 else 2097152)

/-- The hash in a key slot. -/
def Chip.keyHash (m : Chip) (k : Nat) : List Byte := (List.range 8).flatMap fun i => leBytes 4 (m.rd KEY_HASH (8 * k + i))

/-- A key slot is programmed and not revoked. -/
def Chip.keyLive (m : Chip) (k : Nat) : Bool := bitAt (m.rd KEY_STAT_PROG) k && !bitAt (m.rd KEY_STAT_REV) k

/-- The key's hash equals that of a live slot. -/
def Chip.keyKnown (m : Chip) (key : List Byte) : Bool :=
  (List.range 4).any fun k => m.keyLive k && Config.sha256 key == m.keyHash k

/-- The body of an image. -/
def imgBody (img : List Byte) : List Byte := (img.drop 256).take (imgWord img 12)

/-- An image passes. -/
def Chip.imgPass (m : Chip) (img : List Byte) (ty : Nat) : Bool :=
  let key := (img.drop 24).take 64
  imgHead img ty && imgRegion img ty && decide (256 + imgWord img 12 ≤ img.length) && m.keyKnown key &&
    Config.ecdsaVerify key (Config.sha256 (img.take 88 ++ imgBody img)) ((img.drop 88).take 64)

/-- The body of an image stored at its load address. -/
def Chip.imgLoad (m : Chip) (img : List Byte) (ty : Nat) : Chip :=
  if imgRegion img ty then m.store (if ty = 2 then imgWord img 16 else imgWord img 16 - 0x40000000) (imgBody img) else m

/-- A slot's image: 0 and 1 of Gelow, 2 and 3 of Anvil-C. -/
def Chip.image (m : Chip) (k : Nat) : List Byte := tabGet m.nand.images k []

/-- The target that the slot's directory record names has failed (R299). -/
def Chip.imageGone (m : Chip) (k : Nat) : Bool :=
  m.rd NC_STAT_MSTATE != 0 && if m.nand.imgT1.contains k then !m.nand.t1.ok else !m.nand.t0.ok

/-- The target that a slot's directory record names can be read (R482): target 0 and target 1 as told. -/
def Chip.slotReads (m : Chip) (k : Nat) (t0 t1 : Bool) : Bool := if m.nand.imgT1.contains k then t0 && t1 else t0

/-- Gelow loads, checks and starts the Anvil-C image of the active slot; Anvil-C stays halted where it cannot be read or the check fails
(R477). -/
def Chip.startC (m : Chip) (reads : Bool) : Chip :=
  let img := m.image m.nand.activeC
  let m := { m with sys := { m.sys with cDown := none, cAt := none } }
  if reads && m.imgPass img 2 then
    let m := m.imgLoad img 2
    { m with
      coreC := { m.coreC with running := true, mode := 0, pc := imgWord img 20 }
      sys := { m.sys with cVersion := imgWord img 8, wdtC := m.tb } }
  else { m with coreC := { m.coreC with running := false }, sys := { m.sys with cVersion := 0 } }

/-! ## Boot (R482-R485) -/

/-- The first stage runs in machine mode. -/
def Chip.stageOne (m : Chip) (img : List Byte) : Chip :=
  let m := (m.imgLoad img 0).wr BOOT_STAT_STAGE 0 1
  { m with coreV := { m.coreV with running := true, mode := 3, pc := imgWord img 20 } }

/-- Recovery with an error. -/
def Chip.recovery (m : Chip) (err : Nat) : Chip := (m.wr BOOT_STAT_STAGE 0 8).wr BOOT_STAT_ERR 0 err

/-- The boot ROM, from the release of the module reset to the first stage or recovery; each NAND target answers it or is absent. -/
def Chip.rom (m : Chip) (pinLow t0 t1 : Bool) : Chip :=
  if m.rd BOOT_STAT_STAGE ≠ 0 ∨ m.sys.off ∨ m.tb < m.sys.holdTb then m
  else
    let m := { m with
      mem := [], coreV := { m.coreV with running := true, mode := 3 }, sys := { m.sys with holdTb := 0, t0Ready := t0, t1Ready := t1 }
      isl := m.isl.map fun (p : Nat × Island) => (p.1, { p.2 with resetEnd := none }) }
    let m := m.wr CLK_STAT_PLLB_LOCK 0 1
    if pinLow || !m.rdB KEY_STAT_LIFE then m.recovery 0
    else if !t0 then m.recovery 5
    else match m.nand.boot.find? fun b => m.imgPass b 0 with
      | some b => m.stageOne b
      | none => m.recovery 1

/-- The ROM's continue entry: the Gelow image of the active slot, else of the other one, each from its own target where that became ready
within 20 ms; Gelow's first acts. -/
def Chip.gelowStart (m : Chip) : Chip :=
  let t0 := m.sys.t0Ready
  let t1 := m.sys.t1Ready
  let st := m.rd BOOT_STAT_STAGE
  if st ≠ 1 ∧ st ≠ 2 then m
  else if !m.rdB PROT_SEAL_SEAL then (m.wr BOOT_STAT_STAGE 0 9).wr BOOT_STAT_ERR 0 3
  else
    let a := m.nand.activeV
    let pick := [a, 1 - a].find? fun k => m.slotReads k t0 t1 && m.imgPass (m.image k) 1
    match pick with
    | none => (m.wr BOOT_STAT_STAGE 0 9).wr BOOT_STAT_ERR 0 4
    | some k =>
      let m := ((m.imgLoad (m.image k) 1).wr BOOT_STAT_STAGE 0 4).wrB BOOT_STAT_FALLBACK 0 (k != a)
      let m := { m with coreV := { m.coreV with pc := imgWord (m.image k) 20 }, sys := { m.sys with wdtV := m.tb, vVersion := imgWord (m.image k) 8, vEntry := imgWord (m.image k) 20 } }
      let m := (m.jourRestart.startC (m.slotReads m.nand.activeC t0 t1)).gelowUp
      [0, 1].foldl (fun m p => if m.clockOk (islHostA + p) then m.jourNotice p else m) m

/-- A write of BOOT_RCV by a host port: until the seal; in recovery GO runs the image of its upload buffer (R485). -/
def Chip.bootRcv (m : Chip) (p w : Nat) : Chip :=
  if m.rdB PROT_SEAL_SEAL then m
  else
    let m := m.wrFrom BOOT_RCV_LEN 0 w
    let n := m.rd BOOT_RCV_LEN
    if wordField BOOT_RCV_GO w = 0 ∨ m.rd BOOT_STAT_STAGE ≠ 8 then m
    else
      let img := m.load (0x40000 + p * 0x10000) n
      let ok := decide (n ≤ 65536) && (if m.rdB KEY_STAT_LIFE then m.imgPass img 0 else imgHead img 0)
      if ok then m.stageOne img else m.recovery 2

/-! ## Keys and the seal (R484, R486) -/

/-- Anvil-V in machine mode writes the set-up until the seal, and in its cycle (R486). -/
def Chip.setupOk (m : Chip) (who : Writer) : Bool :=
  who == .anvilV && m.coreV.mode == 3 && (!m.rdB PROT_SEAL_SEAL || m.cycle.sealed)

/-- KEY_PROG.GO: a programmed slot only sets PERR. -/
def Chip.keyGo (m : Chip) (k : Nat) : Chip :=
  if m.rdB KEY_STAT_BUSY then m
  else if bitAt (m.rd KEY_STAT_PROG) k then m.wr KEY_STAT_PERR 0 1
  else { m.wr KEY_STAT_BUSY 0 1 with sys := { m.sys with key := some (k, m.tb) } }

/-- KEY_PROG.REVOKE: never of the last slot that is not revoked. -/
def Chip.keyRevoke (m : Chip) (k : Nat) : Chip :=
  if m.keyLive k && (List.range 4).all (fun j => j == k || !m.keyLive j) then m
  else m.wr KEY_STAT_REV 0 (setBit (m.rd KEY_STAT_REV) k)

/-- Programming completes; the device is in production from then on. -/
def Chip.keyDone (m : Chip) : Chip :=
  match m.sys.key with
  | none => m
  | some (k, _) =>
    let m := (List.range 8).foldl (fun m i => m.wr KEY_HASH (8 * k + i) (m.rd KEY_DATA i)) m
    let m := ((m.wr KEY_STAT_PROG 0 (setBit (m.rd KEY_STAT_PROG) k)).wr KEY_STAT_LIFE 0 1).wr KEY_STAT_BUSY 0 0
    { m with sys := { m.sys with key := none } }

/-- A write of KEY_PROG. -/
def Chip.keyProg (m : Chip) (w : Nat) : Chip :=
  let m := ((m.wrFrom KEY_PROG_SLOT 0 w).wrFrom KEY_PROG_GO 0 w).wrFrom KEY_PROG_REVOKE 0 w
  let k := wordField KEY_PROG_SLOT w
  let m := if wordField KEY_PROG_GO w = 1 then m.keyGo k else m
  if wordField KEY_PROG_REVOKE w = 1 then m.keyRevoke k else m

/-- PROT_SEAL.SEAL = 1: the set-up is sealed until the next module reset. -/
def Chip.seal (m : Chip) : Chip :=
  let m := (m.setCycle { m.cycle with sealed := true }).wr PROT_SEAL_SEAL 0 1
  if m.rd BOOT_STAT_STAGE = 1 then m.wr BOOT_STAT_STAGE 0 2 else m

end Sys2Proof.Machine
end

