-- ==== Sys2Proof/Machine/FabricOps.lean ====
section
/-! DEFINITION. Operations of the fabric links, SRAM parity and the protection of the Anvil cores (01 R21-R42, 14 R489, R494, 08 R270).
The trap of an access fault is the RISC-V privileged architecture's. -/

namespace Sys2Proof.Machine

/-! ## Links -/

/-- A received word carries odd parity over its 33 bits. -/
def oddParity (x : BitVec 33) : Bool := ((List.range 33).filter fun i => x.toNat.testBit i).length % 2 == 1

/-- A received word as sent: with its parity bit in bit 32. -/
def withParity (w : Word) : BitVec 33 :=
  let x := BitVec.ofNat 33 w.toNat
  if oddParity x then x else BitVec.ofNat 33 (w.toNat + 2 ^ 32)

/-- The tries of a word: how many were refused, and the word that was accepted. What rx does not list arrives as it was sent. -/
def tryWord (w : Word) (rx : List (BitVec 33)) (left refused : Nat) : Nat × Option Nat :=
  match left with
  | 0 => (refused, none)
  | k + 1 =>
    let x := rx.headD (withParity w)
    if oddParity x then (refused, some (x.toNat % 2 ^ 32)) else tryWord w rx.tail k (refused + 1)

/-- A word delivered on a link. -/
def Chip.linkTake (m : Chip) (l w : Nat) : Chip := { m with link := tabPut m.link l ⟨w, (tabGet m.link l {}).n + 1⟩ }

/-- The twin of a link of a pair. -/
def twin (l : Nat) : Nat := if l % 2 = 0 then l + 1 else l - 1

/-- A link is declared faulty (R25, R27, R494): a cluster enters its safe state; with both of a pair faulty the module resets. -/
def Chip.linkFault (m : Chip) (l w : Nat) : Chip :=
  let m := (m.setLinkFaulty l true).sysFlag SYS_FLT_FLAGS_LINK
  if l < 24 then m.clusterStop (l % 12)
  else if m.linkFaulty (twin l) then m.moduleReset .fabric
  else m.linkTake (twin l) w

/-- A word sent over a link (R23-R29): the twin carries what a faulty link would. -/
def Chip.sendWord (m : Chip) (l : Nat) (w : Word) (rx : List (BitVec 33)) : Chip :=
  if !m.powered ∨ (linkEnds l).any (fun i => !m.runs i) then m
  else
    let k := if 24 ≤ l && m.linkFaulty l then twin l else l
    if m.linkFaulty k then m
    else match tryWord w rx 4 0 with
      | (n, some x) => (m.count FAB_CNT k n).linkTake k x
      | (_, none) => (m.count FAB_CNT k 3).linkFault k w.toNat

/-- A broadcast of TB corrects every replica to within 1 TB (R21). -/
def Chip.broadcast (m : Chip) : Chip :=
  if m.runs islObserver ∧ m.due .broadcast then
    let n := m.frees
    let m := { m with frees := n + 1 }.stamp .broadcast
    (List.range 18).foldl (fun m i =>
      if i ≠ islObserver ∧ m.runs i then m.setIsland i { m.island i with skew := Config.replicaSkew n i } else m) m
  else m

/-! ## SRAM parity (R30-R32, R270) -/

/-- The key of a tile: layer 0 coverage or 1 prescription, TE and TN. -/
def tileKey (layer : Nat) (te tn : Int) : Nat := layer * 2 ^ 32 + ofSigned 16 te * 65536 + ofSigned 16 tn

/-- A cache slot (0-23 coverage, 24-87 prescription): its address, its bytes, its layer. -/
def tileBase (k : Nat) : Nat := if k < 24 then 0x9E0000 + k * 0x19000 else 0x9A0000 + (k - 24) * 0x1000
def tileBytes (k : Nat) : Nat := if k < 24 then 102400 else 4096
def tileLayer (k : Nat) : Nat := if k < 24 then 0 else 1

/-- The registers of a slot: its state, tile, version, and whether its tile is required. -/
def Chip.tileState (m : Chip) (k : Nat) : Nat := if k < 24 then m.rd MAP_CT_STAT_STATE k else m.rd MAP_PT_STAT_STATE (k - 24)
def Chip.tileTe (m : Chip) (k : Nat) : Int := if k < 24 then m.rdI MAP_CT_POS_TE k else m.rdI MAP_PT_POS_TE (k - 24)
def Chip.tileTn (m : Chip) (k : Nat) : Int := if k < 24 then m.rdI MAP_CT_POS_TN k else m.rdI MAP_PT_POS_TN (k - 24)
def Chip.tileKeyOf (m : Chip) (k : Nat) : Nat := tileKey (tileLayer k) (m.tileTe k) (m.tileTn k)

/-- The slot that holds an address, where the slots are. -/
def tileAt (a : Nat) : Option Nat :=
  if 0x9E0000 ≤ a ∧ a < 0xC38000 then some ((a - 0x9E0000) / 0x19000)
  else if 0x9A0000 ≤ a ∧ a < 0x9E0000 then some (24 + (a - 0x9A0000) / 0x1000)
  else none

/-- The byte that a layer's cells are created with. -/
def Chip.createByte (m : Chip) (layer : Nat) : Byte := if layer = 0 then 0 else BitVec.ofNat 8 (m.rd MAP_DEF_DEF_RATE)

/-- The targets in use (R299). -/
def Chip.inUse (m : Chip) (t : Nat) : Bool := t == 0 || m.rdB NC_CFG_T1_EN
def Chip.targetOk (m : Chip) (t : Nat) : Bool := if t = 0 then m.rdB NC_STAT_T0_OK else m.rdB NC_STAT_T1_OK

/-- The committed tile of a key, as the directory log of the targets in use gives it. -/
def Chip.nandTile (m : Chip) (key : Nat) : Option NTile := (tabFind m.nand.tiles key).filter fun t => t.target != 1 || m.inUse 1

/-- The committed tile lies on a failed target alone (R299). -/
def Chip.tileGone (m : Chip) (key : Nat) : Bool :=
  match m.nandTile key with
  | none => false
  | some t => if t.target = 2 then !m.targetOk 0 && !m.targetOk 1 else !m.targetOk t.target

/-- A byte of a tile as last committed, or as created. -/
def Chip.tileByte (m : Chip) (key layer o : Nat) : Byte :=
  match m.nandTile key with
  | some t => memGet t.cells o
  | none => m.createByte layer

/-- The bytes of the backing copy of a word, where its region has one (R31): for the Gelow code, of the image that runs, which with
BOOT_STAT.FALLBACK = 1 is the one in the slot that is not active (DESIGN CHOICE, log entry 126: R302 names the active slot only). -/
def Chip.backing (m : Chip) (a : Nat) : Option (List Byte) :=
  match tileAt a with
  | some k =>
    if (m.tileState k = 2 ∨ m.tileState k = 3 ∨ m.tileState k = 4) ∧ !m.tileGone (m.tileKeyOf k) then
      some ((List.range 4).map fun j => m.tileByte (m.tileKeyOf k) (tileLayer k) (a - tileBase k + j))
    else none
  | none =>
    let k := if m.rdB BOOT_STAT_FALLBACK then 1 - m.nand.activeV else m.nand.activeV
    let img := if m.imageGone k then [] else m.image k
    let lo := imgWord img 16 - 0x40000000
    if 0xD40000 ≤ a ∧ lo ≤ a ∧ a + 4 ≤ lo + imgWord img 12 then some (((imgBody img).drop (a - lo)).take 4) else none

/-- A read finds a parity error in the word at an address (of the host space, or within the tightly coupled memory). The memory of a cluster
island has no backing copy and no host offset: the cluster enters its safe state (R381), and SYS_PAR_ADDR stands (DESIGN CHOICE, log entry
116). -/
def Chip.parityRead (m : Chip) (who : Writer) (place : ParityPlace) (addr held : Nat) : Chip :=
  let host := (writerPort who).isSome
  let a := addr / 4 * 4
  if !m.powered then m
  else match place with
    | .cluster c => ({ m with rdata := held }.sysFlag SYS_FLT_FLAGS_SRAM).clusterStop c.val
    | .tcm =>
      if host ∨ tcmSize ≤ a then m
      else ((({ m.store (tcmBase + a) (leBytes 4 held) with rdata := held }).wr SYS_PAR_ADDR_ADDR 0 a).wr SYS_PAR_ADDR_TCM 0 1).sysFlag SYS_FLT_FLAGS_SRAM
    | .window =>
      if a < 0x800000 ∨ 0x1000000 ≤ a ∨ (host ∧ 0xD40000 ≤ a) then m
      else match m.backing a with
        | some _ => { m with refetch := m.refetch ++ [⟨who, a, m.tb⟩] }
        | none => ((({ m.store a (leBytes 4 held) with rdata := held }).wr SYS_PAR_ADDR_ADDR 0 a).wr SYS_PAR_ADDR_TCM 0 0).sysFlag SYS_FLT_FLAGS_SRAM

/-- A coverage byte as committed, with the cells that the cache holds as excluded: those never revert (R270). -/
def keepExcluded (held back : Byte) : Byte :=
  BitVec.ofNat 8 ((List.range 4).foldl (fun a i => a + (if held.toNat / 4 ^ i % 4 = 3 then 3 else back.toNat / 4 ^ i % 4) * 4 ^ i) 0)

/-- What a refetch gives the word at an address (R270): the committed bytes, but for excluded cells of a coverage slot. -/
def Chip.refetched (m : Chip) (a : Nat) (bs : List Byte) : List Byte :=
  match tileAt a with
  | none => bs
  | some k => if k < 24 then ((m.load a 4).zip bs).map fun p => keepExcluded p.1 p.2 else bs

/-- The cells of a word of a coverage slot return to the last commit (R270): a change of the slot since its flush began (R266). -/
def Chip.covRevert (m : Chip) (a : Nat) (bs : List Byte) : Chip :=
  match tileAt a with
  | none => m
  | some k =>
    if k < 24 ∧ (m.tileState k = 3 ∨ m.tileState k = 4) ∧ m.load a 4 ≠ bs then
      let x := tabGet m.map.tiles k {}
      let m := if m.tileState k = 4 then { m with map := { m.map with tiles := tabPut m.map.tiles k { x with changed := true } } } else m
      (m.count MAP_CNT2_COV_REVERT 0).mapFlag MAP_FLAGS_COV_REVERT
    else m

/-- A refetch completes: the word is corrected and the read completes. -/
def Chip.refetchDone (m : Chip) : Chip :=
  match m.refetch with
  | [] => m
  | r :: rest =>
    let m := { m with refetch := rest }
    match m.backing r.addr with
    | none => { m with rdata := m.loadNat r.addr 4 }
    | some bs =>
      let bs := m.refetched r.addr bs
      { (m.covRevert r.addr bs).store r.addr bs with rdata := leNat bs }

/-! ## Protection of the Anvil cores (R35, R42, R489) -/

/-- A region of PROT_MPU covers an address with a permission. -/
def Chip.mpuCovers (m : Chip) (r addr : Nat) (k : Access) : Bool :=
  let size := clampN 12 24 (m.rd PROT_MPU_SIZE r)
  let base := m.rd PROT_MPU_BASE r * 4096 / 2 ^ size * 2 ^ size
  let perm := match k with
    | .read => m.rdB PROT_MPU_R r
    | .write => m.rdB PROT_MPU_W r
    | .exec => m.rdB PROT_MPU_X r
  m.rdB PROT_MPU_EN r && perm && decide (base ≤ addr ∧ addr < base + 2 ^ size)

/-- The protection set-up allows Anvil-C an access. -/
def Chip.mpuOk (m : Chip) (addr : Nat) (k : Access) : Bool := (List.range 8).any fun r => m.mpuCovers r addr k

/-- A core sees an address, for an access (R42). -/
def coreSees (t addr : Nat) (k : Access) : Bool :=
  if addr < 0x10000 then t == 0 && k != .write
  else if tcmBase ≤ addr ∧ addr < tcmBase + tcmSize then t == 1 || k != .exec
  else decide (0x40000000 ≤ addr ∧ addr < 0x41000000)

/-- mcause of an access fault. -/
def faultCause : Access → Nat
  | .exec => 1
  | .read => 5
  | .write => 7

/-- A core traps on an access. -/
def Chip.trap (m : Chip) (t addr : Nat) (k : Access) : Chip :=
  let c := m.core t
  m.setCore t { c with
    mcause := faultCause k, mtval := addr, mepc := c.pc, mstatus := trapStatus c.mstatus c.mode, mode := 3, pc := c.mtvec / 4 * 4 }

end Sys2Proof.Machine
end

