-- ==== Sys2Proof/Machine/Fabric.lean ====
section
/-! DEFINITION. The commands of the fabric, SRAM parity, lockstep and the access faults (01 R21-R42). -/

namespace Sys2Proof.Machine

def execFabricWord (l : Link) (w : Word) (rx : List (BitVec 33)) (s : State) : Host.Outcome State Fault Refusal :=
  s.upd (·.sendWord l.val w rx)

def execTbBroadcast (s : State) : Host.Outcome State Fault Refusal := s.upd (·.broadcast)

def execSramParityRead (reader : Writer) (place : ParityPlace) (addr : Nat) (held : Word) (s : State) : Host.Outcome State Fault Refusal :=
  s.upd (·.parityRead reader place addr held.toNat)

def execSramRefetchDone (s : State) : Host.Outcome State Fault Refusal := s.upd (·.refetchDone)

/-- The Anvil-V cores disagree (R34). -/
def execLockstepFault (s : State) : Host.Outcome State Fault Refusal :=
  s.upd fun m => if m.coreV.running ∧ m.runs islMgmt ∧ m.sys.holdTb = 0 then (m.sysFlag SYS_FLT_FLAGS_LOCKSTEP).vRestart else m

/-- An access of Anvil-C that no region of PROT_MPU allows traps, and does not take effect (R35, R489). -/
def execAnvilCProtectionTrap (addr : Word) (k : Access) (s : State) : Host.Outcome State Fault Refusal :=
  s.upd fun m => if m.coreRuns 1 ∧ !m.mpuOk addr.toNat k then m.trap 1 addr.toNat k else m

/-- An access outside the regions that a core sees (R42). -/
def Chip.accessFault (m : Chip) (t addr : Nat) (k : Access) : Chip := if m.coreRuns t ∧ !coreSees t addr k then m.trap t addr k else m

def execAnvilAccessFault (core : Core) (addr : Word) (k : Access) (s : State) : Host.Outcome State Fault Refusal :=
  s.upd (·.accessFault (match core with
    | .v => 0
    | .c => 1) addr.toNat k)

end Sys2Proof.Machine
end

