-- ==== Sys2Proof/Machine/FiligreeOps.lean ====
section
/-! DEFINITION. Operations of the filigree engines (13 R435-R453). -/

namespace Sys2Proof.Machine

def Chip.eng (m : Chip) (e : Nat) : Engine := tabGet m.fe e {}
def Chip.setEng (m : Chip) (e : Nat) (x : Engine) : Chip := { m with fe := tabPut m.fe e x }

/-! ## Bits and pins (R437) -/

/-- A 64-bit word turned left, and turned right. -/
def rotl64 (x b : Nat) : Nat := (x * 2 ^ (b % 64) % 2 ^ 64) + x * 2 ^ (b % 64) / 2 ^ 64
def rotr64 (x b : Nat) : Nat := rotl64 x ((64 - b % 64) % 64)

/-- n pins from a base upward, counted modulo 64. -/
def pinsFrom (x base n : Nat) : Nat := rotr64 x base % 2 ^ n

/-- A latch word with n pins from a base taking the low bits of v. -/
def latchPut (x base n v : Nat) : Nat :=
  let mask := rotl64 (2 ^ n - 1) base
  (x ^^^ (x &&& mask)) ||| rotl64 (v % 2 ^ n) base

/-- A bit-reversed word of n bits. -/
def revBits (v n : Nat) : Nat :=
  match n with
  | 0 => 0
  | k + 1 => v % 2 * 2 ^ k + revBits (v / 2) k

/-- A pin's level: what the device drives on it, else the level outside. -/
def Chip.pin (m : Chip) (n : Nat) : Bool :=
  let ext := bitAt m.fio n
  let u := m.rd FIO_CFG_UNIT n
  let drive := fun v : Bool => if m.rdB FIO_CFG_OD n then v && ext else v
  if m.rd FIO_CFG_SRC n = 1 then (if bitAt (m.eng u).dir n then drive (bitAt (m.eng u).out n) else ext)
  else if m.rd FIO_CFG_SRC n = 2 ∧ u < 16 then drive (m.rdB TIM_STAT_OUT u)
  else ext

/-- The levels of all 64 pins. -/
def Chip.pins (m : Chip) : Nat := (List.range 64).foldl (fun a n => if m.pin n then a + 2 ^ n else a) 0

/-- The level of a source code of R456. -/
def Chip.srcLevel (m : Chip) (c : Nat) : Bool :=
  if c < 64 then m.pin c
  else if c < 128 then m.rdB WHL_STAT_LINE (c - 64)
  else if c < 144 then m.rd CMP_STAT_STATE (c - 128) == 2
  else if c < 160 then m.rd CMP_STAT_STATE (c - 144) == 0
  else if c < 192 then bitAt (m.rd FG_FLAGS ((c - 160) / 8)) ((c - 160) % 8)
  else if c < 208 then m.rdB TIM_STAT_OUT (c - 192)
  else false

/-- A signal-table entry as the engine samples it (R441). -/
def Chip.feSig (m : Chip) (e s : Nat) : Bool :=
  m.srcLevel (if s = 0 then m.rd FE_SIGSEL_SIG0 e else if s = 1 then m.rd FE_SIGSEL_SIG1 e
    else if s = 2 then m.rd FE_SIGSEL_SIG2 e else m.rd FE_SIGSEL_SIG3 e)

/-! ## The divider (R436) -/

/-- Base cycles of one engine cycle, and the fraction. -/
def Chip.feInt (m : Chip) (e : Nat) : Nat := max 1 (m.rd FE_CLKDIV_INT e)
def Chip.feFrac (m : Chip) (e : Nat) : Nat := if m.feInt e = 1 then 0 else m.rd FE_CLKDIV_FRAC e

/-- The start of the n-th engine cycle from the next one, with the residue there. -/
def Chip.feStart (m : Chip) (e n : Nat) : Nat × Nat :=
  let x := m.eng e
  let r := x.residue + n * m.feFrac e
  (x.next + n * m.feInt e + r / 256, r % 256)

/-- The index of the engine cycle in progress, once the next one has started. -/
def Chip.feIndex (m : Chip) (e : Nat) : Nat :=
  (256 * (m.tb - (m.eng e).next + 1) - 1 - (m.eng e).residue) / (256 * m.feInt e + m.feFrac e)

/-- The grid moved on by n cycles. -/
def Chip.feSkip (m : Chip) (e n : Nat) : Chip :=
  let (t, r) := m.feStart e n
  m.setEng e { m.eng e with next := t, residue := r }

/-- The engine's clock runs (R464, R472). -/
def Chip.feClock (m : Chip) (e : Nat) : Bool := m.runs islObserver && m.ungated 0 (e / 8)

/-- A stalled WAITFOR with TALLY counts its cycles (R441). -/
def Chip.feTally (m : Chip) (e : Nat) : Bool :=
  m.rdB FE_CTL_EN e && m.rdB FE_STAT_STALL e && m.rd FE_STAT_CAUSE e == 1 && bitAt (m.eng e).word 8

/-- Cycles that have begun are settled: the tally and the hold take them, and the grid moves past them. -/
def Chip.feSettle (m : Chip) (e : Nat) : Chip :=
  if (m.eng e).next ≤ m.tb ∧ m.feClock e then
    let n := m.feIndex e + 1
    let m := if m.feTally e then m.wr FE_B e (m.rd FE_B e + n) else m
    let x := m.eng e
    (m.setEng e { x with hold := if m.rdB FE_CTL_EN e then x.hold - n else x.hold }).feSkip e n
  else m

/-! ## FIFOs (R446, R447) -/

/-- The FIFO levels as FE_STAT shows them. -/
def Chip.feLevels (m : Chip) (e : Nat) : Chip :=
  (m.wr FE_STAT_TX_LVL e (m.eng e).tx.length).wr FE_STAT_RX_LVL e (m.eng e).rx.length

/-- TX_LOW sets as the level falls from above the threshold to or below it. -/
def Chip.feLow (m : Chip) (e was : Nat) : Chip :=
  let thr := min 8 (m.rd FE_LANE_TX_THR e)
  if thr < was ∧ (m.eng e).tx.length ≤ thr then m.feFlag e FE_FLAGS_TX_LOW else m

/-- A word enters a TX FIFO that is not full. -/
def Chip.feTxPush (m : Chip) (e w : Nat) : Chip := (m.setEng e { m.eng e with tx := (m.eng e).tx ++ [w % 2 ^ 32] }).feLevels e

/-- A word of a lattice enters a TX FIFO ahead of those that writes of FE_TX have entered in this cycle; the last of them finds no room (R447). -/
def Chip.feTxLattice (m : Chip) (e w : Nat) : Chip :=
  let k := tabGet m.cycle.words e 0
  if k = 0 then m.feTxPush e w
  else
    let tx := (m.eng e).tx
    let n := tx.length
    let all := tx.take (n - k) ++ [w % 2 ^ 32] ++ tx.drop (n - k)
    let m := (m.setEng e { m.eng e with tx := all.take 8 }).feLevels e
    if n < 8 then m
    else (m.setCycle { m.cycle with words := tabPut m.cycle.words e (k - 1) }).feFlag e FE_FLAGS_TX_OVF

/-- A word placed in the RX FIFO is offered to the slots, the yaw source and the deflection inputs that name the engine (R446). -/
def Chip.feOffer (m : Chip) (e w : Nat) : Chip :=
  let v := toSigned 32 w
  let m := (List.range 8).foldl (fun m k =>
    if m.rdB MDL_SRC_CFG_EN k ∧ m.rd MDL_SRC_CFG_TYPE k = 1 ∧ m.rd MDL_SRC_CFG_INPUT k = e then
      let x := m.slot k
      let r : EdgeRec := {
        input := e, tb := m.tb - m.rd MDL_SRC_LOOP_LAT k * usTb, dcnt := v, rev := decide (v < 0), start := false, stop := false
        gapRef := false, idxRef := false, tcntErr := false, state := 0 }
      m.setSlot k { x with inbox := x.inbox ++ [r], wordTb := m.tb }
    else m) m
  let m := if m.rd MDL_YAW_CFG_FE = e ∧ (m.rd MDL_YAW_CFG_PRI = 1 ∨ m.rd MDL_YAW_CFG_SEC = 1) then
      m.yawSample 1 (v * m.rdI MDL_YAW_SCALE * 65536) (m.tb - m.rd MDL_YAW_CFG_LAT * usTb)
    else m
  (List.range 8).foldl (fun m d => if m.rd MDL_DF_CFG_SRC d = 2 ∧ m.rd MDL_DF_CFG_UNIT d = e then m.deflOffer d v else m) m

/-- A word enters the RX FIFO: full, the oldest is lost (R443). -/
def Chip.feRxPush (m : Chip) (e w : Nat) : Chip :=
  let x := m.eng e
  let m := if x.rx.length = 8 then (m.setEng e { x with rx := x.rx.drop 1 ++ [w] }).feFlag e FE_FLAGS_RX_OVF
    else m.setEng e { x with rx := x.rx ++ [w] }
  ((m.feLevels e).feFlag e FE_FLAGS_RX_PUSH).feOffer e w

/-! ## Moves between SR and the FIFOs (R443) -/

/-- Why a waiting exchange or SWAP cannot be made now: 3 no RX room, 2 no TX word, 0 it can. -/
def Chip.swapBlock (m : Chip) (e : Nat) (store load : Bool) : Nat :=
  if store && (m.eng e).rx.length == 8 && !m.rdB FE_LANE_RX_OVW e then 3
  else if load && (m.eng e).tx.isEmpty then 2
  else 0

/-- The moves of a SWAP that are made; a store without room, not waiting, loses the word. A move clears BC, as does a SWAP that names none. -/
def Chip.swapMoves (m : Chip) (e : Nat) (store load : Bool) : Chip :=
  let full := (m.eng e).rx.length == 8 && !m.rdB FE_LANE_RX_OVW e
  let moves := (store && !full) || (load && !(m.eng e).tx.isEmpty) || (!store && !load)
  let m := if !store then m else if full then m.feFlag e FE_FLAGS_RX_OVF else m.feRxPush e (m.rd FE_SR e)
  let m := if !load then m
    else match (m.eng e).tx with
      | [] => m
      | w :: r =>
        let was := (m.eng e).tx.length
        (((m.setEng e { m.eng e with tx := r }).feLevels e).wr FE_SR e w).feLow e was
  if moves then m.wr FE_STAT_BC e 0 else m

/-! ## Issue and completion (R439, R445) -/

/-- The instruction at PC, and its fields (R438). -/
def Chip.feWord (m : Chip) (e : Nat) : Nat := m.rd FE_PROG (64 * e + m.rd FE_STAT_PC e)
def opOf (w : Nat) : Nat := w / 2 ^ 20 % 16
def patOf (w : Nat) : Nat := w / 2 ^ 17 % 8
def holdOf (w : Nat) : Nat := w / 2 ^ 13 % 16
def endOf (w : Nat) : Bool := bitAt w 12

/-- An instruction that does not execute (R444). -/
def feIllegal (w : Nat) : Bool :=
  decide (8 < opOf w) || (opOf w == 0 && decide (10 < w / 256 % 16)) ||
    (opOf w == 4 && (decide (5 < w / 256 % 16) || decide (7 < w / 16 % 16)))

/-- The engine may issue its instruction now. -/
def Chip.feReady (m : Chip) (e : Nat) : Bool :=
  m.rdB FE_CTL_EN e && m.feClock e && !m.rdB FE_STAT_STALL e && (m.eng e).hold == 0 && decide ((m.eng e).next ≤ m.tb)

/-- The pattern of an instruction is written (R439). -/
def Chip.fePattern (m : Chip) (e w : Nat) : Chip :=
  if patOf w = 0 then m
  else
    let v := m.rd FE_PATTAB e / 2 ^ (4 * (patOf w - 1)) % 16
    m.setEng e { m.eng e with out := latchPut (m.eng e).out (m.rd FE_PAT_BASE e) (min 4 (m.rd FE_PAT_N e)) v }

/-- An instruction completes in the present cycle: the next PC, and the hold. -/
def Chip.feDone (m : Chip) (e w : Nat) (dest : Option Nat) : Chip :=
  let pc := match dest with
    | some a => a % 64
    | none => if endOf w then m.rd FE_EXEC_LOOP e else (m.rd FE_STAT_PC e + 1) % 64
  let m := ((m.wr FE_STAT_PC e pc).wr FE_STAT_STALL e 0).wr FE_STAT_CAUSE e 0
  let m := m.setEng e { m.eng e with hold := holdOf w, replaced := false }
  m.feSkip e (m.feIndex e + 1)

/-- An instruction stalls in the present cycle (R448). -/
def Chip.feStall (m : Chip) (e w cause : Nat) : Chip :=
  let m := (m.wr FE_STAT_STALL e 1).wr FE_STAT_CAUSE e cause
  let m := m.setEng e { m.eng e with word := w, replaced := false }
  m.feSkip e (m.feIndex e + 1)

/-- An instruction of an operation code issues: its effect, then its pattern. -/
def Chip.feIssue (m : Chip) (e op : Nat) (f : Nat → Chip → Chip) : Chip :=
  let w := m.feWord e
  if m.feReady e ∧ opOf w = op ∧ !feIllegal w then (f w m).fePattern e w else m

/-- The levels outside as a command that samples pins gives them. -/
def Chip.sample (m : Chip) (pins : BitVec 64) : Chip := { m with fio := pins.toNat }

/-- The width N of an XFER, and the threshold FRAME: 0 means 32. -/
def orThirtyTwo (n : Nat) : Nat := if n = 0 then 32 else n

/-- Whether a JUMP is taken (R440). -/
def Chip.jumpTaken (m : Chip) (e t : Nat) : Bool :=
  let a := m.rd FE_A e
  let b := m.rd FE_B e
  if t = 0 then true
  else if t = 1 then a == 0
  else if t = 2 then a != 0
  else if t = 3 then b == 0
  else if t = 4 then b != 0
  else if t = 5 then m.feSig e 0
  else if t = 6 then decide (orThirtyTwo (m.rd FE_LANE_FRAME e) ≤ m.rd FE_STAT_BC e)
  else if t = 7 then decide (a < b)
  else if t = 8 then bitAt a 31
  else if t = 9 then (m.eng e).tx.isEmpty
  else (m.eng e).rx.length == 8

/-- The test of a JUMP, and its side effect: tests 2 and 4 count their register down (R440). -/
def Chip.jumpTest (m : Chip) (e t : Nat) : Bool × Chip :=
  let a := m.rd FE_A e
  let b := m.rd FE_B e
  (m.jumpTaken e t,
    if t = 2 ∧ a ≠ 0 then m.wr FE_A e (a - 1) else if t = 4 ∧ b ≠ 0 then m.wr FE_B e (b - 1) else m)

/-- The N-bit value that enters SR (R442). -/
def Chip.xferIn (m : Chip) (e sel n : Nat) : Nat :=
  if sel = 0 then pinsFrom m.pins (m.rd FE_PINS_IN_BASE e) n
  else if sel = 1 then 0
  else if sel = 2 then 2 ^ n - 1
  else m.rd FE_A e % 2 ^ n

/-- The bits that leave SR go where OUT says. -/
def Chip.xferOut (m : Chip) (e sel v : Nat) : Chip :=
  let x := m.eng e
  let b := m.rd FE_PINS_OUT_BASE e
  let n := min 32 (m.rd FE_PINS_OUT_N e)
  if sel = 0 then m.setEng e { x with out := latchPut x.out b n v }
  else if sel = 1 then m.wr FE_A e v
  else if sel = 3 then m.setEng e { x with dir := latchPut x.dir b n v }
  else m

/-- The move of an XFER of n bits. -/
def Chip.xferMove (m : Chip) (e inSel outSel n : Nat) : Chip :=
  let sr := m.rd FE_SR e
  let v := m.xferIn e inSel n
  let (out, sr') := if m.rdB FE_LANE_DIR e then (sr % 2 ^ n, sr / 2 ^ n + v * 2 ^ (32 - n))
    else (sr / 2 ^ (32 - n), sr * 2 ^ n % 2 ^ 32 + v)
  let m := (m.wr FE_SR e sr').wr FE_STAT_BC e (min 32 (m.rd FE_STAT_BC e + n))
  m.xferOut e outSel out

/-- The source of a MOVE, and its function (R443); the TB is that of the base cycle at which the engine cycle starts. -/
def Chip.moveSrc (m : Chip) (e c : Nat) : Nat :=
  if c = 0 then pinsFrom m.pins (m.rd FE_PINS_IN_BASE e) 32
  else if c = 1 then m.rd FE_A e
  else if c = 2 then m.rd FE_B e
  else if c = 3 then m.rd FE_SR e
  else if c = 4 then (m.tbOf islObserver - (m.tb - (m.feStart e (m.feIndex e)).1)) % 2 ^ 32
  else if c = 5 then 0
  else if c = 6 then 2 ^ 32 - 1
  else m.rd FE_STAT_BC e

def moveFn (c v : Nat) : Nat :=
  if c = 0 then v else if c = 1 then 2 ^ 32 - 1 - v else if c = 2 then revBits v 32 else (2 ^ 32 - v) % 2 ^ 32

/-- The destination of a MOVE, and the PC it sets. -/
def Chip.moveDst (m : Chip) (e c v : Nat) : Option Nat × Chip :=
  if c = 0 then (none, m.xferOut e 0 v)
  else if c = 1 then (none, m.wr FE_A e v)
  else if c = 2 then (none, m.wr FE_B e v)
  else if c = 3 then (none, (m.wr FE_SR e v).wr FE_STAT_BC e 0)
  else if c = 4 then (some (v % 64), m)
  else (none, m.xferOut e 3 v)

/-- A flag of the engine's group. -/
def Chip.groupFlag (m : Chip) (e f : Nat) : Bool := bitAt (m.rd FG_FLAGS (e / 8)) f
/-- A group flag is lowered, by an engine or by a write of 1: of a raise and a lower in one cycle the lower wins (R443). -/
def Chip.groupLower (m : Chip) (g w : Nat) : Chip :=
  let m := m.wr FG_FLAGS g (m.rd FG_FLAGS g - (m.rd FG_FLAGS g &&& w))
  m.setCycle { m.cycle with lowers := ((List.range 8).filter fun f => bitAt w f).map (fun f => (g, f)) ++ m.cycle.lowers }

def Chip.groupPut (m : Chip) (e f : Nat) (v : Bool) : Chip :=
  if !v then m.groupLower (e / 8) (2 ^ f)
  else if m.cycle.lowers.contains (e / 8, f) then m
  else m.wr FG_FLAGS (e / 8) (setBit (m.rd FG_FLAGS (e / 8)) f)

/-- The latched cause of a stall has cleared (R441, R443, R448). -/
def Chip.feCleared (m : Chip) (e : Nat) : Bool :=
  let w := (m.eng e).word
  let c := m.rd FE_STAT_CAUSE e
  if c = 1 then m.feSig e (w / 512 % 4) == bitAt w 11
  else if c = 4 then m.swapBlock e (m.rdB FE_LANE_ASTORE e) (m.rdB FE_LANE_ALOAD e) == 0
  else if c = 5 then !m.groupFlag e (w % 8)
  else m.swapBlock e (bitAt w 11) (bitAt w 10) == 0

/-- A stall ends: the rest of the instruction, or, where its word was replaced, the new word's issue in this cycle (R449). -/
def Chip.feResume (m : Chip) (e : Nat) : Chip :=
  let x := m.eng e
  let w := x.word
  let c := m.rd FE_STAT_CAUSE e
  let n := m.feIndex e
  let m := if m.feTally e then m.wr FE_B e (m.rd FE_B e + n + (if x.replaced then 0 else 1)) else m
  if x.replaced then
    (((m.setEng e { m.eng e with replaced := false }).wr FE_STAT_STALL e 0).wr FE_STAT_CAUSE e 0).feSkip e n
  else
    let m := if c = 4 then m.swapMoves e (m.rdB FE_LANE_ASTORE e) (m.rdB FE_LANE_ALOAD e)
      else if c = 2 ∨ c = 3 then m.swapMoves e (bitAt w 11) (bitAt w 10)
      else m
    m.feDone e w none

/-! ## Enables and resets (R448, R450, R451) -/

/-- EN takes a value. -/
def Chip.feEnable (m : Chip) (e : Nat) (en : Bool) : Chip := (m.feSettle e).wrB FE_CTL_EN e en

/-- A write of FE_CTL: a synchronous command of the same cycle acts after it (R450). -/
def Chip.feCtl (m : Chip) (e : Nat) (en : Bool) : Chip := if m.cycle.synced.contains e then m else m.feEnable e en

/-- RESET of R450. -/
def Chip.feReset (m : Chip) (e : Nat) : Chip :=
  let m := m.feSettle e
  let m := m.setEng e { m.eng e with hold := 0, replaced := false, word := 0 }
  let m := ((m.wr FE_STAT_PC e (m.rd FE_EXEC_ENTRY e)).wr FE_STAT_STALL e 0).wr FE_STAT_CAUSE e 0
  (((m.wr FE_A e 0).wr FE_B e 0).wr FE_SR e 0).wr FE_STAT_BC e 0

/-- PHASE of R450. -/
def Chip.fePhase (m : Chip) (e : Nat) : Chip :=
  let m := m.feSettle e
  m.setEng e { m.eng e with residue := 0, next := m.tb + 1 }

/-- The parts of a synchronous command, in its order, on the engines of the mask that have a clock. -/
def Chip.feSync (m : Chip) (halt reset phase run : Bool) : Chip :=
  let es := (List.range 32).filter fun e => bitAt (m.rd FE_SYNC_MASK) e && m.feClock e
  let m := if halt then es.foldl (fun m e => m.feEnable e false) m else m
  let m := if reset then es.foldl Chip.feReset m else m
  let m := if phase then es.foldl Chip.fePhase m else m
  let m := if halt || run then m.setCycle { m.cycle with synced := es ++ m.cycle.synced } else m
  if run then es.foldl (fun m e => if m.rdB FE_CTL_EN e then m else m.feEnable e true) m else m

end Sys2Proof.Machine
end

