-- ==== Sys2Proof/Machine/Filigree.lean ====
section
/-! DEFINITION. The commands of the filigree engines (13 R438-R451). -/

namespace Sys2Proof.Machine

/-! ## Instructions -/

/-- JUMP (R440). -/
def Chip.feJump (m : Chip) (e : Nat) (pins : BitVec 64) : Chip :=
  (m.sample pins).feIssue e 0 fun w m =>
    let (t, m) := m.jumpTest e (w / 256 % 16)
    m.feDone e w (if t then some (w % 64) else none)

def execJump (e : Fe) (pins : BitVec 64) (s : State) : Host.Outcome State Fault Refusal := s.upd (·.feJump e.val pins)

/-- WAITFOR (R441). -/
def Chip.feWait (m : Chip) (e : Nat) (pins : BitVec 64) : Chip :=
  (m.sample pins).feIssue e 1 fun w m =>
    let hit := m.feSig e (w / 512 % 4) == bitAt w 11
    let m := if bitAt w 8 then m.wr FE_B e (m.rd FE_B e + 1) else m
    if hit then m.feDone e w none else m.feStall e w 1

def execWaitfor (e : Fe) (pins : BitVec 64) (s : State) : Host.Outcome State Fault Refusal := s.upd (·.feWait e.val pins)

/-- XFER, and its exchange (R442). -/
def Chip.feXfer (m : Chip) (e : Nat) (pins : BitVec 64) : Chip :=
  (m.sample pins).feIssue e 2 fun w m =>
    let m := m.xferMove e (w / 1024 % 4) (w / 256 % 4) (orThirtyTwo (w % 32))
    let st := m.rdB FE_LANE_ASTORE e
    let ld := m.rdB FE_LANE_ALOAD e
    if m.rdB FE_LANE_AUTO e ∧ orThirtyTwo (m.rd FE_LANE_FRAME e) ≤ m.rd FE_STAT_BC e then
      if m.swapBlock e st ld = 0 then (m.swapMoves e st ld).feDone e w none else m.feStall e w 4
    else m.feDone e w none

def execXfer (e : Fe) (pins : BitVec 64) (s : State) : Host.Outcome State Fault Refusal := s.upd (·.feXfer e.val pins)

/-- SWAP (R443). -/
def Chip.feSwap (m : Chip) (e : Nat) : Chip :=
  m.feIssue e 3 fun w m =>
    let st := bitAt w 11
    let ld := bitAt w 10
    let b := m.swapBlock e st ld
    if bitAt w 9 && b != 0 then m.feStall e w b else (m.swapMoves e st ld).feDone e w none

def execSwap (e : Fe) (s : State) : Host.Outcome State Fault Refusal := s.upd (·.feSwap e.val)

/-- MOVE (R443). -/
def Chip.feMove (m : Chip) (e : Nat) (pins : BitVec 64) : Chip :=
  (m.sample pins).feIssue e 4 fun w m =>
    let (dest, m) := m.moveDst e (w / 256 % 16) (moveFn (w / 4 % 4) (m.moveSrc e (w / 16 % 16)))
    m.feDone e w dest

def execMove (e : Fe) (pins : BitVec 64) (s : State) : Host.Outcome State Fault Refusal := s.upd (·.feMove e.val pins)

/-- LOADK. -/
def Chip.feLoadk (m : Chip) (e : Nat) : Chip :=
  m.feIssue e 5 fun w m => (m.wr (if bitAt w 11 then FE_B else FE_A) e (w % 2048)).feDone e w none

def execLoadk (e : Fe) (s : State) : Host.Outcome State Fault Refusal := s.upd (·.feLoadk e.val)

/-- ADDK. -/
def Chip.feAddk (m : Chip) (e : Nat) : Chip :=
  m.feIssue e 6 fun w m =>
    let f := if bitAt w 11 then FE_B else FE_A
    (m.wr f e (ofSigned 32 ((m.rd f e : Int) + toSigned 11 w))).feDone e w none

def execAddk (e : Fe) (s : State) : Host.Outcome State Fault Refusal := s.upd (·.feAddk e.val)

/-- DRIVE (R443). -/
def Chip.feDrive (m : Chip) (e : Nat) : Chip :=
  m.feIssue e 7 fun w m =>
    let x := m.eng e
    let b := m.rd FE_PINS_SET_BASE e
    let n := min 8 (m.rd FE_PINS_SET_N e)
    let m := if bitAt w 8 then m.setEng e { x with dir := latchPut x.dir b n (w % 256) }
      else m.setEng e { x with out := latchPut x.out b n (w % 256) }
    m.feDone e w none

def execDrive (e : Fe) (s : State) : Host.Outcome State Fault Refusal := s.upd (·.feDrive e.val)

/-- GSIG (R443). -/
def Chip.feGsig (m : Chip) (e : Nat) : Chip :=
  m.feIssue e 8 fun w m =>
    let op := w / 1024 % 4
    let f := w % 8
    if op = 0 then (m.groupPut e f true).feDone e w none
    else if op = 1 then (m.groupPut e f false).feDone e w none
    else if op = 2 then (m.groupPut e f true).feStall e w 5
    else (m.feFlag e FE_FLAGS_SIG).feDone e w none

def execGsig (e : Fe) (s : State) : Host.Outcome State Fault Refusal := s.upd (·.feGsig e.val)

/-- An instruction that does not execute (R444). -/
def Chip.feBad (m : Chip) (e : Nat) : Chip :=
  if m.feReady e ∧ feIllegal (m.feWord e) then ((m.feFlag e FE_FLAGS_ILL).wr FE_CTL_EN e 0).feSkip e (m.feIndex e + 1) else m

def execIllegalInstruction (e : Fe) (s : State) : Host.Outcome State Fault Refusal := s.upd (·.feBad e.val)

/-! ## Stalls and holds -/

/-- A stalled engine tests its latched cause (R448, R449). -/
def Chip.feTest (m : Chip) (e : Nat) (pins : BitVec 64) : Chip :=
  let m := m.sample pins
  if m.rdB FE_CTL_EN e ∧ m.feClock e ∧ m.rdB FE_STAT_STALL e ∧ (m.eng e).next ≤ m.tb ∧ m.feCleared e then m.feResume e else m

def execFeStallClear (e : Fe) (pins : BitVec 64) (s : State) : Host.Outcome State Fault Refusal := s.upd (·.feTest e.val pins)

/-- A hold ends once its cycles have run (R439). -/
def Chip.feHeld (m : Chip) (e : Nat) : Chip :=
  let x := m.eng e
  if m.rdB FE_CTL_EN e ∧ m.feClock e ∧ x.hold ≠ 0 ∧ (m.feStart e x.hold).1 ≤ m.tb then
    (m.feSkip e x.hold).setEng e { (m.feSkip e x.hold).eng e with hold := 0 }
  else m

def execFeHoldEnd (e : Fe) (s : State) : Host.Outcome State Fault Refusal := s.upd (·.feHeld e.val)

/-! ## Registers -/

/-- A write of FE_TX (R447). -/
def Chip.feTx (m : Chip) (e w : Nat) : Chip :=
  if (m.eng e).tx.length = 8 then m.feFlag e FE_FLAGS_TX_OVF
  else (m.setCycle { m.cycle with words := tabPut m.cycle.words e (tabGet m.cycle.words e 0 + 1) }).feTxPush e w

def execFeTxWrite (who : Writer) (e : Fe) (w : Word) (s : State) : Host.Outcome State Fault Refusal :=
  s.upd fun m => if m.sysOk who && m.feClock e.val then m.feTx e.val w.toNat else m

/-- A read of FE_RX (R446); a gated block reads 0 (R472). -/
def Chip.feRx (m : Chip) (e : Nat) : Chip :=
  if m.feClock e then
    match (m.eng e).rx with
    | [] => { m with rdata := 0 }
    | w :: r => { (m.setEng e { m.eng e with rx := r }).feLevels e with rdata := w }
  else { m with rdata := 0 }

def execFeRxRead (e : Fe) (s : State) : Host.Outcome State Fault Refusal := s.upd (·.feRx e.val)

/-- A write of a program word (R449). -/
def Chip.feProg (m : Chip) (e i w : Nat) : Chip :=
  let m := m.wr FE_PROG (64 * e + i) w
  if m.rdB FE_STAT_STALL e ∧ m.rd FE_STAT_PC e = i then m.setEng e { m.eng e with replaced := true } else m

def execFeProgWrite (who : Writer) (e : Fe) (i : Fin 64) (w : Word) (s : State) : Host.Outcome State Fault Refusal :=
  s.upd fun m => if m.sysOk who && m.feClock e.val then m.feProg e.val i.val w.toNat else m

/-- A write of FE_CTL.EN (R448, R451). -/
def execFeEnableWrite (who : Writer) (e : Fe) (en : Bool) (s : State) : Host.Outcome State Fault Refusal :=
  s.upd fun m => if m.sysOk who && m.feClock e.val then m.feCtl e.val en else m

/-- FE_SYNC_CMD, each bit (R450). -/
def execFeSyncHalt (who : Writer) (s : State) : Host.Outcome State Fault Refusal :=
  s.upd fun m => if m.sysOk who && m.runs islObserver then m.feSync true false false false else m

def execFeSyncReset (who : Writer) (s : State) : Host.Outcome State Fault Refusal :=
  s.upd fun m => if m.sysOk who && m.runs islObserver then m.feSync false true false false else m

def execFeSyncPhase (who : Writer) (s : State) : Host.Outcome State Fault Refusal :=
  s.upd fun m => if m.sysOk who && m.runs islObserver then m.feSync false false true false else m

def execFeSyncRun (who : Writer) (s : State) : Host.Outcome State Fault Refusal :=
  s.upd fun m => if m.sysOk who && m.runs islObserver then m.feSync false false false true else m

end Sys2Proof.Machine
end

