-- ==== Sys2Proof/Machine/Sys.lean ====
section
/-! DEFINITION. The commands of clocks, trim, resets, watchdogs, sleep, boot, keys and the seal (14 R462-R496). -/

namespace Sys2Proof.Machine

/-- A writer of the clocks, reset and power registers while they have a clock (R472, R480, R495). -/
def Chip.sysWr (m : Chip) (w : Writer) : Bool := m.sysOk w && m.runs islMgmt && m.sys.holdTb == 0

def execClockSwitchStart (who : Writer) (i : Isl) (sel : BitVec 2) (s : State) : Host.Outcome State Fault Refusal :=
  s.upd fun m => if m.sysWr who then m.switchStart i.val sel.toNat else m

def execClockSwitchDone (i : Isl) (s : State) : Host.Outcome State Fault Refusal := s.upd (·.switchDone i.val)

def execClockSwitchTimeout (i : Isl) (s : State) : Host.Outcome State Fault Refusal := s.upd (·.switchTimeout i.val)

def execClockStop (i : Isl) (s : State) : Host.Outcome State Fault Refusal := s.upd (·.clockStop i.val)

def execClockAutoRecover (i : Isl) (s : State) : Host.Outcome State Fault Refusal := s.upd (·.autoRecover i.val)

def execIslandClockReturn (i : Isl) (s : State) : Host.Outcome State Fault Refusal := s.upd (·.clockReturn i.val)

def execIslandResetRelease (i : Isl) (s : State) : Host.Outcome State Fault Refusal := s.upd (·.islandRelease i.val)

def execXtalLoss (cycles : Nat) (s : State) : Host.Outcome State Fault Refusal := s.upd (·.xtalEval cycles)

def execXtalRestore (s : State) : Host.Outcome State Fault Refusal := s.upd (·.xtalBack)

/-- A mark of the selected reference: a rising edge of PPS now, or the latch of the last sync frame. -/
def Chip.markOf (m : Chip) (pps : Bool) : Chip :=
  if m.trimRef = 1 ∧ pps then m.trimMark (m.tbOf islObserver)
  else if m.trimRef = 2 ∧ !pps then m.trimMark (m.rd HP_SYNC_TB_LO + 2 ^ 32 * m.rd HP_SYNC_TB_HI)
  else m

def execTrimMark (pps : Bool) (s : State) : Host.Outcome State Fault Refusal := s.upd (·.markOf pps)

def execTrimHoldTimeout (s : State) : Host.Outcome State Fault Refusal := s.upd (·.trimHold)

/-- The source of a module reset has come (R473). -/
def Chip.resetDue (m : Chip) (c : ResetCause) : Bool :=
  !m.sys.off && match c with
    | .pin => true
    | .command => match m.sys.modAt with
      | some t => decide (t ≤ m.tb)
      | none => false
    | .supply => m.sys.lossTb.isSome
    | .fabric => (List.range 7).any fun k => m.linkFaulty (24 + 2 * k) && m.linkFaulty (25 + 2 * k)
    | .vrestart => decide (3 ≤ (m.sys.vRestarts.filter fun t => decide (m.tb < t + 10000 * msTb)).length)
    | .mgmt => (m.island islMgmt).hung || (m.island islMgmt).stoppedAt.isSome

def execModuleReset (cause : ResetCause) (s : State) : Host.Outcome State Fault Refusal :=
  s.upd fun m => if m.resetDue cause then m.moduleReset cause else m

/-- A write of RST_ISL, by Anvil-V alone. -/
def execIslandReset (who : Writer) (i : Isl) (s : State) : Host.Outcome State Fault Refusal :=
  s.upd fun m => if who = .anvilV ∧ m.sysWr who then m.islandReset i.val false else m

/-- The Anvil-V watchdog: TMO ms without a kick. -/
def Chip.wdtV (m : Chip) : Chip :=
  if m.coreV.running ∧ m.runs islMgmt ∧ m.sys.holdTb = 0 ∧ m.sys.wdtV + max 1 (m.rd WDT_V_TMO) * msTb ≤ m.tb then m.vRestart else m

def execWdtVExpire (s : State) : Host.Outcome State Fault Refusal := s.upd (·.wdtV)

/-- The Anvil-C watchdog: none where TMO is 0. -/
def Chip.wdtC (m : Chip) : Chip :=
  if m.coreC.running ∧ m.runs islMgmt ∧ m.rd PROT_WDTC_TMO ≠ 0 ∧ m.sys.wdtC + m.rd PROT_WDTC_TMO * msTb ≤ m.tb then m.cRestart else m

def execWdtCExpire (s : State) : Host.Outcome State Fault Refusal := s.upd (·.wdtC)

/-- Gelow completes an Anvil-C restart, which a watchdog or RESET kind 0 began. -/
def Chip.restartC (m : Chip) : Chip :=
  let due := match m.sys.cAt with
    | some t => decide (t ≤ m.tb)
    | none => false
  if !m.gelow.up || !m.runs islMgmt then m
  else if due then m.cRestart.startC !(m.imageGone m.nand.activeC)
  else if m.sys.cDown.isSome then m.startC !(m.imageGone m.nand.activeC)
  else m

def execAnvilCRestart (s : State) : Host.Outcome State Fault Refusal := s.upd (·.restartC)

/-- R475. -/
def Chip.clusterRetry (m : Chip) (c : Nat) : Chip :=
  let x := m.island c
  match x.safeSince with
  | none => m
  | some t =>
    if m.rdB RST_CFG_CL_RETRY ∧ m.gelow.up ∧ m.runs islMgmt ∧ x.resetEnd.isNone ∧ x.retries < 3 ∧ t + 1000 * msTb ≤ m.tb then
      (m.setIsland c { x with retries := x.retries + 1 }).islandReset c false
    else m

def execClusterRetry (c : Cl) (s : State) : Host.Outcome State Fault Refusal := s.upd (·.clusterRetry c.val)

def execSleepRequest (who : Writer) (s : State) : Host.Outcome State Fault Refusal :=
  s.upd fun m => if m.sysWr who then { m with sys := { m.sys with sleepReq := true } } else m

/-- A write of SYS_SLEEP.WAKE through a host port. -/
def Chip.wakeReq (m : Chip) (who : Writer) : Chip :=
  match writerPort who with
  | none => m
  | some p => if m.asleep ∧ m.sysOk who ∧ m.runs (islHostA + p) then m.awake else m

def execWakeRequest (who : Writer) (s : State) : Host.Outcome State Fault Refusal := s.upd (·.wakeReq who)

def execBootRom (p : BootPins) (s : State) : Host.Outcome State Fault Refusal := s.upd (·.rom p.recoveryLow p.t0Ready p.t1Ready)

def execGelowStart (s : State) : Host.Outcome State Fault Refusal := s.upd Chip.gelowStart

def execBootRcvGo (p : Port) (w : Word) (s : State) : Host.Outcome State Fault Refusal :=
  s.upd fun m =>
    let k := match p with
      | .a => 0
      | .b => 1
    if m.runs (islHostA + k) then m.bootRcv k w.toNat else m

def execKeyProgGo (who : Writer) (slot : Fin 4) (s : State) : Host.Outcome State Fault Refusal :=
  s.upd fun m => if m.setupOk who then m.keyProg (slot.val + 256) else m

def execKeyProgRevoke (who : Writer) (slot : Fin 4) (s : State) : Host.Outcome State Fault Refusal :=
  s.upd fun m => if m.setupOk who then m.keyProg (slot.val + 512) else m

def execKeyProgDone (s : State) : Host.Outcome State Fault Refusal := s.upd (·.keyDone)

def execProtSeal (who : Writer) (s : State) : Host.Outcome State Fault Refusal :=
  s.upd fun m => if m.setupOk who then m.seal else m

end Sys2Proof.Machine
end

