-- ==== Sys2Proof/Machine/Intr.lean ====
section
/-! DEFINITION. The commands of the interrupt controller (11 R385-R407). -/

namespace Sys2Proof.Machine

/-- The target number of a core. -/
def coreNo : Core → Nat
  | .v => 0
  | .c => 1

/-- The number of a port. -/
def portNo : Port → Nat
  | .a => 0
  | .b => 1

def execInterruptEntry (core : Core) (arrivals : List (Fin 6 × Src)) (s : State) : Host.Outcome State Fault Refusal :=
  s.upd (·.intEntry (coreNo core) (arrivals.map (·.2.val)))

def execHandlerMret (core : Core) (s : State) : Host.Outcome State Fault Refusal := s.upd (·.intReturn (coreNo core))

/-- A port may write one record every 40 ns while its queue has room (R399). -/
def execQueueRecordWrite (p : Port) (s : State) : Host.Outcome State Fault Refusal :=
  s.upd fun m =>
    if m.runs islMgmt ∧ m.runs (islHostA + portNo p) ∧ !m.queueFull (portNo p) ∧ m.due .queueRecord (portNo p) then m.queueWrite (portNo p) else m

def execHoldoffExpire (g : Grp) (s : State) : Host.Outcome State Fault Refusal := s.upd (·.holdExpire g.val)

/-- A write of INT_SWSET: only the numbers 416-511 act (R405). -/
def execIntSwset (who : Writer) (n : Src) (s : State) : Host.Outcome State Fault Refusal :=
  s.upd fun m => if m.sysWr who ∧ 416 ≤ n.val then m.occur n.val else m

def execIntClrpend (who : Writer) (w : Word) (s : State) : Host.Outcome State Fault Refusal :=
  s.upd fun m => if m.sysWr who then m.clrPend w.toNat else m

/-- A wake-enabled source occurs in sleep (R404). -/
def execWakeSource (n : Src) (s : State) : Host.Outcome State Fault Refusal :=
  s.upd fun m => if m.asleep ∧ m.canWake n.val then m.occur n.val else m

end Sys2Proof.Machine
end

