-- ==== Sys2Proof/Machine/Lattice.lean ====
section
/-! DEFINITION. The commands of the seed lattices (05 R183-R197). -/

namespace Sys2Proof.Machine

/-- A lattice's cluster runs and is not in its safe state, where its outputs stop (R27). -/
def Chip.latLive (m : Chip) (ch : Nat) : Bool := m.runs (clusterOf ch) && !m.safe (clusterOf ch)

/-! ## The 1 ms update (R190, R191) -/

/-- The command before and after its clamp: f_ff - 2 zeta w e - w w I, within f_ff (1 +- SLEW %). -/
def Chip.latCommand (m : Chip) (ch : Nat) : Int × Int :=
  let x := m.lat ch
  let ff := m.latCells ch x.vu
  let w := omegaOf (max 1 x.acts.bw) 10
  let c := ff - fxMul w x.e * 1414 / 1000 - fxMul (fxMul w w) x.integ
  let slew : Int := max 1 x.acts.slew
  let d := absI ff * slew / 100
  (c, clampI (ff - d) (ff + d) c)

/-- The output value o of a command (R191). -/
def Chip.latOut (m : Chip) (ch : Nat) (c : Int) : Int :=
  let x := (m.lat ch).acts
  clampI (-2147483648) 2147483647 ((c * x.oscale / 65536 + fx x.oofs + 2147483648) / fxOne)

/-- The output value goes its way: a word to the engine, or the duty from the next period on. -/
def Chip.latEmit (m : Chip) (ch : Nat) (o : Int) : Chip :=
  if m.rdB LAT_CFG_OUTSEL ch then m.setLat ch { m.lat ch with pwmOut := clampI 0 65535 o }
  else
    let e := m.rd LAT_OUT_UNIT ch
    if !m.feClock e ∨ (m.eng e).tx.length - tabGet m.cycle.words e 0 = 8 then m.latFlag ch LAT_FLAGS_OUT_OVF
    else m.feTxLattice e (ofSigned 32 o)

/-- The command of a lattice in ACQ or LOCK (R190), and its output. -/
def Chip.latDrive (m : Chip) (ch : Nat) : Chip :=
  let x := m.lat ch
  let (c, k) := m.latCommand ch
  let hold := (x.clampDir = -1 ∧ 0 < x.e) ∨ (x.clampDir = 1 ∧ x.e < 0)
  let m := (m.setLat ch { x with
    c := k, integ := if hold then x.integ else x.integ + x.e / 1000
    clampDir := if c < k then -1 else if k < c then 1 else 0 }).latNote ch
  let m := (m.wrFit LAT_C ch (k / 65536)).wrB LAT_STAT_SAT ch (c != k)
  m.latEmit ch (m.latOut ch k)

/-- The update of a lattice that is on: written settings take effect (R192), then the command; in a safe state outputs stand. -/
def Chip.latUpdate (m : Chip) (ch : Nat) : Chip :=
  let st := m.latState ch
  if st = latOff ∨ !m.due .lattice ch ∨ m.tb % 200000 ≠ 0 ∨ !m.runs (clusterOf ch) then m
  else
    let m := (m.stamp .lattice ch).latAdopt ch
    if m.safe (clusterOf ch) then m
    else if st = latAcq ∨ st = latLock then m.latDrive ch
    else m.latEmit ch (m.latOut ch 0)

def execLatticeUpdate (ch : Ch) (s : State) : Host.Outcome State Fault Refusal := s.upd (·.latUpdate ch.val)

/-! ## PWM (R191) -/

/-- A carrier period in TB. -/
def Chip.latPeriod (m : Chip) (ch : Nat) : Nat := 20000000 / max 1 (m.rd LAT_OUT_CARRIER ch)

/-- A period starts: on for o / 65536 of it. -/
def Chip.pwmPeriod (m : Chip) (ch : Nat) : Chip :=
  match m.latPwm ch with
  | none => m
  | some o =>
    let x := m.lat ch
    let st := m.latState ch
    let t := match x.periodTb with
      | some p => p + m.latPeriod ch
      | none => m.tb
    if (st ≠ latAcq ∧ st ≠ latLock) ∨ m.tb < t ∨ !m.latLive ch ∨ m.safe (clusterOf o) then m
    else
      let on := (2 * x.pwmOut.toNat * m.latPeriod ch + 65536) / 131072
      let m := m.setLat ch { x with periodTb := some t, offTb := if on = 0 then none else some (t + on) }
      m.pwmSet o (decide (on ≠ 0))

def execLatticePwmPeriod (ch : Ch) (s : State) : Host.Outcome State Fault Refusal := s.upd (·.pwmPeriod ch.val)

/-- The on-time of a period ends. -/
def Chip.pwmEnd (m : Chip) (ch : Nat) : Chip :=
  match m.latPwm ch, (m.lat ch).offTb with
  | some o, some t => if t ≤ m.tb then (m.setLat ch { m.lat ch with offTb := none }).pwmSet o false else m
  | _, _ => m

def execLatticePwmOff (ch : Ch) (s : State) : Host.Outcome State Fault Refusal := s.upd (·.pwmEnd ch.val)

/-! ## Enabling and states (R192-R194) -/

/-- The fields of LAT_CFG but EN. -/
def latCfgFields : List Field :=
  [LAT_CFG_TYPE, LAT_CFG_OUTSEL, LAT_CFG_GATE, LAT_CFG_NOSDS, LAT_CFG_LEARN, LAT_CFG_TRIM, LAT_CFG_FREE, LAT_CFG_CELLS, LAT_CFG_WHL, LAT_CFG_SDS]

/-- R192: the enable is refused, on the fields as the write would leave them. -/
def Chip.latRefused (m : Chip) (ch : Nat) : Bool :=
  let wh := m.rd LAT_CFG_WHL ch
  let sd := m.rd LAT_CFG_SDS ch
  let u := m.rd LAT_OUT_UNIT ch
  let os := m.latsOn.filter (· != ch)
  m.rd LAT_CFG_CELLS ch == 0 || m.rd LAT_PITCH_A ch == 0 || m.rd LAT_PITCH_B ch == 0 ||
    (m.rd WHL_CFG_MODE wh != 2 && m.rd WHL_CFG_MODE wh != 4) || os.any (fun c => m.rd LAT_CFG_WHL c == wh) ||
    (!m.rdB LAT_CFG_NOSDS ch && (decide (95 < sd) || os.any fun c => !m.rdB LAT_CFG_NOSDS c && m.rd LAT_CFG_SDS c == sd)) ||
    (!m.rdB LAT_CFG_OUTSEL ch && decide (31 < u)) ||
    (m.rdB LAT_CFG_OUTSEL ch && (u == ch || os.any (fun c => m.rdB LAT_CFG_OUTSEL c && m.rd LAT_OUT_UNIT c == u) ||
      (m.rd CH_CTL_MODE u != 0 && m.rd CH_CTL_MODE u != 3) || m.chOwner u != m.chOwner ch)) ||
    decide (96 ≤ os.length)

/-- A lattice is turned off. -/
def Chip.latDisable (m : Chip) (ch : Nat) : Chip :=
  let m := (m.pwmStop ch).wr LAT_CFG_EN ch 0
  ((m.setLat ch { errors := (m.lat ch).errors, tube := (m.lat ch).tube, trim := (m.lat ch).trim }).wr LAT_STAT_STATE ch latOff).wr LAT_C ch 0 |>.wr LAT_STAT_SAT ch 0

/-- The PWM output of a lattice that is turned on carries no gate action (R276). -/
def Chip.pwmTaken (m : Chip) (ch : Nat) : Chip :=
  match m.latPwm ch with
  | some o => (m.setChan o { m.chan o with gates := [] }).wr MAP_CH_STAT_QN o 0
  | none => m

/-- A write of LAT_CFG: while EN = 1 only EN is examined. -/
def Chip.latCfg (m : Chip) (ch w : Nat) : Chip :=
  if m.rdB LAT_CFG_EN ch then (if bitAt w 0 then m else m.latDisable ch)
  else
    let m := latCfgFields.foldl (fun m f => m.wrFrom f ch w) m
    if !bitAt w 0 then m
    else if m.latRefused ch then m.latFlag ch LAT_FLAGS_CFG_ERR
    else
      let t0 := m.rd LAT_TUBE_T0 ch
      let m := (m.setLat ch { errors := (m.lat ch).errors, tube := fx t0 }).latAdopt ch
      ((((m.wr LAT_CFG_EN ch 1).wr LAT_TUBE_L ch t0).wr LAT_TRIM ch 0).latTo ch latWait).pwmTaken ch

def execLatticeEnable (who : Writer) (ch : Ch) (w : Word) (s : State) : Host.Outcome State Fault Refusal :=
  s.upd fun m => if m.chOk who ch.val then m.latCfg ch.val w.toNat else m

/-- No phase-wheel edge for 4 expected intervals at c (R193). -/
def Chip.latStallEnd (m : Chip) (ch : Nat) : Chip :=
  let x := m.lat ch
  let st := m.latState ch
  let cells : Int := m.rd LAT_CFG_CELLS ch
  let tc : Int := m.whlTc (m.rd LAT_CFG_WHL ch)
  if (st = latAcq ∨ st = latLock) ∧ 0 < x.c ∧ 800000000 * fxOne * cells ≤ ((m.tb : Int) - x.edgeTb) * x.c * tc then m.latFail ch true else m

def execLatticeStall (ch : Ch) (s : State) : Host.Outcome State Fault Refusal := s.upd (·.latStallEnd ch.val)

/-- The way out of FAULT (R193). -/
def Chip.latFaultEnd (m : Chip) (ch : Nat) : Chip :=
  let x := m.lat ch
  let ended := if x.stalled then decide (x.faultTb + 1000 * msTb ≤ m.tb)
    else match x.usableFrom with
      | some t => decide (t + 100 * msTb ≤ m.tb)
      | none => false
  if m.latState ch = latFault ∧ ended then (m.latFlag ch LAT_FLAGS_FAULT_OUT).latTo ch latWait else m

def execLatticeFaultExit (ch : Ch) (s : State) : Host.Outcome State Fault Refusal := s.upd (·.latFaultEnd ch.val)

/-- LAT_CMD.TUBE_CLR (R194, R196). -/
def Chip.tubeClear (m : Chip) (ch : Nat) : Chip :=
  let x := m.lat ch
  let t0 := m.rd LAT_TUBE_T0 ch
  let m := (m.setLat ch { x with tube := fx t0 }).wr LAT_TUBE_L ch t0
  if m.latState ch = latOff then m else m.latStep ch (m.latCells ch (fxMul x.vu (fx t0 - x.tube) / 1000000))

def execTubeClr (who : Writer) (ch : Ch) (s : State) : Host.Outcome State Fault Refusal :=
  s.upd fun m => if m.chOk who ch.val then m.tubeClear ch.val else m

/-- LAT_CMD.TRIM_CLR (R194). -/
def Chip.trimClear (m : Chip) (ch : Nat) : Chip :=
  let x := m.lat ch
  let m := (m.setLat ch { x with trim := 0 }).wr LAT_TRIM ch 0
  if m.latState ch = latOff then m else m.latStep ch (-x.trim)

def execTrimClr (who : Writer) (ch : Ch) (s : State) : Host.Outcome State Fault Refusal :=
  s.upd fun m => if m.chOk who ch.val then m.trimClear ch.val else m

/-! ## Drops (R195, R197) -/

/-- The releases with the first that a test picks taken out. -/
def pickRelease (p : Release → Bool) (l : List Release) : Option (Release × List Release) :=
  match l with
  | [] => none
  | r :: rs => if p r then some (r, rs) else (pickRelease p rs).map fun q => (q.1, r :: q.2)

/-- A release window closes and is judged; a single drop whose landing error is not known yet stays until it is. -/
def Chip.windowEnd (m : Chip) (ch : Nat) : Chip :=
  let x := m.lat ch
  match pickRelease (fun r => !r.closed && decide (r.upto < m.tb)) x.releases with
  | none => m
  | some (r, rs) =>
    let keep := r.drops == 1 && r.eps.isNone
    (m.setLat ch { x with releases := if keep then { r with closed := true } :: rs else rs }).latJudge ch r

def execDropWindowEnd (ch : Ch) (s : State) : Host.Outcome State Fault Refusal := s.upd (·.windowEnd ch.val)

/-- The landing error at the first tick after t_d + FALL. -/
def Chip.landing (m : Chip) (ch : Nat) : Chip :=
  let x := m.lat ch
  let due := fun r : Release => match r.firstDrop with
    | some td => r.drops == 1 && r.eps.isNone && decide (td + x.acts.fall * usTb < x.tick)
    | none => false
  match pickRelease due x.releases with
  | none => m
  | some (r, rs) =>
    let ε := fxWrap x.phi
    if r.closed then (m.setLat ch { x with releases := rs }).latLanded ch ε
    else m.setLat ch { x with releases := { r with eps := some ε } :: rs }

def execLandingEvaluation (ch : Ch) (s : State) : Host.Outcome State Fault Refusal := s.upd (·.landing ch.val)

end Sys2Proof.Machine
end

