-- ==== Sys2Proof/Machine/Train.lean ====
section
/-! DEFINITION. The commands of the spatial pulse trains (05 R173-R182, 08 R279). -/

namespace Sys2Proof.Machine

/-- The pulse point that the compare holds falls due at its own firing TB. -/
def Chip.trainFire (m : Chip) (ch : Nat) : Chip :=
  match m.dueHead ch, (m.chan ch).train with
  | some h, some t => if h.key < 16384 ∨ h.tb < m.trainCapTb ch t then m else m.pointFire ch t h
  | _, _ => m

def execTrainPulseFire (ch : Ch) (s : State) : Host.Outcome State Fault Refusal := s.upd (·.trainFire ch.val)

/-- The pulse point that the compare holds has waited for the cap. -/
def Chip.trainCap (m : Chip) (ch : Nat) : Chip :=
  match m.dueHead ch, (m.chan ch).train with
  | some h, some t => if h.key < 16384 ∨ m.trainCapTb ch t ≤ h.tb then m else m.capFire ch t h
  | _, _ => m

def execTrainRateLimitFire (ch : Ch) (s : State) : Host.Outcome State Fault Refusal := s.upd (·.trainCap ch.val)

/-- The width of a train pulse runs out (R175, R180). -/
def Chip.trainPulseEnd (m : Chip) (ch : Nat) : Chip :=
  match (m.chan ch).trainOff with
  | none => m
  | some t => if t ≤ m.chTb ch ∧ m.runs (clusterOf ch) then m.trainOffAt ch t else m

def execTrainPulseOff (ch : Ch) (s : State) : Host.Outcome State Fault Refusal := s.upd (·.trainPulseEnd ch.val)

/-- A write of TR_CMD.UPD (R179, R279). -/
def Chip.trainUpdate (m : Chip) (ch pitch width : Nat) : Chip :=
  match (m.chan ch).train with
  | none => m.setFlag TR_FLAGS ch TR_FLAGS_UPD_REF
  | some t =>
    if pitch < 256 ∨ width = 0 then m.setFlag TR_FLAGS ch TR_FLAGS_UPD_REF
    else
      let w := if m.rdB TR_CFG_PRX ch then t.width else width
      let t := { t with off := t.offset t.n, ph := 0, n := 0, pitch := pitch, width := w }
      let m := m.setChan ch { m.chan ch with train := some t }
      let m := (m.wr TR_RUN_PITCH ch pitch).wr TR_RUN_WIDTH ch w
      m.setFlag TR_FLAGS ch TR_FLAGS_UPD_DONE

def execTrainUpdate (who : Writer) (ch : Ch) (s : State) : Host.Outcome State Fault Refusal :=
  s.upd fun m => if m.chOk who ch.val then m.trainUpdate ch.val (m.rd TR_PITCH ch.val) (m.rd TR_WIDTH ch.val) else m

/-- The axis passes the end of the train's length (R180). -/
def Chip.trainEnd (m : Chip) (ch : Nat) : Chip :=
  match (m.chan ch).train with
  | none => m
  | some t =>
    if t.len ≠ 0 ∧ axDist (m.chAxis ch) t.tgt + fx (t.len * 256) < 0 then
      let m := m.strokeTrainEnd ch
      let m := m.setChan ch { m.chan ch with train := none, heads := (m.chan ch).heads.filter (·.key != 16384) }
      let m := ((m.wr TR_STAT_RUN ch 0).wr TR_STAT_SAT ch 0).wr TR_STAT_PAUSE ch 0
      (m.setFlag TR_FLAGS ch TR_FLAGS_TR_END).freeSlot t.idx
    else m

def execTrainLengthEnd (ch : Ch) (s : State) : Host.Outcome State Fault Refusal := s.upd (·.trainEnd ch.val)

end Sys2Proof.Machine
end

