-- ==== Sys2Proof/Machine/MapOps.lean ====
section
/-! DEFINITION. Operations of the map engine and the tile cache (08 R261-R286, R306). Points in mm, angles in 1/2^32 turn; values with 32
fraction bits where Fixed says so. -/

namespace Sys2Proof.Machine

/-! ## Tiles and cells (R261-R264, R269) -/

/-- A point lies in a tile. -/
def inField (e n : Int) : Bool := decide (-2097152000 ≤ e ∧ e ≤ 2097151999 ∧ -2097152000 ≤ n ∧ n ≤ 2097151999)

/-- The cache slots of a layer. -/
def layerSlots (layer : Nat) : List Nat := if layer = 0 then List.range 24 else (List.range 64).map (24 + ·)

/-- The slot that a tile occupies. -/
def Chip.tileSlot (m : Chip) (layer : Nat) (te tn : Int) : Option Nat :=
  (layerSlots layer).find? fun k => m.tileState k != 0 && m.tileTe k == te && m.tileTn k == tn

/-- The cells of a slot are known (R269); with the medium FAILED none is (R300). -/
def Chip.tileReads (m : Chip) (k : Nat) : Bool := let s := m.tileState k; (s == 2 || s == 3 || s == 4) && m.rd NC_STAT_MSTATE != 5

/-- A slot holds its tile. -/
def Chip.tileKnown (m : Chip) (k : Nat) : Bool := let s := m.tileState k; s == 2 || s == 3 || s == 4

/-- The byte offset and the bit of a coverage cell, by its row and column (R262). -/
def covByte (r c : Nat) : Nat := r * 160 + c / 4
def covBit (c : Nat) : Nat := 2 * (c % 4)

/-- The row and column of a point in a grid of cells of a size (R262, R263). -/
def cellOf (x : Int) (size : Nat) : Nat := ((x % 64000) / size).toNat

/-- A coverage cell: its state; 4 unknown in a tile that may still load, 5 unknown otherwise. -/
def Chip.covAt (m : Chip) (e n : Int) : Nat :=
  if !inField e n then 5
  else match m.tileSlot 0 (e / 64000) (n / 64000) with
    | none => 4
    | some k =>
      if m.tileReads k then (m.byte (tileBase k + covByte (cellOf n 100) (cellOf e 100))).toNat / 2 ^ covBit (cellOf e 100) % 4
      else if m.tileState k = 1 then 4 else 5

/-- The rate code at a point, and whether its tile may still load; fr is the free value for a tile that the medium holds and the cache
does not. -/
def Chip.rateAt (m : Chip) (fr : Nat) (e n : Int) : Nat × Bool :=
  if !inField e n then (fr, false)
  else match m.tileSlot 1 (e / 64000) (n / 64000) with
    | some k =>
      if m.tileReads k then ((m.byte (tileBase k + cellOf n 1000 * 64 + cellOf e 1000)).toNat, false)
      else (if (m.nandTile (m.tileKeyOf k)).isSome then fr else m.rd MAP_DEF_DEF_RATE, m.tileState k == 1)
    | none =>
      if (m.nandTile (tileKey 1 (e / 64000) (n / 64000))).isSome then (fr, true) else (m.rd MAP_DEF_DEF_RATE, false)

/-! ## The predicted track (R272) -/

/-- sin x / x for an angle x in radians, with 32 fraction bits. -/
def sinc (x : Int) : Int :=
  if absI x < 16777216 then fxOne - fxMul x x / 6 else sinTurn (ofSigned 32 (x * fxOne / fxTwoPi)) * fxOne / x

/-- The speed of an axis that the chassis alone gives it, in pu/s: v_c - y ω. -/
def Chip.trackV (m : Chip) (a : Nat) : Int := m.mdl.v - m.rdI AX_Y a * m.omegaPub * 256 / 1000000

/-- The nozzle of an axis after s pu of its travel: east and north in mm with 32 fraction bits, and the heading. An axis that the track does not
carry ahead stays where it is. -/
def Chip.trackAt (m : Chip) (a : Nat) (s : Int) : Int × Int × Nat :=
  let t := if 0 < m.trackV a then fx s * fxOne / m.trackV a else 0
  let half := fxMul m.omegaPub t / 2000000
  let mid := ofSigned 32 (m.psiPub + half * fxOne / fxTwoPi)
  let hdg := ofSigned 32 (m.psiPub + 2 * half * fxOne / fxTwoPi)
  let d := fxMul (fxMul m.mdl.v t / 256) (sinc half)
  let x := m.rdI AX_X a
  let y := m.rdI AX_Y a
  (m.mdl.e + fxMul d (cosTurn mid) + x * cosTurn hdg - y * sinTurn hdg,
   m.mdl.n + fxMul d (sinTurn mid) + x * sinTurn hdg + y * cosTurn hdg, hdg)

/-- What the five samples of a step show. -/
structure Look where
  closed : Bool
  covered : Nat
  excl : Bool
  rate : Nat
  miss : Bool
  range : Bool
deriving DecidableEq, Repr

/-- The width of a channel's swath, and its count of covered samples that closes the gate (R305). -/
def Chip.swath (m : Chip) (ch : Nat) : Nat := max 1 (m.rd MAP_CH_CFG_SWATH ch)
def Chip.ovlN (m : Chip) (ch : Nat) : Nat := clampN 1 5 (m.rd MAP_CH_CFG_OVL_N ch)

/-- The gate condition after s pu of travel (R272). -/
def Chip.lookAt (m : Chip) (ch a fr : Nat) (s : Int) : Look :=
  let (e, n, h) := m.trackAt a s
  let w : Int := m.swath ch
  let pts := (List.range 5).map fun k =>
    let o := ((2 * k + 1 : Nat) : Int) * w * fxOne / 10 - w * fxOne / 2
    (fxInt (e - fxMul o (sinTurn h)), fxInt (n + fxMul o (cosTurn h)))
  let cs := pts.map fun p => m.covAt p.1 p.2
  let (rate, late) := m.rateAt fr (fxInt e) (fxInt n)
  let unk := m.rdB MAP_CFG_UNK
  let excl := cs.any (fun c => c == 3 || (unk && decide (4 ≤ c))) || m.rdB MAP_RATE_OFF rate
  let cov := (cs.filter fun c => c == 1 || c == 2).length
  ⟨excl || decide (m.ovlN ch ≤ cov), cov, excl, rate, cs.any (· == 4) || late, pts.any fun p => !inField p.1 p.2⟩

/-- Bisection between two positions to within 16 pu (R273): the first position found at which a test differs from that at lo. -/
def bisect (p : Int → Bool) (lo hi : Int) (fuel : Nat) : Int :=
  match fuel with
  | 0 => hi
  | k + 1 =>
    if hi - lo ≤ 16 then hi
    else
      let mid := (lo + hi) / 2
      if p mid then bisect p mid hi k else bisect p lo mid k

/-- A step of the scan, in pu: 50 mm of axis travel. -/
def scanStep : Int := 12800

/-- The steps of the scan (R272). -/
def Chip.scanSteps (m : Chip) : Nat := max 100 (m.rd MAP_CFG_LOOK) / 50

/-- The boundaries ahead: travel to each, and whether its action opens; at most four. -/
def Chip.boundaries (m : Chip) (ch a fr : Nat) (was : Bool) (k left room : Nat) : List (Int × Bool) :=
  match left with
  | 0 => []
  | j + 1 =>
    let s := scanStep * (k : Nat)
    let now := (m.lookAt ch a fr (s + scanStep)).closed
    if room = 0 then []
    else if now = was then m.boundaries ch a fr was (k + 1) j room
    else (bisect (fun x => (m.lookAt ch a fr x).closed == was) s (s + scanStep) 12, !now) :: m.boundaries ch a fr now (k + 1) j (room - 1)

/-- The next rate code ahead, and the travel to it (R279). -/
def Chip.nextRate (m : Chip) (ch a fr rate : Nat) (k left : Nat) : Option (Int × Nat) :=
  match left with
  | 0 => none
  | j + 1 =>
    let s := scanStep * (k : Nat)
    let r := (m.lookAt ch a fr (s + scanStep)).rate
    if r = rate then m.nextRate ch a fr rate (k + 1) j
    else some (bisect (fun x => (m.lookAt ch a fr x).rate == rate) s (s + scanStep) 12, r)

/-- Every step of the scan. -/
def Chip.looks (m : Chip) (ch a fr : Nat) : List Look := (List.range (m.scanSteps + 1)).map fun k => m.lookAt ch a fr (scanStep * (k : Nat))

/-! ## Gates (R271-R277) -/

/-- The gate of a channel takes a state; the output follows (R275), and the stroke of a running train ends at a closed gate (R281). -/
def Chip.gateSet (m : Chip) (ch : Nat) (opens : Bool) (t : Nat) : Chip :=
  let m := (m.wrB MAP_CH_STAT_GATE ch opens).outApply ch t
  if opens then m else m.strokeCut ch

/-- Gate actions pend as they stand. -/
def Chip.gatePend (m : Chip) (ch : Nat) (gs : List Gate) : Chip :=
  (m.setChan ch { m.chan ch with gates := gs }).wr MAP_CH_STAT_QN ch gs.length

/-- The pending gate actions of a channel are discarded, and its gate is set (R271). -/
def Chip.gateDrop (m : Chip) (ch : Nat) (opens : Bool) : Chip :=
  let m := m.gatePend ch []
  let m := m.setChan ch { m.chan ch with gateDone := [] }
  { m with map := { m.map with scans := tabDrop m.map.scans (· == ch) } }.gateSet ch opens m.tb

/-- Gating may act on a channel: it is no PWM output of a lattice (R276). -/
def Chip.gateable (m : Chip) (ch : Nat) : Bool := (m.pwmUser ch).isNone

/-- A write of 0 to GATE_EN or MAP_CFG.EN for a channel (R271). -/
def Chip.gateDisable (m : Chip) (ch : Nat) : Chip := if m.gateable ch then m.gateDrop ch true else m

/-- A write of 0 to MAP_CFG.EN acts on each channel that gating is enabled for; write-back has no tick behind it any more. -/
def Chip.gatesOff (m : Chip) : Chip :=
  (List.range 192).foldl (fun m c => if m.rdB MAP_CH_CFG_GATE_EN c then m.gateDisable c else m) { m with map := { m.map with points := [] } }

/-- Gating acts on a channel: it is enabled, and the channel is no PWM output of a lattice (R271, R276). -/
def Chip.gated (m : Chip) (ch : Nat) : Bool := m.rdB MAP_CFG_EN && m.rdB MAP_CH_CFG_GATE_EN ch && m.gateable ch

/-- A gate action ahead has fired before: its type, within one step of the scan. -/
def Chip.gateWas (m : Chip) (ch : Nat) (g : Gate) : Bool :=
  (m.chan ch).gateDone.any fun d => d.opens == g.opens && decide (absI (posDiff d.at_ g.at_) ≤ scanStep)

/-- The lookahead record of a channel (R306). -/
def lookBase (ch : Nat) : Nat := 0xC38000 + ch * 0x80

/-- The gate actions in the lookahead record. -/
def gateBytes (g : Gate) : List Byte := leBytes 5 g.at_ ++ [BitVec.ofNat 8 (b2n g.opens + 2 * b2n g.late + 128), 0, 0]

def Chip.lookGates (m : Chip) (ch : Nat) (gs : List Gate) : Chip :=
  m.store (lookBase ch) (gs.flatMap gateBytes ++ List.replicate (8 * (4 - gs.length)) 0)

/-- The rest of the lookahead record: the nozzle, the TB, the rate codes, the width of R279. -/
def Chip.lookNozzle (m : Chip) (ch : Nat) (e n : Int) (t rate next : Nat) : Chip :=
  m.store (lookBase ch + 0x20) (leBytes 4 (ofSigned 32 e) ++ leBytes 4 (ofSigned 32 n) ++ leBytes 8 t ++ leBytes 1 rate ++ leBytes 1 next ++
    leBytes 2 (min 65535 (m.rd MAP_RATE_WIDTH rate * m.rd MAP_CH_CFG_WSCALE ch / 8)))

/-- A scan of one channel that takes part (R272, R273, R279). -/
def Chip.scanTrack (m : Chip) (ch a fr t : Nat) : Chip :=
  let here := m.lookAt ch a fr 0
  let all := m.looks ch a fr
  let pos := (m.axis a).posInt
  let at_ := fun (s : Int) => ofSigned 40 ((pos : Int) + s)
  let gs := (m.boundaries ch a fr here.closed 0 m.scanSteps 4).map fun b => (⟨at_ b.1, b.2, false, none⟩ : Gate)
  let next := m.nextRate ch a fr here.rate 0 m.scanSteps
  let width := match next with
    | none => none
    | some (s, r) => if m.rd MAP_RATE_WIDTH r = 0 then none else some (m.rd MAP_RATE_WIDTH r * m.rd MAP_CH_CFG_WSCALE ch / 128, at_ s)
  let (e, n, _) := m.trackAt a 0
  let m := if all.any (·.miss) then (m.count MAP_CNT_MISS 0).mapFlag MAP_FLAGS_MISS else m
  let m := if all.any (·.range) then m.mapFlag MAP_FLAGS_RANGE else m
  let m := ((m.wr MAP_CH_STAT_RATE ch here.rate).wr MAP_CH_STAT_COVN ch here.covered).wrB MAP_CH_STAT_EXCL ch here.excl
  let m := m.lookNozzle ch (fxInt e) (fxInt n) t here.rate (match next with
    | some (_, r) => r
    | none => here.rate)
  { m with map := { m.map with scans := tabPut m.map.scans ch ⟨t, gs, width⟩ } }

/-- A scan of one channel (R271). -/
def Chip.scanCh (m : Chip) (fr t ch : Nat) : Chip :=
  let a := m.rd CH_AXIS_AX ch
  if !m.gated ch then m
  else if m.axKind a ≠ 1 ∨ !m.rdB MDL_STAT_FIELD_OK then m.gateDrop ch (!m.rdB MAP_CFG_NOFIELD)
  else if m.rd AX_STAT_STATE a = 1 ∧ !m.rdB AX_STAT_DIR a ∧ fx 25600 ≤ (m.axis a).v then m.scanTrack ch a fr t
  else m

/-- The figures of MAP_STAT at a scan. -/
def Chip.mapStat (m : Chip) : Chip :=
  let m := ((m.wrB MAP_STAT_ACTIVE 0 (m.rdB MAP_CFG_EN)).wrB MAP_STAT_FIELD 0 (m.rdB MDL_STAT_FIELD_OK)).wrB MAP_STAT_DR 0
    (m.rdB MAP_CFG_EN && m.rdB MDL_STAT_FIELD_OK && !m.rdB MDL_STAT_POSE_CUR)
  let m := m.wr MAP_STAT_CT_USED 0 ((layerSlots 0).filter fun k => m.tileState k != 0).length
  m.wr MAP_STAT_PT_USED 0 ((layerSlots 1).filter fun k => m.tileState k != 0).length

/-- A scan, at the TB multiples of 5 ms, on the prediction tick of that TB (R271). -/
def Chip.mapScan (m : Chip) : Chip :=
  if m.runs islMap ∧ m.runs islObserver ∧ m.rdB MAP_CFG_EN ∧ m.due .mapScan ∧ m.tb % 1000000 = 0 ∧ m.tickAt = m.tb then
    let (x, m) := m.free
    let m := ((m.stamp .mapScan).wr MAP_SCAN_TB_LO 0 m.tb).mapStat
    (List.range 192).foldl (Chip.scanCh · (x % 256).toNat m.tb) m
  else m

/-- A width from the map for a running train; one whose position the axis has passed is in force for the next point (R279). -/
def Chip.widthCommit (m : Chip) (ch : Nat) (w : Option (Nat × Nat)) : Chip :=
  match (m.chan ch).train with
  | none => m
  | some t =>
    if m.rdB TR_CFG_PRX ch ∧ m.rdB MAP_CH_CFG_PRX_EN ch then
      let passed := match t.nextWidth with
        | some (_, p) => decide (posDiff p (m.chAxis ch).posInt ≤ 0)
        | none => false
      let m := if passed then m.trainWidth ch t else m
      match (m.chan ch).train with
      | none => m
      | some t => if w.isSome ∨ !passed then m.setChan ch { m.chan ch with train := some { t with nextWidth := w } } else m
    else m

/-- The commit of a scan (R273): the new set replaces the pending one; an action whose fire point lies behind the axis fires at once, late
(R274), and one that has fired is not set again. -/
def Chip.gateCommit (m : Chip) (ch : Nat) : Chip :=
  match tabFind m.map.scans ch with
  | none => m
  | some k =>
    if !m.runs islMap ∨ !m.runs islAxis then m
    else
      let x := m.chan ch
      let ax := m.chAxis ch
      let m := m.setChan ch { x with gateDone := x.gateDone.filter fun d => decide (0 ≤ posDiff d.at_ ax.posInt) }
      let m := { m with map := { m.map with scans := tabDrop m.map.scans (· == ch) } }
      let set := k.gates.map fun g =>
        let f := fireDist ax.v ax.a (axDist ax g.at_) (if g.opens then m.rd CH_ADV_USED ch else (m.chan ch).close)
        match f with
        | some f => if f ≤ 0 then { g with late := true, fireTb := some m.tb } else m.gateConvert ch g
        | none => m.gateConvert ch g
      let gs := set.filter fun g => !m.gateWas ch g
      ((m.gatePend ch gs).lookGates ch k.gates).widthCommit ch k.width

/-- The gate action of a channel that falls due next; one that is not late needs its axis in RUN (R274). -/
def Chip.gateDue (m : Chip) (ch : Nat) : Option Gate :=
  let run := m.rd AX_STAT_STATE (m.rd CH_AXIS_AX ch) == 1
  (sortBy (fun g h : Gate => decide (g.fireTb.getD 0 ≤ h.fireTb.getD 0))
    ((m.chan ch).gates.filter fun g => (run || g.late) && g.fireTb.any fun t => decide (t ≤ m.chTb ch))).head?

/-- The entry of the lookahead record of an action that fired late (R306). -/
def Chip.lookLate (m : Chip) (ch : Nat) (g : Gate) : Chip :=
  (List.range 4).foldl (fun m i =>
    let b := lookBase ch + 8 * i
    if m.loadNat b 5 = g.at_ ∧ (m.byte (b + 5)).toNat % 2 = b2n g.opens ∧ 128 ≤ (m.byte (b + 5)).toNat then
      m.store (b + 5) [BitVec.ofNat 8 (b2n g.opens + 130)] else m) m

/-- A gate action fires (R274, R275), after what falls due on the channel by its TB (R277). -/
def Chip.gateFire (m : Chip) (ch : Nat) : Chip :=
  if !m.canFire ch || !m.gateable ch then m
  else match m.gateDue ch with
    | none => m
    | some g =>
      let m := m.dueAll ch (g.fireTb.getD m.tb) 400
      let m := m.gatePend ch ((m.chan ch).gates.filter fun h => h != g)
      let m := m.setChan ch { m.chan ch with gateDone := g :: (m.chan ch).gateDone }
      let m := if g.late then ((m.count MAP_CNT2_LATE_GATE 0).mapFlag MAP_FLAGS_LATE_GATE).lookLate ch g else m
      let cuts := !g.opens && m.rdB CH_STAT_OUT ch
      let m := m.gateSet ch g.opens (g.fireTb.getD m.tb)
      if cuts then m.count MAP_CH_CNT_CLOSES ch else m

/-! ## Coverage write-back (R281-R284) -/

/-- A mark in a coverage cell of a slot: the new state of the cell. -/
def marked (s : Nat) : Nat := if s = 0 then 1 else if s = 1 then 2 else s

/-- A cell of a coverage slot changes; a tile that changes is dirty (R266). -/
def Chip.covPut (m : Chip) (k r c v : Nat) : Chip :=
  let a := tileBase k + covByte r c
  let old := (m.byte a).toNat / 2 ^ covBit c % 4
  if old = v then m
  else
    let m := m.store a [BitVec.ofNat 8 ((m.byte a).toNat - old * 2 ^ covBit c + v * 2 ^ covBit c)]
    if m.tileState k = 2 then m.wr MAP_CT_STAT_STATE k 3
    else if m.tileState k = 4 then { m with map := { m.map with tiles := tabPut m.map.tiles k { tabGet m.map.tiles k {} with changed := true } } }
    else m

/-- The cell with its centre at a point is marked, or the mark is dropped; the flag says that one was. -/
def Chip.covMark (m : Chip) (ch : Nat) (e n : Int) (dropped : Bool) : Bool × Chip :=
  let slot := if inField e n then m.tileSlot 0 (e / 64000) (n / 64000) else none
  match slot with
  | none => (true, m)
  | some k =>
    if !m.tileKnown k then (true, m)
    else
      let r := cellOf n 100
      let c := cellOf e 100
      let old := (m.byte (tileBase k + covByte r c)).toNat / 2 ^ covBit c % 4
      (dropped, (m.covPut k r c (marked old)).wr MAP_CH_AREA ch (m.rd MAP_CH_AREA ch + 1))

/-- A point between two, at num / den of the way. -/
def between (a b : WbPoint) (num den : Nat) : WbPoint :=
  let den := max 1 den
  { e := a.e + (b.e - a.e) * num / den
    n := a.n + (b.n - a.n) * num / den
    hdg := ofSigned 32 (a.hdg + toSigned 32 (ofSigned 32 ((b.hdg : Int) - (a.hdg : Int))) * num / den)
    pos := ofSigned 40 (a.pos + posDiff b.pos a.pos * num / den)
    axis := a.axis }

/-- The signed distance of a point along a heading from a swath line, and its lateral offset. -/
def alongOf (p : WbPoint) (e n : Int) : Int := fxMul (e - p.e) (cosTurn p.hdg) + fxMul (n - p.n) (sinTurn p.hdg)
def acrossOf (p : WbPoint) (e n : Int) : Int := fxMul (n - p.n) (cosTurn p.hdg) - fxMul (e - p.e) (sinTurn p.hdg)

/-- A cell centre lies within the band between two swath lines (R282). -/
def inBand (a b : WbPoint) (w : Nat) (e n : Int) : Bool :=
  decide (0 ≤ alongOf a e n) && decide (alongOf b e n < 0) && decide (-(fx w) / 2 ≤ acrossOf a e n) && decide (acrossOf a e n < fx w / 2)

/-- The cells of a box, in rows of 100 mm, whose centres lie in the band. -/
def bandCells (a b : WbPoint) (w : Nat) : List (Int × Int) :=
  let reach : Int := fx (w / 2 + 200)
  let col := fun (x : Int) => fxInt x / 100
  let e0 := col (minI a.e b.e - reach)
  let n0 := col (minI a.n b.n - reach)
  let ec := (col (maxI a.e b.e + reach) - e0).toNat + 1
  let nc := (col (maxI a.n b.n + reach) - n0).toNat + 1
  (List.range nc).flatMap fun (j : Nat) => (List.range ec).filterMap fun (i : Nat) =>
    let e := (e0 + i) * 100 + 50
    let n := (n0 + j) * 100 + 50
    if inBand a b w (fx e) (fx n) then some (e, n) else none

/-- The part of an interval that a stroke covers. -/
def strokeSpan (k : Stroke) (a b : WbPoint) (t0 t1 : Nat) : Option (WbPoint × WbPoint) :=
  let s := max t0 k.start
  let u := min t1 (k.stop.getD t1)
  if u ≤ s then none else some (between a b (s - t0) (t1 - t0), between a b (u - t0) (t1 - t0))

/-- The part of an interval that a stroke marks: what lies beyond the highest position that it has reached (R283). -/
def strokeBand (k : Stroke) (a b : WbPoint) (t0 t1 : Nat) : Option (WbPoint × WbPoint) :=
  match strokeSpan k a b t0 t1 with
  | none => none
  | some (pa, pb) =>
    let h := k.high.getD pa.pos
    if posDiff pb.pos h ≤ 0 ∨ posDiff pb.pos pa.pos ≤ 0 then none
    else if posDiff h pa.pos ≤ 0 then some (pa, pb)
    else some (between pa pb (posDiff h pa.pos).toNat (posDiff pb.pos pa.pos).toNat, pb)

/-- The further of two axis positions. -/
def further (p q : Nat) : Nat := if 0 < posDiff q p then q else p

/-- The stroke after a tick: the highest position it has reached. -/
def strokeAfter (k : Stroke) (span : Option (WbPoint × WbPoint)) : Stroke :=
  match span with
  | none => k
  | some (a, b) => { k with high := some (further (further (k.high.getD a.pos) a.pos) b.pos) }

/-- One stroke over one tick. -/
def Chip.strokeMark (m : Chip) (ch : Nat) (a b : WbPoint) (t0 t1 : Nat) (k : Stroke) (dropped : Bool) : Bool × Chip :=
  match strokeBand k a b t0 t1 with
  | none => (dropped, m)
  | some (p, q) => (bandCells p q (m.swath ch)).foldl (fun (r : Bool × Chip) c => r.2.covMark ch c.1 c.2 r.1) (dropped, m)

/-- Write-back of one channel over the interval since the previous tick; the stroke in the making goes on where it has no end yet. A tick at
which write-back does not act on the channel, or without a field position, leaves no point to go on from. -/
def Chip.writeCh (m : Chip) (t0 t1 ch : Nat) : Chip :=
  let a := m.rd CH_AXIS_AX ch
  let ax := m.axis a
  let here : WbPoint := ⟨ax.fe, ax.fn, m.psiPub, ax.posInt, a⟩
  let prev := (tabFind m.map.points ch).filter fun p => p.axis == a
  let x := m.chan ch
  let live := x.strokes ++ x.stroke.toList
  if !m.rdB MAP_CH_CFG_WB_EN ch ∨ m.axKind a ≠ 1 ∨ !m.rdB MDL_STAT_FIELD_OK then
    { m with map := { m.map with points := tabDrop m.map.points (· == ch) } }
  else
    let r := match prev with
      | some p => if m.rdB AX_STAT_DIR a then (false, m)
        else live.foldl (fun (r : Bool × Chip) k => r.2.strokeMark ch p here t0 t1 k r.1) (false, m)
      | none => (false, m)
    let m := if r.1 then (r.2.count MAP_CNT_COV_DROP 0).mapFlag MAP_FLAGS_COV_DROP else r.2
    let open_ := fun (k : Stroke) => match k.stop with
      | none => true
      | some u => decide (t1 < u)
    let keep := fun (k : Stroke) => match prev with
      | some p => strokeAfter k (strokeSpan k p here t0 t1)
      | none => k
    let cur := match x.stroke with
      | some k => if open_ k then some (keep k) else none
      | none => none
    let m := m.setChan ch { m.chan ch with stroke := cur, strokes := (x.strokes.filter open_).map keep }
    let m := m.wrB MAP_CH_STAT_STROKE ch cur.isSome
    { m with map := { m.map with points := tabPut m.map.points ch here } }

/-! ## The tile cache (R266-R268, R285, R286) -/

def Chip.tileSt (m : Chip) (k : Nat) : TileSt := tabGet m.map.tiles k {}
def Chip.setTileSt (m : Chip) (k : Nat) (x : TileSt) : Chip := { m with map := { m.map with tiles := tabPut m.map.tiles k x } }
def Chip.setTileState (m : Chip) (k v : Nat) : Chip := if k < 24 then m.wr MAP_CT_STAT_STATE k v else m.wr MAP_PT_STAT_STATE (k - 24) v
def Chip.setTileVer (m : Chip) (k v : Nat) : Chip := if k < 24 then m.wr MAP_CT_STAT_VER k v else m.wr MAP_PT_STAT_VER (k - 24) v
def Chip.setTileReq (m : Chip) (k : Nat) (v : Bool) : Chip := if k < 24 then m.wrB MAP_CT_STAT_REQ k v else m.wrB MAP_PT_STAT_REQ (k - 24) v
def Chip.tileReq (m : Chip) (k : Nat) : Bool := if k < 24 then m.rdB MAP_CT_STAT_REQ k else m.rdB MAP_PT_STAT_REQ (k - 24)

/-- The bytes of a slot, as cells from offset 0. -/
def cellsOf (mem : List Host.Cell) (lo n : Nat) : List Host.Cell :=
  (mem.filter fun c => decide (lo ≤ c.1 ∧ c.1 < lo + n)).map fun c => (c.1 - lo, c.2)

/-- The bytes of a slot replaced by cells from offset 0. -/
def Chip.setCells (m : Chip) (lo n : Nat) (cs : List Host.Cell) : Chip :=
  cs.foldl (fun m c => m.store (lo + c.1) [c.2]) (m.clearMem lo n)

/-- The cells of a tile as its layer creates it. -/
def Chip.createCells (m : Chip) (k : Nat) : List Host.Cell :=
  let b := m.createByte (tileLayer k)
  if b = 0 then [] else (List.range (tileBytes k)).map fun o => (o, b)

/-- A tile load completes (R266). -/
def Chip.loadDone (m : Chip) (k : Nat) (bad : Bool) : Chip :=
  if m.tileState k ≠ 1 then m
  else if bad || m.tileGone (m.tileKeyOf k) then (m.setTileState k 5).mapFlag MAP_FLAGS_TILE_LOST
  else
    let m := match m.nandTile (m.tileKeyOf k) with
      | some t => (m.setCells (tileBase k) (tileBytes k) t.cells).setTileVer k t.ver
      | none => (m.setCells (tileBase k) (tileBytes k) (m.createCells k)).setTileVer k 0
    ((m.setTileSt k {}).setTileState k 2).mapFlag MAP_FLAGS_TILE_LOADED

/-- The flush period in TB (R304). -/
def Chip.flushTb (m : Chip) : Nat := (if m.rd MAP_CFG_FLUSH_S = 0 then 1 else m.rd MAP_CFG_FLUSH_S) * 1000 * msTb

/-- MOUNT with EN = 0 is flushing every dirty tile (R340). -/
def Chip.unmounting (m : Chip) : Bool := m.mbox.any fun p => match p.2.run with
  | some r => r.op == 0x0601
  | none => false

/-- The medium takes writes (R300). -/
def Chip.writable (m : Chip) : Bool := let s := m.rd NC_STAT_MSTATE; s == 1 || s == 2 || s == 3

/-- The target that a new object goes to: both where they are mirrored (R299), a free value where both are in use and not mirrored. -/
def Chip.pickTarget (m : Chip) : Nat × Chip :=
  if m.rdB NC_STAT_T0_OK && m.rdB NC_STAT_T1_OK then
    if m.rdB NC_CFG_MIRROR then (2, m) else let (x, m) := m.free; ((x % 2).toNat, m)
  else (if m.rdB NC_STAT_T0_OK then 0 else 1, m)

/-- The day of operation. -/
def Chip.today (m : Chip) : Nat := m.tb / (86400 * 1000 * msTb)

/-- Erases, grown bad blocks and bytes programmed counted for the day (R301, NC_WRITES); of the days before, the last 30 with any write are kept. -/
def Chip.nandDay (m : Chip) (er bad by_ : Nat) : Chip :=
  let d := m.nand.days
  let new := match d with
    | (x, y, z) :: r => if m.nand.day = m.today then (x + er, y + bad, z + by_) :: r else (er, bad, by_) :: (d.filter (0 < ·.2.2)).take 30
    | [] => [(er, bad, by_)]
  { m with nand := { m.nand with days := new, day := m.today } }

/-- The data bytes of a page (R307). -/
def Chip.pageBytes (m : Chip) : Nat := 4096 * 2 ^ m.rd NC_GEOM_PAGE

/-- The codewords of an object of n data bytes with its header of 64, and its pages (R290). -/
def codewordsOf (n : Nat) : Nat := (n + 64 + 1023) / 1024
def Chip.pagesHold (m : Chip) (codewords : Nat) : Nat := let k := m.pageBytes / 1024; (codewords + k - 1) / k
def Chip.pagesOf (m : Chip) (n : Nat) : Nat := m.pagesHold (codewordsOf n)

/-- A tile commits (R296): its version is one more than the last. -/
def Chip.tileCommit (m : Chip) (key : Nat) (cells : List Host.Cell) (bytes : Nat) : Nat × Chip :=
  let v := match tabFind m.nand.tiles key with
    | some t => t.ver + 1
    | none => 1
  let (t, m) := m.pickTarget
  (v, { m with nand := { m.nand with tiles := tabPut m.nand.tiles key ⟨v, cells, t⟩ } }.nandDay 0 0 (m.pagesOf bytes * m.pageBytes * if t = 2 then 2 else 1))

/-- A flush commits, or the medium refuses it (R266). -/
def Chip.flushEnd (m : Chip) (k : Nat) (ok : Bool) : Chip :=
  if m.tileState k ≠ 4 then m
  else if ok && m.writable then
    let x := m.tileSt k
    let (v, m) := m.tileCommit (m.tileKeyOf k) x.copy (tileBytes k)
    (((m.setTileVer k v).setTileState k (if x.changed then 3 else 2)).setTileSt k { x with copy := [], changed := false }).mapFlag MAP_FLAGS_TILE_FLUSHED
  else ((m.setTileState k 3).setTileSt k { m.tileSt k with copy := [], changed := false }).mapFlag MAP_FLAGS_FLUSH_FAIL

/-- Two coverage bytes merged, cell by cell: excluded, else the sum of the treatments, at most two (R286). -/
def mergeByte (x y : Nat) : Nat :=
  (List.range 4).foldl (fun a i =>
    let p := x / 4 ^ i % 4
    let q := y / 4 ^ i % 4
    a + (if p = 3 ∨ q = 3 then 3 else min 2 (p + q)) * 4 ^ i) 0

/-- A tile's cells after a host load over what it held: replaced, or merged cell by cell in a coverage layer (R286). -/
def loadCells (layer : Nat) (merge : Bool) (old new : List Host.Cell) : List Host.Cell :=
  if merge && layer == 0 then old.foldl (fun cs c => memPut cs c.1 (BitVec.ofNat 8 (mergeByte c.2.toNat (memGet new c.1).toNat))) new else new

/-- The cells of a tile as the cache holds it, else as last committed. -/
def Chip.tileCells (m : Chip) (layer : Nat) (te tn : Int) : List Host.Cell :=
  match (m.tileSlot layer te tn).filter m.tileKnown with
  | some k => cellsOf m.mem (tileBase k) (tileBytes k)
  | none => match m.nandTile (tileKey layer te tn) with
    | some t => t.cells
    | none => []

/-- The version register of a slot. -/
def Chip.tileVer (m : Chip) (k : Nat) : Nat := if k < 24 then m.rd MAP_CT_STAT_VER k else m.rd MAP_PT_STAT_VER (k - 24)

/-- A host load is applied to the slot that holds its tile (R286); one that was loaded since the commit holds it already. -/
def Chip.loadApply (m : Chip) (l : TileLoad) : Chip :=
  match m.tileSlot l.layer l.te l.tn with
  | none => m
  | some k =>
    if !m.tileKnown k ∨ m.tileVer k = l.ver % 65536 then m
    else
      let cells := loadCells l.layer l.merge (cellsOf m.mem (tileBase k) (tileBytes k)) l.cells
      let ver := match m.nandTile (m.tileKeyOf k) with
        | some t => t.ver
        | none => l.ver
      let m := (m.setCells (tileBase k) (tileBytes k) cells).setTileVer k ver
      if k < 24 then
        if m.tileState k = 2 then m.setTileState k 3
        else if m.tileState k = 4 then m.setTileSt k { m.tileSt k with changed := true }
        else m
      else m

/-- Every host load that has committed is applied at a tick. -/
def Chip.loadsApply (m : Chip) : Chip := m.map.loads.foldl Chip.loadApply { m with map := { m.map with loads := [] } }

/-- A write-back tick (R282); host loads that have committed are applied first (R286). -/
def Chip.writeBack (m : Chip) : Chip :=
  if m.runs islMap ∧ m.runs islObserver ∧ m.rdB MAP_CFG_EN ∧ m.due .writeback then
    let t0 := m.map.wbTb
    let m := if m.gelow.up ∧ m.runs islMgmt then m.loadsApply else m
    let m := (List.range 192).foldl (Chip.writeCh · t0 m.tb) (m.stamp .writeback)
    { m with map := { m.map with wbTb := m.tb } }
  else m

/-- The distance of a point from a tile, squared, in mm². -/
def tileDist2 (te tn e n : Int) : Int :=
  let gap := fun (x lo : Int) => if x < lo then lo - x else if lo + 63999 < x then x - lo - 63999 else 0
  let a := gap e (te * 64000)
  let b := gap n (tn * 64000)
  a * a + b * b

/-- The field positions of the axes of KIND 1 in RUN (R267). -/
def Chip.nozzles (m : Chip) : List (Int × Int) :=
  if !m.rdB MDL_STAT_FIELD_OK then []
  else (m.axes.filter fun p => m.axKind p.1 == 1 && m.rd AX_STAT_STATE p.1 == 1).map fun p => (fxInt p.2.fe, fxInt p.2.fn)

/-- The tiles within 32 m of a point. -/
def nearTiles (e n : Int) : List (Int × Int) :=
  let te := e / 64000
  let tn := n / 64000
  ([-1, 0, 1].flatMap fun (i : Int) => [-1, 0, 1].map fun (j : Int) => (te + i, tn + j)).filter fun t =>
    decide (tileDist2 t.1 t.2 e n ≤ 32000 * 32000) && inField (t.1 * 64000) (t.2 * 64000)

/-- A list with each element once. -/
def once {α : Type} [DecidableEq α] (l : List α) : List α := l.foldl (fun a x => if a.contains x then a else a ++ [x]) []

/-- The least distance of a tile from the nozzles, and from the chassis reference. -/
def nozzleDist (ps : List (Int × Int)) (t : Int × Int) : Int :=
  ps.foldl (fun d p => minI d (tileDist2 t.1 t.2 p.1 p.2)) (2 ^ 63)
def Chip.implDist (m : Chip) (te tn : Int) : Int := tileDist2 te tn (fxInt m.mdl.e) (fxInt m.mdl.n)

/-- The required set, nearest first (R267). -/
def Chip.required (m : Chip) : List (Int × Int) :=
  let ps := m.nozzles
  let ts := once (ps.flatMap fun p => nearTiles p.1 p.2)
  sortBy (fun x y => decide (nozzleDist ps x ≤ nozzleDist ps y)) ts

/-- The tiles that the implement's heading enters next: those on the line ahead, one step of half a tile at a time. -/
def Chip.aheadTiles (m : Chip) : List (Int × Int) :=
  if m.nozzles = [] then []
  else
    let h := m.psiPub
    (once ((List.range 200).map fun k =>
      let d : Int := ((k + 1 : Nat) : Int) * 32000
      (fxInt (m.mdl.e + d * cosTurn h) / 64000, fxInt (m.mdl.n + d * sinTurn h) / 64000))).filter fun t => inField (t.1 * 64000) (t.2 * 64000)

/-- The tiles that the cache of a layer is to hold: those required, nearest first, then those ahead, as many as it has slots (R267). -/
def Chip.wanted (m : Chip) (layer : Nat) : List (Int × Int) := (once (m.required ++ m.aheadTiles)).take (if layer = 0 then 24 else 64)

/-- The flush of a dirty coverage tile starts: at its period, before its eviction (R285), or before an unmount. -/
def Chip.flushStart (m : Chip) (k : Nat) : Chip :=
  let x := m.tileSt k
  if m.gelow.up ∧ m.runs islMap ∧ m.tileState k = 3 ∧ (x.flushTb + m.flushTb ≤ m.tb ∨ !(m.wanted 0).contains (m.tileTe k, m.tileTn k) ∨ m.unmounting) then
    (m.setTileSt k { copy := cellsOf m.mem (tileBase k) (tileBytes k), changed := false, flushTb := m.tb }).setTileState k 4
  else m

/-- A slot of a layer that a tile may take: a free one, else the clean or lost one farthest from the implement that is not wanted. -/
def Chip.slotFor (m : Chip) (layer : Nat) (need : List (Int × Int)) : Option Nat :=
  match (layerSlots layer).find? fun k => m.tileState k == 0 with
  | some k => some k
  | none =>
    ((layerSlots layer).filter fun k => (m.tileState k == 2 || m.tileState k == 5) && !need.contains (m.tileTe k, m.tileTn k)).foldl
      (fun (b : Option Nat) k => match b with
        | none => some k
        | some j => if m.implDist (m.tileTe j) (m.tileTn j) < m.implDist (m.tileTe k) (m.tileTn k) then some k else some j) none

/-- A slot is assigned a tile and loads it. -/
def Chip.assign (m : Chip) (k : Nat) (te tn : Int) : Chip :=
  let m := if k < 24 then (m.wrI MAP_CT_POS_TE k te).wrI MAP_CT_POS_TN k tn else (m.wrI MAP_PT_POS_TE (k - 24) te).wrI MAP_PT_POS_TN (k - 24) tn
  ((m.setTileVer k 0).setTileSt k {}).setTileState k 1

/-- A tile that no slot holds is assigned one, where a slot may be had. -/
def Chip.want (m : Chip) (layer : Nat) (need : List (Int × Int)) (t : Int × Int) : Chip :=
  if (m.tileSlot layer t.1 t.2).isSome then m
  else match m.slotFor layer need with
    | none => m
    | some k => m.assign k t.1 t.2

/-- The cache of one layer at a tick: required tiles first, then those ahead (R267). -/
def Chip.cacheLayer (m : Chip) (layer : Nat) : Chip :=
  let req := m.required
  let m := (layerSlots layer).foldl (fun m k => m.setTileReq k (m.tileState k != 0 && req.contains (m.tileTe k, m.tileTn k))) m
  let need := m.wanted layer
  let m := need.foldl (fun m t => m.want layer need t) m
  (layerSlots layer).foldl (fun m k => m.setTileReq k (m.tileState k != 0 && req.contains (m.tileTe k, m.tileTn k))) m

/-- Gelow's management of the cache at a tick (R267); with no medium there is nothing to load from. -/
def Chip.cacheTick (m : Chip) : Chip :=
  if !m.runs islMap ∨ m.rd NC_STAT_MSTATE = 0 ∨ m.rd NC_STAT_MSTATE = 5 then m
  else
    let m := (m.cacheLayer 0).cacheLayer 1
    let req := m.required
    let m := if 24 < req.length then m.mapFlag MAP_FLAGS_CACHE_FULL else m
    let miss := (req.filter fun t => match m.tileSlot 0 t.1 t.2 with
      | none => true
      | some k => !m.tileKnown k).length
    (m.wr MAP_STAT_REQ_MISS 0 (min 15 miss)).mapStat

end Sys2Proof.Machine
end

