-- ==== Sys2Proof/Machine/Wear.lean ====
section
/-! DEFINITION. The wear model, the capacitor model and their commands (07 R254-R256). -/

namespace Sys2Proof.Machine

/-- The least-squares slope of points, as a numerator and a denominator that is not negative. -/
def slopeOf (ps : List (Int × Int)) : Int × Int :=
  let n : Int := (ps.length : Nat)
  let sx := ps.foldl (fun a p => a + p.1) 0
  let sy := ps.foldl (fun a p => a + p.2) 0
  let sxx := ps.foldl (fun a p => a + p.1 * p.1) 0
  let sxy := ps.foldl (fun a p => a + p.1 * p.2) 0
  (n * sxy - sx * sy, n * sxx - sx * sx)

/-- The sum of a list. -/
def sumOf (l : List Nat) : Nat := l.foldl (· + ·) 0

/-! ## Wear (R254, R255); inputs in TB -/

/-- Means in TB: of the last 4096 inputs, and of the first 10,000 once they are complete. -/
def Wear.mu (w : Wear) : Nat := sumOf w.last / max 1 w.last.length
def Wear.mu0 (w : Wear) : Option Nat := if 10000 ≤ w.inputs then some (w.sum0 / 10000) else none

/-- The RMS of the last inputs about their mean, in TB. -/
def Wear.sigma (w : Wear) : Nat :=
  let m : Int := w.mu
  isqrt (w.last.foldl (fun (a x : Nat) => a + (((x : Int) - m) * ((x : Int) - m)).toNat) 0 / max 1 w.last.length)

/-- A figure over its limit, in %; a limit of 0 is passed by any figure. -/
def overLimit (x lim : Nat) : Nat := if lim = 0 then (if x = 0 then 0 else 255) else 100 * x / (lim * usTb)

/-- W: 0 until the first mean is complete. -/
def Wear.index (w : Wear) : Nat :=
  match w.mu0 with
  | none => 0
  | some m0 => min 255 (max (overLimit (w.mu - m0 + (m0 - w.mu)) w.dLim) (overLimit w.sigma w.sLim))

/-- One input. -/
def Wear.feed (w : Wear) (day x : Nat) : Wear :=
  let w := { w with
    inputs := w.inputs + 1
    sum0 := if w.inputs < 10000 then w.sum0 + x else w.sum0
    last := (x :: w.last).take 4096
    days := match w.days with
      | d :: r => if w.day = day then (d + 1) :: r else (1 :: d :: r).take 30
      | [] => [1]
    day := day }
  if w.inputs % 250000 = 0 then { w with marks := ((w.inputs, w.index) :: w.marks).take 16 } else w

/-- N_rem, where a slope gives it. -/
def Wear.remaining (w : Wear) : Option Nat :=
  let (num, den) := slopeOf (w.marks.map fun p => ((p.1 : Int), (p.2 : Int)))
  if w.marks.length < 2 ∨ num ≤ 0 then none
  else if 100 ≤ w.index then some 0
  else some ((((100 - w.index : Nat) : Int) * den) / num).toNat

/-- The days that N_rem lasts. -/
def Wear.daysLeft (w : Wear) : Option Nat :=
  match w.remaining with
  | none => none
  | some n => if sumOf w.days = 0 then none else some (n * w.days.length / sumOf w.days)

def Chip.wearOf (m : Chip) (ch : Nat) : Wear := tabGet m.wear ch {}

/-- The registers of a channel's wear model. -/
def Chip.wearPublish (m : Chip) (ch : Nat) : Chip :=
  let w := m.wearOf ch
  let x := w.index
  let st := if w.mu0.isNone then 0 else if x < 80 then 1 else if x < 100 then 2 else 3
  let cap := fun (o : Option Nat) (k : Nat) => match o with
    | none => 65535
    | some n => min 65535 (n / k)
  let m := ((m.wr DG_WEAR0_W ch x).wr DG_WEAR0_WSTATE ch st).wr DG_WEAR0_NREM ch (cap w.remaining 10000)
  let m := (m.wr DG_WEAR1_MU ch (min 65535 (w.mu / usTb))).wr DG_WEAR1_SIGMA ch (min 65535 (w.sigma / usTb))
  (m.wr DG_WEAR2_MU0 ch (min 65535 (w.mu0.getD 0 / usTb))).wr DG_WEAR2_EOL_DAYS ch (cap w.daysLeft 1)

/-- Gelow takes the inputs of a channel (R254). -/
def Chip.wearTake (m : Chip) (ch : Nat) : Chip :=
  let d := m.drv ch
  if d.wearIn = [] then m
  else
    let day := m.today
    let w := d.wearIn.foldl (fun w x => w.feed day x) (m.wearOf ch)
    ({ m.setDrv ch { d with wearIn := [] } with wear := tabPut m.wear ch w }).wearPublish ch

/-- The wear states saved (R255). -/
def Chip.wearSave (m : Chip) : Chip :=
  if m.gelow.up ∧ m.runs islMgmt ∧ m.writable ∧ m.due .wearSave then
    ({ m with nand := { m.nand with wear := m.wear, bcap := m.bcap.base } }.nandDay 0 0 65536).stamp .wearSave
  else m

def execWearSave (s : State) : Host.Outcome State Fault Refusal := s.upd (·.wearSave)

/-! ## The capacitor bank (R256) -/

/-- Boost operation so far, in TB. -/
def Chip.boostOp (m : Chip) : Nat :=
  m.bcap.runAcc + match m.bcap.runFrom with
    | some t => m.tb - t
    | none => 0

/-- A minute of boost operation, in TB. -/
def minuteTb : Nat := 60 * 1000 * msTb

/-- ESR in mΩ of the latest boost phase that began from HSS: STEP in 10 mV, C_NODE in nF, voltages in 10 mV. -/
def Chip.esrNow (m : Chip) : Option Nat :=
  match m.bcap.phase with
  | none => none
  | some (b, step) =>
    let d := m.rd BCAP_CFG_C_NODE * (m.rd BST_V - m.rd BK_V_VBK b)
    if d = 0 then none else some (step * 2000000 / d)

/-- t_r / ΔV with 32 fraction bits. -/
def Chip.ratioNow (m : Chip) : Option Nat := if m.rd BST_DROOP_DROOP = 0 then none else some (m.rd BST_RCHG * 2 ^ 32 / m.rd BST_DROOP_DROOP)

/-- The mean of a list. -/
def meanOf (l : List Nat) : Nat := sumOf l / max 1 l.length

/-- Steps until a trend reaches a limit; none where it does not lead there. -/
def trendTo (now lim : Int) (s : Int × Int) : Option Nat :=
  if 0 < (lim - now) * s.1 then some (((lim - now) * s.2) / s.1).toNat else none

/-- BCAP_EOL in hours: 0 once a limit is reached, 0xFFFF where neither trends toward its limit. -/
def bcapEol (hist : List (Nat × Nat)) (esr0 : Nat) : Nat :=
  match hist with
  | [] => 65535
  | (e, c) :: _ =>
    if c < 800 ∨ 2 * esr0 < e then 0
    else
      let n := hist.length
      let xs := (List.range n).map fun i => ((n - i : Nat) : Int)
      let te := trendTo e (2 * esr0) (slopeOf (xs.zip (hist.map fun p => (p.1 : Int))))
      let tc := trendTo c 800 (slopeOf (xs.zip (hist.map fun p => (p.2 : Int))))
      match te, tc with
      | some a, some b => min 65534 (min a b / 60)
      | some a, none => min 65534 (a / 60)
      | none, some b => min 65534 (b / 60)
      | none, none => 65535

/-- One computation; until the baseline is complete it only gathers. -/
def Chip.bcapStep (m : Chip) (vbat : Nat) : Chip :=
  let b := { m.bcap with last := m.boostOp }
  let esr := m.esrNow.getD (m.rd BCAP_ESR_ESR)
  let m := m.wr BCAP_ESR_ESR 0 (min 65535 esr)
  match m.ratioNow, b.base with
  | none, _ => { m with bcap := b }
  | some r, none =>
    let b := { b with esrs := b.esrs ++ m.esrNow.toList, ratios := b.ratios ++ [r], vbats := b.vbats ++ [vbat] }
    if m.boostOp < b.from_ + 60 * minuteTb then { m with bcap := b }
    else
      let base := (meanOf b.esrs, meanOf b.ratios, meanOf b.vbats)
      { m with bcap := { b with base := some base, esrs := [], ratios := [], vbats := [] } }.wr BCAP_ESR_BASE 0 (min 65535 base.1)
  | some r, some (e0, r0, v0) =>
    let c := if r0 * v0 = 0 then 65535 else min 65535 (1000 * r * vbat / (r0 * v0))
    let hist := ((esr, c) :: b.hist).take 3000
    ({ m with bcap := { b with hist := hist } }.wr BCAP_C 0 c).wr BCAP_EOL 0 (bcapEol hist e0)

/-- Every 60 s of boost operation. -/
def Chip.bcapCompute (m : Chip) (vbat : Nat) : Chip :=
  if m.gelow.up ∧ m.runs islMgmt ∧ m.bcap.last + minuteTb ≤ m.boostOp then m.bcapStep vbat else m

def execBcapCompute (vbatMv : Nat) (s : State) : Host.Outcome State Fault Refusal := s.upd (·.bcapCompute vbatMv)

end Sys2Proof.Machine
end

