-- ==== Sys2Proof/Machine/Nand.lean ====
section
/-! DEFINITION. The medium and its manager: mount, operations, refresh, patrol, levelling, failures and end of life (08 R287-R301). -/

namespace Sys2Proof.Machine

/-! ## Targets -/

def Chip.target (m : Chip) (t : Nat) : NTarget := if t = 0 then m.nand.t0 else m.nand.t1
def Chip.setTarget (m : Chip) (t : Nat) (x : NTarget) : Chip :=
  if t = 0 then { m with nand := { m.nand with t0 := x } } else { m with nand := { m.nand with t1 := x } }

/-- The targets in use that have not failed. -/
def Chip.targets (m : Chip) : List Nat := [0, 1].filter fun t => m.inUse t && (m.target t).ok

/-- The spare reserve of a target: 2 % of its good blocks at its first mount; what remains of it (R292). -/
def NTarget.reserve (t : NTarget) : Nat := 2 * (t.blocks - (t.bad.length - t.grown)) / 100
def NTarget.spare (t : NTarget) : Nat := t.reserve - t.grown

/-- The good blocks of a target, and their erase counts. -/
def NTarget.good (t : NTarget) : Nat := t.blocks - t.bad.length
def NTarget.goodEc (t : NTarget) : List Nat := (t.ec.filter fun p => !t.bad.contains p.1).map (·.2)

/-- Totals over the targets in use. -/
def Chip.sumLive (m : Chip) (f : NTarget → Nat) : Nat := (m.targets.map fun t => f (m.target t)).foldl (· + ·) 0

/-- The mean erase count of good blocks. -/
def Chip.ecMean (m : Chip) : Nat := m.sumLive (fun t => sumOf t.goodEc) / max 1 (m.sumLive NTarget.good)

/-- Rated endurance (R307). -/
def Chip.endurance (m : Chip) : Nat := m.rd NC_ENDUR

/-! ## Medium states (R300) -/

/-- MSTATE of a mounted medium: the highest code whose condition holds. -/
def Chip.mstateNow (m : Chip) : Nat :=
  let use := [0, 1].filter m.inUse
  let spare := m.sumLive NTarget.spare
  let first := (use.map fun t => (m.target t).reserve).foldl (· + ·) 0
  if m.targets = [] then 5
  else if spare = 0 ∨ m.nand.logFail then 4
  else if 4 * spare < first ∨ (m.rdB NC_CFG_MIRROR ∧ m.targets.length < use.length) then 3
  else if 80 ≤ m.rd NC_EOL_USED ∨ 2 * spare < first then 2
  else 1

/-- MSTATE takes a value; a change sets STATE_CHG. -/
def Chip.mstate (m : Chip) (v : Nat) : Chip :=
  if m.rd NC_STAT_MSTATE = v then m else (m.wr NC_STAT_MSTATE 0 v).ncFlag NC_FLAGS_STATE_CHG

/-- The figures of the medium, and its state, while it is mounted. -/
def Chip.medium (m : Chip) : Chip :=
  let m := (m.wrB NC_STAT_T0_OK 0 (m.targets.contains 0)).wrB NC_STAT_T1_OK 0 (m.targets.contains 1)
  let m := (m.wr NC_BLK_GOOD 0 (m.sumLive NTarget.good)).wr NC_SPARE 0 (m.sumLive NTarget.spare)
  let m := m.wr NC_EC_MAX 0 ((m.targets.flatMap fun t => (m.target t).goodEc).foldl max 0)
  let m := m.wr NC_EC_MEAN 0 m.ecMean
  if m.rdB NC_CFG_EN ∧ m.rd NC_STAT_MSTATE ≠ 0 then m.mstate m.mstateNow else m

/-! ## Mount (R288, R289, R299) -/

/-- The spare bytes that a page of some data bytes needs, the first of codeword k's metadata, and that of its parity: bytes 0 and 1 are 0xFF,
then 2 bytes of metadata and 70 of parity for each codeword of 1024 (R290). -/
def spareNeed (data : Nat) : Nat := 2 + 72 * (data / 1024)
def spareMeta (k : Nat) : Nat := 2 + 72 * k
def spareParity (k : Nat) : Nat := spareMeta k + 2

/-- The timing mode that a target runs at: the highest that it announces, capped by NC_CFG.TMODE, of which 6 and 7 act as 5 (R287, R307). -/
def Chip.nandMode (m : Chip) (t : Nat) : Nat := min (m.target t).maxMode (min 5 (m.rd NC_CFG_TMODE))

/-- A target is accepted. -/
def NandPage.accepted (p : NandPage) : Bool :=
  p.crcOk && p.bitsPerCell == 1 && p.luns == 1 && decide (p.gbit ≤ 64) &&
    (p.pageBytes == 4096 || p.pageBytes == 8192 || p.pageBytes == 16384) && decide (spareNeed p.pageBytes ≤ p.spareBytes) &&
    decide (p.tRus ≤ 50) && decide (p.tProgUs ≤ 1000) && decide (p.tBersUs ≤ 10000) && decide (2 ≤ p.maxMode)

/-- A target is mounted, or fails; the first mount builds its bad-block table from the factory marks. Blocks found cut short are erased before
their first use. -/
def Chip.mountTarget (m : Chip) (t : Nat) (p : Option NandPage) (cut : List NandCut) : Chip :=
  match p.filter NandPage.accepted with
  | none => (m.setTarget t { m.target t with ok := false }).ncFlag NC_FLAGS_TARGET_FAIL
  | some p =>
    let x := m.target t
    let x := if x.blocks = 0 then { x with bad := (p.factoryBad.filter (· < p.blocks)).eraseDups } else x
    let torn := ((cut.filter fun c => c.target.val == t && decide (c.block < p.blocks)).map (·.block)).filter fun b => !x.torn.contains b
    m.setTarget t { x with ok := true, blocks := p.blocks, endurance := p.endurance, maxMode := p.maxMode, torn := x.torn ++ torn }

/-- The geometry registers, from the first target that is mounted. -/
def Chip.geometry (m : Chip) (ps : List (Option NandPage)) : Chip :=
  match ps.findSome? fun p => p.filter NandPage.accepted with
  | none => m
  | some p =>
    let m := (m.wr NC_GEOM_PAGE 0 (p.pageBytes / 8192)).wr NC_GEOM_PPB 0 p.log2Ppb
    (m.wr NC_GEOM2_BLOCKS 0 p.blocks).wr NC_ENDUR 0 p.endurance

/-- The wear models and the capacitor baseline that the medium keeps, where Gelow holds none that is further on (R255, R256). -/
def Chip.wearRestore (m : Chip) : Chip :=
  let m := m.nand.wear.foldl (fun m p =>
    if (m.wearOf p.1).inputs < p.2.inputs ∧ !(m.wearOf p.1).cleared then { m with wear := tabPut m.wear p.1 p.2 }.wearPublish p.1 else m) m
  match m.bcap.base, m.nand.bcap with
  | none, some b => { m with bcap := { m.bcap with base := some b } }.wr BCAP_ESR_BASE 0 (min 65535 b.1)
  | _, _ => m

/-- NC_CFG.EN has been written 1: the mount of the medium ends. -/
def Chip.nandMount (m : Chip) (p0 p1 : Option NandPage) (cut : List NandCut) : Chip :=
  if !m.rdB NC_CFG_EN ∨ m.rd NC_STAT_MSTATE ≠ 0 ∨ !m.gelow.up ∨ !m.runs islMgmt then m
  else
    let m := m.wr NC_ECC_MAXC_ALL 0 0
    let m := m.mountTarget 0 p0 cut
    let m := if m.inUse 1 then m.mountTarget 1 p1 cut else m
    let m := (m.geometry (if m.inUse 1 then [p0, p1] else [p0])).medium
    let m := m.mstate m.mstateNow
    let m := if cut.any fun c => !c.erase && m.targets.contains c.target.val then m.ncFlag NC_FLAGS_PWR_CUT else m
    if m.targets = [] then m
    else { m with nand := { m.nand with roundTb := m.tb, roundMax := 0 } }.wearRestore.ncFlag NC_FLAGS_MOUNTED

/-- EN has been written 0: every target leaves its use. -/
def Chip.nandUnmount (m : Chip) : Chip :=
  let m := m.wr NC_CFG_EN 0 0
  let m := { m with nand := { m.nand with t0 := unmounted m.nand.t0, t1 := unmounted m.nand.t1, logFail := false } }
  ((m.wr NC_STAT_T0_OK 0 0).wr NC_STAT_T1_OK 0 0).mstate 0

/-! ## Operations (R291, R292) -/

/-- The threshold of a refresh (R307). -/
def Chip.refreshThr (m : Chip) : Nat := min 39 (m.rd NC_CFG_REFRESH_THR)

/-- A block of a target in use, and good. -/
def Chip.blockOk (m : Chip) (t b : Nat) : Bool := m.targets.contains t && decide (b < (m.target t).blocks) && !(m.target t).bad.contains b

/-- A block has grown bad; its valid data has been moved. -/
def Chip.grownBad (m : Chip) (t b : Nat) : Chip :=
  let x := m.target t
  let m := m.setTarget t { x with
    bad := b :: x.bad, grown := x.grown + 1, queue := x.queue.filter (· != b), used := x.used.filter (· != b), unsure := x.unsure.filter (· != b)
    hot := tabDrop x.hot (· == b) }
  ((m.nandDay 0 1 0).ncFlag NC_FLAGS_GROWN_BAD).medium

/-! ### Erased blocks (R294) -/

def NTarget.ecOf (x : NTarget) (b : Nat) : Nat := tabGet x.ec b 0

/-- The erased blocks of a target: good, erased to their end, and not programmed since. -/
def NTarget.erased (x : NTarget) : List Nat :=
  (List.range x.blocks).filter fun b => !x.bad.contains b && !x.torn.contains b && !x.used.contains b

/-- The erased block with the lowest erase count, which takes the next write; that with the highest, which takes the data of a levelling move. -/
def NTarget.lowest (x : NTarget) : Option Nat :=
  x.erased.foldl (fun (a : Option Nat) b => match a with
    | none => some b
    | some c => if x.ecOf b < x.ecOf c then some b else a) none
def NTarget.highest (x : NTarget) : Option Nat :=
  x.erased.foldl (fun (a : Option Nat) b => match a with
    | none => some b
    | some c => if x.ecOf c < x.ecOf b then some b else a) none

/-- A block takes data. -/
def Chip.blockUse (m : Chip) (t : Nat) (b : Option Nat) : Chip :=
  match b with
  | none => m
  | some b =>
    let x := m.target t
    if x.used.contains b then m else m.setTarget t { x with used := b :: x.used }

/-- A write may go to a block: one that holds data takes its next pages, an erased one only where no other has a lower erase count. -/
def NTarget.mayProgram (x : NTarget) (b : Nat) : Bool := x.used.contains b || x.erased.all fun c => decide (x.ecOf b ≤ x.ecOf c)

/-- The reaction to a codeword read: its corrected bits, or none where it is uncorrectable (R291). -/
def Chip.codeword (m : Chip) (t b : Nat) (corrected : Option Nat) : Chip :=
  match corrected.filter (· ≤ 40) with
  | none => (m.count NC_CNT_UNCORR 0).ncFlag NC_FLAGS_UNCORR
  | some c =>
    let m := m.wr NC_ECC_MAXC_ALL 0 (max (m.rd NC_ECC_MAXC_ALL) c)
    if c ≤ m.refreshThr then m
    else
      let x := m.target t
      let m := if x.queue.contains b then m else m.setTarget t { x with queue := x.queue ++ [b] }
      (m.count NC_CNT_REFRESH 0).ncFlag NC_FLAGS_REFRESH

/-- The reads of a block, since its last erase, above which it is patrolled within 60 s (R295, R307). -/
def Chip.readLimit (m : Chip) : Nat := max 1 (m.rd NC_PATROL_RD_LIM) * 1000

/-- A block is read once more since its last erase. -/
def Chip.blockRead (m : Chip) (t b : Nat) : Chip :=
  let x := m.target t
  let n := tabGet x.reads b 0 + 1
  m.setTarget t { x with reads := tabPut x.reads b n, hot := if n = m.readLimit + 1 then tabPut x.hot b m.tb else x.hot }

/-- A codeword of a write is read back: it is good with at most REFRESH_THR corrected bits, else it is written again elsewhere, and the second
such failure in one block makes it a grown bad block (R292, R296). -/
def Chip.verifyEnd (m : Chip) (t b : Nat) (corrected : Option Nat) : Chip :=
  let m := m.blockRead t b
  let m := match corrected.filter (· ≤ 40) with
    | some c => m.wr NC_ECC_MAXC_ALL 0 (max (m.rd NC_ECC_MAXC_ALL) c)
    | none => m
  let x := m.target t
  if corrected.any (· ≤ m.refreshThr) then m
  else if x.unsure.contains b then m.grownBad t b
  else m.setTarget t { x with unsure := b :: x.unsure }

/-- A read, a program or an erase has ended. -/
def Chip.nandDone (m : Chip) (t : Nat) (e : NandEnd) : Chip :=
  match e with
  | .read b c => if m.blockOk t b then (m.blockRead t b).codeword t b c else m
  | .verify b c => if m.blockOk t b then m.verifyEnd t b c else m
  | .program b failed =>
    if !m.blockOk t b || (m.target t).torn.contains b || !(m.target t).mayProgram b then m
    else
      let m := m.blockUse t (some b)
      if failed then (m.ncFlag NC_FLAGS_PROG_FAIL).grownBad t b else m
  | .erase b failed =>
    if !m.blockOk t b then m
    else if failed then (m.ncFlag NC_FLAGS_ERASE_FAIL).grownBad t b
    else
      let x := m.target t
      ((m.setTarget t { x with
        torn := x.torn.filter (· != b), ec := tabPut x.ec b (x.ecOf b + 1), reads := tabDrop x.reads (· == b), used := x.used.filter (· != b)
        hot := tabDrop x.hot (· == b) }).nandDay 1 0 0).medium
  | .log failed => if m.targets.contains t && failed then { m with nand := { m.nand with logFail := true } }.medium else m

def execNandOperationDone (t : Fin 2) (e : NandEnd) (s : State) : Host.Outcome State Fault Refusal :=
  s.upd fun m => if m.runs islMgmt then m.nandDone t.val e else m

/-- The block queued first is refreshed: its valid data goes to another block; an uncorrectable codeword makes it a grown bad block. -/
def Chip.nandRefresh (m : Chip) (t : Nat) (uncorrectable : Bool) : Chip :=
  let x := m.target t
  match x.queue with
  | [] => m
  | b :: r =>
    if !m.blockOk t b || !m.writable || !m.runs islMgmt then m
    else
      let m := (m.setTarget t { x with queue := r }).blockUse t x.lowest
      if uncorrectable then (m.codeword t b none).grownBad t b else m

def execNandRefresh (t : Fin 2) (uncorrectable : Bool) (s : State) : Host.Outcome State Fault Refusal :=
  s.upd (·.nandRefresh t.val uncorrectable)

/-- The TB of a patrol round: NC_PATROL.HOURS hours (R295, R307). -/
def Chip.roundLen (m : Chip) : Nat := max 1 (m.rd NC_PATROL_HOURS) * 3600000 * msTb

/-- The patrol may read a block next: it is one read too often, or no such block of the target has waited for 60 s. -/
def Chip.patrolMay (m : Chip) (t b : Nat) : Bool :=
  let x := m.target t
  (tabFind x.hot b).isSome || x.hot.all fun p => decide (m.tb < p.2 + 60000 * msTb)

/-- The patrol reads a page of a block; the last page of a round ends it, once its hours have passed (R295). The progress between is a free
value. -/
def Chip.patrol (m : Chip) (t b : Nat) (corrected : Option Nat) (roundEnd : Bool) : Chip :=
  if !m.blockOk t b || !m.runs islMgmt || !m.patrolMay t b then m
  else
    let m := (m.blockRead t b).codeword t b corrected
    let x := m.target t
    let m := m.setTarget t { x with hot := tabDrop x.hot (· == b) }
    let m := match corrected.filter (· ≤ 40) with
      | some c => { m with nand := { m.nand with roundMax := max m.nand.roundMax c } }
      | none => m
    if roundEnd ∧ m.nand.roundTb + m.roundLen ≤ m.tb then
      let m := (m.wr NC_ECC_MAXC_ROUND 0 m.nand.roundMax).wr NC_PROG_ROUND 0 0
      { m with nand := { m.nand with roundMax := 0, roundTb := m.tb } }.ncFlag NC_FLAGS_PATROL_DONE
    else
      let (x, m) := m.free
      m.wr NC_PROG_ROUND 0 (x % 10001).toNat

def execNandPatrolRead (t : Fin 2) (block : Nat) (corrected : Option Nat) (roundEnd : Bool) (s : State) :
    Host.Outcome State Fault Refusal := s.upd (·.patrol t.val block corrected roundEnd)

/-- The spread of erase counts over a target's good blocks. -/
def NTarget.spread (t : NTarget) : Nat :=
  let es := t.goodEc
  es.foldl max 0 - (if es.length < t.good then 0 else es.foldl min (es.headD 0))

/-- At most once per second, the data of the least-erased block moves to the most-erased erased one (R294). -/
def Chip.levelMove (m : Chip) (t : Nat) : Chip :=
  let x := m.target t
  if m.targets.contains t ∧ m.writable ∧ m.runs islMgmt ∧ m.due .nandWear ∧ max 1 (m.rd NC_CFG_WL_DELTA) < x.spread ∧ x.highest.isSome then
    (m.blockUse t x.highest).stamp .nandWear
  else m

def execNandWearLevelMove (t : Fin 2) (s : State) : Host.Outcome State Fault Refusal := s.upd (·.levelMove t.val)

/-- A target is failed (R299): loads from it end LOST. -/
def Chip.targetFail (m : Chip) (t : Nat) : Chip :=
  if m.targets.contains t ∧ m.runs islMgmt then
    let m := ((m.setTarget t { m.target t with ok := false }).ncFlag NC_FLAGS_TARGET_FAIL).medium
    (List.range 88).foldl (fun m k => if m.tileState k = 1 ∧ m.tileGone (m.tileKeyOf k) then m.loadDone k true else m) m
  else m

def execNandTargetFail (t : Fin 2) (s : State) : Host.Outcome State Fault Refusal := s.upd (·.targetFail t.val)

/-! ## End of life (R301, NC_WRITES) -/

/-- The days that an amount lasts at a total over some days; none where the rate is 0. -/
def lasts (amount total days : Nat) : Option Nat := if total = 0 then none else some (amount * days / total)

/-- Once every 24 hours. -/
def Chip.nandEol (m : Chip) : Chip :=
  if m.targets ≠ [] ∧ m.gelow.up ∧ m.runs islMgmt ∧ m.due .nandEol then
    let m := m.stamp .nandEol
    let d := (m.nand.days.filter (0 < ·.2.2)).take 30
    let good := max 1 (m.sumLive NTarget.good)
    let a := lasts ((m.endurance - m.ecMean) * good) (sumOf (d.map (·.1))) d.length
    let b := lasts (m.sumLive NTarget.spare) (sumOf (d.map (·.2.1))) d.length
    let eol := match a, b with
      | some a, some b => min 65534 (min a b)
      | some a, none => min 65534 a
      | none, some b => min 65534 b
      | none, none => 65535
    let m := (m.wr NC_EOL_EOL_DAYS 0 eol).wr NC_EOL_USED 0 (min 255 (100 * m.ecMean / max 1 m.endurance))
    (m.wr NC_WRITES 0 (sumOf (d.map (·.2.2)) / (max 1 d.length * 1000000))).medium
  else m

def execNandEolCompute (s : State) : Host.Outcome State Fault Refusal := s.upd (·.nandEol)

end Sys2Proof.Machine
end

