-- ==== Sys2Proof/Machine/Supply.lean ====
section
/-! DEFINITION. The commands of the rails, the supply monitor, supply loss, the boost input disconnect and the sensor supplies
(15 R504-R519, 10 R379). -/

namespace Sys2Proof.Machine

/-- The nominal level of VIO in mV (R505). -/
def Chip.vioMv (m : Chip) : Nat := if m.sys.vio33 then 3300 else 1800

/-- Every rail is at its level and NRST is high; the device leaves reset 200 µs later. -/
def Chip.railsUp (m : Chip) (r : Rails) (nrst : Bool) : Chip :=
  if m.sys.off ∧ nrst ∧ 780 ≤ r.vcore ∧ 1440 ≤ r.vio ∧ 4400 ≤ r.vana ∧ 6000 ≤ r.vbat then m.powerUp (decide (2500 < r.vio)) else m

def execPowerUp (r : Rails) (nrstHigh : Bool) (s : State) : Host.Outcome State Fault Refusal := s.upd (·.railsUp r nrstHigh)

/-- A rail has been below its loss level for 2 µs (R508). -/
def Chip.railsDown (m : Chip) (r : Rails) : Chip :=
  if !m.sys.off ∧ (r.vcore < 780 ∨ r.vio * 10 < m.vioMv * 8 ∨ r.vana < 4400 ∨ r.vbat < 6000) then m.powerOff else m

def execPowerLoss (r : Rails) (s : State) : Host.Outcome State Fault Refusal := s.upd (·.railsDown r)

/-- What sets a bit of SUPM_STAT, and what clears it (R507): a level in mV, held for a time in µs. LOSS is no such bit. -/
def Chip.supmSets (m : Chip) (b mv us : Nat) : Bool :=
  match b with
  | 0 => decide (mv < 7800 ∧ 100 ≤ us)
  | 1 => decide (38000 < mv ∧ 100 ≤ us)
  | 3 => decide (mv < 810 ∧ 10 ≤ us)
  | 4 => decide (mv * 10 < m.vioMv * 9 ∧ 10 ≤ us)
  | 5 => decide (mv < 4750 ∧ 10 ≤ us)
  | _ => false

def Chip.supmClears (m : Chip) (b mv us : Nat) : Bool :=
  decide (1000 ≤ us) && match b with
  | 0 => decide (8200 ≤ mv)
  | 1 => decide (mv ≤ 37000)
  | 3 => decide (830 ≤ mv)
  | 4 => decide (m.vioMv * 93 ≤ mv * 100)
  | 5 => decide (4800 ≤ mv)
  | _ => false

def Chip.supmChange (m : Chip) (b mv us : Nat) : Chip :=
  let st := m.rd SUPM_STAT
  if !m.powered then m
  else if bitAt st b then (if m.supmClears b mv us then m.wr SUPM_STAT 0 (clrBit st b) else m)
  else if m.supmSets b mv us then (m.wr SUPM_STAT 0 (setBit st b)).supmFlag b
  else m

def execSupplyMonitorChange (bit : Fin 6) (mv heldUs : Nat) (s : State) : Host.Outcome State Fault Refusal :=
  s.upd (·.supmChange bit.val mv heldUs)

/-- Loss detection is armed once VBSNS has stood at 8.0 V for 1 ms since the module reset (R510). -/
def execLossDetectArm (vbsnsMv heldUs : Nat) (s : State) : Host.Outcome State Fault Refusal :=
  s.upd fun m =>
    if m.powered ∧ 8000 ≤ vbsnsMv ∧ 1000 ≤ heldUs ∧ heldUs * usTb ≤ m.tb then { m with sys := { m.sys with armed := true } } else m

/-- The sequence of R379: compares stop, channels turn off, words are committed, the marker is written, the module resets. -/
def Chip.supplyLoss (m : Chip) : Chip :=
  let m := { m with sys := { m.sys with lossTb := some m.tb } }
  let m := (m.wr SUPM_STAT 0 (setBit (m.rd SUPM_STAT) 2)).supmFlag 2
  let m := { m with sup := m.sup.map fun (p : Nat × Supply) => (p.1, { p.2 with closed := false }) }
  let m := m.drain
  let m := { m with jour := { m.jour with marker := some (m.tbOf islMgmt) } }
  m.moduleReset .supply

def execSupplyLossDetection (vbsnsMv vbatMv heldUs : Nat) (s : State) : Host.Outcome State Fault Refusal :=
  s.upd fun m =>
    if m.powered ∧ m.sys.armed ∧ 2 ≤ heldUs ∧ (vbsnsMv < 7000 ∨ vbsnsMv + 2000 < vbatMv) then m.supplyLoss else m

/-- The disconnect opens (R515). -/
def execBoostDisconnectOpen (vbsnsMv : Nat) (s : State) : Host.Outcome State Fault Refusal :=
  s.upd fun m => if vbsnsMv < 6000 ∨ 40000 < vbsnsMv then { m with sys := { m.sys with disc := false } } else m

/-- The disconnect closes again (R515). -/
def execBoostDisconnectClose (vbsnsMv heldUs : Nat) (s : State) : Host.Outcome State Fault Refusal :=
  s.upd fun m =>
    if m.powered ∧ 6500 ≤ vbsnsMv ∧ vbsnsMv ≤ 38000 ∧ 1000 ≤ heldUs then { m with sys := { m.sys with disc := true } } else m

/-! ## Sensor supplies -/

def Chip.supply (m : Chip) (n : Nat) : Supply := tabGet m.sup n {}
def Chip.setSupply (m : Chip) (n : Nat) (x : Supply) : Chip := { m with sup := tabPut m.sup n x }

/-- The number of a condition in Supply.cond. -/
def condNo : SupCond → Nat
  | .above => 0
  | .battery => 1
  | .reversed => 2
  | .hot => 3
  | .openLoad => 4

/-- A condition is met: the level is in mV at the pin for battery and reversed, °C for hot, µA for open; the limit is active for over. -/
def condMet (x : Supply) (c : SupCond) (level : Int) (us : Nat) : Bool :=
  match c with
  | .above => x.closed && decide (2000 ≤ us)
  | .battery => decide (5600 < level ∧ 20 ≤ us)
  | .reversed => decide (level < -500 ∧ 20 ≤ us)
  | .hot => decide (175 < level)
  | .openLoad => x.closed && x.cond.isNone && decide (level < 500 ∧ 100000 ≤ us)

/-- A condition is detected: every one but open opens the switch. -/
def Chip.supDetect (m : Chip) (n : Nat) (c : SupCond) (level : Int) (us : Nat) : Chip :=
  let x := m.supply n
  if m.powered ∧ bitAt (m.rd SUP_CTL_EN) n ∧ condMet x c level us then
    let x := { x with cond := some (condNo c) }
    let x := if c = .openLoad then x else { x with closed := false, openTb := m.tb, backTb := none }
    let was := bitAt (m.rd SUP_STAT_FLT) n
    let m := (m.setSupply n x).wr SUP_STAT_FLT 0 (setBit (m.rd SUP_STAT_FLT) n)
    if was then m
    else if bitAt (m.rd SUP_FLAGS) n then m.supFlag n
    else (m.setCycle { m.cycle with sups := n :: m.cycle.sups }).supFlag n
  else m

def execSupFaultDetect (n : Sup) (c : SupCond) (level : Int) (heldUs : Nat) (s : State) : Host.Outcome State Fault Refusal :=
  s.upd (·.supDetect n.val c level heldUs)

/-- The condition that holds a switch open lets it reclose. -/
def recloses (x : Supply) (t : Nat) (level : Int) (us : Nat) : Bool :=
  match x.cond with
  | none => decide (-500 ≤ level ∧ level ≤ 5600)
  | some 0 => decide (x.openTb + 100 * msTb ≤ t)
  | some 1 => decide (level < 5300 ∧ 10000 ≤ us)
  | some 2 => decide (0 ≤ level ∧ 10000 ≤ us)
  | some 3 => decide (level < 160)
  | some _ => false

def Chip.supReclose (m : Chip) (n : Nat) (level : Int) (us : Nat) : Chip :=
  let x := m.supply n
  if m.powered ∧ bitAt (m.rd SUP_CTL_EN) n ∧ !x.closed ∧ recloses x m.tb level us then
    m.setSupply n { x with closed := true, backTb := some m.tb }
  else m

def execSupReclose (n : Sup) (level : Int) (heldUs : Nat) (s : State) : Host.Outcome State Fault Refusal :=
  s.upd (·.supReclose n.val level heldUs)

/-- FLT clears: 10 ms after the reclosing, or after 10 ms at 1.0 mA following an open condition. -/
def Chip.supFltClear (m : Chip) (n ua us : Nat) : Chip :=
  let x := m.supply n
  let done := match x.cond with
    | none => false
    | some 4 => decide (1000 ≤ ua ∧ 10000 ≤ us)
    | some _ => x.closed && match x.backTb with
      | some t => decide (t + 10 * msTb ≤ m.tb)
      | none => false
  if done then (m.setSupply n { x with cond := none, backTb := none }).wr SUP_STAT_FLT 0 (clrBit (m.rd SUP_STAT_FLT) n) else m

def execSupFltClear (n : Sup) (ua heldUs : Nat) (s : State) : Host.Outcome State Fault Refusal := s.upd (·.supFltClear n.val ua heldUs)

/-- A condition detected in the cycle of a write of 0 sets no flag (R519): one that SUP_FLAGS has taken in this cycle goes again. -/
def Chip.supUndo (m : Chip) (n : Nat) : Chip :=
  if m.cycle.sups.contains n then (m.setCycle { m.cycle with sups := m.cycle.sups.filter (· != n) }).unsetFlag SUP_FLAGS 0 n else m

/-- One switch under a write of its bit of SUP_CTL.EN; its pin stands outside -0.5 V to 5.6 V where the flag says so (R519). -/
def Chip.supSwitch (m : Chip) (n : Nat) (on pinOut : Bool) : Chip :=
  if !on then ((m.supUndo n).setSupply n {}).wr SUP_STAT_FLT 0 (clrBit (m.rd SUP_STAT_FLT) n)
  else if bitAt (m.rd SUP_CTL_EN) n then m
  else m.setSupply n { closed := !pinOut }

/-- A write of SUP_CTL. -/
def Chip.supCtl (m : Chip) (w pinsOut : Nat) : Chip :=
  ((List.range 8).foldl (fun m n => m.supSwitch n (bitAt w n) (bitAt pinsOut n)) m).wrFrom SUP_CTL_EN 0 w

def execSupCtlWrite (who : Writer) (w : Word) (pinsOut : BitVec 8) (s : State) : Host.Outcome State Fault Refusal :=
  s.upd fun m => if m.sysWr who then m.supCtl w.toNat pinsOut.toNat else m

end Sys2Proof.Machine
end

