-- ==== Sys2Proof/Machine/HostOps.lean ====
section
/-! DEFINITION. Mailboxes, doors, the upload buffers and the queue head (09 R321-R331, R348-R351, R546). -/

namespace Sys2Proof.Machine

/-! ## Mailboxes -/

def mbBase (x : Nat) : Nat := 0x1000 + x * 0x400

/-- The partial-results window of a mailbox (R40, R319). -/
def mbWindow (x : Nat) : Nat := if x < 16 then 0x820000 + x * 0x10000 else 0xC40000 + (x - 16) * 0x10000

def Chip.mb (m : Chip) (x : Nat) : Mbox := tabGet m.mbox x {}
def Chip.setMb (m : Chip) (x : Nat) (b : Mbox) : Chip := { m with mbox := tabPut m.mbox x b }
def Chip.mbSt (m : Chip) (x : Nat) : Nat := m.rd MB_STATUS_STATE x

/-- A mailbox holds a command (R324). -/
def Chip.mbBusy (m : Chip) (x : Nat) : Bool := let s := m.mbSt x; s == 1 || s == 2 || s == 3

/-- The island that holds a mailbox runs. -/
def Chip.mbRuns (m : Chip) (x : Nat) : Bool := m.runs (if x < 8 then islHostA else if x < 16 then islHostB else islMgmt)

/-- A flag of the port of a mailbox; those of Anvil-C have none (R319). -/
def Chip.mbFlag (m : Chip) (x b : Nat) : Chip :=
  match mbPort x with
  | some p => m.hpFlag p b
  | none => m

/-- Gelow takes doors, as the mailbox's port shows it (R326). -/
def Chip.mbUp (m : Chip) (x : Nat) : Bool :=
  match mbPort x with
  | some p => m.rdB HP_STAT_GELOW_UP p
  | none => m.gelow.up

/-- The codes of a door write (R313). -/
def ackDone : Nat := 0xA0
def ackDup : Nat := 0xA2
def ackHcrc : Nat := 0xE1
def ackDcrc : Nat := 0xE2
def ackHdr : Nat := 0xE3
def ackDown : Nat := 0xE4
def ackBusy : Nat := 0xE5
def ackSeq : Nat := 0xE6
def ackUnread : Nat := 0xE7

/-- What decides on a door write with a SEQ, in the order of R326. -/
def Chip.doorCode (m : Chip) (x s : Nat) : Nat :=
  if !m.mbUp x then ackDown
  else if m.mbSt x ≠ 0 ∧ m.rd MB_STATUS_SEQ x = s then ackDup
  else if m.mbBusy x then ackBusy
  else if m.mbSt x ≠ 0 ∧ s ≠ (m.rd MB_STATUS_SEQ x + 1) % 256 then ackSeq
  else if !m.rdB MB_INFO_RESP_RD x then ackUnread
  else ackDone

/-- MB_CHUNK (R546). -/
def Chip.mbChunk (m : Chip) (x index words : Nat) (last : Bool) : Chip :=
  ((m.wr MB_CHUNK_INDEX x index).wr MB_CHUNK_LEN x words).wrB MB_CHUNK_LAST x last

/-- A command is submitted. -/
def Chip.submit (m : Chip) (x s : Nat) : Chip :=
  let m := (((m.wr MB_STATUS_SEQ x s).wr MB_STATUS_PROGRESS x 0).wr MB_INFO_RESP_RD x 0).mbChunk x 0 0 false
  (m.setMb x { doorTb := m.tbOf (if x < 8 then islHostA else if x < 16 then islHostB else islMgmt) }).mbState x 1 0

/-- A write of MB_DOOR: the code, and the machine after it. -/
def Chip.door (m : Chip) (x s : Nat) : Nat × Chip :=
  let c := m.doorCode x s
  let m := m.wr MB_INFO_DOOR_RES x c
  (c, if c = ackDone then m.submit x s else if c = ackDup then m else m.mbFlag x HP_FLAGS_DOOR_REF)

/-- A long command (the tables of R340-R345). -/
def opLong (op : Nat) : Bool :=
  op == 0x0601 || op == 0x0605 || op == 0x0606 || op == 0x0803 || op == 0x0903 || op == 0x0904 || op == 0x0905

/-- A write of MB_CTL.ABORT (R331). -/
def Chip.mbAbort (m : Chip) (x : Nat) : Chip :=
  let st := m.mbSt x
  if st = 1 ∨ ((st = 2 ∨ st = 3) ∧ opLong (m.loadNat (mbBase x) 2)) then m.setMb x { m.mb x with abort := true }
  else m.mbFlag x HP_FLAGS_ABORT_LATE

/-- A write of MB_CTL.NEXT: it releases a held chunk, or hands an upload chunk over (R329, R330). -/
def Chip.mbNext (m : Chip) (x : Nat) : Chip :=
  if m.rdB MB_INFO_HELD x then m.wr MB_INFO_HELD x 0
  else match mbPort x with
    | some p =>
      if m.rdB MB_INFO_UP_WAIT x ∧ !m.rdB HP_STAT_UP_BUSY p then (m.setMb x { m.mb x with nextTb := some m.tb }).wr HP_STAT_UP_BUSY p 1 else m
    | none => m

/-- A read of the response area's first word (R327). -/
def Chip.respRead (m : Chip) (x : Nat) : Chip :=
  let m := if 4 ≤ m.mbSt x then m.wr MB_INFO_RESP_RD x 1 else m
  { m with rdata := m.loadNat (mbBase x + 0x100) 4 }

/-- A write of HP_Q_HEAD (R351). -/
def Chip.headWrite (m : Chip) (p w : Nat) : Chip :=
  let h := w % 8192
  if ofSigned 13 ((h : Int) - (m.rd HP_Q_HEAD p : Int)) ≤ m.queueLen p then m.wr HP_Q_HEAD p h else m.hpFlag p HP_FLAGS_HEAD_REF

/-! ## Ends of commands (R322-R324, R328, R546) -/

/-- The command area: opcode, PLEN, FLAGS, TAG, and the payload with 0 beyond PLEN. -/
def Chip.mbOp (m : Chip) (x : Nat) : Nat := m.loadNat (mbBase x) 2
def Chip.mbPlen (m : Chip) (x : Nat) : Nat := m.loadNat (mbBase x + 2) 1
def Chip.mbHold (m : Chip) (x : Nat) : Bool := bitAt (m.loadNat (mbBase x + 3) 1) 0
def Chip.mbTag (m : Chip) (x : Nat) : Nat := m.loadNat (mbBase x + 4) 4
def Chip.mbPay (m : Chip) (x : Nat) : List Byte :=
  let n := m.mbPlen x
  m.load (mbBase x + 8) n ++ List.replicate (248 - n) 0

/-- n bytes of a payload from an offset, as a number. -/
def payNat (p : List Byte) (o n : Nat) : Nat := leNat ((p.drop o).take n)

/-- The response area in one piece. -/
def Chip.respWrite (m : Chip) (x result nacc jsn : Nat) (pay : List Byte) : Chip :=
  let b := mbBase x + 0x100
  (m.clearMem b 0x100).store b (leBytes 2 (m.mbOp x) ++ leBytes 1 pay.length ++ leBytes 1 (m.rd MB_STATUS_SEQ x) ++ leBytes 1 result ++
    leBytes 1 nacc ++ leBytes 2 0 ++ leBytes 6 jsn ++ leBytes 2 0 ++ pay)

/-- The upload buffer of a port, where this mailbox holds it, is free again. -/
def Chip.upFree (m : Chip) (x : Nat) : Chip :=
  match mbPort x with
  | none => m
  | some p =>
    if m.rdB HP_STAT_UP_TAKEN p ∧ m.rd HP_STAT_UP_MB p = x % 8 then
      ((m.wr HP_STAT_UP_TAKEN p 0).wr HP_STAT_UP_BUSY p 0).wr HP_STAT_UP_MB p 0
    else m

/-- A command ends: the response, then the state. -/
def Chip.mbEnd (m : Chip) (x st reason nacc jsn : Nat) (pay : List Byte) : Chip :=
  let m := (m.upFree x).respWrite x reason nacc jsn pay
  let m := ((m.wr MB_INFO_HELD x 0).wr MB_INFO_UP_WAIT x 0).setMb x { m.mb x with run := none, nextTb := none, abort := false }
  let m := { m with gelow := { m.gelow with batch := m.gelow.batch.filter (· != x) } }
  m.mbState x st reason

/-- A command fails, or is aborted, with nothing accepted. -/
def Chip.mbFail (m : Chip) (x code : Nat) : Chip := m.mbEnd x 6 code 0 0 []
def Chip.mbAborted (m : Chip) (x reason nacc jsn : Nat) : Chip := m.mbEnd x 5 reason nacc jsn []

/-- A command that is not long is done: its window, MB_CHUNK, and STATE 4. -/
def Chip.mbDone (m : Chip) (x reason nacc jsn : Nat) (pay window : List Byte) : Chip :=
  let m := if window = [] then m else m.store (mbWindow x) (window ++ List.replicate ((4 - window.length % 4) % 4) 0)
  (m.mbChunk x 0 ((window.length + 3) / 4) true).mbEnd x 4 reason nacc jsn pay

end Sys2Proof.Machine
end

