-- ==== Sys2Proof/Machine/Map.lean ====
section
/-! DEFINITION. The commands of the map engine and the tile cache (08 R261-R286). -/

namespace Sys2Proof.Machine

/-- A cache slot of a layer, where there is such a slot. -/
def layerSlot (presc : Bool) (n : Nat) : Option Nat := if presc then (if n < 64 then some (24 + n) else none) else if n < 24 then some n else none

def execTileLoadDone (presc : Bool) (slot : Nat) (uncorrectable : Bool) (s : State) : Host.Outcome State Fault Refusal :=
  s.upd fun m => match layerSlot presc slot with
    | none => m
    | some k => if m.runs islMap then m.loadDone k uncorrectable else m

def execTileFlushStart (slot : Fin 24) (s : State) : Host.Outcome State Fault Refusal := s.upd (·.flushStart slot.val)

def execTileFlushCommit (slot : Fin 24) (r : FlushEnd) (s : State) : Host.Outcome State Fault Refusal :=
  s.upd fun m => if m.gelow.up ∧ m.runs islMap then m.flushEnd slot.val (decide (r = .committed)) else m

def execMapScan (s : State) : Host.Outcome State Fault Refusal := s.upd (·.mapScan)

def execGateActionsCommit (ch : Ch) (s : State) : Host.Outcome State Fault Refusal := s.upd (·.gateCommit ch.val)

def execGateActionFire (ch : Ch) (s : State) : Host.Outcome State Fault Refusal := s.upd (·.gateFire ch.val)

/-- A write of 0 to GATE_EN of a channel, or to MAP_CFG.EN (R271). -/
def Chip.gateOff (m : Chip) (ch : Option Nat) : Chip :=
  match ch with
  | some c => (m.wr MAP_CH_CFG_GATE_EN c 0).gateDisable c
  | none => (m.wr MAP_CFG_EN 0 0).gatesOff.mapStat

def execMapGateDisable (ch : Option Ch) (s : State) : Host.Outcome State Fault Refusal :=
  s.upd fun m => if m.runs islMap then m.gateOff (ch.map (·.val)) else m

def execCoverageWriteback (s : State) : Host.Outcome State Fault Refusal := s.upd (·.writeBack)

end Sys2Proof.Machine
end

