-- ==== Sys2Proof/Machine/Timers.lean ====
section
/-! DEFINITION. The commands of the general timers (13 R454-R461). -/

namespace Sys2Proof.Machine

def Chip.tmr (m : Chip) (n : Nat) : Tmr := tabGet m.tim n {}
def Chip.setTmr (m : Chip) (n : Nat) (x : Tmr) : Chip := { m with tim := tabPut m.tim n x }

/-- A timer's clock runs; in sleep only with AON (R460, R472). -/
def Chip.timClock (m : Chip) (n : Nat) : Bool := m.clockOk islObserver && m.ungated 0 (4 + n) && (!m.asleep || m.rdB TIM_CTL_AON n)

/-- The output level that OUTM gives (R455). -/
def Chip.timOut (m : Chip) (n : Nat) : Chip :=
  let x := m.tmr n
  let o := m.rd TIM_CTL_OUTM n
  m.wrB TIM_STAT_OUT n (if o = 0 then false else if o = 1 then x.tog else if o = 2 then x.cyc else !x.cyc)

/-- The counter takes a value by counting: a return to 0, and a compare (R454, R455). -/
def Chip.timSet (m : Chip) (n v : Nat) (wrapped : Bool) : Chip :=
  let hit := v == m.rd TIM_CMP n
  let x := m.tmr n
  let m := m.wr TIM_CNT n v
  let m := m.setTmr n { x with cyc := (x.cyc || (wrapped && v == 0)) && !hit, tog := if hit then !x.tog else x.tog }
  let m := m.timOut n
  let m := if wrapped then m.timFlag n TIM_FLAGS_WRAP else m
  if hit then m.timFlag n TIM_FLAGS_CMP else m

/-- The counter changes at a tick (R454). -/
def Chip.timCount (m : Chip) (n : Nat) : Chip :=
  let c := m.rd TIM_CNT n
  let p := m.rd TIM_PER n
  let mode := m.rd TIM_CTL_MODE n
  if mode = 1 then (if c = p then m.timSet n 0 true else m.timSet n ((c + 1) % 2 ^ 32) (c + 1 == 2 ^ 32))
  else if mode = 2 then
    let v := (c + 1) % 2 ^ 32
    if c = p then ((m.timFlag n TIM_FLAGS_WRAP).wr TIM_CTL_EN n 0).wr TIM_STAT_RUN n 0
    else if v = p then ((m.timSet n v true).wr TIM_CTL_EN n 0).wr TIM_STAT_RUN n 0
    else m.timSet n v (v == 0)
  else m.timSet n ((c + 1) % 2 ^ 32) (c + 1 == 2 ^ 32)

/-- A qualifying edge of a timer's count source: the last of PRESC + 1 is a tick (R454). -/
def Chip.timEdge (m : Chip) (n : Nat) : Chip :=
  let x := m.tmr n
  if x.edges < m.rd TIM_CTL_PRESC n then m.setTmr n { x with edges := x.edges + 1 } else (m.setTmr n { x with edges := 0 }).timCount n

/-- A timer that counts: a tick PRESC + 1 TB after the last, or a qualifying edge of its source (R454). -/
def Chip.timTick (m : Chip) (n : Nat) : Chip :=
  let x := m.tmr n
  let step := m.rd TIM_CTL_PRESC n + 1
  if m.rdB TIM_CTL_EN n ∧ m.timClock n ∧ !m.rdB TIM_STAT_FROZEN n then
    if m.rdB TIM_CTL_CLK n then (if m.rd TIM_SRC_CNT_EDGE n = 0 then m else m.timEdge n)
    else if x.last + step ≤ m.tb then (m.setTmr n { x with last := x.last + step }).timCount n
    else m
  else m

def execTimerTick (n : Tim) (s : State) : Host.Outcome State Fault Refusal := s.upd (·.timTick n.val)

/-- A matching capture edge (R457); of a write of TIM_CNT in its cycle it takes the value before (R458). -/
def Chip.timCapture (m : Chip) (n : Nat) (rising : Bool) : Chip :=
  let sel := m.rd TIM_SRC_CAP_EDGE n
  if m.rdB TIM_CTL_EN n ∧ m.timClock n ∧ bitAt sel (if rising then 0 else 1) then
    let lost := m.rdB TIM_STAT_NEW n
    let old := (m.rd TIM_CAP n, (m.tmr n).capTb, lost && !bitAt (m.rd TIM_FLAGS n) TIM_FLAGS_OVR)
    let m := m.setCycle { m.cycle with captures := tabPut m.cycle.captures n old }
    let m := if lost then m.timFlag n TIM_FLAGS_OVR else m
    let m := (m.wr TIM_CAP n (tabGet m.cycle.counters n (m.rd TIM_CNT n))).wr TIM_STAT_NEW n 1
    (m.setTmr n { m.tmr n with capTb := m.tbOf islObserver }).timFlag n TIM_FLAGS_CAP
  else m

def execTimerCapture (n : Tim) (rising : Bool) (s : State) : Host.Outcome State Fault Refusal := s.upd (·.timCapture n.val rising)

/-- A read of TIM_CAP (R457); one that meets a capture landing in its cycle returns the value before it, and OVR does not set (R458). -/
def Chip.timRead (m : Chip) (n : Nat) : Chip :=
  if m.timClock n then
    match tabFind m.cycle.captures n with
    | some (v, t, ovr) =>
      let m := m.wrTb TIM_CAP_TB_LO TIM_CAP_TB_HI n t
      let m := if ovr then m.unsetFlag TIM_FLAGS n TIM_FLAGS_OVR else m
      { m with rdata := v }
    | none =>
      let m := (m.wrTb TIM_CAP_TB_LO TIM_CAP_TB_HI n (m.tmr n).capTb).wr TIM_STAT_NEW n 0
      { m with rdata := m.rd TIM_CAP n }
  else { m with rdata := 0 }

def execTimCapRead (n : Tim) (s : State) : Host.Outcome State Fault Refusal := s.upd (·.timRead n.val)

/-- TIM_STAT.RUN: the timer counts. -/
def Chip.timRun (m : Chip) (n : Nat) : Chip := m.wrB TIM_STAT_RUN n (m.rdB TIM_CTL_EN n && !m.rdB TIM_STAT_FROZEN n)

/-- A timer freezes or counts again with its prescaler phase as it was held (R459). -/
def Chip.timFreeze (m : Chip) (n : Nat) : Chip :=
  let f := m.rd TIM_CTL_DBG_FRZ n
  let on := (bitAt f 0 && m.coreV.halted) || (bitAt f 1 && m.coreC.halted)
  let x := m.tmr n
  let m := if on && !m.rdB TIM_STAT_FROZEN n then (m.wr TIM_STAT_FROZEN n 1).setTmr n { x with phase := m.tb - x.last }
    else if !on && m.rdB TIM_STAT_FROZEN n then (m.wr TIM_STAT_FROZEN n 0).setTmr n { x with last := m.tb - x.phase }
    else m
  m.timRun n

/-- A debugger halts a core where PROT_DBG allows it, or lets it run (R459, R491). -/
def Chip.debugHalt (m : Chip) (k : Core) (halt : Bool) : Chip :=
  let ok := match k with
    | .c => m.rdB PROT_DBG_C
    | .v => m.rdB PROT_DBG_V && !m.rdB KEY_STAT_LIFE
  if ok || !halt then
    let m := match k with
      | .c => { m with coreC := { m.coreC with halted := halt } }
      | .v => { m with coreV := { m.coreV with halted := halt } }
    (List.range 16).foldl Chip.timFreeze m
  else m

def execTimerFreeze (core : Core) (halt : Bool) (s : State) : Host.Outcome State Fault Refusal := s.upd (·.debugHalt core halt)

/-- A write of TIM_CTL, or of TIM_CNT (R454). -/
def Chip.timWrite (m : Chip) (n w : Nat) (cnt : Bool) : Chip :=
  let x := m.tmr n
  if cnt then
    let m := m.setCycle { m.cycle with counters := tabPut m.cycle.counters n (tabGet m.cycle.counters n (m.rd TIM_CNT n)) }
    (m.wr TIM_CNT n w).setTmr n { x with last := m.tb, phase := 0, edges := 0 }
  else
    let was := m.rdB TIM_CTL_EN n
    let m := [TIM_CTL_EN, TIM_CTL_MODE, TIM_CTL_CLK, TIM_CTL_PRESC, TIM_CTL_DBG_FRZ, TIM_CTL_OUTM, TIM_CTL_AON].foldl (fun m f => m.wrFrom f n w) m
    let m := if bitAt w 0 && !was then m.setTmr n { x with last := m.tb, phase := 0, edges := 0 } else m
    let m := if bitAt w 0 && !was && m.rd TIM_CTL_MODE n == 2 then m.wr TIM_CNT n 0 else m
    (m.timFreeze n).timOut n

def execTimerCtlWrite (who : Writer) (n : Tim) (cnt : Bool) (w : Word) (s : State) : Host.Outcome State Fault Refusal :=
  s.upd fun m => if m.sysOk who && m.timClock n.val then m.timWrite n.val w.toNat cnt else m

end Sys2Proof.Machine
end

