-- ==== Sys2Proof/Machine/WheelOps.lean ====
section
/-! DEFINITION. Operations of the wheel inputs (02 R44-R79). -/

namespace Sys2Proof.Machine

def Chip.wheel (m : Chip) (n : Nat) : Wheel := tabGet m.whl n {}
def Chip.setWheel (m : Chip) (n : Nat) (w : Wheel) : Chip := { m with whl := tabPut m.whl n w }

/-- WHL_CFG fields as they act: reserved codes act as 0. -/
def Chip.whlMode (m : Chip) (n : Nat) : Nat := let x := m.rd WHL_CFG_MODE n; if 5 < x then 0 else x
def Chip.whlRef (m : Chip) (n : Nat) : Nat := let x := m.rd WHL_CFG_REF n; if 2 < x then 0 else x
def Chip.whlDirSrc (m : Chip) (n : Nat) : Nat := let x := m.rd WHL_CFG_DIR_SRC n; if 2 < x then 0 else x

/-- WHL_FE.FE as it acts: 3 acts as 1 (a write of 0 to WHL16-WHL63 is stored as 1, R44). -/
def Chip.whlFe (m : Chip) (n : Nat) : Nat := let x := m.rd WHL_FE_FE n; if x = 3 then 1 else x

def whlOff : Nat := 0
def whlFault : Nat := 1
def whlCounting : Nat := 2
def whlSync : Nat := 3
def whlSuspect : Nat := 4

def Chip.whlState (m : Chip) (n : Nat) : Nat := m.rd WHL_STAT_STATE n

/-- Edges are forwarded (R72). -/
def Chip.whlForwards (m : Chip) (n : Nat) : Bool := let s := m.whlState n; s == 2 || s == 3 || s == 4

/-- An input of a quadrature pair. -/
def quadMode (md : Nat) : Bool := md == 3 || md == 4

/-- The input whose wheel a line belongs to: line B of a pair belongs to the even input (R53). -/
def Chip.whlHome (m : Chip) (n : Nat) : Nat := if n % 2 = 1 ∧ quadMode (m.whlMode (n - 1)) then n - 1 else n

/-- SHORT_BAT and REV as bits of COND (R50). -/
def Chip.whlHeldLine (m : Chip) (n : Nat) : Bool := bitAt (m.rd WHL_STAT_COND n) 2 || bitAt (m.rd WHL_STAT_COND n) 3

/-- R51: the filtered line is held at its inactive level. -/
def Chip.whlHeld (m : Chip) (n : Nat) : Bool :=
  let h := m.whlHome n
  if quadMode (m.whlMode h) then m.whlHeldLine h || m.whlHeldLine (h + 1) else m.whlHeldLine n

/-- The level to which the selected edge leads (R51, R46). Each line of a pair goes by its own WHL_CFG.EDGE and WHL_FE (DESIGN CHOICE, log
entry 127: the manual does not say whose). -/
def Chip.whlActive (m : Chip) (n : Nat) : Bool :=
  let e := m.rdB WHL_CFG_EDGE n
  if m.whlFe n = 0 then e != m.rdB WHL_STAT_POL_INV n else !e

/-- The counter difference a - b of 32-bit counts, signed. -/
def cntDiff (a b : Int) : Int := toSigned 32 (ofSigned 32 (a - b))

/-! ## Angle (R65, R66) -/

/-- The count from the frame's reference, within a turn (R65). -/
def Chip.whlInTurn (m : Chip) (n : Nat) : Int := cntDiff (m.rdI WHL_CNT n) (m.wheel n).refCnt % (m.whlTc n : Int)

/-- The angle in fraction steps with the interpolation term; it may stand outside 0 to 2^32. -/
def Chip.whlFrac (m : Chip) (n : Nat) (interp : Int) : Int :=
  let tc := m.whlTc n
  if tc = 0 then 0 else m.whlInTurn n * 4294967296 / tc + interp

/-- The angle register, and TURN moved by d turns plus what the fraction itself wraps. -/
def Chip.whlAngle (m : Chip) (n : Nat) (base : Int) : Chip :=
  let f := m.whlFrac n (m.wheel n).interp
  (m.wrI WHL_ANGLE n f).wrI WHL_TURN n (base + f / 4294967296)

/-- TURN less what the interpolation term has wrapped. -/
def Chip.whlTurnBase (m : Chip) (n : Nat) : Int := m.rdI WHL_TURN n - m.whlFrac n (m.wheel n).interp / 4294967296

/-- The frame of the angle moves to a reference count; TURN follows a wrap that the step causes (R65). The fraction moves the shorter way round
(DESIGN CHOICE, log entry 128: the manual does not say which way a step goes). -/
def Chip.whlFrame (m : Chip) (n ref : Nat) : Chip :=
  let tc : Int := m.whlTc n
  let base := m.whlTurnBase n
  if tc = 0 then m.setWheel n { m.wheel n with refCnt := ref }
  else
    let k := m.whlInTurn n
    let s := (cntDiff (m.wheel n).refCnt ref + tc / 2) % tc - tc / 2
    let m := m.setWheel n { m.wheel n with refCnt := ref }
    m.whlAngle n (base + (k + s) / tc)

/-! ## States (R72) -/

def Chip.whlTo (m : Chip) (n st : Nat) : Chip := (m.wr WHL_STAT_STATE n st).wrB WHL_STAT_ANGLE_VALID n (st == whlSync || st == whlSuspect)

/-- Entry into FAULT; Mandrel's slots lose the input (R72, R76). -/
def Chip.whlFail (m : Chip) (n : Nat) : Chip :=
  if m.whlForwards n then
    let m := (m.whlTo n whlFault).whlFlag n WHL_FLAGS_FAULT_IN
    if m.whlMode n = 1 ∨ m.whlMode n = 3 then m.slotsLoseWheel n else m
  else m

/-- COUNTING from SYNC or SUSPECT. -/
def Chip.whlLose (m : Chip) (n : Nat) : Chip := ((m.whlTo n whlCounting).whlFrame n 0).whlFlag n WHL_FLAGS_SYNC_LOST

/-- Acquisition at a reference count. -/
def Chip.whlAcquire (m : Chip) (n ref : Nat) : Chip :=
  let m := (m.whlFrame n ref).whlTo n whlSync
  (m.setWheel n { m.wheel n with acqRef := ref, mismRef := none, missing := 0 }).whlFlag n WHL_FLAGS_SYNC_ACQ

/-- A mismatch or a missing reference leaves SYNC (R72). -/
def Chip.whlSuspectBy (m : Chip) (n : Nat) (mism : Option Nat) (missing : Nat) : Chip :=
  let m := ((m.whlTo n whlSuspect).count WHL_MISM_CNT n).whlFlag n WHL_FLAGS_IDX_MISMATCH
  m.setWheel n { m.wheel n with mismRef := mism, missing := missing }

/-- The offset of a reference count from a frame (R70). -/
def refOffset (l ref tc : Int) : Int := (cntDiff l ref + tc / 2) % tc - tc / 2

/-- Difference and drift at a reference (R69, R70). -/
def Chip.whlDelta (m : Chip) (n l : Nat) : Chip :=
  let w := m.wheel n
  let tc : Int := m.whlTc n
  let δ : Int := match w.prevRef with
    | none => 0
    | some p => cntDiff l p - if m.rdB WHL_STAT_DIR n then -tc else tc
  let m := (m.wr WHL_IDX_LATCH n l).wrFit WHL_IDX_DELTA n δ
  if δ = 0 then m
  else ((m.setWheel n { w with tcntMark := true }).count WHL_TCNT_CNT n).whlFlag n WHL_FLAGS_TCNT_ERR

/-- The state machine at a reference (R72, R73). -/
def Chip.whlRefState (m : Chip) (n l : Nat) (prev : Option Nat) : Chip :=
  let st := m.whlState n
  let tc : Int := m.whlTc n
  let tol : Int := m.rd WHL_TEETH_IDX_TOL n
  let full := fun r : Nat => absI (absI (cntDiff l r) - tc)
  if tc = 0 then m
  else if st = whlCounting then
    if m.rdB WHL_CFG_ACQ n then
      match prev with
      | some p => if full p = 0 then (m.whlAcquire n l).wrI WHL_DRIFT n 0 else m
      | none => m
    else (m.whlAcquire n l).wrI WHL_DRIFT n 0
  else if st = whlSync ∨ st = whlSuspect then
    let w := m.wheel n
    let d := refOffset l w.refCnt tc
    let m := m.wrSat WHL_DRIFT n (refOffset l w.acqRef tc)
    if st = whlSync then
      if absI d ≤ tol then
        if m.rdB WHL_CFG_REALIGN n ∧ d ≠ 0 then (m.whlFrame n (ofSigned 32 ((w.refCnt : Int) + d))).whlFlag n WHL_FLAGS_ANGLE_STEP else m
      else m.whlSuspectBy n (some l) 0
    else if absI d ≤ tol then (m.whlTo n whlSync).setWheel n { w with mismRef := none, missing := 0 }
    else if (match w.mismRef with | some r => decide (full r ≤ tol) | none => false) then
      let m := (m.whlFrame n l).whlTo n whlSync
      (m.setWheel n { m.wheel n with mismRef := none, missing := 0 }).whlFlag n WHL_FLAGS_ANGLE_STEP
    else
      let m := m.whlLose n
      if m.rdB WHL_CFG_ACQ n then m else (m.whlAcquire n l).wrI WHL_DRIFT n 0
  else m

/-- The registers that a reference changes (R74). -/
def refRegs : List Field :=
  [WHL_STAT_STATE, WHL_STAT_ANGLE_VALID, WHL_IDX_LATCH, WHL_IDX_DELTA, WHL_DRIFT, WHL_ANGLE, WHL_TURN, WHL_FLAGS, WHL_TCNT_CNT, WHL_MISM_CNT]

/-- A reference of count l at TB t, of an index line or of a gap (R69-R73); the search for missing references goes on from the expected count
it belongs to. -/
def Chip.whlReference (m : Chip) (n l t : Nat) (index : Bool) : Chip :=
  let x := m.wheel n
  let undo : RefUndo := {
    tb := m.tb, count := l, at_ := t, index := index, regs := refRegs.map fun f => m.rd f n, refCnt := x.refCnt, acqRef := x.acqRef
    prevRef := x.prevRef, mismRef := x.mismRef, missing := x.missing, chk := x.chk, idxTb := x.idxTb, idxMark := x.idxMark, tcntMark := x.tcntMark }
  let m := m.whlDelta n l
  let m := m.whlRefState n l x.prevRef
  let w := m.wheel n
  let tc : Int := m.whlTc n
  let near : Int := if m.whlState n = whlSync ∨ m.whlState n = whlSuspect then if tc = 0 then l else (l : Int) - refOffset l w.refCnt tc else l
  m.setWheel n { w with prevRef := some l, idxTb := t, chk := near, missing := 0, idxMark := w.idxMark || index, undo := some undo }

/-- R68: WHL_CNT at a TB, of the edges known so far. -/
def Chip.whlCountAt (m : Chip) (n t : Nat) : Nat :=
  match (m.wheel n).counts.find? fun p => decide (p.1 ≤ t) with
  | some p => p.2
  | none => match (m.wheel n).counts.getLast? with
    | some _ => 0
    | none => m.rd WHL_CNT n

/-- The longest filter of a wheel's own lines, in TB (R48, R53). -/
def Chip.whlFiltTb (m : Chip) (n : Nat) : Nat :=
  8 * if quadMode (m.whlMode n) then max (m.rd WHL_FE_FILT n) (m.rd WHL_FE_FILT (n + 1)) else m.rd WHL_FE_FILT n

/-- The index edge that waits acts, with the count at its TB (R68). -/
def Chip.whlIdxRef (m : Chip) (n t : Nat) : Chip :=
  (m.setWheel n { m.wheel n with idxPend := none }).whlReference n (m.whlCountAt n t) t true

/-- An index edge of an earlier TB than the one given, or one whose wait is over, acts (R68). -/
def Chip.whlIdxSettle (m : Chip) (n upto : Nat) : Chip :=
  match (m.wheel n).idxPend with
  | none => m
  | some t => if t < upto ∨ t + m.whlFiltTb n ≤ m.tbOf islObserver then m.whlIdxRef n t else m

/-! ## Qualified edges (R56-R63, R67, R76) -/

/-- The values that act from the next qualified edge (R54). -/
def Chip.whlAdopt (m : Chip) (n : Nat) : Chip :=
  m.setWheel n { m.wheel n with
    minIvl := m.rd WHL_QUAL_MIN_IVL n, efltLim := m.rd WHL_QUAL_EFLT_LIM n, gapHi := m.rd WHL_GAP_GAP_HI n
    indexSrc := m.rd WHL_SRC_INDEX_SRC n, idxEdge := m.rd WHL_SRC_IDX_EDGE n, sup := m.rd WHL_SRC_SUP n, supEn := m.rdB WHL_SRC_SUP_EN n }

/-- An edge arrives too soon after the last qualified one on its line and is discarded (R56, R57). -/
def Chip.whlDiscard (m : Chip) (n : Nat) : Chip :=
  let m := (m.count WHL_EFLT_CNT n).count WHL_STAT_EFLT_WIN n
  let m := m.whlFlag n WHL_FLAGS_EDGE_FLT
  let w := m.wheel n
  if w.efltLim ≠ 0 ∧ w.efltLim ≤ m.rd WHL_STAT_EFLT_WIN n then
    ((m.setWheel n { w with noise := true }).whlFlag n WHL_FLAGS_NOISE).whlFail n
  else m

/-- The 64-edge window after a qualified edge (R57). -/
def Chip.whlWindow (m : Chip) (n : Nat) : Chip :=
  let w := m.wheel n
  if 63 ≤ w.winEdges then
    (m.setWheel n { w with winEdges := 0, noise := w.noise && m.rd WHL_STAT_EFLT_WIN n != 0 }).wr WHL_STAT_EFLT_WIN n 0
  else m.setWheel n { w with winEdges := w.winEdges + 1 }

/-- An edge record goes to its consumer (R76, R187). -/
def Chip.whlSend (m : Chip) (n : Nat) (r : EdgeRec) : Chip :=
  if m.whlForwards n then
    let md := m.whlMode n
    if md = 1 ∨ md = 3 then m.slotsDeliver 0 n r
    else if (md = 2 ∨ md = 4) ∧ !r.stop then m.latWheelEdge n r.tb (m.whlFrac n 0 % 4294967296).toNat r.dcnt
    else m
  else m

/-- The entries of a list by TB, newest first, that a TB from one filter time back can ask for (the longest filter of WHL_FE is 2040 TB). -/
def keepRecent {α : Type} (now : Nat) (l : List (Nat × α)) : List (Nat × α) :=
  match l with
  | [] => []
  | x :: r => if x.1 + 4096 < now then [x] else x :: keepRecent now r

/-- A qualified edge at TB te in direction rev of a wheel that counts (R59, R60, R65, R67). -/
def Chip.whlQualified (m : Chip) (n te : Nat) (rev : Bool) : Chip :=
  let m := (m.whlWindow n).whlAdopt n
  let w := m.wheel n
  let turned := rev != m.rdB WHL_STAT_DIR n
  let stopped := m.rdB WHL_STAT_STOP n
  let start := w.startNext || w.firstNext || stopped || turned
  let m := (m.wrB WHL_STAT_DIR n rev).wr WHL_STAT_STOP n 0
  let m := if turned then m.whlFlag n WHL_FLAGS_DIR_CHG else m
  let m := if stopped then m.whlFlag n WHL_FLAGS_START else m
  let ivl := if w.firstNext then 4294967295 else min (te - w.edgeTb) 4294967295
  let gap := m.whlRef n == 1 && !quadMode (m.whlMode n) && !start && !w.lastStart && decide (w.gapHi * w.prevIvl < ivl * 16)
  let size : Int := if gap then m.rd WHL_CFG_MISSING n + 1 else 1
  let d := if rev then -size else size
  let before := m.rd WHL_CNT n
  let tc : Int := m.whlTc n
  let base := m.whlTurnBase n
  let k := if tc = 0 then 0 else m.whlInTurn n
  let after := ofSigned 32 (m.rdI WHL_CNT n + d)
  let m := m.setWheel n { w with
    startNext := false, firstNext := false, edgeTb := te, edgeCnt := after, idleFrom := te, prevIvl := ivl, lastStart := start, interp := 0
    counts := keepRecent te ((te, after) :: w.counts), idxMark := false, tcntMark := false, chk := if turned then (before : Int) else w.chk }
  let m := (m.wrI WHL_CNT n (m.rdI WHL_CNT n + d)).wr WHL_IVL n ivl
  let m := m.whlAngle n (base + if tc = 0 then 0 else (k + d) / tc)
  let m := if gap then
      let l := ofSigned 32 (m.rdI WHL_CNT n + if rev then (m.rd WHL_CFG_MISSING n : Int) + 1 else 0)
      m.whlReference n l te false
    else m
  let v := m.wheel n
  let m := m.setWheel n { v with tcntMark := false }
  m.whlSend n ⟨n, te, d, rev, start, false, gap, w.idxMark, w.tcntMark || v.tcntMark, m.whlState n⟩

/-- The MIN_IVL test on a line whose last qualified edge is given (R56). -/
def Chip.whlTooSoon (m : Chip) (n te : Nat) (last : Option Nat) : Bool :=
  match last with
  | none => false
  | some t => decide (te < t + (m.wheel n).minIvl * usTb)

/-- A candidate edge of a single-line wheel or an auxiliary line. -/
def Chip.whlCandidate (m : Chip) (n te : Nat) (rev : Bool) : Chip :=
  if m.whlTooSoon n te (m.wheel n).lastTb then m.whlDiscard n
  else (m.setWheel n { m.wheel n with lastTb := some te }).whlQualified n te rev

/-- The filtered level of a line at a TB, of the changes known so far (R62). -/
def Chip.whlLevelAt (m : Chip) (a t : Nat) : Bool :=
  let w := m.wheel a
  match w.past.find? fun p => decide (p.1 ≤ t) with
  | some p => p.2
  | none => if w.past.isEmpty then w.line else !(w.past.getLast?.map (·.2)).getD w.line

/-- The auxiliary input that gives a wheel its direction passes its level (R62, R545). -/
def Chip.whlDirLine (m : Chip) (n : Nat) : Bool :=
  let a := m.rd WHL_SRC_DIR_IN n
  m.whlMode a == 5 && m.whlState a == whlCounting

/-- The direction of a single-line wheel at an edge of TB te, by its level sources (R62, R545). -/
def Chip.whlDirection (m : Chip) (n te : Nat) : Bool :=
  if m.whlDirSrc n = 1 then
    if m.whlDirLine n then m.whlLevelAt (m.rd WHL_SRC_DIR_IN n) te == m.rdB WHL_SRC_DIR_POL n else m.rdB WHL_STAT_DIR n
  else m.rdB WHL_DIRSET_DIR n

/-- An edge that waited for its direction qualifies (R62). -/
def Chip.whlDirEdge (m : Chip) (n t : Nat) : Chip :=
  let m := m.setWheel n { m.wheel n with dirPend := none }
  m.whlCandidate n t (m.whlDirection n t)

/-- The level at the TB of an edge that waits is known: a later TB has come, or the direction line's filter time is over (R62). -/
def Chip.whlDirSettle (m : Chip) (n upto : Nat) : Chip :=
  match (m.wheel n).dirPend with
  | none => m
  | some t => if t < upto ∨ t + 8 * m.rd WHL_FE_FILT (m.rd WHL_SRC_DIR_IN n) ≤ m.tbOf islObserver then m.whlDirEdge n t else m

/-- An edge of a single-line wheel whose direction is that of its level sources: where the direction line's filter is longer, it waits. -/
def Chip.whlLevelEdge (m : Chip) (n te : Nat) : Chip :=
  if m.whlDirSrc n = 1 ∧ m.whlDirLine n ∧ m.tbOf islObserver < te + 8 * m.rd WHL_FE_FILT (m.rd WHL_SRC_DIR_IN n) then
    m.setWheel n { m.wheel n with dirPend := some te }
  else m.whlCandidate n te (m.whlDirection n te)

/-- An index edge at TB te for the wheel k: where a tooth edge of an earlier TB may still pass its filter, it waits (R68). -/
def Chip.whlIdxEdge (m : Chip) (k te : Nat) : Chip :=
  let m := m.whlIdxSettle k te
  (m.setWheel k { m.wheel k with idxPend := some te }).whlIdxSettle k 0

/-- An edge of an auxiliary line: an index reference for each wheel that takes its index from it (R68, R545). -/
def Chip.whlAuxEdge (m : Chip) (n te : Nat) (level : Bool) : Chip :=
  if m.whlTooSoon n te (m.wheel n).lastTb then m.whlDiscard n
  else
    let w := m.wheel n
    let ivl := if w.firstNext then 4294967295 else min (te - w.edgeTb) 4294967295
    let m := (m.setWheel n { w with lastTb := some te, edgeTb := te, idleFrom := te, firstNext := false, startNext := false }).wr WHL_IVL n ivl
    let m := if m.rdB WHL_STAT_STOP n then (m.wr WHL_STAT_STOP n 0).whlFlag n WHL_FLAGS_START else m
    let m := (m.whlWindow n).whlAdopt n
    if m.whlState n = whlCounting then
      (List.range 64).foldl (fun m k =>
        let md := m.whlMode k
        let v := m.wheel k
        if 1 ≤ md ∧ md ≤ 4 ∧ m.whlRef k = 2 ∧ v.indexSrc = n ∧ (v.idxEdge = 0) = level then m.whlIdxEdge k te else m) m
    else m

/-- The REV of R46 without automatic inversion is present at this tooth: a condition of FAULT (R52). -/
def Chip.whlReversed (m : Chip) (n : Nat) : Chip :=
  let h := m.whlHome n
  (m.setWheel h { m.wheel h with condTb := some m.tb }).whlFail h

/-- A front end 0 tooth whose steeper slope lies on the other crossing (R46); true where the polarity inverts now. An input that is inverted
already is inverted back (DESIGN CHOICE, log entry 129). -/
def Chip.whlSteep (m : Chip) (n : Nat) (steep : Bool) : Bool × Chip :=
  let w := m.wheel n
  let k := if steep then w.steep + 1 else 0
  if k = 16 then
    let auto := m.rdB WHL_FE_AUTO_POL n
    let m := (m.setWheel n { w with steep := 0, revSlope := !auto }).whlFlag n WHL_FLAGS_REV
    if auto then (true, m.wrB WHL_STAT_POL_INV n (!m.rdB WHL_STAT_POL_INV n)) else (false, m.whlReversed n)
  else
    let m := m.setWheel n { w with steep := k, revSlope := w.revSlope && steep && !m.rdB WHL_FE_AUTO_POL n }
    (false, if w.revSlope then m.whlReversed n else m)

/-- A level change gives an edge: in front end 0, only an armed crossing in the selected direction does, and it disarms the input; the tooth
on which the polarity inverts gives its edge at the other crossing (R45, R46). -/
def Chip.whlPasses (m : Chip) (n : Nat) (level steep : Bool) : Bool × Chip :=
  if m.whlFe n ≠ 0 then (true, m)
  else if level ≠ m.whlActive n ∨ !(m.wheel n).armed then (false, m)
  else
    let (inv, m) := m.whlSteep n steep
    if inv then (false, m) else (true, m.setWheel n { m.wheel n with armed := false })

/-- A level change of a single-line wheel (R45, R46, R62, R63): passes says that it gives an edge. -/
def Chip.whlSingleEdge (m : Chip) (n te : Nat) (level passes : Bool) : Chip :=
  let w := m.wheel n
  let sel := level == m.whlActive n
  if m.whlDirSrc n = 2 then
    if sel then if passes then m.setWheel n { w with leadTb := some te } else m
    else match w.leadTb with
      | none => m
      | some t => (m.setWheel n { w with leadTb := none }).whlCandidate n t (decide (m.rd WHL_SRC_DIR_PW n * usTb ≤ te - t))
  else if sel && passes then (m.whlDirSettle n te).whlLevelEdge n te
  else m

/-- A change of a line of a quadrature pair whose home input is n (R61). The direction in which line A leads line B is forward (DESIGN CHOICE,
log entry 130: the manual does not say which order is). -/
def Chip.whlQuadEdge (m : Chip) (n te : Nat) (lineB both : Bool) : Chip :=
  if both then (m.count WHL_QERR_CNT n).whlFlag n WHL_FLAGS_QERR
  else
    let w := m.wheel n
    let a := w.line
    let b := (m.wheel (n + 1)).line
    if m.whlTooSoon n te (if lineB then w.lastTbB else w.lastTb) then m.whlDiscard n
    else
      let m := m.setWheel n (if lineB then { w with lastTbB := some te } else { w with lastTb := some te })
      m.whlQualified n te (if lineB then b != a else a == b)

/-! ## Front ends (R44-R48) -/

/-- The comparator of a front end at a reading (R47): the differential voltage in mV, the voltage at the pin in mV, or the current in 10 uA
steps. Between the thresholds it stays. -/
def Chip.whlComp (m : Chip) (n : Nat) (x : Int) : Bool :=
  let (hi, lo) : Int × Int :=
    if m.whlFe n = 0 then (0, 0)
    else if m.whlFe n = 2 then (1050, 950)
    else if m.rd WHL_FE_HALL_THR n = 0 then (1200, 800)
    else if m.rd WHL_FE_HALL_THR n = 1 then (2500, 2000)
    else (3600, 3000)
  if hi < x then true else if x < lo then false else (m.wheel n).comp

/-- The level that the line shows while held, or its filtered level (R51); line B of a pair shows its own. -/
def Chip.whlLine (m : Chip) (n : Nat) : Chip :=
  m.wrB WHL_STAT_LINE n (if m.whlHeld n then !m.whlActive n else (m.wheel n).line)

/-- The filtered line takes a level at TB te. -/
def Chip.whlPass (m : Chip) (n te : Nat) (level : Bool) : Chip :=
  (m.setWheel n { m.wheel n with line := level, past := keepRecent te ((te, level) :: (m.wheel n).past) }).whlLine n

/-- Edges that wait for the level of this direction line at an earlier TB qualify (R62). -/
def Chip.whlDirsSettle (m : Chip) (a te : Nat) : Chip :=
  (List.range 64).foldl (fun m k => if m.rd WHL_SRC_DIR_IN k = a ∧ m.whlDirSrc k = 1 then m.whlDirSettle k te else m) m

/-- A level change that has passed the filter of line n, not held (R51, R53). -/
def Chip.whlChange (m : Chip) (n te : Nat) (level steep both : Bool) : Chip :=
  let h := m.whlHome n
  let md := m.whlMode h
  let m := if md = 5 then m.whlDirsSettle n te else m.whlIdxSettle h te
  let m := m.whlPass n te level
  let other := if h = n then n + 1 else h
  let m := if both && quadMode md then m.whlPass other te (!(m.wheel other).line) else m
  let (pass, m) := m.whlPasses n level steep
  if quadMode md then if pass then m.whlQuadEdge h te (h != n) both else m
  else if md = 5 then if pass then m.whlAuxEdge n te level else m
  else if md = 1 ∨ md = 2 then m.whlSingleEdge n te level pass
  else m

/-- A sample of front end n differs from the filtered line and has held for some TB: once that is FILT x 40 ns the change passes, with the TB
of its first sample (R48). While the line is held, nothing arises from it (R51). -/
def Chip.whlEdge (m : Chip) (n : Nat) (reading : Int) (held : Nat) (steep both : Bool) : Chip :=
  if !m.clockOk islObserver then m
  else
    let comp := m.whlComp n reading
    let level := comp != m.rdB WHL_FE_INV n
    let te := m.tbOf islObserver - held
    let m := m.setWheel n { m.wheel n with comp := comp }
    let h := m.whlHome n
    if level = (m.wheel n).line ∨ held < m.rd WHL_FE_FILT n * 8 then m
    else if m.whlHeld n then
      let m := m.whlPass n te level
      let other := if h = n then n + 1 else h
      if both && quadMode (m.whlMode h) then m.whlPass other te (!(m.wheel other).line) else m
    else m.whlChange n te level steep both

/-! ## Missing references (R71) -/

/-- The next expected reference count in the direction of travel. -/
def Chip.whlNextRef (m : Chip) (n : Nat) : Int :=
  let w := m.wheel n
  let tc : Int := max 1 (m.whlTc n)
  let d := cntDiff w.refCnt w.chk
  if m.rdB WHL_STAT_DIR n then w.chk - ((-d - 1) % tc + 1) else w.chk + ((d - 1) % tc + 1)

/-- The count has passed it by more than the tolerance. -/
def Chip.whlRefPassed (m : Chip) (n : Nat) : Bool :=
  let x := m.whlNextRef n
  let tol : Int := m.rd WHL_TEETH_IDX_TOL n
  let d := cntDiff (m.rd WHL_CNT n) x
  if m.rdB WHL_STAT_DIR n then decide (d < -tol) else decide (tol < d)

/-- A missing reference (R71, R72). -/
def Chip.whlMissing (m : Chip) (n : Nat) : Chip :=
  let st := m.whlState n
  if (st = whlSync ∨ st = whlSuspect) ∧ m.whlRef n ≠ 0 ∧ m.whlRefPassed n then
    let m := m.setWheel n { m.wheel n with chk := m.whlNextRef n }
    if st = whlSync then m.whlSuspectBy n none 1
    else if 1 ≤ (m.wheel n).missing then
      let m := m.whlLose n
      m.setWheel n { m.wheel n with prevRef := none, missing := 0, mismRef := none }
    else m.setWheel n { m.wheel n with missing := (m.wheel n).missing + 1 }
  else m

/-! ## Diagnosis (R50-R52) -/

/-- The supply fault of an input: WHL_SRC acts from the next qualified edge, or at once while the input is off (R50, R54). -/
def Chip.whlSupFault (m : Chip) (n : Nat) : Bool :=
  let w := m.wheel n
  if m.whlState n = whlOff then m.rdB WHL_SRC_SUP_EN n && bitAt (m.rd SUP_STAT_FLT) (m.rd WHL_SRC_SUP n)
  else w.supEn && bitAt (m.rd SUP_STAT_FLT) w.sup

/-- The tests of the rows of R50's table on one evaluation; WHL0-WHL15 have a second pin. -/
def Chip.whlTests (m : Chip) (n : Nat) (p : WhlPins) : List Bool :=
  let fe := m.whlFe n
  let pins := if n < 16 then [p.pinMv, p.otherMv] else [p.pinMv]
  [ fe == 0 && decide (1500 < p.diffMv),
    fe == 0 && decide (p.commonMv < 300),
    fe == 1 && m.rd WHL_FE_PULL n == 3 && (m.wheel n).pullOpen,
    fe == 2 && decide (p.cur10uA < 350),
    fe == 2 && decide (2100 < p.cur10uA),
    pins.any fun v => decide (6000 < v),
    (pins.any fun v => decide (v < -500)) || (fe == 2 && decide (p.cur10uA < -100)),
    m.whlSupFault n ]

/-- The bit of COND, and from OPEN of the flags, of each row of the table. -/
def condBits : List Nat := [0, 1, 0, 0, 2, 2, 3, 4]

/-- One condition over an evaluation: counts present and absent in a row, and whether it stands. -/
def condStep (pres abs : Nat) (stands now : Bool) : Nat × Nat × Bool :=
  let p := if now then pres + 1 else 0
  let a := if now then 0 else abs + 1
  (p, a, if stands then decide (a < 10) else decide (2 ≤ p))

/-- COND, from the rows that stand. -/
def condWord (stands : List Bool) : Nat :=
  (List.range 8).foldl (fun a i => if stands.getD i false then setBit a (condBits.getD i 0) else a) 0

/-- The conditions of an input after an evaluation. -/
def Chip.whlConds (m : Chip) (n : Nat) (ts : List Bool) : Chip :=
  let m := (List.range 8).foldl (fun m i =>
    let w := m.wheel n
    let was := w.stands.getD i false
    let (p, a, s) := condStep (w.present.getD i 0) (w.absent.getD i 0) was (ts.getD i false)
    let m := m.setWheel n { w with present := w.present.set i p, absent := w.absent.set i a, stands := w.stands.set i s }
    if s && !was then m.whlFlag n (WHL_FLAGS_OPEN + condBits.getD i 0) else m) m
  m.wr WHL_STAT_COND n (condWord (m.wheel n).stands)

/-- The polarity of an input inverts by itself (R46); a reversed sensor is then no fault (R52). -/
def Chip.whlAutoPol (m : Chip) (n : Nat) : Bool := m.whlFe n == 0 && m.rdB WHL_FE_AUTO_POL n

/-- A condition that puts an input into FAULT is present (R52): any of R50, but REV where the polarity inverts by itself; and the REV of R46
where it does not. -/
def Chip.whlFaultCond (m : Chip) (n : Nat) : Bool :=
  let c := m.rd WHL_STAT_COND n
  (if m.whlAutoPol n then clrBit c 3 else c) != 0 || ((m.wheel n).revSlope && !m.whlAutoPol n)

/-- The same of an input or, in a pair, of either line (R53). -/
def Chip.whlBad (m : Chip) (h : Nat) : Bool := m.whlFaultCond h || (quadMode (m.whlMode h) && m.whlFaultCond (h + 1))

/-- FAULT by a condition of the input or of line B of its pair; was says that one was present before (R52, R53). -/
def Chip.whlCondFault (m : Chip) (n : Nat) (was : Bool) : Chip :=
  let h := m.whlHome n
  let m := if was || m.whlBad h then m.setWheel h { m.wheel h with condTb := some m.tb } else m
  if m.whlBad h then m.whlFail h else m

/-- A line that is held gives up the pulse in progress (R51, R63). -/
def Chip.whlHold (m : Chip) (n : Nat) : Chip :=
  let h := m.whlHome n
  if m.whlHeld n then m.setWheel h { m.wheel h with leadTb := none, dirPend := none } else m

/-- The exit condition of FAULT (R52, R57). -/
def Chip.whlMayExit (m : Chip) (n : Nat) : Bool :=
  let w := m.wheel n
  m.whlState n == whlFault && !w.noise && !m.whlBad n && (match w.condTb with | none => true | some t => decide (t + 100 * msTb ≤ m.tb))

/-- FAULT ends in COUNTING (R72). -/
def Chip.whlExit (m : Chip) (n : Nat) : Chip :=
  let m := ((m.whlTo n whlCounting).whlFrame n 0).whlFlag n WHL_FLAGS_FAULT_OUT
  m.setWheel n { m.wheel n with startNext := true, prevRef := none, mismRef := none, missing := 0 }

end Sys2Proof.Machine
end

