-- ==== Sys2Proof/Machine/Wheels.lean ====
section
/-! DEFINITION. The commands of the wheel inputs (02 R44-R80). -/

namespace Sys2Proof.Machine

/-- The arming fraction in eighths (R45). -/
def thrEighths (f : Nat) : Nat := f + 2

/-- R45: a positive peak of the differential voltage is recorded in 10 mV steps, and one above the arming level arms the input. -/
def Chip.vrArm (m : Chip) (n mv : Nat) : Chip :=
  let w := m.wheel n
  if m.whlFe n = 0 ∧ 0 < mv then
    let arms := decide (thrEighths (m.rd WHL_FE_THR_FRAC n) * w.peak * 10 < mv * 8) && decide (m.rd WHL_FE_VR_MIN n * 10 < mv)
    (m.setWheel n { w with armed := w.armed || arms, peak := mv / 10 }).wr WHL_VR_PEAK n (min 65535 (mv / 10))
  else m

def execVrArm (n : Fin 16) (mv : Nat) (s : State) : Host.Outcome State Fault Refusal := s.upd (·.vrArm n.val mv)

def execWheelEdge (n : Whl) (x : WhlSample) (steepOther both : Bool) (s : State) : Host.Outcome State Fault Refusal :=
  s.upd (·.whlEdge n.val x.reading x.held steepOther both)

def execWhlMissingReference (n : Whl) (s : State) : Host.Outcome State Fault Refusal := s.upd fun m => (m.whlIdxSettle n.val 0).whlMissing n.val

/-- R50: one evaluation, every 1 ms. With DIAG_EN = 0 nothing is evaluated: COND and its counts stand (DESIGN CHOICE, log entry 131: the manual
does not say what becomes of them). -/
def Chip.whlDiag (m : Chip) (n : Nat) (p : WhlPins) : Chip :=
  if m.due .whlDiag n ∧ m.clockOk islObserver then
    let m := m.stamp .whlDiag n
    let m := (m.wrSat WHL_DIAG_PIN_MV n p.pinMv).wr WHL_DIAG_PIN_CUR n (if m.whlFe n = 2 then min 65535 p.cur10uA.toNat else 0)
    if m.rdB WHL_FE_DIAG_EN n then
      let was := m.whlBad (m.whlHome n)
      let m := (m.whlConds n (m.whlTests n p)).whlHold n
      let h := m.whlHome n
      let m := (m.whlLine n).whlLine h
      let m := if quadMode (m.whlMode h) then m.whlLine (h + 1) else m
      m.whlCondFault n was
    else m
  else m

def execWhlDiagEvaluation (n : Whl) (p : WhlPins) (s : State) : Host.Outcome State Fault Refusal := s.upd (·.whlDiag n.val p)

/-- R50: the pull test, every 10 ms; the line follows both pulls. A disconnected pull tests nothing (R51). -/
def Chip.whlPull (m : Chip) (n : Nat) (up down : Bool) : Chip :=
  if m.due .whlPull n ∧ m.whlFe n = 1 ∧ m.rd WHL_FE_PULL n = 3 ∧ !m.whlHeldLine n then
    (m.stamp .whlPull n).setWheel n { m.wheel n with pullOpen := up && down }
  else m

def execWhlPullTest (n : Whl) (up down : Bool) (s : State) : Host.Outcome State Fault Refusal := s.upd (·.whlPull n.val up down)

/-- R52: the exit of FAULT, unless it is latched. -/
def execWhlFaultExit (n : Whl) (s : State) : Host.Outcome State Fault Refusal :=
  s.upd fun m => if m.whlMayExit n.val ∧ !m.rdB WHL_CFG_LATCH_FLT n.val then m.whlExit n.val else m

/-- R58: no qualified edge for STOP_TMO. -/
def Chip.whlStop (m : Chip) (n : Nat) : Chip :=
  let w := m.wheel n
  let tmo := m.rd WHL_TIMEOUT_STOP_TMO n
  if m.whlState n ≠ whlOff ∧ tmo ≠ 0 ∧ !m.rdB WHL_STAT_STOP n ∧ w.idleFrom + tmo * msTb ≤ m.tb then
    let m := (m.wr WHL_STAT_STOP n 1).whlFlag n WHL_FLAGS_STOP_IN
    m.whlSend n ⟨n, m.tb, 0, m.rdB WHL_STAT_DIR n, false, true, false, false, false, m.whlState n⟩
  else m

def execWhlStopTimeout (n : Whl) (s : State) : Host.Outcome State Fault Refusal := s.upd (·.whlStop n.val)

/-- R63: a pulse active for 4096 us qualifies as reverse. -/
def Chip.whlPulseLong (m : Chip) (n : Nat) : Chip :=
  let w := m.wheel n
  match w.leadTb with
  | none => m
  | some t =>
    if m.whlDirSrc n = 2 ∧ t + 4096 * usTb ≤ m.tbOf islObserver then (m.setWheel n { w with leadTb := none }).whlCandidate n t true else m

def execWhlDirPulseTimeout (n : Whl) (s : State) : Host.Outcome State Fault Refusal := s.upd (·.whlPulseLong n.val)

/-- The counts to the next expected edge (R66). -/
def Chip.whlAhead (m : Chip) (n : Nat) : Nat :=
  let tc : Int := max 1 (m.whlTc n)
  let g : Int := m.rd WHL_CFG_MISSING n + 1
  let rel := cntDiff (m.rdI WHL_CNT n) (m.wheel n).refCnt
  if m.whlState n = whlSync ∧ m.whlRef n = 1 ∧ (if m.rdB WHL_STAT_DIR n then rel else rel + g) % tc = 0 then g.toNat else 1

/-- The fraction steps from the angle of the last edge to one short of the angle of the next expected edge, in the direction of travel (R66). -/
def Chip.whlRoom (m : Chip) (n : Nat) : Int :=
  let tc : Int := m.whlTc n
  let k := m.whlInTurn n
  let a : Int := m.whlAhead n
  if m.rdB WHL_STAT_DIR n then k * 4294967296 / tc - (k - a) * 4294967296 / tc - 1
  else (k + a) * 4294967296 / tc - k * 4294967296 / tc - 1

/-- R66: one advance of the interpolation term. -/
def Chip.whlInterp (m : Chip) (n : Nat) : Chip :=
  let tc := m.whlTc n
  let m := (m.whlDirSettle n 0).whlIdxSettle n 0
  let w := m.wheel n
  if m.due .whlInterp n ∧ m.whlState n ≠ whlOff ∧ tc ≠ 0 ∧ !m.rdB WHL_STAT_STOP n ∧ !w.lastStart then
    let m := m.stamp .whlInterp n
    let base := m.whlTurnBase n
    let raw : Int := 4294967296 * ((m.tbOf islObserver : Int) - w.edgeTb) / (max 1 (m.rd WHL_IVL n) * tc : Nat)
    let t := minI (m.whlRoom n) raw
    (m.setWheel n { w with interp := if m.rdB WHL_STAT_DIR n then -t else t }).whlAngle n base
  else m

def execWhlInterpolationTick (n : Whl) (s : State) : Host.Outcome State Fault Refusal := s.upd (·.whlInterp n.val)

/-- The fields of WHL_CFG but MODE. -/
def whlCfgFields : List Field :=
  [WHL_CFG_REF, WHL_CFG_EDGE, WHL_CFG_ACQ, WHL_CFG_DIR_SRC, WHL_CFG_REALIGN, WHL_CFG_LATCH_FLT, WHL_CFG_MISSING]

/-- R55: the enable of an input, its other fields written, is refused. The enable of input n + 1 while the pair on n is on is not among the
conditions, and is taken (DESIGN CHOICE, log entry 132: R53 says that its MODE must be 0 and gives no refusal of that write). -/
def Chip.whlRefused (m : Chip) (n md : Nat) : Bool :=
  (md != 5 && decide (m.rd WHL_TEETH_TEETH n < 2)) || (quadMode md && (n % 2 == 1 || m.whlMode (n + 1) != 0)) ||
  (m.whlRef n == 1 && (decide (m.rd WHL_GAP_GAP_HI n ≤ 16) || m.rd WHL_CFG_MISSING n == 0)) ||
  (m.whlRef n == 2 && m.whlMode (m.rd WHL_SRC_INDEX_SRC n) != 5) || (m.whlDirSrc n == 1 && m.whlMode (m.rd WHL_SRC_DIR_IN n) != 5)

/-- A wheel input turns off: count, angle and drift hold, and what was in progress is given up (R72). -/
def Chip.whlTurnOff (m : Chip) (n : Nat) : Chip :=
  let lose := m.whlMode n == 1 || m.whlMode n == 3
  let m := (m.wr WHL_CFG_MODE n 0).whlTo n whlOff
  let m := m.setWheel n { m.wheel n with leadTb := none, idxPend := none, dirPend := none }
  if lose then m.slotsLoseWheel n else m

/-- A wheel input is enabled (R59, R60, R72). WHL_STAT.DIR starts forward, so a first edge in reverse sets DIR_CHG, and WHL_DRIFT keeps its old
value until the next acquisition (DESIGN CHOICE, log entries 133 and 134: the manual says neither). -/
def Chip.whlEnable (m : Chip) (n md : Nat) : Chip :=
  let w := m.wheel n
  let m := ((m.wr WHL_CFG_MODE n md).wr WHL_CNT n 0).wr WHL_TURN n 0
  let m := ((m.whlTo n whlCounting).wr WHL_STAT_STOP n 0).wr WHL_STAT_EFLT_WIN n 0
  let m := (m.wr WHL_STAT_DIR n 0).wr WHL_ANGLE n 0
  let m := m.setWheel n {
    armed := w.armed, peak := w.peak, steep := w.steep, revSlope := w.revSlope, present := w.present, absent := w.absent, stands := w.stands
    pullOpen := w.pullOpen, condTb := w.condTb, comp := w.comp, line := w.line, past := w.past
    idxTb := w.idxTb, edgeTb := w.edgeTb, edgeCnt := w.edgeCnt, startNext := true, firstNext := true, idleFrom := m.tb }
  (m.whlAdopt n).whlCondFault n false

/-- A write of WHL_CFG (R54, R55); modes 6 and 7 act as 0 and are stored as 0. -/
def Chip.whlCfgWrite (m : Chip) (n w : Nat) : Chip :=
  let md := wordField WHL_CFG_MODE w
  let md := if 5 < md then 0 else md
  if m.whlState n ≠ whlOff then if md = 0 then m.whlTurnOff n else m
  else
    let m := whlCfgFields.foldl (fun m f => m.wrFrom f n w) m
    if md = 0 then m
    else if m.whlRefused n md then m.whlFlag n WHL_FLAGS_CFG_ERR
    else m.whlEnable n md

def execWhlCfgWrite (who : Writer) (n : Whl) (w : Word) (s : State) : Host.Outcome State Fault Refusal :=
  s.upd fun m => if m.geomOk who then m.whlCfgWrite n.val w.toNat else m

/-- The references' flags of R72 and R69. -/
def refFlags : List Nat := [WHL_FLAGS_TCNT_ERR, WHL_FLAGS_IDX_MISMATCH, WHL_FLAGS_SYNC_ACQ, WHL_FLAGS_SYNC_LOST, WHL_FLAGS_ANGLE_STEP]

/-- A wheel as it stood before the reference of this cycle. -/
def Chip.whlUnref (m : Chip) (n : Nat) (u : RefUndo) : Chip :=
  let v := fun k => u.regs.getD k 0
  let m := (((m.wr WHL_STAT_STATE n (v 0)).wr WHL_STAT_ANGLE_VALID n (v 1)).wr WHL_IDX_LATCH n (v 2)).wr WHL_IDX_DELTA n (v 3)
  let m := ((m.wr WHL_DRIFT n (v 4)).wr WHL_ANGLE n (v 5)).wr WHL_TURN n (v 6)
  let m := m.wr WHL_FLAGS n (refFlags.foldl (fun a b => if bitAt (v 7) b then a else clrBit a b) (m.rd WHL_FLAGS n))
  let m := (m.wr WHL_TCNT_CNT n (v 8)).wr WHL_MISM_CNT n (v 9)
  m.setWheel n { m.wheel n with
    refCnt := u.refCnt, acqRef := u.acqRef, prevRef := u.prevRef, mismRef := u.mismRef, missing := u.missing, chk := u.chk, idxTb := u.idxTb
    idxMark := u.idxMark, tcntMark := u.tcntMark, undo := none }

/-- COUNTING by RESYNC: the next reference is a first one (R69, R72). -/
def Chip.whlResyncNow (m : Chip) (n : Nat) : Chip :=
  let st := m.whlState n
  if st = whlSync ∨ st = whlSuspect then
    let m := m.whlLose n
    m.setWheel n { m.wheel n with prevRef := none, mismRef := none, missing := 0 }
  else m

/-- R72, R74: RESYNC; a reference of the same cycle acts after it, whichever of the two commands came first. -/
def Chip.whlResync (m : Chip) (n : Nat) : Chip :=
  let m := m.whlIdxSettle n 0
  match (m.wheel n).undo.filter fun u => u.tb == m.tb with
  | some u => ((m.whlUnref n u).whlResyncNow n).whlReference n u.count u.at_ u.index
  | none => m.whlResyncNow n

def execWhlResync (who : Writer) (n : Whl) (s : State) : Host.Outcome State Fault Refusal :=
  s.upd fun m => if m.geomOk who then m.whlResync n.val else m

/-- R52: FAULT_CLR releases a latched FAULT whose exit condition is met. -/
def Chip.whlFaultClear (m : Chip) (n : Nat) : Chip := if m.whlMayExit n then m.whlExit n else m

def execWhlFaultClr (who : Writer) (n : Whl) (s : State) : Host.Outcome State Fault Refusal :=
  s.upd fun m => if m.geomOk who then m.whlFaultClear n.val else m

/-- R77: a read of WHL_EDGE_TB_LO: TB, count and interval of the same last qualified edge. -/
def Chip.whlEdgeSnap (m : Chip) (n : Nat) : Chip :=
  let w := m.wheel n
  let m := (m.wrTb WHL_EDGE_TB_LO WHL_EDGE_TB_HI n w.edgeTb).wr WHL_SNAP_CNT n w.edgeCnt
  let m := m.wr WHL_SNAP_IVL n (m.rd WHL_IVL n)
  { m with rdata := m.rd WHL_EDGE_TB_LO n }

def execWhlEdgeSnapshotRead (n : Whl) (s : State) : Host.Outcome State Fault Refusal := s.upd (·.whlEdgeSnap n.val)

/-- R77: a read of WHL_IDX_LATCH. -/
def Chip.whlIdxSnap (m : Chip) (n : Nat) : Chip :=
  let m := m.whlIdxSettle n 0
  let m := m.wrTb WHL_IDX_TB_LO WHL_IDX_TB_HI n (m.wheel n).idxTb
  { m with rdata := m.rd WHL_IDX_LATCH n }

def execWhlIdxSnapshotRead (n : Whl) (s : State) : Host.Outcome State Fault Refusal := s.upd (·.whlIdxSnap n.val)

end Sys2Proof.Machine
end

