-- ==== Sys2Proof/Machine/Bus.lean ====
section
/-! DEFINITION. The address map: which register stands at an address, who may write it, and what a write or a read of it does
(00 R6-R13, 01 R37-R42, 09 R318-R327, R472, R487, and the write rules of each chapter). -/

namespace Sys2Proof.Machine

/-! ## Registers by address (R37) -/

/-- The fields of the blocks that lie around an address. -/
def blockFields (a : Nat) : List Field :=
  let k := a / 65536
  if a < 0x1000 then fieldsHP
  else if a < 0x6000 then fieldsMB
  else if 0x10 ≤ k ∧ k < 0x1C then fieldsCH
  else if k = 0x20 then fieldsAX
  else if k = 0x30 then fieldsWHL
  else if 0x38 ≤ k ∧ k < 0x40 then fieldsMDL ++ fieldsMDL_DF ++ fieldsMDL_SRC
  else if k = 0x40 then fieldsBK ++ fieldsBST ++ fieldsPWR
  else if k = 0x48 then fieldsDG ++ fieldsDGB ++ fieldsCAP ++ fieldsCAPL ++ fieldsBCAP
  else if k = 0x50 then fieldsADC ++ fieldsAS ++ fieldsASE ++ fieldsASRES ++ fieldsCMP ++ fieldsSDS ++ fieldsSDSG ++ fieldsAIN
  else if k = 0x58 then fieldsFE ++ fieldsFEPROG ++ fieldsFIO ++ fieldsFG ++ fieldsFESYNC
  else if k = 0x5C then fieldsTIM
  else if k = 0x60 then fieldsISRC ++ fieldsIGRP ++ fieldsITGT ++ fieldsINT ++ fieldsIWAKE
  else if k = 0x68 then fieldsSYS ++ fieldsFABC
  else if k = 0x6C then fieldsPCH ++ fieldsPAX ++ fieldsPROT ++ fieldsPBANK ++ fieldsPMPU ++ fieldsKHASH ++ fieldsKDATA
  else if k = 0x70 then fieldsMAP ++ fieldsMAPCH ++ fieldsRATE ++ fieldsCT ++ fieldsPT
  else if k = 0x78 then fieldsNC
  else []

/-- The instance of a field whose register stands at an address. -/
def Field.at (f : Field) (a : Nat) : Option Nat :=
  let o := a - f.addr
  let i := if f.geo.n1 = 1 then 0 else o / f.geo.stride1
  let r := o - i * f.geo.stride1
  let j := if f.geo.n2 = 1 then 0 else r / f.geo.stride2
  if f.addr ≤ a ∧ i < f.geo.n1 ∧ j < f.geo.n2 ∧ f.addr + i * f.geo.stride1 + j * f.geo.stride2 = a then some (i * f.geo.n2 + j) else none

/-- A register: the address of its first instance, an instance, and its fields. -/
structure Reg where
  base : Nat
  inst : Nat
  fields : List Field
deriving DecidableEq, Repr

/-- The register at an address; none where no block decodes it (R38). -/
def regAt (a : Nat) : Option Reg :=
  match (blockFields a).filter fun f => (f.at a).isSome with
  | [] => none
  | f :: r => some ⟨f.addr, (f.at a).getD 0, f :: r⟩

/-- The island that holds an address; the power dies and the SRAM are reached through the management island. -/
def islandAt (a : Nat) : Nat :=
  let k := a / 65536
  if k < 0x10 then
    if a < 0x100 then islHostA
    else if a < 0x1000 then islHostB
    else if a < 0x3000 then islHostA
    else if a < 0x5000 then islHostB
    else if k = 4 then islHostA
    else if k = 5 then islHostB
    else islMgmt
  else if k < 0x1C then if a % 4096 = 0x88 then islAxis else (a - 0x100000) / 65536
  else if k = 0x20 then islAxis
  else if 0x30 ≤ k ∧ k < 0x40 then islObserver
  else if k = 0x48 ∧ a < 0x483000 then (a - 0x480000) / 1024
  else if 0x50 ≤ k ∧ k < 0x60 then islObserver
  else if 0x70 ≤ k ∧ k < 0x78 then islMap
  else islMgmt

/-- A block that keeps its clock in sleep (R480). -/
def Chip.awakeAt (m : Chip) (a : Nat) : Bool :=
  if 0x300000 ≤ a ∧ a < 0x310000 then m.clockOk islObserver
  else if 0x501000 ≤ a ∧ a < 0x501200 then m.cmpClock ((a - 0x501000) / 32)
  else if 0x5C0000 ≤ a ∧ a < 0x5C0400 then m.timClock ((a - 0x5C0000) / 64)
  else false

/-- The register at an address can be reached: its island runs, or its block keeps its clock in sleep. -/
def Chip.reaches (m : Chip) (a : Nat) : Bool := m.runs (islandAt a) || (m.asleep && m.awakeAt a)

/-- The clock gate of the block at an address is open (R472). -/
def Chip.gateAt (m : Chip) (a : Nat) : Bool :=
  if 0x580000 ≤ a ∧ a < 0x584000 then m.ungated 0 ((a - 0x580000) / 0x1000)
  else if 0x585000 ≤ a ∧ a < 0x585010 then m.ungated 0 ((a - 0x585000) / 4)
  else if 0x5C0000 ≤ a ∧ a < 0x5C0400 then m.ungated 0 (4 + (a - 0x5C0000) / 64)
  else if 0x500000 ≤ a ∧ a < 0x500400 then m.ungated 0 (20 + (a - 0x500000) / 256)
  else if 0x500400 ≤ a ∧ a < 0x501000 then m.ungated 0 24
  else if 0x501000 ≤ a ∧ a < 0x501200 then m.ungated 1 ((a - 0x501000) / 32)
  else if 0x502000 ≤ a ∧ a < 0x503800 then m.ungated 0 (25 + (a - 0x502000) / 1024)
  else if 0x503800 ≤ a ∧ a < 0x503830 then m.ungated 0 (25 + (a - 0x503800) / 8)
  else if 0x488000 ≤ a ∧ a < 0x488400 then m.ungated 1 (16 + (a - 0x488000) / 128)
  else true

/-! ## Who may write (R39, R41, R318, R320, R487) -/

/-- The writer that the port area names for an address (R318). -/
def portWriter (a : Nat) : Writer :=
  if islandAt a = islHostA then .hostA else if islandAt a = islHostB then .hostB else .anvilC

/-- The pose owner's registers (R101). -/
def poseReg (a : Nat) : Bool :=
  decide (0x380080 ≤ a ∧ a ≤ 0x38009C) || a == 0x3800CC || (decide (0x380100 ≤ a ∧ a < 0x380200) && a % 32 == 16)

/-- The clock, reset and power registers (R495), Anvil-V's and Anvil-C's own among them. -/
def Chip.sysReg (m : Chip) (who : Writer) (a : Nat) : Bool :=
  if a = RST_ISL.addr ∨ a = RST_CFG_CL_RETRY.addr ∨ a = WDT_V_TMO.addr ∨ a = WDT_V_KICK.addr ∨ a = SYS_FLT_IE.addr then who == .anvilV
  else if a = WDT_C_KICK.addr then who == .anvilC && m.dwOk .anvilC
  else if a = BOOT_RCV_LEN.addr then (writerPort who).isSome
  else m.sysOk who

/-- Writes into the SRAM window (R40-R42, R490): hosts into the granted pages of the shared region from page 4 on. -/
def Chip.sramOk (m : Chip) (who : Writer) (a : Nat) : Bool :=
  let page := (a - 0xC40000) / 65536
  let shared := decide (0xC40000 ≤ a) && decide (a < 0xD40000) && decide (4 ≤ page)
  match who with
  | .anvilV => true
  | .anvilC => m.dwOk .anvilC
  | .hostA => shared && m.dwOk .hostA && bitAt (m.rd PROT_SHR_A) page
  | .hostB => shared && m.dwOk .hostB && bitAt (m.rd PROT_SHR_B) page

/-- A writer may write an address. -/
def Chip.mayWrite (m : Chip) (who : Writer) (a : Nat) : Bool :=
  let k := a / 65536
  if k < 0x10 then who == portWriter a
  else if k < 0x1C then m.isOwner who (m.chOwner ((a - 0x100000) / 4096))
  else if k = 0x20 then m.isOwner who (m.axOwner ((a - 0x200000) / 256))
  else if 0x30 ≤ k ∧ k < 0x40 then m.isOwner who (if poseReg a then m.rd PROT_ROLE_POSE else m.rd PROT_ROLE_GEOM)
  else if k = 0x40 then m.isOwner who (m.rd PROT_ROLE_DRIVE)
  else if k = 0x48 then m.isOwner who (if a < 0x483000 then m.chOwner ((a - 0x480000) / 64) else m.rd PROT_ROLE_DRIVE)
  else if 0x50 ≤ k ∧ k < 0x68 then
    if 0x600900 ≤ a ∧ a < 0x600920 then who == .anvilV else m.sysOk who
  else if k = 0x68 then m.sysReg who a
  else if k = 0x6C then m.setupOk who
  else if 0x70 ≤ k ∧ k < 0x80 then who == .anvilV
  else m.sramOk who a

/-! ## Writes -/

/-- A field under its access code (R7). -/
def Chip.fieldWrite (m : Chip) (i w : Nat) (f : Field) : Chip :=
  match f.acc with
  | .rw | .sl => m.wrFrom f i w
  | .w1c => m.clearFlags f i (wordField f w)
  | _ => m

/-- A register whose fields have no behaviour of their own. -/
def Chip.regPut (m : Chip) (r : Reg) (w : Nat) : Chip := r.fields.foldl (fun m f => m.fieldWrite r.inst w f) m

/-- The source of an enables register (R385). -/
def ieSource (r : Reg) : Option Nat :=
  let b := r.base
  let i := r.inst
  if b = CH_IE.addr then some i
  else if b = WHL_IE.addr then some (192 + i)
  else if b = BK_IE.addr then some (256 + i)
  else if b = BST_IE.addr then some 280
  else if b = PWR_IE.addr then some (281 + i)
  else if b = MDL_IE.addr then some 283
  else if b = DGB_IE.addr then some (288 + i)
  else if b = CAP_IE.addr then some (312 + i)
  else if b = MAP_IE.addr then some 320
  else if b = NC_IE.addr then some 321
  else if b = HP_IE.addr then some (322 + i)
  else if b = SUPM_IE.addr then some 330
  else if b = SUP_IE.addr then some 331
  else if b = TIM_IE.addr then some (336 + i)
  else if b = FE_IE.addr then some (352 + i)
  else if b = CMP_IE.addr then some (384 + i)
  else if b = ADC_IE.addr then some (400 + i)
  else if b = AS_IE.addr then some 404
  else if b = SDSG_IE.addr then some (405 + i)
  else none

/-- Any other register: an enables register is an occurrence over a standing flag (R386). -/
def Chip.plainWrite (m : Chip) (r : Reg) (w : Nat) : Chip :=
  match (ieSource r).bind fun n => (srcRegs n).map fun x => (n, x) with
  | some (n, fl, ie, i) => m.enable fl ie i n w
  | none => m.regPut r w

/-- A write of CH_ARM_CMD: CANCEL_ALL, then CANCEL or, without it, ARM. -/
def Chip.armCmd (m : Chip) (who : Writer) (ch w : Nat) : Chip :=
  let m := if bitAt w 2 then m.cancelAll who ch else m
  if bitAt w 1 then m.cancelDirect who ch (wordField CH_ARM_CMD_HANDLE w) else if bitAt w 0 then m.armDirect ch else m

/-- A lattice register that is ignored while the lattice is enabled (R192). -/
def latFixed (b : Nat) : Bool :=
  b == LAT_E0.addr || b == LAT_N0.addr || b == LAT_BRG.addr || b == LAT_PITCH_A.addr || b == LAT_OUT_UNIT.addr || b == LAT_TUBE_T0.addr

/-- A write in a channel block. -/
def Chip.chWrite (m : Chip) (who : Writer) (r : Reg) (w : Nat) : Chip :=
  let ch := r.inst
  let b := r.base
  let m := m.touch ch
  if b = CH_CTL_MODE.addr then m.chCfgWrite ch 0 w
  else if b = CH_AXIS_AX.addr then m.chCfgWrite ch 1 w
  else if b = CH_ADV_MODE.addr then m.chCfgWrite ch 2 w
  else if b = CH_ARM_CMD_ARM.addr then m.armCmd who ch w
  else if b = TR_CMD_UPD.addr then if bitAt w 0 then m.trainUpdate ch (m.rd TR_PITCH ch) (m.rd TR_WIDTH ch) else m
  else if b = LAT_CFG_EN.addr then m.latCfg ch w
  else if latFixed b then if m.rdB LAT_CFG_EN ch then m else m.plainWrite r w
  else if b = LAT_CMD_TUBE_CLR.addr then
    let m := if bitAt w 0 then m.tubeClear ch else m
    if bitAt w 1 then m.trimClear ch else m
  else if b = CH_DRV_PK_PK_LO.addr then m.windowWrite ch w false
  else if b = CH_DRV_HD_HD_LO.addr then m.windowWrite ch w true
  else if b = CH_DRV_BST_I_BST.addr then
    (m.wrFrom CH_DRV_BST_T_BST ch w).cappedWrite CH_DRV_BST_I_BST ch (wordField CH_DRV_BST_I_BST w) (m.capPeak ch)
  else if b = CH_DRV_FLOOR_FLOOR.addr then m.cappedWrite CH_DRV_FLOOR_FLOOR ch (wordField CH_DRV_FLOOR_FLOOR w) (m.capHold ch)
  else if b = CH_DRV_PLAIN_LIM.addr then m.cappedWrite CH_DRV_PLAIN_LIM ch (wordField CH_DRV_PLAIN_LIM w) (m.capHold ch)
  else m.plainWrite r w

/-- A write of a wheel input (R54, R55). -/
def Chip.whlWrite (m : Chip) (r : Reg) (w : Nat) : Chip :=
  let n := r.inst
  if r.base = WHL_CFG_MODE.addr then m.whlCfgWrite n w
  else if r.base = WHL_CMD_RESYNC.addr then
    let m := if bitAt w 0 then m.whlResync n else m
    if bitAt w 1 then m.whlFaultClear n else m
  else if r.base = WHL_FE_FE.addr then
    let m := m.plainWrite r w
    if 16 ≤ n ∧ m.rd WHL_FE_FE n = 0 then m.wr WHL_FE_FE n 1 else m
  else if r.base = WHL_TEETH_TEETH.addr then if m.whlState n = whlOff then m.plainWrite r w else m
  else m.plainWrite r w

/-- A write of Mandrel (R84, R101-R107). -/
def Chip.mdlWrite (m : Chip) (r : Reg) (w : Nat) : Chip :=
  let b := r.base
  if b = MDL_CFG_EN.addr then m.mdlCfgWrite w
  else if b = MDL_CMD_FIELD_SET.addr then
    let m := if bitAt w 0 then m.fieldSetCmd else m
    if bitAt w 1 then m.learnClearAll else m
  else if b = MDL_POSE_CMD_COMMIT.addr then if bitAt w 0 then m.poseCommit else m
  else if b = MDL_YAW_HOST.addr then m.yawHost w
  else if b = MDL_DF_HOST.addr then
    let m := m.plainWrite r w
    if m.rd MDL_DF_CFG_SRC r.inst = 3 then m.deflOffer r.inst (toSigned 32 w) else m
  else if b = MDL_SRC_CFG_EN.addr then m.srcCfgWrite r.inst w
  else if b = MDL_SRC_SCALE.addr ∨ b = MDL_SRC_LOOP_BW.addr then if m.rdB MDL_SRC_CFG_EN r.inst then m else m.plainWrite r w
  else m.plainWrite r w

/-- A write of the banks, the boost controller, the limiters, or of bank diagnostics and capture. -/
def Chip.driveWrite (m : Chip) (r : Reg) (w : Nat) : Chip :=
  let b := r.base
  let i := r.inst
  if b = BK_CTL_EN.addr then m.bankCtl i w
  else if b = BST_CTL_EN.addr then m.bstCtl w
  else if b = BST_MARG_RDY.addr then (m.plainWrite r w).boostEval
  else if b = DGB_CMD_TEST.addr then if bitAt w 0 then m.setBank i { m.bank i with supReq := true } else m
  else if b = CAP_CMD_CH.addr then
    m.capCmd i (if wordField CAP_CMD_REQ w = 1 then some (wordField CAP_CMD_CH w) else none) (wordField CAP_CMD_REL w)
  else if b = CAP_CFG_EN.addr then (m.plainWrite r w).capFill i
  else if b = DG_CMD_CLR.addr then
    let m := if bitAt w 0 then m.diagClr i else m
    if bitAt w 1 then m.setDrv i { m.drv i with nodeReq := true } else m
  else m.plainWrite r w

/-- A write of the analogue block, the filigree engines or the timers. -/
def Chip.observerWrite (m : Chip) (r : Reg) (w : Nat) : Chip :=
  let b := r.base
  let i := r.inst
  if b = ADC_CTL_MODE.addr then
    m.adcCtl i (wordField ADC_CTL_MODE w) (wordField ADC_CTL_RATE w) (bitAt w 5) (bitAt w 6 && i % 2 == 0)
  else if b = ADC_SEL_INPUT.addr then m.adcSel i (w % 1024)
  else if b = ADC_CMD_START.addr then
    if bitAt w 0 then m.adcBegin i else if m.rdB ADC_STAT_PAIRED i then m.adcFlag i ADC_FLAGS_CFG_ERR else m
  else if b = AS_CTL_EN.addr then m.asCtl w
  else if b = CMP_CFG_EN.addr then m.cmpWrite i w false
  else if b = CMP_THR_LO.addr then m.cmpWrite i w true
  else if b = SDS_CFG_EN.addr then m.sdsWrite i w false
  else if b = SDS_THR_LO.addr then m.sdsWrite i w true
  else if b = FE_CTL_EN.addr then m.feCtl i (bitAt w 0)
  else if b = FE_TX.addr then m.feTx i w
  else if b = FE_PROG.addr then m.feProg (i / 64) (i % 64) (wordField FE_PROG w)
  else if b = FG_FLAGS.addr then m.groupLower i (w % 256)
  else if b = FE_SYNC_CMD.addr then m.feSync (bitAt w 1) (bitAt w 2) (bitAt w 3) (bitAt w 0)
  else if 0x580000 ≤ b ∧ b < 0x580100 then (m.feSettle i).plainWrite r w
  else if b = TIM_CTL_EN.addr then m.timWrite i w false
  else if b = TIM_CNT.addr then m.timWrite i w true
  else m.plainWrite r w

/-- The sources of a word of INT_WAKE that can wake the device (R404). -/
def wakeMask (k : Nat) : Nat := (List.range 32).foldl (fun a b => if srcWakes (32 * k + b) then setBit a b else a) 0

/-- A write of the interrupt controller (R405, R406). -/
def Chip.intWrite (m : Chip) (who : Writer) (r : Reg) (w : Nat) : Chip :=
  let b := r.base
  if b = INT_SRC_URG.addr then
    if srcReserved r.inst then m
    else
      let v := bitAt (m.rd INT_SRC_TGT r.inst) 0
      let m' := m.plainWrite r w
      m.lateWrite (if who = .anvilV then m' else m'.wr INT_SRC_TGT r.inst (putBit (m'.rd INT_SRC_TGT r.inst) 0 v)) b r.inst
  else if b = INT_SWSET_SRC.addr then if 416 ≤ w % 512 then m.occur (w % 512) else m
  else if b = INT_CLRPEND_SRC.addr then m.clrPend w
  else if b = INT_WAKE.addr then m.wr INT_WAKE r.inst (w &&& wakeMask r.inst)
  else m.lateWrite (m.plainWrite r w) b r.inst

/-- A write of SYS_FLT_IE: each bit is a source of its own (R493). -/
def Chip.fltEnable (m : Chip) (w : Nat) : Chip :=
  let old := m.rd SYS_FLT_IE
  let m := m.wr SYS_FLT_IE 0 w
  (List.range 5).foldl (fun m b => if bitAt w b && !bitAt old b && bitAt (m.rd SYS_FLT_FLAGS) b then m.occur (325 + b) else m) m

/-- Islands reset by a word of RST_ISL. -/
def Chip.resetIslands (m : Chip) (w : Nat) : Chip :=
  (List.range 18).foldl (fun m i => if bitAt w i then m.islandReset i false else m) m

/-- Pins of sensor supplies, as a number that nothing constrains. -/
def Chip.freeByte (m : Chip) : Nat × Chip := let (x, m) := m.free; (ofSigned 8 x, m)

/-- A write of a gate word: what it replaces acts until the cycle ends (R472). -/
def Chip.gateWrite (m : Chip) (r : Reg) (w : Nat) : Chip :=
  let m := (List.range 32).foldl Chip.feSettle m
  (m.setCycle { m.cycle with gates := some m.gateWords }).plainWrite r w

/-- A write of the clocks, reset and power registers (R462-R495, R519). -/
def Chip.sysWrite (m : Chip) (who : Writer) (r : Reg) (w : Nat) : Chip :=
  let b := r.base
  if b = CLK_CFG_XTAL_EN.addr then m.clkCfg w
  else if b = CLK_SEL0.addr then m.selWrite 0 16 w
  else if b = CLK_SEL1.addr then m.selWrite 16 2 w
  else if b = CLK_TRIM_REF.addr then m.trimWrite w
  else if b = CLK_GATE0.addr ∨ b = CLK_GATE1.addr then m.gateWrite r w
  else if b = RST_ISL.addr then m.resetIslands w
  else if b = WDT_V_KICK.addr then if w % 256 = 0x5A then { m with sys := { m.sys with wdtV := m.tb } } else m
  else if b = WDT_C_KICK.addr then if w % 256 = 0xA5 then { m with sys := { m.sys with wdtC := m.tb } } else m
  else if b = SYS_SLEEP_REQ.addr then if bitAt w 0 then { m with sys := { m.sys with sleepReq := true } } else m
  else if b = BOOT_RCV_LEN.addr then
    match writerPort who with
    | some p => m.bootRcv p w
    | none => m
  else if b = SYS_FLT_IE.addr then m.fltEnable w
  else if b = SUP_CTL_EN.addr then let (x, m) := m.freeByte; m.supCtl w x
  else m.plainWrite r w

/-- The mirrors of a bank's limits (R488). -/
def Chip.bankLimits (m : Chip) (b : Nat) : Chip :=
  (((m.wr BK_LIM0_BV_MAX b (clampN 24 65 (m.rd PROT_BANK_BV_MAX b))).wr BK_LIM0_IPK_MAX b (min 1000 (m.rd PROT_BANK_IPK_MAX b))).wr
    BK_LIM0_DUTY_MAX b (min 1000 (m.rd PROT_BANK_DUTY_MAX b))).wr BK_LIM1_TBST_MAX b (m.rd PROT_BANK_TBST_MAX b)

/-- A write of the protection set-up (R484-R490). -/
def Chip.protWrite (m : Chip) (r : Reg) (w : Nat) : Chip :=
  let b := r.base
  if b = PROT_SEAL_SEAL.addr then if bitAt w 0 then m.seal else m
  else if b = KEY_PROG_SLOT.addr then m.keyProg w
  else if b = PROT_BANK_BV_MAX.addr ∨ b = PROT_BANK_TBST_MAX.addr then (m.plainWrite r w).bankLimits r.inst
  else m.plainWrite r w

/-- A write of the map engine or the NAND controller by Gelow (R265, R271, R289). -/
def Chip.mapWrite (m : Chip) (r : Reg) (w : Nat) : Chip :=
  let b := r.base
  if b = MAP_CFG_EN.addr then
    let m := m.plainWrite r w
    if m.rdB MAP_CFG_EN then m else m.gatesOff
  else if b = MAP_CH_CFG_GATE_EN.addr then
    let m := m.plainWrite r w
    if m.rdB MAP_CH_CFG_GATE_EN r.inst then m else m.gateDisable r.inst
  else if b = NC_CFG_EN.addr then
    let fixed := m.rdB NC_CFG_EN
    let m := [NC_CFG_TMODE, NC_CFG_REFRESH_THR, NC_CFG_WL_DELTA].foldl (fun m f => m.wrFrom f 0 w) m
    let m := if fixed then m else (m.wrFrom NC_CFG_MIRROR 0 w).wrFrom NC_CFG_T1_EN 0 w
    if fixed && !bitAt w 0 then m.nandUnmount else m.wrFrom NC_CFG_EN 0 w
  else m.plainWrite r w

/-- A write of a port register or a mailbox register (R318-R331, R351). -/
def Chip.portWrite (m : Chip) (r : Reg) (w : Nat) : Chip :=
  let b := r.base
  if b = HP_Q_HEAD.addr then m.headWrite r.inst (w % 8192)
  else if b = MB_DOOR_SEQ.addr then (m.door r.inst (w % 256)).2
  else if b = MB_CTL_ABORT.addr then
    let m := if bitAt w 0 then m.mbAbort r.inst else m
    if bitAt w 1 then m.mbNext r.inst else m
  else m.plainWrite r w

/-- A write of a register that its writer may make, in a block that runs. -/
def Chip.regWrite (m : Chip) (who : Writer) (r : Reg) (w : Nat) : Chip :=
  let k := r.base / 65536
  if k < 0x10 then m.portWrite r w
  else if k < 0x1C then m.chWrite who r w
  else if k = 0x20 then if r.base = AX_CFG_KIND.addr then m.axCfgWrite r.inst w else m.plainWrite r w
  else if k = 0x30 then m.whlWrite r w
  else if k < 0x40 then m.mdlWrite r w
  else if k < 0x50 then m.driveWrite r w
  else if k < 0x60 then m.observerWrite r w
  else if k = 0x60 then m.intWrite who r w
  else if k = 0x68 then m.sysWrite who r w
  else if k = 0x6C then m.protWrite r w
  else m.mapWrite r w

/-- A write of a word of memory: a command area or an upload buffer that is locked sets LOCKED_WR (R327, R330). -/
def Chip.memWrite (m : Chip) (a w : Nat) : Chip :=
  if 0x1000 ≤ a ∧ a < 0x6000 then
    let x := (a - 0x1000) / 0x400
    if 0x100 ≤ a % 0x400 then m else if m.mbBusy x then m.mbFlag x HP_FLAGS_LOCKED_WR else m.storeNat a 4 w
  else if 0x40000 ≤ a ∧ a < 0x60000 then
    let p := (a - 0x40000) / 0x10000
    if m.rdB HP_STAT_UP_BUSY p then m.hpFlag p HP_FLAGS_LOCKED_WR else m.storeNat a 4 w
  else if 0x800000 ≤ a then m.storeNat a 4 w
  else m

/-- The place of a writer in the order of R317, from 1; Anvil-V stands outside it. -/
def writePlace : Writer → Nat
  | .anvilC => 1
  | .hostA => 2
  | .hostB => 3
  | .anvilV => 0

/-- A writer that comes later in the order of R317 has written the word in this cycle. -/
def Chip.outWritten (m : Chip) (who : Writer) (a : Nat) : Bool := decide (0 < writePlace who ∧ writePlace who < tabGet m.cycle.writes a 0)

/-- The write is kept for the order of R317. -/
def Chip.noteWrite (m : Chip) (who : Writer) (a : Nat) : Chip :=
  if writePlace who = 0 then m else m.setCycle { m.cycle with writes := tabPut m.cycle.writes a (writePlace who) }

/-- A write as it reaches the block of its address: of two in one cycle, that of the later writer stands (R317). -/
def Chip.blockWrite (m : Chip) (who : Writer) (a w : Nat) : Chip :=
  if m.mayWrite who a && m.outWritten who a then m
  else
  let m := if m.mayWrite who a then m.noteWrite who a else m
  match regAt a with
  | some r =>
    if who != .anvilV && who != .anvilC && bitAt w 1 && r.base == SYS_SLEEP_REQ.addr && m.asleep then m.wakeReq who
    else if m.mayWrite who a && m.reaches a && m.gateAt a then m.regWrite who r w
    else m
  | none => if m.mayWrite who a && m.reaches a then m.memWrite a w else m

/-- A reader or writer can reach the bus: a host island runs, a core runs. -/
def Chip.onBus (m : Chip) (who : Writer) : Bool :=
  match who with
  | .hostA => m.powered && m.runs islHostA
  | .hostB => m.powered && m.runs islHostB
  | .anvilV => m.coreRuns 0
  | .anvilC => m.coreRuns 1

/-- A write of one word; Anvil-C traps on an access that its regions do not allow (R35, R489). -/
def Chip.busWrite (m : Chip) (who : Writer) (a w : Nat) : Chip :=
  if a % 4 ≠ 0 ∨ !m.onBus who then m
  else if who = .anvilC ∧ !m.mpuOk (0x40000000 + a) .write then m.trap 1 (0x40000000 + a) .write
  else m.blockWrite who a w

/-- R7-R9, R317: one write of one register field that has no behaviour of its own, or of any other address by its own rule. -/
def execRegisterWrite (who : Writer) (addr : BitVec 24) (w : Word) (s : State) : Host.Outcome State Fault Refusal :=
  s.upd (·.busWrite who addr.toNat w.toNat)

/-! ## Reads -/

/-- CH_DRV_I.RMS over the last 1 ms: 0 where the channel has been off that long, else a value that the rules do not give. -/
def Chip.rmsRead (m : Chip) (ch : Nat) : Chip :=
  if m.phase ch = phOff ∧ (m.drv ch).offSince + msTb ≤ m.tb then m.wr CH_DRV_I_RMS ch 0 else m.freeSample CH_DRV_I_RMS ch 1

/-- The voltage of a bank node: VBKn through HSS, VBOOST through HSB (R202, R203), else a value that the rules do not give. -/
def Chip.nodeVolts (m : Chip) (b : Nat) : Chip :=
  if m.rdB BK_STAT_HSS b then m.wr BK_V_NODE b (m.rd BK_V_VBK b)
  else if m.rdB BK_STAT_HSB b then m.wr BK_V_NODE b (m.rd BST_V)
  else m.freeSample BK_V_NODE b 1

/-- BST_EOUT: 0 without a boost phase in the last second, else a value that the rules do not give (R209). -/
def Chip.boostOut (m : Chip) : Chip :=
  let some_ := (List.range 24).any (fun b => m.rdB BK_STAT_HSB b) || m.boost.lastBst.any fun t => decide (m.tb < t + 1000 * msTb)
  if some_ then m.freeSample BST_EOUT 0 1 else m.wr BST_EOUT 0 0

/-- The groups with a source that is pending for a target (R406). -/
def Chip.psum (m : Chip) (t : Nat) : Nat :=
  m.pendingSrcs.foldl (fun a n => if bitAt (m.rd INT_SRC_PEND n) t then setBit a (n / 16) else a) 0

/-- Fields that show the present state of the block are brought up to date for a read. -/
def Chip.freshen (m : Chip) (r : Reg) : Chip :=
  let b := r.base
  let i := r.inst
  if b = CH_STAT_OUT.addr then
    ((m.wr CH_STAT_PEND i (m.pend i)).wr CH_STAT_STAND i (m.standCount i)).wrB CH_STAT_HEAD_VALID i !(m.heldHeads i).isEmpty
  else if b = CH_POOL_FREE.addr then (m.wr CH_POOL_FREE i m.poolFree).wr CH_POOL_LOW i (m.rd CH_POOL_LOW)
  else if b = TR_STAT_RUN.addr then m.wrB TR_STAT_PEND i (m.trainPend i)
  else if b = TR_NEXT_LO.addr then
    match (m.chan i).train with
    | none => m
    | some t => (m.wr TR_NEXT_LO i (t.point t.n)).wr TR_NEXT_HI i (t.point t.n / 2 ^ 32)
  else if b = AX_STAT_STATE.addr then m.wrB AX_STAT_FIELD_OK i (m.rdB MDL_STAT_FIELD_OK)
  else if b = CH_DRV_I_NOW.addr then m.rmsRead i
  else if b = BK_V_VBK.addr then m.nodeVolts i
  else if b = BK_I.addr then m.freeSample BK_I i 1
  else if b = BK_PWR.addr then m.freeSample BK_PWR i msTb
  else if b = BST_EOUT.addr then m.boostOut
  else if b = BST_CLAMP_E.addr then m.clampTake
  else if b = BST_ERET.addr then m.freeSample BST_ERET 0 1
  else if b = DG_NODE.addr then m.freeSample DG_NODE i msTb
  else if 0x580000 ≤ b ∧ b < 0x580100 then m.feSettle i
  else if b = FIO_CFG_SRC.addr then m.wrB FIO_CFG_LEVEL i (m.pin i)
  else if b = ADC_STAT_BUSY.addr then m.wrB ADC_STAT_SETTLE i (m.adcSettle i)
  else if b = HP_STAT_GELOW_UP.addr then m.wrB HP_STAT_QNE i (m.queueLen i != 0)
  else if b = INT_SRC_URG.addr then m.wrB INT_SRC_ASSERT i (m.asserted i)
  else if b = INT_TSTAT_ACTIVE.addr then if 2 ≤ i then m.wrB INT_TSTAT_QFULL i (m.queueFull (i - 2)) else m
  else if b = INT_PSUM.addr then m.wr INT_PSUM i (m.psum i)
  else if b = MAP_STAT_ACTIVE.addr then m.mapStat
  else if b = NC_STAT_MSTATE.addr then if m.rd NC_STAT_MSTATE = 0 then m.wr NC_STAT_BUSY 0 0 else m.freeSample NC_STAT_BUSY 0 1
  else if b = MAP_SCAN_TB_LO.addr then m.wr MAP_SCAN_TB_HI 0 ((tabGet m.stamps (Period.mapScan.no * 1024) 1 - 1) / 2 ^ 32)
  else m

/-- A field as a read returns it (R7, R11). -/
def Chip.readField (m : Chip) (f : Field) (i : Nat) : Nat :=
  match f.acc with
  | .wo => 0
  | .rc => (m.rcRead f i).1
  | _ => m.rd f i

/-- The fields of a register as a read returns them. -/
def Chip.readWord (m : Chip) (r : Reg) : Nat := r.fields.foldl (fun a f => a + m.readField f r.inst * 2 ^ f.lsb) 0

/-- An RC field after a read: clear, but for what hardware counts in the same cycle (R7, R11). -/
def Chip.rcClear (m : Chip) (f : Field) (i : Nat) : Chip :=
  let v := (m.rcRead f i).2
  (m.setCycle { m.cycle with counts := m.otherCounts f i }).wr f i v

/-- RC fields clear after the read (R7). -/
def Chip.clearRc (m : Chip) (r : Reg) : Chip := (r.fields.filter fun f => f.acc == .rc).foldl (fun m f => m.rcClear f r.inst) m

/-- A read of a register in a block that runs. -/
def Chip.regRead (m : Chip) (r : Reg) : Chip :=
  let b := r.base
  let i := r.inst
  if b = WHL_EDGE_TB_LO.addr then m.whlEdgeSnap i
  else if b = WHL_IDX_LATCH.addr then m.whlIdxSnap i
  else if b = MDL_TB_LO.addr then m.mdlSnapshot
  else if b = AX_POS_LO.addr then m.axSnapshot i
  else if b = CH_LAST_O_HANDLE.addr then m.chLastRead i
  else if b = CH_HEAD_TB_LO.addr then m.chHeadRead i
  else if b = CH_SLOT_INFO_HANDLE.addr then m.chSlotRead i
  else if b = DG_NOTCH_T_M.addr then m.dgNotchRead i
  else if b = ADC_RES.addr then m.adcRead i
  else if b = AS_RES.addr then m.asRead i
  else if b = CMP_TB_LO.addr then m.cmpRead i
  else if b = SDS_DROP_TB_LO.addr then m.sdsRead i
  else if b = TIM_CAP.addr then m.timRead i
  else if b = FE_RX.addr then m.feRx i
  else
    let m := m.freshen r
    ({ m with rdata := m.readWord r }).clearRc r

/-- No block decodes an address that holds no register: it is neither a mailbox area, an upload buffer nor the SRAM window (R38). -/
def undecoded (a : Nat) : Bool := !(decide (0x1000 ≤ a ∧ a < 0x6000) || decide (0x40000 ≤ a ∧ a < 0x60000) || decide (0x800000 ≤ a))

/-- A read of one word through the bus: an undecoded address reads 0 (R38), a gated or sleeping block reads 0 (R472, R480), as does a reserved
interrupt source (R388), an island without a clock a value that the rules do not give. -/
def Chip.busRead (m : Chip) (a : Nat) : Chip :=
  if a % 4 ≠ 0 ∨ ((regAt a).isNone ∧ undecoded a) then { m with rdata := 0 }
  else if !m.reaches a then
    if m.asleep then { m with rdata := 0 } else let (x, m) := m.free; { m with rdata := ofSigned 32 x }
  else if !m.gateAt a then { m with rdata := 0 }
  else match regAt a with
    | some r => if r.base = INT_SRC_URG.addr ∧ srcReserved r.inst then { m with rdata := 0 } else m.regRead r
    | none =>
      if 0x1000 ≤ a ∧ a < 0x6000 ∧ a % 0x400 = 0x100 then m.respRead ((a - 0x1000) / 0x400)
      else { m with rdata := m.loadNat a 4 }

/-- A host reads nothing of the Gelow region (R40). -/
def Chip.hostRead (m : Chip) (a : Nat) : Chip := if 0xD40000 ≤ a then { m with rdata := 0 } else m.busRead a

/-- A read of an RC counter, or of any other register: the value, then its RC fields clear. -/
def execRcRead (addr : BitVec 24) (s : State) : Host.Outcome State Fault Refusal :=
  s.upd fun m => if m.powered then m.hostRead addr.toNat else m

/-! ## Mailbox registers (R326-R331, R351) -/

/-- A write of MB_DOOR by the mailbox's writer. -/
def execMbDoor (x : Mbx) (seq : Byte) (s : State) : Host.Outcome State Fault Refusal :=
  s.upd fun m => if m.mbRuns x.val then (m.door x.val seq.toNat).2 else m

def execMbAbort (x : Mbx) (s : State) : Host.Outcome State Fault Refusal := s.upd fun m => if m.mbRuns x.val then m.mbAbort x.val else m

def execMbNext (x : Mbx) (s : State) : Host.Outcome State Fault Refusal := s.upd fun m => if m.mbRuns x.val then m.mbNext x.val else m

def execResponseRead (x : Mbx) (s : State) : Host.Outcome State Fault Refusal :=
  s.upd fun m => if m.mbRuns x.val then m.respRead x.val else m

def execHpQHeadWrite (p : Port) (w : Word) (s : State) : Host.Outcome State Fault Refusal :=
  s.upd fun m => if m.runs (islHostA + portNo p) then m.headWrite (portNo p) w.toNat else m

end Sys2Proof.Machine
end

