-- ==== Sys2Proof/Machine/Frames.lean ====
section
/-! DEFINITION. Frames of the host ports (09 R308-R317). -/

namespace Sys2Proof.Machine

/-! ## CRC-16 and the header (R309, R310) -/

/-- One bit of the CRC register. -/
def crcStep (c : Nat) : Nat := if bitAt c 15 then (c * 2 ^^^ 0x1021) % 65536 else c * 2 % 65536

/-- One byte. -/
def crcByte (c : Nat) (b : Byte) : Nat :=
  let c := c ^^^ (b.toNat * 256)
  crcStep (crcStep (crcStep (crcStep (crcStep (crcStep (crcStep (crcStep c)))))))

/-- CRC-16 of the port frames. -/
def crc16 (bs : List Byte) : Nat := bs.foldl crcByte 0xFFFF

/-- A number that bytes spell, most significant first. -/
def beNat (bs : List Byte) : Nat := bs.foldl (fun a b => a * 256 + b.toNat) 0

/-- Two bytes, most significant first. -/
def be2 (n : Nat) : List Byte := [BitVec.ofNat 8 (n / 256), BitVec.ofNat 8 n]

/-- A frame's header. -/
structure Header where
  type : Nat
  rpt : Bool
  addr : Nat
  /-- Words of the frame: COUNT + 1. -/
  words : Nat
  /-- HCRC checks. -/
  crcOk : Bool
  /-- Reserved bits of OP or COUNT are set. -/
  reserved : Bool
deriving DecidableEq, Repr

def headerOf (bs : List Byte) : Header :=
  let op := (bs.headD 0).toNat
  let cnt := beNat ((bs.drop 4).take 2)
  { type := op / 64, rpt := bitAt op 5, addr := beNat ((bs.drop 1).take 3), words := cnt % 1024 + 1
    crcOk := crc16 (bs.take 6) == beNat ((bs.drop 6).take 2), reserved := op % 32 != 0 || decide (1024 ≤ cnt) }

/-- An address is that of an MB_DOOR (R311, R318). -/
def doorAt (a : Nat) : Bool := decide (0x1000 ≤ a) && decide (a < 0x6000) && a % 0x400 == 0x204

/-- The addresses of a frame. -/
def Header.addrs (h : Header) : List Nat := (List.range h.words).map fun k => h.addr + 4 * k

/-- A bad header on a port (R313). -/
def Header.bad (h : Header) (p : Nat) : Bool :=
  h.type == 3 || h.reserved || h.addr % 4 != 0 || (decide (h.type < 2) && decide (0x1000000 < h.addr + 4 * h.words)) || (h.type == 2 && p == 1) ||
    (h.type == 1 && decide (1 < (h.addrs.filter doorAt).length))

/-- What a port does on a header before anything else; the code 0xE1 or 0xE3 where it stops there. -/
def Chip.header (m : Chip) (p : Nat) (h : Header) : Option Nat × Chip :=
  if !h.crcOk then (some ackHcrc, (m.count HP_CNT_CRC p).hpFlag p HP_FLAGS_HCRC)
  else if h.bad p then (some ackHdr, m.hpFlag p HP_FLAGS_BAD_HDR)
  else (none, m)

def Chip.hport (m : Chip) (p : Nat) : HostPort := tabGet m.port p {}
def Chip.setPort (m : Chip) (p : Nat) (x : HostPort) : Chip := { m with port := tabPut m.port p x }

/-- What a port drives in a frame. -/
def Chip.drives (m : Chip) (p : Nat) (bs : List Byte) : Chip := m.setPort p { m.hport p with out := bs }

def portOwner (p : Nat) : Writer := if p = 0 then .hostA else .hostB

/-! ## Write frames (R311, R315) -/

/-- The words of a frame's data, least significant byte first. -/
def dataWords (bs : List Byte) (n : Nat) : List Nat :=
  match n with
  | 0 => []
  | k + 1 => leNat (bs.take 4) :: dataWords (bs.drop 4) k

/-- The ACK of a write that has been applied: the code of its door, where it wrote one of its own. -/
def Chip.frameAck (m : Chip) (p : Nat) (h : Header) : Nat :=
  match h.addrs.find? fun a => doorAt a && portWriter a == portOwner p with
  | none => ackDone
  | some a => m.rd MB_INFO_DOOR_RES ((a - 0x1000) / 0x400)

/-- The words of a frame in ascending address order. -/
def Chip.writeWords (m : Chip) (who : Writer) (a : Nat) (ws : List Nat) : Chip :=
  match ws with
  | [] => m
  | w :: r => (m.busWrite who a w).writeWords who (a + 4) r

/-- The ACK that is kept of the frame which a write repeats (R315). -/
def Chip.repeatW (m : Chip) (p : Nat) (h : Header) (dcrc : Nat) : Option Nat :=
  match (m.hport p).keptW with
  | some (a, n, d, ack) => if h.rpt ∧ a = h.addr ∧ n = h.words ∧ d = dcrc then some ack else none
  | none => none

/-- A write frame with all its bytes: its ACK, and the machine after it. -/
def Chip.writeData (m : Chip) (p : Nat) (bs : List Byte) : Nat × Chip :=
  let h := headerOf bs
  let data := (bs.drop 8).take (4 * h.words)
  let dcrc := beNat ((bs.drop (8 + 4 * h.words)).take 2)
  let dataOk := crc16 data == dcrc
  let keep := fun (ack : Nat) (m : Chip) => (ack, m.setPort p { m.hport p with keptW := some (h.addr, h.words, dcrc, ack) })
  match m.header p h with
  | (some c, m) =>
    if c = ackHdr ∧ dataOk then
      if m.repeatW p h dcrc = some c then (c, m.hpFlag p HP_FLAGS_RPT_HIT) else keep c m
    else (c, m)
  | (none, m) =>
    if !dataOk then (ackDcrc, (m.count HP_CNT_CRC p).hpFlag p HP_FLAGS_DCRC)
    else
      match m.repeatW p h dcrc with
      | some ack => (ack, m.hpFlag p HP_FLAGS_RPT_HIT)
      | none =>
        let m := m.writeWords (portOwner p) h.addr (dataWords data h.words)
        keep (m.frameAck p h) m

/-! ## Read frames (R312, R315) -/

/-- Words read in ascending address order. -/
def Chip.readWords (m : Chip) (a n : Nat) : List Byte × Chip :=
  match n with
  | 0 => ([], m)
  | k + 1 =>
    let m := m.hostRead a
    let r := m.readWords (a + 4) k
    (leBytes 4 m.rdata ++ r.1, r.2)

/-- The status and data that are kept of the frame which a read repeats (R315). -/
def Chip.repeatR (m : Chip) (p : Nat) (h : Header) : Option (Nat × List Byte) :=
  match (m.hport p).keptR with
  | some (a, n, st, data) => if h.rpt ∧ a = h.addr ∧ n = h.words then some (st, data) else none
  | none => none

/-- What a read frame gives: status and data. -/
def Chip.readData (m : Chip) (p : Nat) (bs : List Byte) : Nat × List Byte × Chip :=
  let h := headerOf bs
  let keep := fun (st : Nat) (data : List Byte) (m : Chip) =>
    (st, data, m.setPort p { m.hport p with keptR := some (h.addr, h.words, st, data) })
  match m.header p h with
  | (some c, m) =>
    let zeros := List.replicate (4 * h.words) 0
    if c = ackHdr then
      if m.repeatR p h = some (c, zeros) then (c, zeros, m.hpFlag p HP_FLAGS_RPT_HIT) else keep c zeros m
    else (c, zeros, m)
  | (none, m) =>
    match m.repeatR p h with
    | some (st, data) => (st, data, m.hpFlag p HP_FLAGS_RPT_HIT)
    | none =>
      let (data, m) := m.readWords h.addr h.words
      keep ackDone data m

/-- The bytes that the port drives in a read: status, data, RCRC. -/
def readOut (st : Nat) (data : List Byte) : List Byte :=
  let bs := BitVec.ofNat 8 st :: data
  bs ++ be2 (crc16 bs)

/-! ## Cuts (R314) -/

/-- A frame that is cut. -/
def Chip.cut (m : Chip) (p : Nat) : Chip := (m.count HP_CNT_CUT p).hpFlag p HP_FLAGS_FRAME_CUT

/-- A write needs its header, its data and DCRC. -/
def writeNeeds (h : Header) : Nat := 10 + 4 * h.words

/-- Chip select rises early, after these bytes and, in a read, after the turnaround or before its end. -/
def Chip.cutFrame (m : Chip) (p : Nat) (bs : List Byte) (turned : Bool) : Chip :=
  let h := headerOf bs
  let m := m.drives p []
  if bs.length < 8 then m.cut p
  else if h.type = 1 ∧ writeNeeds h ≤ bs.length then (m.writeData p bs).2
  else if h.type = 0 ∧ turned then (m.readData p bs).2.2
  else if h.type < 2 then (m.header p h).2.cut p
  else (m.header p h).2

/-- R316, R470: the TB of the edge moves to HP_SYNC_TB, and the edge is a mark of the trim. -/
def Chip.sync (m : Chip) (p : Nat) (bs : List Byte) (t : Nat) : Chip :=
  match m.header p (headerOf bs) with
  | (some _, m) => m
  | (none, m) =>
    let m := m.wrTb HP_SYNC_TB_LO HP_SYNC_TB_HI p t
    if m.trimRef = 2 then m.trimMark t else m

/-- What a port answers on a header whose HCRC fails: nothing is done, and the type that it seems to have shapes the answer (R312, R313). -/
def hcrcOut (h : Header) : List Byte :=
  if h.type = 1 then [BitVec.ofNat 8 ackHcrc] else if h.type = 0 then readOut ackHcrc (List.replicate (4 * h.words) 0) else []

/-- A frame with these bytes whose chip select fell at a TB: its header says what it is. -/
def Chip.frame (m : Chip) (p : Nat) (bs : List Byte) (t : Nat) : Chip :=
  let h := headerOf bs
  if bs.length < 8 then m.cutFrame p bs false
  else if !h.crcOk then (m.header p h).2.drives p (hcrcOut h)
  else if h.type = 1 then
    if bs.length < writeNeeds h then m.cutFrame p bs false
    else
      let (ack, m) := m.writeData p bs
      m.drives p [BitVec.ofNat 8 ack]
  else if h.type = 0 then
    let (st, data, m) := m.readData p bs
    m.drives p (readOut st data)
  else if h.type = 2 then (m.sync p bs t).drives p []
  else (m.header p h).2.drives p []

def execWriteFrame (p : Port) (bytes : List Byte) (s : State) : Host.Outcome State Fault Refusal :=
  s.upd fun m => if m.onBus (portOwner (portNo p)) then m.frame (portNo p) bytes (m.tbOf (islHostA + portNo p)) else m

def execReadFrame (p : Port) (bytes : List Byte) (s : State) : Host.Outcome State Fault Refusal :=
  s.upd fun m => if m.onBus (portOwner (portNo p)) then m.frame (portNo p) bytes (m.tbOf (islHostA + portNo p)) else m

def execSyncFrame (p : Port) (bytes : List Byte) (csTb : Nat) (s : State) : Host.Outcome State Fault Refusal :=
  s.upd fun m => if m.onBus (portOwner (portNo p)) ∧ csTb ≤ m.tbOf (islHostA + portNo p) then m.frame (portNo p) bytes csTb else m

def execFrameCut (p : Port) (bytes : List Byte) (afterTurnaround : Bool) (s : State) : Host.Outcome State Fault Refusal :=
  s.upd fun m => if m.onBus (portOwner (portNo p)) then m.cutFrame (portNo p) bytes afterTurnaround else m

end Sys2Proof.Machine
end

