-- ==== Sys2Proof/Machine/GelowOps.lean ====
section
/-! DEFINITION. Operations of Gelow: checks of a command, the journal's acceptance, the counters it collects, captures, long commands, the
5 ms tick (09 R322-R347, 10 R358-R363, R371). -/

namespace Sys2Proof.Machine

/-! ## Checks of a command (R322, R325, R332) -/

/-- The fields of a command are in their ranges, and the bytes that they take; none for an unknown opcode (R333-R345). -/
def opNeeds (op : Nat) (p : List Byte) : Option (Bool × Nat) :=
  let a := payNat p 0 1
  let b := payNat p 1 1
  let upTo := fun (n max : Nat) => decide (1 ≤ n ∧ n ≤ max)
  if op = 0x0101 ∨ op = 0x0102 then some (true, 0)
  else if op = 0x0103 then some (decide (a < 2), 1)
  else if op = 0x0104 then some (decide (a < 2) && payNat p 1 3 == 0x963CC3, 4)
  else if op = 0x0201 then some (upTo a 15, 8 + 16 * a)
  else if op = 0x0202 then some (upTo b 15 && decide (a + b ≤ 256), 2)
  else if op = 0x0301 then some (upTo a 8, 8 + 24 * a)
  else if op = 0x0302 then some (upTo a 30, 8 + 8 * a)
  else if op = 0x0303 then some (decide (payNat p 24 1 < 2), 25)
  else if op = 0x0304 then some (true, 6)
  else if op = 0x0401 then some (upTo a 7, 8 + 32 * a)
  else if op = 0x0402 then some (upTo a 20, 8 + 12 * a)
  else if op = 0x0403 then some (upTo b 16 && decide (a + b ≤ 192), 3)
  else if op = 0x0501 then some (upTo a 4, 8 + 60 * a)
  else if op = 0x0502 then some (upTo b 12 && decide (a + b ≤ 192), 3)
  else if op = 0x0601 then some (true, 3)
  else if op = 0x0602 then some (true, 5)
  else if op = 0x0603 then some (upTo b 61 && decide (a + b ≤ 256), 4 + 4 * b)
  else if op = 0x0604 then some (upTo a 30, 4 + 8 * a)
  else if op = 0x0605 then some (decide (a < 2 ∧ b < 2), 6)
  else if op = 0x0606 then some (true, 8)
  else if op = 0x0701 then some (upTo (payNat p 6 2) 2048, 8)
  else if op = 0x0702 then some (true, 6)
  else if op = 0x0703 then some (true, 4)
  else if op = 0x0801 then some (true, 3)
  else if op = 0x0802 then some (decide (a < 192), 1)
  else if op = 0x0803 then some (upTo b 192 && decide (a + b ≤ 192), 2)
  else if op = 0x0901 then some (upTo b 192 && decide (a + b ≤ 192), 6)
  else if op = 0x0902 then some (true, 25)
  else if op = 0x0903 then
    some (upTo (payNat p 24 2) 1000 && decide (20 ≤ payNat p 26 2 ∧ payNat p 26 2 ≤ 10000) && upTo (payNat p 28 4) 16777215, 33)
  else if op = 0x0904 then some (true, 4)
  else if op = 0x0905 then some (decide (a < 2) && upTo (payNat p 4 4) 16777216, 8)
  else none

/-- Anvil-C may not submit it (R332). -/
def opBarred (op : Nat) : Bool :=
  let k := op / 256
  !(k == 1 || k == 3 || k == 4 || k == 5 || k == 7 || k == 8) || op == 0x0104

/-- A journaled command, and the entries it carries (R358, R363). -/
def opJournaled (op : Nat) : Bool :=
  op == 0x0301 || op == 0x0303 || op == 0x0401 || op == 0x0801 || op == 0x0802 || op == 0x0803
def opEntries (op : Nat) (p : List Byte) : Nat := if op = 0x0301 ∨ op = 0x0401 then payNat p 0 1 else if opJournaled op then 1 else 0

/-- The code with which a command fails before its own rules are looked at; 0 for none. -/
def Chip.cmdCode (m : Chip) (x : Nat) : Nat :=
  let op := m.mbOp x
  if mbOwner x = 0 ∧ opBarred op then 13
  else match opNeeds op (m.mbPay x) with
    | none => 1
    | some (ok, n) => if !ok ∨ m.mbPlen x < n ∨ 248 < m.mbPlen x then 2 else if opJournaled op ∧ m.jour.broken then 15 else 0

/-- The writer of a mailbox. -/
def mbWriter (x : Nat) : Writer := if x < 8 then .hostA else if x < 16 then .hostB else .anvilC

/-- The channels of a bitmap. -/
def bitmapChs (p : List Byte) : List Nat := (List.range 192).filter fun k => bitAt (payNat p (k / 8) 1) (k % 8)

/-- A bitmap of channels, in 24 bytes. -/
def chsBitmap (l : List Nat) : List Byte := leBytes 24 (l.foldl setBit 0)

/-! ## The journal's acceptance (R359-R363) -/

/-- Slots that an owner holds. -/
def Chip.jourHeld (m : Chip) (o : Nat) : Nat := (m.jour.recs.filter fun r => r.owner == o).length

/-- The slots that an owner may still take (R362). -/
def Chip.jourFree (m : Chip) (o : Nat) : Nat :=
  let free := 32768 - m.jour.recs.length
  let both := min (32256 - (m.jourHeld 0 + m.jourHeld 1)) (free - 512)
  if o = 2 then free else if o = 1 then both else min both (8192 - m.jourHeld 0)

/-- The first slot from the slot pointer on that is not occupied (R361). -/
def freeRecSlot (rs : List Rec) (s fuel : Nat) : Nat :=
  match fuel with
  | 0 => s
  | k + 1 => if rs.any (fun r => r.slot == s) then freeRecSlot rs ((s + 1) % 32768) k else s

/-- The journal writer commits the acceptance record of an entry of the command in a mailbox (R359). -/
def Chip.accept (m : Chip) (x : Nat) (first : Option Nat) (entry ch target handle : Nat) : Nat × Chip :=
  let j := m.jour.nextJsn
  let s := freeRecSlot m.jour.recs m.jour.ptr 32768
  let r : Rec := {
    jsn := j, owner := mbOwner x, opcode := m.mbOp x, ch := ch, tag := m.mbTag x, target := target, mbx := x
    seq := m.rd MB_STATUS_SEQ x, first := first.getD j, slot := s, entry := entry, handle := handle }
  (j, { m with jour := { m.jour with
    recs := m.jour.recs ++ [r], nextJsn := if (j + 1) % 2 ^ 48 = 0 then 1 else j + 1, ptr := (s + 1) % 32768 } })

/-- The command whose first entry has a JSN has this many accepted entries. -/
def Chip.setAcc (m : Chip) (first n : Nat) : Chip :=
  { m with jour := { m.jour with recs := m.jour.recs.map fun r => if r.first = first then { r with acc := n } else r } }

/-- An entry stands in the staging area (R363). -/
def Chip.stage (m : Chip) (s : Staged) : Chip := { m with jour := { m.jour with staged := m.jour.staged ++ [s] } }

/-- The record of a diagnostics command leaves the staging area. -/
def Chip.unstageDiag (m : Chip) (jsn : Nat) : Chip := { m with jour := { m.jour with staged := m.jour.staged.filter (· != .diag jsn) } }

/-- The 32 bytes of a record (R365). -/
def hallmarkBytes (r : Rec) : List Byte :=
  leBytes 6 r.jsn ++ leBytes 1 (r.outcome + 16 * r.cause) ++
    leBytes 1 (r.owner + 4 * r.phase + 16 * b2n r.restart + 32 * b2n r.stand) ++ leBytes 2 r.opcode ++ leBytes 2 r.ch ++ leBytes 4 r.tag ++
    leBytes 8 r.tb ++ leBytes 5 r.target ++ leBytes 3 (ofSigned 24 r.lat)

/-- The hallmarks that a JOURNAL_READ of an owner delivers (R371). -/
def Chip.jourRead (m : Chip) (o first n : Nat) : List Rec :=
  ((m.jour.recs.filter fun r => r.owner == o && decide (first ≤ r.jsn)).takeWhile fun r => r.phase == 3).take n

/-- The totals of a COUNTERS whose hallmark is collected become its owner's bases (R344). -/
def Chip.snapsTake (m : Chip) (jsn : Nat) : Chip :=
  let g := m.gelow
  let done := g.snaps.filter fun s => s.jsn == jsn
  { m with gelow := { g with
    snaps := g.snaps.filter fun s => s.jsn != jsn
    bases := done.foldl (fun b s => tabPut b (s.owner * 1048576 + s.unit) s.totals) g.bases } }

/-- JOURNAL_COLLECT frees the resolved records of an owner up to a JSN (R372). -/
def Chip.jourCollect (m : Chip) (o upto : Nat) : Nat × Chip :=
  let gone := m.jour.recs.filter fun r => r.owner == o && r.phase == 3 && decide (r.jsn ≤ upto)
  let m := gone.foldl (fun m r => m.snapsTake r.jsn) m
  (gone.length, { m with jour := { m.jour with
    recs := m.jour.recs.filter fun r => !(r.owner == o && r.phase == 3 && decide (r.jsn ≤ upto)) } })

/-! ## Counters (R333, R343, R344) -/

/-- The counters of a class, low field first: units 0-8 of class 3 differ. -/
def counterFields (k u : Nat) : List Field :=
  if k = 0 then
    [CH_CNT_A_EXEC, CH_CNT_A_LATE, CH_CNT_B_MISS, CH_CNT_B_OVR, TR_SKIP_CNT_SKIP, TR_SKIP_CNT_SAT, LAT_SKIP_CNT_SKIP, LAT_SKIP_CNT_DBL,
      CH_DRV_DENY, DG_CNT_NO_NOTCH, DG_CNT_TRIPS, MAP_CH_CNT_GATED, MAP_CH_CNT_CLOSES]
  else if k = 1 then [BK_CNT_GRANTS, BK_CNT_DENIES]
  else if k = 2 then [WHL_EFLT_CNT, WHL_TCNT_CNT, WHL_QERR_CNT, WHL_MISM_CNT]
  else if k = 3 then (if u < 8 then [MDL_SRC_CNT_CORR, MDL_SRC_CNT_REJ] else [MDL_POSE_REJ_CNT])
  else if k = 4 then [MAP_CNT_MISS, MAP_CNT_COV_DROP, MAP_CNT2_COV_REVERT, MAP_CNT2_LATE_GATE, NC_CNT_REFRESH, NC_CNT_UNCORR]
  else [HP_CNT_CRC, HP_CNT_CUT]

/-- Units of a class. -/
def counterUnits (k : Nat) : Nat :=
  if k = 0 then 192 else if k = 1 then 24 else if k = 2 then 64 else if k = 3 then 9 else if k = 4 then 1 else if k = 5 then 2 else 0

/-- The instance of a field for a unit: Mandrel's own register stands at instance 0. -/
def counterInst (k u : Nat) : Nat := if k = 3 ∧ u = 8 then 0 else u

/-- The address of an instance of a field. -/
def Field.addrOf (f : Field) (i : Nat) : Nat := f.addr + i / f.geo.n2 * f.geo.stride1 + i % f.geo.n2 * f.geo.stride2

/-- The totals of a unit. -/
def Chip.totalsOf (m : Chip) (k u : Nat) : List Nat :=
  (List.range (counterFields k u).length).map fun f => tabGet m.gelow.totals (k * 65536 + u * 64 + f) 0

/-- Gelow reads one counter into its total; it clears, but for what is counted in the same cycle (R11). -/
def Chip.countTake (m : Chip) (key : Nat) (f : Field) (i : Nat) : Chip :=
  let v := (m.rcRead f i).1
  if v = 0 ∨ !m.reaches (f.addrOf i) then m
  else { m with gelow := { m.gelow with totals := tabPut m.gelow.totals key ((tabGet m.gelow.totals key 0 + v) % 2 ^ 32) } }.rcClear f i

/-- Every counter of a unit. -/
def Chip.unitTake (m : Chip) (k u : Nat) : Chip :=
  ((List.range (counterFields k u).length).zip (counterFields k u)).foldl
    (fun m p => m.countTake (k * 65536 + u * 64 + p.1) p.2 (counterInst k u)) m

/-- Once per second while COLLECT = 1. -/
def Chip.collectTick (m : Chip) : Chip :=
  if m.gelow.collect ∧ m.gelow.collectTb + 1000 * msTb ≤ m.tb then
    let m := (List.range 6).foldl (fun m k => (List.range (counterUnits k)).foldl (fun m u => m.unitTake k u) m) m
    { m with gelow := { m.gelow with collectTb := m.tb } }
  else m

/-- What COUNTERS returns of a unit for an owner. -/
def Chip.counts (m : Chip) (o k u : Nat) : List Nat :=
  let base := tabGet m.gelow.bases (o * 1048576 + k * 256 + u) []
  let t := m.totalsOf k u
  (List.range t.length).map fun i => ofSigned 32 ((t.getD i 0 : Int) - (base.getD i 0 : Int))

/-! ## Captures and wear (R251, R253, R254) -/

/-- Gelow's copy of a done lane, and its release. -/
def Chip.laneCopy (m : Chip) (c l : Nat) : Chip :=
  if m.lane c l = 3 then
    let i := laneIx c l
    let n := m.laneLen c
    let b := m.laneBase c l
    let copy : Copy := {
      tb := m.laneTb c l, notch := m.rd CAP_L_NOTCH i, lanes := m.lanes c, dec := m.rd CAP_CFG_DEC c
      samples := (List.range n).map fun k => m.loadNat (b + 2 * k) 2 }
    { m with copies := tabPut m.copies (m.rd CAP_L_CH i) copy }.laneFree c l
  else m

/-- Every done lane, every measurement of the wear models, and their registers (R254, R255). -/
def Chip.diagTick (m : Chip) : Chip :=
  let m := (List.range 8).foldl (fun m c => (List.range 4).foldl (fun m l => m.laneCopy c l) m) m
  let m := (m.chans.map (·.1)).foldl Chip.wearTake m
  (m.wear.map (·.1)).foldl (fun m ch => if m.clockOk (clusterOf ch) then m.wearPublish ch else m) m

/-! ## Long commands (R329-R331) -/

/-- A long command begins: it leaves the batch. -/
def Chip.mbLong (m : Chip) (x : Nat) (r : LongRun) : Chip :=
  { m.setMb x { m.mb x with run := some { r with op := m.mbOp x, hold := m.mbHold x, req := m.mbPay x } } with
    gelow := { m.gelow with batch := m.gelow.batch.filter (· != x) } }

/-- The run of a long command changes. -/
def Chip.setRun (m : Chip) (x : Nat) (r : LongRun) : Chip := m.setMb x { m.mb x with run := some r }

/-- A journaled long command ends with an outcome. -/
def Chip.runResolve (m : Chip) (r : LongRun) (out cause : Nat) : Chip :=
  if r.jsn = 0 then m else (m.unstageDiag r.jsn).jourResolve r.jsn out cause false (m.tbOf islMgmt) 0

/-- Accepted entries of a long command. -/
def LongRun.nacc (r : LongRun) : Nat := if r.jsn = 0 then 0 else 1

/-- A long command is done with a last chunk or with none (R329). -/
def Chip.runDone (m : Chip) (x : Nat) (r : LongRun) (resp : List Byte) : Chip := m.mbEnd x 4 0 r.nacc r.jsn resp

/-- A long command is aborted; one whose last effect has committed is done instead (R331, R353). -/
def Chip.runAbort (m : Chip) (x : Nat) (r : LongRun) (reason : Nat) : Chip :=
  if r.late then (m.mbFlag x HP_FLAGS_ABORT_LATE).runDone x r r.resp
  else (m.runResolve r 4 13).mbAborted x reason r.nacc r.jsn

/-- The upload buffer of a port is taken for a mailbox (R330). -/
def Chip.upTake (m : Chip) (x due : Nat) : Chip :=
  match mbPort x with
  | none => m
  | some p =>
    if m.rdB HP_STAT_UP_TAKEN p then m.mbFail x 8
    else
      let m := ((m.wr HP_STAT_UP_TAKEN p 1).wr HP_STAT_UP_MB p (x % 8)).wr MB_INFO_UP_WAIT x 1
      m.mbLong x { op := 0, due := due }

/-- The next chunk of a result goes into the window (R329, R546). -/
def Chip.chunk (m : Chip) (x : Nat) (r : LongRun) : Chip :=
  let bs := r.out.take 65536
  let last := decide (r.out.length ≤ 65536)
  let m := m.mbState x 2 0
  let m := m.store (mbWindow x) (bs ++ List.replicate ((4 - bs.length % 4) % 4) 0)
  let m := m.mbChunk x r.idx ((bs.length + 3) / 4) last
  if last then (m.runResolve r 1 14).runDone x r r.resp
  else
    let m := (m.setRun x { r with out := r.out.drop 65536, idx := r.idx + 1 }).mbState x 3 0
    if r.hold then (m.wr MB_INFO_HELD x 1).setMb x { m.mb x with heldTb := m.tb } else m

/-- A chunk may be written: the result is complete, and no chunk is held. -/
def Chip.deliver (m : Chip) (x : Nat) : Chip :=
  match (m.mb x).run with
  | none => m
  | some r => if m.gelow.up ∧ m.runs islMgmt ∧ m.mbRuns x ∧ r.full ∧ !m.rdB MB_INFO_HELD x then m.chunk x r else m

/-- A held chunk has not been released within 60 s. -/
def Chip.holdEnd60 (m : Chip) (x : Nat) : Chip :=
  match (m.mb x).run with
  | none => m
  | some r =>
    if m.gelow.up ∧ m.runs islMgmt ∧ m.rdB MB_INFO_HELD x ∧ (m.mb x).heldTb + 60000 * msTb ≤ m.tb then
      (m.runResolve r 4 13).mbAborted x 3 r.nacc r.jsn
    else m

/-! ## CAL_SWEEP (R346) -/

/-- A pulse of a sweep: an unjournaled PULSE with NOADV at the present position, in the equal case; none with the channel or the pool full (R168). -/
def Chip.calPulse (m : Chip) (o ch width : Nat) : Chip :=
  if m.poolFree = 0 then m.chFlag ch CH_FLAGS_POOL_EMPTY
  else if chSlots ≤ m.pend ch then m
  else
    let m := m.touch ch
    let e : Ev := { gen := 0, ch := ch, owner := o, kind := 3, noadv := true, bidir := false, width := width
                    target := (m.chAxis ch).posInt, deadline := 0, jsn := none, life := .armed, order := 0 }
    let (i, m) := m.takeSlot e
    match m.ev i with
    | none => m
    | some e => (m.armCase i e).2

/-- A channel that the sweep may pulse. -/
def Chip.calReady (m : Chip) (o ch : Nat) : Bool :=
  m.chOwner ch == o && m.rd CH_CTL_MODE ch == 1 && m.pend ch == 0 && m.rdB BK_CTL_EN (bankOf ch)

/-- The notch of the pulse before, where one came. -/
def Chip.calTake (m : Chip) (c : Cal) : Cal :=
  match c.pulse with
  | none => c
  | some t => if t ≤ (m.drv c.ch).notchTb ∧ (m.drv c.ch).notchTb ≠ 0 then { c with ms := c.ms ++ [m.rd DG_NOTCH_T_M c.ch], pulse := none } else { c with pulse := none }

/-- The sweep's next action on its first channel that is not done; the channels that are done stand first. -/
def Chip.calStep (m : Chip) (o width : Nat) (done todo : List Cal) : List Cal × Bool × Chip :=
  match todo with
  | [] => (done, true, m)
  | c :: r =>
    let c := m.calTake c
    if c.skip ∨ (c.started ∧ c.left = 0) then m.calStep o width (done ++ [c]) r
    else if !c.started ∧ !m.calReady o c.ch then m.calStep o width (done ++ [{ c with skip := true }]) r
    else (done ++ { c with started := true, left := c.left - 1, pulse := some m.tb } :: r, false, m.calPulse o c.ch width)

/-- The result of a channel (R346): 2 skipped, 1 no notch, 0 otherwise. -/
def Cal.result (c : Cal) : Nat := if c.skip then 2 else if c.ms = [] then 1 else 0

/-- The standard deviation of measurements, in their unit. -/
def sigmaOf (l : List Nat) : Nat :=
  let u : Int := meanOf l
  isqrt (l.foldl (fun (a x : Nat) => a + (((x : Int) - u) * ((x : Int) - u)).toNat) 0 / max 1 l.length)

def Cal.bytes (c : Cal) : List Byte :=
  leBytes 1 c.ch ++ leBytes 1 c.result ++ leBytes 2 c.ms.length ++ leBytes 2 (min 65535 (meanOf c.ms / usTb)) ++
    leBytes 2 (min 65535 (sigmaOf c.ms / usTb))

/-- A sweep goes on: one pulse every period. -/
def Chip.calTick (m : Chip) (x : Nat) (r : LongRun) : Chip :=
  if r.op ≠ 0x0903 ∨ r.full ∨ m.tb < r.next then m
  else
    let (cs, ended, m) := m.calStep (mbOwner x) (payNat r.req 28 4) [] r.cals
    if ended then
      let m := if bitAt (payNat r.req 32 1) 0 then
          cs.foldl (fun m c => if c.result = 0 then m.wr CH_ADV_OPEN c.ch (meanOf c.ms) else m) m
        else m
      m.setRun x { r with cals := cs, out := cs.flatMap Cal.bytes, full := true, late := true }
    else
      (m.setRun x { r with cals := cs, next := m.tb + payNat r.req 26 2 * msTb, idx := 0 }).wr MB_STATUS_PROGRESS x
        (min 65535 (m.rd MB_STATUS_PROGRESS x + 1))

/-! ## MOUNT (R340) -/

/-- The response of MOUNT. -/
def Chip.mountResp (m : Chip) : List Byte := leBytes 4 (m.rd NC_STAT_MSTATE) ++ leBytes 4 (m.rd NC_BLK_GOOD) ++ leBytes 4 (m.rd NC_SPARE)

/-- A MOUNT is done. -/
def Chip.mountDone (m : Chip) (x : Nat) (r : LongRun) : Chip := (m.wr MB_STATUS_PROGRESS x 100).runDone x r m.mountResp

/-- Every MOUNT that waits for the mount is done. -/
def Chip.mountsDone (m : Chip) : Chip :=
  (List.range 16).foldl (fun m x => match (m.mb x).run with
    | some r => if r.op = 0x0601 then m.mountDone x r else m
    | none => m) m

/-- A coverage tile holds what the medium does not. -/
def Chip.anyDirty (m : Chip) : Bool := (List.range 24).any fun k => m.tileState k == 3 || m.tileState k == 4

/-- An unmount ends once no tile is dirty, or none can be flushed. -/
def Chip.unmountTick (m : Chip) (x : Nat) (r : LongRun) : Chip :=
  if r.op = 0x0601 ∧ payNat r.req 0 1 % 2 = 0 ∧ (!m.anyDirty ∨ !m.writable) then m.nandUnmount.mountDone x r else m

/-! ## The tick (R328, R363) -/

/-- Long commands go on; then a latched abort stops one. -/
def Chip.longTick (m : Chip) (x : Nat) : Chip :=
  let step := fun (f : Chip → Nat → LongRun → Chip) (m : Chip) => match (m.mb x).run with
    | some r => f m x r
    | none => m
  let m := step Chip.unmountTick (step Chip.calTick m)
  step (fun m x r => if (m.mb x).abort then m.runAbort x r 1 else m) m

/-- The order in which submitted commands are taken: HOST-B, HOST-A, Anvil-C, then door TB, then mailbox. -/
def mbGroup (x : Nat) : Nat := if x < 8 then 1 else if x < 16 then 0 else 2

def Chip.mbQueue (m : Chip) : List Nat :=
  sortBy (fun x y => decide (mbGroup x < mbGroup y) || (mbGroup x == mbGroup y && decide ((m.mb x).doorTb ≤ (m.mb y).doorTb)))
    ((List.range 20).filter fun x => m.mbSt x == 1 && m.mbRuns x)

/-- Commands are taken in order while their entries stay within the 160 of a tick. -/
def Chip.takeCmds (m : Chip) (l : List Nat) (n : Nat) : Chip :=
  match l with
  | [] => m
  | x :: r =>
    let c := m.cmdCode x
    let k := n + opEntries (m.mbOp x) (m.mbPay x)
    if c ≠ 0 then (m.mbFail x c).takeCmds r n
    else if 160 < k then m
    else ({ m with gelow := { m.gelow with batch := m.gelow.batch ++ [x] } }.mbState x 2 0).takeCmds r k

/-- Aborts that were latched in STATE 1. -/
def Chip.abortsTake (m : Chip) : Chip :=
  (List.range 20).foldl (fun m x => if m.mbSt x = 1 ∧ (m.mb x).abort then m.mbAborted x 1 0 0 else m) m

/-- Host loads, the registers of the map engine and the cache, at a tick (R267, R286, R474). -/
def Chip.mapTick (m : Chip) : Chip := if m.runs islMap then m.mapRestore.loadsApply.cacheTick else m

/-- What Gelow does every 5 ms. -/
def Chip.gelowTick (m : Chip) : Chip :=
  if m.gelow.up ∧ m.runs islMgmt ∧ m.due .gelow then
    let m := m.stamp .gelow
    let m := { m with sys := { m.sys with wdtV := m.tb } }
    let m := m.mapTick.diagTick.collectTick
    let m := (List.range 20).foldl Chip.longTick m
    let m := m.abortsTake
    (m.takeCmds m.mbQueue 0).nap
  else m

/-! ## Execution -/

/-- A command is the next that Gelow executes. -/
def Chip.isNext (m : Chip) (x op : Nat) : Bool :=
  m.gelow.up && m.runs islMgmt && m.mbRuns x && m.gelow.batch.head? == some x && m.mbOp x == op

/-- The effect of a command on the block, where it is the next. -/
def Chip.runCmd (m : Chip) (x op : Nat) (f : Chip → List Byte → Chip) : Chip := if m.isNext x op then f m (m.mbPay x) else m

/-- A write by Gelow with the rights of a mailbox's writer, which have been checked. -/
def Chip.gelowWrite (m : Chip) (who : Writer) (a w : Nat) : Chip :=
  match regAt a with
  | some r => if m.reaches a && m.gateAt a then m.regWrite who r w else m
  | none => m

end Sys2Proof.Machine
end

