-- ==== Sys2Proof/Machine/Mailbox.lean ====
section
/-! DEFINITION. The mailbox commands of classes 0x01-0x05 and 0x07: system, geometry, events, trains, lattices and the journal
(09 R333-R342, 10 R371, R372). -/

namespace Sys2Proof.Machine

/-! ## Class 0x01: system (R333) -/

/-- SYS_ID as one word. -/
def Chip.sysId (m : Chip) : Nat := m.word [SYS_ID_REV, SYS_ID_PART]

/-- The writer's number in IDENTIFY. -/
def mbWriterNo (x : Nat) : Nat := if x < 8 then 0 else if x < 16 then 1 else 2

def Chip.identify (m : Chip) (x : Nat) : Chip :=
  m.mbDone x 0 0 0 (leBytes 4 m.sysId ++ leBytes 4 m.sys.vVersion ++ leBytes 4 m.sys.cVersion ++ leBytes 1 (mbWriterNo x)) []

def execIdentify (x : Mbx) (s : State) : Host.Outcome State Fault Refusal := s.upd (·.runCmd x.val 0x0101 fun m _ => m.identify x.val)

/-- Hallmarks of an owner that are not collected. -/
def Chip.uncollected (m : Chip) (o : Nat) : Nat := (m.jour.recs.filter fun r => r.owner == o && r.phase == 3).length

def Chip.statusCmd (m : Chip) (x : Nat) : Chip :=
  let o := mbOwner x
  m.mbDone x 0 0 0 (leBytes 8 (m.tbOf islMgmt) ++ leBytes 4 (m.jourFree o) ++ leBytes 4 (m.uncollected o) ++ leBytes 1 (m.rd NC_STAT_MSTATE) ++
    leBytes 1 (min 255 (m.rd SYS_VRST_CNT)) ++ leBytes 1 (m.rd PROT_SEAL_SEAL) ++ leBytes 1 (b2n m.gelow.collect)) []

def execStatus (x : Mbx) (s : State) : Host.Outcome State Fault Refusal := s.upd (·.runCmd x.val 0x0102 fun m _ => m.statusCmd x.val)

/-- OPTIONS: COLLECT. -/
def Chip.options (m : Chip) (x : Nat) (p : List Byte) : Chip :=
  let on := payNat p 0 1 == 1
  { m with gelow := { m.gelow with collect := on, collectTb := if on && !m.gelow.collect then m.tb else m.gelow.collectTb } }.mbDone x 0 0 0 [] []

def execOptions (x : Mbx) (s : State) : Host.Outcome State Fault Refusal := s.upd (·.runCmd x.val 0x0103 fun m p => m.options x.val p)

/-- RESET: STATE 4 is set 1 ms before the reset begins. -/
def Chip.resetCmd (m : Chip) (x kind : Nat) (p : List Byte) : Chip :=
  if payNat p 0 1 ≠ kind then m
  else
    let t := some (m.tb + msTb)
    let m := m.mbDone x 0 0 0 [] []
    { m with sys := if kind = 0 then { m.sys with cAt := t } else { m.sys with modAt := t } }

def execResetAnvilC (x : Mbx) (s : State) : Host.Outcome State Fault Refusal := s.upd (·.runCmd x.val 0x0104 fun m p => m.resetCmd x.val 0 p)

def execResetModule (x : Mbx) (s : State) : Host.Outcome State Fault Refusal := s.upd (·.runCmd x.val 0x0104 fun m p => m.resetCmd x.val 1 p)

/-! ## Entries -/

/-- Entries of n bytes of a payload from an offset on. -/
def payEntries (p : List Byte) (base size n : Nat) : List (List Byte) := (List.range n).map fun i => (p.drop (base + size * i)).take size

/-- Each entry in turn gives a result code. -/
def Chip.eachEntry (m : Chip) (f : Chip → List Byte → Nat × Chip) (l : List (List Byte)) : List Nat × Chip :=
  match l with
  | [] => ([], m)
  | e :: r =>
    let (c, m) := f m e
    let (cs, m) := m.eachEntry f r
    (c :: cs, m)

/-- REASON of a command with entries that gave these results (R324). -/
def reasonOf (cs : List Nat) : Nat := if cs.all (· == 0) then 0 else 1

/-- Result codes as bytes. -/
def codeBytes (cs : List Nat) : List Byte := cs.map (BitVec.ofNat 8)

/-! ## Class 0x02: geometry (R334) -/

/-- One entry of AXIS_SET: AX_CFG, AX_Y, AX_X, AX_DEFL in that order. -/
def Chip.axisEntry (m : Chip) (x : Nat) (e : List Byte) : Nat × Chip :=
  let a := payNat e 0 1
  if m.axOwner a ≠ mbOwner x then (3, m)
  else
    let w := mbWriter x
    let m := m.gelowWrite w (AX_CFG_KIND.addrOf a) (payNat e 1 1 % 32)
    let m := (m.gelowWrite w (AX_Y.addrOf a) (payNat e 4 4)).gelowWrite w (AX_X.addrOf a) (payNat e 8 4)
    (0, m.gelowWrite w (AX_DEFL_DSEL.addrOf a) (payNat e 2 1 % 16 + 65536 * payNat e 12 2))

def Chip.axisSet (m : Chip) (x : Nat) (p : List Byte) : Chip :=
  let (cs, m) := m.eachEntry (fun m e => m.axisEntry x e) (payEntries p 8 16 (payNat p 0 1))
  m.mbDone x (reasonOf cs) 0 0 (codeBytes cs) []

def execAxisSet (x : Mbx) (s : State) : Host.Outcome State Fault Refusal := s.upd (·.runCmd x.val 0x0201 fun m p => m.axisSet x.val p)

/-- An axis in the format of AXIS_SET. -/
def Chip.axisBytes (m : Chip) (a : Nat) : List Byte :=
  leBytes 1 a ++ leBytes 1 (m.word [AX_CFG_KIND, AX_CFG_SLOT] a) ++ leBytes 1 (m.word [AX_DEFL_DSEL, AX_DEFL_DEN] a) ++ leBytes 1 0 ++
    leBytes 4 (m.rd AX_Y a) ++ leBytes 4 (m.rd AX_X a) ++ leBytes 2 (m.rd AX_DEFL_K a) ++ leBytes 2 0

def Chip.axisGet (m : Chip) (x : Nat) (p : List Byte) : Chip :=
  m.mbDone x 0 0 0 ((List.range (payNat p 1 1)).flatMap fun i => m.axisBytes (payNat p 0 1 + i)) []

def execAxisGet (x : Mbx) (s : State) : Host.Outcome State Fault Refusal := s.upd (·.runCmd x.val 0x0202 fun m p => m.axisGet x.val p)

/-! ## Classes 0x03 and 0x04: events and trains (R335-R338) -/

/-- The event of an ARM entry. -/
def armEntry (o : Nat) (e : List Byte) : Ev :=
  { gen := 0, ch := payNat e 0 2, owner := o, kind := payNat e 2 1, noadv := bitAt (payNat e 3 1) 0, bidir := bitAt (payNat e 3 1) 1
    width := payNat e 9 3, target := payNat e 4 5, deadline := payNat e 12 8, jsn := none, life := .reserved, order := 0 }

/-- The event of an ARM_TRAIN entry. -/
def trainEntry (o : Nat) (e : List Byte) : Ev :=
  { gen := 0, ch := payNat e 0 2, owner := o, kind := 4, noadv := bitAt (payNat e 2 1) 0, bidir := false, width := payNat e 9 3
    target := payNat e 4 5, deadline := payNat e 24 8, jsn := none, life := .reserved, order := 0, pitch := payNat e 12 4
    phase := payNat e 16 2, len := payNat e 20 4 }

/-- Fields that no entry may have (R129, R153, R173, R336). -/
def armFieldsBad (train : Bool) (e : Ev) : Bool :=
  decide (192 ≤ e.ch) ||
    (if train then trainBad e.pitch e.width e.len
     else !(e.kind == 1 || e.kind == 2 || e.kind == 3 || e.kind == 5 || e.kind == 6) || (e.kind == 3 && e.width == 0) ||
       (e.bidir && !(e.kind == 1 || e.kind == 2 || e.kind == 5)))

/-- The right to arm an event (R130). -/
def Chip.armRight (m : Chip) (e : Ev) : Bool :=
  let o := m.chOwner e.ch
  if e.owner = o then e.kind != 6 else decide (ownerRank o < ownerRank e.owner) && (e.kind == 2 || e.kind == 6)

/-- A channel that takes no accepted event now (R336, R375, R173). -/
def Chip.armBarred (m : Chip) (e : Ev) : Bool :=
  let mode := m.rd CH_CTL_MODE e.ch
  mode == 0 || mode == 3 || m.axKind (m.rd CH_AXIS_AX e.ch) == 0 || m.safe (clusterOf e.ch) || (e.kind == 4 && m.trainTaken e.ch)

/-- The code of an entry (R336); 0 accepts it. -/
def Chip.armCode (m : Chip) (train : Bool) (e : Ev) : Nat :=
  if armFieldsBad train e then 2
  else if !m.armRight e then 3
  else if m.armBarred e then 12
  else if e.deadline ≠ 0 ∧ e.deadline ≤ m.tbOf islMgmt then 14
  else if posDiff e.target (m.chAxis e.ch).posInt = -549755813888 then 7
  else if chSlots ≤ m.pend e.ch then 5
  else if m.poolFree = 0 then 6
  else if m.jourFree e.owner = 0 then 4
  else 0

/-- An entry that passes is accepted: slot, record and staging in one (R133, R359, R363). -/
def Chip.armAccept (m : Chip) (x : Nat) (first : Option Nat) (k : Nat) (e : Ev) : Nat × Nat × Chip :=
  let (i, m) := m.takeSlot { e with jsn := some m.jour.nextJsn }
  let h := match m.ev i with
    | some e => handleOf i e.gen
    | none => 0
  let (j, m) := m.accept x first k e.ch e.target h
  (j, h, m.stage (.event j i))

/-- What an entry answers: JSN, result, handle. -/
def armBytes (j code h : Nat) : List Byte := leBytes 6 j ++ leBytes 1 code ++ leBytes 1 0 ++ leBytes 3 h ++ leBytes 5 0

/-- The entries of ARM or ARM_TRAIN from the k-th on: the codes, the JSN of the first that was accepted, and the response. -/
def Chip.armAll (m : Chip) (x : Nat) (train : Bool) (k : Nat) (first : Option Nat) (l : List Ev) : List Nat × Option Nat × List Byte × Chip :=
  match l with
  | [] => ([], first, [], m)
  | e :: r =>
    let c := m.armCode train e
    if c = 0 then
      let (j, h, m) := m.armAccept x first k e
      let (cs, f, bs, m) := m.armAll x train (k + 1) (some (first.getD j)) r
      (0 :: cs, f, armBytes j 0 h ++ bs, m)
    else
      let m := if e.ch < 192 ∧ m.poolFree = 0 then m.chFlag e.ch CH_FLAGS_POOL_EMPTY else m
      let (cs, f, bs, m) := m.armAll x train (k + 1) first r
      (c :: cs, f, armBytes 0 c 0 ++ bs, m)

/-- ARM and ARM_TRAIN: with no entry accepted, the command fails with the code of entry 0. -/
def Chip.armCmds (m : Chip) (x : Nat) (train : Bool) (l : List Ev) : Chip :=
  let (cs, first, bs, m) := m.armAll x train 0 none l
  match first with
  | none => m.mbEnd x 6 (cs.headD 2) 0 0 bs
  | some j =>
    let n := (cs.filter (· == 0)).length
    (m.setAcc j n).mbDone x (reasonOf cs) n j bs []

def execArm (x : Mbx) (s : State) : Host.Outcome State Fault Refusal :=
  s.upd (·.runCmd x.val 0x0301 fun m p => m.armCmds x.val false ((payEntries p 8 24 (payNat p 0 1)).map (armEntry (mbOwner x.val))))

def execArmTrain (x : Mbx) (s : State) : Host.Outcome State Fault Refusal :=
  s.upd (·.runCmd x.val 0x0401 fun m p => m.armCmds x.val true ((payEntries p 8 32 (payNat p 0 1)).map (trainEntry (mbOwner x.val))))

/-- The slot of an accepted event of an owner. -/
def Chip.slotOf (m : Chip) (o jsn : Nat) : Option (Nat × Ev) := m.pool.find? fun p => p.2.jsn == some jsn && p.2.owner == o

/-- The record of an accepted event of an owner that is not collected. -/
def Chip.eventRec (m : Chip) (o jsn : Nat) : Option Rec :=
  (m.rec? jsn).filter fun r => r.owner == o && (r.opcode == 0x0301 || r.opcode == 0x0401)

/-- One entry of CANCEL; firings that are due come first (R161). -/
def Chip.cancelEntry (m : Chip) (o : Nat) (e : List Byte) : Nat × Chip :=
  let j := payNat e 0 6
  let m := match m.slotOf o j with
    | some (_, v) => m.fireDue v.ch 200
    | none => m
  match m.slotOf o j with
  | some (i, v) =>
    let (done, m) := m.cancelSlot i v
    (if done then 1 else 0, m)
  | none => (if (m.eventRec o j).isSome then 1 else 2, m)

def Chip.cancelCmd (m : Chip) (x : Nat) (p : List Byte) : Chip :=
  let (cs, m) := m.eachEntry (fun m e => m.cancelEntry (mbOwner x) e) (payEntries p 8 8 (payNat p 0 1))
  m.mbDone x 0 0 0 (codeBytes cs) []

def execCancel (x : Mbx) (s : State) : Host.Outcome State Fault Refusal := s.upd (·.runCmd x.val 0x0302 fun m p => m.cancelCmd x.val p)

/-- An accepted INHIBIT resolves as it applies its bits, before the events that it overrides (R337, R366, R374). -/
def Chip.inhibitApply (m : Chip) (jsn o : Nat) (set : Bool) (chs : List Nat) : Chip :=
  let m := m.jourResolve jsn 1 14 false (m.tbOf islMgmt) 0
  chs.foldl (fun m ch => if set then m.inhSet ch o else m.inhClear ch o) m

/-- INHIBIT on the channels whose owner ranks below the writer. -/
def Chip.inhibitCmd (m : Chip) (x : Nat) (set : Bool) (p : List Byte) : Chip :=
  let o := mbOwner x
  let chs := (bitmapChs p).filter fun ch => decide (ownerRank (m.chOwner ch) < ownerRank o)
  if bitAt (payNat p 24 1) 0 ≠ set then m
  else if chs = [] then m.mbFail x 3
  else if m.jourFree o = 0 then m.mbFail x 4
  else
    let (j, m) := m.accept x none 0 0xFFFF 0 0
    (m.inhibitApply j o set chs).mbDone x 0 1 j (chsBitmap chs) []

def execInhibitSet (x : Mbx) (s : State) : Host.Outcome State Fault Refusal := s.upd (·.runCmd x.val 0x0303 fun m p => m.inhibitCmd x.val true p)

def execInhibitRelease (x : Mbx) (s : State) : Host.Outcome State Fault Refusal :=
  s.upd (·.runCmd x.val 0x0303 fun m p => m.inhibitCmd x.val false p)

/-- The state that EVENT_GET reports of a record: 1 reserved, 2 armed, 3 standing, 4 resolved. -/
def Chip.eventState (m : Chip) (r : Rec) : Nat :=
  match m.slotOf r.owner r.jsn with
  | some (_, e) => if e.life = .standing then 3 else if r.phase = 3 then 4 else if e.life = .reserved then 1 else 2
  | none => if r.phase = 3 then 4 else 2

def Chip.eventGet (m : Chip) (x : Nat) (p : List Byte) : Chip :=
  match m.eventRec (mbOwner x) (payNat p 0 6) with
  | none => m.mbDone x 0 0 0 (List.replicate 24 0) []
  | some r =>
    m.mbDone x 0 0 0 (leBytes 1 (m.eventState r) ++ leBytes 1 r.outcome ++ leBytes 2 r.ch ++ leBytes 5 r.target ++ leBytes 3 r.handle ++
      leBytes 4 0 ++ leBytes 8 r.tb) []

def execEventGet (x : Mbx) (s : State) : Host.Outcome State Fault Refusal := s.upd (·.runCmd x.val 0x0304 fun m p => m.eventGet x.val p)

/-- One entry of TRAIN_UPD: 0 copied, 1 refused, 3 not permitted; 2 for a channel that is none. -/
def Chip.trainUpdEntry (m : Chip) (o : Nat) (e : List Byte) : Nat × Chip :=
  let ch := payNat e 0 2
  let pitch := payNat e 4 4 % 2 ^ TR_PITCH.w
  let width := payNat e 8 4 % 2 ^ TR_WIDTH.w
  if 192 ≤ ch then (2, m)
  else if m.chOwner ch ≠ o then (3, m)
  else (if (m.chan ch).train.isNone ∨ pitch < 256 ∨ width = 0 then 1 else 0, m.trainUpdate ch pitch width)

def Chip.trainUpd (m : Chip) (x : Nat) (p : List Byte) : Chip :=
  let (cs, m) := m.eachEntry (fun m e => m.trainUpdEntry (mbOwner x) e) (payEntries p 8 12 (payNat p 0 1))
  m.mbDone x (reasonOf cs) 0 0 (codeBytes cs) []

def execTrainUpd (x : Mbx) (s : State) : Host.Outcome State Fault Refusal := s.upd (·.runCmd x.val 0x0402 fun m p => m.trainUpd x.val p)

/-- A channel's entry of TRAIN_REPORT. -/
def Chip.trainBytes (m : Chip) (ch : Nat) : List Byte :=
  leBytes 1 (m.rd TR_STAT_RUN ch + 2 * b2n (m.trainPend ch) + 4 * m.rd TR_STAT_SAT ch + 8 * m.rd TR_STAT_PAUSE ch) ++
    leBytes 1 (m.rd TR_FLAGS ch) ++ leBytes 2 0 ++ leBytes 4 (m.rd TR_PULSES ch) ++ leBytes 4 (m.rd TR_RUN_PITCH ch)

/-- Flags that a report with CLEAR has read clear. -/
def Chip.flagsClear (m : Chip) (f : Field) (chs : List Nat) : Chip := chs.foldl (fun m ch => m.clearFlags f ch (2 ^ f.w - 1)) m

/-- A report that clears needs the right to write each of its channels (R332). -/
def Chip.clearBarred (m : Chip) (x : Nat) (clear : Bool) (chs : List Nat) : Bool := clear && !chs.all fun ch => m.chOwner ch == mbOwner x

def Chip.trainReport (m : Chip) (x : Nat) (p : List Byte) : Chip :=
  let chs := (List.range (payNat p 1 1)).map (payNat p 0 1 + ·)
  let clear := bitAt (payNat p 2 1) 0
  if m.clearBarred x clear chs then m.mbFail x 3
  else (if clear then m.flagsClear TR_FLAGS chs else m).mbDone x 0 0 0 (chs.flatMap m.trainBytes) []

def execTrainReport (x : Mbx) (s : State) : Host.Outcome State Fault Refusal := s.upd (·.runCmd x.val 0x0403 fun m p => m.trainReport x.val p)

/-! ## Class 0x05: lattices (R339) -/

/-- LAT_STAT as one word. -/
def Chip.latStat (m : Chip) (ch : Nat) : Nat :=
  m.word [LAT_STAT_STATE, LAT_STAT_REF, LAT_STAT_DR, LAT_STAT_SAT, LAT_STAT_ODD, LAT_STAT_ALIGNED] ch

/-- One entry of LATTICE_SET: EN = 0, the words of 0x404-0x434, then LAT_CFG; 12 for an enable that is refused (R192). -/
def Chip.latticeEntry (m : Chip) (x : Nat) (e : List Byte) : Nat × Chip :=
  let ch := payNat e 0 2
  if 192 ≤ ch then (2, m)
  else if m.chOwner ch ≠ mbOwner x then (3, m)
  else
    let w := mbWriter x
    let a := LAT_CFG_EN.addrOf ch
    let m := m.gelowWrite w a 0
    let m := (List.range 13).foldl (fun m k => m.gelowWrite w (a + 4 + 4 * k) (payNat e (8 + 4 * k) 4)) m
    let m := m.gelowWrite w a (payNat e 4 4)
    (if bitAt (payNat e 4 1) 0 && !m.rdB LAT_CFG_EN ch then 12 else 0, m)

def Chip.latticeSet (m : Chip) (x : Nat) (p : List Byte) : Chip :=
  let es := payEntries p 8 60 (payNat p 0 1)
  let (cs, m) := m.eachEntry (fun m e => m.latticeEntry x e) es
  let bs := (cs.zip es).flatMap fun c => leBytes 4 c.1 ++ leBytes 4 (if payNat c.2 0 2 < 192 then m.latStat (payNat c.2 0 2) else 0)
  m.mbDone x (reasonOf cs) 0 0 bs []

def execLatticeSet (x : Mbx) (s : State) : Host.Outcome State Fault Refusal := s.upd (·.runCmd x.val 0x0501 fun m p => m.latticeSet x.val p)

/-- A channel's entry of LATTICE_REPORT. -/
def Chip.latticeBytes (m : Chip) (ch : Nat) : List Byte :=
  leBytes 4 (m.latStat ch) ++ leBytes 2 (m.rd LAT_FLAGS ch) ++ leBytes 2 (m.rd LAT_ERR ch) ++ leBytes 4 (m.rd LAT_TUBE_L ch) ++
    leBytes 2 (m.rd LAT_SPREAD ch) ++ leBytes 2 (m.rd LAT_DROP_ERR ch) ++ leBytes 4 (m.rd LAT_SEEDS ch)

def Chip.latticeReport (m : Chip) (x : Nat) (p : List Byte) : Chip :=
  let chs := (List.range (payNat p 1 1)).map (payNat p 0 1 + ·)
  let clear := bitAt (payNat p 2 1) 0
  if m.clearBarred x clear chs then m.mbFail x 3
  else (if clear then m.flagsClear LAT_FLAGS chs else m).mbDone x 0 0 0 (chs.flatMap m.latticeBytes) []

def execLatticeReport (x : Mbx) (s : State) : Host.Outcome State Fault Refusal :=
  s.upd (·.runCmd x.val 0x0502 fun m p => m.latticeReport x.val p)

/-! ## Class 0x07: the journal (R342, R371, R372) -/

def Chip.journalRead (m : Chip) (x : Nat) (p : List Byte) : Chip :=
  let rs := m.jourRead (mbOwner x) (payNat p 0 6) (payNat p 6 2)
  let last := match rs.getLast? with
    | some r => r.jsn
    | none => 0
  m.mbDone x 0 0 0 (leBytes 2 rs.length ++ leBytes 6 last) (rs.flatMap hallmarkBytes)

def execJournalRead (x : Mbx) (s : State) : Host.Outcome State Fault Refusal := s.upd (·.runCmd x.val 0x0701 fun m p => m.journalRead x.val p)

def Chip.journalCollect (m : Chip) (x : Nat) (p : List Byte) : Chip :=
  let o := mbOwner x
  let j := payNat p 0 6
  if tabGet m.jour.newest o 0 < j then m.mbFail x 2
  else
    let (n, m) := m.jourCollect o j
    m.mbDone x 0 0 0 (leBytes 4 n ++ leBytes 4 (m.jourFree o)) []

def execJournalCollect (x : Mbx) (s : State) : Host.Outcome State Fault Refusal :=
  s.upd (·.runCmd x.val 0x0702 fun m p => m.journalCollect x.val p)

/-- The newest accepted command of an owner with a TAG: its first JSN and its accepted entries. -/
def Chip.jourFind (m : Chip) (o tag : Nat) : Nat × Nat :=
  match (m.jour.recs.filter fun r => r.owner == o && r.tag == tag).getLast? with
  | some r => (r.first, r.acc)
  | none => (0, 0)

def Chip.journalFind (m : Chip) (x : Nat) (p : List Byte) : Chip :=
  let (j, n) := m.jourFind (mbOwner x) (payNat p 0 4)
  m.mbDone x 0 0 0 (leBytes 6 j ++ leBytes 1 n) []

def execJournalFind (x : Mbx) (s : State) : Host.Outcome State Fault Refusal := s.upd (·.runCmd x.val 0x0703 fun m p => m.journalFind x.val p)

end Sys2Proof.Machine
end

