-- ==== Sys2Proof/Machine/Maintain.lean ====
section
/-! DEFINITION. The mailbox commands of classes 0x06, 0x08 and 0x09: maps, diagnostics and maintenance; uploads (09 R340-R347, R329, R330;
08 R286-R302). -/

namespace Sys2Proof.Machine

/-! ## Class 0x06: maps (R340, R341) -/

/-- MOUNT: settings, then the mount of R289 or the flush of every dirty tile. MIRROR and T1_EN take effect only when it enables. -/
def Chip.mountCmd (m : Chip) (x : Nat) (p : List Byte) : Chip :=
  let on := m.rdB NC_CFG_EN
  let w := payNat p 0 1
  let m := (m.wr NC_CFG_TMODE 0 (payNat p 1 1)).wr NC_CFG_REFRESH_THR 0 (payNat p 2 1)
  let m := if on || !bitAt w 0 then m else ((m.wr NC_CFG_MIRROR 0 (w / 2)).wr NC_CFG_T1_EN 0 (w / 4)).wr NC_CFG_EN 0 1
  let m := m.mbLong x { op := 0 }
  if bitAt w 0 && m.rd NC_STAT_MSTATE == 0 then m
  else if bitAt w 0 then
    match (m.mb x).run with
    | some r => m.mountDone x r
    | none => m
  else m.longTick x

def execMount (x : Mbx) (s : State) : Host.Outcome State Fault Refusal := s.upd (·.runCmd x.val 0x0601 fun m p => m.mountCmd x.val p)

/-- The mount of R289 ends, and with it every MOUNT that waits for it. -/
def Chip.mountEnd (m : Chip) (p0 p1 : Option NandPage) (cut : List NandCut) : Chip :=
  if !m.rdB NC_CFG_EN ∨ m.rd NC_STAT_MSTATE ≠ 0 ∨ !m.gelow.up ∨ !m.runs islMgmt then m else (m.nandMount p0 p1 cut).mountsDone

def execNandMount (t0 t1 : Option NandPage) (cuts : List NandCut) (s : State) : Host.Outcome State Fault Refusal :=
  s.upd (·.mountEnd t0 t1 cuts)

/-- MAP_CONFIG, of the geometry owner. -/
def Chip.mapConfig (m : Chip) (x : Nat) (p : List Byte) : Chip :=
  if m.rd PROT_ROLE_GEOM ≠ mbOwner x then m.mbFail x 3
  else
    let m := (m.gelowWrite .anvilV MAP_CFG_EN.addr (payNat p 0 4)).gelowWrite .anvilV MAP_DEF_DEF_RATE.addr (payNat p 4 1)
    m.mbDone x 0 0 0 [] []

def execMapConfig (x : Mbx) (s : State) : Host.Outcome State Fault Refusal := s.upd (·.runCmd x.val 0x0602 fun m p => m.mapConfig x.val p)

def Chip.rateSet (m : Chip) (x : Nat) (p : List Byte) : Chip :=
  let m := (List.range (payNat p 1 1)).foldl
    (fun m i => m.gelowWrite .anvilV (MAP_RATE_WIDTH.addrOf (payNat p 0 1 + i)) (payNat p (4 + 4 * i) 4)) m
  m.mbDone x 0 0 0 [] []

def execRateSet (x : Mbx) (s : State) : Host.Outcome State Fault Refusal := s.upd (·.runCmd x.val 0x0603 fun m p => m.rateSet x.val p)

/-- One entry of MAP_CH_SET, of the channel's owner. -/
def Chip.mapChEntry (m : Chip) (o : Nat) (e : List Byte) : Nat × Chip :=
  let ch := payNat e 0 2
  if 192 ≤ ch then (2, m)
  else if m.chOwner ch ≠ o then (3, m)
  else (0, m.gelowWrite .anvilV (MAP_CH_CFG_GATE_EN.addrOf ch) (payNat e 4 4))

def Chip.mapChSet (m : Chip) (x : Nat) (p : List Byte) : Chip :=
  let (cs, m) := m.eachEntry (fun m e => m.mapChEntry (mbOwner x) e) (payEntries p 4 8 (payNat p 0 1))
  m.mbDone x (reasonOf cs) 0 0 (codeBytes cs) []

def execMapChSet (x : Mbx) (s : State) : Host.Outcome State Fault Refusal := s.upd (·.runCmd x.val 0x0604 fun m p => m.mapChSet x.val p)

/-- The data bytes of a tile of a layer (R262, R263). -/
def layerBytes (layer : Nat) : Nat := if layer = 0 then 102400 else 4096

/-- TILE_LOAD takes the upload buffer. -/
def Chip.tileLoadCmd (m : Chip) (x : Nat) (p : List Byte) : Chip :=
  if !m.writable then m.mbFail x 9 else m.upTake x (64 + layerBytes (payNat p 0 1))

def execTileLoad (x : Mbx) (s : State) : Host.Outcome State Fault Refusal := s.upd (·.runCmd x.val 0x0605 fun m p => m.tileLoadCmd x.val p)

/-- A tile's header of 64 bytes (R290): layer at 0, TE at 2, TN at 4, version at 8, length at 12, CRC-32 at 16. The places of its fields
are the model's (the manual gives none). -/
def tileHeader (layer te tn ver : Nat) (data : List Byte) : List Byte :=
  leBytes 2 layer ++ leBytes 2 te ++ leBytes 2 tn ++ leBytes 2 0 ++ leBytes 4 ver ++ leBytes 4 data.length ++
    leBytes 4 (Config.crc32 data).toNat ++ leBytes 44 0

/-- A received header and data match a request (R341); the version is not looked at. -/
def tileMatches (layer te tn : Nat) (got : List Byte) : Bool :=
  let h := got.take 64
  let d := got.drop 64
  payNat h 0 2 == layer && payNat h 2 2 == te && payNat h 4 2 == tn && payNat h 12 4 == d.length && d.length == layerBytes layer &&
    payNat h 16 4 == (Config.crc32 d).toNat

/-- Bytes as cells from an offset on. -/
def toCells (o : Nat) (bs : List Byte) : List Host.Cell :=
  match bs with
  | [] => []
  | b :: r => if b = 0 then toCells (o + 1) r else (o, b) :: toCells (o + 1) r

/-- n bytes from an offset on, of cells. -/
def ofCells (cs : List Host.Cell) (o n : Nat) : List Byte :=
  match n with
  | 0 => []
  | k + 1 => match cs with
    | [] => 0 :: ofCells [] (o + 1) k
    | (j, v) :: r => if j = o then v :: ofCells r (o + 1) k else 0 :: ofCells ((j, v) :: r) (o + 1) k

/-- The upload of a TILE_LOAD is complete: checks, commit, and the load that the next tick applies (R286, R296). -/
def Chip.tileLoadEnd (m : Chip) (x : Nat) (r : LongRun) : Chip :=
  let layer := payNat r.req 0 1
  let te := payNat r.req 2 2
  let tn := payNat r.req 4 2
  if !tileMatches layer te tn r.got then m.mbFail x 2
  else if !m.writable then m.mbFail x 9
  else
    let cells := toCells 0 (r.got.drop 64)
    let merge := payNat r.req 1 1 == 1
    let all := loadCells layer merge (m.tileCells layer (toSigned 16 te) (toSigned 16 tn)) cells
    let (v, m) := m.tileCommit (tileKey layer (toSigned 16 te) (toSigned 16 tn)) all (layerBytes layer)
    let l : TileLoad := { layer := layer, te := toSigned 16 te, tn := toSigned 16 tn, merge := merge, cells := cells, ver := v }
    { m with map := { m.map with loads := m.map.loads ++ [l] } }.runDone x r (leBytes 4 v)

/-- The tiles of a rectangle, in order of TN and then TE. -/
def rectTiles (te0 tn0 te1 tn1 : Int) : List (Int × Int) :=
  (List.range (tn1 - tn0 + 1).toNat).flatMap fun j => (List.range (te1 - te0 + 1).toNat).map fun i => (te0 + (i : Nat), tn0 + (j : Nat))

/-- A coverage tile with its header, as the cache holds it, else as last committed; none where it exists in neither. -/
def Chip.exportTile (m : Chip) (t : Int × Int) : Option (List Byte) :=
  let head := fun (v : Nat) (d : List Byte) => tileHeader 0 (ofSigned 16 t.1) (ofSigned 16 t.2) v d ++ d
  match (m.tileSlot 0 t.1 t.2).filter m.tileKnown with
  | some k =>
    let v := match m.nandTile (tileKey 0 t.1 t.2) with
      | some c => c.ver
      | none => m.rd MAP_CT_STAT_VER k
    some (head v (m.load (tileBase k) 102400))
  | none => match m.nandTile (tileKey 0 t.1 t.2) with
    | some c => some (head c.ver (ofCells c.cells 0 102400))
    | none => none

/-- A tile that only the medium holds and cannot be read. -/
def Chip.exportLost (m : Chip) (t : Int × Int) : Bool :=
  ((m.tileSlot 0 t.1 t.2).filter m.tileKnown).isNone && m.tileGone (tileKey 0 t.1 t.2)

/-- COVERAGE_EXPORT: at most 64 tiles. -/
def Chip.coverageExport (m : Chip) (x : Nat) (p : List Byte) : Chip :=
  let c := fun o => toSigned 16 (payNat p o 2)
  let n := (c 4 - c 0 + 1) * (c 6 - c 2 + 1)
  if c 4 < c 0 ∨ c 6 < c 2 ∨ 64 < n then m.mbFail x 2
  else
    let ts := rectTiles (c 0) (c 2) (c 4) (c 6)
    if ts.any m.exportLost then m.mbFail x 11
    else
      let bs := ts.filterMap m.exportTile
      let m := m.wr MB_STATUS_PROGRESS x bs.length
      m.mbLong x { op := 0, out := bs.flatten, full := true, resp := leBytes 2 bs.length ++ leBytes 2 0 ++ leBytes 4 (102464 * bs.length) }

def execCoverageExport (x : Mbx) (s : State) : Host.Outcome State Fault Refusal :=
  s.upd (·.runCmd x.val 0x0606 fun m p => m.coverageExport x.val p)

/-! ## Class 0x08: diagnostics (R343, R344) -/

/-- A diagnostics command that is not long is accepted and delivers its result at once. -/
def Chip.diagDone (m : Chip) (x : Nat) (pay window : List Byte) : Nat × Chip :=
  let (j, m) := m.accept x none 0 0xFFFF 0 0
  (j, (m.jourResolve j 1 14 false (m.tbOf islMgmt) 0).mbDone x 0 1 j pay window)

def Chip.countersCmd (m : Chip) (x : Nat) (p : List Byte) : Chip :=
  let o := mbOwner x
  let k := payNat p 0 1
  let u := payNat p 1 1
  let n := payNat p 2 1
  if n = 0 ∨ counterUnits k < u + n then m.mbFail x 2
  else if !m.gelow.collect then m.mbFail x 12
  else if m.jourFree o = 0 then m.mbFail x 4
  else
    let us := (List.range n).map (u + ·)
    let w := us.flatMap fun u => (m.counts o k u).flatMap (leBytes 4)
    let (j, m) := m.diagDone x [] w
    let snaps := us.map fun u => (⟨j, o, k * 256 + u, m.totalsOf k u⟩ : Snap)
    { m with gelow := { m.gelow with snaps := m.gelow.snaps ++ snaps } }

def execCounters (x : Mbx) (s : State) : Host.Outcome State Fault Refusal := s.upd (·.runCmd x.val 0x0801 fun m p => m.countersCmd x.val p)

def Chip.captureGet (m : Chip) (x : Nat) (p : List Byte) : Chip :=
  let ch := payNat p 0 1
  match tabFind m.copies ch with
  | none => m.mbFail x 12
  | some c =>
    if m.jourFree (mbOwner x) = 0 then m.mbFail x 4
    else
      let head := leBytes 1 ch ++ leBytes 1 c.lanes ++ leBytes 2 c.dec ++ leBytes 4 c.samples.length ++ leBytes 8 c.tb ++ leBytes 2 c.notch ++
        leBytes 14 0
      (m.diagDone x head (c.samples.flatMap (leBytes 2))).2

def execCaptureGet (x : Mbx) (s : State) : Host.Outcome State Fault Refusal := s.upd (·.runCmd x.val 0x0802 fun m p => m.captureGet x.val p)

/-- A channel's 16 bytes of WEAR_REPORT, and the last 16. -/
def Chip.wearBytes (m : Chip) (ch : Nat) : List Byte :=
  leBytes 4 (m.word [DG_WEAR0_W, DG_WEAR0_WSTATE, DG_WEAR0_NREM] ch) ++ leBytes 4 (m.word [DG_WEAR1_MU, DG_WEAR1_SIGMA] ch) ++
    leBytes 4 (m.word [DG_WEAR2_MU0, DG_WEAR2_EOL_DAYS] ch) ++ leBytes 4 (m.rd CH_DRV_ACT ch)
def Chip.eolBytes (m : Chip) : List Byte :=
  leBytes 4 (m.word [BCAP_ESR_ESR, BCAP_ESR_BASE]) ++ leBytes 4 (m.rd BCAP_C) ++ leBytes 4 (m.rd BCAP_EOL) ++
    leBytes 4 (m.word [NC_EOL_EOL_DAYS, NC_EOL_USED])

def Chip.wearReport (m : Chip) (x : Nat) (p : List Byte) : Chip :=
  if m.jourFree (mbOwner x) = 0 then m.mbFail x 4
  else
    let n := payNat p 1 1
    let out := ((List.range n).flatMap fun i => m.wearBytes (payNat p 0 1 + i)) ++ m.eolBytes
    let (j, m) := m.accept x none 0 0xFFFF 0 0
    ((m.stage (.diag j)).wr MB_STATUS_PROGRESS x n).mbLong x { op := 0, jsn := j, out := out, full := true }

def execWearReport (x : Mbx) (s : State) : Host.Outcome State Fault Refusal := s.upd (·.runCmd x.val 0x0803 fun m p => m.wearReport x.val p)

/-! ## Class 0x09: maintenance (R345-R347) -/

/-- The channels are all the writer's. -/
def Chip.ownsAll (m : Chip) (o : Nat) (chs : List Nat) : Bool := chs.all fun ch => m.chOwner ch == o

def Chip.wearParam (m : Chip) (x : Nat) (p : List Byte) : Chip :=
  let chs := (List.range (payNat p 1 1)).map (payNat p 0 1 + ·)
  if !m.ownsAll (mbOwner x) chs then m.mbFail x 3
  else
    let m := chs.foldl (fun m ch =>
      ({ m with wear := tabPut m.wear ch { m.wearOf ch with dLim := payNat p 2 2, sLim := payNat p 4 2 } }).wearPublish ch) m
    m.mbDone x 0 0 0 [] []

def execWearParam (x : Mbx) (s : State) : Host.Outcome State Fault Refusal := s.upd (·.runCmd x.val 0x0901 fun m p => m.wearParam x.val p)

/-- A wear model starts anew; the limits of the valve class stay. -/
def Chip.wearClear (m : Chip) (ch : Nat) : Chip :=
  let w := m.wearOf ch
  ({ m with wear := tabPut m.wear ch { dLim := w.dLim, sLim := w.sLim, cleared := true } }).wearPublish ch

/-- A baseline reset of the capacitor bank (R256). -/
def Chip.bcapClear (m : Chip) : Chip :=
  { m with bcap := { m.bcap with from_ := m.boostOp, esrs := [], ratios := [], vbats := [], base := none, hist := [] } }

def Chip.wearReset (m : Chip) (x : Nat) (p : List Byte) : Chip :=
  let chs := bitmapChs p
  let cap := bitAt (payNat p 24 1) 0
  if !m.ownsAll (mbOwner x) chs ∨ (cap ∧ m.rd PROT_ROLE_DRIVE ≠ mbOwner x) then m.mbFail x 3
  else
    let m := chs.foldl Chip.wearClear m
    (if cap then m.bcapClear else m).mbDone x 0 0 0 [] []

def execWearReset (x : Mbx) (s : State) : Host.Outcome State Fault Refusal := s.upd (·.runCmd x.val 0x0902 fun m p => m.wearReset x.val p)

def Chip.calSweep (m : Chip) (x : Nat) (p : List Byte) : Chip :=
  m.mbLong x { op := 0, next := m.tb, cals := (bitmapChs p).map fun ch => { ch := ch, left := payNat p 24 2 } }

def execCalSweep (x : Mbx) (s : State) : Host.Outcome State Fault Refusal := s.upd (·.runCmd x.val 0x0903 fun m p => m.calSweep x.val p)

/-- Test 1 may run (R347). -/
def Chip.testOneOk (m : Chip) : Bool :=
  (List.range 24).all (fun b => !m.rdB BK_CTL_EN b) && m.poolFree == 16384 && (List.range 192).all (fun ch => !m.rdB MAP_CH_STAT_OWN_ON ch) &&
    (List.range 192).all fun ch => !m.rdB LAT_CFG_EN ch

/-- The supply test and the node tests of one bank: its failing items. -/
def Chip.bankTest (m : Chip) (b : Nat) (t : BankTest) : Nat × Chip :=
  let m := (m.setBank b { m.bank b with supTb := some (m.tb - 5 * msTb) }).wr DGB_STAT_BUSY b 1
  let m := if t.nodeHi then m.supNodeHi b else m.supEnd b t.above.toNat
  let defer := 16 * m.rd BK_CTL_DEFER b
  let m := m.bankCtl b (defer + 1)
  let m := (List.range 8).foldl (fun m k =>
    let ch := 8 * b + k
    let v := t.nodes.getD k (0, 0)
    (m.setDrv ch { m.drv ch with nodeTb := some (m.tb - 200 * usTb) }).nodeEnd ch v.1 v.2) m
  let bad := (List.range 8).filter fun k =>
    (!t.nodeHi && bitAt t.above.toNat k) || (let v := t.nodes.getD k (0, 0); nodeResult v.1 v.2 != 1)
  (bad.length + b2n t.nodeHi, m.bankCtl b defer)

/-- The banks one at a time. -/
def Chip.bankTests (m : Chip) (b : Nat) (l : List BankTest) : Nat × Chip :=
  match l with
  | [] => (0, m)
  | t :: r =>
    let (n, m) := m.bankTest b t
    let (k, m) := m.bankTests (b + 1) r
    (n + k, m)

/-- The word of a test that is not run. -/
def notRun : Nat := 0xFFFFFFFF

/-- The thresholds of a channel's current window as its DACs stand, in codes of 4 mV (R412): those of HOLD while the channel is OFF. -/
def Chip.windowDac (m : Chip) (ch : Nat) : Nat × Nat := m.window ch (if m.phase ch = phOff then phHold else m.phase ch)

/-- The items of the read-back test, in the order of R431: the level in nV that each stands for (R412), in 1/1024, and how far off it may be, in nV. -/
def Chip.readbackItems (m : Chip) : List (Int × Int) :=
  let dac := fun (code : Nat) => ((code : Int) * 5000000000, (18000000 : Int))
  let win := fun (code : Nat) => ((code : Int) * 4000000 * 1024, (15000000 : Int))
  ((List.range 16).flatMap fun n => [dac (m.rd CMP_THR_LO n), dac (m.rd CMP_THR_HI n)]) ++
    ((List.range 96).flatMap fun n => [dac (m.rd SDS_THR_LO n), dac (m.rd SDS_THR_HI n)]) ++
    ((List.range 192).flatMap fun ch => [win (m.windowDac ch).1, win (m.windowDac ch).2]) ++
    List.replicate 4 (2500000000 * 1024, 5000000) ++ List.replicate 4 (0, 60000)

/-- The items of the read-back test: thresholds of the general comparators, the seed sensors and the channels, then reference and AGND. -/
def readbackCount : Nat := 616

/-- An item fails: what was read back lies further off than it may. -/
def readbackFails (item : Int × Int) (nv : Int) : Bool := decide (item.2 * 1024 < absI (nv * 1024 - item.1))

/-- One test of SELF_TEST: its word. -/
def Chip.selfTestOne (m : Chip) (bit : Nat) (n : Nat) (nvs : List Int) (banks : List BankTest) : Nat × Chip :=
  let w := min n 0xFFFFFFFE
  if bit = 0 then
    let free := (List.range 4).all (fun u => m.rd ADC_CTL_MODE u == 0) && !m.rdB AS_CTL_EN
    (if free then ((m.readbackItems.zip nvs).filter fun p => readbackFails p.1 p.2).length else notRun, m)
  else if bit = 1 then if m.testOneOk then m.bankTests 0 banks else (notRun, m)
  else if bit = 2 then (w, if n = 0 ∧ m.jour.again then { m with jour := { m.jour with broken := false } } else m)
  else if bit = 3 then
    if m.rd NC_STAT_MSTATE = 0 ∨ m.rd NC_STAT_MSTATE = 5 then (notRun, m)
    else
      let (c, m) := m.free
      (w, ((m.wr NC_ECC_MAXC_ROUND 0 (c % 256).toNat).wr NC_PROG_ROUND 0 0).ncFlag NC_FLAGS_PATROL_DONE)
  else if bit = 4 then (w, m)
  else (notRun, m)

/-- The tests of a mask, lowest bit first. -/
def Chip.selfTests (m : Chip) (mask : Nat) (res : List Nat) (nvs : List Int) (banks : List BankTest) (bits : List Nat) : List Nat × Chip :=
  match bits with
  | [] => ([], m)
  | b :: r =>
    if bitAt mask b then
      let (w, m) := m.selfTestOne b (res.getD b 0) nvs banks
      let (ws, m) := m.selfTests mask res nvs banks r
      (w :: ws, m)
    else m.selfTests mask res nvs banks r

/-- SELF_TEST with what its tests meet: the voltages read back in test 0, the items failing in tests 2, 3 and 4, and each bank in test 1. -/
def Chip.selfTest (m : Chip) (x : Nat) (t0 : List Int) (t2 t3 t4 : Nat) (banks : List BankTest) (p : List Byte) : Chip :=
  if t0.length ≠ readbackCount ∨ banks.length ≠ 24 ∨ banks.any (fun t => t.nodes.length != 8) then m
  else
    let (ws, m) := m.selfTests (payNat p 0 4) [0, 0, t2, t3, t4] t0 banks (List.range 32)
    (m.wr MB_STATUS_PROGRESS x ws.length).mbLong x { op := 0, out := ws.flatMap (leBytes 4), full := true, late := true }

def execSelfTest (x : Mbx) (t0 : List NanoVolt) (t2 t3 t4 : Nat) (banks : List BankTest) (s : State) : Host.Outcome State Fault Refusal :=
  s.upd (·.runCmd x.val 0x0904 fun m p => m.selfTest x.val t0 t2 t3 t4 banks p)

/-- FW_UPDATE takes the upload buffer. -/
def Chip.fwUpdate (m : Chip) (x : Nat) (p : List Byte) : Chip := if !m.writable then m.mbFail x 9 else m.upTake x (payNat p 4 4)

def execFwUpdate (x : Mbx) (s : State) : Host.Outcome State Fault Refusal := s.upd (·.runCmd x.val 0x0905 fun m p => m.fwUpdate x.val p)

/-- The active markers can be committed: they lie on target 0, and on target 1 too where it is mirrored (R299). -/
def Chip.markerOk (m : Chip) : Bool := m.nand.t0.ok || (m.rdB NC_CFG_MIRROR && m.inUse 1 && m.nand.t1.ok)

/-- A firmware image has come whole (R302, R346): it is written to the inactive slot of its pair, slots 1 and 3 on target 1 where that is in
use (R299), and becomes the active one where it passes and the marker commits. -/
def Chip.fwEnd (m : Chip) (x : Nat) (r : LongRun) : Chip :=
  let c := payNat r.req 0 1
  let k := if c = 0 then 1 - m.nand.activeV else 5 - m.nand.activeC
  let on1 := m.inUse 1 && k % 2 == 1
  if !m.writable ∨ !(m.target (if on1 then 1 else 0)).ok ∨ !m.markerOk then m.mbFail x 9
  else
    let m := { m with nand := { m.nand with
      images := tabPut m.nand.images k r.got
      imgT1 := if on1 then k :: m.nand.imgT1.filter (· != k) else m.nand.imgT1.filter (· != k) } }
    let m := m.nandDay 0 0 (m.pagesHold ((r.got.length + 1023) / 1024) * m.pageBytes)
    if !m.imgPass r.got (c + 1) then m.mbFail x 10
    else
      let m := { m with nand := if c = 0 then { m.nand with activeV := k } else { m.nand with activeC := k } }
      m.runDone x r (leBytes 4 (imgWord r.got 8))

/-! ## Uploads and chunks (R329, R330) -/

/-- PROGRESS of an upload: KB received of a tile, 64 KB units of an image. -/
def upProgress (op n : Nat) : Nat := if op = 0x0605 then n / 1024 else n / 65536

/-- The upload command of a port whose writer has handed a chunk over. -/
def Chip.upOwner (m : Chip) (p : Nat) : Option (Nat × LongRun) :=
  let x := 8 * p + m.rd HP_STAT_UP_MB p
  match (m.mb x).run with
  | some r => if m.rdB HP_STAT_UP_TAKEN p ∧ m.rdB HP_STAT_UP_BUSY p ∧ m.rdB MB_INFO_UP_WAIT x ∧ (m.mb x).nextTb.isSome then some (x, r) else none
  | none => none

/-- An upload command has all its bytes. -/
def Chip.upEnd (m : Chip) (x : Nat) (r : LongRun) : Chip :=
  let m := m.wr MB_INFO_UP_WAIT x 0
  if r.op = 0x0605 then m.tileLoadEnd x r else m.fwEnd x r

/-- Gelow copies a chunk (R330); LEN above 65,536 acts as 65,536. -/
def Chip.upCopy (m : Chip) (p : Nat) : Chip :=
  match m.upOwner p with
  | none => m
  | some (x, r) =>
    if !m.gelow.up ∨ !m.runs islMgmt ∨ !m.mbRuns x then m
    else
      let n := min 65536 (m.rd HP_UP_LEN p)
      if n = 0 ∨ r.due < n then m.mbFail x 2
      else
        let r := { r with got := r.got ++ m.load (0x40000 + p * 0x10000) n, due := r.due - n }
        let m := (m.wr HP_STAT_UP_BUSY p 0).setMb x { m.mb x with run := some r, nextTb := none }
        let m := m.wr MB_STATUS_PROGRESS x (min 65535 (upProgress r.op r.got.length))
        if r.due = 0 then m.upEnd x r else m

def execUploadChunkCopy (p : Port) (s : State) : Host.Outcome State Fault Refusal := s.upd (·.upCopy (portNo p))

def execChunkHoldTimeout (x : Mbx) (s : State) : Host.Outcome State Fault Refusal := s.upd (·.holdEnd60 x.val)

def execChunkDelivery (x : Mbx) (s : State) : Host.Outcome State Fault Refusal := s.upd (·.deliver x.val)

end Sys2Proof.Machine
end

