-- ==== Sys2Proof/Machine/Gelow.lean ====
section
/-! DEFINITION. Gelow's tick and its return after an Anvil-V restart (09 R328, R353; 10 R377). -/

namespace Sys2Proof.Machine

def execGelowTick (s : State) : Host.Outcome State Fault Refusal := s.upd (·.gelowTick)

/-! ## Anvil-V restarts (R377) -/

/-- Every slot reservation that has no acceptance record is freed. -/
def Chip.orphansFree (m : Chip) : Chip :=
  m.pool.foldl (fun m p => match p.2.jsn with
    | some j => if p.2.life = .reserved ∧ (m.rec? j).isNone then m.freeSlot p.1 else m
    | none => m) m

/-- A staged entry at the restart: an event is installed, an INHIBIT that is still accepted applies, a diagnostics command is interrupted. -/
def Chip.stagedResume (m : Chip) (s : Staged) : Chip :=
  match s with
  | .event j _ => m.install j
  | .inhibit j ps =>
    match m.rec? j, ps with
    | some r, set :: chs => if r.phase = 0 then m.inhibitApply j r.owner (set == 1) chs else m
    | _, _ => m
  | .diag j => (m.unstageDiag j).jourResolve j 6 11 false (m.tbOf islMgmt) 0

/-- The steps of R377 before the mailboxes. -/
def Chip.restartV (m : Chip) : Chip :=
  if m.sys.vDown.isSome ∧ !m.sys.vReady ∧ m.runs islMgmt then
    let m := m.orphansFree
    let st := m.jour.staged
    let m := (st.filter fun s => match s with
      | .event _ _ => true
      | _ => false).foldl Chip.stagedResume m
    let m := (st.filter fun s => match s with
      | .event _ _ => false
      | _ => true).foldl Chip.stagedResume m
    { m with coreV := { m.coreV with running := true, mode := 3, pc := m.sys.vEntry }, sys := { m.sys with vReady := true } }
  else m

def execAnvilVRestart (s : State) : Host.Outcome State Fault Refusal := s.upd (·.restartV)

/-- The newest acceptance record of the command in a mailbox, by its identity (R353, R359). -/
def Chip.mbRec (m : Chip) (x : Nat) : Option Rec :=
  (m.jour.recs.filter fun r => r.mbx == x && r.seq == m.rd MB_STATUS_SEQ x && r.tag == m.mbTag x && r.owner == mbOwner x).getLast?

/-- The response of an event command as its records give it: JSN and handle of each accepted entry at its place. -/
def Chip.rebuilt (m : Chip) (first : Nat) (n : Nat) : List Byte :=
  (List.range n).flatMap fun i => match m.jour.recs.find? fun r => r.first == first && r.entry == i with
    | some r => armBytes r.jsn 0 r.handle
    | none => armBytes 0 0 0

/-- A mailbox that held a command at the restart (R353, R331). -/
def Chip.mbResume (m : Chip) (x : Nat) : Chip :=
  if !m.mbBusy x then m
  else match ((m.mb x).run).filter (·.late) with
    | some r => m.runDone x r r.resp
    | none => match m.mbRec x with
      | some r =>
        let n := opEntries r.opcode (m.mbPay x)
        m.mbEnd x 4 (if r.acc < n then 1 else 0) r.acc r.first (if r.opcode = 0x0301 ∨ r.opcode = 0x0401 then m.rebuilt r.first n else [])
      | none => m.mbAborted x (if m.mbSt x = 1 ∧ (m.mb x).abort then 1 else 2) 0 0

/-- Gelow runs again. -/
def Chip.resumeV (m : Chip) : Chip :=
  if m.sys.vReady ∧ m.runs islMgmt then
    let m := (List.range 20).foldl Chip.mbResume m
    { m with gelow := { m.gelow with batch := [] }, sys := { m.sys with vDown := none, vReady := false, wdtV := m.tb } }.gelowUp
  else m

def execGelowResume (s : State) : Host.Outcome State Fault Refusal := s.upd (·.resumeV)

end Sys2Proof.Machine
end

