-- ==== Sys2Proof/Machine/Journal.lean ====
section
/-! DEFINITION. The commands of the journal writer (10 R364, R376, R382). -/

namespace Sys2Proof.Machine

/-- The journal writer runs: it stands in the management island (R16). -/
def Chip.writerRuns (m : Chip) : Bool := m.runs islMgmt && m.sys.holdTb == 0

def execJournalPhaseWord (s : State) : Host.Outcome State Fault Refusal :=
  s.upd fun m => if m.writerRuns then m.jourWord else m

/-- Every 1 ms the TB is written to the control area (R376). -/
def Chip.heartbeat (m : Chip) : Chip :=
  if m.writerRuns ∧ m.due .heartbeat then { m with jour := { m.jour with heartbeat := m.tbOf islMgmt } }.stamp .heartbeat else m

def execJournalHeartbeat (s : State) : Host.Outcome State Fault Refusal := s.upd (·.heartbeat)

/-- An uncorrectable word: SYS_CRUC_ADDR, the CRUC fault, and no journaled command until R382 ends it. -/
def Chip.crucible (m : Chip) (a : Nat) : Chip :=
  if m.writerRuns ∧ a < 0x110000 then
    let m := m.wr SYS_CRUC_ADDR 0 a
    { m with jour := { m.jour with broken := true, again := false } }.sysFlag SYS_FLT_FLAGS_CRUC
  else m

def execCrucibleUncorrectable (addr : BitVec 21) (s : State) : Host.Outcome State Fault Refusal := s.upd (·.crucible addr.toNat)

end Sys2Proof.Machine
end

