-- ==== Sys2Proof/Machine/Dispatch.lean ====
section
/-! DEFINITION. The dispatch: one arm per command of spec/opcode_table.json. -/

namespace Sys2Proof.Machine

/-- The effect of a command on everything but the queue. -/
def exec (i : Instr) (s : State) : Host.Outcome State Fault Refusal :=
  match i with
  | .fabricWord l w rx => Sys2Proof.Machine.execFabricWord l w rx s
  | .tbBroadcast => Sys2Proof.Machine.execTbBroadcast s
  | .sramParityRead reader place addr held => Sys2Proof.Machine.execSramParityRead reader place addr held s
  | .sramRefetchDone => Sys2Proof.Machine.execSramRefetchDone s
  | .lockstepFault => Sys2Proof.Machine.execLockstepFault s
  | .anvilCProtectionTrap addr k => Sys2Proof.Machine.execAnvilCProtectionTrap addr k s
  | .anvilAccessFault core addr k => Sys2Proof.Machine.execAnvilAccessFault core addr k s
  | .registerWrite who addr w => Sys2Proof.Machine.execRegisterWrite who addr w s
  | .rcRead addr => Sys2Proof.Machine.execRcRead addr s
  | .vrArm n mv => Sys2Proof.Machine.execVrArm n mv s
  | .wheelEdge n x steepOther both => Sys2Proof.Machine.execWheelEdge n x steepOther both s
  | .whlMissingReference n => Sys2Proof.Machine.execWhlMissingReference n s
  | .whlDiagEvaluation n p => Sys2Proof.Machine.execWhlDiagEvaluation n p s
  | .whlPullTest n up down => Sys2Proof.Machine.execWhlPullTest n up down s
  | .whlFaultExit n => Sys2Proof.Machine.execWhlFaultExit n s
  | .whlStopTimeout n => Sys2Proof.Machine.execWhlStopTimeout n s
  | .whlDirPulseTimeout n => Sys2Proof.Machine.execWhlDirPulseTimeout n s
  | .whlInterpolationTick n => Sys2Proof.Machine.execWhlInterpolationTick n s
  | .whlCfgWrite who n w => Sys2Proof.Machine.execWhlCfgWrite who n w s
  | .whlResync who n => Sys2Proof.Machine.execWhlResync who n s
  | .whlFaultClr who n => Sys2Proof.Machine.execWhlFaultClr who n s
  | .whlEdgeSnapshotRead n => Sys2Proof.Machine.execWhlEdgeSnapshotRead n s
  | .whlIdxSnapshotRead n => Sys2Proof.Machine.execWhlIdxSnapshotRead n s
  | .predictionTick => Sys2Proof.Machine.execPredictionTick s
  | .slotMeasurement k => Sys2Proof.Machine.execSlotMeasurement k s
  | .slotWordTimeout k => Sys2Proof.Machine.execSlotWordTimeout k s
  | .slipEvaluation => Sys2Proof.Machine.execSlipEvaluation s
  | .mdlSrcEnable who k w => Sys2Proof.Machine.execMdlSrcEnable who k w s
  | .mdlEnable who w => Sys2Proof.Machine.execMdlEnable who w s
  | .stillTimer => Sys2Proof.Machine.execStillTimer s
  | .coastTimeout => Sys2Proof.Machine.execCoastTimeout s
  | .mdlHistoryEntry => Sys2Proof.Machine.execMdlHistoryEntry s
  | .poseCommit who => Sys2Proof.Machine.execPoseCommit who s
  | .poseProcessed => Sys2Proof.Machine.execPoseProcessed s
  | .poseTimeout => Sys2Proof.Machine.execPoseTimeout s
  | .fieldSet who => Sys2Proof.Machine.execFieldSet who s
  | .learnClr who => Sys2Proof.Machine.execLearnClr who s
  | .yawHostWrite who w => Sys2Proof.Machine.execYawHostWrite who w s
  | .yawSourceTimeout => Sys2Proof.Machine.execYawSourceTimeout s
  | .deflectionSample d => Sys2Proof.Machine.execDeflectionSample d s
  | .deflectionTimeout d => Sys2Proof.Machine.execDeflectionTimeout d s
  | .axCfgWrite who a w => Sys2Proof.Machine.execAxCfgWrite who a w s
  | .mdlSnapshotRead => Sys2Proof.Machine.execMdlSnapshotRead s
  | .axSnapshotRead a => Sys2Proof.Machine.execAxSnapshotRead a s
  | .chArm who ch => Sys2Proof.Machine.execChArm who ch s
  | .chCancel who ch handle => Sys2Proof.Machine.execChCancel who ch handle s
  | .chCancelAll who ch => Sys2Proof.Machine.execChCancelAll who ch s
  | .eventInstall jsn => Sys2Proof.Machine.execEventInstall jsn s
  | .compareFire ch => Sys2Proof.Machine.execCompareFire ch s
  | .pulseEnd ch => Sys2Proof.Machine.execPulseEnd ch s
  | .eventDeadline di => Sys2Proof.Machine.execEventDeadline di s
  | .lateWindowExceeded di => Sys2Proof.Machine.execLateWindowExceeded di s
  | .standingSpanEnd di => Sys2Proof.Machine.execStandingSpanEnd di s
  | .chLastRead ch => Sys2Proof.Machine.execChLastRead ch s
  | .chHeadRead ch => Sys2Proof.Machine.execChHeadRead ch s
  | .chSlotInfoRead ch => Sys2Proof.Machine.execChSlotInfoRead ch s
  | .trainPulseFire ch => Sys2Proof.Machine.execTrainPulseFire ch s
  | .trainRateLimitFire ch => Sys2Proof.Machine.execTrainRateLimitFire ch s
  | .trainPulseOff ch => Sys2Proof.Machine.execTrainPulseOff ch s
  | .trainUpdate who ch => Sys2Proof.Machine.execTrainUpdate who ch s
  | .trainLengthEnd ch => Sys2Proof.Machine.execTrainLengthEnd ch s
  | .latticeUpdate ch => Sys2Proof.Machine.execLatticeUpdate ch s
  | .latticePwmPeriod ch => Sys2Proof.Machine.execLatticePwmPeriod ch s
  | .latticePwmOff ch => Sys2Proof.Machine.execLatticePwmOff ch s
  | .latticeEnable who ch w => Sys2Proof.Machine.execLatticeEnable who ch w s
  | .latticeStall ch => Sys2Proof.Machine.execLatticeStall ch s
  | .latticeFaultExit ch => Sys2Proof.Machine.execLatticeFaultExit ch s
  | .tubeClr who ch => Sys2Proof.Machine.execTubeClr who ch s
  | .trimClr who ch => Sys2Proof.Machine.execTrimClr who ch s
  | .dropWindowEnd ch => Sys2Proof.Machine.execDropWindowEnd ch s
  | .landingEvaluation ch => Sys2Proof.Machine.execLandingEvaluation ch s
  | .boostGrant b => Sys2Proof.Machine.execBoostGrant b s
  | .boostDeferTimeout ch => Sys2Proof.Machine.execBoostDeferTimeout ch s
  | .boostCurrentReached ch code => Sys2Proof.Machine.execBoostCurrentReached ch code s
  | .boostTimeout ch => Sys2Proof.Machine.execBoostTimeout ch s
  | .peakTimeout ch => Sys2Proof.Machine.execPeakTimeout ch s
  | .maxonTimeout ch => Sys2Proof.Machine.execMaxonTimeout ch s
  | .windowCrossing ch code => Sys2Proof.Machine.execWindowCrossing ch code s
  | .decayEnd ch => Sys2Proof.Machine.execDecayEnd ch s
  | .bankEnableWrite who b w => Sys2Proof.Machine.execBankEnableWrite who b w s
  | .clusterSilence c => Sys2Proof.Machine.execClusterSilence c s
  | .boostCtlEnable who w => Sys2Proof.Machine.execBoostCtlEnable who w s
  | .boostReady mv => Sys2Proof.Machine.execBoostReady mv s
  | .boostStartTimeout => Sys2Proof.Machine.execBoostStartTimeout s
  | .boostIlim shuntMv => Sys2Proof.Machine.execBoostIlim shuntMv s
  | .railClampOn d mv => Sys2Proof.Machine.execRailClampOn d mv s
  | .boostOvIn mv => Sys2Proof.Machine.execBoostOvIn mv s
  | .boostOvOut mv => Sys2Proof.Machine.execBoostOvOut mv s
  | .chDrvWindowWrite who ch hold w => Sys2Proof.Machine.execChDrvWindowWrite who ch hold w s
  | .dutyCheck ch => Sys2Proof.Machine.execDutyCheck ch s
  | .channelTemperature ch celsius => Sys2Proof.Machine.execChannelTemperature ch celsius s
  | .dieLossBudget d lossMw => Sys2Proof.Machine.execDieLossBudget d lossMw s
  | .vbkUndervoltage b mv heldUs => Sys2Proof.Machine.execVbkUndervoltage b mv heldUs s
  | .vbkLost b mv heldUs => Sys2Proof.Machine.execVbkLost b mv heldUs s
  | .vbkBack b mv heldUs => Sys2Proof.Machine.execVbkBack b mv heldUs s
  | .nodeTestStart ch => Sys2Proof.Machine.execNodeTestStart ch s
  | .nodeTestRequest who ch => Sys2Proof.Machine.execNodeTestRequest who ch s
  | .nodeTestResult ch voutMv vbkMv => Sys2Proof.Machine.execNodeTestResult ch voutMv vbkMv s
  | .supplyTestStart b => Sys2Proof.Machine.execSupplyTestStart b s
  | .supplyTestRequest who b => Sys2Proof.Machine.execSupplyTestRequest who b s
  | .supplyTestResult b above => Sys2Proof.Machine.execSupplyTestResult b above s
  | .supplyTestNodeHi b => Sys2Proof.Machine.execSupplyTestNodeHi b s
  | .shortCircuitTrip ch ma => Sys2Proof.Machine.execShortCircuitTrip ch ma s
  | .tooFast ch code => Sys2Proof.Machine.execTooFast ch code s
  | .noRise ch code => Sys2Proof.Machine.execNoRise ch code s
  | .heldLowAtTurnOff ch voutMv => Sys2Proof.Machine.execHeldLowAtTurnOff ch voutMv s
  | .diagClear who ch => Sys2Proof.Machine.execDiagClear who ch s
  | .notchFound ch samples => Sys2Proof.Machine.execNotchFound ch samples s
  | .notchTimeout ch => Sys2Proof.Machine.execNotchTimeout ch s
  | .dgNotchRead ch => Sys2Proof.Machine.execDgNotchRead ch s
  | .captureLaneDone c lane samples => Sys2Proof.Machine.execCaptureLaneDone c lane samples s
  | .captureRelease who c lanes => Sys2Proof.Machine.execCaptureRelease who c lanes s
  | .captureRequest who c idx => Sys2Proof.Machine.execCaptureRequest who c idx s
  | .captureArmTimeout c lane => Sys2Proof.Machine.execCaptureArmTimeout c lane s
  | .gelowTick => Sys2Proof.Machine.execGelowTick s
  | .wearSave => Sys2Proof.Machine.execWearSave s
  | .bcapCompute vbatMv => Sys2Proof.Machine.execBcapCompute vbatMv s
  | .tileLoadDone presc slot uncorrectable => Sys2Proof.Machine.execTileLoadDone presc slot uncorrectable s
  | .tileFlushStart slot => Sys2Proof.Machine.execTileFlushStart slot s
  | .tileFlushCommit slot r => Sys2Proof.Machine.execTileFlushCommit slot r s
  | .mapScan => Sys2Proof.Machine.execMapScan s
  | .gateActionsCommit ch => Sys2Proof.Machine.execGateActionsCommit ch s
  | .gateActionFire ch => Sys2Proof.Machine.execGateActionFire ch s
  | .mapGateDisable ch => Sys2Proof.Machine.execMapGateDisable ch s
  | .coverageWriteback => Sys2Proof.Machine.execCoverageWriteback s
  | .nandMount t0 t1 cuts => Sys2Proof.Machine.execNandMount t0 t1 cuts s
  | .nandOperationDone t e => Sys2Proof.Machine.execNandOperationDone t e s
  | .nandRefresh t uncorrectable => Sys2Proof.Machine.execNandRefresh t uncorrectable s
  | .nandPatrolRead t block corrected roundEnd => Sys2Proof.Machine.execNandPatrolRead t block corrected roundEnd s
  | .nandWearLevelMove t => Sys2Proof.Machine.execNandWearLevelMove t s
  | .nandTargetFail t => Sys2Proof.Machine.execNandTargetFail t s
  | .nandEolCompute => Sys2Proof.Machine.execNandEolCompute s
  | .writeFrame p bytes => Sys2Proof.Machine.execWriteFrame p bytes s
  | .readFrame p bytes => Sys2Proof.Machine.execReadFrame p bytes s
  | .syncFrame p bytes csTb => Sys2Proof.Machine.execSyncFrame p bytes csTb s
  | .frameCut p bytes afterTurnaround => Sys2Proof.Machine.execFrameCut p bytes afterTurnaround s
  | .mbDoor m seq => Sys2Proof.Machine.execMbDoor m seq s
  | .mbAbort m => Sys2Proof.Machine.execMbAbort m s
  | .mbNext m => Sys2Proof.Machine.execMbNext m s
  | .responseRead m => Sys2Proof.Machine.execResponseRead m s
  | .hpQHeadWrite p w => Sys2Proof.Machine.execHpQHeadWrite p w s
  | .uploadChunkCopy p => Sys2Proof.Machine.execUploadChunkCopy p s
  | .chunkHoldTimeout m => Sys2Proof.Machine.execChunkHoldTimeout m s
  | .chunkDelivery m => Sys2Proof.Machine.execChunkDelivery m s
  | .identify m => Sys2Proof.Machine.execIdentify m s
  | .status m => Sys2Proof.Machine.execStatus m s
  | .options m => Sys2Proof.Machine.execOptions m s
  | .resetAnvilC m => Sys2Proof.Machine.execResetAnvilC m s
  | .resetModule m => Sys2Proof.Machine.execResetModule m s
  | .axisSet m => Sys2Proof.Machine.execAxisSet m s
  | .axisGet m => Sys2Proof.Machine.execAxisGet m s
  | .arm m => Sys2Proof.Machine.execArm m s
  | .cancel m => Sys2Proof.Machine.execCancel m s
  | .inhibitSet m => Sys2Proof.Machine.execInhibitSet m s
  | .inhibitRelease m => Sys2Proof.Machine.execInhibitRelease m s
  | .eventGet m => Sys2Proof.Machine.execEventGet m s
  | .armTrain m => Sys2Proof.Machine.execArmTrain m s
  | .trainUpd m => Sys2Proof.Machine.execTrainUpd m s
  | .trainReport m => Sys2Proof.Machine.execTrainReport m s
  | .latticeSet m => Sys2Proof.Machine.execLatticeSet m s
  | .latticeReport m => Sys2Proof.Machine.execLatticeReport m s
  | .mount m => Sys2Proof.Machine.execMount m s
  | .mapConfig m => Sys2Proof.Machine.execMapConfig m s
  | .rateSet m => Sys2Proof.Machine.execRateSet m s
  | .mapChSet m => Sys2Proof.Machine.execMapChSet m s
  | .tileLoad m => Sys2Proof.Machine.execTileLoad m s
  | .coverageExport m => Sys2Proof.Machine.execCoverageExport m s
  | .journalRead m => Sys2Proof.Machine.execJournalRead m s
  | .journalCollect m => Sys2Proof.Machine.execJournalCollect m s
  | .journalFind m => Sys2Proof.Machine.execJournalFind m s
  | .counters m => Sys2Proof.Machine.execCounters m s
  | .captureGet m => Sys2Proof.Machine.execCaptureGet m s
  | .wearReport m => Sys2Proof.Machine.execWearReport m s
  | .wearParam m => Sys2Proof.Machine.execWearParam m s
  | .wearReset m => Sys2Proof.Machine.execWearReset m s
  | .calSweep m => Sys2Proof.Machine.execCalSweep m s
  | .selfTest m t0 t2 t3 t4 banks => Sys2Proof.Machine.execSelfTest m t0 t2 t3 t4 banks s
  | .fwUpdate m => Sys2Proof.Machine.execFwUpdate m s
  | .gelowResume => Sys2Proof.Machine.execGelowResume s
  | .anvilVRestart => Sys2Proof.Machine.execAnvilVRestart s
  | .journalPhaseWord => Sys2Proof.Machine.execJournalPhaseWord s
  | .journalHeartbeat => Sys2Proof.Machine.execJournalHeartbeat s
  | .crucibleUncorrectable addr => Sys2Proof.Machine.execCrucibleUncorrectable addr s
  | .clusterRetry c => Sys2Proof.Machine.execClusterRetry c s
  | .interruptEntry core arrivals => Sys2Proof.Machine.execInterruptEntry core arrivals s
  | .handlerMret core => Sys2Proof.Machine.execHandlerMret core s
  | .queueRecordWrite p => Sys2Proof.Machine.execQueueRecordWrite p s
  | .holdoffExpire g => Sys2Proof.Machine.execHoldoffExpire g s
  | .intSwset who n => Sys2Proof.Machine.execIntSwset who n s
  | .intClrpend who w => Sys2Proof.Machine.execIntClrpend who w s
  | .wakeSource n => Sys2Proof.Machine.execWakeSource n s
  | .adcResult u v => Sys2Proof.Machine.execAdcResult u v s
  | .adcStart who u => Sys2Proof.Machine.execAdcStart who u s
  | .adcCtlWrite who u w => Sys2Proof.Machine.execAdcCtlWrite who u w s
  | .adcResRead u => Sys2Proof.Machine.execAdcResRead u s
  | .assayStart who w => Sys2Proof.Machine.execAssayStart who w s
  | .assayEntryStart => Sys2Proof.Machine.execAssayEntryStart s
  | .assayEntryStore results => Sys2Proof.Machine.execAssayEntryStore results s
  | .comparatorChange u code firstTb => Sys2Proof.Machine.execComparatorChange u code firstTb s
  | .comparatorFirstEval u code => Sys2Proof.Machine.execComparatorFirstEval u code s
  | .cmpTbRead n => Sys2Proof.Machine.execCmpTbRead n s
  | .sdsExcursionEnd n => Sys2Proof.Machine.execSdsExcursionEnd n s
  | .sdsBlocked n => Sys2Proof.Machine.execSdsBlocked n s
  | .sdsDiagEvaluation n pinMv => Sys2Proof.Machine.execSdsDiagEvaluation n pinMv s
  | .sdsDropRead n => Sys2Proof.Machine.execSdsDropRead n s
  | .jump e pins => Sys2Proof.Machine.execJump e pins s
  | .waitfor e pins => Sys2Proof.Machine.execWaitfor e pins s
  | .xfer e pins => Sys2Proof.Machine.execXfer e pins s
  | .swap e => Sys2Proof.Machine.execSwap e s
  | .move e pins => Sys2Proof.Machine.execMove e pins s
  | .loadk e => Sys2Proof.Machine.execLoadk e s
  | .addk e => Sys2Proof.Machine.execAddk e s
  | .drive e => Sys2Proof.Machine.execDrive e s
  | .gsig e => Sys2Proof.Machine.execGsig e s
  | .illegalInstruction e => Sys2Proof.Machine.execIllegalInstruction e s
  | .feStallClear e pins => Sys2Proof.Machine.execFeStallClear e pins s
  | .feHoldEnd e => Sys2Proof.Machine.execFeHoldEnd e s
  | .feTxWrite who e w => Sys2Proof.Machine.execFeTxWrite who e w s
  | .feRxRead e => Sys2Proof.Machine.execFeRxRead e s
  | .feProgWrite who e di w => Sys2Proof.Machine.execFeProgWrite who e di w s
  | .feEnableWrite who e en => Sys2Proof.Machine.execFeEnableWrite who e en s
  | .feSyncHalt who => Sys2Proof.Machine.execFeSyncHalt who s
  | .feSyncReset who => Sys2Proof.Machine.execFeSyncReset who s
  | .feSyncPhase who => Sys2Proof.Machine.execFeSyncPhase who s
  | .feSyncRun who => Sys2Proof.Machine.execFeSyncRun who s
  | .timerTick n => Sys2Proof.Machine.execTimerTick n s
  | .timerCapture n rising => Sys2Proof.Machine.execTimerCapture n rising s
  | .timCapRead n => Sys2Proof.Machine.execTimCapRead n s
  | .timerFreeze core halt => Sys2Proof.Machine.execTimerFreeze core halt s
  | .clockSwitchStart who di sel => Sys2Proof.Machine.execClockSwitchStart who di sel s
  | .clockSwitchDone di => Sys2Proof.Machine.execClockSwitchDone di s
  | .clockSwitchTimeout di => Sys2Proof.Machine.execClockSwitchTimeout di s
  | .clockStop di => Sys2Proof.Machine.execClockStop di s
  | .clockAutoRecover di => Sys2Proof.Machine.execClockAutoRecover di s
  | .xtalLoss cycles => Sys2Proof.Machine.execXtalLoss cycles s
  | .xtalRestore => Sys2Proof.Machine.execXtalRestore s
  | .trimMark pps => Sys2Proof.Machine.execTrimMark pps s
  | .trimHoldTimeout => Sys2Proof.Machine.execTrimHoldTimeout s
  | .moduleReset cause => Sys2Proof.Machine.execModuleReset cause s
  | .islandReset who di => Sys2Proof.Machine.execIslandReset who di s
  | .wdtVExpire => Sys2Proof.Machine.execWdtVExpire s
  | .wdtCExpire => Sys2Proof.Machine.execWdtCExpire s
  | .anvilCRestart => Sys2Proof.Machine.execAnvilCRestart s
  | .sleepRequest who => Sys2Proof.Machine.execSleepRequest who s
  | .wakeRequest who => Sys2Proof.Machine.execWakeRequest who s
  | .bootRom p => Sys2Proof.Machine.execBootRom p s
  | .gelowStart => Sys2Proof.Machine.execGelowStart s
  | .bootRcvGo p w => Sys2Proof.Machine.execBootRcvGo p w s
  | .keyProgGo who slot => Sys2Proof.Machine.execKeyProgGo who slot s
  | .keyProgRevoke who slot => Sys2Proof.Machine.execKeyProgRevoke who slot s
  | .keyProgDone => Sys2Proof.Machine.execKeyProgDone s
  | .protSeal who => Sys2Proof.Machine.execProtSeal who s
  | .powerUp r nrstHigh => Sys2Proof.Machine.execPowerUp r nrstHigh s
  | .powerLoss r => Sys2Proof.Machine.execPowerLoss r s
  | .supplyMonitorChange bit mv heldUs => Sys2Proof.Machine.execSupplyMonitorChange bit mv heldUs s
  | .lossDetectArm vbsnsMv heldUs => Sys2Proof.Machine.execLossDetectArm vbsnsMv heldUs s
  | .supplyLossDetection vbsnsMv vbatMv heldUs => Sys2Proof.Machine.execSupplyLossDetection vbsnsMv vbatMv heldUs s
  | .boostDisconnectOpen vbsnsMv => Sys2Proof.Machine.execBoostDisconnectOpen vbsnsMv s
  | .boostDisconnectClose vbsnsMv heldUs => Sys2Proof.Machine.execBoostDisconnectClose vbsnsMv heldUs s
  | .supFaultDetect n c level heldUs => Sys2Proof.Machine.execSupFaultDetect n c level heldUs s
  | .supReclose n level heldUs => Sys2Proof.Machine.execSupReclose n level heldUs s
  | .supCtlWrite who w pinsOut => Sys2Proof.Machine.execSupCtlWrite who w pinsOut s
  | .islandClockReturn di => Sys2Proof.Machine.execIslandClockReturn di s
  | .islandResetRelease di => Sys2Proof.Machine.execIslandResetRelease di s
  | .sdsPullTest n up down => Sys2Proof.Machine.execSdsPullTest n up down s
  | .supFltClear n ua heldUs => Sys2Proof.Machine.execSupFltClear n ua heldUs s
  | .adcSelWrite who u w => Sys2Proof.Machine.execAdcSelWrite who u w s
  | .comparatorCfgWrite who u thr w => Sys2Proof.Machine.execComparatorCfgWrite who u thr w s
  | .timerCtlWrite who n cnt w => Sys2Proof.Machine.execTimerCtlWrite who n cnt w s
  | .blankingExpiry ch code => Sys2Proof.Machine.execBlankingExpiry ch code s
  | .channelConfigWrite who ch reg w => Sys2Proof.Machine.execChannelConfigWrite who ch reg w s

end Sys2Proof.Machine
end

