-- ==== Sys2Proof/Safety.lean ====
section
/-! DEFINITION. The terms that claims use: the parts of the block that a command may change, the canonical forms, and what the journal
guarantees of a record. -/

namespace Sys2Proof.Machine

/-- A part of the block: a block of registers (the chapters' register maps), or a component of Chip. -/
inductive Part where
  | rHp | rMb | rCh | rTr | rLat | rDrv | rAx | rWhl | rMdl | rBk | rBst | rPwr | rDg | rDgb | rCap | rBcap | rAdc | rAs | rCmp | rSds
  | rAin | rFe | rFio | rTim | rInt | rSys | rSup | rProt | rMap | rNc
  | tb | mem | isl | stamps | frees | rdata | asleep | accums | holdEnd | coreV | coreC | whl | mdl | axes | pool | poolLast | orderNo
  | chans | banks | boost | capReq | capTb | copies | wear | bcap | jour | recs | collect | fe | fio | tim | adc | assay | cmp | sds | map
  | saved | nand | mbox | port | gelow | sys | sup | link | refetch | cyc
deriving DecidableEq, Repr

/-- The block of registers that an address of instance 0 lies in (R37 and the register maps of the chapters). -/
def partOfAddr (a : Nat) : Part :=
  if a < 0x1200 then .rHp
  else if a < 0x100000 then .rMb
  else if a < 0x100200 then .rCh
  else if a < 0x100400 then .rTr
  else if a < 0x100800 then .rLat
  else if a < 0x101000 then .rDrv
  else if a < 0x300000 then .rAx
  else if a < 0x380000 then .rWhl
  else if a < 0x400000 then .rMdl
  else if a < 0x400200 then .rBk
  else if a < 0x400300 then .rBst
  else if a < 0x480000 then .rPwr
  else if a < 0x484000 then .rDg
  else if a < 0x488000 then .rDgb
  else if a < 0x48c000 then .rCap
  else if a < 0x500000 then .rBcap
  else if a < 0x500400 then .rAdc
  else if a < 0x501000 then .rAs
  else if a < 0x502000 then .rCmp
  else if a < 0x503900 then .rSds
  else if a < 0x580000 then .rAin
  else if a < 0x584000 then .rFe
  else if a < 0x585100 then .rFio
  else if a < 0x5c0000 then .rFe
  else if a < 0x600000 then .rTim
  else if a < 0x680000 then .rInt
  else if a < 0x680210 then .rSys
  else if a < 0x6c0000 then .rSup
  else if a < 0x700000 then .rProt
  else if a < 0x780000 then .rMap
  else .rNc

/-- The block of registers of a field. -/
def Field.part (f : Field) : Part := partOfAddr (f.id / 32)

/-! ## Frames -/

/-- Two states of the block agree on every part that a list does not name: registers field by field, memory byte by byte, the journal's
records beside the rest of the journal, the rows that a map reset saved beside the rest of the map engine. -/
structure KeptOutside (L : List Part) (x y : Chip) : Prop where
  regs (f : Field) (i : Nat) : f.part ∉ L → y.rd f i = x.rd f i
  mem (a : Nat) : Part.mem ∉ L → y.byte a = x.byte a
  records : Part.recs ∉ L → Part.collect ∉ L → y.jour.recs = x.jour.recs
  nextJsn : Part.recs ∉ L → y.jour.nextJsn = x.jour.nextJsn
  jour : Part.jour ∉ L → { y.jour with recs := [], nextJsn := 0 } = { x.jour with recs := [], nextJsn := 0 }
  saved : Part.saved ∉ L → y.map.saved = x.map.saved
  map : Part.map ∉ L → { y.map with saved := none } = { x.map with saved := none }
  tb : Part.tb ∉ L → y.tb = x.tb
  isl : Part.isl ∉ L → y.isl = x.isl
  stamps : Part.stamps ∉ L → y.stamps = x.stamps
  frees : Part.frees ∉ L → y.frees = x.frees
  rdata : Part.rdata ∉ L → y.rdata = x.rdata
  asleep : Part.asleep ∉ L → y.asleep = x.asleep
  accums : Part.accums ∉ L → y.accums = x.accums
  holdEnd : Part.holdEnd ∉ L → y.holdEnd = x.holdEnd
  coreV : Part.coreV ∉ L → y.coreV = x.coreV
  coreC : Part.coreC ∉ L → y.coreC = x.coreC
  whl : Part.whl ∉ L → y.whl = x.whl
  mdl : Part.mdl ∉ L → y.mdl = x.mdl
  axes : Part.axes ∉ L → y.axes = x.axes
  pool : Part.pool ∉ L → y.pool = x.pool
  poolLast : Part.poolLast ∉ L → y.poolLast = x.poolLast
  orderNo : Part.orderNo ∉ L → y.orderNo = x.orderNo
  chans : Part.chans ∉ L → y.chans = x.chans
  banks : Part.banks ∉ L → y.banks = x.banks
  boost : Part.boost ∉ L → y.boost = x.boost
  capReq : Part.capReq ∉ L → y.capReq = x.capReq
  capTb : Part.capTb ∉ L → y.capTb = x.capTb
  copies : Part.copies ∉ L → y.copies = x.copies
  wear : Part.wear ∉ L → y.wear = x.wear
  bcap : Part.bcap ∉ L → y.bcap = x.bcap
  fe : Part.fe ∉ L → y.fe = x.fe
  fio : Part.fio ∉ L → y.fio = x.fio
  tim : Part.tim ∉ L → y.tim = x.tim
  adc : Part.adc ∉ L → y.adc = x.adc
  assay : Part.assay ∉ L → y.assay = x.assay
  cmp : Part.cmp ∉ L → y.cmp = x.cmp
  sds : Part.sds ∉ L → y.sds = x.sds
  nand : Part.nand ∉ L → y.nand = x.nand
  mbox : Part.mbox ∉ L → y.mbox = x.mbox
  port : Part.port ∉ L → y.port = x.port
  gelow : Part.gelow ∉ L → y.gelow = x.gelow
  sys : Part.sys ∉ L → y.sys = x.sys
  sup : Part.sup ∉ L → y.sup = x.sup
  link : Part.link ∉ L → y.link = x.link
  refetch : Part.refetch ∉ L → y.refetch = x.refetch
  cyc : Part.cyc ∉ L → y.cyc = x.cyc

/-- All parts but the collection of records: what a command may change that can reach a reset or a register of any block. -/
def allParts : List Part :=
  [.rHp, .rMb, .rCh, .rTr, .rLat, .rDrv, .rAx, .rWhl, .rMdl, .rBk, .rBst, .rPwr, .rDg, .rDgb, .rCap, .rBcap, .rAdc, .rAs, .rCmp,
    .rSds, .rAin, .rFe, .rFio, .rTim, .rInt, .rSys, .rSup, .rProt, .rMap, .rNc, .tb, .mem, .isl, .stamps, .frees, .rdata, .asleep,
    .accums, .holdEnd, .coreV, .coreC, .whl, .mdl, .axes, .pool, .poolLast, .orderNo, .chans, .banks, .boost, .capReq, .capTb,
    .copies, .wear, .bcap, .jour, .recs, .fe, .fio, .tim, .adc, .assay, .cmp, .sds, .map, .saved, .nand, .mbox, .port, .gelow,
    .sys, .sup, .link, .refetch, .cyc]

/-- What an occurrence on an interrupt source may change: the sources, the port accumulators, a wake (R385, R398, R404). -/
def noticeParts : List Part := [.rInt, .asleep, .accums, .sys, .cyc]

/-- What the answer to a mailbox command may change: the mailbox, its response, its notice (R339, R398). -/
def replyParts : List Part := [.rHp, .rMb, .rInt, .mem, .accums, .mbox, .gelow, .cyc]

/-- The parts of the block that a command may change. -/
def partsOf (i : Instr) : List Part :=
  match i with
  | .fabricWord _ _ _ => allParts
  | .tbBroadcast => [.isl, .stamps, .frees]
  | .sramParityRead _ _ _ _ => noticeParts ++ [.rCh, .rTr, .rDrv, .rBk, .rBst, .rDg, .rDgb, .rCap, .rSys, .rMap, .mem, .isl, .frees,
      .rdata, .pool, .poolLast, .chans, .banks, .boost, .bcap, .jour, .refetch]
  | .sramRefetchDone => noticeParts ++ [.rMap, .mem, .rdata, .map, .refetch]
  | .lockstepFault => allParts
  | .anvilCProtectionTrap _ _ => [.coreV, .coreC]
  | .anvilAccessFault _ _ _ => [.coreV, .coreC]
  | .registerWrite _ _ _ => allParts
  | .rcRead _ => noticeParts ++ [.rHp, .rMb, .rCh, .rTr, .rLat, .rDrv, .rAx, .rWhl, .rMdl, .rBk, .rBst, .rPwr, .rDg, .rDgb, .rCap,
      .rBcap, .rAdc, .rAs, .rCmp, .rSds, .rAin, .rFe, .rFio, .rTim, .rSys, .rSup, .rProt, .rMap, .rNc, .stamps, .frees, .rdata, .whl,
      .boost, .fe]
  | .vrArm _ _ => [.rWhl, .whl]
  | .wheelEdge _ _ _ _ => noticeParts ++ [.rCh, .rLat, .rDrv, .rWhl, .rMdl, .rBk, .rBst, .rDg, .rDgb, .rCap, .rMap, .frees, .whl, .mdl,
      .chans, .banks, .boost, .bcap]
  | .whlMissingReference _ => noticeParts ++ [.rWhl, .frees, .whl]
  | .whlDiagEvaluation _ _ => noticeParts ++ [.rWhl, .rMdl, .stamps, .whl]
  | .whlPullTest _ _ _ => [.stamps, .whl]
  | .whlFaultExit _ => noticeParts ++ [.rWhl, .whl]
  | .whlStopTimeout _ => noticeParts ++ [.rCh, .rLat, .rDrv, .rWhl, .rBk, .rBst, .rDg, .rDgb, .rCap, .rMap, .frees, .mdl, .chans,
      .banks, .boost, .bcap]
  | .whlDirPulseTimeout _ => noticeParts ++ [.rCh, .rLat, .rDrv, .rWhl, .rMdl, .rBk, .rBst, .rDg, .rDgb, .rCap, .rMap, .frees, .whl,
      .mdl, .chans, .banks, .boost, .bcap]
  | .whlInterpolationTick _ => noticeParts ++ [.rCh, .rLat, .rDrv, .rWhl, .rMdl, .rBk, .rBst, .rDg, .rDgb, .rCap, .rMap, .stamps,
      .frees, .whl, .mdl, .chans, .banks, .boost, .bcap]
  | .whlCfgWrite _ _ _ => noticeParts ++ [.rHp, .rMb, .rCh, .rTr, .rLat, .rDrv, .rAx, .rWhl, .rMdl, .rBk, .rBst, .rPwr, .rDg, .rDgb,
      .rCap, .rBcap, .rAdc, .rAs, .rCmp, .rSds, .rAin, .rFe, .rFio, .rTim, .rSys, .rSup, .rProt, .rMap, .rNc, .whl]
  | .whlResync _ _ => noticeParts ++ [.rWhl, .frees, .whl]
  | .whlFaultClr _ _ => noticeParts ++ [.rWhl, .whl]
  | .whlEdgeSnapshotRead _ => [.rWhl, .rdata]
  | .whlIdxSnapshotRead _ => noticeParts ++ [.rWhl, .frees, .rdata, .whl]
  | .predictionTick => noticeParts ++ [.rCh, .rTr, .rLat, .rDrv, .rAx, .rMdl, .rBk, .rBst, .rDg, .rDgb, .rCap, .rMap, .stamps, .frees,
      .mdl, .axes, .pool, .poolLast, .chans, .banks, .boost, .bcap, .jour]
  | .slotMeasurement _ => noticeParts ++ [.rMdl, .mdl]
  | .slotWordTimeout _ => noticeParts ++ [.rMdl]
  | .slipEvaluation => noticeParts ++ [.rMdl, .stamps, .mdl]
  | .mdlSrcEnable _ _ _ => noticeParts ++ [.rHp, .rMb, .rCh, .rTr, .rLat, .rDrv, .rAx, .rWhl, .rMdl, .rBk, .rBst, .rPwr, .rDg, .rDgb,
      .rCap, .rBcap, .rAdc, .rAs, .rCmp, .rSds, .rAin, .rFe, .rFio, .rTim, .rSys, .rSup, .rProt, .rMap, .rNc, .mdl]
  | .mdlEnable _ _ => noticeParts ++ [.rMdl, .frees, .mdl]
  | .stillTimer => [.mdl]
  | .coastTimeout => noticeParts ++ [.rMdl, .mdl]
  | .mdlHistoryEntry => [.stamps, .mdl]
  | .poseCommit _ => noticeParts ++ [.rMdl, .mdl]
  | .poseProcessed => noticeParts ++ [.rCh, .rLat, .rDrv, .rMdl, .rBk, .rBst, .rDg, .rDgb, .rCap, .rMap, .frees, .mdl, .chans, .banks,
      .boost, .bcap]
  | .poseTimeout => noticeParts ++ [.rMdl]
  | .fieldSet _ => [.mdl]
  | .learnClr _ => [.rMdl, .mdl]
  | .yawHostWrite _ _ => noticeParts ++ [.rMdl, .mdl]
  | .yawSourceTimeout => noticeParts ++ [.rMdl, .mdl]
  | .deflectionSample _ => [.mdl]
  | .deflectionTimeout _ => noticeParts ++ [.rMdl, .mdl]
  | .axCfgWrite _ _ _ => [.rAx, .axes, .cyc]
  | .mdlSnapshotRead => [.rMdl, .frees, .rdata]
  | .axSnapshotRead _ => [.rAx, .frees, .rdata]
  | .chArm _ _ => noticeParts ++ [.rCh, .rTr, .rDrv, .rBk, .rBst, .rDg, .rDgb, .rCap, .rMap, .frees, .pool, .poolLast, .orderNo,
      .chans, .banks, .boost, .bcap, .jour]
  | .chCancel _ _ _ => noticeParts ++ [.rCh, .rTr, .rDrv, .rBk, .rBst, .rDg, .rDgb, .rCap, .rMap, .frees, .pool, .poolLast, .chans,
      .banks, .boost, .bcap, .jour]
  | .chCancelAll _ _ => noticeParts ++ [.rCh, .rTr, .rDrv, .rBk, .rBst, .rDg, .rDgb, .rCap, .rMap, .frees, .pool, .poolLast, .chans,
      .banks, .boost, .bcap, .jour]
  | .eventInstall _ => noticeParts ++ [.rCh, .rTr, .rDrv, .rBk, .rBst, .rDg, .rDgb, .rCap, .rMap, .frees, .pool, .poolLast, .chans,
      .banks, .boost, .bcap, .jour]
  | .compareFire _ => noticeParts ++ [.rCh, .rTr, .rDrv, .rBk, .rBst, .rDg, .rDgb, .rCap, .rMap, .frees, .pool, .poolLast, .chans,
      .banks, .boost, .bcap, .jour]
  | .pulseEnd _ => noticeParts ++ [.rCh, .rDrv, .rBk, .rBst, .rDg, .rDgb, .rCap, .rMap, .frees, .pool, .poolLast, .chans, .banks,
      .boost, .bcap, .jour]
  | .eventDeadline _ => noticeParts ++ [.rCh, .pool, .poolLast, .chans, .jour]
  | .lateWindowExceeded _ => noticeParts ++ [.rCh, .pool, .poolLast, .chans, .jour]
  | .standingSpanEnd _ => [.pool, .poolLast, .chans]
  | .chLastRead _ => [.rCh, .rdata]
  | .chHeadRead _ => [.rCh, .rdata]
  | .chSlotInfoRead _ => [.rCh, .rdata]
  | .trainPulseFire _ => noticeParts ++ [.rCh, .rTr, .rDrv, .rBk, .rBst, .rDg, .rDgb, .rCap, .rMap, .frees, .chans, .banks, .boost, .bcap]
  | .trainRateLimitFire _ => noticeParts ++ [.rCh, .rTr, .rDrv, .rBk, .rBst, .rDg, .rDgb, .rCap, .rMap, .frees, .chans, .banks, .boost,
      .bcap]
  | .trainPulseOff _ => noticeParts ++ [.rCh, .rDrv, .rBk, .rBst, .rDg, .rDgb, .rCap, .rMap, .frees, .chans, .banks, .boost, .bcap]
  | .trainUpdate _ _ => [.rTr, .chans, .cyc]
  | .trainLengthEnd _ => [.rTr, .pool, .poolLast, .chans, .cyc]
  | .latticeUpdate _ => noticeParts ++ [.rLat, .rFe, .stamps, .frees, .chans, .fe]
  | .latticePwmPeriod _ => noticeParts ++ [.rCh, .rDrv, .rBk, .rBst, .rDg, .rDgb, .rCap, .rMap, .frees, .chans, .banks, .boost, .bcap]
  | .latticePwmOff _ => noticeParts ++ [.rCh, .rDrv, .rBk, .rBst, .rDg, .rDgb, .rCap, .rMap, .frees, .chans, .banks, .boost, .bcap]
  | .latticeEnable _ _ _ => noticeParts ++ [.rHp, .rMb, .rCh, .rTr, .rLat, .rDrv, .rAx, .rWhl, .rMdl, .rBk, .rBst, .rPwr, .rDg, .rDgb,
      .rCap, .rBcap, .rAdc, .rAs, .rCmp, .rSds, .rAin, .rFe, .rFio, .rTim, .rSys, .rSup, .rProt, .rMap, .rNc, .frees, .chans, .banks,
      .boost, .bcap]
  | .latticeStall _ => noticeParts ++ [.rCh, .rLat, .rDrv, .rBk, .rBst, .rDg, .rDgb, .rCap, .rMap, .frees, .chans, .banks, .boost, .bcap]
  | .latticeFaultExit _ => noticeParts ++ [.rCh, .rLat, .rDrv, .rBk, .rBst, .rDg, .rDgb, .rCap, .rMap, .frees, .chans, .banks, .boost,
      .bcap]
  | .tubeClr _ _ => noticeParts ++ [.rCh, .rLat, .rDrv, .rBk, .rBst, .rDg, .rDgb, .rCap, .rMap, .frees, .chans, .banks, .boost, .bcap]
  | .trimClr _ _ => noticeParts ++ [.rCh, .rLat, .rDrv, .rBk, .rBst, .rDg, .rDgb, .rCap, .rMap, .frees, .chans, .banks, .boost, .bcap]
  | .dropWindowEnd _ => [.rLat, .chans, .cyc]
  | .landingEvaluation _ => [.rLat, .chans, .cyc]
  | .boostGrant _ => noticeParts ++ [.rDrv, .rBk, .rBst, .frees, .chans, .boost, .bcap]
  | .boostDeferTimeout _ => noticeParts ++ [.rDrv, .rBk, .chans]
  | .boostCurrentReached _ _ => noticeParts ++ [.rDrv, .rBk, .rBst, .frees, .chans, .boost, .bcap]
  | .boostTimeout _ => noticeParts ++ [.rDrv, .rBk, .rBst, .frees, .chans, .boost, .bcap]
  | .peakTimeout _ => noticeParts ++ [.rDrv, .rBk, .chans]
  | .maxonTimeout _ => noticeParts ++ [.rCh, .rDrv, .rBk, .rBst, .rDg, .rDgb, .rMap, .frees, .pool, .poolLast, .chans, .boost, .bcap,
      .jour]
  | .windowCrossing _ _ => [.rDrv, .rBk, .chans]
  | .decayEnd _ => [.rDrv, .rBk, .chans]
  | .bankEnableWrite _ _ _ => noticeParts ++ [.rCh, .rDrv, .rBk, .rBst, .rDg, .rDgb, .rCap, .rMap, .frees, .pool, .poolLast, .chans,
      .banks, .boost, .capReq, .capTb, .bcap, .jour]
  | .clusterSilence _ => noticeParts ++ [.rCh, .rTr, .rDrv, .rBk, .rBst, .rDg, .rDgb, .rCap, .rMap, .isl, .frees, .pool, .poolLast,
      .chans, .banks, .boost, .bcap, .jour]
  | .boostCtlEnable _ _ => noticeParts ++ [.rBst, .frees, .boost, .bcap]
  | .boostReady _ => noticeParts ++ [.rBst, .frees, .boost, .bcap]
  | .boostStartTimeout => noticeParts ++ [.rBst, .boost, .bcap]
  | .boostIlim _ => noticeParts ++ [.rBst]
  | .railClampOn _ _ => noticeParts ++ [.rBst, .frees, .boost, .bcap]
  | .boostOvIn _ => noticeParts ++ [.rDrv, .rBk, .rBst, .frees, .chans, .boost, .bcap]
  | .boostOvOut _ => noticeParts ++ [.rBst, .frees, .boost, .bcap]
  | .chDrvWindowWrite _ _ _ _ => noticeParts ++ [.rDrv, .rBk, .rPwr, .chans]
  | .dutyCheck _ => noticeParts ++ [.rCh, .rDrv, .rBk, .rBst, .rDg, .rDgb, .rMap, .stamps, .frees, .pool, .poolLast, .chans, .boost,
      .bcap, .jour]
  | .channelTemperature _ _ => noticeParts ++ [.rCh, .rDrv, .rBk, .rBst, .rPwr, .rDg, .rDgb, .rMap, .stamps, .frees, .pool, .poolLast,
      .chans, .boost, .bcap, .jour]
  | .dieLossBudget _ _ => noticeParts ++ [.rDrv, .rPwr, .stamps, .chans, .boost]
  | .vbkUndervoltage _ _ _ => noticeParts ++ [.rBk]
  | .vbkLost _ _ _ => noticeParts ++ [.rCh, .rDrv, .rBk, .rBst, .rDg, .rDgb, .rMap, .frees, .pool, .poolLast, .chans, .banks, .boost,
      .bcap, .jour]
  | .vbkBack _ _ _ => noticeParts ++ [.rBk]
  | .nodeTestStart _ => [.chans]
  | .nodeTestRequest _ _ => [.chans]
  | .nodeTestResult _ _ _ => noticeParts ++ [.rCh, .rTr, .rDrv, .rBk, .rBst, .rDg, .rDgb, .rCap, .rMap, .frees, .pool, .poolLast,
      .chans, .banks, .boost, .capReq, .capTb, .bcap, .jour]
  | .supplyTestStart _ => [.rDgb, .banks]
  | .supplyTestRequest _ _ => [.banks]
  | .supplyTestResult _ _ => noticeParts ++ [.rCh, .rTr, .rDrv, .rBk, .rBst, .rDg, .rDgb, .rCap, .rMap, .frees, .pool, .poolLast,
      .chans, .banks, .boost, .bcap, .jour]
  | .supplyTestNodeHi _ => noticeParts ++ [.rDgb, .banks]
  | .shortCircuitTrip _ _ => noticeParts ++ [.rCh, .rTr, .rDrv, .rBk, .rBst, .rDg, .rDgb, .rCap, .rMap, .frees, .pool, .poolLast,
      .chans, .banks, .boost, .bcap, .jour]
  | .tooFast _ _ => noticeParts ++ [.rCh, .rTr, .rDrv, .rBk, .rBst, .rDg, .rDgb, .rCap, .rMap, .frees, .pool, .poolLast, .chans,
      .banks, .boost, .bcap, .jour]
  | .noRise _ _ => noticeParts ++ [.rDrv, .rDg, .rDgb, .chans]
  | .heldLowAtTurnOff _ _ => noticeParts ++ [.rCh, .rTr, .rDrv, .rBk, .rBst, .rDg, .rDgb, .rCap, .rMap, .frees, .pool, .poolLast,
      .chans, .banks, .boost, .capReq, .capTb, .bcap, .jour]
  | .diagClear _ _ => noticeParts ++ [.rDg, .rDgb, .chans]
  | .notchFound _ _ => noticeParts ++ [.rCh, .rDrv, .rBk, .rDg, .rDgb, .rCap, .rMap, .frees, .chans]
  | .notchTimeout _ => noticeParts ++ [.rDg, .rDgb, .rMap, .chans]
  | .dgNotchRead _ => [.rDg, .rdata]
  | .captureLaneDone _ _ _ => noticeParts ++ [.rCap, .mem, .chans, .capReq, .capTb]
  | .captureRelease _ _ _ => noticeParts ++ [.rCap, .chans, .capReq, .capTb]
  | .captureRequest _ _ _ => noticeParts ++ [.rCap, .chans, .capReq, .capTb]
  | .captureArmTimeout _ _ => noticeParts ++ [.rCap, .chans, .capReq, .capTb]
  | .gelowTick => replyParts ++ [.rCh, .rTr, .rLat, .rDrv, .rAx, .rWhl, .rMdl, .rBk, .rBst, .rPwr, .rDg, .rDgb, .rCap, .rBcap, .rAdc,
      .rAs, .rCmp, .rSds, .rAin, .rFe, .rFio, .rTim, .rSys, .rSup, .rProt, .rMap, .rNc, .stamps, .frees, .asleep, .pool, .poolLast,
      .orderNo, .chans, .banks, .boost, .capReq, .capTb, .copies, .wear, .bcap, .jour, .recs, .map, .saved, .nand, .sys]
  | .wearSave => [.stamps, .nand]
  | .bcapCompute _ => [.rBcap, .bcap]
  | .tileLoadDone _ _ _ => noticeParts ++ [.rMap, .mem, .map]
  | .tileFlushStart _ => [.rMap, .map]
  | .tileFlushCommit _ _ => noticeParts ++ [.rMap, .frees, .map, .nand]
  | .mapScan => noticeParts ++ [.rCh, .rDrv, .rBk, .rBst, .rDg, .rDgb, .rCap, .rMap, .mem, .stamps, .frees, .chans, .banks, .boost,
      .bcap, .map]
  | .gateActionsCommit _ => [.rTr, .rMap, .mem, .chans, .map]
  | .gateActionFire _ => noticeParts ++ [.rCh, .rTr, .rDrv, .rBk, .rBst, .rDg, .rDgb, .rCap, .rMap, .mem, .frees, .pool, .poolLast,
      .chans, .banks, .boost, .bcap, .jour]
  | .mapGateDisable _ => noticeParts ++ [.rCh, .rDrv, .rBk, .rBst, .rDg, .rDgb, .rCap, .rMap, .frees, .chans, .banks, .boost, .bcap, .map]
  | .coverageWriteback => noticeParts ++ [.rMap, .mem, .stamps, .chans, .map]
  | .nandMount _ _ _ => replyParts ++ [.rDg, .rBcap, .rNc, .asleep, .wear, .bcap, .nand, .sys]
  | .nandOperationDone _ _ => noticeParts ++ [.rNc, .nand]
  | .nandRefresh _ _ => noticeParts ++ [.rNc, .nand]
  | .nandPatrolRead _ _ _ _ => noticeParts ++ [.rNc, .frees, .nand]
  | .nandWearLevelMove _ => [.stamps, .nand]
  | .nandTargetFail _ => noticeParts ++ [.rMap, .rNc, .mem, .map, .nand]
  | .nandEolCompute => noticeParts ++ [.rNc, .stamps]
  | .writeFrame _ _ => allParts
  | .readFrame _ _ => allParts
  | .syncFrame _ _ _ => allParts
  | .frameCut _ _ _ => allParts
  | .mbDoor _ _ => noticeParts ++ [.rHp, .rMb, .mbox]
  | .mbAbort _ => noticeParts ++ [.rHp, .mbox]
  | .mbNext _ => [.rHp, .rMb, .mbox]
  | .responseRead _ => [.rMb, .rdata]
  | .hpQHeadWrite _ _ => noticeParts ++ [.rHp]
  | .uploadChunkCopy _ => replyParts ++ [.frees, .map, .nand]
  | .chunkHoldTimeout _ => replyParts ++ [.asleep, .jour, .recs, .sys]
  | .chunkDelivery _ => replyParts ++ [.asleep, .jour, .recs, .sys]
  | .identify _ => replyParts
  | .status _ => replyParts
  | .options _ => replyParts
  | .resetAnvilC _ => replyParts ++ [.sys]
  | .resetModule _ => replyParts ++ [.sys]
  | .axisSet _ => allParts
  | .axisGet _ => replyParts
  | .arm _ => replyParts ++ [.rCh, .frees, .asleep, .pool, .poolLast, .orderNo, .jour, .recs, .sys]
  | .cancel _ => replyParts ++ [.rCh, .rTr, .rDrv, .rBk, .rBst, .rDg, .rDgb, .rCap, .rMap, .frees, .asleep, .pool, .poolLast, .chans,
      .banks, .boost, .bcap, .jour, .sys]
  | .inhibitSet _ => replyParts ++ [.rCh, .rTr, .rDrv, .rBk, .rBst, .rDg, .rDgb, .rCap, .rMap, .frees, .asleep, .pool, .poolLast,
      .chans, .banks, .boost, .bcap, .jour, .recs, .sys]
  | .inhibitRelease _ => replyParts ++ [.rCh, .rTr, .rDrv, .rBk, .rBst, .rDg, .rDgb, .rCap, .rMap, .frees, .asleep, .pool, .poolLast,
      .chans, .banks, .boost, .bcap, .jour, .recs, .sys]
  | .eventGet _ => replyParts
  | .armTrain _ => replyParts ++ [.rCh, .frees, .asleep, .pool, .poolLast, .orderNo, .jour, .recs, .sys]
  | .trainUpd _ => replyParts ++ [.rTr, .chans]
  | .trainReport _ => replyParts ++ [.rTr]
  | .latticeSet _ => allParts
  | .latticeReport _ => replyParts ++ [.rLat]
  | .mount _ => replyParts ++ [.rCh, .rTr, .rDrv, .rBk, .rBst, .rDg, .rDgb, .rCap, .rMap, .rNc, .frees, .asleep, .pool, .poolLast,
      .orderNo, .chans, .banks, .boost, .bcap, .jour, .recs, .nand, .sys]
  | .mapConfig _ => allParts
  | .rateSet _ => allParts
  | .mapChSet _ => allParts
  | .tileLoad _ => replyParts
  | .coverageExport _ => replyParts
  | .journalRead _ => replyParts
  | .journalCollect _ => replyParts ++ [.collect]
  | .journalFind _ => replyParts
  | .counters _ => replyParts ++ [.asleep, .jour, .recs, .sys]
  | .captureGet _ => replyParts ++ [.asleep, .jour, .recs, .sys]
  | .wearReport _ => replyParts ++ [.jour, .recs]
  | .wearParam _ => replyParts ++ [.rDg, .wear]
  | .wearReset _ => replyParts ++ [.rDg, .wear, .bcap]
  | .calSweep _ => [.mbox, .gelow]
  | .selfTest _ _ _ _ _ _ => noticeParts ++ [.rMb, .rCh, .rTr, .rDrv, .rBk, .rBst, .rDg, .rDgb, .rCap, .rMap, .rNc, .frees, .pool,
      .poolLast, .chans, .banks, .boost, .capReq, .capTb, .bcap, .jour, .mbox, .gelow]
  | .fwUpdate _ => replyParts
  | .gelowResume => replyParts ++ [.asleep, .sys]
  | .anvilVRestart => noticeParts ++ [.rCh, .rTr, .rDrv, .rBk, .rBst, .rDg, .rDgb, .rCap, .rMap, .frees, .coreV, .pool, .poolLast,
      .chans, .banks, .boost, .bcap, .jour, .recs]
  | .journalPhaseWord => noticeParts ++ [.jour, .recs]
  | .journalHeartbeat => [.stamps, .jour]
  | .crucibleUncorrectable _ => noticeParts ++ [.rSys, .jour]
  | .clusterRetry _ => allParts
  | .interruptEntry _ _ => [.rInt, .holdEnd, .coreV, .coreC, .cyc]
  | .handlerMret _ => [.rInt, .holdEnd, .coreV, .coreC, .cyc]
  | .queueRecordWrite _ => [.rHp, .rInt, .mem, .stamps, .accums, .holdEnd, .cyc]
  | .holdoffExpire _ => [.rInt]
  | .intSwset _ _ => noticeParts
  | .intClrpend _ _ => [.rInt, .accums, .cyc]
  | .wakeSource _ => noticeParts
  | .adcResult _ _ => noticeParts ++ [.rAdc, .frees, .mdl, .adc]
  | .adcStart _ _ => noticeParts ++ [.rAdc, .adc]
  | .adcCtlWrite _ _ _ => noticeParts ++ [.rAdc, .adc]
  | .adcResRead _ => [.rAdc, .rdata, .cyc]
  | .assayStart _ _ => [.rAdc, .rAs, .assay]
  | .assayEntryStart => noticeParts ++ [.rAdc, .rAs, .adc, .assay]
  | .assayEntryStore _ => noticeParts ++ [.rAdc, .rAs, .assay]
  | .comparatorChange _ _ _ => noticeParts ++ [.rCmp, .rSds, .cmp, .sds]
  | .comparatorFirstEval _ _ => [.rCmp, .rSds]
  | .cmpTbRead _ => [.rCmp, .rdata]
  | .sdsExcursionEnd _ => noticeParts ++ [.rLat, .rSds, .chans, .sds]
  | .sdsBlocked _ => noticeParts ++ [.rSds, .sds]
  | .sdsDiagEvaluation _ _ => noticeParts ++ [.rSds, .stamps, .sds]
  | .sdsDropRead _ => [.rSds, .rdata]
  | .jump _ _ => [.rFe, .fe, .fio]
  | .waitfor _ _ => [.rFe, .fe, .fio]
  | .xfer _ _ => noticeParts ++ [.rMdl, .rFe, .mdl, .fe, .fio]
  | .swap _ => noticeParts ++ [.rMdl, .rFe, .mdl, .fe]
  | .move _ _ => [.rFe, .fe, .fio]
  | .loadk _ => [.rFe, .fe]
  | .addk _ => [.rHp, .rMb, .rCh, .rTr, .rLat, .rDrv, .rAx, .rWhl, .rMdl, .rBk, .rBst, .rPwr, .rDg, .rDgb, .rCap, .rBcap, .rAdc, .rAs,
      .rCmp, .rSds, .rAin, .rFe, .rFio, .rTim, .rInt, .rSys, .rSup, .rProt, .rMap, .rNc, .fe]
  | .drive _ => [.rFe, .fe]
  | .gsig _ => noticeParts ++ [.rFe, .rFio, .fe]
  | .illegalInstruction _ => noticeParts ++ [.rFe, .fe]
  | .feStallClear _ _ => noticeParts ++ [.rMdl, .rFe, .mdl, .fe, .fio]
  | .feHoldEnd _ => [.fe]
  | .feTxWrite _ _ _ => noticeParts ++ [.rFe, .fe]
  | .feRxRead _ => [.rFe, .rdata, .fe]
  | .feProgWrite _ _ _ _ => [.rFe, .fe]
  | .feEnableWrite _ _ _ => [.rFe, .fe]
  | .feSyncHalt _ => [.rFe, .fe, .cyc]
  | .feSyncReset _ => [.rFe, .fe, .cyc]
  | .feSyncPhase _ => [.rFe, .fe, .cyc]
  | .feSyncRun _ => [.rFe, .fe, .cyc]
  | .timerTick _ => noticeParts ++ [.rTim, .tim]
  | .timerCapture _ _ => noticeParts ++ [.rTim, .tim]
  | .timCapRead _ => [.rTim, .rdata, .cyc]
  | .timerFreeze _ _ => [.rTim, .coreV, .coreC, .tim]
  | .clockSwitchStart _ _ _ => [.rSys, .isl]
  | .clockSwitchDone _ => [.rSys, .isl]
  | .clockSwitchTimeout _ => noticeParts ++ [.rCh, .rTr, .rDrv, .rBk, .rBst, .rDg, .rDgb, .rCap, .rSys, .rMap, .isl, .frees, .pool,
      .poolLast, .chans, .banks, .boost, .bcap, .jour]
  | .clockStop _ => noticeParts ++ [.rCh, .rTr, .rDrv, .rBk, .rBst, .rDg, .rDgb, .rCap, .rSys, .rMap, .isl, .frees, .pool, .poolLast,
      .chans, .banks, .boost, .bcap, .jour]
  | .clockAutoRecover _ => allParts
  | .xtalLoss _ => [.rSys, .sys]
  | .xtalRestore => [.rSys]
  | .trimMark _ => [.rSys, .sys]
  | .trimHoldTimeout => [.rSys, .sys]
  | .moduleReset _ => allParts
  | .islandReset _ _ => allParts
  | .wdtVExpire => allParts
  | .wdtCExpire => [.rInt, .mem, .coreV, .coreC, .sys]
  | .anvilCRestart => [.rInt, .mem, .coreV, .coreC, .sys]
  | .sleepRequest _ => [.sys]
  | .wakeRequest _ => [.asleep, .sys]
  | .bootRom _ => [.rSys, .mem, .isl, .coreV, .sys]
  | .gelowStart => noticeParts ++ [.rHp, .rSys, .mem, .coreV, .coreC, .jour, .recs, .gelow]
  | .bootRcvGo _ _ => [.rSys, .mem, .coreV]
  | .keyProgGo _ _ => [.rProt, .sys]
  | .keyProgRevoke _ _ => [.rProt, .sys]
  | .keyProgDone => [.rProt, .sys]
  | .protSeal _ => [.rSys, .rProt, .cyc]
  | .powerUp _ _ => allParts
  | .powerLoss _ => allParts
  | .supplyMonitorChange _ _ _ => noticeParts ++ [.rSys]
  | .lossDetectArm _ _ => [.sys]
  | .supplyLossDetection _ _ _ => allParts
  | .boostDisconnectOpen _ => [.sys]
  | .boostDisconnectClose _ _ => [.sys]
  | .supFaultDetect _ _ _ _ => noticeParts ++ [.rSup, .sup]
  | .supReclose _ _ _ => [.sup]
  | .supCtlWrite _ _ _ => [.rSup, .sup, .cyc]
  | .islandClockReturn _ => [.rSys, .isl]
  | .islandResetRelease _ => [.rHp, .rInt, .rSys, .isl, .accums, .gelow, .cyc]
  | .sdsPullTest _ _ _ => [.stamps, .sds]
  | .supFltClear _ _ _ => [.rSup, .sup]
  | .adcSelWrite _ _ _ => noticeParts ++ [.rAdc, .adc]
  | .comparatorCfgWrite _ _ _ _ => noticeParts ++ [.rHp, .rMb, .rCh, .rTr, .rLat, .rDrv, .rAx, .rWhl, .rMdl, .rBk, .rBst, .rPwr, .rDg,
      .rDgb, .rCap, .rBcap, .rAdc, .rAs, .rCmp, .rSds, .rAin, .rFe, .rFio, .rTim, .rSys, .rSup, .rProt, .rMap, .rNc, .cmp, .sds]
  | .timerCtlWrite _ _ _ _ => [.rHp, .rMb, .rCh, .rTr, .rLat, .rDrv, .rAx, .rWhl, .rMdl, .rBk, .rBst, .rPwr, .rDg, .rDgb, .rCap,
      .rBcap, .rAdc, .rAs, .rCmp, .rSds, .rAin, .rFe, .rFio, .rTim, .rInt, .rSys, .rSup, .rProt, .rMap, .rNc, .tim, .cyc]
  | .blankingExpiry _ _ => [.rDrv, .rBk, .chans]
  | .channelConfigWrite _ _ _ _ => noticeParts ++ [.rCh, .rLat, .rCap, .chans, .capReq, .capTb]

/-- Every register reads as before, but those of some blocks and some single fields. -/
def SameRegs (but : List (Field × Nat)) (parts : List Part) (x y : Chip) : Prop :=
  ∀ f i, f.part ∉ parts → (∀ p, p ∈ but → f.id = p.1.id → i ≠ p.2) → y.rd f i = x.rd f i

/-! ## Canonical forms -/

/-- A register file in canonical form: fields and instances rise strictly, and every value fits the 32 bits of its register above the
field's lowest bit (R6). -/
def regsWf (t : Tab (Tab Nat)) : Bool :=
  tabWf t && t.all fun p => tabWf p.2 && p.2.all fun q => decide (q.2 < 2 ^ (32 - p.1 % 32))

/-- What every command keeps of a state's form: memory and the register file are canonical, and so are the rows that a map reset saved. -/
def Wf (s : State) : Prop :=
  Memory.wf s.chip.mem = true ∧ regsWf s.chip.regs = true ∧ ∀ rows, s.chip.map.saved = some rows → regsWf rows = true

/-! ## The journal -/

/-- What a resolved record says beside the number of accepted entries of its command (R365, R369). -/
def Rec.said (r : Rec) : Rec := { r with acc := 0 }

/-! ## Runs -/

/-- Commands executed one after another, the queue apart. -/
def execAll (cs : List Instr) (s : State) : Host.Outcome State Fault Refusal :=
  match cs with
  | [] => .next s
  | c :: r =>
    match exec c s with
    | .next t => execAll r t
    | .fault x => .fault x
    | .refused x => .refused x

end Sys2Proof.Machine
end

