-- ==== Sys2Proof/Certificates/Slice0/Obligations.lean ====
section
/-! DEFINITION. The statements for the provers. In each, m.rd F i is the field F of instance i. -/

open Sys2Proof Sys2Proof.Machine

/-- Every command answers a next state, keeps the queue, and changes only the parts of the block that it may change -/
def Obligations.EveryCommandKeepsTheRest : Prop :=
  ∀ (i : Instr) (s : State), ∃ t, exec i s = .next t ∧ t.pending = s.pending ∧ KeptOutside (partsOf i) s.chip t.chip

/-- A step keeps the canonical form of memory and of the register file. The form is the model's own (log entry 2); R6 gives the width of a
register. -/
def Obligations.StepKeepsForm : Prop :=
  ∀ s t : State, Wf s → step s = .next t → Wf t

/-- The state after reset is in canonical form, with no command waiting -/
def Obligations.ResetHasForm : Prop :=
  Wf State.reset ∧ State.reset.pending = []

/-- A resolved record stays resolved and says the same, through every step but a collection -/
def Obligations.ResolvedRecordStands : Prop :=
  ∀ (s t : State) (j : Nat) (r : Rec), (∀ x, s.pending.head? ≠ some (.journalCollect x)) → s.chip.rec? j = some r → r.phase = 3 →
    step s = .next t → ∃ r', t.chip.rec? j = some r' ∧ r'.phase = 3 ∧ r'.said = r.said

/-- JOURNAL_COLLECT frees every resolved record of its writer up to its JSN and no other; nothing else frees a record -/
def Obligations.CollectionFreesRecords : Prop :=
  (∀ (x : Mbx) (s : State), s.chip.isNext x.val 0x0702 = true →
    payNat (s.chip.mbPay x.val) 0 6 ≤ tabGet s.chip.jour.newest (mbOwner x.val) 0 →
    ∃ t, exec (.journalCollect x) s = .next t ∧
    ∀ r : Rec, r ∈ t.chip.jour.recs ↔
      r ∈ s.chip.jour.recs ∧ ¬ (r.owner = mbOwner x.val ∧ r.phase = 3 ∧ r.jsn ≤ payNat (s.chip.mbPay x.val) 0 6)) ∧
  (∀ (i : Instr) (s t : State) (j : Nat), (∀ x, i ≠ .journalCollect x) → exec i s = .next t →
    (∃ r, r ∈ s.chip.jour.recs ∧ r.jsn = j) → ∃ r, r ∈ t.chip.jour.recs ∧ r.jsn = j)

/-- A step executes the command at the front of the queue on the rest; on an empty queue TB counts -/
def Obligations.StepTakesTheFront : Prop :=
  (∀ (c : Instr) (s : State) (r : List Instr), step { s with pending := c :: r } = exec c { s with pending := r }) ∧
  (∀ s : State, s.pending = [] → step s = .next { s with chip := s.chip.idle })

/-- As many steps as commands wait execute them in order and leave what stands behind them -/
def Obligations.QueueIsFirstInFirstOut : Prop :=
  ∀ (cs r : List Instr) (s : State),
    Sys2Proof.core.run cs.length ({ s with pending := cs ++ r } : State) = execAll cs { s with pending := r }

/-- Arming of a variable-reluctance input -/
def Obligations.WheelFrontEndArms : Prop :=
  ∀ (n : Fin 16) (mv : Nat) (s : State), s.chip.rd WHL_FE_FE n.val = 0 →
    thrEighths (s.chip.rd WHL_FE_THR_FRAC n.val) * (s.chip.wheel n.val).peak * 10 < mv * 8 →
    s.chip.rd WHL_FE_VR_MIN n.val * 10 < mv → ∃ t, exec (.vrArm n mv) s = .next t ∧
    t.chip.rd WHL_VR_PEAK n.val = min 65535 (mv / 10) ∧
    t.chip.wheel n.val = { s.chip.wheel n.val with armed := true, peak := mv / 10 } ∧
    (∀ k, k ≠ n.val → t.chip.wheel k = s.chip.wheel k) ∧ SameRegs [(WHL_VR_PEAK, n.val)] [] s.chip t.chip

/-- States of a wheel input: stop, missing reference, fault exit, resync -/
def Obligations.WheelStates : Prop :=
  (∀ (n : Whl) (s : State), s.chip.rd WHL_STAT_STATE n.val ≠ 0 → s.chip.rd WHL_TIMEOUT_STOP_TMO n.val ≠ 0 →
    s.chip.rd WHL_STAT_STOP n.val = 0 → (s.chip.wheel n.val).idleFrom + s.chip.rd WHL_TIMEOUT_STOP_TMO n.val * msTb ≤ s.chip.tb →
    ∃ t, exec (.whlStopTimeout n) s = .next t ∧ t.chip.rd WHL_STAT_STOP n.val = 1 ∧
    bitAt (t.chip.rd WHL_FLAGS n.val) WHL_FLAGS_STOP_IN = true ∧ t.chip.rd WHL_STAT_STATE n.val = s.chip.rd WHL_STAT_STATE n.val ∧
    t.chip.rd WHL_CNT n.val = s.chip.rd WHL_CNT n.val) ∧
  (∀ (n : Whl) (s : State), s.chip.rd WHL_STAT_STATE n.val = 3 → s.chip.whlRef n.val ≠ 0 → (s.chip.wheel n.val).idxPend = none →
    s.chip.whlRefPassed n.val = true → ∃ t, exec (.whlMissingReference n) s = .next t ∧ t.chip.rd WHL_STAT_STATE n.val = 4 ∧
    t.chip.rd WHL_STAT_ANGLE_VALID n.val = 1 ∧ bitAt (t.chip.rd WHL_FLAGS n.val) WHL_FLAGS_IDX_MISMATCH = true ∧
    t.chip.rd WHL_MISM_CNT n.val = min (s.chip.rd WHL_MISM_CNT n.val + 1) (2 ^ WHL_MISM_CNT.w - 1) ∧
    (t.chip.wheel n.val).missing = 1 ∧ t.chip.rd WHL_CNT n.val = s.chip.rd WHL_CNT n.val) ∧
  (∀ (n : Whl) (s : State), s.chip.whlMayExit n.val = true → s.chip.rd WHL_CFG_LATCH_FLT n.val = 0 →
    ∃ t, exec (.whlFaultExit n) s = .next t ∧ t.chip.rd WHL_STAT_STATE n.val = 2 ∧ t.chip.rd WHL_STAT_ANGLE_VALID n.val = 0 ∧
    bitAt (t.chip.rd WHL_FLAGS n.val) WHL_FLAGS_FAULT_OUT = true ∧ t.chip.rd WHL_CNT n.val = s.chip.rd WHL_CNT n.val) ∧
  (∀ (n : Whl) (s : State), s.chip.rd WHL_CFG_LATCH_FLT n.val = 1 → exec (.whlFaultExit n) s = .next s) ∧
  (∀ (who : Writer) (n : Whl) (s : State), s.chip.geomOk who = true → s.chip.whlMayExit n.val = true →
    ∃ t, exec (.whlFaultClr who n) s = .next t ∧ t.chip.rd WHL_STAT_STATE n.val = 2 ∧
    bitAt (t.chip.rd WHL_FLAGS n.val) WHL_FLAGS_FAULT_OUT = true) ∧
  (∀ (who : Writer) (n : Whl) (s : State), s.chip.geomOk who = true →
    s.chip.rd WHL_STAT_STATE n.val = 3 ∨ s.chip.rd WHL_STAT_STATE n.val = 4 → (s.chip.wheel n.val).idxPend = none →
    (s.chip.wheel n.val).undo = none → ∃ t, exec (.whlResync who n) s = .next t ∧ t.chip.rd WHL_STAT_STATE n.val = 2 ∧
    t.chip.rd WHL_STAT_ANGLE_VALID n.val = 0 ∧ bitAt (t.chip.rd WHL_FLAGS n.val) WHL_FLAGS_SYNC_LOST = true ∧
    (t.chip.wheel n.val).refCnt = 0 ∧ t.chip.rd WHL_CNT n.val = s.chip.rd WHL_CNT n.val)

/-- WHL_CFG writes and the snapshot reads of a wheel input -/
def Obligations.WheelCommandsAndSnapshots : Prop :=
  (∀ (who : Writer) (n : Whl) (w : Word) (s : State), s.chip.geomOk who = false → exec (.whlCfgWrite who n w) s = .next s) ∧
  (∀ (who : Writer) (n : Whl) (w : Word) (s : State), s.chip.geomOk who = true → s.chip.rd WHL_STAT_STATE n.val ≠ 0 →
    wordField WHL_CFG_MODE w.toNat = 0 → ∃ t, exec (.whlCfgWrite who n w) s = .next t ∧ t.chip.rd WHL_CFG_MODE n.val = 0 ∧
    t.chip.rd WHL_STAT_STATE n.val = 0 ∧ t.chip.rd WHL_STAT_ANGLE_VALID n.val = 0 ∧
    t.chip.rd WHL_CNT n.val = s.chip.rd WHL_CNT n.val ∧ t.chip.rd WHL_ANGLE n.val = s.chip.rd WHL_ANGLE n.val ∧
    t.chip.rd WHL_TURN n.val = s.chip.rd WHL_TURN n.val) ∧
  (∀ (who : Writer) (n : Whl) (w : Word) (s : State), s.chip.geomOk who = true → s.chip.rd WHL_STAT_STATE n.val = 0 →
    wordField WHL_CFG_MODE w.toNat = 1 → s.chip.rd WHL_TEETH_TEETH n.val < 2 → ∃ t, exec (.whlCfgWrite who n w) s = .next t ∧
    bitAt (t.chip.rd WHL_FLAGS n.val) WHL_FLAGS_CFG_ERR = true ∧ t.chip.rd WHL_CFG_MODE n.val = s.chip.rd WHL_CFG_MODE n.val ∧
    t.chip.rd WHL_STAT_STATE n.val = 0) ∧
  (∀ (who : Writer) (n : Whl) (w : Word) (s : State), s.chip.geomOk who = true → s.chip.rd WHL_STAT_STATE n.val = 0 →
    wordField WHL_CFG_MODE w.toNat = 5 → wordField WHL_CFG_REF w.toNat = 0 → wordField WHL_CFG_DIR_SRC w.toNat = 0 →
    s.chip.whlHome n.val = n.val → s.chip.rd WHL_STAT_COND n.val = 0 → (s.chip.wheel n.val).revSlope = false →
    ∃ t, exec (.whlCfgWrite who n w) s = .next t ∧ t.chip.rd WHL_CFG_MODE n.val = 5 ∧ t.chip.rd WHL_STAT_STATE n.val = 2 ∧
    t.chip.rd WHL_CNT n.val = 0 ∧ t.chip.rd WHL_ANGLE n.val = 0 ∧ t.chip.rd WHL_TURN n.val = 0 ∧ t.chip.rd WHL_STAT_STOP n.val = 0 ∧
    t.chip.rd WHL_STAT_DIR n.val = 0) ∧
  (∀ (n : Whl) (s : State), ∃ t, exec (.whlEdgeSnapshotRead n) s = .next t ∧
    t.chip.rd WHL_EDGE_TB_LO n.val = (s.chip.wheel n.val).edgeTb % 2 ^ 32 ∧
    t.chip.rd WHL_EDGE_TB_HI n.val = (s.chip.wheel n.val).edgeTb / 2 ^ 32 % 2 ^ 32 ∧
    t.chip.rd WHL_SNAP_CNT n.val = (s.chip.wheel n.val).edgeCnt % 2 ^ WHL_SNAP_CNT.w ∧
    t.chip.rd WHL_SNAP_IVL n.val = s.chip.rd WHL_IVL n.val % 2 ^ WHL_SNAP_IVL.w ∧
    t.chip.rdata = (s.chip.wheel n.val).edgeTb % 2 ^ 32 ∧
    SameRegs [(WHL_EDGE_TB_LO, n.val), (WHL_EDGE_TB_HI, n.val), (WHL_SNAP_CNT, n.val), (WHL_SNAP_IVL, n.val)] [] s.chip t.chip) ∧
  (∀ (n : Whl) (s : State), (s.chip.wheel n.val).idxPend = none → ∃ t, exec (.whlIdxSnapshotRead n) s = .next t ∧
    t.chip.rd WHL_IDX_TB_LO n.val = (s.chip.wheel n.val).idxTb % 2 ^ 32 ∧
    t.chip.rd WHL_IDX_TB_HI n.val = (s.chip.wheel n.val).idxTb / 2 ^ 32 % 2 ^ 32 ∧ t.chip.rdata = s.chip.rd WHL_IDX_LATCH n.val ∧
    SameRegs [(WHL_IDX_TB_LO, n.val), (WHL_IDX_TB_HI, n.val)] [] s.chip t.chip)

/-- Edges, direction pulses, interpolation and wiring tests of a wheel input -/
def Obligations.WheelEdgesAndTests : Prop :=
  (∀ (n : Whl) (x : Int) (held : Nat) (steep both : Bool) (s : State), s.chip.clockOk islObserver = true →
    s.chip.whlHome n.val = n.val → s.chip.rd WHL_CFG_MODE n.val = 1 → s.chip.rd WHL_CFG_REF n.val = 0 →
    s.chip.rd WHL_CFG_DIR_SRC n.val = 0 → s.chip.rd WHL_FE_FE n.val = 1 → s.chip.whlHeldLine n.val = false →
    (s.chip.whlComp n.val x != s.chip.rdB WHL_FE_INV n.val) = (s.chip.rd WHL_CFG_EDGE n.val == 0) →
    (s.chip.wheel n.val).line = !(s.chip.rd WHL_CFG_EDGE n.val == 0) → s.chip.rd WHL_FE_FILT n.val * 8 ≤ held →
    (s.chip.wheel n.val).lastTb = none → (s.chip.wheel n.val).idxPend = none → (s.chip.wheel n.val).dirPend = none →
    ∃ t, exec (.wheelEdge n ⟨x, held⟩ steep both) s = .next t ∧
    t.chip.rd WHL_STAT_LINE n.val = b2n (s.chip.rd WHL_CFG_EDGE n.val == 0) ∧
    t.chip.rd WHL_STAT_DIR n.val = b2n (s.chip.rdB WHL_DIRSET_DIR n.val) ∧ t.chip.rd WHL_STAT_STOP n.val = 0 ∧
    (t.chip.wheel n.val).edgeTb = s.chip.tbOf islObserver - held ∧
    t.chip.rd WHL_CNT n.val = ofSigned 32 (s.chip.rdI WHL_CNT n.val + if s.chip.rdB WHL_DIRSET_DIR n.val then -1 else 1) ∧
    t.chip.rd WHL_STAT_STATE n.val = s.chip.rd WHL_STAT_STATE n.val) ∧
  (∀ (n : Whl) (t0 : Nat) (s : State), (s.chip.wheel n.val).leadTb = some t0 → s.chip.rd WHL_CFG_DIR_SRC n.val = 2 →
    t0 + 4096 * usTb ≤ s.chip.tbOf islObserver → (s.chip.wheel n.val).lastTb = none → s.chip.rd WHL_CFG_REF n.val = 0 →
    ∃ t, exec (.whlDirPulseTimeout n) s = .next t ∧ t.chip.rd WHL_STAT_DIR n.val = 1 ∧
    t.chip.rd WHL_CNT n.val = ofSigned 32 (s.chip.rdI WHL_CNT n.val - 1)) ∧
  (∀ (n : Whl) (up down : Bool) (s : State), s.chip.due .whlPull n.val = true → s.chip.rd WHL_FE_FE n.val = 1 →
    s.chip.rd WHL_FE_PULL n.val = 3 → s.chip.whlHeldLine n.val = false → ∃ t, exec (.whlPullTest n up down) s = .next t ∧
    t.chip.wheel n.val = { s.chip.wheel n.val with pullOpen := up && down } ∧ SameRegs [] [] s.chip t.chip) ∧
  (∀ (n : Whl) (p : WhlPins) (s : State), s.chip.due .whlDiag n.val = true → s.chip.clockOk islObserver = true →
    s.chip.rd WHL_FE_DIAG_EN n.val = 0 → ∃ t, exec (.whlDiagEvaluation n p) s = .next t ∧
    t.chip.rd WHL_DIAG_PIN_MV n.val = ofSigned 16 (clampI (-32768) 32767 p.pinMv) ∧
    t.chip.rd WHL_DIAG_PIN_CUR n.val = (if s.chip.whlFe n.val = 2 then min 65535 p.cur10uA.toNat else 0) ∧
    SameRegs [(WHL_DIAG_PIN_MV, n.val), (WHL_DIAG_PIN_CUR, n.val)] [] s.chip t.chip) ∧
  (∀ (n : Whl) (p : WhlPins) (i : Fin 8) (s : State), s.chip.due .whlDiag n.val = true → s.chip.clockOk islObserver = true →
    s.chip.rd WHL_FE_DIAG_EN n.val = 1 → s.chip.whlHome n.val = n.val → quadMode (s.chip.whlMode n.val) = false →
    (s.chip.wheel n.val).present.length = 8 → (s.chip.wheel n.val).stands.length = 8 →
    (s.chip.whlTests n.val p).getD i.val false = true → 1 ≤ (s.chip.wheel n.val).present.getD i.val 0 →
    ∃ t, exec (.whlDiagEvaluation n p) s = .next t ∧ bitAt (t.chip.rd WHL_STAT_COND n.val) (condBits.getD i.val 0) = true ∧
    (t.chip.wheel n.val).stands.getD i.val false = true ∧
    ((s.chip.wheel n.val).stands.getD i.val false = false → bitAt (t.chip.rd WHL_FLAGS n.val) (WHL_FLAGS_OPEN + condBits.getD i.val 0) = true) ∧
    (i.val ≠ 6 ∧ s.chip.whlForwards n.val = true → t.chip.rd WHL_STAT_STATE n.val = 1) ∧
    t.chip.rd WHL_DIAG_PIN_MV n.val = ofSigned 16 (clampI (-32768) 32767 p.pinMv)) ∧
  (∀ (n : Whl) (p : WhlPins) (s : State), s.chip.due .whlDiag n.val = true → s.chip.clockOk islObserver = true →
    s.chip.rd WHL_FE_DIAG_EN n.val = 1 → s.chip.whlHome n.val = n.val → quadMode (s.chip.whlMode n.val) = false →
    (s.chip.wheel n.val).stands = List.replicate 8 false → (s.chip.wheel n.val).present.length = 8 →
    s.chip.whlTests n.val p = List.replicate 8 false → (s.chip.wheel n.val).revSlope = false →
    ∃ t, exec (.whlDiagEvaluation n p) s = .next t ∧ t.chip.rd WHL_STAT_COND n.val = 0 ∧
    (t.chip.wheel n.val).present = List.replicate 8 0 ∧ t.chip.rd WHL_STAT_STATE n.val = s.chip.rd WHL_STAT_STATE n.val) ∧
  (∀ (n : Whl) (term : Int) (s : State), s.chip.due .whlInterp n.val = true → s.chip.rd WHL_STAT_STATE n.val ≠ 0 →
    s.chip.whlTc n.val ≠ 0 → s.chip.rd WHL_STAT_STOP n.val = 0 → (s.chip.wheel n.val).lastStart = false →
    (s.chip.wheel n.val).idxPend = none → (s.chip.wheel n.val).dirPend = none →
    term = minI (s.chip.whlRoom n.val) (4294967296 * ((s.chip.tbOf islObserver : Int) - (s.chip.wheel n.val).edgeTb) / (max 1 (s.chip.rd WHL_IVL n.val) * s.chip.whlTc n.val : Nat)) →
    ∃ t, exec (.whlInterpolationTick n) s = .next t ∧
    (t.chip.wheel n.val).interp = (if s.chip.rd WHL_STAT_DIR n.val = 0 then term else -term) ∧
    t.chip.rd WHL_ANGLE n.val = ofSigned 32 (s.chip.whlFrac n.val (t.chip.wheel n.val).interp) ∧
    SameRegs [(WHL_ANGLE, n.val), (WHL_TURN, n.val)] [] s.chip t.chip)

/-- Slots: a start measurement, a lost source, the slip ratio, enable and disable -/
def Obligations.MandrelSlots : Prop :=
  (∀ (k : Ds) (r : EdgeRec) (rs : List EdgeRec) (s : State), (s.chip.slot k.val).inbox = r :: rs → r.stop = false →
    r.start = true → s.chip.rd MDL_SRC_STAT_STATE k.val ≠ 0 → s.chip.rd MDL_SRC_STAT_STATE k.val ≠ 5 →
    ∃ t, exec (.slotMeasurement k) s = .next t ∧
    (t.chip.slot k.val).meas = (s.chip.slot k.val).meas + (if s.chip.rdB MDL_SRC_CFG_SIGN k.val then -r.dcnt else r.dcnt) * s.chip.slotScale k.val ∧
    (t.chip.slot k.val).s = (t.chip.slot k.val).meas ∧ (t.chip.slot k.val).v = 0 ∧ (t.chip.slot k.val).inbox = rs ∧
    (t.chip.slot k.val).lastTb = some r.tb ∧ SameRegs [] [] s.chip t.chip) ∧
  (∀ (k : Ds) (s : State), s.chip.rd MDL_SRC_CFG_EN k.val ≠ 0 → s.chip.rd MDL_SRC_CFG_TYPE k.val = 1 →
    (s.chip.slot k.val).wordTb + 100 * msTb ≤ s.chip.tb → s.chip.rd MDL_SRC_STAT_STATE k.val ≠ 0 →
    s.chip.rd MDL_SRC_STAT_STATE k.val ≠ 5 → ∃ t, exec (.slotWordTimeout k) s = .next t ∧ t.chip.rd MDL_SRC_STAT_STATE k.val = 5 ∧
    bitAt (t.chip.rd MDL_SRC_FLAGS k.val) 3 = true ∧ bitAt (t.chip.rd MDL_FLAGS) MDL_FLAGS_SRC_EVT = true ∧
    SameRegs [(MDL_SRC_STAT_STATE, k.val), (MDL_SRC_FLAGS, k.val), (MDL_FLAGS, 0)] [.rInt] s.chip t.chip) ∧
  (∀ (k : Ds) (r : Int) (s : State), s.chip.due .slip = true → s.chip.chassisSlot k.val = true →
    s.chip.rd MDL_SRC_STAT_STATE k.val = 2 → s.chip.vOthers k.val = some r → slipFloor ≤ absI r →
    ∃ t, exec (.slipEvaluation) s = .next t ∧
    t.chip.rd MDL_SRC_RATIO k.val = ofSigned MDL_SRC_RATIO.w (clampI (-(2 ^ (MDL_SRC_RATIO.w - 1) : Nat)) ((2 ^ (MDL_SRC_RATIO.w - 1) : Nat) - 1) (((s.chip.slot k.val).v - r) * 1000 / r))) ∧
  (∀ (who : Writer) (k : Ds) (w : Word) (s : State), s.chip.geomOk who = true → s.chip.rd MDL_SRC_CFG_EN k.val = 0 →
    wordField MDL_SRC_CFG_EN w.toNat = 1 → wordField MDL_SRC_CFG_TYPE w.toNat = 1 → s.chip.rd MDL_SRC_SCALE k.val ≠ 0 →
    ∃ t, exec (.mdlSrcEnable who k w) s = .next t ∧ t.chip.rd MDL_SRC_CFG_EN k.val = 1 ∧ t.chip.rd MDL_SRC_STAT_STATE k.val = 1 ∧
    (t.chip.slot k.val).inbox = [] ∧ t.chip.rd MDL_SRC_SCALE_L k.val = s.chip.rd MDL_SRC_SCALE k.val % 2 ^ MDL_SRC_SCALE_L.w) ∧
  (∀ (who : Writer) (k : Ds) (w : Word) (s : State), s.chip.geomOk who = true → s.chip.rd MDL_SRC_CFG_EN k.val = 0 →
    wordField MDL_SRC_CFG_EN w.toNat = 1 → s.chip.rd MDL_SRC_SCALE k.val = 0 → ∃ t, exec (.mdlSrcEnable who k w) s = .next t ∧
    t.chip.rd MDL_SRC_CFG_EN k.val = 0 ∧ bitAt (t.chip.rd MDL_FLAGS) MDL_FLAGS_CFG_ERR = true) ∧
  (∀ (who : Writer) (k : Ds) (w : Word) (s : State), s.chip.geomOk who = true → s.chip.rd MDL_SRC_CFG_EN k.val ≠ 0 →
    wordField MDL_SRC_CFG_EN w.toNat = 0 → ∃ t, exec (.mdlSrcEnable who k w) s = .next t ∧ t.chip.rd MDL_SRC_CFG_EN k.val = 0 ∧
    t.chip.rd MDL_SRC_STAT_STATE k.val = 0 ∧ t.chip.rd MDL_SRC_V k.val = 0)

/-- The chassis: enable, still timer, end of COAST, history, prediction in COAST -/
def Obligations.ChassisStates : Prop :=
  (∀ (who : Writer) (w : Word) (s : State), s.chip.geomOk who = true → s.chip.rd MDL_CFG_EN = 0 →
    wordField MDL_CFG_EN w.toNat = 1 → ∃ t, exec (.mdlEnable who w) s = .next t ∧ t.chip.rd MDL_CFG_EN = 1 ∧
    t.chip.rd MDL_STAT_STATE = 1 ∧ t.chip.mdl.s = 0 ∧ t.chip.rd MDL_STAT_FIELD_OK = 0 ∧ t.chip.rd MDL_POSE_STAT_LAST = 0 ∧
    t.chip.rd MDL_POSE_STAT_LOOP = 1) ∧
  (∀ (who : Writer) (w : Word) (s : State), s.chip.geomOk who = true → s.chip.rd MDL_CFG_EN = 1 →
    wordField MDL_CFG_EN w.toNat = 0 → ∃ t, exec (.mdlEnable who w) s = .next t ∧ t.chip.rd MDL_CFG_EN = 0 ∧
    t.chip.rd MDL_STAT_STATE = 0 ∧ t.chip.rd MDL_POSE_STAT_LOOP = 0) ∧
  (∀ (t0 : Nat) (s : State), s.chip.mdl.lowSince = some t0 → s.chip.rd MDL_STAT_STATE = 2 ∨ s.chip.rd MDL_STAT_STATE = 3 →
    t0 + s.chip.rd MDL_STILL_STILL_MS * msTb ≤ s.chip.tb → ∃ t, exec (.stillTimer) s = .next t ∧
    t.chip.mdl = { s.chip.mdl with lowHeld := true } ∧ SameRegs [] [] s.chip t.chip) ∧
  (∀ (s : State), s.chip.rd MDL_STAT_STATE = 5 → s.chip.mdl.coastAt + s.chip.rd MDL_CFG_COAST_MS * msTb ≤ s.chip.tb →
    ∃ t, exec (.coastTimeout) s = .next t ∧ t.chip.rd MDL_STAT_STATE = 6 ∧ t.chip.mdl.v = 0 ∧
    bitAt (t.chip.rd MDL_FLAGS) MDL_FLAGS_STATE_CHG = true ∧ bitAt (t.chip.rd MDL_FLAGS) MDL_FLAGS_INVALID_IN = true ∧
    SameRegs [(MDL_STAT_STATE, 0), (MDL_FLAGS, 0)] [.rInt] s.chip t.chip) ∧
  (∀ (s : State), s.chip.due .history = true → s.chip.rd MDL_CFG_EN ≠ 0 → ∃ t, exec (.mdlHistoryEntry) s = .next t ∧
    t.chip.mdl.hist = ({ s.chip.histNow with tb := s.chip.tb } :: s.chip.mdl.hist).take 256 ∧ SameRegs [] [] s.chip t.chip) ∧
  (∀ (s : State), s.chip.due .prediction = true → s.chip.tb % 200 = 0 → s.chip.runs islObserver = true → s.chip.rd MDL_CFG_EN ≠ 0 →
    s.chip.rd MDL_STAT_STATE = 5 → s.chip.slotsOn = [] → ∃ t, exec (.predictionTick) s = .next t ∧ t.chip.mdl.tickTb = s.chip.tb ∧
    t.chip.mdl.s = s.chip.mdl.s + s.chip.mdl.v / 1000000 ∧ t.chip.rd MDL_STAT_STATE = 5)

/-- Poses: commit, jump, correction, loss; FIELD_SET -/
def Obligations.PosesAndField : Prop :=
  (∀ (who : Writer) (s : State), s.chip.poseOk who = true → s.chip.poseTest s.chip.staged = 0 →
    ∃ t, exec (.poseCommit who) s = .next t ∧ t.chip.mdl.pose = some s.chip.staged ∧ t.chip.rd MDL_POSE_STAT_BUSY = 1 ∧
    SameRegs [(MDL_POSE_STAT_BUSY, 0)] [] s.chip t.chip) ∧
  (∀ (who : Writer) (c : Nat) (s : State), s.chip.poseOk who = true → s.chip.poseTest s.chip.staged = c → c ≠ 0 →
    ∃ t, exec (.poseCommit who) s = .next t ∧ t.chip.mdl.pose = s.chip.mdl.pose ∧ t.chip.rd MDL_POSE_STAT_LAST = c ∧
    bitAt (t.chip.rd MDL_FLAGS) MDL_FLAGS_POSE_REFUSED = true ∧
    SameRegs [(MDL_POSE_STAT_LAST, 0), (MDL_FLAGS, 0)] [.rInt] s.chip t.chip) ∧
  (∀ (p : Pose) (s : State), s.chip.mdl.pose = some p → s.chip.mdl.firstPose = true → ∃ t, exec (.poseProcessed) s = .next t ∧
    t.chip.mdl.pose = none ∧ t.chip.rd MDL_POSE_STAT_BUSY = 0 ∧ t.chip.rd MDL_POSE_STAT_LAST = 2 ∧ t.chip.rd MDL_STAT_FIELD_OK = 1 ∧
    t.chip.rd MDL_STAT_POSE_CUR = 1 ∧ t.chip.rd MDL_STAT_FIELD_DR = 0 ∧ bitAt (t.chip.rd MDL_FLAGS) MDL_FLAGS_FIELD_JUMP = true ∧
    t.chip.mdl.e = fieldClamp (s.chip.mdl.e + (fx p.e - (s.chip.histAtTb p.tb).e)) ∧
    t.chip.mdl.n = fieldClamp (s.chip.mdl.n + (fx p.n - (s.chip.histAtTb p.tb).n))) ∧
  (∀ (p : Pose) (dE dN : Int) (s : State), s.chip.mdl.pose = some p → s.chip.mdl.firstPose = false → s.chip.mdl.fieldSet = false →
    s.chip.mdl.poseRejects < s.chip.rd MDL_POSE_CFG_REJ_MAX → dE = fx p.e - (s.chip.histAtTb p.tb).e →
    dN = fx p.n - (s.chip.histAtTb p.tb).n →
    dE * dE + dN * dN ≤ fx (s.chip.rd MDL_POSE_CFG_GATE * max p.sigma 10) * fx (s.chip.rd MDL_POSE_CFG_GATE * max p.sigma 10) →
    ∃ t, exec (.poseProcessed) s = .next t ∧ t.chip.mdl.corrE = dE ∧ t.chip.mdl.corrN = dN ∧ t.chip.mdl.e = s.chip.mdl.e ∧
    t.chip.mdl.n = s.chip.mdl.n ∧ t.chip.rd MDL_POSE_STAT_LAST = 1 ∧ t.chip.rd MDL_STAT_POSE_CUR = 1 ∧
    t.chip.rd MDL_POSE_STAT_BUSY = 0 ∧ t.chip.mdl.last = some p) ∧
  (∀ (s : State), s.chip.rd MDL_STAT_POSE_CUR ≠ 0 → s.chip.mdl.acceptTb + s.chip.rd MDL_POSE_TMO_TMO * msTb ≤ s.chip.tb →
    s.chip.rd MDL_POSE_STAT_LOOP ≠ 0 → s.chip.rd MDL_POSE_STAT_LOOP ≠ 5 → ∃ t, exec (.poseTimeout) s = .next t ∧
    t.chip.rd MDL_STAT_POSE_CUR = 0 ∧ t.chip.rd MDL_STAT_FIELD_DR = 1 ∧ t.chip.rd MDL_POSE_STAT_LOOP = 5 ∧
    bitAt (t.chip.rd MDL_FLAGS) MDL_FLAGS_POSE_LOST = true ∧
    SameRegs [(MDL_STAT_POSE_CUR, 0), (MDL_STAT_FIELD_DR, 0), (MDL_FLAGS, 0), (MDL_POSE_STAT_LOOP, 0)] [.rInt] s.chip t.chip) ∧
  (∀ (who : Writer) (s : State), s.chip.geomOk who = true → ∃ t, exec (.fieldSet who) s = .next t ∧
    t.chip.mdl = { s.chip.mdl with fieldSet := true } ∧ SameRegs [] [] s.chip t.chip)

/-- Host yaw, loss of the yaw source, deflection values, clearing the learned scales -/
def Obligations.YawDeflectionLearning : Prop :=
  (∀ (who : Writer) (w : Word) (s : State), s.chip.poseOk who = true → s.chip.rd MDL_YAW_CFG_PRI = 2 →
    ∃ t, exec (.yawHostWrite who w) s = .next t ∧ t.chip.rd MDL_YAW_HOST = w.toNat ∧
    (t.chip.yawSrc 2).rate = fx (toSigned 32 w.toNat) ∧ (t.chip.yawSrc 2).tb = some s.chip.tb ∧ t.chip.rd MDL_STAT_YAW_ACT = 2 ∧
    t.chip.mdl.omega = fx (toSigned 32 w.toNat)) ∧
  (∀ (s : State), s.chip.yawLive (yawCode (s.chip.rd MDL_YAW_CFG_PRI)) = false →
    s.chip.yawLive (yawCode (s.chip.rd MDL_YAW_CFG_SEC)) = false → s.chip.rd MDL_STAT_YAW_ACT ≠ 0 →
    ∃ t, exec (.yawSourceTimeout) s = .next t ∧ t.chip.rd MDL_STAT_YAW_ACT = 0 ∧ t.chip.mdl.omega = 0 ∧
    bitAt (t.chip.rd MDL_FLAGS) MDL_FLAGS_YAW_LOST = true ∧ SameRegs [(MDL_STAT_YAW_ACT, 0), (MDL_FLAGS, 0)] [.rInt] s.chip t.chip) ∧
  (∀ (d : Df) (r : Int) (rs : List Int) (s : State), (s.chip.dfl d.val).inbox = r :: rs → s.chip.rd MDL_DF_CFG_SRC d.val ≠ 0 →
    ∃ t, exec (.deflectionSample d) s = .next t ∧
    (t.chip.dfl d.val).target = (r - s.chip.rdI MDL_DF_OFS d.val) * s.chip.rdI MDL_DF_SCALE d.val * 65536 ∧
    (t.chip.dfl d.val).d = (s.chip.dfl d.val).d ∧ (t.chip.dfl d.val).inbox = rs ∧ (t.chip.dfl d.val).lost = false ∧
    (t.chip.dfl d.val).tb = some s.chip.tb ∧ SameRegs [(MDL_DF_VAL, d.val)] [] s.chip t.chip) ∧
  (∀ (d : Df) (s : State), s.chip.rd MDL_DF_CFG_SRC d.val ≠ 0 → (s.chip.dfl d.val).lost = false →
    (s.chip.dfl d.val).tb.getD 0 + s.chip.rd MDL_DF_CFG_TMO d.val * msTb ≤ s.chip.tb →
    ∃ t, exec (.deflectionTimeout d) s = .next t ∧ (t.chip.dfl d.val).lost = true ∧ (t.chip.dfl d.val).rate = 0 ∧
    (t.chip.dfl d.val).d = (s.chip.dfl d.val).d ∧ bitAt (t.chip.rd MDL_FLAGS) MDL_FLAGS_DEFL_LOST = true ∧
    SameRegs [(MDL_FLAGS, 0)] [.rInt] s.chip t.chip) ∧
  (∀ (who : Writer) (k : Ds) (s : State), s.chip.geomOk who = true → ∃ t, exec (.learnClr who) s = .next t ∧
    t.chip.rd MDL_SRC_SCALE_L k.val = s.chip.rd MDL_SRC_SCALE k.val % 2 ^ MDL_SRC_SCALE_L.w ∧
    t.chip.rd MDL_SRC_SCALE k.val = s.chip.rd MDL_SRC_SCALE k.val)

/-- AX_CFG and the snapshots of Mandrel and an axis -/
def Obligations.AxesAndSnapshots : Prop :=
  (∀ (who : Writer) (a : Ax) (w : Word) (s : State), (s.chip.isOwner who (s.chip.axOwner a.val) && s.chip.runs islAxis) = true →
    s.chip.axKind a.val = 0 → wordField AX_CFG_KIND w.toNat = 1 → ∃ t, exec (.axCfgWrite who a w) s = .next t ∧
    t.chip.rd AX_CFG_KIND a.val = 1 ∧ (t.chip.axis a.val).pos = 0 ∧ (t.chip.axis a.val).v = 0 ∧
    (t.chip.axis a.val).old.pos = (s.chip.axis a.val).pos ∧ t.chip.rd AX_STAT_STATE a.val = t.chip.axState a.val) ∧
  (∀ (who : Writer) (a : Ax) (w : Word) (s : State), (s.chip.isOwner who (s.chip.axOwner a.val) && s.chip.runs islAxis) = true →
    s.chip.axKind a.val ≠ 0 → wordField AX_CFG_KIND w.toNat = 0 → ∃ t, exec (.axCfgWrite who a w) s = .next t ∧
    t.chip.rd AX_CFG_KIND a.val = 0 ∧ t.chip.rd AX_STAT_STATE a.val = 0) ∧
  (∀ (s : State), s.chip.mdl.tickTb < s.chip.tb → ∃ t, exec (.mdlSnapshotRead) s = .next t ∧
    t.chip.rd MDL_TB_LO = s.chip.mdl.pub.tb % 2 ^ 32 ∧ t.chip.rd MDL_TB_HI = s.chip.mdl.pub.tb / 2 ^ 32 % 2 ^ 32 ∧
    t.chip.rd MDL_S_LO = ofSigned 40 (fxInt s.chip.mdl.pub.s) % 2 ^ 32 ∧
    t.chip.rd MDL_S_HI = ofSigned 40 (fxInt s.chip.mdl.pub.s) / 2 ^ 32 ∧ t.chip.rd MDL_YAW = s.chip.mdl.pub.psi % 2 ^ MDL_YAW.w ∧
    t.chip.rd MDL_E = ofSigned MDL_E.w (fxInt s.chip.mdl.pub.e) ∧ t.chip.rdata = s.chip.mdl.pub.tb % 2 ^ 32 ∧
    SameRegs ([MDL_TB_LO, MDL_TB_HI, MDL_S_LO, MDL_S_HI, MDL_V, MDL_A, MDL_YAW, MDL_YAWRATE, MDL_E, MDL_N].map fun f => (f, 0)) [] s.chip t.chip) ∧
  (∀ (s : State), s.chip.mdl.tickTb = s.chip.tb → ∃ t, exec (.mdlSnapshotRead) s = .next t ∧
    t.chip.rd MDL_TB_LO = s.chip.mdl.pubOld.tb % 2 ^ 32 ∧ t.chip.rd MDL_TB_HI = s.chip.mdl.pubOld.tb / 2 ^ 32 % 2 ^ 32 ∧
    t.chip.rd MDL_S_LO = ofSigned 40 (fxInt s.chip.mdl.pubOld.s) % 2 ^ 32 ∧
    t.chip.rd MDL_S_HI = ofSigned 40 (fxInt s.chip.mdl.pubOld.s) / 2 ^ 32 ∧
    t.chip.rd MDL_YAW = s.chip.mdl.pubOld.psi % 2 ^ MDL_YAW.w ∧ t.chip.rd MDL_E = ofSigned MDL_E.w (fxInt s.chip.mdl.pubOld.e) ∧
    t.chip.rdata = s.chip.mdl.pubOld.tb % 2 ^ 32 ∧
    SameRegs ([MDL_TB_LO, MDL_TB_HI, MDL_S_LO, MDL_S_HI, MDL_V, MDL_A, MDL_YAW, MDL_YAWRATE, MDL_E, MDL_N].map fun f => (f, 0)) [] s.chip t.chip) ∧
  (∀ (a : Ax) (s : State), s.chip.tickAt < s.chip.tb → ∃ t, exec (.axSnapshotRead a) s = .next t ∧
    t.chip.rd AX_POS_LO a.val = (s.chip.axis a.val).pos / 65536 % 2 ^ 32 ∧ t.chip.rd AX_TB_LO a.val = s.chip.tickAt % 2 ^ 32 ∧
    t.chip.rdata = (s.chip.axis a.val).pos / 65536 % 2 ^ 32 ∧
    SameRegs ([AX_POS_LO, AX_POS_HI, AX_TB_LO, AX_TB_HI, AX_V, AX_A, AX_FE, AX_FN].map fun f => (f, a.val)) [] s.chip t.chip) ∧
  (∀ (a : Ax) (s : State), s.chip.tickAt = s.chip.tb → ∃ t, exec (.axSnapshotRead a) s = .next t ∧
    t.chip.rd AX_POS_LO a.val = (s.chip.axis a.val).old.pos / 65536 % 2 ^ 32 ∧
    t.chip.rd AX_TB_LO a.val = (s.chip.tickAt - 200) % 2 ^ 32 ∧ t.chip.rdata = (s.chip.axis a.val).old.pos / 65536 % 2 ^ 32 ∧
    SameRegs ([AX_POS_LO, AX_POS_HI, AX_TB_LO, AX_TB_HI, AX_V, AX_A, AX_FE, AX_FN].map fun f => (f, a.val)) [] s.chip t.chip)

/-- Direct arming: refused with its code, or a pool slot taken -/
def Obligations.DirectArming : Prop :=
  (∀ (who : Writer) (ch : Ch) (c : Nat) (s : State), s.chip.chOk who ch.val = true → s.chip.armRefusal ch.val = c → c ≠ 0 →
    ∃ t, exec (.chArm who ch) s = .next t ∧ t.chip.rd CH_ARM_RES_CODE ch.val = c ∧
    bitAt (t.chip.rd CH_FLAGS ch.val) CH_FLAGS_ARM_REFUSED = true ∧ t.chip.pool = s.chip.pool ∧
    SameRegs [(CH_ARM_RES_CODE, ch.val), (CH_FLAGS, ch.val)] [.rInt] s.chip t.chip) ∧
  (∀ (who : Writer) (ch : Ch) (i : Nat) (s : State), s.chip.chOk who ch.val = true → s.chip.armRefusal ch.val = 0 →
    (s.chip.chAxis ch.val).v = 0 → (s.chip.chAxis ch.val).a = 0 → 0 < axDist (s.chip.chAxis ch.val) (s.chip.armTarget ch.val) →
    i = firstFree s.chip.pool (Config.poolChoice s.chip.frees % 16384) 16384 → ∃ t, exec (.chArm who ch) s = .next t ∧
    t.chip.ev i = some { s.chip.armEvent ch.val with gen := (tabGet s.chip.poolLast i {}).gen, order := s.chip.orderNo + 1 } ∧
    t.chip.rd CH_ARM_RES_CODE ch.val = 1 ∧ t.chip.rd CH_ARM_RES_HANDLE ch.val = handleOf i (tabGet s.chip.poolLast i {}).gen ∧
    t.chip.frees = s.chip.frees + 1 ∧
    SameRegs [(CH_ARM_RES_CODE, ch.val), (CH_ARM_RES_HANDLE, ch.val), (CH_POOL_LOW, 0)] [] s.chip t.chip)

/-- Cancel by handle, cancel of a channel -/
def Obligations.Cancelling : Prop :=
  (∀ (who : Writer) (ch : Ch) (h : BitVec 22) (e : Ev) (s : State), s.chip.chOk who ch.val = true →
    s.chip.ev (h.toNat % 16384) = some e → handleOf (h.toNat % 16384) e.gen = h.toNat → e.owner = writerCode who → e.jsn = none →
    e.life = .armed → s.chip.dueHead e.ch = none → ∃ t, exec (.chCancel who ch h) s = .next t ∧
    t.chip.rd CH_ARM_RES_CODE ch.val = 11 ∧ t.chip.ev (h.toNat % 16384) = none ∧ t.chip.rd CH_LAST_O_OUTCOME e.ch = 4 ∧
    t.chip.rd CH_LAST_O_CAUSE e.ch = 10 ∧ t.chip.rd CH_LAST_O_HANDLE e.ch = h.toNat ∧
    bitAt (t.chip.rd CH_FLAGS e.ch) CH_FLAGS_CANCELLED = true ∧
    SameRegs ((CH_ARM_RES_CODE, ch.val) :: [CH_LAST_O_HANDLE, CH_LAST_O_OUTCOME, CH_LAST_O_CAUSE, CH_LAST_O_OWNER, CH_LAST_O_JOUR, CH_FLAGS].map fun f => (f, e.ch)) [.rInt] s.chip t.chip) ∧
  (∀ (who : Writer) (ch : Ch) (h : BitVec 22) (s : State), s.chip.chOk who ch.val = true → s.chip.ev (h.toNat % 16384) = none →
    tabGet s.chip.poolLast (h.toNat % 16384) {} = {} → ∃ t, exec (.chCancel who ch h) s = .next t ∧
    t.chip.rd CH_ARM_RES_CODE ch.val = 13 ∧ t.chip.pool = s.chip.pool ∧ SameRegs [(CH_ARM_RES_CODE, ch.val)] [] s.chip t.chip) ∧
  (∀ (who : Writer) (ch : Ch) (i : Nat) (e : Ev) (s : State), s.chip.chOk who ch.val = true → s.chip.dueHead ch.val = none →
    s.chip.chEvs ch.val = [(i, e)] → s.chip.ev i = some e → e.owner = writerCode who → e.jsn = none → e.life = .armed →
    ∃ t, exec (.chCancelAll who ch) s = .next t ∧ t.chip.ev i = none ∧ t.chip.rd CH_LAST_O_OUTCOME ch.val = 4 ∧
    t.chip.rd CH_LAST_O_CAUSE ch.val = 10)

/-- Installation of a journaled event: armed, or refused -/
def Obligations.Installation : Prop :=
  (∀ (jsn : BitVec 48) (i : Nat) (e : Ev) (s : State), stagedIdx s.chip.jour.staged jsn.toNat = some i → s.chip.ev i = some e →
    e.life = .reserved → s.chip.runs islAxis = true → s.chip.installRefused e = false → e.deadline = 0 →
    (s.chip.chAxis e.ch).v = 0 → (s.chip.chAxis e.ch).a = 0 → 0 < axDist (s.chip.chAxis e.ch) e.target →
    posDiff e.target (s.chip.chAxis e.ch).posInt ≠ -549755813888 → ∃ t, exec (.eventInstall jsn) s = .next t ∧
    t.chip.ev i = some { e with life := .armed } ∧
    t.chip.jour.words = s.chip.jour.words ++ ([{ jsn := jsn.toNat, phase := 1, tb := s.chip.tb }] : List JWord) ∧
    SameRegs [] [] s.chip t.chip) ∧
  (∀ (jsn : BitVec 48) (i : Nat) (e : Ev) (s : State), stagedIdx s.chip.jour.staged jsn.toNat = some i → s.chip.ev i = some e →
    e.life = .reserved → s.chip.runs islAxis = true → s.chip.axKind (s.chip.rd CH_AXIS_AX e.ch) = 0 → e.jsn = some jsn.toNat →
    ∃ t, exec (.eventInstall jsn) s = .next t ∧ t.chip.ev i = none ∧
    t.chip.jour.words = s.chip.jour.words ++ ([{ jsn := jsn.toNat, phase := 3, outcome := 7, cause := 12, tb := s.chip.tb }] : List JWord) ∧
    SameRegs [] [] s.chip t.chip)

/-- Firing of a MARK, and the ends of events -/
def Obligations.EventEnds : Prop :=
  (∀ (ch : Ch) (h : Head) (e : Ev) (s : State), s.chip.dueHead ch.val = some h → h.key < 16384 → s.chip.ev h.key = some e →
    e.ch = ch.val → e.life = .armed → e.kind = 5 → e.bidir = false → e.jsn = none → e.deadline = 0 → h.bunch = false →
    h.load = false → s.chip.dgSafe ch.val = false → h.lateness h.tb ≤ s.chip.lateWin ch.val →
    h.lateness h.tb ≤ fx (s.chip.rd CH_TOL_TOL ch.val) → ∃ t, exec (.compareFire ch) s = .next t ∧ t.chip.ev h.key = none ∧
    t.chip.rd CH_LAST_O_OUTCOME ch.val = 1 ∧ t.chip.rd CH_LAST_O_CAUSE ch.val = 0 ∧ (t.chip.chan ch.val).lastTb = h.tb ∧
    t.chip.rd CH_CNT_A_EXEC ch.val = min (s.chip.rd CH_CNT_A_EXEC ch.val + 1) (2 ^ CH_CNT_A_EXEC.w - 1) ∧
    bitAt (t.chip.rd CH_FLAGS ch.val) CH_FLAGS_EXEC = true ∧ t.chip.rd CH_STAT_OUT ch.val = s.chip.rd CH_STAT_OUT ch.val ∧
    SameRegs ([CH_LAST_O_HANDLE, CH_LAST_O_OUTCOME, CH_LAST_O_CAUSE, CH_LAST_O_OWNER, CH_LAST_O_JOUR, CH_FLAGS, CH_CNT_A_EXEC].map fun f => (f, ch.val)) [.rInt] s.chip t.chip) ∧
  (∀ (ch : Ch) (p : Pulse) (e : Ev) (s : State), (s.chip.chan ch.val).pulses = [p] → p.endTb ≤ s.chip.chTb ch.val →
    s.chip.runs (clusterOf ch.val) = true → p.stays = false → p.taken = false → s.chip.ev p.idx = some e → e.ch = ch.val →
    e.outcome = 1 → e.cause = 0 → ∃ t, exec (.pulseEnd ch) s = .next t ∧ t.chip.ev p.idx = none ∧ (t.chip.chan ch.val).pulses = [] ∧
    t.chip.rd MAP_CH_STAT_OWN_ON ch.val = 0 ∧ t.chip.rd CH_STAT_OUT ch.val = 0 ∧ t.chip.rd CH_LAST_O_OUTCOME ch.val = 1 ∧
    bitAt (t.chip.rd CH_FLAGS ch.val) CH_FLAGS_EXEC = true) ∧
  (∀ (i : Pool) (e : Ev) (s : State), s.chip.ev i.val = some e → e.life = .armed → e.deadline ≠ 0 → e.deadline < s.chip.chTb e.ch →
    (s.chip.chan e.ch).heads = [] → ∃ t, exec (.eventDeadline i) s = .next t ∧ t.chip.ev i.val = none ∧
    t.chip.rd CH_LAST_O_OUTCOME e.ch = 3 ∧ t.chip.rd CH_LAST_O_CAUSE e.ch = 4 ∧
    bitAt (t.chip.rd CH_FLAGS e.ch) CH_FLAGS_MISSED = true ∧
    t.chip.rd CH_CNT_B_MISS e.ch = min (s.chip.rd CH_CNT_B_MISS e.ch + 1) (2 ^ CH_CNT_B_MISS.w - 1)) ∧
  (∀ (i : Pool) (e : Ev) (s : State), s.chip.ev i.val = some e → s.chip.overrun e = true →
    ∃ t, exec (.lateWindowExceeded i) s = .next t ∧ t.chip.ev i.val = none ∧ t.chip.rd CH_LAST_O_OUTCOME e.ch = 3 ∧
    t.chip.rd CH_LAST_O_CAUSE e.ch = 6 ∧ bitAt (t.chip.rd CH_FLAGS e.ch) CH_FLAGS_MISSED = true) ∧
  (∀ (i : Pool) (e : Ev) (s : State), s.chip.ev i.val = some e → e.life = .standing → e.fwd = false → (s.chip.chan e.ch).span ≠ 0 →
    axDist (s.chip.chAxis e.ch) e.target < -(fx ((s.chip.chan e.ch).span * 256)) → ∃ t, exec (.standingSpanEnd i) s = .next t ∧
    t.chip.ev i.val = none ∧ t.chip.chan e.ch = s.chip.chan e.ch ∧ SameRegs [] [] s.chip t.chip)

/-- Snapshot reads of a channel: last outcome, head, slots -/
def Obligations.ChannelReads : Prop :=
  (∀ (ch : Ch) (s : State), ∃ t, exec (.chLastRead ch) s = .next t ∧
    t.chip.rd CH_LAST_TB_LO ch.val = (s.chip.chan ch.val).lastTb % 2 ^ 32 ∧
    t.chip.rd CH_LAST_TB_HI ch.val = (s.chip.chan ch.val).lastTb / 2 ^ 32 % 2 ^ 32 ∧
    t.chip.rdata = s.chip.word [CH_LAST_O_HANDLE, CH_LAST_O_OUTCOME, CH_LAST_O_CAUSE, CH_LAST_O_OWNER, CH_LAST_O_JOUR] ch.val ∧
    SameRegs ([CH_LAST_LAT, CH_LAST_TB_LO, CH_LAST_TB_HI].map fun f => (f, ch.val)) [] s.chip t.chip) ∧
  (∀ (ch : Ch) (z f h : Nat) (s : State), s.chip.nearSeen ch.val = some (some z, f, h) → ∃ t, exec (.chHeadRead ch) s = .next t ∧
    t.chip.rd CH_HEAD_TB_LO ch.val = z % 2 ^ 32 ∧ t.chip.rd CH_HEAD_TB_HI ch.val = z / 2 ^ 32 % 2 ^ 32 ∧
    t.chip.rd CH_HEAD_F_LO ch.val = f % 2 ^ 32 ∧ t.chip.rd CH_HEAD_H ch.val = h % 2 ^ CH_HEAD_H.w ∧ t.chip.rdata = z % 2 ^ 32 ∧
    SameRegs ([CH_HEAD_TB_LO, CH_HEAD_TB_HI, CH_HEAD_F_LO, CH_HEAD_F_HI, CH_HEAD_H].map fun f => (f, ch.val)) [] s.chip t.chip) ∧
  (∀ (ch : Ch) (s : State), s.chip.nearSeen ch.val = none → ∃ t, exec (.chHeadRead ch) s = .next t ∧ t.chip.rdata = 2 ^ 32 - 1 ∧
    t.chip.rd CH_HEAD_TB_HI ch.val = 2 ^ 32 - 1) ∧
  (∀ (ch : Ch) (i : Nat) (e : Ev) (s : State), (s.chip.slotOrder ch.val)[s.chip.rd CH_SLOT_SEL_IDX ch.val]? = some (i, e) →
    e.life ≠ .reserved → ∃ t, exec (.chSlotInfoRead ch) s = .next t ∧ t.chip.rd CH_SLOT_INFO_VALID ch.val = 1 ∧
    t.chip.rd CH_SLOT_INFO_RESV ch.val = 0 ∧ t.chip.rd CH_SLOT_INFO_HANDLE ch.val = handleOf i e.gen % 2 ^ CH_SLOT_INFO_HANDLE.w ∧
    t.chip.rd CH_SLOT_INFO_KIND ch.val = e.kind % 2 ^ CH_SLOT_INFO_KIND.w ∧ t.chip.rd CH_SLOT_T_LO ch.val = e.target % 2 ^ 32) ∧
  (∀ (ch : Ch) (s : State), (s.chip.slotOrder ch.val)[s.chip.rd CH_SLOT_SEL_IDX ch.val]? = none →
    ∃ t, exec (.chSlotInfoRead ch) s = .next t ∧ t.chip.rd CH_SLOT_INFO_VALID ch.val = 0)

/-- CH_CTL, CH_AXIS and CH_ADV writes -/
def Obligations.ChannelSettings : Prop :=
  (∀ (who : Writer) (ch : Ch) (w : Word) (s : State), s.chip.chOk who ch.val = true → s.chip.pend ch.val ≠ 0 →
    wordField CH_CTL_MODE w.toNat = 0 → ∃ t, exec (.channelConfigWrite who ch 0 w) s = .next t ∧
    bitAt (t.chip.rd CH_FLAGS ch.val) CH_FLAGS_CFG_ERR = true ∧ t.chip.rd CH_CTL_MODE ch.val = s.chip.rd CH_CTL_MODE ch.val ∧
    t.chip.pool = s.chip.pool) ∧
  (∀ (who : Writer) (ch : Ch) (w : Word) (s : State), s.chip.chOk who ch.val = true → s.chip.pend ch.val ≠ 0 →
    ∃ t, exec (.channelConfigWrite who ch 1 w) s = .next t ∧ bitAt (t.chip.rd CH_FLAGS ch.val) CH_FLAGS_CFG_ERR = true ∧
    SameRegs [(CH_FLAGS, ch.val)] [.rInt] s.chip t.chip) ∧
  (∀ (who : Writer) (ch : Ch) (w : Word) (s : State), s.chip.chOk who ch.val = true → s.chip.pend ch.val = 0 →
    ∃ t, exec (.channelConfigWrite who ch 1 w) s = .next t ∧ t.chip.rd CH_AXIS_AX ch.val = wordField CH_AXIS_AX w.toNat ∧
    SameRegs [(CH_AXIS_AX, ch.val)] [] s.chip t.chip) ∧
  (∀ (who : Writer) (ch : Ch) (w : Word) (s : State), s.chip.chOk who ch.val = true →
    ∃ t, exec (.channelConfigWrite who ch 2 w) s = .next t ∧ t.chip.rd CH_ADV_MODE ch.val = wordField CH_ADV_MODE w.toNat ∧
    t.chip.rd CH_ADV_SHIFT ch.val = wordField CH_ADV_SHIFT w.toNat ∧
    SameRegs [(CH_ADV_MODE, ch.val), (CH_ADV_SHIFT, ch.val)] [] s.chip t.chip)

/-- Spatial pulse trains: pulse, frequency cap, pulse end, update, end of the length -/
def Obligations.Trains : Prop :=
  (∀ (ch : Ch) (h : Head) (z : Train) (s : State), s.chip.dueHead ch.val = some h → h.key = 16384 →
    (s.chip.chan ch.val).train = some z → z.tPrev = none → z.nextWidth = none → h.bunch = false →
    h.lateness h.tb ≤ s.chip.trainLate ch.val z → s.chip.trainBarred ch.val z = false → s.chip.gateOpen ch.val = true →
    ∃ t, exec (.trainPulseFire ch) s = .next t ∧ t.chip.rd MAP_CH_STAT_OWN_ON ch.val = 1 ∧ t.chip.rd CH_STAT_OUT ch.val = 1 ∧
    (t.chip.chan ch.val).trainOff = some (h.tb + z.width * 200) ∧
    t.chip.rd TR_PULSES ch.val = (s.chip.rd TR_PULSES ch.val + 1) % 2 ^ TR_PULSES.w ∧ t.chip.rd TR_STAT_SAT ch.val = 0) ∧
  (∀ (ch : Ch) (h : Head) (z : Train) (k p : Nat) (s : State), (s.chip.chan ch.val).train = some z → z.tPrev = some p →
    s.chip.dueHead ch.val = some h → h.key = 16384 → h.tb < s.chip.trainCapTb ch.val z → h.bunch = false → z.nextWidth = none →
    s.chip.trainBarred ch.val z = false → s.chip.gateOpen ch.val = true →
    k = s.chip.lastReached ch.val z (travel (s.chip.chAxis ch.val).v (s.chip.chAxis ch.val).a ((s.chip.trainCapTb ch.val z : Int) - s.chip.tickAt)) z.n (2 * ((travel (s.chip.chAxis ch.val).v (s.chip.chAxis ch.val).a ((s.chip.trainCapTb ch.val z : Int) - s.chip.tickAt) - axDist (s.chip.chAxis ch.val) (z.point z.n)) / fx (max 1 z.pitch)).toNat + 64) →
    ∃ t, exec (.trainRateLimitFire ch) s = .next t ∧ t.chip.rd TR_STAT_SAT ch.val = 1 ∧ t.chip.rd MAP_CH_STAT_OWN_ON ch.val = 1 ∧
    bitAt (t.chip.rd TR_FLAGS ch.val) TR_FLAGS_RATE_LIM = true ∧
    t.chip.rd TR_SKIP_CNT_SAT ch.val = min (s.chip.rd TR_SKIP_CNT_SAT ch.val + (k - z.n)) (2 ^ TR_SKIP_CNT_SAT.w - 1) ∧
    t.chip.rd TR_PULSES ch.val = (s.chip.rd TR_PULSES ch.val + 1) % 2 ^ TR_PULSES.w) ∧
  (∀ (ch : Ch) (z : Nat) (s : State), (s.chip.chan ch.val).trainOff = some z → z ≤ s.chip.chTb ch.val →
    s.chip.runs (clusterOf ch.val) = true → ∃ t, exec (.trainPulseOff ch) s = .next t ∧ (t.chip.chan ch.val).trainOff = none ∧
    t.chip.rd MAP_CH_STAT_OWN_ON ch.val = 0 ∧ t.chip.rd CH_STAT_OUT ch.val = 0) ∧
  (∀ (who : Writer) (ch : Ch) (s : State), s.chip.chOk who ch.val = true → (s.chip.chan ch.val).train = none →
    ∃ t, exec (.trainUpdate who ch) s = .next t ∧ bitAt (t.chip.rd TR_FLAGS ch.val) TR_FLAGS_UPD_REF = true ∧
    SameRegs [(TR_FLAGS, ch.val)] [] s.chip t.chip) ∧
  (∀ (who : Writer) (ch : Ch) (z : Train) (s : State), s.chip.chOk who ch.val = true → (s.chip.chan ch.val).train = some z →
    256 ≤ s.chip.rd TR_PITCH ch.val → s.chip.rd TR_WIDTH ch.val ≠ 0 → s.chip.rd TR_CFG_PRX ch.val = 0 →
    ∃ t, exec (.trainUpdate who ch) s = .next t ∧
    (t.chip.chan ch.val).train = some { z with off := z.offset z.n, ph := 0, n := 0, pitch := s.chip.rd TR_PITCH ch.val, width := s.chip.rd TR_WIDTH ch.val } ∧
    bitAt (t.chip.rd TR_FLAGS ch.val) TR_FLAGS_UPD_DONE = true ∧
    t.chip.rd TR_RUN_PITCH ch.val = s.chip.rd TR_PITCH ch.val % 2 ^ TR_RUN_PITCH.w ∧
    SameRegs ([TR_FLAGS, TR_RUN_PITCH, TR_RUN_WIDTH].map fun f => (f, ch.val)) [] s.chip t.chip) ∧
  (∀ (ch : Ch) (z : Train) (s : State), (s.chip.chan ch.val).train = some z → z.len ≠ 0 →
    axDist (s.chip.chAxis ch.val) z.tgt + fx (z.len * 256) < 0 → ∃ t, exec (.trainLengthEnd ch) s = .next t ∧
    (t.chip.chan ch.val).train = none ∧ t.chip.ev z.idx = none ∧ t.chip.rd TR_STAT_RUN ch.val = 0 ∧
    bitAt (t.chip.rd TR_FLAGS ch.val) TR_FLAGS_TR_END = true ∧
    SameRegs ([TR_FLAGS, TR_STAT_RUN, TR_STAT_SAT, TR_STAT_PAUSE].map fun f => (f, ch.val)) [] s.chip t.chip)

/-- The 1 ms update of a lattice and its PWM output -/
def Obligations.LatticeLoop : Prop :=
  (∀ (ch : Ch) (x : Chip) (c k : Int) (s : State), s.chip.latState ch.val = 2 → s.chip.due .lattice ch.val = true →
    s.chip.tb % 200000 = 0 → s.chip.latLive ch.val = true → s.chip.rd LAT_CFG_OUTSEL ch.val = 1 → (s.chip.lat ch.val).clampDir = 0 →
    x = (s.chip.stamp .lattice ch.val).latAdopt ch.val → x.latCommand ch.val = (c, k) → ∃ t, exec (.latticeUpdate ch) s = .next t ∧
    (t.chip.lat ch.val).c = k ∧ (t.chip.lat ch.val).integ = (s.chip.lat ch.val).integ + (s.chip.lat ch.val).e / 1000 ∧
    (t.chip.lat ch.val).pwmOut = clampI 0 65535 (x.latOut ch.val k) ∧ (t.chip.lat ch.val).acts = (x.lat ch.val).acts ∧
    t.chip.rd LAT_STAT_SAT ch.val = b2n (c != k) ∧ SameRegs [(LAT_C, ch.val), (LAT_STAT_SAT, ch.val)] [] s.chip t.chip) ∧
  (∀ (ch : Ch) (o on : Nat) (s : State), s.chip.latPwm ch.val = some o → s.chip.latState ch.val = 2 →
    (s.chip.lat ch.val).periodTb = none → s.chip.latLive ch.val = true → s.chip.safe (clusterOf o) = false →
    on = (2 * (s.chip.lat ch.val).pwmOut.toNat * s.chip.latPeriod ch.val + 65536) / 131072 → on ≠ 0 →
    ∃ t, exec (.latticePwmPeriod ch) s = .next t ∧ (t.chip.lat ch.val).periodTb = some s.chip.tb ∧
    (t.chip.lat ch.val).offTb = some (s.chip.tb + on) ∧ t.chip.rd CH_STAT_OUT o = 1) ∧
  (∀ (ch : Ch) (o z : Nat) (s : State), s.chip.latPwm ch.val = some o → (s.chip.lat ch.val).offTb = some z → z ≤ s.chip.tb →
    ∃ t, exec (.latticePwmOff ch) s = .next t ∧ (t.chip.lat ch.val).offTb = none ∧ t.chip.rd CH_STAT_OUT o = 0)

/-- Enabling a lattice, its stall, its way out of FAULT, the clears -/
def Obligations.LatticeStates : Prop :=
  (∀ (who : Writer) (ch : Ch) (w : Word) (s : State), s.chip.chOk who ch.val = true → s.chip.rd LAT_CFG_EN ch.val = 0 →
    bitAt w.toNat 0 = true → (latCfgFields.foldl (fun x f => x.wrFrom f ch.val w.toNat) s.chip).latRefused ch.val = false →
    ∃ t, exec (.latticeEnable who ch w) s = .next t ∧ t.chip.rd LAT_CFG_EN ch.val = 1 ∧ t.chip.rd LAT_STAT_STATE ch.val = 1 ∧
    t.chip.rd LAT_TUBE_L ch.val = s.chip.rd LAT_TUBE_T0 ch.val % 2 ^ LAT_TUBE_L.w ∧ t.chip.rd LAT_TRIM ch.val = 0 ∧
    t.chip.rd LAT_CFG_CELLS ch.val = wordField LAT_CFG_CELLS w.toNat) ∧
  (∀ (who : Writer) (ch : Ch) (w : Word) (s : State), s.chip.chOk who ch.val = true → s.chip.rd LAT_CFG_EN ch.val = 0 →
    bitAt w.toNat 0 = true → (latCfgFields.foldl (fun x f => x.wrFrom f ch.val w.toNat) s.chip).latRefused ch.val = true →
    ∃ t, exec (.latticeEnable who ch w) s = .next t ∧ t.chip.rd LAT_CFG_EN ch.val = 0 ∧
    bitAt (t.chip.rd LAT_FLAGS ch.val) LAT_FLAGS_CFG_ERR = true ∧ t.chip.rd LAT_STAT_STATE ch.val = s.chip.rd LAT_STAT_STATE ch.val) ∧
  (∀ (who : Writer) (ch : Ch) (w : Word) (s : State), s.chip.chOk who ch.val = true → s.chip.rd LAT_CFG_EN ch.val ≠ 0 →
    bitAt w.toNat 0 = false → ∃ t, exec (.latticeEnable who ch w) s = .next t ∧ t.chip.rd LAT_CFG_EN ch.val = 0 ∧
    t.chip.rd LAT_STAT_STATE ch.val = 0 ∧ t.chip.rd LAT_C ch.val = 0 ∧ t.chip.rd LAT_STAT_SAT ch.val = 0) ∧
  (∀ (ch : Ch) (s : State), s.chip.latState ch.val = 2 ∨ s.chip.latState ch.val = 3 → 0 < (s.chip.lat ch.val).c →
    800000000 * fxOne * (s.chip.rd LAT_CFG_CELLS ch.val : Int) ≤ ((s.chip.tb : Int) - (s.chip.lat ch.val).edgeTb) * (s.chip.lat ch.val).c * (s.chip.whlTc (s.chip.rd LAT_CFG_WHL ch.val) : Int) →
    ∃ t, exec (.latticeStall ch) s = .next t ∧ t.chip.rd LAT_STAT_STATE ch.val = 4 ∧ (t.chip.lat ch.val).c = 0 ∧
    (t.chip.lat ch.val).stalled = true ∧ (t.chip.lat ch.val).faultTb = s.chip.tb ∧
    bitAt (t.chip.rd LAT_FLAGS ch.val) LAT_FLAGS_WHL_LOST = true ∧ bitAt (t.chip.rd LAT_FLAGS ch.val) LAT_FLAGS_FAULT_IN = true ∧
    t.chip.rd LAT_C ch.val = 0) ∧
  (∀ (ch : Ch) (s : State), s.chip.latState ch.val = 4 → (s.chip.lat ch.val).stalled = true →
    (s.chip.lat ch.val).faultTb + 1000 * msTb ≤ s.chip.tb → ∃ t, exec (.latticeFaultExit ch) s = .next t ∧
    t.chip.rd LAT_STAT_STATE ch.val = 1 ∧ bitAt (t.chip.rd LAT_FLAGS ch.val) LAT_FLAGS_FAULT_OUT = true ∧
    (t.chip.lat ch.val).integ = 0) ∧
  (∀ (who : Writer) (ch : Ch) (s : State), s.chip.chOk who ch.val = true → ∃ t, exec (.tubeClr who ch) s = .next t ∧
    (t.chip.lat ch.val).tube = fx (s.chip.rd LAT_TUBE_T0 ch.val) ∧
    t.chip.rd LAT_TUBE_L ch.val = s.chip.rd LAT_TUBE_T0 ch.val % 2 ^ LAT_TUBE_L.w) ∧
  (∀ (who : Writer) (ch : Ch) (s : State), s.chip.chOk who ch.val = true → s.chip.latState ch.val = 0 →
    ∃ t, exec (.trimClr who ch) s = .next t ∧ (t.chip.lat ch.val).trim = 0 ∧ t.chip.rd LAT_TRIM ch.val = 0 ∧
    SameRegs [(LAT_TRIM, ch.val)] [] s.chip t.chip) ∧
  (∀ (who : Writer) (ch : Ch) (s : State), s.chip.chOk who ch.val = true → ∃ t, exec (.trimClr who ch) s = .next t ∧
    (t.chip.lat ch.val).trim = 0 ∧ t.chip.rd LAT_TRIM ch.val = 0)

/-- A release with no drop is a skip; a landing error is formed at its tick -/
def Obligations.LatticeDrops : Prop :=
  (∀ (ch : Ch) (r : Release) (s : State), (s.chip.lat ch.val).releases = [r] → r.closed = false → r.upto < s.chip.tb →
    r.drops = 0 → ∃ t, exec (.dropWindowEnd ch) s = .next t ∧ (t.chip.lat ch.val).releases = [] ∧
    (t.chip.lat ch.val).skips = (s.chip.lat ch.val).skips + 1 ∧
    t.chip.rd LAT_SKIP_CNT_SKIP ch.val = min (s.chip.rd LAT_SKIP_CNT_SKIP ch.val + 1) (2 ^ LAT_SKIP_CNT_SKIP.w - 1) ∧
    bitAt (t.chip.rd LAT_FLAGS ch.val) LAT_FLAGS_SKIP = true ∧
    ((s.chip.lat ch.val).skips = 15 → bitAt (t.chip.rd LAT_FLAGS ch.val) LAT_FLAGS_NO_SEED = true) ∧
    SameRegs [(LAT_SKIP_CNT_SKIP, ch.val), (LAT_FLAGS, ch.val)] [] s.chip t.chip) ∧
  (∀ (ch : Ch) (r : Release) (d : Nat) (s : State), (s.chip.lat ch.val).releases = [r] → r.closed = false → r.drops = 1 →
    r.eps = none → r.firstDrop = some d → d + s.chip.rd LAT_FALL ch.val * usTb < (s.chip.lat ch.val).tick →
    ∃ t, exec (.landingEvaluation ch) s = .next t ∧
    (t.chip.lat ch.val).releases = [{ r with eps := some (fxWrap (s.chip.lat ch.val).phi) }] ∧ SameRegs [] [] s.chip t.chip)

/-- The boost switch: grant, denial, end of a boost phase -/
def Obligations.BoostSwitch : Prop :=
  (∀ (b : Bank) (w : Nat) (ws : List Nat) (s : State), s.chip.waiting b.val = w :: ws → s.chip.boostFree b.val = true →
    s.chip.phase w = 1 → bankOf w = b.val → s.chip.iNow w < (s.chip.drv w).iBst → ∃ t, exec (.boostGrant b) s = .next t ∧
    t.chip.phase w = 2 ∧ t.chip.rd BK_STAT_HSB b.val = 1 ∧ t.chip.rd BK_STAT_HSS b.val = 0 ∧
    t.chip.rd BK_STAT_HOLDER b.val = w % 8 ∧ t.chip.rd CH_DRV_STAT_HSB_OWN w = 1 ∧ t.chip.rd CH_DRV_STAT_LS w = 1 ∧
    bitAt (t.chip.rd CH_DRV_FLAGS w) CH_DRV_FLAGS_BST_WAIT = true) ∧
  (∀ (ch : Ch) (s : State), s.chip.phase ch.val = 1 → (s.chip.drv ch.val).reqTb + s.chip.defer (bankOf ch.val) * usTb ≤ s.chip.tb →
    ∃ t, exec (.boostDeferTimeout ch) s = .next t ∧ t.chip.phase ch.val = 3 ∧
    bitAt (t.chip.rd CH_DRV_FLAGS ch.val) CH_DRV_FLAGS_BST_DENIED = true ∧
    bitAt (t.chip.rd BK_FLAGS (bankOf ch.val)) BK_FLAGS_BST_DENIED = true ∧
    t.chip.rd CH_DRV_DENY ch.val = min (s.chip.rd CH_DRV_DENY ch.val + 1) (2 ^ CH_DRV_DENY.w - 1) ∧
    t.chip.rd BK_STAT_HSB (bankOf ch.val) = s.chip.rd BK_STAT_HSB (bankOf ch.val)) ∧
  (∀ (ch : Ch) (code : Nat) (s : State), s.chip.phase ch.val = 2 → (s.chip.drv ch.val).iBst ≤ code →
    s.chip.waiting (bankOf ch.val) = [] → ∃ t, exec (.boostCurrentReached ch code) s = .next t ∧ t.chip.phase ch.val = 3 ∧
    t.chip.rd BK_STAT_HSB (bankOf ch.val) = 0 ∧ t.chip.rd CH_DRV_STAT_HSB_OWN ch.val = 0 ∧
    t.chip.rd BK_STAT_HSS (bankOf ch.val) = b2n (s.chip.rdB BK_CTL_EN (bankOf ch.val) && !s.chip.rdB BK_STAT_LOST (bankOf ch.val))) ∧
  (∀ (ch : Ch) (s : State), s.chip.phase ch.val = 2 → (s.chip.drv ch.val).hsbTb + (s.chip.drv ch.val).tBst * usTb ≤ s.chip.tb →
    s.chip.waiting (bankOf ch.val) = [] → ∃ t, exec (.boostTimeout ch) s = .next t ∧ t.chip.phase ch.val = 3 ∧
    t.chip.rd BK_STAT_HSB (bankOf ch.val) = 0 ∧ bitAt (t.chip.rd CH_DRV_FLAGS ch.val) CH_DRV_FLAGS_BST_TMO = true)

/-- Phases of an actuation and the window regulator -/
def Obligations.DrivePhases : Prop :=
  (∀ (ch : Ch) (s : State), s.chip.phase ch.val = 3 → (s.chip.drv ch.val).phaseTb + (s.chip.drv ch.val).tPk * usTb ≤ s.chip.tb →
    ∃ t, exec (.peakTimeout ch) s = .next t ∧ t.chip.phase ch.val = 4 ∧ (t.chip.drv ch.val).phaseTb = s.chip.tb) ∧
  (∀ (ch : Ch) (s : State), s.chip.phase ch.val = 4 → (s.chip.drv ch.val).maxon ≠ 0 →
    (s.chip.drv ch.val).startTb + (s.chip.drv ch.val).maxon * 20000000 ≤ s.chip.tb → ∃ t, exec (.maxonTimeout ch) s = .next t ∧
    t.chip.phase ch.val = 5 ∧ t.chip.rd CH_STAT_OUT ch.val = 0 ∧ t.chip.rd MAP_CH_STAT_OWN_ON ch.val = 0 ∧
    t.chip.rd CH_DRV_STAT_LS ch.val = 0 ∧ bitAt (t.chip.rd CH_DRV_FLAGS ch.val) CH_DRV_FLAGS_MAXON = true) ∧
  (∀ (ch : Ch) (code : Nat) (s : State), s.chip.phase ch.val = 3 → (s.chip.drv ch.val).blankTb ≤ s.chip.tb →
    (s.chip.drv ch.val).step = none → s.chip.rd CH_DRV_STAT_LS ch.val = 1 → s.chip.rd CH_DRV_PK_PK_HI ch.val ≤ code → code < 1024 →
    ∃ t, exec (.windowCrossing ch code) s = .next t ∧ t.chip.rd CH_DRV_STAT_LS ch.val = 0 ∧ t.chip.rd CH_DRV_I_NOW ch.val = code ∧
    t.chip.phase ch.val = 3 ∧ SameRegs ([CH_DRV_I_NOW, CH_DRV_STAT_LS, CH_DRV_STAT_FW].map fun f => (f, ch.val)) [] s.chip t.chip) ∧
  (∀ (ch : Ch) (code : Nat) (s : State), s.chip.phase ch.val = 3 → (s.chip.drv ch.val).blankTb ≤ s.chip.tb →
    (s.chip.drv ch.val).step = none → s.chip.rd CH_DRV_STAT_LS ch.val = 0 → code ≤ s.chip.rd CH_DRV_PK_PK_LO ch.val → code < 1024 →
    ∃ t, exec (.blankingExpiry ch code) s = .next t ∧ t.chip.rd CH_DRV_STAT_LS ch.val = 1 ∧ t.chip.rd CH_DRV_STAT_FW ch.val = 0 ∧
    t.chip.rd CH_DRV_I_NOW ch.val = code ∧
    SameRegs ([CH_DRV_I_NOW, CH_DRV_STAT_LS, CH_DRV_STAT_FW].map fun f => (f, ch.val)) [] s.chip t.chip) ∧
  (∀ (ch : Ch) (s : State), s.chip.phase ch.val = 5 → (s.chip.drv ch.val).phaseTb + 2 * usTb ≤ s.chip.tb →
    ∃ t, exec (.decayEnd ch) s = .next t ∧ t.chip.phase ch.val = 0 ∧ t.chip.rd CH_DRV_I_NOW ch.val = 0 ∧
    t.chip.rd CH_DRV_STAT_LS ch.val = 0 ∧ t.chip.rd CH_DRV_STAT_FW ch.val = 0 ∧ (t.chip.drv ch.val).offSince = s.chip.tb)

/-- Banks: enable, disable, supply limits, cluster silence -/
def Obligations.BankSupplies : Prop :=
  (∀ (who : Writer) (b : Bank) (w : Word) (s : State), s.chip.driveOk who = true → bitAt w.toNat 0 = true →
    s.chip.rd BK_CTL_EN b.val = 0 → ∃ t, exec (.bankEnableWrite who b w) s = .next t ∧ t.chip.rd BK_CTL_EN b.val = 1 ∧
    t.chip.rd BK_STAT_HSS b.val = b2n (!s.chip.rdB BK_STAT_HSB b.val && !s.chip.rdB BK_STAT_LOST b.val) ∧
    t.chip.rd BK_CTL_DEFER b.val = wordField BK_CTL_DEFER w.toNat) ∧
  (∀ (who : Writer) (b : Bank) (w : Word) (s : State), s.chip.driveOk who = true → bitAt w.toNat 0 = false →
    s.chip.rd BK_CTL_EN b.val = 1 → (bankChs b.val).all (fun c => s.chip.phase c == 0) = true →
    ∃ t, exec (.bankEnableWrite who b w) s = .next t ∧ t.chip.rd BK_CTL_EN b.val = 0 ∧ t.chip.rd BK_STAT_HSS b.val = 0) ∧
  (∀ (c : Cl) (s : State), s.chip.safe c.val = false → ∃ t, exec (.clusterSilence c) s = .next t ∧
    (t.chip.island c.val).safeSince = some s.chip.tb ∧ (clusterChs c.val).all (fun k => t.chip.rd CH_STAT_OUT k == 0) = true) ∧
  (∀ (b : Bank) (mv us : Nat) (s : State), mv < 7000 → 1000 ≤ us → ∃ t, exec (.vbkUndervoltage b mv us) s = .next t ∧
    t.chip.rd BK_STAT_UV b.val = 1 ∧ t.chip.rd BK_V_VBK b.val = mv / 10 % 2 ^ BK_V_VBK.w ∧
    bitAt (t.chip.rd BK_FLAGS b.val) BK_FLAGS_UV = true ∧
    SameRegs [(BK_STAT_UV, b.val), (BK_V_VBK, b.val), (BK_FLAGS, b.val)] [.rInt] s.chip t.chip) ∧
  (∀ (b : Bank) (mv us : Nat) (s : State), mv < 4500 → 10 ≤ us → s.chip.rd BK_STAT_LOST b.val = 0 →
    ∃ t, exec (.vbkLost b mv us) s = .next t ∧ t.chip.rd BK_STAT_LOST b.val = 1 ∧ t.chip.rd BK_STAT_HSS b.val = 0 ∧
    bitAt (t.chip.rd BK_FLAGS b.val) BK_FLAGS_VBK_LOST = true ∧ (t.chip.bank b.val).tooHigh = false) ∧
  (∀ (b : Bank) (mv us : Nat) (s : State), 6000 ≤ mv → 1000 ≤ us → (s.chip.bank b.val).tooHigh = false →
    s.chip.rd BK_STAT_LOST b.val = 1 → ∃ t, exec (.vbkBack b mv us) s = .next t ∧ t.chip.rd BK_STAT_LOST b.val = 0 ∧
    t.chip.rd BK_STAT_HSS b.val = b2n (s.chip.rdB BK_CTL_EN b.val && !s.chip.rdB BK_STAT_HSB b.val) ∧
    bitAt (t.chip.rd BK_FLAGS b.val) BK_FLAGS_VBK_BACK = true)

/-- The boost controller: start, READY, time limit, shunt limit, clamps, overvoltage -/
def Obligations.BoostController : Prop :=
  (∀ (who : Writer) (w : Word) (s : State), s.chip.driveOk who = true → bitAt w.toNat 0 = true → s.chip.rd BST_STAT_STATE = 0 →
    s.chip.boost.mv < (s.chip.wrFrom BST_CTL_VB_SET 0 w.toNat).vbReady → ∃ t, exec (.boostCtlEnable who w) s = .next t ∧
    t.chip.rd BST_CTL_EN = 1 ∧ t.chip.rd BST_STAT_STATE = 1 ∧ t.chip.boost.startTb = s.chip.tb ∧
    t.chip.boost.swKhz = clampN 20 100 (wordField BST_CTL_FREQ w.toNat) * 5 ∧
    t.chip.rd BST_CTL_VB_SET = wordField BST_CTL_VB_SET w.toNat) ∧
  (∀ (who : Writer) (w : Word) (s : State), s.chip.driveOk who = true → bitAt w.toNat 0 = false →
    ∃ t, exec (.boostCtlEnable who w) s = .next t ∧ t.chip.rd BST_CTL_EN = 0 ∧ t.chip.rd BST_STAT_STATE = 0 ∧
    t.chip.rd BST_STAT_READY = 0) ∧
  (∀ (mv : Nat) (s : State), s.chip.rd BST_STAT_STATE = 1 → s.chip.vbReady ≤ mv → ∃ t, exec (.boostReady mv) s = .next t ∧
    t.chip.rd BST_STAT_STATE = 2 ∧ t.chip.rd BST_STAT_READY = 1 ∧ bitAt (t.chip.rd BST_FLAGS) BST_FLAGS_READY_IN = true ∧
    t.chip.rd BST_V = mv / 10 % 2 ^ BST_V.w) ∧
  (∀ (s : State), s.chip.rd BST_STAT_STATE = 1 → s.chip.boost.startTb + 200 * msTb ≤ s.chip.tb →
    ∃ t, exec (.boostStartTimeout) s = .next t ∧ t.chip.rd BST_STAT_STATE = 3 ∧
    bitAt (t.chip.rd BST_FLAGS) BST_FLAGS_START_TMO = true ∧ SameRegs [(BST_STAT_STATE, 0), (BST_FLAGS, 0)] [.rInt] s.chip t.chip) ∧
  (∀ (mv : Nat) (s : State), s.chip.boost.swKhz ≠ 0 → s.chip.discClosed = true → clampN 10 150 (s.chip.rd BST_CTL_ILIM) ≤ mv →
    ∃ t, exec (.boostIlim mv) s = .next t ∧ bitAt (t.chip.rd BST_FLAGS) BST_FLAGS_ILIM = true ∧
    SameRegs [(BST_FLAGS, 0)] [.rInt] s.chip t.chip) ∧
  (∀ (mv : Nat) (s : State), s.chip.vbClamp < mv → s.chip.boost.clampA = false → ∃ t, exec (.railClampOn 0 mv) s = .next t ∧
    t.chip.rd BST_STAT_CLAMP = 1 ∧ t.chip.boost.clampA = true ∧ t.chip.boost.clampB = s.chip.boost.clampB ∧
    bitAt (t.chip.rd BST_FLAGS) BST_FLAGS_CLAMP_ON = true) ∧
  (∀ (mv : Nat) (s : State), 70000 ≤ mv → s.chip.rd BST_STAT_OV = 0 → ∃ t, exec (.boostOvIn mv) s = .next t ∧
    t.chip.rd BST_STAT_OV = 1 ∧ bitAt (t.chip.rd BST_FLAGS) BST_FLAGS_OV_IN = true) ∧
  (∀ (mv : Nat) (s : State), mv < 68000 → s.chip.rd BST_STAT_OV = 1 → ∃ t, exec (.boostOvOut mv) s = .next t ∧
    t.chip.rd BST_STAT_OV = 0 ∧ bitAt (t.chip.rd BST_FLAGS) BST_FLAGS_OV_OUT = true) ∧
  (∀ (d : Die) (mv : Nat) (s : State), s.chip.vbClamp < mv →
    (if d.val = 0 then s.chip.boost.clampA else s.chip.boost.clampB) = false → ∃ t, exec (.railClampOn d mv) s = .next t ∧
    t.chip.rd BST_STAT_CLAMP = 1 ∧ (if d.val = 0 then t.chip.boost.clampA else t.chip.boost.clampB) = true ∧
    bitAt (t.chip.rd BST_FLAGS) BST_FLAGS_CLAMP_ON = true)

/-- Limits of the drive: windows, duty, temperature, loss budget -/
def Obligations.DriveLimits : Prop :=
  (∀ (who : Writer) (ch : Ch) (w : Word) (s : State), s.chip.chOk who ch.val = true → w.toNat % 1024 < w.toNat / 65536 % 1024 →
    w.toNat / 65536 % 1024 ≤ s.chip.capPeak ch.val → ∃ t, exec (.chDrvWindowWrite who ch false w) s = .next t ∧
    t.chip.rd CH_DRV_PK_PK_LO ch.val = w.toNat % 1024 ∧ t.chip.rd CH_DRV_PK_PK_HI ch.val = w.toNat / 65536 % 1024 ∧
    SameRegs [(CH_DRV_PK_PK_LO, ch.val), (CH_DRV_PK_PK_HI, ch.val)] [] s.chip t.chip) ∧
  (∀ (who : Writer) (ch : Ch) (w : Word) (s : State), s.chip.chOk who ch.val = true → w.toNat / 65536 % 1024 ≤ w.toNat % 1024 →
    w.toNat / 65536 % 1024 ≤ s.chip.capPeak ch.val → ∃ t, exec (.chDrvWindowWrite who ch false w) s = .next t ∧
    bitAt (t.chip.rd CH_DRV_FLAGS ch.val) CH_DRV_FLAGS_CFG_ERR = true ∧
    t.chip.rd CH_DRV_PK_PK_HI ch.val = s.chip.rd CH_DRV_PK_PK_HI ch.val ∧
    t.chip.rd CH_DRV_PK_PK_LO ch.val = s.chip.rd CH_DRV_PK_PK_LO ch.val) ∧
  (∀ (ch : Ch) (s : State), s.chip.due .duty ch.val = true → (s.chip.drv ch.val).onIv = [(0, none)] → 200000000 ≤ s.chip.tb →
    s.chip.rd BK_LIM0_DUTY_MAX (bankOf ch.val) < 1000 → s.chip.rd CH_DRV_STAT_DUTY_LIM ch.val = 0 →
    ∃ t, exec (.dutyCheck ch) s = .next t ∧ t.chip.rd CH_DRV_DUTY ch.val = 1000 ∧ t.chip.rd CH_DRV_STAT_DUTY_LIM ch.val = 1 ∧
    t.chip.rd CH_STAT_OUT ch.val = 0 ∧ bitAt (t.chip.rd CH_DRV_FLAGS ch.val) CH_DRV_FLAGS_DUTY_LIM = true) ∧
  (∀ (ch : Ch) (z : Int) (s : State), s.chip.due .temperature ch.val = true → 175 ≤ z → z < 2 ^ (CH_DRV_TJ.w - 1) →
    s.chip.rd CH_DRV_STAT_THERM_OFF ch.val = 0 → ∃ t, exec (.channelTemperature ch z) s = .next t ∧
    t.chip.rdI CH_DRV_TJ ch.val = z ∧ t.chip.rd CH_DRV_STAT_THERM_OFF ch.val = 1 ∧ t.chip.rd CH_STAT_OUT ch.val = 0 ∧
    bitAt (t.chip.rd CH_DRV_FLAGS ch.val) CH_DRV_FLAGS_THERM_OFF = true) ∧
  (∀ (mw : Nat) (s : State), s.chip.due .dieLoss 0 = true → ∃ t, exec (.dieLossBudget 0 mw) s = .next t ∧
    t.chip.boost.pEstA = s.chip.boost.pEstA + (fx mw - s.chip.boost.pEstA) / 100 ∧
    t.chip.rd PWR_STAT_P_EST 0 = (clampI 0 65535 (fxInt (s.chip.boost.pEstA + (fx mw - s.chip.boost.pEstA) / 100))).toNat ∧
    t.chip.boost.pEstB = s.chip.boost.pEstB) ∧
  (∀ (d : Die) (mw : Nat) (z : Int) (s : State), s.chip.due .dieLoss d.val = true →
    z = (if d.val = 0 then s.chip.boost.pEstA else s.chip.boost.pEstB) → ∃ t, exec (.dieLossBudget d mw) s = .next t ∧
    (if d.val = 0 then t.chip.boost.pEstA else t.chip.boost.pEstB) = z + (fx mw - z) / 100 ∧
    t.chip.rd PWR_STAT_P_EST d.val = (clampI 0 65535 (fxInt (z + (fx mw - z) / 100))).toNat) ∧
  (∀ (who : Writer) (ch : Ch) (w : Word) (s : State), s.chip.chOk who ch.val = true → w.toNat % 1024 < w.toNat / 65536 % 1024 →
    w.toNat / 65536 % 1024 ≤ s.chip.capHold ch.val → ∃ t, exec (.chDrvWindowWrite who ch true w) s = .next t ∧
    t.chip.rd CH_DRV_HD_HD_LO ch.val = w.toNat % 1024 ∧ t.chip.rd CH_DRV_HD_HD_HI ch.val = w.toNat / 65536 % 1024)

/-- Node tests: start, request, results high and mid -/
def Obligations.NodeTests : Prop :=
  (∀ (ch : Ch) (s : State), s.chip.nodeReady ch.val = true → (s.chip.drv ch.val).nodeReq = true →
    ∃ t, exec (.nodeTestStart ch) s = .next t ∧
    t.chip.drv ch.val = { s.chip.drv ch.val with nodeTb := some s.chip.tb, nodeReq := false } ∧ SameRegs [] [] s.chip t.chip) ∧
  (∀ (who : Writer) (ch : Ch) (s : State), (s.chip.isOwner who (s.chip.chOwner ch.val) && s.chip.runs (clusterOf ch.val)) = true →
    ∃ t, exec (.nodeTestRequest who ch) s = .next t ∧ t.chip.drv ch.val = { s.chip.drv ch.val with nodeReq := true } ∧
    SameRegs [] [] s.chip t.chip) ∧
  (∀ (ch : Ch) (v b : Int) (z : Nat) (s : State), (s.chip.drv ch.val).nodeTb = some z → z + 200 * usTb ≤ s.chip.tb → b - 3000 ≤ v →
    s.chip.rd DG_STAT_STATE ch.val = 1 → ∃ t, exec (.nodeTestResult ch v b) s = .next t ∧ t.chip.rd DG_STAT_OFF_RES ch.val = 1 ∧
    t.chip.rd DG_STAT_STATE ch.val = 0 ∧ t.chip.cond ch.val 3 = false ∧ (t.chip.drv ch.val).nodePrev = 1 ∧
    (t.chip.drv ch.val).nodeTb = none) ∧
  (∀ (ch : Ch) (v b : Int) (z : Nat) (s : State), (s.chip.drv ch.val).nodeTb = some z → z + 200 * usTb ≤ s.chip.tb → v < b - 3000 →
    1500 ≤ v → (s.chip.drv ch.val).nodePrev = 2 → (s.chip.drv ch.val).det = none → s.chip.rd DG_STAT_COND ch.val = 0 →
    s.chip.rd DG_STAT_STATE ch.val ≠ 2 → s.chip.rd DG_CFG_OL_SAFE ch.val = 0 → ∃ t, exec (.nodeTestResult ch v b) s = .next t ∧
    t.chip.rd DG_STAT_OFF_RES ch.val = 2 ∧ t.chip.cond ch.val 0 = true ∧ t.chip.rd DG_STAT_STATE ch.val = 0 ∧
    bitAt (t.chip.rd DG_FLAGS ch.val) 0 = true ∧ t.chip.rd CH_STAT_OUT ch.val = s.chip.rd CH_STAT_OUT ch.val) ∧
  (∀ (ch : Ch) (v b : Int) (z : Nat) (s : State), (s.chip.drv ch.val).nodeTb = some z → z + 200 * usTb ≤ s.chip.tb → v < b - 3000 →
    v < 1500 → (s.chip.drv ch.val).nodePrev = 3 → s.chip.rd DG_STAT_COND ch.val = 0 → s.chip.rd DG_STAT_STATE ch.val ≠ 2 →
    s.chip.rd DG_CFG_SG_BANK ch.val = 0 → ∃ t, exec (.nodeTestResult ch v b) s = .next t ∧ t.chip.rd DG_STAT_OFF_RES ch.val = 3 ∧
    t.chip.cond ch.val 1 = true ∧ t.chip.rd DG_STAT_STATE ch.val = 2 ∧ t.chip.rd CH_STAT_OUT ch.val = 0 ∧
    bitAt (t.chip.rd DG_FLAGS ch.val) DG_FLAGS_SAFE_IN = true)

/-- Supply tests of a bank: start, request, result, a node that stays high -/
def Obligations.SupplyTests : Prop :=
  (∀ (b : Bank) (s : State), s.chip.supReady b.val = true → (s.chip.bank b.val).supReq = true →
    ∃ t, exec (.supplyTestStart b) s = .next t ∧ t.chip.rd DGB_STAT_BUSY b.val = 1 ∧
    t.chip.bank b.val = { s.chip.bank b.val with supTb := some s.chip.tb, supReq := false } ∧
    SameRegs [(DGB_STAT_BUSY, b.val)] [] s.chip t.chip) ∧
  (∀ (who : Writer) (b : Bank) (s : State), s.chip.driveOk who = true → ∃ t, exec (.supplyTestRequest who b) s = .next t ∧
    t.chip.bank b.val = { s.chip.bank b.val with supReq := true } ∧ SameRegs [] [] s.chip t.chip) ∧
  (∀ (b : Bank) (x : BitVec 8) (z : Nat) (s : State), (s.chip.bank b.val).supTb = some z → z + 100 * usTb ≤ s.chip.tb →
    ∃ t, exec (.supplyTestResult b x) s = .next t ∧ t.chip.rd DGB_STAT_BUSY b.val = 0 ∧ t.chip.rd DGB_STAT_NODE_HI b.val = 0 ∧
    t.chip.rd DGB_STAT_SB_CH b.val = x.toNat ∧ bitAt (t.chip.rd DGB_FLAGS b.val) DGB_FLAGS_TEST_DONE = true ∧
    (t.chip.bank b.val).supTb = none) ∧
  (∀ (b : Bank) (z : Nat) (s : State), (s.chip.bank b.val).supTb = some z → z + 5 * msTb ≤ s.chip.tb →
    ∃ t, exec (.supplyTestNodeHi b) s = .next t ∧ t.chip.rd DGB_STAT_BUSY b.val = 0 ∧ t.chip.rd DGB_STAT_NODE_HI b.val = 1 ∧
    bitAt (t.chip.rd DGB_FLAGS b.val) DGB_FLAGS_NODE_HI = true ∧
    SameRegs [(DGB_STAT_BUSY, b.val), (DGB_STAT_NODE_HI, b.val), (DGB_FLAGS, b.val)] [.rInt] s.chip t.chip)

/-- On-state detections and the clear of SAFE -/
def Obligations.OnStateFaults : Prop :=
  (∀ (ch : Ch) (ma : Nat) (s : State), 6000 ≤ ma → s.chip.rd DG_STAT_STATE ch.val ≠ 2 →
    ∃ t, exec (.shortCircuitTrip ch ma) s = .next t ∧ t.chip.rd DG_STAT_STATE ch.val = 2 ∧ t.chip.cond ch.val 2 = true ∧
    t.chip.rd CH_STAT_OUT ch.val = 0 ∧ t.chip.rd MAP_CH_STAT_OWN_ON ch.val = 0 ∧
    t.chip.rd DG_CNT_TRIPS ch.val = min (s.chip.rd DG_CNT_TRIPS ch.val + 1) (2 ^ DG_CNT_TRIPS.w - 1) ∧
    bitAt (t.chip.rd DG_FLAGS ch.val) DG_FLAGS_SAFE_IN = true) ∧
  (∀ (ch : Ch) (code z : Nat) (s : State), s.chip.onTest ch.val = some z → s.chip.rd DG_ON0_I_FAST ch.val ≤ code →
    s.chip.tb ≤ z + max 1 (s.chip.rd DG_ON0_T_FAST ch.val) * usTb → s.chip.rd DG_STAT_STATE ch.val ≠ 2 →
    ∃ t, exec (.tooFast ch code) s = .next t ∧ t.chip.rd DG_STAT_STATE ch.val = 2 ∧ t.chip.cond ch.val 2 = true ∧
    t.chip.rd CH_STAT_OUT ch.val = 0) ∧
  (∀ (ch : Ch) (code z : Nat) (s : State), s.chip.onTest ch.val = some z → (s.chip.drv ch.val).plain = false →
    (s.chip.drv ch.val).noRiseDone = false → z + max 1 (s.chip.rd DG_ON1_T_NORISE ch.val) * usTb ≤ s.chip.tb →
    s.chip.phase ch.val = 3 → code < s.chip.rd DG_ON1_I_NORISE ch.val → s.chip.rd DG_STAT_STATE ch.val = 0 →
    ∃ t, exec (.noRise ch code) s = .next t ∧ t.chip.rd DG_STAT_STATE ch.val = 1 ∧ t.chip.cond ch.val 3 = true ∧
    (t.chip.drv ch.val).noRise = true ∧ t.chip.phase ch.val = 3) ∧
  (∀ (ch : Ch) (v : Int) (z : Nat) (s : State), (s.chip.drv ch.val).offTb = some z → z + 20 * usTb ≤ s.chip.tb →
    s.chip.acting ch.val = false → s.chip.rd DG_CFG_ON_EN ch.val = 1 → (s.chip.drv ch.val).fromOff = true →
    s.chip.rd DG_ON1_I_NORISE ch.val ≤ (s.chip.drv ch.val).offCode → v < 1500 → s.chip.cond ch.val 1 = false →
    s.chip.rd DG_CFG_SG_BANK ch.val = 0 → s.chip.rd DG_STAT_STATE ch.val ≠ 2 → ∃ t, exec (.heldLowAtTurnOff ch v) s = .next t ∧
    t.chip.rd DG_STAT_STATE ch.val = 2 ∧ t.chip.cond ch.val 1 = true) ∧
  (∀ (who : Writer) (ch : Ch) (s : State), (s.chip.isOwner who (s.chip.chOwner ch.val) && s.chip.runs (clusterOf ch.val)) = true →
    s.chip.rd DG_STAT_STATE ch.val = 2 → (s.chip.drv ch.val).det = none → s.chip.cond ch.val 0 = false →
    s.chip.cond ch.val 1 = false → (s.chip.drv ch.val).sbSup = false → ∃ t, exec (.diagClear who ch) s = .next t ∧
    t.chip.rd DG_STAT_STATE ch.val = 0 ∧ t.chip.cond ch.val 2 = false ∧ bitAt (t.chip.rd DG_FLAGS ch.val) DG_FLAGS_SAFE_OUT = true) ∧
  (∀ (who : Writer) (ch : Ch) (s : State), (s.chip.isOwner who (s.chip.chOwner ch.val) && s.chip.runs (clusterOf ch.val)) = true →
    s.chip.rd DG_STAT_STATE ch.val = 2 → s.chip.cond ch.val 1 = true → ∃ t, exec (.diagClear who ch) s = .next t ∧
    t.chip.rd DG_STAT_STATE ch.val = 2 ∧ t.chip.rd DG_STAT_COND ch.val = s.chip.rd DG_STAT_COND ch.val ∧
    bitAt (t.chip.rd DG_FLAGS ch.val) DG_FLAGS_CLR_REF = true)

/-- The notch detector and the lanes of waveform capture -/
def Obligations.NotchAndCapture : Prop :=
  (∀ (ch : Ch) (xs : List (Nat × Nat)) (z : Nat) (s : State), (s.chip.drv ch.val).notch = true → s.chip.acting ch.val = true →
    s.chip.tb ≤ (s.chip.drv ch.val).fireTb + (s.chip.drv ch.val).nMax * 2000 → s.chip.notchIn ch.val xs = some z →
    ∃ t, exec (.notchFound ch xs) s = .next t ∧
    t.chip.rd DG_NOTCH_T_M ch.val = (z - (s.chip.drv ch.val).fireTb) % 2 ^ DG_NOTCH_T_M.w ∧
    t.chip.rd DG_NOTCH_T_MEAS ch.val = b2n ((s.chip.drv ch.val).fromOff && !(s.chip.drv ch.val).denied) ∧
    t.chip.rd DG_NOTCH_TB_LO ch.val = z % 2 ^ 32 ∧ (t.chip.drv ch.val).notchTb = z ∧
    bitAt (t.chip.rd DG_FLAGS ch.val) DG_FLAGS_NOTCH = true ∧ (t.chip.drv ch.val).notch = false) ∧
  (∀ (ch : Ch) (s : State), (s.chip.drv ch.val).notch = true →
    (s.chip.drv ch.val).fireTb + (s.chip.drv ch.val).nMax * 2000 ≤ s.chip.tb → ∃ t, exec (.notchTimeout ch) s = .next t ∧
    (t.chip.drv ch.val).notch = false ∧
    t.chip.rd DG_CNT_NO_NOTCH ch.val = min (s.chip.rd DG_CNT_NO_NOTCH ch.val + 1) (2 ^ DG_CNT_NO_NOTCH.w - 1) ∧
    bitAt (t.chip.rd DG_FLAGS ch.val) DG_FLAGS_NO_NOTCH = true) ∧
  (∀ (ch : Ch) (s : State), (s.chip.drv ch.val).notchAt ≠ some s.chip.tb → ∃ t, exec (.dgNotchRead ch) s = .next t ∧
    t.chip.rd DG_NOTCH_TB_LO ch.val = (s.chip.drv ch.val).notchTb % 2 ^ 32 ∧
    t.chip.rd DG_NOTCH_TB_HI ch.val = (s.chip.drv ch.val).notchTb / 2 ^ 32 % 2 ^ 32 ∧
    t.chip.rdata = s.chip.word [DG_NOTCH_T_M, DG_NOTCH_T_MEAS] ch.val ∧
    SameRegs [(DG_NOTCH_TB_LO, ch.val), (DG_NOTCH_TB_HI, ch.val)] [] s.chip t.chip) ∧
  (∀ (c : Cap) (l : Fin 4) (xs : List (BitVec 12)) (s : State), Memory.wf s.chip.mem = true → s.chip.lane c.val l.val = 2 →
    xs.length = s.chip.laneLen c.val * s.chip.lanePer c.val →
    s.chip.laneTb c.val l.val + s.chip.laneLen c.val * s.chip.laneStep c.val ≤ s.chip.tb → s.chip.rd CAP_CFG_EN c.val = 0 →
    tabGet s.chip.capReq c.val [] = [] → ∃ t, exec (.captureLaneDone c l xs) s = .next t ∧ t.chip.lane c.val l.val = 3 ∧
    bitAt (t.chip.rd CAP_FLAGS c.val) CAP_FLAGS_DONE = true ∧
    t.chip.load (s.chip.laneBase c.val l.val) (2 * s.chip.laneLen c.val) = (s.chip.laneWords c.val l.val xs).flatMap (leBytes 2) ∧
    (∀ a, a < s.chip.laneBase c.val l.val ∨ s.chip.laneBase c.val l.val + 2 * s.chip.laneLen c.val ≤ a → t.chip.byte a = s.chip.byte a) ∧
    SameRegs [(CAP_L_CH_LSTATE, laneIx c.val l.val), (CAP_FLAGS, c.val)] [.rInt] s.chip t.chip) ∧
  (∀ (who : Writer) (c : Cap) (s : State), s.chip.driveOk who = true → s.chip.lane c.val 0 = 3 → s.chip.rd CAP_CFG_EN c.val = 0 →
    tabGet s.chip.capReq c.val [] = [] → ∃ t, exec (.captureRelease who c 1) s = .next t ∧ t.chip.lane c.val 0 = 0 ∧
    SameRegs [(CAP_L_CH_LSTATE, laneIx c.val 0)] [] s.chip t.chip) ∧
  (∀ (who : Writer) (c : Cap) (i : Fin 24) (s : State), s.chip.driveOk who = true → s.chip.lane c.val 0 = 0 →
    tabGet s.chip.capReq c.val [] = [] → ∃ t, exec (.captureRequest who c i) s = .next t ∧ t.chip.lane c.val 0 = 1 ∧
    t.chip.rd CAP_L_CH (laneIx c.val 0) = (24 * c.val + i.val) % 2 ^ CAP_L_CH.w ∧ tabGet t.chip.capReq c.val [] = []) ∧
  (∀ (c : Cap) (l : Fin 4) (s : State), s.chip.lane c.val l.val = 1 →
    tabGet s.chip.capTb (laneIx c.val l.val) 0 + 100 * msTb ≤ s.chip.tb → s.chip.rd CAP_CFG_EN c.val = 0 →
    tabGet s.chip.capReq c.val [] = [] → ∃ t, exec (.captureArmTimeout c l) s = .next t ∧ t.chip.lane c.val l.val = 0 ∧
    bitAt (t.chip.rd CAP_FLAGS c.val) CAP_FLAGS_SKIPPED = true)

/-- The modulators: result, start, control, input, result read -/
def Obligations.Modulators : Prop :=
  (∀ (u : Adc) (v : NanoVolt) (s : State), s.chip.rd ADC_CTL_MODE u.val = 1 → s.chip.rd ADC_STAT_PAIRED u.val = 0 →
    s.chip.adcClock u.val = true → (s.chip.adcU u.val).next ≤ s.chip.tb → s.chip.adcPair u.val = false →
    adcClip (inDiff (s.chip.adcU u.val).input) (adcCode (inDiff (s.chip.adcU u.val).input) v) = adcCode (inDiff (s.chip.adcU u.val).input) v →
    ∃ t, exec (.adcResult u v) s = .next t ∧
    t.chip.rd ADC_RES u.val = adcWord (s.chip.rdB ADC_CTL_ALIGN u.val) (adcCode (inDiff (s.chip.adcU u.val).input) v) % 2 ^ ADC_RES.w ∧
    t.chip.rd ADC_STAT_NEW u.val = 1 ∧ bitAt (t.chip.rd ADC_FLAGS u.val) ADC_FLAGS_DRDY = true ∧
    (s.chip.rd ADC_STAT_NEW u.val = 1 → bitAt (t.chip.rd ADC_FLAGS u.val) ADC_FLAGS_OVR = true)) ∧
  (∀ (who : Writer) (u : Adc) (s : State), s.chip.sysOk who = true → s.chip.adcClock u.val = true →
    s.chip.rd ADC_STAT_PAIRED u.val = 0 → s.chip.rd ADC_CTL_MODE u.val = 2 → s.chip.rd ADC_STAT_BUSY u.val = 0 →
    ∃ t, exec (.adcStart who u) s = .next t ∧ t.chip.rd ADC_STAT_BUSY u.val = 1 ∧ (t.chip.adcU u.val).start = s.chip.tb ∧
    (t.chip.adcU u.val).input = s.chip.rd ADC_SEL_INPUT u.val ∧ SameRegs [(ADC_STAT_BUSY, u.val)] [] s.chip t.chip) ∧
  (∀ (who : Writer) (u : Adc) (s : State), s.chip.sysOk who = true → s.chip.adcClock u.val = true →
    s.chip.rd ADC_STAT_BUSY u.val = 1 → ∃ t, exec (.adcStart who u) s = .next t ∧
    bitAt (t.chip.rd ADC_FLAGS u.val) ADC_FLAGS_CFG_ERR = true ∧ t.chip.adc = s.chip.adc ∧
    SameRegs [(ADC_FLAGS, u.val)] [.rInt] s.chip t.chip) ∧
  (∀ (who : Writer) (u : Adc) (w : Word) (s : State), s.chip.sysOk who = true → s.chip.adcClock u.val = true →
    s.chip.rd ADC_STAT_PAIRED u.val = 0 → s.chip.adcPair u.val = false → bitAt w.toNat 6 = false →
    s.chip.rd ADC_CTL_MODE u.val ≠ wordField ADC_CTL_MODE w.toNat → ∃ t, exec (.adcCtlWrite who u w) s = .next t ∧
    t.chip.rd ADC_CTL_MODE u.val = wordField ADC_CTL_MODE w.toNat ∧ t.chip.rd ADC_CTL_RATE u.val = wordField ADC_CTL_RATE w.toNat ∧
    t.chip.rd ADC_CTL_ALIGN u.val = b2n (bitAt w.toNat 5) ∧
    SameRegs ([ADC_CTL_MODE, ADC_CTL_RATE, ADC_CTL_ALIGN, ADC_STAT_BUSY].map fun f => (f, u.val)) [] s.chip t.chip) ∧
  (∀ (who : Writer) (u : Adc) (w : Word) (s : State), s.chip.sysOk who = true → s.chip.adcClock u.val = true →
    s.chip.rd ADC_STAT_PAIRED u.val = 1 → ∃ t, exec (.adcCtlWrite who u w) s = .next t ∧
    bitAt (t.chip.rd ADC_FLAGS u.val) ADC_FLAGS_CFG_ERR = true ∧ SameRegs [(ADC_FLAGS, u.val)] [.rInt] s.chip t.chip) ∧
  (∀ (who : Writer) (u : Adc) (w : Word) (s : State), s.chip.sysOk who = true → s.chip.adcClock u.val = true →
    s.chip.rd ADC_STAT_PAIRED u.val = 0 → adcReach u.val (w.toNat % 1024) = true → ∃ t, exec (.adcSelWrite who u w) s = .next t ∧
    t.chip.rd ADC_SEL_INPUT u.val = w.toNat % 1024 ∧ SameRegs [(ADC_SEL_INPUT, u.val)] [] s.chip t.chip) ∧
  (∀ (u : Adc) (s : State), s.chip.adcClock u.val = true → ∃ t, exec (.adcResRead u) s = .next t ∧
    t.chip.rdata = s.chip.rd ADC_RES u.val ∧ t.chip.rd ADC_STAT_NEW u.val = 0 ∧
    t.chip.rd ADC_RES_TB_LO u.val = (s.chip.adcU u.val).resTb % 2 ^ 32 ∧
    SameRegs ([ADC_RES_INFO_INPUT, ADC_RES_INFO_UNIT, ADC_RES_INFO_CLIP, ADC_RES_TB_LO, ADC_RES_TB_HI, ADC_STAT_NEW].map fun f => (f, u.val)) [] s.chip t.chip)

/-- Assay: start, entry, store -/
def Obligations.AssayEntries : Prop :=
  (∀ (who : Writer) (w : Word) (s : State), s.chip.sysOk who = true → s.chip.asClock = true → bitAt w.toNat 0 = true →
    s.chip.rd AS_CTL_EN = 0 → ∃ t, exec (.assayStart who w) s = .next t ∧ t.chip.rd AS_CTL_EN = 1 ∧ t.chip.rd AS_STAT_RUN = 1 ∧
    t.chip.rd AS_STAT_ENTRY = 0 ∧ t.chip.assay = ({} : Assay)) ∧
  (∀ (s : State), s.chip.rd AS_CTL_EN = 1 → s.chip.asClock = true → s.chip.assay.run = none →
    s.chip.rd AS_E0_EN s.chip.assay.pos = 1 → s.chip.rd ADC_CTL_MODE (s.chip.asEntry s.chip.assay.pos).unit = 3 →
    adcReach (s.chip.asEntry s.chip.assay.pos).unit (s.chip.asEntry s.chip.assay.pos).input = true →
    ∃ t, exec (.assayEntryStart) s = .next t ∧ t.chip.assay.run = some (s.chip.asEntry s.chip.assay.pos) ∧ t.chip.assay.ran = true ∧
    t.chip.rd AS_STAT_ENTRY = s.chip.assay.pos % 2 ^ AS_STAT_ENTRY.w ∧
    t.chip.rd ADC_STAT_BUSY (s.chip.asEntry s.chip.assay.pos).unit = 1) ∧
  (∀ (r : AsRun) (v : Int) (s : State), s.chip.assay.run = some r → s.chip.asClock = true → s.chip.rd ADC_CTL_MODE r.unit = 3 →
    r.rep = 0 → r.start + asSpan r ≤ s.chip.tb →
    asOut r (adcWord false (meanAway [adcClip (inDiff r.input) (adcCode (inDiff r.input) v)])) = false → r.last = false →
    r.entry < 63 → ∃ t, exec (.assayEntryStore [v]) s = .next t ∧
    t.chip.rd AS_RES r.entry = adcWord false (meanAway [adcClip (inDiff r.input) (adcCode (inDiff r.input) v)]) % 2 ^ AS_RES.w ∧
    t.chip.rd ADC_STAT_BUSY r.unit = 0 ∧ t.chip.assay = { s.chip.assay with run := none, pos := r.entry + 1 })

/-- Comparators and the classes of seed sensors: change, first evaluation, configuration, snapshot -/
def Obligations.Comparators : Prop :=
  (∀ (n : Cmp) (code z k : Nat) (s : State), s.chip.rd CMP_STAT_VALID n.val = 1 → s.chip.cmpClock n.val = true →
    s.chip.stable z (s.chip.rd CMP_CFG_FILT n.val) = true →
    k = windowNext (s.chip.rd CMP_STAT_STATE n.val) (s.chip.rd CMP_THR_LO n.val) (s.chip.rd CMP_THR_HI n.val) (s.chip.rd CMP_CFG_HYS n.val) code →
    k ≠ s.chip.rd CMP_STAT_STATE n.val → ∃ t, exec (.comparatorChange (.cmp n) code z) s = .next t ∧
    t.chip.rd CMP_STAT_STATE n.val = k ∧ t.chip.rd CMP_CNT n.val = min (s.chip.rd CMP_CNT n.val + 1) (2 ^ CMP_CNT.w - 1) ∧
    (t.chip.cmpU n.val).tb = z ∧ bitAt (t.chip.rd CMP_FLAGS n.val) k = true ∧
    SameRegs [(CMP_STAT_STATE, n.val), (CMP_CNT, n.val), (CMP_FLAGS, n.val)] [.rInt] s.chip t.chip) ∧
  (∀ (n : Cmp) (code : Nat) (s : State), s.chip.rd CMP_CFG_EN n.val = 1 → s.chip.rd CMP_STAT_VALID n.val = 0 →
    s.chip.cmpClock n.val = true → (s.chip.cmpU n.val).enTb + usTb ≤ s.chip.tb →
    ∃ t, exec (.comparatorFirstEval (.cmp n) code) s = .next t ∧
    t.chip.rd CMP_STAT_STATE n.val = windowNext (s.chip.rd CMP_STAT_STATE n.val) (s.chip.rd CMP_THR_LO n.val) (s.chip.rd CMP_THR_HI n.val) (s.chip.rd CMP_CFG_HYS n.val) code ∧
    t.chip.rd CMP_STAT_VALID n.val = 1 ∧ SameRegs [(CMP_STAT_STATE, n.val), (CMP_STAT_VALID, n.val)] [] s.chip t.chip) ∧
  (∀ (who : Writer) (n : Cmp) (w : Word) (s : State), s.chip.sysOk who = true → s.chip.cmpClock n.val = true →
    w.toNat % 1024 < w.toNat / 65536 % 1024 → ∃ t, exec (.comparatorCfgWrite who (.cmp n) true w) s = .next t ∧
    t.chip.rd CMP_THR_LO n.val = w.toNat % 1024 ∧ t.chip.rd CMP_THR_HI n.val = w.toNat / 65536 % 1024 ∧
    SameRegs [(CMP_THR_LO, n.val), (CMP_THR_HI, n.val)] [] s.chip t.chip) ∧
  (∀ (who : Writer) (n : Cmp) (w : Word) (s : State), s.chip.sysOk who = true → s.chip.cmpClock n.val = true →
    w.toNat / 65536 % 1024 ≤ w.toNat % 1024 → ∃ t, exec (.comparatorCfgWrite who (.cmp n) true w) s = .next t ∧
    bitAt (t.chip.rd CMP_FLAGS n.val) CMP_FLAGS_CFG_ERR = true ∧ SameRegs [(CMP_FLAGS, n.val)] [.rInt] s.chip t.chip) ∧
  (∀ (n : Cmp) (s : State), s.chip.cmpClock n.val = true → ∃ t, exec (.cmpTbRead n) s = .next t ∧
    t.chip.rdata = (s.chip.cmpU n.val).tb % 2 ^ 32 ∧ t.chip.rd CMP_TB_HI n.val = (s.chip.cmpU n.val).tb / 2 ^ 32 % 2 ^ 32 ∧
    SameRegs [(CMP_TB_LO, n.val), (CMP_TB_HI, n.val)] [] s.chip t.chip) ∧
  (∀ (n : Sds) (code z k : Nat) (s : State), s.chip.rd SDS_STAT_VALID n.val = 1 → s.chip.sdsClock n.val = true →
    s.chip.sdsForced n.val = false → s.chip.stable z (s.chip.rd SDS_CFG_FILT n.val) = true →
    k = windowNext (s.chip.rd SDS_STAT_STATE n.val) (s.chip.rd SDS_THR_LO n.val) (s.chip.rd SDS_THR_HI n.val) (s.chip.rd SDS_CFG_HYS n.val) code →
    k ≠ s.chip.rd SDS_STAT_STATE n.val → ∃ t, exec (.comparatorChange (.sds n) code z) s = .next t ∧
    t.chip.rd SDS_STAT_STATE n.val = k ∧ (k = s.chip.sdsActive n.val → (t.chip.sdsU n.val).exc = some z)) ∧
  (∀ (n : Sds) (code : Nat) (s : State), s.chip.rd SDS_CFG_EN n.val = 1 → s.chip.rd SDS_STAT_VALID n.val = 0 →
    s.chip.sdsClock n.val = true → (s.chip.sdsU n.val).enTb + usTb ≤ s.chip.tb → s.chip.sdsForced n.val = false →
    ∃ t, exec (.comparatorFirstEval (.sds n) code) s = .next t ∧
    t.chip.rd SDS_STAT_STATE n.val = windowNext (s.chip.rd SDS_STAT_STATE n.val) (s.chip.rd SDS_THR_LO n.val) (s.chip.rd SDS_THR_HI n.val) (s.chip.rd SDS_CFG_HYS n.val) code ∧
    t.chip.rd SDS_STAT_VALID n.val = 1 ∧ SameRegs [(SDS_STAT_STATE, n.val), (SDS_STAT_VALID, n.val)] [] s.chip t.chip) ∧
  (∀ (who : Writer) (n : Cmp) (w : Word) (s : State), s.chip.sysOk who = true → s.chip.cmpClock n.val = true →
    s.chip.rd CMP_CFG_EN n.val = 0 → bitAt w.toNat 0 = true → wordField CMP_CFG_AIN w.toNat / 24 = n.val / 8 →
    ∃ t, exec (.comparatorCfgWrite who (.cmp n) false w) s = .next t ∧ t.chip.rd CMP_CFG_EN n.val = 1 ∧
    t.chip.rd CMP_CFG_AIN n.val = wordField CMP_CFG_AIN w.toNat ∧ t.chip.rd CMP_CFG_HYS n.val = wordField CMP_CFG_HYS w.toNat ∧
    t.chip.rd CMP_STAT_VALID n.val = 0 ∧ (t.chip.cmpU n.val).enTb = s.chip.tb) ∧
  (∀ (who : Writer) (n : Sds) (w : Word) (s : State), s.chip.sysOk who = true → s.chip.sdsClock n.val = true →
    s.chip.rd SDS_CFG_EN n.val = 0 → bitAt w.toNat 0 = true → ∃ t, exec (.comparatorCfgWrite who (.sds n) false w) s = .next t ∧
    t.chip.rd SDS_CFG_EN n.val = 1 ∧ t.chip.rd SDS_CFG_POL n.val = wordField SDS_CFG_POL w.toNat ∧
    t.chip.rd SDS_STAT_VALID n.val = 0 ∧ (t.chip.sdsU n.val).enTb = s.chip.tb)

/-- Seed sensors: drop, blocked, wiring conditions, pull test, snapshot -/
def Obligations.SeedSensors : Prop :=
  (∀ (n : Sds) (a b : Nat) (r : List (Nat × Nat × Bool)) (s : State), (s.chip.sdsU n.val).ended = (a, b, false) :: r →
    s.chip.rd SDS_WID_W_MIN n.val * usTb ≤ b - a → b - a ≤ s.chip.rd SDS_WID_W_MAX n.val * 10 * usTb →
    ∃ t, exec (.sdsExcursionEnd n) s = .next t ∧ t.chip.rd SDS_DROPS n.val = (s.chip.rd SDS_DROPS n.val + 1) % 2 ^ SDS_DROPS.w ∧
    (t.chip.sdsU n.val).dropTb = a + (b - a) / 2 ∧ (t.chip.sdsU n.val).ended = r ∧
    bitAt (t.chip.rd SDS_FLAGS n.val) SDS_FLAGS_DROP = true) ∧
  (∀ (n : Sds) (a : Nat) (s : State), (s.chip.sdsU n.val).exc = some a → (s.chip.sdsU n.val).blocked = false →
    s.chip.sdsClock n.val = true → a + s.chip.rd SDS_WID_W_MAX n.val * 10 * usTb < s.chip.tbOf islObserver →
    ∃ t, exec (.sdsBlocked n) s = .next t ∧ (t.chip.sdsU n.val).blocked = true ∧ bitAt (t.chip.rd SDS_STAT_COND n.val) 3 = true ∧
    bitAt (t.chip.rd SDS_FLAGS n.val) SDS_FLAGS_BLOCKED = true ∧
    t.chip.rd SDS_CNT_BLOCKED n.val = min (s.chip.rd SDS_CNT_BLOCKED n.val + 1) (2 ^ SDS_CNT_BLOCKED.w - 1)) ∧
  (∀ (n : Sds) (mv : Int) (s : State), s.chip.rd SDS_CFG_DIAG_EN n.val = 1 → s.chip.due .sdsDiag n.val = true →
    s.chip.sdsClock n.val = true → (s.chip.sdsU n.val).present = [0, 1, 0] → (s.chip.sdsU n.val).absent = [0, 0, 0] → 6000 < mv →
    bitAt (s.chip.rd SDS_STAT_COND n.val) 1 = false → ∃ t, exec (.sdsDiagEvaluation n mv) s = .next t ∧
    bitAt (t.chip.rd SDS_STAT_COND n.val) 1 = true ∧ t.chip.rd SDS_STAT_STATE n.val = 1 ∧ (t.chip.sdsU n.val).exc = none ∧
    bitAt (t.chip.rd SDS_FLAGS n.val) (SDS_FLAGS_OPEN + 1) = true) ∧
  (∀ (n : Sds) (p q : Bool) (s : State), s.chip.rd SDS_CFG_DIAG_EN n.val = 1 → s.chip.rd SDS_CFG_PULL n.val = 3 →
    s.chip.due .sdsPull n.val = true → s.chip.sdsClock n.val = true → s.chip.sdsForced n.val = false →
    ∃ t, exec (.sdsPullTest n p q) s = .next t ∧ (t.chip.sdsU n.val).pullOpen = (p && q) ∧ SameRegs [] [] s.chip t.chip) ∧
  (∀ (n : Sds) (s : State), s.chip.sdsClock n.val = true → ∃ t, exec (.sdsDropRead n) s = .next t ∧
    t.chip.rdata = (s.chip.sdsU n.val).dropTb % 2 ^ 32 ∧ t.chip.rd SDS_DROP_W n.val = (s.chip.sdsU n.val).dropW % 2 ^ SDS_DROP_W.w ∧
    SameRegs [(SDS_DROP_TB_LO, n.val), (SDS_DROP_TB_HI, n.val), (SDS_DROP_W, n.val)] [] s.chip t.chip) ∧
  (∀ (n : Sds) (mv : Int) (s : State), s.chip.rd SDS_CFG_DIAG_EN n.val = 1 → s.chip.due .sdsDiag n.val = true →
    s.chip.sdsClock n.val = true → mv ≤ 6000 → -500 ≤ mv → (s.chip.sdsU n.val).pullOpen = false →
    s.chip.rd SDS_STAT_COND n.val = 0 → (s.chip.sdsU n.val).present.length = 3 → (s.chip.sdsU n.val).absent.length = 3 →
    ∃ t, exec (.sdsDiagEvaluation n mv) s = .next t ∧ t.chip.rd SDS_STAT_COND n.val = 0 ∧ (t.chip.sdsU n.val).present = [0, 0, 0] ∧
    t.chip.rd SDS_STAT_STATE n.val = s.chip.rd SDS_STAT_STATE n.val ∧ t.chip.rd SDS_FLAGS n.val = s.chip.rd SDS_FLAGS n.val)

/-- General timers: tick, wrap, capture, reads, freeze, write -/
def Obligations.Timers : Prop :=
  (∀ (n : Tim) (s : State), s.chip.rd TIM_CTL_EN n.val = 1 → s.chip.timClock n.val = true → s.chip.rd TIM_STAT_FROZEN n.val = 0 →
    s.chip.rd TIM_CTL_CLK n.val = 0 → (s.chip.tmr n.val).last + (s.chip.rd TIM_CTL_PRESC n.val + 1) ≤ s.chip.tb →
    s.chip.rd TIM_CTL_MODE n.val = 0 → ∃ t, exec (.timerTick n) s = .next t ∧
    t.chip.rd TIM_CNT n.val = (s.chip.rd TIM_CNT n.val + 1) % 2 ^ 32 ∧
    (t.chip.tmr n.val).last = (s.chip.tmr n.val).last + (s.chip.rd TIM_CTL_PRESC n.val + 1) ∧
    SameRegs [(TIM_CNT, n.val), (TIM_STAT_OUT, n.val), (TIM_FLAGS, n.val)] [.rInt] s.chip t.chip) ∧
  (∀ (n : Tim) (s : State), s.chip.rd TIM_CTL_EN n.val = 1 → s.chip.timClock n.val = true → s.chip.rd TIM_STAT_FROZEN n.val = 0 →
    s.chip.rd TIM_CTL_CLK n.val = 0 → (s.chip.tmr n.val).last + (s.chip.rd TIM_CTL_PRESC n.val + 1) ≤ s.chip.tb →
    s.chip.rd TIM_CTL_MODE n.val = 1 → s.chip.rd TIM_CNT n.val = s.chip.rd TIM_PER n.val → ∃ t, exec (.timerTick n) s = .next t ∧
    t.chip.rd TIM_CNT n.val = 0 ∧ bitAt (t.chip.rd TIM_FLAGS n.val) TIM_FLAGS_WRAP = true ∧
    (s.chip.rd TIM_CMP n.val = 0 → bitAt (t.chip.rd TIM_FLAGS n.val) TIM_FLAGS_CMP = true)) ∧
  (∀ (n : Tim) (r : Bool) (s : State), s.chip.rd TIM_CTL_EN n.val = 1 → s.chip.timClock n.val = true →
    bitAt (s.chip.rd TIM_SRC_CAP_EDGE n.val) (if r then 0 else 1) = true → ∃ t, exec (.timerCapture n r) s = .next t ∧
    t.chip.rd TIM_CAP n.val = s.chip.rd TIM_CNT n.val % 2 ^ TIM_CAP.w ∧ t.chip.rd TIM_STAT_NEW n.val = 1 ∧
    (t.chip.tmr n.val).capTb = s.chip.tbOf islObserver ∧ bitAt (t.chip.rd TIM_FLAGS n.val) TIM_FLAGS_CAP = true ∧
    (s.chip.rd TIM_STAT_NEW n.val = 1 → bitAt (t.chip.rd TIM_FLAGS n.val) TIM_FLAGS_OVR = true)) ∧
  (∀ (n : Tim) (s : State), s.chip.timClock n.val = true → ∃ t, exec (.timCapRead n) s = .next t ∧
    t.chip.rdata = s.chip.rd TIM_CAP n.val ∧ t.chip.rd TIM_STAT_NEW n.val = 0 ∧
    t.chip.rd TIM_CAP_TB_LO n.val = (s.chip.tmr n.val).capTb % 2 ^ 32 ∧
    SameRegs ([TIM_CAP_TB_LO, TIM_CAP_TB_HI, TIM_STAT_NEW].map fun f => (f, n.val)) [] s.chip t.chip) ∧
  (∀ (n : Tim) (s : State), s.chip.rd PROT_DBG_C = 1 → bitAt (s.chip.rd TIM_CTL_DBG_FRZ n.val) 1 = true →
    s.chip.rd TIM_STAT_FROZEN n.val = 0 → ∃ t, exec (.timerFreeze .c true) s = .next t ∧ t.chip.coreC.halted = true ∧
    t.chip.rd TIM_STAT_FROZEN n.val = 1 ∧ t.chip.rd TIM_CNT n.val = s.chip.rd TIM_CNT n.val) ∧
  (∀ (who : Writer) (n : Tim) (w : Word) (s : State), s.chip.sysOk who = true → s.chip.timClock n.val = true →
    ∃ t, exec (.timerCtlWrite who n true w) s = .next t ∧ t.chip.rd TIM_CNT n.val = w.toNat ∧ (t.chip.tmr n.val).last = s.chip.tb ∧
    SameRegs [(TIM_CNT, n.val)] [] s.chip t.chip) ∧
  (∀ (n : Tim) (s : State), s.chip.rd PROT_DBG_V = 1 → s.chip.rd KEY_STAT_LIFE = 0 →
    bitAt (s.chip.rd TIM_CTL_DBG_FRZ n.val) 0 = true → s.chip.rd TIM_STAT_FROZEN n.val = 0 →
    ∃ t, exec (.timerFreeze .v true) s = .next t ∧ t.chip.coreV.halted = true ∧ t.chip.rd TIM_STAT_FROZEN n.val = 1 ∧
    t.chip.rd TIM_CNT n.val = s.chip.rd TIM_CNT n.val) ∧
  (∀ (k : Core) (n : Tim) (s : State), s.chip.rd TIM_STAT_FROZEN n.val = 1 → (s.chip.core (1 - coreNo k)).halted = false →
    ∃ t, exec (.timerFreeze k false) s = .next t ∧ (t.chip.core (coreNo k)).halted = false ∧ t.chip.rd TIM_STAT_FROZEN n.val = 0 ∧
    (t.chip.tmr n.val).last = s.chip.tb - (s.chip.tmr n.val).phase) ∧
  (∀ (who : Writer) (n : Tim) (w : Word) (s : State), s.chip.sysOk who = true → s.chip.timClock n.val = true →
    wordField TIM_CTL_MODE w.toNat ≠ 2 → ∃ t, exec (.timerCtlWrite who n false w) s = .next t ∧
    t.chip.rd TIM_CTL_EN n.val = wordField TIM_CTL_EN w.toNat ∧ t.chip.rd TIM_CTL_MODE n.val = wordField TIM_CTL_MODE w.toNat ∧
    t.chip.rd TIM_CTL_PRESC n.val = wordField TIM_CTL_PRESC w.toNat ∧ t.chip.rd TIM_CNT n.val = s.chip.rd TIM_CNT n.val)

/-- Filigree: JUMP, WAITFOR, LOADK, ADDK, MOVE, DRIVE -/
def Obligations.EngineFlow : Prop :=
  (∀ (e : Fe) (p : BitVec 64) (s : State), s.chip.feReady e.val = true → opOf (s.chip.feWord e.val) = 0 →
    feIllegal (s.chip.feWord e.val) = false → (s.chip.feWord e.val) / 256 % 16 = 0 → ∃ t, exec (.jump e p) s = .next t ∧
    t.chip.rd FE_STAT_PC e.val = (s.chip.feWord e.val) % 64 ∧ t.chip.rd FE_STAT_STALL e.val = 0 ∧
    (t.chip.eng e.val).hold = holdOf (s.chip.feWord e.val) ∧
    SameRegs ([FE_STAT_PC, FE_STAT_STALL, FE_STAT_CAUSE].map fun f => (f, e.val)) [] s.chip t.chip) ∧
  (∀ (e : Fe) (p : BitVec 64) (s : State), s.chip.feReady e.val = true → opOf (s.chip.feWord e.val) = 1 →
    feIllegal (s.chip.feWord e.val) = false →
    (s.chip.sample p).feSig e.val ((s.chip.feWord e.val) / 512 % 4) = bitAt (s.chip.feWord e.val) 11 →
    bitAt (s.chip.feWord e.val) 8 = false → ∃ t, exec (.waitfor e p) s = .next t ∧
    t.chip.rd FE_STAT_PC e.val = (if endOf (s.chip.feWord e.val) then s.chip.rd FE_EXEC_LOOP e.val else (s.chip.rd FE_STAT_PC e.val + 1) % 64) % 2 ^ FE_STAT_PC.w ∧
    t.chip.rd FE_STAT_STALL e.val = 0 ∧
    SameRegs ([FE_STAT_PC, FE_STAT_STALL, FE_STAT_CAUSE].map fun f => (f, e.val)) [] s.chip t.chip) ∧
  (∀ (e : Fe) (p : BitVec 64) (s : State), s.chip.feReady e.val = true → opOf (s.chip.feWord e.val) = 1 →
    feIllegal (s.chip.feWord e.val) = false →
    (s.chip.sample p).feSig e.val ((s.chip.feWord e.val) / 512 % 4) = !bitAt (s.chip.feWord e.val) 11 →
    bitAt (s.chip.feWord e.val) 8 = true → ∃ t, exec (.waitfor e p) s = .next t ∧ t.chip.rd FE_STAT_STALL e.val = 1 ∧
    t.chip.rd FE_STAT_CAUSE e.val = 1 ∧ t.chip.rd FE_B e.val = (s.chip.rd FE_B e.val + 1) % 2 ^ 32 ∧
    (t.chip.eng e.val).word = (s.chip.feWord e.val) ∧ t.chip.rd FE_STAT_PC e.val = s.chip.rd FE_STAT_PC e.val) ∧
  (∀ (e : Fe) (s : State), s.chip.feReady e.val = true → opOf (s.chip.feWord e.val) = 5 → feIllegal (s.chip.feWord e.val) = false →
    bitAt (s.chip.feWord e.val) 11 = false → ∃ t, exec (.loadk e) s = .next t ∧
    t.chip.rd FE_A e.val = (s.chip.feWord e.val) % 2048 ∧
    t.chip.rd FE_STAT_PC e.val = (if endOf (s.chip.feWord e.val) then s.chip.rd FE_EXEC_LOOP e.val else (s.chip.rd FE_STAT_PC e.val + 1) % 64) % 2 ^ FE_STAT_PC.w ∧
    SameRegs ([FE_STAT_PC, FE_STAT_STALL, FE_STAT_CAUSE, FE_A].map fun f => (f, e.val)) [] s.chip t.chip) ∧
  (∀ (e : Fe) (s : State), s.chip.feReady e.val = true → opOf (s.chip.feWord e.val) = 6 → feIllegal (s.chip.feWord e.val) = false →
    bitAt (s.chip.feWord e.val) 11 = true → ∃ t, exec (.addk e) s = .next t ∧
    t.chip.rd FE_B e.val = ofSigned 32 ((s.chip.rd FE_B e.val : Int) + toSigned 11 (s.chip.feWord e.val)) ∧
    t.chip.rd FE_STAT_PC e.val = (if endOf (s.chip.feWord e.val) then s.chip.rd FE_EXEC_LOOP e.val else (s.chip.rd FE_STAT_PC e.val + 1) % 64) % 2 ^ FE_STAT_PC.w ∧
    SameRegs ([FE_STAT_PC, FE_STAT_STALL, FE_STAT_CAUSE, FE_B].map fun f => (f, e.val)) [] s.chip t.chip) ∧
  (∀ (e : Fe) (p : BitVec 64) (s : State), s.chip.feReady e.val = true → opOf (s.chip.feWord e.val) = 4 →
    feIllegal (s.chip.feWord e.val) = false → (s.chip.feWord e.val) / 256 % 16 = 1 → ∃ t, exec (.move e p) s = .next t ∧
    t.chip.rd FE_A e.val = moveFn ((s.chip.feWord e.val) / 4 % 4) ((s.chip.sample p).moveSrc e.val ((s.chip.feWord e.val) / 16 % 16)) % 2 ^ 32 ∧
    t.chip.rd FE_STAT_PC e.val = (if endOf (s.chip.feWord e.val) then s.chip.rd FE_EXEC_LOOP e.val else (s.chip.rd FE_STAT_PC e.val + 1) % 64) % 2 ^ FE_STAT_PC.w ∧
    SameRegs ([FE_STAT_PC, FE_STAT_STALL, FE_STAT_CAUSE, FE_A].map fun f => (f, e.val)) [] s.chip t.chip) ∧
  (∀ (e : Fe) (s : State), s.chip.feReady e.val = true → opOf (s.chip.feWord e.val) = 7 → feIllegal (s.chip.feWord e.val) = false →
    bitAt (s.chip.feWord e.val) 8 = false → patOf (s.chip.feWord e.val) = 0 → ∃ t, exec (.drive e) s = .next t ∧
    (t.chip.eng e.val).out = latchPut (s.chip.eng e.val).out (s.chip.rd FE_PINS_SET_BASE e.val) (min 8 (s.chip.rd FE_PINS_SET_N e.val)) ((s.chip.feWord e.val) % 256) ∧
    (t.chip.eng e.val).dir = (s.chip.eng e.val).dir ∧
    t.chip.rd FE_STAT_PC e.val = (if endOf (s.chip.feWord e.val) then s.chip.rd FE_EXEC_LOOP e.val else (s.chip.rd FE_STAT_PC e.val + 1) % 64) % 2 ^ FE_STAT_PC.w ∧
    SameRegs ([FE_STAT_PC, FE_STAT_STALL, FE_STAT_CAUSE].map fun f => (f, e.val)) [] s.chip t.chip) ∧
  (∀ (e : Fe) (p : BitVec 64) (b : Bool) (s : State), s.chip.feReady e.val = true → opOf (s.chip.feWord e.val) = 0 →
    feIllegal (s.chip.feWord e.val) = false → ((s.chip.sample p).jumpTest e.val ((s.chip.feWord e.val) / 256 % 16)).1 = b →
    ∃ t, exec (.jump e p) s = .next t ∧
    t.chip.rd FE_STAT_PC e.val = (if b then (s.chip.feWord e.val) % 64 else if endOf (s.chip.feWord e.val) then s.chip.rd FE_EXEC_LOOP e.val else (s.chip.rd FE_STAT_PC e.val + 1) % 64) % 2 ^ FE_STAT_PC.w ∧
    ((s.chip.feWord e.val) / 256 % 16 = 2 → t.chip.rd FE_A e.val = s.chip.rd FE_A e.val - 1) ∧
    ((s.chip.feWord e.val) / 256 % 16 = 4 → t.chip.rd FE_B e.val = s.chip.rd FE_B e.val - 1) ∧ t.chip.rd FE_STAT_STALL e.val = 0) ∧
  (∀ (e : Fe) (s : State), s.chip.feReady e.val = true → opOf (s.chip.feWord e.val) = 5 → feIllegal (s.chip.feWord e.val) = false →
    bitAt (s.chip.feWord e.val) 11 = true → ∃ t, exec (.loadk e) s = .next t ∧ t.chip.rd FE_B e.val = (s.chip.feWord e.val) % 2048 ∧
    t.chip.rd FE_STAT_PC e.val = (if endOf (s.chip.feWord e.val) then s.chip.rd FE_EXEC_LOOP e.val else (s.chip.rd FE_STAT_PC e.val + 1) % 64) % 2 ^ FE_STAT_PC.w) ∧
  (∀ (e : Fe) (s : State), s.chip.feReady e.val = true → opOf (s.chip.feWord e.val) = 6 → feIllegal (s.chip.feWord e.val) = false →
    bitAt (s.chip.feWord e.val) 11 = false → ∃ t, exec (.addk e) s = .next t ∧
    t.chip.rd FE_A e.val = ofSigned 32 ((s.chip.rd FE_A e.val : Int) + toSigned 11 (s.chip.feWord e.val)) ∧
    t.chip.rd FE_STAT_PC e.val = (if endOf (s.chip.feWord e.val) then s.chip.rd FE_EXEC_LOOP e.val else (s.chip.rd FE_STAT_PC e.val + 1) % 64) % 2 ^ FE_STAT_PC.w) ∧
  (∀ (e : Fe) (p : BitVec 64) (s : State), s.chip.feReady e.val = true → opOf (s.chip.feWord e.val) = 4 →
    feIllegal (s.chip.feWord e.val) = false → (s.chip.feWord e.val) / 256 % 16 = 2 → ∃ t, exec (.move e p) s = .next t ∧
    t.chip.rd FE_B e.val = moveFn ((s.chip.feWord e.val) / 4 % 4) ((s.chip.sample p).moveSrc e.val ((s.chip.feWord e.val) / 16 % 16)) % 2 ^ 32 ∧
    t.chip.rd FE_STAT_PC e.val = (if endOf (s.chip.feWord e.val) then s.chip.rd FE_EXEC_LOOP e.val else (s.chip.rd FE_STAT_PC e.val + 1) % 64) % 2 ^ FE_STAT_PC.w) ∧
  (∀ (e : Fe) (p : BitVec 64) (s : State), s.chip.feReady e.val = true → opOf (s.chip.feWord e.val) = 4 →
    feIllegal (s.chip.feWord e.val) = false → (s.chip.feWord e.val) / 256 % 16 = 3 → ∃ t, exec (.move e p) s = .next t ∧
    t.chip.rd FE_SR e.val = moveFn ((s.chip.feWord e.val) / 4 % 4) ((s.chip.sample p).moveSrc e.val ((s.chip.feWord e.val) / 16 % 16)) % 2 ^ 32 ∧
    t.chip.rd FE_STAT_BC e.val = 0 ∧
    t.chip.rd FE_STAT_PC e.val = (if endOf (s.chip.feWord e.val) then s.chip.rd FE_EXEC_LOOP e.val else (s.chip.rd FE_STAT_PC e.val + 1) % 64) % 2 ^ FE_STAT_PC.w) ∧
  (∀ (e : Fe) (p : BitVec 64) (s : State), s.chip.feReady e.val = true → opOf (s.chip.feWord e.val) = 4 →
    feIllegal (s.chip.feWord e.val) = false → (s.chip.feWord e.val) / 256 % 16 = 4 → ∃ t, exec (.move e p) s = .next t ∧
    t.chip.rd FE_STAT_PC e.val = moveFn ((s.chip.feWord e.val) / 4 % 4) ((s.chip.sample p).moveSrc e.val ((s.chip.feWord e.val) / 16 % 16)) % 64 ∧
    t.chip.rd FE_A e.val = s.chip.rd FE_A e.val) ∧
  (∀ (e : Fe) (s : State), s.chip.feReady e.val = true → opOf (s.chip.feWord e.val) = 7 → feIllegal (s.chip.feWord e.val) = false →
    bitAt (s.chip.feWord e.val) 8 = true → ∃ t, exec (.drive e) s = .next t ∧
    (t.chip.eng e.val).dir = latchPut (s.chip.eng e.val).dir (s.chip.rd FE_PINS_SET_BASE e.val) (min 8 (s.chip.rd FE_PINS_SET_N e.val)) ((s.chip.feWord e.val) % 256) ∧
    (t.chip.eng e.val).out = (s.chip.eng e.val).out ∧
    t.chip.rd FE_STAT_PC e.val = (if endOf (s.chip.feWord e.val) then s.chip.rd FE_EXEC_LOOP e.val else (s.chip.rd FE_STAT_PC e.val + 1) % 64) % 2 ^ FE_STAT_PC.w)

/-- Filigree: XFER, SWAP, GSIG, an illegal instruction, stall and hold ends -/
def Obligations.EngineTransfers : Prop :=
  (∀ (e : Fe) (p : BitVec 64) (s : State), s.chip.feReady e.val = true → opOf (s.chip.feWord e.val) = 2 →
    feIllegal (s.chip.feWord e.val) = false → (s.chip.feWord e.val) / 1024 % 4 = 1 → (s.chip.feWord e.val) / 256 % 4 = 2 →
    s.chip.rd FE_LANE_AUTO e.val = 0 → s.chip.rd FE_LANE_DIR e.val = 0 → ∃ t, exec (.xfer e p) s = .next t ∧
    t.chip.rd FE_SR e.val = s.chip.rd FE_SR e.val * 2 ^ orThirtyTwo ((s.chip.feWord e.val) % 32) % 2 ^ 32 ∧
    t.chip.rd FE_STAT_BC e.val = min 32 (s.chip.rd FE_STAT_BC e.val + orThirtyTwo ((s.chip.feWord e.val) % 32)) ∧
    t.chip.rd FE_STAT_PC e.val = (if endOf (s.chip.feWord e.val) then s.chip.rd FE_EXEC_LOOP e.val else (s.chip.rd FE_STAT_PC e.val + 1) % 64) % 2 ^ FE_STAT_PC.w ∧
    SameRegs ([FE_STAT_PC, FE_STAT_STALL, FE_STAT_CAUSE, FE_SR, FE_STAT_BC].map fun f => (f, e.val)) [] s.chip t.chip) ∧
  (∀ (e : Fe) (x : Nat) (r : List Nat) (s : State), s.chip.feReady e.val = true → opOf (s.chip.feWord e.val) = 3 →
    feIllegal (s.chip.feWord e.val) = false → bitAt (s.chip.feWord e.val) 11 = false → bitAt (s.chip.feWord e.val) 10 = true →
    (s.chip.eng e.val).tx = x :: r → ∃ t, exec (.swap e) s = .next t ∧ t.chip.rd FE_SR e.val = x % 2 ^ 32 ∧
    (t.chip.eng e.val).tx = r ∧ t.chip.rd FE_STAT_BC e.val = 0 ∧
    t.chip.rd FE_STAT_PC e.val = (if endOf (s.chip.feWord e.val) then s.chip.rd FE_EXEC_LOOP e.val else (s.chip.rd FE_STAT_PC e.val + 1) % 64) % 2 ^ FE_STAT_PC.w) ∧
  (∀ (e : Fe) (s : State), s.chip.feReady e.val = true → opOf (s.chip.feWord e.val) = 3 → feIllegal (s.chip.feWord e.val) = false →
    bitAt (s.chip.feWord e.val) 11 = false → bitAt (s.chip.feWord e.val) 10 = true → bitAt (s.chip.feWord e.val) 9 = true →
    (s.chip.eng e.val).tx = [] → ∃ t, exec (.swap e) s = .next t ∧ t.chip.rd FE_STAT_STALL e.val = 1 ∧
    t.chip.rd FE_STAT_CAUSE e.val = 2 ∧ t.chip.rd FE_SR e.val = s.chip.rd FE_SR e.val) ∧
  (∀ (e : Fe) (s : State), s.chip.feReady e.val = true → opOf (s.chip.feWord e.val) = 8 → feIllegal (s.chip.feWord e.val) = false →
    (s.chip.feWord e.val) / 1024 % 4 = 0 → ∃ t, exec (.gsig e) s = .next t ∧
    bitAt (t.chip.rd FG_FLAGS (e.val / 8)) ((s.chip.feWord e.val) % 8) = true ∧
    t.chip.rd FE_STAT_PC e.val = (if endOf (s.chip.feWord e.val) then s.chip.rd FE_EXEC_LOOP e.val else (s.chip.rd FE_STAT_PC e.val + 1) % 64) % 2 ^ FE_STAT_PC.w) ∧
  (∀ (e : Fe) (s : State), s.chip.feReady e.val = true → opOf (s.chip.feWord e.val) = 8 → feIllegal (s.chip.feWord e.val) = false →
    (s.chip.feWord e.val) / 1024 % 4 = 3 → ∃ t, exec (.gsig e) s = .next t ∧ bitAt (t.chip.rd FE_FLAGS e.val) FE_FLAGS_SIG = true ∧
    t.chip.rd FG_FLAGS (e.val / 8) = s.chip.rd FG_FLAGS (e.val / 8) ∧
    t.chip.rd FE_STAT_PC e.val = (if endOf (s.chip.feWord e.val) then s.chip.rd FE_EXEC_LOOP e.val else (s.chip.rd FE_STAT_PC e.val + 1) % 64) % 2 ^ FE_STAT_PC.w) ∧
  (∀ (e : Fe) (s : State), s.chip.feReady e.val = true → feIllegal (s.chip.feWord e.val) = true →
    ∃ t, exec (.illegalInstruction e) s = .next t ∧ t.chip.rd FE_CTL_EN e.val = 0 ∧
    bitAt (t.chip.rd FE_FLAGS e.val) FE_FLAGS_ILL = true ∧ SameRegs [(FE_CTL_EN, e.val), (FE_FLAGS, e.val)] [.rInt] s.chip t.chip) ∧
  (∀ (e : Fe) (p : BitVec 64) (s : State), s.chip.rd FE_CTL_EN e.val = 1 → s.chip.feClock e.val = true →
    s.chip.rd FE_STAT_STALL e.val = 1 → (s.chip.eng e.val).next ≤ s.chip.tb → s.chip.rd FE_STAT_CAUSE e.val = 5 →
    s.chip.groupFlag e.val ((s.chip.eng e.val).word % 8) = false → (s.chip.eng e.val).replaced = false →
    ∃ t, exec (.feStallClear e p) s = .next t ∧ t.chip.rd FE_STAT_STALL e.val = 0 ∧ t.chip.rd FE_STAT_CAUSE e.val = 0 ∧
    t.chip.rd FE_STAT_PC e.val = (if endOf (s.chip.eng e.val).word then s.chip.rd FE_EXEC_LOOP e.val else (s.chip.rd FE_STAT_PC e.val + 1) % 64) % 2 ^ FE_STAT_PC.w ∧
    SameRegs ([FE_STAT_PC, FE_STAT_STALL, FE_STAT_CAUSE].map fun f => (f, e.val)) [] s.chip t.chip) ∧
  (∀ (e : Fe) (s : State), s.chip.rd FE_CTL_EN e.val = 1 → s.chip.feClock e.val = true → (s.chip.eng e.val).hold ≠ 0 →
    (s.chip.feStart e.val (s.chip.eng e.val).hold).1 ≤ s.chip.tb → ∃ t, exec (.feHoldEnd e) s = .next t ∧
    (t.chip.eng e.val).hold = 0 ∧ (t.chip.eng e.val).next = (s.chip.feStart e.val (s.chip.eng e.val).hold).1 ∧
    SameRegs [] [] s.chip t.chip) ∧
  (∀ (e : Fe) (p : BitVec 64) (x k : Nat) (s : State), s.chip.feReady e.val = true → opOf (s.chip.feWord e.val) = 2 →
    feIllegal (s.chip.feWord e.val) = false → s.chip.rd FE_LANE_AUTO e.val = 0 → k = orThirtyTwo ((s.chip.feWord e.val) % 32) →
    x = (s.chip.sample p).xferIn e.val ((s.chip.feWord e.val) / 1024 % 4) k → ∃ t, exec (.xfer e p) s = .next t ∧
    t.chip.rd FE_SR e.val = (if s.chip.rdB FE_LANE_DIR e.val then s.chip.rd FE_SR e.val / 2 ^ k + x * 2 ^ (32 - k) else s.chip.rd FE_SR e.val * 2 ^ k % 2 ^ 32 + x) % 2 ^ 32 ∧
    t.chip.rd FE_STAT_BC e.val = min 32 (s.chip.rd FE_STAT_BC e.val + k) % 2 ^ FE_STAT_BC.w ∧
    t.chip.rd FE_STAT_PC e.val = (if endOf (s.chip.feWord e.val) then s.chip.rd FE_EXEC_LOOP e.val else (s.chip.rd FE_STAT_PC e.val + 1) % 64) % 2 ^ FE_STAT_PC.w) ∧
  (∀ (e : Fe) (r : List Nat) (s : State), s.chip.feReady e.val = true → opOf (s.chip.feWord e.val) = 3 →
    feIllegal (s.chip.feWord e.val) = false → bitAt (s.chip.feWord e.val) 11 = true → bitAt (s.chip.feWord e.val) 10 = false →
    (s.chip.eng e.val).rx = r → r.length < 8 → ∃ t, exec (.swap e) s = .next t ∧
    (t.chip.eng e.val).rx = r ++ [s.chip.rd FE_SR e.val] ∧
    t.chip.rd FE_STAT_PC e.val = (if endOf (s.chip.feWord e.val) then s.chip.rd FE_EXEC_LOOP e.val else (s.chip.rd FE_STAT_PC e.val + 1) % 64) % 2 ^ FE_STAT_PC.w) ∧
  (∀ (e : Fe) (p : BitVec 64) (s : State), s.chip.rd FE_CTL_EN e.val = 1 → s.chip.feClock e.val = true →
    s.chip.rd FE_STAT_STALL e.val = 1 → (s.chip.eng e.val).next ≤ s.chip.tb → s.chip.rd FE_STAT_CAUSE e.val = 1 →
    (s.chip.eng e.val).replaced = false → (s.chip.sample p).feCleared e.val = true → ∃ t, exec (.feStallClear e p) s = .next t ∧
    t.chip.rd FE_STAT_STALL e.val = 0 ∧ t.chip.rd FE_STAT_CAUSE e.val = 0 ∧
    t.chip.rd FE_STAT_PC e.val = (if endOf (s.chip.eng e.val).word then s.chip.rd FE_EXEC_LOOP e.val else (s.chip.rd FE_STAT_PC e.val + 1) % 64) % 2 ^ FE_STAT_PC.w)

/-- Filigree: FIFOs, program words, enable, synchronous commands -/
def Obligations.EngineRegisters : Prop :=
  (∀ (who : Writer) (e : Fe) (w : Word) (s : State), s.chip.sysOk who = true → s.chip.feClock e.val = true →
    (s.chip.eng e.val).tx.length < 8 → ∃ t, exec (.feTxWrite who e w) s = .next t ∧
    (t.chip.eng e.val).tx = (s.chip.eng e.val).tx ++ [w.toNat] ∧ t.chip.rd FE_STAT_TX_LVL e.val = (s.chip.eng e.val).tx.length + 1 ∧
    t.chip.rd FE_FLAGS e.val = s.chip.rd FE_FLAGS e.val) ∧
  (∀ (who : Writer) (e : Fe) (w : Word) (s : State), s.chip.sysOk who = true → s.chip.feClock e.val = true →
    (s.chip.eng e.val).tx.length = 8 → ∃ t, exec (.feTxWrite who e w) s = .next t ∧ t.chip.fe = s.chip.fe ∧
    bitAt (t.chip.rd FE_FLAGS e.val) FE_FLAGS_TX_OVF = true ∧ SameRegs [(FE_FLAGS, e.val)] [.rInt] s.chip t.chip) ∧
  (∀ (e : Fe) (x : Nat) (r : List Nat) (s : State), s.chip.feClock e.val = true → (s.chip.eng e.val).rx = x :: r →
    ∃ t, exec (.feRxRead e) s = .next t ∧ t.chip.rdata = x ∧ (t.chip.eng e.val).rx = r ∧
    SameRegs [(FE_STAT_TX_LVL, e.val), (FE_STAT_RX_LVL, e.val)] [] s.chip t.chip) ∧
  (∀ (who : Writer) (e : Fe) (i : Fin 64) (w : Word) (s : State), s.chip.sysOk who = true → s.chip.feClock e.val = true →
    ∃ t, exec (.feProgWrite who e i w) s = .next t ∧ t.chip.rd FE_PROG (64 * e.val + i.val) = w.toNat % 2 ^ FE_PROG.w ∧
    SameRegs [(FE_PROG, 64 * e.val + i.val)] [] s.chip t.chip) ∧
  (∀ (who : Writer) (e : Fe) (b : Bool) (s : State), s.chip.sysOk who = true → s.chip.feClock e.val = true →
    ∃ t, exec (.feEnableWrite who e b) s = .next t ∧ t.chip.rd FE_CTL_EN e.val = b2n b ∧
    SameRegs [(FE_CTL_EN, e.val), (FE_B, e.val)] [] s.chip t.chip) ∧
  (∀ (who : Writer) (e : Fe) (s : State), s.chip.sysOk who = true → s.chip.runs islObserver = true →
    bitAt (s.chip.rd FE_SYNC_MASK) e.val = true → s.chip.feClock e.val = true → ∃ t, exec (.feSyncHalt who) s = .next t ∧
    t.chip.rd FE_CTL_EN e.val = 0) ∧
  (∀ (who : Writer) (e : Fe) (s : State), s.chip.sysOk who = true → s.chip.runs islObserver = true →
    bitAt (s.chip.rd FE_SYNC_MASK) e.val = true → s.chip.feClock e.val = true → ∃ t, exec (.feSyncReset who) s = .next t ∧
    t.chip.rd FE_STAT_PC e.val = s.chip.rd FE_EXEC_ENTRY e.val % 2 ^ FE_STAT_PC.w ∧ t.chip.rd FE_A e.val = 0 ∧
    t.chip.rd FE_B e.val = 0 ∧ t.chip.rd FE_SR e.val = 0 ∧ t.chip.rd FE_STAT_BC e.val = 0 ∧ t.chip.rd FE_STAT_STALL e.val = 0 ∧
    (t.chip.eng e.val).out = (s.chip.eng e.val).out) ∧
  (∀ (who : Writer) (e : Fe) (s : State), s.chip.sysOk who = true → s.chip.runs islObserver = true →
    bitAt (s.chip.rd FE_SYNC_MASK) e.val = true → s.chip.feClock e.val = true → ∃ t, exec (.feSyncPhase who) s = .next t ∧
    (t.chip.eng e.val).residue = 0 ∧ (t.chip.eng e.val).next = s.chip.tb + 1) ∧
  (∀ (who : Writer) (e : Fe) (s : State), s.chip.sysOk who = true → s.chip.runs islObserver = true →
    bitAt (s.chip.rd FE_SYNC_MASK) e.val = true → s.chip.feClock e.val = true → ∃ t, exec (.feSyncRun who) s = .next t ∧
    t.chip.rdB FE_CTL_EN e.val = true)

/-- Clock switches and stopped clocks of an island -/
def Obligations.ClockSwitches : Prop :=
  (∀ (who : Writer) (i : Isl) (v : BitVec 2) (s : State), s.chip.sysWr who = true → bitAt (s.chip.rd CLK_SWBUSY) i.val = false →
    s.chip.sel i.val ≠ v.toNat → ∃ t, exec (.clockSwitchStart who i v) s = .next t ∧ bitAt (t.chip.rd CLK_SWBUSY) i.val = true ∧
    t.chip.sel i.val = v.toNat ∧ (t.chip.island i.val).switchAt = some (s.chip.tb, s.chip.sel i.val) ∧
    SameRegs [(CLK_SWBUSY, 0), (CLK_SEL0, 0), (CLK_SEL1, 0)] [] s.chip t.chip) ∧
  (∀ (i : Isl) (z o : Nat) (s : State), (s.chip.island i.val).switchAt = some (z, o) → (s.chip.island i.val).hung = false →
    (s.chip.island i.val).stoppedAt = none → (s.chip.island i.val).resetEnd = none → s.chip.srcRuns o = true →
    s.chip.srcRuns (s.chip.sel i.val) = true → ∃ t, exec (.clockSwitchDone i) s = .next t ∧
    bitAt (t.chip.rd CLK_SWBUSY) i.val = false ∧ t.chip.island i.val = { s.chip.island i.val with switchAt := none } ∧
    SameRegs [(CLK_SWBUSY, 0)] [] s.chip t.chip) ∧
  (∀ (i : Isl) (z o : Nat) (s : State), (s.chip.island i.val).switchAt = some (z, o) → (s.chip.island i.val).hung = false →
    (s.chip.island i.val).resetEnd = none → z + 10 * usTb ≤ s.chip.tb → ∃ t, exec (.clockSwitchTimeout i) s = .next t ∧
    (t.chip.island i.val).hung = true ∧ bitAt (t.chip.rd CLK_ISL_FLT) i.val = true ∧
    bitAt (t.chip.rd SYS_FLT_FLAGS) SYS_FLT_FLAGS_CLK = true) ∧
  (∀ (i : Isl) (s : State), (s.chip.island i.val).stoppedAt = none → (s.chip.island i.val).resetEnd = none →
    s.chip.asleep = false → ∃ t, exec (.clockStop i) s = .next t ∧ (t.chip.island i.val).stoppedAt = some s.chip.tb ∧
    bitAt (t.chip.rd CLK_STOPPED) i.val = true ∧ bitAt (t.chip.rd CLK_ISL_FLT) i.val = true ∧
    bitAt (t.chip.rd SYS_FLT_FLAGS) SYS_FLT_FLAGS_CLK = true) ∧
  (∀ (i : Isl) (z : Nat) (s : State), (s.chip.island i.val).stoppedAt = some z → (s.chip.island i.val).hung = false →
    (s.chip.island i.val).resetEnd = none → ∃ t, exec (.islandClockReturn i) s = .next t ∧
    t.chip.island i.val = { s.chip.island i.val with stoppedAt := none } ∧ bitAt (t.chip.rd CLK_STOPPED) i.val = false ∧
    SameRegs [(CLK_STOPPED, 0)] [] s.chip t.chip)

/-- Island resets: by command, by the always-on domain, by Gelow, and their end -/
def Obligations.IslandResets : Prop :=
  (∀ (i : Isl) (s : State), s.chip.sysWr .anvilV = true → i.val ≠ 17 → ∃ t, exec (.islandReset .anvilV i) s = .next t ∧
    (t.chip.island i.val).resetEnd = some (s.chip.tb + 2000) ∧ t.chip.rd RST_LAST_ISL = i.val ∧ t.chip.rd RST_LAST_AUTO = 0) ∧
  (∀ (i : Isl) (s : State), (s.chip.island i.val).resetEnd = none → (s.chip.island i.val).hung = true →
    bitAt (s.chip.rd CLK_AUTO) i.val = true → i.val ≠ 17 → ∃ t, exec (.clockAutoRecover i) s = .next t ∧
    (t.chip.island i.val).resetEnd = some (s.chip.tb + 2000) ∧ t.chip.rd RST_LAST_ISL = i.val ∧ t.chip.rd RST_LAST_AUTO = 1) ∧
  (∀ (c : Cl) (z : Nat) (s : State), (s.chip.island c.val).safeSince = some z → s.chip.rd RST_CFG_CL_RETRY = 1 →
    s.chip.gelow.up = true → s.chip.runs islMgmt = true → (s.chip.island c.val).resetEnd = none →
    (s.chip.island c.val).retries < 3 → z + 1000 * msTb ≤ s.chip.tb → ∃ t, exec (.clusterRetry c) s = .next t ∧
    (t.chip.island c.val).retries = (s.chip.island c.val).retries + 1 ∧ (t.chip.island c.val).resetEnd = some (s.chip.tb + 2000) ∧
    t.chip.rd RST_LAST_ISL = c.val) ∧
  (∀ (c : Cl) (z : Nat) (s : State), (s.chip.island c.val).resetEnd = some z → z ≤ s.chip.tb → s.chip.sys.holdTb = 0 →
    (s.chip.island islAxis).resetEnd = none → ∃ t, exec (.islandResetRelease (Fin.castLE (by decide) c)) s = .next t ∧
    (t.chip.island c.val).resetEnd = none ∧ (t.chip.island c.val).safeSince = none ∧ (t.chip.island c.val).hung = false ∧
    bitAt (t.chip.rd CLK_SWBUSY) c.val = false) ∧
  (∀ (i : Isl) (z : Nat) (s : State), (s.chip.island i.val).resetEnd = some z → z ≤ s.chip.tb → s.chip.sys.holdTb = 0 →
    ∃ t, exec (.islandResetRelease i) s = .next t ∧ (t.chip.island i.val).resetEnd = none ∧ (t.chip.island i.val).hung = false ∧
    (t.chip.island i.val).stoppedAt = none ∧ bitAt (t.chip.rd CLK_SWBUSY) i.val = false ∧
    bitAt (t.chip.rd CLK_STOPPED) i.val = false)

/-- Crystal loss and return, trim marks, trim hold -/
def Obligations.TrimAndCrystal : Prop :=
  (∀ (n : Nat) (s : State), n < 24 → s.chip.rd CLK_STAT_XTAL_OK = 1 → s.chip.rd CLK_CFG_HOLD_EN = 1 →
    ∃ t, exec (.xtalLoss n) s = .next t ∧ t.chip.rd CLK_STAT_XTAL_OK = 0 ∧ t.chip.rd CLK_STAT_HOLDOVER = 1 ∧
    SameRegs [(CLK_STAT_XTAL_OK, 0), (CLK_STAT_HOLDOVER, 0), (CLK_STAT_PLLA_LOCK, 0)] [] s.chip t.chip) ∧
  (∀ (s : State), s.chip.rd CLK_STAT_XTAL_OK = 1 → s.chip.rd CLK_STAT_HOLDOVER = 1 → s.chip.sys.xtalTb + 100 * msTb ≤ s.chip.tb →
    ∃ t, exec (.xtalRestore) s = .next t ∧ t.chip.rd CLK_STAT_HOLDOVER = 0 ∧
    SameRegs [(CLK_STAT_HOLDOVER, 0), (CLK_STAT_PLLA_LOCK, 0)] [] s.chip t.chip) ∧
  (∀ (s : State), s.chip.trimRef = 1 → s.chip.sys.mark = none → ∃ t, exec (.trimMark true) s = .next t ∧
    t.chip.sys = { s.chip.sys with mark := some (s.chip.tbOf islObserver) } ∧ SameRegs [] [] s.chip t.chip) ∧
  (∀ (p n : Nat) (s : State), s.chip.trimRef = 1 → s.chip.sys.mark = some p →
    s.chip.trimFit (s.chip.tbOf islObserver - p) = some n → ∃ t, exec (.trimMark true) s = .next t ∧
    t.chip.rd CLK_TRIM_ERR = ofSigned CLK_TRIM_ERR.w (roundDiv ((((s.chip.tbOf islObserver - p : Nat) : Int) - n) * 1000000000) n) ∧
    t.chip.sys.mark = some (s.chip.tbOf islObserver) ∧
    SameRegs [(CLK_TRIM_ERR, 0), (CLK_CORR, 0), (CLK_STAT_TRIM, 0)] [] s.chip t.chip) ∧
  (∀ (s : State), s.chip.trimRef ≠ 0 → s.chip.sys.markOk.getD 0 + 10 * s.chip.trimIvl ≤ s.chip.tb →
    ∃ t, exec (.trimHoldTimeout) s = .next t ∧ t.chip.rd CLK_STAT_TRIM = 3 ∧ t.chip.sys.near = 0 ∧
    t.chip.rd CLK_CORR = s.chip.rd CLK_CORR) ∧
  (∀ (b : Bool) (z : Nat) (s : State), s.chip.trimRef = (if b then 1 else 2) → s.chip.sys.mark = none →
    z = (if b then s.chip.tbOf islObserver else s.chip.rd HP_SYNC_TB_LO + 2 ^ 32 * s.chip.rd HP_SYNC_TB_HI) →
    ∃ t, exec (.trimMark b) s = .next t ∧ t.chip.sys = { s.chip.sys with mark := some z } ∧ SameRegs [] [] s.chip t.chip)

/-- Module resets, watchdogs, restarts of the Anvil cores, sleep -/
def Obligations.ModuleResets : Prop :=
  (∀ (k : Nat) (s : State), s.chip.sys.off = false → ∃ t, exec (.moduleReset .pin) s = .next t ∧
    bitAt (t.chip.rd RST_CAUSE) 1 = true ∧ t.chip.tb = 0 ∧ t.chip.rd BOOT_STAT_STAGE = 0 ∧
    t.chip.rd KEY_HASH k = s.chip.rd KEY_HASH k ∧ t.chip.rd KEY_STAT_PROG = s.chip.rd KEY_STAT_PROG ∧ t.chip.chans = [] ∧
    t.chip.pool = []) ∧
  (∀ (s : State), s.chip.coreV.running = true → s.chip.runs islMgmt = true → s.chip.sys.holdTb = 0 →
    s.chip.sys.wdtV + max 1 (s.chip.rd WDT_V_TMO) * msTb ≤ s.chip.tb → s.chip.sys.vRestarts = [] → s.chip.gelow.up = true →
    ∃ t, exec (.wdtVExpire) s = .next t ∧ t.chip.coreV.running = false ∧ t.chip.sys.vDown = some s.chip.tb ∧
    t.chip.rd SYS_VRST_CNT = min (s.chip.rd SYS_VRST_CNT + 1) (2 ^ SYS_VRST_CNT.w - 1) ∧ t.chip.gelow.up = false ∧
    t.chip.rd HP_STAT_GELOW_UP 0 = 0 ∧ t.chip.rd HP_STAT_GELOW_UP 1 = 0) ∧
  (∀ (s : State), s.chip.coreC.running = true → s.chip.runs islMgmt = true → s.chip.rd PROT_WDTC_TMO ≠ 0 →
    s.chip.sys.wdtC + s.chip.rd PROT_WDTC_TMO * msTb ≤ s.chip.tb → ∃ t, exec (.wdtCExpire) s = .next t ∧
    t.chip.coreC.running = false ∧ t.chip.sys.cDown = some s.chip.tb ∧ t.chip.coreV = s.chip.coreV) ∧
  (∀ (z : Nat) (s : State), s.chip.gelow.up = true → s.chip.runs islMgmt = true → s.chip.sys.cAt = none →
    s.chip.sys.cDown = some z → ∃ t, exec (.anvilCRestart) s = .next t ∧
    t.chip.coreC.running = (!s.chip.imageGone s.chip.nand.activeC && s.chip.imgPass (s.chip.image s.chip.nand.activeC) 2) ∧
    t.chip.sys.cDown = none ∧ t.chip.coreV = s.chip.coreV ∧ SameRegs [] [] s.chip t.chip) ∧
  (∀ (who : Writer) (s : State), s.chip.sysWr who = true → ∃ t, exec (.sleepRequest who) s = .next t ∧
    t.chip.sys = { s.chip.sys with sleepReq := true } ∧ SameRegs [] [] s.chip t.chip) ∧
  (∀ (who : Writer) (p : Nat) (s : State), writerPort who = some p → s.chip.asleep = true → s.chip.sysOk who = true →
    s.chip.runs (islHostA + p) = true → ∃ t, exec (.wakeRequest who) s = .next t ∧ t.chip.asleep = false ∧
    t.chip.sys.wdtV = s.chip.tb - s.chip.sys.wdtV ∧ SameRegs [] [] s.chip t.chip) ∧
  (∀ (c : ResetCause) (k : Nat) (s : State), s.chip.sys.off = false → s.chip.resetDue c = true → k < 32 →
    ∃ t, exec (.moduleReset c) s = .next t ∧ bitAt (t.chip.rd RST_CAUSE) (causeBit c) = true ∧ t.chip.tb = 0 ∧
    t.chip.rd BOOT_STAT_STAGE = 0 ∧ t.chip.rd KEY_HASH k = s.chip.rd KEY_HASH k ∧
    t.chip.rd KEY_STAT_PROG = s.chip.rd KEY_STAT_PROG ∧ t.chip.pool = [])

/-- Boot: ROM, Gelow start, recovery upload; keys and the seal -/
def Obligations.BootAndKeys : Prop :=
  (∀ (t0 t1 : Bool) (s : State), s.chip.rd BOOT_STAT_STAGE = 0 → s.chip.sys.off = false → s.chip.sys.holdTb ≤ s.chip.tb →
    ∃ t, exec (.bootRom ⟨true, t0, t1⟩) s = .next t ∧ t.chip.rd BOOT_STAT_STAGE = 8 ∧ t.chip.rd BOOT_STAT_ERR = 0 ∧
    t.chip.coreV.running = true ∧ t.chip.coreV.mode = 3 ∧ t.chip.mem = [] ∧ t.chip.sys.t0Ready = t0 ∧ t.chip.sys.t1Ready = t1 ∧
    SameRegs [(BOOT_STAT_STAGE, 0), (BOOT_STAT_ERR, 0), (CLK_STAT_PLLB_LOCK, 0)] [] s.chip t.chip) ∧
  (∀ (t1 : Bool) (s : State), s.chip.rd BOOT_STAT_STAGE = 0 → s.chip.sys.off = false → s.chip.sys.holdTb ≤ s.chip.tb →
    s.chip.rd KEY_STAT_LIFE = 1 → ∃ t, exec (.bootRom ⟨false, false, t1⟩) s = .next t ∧ t.chip.rd BOOT_STAT_STAGE = 8 ∧
    t.chip.rd BOOT_STAT_ERR = 5) ∧
  (∀ (t1 : Bool) (s : State), s.chip.rd BOOT_STAT_STAGE = 0 → s.chip.sys.off = false → s.chip.sys.holdTb ≤ s.chip.tb →
    s.chip.rd KEY_STAT_LIFE = 1 → ∃ t, exec (.bootRom ⟨false, true, t1⟩) s = .next t ∧
    ((s.chip.nand.boot.any fun b => s.chip.imgPass b 0) = true → t.chip.rd BOOT_STAT_STAGE = 1) ∧
    ((s.chip.nand.boot.any fun b => s.chip.imgPass b 0) = false → t.chip.rd BOOT_STAT_STAGE = 8 ∧ t.chip.rd BOOT_STAT_ERR = 1) ∧
    t.chip.coreV.running = true ∧ t.chip.coreV.mode = 3 ∧ t.chip.rd CLK_STAT_PLLB_LOCK = 1) ∧
  (∀ (s : State), s.chip.rd BOOT_STAT_STAGE = 1 → s.chip.rd PROT_SEAL_SEAL = 0 → ∃ t, exec (.gelowStart) s = .next t ∧
    t.chip.rd BOOT_STAT_STAGE = 9 ∧ t.chip.rd BOOT_STAT_ERR = 3 ∧
    SameRegs [(BOOT_STAT_STAGE, 0), (BOOT_STAT_ERR, 0)] [] s.chip t.chip) ∧
  (∀ (s : State), s.chip.rd BOOT_STAT_STAGE = 2 → s.chip.rd PROT_SEAL_SEAL = 1 → ∃ t, exec (.gelowStart) s = .next t ∧
    ((s.chip.slotReads s.chip.nand.activeV s.chip.sys.t0Ready s.chip.sys.t1Ready && s.chip.imgPass (s.chip.image s.chip.nand.activeV) 1) = true → t.chip.rd BOOT_STAT_STAGE = 4 ∧ t.chip.rd BOOT_STAT_FALLBACK = 0 ∧ t.chip.coreV.pc = imgWord (s.chip.image s.chip.nand.activeV) 20 ∧ t.chip.gelow.up = true) ∧
    ((s.chip.slotReads s.chip.nand.activeV s.chip.sys.t0Ready s.chip.sys.t1Ready && s.chip.imgPass (s.chip.image s.chip.nand.activeV) 1) = false ∧ (s.chip.slotReads (1 - s.chip.nand.activeV) s.chip.sys.t0Ready s.chip.sys.t1Ready && s.chip.imgPass (s.chip.image (1 - s.chip.nand.activeV)) 1) = true → t.chip.rd BOOT_STAT_STAGE = 4 ∧ t.chip.rd BOOT_STAT_FALLBACK = 1 ∧ t.chip.coreV.pc = imgWord (s.chip.image (1 - s.chip.nand.activeV)) 20 ∧ t.chip.gelow.up = true) ∧
    ((s.chip.slotReads s.chip.nand.activeV s.chip.sys.t0Ready s.chip.sys.t1Ready && s.chip.imgPass (s.chip.image s.chip.nand.activeV) 1) = false ∧ (s.chip.slotReads (1 - s.chip.nand.activeV) s.chip.sys.t0Ready s.chip.sys.t1Ready && s.chip.imgPass (s.chip.image (1 - s.chip.nand.activeV)) 1) = false → t.chip.rd BOOT_STAT_STAGE = 9 ∧ t.chip.rd BOOT_STAT_ERR = 4)) ∧
  (∀ (w : Word) (n : Nat) (s : State), s.chip.runs islHostA = true → s.chip.rd PROT_SEAL_SEAL = 0 → s.chip.rd BOOT_STAT_STAGE = 8 →
    wordField BOOT_RCV_GO w.toNat = 1 → n = wordField BOOT_RCV_LEN w.toNat → n ≤ 65536 → s.chip.rd KEY_STAT_LIFE = 0 →
    imgHead (s.chip.load 0x40000 n) 0 = true → ∃ t, exec (.bootRcvGo .a w) s = .next t ∧ t.chip.rd BOOT_STAT_STAGE = 1 ∧
    t.chip.coreV.running = true ∧ t.chip.coreV.pc = imgWord (s.chip.load 0x40000 n) 20) ∧
  (∀ (who : Writer) (k : Fin 4) (s : State), s.chip.setupOk who = true → s.chip.rd KEY_STAT_BUSY = 0 →
    bitAt (s.chip.rd KEY_STAT_PROG) k.val = false → ∃ t, exec (.keyProgGo who k) s = .next t ∧ t.chip.rd KEY_STAT_BUSY = 1 ∧
    t.chip.sys.key = some (k.val, s.chip.tb)) ∧
  (∀ (who : Writer) (k : Fin 4) (s : State), s.chip.setupOk who = true → s.chip.rd KEY_STAT_BUSY = 0 →
    bitAt (s.chip.rd KEY_STAT_PROG) k.val = true → ∃ t, exec (.keyProgGo who k) s = .next t ∧ t.chip.rd KEY_STAT_PERR = 1 ∧
    t.chip.sys = s.chip.sys ∧ t.chip.rd KEY_STAT_BUSY = 0) ∧
  (∀ (who : Writer) (k j : Fin 4) (s : State), s.chip.setupOk who = true → j ≠ k → s.chip.keyLive j.val = true →
    ∃ t, exec (.keyProgRevoke who k) s = .next t ∧ bitAt (t.chip.rd KEY_STAT_REV) k.val = true ∧
    t.chip.rd KEY_STAT_PROG = s.chip.rd KEY_STAT_PROG) ∧
  (∀ (k z i : Nat) (s : State), s.chip.sys.key = some (k, z) → k < 4 → i < 8 → ∃ t, exec (.keyProgDone) s = .next t ∧
    bitAt (t.chip.rd KEY_STAT_PROG) k = true ∧ t.chip.rd KEY_STAT_LIFE = 1 ∧ t.chip.rd KEY_STAT_BUSY = 0 ∧
    t.chip.rd KEY_HASH (8 * k + i) = s.chip.rd KEY_DATA i % 2 ^ KEY_HASH.w) ∧
  (∀ (who : Writer) (s : State), s.chip.setupOk who = true → s.chip.rd BOOT_STAT_STAGE = 1 →
    ∃ t, exec (.protSeal who) s = .next t ∧ t.chip.rd PROT_SEAL_SEAL = 1 ∧ t.chip.rd BOOT_STAT_STAGE = 2 ∧
    SameRegs [(PROT_SEAL_SEAL, 0), (BOOT_STAT_STAGE, 0)] [] s.chip t.chip) ∧
  (∀ (p : Port) (w : Word) (n : Nat) (s : State), s.chip.runs (islHostA + portNo p) = true → s.chip.rd PROT_SEAL_SEAL = 0 →
    s.chip.rd BOOT_STAT_STAGE = 8 → wordField BOOT_RCV_GO w.toNat = 1 → n = wordField BOOT_RCV_LEN w.toNat → n ≤ 65536 →
    s.chip.rd KEY_STAT_LIFE = 0 → imgHead (s.chip.load (0x40000 + portNo p * 0x10000) n) 0 = true →
    ∃ t, exec (.bootRcvGo p w) s = .next t ∧ t.chip.rd BOOT_STAT_STAGE = 1 ∧ t.chip.coreV.running = true ∧
    t.chip.coreV.pc = imgWord (s.chip.load (0x40000 + portNo p * 0x10000) n) 20) ∧
  (∀ (p : Port) (w : Word) (s : State), s.chip.runs (islHostA + portNo p) = true → s.chip.rd PROT_SEAL_SEAL = 0 →
    s.chip.rd BOOT_STAT_STAGE ≠ 8 → ∃ t, exec (.bootRcvGo p w) s = .next t ∧
    t.chip.rd BOOT_RCV_LEN = wordField BOOT_RCV_LEN w.toNat ∧ SameRegs [(BOOT_RCV_LEN, 0)] [] s.chip t.chip)

/-- Rails, supply monitor, supply loss, the boost disconnect, sensor supplies -/
def Obligations.SuppliesAndLoss : Prop :=
  (∀ (r : Rails) (s : State), s.chip.sys.off = true → 780 ≤ r.vcore → 1440 ≤ r.vio → 4400 ≤ r.vana → 6000 ≤ r.vbat →
    ∃ t, exec (.powerUp r true) s = .next t ∧ t.chip.sys.off = false ∧ t.chip.sys.holdTb = 40000 ∧ t.chip.tb = 0 ∧
    (t.chip.island islMgmt).resetEnd = some 40000 ∧ t.chip.rd KEY_STAT_PROG = s.chip.rd KEY_STAT_PROG) ∧
  (∀ (r : Rails) (s : State), s.chip.sys.off = false → r.vcore < 780 → ∃ t, exec (.powerLoss r) s = .next t ∧
    t.chip.sys.off = true ∧ t.chip.coreV.running = false ∧ t.chip.mem = []) ∧
  (∀ (mv us : Nat) (s : State), s.chip.powered = true → bitAt (s.chip.rd SUPM_STAT) 0 = false → mv < 7800 → 100 ≤ us →
    ∃ t, exec (.supplyMonitorChange 0 mv us) s = .next t ∧ bitAt (t.chip.rd SUPM_STAT) 0 = true ∧
    bitAt (t.chip.rd SUPM_FLAGS) 0 = true ∧ SameRegs [(SUPM_STAT, 0), (SUPM_FLAGS, 0)] [.rInt] s.chip t.chip) ∧
  (∀ (mv us : Nat) (s : State), s.chip.powered = true → 8000 ≤ mv → 1000 ≤ us → us * usTb ≤ s.chip.tb →
    ∃ t, exec (.lossDetectArm mv us) s = .next t ∧ t.chip.sys = { s.chip.sys with armed := true } ∧ SameRegs [] [] s.chip t.chip) ∧
  (∀ (a b us : Nat) (s : State), s.chip.powered = true → s.chip.sys.armed = true → 2 ≤ us → a < 7000 →
    ∃ t, exec (.supplyLossDetection a b us) s = .next t ∧ t.chip.jour.marker = some (s.chip.tbOf islMgmt) ∧
    bitAt (t.chip.rd RST_CAUSE) 3 = true ∧ t.chip.sys.holdTb = 40000 ∧ t.chip.tb = 0) ∧
  (∀ (a : Nat) (s : State), a < 6000 → ∃ t, exec (.boostDisconnectOpen a) s = .next t ∧
    t.chip.sys = { s.chip.sys with disc := false } ∧ SameRegs [] [] s.chip t.chip) ∧
  (∀ (a us : Nat) (s : State), s.chip.powered = true → 6500 ≤ a → a ≤ 38000 → 1000 ≤ us →
    ∃ t, exec (.boostDisconnectClose a us) s = .next t ∧ t.chip.sys = { s.chip.sys with disc := true } ∧
    SameRegs [] [] s.chip t.chip) ∧
  (∀ (n : Sup) (v : Int) (us : Nat) (s : State), s.chip.powered = true → bitAt (s.chip.rd SUP_CTL_EN) n.val = true → 5600 < v →
    20 ≤ us → ∃ t, exec (.supFaultDetect n .battery v us) s = .next t ∧ (t.chip.supply n.val).closed = false ∧
    (t.chip.supply n.val).cond = some 1 ∧ (t.chip.supply n.val).openTb = s.chip.tb ∧ bitAt (t.chip.rd SUP_STAT_FLT) n.val = true) ∧
  (∀ (n : Sup) (v : Int) (us : Nat) (s : State), s.chip.powered = true → bitAt (s.chip.rd SUP_CTL_EN) n.val = true →
    (s.chip.supply n.val).closed = false → (s.chip.supply n.val).cond = some 1 → v < 5300 → 10000 ≤ us →
    ∃ t, exec (.supReclose n v us) s = .next t ∧
    t.chip.supply n.val = { s.chip.supply n.val with closed := true, backTb := some s.chip.tb } ∧ SameRegs [] [] s.chip t.chip) ∧
  (∀ (n : Sup) (ua us : Nat) (s : State), (s.chip.supply n.val).cond = some 4 → 1000 ≤ ua → 10000 ≤ us →
    ∃ t, exec (.supFltClear n ua us) s = .next t ∧ bitAt (t.chip.rd SUP_STAT_FLT) n.val = false ∧
    (t.chip.supply n.val).cond = none ∧ SameRegs [(SUP_STAT_FLT, 0)] [] s.chip t.chip) ∧
  (∀ (who : Writer) (n : Sup) (w : Word) (p : BitVec 8) (s : State), s.chip.sysWr who = true →
    bitAt (s.chip.rd SUP_CTL_EN) n.val = false → bitAt w.toNat n.val = true → bitAt p.toNat n.val = false →
    ∃ t, exec (.supCtlWrite who w p) s = .next t ∧ (t.chip.supply n.val).closed = true ∧
    t.chip.rd SUP_CTL_EN = wordField SUP_CTL_EN w.toNat) ∧
  (∀ (who : Writer) (n : Sup) (w : Word) (p : BitVec 8) (s : State), s.chip.sysWr who = true → bitAt w.toNat n.val = false →
    ∃ t, exec (.supCtlWrite who w p) s = .next t ∧ t.chip.supply n.val = ({} : Supply) ∧
    bitAt (t.chip.rd SUP_STAT_FLT) n.val = false) ∧
  (∀ (b : Fin 6) (mv us : Nat) (s : State), s.chip.powered = true → bitAt (s.chip.rd SUPM_STAT) b.val = false →
    s.chip.supmSets b.val mv us = true → ∃ t, exec (.supplyMonitorChange b mv us) s = .next t ∧
    bitAt (t.chip.rd SUPM_STAT) b.val = true ∧ bitAt (t.chip.rd SUPM_FLAGS) b.val = true ∧
    SameRegs [(SUPM_STAT, 0), (SUPM_FLAGS, 0)] [.rInt] s.chip t.chip) ∧
  (∀ (b : Fin 6) (mv us : Nat) (s : State), s.chip.powered = true → bitAt (s.chip.rd SUPM_STAT) b.val = true →
    s.chip.supmClears b.val mv us = true → ∃ t, exec (.supplyMonitorChange b mv us) s = .next t ∧
    bitAt (t.chip.rd SUPM_STAT) b.val = false ∧ SameRegs [(SUPM_STAT, 0)] [] s.chip t.chip) ∧
  (∀ (n : Sup) (c : SupCond) (v : Int) (us : Nat) (s : State), s.chip.powered = true → bitAt (s.chip.rd SUP_CTL_EN) n.val = true →
    condMet (s.chip.supply n.val) c v us = true → ∃ t, exec (.supFaultDetect n c v us) s = .next t ∧
    (t.chip.supply n.val).cond = some (condNo c) ∧ bitAt (t.chip.rd SUP_STAT_FLT) n.val = true ∧
    (t.chip.supply n.val).closed = ((s.chip.supply n.val).closed && (c == .openLoad)))

/-- Interrupt entry, return, queue records, hold-off, software set and clear, wake -/
def Obligations.Interrupts : Prop :=
  (∀ (n : Nat) (s : State), s.chip.accepts 0 = true → s.chip.winner 0 (fun _ => true) = some n → s.chip.mayEnter n 0 = true →
    ∃ t, exec (.interruptEntry .v []) s = .next t ∧ t.chip.coreV.pc = (s.chip.coreV.mtvec / 4 * 4 + 4 * n) % 2 ^ 32 ∧
    t.chip.coreV.mepc = s.chip.coreV.pc ∧ t.chip.coreV.mcause = n ∧ t.chip.coreV.mode = 3 ∧
    t.chip.coreV.mstatus = trapStatus s.chip.coreV.mstatus s.chip.coreV.mode ∧
    t.chip.coreV.frames = frameOf s.chip.coreV n :: s.chip.coreV.frames ∧ bitAt (t.chip.rd INT_SRC_PEND n) 0 = false ∧
    bitAt (t.chip.rd INT_SRC_ACT n) 0 = true) ∧
  (∀ (f : Frame) (r : List Frame) (s : State), s.chip.coreV.frames = f :: r → s.chip.coreRuns 0 = true →
    s.chip.rd INT_SRC_LVL f.src = 0 → s.chip.pendingSrcs = [] → ∃ t, exec (.handlerMret .v) s = .next t ∧
    t.chip.coreV.pc = s.chip.coreV.mepc ∧ t.chip.coreV.mode = retMode s.chip.coreV.mstatus ∧ t.chip.coreV.gpr = f.words.take 16 ∧
    t.chip.coreV.mepc = (f.words.drop 16).headD 0 ∧ t.chip.coreV.mstatus = (f.words.drop 17).headD 0 ∧ t.chip.coreV.frames = r ∧
    bitAt (t.chip.rd INT_SRC_ACT f.src) 0 = false) ∧
  (∀ (a : Accum) (s : State), Memory.wf s.chip.mem = true → s.chip.runs islMgmt = true → s.chip.runs islHostA = true →
    s.chip.queueFull 0 = false → s.chip.due .queueRecord 0 = true → s.chip.accum 0 accPort = a → a.cnt ≠ 0 →
    ∃ t, exec (.queueRecordWrite .a) s = .next t ∧ t.chip.rd HP_Q_TAIL 0 = (s.chip.rd HP_Q_TAIL 0 + 1) % 8192 ∧
    (t.chip.accum 0 accPort).cnt = 0 ∧
    t.chip.load (queueBase 0 + s.chip.rd HP_Q_TAIL 0 % 4096 * 16) 16 = leBytes 2 0 ++ leBytes 1 (3 + if a.ovf then 128 else 0) ++ leBytes 1 a.cnt ++ leBytes 8 a.tb ++ leBytes 4 a.data ∧
    SameRegs [(HP_Q_TAIL, 0)] [] s.chip t.chip) ∧
  (∀ (g : Grp) (s : State), s.chip.rd INT_GRP_RUN g.val = 1 → tabGet s.chip.holdEnd g.val 0 ≤ s.chip.tb →
    ∃ t, exec (.holdoffExpire g) s = .next t ∧ t.chip.rd INT_GRP_RUN g.val = 0 ∧ SameRegs [(INT_GRP_RUN, g.val)] [] s.chip t.chip) ∧
  (∀ (who : Writer) (n : Src) (s : State), s.chip.sysWr who = true → 416 ≤ n.val → s.chip.rd INT_SRC_LVL n.val = 0 →
    bitAt (s.chip.rd INT_SRC_TGT n.val) 0 = true → ∃ t, exec (.intSwset who n) s = .next t ∧
    bitAt (t.chip.rd INT_SRC_PEND n.val) 0 = true) ∧
  (∀ (who : Writer) (w : Word) (s : State), s.chip.sysWr who = true → ∃ t, exec (.intClrpend who w) s = .next t ∧
    t.chip.rd INT_SRC_PEND (w.toNat % 512) = (s.chip.rd INT_SRC_PEND (w.toNat % 512) &&& (15 - w.toNat / 4096 % 16)) % 2 ^ INT_SRC_PEND.w ∧
    SameRegs [(INT_SRC_PEND, w.toNat % 512)] [] s.chip t.chip) ∧
  (∀ (n : Src) (s : State), s.chip.asleep = true → srcWakes n.val = true →
    bitAt (s.chip.rd INT_WAKE (n.val / 32)) (n.val % 32) = true → s.chip.srcGated n.val = false →
    ∃ t, exec (.wakeSource n) s = .next t ∧ t.chip.asleep = false ∧ t.chip.rd INT_WAKE_SRC_SRC = n.val ∧
    t.chip.rd INT_WAKE_SRC_VALID = 1) ∧
  (∀ (k : Core) (n : Nat) (l : List (Fin 6 × Src)) (s : State), s.chip.accepts (coreNo k) = true →
    s.chip.winner (coreNo k) (fun i => !(l.map (·.2.val)).contains i) = some n → s.chip.mayEnter n (coreNo k) = true →
    (l.all fun (a : Fin 6 × Src) => decide (s.chip.rd INT_SRC_URG n ≤ s.chip.rd INT_SRC_URG a.2.val)) = true →
    ∃ t, exec (.interruptEntry k l) s = .next t ∧
    (t.chip.core (coreNo k)).pc = ((s.chip.core (coreNo k)).mtvec / 4 * 4 + 4 * n) % 2 ^ 32 ∧
    (t.chip.core (coreNo k)).mepc = (s.chip.core (coreNo k)).pc ∧ (t.chip.core (coreNo k)).mcause = n ∧
    (t.chip.core (coreNo k)).mode = 3 ∧
    (t.chip.core (coreNo k)).mstatus = trapStatus (s.chip.core (coreNo k)).mstatus (s.chip.core (coreNo k)).mode ∧
    (t.chip.core (coreNo k)).frames = frameOf (s.chip.core (coreNo k)) n :: (s.chip.core (coreNo k)).frames ∧
    bitAt (t.chip.rd INT_SRC_ACT n) (coreNo k) = true) ∧
  (∀ (k : Core) (f : Frame) (r : List Frame) (s : State), (s.chip.core (coreNo k)).frames = f :: r →
    s.chip.coreRuns (coreNo k) = true → s.chip.rd INT_SRC_LVL f.src = 0 → s.chip.pendingSrcs = [] →
    ∃ t, exec (.handlerMret k) s = .next t ∧ (t.chip.core (coreNo k)).pc = (s.chip.core (coreNo k)).mepc ∧
    (t.chip.core (coreNo k)).mode = retMode (s.chip.core (coreNo k)).mstatus ∧ (t.chip.core (coreNo k)).gpr = f.words.take 16 ∧
    (t.chip.core (coreNo k)).mepc = (f.words.drop 16).headD 0 ∧ (t.chip.core (coreNo k)).mstatus = (f.words.drop 17).headD 0 ∧
    (t.chip.core (coreNo k)).frames = r ∧ bitAt (t.chip.rd INT_SRC_ACT f.src) (coreNo k) = false) ∧
  (∀ (p : Port) (a : Accum) (s : State), Memory.wf s.chip.mem = true → s.chip.runs islMgmt = true →
    s.chip.runs (islHostA + portNo p) = true → s.chip.queueFull (portNo p) = false → s.chip.due .queueRecord (portNo p) = true →
    s.chip.accum (portNo p) accPort = a → a.cnt ≠ 0 → ∃ t, exec (.queueRecordWrite p) s = .next t ∧
    t.chip.rd HP_Q_TAIL (portNo p) = (s.chip.rd HP_Q_TAIL (portNo p) + 1) % 8192 ∧ (t.chip.accum (portNo p) accPort).cnt = 0 ∧
    t.chip.load (queueBase (portNo p) + s.chip.rd HP_Q_TAIL (portNo p) % 4096 * 16) 16 = leBytes 2 0 ++ leBytes 1 (3 + if a.ovf then 128 else 0) ++ leBytes 1 a.cnt ++ leBytes 8 a.tb ++ leBytes 4 a.data ∧
    SameRegs [(HP_Q_TAIL, portNo p)] [] s.chip t.chip) ∧
  (∀ (p : Port) (a : Accum) (s : State), Memory.wf s.chip.mem = true → s.chip.runs islMgmt = true →
    s.chip.runs (islHostA + portNo p) = true → s.chip.queueFull (portNo p) = false → s.chip.due .queueRecord (portNo p) = true →
    (s.chip.accum (portNo p) accPort).cnt = 0 → s.chip.accum (portNo p) accHallmark = a → a.cnt ≠ 0 →
    ∃ t, exec (.queueRecordWrite p) s = .next t ∧ t.chip.rd HP_Q_TAIL (portNo p) = (s.chip.rd HP_Q_TAIL (portNo p) + 1) % 8192 ∧
    (t.chip.accum (portNo p) accHallmark).cnt = 0 ∧
    t.chip.load (queueBase (portNo p) + s.chip.rd HP_Q_TAIL (portNo p) % 4096 * 16) 16 = leBytes 2 (a.data / 2 ^ 32) ++ leBytes 1 (1 + if a.ovf then 128 else 0) ++ leBytes 1 a.cnt ++ leBytes 8 a.tb ++ leBytes 4 (a.data % 2 ^ 32))

/-- Fabric words, the TB broadcast, SRAM parity, lockstep, protection traps -/
def Obligations.FabricAndParity : Prop :=
  (∀ (l : Link) (w : Word) (x : BitVec 33) (rx : List (BitVec 33)) (s : State), s.chip.powered = true →
    (linkEnds l.val).all s.chip.runs = true → s.chip.linkFaulty l.val = false → oddParity x = true →
    ∃ t, exec (.fabricWord l w (x :: rx)) s = .next t ∧ (tabGet t.chip.link l.val {}).last = x.toNat % 2 ^ 32 ∧
    (tabGet t.chip.link l.val {}).n = (tabGet s.chip.link l.val {}).n + 1 ∧ SameRegs [(FAB_CNT, l.val)] [] s.chip t.chip) ∧
  (∀ (l : Link) (w : Word) (a b c d : BitVec 33) (s : State), s.chip.powered = true → (linkEnds l.val).all s.chip.runs = true →
    s.chip.linkFaulty l.val = false → l.val < 12 → oddParity a = false → oddParity b = false → oddParity c = false →
    oddParity d = false → ∃ t, exec (.fabricWord l w [a, b, c, d]) s = .next t ∧ t.chip.linkFaulty l.val = true ∧
    t.chip.rd FAB_CNT l.val = min (s.chip.rd FAB_CNT l.val + 3) (2 ^ FAB_CNT.w - 1) ∧
    bitAt (t.chip.rd SYS_FLT_FLAGS) SYS_FLT_FLAGS_LINK = true ∧ t.chip.safe l.val = true ∧ t.chip.link = s.chip.link) ∧
  (∀ (i : Isl) (s : State), s.chip.runs islObserver = true → s.chip.due .broadcast = true → i.val ≠ 12 → s.chip.runs i.val = true →
    ∃ t, exec (.tbBroadcast) s = .next t ∧ (t.chip.island i.val).skew = Config.replicaSkew s.chip.frees i.val ∧
    t.chip.frees = s.chip.frees + 1 ∧ t.chip.tb = s.chip.tb ∧ SameRegs [] [] s.chip t.chip) ∧
  (∀ (a : Nat) (x : Word) (s : State), s.chip.powered = true → a < 0x80000 → a % 4 = 0 →
    ∃ t, exec (.sramParityRead .anvilC .tcm a x) s = .next t ∧ t.chip.rd SYS_PAR_ADDR_ADDR = a % 2 ^ SYS_PAR_ADDR_ADDR.w ∧
    t.chip.rd SYS_PAR_ADDR_TCM = 1 ∧ bitAt (t.chip.rd SYS_FLT_FLAGS) SYS_FLT_FLAGS_SRAM = true ∧ t.chip.rdata = x.toNat) ∧
  (∀ (a : Nat) (x : Word) (c : Cl) (s : State), s.chip.powered = true → s.chip.runs (c.val) = true → s.chip.safe c.val = false →
    ∃ t, exec (.sramParityRead .anvilC (.cluster c) a x) s = .next t ∧ t.chip.rdata = x.toNat ∧ t.chip.safe c.val = true ∧
    bitAt (t.chip.rd SYS_FLT_FLAGS) SYS_FLT_FLAGS_SRAM = true ∧ t.chip.rd SYS_PAR_ADDR_ADDR = s.chip.rd SYS_PAR_ADDR_ADDR) ∧
  (∀ (r : Refetch) (rs : List Refetch) (bs : List Byte) (s : State), s.chip.refetch = r :: rs → s.chip.backing r.addr = some bs →
    ∃ t, exec (.sramRefetchDone) s = .next t ∧ t.chip.rdata = leNat bs ∧ t.chip.refetch = rs) ∧
  (∀ (s : State), s.chip.coreV.running = true → s.chip.runs islMgmt = true → s.chip.sys.holdTb = 0 → s.chip.sys.vRestarts = [] →
    ∃ t, exec (.lockstepFault) s = .next t ∧ bitAt (t.chip.rd SYS_FLT_FLAGS) SYS_FLT_FLAGS_LOCKSTEP = true ∧
    t.chip.coreV.running = false ∧ t.chip.sys.vDown = some s.chip.tb) ∧
  (∀ (a : Word) (k : Access) (s : State), s.chip.coreRuns 1 = true → s.chip.mpuOk a.toNat k = false →
    ∃ t, exec (.anvilCProtectionTrap a k) s = .next t ∧
    t.chip.coreC = { s.chip.coreC with mcause := faultCause k, mtval := a.toNat, mepc := s.chip.coreC.pc, mstatus := trapStatus s.chip.coreC.mstatus s.chip.coreC.mode, mode := 3, pc := s.chip.coreC.mtvec / 4 * 4 } ∧
    t.chip.mem = s.chip.mem ∧ SameRegs [] [] s.chip t.chip) ∧
  (∀ (a : Word) (k : Access) (s : State), s.chip.coreRuns 0 = true → coreSees 0 a.toNat k = false →
    ∃ t, exec (.anvilAccessFault .v a k) s = .next t ∧
    t.chip.coreV = { s.chip.coreV with mcause := faultCause k, mtval := a.toNat, mepc := s.chip.coreV.pc, mstatus := trapStatus s.chip.coreV.mstatus s.chip.coreV.mode, mode := 3, pc := s.chip.coreV.mtvec / 4 * 4 } ∧
    t.chip.mem = s.chip.mem ∧ SameRegs [] [] s.chip t.chip)

/-- Tile cache, flushes, write-back, map scan and gate actions -/
def Obligations.TilesAndGates : Prop :=
  (∀ (b : Bool) (k n : Nat) (s : State), layerSlot b n = some k → s.chip.runs islMap = true → s.chip.tileState k = 1 →
    s.chip.nandTile (s.chip.tileKeyOf k) = none → Memory.wf s.chip.mem = true → ∃ t, exec (.tileLoadDone b n false) s = .next t ∧
    t.chip.tileState k = 2 ∧ (if k < 24 then t.chip.rd MAP_CT_STAT_VER k else t.chip.rd MAP_PT_STAT_VER (k - 24)) = 0 ∧
    bitAt (t.chip.rd MAP_FLAGS) MAP_FLAGS_TILE_LOADED = true ∧
    (∀ o, o < tileBytes k → t.chip.byte (tileBase k + o) = s.chip.createByte (tileLayer k))) ∧
  (∀ (b : Bool) (k n : Nat) (s : State), layerSlot b n = some k → s.chip.runs islMap = true → s.chip.tileState k = 1 →
    ∃ t, exec (.tileLoadDone b n true) s = .next t ∧ t.chip.tileState k = 5 ∧
    bitAt (t.chip.rd MAP_FLAGS) MAP_FLAGS_TILE_LOST = true ∧ t.chip.mem = s.chip.mem) ∧
  (∀ (k : Fin 24) (s : State), s.chip.gelow.up = true → s.chip.runs islMap = true → s.chip.tileState k.val = 3 →
    (s.chip.tileSt k.val).flushTb + s.chip.flushTb ≤ s.chip.tb → ∃ t, exec (.tileFlushStart k) s = .next t ∧
    t.chip.tileState k.val = 4 ∧
    t.chip.tileSt k.val = (⟨cellsOf s.chip.mem (tileBase k.val) (tileBytes k.val), false, s.chip.tb⟩ : TileSt) ∧
    t.chip.mem = s.chip.mem ∧ SameRegs [(MAP_CT_STAT_STATE, k.val)] [] s.chip t.chip) ∧
  (∀ (k : Fin 24) (s : State), s.chip.gelow.up = true → s.chip.runs islMap = true → s.chip.tileState k.val = 4 →
    s.chip.writable = true → tabFind s.chip.nand.tiles (s.chip.tileKeyOf k.val) = none →
    ∃ t, exec (.tileFlushCommit k .committed) s = .next t ∧
    t.chip.tileState k.val = (if (s.chip.tileSt k.val).changed then 3 else 2) ∧ t.chip.rd MAP_CT_STAT_VER k.val = 1 ∧
    bitAt (t.chip.rd MAP_FLAGS) MAP_FLAGS_TILE_FLUSHED = true ∧ t.chip.mem = s.chip.mem) ∧
  (∀ (k : Fin 24) (s : State), s.chip.gelow.up = true → s.chip.runs islMap = true → s.chip.tileState k.val = 4 →
    ∃ t, exec (.tileFlushCommit k .refused) s = .next t ∧ t.chip.tileState k.val = 3 ∧
    bitAt (t.chip.rd MAP_FLAGS) MAP_FLAGS_FLUSH_FAIL = true ∧ t.chip.nand = s.chip.nand ∧ t.chip.mem = s.chip.mem) ∧
  (∀ (s : State), s.chip.runs islMap = true → s.chip.runs islObserver = true → s.chip.rd MAP_CFG_EN = 1 →
    s.chip.due .writeback = true → ∀ c : Ch, s.chip.rd MAP_CH_CFG_WB_EN c.val = 0 → ∃ t, exec (.coverageWriteback) s = .next t ∧
    t.chip.map.wbTb = s.chip.tb ∧ t.chip.due .writeback = false ∧ t.chip.mem = s.chip.mem ∧ t.chip.chans = s.chip.chans ∧
    SameRegs [] [] s.chip t.chip) ∧
  (∀ (s : State), s.chip.runs islMap = true → s.chip.runs islObserver = true → s.chip.rd MAP_CFG_EN = 1 →
    s.chip.due .mapScan = true → s.chip.tb % 1000000 = 0 → s.chip.tickAt = s.chip.tb → ∃ t, exec (.mapScan) s = .next t ∧
    t.chip.rd MAP_SCAN_TB_LO = s.chip.tb % 2 ^ 32 ∧ t.chip.rd MAP_STAT_ACTIVE = 1 ∧
    t.chip.rd MAP_STAT_FIELD = s.chip.rd MDL_STAT_FIELD_OK ∧ t.chip.frees = s.chip.frees + 1) ∧
  (∀ (ch : Ch) (k : Scan) (s : State), tabFind s.chip.map.scans ch.val = some k → k.gates = [] → s.chip.runs islMap = true →
    s.chip.runs islAxis = true → ∃ t, exec (.gateActionsCommit ch) s = .next t ∧ (t.chip.chan ch.val).gates = [] ∧
    t.chip.rd MAP_CH_STAT_QN ch.val = 0 ∧ tabFind t.chip.map.scans ch.val = none) ∧
  (∀ (ch : Ch) (g : Gate) (s : State), s.chip.canFire ch.val = true → s.chip.gateable ch.val = true →
    s.chip.gateDue ch.val = some g → s.chip.ownerNext ch.val (g.fireTb.getD s.chip.tb) = none → g.opens = false → g.late = false →
    ∃ t, exec (.gateActionFire ch) s = .next t ∧ t.chip.rd MAP_CH_STAT_GATE ch.val = 0 ∧ t.chip.rd CH_STAT_OUT ch.val = 0 ∧
    ((t.chip.chan ch.val).gates.all fun (h : Gate) => h != g) = true ∧
    t.chip.rd MAP_CH_STAT_OWN_ON ch.val = s.chip.rd MAP_CH_STAT_OWN_ON ch.val) ∧
  (∀ (ch : Ch) (s : State), s.chip.runs islMap = true → ∃ t, exec (.mapGateDisable (some ch)) s = .next t ∧
    t.chip.rd MAP_CH_CFG_GATE_EN ch.val = 0 ∧ t.chip.rd MAP_CH_STAT_GATE ch.val = 1 ∧ (t.chip.chan ch.val).gates = [] ∧
    t.chip.rd MAP_CH_STAT_QN ch.val = 0 ∧ tabFind t.chip.map.scans ch.val = none) ∧
  (∀ (b : Bool) (k n : Nat) (x : NTile) (s : State), layerSlot b n = some k → s.chip.runs islMap = true → s.chip.tileState k = 1 →
    s.chip.nandTile (s.chip.tileKeyOf k) = some x → s.chip.tileGone (s.chip.tileKeyOf k) = false →
    ∃ t, exec (.tileLoadDone b n false) s = .next t ∧ t.chip.tileState k = 2 ∧ t.chip.tileSt k = ({} : TileSt) ∧
    t.chip.mem = (s.chip.setCells (tileBase k) (tileBytes k) x.cells).mem ∧
    (if k < 24 then t.chip.rd MAP_CT_STAT_VER k else t.chip.rd MAP_PT_STAT_VER (k - 24)) = x.ver % 2 ^ 16 ∧
    bitAt (t.chip.rd MAP_FLAGS) MAP_FLAGS_TILE_LOADED = true) ∧
  (∀ (k : Fin 24) (s : State), s.chip.gelow.up = true → s.chip.runs islMap = true → s.chip.tileState k.val = 3 →
    (s.chip.tileSt k.val).flushTb + s.chip.flushTb ≤ s.chip.tb ∨ (s.chip.wanted 0).contains (s.chip.tileTe k.val, s.chip.tileTn k.val) = false ∨ s.chip.unmounting = true →
    ∃ t, exec (.tileFlushStart k) s = .next t ∧ t.chip.tileState k.val = 4 ∧
    t.chip.tileSt k.val = (⟨cellsOf s.chip.mem (tileBase k.val) (tileBytes k.val), false, s.chip.tb⟩ : TileSt) ∧
    t.chip.mem = s.chip.mem ∧ SameRegs [(MAP_CT_STAT_STATE, k.val)] [] s.chip t.chip) ∧
  (∀ (k : Fin 24) (v : Nat) (s : State), s.chip.runs islMap = true → s.chip.gelow.up = true → s.chip.tileState k.val = 4 →
    s.chip.writable = true → v = (match tabFind s.chip.nand.tiles (s.chip.tileKeyOf k.val) with | some x => x.ver + 1 | none => 1) →
    ∃ t, exec (.tileFlushCommit k .committed) s = .next t ∧
    t.chip.tileState k.val = (if (s.chip.tileSt k.val).changed then 3 else 2) ∧ t.chip.rd MAP_CT_STAT_VER k.val = v % 2 ^ 16 ∧
    ((tabFind t.chip.nand.tiles (s.chip.tileKeyOf k.val)).map fun (x : NTile) => (x.ver, x.cells)) = some (v, (s.chip.tileSt k.val).copy) ∧
    bitAt (t.chip.rd MAP_FLAGS) MAP_FLAGS_TILE_FLUSHED = true ∧ t.chip.mem = s.chip.mem) ∧
  (∀ (ch : Ch) (k : Scan) (s : State), tabFind s.chip.map.scans ch.val = some k → s.chip.runs islMap = true →
    s.chip.runs islAxis = true → ∃ t, exec (.gateActionsCommit ch) s = .next t ∧ tabFind t.chip.map.scans ch.val = none ∧
    t.chip.rd MAP_CH_STAT_QN ch.val = (t.chip.chan ch.val).gates.length % 2 ^ MAP_CH_STAT_QN.w ∧
    ((t.chip.chan ch.val).gates.all fun (g : Gate) => k.gates.any fun (h : Gate) => h.at_ == g.at_ && h.opens == g.opens) = true ∧
    t.chip.rd MAP_CH_STAT_GATE ch.val = s.chip.rd MAP_CH_STAT_GATE ch.val) ∧
  (∀ (ch : Ch) (k : Scan) (g : Gate) (s : State), tabFind s.chip.map.scans ch.val = some k → k.gates = [g] → g.fireTb = none →
    g.late = false → s.chip.runs islMap = true → s.chip.runs islAxis = true → (s.chip.chan ch.val).gateDone = [] →
    (s.chip.chAxis ch.val).v = 0 → (s.chip.chAxis ch.val).a = 0 → 0 < axDist (s.chip.chAxis ch.val) g.at_ →
    ∃ t, exec (.gateActionsCommit ch) s = .next t ∧ (t.chip.chan ch.val).gates = [g] ∧ t.chip.rd MAP_CH_STAT_QN ch.val = 1 ∧
    tabFind t.chip.map.scans ch.val = none) ∧
  (∀ (ch : Ch) (s : State), s.chip.runs islMap = true → s.chip.runs islObserver = true → s.chip.rd MAP_CFG_EN = 1 →
    s.chip.due .writeback = true → s.chip.rd MAP_CH_CFG_WB_EN ch.val = 1 → s.chip.axKind (s.chip.rd CH_AXIS_AX ch.val) = 1 →
    s.chip.rd MDL_STAT_FIELD_OK = 1 → ∃ t, exec (.coverageWriteback) s = .next t ∧ t.chip.map.wbTb = s.chip.tb ∧
    t.chip.due .writeback = false ∧
    tabFind t.chip.map.points ch.val = some (⟨(s.chip.chAxis ch.val).fe, (s.chip.chAxis ch.val).fn, s.chip.psiPub, (s.chip.chAxis ch.val).posInt, s.chip.rd CH_AXIS_AX ch.val⟩ : WbPoint)) ∧
  (∀ (ch : Ch) (p b : WbPoint) (k : Stroke) (s : State), s.chip.runs islMap = true → s.chip.runs islObserver = true →
    s.chip.rd MAP_CFG_EN = 1 → s.chip.due .writeback = true → s.chip.gelow.up = false →
    ∀ c : Ch, s.chip.rd MAP_CH_CFG_WB_EN c.val = (if c = ch then 1 else 0) → s.chip.axKind (s.chip.rd CH_AXIS_AX ch.val) = 1 →
    s.chip.rd MDL_STAT_FIELD_OK = 1 → s.chip.rd AX_STAT_DIR (s.chip.rd CH_AXIS_AX ch.val) = 0 →
    tabFind s.chip.map.points ch.val = some p → p.axis = s.chip.rd CH_AXIS_AX ch.val → (s.chip.chan ch.val).strokes = [] →
    (s.chip.chan ch.val).stroke = some k →
    b = (⟨(s.chip.chAxis ch.val).fe, (s.chip.chAxis ch.val).fn, s.chip.psiPub, (s.chip.chAxis ch.val).posInt, s.chip.rd CH_AXIS_AX ch.val⟩ : WbPoint) →
    ∃ t, exec (.coverageWriteback) s = .next t ∧ t.chip.mem = (s.chip.strokeMark ch.val p b s.chip.map.wbTb s.chip.tb k false).2.mem)

/-- The NAND medium, the wear models and the capacitor model -/
def Obligations.Medium : Prop :=
  (∀ (p : NandPage) (s : State), s.chip.rd NC_STAT_MSTATE = 0 → s.chip.gelow.up = true → s.chip.runs islMgmt = true →
    s.chip.inUse 1 = false → NandPage.accepted p = true → s.chip.rd NC_CFG_EN = 1 →
    ∃ t, exec (.nandMount (some p) none []) s = .next t ∧ t.chip.nand.t0.ok = true ∧ t.chip.nand.t0.blocks = p.blocks ∧
    t.chip.rd NC_CFG_EN = 1 ∧ t.chip.rd NC_STAT_T0_OK = 1 ∧ t.chip.rd NC_STAT_T1_OK = 0 ∧
    t.chip.rd NC_GEOM2_BLOCKS = p.blocks % 2 ^ NC_GEOM2_BLOCKS.w ∧ t.chip.rd NC_ENDUR = p.endurance % 2 ^ NC_ENDUR.w ∧
    bitAt (t.chip.rd NC_FLAGS) NC_FLAGS_MOUNTED = true ∧ t.chip.rd NC_STAT_MSTATE ≠ 0) ∧
  (∀ (u : Fin 2) (b c : Nat) (s : State), s.chip.runs islMgmt = true → s.chip.blockOk u.val b = true → c ≤ 40 →
    s.chip.refreshThr < c → ∃ t, exec (.nandOperationDone u (.read b (some c))) s = .next t ∧
    ((t.chip.target u.val).queue.contains b) = true ∧ bitAt (t.chip.rd NC_FLAGS) NC_FLAGS_REFRESH = true ∧
    t.chip.rd NC_ECC_MAXC_ALL = max (s.chip.rd NC_ECC_MAXC_ALL) c % 2 ^ NC_ECC_MAXC_ALL.w ∧
    tabGet (t.chip.target u.val).reads b 0 = tabGet (s.chip.target u.val).reads b 0 + 1) ∧
  (∀ (u : Fin 2) (b : Nat) (s : State), s.chip.runs islMgmt = true → s.chip.blockOk u.val b = true →
    ∃ t, exec (.nandOperationDone u (.erase b false)) s = .next t ∧
    tabGet (t.chip.target u.val).ec b 0 = tabGet (s.chip.target u.val).ec b 0 + 1 ∧
    (t.chip.target u.val).queue = (s.chip.target u.val).queue ∧ (t.chip.target u.val).bad = (s.chip.target u.val).bad) ∧
  (∀ (u : Fin 2) (b : Nat) (r : List Nat) (s : State), (s.chip.target u.val).queue = b :: r → s.chip.blockOk u.val b = true →
    s.chip.writable = true → s.chip.runs islMgmt = true → ∃ t, exec (.nandRefresh u false) s = .next t ∧
    (t.chip.target u.val).queue = r ∧
    ((s.chip.target u.val).lowest.all fun (c : Nat) => (t.chip.target u.val).used.contains c) = true ∧
    (t.chip.target u.val).bad = (s.chip.target u.val).bad ∧ (t.chip.target u.val).ec = (s.chip.target u.val).ec ∧
    SameRegs [] [] s.chip t.chip) ∧
  (∀ (u : Fin 2) (b : Nat) (s : State), s.chip.runs islMgmt = true → s.chip.blockOk u.val b = true →
    s.chip.patrolMay u.val b = true → s.chip.nand.roundTb + s.chip.roundLen ≤ s.chip.tb →
    ∃ t, exec (.nandPatrolRead u b (some 0) true) s = .next t ∧
    t.chip.rd NC_ECC_MAXC_ROUND = s.chip.nand.roundMax % 2 ^ NC_ECC_MAXC_ROUND.w ∧ t.chip.rd NC_PROG_ROUND = 0 ∧
    t.chip.nand.roundMax = 0 ∧ bitAt (t.chip.rd NC_FLAGS) NC_FLAGS_PATROL_DONE = true) ∧
  (∀ (u : Fin 2) (b c : Nat) (e : Bool) (s : State), s.chip.runs islMgmt = true → s.chip.blockOk u.val b = true →
    s.chip.patrolMay u.val b = true → c ≤ 40 → ∃ t, exec (.nandPatrolRead u b (some c) e) s = .next t ∧
    tabGet (t.chip.target u.val).reads b 0 = tabGet (s.chip.target u.val).reads b 0 + 1 ∧
    t.chip.rd NC_ECC_MAXC_ALL = max (s.chip.rd NC_ECC_MAXC_ALL) c % 2 ^ NC_ECC_MAXC_ALL.w ∧
    (t.chip.target u.val).hot = tabDrop (s.chip.target u.val).hot (· == b) ∧ (t.chip.target u.val).ec = (s.chip.target u.val).ec) ∧
  (∀ (u : Fin 2) (c : Nat) (s : State), (s.chip.targets.contains u.val) = true → s.chip.writable = true →
    s.chip.runs islMgmt = true → s.chip.due .nandWear = true → max 1 (s.chip.rd NC_CFG_WL_DELTA) < (s.chip.target u.val).spread →
    (s.chip.target u.val).highest = some c → ∃ t, exec (.nandWearLevelMove u) s = .next t ∧ t.chip.due .nandWear = false ∧
    ((t.chip.target u.val).used.contains c) = true ∧ (t.chip.target u.val).ec = (s.chip.target u.val).ec ∧
    SameRegs [] [] s.chip t.chip) ∧
  (∀ (u : Fin 2) (s : State), (s.chip.targets.contains u.val) = true → s.chip.runs islMgmt = true →
    ∃ t, exec (.nandTargetFail u) s = .next t ∧ (t.chip.target u.val).ok = false ∧ (t.chip.targets.contains u.val) = false ∧
    t.chip.targetOk u.val = false ∧ bitAt (t.chip.rd NC_FLAGS) NC_FLAGS_TARGET_FAIL = true) ∧
  (∀ (s : State), s.chip.targets ≠ [] → s.chip.gelow.up = true → s.chip.runs islMgmt = true → s.chip.due .nandEol = true →
    ∃ t, exec (.nandEolCompute) s = .next t ∧ t.chip.rd NC_EOL_USED = min 255 (100 * s.chip.ecMean / max 1 s.chip.endurance) ∧
    t.chip.due .nandEol = false ∧ t.chip.nand = s.chip.nand) ∧
  (∀ (s : State), s.chip.gelow.up = true → s.chip.runs islMgmt = true → s.chip.writable = true → s.chip.due .wearSave = true →
    ∃ t, exec (.wearSave) s = .next t ∧ t.chip.nand.wear = s.chip.wear ∧ t.chip.nand.bcap = s.chip.bcap.base ∧
    t.chip.due .wearSave = false ∧ SameRegs [] [] s.chip t.chip) ∧
  (∀ (v : Nat) (s : State), s.chip.gelow.up = true → s.chip.runs islMgmt = true → s.chip.bcap.last + minuteTb ≤ s.chip.boostOp →
    s.chip.rd BST_DROOP_DROOP = 0 → ∃ t, exec (.bcapCompute v) s = .next t ∧
    t.chip.bcap = { s.chip.bcap with last := s.chip.boostOp } ∧
    t.chip.rd BCAP_ESR_ESR = min 65535 (s.chip.esrNow.getD (s.chip.rd BCAP_ESR_ESR)) ∧ SameRegs [(BCAP_ESR_ESR, 0)] [] s.chip t.chip) ∧
  (∀ (u : Fin 2) (b c : Nat) (s : State), s.chip.runs islMgmt = true → s.chip.blockOk u.val b = true → c ≤ s.chip.refreshThr →
    c ≤ 40 → ∃ t, exec (.nandOperationDone u (.verify b (some c))) s = .next t ∧
    tabGet (t.chip.target u.val).reads b 0 = tabGet (s.chip.target u.val).reads b 0 + 1 ∧
    t.chip.rd NC_ECC_MAXC_ALL = max (s.chip.rd NC_ECC_MAXC_ALL) c % 2 ^ NC_ECC_MAXC_ALL.w ∧
    (t.chip.target u.val).unsure = (s.chip.target u.val).unsure ∧ (t.chip.target u.val).bad = (s.chip.target u.val).bad) ∧
  (∀ (u : Fin 2) (b : Nat) (s : State), s.chip.runs islMgmt = true → s.chip.blockOk u.val b = true →
    ((s.chip.target u.val).unsure.contains b) = false → ∃ t, exec (.nandOperationDone u (.verify b none)) s = .next t ∧
    (t.chip.target u.val).unsure = b :: (s.chip.target u.val).unsure ∧ (t.chip.target u.val).bad = (s.chip.target u.val).bad ∧
    SameRegs [] [] s.chip t.chip) ∧
  (∀ (u : Fin 2) (b : Nat) (s : State), s.chip.runs islMgmt = true → s.chip.blockOk u.val b = true →
    ((s.chip.target u.val).torn.contains b) = false → (s.chip.target u.val).mayProgram b = true →
    ∃ t, exec (.nandOperationDone u (.program b false)) s = .next t ∧ ((t.chip.target u.val).used.contains b) = true ∧
    (t.chip.target u.val).bad = (s.chip.target u.val).bad ∧ (t.chip.target u.val).ec = (s.chip.target u.val).ec ∧
    SameRegs [] [] s.chip t.chip) ∧
  (∀ (u : Fin 2) (b : Nat) (s : State), s.chip.runs islMgmt = true → s.chip.blockOk u.val b = true →
    ((s.chip.target u.val).torn.contains b) = false → (s.chip.target u.val).mayProgram b = true →
    ∃ t, exec (.nandOperationDone u (.program b true)) s = .next t ∧ (t.chip.target u.val).bad = b :: (s.chip.target u.val).bad ∧
    (t.chip.target u.val).grown = (s.chip.target u.val).grown + 1 ∧ bitAt (t.chip.rd NC_FLAGS) NC_FLAGS_PROG_FAIL = true ∧
    bitAt (t.chip.rd NC_FLAGS) NC_FLAGS_GROWN_BAD = true) ∧
  (∀ (u : Fin 2) (s : State), s.chip.runs islMgmt = true → (s.chip.targets.contains u.val) = true →
    ∃ t, exec (.nandOperationDone u (.log true)) s = .next t ∧ t.chip.nand.logFail = true ∧
    (t.chip.target u.val).bad = (s.chip.target u.val).bad)

/-- Register access, frames of the host ports, doors and mailbox registers -/
def Obligations.BusAndFrames : Prop :=
  (∀ (p : Port) (w : Word) (s : State), s.chip.onBus (portOwner (portNo p)) = true →
    ∃ t, exec (.registerWrite (portOwner (portNo p)) (BitVec.ofNat 24 (HP_CFG_NOTIFY.addrOf (portNo p))) w) s = .next t ∧
    t.chip.rd HP_CFG_NOTIFY (portNo p) = wordField HP_CFG_NOTIFY w.toNat ∧
    t.chip.rd HP_CFG_IRQ_POL (portNo p) = wordField HP_CFG_IRQ_POL w.toNat ∧
    SameRegs [(HP_CFG_NOTIFY, portNo p), (HP_CFG_IRQ_POL, portNo p)] [] s.chip t.chip ∧ t.chip.mem = s.chip.mem) ∧
  (∀ (q : Writer) (a : BitVec 24) (w : Word) (g : Reg) (s : State), regAt a.toNat = some g → s.chip.mayWrite q a.toNat = false →
    q ≠ .anvilC → g.base ≠ SYS_SLEEP_REQ.addr → exec (.registerWrite q a w) s = .next s) ∧
  (∀ (p : Port) (s : State), s.chip.powered = true → s.chip.reaches (HP_CNT_CRC.addrOf (portNo p)) = true →
    ∃ t, exec (.rcRead (BitVec.ofNat 24 (HP_CNT_CRC.addrOf (portNo p)))) s = .next t ∧
    t.chip.rdata = s.chip.rd HP_CNT_CRC (portNo p) + s.chip.rd HP_CNT_CUT (portNo p) * 65536 ∧ t.chip.rd HP_CNT_CRC (portNo p) = 0 ∧
    t.chip.rd HP_CNT_CUT (portNo p) = 0 ∧ SameRegs [(HP_CNT_CRC, portNo p), (HP_CNT_CUT, portNo p)] [] s.chip t.chip) ∧
  (∀ (p : Port) (l : List Byte) (s : State), s.chip.onBus (portOwner (portNo p)) = true → (headerOf l).crcOk = true →
    (headerOf l).reserved = false → (headerOf l).type = 1 → (headerOf l).rpt = false → (headerOf l).words = 1 →
    (headerOf l).addr = 0x40000 + (portNo p) * 0x10000 → 14 ≤ l.length → crc16 ((l.drop 8).take 4) = beNat ((l.drop 12).take 2) →
    s.chip.rd HP_STAT_UP_BUSY (portNo p) = 0 → Memory.wf s.chip.mem = true → ∃ t, exec (.writeFrame p l) s = .next t ∧
    t.chip.load (0x40000 + (portNo p) * 0x10000) 4 = (l.drop 8).take 4 ∧ (t.chip.hport (portNo p)).out = ([0xA0] : List Byte) ∧
    (t.chip.hport (portNo p)).keptW = some (0x40000 + (portNo p) * 0x10000, 1, crc16 ((l.drop 8).take 4), 0xA0) ∧
    SameRegs [] [] s.chip t.chip) ∧
  (∀ (p : Port) (l : List Byte) (s : State), s.chip.onBus (portOwner (portNo p)) = true → (headerOf l).crcOk = true →
    (headerOf l).bad (portNo p) = false → (headerOf l).type = 1 → writeNeeds (headerOf l) ≤ l.length →
    crc16 ((l.drop 8).take (4 * (headerOf l).words)) ≠ beNat ((l.drop (8 + 4 * (headerOf l).words)).take 2) →
    ∃ t, exec (.writeFrame p l) s = .next t ∧ (t.chip.hport (portNo p)).out = ([0xE2] : List Byte) ∧
    t.chip.rd HP_CNT_CRC (portNo p) = min (s.chip.rd HP_CNT_CRC (portNo p) + 1) 65535 ∧
    bitAt (t.chip.rd HP_FLAGS (portNo p)) HP_FLAGS_DCRC = true ∧ t.chip.mem = s.chip.mem ∧
    SameRegs [(HP_CNT_CRC, portNo p), (HP_FLAGS, portNo p)] [.rInt] s.chip t.chip) ∧
  (∀ (p : Port) (l : List Byte) (s : State), s.chip.onBus (portOwner (portNo p)) = true → 8 ≤ l.length →
    (headerOf l).crcOk = true → (headerOf l).bad (portNo p) = false → (headerOf l).type = 0 → (headerOf l).rpt = false →
    (headerOf l).words = 1 → ∃ t, exec (.readFrame p l) s = .next t ∧
    (t.chip.hport (portNo p)).out = readOut 0xA0 (leBytes 4 t.chip.rdata) ∧
    (t.chip.hport (portNo p)).keptR = some ((headerOf l).addr, 1, 0xA0, leBytes 4 t.chip.rdata)) ∧
  (∀ (l : List Byte) (c : Nat) (s : State), s.chip.onBus .hostA = true → c ≤ s.chip.tbOf islHostA → 8 ≤ l.length →
    (headerOf l).crcOk = true → (headerOf l).bad 0 = false → (headerOf l).type = 2 → s.chip.trimRef ≠ 2 →
    ∃ t, exec (.syncFrame .a l c) s = .next t ∧ t.chip.rd HP_SYNC_TB_LO = c % 2 ^ 32 ∧
    t.chip.rd HP_SYNC_TB_HI = c / 2 ^ 32 % 2 ^ 32 ∧ SameRegs [(HP_SYNC_TB_LO, 0), (HP_SYNC_TB_HI, 0)] [] s.chip t.chip) ∧
  (∀ (p : Port) (l : List Byte) (k : Bool) (s : State), s.chip.onBus (portOwner (portNo p)) = true → l.length < 8 →
    ∃ t, exec (.frameCut p l k) s = .next t ∧ bitAt (t.chip.rd HP_FLAGS (portNo p)) HP_FLAGS_FRAME_CUT = true ∧
    t.chip.rd HP_CNT_CUT (portNo p) = min (s.chip.rd HP_CNT_CUT (portNo p) + 1) 65535 ∧ (t.chip.hport (portNo p)).out = [] ∧
    t.chip.mem = s.chip.mem) ∧
  (∀ (x : Mbx) (q : Byte) (s : State), s.chip.mbRuns x.val = true → s.chip.mbUp x.val = true → s.chip.mbSt x.val = 0 →
    s.chip.rd MB_INFO_RESP_RD x.val = 1 → ∃ t, exec (.mbDoor x q) s = .next t ∧ t.chip.rd MB_INFO_DOOR_RES x.val = 0xA0 ∧
    t.chip.rd MB_STATUS_STATE x.val = 1 ∧ t.chip.rd MB_STATUS_SEQ x.val = q.toNat ∧ t.chip.rd MB_STATUS_REASON x.val = 0 ∧
    t.chip.rd MB_INFO_RESP_RD x.val = 0 ∧ t.chip.mem = s.chip.mem) ∧
  (∀ (x : Mbx) (q : Byte) (s : State), s.chip.mbRuns x.val = true → s.chip.mbUp x.val = false →
    ∃ t, exec (.mbDoor x q) s = .next t ∧ t.chip.rd MB_INFO_DOOR_RES x.val = 0xE4 ∧
    SameRegs [(MB_INFO_DOOR_RES, x.val), (HP_FLAGS, x.val / 8)] [.rInt] s.chip t.chip ∧ t.chip.mbox = s.chip.mbox) ∧
  (∀ (x : Mbx) (s : State), s.chip.mbRuns x.val = true → s.chip.mbSt x.val = 1 → ∃ t, exec (.mbAbort x) s = .next t ∧
    (t.chip.mb x.val).abort = true ∧ SameRegs [] [] s.chip t.chip) ∧
  (∀ (x : Mbx) (s : State), s.chip.mbRuns x.val = true → s.chip.rd MB_INFO_HELD x.val = 1 → ∃ t, exec (.mbNext x) s = .next t ∧
    t.chip.rd MB_INFO_HELD x.val = 0 ∧ SameRegs [(MB_INFO_HELD, x.val)] [] s.chip t.chip) ∧
  (∀ (x : Mbx) (s : State), s.chip.mbRuns x.val = true → 4 ≤ s.chip.mbSt x.val → ∃ t, exec (.responseRead x) s = .next t ∧
    t.chip.rd MB_INFO_RESP_RD x.val = 1 ∧ t.chip.rdata = s.chip.loadNat (mbBase x.val + 0x100) 4 ∧
    SameRegs [(MB_INFO_RESP_RD, x.val)] [] s.chip t.chip)

/-- A write of HP_Q_HEAD is taken within the filled part of the queue, and ignored otherwise -/
def Obligations.QueueHeadWrite : Prop :=
  ∀ (p : Port) (w : Word) (s : State), s.chip.runs (islHostA + portNo p) = true → ∃ t, exec (.hpQHeadWrite p w) s = .next t ∧
    t.chip.rd HP_Q_HEAD (portNo p) = (if (w.toNat % 8192 + 8192 - s.chip.rd HP_Q_HEAD (portNo p) % 8192) % 8192 ≤ (s.chip.rd HP_Q_TAIL (portNo p) + 8192 - s.chip.rd HP_Q_HEAD (portNo p) % 8192) % 8192 then w.toNat % 8192 else s.chip.rd HP_Q_HEAD (portNo p)) ∧
    bitAt (t.chip.rd HP_FLAGS (portNo p)) HP_FLAGS_HEAD_REF = (if (w.toNat % 8192 + 8192 - s.chip.rd HP_Q_HEAD (portNo p) % 8192) % 8192 ≤ (s.chip.rd HP_Q_TAIL (portNo p) + 8192 - s.chip.rd HP_Q_HEAD (portNo p) % 8192) % 8192 then bitAt (s.chip.rd HP_FLAGS (portNo p)) HP_FLAGS_HEAD_REF else true) ∧
    SameRegs [(HP_Q_HEAD, portNo p), (HP_FLAGS, portNo p)] [.rInt] s.chip t.chip

/-- Words of the journal writer, the heartbeat, the tick of Gelow, its restart, uploads and chunks -/
def Obligations.JournalAndGelow : Prop :=
  (∀ (w : JWord) (r : List JWord) (x : Rec) (s : State), s.chip.writerRuns = true → s.chip.jour.words = w :: r → w.phase = 2 →
    s.chip.rec? w.jsn = some x → x.phase < 2 → ∃ t, exec (.journalPhaseWord) s = .next t ∧
    t.chip.rec? w.jsn = some ({ x with phase := 2, tb := w.tb } : Rec) ∧ t.chip.jour.words = r ∧ SameRegs [] [] s.chip t.chip) ∧
  (∀ (w : JWord) (r : List JWord) (x : Rec) (s : State), s.chip.writerRuns = true → s.chip.jour.words = w :: r →
    s.chip.rec? w.jsn = some x → x.phase = 3 → ∃ t, exec (.journalPhaseWord) s = .next t ∧
    t.chip.jour = { s.chip.jour with words := r } ∧ SameRegs [] [] s.chip t.chip) ∧
  (∀ (s : State), s.chip.writerRuns = true → s.chip.due .heartbeat = true → ∃ t, exec (.journalHeartbeat) s = .next t ∧
    t.chip.jour = { s.chip.jour with heartbeat := s.chip.tbOf islMgmt } ∧ t.chip.due .heartbeat = false ∧
    SameRegs [] [] s.chip t.chip) ∧
  (∀ (a : BitVec 21) (s : State), s.chip.writerRuns = true → a.toNat < 0x110000 →
    ∃ t, exec (.crucibleUncorrectable a) s = .next t ∧ t.chip.rd SYS_CRUC_ADDR = a.toNat ∧
    t.chip.jour = { s.chip.jour with broken := true, again := false } ∧ bitAt (t.chip.rd SYS_FLT_FLAGS) SYS_FLT_FLAGS_CRUC = true ∧
    SameRegs [(SYS_CRUC_ADDR, 0), (SYS_FLT_FLAGS, 0)] [.rInt] s.chip t.chip) ∧
  (∀ (x : Mbx) (s : State), s.chip.gelow.up = true → s.chip.runs islMgmt = true → s.chip.due .gelow = true →
    s.chip.runs islMap = false → s.chip.chans = [] → s.chip.gelow.collect = false → s.chip.mbox = [] → s.chip.sys.sleepReq = false →
    s.chip.gelow.batch = [] → ∀ c : Cap, ∀ l : Fin 4, s.chip.lane c.val l.val ≠ 3 →
    ∀ y : Mbx, s.chip.mbSt y.val = (if y = x then 1 else 0) → s.chip.mbRuns x.val = true → s.chip.cmdCode x.val = 0 →
    opEntries (s.chip.mbOp x.val) (s.chip.mbPay x.val) ≤ 160 → ∃ t, exec (.gelowTick) s = .next t ∧
    t.chip.rd MB_STATUS_STATE x.val = 2 ∧ t.chip.gelow.batch = [x.val] ∧ t.chip.sys.wdtV = s.chip.tb ∧ t.chip.due .gelow = false ∧
    t.chip.mem = s.chip.mem) ∧
  (∀ (d : Nat) (s : State), s.chip.sys.vDown = some d → s.chip.sys.vReady = false → s.chip.runs islMgmt = true →
    s.chip.jour.staged = [] → s.chip.pool = [] → ∃ t, exec (.anvilVRestart) s = .next t ∧
    t.chip.coreV = { s.chip.coreV with running := true, mode := 3, pc := s.chip.sys.vEntry } ∧
    t.chip.sys = { s.chip.sys with vReady := true } ∧ SameRegs [] [] s.chip t.chip ∧ t.chip.jour = s.chip.jour) ∧
  (∀ (p : Port) (s : State), s.chip.sys.vReady = true → s.chip.runs islMgmt = true → s.chip.gelow.up = false →
    ∀ y : Mbx, s.chip.mbBusy y.val = false → ∃ t, exec (.gelowResume) s = .next t ∧ t.chip.gelow.up = true ∧
    t.chip.gelow.batch = [] ∧ t.chip.sys.vDown = none ∧ t.chip.sys.vReady = false ∧ t.chip.rd HP_STAT_GELOW_UP (portNo p) = 1 ∧
    bitAt (t.chip.rd HP_FLAGS (portNo p)) HP_FLAGS_GELOW_UP_IN = true ∧ t.chip.mem = s.chip.mem) ∧
  (∀ (p : Port) (x n : Nat) (r : LongRun) (s : State), s.chip.upOwner (portNo p) = some (x, r) → s.chip.gelow.up = true →
    s.chip.runs islMgmt = true → s.chip.mbRuns x = true → n = min 65536 (s.chip.rd HP_UP_LEN (portNo p)) → 0 < n → n < r.due →
    ∃ t, exec (.uploadChunkCopy p) s = .next t ∧
    (t.chip.mb x).run = some ({ r with got := r.got ++ s.chip.load (0x40000 + portNo p * 0x10000) n, due := r.due - n } : LongRun) ∧
    t.chip.rd HP_STAT_UP_BUSY (portNo p) = 0 ∧ (t.chip.mb x).nextTb = none ∧ t.chip.mem = s.chip.mem) ∧
  (∀ (x : Mbx) (r : LongRun) (s : State), (s.chip.mb x.val).run = some r → s.chip.gelow.up = true → s.chip.runs islMgmt = true →
    s.chip.mbRuns x.val = true → r.full = true → s.chip.rd MB_INFO_HELD x.val = 0 → r.out.length ≤ 65536 → r.jsn = 0 →
    Memory.wf s.chip.mem = true → ∃ t, exec (.chunkDelivery x) s = .next t ∧ t.chip.rd MB_STATUS_STATE x.val = 4 ∧
    t.chip.rd MB_STATUS_REASON x.val = 0 ∧ t.chip.rd MB_CHUNK_LAST x.val = 1 ∧
    t.chip.rd MB_CHUNK_LEN x.val = (r.out.length + 3) / 4 % 2 ^ MB_CHUNK_LEN.w ∧ t.chip.load (mbWindow x.val) r.out.length = r.out ∧
    (t.chip.mb x.val).run = none) ∧
  (∀ (x : Mbx) (r : LongRun) (s : State), (s.chip.mb x.val).run = some r → s.chip.gelow.up = true → s.chip.runs islMgmt = true →
    s.chip.rd MB_INFO_HELD x.val = 1 → (s.chip.mb x.val).heldTb + 60000 * msTb ≤ s.chip.tb →
    ∃ t, exec (.chunkHoldTimeout x) s = .next t ∧ t.chip.rd MB_STATUS_STATE x.val = 5 ∧ t.chip.rd MB_STATUS_REASON x.val = 3 ∧
    t.chip.rd MB_INFO_HELD x.val = 0 ∧ (t.chip.mb x.val).run = none) ∧
  (∀ (s : State), s.chip.gelow.up = true → s.chip.runs islMgmt = true → s.chip.due .gelow = true → s.chip.sys.sleepReq = false →
    ∃ t, exec (.gelowTick) s = .next t ∧ t.chip.due .gelow = false ∧ t.chip.sys.wdtV = s.chip.tb ∧ t.chip.gelow.up = true ∧
    t.chip.sys.sleepReq = false) ∧
  (∀ (d : Nat) (s : State), s.chip.sys.vDown = some d → s.chip.sys.vReady = false → s.chip.runs islMgmt = true →
    ∃ t, exec (.anvilVRestart) s = .next t ∧
    t.chip.coreV = { s.chip.coreV with running := true, mode := 3, pc := s.chip.sys.vEntry } ∧ t.chip.sys.vReady = true) ∧
  (∀ (p : Port) (s : State), s.chip.sys.vReady = true → s.chip.runs islMgmt = true → s.chip.gelow.up = false →
    ∃ t, exec (.gelowResume) s = .next t ∧ t.chip.gelow.up = true ∧ t.chip.gelow.batch = [] ∧ t.chip.sys.vDown = none ∧
    t.chip.sys.vReady = false ∧ t.chip.rd HP_STAT_GELOW_UP (portNo p) = 1 ∧
    bitAt (t.chip.rd HP_FLAGS (portNo p)) HP_FLAGS_GELOW_UP_IN = true) ∧
  (∀ (x : Mbx) (r : LongRun) (s : State), (s.chip.mb x.val).run = some r → s.chip.gelow.up = true → s.chip.runs islMgmt = true →
    s.chip.mbRuns x.val = true → r.full = true → s.chip.rd MB_INFO_HELD x.val = 0 → 65536 < r.out.length → r.hold = true →
    Memory.wf s.chip.mem = true → ∃ t, exec (.chunkDelivery x) s = .next t ∧ t.chip.rd MB_STATUS_STATE x.val = 3 ∧
    t.chip.rd MB_INFO_HELD x.val = 1 ∧ t.chip.rd MB_CHUNK_LAST x.val = 0 ∧ t.chip.load (mbWindow x.val) 65536 = r.out.take 65536 ∧
    ((t.chip.mb x.val).run.map fun (q : LongRun) => q.out) = some (r.out.drop 65536))

/-- IDENTIFY, STATUS, OPTIONS, RESET, AXIS_SET, AXIS_GET and the map settings, from the head of the batch to STATE 4 -/
def Obligations.SystemAndGeometryCommands : Prop :=
  (∀ (x : Mbx) (s : State), s.chip.isNext x.val 0x0101 = true → Memory.wf s.chip.mem = true → ∃ t, exec (.identify x) s = .next t ∧
    t.chip.rd MB_STATUS_STATE x.val = 4 ∧ t.chip.rd MB_STATUS_REASON x.val = 0 ∧
    t.chip.gelow.batch = s.chip.gelow.batch.filter (fun (y : Nat) => y != x.val) ∧
    t.chip.load (mbBase x.val + 0x110) 13 = leBytes 4 s.chip.sysId ++ leBytes 4 s.chip.sys.vVersion ++ leBytes 4 s.chip.sys.cVersion ++ leBytes 1 (mbWriterNo x.val)) ∧
  (∀ (x : Mbx) (s : State), s.chip.isNext x.val 0x0102 = true → Memory.wf s.chip.mem = true → ∃ t, exec (.status x) s = .next t ∧
    t.chip.rd MB_STATUS_STATE x.val = 4 ∧ t.chip.rd MB_STATUS_REASON x.val = 0 ∧
    t.chip.gelow.batch = s.chip.gelow.batch.filter (fun (y : Nat) => y != x.val) ∧
    t.chip.load (mbBase x.val + 0x110) 16 = leBytes 8 (s.chip.tbOf islMgmt) ++ leBytes 4 (s.chip.jourFree (mbOwner x.val)) ++ leBytes 4 (s.chip.uncollected (mbOwner x.val))) ∧
  (∀ (x : Mbx) (b : Bool) (s : State), s.chip.isNext x.val 0x0103 = true → payNat (s.chip.mbPay x.val) 0 1 = (if b then 1 else 0) →
    ∃ t, exec (.options x) s = .next t ∧ t.chip.rd MB_STATUS_STATE x.val = 4 ∧ t.chip.rd MB_STATUS_REASON x.val = 0 ∧
    t.chip.gelow.batch = s.chip.gelow.batch.filter (fun (y : Nat) => y != x.val) ∧ t.chip.gelow.collect = b) ∧
  (∀ (x : Mbx) (s : State), s.chip.isNext x.val 0x0104 = true → payNat (s.chip.mbPay x.val) 0 1 = 0 →
    ∃ t, exec (.resetAnvilC x) s = .next t ∧ t.chip.rd MB_STATUS_STATE x.val = 4 ∧ t.chip.rd MB_STATUS_REASON x.val = 0 ∧
    t.chip.gelow.batch = s.chip.gelow.batch.filter (fun (y : Nat) => y != x.val) ∧
    t.chip.sys = { s.chip.sys with cAt := some (s.chip.tb + msTb) }) ∧
  (∀ (x : Mbx) (s : State), s.chip.isNext x.val 0x0104 = true → payNat (s.chip.mbPay x.val) 0 1 = 1 →
    ∃ t, exec (.resetModule x) s = .next t ∧ t.chip.rd MB_STATUS_STATE x.val = 4 ∧ t.chip.rd MB_STATUS_REASON x.val = 0 ∧
    t.chip.gelow.batch = s.chip.gelow.batch.filter (fun (y : Nat) => y != x.val) ∧
    t.chip.sys = { s.chip.sys with modAt := some (s.chip.tb + msTb) }) ∧
  (∀ (x : Mbx) (a : Nat) (s : State), s.chip.isNext x.val 0x0202 = true → Memory.wf s.chip.mem = true →
    payNat (s.chip.mbPay x.val) 0 1 = a → payNat (s.chip.mbPay x.val) 1 1 = 1 → ∃ t, exec (.axisGet x) s = .next t ∧
    t.chip.rd MB_STATUS_STATE x.val = 4 ∧ t.chip.rd MB_STATUS_REASON x.val = 0 ∧
    t.chip.gelow.batch = s.chip.gelow.batch.filter (fun (y : Nat) => y != x.val) ∧
    t.chip.load (mbBase x.val + 0x110) 16 = leBytes 1 a ++ leBytes 1 (s.chip.word [AX_CFG_KIND, AX_CFG_SLOT] a) ++ leBytes 1 (s.chip.word [AX_DEFL_DSEL, AX_DEFL_DEN] a) ++ leBytes 1 0 ++ leBytes 4 (s.chip.rd AX_Y a) ++ leBytes 4 (s.chip.rd AX_X a) ++ leBytes 2 (s.chip.rd AX_DEFL_K a) ++ leBytes 2 0) ∧
  (∀ (x : Mbx) (a : Nat) (s : State), s.chip.isNext x.val 0x0201 = true → Memory.wf s.chip.mem = true →
    payNat (s.chip.mbPay x.val) 0 1 = 1 → payNat (s.chip.mbPay x.val) 8 1 = a → s.chip.axOwner a = mbOwner x.val →
    s.chip.runs islAxis = true → ∃ t, exec (.axisSet x) s = .next t ∧ t.chip.rd MB_STATUS_STATE x.val = 4 ∧
    t.chip.rd MB_STATUS_REASON x.val = 0 ∧ t.chip.gelow.batch = s.chip.gelow.batch.filter (fun (y : Nat) => y != x.val) ∧
    t.chip.rd AX_Y a = payNat (s.chip.mbPay x.val) 12 4 % 2 ^ AX_Y.w ∧
    t.chip.rd AX_X a = payNat (s.chip.mbPay x.val) 16 4 % 2 ^ AX_X.w ∧
    t.chip.rd AX_DEFL_K a = payNat (s.chip.mbPay x.val) 20 2 % 2 ^ AX_DEFL_K.w ∧ t.chip.load (mbBase x.val + 0x110) 1 = [0]) ∧
  (∀ (x : Mbx) (s : State), s.chip.isNext x.val 0x0602 = true → s.chip.rd PROT_ROLE_GEOM = mbOwner x.val →
    s.chip.runs islMap = true → ∃ t, exec (.mapConfig x) s = .next t ∧ t.chip.rd MB_STATUS_STATE x.val = 4 ∧
    t.chip.rd MB_STATUS_REASON x.val = 0 ∧ t.chip.gelow.batch = s.chip.gelow.batch.filter (fun (y : Nat) => y != x.val) ∧
    t.chip.rd MAP_DEF_DEF_RATE = payNat (s.chip.mbPay x.val) 4 1 % 2 ^ MAP_DEF_DEF_RATE.w ∧
    t.chip.rd MAP_CFG_EN = payNat (s.chip.mbPay x.val) 0 4 % 2) ∧
  (∀ (x : Mbx) (a : Nat) (s : State), s.chip.isNext x.val 0x0603 = true → payNat (s.chip.mbPay x.val) 0 1 = a →
    payNat (s.chip.mbPay x.val) 1 1 = 1 → s.chip.runs islMap = true → ∃ t, exec (.rateSet x) s = .next t ∧
    t.chip.rd MB_STATUS_STATE x.val = 4 ∧ t.chip.rd MB_STATUS_REASON x.val = 0 ∧
    t.chip.gelow.batch = s.chip.gelow.batch.filter (fun (y : Nat) => y != x.val) ∧
    t.chip.rd MAP_RATE_WIDTH a = wordField MAP_RATE_WIDTH (payNat (s.chip.mbPay x.val) 4 4)) ∧
  (∀ (x : Mbx) (a : Nat) (s : State), s.chip.isNext x.val 0x0604 = true → Memory.wf s.chip.mem = true →
    payNat (s.chip.mbPay x.val) 0 1 = 1 → payNat (s.chip.mbPay x.val) 4 2 = a → a < 192 → s.chip.chOwner a = mbOwner x.val →
    s.chip.runs islMap = true → ∃ t, exec (.mapChSet x) s = .next t ∧ t.chip.rd MB_STATUS_STATE x.val = 4 ∧
    t.chip.rd MB_STATUS_REASON x.val = 0 ∧ t.chip.gelow.batch = s.chip.gelow.batch.filter (fun (y : Nat) => y != x.val) ∧
    t.chip.rd MAP_CH_CFG_GATE_EN a = wordField MAP_CH_CFG_GATE_EN (payNat (s.chip.mbPay x.val) 8 4) ∧
    t.chip.rd MAP_CH_CFG_SWATH a = wordField MAP_CH_CFG_SWATH (payNat (s.chip.mbPay x.val) 8 4) ∧
    t.chip.load (mbBase x.val + 0x110) 1 = [0])

/-- ARM, CANCEL, INHIBIT, EVENT_GET, the train and the lattice commands -/
def Obligations.EventCommands : Prop :=
  (∀ (x : Mbx) (s : State), s.chip.isNext x.val 0x0301 = true → Memory.wf s.chip.mem = true → payNat (s.chip.mbPay x.val) 0 1 = 1 →
    s.chip.armCode false (armEntry (mbOwner x.val) (((s.chip.mbPay x.val).drop 8).take 24)) = 0 → ∃ t, exec (.arm x) s = .next t ∧
    t.chip.rd MB_STATUS_STATE x.val = 4 ∧ t.chip.rd MB_STATUS_REASON x.val = 0 ∧
    t.chip.gelow.batch = s.chip.gelow.batch.filter (fun (y : Nat) => y != x.val) ∧
    (t.chip.jour.recs.getLast?.map fun (r : Rec) => (r.jsn, r.owner, r.ch, r.target, r.phase)) = some (s.chip.jour.nextJsn, mbOwner x.val, (armEntry (mbOwner x.val) (((s.chip.mbPay x.val).drop 8).take 24)).ch, (armEntry (mbOwner x.val) (((s.chip.mbPay x.val).drop 8).take 24)).target, 0) ∧
    t.chip.jour.recs.length = s.chip.jour.recs.length + 1 ∧ t.chip.jour.staged.length = s.chip.jour.staged.length + 1 ∧
    t.chip.load (mbBase x.val + 0x110) 7 = leBytes 6 s.chip.jour.nextJsn ++ [0]) ∧
  (∀ (x : Mbx) (s : State), s.chip.isNext x.val 0x0401 = true → Memory.wf s.chip.mem = true → payNat (s.chip.mbPay x.val) 0 1 = 1 →
    s.chip.armCode true (trainEntry (mbOwner x.val) (((s.chip.mbPay x.val).drop 8).take 32)) = 0 →
    ∃ t, exec (.armTrain x) s = .next t ∧ t.chip.rd MB_STATUS_STATE x.val = 4 ∧ t.chip.rd MB_STATUS_REASON x.val = 0 ∧
    t.chip.gelow.batch = s.chip.gelow.batch.filter (fun (y : Nat) => y != x.val) ∧
    (t.chip.jour.recs.getLast?.map fun (r : Rec) => (r.jsn, r.owner, r.ch, r.target, r.phase)) = some (s.chip.jour.nextJsn, mbOwner x.val, (trainEntry (mbOwner x.val) (((s.chip.mbPay x.val).drop 8).take 32)).ch, (trainEntry (mbOwner x.val) (((s.chip.mbPay x.val).drop 8).take 32)).target, 0) ∧
    t.chip.jour.recs.length = s.chip.jour.recs.length + 1 ∧ t.chip.jour.staged.length = s.chip.jour.staged.length + 1 ∧
    t.chip.load (mbBase x.val + 0x110) 7 = leBytes 6 s.chip.jour.nextJsn ++ [0]) ∧
  (∀ (x : Mbx) (i : Nat) (v : Ev) (s : State), s.chip.isNext x.val 0x0302 = true → Memory.wf s.chip.mem = true →
    payNat (s.chip.mbPay x.val) 0 1 = 1 → s.chip.slotOf (mbOwner x.val) (payNat (s.chip.mbPay x.val) 8 6) = some (i, v) →
    v.life = .armed → s.chip.dueHead v.ch = none → ∃ t, exec (.cancel x) s = .next t ∧ t.chip.rd MB_STATUS_STATE x.val = 4 ∧
    t.chip.rd MB_STATUS_REASON x.val = 0 ∧ t.chip.gelow.batch = s.chip.gelow.batch.filter (fun (y : Nat) => y != x.val) ∧
    t.chip.ev i = none ∧ t.chip.load (mbBase x.val + 0x110) 1 = [0]) ∧
  (∀ (x : Mbx) (ch : Nat) (s : State), s.chip.isNext x.val 0x0303 = true → bitAt (payNat (s.chip.mbPay x.val) 24 1) 0 = true →
    bitmapChs (s.chip.mbPay x.val) = [ch] → ownerRank (s.chip.chOwner ch) < ownerRank (mbOwner x.val) →
    s.chip.jourFree (mbOwner x.val) ≠ 0 → ∃ t, exec (.inhibitSet x) s = .next t ∧ t.chip.rd MB_STATUS_STATE x.val = 4 ∧
    t.chip.rd MB_STATUS_REASON x.val = 0 ∧ t.chip.gelow.batch = s.chip.gelow.batch.filter (fun (y : Nat) => y != x.val) ∧
    t.chip.inhHeld ch (mbOwner x.val) = true ∧ t.chip.jour.recs.length = s.chip.jour.recs.length + 1) ∧
  (∀ (x : Mbx) (ch : Nat) (s : State), s.chip.isNext x.val 0x0303 = true → bitAt (payNat (s.chip.mbPay x.val) 24 1) 0 = false →
    bitmapChs (s.chip.mbPay x.val) = [ch] → ownerRank (s.chip.chOwner ch) < ownerRank (mbOwner x.val) →
    s.chip.jourFree (mbOwner x.val) ≠ 0 → ∃ t, exec (.inhibitRelease x) s = .next t ∧ t.chip.rd MB_STATUS_STATE x.val = 4 ∧
    t.chip.rd MB_STATUS_REASON x.val = 0 ∧ t.chip.gelow.batch = s.chip.gelow.batch.filter (fun (y : Nat) => y != x.val) ∧
    t.chip.inhHeld ch (mbOwner x.val) = false ∧ t.chip.jour.recs.length = s.chip.jour.recs.length + 1) ∧
  (∀ (x : Mbx) (r : Rec) (s : State), s.chip.isNext x.val 0x0304 = true → Memory.wf s.chip.mem = true →
    s.chip.eventRec (mbOwner x.val) (payNat (s.chip.mbPay x.val) 0 6) = some r → ∃ t, exec (.eventGet x) s = .next t ∧
    t.chip.rd MB_STATUS_STATE x.val = 4 ∧ t.chip.rd MB_STATUS_REASON x.val = 0 ∧
    t.chip.gelow.batch = s.chip.gelow.batch.filter (fun (y : Nat) => y != x.val) ∧
    t.chip.load (mbBase x.val + 0x110) 9 = leBytes 1 (s.chip.eventState r) ++ leBytes 1 r.outcome ++ leBytes 2 r.ch ++ leBytes 5 r.target ∧
    t.chip.jour = s.chip.jour) ∧
  (∀ (x : Mbx) (ch : Nat) (k : Train) (s : State), s.chip.isNext x.val 0x0402 = true → Memory.wf s.chip.mem = true →
    payNat (s.chip.mbPay x.val) 0 1 = 1 → payNat (s.chip.mbPay x.val) 8 2 = ch → ch < 192 → s.chip.chOwner ch = mbOwner x.val →
    (s.chip.chan ch).train = some k → 256 ≤ payNat (s.chip.mbPay x.val) 12 4 % 2 ^ TR_PITCH.w →
    payNat (s.chip.mbPay x.val) 16 4 % 2 ^ TR_WIDTH.w ≠ 0 → ∃ t, exec (.trainUpd x) s = .next t ∧
    t.chip.rd MB_STATUS_STATE x.val = 4 ∧ t.chip.rd MB_STATUS_REASON x.val = 0 ∧
    t.chip.gelow.batch = s.chip.gelow.batch.filter (fun (y : Nat) => y != x.val) ∧
    t.chip.rd TR_RUN_PITCH ch = payNat (s.chip.mbPay x.val) 12 4 % 2 ^ TR_PITCH.w ∧
    bitAt (t.chip.rd TR_FLAGS ch) TR_FLAGS_UPD_DONE = true ∧
    ((t.chip.chan ch).train.map fun (k : Train) => k.pitch) = some (payNat (s.chip.mbPay x.val) 12 4 % 2 ^ TR_PITCH.w) ∧
    t.chip.load (mbBase x.val + 0x110) 1 = [0]) ∧
  (∀ (x : Mbx) (ch : Nat) (s : State), s.chip.isNext x.val 0x0403 = true → Memory.wf s.chip.mem = true →
    payNat (s.chip.mbPay x.val) 0 1 = ch → payNat (s.chip.mbPay x.val) 1 1 = 1 →
    s.chip.clearBarred x.val (bitAt (payNat (s.chip.mbPay x.val) 2 1) 0) [ch] = false → ∃ t, exec (.trainReport x) s = .next t ∧
    t.chip.rd MB_STATUS_STATE x.val = 4 ∧ t.chip.rd MB_STATUS_REASON x.val = 0 ∧
    t.chip.gelow.batch = s.chip.gelow.batch.filter (fun (y : Nat) => y != x.val) ∧
    (bitAt (payNat (s.chip.mbPay x.val) 2 1) 0 = false → t.chip.rd TR_FLAGS ch = s.chip.rd TR_FLAGS ch) ∧
    t.chip.load (mbBase x.val + 0x110) 12 = s.chip.trainBytes ch) ∧
  (∀ (x : Mbx) (ch : Nat) (s : State), s.chip.isNext x.val 0x0501 = true → Memory.wf s.chip.mem = true →
    payNat (s.chip.mbPay x.val) 0 1 = 1 → payNat (s.chip.mbPay x.val) 8 2 = ch → ch < 192 → s.chip.chOwner ch = mbOwner x.val →
    s.chip.runs (clusterOf ch) = true → bitAt (payNat (s.chip.mbPay x.val) 12 1) 0 = false → ∃ t, exec (.latticeSet x) s = .next t ∧
    t.chip.rd MB_STATUS_STATE x.val = 4 ∧ t.chip.rd MB_STATUS_REASON x.val = 0 ∧
    t.chip.gelow.batch = s.chip.gelow.batch.filter (fun (y : Nat) => y != x.val) ∧ t.chip.rd LAT_CFG_EN ch = 0 ∧
    t.chip.rd LAT_E0 ch = payNat (s.chip.mbPay x.val) 16 4 % 2 ^ 32 ∧
    t.chip.rd LAT_PITCH_A ch = payNat (s.chip.mbPay x.val) 28 4 % 2 ^ LAT_PITCH_A.w ∧
    t.chip.rd LAT_CELL_OFS ch = payNat (s.chip.mbPay x.val) 52 4 % 2 ^ LAT_CELL_OFS.w ∧
    t.chip.load (mbBase x.val + 0x110) 4 = leBytes 4 0) ∧
  (∀ (x : Mbx) (ch : Nat) (s : State), s.chip.isNext x.val 0x0502 = true → Memory.wf s.chip.mem = true →
    payNat (s.chip.mbPay x.val) 0 1 = ch → payNat (s.chip.mbPay x.val) 1 1 = 1 →
    s.chip.clearBarred x.val (bitAt (payNat (s.chip.mbPay x.val) 2 1) 0) [ch] = false → ∃ t, exec (.latticeReport x) s = .next t ∧
    t.chip.rd MB_STATUS_STATE x.val = 4 ∧ t.chip.rd MB_STATUS_REASON x.val = 0 ∧
    t.chip.gelow.batch = s.chip.gelow.batch.filter (fun (y : Nat) => y != x.val) ∧
    (bitAt (payNat (s.chip.mbPay x.val) 2 1) 0 = false → t.chip.rd LAT_FLAGS ch = s.chip.rd LAT_FLAGS ch) ∧
    t.chip.load (mbBase x.val + 0x110) 20 = s.chip.latticeBytes ch)

/-- JOURNAL_READ, JOURNAL_COLLECT, JOURNAL_FIND and the commands of diagnostics and wear -/
def Obligations.JournalAndDiagnosticsCommands : Prop :=
  (∀ (x : Mbx) (l : List Rec) (s : State), s.chip.isNext x.val 0x0701 = true → Memory.wf s.chip.mem = true →
    l = s.chip.jourRead (mbOwner x.val) (payNat (s.chip.mbPay x.val) 0 6) (payNat (s.chip.mbPay x.val) 6 2) → l ≠ [] →
    ∃ t, exec (.journalRead x) s = .next t ∧ t.chip.rd MB_STATUS_STATE x.val = 4 ∧ t.chip.rd MB_STATUS_REASON x.val = 0 ∧
    t.chip.gelow.batch = s.chip.gelow.batch.filter (fun (y : Nat) => y != x.val) ∧
    t.chip.load (mbWindow x.val) (32 * l.length) = l.flatMap hallmarkBytes ∧
    t.chip.load (mbBase x.val + 0x110) 2 = leBytes 2 l.length ∧ t.chip.jour = s.chip.jour) ∧
  (∀ (x : Mbx) (s : State), s.chip.isNext x.val 0x0702 = true → Memory.wf s.chip.mem = true →
    payNat (s.chip.mbPay x.val) 0 6 ≤ tabGet s.chip.jour.newest (mbOwner x.val) 0 → ∃ t, exec (.journalCollect x) s = .next t ∧
    t.chip.rd MB_STATUS_STATE x.val = 4 ∧ t.chip.rd MB_STATUS_REASON x.val = 0 ∧
    t.chip.gelow.batch = s.chip.gelow.batch.filter (fun (y : Nat) => y != x.val) ∧
    t.chip.jour.recs = s.chip.jour.recs.filter (fun (r : Rec) => !(r.owner == mbOwner x.val && r.phase == 3 && decide (r.jsn ≤ payNat (s.chip.mbPay x.val) 0 6))) ∧
    t.chip.load (mbBase x.val + 0x110) 4 = leBytes 4 (s.chip.jour.recs.filter (fun (r : Rec) => r.owner == mbOwner x.val && r.phase == 3 && decide (r.jsn ≤ payNat (s.chip.mbPay x.val) 0 6))).length) ∧
  (∀ (x : Mbx) (j n : Nat) (s : State), s.chip.isNext x.val 0x0703 = true → Memory.wf s.chip.mem = true →
    s.chip.jourFind (mbOwner x.val) (payNat (s.chip.mbPay x.val) 0 4) = (j, n) → ∃ t, exec (.journalFind x) s = .next t ∧
    t.chip.rd MB_STATUS_STATE x.val = 4 ∧ t.chip.rd MB_STATUS_REASON x.val = 0 ∧
    t.chip.gelow.batch = s.chip.gelow.batch.filter (fun (y : Nat) => y != x.val) ∧
    t.chip.load (mbBase x.val + 0x110) 7 = leBytes 6 j ++ leBytes 1 n ∧ t.chip.jour = s.chip.jour) ∧
  (∀ (x : Mbx) (k u : Nat) (s : State), s.chip.isNext x.val 0x0801 = true → Memory.wf s.chip.mem = true →
    payNat (s.chip.mbPay x.val) 0 1 = k → payNat (s.chip.mbPay x.val) 1 1 = u → payNat (s.chip.mbPay x.val) 2 1 = 1 →
    u < counterUnits k → s.chip.gelow.collect = true → s.chip.jourFree (mbOwner x.val) ≠ 0 → ∃ t, exec (.counters x) s = .next t ∧
    t.chip.rd MB_STATUS_STATE x.val = 4 ∧ t.chip.rd MB_STATUS_REASON x.val = 0 ∧
    t.chip.gelow.batch = s.chip.gelow.batch.filter (fun (y : Nat) => y != x.val) ∧
    t.chip.load (mbWindow x.val) (4 * (s.chip.counts (mbOwner x.val) k u).length) = (s.chip.counts (mbOwner x.val) k u).flatMap (leBytes 4) ∧
    t.chip.jour.recs.length = s.chip.jour.recs.length + 1 ∧ t.chip.gelow.snaps.length = s.chip.gelow.snaps.length + 1) ∧
  (∀ (x : Mbx) (c : Copy) (s : State), s.chip.isNext x.val 0x0802 = true → Memory.wf s.chip.mem = true →
    tabFind s.chip.copies (payNat (s.chip.mbPay x.val) 0 1) = some c → c.samples ≠ [] → s.chip.jourFree (mbOwner x.val) ≠ 0 →
    ∃ t, exec (.captureGet x) s = .next t ∧ t.chip.rd MB_STATUS_STATE x.val = 4 ∧ t.chip.rd MB_STATUS_REASON x.val = 0 ∧
    t.chip.gelow.batch = s.chip.gelow.batch.filter (fun (y : Nat) => y != x.val) ∧
    t.chip.load (mbWindow x.val) (2 * c.samples.length) = c.samples.flatMap (leBytes 2) ∧
    t.chip.load (mbBase x.val + 0x110) 8 = leBytes 1 (payNat (s.chip.mbPay x.val) 0 1) ++ leBytes 1 c.lanes ++ leBytes 2 c.dec ++ leBytes 4 c.samples.length ∧
    t.chip.copies = s.chip.copies ∧ t.chip.jour.recs.length = s.chip.jour.recs.length + 1) ∧
  (∀ (x : Mbx) (a : Nat) (s : State), s.chip.isNext x.val 0x0803 = true → payNat (s.chip.mbPay x.val) 0 1 = a →
    payNat (s.chip.mbPay x.val) 1 1 = 1 → s.chip.jourFree (mbOwner x.val) ≠ 0 → ∃ t, exec (.wearReport x) s = .next t ∧
    t.chip.jour.staged = s.chip.jour.staged ++ ([.diag s.chip.jour.nextJsn] : List Staged) ∧
    t.chip.jour.recs.length = s.chip.jour.recs.length + 1 ∧
    ((t.chip.mb x.val).run.map fun (r : LongRun) => (r.jsn, r.full, r.out)) = some (s.chip.jour.nextJsn, true, s.chip.wearBytes a ++ s.chip.eolBytes) ∧
    t.chip.rd MB_STATUS_PROGRESS x.val = 1 ∧ t.chip.gelow.batch = s.chip.gelow.batch.filter (fun (y : Nat) => y != x.val)) ∧
  (∀ (x : Mbx) (a : Nat) (s : State), s.chip.isNext x.val 0x0901 = true → payNat (s.chip.mbPay x.val) 0 1 = a →
    payNat (s.chip.mbPay x.val) 1 1 = 1 → s.chip.chOwner a = mbOwner x.val → ∃ t, exec (.wearParam x) s = .next t ∧
    t.chip.rd MB_STATUS_STATE x.val = 4 ∧ t.chip.rd MB_STATUS_REASON x.val = 0 ∧
    t.chip.gelow.batch = s.chip.gelow.batch.filter (fun (y : Nat) => y != x.val) ∧
    (t.chip.wearOf a).dLim = payNat (s.chip.mbPay x.val) 2 2 ∧ (t.chip.wearOf a).sLim = payNat (s.chip.mbPay x.val) 4 2 ∧
    (t.chip.wearOf a).inputs = (s.chip.wearOf a).inputs) ∧
  (∀ (x : Mbx) (a : Nat) (s : State), s.chip.isNext x.val 0x0902 = true → bitmapChs (s.chip.mbPay x.val) = [a] →
    bitAt (payNat (s.chip.mbPay x.val) 24 1) 0 = false → s.chip.chOwner a = mbOwner x.val → ∃ t, exec (.wearReset x) s = .next t ∧
    t.chip.rd MB_STATUS_STATE x.val = 4 ∧ t.chip.rd MB_STATUS_REASON x.val = 0 ∧
    t.chip.gelow.batch = s.chip.gelow.batch.filter (fun (y : Nat) => y != x.val) ∧ (t.chip.wearOf a).inputs = 0 ∧
    (t.chip.wearOf a).cleared = true ∧ (t.chip.wearOf a).dLim = (s.chip.wearOf a).dLim ∧ t.chip.rd DG_WEAR0_WSTATE a = 0 ∧
    t.chip.bcap = s.chip.bcap)

/-- MOUNT, TILE_LOAD, FW_UPDATE, COVERAGE_EXPORT, CAL_SWEEP and SELF_TEST begin; MOUNT of a mounted medium completes -/
def Obligations.LongCommands : Prop :=
  (∀ (x : Mbx) (s : State), s.chip.isNext x.val 0x0601 = true → Memory.wf s.chip.mem = true → s.chip.rd NC_CFG_EN = 1 →
    s.chip.rd NC_STAT_MSTATE ≠ 0 → bitAt (payNat (s.chip.mbPay x.val) 0 1) 0 = true → ∃ t, exec (.mount x) s = .next t ∧
    t.chip.rd MB_STATUS_STATE x.val = 4 ∧ t.chip.rd MB_STATUS_REASON x.val = 0 ∧
    t.chip.gelow.batch = s.chip.gelow.batch.filter (fun (y : Nat) => y != x.val) ∧ t.chip.rd MB_STATUS_PROGRESS x.val = 100 ∧
    t.chip.rd NC_CFG_TMODE = payNat (s.chip.mbPay x.val) 1 1 % 2 ^ NC_CFG_TMODE.w ∧
    t.chip.load (mbBase x.val + 0x110) 12 = leBytes 4 (s.chip.rd NC_STAT_MSTATE) ++ leBytes 4 (s.chip.rd NC_BLK_GOOD) ++ leBytes 4 (s.chip.rd NC_SPARE)) ∧
  (∀ (x : Mbx) (s : State), s.chip.isNext x.val 0x0601 = true → s.chip.rd NC_CFG_EN = 0 →
    bitAt (payNat (s.chip.mbPay x.val) 0 1) 0 = true → ∃ t, exec (.mount x) s = .next t ∧
    ((t.chip.mb x.val).run.map fun (r : LongRun) => r.op) = some 0x601 ∧
    t.chip.rd NC_CFG_REFRESH_THR = payNat (s.chip.mbPay x.val) 2 1 % 2 ^ NC_CFG_REFRESH_THR.w ∧
    t.chip.rd NC_CFG_T1_EN = payNat (s.chip.mbPay x.val) 0 1 / 4 % 2 ∧
    t.chip.gelow.batch = s.chip.gelow.batch.filter (fun (y : Nat) => y != x.val)) ∧
  (∀ (x : Mbx) (p : Nat) (s : State), s.chip.isNext x.val 0x0605 = true → mbPort x.val = some p → s.chip.writable = true →
    s.chip.rd HP_STAT_UP_TAKEN p = 0 → ∃ t, exec (.tileLoad x) s = .next t ∧ t.chip.rd HP_STAT_UP_TAKEN p = 1 ∧
    t.chip.rd HP_STAT_UP_MB p = x.val % 8 ∧ t.chip.rd MB_INFO_UP_WAIT x.val = 1 ∧
    ((t.chip.mb x.val).run.map fun (r : LongRun) => (r.op, r.due)) = some (0x605, 64 + layerBytes (payNat (s.chip.mbPay x.val) 0 1))) ∧
  (∀ (x : Mbx) (p : Nat) (s : State), s.chip.isNext x.val 0x0905 = true → mbPort x.val = some p → s.chip.writable = true →
    s.chip.rd HP_STAT_UP_TAKEN p = 0 → ∃ t, exec (.fwUpdate x) s = .next t ∧ t.chip.rd HP_STAT_UP_TAKEN p = 1 ∧
    t.chip.rd HP_STAT_UP_MB p = x.val % 8 ∧ t.chip.rd MB_INFO_UP_WAIT x.val = 1 ∧
    ((t.chip.mb x.val).run.map fun (r : LongRun) => (r.op, r.due)) = some (0x905, payNat (s.chip.mbPay x.val) 4 4)) ∧
  (∀ (x : Mbx) (e n : Int) (s : State), s.chip.isNext x.val 0x0606 = true → toSigned 16 (payNat (s.chip.mbPay x.val) 0 2) = e →
    toSigned 16 (payNat (s.chip.mbPay x.val) 4 2) = e → toSigned 16 (payNat (s.chip.mbPay x.val) 2 2) = n →
    toSigned 16 (payNat (s.chip.mbPay x.val) 6 2) = n → s.chip.tileSlot 0 e n = none → s.chip.nandTile (tileKey 0 e n) = none →
    ∃ t, exec (.coverageExport x) s = .next t ∧
    ((t.chip.mb x.val).run.map fun (r : LongRun) => (r.op, r.full, r.out)) = some (0x606, true, ([] : List Byte)) ∧
    ((t.chip.mb x.val).run.map fun (r : LongRun) => r.resp) = some (leBytes 2 0 ++ leBytes 2 0 ++ leBytes 4 0) ∧
    t.chip.rd MB_STATUS_PROGRESS x.val = 0) ∧
  (∀ (x : Mbx) (l : List Nat) (s : State), s.chip.isNext x.val 0x0903 = true → l = bitmapChs (s.chip.mbPay x.val) →
    ∃ t, exec (.calSweep x) s = .next t ∧
    ((t.chip.mb x.val).run.map fun (r : LongRun) => (r.op, r.next, r.full, r.cals)) = some (0x903, s.chip.tb, false, l.map fun (ch : Nat) => ({ ch := ch, left := payNat (s.chip.mbPay x.val) 24 2 } : Cal)) ∧
    SameRegs [] [] s.chip t.chip) ∧
  (∀ (x : Mbx) (a : List Int) (t2 t3 t4 : Nat) (l : List BankTest) (s : State), s.chip.isNext x.val 0x0904 = true →
    payNat (s.chip.mbPay x.val) 0 4 = 16 → a.length = 616 → l.length = 24 →
    (l.all fun (b : BankTest) => b.nodes.length == 8) = true → ∃ t, exec (.selfTest x a t2 t3 t4 l) s = .next t ∧
    ((t.chip.mb x.val).run.map fun (r : LongRun) => (r.op, r.full, r.out)) = some (0x904, true, leBytes 4 (min t4 0xFFFFFFFE)) ∧
    t.chip.rd MB_STATUS_PROGRESS x.val = 1 ∧ SameRegs [(MB_STATUS_PROGRESS, x.val)] [] s.chip t.chip) ∧
  (∀ (x : Mbx) (l : List (Int × Int)) (s : State), s.chip.isNext x.val 0x0606 = true →
    l = rectTiles (toSigned 16 (payNat (s.chip.mbPay x.val) 0 2)) (toSigned 16 (payNat (s.chip.mbPay x.val) 2 2)) (toSigned 16 (payNat (s.chip.mbPay x.val) 4 2)) (toSigned 16 (payNat (s.chip.mbPay x.val) 6 2)) →
    toSigned 16 (payNat (s.chip.mbPay x.val) 0 2) ≤ toSigned 16 (payNat (s.chip.mbPay x.val) 4 2) →
    toSigned 16 (payNat (s.chip.mbPay x.val) 2 2) ≤ toSigned 16 (payNat (s.chip.mbPay x.val) 6 2) → l.length ≤ 64 →
    l.any s.chip.exportLost = false → ∃ t, exec (.coverageExport x) s = .next t ∧
    ((t.chip.mb x.val).run.map fun (r : LongRun) => (r.op, r.full, r.out)) = some (0x606, true, (l.filterMap s.chip.exportTile).flatten) ∧
    t.chip.rd MB_STATUS_PROGRESS x.val = (l.filterMap s.chip.exportTile).length % 2 ^ MB_STATUS_PROGRESS.w ∧ t.chip.mem = s.chip.mem) ∧
  (∀ (x : Mbx) (a : List Int) (t2 t3 t4 : Nat) (l : List BankTest) (ws : List Nat) (s : State), s.chip.isNext x.val 0x0904 = true →
    a.length = 616 → l.length = 24 → (l.all fun (b : BankTest) => b.nodes.length == 8) = true →
    (s.chip.selfTests (payNat (s.chip.mbPay x.val) 0 4) [0, 0, t2, t3, t4] a l (List.range 32)).1 = ws →
    ∃ t, exec (.selfTest x a t2 t3 t4 l) s = .next t ∧
    ((t.chip.mb x.val).run.map fun (r : LongRun) => (r.op, r.full, r.out)) = some (0x904, true, ws.flatMap (leBytes 4)) ∧
    t.chip.rd MB_STATUS_PROGRESS x.val = ws.length % 2 ^ MB_STATUS_PROGRESS.w)
end

