-- ==== Sys2Proof/Laws/Memory.lean ====
section
/-! SUPPORT. The laws of byte memory: a read after a store, other addresses, the canonical form, and little-endian numbers. -/

namespace Sys2Proof.Machine

theorem memGet_low (c : List Host.Cell) (lo a : Nat) (w : memRising lo c) (h : a < lo) : memGet c a = 0 := by
  induction c generalizing lo with
  | nil => rfl
  | cons p r ih =>
    obtain ⟨j, v⟩ := p
    simp only [memRising, Bool.and_eq_true, decide_eq_true_eq] at w
    have : j ≠ a := by omega
    simp only [memGet, this, if_false]
    exact ih (j + 1) w.2 (by omega)

theorem memRising_mono {a b : Nat} (c : List Host.Cell) (h : a ≤ b) (w : memRising b c) : memRising a c := by
  cases c with
  | nil => rfl
  | cons p r =>
    obtain ⟨j, v⟩ := p
    simp only [memRising, Bool.and_eq_true, decide_eq_true_eq] at w ⊢
    exact ⟨⟨Nat.le_trans h w.1.1, w.1.2⟩, w.2⟩

theorem memGet_put_same (c : List Host.Cell) (lo a : Nat) (b : Byte) (w : memRising lo c) : memGet (memPut c a b) a = b := by
  induction c generalizing lo with
  | nil =>
    by_cases h : b = 0
    · simp only [memPut, h, if_true, memGet]
    · simp only [memPut, h, if_false, memGet, if_true]
  | cons p r ih =>
    obtain ⟨j, v⟩ := p
    simp only [memRising, Bool.and_eq_true, decide_eq_true_eq] at w
    by_cases h : a < j
    · by_cases z : b = 0
      · subst z
        simp only [memPut, h, if_true]
        have : j ≠ a := by omega
        simp only [memGet, this, if_false]
        exact memGet_low r (j + 1) a w.2 (by omega)
      · simp only [memPut, h, z, if_true, if_false, memGet]
    · by_cases e : a = j
      · subst e
        by_cases z : b = 0
        · subst z
          simp only [memPut, h, if_true, if_false]
          exact memGet_low r (a + 1) a w.2 (by omega)
        · simp only [memPut, h, z, if_true, if_false, memGet]
      · have n : j ≠ a := Ne.symm e
        simp only [memPut, h, e, if_false, memGet, n]
        exact ih (j + 1) w.2

theorem memGet_put_ne (c : List Host.Cell) (a x : Nat) (b : Byte) (hne : x ≠ a) : memGet (memPut c a b) x = memGet c x := by
  induction c with
  | nil =>
    by_cases h : b = 0
    · simp only [memPut, h, if_true]
    · simp only [memPut, h, if_false, memGet, Ne.symm hne]
  | cons p r ih =>
    obtain ⟨j, v⟩ := p
    by_cases h : a < j
    · by_cases z : b = 0
      · simp only [memPut, h, z, if_true]
      · simp only [memPut, h, z, if_true, if_false, memGet, Ne.symm hne]
    · by_cases e : a = j
      · subst e
        by_cases z : b = 0
        · simp only [memPut, h, z, if_true, if_false, memGet, Ne.symm hne]
        · simp only [memPut, h, z, if_true, if_false, memGet, Ne.symm hne]
      · simp only [memPut, h, e, if_false, memGet, ih]

theorem memRising_put (c : List Host.Cell) (lo a : Nat) (b : Byte) (w : memRising lo c) (h : lo ≤ a) : memRising lo (memPut c a b) := by
  induction c generalizing lo with
  | nil =>
    by_cases z : b = 0
    · simp only [memPut, z, if_true, memRising]
    · simp only [memPut, z, if_false, memRising, Bool.and_eq_true, decide_eq_true_eq]
      exact ⟨⟨h, z⟩, trivial⟩
  | cons p r ih =>
    obtain ⟨j, v⟩ := p
    simp only [memRising, Bool.and_eq_true, decide_eq_true_eq] at w
    by_cases l : a < j
    · by_cases z : b = 0
      · simp only [memPut, l, z, if_true, memRising, Bool.and_eq_true, decide_eq_true_eq]
        exact w
      · simp only [memPut, l, z, if_true, if_false, memRising, Bool.and_eq_true, decide_eq_true_eq]
        exact ⟨⟨h, z⟩, ⟨by omega, w.1.2⟩, w.2⟩
    · by_cases e : a = j
      · subst e
        by_cases z : b = 0
        · simp only [memPut, l, z, if_true, if_false]
          exact memRising_mono r (by omega) w.2
        · simp only [memPut, l, z, if_true, if_false, memRising, Bool.and_eq_true, decide_eq_true_eq]
          exact ⟨⟨h, z⟩, w.2⟩
      · simp only [memPut, l, e, if_false, memRising, Bool.and_eq_true, decide_eq_true_eq]
        exact ⟨w.1, ih (j + 1) w.2 (by omega)⟩

theorem memRising_clear (c : List Host.Cell) (lo x n : Nat) (w : memRising lo c) : memRising lo (memClear c x n) := by
  induction c generalizing lo with
  | nil => rfl
  | cons p r ih =>
    obtain ⟨j, v⟩ := p
    simp only [memRising, Bool.and_eq_true, decide_eq_true_eq] at w
    by_cases h : x ≤ j ∧ j < x + n
    · simp only [memClear, h, and_self, if_true]
      exact memRising_mono _ (by omega) (ih (j + 1) w.2)
    · simp only [memClear, h, if_false, memRising, Bool.and_eq_true, decide_eq_true_eq]
      exact ⟨w.1, ih (j + 1) w.2⟩

theorem memGet_clear (c : List Host.Cell) (x n a : Nat) : memGet (memClear c x n) a = if x ≤ a ∧ a < x + n then 0 else memGet c a := by
  induction c with
  | nil => simp [memClear, memGet]
  | cons p r ih =>
    obtain ⟨j, v⟩ := p
    by_cases h : x ≤ j ∧ j < x + n
    · simp only [memClear, h, and_self, if_true, ih, memGet]
      by_cases e : j = a
      · subst e; simp [h]
      · simp [e]
    · simp only [memClear, h, if_false, memGet, ih]
      by_cases e : j = a
      · subst e; simp [h]
      · simp [e]

/-! ## Stores -/

theorem store_wf (m : Chip) (a : Nat) (bs : List Byte) (w : Memory.wf m.mem) : Memory.wf (m.store a bs).mem := by
  induction bs generalizing m a with
  | nil => exact w
  | cons b r ih => exact ih { m with mem := memPut m.mem a b } (a + 1) (memRising_put m.mem 0 a b w (Nat.zero_le _))

theorem clearMem_wf (m : Chip) (x n : Nat) (w : Memory.wf m.mem) : Memory.wf (m.clearMem x n).mem := memRising_clear m.mem 0 x n w

theorem byte_store_outside (m : Chip) (a x : Nat) (bs : List Byte) (h : x < a ∨ a + bs.length ≤ x) : (m.store a bs).byte x = m.byte x := by
  induction bs generalizing m a with
  | nil => rfl
  | cons b r ih =>
    simp only [List.length_cons] at h
    rw [Chip.store, ih _ _ (by omega)]
    exact memGet_put_ne m.mem a x b (by omega)

theorem byte_store_inside (m : Chip) (a k : Nat) (bs : List Byte) (w : Memory.wf m.mem) (h : k < bs.length) :
    (m.store a bs).byte (a + k) = bs[k] := by
  induction bs generalizing m a k with
  | nil => simp at h
  | cons b r ih =>
    cases k with
    | zero =>
      rw [Chip.store, Nat.add_zero, byte_store_outside _ _ _ _ (by omega)]
      exact memGet_put_same m.mem 0 a b w
    | succ n =>
      have hn : n < r.length := by simpa using h
      have e : a + (n + 1) = a + 1 + n := by omega
      rw [Chip.store, e]
      exact ih { m with mem := memPut m.mem a b } (a + 1) n (memRising_put m.mem 0 a b w (Nat.zero_le _)) hn

theorem store_regs (m : Chip) (a : Nat) (bs : List Byte) : (m.store a bs).regs = m.regs := by
  induction bs generalizing m a with
  | nil => rfl
  | cons b r ih => rw [Chip.store, ih]

/-! ## Little-endian numbers (R6) -/

theorem leBytes_length (n v : Nat) : (leBytes n v).length = n := by
  induction n generalizing v with
  | zero => rfl
  | succ k ih => simp [leBytes, ih]

theorem leNat_leBytes (n v : Nat) : leNat (leBytes n v) = v % 256 ^ n := by
  induction n generalizing v with
  | zero => simp [leBytes, leNat, Nat.mod_one]
  | succ k ih =>
    have e : (BitVec.ofNat 8 v).toNat = v % 256 := BitVec.toNat_ofNat v 8
    simp only [leBytes, leNat, ih, e]
    rw [Nat.pow_succ, Nat.mul_comm (256 ^ k) 256, Nat.mod_mul]

end Sys2Proof.Machine
end

