-- ==== Sys2Proof/Laws/Tab.lean ====
section
/-! SUPPORT. The laws of tables: a read after a write, other keys, and the canonical form. -/

namespace Sys2Proof.Machine

theorem tabGet_put_same {α : Type} (t : Tab α) (k : Nat) (v d : α) : tabGet (tabPut t k v) k d = v := by
  induction t with
  | nil => simp [tabPut, tabGet]
  | cons p r ih =>
    obtain ⟨j, w⟩ := p
    by_cases h : k < j
    · simp [tabPut, h, tabGet]
    · by_cases e : k = j
      · simp [tabPut, e, tabGet]
      · simp [tabPut, h, e, tabGet, Ne.symm e, ih]

theorem tabGet_put_ne {α : Type} (t : Tab α) (k i : Nat) (v d : α) (hne : i ≠ k) :
    tabGet (tabPut t k v) i d = tabGet t i d := by
  induction t with
  | nil => simp [tabPut, tabGet, Ne.symm hne]
  | cons p r ih =>
    obtain ⟨j, w⟩ := p
    by_cases h : k < j
    · simp [tabPut, h, tabGet, Ne.symm hne]
    · by_cases e : k = j
      · subst e; simp [tabPut, tabGet, Ne.symm hne]
      · simp only [tabPut, h, e, if_false, tabGet, ih]

theorem tabGet_put {α : Type} (t : Tab α) (k i : Nat) (v d : α) :
    tabGet (tabPut t k v) i d = if i = k then v else tabGet t i d := by
  split
  · next h => rw [h, tabGet_put_same]
  · next h => rw [tabGet_put_ne _ _ _ _ _ h]

theorem tabFind_put_same {α : Type} (t : Tab α) (k : Nat) (v : α) : tabFind (tabPut t k v) k = some v := by
  induction t with
  | nil => simp [tabPut, tabFind]
  | cons p r ih =>
    obtain ⟨j, w⟩ := p
    by_cases h : k < j
    · simp [tabPut, h, tabFind]
    · by_cases e : k = j
      · simp [tabPut, e, tabFind]
      · simp [tabPut, h, e, tabFind, Ne.symm e, ih]

theorem tabFind_put_ne {α : Type} (t : Tab α) (k i : Nat) (v : α) (hne : i ≠ k) :
    tabFind (tabPut t k v) i = tabFind t i := by
  induction t with
  | nil => simp [tabPut, tabFind, Ne.symm hne]
  | cons p r ih =>
    obtain ⟨j, w⟩ := p
    by_cases h : k < j
    · simp [tabPut, h, tabFind, Ne.symm hne]
    · by_cases e : k = j
      · subst e; simp [tabPut, tabFind, Ne.symm hne]
      · simp only [tabPut, h, e, if_false, tabFind, ih]

theorem tabGet_drop {α : Type} (t : Tab α) (p : Nat → Bool) (i : Nat) (d : α) :
    tabGet (tabDrop t p) i d = if p i then d else tabGet t i d := by
  induction t with
  | nil => simp [tabDrop, tabGet]
  | cons q r ih =>
    obtain ⟨j, w⟩ := q
    by_cases h : p j
    · simp only [tabDrop, h, if_true, ih, tabGet]
      by_cases e : j = i
      · subst e; simp [h]
      · simp [e]
    · simp only [tabDrop, h, Bool.false_eq_true, if_false, tabGet, ih]
      by_cases e : j = i
      · subst e; simp [h]
      · simp [e]

/-! ## The canonical form -/

theorem tabRising_mono {α : Type} {a b : Nat} (t : Tab α) (h : a ≤ b) (w : tabRising b t) : tabRising a t := by
  cases t with
  | nil => rfl
  | cons p r =>
    simp only [tabRising, Bool.and_eq_true, decide_eq_true_eq] at w ⊢
    exact ⟨Nat.le_trans h w.1, w.2⟩

theorem tabRising_put {α : Type} (t : Tab α) (lo k : Nat) (v : α) (w : tabRising lo t) (h : lo ≤ k) :
    tabRising lo (tabPut t k v) := by
  induction t generalizing lo with
  | nil => simp [tabPut, tabRising, h]
  | cons p r ih =>
    obtain ⟨j, x⟩ := p
    simp only [tabRising, Bool.and_eq_true, decide_eq_true_eq] at w
    by_cases a : k < j
    · simp only [tabPut, a, if_true, tabRising, Bool.and_eq_true, decide_eq_true_eq]
      exact ⟨h, a, w.2⟩
    · by_cases e : k = j
      · subst e
        simp only [tabPut, a, if_false, if_true, tabRising, Bool.and_eq_true, decide_eq_true_eq]
        exact ⟨h, w.2⟩
      · simp only [tabPut, a, e, if_false, tabRising, Bool.and_eq_true, decide_eq_true_eq]
        exact ⟨w.1, ih _ w.2 (by omega)⟩

theorem tabRising_drop {α : Type} (t : Tab α) (lo : Nat) (p : Nat → Bool) (w : tabRising lo t) : tabRising lo (tabDrop t p) := by
  induction t generalizing lo with
  | nil => rfl
  | cons q r ih =>
    obtain ⟨j, x⟩ := q
    simp only [tabRising, Bool.and_eq_true, decide_eq_true_eq] at w
    by_cases h : p j
    · simp only [tabDrop, h, if_true]
      exact tabRising_mono _ (by omega) (ih _ w.2)
    · simp only [tabDrop, h, Bool.false_eq_true, if_false, tabRising, Bool.and_eq_true, decide_eq_true_eq]
      exact ⟨w.1, ih _ w.2⟩

theorem tabWf_put {α : Type} (t : Tab α) (k : Nat) (v : α) (w : tabWf t) : tabWf (tabPut t k v) :=
  tabRising_put t 0 k v w (Nat.zero_le _)

theorem tabWf_drop {α : Type} (t : Tab α) (p : Nat → Bool) (w : tabWf t) : tabWf (tabDrop t p) := tabRising_drop t 0 p w

/-! ## Members -/

theorem mem_tabPut {α : Type} {t : Tab α} {k : Nat} {v : α} {p : Nat × α} (h : p ∈ tabPut t k v) : p = (k, v) ∨ p ∈ t := by
  induction t with
  | nil => exact .inl (by simpa [tabPut] using h)
  | cons q r ih =>
    obtain ⟨j, w⟩ := q
    by_cases a : k < j
    · simpa only [tabPut, a, if_true, List.mem_cons] using h
    · by_cases e : k = j
      · simp only [tabPut, e, Nat.lt_irrefl, if_false, if_true, List.mem_cons] at h ⊢
        exact h.imp id .inr
      · simp only [tabPut, a, e, if_false, List.mem_cons] at h ⊢
        rcases h with h | h
        · exact .inr (.inl h)
        · exact (ih h).imp id .inr

theorem mem_tabDrop {α : Type} {t : Tab α} {f : Nat → Bool} {p : Nat × α} (h : p ∈ tabDrop t f) : p ∈ t := by
  induction t with
  | nil => simp [tabDrop] at h
  | cons q r ih =>
    obtain ⟨j, w⟩ := q
    by_cases a : f j
    · simp only [tabDrop, a, if_true] at h
      exact List.mem_cons_of_mem _ (ih h)
    · simp only [tabDrop, a, Bool.false_eq_true, if_false, List.mem_cons] at h ⊢
      exact h.imp id ih

theorem tabGet_cases {α : Type} (t : Tab α) (k : Nat) (d : α) : tabGet t k d = d ∨ (k, tabGet t k d) ∈ t := by
  induction t with
  | nil => exact .inl rfl
  | cons q r ih =>
    obtain ⟨j, w⟩ := q
    by_cases e : j = k
    · simp [tabGet, e]
    · simp only [tabGet, e, if_false, List.mem_cons]
      exact ih.imp id .inr

theorem tabRising_filter {α : Type} (t : Tab α) (lo : Nat) (f : Nat × α → Bool) (w : tabRising lo t) : tabRising lo (t.filter f) := by
  induction t generalizing lo with
  | nil => rfl
  | cons q r ih =>
    obtain ⟨j, x⟩ := q
    simp only [tabRising, Bool.and_eq_true, decide_eq_true_eq] at w
    by_cases h : f (j, x)
    · simp only [List.filter, h, tabRising, Bool.and_eq_true, decide_eq_true_eq]
      exact ⟨w.1, ih _ w.2⟩
    · simp only [List.filter, h]
      exact tabRising_mono _ (by omega) (ih _ w.2)

end Sys2Proof.Machine
end

