-- ==== Sys2Proof/Laws/Moves.lean ====
section
/-! SUPPORT. What the operations of the block do, said once: every operation moves the block by basic moves, each within a part. Invariants
and frames are proved over the basic moves alone. -/

-- Theorem by theorem: many at once each take a thread's stack, and the package as one text ran out of them.
set_option Elab.async false


namespace Sys2Proof.Machine

/-- All parts of one list are in another. -/
def within (a b : List Part) : Bool := a.all b.contains

theorem within_mem {a b : List Part} (h : within a b = true) {p : Part} (hp : p ∈ a) : p ∈ b := by
  simp only [within, List.all_eq_true] at h
  exact List.contains_iff_mem.1 (h p hp)

theorem within_sub {a b c : List Part} (h : within b c = true) (g : within a b = true) : within a c = true := by
  simp only [within, List.all_eq_true]
  exact fun p hp => List.contains_iff_mem.2 (within_mem h (within_mem g hp))

theorem within_head {p : Part} {a b : List Part} (h : within (p :: a) b = true) : within [p] b = true :=
  within_sub h (by simp [within])

theorem within_tail {p : Part} {a b : List Part} (h : within (p :: a) b = true) : within a b = true := by
  simp only [within, List.all_cons, Bool.and_eq_true] at h ⊢
  exact h.2

theorem within_cons {p : Part} {a b : List Part} (h : within [p] b = true) (g : within a b = true) : within (p :: a) b = true := by
  simp only [within, List.all_cons, List.all_nil, Bool.and_eq_true, Bool.and_true] at h g ⊢
  exact ⟨h, g⟩

theorem within_refl (a : List Part) : within a a = true := by
  simp only [within, List.all_eq_true]
  exact fun p hp => List.contains_iff_mem.2 hp

/-- The components beside the registers, memory, the records and the saved map rows: each the same, or in a part that may change. -/
structure Upd (L : List Part) (x y : Chip) : Prop where
  regs : y.regs = x.regs
  mem : y.mem = x.mem
  recs : y.jour.recs = x.jour.recs
  next : y.jour.nextJsn = x.jour.nextJsn
  saved : y.map.saved = x.map.saved
  tb : y.tb = x.tb ∨ Part.tb ∈ L
  isl : y.isl = x.isl ∨ Part.isl ∈ L
  stamps : y.stamps = x.stamps ∨ Part.stamps ∈ L
  frees : y.frees = x.frees ∨ Part.frees ∈ L
  rdata : y.rdata = x.rdata ∨ Part.rdata ∈ L
  asleep : y.asleep = x.asleep ∨ Part.asleep ∈ L
  accums : y.accums = x.accums ∨ Part.accums ∈ L
  holdEnd : y.holdEnd = x.holdEnd ∨ Part.holdEnd ∈ L
  coreV : y.coreV = x.coreV ∨ Part.coreV ∈ L
  coreC : y.coreC = x.coreC ∨ Part.coreC ∈ L
  whl : y.whl = x.whl ∨ Part.whl ∈ L
  mdl : y.mdl = x.mdl ∨ Part.mdl ∈ L
  axes : y.axes = x.axes ∨ Part.axes ∈ L
  pool : y.pool = x.pool ∨ Part.pool ∈ L
  poolLast : y.poolLast = x.poolLast ∨ Part.poolLast ∈ L
  orderNo : y.orderNo = x.orderNo ∨ Part.orderNo ∈ L
  chans : y.chans = x.chans ∨ Part.chans ∈ L
  banks : y.banks = x.banks ∨ Part.banks ∈ L
  boost : y.boost = x.boost ∨ Part.boost ∈ L
  capReq : y.capReq = x.capReq ∨ Part.capReq ∈ L
  capTb : y.capTb = x.capTb ∨ Part.capTb ∈ L
  copies : y.copies = x.copies ∨ Part.copies ∈ L
  wear : y.wear = x.wear ∨ Part.wear ∈ L
  bcap : y.bcap = x.bcap ∨ Part.bcap ∈ L
  jour : y.jour = x.jour ∨ Part.jour ∈ L
  fe : y.fe = x.fe ∨ Part.fe ∈ L
  fio : y.fio = x.fio ∨ Part.fio ∈ L
  tim : y.tim = x.tim ∨ Part.tim ∈ L
  adc : y.adc = x.adc ∨ Part.adc ∈ L
  assay : y.assay = x.assay ∨ Part.assay ∈ L
  cmp : y.cmp = x.cmp ∨ Part.cmp ∈ L
  sds : y.sds = x.sds ∨ Part.sds ∈ L
  map : y.map = x.map ∨ Part.map ∈ L
  nand : y.nand = x.nand ∨ Part.nand ∈ L
  mbox : y.mbox = x.mbox ∨ Part.mbox ∈ L
  port : y.port = x.port ∨ Part.port ∈ L
  gelow : y.gelow = x.gelow ∨ Part.gelow ∈ L
  sys : y.sys = x.sys ∨ Part.sys ∈ L
  sup : y.sup = x.sup ∨ Part.sup ∈ L
  link : y.link = x.link ∨ Part.link ∈ L
  refetch : y.refetch = x.refetch ∨ Part.refetch ∈ L
  cyc : y.cyc = x.cyc ∨ Part.cyc ∈ L

/-- The basic moves of the journal's records and its next JSN (R359, R364, R369, R372, R376). -/
inductive RecMove : List Rec × Nat → List Rec × Nat → Prop where
  | accept (rs : List Rec) (j n : Nat) (r : Rec) (hr : r.jsn = j) (hp : r.phase ≠ 3) : RecMove (rs, j) (rs ++ [r], n)
  | acc (rs : List Rec) (j first n : Nat) : RecMove (rs, j) (rs.map fun r => if r.first = first then { r with acc := n } else r, j)
  | commit (rs : List Rec) (j : Nat) (old new : Rec) (hf : rs.find? (·.jsn == new.jsn) = some old) (hp : old.phase ≠ 3) :
      RecMove (rs, j) (rs.map fun x => if x.jsn = new.jsn then new else x, j)
  | restart (rs : List Rec) (j t : Nat) :
      RecMove (rs, j) (rs.map fun r =>
        if r.phase = 3 then r else { r with phase := 3, outcome := restartOutcome r, cause := 11, restart := true, tb := t, lat := 0 }, j)

/-- The parts that are register blocks. -/
def regParts : List Part :=
  [.rHp, .rMb, .rCh, .rTr, .rLat, .rDrv, .rAx, .rWhl, .rMdl, .rBk, .rBst, .rPwr, .rDg, .rDgb, .rCap, .rBcap, .rAdc, .rAs, .rCmp, .rSds,
    .rAin, .rFe, .rFio, .rTim, .rInt, .rSys, .rSup, .rProt, .rMap, .rNc]

/-- The components that a module reset may leave changed. -/
def restParts : List Part :=
  [.tb, .isl, .stamps, .frees, .rdata, .asleep, .accums, .holdEnd, .coreV, .coreC, .whl, .mdl, .axes, .pool, .poolLast, .orderNo, .chans, .banks, .boost, .capReq, .capTb, .copies, .wear, .bcap, .jour, .fe, .fio, .tim, .adc, .assay, .cmp, .sds, .map, .nand, .mbox, .port, .gelow, .sys, .sup, .link, .refetch, .cyc]

theorem ite_mem {α : Type} {c : Prop} [Decidable c] {x y : α} {l : List α} (hx : x ∈ l) (hy : y ∈ l) : (if c then x else y) ∈ l := by
  split
  · exact hx
  · exact hy

theorem Field.part_mem (f : Field) : f.part ∈ regParts := by
  unfold Field.part partOfAddr
  repeat' first | apply ite_mem | decide

theorem within_field {L : List Part} (f : Field) (w : within regParts L = true) : within [f.part] L = true := by
  simp only [within, List.all_cons, List.all_nil, Bool.and_true]
  exact List.contains_iff_mem.2 (within_mem w f.part_mem)

/-- The block y can come from m by basic moves within the parts L. -/
inductive Moves (L : List Part) (m : Chip) : Chip → Prop where
  | refl : Moves L m m
  | wr {x : Chip} (f : Field) (i v : Nat) (hp : f.part ∈ L) (h : Moves L m x) : Moves L m (x.wr f i v)
  | drop {x : Chip} (f : Field) (p : Nat → Bool) (hp : f.part ∈ L) (h : Moves L m x) :
      Moves L m { x with regs := tabPut x.regs f.id (tabDrop (tabGet x.regs f.id []) p) }
  | byte {x : Chip} (a : Nat) (b : Byte) (hp : Part.mem ∈ L) (h : Moves L m x) : Moves L m { x with mem := memPut x.mem a b }
  | clear {x : Chip} (lo n : Nat) (hp : Part.mem ∈ L) (h : Moves L m x) : Moves L m { x with mem := memClear x.mem lo n }
  | wipe {x : Chip} (hp : Part.mem ∈ L) (h : Moves L m x) : Moves L m { x with mem := [] }
  | upd {x y : Chip} (h : Moves L m x) (u : Upd L x y) : Moves L m y
  | recs {x : Chip} (rs : List Rec) (n : Nat) (hp : Part.recs ∈ L) (h : Moves L m x) (r : RecMove (x.jour.recs, x.jour.nextJsn) (rs, n)) :
      Moves L m { x with jour := { x.jour with recs := rs, nextJsn := n } }
  | collect {x : Chip} (o upto : Nat) (hp : Part.collect ∈ L) (h : Moves L m x) :
      Moves L m { x with jour := { x.jour with
        recs := x.jour.recs.filter fun r => !(r.owner == o && r.phase == 3 && decide (r.jsn ≤ upto)) } }
  | save {x : Chip} (fs : List Field) (hp : Part.saved ∈ L) (h : Moves L m x) :
      Moves L m { x with map := { x.map with saved := some (x.map.saved.getD (keepRows fs x.regs)) } }
  | restore {x : Chip} (rows : Tab (Tab Nat)) (hp : Part.saved ∈ L) (hr : ∀ p ∈ regParts, p ∈ L) (h : Moves L m x)
      (hs : x.map.saved = some rows) :
      Moves L m { x with regs := rows.foldl (fun t p => tabPut t p.1 p.2) x.regs, map := { x.map with saved := none } }
  | reboot {x y : Chip} (fs : List Field) (hr : ∀ p ∈ regParts ++ [.mem, .saved] ++ restParts, p ∈ L) (h : Moves L m x)
      (h1 : y.regs = keepRows fs x.regs) (h2 : y.mem = []) (h3 : y.jour.recs = x.jour.recs) (h4 : y.jour.nextJsn = x.jour.nextJsn)
      (h5 : y.map.saved = none) : Moves L m y

theorem Upd.refl (L : List Part) (x : Chip) : Upd L x x := by
  constructor <;> first | rfl | exact .inl rfl

theorem Upd.mono {L L' : List Part} {x y : Chip} (u : Upd L x y) (w : within L L' = true) : Upd L' x y := by
  obtain ⟨h1, h2, h3, h4, h5, c0, c1, c2, c3, c4, c5, c6, c7, c8, c9, c10, c11, c12, c13, c14, c15, c16, c17, c18, c19, c20, c21, c22, c23, c24, c25, c26, c27, c28, c29, c30, c31, c32, c33, c34, c35, c36, c37, c38, c39, c40, c41⟩ := u
  refine ⟨h1, h2, h3, h4, h5, c0.imp id (within_mem w), c1.imp id (within_mem w), c2.imp id (within_mem w), c3.imp id (within_mem w), c4.imp id (within_mem w), c5.imp id (within_mem w), c6.imp id (within_mem w), c7.imp id (within_mem w), c8.imp id (within_mem w), c9.imp id (within_mem w), c10.imp id (within_mem w), c11.imp id (within_mem w), c12.imp id (within_mem w), c13.imp id (within_mem w), c14.imp id (within_mem w), c15.imp id (within_mem w), c16.imp id (within_mem w), c17.imp id (within_mem w), c18.imp id (within_mem w), c19.imp id (within_mem w), c20.imp id (within_mem w), c21.imp id (within_mem w), c22.imp id (within_mem w), c23.imp id (within_mem w), c24.imp id (within_mem w), c25.imp id (within_mem w), c26.imp id (within_mem w), c27.imp id (within_mem w), c28.imp id (within_mem w), c29.imp id (within_mem w), c30.imp id (within_mem w), c31.imp id (within_mem w), c32.imp id (within_mem w), c33.imp id (within_mem w), c34.imp id (within_mem w), c35.imp id (within_mem w), c36.imp id (within_mem w), c37.imp id (within_mem w), c38.imp id (within_mem w), c39.imp id (within_mem w), c40.imp id (within_mem w), c41.imp id (within_mem w)⟩

theorem Moves.mono {L L' : List Part} {m x : Chip} (w : within L L' = true) (h : Moves L m x) : Moves L' m x := by
  induction h with
  | refl => exact .refl
  | wr f i v hp _ ih => exact .wr f i v (within_mem w hp) ih
  | drop f p hp _ ih => exact .drop f p (within_mem w hp) ih
  | byte a b hp _ ih => exact .byte a b (within_mem w hp) ih
  | clear lo n hp _ ih => exact .clear lo n (within_mem w hp) ih
  | wipe hp _ ih => exact .wipe (within_mem w hp) ih
  | upd _ u ih => exact .upd ih (u.mono w)
  | recs rs n hp _ r ih => exact .recs rs n (within_mem w hp) ih r
  | collect o u hp _ ih => exact .collect o u (within_mem w hp) ih
  | save fs hp _ ih => exact .save fs (within_mem w hp) ih
  | restore rows hp hr _ hs ih => exact .restore rows (within_mem w hp) (fun p q => within_mem w (hr p q)) ih hs
  | reboot fs hr _ h1 h2 h3 h4 h5 ih => exact .reboot fs (fun p q => within_mem w (hr p q)) ih h1 h2 h3 h4 h5

theorem Moves.trans {L : List Part} {m x y : Chip} (h : Moves L m x) (g : Moves L x y) : Moves L m y := by
  induction g with
  | refl => exact h
  | wr f i v hp _ ih => exact .wr f i v hp ih
  | drop f p hp _ ih => exact .drop f p hp ih
  | byte a b hp _ ih => exact .byte a b hp ih
  | clear lo n hp _ ih => exact .clear lo n hp ih
  | wipe hp _ ih => exact .wipe hp ih
  | upd _ u ih => exact .upd ih u
  | recs rs n hp _ r ih => exact .recs rs n hp ih r
  | collect o u hp _ ih => exact .collect o u hp ih
  | save fs hp _ ih => exact .save fs hp ih
  | restore rows hp hr _ hs ih => exact .restore rows hp hr ih hs
  | reboot fs hr _ h1 h2 h3 h4 h5 ih => exact .reboot fs hr ih h1 h2 h3 h4 h5

/-- An operation after others. -/
theorem Moves.step {L L' : List Part} {m x y : Chip} (h : Moves L m x) (g : Moves L' x y) (w : within L' L = true) : Moves L m y :=
  h.trans (g.mono w)

theorem Moves.ite {L : List Part} {m x y : Chip} {c : Prop} [Decidable c] (h : Moves L m x) (g : Moves L m y) :
    Moves L m (if c then x else y) := by
  split
  · exact h
  · exact g

theorem Moves.ite_snd {α : Type} {L : List Part} {m : Chip} {x y : α × Chip} {c : Prop} [Decidable c] (h : Moves L m x.2)
    (g : Moves L m y.2) : Moves L m (if c then x else y).2 := by
  split
  · exact h
  · exact g

theorem Moves.pair {α : Type} {L : List Part} {m x : Chip} {a : α} (h : Moves L m x) : Moves L m (a, x).2 := h

/-- A loop of an operation. -/
theorem Moves.foldl {α : Type} {L : List Part} {m x : Chip} {f : Chip → α → Chip} {l : List α} (h : Moves L m x)
    (hf : ∀ y a, Moves L m y → Moves L m (f y a)) : Moves L m (l.foldl f x) := by
  induction l generalizing x with
  | nil => exact h
  | cons a r ih => exact ih (hf x a h)

/-- A loop of an operation beside a result. -/
theorem Moves.foldl_snd {α β : Type} {L : List Part} {m : Chip} {f : β × Chip → α → β × Chip} {l : List α} {x : β × Chip}
    (h : Moves L m x.2) (hf : ∀ y a, Moves L m y.2 → Moves L m (f y a).2) : Moves L m (l.foldl f x).2 := by
  induction l generalizing x with
  | nil => exact h
  | cons a r ih => exact ih (hf x a h)

theorem Moves.foldl_trd {α β γ : Type} {L : List Part} {m : Chip} {f : β × γ × Chip → α → β × γ × Chip} {l : List α} {x : β × γ × Chip}
    (h : Moves L m x.2.2) (hf : ∀ y a, Moves L m y.2.2 → Moves L m (f y a).2.2) : Moves L m (l.foldl f x).2.2 := by
  induction l generalizing x with
  | nil => exact h
  | cons a r ih => exact ih (hf x a h)

theorem Moves.tb {L : List Part} {m x : Chip} {v} (h : Moves L m x) (w : within [Part.tb] L = true) : Moves L m { x with tb := v } :=
  .upd h ⟨rfl, rfl, rfl, rfl, rfl, .inr (within_mem w (by simp)), .inl rfl, .inl rfl, .inl rfl, .inl rfl, .inl rfl, .inl rfl, .inl rfl, .inl rfl, .inl rfl, .inl rfl, .inl rfl, .inl rfl, .inl rfl, .inl rfl, .inl rfl, .inl rfl, .inl rfl, .inl rfl, .inl rfl, .inl rfl, .inl rfl, .inl rfl, .inl rfl, .inl rfl, .inl rfl, .inl rfl, .inl rfl, .inl rfl, .inl rfl, .inl rfl, .inl rfl, .inl rfl, .inl rfl, .inl rfl, .inl rfl, .inl rfl, .inl rfl, .inl rfl, .inl rfl, .inl rfl, .inl rfl⟩

theorem Moves.isl {L : List Part} {m x : Chip} {v} (h : Moves L m x) (w : within [Part.isl] L = true) : Moves L m { x with isl := v } :=
  .upd h ⟨rfl, rfl, rfl, rfl, rfl, .inl rfl, .inr (within_mem w (by simp)), .inl rfl, .inl rfl, .inl rfl, .inl rfl, .inl rfl, .inl rfl, .inl rfl, .inl rfl, .inl rfl, .inl rfl, .inl rfl, .inl rfl, .inl rfl, .inl rfl, .inl rfl, .inl rfl, .inl rfl, .inl rfl, .inl rfl, .inl rfl, .inl rfl, .inl rfl, .inl rfl, .inl rfl, .inl rfl, .inl rfl, .inl rfl, .inl rfl, .inl rfl, .inl rfl, .inl rfl, .inl rfl, .inl rfl, .inl rfl, .inl rfl, .inl rfl, .inl rfl, .inl rfl, .inl rfl, .inl rfl⟩

theorem Moves.stamps {L : List Part} {m x : Chip} {v} (h : Moves L m x) (w : within [Part.stamps] L = true) : Moves L m { x with stamps := v } :=
  .upd h ⟨rfl, rfl, rfl, rfl, rfl, .inl rfl, .inl rfl, .inr (within_mem w (by simp)), .inl rfl, .inl rfl, .inl rfl, .inl rfl, .inl rfl, .inl rfl, .inl rfl, .inl rfl, .inl rfl, .inl rfl, .inl rfl, .inl rfl, .inl rfl, .inl rfl, .inl rfl, .inl rfl, .inl rfl, .inl rfl, .inl rfl, .inl rfl, .inl rfl, .inl rfl, .inl rfl, .inl rfl, .inl rfl, .inl rfl, .inl rfl, .inl rfl, .inl rfl, .inl rfl, .inl rfl, .inl rfl, .inl rfl, .inl rfl, .inl rfl, .inl rfl, .inl rfl, .inl rfl, .inl rfl⟩

theorem Moves.frees {L : List Part} {m x : Chip} {v} (h : Moves L m x) (w : within [Part.frees] L = true) : Moves L m { x with frees := v } :=
  .upd h ⟨rfl, rfl, rfl, rfl, rfl, .inl rfl, .inl rfl, .inl rfl, .inr (within_mem w (by simp)), .inl rfl, .inl rfl, .inl rfl, .inl rfl, .inl rfl, .inl rfl, .inl rfl, .inl rfl, .inl rfl, .inl rfl, .inl rfl, .inl rfl, .inl rfl, .inl rfl, .inl rfl, .inl rfl, .inl rfl, .inl rfl, .inl rfl, .inl rfl, .inl rfl, .inl rfl, .inl rfl, .inl rfl, .inl rfl, .inl rfl, .inl rfl, .inl rfl, .inl rfl, .inl rfl, .inl rfl, .inl rfl, .inl rfl, .inl rfl, .inl rfl, .inl rfl, .inl rfl, .inl rfl⟩

theorem Moves.rdata {L : List Part} {m x : Chip} {v} (h : Moves L m x) (w : within [Part.rdata] L = true) : Moves L m { x with rdata := v } :=
  .upd h ⟨rfl, rfl, rfl, rfl, rfl, .inl rfl, .inl rfl, .inl rfl, .inl rfl, .inr (within_mem w (by simp)), .inl rfl, .inl rfl, .inl rfl, .inl rfl, .inl rfl, .inl rfl, .inl rfl, .inl rfl, .inl rfl, .inl rfl, .inl rfl, .inl rfl, .inl rfl, .inl rfl, .inl rfl, .inl rfl, .inl rfl, .inl rfl, .inl rfl, .inl rfl, .inl rfl, .inl rfl, .inl rfl, .inl rfl, .inl rfl, .inl rfl, .inl rfl, .inl rfl, .inl rfl, .inl rfl, .inl rfl, .inl rfl, .inl rfl, .inl rfl, .inl rfl, .inl rfl, .inl rfl⟩

theorem Moves.asleep {L : List Part} {m x : Chip} {v} (h : Moves L m x) (w : within [Part.asleep] L = true) : Moves L m { x with asleep := v } :=
  .upd h ⟨rfl, rfl, rfl, rfl, rfl, .inl rfl, .inl rfl, .inl rfl, .inl rfl, .inl rfl, .inr (within_mem w (by simp)), .inl rfl, .inl rfl, .inl rfl, .inl rfl, .inl rfl, .inl rfl, .inl rfl, .inl rfl, .inl rfl, .inl rfl, .inl rfl, .inl rfl, .inl rfl, .inl rfl, .inl rfl, .inl rfl, .inl rfl, .inl rfl, .inl rfl, .inl rfl, .inl rfl, .inl rfl, .inl rfl, .inl rfl, .inl rfl, .inl rfl, .inl rfl, .inl rfl, .inl rfl, .inl rfl, .inl rfl, .inl rfl, .inl rfl, .inl rfl, .inl rfl, .inl rfl⟩

theorem Moves.accums {L : List Part} {m x : Chip} {v} (h : Moves L m x) (w : within [Part.accums] L = true) : Moves L m { x with accums := v } :=
  .upd h ⟨rfl, rfl, rfl, rfl, rfl, .inl rfl, .inl rfl, .inl rfl, .inl rfl, .inl rfl, .inl rfl, .inr (within_mem w (by simp)), .inl rfl, .inl rfl, .inl rfl, .inl rfl, .inl rfl, .inl rfl, .inl rfl, .inl rfl, .inl rfl, .inl rfl, .inl rfl, .inl rfl, .inl rfl, .inl rfl, .inl rfl, .inl rfl, .inl rfl, .inl rfl, .inl rfl, .inl rfl, .inl rfl, .inl rfl, .inl rfl, .inl rfl, .inl rfl, .inl rfl, .inl rfl, .inl rfl, .inl rfl, .inl rfl, .inl rfl, .inl rfl, .inl rfl, .inl rfl, .inl rfl⟩

theorem Moves.holdEnd {L : List Part} {m x : Chip} {v} (h : Moves L m x) (w : within [Part.holdEnd] L = true) : Moves L m { x with holdEnd := v } :=
  .upd h ⟨rfl, rfl, rfl, rfl, rfl, .inl rfl, .inl rfl, .inl rfl, .inl rfl, .inl rfl, .inl rfl, .inl rfl, .inr (within_mem w (by simp)), .inl rfl, .inl rfl, .inl rfl, .inl rfl, .inl rfl, .inl rfl, .inl rfl, .inl rfl, .inl rfl, .inl rfl, .inl rfl, .inl rfl, .inl rfl, .inl rfl, .inl rfl, .inl rfl, .inl rfl, .inl rfl, .inl rfl, .inl rfl, .inl rfl, .inl rfl, .inl rfl, .inl rfl, .inl rfl, .inl rfl, .inl rfl, .inl rfl, .inl rfl, .inl rfl, .inl rfl, .inl rfl, .inl rfl, .inl rfl⟩

theorem Moves.coreV {L : List Part} {m x : Chip} {v} (h : Moves L m x) (w : within [Part.coreV] L = true) : Moves L m { x with coreV := v } :=
  .upd h ⟨rfl, rfl, rfl, rfl, rfl, .inl rfl, .inl rfl, .inl rfl, .inl rfl, .inl rfl, .inl rfl, .inl rfl, .inl rfl, .inr (within_mem w (by simp)), .inl rfl, .inl rfl, .inl rfl, .inl rfl, .inl rfl, .inl rfl, .inl rfl, .inl rfl, .inl rfl, .inl rfl, .inl rfl, .inl rfl, .inl rfl, .inl rfl, .inl rfl, .inl rfl, .inl rfl, .inl rfl, .inl rfl, .inl rfl, .inl rfl, .inl rfl, .inl rfl, .inl rfl, .inl rfl, .inl rfl, .inl rfl, .inl rfl, .inl rfl, .inl rfl, .inl rfl, .inl rfl, .inl rfl⟩

theorem Moves.coreC {L : List Part} {m x : Chip} {v} (h : Moves L m x) (w : within [Part.coreC] L = true) : Moves L m { x with coreC := v } :=
  .upd h ⟨rfl, rfl, rfl, rfl, rfl, .inl rfl, .inl rfl, .inl rfl, .inl rfl, .inl rfl, .inl rfl, .inl rfl, .inl rfl, .inl rfl, .inr (within_mem w (by simp)), .inl rfl, .inl rfl, .inl rfl, .inl rfl, .inl rfl, .inl rfl, .inl rfl, .inl rfl, .inl rfl, .inl rfl, .inl rfl, .inl rfl, .inl rfl, .inl rfl, .inl rfl, .inl rfl, .inl rfl, .inl rfl, .inl rfl, .inl rfl, .inl rfl, .inl rfl, .inl rfl, .inl rfl, .inl rfl, .inl rfl, .inl rfl, .inl rfl, .inl rfl, .inl rfl, .inl rfl, .inl rfl⟩

theorem Moves.whl {L : List Part} {m x : Chip} {v} (h : Moves L m x) (w : within [Part.whl] L = true) : Moves L m { x with whl := v } :=
  .upd h ⟨rfl, rfl, rfl, rfl, rfl, .inl rfl, .inl rfl, .inl rfl, .inl rfl, .inl rfl, .inl rfl, .inl rfl, .inl rfl, .inl rfl, .inl rfl, .inr (within_mem w (by simp)), .inl rfl, .inl rfl, .inl rfl, .inl rfl, .inl rfl, .inl rfl, .inl rfl, .inl rfl, .inl rfl, .inl rfl, .inl rfl, .inl rfl, .inl rfl, .inl rfl, .inl rfl, .inl rfl, .inl rfl, .inl rfl, .inl rfl, .inl rfl, .inl rfl, .inl rfl, .inl rfl, .inl rfl, .inl rfl, .inl rfl, .inl rfl, .inl rfl, .inl rfl, .inl rfl, .inl rfl⟩

theorem Moves.mdl {L : List Part} {m x : Chip} {v} (h : Moves L m x) (w : within [Part.mdl] L = true) : Moves L m { x with mdl := v } :=
  .upd h ⟨rfl, rfl, rfl, rfl, rfl, .inl rfl, .inl rfl, .inl rfl, .inl rfl, .inl rfl, .inl rfl, .inl rfl, .inl rfl, .inl rfl, .inl rfl, .inl rfl, .inr (within_mem w (by simp)), .inl rfl, .inl rfl, .inl rfl, .inl rfl, .inl rfl, .inl rfl, .inl rfl, .inl rfl, .inl rfl, .inl rfl, .inl rfl, .inl rfl, .inl rfl, .inl rfl, .inl rfl, .inl rfl, .inl rfl, .inl rfl, .inl rfl, .inl rfl, .inl rfl, .inl rfl, .inl rfl, .inl rfl, .inl rfl, .inl rfl, .inl rfl, .inl rfl, .inl rfl, .inl rfl⟩

theorem Moves.axes {L : List Part} {m x : Chip} {v} (h : Moves L m x) (w : within [Part.axes] L = true) : Moves L m { x with axes := v } :=
  .upd h ⟨rfl, rfl, rfl, rfl, rfl, .inl rfl, .inl rfl, .inl rfl, .inl rfl, .inl rfl, .inl rfl, .inl rfl, .inl rfl, .inl rfl, .inl rfl, .inl rfl, .inl rfl, .inr (within_mem w (by simp)), .inl rfl, .inl rfl, .inl rfl, .inl rfl, .inl rfl, .inl rfl, .inl rfl, .inl rfl, .inl rfl, .inl rfl, .inl rfl, .inl rfl, .inl rfl, .inl rfl, .inl rfl, .inl rfl, .inl rfl, .inl rfl, .inl rfl, .inl rfl, .inl rfl, .inl rfl, .inl rfl, .inl rfl, .inl rfl, .inl rfl, .inl rfl, .inl rfl, .inl rfl⟩

theorem Moves.pool {L : List Part} {m x : Chip} {v} (h : Moves L m x) (w : within [Part.pool] L = true) : Moves L m { x with pool := v } :=
  .upd h ⟨rfl, rfl, rfl, rfl, rfl, .inl rfl, .inl rfl, .inl rfl, .inl rfl, .inl rfl, .inl rfl, .inl rfl, .inl rfl, .inl rfl, .inl rfl, .inl rfl, .inl rfl, .inl rfl, .inr (within_mem w (by simp)), .inl rfl, .inl rfl, .inl rfl, .inl rfl, .inl rfl, .inl rfl, .inl rfl, .inl rfl, .inl rfl, .inl rfl, .inl rfl, .inl rfl, .inl rfl, .inl rfl, .inl rfl, .inl rfl, .inl rfl, .inl rfl, .inl rfl, .inl rfl, .inl rfl, .inl rfl, .inl rfl, .inl rfl, .inl rfl, .inl rfl, .inl rfl, .inl rfl⟩

theorem Moves.poolLast {L : List Part} {m x : Chip} {v} (h : Moves L m x) (w : within [Part.poolLast] L = true) : Moves L m { x with poolLast := v } :=
  .upd h ⟨rfl, rfl, rfl, rfl, rfl, .inl rfl, .inl rfl, .inl rfl, .inl rfl, .inl rfl, .inl rfl, .inl rfl, .inl rfl, .inl rfl, .inl rfl, .inl rfl, .inl rfl, .inl rfl, .inl rfl, .inr (within_mem w (by simp)), .inl rfl, .inl rfl, .inl rfl, .inl rfl, .inl rfl, .inl rfl, .inl rfl, .inl rfl, .inl rfl, .inl rfl, .inl rfl, .inl rfl, .inl rfl, .inl rfl, .inl rfl, .inl rfl, .inl rfl, .inl rfl, .inl rfl, .inl rfl, .inl rfl, .inl rfl, .inl rfl, .inl rfl, .inl rfl, .inl rfl, .inl rfl⟩

theorem Moves.orderNo {L : List Part} {m x : Chip} {v} (h : Moves L m x) (w : within [Part.orderNo] L = true) : Moves L m { x with orderNo := v } :=
  .upd h ⟨rfl, rfl, rfl, rfl, rfl, .inl rfl, .inl rfl, .inl rfl, .inl rfl, .inl rfl, .inl rfl, .inl rfl, .inl rfl, .inl rfl, .inl rfl, .inl rfl, .inl rfl, .inl rfl, .inl rfl, .inl rfl, .inr (within_mem w (by simp)), .inl rfl, .inl rfl, .inl rfl, .inl rfl, .inl rfl, .inl rfl, .inl rfl, .inl rfl, .inl rfl, .inl rfl, .inl rfl, .inl rfl, .inl rfl, .inl rfl, .inl rfl, .inl rfl, .inl rfl, .inl rfl, .inl rfl, .inl rfl, .inl rfl, .inl rfl, .inl rfl, .inl rfl, .inl rfl, .inl rfl⟩

theorem Moves.chans {L : List Part} {m x : Chip} {v} (h : Moves L m x) (w : within [Part.chans] L = true) : Moves L m { x with chans := v } :=
  .upd h ⟨rfl, rfl, rfl, rfl, rfl, .inl rfl, .inl rfl, .inl rfl, .inl rfl, .inl rfl, .inl rfl, .inl rfl, .inl rfl, .inl rfl, .inl rfl, .inl rfl, .inl rfl, .inl rfl, .inl rfl, .inl rfl, .inl rfl, .inr (within_mem w (by simp)), .inl rfl, .inl rfl, .inl rfl, .inl rfl, .inl rfl, .inl rfl, .inl rfl, .inl rfl, .inl rfl, .inl rfl, .inl rfl, .inl rfl, .inl rfl, .inl rfl, .inl rfl, .inl rfl, .inl rfl, .inl rfl, .inl rfl, .inl rfl, .inl rfl, .inl rfl, .inl rfl, .inl rfl, .inl rfl⟩

theorem Moves.banks {L : List Part} {m x : Chip} {v} (h : Moves L m x) (w : within [Part.banks] L = true) : Moves L m { x with banks := v } :=
  .upd h ⟨rfl, rfl, rfl, rfl, rfl, .inl rfl, .inl rfl, .inl rfl, .inl rfl, .inl rfl, .inl rfl, .inl rfl, .inl rfl, .inl rfl, .inl rfl, .inl rfl, .inl rfl, .inl rfl, .inl rfl, .inl rfl, .inl rfl, .inl rfl, .inr (within_mem w (by simp)), .inl rfl, .inl rfl, .inl rfl, .inl rfl, .inl rfl, .inl rfl, .inl rfl, .inl rfl, .inl rfl, .inl rfl, .inl rfl, .inl rfl, .inl rfl, .inl rfl, .inl rfl, .inl rfl, .inl rfl, .inl rfl, .inl rfl, .inl rfl, .inl rfl, .inl rfl, .inl rfl, .inl rfl⟩

theorem Moves.boost {L : List Part} {m x : Chip} {v} (h : Moves L m x) (w : within [Part.boost] L = true) : Moves L m { x with boost := v } :=
  .upd h ⟨rfl, rfl, rfl, rfl, rfl, .inl rfl, .inl rfl, .inl rfl, .inl rfl, .inl rfl, .inl rfl, .inl rfl, .inl rfl, .inl rfl, .inl rfl, .inl rfl, .inl rfl, .inl rfl, .inl rfl, .inl rfl, .inl rfl, .inl rfl, .inl rfl, .inr (within_mem w (by simp)), .inl rfl, .inl rfl, .inl rfl, .inl rfl, .inl rfl, .inl rfl, .inl rfl, .inl rfl, .inl rfl, .inl rfl, .inl rfl, .inl rfl, .inl rfl, .inl rfl, .inl rfl, .inl rfl, .inl rfl, .inl rfl, .inl rfl, .inl rfl, .inl rfl, .inl rfl, .inl rfl⟩

theorem Moves.capReq {L : List Part} {m x : Chip} {v} (h : Moves L m x) (w : within [Part.capReq] L = true) : Moves L m { x with capReq := v } :=
  .upd h ⟨rfl, rfl, rfl, rfl, rfl, .inl rfl, .inl rfl, .inl rfl, .inl rfl, .inl rfl, .inl rfl, .inl rfl, .inl rfl, .inl rfl, .inl rfl, .inl rfl, .inl rfl, .inl rfl, .inl rfl, .inl rfl, .inl rfl, .inl rfl, .inl rfl, .inl rfl, .inr (within_mem w (by simp)), .inl rfl, .inl rfl, .inl rfl, .inl rfl, .inl rfl, .inl rfl, .inl rfl, .inl rfl, .inl rfl, .inl rfl, .inl rfl, .inl rfl, .inl rfl, .inl rfl, .inl rfl, .inl rfl, .inl rfl, .inl rfl, .inl rfl, .inl rfl, .inl rfl, .inl rfl⟩

theorem Moves.capTb {L : List Part} {m x : Chip} {v} (h : Moves L m x) (w : within [Part.capTb] L = true) : Moves L m { x with capTb := v } :=
  .upd h ⟨rfl, rfl, rfl, rfl, rfl, .inl rfl, .inl rfl, .inl rfl, .inl rfl, .inl rfl, .inl rfl, .inl rfl, .inl rfl, .inl rfl, .inl rfl, .inl rfl, .inl rfl, .inl rfl, .inl rfl, .inl rfl, .inl rfl, .inl rfl, .inl rfl, .inl rfl, .inl rfl, .inr (within_mem w (by simp)), .inl rfl, .inl rfl, .inl rfl, .inl rfl, .inl rfl, .inl rfl, .inl rfl, .inl rfl, .inl rfl, .inl rfl, .inl rfl, .inl rfl, .inl rfl, .inl rfl, .inl rfl, .inl rfl, .inl rfl, .inl rfl, .inl rfl, .inl rfl, .inl rfl⟩

theorem Moves.copies {L : List Part} {m x : Chip} {v} (h : Moves L m x) (w : within [Part.copies] L = true) : Moves L m { x with copies := v } :=
  .upd h ⟨rfl, rfl, rfl, rfl, rfl, .inl rfl, .inl rfl, .inl rfl, .inl rfl, .inl rfl, .inl rfl, .inl rfl, .inl rfl, .inl rfl, .inl rfl, .inl rfl, .inl rfl, .inl rfl, .inl rfl, .inl rfl, .inl rfl, .inl rfl, .inl rfl, .inl rfl, .inl rfl, .inl rfl, .inr (within_mem w (by simp)), .inl rfl, .inl rfl, .inl rfl, .inl rfl, .inl rfl, .inl rfl, .inl rfl, .inl rfl, .inl rfl, .inl rfl, .inl rfl, .inl rfl, .inl rfl, .inl rfl, .inl rfl, .inl rfl, .inl rfl, .inl rfl, .inl rfl, .inl rfl⟩

theorem Moves.wear {L : List Part} {m x : Chip} {v} (h : Moves L m x) (w : within [Part.wear] L = true) : Moves L m { x with wear := v } :=
  .upd h ⟨rfl, rfl, rfl, rfl, rfl, .inl rfl, .inl rfl, .inl rfl, .inl rfl, .inl rfl, .inl rfl, .inl rfl, .inl rfl, .inl rfl, .inl rfl, .inl rfl, .inl rfl, .inl rfl, .inl rfl, .inl rfl, .inl rfl, .inl rfl, .inl rfl, .inl rfl, .inl rfl, .inl rfl, .inl rfl, .inr (within_mem w (by simp)), .inl rfl, .inl rfl, .inl rfl, .inl rfl, .inl rfl, .inl rfl, .inl rfl, .inl rfl, .inl rfl, .inl rfl, .inl rfl, .inl rfl, .inl rfl, .inl rfl, .inl rfl, .inl rfl, .inl rfl, .inl rfl, .inl rfl⟩

theorem Moves.bcap {L : List Part} {m x : Chip} {v} (h : Moves L m x) (w : within [Part.bcap] L = true) : Moves L m { x with bcap := v } :=
  .upd h ⟨rfl, rfl, rfl, rfl, rfl, .inl rfl, .inl rfl, .inl rfl, .inl rfl, .inl rfl, .inl rfl, .inl rfl, .inl rfl, .inl rfl, .inl rfl, .inl rfl, .inl rfl, .inl rfl, .inl rfl, .inl rfl, .inl rfl, .inl rfl, .inl rfl, .inl rfl, .inl rfl, .inl rfl, .inl rfl, .inl rfl, .inr (within_mem w (by simp)), .inl rfl, .inl rfl, .inl rfl, .inl rfl, .inl rfl, .inl rfl, .inl rfl, .inl rfl, .inl rfl, .inl rfl, .inl rfl, .inl rfl, .inl rfl, .inl rfl, .inl rfl, .inl rfl, .inl rfl, .inl rfl⟩

theorem Moves.fe {L : List Part} {m x : Chip} {v} (h : Moves L m x) (w : within [Part.fe] L = true) : Moves L m { x with fe := v } :=
  .upd h ⟨rfl, rfl, rfl, rfl, rfl, .inl rfl, .inl rfl, .inl rfl, .inl rfl, .inl rfl, .inl rfl, .inl rfl, .inl rfl, .inl rfl, .inl rfl, .inl rfl, .inl rfl, .inl rfl, .inl rfl, .inl rfl, .inl rfl, .inl rfl, .inl rfl, .inl rfl, .inl rfl, .inl rfl, .inl rfl, .inl rfl, .inl rfl, .inl rfl, .inr (within_mem w (by simp)), .inl rfl, .inl rfl, .inl rfl, .inl rfl, .inl rfl, .inl rfl, .inl rfl, .inl rfl, .inl rfl, .inl rfl, .inl rfl, .inl rfl, .inl rfl, .inl rfl, .inl rfl, .inl rfl⟩

theorem Moves.fio {L : List Part} {m x : Chip} {v} (h : Moves L m x) (w : within [Part.fio] L = true) : Moves L m { x with fio := v } :=
  .upd h ⟨rfl, rfl, rfl, rfl, rfl, .inl rfl, .inl rfl, .inl rfl, .inl rfl, .inl rfl, .inl rfl, .inl rfl, .inl rfl, .inl rfl, .inl rfl, .inl rfl, .inl rfl, .inl rfl, .inl rfl, .inl rfl, .inl rfl, .inl rfl, .inl rfl, .inl rfl, .inl rfl, .inl rfl, .inl rfl, .inl rfl, .inl rfl, .inl rfl, .inl rfl, .inr (within_mem w (by simp)), .inl rfl, .inl rfl, .inl rfl, .inl rfl, .inl rfl, .inl rfl, .inl rfl, .inl rfl, .inl rfl, .inl rfl, .inl rfl, .inl rfl, .inl rfl, .inl rfl, .inl rfl⟩

theorem Moves.tim {L : List Part} {m x : Chip} {v} (h : Moves L m x) (w : within [Part.tim] L = true) : Moves L m { x with tim := v } :=
  .upd h ⟨rfl, rfl, rfl, rfl, rfl, .inl rfl, .inl rfl, .inl rfl, .inl rfl, .inl rfl, .inl rfl, .inl rfl, .inl rfl, .inl rfl, .inl rfl, .inl rfl, .inl rfl, .inl rfl, .inl rfl, .inl rfl, .inl rfl, .inl rfl, .inl rfl, .inl rfl, .inl rfl, .inl rfl, .inl rfl, .inl rfl, .inl rfl, .inl rfl, .inl rfl, .inl rfl, .inr (within_mem w (by simp)), .inl rfl, .inl rfl, .inl rfl, .inl rfl, .inl rfl, .inl rfl, .inl rfl, .inl rfl, .inl rfl, .inl rfl, .inl rfl, .inl rfl, .inl rfl, .inl rfl⟩

theorem Moves.adc {L : List Part} {m x : Chip} {v} (h : Moves L m x) (w : within [Part.adc] L = true) : Moves L m { x with adc := v } :=
  .upd h ⟨rfl, rfl, rfl, rfl, rfl, .inl rfl, .inl rfl, .inl rfl, .inl rfl, .inl rfl, .inl rfl, .inl rfl, .inl rfl, .inl rfl, .inl rfl, .inl rfl, .inl rfl, .inl rfl, .inl rfl, .inl rfl, .inl rfl, .inl rfl, .inl rfl, .inl rfl, .inl rfl, .inl rfl, .inl rfl, .inl rfl, .inl rfl, .inl rfl, .inl rfl, .inl rfl, .inl rfl, .inr (within_mem w (by simp)), .inl rfl, .inl rfl, .inl rfl, .inl rfl, .inl rfl, .inl rfl, .inl rfl, .inl rfl, .inl rfl, .inl rfl, .inl rfl, .inl rfl, .inl rfl⟩

theorem Moves.assay {L : List Part} {m x : Chip} {v} (h : Moves L m x) (w : within [Part.assay] L = true) : Moves L m { x with assay := v } :=
  .upd h ⟨rfl, rfl, rfl, rfl, rfl, .inl rfl, .inl rfl, .inl rfl, .inl rfl, .inl rfl, .inl rfl, .inl rfl, .inl rfl, .inl rfl, .inl rfl, .inl rfl, .inl rfl, .inl rfl, .inl rfl, .inl rfl, .inl rfl, .inl rfl, .inl rfl, .inl rfl, .inl rfl, .inl rfl, .inl rfl, .inl rfl, .inl rfl, .inl rfl, .inl rfl, .inl rfl, .inl rfl, .inl rfl, .inr (within_mem w (by simp)), .inl rfl, .inl rfl, .inl rfl, .inl rfl, .inl rfl, .inl rfl, .inl rfl, .inl rfl, .inl rfl, .inl rfl, .inl rfl, .inl rfl⟩

theorem Moves.cmp {L : List Part} {m x : Chip} {v} (h : Moves L m x) (w : within [Part.cmp] L = true) : Moves L m { x with cmp := v } :=
  .upd h ⟨rfl, rfl, rfl, rfl, rfl, .inl rfl, .inl rfl, .inl rfl, .inl rfl, .inl rfl, .inl rfl, .inl rfl, .inl rfl, .inl rfl, .inl rfl, .inl rfl, .inl rfl, .inl rfl, .inl rfl, .inl rfl, .inl rfl, .inl rfl, .inl rfl, .inl rfl, .inl rfl, .inl rfl, .inl rfl, .inl rfl, .inl rfl, .inl rfl, .inl rfl, .inl rfl, .inl rfl, .inl rfl, .inl rfl, .inr (within_mem w (by simp)), .inl rfl, .inl rfl, .inl rfl, .inl rfl, .inl rfl, .inl rfl, .inl rfl, .inl rfl, .inl rfl, .inl rfl, .inl rfl⟩

theorem Moves.sds {L : List Part} {m x : Chip} {v} (h : Moves L m x) (w : within [Part.sds] L = true) : Moves L m { x with sds := v } :=
  .upd h ⟨rfl, rfl, rfl, rfl, rfl, .inl rfl, .inl rfl, .inl rfl, .inl rfl, .inl rfl, .inl rfl, .inl rfl, .inl rfl, .inl rfl, .inl rfl, .inl rfl, .inl rfl, .inl rfl, .inl rfl, .inl rfl, .inl rfl, .inl rfl, .inl rfl, .inl rfl, .inl rfl, .inl rfl, .inl rfl, .inl rfl, .inl rfl, .inl rfl, .inl rfl, .inl rfl, .inl rfl, .inl rfl, .inl rfl, .inl rfl, .inr (within_mem w (by simp)), .inl rfl, .inl rfl, .inl rfl, .inl rfl, .inl rfl, .inl rfl, .inl rfl, .inl rfl, .inl rfl, .inl rfl⟩

theorem Moves.nand {L : List Part} {m x : Chip} {v} (h : Moves L m x) (w : within [Part.nand] L = true) : Moves L m { x with nand := v } :=
  .upd h ⟨rfl, rfl, rfl, rfl, rfl, .inl rfl, .inl rfl, .inl rfl, .inl rfl, .inl rfl, .inl rfl, .inl rfl, .inl rfl, .inl rfl, .inl rfl, .inl rfl, .inl rfl, .inl rfl, .inl rfl, .inl rfl, .inl rfl, .inl rfl, .inl rfl, .inl rfl, .inl rfl, .inl rfl, .inl rfl, .inl rfl, .inl rfl, .inl rfl, .inl rfl, .inl rfl, .inl rfl, .inl rfl, .inl rfl, .inl rfl, .inl rfl, .inl rfl, .inr (within_mem w (by simp)), .inl rfl, .inl rfl, .inl rfl, .inl rfl, .inl rfl, .inl rfl, .inl rfl, .inl rfl⟩

theorem Moves.mbox {L : List Part} {m x : Chip} {v} (h : Moves L m x) (w : within [Part.mbox] L = true) : Moves L m { x with mbox := v } :=
  .upd h ⟨rfl, rfl, rfl, rfl, rfl, .inl rfl, .inl rfl, .inl rfl, .inl rfl, .inl rfl, .inl rfl, .inl rfl, .inl rfl, .inl rfl, .inl rfl, .inl rfl, .inl rfl, .inl rfl, .inl rfl, .inl rfl, .inl rfl, .inl rfl, .inl rfl, .inl rfl, .inl rfl, .inl rfl, .inl rfl, .inl rfl, .inl rfl, .inl rfl, .inl rfl, .inl rfl, .inl rfl, .inl rfl, .inl rfl, .inl rfl, .inl rfl, .inl rfl, .inl rfl, .inr (within_mem w (by simp)), .inl rfl, .inl rfl, .inl rfl, .inl rfl, .inl rfl, .inl rfl, .inl rfl⟩

theorem Moves.port {L : List Part} {m x : Chip} {v} (h : Moves L m x) (w : within [Part.port] L = true) : Moves L m { x with port := v } :=
  .upd h ⟨rfl, rfl, rfl, rfl, rfl, .inl rfl, .inl rfl, .inl rfl, .inl rfl, .inl rfl, .inl rfl, .inl rfl, .inl rfl, .inl rfl, .inl rfl, .inl rfl, .inl rfl, .inl rfl, .inl rfl, .inl rfl, .inl rfl, .inl rfl, .inl rfl, .inl rfl, .inl rfl, .inl rfl, .inl rfl, .inl rfl, .inl rfl, .inl rfl, .inl rfl, .inl rfl, .inl rfl, .inl rfl, .inl rfl, .inl rfl, .inl rfl, .inl rfl, .inl rfl, .inl rfl, .inr (within_mem w (by simp)), .inl rfl, .inl rfl, .inl rfl, .inl rfl, .inl rfl, .inl rfl⟩

theorem Moves.gelow {L : List Part} {m x : Chip} {v} (h : Moves L m x) (w : within [Part.gelow] L = true) : Moves L m { x with gelow := v } :=
  .upd h ⟨rfl, rfl, rfl, rfl, rfl, .inl rfl, .inl rfl, .inl rfl, .inl rfl, .inl rfl, .inl rfl, .inl rfl, .inl rfl, .inl rfl, .inl rfl, .inl rfl, .inl rfl, .inl rfl, .inl rfl, .inl rfl, .inl rfl, .inl rfl, .inl rfl, .inl rfl, .inl rfl, .inl rfl, .inl rfl, .inl rfl, .inl rfl, .inl rfl, .inl rfl, .inl rfl, .inl rfl, .inl rfl, .inl rfl, .inl rfl, .inl rfl, .inl rfl, .inl rfl, .inl rfl, .inl rfl, .inr (within_mem w (by simp)), .inl rfl, .inl rfl, .inl rfl, .inl rfl, .inl rfl⟩

theorem Moves.sys {L : List Part} {m x : Chip} {v} (h : Moves L m x) (w : within [Part.sys] L = true) : Moves L m { x with sys := v } :=
  .upd h ⟨rfl, rfl, rfl, rfl, rfl, .inl rfl, .inl rfl, .inl rfl, .inl rfl, .inl rfl, .inl rfl, .inl rfl, .inl rfl, .inl rfl, .inl rfl, .inl rfl, .inl rfl, .inl rfl, .inl rfl, .inl rfl, .inl rfl, .inl rfl, .inl rfl, .inl rfl, .inl rfl, .inl rfl, .inl rfl, .inl rfl, .inl rfl, .inl rfl, .inl rfl, .inl rfl, .inl rfl, .inl rfl, .inl rfl, .inl rfl, .inl rfl, .inl rfl, .inl rfl, .inl rfl, .inl rfl, .inl rfl, .inr (within_mem w (by simp)), .inl rfl, .inl rfl, .inl rfl, .inl rfl⟩

theorem Moves.sup {L : List Part} {m x : Chip} {v} (h : Moves L m x) (w : within [Part.sup] L = true) : Moves L m { x with sup := v } :=
  .upd h ⟨rfl, rfl, rfl, rfl, rfl, .inl rfl, .inl rfl, .inl rfl, .inl rfl, .inl rfl, .inl rfl, .inl rfl, .inl rfl, .inl rfl, .inl rfl, .inl rfl, .inl rfl, .inl rfl, .inl rfl, .inl rfl, .inl rfl, .inl rfl, .inl rfl, .inl rfl, .inl rfl, .inl rfl, .inl rfl, .inl rfl, .inl rfl, .inl rfl, .inl rfl, .inl rfl, .inl rfl, .inl rfl, .inl rfl, .inl rfl, .inl rfl, .inl rfl, .inl rfl, .inl rfl, .inl rfl, .inl rfl, .inl rfl, .inr (within_mem w (by simp)), .inl rfl, .inl rfl, .inl rfl⟩

theorem Moves.link {L : List Part} {m x : Chip} {v} (h : Moves L m x) (w : within [Part.link] L = true) : Moves L m { x with link := v } :=
  .upd h ⟨rfl, rfl, rfl, rfl, rfl, .inl rfl, .inl rfl, .inl rfl, .inl rfl, .inl rfl, .inl rfl, .inl rfl, .inl rfl, .inl rfl, .inl rfl, .inl rfl, .inl rfl, .inl rfl, .inl rfl, .inl rfl, .inl rfl, .inl rfl, .inl rfl, .inl rfl, .inl rfl, .inl rfl, .inl rfl, .inl rfl, .inl rfl, .inl rfl, .inl rfl, .inl rfl, .inl rfl, .inl rfl, .inl rfl, .inl rfl, .inl rfl, .inl rfl, .inl rfl, .inl rfl, .inl rfl, .inl rfl, .inl rfl, .inl rfl, .inr (within_mem w (by simp)), .inl rfl, .inl rfl⟩

theorem Moves.refetch {L : List Part} {m x : Chip} {v} (h : Moves L m x) (w : within [Part.refetch] L = true) : Moves L m { x with refetch := v } :=
  .upd h ⟨rfl, rfl, rfl, rfl, rfl, .inl rfl, .inl rfl, .inl rfl, .inl rfl, .inl rfl, .inl rfl, .inl rfl, .inl rfl, .inl rfl, .inl rfl, .inl rfl, .inl rfl, .inl rfl, .inl rfl, .inl rfl, .inl rfl, .inl rfl, .inl rfl, .inl rfl, .inl rfl, .inl rfl, .inl rfl, .inl rfl, .inl rfl, .inl rfl, .inl rfl, .inl rfl, .inl rfl, .inl rfl, .inl rfl, .inl rfl, .inl rfl, .inl rfl, .inl rfl, .inl rfl, .inl rfl, .inl rfl, .inl rfl, .inl rfl, .inl rfl, .inr (within_mem w (by simp)), .inl rfl⟩

theorem Moves.cyc {L : List Part} {m x : Chip} {v} (h : Moves L m x) (w : within [Part.cyc] L = true) : Moves L m { x with cyc := v } :=
  .upd h ⟨rfl, rfl, rfl, rfl, rfl, .inl rfl, .inl rfl, .inl rfl, .inl rfl, .inl rfl, .inl rfl, .inl rfl, .inl rfl, .inl rfl, .inl rfl, .inl rfl, .inl rfl, .inl rfl, .inl rfl, .inl rfl, .inl rfl, .inl rfl, .inl rfl, .inl rfl, .inl rfl, .inl rfl, .inl rfl, .inl rfl, .inl rfl, .inl rfl, .inl rfl, .inl rfl, .inl rfl, .inl rfl, .inl rfl, .inl rfl, .inl rfl, .inl rfl, .inl rfl, .inl rfl, .inl rfl, .inl rfl, .inl rfl, .inl rfl, .inl rfl, .inl rfl, .inr (within_mem w (by simp))⟩

/-- The effect of a command on the block. -/
theorem upd_moves {L : List Part} {s t : State} {f : Chip → Chip} (hf : ∀ m, Moves L m (f m)) (h : s.upd f = .next t) :
    Moves L s.chip t.chip := by
  cases h
  exact hf s.chip

end Sys2Proof.Machine
end

