-- ==== Sys2Proof/Laws/MovesOps.lean ====
section
/-! SUPPORT. Each operation of Machine/Ops.lean moves the block within the parts it names. -/

-- Theorem by theorem: many at once each take a thread's stack, and the package as one text ran out of them.
set_option Elab.async false

namespace Sys2Proof.Machine

theorem Chip.setCycle_moves {L : List Part} {b m : Chip} {c' : Cycle} (h : Moves L b m)
    (w : within [.cyc] L = true) :
    Moves L b (Chip.setCycle m c') := by
  unfold Chip.setCycle
  refine Moves.cyc ?_ (within_sub w (by decide +kernel))
  assumption

theorem Chip.wr_moves {L : List Part} {b m : Chip} {f : Field} {i v : Nat} (h : Moves L b m) (w : within [f.part] L = true) :
    Moves L b (m.wr f i v) := .wr f i v (within_mem w (by simp)) h

theorem Chip.setFlag_moves {L : List Part} {b m : Chip} {f : Field} {i k : Nat} (h : Moves L b m)
    (w : within (f.part :: [.cyc]) L = true) : Moves L b (m.setFlag f i k) :=
  Chip.setCycle_moves (Chip.wr_moves h (within_head w)) (within_tail w)

theorem Chip.wrB_moves {L : List Part} {b m : Chip} {f : Field} {i : Nat} {v : Bool} (h : Moves L b m) (w : within [f.part] L = true) :
    Moves L b (m.wrB f i v) := Chip.wr_moves h w

theorem Chip.awake_moves {L : List Part} {b m : Chip} (h : Moves L b m)
    (w : within [.asleep, .sys] L = true) :
    Moves L b (Chip.awake m) := by
  unfold Chip.awake
  extract_lets +onlyGivenNames x1
  clear_value x1
  refine Moves.upd (x := m) ?_ (by constructor <;> first | rfl | exact .inl rfl | exact .inr (within_mem w (by decide +kernel)))
  assumption

theorem Chip.wakeBy_moves {L : List Part} {b m : Chip} {n' : Nat} (h : Moves L b m)
    (w : within [.rInt, .asleep, .sys] L = true) :
    Moves L b (Chip.wakeBy m n') := by
  unfold Chip.wakeBy
  refine Chip.wrB_moves ?_ (within_sub w (by decide +kernel))
  refine Chip.wr_moves ?_ (within_sub w (by decide +kernel))
  refine Chip.awake_moves ?_ (within_sub w (by decide +kernel))
  assumption

theorem Chip.noteWake_moves {L : List Part} {b m : Chip} {n' : Nat} (h : Moves L b m)
    (w : within [.cyc] L = true) :
    Moves L b (Chip.noteWake m n') := by
  unfold Chip.noteWake
  extract_lets +onlyGivenNames x1
  clear_value x1
  refine Moves.ite ?_ ?_
  · refine Chip.setCycle_moves ?_ (within_sub w (by decide +kernel))
    assumption
  · assumption

theorem Chip.setAccum_moves {L : List Part} {b m : Chip} {p' : Nat} {k' : Nat} {a' : Accum} (h : Moves L b m)
    (w : within [.accums] L = true) :
    Moves L b (Chip.setAccum m p' k' a') := by
  unfold Chip.setAccum
  refine Moves.accums ?_ (within_sub w (by decide +kernel))
  assumption

theorem Chip.noteCount_moves {L : List Part} {b m : Chip} {f : Field} {i n : Nat} (h : Moves L b m) (w : within [.cyc] L = true) :
    Moves L b (m.noteCount f i n) := by
  unfold Chip.noteCount
  split
  exact Chip.setCycle_moves h w

theorem Chip.count_moves {L : List Part} {b m : Chip} {f : Field} {i n : Nat} (h : Moves L b m)
    (w : within (f.part :: [.cyc]) L = true) : Moves L b (m.count f i n) :=
  Chip.wr_moves (Chip.noteCount_moves h (within_tail w)) (within_head w)

theorem Chip.collect_moves {L : List Part} {b m : Chip} {p' : Nat} {k' : Nat} {t' : Nat} {data' : Nat} (h : Moves L b m)
    (w : within [.rInt, .accums, .cyc] L = true) :
    Moves L b (Chip.collect m p' k' t' data') := by
  unfold Chip.collect
  extract_lets +onlyGivenNames x1
  clear_value x1
  extract_lets +onlyGivenNames x2
  clear_value x2
  extract_lets +onlyGivenNames x3
  have h4 : Moves L b x3 := by
    unfold x3
    refine Chip.setAccum_moves ?_ (within_sub w (by decide +kernel))
    assumption
  clear_value x3
  refine Moves.ite ?_ ?_
  · refine Chip.setAccum_moves ?_ (within_sub w (by decide +kernel))
    assumption
  · refine Moves.ite ?_ ?_
    · refine Chip.count_moves ?_ (within_sub w (by decide +kernel))
      assumption
    · assumption

theorem Chip.pendHost_moves {L : List Part} {b m : Chip} {n' : Nat} {p' : Nat} {t' : Nat} (h : Moves L b m)
    (w : within [.rInt, .accums, .cyc] L = true) :
    Moves L b (Chip.pendHost m n' p' t') := by
  unfold Chip.pendHost
  refine Moves.ite ?_ ?_
  · refine Chip.wr_moves ?_ (within_sub w (by decide +kernel))
    refine Chip.collect_moves ?_ (within_sub w (by decide +kernel))
    assumption
  · assumption

theorem Chip.pendCore_moves {L : List Part} {b m : Chip} {n' : Nat} {t' : Nat} (h : Moves L b m)
    (w : within [.rInt] L = true) :
    Moves L b (Chip.pendCore m n' t') := by
  unfold Chip.pendCore
  refine Moves.ite ?_ ?_
  · refine Chip.wr_moves ?_ (within_sub w (by decide +kernel))
    assumption
  · assumption

theorem Chip.occur_moves {L : List Part} {b m : Chip} {n' : Nat} (h : Moves L b m)
    (w : within [.rInt, .asleep, .accums, .sys, .cyc] L = true) :
    Moves L b (Chip.occur m n') := by
  unfold Chip.occur
  extract_lets +onlyGivenNames x1
  have h2 : Moves L b x1 := by
    unfold x1
    refine Moves.ite ?_ ?_
    · refine Chip.wakeBy_moves ?_ (within_sub w (by decide +kernel))
      assumption
    · refine Chip.noteWake_moves ?_ (within_sub w (by decide +kernel))
      assumption
  clear_value x1
  extract_lets +onlyGivenNames x3
  clear_value x3
  refine Moves.ite ?_ ?_
  · assumption
  · refine Chip.pendHost_moves ?_ (within_sub w (by decide +kernel))
    refine Chip.pendHost_moves ?_ (within_sub w (by decide +kernel))
    refine Chip.pendCore_moves ?_ (within_sub w (by decide +kernel))
    refine Chip.pendCore_moves ?_ (within_sub w (by decide +kernel))
    assumption

theorem Chip.raise_moves {L : List Part} {b m : Chip} {fl ie : Field} {i k src : Nat} (h : Moves L b m)
    (w : within (fl.part :: [.rInt, .asleep, .accums, .sys, .cyc]) L = true) : Moves L b (m.raise fl ie i k src) := by
  have g : Moves L b (m.setFlag fl i k) := Chip.setFlag_moves h (within_cons (within_head w) (within_sub (within_tail w) (by decide +kernel)))
  exact Moves.ite (Chip.occur_moves g (within_sub (within_tail w) (by decide +kernel))) g

theorem Chip.hpFlag_moves {L : List Part} {b m : Chip} {p' : Nat} {b' : Nat} (h : Moves L b m)
    (w : within [.rHp, .rInt, .asleep, .accums, .sys, .cyc] L = true) :
    Moves L b (Chip.hpFlag m p' b') := by
  unfold Chip.hpFlag
  refine Chip.raise_moves ?_ (within_sub w (by decide +kernel))
  assumption

theorem Chip.enable_moves {L : List Part} {b m : Chip} {fl ie : Field} {i src v : Nat} (h : Moves L b m)
    (w : within (ie.part :: [.rInt, .asleep, .accums, .sys, .cyc]) L = true) : Moves L b (m.enable fl ie i src v) := by
  have g : Moves L b (m.wr ie i v) := Chip.wr_moves h (within_head w)
  exact Moves.ite (Chip.occur_moves g (within_tail w)) g

theorem Chip.clearFlags_moves {L : List Part} {b m : Chip} {f : Field} {i v : Nat} (h : Moves L b m) (w : within [f.part] L = true) :
    Moves L b (m.clearFlags f i v) := Chip.wr_moves h w

theorem Chip.chFlag_moves {L : List Part} {b m : Chip} {ch' : Nat} {b' : Nat} (h : Moves L b m)
    (w : within [.rCh, .rInt, .asleep, .accums, .sys, .cyc] L = true) :
    Moves L b (Chip.chFlag m ch' b') := by
  unfold Chip.chFlag
  refine Chip.raise_moves ?_ (within_sub w (by decide +kernel))
  assumption

theorem Chip.wrTb_moves {L : List Part} {b m : Chip} {lo hi : Field} {i t : Nat} (h : Moves L b m)
    (w : within [lo.part, hi.part] L = true) : Moves L b (m.wrTb lo hi i t) :=
  Chip.wr_moves (Chip.wr_moves h (within_head w)) (within_tail w)

theorem Chip.capFlag_moves {L : List Part} {b m : Chip} {c' : Nat} {b' : Nat} (h : Moves L b m)
    (w : within [.rCap, .rInt, .asleep, .accums, .sys, .cyc] L = true) :
    Moves L b (Chip.capFlag m c' b') := by
  unfold Chip.capFlag
  refine Chip.raise_moves ?_ (within_sub w (by decide +kernel))
  assumption

theorem Chip.dgbFlag_moves {L : List Part} {b m : Chip} {n' : Nat} {b' : Nat} (h : Moves L b m)
    (w : within [.rDgb, .rInt, .asleep, .accums, .sys, .cyc] L = true) :
    Moves L b (Chip.dgbFlag m n' b') := by
  unfold Chip.dgbFlag
  refine Chip.raise_moves ?_ (within_sub w (by decide +kernel))
  assumption

theorem Chip.bkFlag_moves {L : List Part} {b m : Chip} {n' : Nat} {b' : Nat} (h : Moves L b m)
    (w : within [.rBk, .rInt, .asleep, .accums, .sys, .cyc] L = true) :
    Moves L b (Chip.bkFlag m n' b') := by
  unfold Chip.bkFlag
  refine Chip.raise_moves ?_ (within_sub w (by decide +kernel))
  assumption

theorem Chip.free_moves {L : List Part} {b m : Chip} (h : Moves L b m)
    (w : within [.frees] L = true) :
    Moves L b (Chip.free m).2 := by
  unfold Chip.free
  refine Moves.pair ?_
  refine Moves.frees ?_ (within_sub w (by decide +kernel))
  assumption

theorem Chip.wrI_moves {L : List Part} {b m : Chip} {f : Field} {i : Nat} {v : Int} (h : Moves L b m) (w : within [f.part] L = true) :
    Moves L b (m.wrI f i v) := Chip.wr_moves h w

theorem Chip.pwrFlag_moves {L : List Part} {b m : Chip} {d' : Nat} {b' : Nat} (h : Moves L b m)
    (w : within [.rPwr, .rInt, .asleep, .accums, .sys, .cyc] L = true) :
    Moves L b (Chip.pwrFlag m d' b') := by
  unfold Chip.pwrFlag
  refine Chip.raise_moves ?_ (within_sub w (by decide +kernel))
  assumption

theorem Chip.mdlFlag_moves {L : List Part} {b m : Chip} {b' : Nat} (h : Moves L b m)
    (w : within [.rMdl, .rInt, .asleep, .accums, .sys, .cyc] L = true) :
    Moves L b (Chip.mdlFlag m b') := by
  unfold Chip.mdlFlag
  refine Chip.raise_moves ?_ (within_sub w (by decide +kernel))
  assumption

theorem Chip.whlFlag_moves {L : List Part} {b m : Chip} {n' : Nat} {b' : Nat} (h : Moves L b m)
    (w : within [.rWhl, .rInt, .asleep, .accums, .sys, .cyc] L = true) :
    Moves L b (Chip.whlFlag m n' b') := by
  unfold Chip.whlFlag
  refine Chip.raise_moves ?_ (within_sub w (by decide +kernel))
  assumption

theorem Chip.bstFlag_moves {L : List Part} {b m : Chip} {b' : Nat} (h : Moves L b m)
    (w : within [.rBst, .rInt, .asleep, .accums, .sys, .cyc] L = true) :
    Moves L b (Chip.bstFlag m b') := by
  unfold Chip.bstFlag
  refine Chip.raise_moves ?_ (within_sub w (by decide +kernel))
  assumption

theorem Chip.adcFlag_moves {L : List Part} {b m : Chip} {u' : Nat} {b' : Nat} (h : Moves L b m)
    (w : within [.rAdc, .rInt, .asleep, .accums, .sys, .cyc] L = true) :
    Moves L b (Chip.adcFlag m u' b') := by
  unfold Chip.adcFlag
  refine Chip.raise_moves ?_ (within_sub w (by decide +kernel))
  assumption

theorem Chip.cmpFlag_moves {L : List Part} {b m : Chip} {n' : Nat} {b' : Nat} (h : Moves L b m)
    (w : within [.rCmp, .rInt, .asleep, .accums, .sys, .cyc] L = true) :
    Moves L b (Chip.cmpFlag m n' b') := by
  unfold Chip.cmpFlag
  refine Chip.raise_moves ?_ (within_sub w (by decide +kernel))
  assumption

theorem Chip.feFlag_moves {L : List Part} {b m : Chip} {e' : Nat} {b' : Nat} (h : Moves L b m)
    (w : within [.rFe, .rInt, .asleep, .accums, .sys, .cyc] L = true) :
    Moves L b (Chip.feFlag m e' b') := by
  unfold Chip.feFlag
  refine Chip.raise_moves ?_ (within_sub w (by decide +kernel))
  assumption

theorem Chip.setIsland_moves {L : List Part} {b m : Chip} {i' : Nat} {x' : Island} (h : Moves L b m)
    (w : within [.isl] L = true) :
    Moves L b (Chip.setIsland m i' x') := by
  unfold Chip.setIsland
  refine Moves.isl ?_ (within_sub w (by decide +kernel))
  assumption

theorem Chip.resetFields_moves {L : List Part} {b m : Chip} {fs : List Field} {p : Nat → Bool} (h : Moves L b m)
    (w : within (fs.map Field.part) L = true) : Moves L b (m.resetFields fs p) := by
  unfold Chip.resetFields
  induction fs generalizing m with
  | nil => exact h
  | cons f r ih => exact ih (.drop f p (within_mem w (by simp)) h) (within_tail w)

theorem Chip.clearMem_moves {L : List Part} {b m : Chip} {lo n : Nat} (h : Moves L b m) (w : within [.mem] L = true) :
    Moves L b (m.clearMem lo n) := .clear lo n (within_mem w (by simp)) h

theorem Chip.store_moves {L : List Part} {b m : Chip} {a : Nat} {bs : List Byte} (h : Moves L b m) (w : within [.mem] L = true) :
    Moves L b (m.store a bs) := by
  induction bs generalizing m a with
  | nil => exact h
  | cons v r ih => exact ih (.byte a v (within_mem w (by simp)) h)

theorem Chip.unsetFlag_moves {L : List Part} {b m : Chip} {f : Field} {i k : Nat} (h : Moves L b m)
    (w : within (f.part :: [.cyc]) L = true) : Moves L b (m.unsetFlag f i k) :=
  Chip.setCycle_moves (Chip.wr_moves h (within_head w)) (within_tail w)

theorem Chip.ncFlag_moves {L : List Part} {b m : Chip} {b' : Nat} (h : Moves L b m)
    (w : within [.rInt, .rNc, .asleep, .accums, .sys, .cyc] L = true) :
    Moves L b (Chip.ncFlag m b') := by
  unfold Chip.ncFlag
  refine Chip.raise_moves ?_ (within_sub w (by decide +kernel))
  assumption

theorem Chip.storeNat_moves {L : List Part} {b m : Chip} {a' : Nat} {n' : Nat} {v' : Nat} (h : Moves L b m)
    (w : within [.mem] L = true) :
    Moves L b (Chip.storeNat m a' n' v') := by
  unfold Chip.storeNat
  refine Chip.store_moves ?_ (within_sub w (by decide +kernel))
  assumption

theorem Chip.freeSample_moves {L : List Part} {b m : Chip} {f : Field} {i per : Nat} (h : Moves L b m)
    (w : within (f.part :: [.stamps, .frees]) L = true) : Moves L b (m.freeSample f i per) :=
  Moves.ite h (Chip.wr_moves (Moves.stamps (Chip.free_moves h (within_sub (within_tail w) (by decide +kernel)))
    (within_sub (within_tail w) (by decide +kernel))) (within_head w))

theorem Chip.timFlag_moves {L : List Part} {b m : Chip} {n' : Nat} {b' : Nat} (h : Moves L b m)
    (w : within [.rTim, .rInt, .asleep, .accums, .sys, .cyc] L = true) :
    Moves L b (Chip.timFlag m n' b') := by
  unfold Chip.timFlag
  refine Chip.raise_moves ?_ (within_sub w (by decide +kernel))
  assumption

theorem Chip.stamp_moves {L : List Part} {b m : Chip} {p' : Period} {i' : optParam Nat 0} (h : Moves L b m)
    (w : within [.stamps] L = true) :
    Moves L b (Chip.stamp m p' i') := by
  unfold Chip.stamp
  refine Moves.stamps ?_ (within_sub w (by decide +kernel))
  assumption

theorem Chip.sysFlag_moves {L : List Part} {b m : Chip} {b' : Nat} (h : Moves L b m)
    (w : within [.rInt, .rSys, .asleep, .accums, .sys, .cyc] L = true) :
    Moves L b (Chip.sysFlag m b') := by
  unfold Chip.sysFlag
  refine Chip.raise_moves ?_ (within_sub w (by decide +kernel))
  assumption

theorem Chip.supFlag_moves {L : List Part} {b m : Chip} {b' : Nat} (h : Moves L b m)
    (w : within [.rInt, .rSup, .asleep, .accums, .sys, .cyc] L = true) :
    Moves L b (Chip.supFlag m b') := by
  unfold Chip.supFlag
  refine Chip.raise_moves ?_ (within_sub w (by decide +kernel))
  assumption

theorem Chip.supmFlag_moves {L : List Part} {b m : Chip} {b' : Nat} (h : Moves L b m)
    (w : within [.rInt, .rSys, .asleep, .accums, .sys, .cyc] L = true) :
    Moves L b (Chip.supmFlag m b') := by
  unfold Chip.supmFlag
  refine Chip.raise_moves ?_ (within_sub w (by decide +kernel))
  assumption

theorem Chip.idle_moves {L : List Part} {b m : Chip} (h : Moves L b m)
    (w : within [.tb] L = true) :
    Moves L b (Chip.idle m) := by
  unfold Chip.idle
  extract_lets +onlyGivenNames x1
  clear_value x1
  refine Moves.ite ?_ ?_
  · assumption
  · refine Moves.tb ?_ (within_sub w (by decide +kernel))
    assumption

theorem Chip.mapFlag_moves {L : List Part} {b m : Chip} {b' : Nat} (h : Moves L b m)
    (w : within [.rInt, .rMap, .asleep, .accums, .sys, .cyc] L = true) :
    Moves L b (Chip.mapFlag m b') := by
  unfold Chip.mapFlag
  refine Chip.raise_moves ?_ (within_sub w (by decide +kernel))
  assumption

theorem Chip.asFlag_moves {L : List Part} {b m : Chip} {b' : Nat} (h : Moves L b m)
    (w : within [.rAs, .rInt, .asleep, .accums, .sys, .cyc] L = true) :
    Moves L b (Chip.asFlag m b') := by
  unfold Chip.asFlag
  refine Chip.raise_moves ?_ (within_sub w (by decide +kernel))
  assumption

end Sys2Proof.Machine
end

