-- ==== Sys2Proof/Laws/MovesMandrelOps.lean ====
section
/-! SUPPORT. Each operation of Machine/MandrelOps.lean moves the block within the parts it names. -/

-- Theorem by theorem: many at once each take a thread's stack, and the package as one text ran out of them.
set_option Elab.async false

namespace Sys2Proof.Machine

theorem Chip.axFlag_moves {L : List Part} {b m : Chip} {i' : Nat} {b' : Nat} (h : Moves L b m)
    (w : within [.rAx, .cyc] L = true) :
    Moves L b (Chip.axFlag m i' b') := by
  unfold Chip.axFlag
  refine Chip.setFlag_moves ?_ (within_sub w (by decide +kernel))
  assumption

theorem Chip.axEnter_moves {L : List Part} {b m : Chip} {i' : Nat} (h : Moves L b m)
    (w : within [.rAx, .cyc] L = true) :
    Moves L b (Chip.axEnter m i') := by
  unfold Chip.axEnter
  extract_lets +onlyGivenNames x1
  clear_value x1
  extract_lets +onlyGivenNames x2
  clear_value x2
  extract_lets +onlyGivenNames x3
  have h4 : Moves L b x3 := by
    unfold x3
    refine Chip.wr_moves ?_ (within_sub w (by decide +kernel))
    assumption
  clear_value x3
  extract_lets +onlyGivenNames x5
  have h6 : Moves L b x5 := by
    unfold x5
    refine Moves.ite ?_ ?_
    · refine Chip.axFlag_moves ?_ (within_sub w (by decide +kernel))
      assumption
    · assumption
  clear_value x5
  refine Moves.ite ?_ ?_
  · refine Chip.axFlag_moves ?_ (within_sub w (by decide +kernel))
    assumption
  · assumption

theorem Chip.srcFlag_moves {L : List Part} {b m : Chip} {k' : Nat} {b' : Nat} (h : Moves L b m)
    (w : within [.rMdl, .rInt, .asleep, .accums, .sys, .cyc] L = true) :
    Moves L b (Chip.srcFlag m k' b') := by
  unfold Chip.srcFlag
  refine Moves.ite ?_ ?_
  · assumption
  · refine Chip.mdlFlag_moves ?_ (within_sub w (by decide +kernel))
    refine Chip.setFlag_moves ?_ (within_sub w (by decide +kernel))
    assumption

theorem Chip.setSlotState_moves {L : List Part} {b m : Chip} {k' : Nat} {st' : Nat} (h : Moves L b m)
    (w : within [.rMdl] L = true) :
    Moves L b (Chip.setSlotState m k' st') := by
  unfold Chip.setSlotState
  refine Moves.ite ?_ ?_
  · refine Chip.wr_moves ?_ (within_sub w (by decide +kernel))
    assumption
  · refine Chip.wr_moves ?_ (within_sub w (by decide +kernel))
    assumption

theorem Chip.slotLose_moves {L : List Part} {b m : Chip} {k' : Nat} (h : Moves L b m)
    (w : within [.rMdl, .rInt, .asleep, .accums, .sys, .cyc] L = true) :
    Moves L b (Chip.slotLose m k') := by
  unfold Chip.slotLose
  extract_lets +onlyGivenNames x1
  clear_value x1
  refine Moves.ite ?_ ?_
  · assumption
  · refine Chip.srcFlag_moves ?_ (within_sub w (by decide +kernel))
    refine Chip.setSlotState_moves ?_ (within_sub w (by decide +kernel))
    assumption

theorem Chip.slotsLoseWheel_moves {L : List Part} {b m : Chip} {n' : Nat} (h : Moves L b m)
    (w : within [.rMdl, .rInt, .asleep, .accums, .sys, .cyc] L = true) :
    Moves L b (Chip.slotsLoseWheel m n') := by
  unfold Chip.slotsLoseWheel
  refine Moves.foldl ?_ fun y1 a2 h3 => ?_
  · assumption
  · refine Moves.ite ?_ ?_
    · refine Chip.slotLose_moves ?_ (within_sub w (by decide +kernel))
      assumption
    · assumption

theorem Chip.wrFit_moves {L : List Part} {b m : Chip} {f : Field} {i : Nat} {v : Int} (h : Moves L b m)
    (w : within [f.part, .frees] L = true) : Moves L b (m.wrFit f i v) := by
  unfold Chip.wrFit
  refine Moves.ite (Chip.wrI_moves h (within_head w)) ?_
  exact Chip.wrI_moves (Chip.free_moves h (within_tail w)) (within_head w)

theorem Chip.wrSat_moves {L : List Part} {b m : Chip} {f : Field} {i : Nat} {v : Int} (h : Moves L b m) (w : within [f.part] L = true) :
    Moves L b (m.wrSat f i v) := Chip.wrI_moves h w

theorem Chip.chassisStatus_moves {L : List Part} {b m : Chip} (h : Moves L b m)
    (w : within [.rMdl, .rInt, .frees, .asleep, .accums, .mdl, .sys, .cyc] L = true) :
    Moves L b (Chip.chassisStatus m) := by
  unfold Chip.chassisStatus
  extract_lets +onlyGivenNames x1
  clear_value x1
  extract_lets +onlyGivenNames x2
  clear_value x2
  extract_lets +onlyGivenNames x3
  have h4 : Moves L b x3 := by
    unfold x3
    refine Moves.ite ?_ ?_
    · refine Chip.mdlFlag_moves ?_ (within_sub w (by decide +kernel))
      assumption
    · assumption
  clear_value x3
  extract_lets +onlyGivenNames x5
  clear_value x5
  extract_lets +onlyGivenNames x6
  have h7 : Moves L b x6 := by
    unfold x6
    refine Moves.mdl ?_ (within_sub w (by decide +kernel))
    assumption
  clear_value x6
  refine Chip.wrFit_moves ?_ (within_sub w (by decide +kernel))
  refine Chip.wr_moves ?_ (within_sub w (by decide +kernel))
  refine Chip.wr_moves ?_ (within_sub w (by decide +kernel))
  assumption

theorem Chip.chassisTo_moves {L : List Part} {b m : Chip} {st' : Nat} (h : Moves L b m)
    (w : within [.rMdl, .rInt, .asleep, .accums, .mdl, .sys, .cyc] L = true) :
    Moves L b (Chip.chassisTo m st') := by
  unfold Chip.chassisTo
  extract_lets +onlyGivenNames x1
  clear_value x1
  extract_lets +onlyGivenNames x2
  have h3 : Moves L b x2 := by
    unfold x2
    refine Chip.mdlFlag_moves ?_ (within_sub w (by decide +kernel))
    refine Chip.wr_moves ?_ (within_sub w (by decide +kernel))
    assumption
  clear_value x2
  extract_lets +onlyGivenNames x4
  have h5 : Moves L b x4 := by
    unfold x4
    refine Moves.ite ?_ ?_
    · refine Chip.mdlFlag_moves ?_ (within_sub w (by decide +kernel))
      assumption
    · assumption
  clear_value x4
  extract_lets +onlyGivenNames x6
  have h7 : Moves L b x6 := by
    unfold x6
    refine Moves.ite ?_ ?_
    · refine Chip.mdlFlag_moves ?_ (within_sub w (by decide +kernel))
      assumption
    · refine Moves.ite ?_ ?_
      · refine Chip.mdlFlag_moves ?_ (within_sub w (by decide +kernel))
        assumption
      · refine Moves.ite ?_ ?_
        · refine Chip.mdlFlag_moves ?_ (within_sub w (by decide +kernel))
          assumption
        · assumption
  clear_value x6
  extract_lets +onlyGivenNames x8
  clear_value x8
  refine Moves.ite ?_ ?_
  · assumption
  · refine Moves.mdl ?_ (within_sub w (by decide +kernel))
    assumption

theorem Chip.setSlot_moves {L : List Part} {b m : Chip} {k' : Nat} {x' : Slot} (h : Moves L b m)
    (w : within [.mdl] L = true) :
    Moves L b (Chip.setSlot m k' x') := by
  unfold Chip.setSlot
  extract_lets +onlyGivenNames x1
  clear_value x1
  refine Moves.mdl ?_ (within_sub w (by decide +kernel))
  assumption

theorem Chip.slotAcquire_moves {L : List Part} {b m : Chip} {k' : Nat} (h : Moves L b m)
    (w : within [.rMdl, .mdl] L = true) :
    Moves L b (Chip.slotAcquire m k') := by
  unfold Chip.slotAcquire
  extract_lets +onlyGivenNames x1
  clear_value x1
  extract_lets +onlyGivenNames x2
  have h3 : Moves L b x2 := by
    unfold x2
    refine Chip.setSlot_moves ?_ (within_sub w (by decide +kernel))
    refine Chip.setSlotState_moves ?_ (within_sub w (by decide +kernel))
    assumption
  clear_value x2
  refine Moves.ite ?_ ?_
  · assumption
  · refine Chip.wr_moves ?_ (within_sub w (by decide +kernel))
    refine Chip.wr_moves ?_ (within_sub w (by decide +kernel))
    assumption

theorem Chip.learnClear_moves {L : List Part} {b m : Chip} {k' : Nat} (h : Moves L b m)
    (w : within [.rMdl, .mdl] L = true) :
    Moves L b (Chip.learnClear m k') := by
  unfold Chip.learnClear
  extract_lets +onlyGivenNames x1
  clear_value x1
  refine Chip.wr_moves ?_ (within_sub w (by decide +kernel))
  refine Chip.setSlot_moves ?_ (within_sub w (by decide +kernel))
  assumption

theorem Chip.yawSelect_moves {L : List Part} {b m : Chip} (h : Moves L b m)
    (w : within [.rMdl, .rInt, .asleep, .accums, .mdl, .sys, .cyc] L = true) :
    Moves L b (Chip.yawSelect m) := by
  unfold Chip.yawSelect
  extract_lets +onlyGivenNames x1
  clear_value x1
  extract_lets +onlyGivenNames x2
  clear_value x2
  extract_lets +onlyGivenNames x3
  clear_value x3
  extract_lets +onlyGivenNames x4
  clear_value x4
  extract_lets +onlyGivenNames x5
  have h6 : Moves L b x5 := by
    unfold x5
    refine Chip.wr_moves ?_ (within_sub w (by decide +kernel))
    assumption
  clear_value x5
  extract_lets +onlyGivenNames x7
  have h8 : Moves L b x7 := by
    unfold x7
    refine Moves.ite ?_ ?_
    · refine Chip.mdlFlag_moves ?_ (within_sub w (by decide +kernel))
      assumption
    · assumption
  clear_value x7
  extract_lets +onlyGivenNames x9
  have h10 : Moves L b x9 := by
    unfold x9
    refine Moves.ite ?_ ?_
    · refine Chip.mdlFlag_moves ?_ (within_sub w (by decide +kernel))
      assumption
    · assumption
  clear_value x9
  extract_lets +onlyGivenNames x11
  clear_value x11
  refine Moves.mdl ?_ (within_sub w (by decide +kernel))
  assumption

theorem Chip.yawSample_moves {L : List Part} {b m : Chip} {c' : Nat} {rate' : Int} {ts' : Nat} (h : Moves L b m)
    (w : within [.rMdl, .rInt, .asleep, .accums, .mdl, .sys, .cyc] L = true) :
    Moves L b (Chip.yawSample m c' rate' ts') := by
  unfold Chip.yawSample
  extract_lets +onlyGivenNames x1
  clear_value x1
  extract_lets +onlyGivenNames x2
  have h3 : Moves L b x2 := by
    unfold x2
    refine Moves.mdl ?_ (within_sub w (by decide +kernel))
    assumption
  clear_value x2
  extract_lets +onlyGivenNames x4
  clear_value x4
  extract_lets +onlyGivenNames x5
  have h6 : Moves L b x5 := by
    unfold x5
    refine Chip.yawSelect_moves ?_ (within_sub w (by decide +kernel))
    assumption
  clear_value x5
  extract_lets +onlyGivenNames x7
  clear_value x7
  refine Moves.ite ?_ ?_
  · refine Moves.mdl ?_ (within_sub w (by decide +kernel))
    assumption
  · assumption

theorem Chip.deflOffer_moves {L : List Part} {b m : Chip} {d' : Nat} {raw' : Int} (h : Moves L b m)
    (w : within [.mdl] L = true) :
    Moves L b (Chip.deflOffer m d' raw') := by
  unfold Chip.deflOffer
  extract_lets +onlyGivenNames x1
  clear_value x1
  extract_lets +onlyGivenNames x2
  clear_value x2
  refine Moves.mdl ?_ (within_sub w (by decide +kernel))
  assumption

theorem Chip.slotAdopt_moves {L : List Part} {b m : Chip} {k' : Nat} (h : Moves L b m)
    (w : within [.mdl] L = true) :
    Moves L b (Chip.slotAdopt m k') := by
  unfold Chip.slotAdopt
  extract_lets +onlyGivenNames x1
  clear_value x1
  refine Chip.setSlot_moves ?_ (within_sub w (by decide +kernel))
  assumption

theorem Chip.fieldTo_moves {L : List Part} {b m : Chip} {e' : Int} {n' : Int} (h : Moves L b m)
    (w : within [.rMdl, .rInt, .asleep, .accums, .mdl, .sys, .cyc] L = true) :
    Moves L b (Chip.fieldTo m e' n') := by
  unfold Chip.fieldTo
  extract_lets +onlyGivenNames x1
  have h2 : Moves L b x1 := by
    unfold x1
    refine Moves.ite ?_ ?_
    · refine Chip.mdlFlag_moves ?_ (within_sub w (by decide +kernel))
      assumption
    · assumption
  clear_value x1
  extract_lets +onlyGivenNames x3
  clear_value x3
  refine Moves.mdl ?_ (within_sub w (by decide +kernel))
  assumption

theorem Chip.stillCount_moves {L : List Part} {b m : Chip} {k' : Nat} {d' : Int} (h : Moves L b m)
    (w : within [.mdl] L = true) :
    Moves L b (Chip.stillCount m k' d') := by
  unfold Chip.stillCount
  extract_lets +onlyGivenNames x1
  clear_value x1
  extract_lets +onlyGivenNames x2
  clear_value x2
  refine Moves.ite ?_ ?_
  · refine Moves.mdl ?_ (within_sub w (by decide +kernel))
    assumption
  · assumption

theorem Chip.slotPull_moves {L : List Part} {b m : Chip} {k' : Nat} (h : Moves L b m)
    (w : within [.rMdl, .mdl] L = true) :
    Moves L b (Chip.slotPull m k') := by
  unfold Chip.slotPull
  extract_lets +onlyGivenNames x1
  clear_value x1
  refine Chip.setSlotState_moves ?_ (within_sub w (by decide +kernel))
  refine Moves.mdl ?_ (within_sub w (by decide +kernel))
  assumption

theorem Chip.acqEnd_moves {L : List Part} {b m : Chip} {k' : Nat} (h : Moves L b m)
    (w : within [.rMdl, .rInt, .asleep, .accums, .sys, .cyc] L = true) :
    Moves L b (Chip.acqEnd m k') := by
  unfold Chip.acqEnd
  split
  · refine Chip.srcFlag_moves ?_ (within_sub w (by decide +kernel))
    refine Chip.setSlotState_moves ?_ (within_sub w (by decide +kernel))
    assumption
  · refine Moves.ite ?_ ?_
    · refine Chip.srcFlag_moves ?_ (within_sub w (by decide +kernel))
      refine Chip.srcFlag_moves ?_ (within_sub w (by decide +kernel))
      refine Chip.setSlotState_moves ?_ (within_sub w (by decide +kernel))
      assumption
    · refine Chip.srcFlag_moves ?_ (within_sub w (by decide +kernel))
      refine Chip.setSlotState_moves ?_ (within_sub w (by decide +kernel))
      assumption

theorem Chip.slotAccept_moves {L : List Part} {b m : Chip} {k' : Nat} {x' : Slot} {e' : Int} {te' : Nat} (h : Moves L b m)
    (w : within [.rMdl, .rInt, .asleep, .accums, .mdl, .sys, .cyc] L = true) :
    Moves L b (Chip.slotAccept m k' x' e' te') := by
  unfold Chip.slotAccept
  extract_lets +onlyGivenNames x1
  clear_value x1
  extract_lets +onlyGivenNames x2
  clear_value x2
  extract_lets +onlyGivenNames x3
  clear_value x3
  extract_lets +onlyGivenNames x4
  clear_value x4
  extract_lets +onlyGivenNames x5
  clear_value x5
  extract_lets +onlyGivenNames x6
  clear_value x6
  extract_lets +onlyGivenNames x7
  clear_value x7
  extract_lets +onlyGivenNames x8
  have h9 : Moves L b x8 := by
    unfold x8
    refine Chip.setSlot_moves ?_ (within_sub w (by decide +kernel))
    assumption
  clear_value x8
  extract_lets +onlyGivenNames x10
  clear_value x10
  extract_lets +onlyGivenNames x11
  have h12 : Moves L b x11 := by
    unfold x11
    refine Moves.ite ?_ ?_
    · refine Chip.acqEnd_moves ?_ (within_sub w (by decide +kernel))
      assumption
    · assumption
  clear_value x11
  split
  · refine Moves.ite ?_ ?_
    · assumption
    · refine Chip.wr_moves ?_ (within_sub w (by decide +kernel))
      refine Chip.wr_moves ?_ (within_sub w (by decide +kernel))
      assumption

theorem Chip.slotMeasure_moves {L : List Part} {b m : Chip} {k' : Nat} {c' : Int} {te' : Nat} {startMark' : Bool} {gate' : Int} {count' : Int} (h : Moves L b m)
    (w : within [.rMdl, .rInt, .asleep, .accums, .mdl, .sys, .cyc] L = true) :
    Moves L b (Chip.slotMeasure m k' c' te' startMark' gate' count') := by
  unfold Chip.slotMeasure
  extract_lets +onlyGivenNames x1
  clear_value x1
  extract_lets +onlyGivenNames x2
  have h3 : Moves L b x2 := by
    unfold x2
    refine Moves.ite ?_ ?_
    · refine Chip.slotAcquire_moves ?_ (within_sub w (by decide +kernel))
      assumption
    · assumption
  clear_value x2
  extract_lets +onlyGivenNames x4
  clear_value x4
  extract_lets +onlyGivenNames x5
  clear_value x5
  extract_lets +onlyGivenNames x6
  clear_value x6
  extract_lets +onlyGivenNames x7
  clear_value x7
  extract_lets +onlyGivenNames x8
  have h9 : Moves L b x8 := by
    unfold x8
    refine Chip.setSlot_moves ?_ (within_sub w (by decide +kernel))
    assumption
  clear_value x8
  extract_lets +onlyGivenNames x10
  have h11 : Moves L b x10 := by
    unfold x10
    refine Chip.stillCount_moves ?_ (within_sub w (by decide +kernel))
    assumption
  clear_value x10
  extract_lets +onlyGivenNames x12
  clear_value x12
  refine Moves.ite ?_ ?_
  · assumption
  · refine Moves.ite ?_ ?_
    · refine Chip.stillCount_moves ?_ (within_sub w (by decide +kernel))
      refine Chip.setSlot_moves ?_ (within_sub w (by decide +kernel))
      assumption
    · refine Moves.ite ?_ ?_
      · refine Moves.ite ?_ ?_
        · refine Chip.slotPull_moves ?_ (within_sub w (by decide +kernel))
          assumption
        · assumption
      · refine Moves.ite ?_ ?_
        · refine Chip.stillCount_moves ?_ (within_sub w (by decide +kernel))
          refine Chip.slotAccept_moves ?_ (within_sub w (by decide +kernel))
          assumption
        · split
          · extract_lets +onlyGivenNames x13
            have h14 : Moves L b x13 := by
              unfold x13
              refine Chip.count_moves ?_ (within_sub w (by decide +kernel))
              assumption
            clear_value x13
            extract_lets +onlyGivenNames x15
            have h16 : Moves L b x15 := by
              unfold x15
              refine Chip.srcFlag_moves ?_ (within_sub w (by decide +kernel))
              assumption
            clear_value x15
            refine Chip.stillCount_moves ?_ (within_sub w (by decide +kernel))
            refine Chip.slotAccept_moves ?_ (within_sub w (by decide +kernel))
            assumption
          · extract_lets +onlyGivenNames x17
            have h18 : Moves L b x17 := by
              unfold x17
              refine Moves.ite ?_ ?_
              · assumption
              · refine Chip.srcFlag_moves ?_ (within_sub w (by decide +kernel))
                refine Chip.count_moves ?_ (within_sub w (by decide +kernel))
                assumption
            clear_value x17
            extract_lets +onlyGivenNames x19
            have h20 : Moves L b x19 := by
              unfold x19
              refine Chip.setSlot_moves ?_ (within_sub w (by decide +kernel))
              assumption
            clear_value x19
            extract_lets +onlyGivenNames x21
            clear_value x21
            refine Moves.ite ?_ ?_
            · refine Chip.slotLose_moves ?_ (within_sub w (by decide +kernel))
              assumption
            · assumption

theorem Chip.slotsDeliver_moves {L : List Part} {b m : Chip} {type' : Nat} {input' : Nat} {r' : EdgeRec} (h : Moves L b m)
    (w : within [.mdl] L = true) :
    Moves L b (Chip.slotsDeliver m type' input' r') := by
  unfold Chip.slotsDeliver
  refine Moves.foldl ?_ fun y1 a2 h3 => ?_
  · assumption
  · extract_lets +onlyGivenNames x4
    clear_value x4
    refine Moves.ite ?_ ?_
    · refine Chip.setSlot_moves ?_ (within_sub w (by decide +kernel))
      assumption
    · assumption

theorem Chip.axDir_moves {L : List Part} {b m : Chip} {i' : Nat} {v' : Int} (h : Moves L b m)
    (w : within [.rAx, .cyc] L = true) :
    Moves L b (Chip.axDir m i' v') := by
  unfold Chip.axDir
  extract_lets +onlyGivenNames x1
  clear_value x1
  refine Moves.ite ?_ ?_
  · refine Chip.axFlag_moves ?_ (within_sub w (by decide +kernel))
    refine Chip.wrB_moves ?_ (within_sub w (by decide +kernel))
    assumption
  · refine Moves.ite ?_ ?_
    · refine Chip.axFlag_moves ?_ (within_sub w (by decide +kernel))
      refine Chip.wrB_moves ?_ (within_sub w (by decide +kernel))
      assumption
    · assumption

theorem Chip.axTick_moves {L : List Part} {b m : Chip} {i' : Nat} (h : Moves L b m)
    (w : within [.rAx, .axes, .cyc] L = true) :
    Moves L b (Chip.axTick m i') := by
  unfold Chip.axTick
  extract_lets +onlyGivenNames x1
  have h2 : Moves L b x1 := by
    unfold x1
    refine Chip.axEnter_moves ?_ (within_sub w (by decide +kernel))
    assumption
  clear_value x1
  extract_lets +onlyGivenNames x3
  clear_value x3
  extract_lets +onlyGivenNames x4
  have h5 : Moves L b x4 := by
    unfold x4
    refine Chip.wrB_moves ?_ (within_sub w (by decide +kernel))
    assumption
  clear_value x4
  extract_lets +onlyGivenNames x6
  clear_value x6
  split
  · extract_lets +onlyGivenNames x7
    clear_value x7
    extract_lets +onlyGivenNames x8
    clear_value x8
    extract_lets +onlyGivenNames x9
    clear_value x9
    refine Moves.ite ?_ ?_
    · refine Chip.axDir_moves ?_ (within_sub w (by decide +kernel))
      refine Moves.axes ?_ (within_sub w (by decide +kernel))
      assumption
    · refine Moves.axes ?_ (within_sub w (by decide +kernel))
      assumption

theorem Chip.slipOne_moves {L : List Part} {b m : Chip} {k' : Nat} (h : Moves L b m)
    (w : within [.rMdl, .mdl] L = true) :
    Moves L b (Chip.slipOne m k') := by
  unfold Chip.slipOne
  extract_lets +onlyGivenNames x1
  clear_value x1
  extract_lets +onlyGivenNames x2
  clear_value x2
  refine Moves.ite ?_ ?_
  · split
    · refine Chip.setSlot_moves ?_ (within_sub w (by decide +kernel))
      refine Chip.wr_moves ?_ (within_sub w (by decide +kernel))
      assumption
    · extract_lets +onlyGivenNames x3
      have h4 : Moves L b x3 := by
        unfold x3
        refine Chip.wrSat_moves ?_ (within_sub w (by decide +kernel))
        assumption
      clear_value x3
      extract_lets +onlyGivenNames x5
      clear_value x5
      extract_lets +onlyGivenNames x6
      clear_value x6
      refine Moves.ite ?_ ?_
      · refine Chip.setSlot_moves ?_ (within_sub w (by decide +kernel))
        refine Chip.wr_moves ?_ (within_sub w (by decide +kernel))
        assumption
      · refine Chip.setSlot_moves ?_ (within_sub w (by decide +kernel))
        assumption
  · refine Chip.setSlot_moves ?_ (within_sub w (by decide +kernel))
    refine Chip.wr_moves ?_ (within_sub w (by decide +kernel))
    assumption

theorem Chip.slipEnter_moves {L : List Part} {b m : Chip} (h : Moves L b m)
    (w : within [.rMdl, .rInt, .asleep, .accums, .mdl, .sys, .cyc] L = true) :
    Moves L b (Chip.slipEnter m) := by
  unfold Chip.slipEnter
  extract_lets +onlyGivenNames x1
  clear_value x1
  extract_lets +onlyGivenNames x2
  clear_value x2
  extract_lets +onlyGivenNames x3
  clear_value x3
  extract_lets +onlyGivenNames x4
  clear_value x4
  extract_lets +onlyGivenNames x5
  have h6 : Moves L b x5 := by
    unfold x5
    refine Moves.ite ?_ ?_
    · refine Chip.mdlFlag_moves ?_ (within_sub w (by decide +kernel))
      assumption
    · assumption
  clear_value x5
  refine Moves.foldl ?_ fun y7 a8 h9 => ?_
  · assumption
  · extract_lets +onlyGivenNames x10
    clear_value x10
    refine Chip.srcFlag_moves ?_ (within_sub w (by decide +kernel))
    refine Chip.setSlot_moves ?_ (within_sub w (by decide +kernel))
    refine Chip.setSlotState_moves ?_ (within_sub w (by decide +kernel))
    assumption

theorem Chip.slipRejoin_moves {L : List Part} {b m : Chip} {k' : Nat} (h : Moves L b m)
    (w : within [.rMdl, .rInt, .asleep, .accums, .mdl, .sys, .cyc] L = true) :
    Moves L b (Chip.slipRejoin m k') := by
  unfold Chip.slipRejoin
  extract_lets +onlyGivenNames x1
  clear_value x1
  refine Moves.ite ?_ ?_
  · refine Chip.srcFlag_moves ?_ (within_sub w (by decide +kernel))
    refine Chip.setSlot_moves ?_ (within_sub w (by decide +kernel))
    refine Chip.setSlotState_moves ?_ (within_sub w (by decide +kernel))
    assumption
  · assumption

theorem Chip.learnOne_moves {L : List Part} {b m : Chip} {k' : Nat} (h : Moves L b m)
    (w : within [.rMdl, .rInt, .asleep, .accums, .mdl, .sys, .cyc] L = true) :
    Moves L b (Chip.learnOne m k') := by
  unfold Chip.learnOne
  extract_lets +onlyGivenNames x1
  clear_value x1
  extract_lets +onlyGivenNames x2
  clear_value x2
  extract_lets +onlyGivenNames x3
  clear_value x3
  extract_lets +onlyGivenNames x4
  clear_value x4
  extract_lets +onlyGivenNames x5
  clear_value x5
  extract_lets +onlyGivenNames x6
  clear_value x6
  extract_lets +onlyGivenNames x7
  clear_value x7
  extract_lets +onlyGivenNames x8
  clear_value x8
  extract_lets +onlyGivenNames x9
  clear_value x9
  extract_lets +onlyGivenNames x10
  have h11 : Moves L b x10 := by
    unfold x10
    refine Chip.wr_moves ?_ (within_sub w (by decide +kernel))
    refine Chip.setSlot_moves ?_ (within_sub w (by decide +kernel))
    assumption
  clear_value x10
  refine Moves.ite ?_ ?_
  · refine Moves.ite ?_ ?_
    · assumption
    · refine Moves.ite ?_ ?_
      · assumption
      · refine Chip.srcFlag_moves ?_ (within_sub w (by decide +kernel))
        assumption
  · assumption

theorem Chip.yawMove_moves {L : List Part} {b m : Chip} (h : Moves L b m)
    (w : within [.mdl] L = true) :
    Moves L b (Chip.yawMove m) := by
  unfold Chip.yawMove
  extract_lets +onlyGivenNames x1
  clear_value x1
  extract_lets +onlyGivenNames x2
  clear_value x2
  extract_lets +onlyGivenNames x3
  clear_value x3
  extract_lets +onlyGivenNames x4
  clear_value x4
  extract_lets +onlyGivenNames x5
  clear_value x5
  refine Moves.ite ?_ ?_
  · refine Moves.mdl ?_ (within_sub w (by decide +kernel))
    assumption
  · refine Moves.mdl ?_ (within_sub w (by decide +kernel))
    assumption

theorem Chip.yawPair_moves {L : List Part} {b m : Chip} (h : Moves L b m)
    (w : within [.frees, .mdl] L = true) :
    Moves L b (Chip.yawPair m) := by
  unfold Chip.yawPair
  extract_lets +onlyGivenNames x1
  clear_value x1
  extract_lets +onlyGivenNames x2
  clear_value x2
  extract_lets +onlyGivenNames x3
  clear_value x3
  extract_lets +onlyGivenNames x4
  clear_value x4
  refine Moves.ite ?_ ?_
  · split
    · rename_i y5 y6 y7 q8
      have h9 : Moves L b ((y6 : Int), y7).2 := by
        rw [← q8]
        split
        · refine Chip.free_moves ?_ (within_sub w (by decide +kernel))
          assumption
        · refine Moves.pair ?_
          assumption
      extract_lets +onlyGivenNames x10
      clear_value x10
      refine Moves.mdl ?_ (within_sub w (by decide +kernel))
      assumption
  · assumption

theorem Chip.deflTick_moves {L : List Part} {b m : Chip} {d' : Nat} (h : Moves L b m)
    (w : within [.rMdl, .frees, .mdl] L = true) :
    Moves L b (Chip.deflTick m d') := by
  unfold Chip.deflTick
  extract_lets +onlyGivenNames x1
  clear_value x1
  extract_lets +onlyGivenNames x2
  clear_value x2
  extract_lets +onlyGivenNames x3
  clear_value x3
  extract_lets +onlyGivenNames x4
  clear_value x4
  extract_lets +onlyGivenNames x5
  clear_value x5
  refine Chip.wrFit_moves ?_ (within_sub w (by decide +kernel))
  refine Moves.mdl ?_ (within_sub w (by decide +kernel))
  assumption

theorem Chip.slotTick_moves {L : List Part} {b m : Chip} {k' : Nat} (h : Moves L b m)
    (w : within [.rMdl, .frees, .mdl] L = true) :
    Moves L b (Chip.slotTick m k') := by
  unfold Chip.slotTick
  extract_lets +onlyGivenNames x1
  clear_value x1
  extract_lets +onlyGivenNames x2
  clear_value x2
  extract_lets +onlyGivenNames x3
  clear_value x3
  extract_lets +onlyGivenNames x4
  have h5 : Moves L b x4 := by
    unfold x4
    refine Chip.setSlot_moves ?_ (within_sub w (by decide +kernel))
    assumption
  clear_value x4
  refine Moves.ite ?_ ?_
  · refine Chip.wrFit_moves ?_ (within_sub w (by decide +kernel))
    assumption
  · refine Chip.wrB_moves ?_ (within_sub w (by decide +kernel))
    refine Chip.wrFit_moves ?_ (within_sub w (by decide +kernel))
    assumption

theorem Chip.publish_moves {L : List Part} {b m : Chip} (h : Moves L b m)
    (w : within [.mdl] L = true) :
    Moves L b (Chip.publish m) := by
  unfold Chip.publish
  extract_lets +onlyGivenNames x1
  clear_value x1
  extract_lets +onlyGivenNames x2
  clear_value x2
  refine Moves.mdl ?_ (within_sub w (by decide +kernel))
  assumption

theorem Chip.lowClock_moves {L : List Part} {b m : Chip} (h : Moves L b m)
    (w : within [.mdl] L = true) :
    Moves L b (Chip.lowClock m) := by
  unfold Chip.lowClock
  extract_lets +onlyGivenNames x1
  clear_value x1
  refine Moves.ite ?_ ?_
  · refine Moves.mdl ?_ (within_sub w (by decide +kernel))
    assumption
  · refine Moves.mdl ?_ (within_sub w (by decide +kernel))
    assumption

theorem Chip.fieldMove_moves {L : List Part} {b m : Chip} (h : Moves L b m)
    (w : within [.rMdl, .rInt, .asleep, .accums, .mdl, .sys, .cyc] L = true) :
    Moves L b (Chip.fieldMove m) := by
  unfold Chip.fieldMove
  extract_lets +onlyGivenNames x1
  clear_value x1
  extract_lets +onlyGivenNames x2
  clear_value x2
  extract_lets +onlyGivenNames x3
  clear_value x3
  extract_lets +onlyGivenNames x4
  clear_value x4
  extract_lets +onlyGivenNames x5
  have h6 : Moves L b x5 := by
    unfold x5
    refine Chip.fieldTo_moves ?_ (within_sub w (by decide +kernel))
    assumption
  clear_value x5
  extract_lets +onlyGivenNames x7
  clear_value x7
  refine Moves.mdl ?_ (within_sub w (by decide +kernel))
  assumption

theorem Chip.chassisMove_moves {L : List Part} {b m : Chip} {was' : Nat} (h : Moves L b m)
    (w : within [.mdl] L = true) :
    Moves L b (Chip.chassisMove m was') := by
  unfold Chip.chassisMove
  extract_lets +onlyGivenNames x1
  clear_value x1
  split
  · extract_lets +onlyGivenNames x2
    clear_value x2
    extract_lets +onlyGivenNames x3
    clear_value x3
    extract_lets +onlyGivenNames x4
    clear_value x4
    extract_lets +onlyGivenNames x5
    clear_value x5
    extract_lets +onlyGivenNames x6
    clear_value x6
    extract_lets +onlyGivenNames x7
    clear_value x7
    refine Moves.ite ?_ ?_
    · refine Moves.mdl ?_ (within_sub w (by decide +kernel))
      assumption
    · refine Moves.ite ?_ ?_
      · refine Moves.mdl ?_ (within_sub w (by decide +kernel))
        assumption
      · refine Moves.ite ?_ ?_
        · refine Moves.mdl ?_ (within_sub w (by decide +kernel))
          assumption
        · refine Moves.mdl ?_ (within_sub w (by decide +kernel))
          assumption

theorem Chip.chassisStep_moves {L : List Part} {b m : Chip} (h : Moves L b m)
    (w : within [.rMdl, .rInt, .asleep, .accums, .mdl, .sys, .cyc] L = true) :
    Moves L b (Chip.chassisStep m) := by
  unfold Chip.chassisStep
  extract_lets +onlyGivenNames x1
  clear_value x1
  extract_lets +onlyGivenNames x2
  clear_value x2
  extract_lets +onlyGivenNames x3
  refine Moves.ite ?_ ?_
  · refine Moves.ite ?_ ?_
    · assumption
    · refine Chip.chassisTo_moves ?_ (within_sub w (by decide +kernel))
      assumption
  · refine Moves.ite ?_ ?_
    · refine Moves.ite ?_ ?_
      · refine Chip.chassisTo_moves ?_ (within_sub w (by decide +kernel))
        assumption
      · refine Moves.ite ?_ ?_
        · refine Chip.chassisTo_moves ?_ (within_sub w (by decide +kernel))
          assumption
        · refine Chip.chassisTo_moves ?_ (within_sub w (by decide +kernel))
          assumption
    · refine Moves.ite ?_ ?_
      · refine Moves.ite ?_ ?_
        · refine Chip.chassisTo_moves ?_ (within_sub w (by decide +kernel))
          assumption
        · refine Moves.ite ?_ ?_
          · refine Chip.chassisTo_moves ?_ (within_sub w (by decide +kernel))
            assumption
          · assumption
      · assumption

theorem Chip.mandrelTick_moves {L : List Part} {b m : Chip} (h : Moves L b m)
    (w : within [.rMdl, .rInt, .frees, .asleep, .accums, .mdl, .sys, .cyc] L = true) :
    Moves L b (Chip.mandrelTick m) := by
  unfold Chip.mandrelTick
  extract_lets +onlyGivenNames x1
  clear_value x1
  extract_lets +onlyGivenNames x2
  have h3 : Moves L b x2 := by
    unfold x2
    refine Moves.mdl ?_ (within_sub w (by decide +kernel))
    assumption
  clear_value x2
  extract_lets +onlyGivenNames x4
  have h5 : Moves L b x4 := by
    unfold x4
    refine Moves.foldl ?_ fun y6 a7 h8 => ?_
    · assumption
    · refine Chip.deflTick_moves ?_ (within_sub w (by decide +kernel))
      assumption
  clear_value x4
  extract_lets +onlyGivenNames x9
  have h10 : Moves L b x9 := by
    unfold x9
    refine Moves.foldl ?_ fun y11 a12 h13 => ?_
    · assumption
    · refine Chip.slotAdopt_moves ?_ (within_sub w (by decide +kernel))
      assumption
  clear_value x9
  extract_lets +onlyGivenNames x14
  have h15 : Moves L b x14 := by
    unfold x14
    refine Moves.foldl ?_ fun y16 a17 h18 => ?_
    · assumption
    · refine Chip.slotTick_moves ?_ (within_sub w (by decide +kernel))
      assumption
  clear_value x14
  extract_lets +onlyGivenNames x19
  have h20 : Moves L b x19 := by
    unfold x19
    refine Chip.yawSelect_moves ?_ (within_sub w (by decide +kernel))
    refine Chip.yawPair_moves ?_ (within_sub w (by decide +kernel))
    assumption
  clear_value x19
  extract_lets +onlyGivenNames x21
  clear_value x21
  refine Chip.publish_moves ?_ (within_sub w (by decide +kernel))
  refine Chip.chassisStatus_moves ?_ (within_sub w (by decide +kernel))
  refine Chip.lowClock_moves ?_ (within_sub w (by decide +kernel))
  refine Chip.fieldMove_moves ?_ (within_sub w (by decide +kernel))
  refine Chip.yawMove_moves ?_ (within_sub w (by decide +kernel))
  refine Chip.chassisMove_moves ?_ (within_sub w (by decide +kernel))
  refine Chip.chassisStep_moves ?_ (within_sub w (by decide +kernel))
  assumption

theorem Chip.axesTick_moves {L : List Part} {b m : Chip} (h : Moves L b m)
    (w : within [.rAx, .axes, .cyc] L = true) :
    Moves L b (Chip.axesTick m) := by
  unfold Chip.axesTick
  refine Moves.foldl ?_ fun y1 a2 h3 => ?_
  · assumption
  · refine Chip.axTick_moves ?_ (within_sub w (by decide +kernel))
    assumption

theorem Chip.deflTake_moves {L : List Part} {b m : Chip} {d' : Nat} {raw' : Int} (h : Moves L b m)
    (w : within [.mdl] L = true) :
    Moves L b (Chip.deflTake m d' raw') := by
  unfold Chip.deflTake
  extract_lets +onlyGivenNames x1
  clear_value x1
  extract_lets +onlyGivenNames x2
  clear_value x2
  refine Moves.mdl ?_ (within_sub w (by decide +kernel))
  assumption

theorem Chip.slotStop_moves {L : List Part} {b m : Chip} {k' : Nat} (h : Moves L b m)
    (w : within [.rMdl, .rInt, .asleep, .accums, .mdl, .sys, .cyc] L = true) :
    Moves L b (Chip.slotStop m k') := by
  unfold Chip.slotStop
  extract_lets +onlyGivenNames x1
  clear_value x1
  extract_lets +onlyGivenNames x2
  clear_value x2
  extract_lets +onlyGivenNames x3
  clear_value x3
  refine Moves.ite ?_ ?_
  · refine Chip.setSlot_moves ?_ (within_sub w (by decide +kernel))
    assumption
  · refine Moves.ite ?_ ?_
    · refine Moves.ite ?_ ?_
      · refine Chip.srcFlag_moves ?_ (within_sub w (by decide +kernel))
        refine Chip.setSlotState_moves ?_ (within_sub w (by decide +kernel))
        assumption
      · refine Chip.setSlot_moves ?_ (within_sub w (by decide +kernel))
        refine Chip.setSlotState_moves ?_ (within_sub w (by decide +kernel))
        assumption
    · refine Moves.ite ?_ ?_
      · refine Chip.srcFlag_moves ?_ (within_sub w (by decide +kernel))
        refine Chip.setSlot_moves ?_ (within_sub w (by decide +kernel))
        refine Chip.setSlotState_moves ?_ (within_sub w (by decide +kernel))
        assumption
      · refine Moves.ite ?_ ?_
        · refine Chip.slotAcquire_moves ?_ (within_sub w (by decide +kernel))
          assumption
        · assumption

theorem Chip.slotTake_moves {L : List Part} {b m : Chip} {k' : Nat} {r' : EdgeRec} (h : Moves L b m)
    (w : within [.rMdl, .rInt, .asleep, .accums, .mdl, .sys, .cyc] L = true) :
    Moves L b (Chip.slotTake m k' r') := by
  unfold Chip.slotTake
  extract_lets +onlyGivenNames x1
  clear_value x1
  refine Moves.ite ?_ ?_
  · refine Chip.slotStop_moves ?_ (within_sub w (by decide +kernel))
    assumption
  · refine Chip.slotMeasure_moves ?_ (within_sub w (by decide +kernel))
    assumption

end Sys2Proof.Machine
end

