-- ==== Sys2Proof/Laws/MovesDriveOps.lean ====
section
/-! SUPPORT. Each operation of Machine/DriveOps.lean moves the block within the parts it names. -/

-- Theorem by theorem: many at once each take a thread's stack, and the package as one text ran out of them.
set_option Elab.async false

namespace Sys2Proof.Machine

theorem Chip.setChan_moves {L : List Part} {b m : Chip} {ch' : Nat} {x' : Chan} (h : Moves L b m)
    (w : within [.chans] L = true) :
    Moves L b (Chip.setChan m ch' x') := by
  unfold Chip.setChan
  refine Moves.chans ?_ (within_sub w (by decide +kernel))
  assumption

theorem Chip.setDrv_moves {L : List Part} {b m : Chip} {ch' : Nat} {d' : Drv} (h : Moves L b m)
    (w : within [.chans] L = true) :
    Moves L b (Chip.setDrv m ch' d') := by
  unfold Chip.setDrv
  extract_lets +onlyGivenNames x1
  clear_value x1
  refine Chip.setChan_moves ?_ (within_sub w (by decide +kernel))
  assumption

theorem Chip.capStart_moves {L : List Part} {b m : Chip} {ch' : Nat} {t' : Nat} (h : Moves L b m)
    (w : within [.chans] L = true) :
    Moves L b (Chip.capStart m ch' t') := by
  unfold Chip.capStart
  extract_lets +onlyGivenNames x1
  clear_value x1
  refine Moves.ite ?_ ?_
  · refine Chip.setDrv_moves ?_ (within_sub w (by decide +kernel))
    assumption
  · assumption

theorem Chip.laneRecord_moves {L : List Part} {b m : Chip} {ch' : Nat} {t' : Nat} (h : Moves L b m)
    (w : within [.rCap, .chans] L = true) :
    Moves L b (Chip.laneRecord m ch' t') := by
  unfold Chip.laneRecord
  refine Chip.capStart_moves ?_ (within_sub w (by decide +kernel))
  refine Moves.foldl ?_ fun y1 a2 h3 => ?_
  · assumption
  · extract_lets +onlyGivenNames x4
    clear_value x4
    refine Moves.ite ?_ ?_
    · refine Chip.wr_moves ?_ (within_sub w (by decide +kernel))
      refine Chip.wrTb_moves ?_ (within_sub w (by decide +kernel))
      refine Chip.wr_moves ?_ (within_sub w (by decide +kernel))
      assumption
    · assumption

theorem Chip.setBank_moves {L : List Part} {b m : Chip} {b' : Nat} {x' : BankSt} (h : Moves L b m)
    (w : within [.banks] L = true) :
    Moves L b (Chip.setBank m b' x') := by
  unfold Chip.setBank
  refine Moves.banks ?_ (within_sub w (by decide +kernel))
  assumption

theorem Chip.supAbort_moves {L : List Part} {b m : Chip} {b' : Nat} (h : Moves L b m)
    (w : within [.rDgb, .rInt, .asleep, .accums, .banks, .sys, .cyc] L = true) :
    Moves L b (Chip.supAbort m b') := by
  unfold Chip.supAbort
  extract_lets +onlyGivenNames x1
  clear_value x1
  refine Moves.ite ?_ ?_
  · refine Chip.dgbFlag_moves ?_ (within_sub w (by decide +kernel))
    refine Chip.wr_moves ?_ (within_sub w (by decide +kernel))
    refine Chip.setBank_moves ?_ (within_sub w (by decide +kernel))
    assumption
  · assumption

theorem Chip.dgFlag_moves {L : List Part} {b m : Chip} {ch' : Nat} {b' : Nat} (h : Moves L b m)
    (w : within [.rDg, .rDgb, .rInt, .asleep, .accums, .sys, .cyc] L = true) :
    Moves L b (Chip.dgFlag m ch' b') := by
  unfold Chip.dgFlag
  extract_lets +onlyGivenNames x1
  clear_value x1
  extract_lets +onlyGivenNames x2
  have h3 : Moves L b x2 := by
    unfold x2
    refine Chip.setFlag_moves ?_ (within_sub w (by decide +kernel))
    assumption
  clear_value x2
  refine Moves.ite ?_ ?_
  · refine Chip.dgbFlag_moves ?_ (within_sub w (by decide +kernel))
    assumption
  · assumption

theorem Chip.nodeAbort_moves {L : List Part} {b m : Chip} {ch' : Nat} (h : Moves L b m)
    (w : within [.rDg, .rDgb, .rInt, .asleep, .accums, .chans, .sys, .cyc] L = true) :
    Moves L b (Chip.nodeAbort m ch') := by
  unfold Chip.nodeAbort
  extract_lets +onlyGivenNames x1
  clear_value x1
  refine Moves.ite ?_ ?_
  · refine Chip.dgFlag_moves ?_ (within_sub w (by decide +kernel))
    refine Chip.setDrv_moves ?_ (within_sub w (by decide +kernel))
    assumption
  · assumption

theorem Chip.drvFlag_moves {L : List Part} {b m : Chip} {ch' : Nat} {b' : Nat} (h : Moves L b m)
    (w : within [.rDrv, .rBk, .rInt, .asleep, .accums, .sys, .cyc] L = true) :
    Moves L b (Chip.drvFlag m ch' b') := by
  unfold Chip.drvFlag
  extract_lets +onlyGivenNames x1
  clear_value x1
  extract_lets +onlyGivenNames x2
  have h3 : Moves L b x2 := by
    unfold x2
    refine Chip.setFlag_moves ?_ (within_sub w (by decide +kernel))
    assumption
  clear_value x2
  refine Moves.ite ?_ ?_
  · refine Chip.bkFlag_moves ?_ (within_sub w (by decide +kernel))
    assumption
  · assumption

theorem Chip.bankStat_moves {L : List Part} {b m : Chip} {b' : Nat} (h : Moves L b m)
    (w : within [.rBk] L = true) :
    Moves L b (Chip.bankStat m b') := by
  unfold Chip.bankStat
  refine Chip.wr_moves ?_ (within_sub w (by decide +kernel))
  refine Chip.wrB_moves ?_ (within_sub w (by decide +kernel))
  assumption

theorem Chip.capNote_moves {L : List Part} {b m : Chip} {ch' : Nat} (h : Moves L b m)
    (w : within [.chans] L = true) :
    Moves L b (Chip.capNote m ch') := by
  unfold Chip.capNote
  extract_lets +onlyGivenNames x1
  clear_value x1
  refine Moves.ite ?_ ?_
  · assumption
  · refine Chip.setDrv_moves ?_ (within_sub w (by decide +kernel))
    assumption

theorem Chip.setPhase_moves {L : List Part} {b m : Chip} {ch' : Nat} {ph' : Nat} (h : Moves L b m)
    (w : within [.rDrv, .rBk, .chans] L = true) :
    Moves L b (Chip.setPhase m ch' ph') := by
  unfold Chip.setPhase
  extract_lets +onlyGivenNames x1
  clear_value x1
  extract_lets +onlyGivenNames x2
  clear_value x2
  extract_lets +onlyGivenNames x3
  clear_value x3
  extract_lets +onlyGivenNames x4
  have h5 : Moves L b x4 := by
    unfold x4
    refine Chip.wr_moves ?_ (within_sub w (by decide +kernel))
    assumption
  clear_value x4
  extract_lets +onlyGivenNames x6
  have h7 : Moves L b x6 := by
    unfold x6
    refine Chip.setDrv_moves ?_ (within_sub w (by decide +kernel))
    assumption
  clear_value x6
  refine Chip.bankStat_moves ?_ (within_sub w (by decide +kernel))
  refine Chip.capNote_moves ?_ (within_sub w (by decide +kernel))
  assumption

theorem Chip.setSw_moves {L : List Part} {b m : Chip} {ch' : Nat} {ls' : Bool} {fw' : Bool} (h : Moves L b m)
    (w : within [.rDrv, .chans] L = true) :
    Moves L b (Chip.setSw m ch' ls' fw') := by
  unfold Chip.setSw
  extract_lets +onlyGivenNames x1
  clear_value x1
  extract_lets +onlyGivenNames x2
  clear_value x2
  extract_lets +onlyGivenNames x3
  clear_value x3
  extract_lets +onlyGivenNames x4
  clear_value x4
  extract_lets +onlyGivenNames x5
  have h6 : Moves L b x5 := by
    unfold x5
    refine Chip.wrB_moves ?_ (within_sub w (by decide +kernel))
    refine Chip.wrB_moves ?_ (within_sub w (by decide +kernel))
    assumption
  clear_value x5
  extract_lets +onlyGivenNames x7
  clear_value x7
  refine Chip.capNote_moves ?_ (within_sub w (by decide +kernel))
  refine Chip.setDrv_moves ?_ (within_sub w (by decide +kernel))
  assumption

theorem Chip.startWindow_moves {L : List Part} {b m : Chip} {ch' : Nat} {ph' : Nat} (h : Moves L b m)
    (w : within [.rDrv, .rBk, .chans] L = true) :
    Moves L b (Chip.startWindow m ch' ph') := by
  unfold Chip.startWindow
  extract_lets +onlyGivenNames x1
  have h2 : Moves L b x1 := by
    unfold x1
    refine Chip.setPhase_moves ?_ (within_sub w (by decide +kernel))
    assumption
  clear_value x1
  split
  · extract_lets +onlyGivenNames x3
    clear_value x3
    refine Moves.ite ?_ ?_
    · refine Chip.bankStat_moves ?_ (within_sub w (by decide +kernel))
      refine Chip.setSw_moves ?_ (within_sub w (by decide +kernel))
      refine Chip.setDrv_moves ?_ (within_sub w (by decide +kernel))
      assumption
    · refine Chip.bankStat_moves ?_ (within_sub w (by decide +kernel))
      refine Chip.setDrv_moves ?_ (within_sub w (by decide +kernel))
      assumption

theorem Chip.waitDone_moves {L : List Part} {b m : Chip} {ch' : Nat} (h : Moves L b m)
    (w : within [.rDrv, .chans] L = true) :
    Moves L b (Chip.waitDone m ch') := by
  unfold Chip.waitDone
  extract_lets +onlyGivenNames x1
  clear_value x1
  extract_lets +onlyGivenNames x2
  clear_value x2
  refine Chip.setDrv_moves ?_ (within_sub w (by decide +kernel))
  refine Chip.wr_moves ?_ (within_sub w (by decide +kernel))
  assumption

theorem Chip.boostDeny_moves {L : List Part} {b m : Chip} {ch' : Nat} (h : Moves L b m)
    (w : within [.rDrv, .rBk, .rInt, .asleep, .accums, .chans, .sys, .cyc] L = true) :
    Moves L b (Chip.boostDeny m ch') := by
  unfold Chip.boostDeny
  extract_lets +onlyGivenNames x1
  clear_value x1
  extract_lets +onlyGivenNames x2
  have h3 : Moves L b x2 := by
    unfold x2
    refine Chip.count_moves ?_ (within_sub w (by decide +kernel))
    refine Chip.count_moves ?_ (within_sub w (by decide +kernel))
    refine Chip.waitDone_moves ?_ (within_sub w (by decide +kernel))
    assumption
  clear_value x2
  extract_lets +onlyGivenNames x4
  have h5 : Moves L b x4 := by
    unfold x4
    refine Chip.bkFlag_moves ?_ (within_sub w (by decide +kernel))
    refine Chip.drvFlag_moves ?_ (within_sub w (by decide +kernel))
    assumption
  clear_value x4
  extract_lets +onlyGivenNames x6
  clear_value x6
  refine Chip.startWindow_moves ?_ (within_sub w (by decide +kernel))
  refine Chip.setDrv_moves ?_ (within_sub w (by decide +kernel))
  assumption

theorem Chip.boostTake_moves {L : List Part} {b m : Chip} {ch' : Nat} (h : Moves L b m)
    (w : within [.rDrv, .rBk, .rInt, .asleep, .accums, .chans, .boost, .sys, .cyc] L = true) :
    Moves L b (Chip.boostTake m ch') := by
  unfold Chip.boostTake
  extract_lets +onlyGivenNames x1
  clear_value x1
  extract_lets +onlyGivenNames x2
  clear_value x2
  extract_lets +onlyGivenNames x3
  have h4 : Moves L b x3 := by
    unfold x3
    refine Chip.waitDone_moves ?_ (within_sub w (by decide +kernel))
    assumption
  clear_value x3
  extract_lets +onlyGivenNames x5
  clear_value x5
  extract_lets +onlyGivenNames x6
  clear_value x6
  extract_lets +onlyGivenNames x7
  have h8 : Moves L b x7 := by
    unfold x7
    refine Chip.wr_moves ?_ (within_sub w (by decide +kernel))
    refine Chip.wr_moves ?_ (within_sub w (by decide +kernel))
    refine Chip.wr_moves ?_ (within_sub w (by decide +kernel))
    assumption
  clear_value x7
  extract_lets +onlyGivenNames x9
  have h10 : Moves L b x9 := by
    unfold x9
    refine Chip.wr_moves ?_ (within_sub w (by decide +kernel))
    assumption
  clear_value x9
  extract_lets +onlyGivenNames x11
  have h12 : Moves L b x11 := by
    unfold x11
    refine Chip.setPhase_moves ?_ (within_sub w (by decide +kernel))
    refine Chip.setDrv_moves ?_ (within_sub w (by decide +kernel))
    assumption
  clear_value x11
  extract_lets +onlyGivenNames x13
  clear_value x13
  extract_lets +onlyGivenNames x14
  have h15 : Moves L b x14 := by
    unfold x14
    refine Chip.setSw_moves ?_ (within_sub w (by decide +kernel))
    refine Moves.boost ?_ (within_sub w (by decide +kernel))
    assumption
  clear_value x14
  refine Moves.ite ?_ ?_
  · refine Chip.drvFlag_moves ?_ (within_sub w (by decide +kernel))
    assumption
  · assumption

theorem Chip.grantYield_moves {L : List Part} {b m : Chip} {g' : Grant} (h : Moves L b m)
    (w : within [.rDrv, .rBk, .rInt, .asleep, .accums, .chans, .sys, .cyc] L = true) :
    Moves L b (Chip.grantYield m g') := by
  unfold Chip.grantYield
  extract_lets +onlyGivenNames x1
  clear_value x1
  extract_lets +onlyGivenNames x2
  have h3 : Moves L b x2 := by
    unfold x2
    refine Chip.wr_moves ?_ (within_sub w (by decide +kernel))
    refine Chip.wr_moves ?_ (within_sub w (by decide +kernel))
    refine Chip.wr_moves ?_ (within_sub w (by decide +kernel))
    assumption
  clear_value x2
  extract_lets +onlyGivenNames x4
  have h5 : Moves L b x4 := by
    unfold x4
    refine Chip.wrB_moves ?_ (within_sub w (by decide +kernel))
    refine Chip.wrB_moves ?_ (within_sub w (by decide +kernel))
    refine Chip.setPhase_moves ?_ (within_sub w (by decide +kernel))
    assumption
  clear_value x4
  extract_lets +onlyGivenNames x6
  have h7 : Moves L b x6 := by
    unfold x6
    refine Chip.setDrv_moves ?_ (within_sub w (by decide +kernel))
    assumption
  clear_value x6
  refine Moves.ite ?_ ?_
  · refine Chip.boostDeny_moves ?_ (within_sub w (by decide +kernel))
    assumption
  · refine Chip.setPhase_moves ?_ (within_sub w (by decide +kernel))
    assumption

theorem Chip.boostFigures_moves {L : List Part} {b m : Chip} {ch' : Nat} (h : Moves L b m)
    (w : within [.rDrv, .rBst, .frees, .boost, .bcap] L = true) :
    Moves L b (Chip.boostFigures m ch') := by
  unfold Chip.boostFigures
  extract_lets +onlyGivenNames x1
  have h2 : Moves L b x1 := by
    unfold x1
    refine Chip.wr_moves ?_ (within_sub w (by decide +kernel))
    assumption
  clear_value x1
  split
  · rename_i y3 y4 y5 q6
    have h7 : Moves L b ((y4 : Int), y5).2 := by
      rw [← q6]
      refine Chip.free_moves ?_ (within_sub w (by decide +kernel))
      assumption
    split
    · rename_i y8 y9 y10 q11
      have h12 : Moves L b ((y9 : Int), y10).2 := by
        rw [← q11]
        refine Chip.free_moves ?_ (within_sub w (by decide +kernel))
        assumption
      extract_lets +onlyGivenNames x13
      have h14 : Moves L b x13 := by
        unfold x13
        refine Chip.wrI_moves ?_ (within_sub w (by decide +kernel))
        refine Chip.wrI_moves ?_ (within_sub w (by decide +kernel))
        assumption
      clear_value x13
      extract_lets +onlyGivenNames x15
      clear_value x15
      extract_lets +onlyGivenNames x16
      clear_value x16
      extract_lets +onlyGivenNames x17
      clear_value x17
      refine Moves.upd (x := x13) ?_ (by constructor <;> first | rfl | exact .inl rfl | exact .inr (within_mem w (by decide +kernel)))
      assumption

theorem Chip.boostStart_moves {L : List Part} {b m : Chip} {ch' : Nat} (h : Moves L b m)
    (w : within [.rDrv, .rBk, .rInt, .asleep, .accums, .chans, .boost, .sys, .cyc] L = true) :
    Moves L b (Chip.boostStart m ch') := by
  unfold Chip.boostStart
  refine Chip.count_moves ?_ (within_sub w (by decide +kernel))
  refine Chip.boostTake_moves ?_ (within_sub w (by decide +kernel))
  assumption

theorem Chip.decayAs_moves {L : List Part} {b m : Chip} {ch' : Nat} {fast' : Bool} (h : Moves L b m)
    (w : within [.rDrv, .rBk, .rInt, .asleep, .accums, .sys, .cyc] L = true) :
    Moves L b (Chip.decayAs m ch' fast').2 := by
  unfold Chip.decayAs
  split
  · refine Moves.pair ?_
    refine Chip.drvFlag_moves ?_ (within_sub w (by decide +kernel))
    assumption
  · split
    · refine Moves.pair ?_
      refine Chip.drvFlag_moves ?_ (within_sub w (by decide +kernel))
      assumption
    · refine Moves.pair ?_
      assumption

theorem Chip.stepTo_moves {L : List Part} {b m : Chip} {ch' : Nat} {ph' : Nat} {fastStep' : Bool} (h : Moves L b m)
    (w : within [.rDrv, .rBk, .rInt, .asleep, .accums, .chans, .sys, .cyc] L = true) :
    Moves L b (Chip.stepTo m ch' ph' fastStep') := by
  unfold Chip.stepTo
  extract_lets +onlyGivenNames x1
  have h2 : Moves L b x1 := by
    unfold x1
    refine Chip.setPhase_moves ?_ (within_sub w (by decide +kernel))
    assumption
  clear_value x1
  split
  · refine Moves.ite ?_ ?_
    · split
      · rename_i y3 y4 y5 q6
        have h7 : Moves L b ((y4 : Bool), y5).2 := by
          rw [← q6]
          refine Chip.decayAs_moves ?_ (within_sub w (by decide +kernel))
          assumption
        extract_lets +onlyGivenNames x8
        have h9 : Moves L b x8 := by
          unfold x8
          refine Chip.setSw_moves ?_ (within_sub w (by decide +kernel))
          assumption
        clear_value x8
        extract_lets +onlyGivenNames x10
        clear_value x10
        refine Chip.bankStat_moves ?_ (within_sub w (by decide +kernel))
        refine Chip.setDrv_moves ?_ (within_sub w (by decide +kernel))
        assumption
    · refine Moves.ite ?_ ?_
      · refine Chip.setSw_moves ?_ (within_sub w (by decide +kernel))
        assumption
      · assumption

theorem Chip.boostPass_moves {L : List Part} {b m : Chip} {k fuel : Nat} (h : Moves L b m) (w : within [.rDrv, .rBk, .rBst, .rInt, .frees, .asleep, .accums, .chans, .boost, .bcap, .sys, .cyc] L = true) :
    Moves L b (m.boostPass k fuel) := by
  induction fuel generalizing m with
  | zero => exact h
  | succ n ih =>
    unfold Chip.boostPass
    split
    · rename_i v _ _
      have g : Moves L b (m.boostStart v) := Chip.boostStart_moves h (within_sub w (by decide +kernel))
      refine Moves.ite (Moves.ite (ih ?_) g) ?_
      · refine Chip.stepTo_moves ?_ (within_sub w (by decide +kernel))
        exact Chip.wr_moves (Chip.boostFigures_moves g (within_sub w (by decide +kernel))) (within_sub w (by decide +kernel))
      · exact Chip.wrB_moves (Chip.wr_moves h (within_sub w (by decide +kernel))) (within_sub w (by decide +kernel))
    · exact Chip.wrB_moves (Chip.wr_moves h (within_sub w (by decide +kernel))) (within_sub w (by decide +kernel))

theorem Chip.boostEnd_moves {L : List Part} {b m : Chip} {ch' : Nat} (h : Moves L b m)
    (w : within [.rDrv, .rBk, .rBst, .rInt, .frees, .asleep, .accums, .chans, .boost, .bcap, .sys, .cyc] L = true) :
    Moves L b (Chip.boostEnd m ch') := by
  unfold Chip.boostEnd
  extract_lets +onlyGivenNames x1
  have h2 : Moves L b x1 := by
    unfold x1
    refine Chip.wr_moves ?_ (within_sub w (by decide +kernel))
    refine Chip.boostFigures_moves ?_ (within_sub w (by decide +kernel))
    assumption
  clear_value x1
  refine Chip.boostPass_moves ?_ (within_sub w (by decide +kernel))
  refine Chip.stepTo_moves ?_ (within_sub w (by decide +kernel))
  assumption

theorem Chip.boostFull_moves {L : List Part} {b m : Chip} {ch' : Nat} (h : Moves L b m)
    (w : within [.rDrv, .rBk, .rBst, .rInt, .frees, .asleep, .accums, .chans, .boost, .bcap, .sys, .cyc] L = true) :
    Moves L b (Chip.boostFull m ch') := by
  unfold Chip.boostFull
  refine Moves.ite ?_ ?_
  · refine Chip.boostEnd_moves ?_ (within_sub w (by decide +kernel))
    assumption
  · assumption

theorem Chip.boostGrant_moves {L : List Part} {b m : Chip} {ch' : Nat} (h : Moves L b m)
    (w : within [.rDrv, .rBk, .rBst, .rInt, .frees, .asleep, .accums, .chans, .boost, .bcap, .sys, .cyc] L = true) :
    Moves L b (Chip.boostGrant m ch') := by
  unfold Chip.boostGrant
  refine Chip.boostFull_moves ?_ (within_sub w (by decide +kernel))
  refine Chip.boostStart_moves ?_ (within_sub w (by decide +kernel))
  assumption

theorem Chip.grantAtOnce_moves {L : List Part} {b m : Chip} {ch' : Nat} (h : Moves L b m)
    (w : within [.rDrv, .rBk, .rBst, .rInt, .frees, .asleep, .accums, .chans, .banks, .boost, .bcap, .sys, .cyc] L = true) :
    Moves L b (Chip.grantAtOnce m ch') := by
  unfold Chip.grantAtOnce
  extract_lets +onlyGivenNames x1
  clear_value x1
  extract_lets +onlyGivenNames x2
  clear_value x2
  extract_lets +onlyGivenNames x3
  have h4 : Moves L b x3 := by
    unfold x3
    refine Chip.boostGrant_moves ?_ (within_sub w (by decide +kernel))
    assumption
  clear_value x3
  extract_lets +onlyGivenNames x5
  clear_value x5
  refine Chip.setBank_moves ?_ (within_sub w (by decide +kernel))
  assumption

theorem Chip.boostRequest_moves {L : List Part} {b m : Chip} {ch' : Nat} (h : Moves L b m)
    (w : within [.rDrv, .rBk, .rBst, .rInt, .frees, .asleep, .accums, .chans, .banks, .boost, .bcap, .sys, .cyc] L = true) :
    Moves L b (Chip.boostRequest m ch') := by
  unfold Chip.boostRequest
  extract_lets +onlyGivenNames x1
  clear_value x1
  extract_lets +onlyGivenNames x2
  clear_value x2
  extract_lets +onlyGivenNames x3
  have h4 : Moves L b x3 := by
    unfold x3
    refine Chip.setDrv_moves ?_ (within_sub w (by decide +kernel))
    assumption
  clear_value x3
  extract_lets +onlyGivenNames x5
  clear_value x5
  extract_lets +onlyGivenNames x6
  have h7 : Moves L b x6 := by
    unfold x6
    refine Moves.ite ?_ ?_
    · refine Chip.bkFlag_moves ?_ (within_sub w (by decide +kernel))
      assumption
    · assumption
  clear_value x6
  refine Moves.ite ?_ ?_
  · refine Chip.boostDeny_moves ?_ (within_sub w (by decide +kernel))
    assumption
  · split
    · extract_lets +onlyGivenNames x8
      clear_value x8
      extract_lets +onlyGivenNames x9
      have h10 : Moves L b x9 := by
        unfold x9
        refine Chip.boostTake_moves ?_ (within_sub w (by decide +kernel))
        refine Chip.grantYield_moves ?_ (within_sub w (by decide +kernel))
        assumption
      clear_value x9
      extract_lets +onlyGivenNames x11
      clear_value x11
      refine Chip.boostFull_moves ?_ (within_sub w (by decide +kernel))
      refine Chip.setBank_moves ?_ (within_sub w (by decide +kernel))
      assumption
    · refine Moves.ite ?_ ?_
      · refine Chip.grantAtOnce_moves ?_ (within_sub w (by decide +kernel))
        assumption
      · refine Moves.ite ?_ ?_
        · refine Chip.boostDeny_moves ?_ (within_sub w (by decide +kernel))
          assumption
        · refine Chip.setPhase_moves ?_ (within_sub w (by decide +kernel))
          assumption

theorem Chip.drvStart_moves {L : List Part} {b m : Chip} {ch' : Nat} {t' : Nat} (h : Moves L b m)
    (w : within [.rDrv, .rBk, .rBst, .rDg, .rDgb, .rCap, .rInt, .frees, .asleep, .accums, .chans, .banks, .boost, .bcap, .sys, .cyc] L = true) :
    Moves L b (Chip.drvStart m ch' t') := by
  unfold Chip.drvStart
  extract_lets +onlyGivenNames x1
  clear_value x1
  extract_lets +onlyGivenNames x2
  have h3 : Moves L b x2 := by
    unfold x2
    refine Chip.laneRecord_moves ?_ (within_sub w (by decide +kernel))
    refine Chip.supAbort_moves ?_ (within_sub w (by decide +kernel))
    refine Chip.nodeAbort_moves ?_ (within_sub w (by decide +kernel))
    assumption
  clear_value x2
  extract_lets +onlyGivenNames x4
  clear_value x4
  extract_lets +onlyGivenNames x5
  clear_value x5
  extract_lets +onlyGivenNames x6
  have h7 : Moves L b x6 := by
    unfold x6
    refine Chip.setDrv_moves ?_ (within_sub w (by decide +kernel))
    assumption
  clear_value x6
  extract_lets +onlyGivenNames x8
  have h9 : Moves L b x8 := by
    unfold x8
    refine Moves.ite ?_ ?_
    · refine Chip.drvFlag_moves ?_ (within_sub w (by decide +kernel))
      assumption
    · assumption
  clear_value x8
  extract_lets +onlyGivenNames x10
  have h11 : Moves L b x10 := by
    unfold x10
    refine Chip.wr_moves ?_ (within_sub w (by decide +kernel))
    assumption
  clear_value x10
  refine Moves.ite ?_ ?_
  · assumption
  · refine Moves.ite ?_ ?_
    · refine Chip.startWindow_moves ?_ (within_sub w (by decide +kernel))
      assumption
    · refine Moves.ite ?_ ?_
      · refine Chip.boostRequest_moves ?_ (within_sub w (by decide +kernel))
        assumption
      · refine Chip.startWindow_moves ?_ (within_sub w (by decide +kernel))
        assumption

theorem Chip.strokeBegin_moves {L : List Part} {b m : Chip} {ch' : Nat} {t' : Nat} (h : Moves L b m)
    (w : within [.rMap, .chans] L = true) :
    Moves L b (Chip.strokeBegin m ch' t') := by
  unfold Chip.strokeBegin
  extract_lets +onlyGivenNames x1
  clear_value x1
  extract_lets +onlyGivenNames x2
  clear_value x2
  refine Moves.ite ?_ ?_
  · assumption
  · split
    · refine Moves.ite ?_ ?_
      · assumption
      · refine Chip.wr_moves ?_ (within_sub w (by decide +kernel))
        refine Chip.setChan_moves ?_ (within_sub w (by decide +kernel))
        assumption
    · refine Chip.wr_moves ?_ (within_sub w (by decide +kernel))
      refine Chip.setChan_moves ?_ (within_sub w (by decide +kernel))
      assumption

theorem Chip.noNotch_moves {L : List Part} {b m : Chip} {ch' : Nat} (h : Moves L b m)
    (w : within [.rDg, .rDgb, .rInt, .rMap, .asleep, .accums, .chans, .sys, .cyc] L = true) :
    Moves L b (Chip.noNotch m ch') := by
  unfold Chip.noNotch
  extract_lets +onlyGivenNames x1
  clear_value x1
  extract_lets +onlyGivenNames x2
  have h3 : Moves L b x2 := by
    unfold x2
    refine Chip.count_moves ?_ (within_sub w (by decide +kernel))
    refine Chip.setDrv_moves ?_ (within_sub w (by decide +kernel))
    assumption
  clear_value x2
  extract_lets +onlyGivenNames x4
  have h5 : Moves L b x4 := by
    unfold x4
    refine Chip.dgFlag_moves ?_ (within_sub w (by decide +kernel))
    assumption
  clear_value x4
  refine Moves.ite ?_ ?_
  · refine Moves.ite ?_ ?_
    · assumption
    · refine Chip.strokeBegin_moves ?_ (within_sub w (by decide +kernel))
      assumption
  · assumption

theorem Chip.strokeOff_moves {L : List Part} {b m : Chip} {ch' : Nat} (h : Moves L b m)
    (w : within [.chans] L = true) :
    Moves L b (Chip.strokeOff m ch') := by
  unfold Chip.strokeOff
  extract_lets +onlyGivenNames x1
  clear_value x1
  split
  · assumption
  · extract_lets +onlyGivenNames x2
    clear_value x2
    refine Moves.ite ?_ ?_
    · assumption
    · refine Moves.ite ?_ ?_
      · refine Chip.setChan_moves ?_ (within_sub w (by decide +kernel))
        assumption
      · refine Chip.setChan_moves ?_ (within_sub w (by decide +kernel))
        assumption

theorem Chip.drvOffBy_moves {L : List Part} {b m : Chip} {ch : Nat} {pick : Chip → Bool × Chip} (h : Moves L b m)
    (w : within [.rDrv, .rBk, .rBst, .rDg, .rDgb, .rInt, .rMap, .frees, .asleep, .accums, .chans, .boost, .bcap, .sys, .cyc] L = true) (hf : ∀ y, Moves L b y → Moves L b (pick y).2) : Moves L b (m.drvOffBy ch pick) := by
  unfold Chip.drvOffBy
  have g : Moves L b (m.noNotch ch) := Chip.noNotch_moves h (within_sub w (by decide +kernel))
  refine Moves.ite h (Moves.ite ?_ ?_)
  · have d : Moves L b ((m.noNotch ch).waitDone ch) := Chip.waitDone_moves g (within_sub w (by decide +kernel))
    refine Chip.strokeOff_moves (Moves.ite ?_ ?_) (within_sub w (by decide +kernel))
    · exact Chip.setPhase_moves (Chip.setSw_moves (Chip.setDrv_moves d (within_sub w (by decide +kernel))) (within_sub w (by decide +kernel)))
        (within_sub w (by decide +kernel))
    · exact Chip.setPhase_moves d (within_sub w (by decide +kernel))
  · have k : Moves L b ((m.noNotch ch).strokeOff ch) := Chip.strokeOff_moves g (within_sub w (by decide +kernel))
    extract_lets x1 x2
    have hx : Moves L b x2 := Moves.ite (Chip.wr_moves (Chip.boostFigures_moves k (within_sub w (by decide +kernel))) (within_sub w (by decide +kernel))) k
    clear_value x2
    have hp := hf x2 hx
    split
    rename_i f y q
    rw [q] at hp
    have hs : Moves L b (((y.setDrv ch { y.drv ch with fast := f, step := none, offTb := some y.tb, offCode := y.iNow ch }).setPhase ch
        phDecay).setSw ch false (!f)) :=
      Chip.setSw_moves (Chip.setPhase_moves (Chip.setDrv_moves hp (within_sub w (by decide +kernel))) (within_sub w (by decide +kernel)))
        (within_sub w (by decide +kernel))
    exact Moves.ite (Chip.boostPass_moves hs (within_sub w (by decide +kernel))) hs

theorem Chip.drvOffAs_moves {L : List Part} {b m : Chip} {ch' : Nat} {fastSet' : Bool} (h : Moves L b m)
    (w : within [.rDrv, .rBk, .rBst, .rDg, .rDgb, .rInt, .rMap, .frees, .asleep, .accums, .chans, .boost, .bcap, .sys, .cyc] L = true) :
    Moves L b (Chip.drvOffAs m ch' fastSet') := by
  unfold Chip.drvOffAs
  refine Chip.drvOffBy_moves ?_ (within_sub w (by decide +kernel)) fun y1 h2 => ?_
  · assumption
  · refine Chip.decayAs_moves ?_ (within_sub w (by decide +kernel))
    assumption

theorem Chip.drvOff_moves {L : List Part} {b m : Chip} {ch' : Nat} (h : Moves L b m)
    (w : within [.rDrv, .rBk, .rBst, .rDg, .rDgb, .rInt, .rMap, .frees, .asleep, .accums, .chans, .boost, .bcap, .sys, .cyc] L = true) :
    Moves L b (Chip.drvOff m ch') := by
  unfold Chip.drvOff
  refine Chip.drvOffAs_moves ?_ (within_sub w (by decide +kernel))
  assumption

theorem Chip.strokeCut_moves {L : List Part} {b m : Chip} {ch' : Nat} (h : Moves L b m)
    (w : within [.chans] L = true) :
    Moves L b (Chip.strokeCut m ch') := by
  unfold Chip.strokeCut
  extract_lets +onlyGivenNames x1
  clear_value x1
  split
  · assumption
  · refine Moves.ite ?_ ?_
    · refine Chip.setChan_moves ?_ (within_sub w (by decide +kernel))
      assumption
    · assumption

theorem Chip.strokeTrainEnd_moves {L : List Part} {b m : Chip} {ch' : Nat} (h : Moves L b m)
    (w : within [.chans] L = true) :
    Moves L b (Chip.strokeTrainEnd m ch') := by
  unfold Chip.strokeTrainEnd
  refine Moves.ite ?_ ?_
  · refine Chip.strokeCut_moves ?_ (within_sub w (by decide +kernel))
    assumption
  · assumption

theorem Chip.trimStat_moves {L : List Part} {b m : Chip} {d' : Nat} (h : Moves L b m)
    (w : within [.rPwr, .rInt, .asleep, .accums, .sys, .cyc] L = true) :
    Moves L b (Chip.trimStat m d') := by
  unfold Chip.trimStat
  refine Moves.ite ?_ ?_
  · refine Chip.pwrFlag_moves ?_ (within_sub w (by decide +kernel))
    refine Chip.wr_moves ?_ (within_sub w (by decide +kernel))
    assumption
  · assumption

theorem Chip.bstSet_moves {L : List Part} {b m : Chip} {st' : Nat} (h : Moves L b m)
    (w : within [.rBst, .bcap] L = true) :
    Moves L b (Chip.bstSet m st') := by
  unfold Chip.bstSet
  extract_lets +onlyGivenNames x1
  clear_value x1
  extract_lets +onlyGivenNames x2
  clear_value x2
  refine Chip.wr_moves ?_ (within_sub w (by decide +kernel))
  refine Moves.bcap ?_ (within_sub w (by decide +kernel))
  assumption

theorem Chip.hsbOpen_moves {L : List Part} {b m : Chip} {b' : Nat} (h : Moves L b m)
    (w : within [.rBk] L = true) :
    Moves L b (Chip.hsbOpen m b') := by
  unfold Chip.hsbOpen
  refine Moves.ite ?_ ?_
  · refine Chip.wrB_moves ?_ (within_sub w (by decide +kernel))
    refine Chip.wr_moves ?_ (within_sub w (by decide +kernel))
    assumption
  · assumption

theorem Chip.decayForced_moves {L : List Part} {b m : Chip} {ch' : Nat} (h : Moves L b m)
    (w : within [.rDrv, .rBk, .rInt, .asleep, .accums, .sys, .cyc] L = true) :
    Moves L b (Chip.decayForced m ch').2 := by
  unfold Chip.decayForced
  refine Moves.pair ?_
  refine Moves.ite ?_ ?_
  · refine Chip.drvFlag_moves ?_ (within_sub w (by decide +kernel))
    assumption
  · assumption

end Sys2Proof.Machine
end

