-- ==== Sys2Proof/Laws/MovesCaptureOps.lean ====
section
/-! SUPPORT. Each operation of Machine/CaptureOps.lean moves the block within the parts it names. -/

-- Theorem by theorem: many at once each take a thread's stack, and the package as one text ran out of them.
set_option Elab.async false

namespace Sys2Proof.Machine

theorem Chip.laneArm_moves {L : List Part} {b m : Chip} {c' : Nat} {l' : Nat} {ch' : Nat} (h : Moves L b m)
    (w : within [.rCap, .chans, .capTb] L = true) :
    Moves L b (Chip.laneArm m c' l' ch') := by
  unfold Chip.laneArm
  extract_lets +onlyGivenNames x1
  have h2 : Moves L b x1 := by
    unfold x1
    refine Chip.wr_moves ?_ (within_sub w (by decide +kernel))
    refine Chip.wr_moves ?_ (within_sub w (by decide +kernel))
    assumption
  extract_lets +onlyGivenNames x3
  have h4 : Moves L b x3 := by
    unfold x3
    refine Moves.capTb ?_ (within_sub w (by decide +kernel))
    assumption
  extract_lets +onlyGivenNames x5
  refine Moves.ite ?_ ?_
  · refine Chip.laneRecord_moves ?_ (within_sub w (by decide +kernel))
    assumption
  · assumption

theorem Chip.laneFill_moves {L : List Part} {b m : Chip} {c' : Nat} {l' : Nat} (h : Moves L b m)
    (w : within [.rCap, .rInt, .asleep, .accums, .chans, .capReq, .capTb, .sys, .cyc] L = true) :
    Moves L b (Chip.laneFill m c' l') := by
  unfold Chip.laneFill
  refine Moves.ite ?_ ?_
  · assumption
  · split
    · refine Chip.laneArm_moves ?_ (within_sub w (by decide +kernel))
      refine Moves.capReq ?_ (within_sub w (by decide +kernel))
      assumption
    · refine Moves.ite ?_ ?_
      · assumption
      · split
        · assumption
        · extract_lets +onlyGivenNames x1
          have h2 : Moves L b x1 := by
            unfold x1
            refine Chip.laneArm_moves ?_ (within_sub w (by decide +kernel))
            refine Chip.wr_moves ?_ (within_sub w (by decide +kernel))
            assumption
          clear_value x1
          refine Moves.ite ?_ ?_
          · refine Chip.capFlag_moves ?_ (within_sub w (by decide +kernel))
            assumption
          · assumption

theorem Chip.capFill_moves {L : List Part} {b m : Chip} {c' : Nat} (h : Moves L b m)
    (w : within [.rCap, .rInt, .asleep, .accums, .chans, .capReq, .capTb, .sys, .cyc] L = true) :
    Moves L b (Chip.capFill m c') := by
  unfold Chip.capFill
  refine Moves.foldl ?_ fun y1 a2 h3 => ?_
  · assumption
  · refine Chip.laneFill_moves ?_ (within_sub w (by decide +kernel))
    assumption

theorem Chip.laneFree_moves {L : List Part} {b m : Chip} {c' : Nat} {l' : Nat} (h : Moves L b m)
    (w : within [.rCap, .rInt, .asleep, .accums, .chans, .capReq, .capTb, .sys, .cyc] L = true) :
    Moves L b (Chip.laneFree m c' l') := by
  unfold Chip.laneFree
  refine Moves.ite ?_ ?_
  · refine Chip.capFill_moves ?_ (within_sub w (by decide +kernel))
    refine Chip.laneFill_moves ?_ (within_sub w (by decide +kernel))
    refine Chip.wr_moves ?_ (within_sub w (by decide +kernel))
    assumption
  · assumption

theorem Chip.capCmd_moves {L : List Part} {b m : Chip} {c' : Nat} {req' : Option Nat} {rel' : Nat} (h : Moves L b m)
    (w : within [.rCap, .rInt, .asleep, .accums, .chans, .capReq, .capTb, .sys, .cyc] L = true) :
    Moves L b (Chip.capCmd m c' req' rel') := by
  unfold Chip.capCmd
  extract_lets +onlyGivenNames x1
  have h2 : Moves L b x1 := by
    unfold x1
    split
    · refine Moves.ite ?_ ?_
      · refine Chip.capFill_moves ?_ (within_sub w (by decide +kernel))
        refine Moves.capReq ?_ (within_sub w (by decide +kernel))
        assumption
      · assumption
    · assumption
  clear_value x1
  refine Moves.foldl ?_ fun y3 a4 h5 => ?_
  · assumption
  · refine Moves.ite ?_ ?_
    · refine Chip.laneFree_moves ?_ (within_sub w (by decide +kernel))
      assumption
    · assumption

theorem Chip.laneNotch_moves {L : List Part} {b m : Chip} {ch' : Nat} {t' : Nat} (h : Moves L b m)
    (w : within [.rCap] L = true) :
    Moves L b (Chip.laneNotch m ch' t') := by
  unfold Chip.laneNotch
  extract_lets +onlyGivenNames x1
  clear_value x1
  refine Moves.foldl ?_ fun y2 a3 h4 => ?_
  · assumption
  · extract_lets +onlyGivenNames x5
    clear_value x5
    refine Moves.ite ?_ ?_
    · refine Moves.ite ?_ ?_
      · refine Chip.wr_moves ?_ (within_sub w (by decide +kernel))
        assumption
      · assumption
    · assumption

theorem Chip.capStop_moves {L : List Part} {b m : Chip} {ch' : Nat} (h : Moves L b m)
    (w : within [.chans] L = true) :
    Moves L b (Chip.capStop m ch') := by
  unfold Chip.capStop
  extract_lets +onlyGivenNames x1
  clear_value x1
  refine Moves.ite ?_ ?_
  · assumption
  · refine Chip.setDrv_moves ?_ (within_sub w (by decide +kernel))
    assumption

theorem Chip.laneDone_moves {L : List Part} {b m : Chip} {c' : Nat} {l' : Nat} {raw' : List (BitVec 12)} (h : Moves L b m)
    (w : within [.rCap, .rInt, .mem, .asleep, .accums, .chans, .capReq, .capTb, .sys, .cyc] L = true) :
    Moves L b (Chip.laneDone m c' l' raw') := by
  unfold Chip.laneDone
  extract_lets +onlyGivenNames x1
  have h2 : Moves L b x1 := by
    unfold x1
    refine Chip.store_moves ?_ (within_sub w (by decide +kernel))
    assumption
  clear_value x1
  extract_lets +onlyGivenNames x3
  have h4 : Moves L b x3 := by
    unfold x3
    refine Chip.capStop_moves ?_ (within_sub w (by decide +kernel))
    refine Chip.wr_moves ?_ (within_sub w (by decide +kernel))
    assumption
  clear_value x3
  refine Moves.ite ?_ ?_
  · refine Chip.capFill_moves ?_ (within_sub w (by decide +kernel))
    refine Chip.capFlag_moves ?_ (within_sub w (by decide +kernel))
    assumption
  · assumption

theorem Chip.laneSkip_moves {L : List Part} {b m : Chip} {c' : Nat} {l' : Nat} (h : Moves L b m)
    (w : within [.rCap, .rInt, .asleep, .accums, .chans, .capReq, .capTb, .sys, .cyc] L = true) :
    Moves L b (Chip.laneSkip m c' l') := by
  unfold Chip.laneSkip
  refine Moves.ite ?_ ?_
  · refine Chip.capFlag_moves ?_ (within_sub w (by decide +kernel))
    refine Chip.capFill_moves ?_ (within_sub w (by decide +kernel))
    refine Chip.laneFill_moves ?_ (within_sub w (by decide +kernel))
    refine Chip.wr_moves ?_ (within_sub w (by decide +kernel))
    assumption
  · assumption

end Sys2Proof.Machine
end

