-- ==== Sys2Proof/Laws/MovesEventOps.lean ====
section
/-! SUPPORT. Each operation of Machine/EventOps.lean moves the block within the parts it names. -/

-- Theorem by theorem: many at once each take a thread's stack, and the package as one text ran out of them.
set_option Elab.async false

namespace Sys2Proof.Machine

theorem Chip.unload_moves {L : List Part} {b m : Chip} {ch' : Nat} {h' : Head} (h : Moves L b m)
    (w : within [.rCh, .rInt, .asleep, .accums, .chans, .sys, .cyc] L = true) :
    Moves L b (Chip.unload m ch' h') := by
  unfold Chip.unload
  extract_lets +onlyGivenNames x1
  clear_value x1
  extract_lets +onlyGivenNames x2
  have h3 : Moves L b x2 := by
    unfold x2
    refine Chip.setChan_moves ?_ (within_sub w (by decide +kernel))
    assumption
  clear_value x2
  refine Moves.ite ?_ ?_
  · refine Chip.chFlag_moves ?_ (within_sub w (by decide +kernel))
    assumption
  · assumption

theorem Chip.freeSlot_moves {L : List Part} {b m : Chip} {i' : Nat} (h : Moves L b m)
    (w : within [.pool, .poolLast, .chans] L = true) :
    Moves L b (Chip.freeSlot m i') := by
  unfold Chip.freeSlot
  split
  · assumption
  · extract_lets +onlyGivenNames x1
    clear_value x1
    refine Chip.setChan_moves ?_ (within_sub w (by decide +kernel))
    refine Moves.upd (x := m) ?_ (by constructor <;> first | rfl | exact .inl rfl | exact .inr (within_mem w (by decide +kernel)))
    assumption

theorem Chip.jpush_moves {L : List Part} {b m : Chip} {w' : JWord} (h : Moves L b m)
    (w : within [.jour] L = true) :
    Moves L b (Chip.jpush m w') := by
  unfold Chip.jpush
  extract_lets +onlyGivenNames x1
  unfold x1
  clear_value x1
  refine Moves.upd (x := m) ?_ (by constructor <;> first | rfl | exact .inl rfl | exact .inr (within_mem w (by decide +kernel)))
  assumption

theorem Chip.lastPut_moves {L : List Part} {b m : Chip} {ch' : Nat} {lat' : Int} {tb' : Nat} (h : Moves L b m)
    (w : within [.chans] L = true) :
    Moves L b (Chip.lastPut m ch' lat' tb') := by
  unfold Chip.lastPut
  extract_lets +onlyGivenNames x1
  clear_value x1
  extract_lets +onlyGivenNames x2
  clear_value x2
  refine Chip.setChan_moves ?_ (within_sub w (by decide +kernel))
  assumption

theorem Chip.outcomeFlag_moves {L : List Part} {b m : Chip} {ch' : Nat} {out' : Nat} (h : Moves L b m)
    (w : within [.rCh, .rInt, .asleep, .accums, .sys, .cyc] L = true) :
    Moves L b (Chip.outcomeFlag m ch' out') := by
  unfold Chip.outcomeFlag
  refine Moves.ite ?_ ?_
  · refine Chip.chFlag_moves ?_ (within_sub w (by decide +kernel))
    refine Chip.count_moves ?_ (within_sub w (by decide +kernel))
    assumption
  · refine Moves.ite ?_ ?_
    · refine Chip.chFlag_moves ?_ (within_sub w (by decide +kernel))
      refine Chip.count_moves ?_ (within_sub w (by decide +kernel))
      assumption
    · refine Moves.ite ?_ ?_
      · refine Chip.chFlag_moves ?_ (within_sub w (by decide +kernel))
        refine Chip.count_moves ?_ (within_sub w (by decide +kernel))
        assumption
      · refine Moves.ite ?_ ?_
        · refine Chip.chFlag_moves ?_ (within_sub w (by decide +kernel))
          assumption
        · refine Moves.ite ?_ ?_
          · refine Chip.chFlag_moves ?_ (within_sub w (by decide +kernel))
            refine Chip.count_moves ?_ (within_sub w (by decide +kernel))
            assumption
          · assumption

theorem Chip.resolve_moves {L : List Part} {b m : Chip} {i' : Nat} {e' : Ev} {out' : Nat} {cause' : Nat} {lat' : Int} {tb' : Nat} {htb' : Nat} {stand' : Bool} (h : Moves L b m)
    (w : within [.rCh, .rInt, .asleep, .accums, .chans, .jour, .sys, .cyc] L = true) :
    Moves L b (Chip.resolve m i' e' out' cause' lat' tb' htb' stand') := by
  unfold Chip.resolve
  extract_lets +onlyGivenNames x1
  clear_value x1
  extract_lets +onlyGivenNames x2
  have h3 : Moves L b x2 := by
    unfold x2
    split
    · refine Chip.jpush_moves ?_ (within_sub w (by decide +kernel))
      assumption
    · assumption
  clear_value x2
  extract_lets +onlyGivenNames x4
  have h5 : Moves L b x4 := by
    unfold x4
    refine Chip.lastPut_moves ?_ (within_sub w (by decide +kernel))
    assumption
  clear_value x4
  extract_lets +onlyGivenNames x6
  have h7 : Moves L b x6 := by
    unfold x6
    refine Chip.wr_moves ?_ (within_sub w (by decide +kernel))
    refine Chip.wr_moves ?_ (within_sub w (by decide +kernel))
    assumption
  clear_value x6
  extract_lets +onlyGivenNames x8
  have h9 : Moves L b x8 := by
    unfold x8
    refine Chip.wrB_moves ?_ (within_sub w (by decide +kernel))
    refine Chip.wr_moves ?_ (within_sub w (by decide +kernel))
    refine Chip.wr_moves ?_ (within_sub w (by decide +kernel))
    assumption
  clear_value x8
  refine Moves.ite ?_ ?_
  · assumption
  · refine Chip.outcomeFlag_moves ?_ (within_sub w (by decide +kernel))
    assumption

theorem Chip.finish_moves {L : List Part} {b m : Chip} {i' : Nat} {e' : Ev} {out' : Nat} {cause' : Nat} (h : Moves L b m)
    (w : within [.rCh, .rInt, .asleep, .accums, .pool, .poolLast, .chans, .jour, .sys, .cyc] L = true) :
    Moves L b (Chip.finish m i' e' out' cause') := by
  unfold Chip.finish
  extract_lets +onlyGivenNames x1
  clear_value x1
  refine Chip.freeSlot_moves ?_ (within_sub w (by decide +kernel))
  refine Chip.resolve_moves ?_ (within_sub w (by decide +kernel))
  assumption

theorem Chip.outApply_moves {L : List Part} {b m : Chip} {ch' : Nat} {t' : Nat} (h : Moves L b m)
    (w : within [.rCh, .rDrv, .rBk, .rBst, .rDg, .rDgb, .rCap, .rInt, .rMap, .frees, .asleep, .accums, .chans, .banks, .boost, .bcap, .sys, .cyc] L = true) :
    Moves L b (Chip.outApply m ch' t') := by
  unfold Chip.outApply
  extract_lets +onlyGivenNames x1
  clear_value x1
  extract_lets +onlyGivenNames x2
  clear_value x2
  extract_lets +onlyGivenNames x3
  have h4 : Moves L b x3 := by
    unfold x3
    refine Chip.wrB_moves ?_ (within_sub w (by decide +kernel))
    assumption
  clear_value x3
  refine Moves.ite ?_ ?_
  · refine Chip.drvStart_moves ?_ (within_sub w (by decide +kernel))
    assumption
  · refine Moves.ite ?_ ?_
    · refine Chip.drvOff_moves ?_ (within_sub w (by decide +kernel))
      assumption
    · assumption

theorem Chip.ownSet_moves {L : List Part} {b m : Chip} {ch' : Nat} {on' : Bool} {t' : Nat} (h : Moves L b m)
    (w : within [.rCh, .rDrv, .rBk, .rBst, .rDg, .rDgb, .rCap, .rInt, .rMap, .frees, .asleep, .accums, .chans, .banks, .boost, .bcap, .sys, .cyc] L = true) :
    Moves L b (Chip.ownSet m ch' on' t') := by
  unfold Chip.ownSet
  refine Chip.outApply_moves ?_ (within_sub w (by decide +kernel))
  refine Chip.wrB_moves ?_ (within_sub w (by decide +kernel))
  assumption

theorem Chip.trainStop_moves {L : List Part} {b m : Chip} {ch' : Nat} {cut' : Bool} (h : Moves L b m)
    (w : within [.rCh, .rTr, .rDrv, .rBk, .rBst, .rDg, .rDgb, .rCap, .rInt, .rMap, .frees, .asleep, .accums, .pool, .poolLast, .chans, .banks, .boost, .bcap, .sys, .cyc] L = true) :
    Moves L b (Chip.trainStop m ch' cut') := by
  unfold Chip.trainStop
  extract_lets +onlyGivenNames x1
  clear_value x1
  extract_lets +onlyGivenNames x2
  have h3 : Moves L b x2 := by
    unfold x2
    refine Moves.ite ?_ ?_
    · refine Chip.ownSet_moves ?_ (within_sub w (by decide +kernel))
      refine Chip.setChan_moves ?_ (within_sub w (by decide +kernel))
      assumption
    · assumption
  clear_value x2
  split
  · assumption
  · extract_lets +onlyGivenNames x4
    have h5 : Moves L b x4 := by
      unfold x4
      refine Chip.strokeTrainEnd_moves ?_ (within_sub w (by decide +kernel))
      assumption
    clear_value x4
    extract_lets +onlyGivenNames x6
    clear_value x6
    extract_lets +onlyGivenNames x7
    have h8 : Moves L b x7 := by
      unfold x7
      refine Chip.setChan_moves ?_ (within_sub w (by decide +kernel))
      assumption
    clear_value x7
    extract_lets +onlyGivenNames x9
    have h10 : Moves L b x9 := by
      unfold x9
      refine Chip.wr_moves ?_ (within_sub w (by decide +kernel))
      refine Chip.wr_moves ?_ (within_sub w (by decide +kernel))
      refine Chip.wr_moves ?_ (within_sub w (by decide +kernel))
      assumption
    clear_value x9
    refine Chip.freeSlot_moves ?_ (within_sub w (by decide +kernel))
    refine Chip.setFlag_moves ?_ (within_sub w (by decide +kernel))
    assumption

theorem Chip.setEv_moves {L : List Part} {b m : Chip} {i' : Nat} {e' : Ev} (h : Moves L b m)
    (w : within [.pool] L = true) :
    Moves L b (Chip.setEv m i' e') := by
  unfold Chip.setEv
  refine Moves.pool ?_ (within_sub w (by decide +kernel))
  assumption

theorem Chip.ownOn_moves {L : List Part} {b m : Chip} {ch' : Nat} {t' : Nat} (h : Moves L b m)
    (w : within [.rCh, .rDrv, .rBk, .rBst, .rDg, .rDgb, .rCap, .rInt, .rMap, .frees, .asleep, .accums, .chans, .banks, .boost, .bcap, .sys, .cyc] L = true) :
    Moves L b (Chip.ownOn m ch' t') := by
  unfold Chip.ownOn
  extract_lets +onlyGivenNames x1
  have h2 : Moves L b x1 := by
    unfold x1
    refine Moves.ite ?_ ?_
    · assumption
    · refine Chip.count_moves ?_ (within_sub w (by decide +kernel))
      assumption
  clear_value x1
  refine Chip.ownSet_moves ?_ (within_sub w (by decide +kernel))
  assumption

theorem Chip.trainPulse_moves {L : List Part} {b m : Chip} {ch' : Nat} {t' : Nat} {first' : Bool} (h : Moves L b m)
    (w : within [.rCh, .rTr, .rDrv, .rBk, .rBst, .rDg, .rDgb, .rCap, .rInt, .rMap, .frees, .asleep, .accums, .chans, .banks, .boost, .bcap, .sys, .cyc] L = true) :
    Moves L b (Chip.trainPulse m ch' t' first') := by
  unfold Chip.trainPulse
  split
  · assumption
  · extract_lets +onlyGivenNames x1
    clear_value x1
    extract_lets +onlyGivenNames x2
    have h3 : Moves L b x2 := by
      unfold x2
      refine Moves.ite ?_ ?_
      · refine Chip.strokeCut_moves ?_ (within_sub w (by decide +kernel))
        assumption
      · assumption
    clear_value x2
    extract_lets +onlyGivenNames x4
    clear_value x4
    extract_lets +onlyGivenNames x5
    clear_value x5
    extract_lets +onlyGivenNames x6
    have h7 : Moves L b x6 := by
      unfold x6
      refine Chip.setChan_moves ?_ (within_sub w (by decide +kernel))
      assumption
    clear_value x6
    extract_lets +onlyGivenNames x8
    have h9 : Moves L b x8 := by
      unfold x8
      refine Moves.ite ?_ ?_
      · assumption
      · refine Chip.wr_moves ?_ (within_sub w (by decide +kernel))
        assumption
    clear_value x8
    refine Chip.ownOn_moves ?_ (within_sub w (by decide +kernel))
    refine Chip.wr_moves ?_ (within_sub w (by decide +kernel))
    assumption

theorem Chip.trainStart_moves {L : List Part} {b m : Chip} {i' : Nat} {e' : Ev} {t' : Nat} (h : Moves L b m)
    (w : within [.rCh, .rTr, .rDrv, .rBk, .rBst, .rDg, .rDgb, .rCap, .rInt, .rMap, .frees, .asleep, .accums, .pool, .chans, .banks, .boost, .bcap, .sys, .cyc] L = true) :
    Moves L b (Chip.trainStart m i' e' t') := by
  unfold Chip.trainStart
  extract_lets +onlyGivenNames x1
  clear_value x1
  extract_lets +onlyGivenNames x2
  clear_value x2
  extract_lets +onlyGivenNames x3
  clear_value x3
  extract_lets +onlyGivenNames x4
  have h5 : Moves L b x4 := by
    unfold x4
    refine Chip.setChan_moves ?_ (within_sub w (by decide +kernel))
    assumption
  clear_value x4
  extract_lets +onlyGivenNames x6
  have h7 : Moves L b x6 := by
    unfold x6
    refine Chip.wr_moves ?_ (within_sub w (by decide +kernel))
    refine Chip.wr_moves ?_ (within_sub w (by decide +kernel))
    refine Chip.wr_moves ?_ (within_sub w (by decide +kernel))
    assumption
  clear_value x6
  extract_lets +onlyGivenNames x8
  have h9 : Moves L b x8 := by
    unfold x8
    refine Chip.wr_moves ?_ (within_sub w (by decide +kernel))
    refine Chip.wr_moves ?_ (within_sub w (by decide +kernel))
    assumption
  clear_value x8
  extract_lets +onlyGivenNames x10
  have h11 : Moves L b x10 := by
    unfold x10
    refine Chip.setEv_moves ?_ (within_sub w (by decide +kernel))
    assumption
  clear_value x10
  refine Moves.ite ?_ ?_
  · refine Chip.trainPulse_moves ?_ (within_sub w (by decide +kernel))
    assumption
  · assumption

theorem Chip.inhPut_moves {L : List Part} {b m : Chip} {ch' : Nat} {o' : Nat} {v' : Bool} (h : Moves L b m)
    (w : within [.rCh] L = true) :
    Moves L b (Chip.inhPut m ch' o' v') := by
  unfold Chip.inhPut
  refine Moves.ite ?_ ?_
  · refine Chip.wrB_moves ?_ (within_sub w (by decide +kernel))
    assumption
  · refine Chip.wr_moves ?_ (within_sub w (by decide +kernel))
    assumption

theorem Chip.inhClear_moves {L : List Part} {b m : Chip} {ch' : Nat} {o' : Nat} (h : Moves L b m)
    (w : within [.rCh, .rInt, .asleep, .accums, .sys, .cyc] L = true) :
    Moves L b (Chip.inhClear m ch' o') := by
  unfold Chip.inhClear
  refine Moves.ite ?_ ?_
  · refine Chip.chFlag_moves ?_ (within_sub w (by decide +kernel))
    refine Chip.inhPut_moves ?_ (within_sub w (by decide +kernel))
    assumption
  · assumption

theorem Chip.pulseResolve_moves {L : List Part} {b m : Chip} {ch' : Nat} {i' : Nat} {out' : Nat} {cause' : Nat} {htb' : Nat} (h : Moves L b m)
    (w : within [.rCh, .rInt, .asleep, .accums, .pool, .poolLast, .chans, .jour, .sys, .cyc] L = true) :
    Moves L b (Chip.pulseResolve m ch' i' out' cause' htb') := by
  unfold Chip.pulseResolve
  split
  · assumption
  · extract_lets +onlyGivenNames x1
    clear_value x1
    extract_lets +onlyGivenNames x2
    have h3 : Moves L b x2 := by
      unfold x2
      refine Chip.setChan_moves ?_ (within_sub w (by decide +kernel))
      assumption
    clear_value x2
    refine Chip.freeSlot_moves ?_ (within_sub w (by decide +kernel))
    refine Chip.resolve_moves ?_ (within_sub w (by decide +kernel))
    assumption

theorem Chip.inhSet_moves {L : List Part} {b m : Chip} {ch' : Nat} {o' : Nat} (h : Moves L b m)
    (w : within [.rCh, .rTr, .rDrv, .rBk, .rBst, .rDg, .rDgb, .rCap, .rInt, .rMap, .frees, .asleep, .accums, .pool, .poolLast, .chans, .banks, .boost, .bcap, .jour, .sys, .cyc] L = true) :
    Moves L b (Chip.inhSet m ch' o') := by
  unfold Chip.inhSet
  extract_lets +onlyGivenNames x1
  have h2 : Moves L b x1 := by
    unfold x1
    refine Moves.ite ?_ ?_
    · assumption
    · refine Chip.chFlag_moves ?_ (within_sub w (by decide +kernel))
      refine Chip.inhPut_moves ?_ (within_sub w (by decide +kernel))
      assumption
  clear_value x1
  extract_lets +onlyGivenNames x3
  have h4 : Moves L b x3 := by
    unfold x3
    refine Moves.foldl ?_ fun y5 a6 h7 => ?_
    · assumption
    · split
      · assumption
      · extract_lets +onlyGivenNames x8
        have h9 : Moves L b x8 := by
          unfold x8
          refine Chip.pulseResolve_moves ?_ (within_sub w (by decide +kernel))
          assumption
        clear_value x8
        refine Moves.ite ?_ ?_
        · refine Moves.ite ?_ ?_
          · assumption
          · refine Chip.ownSet_moves ?_ (within_sub w (by decide +kernel))
            assumption
        · assumption
  clear_value x3
  split
  · refine Moves.ite ?_ ?_
    · refine Chip.trainStop_moves ?_ (within_sub w (by decide +kernel))
      assumption
    · assumption
  · refine Moves.ite ?_ ?_
    · refine Chip.trainStop_moves ?_ (within_sub w (by decide +kernel))
      assumption
    · assumption

theorem Chip.pulseOwn_moves {L : List Part} {b m : Chip} {ch' : Nat} {i' : Nat} (h : Moves L b m)
    (w : within [.rCh, .rInt, .asleep, .accums, .pool, .poolLast, .chans, .jour, .sys, .cyc] L = true) :
    Moves L b (Chip.pulseOwn m ch' i') := by
  unfold Chip.pulseOwn
  split
  · assumption
  · refine Chip.pulseResolve_moves ?_ (within_sub w (by decide +kernel))
    assumption

theorem Chip.act_moves {L : List Part} {b m : Chip} {ch' : Nat} {owner' : Nat} {kind' : Nat} {t' : Nat} (h : Moves L b m)
    (w : within [.rCh, .rTr, .rDrv, .rBk, .rBst, .rDg, .rDgb, .rCap, .rInt, .rMap, .frees, .asleep, .accums, .pool, .poolLast, .chans, .banks, .boost, .bcap, .jour, .sys, .cyc] L = true) :
    Moves L b (Chip.act m ch' owner' kind' t') := by
  unfold Chip.act
  extract_lets +onlyGivenNames x1
  have h2 : Moves L b x1 := by
    unfold x1
    refine Chip.trainStop_moves ?_ (within_sub w (by decide +kernel))
    assumption
  clear_value x1
  extract_lets +onlyGivenNames x3
  clear_value x3
  extract_lets +onlyGivenNames x4
  have h5 : Moves L b x4 := by
    unfold x4
    refine Chip.setChan_moves ?_ (within_sub w (by decide +kernel))
    assumption
  clear_value x4
  extract_lets +onlyGivenNames x6
  have h7 : Moves L b x6 := by
    unfold x6
    refine Chip.ownSet_moves ?_ (within_sub w (by decide +kernel))
    refine Chip.trainStop_moves ?_ (within_sub w (by decide +kernel))
    assumption
  clear_value x6
  refine Moves.ite ?_ ?_
  · refine Chip.ownOn_moves ?_ (within_sub w (by decide +kernel))
    assumption
  · refine Moves.ite ?_ ?_
    · refine Moves.ite ?_ ?_
      · refine Chip.inhSet_moves ?_ (within_sub w (by decide +kernel))
        assumption
      · refine Moves.foldl ?_ fun y8 a9 h10 => ?_
        · assumption
        · refine Moves.ite ?_ ?_
          · assumption
          · refine Chip.pulseOwn_moves ?_ (within_sub w (by decide +kernel))
            assumption
    · assumption

theorem Chip.evActs_moves {L : List Part} {b m : Chip} {i' : Nat} {e' : Ev} {lat' : Int} {cause' : Nat} {t' : Nat} (h : Moves L b m)
    (w : within [.rCh, .rTr, .rDrv, .rBk, .rBst, .rDg, .rDgb, .rCap, .rInt, .rMap, .frees, .asleep, .accums, .pool, .poolLast, .chans, .banks, .boost, .bcap, .jour, .sys, .cyc] L = true) :
    Moves L b (Chip.evActs m i' e' lat' cause' t') := by
  unfold Chip.evActs
  extract_lets +onlyGivenNames x1
  clear_value x1
  extract_lets +onlyGivenNames x2
  clear_value x2
  extract_lets +onlyGivenNames x3
  clear_value x3
  extract_lets +onlyGivenNames x4
  have h5 : Moves L b x4 := by
    unfold x4
    split
    · refine Chip.jpush_moves ?_ (within_sub w (by decide +kernel))
      assumption
    · assumption
  clear_value x4
  extract_lets +onlyGivenNames x6
  have h7 : Moves L b x6 := by
    unfold x6
    refine Chip.trainStop_moves ?_ (within_sub w (by decide +kernel))
    assumption
  clear_value x6
  extract_lets +onlyGivenNames x8
  clear_value x8
  extract_lets +onlyGivenNames x9
  have h10 : Moves L b x9 := by
    unfold x9
    refine Chip.setChan_moves ?_ (within_sub w (by decide +kernel))
    assumption
  clear_value x9
  extract_lets +onlyGivenNames x11
  have h12 : Moves L b x11 := by
    unfold x11
    refine Chip.setEv_moves ?_ (within_sub w (by decide +kernel))
    assumption
  clear_value x11
  extract_lets +onlyGivenNames x13
  have h14 : Moves L b x13 := by
    unfold x13
    refine Chip.setChan_moves ?_ (within_sub w (by decide +kernel))
    assumption
  clear_value x13
  extract_lets +onlyGivenNames x15
  have h16 : Moves L b x15 := by
    unfold x15
    refine Chip.resolve_moves ?_ (within_sub w (by decide +kernel))
    assumption
  clear_value x15
  extract_lets +onlyGivenNames x17
  have h18 : Moves L b x17 := by
    unfold x17
    refine Moves.ite ?_ ?_
    · refine Chip.setEv_moves ?_ (within_sub w (by decide +kernel))
      assumption
    · refine Chip.freeSlot_moves ?_ (within_sub w (by decide +kernel))
      assumption
  clear_value x17
  refine Moves.ite ?_ ?_
  · refine Chip.ownOn_moves ?_ (within_sub w (by decide +kernel))
    assumption
  · refine Moves.ite ?_ ?_
    · refine Chip.trainStart_moves ?_ (within_sub w (by decide +kernel))
      refine Chip.resolve_moves ?_ (within_sub w (by decide +kernel))
      assumption
    · refine Moves.ite ?_ ?_
      · refine Chip.inhClear_moves ?_ (within_sub w (by decide +kernel))
        assumption
      · refine Chip.act_moves ?_ (within_sub w (by decide +kernel))
        assumption

theorem Chip.evFire_moves {L : List Part} {b m : Chip} {i' : Nat} {e' : Ev} {lat' : Int} {cause' : Nat} {t' : Nat} (h : Moves L b m)
    (w : within [.rCh, .rTr, .rDrv, .rBk, .rBst, .rDg, .rDgb, .rCap, .rInt, .rMap, .frees, .asleep, .accums, .pool, .poolLast, .chans, .banks, .boost, .bcap, .jour, .sys, .cyc] L = true) :
    Moves L b (Chip.evFire m i' e' lat' cause' t') := by
  unfold Chip.evFire
  split
  · refine Chip.finish_moves ?_ (within_sub w (by decide +kernel))
    assumption
  · refine Chip.evActs_moves ?_ (within_sub w (by decide +kernel))
    assumption

theorem Chip.standStep_moves {L : List Part} {b m : Chip} {i' : Nat} {e' : Ev} (h : Moves L b m)
    (w : within [.pool] L = true) :
    Moves L b (Chip.standStep m i' e') := by
  unfold Chip.standStep
  refine Chip.setEv_moves ?_ (within_sub w (by decide +kernel))
  assumption

theorem Chip.refire_moves {L : List Part} {b m : Chip} {i' : Nat} {e' : Ev} {lat' : Int} {t' : Nat} (h : Moves L b m)
    (w : within [.rCh, .rTr, .rDrv, .rBk, .rBst, .rDg, .rDgb, .rCap, .rInt, .rMap, .frees, .asleep, .accums, .pool, .poolLast, .chans, .banks, .boost, .bcap, .jour, .sys, .cyc] L = true) :
    Moves L b (Chip.refire m i' e' lat' t') := by
  unfold Chip.refire
  extract_lets +onlyGivenNames x1
  clear_value x1
  extract_lets +onlyGivenNames x2
  have h3 : Moves L b x2 := by
    unfold x2
    refine Chip.standStep_moves ?_ (within_sub w (by decide +kernel))
    assumption
  clear_value x2
  refine Moves.ite ?_ ?_
  · assumption
  · refine Chip.act_moves ?_ (within_sub w (by decide +kernel))
    refine Chip.chFlag_moves ?_ (within_sub w (by decide +kernel))
    assumption

theorem Chip.headFire_moves {L : List Part} {b m : Chip} {ch' : Nat} {h' : Head} (h : Moves L b m)
    (w : within [.rCh, .rTr, .rDrv, .rBk, .rBst, .rDg, .rDgb, .rCap, .rInt, .rMap, .frees, .asleep, .accums, .pool, .poolLast, .chans, .banks, .boost, .bcap, .jour, .sys, .cyc] L = true) :
    Moves L b (Chip.headFire m ch' h') := by
  unfold Chip.headFire
  extract_lets +onlyGivenNames x1
  have h2 : Moves L b x1 := by
    unfold x1
    refine Chip.unload_moves ?_ (within_sub w (by decide +kernel))
    assumption
  clear_value x1
  split
  · assumption
  · refine Moves.ite ?_ ?_
    · refine Chip.evFire_moves ?_ (within_sub w (by decide +kernel))
      assumption
    · refine Chip.refire_moves ?_ (within_sub w (by decide +kernel))
      assumption

theorem Chip.trainSkip_moves {L : List Part} {b m : Chip} {ch' : Nat} {t' : Train} (h : Moves L b m)
    (w : within [.rTr, .chans, .cyc] L = true) :
    Moves L b (Chip.trainSkip m ch' t') := by
  unfold Chip.trainSkip
  extract_lets +onlyGivenNames x1
  clear_value x1
  extract_lets +onlyGivenNames x2
  have h3 : Moves L b x2 := by
    unfold x2
    refine Chip.setChan_moves ?_ (within_sub w (by decide +kernel))
    assumption
  clear_value x2
  refine Chip.setFlag_moves ?_ (within_sub w (by decide +kernel))
  refine Chip.count_moves ?_ (within_sub w (by decide +kernel))
  assumption

theorem Chip.trainWidth_moves {L : List Part} {b m : Chip} {ch' : Nat} {t' : Train} (h : Moves L b m)
    (w : within [.rTr, .chans] L = true) :
    Moves L b (Chip.trainWidth m ch' t') := by
  unfold Chip.trainWidth
  split
  · assumption
  · extract_lets +onlyGivenNames x1
    clear_value x1
    refine Moves.ite ?_ ?_
    · refine Chip.wr_moves ?_ (within_sub w (by decide +kernel))
      refine Chip.setChan_moves ?_ (within_sub w (by decide +kernel))
      assumption
    · assumption

theorem Chip.capFire_moves {L : List Part} {b m : Chip} {ch' : Nat} {t' : Train} {h' : Head} (h : Moves L b m)
    (w : within [.rCh, .rTr, .rDrv, .rBk, .rBst, .rDg, .rDgb, .rCap, .rInt, .rMap, .frees, .asleep, .accums, .chans, .banks, .boost, .bcap, .sys, .cyc] L = true) :
    Moves L b (Chip.capFire m ch' t' h') := by
  unfold Chip.capFire
  extract_lets +onlyGivenNames x1
  clear_value x1
  extract_lets +onlyGivenNames x2
  clear_value x2
  extract_lets +onlyGivenNames x3
  clear_value x3
  extract_lets +onlyGivenNames x4
  clear_value x4
  extract_lets +onlyGivenNames x5
  clear_value x5
  extract_lets +onlyGivenNames x6
  have h7 : Moves L b x6 := by
    unfold x6
    refine Chip.unload_moves ?_ (within_sub w (by decide +kernel))
    assumption
  clear_value x6
  extract_lets +onlyGivenNames x8
  clear_value x8
  extract_lets +onlyGivenNames x9
  have h10 : Moves L b x9 := by
    unfold x9
    refine Moves.ite ?_ ?_
    · refine Chip.count_moves ?_ (within_sub w (by decide +kernel))
      assumption
    · refine Chip.count_moves ?_ (within_sub w (by decide +kernel))
      assumption
  clear_value x9
  extract_lets +onlyGivenNames x11
  clear_value x11
  extract_lets +onlyGivenNames x12
  clear_value x12
  extract_lets +onlyGivenNames x13
  have h14 : Moves L b x13 := by
    unfold x13
    refine Chip.setChan_moves ?_ (within_sub w (by decide +kernel))
    assumption
  clear_value x13
  extract_lets +onlyGivenNames x15
  have h16 : Moves L b x15 := by
    unfold x15
    refine Chip.trainPulse_moves ?_ (within_sub w (by decide +kernel))
    refine Chip.trainWidth_moves ?_ (within_sub w (by decide +kernel))
    assumption
  clear_value x15
  refine Moves.ite ?_ ?_
  · refine Chip.trainSkip_moves ?_ (within_sub w (by decide +kernel))
    assumption
  · refine Moves.ite ?_ ?_
    · assumption
    · refine Chip.setFlag_moves ?_ (within_sub w (by decide +kernel))
      refine Chip.wr_moves ?_ (within_sub w (by decide +kernel))
      assumption

theorem Chip.trainTooLate_moves {L : List Part} {b m : Chip} {ch' : Nat} {t' : Train} (h : Moves L b m)
    (w : within [.rTr, .rMap, .chans, .cyc] L = true) :
    Moves L b (Chip.trainTooLate m ch' t') := by
  unfold Chip.trainTooLate
  extract_lets +onlyGivenNames x1
  clear_value x1
  refine Moves.ite ?_ ?_
  · refine Chip.trainSkip_moves ?_ (within_sub w (by decide +kernel))
    assumption
  · refine Chip.count_moves ?_ (within_sub w (by decide +kernel))
    refine Chip.setChan_moves ?_ (within_sub w (by decide +kernel))
    assumption

theorem Chip.pointFire_moves {L : List Part} {b m : Chip} {ch' : Nat} {t' : Train} {h' : Head} (h : Moves L b m)
    (w : within [.rCh, .rTr, .rDrv, .rBk, .rBst, .rDg, .rDgb, .rCap, .rInt, .rMap, .frees, .asleep, .accums, .chans, .banks, .boost, .bcap, .sys, .cyc] L = true) :
    Moves L b (Chip.pointFire m ch' t' h') := by
  unfold Chip.pointFire
  extract_lets +onlyGivenNames x1
  have h2 : Moves L b x1 := by
    unfold x1
    refine Chip.unload_moves ?_ (within_sub w (by decide +kernel))
    assumption
  clear_value x1
  refine Moves.ite ?_ ?_
  · refine Chip.trainSkip_moves ?_ (within_sub w (by decide +kernel))
    assumption
  · refine Moves.ite ?_ ?_
    · refine Chip.trainTooLate_moves ?_ (within_sub w (by decide +kernel))
      assumption
    · refine Chip.trainPulse_moves ?_ (within_sub w (by decide +kernel))
      refine Chip.wr_moves ?_ (within_sub w (by decide +kernel))
      refine Chip.trainWidth_moves ?_ (within_sub w (by decide +kernel))
      assumption

theorem Chip.dueFire_moves {L : List Part} {b m : Chip} {ch' : Nat} {h' : Head} (h : Moves L b m)
    (w : within [.rCh, .rTr, .rDrv, .rBk, .rBst, .rDg, .rDgb, .rCap, .rInt, .rMap, .frees, .asleep, .accums, .pool, .poolLast, .chans, .banks, .boost, .bcap, .jour, .sys, .cyc] L = true) :
    Moves L b (Chip.dueFire m ch' h') := by
  unfold Chip.dueFire
  refine Moves.ite ?_ ?_
  · refine Chip.headFire_moves ?_ (within_sub w (by decide +kernel))
    assumption
  · split
    · refine Chip.unload_moves ?_ (within_sub w (by decide +kernel))
      assumption
    · refine Moves.ite ?_ ?_
      · refine Chip.capFire_moves ?_ (within_sub w (by decide +kernel))
        assumption
      · refine Chip.pointFire_moves ?_ (within_sub w (by decide +kernel))
        assumption

theorem Chip.pulseEnd_moves {L : List Part} {b m : Chip} {ch' : Nat} {p' : Pulse} (h : Moves L b m)
    (w : within [.rCh, .rDrv, .rBk, .rBst, .rDg, .rDgb, .rCap, .rInt, .rMap, .frees, .asleep, .accums, .pool, .poolLast, .chans, .banks, .boost, .bcap, .jour, .sys, .cyc] L = true) :
    Moves L b (Chip.pulseEnd m ch' p') := by
  unfold Chip.pulseEnd
  extract_lets +onlyGivenNames x1
  have h2 : Moves L b x1 := by
    unfold x1
    refine Chip.pulseOwn_moves ?_ (within_sub w (by decide +kernel))
    assumption
  clear_value x1
  refine Moves.ite ?_ ?_
  · assumption
  · refine Chip.ownSet_moves ?_ (within_sub w (by decide +kernel))
    assumption

theorem Chip.trainOffAt_moves {L : List Part} {b m : Chip} {ch' : Nat} {t' : Nat} (h : Moves L b m)
    (w : within [.rCh, .rDrv, .rBk, .rBst, .rDg, .rDgb, .rCap, .rInt, .rMap, .frees, .asleep, .accums, .chans, .banks, .boost, .bcap, .sys, .cyc] L = true) :
    Moves L b (Chip.trainOffAt m ch' t') := by
  unfold Chip.trainOffAt
  extract_lets +onlyGivenNames x1
  clear_value x1
  refine Chip.ownSet_moves ?_ (within_sub w (by decide +kernel))
  refine Chip.setChan_moves ?_ (within_sub w (by decide +kernel))
  assumption

theorem Chip.endNext_moves {L : List Part} {b m y : Chip} {ch : Nat} {p : Option Pulse} {o : Option Nat} (h : Moves L b m)
    (e : m.endNext ch p o = some y) (w : within [.rCh, .rTr, .rDrv, .rBk, .rBst, .rDg, .rDgb, .rCap, .rInt, .rMap, .frees, .asleep, .accums, .pool, .poolLast, .chans, .banks, .boost, .bcap, .jour, .sys, .cyc] L = true) : Moves L b y := by
  unfold Chip.endNext at e
  split at e
  · exact Option.some.inj e ▸ Moves.ite (Chip.pulseEnd_moves h (within_sub w (by decide +kernel)))
      (Chip.trainOffAt_moves h (within_sub w (by decide +kernel)))
  · exact Option.some.inj e ▸ Chip.pulseEnd_moves h (within_sub w (by decide +kernel))
  · exact Option.some.inj e ▸ Chip.trainOffAt_moves h (within_sub w (by decide +kernel))
  · cases e

theorem Chip.ownerNext_moves {L : List Part} {b m y : Chip} {ch t : Nat} (h : Moves L b m) (e : m.ownerNext ch t = some y)
    (w : within [.rCh, .rTr, .rDrv, .rBk, .rBst, .rDg, .rDgb, .rCap, .rInt, .rMap, .frees, .asleep, .accums, .pool, .poolLast, .chans, .banks, .boost, .bcap, .jour, .sys, .cyc] L = true) : Moves L b y := by
  unfold Chip.ownerNext at e
  extract_lets p o soon at e
  clear_value p o
  split at e
  · split at e
    · exact Option.some.inj e ▸ Chip.dueFire_moves h (within_sub w (by decide +kernel))
    · exact Chip.endNext_moves h e w
  · exact Chip.endNext_moves h e w

theorem Chip.dueAll_moves {L : List Part} {b m : Chip} {ch t fuel : Nat} (h : Moves L b m) (w : within [.rCh, .rTr, .rDrv, .rBk, .rBst, .rDg, .rDgb, .rCap, .rInt, .rMap, .frees, .asleep, .accums, .pool, .poolLast, .chans, .banks, .boost, .bcap, .jour, .sys, .cyc] L = true) :
    Moves L b (m.dueAll ch t fuel) := by
  induction fuel generalizing m with
  | zero => exact h
  | succ n ih =>
    unfold Chip.dueAll
    split
    · rename_i y q
      exact ih (Chip.ownerNext_moves h q w)
    · exact h

theorem Chip.fireDue_moves {L : List Part} {b m : Chip} {ch' : Nat} {fuel' : Nat} (h : Moves L b m)
    (w : within [.rCh, .rTr, .rDrv, .rBk, .rBst, .rDg, .rDgb, .rCap, .rInt, .rMap, .frees, .asleep, .accums, .pool, .poolLast, .chans, .banks, .boost, .bcap, .jour, .sys, .cyc] L = true) :
    Moves L b (Chip.fireDue m ch' fuel') := by
  unfold Chip.fireDue
  refine Chip.dueAll_moves ?_ (within_sub w (by decide +kernel))
  assumption

theorem Chip.unstage_moves {L : List Part} {b m : Chip} {i' : Nat} (h : Moves L b m)
    (w : within [.jour] L = true) :
    Moves L b (Chip.unstage m i') := by
  unfold Chip.unstage
  extract_lets +onlyGivenNames x1
  unfold x1
  clear_value x1
  refine Moves.upd (x := m) ?_ (by constructor <;> first | rfl | exact .inl rfl | exact .inr (within_mem w (by decide +kernel)))
  assumption

theorem Chip.cancelSlot_moves {L : List Part} {b m : Chip} {i' : Nat} {e' : Ev} (h : Moves L b m)
    (w : within [.rCh, .rDrv, .rBk, .rBst, .rDg, .rDgb, .rCap, .rInt, .rMap, .frees, .asleep, .accums, .pool, .poolLast, .chans, .banks, .boost, .bcap, .jour, .sys, .cyc] L = true) :
    Moves L b (Chip.cancelSlot m i' e').2 := by
  unfold Chip.cancelSlot
  split
  · refine Moves.pair ?_
    refine Chip.unstage_moves ?_ (within_sub w (by decide +kernel))
    refine Chip.finish_moves ?_ (within_sub w (by decide +kernel))
    assumption
  · refine Moves.pair ?_
    refine Chip.finish_moves ?_ (within_sub w (by decide +kernel))
    assumption
  · refine Moves.pair ?_
    refine Chip.freeSlot_moves ?_ (within_sub w (by decide +kernel))
    assumption
  · refine Moves.pair ?_
    assumption
  · extract_lets +onlyGivenNames x1
    clear_value x1
    extract_lets +onlyGivenNames x2
    have h3 : Moves L b x2 := by
      unfold x2
      refine Chip.pulseResolve_moves ?_ (within_sub w (by decide +kernel))
      assumption
    clear_value x2
    refine Moves.pair ?_
    refine Moves.ite ?_ ?_
    · refine Chip.ownSet_moves ?_ (within_sub w (by decide +kernel))
      assumption
    · assumption

theorem Chip.takeSlot_moves {L : List Part} {b m : Chip} {e' : Ev} (h : Moves L b m)
    (w : within [.rCh, .frees, .pool, .poolLast, .orderNo] L = true) :
    Moves L b (Chip.takeSlot m e').2 := by
  unfold Chip.takeSlot
  extract_lets +onlyGivenNames x1
  clear_value x1
  extract_lets +onlyGivenNames x2
  clear_value x2
  extract_lets +onlyGivenNames x3
  have h4 : Moves L b x3 := by
    unfold x3
    refine Moves.upd (x := m) ?_ (by constructor <;> first | rfl | exact .inl rfl | exact .inr (within_mem w (by decide +kernel)))
    assumption
  clear_value x3
  extract_lets +onlyGivenNames x5
  have h6 : Moves L b x5 := by
    unfold x5
    refine Chip.setEv_moves ?_ (within_sub w (by decide +kernel))
    assumption
  clear_value x5
  extract_lets +onlyGivenNames x7
  have h8 : Moves L b x7 := by
    unfold x7
    refine Moves.poolLast ?_ (within_sub w (by decide +kernel))
    assumption
  clear_value x7
  refine Moves.pair ?_
  refine Chip.wr_moves ?_ (within_sub w (by decide +kernel))
  assumption

theorem Chip.armCase_moves {L : List Part} {b m : Chip} {i' : Nat} {e' : Ev} (h : Moves L b m)
    (w : within [.rCh, .rTr, .rDrv, .rBk, .rBst, .rDg, .rDgb, .rCap, .rInt, .rMap, .frees, .asleep, .accums, .pool, .poolLast, .chans, .banks, .boost, .bcap, .jour, .sys, .cyc] L = true) :
    Moves L b (Chip.armCase m i' e').2 := by
  unfold Chip.armCase
  extract_lets +onlyGivenNames x1
  clear_value x1
  extract_lets +onlyGivenNames x2
  clear_value x2
  extract_lets +onlyGivenNames x3
  clear_value x3
  extract_lets +onlyGivenNames x4
  have h5 : Moves L b x4 := by
    unfold x4
    refine Chip.setEv_moves ?_ (within_sub w (by decide +kernel))
    assumption
  clear_value x4
  split
  · refine Moves.pair ?_
    refine Chip.finish_moves ?_ (within_sub w (by decide +kernel))
    assumption
  · split
    · refine Moves.pair ?_
      assumption
    · extract_lets +onlyGivenNames x6
      clear_value x6
      extract_lets +onlyGivenNames x7
      clear_value x7
      extract_lets +onlyGivenNames x8
      clear_value x8
      extract_lets +onlyGivenNames x9
      clear_value x9
      split
      · refine Moves.pair ?_
        refine Chip.setEv_moves ?_ (within_sub w (by decide +kernel))
        assumption
      · split
        · refine Moves.pair ?_
          assumption
        · split
          · refine Moves.pair ?_
            refine Chip.evFire_moves ?_ (within_sub w (by decide +kernel))
            assumption
          · refine Moves.pair ?_
            refine Chip.finish_moves ?_ (within_sub w (by decide +kernel))
            assumption

theorem Chip.cutPulses_moves {L : List Part} {b m : Chip} {ch' : Nat} {cause' : Nat} (h : Moves L b m)
    (w : within [.rCh, .rInt, .asleep, .accums, .pool, .poolLast, .chans, .jour, .sys, .cyc] L = true) :
    Moves L b (Chip.cutPulses m ch' cause') := by
  unfold Chip.cutPulses
  refine Moves.foldl ?_ fun y1 a2 h3 => ?_
  · assumption
  · refine Chip.pulseResolve_moves ?_ (within_sub w (by decide +kernel))
    assumption

theorem Chip.driveCut_moves {L : List Part} {b m : Chip} {ch' : Nat} {fast' : Bool} (h : Moves L b m)
    (w : within [.rCh, .rDrv, .rBk, .rBst, .rDg, .rDgb, .rInt, .rMap, .frees, .asleep, .accums, .pool, .poolLast, .chans, .boost, .bcap, .jour, .sys, .cyc] L = true) :
    Moves L b (Chip.driveCut m ch' fast') := by
  unfold Chip.driveCut
  extract_lets +onlyGivenNames x1
  have h2 : Moves L b x1 := by
    unfold x1
    refine Chip.cutPulses_moves ?_ (within_sub w (by decide +kernel))
    refine Chip.wr_moves ?_ (within_sub w (by decide +kernel))
    refine Chip.wr_moves ?_ (within_sub w (by decide +kernel))
    assumption
  clear_value x1
  extract_lets +onlyGivenNames x3
  clear_value x3
  extract_lets +onlyGivenNames x4
  have h5 : Moves L b x4 := by
    unfold x4
    refine Chip.setChan_moves ?_ (within_sub w (by decide +kernel))
    assumption
  clear_value x4
  refine Chip.drvOffAs_moves ?_ (within_sub w (by decide +kernel))
  assumption

theorem Chip.driveCutOwn_moves {L : List Part} {b m : Chip} {ch' : Nat} (h : Moves L b m)
    (w : within [.rCh, .rDrv, .rBk, .rBst, .rDg, .rDgb, .rInt, .rMap, .frees, .asleep, .accums, .pool, .poolLast, .chans, .boost, .bcap, .jour, .sys, .cyc] L = true) :
    Moves L b (Chip.driveCutOwn m ch') := by
  unfold Chip.driveCutOwn
  refine Chip.driveCut_moves ?_ (within_sub w (by decide +kernel))
  assumption

theorem Chip.chanSafe_moves {L : List Part} {b m : Chip} {ch' : Nat} {fast' : Bool} (h : Moves L b m)
    (w : within [.rCh, .rTr, .rDrv, .rBk, .rBst, .rDg, .rDgb, .rCap, .rInt, .rMap, .frees, .asleep, .accums, .pool, .poolLast, .chans, .banks, .boost, .bcap, .jour, .sys, .cyc] L = true) :
    Moves L b (Chip.chanSafe m ch' fast') := by
  unfold Chip.chanSafe
  extract_lets +onlyGivenNames x1
  clear_value x1
  extract_lets +onlyGivenNames x2
  have h3 : Moves L b x2 := by
    unfold x2
    refine Moves.foldl ?_ fun y4 a5 h6 => ?_
    · assumption
    · split
      · split
        · refine Chip.pulseResolve_moves ?_ (within_sub w (by decide +kernel))
          assumption
        · refine Chip.freeSlot_moves ?_ (within_sub w (by decide +kernel))
          assumption
        · assumption
        · refine Chip.unstage_moves ?_ (within_sub w (by decide +kernel))
          refine Chip.finish_moves ?_ (within_sub w (by decide +kernel))
          assumption
        · refine Chip.finish_moves ?_ (within_sub w (by decide +kernel))
          assumption
  clear_value x2
  extract_lets +onlyGivenNames x7
  have h8 : Moves L b x7 := by
    unfold x7
    refine Chip.trainStop_moves ?_ (within_sub w (by decide +kernel))
    assumption
  clear_value x7
  extract_lets +onlyGivenNames x9
  clear_value x9
  extract_lets +onlyGivenNames x10
  have h11 : Moves L b x10 := by
    unfold x10
    refine Chip.setChan_moves ?_ (within_sub w (by decide +kernel))
    assumption
  clear_value x10
  refine Chip.drvOffAs_moves ?_ (within_sub w (by decide +kernel))
  refine Chip.wr_moves ?_ (within_sub w (by decide +kernel))
  refine Chip.wr_moves ?_ (within_sub w (by decide +kernel))
  assumption

theorem Chip.clusterSafe_moves {L : List Part} {b m : Chip} {c' : Nat} (h : Moves L b m)
    (w : within [.rCh, .rTr, .rDrv, .rBk, .rBst, .rDg, .rDgb, .rCap, .rInt, .rMap, .isl, .frees, .asleep, .accums, .pool, .poolLast, .chans, .banks, .boost, .bcap, .jour, .sys, .cyc] L = true) :
    Moves L b (Chip.clusterSafe m c') := by
  unfold Chip.clusterSafe
  extract_lets +onlyGivenNames x1
  have h2 : Moves L b x1 := by
    unfold x1
    refine Chip.hsbOpen_moves ?_ (within_sub w (by decide +kernel))
    refine Chip.hsbOpen_moves ?_ (within_sub w (by decide +kernel))
    assumption
  clear_value x1
  extract_lets +onlyGivenNames x3
  have h4 : Moves L b x3 := by
    unfold x3
    refine Moves.foldl ?_ fun y5 a6 h7 => ?_
    · assumption
    · refine Chip.chanSafe_moves ?_ (within_sub w (by decide +kernel))
      assumption
  clear_value x3
  extract_lets +onlyGivenNames x8
  clear_value x8
  refine Moves.ite ?_ ?_
  · assumption
  · refine Chip.setIsland_moves ?_ (within_sub w (by decide +kernel))
    assumption

theorem Chip.axisOffEnd_moves {L : List Part} {b m : Chip} {ch' : Nat} {lim' : Nat} (h : Moves L b m)
    (w : within [.rCh, .rTr, .rDrv, .rBk, .rBst, .rDg, .rDgb, .rCap, .rInt, .rMap, .frees, .asleep, .accums, .pool, .poolLast, .chans, .banks, .boost, .bcap, .jour, .sys, .cyc] L = true) :
    Moves L b (Chip.axisOffEnd m ch' lim') := by
  unfold Chip.axisOffEnd
  extract_lets +onlyGivenNames x1
  have h2 : Moves L b x1 := by
    unfold x1
    refine Moves.foldl ?_ fun y3 a4 h5 => ?_
    · assumption
    · refine Moves.ite ?_ ?_
      · assumption
      · refine Moves.ite ?_ ?_
        · refine Chip.finish_moves ?_ (within_sub w (by decide +kernel))
          assumption
        · refine Moves.ite ?_ ?_
          · refine Chip.freeSlot_moves ?_ (within_sub w (by decide +kernel))
            assumption
          · assumption
  clear_value x1
  refine Moves.ite ?_ ?_
  · refine Chip.trainStop_moves ?_ (within_sub w (by decide +kernel))
    assumption
  · assumption

theorem Chip.standTick_moves {L : List Part} {b m : Chip} {ch' : Nat} {i' : Nat} (h : Moves L b m)
    (w : within [.pool] L = true) :
    Moves L b (Chip.standTick m ch' i') := by
  unfold Chip.standTick
  split
  · assumption
  · extract_lets +onlyGivenNames x1
    clear_value x1
    extract_lets +onlyGivenNames x2
    clear_value x2
    extract_lets +onlyGivenNames x3
    clear_value x3
    extract_lets +onlyGivenNames x4
    clear_value x4
    extract_lets +onlyGivenNames x5
    clear_value x5
    refine Moves.ite ?_ ?_
    · refine Moves.ite ?_ ?_
      · refine Moves.ite ?_ ?_
        · refine Chip.setEv_moves ?_ (within_sub w (by decide +kernel))
          assumption
        · assumption
      · split
        · refine Moves.ite ?_ ?_
          · refine Chip.standStep_moves ?_ (within_sub w (by decide +kernel))
            assumption
          · assumption
        · assumption
    · assumption

theorem Chip.headsTick_moves {L : List Part} {b m : Chip} {ch' : Nat} (h : Moves L b m)
    (w : within [.chans] L = true) :
    Moves L b (Chip.headsTick m ch') := by
  unfold Chip.headsTick
  extract_lets +onlyGivenNames x1
  clear_value x1
  extract_lets +onlyGivenNames x2
  clear_value x2
  extract_lets +onlyGivenNames x3
  clear_value x3
  extract_lets +onlyGivenNames x4
  clear_value x4
  extract_lets +onlyGivenNames x5
  clear_value x5
  extract_lets +onlyGivenNames x6
  clear_value x6
  refine Moves.ite ?_ ?_
  · refine Chip.setChan_moves ?_ (within_sub w (by decide +kernel))
    assumption
  · refine Chip.setChan_moves ?_ (within_sub w (by decide +kernel))
    assumption

theorem Chip.equalFire_moves {L : List Part} {b m : Chip} {ch fuel : Nat} (h : Moves L b m) (w : within [.rCh, .rTr, .rDrv, .rBk, .rBst, .rDg, .rDgb, .rCap, .rInt, .rMap, .frees, .asleep, .accums, .pool, .poolLast, .chans, .banks, .boost, .bcap, .jour, .sys, .cyc] L = true) :
    Moves L b (m.equalFire ch fuel) := by
  induction fuel generalizing m with
  | zero => exact h
  | succ n ih =>
    unfold Chip.equalFire
    split
    · exact h
    · simp only []
      split
      · exact ih (Chip.dueFire_moves h (within_sub w (by decide +kernel)))
      · exact ih (Chip.evFire_moves h (within_sub w (by decide +kernel)))

theorem Chip.chanTick_moves {L : List Part} {b m : Chip} {ch' : Nat} (h : Moves L b m)
    (w : within [.rCh, .rTr, .rDrv, .rBk, .rBst, .rDg, .rDgb, .rCap, .rInt, .rMap, .frees, .asleep, .accums, .pool, .poolLast, .chans, .banks, .boost, .bcap, .jour, .sys, .cyc] L = true) :
    Moves L b (Chip.chanTick m ch') := by
  unfold Chip.chanTick
  extract_lets +onlyGivenNames x1
  clear_value x1
  extract_lets +onlyGivenNames x2
  clear_value x2
  extract_lets +onlyGivenNames x3
  have h4 : Moves L b x3 := by
    unfold x3
    refine Chip.wr_moves ?_ (within_sub w (by decide +kernel))
    assumption
  clear_value x3
  extract_lets +onlyGivenNames x5
  clear_value x5
  extract_lets +onlyGivenNames x6
  have h7 : Moves L b x6 := by
    unfold x6
    refine Chip.setChan_moves ?_ (within_sub w (by decide +kernel))
    assumption
  clear_value x6
  extract_lets +onlyGivenNames x8
  have h9 : Moves L b x8 := by
    unfold x8
    refine Moves.ite ?_ ?_
    · refine Chip.axisOffEnd_moves ?_ (within_sub w (by decide +kernel))
      assumption
    · split
      · refine Chip.axisOffEnd_moves ?_ (within_sub w (by decide +kernel))
        assumption
      · assumption
  clear_value x8
  extract_lets +onlyGivenNames x10
  have h11 : Moves L b x10 := by
    unfold x10
    refine Moves.ite ?_ ?_
    · refine Moves.foldl ?_ fun y12 a13 h14 => ?_
      · assumption
      · refine Chip.standTick_moves ?_ (within_sub w (by decide +kernel))
        assumption
    · assumption
  clear_value x10
  extract_lets +onlyGivenNames x15
  have h16 : Moves L b x15 := by
    unfold x15
    refine Moves.ite ?_ ?_
    · refine Chip.strokeTrainEnd_moves ?_ (within_sub w (by decide +kernel))
      refine Chip.wr_moves ?_ (within_sub w (by decide +kernel))
      assumption
    · assumption
  clear_value x15
  extract_lets +onlyGivenNames x17
  have h18 : Moves L b x17 := by
    unfold x17
    refine Chip.headsTick_moves ?_ (within_sub w (by decide +kernel))
    assumption
  clear_value x17
  refine Moves.ite ?_ ?_
  · assumption
  · refine Moves.ite ?_ ?_
    · refine Chip.equalFire_moves ?_ (within_sub w (by decide +kernel))
      assumption
    · assumption

theorem Chip.gateTick_moves {L : List Part} {b m : Chip} {ch' : Nat} (h : Moves L b m)
    (w : within [.chans] L = true) :
    Moves L b (Chip.gateTick m ch') := by
  unfold Chip.gateTick
  extract_lets +onlyGivenNames x1
  clear_value x1
  refine Moves.ite ?_ ?_
  · assumption
  · refine Chip.setChan_moves ?_ (within_sub w (by decide +kernel))
    assumption

theorem Chip.standEndAll_moves {L : List Part} {b m : Chip} {ch' : Nat} (h : Moves L b m)
    (w : within [.pool, .poolLast, .chans] L = true) :
    Moves L b (Chip.standEndAll m ch') := by
  unfold Chip.standEndAll
  refine Moves.foldl ?_ fun y1 a2 h3 => ?_
  · assumption
  · refine Moves.ite ?_ ?_
    · refine Chip.freeSlot_moves ?_ (within_sub w (by decide +kernel))
      assumption
    · assumption

end Sys2Proof.Machine
end

