-- ==== Sys2Proof/Laws/MovesLatticeOps.lean ====
section
/-! SUPPORT. Each operation of Machine/LatticeOps.lean moves the block within the parts it names. -/

-- Theorem by theorem: many at once each take a thread's stack, and the package as one text ran out of them.
set_option Elab.async false

namespace Sys2Proof.Machine

theorem Chip.latFlag_moves {L : List Part} {b m : Chip} {ch' : Nat} {b' : Nat} (h : Moves L b m)
    (w : within [.rLat, .cyc] L = true) :
    Moves L b (Chip.latFlag m ch' b') := by
  unfold Chip.latFlag
  refine Chip.setFlag_moves ?_ (within_sub w (by decide +kernel))
  assumption

theorem Chip.pwmSet_moves {L : List Part} {b m : Chip} {o' : Nat} {on' : Bool} (h : Moves L b m)
    (w : within [.rCh, .rDrv, .rBk, .rBst, .rDg, .rDgb, .rCap, .rInt, .rMap, .frees, .asleep, .accums, .chans, .banks, .boost, .bcap, .sys, .cyc] L = true) :
    Moves L b (Chip.pwmSet m o' on') := by
  unfold Chip.pwmSet
  extract_lets +onlyGivenNames x1
  clear_value x1
  extract_lets +onlyGivenNames x2
  have h3 : Moves L b x2 := by
    unfold x2
    refine Chip.wrB_moves ?_ (within_sub w (by decide +kernel))
    assumption
  clear_value x2
  refine Moves.ite ?_ ?_
  · refine Chip.drvStart_moves ?_ (within_sub w (by decide +kernel))
    assumption
  · refine Moves.ite ?_ ?_
    · refine Chip.drvOff_moves ?_ (within_sub w (by decide +kernel))
      assumption
    · assumption

theorem Chip.setLat_moves {L : List Part} {b m : Chip} {ch' : Nat} {x' : Lat} (h : Moves L b m)
    (w : within [.chans] L = true) :
    Moves L b (Chip.setLat m ch' x') := by
  unfold Chip.setLat
  extract_lets +onlyGivenNames x1
  clear_value x1
  refine Chip.setChan_moves ?_ (within_sub w (by decide +kernel))
  assumption

theorem Chip.pwmStop_moves {L : List Part} {b m : Chip} {ch' : Nat} (h : Moves L b m)
    (w : within [.rCh, .rDrv, .rBk, .rBst, .rDg, .rDgb, .rCap, .rInt, .rMap, .frees, .asleep, .accums, .chans, .banks, .boost, .bcap, .sys, .cyc] L = true) :
    Moves L b (Chip.pwmStop m ch') := by
  unfold Chip.pwmStop
  split
  · extract_lets +onlyGivenNames x1
    clear_value x1
    refine Chip.pwmSet_moves ?_ (within_sub w (by decide +kernel))
    refine Chip.setLat_moves ?_ (within_sub w (by decide +kernel))
    assumption
  · assumption

theorem Chip.latAdopt_moves {L : List Part} {b m : Chip} {ch' : Nat} (h : Moves L b m)
    (w : within [.chans] L = true) :
    Moves L b (Chip.latAdopt m ch') := by
  unfold Chip.latAdopt
  extract_lets +onlyGivenNames x1
  clear_value x1
  refine Chip.setLat_moves ?_ (within_sub w (by decide +kernel))
  assumption

theorem Chip.latNote_moves {L : List Part} {b m : Chip} {ch' : Nat} (h : Moves L b m)
    (w : within [.chans] L = true) :
    Moves L b (Chip.latNote m ch') := by
  unfold Chip.latNote
  extract_lets +onlyGivenNames x1
  clear_value x1
  extract_lets +onlyGivenNames x2
  clear_value x2
  refine Chip.setLat_moves ?_ (within_sub w (by decide +kernel))
  assumption

theorem Chip.latGo_moves {L : List Part} {b m : Chip} {ch' : Nat} {st' : Nat} (h : Moves L b m)
    (w : within [.rCh, .rLat, .rDrv, .rBk, .rBst, .rDg, .rDgb, .rCap, .rInt, .rMap, .frees, .asleep, .accums, .chans, .banks, .boost, .bcap, .sys, .cyc] L = true) :
    Moves L b (Chip.latGo m ch' st') := by
  unfold Chip.latGo
  extract_lets +onlyGivenNames x1
  clear_value x1
  extract_lets +onlyGivenNames x2
  have h3 : Moves L b x2 := by
    unfold x2
    refine Chip.wr_moves ?_ (within_sub w (by decide +kernel))
    assumption
  clear_value x2
  extract_lets +onlyGivenNames x4
  clear_value x4
  refine Moves.ite ?_ ?_
  · refine Chip.wr_moves ?_ (within_sub w (by decide +kernel))
    refine Chip.pwmStop_moves ?_ (within_sub w (by decide +kernel))
    refine Chip.wr_moves ?_ (within_sub w (by decide +kernel))
    refine Chip.setLat_moves ?_ (within_sub w (by decide +kernel))
    assumption
  · refine Moves.ite ?_ ?_
    · refine Chip.wr_moves ?_ (within_sub w (by decide +kernel))
      refine Chip.pwmStop_moves ?_ (within_sub w (by decide +kernel))
      refine Chip.wr_moves ?_ (within_sub w (by decide +kernel))
      refine Chip.setLat_moves ?_ (within_sub w (by decide +kernel))
      assumption
    · refine Moves.ite ?_ ?_
      · refine Moves.ite ?_ ?_
        · refine Chip.setLat_moves ?_ (within_sub w (by decide +kernel))
          assumption
        · refine Chip.wr_moves ?_ (within_sub w (by decide +kernel))
          refine Chip.setLat_moves ?_ (within_sub w (by decide +kernel))
          assumption
      · refine Chip.setLat_moves ?_ (within_sub w (by decide +kernel))
        assumption

theorem Chip.latLoose_moves {L : List Part} {b m : Chip} {ch' : Nat} (h : Moves L b m)
    (w : within [.rLat, .cyc] L = true) :
    Moves L b (Chip.latLoose m ch') := by
  unfold Chip.latLoose
  extract_lets +onlyGivenNames x1
  have h2 : Moves L b x1 := by
    unfold x1
    refine Chip.count_moves ?_ (within_sub w (by decide +kernel))
    refine Chip.latFlag_moves ?_ (within_sub w (by decide +kernel))
    assumption
  clear_value x1
  refine Chip.wr_moves ?_ (within_sub w (by decide +kernel))
  assumption

theorem Chip.latLooseAll_moves {L : List Part} {b m : Chip} {ch' : Nat} (h : Moves L b m)
    (w : within [.rLat, .chans, .cyc] L = true) :
    Moves L b (Chip.latLooseAll m ch') := by
  unfold Chip.latLooseAll
  extract_lets +onlyGivenNames x1
  clear_value x1
  extract_lets +onlyGivenNames x2
  clear_value x2
  refine Moves.foldl ?_ fun y3 a4 h5 => ?_
  · refine Chip.setLat_moves ?_ (within_sub w (by decide +kernel))
    assumption
  · refine Chip.latLoose_moves ?_ (within_sub w (by decide +kernel))
    assumption

theorem Chip.latTo_moves {L : List Part} {b m : Chip} {ch' : Nat} {st' : Nat} (h : Moves L b m)
    (w : within [.rCh, .rLat, .rDrv, .rBk, .rBst, .rDg, .rDgb, .rCap, .rInt, .rMap, .frees, .asleep, .accums, .chans, .banks, .boost, .bcap, .sys, .cyc] L = true) :
    Moves L b (Chip.latTo m ch' st') := by
  unfold Chip.latTo
  extract_lets +onlyGivenNames x1
  have h2 : Moves L b x1 := by
    unfold x1
    refine Chip.latNote_moves ?_ (within_sub w (by decide +kernel))
    refine Chip.latGo_moves ?_ (within_sub w (by decide +kernel))
    assumption
  clear_value x1
  refine Moves.ite ?_ ?_
  · refine Chip.latLooseAll_moves ?_ (within_sub w (by decide +kernel))
    assumption
  · assumption

theorem Chip.latStep_moves {L : List Part} {b m : Chip} {ch' : Nat} {d' : Int} (h : Moves L b m)
    (w : within [.rCh, .rLat, .rDrv, .rBk, .rBst, .rDg, .rDgb, .rCap, .rInt, .rMap, .frees, .asleep, .accums, .chans, .banks, .boost, .bcap, .sys, .cyc] L = true) :
    Moves L b (Chip.latStep m ch' d') := by
  unfold Chip.latStep
  extract_lets +onlyGivenNames x1
  have h2 : Moves L b x1 := by
    unfold x1
    refine Chip.latFlag_moves ?_ (within_sub w (by decide +kernel))
    assumption
  clear_value x1
  refine Moves.ite ?_ ?_
  · refine Moves.ite ?_ ?_
    · refine Chip.latTo_moves ?_ (within_sub w (by decide +kernel))
      refine Chip.latFlag_moves ?_ (within_sub w (by decide +kernel))
      assumption
    · assumption
  · assumption

theorem Chip.clusterStop_moves {L : List Part} {b m : Chip} {c' : Nat} (h : Moves L b m)
    (w : within [.rCh, .rTr, .rDrv, .rBk, .rBst, .rDg, .rDgb, .rCap, .rInt, .rMap, .isl, .frees, .asleep, .accums, .pool, .poolLast, .chans, .banks, .boost, .bcap, .jour, .sys, .cyc] L = true) :
    Moves L b (Chip.clusterStop m c') := by
  unfold Chip.clusterStop
  refine Moves.foldl ?_ fun y1 a2 h3 => ?_
  · refine Chip.clusterSafe_moves ?_ (within_sub w (by decide +kernel))
    assumption
  · refine Moves.ite ?_ ?_
    · refine Chip.pwmStop_moves ?_ (within_sub w (by decide +kernel))
      assumption
    · assumption

theorem Chip.latDrop_moves {L : List Part} {b m : Chip} {ch' : Nat} {td' : Nat} (h : Moves L b m)
    (w : within [.rLat, .chans, .cyc] L = true) :
    Moves L b (Chip.latDrop m ch' td') := by
  unfold Chip.latDrop
  extract_lets +onlyGivenNames x1
  clear_value x1
  refine Moves.ite ?_ ?_
  · refine Chip.setLat_moves ?_ (within_sub w (by decide +kernel))
    assumption
  · refine Moves.ite ?_ ?_
    · refine Chip.latLoose_moves ?_ (within_sub w (by decide +kernel))
      assumption
    · refine Chip.setLat_moves ?_ (within_sub w (by decide +kernel))
      assumption

theorem Chip.latSettle_moves {L : List Part} {b m : Chip} {ch' : Nat} {te' : Nat} (h : Moves L b m)
    (w : within [.rLat, .chans, .cyc] L = true) :
    Moves L b (Chip.latSettle m ch' te') := by
  unfold Chip.latSettle
  extract_lets +onlyGivenNames x1
  clear_value x1
  extract_lets +onlyGivenNames x2
  clear_value x2
  refine Moves.foldl ?_ fun y3 a4 h5 => ?_
  · refine Chip.setLat_moves ?_ (within_sub w (by decide +kernel))
    assumption
  · extract_lets +onlyGivenNames x6
    clear_value x6
    refine Moves.ite ?_ ?_
    · refine Chip.latLoose_moves ?_ (within_sub w (by decide +kernel))
      assumption
    · refine Chip.latDrop_moves ?_ (within_sub w (by decide +kernel))
      assumption

theorem Chip.latRelease_moves {L : List Part} {b m : Chip} {ch' : Nat} {tr' : Int} (h : Moves L b m)
    (w : within [.chans] L = true) :
    Moves L b (Chip.latRelease m ch' tr') := by
  unfold Chip.latRelease
  extract_lets +onlyGivenNames x1
  clear_value x1
  split
  · extract_lets +onlyGivenNames x2
    clear_value x2
    extract_lets +onlyGivenNames x3
    clear_value x3
    refine Moves.ite ?_ ?_
    · assumption
    · refine Chip.setLat_moves ?_ (within_sub w (by decide +kernel))
      assumption

theorem Chip.latEdge_moves {L : List Part} {b m : Chip} {ch' : Nat} {te' : Nat} {angle' : Nat} {d' : Int} (h : Moves L b m)
    (w : within [.rCh, .rLat, .rDrv, .rBk, .rBst, .rDg, .rDgb, .rCap, .rInt, .rMap, .frees, .asleep, .accums, .chans, .banks, .boost, .bcap, .sys, .cyc] L = true) :
    Moves L b (Chip.latEdge m ch' te' angle' d') := by
  unfold Chip.latEdge
  extract_lets +onlyGivenNames x1
  clear_value x1
  extract_lets +onlyGivenNames x2
  clear_value x2
  extract_lets +onlyGivenNames x3
  clear_value x3
  extract_lets +onlyGivenNames x4
  clear_value x4
  extract_lets +onlyGivenNames x5
  clear_value x5
  extract_lets +onlyGivenNames x6
  clear_value x6
  extract_lets +onlyGivenNames x7
  have h8 : Moves L b x7 := by
    unfold x7
    refine Chip.latSettle_moves ?_ (within_sub w (by decide +kernel))
    refine Moves.foldl ?_ fun y9 a10 h11 => ?_
    · assumption
    · refine Chip.latRelease_moves ?_ (within_sub w (by decide +kernel))
      assumption
  clear_value x7
  extract_lets +onlyGivenNames x12
  clear_value x12
  extract_lets +onlyGivenNames x13
  clear_value x13
  extract_lets +onlyGivenNames x14
  clear_value x14
  extract_lets +onlyGivenNames x15
  clear_value x15
  extract_lets +onlyGivenNames x16
  clear_value x16
  extract_lets +onlyGivenNames x17
  clear_value x17
  extract_lets +onlyGivenNames x18
  have h19 : Moves L b x18 := by
    unfold x18
    refine Chip.wrI_moves ?_ (within_sub w (by decide +kernel))
    refine Chip.setLat_moves ?_ (within_sub w (by decide +kernel))
    assumption
  clear_value x18
  refine Moves.ite ?_ ?_
  · assumption
  · refine Moves.ite ?_ ?_
    · refine Chip.latTo_moves ?_ (within_sub w (by decide +kernel))
      refine Chip.latFlag_moves ?_ (within_sub w (by decide +kernel))
      assumption
    · refine Moves.ite ?_ ?_
      · refine Chip.latTo_moves ?_ (within_sub w (by decide +kernel))
        refine Chip.latFlag_moves ?_ (within_sub w (by decide +kernel))
        assumption
      · assumption

theorem Chip.latWheelEdge_moves {L : List Part} {b m : Chip} {n' : Nat} {te' : Nat} {angle' : Nat} {d' : Int} (h : Moves L b m)
    (w : within [.rCh, .rLat, .rDrv, .rBk, .rBst, .rDg, .rDgb, .rCap, .rInt, .rMap, .frees, .asleep, .accums, .chans, .banks, .boost, .bcap, .sys, .cyc] L = true) :
    Moves L b (Chip.latWheelEdge m n' te' angle' d') := by
  unfold Chip.latWheelEdge
  refine Moves.foldl ?_ fun y1 a2 h3 => ?_
  · assumption
  · refine Moves.ite ?_ ?_
    · refine Chip.latEdge_moves ?_ (within_sub w (by decide +kernel))
      assumption
    · assumption

theorem Chip.latPhase_moves {L : List Part} {b m : Chip} {ch' : Nat} (h : Moves L b m)
    (w : within [.rCh, .rLat, .rDrv, .rBk, .rBst, .rDg, .rDgb, .rCap, .rInt, .rMap, .frees, .asleep, .accums, .chans, .banks, .boost, .bcap, .sys, .cyc] L = true) :
    Moves L b (Chip.latPhase m ch') := by
  unfold Chip.latPhase
  extract_lets +onlyGivenNames x1
  clear_value x1
  extract_lets +onlyGivenNames x2
  clear_value x2
  split
  · extract_lets +onlyGivenNames x3
    clear_value x3
    extract_lets +onlyGivenNames x4
    clear_value x4
    extract_lets +onlyGivenNames x5
    clear_value x5
    split
    · extract_lets +onlyGivenNames x6
      clear_value x6
      extract_lets +onlyGivenNames x7
      clear_value x7
      extract_lets +onlyGivenNames x8
      have h9 : Moves L b x8 := by
        unfold x8
        refine Moves.ite ?_ ?_
        · refine Chip.latFlag_moves ?_ (within_sub w (by decide +kernel))
          assumption
        · assumption
      clear_value x8
      extract_lets +onlyGivenNames x10
      have h11 : Moves L b x10 := by
        unfold x10
        refine Moves.ite ?_ ?_
        · assumption
        · refine Chip.latFlag_moves ?_ (within_sub w (by decide +kernel))
          assumption
      clear_value x10
      extract_lets +onlyGivenNames x12
      have h13 : Moves L b x12 := by
        unfold x12
        refine Moves.ite ?_ ?_
        · refine Chip.wrB_moves ?_ (within_sub w (by decide +kernel))
          refine Chip.wrI_moves ?_ (within_sub w (by decide +kernel))
          assumption
        · assumption
      clear_value x12
      extract_lets +onlyGivenNames x14
      have h15 : Moves L b x14 := by
        unfold x14
        refine Moves.ite ?_ ?_
        · assumption
        · refine Chip.latFlag_moves ?_ (within_sub w (by decide +kernel))
          assumption
      clear_value x14
      extract_lets +onlyGivenNames x16
      have h17 : Moves L b x16 := by
        unfold x16
        refine Chip.wrB_moves ?_ (within_sub w (by decide +kernel))
        refine Chip.wrB_moves ?_ (within_sub w (by decide +kernel))
        assumption
      clear_value x16
      extract_lets +onlyGivenNames x18
      have h19 : Moves L b x18 := by
        unfold x18
        refine Chip.wrB_moves ?_ (within_sub w (by decide +kernel))
        assumption
      clear_value x18
      extract_lets +onlyGivenNames x20
      clear_value x20
      extract_lets +onlyGivenNames x21
      clear_value x21
      extract_lets +onlyGivenNames x22
      clear_value x22
      extract_lets +onlyGivenNames x23
      have h24 : Moves L b x23 := by
        unfold x23
        refine Chip.setLat_moves ?_ (within_sub w (by decide +kernel))
        assumption
      clear_value x23
      refine Moves.ite ?_ ?_
      · assumption
      · refine Moves.ite ?_ ?_
        · refine Chip.latStep_moves ?_ (within_sub w (by decide +kernel))
          assumption
        · refine Moves.ite ?_ ?_
          · refine Chip.latStep_moves ?_ (within_sub w (by decide +kernel))
            assumption
          · assumption

theorem Chip.latFail_moves {L : List Part} {b m : Chip} {ch' : Nat} {stall' : Bool} (h : Moves L b m)
    (w : within [.rCh, .rLat, .rDrv, .rBk, .rBst, .rDg, .rDgb, .rCap, .rInt, .rMap, .frees, .asleep, .accums, .chans, .banks, .boost, .bcap, .sys, .cyc] L = true) :
    Moves L b (Chip.latFail m ch' stall') := by
  unfold Chip.latFail
  extract_lets +onlyGivenNames x1
  have h2 : Moves L b x1 := by
    unfold x1
    refine Chip.latFlag_moves ?_ (within_sub w (by decide +kernel))
    refine Chip.latFlag_moves ?_ (within_sub w (by decide +kernel))
    assumption
  clear_value x1
  extract_lets +onlyGivenNames x3
  clear_value x3
  refine Chip.latTo_moves ?_ (within_sub w (by decide +kernel))
  refine Chip.setLat_moves ?_ (within_sub w (by decide +kernel))
  assumption

theorem Chip.latTick_moves {L : List Part} {b m : Chip} {ch' : Nat} (h : Moves L b m)
    (w : within [.rCh, .rLat, .rDrv, .rBk, .rBst, .rDg, .rDgb, .rCap, .rInt, .rMap, .frees, .asleep, .accums, .chans, .banks, .boost, .bcap, .sys, .cyc] L = true) :
    Moves L b (Chip.latTick m ch') := by
  unfold Chip.latTick
  extract_lets +onlyGivenNames x1
  have h2 : Moves L b x1 := by
    unfold x1
    refine Chip.latPhase_moves ?_ (within_sub w (by decide +kernel))
    assumption
  clear_value x1
  extract_lets +onlyGivenNames x3
  clear_value x3
  extract_lets +onlyGivenNames x4
  clear_value x4
  extract_lets +onlyGivenNames x5
  have h6 : Moves L b x5 := by
    unfold x5
    refine Chip.setLat_moves ?_ (within_sub w (by decide +kernel))
    assumption
  clear_value x5
  extract_lets +onlyGivenNames x7
  clear_value x7
  extract_lets +onlyGivenNames x8
  have h9 : Moves L b x8 := by
    unfold x8
    refine Moves.ite ?_ ?_
    · refine Chip.latFlag_moves ?_ (within_sub w (by decide +kernel))
      assumption
    · assumption
  clear_value x8
  refine Moves.ite ?_ ?_
  · assumption
  · refine Moves.ite ?_ ?_
    · assumption
    · refine Moves.ite ?_ ?_
      · refine Chip.latFail_moves ?_ (within_sub w (by decide +kernel))
        assumption
      · refine Moves.ite ?_ ?_
        · refine Moves.ite ?_ ?_
          · refine Chip.latTo_moves ?_ (within_sub w (by decide +kernel))
            assumption
          · assumption
        · refine Moves.ite ?_ ?_
          · assumption
          · refine Chip.latTo_moves ?_ (within_sub w (by decide +kernel))
            assumption

theorem Chip.latSensorDrop_moves {L : List Part} {b m : Chip} {n' : Nat} {td' : Nat} (h : Moves L b m)
    (w : within [.rLat, .chans, .cyc] L = true) :
    Moves L b (Chip.latSensorDrop m n' td') := by
  unfold Chip.latSensorDrop
  refine Moves.foldl ?_ fun y1 a2 h3 => ?_
  · assumption
  · refine Moves.ite ?_ ?_
    · refine Chip.latDrop_moves ?_ (within_sub w (by decide +kernel))
      assumption
    · assumption

theorem Chip.latLanded_moves {L : List Part} {b m : Chip} {ch' : Nat} {ε' : Int} (h : Moves L b m)
    (w : within [.rLat, .chans, .cyc] L = true) :
    Moves L b (Chip.latLanded m ch' ε') := by
  unfold Chip.latLanded
  extract_lets +onlyGivenNames x1
  clear_value x1
  extract_lets +onlyGivenNames x2
  clear_value x2
  extract_lets +onlyGivenNames x3
  clear_value x3
  extract_lets +onlyGivenNames x4
  have h5 : Moves L b x4 := by
    unfold x4
    refine Chip.wrSat_moves ?_ (within_sub w (by decide +kernel))
    refine Chip.setLat_moves ?_ (within_sub w (by decide +kernel))
    assumption
  clear_value x4
  extract_lets +onlyGivenNames x6
  have h7 : Moves L b x6 := by
    unfold x6
    refine Chip.wr_moves ?_ (within_sub w (by decide +kernel))
    assumption
  clear_value x6
  extract_lets +onlyGivenNames x8
  clear_value x8
  extract_lets +onlyGivenNames x9
  clear_value x9
  extract_lets +onlyGivenNames x10
  clear_value x10
  extract_lets +onlyGivenNames x11
  have h12 : Moves L b x11 := by
    unfold x11
    refine Chip.wrI_moves ?_ (within_sub w (by decide +kernel))
    refine Chip.setLat_moves ?_ (within_sub w (by decide +kernel))
    assumption
  clear_value x11
  refine Moves.ite ?_ ?_
  · refine Moves.ite ?_ ?_
    · assumption
    · refine Chip.latFlag_moves ?_ (within_sub w (by decide +kernel))
      assumption
  · assumption

theorem Chip.latLearn_moves {L : List Part} {b m : Chip} {ch' : Nat} {td' : Nat} {tr' : Int} (h : Moves L b m)
    (w : within [.rLat, .chans, .cyc] L = true) :
    Moves L b (Chip.latLearn m ch' td' tr') := by
  unfold Chip.latLearn
  extract_lets +onlyGivenNames x1
  clear_value x1
  extract_lets +onlyGivenNames x2
  clear_value x2
  extract_lets +onlyGivenNames x3
  clear_value x3
  extract_lets +onlyGivenNames x4
  clear_value x4
  extract_lets +onlyGivenNames x5
  clear_value x5
  extract_lets +onlyGivenNames x6
  clear_value x6
  extract_lets +onlyGivenNames x7
  have h8 : Moves L b x7 := by
    unfold x7
    refine Chip.wrI_moves ?_ (within_sub w (by decide +kernel))
    refine Chip.setLat_moves ?_ (within_sub w (by decide +kernel))
    assumption
  clear_value x7
  refine Moves.ite ?_ ?_
  · refine Moves.ite ?_ ?_
    · assumption
    · refine Chip.latFlag_moves ?_ (within_sub w (by decide +kernel))
      assumption
  · assumption

theorem Chip.latJudge_moves {L : List Part} {b m : Chip} {ch' : Nat} {r' : Release} (h : Moves L b m)
    (w : within [.rLat, .chans, .cyc] L = true) :
    Moves L b (Chip.latJudge m ch' r') := by
  unfold Chip.latJudge
  extract_lets +onlyGivenNames x1
  clear_value x1
  extract_lets +onlyGivenNames x2
  have h3 : Moves L b x2 := by
    unfold x2
    refine Chip.latFlag_moves ?_ (within_sub w (by decide +kernel))
    refine Chip.count_moves ?_ (within_sub w (by decide +kernel))
    refine Chip.setLat_moves ?_ (within_sub w (by decide +kernel))
    assumption
  clear_value x2
  extract_lets +onlyGivenNames x4
  have h5 : Moves L b x4 := by
    unfold x4
    refine Chip.setLat_moves ?_ (within_sub w (by decide +kernel))
    assumption
  clear_value x4
  extract_lets +onlyGivenNames x6
  have h7 : Moves L b x6 := by
    unfold x6
    refine Chip.wr_moves ?_ (within_sub w (by decide +kernel))
    assumption
  clear_value x6
  extract_lets +onlyGivenNames x8
  have h9 : Moves L b x8 := by
    unfold x8
    refine Chip.latLearn_moves ?_ (within_sub w (by decide +kernel))
    assumption
  clear_value x8
  refine Moves.ite ?_ ?_
  · refine Moves.ite ?_ ?_
    · refine Chip.latFlag_moves ?_ (within_sub w (by decide +kernel))
      assumption
    · assumption
  · refine Moves.ite ?_ ?_
    · split
      · refine Chip.latLanded_moves ?_ (within_sub w (by decide +kernel))
        assumption
      · assumption
    · refine Chip.latFlag_moves ?_ (within_sub w (by decide +kernel))
      refine Chip.count_moves ?_ (within_sub w (by decide +kernel))
      assumption

end Sys2Proof.Machine
end

