-- ==== Sys2Proof/Laws/MovesAnalogOps.lean ====
section
/-! SUPPORT. Each operation of Machine/AnalogOps.lean moves the block within the parts it names. -/

-- Theorem by theorem: many at once each take a thread's stack, and the package as one text ran out of them.
set_option Elab.async false

namespace Sys2Proof.Machine

theorem Chip.adcMode_moves {L : List Part} {b m : Chip} {u' : Nat} {mode' : Nat} (h : Moves L b m)
    (w : within [.rAdc] L = true) :
    Moves L b (Chip.adcMode m u' mode') := by
  unfold Chip.adcMode
  refine Chip.wrB_moves ?_ (within_sub w (by decide +kernel))
  refine Chip.wr_moves ?_ (within_sub w (by decide +kernel))
  assumption

theorem Chip.pairEnd_moves {L : List Part} {b m : Chip} {u' : Nat} (h : Moves L b m)
    (w : within [.rAdc] L = true) :
    Moves L b (Chip.pairEnd m u') := by
  unfold Chip.pairEnd
  refine Chip.wr_moves ?_ (within_sub w (by decide +kernel))
  refine Chip.adcMode_moves ?_ (within_sub w (by decide +kernel))
  refine Chip.wr_moves ?_ (within_sub w (by decide +kernel))
  assumption

theorem Chip.setAdc_moves {L : List Part} {b m : Chip} {u' : Nat} {x' : AdcUnit} (h : Moves L b m)
    (w : within [.adc] L = true) :
    Moves L b (Chip.setAdc m u' x') := by
  unfold Chip.setAdc
  refine Moves.adc ?_ (within_sub w (by decide +kernel))
  assumption

theorem Chip.adcRestart_moves {L : List Part} {b m : Chip} {u' : Nat} {input' : Nat} {t' : Nat} (h : Moves L b m)
    (w : within [.adc] L = true) :
    Moves L b (Chip.adcRestart m u' input' t') := by
  unfold Chip.adcRestart
  extract_lets +onlyGivenNames x1
  clear_value x1
  extract_lets +onlyGivenNames x2
  clear_value x2
  refine Chip.setAdc_moves ?_ (within_sub w (by decide +kernel))
  assumption

theorem Chip.adcSwitch_moves {L : List Part} {b m : Chip} {u' : Nat} (h : Moves L b m)
    (w : within [.adc] L = true) :
    Moves L b (Chip.adcSwitch m u') := by
  unfold Chip.adcSwitch
  extract_lets +onlyGivenNames x1
  clear_value x1
  extract_lets +onlyGivenNames x2
  clear_value x2
  refine Moves.ite ?_ ?_
  · refine Chip.setAdc_moves ?_ (within_sub w (by decide +kernel))
    assumption
  · refine Chip.adcRestart_moves ?_ (within_sub w (by decide +kernel))
    assumption

theorem Chip.adcCtl_moves {L : List Part} {b m : Chip} {u' : Nat} {mode' : Nat} {rate' : Nat} {left' : Bool} {pair' : Bool} (h : Moves L b m)
    (w : within [.rAdc, .rInt, .asleep, .accums, .adc, .sys, .cyc] L = true) :
    Moves L b (Chip.adcCtl m u' mode' rate' left' pair') := by
  unfold Chip.adcCtl
  extract_lets +onlyGivenNames x1
  clear_value x1
  extract_lets +onlyGivenNames x2
  clear_value x2
  extract_lets +onlyGivenNames x3
  clear_value x3
  extract_lets +onlyGivenNames x4
  clear_value x4
  extract_lets +onlyGivenNames x5
  have h6 : Moves L b x5 := by
    unfold x5
    refine Chip.wrB_moves ?_ (within_sub w (by decide +kernel))
    refine Chip.wr_moves ?_ (within_sub w (by decide +kernel))
    assumption
  clear_value x5
  extract_lets +onlyGivenNames x7
  have h8 : Moves L b x7 := by
    unfold x7
    refine Moves.ite ?_ ?_
    · refine Chip.pairEnd_moves ?_ (within_sub w (by decide +kernel))
      assumption
    · assumption
  clear_value x7
  extract_lets +onlyGivenNames x9
  clear_value x9
  extract_lets +onlyGivenNames x10
  have h11 : Moves L b x10 := by
    unfold x10
    refine Moves.ite ?_ ?_
    · refine Chip.wr_moves ?_ (within_sub w (by decide +kernel))
      refine Chip.adcMode_moves ?_ (within_sub w (by decide +kernel))
      refine Chip.wr_moves ?_ (within_sub w (by decide +kernel))
      assumption
    · assumption
  clear_value x10
  extract_lets +onlyGivenNames x12
  have h13 : Moves L b x12 := by
    unfold x12
    refine Moves.ite ?_ ?_
    · assumption
    · refine Chip.adcMode_moves ?_ (within_sub w (by decide +kernel))
      assumption
  clear_value x12
  refine Moves.ite ?_ ?_
  · refine Chip.adcFlag_moves ?_ (within_sub w (by decide +kernel))
    assumption
  · refine Moves.ite ?_ ?_
    · refine Chip.adcFlag_moves ?_ (within_sub w (by decide +kernel))
      assumption
    · refine Moves.ite ?_ ?_
      · assumption
      · refine Moves.ite ?_ ?_
        · refine Moves.ite ?_ ?_
          · refine Chip.adcSwitch_moves ?_ (within_sub w (by decide +kernel))
            assumption
          · assumption
        · refine Chip.adcRestart_moves ?_ (within_sub w (by decide +kernel))
          assumption

theorem Chip.adcSel_moves {L : List Part} {b m : Chip} {u' : Nat} {input' : Nat} (h : Moves L b m)
    (w : within [.rAdc, .rInt, .asleep, .accums, .adc, .sys, .cyc] L = true) :
    Moves L b (Chip.adcSel m u' input') := by
  unfold Chip.adcSel
  extract_lets +onlyGivenNames x1
  have h2 : Moves L b x1 := by
    unfold x1
    refine Chip.wr_moves ?_ (within_sub w (by decide +kernel))
    assumption
  clear_value x1
  refine Moves.ite ?_ ?_
  · refine Chip.adcFlag_moves ?_ (within_sub w (by decide +kernel))
    assumption
  · refine Moves.ite ?_ ?_
    · refine Chip.adcSwitch_moves ?_ (within_sub w (by decide +kernel))
      assumption
    · assumption

theorem Chip.adcBegin_moves {L : List Part} {b m : Chip} {u' : Nat} (h : Moves L b m)
    (w : within [.rAdc, .rInt, .asleep, .accums, .adc, .sys, .cyc] L = true) :
    Moves L b (Chip.adcBegin m u') := by
  unfold Chip.adcBegin
  refine Moves.ite ?_ ?_
  · refine Chip.adcFlag_moves ?_ (within_sub w (by decide +kernel))
    assumption
  · refine Chip.adcRestart_moves ?_ (within_sub w (by decide +kernel))
    refine Chip.wr_moves ?_ (within_sub w (by decide +kernel))
    assumption

theorem Chip.asStop_moves {L : List Part} {b m : Chip} (h : Moves L b m)
    (w : within [.rAdc, .rAs, .assay] L = true) :
    Moves L b (Chip.asStop m) := by
  unfold Chip.asStop
  extract_lets +onlyGivenNames x1
  have h2 : Moves L b x1 := by
    unfold x1
    split
    · refine Moves.ite ?_ ?_
      · refine Chip.wr_moves ?_ (within_sub w (by decide +kernel))
        assumption
      · assumption
    · assumption
  clear_value x1
  extract_lets +onlyGivenNames x3
  have h4 : Moves L b x3 := by
    unfold x3
    refine Chip.wr_moves ?_ (within_sub w (by decide +kernel))
    refine Chip.wr_moves ?_ (within_sub w (by decide +kernel))
    assumption
  clear_value x3
  refine Moves.assay ?_ (within_sub w (by decide +kernel))
  assumption

theorem Chip.setCmp_moves {L : List Part} {b m : Chip} {n' : Nat} {x' : Cmpr} (h : Moves L b m)
    (w : within [.cmp] L = true) :
    Moves L b (Chip.setCmp m n' x') := by
  unfold Chip.setCmp
  refine Moves.cmp ?_ (within_sub w (by decide +kernel))
  assumption

theorem Chip.sdsFlag_moves {L : List Part} {b m : Chip} {n' : Nat} {b' : Nat} (h : Moves L b m)
    (w : within [.rSds, .rInt, .asleep, .accums, .sys, .cyc] L = true) :
    Moves L b (Chip.sdsFlag m n' b') := by
  unfold Chip.sdsFlag
  extract_lets +onlyGivenNames x1
  clear_value x1
  extract_lets +onlyGivenNames x2
  have h3 : Moves L b x2 := by
    unfold x2
    refine Chip.setFlag_moves ?_ (within_sub w (by decide +kernel))
    assumption
  clear_value x2
  refine Moves.ite ?_ ?_
  · refine Chip.raise_moves ?_ (within_sub w (by decide +kernel))
    assumption
  · assumption

theorem Chip.setSds_moves {L : List Part} {b m : Chip} {n' : Nat} {x' : Cmpr} (h : Moves L b m)
    (w : within [.sds] L = true) :
    Moves L b (Chip.setSds m n' x') := by
  unfold Chip.setSds
  refine Moves.sds ?_ (within_sub w (by decide +kernel))
  assumption

theorem Chip.cmpChange_moves {L : List Part} {b m : Chip} {n' : Nat} {code' : Nat} {firstTb' : Nat} (h : Moves L b m)
    (w : within [.rCmp, .rInt, .asleep, .accums, .cmp, .sys, .cyc] L = true) :
    Moves L b (Chip.cmpChange m n' code' firstTb') := by
  unfold Chip.cmpChange
  extract_lets +onlyGivenNames x1
  clear_value x1
  extract_lets +onlyGivenNames x2
  clear_value x2
  extract_lets +onlyGivenNames x3
  clear_value x3
  extract_lets +onlyGivenNames x4
  have h5 : Moves L b x4 := by
    unfold x4
    refine Chip.setCycle_moves ?_ (within_sub w (by decide +kernel))
    assumption
  clear_value x4
  extract_lets +onlyGivenNames x6
  clear_value x6
  extract_lets +onlyGivenNames x7
  have h8 : Moves L b x7 := by
    unfold x7
    refine Chip.setCmp_moves ?_ (within_sub w (by decide +kernel))
    refine Chip.count_moves ?_ (within_sub w (by decide +kernel))
    refine Chip.wr_moves ?_ (within_sub w (by decide +kernel))
    assumption
  clear_value x7
  extract_lets +onlyGivenNames x9
  have h10 : Moves L b x9 := by
    unfold x9
    refine Moves.ite ?_ ?_
    · refine Chip.cmpFlag_moves ?_ (within_sub w (by decide +kernel))
      assumption
    · assumption
  clear_value x9
  refine Moves.ite ?_ ?_
  · assumption
  · refine Chip.cmpFlag_moves ?_ (within_sub w (by decide +kernel))
    assumption

theorem Chip.adcTb_moves {L : List Part} {b m : Chip} {u' : Nat} (h : Moves L b m)
    (w : within [.frees] L = true) :
    Moves L b (Chip.adcTb m u').2 := by
  unfold Chip.adcTb
  extract_lets +onlyGivenNames x1
  clear_value x1
  split
  · split
    · rename_i y2 y3 y4 q5
      have h6 : Moves L b ((y3 : Int), y4).2 := by
        rw [← q5]
        refine Chip.free_moves ?_ (within_sub w (by decide +kernel))
        assumption
      refine Moves.pair ?_
      assumption
  · refine Moves.pair ?_
    assumption

theorem Chip.adcDeflect_moves {L : List Part} {b m : Chip} {u' : Nat} {input' : Nat} {c' : Int} (h : Moves L b m)
    (w : within [.mdl] L = true) :
    Moves L b (Chip.adcDeflect m u' input' c') := by
  unfold Chip.adcDeflect
  refine Moves.foldl ?_ fun y1 a2 h3 => ?_
  · assumption
  · refine Moves.ite ?_ ?_
    · refine Chip.deflOffer_moves ?_ (within_sub w (by decide +kernel))
      assumption
    · assumption

theorem Chip.adcPut_moves {L : List Part} {b m : Chip} {u' : Nat} {input' : Nat} {raw' : Int} {c' : Int} {lost' : Bool} (h : Moves L b m)
    (w : within [.rAdc, .rInt, .asleep, .accums, .mdl, .sys, .cyc] L = true) :
    Moves L b (Chip.adcPut m u' input' raw' c' lost') := by
  unfold Chip.adcPut
  extract_lets +onlyGivenNames x1
  have h2 : Moves L b x1 := by
    unfold x1
    refine Moves.ite ?_ ?_
    · assumption
    · refine Chip.adcFlag_moves ?_ (within_sub w (by decide +kernel))
      assumption
  clear_value x1
  extract_lets +onlyGivenNames x3
  have h4 : Moves L b x3 := by
    unfold x3
    refine Moves.ite ?_ ?_
    · refine Chip.adcFlag_moves ?_ (within_sub w (by decide +kernel))
      assumption
    · assumption
  clear_value x3
  extract_lets +onlyGivenNames x5
  have h6 : Moves L b x5 := by
    unfold x5
    refine Chip.wr_moves ?_ (within_sub w (by decide +kernel))
    refine Chip.wr_moves ?_ (within_sub w (by decide +kernel))
    assumption
  clear_value x5
  extract_lets +onlyGivenNames x7
  have h8 : Moves L b x7 := by
    unfold x7
    refine Moves.ite ?_ ?_
    · refine Chip.wr_moves ?_ (within_sub w (by decide +kernel))
      assumption
    · assumption
  clear_value x7
  refine Chip.adcDeflect_moves ?_ (within_sub w (by decide +kernel))
  refine Chip.adcFlag_moves ?_ (within_sub w (by decide +kernel))
  assumption

theorem Chip.adcLand_moves {L : List Part} {b m : Chip} {u' : Nat} {nv' : Int} (h : Moves L b m)
    (w : within [.rAdc, .rInt, .frees, .asleep, .accums, .mdl, .adc, .sys, .cyc] L = true) :
    Moves L b (Chip.adcLand m u' nv') := by
  unfold Chip.adcLand
  extract_lets +onlyGivenNames x1
  clear_value x1
  extract_lets +onlyGivenNames x2
  clear_value x2
  extract_lets +onlyGivenNames x3
  clear_value x3
  extract_lets +onlyGivenNames x4
  clear_value x4
  extract_lets +onlyGivenNames x5
  clear_value x5
  split
  · rename_i y6 y7 y8 q9
    have h10 : Moves L b ((y7 : Nat), y8).2 := by
      rw [← q9]
      refine Chip.adcTb_moves ?_ (within_sub w (by decide +kernel))
      assumption
    extract_lets +onlyGivenNames x11
    clear_value x11
    extract_lets +onlyGivenNames x12
    clear_value x12
    extract_lets +onlyGivenNames x13
    clear_value x13
    extract_lets +onlyGivenNames x14
    clear_value x14
    extract_lets +onlyGivenNames x15
    have h16 : Moves L b x15 := by
      unfold x15
      refine Chip.setCycle_moves ?_ (within_sub w (by decide +kernel))
      assumption
    clear_value x15
    extract_lets +onlyGivenNames x17
    have h18 : Moves L b x17 := by
      unfold x17
      refine Chip.setAdc_moves ?_ (within_sub w (by decide +kernel))
      assumption
    clear_value x17
    extract_lets +onlyGivenNames x19
    have h20 : Moves L b x19 := by
      unfold x19
      split
      · refine Chip.adcRestart_moves ?_ (within_sub w (by decide +kernel))
        assumption
      · assumption
    clear_value x19
    refine Chip.adcPut_moves ?_ (within_sub w (by decide +kernel))
    assumption

theorem Chip.sdsFirst_moves {L : List Part} {b m : Chip} {n' : Nat} {code' : Nat} (h : Moves L b m)
    (w : within [.rSds] L = true) :
    Moves L b (Chip.sdsFirst m n' code') := by
  unfold Chip.sdsFirst
  extract_lets +onlyGivenNames x1
  clear_value x1
  refine Moves.ite ?_ ?_
  · refine Chip.wr_moves ?_ (within_sub w (by decide +kernel))
    refine Chip.wr_moves ?_ (within_sub w (by decide +kernel))
    assumption
  · assumption

theorem Chip.asAdvance_moves {L : List Part} {b m : Chip} {i' : Nat} {last' : Bool} (h : Moves L b m)
    (w : within [.rAdc, .rAs, .rInt, .asleep, .accums, .assay, .sys, .cyc] L = true) :
    Moves L b (Chip.asAdvance m i' last') := by
  unfold Chip.asAdvance
  extract_lets +onlyGivenNames x1
  have h2 : Moves L b x1 := by
    unfold x1
    refine Chip.asFlag_moves ?_ (within_sub w (by decide +kernel))
    refine Chip.wr_moves ?_ (within_sub w (by decide +kernel))
    assumption
  clear_value x1
  extract_lets +onlyGivenNames x3
  clear_value x3
  extract_lets +onlyGivenNames x4
  clear_value x4
  refine Moves.ite ?_ ?_
  · refine Moves.ite ?_ ?_
    · refine Moves.assay ?_ (within_sub w (by decide +kernel))
      assumption
    · refine Chip.asFlag_moves ?_ (within_sub w (by decide +kernel))
      refine Chip.asStop_moves ?_ (within_sub w (by decide +kernel))
      assumption
  · refine Moves.assay ?_ (within_sub w (by decide +kernel))
    assumption

theorem Chip.asStore_moves {L : List Part} {b m : Chip} {r' : AsRun} {results' : List Int} (h : Moves L b m)
    (w : within [.rAdc, .rAs, .rInt, .asleep, .accums, .assay, .sys, .cyc] L = true) :
    Moves L b (Chip.asStore m r' results') := by
  unfold Chip.asStore
  extract_lets +onlyGivenNames x1
  clear_value x1
  extract_lets +onlyGivenNames x2
  clear_value x2
  extract_lets +onlyGivenNames x3
  clear_value x3
  extract_lets +onlyGivenNames x4
  clear_value x4
  extract_lets +onlyGivenNames x5
  have h6 : Moves L b x5 := by
    unfold x5
    refine Chip.setCycle_moves ?_ (within_sub w (by decide +kernel))
    assumption
  clear_value x5
  extract_lets +onlyGivenNames x7
  have h8 : Moves L b x7 := by
    unfold x7
    refine Chip.wr_moves ?_ (within_sub w (by decide +kernel))
    refine Chip.wr_moves ?_ (within_sub w (by decide +kernel))
    assumption
  clear_value x7
  extract_lets +onlyGivenNames x9
  clear_value x9
  extract_lets +onlyGivenNames x10
  have h11 : Moves L b x10 := by
    unfold x10
    refine Moves.assay ?_ (within_sub w (by decide +kernel))
    assumption
  clear_value x10
  extract_lets +onlyGivenNames x12
  have h13 : Moves L b x12 := by
    unfold x12
    refine Moves.ite ?_ ?_
    · assumption
    · refine Chip.adcFlag_moves ?_ (within_sub w (by decide +kernel))
      assumption
  clear_value x12
  extract_lets +onlyGivenNames x14
  have h15 : Moves L b x14 := by
    unfold x14
    refine Chip.asFlag_moves ?_ (within_sub w (by decide +kernel))
    refine Chip.wr_moves ?_ (within_sub w (by decide +kernel))
    assumption
  clear_value x14
  refine Moves.ite ?_ ?_
  · refine Moves.ite ?_ ?_
    · refine Chip.asFlag_moves ?_ (within_sub w (by decide +kernel))
      refine Chip.asStop_moves ?_ (within_sub w (by decide +kernel))
      assumption
    · refine Chip.asAdvance_moves ?_ (within_sub w (by decide +kernel))
      assumption
  · refine Chip.asAdvance_moves ?_ (within_sub w (by decide +kernel))
    assumption

theorem Chip.sdsJudge_moves {L : List Part} {b m : Chip} {n' : Nat} {t1' : Nat} {t2' : Nat} {blocked' : Bool} (h : Moves L b m)
    (w : within [.rLat, .rSds, .rInt, .asleep, .accums, .chans, .sds, .sys, .cyc] L = true) :
    Moves L b (Chip.sdsJudge m n' t1' t2' blocked') := by
  unfold Chip.sdsJudge
  extract_lets +onlyGivenNames x1
  clear_value x1
  extract_lets +onlyGivenNames x2
  clear_value x2
  extract_lets +onlyGivenNames x3
  clear_value x3
  extract_lets +onlyGivenNames x4
  clear_value x4
  extract_lets +onlyGivenNames x5
  have h6 : Moves L b x5 := by
    unfold x5
    refine Chip.setCycle_moves ?_ (within_sub w (by decide +kernel))
    assumption
  clear_value x5
  extract_lets +onlyGivenNames x7
  clear_value x7
  extract_lets +onlyGivenNames x8
  have h9 : Moves L b x8 := by
    unfold x8
    refine Chip.setSds_moves ?_ (within_sub w (by decide +kernel))
    assumption
  clear_value x8
  extract_lets +onlyGivenNames x10
  have h11 : Moves L b x10 := by
    unfold x10
    refine Chip.sdsFlag_moves ?_ (within_sub w (by decide +kernel))
    refine Chip.wr_moves ?_ (within_sub w (by decide +kernel))
    assumption
  clear_value x10
  refine Moves.ite ?_ ?_
  · assumption
  · refine Moves.ite ?_ ?_
    · refine Chip.sdsFlag_moves ?_ (within_sub w (by decide +kernel))
      refine Chip.count_moves ?_ (within_sub w (by decide +kernel))
      assumption
    · refine Moves.ite ?_ ?_
      · refine Chip.sdsFlag_moves ?_ (within_sub w (by decide +kernel))
        refine Chip.count_moves ?_ (within_sub w (by decide +kernel))
        assumption
      · refine Chip.latSensorDrop_moves ?_ (within_sub w (by decide +kernel))
        assumption

theorem Chip.asTake_moves {L : List Part} {b m : Chip} {fuel : Nat} (h : Moves L b m) (w : within [.rAdc, .rAs, .rInt, .asleep, .accums, .adc, .assay, .sys, .cyc] L = true) :
    Moves L b (m.asTake fuel) := by
  induction fuel generalizing m with
  | zero => exact h
  | succ k ih =>
    unfold Chip.asTake
    refine Moves.ite h (Moves.ite (ih (Chip.asAdvance_moves h (within_sub w (by decide +kernel)))) (Moves.ite (ih ?_) ?_))
    · exact Chip.asAdvance_moves (Chip.asFlag_moves h (within_sub w (by decide +kernel))) (within_sub w (by decide +kernel))
    · exact Moves.assay (Chip.wr_moves (Chip.wr_moves (Chip.setAdc_moves h (within_sub w (by decide +kernel)))
        (within_sub w (by decide +kernel))) (within_sub w (by decide +kernel))) (within_sub w (by decide +kernel))

theorem Chip.cmpFirst_moves {L : List Part} {b m : Chip} {n' : Nat} {code' : Nat} (h : Moves L b m)
    (w : within [.rCmp] L = true) :
    Moves L b (Chip.cmpFirst m n' code') := by
  unfold Chip.cmpFirst
  refine Moves.ite ?_ ?_
  · refine Chip.wr_moves ?_ (within_sub w (by decide +kernel))
    refine Chip.wr_moves ?_ (within_sub w (by decide +kernel))
    assumption
  · assumption

theorem Chip.sdsForce_moves {L : List Part} {b m : Chip} {n' : Nat} (h : Moves L b m)
    (w : within [.rSds, .sds] L = true) :
    Moves L b (Chip.sdsForce m n') := by
  unfold Chip.sdsForce
  extract_lets +onlyGivenNames x1
  clear_value x1
  refine Moves.ite ?_ ?_
  · refine Chip.wr_moves ?_ (within_sub w (by decide +kernel))
    refine Chip.wr_moves ?_ (within_sub w (by decide +kernel))
    refine Chip.setSds_moves ?_ (within_sub w (by decide +kernel))
    assumption
  · assumption

theorem Chip.sdsCond_moves {L : List Part} {b m : Chip} {n' : Nat} {k' : Nat} {now' : Bool} (h : Moves L b m)
    (w : within [.rSds, .rInt, .asleep, .accums, .sds, .sys, .cyc] L = true) :
    Moves L b (Chip.sdsCond m n' k' now') := by
  unfold Chip.sdsCond
  extract_lets +onlyGivenNames x1
  clear_value x1
  extract_lets +onlyGivenNames x2
  clear_value x2
  extract_lets +onlyGivenNames x3
  clear_value x3
  extract_lets +onlyGivenNames x4
  have h5 : Moves L b x4 := by
    unfold x4
    refine Chip.setSds_moves ?_ (within_sub w (by decide +kernel))
    assumption
  clear_value x4
  refine Moves.ite ?_ ?_
  · refine Chip.sdsFlag_moves ?_ (within_sub w (by decide +kernel))
    refine Chip.wr_moves ?_ (within_sub w (by decide +kernel))
    assumption
  · refine Moves.ite ?_ ?_
    · refine Chip.wr_moves ?_ (within_sub w (by decide +kernel))
      assumption
    · assumption

theorem Chip.sdsLeave_moves {L : List Part} {b m : Chip} {n' : Nat} {t2' : Nat} (h : Moves L b m)
    (w : within [.rSds, .sds] L = true) :
    Moves L b (Chip.sdsLeave m n' t2') := by
  unfold Chip.sdsLeave
  extract_lets +onlyGivenNames x1
  clear_value x1
  split
  · assumption
  · refine Chip.wr_moves ?_ (within_sub w (by decide +kernel))
    refine Chip.setSds_moves ?_ (within_sub w (by decide +kernel))
    assumption

theorem Chip.sdsDiag_moves {L : List Part} {b m : Chip} {n' : Nat} {pinMv' : Int} (h : Moves L b m)
    (w : within [.rSds, .rInt, .asleep, .accums, .sds, .sys, .cyc] L = true) :
    Moves L b (Chip.sdsDiag m n' pinMv') := by
  unfold Chip.sdsDiag
  extract_lets +onlyGivenNames x1
  clear_value x1
  extract_lets +onlyGivenNames x2
  clear_value x2
  extract_lets +onlyGivenNames x3
  have h4 : Moves L b x3 := by
    unfold x3
    refine Chip.sdsCond_moves ?_ (within_sub w (by decide +kernel))
    refine Chip.sdsCond_moves ?_ (within_sub w (by decide +kernel))
    refine Chip.sdsCond_moves ?_ (within_sub w (by decide +kernel))
    assumption
  clear_value x3
  refine Chip.sdsForce_moves ?_ (within_sub w (by decide +kernel))
  assumption

theorem Chip.sdsChange_moves {L : List Part} {b m : Chip} {n' : Nat} {code' : Nat} {firstTb' : Nat} (h : Moves L b m)
    (w : within [.rSds, .rInt, .asleep, .accums, .sds, .sys, .cyc] L = true) :
    Moves L b (Chip.sdsChange m n' code' firstTb') := by
  unfold Chip.sdsChange
  extract_lets +onlyGivenNames x1
  clear_value x1
  extract_lets +onlyGivenNames x2
  clear_value x2
  extract_lets +onlyGivenNames x3
  have h4 : Moves L b x3 := by
    unfold x3
    refine Chip.wr_moves ?_ (within_sub w (by decide +kernel))
    assumption
  clear_value x3
  extract_lets +onlyGivenNames x5
  clear_value x5
  extract_lets +onlyGivenNames x6
  have h7 : Moves L b x6 := by
    unfold x6
    refine Moves.ite ?_ ?_
    · refine Chip.sdsLeave_moves ?_ (within_sub w (by decide +kernel))
      assumption
    · assumption
  clear_value x6
  extract_lets +onlyGivenNames x8
  clear_value x8
  extract_lets +onlyGivenNames x9
  have h10 : Moves L b x9 := by
    unfold x9
    refine Moves.ite ?_ ?_
    · refine Chip.setSds_moves ?_ (within_sub w (by decide +kernel))
      assumption
    · assumption
  clear_value x9
  refine Moves.ite ?_ ?_
  · assumption
  · refine Moves.ite ?_ ?_
    · refine Chip.sdsFlag_moves ?_ (within_sub w (by decide +kernel))
      assumption
    · assumption

end Sys2Proof.Machine
end

