-- ==== Sys2Proof/Laws/MovesMandrel.lean ====
section
/-! SUPPORT. Each operation of Machine/Mandrel.lean moves the block within the parts it names. -/

-- Theorem by theorem: many at once each take a thread's stack, and the package as one text ran out of them.
set_option Elab.async false

namespace Sys2Proof.Machine

theorem Chip.wrFrom_moves {L : List Part} {b m : Chip} {f : Field} {i v : Nat} (h : Moves L b m) (w : within [f.part] L = true) :
    Moves L b (m.wrFrom f i v) := Chip.wr_moves h w

theorem Chip.axOff_moves {L : List Part} {b m : Chip} {a' : Nat} (h : Moves L b m)
    (w : within [.rAx, .axes, .cyc] L = true) :
    Moves L b (Chip.axOff m a') := by
  unfold Chip.axOff
  extract_lets +onlyGivenNames x1
  clear_value x1
  refine Chip.axEnter_moves ?_ (within_sub w (by decide +kernel))
  refine Chip.wr_moves ?_ (within_sub w (by decide +kernel))
  refine Moves.axes ?_ (within_sub w (by decide +kernel))
  assumption

theorem Chip.axCfgWrite_moves {L : List Part} {b m : Chip} {a' : Nat} {w' : Nat} (h : Moves L b m)
    (w : within [.rAx, .axes, .cyc] L = true) :
    Moves L b (Chip.axCfgWrite m a' w') := by
  unfold Chip.axCfgWrite
  extract_lets +onlyGivenNames x1
  have h2 : Moves L b x1 := by
    unfold x1
    refine Chip.wrFrom_moves ?_ (within_sub w (by decide +kernel))
    refine Chip.wrFrom_moves ?_ (within_sub w (by decide +kernel))
    assumption
  clear_value x1
  refine Moves.ite ?_ ?_
  · refine Moves.ite ?_ ?_
    · refine Chip.axOff_moves ?_ (within_sub w (by decide +kernel))
      assumption
    · assumption
  · refine Moves.ite ?_ ?_
    · assumption
    · refine Chip.axEnter_moves ?_ (within_sub w (by decide +kernel))
      refine Moves.axes ?_ (within_sub w (by decide +kernel))
      assumption

theorem Chip.mdlCfgWrite_moves {L : List Part} {b m : Chip} {w' : Nat} (h : Moves L b m)
    (w : within [.rMdl, .rInt, .frees, .asleep, .accums, .mdl, .sys, .cyc] L = true) :
    Moves L b (Chip.mdlCfgWrite m w') := by
  unfold Chip.mdlCfgWrite
  extract_lets +onlyGivenNames x1
  clear_value x1
  extract_lets +onlyGivenNames x2
  clear_value x2
  extract_lets +onlyGivenNames x3
  have h4 : Moves L b x3 := by
    unfold x3
    refine Chip.wrFrom_moves ?_ (within_sub w (by decide +kernel))
    refine Chip.wrFrom_moves ?_ (within_sub w (by decide +kernel))
    refine Chip.wr_moves ?_ (within_sub w (by decide +kernel))
    assumption
  clear_value x3
  extract_lets +onlyGivenNames x5
  have h6 : Moves L b x5 := by
    unfold x5
    refine Chip.chassisTo_moves ?_ (within_sub w (by decide +kernel))
    assumption
  clear_value x5
  extract_lets +onlyGivenNames x7
  clear_value x7
  extract_lets +onlyGivenNames x8
  have h9 : Moves L b x8 := by
    unfold x8
    refine Moves.mdl ?_ (within_sub w (by decide +kernel))
    assumption
  clear_value x8
  extract_lets +onlyGivenNames x10
  have h11 : Moves L b x10 := by
    unfold x10
    refine Chip.wr_moves ?_ (within_sub w (by decide +kernel))
    refine Chip.wr_moves ?_ (within_sub w (by decide +kernel))
    refine Chip.wr_moves ?_ (within_sub w (by decide +kernel))
    assumption
  clear_value x10
  refine Moves.ite ?_ ?_
  · assumption
  · refine Moves.ite ?_ ?_
    · refine Chip.chassisStatus_moves ?_ (within_sub w (by decide +kernel))
      refine Chip.setSlotState_moves ?_ (within_sub w (by decide +kernel))
      refine Chip.chassisTo_moves ?_ (within_sub w (by decide +kernel))
      assumption
    · refine Chip.slotAcquire_moves ?_ (within_sub w (by decide +kernel))
      refine Chip.setSlot_moves ?_ (within_sub w (by decide +kernel))
      assumption

theorem Chip.fieldSetCmd_moves {L : List Part} {b m : Chip} (h : Moves L b m)
    (w : within [.mdl] L = true) :
    Moves L b (Chip.fieldSetCmd m) := by
  unfold Chip.fieldSetCmd
  extract_lets +onlyGivenNames x1
  clear_value x1
  refine Moves.mdl ?_ (within_sub w (by decide +kernel))
  assumption

theorem Chip.learnClearAll_moves {L : List Part} {b m : Chip} (h : Moves L b m)
    (w : within [.rMdl, .mdl] L = true) :
    Moves L b (Chip.learnClearAll m) := by
  unfold Chip.learnClearAll
  refine Moves.foldl ?_ fun y1 a2 h3 => ?_
  · assumption
  · refine Chip.learnClear_moves ?_ (within_sub w (by decide +kernel))
    assumption

theorem Chip.poseCommit_moves {L : List Part} {b m : Chip} (h : Moves L b m)
    (w : within [.rMdl, .rInt, .asleep, .accums, .mdl, .sys, .cyc] L = true) :
    Moves L b (Chip.poseCommit m) := by
  unfold Chip.poseCommit
  extract_lets +onlyGivenNames x1
  clear_value x1
  extract_lets +onlyGivenNames x2
  clear_value x2
  extract_lets +onlyGivenNames x3
  clear_value x3
  refine Moves.ite ?_ ?_
  · refine Chip.wr_moves ?_ (within_sub w (by decide +kernel))
    refine Moves.mdl ?_ (within_sub w (by decide +kernel))
    assumption
  · refine Chip.mdlFlag_moves ?_ (within_sub w (by decide +kernel))
    refine Chip.wr_moves ?_ (within_sub w (by decide +kernel))
    assumption

theorem Chip.yawHost_moves {L : List Part} {b m : Chip} {w' : Nat} (h : Moves L b m)
    (w : within [.rMdl, .rInt, .asleep, .accums, .mdl, .sys, .cyc] L = true) :
    Moves L b (Chip.yawHost m w') := by
  unfold Chip.yawHost
  extract_lets +onlyGivenNames x1
  have h2 : Moves L b x1 := by
    unfold x1
    refine Chip.wr_moves ?_ (within_sub w (by decide +kernel))
    assumption
  clear_value x1
  refine Chip.yawSample_moves ?_ (within_sub w (by decide +kernel))
  assumption

theorem Chip.srcOff_moves {L : List Part} {b m : Chip} {k' : Nat} (h : Moves L b m)
    (w : within [.rMdl, .mdl] L = true) :
    Moves L b (Chip.srcOff m k') := by
  unfold Chip.srcOff
  extract_lets +onlyGivenNames x1
  have h2 : Moves L b x1 := by
    unfold x1
    refine Chip.setSlot_moves ?_ (within_sub w (by decide +kernel))
    refine Chip.setSlotState_moves ?_ (within_sub w (by decide +kernel))
    refine Chip.wr_moves ?_ (within_sub w (by decide +kernel))
    assumption
  clear_value x1
  refine Chip.wrB_moves ?_ (within_sub w (by decide +kernel))
  refine Chip.wr_moves ?_ (within_sub w (by decide +kernel))
  assumption

theorem Chip.srcOn_moves {L : List Part} {b m : Chip} {k' : Nat} (h : Moves L b m)
    (w : within [.rMdl, .rInt, .asleep, .accums, .mdl, .sys, .cyc] L = true) :
    Moves L b (Chip.srcOn m k') := by
  unfold Chip.srcOn
  extract_lets +onlyGivenNames x1
  have h2 : Moves L b x1 := by
    unfold x1
    refine Chip.slotAdopt_moves ?_ (within_sub w (by decide +kernel))
    refine Chip.wr_moves ?_ (within_sub w (by decide +kernel))
    refine Chip.setSlot_moves ?_ (within_sub w (by decide +kernel))
    assumption
  clear_value x1
  extract_lets +onlyGivenNames x3
  have h4 : Moves L b x3 := by
    unfold x3
    refine Chip.slotAcquire_moves ?_ (within_sub w (by decide +kernel))
    refine Chip.learnClear_moves ?_ (within_sub w (by decide +kernel))
    assumption
  clear_value x3
  refine Moves.ite ?_ ?_
  · refine Chip.slotLose_moves ?_ (within_sub w (by decide +kernel))
    assumption
  · assumption

theorem Chip.srcCfgWrite_moves {L : List Part} {b m : Chip} {k' : Nat} {w' : Nat} (h : Moves L b m)
    (w : within [.rHp, .rMb, .rCh, .rTr, .rLat, .rDrv, .rAx, .rWhl, .rMdl, .rBk, .rBst, .rPwr, .rDg, .rDgb, .rCap, .rBcap, .rAdc, .rAs, .rCmp, .rSds, .rAin, .rFe, .rFio, .rTim, .rInt, .rSys, .rSup, .rProt, .rMap, .rNc, .asleep, .accums, .mdl, .sys, .cyc] L = true) :
    Moves L b (Chip.srcCfgWrite m k' w') := by
  unfold Chip.srcCfgWrite
  extract_lets +onlyGivenNames x1
  clear_value x1
  extract_lets +onlyGivenNames x2
  have h3 : Moves L b x2 := by
    unfold x2
    refine Moves.foldl ?_ fun y4 a5 h6 => ?_
    · assumption
    · refine Chip.wrFrom_moves ?_ (within_field _ (within_sub w (by decide +kernel)))
      assumption
  clear_value x2
  refine Moves.ite ?_ ?_
  · refine Moves.ite ?_ ?_
    · refine Chip.srcOff_moves ?_ (within_sub w (by decide +kernel))
      assumption
    · assumption
  · refine Moves.ite ?_ ?_
    · assumption
    · refine Moves.ite ?_ ?_
      · refine Chip.mdlFlag_moves ?_ (within_sub w (by decide +kernel))
        assumption
      · refine Chip.srcOn_moves ?_ (within_sub w (by decide +kernel))
        assumption

theorem Chip.mdlSnapshot_moves {L : List Part} {b m : Chip} (h : Moves L b m)
    (w : within [.rMdl, .frees, .rdata] L = true) :
    Moves L b (Chip.mdlSnapshot m) := by
  unfold Chip.mdlSnapshot
  extract_lets +onlyGivenNames x1
  clear_value x1
  extract_lets +onlyGivenNames x2
  have h3 : Moves L b x2 := by
    unfold x2
    refine Chip.wrTb_moves ?_ (within_sub w (by decide +kernel))
    assumption
  clear_value x2
  extract_lets +onlyGivenNames x4
  clear_value x4
  extract_lets +onlyGivenNames x5
  have h6 : Moves L b x5 := by
    unfold x5
    refine Chip.wr_moves ?_ (within_sub w (by decide +kernel))
    refine Chip.wr_moves ?_ (within_sub w (by decide +kernel))
    assumption
  clear_value x5
  extract_lets +onlyGivenNames x7
  have h8 : Moves L b x7 := by
    unfold x7
    refine Chip.wrFit_moves ?_ (within_sub w (by decide +kernel))
    refine Chip.wrFit_moves ?_ (within_sub w (by decide +kernel))
    assumption
  clear_value x7
  extract_lets +onlyGivenNames x9
  have h10 : Moves L b x9 := by
    unfold x9
    refine Chip.wrFit_moves ?_ (within_sub w (by decide +kernel))
    refine Chip.wr_moves ?_ (within_sub w (by decide +kernel))
    assumption
  clear_value x9
  extract_lets +onlyGivenNames x11
  have h12 : Moves L b x11 := by
    unfold x11
    refine Chip.wrI_moves ?_ (within_sub w (by decide +kernel))
    refine Chip.wrI_moves ?_ (within_sub w (by decide +kernel))
    assumption
  clear_value x11
  refine Moves.rdata ?_ (within_sub w (by decide +kernel))
  assumption

theorem Chip.axSnapshot_moves {L : List Part} {b m : Chip} {a' : Nat} (h : Moves L b m)
    (w : within [.rAx, .frees, .rdata] L = true) :
    Moves L b (Chip.axSnapshot m a') := by
  unfold Chip.axSnapshot
  extract_lets +onlyGivenNames x1
  extract_lets +onlyGivenNames x2
  clear_value x2
  extract_lets +onlyGivenNames x3
  have h4 : Moves L b x3 := by
    unfold x3
    refine Chip.wr_moves ?_ (within_sub w (by decide +kernel))
    refine Chip.wr_moves ?_ (within_sub w (by decide +kernel))
    assumption
  clear_value x3
  extract_lets +onlyGivenNames x5
  have h6 : Moves L b x5 := by
    unfold x5
    refine Chip.wrTb_moves ?_ (within_sub w (by decide +kernel))
    assumption
  clear_value x5
  extract_lets +onlyGivenNames x7
  have h8 : Moves L b x7 := by
    unfold x7
    refine Chip.wrFit_moves ?_ (within_sub w (by decide +kernel))
    refine Chip.wrFit_moves ?_ (within_sub w (by decide +kernel))
    assumption
  clear_value x7
  extract_lets +onlyGivenNames x9
  have h10 : Moves L b x9 := by
    unfold x9
    refine Chip.wrFit_moves ?_ (within_sub w (by decide +kernel))
    refine Chip.wrFit_moves ?_ (within_sub w (by decide +kernel))
    assumption
  clear_value x9
  refine Moves.rdata ?_ (within_sub w (by decide +kernel))
  assumption

theorem Chip.headingSample_moves {L : List Part} {b m : Chip} {p' : Pose} (h : Moves L b m)
    (w : within [.rMdl, .rInt, .asleep, .accums, .mdl, .sys, .cyc] L = true) :
    Moves L b (Chip.headingSample m p') := by
  unfold Chip.headingSample
  extract_lets +onlyGivenNames x1
  have h2 : Moves L b x1 := by
    unfold x1
    split
    · assumption
    · extract_lets +onlyGivenNames x3
      clear_value x3
      extract_lets +onlyGivenNames x4
      clear_value x4
      refine Moves.ite ?_ ?_
      · assumption
      · refine Chip.yawSample_moves ?_ (within_sub w (by decide +kernel))
        assumption
  clear_value x1
  extract_lets +onlyGivenNames x5
  clear_value x5
  refine Moves.ite ?_ ?_
  · refine Moves.mdl ?_ (within_sub w (by decide +kernel))
    assumption
  · assumption

theorem Chip.poseLoop_moves {L : List Part} {b m : Chip} {p' : Pose} {sigma' : Nat} {psiH' : Int} (h : Moves L b m)
    (w : within [.rMdl, .rInt, .asleep, .accums, .mdl, .sys, .cyc] L = true) :
    Moves L b (Chip.poseLoop m p' sigma' psiH') := by
  unfold Chip.poseLoop
  extract_lets +onlyGivenNames x1
  clear_value x1
  extract_lets +onlyGivenNames x2
  clear_value x2
  extract_lets +onlyGivenNames x3
  clear_value x3
  extract_lets +onlyGivenNames x4
  have h5 : Moves L b x4 := by
    unfold x4
    refine Chip.slotMeasure_moves ?_ (within_sub w (by decide +kernel))
    assumption
  clear_value x4
  extract_lets +onlyGivenNames x6
  clear_value x6
  extract_lets +onlyGivenNames x7
  clear_value x7
  extract_lets +onlyGivenNames x8
  clear_value x8
  refine Moves.ite ?_ ?_
  · refine Chip.setSlot_moves ?_ (within_sub w (by decide +kernel))
    assumption
  · assumption

theorem Chip.poseAccept_moves {L : List Part} {b m : Chip} {p' : Pose} {sigma' : Nat} {psiH' : Int} {code' : Nat} (h : Moves L b m)
    (w : within [.rMdl, .rInt, .asleep, .accums, .mdl, .sys, .cyc] L = true) :
    Moves L b (Chip.poseAccept m p' sigma' psiH' code') := by
  unfold Chip.poseAccept
  extract_lets +onlyGivenNames x1
  have h2 : Moves L b x1 := by
    unfold x1
    refine Chip.headingSample_moves ?_ (within_sub w (by decide +kernel))
    refine Chip.poseLoop_moves ?_ (within_sub w (by decide +kernel))
    assumption
  clear_value x1
  extract_lets +onlyGivenNames x3
  clear_value x3
  extract_lets +onlyGivenNames x4
  have h5 : Moves L b x4 := by
    unfold x4
    refine Moves.mdl ?_ (within_sub w (by decide +kernel))
    assumption
  clear_value x4
  refine Chip.wr_moves ?_ (within_sub w (by decide +kernel))
  refine Chip.wr_moves ?_ (within_sub w (by decide +kernel))
  refine Chip.wr_moves ?_ (within_sub w (by decide +kernel))
  refine Chip.wr_moves ?_ (within_sub w (by decide +kernel))
  assumption

theorem Chip.headingLoop_moves {L : List Part} {b m : Chip} {p' : Pose} {psiH' : Int} (h : Moves L b m)
    (w : within [.mdl] L = true) :
    Moves L b (Chip.headingLoop m p' psiH') := by
  unfold Chip.headingLoop
  split
  · assumption
  · extract_lets +onlyGivenNames x1
    clear_value x1
    extract_lets +onlyGivenNames x2
    clear_value x2
    extract_lets +onlyGivenNames x3
    clear_value x3
    extract_lets +onlyGivenNames x4
    clear_value x4
    extract_lets +onlyGivenNames x5
    clear_value x5
    extract_lets +onlyGivenNames x6
    clear_value x6
    refine Moves.mdl ?_ (within_sub w (by decide +kernel))
    assumption

theorem Chip.poseProcess_moves {L : List Part} {b m : Chip} (h : Moves L b m) (w : within [.rMdl, .rInt, .asleep, .accums, .mdl, .sys, .cyc] L = true) :
    Moves L b m.poseProcess := by
  have s : ∀ y v, Moves L b y → Moves L b { y with mdl := v } := fun y v g => Moves.mdl g (within_sub w (by decide +kernel))
  unfold Chip.poseProcess
  split
  · exact h
  · rename_i p _
    have g : Moves L b ({ m with mdl := { m.mdl with pose := none } }.wr MDL_POSE_STAT_BUSY 0 0) :=
      Chip.wr_moves (s _ _ h) (within_sub w (by decide +kernel))
    refine Moves.ite ?_ (Moves.ite ?_ ?_)
    · refine Chip.poseAccept_moves (Chip.slotAcquire_moves (Chip.mdlFlag_moves (s _ _ (Chip.fieldTo_moves g ?_)) ?_) ?_) ?_ <;>
        exact within_sub w (by decide +kernel)
    · refine Chip.wr_moves (Chip.count_moves (Chip.mdlFlag_moves (s _ _ g) ?_) ?_) ?_ <;> exact within_sub w (by decide +kernel)
    · refine Chip.poseAccept_moves (Moves.ite (Chip.headingLoop_moves (s _ _ g) ?_) (s _ _ g)) ?_ <;>
        exact within_sub w (by decide +kernel)

theorem Chip.histPush_moves {L : List Part} {b m : Chip} (h : Moves L b m)
    (w : within [.stamps, .mdl] L = true) :
    Moves L b (Chip.histPush m) := by
  unfold Chip.histPush
  extract_lets +onlyGivenNames x1
  have h2 : Moves L b x1 := by
    unfold x1
    refine Chip.stamp_moves ?_ (within_sub w (by decide +kernel))
    assumption
  clear_value x1
  extract_lets +onlyGivenNames x3
  clear_value x3
  extract_lets +onlyGivenNames x4
  clear_value x4
  refine Moves.ite ?_ ?_
  · refine Moves.mdl ?_ (within_sub w (by decide +kernel))
    assumption
  · assumption

theorem Chip.slipEval_moves {L : List Part} {b m : Chip} (h : Moves L b m)
    (w : within [.rMdl, .rInt, .stamps, .asleep, .accums, .mdl, .sys, .cyc] L = true) :
    Moves L b (Chip.slipEval m) := by
  unfold Chip.slipEval
  extract_lets +onlyGivenNames x1
  have h2 : Moves L b x1 := by
    unfold x1
    refine Chip.stamp_moves ?_ (within_sub w (by decide +kernel))
    assumption
  clear_value x1
  extract_lets +onlyGivenNames x3
  have h4 : Moves L b x3 := by
    unfold x3
    refine Moves.foldl ?_ fun y5 a6 h7 => ?_
    · assumption
    · refine Chip.slipOne_moves ?_ (within_sub w (by decide +kernel))
      assumption
  clear_value x3
  extract_lets +onlyGivenNames x8
  have h9 : Moves L b x8 := by
    unfold x8
    refine Chip.slipEnter_moves ?_ (within_sub w (by decide +kernel))
    assumption
  clear_value x8
  extract_lets +onlyGivenNames x10
  have h11 : Moves L b x10 := by
    unfold x10
    refine Moves.foldl ?_ fun y12 a13 h14 => ?_
    · assumption
    · refine Chip.slipRejoin_moves ?_ (within_sub w (by decide +kernel))
      assumption
  clear_value x10
  refine Moves.ite ?_ ?_
  · refine Moves.foldl ?_ fun y15 a16 h17 => ?_
    · assumption
    · refine Chip.learnOne_moves ?_ (within_sub w (by decide +kernel))
      assumption
  · assumption

theorem Chip.wordTimeout_moves {L : List Part} {b m : Chip} {k' : Nat} (h : Moves L b m)
    (w : within [.rMdl, .rInt, .asleep, .accums, .sys, .cyc] L = true) :
    Moves L b (Chip.wordTimeout m k') := by
  unfold Chip.wordTimeout
  refine Moves.ite ?_ ?_
  · refine Chip.slotLose_moves ?_ (within_sub w (by decide +kernel))
    assumption
  · assumption

theorem Chip.deflNext_moves {L : List Part} {b m : Chip} {d : Nat} (h : Moves L b m) (w : within [.mdl] L = true) :
    Moves L b (m.deflNext d) := by
  have g : ∀ v, Moves L b { m with mdl := v } := fun v => Moves.mdl h (within_sub w (by decide +kernel))
  unfold Chip.deflNext
  extract_lets x
  split
  · exact h
  · exact Moves.ite (g _) (Chip.deflTake_moves (g _) (within_sub w (by decide +kernel)))

theorem Chip.coastEnd_moves {L : List Part} {b m : Chip} (h : Moves L b m)
    (w : within [.rMdl, .rInt, .asleep, .accums, .mdl, .sys, .cyc] L = true) :
    Moves L b (Chip.coastEnd m) := by
  unfold Chip.coastEnd
  refine Moves.ite ?_ ?_
  · refine Chip.chassisTo_moves ?_ (within_sub w (by decide +kernel))
    assumption
  · assumption

theorem Chip.poseTimeout_moves {L : List Part} {b m : Chip} (h : Moves L b m)
    (w : within [.rMdl, .rInt, .asleep, .accums, .sys, .cyc] L = true) :
    Moves L b (Chip.poseTimeout m) := by
  unfold Chip.poseTimeout
  refine Moves.ite ?_ ?_
  · refine Chip.slotLose_moves ?_ (within_sub w (by decide +kernel))
    refine Chip.mdlFlag_moves ?_ (within_sub w (by decide +kernel))
    refine Chip.wr_moves ?_ (within_sub w (by decide +kernel))
    refine Chip.wr_moves ?_ (within_sub w (by decide +kernel))
    assumption
  · assumption

theorem Chip.deflTimeout_moves {L : List Part} {b m : Chip} {d' : Nat} (h : Moves L b m)
    (w : within [.rMdl, .rInt, .asleep, .accums, .mdl, .sys, .cyc] L = true) :
    Moves L b (Chip.deflTimeout m d') := by
  unfold Chip.deflTimeout
  extract_lets +onlyGivenNames x1
  clear_value x1
  extract_lets +onlyGivenNames x2
  clear_value x2
  refine Moves.ite ?_ ?_
  · refine Chip.mdlFlag_moves ?_ (within_sub w (by decide +kernel))
    refine Moves.mdl ?_ (within_sub w (by decide +kernel))
    assumption
  · assumption

theorem Chip.stillTimeout_moves {L : List Part} {b m : Chip} (h : Moves L b m)
    (w : within [.mdl] L = true) :
    Moves L b (Chip.stillTimeout m) := by
  unfold Chip.stillTimeout
  split
  · assumption
  · extract_lets +onlyGivenNames x1
    clear_value x1
    refine Moves.ite ?_ ?_
    · refine Moves.mdl ?_ (within_sub w (by decide +kernel))
      assumption
    · assumption

theorem Chip.slotNext_moves {L : List Part} {b m : Chip} {k' : Nat} (h : Moves L b m)
    (w : within [.rMdl, .rInt, .asleep, .accums, .mdl, .sys, .cyc] L = true) :
    Moves L b (Chip.slotNext m k') := by
  unfold Chip.slotNext
  extract_lets +onlyGivenNames x1
  clear_value x1
  split
  · assumption
  · refine Chip.slotTake_moves ?_ (within_sub w (by decide +kernel))
    refine Chip.setSlot_moves ?_ (within_sub w (by decide +kernel))
    assumption

theorem execDeflectionTimeout_moves {L : List Part} {d' : Df} {s t : State}
    (w : within [.rMdl, .rInt, .asleep, .accums, .mdl, .sys, .cyc] L = true) (e : execDeflectionTimeout d' s = .next t) :
    Moves L s.chip t.chip := by
  unfold execDeflectionTimeout at e
  refine upd_moves (fun m => ?_) e
  refine Chip.deflTimeout_moves ?_ (within_sub w (by decide +kernel))
  exact .refl

theorem execYawHostWrite_moves {L : List Part} {who' : Writer} {w' : Word} {s t : State}
    (w : within [.rMdl, .rInt, .asleep, .accums, .mdl, .sys, .cyc] L = true) (e : execYawHostWrite who' w' s = .next t) :
    Moves L s.chip t.chip := by
  unfold execYawHostWrite at e
  refine upd_moves (fun m => ?_) e
  refine Moves.ite ?_ ?_
  · refine Chip.yawHost_moves ?_ (within_sub w (by decide +kernel))
    exact .refl
  · exact .refl

theorem execSlipEvaluation_moves {L : List Part} {s t : State}
    (w : within [.rMdl, .rInt, .stamps, .asleep, .accums, .mdl, .sys, .cyc] L = true) (e : execSlipEvaluation s = .next t) :
    Moves L s.chip t.chip := by
  unfold execSlipEvaluation at e
  refine upd_moves (fun m => ?_) e
  refine Chip.slipEval_moves ?_ (within_sub w (by decide +kernel))
  exact .refl

theorem execCoastTimeout_moves {L : List Part} {s t : State}
    (w : within [.rMdl, .rInt, .asleep, .accums, .mdl, .sys, .cyc] L = true) (e : execCoastTimeout s = .next t) :
    Moves L s.chip t.chip := by
  unfold execCoastTimeout at e
  refine upd_moves (fun m => ?_) e
  refine Chip.coastEnd_moves ?_ (within_sub w (by decide +kernel))
  exact .refl

theorem execSlotMeasurement_moves {L : List Part} {k' : Ds} {s t : State}
    (w : within [.rMdl, .rInt, .asleep, .accums, .mdl, .sys, .cyc] L = true) (e : execSlotMeasurement k' s = .next t) :
    Moves L s.chip t.chip := by
  unfold execSlotMeasurement at e
  refine upd_moves (fun m => ?_) e
  refine Chip.slotNext_moves ?_ (within_sub w (by decide +kernel))
  exact .refl

theorem execMdlSnapshotRead_moves {L : List Part} {s t : State}
    (w : within [.rMdl, .frees, .rdata] L = true) (e : execMdlSnapshotRead s = .next t) :
    Moves L s.chip t.chip := by
  unfold execMdlSnapshotRead at e
  refine upd_moves (fun m => ?_) e
  refine Chip.mdlSnapshot_moves ?_ (within_sub w (by decide +kernel))
  exact .refl

theorem execAxSnapshotRead_moves {L : List Part} {a' : Ax} {s t : State}
    (w : within [.rAx, .frees, .rdata] L = true) (e : execAxSnapshotRead a' s = .next t) :
    Moves L s.chip t.chip := by
  unfold execAxSnapshotRead at e
  refine upd_moves (fun m => ?_) e
  refine Chip.axSnapshot_moves ?_ (within_sub w (by decide +kernel))
  exact .refl

theorem execDeflectionSample_moves {L : List Part} {d' : Df} {s t : State}
    (w : within [.mdl] L = true) (e : execDeflectionSample d' s = .next t) :
    Moves L s.chip t.chip := by
  unfold execDeflectionSample at e
  refine upd_moves (fun m => ?_) e
  refine Chip.deflNext_moves ?_ (within_sub w (by decide +kernel))
  exact .refl

theorem execAxCfgWrite_moves {L : List Part} {who' : Writer} {a' : Ax} {w' : Word} {s t : State}
    (w : within [.rAx, .axes, .cyc] L = true) (e : execAxCfgWrite who' a' w' s = .next t) :
    Moves L s.chip t.chip := by
  unfold execAxCfgWrite at e
  refine upd_moves (fun m => ?_) e
  refine Moves.ite ?_ ?_
  · refine Chip.axCfgWrite_moves ?_ (within_sub w (by decide +kernel))
    exact .refl
  · exact .refl

theorem execStillTimer_moves {L : List Part} {s t : State}
    (w : within [.mdl] L = true) (e : execStillTimer s = .next t) :
    Moves L s.chip t.chip := by
  unfold execStillTimer at e
  refine upd_moves (fun m => ?_) e
  refine Chip.stillTimeout_moves ?_ (within_sub w (by decide +kernel))
  exact .refl

theorem execYawSourceTimeout_moves {L : List Part} {s t : State}
    (w : within [.rMdl, .rInt, .asleep, .accums, .mdl, .sys, .cyc] L = true) (e : execYawSourceTimeout s = .next t) :
    Moves L s.chip t.chip := by
  unfold execYawSourceTimeout at e
  refine upd_moves (fun m => ?_) e
  refine Chip.yawSelect_moves ?_ (within_sub w (by decide +kernel))
  exact .refl

theorem execFieldSet_moves {L : List Part} {who' : Writer} {s t : State}
    (w : within [.mdl] L = true) (e : execFieldSet who' s = .next t) :
    Moves L s.chip t.chip := by
  unfold execFieldSet at e
  refine upd_moves (fun m => ?_) e
  refine Moves.ite ?_ ?_
  · refine Chip.fieldSetCmd_moves ?_ (within_sub w (by decide +kernel))
    exact .refl
  · exact .refl

theorem execLearnClr_moves {L : List Part} {who' : Writer} {s t : State}
    (w : within [.rMdl, .mdl] L = true) (e : execLearnClr who' s = .next t) :
    Moves L s.chip t.chip := by
  unfold execLearnClr at e
  refine upd_moves (fun m => ?_) e
  refine Moves.ite ?_ ?_
  · refine Chip.learnClearAll_moves ?_ (within_sub w (by decide +kernel))
    exact .refl
  · exact .refl

theorem execPoseCommit_moves {L : List Part} {who' : Writer} {s t : State}
    (w : within [.rMdl, .rInt, .asleep, .accums, .mdl, .sys, .cyc] L = true) (e : execPoseCommit who' s = .next t) :
    Moves L s.chip t.chip := by
  unfold execPoseCommit at e
  refine upd_moves (fun m => ?_) e
  refine Moves.ite ?_ ?_
  · refine Chip.poseCommit_moves ?_ (within_sub w (by decide +kernel))
    exact .refl
  · exact .refl

theorem execMdlEnable_moves {L : List Part} {who' : Writer} {w' : Word} {s t : State}
    (w : within [.rMdl, .rInt, .frees, .asleep, .accums, .mdl, .sys, .cyc] L = true) (e : execMdlEnable who' w' s = .next t) :
    Moves L s.chip t.chip := by
  unfold execMdlEnable at e
  refine upd_moves (fun m => ?_) e
  refine Moves.ite ?_ ?_
  · refine Chip.mdlCfgWrite_moves ?_ (within_sub w (by decide +kernel))
    exact .refl
  · exact .refl

theorem execMdlHistoryEntry_moves {L : List Part} {s t : State}
    (w : within [.stamps, .mdl] L = true) (e : execMdlHistoryEntry s = .next t) :
    Moves L s.chip t.chip := by
  unfold execMdlHistoryEntry at e
  refine upd_moves (fun m => ?_) e
  refine Chip.histPush_moves ?_ (within_sub w (by decide +kernel))
  exact .refl

theorem execMdlSrcEnable_moves {L : List Part} {who' : Writer} {k' : Ds} {w' : Word} {s t : State}
    (w : within [.rHp, .rMb, .rCh, .rTr, .rLat, .rDrv, .rAx, .rWhl, .rMdl, .rBk, .rBst, .rPwr, .rDg, .rDgb, .rCap, .rBcap, .rAdc, .rAs, .rCmp, .rSds, .rAin, .rFe, .rFio, .rTim, .rInt, .rSys, .rSup, .rProt, .rMap, .rNc, .asleep, .accums, .mdl, .sys, .cyc] L = true) (e : execMdlSrcEnable who' k' w' s = .next t) :
    Moves L s.chip t.chip := by
  unfold execMdlSrcEnable at e
  refine upd_moves (fun m => ?_) e
  refine Moves.ite ?_ ?_
  · refine Chip.srcCfgWrite_moves ?_ (within_sub w (by decide +kernel))
    exact .refl
  · exact .refl

theorem execSlotWordTimeout_moves {L : List Part} {k' : Ds} {s t : State}
    (w : within [.rMdl, .rInt, .asleep, .accums, .sys, .cyc] L = true) (e : execSlotWordTimeout k' s = .next t) :
    Moves L s.chip t.chip := by
  unfold execSlotWordTimeout at e
  refine upd_moves (fun m => ?_) e
  refine Chip.wordTimeout_moves ?_ (within_sub w (by decide +kernel))
  exact .refl

theorem execPoseTimeout_moves {L : List Part} {s t : State}
    (w : within [.rMdl, .rInt, .asleep, .accums, .sys, .cyc] L = true) (e : execPoseTimeout s = .next t) :
    Moves L s.chip t.chip := by
  unfold execPoseTimeout at e
  refine upd_moves (fun m => ?_) e
  refine Chip.poseTimeout_moves ?_ (within_sub w (by decide +kernel))
  exact .refl

end Sys2Proof.Machine
end

