-- ==== Sys2Proof/Laws/MovesAnalog.lean ====
section
/-! SUPPORT. Each operation of Machine/Analog.lean moves the block within the parts it names. -/

-- Theorem by theorem: many at once each take a thread's stack, and the package as one text ran out of them.
set_option Elab.async false

namespace Sys2Proof.Machine

theorem Chip.asCtl_moves {L : List Part} {b m : Chip} {w' : Nat} (h : Moves L b m)
    (w : within [.rAdc, .rAs, .assay] L = true) :
    Moves L b (Chip.asCtl m w') := by
  unfold Chip.asCtl
  extract_lets +onlyGivenNames x1
  have h2 : Moves L b x1 := by
    unfold x1
    refine Chip.wrFrom_moves ?_ (within_sub w (by decide +kernel))
    assumption
  clear_value x1
  extract_lets +onlyGivenNames x3
  have h4 : Moves L b x3 := by
    unfold x3
    refine Chip.wr_moves ?_ (within_sub w (by decide +kernel))
    refine Chip.wr_moves ?_ (within_sub w (by decide +kernel))
    assumption
  clear_value x3
  refine Moves.ite ?_ ?_
  · refine Moves.ite ?_ ?_
    · assumption
    · refine Chip.wr_moves ?_ (within_sub w (by decide +kernel))
      refine Moves.assay ?_ (within_sub w (by decide +kernel))
      assumption
  · refine Moves.ite ?_ ?_
    · refine Chip.asStop_moves ?_ (within_sub w (by decide +kernel))
      assumption
    · assumption

theorem Chip.cmpWrite_moves {L : List Part} {b m : Chip} {n' : Nat} {w' : Nat} {thr' : Bool} (h : Moves L b m)
    (w : within [.rHp, .rMb, .rCh, .rTr, .rLat, .rDrv, .rAx, .rWhl, .rMdl, .rBk, .rBst, .rPwr, .rDg, .rDgb, .rCap, .rBcap, .rAdc, .rAs, .rCmp, .rSds, .rAin, .rFe, .rFio, .rTim, .rInt, .rSys, .rSup, .rProt, .rMap, .rNc, .asleep, .accums, .cmp, .sys, .cyc] L = true) :
    Moves L b (Chip.cmpWrite m n' w' thr') := by
  unfold Chip.cmpWrite
  extract_lets +onlyGivenNames x1
  clear_value x1
  extract_lets +onlyGivenNames x2
  unfold x2
  clear_value x2
  extract_lets +onlyGivenNames x3
  have h4 : Moves L b x3 := by
    unfold x3
    refine Moves.foldl ?_ fun y5 a6 h7 => ?_
    · assumption
    · refine Chip.wrFrom_moves ?_ (within_field _ (within_sub w (by decide +kernel)))
      assumption
  clear_value x3
  extract_lets +onlyGivenNames x8
  have h9 : Moves L b x8 := by
    unfold x8
    refine Chip.wr_moves ?_ (within_sub w (by decide +kernel))
    refine Chip.wr_moves ?_ (within_sub w (by decide +kernel))
    assumption
  clear_value x8
  extract_lets +onlyGivenNames x10
  clear_value x10
  refine Moves.ite ?_ ?_
  · refine Moves.ite ?_ ?_
    · refine Chip.wrFrom_moves ?_ (within_sub w (by decide +kernel))
      refine Chip.wrFrom_moves ?_ (within_sub w (by decide +kernel))
      assumption
    · refine Chip.cmpFlag_moves ?_ (within_sub w (by decide +kernel))
      assumption
  · refine Moves.ite ?_ ?_
    · refine Moves.ite ?_ ?_
      · assumption
      · refine Chip.wr_moves ?_ (within_sub w (by decide +kernel))
        refine Chip.wr_moves ?_ (within_sub w (by decide +kernel))
        refine Chip.wr_moves ?_ (within_sub w (by decide +kernel))
        assumption
    · refine Moves.ite ?_ ?_
      · refine Chip.cmpFlag_moves ?_ (within_sub w (by decide +kernel))
        assumption
      · refine Moves.ite ?_ ?_
        · refine Chip.setCmp_moves ?_ (within_sub w (by decide +kernel))
          assumption
        · assumption

theorem Chip.sdsWrite_moves {L : List Part} {b m : Chip} {n' : Nat} {w' : Nat} {thr' : Bool} (h : Moves L b m)
    (w : within [.rHp, .rMb, .rCh, .rTr, .rLat, .rDrv, .rAx, .rWhl, .rMdl, .rBk, .rBst, .rPwr, .rDg, .rDgb, .rCap, .rBcap, .rAdc, .rAs, .rCmp, .rSds, .rAin, .rFe, .rFio, .rTim, .rInt, .rSys, .rSup, .rProt, .rMap, .rNc, .asleep, .accums, .sds, .sys, .cyc] L = true) :
    Moves L b (Chip.sdsWrite m n' w' thr') := by
  unfold Chip.sdsWrite
  extract_lets +onlyGivenNames x1
  clear_value x1
  extract_lets +onlyGivenNames x2
  unfold x2
  clear_value x2
  extract_lets +onlyGivenNames x3
  clear_value x3
  extract_lets +onlyGivenNames x4
  have h5 : Moves L b x4 := by
    unfold x4
    refine Moves.foldl ?_ fun y6 a7 h8 => ?_
    · assumption
    · refine Chip.wrFrom_moves ?_ (within_field _ (within_sub w (by decide +kernel)))
      assumption
  clear_value x4
  extract_lets +onlyGivenNames x9
  clear_value x9
  extract_lets +onlyGivenNames x10
  have h11 : Moves L b x10 := by
    unfold x10
    refine Chip.wr_moves ?_ (within_sub w (by decide +kernel))
    refine Chip.setSds_moves ?_ (within_sub w (by decide +kernel))
    refine Chip.wr_moves ?_ (within_sub w (by decide +kernel))
    refine Chip.wr_moves ?_ (within_sub w (by decide +kernel))
    assumption
  clear_value x10
  extract_lets +onlyGivenNames x12
  clear_value x12
  refine Moves.ite ?_ ?_
  · refine Moves.ite ?_ ?_
    · refine Chip.wrFrom_moves ?_ (within_sub w (by decide +kernel))
      refine Chip.wrFrom_moves ?_ (within_sub w (by decide +kernel))
      assumption
    · refine Chip.sdsFlag_moves ?_ (within_sub w (by decide +kernel))
      assumption
  · refine Moves.ite ?_ ?_
    · refine Moves.ite ?_ ?_
      · assumption
      · refine Chip.wr_moves ?_ (within_sub w (by decide +kernel))
        refine Chip.setSds_moves ?_ (within_sub w (by decide +kernel))
        refine Chip.wr_moves ?_ (within_sub w (by decide +kernel))
        refine Chip.wr_moves ?_ (within_sub w (by decide +kernel))
        refine Chip.wr_moves ?_ (within_sub w (by decide +kernel))
        assumption
    · refine Moves.ite ?_ ?_
      · refine Chip.setSds_moves ?_ (within_sub w (by decide +kernel))
        assumption
      · assumption

theorem Chip.adcReadOld_moves {L : List Part} {b m : Chip} {u' : Nat} {o' : AdcOld} (h : Moves L b m)
    (w : within [.rAdc, .rdata, .cyc] L = true) :
    Moves L b (Chip.adcReadOld m u' o') := by
  unfold Chip.adcReadOld
  extract_lets +onlyGivenNames x1
  have h2 : Moves L b x1 := by
    unfold x1
    refine Chip.wrB_moves ?_ (within_sub w (by decide +kernel))
    refine Chip.wr_moves ?_ (within_sub w (by decide +kernel))
    refine Chip.wr_moves ?_ (within_sub w (by decide +kernel))
    assumption
  clear_value x1
  extract_lets +onlyGivenNames x3
  have h4 : Moves L b x3 := by
    unfold x3
    refine Chip.wrTb_moves ?_ (within_sub w (by decide +kernel))
    assumption
  clear_value x3
  extract_lets +onlyGivenNames x5
  have h6 : Moves L b x5 := by
    unfold x5
    refine Moves.ite ?_ ?_
    · refine Chip.unsetFlag_moves ?_ (within_sub w (by decide +kernel))
      assumption
    · assumption
  clear_value x5
  refine Moves.rdata ?_ (within_sub w (by decide +kernel))
  assumption

theorem Chip.adcRead_moves {L : List Part} {b m : Chip} {u' : Nat} (h : Moves L b m)
    (w : within [.rAdc, .rdata, .cyc] L = true) :
    Moves L b (Chip.adcRead m u') := by
  unfold Chip.adcRead
  refine Moves.ite ?_ ?_
  · split
    · refine Chip.adcReadOld_moves ?_ (within_sub w (by decide +kernel))
      assumption
    · extract_lets +onlyGivenNames x1
      clear_value x1
      extract_lets +onlyGivenNames x2
      have h3 : Moves L b x2 := by
        unfold x2
        refine Chip.wrB_moves ?_ (within_sub w (by decide +kernel))
        refine Chip.wr_moves ?_ (within_sub w (by decide +kernel))
        refine Chip.wr_moves ?_ (within_sub w (by decide +kernel))
        assumption
      clear_value x2
      extract_lets +onlyGivenNames x4
      have h5 : Moves L b x4 := by
        unfold x4
        refine Chip.wr_moves ?_ (within_sub w (by decide +kernel))
        refine Chip.wrTb_moves ?_ (within_sub w (by decide +kernel))
        assumption
      clear_value x4
      refine Moves.rdata ?_ (within_sub w (by decide +kernel))
      assumption
  · refine Moves.rdata ?_ (within_sub w (by decide +kernel))
    assumption

theorem Chip.asRead_moves {L : List Part} {b m : Chip} {e' : Nat} (h : Moves L b m)
    (w : within [.rdata] L = true) :
    Moves L b (Chip.asRead m e') := by
  unfold Chip.asRead
  refine Moves.rdata ?_ (within_sub w (by decide +kernel))
  assumption

theorem Chip.cmpRead_moves {L : List Part} {b m : Chip} {n' : Nat} (h : Moves L b m)
    (w : within [.rCmp, .rdata] L = true) :
    Moves L b (Chip.cmpRead m n') := by
  unfold Chip.cmpRead
  extract_lets +onlyGivenNames x1
  have h2 : Moves L b x1 := by
    unfold x1
    refine Chip.wrTb_moves ?_ (within_sub w (by decide +kernel))
    assumption
  clear_value x1
  refine Moves.ite ?_ ?_
  · refine Moves.rdata ?_ (within_sub w (by decide +kernel))
    assumption
  · refine Moves.rdata ?_ (within_sub w (by decide +kernel))
    assumption

theorem Chip.sdsRead_moves {L : List Part} {b m : Chip} {n' : Nat} (h : Moves L b m)
    (w : within [.rSds, .rdata] L = true) :
    Moves L b (Chip.sdsRead m n') := by
  unfold Chip.sdsRead
  extract_lets +onlyGivenNames x1
  clear_value x1
  refine Moves.ite ?_ ?_
  · split
    · extract_lets +onlyGivenNames x2
      have h3 : Moves L b x2 := by
        unfold x2
        refine Chip.wr_moves ?_ (within_sub w (by decide +kernel))
        refine Chip.wrTb_moves ?_ (within_sub w (by decide +kernel))
        assumption
      clear_value x2
      refine Moves.rdata ?_ (within_sub w (by decide +kernel))
      assumption
  · refine Moves.rdata ?_ (within_sub w (by decide +kernel))
    assumption

theorem Chip.asEnd_moves {L : List Part} {b m : Chip} {results' : List Int} (h : Moves L b m)
    (w : within [.rAdc, .rAs, .rInt, .asleep, .accums, .assay, .sys, .cyc] L = true) :
    Moves L b (Chip.asEnd m results') := by
  unfold Chip.asEnd
  split
  · assumption
  · refine Moves.ite ?_ ?_
    · refine Chip.asStore_moves ?_ (within_sub w (by decide +kernel))
      assumption
    · assumption

theorem Chip.sdsEnd_moves {L : List Part} {b m : Chip} {n' : Nat} (h : Moves L b m)
    (w : within [.rLat, .rSds, .rInt, .asleep, .accums, .chans, .sds, .sys, .cyc] L = true) :
    Moves L b (Chip.sdsEnd m n') := by
  unfold Chip.sdsEnd
  extract_lets +onlyGivenNames x1
  clear_value x1
  split
  · assumption
  · refine Chip.sdsJudge_moves ?_ (within_sub w (by decide +kernel))
    refine Chip.setSds_moves ?_ (within_sub w (by decide +kernel))
    assumption

theorem Chip.asStart_moves {L : List Part} {b m : Chip} (h : Moves L b m)
    (w : within [.rAdc, .rAs, .rInt, .asleep, .accums, .adc, .assay, .sys, .cyc] L = true) :
    Moves L b (Chip.asStart m) := by
  unfold Chip.asStart
  refine Moves.ite ?_ ?_
  · refine Chip.asTake_moves ?_ (within_sub w (by decide +kernel))
    assumption
  · assumption

theorem Chip.sdsPull_moves {L : List Part} {b m : Chip} {n' : Nat} {up' : Bool} {down' : Bool} (h : Moves L b m)
    (w : within [.stamps, .sds] L = true) :
    Moves L b (Chip.sdsPull m n' up' down') := by
  unfold Chip.sdsPull
  extract_lets +onlyGivenNames x1
  clear_value x1
  refine Moves.ite ?_ ?_
  · refine Chip.setSds_moves ?_ (within_sub w (by decide +kernel))
    refine Chip.stamp_moves ?_ (within_sub w (by decide +kernel))
    assumption
  · assumption

theorem Chip.sdsBlock_moves {L : List Part} {b m : Chip} {n' : Nat} (h : Moves L b m)
    (w : within [.rSds, .rInt, .asleep, .accums, .sds, .sys, .cyc] L = true) :
    Moves L b (Chip.sdsBlock m n') := by
  unfold Chip.sdsBlock
  extract_lets +onlyGivenNames x1
  clear_value x1
  split
  · assumption
  · extract_lets +onlyGivenNames x2
    have h3 : Moves L b x2 := by
      unfold x2
      refine Chip.wr_moves ?_ (within_sub w (by decide +kernel))
      refine Chip.setSds_moves ?_ (within_sub w (by decide +kernel))
      assumption
    clear_value x2
    refine Moves.ite ?_ ?_
    · refine Chip.sdsFlag_moves ?_ (within_sub w (by decide +kernel))
      refine Chip.count_moves ?_ (within_sub w (by decide +kernel))
      assumption
    · assumption

theorem Chip.adcResult_moves {L : List Part} {b m : Chip} {u' : Nat} {v' : Int} (h : Moves L b m)
    (w : within [.rAdc, .rInt, .frees, .asleep, .accums, .mdl, .adc, .sys, .cyc] L = true) :
    Moves L b (Chip.adcResult m u' v') := by
  unfold Chip.adcResult
  extract_lets +onlyGivenNames x1
  clear_value x1
  refine Moves.ite ?_ ?_
  · refine Chip.adcLand_moves ?_ (within_sub w (by decide +kernel))
    assumption
  · assumption

theorem execCmpTbRead_moves {L : List Part} {n' : Cmp} {s t : State}
    (w : within [.rCmp, .rdata] L = true) (e : execCmpTbRead n' s = .next t) :
    Moves L s.chip t.chip := by
  unfold execCmpTbRead at e
  refine upd_moves (fun m => ?_) e
  refine Chip.cmpRead_moves ?_ (within_sub w (by decide +kernel))
  exact .refl

theorem execAssayEntryStart_moves {L : List Part} {s t : State}
    (w : within [.rAdc, .rAs, .rInt, .asleep, .accums, .adc, .assay, .sys, .cyc] L = true) (e : execAssayEntryStart s = .next t) :
    Moves L s.chip t.chip := by
  unfold execAssayEntryStart at e
  refine upd_moves (fun m => ?_) e
  refine Chip.asStart_moves ?_ (within_sub w (by decide +kernel))
  exact .refl

theorem execAdcResult_moves {L : List Part} {u' : Adc} {v' : NanoVolt} {s t : State}
    (w : within [.rAdc, .rInt, .frees, .asleep, .accums, .mdl, .adc, .sys, .cyc] L = true) (e : execAdcResult u' v' s = .next t) :
    Moves L s.chip t.chip := by
  unfold execAdcResult at e
  refine upd_moves (fun m => ?_) e
  refine Chip.adcResult_moves ?_ (within_sub w (by decide +kernel))
  exact .refl

theorem execSdsDiagEvaluation_moves {L : List Part} {n' : Sds} {pinMv' : Int} {s t : State}
    (w : within [.rSds, .rInt, .stamps, .asleep, .accums, .sds, .sys, .cyc] L = true) (e : execSdsDiagEvaluation n' pinMv' s = .next t) :
    Moves L s.chip t.chip := by
  unfold execSdsDiagEvaluation at e
  refine upd_moves (fun m => ?_) e
  refine Moves.ite ?_ ?_
  · refine Chip.sdsDiag_moves ?_ (within_sub w (by decide +kernel))
    refine Chip.stamp_moves ?_ (within_sub w (by decide +kernel))
    exact .refl
  · exact .refl

theorem execAssayStart_moves {L : List Part} {who' : Writer} {w' : Word} {s t : State}
    (w : within [.rAdc, .rAs, .assay] L = true) (e : execAssayStart who' w' s = .next t) :
    Moves L s.chip t.chip := by
  unfold execAssayStart at e
  refine upd_moves (fun m => ?_) e
  refine Moves.ite ?_ ?_
  · refine Chip.asCtl_moves ?_ (within_sub w (by decide +kernel))
    exact .refl
  · exact .refl

theorem execSdsPullTest_moves {L : List Part} {n' : Sds} {up' : Bool} {down' : Bool} {s t : State}
    (w : within [.stamps, .sds] L = true) (e : execSdsPullTest n' up' down' s = .next t) :
    Moves L s.chip t.chip := by
  unfold execSdsPullTest at e
  refine upd_moves (fun m => ?_) e
  refine Chip.sdsPull_moves ?_ (within_sub w (by decide +kernel))
  exact .refl

theorem execSdsExcursionEnd_moves {L : List Part} {n' : Sds} {s t : State}
    (w : within [.rLat, .rSds, .rInt, .asleep, .accums, .chans, .sds, .sys, .cyc] L = true) (e : execSdsExcursionEnd n' s = .next t) :
    Moves L s.chip t.chip := by
  unfold execSdsExcursionEnd at e
  refine upd_moves (fun m => ?_) e
  refine Chip.sdsEnd_moves ?_ (within_sub w (by decide +kernel))
  exact .refl

theorem execComparatorFirstEval_moves {L : List Part} {u' : CmpUnit} {code' : Nat} {s t : State}
    (w : within [.rCmp, .rSds] L = true) (e : execComparatorFirstEval u' code' s = .next t) :
    Moves L s.chip t.chip := by
  unfold execComparatorFirstEval at e
  refine upd_moves (fun m => ?_) e
  split
  · refine Chip.cmpFirst_moves ?_ (within_sub w (by decide +kernel))
    exact .refl
  · refine Chip.sdsFirst_moves ?_ (within_sub w (by decide +kernel))
    exact .refl

theorem execSdsDropRead_moves {L : List Part} {n' : Sds} {s t : State}
    (w : within [.rSds, .rdata] L = true) (e : execSdsDropRead n' s = .next t) :
    Moves L s.chip t.chip := by
  unfold execSdsDropRead at e
  refine upd_moves (fun m => ?_) e
  refine Chip.sdsRead_moves ?_ (within_sub w (by decide +kernel))
  exact .refl

theorem execComparatorChange_moves {L : List Part} {u' : CmpUnit} {code' : Nat} {firstTb' : Nat} {s t : State}
    (w : within [.rCmp, .rSds, .rInt, .asleep, .accums, .cmp, .sds, .sys, .cyc] L = true) (e : execComparatorChange u' code' firstTb' s = .next t) :
    Moves L s.chip t.chip := by
  unfold execComparatorChange at e
  refine upd_moves (fun m => ?_) e
  split
  · refine Chip.cmpChange_moves ?_ (within_sub w (by decide +kernel))
    exact .refl
  · refine Chip.sdsChange_moves ?_ (within_sub w (by decide +kernel))
    exact .refl

theorem execAdcStart_moves {L : List Part} {who' : Writer} {u' : Adc} {s t : State}
    (w : within [.rAdc, .rInt, .asleep, .accums, .adc, .sys, .cyc] L = true) (e : execAdcStart who' u' s = .next t) :
    Moves L s.chip t.chip := by
  unfold execAdcStart at e
  refine upd_moves (fun m => ?_) e
  refine Moves.ite ?_ ?_
  · refine Chip.adcBegin_moves ?_ (within_sub w (by decide +kernel))
    exact .refl
  · exact .refl

theorem execAdcCtlWrite_moves {L : List Part} {who' : Writer} {u' : Adc} {w' : Word} {s t : State}
    (w : within [.rAdc, .rInt, .asleep, .accums, .adc, .sys, .cyc] L = true) (e : execAdcCtlWrite who' u' w' s = .next t) :
    Moves L s.chip t.chip := by
  unfold execAdcCtlWrite at e
  refine upd_moves (fun m => ?_) e
  refine Moves.ite ?_ ?_
  · refine Chip.adcCtl_moves ?_ (within_sub w (by decide +kernel))
    exact .refl
  · exact .refl

theorem execAdcResRead_moves {L : List Part} {u' : Adc} {s t : State}
    (w : within [.rAdc, .rdata, .cyc] L = true) (e : execAdcResRead u' s = .next t) :
    Moves L s.chip t.chip := by
  unfold execAdcResRead at e
  refine upd_moves (fun m => ?_) e
  refine Chip.adcRead_moves ?_ (within_sub w (by decide +kernel))
  exact .refl

theorem execAdcSelWrite_moves {L : List Part} {who' : Writer} {u' : Adc} {w' : Word} {s t : State}
    (w : within [.rAdc, .rInt, .asleep, .accums, .adc, .sys, .cyc] L = true) (e : execAdcSelWrite who' u' w' s = .next t) :
    Moves L s.chip t.chip := by
  unfold execAdcSelWrite at e
  refine upd_moves (fun m => ?_) e
  refine Moves.ite ?_ ?_
  · refine Chip.adcSel_moves ?_ (within_sub w (by decide +kernel))
    exact .refl
  · exact .refl

theorem execComparatorCfgWrite_moves {L : List Part} {who' : Writer} {u' : CmpUnit} {thr' : Bool} {w' : Word} {s t : State}
    (w : within [.rHp, .rMb, .rCh, .rTr, .rLat, .rDrv, .rAx, .rWhl, .rMdl, .rBk, .rBst, .rPwr, .rDg, .rDgb, .rCap, .rBcap, .rAdc, .rAs, .rCmp, .rSds, .rAin, .rFe, .rFio, .rTim, .rInt, .rSys, .rSup, .rProt, .rMap, .rNc, .asleep, .accums, .cmp, .sds, .sys, .cyc] L = true) (e : execComparatorCfgWrite who' u' thr' w' s = .next t) :
    Moves L s.chip t.chip := by
  unfold execComparatorCfgWrite at e
  refine upd_moves (fun m => ?_) e
  refine Moves.ite ?_ ?_
  · exact .refl
  · split
    · refine Moves.ite ?_ ?_
      · refine Chip.cmpWrite_moves ?_ (within_sub w (by decide +kernel))
        exact .refl
      · exact .refl
    · refine Moves.ite ?_ ?_
      · refine Chip.sdsWrite_moves ?_ (within_sub w (by decide +kernel))
        exact .refl
      · exact .refl

theorem execAssayEntryStore_moves {L : List Part} {results' : List NanoVolt} {s t : State}
    (w : within [.rAdc, .rAs, .rInt, .asleep, .accums, .assay, .sys, .cyc] L = true) (e : execAssayEntryStore results' s = .next t) :
    Moves L s.chip t.chip := by
  unfold execAssayEntryStore at e
  refine upd_moves (fun m => ?_) e
  refine Chip.asEnd_moves ?_ (within_sub w (by decide +kernel))
  exact .refl

theorem execSdsBlocked_moves {L : List Part} {n' : Sds} {s t : State}
    (w : within [.rSds, .rInt, .asleep, .accums, .sds, .sys, .cyc] L = true) (e : execSdsBlocked n' s = .next t) :
    Moves L s.chip t.chip := by
  unfold execSdsBlocked at e
  refine upd_moves (fun m => ?_) e
  refine Chip.sdsBlock_moves ?_ (within_sub w (by decide +kernel))
  exact .refl

end Sys2Proof.Machine
end

