-- ==== Sys2Proof/Laws/MovesEvent.lean ====
section
/-! SUPPORT. Each operation of Machine/Event.lean moves the block within the parts it names. -/

-- Theorem by theorem: many at once each take a thread's stack, and the package as one text ran out of them.
set_option Elab.async false

namespace Sys2Proof.Machine

theorem Chip.touch_moves {L : List Part} {b m : Chip} {ch' : Nat} (h : Moves L b m)
    (w : within [.chans] L = true) :
    Moves L b (Chip.touch m ch') := by
  unfold Chip.touch
  refine Chip.setChan_moves ?_ (within_sub w (by decide +kernel))
  assumption

theorem Chip.chCtlWrite_moves {L : List Part} {b m : Chip} {ch' : Nat} {w' : Nat} (h : Moves L b m)
    (w : within [.rCh, .rLat, .rCap, .rInt, .asleep, .accums, .chans, .capReq, .capTb, .sys, .cyc] L = true) :
    Moves L b (Chip.chCtlWrite m ch' w') := by
  unfold Chip.chCtlWrite
  extract_lets +onlyGivenNames x1
  clear_value x1
  refine Moves.ite ?_ ?_
  · refine Chip.chFlag_moves ?_ (within_sub w (by decide +kernel))
    assumption
  · split
    · refine Moves.ite ?_ ?_
      · refine Chip.wr_moves ?_ (within_sub w (by decide +kernel))
        assumption
      · refine Chip.latFlag_moves ?_ (within_sub w (by decide +kernel))
        assumption
    · refine Chip.capFill_moves ?_ (within_sub w (by decide +kernel))
      refine Chip.touch_moves ?_ (within_sub w (by decide +kernel))
      refine Chip.wr_moves ?_ (within_sub w (by decide +kernel))
      assumption

theorem Chip.chAxisWrite_moves {L : List Part} {b m : Chip} {ch' : Nat} {w' : Nat} (h : Moves L b m)
    (w : within [.rCh, .rInt, .asleep, .accums, .chans, .sys, .cyc] L = true) :
    Moves L b (Chip.chAxisWrite m ch' w') := by
  unfold Chip.chAxisWrite
  refine Moves.ite ?_ ?_
  · refine Chip.chFlag_moves ?_ (within_sub w (by decide +kernel))
    assumption
  · refine Chip.touch_moves ?_ (within_sub w (by decide +kernel))
    refine Chip.wrFrom_moves ?_ (within_sub w (by decide +kernel))
    assumption

theorem Chip.chAdvWrite_moves {L : List Part} {b m : Chip} {ch' : Nat} {w' : Nat} (h : Moves L b m)
    (w : within [.rCh, .chans] L = true) :
    Moves L b (Chip.chAdvWrite m ch' w') := by
  unfold Chip.chAdvWrite
  extract_lets +onlyGivenNames x1
  clear_value x1
  extract_lets +onlyGivenNames x2
  have h3 : Moves L b x2 := by
    unfold x2
    refine Chip.wrFrom_moves ?_ (within_sub w (by decide +kernel))
    refine Chip.wrFrom_moves ?_ (within_sub w (by decide +kernel))
    assumption
  clear_value x2
  extract_lets +onlyGivenNames x4
  have h5 : Moves L b x4 := by
    unfold x4
    refine Chip.touch_moves ?_ (within_sub w (by decide +kernel))
    assumption
  clear_value x4
  extract_lets +onlyGivenNames x6
  clear_value x6
  refine Moves.ite ?_ ?_
  · refine Chip.setChan_moves ?_ (within_sub w (by decide +kernel))
    assumption
  · assumption

theorem Chip.chCfgWrite_moves {L : List Part} {b m : Chip} {ch' : Nat} {reg' : Nat} {w' : Nat} (h : Moves L b m)
    (w : within [.rCh, .rLat, .rCap, .rInt, .asleep, .accums, .chans, .capReq, .capTb, .sys, .cyc] L = true) :
    Moves L b (Chip.chCfgWrite m ch' reg' w') := by
  unfold Chip.chCfgWrite
  refine Moves.ite ?_ ?_
  · refine Chip.chCtlWrite_moves ?_ (within_sub w (by decide +kernel))
    assumption
  · refine Moves.ite ?_ ?_
    · refine Chip.chAxisWrite_moves ?_ (within_sub w (by decide +kernel))
      assumption
    · refine Chip.chAdvWrite_moves ?_ (within_sub w (by decide +kernel))
      assumption

theorem Chip.cancelAll_moves {L : List Part} {b m : Chip} {who' : Writer} {ch' : Nat} (h : Moves L b m)
    (w : within [.rCh, .rTr, .rDrv, .rBk, .rBst, .rDg, .rDgb, .rCap, .rInt, .rMap, .frees, .asleep, .accums, .pool, .poolLast, .chans, .banks, .boost, .bcap, .jour, .sys, .cyc] L = true) :
    Moves L b (Chip.cancelAll m who' ch') := by
  unfold Chip.cancelAll
  extract_lets +onlyGivenNames x1
  have h2 : Moves L b x1 := by
    unfold x1
    refine Chip.fireDue_moves ?_ (within_sub w (by decide +kernel))
    assumption
  clear_value x1
  refine Moves.foldl ?_ fun y3 a4 h5 => ?_
  · assumption
  · split
    · refine Moves.ite ?_ ?_
      · refine Chip.cancelSlot_moves ?_ (within_sub w (by decide +kernel))
        assumption
      · assumption
    · assumption

theorem Chip.cancelHandle_moves {L : List Part} {b m : Chip} {o' : Nat} {h' : Nat} {jour' : Bool} (h : Moves L b m)
    (w : within [.rCh, .rTr, .rDrv, .rBk, .rBst, .rDg, .rDgb, .rCap, .rInt, .rMap, .frees, .asleep, .accums, .pool, .poolLast, .chans, .banks, .boost, .bcap, .jour, .sys, .cyc] L = true) :
    Moves L b (Chip.cancelHandle m o' h' jour').2 := by
  unfold Chip.cancelHandle
  extract_lets +onlyGivenNames x1
  clear_value x1
  extract_lets +onlyGivenNames x2
  have h3 : Moves L b x2 := by
    unfold x2
    split
    · refine Moves.ite ?_ ?_
      · refine Chip.fireDue_moves ?_ (within_sub w (by decide +kernel))
        assumption
      · assumption
    · assumption
  clear_value x2
  split
  · split
    · split
      · rename_i y4 y5 y6 q7
        have h8 : Moves L b ((y5 : Bool), y6).2 := by
          rw [← q7]
          refine Chip.cancelSlot_moves ?_ (within_sub w (by decide +kernel))
          assumption
        refine Moves.pair ?_
        assumption
    · refine Moves.pair ?_
      assumption
  · extract_lets +onlyGivenNames x9
    clear_value x9
    refine Moves.pair ?_
    assumption

theorem Chip.cancelDirect_moves {L : List Part} {b m : Chip} {who' : Writer} {ch' : Nat} {h' : Nat} (h : Moves L b m)
    (w : within [.rCh, .rTr, .rDrv, .rBk, .rBst, .rDg, .rDgb, .rCap, .rInt, .rMap, .frees, .asleep, .accums, .pool, .poolLast, .chans, .banks, .boost, .bcap, .jour, .sys, .cyc] L = true) :
    Moves L b (Chip.cancelDirect m who' ch' h') := by
  unfold Chip.cancelDirect
  split
  · rename_i y1 y2 y3 q4
    have h5 : Moves L b ((y2 : Nat), y3).2 := by
      rw [← q4]
      refine Chip.cancelHandle_moves ?_ (within_sub w (by decide +kernel))
      assumption
    refine Chip.wr_moves ?_ (within_sub w (by decide +kernel))
    assumption

theorem Chip.armCoded_moves {L : List Part} {b m : Chip} {ch i : Nat} {e : Ev} (h : Moves L b m) (w : within [.rCh, .rTr, .rDrv, .rBk, .rBst, .rDg, .rDgb, .rCap, .rInt, .rMap, .frees, .asleep, .accums, .pool, .poolLast, .chans, .banks, .boost, .bcap, .jour, .sys, .cyc] L = true) :
    Moves L b (m.armCoded ch i e) := by
  have g : Moves L b (m.armCase i e).2 := Chip.armCase_moves h (within_sub w (by decide +kernel))
  unfold Chip.armCoded
  generalize m.armCase i e = p at g ⊢
  exact Chip.wr_moves g (within_sub w (by decide +kernel))

theorem Chip.armTaken_moves {L : List Part} {b m : Chip} {ch' : Nat} {i' : Nat} (h : Moves L b m)
    (w : within [.rCh, .rTr, .rDrv, .rBk, .rBst, .rDg, .rDgb, .rCap, .rInt, .rMap, .frees, .asleep, .accums, .pool, .poolLast, .chans, .banks, .boost, .bcap, .jour, .sys, .cyc] L = true) :
    Moves L b (Chip.armTaken m ch' i') := by
  unfold Chip.armTaken
  split
  · assumption
  · refine Chip.armCoded_moves ?_ (within_sub w (by decide +kernel))
    refine Chip.wr_moves ?_ (within_sub w (by decide +kernel))
    assumption

theorem Chip.armRefuse_moves {L : List Part} {b m : Chip} {ch' : Nat} {c' : Nat} (h : Moves L b m)
    (w : within [.rCh, .rInt, .asleep, .accums, .sys, .cyc] L = true) :
    Moves L b (Chip.armRefuse m ch' c') := by
  unfold Chip.armRefuse
  extract_lets +onlyGivenNames x1
  have h2 : Moves L b x1 := by
    unfold x1
    refine Moves.ite ?_ ?_
    · refine Chip.chFlag_moves ?_ (within_sub w (by decide +kernel))
      assumption
    · assumption
  clear_value x1
  refine Chip.chFlag_moves ?_ (within_sub w (by decide +kernel))
  refine Chip.wr_moves ?_ (within_sub w (by decide +kernel))
  assumption

theorem Chip.armDirect_moves {L : List Part} {b m : Chip} {ch' : Nat} (h : Moves L b m)
    (w : within [.rCh, .rTr, .rDrv, .rBk, .rBst, .rDg, .rDgb, .rCap, .rInt, .rMap, .frees, .asleep, .accums, .pool, .poolLast, .orderNo, .chans, .banks, .boost, .bcap, .jour, .sys, .cyc] L = true) :
    Moves L b (Chip.armDirect m ch') := by
  unfold Chip.armDirect
  extract_lets +onlyGivenNames x1
  clear_value x1
  refine Moves.ite ?_ ?_
  · split
    · rename_i y2 y3 y4 q5
      have h6 : Moves L b ((y3 : Nat), y4).2 := by
        rw [← q5]
        refine Chip.takeSlot_moves ?_ (within_sub w (by decide +kernel))
        refine Chip.touch_moves ?_ (within_sub w (by decide +kernel))
        assumption
      refine Chip.armTaken_moves ?_ (within_sub w (by decide +kernel))
      assumption
  · refine Chip.armRefuse_moves ?_ (within_sub w (by decide +kernel))
    assumption

theorem Chip.chLastRead_moves {L : List Part} {b m : Chip} {ch' : Nat} (h : Moves L b m)
    (w : within [.rCh, .rdata] L = true) :
    Moves L b (Chip.chLastRead m ch') := by
  unfold Chip.chLastRead
  extract_lets +onlyGivenNames x1
  clear_value x1
  extract_lets +onlyGivenNames x2
  clear_value x2
  extract_lets +onlyGivenNames x3
  have h4 : Moves L b x3 := by
    unfold x3
    refine Chip.wrTb_moves ?_ (within_sub w (by decide +kernel))
    refine Chip.wrSat_moves ?_ (within_sub w (by decide +kernel))
    assumption
  clear_value x3
  refine Moves.rdata ?_ (within_sub w (by decide +kernel))
  assumption

theorem Chip.chHeadRead_moves {L : List Part} {b m : Chip} {ch' : Nat} (h : Moves L b m)
    (w : within [.rCh, .rdata] L = true) :
    Moves L b (Chip.chHeadRead m ch') := by
  unfold Chip.chHeadRead
  split
  · extract_lets +onlyGivenNames x1
    have h2 : Moves L b x1 := by
      unfold x1
      refine Chip.wrTb_moves ?_ (within_sub w (by decide +kernel))
      assumption
    clear_value x1
    extract_lets +onlyGivenNames x3
    have h4 : Moves L b x3 := by
      unfold x3
      refine Chip.wr_moves ?_ (within_sub w (by decide +kernel))
      refine Chip.wr_moves ?_ (within_sub w (by decide +kernel))
      refine Chip.wr_moves ?_ (within_sub w (by decide +kernel))
      assumption
    clear_value x3
    refine Moves.rdata ?_ (within_sub w (by decide +kernel))
    assumption

theorem Chip.chSlotRead_moves {L : List Part} {b m : Chip} {ch' : Nat} (h : Moves L b m)
    (w : within [.rCh, .rdata] L = true) :
    Moves L b (Chip.chSlotRead m ch') := by
  unfold Chip.chSlotRead
  extract_lets +onlyGivenNames x1
  have h2 : Moves L b x1 := by
    unfold x1
    split
    · refine Chip.resetFields_moves ?_ (within_sub w (by decide +kernel))
      assumption
    · extract_lets +onlyGivenNames x3
      clear_value x3
      extract_lets +onlyGivenNames x4
      have h5 : Moves L b x4 := by
        unfold x4
        refine Chip.wr_moves ?_ (within_sub w (by decide +kernel))
        refine Chip.wr_moves ?_ (within_sub w (by decide +kernel))
        refine Chip.wr_moves ?_ (within_sub w (by decide +kernel))
        assumption
      clear_value x4
      extract_lets +onlyGivenNames x6
      have h7 : Moves L b x6 := by
        unfold x6
        refine Chip.wrB_moves ?_ (within_sub w (by decide +kernel))
        refine Chip.wrB_moves ?_ (within_sub w (by decide +kernel))
        assumption
      clear_value x6
      extract_lets +onlyGivenNames x8
      have h9 : Moves L b x8 := by
        unfold x8
        refine Chip.wr_moves ?_ (within_sub w (by decide +kernel))
        refine Chip.wrB_moves ?_ (within_sub w (by decide +kernel))
        assumption
      clear_value x8
      refine Chip.wr_moves ?_ (within_sub w (by decide +kernel))
      refine Chip.wr_moves ?_ (within_sub w (by decide +kernel))
      assumption
  clear_value x1
  refine Moves.rdata ?_ (within_sub w (by decide +kernel))
  assumption

theorem Chip.jumpSteps_moves {L : List Part} {b old m : Chip} (h : Moves L b m) (w : within [.rCh, .rLat, .rDrv, .rBk, .rBst, .rDg, .rDgb, .rCap, .rInt, .rMap, .frees, .asleep, .accums, .chans, .banks, .boost, .bcap, .sys, .cyc] L = true) :
    Moves L b (old.jumpSteps m) :=
  Moves.foldl h fun _ _ g => Moves.ite (Chip.latStep_moves g w) g

theorem Chip.posesDone_moves {L : List Part} {b m : Chip} (h : Moves L b m) (w : within [.rCh, .rLat, .rDrv, .rMdl, .rBk, .rBst, .rDg, .rDgb, .rCap, .rInt, .rMap, .frees, .asleep, .accums, .mdl, .chans, .banks, .boost, .bcap, .sys, .cyc] L = true) : Moves L b m.posesDone :=
  Moves.ite (Chip.jumpSteps_moves (Chip.poseProcess_moves h (within_sub w (by decide +kernel))) (within_sub w (by decide +kernel)))
    (Chip.poseProcess_moves h (within_sub w (by decide +kernel)))

theorem Chip.install_moves {L : List Part} {b m : Chip} {jsn' : Nat} (h : Moves L b m)
    (w : within [.rCh, .rTr, .rDrv, .rBk, .rBst, .rDg, .rDgb, .rCap, .rInt, .rMap, .frees, .asleep, .accums, .pool, .poolLast, .chans, .banks, .boost, .bcap, .jour, .sys, .cyc] L = true) :
    Moves L b (Chip.install m jsn') := by
  unfold Chip.install
  split
  · assumption
  · split
    · assumption
    · extract_lets +onlyGivenNames x1
      have h2 : Moves L b x1 := by
        unfold x1
        refine Chip.touch_moves ?_ (within_sub w (by decide +kernel))
        assumption
      clear_value x1
      extract_lets +onlyGivenNames x3
      have h4 : Moves L b x3 := by
        unfold x3
        refine Chip.jpush_moves ?_ (within_sub w (by decide +kernel))
        refine Chip.unstage_moves ?_ (within_sub w (by decide +kernel))
        assumption
      clear_value x3
      refine Moves.ite ?_ ?_
      · assumption
      · refine Moves.ite ?_ ?_
        · refine Chip.unstage_moves ?_ (within_sub w (by decide +kernel))
          refine Chip.finish_moves ?_ (within_sub w (by decide +kernel))
          assumption
        · refine Moves.ite ?_ ?_
          · refine Chip.finish_moves ?_ (within_sub w (by decide +kernel))
            assumption
          · refine Chip.armCase_moves ?_ (within_sub w (by decide +kernel))
            assumption

theorem Chip.chansTick_moves {L : List Part} {b m : Chip} (h : Moves L b m)
    (w : within [.rCh, .rTr, .rLat, .rDrv, .rBk, .rBst, .rDg, .rDgb, .rCap, .rInt, .rMap, .frees, .asleep, .accums, .axes, .pool, .poolLast, .chans, .banks, .boost, .bcap, .jour, .sys, .cyc] L = true) :
    Moves L b (Chip.chansTick m) := by
  unfold Chip.chansTick
  extract_lets +onlyGivenNames x1
  clear_value x1
  extract_lets +onlyGivenNames x2
  have h3 : Moves L b x2 := by
    unfold x2
    refine Moves.foldl ?_ fun y4 a5 h6 => ?_
    · assumption
    · refine Chip.chanTick_moves ?_ (within_sub w (by decide +kernel))
      assumption
  clear_value x2
  extract_lets +onlyGivenNames x7
  have h8 : Moves L b x7 := by
    unfold x7
    refine Moves.ite ?_ ?_
    · refine Moves.axes ?_ (within_sub w (by decide +kernel))
      assumption
    · assumption
  clear_value x7
  extract_lets +onlyGivenNames x9
  have h10 : Moves L b x9 := by
    unfold x9
    refine Moves.foldl ?_ fun y11 a12 h13 => ?_
    · assumption
    · refine Chip.gateTick_moves ?_ (within_sub w (by decide +kernel))
      assumption
  clear_value x9
  refine Moves.foldl ?_ fun y14 a15 h16 => ?_
  · assumption
  · refine Moves.ite ?_ ?_
    · refine Chip.latTick_moves ?_ (within_sub w (by decide +kernel))
      assumption
    · assumption

theorem Chip.compareFire_moves {L : List Part} {b m : Chip} {ch' : Nat} (h : Moves L b m)
    (w : within [.rCh, .rTr, .rDrv, .rBk, .rBst, .rDg, .rDgb, .rCap, .rInt, .rMap, .frees, .asleep, .accums, .pool, .poolLast, .chans, .banks, .boost, .bcap, .jour, .sys, .cyc] L = true) :
    Moves L b (Chip.compareFire m ch') := by
  unfold Chip.compareFire
  split
  · refine Moves.ite ?_ ?_
    · refine Chip.headFire_moves ?_ (within_sub w (by decide +kernel))
      assumption
    · assumption
  · assumption

theorem Chip.predictionTick_moves {L : List Part} {b m : Chip} (h : Moves L b m)
    (w : within [.rCh, .rTr, .rLat, .rDrv, .rAx, .rMdl, .rBk, .rBst, .rDg, .rDgb, .rCap, .rInt, .rMap, .stamps, .frees, .asleep, .accums, .mdl, .axes, .pool, .poolLast, .chans, .banks, .boost, .bcap, .jour, .sys, .cyc] L = true) :
    Moves L b (Chip.predictionTick m) := by
  unfold Chip.predictionTick
  extract_lets +onlyGivenNames x1
  have h2 : Moves L b x1 := by
    unfold x1
    refine Chip.stamp_moves ?_ (within_sub w (by decide +kernel))
    assumption
  clear_value x1
  extract_lets +onlyGivenNames x3
  have h4 : Moves L b x3 := by
    unfold x3
    refine Moves.ite ?_ ?_
    · refine Chip.mandrelTick_moves ?_ (within_sub w (by decide +kernel))
      assumption
    · assumption
  clear_value x3
  extract_lets +onlyGivenNames x5
  have h6 : Moves L b x5 := by
    unfold x5
    refine Moves.ite ?_ ?_
    · refine Chip.axesTick_moves ?_ (within_sub w (by decide +kernel))
      assumption
    · assumption
  clear_value x5
  refine Moves.ite ?_ ?_
  · refine Chip.chansTick_moves ?_ (within_sub w (by decide +kernel))
    assumption
  · assumption

theorem Chip.pulseTimeout_moves {L : List Part} {b m : Chip} {ch' : Nat} (h : Moves L b m)
    (w : within [.rCh, .rDrv, .rBk, .rBst, .rDg, .rDgb, .rCap, .rInt, .rMap, .frees, .asleep, .accums, .pool, .poolLast, .chans, .banks, .boost, .bcap, .jour, .sys, .cyc] L = true) :
    Moves L b (Chip.pulseTimeout m ch') := by
  unfold Chip.pulseTimeout
  refine Moves.ite ?_ ?_
  · split
    · assumption
    · refine Chip.pulseEnd_moves ?_ (within_sub w (by decide +kernel))
      assumption
  · assumption

theorem Chip.spanEnd_moves {L : List Part} {b m : Chip} {i' : Nat} (h : Moves L b m)
    (w : within [.pool, .poolLast, .chans] L = true) :
    Moves L b (Chip.spanEnd m i') := by
  unfold Chip.spanEnd
  split
  · assumption
  · extract_lets +onlyGivenNames x1
    clear_value x1
    refine Moves.ite ?_ ?_
    · refine Chip.freeSlot_moves ?_ (within_sub w (by decide +kernel))
      assumption
    · assumption

theorem Chip.deadlineEnd_moves {L : List Part} {b m : Chip} {i' : Nat} (h : Moves L b m)
    (w : within [.rCh, .rInt, .asleep, .accums, .pool, .poolLast, .chans, .jour, .sys, .cyc] L = true) :
    Moves L b (Chip.deadlineEnd m i') := by
  unfold Chip.deadlineEnd
  split
  · assumption
  · refine Moves.ite ?_ ?_
    · refine Chip.finish_moves ?_ (within_sub w (by decide +kernel))
      assumption
    · assumption

theorem Chip.lateEnd_moves {L : List Part} {b m : Chip} {i' : Nat} (h : Moves L b m)
    (w : within [.rCh, .rInt, .asleep, .accums, .pool, .poolLast, .chans, .jour, .sys, .cyc] L = true) :
    Moves L b (Chip.lateEnd m i') := by
  unfold Chip.lateEnd
  split
  · assumption
  · refine Moves.ite ?_ ?_
    · refine Chip.finish_moves ?_ (within_sub w (by decide +kernel))
      assumption
    · assumption

theorem execPoseProcessed_moves {L : List Part} {s t : State}
    (w : within [.rCh, .rLat, .rDrv, .rMdl, .rBk, .rBst, .rDg, .rDgb, .rCap, .rInt, .rMap, .frees, .asleep, .accums, .mdl, .chans, .banks, .boost, .bcap, .sys, .cyc] L = true) (e : execPoseProcessed s = .next t) :
    Moves L s.chip t.chip := by
  unfold execPoseProcessed at e
  refine upd_moves (fun m => ?_) e
  refine Chip.posesDone_moves ?_ (within_sub w (by decide +kernel))
  exact .refl

theorem execCompareFire_moves {L : List Part} {ch' : Ch} {s t : State}
    (w : within [.rCh, .rTr, .rDrv, .rBk, .rBst, .rDg, .rDgb, .rCap, .rInt, .rMap, .frees, .asleep, .accums, .pool, .poolLast, .chans, .banks, .boost, .bcap, .jour, .sys, .cyc] L = true) (e : execCompareFire ch' s = .next t) :
    Moves L s.chip t.chip := by
  unfold execCompareFire at e
  refine upd_moves (fun m => ?_) e
  refine Chip.compareFire_moves ?_ (within_sub w (by decide +kernel))
  exact .refl

theorem execChHeadRead_moves {L : List Part} {ch' : Ch} {s t : State}
    (w : within [.rCh, .rdata] L = true) (e : execChHeadRead ch' s = .next t) :
    Moves L s.chip t.chip := by
  unfold execChHeadRead at e
  refine upd_moves (fun m => ?_) e
  refine Chip.chHeadRead_moves ?_ (within_sub w (by decide +kernel))
  exact .refl

theorem execStandingSpanEnd_moves {L : List Part} {i' : Pool} {s t : State}
    (w : within [.pool, .poolLast, .chans] L = true) (e : execStandingSpanEnd i' s = .next t) :
    Moves L s.chip t.chip := by
  unfold execStandingSpanEnd at e
  refine upd_moves (fun m => ?_) e
  refine Chip.spanEnd_moves ?_ (within_sub w (by decide +kernel))
  exact .refl

theorem execChannelConfigWrite_moves {L : List Part} {who' : Writer} {ch' : Ch} {reg' : Fin 3} {w' : Word} {s t : State}
    (w : within [.rCh, .rLat, .rCap, .rInt, .asleep, .accums, .chans, .capReq, .capTb, .sys, .cyc] L = true) (e : execChannelConfigWrite who' ch' reg' w' s = .next t) :
    Moves L s.chip t.chip := by
  unfold execChannelConfigWrite at e
  refine upd_moves (fun m => ?_) e
  refine Moves.ite ?_ ?_
  · refine Chip.chCfgWrite_moves ?_ (within_sub w (by decide +kernel))
    exact .refl
  · exact .refl

theorem execPredictionTick_moves {L : List Part} {s t : State}
    (w : within [.rCh, .rTr, .rLat, .rDrv, .rAx, .rMdl, .rBk, .rBst, .rDg, .rDgb, .rCap, .rInt, .rMap, .stamps, .frees, .asleep, .accums, .mdl, .axes, .pool, .poolLast, .chans, .banks, .boost, .bcap, .jour, .sys, .cyc] L = true) (e : execPredictionTick s = .next t) :
    Moves L s.chip t.chip := by
  unfold execPredictionTick at e
  refine upd_moves (fun m => ?_) e
  refine Chip.predictionTick_moves ?_ (within_sub w (by decide +kernel))
  exact .refl

theorem execChCancelAll_moves {L : List Part} {who' : Writer} {ch' : Ch} {s t : State}
    (w : within [.rCh, .rTr, .rDrv, .rBk, .rBst, .rDg, .rDgb, .rCap, .rInt, .rMap, .frees, .asleep, .accums, .pool, .poolLast, .chans, .banks, .boost, .bcap, .jour, .sys, .cyc] L = true) (e : execChCancelAll who' ch' s = .next t) :
    Moves L s.chip t.chip := by
  unfold execChCancelAll at e
  refine upd_moves (fun m => ?_) e
  refine Moves.ite ?_ ?_
  · refine Chip.cancelAll_moves ?_ (within_sub w (by decide +kernel))
    exact .refl
  · exact .refl

theorem execEventDeadline_moves {L : List Part} {i' : Pool} {s t : State}
    (w : within [.rCh, .rInt, .asleep, .accums, .pool, .poolLast, .chans, .jour, .sys, .cyc] L = true) (e : execEventDeadline i' s = .next t) :
    Moves L s.chip t.chip := by
  unfold execEventDeadline at e
  refine upd_moves (fun m => ?_) e
  refine Chip.deadlineEnd_moves ?_ (within_sub w (by decide +kernel))
  exact .refl

theorem execPulseEnd_moves {L : List Part} {ch' : Ch} {s t : State}
    (w : within [.rCh, .rDrv, .rBk, .rBst, .rDg, .rDgb, .rCap, .rInt, .rMap, .frees, .asleep, .accums, .pool, .poolLast, .chans, .banks, .boost, .bcap, .jour, .sys, .cyc] L = true) (e : execPulseEnd ch' s = .next t) :
    Moves L s.chip t.chip := by
  unfold execPulseEnd at e
  refine upd_moves (fun m => ?_) e
  refine Chip.pulseTimeout_moves ?_ (within_sub w (by decide +kernel))
  exact .refl

theorem execChLastRead_moves {L : List Part} {ch' : Ch} {s t : State}
    (w : within [.rCh, .rdata] L = true) (e : execChLastRead ch' s = .next t) :
    Moves L s.chip t.chip := by
  unfold execChLastRead at e
  refine upd_moves (fun m => ?_) e
  refine Chip.chLastRead_moves ?_ (within_sub w (by decide +kernel))
  exact .refl

theorem execEventInstall_moves {L : List Part} {jsn' : BitVec 48} {s t : State}
    (w : within [.rCh, .rTr, .rDrv, .rBk, .rBst, .rDg, .rDgb, .rCap, .rInt, .rMap, .frees, .asleep, .accums, .pool, .poolLast, .chans, .banks, .boost, .bcap, .jour, .sys, .cyc] L = true) (e : execEventInstall jsn' s = .next t) :
    Moves L s.chip t.chip := by
  unfold execEventInstall at e
  refine upd_moves (fun m => ?_) e
  refine Chip.install_moves ?_ (within_sub w (by decide +kernel))
  exact .refl

theorem execChArm_moves {L : List Part} {who' : Writer} {ch' : Ch} {s t : State}
    (w : within [.rCh, .rTr, .rDrv, .rBk, .rBst, .rDg, .rDgb, .rCap, .rInt, .rMap, .frees, .asleep, .accums, .pool, .poolLast, .orderNo, .chans, .banks, .boost, .bcap, .jour, .sys, .cyc] L = true) (e : execChArm who' ch' s = .next t) :
    Moves L s.chip t.chip := by
  unfold execChArm at e
  refine upd_moves (fun m => ?_) e
  refine Moves.ite ?_ ?_
  · refine Chip.armDirect_moves ?_ (within_sub w (by decide +kernel))
    exact .refl
  · exact .refl

theorem execChCancel_moves {L : List Part} {who' : Writer} {ch' : Ch} {handle' : BitVec 22} {s t : State}
    (w : within [.rCh, .rTr, .rDrv, .rBk, .rBst, .rDg, .rDgb, .rCap, .rInt, .rMap, .frees, .asleep, .accums, .pool, .poolLast, .chans, .banks, .boost, .bcap, .jour, .sys, .cyc] L = true) (e : execChCancel who' ch' handle' s = .next t) :
    Moves L s.chip t.chip := by
  unfold execChCancel at e
  refine upd_moves (fun m => ?_) e
  refine Moves.ite ?_ ?_
  · refine Chip.cancelDirect_moves ?_ (within_sub w (by decide +kernel))
    exact .refl
  · exact .refl

theorem execLateWindowExceeded_moves {L : List Part} {i' : Pool} {s t : State}
    (w : within [.rCh, .rInt, .asleep, .accums, .pool, .poolLast, .chans, .jour, .sys, .cyc] L = true) (e : execLateWindowExceeded i' s = .next t) :
    Moves L s.chip t.chip := by
  unfold execLateWindowExceeded at e
  refine upd_moves (fun m => ?_) e
  refine Chip.lateEnd_moves ?_ (within_sub w (by decide +kernel))
  exact .refl

theorem execChSlotInfoRead_moves {L : List Part} {ch' : Ch} {s t : State}
    (w : within [.rCh, .rdata] L = true) (e : execChSlotInfoRead ch' s = .next t) :
    Moves L s.chip t.chip := by
  unfold execChSlotInfoRead at e
  refine upd_moves (fun m => ?_) e
  refine Chip.chSlotRead_moves ?_ (within_sub w (by decide +kernel))
  exact .refl

end Sys2Proof.Machine
end

