-- ==== Sys2Proof/Laws/MovesDrive.lean ====
section
/-! SUPPORT. Each operation of Machine/Drive.lean moves the block within the parts it names. -/

-- Theorem by theorem: many at once each take a thread's stack, and the package as one text ran out of them.
set_option Elab.async false

namespace Sys2Proof.Machine

theorem Chip.holdEff_moves {L : List Part} {b m : Chip} {ch' : Nat} (h : Moves L b m)
    (w : within [.rDrv, .chans] L = true) :
    Moves L b (Chip.holdEff m ch') := by
  unfold Chip.holdEff
  extract_lets +onlyGivenNames x1
  clear_value x1
  extract_lets +onlyGivenNames x2
  clear_value x2
  extract_lets +onlyGivenNames x3
  clear_value x3
  refine Chip.wrB_moves ?_ (within_sub w (by decide +kernel))
  refine Chip.wr_moves ?_ (within_sub w (by decide +kernel))
  refine Chip.wr_moves ?_ (within_sub w (by decide +kernel))
  refine Chip.setDrv_moves ?_ (within_sub w (by decide +kernel))
  assumption

theorem Chip.windowWrite_moves {L : List Part} {b m : Chip} {ch' : Nat} {w' : Nat} {hold' : Bool} (h : Moves L b m)
    (w : within [.rDrv, .rBk, .rPwr, .rInt, .asleep, .accums, .chans, .sys, .cyc] L = true) :
    Moves L b (Chip.windowWrite m ch' w' hold') := by
  unfold Chip.windowWrite
  extract_lets +onlyGivenNames x1
  clear_value x1
  extract_lets +onlyGivenNames x2
  clear_value x2
  extract_lets +onlyGivenNames x3
  clear_value x3
  extract_lets +onlyGivenNames x4
  clear_value x4
  extract_lets +onlyGivenNames x5
  clear_value x5
  extract_lets +onlyGivenNames x6
  have h7 : Moves L b x6 := by
    unfold x6
    refine Moves.ite ?_ ?_
    · refine Chip.trimStat_moves ?_ (within_sub w (by decide +kernel))
      refine Chip.holdEff_moves ?_ (within_sub w (by decide +kernel))
      refine Chip.wr_moves ?_ (within_sub w (by decide +kernel))
      refine Chip.wr_moves ?_ (within_sub w (by decide +kernel))
      assumption
    · refine Chip.wr_moves ?_ (within_sub w (by decide +kernel))
      refine Chip.wr_moves ?_ (within_sub w (by decide +kernel))
      assumption
  clear_value x6
  refine Moves.ite ?_ ?_
  · refine Chip.drvFlag_moves ?_ (within_sub w (by decide +kernel))
    assumption
  · refine Moves.ite ?_ ?_
    · refine Chip.drvFlag_moves ?_ (within_sub w (by decide +kernel))
      assumption
    · assumption

theorem Chip.cappedWrite_moves {L : List Part} {b m : Chip} {f : Field} {ch v cap : Nat} (h : Moves L b m)
    (w : within (f.part :: [.rDrv, .rBk, .rInt, .asleep, .accums, .sys, .cyc]) L = true) : Moves L b (m.cappedWrite f ch v cap) := by
  have g : Moves L b (m.wr f ch (min v cap)) := Chip.wr_moves h (within_head w)
  exact Moves.ite (Chip.drvFlag_moves g (within_tail w)) g

theorem Chip.hssIdle_moves {L : List Part} {b m : Chip} {b' : Nat} (h : Moves L b m)
    (w : within [.rBk] L = true) :
    Moves L b (Chip.hssIdle m b') := by
  unfold Chip.hssIdle
  refine Moves.ite ?_ ?_
  · refine Chip.wr_moves ?_ (within_sub w (by decide +kernel))
    assumption
  · assumption

theorem Chip.bankCut_moves {L : List Part} {b m : Chip} {b' : Nat} (h : Moves L b m)
    (w : within [.rCh, .rDrv, .rBk, .rBst, .rDg, .rDgb, .rInt, .rMap, .frees, .asleep, .accums, .pool, .poolLast, .chans, .boost, .bcap, .jour, .sys, .cyc] L = true) :
    Moves L b (Chip.bankCut m b') := by
  unfold Chip.bankCut
  refine Moves.foldl ?_ fun y1 a2 h3 => ?_
  · refine Moves.foldl ?_ fun y4 a5 h6 => ?_
    · assumption
    · refine Chip.driveCutOwn_moves ?_ (within_sub w (by decide +kernel))
      assumption
  · refine Chip.nodeAbort_moves ?_ (within_sub w (by decide +kernel))
    assumption

theorem Chip.bankCtl_moves {L : List Part} {b m : Chip} {b' : Nat} {w' : Nat} (h : Moves L b m)
    (w : within [.rCh, .rDrv, .rBk, .rBst, .rDg, .rDgb, .rCap, .rInt, .rMap, .frees, .asleep, .accums, .pool, .poolLast, .chans, .banks, .boost, .capReq, .capTb, .bcap, .jour, .sys, .cyc] L = true) :
    Moves L b (Chip.bankCtl m b' w') := by
  unfold Chip.bankCtl
  extract_lets +onlyGivenNames x1
  have h2 : Moves L b x1 := by
    unfold x1
    refine Chip.wrFrom_moves ?_ (within_sub w (by decide +kernel))
    assumption
  clear_value x1
  extract_lets +onlyGivenNames x3
  have h4 : Moves L b x3 := by
    unfold x3
    refine Chip.wr_moves ?_ (within_sub w (by decide +kernel))
    refine Chip.supAbort_moves ?_ (within_sub w (by decide +kernel))
    assumption
  clear_value x3
  refine Moves.ite ?_ ?_
  · refine Moves.ite ?_ ?_
    · assumption
    · refine Chip.capFill_moves ?_ (within_sub w (by decide +kernel))
      refine Chip.wrB_moves ?_ (within_sub w (by decide +kernel))
      assumption
  · refine Moves.ite ?_ ?_
    · refine Chip.hssIdle_moves ?_ (within_sub w (by decide +kernel))
      refine Chip.wr_moves ?_ (within_sub w (by decide +kernel))
      refine Chip.bankCut_moves ?_ (within_sub w (by decide +kernel))
      assumption
    · assumption

theorem Chip.clampTake_moves {L : List Part} {b m : Chip} (h : Moves L b m)
    (w : within [.rBst, .frees, .boost] L = true) :
    Moves L b (Chip.clampTake m) := by
  unfold Chip.clampTake
  refine Moves.ite ?_ ?_
  · split
    · rename_i y1 y2 y3 q4
      have h5 : Moves L b ((y2 : Int), y3).2 := by
        rw [← q4]
        refine Chip.free_moves ?_ (within_sub w (by decide +kernel))
        assumption
      extract_lets +onlyGivenNames x6
      clear_value x6
      refine Chip.wr_moves ?_ (within_sub w (by decide +kernel))
      refine Moves.boost ?_ (within_sub w (by decide +kernel))
      assumption
  · assumption

theorem Chip.boostSwitch_moves {L : List Part} {b m : Chip} (h : Moves L b m)
    (w : within [.boost] L = true) :
    Moves L b (Chip.boostSwitch m) := by
  unfold Chip.boostSwitch
  extract_lets +onlyGivenNames x1
  clear_value x1
  extract_lets +onlyGivenNames x2
  clear_value x2
  extract_lets +onlyGivenNames x3
  clear_value x3
  extract_lets +onlyGivenNames x4
  clear_value x4
  extract_lets +onlyGivenNames x5
  clear_value x5
  refine Moves.boost ?_ (within_sub w (by decide +kernel))
  assumption

theorem Chip.boostState_moves {L : List Part} {b m : Chip} {mv' : Nat} (h : Moves L b m)
    (w : within [.rBst, .rInt, .asleep, .accums, .bcap, .sys, .cyc] L = true) :
    Moves L b (Chip.boostState m mv') := by
  unfold Chip.boostState
  extract_lets +onlyGivenNames x1
  clear_value x1
  extract_lets +onlyGivenNames x2
  clear_value x2
  refine Moves.ite ?_ ?_
  · refine Chip.bstFlag_moves ?_ (within_sub w (by decide +kernel))
    refine Chip.wr_moves ?_ (within_sub w (by decide +kernel))
    refine Chip.bstSet_moves ?_ (within_sub w (by decide +kernel))
    assumption
  · refine Moves.ite ?_ ?_
    · refine Moves.ite ?_ ?_
      · refine Chip.bstFlag_moves ?_ (within_sub w (by decide +kernel))
        refine Chip.wr_moves ?_ (within_sub w (by decide +kernel))
        assumption
      · refine Moves.ite ?_ ?_
        · refine Chip.bstFlag_moves ?_ (within_sub w (by decide +kernel))
          refine Chip.wr_moves ?_ (within_sub w (by decide +kernel))
          assumption
        · assumption
    · assumption

theorem Chip.boostEval_moves {L : List Part} {b m : Chip} (h : Moves L b m)
    (w : within [.rBst, .rInt, .frees, .asleep, .accums, .boost, .bcap, .sys, .cyc] L = true) :
    Moves L b (Chip.boostEval m) := by
  unfold Chip.boostEval
  extract_lets +onlyGivenNames x1
  have h2 : Moves L b x1 := by
    unfold x1
    refine Chip.clampTake_moves ?_ (within_sub w (by decide +kernel))
    refine Chip.boostSwitch_moves ?_ (within_sub w (by decide +kernel))
    refine Chip.boostState_moves ?_ (within_sub w (by decide +kernel))
    assumption
  clear_value x1
  extract_lets +onlyGivenNames x3
  clear_value x3
  refine Moves.ite ?_ ?_
  · refine Chip.wr_moves ?_ (within_sub w (by decide +kernel))
    refine Moves.boost ?_ (within_sub w (by decide +kernel))
    assumption
  · assumption

theorem Chip.bstCtl_moves {L : List Part} {b m : Chip} {w' : Nat} (h : Moves L b m)
    (w : within [.rBst, .rInt, .frees, .asleep, .accums, .boost, .bcap, .sys, .cyc] L = true) :
    Moves L b (Chip.bstCtl m w') := by
  unfold Chip.bstCtl
  extract_lets +onlyGivenNames x1
  have h2 : Moves L b x1 := by
    unfold x1
    refine Chip.wrFrom_moves ?_ (within_sub w (by decide +kernel))
    refine Chip.wrFrom_moves ?_ (within_sub w (by decide +kernel))
    refine Chip.wrFrom_moves ?_ (within_sub w (by decide +kernel))
    assumption
  clear_value x1
  extract_lets +onlyGivenNames x3
  have h4 : Moves L b x3 := by
    unfold x3
    refine Chip.wrB_moves ?_ (within_sub w (by decide +kernel))
    assumption
  clear_value x3
  extract_lets +onlyGivenNames x5
  clear_value x5
  extract_lets +onlyGivenNames x6
  have h7 : Moves L b x6 := by
    unfold x6
    refine Moves.ite ?_ ?_
    · refine Chip.wr_moves ?_ (within_sub w (by decide +kernel))
      refine Chip.bstSet_moves ?_ (within_sub w (by decide +kernel))
      assumption
    · refine Moves.ite ?_ ?_
      · refine Chip.bstSet_moves ?_ (within_sub w (by decide +kernel))
        refine Moves.boost ?_ (within_sub w (by decide +kernel))
        assumption
      · assumption
  clear_value x6
  refine Chip.boostEval_moves ?_ (within_sub w (by decide +kernel))
  assumption

theorem Chip.dutyStep_moves {L : List Part} {b m : Chip} {ch' : Nat} (h : Moves L b m)
    (w : within [.rCh, .rDrv, .rBk, .rBst, .rDg, .rDgb, .rInt, .rMap, .stamps, .frees, .asleep, .accums, .pool, .poolLast, .chans, .boost, .bcap, .jour, .sys, .cyc] L = true) :
    Moves L b (Chip.dutyStep m ch') := by
  unfold Chip.dutyStep
  extract_lets +onlyGivenNames x1
  have h2 : Moves L b x1 := by
    unfold x1
    refine Chip.stamp_moves ?_ (within_sub w (by decide +kernel))
    assumption
  clear_value x1
  extract_lets +onlyGivenNames x3
  clear_value x3
  extract_lets +onlyGivenNames x4
  have h5 : Moves L b x4 := by
    unfold x4
    refine Chip.setDrv_moves ?_ (within_sub w (by decide +kernel))
    assumption
  clear_value x4
  extract_lets +onlyGivenNames x6
  clear_value x6
  extract_lets +onlyGivenNames x7
  have h8 : Moves L b x7 := by
    unfold x7
    refine Chip.wr_moves ?_ (within_sub w (by decide +kernel))
    assumption
  clear_value x7
  extract_lets +onlyGivenNames x9
  clear_value x9
  refine Moves.ite ?_ ?_
  · assumption
  · refine Moves.ite ?_ ?_
    · refine Moves.ite ?_ ?_
      · refine Chip.wr_moves ?_ (within_sub w (by decide +kernel))
        assumption
      · assumption
    · refine Moves.ite ?_ ?_
      · refine Chip.drvFlag_moves ?_ (within_sub w (by decide +kernel))
        refine Chip.wr_moves ?_ (within_sub w (by decide +kernel))
        refine Chip.driveCutOwn_moves ?_ (within_sub w (by decide +kernel))
        assumption
      · assumption

theorem Chip.toHold_moves {L : List Part} {b m : Chip} {ch' : Nat} (h : Moves L b m)
    (w : within [.rDrv, .rBk, .rInt, .asleep, .accums, .chans, .sys, .cyc] L = true) :
    Moves L b (Chip.toHold m ch') := by
  unfold Chip.toHold
  refine Chip.stepTo_moves ?_ (within_sub w (by decide +kernel))
  assumption

theorem Chip.boostStartEnd_moves {L : List Part} {b m : Chip} (h : Moves L b m)
    (w : within [.rBst, .rInt, .asleep, .accums, .boost, .bcap, .sys, .cyc] L = true) :
    Moves L b (Chip.boostStartEnd m) := by
  unfold Chip.boostStartEnd
  refine Moves.ite ?_ ?_
  · refine Chip.bstFlag_moves ?_ (within_sub w (by decide +kernel))
    refine Chip.boostSwitch_moves ?_ (within_sub w (by decide +kernel))
    refine Chip.bstSet_moves ?_ (within_sub w (by decide +kernel))
    assumption
  · assumption

theorem Chip.hottest_moves {L : List Part} {b m : Chip} {d' : Nat} (h : Moves L b m)
    (w : within [.rPwr] L = true) :
    Moves L b (Chip.hottest m d') := by
  unfold Chip.hottest
  extract_lets +onlyGivenNames x1
  clear_value x1
  refine Chip.wr_moves ?_ (within_sub w (by decide +kernel))
  refine Chip.wr_moves ?_ (within_sub w (by decide +kernel))
  assumption

theorem Chip.trimDown_moves {L : List Part} {b m : Chip} {d' : Nat} {step' : Nat} (h : Moves L b m)
    (w : within [.rDrv, .rPwr, .rInt, .asleep, .accums, .chans, .sys, .cyc] L = true) :
    Moves L b (Chip.trimDown m d' step') := by
  unfold Chip.trimDown
  extract_lets +onlyGivenNames x1
  clear_value x1
  extract_lets +onlyGivenNames x2
  clear_value x2
  extract_lets +onlyGivenNames x3
  have h4 : Moves L b x3 := by
    unfold x3
    refine Moves.foldl ?_ fun y5 a6 h7 => ?_
    · assumption
    · extract_lets +onlyGivenNames x8
      clear_value x8
      refine Chip.holdEff_moves ?_ (within_sub w (by decide +kernel))
      refine Chip.setDrv_moves ?_ (within_sub w (by decide +kernel))
      assumption
  clear_value x3
  refine Moves.ite ?_ ?_
  · refine Chip.pwrFlag_moves ?_ (within_sub w (by decide +kernel))
    refine Chip.wr_moves ?_ (within_sub w (by decide +kernel))
    assumption
  · assumption

theorem Chip.decaySlow_moves {L : List Part} {b m : Chip} {ch' : Nat} (h : Moves L b m)
    (w : within [.rDrv, .rBk, .rInt, .asleep, .accums, .chans, .sys, .cyc] L = true) :
    Moves L b (Chip.decaySlow m ch') := by
  unfold Chip.decaySlow
  extract_lets +onlyGivenNames x1
  clear_value x1
  extract_lets +onlyGivenNames x2
  clear_value x2
  refine Moves.ite ?_ ?_
  · refine Chip.bankStat_moves ?_ (within_sub w (by decide +kernel))
    refine Chip.drvFlag_moves ?_ (within_sub w (by decide +kernel))
    refine Chip.setSw_moves ?_ (within_sub w (by decide +kernel))
    refine Chip.setDrv_moves ?_ (within_sub w (by decide +kernel))
    assumption
  · refine Moves.ite ?_ ?_
    · refine Chip.bankStat_moves ?_ (within_sub w (by decide +kernel))
      refine Chip.drvFlag_moves ?_ (within_sub w (by decide +kernel))
      refine Chip.setSw_moves ?_ (within_sub w (by decide +kernel))
      refine Chip.setDrv_moves ?_ (within_sub w (by decide +kernel))
      assumption
    · refine Moves.ite ?_ ?_
      · refine Chip.setSw_moves ?_ (within_sub w (by decide +kernel))
        assumption
      · assumption

theorem Chip.grantFirst_moves {L : List Part} {b m : Chip} {b' : Nat} (h : Moves L b m)
    (w : within [.rDrv, .rBk, .rBst, .rInt, .frees, .asleep, .accums, .chans, .boost, .bcap, .sys, .cyc] L = true) :
    Moves L b (Chip.grantFirst m b') := by
  unfold Chip.grantFirst
  split
  · refine Moves.ite ?_ ?_
    · refine Chip.boostGrant_moves ?_ (within_sub w (by decide +kernel))
      assumption
    · assumption
  · assumption

theorem Chip.peakEnd_moves {L : List Part} {b m : Chip} {ch' : Nat} (h : Moves L b m)
    (w : within [.rDrv, .rBk, .rInt, .asleep, .accums, .chans, .sys, .cyc] L = true) :
    Moves L b (Chip.peakEnd m ch') := by
  unfold Chip.peakEnd
  refine Moves.ite ?_ ?_
  · refine Chip.toHold_moves ?_ (within_sub w (by decide +kernel))
    assumption
  · assumption

theorem Chip.boostCycle_moves {L : List Part} {b m : Chip} {mv' : Nat} (h : Moves L b m)
    (w : within [.rBst, .rInt, .asleep, .accums, .sys, .cyc] L = true) :
    Moves L b (Chip.boostCycle m mv') := by
  unfold Chip.boostCycle
  refine Moves.ite ?_ ?_
  · refine Chip.bstFlag_moves ?_ (within_sub w (by decide +kernel))
    assumption
  · assumption

theorem Chip.bankLose_moves {L : List Part} {b m : Chip} {b' : Nat} {mv' : Nat} {us' : Nat} (h : Moves L b m)
    (w : within [.rCh, .rDrv, .rBk, .rBst, .rDg, .rDgb, .rInt, .rMap, .frees, .asleep, .accums, .pool, .poolLast, .chans, .banks, .boost, .bcap, .jour, .sys, .cyc] L = true) :
    Moves L b (Chip.bankLose m b' mv' us') := by
  unfold Chip.bankLose
  extract_lets +onlyGivenNames x1
  have h2 : Moves L b x1 := by
    unfold x1
    refine Chip.wr_moves ?_ (within_sub w (by decide +kernel))
    assumption
  clear_value x1
  extract_lets +onlyGivenNames x3
  clear_value x3
  extract_lets +onlyGivenNames x4
  clear_value x4
  extract_lets +onlyGivenNames x5
  have h6 : Moves L b x5 := by
    unfold x5
    refine Moves.ite ?_ ?_
    · refine Chip.setBank_moves ?_ (within_sub w (by decide +kernel))
      assumption
    · assumption
  clear_value x5
  refine Moves.ite ?_ ?_
  · refine Chip.bkFlag_moves ?_ (within_sub w (by decide +kernel))
    refine Chip.bankCut_moves ?_ (within_sub w (by decide +kernel))
    refine Chip.wr_moves ?_ (within_sub w (by decide +kernel))
    refine Chip.wr_moves ?_ (within_sub w (by decide +kernel))
    assumption
  · assumption

theorem Chip.trimUp_moves {L : List Part} {b m : Chip} {d' : Nat} {step' : Nat} (h : Moves L b m)
    (w : within [.rDrv, .rPwr, .rInt, .asleep, .accums, .chans, .sys, .cyc] L = true) :
    Moves L b (Chip.trimUp m d' step') := by
  unfold Chip.trimUp
  extract_lets +onlyGivenNames x1
  clear_value x1
  refine Chip.trimStat_moves ?_ (within_sub w (by decide +kernel))
  refine Moves.foldl ?_ fun y2 a3 h4 => ?_
  · assumption
  · extract_lets +onlyGivenNames x5
    clear_value x5
    refine Chip.holdEff_moves ?_ (within_sub w (by decide +kernel))
    refine Chip.setDrv_moves ?_ (within_sub w (by decide +kernel))
    assumption

theorem Chip.lossStep_moves {L : List Part} {b m : Chip} {d' : Nat} {lossMw' : Nat} (h : Moves L b m)
    (w : within [.rDrv, .rPwr, .rInt, .stamps, .asleep, .accums, .chans, .boost, .sys, .cyc] L = true) :
    Moves L b (Chip.lossStep m d' lossMw') := by
  unfold Chip.lossStep
  extract_lets +onlyGivenNames x1
  have h2 : Moves L b x1 := by
    unfold x1
    refine Chip.stamp_moves ?_ (within_sub w (by decide +kernel))
    assumption
  clear_value x1
  extract_lets +onlyGivenNames x3
  clear_value x3
  extract_lets +onlyGivenNames x4
  clear_value x4
  extract_lets +onlyGivenNames x5
  clear_value x5
  extract_lets +onlyGivenNames x6
  clear_value x6
  extract_lets +onlyGivenNames x7
  clear_value x7
  extract_lets +onlyGivenNames x8
  clear_value x8
  extract_lets +onlyGivenNames x9
  clear_value x9
  extract_lets +onlyGivenNames x10
  have h11 : Moves L b x10 := by
    unfold x10
    refine Chip.wr_moves ?_ (within_sub w (by decide +kernel))
    refine Moves.boost ?_ (within_sub w (by decide +kernel))
    assumption
  clear_value x10
  extract_lets +onlyGivenNames x12
  clear_value x12
  extract_lets +onlyGivenNames x13
  have h14 : Moves L b x13 := by
    unfold x13
    refine Moves.ite ?_ ?_
    · refine Chip.trimDown_moves ?_ (within_sub w (by decide +kernel))
      assumption
    · refine Moves.ite ?_ ?_
      · refine Chip.trimUp_moves ?_ (within_sub w (by decide +kernel))
        assumption
      · assumption
  clear_value x13
  extract_lets +onlyGivenNames x15
  clear_value x15
  extract_lets +onlyGivenNames x16
  clear_value x16
  refine Moves.ite ?_ ?_
  · assumption
  · refine Moves.ite ?_ ?_
    · refine Moves.ite ?_ ?_
      · assumption
      · refine Chip.pwrFlag_moves ?_ (within_sub w (by decide +kernel))
        refine Chip.wr_moves ?_ (within_sub w (by decide +kernel))
        assumption
    · refine Moves.ite ?_ ?_
      · assumption
      · refine Chip.wr_moves ?_ (within_sub w (by decide +kernel))
        assumption

theorem Chip.regulate_moves {L : List Part} {b m : Chip} {ch' : Nat} (h : Moves L b m)
    (w : within [.rDrv, .rBk, .chans] L = true) :
    Moves L b (Chip.regulate m ch') := by
  unfold Chip.regulate
  extract_lets +onlyGivenNames x1
  clear_value x1
  extract_lets +onlyGivenNames x2
  clear_value x2
  extract_lets +onlyGivenNames x3
  clear_value x3
  split
  · refine Moves.ite ?_ ?_
    · assumption
    · refine Moves.ite ?_ ?_
      · assumption
      · refine Moves.ite ?_ ?_
        · refine Moves.ite ?_ ?_
          · refine Chip.bankStat_moves ?_ (within_sub w (by decide +kernel))
            refine Chip.setSw_moves ?_ (within_sub w (by decide +kernel))
            refine Chip.setDrv_moves ?_ (within_sub w (by decide +kernel))
            assumption
          · assumption
        · refine Moves.ite ?_ ?_
          · refine Moves.ite ?_ ?_
            · refine Chip.setSw_moves ?_ (within_sub w (by decide +kernel))
              assumption
            · assumption
          · refine Moves.ite ?_ ?_
            · refine Chip.setSw_moves ?_ (within_sub w (by decide +kernel))
              assumption
            · assumption

theorem Chip.currentAt_moves {L : List Part} {b m : Chip} {ch' : Nat} {code' : Nat} (h : Moves L b m)
    (w : within [.rDrv, .rBk, .chans] L = true) :
    Moves L b (Chip.currentAt m ch' code') := by
  unfold Chip.currentAt
  refine Moves.ite ?_ ?_
  · assumption
  · refine Chip.regulate_moves ?_ (within_sub w (by decide +kernel))
    refine Chip.wr_moves ?_ (within_sub w (by decide +kernel))
    assumption

theorem Chip.deferEnd_moves {L : List Part} {b m : Chip} {ch' : Nat} (h : Moves L b m)
    (w : within [.rDrv, .rBk, .rInt, .asleep, .accums, .chans, .sys, .cyc] L = true) :
    Moves L b (Chip.deferEnd m ch') := by
  unfold Chip.deferEnd
  refine Moves.ite ?_ ?_
  · refine Chip.boostDeny_moves ?_ (within_sub w (by decide +kernel))
    assumption
  · assumption

theorem Chip.boostLimit_moves {L : List Part} {b m : Chip} {ch' : Nat} (h : Moves L b m)
    (w : within [.rDrv, .rBk, .rBst, .rInt, .frees, .asleep, .accums, .chans, .boost, .bcap, .sys, .cyc] L = true) :
    Moves L b (Chip.boostLimit m ch') := by
  unfold Chip.boostLimit
  refine Moves.ite ?_ ?_
  · refine Chip.boostEnd_moves ?_ (within_sub w (by decide +kernel))
    refine Chip.drvFlag_moves ?_ (within_sub w (by decide +kernel))
    assumption
  · assumption

theorem Chip.decayOver_moves {L : List Part} {b m : Chip} {ch' : Nat} (h : Moves L b m)
    (w : within [.rDrv, .rBk, .chans] L = true) :
    Moves L b (Chip.decayOver m ch') := by
  unfold Chip.decayOver
  extract_lets +onlyGivenNames x1
  clear_value x1
  extract_lets +onlyGivenNames x2
  have h3 : Moves L b x2 := by
    unfold x2
    refine Chip.setSw_moves ?_ (within_sub w (by decide +kernel))
    refine Chip.setDrv_moves ?_ (within_sub w (by decide +kernel))
    refine Chip.wr_moves ?_ (within_sub w (by decide +kernel))
    assumption
  clear_value x2
  refine Moves.ite ?_ ?_
  · refine Chip.hssIdle_moves ?_ (within_sub w (by decide +kernel))
    refine Chip.setPhase_moves ?_ (within_sub w (by decide +kernel))
    assumption
  · refine Moves.ite ?_ ?_
    · refine Chip.bankStat_moves ?_ (within_sub w (by decide +kernel))
      refine Chip.setSw_moves ?_ (within_sub w (by decide +kernel))
      refine Chip.setDrv_moves ?_ (within_sub w (by decide +kernel))
      refine Chip.wr_moves ?_ (within_sub w (by decide +kernel))
      assumption
    · assumption

theorem Chip.vbkUv_moves {L : List Part} {b m : Chip} {b' : Nat} {mv' : Nat} {us' : Nat} (h : Moves L b m)
    (w : within [.rBk, .rInt, .asleep, .accums, .sys, .cyc] L = true) :
    Moves L b (Chip.vbkUv m b' mv' us') := by
  unfold Chip.vbkUv
  extract_lets +onlyGivenNames x1
  have h2 : Moves L b x1 := by
    unfold x1
    refine Chip.wr_moves ?_ (within_sub w (by decide +kernel))
    assumption
  clear_value x1
  refine Moves.ite ?_ ?_
  · refine Chip.bkFlag_moves ?_ (within_sub w (by decide +kernel))
    refine Chip.wr_moves ?_ (within_sub w (by decide +kernel))
    assumption
  · refine Moves.ite ?_ ?_
    · refine Chip.wr_moves ?_ (within_sub w (by decide +kernel))
      assumption
    · assumption

theorem Chip.boostReached_moves {L : List Part} {b m : Chip} {ch' : Nat} {code' : Nat} (h : Moves L b m)
    (w : within [.rDrv, .rBk, .rBst, .rInt, .frees, .asleep, .accums, .chans, .boost, .bcap, .sys, .cyc] L = true) :
    Moves L b (Chip.boostReached m ch' code') := by
  unfold Chip.boostReached
  refine Moves.ite ?_ ?_
  · refine Chip.boostEnd_moves ?_ (within_sub w (by decide +kernel))
    refine Chip.wr_moves ?_ (within_sub w (by decide +kernel))
    assumption
  · assumption

theorem Chip.boostV_moves {L : List Part} {b m : Chip} {mv' : Nat} (h : Moves L b m)
    (w : within [.rBst, .rInt, .frees, .asleep, .accums, .boost, .bcap, .sys, .cyc] L = true) :
    Moves L b (Chip.boostV m mv') := by
  unfold Chip.boostV
  extract_lets +onlyGivenNames x1
  clear_value x1
  extract_lets +onlyGivenNames x2
  have h3 : Moves L b x2 := by
    unfold x2
    refine Chip.wr_moves ?_ (within_sub w (by decide +kernel))
    refine Moves.boost ?_ (within_sub w (by decide +kernel))
    assumption
  clear_value x2
  extract_lets +onlyGivenNames x4
  clear_value x4
  extract_lets +onlyGivenNames x5
  have h6 : Moves L b x5 := by
    unfold x5
    split
    · refine Moves.ite ?_ ?_
      · refine Chip.wr_moves ?_ (within_sub w (by decide +kernel))
        refine Moves.boost ?_ (within_sub w (by decide +kernel))
        assumption
      · assumption
    · assumption
  clear_value x5
  refine Chip.boostEval_moves ?_ (within_sub w (by decide +kernel))
  assumption

theorem Chip.temperature_moves {L : List Part} {b m : Chip} {ch' : Nat} {t' : Int} (h : Moves L b m)
    (w : within [.rCh, .rDrv, .rBk, .rBst, .rPwr, .rDg, .rDgb, .rInt, .rMap, .stamps, .frees, .asleep, .accums, .pool, .poolLast, .chans, .boost, .bcap, .jour, .sys, .cyc] L = true) :
    Moves L b (Chip.temperature m ch' t') := by
  unfold Chip.temperature
  extract_lets +onlyGivenNames x1
  have h2 : Moves L b x1 := by
    unfold x1
    refine Chip.stamp_moves ?_ (within_sub w (by decide +kernel))
    assumption
  clear_value x1
  extract_lets +onlyGivenNames x3
  clear_value x3
  extract_lets +onlyGivenNames x4
  clear_value x4
  extract_lets +onlyGivenNames x5
  have h6 : Moves L b x5 := by
    unfold x5
    refine Chip.hottest_moves ?_ (within_sub w (by decide +kernel))
    refine Chip.wrFit_moves ?_ (within_sub w (by decide +kernel))
    assumption
  clear_value x5
  extract_lets +onlyGivenNames x7
  clear_value x7
  extract_lets +onlyGivenNames x8
  have h9 : Moves L b x8 := by
    unfold x8
    refine Moves.ite ?_ ?_
    · refine Chip.pwrFlag_moves ?_ (within_sub w (by decide +kernel))
      refine Chip.drvFlag_moves ?_ (within_sub w (by decide +kernel))
      assumption
    · assumption
  clear_value x8
  refine Moves.ite ?_ ?_
  · assumption
  · refine Moves.ite ?_ ?_
    · refine Chip.pwrFlag_moves ?_ (within_sub w (by decide +kernel))
      refine Chip.drvFlag_moves ?_ (within_sub w (by decide +kernel))
      refine Chip.wr_moves ?_ (within_sub w (by decide +kernel))
      refine Chip.driveCut_moves ?_ (within_sub w (by decide +kernel))
      assumption
    · refine Moves.ite ?_ ?_
      · refine Chip.wr_moves ?_ (within_sub w (by decide +kernel))
        assumption
      · assumption

theorem Chip.blankEnd_moves {L : List Part} {b m : Chip} {ch' : Nat} {code' : Nat} (h : Moves L b m)
    (w : within [.rDrv, .rBk, .chans] L = true) :
    Moves L b (Chip.blankEnd m ch' code') := by
  unfold Chip.blankEnd
  refine Moves.ite ?_ ?_
  · refine Chip.currentAt_moves ?_ (within_sub w (by decide +kernel))
    assumption
  · assumption

theorem Chip.maxonEnd_moves {L : List Part} {b m : Chip} {ch' : Nat} (h : Moves L b m)
    (w : within [.rCh, .rDrv, .rBk, .rBst, .rDg, .rDgb, .rInt, .rMap, .frees, .asleep, .accums, .pool, .poolLast, .chans, .boost, .bcap, .jour, .sys, .cyc] L = true) :
    Moves L b (Chip.maxonEnd m ch') := by
  unfold Chip.maxonEnd
  extract_lets +onlyGivenNames x1
  clear_value x1
  refine Moves.ite ?_ ?_
  · refine Chip.driveCutOwn_moves ?_ (within_sub w (by decide +kernel))
    refine Chip.drvFlag_moves ?_ (within_sub w (by decide +kernel))
    assumption
  · assumption

theorem Chip.clampStart_moves {L : List Part} {b m : Chip} {d' : Nat} {mv' : Nat} (h : Moves L b m)
    (w : within [.rBst, .rInt, .frees, .asleep, .accums, .boost, .bcap, .sys, .cyc] L = true) :
    Moves L b (Chip.clampStart m d' mv') := by
  unfold Chip.clampStart
  extract_lets +onlyGivenNames x1
  have h2 : Moves L b x1 := by
    unfold x1
    refine Chip.boostV_moves ?_ (within_sub w (by decide +kernel))
    assumption
  clear_value x1
  extract_lets +onlyGivenNames x3
  clear_value x3
  extract_lets +onlyGivenNames x4
  clear_value x4
  extract_lets +onlyGivenNames x5
  clear_value x5
  refine Moves.ite ?_ ?_
  · refine Chip.bstFlag_moves ?_ (within_sub w (by decide +kernel))
    refine Chip.wr_moves ?_ (within_sub w (by decide +kernel))
    refine Moves.boost ?_ (within_sub w (by decide +kernel))
    assumption
  · assumption

theorem Chip.bankBack_moves {L : List Part} {b m : Chip} {b' : Nat} {mv' : Nat} {us' : Nat} (h : Moves L b m)
    (w : within [.rBk, .rInt, .asleep, .accums, .sys, .cyc] L = true) :
    Moves L b (Chip.bankBack m b' mv' us') := by
  unfold Chip.bankBack
  extract_lets +onlyGivenNames x1
  have h2 : Moves L b x1 := by
    unfold x1
    refine Chip.wr_moves ?_ (within_sub w (by decide +kernel))
    assumption
  clear_value x1
  extract_lets +onlyGivenNames x3
  have h4 : Moves L b x3 := by
    unfold x3
    refine Moves.ite ?_ ?_
    · refine Chip.wr_moves ?_ (within_sub w (by decide +kernel))
      assumption
    · assumption
  clear_value x3
  extract_lets +onlyGivenNames x5
  clear_value x5
  refine Moves.ite ?_ ?_
  · refine Chip.bkFlag_moves ?_ (within_sub w (by decide +kernel))
    refine Chip.wrB_moves ?_ (within_sub w (by decide +kernel))
    refine Chip.wr_moves ?_ (within_sub w (by decide +kernel))
    assumption
  · assumption

theorem Chip.ovOut_moves {L : List Part} {b m : Chip} {mv' : Nat} (h : Moves L b m)
    (w : within [.rBst, .rInt, .frees, .asleep, .accums, .boost, .bcap, .sys, .cyc] L = true) :
    Moves L b (Chip.ovOut m mv') := by
  unfold Chip.ovOut
  extract_lets +onlyGivenNames x1
  have h2 : Moves L b x1 := by
    unfold x1
    refine Chip.boostV_moves ?_ (within_sub w (by decide +kernel))
    assumption
  clear_value x1
  refine Moves.ite ?_ ?_
  · refine Chip.bstFlag_moves ?_ (within_sub w (by decide +kernel))
    refine Chip.wr_moves ?_ (within_sub w (by decide +kernel))
    assumption
  · assumption

theorem Chip.ovIn_moves {L : List Part} {b m : Chip} {mv' : Nat} (h : Moves L b m)
    (w : within [.rDrv, .rBk, .rBst, .rInt, .frees, .asleep, .accums, .chans, .boost, .bcap, .sys, .cyc] L = true) :
    Moves L b (Chip.ovIn m mv') := by
  unfold Chip.ovIn
  extract_lets +onlyGivenNames x1
  have h2 : Moves L b x1 := by
    unfold x1
    refine Chip.boostV_moves ?_ (within_sub w (by decide +kernel))
    assumption
  clear_value x1
  refine Moves.ite ?_ ?_
  · refine Moves.foldl ?_ fun y3 a4 h5 => ?_
    · refine Chip.bstFlag_moves ?_ (within_sub w (by decide +kernel))
      refine Chip.wr_moves ?_ (within_sub w (by decide +kernel))
      assumption
    · refine Chip.decaySlow_moves ?_ (within_sub w (by decide +kernel))
      assumption
  · assumption

theorem execBoostCtlEnable_moves {L : List Part} {who' : Writer} {w' : Word} {s t : State}
    (w : within [.rBst, .rInt, .frees, .asleep, .accums, .boost, .bcap, .sys, .cyc] L = true) (e : execBoostCtlEnable who' w' s = .next t) :
    Moves L s.chip t.chip := by
  unfold execBoostCtlEnable at e
  refine upd_moves (fun m => ?_) e
  refine Moves.ite ?_ ?_
  · refine Chip.bstCtl_moves ?_ (within_sub w (by decide +kernel))
    exact .refl
  · exact .refl

theorem execChDrvWindowWrite_moves {L : List Part} {who' : Writer} {ch' : Ch} {hold' : Bool} {w' : Word} {s t : State}
    (w : within [.rDrv, .rBk, .rPwr, .rInt, .asleep, .accums, .chans, .sys, .cyc] L = true) (e : execChDrvWindowWrite who' ch' hold' w' s = .next t) :
    Moves L s.chip t.chip := by
  unfold execChDrvWindowWrite at e
  refine upd_moves (fun m => ?_) e
  refine Moves.ite ?_ ?_
  · refine Chip.windowWrite_moves ?_ (within_sub w (by decide +kernel))
    exact .refl
  · exact .refl

theorem execBlankingExpiry_moves {L : List Part} {ch' : Ch} {code' : Nat} {s t : State}
    (w : within [.rDrv, .rBk, .chans] L = true) (e : execBlankingExpiry ch' code' s = .next t) :
    Moves L s.chip t.chip := by
  unfold execBlankingExpiry at e
  refine upd_moves (fun m => ?_) e
  refine Chip.blankEnd_moves ?_ (within_sub w (by decide +kernel))
  exact .refl

theorem execDieLossBudget_moves {L : List Part} {d' : Die} {lossMw' : Nat} {s t : State}
    (w : within [.rDrv, .rPwr, .rInt, .stamps, .asleep, .accums, .chans, .boost, .sys, .cyc] L = true) (e : execDieLossBudget d' lossMw' s = .next t) :
    Moves L s.chip t.chip := by
  unfold execDieLossBudget at e
  refine upd_moves (fun m => ?_) e
  refine Chip.lossStep_moves ?_ (within_sub w (by decide +kernel))
  exact .refl

theorem execRailClampOn_moves {L : List Part} {d' : Die} {mv' : Nat} {s t : State}
    (w : within [.rBst, .rInt, .frees, .asleep, .accums, .boost, .bcap, .sys, .cyc] L = true) (e : execRailClampOn d' mv' s = .next t) :
    Moves L s.chip t.chip := by
  unfold execRailClampOn at e
  refine upd_moves (fun m => ?_) e
  refine Chip.clampStart_moves ?_ (within_sub w (by decide +kernel))
  exact .refl

theorem execBoostTimeout_moves {L : List Part} {ch' : Ch} {s t : State}
    (w : within [.rDrv, .rBk, .rBst, .rInt, .frees, .asleep, .accums, .chans, .boost, .bcap, .sys, .cyc] L = true) (e : execBoostTimeout ch' s = .next t) :
    Moves L s.chip t.chip := by
  unfold execBoostTimeout at e
  refine upd_moves (fun m => ?_) e
  refine Chip.boostLimit_moves ?_ (within_sub w (by decide +kernel))
  exact .refl

theorem execBoostCurrentReached_moves {L : List Part} {ch' : Ch} {code' : Nat} {s t : State}
    (w : within [.rDrv, .rBk, .rBst, .rInt, .frees, .asleep, .accums, .chans, .boost, .bcap, .sys, .cyc] L = true) (e : execBoostCurrentReached ch' code' s = .next t) :
    Moves L s.chip t.chip := by
  unfold execBoostCurrentReached at e
  refine upd_moves (fun m => ?_) e
  refine Chip.boostReached_moves ?_ (within_sub w (by decide +kernel))
  exact .refl

theorem execBoostDeferTimeout_moves {L : List Part} {ch' : Ch} {s t : State}
    (w : within [.rDrv, .rBk, .rInt, .asleep, .accums, .chans, .sys, .cyc] L = true) (e : execBoostDeferTimeout ch' s = .next t) :
    Moves L s.chip t.chip := by
  unfold execBoostDeferTimeout at e
  refine upd_moves (fun m => ?_) e
  refine Chip.deferEnd_moves ?_ (within_sub w (by decide +kernel))
  exact .refl

theorem execVbkLost_moves {L : List Part} {b' : Bank} {mv' : Nat} {heldUs' : Nat} {s t : State}
    (w : within [.rCh, .rDrv, .rBk, .rBst, .rDg, .rDgb, .rInt, .rMap, .frees, .asleep, .accums, .pool, .poolLast, .chans, .banks, .boost, .bcap, .jour, .sys, .cyc] L = true) (e : execVbkLost b' mv' heldUs' s = .next t) :
    Moves L s.chip t.chip := by
  unfold execVbkLost at e
  refine upd_moves (fun m => ?_) e
  refine Chip.bankLose_moves ?_ (within_sub w (by decide +kernel))
  exact .refl

theorem execBoostGrant_moves {L : List Part} {b' : Bank} {s t : State}
    (w : within [.rDrv, .rBk, .rBst, .rInt, .frees, .asleep, .accums, .chans, .boost, .bcap, .sys, .cyc] L = true) (e : execBoostGrant b' s = .next t) :
    Moves L s.chip t.chip := by
  unfold execBoostGrant at e
  refine upd_moves (fun m => ?_) e
  refine Chip.grantFirst_moves ?_ (within_sub w (by decide +kernel))
  exact .refl

theorem execBoostOvOut_moves {L : List Part} {mv' : Nat} {s t : State}
    (w : within [.rBst, .rInt, .frees, .asleep, .accums, .boost, .bcap, .sys, .cyc] L = true) (e : execBoostOvOut mv' s = .next t) :
    Moves L s.chip t.chip := by
  unfold execBoostOvOut at e
  refine upd_moves (fun m => ?_) e
  refine Chip.ovOut_moves ?_ (within_sub w (by decide +kernel))
  exact .refl

theorem execPeakTimeout_moves {L : List Part} {ch' : Ch} {s t : State}
    (w : within [.rDrv, .rBk, .rInt, .asleep, .accums, .chans, .sys, .cyc] L = true) (e : execPeakTimeout ch' s = .next t) :
    Moves L s.chip t.chip := by
  unfold execPeakTimeout at e
  refine upd_moves (fun m => ?_) e
  refine Chip.peakEnd_moves ?_ (within_sub w (by decide +kernel))
  exact .refl

theorem execMaxonTimeout_moves {L : List Part} {ch' : Ch} {s t : State}
    (w : within [.rCh, .rDrv, .rBk, .rBst, .rDg, .rDgb, .rInt, .rMap, .frees, .asleep, .accums, .pool, .poolLast, .chans, .boost, .bcap, .jour, .sys, .cyc] L = true) (e : execMaxonTimeout ch' s = .next t) :
    Moves L s.chip t.chip := by
  unfold execMaxonTimeout at e
  refine upd_moves (fun m => ?_) e
  refine Chip.maxonEnd_moves ?_ (within_sub w (by decide +kernel))
  exact .refl

theorem execBoostIlim_moves {L : List Part} {shuntMv' : Nat} {s t : State}
    (w : within [.rBst, .rInt, .asleep, .accums, .sys, .cyc] L = true) (e : execBoostIlim shuntMv' s = .next t) :
    Moves L s.chip t.chip := by
  unfold execBoostIlim at e
  refine upd_moves (fun m => ?_) e
  refine Chip.boostCycle_moves ?_ (within_sub w (by decide +kernel))
  exact .refl

theorem execDutyCheck_moves {L : List Part} {ch' : Ch} {s t : State}
    (w : within [.rCh, .rDrv, .rBk, .rBst, .rDg, .rDgb, .rInt, .rMap, .stamps, .frees, .asleep, .accums, .pool, .poolLast, .chans, .boost, .bcap, .jour, .sys, .cyc] L = true) (e : execDutyCheck ch' s = .next t) :
    Moves L s.chip t.chip := by
  unfold execDutyCheck at e
  refine upd_moves (fun m => ?_) e
  refine Chip.dutyStep_moves ?_ (within_sub w (by decide +kernel))
  exact .refl

theorem execVbkBack_moves {L : List Part} {b' : Bank} {mv' : Nat} {heldUs' : Nat} {s t : State}
    (w : within [.rBk, .rInt, .asleep, .accums, .sys, .cyc] L = true) (e : execVbkBack b' mv' heldUs' s = .next t) :
    Moves L s.chip t.chip := by
  unfold execVbkBack at e
  refine upd_moves (fun m => ?_) e
  refine Chip.bankBack_moves ?_ (within_sub w (by decide +kernel))
  exact .refl

theorem execBoostStartTimeout_moves {L : List Part} {s t : State}
    (w : within [.rBst, .rInt, .asleep, .accums, .boost, .bcap, .sys, .cyc] L = true) (e : execBoostStartTimeout s = .next t) :
    Moves L s.chip t.chip := by
  unfold execBoostStartTimeout at e
  refine upd_moves (fun m => ?_) e
  refine Chip.boostStartEnd_moves ?_ (within_sub w (by decide +kernel))
  exact .refl

theorem execChannelTemperature_moves {L : List Part} {ch' : Ch} {celsius' : Int} {s t : State}
    (w : within [.rCh, .rDrv, .rBk, .rBst, .rPwr, .rDg, .rDgb, .rInt, .rMap, .stamps, .frees, .asleep, .accums, .pool, .poolLast, .chans, .boost, .bcap, .jour, .sys, .cyc] L = true) (e : execChannelTemperature ch' celsius' s = .next t) :
    Moves L s.chip t.chip := by
  unfold execChannelTemperature at e
  refine upd_moves (fun m => ?_) e
  refine Chip.temperature_moves ?_ (within_sub w (by decide +kernel))
  exact .refl

theorem execDecayEnd_moves {L : List Part} {ch' : Ch} {s t : State}
    (w : within [.rDrv, .rBk, .chans] L = true) (e : execDecayEnd ch' s = .next t) :
    Moves L s.chip t.chip := by
  unfold execDecayEnd at e
  refine upd_moves (fun m => ?_) e
  refine Chip.decayOver_moves ?_ (within_sub w (by decide +kernel))
  exact .refl

theorem execBoostOvIn_moves {L : List Part} {mv' : Nat} {s t : State}
    (w : within [.rDrv, .rBk, .rBst, .rInt, .frees, .asleep, .accums, .chans, .boost, .bcap, .sys, .cyc] L = true) (e : execBoostOvIn mv' s = .next t) :
    Moves L s.chip t.chip := by
  unfold execBoostOvIn at e
  refine upd_moves (fun m => ?_) e
  refine Chip.ovIn_moves ?_ (within_sub w (by decide +kernel))
  exact .refl

theorem execBankEnableWrite_moves {L : List Part} {who' : Writer} {b' : Bank} {w' : Word} {s t : State}
    (w : within [.rCh, .rDrv, .rBk, .rBst, .rDg, .rDgb, .rCap, .rInt, .rMap, .frees, .asleep, .accums, .pool, .poolLast, .chans, .banks, .boost, .capReq, .capTb, .bcap, .jour, .sys, .cyc] L = true) (e : execBankEnableWrite who' b' w' s = .next t) :
    Moves L s.chip t.chip := by
  unfold execBankEnableWrite at e
  refine upd_moves (fun m => ?_) e
  refine Moves.ite ?_ ?_
  · refine Chip.bankCtl_moves ?_ (within_sub w (by decide +kernel))
    exact .refl
  · exact .refl

theorem execWindowCrossing_moves {L : List Part} {ch' : Ch} {code' : Nat} {s t : State}
    (w : within [.rDrv, .rBk, .chans] L = true) (e : execWindowCrossing ch' code' s = .next t) :
    Moves L s.chip t.chip := by
  unfold execWindowCrossing at e
  refine upd_moves (fun m => ?_) e
  refine Chip.currentAt_moves ?_ (within_sub w (by decide +kernel))
  exact .refl

theorem execClusterSilence_moves {L : List Part} {c' : Cl} {s t : State}
    (w : within [.rCh, .rTr, .rDrv, .rBk, .rBst, .rDg, .rDgb, .rCap, .rInt, .rMap, .isl, .frees, .asleep, .accums, .pool, .poolLast, .chans, .banks, .boost, .bcap, .jour, .sys, .cyc] L = true) (e : execClusterSilence c' s = .next t) :
    Moves L s.chip t.chip := by
  unfold execClusterSilence at e
  refine upd_moves (fun m => ?_) e
  refine Chip.clusterStop_moves ?_ (within_sub w (by decide +kernel))
  exact .refl

theorem execVbkUndervoltage_moves {L : List Part} {b' : Bank} {mv' : Nat} {heldUs' : Nat} {s t : State}
    (w : within [.rBk, .rInt, .asleep, .accums, .sys, .cyc] L = true) (e : execVbkUndervoltage b' mv' heldUs' s = .next t) :
    Moves L s.chip t.chip := by
  unfold execVbkUndervoltage at e
  refine upd_moves (fun m => ?_) e
  refine Chip.vbkUv_moves ?_ (within_sub w (by decide +kernel))
  exact .refl

theorem execBoostReady_moves {L : List Part} {mv' : Nat} {s t : State}
    (w : within [.rBst, .rInt, .frees, .asleep, .accums, .boost, .bcap, .sys, .cyc] L = true) (e : execBoostReady mv' s = .next t) :
    Moves L s.chip t.chip := by
  unfold execBoostReady at e
  refine upd_moves (fun m => ?_) e
  refine Chip.boostV_moves ?_ (within_sub w (by decide +kernel))
  exact .refl

end Sys2Proof.Machine
end

