-- ==== Sys2Proof/Laws/MovesDiagOps.lean ====
section
/-! SUPPORT. Each operation of Machine/DiagOps.lean moves the block within the parts it names. -/

-- Theorem by theorem: many at once each take a thread's stack, and the package as one text ran out of them.
set_option Elab.async false

namespace Sys2Proof.Machine

theorem Chip.leaveSafe_moves {L : List Part} {b m : Chip} {ch' : Nat} (h : Moves L b m)
    (w : within [.rDg, .rDgb, .rInt, .asleep, .accums, .chans, .sys, .cyc] L = true) :
    Moves L b (Chip.leaveSafe m ch') := by
  unfold Chip.leaveSafe
  extract_lets +onlyGivenNames x1
  clear_value x1
  refine Chip.dgFlag_moves ?_ (within_sub w (by decide +kernel))
  refine Chip.wr_moves ?_ (within_sub w (by decide +kernel))
  refine Chip.setDrv_moves ?_ (within_sub w (by decide +kernel))
  assumption

theorem Chip.setCond_moves {L : List Part} {b m : Chip} {ch' : Nat} {b' : Nat} {v' : Bool} (h : Moves L b m)
    (w : within [.rDg] L = true) :
    Moves L b (Chip.setCond m ch' b' v') := by
  unfold Chip.setCond
  refine Chip.wr_moves ?_ (within_sub w (by decide +kernel))
  assumption

theorem Chip.diagClr_moves {L : List Part} {b m : Chip} {ch' : Nat} (h : Moves L b m)
    (w : within [.rDg, .rDgb, .rInt, .asleep, .accums, .chans, .sys, .cyc] L = true) :
    Moves L b (Chip.diagClr m ch') := by
  unfold Chip.diagClr
  extract_lets +onlyGivenNames x1
  clear_value x1
  extract_lets +onlyGivenNames x2
  clear_value x2
  refine Moves.ite ?_ ?_
  · refine Chip.dgFlag_moves ?_ (within_sub w (by decide +kernel))
    assumption
  · refine Moves.ite ?_ ?_
    · assumption
    · refine Moves.ite ?_ ?_
      · refine Chip.dgFlag_moves ?_ (within_sub w (by decide +kernel))
        assumption
      · refine Chip.leaveSafe_moves ?_ (within_sub w (by decide +kernel))
        refine Chip.setCond_moves ?_ (within_sub w (by decide +kernel))
        refine Chip.setDrv_moves ?_ (within_sub w (by decide +kernel))
        assumption

theorem Chip.dgNotchRead_moves {L : List Part} {b m : Chip} {ch' : Nat} (h : Moves L b m)
    (w : within [.rDg, .rdata] L = true) :
    Moves L b (Chip.dgNotchRead m ch') := by
  unfold Chip.dgNotchRead
  extract_lets +onlyGivenNames x1
  clear_value x1
  extract_lets +onlyGivenNames x2
  have h3 : Moves L b x2 := by
    unfold x2
    refine Chip.wrTb_moves ?_ (within_sub w (by decide +kernel))
    assumption
  clear_value x2
  extract_lets +onlyGivenNames x4
  have h5 : Moves L b x4 := by
    unfold x4
    refine Chip.wrTb_moves ?_ (within_sub w (by decide +kernel))
    assumption
  clear_value x4
  refine Moves.ite ?_ ?_
  · refine Moves.rdata ?_ (within_sub w (by decide +kernel))
    assumption
  · refine Moves.rdata ?_ (within_sub w (by decide +kernel))
    assumption

theorem Chip.detect_moves {L : List Part} {b m : Chip} {ch' : Nat} {b' : Nat} (h : Moves L b m)
    (w : within [.rDg, .rDgb, .rInt, .asleep, .accums, .chans, .sys, .cyc] L = true) :
    Moves L b (Chip.detect m ch' b') := by
  unfold Chip.detect
  extract_lets +onlyGivenNames x1
  have h2 : Moves L b x1 := by
    unfold x1
    refine Chip.setCond_moves ?_ (within_sub w (by decide +kernel))
    assumption
  clear_value x1
  extract_lets +onlyGivenNames x3
  clear_value x3
  extract_lets +onlyGivenNames x4
  clear_value x4
  refine Moves.ite ?_ ?_
  · assumption
  · refine Chip.dgFlag_moves ?_ (within_sub w (by decide +kernel))
    refine Chip.setDrv_moves ?_ (within_sub w (by decide +kernel))
    assumption

theorem Chip.safeOff_moves {L : List Part} {b m : Chip} {ch' : Nat} {forced' : Bool} (h : Moves L b m)
    (w : within [.rCh, .rDrv, .rBk, .rBst, .rDg, .rDgb, .rInt, .rMap, .frees, .asleep, .accums, .pool, .poolLast, .chans, .boost, .bcap, .jour, .sys, .cyc] L = true) :
    Moves L b (Chip.safeOff m ch' forced') := by
  unfold Chip.safeOff
  extract_lets +onlyGivenNames x1
  have h2 : Moves L b x1 := by
    unfold x1
    refine Chip.cutPulses_moves ?_ (within_sub w (by decide +kernel))
    refine Chip.wr_moves ?_ (within_sub w (by decide +kernel))
    refine Chip.wr_moves ?_ (within_sub w (by decide +kernel))
    assumption
  clear_value x1
  extract_lets +onlyGivenNames x3
  clear_value x3
  extract_lets +onlyGivenNames x4
  have h5 : Moves L b x4 := by
    unfold x4
    refine Chip.setChan_moves ?_ (within_sub w (by decide +kernel))
    assumption
  clear_value x4
  extract_lets +onlyGivenNames x6
  unfold x6
  clear_value x6
  extract_lets +onlyGivenNames x7
  have h8 : Moves L b x7 := by
    unfold x7
    refine Moves.ite ?_ ?_
    · assumption
    · refine Chip.drvOffBy_moves ?_ (within_sub w (by decide +kernel)) fun y9 h10 => ?_
      · assumption
      · split
        · refine Chip.decayForced_moves ?_ (within_sub w (by decide +kernel))
          assumption
        · refine Chip.decayAs_moves ?_ (within_sub w (by decide +kernel))
          assumption
  clear_value x7
  extract_lets +onlyGivenNames x11
  have h12 : Moves L b x11 := by
    unfold x11
    refine Moves.ite ?_ ?_
    · split
      · rename_i y13 y14 y15 q16
        have h17 : Moves L b ((y14 : Bool), y15).2 := by
          rw [← q16]
          split
          · refine Chip.decayForced_moves ?_ (within_sub w (by decide +kernel))
            assumption
          · refine Chip.decayAs_moves ?_ (within_sub w (by decide +kernel))
            assumption
        extract_lets +onlyGivenNames x18
        clear_value x18
        refine Chip.bankStat_moves ?_ (within_sub w (by decide +kernel))
        refine Chip.setSw_moves ?_ (within_sub w (by decide +kernel))
        refine Chip.setDrv_moves ?_ (within_sub w (by decide +kernel))
        assumption
    · assumption
  clear_value x11
  extract_lets +onlyGivenNames x19
  clear_value x19
  refine Moves.ite ?_ ?_
  · refine Chip.setDrv_moves ?_ (within_sub w (by decide +kernel))
    assumption
  · assumption

theorem Chip.enterSafe_moves {L : List Part} {b m : Chip} {ch' : Nat} {forced' : Bool} (h : Moves L b m)
    (w : within [.rCh, .rTr, .rDrv, .rBk, .rBst, .rDg, .rDgb, .rCap, .rInt, .rMap, .frees, .asleep, .accums, .pool, .poolLast, .chans, .banks, .boost, .bcap, .jour, .sys, .cyc] L = true) :
    Moves L b (Chip.enterSafe m ch' forced') := by
  unfold Chip.enterSafe
  extract_lets +onlyGivenNames x1
  have h2 : Moves L b x1 := by
    unfold x1
    refine Chip.safeOff_moves ?_ (within_sub w (by decide +kernel))
    assumption
  clear_value x1
  extract_lets +onlyGivenNames x3
  have h4 : Moves L b x3 := by
    unfold x3
    refine Chip.standEndAll_moves ?_ (within_sub w (by decide +kernel))
    refine Chip.trainStop_moves ?_ (within_sub w (by decide +kernel))
    assumption
  clear_value x3
  refine Moves.ite ?_ ?_
  · assumption
  · refine Chip.dgFlag_moves ?_ (within_sub w (by decide +kernel))
    refine Chip.wr_moves ?_ (within_sub w (by decide +kernel))
    assumption

theorem Chip.supplyFoundOn_moves {L : List Part} {b m : Chip} {ch' : Nat} (h : Moves L b m)
    (w : within [.rCh, .rTr, .rDrv, .rBk, .rBst, .rDg, .rDgb, .rCap, .rInt, .rMap, .frees, .asleep, .accums, .pool, .poolLast, .chans, .banks, .boost, .bcap, .jour, .sys, .cyc] L = true) :
    Moves L b (Chip.supplyFoundOn m ch') := by
  unfold Chip.supplyFoundOn
  extract_lets +onlyGivenNames x1
  have h2 : Moves L b x1 := by
    unfold x1
    refine Chip.detect_moves ?_ (within_sub w (by decide +kernel))
    refine Chip.count_moves ?_ (within_sub w (by decide +kernel))
    assumption
  clear_value x1
  extract_lets +onlyGivenNames x3
  clear_value x3
  extract_lets +onlyGivenNames x4
  have h5 : Moves L b x4 := by
    unfold x4
    refine Chip.setDrv_moves ?_ (within_sub w (by decide +kernel))
    assumption
  clear_value x4
  refine Moves.ite ?_ ?_
  · refine Chip.safeOff_moves ?_ (within_sub w (by decide +kernel))
    assumption
  · refine Chip.enterSafe_moves ?_ (within_sub w (by decide +kernel))
    assumption

theorem Chip.tripShort_moves {L : List Part} {b m : Chip} {ch' : Nat} {ma' : Nat} (h : Moves L b m)
    (w : within [.rCh, .rTr, .rDrv, .rBk, .rBst, .rDg, .rDgb, .rCap, .rInt, .rMap, .frees, .asleep, .accums, .pool, .poolLast, .chans, .banks, .boost, .bcap, .jour, .sys, .cyc] L = true) :
    Moves L b (Chip.tripShort m ch' ma') := by
  unfold Chip.tripShort
  refine Moves.ite ?_ ?_
  · refine Chip.supplyFoundOn_moves ?_ (within_sub w (by decide +kernel))
    assumption
  · assumption

theorem Chip.measure_moves {L : List Part} {b m : Chip} {ch' : Nat} {mt' : Nat} (h : Moves L b m)
    (w : within [.rCh, .rInt, .frees, .asleep, .accums, .chans, .sys, .cyc] L = true) :
    Moves L b (Chip.measure m ch' mt') := by
  unfold Chip.measure
  extract_lets +onlyGivenNames x1
  clear_value x1
  extract_lets +onlyGivenNames x2
  clear_value x2
  extract_lets +onlyGivenNames x3
  clear_value x3
  extract_lets +onlyGivenNames x4
  clear_value x4
  extract_lets +onlyGivenNames x5
  clear_value x5
  extract_lets +onlyGivenNames x6
  have h7 : Moves L b x6 := by
    unfold x6
    refine Chip.setChan_moves ?_ (within_sub w (by decide +kernel))
    assumption
  clear_value x6
  refine Moves.ite ?_ ?_
  · split
    · rename_i y8 y9 y10 q11
      have h12 : Moves L b ((y9 : Int), y10).2 := by
        rw [← q11]
        refine Chip.free_moves ?_ (within_sub w (by decide +kernel))
        assumption
      refine Chip.setChan_moves ?_ (within_sub w (by decide +kernel))
      assumption
  · refine Moves.ite ?_ ?_
    · refine Chip.chFlag_moves ?_ (within_sub w (by decide +kernel))
      assumption
    · assumption

theorem Chip.notchAt_moves {L : List Part} {b m : Chip} {ch' : Nat} {t' : Nat} (h : Moves L b m)
    (w : within [.rCh, .rDrv, .rBk, .rDg, .rDgb, .rCap, .rInt, .rMap, .frees, .asleep, .accums, .chans, .sys, .cyc] L = true) :
    Moves L b (Chip.notchAt m ch' t') := by
  unfold Chip.notchAt
  extract_lets +onlyGivenNames x1
  clear_value x1
  extract_lets +onlyGivenNames x2
  clear_value x2
  extract_lets +onlyGivenNames x3
  clear_value x3
  extract_lets +onlyGivenNames x4
  clear_value x4
  extract_lets +onlyGivenNames x5
  have h6 : Moves L b x5 := by
    unfold x5
    refine Chip.wrTb_moves ?_ (within_sub w (by decide +kernel))
    refine Chip.wrB_moves ?_ (within_sub w (by decide +kernel))
    refine Chip.wr_moves ?_ (within_sub w (by decide +kernel))
    assumption
  clear_value x5
  extract_lets +onlyGivenNames x7
  have h8 : Moves L b x7 := by
    unfold x7
    refine Chip.setDrv_moves ?_ (within_sub w (by decide +kernel))
    assumption
  clear_value x7
  extract_lets +onlyGivenNames x9
  have h10 : Moves L b x9 := by
    unfold x9
    refine Moves.ite ?_ ?_
    · refine Chip.measure_moves ?_ (within_sub w (by decide +kernel))
      assumption
    · assumption
  clear_value x9
  extract_lets +onlyGivenNames x11
  have h12 : Moves L b x11 := by
    unfold x11
    refine Chip.dgFlag_moves ?_ (within_sub w (by decide +kernel))
    refine Chip.laneNotch_moves ?_ (within_sub w (by decide +kernel))
    refine Chip.strokeBegin_moves ?_ (within_sub w (by decide +kernel))
    assumption
  clear_value x11
  refine Moves.ite ?_ ?_
  · refine Chip.toHold_moves ?_ (within_sub w (by decide +kernel))
    assumption
  · assumption

theorem Chip.notchSeek_moves {L : List Part} {b m : Chip} {ch' : Nat} {xs' : List (Nat × Nat)} (h : Moves L b m)
    (w : within [.rCh, .rDrv, .rBk, .rDg, .rDgb, .rCap, .rInt, .rMap, .frees, .asleep, .accums, .chans, .sys, .cyc] L = true) :
    Moves L b (Chip.notchSeek m ch' xs') := by
  unfold Chip.notchSeek
  extract_lets +onlyGivenNames x1
  clear_value x1
  refine Moves.ite ?_ ?_
  · split
    · refine Chip.notchAt_moves ?_ (within_sub w (by decide +kernel))
      assumption
    · assumption
  · assumption

theorem Chip.supNodeHi_moves {L : List Part} {b m : Chip} {b' : Nat} (h : Moves L b m)
    (w : within [.rDgb, .rInt, .asleep, .accums, .banks, .sys, .cyc] L = true) :
    Moves L b (Chip.supNodeHi m b') := by
  unfold Chip.supNodeHi
  split
  · assumption
  · extract_lets +onlyGivenNames x1
    clear_value x1
    refine Moves.ite ?_ ?_
    · assumption
    · refine Chip.dgbFlag_moves ?_ (within_sub w (by decide +kernel))
      refine Chip.wr_moves ?_ (within_sub w (by decide +kernel))
      refine Chip.wr_moves ?_ (within_sub w (by decide +kernel))
      refine Chip.setBank_moves ?_ (within_sub w (by decide +kernel))
      assumption

theorem Chip.supplyFoundOff_moves {L : List Part} {b m : Chip} {ch' : Nat} (h : Moves L b m)
    (w : within [.rCh, .rTr, .rDrv, .rBk, .rBst, .rDg, .rDgb, .rCap, .rInt, .rMap, .frees, .asleep, .accums, .pool, .poolLast, .chans, .banks, .boost, .bcap, .jour, .sys, .cyc] L = true) :
    Moves L b (Chip.supplyFoundOff m ch') := by
  unfold Chip.supplyFoundOff
  extract_lets +onlyGivenNames x1
  have h2 : Moves L b x1 := by
    unfold x1
    refine Moves.ite ?_ ?_
    · assumption
    · refine Chip.detect_moves ?_ (within_sub w (by decide +kernel))
      assumption
  clear_value x1
  extract_lets +onlyGivenNames x3
  clear_value x3
  refine Chip.enterSafe_moves ?_ (within_sub w (by decide +kernel))
  refine Chip.setDrv_moves ?_ (within_sub w (by decide +kernel))
  assumption

theorem Chip.openFound_moves {L : List Part} {b m : Chip} {ch' : Nat} (h : Moves L b m)
    (w : within [.rCh, .rTr, .rDrv, .rBk, .rBst, .rDg, .rDgb, .rCap, .rInt, .rMap, .frees, .asleep, .accums, .pool, .poolLast, .chans, .banks, .boost, .bcap, .jour, .sys, .cyc] L = true) :
    Moves L b (Chip.openFound m ch') := by
  unfold Chip.openFound
  extract_lets +onlyGivenNames x1
  have h2 : Moves L b x1 := by
    unfold x1
    refine Moves.ite ?_ ?_
    · assumption
    · refine Chip.detect_moves ?_ (within_sub w (by decide +kernel))
      assumption
  clear_value x1
  refine Moves.ite ?_ ?_
  · assumption
  · refine Moves.ite ?_ ?_
    · refine Chip.enterSafe_moves ?_ (within_sub w (by decide +kernel))
      assumption
    · refine Chip.wr_moves ?_ (within_sub w (by decide +kernel))
      assumption

theorem Chip.groundFound_moves {L : List Part} {b m : Chip} {ch' : Nat} (h : Moves L b m)
    (w : within [.rCh, .rTr, .rDrv, .rBk, .rBst, .rDg, .rDgb, .rCap, .rInt, .rMap, .frees, .asleep, .accums, .pool, .poolLast, .chans, .banks, .boost, .capReq, .capTb, .bcap, .jour, .sys, .cyc] L = true) :
    Moves L b (Chip.groundFound m ch') := by
  unfold Chip.groundFound
  extract_lets +onlyGivenNames x1
  have h2 : Moves L b x1 := by
    unfold x1
    refine Chip.enterSafe_moves ?_ (within_sub w (by decide +kernel))
    refine Moves.ite ?_ ?_
    · assumption
    · refine Chip.detect_moves ?_ (within_sub w (by decide +kernel))
      assumption
  clear_value x1
  extract_lets +onlyGivenNames x3
  clear_value x3
  refine Moves.ite ?_ ?_
  · refine Chip.dgFlag_moves ?_ (within_sub w (by decide +kernel))
    refine Chip.bankCtl_moves ?_ (within_sub w (by decide +kernel))
    assumption
  · assumption

theorem Chip.nodeConfirm_moves {L : List Part} {b m : Chip} {ch' : Nat} {prev' : Nat} {r' : Nat} (h : Moves L b m)
    (w : within [.rCh, .rTr, .rDrv, .rBk, .rBst, .rDg, .rDgb, .rCap, .rInt, .rMap, .frees, .asleep, .accums, .pool, .poolLast, .chans, .banks, .boost, .capReq, .capTb, .bcap, .jour, .sys, .cyc] L = true) :
    Moves L b (Chip.nodeConfirm m ch' prev' r') := by
  unfold Chip.nodeConfirm
  extract_lets +onlyGivenNames x1
  clear_value x1
  extract_lets +onlyGivenNames x2
  have h3 : Moves L b x2 := by
    unfold x2
    refine Chip.setCond_moves ?_ (within_sub w (by decide +kernel))
    assumption
  clear_value x2
  refine Moves.ite ?_ ?_
  · refine Moves.ite ?_ ?_
    · refine Chip.wr_moves ?_ (within_sub w (by decide +kernel))
      assumption
    · assumption
  · refine Moves.ite ?_ ?_
    · refine Moves.ite ?_ ?_
      · refine Chip.openFound_moves ?_ (within_sub w (by decide +kernel))
        assumption
      · assumption
    · refine Moves.ite ?_ ?_
      · refine Chip.groundFound_moves ?_ (within_sub w (by decide +kernel))
        assumption
      · assumption

theorem Chip.supChannel_moves {L : List Part} {b m : Chip} {ch' : Nat} {r' : Bool} (h : Moves L b m)
    (w : within [.rCh, .rTr, .rDrv, .rBk, .rBst, .rDg, .rDgb, .rCap, .rInt, .rMap, .frees, .asleep, .accums, .pool, .poolLast, .chans, .banks, .boost, .bcap, .jour, .sys, .cyc] L = true) :
    Moves L b (Chip.supChannel m ch' r') := by
  unfold Chip.supChannel
  extract_lets +onlyGivenNames x1
  clear_value x1
  extract_lets +onlyGivenNames x2
  have h3 : Moves L b x2 := by
    unfold x2
    refine Chip.setDrv_moves ?_ (within_sub w (by decide +kernel))
    assumption
  clear_value x2
  extract_lets +onlyGivenNames x4
  clear_value x4
  refine Moves.ite ?_ ?_
  · refine Chip.supplyFoundOff_moves ?_ (within_sub w (by decide +kernel))
    assumption
  · refine Moves.ite ?_ ?_
    · refine Chip.setCond_moves ?_ (within_sub w (by decide +kernel))
      refine Chip.setDrv_moves ?_ (within_sub w (by decide +kernel))
      assumption
    · assumption

theorem Chip.supEnd_moves {L : List Part} {b m : Chip} {b' : Nat} {bits' : Nat} (h : Moves L b m)
    (w : within [.rCh, .rTr, .rDrv, .rBk, .rBst, .rDg, .rDgb, .rCap, .rInt, .rMap, .frees, .asleep, .accums, .pool, .poolLast, .chans, .banks, .boost, .bcap, .jour, .sys, .cyc] L = true) :
    Moves L b (Chip.supEnd m b' bits') := by
  unfold Chip.supEnd
  split
  · assumption
  · extract_lets +onlyGivenNames x1
    clear_value x1
    extract_lets +onlyGivenNames x2
    have h3 : Moves L b x2 := by
      unfold x2
      refine Chip.wr_moves ?_ (within_sub w (by decide +kernel))
      refine Chip.wr_moves ?_ (within_sub w (by decide +kernel))
      refine Chip.wr_moves ?_ (within_sub w (by decide +kernel))
      refine Chip.setBank_moves ?_ (within_sub w (by decide +kernel))
      assumption
    clear_value x2
    extract_lets +onlyGivenNames x4
    have h5 : Moves L b x4 := by
      unfold x4
      refine Moves.foldl ?_ fun y6 a7 h8 => ?_
      · assumption
      · refine Chip.supChannel_moves ?_ (within_sub w (by decide +kernel))
        assumption
    clear_value x4
    refine Moves.ite ?_ ?_
    · assumption
    · refine Chip.dgbFlag_moves ?_ (within_sub w (by decide +kernel))
      assumption

theorem Chip.nodeClear_moves {L : List Part} {b m : Chip} {ch' : Nat} {prev' : Nat} {r' : Nat} (h : Moves L b m)
    (w : within [.rDg] L = true) :
    Moves L b (Chip.nodeClear m ch' prev' r') := by
  unfold Chip.nodeClear
  extract_lets +onlyGivenNames x1
  clear_value x1
  extract_lets +onlyGivenNames x2
  clear_value x2
  extract_lets +onlyGivenNames x3
  have h4 : Moves L b x3 := by
    unfold x3
    refine Moves.ite ?_ ?_
    · refine Chip.setCond_moves ?_ (within_sub w (by decide +kernel))
      assumption
    · assumption
  clear_value x3
  refine Moves.ite ?_ ?_
  · refine Chip.setCond_moves ?_ (within_sub w (by decide +kernel))
    assumption
  · assumption

theorem Chip.nodeRetry_moves {L : List Part} {b m : Chip} {ch' : Nat} (h : Moves L b m)
    (w : within [.rDg, .rDgb, .rInt, .asleep, .accums, .chans, .sys, .cyc] L = true) :
    Moves L b (Chip.nodeRetry m ch') := by
  unfold Chip.nodeRetry
  refine Moves.ite ?_ ?_
  · refine Chip.leaveSafe_moves ?_ (within_sub w (by decide +kernel))
    assumption
  · assumption

theorem Chip.nodeEnd_moves {L : List Part} {b m : Chip} {ch' : Nat} {vout' : Int} {vbk' : Int} (h : Moves L b m)
    (w : within [.rCh, .rTr, .rDrv, .rBk, .rBst, .rDg, .rDgb, .rCap, .rInt, .rMap, .frees, .asleep, .accums, .pool, .poolLast, .chans, .banks, .boost, .capReq, .capTb, .bcap, .jour, .sys, .cyc] L = true) :
    Moves L b (Chip.nodeEnd m ch' vout' vbk') := by
  unfold Chip.nodeEnd
  extract_lets +onlyGivenNames x1
  clear_value x1
  split
  · assumption
  · extract_lets +onlyGivenNames x2
    clear_value x2
    extract_lets +onlyGivenNames x3
    have h4 : Moves L b x3 := by
      unfold x3
      refine Chip.wr_moves ?_ (within_sub w (by decide +kernel))
      refine Chip.setDrv_moves ?_ (within_sub w (by decide +kernel))
      assumption
    clear_value x3
    extract_lets +onlyGivenNames x5
    clear_value x5
    extract_lets +onlyGivenNames x6
    have h7 : Moves L b x6 := by
      unfold x6
      refine Chip.nodeConfirm_moves ?_ (within_sub w (by decide +kernel))
      refine Chip.nodeClear_moves ?_ (within_sub w (by decide +kernel))
      assumption
    clear_value x6
    refine Moves.ite ?_ ?_
    · assumption
    · refine Moves.ite ?_ ?_
      · refine Chip.nodeRetry_moves ?_ (within_sub w (by decide +kernel))
        assumption
      · assumption

theorem Chip.tooFastAt_moves {L : List Part} {b m : Chip} {ch' : Nat} {code' : Nat} (h : Moves L b m)
    (w : within [.rCh, .rTr, .rDrv, .rBk, .rBst, .rDg, .rDgb, .rCap, .rInt, .rMap, .frees, .asleep, .accums, .pool, .poolLast, .chans, .banks, .boost, .bcap, .jour, .sys, .cyc] L = true) :
    Moves L b (Chip.tooFastAt m ch' code') := by
  unfold Chip.tooFastAt
  split
  · assumption
  · refine Moves.ite ?_ ?_
    · refine Chip.supplyFoundOn_moves ?_ (within_sub w (by decide +kernel))
      refine Chip.wr_moves ?_ (within_sub w (by decide +kernel))
      assumption
    · assumption

theorem Chip.nodeStart_moves {L : List Part} {b m : Chip} {ch' : Nat} (h : Moves L b m)
    (w : within [.chans] L = true) :
    Moves L b (Chip.nodeStart m ch') := by
  unfold Chip.nodeStart
  extract_lets +onlyGivenNames x1
  clear_value x1
  extract_lets +onlyGivenNames x2
  clear_value x2
  refine Moves.ite ?_ ?_
  · refine Chip.setDrv_moves ?_ (within_sub w (by decide +kernel))
    assumption
  · assumption

theorem Chip.noRiseAt_moves {L : List Part} {b m : Chip} {ch' : Nat} {code' : Nat} (h : Moves L b m)
    (w : within [.rDrv, .rDg, .rDgb, .rInt, .asleep, .accums, .chans, .sys, .cyc] L = true) :
    Moves L b (Chip.noRiseAt m ch' code') := by
  unfold Chip.noRiseAt
  split
  · assumption
  · extract_lets +onlyGivenNames x1
    clear_value x1
    extract_lets +onlyGivenNames x2
    clear_value x2
    extract_lets +onlyGivenNames x3
    have h4 : Moves L b x3 := by
      unfold x3
      refine Chip.setDrv_moves ?_ (within_sub w (by decide +kernel))
      refine Chip.wr_moves ?_ (within_sub w (by decide +kernel))
      assumption
    clear_value x3
    extract_lets +onlyGivenNames x5
    clear_value x5
    extract_lets +onlyGivenNames x6
    have h7 : Moves L b x6 := by
      unfold x6
      refine Chip.detect_moves ?_ (within_sub w (by decide +kernel))
      refine Chip.setDrv_moves ?_ (within_sub w (by decide +kernel))
      assumption
    clear_value x6
    refine Moves.ite ?_ ?_
    · assumption
    · refine Moves.ite ?_ ?_
      · refine Moves.ite ?_ ?_
        · refine Chip.wr_moves ?_ (within_sub w (by decide +kernel))
          assumption
        · assumption
      · assumption

theorem Chip.heldLow_moves {L : List Part} {b m : Chip} {ch' : Nat} {vout' : Int} (h : Moves L b m)
    (w : within [.rCh, .rTr, .rDrv, .rBk, .rBst, .rDg, .rDgb, .rCap, .rInt, .rMap, .frees, .asleep, .accums, .pool, .poolLast, .chans, .banks, .boost, .capReq, .capTb, .bcap, .jour, .sys, .cyc] L = true) :
    Moves L b (Chip.heldLow m ch' vout') := by
  unfold Chip.heldLow
  extract_lets +onlyGivenNames x1
  clear_value x1
  split
  · assumption
  · extract_lets +onlyGivenNames x2
    have h3 : Moves L b x2 := by
      unfold x2
      refine Chip.setDrv_moves ?_ (within_sub w (by decide +kernel))
      assumption
    clear_value x2
    refine Moves.ite ?_ ?_
    · assumption
    · refine Moves.ite ?_ ?_
      · refine Chip.groundFound_moves ?_ (within_sub w (by decide +kernel))
        assumption
      · assumption

theorem Chip.supStart_moves {L : List Part} {b m : Chip} {b' : Nat} (h : Moves L b m)
    (w : within [.rDgb, .banks] L = true) :
    Moves L b (Chip.supStart m b') := by
  unfold Chip.supStart
  extract_lets +onlyGivenNames x1
  clear_value x1
  extract_lets +onlyGivenNames x2
  clear_value x2
  refine Moves.ite ?_ ?_
  · refine Chip.wr_moves ?_ (within_sub w (by decide +kernel))
    refine Chip.setBank_moves ?_ (within_sub w (by decide +kernel))
    assumption
  · assumption

theorem Chip.notchEnd_moves {L : List Part} {b m : Chip} {ch' : Nat} (h : Moves L b m)
    (w : within [.rDg, .rDgb, .rInt, .rMap, .asleep, .accums, .chans, .sys, .cyc] L = true) :
    Moves L b (Chip.notchEnd m ch') := by
  unfold Chip.notchEnd
  extract_lets +onlyGivenNames x1
  clear_value x1
  refine Moves.ite ?_ ?_
  · refine Chip.noNotch_moves ?_ (within_sub w (by decide +kernel))
    assumption
  · assumption

end Sys2Proof.Machine
end

