-- ==== Sys2Proof/Laws/MovesDiag.lean ====
section
/-! SUPPORT. Each operation of Machine/Diag.lean moves the block within the parts it names. -/

-- Theorem by theorem: many at once each take a thread's stack, and the package as one text ran out of them.
set_option Elab.async false

namespace Sys2Proof.Machine

theorem execNotchFound_moves {L : List Part} {ch' : Ch} {samples' : List (Nat × Nat)} {s t : State}
    (w : within [.rCh, .rDrv, .rBk, .rDg, .rDgb, .rCap, .rInt, .rMap, .frees, .asleep, .accums, .chans, .sys, .cyc] L = true) (e : execNotchFound ch' samples' s = .next t) :
    Moves L s.chip t.chip := by
  unfold execNotchFound at e
  refine upd_moves (fun m => ?_) e
  refine Chip.notchSeek_moves ?_ (within_sub w (by decide +kernel))
  exact .refl

theorem execCaptureArmTimeout_moves {L : List Part} {c' : Cap} {lane' : Fin 4} {s t : State}
    (w : within [.rCap, .rInt, .asleep, .accums, .chans, .capReq, .capTb, .sys, .cyc] L = true) (e : execCaptureArmTimeout c' lane' s = .next t) :
    Moves L s.chip t.chip := by
  unfold execCaptureArmTimeout at e
  refine upd_moves (fun m => ?_) e
  refine Chip.laneSkip_moves ?_ (within_sub w (by decide +kernel))
  exact .refl

theorem execCaptureLaneDone_moves {L : List Part} {c' : Cap} {lane' : Fin 4} {samples' : List (BitVec 12)} {s t : State}
    (w : within [.rCap, .rInt, .mem, .asleep, .accums, .chans, .capReq, .capTb, .sys, .cyc] L = true) (e : execCaptureLaneDone c' lane' samples' s = .next t) :
    Moves L s.chip t.chip := by
  unfold execCaptureLaneDone at e
  refine upd_moves (fun m => ?_) e
  refine Chip.laneDone_moves ?_ (within_sub w (by decide +kernel))
  exact .refl

theorem execCaptureRelease_moves {L : List Part} {who' : Writer} {c' : Cap} {lanes' : BitVec 4} {s t : State}
    (w : within [.rCap, .rInt, .asleep, .accums, .chans, .capReq, .capTb, .sys, .cyc] L = true) (e : execCaptureRelease who' c' lanes' s = .next t) :
    Moves L s.chip t.chip := by
  unfold execCaptureRelease at e
  refine upd_moves (fun m => ?_) e
  refine Moves.ite ?_ ?_
  · refine Chip.capCmd_moves ?_ (within_sub w (by decide +kernel))
    exact .refl
  · exact .refl

theorem execShortCircuitTrip_moves {L : List Part} {ch' : Ch} {ma' : Nat} {s t : State}
    (w : within [.rCh, .rTr, .rDrv, .rBk, .rBst, .rDg, .rDgb, .rCap, .rInt, .rMap, .frees, .asleep, .accums, .pool, .poolLast, .chans, .banks, .boost, .bcap, .jour, .sys, .cyc] L = true) (e : execShortCircuitTrip ch' ma' s = .next t) :
    Moves L s.chip t.chip := by
  unfold execShortCircuitTrip at e
  refine upd_moves (fun m => ?_) e
  refine Chip.tripShort_moves ?_ (within_sub w (by decide +kernel))
  exact .refl

theorem execNodeTestStart_moves {L : List Part} {ch' : Ch} {s t : State}
    (w : within [.chans] L = true) (e : execNodeTestStart ch' s = .next t) :
    Moves L s.chip t.chip := by
  unfold execNodeTestStart at e
  refine upd_moves (fun m => ?_) e
  refine Chip.nodeStart_moves ?_ (within_sub w (by decide +kernel))
  exact .refl

theorem execSupplyTestRequest_moves {L : List Part} {who' : Writer} {b' : Bank} {s t : State}
    (w : within [.banks] L = true) (e : execSupplyTestRequest who' b' s = .next t) :
    Moves L s.chip t.chip := by
  unfold execSupplyTestRequest at e
  refine upd_moves (fun m => ?_) e
  extract_lets +onlyGivenNames x1
  clear_value x1
  refine Moves.ite ?_ ?_
  · refine Chip.setBank_moves ?_ (within_sub w (by decide +kernel))
    exact .refl
  · exact .refl

theorem execDgNotchRead_moves {L : List Part} {ch' : Ch} {s t : State}
    (w : within [.rDg, .rdata] L = true) (e : execDgNotchRead ch' s = .next t) :
    Moves L s.chip t.chip := by
  unfold execDgNotchRead at e
  refine upd_moves (fun m => ?_) e
  refine Chip.dgNotchRead_moves ?_ (within_sub w (by decide +kernel))
  exact .refl

theorem execDiagClear_moves {L : List Part} {who' : Writer} {ch' : Ch} {s t : State}
    (w : within [.rDg, .rDgb, .rInt, .asleep, .accums, .chans, .sys, .cyc] L = true) (e : execDiagClear who' ch' s = .next t) :
    Moves L s.chip t.chip := by
  unfold execDiagClear at e
  refine upd_moves (fun m => ?_) e
  refine Moves.ite ?_ ?_
  · refine Chip.diagClr_moves ?_ (within_sub w (by decide +kernel))
    exact .refl
  · exact .refl

theorem execNoRise_moves {L : List Part} {ch' : Ch} {code' : Nat} {s t : State}
    (w : within [.rDrv, .rDg, .rDgb, .rInt, .asleep, .accums, .chans, .sys, .cyc] L = true) (e : execNoRise ch' code' s = .next t) :
    Moves L s.chip t.chip := by
  unfold execNoRise at e
  refine upd_moves (fun m => ?_) e
  refine Chip.noRiseAt_moves ?_ (within_sub w (by decide +kernel))
  exact .refl

theorem execNodeTestResult_moves {L : List Part} {ch' : Ch} {voutMv' : Int} {vbkMv' : Int} {s t : State}
    (w : within [.rCh, .rTr, .rDrv, .rBk, .rBst, .rDg, .rDgb, .rCap, .rInt, .rMap, .frees, .asleep, .accums, .pool, .poolLast, .chans, .banks, .boost, .capReq, .capTb, .bcap, .jour, .sys, .cyc] L = true) (e : execNodeTestResult ch' voutMv' vbkMv' s = .next t) :
    Moves L s.chip t.chip := by
  unfold execNodeTestResult at e
  refine upd_moves (fun m => ?_) e
  refine Chip.nodeEnd_moves ?_ (within_sub w (by decide +kernel))
  exact .refl

theorem execCaptureRequest_moves {L : List Part} {who' : Writer} {c' : Cap} {idx' : Fin 24} {s t : State}
    (w : within [.rCap, .rInt, .asleep, .accums, .chans, .capReq, .capTb, .sys, .cyc] L = true) (e : execCaptureRequest who' c' idx' s = .next t) :
    Moves L s.chip t.chip := by
  unfold execCaptureRequest at e
  refine upd_moves (fun m => ?_) e
  refine Moves.ite ?_ ?_
  · refine Chip.capCmd_moves ?_ (within_sub w (by decide +kernel))
    exact .refl
  · exact .refl

theorem execSupplyTestResult_moves {L : List Part} {b' : Bank} {above' : BitVec 8} {s t : State}
    (w : within [.rCh, .rTr, .rDrv, .rBk, .rBst, .rDg, .rDgb, .rCap, .rInt, .rMap, .frees, .asleep, .accums, .pool, .poolLast, .chans, .banks, .boost, .bcap, .jour, .sys, .cyc] L = true) (e : execSupplyTestResult b' above' s = .next t) :
    Moves L s.chip t.chip := by
  unfold execSupplyTestResult at e
  refine upd_moves (fun m => ?_) e
  refine Chip.supEnd_moves ?_ (within_sub w (by decide +kernel))
  exact .refl

theorem execHeldLowAtTurnOff_moves {L : List Part} {ch' : Ch} {voutMv' : Int} {s t : State}
    (w : within [.rCh, .rTr, .rDrv, .rBk, .rBst, .rDg, .rDgb, .rCap, .rInt, .rMap, .frees, .asleep, .accums, .pool, .poolLast, .chans, .banks, .boost, .capReq, .capTb, .bcap, .jour, .sys, .cyc] L = true) (e : execHeldLowAtTurnOff ch' voutMv' s = .next t) :
    Moves L s.chip t.chip := by
  unfold execHeldLowAtTurnOff at e
  refine upd_moves (fun m => ?_) e
  refine Chip.heldLow_moves ?_ (within_sub w (by decide +kernel))
  exact .refl

theorem execSupplyTestNodeHi_moves {L : List Part} {b' : Bank} {s t : State}
    (w : within [.rDgb, .rInt, .asleep, .accums, .banks, .sys, .cyc] L = true) (e : execSupplyTestNodeHi b' s = .next t) :
    Moves L s.chip t.chip := by
  unfold execSupplyTestNodeHi at e
  refine upd_moves (fun m => ?_) e
  refine Chip.supNodeHi_moves ?_ (within_sub w (by decide +kernel))
  exact .refl

theorem execNotchTimeout_moves {L : List Part} {ch' : Ch} {s t : State}
    (w : within [.rDg, .rDgb, .rInt, .rMap, .asleep, .accums, .chans, .sys, .cyc] L = true) (e : execNotchTimeout ch' s = .next t) :
    Moves L s.chip t.chip := by
  unfold execNotchTimeout at e
  refine upd_moves (fun m => ?_) e
  refine Chip.notchEnd_moves ?_ (within_sub w (by decide +kernel))
  exact .refl

theorem execNodeTestRequest_moves {L : List Part} {who' : Writer} {ch' : Ch} {s t : State}
    (w : within [.chans] L = true) (e : execNodeTestRequest who' ch' s = .next t) :
    Moves L s.chip t.chip := by
  unfold execNodeTestRequest at e
  refine upd_moves (fun m => ?_) e
  extract_lets +onlyGivenNames x1
  clear_value x1
  refine Moves.ite ?_ ?_
  · refine Chip.setDrv_moves ?_ (within_sub w (by decide +kernel))
    exact .refl
  · exact .refl

theorem execTooFast_moves {L : List Part} {ch' : Ch} {code' : Nat} {s t : State}
    (w : within [.rCh, .rTr, .rDrv, .rBk, .rBst, .rDg, .rDgb, .rCap, .rInt, .rMap, .frees, .asleep, .accums, .pool, .poolLast, .chans, .banks, .boost, .bcap, .jour, .sys, .cyc] L = true) (e : execTooFast ch' code' s = .next t) :
    Moves L s.chip t.chip := by
  unfold execTooFast at e
  refine upd_moves (fun m => ?_) e
  refine Chip.tooFastAt_moves ?_ (within_sub w (by decide +kernel))
  exact .refl

theorem execSupplyTestStart_moves {L : List Part} {b' : Bank} {s t : State}
    (w : within [.rDgb, .banks] L = true) (e : execSupplyTestStart b' s = .next t) :
    Moves L s.chip t.chip := by
  unfold execSupplyTestStart at e
  refine upd_moves (fun m => ?_) e
  refine Chip.supStart_moves ?_ (within_sub w (by decide +kernel))
  exact .refl

end Sys2Proof.Machine
end

