-- ==== Sys2Proof/Laws/MovesJournalOps.lean ====
section
/-! SUPPORT. Each operation of Machine/JournalOps.lean moves the block within the parts it names. -/

-- Theorem by theorem: many at once each take a thread's stack, and the package as one text ran out of them.
set_option Elab.async false

namespace Sys2Proof.Machine

theorem Chip.mbState_moves {L : List Part} {b m : Chip} {x' : Nat} {st' : Nat} {reason' : Nat} (h : Moves L b m)
    (w : within [.rMb, .rInt, .accums, .cyc] L = true) :
    Moves L b (Chip.mbState m x' st' reason') := by
  unfold Chip.mbState
  extract_lets +onlyGivenNames x1
  clear_value x1
  extract_lets +onlyGivenNames x2
  have h3 : Moves L b x2 := by
    unfold x2
    refine Chip.wr_moves ?_ (within_sub w (by decide +kernel))
    refine Chip.wr_moves ?_ (within_sub w (by decide +kernel))
    assumption
  clear_value x2
  split
  · assumption
  · refine Moves.ite ?_ ?_
    · refine Chip.collect_moves ?_ (within_sub w (by decide +kernel))
      assumption
    · assumption

theorem Chip.noteHallmark_moves {L : List Part} {b m : Chip} {owner' : Nat} {jsn' : Nat} (h : Moves L b m)
    (w : within [.rInt, .asleep, .accums, .sys, .cyc] L = true) :
    Moves L b (Chip.noteHallmark m owner' jsn') := by
  unfold Chip.noteHallmark
  refine Moves.ite ?_ ?_
  · refine Chip.occur_moves ?_ (within_sub w (by decide +kernel))
    assumption
  · refine Moves.ite ?_ ?_
    · refine Chip.collect_moves ?_ (within_sub w (by decide +kernel))
      assumption
    · assumption

theorem Chip.jourNewest_moves {L : List Part} {b m : Chip} {owner jsn : Nat} (h : Moves L b m) (w : within [.jour] L = true) :
    Moves L b (m.jourNewest owner jsn) :=
  .upd h (by constructor <;> first | rfl | exact .inl rfl | exact .inr (within_mem w (by simp)))

theorem Chip.setRec_moves {L : List Part} {b m : Chip} {old new : Rec} (h : Moves L b m) (w : within [.recs] L = true)
    (hf : m.jour.recs.find? (·.jsn == new.jsn) = some old) (hp : old.phase ≠ 3) : Moves L b (m.setRec new) :=
  .recs _ _ (within_mem w (by simp)) h (.commit _ _ old new hf hp)

theorem find_jsn {rs : List Rec} {j : Nat} {r : Rec} (h : rs.find? (·.jsn == j) = some r) : r.jsn = j := by
  have := List.find?_some h
  simpa using this

theorem Chip.jourResolve_moves {L : List Part} {b m : Chip} {jsn out cause tb : Nat} {stand : Bool} {lat : Int} (h : Moves L b m)
    (w : within [.rInt, .asleep, .accums, .jour, .recs, .sys, .cyc] L = true) : Moves L b (m.jourResolve jsn out cause stand tb lat) := by
  unfold Chip.jourResolve
  split
  · exact h
  · rename_i r q
    by_cases hp : r.phase = 3
    · simp only [hp, if_true]
      exact h
    · simp only [hp, if_false]
      refine Chip.noteHallmark_moves (Chip.jourNewest_moves ?_ (within_sub w (by decide +kernel))) (within_sub w (by decide +kernel))
      refine Chip.setRec_moves (old := r) h (within_sub w (by decide +kernel)) ?_ hp
      rw [find_jsn q]
      exact q

theorem Chip.jourWord_moves {L : List Part} {b m : Chip} (h : Moves L b m) (w : within [.rInt, .asleep, .accums, .jour, .recs, .sys, .cyc] L = true) : Moves L b m.jourWord := by
  unfold Chip.jourWord
  split
  · exact h
  · rename_i v r q
    extract_lets j x
    have g : Moves L b x :=
      .upd (x := m) h (by constructor <;> first | rfl | exact .inl rfl | exact .inr (within_mem w (by decide +kernel)))
    clear_value x
    refine Moves.ite (Chip.jourResolve_moves g (within_sub w (by decide +kernel))) ?_
    split
    · exact g
    · rename_i y e
      by_cases hp : y.phase < v.phase ∧ v.phase < 3
      · simp only [hp, and_self, if_true]
        refine Chip.setRec_moves (old := y) g (within_sub w (by decide +kernel)) ?_ (by omega)
        rw [find_jsn e]
        exact e
      · simp only [hp, if_false]
        exact g

theorem Chip.jourDrain_moves {L : List Part} {b m : Chip} {fuel : Nat} (h : Moves L b m) (w : within [.rInt, .asleep, .accums, .jour, .recs, .sys, .cyc] L = true) :
    Moves L b (m.jourDrain fuel) := by
  induction fuel generalizing m with
  | zero => exact h
  | succ n ih => exact Moves.ite h (ih (Chip.jourWord_moves h w))

theorem Chip.drain_moves {L : List Part} {b m : Chip} (h : Moves L b m)
    (w : within [.rInt, .asleep, .accums, .jour, .recs, .sys, .cyc] L = true) :
    Moves L b (Chip.drain m) := by
  unfold Chip.drain
  refine Chip.jourDrain_moves ?_ (within_sub w (by decide +kernel))
  assumption

theorem Chip.portChange_moves {L : List Part} {b m : Chip} {p' : Nat} {bit' : Nat} (h : Moves L b m)
    (w : within [.rHp, .rInt, .asleep, .accums, .sys, .cyc] L = true) :
    Moves L b (Chip.portChange m p' bit') := by
  unfold Chip.portChange
  extract_lets +onlyGivenNames x1
  clear_value x1
  extract_lets +onlyGivenNames x2
  clear_value x2
  refine Chip.hpFlag_moves ?_ (within_sub w (by decide +kernel))
  refine Chip.collect_moves ?_ (within_sub w (by decide +kernel))
  assumption

theorem Chip.jourNotice_moves {L : List Part} {b m : Chip} {p' : Nat} (h : Moves L b m)
    (w : within [.rInt, .accums, .cyc] L = true) :
    Moves L b (Chip.jourNotice m p') := by
  unfold Chip.jourNotice
  split
  · assumption
  · refine Chip.collect_moves ?_ (within_sub w (by decide +kernel))
    assumption

theorem Chip.gelowUp_moves {L : List Part} {b m : Chip} (h : Moves L b m)
    (w : within [.rHp, .rInt, .asleep, .accums, .gelow, .sys, .cyc] L = true) :
    Moves L b (Chip.gelowUp m) := by
  unfold Chip.gelowUp
  extract_lets +onlyGivenNames x1
  clear_value x1
  extract_lets +onlyGivenNames x2
  have h3 : Moves L b x2 := by
    unfold x2
    refine Moves.gelow ?_ (within_sub w (by decide +kernel))
    assumption
  clear_value x2
  extract_lets +onlyGivenNames x4
  have h5 : Moves L b x4 := by
    unfold x4
    refine Moves.foldl ?_ fun y6 a7 h8 => ?_
    · assumption
    · refine Chip.portChange_moves ?_ (within_sub w (by decide +kernel))
      refine Chip.wr_moves ?_ (within_sub w (by decide +kernel))
      assumption
  clear_value x4
  extract_lets +onlyGivenNames x9
  have h10 : Moves L b x9 := by
    unfold x9
    refine Moves.ite ?_ ?_
    · refine Chip.jourNotice_moves ?_ (within_sub w (by decide +kernel))
      assumption
    · assumption
  clear_value x9
  extract_lets +onlyGivenNames x11
  have h12 : Moves L b x11 := by
    unfold x11
    refine Moves.ite ?_ ?_
    · refine Chip.jourNotice_moves ?_ (within_sub w (by decide +kernel))
      assumption
    · assumption
  clear_value x11
  extract_lets +onlyGivenNames x13
  clear_value x13
  refine Moves.ite ?_ ?_
  · assumption
  · refine Moves.gelow ?_ (within_sub w (by decide +kernel))
    assumption

theorem Chip.gelowDown_moves {L : List Part} {b m : Chip} (h : Moves L b m)
    (w : within [.rHp, .rInt, .asleep, .accums, .gelow, .sys, .cyc] L = true) :
    Moves L b (Chip.gelowDown m) := by
  unfold Chip.gelowDown
  extract_lets +onlyGivenNames x1
  clear_value x1
  extract_lets +onlyGivenNames x2
  have h3 : Moves L b x2 := by
    unfold x2
    refine Moves.gelow ?_ (within_sub w (by decide +kernel))
    assumption
  clear_value x2
  refine Moves.ite ?_ ?_
  · refine Moves.foldl ?_ fun y4 a5 h6 => ?_
    · assumption
    · refine Chip.portChange_moves ?_ (within_sub w (by decide +kernel))
      refine Chip.wr_moves ?_ (within_sub w (by decide +kernel))
      assumption
  · assumption

theorem Chip.jourRestart_moves {L : List Part} {b m : Chip} (h : Moves L b m) (w : within [.rInt, .asleep, .accums, .jour, .recs, .sys, .cyc] L = true) : Moves L b m.jourRestart := by
  unfold Chip.jourRestart
  extract_lets t rs c j x
  have g : Moves L b x := by
    refine Moves.foldl ?_ fun _ _ k => Chip.jourNewest_moves k (within_sub w (by decide +kernel))
    exact .upd (x := { m with jour := { m.jour with recs := rs, nextJsn := m.jour.nextJsn } })
      (.recs _ _ (within_mem w (by decide +kernel)) h (.restart _ _ t))
      (by constructor <;> first | rfl | exact .inl rfl | exact .inr (within_mem w (by decide +kernel)))
  exact Moves.ite (Chip.occur_moves g (within_sub w (by decide +kernel))) g

end Sys2Proof.Machine
end

