-- ==== Sys2Proof/Laws/MovesIntrOps.lean ====
section
/-! SUPPORT. Each operation of Machine/IntrOps.lean moves the block within the parts it names. -/

-- Theorem by theorem: many at once each take a thread's stack, and the package as one text ran out of them.
set_option Elab.async false

namespace Sys2Proof.Machine

theorem Chip.setCore_moves {L : List Part} {b m : Chip} {t' : Nat} {c' : CoreSt} (h : Moves L b m)
    (w : within [.coreV, .coreC] L = true) :
    Moves L b (Chip.setCore m t' c') := by
  unfold Chip.setCore
  refine Moves.ite ?_ ?_
  · refine Moves.coreV ?_ (within_sub w (by decide +kernel))
    assumption
  · refine Moves.coreC ?_ (within_sub w (by decide +kernel))
    assumption

theorem Chip.lateWrite_moves {L : List Part} {b m m' : Chip} {k i : Nat} (h : Moves L b m') (w : within [.cyc] L = true) :
    Moves L b (m.lateWrite m' k i) :=
  Moves.ite (Moves.ite h (Chip.setCycle_moves h w)) (Moves.ite (Moves.ite h (Chip.setCycle_moves h w)) (Moves.ite (Chip.setCycle_moves h w) h))

theorem Chip.dropAccum_moves {L : List Part} {b m : Chip} {p' : Nat} {k' : Nat} (h : Moves L b m)
    (w : within [.accums] L = true) :
    Moves L b (Chip.dropAccum m p' k') := by
  unfold Chip.dropAccum
  refine Moves.accums ?_ (within_sub w (by decide +kernel))
  assumption

theorem Chip.clrPend_moves {L : List Part} {b m : Chip} {w' : Nat} (h : Moves L b m)
    (w : within [.rInt, .accums, .cyc] L = true) :
    Moves L b (Chip.clrPend m w') := by
  unfold Chip.clrPend
  extract_lets +onlyGivenNames x1
  clear_value x1
  extract_lets +onlyGivenNames x2
  clear_value x2
  extract_lets +onlyGivenNames x3
  clear_value x3
  extract_lets +onlyGivenNames x4
  clear_value x4
  extract_lets +onlyGivenNames x5
  clear_value x5
  extract_lets +onlyGivenNames x6
  have h7 : Moves L b x6 := by
    unfold x6
    refine Chip.setCycle_moves ?_ (within_sub w (by decide +kernel))
    assumption
  clear_value x6
  extract_lets +onlyGivenNames x8
  have h9 : Moves L b x8 := by
    unfold x8
    refine Chip.wr_moves ?_ (within_sub w (by decide +kernel))
    assumption
  clear_value x8
  refine Moves.foldl ?_ fun y10 a11 h12 => ?_
  · assumption
  · refine Moves.ite ?_ ?_
    · refine Chip.dropAccum_moves ?_ (within_sub w (by decide +kernel))
      assumption
    · assumption

theorem Chip.startHold_moves {L : List Part} {b m : Chip} {n' : Nat} {t' : Nat} (h : Moves L b m)
    (w : within [.rInt, .holdEnd] L = true) :
    Moves L b (Chip.startHold m n' t') := by
  unfold Chip.startHold
  extract_lets +onlyGivenNames x1
  clear_value x1
  extract_lets +onlyGivenNames x2
  have h3 : Moves L b x2 := by
    unfold x2
    refine Chip.wr_moves ?_ (within_sub w (by decide +kernel))
    assumption
  clear_value x2
  refine Moves.ite ?_ ?_
  · refine Moves.holdEnd ?_ (within_sub w (by decide +kernel))
    assumption
  · assumption

theorem Chip.putRecord_moves {L : List Part} {b m : Chip} {p' : Nat} {src' : Nat} {kind' : Nat} {a' : Accum} {data' : Nat} (h : Moves L b m)
    (w : within [.rHp, .mem] L = true) :
    Moves L b (Chip.putRecord m p' src' kind' a' data') := by
  unfold Chip.putRecord
  extract_lets +onlyGivenNames x1
  clear_value x1
  extract_lets +onlyGivenNames x2
  clear_value x2
  refine Chip.wr_moves ?_ (within_sub w (by decide +kernel))
  refine Chip.store_moves ?_ (within_sub w (by decide +kernel))
  assumption

theorem Chip.holdExpire_moves {L : List Part} {b m : Chip} {g' : Nat} (h : Moves L b m)
    (w : within [.rInt] L = true) :
    Moves L b (Chip.holdExpire m g') := by
  unfold Chip.holdExpire
  refine Moves.ite ?_ ?_
  · refine Chip.wr_moves ?_ (within_sub w (by decide +kernel))
    assumption
  · assumption

theorem Chip.takePend_moves {L : List Part} {b m : Chip} {n' : Nat} {t' : Nat} (h : Moves L b m)
    (w : within [.rInt, .cyc] L = true) :
    Moves L b (Chip.takePend m n' t') := by
  unfold Chip.takePend
  extract_lets +onlyGivenNames x1
  clear_value x1
  extract_lets +onlyGivenNames x2
  clear_value x2
  refine Moves.ite ?_ ?_
  · refine Chip.setCycle_moves ?_ (within_sub w (by decide +kernel))
    assumption
  · refine Chip.wr_moves ?_ (within_sub w (by decide +kernel))
    assumption

theorem Chip.coreStat_moves {L : List Part} {b m : Chip} {t' : Nat} (h : Moves L b m)
    (w : within [.rInt] L = true) :
    Moves L b (Chip.coreStat m t') := by
  unfold Chip.coreStat
  extract_lets +onlyGivenNames x1
  clear_value x1
  extract_lets +onlyGivenNames x2
  have h3 : Moves L b x2 := by
    unfold x2
    refine Chip.wr_moves ?_ (within_sub w (by decide +kernel))
    assumption
  clear_value x2
  split
  · refine Chip.wr_moves ?_ (within_sub w (by decide +kernel))
    refine Chip.wr_moves ?_ (within_sub w (by decide +kernel))
    refine Chip.wr_moves ?_ (within_sub w (by decide +kernel))
    assumption
  · refine Chip.wr_moves ?_ (within_sub w (by decide +kernel))
    refine Chip.wr_moves ?_ (within_sub w (by decide +kernel))
    refine Chip.wr_moves ?_ (within_sub w (by decide +kernel))
    assumption

theorem Chip.enter_moves {L : List Part} {b m : Chip} {t' : Nat} {n' : Nat} {fs' : List Frame} (h : Moves L b m)
    (w : within [.rInt, .coreV, .coreC, .cyc] L = true) :
    Moves L b (Chip.enter m t' n' fs') := by
  unfold Chip.enter
  extract_lets +onlyGivenNames x1
  clear_value x1
  extract_lets +onlyGivenNames x2
  have h3 : Moves L b x2 := by
    unfold x2
    refine Chip.setCore_moves ?_ (within_sub w (by decide +kernel))
    assumption
  clear_value x2
  extract_lets +onlyGivenNames x4
  have h5 : Moves L b x4 := by
    unfold x4
    refine Chip.takePend_moves ?_ (within_sub w (by decide +kernel))
    assumption
  clear_value x4
  refine Chip.coreStat_moves ?_ (within_sub w (by decide +kernel))
  refine Chip.wr_moves ?_ (within_sub w (by decide +kernel))
  assumption

theorem Chip.intReturn_moves {L : List Part} {b m : Chip} {t' : Nat} (h : Moves L b m)
    (w : within [.rInt, .holdEnd, .coreV, .coreC, .cyc] L = true) :
    Moves L b (Chip.intReturn m t') := by
  unfold Chip.intReturn
  extract_lets +onlyGivenNames x1
  clear_value x1
  split
  · assumption
  · extract_lets +onlyGivenNames x2
    have h3 : Moves L b x2 := by
      unfold x2
      refine Chip.wr_moves ?_ (within_sub w (by decide +kernel))
      assumption
    clear_value x2
    extract_lets +onlyGivenNames x4
    have h5 : Moves L b x4 := by
      unfold x4
      refine Moves.ite ?_ ?_
      · refine Chip.wr_moves ?_ (within_sub w (by decide +kernel))
        assumption
      · assumption
    clear_value x4
    extract_lets +onlyGivenNames x6
    clear_value x6
    extract_lets +onlyGivenNames x7
    have h8 : Moves L b x7 := by
      unfold x7
      refine Chip.setCore_moves ?_ (within_sub w (by decide +kernel))
      assumption
    clear_value x7
    refine Moves.ite ?_ ?_
    · assumption
    · split
      · refine Chip.enter_moves ?_ (within_sub w (by decide +kernel))
        refine Chip.startHold_moves ?_ (within_sub w (by decide +kernel))
        assumption
      · refine Chip.coreStat_moves ?_ (within_sub w (by decide +kernel))
        refine Chip.setCore_moves ?_ (within_sub w (by decide +kernel))
        assumption

theorem Chip.takeAccum_moves {L : List Part} {b m : Chip} {p' : Nat} {n' : Nat} (h : Moves L b m)
    (w : within [.accums, .cyc] L = true) :
    Moves L b (Chip.takeAccum m p' n') := by
  unfold Chip.takeAccum
  extract_lets +onlyGivenNames x1
  clear_value x1
  extract_lets +onlyGivenNames x2
  clear_value x2
  refine Moves.ite ?_ ?_
  · refine Chip.setCycle_moves ?_ (within_sub w (by decide +kernel))
    assumption
  · refine Chip.dropAccum_moves ?_ (within_sub w (by decide +kernel))
    assumption

theorem Chip.queueWrite_moves {L : List Part} {b m : Chip} {p' : Nat} (h : Moves L b m)
    (w : within [.rHp, .rInt, .mem, .stamps, .accums, .holdEnd, .cyc] L = true) :
    Moves L b (Chip.queueWrite m p') := by
  unfold Chip.queueWrite
  extract_lets +onlyGivenNames x1
  clear_value x1
  extract_lets +onlyGivenNames x2
  clear_value x2
  refine Moves.ite ?_ ?_
  · refine Chip.stamp_moves ?_ (within_sub w (by decide +kernel))
    refine Chip.dropAccum_moves ?_ (within_sub w (by decide +kernel))
    refine Chip.putRecord_moves ?_ (within_sub w (by decide +kernel))
    assumption
  · refine Moves.ite ?_ ?_
    · refine Chip.stamp_moves ?_ (within_sub w (by decide +kernel))
      refine Chip.dropAccum_moves ?_ (within_sub w (by decide +kernel))
      refine Chip.putRecord_moves ?_ (within_sub w (by decide +kernel))
      assumption
    · split
      · extract_lets +onlyGivenNames x3
        clear_value x3
        refine Chip.stamp_moves ?_ (within_sub w (by decide +kernel))
        refine Chip.dropAccum_moves ?_ (within_sub w (by decide +kernel))
        refine Chip.putRecord_moves ?_ (within_sub w (by decide +kernel))
        assumption
      · refine Moves.ite ?_ ?_
        · assumption
        · split
          · assumption
          · extract_lets +onlyGivenNames x4
            have h5 : Moves L b x4 := by
              unfold x4
              refine Chip.putRecord_moves ?_ (within_sub w (by decide +kernel))
              assumption
            clear_value x4
            extract_lets +onlyGivenNames x6
            have h7 : Moves L b x6 := by
              unfold x6
              refine Chip.takePend_moves ?_ (within_sub w (by decide +kernel))
              refine Chip.takeAccum_moves ?_ (within_sub w (by decide +kernel))
              assumption
            clear_value x6
            refine Chip.stamp_moves ?_ (within_sub w (by decide +kernel))
            refine Chip.startHold_moves ?_ (within_sub w (by decide +kernel))
            assumption

theorem Chip.intEntry_moves {L : List Part} {b m : Chip} {t' : Nat} {arrivals' : List Nat} (h : Moves L b m)
    (w : within [.rInt, .holdEnd, .coreV, .coreC, .cyc] L = true) :
    Moves L b (Chip.intEntry m t' arrivals') := by
  unfold Chip.intEntry
  refine Moves.ite ?_ ?_
  · assumption
  · split
    · assumption
    · extract_lets +onlyGivenNames x1
      have h2 : Moves L b x1 := by
        unfold x1
        refine Chip.startHold_moves ?_ (within_sub w (by decide +kernel))
        assumption
      clear_value x1
      extract_lets +onlyGivenNames x3
      clear_value x3
      extract_lets +onlyGivenNames x4
      clear_value x4
      refine Moves.ite ?_ ?_
      · assumption
      · split
        · refine Chip.enter_moves ?_ (within_sub w (by decide +kernel))
          assumption
        · refine Chip.enter_moves ?_ (within_sub w (by decide +kernel))
          refine Chip.startHold_moves ?_ (within_sub w (by decide +kernel))
          assumption

end Sys2Proof.Machine
end

