-- ==== Sys2Proof/Laws/MovesResetOps.lean ====
section
/-! SUPPORT. Each operation of Machine/ResetOps.lean moves the block within the parts it names. -/

-- Theorem by theorem: many at once each take a thread's stack, and the package as one text ran out of them.
set_option Elab.async false

namespace Sys2Proof.Machine

theorem Chip.moduleReset_moves {L : List Part} {b m : Chip} {c' : ResetCause} (h : Moves L b m) (w : within [.rHp, .rMb, .rCh, .rTr, .rLat, .rDrv, .rAx, .rWhl, .rMdl, .rBk, .rBst, .rPwr, .rDg, .rDgb, .rCap, .rBcap, .rAdc, .rAs, .rCmp, .rSds, .rAin, .rFe, .rFio, .rTim, .rInt, .rSys, .rSup, .rProt, .rMap, .rNc, .tb, .mem, .isl, .stamps, .frees, .rdata, .asleep, .accums, .holdEnd, .coreV, .coreC, .whl, .mdl, .axes, .pool, .poolLast, .orderNo, .chans, .banks, .boost, .capReq, .capTb, .copies, .wear, .bcap, .jour, .recs, .fe, .fio, .tim, .adc, .assay, .cmp, .sds, .map, .saved, .nand, .mbox, .port, .gelow, .sys, .sup, .link, .refetch, .cyc] L = true) :
    Moves L b (m.moduleReset c') := by
  unfold Chip.moduleReset
  extract_lets x n k
  have g : Moves L b x := Moves.ite (Chip.drain_moves h (within_sub w (by decide +kernel))) h
  refine Chip.wr_moves (Moves.reboot keptFields (fun p hp => within_mem w (within_mem (a := regParts ++ [.mem, .saved] ++ restParts) (by decide +kernel) hp)) g ?_ ?_ ?_ ?_ ?_) (within_sub w (by decide +kernel)) <;> rfl

theorem Chip.clusterQuiet_moves {L : List Part} {b m : Chip} {c' : Nat} (h : Moves L b m)
    (w : within [.rCh, .rTr, .rDrv, .rBk, .rBst, .rDg, .rDgb, .rCap, .rInt, .rMap, .frees, .asleep, .accums, .pool, .poolLast, .chans, .banks, .boost, .bcap, .jour, .sys, .cyc] L = true) :
    Moves L b (Chip.clusterQuiet m c') := by
  unfold Chip.clusterQuiet
  extract_lets +onlyGivenNames x1
  have h2 : Moves L b x1 := by
    unfold x1
    refine Moves.foldl ?_ fun y3 a4 h5 => ?_
    · assumption
    · refine Chip.chanSafe_moves ?_ (within_sub w (by decide +kernel))
      assumption
  clear_value x1
  refine Moves.foldl ?_ fun y6 a7 h8 => ?_
  · assumption
  · refine Moves.ite ?_ ?_
    · refine Chip.pwmStop_moves ?_ (within_sub w (by decide +kernel))
      assumption
    · assumption

theorem Chip.clusterClear_moves {L : List Part} {b m : Chip} {c' : Nat} (h : Moves L b m)
    (w : within [.rCh, .rTr, .rLat, .rDrv, .rBk, .rPwr, .rDg, .rInt, .rMap, .asleep, .accums, .chans, .sys, .cyc] L = true) :
    Moves L b (Chip.clusterClear m c') := by
  unfold Chip.clusterClear
  extract_lets +onlyGivenNames x1
  have h2 : Moves L b x1 := by
    unfold x1
    refine Moves.chans ?_ (within_sub w (by decide +kernel))
    assumption
  clear_value x1
  extract_lets +onlyGivenNames x3
  have h4 : Moves L b x3 := by
    unfold x3
    refine Chip.resetFields_moves ?_ (within_sub w (by decide +kernel))
    refine Chip.resetFields_moves ?_ (within_sub w (by decide +kernel))
    assumption
  clear_value x3
  extract_lets +onlyGivenNames x5
  have h6 : Moves L b x5 := by
    unfold x5
    refine Moves.foldl ?_ fun y7 a8 h9 => ?_
    · assumption
    · refine Chip.capNote_moves ?_ (within_sub w (by decide +kernel))
      refine Chip.wr_moves ?_ (within_sub w (by decide +kernel))
      assumption
  clear_value x5
  refine Chip.trimStat_moves ?_ (within_sub w (by decide +kernel))
  refine Chip.bankStat_moves ?_ (within_sub w (by decide +kernel))
  refine Chip.bankStat_moves ?_ (within_sub w (by decide +kernel))
  assumption

theorem Chip.clusterReset_moves {L : List Part} {b m : Chip} {c' : Nat} (h : Moves L b m)
    (w : within [.rCh, .rTr, .rLat, .rDrv, .rBk, .rBst, .rPwr, .rDg, .rDgb, .rCap, .rInt, .rMap, .isl, .frees, .asleep, .accums, .pool, .poolLast, .chans, .banks, .boost, .bcap, .jour, .recs, .sys, .cyc] L = true) :
    Moves L b (Chip.clusterReset m c') := by
  unfold Chip.clusterReset
  extract_lets +onlyGivenNames x1
  have h2 : Moves L b x1 := by
    unfold x1
    refine Moves.ite ?_ ?_
    · refine Chip.drain_moves ?_ (within_sub w (by decide +kernel))
      refine Chip.clusterQuiet_moves ?_ (within_sub w (by decide +kernel))
      assumption
    · refine Moves.ite ?_ ?_
      · refine Chip.clusterQuiet_moves ?_ (within_sub w (by decide +kernel))
        assumption
      · refine Chip.clusterStop_moves ?_ (within_sub w (by decide +kernel))
        assumption
  clear_value x1
  extract_lets +onlyGivenNames x3
  have h4 : Moves L b x3 := by
    unfold x3
    refine Chip.clusterClear_moves ?_ (within_sub w (by decide +kernel))
    assumption
  clear_value x3
  extract_lets +onlyGivenNames x5
  clear_value x5
  refine Chip.setIsland_moves ?_ (within_sub w (by decide +kernel))
  assumption

theorem Chip.observerReset_moves {L : List Part} {b m : Chip} (h : Moves L b m)
    (w : within [.rWhl, .rMdl, .rAdc, .rAs, .rCmp, .rSds, .rAin, .rFe, .rFio, .rTim, .whl, .mdl, .fe, .tim, .adc, .assay, .cmp, .sds] L = true) :
    Moves L b (Chip.observerReset m) := by
  unfold Chip.observerReset
  refine Chip.resetFields_moves ?_ (within_sub w (by decide +kernel))
  refine Moves.upd (x := m) ?_ (by constructor <;> first | rfl | exact .inl rfl | exact .inr (within_mem w (by decide +kernel)))
  assumption

theorem Chip.axisClear_moves {L : List Part} {b m : Chip} (h : Moves L b m)
    (w : within [.rCh, .rAx, .axes, .pool] L = true) :
    Moves L b (Chip.axisClear m) := by
  unfold Chip.axisClear
  refine Chip.resetFields_moves ?_ (within_sub w (by decide +kernel))
  refine Moves.upd (x := m) ?_ (by constructor <;> first | rfl | exact .inl rfl | exact .inr (within_mem w (by decide +kernel)))
  assumption

theorem Chip.axisSafe_moves {L : List Part} {b m : Chip} {c' : Nat} (h : Moves L b m)
    (w : within [.rCh, .rTr, .rDrv, .rBk, .rBst, .rDg, .rDgb, .rCap, .rInt, .rMap, .isl, .frees, .asleep, .accums, .pool, .poolLast, .chans, .banks, .boost, .bcap, .jour, .sys, .cyc] L = true) :
    Moves L b (Chip.axisSafe m c') := by
  unfold Chip.axisSafe
  extract_lets +onlyGivenNames x1
  have h2 : Moves L b x1 := by
    unfold x1
    refine Chip.clusterQuiet_moves ?_ (within_sub w (by decide +kernel))
    assumption
  clear_value x1
  extract_lets +onlyGivenNames x3
  clear_value x3
  refine Moves.ite ?_ ?_
  · assumption
  · refine Chip.setIsland_moves ?_ (within_sub w (by decide +kernel))
    assumption

theorem Chip.axisReset_moves {L : List Part} {b m : Chip} (h : Moves L b m)
    (w : within [.rCh, .rTr, .rDrv, .rAx, .rBk, .rBst, .rDg, .rDgb, .rCap, .rInt, .rMap, .isl, .frees, .asleep, .accums, .axes, .pool, .poolLast, .chans, .banks, .boost, .bcap, .jour, .recs, .sys, .cyc] L = true) :
    Moves L b (Chip.axisReset m) := by
  unfold Chip.axisReset
  refine Chip.axisClear_moves ?_ (within_sub w (by decide +kernel))
  refine Chip.drain_moves ?_ (within_sub w (by decide +kernel))
  refine Moves.foldl ?_ fun y1 a2 h3 => ?_
  · assumption
  · refine Chip.axisSafe_moves ?_ (within_sub w (by decide +kernel))
    assumption

theorem Chip.mapReset_moves {L : List Part} {b m : Chip} (h : Moves L b m) (w : within [.rMap, .chans, .map, .saved] L = true) : Moves L b m.mapReset := by
  unfold Chip.mapReset
  refine Chip.resetFields_moves ?_ (within_sub w (by decide +kernel))
  exact .upd (.save mapHeld (within_mem w (by decide +kernel)) h)
    (by constructor <;> first | rfl | exact .inl rfl | exact .inr (within_mem w (by decide +kernel)))

theorem Chip.hostReset_moves {L : List Part} {b m : Chip} {p' : Nat} (h : Moves L b m)
    (w : within [.rHp, .rMb, .rInt, .mem, .accums, .mbox, .port, .gelow] L = true) :
    Moves L b (Chip.hostReset m p') := by
  unfold Chip.hostReset
  extract_lets +onlyGivenNames x1
  have h2 : Moves L b x1 := by
    unfold x1
    refine Chip.resetFields_moves ?_ (within_sub w (by decide +kernel))
    assumption
  clear_value x1
  extract_lets +onlyGivenNames x3
  have h4 : Moves L b x3 := by
    unfold x3
    refine Chip.resetFields_moves ?_ (within_sub w (by decide +kernel))
    assumption
  clear_value x3
  extract_lets +onlyGivenNames x5
  have h6 : Moves L b x5 := by
    unfold x5
    refine Chip.clearMem_moves ?_ (within_sub w (by decide +kernel))
    refine Chip.clearMem_moves ?_ (within_sub w (by decide +kernel))
    assumption
  clear_value x5
  extract_lets +onlyGivenNames x7
  clear_value x7
  extract_lets +onlyGivenNames x8
  have h9 : Moves L b x8 := by
    unfold x8
    refine Moves.upd (x := x5) ?_ (by constructor <;> first | rfl | exact .inl rfl | exact .inr (within_mem w (by decide +kernel)))
    assumption
  clear_value x8
  extract_lets +onlyGivenNames x10
  have h11 : Moves L b x10 := by
    unfold x10
    refine Moves.foldl ?_ fun y12 a13 h14 => ?_
    · assumption
    · refine Moves.ite ?_ ?_
      · refine Chip.wr_moves ?_ (within_sub w (by decide +kernel))
        assumption
      · assumption
  clear_value x10
  refine Chip.resetFields_moves ?_ (within_sub w (by decide +kernel))
  assumption

theorem Chip.islandReach_moves {L : List Part} {b m : Chip} {i' : Nat} (h : Moves L b m)
    (w : within [.rHp, .rMb, .rCh, .rTr, .rLat, .rDrv, .rAx, .rWhl, .rMdl, .rBk, .rBst, .rPwr, .rDg, .rDgb, .rCap, .rAdc, .rAs, .rCmp, .rSds, .rAin, .rFe, .rFio, .rTim, .rInt, .rMap, .mem, .isl, .frees, .asleep, .accums, .whl, .mdl, .axes, .pool, .poolLast, .chans, .banks, .boost, .bcap, .jour, .recs, .fe, .tim, .adc, .assay, .cmp, .sds, .map, .saved, .mbox, .port, .gelow, .sys, .cyc] L = true) :
    Moves L b (Chip.islandReach m i') := by
  unfold Chip.islandReach
  refine Moves.ite ?_ ?_
  · refine Chip.clusterReset_moves ?_ (within_sub w (by decide +kernel))
    assumption
  · refine Moves.ite ?_ ?_
    · refine Chip.observerReset_moves ?_ (within_sub w (by decide +kernel))
      assumption
    · refine Moves.ite ?_ ?_
      · refine Chip.axisReset_moves ?_ (within_sub w (by decide +kernel))
        assumption
      · refine Moves.ite ?_ ?_
        · refine Chip.mapReset_moves ?_ (within_sub w (by decide +kernel))
          assumption
        · refine Moves.ite ?_ ?_
          · refine Chip.hostReset_moves ?_ (within_sub w (by decide +kernel))
            assumption
          · refine Chip.hostReset_moves ?_ (within_sub w (by decide +kernel))
            assumption

theorem Chip.setLinkFaulty_moves {L : List Part} {b m : Chip} {l' : Nat} {v' : Bool} (h : Moves L b m)
    (w : within [.rSys] L = true) :
    Moves L b (Chip.setLinkFaulty m l' v') := by
  unfold Chip.setLinkFaulty
  refine Moves.ite ?_ ?_
  · refine Chip.wr_moves ?_ (within_sub w (by decide +kernel))
    assumption
  · refine Chip.wr_moves ?_ (within_sub w (by decide +kernel))
    assumption

theorem Chip.islandReset_moves {L : List Part} {b m : Chip} {i' : Nat} {auto' : Bool} (h : Moves L b m)
    (w : within [.rHp, .rMb, .rCh, .rTr, .rLat, .rDrv, .rAx, .rWhl, .rMdl, .rBk, .rBst, .rPwr, .rDg, .rDgb, .rCap, .rBcap, .rAdc, .rAs, .rCmp, .rSds, .rAin, .rFe, .rFio, .rTim, .rInt, .rSys, .rSup, .rProt, .rMap, .rNc, .tb, .mem, .isl, .stamps, .frees, .rdata, .asleep, .accums, .holdEnd, .coreV, .coreC, .whl, .mdl, .axes, .pool, .poolLast, .orderNo, .chans, .banks, .boost, .capReq, .capTb, .copies, .wear, .bcap, .jour, .recs, .fe, .fio, .tim, .adc, .assay, .cmp, .sds, .map, .saved, .nand, .mbox, .port, .gelow, .sys, .sup, .link, .refetch, .cyc] L = true) :
    Moves L b (Chip.islandReset m i' auto') := by
  unfold Chip.islandReset
  extract_lets +onlyGivenNames x1
  have h2 : Moves L b x1 := by
    unfold x1
    refine Chip.islandReach_moves ?_ (within_sub w (by decide +kernel))
    assumption
  clear_value x1
  extract_lets +onlyGivenNames x3
  have h4 : Moves L b x3 := by
    unfold x3
    refine Moves.foldl ?_ fun y5 a6 h7 => ?_
    · assumption
    · refine Moves.ite ?_ ?_
      · refine Chip.setLinkFaulty_moves ?_ (within_sub w (by decide +kernel))
        assumption
      · assumption
  clear_value x3
  extract_lets +onlyGivenNames x8
  clear_value x8
  extract_lets +onlyGivenNames x9
  clear_value x9
  extract_lets +onlyGivenNames x10
  have h11 : Moves L b x10 := by
    unfold x10
    refine Chip.setIsland_moves ?_ (within_sub w (by decide +kernel))
    assumption
  clear_value x10
  refine Moves.ite ?_ ?_
  · refine Chip.moduleReset_moves ?_ (within_sub w (by decide +kernel))
    assumption
  · refine Chip.wrB_moves ?_ (within_sub w (by decide +kernel))
    refine Chip.wr_moves ?_ (within_sub w (by decide +kernel))
    assumption

theorem Chip.islandRelease_moves {L : List Part} {b m : Chip} {i' : Nat} (h : Moves L b m)
    (w : within [.rHp, .rInt, .rSys, .isl, .accums, .gelow, .cyc] L = true) :
    Moves L b (Chip.islandRelease m i') := by
  unfold Chip.islandRelease
  extract_lets +onlyGivenNames x1
  clear_value x1
  split
  · assumption
  · extract_lets +onlyGivenNames x2
    clear_value x2
    extract_lets +onlyGivenNames x3
    clear_value x3
    extract_lets +onlyGivenNames x4
    clear_value x4
    extract_lets +onlyGivenNames x5
    have h6 : Moves L b x5 := by
      unfold x5
      refine Chip.setIsland_moves ?_ (within_sub w (by decide +kernel))
      assumption
    clear_value x5
    extract_lets +onlyGivenNames x7
    have h8 : Moves L b x7 := by
      unfold x7
      refine Chip.wr_moves ?_ (within_sub w (by decide +kernel))
      refine Chip.wr_moves ?_ (within_sub w (by decide +kernel))
      assumption
    clear_value x7
    extract_lets +onlyGivenNames x9
    clear_value x9
    extract_lets +onlyGivenNames x10
    clear_value x10
    refine Moves.ite ?_ ?_
    · assumption
    · refine Moves.ite ?_ ?_
      · refine Moves.foldl ?_ fun y11 a12 h13 => ?_
        · assumption
        · extract_lets +onlyGivenNames x14
          clear_value x14
          refine Moves.ite ?_ ?_
          · refine Chip.setIsland_moves ?_ (within_sub w (by decide +kernel))
            assumption
          · assumption
      · refine Moves.ite ?_ ?_
        · refine Moves.ite ?_ ?_
          · refine Chip.jourNotice_moves ?_ (within_sub w (by decide +kernel))
            refine Chip.wr_moves ?_ (within_sub w (by decide +kernel))
            assumption
          · refine Moves.gelow ?_ (within_sub w (by decide +kernel))
            assumption
        · assumption

theorem Chip.powerOff_moves {L : List Part} {b m : Chip} (h : Moves L b m) (w : within [.rHp, .rMb, .rCh, .rTr, .rLat, .rDrv, .rAx, .rWhl, .rMdl, .rBk, .rBst, .rPwr, .rDg, .rDgb, .rCap, .rBcap, .rAdc, .rAs, .rCmp, .rSds, .rAin, .rFe, .rFio, .rTim, .rInt, .rSys, .rSup, .rProt, .rMap, .rNc, .tb, .mem, .isl, .stamps, .frees, .rdata, .asleep, .accums, .holdEnd, .coreV, .coreC, .whl, .mdl, .axes, .pool, .poolLast, .orderNo, .chans, .banks, .boost, .capReq, .capTb, .copies, .wear, .bcap, .jour, .recs, .fe, .fio, .tim, .adc, .assay, .cmp, .sds, .map, .saved, .nand, .mbox, .port, .gelow, .sys, .sup, .link, .refetch, .cyc] L = true) : Moves L b m.powerOff :=
  Moves.reboot [KEY_HASH, KEY_STAT_PROG, KEY_STAT_REV, KEY_STAT_LIFE]
    (fun _ hp => within_mem w (within_mem (a := regParts ++ [.mem, .saved] ++ restParts) (by decide +kernel) hp)) h rfl rfl rfl rfl rfl

theorem Chip.powerUp_moves {L : List Part} {b m : Chip} {v : Bool} (h : Moves L b m) (w : within [.rHp, .rMb, .rCh, .rTr, .rLat, .rDrv, .rAx, .rWhl, .rMdl, .rBk, .rBst, .rPwr, .rDg, .rDgb, .rCap, .rBcap, .rAdc, .rAs, .rCmp, .rSds, .rAin, .rFe, .rFio, .rTim, .rInt, .rSys, .rSup, .rProt, .rMap, .rNc, .tb, .mem, .isl, .stamps, .frees, .rdata, .asleep, .accums, .holdEnd, .coreV, .coreC, .whl, .mdl, .axes, .pool, .poolLast, .orderNo, .chans, .banks, .boost, .capReq, .capTb, .copies, .wear, .bcap, .jour, .recs, .fe, .fio, .tim, .adc, .assay, .cmp, .sds, .map, .saved, .nand, .mbox, .port, .gelow, .sys, .sup, .link, .refetch, .cyc] L = true) :
    Moves L b (m.powerUp v) :=
  Moves.reboot [KEY_HASH, KEY_STAT_PROG, KEY_STAT_REV, KEY_STAT_LIFE]
    (fun _ hp => within_mem w (within_mem (a := regParts ++ [.mem, .saved] ++ restParts) (by decide +kernel) hp)) h rfl rfl rfl rfl rfl

theorem Chip.coreReset_moves {L : List Part} {b m : Chip} {t' : Nat} (h : Moves L b m)
    (w : within [.rInt, .coreV, .coreC] L = true) :
    Moves L b (Chip.coreReset m t') := by
  unfold Chip.coreReset
  extract_lets +onlyGivenNames x1
  clear_value x1
  extract_lets +onlyGivenNames x2
  have h3 : Moves L b x2 := by
    unfold x2
    refine Moves.foldl ?_ fun y4 a5 h6 => ?_
    · assumption
    · refine Chip.wr_moves ?_ (within_sub w (by decide +kernel))
      assumption
  clear_value x2
  extract_lets +onlyGivenNames x7
  have h8 : Moves L b x7 := by
    unfold x7
    refine Chip.resetFields_moves ?_ (within_sub w (by decide +kernel))
    assumption
  clear_value x7
  refine Moves.ite ?_ ?_
  · refine Moves.coreV ?_ (within_sub w (by decide +kernel))
    assumption
  · refine Moves.coreC ?_ (within_sub w (by decide +kernel))
    assumption

theorem Chip.cRestart_moves {L : List Part} {b m : Chip} (h : Moves L b m)
    (w : within [.rInt, .mem, .coreV, .coreC, .sys] L = true) :
    Moves L b (Chip.cRestart m) := by
  unfold Chip.cRestart
  extract_lets +onlyGivenNames x1
  have h2 : Moves L b x1 := by
    unfold x1
    refine Chip.clearMem_moves ?_ (within_sub w (by decide +kernel))
    refine Chip.coreReset_moves ?_ (within_sub w (by decide +kernel))
    assumption
  clear_value x1
  extract_lets +onlyGivenNames x3
  clear_value x3
  refine Moves.sys ?_ (within_sub w (by decide +kernel))
  assumption

theorem foldl_regs (rows : Tab (Tab Nat)) (y : Chip) :
    rows.foldl (fun (m : Chip) p => { m with regs := tabPut m.regs p.1 p.2 }) y =
      { y with regs := rows.foldl (fun t p => tabPut t p.1 p.2) y.regs } := by
  induction rows generalizing y with
  | nil => rfl
  | cons p r ih => exact ih _

theorem Chip.mapRestore_moves {L : List Part} {b m : Chip} (h : Moves L b m) (w : within [.rHp, .rMb, .rCh, .rTr, .rLat, .rDrv, .rAx, .rWhl, .rMdl, .rBk, .rBst, .rPwr, .rDg, .rDgb, .rCap, .rBcap, .rAdc, .rAs, .rCmp, .rSds, .rAin, .rFe, .rFio, .rTim, .rInt, .rSys, .rSup, .rProt, .rMap, .rNc, .map, .saved] L = true) : Moves L b m.mapRestore := by
  unfold Chip.mapRestore
  split
  · exact h
  · rename_i r q
    refine Moves.ite ?_ h
    rw [foldl_regs]
    exact Moves.restore (x := m) r (within_mem w (by decide +kernel)) (fun p hp => within_mem w (within_mem (by decide +kernel : within regParts _ = true) hp)) h q

theorem Chip.vRestart_moves {L : List Part} {b m : Chip} (h : Moves L b m)
    (w : within [.rHp, .rMb, .rCh, .rTr, .rLat, .rDrv, .rAx, .rWhl, .rMdl, .rBk, .rBst, .rPwr, .rDg, .rDgb, .rCap, .rBcap, .rAdc, .rAs, .rCmp, .rSds, .rAin, .rFe, .rFio, .rTim, .rInt, .rSys, .rSup, .rProt, .rMap, .rNc, .tb, .mem, .isl, .stamps, .frees, .rdata, .asleep, .accums, .holdEnd, .coreV, .coreC, .whl, .mdl, .axes, .pool, .poolLast, .orderNo, .chans, .banks, .boost, .capReq, .capTb, .copies, .wear, .bcap, .jour, .recs, .fe, .fio, .tim, .adc, .assay, .cmp, .sds, .map, .saved, .nand, .mbox, .port, .gelow, .sys, .sup, .link, .refetch, .cyc] L = true) :
    Moves L b (Chip.vRestart m) := by
  unfold Chip.vRestart
  extract_lets +onlyGivenNames x1
  have h2 : Moves L b x1 := by
    unfold x1
    refine Chip.coreReset_moves ?_ (within_sub w (by decide +kernel))
    refine Chip.count_moves ?_ (within_sub w (by decide +kernel))
    assumption
  clear_value x1
  extract_lets +onlyGivenNames x3
  have h4 : Moves L b x3 := by
    unfold x3
    refine Chip.gelowDown_moves ?_ (within_sub w (by decide +kernel))
    assumption
  clear_value x3
  extract_lets +onlyGivenNames x5
  clear_value x5
  extract_lets +onlyGivenNames x6
  clear_value x6
  refine Moves.ite ?_ ?_
  · refine Chip.moduleReset_moves ?_ (within_sub w (by decide +kernel))
    assumption
  · refine Moves.sys ?_ (within_sub w (by decide +kernel))
    assumption

end Sys2Proof.Machine
end

