-- ==== Sys2Proof/Laws/MovesSysOps.lean ====
section
/-! SUPPORT. Each operation of Machine/SysOps.lean moves the block within the parts it names. -/

-- Theorem by theorem: many at once each take a thread's stack, and the package as one text ran out of them.
set_option Elab.async false

namespace Sys2Proof.Machine

theorem Chip.pllaLock_moves {L : List Part} {b m : Chip} (h : Moves L b m)
    (w : within [.rSys] L = true) :
    Moves L b (Chip.pllaLock m) := by
  unfold Chip.pllaLock
  refine Chip.wrB_moves ?_ (within_sub w (by decide +kernel))
  assumption

theorem Chip.clkCfg_moves {L : List Part} {b m : Chip} {w' : Nat} (h : Moves L b m)
    (w : within [.rSys] L = true) :
    Moves L b (Chip.clkCfg m w') := by
  unfold Chip.clkCfg
  extract_lets +onlyGivenNames x1
  clear_value x1
  extract_lets +onlyGivenNames x2
  have h3 : Moves L b x2 := by
    unfold x2
    refine Chip.wrFrom_moves ?_ (within_sub w (by decide +kernel))
    refine Chip.wrFrom_moves ?_ (within_sub w (by decide +kernel))
    refine Chip.wrFrom_moves ?_ (within_sub w (by decide +kernel))
    assumption
  clear_value x2
  refine Chip.pllaLock_moves ?_ (within_sub w (by decide +kernel))
  refine Moves.ite ?_ ?_
  · assumption
  · refine Chip.wrFrom_moves ?_ (within_sub w (by decide +kernel))
    assumption

theorem Chip.setSel_moves {L : List Part} {b m : Chip} {i' : Nat} {v' : Nat} (h : Moves L b m)
    (w : within [.rSys] L = true) :
    Moves L b (Chip.setSel m i' v') := by
  unfold Chip.setSel
  refine Moves.ite ?_ ?_
  · refine Chip.wr_moves ?_ (within_sub w (by decide +kernel))
    assumption
  · refine Chip.wr_moves ?_ (within_sub w (by decide +kernel))
    assumption

theorem Chip.switchStart_moves {L : List Part} {b m : Chip} {i' : Nat} {v' : Nat} (h : Moves L b m)
    (w : within [.rSys, .isl] L = true) :
    Moves L b (Chip.switchStart m i' v') := by
  unfold Chip.switchStart
  extract_lets +onlyGivenNames x1
  clear_value x1
  extract_lets +onlyGivenNames x2
  have h3 : Moves L b x2 := by
    unfold x2
    refine Chip.setIsland_moves ?_ (within_sub w (by decide +kernel))
    assumption
  clear_value x2
  refine Moves.ite ?_ ?_
  · assumption
  · refine Chip.wr_moves ?_ (within_sub w (by decide +kernel))
    refine Chip.setSel_moves ?_ (within_sub w (by decide +kernel))
    assumption

theorem Chip.selWrite_moves {L : List Part} {b m : Chip} {first' : Nat} {n' : Nat} {w' : Nat} (h : Moves L b m)
    (w : within [.rSys, .isl] L = true) :
    Moves L b (Chip.selWrite m first' n' w') := by
  unfold Chip.selWrite
  refine Moves.foldl ?_ fun y1 a2 h3 => ?_
  · assumption
  · refine Chip.switchStart_moves ?_ (within_sub w (by decide +kernel))
    assumption

theorem Chip.trimWrite_moves {L : List Part} {b m : Chip} {w' : Nat} (h : Moves L b m)
    (w : within [.rSys, .sys] L = true) :
    Moves L b (Chip.trimWrite m w') := by
  unfold Chip.trimWrite
  extract_lets +onlyGivenNames x1
  clear_value x1
  extract_lets +onlyGivenNames x2
  have h3 : Moves L b x2 := by
    unfold x2
    refine Chip.wrFrom_moves ?_ (within_sub w (by decide +kernel))
    refine Chip.wrFrom_moves ?_ (within_sub w (by decide +kernel))
    refine Chip.wrFrom_moves ?_ (within_sub w (by decide +kernel))
    assumption
  clear_value x2
  extract_lets +onlyGivenNames x4
  have h5 : Moves L b x4 := by
    unfold x4
    refine Chip.wr_moves ?_ (within_sub w (by decide +kernel))
    assumption
  clear_value x4
  extract_lets +onlyGivenNames x6
  clear_value x6
  refine Moves.ite ?_ ?_
  · assumption
  · refine Moves.sys ?_ (within_sub w (by decide +kernel))
    assumption

theorem Chip.imgLoad_moves {L : List Part} {b m : Chip} {img' : List Byte} {ty' : Nat} (h : Moves L b m)
    (w : within [.mem] L = true) :
    Moves L b (Chip.imgLoad m img' ty') := by
  unfold Chip.imgLoad
  refine Moves.ite ?_ ?_
  · refine Chip.store_moves ?_ (within_sub w (by decide +kernel))
    assumption
  · assumption

theorem Chip.stageOne_moves {L : List Part} {b m : Chip} {img' : List Byte} (h : Moves L b m)
    (w : within [.rSys, .mem, .coreV] L = true) :
    Moves L b (Chip.stageOne m img') := by
  unfold Chip.stageOne
  extract_lets +onlyGivenNames x1
  have h2 : Moves L b x1 := by
    unfold x1
    refine Chip.wr_moves ?_ (within_sub w (by decide +kernel))
    refine Chip.imgLoad_moves ?_ (within_sub w (by decide +kernel))
    assumption
  clear_value x1
  extract_lets +onlyGivenNames x3
  clear_value x3
  refine Moves.coreV ?_ (within_sub w (by decide +kernel))
  assumption

theorem Chip.recovery_moves {L : List Part} {b m : Chip} {err' : Nat} (h : Moves L b m)
    (w : within [.rSys] L = true) :
    Moves L b (Chip.recovery m err') := by
  unfold Chip.recovery
  refine Chip.wr_moves ?_ (within_sub w (by decide +kernel))
  refine Chip.wr_moves ?_ (within_sub w (by decide +kernel))
  assumption

theorem Chip.bootRcv_moves {L : List Part} {b m : Chip} {p' : Nat} {w' : Nat} (h : Moves L b m)
    (w : within [.rSys, .mem, .coreV] L = true) :
    Moves L b (Chip.bootRcv m p' w') := by
  unfold Chip.bootRcv
  extract_lets +onlyGivenNames x1
  have h2 : Moves L b x1 := by
    unfold x1
    refine Chip.wrFrom_moves ?_ (within_sub w (by decide +kernel))
    assumption
  clear_value x1
  extract_lets +onlyGivenNames x3
  clear_value x3
  extract_lets +onlyGivenNames x4
  clear_value x4
  extract_lets +onlyGivenNames x5
  clear_value x5
  refine Moves.ite ?_ ?_
  · assumption
  · refine Moves.ite ?_ ?_
    · assumption
    · refine Moves.ite ?_ ?_
      · refine Chip.stageOne_moves ?_ (within_sub w (by decide +kernel))
        assumption
      · refine Chip.recovery_moves ?_ (within_sub w (by decide +kernel))
        assumption

theorem Chip.seal_moves {L : List Part} {b m : Chip} (h : Moves L b m)
    (w : within [.rSys, .rProt, .cyc] L = true) :
    Moves L b (Chip.seal m) := by
  unfold Chip.seal
  extract_lets +onlyGivenNames x1
  clear_value x1
  extract_lets +onlyGivenNames x2
  have h3 : Moves L b x2 := by
    unfold x2
    refine Chip.wr_moves ?_ (within_sub w (by decide +kernel))
    refine Chip.setCycle_moves ?_ (within_sub w (by decide +kernel))
    assumption
  clear_value x2
  refine Moves.ite ?_ ?_
  · refine Chip.wr_moves ?_ (within_sub w (by decide +kernel))
    assumption
  · assumption

theorem Chip.keyGo_moves {L : List Part} {b m : Chip} {k' : Nat} (h : Moves L b m)
    (w : within [.rProt, .sys] L = true) :
    Moves L b (Chip.keyGo m k') := by
  unfold Chip.keyGo
  extract_lets +onlyGivenNames x1
  have h2 : Moves L b x1 := by
    unfold x1
    refine Chip.wr_moves ?_ (within_sub w (by decide +kernel))
    assumption
  clear_value x1
  extract_lets +onlyGivenNames x3
  clear_value x3
  refine Moves.ite ?_ ?_
  · assumption
  · refine Moves.ite ?_ ?_
    · refine Chip.wr_moves ?_ (within_sub w (by decide +kernel))
      assumption
    · refine Moves.sys ?_ (within_sub w (by decide +kernel))
      assumption

theorem Chip.keyRevoke_moves {L : List Part} {b m : Chip} {k' : Nat} (h : Moves L b m)
    (w : within [.rProt] L = true) :
    Moves L b (Chip.keyRevoke m k') := by
  unfold Chip.keyRevoke
  refine Moves.ite ?_ ?_
  · assumption
  · refine Chip.wr_moves ?_ (within_sub w (by decide +kernel))
    assumption

theorem Chip.keyProg_moves {L : List Part} {b m : Chip} {w' : Nat} (h : Moves L b m)
    (w : within [.rProt, .sys] L = true) :
    Moves L b (Chip.keyProg m w') := by
  unfold Chip.keyProg
  extract_lets +onlyGivenNames x1
  have h2 : Moves L b x1 := by
    unfold x1
    refine Chip.wrFrom_moves ?_ (within_sub w (by decide +kernel))
    refine Chip.wrFrom_moves ?_ (within_sub w (by decide +kernel))
    refine Chip.wrFrom_moves ?_ (within_sub w (by decide +kernel))
    assumption
  clear_value x1
  extract_lets +onlyGivenNames x3
  clear_value x3
  extract_lets +onlyGivenNames x4
  have h5 : Moves L b x4 := by
    unfold x4
    refine Moves.ite ?_ ?_
    · refine Chip.keyGo_moves ?_ (within_sub w (by decide +kernel))
      assumption
    · assumption
  clear_value x4
  refine Moves.ite ?_ ?_
  · refine Chip.keyRevoke_moves ?_ (within_sub w (by decide +kernel))
    assumption
  · assumption

theorem Chip.trimApply_moves {L : List Part} {b m : Chip} {t' : Nat} {d' : Nat} {n' : Nat} (h : Moves L b m)
    (w : within [.rSys, .sys] L = true) :
    Moves L b (Chip.trimApply m t' d' n') := by
  unfold Chip.trimApply
  extract_lets +onlyGivenNames x1
  clear_value x1
  extract_lets +onlyGivenNames x2
  clear_value x2
  extract_lets +onlyGivenNames x3
  clear_value x3
  extract_lets +onlyGivenNames x4
  clear_value x4
  extract_lets +onlyGivenNames x5
  clear_value x5
  extract_lets +onlyGivenNames x6
  clear_value x6
  extract_lets +onlyGivenNames x7
  have h8 : Moves L b x7 := by
    unfold x7
    refine Chip.wrI_moves ?_ (within_sub w (by decide +kernel))
    refine Chip.wrI_moves ?_ (within_sub w (by decide +kernel))
    assumption
  clear_value x7
  extract_lets +onlyGivenNames x9
  clear_value x9
  refine Chip.wr_moves ?_ (within_sub w (by decide +kernel))
  refine Moves.sys ?_ (within_sub w (by decide +kernel))
  assumption

theorem Chip.trimMark_moves {L : List Part} {b m : Chip} {t' : Nat} (h : Moves L b m)
    (w : within [.rSys, .sys] L = true) :
    Moves L b (Chip.trimMark m t') := by
  unfold Chip.trimMark
  split
  · extract_lets +onlyGivenNames x1
    clear_value x1
    refine Moves.sys ?_ (within_sub w (by decide +kernel))
    assumption
  · refine Chip.trimApply_moves ?_ (within_sub w (by decide +kernel))
    assumption

theorem Chip.islFault_moves {L : List Part} {b m : Chip} {i' : Nat} (h : Moves L b m)
    (w : within [.rCh, .rTr, .rDrv, .rBk, .rBst, .rDg, .rDgb, .rCap, .rInt, .rSys, .rMap, .isl, .frees, .asleep, .accums, .pool, .poolLast, .chans, .banks, .boost, .bcap, .jour, .sys, .cyc] L = true) :
    Moves L b (Chip.islFault m i') := by
  unfold Chip.islFault
  extract_lets +onlyGivenNames x1
  have h2 : Moves L b x1 := by
    unfold x1
    refine Chip.setFlag_moves ?_ (within_sub w (by decide +kernel))
    assumption
  clear_value x1
  extract_lets +onlyGivenNames x3
  have h4 : Moves L b x3 := by
    unfold x3
    refine Moves.ite ?_ ?_
    · refine Chip.clusterStop_moves ?_ (within_sub w (by decide +kernel))
      assumption
    · assumption
  clear_value x3
  refine Chip.sysFlag_moves ?_ (within_sub w (by decide +kernel))
  assumption

theorem Chip.switchTimeout_moves {L : List Part} {b m : Chip} {i' : Nat} (h : Moves L b m)
    (w : within [.rCh, .rTr, .rDrv, .rBk, .rBst, .rDg, .rDgb, .rCap, .rInt, .rSys, .rMap, .isl, .frees, .asleep, .accums, .pool, .poolLast, .chans, .banks, .boost, .bcap, .jour, .sys, .cyc] L = true) :
    Moves L b (Chip.switchTimeout m i') := by
  unfold Chip.switchTimeout
  extract_lets +onlyGivenNames x1
  clear_value x1
  split
  · assumption
  · refine Moves.ite ?_ ?_
    · assumption
    · refine Moves.ite ?_ ?_
      · refine Chip.islFault_moves ?_ (within_sub w (by decide +kernel))
        refine Chip.setIsland_moves ?_ (within_sub w (by decide +kernel))
        assumption
      · assumption

theorem Chip.sleep_moves {L : List Part} {b m : Chip} (h : Moves L b m)
    (w : within [.rInt, .asleep, .sys] L = true) :
    Moves L b (Chip.sleep m) := by
  unfold Chip.sleep
  extract_lets +onlyGivenNames x1
  have h2 : Moves L b x1 := by
    unfold x1
    refine Chip.wr_moves ?_ (within_sub w (by decide +kernel))
    assumption
  clear_value x1
  extract_lets +onlyGivenNames x3
  clear_value x3
  extract_lets +onlyGivenNames x4
  have h5 : Moves L b x4 := by
    unfold x4
    refine Moves.upd (x := x1) ?_ (by constructor <;> first | rfl | exact .inl rfl | exact .inr (within_mem w (by decide +kernel)))
    assumption
  clear_value x4
  split
  · assumption
  · refine Chip.wakeBy_moves ?_ (within_sub w (by decide +kernel))
    assumption

theorem Chip.trimHold_moves {L : List Part} {b m : Chip} (h : Moves L b m)
    (w : within [.rSys, .sys] L = true) :
    Moves L b (Chip.trimHold m) := by
  unfold Chip.trimHold
  extract_lets +onlyGivenNames x1
  have h2 : Moves L b x1 := by
    unfold x1
    refine Chip.wr_moves ?_ (within_sub w (by decide +kernel))
    assumption
  clear_value x1
  extract_lets +onlyGivenNames x3
  clear_value x3
  refine Moves.ite ?_ ?_
  · refine Moves.sys ?_ (within_sub w (by decide +kernel))
    assumption
  · assumption

theorem Chip.xtalBack_moves {L : List Part} {b m : Chip} (h : Moves L b m)
    (w : within [.rSys] L = true) :
    Moves L b (Chip.xtalBack m) := by
  unfold Chip.xtalBack
  refine Moves.ite ?_ ?_
  · refine Chip.pllaLock_moves ?_ (within_sub w (by decide +kernel))
    refine Chip.wr_moves ?_ (within_sub w (by decide +kernel))
    assumption
  · assumption

theorem Chip.nap_moves {L : List Part} {b m : Chip} (h : Moves L b m)
    (w : within [.rInt, .rSys, .asleep, .sys] L = true) :
    Moves L b (Chip.nap m) := by
  unfold Chip.nap
  extract_lets +onlyGivenNames x1
  clear_value x1
  extract_lets +onlyGivenNames x2
  clear_value x2
  extract_lets +onlyGivenNames x3
  have h4 : Moves L b x3 := by
    unfold x3
    refine Chip.wrB_moves ?_ (within_sub w (by decide +kernel))
    refine Moves.sys ?_ (within_sub w (by decide +kernel))
    assumption
  clear_value x3
  refine Moves.ite ?_ ?_
  · refine Moves.ite ?_ ?_
    · refine Chip.sleep_moves ?_ (within_sub w (by decide +kernel))
      assumption
    · assumption
  · assumption

theorem Chip.switchDone_moves {L : List Part} {b m : Chip} {i' : Nat} (h : Moves L b m)
    (w : within [.rSys, .isl] L = true) :
    Moves L b (Chip.switchDone m i') := by
  unfold Chip.switchDone
  extract_lets +onlyGivenNames x1
  clear_value x1
  split
  · assumption
  · refine Moves.ite ?_ ?_
    · assumption
    · refine Chip.wr_moves ?_ (within_sub w (by decide +kernel))
      refine Chip.setIsland_moves ?_ (within_sub w (by decide +kernel))
      assumption

theorem Chip.startC_moves {L : List Part} {b m : Chip} {reads' : Bool} (h : Moves L b m)
    (w : within [.mem, .coreC, .sys] L = true) :
    Moves L b (Chip.startC m reads') := by
  unfold Chip.startC
  extract_lets +onlyGivenNames x1
  clear_value x1
  extract_lets +onlyGivenNames x2
  clear_value x2
  extract_lets +onlyGivenNames x3
  have h4 : Moves L b x3 := by
    unfold x3
    refine Moves.sys ?_ (within_sub w (by decide +kernel))
    assumption
  clear_value x3
  extract_lets +onlyGivenNames x5
  have h6 : Moves L b x5 := by
    unfold x5
    refine Chip.imgLoad_moves ?_ (within_sub w (by decide +kernel))
    assumption
  clear_value x5
  extract_lets +onlyGivenNames x7
  clear_value x7
  extract_lets +onlyGivenNames x8
  clear_value x8
  extract_lets +onlyGivenNames x9
  clear_value x9
  extract_lets +onlyGivenNames x10
  clear_value x10
  refine Moves.ite ?_ ?_
  · refine Moves.upd (x := x5) ?_ (by constructor <;> first | rfl | exact .inl rfl | exact .inr (within_mem w (by decide +kernel)))
    assumption
  · refine Moves.upd (x := x3) ?_ (by constructor <;> first | rfl | exact .inl rfl | exact .inr (within_mem w (by decide +kernel)))
    assumption

theorem Chip.gelowStart_moves {L : List Part} {b m : Chip} (h : Moves L b m)
    (w : within [.rHp, .rInt, .rSys, .mem, .asleep, .accums, .coreV, .coreC, .jour, .recs, .gelow, .sys, .cyc] L = true) :
    Moves L b (Chip.gelowStart m) := by
  unfold Chip.gelowStart
  extract_lets +onlyGivenNames x1
  clear_value x1
  extract_lets +onlyGivenNames x2
  clear_value x2
  extract_lets +onlyGivenNames x3
  clear_value x3
  extract_lets +onlyGivenNames x4
  clear_value x4
  extract_lets +onlyGivenNames x5
  clear_value x5
  refine Moves.ite ?_ ?_
  · assumption
  · refine Moves.ite ?_ ?_
    · refine Chip.wr_moves ?_ (within_sub w (by decide +kernel))
      refine Chip.wr_moves ?_ (within_sub w (by decide +kernel))
      assumption
    · split
      · refine Chip.wr_moves ?_ (within_sub w (by decide +kernel))
        refine Chip.wr_moves ?_ (within_sub w (by decide +kernel))
        assumption
      · extract_lets +onlyGivenNames x6
        have h7 : Moves L b x6 := by
          unfold x6
          refine Chip.wrB_moves ?_ (within_sub w (by decide +kernel))
          refine Chip.wr_moves ?_ (within_sub w (by decide +kernel))
          refine Chip.imgLoad_moves ?_ (within_sub w (by decide +kernel))
          assumption
        clear_value x6
        extract_lets +onlyGivenNames x8
        clear_value x8
        extract_lets +onlyGivenNames x9
        clear_value x9
        extract_lets +onlyGivenNames x10
        have h11 : Moves L b x10 := by
          unfold x10
          refine Moves.upd (x := x6) ?_ (by constructor <;> first | rfl | exact .inl rfl | exact .inr (within_mem w (by decide +kernel)))
          assumption
        clear_value x10
        extract_lets +onlyGivenNames x12
        have h13 : Moves L b x12 := by
          unfold x12
          refine Chip.gelowUp_moves ?_ (within_sub w (by decide +kernel))
          refine Chip.startC_moves ?_ (within_sub w (by decide +kernel))
          refine Chip.jourRestart_moves ?_ (within_sub w (by decide +kernel))
          assumption
        clear_value x12
        refine Moves.foldl ?_ fun y14 a15 h16 => ?_
        · assumption
        · refine Moves.ite ?_ ?_
          · refine Chip.jourNotice_moves ?_ (within_sub w (by decide +kernel))
            assumption
          · assumption

theorem Chip.clockReturn_moves {L : List Part} {b m : Chip} {i' : Nat} (h : Moves L b m)
    (w : within [.rSys, .isl] L = true) :
    Moves L b (Chip.clockReturn m i') := by
  unfold Chip.clockReturn
  extract_lets +onlyGivenNames x1
  clear_value x1
  refine Moves.ite ?_ ?_
  · assumption
  · refine Chip.wr_moves ?_ (within_sub w (by decide +kernel))
    refine Chip.setIsland_moves ?_ (within_sub w (by decide +kernel))
    assumption

theorem Chip.xtalEval_moves {L : List Part} {b m : Chip} {cycles' : Nat} (h : Moves L b m)
    (w : within [.rSys, .sys] L = true) :
    Moves L b (Chip.xtalEval m cycles') := by
  unfold Chip.xtalEval
  extract_lets +onlyGivenNames x1
  clear_value x1
  extract_lets +onlyGivenNames x2
  clear_value x2
  extract_lets +onlyGivenNames x3
  have h4 : Moves L b x3 := by
    unfold x3
    refine Chip.wrB_moves ?_ (within_sub w (by decide +kernel))
    assumption
  clear_value x3
  extract_lets +onlyGivenNames x5
  clear_value x5
  extract_lets +onlyGivenNames x6
  have h7 : Moves L b x6 := by
    unfold x6
    refine Moves.ite ?_ ?_
    · refine Moves.sys ?_ (within_sub w (by decide +kernel))
      assumption
    · assumption
  clear_value x6
  refine Chip.pllaLock_moves ?_ (within_sub w (by decide +kernel))
  refine Moves.ite ?_ ?_
  · refine Chip.wr_moves ?_ (within_sub w (by decide +kernel))
    assumption
  · assumption

theorem Chip.autoRecover_moves {L : List Part} {b m : Chip} {i' : Nat} (h : Moves L b m)
    (w : within [.rHp, .rMb, .rCh, .rTr, .rLat, .rDrv, .rAx, .rWhl, .rMdl, .rBk, .rBst, .rPwr, .rDg, .rDgb, .rCap, .rBcap, .rAdc, .rAs, .rCmp, .rSds, .rAin, .rFe, .rFio, .rTim, .rInt, .rSys, .rSup, .rProt, .rMap, .rNc, .tb, .mem, .isl, .stamps, .frees, .rdata, .asleep, .accums, .holdEnd, .coreV, .coreC, .whl, .mdl, .axes, .pool, .poolLast, .orderNo, .chans, .banks, .boost, .capReq, .capTb, .copies, .wear, .bcap, .jour, .recs, .fe, .fio, .tim, .adc, .assay, .cmp, .sds, .map, .saved, .nand, .mbox, .port, .gelow, .sys, .sup, .link, .refetch, .cyc] L = true) :
    Moves L b (Chip.autoRecover m i') := by
  unfold Chip.autoRecover
  extract_lets +onlyGivenNames x1
  clear_value x1
  refine Moves.ite ?_ ?_
  · assumption
  · refine Moves.ite ?_ ?_
    · refine Chip.islandReset_moves ?_ (within_sub w (by decide +kernel))
      assumption
    · split
      · assumption
      · refine Moves.ite ?_ ?_
        · refine Chip.islandReset_moves ?_ (within_sub w (by decide +kernel))
          refine Chip.setSel_moves ?_ (within_sub w (by decide +kernel))
          assumption
        · assumption

theorem Chip.clockStop_moves {L : List Part} {b m : Chip} {i' : Nat} (h : Moves L b m)
    (w : within [.rCh, .rTr, .rDrv, .rBk, .rBst, .rDg, .rDgb, .rCap, .rInt, .rSys, .rMap, .isl, .frees, .asleep, .accums, .pool, .poolLast, .chans, .banks, .boost, .bcap, .jour, .sys, .cyc] L = true) :
    Moves L b (Chip.clockStop m i') := by
  unfold Chip.clockStop
  extract_lets +onlyGivenNames x1
  clear_value x1
  refine Moves.ite ?_ ?_
  · assumption
  · refine Chip.islFault_moves ?_ (within_sub w (by decide +kernel))
    refine Chip.wr_moves ?_ (within_sub w (by decide +kernel))
    refine Chip.setIsland_moves ?_ (within_sub w (by decide +kernel))
    assumption

theorem Chip.keyDone_moves {L : List Part} {b m : Chip} (h : Moves L b m)
    (w : within [.rProt, .sys] L = true) :
    Moves L b (Chip.keyDone m) := by
  unfold Chip.keyDone
  split
  · assumption
  · extract_lets +onlyGivenNames x1
    have h2 : Moves L b x1 := by
      unfold x1
      refine Moves.foldl ?_ fun y3 a4 h5 => ?_
      · assumption
      · refine Chip.wr_moves ?_ (within_sub w (by decide +kernel))
        assumption
    clear_value x1
    extract_lets +onlyGivenNames x6
    have h7 : Moves L b x6 := by
      unfold x6
      refine Chip.wr_moves ?_ (within_sub w (by decide +kernel))
      refine Chip.wr_moves ?_ (within_sub w (by decide +kernel))
      refine Chip.wr_moves ?_ (within_sub w (by decide +kernel))
      assumption
    clear_value x6
    extract_lets +onlyGivenNames x8
    clear_value x8
    refine Moves.sys ?_ (within_sub w (by decide +kernel))
    assumption

theorem Chip.rom_moves {L : List Part} {b m : Chip} {pinLow t0 t1 : Bool} (h : Moves L b m) (w : within [.rSys, .mem, .isl, .coreV, .sys] L = true) :
    Moves L b (m.rom pinLow t0 t1) := by
  unfold Chip.rom
  refine Moves.ite h ?_
  extract_lets x y z n
  have g : Moves L b z := .upd (x := { m with mem := [] }) (.wipe (within_mem w (by decide +kernel)) h)
    (by constructor <;> first | rfl | exact .inl rfl | exact .inr (within_mem w (by decide +kernel)))
  have k : Moves L b n := Chip.wr_moves g (within_sub w (by decide +kernel))
  clear_value n
  refine Moves.ite (Chip.recovery_moves k (within_sub w (by decide +kernel))) ?_
  refine Moves.ite (Chip.recovery_moves k (within_sub w (by decide +kernel))) ?_
  split
  · exact Chip.stageOne_moves k (within_sub w (by decide +kernel))
  · exact Chip.recovery_moves k (within_sub w (by decide +kernel))

end Sys2Proof.Machine
end

