-- ==== Sys2Proof/Laws/MovesFabricOps.lean ====
section
/-! SUPPORT. Each operation of Machine/FabricOps.lean moves the block within the parts it names. -/

-- Theorem by theorem: many at once each take a thread's stack, and the package as one text ran out of them.
set_option Elab.async false

namespace Sys2Proof.Machine

theorem Chip.trap_moves {L : List Part} {b m : Chip} {t' : Nat} {addr' : Nat} {k' : Access} (h : Moves L b m)
    (w : within [.coreV, .coreC] L = true) :
    Moves L b (Chip.trap m t' addr' k') := by
  unfold Chip.trap
  extract_lets +onlyGivenNames x1
  clear_value x1
  refine Chip.setCore_moves ?_ (within_sub w (by decide +kernel))
  assumption

theorem Chip.broadcast_moves {L : List Part} {b m : Chip} (h : Moves L b m)
    (w : within [.isl, .stamps, .frees] L = true) :
    Moves L b (Chip.broadcast m) := by
  unfold Chip.broadcast
  extract_lets +onlyGivenNames x1
  clear_value x1
  extract_lets +onlyGivenNames x2
  have h3 : Moves L b x2 := by
    unfold x2
    refine Chip.stamp_moves ?_ (within_sub w (by decide +kernel))
    refine Moves.frees ?_ (within_sub w (by decide +kernel))
    assumption
  clear_value x2
  refine Moves.ite ?_ ?_
  · refine Moves.foldl ?_ fun y4 a5 h6 => ?_
    · assumption
    · extract_lets +onlyGivenNames x7
      clear_value x7
      refine Moves.ite ?_ ?_
      · refine Chip.setIsland_moves ?_ (within_sub w (by decide +kernel))
        assumption
      · assumption
  · assumption

theorem Chip.covRevert_moves {L : List Part} {b m : Chip} {a' : Nat} {bs' : List Byte} (h : Moves L b m)
    (w : within [.rInt, .rMap, .asleep, .accums, .map, .sys, .cyc] L = true) :
    Moves L b (Chip.covRevert m a' bs') := by
  unfold Chip.covRevert
  split
  · assumption
  · extract_lets +onlyGivenNames x1
    clear_value x1
    extract_lets +onlyGivenNames x2
    unfold x2
    clear_value x2
    extract_lets +onlyGivenNames x3
    have h4 : Moves L b x3 := by
      unfold x3
      refine Moves.ite ?_ ?_
      · refine Moves.upd (x := m) ?_ (by constructor <;> first | rfl | exact .inl rfl | exact .inr (within_mem w (by decide +kernel)))
        assumption
      · assumption
    clear_value x3
    refine Moves.ite ?_ ?_
    · refine Chip.mapFlag_moves ?_ (within_sub w (by decide +kernel))
      refine Chip.count_moves ?_ (within_sub w (by decide +kernel))
      assumption
    · assumption

theorem Chip.refetchDone_moves {L : List Part} {b m : Chip} (h : Moves L b m)
    (w : within [.rInt, .rMap, .mem, .rdata, .asleep, .accums, .map, .sys, .refetch, .cyc] L = true) :
    Moves L b (Chip.refetchDone m) := by
  unfold Chip.refetchDone
  split
  · assumption
  · extract_lets +onlyGivenNames x1
    have h2 : Moves L b x1 := by
      unfold x1
      refine Moves.refetch ?_ (within_sub w (by decide +kernel))
      assumption
    clear_value x1
    split
    · refine Moves.rdata ?_ (within_sub w (by decide +kernel))
      assumption
    · extract_lets +onlyGivenNames x3
      clear_value x3
      extract_lets +onlyGivenNames x4
      have h5 : Moves L b x4 := by
        unfold x4
        refine Chip.store_moves ?_ (within_sub w (by decide +kernel))
        refine Chip.covRevert_moves ?_ (within_sub w (by decide +kernel))
        assumption
      clear_value x4
      refine Moves.rdata ?_ (within_sub w (by decide +kernel))
      assumption

theorem Chip.linkTake_moves {L : List Part} {b m : Chip} {l' : Nat} {w' : Nat} (h : Moves L b m)
    (w : within [.link] L = true) :
    Moves L b (Chip.linkTake m l' w') := by
  unfold Chip.linkTake
  refine Moves.link ?_ (within_sub w (by decide +kernel))
  assumption

theorem Chip.linkFault_moves {L : List Part} {b m : Chip} {l' : Nat} {w' : Nat} (h : Moves L b m)
    (w : within [.rHp, .rMb, .rCh, .rTr, .rLat, .rDrv, .rAx, .rWhl, .rMdl, .rBk, .rBst, .rPwr, .rDg, .rDgb, .rCap, .rBcap, .rAdc, .rAs, .rCmp, .rSds, .rAin, .rFe, .rFio, .rTim, .rInt, .rSys, .rSup, .rProt, .rMap, .rNc, .tb, .mem, .isl, .stamps, .frees, .rdata, .asleep, .accums, .holdEnd, .coreV, .coreC, .whl, .mdl, .axes, .pool, .poolLast, .orderNo, .chans, .banks, .boost, .capReq, .capTb, .copies, .wear, .bcap, .jour, .recs, .fe, .fio, .tim, .adc, .assay, .cmp, .sds, .map, .saved, .nand, .mbox, .port, .gelow, .sys, .sup, .link, .refetch, .cyc] L = true) :
    Moves L b (Chip.linkFault m l' w') := by
  unfold Chip.linkFault
  extract_lets +onlyGivenNames x1
  have h2 : Moves L b x1 := by
    unfold x1
    refine Chip.sysFlag_moves ?_ (within_sub w (by decide +kernel))
    refine Chip.setLinkFaulty_moves ?_ (within_sub w (by decide +kernel))
    assumption
  clear_value x1
  refine Moves.ite ?_ ?_
  · refine Chip.clusterStop_moves ?_ (within_sub w (by decide +kernel))
    assumption
  · refine Moves.ite ?_ ?_
    · refine Chip.moduleReset_moves ?_ (within_sub w (by decide +kernel))
      assumption
    · refine Chip.linkTake_moves ?_ (within_sub w (by decide +kernel))
      assumption

theorem Chip.sendWord_moves {L : List Part} {b m : Chip} {l' : Nat} {w' : Word} {rx' : List (BitVec 33)} (h : Moves L b m)
    (w : within [.rHp, .rMb, .rCh, .rTr, .rLat, .rDrv, .rAx, .rWhl, .rMdl, .rBk, .rBst, .rPwr, .rDg, .rDgb, .rCap, .rBcap, .rAdc, .rAs, .rCmp, .rSds, .rAin, .rFe, .rFio, .rTim, .rInt, .rSys, .rSup, .rProt, .rMap, .rNc, .tb, .mem, .isl, .stamps, .frees, .rdata, .asleep, .accums, .holdEnd, .coreV, .coreC, .whl, .mdl, .axes, .pool, .poolLast, .orderNo, .chans, .banks, .boost, .capReq, .capTb, .copies, .wear, .bcap, .jour, .recs, .fe, .fio, .tim, .adc, .assay, .cmp, .sds, .map, .saved, .nand, .mbox, .port, .gelow, .sys, .sup, .link, .refetch, .cyc] L = true) :
    Moves L b (Chip.sendWord m l' w' rx') := by
  unfold Chip.sendWord
  extract_lets +onlyGivenNames x1
  clear_value x1
  refine Moves.ite ?_ ?_
  · assumption
  · refine Moves.ite ?_ ?_
    · assumption
    · split
      · refine Chip.linkTake_moves ?_ (within_sub w (by decide +kernel))
        refine Chip.count_moves ?_ (within_sub w (by decide +kernel))
        assumption
      · refine Chip.linkFault_moves ?_ (within_sub w (by decide +kernel))
        refine Chip.count_moves ?_ (within_sub w (by decide +kernel))
        assumption

theorem Chip.parityRead_moves {L : List Part} {b m : Chip} {who' : Writer} {place' : ParityPlace} {addr' : Nat} {held' : Nat} (h : Moves L b m)
    (w : within [.rCh, .rTr, .rDrv, .rBk, .rBst, .rDg, .rDgb, .rCap, .rInt, .rSys, .rMap, .mem, .isl, .frees, .rdata, .asleep, .accums, .pool, .poolLast, .chans, .banks, .boost, .bcap, .jour, .sys, .refetch, .cyc] L = true) :
    Moves L b (Chip.parityRead m who' place' addr' held') := by
  unfold Chip.parityRead
  extract_lets +onlyGivenNames x1
  clear_value x1
  extract_lets +onlyGivenNames x2
  clear_value x2
  refine Moves.ite ?_ ?_
  · assumption
  · split
    · refine Chip.clusterStop_moves ?_ (within_sub w (by decide +kernel))
      refine Chip.sysFlag_moves ?_ (within_sub w (by decide +kernel))
      refine Moves.rdata ?_ (within_sub w (by decide +kernel))
      assumption
    · extract_lets +onlyGivenNames x3
      have h4 : Moves L b x3 := by
        unfold x3
        refine Chip.store_moves ?_ (within_sub w (by decide +kernel))
        assumption
      clear_value x3
      refine Moves.ite ?_ ?_
      · assumption
      · refine Chip.sysFlag_moves ?_ (within_sub w (by decide +kernel))
        refine Chip.wr_moves ?_ (within_sub w (by decide +kernel))
        refine Chip.wr_moves ?_ (within_sub w (by decide +kernel))
        refine Moves.rdata ?_ (within_sub w (by decide +kernel))
        assumption
    · refine Moves.ite ?_ ?_
      · assumption
      · split
        · refine Moves.refetch ?_ (within_sub w (by decide +kernel))
          assumption
        · extract_lets +onlyGivenNames x5
          have h6 : Moves L b x5 := by
            unfold x5
            refine Chip.store_moves ?_ (within_sub w (by decide +kernel))
            assumption
          clear_value x5
          refine Chip.sysFlag_moves ?_ (within_sub w (by decide +kernel))
          refine Chip.wr_moves ?_ (within_sub w (by decide +kernel))
          refine Chip.wr_moves ?_ (within_sub w (by decide +kernel))
          refine Moves.rdata ?_ (within_sub w (by decide +kernel))
          assumption

end Sys2Proof.Machine
end

