-- ==== Sys2Proof/Laws/MovesFabric.lean ====
section
/-! SUPPORT. Each operation of Machine/Fabric.lean moves the block within the parts it names. -/

-- Theorem by theorem: many at once each take a thread's stack, and the package as one text ran out of them.
set_option Elab.async false

namespace Sys2Proof.Machine

theorem Chip.accessFault_moves {L : List Part} {b m : Chip} {t' : Nat} {addr' : Nat} {k' : Access} (h : Moves L b m)
    (w : within [.coreV, .coreC] L = true) :
    Moves L b (Chip.accessFault m t' addr' k') := by
  unfold Chip.accessFault
  refine Moves.ite ?_ ?_
  · refine Chip.trap_moves ?_ (within_sub w (by decide +kernel))
    assumption
  · assumption

theorem execAnvilCProtectionTrap_moves {L : List Part} {addr' : Word} {k' : Access} {s t : State}
    (w : within [.coreV, .coreC] L = true) (e : execAnvilCProtectionTrap addr' k' s = .next t) :
    Moves L s.chip t.chip := by
  unfold execAnvilCProtectionTrap at e
  refine upd_moves (fun m => ?_) e
  refine Moves.ite ?_ ?_
  · refine Chip.trap_moves ?_ (within_sub w (by decide +kernel))
    exact .refl
  · exact .refl

theorem execFabricWord_moves {L : List Part} {l' : Link} {w' : Word} {rx' : List (BitVec 33)} {s t : State}
    (w : within [.rHp, .rMb, .rCh, .rTr, .rLat, .rDrv, .rAx, .rWhl, .rMdl, .rBk, .rBst, .rPwr, .rDg, .rDgb, .rCap, .rBcap, .rAdc, .rAs, .rCmp, .rSds, .rAin, .rFe, .rFio, .rTim, .rInt, .rSys, .rSup, .rProt, .rMap, .rNc, .tb, .mem, .isl, .stamps, .frees, .rdata, .asleep, .accums, .holdEnd, .coreV, .coreC, .whl, .mdl, .axes, .pool, .poolLast, .orderNo, .chans, .banks, .boost, .capReq, .capTb, .copies, .wear, .bcap, .jour, .recs, .fe, .fio, .tim, .adc, .assay, .cmp, .sds, .map, .saved, .nand, .mbox, .port, .gelow, .sys, .sup, .link, .refetch, .cyc] L = true) (e : execFabricWord l' w' rx' s = .next t) :
    Moves L s.chip t.chip := by
  unfold execFabricWord at e
  refine upd_moves (fun m => ?_) e
  refine Chip.sendWord_moves ?_ (within_sub w (by decide +kernel))
  exact .refl

theorem execTbBroadcast_moves {L : List Part} {s t : State}
    (w : within [.isl, .stamps, .frees] L = true) (e : execTbBroadcast s = .next t) :
    Moves L s.chip t.chip := by
  unfold execTbBroadcast at e
  refine upd_moves (fun m => ?_) e
  refine Chip.broadcast_moves ?_ (within_sub w (by decide +kernel))
  exact .refl

theorem execLockstepFault_moves {L : List Part} {s t : State}
    (w : within [.rHp, .rMb, .rCh, .rTr, .rLat, .rDrv, .rAx, .rWhl, .rMdl, .rBk, .rBst, .rPwr, .rDg, .rDgb, .rCap, .rBcap, .rAdc, .rAs, .rCmp, .rSds, .rAin, .rFe, .rFio, .rTim, .rInt, .rSys, .rSup, .rProt, .rMap, .rNc, .tb, .mem, .isl, .stamps, .frees, .rdata, .asleep, .accums, .holdEnd, .coreV, .coreC, .whl, .mdl, .axes, .pool, .poolLast, .orderNo, .chans, .banks, .boost, .capReq, .capTb, .copies, .wear, .bcap, .jour, .recs, .fe, .fio, .tim, .adc, .assay, .cmp, .sds, .map, .saved, .nand, .mbox, .port, .gelow, .sys, .sup, .link, .refetch, .cyc] L = true) (e : execLockstepFault s = .next t) :
    Moves L s.chip t.chip := by
  unfold execLockstepFault at e
  refine upd_moves (fun m => ?_) e
  refine Moves.ite ?_ ?_
  · refine Chip.vRestart_moves ?_ (within_sub w (by decide +kernel))
    refine Chip.sysFlag_moves ?_ (within_sub w (by decide +kernel))
    exact .refl
  · exact .refl

theorem execAnvilAccessFault_moves {L : List Part} {core' : Core} {addr' : Word} {k' : Access} {s t : State}
    (w : within [.coreV, .coreC] L = true) (e : execAnvilAccessFault core' addr' k' s = .next t) :
    Moves L s.chip t.chip := by
  unfold execAnvilAccessFault at e
  refine upd_moves (fun m => ?_) e
  refine Chip.accessFault_moves ?_ (within_sub w (by decide +kernel))
  exact .refl

theorem execSramParityRead_moves {L : List Part} {reader' : Writer} {place' : ParityPlace} {addr' : Nat} {held' : Word} {s t : State}
    (w : within [.rCh, .rTr, .rDrv, .rBk, .rBst, .rDg, .rDgb, .rCap, .rInt, .rSys, .rMap, .mem, .isl, .frees, .rdata, .asleep, .accums, .pool, .poolLast, .chans, .banks, .boost, .bcap, .jour, .sys, .refetch, .cyc] L = true) (e : execSramParityRead reader' place' addr' held' s = .next t) :
    Moves L s.chip t.chip := by
  unfold execSramParityRead at e
  refine upd_moves (fun m => ?_) e
  refine Chip.parityRead_moves ?_ (within_sub w (by decide +kernel))
  exact .refl

theorem execSramRefetchDone_moves {L : List Part} {s t : State}
    (w : within [.rInt, .rMap, .mem, .rdata, .asleep, .accums, .map, .sys, .refetch, .cyc] L = true) (e : execSramRefetchDone s = .next t) :
    Moves L s.chip t.chip := by
  unfold execSramRefetchDone at e
  refine upd_moves (fun m => ?_) e
  refine Chip.refetchDone_moves ?_ (within_sub w (by decide +kernel))
  exact .refl

end Sys2Proof.Machine
end

