-- ==== Sys2Proof/Laws/MovesFiligreeOps.lean ====
section
/-! SUPPORT. Each operation of Machine/FiligreeOps.lean moves the block within the parts it names. -/

-- Theorem by theorem: many at once each take a thread's stack, and the package as one text ran out of them.
set_option Elab.async false

namespace Sys2Proof.Machine

theorem Chip.setEng_moves {L : List Part} {b m : Chip} {e' : Nat} {x' : Engine} (h : Moves L b m)
    (w : within [.fe] L = true) :
    Moves L b (Chip.setEng m e' x') := by
  unfold Chip.setEng
  refine Moves.fe ?_ (within_sub w (by decide +kernel))
  assumption

theorem Chip.feSkip_moves {L : List Part} {b m : Chip} {e' : Nat} {n' : Nat} (h : Moves L b m)
    (w : within [.fe] L = true) :
    Moves L b (Chip.feSkip m e' n') := by
  unfold Chip.feSkip
  split
  · extract_lets +onlyGivenNames x1
    clear_value x1
    refine Chip.setEng_moves ?_ (within_sub w (by decide +kernel))
    assumption

theorem Chip.feSettle_moves {L : List Part} {b m : Chip} {e' : Nat} (h : Moves L b m)
    (w : within [.rFe, .fe] L = true) :
    Moves L b (Chip.feSettle m e') := by
  unfold Chip.feSettle
  extract_lets +onlyGivenNames x1
  clear_value x1
  extract_lets +onlyGivenNames x2
  have h3 : Moves L b x2 := by
    unfold x2
    refine Moves.ite ?_ ?_
    · refine Chip.wr_moves ?_ (within_sub w (by decide +kernel))
      assumption
    · assumption
  clear_value x2
  extract_lets +onlyGivenNames x4
  clear_value x4
  refine Moves.ite ?_ ?_
  · refine Chip.feSkip_moves ?_ (within_sub w (by decide +kernel))
    refine Chip.setEng_moves ?_ (within_sub w (by decide +kernel))
    assumption
  · assumption

theorem Chip.feEnable_moves {L : List Part} {b m : Chip} {e' : Nat} {en' : Bool} (h : Moves L b m)
    (w : within [.rFe, .fe] L = true) :
    Moves L b (Chip.feEnable m e' en') := by
  unfold Chip.feEnable
  refine Chip.wrB_moves ?_ (within_sub w (by decide +kernel))
  refine Chip.feSettle_moves ?_ (within_sub w (by decide +kernel))
  assumption

theorem Chip.feCtl_moves {L : List Part} {b m : Chip} {e' : Nat} {en' : Bool} (h : Moves L b m)
    (w : within [.rFe, .fe] L = true) :
    Moves L b (Chip.feCtl m e' en') := by
  unfold Chip.feCtl
  refine Moves.ite ?_ ?_
  · assumption
  · refine Chip.feEnable_moves ?_ (within_sub w (by decide +kernel))
    assumption

theorem Chip.feLevels_moves {L : List Part} {b m : Chip} {e' : Nat} (h : Moves L b m)
    (w : within [.rFe] L = true) :
    Moves L b (Chip.feLevels m e') := by
  unfold Chip.feLevels
  refine Chip.wr_moves ?_ (within_sub w (by decide +kernel))
  refine Chip.wr_moves ?_ (within_sub w (by decide +kernel))
  assumption

theorem Chip.feTxPush_moves {L : List Part} {b m : Chip} {e' : Nat} {w' : Nat} (h : Moves L b m)
    (w : within [.rFe, .fe] L = true) :
    Moves L b (Chip.feTxPush m e' w') := by
  unfold Chip.feTxPush
  extract_lets +onlyGivenNames x1
  clear_value x1
  refine Chip.feLevels_moves ?_ (within_sub w (by decide +kernel))
  refine Chip.setEng_moves ?_ (within_sub w (by decide +kernel))
  assumption

theorem Chip.groupLower_moves {L : List Part} {b m : Chip} {g' : Nat} {w' : Nat} (h : Moves L b m)
    (w : within [.rFio, .cyc] L = true) :
    Moves L b (Chip.groupLower m g' w') := by
  unfold Chip.groupLower
  extract_lets +onlyGivenNames x1
  have h2 : Moves L b x1 := by
    unfold x1
    refine Chip.wr_moves ?_ (within_sub w (by decide +kernel))
    assumption
  clear_value x1
  extract_lets +onlyGivenNames x3
  clear_value x3
  refine Chip.setCycle_moves ?_ (within_sub w (by decide +kernel))
  assumption

theorem Chip.feReset_moves {L : List Part} {b m : Chip} {e' : Nat} (h : Moves L b m)
    (w : within [.rFe, .fe] L = true) :
    Moves L b (Chip.feReset m e') := by
  unfold Chip.feReset
  extract_lets +onlyGivenNames x1
  have h2 : Moves L b x1 := by
    unfold x1
    refine Chip.feSettle_moves ?_ (within_sub w (by decide +kernel))
    assumption
  clear_value x1
  extract_lets +onlyGivenNames x3
  clear_value x3
  extract_lets +onlyGivenNames x4
  have h5 : Moves L b x4 := by
    unfold x4
    refine Chip.setEng_moves ?_ (within_sub w (by decide +kernel))
    assumption
  clear_value x4
  extract_lets +onlyGivenNames x6
  have h7 : Moves L b x6 := by
    unfold x6
    refine Chip.wr_moves ?_ (within_sub w (by decide +kernel))
    refine Chip.wr_moves ?_ (within_sub w (by decide +kernel))
    refine Chip.wr_moves ?_ (within_sub w (by decide +kernel))
    assumption
  clear_value x6
  refine Chip.wr_moves ?_ (within_sub w (by decide +kernel))
  refine Chip.wr_moves ?_ (within_sub w (by decide +kernel))
  refine Chip.wr_moves ?_ (within_sub w (by decide +kernel))
  refine Chip.wr_moves ?_ (within_sub w (by decide +kernel))
  assumption

theorem Chip.fePhase_moves {L : List Part} {b m : Chip} {e' : Nat} (h : Moves L b m)
    (w : within [.rFe, .fe] L = true) :
    Moves L b (Chip.fePhase m e') := by
  unfold Chip.fePhase
  extract_lets +onlyGivenNames x1
  have h2 : Moves L b x1 := by
    unfold x1
    refine Chip.feSettle_moves ?_ (within_sub w (by decide +kernel))
    assumption
  clear_value x1
  extract_lets +onlyGivenNames x3
  clear_value x3
  refine Chip.setEng_moves ?_ (within_sub w (by decide +kernel))
  assumption

theorem Chip.feSync_moves {L : List Part} {b m : Chip} {halt' : Bool} {reset' : Bool} {phase' : Bool} {run' : Bool} (h : Moves L b m)
    (w : within [.rFe, .fe, .cyc] L = true) :
    Moves L b (Chip.feSync m halt' reset' phase' run') := by
  unfold Chip.feSync
  extract_lets +onlyGivenNames x1
  clear_value x1
  extract_lets +onlyGivenNames x2
  have h3 : Moves L b x2 := by
    unfold x2
    refine Moves.ite ?_ ?_
    · refine Moves.foldl ?_ fun y4 a5 h6 => ?_
      · assumption
      · refine Chip.feEnable_moves ?_ (within_sub w (by decide +kernel))
        assumption
    · assumption
  clear_value x2
  extract_lets +onlyGivenNames x7
  have h8 : Moves L b x7 := by
    unfold x7
    refine Moves.ite ?_ ?_
    · refine Moves.foldl ?_ fun y9 a10 h11 => ?_
      · assumption
      · refine Chip.feReset_moves ?_ (within_sub w (by decide +kernel))
        assumption
    · assumption
  clear_value x7
  extract_lets +onlyGivenNames x12
  have h13 : Moves L b x12 := by
    unfold x12
    refine Moves.ite ?_ ?_
    · refine Moves.foldl ?_ fun y14 a15 h16 => ?_
      · assumption
      · refine Chip.fePhase_moves ?_ (within_sub w (by decide +kernel))
        assumption
    · assumption
  clear_value x12
  extract_lets +onlyGivenNames x17
  clear_value x17
  extract_lets +onlyGivenNames x18
  have h19 : Moves L b x18 := by
    unfold x18
    refine Moves.ite ?_ ?_
    · refine Chip.setCycle_moves ?_ (within_sub w (by decide +kernel))
      assumption
    · assumption
  clear_value x18
  refine Moves.ite ?_ ?_
  · refine Moves.foldl ?_ fun y20 a21 h22 => ?_
    · assumption
    · refine Moves.ite ?_ ?_
      · assumption
      · refine Chip.feEnable_moves ?_ (within_sub w (by decide +kernel))
        assumption
  · assumption

theorem Chip.feTxLattice_moves {L : List Part} {b m : Chip} {e' : Nat} {w' : Nat} (h : Moves L b m)
    (w : within [.rFe, .rInt, .asleep, .accums, .fe, .sys, .cyc] L = true) :
    Moves L b (Chip.feTxLattice m e' w') := by
  unfold Chip.feTxLattice
  extract_lets +onlyGivenNames x1
  clear_value x1
  extract_lets +onlyGivenNames x2
  clear_value x2
  extract_lets +onlyGivenNames x3
  clear_value x3
  extract_lets +onlyGivenNames x4
  clear_value x4
  extract_lets +onlyGivenNames x5
  clear_value x5
  extract_lets +onlyGivenNames x6
  have h7 : Moves L b x6 := by
    unfold x6
    refine Chip.feLevels_moves ?_ (within_sub w (by decide +kernel))
    refine Chip.setEng_moves ?_ (within_sub w (by decide +kernel))
    assumption
  clear_value x6
  extract_lets +onlyGivenNames x8
  clear_value x8
  refine Moves.ite ?_ ?_
  · refine Chip.feTxPush_moves ?_ (within_sub w (by decide +kernel))
    assumption
  · refine Moves.ite ?_ ?_
    · assumption
    · refine Chip.feFlag_moves ?_ (within_sub w (by decide +kernel))
      refine Chip.setCycle_moves ?_ (within_sub w (by decide +kernel))
      assumption

theorem Chip.feLow_moves {L : List Part} {b m : Chip} {e' : Nat} {was' : Nat} (h : Moves L b m)
    (w : within [.rFe, .rInt, .asleep, .accums, .sys, .cyc] L = true) :
    Moves L b (Chip.feLow m e' was') := by
  unfold Chip.feLow
  extract_lets +onlyGivenNames x1
  clear_value x1
  refine Moves.ite ?_ ?_
  · refine Chip.feFlag_moves ?_ (within_sub w (by decide +kernel))
    assumption
  · assumption

theorem Chip.fePattern_moves {L : List Part} {b m : Chip} {e' : Nat} {w' : Nat} (h : Moves L b m)
    (w : within [.fe] L = true) :
    Moves L b (Chip.fePattern m e' w') := by
  unfold Chip.fePattern
  extract_lets +onlyGivenNames x1
  clear_value x1
  extract_lets +onlyGivenNames x2
  clear_value x2
  refine Moves.ite ?_ ?_
  · assumption
  · refine Chip.setEng_moves ?_ (within_sub w (by decide +kernel))
    assumption

theorem Chip.feIssue_moves {L : List Part} {b m : Chip} {e op : Nat} {f : Nat → Chip → Chip} (h : Moves L b m)
    (w : within [.fe] L = true) (hf : ∀ k y, Moves L b y → Moves L b (f k y)) : Moves L b (m.feIssue e op f) :=
  Moves.ite (Chip.fePattern_moves (hf _ _ h) w) h

theorem Chip.sample_moves {L : List Part} {b m : Chip} {pins' : BitVec 64} (h : Moves L b m)
    (w : within [.fio] L = true) :
    Moves L b (Chip.sample m pins') := by
  unfold Chip.sample
  refine Moves.fio ?_ (within_sub w (by decide +kernel))
  assumption

theorem Chip.xferOut_moves {L : List Part} {b m : Chip} {e' : Nat} {sel' : Nat} {v' : Nat} (h : Moves L b m)
    (w : within [.rFe, .fe] L = true) :
    Moves L b (Chip.xferOut m e' sel' v') := by
  unfold Chip.xferOut
  extract_lets +onlyGivenNames x1
  clear_value x1
  extract_lets +onlyGivenNames x2
  clear_value x2
  extract_lets +onlyGivenNames x3
  clear_value x3
  refine Moves.ite ?_ ?_
  · refine Chip.setEng_moves ?_ (within_sub w (by decide +kernel))
    assumption
  · refine Moves.ite ?_ ?_
    · refine Chip.wr_moves ?_ (within_sub w (by decide +kernel))
      assumption
    · refine Moves.ite ?_ ?_
      · refine Chip.setEng_moves ?_ (within_sub w (by decide +kernel))
        assumption
      · assumption

theorem Chip.xferMove_moves {L : List Part} {b m : Chip} {e' : Nat} {inSel' : Nat} {outSel' : Nat} {n' : Nat} (h : Moves L b m)
    (w : within [.rFe, .fe] L = true) :
    Moves L b (Chip.xferMove m e' inSel' outSel' n') := by
  unfold Chip.xferMove
  extract_lets +onlyGivenNames x1
  clear_value x1
  extract_lets +onlyGivenNames x2
  clear_value x2
  split
  · extract_lets +onlyGivenNames x3
    have h4 : Moves L b x3 := by
      unfold x3
      refine Chip.wr_moves ?_ (within_sub w (by decide +kernel))
      refine Chip.wr_moves ?_ (within_sub w (by decide +kernel))
      assumption
    clear_value x3
    refine Chip.xferOut_moves ?_ (within_sub w (by decide +kernel))
    assumption

theorem Chip.feDone_moves {L : List Part} {b m : Chip} {e' : Nat} {w' : Nat} {dest' : Option Nat} (h : Moves L b m)
    (w : within [.rFe, .fe] L = true) :
    Moves L b (Chip.feDone m e' w' dest') := by
  unfold Chip.feDone
  extract_lets +onlyGivenNames x1
  clear_value x1
  extract_lets +onlyGivenNames x2
  have h3 : Moves L b x2 := by
    unfold x2
    refine Chip.wr_moves ?_ (within_sub w (by decide +kernel))
    refine Chip.wr_moves ?_ (within_sub w (by decide +kernel))
    refine Chip.wr_moves ?_ (within_sub w (by decide +kernel))
    assumption
  clear_value x2
  extract_lets +onlyGivenNames x4
  clear_value x4
  extract_lets +onlyGivenNames x5
  have h6 : Moves L b x5 := by
    unfold x5
    refine Chip.setEng_moves ?_ (within_sub w (by decide +kernel))
    assumption
  clear_value x5
  refine Chip.feSkip_moves ?_ (within_sub w (by decide +kernel))
  assumption

theorem Chip.feOffer_moves {L : List Part} {b m : Chip} {e' : Nat} {w' : Nat} (h : Moves L b m)
    (w : within [.rMdl, .rInt, .asleep, .accums, .mdl, .sys, .cyc] L = true) :
    Moves L b (Chip.feOffer m e' w') := by
  unfold Chip.feOffer
  extract_lets +onlyGivenNames x1
  clear_value x1
  extract_lets +onlyGivenNames x2
  have h3 : Moves L b x2 := by
    unfold x2
    refine Moves.foldl ?_ fun y4 a5 h6 => ?_
    · assumption
    · extract_lets +onlyGivenNames x7
      clear_value x7
      extract_lets +onlyGivenNames x8
      clear_value x8
      refine Moves.ite ?_ ?_
      · refine Chip.setSlot_moves ?_ (within_sub w (by decide +kernel))
        assumption
      · assumption
  clear_value x2
  extract_lets +onlyGivenNames x9
  have h10 : Moves L b x9 := by
    unfold x9
    refine Moves.ite ?_ ?_
    · refine Chip.yawSample_moves ?_ (within_sub w (by decide +kernel))
      assumption
    · assumption
  clear_value x9
  refine Moves.foldl ?_ fun y11 a12 h13 => ?_
  · assumption
  · refine Moves.ite ?_ ?_
    · refine Chip.deflOffer_moves ?_ (within_sub w (by decide +kernel))
      assumption
    · assumption

theorem Chip.feRxPush_moves {L : List Part} {b m : Chip} {e' : Nat} {w' : Nat} (h : Moves L b m)
    (w : within [.rMdl, .rFe, .rInt, .asleep, .accums, .mdl, .fe, .sys, .cyc] L = true) :
    Moves L b (Chip.feRxPush m e' w') := by
  unfold Chip.feRxPush
  extract_lets +onlyGivenNames x1
  clear_value x1
  extract_lets +onlyGivenNames x2
  have h3 : Moves L b x2 := by
    unfold x2
    refine Moves.ite ?_ ?_
    · refine Chip.feFlag_moves ?_ (within_sub w (by decide +kernel))
      refine Chip.setEng_moves ?_ (within_sub w (by decide +kernel))
      assumption
    · refine Chip.setEng_moves ?_ (within_sub w (by decide +kernel))
      assumption
  clear_value x2
  refine Chip.feOffer_moves ?_ (within_sub w (by decide +kernel))
  refine Chip.feFlag_moves ?_ (within_sub w (by decide +kernel))
  refine Chip.feLevels_moves ?_ (within_sub w (by decide +kernel))
  assumption

theorem Chip.swapMoves_moves {L : List Part} {b m : Chip} {e' : Nat} {store' : Bool} {load' : Bool} (h : Moves L b m)
    (w : within [.rMdl, .rFe, .rInt, .asleep, .accums, .mdl, .fe, .sys, .cyc] L = true) :
    Moves L b (Chip.swapMoves m e' store' load') := by
  unfold Chip.swapMoves
  extract_lets +onlyGivenNames x1
  clear_value x1
  extract_lets +onlyGivenNames x2
  clear_value x2
  extract_lets +onlyGivenNames x3
  have h4 : Moves L b x3 := by
    unfold x3
    refine Moves.ite ?_ ?_
    · assumption
    · refine Moves.ite ?_ ?_
      · refine Chip.feFlag_moves ?_ (within_sub w (by decide +kernel))
        assumption
      · refine Chip.feRxPush_moves ?_ (within_sub w (by decide +kernel))
        assumption
  clear_value x3
  extract_lets +onlyGivenNames x5
  clear_value x5
  extract_lets +onlyGivenNames x6
  clear_value x6
  extract_lets +onlyGivenNames x7
  have h8 : Moves L b x7 := by
    unfold x7
    refine Moves.ite ?_ ?_
    · assumption
    · split
      · assumption
      · refine Chip.feLow_moves ?_ (within_sub w (by decide +kernel))
        refine Chip.wr_moves ?_ (within_sub w (by decide +kernel))
        refine Chip.feLevels_moves ?_ (within_sub w (by decide +kernel))
        refine Chip.setEng_moves ?_ (within_sub w (by decide +kernel))
        assumption
  clear_value x7
  refine Moves.ite ?_ ?_
  · refine Chip.wr_moves ?_ (within_sub w (by decide +kernel))
    assumption
  · assumption

theorem Chip.feStall_moves {L : List Part} {b m : Chip} {e' : Nat} {w' : Nat} {cause' : Nat} (h : Moves L b m)
    (w : within [.rFe, .fe] L = true) :
    Moves L b (Chip.feStall m e' w' cause') := by
  unfold Chip.feStall
  extract_lets +onlyGivenNames x1
  have h2 : Moves L b x1 := by
    unfold x1
    refine Chip.wr_moves ?_ (within_sub w (by decide +kernel))
    refine Chip.wr_moves ?_ (within_sub w (by decide +kernel))
    assumption
  clear_value x1
  extract_lets +onlyGivenNames x3
  clear_value x3
  extract_lets +onlyGivenNames x4
  have h5 : Moves L b x4 := by
    unfold x4
    refine Chip.setEng_moves ?_ (within_sub w (by decide +kernel))
    assumption
  clear_value x4
  refine Chip.feSkip_moves ?_ (within_sub w (by decide +kernel))
  assumption

theorem Chip.jumpTest_moves {L : List Part} {b m : Chip} {e' : Nat} {t' : Nat} (h : Moves L b m)
    (w : within [.rFe] L = true) :
    Moves L b (Chip.jumpTest m e' t').2 := by
  unfold Chip.jumpTest
  extract_lets +onlyGivenNames x1
  clear_value x1
  extract_lets +onlyGivenNames x2
  clear_value x2
  refine Moves.pair ?_
  refine Moves.ite ?_ ?_
  · refine Chip.wr_moves ?_ (within_sub w (by decide +kernel))
    assumption
  · refine Moves.ite ?_ ?_
    · refine Chip.wr_moves ?_ (within_sub w (by decide +kernel))
      assumption
    · assumption

theorem Chip.groupPut_moves {L : List Part} {b m : Chip} {e' : Nat} {f' : Nat} {v' : Bool} (h : Moves L b m)
    (w : within [.rFio, .cyc] L = true) :
    Moves L b (Chip.groupPut m e' f' v') := by
  unfold Chip.groupPut
  refine Moves.ite ?_ ?_
  · refine Chip.groupLower_moves ?_ (within_sub w (by decide +kernel))
    assumption
  · refine Moves.ite ?_ ?_
    · assumption
    · refine Chip.wr_moves ?_ (within_sub w (by decide +kernel))
      assumption

theorem Chip.moveDst_moves {L : List Part} {b m : Chip} {e' : Nat} {c' : Nat} {v' : Nat} (h : Moves L b m)
    (w : within [.rFe, .fe] L = true) :
    Moves L b (Chip.moveDst m e' c' v').2 := by
  unfold Chip.moveDst
  split
  · refine Moves.pair ?_
    refine Chip.xferOut_moves ?_ (within_sub w (by decide +kernel))
    assumption
  · split
    · refine Moves.pair ?_
      refine Chip.wr_moves ?_ (within_sub w (by decide +kernel))
      assumption
    · split
      · refine Moves.pair ?_
        refine Chip.wr_moves ?_ (within_sub w (by decide +kernel))
        assumption
      · split
        · refine Moves.pair ?_
          refine Chip.wr_moves ?_ (within_sub w (by decide +kernel))
          refine Chip.wr_moves ?_ (within_sub w (by decide +kernel))
          assumption
        · split
          · refine Moves.pair ?_
            assumption
          · refine Moves.pair ?_
            refine Chip.xferOut_moves ?_ (within_sub w (by decide +kernel))
            assumption

theorem Chip.feResume_moves {L : List Part} {b m : Chip} {e' : Nat} (h : Moves L b m)
    (w : within [.rMdl, .rFe, .rInt, .asleep, .accums, .mdl, .fe, .sys, .cyc] L = true) :
    Moves L b (Chip.feResume m e') := by
  unfold Chip.feResume
  extract_lets +onlyGivenNames x1
  clear_value x1
  extract_lets +onlyGivenNames x2
  clear_value x2
  extract_lets +onlyGivenNames x3
  clear_value x3
  extract_lets +onlyGivenNames x4
  clear_value x4
  extract_lets +onlyGivenNames x5
  have h6 : Moves L b x5 := by
    unfold x5
    refine Moves.ite ?_ ?_
    · refine Chip.wr_moves ?_ (within_sub w (by decide +kernel))
      assumption
    · assumption
  clear_value x5
  extract_lets +onlyGivenNames x7
  clear_value x7
  extract_lets +onlyGivenNames x8
  have h9 : Moves L b x8 := by
    unfold x8
    refine Moves.ite ?_ ?_
    · refine Chip.swapMoves_moves ?_ (within_sub w (by decide +kernel))
      assumption
    · refine Moves.ite ?_ ?_
      · refine Chip.swapMoves_moves ?_ (within_sub w (by decide +kernel))
        assumption
      · assumption
  clear_value x8
  refine Moves.ite ?_ ?_
  · refine Chip.feSkip_moves ?_ (within_sub w (by decide +kernel))
    refine Chip.wr_moves ?_ (within_sub w (by decide +kernel))
    refine Chip.wr_moves ?_ (within_sub w (by decide +kernel))
    refine Chip.setEng_moves ?_ (within_sub w (by decide +kernel))
    assumption
  · refine Chip.feDone_moves ?_ (within_sub w (by decide +kernel))
    assumption

end Sys2Proof.Machine
end

