-- ==== Sys2Proof/Laws/MovesFiligree.lean ====
section
/-! SUPPORT. Each operation of Machine/Filigree.lean moves the block within the parts it names. -/

-- Theorem by theorem: many at once each take a thread's stack, and the package as one text ran out of them.
set_option Elab.async false

namespace Sys2Proof.Machine

theorem Chip.feTx_moves {L : List Part} {b m : Chip} {e' : Nat} {w' : Nat} (h : Moves L b m)
    (w : within [.rFe, .rInt, .asleep, .accums, .fe, .sys, .cyc] L = true) :
    Moves L b (Chip.feTx m e' w') := by
  unfold Chip.feTx
  extract_lets +onlyGivenNames x1
  clear_value x1
  refine Moves.ite ?_ ?_
  · refine Chip.feFlag_moves ?_ (within_sub w (by decide +kernel))
    assumption
  · refine Chip.feTxPush_moves ?_ (within_sub w (by decide +kernel))
    refine Chip.setCycle_moves ?_ (within_sub w (by decide +kernel))
    assumption

theorem Chip.feProg_moves {L : List Part} {b m : Chip} {e' : Nat} {i' : Nat} {w' : Nat} (h : Moves L b m)
    (w : within [.rFe, .fe] L = true) :
    Moves L b (Chip.feProg m e' i' w') := by
  unfold Chip.feProg
  extract_lets +onlyGivenNames x1
  have h2 : Moves L b x1 := by
    unfold x1
    refine Chip.wr_moves ?_ (within_sub w (by decide +kernel))
    assumption
  clear_value x1
  extract_lets +onlyGivenNames x3
  clear_value x3
  refine Moves.ite ?_ ?_
  · refine Chip.setEng_moves ?_ (within_sub w (by decide +kernel))
    assumption
  · assumption

theorem Chip.feRx_moves {L : List Part} {b m : Chip} {e' : Nat} (h : Moves L b m)
    (w : within [.rFe, .rdata, .fe] L = true) :
    Moves L b (Chip.feRx m e') := by
  unfold Chip.feRx
  refine Moves.ite ?_ ?_
  · split
    · refine Moves.rdata ?_ (within_sub w (by decide +kernel))
      assumption
    · extract_lets +onlyGivenNames x1
      clear_value x1
      extract_lets +onlyGivenNames x2
      have h3 : Moves L b x2 := by
        unfold x2
        refine Chip.feLevels_moves ?_ (within_sub w (by decide +kernel))
        refine Chip.setEng_moves ?_ (within_sub w (by decide +kernel))
        assumption
      clear_value x2
      refine Moves.rdata ?_ (within_sub w (by decide +kernel))
      assumption
  · refine Moves.rdata ?_ (within_sub w (by decide +kernel))
    assumption

theorem Chip.feBad_moves {L : List Part} {b m : Chip} {e' : Nat} (h : Moves L b m)
    (w : within [.rFe, .rInt, .asleep, .accums, .fe, .sys, .cyc] L = true) :
    Moves L b (Chip.feBad m e') := by
  unfold Chip.feBad
  refine Moves.ite ?_ ?_
  · refine Chip.feSkip_moves ?_ (within_sub w (by decide +kernel))
    refine Chip.wr_moves ?_ (within_sub w (by decide +kernel))
    refine Chip.feFlag_moves ?_ (within_sub w (by decide +kernel))
    assumption
  · assumption

theorem Chip.feXfer_moves {L : List Part} {b m : Chip} {e' : Nat} {pins' : BitVec 64} (h : Moves L b m)
    (w : within [.rMdl, .rFe, .rInt, .asleep, .accums, .mdl, .fe, .fio, .sys, .cyc] L = true) :
    Moves L b (Chip.feXfer m e' pins') := by
  unfold Chip.feXfer
  refine Chip.feIssue_moves ?_ (within_sub w (by decide +kernel)) fun k1 y2 h3 => ?_
  · refine Chip.sample_moves ?_ (within_sub w (by decide +kernel))
    assumption
  · extract_lets +onlyGivenNames x4
    have h5 : Moves L b x4 := by
      unfold x4
      refine Chip.xferMove_moves ?_ (within_sub w (by decide +kernel))
      assumption
    clear_value x4
    extract_lets +onlyGivenNames x6
    clear_value x6
    extract_lets +onlyGivenNames x7
    clear_value x7
    refine Moves.ite ?_ ?_
    · refine Moves.ite ?_ ?_
      · refine Chip.feDone_moves ?_ (within_sub w (by decide +kernel))
        refine Chip.swapMoves_moves ?_ (within_sub w (by decide +kernel))
        assumption
      · refine Chip.feStall_moves ?_ (within_sub w (by decide +kernel))
        assumption
    · refine Chip.feDone_moves ?_ (within_sub w (by decide +kernel))
      assumption

theorem Chip.feSwap_moves {L : List Part} {b m : Chip} {e' : Nat} (h : Moves L b m)
    (w : within [.rMdl, .rFe, .rInt, .asleep, .accums, .mdl, .fe, .sys, .cyc] L = true) :
    Moves L b (Chip.feSwap m e') := by
  unfold Chip.feSwap
  refine Chip.feIssue_moves ?_ (within_sub w (by decide +kernel)) fun k1 y2 h3 => ?_
  · assumption
  · extract_lets +onlyGivenNames x4
    clear_value x4
    extract_lets +onlyGivenNames x5
    clear_value x5
    extract_lets +onlyGivenNames x6
    clear_value x6
    refine Moves.ite ?_ ?_
    · refine Chip.feStall_moves ?_ (within_sub w (by decide +kernel))
      assumption
    · refine Chip.feDone_moves ?_ (within_sub w (by decide +kernel))
      refine Chip.swapMoves_moves ?_ (within_sub w (by decide +kernel))
      assumption

theorem Chip.feAddk_moves {L : List Part} {b m : Chip} {e' : Nat} (h : Moves L b m)
    (w : within [.rHp, .rMb, .rCh, .rTr, .rLat, .rDrv, .rAx, .rWhl, .rMdl, .rBk, .rBst, .rPwr, .rDg, .rDgb, .rCap, .rBcap, .rAdc, .rAs, .rCmp, .rSds, .rAin, .rFe, .rFio, .rTim, .rInt, .rSys, .rSup, .rProt, .rMap, .rNc, .fe] L = true) :
    Moves L b (Chip.feAddk m e') := by
  unfold Chip.feAddk
  refine Chip.feIssue_moves ?_ (within_sub w (by decide +kernel)) fun k1 y2 h3 => ?_
  · assumption
  · extract_lets +onlyGivenNames x4
    clear_value x4
    refine Chip.feDone_moves ?_ (within_sub w (by decide +kernel))
    refine Chip.wr_moves ?_ (within_field _ (within_sub w (by decide +kernel)))
    assumption

theorem Chip.feHeld_moves {L : List Part} {b m : Chip} {e' : Nat} (h : Moves L b m)
    (w : within [.fe] L = true) :
    Moves L b (Chip.feHeld m e') := by
  unfold Chip.feHeld
  extract_lets +onlyGivenNames x1
  clear_value x1
  extract_lets +onlyGivenNames x2
  clear_value x2
  refine Moves.ite ?_ ?_
  · refine Chip.setEng_moves ?_ (within_sub w (by decide +kernel))
    refine Chip.feSkip_moves ?_ (within_sub w (by decide +kernel))
    assumption
  · assumption

theorem Chip.feDrive_moves {L : List Part} {b m : Chip} {e' : Nat} (h : Moves L b m)
    (w : within [.rFe, .fe] L = true) :
    Moves L b (Chip.feDrive m e') := by
  unfold Chip.feDrive
  refine Chip.feIssue_moves ?_ (within_sub w (by decide +kernel)) fun k1 y2 h3 => ?_
  · assumption
  · extract_lets +onlyGivenNames x4
    clear_value x4
    extract_lets +onlyGivenNames x5
    clear_value x5
    extract_lets +onlyGivenNames x6
    clear_value x6
    extract_lets +onlyGivenNames x7
    have h8 : Moves L b x7 := by
      unfold x7
      refine Moves.ite ?_ ?_
      · refine Chip.setEng_moves ?_ (within_sub w (by decide +kernel))
        assumption
      · refine Chip.setEng_moves ?_ (within_sub w (by decide +kernel))
        assumption
    clear_value x7
    refine Chip.feDone_moves ?_ (within_sub w (by decide +kernel))
    assumption

theorem Chip.feMove_moves {L : List Part} {b m : Chip} {e' : Nat} {pins' : BitVec 64} (h : Moves L b m)
    (w : within [.rFe, .fe, .fio] L = true) :
    Moves L b (Chip.feMove m e' pins') := by
  unfold Chip.feMove
  refine Chip.feIssue_moves ?_ (within_sub w (by decide +kernel)) fun k1 y2 h3 => ?_
  · refine Chip.sample_moves ?_ (within_sub w (by decide +kernel))
    assumption
  · split
    · rename_i y4 y5 y6 q7
      have h8 : Moves L b ((y5 : Option Nat), y6).2 := by
        rw [← q7]
        refine Chip.moveDst_moves ?_ (within_sub w (by decide +kernel))
        assumption
      refine Chip.feDone_moves ?_ (within_sub w (by decide +kernel))
      assumption

theorem Chip.feLoadk_moves {L : List Part} {b m : Chip} {e : Nat} (h : Moves L b m) (w : within [.rFe, .fe] L = true) :
    Moves L b (m.feLoadk e) := by
  refine Chip.feIssue_moves h (within_sub w (by decide +kernel)) fun k y g => ?_
  refine Chip.feDone_moves (Chip.wr_moves g ?_) (within_sub w (by decide +kernel))
  split
  · exact within_sub w (by decide +kernel)
  · exact within_sub w (by decide +kernel)

theorem Chip.feWait_moves {L : List Part} {b m : Chip} {e' : Nat} {pins' : BitVec 64} (h : Moves L b m)
    (w : within [.rFe, .fe, .fio] L = true) :
    Moves L b (Chip.feWait m e' pins') := by
  unfold Chip.feWait
  refine Chip.feIssue_moves ?_ (within_sub w (by decide +kernel)) fun k1 y2 h3 => ?_
  · refine Chip.sample_moves ?_ (within_sub w (by decide +kernel))
    assumption
  · extract_lets +onlyGivenNames x4
    clear_value x4
    extract_lets +onlyGivenNames x5
    have h6 : Moves L b x5 := by
      unfold x5
      refine Moves.ite ?_ ?_
      · refine Chip.wr_moves ?_ (within_sub w (by decide +kernel))
        assumption
      · assumption
    clear_value x5
    refine Moves.ite ?_ ?_
    · refine Chip.feDone_moves ?_ (within_sub w (by decide +kernel))
      assumption
    · refine Chip.feStall_moves ?_ (within_sub w (by decide +kernel))
      assumption

theorem Chip.feTest_moves {L : List Part} {b m : Chip} {e' : Nat} {pins' : BitVec 64} (h : Moves L b m)
    (w : within [.rMdl, .rFe, .rInt, .asleep, .accums, .mdl, .fe, .fio, .sys, .cyc] L = true) :
    Moves L b (Chip.feTest m e' pins') := by
  unfold Chip.feTest
  extract_lets +onlyGivenNames x1
  have h2 : Moves L b x1 := by
    unfold x1
    refine Chip.sample_moves ?_ (within_sub w (by decide +kernel))
    assumption
  clear_value x1
  refine Moves.ite ?_ ?_
  · refine Chip.feResume_moves ?_ (within_sub w (by decide +kernel))
    assumption
  · assumption

theorem Chip.feGsig_moves {L : List Part} {b m : Chip} {e' : Nat} (h : Moves L b m)
    (w : within [.rFe, .rFio, .rInt, .asleep, .accums, .fe, .sys, .cyc] L = true) :
    Moves L b (Chip.feGsig m e') := by
  unfold Chip.feGsig
  refine Chip.feIssue_moves ?_ (within_sub w (by decide +kernel)) fun k1 y2 h3 => ?_
  · assumption
  · extract_lets +onlyGivenNames x4
    clear_value x4
    extract_lets +onlyGivenNames x5
    clear_value x5
    refine Moves.ite ?_ ?_
    · refine Chip.feDone_moves ?_ (within_sub w (by decide +kernel))
      refine Chip.groupPut_moves ?_ (within_sub w (by decide +kernel))
      assumption
    · refine Moves.ite ?_ ?_
      · refine Chip.feDone_moves ?_ (within_sub w (by decide +kernel))
        refine Chip.groupPut_moves ?_ (within_sub w (by decide +kernel))
        assumption
      · refine Moves.ite ?_ ?_
        · refine Chip.feStall_moves ?_ (within_sub w (by decide +kernel))
          refine Chip.groupPut_moves ?_ (within_sub w (by decide +kernel))
          assumption
        · refine Chip.feDone_moves ?_ (within_sub w (by decide +kernel))
          refine Chip.feFlag_moves ?_ (within_sub w (by decide +kernel))
          assumption

theorem Chip.feJump_moves {L : List Part} {b m : Chip} {e' : Nat} {pins' : BitVec 64} (h : Moves L b m)
    (w : within [.rFe, .fe, .fio] L = true) :
    Moves L b (Chip.feJump m e' pins') := by
  unfold Chip.feJump
  refine Chip.feIssue_moves ?_ (within_sub w (by decide +kernel)) fun k1 y2 h3 => ?_
  · refine Chip.sample_moves ?_ (within_sub w (by decide +kernel))
    assumption
  · split
    · rename_i y4 y5 y6 q7
      have h8 : Moves L b ((y5 : Bool), y6).2 := by
        rw [← q7]
        refine Chip.jumpTest_moves ?_ (within_sub w (by decide +kernel))
        assumption
      refine Chip.feDone_moves ?_ (within_sub w (by decide +kernel))
      assumption

theorem execFeStallClear_moves {L : List Part} {e' : Fe} {pins' : BitVec 64} {s t : State}
    (w : within [.rMdl, .rFe, .rInt, .asleep, .accums, .mdl, .fe, .fio, .sys, .cyc] L = true) (e : execFeStallClear e' pins' s = .next t) :
    Moves L s.chip t.chip := by
  unfold execFeStallClear at e
  refine upd_moves (fun m => ?_) e
  refine Chip.feTest_moves ?_ (within_sub w (by decide +kernel))
  exact .refl

theorem execIllegalInstruction_moves {L : List Part} {e' : Fe} {s t : State}
    (w : within [.rFe, .rInt, .asleep, .accums, .fe, .sys, .cyc] L = true) (e : execIllegalInstruction e' s = .next t) :
    Moves L s.chip t.chip := by
  unfold execIllegalInstruction at e
  refine upd_moves (fun m => ?_) e
  refine Chip.feBad_moves ?_ (within_sub w (by decide +kernel))
  exact .refl

theorem execXfer_moves {L : List Part} {e' : Fe} {pins' : BitVec 64} {s t : State}
    (w : within [.rMdl, .rFe, .rInt, .asleep, .accums, .mdl, .fe, .fio, .sys, .cyc] L = true) (e : execXfer e' pins' s = .next t) :
    Moves L s.chip t.chip := by
  unfold execXfer at e
  refine upd_moves (fun m => ?_) e
  refine Chip.feXfer_moves ?_ (within_sub w (by decide +kernel))
  exact .refl

theorem execFeSyncReset_moves {L : List Part} {who' : Writer} {s t : State}
    (w : within [.rFe, .fe, .cyc] L = true) (e : execFeSyncReset who' s = .next t) :
    Moves L s.chip t.chip := by
  unfold execFeSyncReset at e
  refine upd_moves (fun m => ?_) e
  refine Moves.ite ?_ ?_
  · refine Chip.feSync_moves ?_ (within_sub w (by decide +kernel))
    exact .refl
  · exact .refl

theorem execFeTxWrite_moves {L : List Part} {who' : Writer} {e' : Fe} {w' : Word} {s t : State}
    (w : within [.rFe, .rInt, .asleep, .accums, .fe, .sys, .cyc] L = true) (e : execFeTxWrite who' e' w' s = .next t) :
    Moves L s.chip t.chip := by
  unfold execFeTxWrite at e
  refine upd_moves (fun m => ?_) e
  refine Moves.ite ?_ ?_
  · refine Chip.feTx_moves ?_ (within_sub w (by decide +kernel))
    exact .refl
  · exact .refl

theorem execMove_moves {L : List Part} {e' : Fe} {pins' : BitVec 64} {s t : State}
    (w : within [.rFe, .fe, .fio] L = true) (e : execMove e' pins' s = .next t) :
    Moves L s.chip t.chip := by
  unfold execMove at e
  refine upd_moves (fun m => ?_) e
  refine Chip.feMove_moves ?_ (within_sub w (by decide +kernel))
  exact .refl

theorem execFeSyncPhase_moves {L : List Part} {who' : Writer} {s t : State}
    (w : within [.rFe, .fe, .cyc] L = true) (e : execFeSyncPhase who' s = .next t) :
    Moves L s.chip t.chip := by
  unfold execFeSyncPhase at e
  refine upd_moves (fun m => ?_) e
  refine Moves.ite ?_ ?_
  · refine Chip.feSync_moves ?_ (within_sub w (by decide +kernel))
    exact .refl
  · exact .refl

theorem execFeHoldEnd_moves {L : List Part} {e' : Fe} {s t : State}
    (w : within [.fe] L = true) (e : execFeHoldEnd e' s = .next t) :
    Moves L s.chip t.chip := by
  unfold execFeHoldEnd at e
  refine upd_moves (fun m => ?_) e
  refine Chip.feHeld_moves ?_ (within_sub w (by decide +kernel))
  exact .refl

theorem execFeProgWrite_moves {L : List Part} {who' : Writer} {e' : Fe} {i' : Fin 64} {w' : Word} {s t : State}
    (w : within [.rFe, .fe] L = true) (e : execFeProgWrite who' e' i' w' s = .next t) :
    Moves L s.chip t.chip := by
  unfold execFeProgWrite at e
  refine upd_moves (fun m => ?_) e
  refine Moves.ite ?_ ?_
  · refine Chip.feProg_moves ?_ (within_sub w (by decide +kernel))
    exact .refl
  · exact .refl

theorem execDrive_moves {L : List Part} {e' : Fe} {s t : State}
    (w : within [.rFe, .fe] L = true) (e : execDrive e' s = .next t) :
    Moves L s.chip t.chip := by
  unfold execDrive at e
  refine upd_moves (fun m => ?_) e
  refine Chip.feDrive_moves ?_ (within_sub w (by decide +kernel))
  exact .refl

theorem execLoadk_moves {L : List Part} {e' : Fe} {s t : State}
    (w : within [.rFe, .fe] L = true) (e : execLoadk e' s = .next t) :
    Moves L s.chip t.chip := by
  unfold execLoadk at e
  refine upd_moves (fun m => ?_) e
  refine Chip.feLoadk_moves ?_ (within_sub w (by decide +kernel))
  exact .refl

theorem execJump_moves {L : List Part} {e' : Fe} {pins' : BitVec 64} {s t : State}
    (w : within [.rFe, .fe, .fio] L = true) (e : execJump e' pins' s = .next t) :
    Moves L s.chip t.chip := by
  unfold execJump at e
  refine upd_moves (fun m => ?_) e
  refine Chip.feJump_moves ?_ (within_sub w (by decide +kernel))
  exact .refl

theorem execWaitfor_moves {L : List Part} {e' : Fe} {pins' : BitVec 64} {s t : State}
    (w : within [.rFe, .fe, .fio] L = true) (e : execWaitfor e' pins' s = .next t) :
    Moves L s.chip t.chip := by
  unfold execWaitfor at e
  refine upd_moves (fun m => ?_) e
  refine Chip.feWait_moves ?_ (within_sub w (by decide +kernel))
  exact .refl

theorem execGsig_moves {L : List Part} {e' : Fe} {s t : State}
    (w : within [.rFe, .rFio, .rInt, .asleep, .accums, .fe, .sys, .cyc] L = true) (e : execGsig e' s = .next t) :
    Moves L s.chip t.chip := by
  unfold execGsig at e
  refine upd_moves (fun m => ?_) e
  refine Chip.feGsig_moves ?_ (within_sub w (by decide +kernel))
  exact .refl

theorem execFeEnableWrite_moves {L : List Part} {who' : Writer} {e' : Fe} {en' : Bool} {s t : State}
    (w : within [.rFe, .fe] L = true) (e : execFeEnableWrite who' e' en' s = .next t) :
    Moves L s.chip t.chip := by
  unfold execFeEnableWrite at e
  refine upd_moves (fun m => ?_) e
  refine Moves.ite ?_ ?_
  · refine Chip.feCtl_moves ?_ (within_sub w (by decide +kernel))
    exact .refl
  · exact .refl

theorem execFeRxRead_moves {L : List Part} {e' : Fe} {s t : State}
    (w : within [.rFe, .rdata, .fe] L = true) (e : execFeRxRead e' s = .next t) :
    Moves L s.chip t.chip := by
  unfold execFeRxRead at e
  refine upd_moves (fun m => ?_) e
  refine Chip.feRx_moves ?_ (within_sub w (by decide +kernel))
  exact .refl

theorem execFeSyncHalt_moves {L : List Part} {who' : Writer} {s t : State}
    (w : within [.rFe, .fe, .cyc] L = true) (e : execFeSyncHalt who' s = .next t) :
    Moves L s.chip t.chip := by
  unfold execFeSyncHalt at e
  refine upd_moves (fun m => ?_) e
  refine Moves.ite ?_ ?_
  · refine Chip.feSync_moves ?_ (within_sub w (by decide +kernel))
    exact .refl
  · exact .refl

theorem execSwap_moves {L : List Part} {e' : Fe} {s t : State}
    (w : within [.rMdl, .rFe, .rInt, .asleep, .accums, .mdl, .fe, .sys, .cyc] L = true) (e : execSwap e' s = .next t) :
    Moves L s.chip t.chip := by
  unfold execSwap at e
  refine upd_moves (fun m => ?_) e
  refine Chip.feSwap_moves ?_ (within_sub w (by decide +kernel))
  exact .refl

theorem execFeSyncRun_moves {L : List Part} {who' : Writer} {s t : State}
    (w : within [.rFe, .fe, .cyc] L = true) (e : execFeSyncRun who' s = .next t) :
    Moves L s.chip t.chip := by
  unfold execFeSyncRun at e
  refine upd_moves (fun m => ?_) e
  refine Moves.ite ?_ ?_
  · refine Chip.feSync_moves ?_ (within_sub w (by decide +kernel))
    exact .refl
  · exact .refl

theorem execAddk_moves {L : List Part} {e' : Fe} {s t : State}
    (w : within [.rHp, .rMb, .rCh, .rTr, .rLat, .rDrv, .rAx, .rWhl, .rMdl, .rBk, .rBst, .rPwr, .rDg, .rDgb, .rCap, .rBcap, .rAdc, .rAs, .rCmp, .rSds, .rAin, .rFe, .rFio, .rTim, .rInt, .rSys, .rSup, .rProt, .rMap, .rNc, .fe] L = true) (e : execAddk e' s = .next t) :
    Moves L s.chip t.chip := by
  unfold execAddk at e
  refine upd_moves (fun m => ?_) e
  refine Chip.feAddk_moves ?_ (within_sub w (by decide +kernel))
  exact .refl

end Sys2Proof.Machine
end

