-- ==== Sys2Proof/Laws/MovesSys.lean ====
section
/-! SUPPORT. Each operation of Machine/Sys.lean moves the block within the parts it names. -/

-- Theorem by theorem: many at once each take a thread's stack, and the package as one text ran out of them.
set_option Elab.async false

namespace Sys2Proof.Machine

theorem Chip.wakeReq_moves {L : List Part} {b m : Chip} {who' : Writer} (h : Moves L b m)
    (w : within [.asleep, .sys] L = true) :
    Moves L b (Chip.wakeReq m who') := by
  unfold Chip.wakeReq
  split
  · assumption
  · refine Moves.ite ?_ ?_
    · refine Chip.awake_moves ?_ (within_sub w (by decide +kernel))
      assumption
    · assumption

theorem Chip.markOf_moves {L : List Part} {b m : Chip} {pps' : Bool} (h : Moves L b m)
    (w : within [.rSys, .sys] L = true) :
    Moves L b (Chip.markOf m pps') := by
  unfold Chip.markOf
  refine Moves.ite ?_ ?_
  · refine Chip.trimMark_moves ?_ (within_sub w (by decide +kernel))
    assumption
  · refine Moves.ite ?_ ?_
    · refine Chip.trimMark_moves ?_ (within_sub w (by decide +kernel))
      assumption
    · assumption

theorem Chip.clusterRetry_moves {L : List Part} {b m : Chip} {c' : Nat} (h : Moves L b m)
    (w : within [.rHp, .rMb, .rCh, .rTr, .rLat, .rDrv, .rAx, .rWhl, .rMdl, .rBk, .rBst, .rPwr, .rDg, .rDgb, .rCap, .rBcap, .rAdc, .rAs, .rCmp, .rSds, .rAin, .rFe, .rFio, .rTim, .rInt, .rSys, .rSup, .rProt, .rMap, .rNc, .tb, .mem, .isl, .stamps, .frees, .rdata, .asleep, .accums, .holdEnd, .coreV, .coreC, .whl, .mdl, .axes, .pool, .poolLast, .orderNo, .chans, .banks, .boost, .capReq, .capTb, .copies, .wear, .bcap, .jour, .recs, .fe, .fio, .tim, .adc, .assay, .cmp, .sds, .map, .saved, .nand, .mbox, .port, .gelow, .sys, .sup, .link, .refetch, .cyc] L = true) :
    Moves L b (Chip.clusterRetry m c') := by
  unfold Chip.clusterRetry
  extract_lets +onlyGivenNames x1
  clear_value x1
  split
  · assumption
  · refine Moves.ite ?_ ?_
    · refine Chip.islandReset_moves ?_ (within_sub w (by decide +kernel))
      refine Chip.setIsland_moves ?_ (within_sub w (by decide +kernel))
      assumption
    · assumption

theorem Chip.wdtC_moves {L : List Part} {b m : Chip} (h : Moves L b m)
    (w : within [.rInt, .mem, .coreV, .coreC, .sys] L = true) :
    Moves L b (Chip.wdtC m) := by
  unfold Chip.wdtC
  refine Moves.ite ?_ ?_
  · refine Chip.cRestart_moves ?_ (within_sub w (by decide +kernel))
    assumption
  · assumption

theorem Chip.restartC_moves {L : List Part} {b m : Chip} (h : Moves L b m)
    (w : within [.rInt, .mem, .coreV, .coreC, .sys] L = true) :
    Moves L b (Chip.restartC m) := by
  unfold Chip.restartC
  extract_lets +onlyGivenNames x1
  clear_value x1
  refine Moves.ite ?_ ?_
  · assumption
  · refine Moves.ite ?_ ?_
    · refine Chip.startC_moves ?_ (within_sub w (by decide +kernel))
      refine Chip.cRestart_moves ?_ (within_sub w (by decide +kernel))
      assumption
    · refine Moves.ite ?_ ?_
      · refine Chip.startC_moves ?_ (within_sub w (by decide +kernel))
        assumption
      · assumption

theorem Chip.wdtV_moves {L : List Part} {b m : Chip} (h : Moves L b m)
    (w : within [.rHp, .rMb, .rCh, .rTr, .rLat, .rDrv, .rAx, .rWhl, .rMdl, .rBk, .rBst, .rPwr, .rDg, .rDgb, .rCap, .rBcap, .rAdc, .rAs, .rCmp, .rSds, .rAin, .rFe, .rFio, .rTim, .rInt, .rSys, .rSup, .rProt, .rMap, .rNc, .tb, .mem, .isl, .stamps, .frees, .rdata, .asleep, .accums, .holdEnd, .coreV, .coreC, .whl, .mdl, .axes, .pool, .poolLast, .orderNo, .chans, .banks, .boost, .capReq, .capTb, .copies, .wear, .bcap, .jour, .recs, .fe, .fio, .tim, .adc, .assay, .cmp, .sds, .map, .saved, .nand, .mbox, .port, .gelow, .sys, .sup, .link, .refetch, .cyc] L = true) :
    Moves L b (Chip.wdtV m) := by
  unfold Chip.wdtV
  refine Moves.ite ?_ ?_
  · refine Chip.vRestart_moves ?_ (within_sub w (by decide +kernel))
    assumption
  · assumption

theorem execModuleReset_moves {L : List Part} {cause' : ResetCause} {s t : State}
    (w : within [.rHp, .rMb, .rCh, .rTr, .rLat, .rDrv, .rAx, .rWhl, .rMdl, .rBk, .rBst, .rPwr, .rDg, .rDgb, .rCap, .rBcap, .rAdc, .rAs, .rCmp, .rSds, .rAin, .rFe, .rFio, .rTim, .rInt, .rSys, .rSup, .rProt, .rMap, .rNc, .tb, .mem, .isl, .stamps, .frees, .rdata, .asleep, .accums, .holdEnd, .coreV, .coreC, .whl, .mdl, .axes, .pool, .poolLast, .orderNo, .chans, .banks, .boost, .capReq, .capTb, .copies, .wear, .bcap, .jour, .recs, .fe, .fio, .tim, .adc, .assay, .cmp, .sds, .map, .saved, .nand, .mbox, .port, .gelow, .sys, .sup, .link, .refetch, .cyc] L = true) (e : execModuleReset cause' s = .next t) :
    Moves L s.chip t.chip := by
  unfold execModuleReset at e
  refine upd_moves (fun m => ?_) e
  refine Moves.ite ?_ ?_
  · refine Chip.moduleReset_moves ?_ (within_sub w (by decide +kernel))
    exact .refl
  · exact .refl

theorem execIslandResetRelease_moves {L : List Part} {i' : Isl} {s t : State}
    (w : within [.rHp, .rInt, .rSys, .isl, .accums, .gelow, .cyc] L = true) (e : execIslandResetRelease i' s = .next t) :
    Moves L s.chip t.chip := by
  unfold execIslandResetRelease at e
  refine upd_moves (fun m => ?_) e
  refine Chip.islandRelease_moves ?_ (within_sub w (by decide +kernel))
  exact .refl

theorem execKeyProgGo_moves {L : List Part} {who' : Writer} {slot' : Fin 4} {s t : State}
    (w : within [.rProt, .sys] L = true) (e : execKeyProgGo who' slot' s = .next t) :
    Moves L s.chip t.chip := by
  unfold execKeyProgGo at e
  refine upd_moves (fun m => ?_) e
  refine Moves.ite ?_ ?_
  · refine Chip.keyProg_moves ?_ (within_sub w (by decide +kernel))
    exact .refl
  · exact .refl

theorem execKeyProgRevoke_moves {L : List Part} {who' : Writer} {slot' : Fin 4} {s t : State}
    (w : within [.rProt, .sys] L = true) (e : execKeyProgRevoke who' slot' s = .next t) :
    Moves L s.chip t.chip := by
  unfold execKeyProgRevoke at e
  refine upd_moves (fun m => ?_) e
  refine Moves.ite ?_ ?_
  · refine Chip.keyProg_moves ?_ (within_sub w (by decide +kernel))
    exact .refl
  · exact .refl

theorem execSleepRequest_moves {L : List Part} {who' : Writer} {s t : State}
    (w : within [.sys] L = true) (e : execSleepRequest who' s = .next t) :
    Moves L s.chip t.chip := by
  unfold execSleepRequest at e
  refine upd_moves (fun m => ?_) e
  extract_lets +onlyGivenNames x1
  clear_value x1
  refine Moves.ite ?_ ?_
  · refine Moves.sys ?_ (within_sub w (by decide +kernel))
    exact .refl
  · exact .refl

theorem execIslandClockReturn_moves {L : List Part} {i' : Isl} {s t : State}
    (w : within [.rSys, .isl] L = true) (e : execIslandClockReturn i' s = .next t) :
    Moves L s.chip t.chip := by
  unfold execIslandClockReturn at e
  refine upd_moves (fun m => ?_) e
  refine Chip.clockReturn_moves ?_ (within_sub w (by decide +kernel))
  exact .refl

theorem execGelowStart_moves {L : List Part} {s t : State}
    (w : within [.rHp, .rInt, .rSys, .mem, .asleep, .accums, .coreV, .coreC, .jour, .recs, .gelow, .sys, .cyc] L = true) (e : execGelowStart s = .next t) :
    Moves L s.chip t.chip := by
  unfold execGelowStart at e
  refine upd_moves (fun m => ?_) e
  refine Chip.gelowStart_moves ?_ (within_sub w (by decide +kernel))
  exact .refl

theorem execClockSwitchStart_moves {L : List Part} {who' : Writer} {i' : Isl} {sel' : BitVec 2} {s t : State}
    (w : within [.rSys, .isl] L = true) (e : execClockSwitchStart who' i' sel' s = .next t) :
    Moves L s.chip t.chip := by
  unfold execClockSwitchStart at e
  refine upd_moves (fun m => ?_) e
  refine Moves.ite ?_ ?_
  · refine Chip.switchStart_moves ?_ (within_sub w (by decide +kernel))
    exact .refl
  · exact .refl

theorem execClockSwitchTimeout_moves {L : List Part} {i' : Isl} {s t : State}
    (w : within [.rCh, .rTr, .rDrv, .rBk, .rBst, .rDg, .rDgb, .rCap, .rInt, .rSys, .rMap, .isl, .frees, .asleep, .accums, .pool, .poolLast, .chans, .banks, .boost, .bcap, .jour, .sys, .cyc] L = true) (e : execClockSwitchTimeout i' s = .next t) :
    Moves L s.chip t.chip := by
  unfold execClockSwitchTimeout at e
  refine upd_moves (fun m => ?_) e
  refine Chip.switchTimeout_moves ?_ (within_sub w (by decide +kernel))
  exact .refl

theorem execTrimMark_moves {L : List Part} {pps' : Bool} {s t : State}
    (w : within [.rSys, .sys] L = true) (e : execTrimMark pps' s = .next t) :
    Moves L s.chip t.chip := by
  unfold execTrimMark at e
  refine upd_moves (fun m => ?_) e
  refine Chip.markOf_moves ?_ (within_sub w (by decide +kernel))
  exact .refl

theorem execProtSeal_moves {L : List Part} {who' : Writer} {s t : State}
    (w : within [.rSys, .rProt, .cyc] L = true) (e : execProtSeal who' s = .next t) :
    Moves L s.chip t.chip := by
  unfold execProtSeal at e
  refine upd_moves (fun m => ?_) e
  refine Moves.ite ?_ ?_
  · refine Chip.seal_moves ?_ (within_sub w (by decide +kernel))
    exact .refl
  · exact .refl

theorem execWdtCExpire_moves {L : List Part} {s t : State}
    (w : within [.rInt, .mem, .coreV, .coreC, .sys] L = true) (e : execWdtCExpire s = .next t) :
    Moves L s.chip t.chip := by
  unfold execWdtCExpire at e
  refine upd_moves (fun m => ?_) e
  refine Chip.wdtC_moves ?_ (within_sub w (by decide +kernel))
  exact .refl

theorem execWakeRequest_moves {L : List Part} {who' : Writer} {s t : State}
    (w : within [.asleep, .sys] L = true) (e : execWakeRequest who' s = .next t) :
    Moves L s.chip t.chip := by
  unfold execWakeRequest at e
  refine upd_moves (fun m => ?_) e
  refine Chip.wakeReq_moves ?_ (within_sub w (by decide +kernel))
  exact .refl

theorem execAnvilCRestart_moves {L : List Part} {s t : State}
    (w : within [.rInt, .mem, .coreV, .coreC, .sys] L = true) (e : execAnvilCRestart s = .next t) :
    Moves L s.chip t.chip := by
  unfold execAnvilCRestart at e
  refine upd_moves (fun m => ?_) e
  refine Chip.restartC_moves ?_ (within_sub w (by decide +kernel))
  exact .refl

theorem execXtalLoss_moves {L : List Part} {cycles' : Nat} {s t : State}
    (w : within [.rSys, .sys] L = true) (e : execXtalLoss cycles' s = .next t) :
    Moves L s.chip t.chip := by
  unfold execXtalLoss at e
  refine upd_moves (fun m => ?_) e
  refine Chip.xtalEval_moves ?_ (within_sub w (by decide +kernel))
  exact .refl

theorem execClockStop_moves {L : List Part} {i' : Isl} {s t : State}
    (w : within [.rCh, .rTr, .rDrv, .rBk, .rBst, .rDg, .rDgb, .rCap, .rInt, .rSys, .rMap, .isl, .frees, .asleep, .accums, .pool, .poolLast, .chans, .banks, .boost, .bcap, .jour, .sys, .cyc] L = true) (e : execClockStop i' s = .next t) :
    Moves L s.chip t.chip := by
  unfold execClockStop at e
  refine upd_moves (fun m => ?_) e
  refine Chip.clockStop_moves ?_ (within_sub w (by decide +kernel))
  exact .refl

theorem execClockSwitchDone_moves {L : List Part} {i' : Isl} {s t : State}
    (w : within [.rSys, .isl] L = true) (e : execClockSwitchDone i' s = .next t) :
    Moves L s.chip t.chip := by
  unfold execClockSwitchDone at e
  refine upd_moves (fun m => ?_) e
  refine Chip.switchDone_moves ?_ (within_sub w (by decide +kernel))
  exact .refl

theorem execBootRcvGo_moves {L : List Part} {p' : Port} {w' : Word} {s t : State}
    (w : within [.rSys, .mem, .coreV] L = true) (e : execBootRcvGo p' w' s = .next t) :
    Moves L s.chip t.chip := by
  unfold execBootRcvGo at e
  refine upd_moves (fun m => ?_) e
  extract_lets +onlyGivenNames x1
  clear_value x1
  refine Moves.ite ?_ ?_
  · refine Chip.bootRcv_moves ?_ (within_sub w (by decide +kernel))
    exact .refl
  · exact .refl

theorem execBootRom_moves {L : List Part} {p' : BootPins} {s t : State}
    (w : within [.rSys, .mem, .isl, .coreV, .sys] L = true) (e : execBootRom p' s = .next t) :
    Moves L s.chip t.chip := by
  unfold execBootRom at e
  refine upd_moves (fun m => ?_) e
  refine Chip.rom_moves ?_ (within_sub w (by decide +kernel))
  exact .refl

theorem execXtalRestore_moves {L : List Part} {s t : State}
    (w : within [.rSys] L = true) (e : execXtalRestore s = .next t) :
    Moves L s.chip t.chip := by
  unfold execXtalRestore at e
  refine upd_moves (fun m => ?_) e
  refine Chip.xtalBack_moves ?_ (within_sub w (by decide +kernel))
  exact .refl

theorem execWdtVExpire_moves {L : List Part} {s t : State}
    (w : within [.rHp, .rMb, .rCh, .rTr, .rLat, .rDrv, .rAx, .rWhl, .rMdl, .rBk, .rBst, .rPwr, .rDg, .rDgb, .rCap, .rBcap, .rAdc, .rAs, .rCmp, .rSds, .rAin, .rFe, .rFio, .rTim, .rInt, .rSys, .rSup, .rProt, .rMap, .rNc, .tb, .mem, .isl, .stamps, .frees, .rdata, .asleep, .accums, .holdEnd, .coreV, .coreC, .whl, .mdl, .axes, .pool, .poolLast, .orderNo, .chans, .banks, .boost, .capReq, .capTb, .copies, .wear, .bcap, .jour, .recs, .fe, .fio, .tim, .adc, .assay, .cmp, .sds, .map, .saved, .nand, .mbox, .port, .gelow, .sys, .sup, .link, .refetch, .cyc] L = true) (e : execWdtVExpire s = .next t) :
    Moves L s.chip t.chip := by
  unfold execWdtVExpire at e
  refine upd_moves (fun m => ?_) e
  refine Chip.wdtV_moves ?_ (within_sub w (by decide +kernel))
  exact .refl

theorem execClockAutoRecover_moves {L : List Part} {i' : Isl} {s t : State}
    (w : within [.rHp, .rMb, .rCh, .rTr, .rLat, .rDrv, .rAx, .rWhl, .rMdl, .rBk, .rBst, .rPwr, .rDg, .rDgb, .rCap, .rBcap, .rAdc, .rAs, .rCmp, .rSds, .rAin, .rFe, .rFio, .rTim, .rInt, .rSys, .rSup, .rProt, .rMap, .rNc, .tb, .mem, .isl, .stamps, .frees, .rdata, .asleep, .accums, .holdEnd, .coreV, .coreC, .whl, .mdl, .axes, .pool, .poolLast, .orderNo, .chans, .banks, .boost, .capReq, .capTb, .copies, .wear, .bcap, .jour, .recs, .fe, .fio, .tim, .adc, .assay, .cmp, .sds, .map, .saved, .nand, .mbox, .port, .gelow, .sys, .sup, .link, .refetch, .cyc] L = true) (e : execClockAutoRecover i' s = .next t) :
    Moves L s.chip t.chip := by
  unfold execClockAutoRecover at e
  refine upd_moves (fun m => ?_) e
  refine Chip.autoRecover_moves ?_ (within_sub w (by decide +kernel))
  exact .refl

theorem execIslandReset_moves {L : List Part} {who' : Writer} {i' : Isl} {s t : State}
    (w : within [.rHp, .rMb, .rCh, .rTr, .rLat, .rDrv, .rAx, .rWhl, .rMdl, .rBk, .rBst, .rPwr, .rDg, .rDgb, .rCap, .rBcap, .rAdc, .rAs, .rCmp, .rSds, .rAin, .rFe, .rFio, .rTim, .rInt, .rSys, .rSup, .rProt, .rMap, .rNc, .tb, .mem, .isl, .stamps, .frees, .rdata, .asleep, .accums, .holdEnd, .coreV, .coreC, .whl, .mdl, .axes, .pool, .poolLast, .orderNo, .chans, .banks, .boost, .capReq, .capTb, .copies, .wear, .bcap, .jour, .recs, .fe, .fio, .tim, .adc, .assay, .cmp, .sds, .map, .saved, .nand, .mbox, .port, .gelow, .sys, .sup, .link, .refetch, .cyc] L = true) (e : execIslandReset who' i' s = .next t) :
    Moves L s.chip t.chip := by
  unfold execIslandReset at e
  refine upd_moves (fun m => ?_) e
  refine Moves.ite ?_ ?_
  · refine Chip.islandReset_moves ?_ (within_sub w (by decide +kernel))
    exact .refl
  · exact .refl

theorem execClusterRetry_moves {L : List Part} {c' : Cl} {s t : State}
    (w : within [.rHp, .rMb, .rCh, .rTr, .rLat, .rDrv, .rAx, .rWhl, .rMdl, .rBk, .rBst, .rPwr, .rDg, .rDgb, .rCap, .rBcap, .rAdc, .rAs, .rCmp, .rSds, .rAin, .rFe, .rFio, .rTim, .rInt, .rSys, .rSup, .rProt, .rMap, .rNc, .tb, .mem, .isl, .stamps, .frees, .rdata, .asleep, .accums, .holdEnd, .coreV, .coreC, .whl, .mdl, .axes, .pool, .poolLast, .orderNo, .chans, .banks, .boost, .capReq, .capTb, .copies, .wear, .bcap, .jour, .recs, .fe, .fio, .tim, .adc, .assay, .cmp, .sds, .map, .saved, .nand, .mbox, .port, .gelow, .sys, .sup, .link, .refetch, .cyc] L = true) (e : execClusterRetry c' s = .next t) :
    Moves L s.chip t.chip := by
  unfold execClusterRetry at e
  refine upd_moves (fun m => ?_) e
  refine Chip.clusterRetry_moves ?_ (within_sub w (by decide +kernel))
  exact .refl

theorem execKeyProgDone_moves {L : List Part} {s t : State}
    (w : within [.rProt, .sys] L = true) (e : execKeyProgDone s = .next t) :
    Moves L s.chip t.chip := by
  unfold execKeyProgDone at e
  refine upd_moves (fun m => ?_) e
  refine Chip.keyDone_moves ?_ (within_sub w (by decide +kernel))
  exact .refl

theorem execTrimHoldTimeout_moves {L : List Part} {s t : State}
    (w : within [.rSys, .sys] L = true) (e : execTrimHoldTimeout s = .next t) :
    Moves L s.chip t.chip := by
  unfold execTrimHoldTimeout at e
  refine upd_moves (fun m => ?_) e
  refine Chip.trimHold_moves ?_ (within_sub w (by decide +kernel))
  exact .refl

end Sys2Proof.Machine
end

