-- ==== Sys2Proof/Laws/MovesIntr.lean ====
section
/-! SUPPORT. Each operation of Machine/Intr.lean moves the block within the parts it names. -/

-- Theorem by theorem: many at once each take a thread's stack, and the package as one text ran out of them.
set_option Elab.async false

namespace Sys2Proof.Machine

theorem execHandlerMret_moves {L : List Part} {core' : Core} {s t : State}
    (w : within [.rInt, .holdEnd, .coreV, .coreC, .cyc] L = true) (e : execHandlerMret core' s = .next t) :
    Moves L s.chip t.chip := by
  unfold execHandlerMret at e
  refine upd_moves (fun m => ?_) e
  refine Chip.intReturn_moves ?_ (within_sub w (by decide +kernel))
  exact .refl

theorem execHoldoffExpire_moves {L : List Part} {g' : Grp} {s t : State}
    (w : within [.rInt] L = true) (e : execHoldoffExpire g' s = .next t) :
    Moves L s.chip t.chip := by
  unfold execHoldoffExpire at e
  refine upd_moves (fun m => ?_) e
  refine Chip.holdExpire_moves ?_ (within_sub w (by decide +kernel))
  exact .refl

theorem execInterruptEntry_moves {L : List Part} {core' : Core} {arrivals' : List (Fin 6 × Src)} {s t : State}
    (w : within [.rInt, .holdEnd, .coreV, .coreC, .cyc] L = true) (e : execInterruptEntry core' arrivals' s = .next t) :
    Moves L s.chip t.chip := by
  unfold execInterruptEntry at e
  refine upd_moves (fun m => ?_) e
  refine Chip.intEntry_moves ?_ (within_sub w (by decide +kernel))
  exact .refl

theorem execIntClrpend_moves {L : List Part} {who' : Writer} {w' : Word} {s t : State}
    (w : within [.rInt, .accums, .cyc] L = true) (e : execIntClrpend who' w' s = .next t) :
    Moves L s.chip t.chip := by
  unfold execIntClrpend at e
  refine upd_moves (fun m => ?_) e
  refine Moves.ite ?_ ?_
  · refine Chip.clrPend_moves ?_ (within_sub w (by decide +kernel))
    exact .refl
  · exact .refl

theorem execWakeSource_moves {L : List Part} {n' : Src} {s t : State}
    (w : within [.rInt, .asleep, .accums, .sys, .cyc] L = true) (e : execWakeSource n' s = .next t) :
    Moves L s.chip t.chip := by
  unfold execWakeSource at e
  refine upd_moves (fun m => ?_) e
  refine Moves.ite ?_ ?_
  · refine Chip.occur_moves ?_ (within_sub w (by decide +kernel))
    exact .refl
  · exact .refl

theorem execIntSwset_moves {L : List Part} {who' : Writer} {n' : Src} {s t : State}
    (w : within [.rInt, .asleep, .accums, .sys, .cyc] L = true) (e : execIntSwset who' n' s = .next t) :
    Moves L s.chip t.chip := by
  unfold execIntSwset at e
  refine upd_moves (fun m => ?_) e
  refine Moves.ite ?_ ?_
  · refine Chip.occur_moves ?_ (within_sub w (by decide +kernel))
    exact .refl
  · exact .refl

theorem execQueueRecordWrite_moves {L : List Part} {p' : Port} {s t : State}
    (w : within [.rHp, .rInt, .mem, .stamps, .accums, .holdEnd, .cyc] L = true) (e : execQueueRecordWrite p' s = .next t) :
    Moves L s.chip t.chip := by
  unfold execQueueRecordWrite at e
  refine upd_moves (fun m => ?_) e
  refine Moves.ite ?_ ?_
  · refine Chip.queueWrite_moves ?_ (within_sub w (by decide +kernel))
    exact .refl
  · exact .refl

end Sys2Proof.Machine
end

