-- ==== Sys2Proof/Laws/MovesLattice.lean ====
section
/-! SUPPORT. Each operation of Machine/Lattice.lean moves the block within the parts it names. -/

-- Theorem by theorem: many at once each take a thread's stack, and the package as one text ran out of them.
set_option Elab.async false

namespace Sys2Proof.Machine

theorem Chip.latDisable_moves {L : List Part} {b m : Chip} {ch' : Nat} (h : Moves L b m)
    (w : within [.rCh, .rLat, .rDrv, .rBk, .rBst, .rDg, .rDgb, .rCap, .rInt, .rMap, .frees, .asleep, .accums, .chans, .banks, .boost, .bcap, .sys, .cyc] L = true) :
    Moves L b (Chip.latDisable m ch') := by
  unfold Chip.latDisable
  extract_lets +onlyGivenNames x1
  have h2 : Moves L b x1 := by
    unfold x1
    refine Chip.wr_moves ?_ (within_sub w (by decide +kernel))
    refine Chip.pwmStop_moves ?_ (within_sub w (by decide +kernel))
    assumption
  clear_value x1
  refine Chip.wr_moves ?_ (within_sub w (by decide +kernel))
  refine Chip.wr_moves ?_ (within_sub w (by decide +kernel))
  refine Chip.wr_moves ?_ (within_sub w (by decide +kernel))
  refine Chip.setLat_moves ?_ (within_sub w (by decide +kernel))
  assumption

theorem Chip.pwmTaken_moves {L : List Part} {b m : Chip} {ch' : Nat} (h : Moves L b m)
    (w : within [.rMap, .chans] L = true) :
    Moves L b (Chip.pwmTaken m ch') := by
  unfold Chip.pwmTaken
  split
  · extract_lets +onlyGivenNames x1
    clear_value x1
    refine Chip.wr_moves ?_ (within_sub w (by decide +kernel))
    refine Chip.setChan_moves ?_ (within_sub w (by decide +kernel))
    assumption
  · assumption

theorem Chip.latCfg_moves {L : List Part} {b m : Chip} {ch' : Nat} {w' : Nat} (h : Moves L b m)
    (w : within [.rHp, .rMb, .rCh, .rTr, .rLat, .rDrv, .rAx, .rWhl, .rMdl, .rBk, .rBst, .rPwr, .rDg, .rDgb, .rCap, .rBcap, .rAdc, .rAs, .rCmp, .rSds, .rAin, .rFe, .rFio, .rTim, .rInt, .rSys, .rSup, .rProt, .rMap, .rNc, .frees, .asleep, .accums, .chans, .banks, .boost, .bcap, .sys, .cyc] L = true) :
    Moves L b (Chip.latCfg m ch' w') := by
  unfold Chip.latCfg
  extract_lets +onlyGivenNames x1
  have h2 : Moves L b x1 := by
    unfold x1
    refine Moves.foldl ?_ fun y3 a4 h5 => ?_
    · assumption
    · refine Chip.wrFrom_moves ?_ (within_field _ (within_sub w (by decide +kernel)))
      assumption
  clear_value x1
  extract_lets +onlyGivenNames x6
  clear_value x6
  extract_lets +onlyGivenNames x7
  have h8 : Moves L b x7 := by
    unfold x7
    refine Chip.latAdopt_moves ?_ (within_sub w (by decide +kernel))
    refine Chip.setLat_moves ?_ (within_sub w (by decide +kernel))
    assumption
  clear_value x7
  refine Moves.ite ?_ ?_
  · refine Moves.ite ?_ ?_
    · assumption
    · refine Chip.latDisable_moves ?_ (within_sub w (by decide +kernel))
      assumption
  · refine Moves.ite ?_ ?_
    · assumption
    · refine Moves.ite ?_ ?_
      · refine Chip.latFlag_moves ?_ (within_sub w (by decide +kernel))
        assumption
      · refine Chip.pwmTaken_moves ?_ (within_sub w (by decide +kernel))
        refine Chip.latTo_moves ?_ (within_sub w (by decide +kernel))
        refine Chip.wr_moves ?_ (within_sub w (by decide +kernel))
        refine Chip.wr_moves ?_ (within_sub w (by decide +kernel))
        refine Chip.wr_moves ?_ (within_sub w (by decide +kernel))
        assumption

theorem Chip.tubeClear_moves {L : List Part} {b m : Chip} {ch' : Nat} (h : Moves L b m)
    (w : within [.rCh, .rLat, .rDrv, .rBk, .rBst, .rDg, .rDgb, .rCap, .rInt, .rMap, .frees, .asleep, .accums, .chans, .banks, .boost, .bcap, .sys, .cyc] L = true) :
    Moves L b (Chip.tubeClear m ch') := by
  unfold Chip.tubeClear
  extract_lets +onlyGivenNames x1
  clear_value x1
  extract_lets +onlyGivenNames x2
  clear_value x2
  extract_lets +onlyGivenNames x3
  have h4 : Moves L b x3 := by
    unfold x3
    refine Chip.wr_moves ?_ (within_sub w (by decide +kernel))
    refine Chip.setLat_moves ?_ (within_sub w (by decide +kernel))
    assumption
  clear_value x3
  refine Moves.ite ?_ ?_
  · assumption
  · refine Chip.latStep_moves ?_ (within_sub w (by decide +kernel))
    assumption

theorem Chip.trimClear_moves {L : List Part} {b m : Chip} {ch' : Nat} (h : Moves L b m)
    (w : within [.rCh, .rLat, .rDrv, .rBk, .rBst, .rDg, .rDgb, .rCap, .rInt, .rMap, .frees, .asleep, .accums, .chans, .banks, .boost, .bcap, .sys, .cyc] L = true) :
    Moves L b (Chip.trimClear m ch') := by
  unfold Chip.trimClear
  extract_lets +onlyGivenNames x1
  clear_value x1
  extract_lets +onlyGivenNames x2
  have h3 : Moves L b x2 := by
    unfold x2
    refine Chip.wr_moves ?_ (within_sub w (by decide +kernel))
    refine Chip.setLat_moves ?_ (within_sub w (by decide +kernel))
    assumption
  clear_value x2
  refine Moves.ite ?_ ?_
  · assumption
  · refine Chip.latStep_moves ?_ (within_sub w (by decide +kernel))
    assumption

theorem Chip.latEmit_moves {L : List Part} {b m : Chip} {ch' : Nat} {o' : Int} (h : Moves L b m)
    (w : within [.rLat, .rFe, .rInt, .asleep, .accums, .chans, .fe, .sys, .cyc] L = true) :
    Moves L b (Chip.latEmit m ch' o') := by
  unfold Chip.latEmit
  extract_lets +onlyGivenNames x1
  clear_value x1
  extract_lets +onlyGivenNames x2
  clear_value x2
  refine Moves.ite ?_ ?_
  · refine Chip.setLat_moves ?_ (within_sub w (by decide +kernel))
    assumption
  · refine Moves.ite ?_ ?_
    · refine Chip.latFlag_moves ?_ (within_sub w (by decide +kernel))
      assumption
    · refine Chip.feTxLattice_moves ?_ (within_sub w (by decide +kernel))
      assumption

theorem Chip.latDrive_moves {L : List Part} {b m : Chip} {ch' : Nat} (h : Moves L b m)
    (w : within [.rLat, .rFe, .rInt, .frees, .asleep, .accums, .chans, .fe, .sys, .cyc] L = true) :
    Moves L b (Chip.latDrive m ch') := by
  unfold Chip.latDrive
  extract_lets +onlyGivenNames x1
  clear_value x1
  split
  · extract_lets +onlyGivenNames x2
    extract_lets +onlyGivenNames x3
    have h4 : Moves L b x3 := by
      unfold x3
      refine Chip.latNote_moves ?_ (within_sub w (by decide +kernel))
      refine Chip.setLat_moves ?_ (within_sub w (by decide +kernel))
      assumption
    clear_value x3
    extract_lets +onlyGivenNames x5
    have h6 : Moves L b x5 := by
      unfold x5
      refine Chip.wrB_moves ?_ (within_sub w (by decide +kernel))
      refine Chip.wrFit_moves ?_ (within_sub w (by decide +kernel))
      assumption
    clear_value x5
    refine Chip.latEmit_moves ?_ (within_sub w (by decide +kernel))
    assumption

theorem Chip.latUpdate_moves {L : List Part} {b m : Chip} {ch' : Nat} (h : Moves L b m)
    (w : within [.rLat, .rFe, .rInt, .stamps, .frees, .asleep, .accums, .chans, .fe, .sys, .cyc] L = true) :
    Moves L b (Chip.latUpdate m ch') := by
  unfold Chip.latUpdate
  extract_lets +onlyGivenNames x1
  clear_value x1
  extract_lets +onlyGivenNames x2
  have h3 : Moves L b x2 := by
    unfold x2
    refine Chip.latAdopt_moves ?_ (within_sub w (by decide +kernel))
    refine Chip.stamp_moves ?_ (within_sub w (by decide +kernel))
    assumption
  clear_value x2
  refine Moves.ite ?_ ?_
  · assumption
  · refine Moves.ite ?_ ?_
    · assumption
    · refine Moves.ite ?_ ?_
      · refine Chip.latDrive_moves ?_ (within_sub w (by decide +kernel))
        assumption
      · refine Chip.latEmit_moves ?_ (within_sub w (by decide +kernel))
        assumption

theorem Chip.latFaultEnd_moves {L : List Part} {b m : Chip} {ch' : Nat} (h : Moves L b m)
    (w : within [.rCh, .rLat, .rDrv, .rBk, .rBst, .rDg, .rDgb, .rCap, .rInt, .rMap, .frees, .asleep, .accums, .chans, .banks, .boost, .bcap, .sys, .cyc] L = true) :
    Moves L b (Chip.latFaultEnd m ch') := by
  unfold Chip.latFaultEnd
  extract_lets +onlyGivenNames x1
  clear_value x1
  extract_lets +onlyGivenNames x2
  clear_value x2
  refine Moves.ite ?_ ?_
  · refine Chip.latTo_moves ?_ (within_sub w (by decide +kernel))
    refine Chip.latFlag_moves ?_ (within_sub w (by decide +kernel))
    assumption
  · assumption

theorem Chip.pwmEnd_moves {L : List Part} {b m : Chip} {ch' : Nat} (h : Moves L b m)
    (w : within [.rCh, .rDrv, .rBk, .rBst, .rDg, .rDgb, .rCap, .rInt, .rMap, .frees, .asleep, .accums, .chans, .banks, .boost, .bcap, .sys, .cyc] L = true) :
    Moves L b (Chip.pwmEnd m ch') := by
  unfold Chip.pwmEnd
  split
  · extract_lets +onlyGivenNames x1
    clear_value x1
    refine Moves.ite ?_ ?_
    · refine Chip.pwmSet_moves ?_ (within_sub w (by decide +kernel))
      refine Chip.setLat_moves ?_ (within_sub w (by decide +kernel))
      assumption
    · assumption
  · assumption

theorem Chip.pwmPeriod_moves {L : List Part} {b m : Chip} {ch' : Nat} (h : Moves L b m)
    (w : within [.rCh, .rDrv, .rBk, .rBst, .rDg, .rDgb, .rCap, .rInt, .rMap, .frees, .asleep, .accums, .chans, .banks, .boost, .bcap, .sys, .cyc] L = true) :
    Moves L b (Chip.pwmPeriod m ch') := by
  unfold Chip.pwmPeriod
  split
  · assumption
  · extract_lets +onlyGivenNames x1
    clear_value x1
    extract_lets +onlyGivenNames x2
    clear_value x2
    extract_lets +onlyGivenNames x3
    clear_value x3
    extract_lets +onlyGivenNames x4
    clear_value x4
    extract_lets +onlyGivenNames x5
    have h6 : Moves L b x5 := by
      unfold x5
      refine Chip.setLat_moves ?_ (within_sub w (by decide +kernel))
      assumption
    clear_value x5
    refine Moves.ite ?_ ?_
    · assumption
    · refine Chip.pwmSet_moves ?_ (within_sub w (by decide +kernel))
      assumption

theorem Chip.landing_moves {L : List Part} {b m : Chip} {ch' : Nat} (h : Moves L b m)
    (w : within [.rLat, .chans, .cyc] L = true) :
    Moves L b (Chip.landing m ch') := by
  unfold Chip.landing
  extract_lets +onlyGivenNames x1
  clear_value x1
  extract_lets +onlyGivenNames x2
  clear_value x2
  split
  · assumption
  · extract_lets +onlyGivenNames x3
    clear_value x3
    refine Moves.ite ?_ ?_
    · refine Chip.latLanded_moves ?_ (within_sub w (by decide +kernel))
      refine Chip.setLat_moves ?_ (within_sub w (by decide +kernel))
      assumption
    · refine Chip.setLat_moves ?_ (within_sub w (by decide +kernel))
      assumption

theorem Chip.windowEnd_moves {L : List Part} {b m : Chip} {ch' : Nat} (h : Moves L b m)
    (w : within [.rLat, .chans, .cyc] L = true) :
    Moves L b (Chip.windowEnd m ch') := by
  unfold Chip.windowEnd
  extract_lets +onlyGivenNames x1
  clear_value x1
  split
  · assumption
  · extract_lets +onlyGivenNames x2
    clear_value x2
    refine Chip.latJudge_moves ?_ (within_sub w (by decide +kernel))
    refine Chip.setLat_moves ?_ (within_sub w (by decide +kernel))
    assumption

theorem Chip.latStallEnd_moves {L : List Part} {b m : Chip} {ch' : Nat} (h : Moves L b m)
    (w : within [.rCh, .rLat, .rDrv, .rBk, .rBst, .rDg, .rDgb, .rCap, .rInt, .rMap, .frees, .asleep, .accums, .chans, .banks, .boost, .bcap, .sys, .cyc] L = true) :
    Moves L b (Chip.latStallEnd m ch') := by
  unfold Chip.latStallEnd
  extract_lets +onlyGivenNames x1
  clear_value x1
  extract_lets +onlyGivenNames x2
  clear_value x2
  extract_lets +onlyGivenNames x3
  clear_value x3
  extract_lets +onlyGivenNames x4
  clear_value x4
  refine Moves.ite ?_ ?_
  · refine Chip.latFail_moves ?_ (within_sub w (by decide +kernel))
    assumption
  · assumption

theorem execTrimClr_moves {L : List Part} {who' : Writer} {ch' : Ch} {s t : State}
    (w : within [.rCh, .rLat, .rDrv, .rBk, .rBst, .rDg, .rDgb, .rCap, .rInt, .rMap, .frees, .asleep, .accums, .chans, .banks, .boost, .bcap, .sys, .cyc] L = true) (e : execTrimClr who' ch' s = .next t) :
    Moves L s.chip t.chip := by
  unfold execTrimClr at e
  refine upd_moves (fun m => ?_) e
  refine Moves.ite ?_ ?_
  · refine Chip.trimClear_moves ?_ (within_sub w (by decide +kernel))
    exact .refl
  · exact .refl

theorem execLatticeFaultExit_moves {L : List Part} {ch' : Ch} {s t : State}
    (w : within [.rCh, .rLat, .rDrv, .rBk, .rBst, .rDg, .rDgb, .rCap, .rInt, .rMap, .frees, .asleep, .accums, .chans, .banks, .boost, .bcap, .sys, .cyc] L = true) (e : execLatticeFaultExit ch' s = .next t) :
    Moves L s.chip t.chip := by
  unfold execLatticeFaultExit at e
  refine upd_moves (fun m => ?_) e
  refine Chip.latFaultEnd_moves ?_ (within_sub w (by decide +kernel))
  exact .refl

theorem execLatticePwmPeriod_moves {L : List Part} {ch' : Ch} {s t : State}
    (w : within [.rCh, .rDrv, .rBk, .rBst, .rDg, .rDgb, .rCap, .rInt, .rMap, .frees, .asleep, .accums, .chans, .banks, .boost, .bcap, .sys, .cyc] L = true) (e : execLatticePwmPeriod ch' s = .next t) :
    Moves L s.chip t.chip := by
  unfold execLatticePwmPeriod at e
  refine upd_moves (fun m => ?_) e
  refine Chip.pwmPeriod_moves ?_ (within_sub w (by decide +kernel))
  exact .refl

theorem execLatticeEnable_moves {L : List Part} {who' : Writer} {ch' : Ch} {w' : Word} {s t : State}
    (w : within [.rHp, .rMb, .rCh, .rTr, .rLat, .rDrv, .rAx, .rWhl, .rMdl, .rBk, .rBst, .rPwr, .rDg, .rDgb, .rCap, .rBcap, .rAdc, .rAs, .rCmp, .rSds, .rAin, .rFe, .rFio, .rTim, .rInt, .rSys, .rSup, .rProt, .rMap, .rNc, .frees, .asleep, .accums, .chans, .banks, .boost, .bcap, .sys, .cyc] L = true) (e : execLatticeEnable who' ch' w' s = .next t) :
    Moves L s.chip t.chip := by
  unfold execLatticeEnable at e
  refine upd_moves (fun m => ?_) e
  refine Moves.ite ?_ ?_
  · refine Chip.latCfg_moves ?_ (within_sub w (by decide +kernel))
    exact .refl
  · exact .refl

theorem execTubeClr_moves {L : List Part} {who' : Writer} {ch' : Ch} {s t : State}
    (w : within [.rCh, .rLat, .rDrv, .rBk, .rBst, .rDg, .rDgb, .rCap, .rInt, .rMap, .frees, .asleep, .accums, .chans, .banks, .boost, .bcap, .sys, .cyc] L = true) (e : execTubeClr who' ch' s = .next t) :
    Moves L s.chip t.chip := by
  unfold execTubeClr at e
  refine upd_moves (fun m => ?_) e
  refine Moves.ite ?_ ?_
  · refine Chip.tubeClear_moves ?_ (within_sub w (by decide +kernel))
    exact .refl
  · exact .refl

theorem execDropWindowEnd_moves {L : List Part} {ch' : Ch} {s t : State}
    (w : within [.rLat, .chans, .cyc] L = true) (e : execDropWindowEnd ch' s = .next t) :
    Moves L s.chip t.chip := by
  unfold execDropWindowEnd at e
  refine upd_moves (fun m => ?_) e
  refine Chip.windowEnd_moves ?_ (within_sub w (by decide +kernel))
  exact .refl

theorem execLatticePwmOff_moves {L : List Part} {ch' : Ch} {s t : State}
    (w : within [.rCh, .rDrv, .rBk, .rBst, .rDg, .rDgb, .rCap, .rInt, .rMap, .frees, .asleep, .accums, .chans, .banks, .boost, .bcap, .sys, .cyc] L = true) (e : execLatticePwmOff ch' s = .next t) :
    Moves L s.chip t.chip := by
  unfold execLatticePwmOff at e
  refine upd_moves (fun m => ?_) e
  refine Chip.pwmEnd_moves ?_ (within_sub w (by decide +kernel))
  exact .refl

theorem execLatticeStall_moves {L : List Part} {ch' : Ch} {s t : State}
    (w : within [.rCh, .rLat, .rDrv, .rBk, .rBst, .rDg, .rDgb, .rCap, .rInt, .rMap, .frees, .asleep, .accums, .chans, .banks, .boost, .bcap, .sys, .cyc] L = true) (e : execLatticeStall ch' s = .next t) :
    Moves L s.chip t.chip := by
  unfold execLatticeStall at e
  refine upd_moves (fun m => ?_) e
  refine Chip.latStallEnd_moves ?_ (within_sub w (by decide +kernel))
  exact .refl

theorem execLandingEvaluation_moves {L : List Part} {ch' : Ch} {s t : State}
    (w : within [.rLat, .chans, .cyc] L = true) (e : execLandingEvaluation ch' s = .next t) :
    Moves L s.chip t.chip := by
  unfold execLandingEvaluation at e
  refine upd_moves (fun m => ?_) e
  refine Chip.landing_moves ?_ (within_sub w (by decide +kernel))
  exact .refl

theorem execLatticeUpdate_moves {L : List Part} {ch' : Ch} {s t : State}
    (w : within [.rLat, .rFe, .rInt, .stamps, .frees, .asleep, .accums, .chans, .fe, .sys, .cyc] L = true) (e : execLatticeUpdate ch' s = .next t) :
    Moves L s.chip t.chip := by
  unfold execLatticeUpdate at e
  refine upd_moves (fun m => ?_) e
  refine Chip.latUpdate_moves ?_ (within_sub w (by decide +kernel))
  exact .refl

end Sys2Proof.Machine
end

