-- ==== Sys2Proof/Laws/MovesTrain.lean ====
section
/-! SUPPORT. Each operation of Machine/Train.lean moves the block within the parts it names. -/

-- Theorem by theorem: many at once each take a thread's stack, and the package as one text ran out of them.
set_option Elab.async false

namespace Sys2Proof.Machine

theorem Chip.trainUpdate_moves {L : List Part} {b m : Chip} {ch' : Nat} {pitch' : Nat} {width' : Nat} (h : Moves L b m)
    (w : within [.rTr, .chans, .cyc] L = true) :
    Moves L b (Chip.trainUpdate m ch' pitch' width') := by
  unfold Chip.trainUpdate
  split
  · refine Chip.setFlag_moves ?_ (within_sub w (by decide +kernel))
    assumption
  · extract_lets +onlyGivenNames x1
    clear_value x1
    extract_lets +onlyGivenNames x2
    clear_value x2
    extract_lets +onlyGivenNames x3
    clear_value x3
    extract_lets +onlyGivenNames x4
    have h5 : Moves L b x4 := by
      unfold x4
      refine Chip.setChan_moves ?_ (within_sub w (by decide +kernel))
      assumption
    clear_value x4
    extract_lets +onlyGivenNames x6
    have h7 : Moves L b x6 := by
      unfold x6
      refine Chip.wr_moves ?_ (within_sub w (by decide +kernel))
      refine Chip.wr_moves ?_ (within_sub w (by decide +kernel))
      assumption
    clear_value x6
    refine Moves.ite ?_ ?_
    · refine Chip.setFlag_moves ?_ (within_sub w (by decide +kernel))
      assumption
    · refine Chip.setFlag_moves ?_ (within_sub w (by decide +kernel))
      assumption

theorem Chip.trainPulseEnd_moves {L : List Part} {b m : Chip} {ch' : Nat} (h : Moves L b m)
    (w : within [.rCh, .rDrv, .rBk, .rBst, .rDg, .rDgb, .rCap, .rInt, .rMap, .frees, .asleep, .accums, .chans, .banks, .boost, .bcap, .sys, .cyc] L = true) :
    Moves L b (Chip.trainPulseEnd m ch') := by
  unfold Chip.trainPulseEnd
  split
  · assumption
  · refine Moves.ite ?_ ?_
    · refine Chip.trainOffAt_moves ?_ (within_sub w (by decide +kernel))
      assumption
    · assumption

theorem Chip.trainCap_moves {L : List Part} {b m : Chip} {ch' : Nat} (h : Moves L b m)
    (w : within [.rCh, .rTr, .rDrv, .rBk, .rBst, .rDg, .rDgb, .rCap, .rInt, .rMap, .frees, .asleep, .accums, .chans, .banks, .boost, .bcap, .sys, .cyc] L = true) :
    Moves L b (Chip.trainCap m ch') := by
  unfold Chip.trainCap
  split
  · refine Moves.ite ?_ ?_
    · assumption
    · refine Chip.capFire_moves ?_ (within_sub w (by decide +kernel))
      assumption
  · assumption

theorem Chip.trainFire_moves {L : List Part} {b m : Chip} {ch' : Nat} (h : Moves L b m)
    (w : within [.rCh, .rTr, .rDrv, .rBk, .rBst, .rDg, .rDgb, .rCap, .rInt, .rMap, .frees, .asleep, .accums, .chans, .banks, .boost, .bcap, .sys, .cyc] L = true) :
    Moves L b (Chip.trainFire m ch') := by
  unfold Chip.trainFire
  split
  · refine Moves.ite ?_ ?_
    · assumption
    · refine Chip.pointFire_moves ?_ (within_sub w (by decide +kernel))
      assumption
  · assumption

theorem Chip.trainEnd_moves {L : List Part} {b m : Chip} {ch' : Nat} (h : Moves L b m)
    (w : within [.rTr, .pool, .poolLast, .chans, .cyc] L = true) :
    Moves L b (Chip.trainEnd m ch') := by
  unfold Chip.trainEnd
  split
  · assumption
  · extract_lets +onlyGivenNames x1
    have h2 : Moves L b x1 := by
      unfold x1
      refine Chip.strokeTrainEnd_moves ?_ (within_sub w (by decide +kernel))
      assumption
    clear_value x1
    extract_lets +onlyGivenNames x3
    clear_value x3
    extract_lets +onlyGivenNames x4
    have h5 : Moves L b x4 := by
      unfold x4
      refine Chip.setChan_moves ?_ (within_sub w (by decide +kernel))
      assumption
    clear_value x4
    extract_lets +onlyGivenNames x6
    have h7 : Moves L b x6 := by
      unfold x6
      refine Chip.wr_moves ?_ (within_sub w (by decide +kernel))
      refine Chip.wr_moves ?_ (within_sub w (by decide +kernel))
      refine Chip.wr_moves ?_ (within_sub w (by decide +kernel))
      assumption
    clear_value x6
    refine Moves.ite ?_ ?_
    · refine Chip.freeSlot_moves ?_ (within_sub w (by decide +kernel))
      refine Chip.setFlag_moves ?_ (within_sub w (by decide +kernel))
      assumption
    · assumption

theorem execTrainPulseOff_moves {L : List Part} {ch' : Ch} {s t : State}
    (w : within [.rCh, .rDrv, .rBk, .rBst, .rDg, .rDgb, .rCap, .rInt, .rMap, .frees, .asleep, .accums, .chans, .banks, .boost, .bcap, .sys, .cyc] L = true) (e : execTrainPulseOff ch' s = .next t) :
    Moves L s.chip t.chip := by
  unfold execTrainPulseOff at e
  refine upd_moves (fun m => ?_) e
  refine Chip.trainPulseEnd_moves ?_ (within_sub w (by decide +kernel))
  exact .refl

theorem execTrainPulseFire_moves {L : List Part} {ch' : Ch} {s t : State}
    (w : within [.rCh, .rTr, .rDrv, .rBk, .rBst, .rDg, .rDgb, .rCap, .rInt, .rMap, .frees, .asleep, .accums, .chans, .banks, .boost, .bcap, .sys, .cyc] L = true) (e : execTrainPulseFire ch' s = .next t) :
    Moves L s.chip t.chip := by
  unfold execTrainPulseFire at e
  refine upd_moves (fun m => ?_) e
  refine Chip.trainFire_moves ?_ (within_sub w (by decide +kernel))
  exact .refl

theorem execTrainRateLimitFire_moves {L : List Part} {ch' : Ch} {s t : State}
    (w : within [.rCh, .rTr, .rDrv, .rBk, .rBst, .rDg, .rDgb, .rCap, .rInt, .rMap, .frees, .asleep, .accums, .chans, .banks, .boost, .bcap, .sys, .cyc] L = true) (e : execTrainRateLimitFire ch' s = .next t) :
    Moves L s.chip t.chip := by
  unfold execTrainRateLimitFire at e
  refine upd_moves (fun m => ?_) e
  refine Chip.trainCap_moves ?_ (within_sub w (by decide +kernel))
  exact .refl

theorem execTrainLengthEnd_moves {L : List Part} {ch' : Ch} {s t : State}
    (w : within [.rTr, .pool, .poolLast, .chans, .cyc] L = true) (e : execTrainLengthEnd ch' s = .next t) :
    Moves L s.chip t.chip := by
  unfold execTrainLengthEnd at e
  refine upd_moves (fun m => ?_) e
  refine Chip.trainEnd_moves ?_ (within_sub w (by decide +kernel))
  exact .refl

theorem execTrainUpdate_moves {L : List Part} {who' : Writer} {ch' : Ch} {s t : State}
    (w : within [.rTr, .chans, .cyc] L = true) (e : execTrainUpdate who' ch' s = .next t) :
    Moves L s.chip t.chip := by
  unfold execTrainUpdate at e
  refine upd_moves (fun m => ?_) e
  refine Moves.ite ?_ ?_
  · refine Chip.trainUpdate_moves ?_ (within_sub w (by decide +kernel))
    exact .refl
  · exact .refl

end Sys2Proof.Machine
end

