-- ==== Sys2Proof/Laws/MovesMapOps.lean ====
section
/-! SUPPORT. Each operation of Machine/MapOps.lean moves the block within the parts it names. -/

-- Theorem by theorem: many at once each take a thread's stack, and the package as one text ran out of them.
set_option Elab.async false

namespace Sys2Proof.Machine

theorem Chip.gatePend_moves {L : List Part} {b m : Chip} {ch' : Nat} {gs' : List Gate} (h : Moves L b m)
    (w : within [.rMap, .chans] L = true) :
    Moves L b (Chip.gatePend m ch' gs') := by
  unfold Chip.gatePend
  extract_lets +onlyGivenNames x1
  clear_value x1
  refine Chip.wr_moves ?_ (within_sub w (by decide +kernel))
  refine Chip.setChan_moves ?_ (within_sub w (by decide +kernel))
  assumption

theorem Chip.gateSet_moves {L : List Part} {b m : Chip} {ch' : Nat} {opens' : Bool} {t' : Nat} (h : Moves L b m)
    (w : within [.rCh, .rDrv, .rBk, .rBst, .rDg, .rDgb, .rCap, .rInt, .rMap, .frees, .asleep, .accums, .chans, .banks, .boost, .bcap, .sys, .cyc] L = true) :
    Moves L b (Chip.gateSet m ch' opens' t') := by
  unfold Chip.gateSet
  extract_lets +onlyGivenNames x1
  have h2 : Moves L b x1 := by
    unfold x1
    refine Chip.outApply_moves ?_ (within_sub w (by decide +kernel))
    refine Chip.wrB_moves ?_ (within_sub w (by decide +kernel))
    assumption
  clear_value x1
  refine Moves.ite ?_ ?_
  · assumption
  · refine Chip.strokeCut_moves ?_ (within_sub w (by decide +kernel))
    assumption

theorem Chip.gateDrop_moves {L : List Part} {b m : Chip} {ch' : Nat} {opens' : Bool} (h : Moves L b m)
    (w : within [.rCh, .rDrv, .rBk, .rBst, .rDg, .rDgb, .rCap, .rInt, .rMap, .frees, .asleep, .accums, .chans, .banks, .boost, .bcap, .map, .sys, .cyc] L = true) :
    Moves L b (Chip.gateDrop m ch' opens') := by
  unfold Chip.gateDrop
  extract_lets +onlyGivenNames x1
  have h2 : Moves L b x1 := by
    unfold x1
    refine Chip.gatePend_moves ?_ (within_sub w (by decide +kernel))
    assumption
  clear_value x1
  extract_lets +onlyGivenNames x3
  clear_value x3
  extract_lets +onlyGivenNames x4
  have h5 : Moves L b x4 := by
    unfold x4
    refine Chip.setChan_moves ?_ (within_sub w (by decide +kernel))
    assumption
  clear_value x4
  extract_lets +onlyGivenNames x6
  unfold x6
  clear_value x6
  refine Chip.gateSet_moves ?_ (within_sub w (by decide +kernel))
  refine Moves.upd (x := x4) ?_ (by constructor <;> first | rfl | exact .inl rfl | exact .inr (within_mem w (by decide +kernel)))
  assumption

theorem Chip.gateDisable_moves {L : List Part} {b m : Chip} {ch' : Nat} (h : Moves L b m)
    (w : within [.rCh, .rDrv, .rBk, .rBst, .rDg, .rDgb, .rCap, .rInt, .rMap, .frees, .asleep, .accums, .chans, .banks, .boost, .bcap, .map, .sys, .cyc] L = true) :
    Moves L b (Chip.gateDisable m ch') := by
  unfold Chip.gateDisable
  refine Moves.ite ?_ ?_
  · refine Chip.gateDrop_moves ?_ (within_sub w (by decide +kernel))
    assumption
  · assumption

theorem Chip.gatesOff_moves {L : List Part} {b m : Chip} (h : Moves L b m)
    (w : within [.rCh, .rDrv, .rBk, .rBst, .rDg, .rDgb, .rCap, .rInt, .rMap, .frees, .asleep, .accums, .chans, .banks, .boost, .bcap, .map, .sys, .cyc] L = true) :
    Moves L b (Chip.gatesOff m) := by
  unfold Chip.gatesOff
  extract_lets +onlyGivenNames x1
  unfold x1
  clear_value x1
  refine Moves.foldl ?_ fun y2 a3 h4 => ?_
  · refine Moves.upd (x := m) ?_ (by constructor <;> first | rfl | exact .inl rfl | exact .inr (within_mem w (by decide +kernel)))
    assumption
  · refine Moves.ite ?_ ?_
    · refine Chip.gateDisable_moves ?_ (within_sub w (by decide +kernel))
      assumption
    · assumption

theorem Chip.mapStat_moves {L : List Part} {b m : Chip} (h : Moves L b m)
    (w : within [.rMap] L = true) :
    Moves L b (Chip.mapStat m) := by
  unfold Chip.mapStat
  extract_lets +onlyGivenNames x1
  have h2 : Moves L b x1 := by
    unfold x1
    refine Chip.wrB_moves ?_ (within_sub w (by decide +kernel))
    refine Chip.wrB_moves ?_ (within_sub w (by decide +kernel))
    refine Chip.wrB_moves ?_ (within_sub w (by decide +kernel))
    assumption
  clear_value x1
  extract_lets +onlyGivenNames x3
  have h4 : Moves L b x3 := by
    unfold x3
    refine Chip.wr_moves ?_ (within_sub w (by decide +kernel))
    assumption
  clear_value x3
  refine Chip.wr_moves ?_ (within_sub w (by decide +kernel))
  assumption

theorem Chip.covPut_moves {L : List Part} {b m : Chip} {k' : Nat} {r' : Nat} {c' : Nat} {v' : Nat} (h : Moves L b m)
    (w : within [.rMap, .mem, .map] L = true) :
    Moves L b (Chip.covPut m k' r' c' v') := by
  unfold Chip.covPut
  extract_lets +onlyGivenNames x1
  clear_value x1
  extract_lets +onlyGivenNames x2
  clear_value x2
  extract_lets +onlyGivenNames x3
  have h4 : Moves L b x3 := by
    unfold x3
    refine Chip.store_moves ?_ (within_sub w (by decide +kernel))
    assumption
  clear_value x3
  extract_lets +onlyGivenNames x5
  unfold x5
  clear_value x5
  extract_lets +onlyGivenNames x6
  clear_value x6
  refine Moves.ite ?_ ?_
  · assumption
  · refine Moves.ite ?_ ?_
    · refine Chip.wr_moves ?_ (within_sub w (by decide +kernel))
      assumption
    · refine Moves.ite ?_ ?_
      · refine Moves.upd (x := x3) ?_ (by constructor <;> first | rfl | exact .inl rfl | exact .inr (within_mem w (by decide +kernel)))
        assumption
      · assumption

theorem Chip.covMark_moves {L : List Part} {b m : Chip} {ch' : Nat} {e' : Int} {n' : Int} {dropped' : Bool} (h : Moves L b m)
    (w : within [.rMap, .mem, .map] L = true) :
    Moves L b (Chip.covMark m ch' e' n' dropped').2 := by
  unfold Chip.covMark
  extract_lets +onlyGivenNames x1
  clear_value x1
  split
  · refine Moves.pair ?_
    assumption
  · extract_lets +onlyGivenNames x2
    clear_value x2
    extract_lets +onlyGivenNames x3
    clear_value x3
    extract_lets +onlyGivenNames x4
    clear_value x4
    split
    · refine Moves.pair ?_
      assumption
    · refine Moves.pair ?_
      refine Chip.wr_moves ?_ (within_sub w (by decide +kernel))
      refine Chip.covPut_moves ?_ (within_sub w (by decide +kernel))
      assumption

theorem Chip.strokeMark_moves {L : List Part} {b m : Chip} {ch' : Nat} {a' : WbPoint} {b' : WbPoint} {t0' : Nat} {t1' : Nat} {k' : Stroke} {dropped' : Bool} (h : Moves L b m)
    (w : within [.rMap, .mem, .map] L = true) :
    Moves L b (Chip.strokeMark m ch' a' b' t0' t1' k' dropped').2 := by
  unfold Chip.strokeMark
  split
  · refine Moves.pair ?_
    assumption
  · refine Moves.foldl_snd ?_ fun y1 a2 h3 => ?_
    · refine Moves.pair ?_
      assumption
    · refine Chip.covMark_moves ?_ (within_sub w (by decide +kernel))
      assumption

theorem Chip.widthCommit_moves {L : List Part} {b m : Chip} {ch' : Nat} {w' : Option (Nat × Nat)} (h : Moves L b m)
    (w : within [.rTr, .chans] L = true) :
    Moves L b (Chip.widthCommit m ch' w') := by
  unfold Chip.widthCommit
  split
  · assumption
  · extract_lets +onlyGivenNames x1
    clear_value x1
    extract_lets +onlyGivenNames x2
    have h3 : Moves L b x2 := by
      unfold x2
      refine Moves.ite ?_ ?_
      · refine Chip.trainWidth_moves ?_ (within_sub w (by decide +kernel))
        assumption
      · assumption
    clear_value x2
    refine Moves.ite ?_ ?_
    · split
      · assumption
      · extract_lets +onlyGivenNames x4
        clear_value x4
        refine Moves.ite ?_ ?_
        · refine Chip.setChan_moves ?_ (within_sub w (by decide +kernel))
          assumption
        · assumption
    · assumption

theorem Chip.lookGates_moves {L : List Part} {b m : Chip} {ch' : Nat} {gs' : List Gate} (h : Moves L b m)
    (w : within [.mem] L = true) :
    Moves L b (Chip.lookGates m ch' gs') := by
  unfold Chip.lookGates
  refine Chip.store_moves ?_ (within_sub w (by decide +kernel))
  assumption

theorem Chip.gateCommit_moves {L : List Part} {b m : Chip} {ch' : Nat} (h : Moves L b m)
    (w : within [.rTr, .rMap, .mem, .chans, .map] L = true) :
    Moves L b (Chip.gateCommit m ch') := by
  unfold Chip.gateCommit
  split
  · assumption
  · extract_lets +onlyGivenNames x1
    clear_value x1
    extract_lets +onlyGivenNames x2
    clear_value x2
    extract_lets +onlyGivenNames x3
    have h4 : Moves L b x3 := by
      unfold x3
      refine Chip.setChan_moves ?_ (within_sub w (by decide +kernel))
      assumption
    clear_value x3
    extract_lets +onlyGivenNames x5
    unfold x5
    clear_value x5
    extract_lets +onlyGivenNames x6
    have h7 : Moves L b x6 := by
      unfold x6
      refine Moves.upd (x := x3) ?_ (by constructor <;> first | rfl | exact .inl rfl | exact .inr (within_mem w (by decide +kernel)))
      assumption
    clear_value x6
    extract_lets +onlyGivenNames x8
    clear_value x8
    extract_lets +onlyGivenNames x9
    clear_value x9
    refine Moves.ite ?_ ?_
    · assumption
    · refine Chip.widthCommit_moves ?_ (within_sub w (by decide +kernel))
      refine Chip.lookGates_moves ?_ (within_sub w (by decide +kernel))
      refine Chip.gatePend_moves ?_ (within_sub w (by decide +kernel))
      assumption

theorem Chip.pickTarget_moves {L : List Part} {b m : Chip} (h : Moves L b m)
    (w : within [.frees] L = true) :
    Moves L b (Chip.pickTarget m).2 := by
  unfold Chip.pickTarget
  split
  · split
    · refine Moves.pair ?_
      assumption
    · split
      · rename_i y1 y2 y3 q4
        have h5 : Moves L b ((y2 : Int), y3).2 := by
          rw [← q4]
          refine Chip.free_moves ?_ (within_sub w (by decide +kernel))
          assumption
        refine Moves.pair ?_
        assumption
  · refine Moves.pair ?_
    assumption

theorem Chip.nandDay_moves {L : List Part} {b m : Chip} {er' : Nat} {bad' : Nat} {by_' : Nat} (h : Moves L b m)
    (w : within [.nand] L = true) :
    Moves L b (Chip.nandDay m er' bad' by_') := by
  unfold Chip.nandDay
  extract_lets +onlyGivenNames x1
  clear_value x1
  extract_lets +onlyGivenNames x2
  clear_value x2
  extract_lets +onlyGivenNames x3
  clear_value x3
  refine Moves.nand ?_ (within_sub w (by decide +kernel))
  assumption

theorem Chip.tileCommit_moves {L : List Part} {b m : Chip} {key' : Nat} {cells' : List Host.Cell} {bytes' : Nat} (h : Moves L b m)
    (w : within [.frees, .nand] L = true) :
    Moves L b (Chip.tileCommit m key' cells' bytes').2 := by
  unfold Chip.tileCommit
  extract_lets +onlyGivenNames x1
  clear_value x1
  split
  · rename_i y2 y3 y4 q5
    have h6 : Moves L b ((y3 : Nat), y4).2 := by
      rw [← q5]
      refine Chip.pickTarget_moves ?_ (within_sub w (by decide +kernel))
      assumption
    extract_lets +onlyGivenNames x7
    clear_value x7
    refine Moves.pair ?_
    refine Chip.nandDay_moves ?_ (within_sub w (by decide +kernel))
    refine Moves.nand ?_ (within_sub w (by decide +kernel))
    assumption

theorem Chip.setTileSt_moves {L : List Part} {b m : Chip} {k' : Nat} {x' : TileSt} (h : Moves L b m)
    (w : within [.map] L = true) :
    Moves L b (Chip.setTileSt m k' x') := by
  unfold Chip.setTileSt
  extract_lets +onlyGivenNames x1
  unfold x1
  clear_value x1
  refine Moves.upd (x := m) ?_ (by constructor <;> first | rfl | exact .inl rfl | exact .inr (within_mem w (by decide +kernel)))
  assumption

theorem Chip.setTileState_moves {L : List Part} {b m : Chip} {k' : Nat} {v' : Nat} (h : Moves L b m)
    (w : within [.rMap] L = true) :
    Moves L b (Chip.setTileState m k' v') := by
  unfold Chip.setTileState
  refine Moves.ite ?_ ?_
  · refine Chip.wr_moves ?_ (within_sub w (by decide +kernel))
    assumption
  · refine Chip.wr_moves ?_ (within_sub w (by decide +kernel))
    assumption

theorem Chip.setTileVer_moves {L : List Part} {b m : Chip} {k' : Nat} {v' : Nat} (h : Moves L b m)
    (w : within [.rMap] L = true) :
    Moves L b (Chip.setTileVer m k' v') := by
  unfold Chip.setTileVer
  refine Moves.ite ?_ ?_
  · refine Chip.wr_moves ?_ (within_sub w (by decide +kernel))
    assumption
  · refine Chip.wr_moves ?_ (within_sub w (by decide +kernel))
    assumption

theorem Chip.flushEnd_moves {L : List Part} {b m : Chip} {k' : Nat} {ok' : Bool} (h : Moves L b m)
    (w : within [.rInt, .rMap, .frees, .asleep, .accums, .map, .nand, .sys, .cyc] L = true) :
    Moves L b (Chip.flushEnd m k' ok') := by
  unfold Chip.flushEnd
  extract_lets +onlyGivenNames x1
  clear_value x1
  refine Moves.ite ?_ ?_
  · assumption
  · refine Moves.ite ?_ ?_
    · split
      · rename_i y2 y3 y4 q5
        have h6 : Moves L b ((y3 : Nat), y4).2 := by
          rw [← q5]
          refine Chip.tileCommit_moves ?_ (within_sub w (by decide +kernel))
          assumption
        refine Chip.mapFlag_moves ?_ (within_sub w (by decide +kernel))
        refine Chip.setTileSt_moves ?_ (within_sub w (by decide +kernel))
        refine Chip.setTileState_moves ?_ (within_sub w (by decide +kernel))
        refine Chip.setTileVer_moves ?_ (within_sub w (by decide +kernel))
        assumption
    · refine Chip.mapFlag_moves ?_ (within_sub w (by decide +kernel))
      refine Chip.setTileSt_moves ?_ (within_sub w (by decide +kernel))
      refine Chip.setTileState_moves ?_ (within_sub w (by decide +kernel))
      assumption

theorem Chip.lookNozzle_moves {L : List Part} {b m : Chip} {ch' : Nat} {e' : Int} {n' : Int} {t' : Nat} {rate' : Nat} {next' : Nat} (h : Moves L b m)
    (w : within [.mem] L = true) :
    Moves L b (Chip.lookNozzle m ch' e' n' t' rate' next') := by
  unfold Chip.lookNozzle
  refine Chip.store_moves ?_ (within_sub w (by decide +kernel))
  assumption

theorem Chip.scanTrack_moves {L : List Part} {b m : Chip} {ch' : Nat} {a' : Nat} {fr' : Nat} {t' : Nat} (h : Moves L b m)
    (w : within [.rInt, .rMap, .mem, .asleep, .accums, .map, .sys, .cyc] L = true) :
    Moves L b (Chip.scanTrack m ch' a' fr' t') := by
  unfold Chip.scanTrack
  extract_lets +onlyGivenNames x1
  clear_value x1
  extract_lets +onlyGivenNames x2
  clear_value x2
  extract_lets +onlyGivenNames x3
  clear_value x3
  extract_lets +onlyGivenNames x4
  clear_value x4
  extract_lets +onlyGivenNames x5
  clear_value x5
  extract_lets +onlyGivenNames x6
  clear_value x6
  extract_lets +onlyGivenNames x7
  clear_value x7
  split
  · extract_lets +onlyGivenNames x8
    have h9 : Moves L b x8 := by
      unfold x8
      refine Moves.ite ?_ ?_
      · refine Chip.mapFlag_moves ?_ (within_sub w (by decide +kernel))
        refine Chip.count_moves ?_ (within_sub w (by decide +kernel))
        assumption
      · assumption
    clear_value x8
    extract_lets +onlyGivenNames x10
    have h11 : Moves L b x10 := by
      unfold x10
      refine Moves.ite ?_ ?_
      · refine Chip.mapFlag_moves ?_ (within_sub w (by decide +kernel))
        assumption
      · assumption
    clear_value x10
    extract_lets +onlyGivenNames x12
    have h13 : Moves L b x12 := by
      unfold x12
      refine Chip.wrB_moves ?_ (within_sub w (by decide +kernel))
      refine Chip.wr_moves ?_ (within_sub w (by decide +kernel))
      refine Chip.wr_moves ?_ (within_sub w (by decide +kernel))
      assumption
    clear_value x12
    extract_lets +onlyGivenNames x14
    have h15 : Moves L b x14 := by
      unfold x14
      refine Chip.lookNozzle_moves ?_ (within_sub w (by decide +kernel))
      assumption
    clear_value x14
    extract_lets +onlyGivenNames x16
    unfold x16
    clear_value x16
    refine Moves.upd (x := x14) ?_ (by constructor <;> first | rfl | exact .inl rfl | exact .inr (within_mem w (by decide +kernel)))
    assumption

theorem Chip.scanCh_moves {L : List Part} {b m : Chip} {fr' : Nat} {t' : Nat} {ch' : Nat} (h : Moves L b m)
    (w : within [.rCh, .rDrv, .rBk, .rBst, .rDg, .rDgb, .rCap, .rInt, .rMap, .mem, .frees, .asleep, .accums, .chans, .banks, .boost, .bcap, .map, .sys, .cyc] L = true) :
    Moves L b (Chip.scanCh m fr' t' ch') := by
  unfold Chip.scanCh
  extract_lets +onlyGivenNames x1
  clear_value x1
  refine Moves.ite ?_ ?_
  · assumption
  · refine Moves.ite ?_ ?_
    · refine Chip.gateDrop_moves ?_ (within_sub w (by decide +kernel))
      assumption
    · refine Moves.ite ?_ ?_
      · refine Chip.scanTrack_moves ?_ (within_sub w (by decide +kernel))
        assumption
      · assumption

theorem Chip.mapScan_moves {L : List Part} {b m : Chip} (h : Moves L b m)
    (w : within [.rCh, .rDrv, .rBk, .rBst, .rDg, .rDgb, .rCap, .rInt, .rMap, .mem, .stamps, .frees, .asleep, .accums, .chans, .banks, .boost, .bcap, .map, .sys, .cyc] L = true) :
    Moves L b (Chip.mapScan m) := by
  unfold Chip.mapScan
  refine Moves.ite ?_ ?_
  · split
    · rename_i y1 y2 y3 q4
      have h5 : Moves L b ((y2 : Int), y3).2 := by
        rw [← q4]
        refine Chip.free_moves ?_ (within_sub w (by decide +kernel))
        assumption
      extract_lets +onlyGivenNames x6
      have h7 : Moves L b x6 := by
        unfold x6
        refine Chip.mapStat_moves ?_ (within_sub w (by decide +kernel))
        refine Chip.wr_moves ?_ (within_sub w (by decide +kernel))
        refine Chip.stamp_moves ?_ (within_sub w (by decide +kernel))
        assumption
      clear_value x6
      refine Moves.foldl ?_ fun y8 a9 h10 => ?_
      · assumption
      · refine Chip.scanCh_moves ?_ (within_sub w (by decide +kernel))
        assumption
  · assumption

theorem Chip.setCells_moves {L : List Part} {b m : Chip} {lo' : Nat} {n' : Nat} {cs' : List Host.Cell} (h : Moves L b m)
    (w : within [.mem] L = true) :
    Moves L b (Chip.setCells m lo' n' cs') := by
  unfold Chip.setCells
  refine Moves.foldl ?_ fun y1 a2 h3 => ?_
  · refine Chip.clearMem_moves ?_ (within_sub w (by decide +kernel))
    assumption
  · refine Chip.store_moves ?_ (within_sub w (by decide +kernel))
    assumption

theorem Chip.loadApply_moves {L : List Part} {b m : Chip} {l' : TileLoad} (h : Moves L b m)
    (w : within [.rMap, .mem, .map] L = true) :
    Moves L b (Chip.loadApply m l') := by
  unfold Chip.loadApply
  split
  · assumption
  · extract_lets +onlyGivenNames x1
    clear_value x1
    extract_lets +onlyGivenNames x2
    clear_value x2
    extract_lets +onlyGivenNames x3
    have h4 : Moves L b x3 := by
      unfold x3
      refine Chip.setTileVer_moves ?_ (within_sub w (by decide +kernel))
      refine Chip.setCells_moves ?_ (within_sub w (by decide +kernel))
      assumption
    clear_value x3
    extract_lets +onlyGivenNames x5
    clear_value x5
    refine Moves.ite ?_ ?_
    · assumption
    · refine Moves.ite ?_ ?_
      · refine Moves.ite ?_ ?_
        · refine Chip.setTileState_moves ?_ (within_sub w (by decide +kernel))
          assumption
        · refine Moves.ite ?_ ?_
          · refine Chip.setTileSt_moves ?_ (within_sub w (by decide +kernel))
            assumption
          · assumption
      · assumption

theorem Chip.assign_moves {L : List Part} {b m : Chip} {k' : Nat} {te' : Int} {tn' : Int} (h : Moves L b m)
    (w : within [.rMap, .map] L = true) :
    Moves L b (Chip.assign m k' te' tn') := by
  unfold Chip.assign
  extract_lets +onlyGivenNames x1
  have h2 : Moves L b x1 := by
    unfold x1
    refine Moves.ite ?_ ?_
    · refine Chip.wrI_moves ?_ (within_sub w (by decide +kernel))
      refine Chip.wrI_moves ?_ (within_sub w (by decide +kernel))
      assumption
    · refine Chip.wrI_moves ?_ (within_sub w (by decide +kernel))
      refine Chip.wrI_moves ?_ (within_sub w (by decide +kernel))
      assumption
  clear_value x1
  refine Chip.setTileState_moves ?_ (within_sub w (by decide +kernel))
  refine Chip.setTileSt_moves ?_ (within_sub w (by decide +kernel))
  refine Chip.setTileVer_moves ?_ (within_sub w (by decide +kernel))
  assumption

theorem Chip.loadsApply_moves {L : List Part} {b m : Chip} (h : Moves L b m)
    (w : within [.rMap, .mem, .map] L = true) :
    Moves L b (Chip.loadsApply m) := by
  unfold Chip.loadsApply
  extract_lets +onlyGivenNames x1
  unfold x1
  clear_value x1
  refine Moves.foldl ?_ fun y2 a3 h4 => ?_
  · refine Moves.upd (x := m) ?_ (by constructor <;> first | rfl | exact .inl rfl | exact .inr (within_mem w (by decide +kernel)))
    assumption
  · refine Chip.loadApply_moves ?_ (within_sub w (by decide +kernel))
    assumption

theorem Chip.writeCh_moves {L : List Part} {b m : Chip} {t0' : Nat} {t1' : Nat} {ch' : Nat} (h : Moves L b m)
    (w : within [.rInt, .rMap, .mem, .asleep, .accums, .chans, .map, .sys, .cyc] L = true) :
    Moves L b (Chip.writeCh m t0' t1' ch') := by
  unfold Chip.writeCh
  extract_lets +onlyGivenNames x1
  clear_value x1
  extract_lets +onlyGivenNames x2
  clear_value x2
  extract_lets +onlyGivenNames x3
  clear_value x3
  extract_lets +onlyGivenNames x4
  clear_value x4
  extract_lets +onlyGivenNames x5
  clear_value x5
  extract_lets +onlyGivenNames x6
  clear_value x6
  extract_lets +onlyGivenNames x7
  unfold x7
  clear_value x7
  extract_lets +onlyGivenNames x8
  have h9 : Moves L b x8.2 := by
    unfold x8
    split
    · split
      · refine Moves.pair ?_
        assumption
      · refine Moves.foldl_snd ?_ fun y10 a11 h12 => ?_
        · refine Moves.pair ?_
          assumption
        · refine Chip.strokeMark_moves ?_ (within_sub w (by decide +kernel))
          assumption
    · refine Moves.pair ?_
      assumption
  clear_value x8
  extract_lets +onlyGivenNames x13
  have h14 : Moves L b x13 := by
    unfold x13
    refine Moves.ite ?_ ?_
    · refine Chip.mapFlag_moves ?_ (within_sub w (by decide +kernel))
      refine Chip.count_moves ?_ (within_sub w (by decide +kernel))
      assumption
    · assumption
  clear_value x13
  extract_lets +onlyGivenNames x15
  clear_value x15
  extract_lets +onlyGivenNames x16
  clear_value x16
  extract_lets +onlyGivenNames x17
  clear_value x17
  extract_lets +onlyGivenNames x18
  clear_value x18
  extract_lets +onlyGivenNames x19
  have h20 : Moves L b x19 := by
    unfold x19
    refine Chip.setChan_moves ?_ (within_sub w (by decide +kernel))
    assumption
  clear_value x19
  extract_lets +onlyGivenNames x21
  have h22 : Moves L b x21 := by
    unfold x21
    refine Chip.wrB_moves ?_ (within_sub w (by decide +kernel))
    assumption
  clear_value x21
  extract_lets +onlyGivenNames x23
  unfold x23
  clear_value x23
  refine Moves.ite ?_ ?_
  · refine Moves.upd (x := m) ?_ (by constructor <;> first | rfl | exact .inl rfl | exact .inr (within_mem w (by decide +kernel)))
    assumption
  · refine Moves.upd (x := x21) ?_ (by constructor <;> first | rfl | exact .inl rfl | exact .inr (within_mem w (by decide +kernel)))
    assumption

theorem Chip.writeBack_moves {L : List Part} {b m : Chip} (h : Moves L b m)
    (w : within [.rInt, .rMap, .mem, .stamps, .asleep, .accums, .chans, .map, .sys, .cyc] L = true) :
    Moves L b (Chip.writeBack m) := by
  unfold Chip.writeBack
  extract_lets +onlyGivenNames x1
  clear_value x1
  extract_lets +onlyGivenNames x2
  have h3 : Moves L b x2 := by
    unfold x2
    refine Moves.ite ?_ ?_
    · refine Chip.loadsApply_moves ?_ (within_sub w (by decide +kernel))
      assumption
    · assumption
  clear_value x2
  extract_lets +onlyGivenNames x4
  have h5 : Moves L b x4 := by
    unfold x4
    refine Moves.foldl ?_ fun y6 a7 h8 => ?_
    · refine Chip.stamp_moves ?_ (within_sub w (by decide +kernel))
      assumption
    · refine Chip.writeCh_moves ?_ (within_sub w (by decide +kernel))
      assumption
  clear_value x4
  extract_lets +onlyGivenNames x9
  unfold x9
  clear_value x9
  refine Moves.ite ?_ ?_
  · refine Moves.upd (x := x4) ?_ (by constructor <;> first | rfl | exact .inl rfl | exact .inr (within_mem w (by decide +kernel)))
    assumption
  · assumption

theorem Chip.setTileReq_moves {L : List Part} {b m : Chip} {k' : Nat} {v' : Bool} (h : Moves L b m)
    (w : within [.rMap] L = true) :
    Moves L b (Chip.setTileReq m k' v') := by
  unfold Chip.setTileReq
  refine Moves.ite ?_ ?_
  · refine Chip.wrB_moves ?_ (within_sub w (by decide +kernel))
    assumption
  · refine Chip.wrB_moves ?_ (within_sub w (by decide +kernel))
    assumption

theorem Chip.want_moves {L : List Part} {b m : Chip} {layer' : Nat} {need' : List (Int × Int)} {t' : Int × Int} (h : Moves L b m)
    (w : within [.rMap, .map] L = true) :
    Moves L b (Chip.want m layer' need' t') := by
  unfold Chip.want
  refine Moves.ite ?_ ?_
  · assumption
  · split
    · assumption
    · refine Chip.assign_moves ?_ (within_sub w (by decide +kernel))
      assumption

theorem Chip.cacheLayer_moves {L : List Part} {b m : Chip} {layer' : Nat} (h : Moves L b m)
    (w : within [.rMap, .map] L = true) :
    Moves L b (Chip.cacheLayer m layer') := by
  unfold Chip.cacheLayer
  extract_lets +onlyGivenNames x1
  clear_value x1
  extract_lets +onlyGivenNames x2
  have h3 : Moves L b x2 := by
    unfold x2
    refine Moves.foldl ?_ fun y4 a5 h6 => ?_
    · assumption
    · refine Chip.setTileReq_moves ?_ (within_sub w (by decide +kernel))
      assumption
  clear_value x2
  extract_lets +onlyGivenNames x7
  clear_value x7
  extract_lets +onlyGivenNames x8
  have h9 : Moves L b x8 := by
    unfold x8
    refine Moves.foldl ?_ fun y10 a11 h12 => ?_
    · assumption
    · refine Chip.want_moves ?_ (within_sub w (by decide +kernel))
      assumption
  clear_value x8
  refine Moves.foldl ?_ fun y13 a14 h15 => ?_
  · assumption
  · refine Chip.setTileReq_moves ?_ (within_sub w (by decide +kernel))
    assumption

theorem Chip.loadDone_moves {L : List Part} {b m : Chip} {k' : Nat} {bad' : Bool} (h : Moves L b m)
    (w : within [.rInt, .rMap, .mem, .asleep, .accums, .map, .sys, .cyc] L = true) :
    Moves L b (Chip.loadDone m k' bad') := by
  unfold Chip.loadDone
  extract_lets +onlyGivenNames x1
  have h2 : Moves L b x1 := by
    unfold x1
    split
    · refine Chip.setTileVer_moves ?_ (within_sub w (by decide +kernel))
      refine Chip.setCells_moves ?_ (within_sub w (by decide +kernel))
      assumption
    · refine Chip.setTileVer_moves ?_ (within_sub w (by decide +kernel))
      refine Chip.setCells_moves ?_ (within_sub w (by decide +kernel))
      assumption
  clear_value x1
  refine Moves.ite ?_ ?_
  · assumption
  · refine Moves.ite ?_ ?_
    · refine Chip.mapFlag_moves ?_ (within_sub w (by decide +kernel))
      refine Chip.setTileState_moves ?_ (within_sub w (by decide +kernel))
      assumption
    · refine Chip.mapFlag_moves ?_ (within_sub w (by decide +kernel))
      refine Chip.setTileState_moves ?_ (within_sub w (by decide +kernel))
      refine Chip.setTileSt_moves ?_ (within_sub w (by decide +kernel))
      assumption

theorem Chip.lookLate_moves {L : List Part} {b m : Chip} {ch' : Nat} {g' : Gate} (h : Moves L b m)
    (w : within [.mem] L = true) :
    Moves L b (Chip.lookLate m ch' g') := by
  unfold Chip.lookLate
  refine Moves.foldl ?_ fun y1 a2 h3 => ?_
  · assumption
  · extract_lets +onlyGivenNames x4
    clear_value x4
    refine Moves.ite ?_ ?_
    · refine Chip.store_moves ?_ (within_sub w (by decide +kernel))
      assumption
    · assumption

theorem Chip.gateFire_moves {L : List Part} {b m : Chip} {ch' : Nat} (h : Moves L b m)
    (w : within [.rCh, .rTr, .rDrv, .rBk, .rBst, .rDg, .rDgb, .rCap, .rInt, .rMap, .mem, .frees, .asleep, .accums, .pool, .poolLast, .chans, .banks, .boost, .bcap, .jour, .sys, .cyc] L = true) :
    Moves L b (Chip.gateFire m ch') := by
  unfold Chip.gateFire
  refine Moves.ite ?_ ?_
  · assumption
  · split
    · assumption
    · extract_lets +onlyGivenNames x1
      have h2 : Moves L b x1 := by
        unfold x1
        refine Chip.dueAll_moves ?_ (within_sub w (by decide +kernel))
        assumption
      clear_value x1
      extract_lets +onlyGivenNames x3
      have h4 : Moves L b x3 := by
        unfold x3
        refine Chip.gatePend_moves ?_ (within_sub w (by decide +kernel))
        assumption
      clear_value x3
      extract_lets +onlyGivenNames x5
      clear_value x5
      extract_lets +onlyGivenNames x6
      have h7 : Moves L b x6 := by
        unfold x6
        refine Chip.setChan_moves ?_ (within_sub w (by decide +kernel))
        assumption
      clear_value x6
      extract_lets +onlyGivenNames x8
      have h9 : Moves L b x8 := by
        unfold x8
        refine Moves.ite ?_ ?_
        · refine Chip.lookLate_moves ?_ (within_sub w (by decide +kernel))
          refine Chip.mapFlag_moves ?_ (within_sub w (by decide +kernel))
          refine Chip.count_moves ?_ (within_sub w (by decide +kernel))
          assumption
        · assumption
      clear_value x8
      extract_lets +onlyGivenNames x10
      clear_value x10
      extract_lets +onlyGivenNames x11
      have h12 : Moves L b x11 := by
        unfold x11
        refine Chip.gateSet_moves ?_ (within_sub w (by decide +kernel))
        assumption
      clear_value x11
      refine Moves.ite ?_ ?_
      · refine Chip.count_moves ?_ (within_sub w (by decide +kernel))
        assumption
      · assumption

theorem Chip.cacheTick_moves {L : List Part} {b m : Chip} (h : Moves L b m)
    (w : within [.rInt, .rMap, .asleep, .accums, .map, .sys, .cyc] L = true) :
    Moves L b (Chip.cacheTick m) := by
  unfold Chip.cacheTick
  extract_lets +onlyGivenNames x1
  have h2 : Moves L b x1 := by
    unfold x1
    refine Chip.cacheLayer_moves ?_ (within_sub w (by decide +kernel))
    refine Chip.cacheLayer_moves ?_ (within_sub w (by decide +kernel))
    assumption
  clear_value x1
  extract_lets +onlyGivenNames x3
  clear_value x3
  extract_lets +onlyGivenNames x4
  have h5 : Moves L b x4 := by
    unfold x4
    refine Moves.ite ?_ ?_
    · refine Chip.mapFlag_moves ?_ (within_sub w (by decide +kernel))
      assumption
    · assumption
  clear_value x4
  extract_lets +onlyGivenNames x6
  clear_value x6
  refine Moves.ite ?_ ?_
  · assumption
  · refine Chip.mapStat_moves ?_ (within_sub w (by decide +kernel))
    refine Chip.wr_moves ?_ (within_sub w (by decide +kernel))
    assumption

theorem Chip.flushStart_moves {L : List Part} {b m : Chip} {k' : Nat} (h : Moves L b m)
    (w : within [.rMap, .map] L = true) :
    Moves L b (Chip.flushStart m k') := by
  unfold Chip.flushStart
  extract_lets +onlyGivenNames x1
  clear_value x1
  refine Moves.ite ?_ ?_
  · refine Chip.setTileState_moves ?_ (within_sub w (by decide +kernel))
    refine Chip.setTileSt_moves ?_ (within_sub w (by decide +kernel))
    assumption
  · assumption

end Sys2Proof.Machine
end

