-- ==== Sys2Proof/Laws/MovesWear.lean ====
section
/-! SUPPORT. Each operation of Machine/Wear.lean moves the block within the parts it names. -/

-- Theorem by theorem: many at once each take a thread's stack, and the package as one text ran out of them.
set_option Elab.async false

namespace Sys2Proof.Machine

theorem Chip.wearPublish_moves {L : List Part} {b m : Chip} {ch' : Nat} (h : Moves L b m)
    (w : within [.rDg] L = true) :
    Moves L b (Chip.wearPublish m ch') := by
  unfold Chip.wearPublish
  extract_lets +onlyGivenNames x1
  clear_value x1
  extract_lets +onlyGivenNames x2
  clear_value x2
  extract_lets +onlyGivenNames x3
  clear_value x3
  extract_lets +onlyGivenNames x4
  clear_value x4
  extract_lets +onlyGivenNames x5
  have h6 : Moves L b x5 := by
    unfold x5
    refine Chip.wr_moves ?_ (within_sub w (by decide +kernel))
    refine Chip.wr_moves ?_ (within_sub w (by decide +kernel))
    refine Chip.wr_moves ?_ (within_sub w (by decide +kernel))
    assumption
  clear_value x5
  extract_lets +onlyGivenNames x7
  have h8 : Moves L b x7 := by
    unfold x7
    refine Chip.wr_moves ?_ (within_sub w (by decide +kernel))
    refine Chip.wr_moves ?_ (within_sub w (by decide +kernel))
    assumption
  clear_value x7
  refine Chip.wr_moves ?_ (within_sub w (by decide +kernel))
  refine Chip.wr_moves ?_ (within_sub w (by decide +kernel))
  assumption

theorem Chip.wearTake_moves {L : List Part} {b m : Chip} {ch' : Nat} (h : Moves L b m)
    (w : within [.rDg, .chans, .wear] L = true) :
    Moves L b (Chip.wearTake m ch') := by
  unfold Chip.wearTake
  extract_lets +onlyGivenNames x1
  clear_value x1
  extract_lets +onlyGivenNames x2
  clear_value x2
  extract_lets +onlyGivenNames x3
  clear_value x3
  extract_lets +onlyGivenNames x4
  have h5 : Moves L b x4 := by
    unfold x4
    refine Chip.setDrv_moves ?_ (within_sub w (by decide +kernel))
    assumption
  clear_value x4
  refine Moves.ite ?_ ?_
  · assumption
  · refine Chip.wearPublish_moves ?_ (within_sub w (by decide +kernel))
    refine Moves.wear ?_ (within_sub w (by decide +kernel))
    assumption

theorem Chip.wearSave_moves {L : List Part} {b m : Chip} (h : Moves L b m)
    (w : within [.stamps, .nand] L = true) :
    Moves L b (Chip.wearSave m) := by
  unfold Chip.wearSave
  extract_lets +onlyGivenNames x1
  clear_value x1
  refine Moves.ite ?_ ?_
  · refine Chip.stamp_moves ?_ (within_sub w (by decide +kernel))
    refine Chip.nandDay_moves ?_ (within_sub w (by decide +kernel))
    refine Moves.nand ?_ (within_sub w (by decide +kernel))
    assumption
  · assumption

theorem Chip.bcapStep_moves {L : List Part} {b m : Chip} {vbat' : Nat} (h : Moves L b m)
    (w : within [.rBcap, .bcap] L = true) :
    Moves L b (Chip.bcapStep m vbat') := by
  unfold Chip.bcapStep
  extract_lets +onlyGivenNames x1
  clear_value x1
  extract_lets +onlyGivenNames x2
  clear_value x2
  extract_lets +onlyGivenNames x3
  clear_value x3
  extract_lets +onlyGivenNames x4
  have h5 : Moves L b x4 := by
    unfold x4
    refine Chip.wr_moves ?_ (within_sub w (by decide +kernel))
    assumption
  clear_value x4
  split
  · refine Moves.bcap ?_ (within_sub w (by decide +kernel))
    assumption
  · extract_lets +onlyGivenNames x6
    clear_value x6
    extract_lets +onlyGivenNames x7
    clear_value x7
    refine Moves.ite ?_ ?_
    · refine Moves.bcap ?_ (within_sub w (by decide +kernel))
      assumption
    · refine Chip.wr_moves ?_ (within_sub w (by decide +kernel))
      refine Moves.bcap ?_ (within_sub w (by decide +kernel))
      assumption
  · extract_lets +onlyGivenNames x8
    clear_value x8
    extract_lets +onlyGivenNames x9
    clear_value x9
    refine Chip.wr_moves ?_ (within_sub w (by decide +kernel))
    refine Chip.wr_moves ?_ (within_sub w (by decide +kernel))
    refine Moves.bcap ?_ (within_sub w (by decide +kernel))
    assumption

theorem Chip.bcapCompute_moves {L : List Part} {b m : Chip} {vbat' : Nat} (h : Moves L b m)
    (w : within [.rBcap, .bcap] L = true) :
    Moves L b (Chip.bcapCompute m vbat') := by
  unfold Chip.bcapCompute
  refine Moves.ite ?_ ?_
  · refine Chip.bcapStep_moves ?_ (within_sub w (by decide +kernel))
    assumption
  · assumption

theorem execBcapCompute_moves {L : List Part} {vbatMv' : Nat} {s t : State}
    (w : within [.rBcap, .bcap] L = true) (e : execBcapCompute vbatMv' s = .next t) :
    Moves L s.chip t.chip := by
  unfold execBcapCompute at e
  refine upd_moves (fun m => ?_) e
  refine Chip.bcapCompute_moves ?_ (within_sub w (by decide +kernel))
  exact .refl

theorem execWearSave_moves {L : List Part} {s t : State}
    (w : within [.stamps, .nand] L = true) (e : execWearSave s = .next t) :
    Moves L s.chip t.chip := by
  unfold execWearSave at e
  refine upd_moves (fun m => ?_) e
  refine Chip.wearSave_moves ?_ (within_sub w (by decide +kernel))
  exact .refl

end Sys2Proof.Machine
end

