-- ==== Sys2Proof/Laws/MovesNand.lean ====
section
/-! SUPPORT. Each operation of Machine/Nand.lean moves the block within the parts it names. -/

-- Theorem by theorem: many at once each take a thread's stack, and the package as one text ran out of them.
set_option Elab.async false

namespace Sys2Proof.Machine

theorem Chip.mstate_moves {L : List Part} {b m : Chip} {v' : Nat} (h : Moves L b m)
    (w : within [.rInt, .rNc, .asleep, .accums, .sys, .cyc] L = true) :
    Moves L b (Chip.mstate m v') := by
  unfold Chip.mstate
  refine Moves.ite ?_ ?_
  · assumption
  · refine Chip.ncFlag_moves ?_ (within_sub w (by decide +kernel))
    refine Chip.wr_moves ?_ (within_sub w (by decide +kernel))
    assumption

theorem Chip.nandUnmount_moves {L : List Part} {b m : Chip} (h : Moves L b m)
    (w : within [.rInt, .rNc, .asleep, .accums, .nand, .sys, .cyc] L = true) :
    Moves L b (Chip.nandUnmount m) := by
  unfold Chip.nandUnmount
  extract_lets +onlyGivenNames x1
  have h2 : Moves L b x1 := by
    unfold x1
    refine Chip.wr_moves ?_ (within_sub w (by decide +kernel))
    assumption
  clear_value x1
  extract_lets +onlyGivenNames x3
  clear_value x3
  extract_lets +onlyGivenNames x4
  have h5 : Moves L b x4 := by
    unfold x4
    refine Moves.nand ?_ (within_sub w (by decide +kernel))
    assumption
  clear_value x4
  refine Chip.mstate_moves ?_ (within_sub w (by decide +kernel))
  refine Chip.wr_moves ?_ (within_sub w (by decide +kernel))
  refine Chip.wr_moves ?_ (within_sub w (by decide +kernel))
  assumption

theorem Chip.setTarget_moves {L : List Part} {b m : Chip} {t' : Nat} {x' : NTarget} (h : Moves L b m)
    (w : within [.nand] L = true) :
    Moves L b (Chip.setTarget m t' x') := by
  unfold Chip.setTarget
  extract_lets +onlyGivenNames x1
  clear_value x1
  refine Moves.ite ?_ ?_
  · refine Moves.nand ?_ (within_sub w (by decide +kernel))
    assumption
  · refine Moves.nand ?_ (within_sub w (by decide +kernel))
    assumption

theorem Chip.blockUse_moves {L : List Part} {b m : Chip} {t' : Nat} {b' : Option Nat} (h : Moves L b m)
    (w : within [.nand] L = true) :
    Moves L b (Chip.blockUse m t' b') := by
  unfold Chip.blockUse
  split
  · assumption
  · extract_lets +onlyGivenNames x1
    clear_value x1
    refine Moves.ite ?_ ?_
    · assumption
    · refine Chip.setTarget_moves ?_ (within_sub w (by decide +kernel))
      assumption

theorem Chip.blockRead_moves {L : List Part} {b m : Chip} {t' : Nat} {b' : Nat} (h : Moves L b m)
    (w : within [.nand] L = true) :
    Moves L b (Chip.blockRead m t' b') := by
  unfold Chip.blockRead
  extract_lets +onlyGivenNames x1
  clear_value x1
  extract_lets +onlyGivenNames x2
  clear_value x2
  refine Chip.setTarget_moves ?_ (within_sub w (by decide +kernel))
  assumption

theorem Chip.medium_moves {L : List Part} {b m : Chip} (h : Moves L b m)
    (w : within [.rInt, .rNc, .asleep, .accums, .sys, .cyc] L = true) :
    Moves L b (Chip.medium m) := by
  unfold Chip.medium
  extract_lets +onlyGivenNames x1
  have h2 : Moves L b x1 := by
    unfold x1
    refine Chip.wrB_moves ?_ (within_sub w (by decide +kernel))
    refine Chip.wrB_moves ?_ (within_sub w (by decide +kernel))
    assumption
  clear_value x1
  extract_lets +onlyGivenNames x3
  have h4 : Moves L b x3 := by
    unfold x3
    refine Chip.wr_moves ?_ (within_sub w (by decide +kernel))
    refine Chip.wr_moves ?_ (within_sub w (by decide +kernel))
    assumption
  clear_value x3
  extract_lets +onlyGivenNames x5
  have h6 : Moves L b x5 := by
    unfold x5
    refine Chip.wr_moves ?_ (within_sub w (by decide +kernel))
    assumption
  clear_value x5
  extract_lets +onlyGivenNames x7
  have h8 : Moves L b x7 := by
    unfold x7
    refine Chip.wr_moves ?_ (within_sub w (by decide +kernel))
    assumption
  clear_value x7
  refine Moves.ite ?_ ?_
  · refine Chip.mstate_moves ?_ (within_sub w (by decide +kernel))
    assumption
  · assumption

theorem Chip.grownBad_moves {L : List Part} {b m : Chip} {t' : Nat} {b' : Nat} (h : Moves L b m)
    (w : within [.rInt, .rNc, .asleep, .accums, .nand, .sys, .cyc] L = true) :
    Moves L b (Chip.grownBad m t' b') := by
  unfold Chip.grownBad
  extract_lets +onlyGivenNames x1
  clear_value x1
  extract_lets +onlyGivenNames x2
  have h3 : Moves L b x2 := by
    unfold x2
    refine Chip.setTarget_moves ?_ (within_sub w (by decide +kernel))
    assumption
  clear_value x2
  refine Chip.medium_moves ?_ (within_sub w (by decide +kernel))
  refine Chip.ncFlag_moves ?_ (within_sub w (by decide +kernel))
  refine Chip.nandDay_moves ?_ (within_sub w (by decide +kernel))
  assumption

theorem Chip.codeword_moves {L : List Part} {b m : Chip} {t' : Nat} {b' : Nat} {corrected' : Option Nat} (h : Moves L b m)
    (w : within [.rInt, .rNc, .asleep, .accums, .nand, .sys, .cyc] L = true) :
    Moves L b (Chip.codeword m t' b' corrected') := by
  unfold Chip.codeword
  split
  · refine Chip.ncFlag_moves ?_ (within_sub w (by decide +kernel))
    refine Chip.count_moves ?_ (within_sub w (by decide +kernel))
    assumption
  · extract_lets +onlyGivenNames x1
    have h2 : Moves L b x1 := by
      unfold x1
      refine Chip.wr_moves ?_ (within_sub w (by decide +kernel))
      assumption
    clear_value x1
    extract_lets +onlyGivenNames x3
    clear_value x3
    extract_lets +onlyGivenNames x4
    have h5 : Moves L b x4 := by
      unfold x4
      refine Moves.ite ?_ ?_
      · assumption
      · refine Chip.setTarget_moves ?_ (within_sub w (by decide +kernel))
        assumption
    clear_value x4
    refine Moves.ite ?_ ?_
    · assumption
    · refine Chip.ncFlag_moves ?_ (within_sub w (by decide +kernel))
      refine Chip.count_moves ?_ (within_sub w (by decide +kernel))
      assumption

theorem Chip.patrol_moves {L : List Part} {b m : Chip} {t' : Nat} {b' : Nat} {corrected' : Option Nat} {roundEnd' : Bool} (h : Moves L b m)
    (w : within [.rInt, .rNc, .frees, .asleep, .accums, .nand, .sys, .cyc] L = true) :
    Moves L b (Chip.patrol m t' b' corrected' roundEnd') := by
  unfold Chip.patrol
  extract_lets +onlyGivenNames x1
  have h2 : Moves L b x1 := by
    unfold x1
    refine Chip.codeword_moves ?_ (within_sub w (by decide +kernel))
    refine Chip.blockRead_moves ?_ (within_sub w (by decide +kernel))
    assumption
  extract_lets +onlyGivenNames x3
  extract_lets +onlyGivenNames x4
  have h5 : Moves L b x4 := by
    unfold x4
    refine Chip.setTarget_moves ?_ (within_sub w (by decide +kernel))
    assumption
  extract_lets +onlyGivenNames x6
  extract_lets +onlyGivenNames x7
  have h8 : Moves L b x7 := by
    unfold x7
    split
    · refine Moves.nand ?_ (within_sub w (by decide +kernel))
      assumption
    · assumption
  extract_lets +onlyGivenNames x9
  have h10 : Moves L b x9 := by
    unfold x9
    refine Chip.wr_moves ?_ (within_sub w (by decide +kernel))
    refine Chip.wr_moves ?_ (within_sub w (by decide +kernel))
    assumption
  clear_value x9
  extract_lets +onlyGivenNames x11
  clear_value x11
  refine Moves.ite ?_ ?_
  · assumption
  · refine Moves.ite ?_ ?_
    · refine Chip.ncFlag_moves ?_ (within_sub w (by decide +kernel))
      refine Moves.nand ?_ (within_sub w (by decide +kernel))
      assumption
    · split
      · rename_i y12 y13 y14 q15
        have h16 : Moves L b ((y13 : Int), y14).2 := by
          rw [← q15]
          refine Chip.free_moves ?_ (within_sub w (by decide +kernel))
          assumption
        refine Chip.wr_moves ?_ (within_sub w (by decide +kernel))
        assumption

theorem Chip.targetFail_moves {L : List Part} {b m : Chip} {t' : Nat} (h : Moves L b m)
    (w : within [.rInt, .rMap, .rNc, .mem, .asleep, .accums, .map, .nand, .sys, .cyc] L = true) :
    Moves L b (Chip.targetFail m t') := by
  unfold Chip.targetFail
  extract_lets +onlyGivenNames x1
  clear_value x1
  extract_lets +onlyGivenNames x2
  have h3 : Moves L b x2 := by
    unfold x2
    refine Chip.medium_moves ?_ (within_sub w (by decide +kernel))
    refine Chip.ncFlag_moves ?_ (within_sub w (by decide +kernel))
    refine Chip.setTarget_moves ?_ (within_sub w (by decide +kernel))
    assumption
  clear_value x2
  refine Moves.ite ?_ ?_
  · refine Moves.foldl ?_ fun y4 a5 h6 => ?_
    · assumption
    · refine Moves.ite ?_ ?_
      · refine Chip.loadDone_moves ?_ (within_sub w (by decide +kernel))
        assumption
      · assumption
  · assumption

theorem Chip.wearRestore_moves {L : List Part} {b m : Chip} (h : Moves L b m)
    (w : within [.rDg, .rBcap, .wear, .bcap] L = true) :
    Moves L b (Chip.wearRestore m) := by
  unfold Chip.wearRestore
  extract_lets +onlyGivenNames x1
  have h2 : Moves L b x1 := by
    unfold x1
    refine Moves.foldl ?_ fun y3 a4 h5 => ?_
    · assumption
    · refine Moves.ite ?_ ?_
      · refine Chip.wearPublish_moves ?_ (within_sub w (by decide +kernel))
        refine Moves.wear ?_ (within_sub w (by decide +kernel))
        assumption
      · assumption
  clear_value x1
  split
  · extract_lets +onlyGivenNames x6
    clear_value x6
    refine Chip.wr_moves ?_ (within_sub w (by decide +kernel))
    refine Moves.bcap ?_ (within_sub w (by decide +kernel))
    assumption
  · assumption

theorem Chip.verifyEnd_moves {L : List Part} {b m : Chip} {t' : Nat} {b' : Nat} {corrected' : Option Nat} (h : Moves L b m)
    (w : within [.rInt, .rNc, .asleep, .accums, .nand, .sys, .cyc] L = true) :
    Moves L b (Chip.verifyEnd m t' b' corrected') := by
  unfold Chip.verifyEnd
  extract_lets +onlyGivenNames x1
  have h2 : Moves L b x1 := by
    unfold x1
    refine Chip.blockRead_moves ?_ (within_sub w (by decide +kernel))
    assumption
  clear_value x1
  extract_lets +onlyGivenNames x3
  have h4 : Moves L b x3 := by
    unfold x3
    split
    · refine Chip.wr_moves ?_ (within_sub w (by decide +kernel))
      assumption
    · assumption
  clear_value x3
  extract_lets +onlyGivenNames x5
  clear_value x5
  refine Moves.ite ?_ ?_
  · assumption
  · refine Moves.ite ?_ ?_
    · refine Chip.grownBad_moves ?_ (within_sub w (by decide +kernel))
      assumption
    · refine Chip.setTarget_moves ?_ (within_sub w (by decide +kernel))
      assumption

theorem Chip.nandDone_moves {L : List Part} {b m : Chip} {t' : Nat} {e' : NandEnd} (h : Moves L b m)
    (w : within [.rInt, .rNc, .asleep, .accums, .nand, .sys, .cyc] L = true) :
    Moves L b (Chip.nandDone m t' e') := by
  unfold Chip.nandDone
  split
  · refine Moves.ite ?_ ?_
    · refine Chip.codeword_moves ?_ (within_sub w (by decide +kernel))
      refine Chip.blockRead_moves ?_ (within_sub w (by decide +kernel))
      assumption
    · assumption
  · refine Moves.ite ?_ ?_
    · refine Chip.verifyEnd_moves ?_ (within_sub w (by decide +kernel))
      assumption
    · assumption
  · extract_lets +onlyGivenNames x1
    have h2 : Moves L b x1 := by
      unfold x1
      refine Chip.blockUse_moves ?_ (within_sub w (by decide +kernel))
      assumption
    clear_value x1
    refine Moves.ite ?_ ?_
    · assumption
    · refine Moves.ite ?_ ?_
      · refine Chip.grownBad_moves ?_ (within_sub w (by decide +kernel))
        refine Chip.ncFlag_moves ?_ (within_sub w (by decide +kernel))
        assumption
      · assumption
  · extract_lets +onlyGivenNames x3
    clear_value x3
    refine Moves.ite ?_ ?_
    · assumption
    · refine Moves.ite ?_ ?_
      · refine Chip.grownBad_moves ?_ (within_sub w (by decide +kernel))
        refine Chip.ncFlag_moves ?_ (within_sub w (by decide +kernel))
        assumption
      · refine Chip.medium_moves ?_ (within_sub w (by decide +kernel))
        refine Chip.nandDay_moves ?_ (within_sub w (by decide +kernel))
        refine Chip.setTarget_moves ?_ (within_sub w (by decide +kernel))
        assumption
  · extract_lets +onlyGivenNames x4
    clear_value x4
    refine Moves.ite ?_ ?_
    · refine Chip.medium_moves ?_ (within_sub w (by decide +kernel))
      refine Moves.nand ?_ (within_sub w (by decide +kernel))
      assumption
    · assumption

theorem Chip.mountTarget_moves {L : List Part} {b m : Chip} {t' : Nat} {p' : Option NandPage} {cut' : List NandCut} (h : Moves L b m)
    (w : within [.rInt, .rNc, .asleep, .accums, .nand, .sys, .cyc] L = true) :
    Moves L b (Chip.mountTarget m t' p' cut') := by
  unfold Chip.mountTarget
  split
  · extract_lets +onlyGivenNames x1
    clear_value x1
    refine Chip.ncFlag_moves ?_ (within_sub w (by decide +kernel))
    refine Chip.setTarget_moves ?_ (within_sub w (by decide +kernel))
    assumption
  · extract_lets +onlyGivenNames x2
    clear_value x2
    extract_lets +onlyGivenNames x3
    clear_value x3
    extract_lets +onlyGivenNames x4
    clear_value x4
    refine Chip.setTarget_moves ?_ (within_sub w (by decide +kernel))
    assumption

theorem Chip.geometry_moves {L : List Part} {b m : Chip} {ps' : List (Option NandPage)} (h : Moves L b m)
    (w : within [.rNc] L = true) :
    Moves L b (Chip.geometry m ps') := by
  unfold Chip.geometry
  split
  · assumption
  · extract_lets +onlyGivenNames x1
    have h2 : Moves L b x1 := by
      unfold x1
      refine Chip.wr_moves ?_ (within_sub w (by decide +kernel))
      refine Chip.wr_moves ?_ (within_sub w (by decide +kernel))
      assumption
    clear_value x1
    refine Chip.wr_moves ?_ (within_sub w (by decide +kernel))
    refine Chip.wr_moves ?_ (within_sub w (by decide +kernel))
    assumption

theorem Chip.nandMount_moves {L : List Part} {b m : Chip} {p0' : Option NandPage} {p1' : Option NandPage} {cut' : List NandCut} (h : Moves L b m)
    (w : within [.rDg, .rBcap, .rInt, .rNc, .asleep, .accums, .wear, .bcap, .nand, .sys, .cyc] L = true) :
    Moves L b (Chip.nandMount m p0' p1' cut') := by
  unfold Chip.nandMount
  extract_lets +onlyGivenNames x1
  have h2 : Moves L b x1 := by
    unfold x1
    refine Chip.wr_moves ?_ (within_sub w (by decide +kernel))
    assumption
  clear_value x1
  extract_lets +onlyGivenNames x3
  have h4 : Moves L b x3 := by
    unfold x3
    refine Chip.mountTarget_moves ?_ (within_sub w (by decide +kernel))
    assumption
  clear_value x3
  extract_lets +onlyGivenNames x5
  have h6 : Moves L b x5 := by
    unfold x5
    refine Moves.ite ?_ ?_
    · refine Chip.mountTarget_moves ?_ (within_sub w (by decide +kernel))
      assumption
    · assumption
  clear_value x5
  extract_lets +onlyGivenNames x7
  have h8 : Moves L b x7 := by
    unfold x7
    refine Chip.medium_moves ?_ (within_sub w (by decide +kernel))
    refine Chip.geometry_moves ?_ (within_sub w (by decide +kernel))
    assumption
  clear_value x7
  extract_lets +onlyGivenNames x9
  have h10 : Moves L b x9 := by
    unfold x9
    refine Chip.mstate_moves ?_ (within_sub w (by decide +kernel))
    assumption
  clear_value x9
  extract_lets +onlyGivenNames x11
  have h12 : Moves L b x11 := by
    unfold x11
    refine Moves.ite ?_ ?_
    · refine Chip.ncFlag_moves ?_ (within_sub w (by decide +kernel))
      assumption
    · assumption
  clear_value x11
  extract_lets +onlyGivenNames x13
  clear_value x13
  refine Moves.ite ?_ ?_
  · assumption
  · refine Moves.ite ?_ ?_
    · assumption
    · refine Chip.ncFlag_moves ?_ (within_sub w (by decide +kernel))
      refine Chip.wearRestore_moves ?_ (within_sub w (by decide +kernel))
      refine Moves.nand ?_ (within_sub w (by decide +kernel))
      assumption

theorem Chip.nandRefresh_moves {L : List Part} {b m : Chip} {t' : Nat} {uncorrectable' : Bool} (h : Moves L b m)
    (w : within [.rInt, .rNc, .asleep, .accums, .nand, .sys, .cyc] L = true) :
    Moves L b (Chip.nandRefresh m t' uncorrectable') := by
  unfold Chip.nandRefresh
  extract_lets +onlyGivenNames x1
  clear_value x1
  split
  · assumption
  · extract_lets +onlyGivenNames x2
    have h3 : Moves L b x2 := by
      unfold x2
      refine Chip.blockUse_moves ?_ (within_sub w (by decide +kernel))
      refine Chip.setTarget_moves ?_ (within_sub w (by decide +kernel))
      assumption
    clear_value x2
    refine Moves.ite ?_ ?_
    · assumption
    · refine Moves.ite ?_ ?_
      · refine Chip.grownBad_moves ?_ (within_sub w (by decide +kernel))
        refine Chip.codeword_moves ?_ (within_sub w (by decide +kernel))
        assumption
      · assumption

theorem Chip.nandEol_moves {L : List Part} {b m : Chip} (h : Moves L b m)
    (w : within [.rInt, .rNc, .stamps, .asleep, .accums, .sys, .cyc] L = true) :
    Moves L b (Chip.nandEol m) := by
  unfold Chip.nandEol
  extract_lets +onlyGivenNames x1
  have h2 : Moves L b x1 := by
    unfold x1
    refine Chip.stamp_moves ?_ (within_sub w (by decide +kernel))
    assumption
  clear_value x1
  extract_lets +onlyGivenNames x3
  clear_value x3
  extract_lets +onlyGivenNames x4
  clear_value x4
  extract_lets +onlyGivenNames x5
  clear_value x5
  extract_lets +onlyGivenNames x6
  clear_value x6
  extract_lets +onlyGivenNames x7
  clear_value x7
  extract_lets +onlyGivenNames x8
  have h9 : Moves L b x8 := by
    unfold x8
    refine Chip.wr_moves ?_ (within_sub w (by decide +kernel))
    refine Chip.wr_moves ?_ (within_sub w (by decide +kernel))
    assumption
  clear_value x8
  refine Moves.ite ?_ ?_
  · refine Chip.medium_moves ?_ (within_sub w (by decide +kernel))
    refine Chip.wr_moves ?_ (within_sub w (by decide +kernel))
    assumption
  · assumption

theorem Chip.levelMove_moves {L : List Part} {b m : Chip} {t' : Nat} (h : Moves L b m)
    (w : within [.stamps, .nand] L = true) :
    Moves L b (Chip.levelMove m t') := by
  unfold Chip.levelMove
  extract_lets +onlyGivenNames x1
  clear_value x1
  refine Moves.ite ?_ ?_
  · refine Chip.stamp_moves ?_ (within_sub w (by decide +kernel))
    refine Chip.blockUse_moves ?_ (within_sub w (by decide +kernel))
    assumption
  · assumption

theorem execNandOperationDone_moves {L : List Part} {t' : Fin 2} {e' : NandEnd} {s t : State}
    (w : within [.rInt, .rNc, .asleep, .accums, .nand, .sys, .cyc] L = true) (e : execNandOperationDone t' e' s = .next t) :
    Moves L s.chip t.chip := by
  unfold execNandOperationDone at e
  refine upd_moves (fun m => ?_) e
  refine Moves.ite ?_ ?_
  · refine Chip.nandDone_moves ?_ (within_sub w (by decide +kernel))
    exact .refl
  · exact .refl

theorem execNandTargetFail_moves {L : List Part} {t' : Fin 2} {s t : State}
    (w : within [.rInt, .rMap, .rNc, .mem, .asleep, .accums, .map, .nand, .sys, .cyc] L = true) (e : execNandTargetFail t' s = .next t) :
    Moves L s.chip t.chip := by
  unfold execNandTargetFail at e
  refine upd_moves (fun m => ?_) e
  refine Chip.targetFail_moves ?_ (within_sub w (by decide +kernel))
  exact .refl

theorem execNandPatrolRead_moves {L : List Part} {t' : Fin 2} {block' : Nat} {corrected' : Option Nat} {roundEnd' : Bool} {s t : State}
    (w : within [.rInt, .rNc, .frees, .asleep, .accums, .nand, .sys, .cyc] L = true) (e : execNandPatrolRead t' block' corrected' roundEnd' s = .next t) :
    Moves L s.chip t.chip := by
  unfold execNandPatrolRead at e
  refine upd_moves (fun m => ?_) e
  refine Chip.patrol_moves ?_ (within_sub w (by decide +kernel))
  exact .refl

theorem execNandWearLevelMove_moves {L : List Part} {t' : Fin 2} {s t : State}
    (w : within [.stamps, .nand] L = true) (e : execNandWearLevelMove t' s = .next t) :
    Moves L s.chip t.chip := by
  unfold execNandWearLevelMove at e
  refine upd_moves (fun m => ?_) e
  refine Chip.levelMove_moves ?_ (within_sub w (by decide +kernel))
  exact .refl

theorem execNandEolCompute_moves {L : List Part} {s t : State}
    (w : within [.rInt, .rNc, .stamps, .asleep, .accums, .sys, .cyc] L = true) (e : execNandEolCompute s = .next t) :
    Moves L s.chip t.chip := by
  unfold execNandEolCompute at e
  refine upd_moves (fun m => ?_) e
  refine Chip.nandEol_moves ?_ (within_sub w (by decide +kernel))
  exact .refl

theorem execNandRefresh_moves {L : List Part} {t' : Fin 2} {uncorrectable' : Bool} {s t : State}
    (w : within [.rInt, .rNc, .asleep, .accums, .nand, .sys, .cyc] L = true) (e : execNandRefresh t' uncorrectable' s = .next t) :
    Moves L s.chip t.chip := by
  unfold execNandRefresh at e
  refine upd_moves (fun m => ?_) e
  refine Chip.nandRefresh_moves ?_ (within_sub w (by decide +kernel))
  exact .refl

end Sys2Proof.Machine
end

