-- ==== Sys2Proof/Laws/MovesSupply.lean ====
section
/-! SUPPORT. Each operation of Machine/Supply.lean moves the block within the parts it names. -/

-- Theorem by theorem: many at once each take a thread's stack, and the package as one text ran out of them.
set_option Elab.async false

namespace Sys2Proof.Machine

theorem Chip.setSupply_moves {L : List Part} {b m : Chip} {n' : Nat} {x' : Supply} (h : Moves L b m)
    (w : within [.sup] L = true) :
    Moves L b (Chip.setSupply m n' x') := by
  unfold Chip.setSupply
  refine Moves.sup ?_ (within_sub w (by decide +kernel))
  assumption

theorem Chip.supUndo_moves {L : List Part} {b m : Chip} {n' : Nat} (h : Moves L b m)
    (w : within [.rSup, .cyc] L = true) :
    Moves L b (Chip.supUndo m n') := by
  unfold Chip.supUndo
  extract_lets +onlyGivenNames x1
  clear_value x1
  refine Moves.ite ?_ ?_
  · refine Chip.unsetFlag_moves ?_ (within_sub w (by decide +kernel))
    refine Chip.setCycle_moves ?_ (within_sub w (by decide +kernel))
    assumption
  · assumption

theorem Chip.supSwitch_moves {L : List Part} {b m : Chip} {n' : Nat} {on' : Bool} {pinOut' : Bool} (h : Moves L b m)
    (w : within [.rSup, .sup, .cyc] L = true) :
    Moves L b (Chip.supSwitch m n' on' pinOut') := by
  unfold Chip.supSwitch
  refine Moves.ite ?_ ?_
  · refine Chip.wr_moves ?_ (within_sub w (by decide +kernel))
    refine Chip.setSupply_moves ?_ (within_sub w (by decide +kernel))
    refine Chip.supUndo_moves ?_ (within_sub w (by decide +kernel))
    assumption
  · refine Moves.ite ?_ ?_
    · assumption
    · refine Chip.setSupply_moves ?_ (within_sub w (by decide +kernel))
      assumption

theorem Chip.supCtl_moves {L : List Part} {b m : Chip} {w' : Nat} {pinsOut' : Nat} (h : Moves L b m)
    (w : within [.rSup, .sup, .cyc] L = true) :
    Moves L b (Chip.supCtl m w' pinsOut') := by
  unfold Chip.supCtl
  refine Chip.wrFrom_moves ?_ (within_sub w (by decide +kernel))
  refine Moves.foldl ?_ fun y1 a2 h3 => ?_
  · assumption
  · refine Chip.supSwitch_moves ?_ (within_sub w (by decide +kernel))
    assumption

theorem Chip.railsDown_moves {L : List Part} {b m : Chip} {r' : Rails} (h : Moves L b m)
    (w : within [.rHp, .rMb, .rCh, .rTr, .rLat, .rDrv, .rAx, .rWhl, .rMdl, .rBk, .rBst, .rPwr, .rDg, .rDgb, .rCap, .rBcap, .rAdc, .rAs, .rCmp, .rSds, .rAin, .rFe, .rFio, .rTim, .rInt, .rSys, .rSup, .rProt, .rMap, .rNc, .tb, .mem, .isl, .stamps, .frees, .rdata, .asleep, .accums, .holdEnd, .coreV, .coreC, .whl, .mdl, .axes, .pool, .poolLast, .orderNo, .chans, .banks, .boost, .capReq, .capTb, .copies, .wear, .bcap, .jour, .recs, .fe, .fio, .tim, .adc, .assay, .cmp, .sds, .map, .saved, .nand, .mbox, .port, .gelow, .sys, .sup, .link, .refetch, .cyc] L = true) :
    Moves L b (Chip.railsDown m r') := by
  unfold Chip.railsDown
  refine Moves.ite ?_ ?_
  · refine Chip.powerOff_moves ?_ (within_sub w (by decide +kernel))
    assumption
  · assumption

theorem Chip.supDetect_moves {L : List Part} {b m : Chip} {n' : Nat} {c' : SupCond} {level' : Int} {us' : Nat} (h : Moves L b m)
    (w : within [.rInt, .rSup, .asleep, .accums, .sys, .sup, .cyc] L = true) :
    Moves L b (Chip.supDetect m n' c' level' us') := by
  unfold Chip.supDetect
  extract_lets +onlyGivenNames x1
  clear_value x1
  extract_lets +onlyGivenNames x2
  clear_value x2
  extract_lets +onlyGivenNames x3
  clear_value x3
  extract_lets +onlyGivenNames x4
  clear_value x4
  extract_lets +onlyGivenNames x5
  have h6 : Moves L b x5 := by
    unfold x5
    refine Chip.wr_moves ?_ (within_sub w (by decide +kernel))
    refine Chip.setSupply_moves ?_ (within_sub w (by decide +kernel))
    assumption
  clear_value x5
  extract_lets +onlyGivenNames x7
  clear_value x7
  refine Moves.ite ?_ ?_
  · refine Moves.ite ?_ ?_
    · assumption
    · refine Moves.ite ?_ ?_
      · refine Chip.supFlag_moves ?_ (within_sub w (by decide +kernel))
        assumption
      · refine Chip.supFlag_moves ?_ (within_sub w (by decide +kernel))
        refine Chip.setCycle_moves ?_ (within_sub w (by decide +kernel))
        assumption
  · assumption

theorem Chip.supmChange_moves {L : List Part} {b m : Chip} {b' : Nat} {mv' : Nat} {us' : Nat} (h : Moves L b m)
    (w : within [.rInt, .rSys, .asleep, .accums, .sys, .cyc] L = true) :
    Moves L b (Chip.supmChange m b' mv' us') := by
  unfold Chip.supmChange
  extract_lets +onlyGivenNames x1
  clear_value x1
  refine Moves.ite ?_ ?_
  · assumption
  · refine Moves.ite ?_ ?_
    · refine Moves.ite ?_ ?_
      · refine Chip.wr_moves ?_ (within_sub w (by decide +kernel))
        assumption
      · assumption
    · refine Moves.ite ?_ ?_
      · refine Chip.supmFlag_moves ?_ (within_sub w (by decide +kernel))
        refine Chip.wr_moves ?_ (within_sub w (by decide +kernel))
        assumption
      · assumption

theorem Chip.supplyLoss_moves {L : List Part} {b m : Chip} (h : Moves L b m)
    (w : within [.rHp, .rMb, .rCh, .rTr, .rLat, .rDrv, .rAx, .rWhl, .rMdl, .rBk, .rBst, .rPwr, .rDg, .rDgb, .rCap, .rBcap, .rAdc, .rAs, .rCmp, .rSds, .rAin, .rFe, .rFio, .rTim, .rInt, .rSys, .rSup, .rProt, .rMap, .rNc, .tb, .mem, .isl, .stamps, .frees, .rdata, .asleep, .accums, .holdEnd, .coreV, .coreC, .whl, .mdl, .axes, .pool, .poolLast, .orderNo, .chans, .banks, .boost, .capReq, .capTb, .copies, .wear, .bcap, .jour, .recs, .fe, .fio, .tim, .adc, .assay, .cmp, .sds, .map, .saved, .nand, .mbox, .port, .gelow, .sys, .sup, .link, .refetch, .cyc] L = true) :
    Moves L b (Chip.supplyLoss m) := by
  unfold Chip.supplyLoss
  extract_lets +onlyGivenNames x1
  clear_value x1
  extract_lets +onlyGivenNames x2
  have h3 : Moves L b x2 := by
    unfold x2
    refine Moves.sys ?_ (within_sub w (by decide +kernel))
    assumption
  clear_value x2
  extract_lets +onlyGivenNames x4
  have h5 : Moves L b x4 := by
    unfold x4
    refine Chip.supmFlag_moves ?_ (within_sub w (by decide +kernel))
    refine Chip.wr_moves ?_ (within_sub w (by decide +kernel))
    assumption
  clear_value x4
  extract_lets +onlyGivenNames x6
  have h7 : Moves L b x6 := by
    unfold x6
    refine Moves.sup ?_ (within_sub w (by decide +kernel))
    assumption
  clear_value x6
  extract_lets +onlyGivenNames x8
  have h9 : Moves L b x8 := by
    unfold x8
    refine Chip.drain_moves ?_ (within_sub w (by decide +kernel))
    assumption
  clear_value x8
  extract_lets +onlyGivenNames x10
  unfold x10
  clear_value x10
  extract_lets +onlyGivenNames x11
  have h12 : Moves L b x11 := by
    unfold x11
    refine Moves.upd (x := x8) ?_ (by constructor <;> first | rfl | exact .inl rfl | exact .inr (within_mem w (by decide +kernel)))
    assumption
  clear_value x11
  refine Chip.moduleReset_moves ?_ (within_sub w (by decide +kernel))
  assumption

theorem Chip.railsUp_moves {L : List Part} {b m : Chip} {r' : Rails} {nrst' : Bool} (h : Moves L b m)
    (w : within [.rHp, .rMb, .rCh, .rTr, .rLat, .rDrv, .rAx, .rWhl, .rMdl, .rBk, .rBst, .rPwr, .rDg, .rDgb, .rCap, .rBcap, .rAdc, .rAs, .rCmp, .rSds, .rAin, .rFe, .rFio, .rTim, .rInt, .rSys, .rSup, .rProt, .rMap, .rNc, .tb, .mem, .isl, .stamps, .frees, .rdata, .asleep, .accums, .holdEnd, .coreV, .coreC, .whl, .mdl, .axes, .pool, .poolLast, .orderNo, .chans, .banks, .boost, .capReq, .capTb, .copies, .wear, .bcap, .jour, .recs, .fe, .fio, .tim, .adc, .assay, .cmp, .sds, .map, .saved, .nand, .mbox, .port, .gelow, .sys, .sup, .link, .refetch, .cyc] L = true) :
    Moves L b (Chip.railsUp m r' nrst') := by
  unfold Chip.railsUp
  refine Moves.ite ?_ ?_
  · refine Chip.powerUp_moves ?_ (within_sub w (by decide +kernel))
    assumption
  · assumption

theorem Chip.supReclose_moves {L : List Part} {b m : Chip} {n' : Nat} {level' : Int} {us' : Nat} (h : Moves L b m)
    (w : within [.sup] L = true) :
    Moves L b (Chip.supReclose m n' level' us') := by
  unfold Chip.supReclose
  extract_lets +onlyGivenNames x1
  clear_value x1
  refine Moves.ite ?_ ?_
  · refine Chip.setSupply_moves ?_ (within_sub w (by decide +kernel))
    assumption
  · assumption

theorem Chip.supFltClear_moves {L : List Part} {b m : Chip} {n' : Nat} {ua' : Nat} {us' : Nat} (h : Moves L b m)
    (w : within [.rSup, .sup] L = true) :
    Moves L b (Chip.supFltClear m n' ua' us') := by
  unfold Chip.supFltClear
  extract_lets +onlyGivenNames x1
  clear_value x1
  extract_lets +onlyGivenNames x2
  clear_value x2
  refine Moves.ite ?_ ?_
  · refine Chip.wr_moves ?_ (within_sub w (by decide +kernel))
    refine Chip.setSupply_moves ?_ (within_sub w (by decide +kernel))
    assumption
  · assumption

theorem execSupplyLossDetection_moves {L : List Part} {vbsnsMv' : Nat} {vbatMv' : Nat} {heldUs' : Nat} {s t : State}
    (w : within [.rHp, .rMb, .rCh, .rTr, .rLat, .rDrv, .rAx, .rWhl, .rMdl, .rBk, .rBst, .rPwr, .rDg, .rDgb, .rCap, .rBcap, .rAdc, .rAs, .rCmp, .rSds, .rAin, .rFe, .rFio, .rTim, .rInt, .rSys, .rSup, .rProt, .rMap, .rNc, .tb, .mem, .isl, .stamps, .frees, .rdata, .asleep, .accums, .holdEnd, .coreV, .coreC, .whl, .mdl, .axes, .pool, .poolLast, .orderNo, .chans, .banks, .boost, .capReq, .capTb, .copies, .wear, .bcap, .jour, .recs, .fe, .fio, .tim, .adc, .assay, .cmp, .sds, .map, .saved, .nand, .mbox, .port, .gelow, .sys, .sup, .link, .refetch, .cyc] L = true) (e : execSupplyLossDetection vbsnsMv' vbatMv' heldUs' s = .next t) :
    Moves L s.chip t.chip := by
  unfold execSupplyLossDetection at e
  refine upd_moves (fun m => ?_) e
  refine Moves.ite ?_ ?_
  · refine Chip.supplyLoss_moves ?_ (within_sub w (by decide +kernel))
    exact .refl
  · exact .refl

theorem execPowerUp_moves {L : List Part} {r' : Rails} {nrstHigh' : Bool} {s t : State}
    (w : within [.rHp, .rMb, .rCh, .rTr, .rLat, .rDrv, .rAx, .rWhl, .rMdl, .rBk, .rBst, .rPwr, .rDg, .rDgb, .rCap, .rBcap, .rAdc, .rAs, .rCmp, .rSds, .rAin, .rFe, .rFio, .rTim, .rInt, .rSys, .rSup, .rProt, .rMap, .rNc, .tb, .mem, .isl, .stamps, .frees, .rdata, .asleep, .accums, .holdEnd, .coreV, .coreC, .whl, .mdl, .axes, .pool, .poolLast, .orderNo, .chans, .banks, .boost, .capReq, .capTb, .copies, .wear, .bcap, .jour, .recs, .fe, .fio, .tim, .adc, .assay, .cmp, .sds, .map, .saved, .nand, .mbox, .port, .gelow, .sys, .sup, .link, .refetch, .cyc] L = true) (e : execPowerUp r' nrstHigh' s = .next t) :
    Moves L s.chip t.chip := by
  unfold execPowerUp at e
  refine upd_moves (fun m => ?_) e
  refine Chip.railsUp_moves ?_ (within_sub w (by decide +kernel))
  exact .refl

theorem execSupReclose_moves {L : List Part} {n' : Sup} {level' : Int} {heldUs' : Nat} {s t : State}
    (w : within [.sup] L = true) (e : execSupReclose n' level' heldUs' s = .next t) :
    Moves L s.chip t.chip := by
  unfold execSupReclose at e
  refine upd_moves (fun m => ?_) e
  refine Chip.supReclose_moves ?_ (within_sub w (by decide +kernel))
  exact .refl

theorem execPowerLoss_moves {L : List Part} {r' : Rails} {s t : State}
    (w : within [.rHp, .rMb, .rCh, .rTr, .rLat, .rDrv, .rAx, .rWhl, .rMdl, .rBk, .rBst, .rPwr, .rDg, .rDgb, .rCap, .rBcap, .rAdc, .rAs, .rCmp, .rSds, .rAin, .rFe, .rFio, .rTim, .rInt, .rSys, .rSup, .rProt, .rMap, .rNc, .tb, .mem, .isl, .stamps, .frees, .rdata, .asleep, .accums, .holdEnd, .coreV, .coreC, .whl, .mdl, .axes, .pool, .poolLast, .orderNo, .chans, .banks, .boost, .capReq, .capTb, .copies, .wear, .bcap, .jour, .recs, .fe, .fio, .tim, .adc, .assay, .cmp, .sds, .map, .saved, .nand, .mbox, .port, .gelow, .sys, .sup, .link, .refetch, .cyc] L = true) (e : execPowerLoss r' s = .next t) :
    Moves L s.chip t.chip := by
  unfold execPowerLoss at e
  refine upd_moves (fun m => ?_) e
  refine Chip.railsDown_moves ?_ (within_sub w (by decide +kernel))
  exact .refl

theorem execSupFaultDetect_moves {L : List Part} {n' : Sup} {c' : SupCond} {level' : Int} {heldUs' : Nat} {s t : State}
    (w : within [.rInt, .rSup, .asleep, .accums, .sys, .sup, .cyc] L = true) (e : execSupFaultDetect n' c' level' heldUs' s = .next t) :
    Moves L s.chip t.chip := by
  unfold execSupFaultDetect at e
  refine upd_moves (fun m => ?_) e
  refine Chip.supDetect_moves ?_ (within_sub w (by decide +kernel))
  exact .refl

theorem execLossDetectArm_moves {L : List Part} {vbsnsMv' : Nat} {heldUs' : Nat} {s t : State}
    (w : within [.sys] L = true) (e : execLossDetectArm vbsnsMv' heldUs' s = .next t) :
    Moves L s.chip t.chip := by
  unfold execLossDetectArm at e
  refine upd_moves (fun m => ?_) e
  extract_lets +onlyGivenNames x1
  clear_value x1
  refine Moves.ite ?_ ?_
  · refine Moves.sys ?_ (within_sub w (by decide +kernel))
    exact .refl
  · exact .refl

theorem execSupFltClear_moves {L : List Part} {n' : Sup} {ua' : Nat} {heldUs' : Nat} {s t : State}
    (w : within [.rSup, .sup] L = true) (e : execSupFltClear n' ua' heldUs' s = .next t) :
    Moves L s.chip t.chip := by
  unfold execSupFltClear at e
  refine upd_moves (fun m => ?_) e
  refine Chip.supFltClear_moves ?_ (within_sub w (by decide +kernel))
  exact .refl

theorem execBoostDisconnectOpen_moves {L : List Part} {vbsnsMv' : Nat} {s t : State}
    (w : within [.sys] L = true) (e : execBoostDisconnectOpen vbsnsMv' s = .next t) :
    Moves L s.chip t.chip := by
  unfold execBoostDisconnectOpen at e
  refine upd_moves (fun m => ?_) e
  extract_lets +onlyGivenNames x1
  clear_value x1
  refine Moves.ite ?_ ?_
  · refine Moves.sys ?_ (within_sub w (by decide +kernel))
    exact .refl
  · exact .refl

theorem execSupplyMonitorChange_moves {L : List Part} {bit' : Fin 6} {mv' : Nat} {heldUs' : Nat} {s t : State}
    (w : within [.rInt, .rSys, .asleep, .accums, .sys, .cyc] L = true) (e : execSupplyMonitorChange bit' mv' heldUs' s = .next t) :
    Moves L s.chip t.chip := by
  unfold execSupplyMonitorChange at e
  refine upd_moves (fun m => ?_) e
  refine Chip.supmChange_moves ?_ (within_sub w (by decide +kernel))
  exact .refl

theorem execSupCtlWrite_moves {L : List Part} {who' : Writer} {w' : Word} {pinsOut' : BitVec 8} {s t : State}
    (w : within [.rSup, .sup, .cyc] L = true) (e : execSupCtlWrite who' w' pinsOut' s = .next t) :
    Moves L s.chip t.chip := by
  unfold execSupCtlWrite at e
  refine upd_moves (fun m => ?_) e
  refine Moves.ite ?_ ?_
  · refine Chip.supCtl_moves ?_ (within_sub w (by decide +kernel))
    exact .refl
  · exact .refl

theorem execBoostDisconnectClose_moves {L : List Part} {vbsnsMv' : Nat} {heldUs' : Nat} {s t : State}
    (w : within [.sys] L = true) (e : execBoostDisconnectClose vbsnsMv' heldUs' s = .next t) :
    Moves L s.chip t.chip := by
  unfold execBoostDisconnectClose at e
  refine upd_moves (fun m => ?_) e
  extract_lets +onlyGivenNames x1
  clear_value x1
  refine Moves.ite ?_ ?_
  · refine Moves.sys ?_ (within_sub w (by decide +kernel))
    exact .refl
  · exact .refl

end Sys2Proof.Machine
end

