-- ==== Sys2Proof/Laws/MovesHostOps.lean ====
section
/-! SUPPORT. Each operation of Machine/HostOps.lean moves the block within the parts it names. -/

-- Theorem by theorem: many at once each take a thread's stack, and the package as one text ran out of them.
set_option Elab.async false

namespace Sys2Proof.Machine

theorem Chip.headWrite_moves {L : List Part} {b m : Chip} {p' : Nat} {w' : Nat} (h : Moves L b m)
    (w : within [.rHp, .rInt, .asleep, .accums, .sys, .cyc] L = true) :
    Moves L b (Chip.headWrite m p' w') := by
  unfold Chip.headWrite
  extract_lets +onlyGivenNames x1
  clear_value x1
  refine Moves.ite ?_ ?_
  · refine Chip.wr_moves ?_ (within_sub w (by decide +kernel))
    assumption
  · refine Chip.hpFlag_moves ?_ (within_sub w (by decide +kernel))
    assumption

theorem Chip.mbChunk_moves {L : List Part} {b m : Chip} {x' : Nat} {index' : Nat} {words' : Nat} {last' : Bool} (h : Moves L b m)
    (w : within [.rMb] L = true) :
    Moves L b (Chip.mbChunk m x' index' words' last') := by
  unfold Chip.mbChunk
  refine Chip.wrB_moves ?_ (within_sub w (by decide +kernel))
  refine Chip.wr_moves ?_ (within_sub w (by decide +kernel))
  refine Chip.wr_moves ?_ (within_sub w (by decide +kernel))
  assumption

theorem Chip.setMb_moves {L : List Part} {b m : Chip} {x' : Nat} {b' : Mbox} (h : Moves L b m)
    (w : within [.mbox] L = true) :
    Moves L b (Chip.setMb m x' b') := by
  unfold Chip.setMb
  refine Moves.mbox ?_ (within_sub w (by decide +kernel))
  assumption

theorem Chip.submit_moves {L : List Part} {b m : Chip} {x' : Nat} {s' : Nat} (h : Moves L b m)
    (w : within [.rMb, .rInt, .accums, .mbox, .cyc] L = true) :
    Moves L b (Chip.submit m x' s') := by
  unfold Chip.submit
  extract_lets +onlyGivenNames x1
  have h2 : Moves L b x1 := by
    unfold x1
    refine Chip.mbChunk_moves ?_ (within_sub w (by decide +kernel))
    refine Chip.wr_moves ?_ (within_sub w (by decide +kernel))
    refine Chip.wr_moves ?_ (within_sub w (by decide +kernel))
    refine Chip.wr_moves ?_ (within_sub w (by decide +kernel))
    assumption
  clear_value x1
  refine Chip.mbState_moves ?_ (within_sub w (by decide +kernel))
  refine Chip.setMb_moves ?_ (within_sub w (by decide +kernel))
  assumption

theorem Chip.mbFlag_moves {L : List Part} {b m : Chip} {x' : Nat} {b' : Nat} (h : Moves L b m)
    (w : within [.rHp, .rInt, .asleep, .accums, .sys, .cyc] L = true) :
    Moves L b (Chip.mbFlag m x' b') := by
  unfold Chip.mbFlag
  split
  · refine Chip.hpFlag_moves ?_ (within_sub w (by decide +kernel))
    assumption
  · assumption

theorem Chip.door_moves {L : List Part} {b m : Chip} {x' : Nat} {s' : Nat} (h : Moves L b m)
    (w : within [.rHp, .rMb, .rInt, .asleep, .accums, .mbox, .sys, .cyc] L = true) :
    Moves L b (Chip.door m x' s').2 := by
  unfold Chip.door
  extract_lets +onlyGivenNames x1
  clear_value x1
  extract_lets +onlyGivenNames x2
  have h3 : Moves L b x2 := by
    unfold x2
    refine Chip.wr_moves ?_ (within_sub w (by decide +kernel))
    assumption
  clear_value x2
  refine Moves.pair ?_
  refine Moves.ite ?_ ?_
  · refine Chip.submit_moves ?_ (within_sub w (by decide +kernel))
    assumption
  · refine Moves.ite ?_ ?_
    · assumption
    · refine Chip.mbFlag_moves ?_ (within_sub w (by decide +kernel))
      assumption

theorem Chip.mbAbort_moves {L : List Part} {b m : Chip} {x' : Nat} (h : Moves L b m)
    (w : within [.rHp, .rInt, .asleep, .accums, .mbox, .sys, .cyc] L = true) :
    Moves L b (Chip.mbAbort m x') := by
  unfold Chip.mbAbort
  extract_lets +onlyGivenNames x1
  clear_value x1
  extract_lets +onlyGivenNames x2
  clear_value x2
  refine Moves.ite ?_ ?_
  · refine Chip.setMb_moves ?_ (within_sub w (by decide +kernel))
    assumption
  · refine Chip.mbFlag_moves ?_ (within_sub w (by decide +kernel))
    assumption

theorem Chip.mbNext_moves {L : List Part} {b m : Chip} {x' : Nat} (h : Moves L b m)
    (w : within [.rHp, .rMb, .mbox] L = true) :
    Moves L b (Chip.mbNext m x') := by
  unfold Chip.mbNext
  refine Moves.ite ?_ ?_
  · refine Chip.wr_moves ?_ (within_sub w (by decide +kernel))
    assumption
  · split
    · extract_lets +onlyGivenNames x1
      clear_value x1
      refine Moves.ite ?_ ?_
      · refine Chip.wr_moves ?_ (within_sub w (by decide +kernel))
        refine Chip.setMb_moves ?_ (within_sub w (by decide +kernel))
        assumption
      · assumption
    · assumption

theorem Chip.respRead_moves {L : List Part} {b m : Chip} {x' : Nat} (h : Moves L b m)
    (w : within [.rMb, .rdata] L = true) :
    Moves L b (Chip.respRead m x') := by
  unfold Chip.respRead
  extract_lets +onlyGivenNames x1
  have h2 : Moves L b x1 := by
    unfold x1
    refine Moves.ite ?_ ?_
    · refine Chip.wr_moves ?_ (within_sub w (by decide +kernel))
      assumption
    · assumption
  clear_value x1
  refine Moves.rdata ?_ (within_sub w (by decide +kernel))
  assumption

theorem Chip.respWrite_moves {L : List Part} {b m : Chip} {x' : Nat} {result' : Nat} {nacc' : Nat} {jsn' : Nat} {pay' : List Byte} (h : Moves L b m)
    (w : within [.mem] L = true) :
    Moves L b (Chip.respWrite m x' result' nacc' jsn' pay') := by
  unfold Chip.respWrite
  extract_lets +onlyGivenNames x1
  clear_value x1
  refine Chip.store_moves ?_ (within_sub w (by decide +kernel))
  refine Chip.clearMem_moves ?_ (within_sub w (by decide +kernel))
  assumption

theorem Chip.upFree_moves {L : List Part} {b m : Chip} {x' : Nat} (h : Moves L b m)
    (w : within [.rHp] L = true) :
    Moves L b (Chip.upFree m x') := by
  unfold Chip.upFree
  split
  · assumption
  · refine Moves.ite ?_ ?_
    · refine Chip.wr_moves ?_ (within_sub w (by decide +kernel))
      refine Chip.wr_moves ?_ (within_sub w (by decide +kernel))
      refine Chip.wr_moves ?_ (within_sub w (by decide +kernel))
      assumption
    · assumption

theorem Chip.mbEnd_moves {L : List Part} {b m : Chip} {x' : Nat} {st' : Nat} {reason' : Nat} {nacc' : Nat} {jsn' : Nat} {pay' : List Byte} (h : Moves L b m)
    (w : within [.rHp, .rMb, .rInt, .mem, .accums, .mbox, .gelow, .cyc] L = true) :
    Moves L b (Chip.mbEnd m x' st' reason' nacc' jsn' pay') := by
  unfold Chip.mbEnd
  extract_lets +onlyGivenNames x1
  have h2 : Moves L b x1 := by
    unfold x1
    refine Chip.respWrite_moves ?_ (within_sub w (by decide +kernel))
    refine Chip.upFree_moves ?_ (within_sub w (by decide +kernel))
    assumption
  clear_value x1
  extract_lets +onlyGivenNames x3
  clear_value x3
  extract_lets +onlyGivenNames x4
  have h5 : Moves L b x4 := by
    unfold x4
    refine Chip.setMb_moves ?_ (within_sub w (by decide +kernel))
    refine Chip.wr_moves ?_ (within_sub w (by decide +kernel))
    refine Chip.wr_moves ?_ (within_sub w (by decide +kernel))
    assumption
  clear_value x4
  extract_lets +onlyGivenNames x6
  clear_value x6
  extract_lets +onlyGivenNames x7
  have h8 : Moves L b x7 := by
    unfold x7
    refine Moves.gelow ?_ (within_sub w (by decide +kernel))
    assumption
  clear_value x7
  refine Chip.mbState_moves ?_ (within_sub w (by decide +kernel))
  assumption

theorem Chip.mbFail_moves {L : List Part} {b m : Chip} {x' : Nat} {code' : Nat} (h : Moves L b m)
    (w : within [.rHp, .rMb, .rInt, .mem, .accums, .mbox, .gelow, .cyc] L = true) :
    Moves L b (Chip.mbFail m x' code') := by
  unfold Chip.mbFail
  refine Chip.mbEnd_moves ?_ (within_sub w (by decide +kernel))
  assumption

theorem Chip.mbDone_moves {L : List Part} {b m : Chip} {x' : Nat} {reason' : Nat} {nacc' : Nat} {jsn' : Nat} {pay' : List Byte} {window' : List Byte} (h : Moves L b m)
    (w : within [.rHp, .rMb, .rInt, .mem, .accums, .mbox, .gelow, .cyc] L = true) :
    Moves L b (Chip.mbDone m x' reason' nacc' jsn' pay' window') := by
  unfold Chip.mbDone
  extract_lets +onlyGivenNames x1
  have h2 : Moves L b x1 := by
    unfold x1
    refine Moves.ite ?_ ?_
    · assumption
    · refine Chip.store_moves ?_ (within_sub w (by decide +kernel))
      assumption
  clear_value x1
  refine Chip.mbEnd_moves ?_ (within_sub w (by decide +kernel))
  refine Chip.mbChunk_moves ?_ (within_sub w (by decide +kernel))
  assumption

theorem Chip.mbAborted_moves {L : List Part} {b m : Chip} {x' : Nat} {reason' : Nat} {nacc' : Nat} {jsn' : Nat} (h : Moves L b m)
    (w : within [.rHp, .rMb, .rInt, .mem, .accums, .mbox, .gelow, .cyc] L = true) :
    Moves L b (Chip.mbAborted m x' reason' nacc' jsn') := by
  unfold Chip.mbAborted
  refine Chip.mbEnd_moves ?_ (within_sub w (by decide +kernel))
  assumption

end Sys2Proof.Machine
end

