-- ==== Sys2Proof/Laws/MovesMap.lean ====
section
/-! SUPPORT. Each operation of Machine/Map.lean moves the block within the parts it names. -/

-- Theorem by theorem: many at once each take a thread's stack, and the package as one text ran out of them.
set_option Elab.async false

namespace Sys2Proof.Machine

theorem Chip.gateOff_moves {L : List Part} {b m : Chip} {ch' : Option Nat} (h : Moves L b m)
    (w : within [.rCh, .rDrv, .rBk, .rBst, .rDg, .rDgb, .rCap, .rInt, .rMap, .frees, .asleep, .accums, .chans, .banks, .boost, .bcap, .map, .sys, .cyc] L = true) :
    Moves L b (Chip.gateOff m ch') := by
  unfold Chip.gateOff
  split
  · refine Chip.gateDisable_moves ?_ (within_sub w (by decide +kernel))
    refine Chip.wr_moves ?_ (within_sub w (by decide +kernel))
    assumption
  · refine Chip.mapStat_moves ?_ (within_sub w (by decide +kernel))
    refine Chip.gatesOff_moves ?_ (within_sub w (by decide +kernel))
    refine Chip.wr_moves ?_ (within_sub w (by decide +kernel))
    assumption

theorem execCoverageWriteback_moves {L : List Part} {s t : State}
    (w : within [.rInt, .rMap, .mem, .stamps, .asleep, .accums, .chans, .map, .sys, .cyc] L = true) (e : execCoverageWriteback s = .next t) :
    Moves L s.chip t.chip := by
  unfold execCoverageWriteback at e
  refine upd_moves (fun m => ?_) e
  refine Chip.writeBack_moves ?_ (within_sub w (by decide +kernel))
  exact .refl

theorem execMapGateDisable_moves {L : List Part} {ch' : Option Ch} {s t : State}
    (w : within [.rCh, .rDrv, .rBk, .rBst, .rDg, .rDgb, .rCap, .rInt, .rMap, .frees, .asleep, .accums, .chans, .banks, .boost, .bcap, .map, .sys, .cyc] L = true) (e : execMapGateDisable ch' s = .next t) :
    Moves L s.chip t.chip := by
  unfold execMapGateDisable at e
  refine upd_moves (fun m => ?_) e
  refine Moves.ite ?_ ?_
  · refine Chip.gateOff_moves ?_ (within_sub w (by decide +kernel))
    exact .refl
  · exact .refl

theorem execTileLoadDone_moves {L : List Part} {presc' : Bool} {slot' : Nat} {uncorrectable' : Bool} {s t : State}
    (w : within [.rInt, .rMap, .mem, .asleep, .accums, .map, .sys, .cyc] L = true) (e : execTileLoadDone presc' slot' uncorrectable' s = .next t) :
    Moves L s.chip t.chip := by
  unfold execTileLoadDone at e
  refine upd_moves (fun m => ?_) e
  split
  · exact .refl
  · refine Moves.ite ?_ ?_
    · refine Chip.loadDone_moves ?_ (within_sub w (by decide +kernel))
      exact .refl
    · exact .refl

theorem execGateActionsCommit_moves {L : List Part} {ch' : Ch} {s t : State}
    (w : within [.rTr, .rMap, .mem, .chans, .map] L = true) (e : execGateActionsCommit ch' s = .next t) :
    Moves L s.chip t.chip := by
  unfold execGateActionsCommit at e
  refine upd_moves (fun m => ?_) e
  refine Chip.gateCommit_moves ?_ (within_sub w (by decide +kernel))
  exact .refl

theorem execTileFlushStart_moves {L : List Part} {slot' : Fin 24} {s t : State}
    (w : within [.rMap, .map] L = true) (e : execTileFlushStart slot' s = .next t) :
    Moves L s.chip t.chip := by
  unfold execTileFlushStart at e
  refine upd_moves (fun m => ?_) e
  refine Chip.flushStart_moves ?_ (within_sub w (by decide +kernel))
  exact .refl

theorem execTileFlushCommit_moves {L : List Part} {slot' : Fin 24} {r' : FlushEnd} {s t : State}
    (w : within [.rInt, .rMap, .frees, .asleep, .accums, .map, .nand, .sys, .cyc] L = true) (e : execTileFlushCommit slot' r' s = .next t) :
    Moves L s.chip t.chip := by
  unfold execTileFlushCommit at e
  refine upd_moves (fun m => ?_) e
  refine Moves.ite ?_ ?_
  · refine Chip.flushEnd_moves ?_ (within_sub w (by decide +kernel))
    exact .refl
  · exact .refl

theorem execGateActionFire_moves {L : List Part} {ch' : Ch} {s t : State}
    (w : within [.rCh, .rTr, .rDrv, .rBk, .rBst, .rDg, .rDgb, .rCap, .rInt, .rMap, .mem, .frees, .asleep, .accums, .pool, .poolLast, .chans, .banks, .boost, .bcap, .jour, .sys, .cyc] L = true) (e : execGateActionFire ch' s = .next t) :
    Moves L s.chip t.chip := by
  unfold execGateActionFire at e
  refine upd_moves (fun m => ?_) e
  refine Chip.gateFire_moves ?_ (within_sub w (by decide +kernel))
  exact .refl

theorem execMapScan_moves {L : List Part} {s t : State}
    (w : within [.rCh, .rDrv, .rBk, .rBst, .rDg, .rDgb, .rCap, .rInt, .rMap, .mem, .stamps, .frees, .asleep, .accums, .chans, .banks, .boost, .bcap, .map, .sys, .cyc] L = true) (e : execMapScan s = .next t) :
    Moves L s.chip t.chip := by
  unfold execMapScan at e
  refine upd_moves (fun m => ?_) e
  refine Chip.mapScan_moves ?_ (within_sub w (by decide +kernel))
  exact .refl

end Sys2Proof.Machine
end

