-- ==== Sys2Proof/Laws/MovesTimers.lean ====
section
/-! SUPPORT. Each operation of Machine/Timers.lean moves the block within the parts it names. -/

-- Theorem by theorem: many at once each take a thread's stack, and the package as one text ran out of them.
set_option Elab.async false

namespace Sys2Proof.Machine

theorem Chip.setTmr_moves {L : List Part} {b m : Chip} {n' : Nat} {x' : Tmr} (h : Moves L b m)
    (w : within [.tim] L = true) :
    Moves L b (Chip.setTmr m n' x') := by
  unfold Chip.setTmr
  refine Moves.tim ?_ (within_sub w (by decide +kernel))
  assumption

theorem Chip.timOut_moves {L : List Part} {b m : Chip} {n' : Nat} (h : Moves L b m)
    (w : within [.rTim] L = true) :
    Moves L b (Chip.timOut m n') := by
  unfold Chip.timOut
  extract_lets +onlyGivenNames x1
  clear_value x1
  extract_lets +onlyGivenNames x2
  clear_value x2
  refine Chip.wrB_moves ?_ (within_sub w (by decide +kernel))
  assumption

theorem Chip.timRun_moves {L : List Part} {b m : Chip} {n' : Nat} (h : Moves L b m)
    (w : within [.rTim] L = true) :
    Moves L b (Chip.timRun m n') := by
  unfold Chip.timRun
  refine Chip.wrB_moves ?_ (within_sub w (by decide +kernel))
  assumption

theorem Chip.timFreeze_moves {L : List Part} {b m : Chip} {n' : Nat} (h : Moves L b m)
    (w : within [.rTim, .tim] L = true) :
    Moves L b (Chip.timFreeze m n') := by
  unfold Chip.timFreeze
  extract_lets +onlyGivenNames x1
  clear_value x1
  extract_lets +onlyGivenNames x2
  clear_value x2
  extract_lets +onlyGivenNames x3
  clear_value x3
  extract_lets +onlyGivenNames x4
  have h5 : Moves L b x4 := by
    unfold x4
    refine Moves.ite ?_ ?_
    · refine Chip.setTmr_moves ?_ (within_sub w (by decide +kernel))
      refine Chip.wr_moves ?_ (within_sub w (by decide +kernel))
      assumption
    · refine Moves.ite ?_ ?_
      · refine Chip.setTmr_moves ?_ (within_sub w (by decide +kernel))
        refine Chip.wr_moves ?_ (within_sub w (by decide +kernel))
        assumption
      · assumption
  clear_value x4
  refine Chip.timRun_moves ?_ (within_sub w (by decide +kernel))
  assumption

theorem Chip.timWrite_moves {L : List Part} {b m : Chip} {n' : Nat} {w' : Nat} {cnt' : Bool} (h : Moves L b m)
    (w : within [.rHp, .rMb, .rCh, .rTr, .rLat, .rDrv, .rAx, .rWhl, .rMdl, .rBk, .rBst, .rPwr, .rDg, .rDgb, .rCap, .rBcap, .rAdc, .rAs, .rCmp, .rSds, .rAin, .rFe, .rFio, .rTim, .rInt, .rSys, .rSup, .rProt, .rMap, .rNc, .tim, .cyc] L = true) :
    Moves L b (Chip.timWrite m n' w' cnt') := by
  unfold Chip.timWrite
  extract_lets +onlyGivenNames x1
  clear_value x1
  extract_lets +onlyGivenNames x2
  clear_value x2
  extract_lets +onlyGivenNames x3
  have h4 : Moves L b x3 := by
    unfold x3
    refine Chip.setCycle_moves ?_ (within_sub w (by decide +kernel))
    assumption
  clear_value x3
  extract_lets +onlyGivenNames x5
  clear_value x5
  extract_lets +onlyGivenNames x6
  have h7 : Moves L b x6 := by
    unfold x6
    refine Moves.foldl ?_ fun y8 a9 h10 => ?_
    · assumption
    · refine Chip.wrFrom_moves ?_ (within_field _ (within_sub w (by decide +kernel)))
      assumption
  clear_value x6
  extract_lets +onlyGivenNames x11
  have h12 : Moves L b x11 := by
    unfold x11
    refine Moves.ite ?_ ?_
    · refine Chip.setTmr_moves ?_ (within_sub w (by decide +kernel))
      assumption
    · assumption
  clear_value x11
  extract_lets +onlyGivenNames x13
  have h14 : Moves L b x13 := by
    unfold x13
    refine Moves.ite ?_ ?_
    · refine Chip.wr_moves ?_ (within_sub w (by decide +kernel))
      assumption
    · assumption
  clear_value x13
  refine Moves.ite ?_ ?_
  · refine Chip.setTmr_moves ?_ (within_sub w (by decide +kernel))
    refine Chip.wr_moves ?_ (within_sub w (by decide +kernel))
    assumption
  · refine Chip.timOut_moves ?_ (within_sub w (by decide +kernel))
    refine Chip.timFreeze_moves ?_ (within_sub w (by decide +kernel))
    assumption

theorem Chip.timRead_moves {L : List Part} {b m : Chip} {n' : Nat} (h : Moves L b m)
    (w : within [.rTim, .rdata, .cyc] L = true) :
    Moves L b (Chip.timRead m n') := by
  unfold Chip.timRead
  refine Moves.ite ?_ ?_
  · split
    · extract_lets +onlyGivenNames x1
      have h2 : Moves L b x1 := by
        unfold x1
        refine Chip.wrTb_moves ?_ (within_sub w (by decide +kernel))
        assumption
      clear_value x1
      extract_lets +onlyGivenNames x3
      have h4 : Moves L b x3 := by
        unfold x3
        refine Moves.ite ?_ ?_
        · refine Chip.unsetFlag_moves ?_ (within_sub w (by decide +kernel))
          assumption
        · assumption
      clear_value x3
      refine Moves.rdata ?_ (within_sub w (by decide +kernel))
      assumption
    · extract_lets +onlyGivenNames x5
      have h6 : Moves L b x5 := by
        unfold x5
        refine Chip.wr_moves ?_ (within_sub w (by decide +kernel))
        refine Chip.wrTb_moves ?_ (within_sub w (by decide +kernel))
        assumption
      clear_value x5
      refine Moves.rdata ?_ (within_sub w (by decide +kernel))
      assumption
  · refine Moves.rdata ?_ (within_sub w (by decide +kernel))
    assumption

theorem Chip.timSet_moves {L : List Part} {b m : Chip} {n' : Nat} {v' : Nat} {wrapped' : Bool} (h : Moves L b m)
    (w : within [.rTim, .rInt, .asleep, .accums, .tim, .sys, .cyc] L = true) :
    Moves L b (Chip.timSet m n' v' wrapped') := by
  unfold Chip.timSet
  extract_lets +onlyGivenNames x1
  clear_value x1
  extract_lets +onlyGivenNames x2
  clear_value x2
  extract_lets +onlyGivenNames x3
  have h4 : Moves L b x3 := by
    unfold x3
    refine Chip.wr_moves ?_ (within_sub w (by decide +kernel))
    assumption
  clear_value x3
  extract_lets +onlyGivenNames x5
  have h6 : Moves L b x5 := by
    unfold x5
    refine Chip.setTmr_moves ?_ (within_sub w (by decide +kernel))
    assumption
  clear_value x5
  extract_lets +onlyGivenNames x7
  have h8 : Moves L b x7 := by
    unfold x7
    refine Chip.timOut_moves ?_ (within_sub w (by decide +kernel))
    assumption
  clear_value x7
  extract_lets +onlyGivenNames x9
  have h10 : Moves L b x9 := by
    unfold x9
    refine Moves.ite ?_ ?_
    · refine Chip.timFlag_moves ?_ (within_sub w (by decide +kernel))
      assumption
    · assumption
  clear_value x9
  refine Moves.ite ?_ ?_
  · refine Chip.timFlag_moves ?_ (within_sub w (by decide +kernel))
    assumption
  · assumption

theorem Chip.timCount_moves {L : List Part} {b m : Chip} {n' : Nat} (h : Moves L b m)
    (w : within [.rTim, .rInt, .asleep, .accums, .tim, .sys, .cyc] L = true) :
    Moves L b (Chip.timCount m n') := by
  unfold Chip.timCount
  extract_lets +onlyGivenNames x1
  clear_value x1
  extract_lets +onlyGivenNames x2
  clear_value x2
  extract_lets +onlyGivenNames x3
  clear_value x3
  extract_lets +onlyGivenNames x4
  clear_value x4
  refine Moves.ite ?_ ?_
  · refine Moves.ite ?_ ?_
    · refine Chip.timSet_moves ?_ (within_sub w (by decide +kernel))
      assumption
    · refine Chip.timSet_moves ?_ (within_sub w (by decide +kernel))
      assumption
  · refine Moves.ite ?_ ?_
    · refine Moves.ite ?_ ?_
      · refine Chip.wr_moves ?_ (within_sub w (by decide +kernel))
        refine Chip.wr_moves ?_ (within_sub w (by decide +kernel))
        refine Chip.timFlag_moves ?_ (within_sub w (by decide +kernel))
        assumption
      · refine Moves.ite ?_ ?_
        · refine Chip.wr_moves ?_ (within_sub w (by decide +kernel))
          refine Chip.wr_moves ?_ (within_sub w (by decide +kernel))
          refine Chip.timSet_moves ?_ (within_sub w (by decide +kernel))
          assumption
        · refine Chip.timSet_moves ?_ (within_sub w (by decide +kernel))
          assumption
    · refine Chip.timSet_moves ?_ (within_sub w (by decide +kernel))
      assumption

theorem Chip.timEdge_moves {L : List Part} {b m : Chip} {n' : Nat} (h : Moves L b m)
    (w : within [.rTim, .rInt, .asleep, .accums, .tim, .sys, .cyc] L = true) :
    Moves L b (Chip.timEdge m n') := by
  unfold Chip.timEdge
  extract_lets +onlyGivenNames x1
  clear_value x1
  refine Moves.ite ?_ ?_
  · refine Chip.setTmr_moves ?_ (within_sub w (by decide +kernel))
    assumption
  · refine Chip.timCount_moves ?_ (within_sub w (by decide +kernel))
    refine Chip.setTmr_moves ?_ (within_sub w (by decide +kernel))
    assumption

theorem Chip.timTick_moves {L : List Part} {b m : Chip} {n' : Nat} (h : Moves L b m)
    (w : within [.rTim, .rInt, .asleep, .accums, .tim, .sys, .cyc] L = true) :
    Moves L b (Chip.timTick m n') := by
  unfold Chip.timTick
  extract_lets +onlyGivenNames x1
  clear_value x1
  extract_lets +onlyGivenNames x2
  clear_value x2
  refine Moves.ite ?_ ?_
  · refine Moves.ite ?_ ?_
    · refine Moves.ite ?_ ?_
      · assumption
      · refine Chip.timEdge_moves ?_ (within_sub w (by decide +kernel))
        assumption
    · refine Moves.ite ?_ ?_
      · refine Chip.timCount_moves ?_ (within_sub w (by decide +kernel))
        refine Chip.setTmr_moves ?_ (within_sub w (by decide +kernel))
        assumption
      · assumption
  · assumption

theorem Chip.timCapture_moves {L : List Part} {b m : Chip} {n' : Nat} {rising' : Bool} (h : Moves L b m)
    (w : within [.rTim, .rInt, .asleep, .accums, .tim, .sys, .cyc] L = true) :
    Moves L b (Chip.timCapture m n' rising') := by
  unfold Chip.timCapture
  extract_lets +onlyGivenNames x1
  clear_value x1
  extract_lets +onlyGivenNames x2
  clear_value x2
  extract_lets +onlyGivenNames x3
  clear_value x3
  extract_lets +onlyGivenNames x4
  clear_value x4
  extract_lets +onlyGivenNames x5
  have h6 : Moves L b x5 := by
    unfold x5
    refine Chip.setCycle_moves ?_ (within_sub w (by decide +kernel))
    assumption
  clear_value x5
  extract_lets +onlyGivenNames x7
  have h8 : Moves L b x7 := by
    unfold x7
    refine Moves.ite ?_ ?_
    · refine Chip.timFlag_moves ?_ (within_sub w (by decide +kernel))
      assumption
    · assumption
  clear_value x7
  extract_lets +onlyGivenNames x9
  have h10 : Moves L b x9 := by
    unfold x9
    refine Chip.wr_moves ?_ (within_sub w (by decide +kernel))
    refine Chip.wr_moves ?_ (within_sub w (by decide +kernel))
    assumption
  clear_value x9
  extract_lets +onlyGivenNames x11
  clear_value x11
  refine Moves.ite ?_ ?_
  · refine Chip.timFlag_moves ?_ (within_sub w (by decide +kernel))
    refine Chip.setTmr_moves ?_ (within_sub w (by decide +kernel))
    assumption
  · assumption

theorem Chip.debugHalt_moves {L : List Part} {b m : Chip} {k' : Core} {halt' : Bool} (h : Moves L b m)
    (w : within [.rTim, .coreV, .coreC, .tim] L = true) :
    Moves L b (Chip.debugHalt m k' halt') := by
  unfold Chip.debugHalt
  extract_lets +onlyGivenNames x1
  clear_value x1
  extract_lets +onlyGivenNames x2
  clear_value x2
  extract_lets +onlyGivenNames x3
  clear_value x3
  extract_lets +onlyGivenNames x4
  have h5 : Moves L b x4 := by
    unfold x4
    split
    · refine Moves.coreC ?_ (within_sub w (by decide +kernel))
      assumption
    · refine Moves.coreV ?_ (within_sub w (by decide +kernel))
      assumption
  clear_value x4
  refine Moves.ite ?_ ?_
  · refine Moves.foldl ?_ fun y6 a7 h8 => ?_
    · assumption
    · refine Chip.timFreeze_moves ?_ (within_sub w (by decide +kernel))
      assumption
  · assumption

theorem execTimCapRead_moves {L : List Part} {n' : Tim} {s t : State}
    (w : within [.rTim, .rdata, .cyc] L = true) (e : execTimCapRead n' s = .next t) :
    Moves L s.chip t.chip := by
  unfold execTimCapRead at e
  refine upd_moves (fun m => ?_) e
  refine Chip.timRead_moves ?_ (within_sub w (by decide +kernel))
  exact .refl

theorem execTimerFreeze_moves {L : List Part} {core' : Core} {halt' : Bool} {s t : State}
    (w : within [.rTim, .coreV, .coreC, .tim] L = true) (e : execTimerFreeze core' halt' s = .next t) :
    Moves L s.chip t.chip := by
  unfold execTimerFreeze at e
  refine upd_moves (fun m => ?_) e
  refine Chip.debugHalt_moves ?_ (within_sub w (by decide +kernel))
  exact .refl

theorem execTimerCapture_moves {L : List Part} {n' : Tim} {rising' : Bool} {s t : State}
    (w : within [.rTim, .rInt, .asleep, .accums, .tim, .sys, .cyc] L = true) (e : execTimerCapture n' rising' s = .next t) :
    Moves L s.chip t.chip := by
  unfold execTimerCapture at e
  refine upd_moves (fun m => ?_) e
  refine Chip.timCapture_moves ?_ (within_sub w (by decide +kernel))
  exact .refl

theorem execTimerCtlWrite_moves {L : List Part} {who' : Writer} {n' : Tim} {cnt' : Bool} {w' : Word} {s t : State}
    (w : within [.rHp, .rMb, .rCh, .rTr, .rLat, .rDrv, .rAx, .rWhl, .rMdl, .rBk, .rBst, .rPwr, .rDg, .rDgb, .rCap, .rBcap, .rAdc, .rAs, .rCmp, .rSds, .rAin, .rFe, .rFio, .rTim, .rInt, .rSys, .rSup, .rProt, .rMap, .rNc, .tim, .cyc] L = true) (e : execTimerCtlWrite who' n' cnt' w' s = .next t) :
    Moves L s.chip t.chip := by
  unfold execTimerCtlWrite at e
  refine upd_moves (fun m => ?_) e
  refine Moves.ite ?_ ?_
  · refine Chip.timWrite_moves ?_ (within_sub w (by decide +kernel))
    exact .refl
  · exact .refl

theorem execTimerTick_moves {L : List Part} {n' : Tim} {s t : State}
    (w : within [.rTim, .rInt, .asleep, .accums, .tim, .sys, .cyc] L = true) (e : execTimerTick n' s = .next t) :
    Moves L s.chip t.chip := by
  unfold execTimerTick at e
  refine upd_moves (fun m => ?_) e
  refine Chip.timTick_moves ?_ (within_sub w (by decide +kernel))
  exact .refl

end Sys2Proof.Machine
end

