-- ==== Sys2Proof/Laws/MovesWheelOps.lean ====
section
/-! SUPPORT. Each operation of Machine/WheelOps.lean moves the block within the parts it names. -/

-- Theorem by theorem: many at once each take a thread's stack, and the package as one text ran out of them.
set_option Elab.async false

namespace Sys2Proof.Machine

theorem Chip.whlTo_moves {L : List Part} {b m : Chip} {n' : Nat} {st' : Nat} (h : Moves L b m)
    (w : within [.rWhl] L = true) :
    Moves L b (Chip.whlTo m n' st') := by
  unfold Chip.whlTo
  refine Chip.wrB_moves ?_ (within_sub w (by decide +kernel))
  refine Chip.wr_moves ?_ (within_sub w (by decide +kernel))
  assumption

theorem Chip.setWheel_moves {L : List Part} {b m : Chip} {n' : Nat} {w' : Wheel} (h : Moves L b m)
    (w : within [.whl] L = true) :
    Moves L b (Chip.setWheel m n' w') := by
  unfold Chip.setWheel
  refine Moves.whl ?_ (within_sub w (by decide +kernel))
  assumption

theorem Chip.whlFail_moves {L : List Part} {b m : Chip} {n' : Nat} (h : Moves L b m)
    (w : within [.rWhl, .rMdl, .rInt, .asleep, .accums, .sys, .cyc] L = true) :
    Moves L b (Chip.whlFail m n') := by
  unfold Chip.whlFail
  extract_lets +onlyGivenNames x1
  have h2 : Moves L b x1 := by
    unfold x1
    refine Chip.whlFlag_moves ?_ (within_sub w (by decide +kernel))
    refine Chip.whlTo_moves ?_ (within_sub w (by decide +kernel))
    assumption
  clear_value x1
  refine Moves.ite ?_ ?_
  · refine Moves.ite ?_ ?_
    · refine Chip.slotsLoseWheel_moves ?_ (within_sub w (by decide +kernel))
      assumption
    · assumption
  · assumption

theorem Chip.whlCondFault_moves {L : List Part} {b m : Chip} {n' : Nat} {was' : Bool} (h : Moves L b m)
    (w : within [.rWhl, .rMdl, .rInt, .asleep, .accums, .whl, .sys, .cyc] L = true) :
    Moves L b (Chip.whlCondFault m n' was') := by
  unfold Chip.whlCondFault
  extract_lets +onlyGivenNames x1
  clear_value x1
  extract_lets +onlyGivenNames x2
  clear_value x2
  extract_lets +onlyGivenNames x3
  have h4 : Moves L b x3 := by
    unfold x3
    refine Moves.ite ?_ ?_
    · refine Chip.setWheel_moves ?_ (within_sub w (by decide +kernel))
      assumption
    · assumption
  clear_value x3
  refine Moves.ite ?_ ?_
  · refine Chip.whlFail_moves ?_ (within_sub w (by decide +kernel))
    assumption
  · assumption

theorem Chip.whlAdopt_moves {L : List Part} {b m : Chip} {n' : Nat} (h : Moves L b m)
    (w : within [.whl] L = true) :
    Moves L b (Chip.whlAdopt m n') := by
  unfold Chip.whlAdopt
  extract_lets +onlyGivenNames x1
  clear_value x1
  refine Chip.setWheel_moves ?_ (within_sub w (by decide +kernel))
  assumption

theorem Chip.whlDelta_moves {L : List Part} {b m : Chip} {n' : Nat} {l' : Nat} (h : Moves L b m)
    (w : within [.rWhl, .rInt, .frees, .asleep, .accums, .whl, .sys, .cyc] L = true) :
    Moves L b (Chip.whlDelta m n' l') := by
  unfold Chip.whlDelta
  extract_lets +onlyGivenNames x1
  clear_value x1
  extract_lets +onlyGivenNames x2
  clear_value x2
  extract_lets +onlyGivenNames x3
  clear_value x3
  extract_lets +onlyGivenNames x4
  have h5 : Moves L b x4 := by
    unfold x4
    refine Chip.wrFit_moves ?_ (within_sub w (by decide +kernel))
    refine Chip.wr_moves ?_ (within_sub w (by decide +kernel))
    assumption
  clear_value x4
  refine Moves.ite ?_ ?_
  · assumption
  · refine Chip.whlFlag_moves ?_ (within_sub w (by decide +kernel))
    refine Chip.count_moves ?_ (within_sub w (by decide +kernel))
    refine Chip.setWheel_moves ?_ (within_sub w (by decide +kernel))
    assumption

theorem Chip.whlAngle_moves {L : List Part} {b m : Chip} {n' : Nat} {base' : Int} (h : Moves L b m)
    (w : within [.rWhl] L = true) :
    Moves L b (Chip.whlAngle m n' base') := by
  unfold Chip.whlAngle
  extract_lets +onlyGivenNames x1
  clear_value x1
  refine Chip.wrI_moves ?_ (within_sub w (by decide +kernel))
  refine Chip.wrI_moves ?_ (within_sub w (by decide +kernel))
  assumption

theorem Chip.whlFrame_moves {L : List Part} {b m : Chip} {n' : Nat} {ref' : Nat} (h : Moves L b m)
    (w : within [.rWhl, .whl] L = true) :
    Moves L b (Chip.whlFrame m n' ref') := by
  unfold Chip.whlFrame
  extract_lets +onlyGivenNames x1
  clear_value x1
  extract_lets +onlyGivenNames x2
  clear_value x2
  extract_lets +onlyGivenNames x3
  clear_value x3
  extract_lets +onlyGivenNames x4
  clear_value x4
  extract_lets +onlyGivenNames x5
  clear_value x5
  extract_lets +onlyGivenNames x6
  have h7 : Moves L b x6 := by
    unfold x6
    refine Chip.setWheel_moves ?_ (within_sub w (by decide +kernel))
    assumption
  clear_value x6
  refine Moves.ite ?_ ?_
  · refine Chip.setWheel_moves ?_ (within_sub w (by decide +kernel))
    assumption
  · refine Chip.whlAngle_moves ?_ (within_sub w (by decide +kernel))
    assumption

theorem Chip.whlAcquire_moves {L : List Part} {b m : Chip} {n' : Nat} {ref' : Nat} (h : Moves L b m)
    (w : within [.rWhl, .rInt, .asleep, .accums, .whl, .sys, .cyc] L = true) :
    Moves L b (Chip.whlAcquire m n' ref') := by
  unfold Chip.whlAcquire
  extract_lets +onlyGivenNames x1
  have h2 : Moves L b x1 := by
    unfold x1
    refine Chip.whlTo_moves ?_ (within_sub w (by decide +kernel))
    refine Chip.whlFrame_moves ?_ (within_sub w (by decide +kernel))
    assumption
  clear_value x1
  extract_lets +onlyGivenNames x3
  clear_value x3
  refine Chip.whlFlag_moves ?_ (within_sub w (by decide +kernel))
  refine Chip.setWheel_moves ?_ (within_sub w (by decide +kernel))
  assumption

theorem Chip.whlSuspectBy_moves {L : List Part} {b m : Chip} {n' : Nat} {mism' : Option Nat} {missing' : Nat} (h : Moves L b m)
    (w : within [.rWhl, .rInt, .asleep, .accums, .whl, .sys, .cyc] L = true) :
    Moves L b (Chip.whlSuspectBy m n' mism' missing') := by
  unfold Chip.whlSuspectBy
  extract_lets +onlyGivenNames x1
  have h2 : Moves L b x1 := by
    unfold x1
    refine Chip.whlFlag_moves ?_ (within_sub w (by decide +kernel))
    refine Chip.count_moves ?_ (within_sub w (by decide +kernel))
    refine Chip.whlTo_moves ?_ (within_sub w (by decide +kernel))
    assumption
  clear_value x1
  extract_lets +onlyGivenNames x3
  clear_value x3
  refine Chip.setWheel_moves ?_ (within_sub w (by decide +kernel))
  assumption

theorem Chip.whlLose_moves {L : List Part} {b m : Chip} {n' : Nat} (h : Moves L b m)
    (w : within [.rWhl, .rInt, .asleep, .accums, .whl, .sys, .cyc] L = true) :
    Moves L b (Chip.whlLose m n') := by
  unfold Chip.whlLose
  refine Chip.whlFlag_moves ?_ (within_sub w (by decide +kernel))
  refine Chip.whlFrame_moves ?_ (within_sub w (by decide +kernel))
  refine Chip.whlTo_moves ?_ (within_sub w (by decide +kernel))
  assumption

theorem Chip.whlRefState_moves {L : List Part} {b m : Chip} {n' : Nat} {l' : Nat} {prev' : Option Nat} (h : Moves L b m)
    (w : within [.rWhl, .rInt, .asleep, .accums, .whl, .sys, .cyc] L = true) :
    Moves L b (Chip.whlRefState m n' l' prev') := by
  unfold Chip.whlRefState
  extract_lets +onlyGivenNames x1
  clear_value x1
  extract_lets +onlyGivenNames x2
  clear_value x2
  extract_lets +onlyGivenNames x3
  clear_value x3
  extract_lets +onlyGivenNames x4
  clear_value x4
  extract_lets +onlyGivenNames x5
  clear_value x5
  extract_lets +onlyGivenNames x6
  clear_value x6
  extract_lets +onlyGivenNames x7
  have h8 : Moves L b x7 := by
    unfold x7
    refine Chip.wrSat_moves ?_ (within_sub w (by decide +kernel))
    assumption
  clear_value x7
  extract_lets +onlyGivenNames x9
  have h10 : Moves L b x9 := by
    unfold x9
    refine Chip.whlTo_moves ?_ (within_sub w (by decide +kernel))
    refine Chip.whlFrame_moves ?_ (within_sub w (by decide +kernel))
    assumption
  clear_value x9
  extract_lets +onlyGivenNames x11
  clear_value x11
  extract_lets +onlyGivenNames x12
  have h13 : Moves L b x12 := by
    unfold x12
    refine Chip.whlLose_moves ?_ (within_sub w (by decide +kernel))
    assumption
  clear_value x12
  refine Moves.ite ?_ ?_
  · assumption
  · refine Moves.ite ?_ ?_
    · refine Moves.ite ?_ ?_
      · split
        · refine Moves.ite ?_ ?_
          · refine Chip.wrI_moves ?_ (within_sub w (by decide +kernel))
            refine Chip.whlAcquire_moves ?_ (within_sub w (by decide +kernel))
            assumption
          · assumption
        · assumption
      · refine Chip.wrI_moves ?_ (within_sub w (by decide +kernel))
        refine Chip.whlAcquire_moves ?_ (within_sub w (by decide +kernel))
        assumption
    · refine Moves.ite ?_ ?_
      · refine Moves.ite ?_ ?_
        · refine Moves.ite ?_ ?_
          · refine Moves.ite ?_ ?_
            · refine Chip.whlFlag_moves ?_ (within_sub w (by decide +kernel))
              refine Chip.whlFrame_moves ?_ (within_sub w (by decide +kernel))
              assumption
            · assumption
          · refine Chip.whlSuspectBy_moves ?_ (within_sub w (by decide +kernel))
            assumption
        · refine Moves.ite ?_ ?_
          · refine Chip.setWheel_moves ?_ (within_sub w (by decide +kernel))
            refine Chip.whlTo_moves ?_ (within_sub w (by decide +kernel))
            assumption
          · refine Moves.ite ?_ ?_
            · refine Chip.whlFlag_moves ?_ (within_sub w (by decide +kernel))
              refine Chip.setWheel_moves ?_ (within_sub w (by decide +kernel))
              assumption
            · refine Moves.ite ?_ ?_
              · assumption
              · refine Chip.wrI_moves ?_ (within_sub w (by decide +kernel))
                refine Chip.whlAcquire_moves ?_ (within_sub w (by decide +kernel))
                assumption
      · assumption

theorem Chip.whlReference_moves {L : List Part} {b m : Chip} {n' : Nat} {l' : Nat} {t' : Nat} {index' : Bool} (h : Moves L b m)
    (w : within [.rWhl, .rInt, .frees, .asleep, .accums, .whl, .sys, .cyc] L = true) :
    Moves L b (Chip.whlReference m n' l' t' index') := by
  unfold Chip.whlReference
  extract_lets +onlyGivenNames x1
  clear_value x1
  extract_lets +onlyGivenNames x2
  clear_value x2
  extract_lets +onlyGivenNames x3
  have h4 : Moves L b x3 := by
    unfold x3
    refine Chip.whlDelta_moves ?_ (within_sub w (by decide +kernel))
    assumption
  clear_value x3
  extract_lets +onlyGivenNames x5
  have h6 : Moves L b x5 := by
    unfold x5
    refine Chip.whlRefState_moves ?_ (within_sub w (by decide +kernel))
    assumption
  clear_value x5
  extract_lets +onlyGivenNames x7
  clear_value x7
  extract_lets +onlyGivenNames x8
  clear_value x8
  extract_lets +onlyGivenNames x9
  clear_value x9
  refine Chip.setWheel_moves ?_ (within_sub w (by decide +kernel))
  assumption

theorem Chip.whlIdxRef_moves {L : List Part} {b m : Chip} {n' : Nat} {t' : Nat} (h : Moves L b m)
    (w : within [.rWhl, .rInt, .frees, .asleep, .accums, .whl, .sys, .cyc] L = true) :
    Moves L b (Chip.whlIdxRef m n' t') := by
  unfold Chip.whlIdxRef
  extract_lets +onlyGivenNames x1
  clear_value x1
  refine Chip.whlReference_moves ?_ (within_sub w (by decide +kernel))
  refine Chip.setWheel_moves ?_ (within_sub w (by decide +kernel))
  assumption

theorem Chip.whlIdxSettle_moves {L : List Part} {b m : Chip} {n' : Nat} {upto' : Nat} (h : Moves L b m)
    (w : within [.rWhl, .rInt, .frees, .asleep, .accums, .whl, .sys, .cyc] L = true) :
    Moves L b (Chip.whlIdxSettle m n' upto') := by
  unfold Chip.whlIdxSettle
  split
  · assumption
  · refine Moves.ite ?_ ?_
    · refine Chip.whlIdxRef_moves ?_ (within_sub w (by decide +kernel))
      assumption
    · assumption

theorem Chip.whlExit_moves {L : List Part} {b m : Chip} {n' : Nat} (h : Moves L b m)
    (w : within [.rWhl, .rInt, .asleep, .accums, .whl, .sys, .cyc] L = true) :
    Moves L b (Chip.whlExit m n') := by
  unfold Chip.whlExit
  extract_lets +onlyGivenNames x1
  have h2 : Moves L b x1 := by
    unfold x1
    refine Chip.whlFlag_moves ?_ (within_sub w (by decide +kernel))
    refine Chip.whlFrame_moves ?_ (within_sub w (by decide +kernel))
    refine Chip.whlTo_moves ?_ (within_sub w (by decide +kernel))
    assumption
  clear_value x1
  extract_lets +onlyGivenNames x3
  clear_value x3
  refine Chip.setWheel_moves ?_ (within_sub w (by decide +kernel))
  assumption

theorem Chip.whlDiscard_moves {L : List Part} {b m : Chip} {n' : Nat} (h : Moves L b m)
    (w : within [.rWhl, .rMdl, .rInt, .asleep, .accums, .whl, .sys, .cyc] L = true) :
    Moves L b (Chip.whlDiscard m n') := by
  unfold Chip.whlDiscard
  extract_lets +onlyGivenNames x1
  have h2 : Moves L b x1 := by
    unfold x1
    refine Chip.count_moves ?_ (within_sub w (by decide +kernel))
    refine Chip.count_moves ?_ (within_sub w (by decide +kernel))
    assumption
  clear_value x1
  extract_lets +onlyGivenNames x3
  have h4 : Moves L b x3 := by
    unfold x3
    refine Chip.whlFlag_moves ?_ (within_sub w (by decide +kernel))
    assumption
  clear_value x3
  extract_lets +onlyGivenNames x5
  clear_value x5
  refine Moves.ite ?_ ?_
  · refine Chip.whlFail_moves ?_ (within_sub w (by decide +kernel))
    refine Chip.whlFlag_moves ?_ (within_sub w (by decide +kernel))
    refine Chip.setWheel_moves ?_ (within_sub w (by decide +kernel))
    assumption
  · assumption

theorem Chip.whlWindow_moves {L : List Part} {b m : Chip} {n' : Nat} (h : Moves L b m)
    (w : within [.rWhl, .whl] L = true) :
    Moves L b (Chip.whlWindow m n') := by
  unfold Chip.whlWindow
  extract_lets +onlyGivenNames x1
  clear_value x1
  refine Moves.ite ?_ ?_
  · refine Chip.wr_moves ?_ (within_sub w (by decide +kernel))
    refine Chip.setWheel_moves ?_ (within_sub w (by decide +kernel))
    assumption
  · refine Chip.setWheel_moves ?_ (within_sub w (by decide +kernel))
    assumption

theorem Chip.whlSend_moves {L : List Part} {b m : Chip} {n' : Nat} {r' : EdgeRec} (h : Moves L b m)
    (w : within [.rCh, .rLat, .rDrv, .rBk, .rBst, .rDg, .rDgb, .rCap, .rInt, .rMap, .frees, .asleep, .accums, .mdl, .chans, .banks, .boost, .bcap, .sys, .cyc] L = true) :
    Moves L b (Chip.whlSend m n' r') := by
  unfold Chip.whlSend
  extract_lets +onlyGivenNames x1
  clear_value x1
  refine Moves.ite ?_ ?_
  · refine Moves.ite ?_ ?_
    · refine Chip.slotsDeliver_moves ?_ (within_sub w (by decide +kernel))
      assumption
    · refine Moves.ite ?_ ?_
      · refine Chip.latWheelEdge_moves ?_ (within_sub w (by decide +kernel))
        assumption
      · assumption
  · assumption

theorem Chip.whlQualified_moves {L : List Part} {b m : Chip} {n' : Nat} {te' : Nat} {rev' : Bool} (h : Moves L b m)
    (w : within [.rCh, .rLat, .rDrv, .rWhl, .rBk, .rBst, .rDg, .rDgb, .rCap, .rInt, .rMap, .frees, .asleep, .accums, .whl, .mdl, .chans, .banks, .boost, .bcap, .sys, .cyc] L = true) :
    Moves L b (Chip.whlQualified m n' te' rev') := by
  unfold Chip.whlQualified
  extract_lets +onlyGivenNames x1
  have h2 : Moves L b x1 := by
    unfold x1
    refine Chip.whlAdopt_moves ?_ (within_sub w (by decide +kernel))
    refine Chip.whlWindow_moves ?_ (within_sub w (by decide +kernel))
    assumption
  clear_value x1
  extract_lets +onlyGivenNames x3
  clear_value x3
  extract_lets +onlyGivenNames x4
  clear_value x4
  extract_lets +onlyGivenNames x5
  clear_value x5
  extract_lets +onlyGivenNames x6
  clear_value x6
  extract_lets +onlyGivenNames x7
  have h8 : Moves L b x7 := by
    unfold x7
    refine Chip.wr_moves ?_ (within_sub w (by decide +kernel))
    refine Chip.wrB_moves ?_ (within_sub w (by decide +kernel))
    assumption
  clear_value x7
  extract_lets +onlyGivenNames x9
  have h10 : Moves L b x9 := by
    unfold x9
    refine Moves.ite ?_ ?_
    · refine Chip.whlFlag_moves ?_ (within_sub w (by decide +kernel))
      assumption
    · assumption
  clear_value x9
  extract_lets +onlyGivenNames x11
  have h12 : Moves L b x11 := by
    unfold x11
    refine Moves.ite ?_ ?_
    · refine Chip.whlFlag_moves ?_ (within_sub w (by decide +kernel))
      assumption
    · assumption
  clear_value x11
  extract_lets +onlyGivenNames x13
  clear_value x13
  extract_lets +onlyGivenNames x14
  clear_value x14
  extract_lets +onlyGivenNames x15
  clear_value x15
  extract_lets +onlyGivenNames x16
  clear_value x16
  extract_lets +onlyGivenNames x17
  clear_value x17
  extract_lets +onlyGivenNames x18
  clear_value x18
  extract_lets +onlyGivenNames x19
  clear_value x19
  extract_lets +onlyGivenNames x20
  clear_value x20
  extract_lets +onlyGivenNames x21
  clear_value x21
  extract_lets +onlyGivenNames x22
  have h23 : Moves L b x22 := by
    unfold x22
    refine Chip.setWheel_moves ?_ (within_sub w (by decide +kernel))
    assumption
  clear_value x22
  extract_lets +onlyGivenNames x24
  have h25 : Moves L b x24 := by
    unfold x24
    refine Chip.wr_moves ?_ (within_sub w (by decide +kernel))
    refine Chip.wrI_moves ?_ (within_sub w (by decide +kernel))
    assumption
  clear_value x24
  extract_lets +onlyGivenNames x26
  have h27 : Moves L b x26 := by
    unfold x26
    refine Chip.whlAngle_moves ?_ (within_sub w (by decide +kernel))
    assumption
  clear_value x26
  extract_lets +onlyGivenNames x28
  clear_value x28
  extract_lets +onlyGivenNames x29
  have h30 : Moves L b x29 := by
    unfold x29
    refine Moves.ite ?_ ?_
    · refine Chip.whlReference_moves ?_ (within_sub w (by decide +kernel))
      assumption
    · assumption
  clear_value x29
  extract_lets +onlyGivenNames x31
  clear_value x31
  extract_lets +onlyGivenNames x32
  have h33 : Moves L b x32 := by
    unfold x32
    refine Chip.setWheel_moves ?_ (within_sub w (by decide +kernel))
    assumption
  clear_value x32
  refine Chip.whlSend_moves ?_ (within_sub w (by decide +kernel))
  assumption

theorem Chip.whlCandidate_moves {L : List Part} {b m : Chip} {n' : Nat} {te' : Nat} {rev' : Bool} (h : Moves L b m)
    (w : within [.rCh, .rLat, .rDrv, .rWhl, .rMdl, .rBk, .rBst, .rDg, .rDgb, .rCap, .rInt, .rMap, .frees, .asleep, .accums, .whl, .mdl, .chans, .banks, .boost, .bcap, .sys, .cyc] L = true) :
    Moves L b (Chip.whlCandidate m n' te' rev') := by
  unfold Chip.whlCandidate
  extract_lets +onlyGivenNames x1
  clear_value x1
  refine Moves.ite ?_ ?_
  · refine Chip.whlDiscard_moves ?_ (within_sub w (by decide +kernel))
    assumption
  · refine Chip.whlQualified_moves ?_ (within_sub w (by decide +kernel))
    refine Chip.setWheel_moves ?_ (within_sub w (by decide +kernel))
    assumption

theorem Chip.whlDirEdge_moves {L : List Part} {b m : Chip} {n' : Nat} {t' : Nat} (h : Moves L b m)
    (w : within [.rCh, .rLat, .rDrv, .rWhl, .rMdl, .rBk, .rBst, .rDg, .rDgb, .rCap, .rInt, .rMap, .frees, .asleep, .accums, .whl, .mdl, .chans, .banks, .boost, .bcap, .sys, .cyc] L = true) :
    Moves L b (Chip.whlDirEdge m n' t') := by
  unfold Chip.whlDirEdge
  extract_lets +onlyGivenNames x1
  clear_value x1
  extract_lets +onlyGivenNames x2
  have h3 : Moves L b x2 := by
    unfold x2
    refine Chip.setWheel_moves ?_ (within_sub w (by decide +kernel))
    assumption
  clear_value x2
  refine Chip.whlCandidate_moves ?_ (within_sub w (by decide +kernel))
  assumption

theorem Chip.whlIdxEdge_moves {L : List Part} {b m : Chip} {k' : Nat} {te' : Nat} (h : Moves L b m)
    (w : within [.rWhl, .rInt, .frees, .asleep, .accums, .whl, .sys, .cyc] L = true) :
    Moves L b (Chip.whlIdxEdge m k' te') := by
  unfold Chip.whlIdxEdge
  extract_lets +onlyGivenNames x1
  have h2 : Moves L b x1 := by
    unfold x1
    refine Chip.whlIdxSettle_moves ?_ (within_sub w (by decide +kernel))
    assumption
  clear_value x1
  extract_lets +onlyGivenNames x3
  clear_value x3
  refine Chip.whlIdxSettle_moves ?_ (within_sub w (by decide +kernel))
  refine Chip.setWheel_moves ?_ (within_sub w (by decide +kernel))
  assumption

theorem Chip.whlLevelEdge_moves {L : List Part} {b m : Chip} {n' : Nat} {te' : Nat} (h : Moves L b m)
    (w : within [.rCh, .rLat, .rDrv, .rWhl, .rMdl, .rBk, .rBst, .rDg, .rDgb, .rCap, .rInt, .rMap, .frees, .asleep, .accums, .whl, .mdl, .chans, .banks, .boost, .bcap, .sys, .cyc] L = true) :
    Moves L b (Chip.whlLevelEdge m n' te') := by
  unfold Chip.whlLevelEdge
  extract_lets +onlyGivenNames x1
  clear_value x1
  refine Moves.ite ?_ ?_
  · refine Chip.setWheel_moves ?_ (within_sub w (by decide +kernel))
    assumption
  · refine Chip.whlCandidate_moves ?_ (within_sub w (by decide +kernel))
    assumption

theorem Chip.whlDirSettle_moves {L : List Part} {b m : Chip} {n' : Nat} {upto' : Nat} (h : Moves L b m)
    (w : within [.rCh, .rLat, .rDrv, .rWhl, .rMdl, .rBk, .rBst, .rDg, .rDgb, .rCap, .rInt, .rMap, .frees, .asleep, .accums, .whl, .mdl, .chans, .banks, .boost, .bcap, .sys, .cyc] L = true) :
    Moves L b (Chip.whlDirSettle m n' upto') := by
  unfold Chip.whlDirSettle
  split
  · assumption
  · refine Moves.ite ?_ ?_
    · refine Chip.whlDirEdge_moves ?_ (within_sub w (by decide +kernel))
      assumption
    · assumption

theorem Chip.whlSingleEdge_moves {L : List Part} {b m : Chip} {n' : Nat} {te' : Nat} {level' : Bool} {passes' : Bool} (h : Moves L b m)
    (w : within [.rCh, .rLat, .rDrv, .rWhl, .rMdl, .rBk, .rBst, .rDg, .rDgb, .rCap, .rInt, .rMap, .frees, .asleep, .accums, .whl, .mdl, .chans, .banks, .boost, .bcap, .sys, .cyc] L = true) :
    Moves L b (Chip.whlSingleEdge m n' te' level' passes') := by
  unfold Chip.whlSingleEdge
  extract_lets +onlyGivenNames x1
  clear_value x1
  extract_lets +onlyGivenNames x2
  clear_value x2
  refine Moves.ite ?_ ?_
  · refine Moves.ite ?_ ?_
    · refine Moves.ite ?_ ?_
      · refine Chip.setWheel_moves ?_ (within_sub w (by decide +kernel))
        assumption
      · assumption
    · split
      · assumption
      · refine Chip.whlCandidate_moves ?_ (within_sub w (by decide +kernel))
        refine Chip.setWheel_moves ?_ (within_sub w (by decide +kernel))
        assumption
  · refine Moves.ite ?_ ?_
    · refine Chip.whlLevelEdge_moves ?_ (within_sub w (by decide +kernel))
      refine Chip.whlDirSettle_moves ?_ (within_sub w (by decide +kernel))
      assumption
    · assumption

theorem Chip.whlReversed_moves {L : List Part} {b m : Chip} {n' : Nat} (h : Moves L b m)
    (w : within [.rWhl, .rMdl, .rInt, .asleep, .accums, .whl, .sys, .cyc] L = true) :
    Moves L b (Chip.whlReversed m n') := by
  unfold Chip.whlReversed
  extract_lets +onlyGivenNames x1
  clear_value x1
  extract_lets +onlyGivenNames x2
  clear_value x2
  refine Chip.whlFail_moves ?_ (within_sub w (by decide +kernel))
  refine Chip.setWheel_moves ?_ (within_sub w (by decide +kernel))
  assumption

theorem Chip.whlSteep_moves {L : List Part} {b m : Chip} {n' : Nat} {steep' : Bool} (h : Moves L b m)
    (w : within [.rWhl, .rMdl, .rInt, .asleep, .accums, .whl, .sys, .cyc] L = true) :
    Moves L b (Chip.whlSteep m n' steep').2 := by
  unfold Chip.whlSteep
  extract_lets +onlyGivenNames x1
  clear_value x1
  extract_lets +onlyGivenNames x2
  clear_value x2
  extract_lets +onlyGivenNames x3
  clear_value x3
  extract_lets +onlyGivenNames x4
  have h5 : Moves L b x4 := by
    unfold x4
    refine Chip.whlFlag_moves ?_ (within_sub w (by decide +kernel))
    refine Chip.setWheel_moves ?_ (within_sub w (by decide +kernel))
    assumption
  clear_value x4
  extract_lets +onlyGivenNames x6
  have h7 : Moves L b x6 := by
    unfold x6
    refine Chip.setWheel_moves ?_ (within_sub w (by decide +kernel))
    assumption
  clear_value x6
  split
  · split
    · refine Moves.pair ?_
      refine Chip.wrB_moves ?_ (within_sub w (by decide +kernel))
      assumption
    · refine Moves.pair ?_
      refine Chip.whlReversed_moves ?_ (within_sub w (by decide +kernel))
      assumption
  · refine Moves.pair ?_
    refine Moves.ite ?_ ?_
    · refine Chip.whlReversed_moves ?_ (within_sub w (by decide +kernel))
      assumption
    · assumption

theorem Chip.whlLine_moves {L : List Part} {b m : Chip} {n' : Nat} (h : Moves L b m)
    (w : within [.rWhl] L = true) :
    Moves L b (Chip.whlLine m n') := by
  unfold Chip.whlLine
  refine Chip.wrB_moves ?_ (within_sub w (by decide +kernel))
  assumption

theorem Chip.whlConds_moves {L : List Part} {b m : Chip} {n' : Nat} {ts' : List Bool} (h : Moves L b m)
    (w : within [.rWhl, .rInt, .asleep, .accums, .whl, .sys, .cyc] L = true) :
    Moves L b (Chip.whlConds m n' ts') := by
  unfold Chip.whlConds
  extract_lets +onlyGivenNames x1
  have h2 : Moves L b x1 := by
    unfold x1
    refine Moves.foldl ?_ fun y3 a4 h5 => ?_
    · assumption
    · extract_lets +onlyGivenNames x6
      clear_value x6
      extract_lets +onlyGivenNames x7
      clear_value x7
      split
      · extract_lets +onlyGivenNames x8
        have h9 : Moves L b x8 := by
          unfold x8
          refine Chip.setWheel_moves ?_ (within_sub w (by decide +kernel))
          assumption
        clear_value x8
        refine Moves.ite ?_ ?_
        · refine Chip.whlFlag_moves ?_ (within_sub w (by decide +kernel))
          assumption
        · assumption
  clear_value x1
  refine Chip.wr_moves ?_ (within_sub w (by decide +kernel))
  assumption

theorem Chip.whlAuxEdge_moves {L : List Part} {b m : Chip} {n' : Nat} {te' : Nat} {level' : Bool} (h : Moves L b m)
    (w : within [.rWhl, .rMdl, .rInt, .frees, .asleep, .accums, .whl, .sys, .cyc] L = true) :
    Moves L b (Chip.whlAuxEdge m n' te' level') := by
  unfold Chip.whlAuxEdge
  extract_lets +onlyGivenNames x1
  clear_value x1
  extract_lets +onlyGivenNames x2
  clear_value x2
  extract_lets +onlyGivenNames x3
  have h4 : Moves L b x3 := by
    unfold x3
    refine Chip.wr_moves ?_ (within_sub w (by decide +kernel))
    refine Chip.setWheel_moves ?_ (within_sub w (by decide +kernel))
    assumption
  clear_value x3
  extract_lets +onlyGivenNames x5
  have h6 : Moves L b x5 := by
    unfold x5
    refine Moves.ite ?_ ?_
    · refine Chip.whlFlag_moves ?_ (within_sub w (by decide +kernel))
      refine Chip.wr_moves ?_ (within_sub w (by decide +kernel))
      assumption
    · assumption
  clear_value x5
  extract_lets +onlyGivenNames x7
  have h8 : Moves L b x7 := by
    unfold x7
    refine Chip.whlAdopt_moves ?_ (within_sub w (by decide +kernel))
    refine Chip.whlWindow_moves ?_ (within_sub w (by decide +kernel))
    assumption
  clear_value x7
  refine Moves.ite ?_ ?_
  · refine Chip.whlDiscard_moves ?_ (within_sub w (by decide +kernel))
    assumption
  · refine Moves.ite ?_ ?_
    · refine Moves.foldl ?_ fun y9 a10 h11 => ?_
      · assumption
      · extract_lets +onlyGivenNames x12
        clear_value x12
        extract_lets +onlyGivenNames x13
        clear_value x13
        refine Moves.ite ?_ ?_
        · refine Chip.whlIdxEdge_moves ?_ (within_sub w (by decide +kernel))
          assumption
        · assumption
    · assumption

theorem Chip.whlDirsSettle_moves {L : List Part} {b m : Chip} {a' : Nat} {te' : Nat} (h : Moves L b m)
    (w : within [.rCh, .rLat, .rDrv, .rWhl, .rMdl, .rBk, .rBst, .rDg, .rDgb, .rCap, .rInt, .rMap, .frees, .asleep, .accums, .whl, .mdl, .chans, .banks, .boost, .bcap, .sys, .cyc] L = true) :
    Moves L b (Chip.whlDirsSettle m a' te') := by
  unfold Chip.whlDirsSettle
  refine Moves.foldl ?_ fun y1 a2 h3 => ?_
  · assumption
  · refine Moves.ite ?_ ?_
    · refine Chip.whlDirSettle_moves ?_ (within_sub w (by decide +kernel))
      assumption
    · assumption

theorem Chip.whlPass_moves {L : List Part} {b m : Chip} {n' : Nat} {te' : Nat} {level' : Bool} (h : Moves L b m)
    (w : within [.rWhl, .whl] L = true) :
    Moves L b (Chip.whlPass m n' te' level') := by
  unfold Chip.whlPass
  extract_lets +onlyGivenNames x1
  clear_value x1
  refine Chip.whlLine_moves ?_ (within_sub w (by decide +kernel))
  refine Chip.setWheel_moves ?_ (within_sub w (by decide +kernel))
  assumption

theorem Chip.whlPasses_moves {L : List Part} {b m : Chip} {n' : Nat} {level' : Bool} {steep' : Bool} (h : Moves L b m)
    (w : within [.rWhl, .rMdl, .rInt, .asleep, .accums, .whl, .sys, .cyc] L = true) :
    Moves L b (Chip.whlPasses m n' level' steep').2 := by
  unfold Chip.whlPasses
  split
  · refine Moves.pair ?_
    assumption
  · split
    · refine Moves.pair ?_
      assumption
    · split
      · rename_i y1 y2 y3 q4
        have h5 : Moves L b ((y2 : Bool), y3).2 := by
          rw [← q4]
          refine Chip.whlSteep_moves ?_ (within_sub w (by decide +kernel))
          assumption
        extract_lets +onlyGivenNames x6
        clear_value x6
        split
        · refine Moves.pair ?_
          assumption
        · refine Moves.pair ?_
          refine Chip.setWheel_moves ?_ (within_sub w (by decide +kernel))
          assumption

theorem Chip.whlQuadEdge_moves {L : List Part} {b m : Chip} {n' : Nat} {te' : Nat} {lineB' : Bool} {both' : Bool} (h : Moves L b m)
    (w : within [.rCh, .rLat, .rDrv, .rWhl, .rMdl, .rBk, .rBst, .rDg, .rDgb, .rCap, .rInt, .rMap, .frees, .asleep, .accums, .whl, .mdl, .chans, .banks, .boost, .bcap, .sys, .cyc] L = true) :
    Moves L b (Chip.whlQuadEdge m n' te' lineB' both') := by
  unfold Chip.whlQuadEdge
  extract_lets +onlyGivenNames x1
  clear_value x1
  extract_lets +onlyGivenNames x2
  clear_value x2
  extract_lets +onlyGivenNames x3
  clear_value x3
  extract_lets +onlyGivenNames x4
  have h5 : Moves L b x4 := by
    unfold x4
    refine Chip.setWheel_moves ?_ (within_sub w (by decide +kernel))
    assumption
  clear_value x4
  refine Moves.ite ?_ ?_
  · refine Chip.whlFlag_moves ?_ (within_sub w (by decide +kernel))
    refine Chip.count_moves ?_ (within_sub w (by decide +kernel))
    assumption
  · refine Moves.ite ?_ ?_
    · refine Chip.whlDiscard_moves ?_ (within_sub w (by decide +kernel))
      assumption
    · refine Chip.whlQualified_moves ?_ (within_sub w (by decide +kernel))
      assumption

theorem Chip.whlChange_moves {L : List Part} {b m : Chip} {n' : Nat} {te' : Nat} {level' : Bool} {steep' : Bool} {both' : Bool} (h : Moves L b m)
    (w : within [.rCh, .rLat, .rDrv, .rWhl, .rMdl, .rBk, .rBst, .rDg, .rDgb, .rCap, .rInt, .rMap, .frees, .asleep, .accums, .whl, .mdl, .chans, .banks, .boost, .bcap, .sys, .cyc] L = true) :
    Moves L b (Chip.whlChange m n' te' level' steep' both') := by
  unfold Chip.whlChange
  extract_lets +onlyGivenNames x1
  clear_value x1
  extract_lets +onlyGivenNames x2
  clear_value x2
  extract_lets +onlyGivenNames x3
  have h4 : Moves L b x3 := by
    unfold x3
    refine Moves.ite ?_ ?_
    · refine Chip.whlDirsSettle_moves ?_ (within_sub w (by decide +kernel))
      assumption
    · refine Chip.whlIdxSettle_moves ?_ (within_sub w (by decide +kernel))
      assumption
  clear_value x3
  extract_lets +onlyGivenNames x5
  have h6 : Moves L b x5 := by
    unfold x5
    refine Chip.whlPass_moves ?_ (within_sub w (by decide +kernel))
    assumption
  clear_value x5
  extract_lets +onlyGivenNames x7
  clear_value x7
  extract_lets +onlyGivenNames x8
  have h9 : Moves L b x8 := by
    unfold x8
    refine Moves.ite ?_ ?_
    · refine Chip.whlPass_moves ?_ (within_sub w (by decide +kernel))
      assumption
    · assumption
  clear_value x8
  split
  · rename_i y10 y11 y12 q13
    have h14 : Moves L b ((y11 : Bool), y12).2 := by
      rw [← q13]
      refine Chip.whlPasses_moves ?_ (within_sub w (by decide +kernel))
      assumption
    refine Moves.ite ?_ ?_
    · refine Moves.ite ?_ ?_
      · refine Chip.whlQuadEdge_moves ?_ (within_sub w (by decide +kernel))
        assumption
      · assumption
    · refine Moves.ite ?_ ?_
      · refine Moves.ite ?_ ?_
        · refine Chip.whlAuxEdge_moves ?_ (within_sub w (by decide +kernel))
          assumption
        · assumption
      · refine Moves.ite ?_ ?_
        · refine Chip.whlSingleEdge_moves ?_ (within_sub w (by decide +kernel))
          assumption
        · assumption

theorem Chip.whlHold_moves {L : List Part} {b m : Chip} {n' : Nat} (h : Moves L b m)
    (w : within [.whl] L = true) :
    Moves L b (Chip.whlHold m n') := by
  unfold Chip.whlHold
  extract_lets +onlyGivenNames x1
  clear_value x1
  extract_lets +onlyGivenNames x2
  clear_value x2
  refine Moves.ite ?_ ?_
  · refine Chip.setWheel_moves ?_ (within_sub w (by decide +kernel))
    assumption
  · assumption

theorem Chip.whlMissing_moves {L : List Part} {b m : Chip} {n' : Nat} (h : Moves L b m)
    (w : within [.rWhl, .rInt, .asleep, .accums, .whl, .sys, .cyc] L = true) :
    Moves L b (Chip.whlMissing m n') := by
  unfold Chip.whlMissing
  extract_lets +onlyGivenNames x1
  clear_value x1
  extract_lets +onlyGivenNames x2
  clear_value x2
  extract_lets +onlyGivenNames x3
  have h4 : Moves L b x3 := by
    unfold x3
    refine Chip.setWheel_moves ?_ (within_sub w (by decide +kernel))
    assumption
  clear_value x3
  extract_lets +onlyGivenNames x5
  have h6 : Moves L b x5 := by
    unfold x5
    refine Chip.whlLose_moves ?_ (within_sub w (by decide +kernel))
    assumption
  clear_value x5
  extract_lets +onlyGivenNames x7
  clear_value x7
  extract_lets +onlyGivenNames x8
  clear_value x8
  refine Moves.ite ?_ ?_
  · refine Moves.ite ?_ ?_
    · refine Chip.whlSuspectBy_moves ?_ (within_sub w (by decide +kernel))
      assumption
    · refine Moves.ite ?_ ?_
      · refine Chip.setWheel_moves ?_ (within_sub w (by decide +kernel))
        assumption
      · refine Chip.setWheel_moves ?_ (within_sub w (by decide +kernel))
        assumption
  · assumption

theorem Chip.whlEdge_moves {L : List Part} {b m : Chip} {n' : Nat} {reading' : Int} {held' : Nat} {steep' : Bool} {both' : Bool} (h : Moves L b m)
    (w : within [.rCh, .rLat, .rDrv, .rWhl, .rMdl, .rBk, .rBst, .rDg, .rDgb, .rCap, .rInt, .rMap, .frees, .asleep, .accums, .whl, .mdl, .chans, .banks, .boost, .bcap, .sys, .cyc] L = true) :
    Moves L b (Chip.whlEdge m n' reading' held' steep' both') := by
  unfold Chip.whlEdge
  extract_lets +onlyGivenNames x1
  clear_value x1
  extract_lets +onlyGivenNames x2
  clear_value x2
  extract_lets +onlyGivenNames x3
  clear_value x3
  extract_lets +onlyGivenNames x4
  clear_value x4
  extract_lets +onlyGivenNames x5
  have h6 : Moves L b x5 := by
    unfold x5
    refine Chip.setWheel_moves ?_ (within_sub w (by decide +kernel))
    assumption
  clear_value x5
  extract_lets +onlyGivenNames x7
  clear_value x7
  extract_lets +onlyGivenNames x8
  have h9 : Moves L b x8 := by
    unfold x8
    refine Chip.whlPass_moves ?_ (within_sub w (by decide +kernel))
    assumption
  clear_value x8
  extract_lets +onlyGivenNames x10
  clear_value x10
  refine Moves.ite ?_ ?_
  · assumption
  · refine Moves.ite ?_ ?_
    · assumption
    · refine Moves.ite ?_ ?_
      · refine Moves.ite ?_ ?_
        · refine Chip.whlPass_moves ?_ (within_sub w (by decide +kernel))
          assumption
        · assumption
      · refine Chip.whlChange_moves ?_ (within_sub w (by decide +kernel))
        assumption

end Sys2Proof.Machine
end

