-- ==== Sys2Proof/Laws/MovesWheels.lean ====
section
/-! SUPPORT. Each operation of Machine/Wheels.lean moves the block within the parts it names. -/

-- Theorem by theorem: many at once each take a thread's stack, and the package as one text ran out of them.
set_option Elab.async false

namespace Sys2Proof.Machine

theorem Chip.whlTurnOff_moves {L : List Part} {b m : Chip} {n' : Nat} (h : Moves L b m)
    (w : within [.rWhl, .rMdl, .rInt, .asleep, .accums, .whl, .sys, .cyc] L = true) :
    Moves L b (Chip.whlTurnOff m n') := by
  unfold Chip.whlTurnOff
  extract_lets +onlyGivenNames x1
  clear_value x1
  extract_lets +onlyGivenNames x2
  have h3 : Moves L b x2 := by
    unfold x2
    refine Chip.whlTo_moves ?_ (within_sub w (by decide +kernel))
    refine Chip.wr_moves ?_ (within_sub w (by decide +kernel))
    assumption
  clear_value x2
  extract_lets +onlyGivenNames x4
  clear_value x4
  extract_lets +onlyGivenNames x5
  have h6 : Moves L b x5 := by
    unfold x5
    refine Chip.setWheel_moves ?_ (within_sub w (by decide +kernel))
    assumption
  clear_value x5
  refine Moves.ite ?_ ?_
  · refine Chip.slotsLoseWheel_moves ?_ (within_sub w (by decide +kernel))
    assumption
  · assumption

theorem Chip.whlEnable_moves {L : List Part} {b m : Chip} {n' : Nat} {md' : Nat} (h : Moves L b m)
    (w : within [.rWhl, .rMdl, .rInt, .asleep, .accums, .whl, .sys, .cyc] L = true) :
    Moves L b (Chip.whlEnable m n' md') := by
  unfold Chip.whlEnable
  extract_lets +onlyGivenNames x1
  clear_value x1
  extract_lets +onlyGivenNames x2
  have h3 : Moves L b x2 := by
    unfold x2
    refine Chip.wr_moves ?_ (within_sub w (by decide +kernel))
    refine Chip.wr_moves ?_ (within_sub w (by decide +kernel))
    refine Chip.wr_moves ?_ (within_sub w (by decide +kernel))
    assumption
  clear_value x2
  extract_lets +onlyGivenNames x4
  have h5 : Moves L b x4 := by
    unfold x4
    refine Chip.wr_moves ?_ (within_sub w (by decide +kernel))
    refine Chip.wr_moves ?_ (within_sub w (by decide +kernel))
    refine Chip.whlTo_moves ?_ (within_sub w (by decide +kernel))
    assumption
  clear_value x4
  extract_lets +onlyGivenNames x6
  have h7 : Moves L b x6 := by
    unfold x6
    refine Chip.wr_moves ?_ (within_sub w (by decide +kernel))
    refine Chip.wr_moves ?_ (within_sub w (by decide +kernel))
    assumption
  clear_value x6
  extract_lets +onlyGivenNames x8
  have h9 : Moves L b x8 := by
    unfold x8
    refine Chip.setWheel_moves ?_ (within_sub w (by decide +kernel))
    assumption
  clear_value x8
  refine Chip.whlCondFault_moves ?_ (within_sub w (by decide +kernel))
  refine Chip.whlAdopt_moves ?_ (within_sub w (by decide +kernel))
  assumption

theorem Chip.whlCfgWrite_moves {L : List Part} {b m : Chip} {n' : Nat} {w' : Nat} (h : Moves L b m)
    (w : within [.rHp, .rMb, .rCh, .rTr, .rLat, .rDrv, .rAx, .rWhl, .rMdl, .rBk, .rBst, .rPwr, .rDg, .rDgb, .rCap, .rBcap, .rAdc, .rAs, .rCmp, .rSds, .rAin, .rFe, .rFio, .rTim, .rInt, .rSys, .rSup, .rProt, .rMap, .rNc, .asleep, .accums, .whl, .sys, .cyc] L = true) :
    Moves L b (Chip.whlCfgWrite m n' w') := by
  unfold Chip.whlCfgWrite
  extract_lets +onlyGivenNames x1
  clear_value x1
  extract_lets +onlyGivenNames x2
  clear_value x2
  extract_lets +onlyGivenNames x3
  have h4 : Moves L b x3 := by
    unfold x3
    refine Moves.foldl ?_ fun y5 a6 h7 => ?_
    · assumption
    · refine Chip.wrFrom_moves ?_ (within_field _ (within_sub w (by decide +kernel)))
      assumption
  clear_value x3
  refine Moves.ite ?_ ?_
  · refine Moves.ite ?_ ?_
    · refine Chip.whlTurnOff_moves ?_ (within_sub w (by decide +kernel))
      assumption
    · assumption
  · refine Moves.ite ?_ ?_
    · assumption
    · refine Moves.ite ?_ ?_
      · refine Chip.whlFlag_moves ?_ (within_sub w (by decide +kernel))
        assumption
      · refine Chip.whlEnable_moves ?_ (within_sub w (by decide +kernel))
        assumption

theorem Chip.whlResyncNow_moves {L : List Part} {b m : Chip} {n' : Nat} (h : Moves L b m)
    (w : within [.rWhl, .rInt, .asleep, .accums, .whl, .sys, .cyc] L = true) :
    Moves L b (Chip.whlResyncNow m n') := by
  unfold Chip.whlResyncNow
  extract_lets +onlyGivenNames x1
  clear_value x1
  extract_lets +onlyGivenNames x2
  have h3 : Moves L b x2 := by
    unfold x2
    refine Chip.whlLose_moves ?_ (within_sub w (by decide +kernel))
    assumption
  clear_value x2
  extract_lets +onlyGivenNames x4
  clear_value x4
  refine Moves.ite ?_ ?_
  · refine Chip.setWheel_moves ?_ (within_sub w (by decide +kernel))
    assumption
  · assumption

theorem Chip.whlUnref_moves {L : List Part} {b m : Chip} {n' : Nat} {u' : RefUndo} (h : Moves L b m)
    (w : within [.rWhl, .whl] L = true) :
    Moves L b (Chip.whlUnref m n' u') := by
  unfold Chip.whlUnref
  extract_lets +onlyGivenNames x1
  clear_value x1
  extract_lets +onlyGivenNames x2
  have h3 : Moves L b x2 := by
    unfold x2
    refine Chip.wr_moves ?_ (within_sub w (by decide +kernel))
    refine Chip.wr_moves ?_ (within_sub w (by decide +kernel))
    refine Chip.wr_moves ?_ (within_sub w (by decide +kernel))
    refine Chip.wr_moves ?_ (within_sub w (by decide +kernel))
    assumption
  clear_value x2
  extract_lets +onlyGivenNames x4
  have h5 : Moves L b x4 := by
    unfold x4
    refine Chip.wr_moves ?_ (within_sub w (by decide +kernel))
    refine Chip.wr_moves ?_ (within_sub w (by decide +kernel))
    refine Chip.wr_moves ?_ (within_sub w (by decide +kernel))
    assumption
  clear_value x4
  extract_lets +onlyGivenNames x6
  have h7 : Moves L b x6 := by
    unfold x6
    refine Chip.wr_moves ?_ (within_sub w (by decide +kernel))
    assumption
  clear_value x6
  extract_lets +onlyGivenNames x8
  have h9 : Moves L b x8 := by
    unfold x8
    refine Chip.wr_moves ?_ (within_sub w (by decide +kernel))
    refine Chip.wr_moves ?_ (within_sub w (by decide +kernel))
    assumption
  clear_value x8
  extract_lets +onlyGivenNames x10
  clear_value x10
  refine Chip.setWheel_moves ?_ (within_sub w (by decide +kernel))
  assumption

theorem Chip.whlResync_moves {L : List Part} {b m : Chip} {n' : Nat} (h : Moves L b m)
    (w : within [.rWhl, .rInt, .frees, .asleep, .accums, .whl, .sys, .cyc] L = true) :
    Moves L b (Chip.whlResync m n') := by
  unfold Chip.whlResync
  extract_lets +onlyGivenNames x1
  have h2 : Moves L b x1 := by
    unfold x1
    refine Chip.whlIdxSettle_moves ?_ (within_sub w (by decide +kernel))
    assumption
  clear_value x1
  split
  · refine Chip.whlReference_moves ?_ (within_sub w (by decide +kernel))
    refine Chip.whlResyncNow_moves ?_ (within_sub w (by decide +kernel))
    refine Chip.whlUnref_moves ?_ (within_sub w (by decide +kernel))
    assumption
  · refine Chip.whlResyncNow_moves ?_ (within_sub w (by decide +kernel))
    assumption

theorem Chip.whlFaultClear_moves {L : List Part} {b m : Chip} {n' : Nat} (h : Moves L b m)
    (w : within [.rWhl, .rInt, .asleep, .accums, .whl, .sys, .cyc] L = true) :
    Moves L b (Chip.whlFaultClear m n') := by
  unfold Chip.whlFaultClear
  refine Moves.ite ?_ ?_
  · refine Chip.whlExit_moves ?_ (within_sub w (by decide +kernel))
    assumption
  · assumption

theorem Chip.whlEdgeSnap_moves {L : List Part} {b m : Chip} {n' : Nat} (h : Moves L b m)
    (w : within [.rWhl, .rdata] L = true) :
    Moves L b (Chip.whlEdgeSnap m n') := by
  unfold Chip.whlEdgeSnap
  extract_lets +onlyGivenNames x1
  clear_value x1
  extract_lets +onlyGivenNames x2
  have h3 : Moves L b x2 := by
    unfold x2
    refine Chip.wr_moves ?_ (within_sub w (by decide +kernel))
    refine Chip.wrTb_moves ?_ (within_sub w (by decide +kernel))
    assumption
  clear_value x2
  extract_lets +onlyGivenNames x4
  have h5 : Moves L b x4 := by
    unfold x4
    refine Chip.wr_moves ?_ (within_sub w (by decide +kernel))
    assumption
  clear_value x4
  refine Moves.rdata ?_ (within_sub w (by decide +kernel))
  assumption

theorem Chip.whlIdxSnap_moves {L : List Part} {b m : Chip} {n' : Nat} (h : Moves L b m)
    (w : within [.rWhl, .rInt, .frees, .rdata, .asleep, .accums, .whl, .sys, .cyc] L = true) :
    Moves L b (Chip.whlIdxSnap m n') := by
  unfold Chip.whlIdxSnap
  extract_lets +onlyGivenNames x1
  have h2 : Moves L b x1 := by
    unfold x1
    refine Chip.whlIdxSettle_moves ?_ (within_sub w (by decide +kernel))
    assumption
  clear_value x1
  extract_lets +onlyGivenNames x3
  have h4 : Moves L b x3 := by
    unfold x3
    refine Chip.wrTb_moves ?_ (within_sub w (by decide +kernel))
    assumption
  clear_value x3
  refine Moves.rdata ?_ (within_sub w (by decide +kernel))
  assumption

theorem Chip.whlPulseLong_moves {L : List Part} {b m : Chip} {n' : Nat} (h : Moves L b m)
    (w : within [.rCh, .rLat, .rDrv, .rWhl, .rMdl, .rBk, .rBst, .rDg, .rDgb, .rCap, .rInt, .rMap, .frees, .asleep, .accums, .whl, .mdl, .chans, .banks, .boost, .bcap, .sys, .cyc] L = true) :
    Moves L b (Chip.whlPulseLong m n') := by
  unfold Chip.whlPulseLong
  extract_lets +onlyGivenNames x1
  clear_value x1
  split
  · assumption
  · refine Moves.ite ?_ ?_
    · refine Chip.whlCandidate_moves ?_ (within_sub w (by decide +kernel))
      refine Chip.setWheel_moves ?_ (within_sub w (by decide +kernel))
      assumption
    · assumption

theorem Chip.whlDiag_moves {L : List Part} {b m : Chip} {n' : Nat} {p' : WhlPins} (h : Moves L b m)
    (w : within [.rWhl, .rMdl, .rInt, .stamps, .asleep, .accums, .whl, .sys, .cyc] L = true) :
    Moves L b (Chip.whlDiag m n' p') := by
  unfold Chip.whlDiag
  extract_lets +onlyGivenNames x1
  have h2 : Moves L b x1 := by
    unfold x1
    refine Chip.stamp_moves ?_ (within_sub w (by decide +kernel))
    assumption
  clear_value x1
  extract_lets +onlyGivenNames x3
  have h4 : Moves L b x3 := by
    unfold x3
    refine Chip.wr_moves ?_ (within_sub w (by decide +kernel))
    refine Chip.wrSat_moves ?_ (within_sub w (by decide +kernel))
    assumption
  clear_value x3
  extract_lets +onlyGivenNames x5
  clear_value x5
  extract_lets +onlyGivenNames x6
  have h7 : Moves L b x6 := by
    unfold x6
    refine Chip.whlHold_moves ?_ (within_sub w (by decide +kernel))
    refine Chip.whlConds_moves ?_ (within_sub w (by decide +kernel))
    assumption
  clear_value x6
  extract_lets +onlyGivenNames x8
  clear_value x8
  extract_lets +onlyGivenNames x9
  have h10 : Moves L b x9 := by
    unfold x9
    refine Chip.whlLine_moves ?_ (within_sub w (by decide +kernel))
    refine Chip.whlLine_moves ?_ (within_sub w (by decide +kernel))
    assumption
  clear_value x9
  extract_lets +onlyGivenNames x11
  have h12 : Moves L b x11 := by
    unfold x11
    refine Moves.ite ?_ ?_
    · refine Chip.whlLine_moves ?_ (within_sub w (by decide +kernel))
      assumption
    · assumption
  clear_value x11
  refine Moves.ite ?_ ?_
  · refine Moves.ite ?_ ?_
    · refine Chip.whlCondFault_moves ?_ (within_sub w (by decide +kernel))
      assumption
    · assumption
  · assumption

theorem Chip.whlStop_moves {L : List Part} {b m : Chip} {n' : Nat} (h : Moves L b m)
    (w : within [.rCh, .rLat, .rDrv, .rWhl, .rBk, .rBst, .rDg, .rDgb, .rCap, .rInt, .rMap, .frees, .asleep, .accums, .mdl, .chans, .banks, .boost, .bcap, .sys, .cyc] L = true) :
    Moves L b (Chip.whlStop m n') := by
  unfold Chip.whlStop
  extract_lets +onlyGivenNames x1
  clear_value x1
  extract_lets +onlyGivenNames x2
  clear_value x2
  extract_lets +onlyGivenNames x3
  have h4 : Moves L b x3 := by
    unfold x3
    refine Chip.whlFlag_moves ?_ (within_sub w (by decide +kernel))
    refine Chip.wr_moves ?_ (within_sub w (by decide +kernel))
    assumption
  clear_value x3
  refine Moves.ite ?_ ?_
  · refine Chip.whlSend_moves ?_ (within_sub w (by decide +kernel))
    assumption
  · assumption

theorem Chip.whlPull_moves {L : List Part} {b m : Chip} {n' : Nat} {up' : Bool} {down' : Bool} (h : Moves L b m)
    (w : within [.stamps, .whl] L = true) :
    Moves L b (Chip.whlPull m n' up' down') := by
  unfold Chip.whlPull
  extract_lets +onlyGivenNames x1
  clear_value x1
  refine Moves.ite ?_ ?_
  · refine Chip.setWheel_moves ?_ (within_sub w (by decide +kernel))
    refine Chip.stamp_moves ?_ (within_sub w (by decide +kernel))
    assumption
  · assumption

theorem Chip.whlInterp_moves {L : List Part} {b m : Chip} {n' : Nat} (h : Moves L b m)
    (w : within [.rCh, .rLat, .rDrv, .rWhl, .rMdl, .rBk, .rBst, .rDg, .rDgb, .rCap, .rInt, .rMap, .stamps, .frees, .asleep, .accums, .whl, .mdl, .chans, .banks, .boost, .bcap, .sys, .cyc] L = true) :
    Moves L b (Chip.whlInterp m n') := by
  unfold Chip.whlInterp
  extract_lets +onlyGivenNames x1
  clear_value x1
  extract_lets +onlyGivenNames x2
  have h3 : Moves L b x2 := by
    unfold x2
    refine Chip.whlIdxSettle_moves ?_ (within_sub w (by decide +kernel))
    refine Chip.whlDirSettle_moves ?_ (within_sub w (by decide +kernel))
    assumption
  clear_value x2
  extract_lets +onlyGivenNames x4
  clear_value x4
  extract_lets +onlyGivenNames x5
  have h6 : Moves L b x5 := by
    unfold x5
    refine Chip.stamp_moves ?_ (within_sub w (by decide +kernel))
    assumption
  clear_value x5
  extract_lets +onlyGivenNames x7
  clear_value x7
  extract_lets +onlyGivenNames x8
  clear_value x8
  extract_lets +onlyGivenNames x9
  clear_value x9
  refine Moves.ite ?_ ?_
  · refine Chip.whlAngle_moves ?_ (within_sub w (by decide +kernel))
    refine Chip.setWheel_moves ?_ (within_sub w (by decide +kernel))
    assumption
  · assumption

theorem Chip.vrArm_moves {L : List Part} {b m : Chip} {n' : Nat} {mv' : Nat} (h : Moves L b m)
    (w : within [.rWhl, .whl] L = true) :
    Moves L b (Chip.vrArm m n' mv') := by
  unfold Chip.vrArm
  extract_lets +onlyGivenNames x1
  clear_value x1
  extract_lets +onlyGivenNames x2
  clear_value x2
  refine Moves.ite ?_ ?_
  · refine Chip.wr_moves ?_ (within_sub w (by decide +kernel))
    refine Chip.setWheel_moves ?_ (within_sub w (by decide +kernel))
    assumption
  · assumption

theorem execWhlCfgWrite_moves {L : List Part} {who' : Writer} {n' : Whl} {w' : Word} {s t : State}
    (w : within [.rHp, .rMb, .rCh, .rTr, .rLat, .rDrv, .rAx, .rWhl, .rMdl, .rBk, .rBst, .rPwr, .rDg, .rDgb, .rCap, .rBcap, .rAdc, .rAs, .rCmp, .rSds, .rAin, .rFe, .rFio, .rTim, .rInt, .rSys, .rSup, .rProt, .rMap, .rNc, .asleep, .accums, .whl, .sys, .cyc] L = true) (e : execWhlCfgWrite who' n' w' s = .next t) :
    Moves L s.chip t.chip := by
  unfold execWhlCfgWrite at e
  refine upd_moves (fun m => ?_) e
  refine Moves.ite ?_ ?_
  · refine Chip.whlCfgWrite_moves ?_ (within_sub w (by decide +kernel))
    exact .refl
  · exact .refl

theorem execWhlResync_moves {L : List Part} {who' : Writer} {n' : Whl} {s t : State}
    (w : within [.rWhl, .rInt, .frees, .asleep, .accums, .whl, .sys, .cyc] L = true) (e : execWhlResync who' n' s = .next t) :
    Moves L s.chip t.chip := by
  unfold execWhlResync at e
  refine upd_moves (fun m => ?_) e
  refine Moves.ite ?_ ?_
  · refine Chip.whlResync_moves ?_ (within_sub w (by decide +kernel))
    exact .refl
  · exact .refl

theorem execWhlDiagEvaluation_moves {L : List Part} {n' : Whl} {p' : WhlPins} {s t : State}
    (w : within [.rWhl, .rMdl, .rInt, .stamps, .asleep, .accums, .whl, .sys, .cyc] L = true) (e : execWhlDiagEvaluation n' p' s = .next t) :
    Moves L s.chip t.chip := by
  unfold execWhlDiagEvaluation at e
  refine upd_moves (fun m => ?_) e
  refine Chip.whlDiag_moves ?_ (within_sub w (by decide +kernel))
  exact .refl

theorem execWhlPullTest_moves {L : List Part} {n' : Whl} {up' : Bool} {down' : Bool} {s t : State}
    (w : within [.stamps, .whl] L = true) (e : execWhlPullTest n' up' down' s = .next t) :
    Moves L s.chip t.chip := by
  unfold execWhlPullTest at e
  refine upd_moves (fun m => ?_) e
  refine Chip.whlPull_moves ?_ (within_sub w (by decide +kernel))
  exact .refl

theorem execWhlIdxSnapshotRead_moves {L : List Part} {n' : Whl} {s t : State}
    (w : within [.rWhl, .rInt, .frees, .rdata, .asleep, .accums, .whl, .sys, .cyc] L = true) (e : execWhlIdxSnapshotRead n' s = .next t) :
    Moves L s.chip t.chip := by
  unfold execWhlIdxSnapshotRead at e
  refine upd_moves (fun m => ?_) e
  refine Chip.whlIdxSnap_moves ?_ (within_sub w (by decide +kernel))
  exact .refl

theorem execWhlStopTimeout_moves {L : List Part} {n' : Whl} {s t : State}
    (w : within [.rCh, .rLat, .rDrv, .rWhl, .rBk, .rBst, .rDg, .rDgb, .rCap, .rInt, .rMap, .frees, .asleep, .accums, .mdl, .chans, .banks, .boost, .bcap, .sys, .cyc] L = true) (e : execWhlStopTimeout n' s = .next t) :
    Moves L s.chip t.chip := by
  unfold execWhlStopTimeout at e
  refine upd_moves (fun m => ?_) e
  refine Chip.whlStop_moves ?_ (within_sub w (by decide +kernel))
  exact .refl

theorem execWhlFaultExit_moves {L : List Part} {n' : Whl} {s t : State}
    (w : within [.rWhl, .rInt, .asleep, .accums, .whl, .sys, .cyc] L = true) (e : execWhlFaultExit n' s = .next t) :
    Moves L s.chip t.chip := by
  unfold execWhlFaultExit at e
  refine upd_moves (fun m => ?_) e
  refine Moves.ite ?_ ?_
  · refine Chip.whlExit_moves ?_ (within_sub w (by decide +kernel))
    exact .refl
  · exact .refl

theorem execVrArm_moves {L : List Part} {n' : Fin 16} {mv' : Nat} {s t : State}
    (w : within [.rWhl, .whl] L = true) (e : execVrArm n' mv' s = .next t) :
    Moves L s.chip t.chip := by
  unfold execVrArm at e
  refine upd_moves (fun m => ?_) e
  refine Chip.vrArm_moves ?_ (within_sub w (by decide +kernel))
  exact .refl

theorem execWhlDirPulseTimeout_moves {L : List Part} {n' : Whl} {s t : State}
    (w : within [.rCh, .rLat, .rDrv, .rWhl, .rMdl, .rBk, .rBst, .rDg, .rDgb, .rCap, .rInt, .rMap, .frees, .asleep, .accums, .whl, .mdl, .chans, .banks, .boost, .bcap, .sys, .cyc] L = true) (e : execWhlDirPulseTimeout n' s = .next t) :
    Moves L s.chip t.chip := by
  unfold execWhlDirPulseTimeout at e
  refine upd_moves (fun m => ?_) e
  refine Chip.whlPulseLong_moves ?_ (within_sub w (by decide +kernel))
  exact .refl

theorem execWhlEdgeSnapshotRead_moves {L : List Part} {n' : Whl} {s t : State}
    (w : within [.rWhl, .rdata] L = true) (e : execWhlEdgeSnapshotRead n' s = .next t) :
    Moves L s.chip t.chip := by
  unfold execWhlEdgeSnapshotRead at e
  refine upd_moves (fun m => ?_) e
  refine Chip.whlEdgeSnap_moves ?_ (within_sub w (by decide +kernel))
  exact .refl

theorem execWhlMissingReference_moves {L : List Part} {n' : Whl} {s t : State}
    (w : within [.rWhl, .rInt, .frees, .asleep, .accums, .whl, .sys, .cyc] L = true) (e : execWhlMissingReference n' s = .next t) :
    Moves L s.chip t.chip := by
  unfold execWhlMissingReference at e
  refine upd_moves (fun m => ?_) e
  refine Chip.whlMissing_moves ?_ (within_sub w (by decide +kernel))
  refine Chip.whlIdxSettle_moves ?_ (within_sub w (by decide +kernel))
  exact .refl

theorem execWhlInterpolationTick_moves {L : List Part} {n' : Whl} {s t : State}
    (w : within [.rCh, .rLat, .rDrv, .rWhl, .rMdl, .rBk, .rBst, .rDg, .rDgb, .rCap, .rInt, .rMap, .stamps, .frees, .asleep, .accums, .whl, .mdl, .chans, .banks, .boost, .bcap, .sys, .cyc] L = true) (e : execWhlInterpolationTick n' s = .next t) :
    Moves L s.chip t.chip := by
  unfold execWhlInterpolationTick at e
  refine upd_moves (fun m => ?_) e
  refine Chip.whlInterp_moves ?_ (within_sub w (by decide +kernel))
  exact .refl

theorem execWhlFaultClr_moves {L : List Part} {who' : Writer} {n' : Whl} {s t : State}
    (w : within [.rWhl, .rInt, .asleep, .accums, .whl, .sys, .cyc] L = true) (e : execWhlFaultClr who' n' s = .next t) :
    Moves L s.chip t.chip := by
  unfold execWhlFaultClr at e
  refine upd_moves (fun m => ?_) e
  refine Moves.ite ?_ ?_
  · refine Chip.whlFaultClear_moves ?_ (within_sub w (by decide +kernel))
    exact .refl
  · exact .refl

theorem execWheelEdge_moves {L : List Part} {n' : Whl} {x' : WhlSample} {steepOther' : Bool} {both' : Bool} {s t : State}
    (w : within [.rCh, .rLat, .rDrv, .rWhl, .rMdl, .rBk, .rBst, .rDg, .rDgb, .rCap, .rInt, .rMap, .frees, .asleep, .accums, .whl, .mdl, .chans, .banks, .boost, .bcap, .sys, .cyc] L = true) (e : execWheelEdge n' x' steepOther' both' s = .next t) :
    Moves L s.chip t.chip := by
  unfold execWheelEdge at e
  refine upd_moves (fun m => ?_) e
  refine Chip.whlEdge_moves ?_ (within_sub w (by decide +kernel))
  exact .refl

end Sys2Proof.Machine
end

