-- ==== Sys2Proof/Laws/MovesBus.lean ====
section
/-! SUPPORT. Each operation of Machine/Bus.lean moves the block within the parts it names. -/

-- Theorem by theorem: many at once each take a thread's stack, and the package as one text ran out of them.
set_option Elab.async false

namespace Sys2Proof.Machine

theorem Chip.noteWrite_moves {L : List Part} {b m : Chip} {who' : Writer} {a' : Nat} (h : Moves L b m)
    (w : within [.cyc] L = true) :
    Moves L b (Chip.noteWrite m who' a') := by
  unfold Chip.noteWrite
  extract_lets +onlyGivenNames x1
  clear_value x1
  refine Moves.ite ?_ ?_
  · assumption
  · refine Chip.setCycle_moves ?_ (within_sub w (by decide +kernel))
    assumption

theorem Chip.fieldWrite_moves {L : List Part} {b m : Chip} {i w' : Nat} {f : Field} (h : Moves L b m) (w : within [f.part] L = true) :
    Moves L b (m.fieldWrite i w' f) := by
  unfold Chip.fieldWrite
  split
  · exact Chip.wrFrom_moves h w
  · exact Chip.wrFrom_moves h w
  · exact Chip.clearFlags_moves h w
  · exact h

theorem Chip.regPut_moves {L : List Part} {b m : Chip} {r : Reg} {v : Nat} (h : Moves L b m) (w : within [.rHp, .rMb, .rCh, .rTr, .rLat, .rDrv, .rAx, .rWhl, .rMdl, .rBk, .rBst, .rPwr, .rDg, .rDgb, .rCap, .rBcap, .rAdc, .rAs, .rCmp, .rSds, .rAin, .rFe, .rFio, .rTim, .rInt, .rSys, .rSup, .rProt, .rMap, .rNc] L = true) :
    Moves L b (m.regPut r v) :=
  Moves.foldl h fun _ f g => Chip.fieldWrite_moves g (within_field f w)

theorem Chip.plainWrite_moves {L : List Part} {b m : Chip} {r' : Reg} {w' : Nat} (h : Moves L b m)
    (w : within [.rHp, .rMb, .rCh, .rTr, .rLat, .rDrv, .rAx, .rWhl, .rMdl, .rBk, .rBst, .rPwr, .rDg, .rDgb, .rCap, .rBcap, .rAdc, .rAs, .rCmp, .rSds, .rAin, .rFe, .rFio, .rTim, .rInt, .rSys, .rSup, .rProt, .rMap, .rNc, .asleep, .accums, .sys, .cyc] L = true) :
    Moves L b (Chip.plainWrite m r' w') := by
  unfold Chip.plainWrite
  split
  · refine Chip.enable_moves ?_ (within_cons (within_field _ (within_sub w (by decide +kernel))) (within_sub w (by decide +kernel)))
    assumption
  · refine Chip.regPut_moves ?_ (within_sub w (by decide +kernel))
    assumption

theorem Chip.portWrite_moves {L : List Part} {b m : Chip} {r' : Reg} {w' : Nat} (h : Moves L b m)
    (w : within [.rHp, .rMb, .rCh, .rTr, .rLat, .rDrv, .rAx, .rWhl, .rMdl, .rBk, .rBst, .rPwr, .rDg, .rDgb, .rCap, .rBcap, .rAdc, .rAs, .rCmp, .rSds, .rAin, .rFe, .rFio, .rTim, .rInt, .rSys, .rSup, .rProt, .rMap, .rNc, .asleep, .accums, .mbox, .sys, .cyc] L = true) :
    Moves L b (Chip.portWrite m r' w') := by
  unfold Chip.portWrite
  extract_lets +onlyGivenNames x1
  clear_value x1
  extract_lets +onlyGivenNames x2
  have h3 : Moves L b x2 := by
    unfold x2
    refine Moves.ite ?_ ?_
    · refine Chip.mbAbort_moves ?_ (within_sub w (by decide +kernel))
      assumption
    · assumption
  clear_value x2
  refine Moves.ite ?_ ?_
  · refine Chip.headWrite_moves ?_ (within_sub w (by decide +kernel))
    assumption
  · refine Moves.ite ?_ ?_
    · refine Chip.door_moves ?_ (within_sub w (by decide +kernel))
      assumption
    · refine Moves.ite ?_ ?_
      · refine Moves.ite ?_ ?_
        · refine Chip.mbNext_moves ?_ (within_sub w (by decide +kernel))
          assumption
        · assumption
      · refine Chip.plainWrite_moves ?_ (within_sub w (by decide +kernel))
        assumption

theorem Chip.armCmd_moves {L : List Part} {b m : Chip} {who' : Writer} {ch' : Nat} {w' : Nat} (h : Moves L b m)
    (w : within [.rCh, .rTr, .rDrv, .rBk, .rBst, .rDg, .rDgb, .rCap, .rInt, .rMap, .frees, .asleep, .accums, .pool, .poolLast, .orderNo, .chans, .banks, .boost, .bcap, .jour, .sys, .cyc] L = true) :
    Moves L b (Chip.armCmd m who' ch' w') := by
  unfold Chip.armCmd
  extract_lets +onlyGivenNames x1
  have h2 : Moves L b x1 := by
    unfold x1
    refine Moves.ite ?_ ?_
    · refine Chip.cancelAll_moves ?_ (within_sub w (by decide +kernel))
      assumption
    · assumption
  clear_value x1
  refine Moves.ite ?_ ?_
  · refine Chip.cancelDirect_moves ?_ (within_sub w (by decide +kernel))
    assumption
  · refine Moves.ite ?_ ?_
    · refine Chip.armDirect_moves ?_ (within_sub w (by decide +kernel))
      assumption
    · assumption

theorem Chip.chWrite_moves {L : List Part} {b m : Chip} {who' : Writer} {r' : Reg} {w' : Nat} (h : Moves L b m)
    (w : within [.rHp, .rMb, .rCh, .rTr, .rLat, .rDrv, .rAx, .rWhl, .rMdl, .rBk, .rBst, .rPwr, .rDg, .rDgb, .rCap, .rBcap, .rAdc, .rAs, .rCmp, .rSds, .rAin, .rFe, .rFio, .rTim, .rInt, .rSys, .rSup, .rProt, .rMap, .rNc, .frees, .asleep, .accums, .pool, .poolLast, .orderNo, .chans, .banks, .boost, .capReq, .capTb, .bcap, .jour, .sys, .cyc] L = true) :
    Moves L b (Chip.chWrite m who' r' w') := by
  unfold Chip.chWrite
  extract_lets +onlyGivenNames x1
  clear_value x1
  extract_lets +onlyGivenNames x2
  clear_value x2
  extract_lets +onlyGivenNames x3
  have h4 : Moves L b x3 := by
    unfold x3
    refine Chip.touch_moves ?_ (within_sub w (by decide +kernel))
    assumption
  clear_value x3
  extract_lets +onlyGivenNames x5
  have h6 : Moves L b x5 := by
    unfold x5
    refine Moves.ite ?_ ?_
    · refine Chip.tubeClear_moves ?_ (within_sub w (by decide +kernel))
      assumption
    · assumption
  clear_value x5
  refine Moves.ite ?_ ?_
  · refine Chip.chCfgWrite_moves ?_ (within_sub w (by decide +kernel))
    assumption
  · refine Moves.ite ?_ ?_
    · refine Chip.chCfgWrite_moves ?_ (within_sub w (by decide +kernel))
      assumption
    · refine Moves.ite ?_ ?_
      · refine Chip.chCfgWrite_moves ?_ (within_sub w (by decide +kernel))
        assumption
      · refine Moves.ite ?_ ?_
        · refine Chip.armCmd_moves ?_ (within_sub w (by decide +kernel))
          assumption
        · refine Moves.ite ?_ ?_
          · refine Moves.ite ?_ ?_
            · refine Chip.trainUpdate_moves ?_ (within_sub w (by decide +kernel))
              assumption
            · assumption
          · refine Moves.ite ?_ ?_
            · refine Chip.latCfg_moves ?_ (within_sub w (by decide +kernel))
              assumption
            · refine Moves.ite ?_ ?_
              · refine Moves.ite ?_ ?_
                · assumption
                · refine Chip.plainWrite_moves ?_ (within_sub w (by decide +kernel))
                  assumption
              · refine Moves.ite ?_ ?_
                · refine Moves.ite ?_ ?_
                  · refine Chip.trimClear_moves ?_ (within_sub w (by decide +kernel))
                    assumption
                  · assumption
                · refine Moves.ite ?_ ?_
                  · refine Chip.windowWrite_moves ?_ (within_sub w (by decide +kernel))
                    assumption
                  · refine Moves.ite ?_ ?_
                    · refine Chip.windowWrite_moves ?_ (within_sub w (by decide +kernel))
                      assumption
                    · refine Moves.ite ?_ ?_
                      · refine Chip.cappedWrite_moves ?_ (within_sub w (by decide +kernel))
                        refine Chip.wrFrom_moves ?_ (within_sub w (by decide +kernel))
                        assumption
                      · refine Moves.ite ?_ ?_
                        · refine Chip.cappedWrite_moves ?_ (within_sub w (by decide +kernel))
                          assumption
                        · refine Moves.ite ?_ ?_
                          · refine Chip.cappedWrite_moves ?_ (within_sub w (by decide +kernel))
                            assumption
                          · refine Chip.plainWrite_moves ?_ (within_sub w (by decide +kernel))
                            assumption

theorem Chip.whlWrite_moves {L : List Part} {b m : Chip} {r' : Reg} {w' : Nat} (h : Moves L b m)
    (w : within [.rHp, .rMb, .rCh, .rTr, .rLat, .rDrv, .rAx, .rWhl, .rMdl, .rBk, .rBst, .rPwr, .rDg, .rDgb, .rCap, .rBcap, .rAdc, .rAs, .rCmp, .rSds, .rAin, .rFe, .rFio, .rTim, .rInt, .rSys, .rSup, .rProt, .rMap, .rNc, .frees, .asleep, .accums, .whl, .sys, .cyc] L = true) :
    Moves L b (Chip.whlWrite m r' w') := by
  unfold Chip.whlWrite
  extract_lets +onlyGivenNames x1
  clear_value x1
  extract_lets +onlyGivenNames x2
  have h3 : Moves L b x2 := by
    unfold x2
    refine Moves.ite ?_ ?_
    · refine Chip.whlResync_moves ?_ (within_sub w (by decide +kernel))
      assumption
    · assumption
  clear_value x2
  extract_lets +onlyGivenNames x4
  have h5 : Moves L b x4 := by
    unfold x4
    refine Chip.plainWrite_moves ?_ (within_sub w (by decide +kernel))
    assumption
  clear_value x4
  refine Moves.ite ?_ ?_
  · refine Chip.whlCfgWrite_moves ?_ (within_sub w (by decide +kernel))
    assumption
  · refine Moves.ite ?_ ?_
    · refine Moves.ite ?_ ?_
      · refine Chip.whlFaultClear_moves ?_ (within_sub w (by decide +kernel))
        assumption
      · assumption
    · refine Moves.ite ?_ ?_
      · refine Moves.ite ?_ ?_
        · refine Chip.wr_moves ?_ (within_sub w (by decide +kernel))
          assumption
        · assumption
      · refine Moves.ite ?_ ?_
        · refine Moves.ite ?_ ?_
          · refine Chip.plainWrite_moves ?_ (within_sub w (by decide +kernel))
            assumption
          · assumption
        · refine Chip.plainWrite_moves ?_ (within_sub w (by decide +kernel))
          assumption

theorem Chip.mdlWrite_moves {L : List Part} {b m : Chip} {r' : Reg} {w' : Nat} (h : Moves L b m)
    (w : within [.rHp, .rMb, .rCh, .rTr, .rLat, .rDrv, .rAx, .rWhl, .rMdl, .rBk, .rBst, .rPwr, .rDg, .rDgb, .rCap, .rBcap, .rAdc, .rAs, .rCmp, .rSds, .rAin, .rFe, .rFio, .rTim, .rInt, .rSys, .rSup, .rProt, .rMap, .rNc, .frees, .asleep, .accums, .mdl, .sys, .cyc] L = true) :
    Moves L b (Chip.mdlWrite m r' w') := by
  unfold Chip.mdlWrite
  extract_lets +onlyGivenNames x1
  clear_value x1
  extract_lets +onlyGivenNames x2
  have h3 : Moves L b x2 := by
    unfold x2
    refine Moves.ite ?_ ?_
    · refine Chip.fieldSetCmd_moves ?_ (within_sub w (by decide +kernel))
      assumption
    · assumption
  clear_value x2
  extract_lets +onlyGivenNames x4
  have h5 : Moves L b x4 := by
    unfold x4
    refine Chip.plainWrite_moves ?_ (within_sub w (by decide +kernel))
    assumption
  clear_value x4
  refine Moves.ite ?_ ?_
  · refine Chip.mdlCfgWrite_moves ?_ (within_sub w (by decide +kernel))
    assumption
  · refine Moves.ite ?_ ?_
    · refine Moves.ite ?_ ?_
      · refine Chip.learnClearAll_moves ?_ (within_sub w (by decide +kernel))
        assumption
      · assumption
    · refine Moves.ite ?_ ?_
      · refine Moves.ite ?_ ?_
        · refine Chip.poseCommit_moves ?_ (within_sub w (by decide +kernel))
          assumption
        · assumption
      · refine Moves.ite ?_ ?_
        · refine Chip.yawHost_moves ?_ (within_sub w (by decide +kernel))
          assumption
        · refine Moves.ite ?_ ?_
          · refine Moves.ite ?_ ?_
            · refine Chip.deflOffer_moves ?_ (within_sub w (by decide +kernel))
              assumption
            · assumption
          · refine Moves.ite ?_ ?_
            · refine Chip.srcCfgWrite_moves ?_ (within_sub w (by decide +kernel))
              assumption
            · refine Moves.ite ?_ ?_
              · refine Moves.ite ?_ ?_
                · assumption
                · refine Chip.plainWrite_moves ?_ (within_sub w (by decide +kernel))
                  assumption
              · refine Chip.plainWrite_moves ?_ (within_sub w (by decide +kernel))
                assumption

theorem Chip.driveWrite_moves {L : List Part} {b m : Chip} {r' : Reg} {w' : Nat} (h : Moves L b m)
    (w : within [.rHp, .rMb, .rCh, .rTr, .rLat, .rDrv, .rAx, .rWhl, .rMdl, .rBk, .rBst, .rPwr, .rDg, .rDgb, .rCap, .rBcap, .rAdc, .rAs, .rCmp, .rSds, .rAin, .rFe, .rFio, .rTim, .rInt, .rSys, .rSup, .rProt, .rMap, .rNc, .frees, .asleep, .accums, .pool, .poolLast, .chans, .banks, .boost, .capReq, .capTb, .bcap, .jour, .sys, .cyc] L = true) :
    Moves L b (Chip.driveWrite m r' w') := by
  unfold Chip.driveWrite
  extract_lets +onlyGivenNames x1
  clear_value x1
  extract_lets +onlyGivenNames x2
  clear_value x2
  extract_lets +onlyGivenNames x3
  clear_value x3
  extract_lets +onlyGivenNames x4
  have h5 : Moves L b x4 := by
    unfold x4
    refine Moves.ite ?_ ?_
    · refine Chip.diagClr_moves ?_ (within_sub w (by decide +kernel))
      assumption
    · assumption
  clear_value x4
  extract_lets +onlyGivenNames x6
  clear_value x6
  refine Moves.ite ?_ ?_
  · refine Chip.bankCtl_moves ?_ (within_sub w (by decide +kernel))
    assumption
  · refine Moves.ite ?_ ?_
    · refine Chip.bstCtl_moves ?_ (within_sub w (by decide +kernel))
      assumption
    · refine Moves.ite ?_ ?_
      · refine Chip.boostEval_moves ?_ (within_sub w (by decide +kernel))
        refine Chip.plainWrite_moves ?_ (within_sub w (by decide +kernel))
        assumption
      · refine Moves.ite ?_ ?_
        · refine Moves.ite ?_ ?_
          · refine Chip.setBank_moves ?_ (within_sub w (by decide +kernel))
            assumption
          · assumption
        · refine Moves.ite ?_ ?_
          · refine Chip.capCmd_moves ?_ (within_sub w (by decide +kernel))
            assumption
          · refine Moves.ite ?_ ?_
            · refine Chip.capFill_moves ?_ (within_sub w (by decide +kernel))
              refine Chip.plainWrite_moves ?_ (within_sub w (by decide +kernel))
              assumption
            · refine Moves.ite ?_ ?_
              · refine Moves.ite ?_ ?_
                · refine Chip.setDrv_moves ?_ (within_sub w (by decide +kernel))
                  assumption
                · assumption
              · refine Chip.plainWrite_moves ?_ (within_sub w (by decide +kernel))
                assumption

theorem Chip.observerWrite_moves {L : List Part} {b m : Chip} {r' : Reg} {w' : Nat} (h : Moves L b m)
    (w : within [.rHp, .rMb, .rCh, .rTr, .rLat, .rDrv, .rAx, .rWhl, .rMdl, .rBk, .rBst, .rPwr, .rDg, .rDgb, .rCap, .rBcap, .rAdc, .rAs, .rCmp, .rSds, .rAin, .rFe, .rFio, .rTim, .rInt, .rSys, .rSup, .rProt, .rMap, .rNc, .asleep, .accums, .fe, .tim, .adc, .assay, .cmp, .sds, .sys, .cyc] L = true) :
    Moves L b (Chip.observerWrite m r' w') := by
  unfold Chip.observerWrite
  extract_lets +onlyGivenNames x1
  clear_value x1
  extract_lets +onlyGivenNames x2
  clear_value x2
  refine Moves.ite ?_ ?_
  · refine Chip.adcCtl_moves ?_ (within_sub w (by decide +kernel))
    assumption
  · refine Moves.ite ?_ ?_
    · refine Chip.adcSel_moves ?_ (within_sub w (by decide +kernel))
      assumption
    · refine Moves.ite ?_ ?_
      · refine Moves.ite ?_ ?_
        · refine Chip.adcBegin_moves ?_ (within_sub w (by decide +kernel))
          assumption
        · refine Moves.ite ?_ ?_
          · refine Chip.adcFlag_moves ?_ (within_sub w (by decide +kernel))
            assumption
          · assumption
      · refine Moves.ite ?_ ?_
        · refine Chip.asCtl_moves ?_ (within_sub w (by decide +kernel))
          assumption
        · refine Moves.ite ?_ ?_
          · refine Chip.cmpWrite_moves ?_ (within_sub w (by decide +kernel))
            assumption
          · refine Moves.ite ?_ ?_
            · refine Chip.cmpWrite_moves ?_ (within_sub w (by decide +kernel))
              assumption
            · refine Moves.ite ?_ ?_
              · refine Chip.sdsWrite_moves ?_ (within_sub w (by decide +kernel))
                assumption
              · refine Moves.ite ?_ ?_
                · refine Chip.sdsWrite_moves ?_ (within_sub w (by decide +kernel))
                  assumption
                · refine Moves.ite ?_ ?_
                  · refine Chip.feCtl_moves ?_ (within_sub w (by decide +kernel))
                    assumption
                  · refine Moves.ite ?_ ?_
                    · refine Chip.feTx_moves ?_ (within_sub w (by decide +kernel))
                      assumption
                    · refine Moves.ite ?_ ?_
                      · refine Chip.feProg_moves ?_ (within_sub w (by decide +kernel))
                        assumption
                      · refine Moves.ite ?_ ?_
                        · refine Chip.groupLower_moves ?_ (within_sub w (by decide +kernel))
                          assumption
                        · refine Moves.ite ?_ ?_
                          · refine Chip.feSync_moves ?_ (within_sub w (by decide +kernel))
                            assumption
                          · refine Moves.ite ?_ ?_
                            · refine Chip.plainWrite_moves ?_ (within_sub w (by decide +kernel))
                              refine Chip.feSettle_moves ?_ (within_sub w (by decide +kernel))
                              assumption
                            · refine Moves.ite ?_ ?_
                              · refine Chip.timWrite_moves ?_ (within_sub w (by decide +kernel))
                                assumption
                              · refine Moves.ite ?_ ?_
                                · refine Chip.timWrite_moves ?_ (within_sub w (by decide +kernel))
                                  assumption
                                · refine Chip.plainWrite_moves ?_ (within_sub w (by decide +kernel))
                                  assumption

theorem Chip.intWrite_moves {L : List Part} {b m : Chip} {who' : Writer} {r' : Reg} {w' : Nat} (h : Moves L b m)
    (w : within [.rHp, .rMb, .rCh, .rTr, .rLat, .rDrv, .rAx, .rWhl, .rMdl, .rBk, .rBst, .rPwr, .rDg, .rDgb, .rCap, .rBcap, .rAdc, .rAs, .rCmp, .rSds, .rAin, .rFe, .rFio, .rTim, .rInt, .rSys, .rSup, .rProt, .rMap, .rNc, .asleep, .accums, .sys, .cyc] L = true) :
    Moves L b (Chip.intWrite m who' r' w') := by
  unfold Chip.intWrite
  extract_lets +onlyGivenNames x1
  clear_value x1
  extract_lets +onlyGivenNames x2
  clear_value x2
  extract_lets +onlyGivenNames x3
  have h4 : Moves L b x3 := by
    unfold x3
    refine Chip.plainWrite_moves ?_ (within_sub w (by decide +kernel))
    assumption
  clear_value x3
  refine Moves.ite ?_ ?_
  · refine Moves.ite ?_ ?_
    · assumption
    · refine Chip.lateWrite_moves ?_ (within_sub w (by decide +kernel))
      refine Moves.ite ?_ ?_
      · assumption
      · refine Chip.wr_moves ?_ (within_sub w (by decide +kernel))
        assumption
  · refine Moves.ite ?_ ?_
    · refine Moves.ite ?_ ?_
      · refine Chip.occur_moves ?_ (within_sub w (by decide +kernel))
        assumption
      · assumption
    · refine Moves.ite ?_ ?_
      · refine Chip.clrPend_moves ?_ (within_sub w (by decide +kernel))
        assumption
      · refine Moves.ite ?_ ?_
        · refine Chip.wr_moves ?_ (within_sub w (by decide +kernel))
          assumption
        · refine Chip.lateWrite_moves ?_ (within_sub w (by decide +kernel))
          refine Chip.plainWrite_moves ?_ (within_sub w (by decide +kernel))
          assumption

theorem Chip.gateWrite_moves {L : List Part} {b m : Chip} {r' : Reg} {w' : Nat} (h : Moves L b m)
    (w : within [.rHp, .rMb, .rCh, .rTr, .rLat, .rDrv, .rAx, .rWhl, .rMdl, .rBk, .rBst, .rPwr, .rDg, .rDgb, .rCap, .rBcap, .rAdc, .rAs, .rCmp, .rSds, .rAin, .rFe, .rFio, .rTim, .rInt, .rSys, .rSup, .rProt, .rMap, .rNc, .asleep, .accums, .fe, .sys, .cyc] L = true) :
    Moves L b (Chip.gateWrite m r' w') := by
  unfold Chip.gateWrite
  extract_lets +onlyGivenNames x1
  have h2 : Moves L b x1 := by
    unfold x1
    refine Moves.foldl ?_ fun y3 a4 h5 => ?_
    · assumption
    · refine Chip.feSettle_moves ?_ (within_sub w (by decide +kernel))
      assumption
  clear_value x1
  extract_lets +onlyGivenNames x6
  clear_value x6
  refine Chip.plainWrite_moves ?_ (within_sub w (by decide +kernel))
  refine Chip.setCycle_moves ?_ (within_sub w (by decide +kernel))
  assumption

theorem Chip.resetIslands_moves {L : List Part} {b m : Chip} {w' : Nat} (h : Moves L b m)
    (w : within [.rHp, .rMb, .rCh, .rTr, .rLat, .rDrv, .rAx, .rWhl, .rMdl, .rBk, .rBst, .rPwr, .rDg, .rDgb, .rCap, .rBcap, .rAdc, .rAs, .rCmp, .rSds, .rAin, .rFe, .rFio, .rTim, .rInt, .rSys, .rSup, .rProt, .rMap, .rNc, .tb, .mem, .isl, .stamps, .frees, .rdata, .asleep, .accums, .holdEnd, .coreV, .coreC, .whl, .mdl, .axes, .pool, .poolLast, .orderNo, .chans, .banks, .boost, .capReq, .capTb, .copies, .wear, .bcap, .jour, .recs, .fe, .fio, .tim, .adc, .assay, .cmp, .sds, .map, .saved, .nand, .mbox, .port, .gelow, .sys, .sup, .link, .refetch, .cyc] L = true) :
    Moves L b (Chip.resetIslands m w') := by
  unfold Chip.resetIslands
  refine Moves.foldl ?_ fun y1 a2 h3 => ?_
  · assumption
  · refine Moves.ite ?_ ?_
    · refine Chip.islandReset_moves ?_ (within_sub w (by decide +kernel))
      assumption
    · assumption

theorem Chip.fltEnable_moves {L : List Part} {b m : Chip} {w' : Nat} (h : Moves L b m)
    (w : within [.rInt, .rSys, .asleep, .accums, .sys, .cyc] L = true) :
    Moves L b (Chip.fltEnable m w') := by
  unfold Chip.fltEnable
  extract_lets +onlyGivenNames x1
  clear_value x1
  extract_lets +onlyGivenNames x2
  have h3 : Moves L b x2 := by
    unfold x2
    refine Chip.wr_moves ?_ (within_sub w (by decide +kernel))
    assumption
  clear_value x2
  refine Moves.foldl ?_ fun y4 a5 h6 => ?_
  · assumption
  · refine Moves.ite ?_ ?_
    · refine Chip.occur_moves ?_ (within_sub w (by decide +kernel))
      assumption
    · assumption

theorem Chip.freeByte_moves {L : List Part} {b m : Chip} (h : Moves L b m)
    (w : within [.frees] L = true) :
    Moves L b (Chip.freeByte m).2 := by
  unfold Chip.freeByte
  split
  · rename_i y1 y2 y3 q4
    have h5 : Moves L b ((y2 : Int), y3).2 := by
      rw [← q4]
      refine Chip.free_moves ?_ (within_sub w (by decide +kernel))
      assumption
    refine Moves.pair ?_
    assumption

theorem Chip.sysWrite_moves {L : List Part} {b m : Chip} {who' : Writer} {r' : Reg} {w' : Nat} (h : Moves L b m)
    (w : within [.rHp, .rMb, .rCh, .rTr, .rLat, .rDrv, .rAx, .rWhl, .rMdl, .rBk, .rBst, .rPwr, .rDg, .rDgb, .rCap, .rBcap, .rAdc, .rAs, .rCmp, .rSds, .rAin, .rFe, .rFio, .rTim, .rInt, .rSys, .rSup, .rProt, .rMap, .rNc, .tb, .mem, .isl, .stamps, .frees, .rdata, .asleep, .accums, .holdEnd, .coreV, .coreC, .whl, .mdl, .axes, .pool, .poolLast, .orderNo, .chans, .banks, .boost, .capReq, .capTb, .copies, .wear, .bcap, .jour, .recs, .fe, .fio, .tim, .adc, .assay, .cmp, .sds, .map, .saved, .nand, .mbox, .port, .gelow, .sys, .sup, .link, .refetch, .cyc] L = true) :
    Moves L b (Chip.sysWrite m who' r' w') := by
  unfold Chip.sysWrite
  extract_lets +onlyGivenNames x1
  clear_value x1
  extract_lets +onlyGivenNames x2
  clear_value x2
  refine Moves.ite ?_ ?_
  · refine Chip.clkCfg_moves ?_ (within_sub w (by decide +kernel))
    assumption
  · refine Moves.ite ?_ ?_
    · refine Chip.selWrite_moves ?_ (within_sub w (by decide +kernel))
      assumption
    · refine Moves.ite ?_ ?_
      · refine Chip.selWrite_moves ?_ (within_sub w (by decide +kernel))
        assumption
      · refine Moves.ite ?_ ?_
        · refine Chip.trimWrite_moves ?_ (within_sub w (by decide +kernel))
          assumption
        · refine Moves.ite ?_ ?_
          · refine Chip.gateWrite_moves ?_ (within_sub w (by decide +kernel))
            assumption
          · refine Moves.ite ?_ ?_
            · refine Chip.resetIslands_moves ?_ (within_sub w (by decide +kernel))
              assumption
            · refine Moves.ite ?_ ?_
              · refine Moves.ite ?_ ?_
                · refine Moves.sys ?_ (within_sub w (by decide +kernel))
                  assumption
                · assumption
              · refine Moves.ite ?_ ?_
                · refine Moves.ite ?_ ?_
                  · refine Moves.sys ?_ (within_sub w (by decide +kernel))
                    assumption
                  · assumption
                · refine Moves.ite ?_ ?_
                  · refine Moves.ite ?_ ?_
                    · refine Moves.sys ?_ (within_sub w (by decide +kernel))
                      assumption
                    · assumption
                  · refine Moves.ite ?_ ?_
                    · split
                      · refine Chip.bootRcv_moves ?_ (within_sub w (by decide +kernel))
                        assumption
                      · assumption
                    · refine Moves.ite ?_ ?_
                      · refine Chip.fltEnable_moves ?_ (within_sub w (by decide +kernel))
                        assumption
                      · refine Moves.ite ?_ ?_
                        · split
                          · rename_i y3 y4 y5 q6
                            have h7 : Moves L b ((y4 : Nat), y5).2 := by
                              rw [← q6]
                              refine Chip.freeByte_moves ?_ (within_sub w (by decide +kernel))
                              assumption
                            refine Chip.supCtl_moves ?_ (within_sub w (by decide +kernel))
                            assumption
                        · refine Chip.plainWrite_moves ?_ (within_sub w (by decide +kernel))
                          assumption

theorem Chip.bankLimits_moves {L : List Part} {b m : Chip} {b' : Nat} (h : Moves L b m)
    (w : within [.rBk] L = true) :
    Moves L b (Chip.bankLimits m b') := by
  unfold Chip.bankLimits
  refine Chip.wr_moves ?_ (within_sub w (by decide +kernel))
  refine Chip.wr_moves ?_ (within_sub w (by decide +kernel))
  refine Chip.wr_moves ?_ (within_sub w (by decide +kernel))
  refine Chip.wr_moves ?_ (within_sub w (by decide +kernel))
  assumption

theorem Chip.protWrite_moves {L : List Part} {b m : Chip} {r' : Reg} {w' : Nat} (h : Moves L b m)
    (w : within [.rHp, .rMb, .rCh, .rTr, .rLat, .rDrv, .rAx, .rWhl, .rMdl, .rBk, .rBst, .rPwr, .rDg, .rDgb, .rCap, .rBcap, .rAdc, .rAs, .rCmp, .rSds, .rAin, .rFe, .rFio, .rTim, .rInt, .rSys, .rSup, .rProt, .rMap, .rNc, .asleep, .accums, .sys, .cyc] L = true) :
    Moves L b (Chip.protWrite m r' w') := by
  unfold Chip.protWrite
  extract_lets +onlyGivenNames x1
  clear_value x1
  refine Moves.ite ?_ ?_
  · refine Moves.ite ?_ ?_
    · refine Chip.seal_moves ?_ (within_sub w (by decide +kernel))
      assumption
    · assumption
  · refine Moves.ite ?_ ?_
    · refine Chip.keyProg_moves ?_ (within_sub w (by decide +kernel))
      assumption
    · refine Moves.ite ?_ ?_
      · refine Chip.bankLimits_moves ?_ (within_sub w (by decide +kernel))
        refine Chip.plainWrite_moves ?_ (within_sub w (by decide +kernel))
        assumption
      · refine Chip.plainWrite_moves ?_ (within_sub w (by decide +kernel))
        assumption

theorem Chip.mapWrite_moves {L : List Part} {b m : Chip} {r' : Reg} {w' : Nat} (h : Moves L b m)
    (w : within [.rHp, .rMb, .rCh, .rTr, .rLat, .rDrv, .rAx, .rWhl, .rMdl, .rBk, .rBst, .rPwr, .rDg, .rDgb, .rCap, .rBcap, .rAdc, .rAs, .rCmp, .rSds, .rAin, .rFe, .rFio, .rTim, .rInt, .rSys, .rSup, .rProt, .rMap, .rNc, .frees, .asleep, .accums, .chans, .banks, .boost, .bcap, .map, .nand, .sys, .cyc] L = true) :
    Moves L b (Chip.mapWrite m r' w') := by
  unfold Chip.mapWrite
  extract_lets +onlyGivenNames x1
  clear_value x1
  extract_lets +onlyGivenNames x2
  have h3 : Moves L b x2 := by
    unfold x2
    refine Chip.plainWrite_moves ?_ (within_sub w (by decide +kernel))
    assumption
  clear_value x2
  extract_lets +onlyGivenNames x4
  clear_value x4
  extract_lets +onlyGivenNames x5
  have h6 : Moves L b x5 := by
    unfold x5
    refine Moves.foldl ?_ fun y7 a8 h9 => ?_
    · assumption
    · refine Chip.wrFrom_moves ?_ (within_field _ (within_sub w (by decide +kernel)))
      assumption
  clear_value x5
  extract_lets +onlyGivenNames x10
  have h11 : Moves L b x10 := by
    unfold x10
    refine Moves.ite ?_ ?_
    · assumption
    · refine Chip.wrFrom_moves ?_ (within_sub w (by decide +kernel))
      refine Chip.wrFrom_moves ?_ (within_sub w (by decide +kernel))
      assumption
  clear_value x10
  refine Moves.ite ?_ ?_
  · refine Moves.ite ?_ ?_
    · assumption
    · refine Chip.gatesOff_moves ?_ (within_sub w (by decide +kernel))
      assumption
  · refine Moves.ite ?_ ?_
    · refine Moves.ite ?_ ?_
      · assumption
      · refine Chip.gateDisable_moves ?_ (within_sub w (by decide +kernel))
        assumption
    · refine Moves.ite ?_ ?_
      · refine Moves.ite ?_ ?_
        · refine Chip.nandUnmount_moves ?_ (within_sub w (by decide +kernel))
          assumption
        · refine Chip.wrFrom_moves ?_ (within_sub w (by decide +kernel))
          assumption
      · refine Chip.plainWrite_moves ?_ (within_sub w (by decide +kernel))
        assumption

theorem Chip.regWrite_moves {L : List Part} {b m : Chip} {who' : Writer} {r' : Reg} {w' : Nat} (h : Moves L b m)
    (w : within [.rHp, .rMb, .rCh, .rTr, .rLat, .rDrv, .rAx, .rWhl, .rMdl, .rBk, .rBst, .rPwr, .rDg, .rDgb, .rCap, .rBcap, .rAdc, .rAs, .rCmp, .rSds, .rAin, .rFe, .rFio, .rTim, .rInt, .rSys, .rSup, .rProt, .rMap, .rNc, .tb, .mem, .isl, .stamps, .frees, .rdata, .asleep, .accums, .holdEnd, .coreV, .coreC, .whl, .mdl, .axes, .pool, .poolLast, .orderNo, .chans, .banks, .boost, .capReq, .capTb, .copies, .wear, .bcap, .jour, .recs, .fe, .fio, .tim, .adc, .assay, .cmp, .sds, .map, .saved, .nand, .mbox, .port, .gelow, .sys, .sup, .link, .refetch, .cyc] L = true) :
    Moves L b (Chip.regWrite m who' r' w') := by
  unfold Chip.regWrite
  extract_lets +onlyGivenNames x1
  clear_value x1
  refine Moves.ite ?_ ?_
  · refine Chip.portWrite_moves ?_ (within_sub w (by decide +kernel))
    assumption
  · refine Moves.ite ?_ ?_
    · refine Chip.chWrite_moves ?_ (within_sub w (by decide +kernel))
      assumption
    · refine Moves.ite ?_ ?_
      · refine Moves.ite ?_ ?_
        · refine Chip.axCfgWrite_moves ?_ (within_sub w (by decide +kernel))
          assumption
        · refine Chip.plainWrite_moves ?_ (within_sub w (by decide +kernel))
          assumption
      · refine Moves.ite ?_ ?_
        · refine Chip.whlWrite_moves ?_ (within_sub w (by decide +kernel))
          assumption
        · refine Moves.ite ?_ ?_
          · refine Chip.mdlWrite_moves ?_ (within_sub w (by decide +kernel))
            assumption
          · refine Moves.ite ?_ ?_
            · refine Chip.driveWrite_moves ?_ (within_sub w (by decide +kernel))
              assumption
            · refine Moves.ite ?_ ?_
              · refine Chip.observerWrite_moves ?_ (within_sub w (by decide +kernel))
                assumption
              · refine Moves.ite ?_ ?_
                · refine Chip.intWrite_moves ?_ (within_sub w (by decide +kernel))
                  assumption
                · refine Moves.ite ?_ ?_
                  · refine Chip.sysWrite_moves ?_ (within_sub w (by decide +kernel))
                    assumption
                  · refine Moves.ite ?_ ?_
                    · refine Chip.protWrite_moves ?_ (within_sub w (by decide +kernel))
                      assumption
                    · refine Chip.mapWrite_moves ?_ (within_sub w (by decide +kernel))
                      assumption

theorem Chip.memWrite_moves {L : List Part} {b m : Chip} {a' : Nat} {w' : Nat} (h : Moves L b m)
    (w : within [.rHp, .rInt, .mem, .asleep, .accums, .sys, .cyc] L = true) :
    Moves L b (Chip.memWrite m a' w') := by
  unfold Chip.memWrite
  extract_lets +onlyGivenNames x1
  clear_value x1
  extract_lets +onlyGivenNames x2
  clear_value x2
  refine Moves.ite ?_ ?_
  · refine Moves.ite ?_ ?_
    · assumption
    · refine Moves.ite ?_ ?_
      · refine Chip.mbFlag_moves ?_ (within_sub w (by decide +kernel))
        assumption
      · refine Chip.storeNat_moves ?_ (within_sub w (by decide +kernel))
        assumption
  · refine Moves.ite ?_ ?_
    · refine Moves.ite ?_ ?_
      · refine Chip.hpFlag_moves ?_ (within_sub w (by decide +kernel))
        assumption
      · refine Chip.storeNat_moves ?_ (within_sub w (by decide +kernel))
        assumption
    · refine Moves.ite ?_ ?_
      · refine Chip.storeNat_moves ?_ (within_sub w (by decide +kernel))
        assumption
      · assumption

theorem Chip.blockWrite_moves {L : List Part} {b m : Chip} {who' : Writer} {a' : Nat} {w' : Nat} (h : Moves L b m)
    (w : within [.rHp, .rMb, .rCh, .rTr, .rLat, .rDrv, .rAx, .rWhl, .rMdl, .rBk, .rBst, .rPwr, .rDg, .rDgb, .rCap, .rBcap, .rAdc, .rAs, .rCmp, .rSds, .rAin, .rFe, .rFio, .rTim, .rInt, .rSys, .rSup, .rProt, .rMap, .rNc, .tb, .mem, .isl, .stamps, .frees, .rdata, .asleep, .accums, .holdEnd, .coreV, .coreC, .whl, .mdl, .axes, .pool, .poolLast, .orderNo, .chans, .banks, .boost, .capReq, .capTb, .copies, .wear, .bcap, .jour, .recs, .fe, .fio, .tim, .adc, .assay, .cmp, .sds, .map, .saved, .nand, .mbox, .port, .gelow, .sys, .sup, .link, .refetch, .cyc] L = true) :
    Moves L b (Chip.blockWrite m who' a' w') := by
  unfold Chip.blockWrite
  extract_lets +onlyGivenNames x1
  have h2 : Moves L b x1 := by
    unfold x1
    refine Moves.ite ?_ ?_
    · refine Chip.noteWrite_moves ?_ (within_sub w (by decide +kernel))
      assumption
    · assumption
  clear_value x1
  refine Moves.ite ?_ ?_
  · assumption
  · split
    · refine Moves.ite ?_ ?_
      · refine Chip.wakeReq_moves ?_ (within_sub w (by decide +kernel))
        assumption
      · refine Moves.ite ?_ ?_
        · refine Chip.regWrite_moves ?_ (within_sub w (by decide +kernel))
          assumption
        · assumption
    · refine Moves.ite ?_ ?_
      · refine Chip.memWrite_moves ?_ (within_sub w (by decide +kernel))
        assumption
      · assumption

theorem Chip.busWrite_moves {L : List Part} {b m : Chip} {who' : Writer} {a' : Nat} {w' : Nat} (h : Moves L b m)
    (w : within [.rHp, .rMb, .rCh, .rTr, .rLat, .rDrv, .rAx, .rWhl, .rMdl, .rBk, .rBst, .rPwr, .rDg, .rDgb, .rCap, .rBcap, .rAdc, .rAs, .rCmp, .rSds, .rAin, .rFe, .rFio, .rTim, .rInt, .rSys, .rSup, .rProt, .rMap, .rNc, .tb, .mem, .isl, .stamps, .frees, .rdata, .asleep, .accums, .holdEnd, .coreV, .coreC, .whl, .mdl, .axes, .pool, .poolLast, .orderNo, .chans, .banks, .boost, .capReq, .capTb, .copies, .wear, .bcap, .jour, .recs, .fe, .fio, .tim, .adc, .assay, .cmp, .sds, .map, .saved, .nand, .mbox, .port, .gelow, .sys, .sup, .link, .refetch, .cyc] L = true) :
    Moves L b (Chip.busWrite m who' a' w') := by
  unfold Chip.busWrite
  refine Moves.ite ?_ ?_
  · assumption
  · refine Moves.ite ?_ ?_
    · refine Chip.trap_moves ?_ (within_sub w (by decide +kernel))
      assumption
    · refine Chip.blockWrite_moves ?_ (within_sub w (by decide +kernel))
      assumption

theorem Chip.rmsRead_moves {L : List Part} {b m : Chip} {ch' : Nat} (h : Moves L b m)
    (w : within [.rDrv, .stamps, .frees] L = true) :
    Moves L b (Chip.rmsRead m ch') := by
  unfold Chip.rmsRead
  refine Moves.ite ?_ ?_
  · refine Chip.wr_moves ?_ (within_sub w (by decide +kernel))
    assumption
  · refine Chip.freeSample_moves ?_ (within_sub w (by decide +kernel))
    assumption

theorem Chip.nodeVolts_moves {L : List Part} {b m : Chip} {b' : Nat} (h : Moves L b m)
    (w : within [.rBk, .stamps, .frees] L = true) :
    Moves L b (Chip.nodeVolts m b') := by
  unfold Chip.nodeVolts
  refine Moves.ite ?_ ?_
  · refine Chip.wr_moves ?_ (within_sub w (by decide +kernel))
    assumption
  · refine Moves.ite ?_ ?_
    · refine Chip.wr_moves ?_ (within_sub w (by decide +kernel))
      assumption
    · refine Chip.freeSample_moves ?_ (within_sub w (by decide +kernel))
      assumption

theorem Chip.boostOut_moves {L : List Part} {b m : Chip} (h : Moves L b m)
    (w : within [.rBst, .stamps, .frees] L = true) :
    Moves L b (Chip.boostOut m) := by
  unfold Chip.boostOut
  extract_lets +onlyGivenNames x1
  clear_value x1
  refine Moves.ite ?_ ?_
  · refine Chip.freeSample_moves ?_ (within_sub w (by decide +kernel))
    assumption
  · refine Chip.wr_moves ?_ (within_sub w (by decide +kernel))
    assumption

theorem Chip.freshen_moves {L : List Part} {b m : Chip} {r' : Reg} (h : Moves L b m)
    (w : within [.rHp, .rCh, .rTr, .rDrv, .rAx, .rBk, .rBst, .rDg, .rAdc, .rFe, .rFio, .rInt, .rMap, .rNc, .stamps, .frees, .boost, .fe] L = true) :
    Moves L b (Chip.freshen m r') := by
  unfold Chip.freshen
  extract_lets +onlyGivenNames x1
  clear_value x1
  extract_lets +onlyGivenNames x2
  clear_value x2
  refine Moves.ite ?_ ?_
  · refine Chip.wrB_moves ?_ (within_sub w (by decide +kernel))
    refine Chip.wr_moves ?_ (within_sub w (by decide +kernel))
    refine Chip.wr_moves ?_ (within_sub w (by decide +kernel))
    assumption
  · refine Moves.ite ?_ ?_
    · refine Chip.wr_moves ?_ (within_sub w (by decide +kernel))
      refine Chip.wr_moves ?_ (within_sub w (by decide +kernel))
      assumption
    · refine Moves.ite ?_ ?_
      · refine Chip.wrB_moves ?_ (within_sub w (by decide +kernel))
        assumption
      · refine Moves.ite ?_ ?_
        · split
          · assumption
          · refine Chip.wr_moves ?_ (within_sub w (by decide +kernel))
            refine Chip.wr_moves ?_ (within_sub w (by decide +kernel))
            assumption
        · refine Moves.ite ?_ ?_
          · refine Chip.wrB_moves ?_ (within_sub w (by decide +kernel))
            assumption
          · refine Moves.ite ?_ ?_
            · refine Chip.rmsRead_moves ?_ (within_sub w (by decide +kernel))
              assumption
            · refine Moves.ite ?_ ?_
              · refine Chip.nodeVolts_moves ?_ (within_sub w (by decide +kernel))
                assumption
              · refine Moves.ite ?_ ?_
                · refine Chip.freeSample_moves ?_ (within_sub w (by decide +kernel))
                  assumption
                · refine Moves.ite ?_ ?_
                  · refine Chip.freeSample_moves ?_ (within_sub w (by decide +kernel))
                    assumption
                  · refine Moves.ite ?_ ?_
                    · refine Chip.boostOut_moves ?_ (within_sub w (by decide +kernel))
                      assumption
                    · refine Moves.ite ?_ ?_
                      · refine Chip.clampTake_moves ?_ (within_sub w (by decide +kernel))
                        assumption
                      · refine Moves.ite ?_ ?_
                        · refine Chip.freeSample_moves ?_ (within_sub w (by decide +kernel))
                          assumption
                        · refine Moves.ite ?_ ?_
                          · refine Chip.freeSample_moves ?_ (within_sub w (by decide +kernel))
                            assumption
                          · refine Moves.ite ?_ ?_
                            · refine Chip.feSettle_moves ?_ (within_sub w (by decide +kernel))
                              assumption
                            · refine Moves.ite ?_ ?_
                              · refine Chip.wrB_moves ?_ (within_sub w (by decide +kernel))
                                assumption
                              · refine Moves.ite ?_ ?_
                                · refine Chip.wrB_moves ?_ (within_sub w (by decide +kernel))
                                  assumption
                                · refine Moves.ite ?_ ?_
                                  · refine Chip.wrB_moves ?_ (within_sub w (by decide +kernel))
                                    assumption
                                  · refine Moves.ite ?_ ?_
                                    · refine Chip.wrB_moves ?_ (within_sub w (by decide +kernel))
                                      assumption
                                    · refine Moves.ite ?_ ?_
                                      · refine Moves.ite ?_ ?_
                                        · refine Chip.wrB_moves ?_ (within_sub w (by decide +kernel))
                                          assumption
                                        · assumption
                                      · refine Moves.ite ?_ ?_
                                        · refine Chip.wr_moves ?_ (within_sub w (by decide +kernel))
                                          assumption
                                        · refine Moves.ite ?_ ?_
                                          · refine Chip.mapStat_moves ?_ (within_sub w (by decide +kernel))
                                            assumption
                                          · refine Moves.ite ?_ ?_
                                            · refine Moves.ite ?_ ?_
                                              · refine Chip.wr_moves ?_ (within_sub w (by decide +kernel))
                                                assumption
                                              · refine Chip.freeSample_moves ?_ (within_sub w (by decide +kernel))
                                                assumption
                                            · refine Moves.ite ?_ ?_
                                              · refine Chip.wr_moves ?_ (within_sub w (by decide +kernel))
                                                assumption
                                              · assumption

theorem Chip.rcClear_moves {L : List Part} {b m : Chip} {f : Field} {i : Nat} (h : Moves L b m)
    (w : within (f.part :: [.cyc]) L = true) : Moves L b (m.rcClear f i) :=
  Chip.wr_moves (Chip.setCycle_moves h (within_tail w)) (within_head w)

theorem Chip.clearRc_moves {L : List Part} {b m : Chip} {r : Reg} (h : Moves L b m) (w : within [.rHp, .rMb, .rCh, .rTr, .rLat, .rDrv, .rAx, .rWhl, .rMdl, .rBk, .rBst, .rPwr, .rDg, .rDgb, .rCap, .rBcap, .rAdc, .rAs, .rCmp, .rSds, .rAin, .rFe, .rFio, .rTim, .rInt, .rSys, .rSup, .rProt, .rMap, .rNc, .cyc] L = true) :
    Moves L b (m.clearRc r) :=
  Moves.foldl h fun _ f g => Chip.rcClear_moves g (within_cons (within_field f (within_sub w (by decide +kernel))) (within_sub w (by decide +kernel)))

theorem Chip.regRead_moves {L : List Part} {b m : Chip} {r' : Reg} (h : Moves L b m)
    (w : within [.rHp, .rMb, .rCh, .rTr, .rLat, .rDrv, .rAx, .rWhl, .rMdl, .rBk, .rBst, .rPwr, .rDg, .rDgb, .rCap, .rBcap, .rAdc, .rAs, .rCmp, .rSds, .rAin, .rFe, .rFio, .rTim, .rInt, .rSys, .rSup, .rProt, .rMap, .rNc, .stamps, .frees, .rdata, .asleep, .accums, .whl, .boost, .fe, .sys, .cyc] L = true) :
    Moves L b (Chip.regRead m r') := by
  unfold Chip.regRead
  extract_lets +onlyGivenNames x1
  clear_value x1
  extract_lets +onlyGivenNames x2
  clear_value x2
  extract_lets +onlyGivenNames x3
  have h4 : Moves L b x3 := by
    unfold x3
    refine Chip.freshen_moves ?_ (within_sub w (by decide +kernel))
    assumption
  clear_value x3
  refine Moves.ite ?_ ?_
  · refine Chip.whlEdgeSnap_moves ?_ (within_sub w (by decide +kernel))
    assumption
  · refine Moves.ite ?_ ?_
    · refine Chip.whlIdxSnap_moves ?_ (within_sub w (by decide +kernel))
      assumption
    · refine Moves.ite ?_ ?_
      · refine Chip.mdlSnapshot_moves ?_ (within_sub w (by decide +kernel))
        assumption
      · refine Moves.ite ?_ ?_
        · refine Chip.axSnapshot_moves ?_ (within_sub w (by decide +kernel))
          assumption
        · refine Moves.ite ?_ ?_
          · refine Chip.chLastRead_moves ?_ (within_sub w (by decide +kernel))
            assumption
          · refine Moves.ite ?_ ?_
            · refine Chip.chHeadRead_moves ?_ (within_sub w (by decide +kernel))
              assumption
            · refine Moves.ite ?_ ?_
              · refine Chip.chSlotRead_moves ?_ (within_sub w (by decide +kernel))
                assumption
              · refine Moves.ite ?_ ?_
                · refine Chip.dgNotchRead_moves ?_ (within_sub w (by decide +kernel))
                  assumption
                · refine Moves.ite ?_ ?_
                  · refine Chip.adcRead_moves ?_ (within_sub w (by decide +kernel))
                    assumption
                  · refine Moves.ite ?_ ?_
                    · refine Chip.asRead_moves ?_ (within_sub w (by decide +kernel))
                      assumption
                    · refine Moves.ite ?_ ?_
                      · refine Chip.cmpRead_moves ?_ (within_sub w (by decide +kernel))
                        assumption
                      · refine Moves.ite ?_ ?_
                        · refine Chip.sdsRead_moves ?_ (within_sub w (by decide +kernel))
                          assumption
                        · refine Moves.ite ?_ ?_
                          · refine Chip.timRead_moves ?_ (within_sub w (by decide +kernel))
                            assumption
                          · refine Moves.ite ?_ ?_
                            · refine Chip.feRx_moves ?_ (within_sub w (by decide +kernel))
                              assumption
                            · refine Chip.clearRc_moves ?_ (within_sub w (by decide +kernel))
                              refine Moves.rdata ?_ (within_sub w (by decide +kernel))
                              assumption

theorem Chip.busRead_moves {L : List Part} {b m : Chip} {a' : Nat} (h : Moves L b m)
    (w : within [.rHp, .rMb, .rCh, .rTr, .rLat, .rDrv, .rAx, .rWhl, .rMdl, .rBk, .rBst, .rPwr, .rDg, .rDgb, .rCap, .rBcap, .rAdc, .rAs, .rCmp, .rSds, .rAin, .rFe, .rFio, .rTim, .rInt, .rSys, .rSup, .rProt, .rMap, .rNc, .stamps, .frees, .rdata, .asleep, .accums, .whl, .boost, .fe, .sys, .cyc] L = true) :
    Moves L b (Chip.busRead m a') := by
  unfold Chip.busRead
  refine Moves.ite ?_ ?_
  · refine Moves.rdata ?_ (within_sub w (by decide +kernel))
    assumption
  · refine Moves.ite ?_ ?_
    · refine Moves.ite ?_ ?_
      · refine Moves.rdata ?_ (within_sub w (by decide +kernel))
        assumption
      · split
        · rename_i y1 y2 y3 q4
          have h5 : Moves L b ((y2 : Int), y3).2 := by
            rw [← q4]
            refine Chip.free_moves ?_ (within_sub w (by decide +kernel))
            assumption
          refine Moves.rdata ?_ (within_sub w (by decide +kernel))
          assumption
    · refine Moves.ite ?_ ?_
      · refine Moves.rdata ?_ (within_sub w (by decide +kernel))
        assumption
      · split
        · refine Moves.ite ?_ ?_
          · refine Moves.rdata ?_ (within_sub w (by decide +kernel))
            assumption
          · refine Chip.regRead_moves ?_ (within_sub w (by decide +kernel))
            assumption
        · refine Moves.ite ?_ ?_
          · refine Chip.respRead_moves ?_ (within_sub w (by decide +kernel))
            assumption
          · refine Moves.rdata ?_ (within_sub w (by decide +kernel))
            assumption

theorem Chip.hostRead_moves {L : List Part} {b m : Chip} {a' : Nat} (h : Moves L b m)
    (w : within [.rHp, .rMb, .rCh, .rTr, .rLat, .rDrv, .rAx, .rWhl, .rMdl, .rBk, .rBst, .rPwr, .rDg, .rDgb, .rCap, .rBcap, .rAdc, .rAs, .rCmp, .rSds, .rAin, .rFe, .rFio, .rTim, .rInt, .rSys, .rSup, .rProt, .rMap, .rNc, .stamps, .frees, .rdata, .asleep, .accums, .whl, .boost, .fe, .sys, .cyc] L = true) :
    Moves L b (Chip.hostRead m a') := by
  unfold Chip.hostRead
  refine Moves.ite ?_ ?_
  · refine Moves.rdata ?_ (within_sub w (by decide +kernel))
    assumption
  · refine Chip.busRead_moves ?_ (within_sub w (by decide +kernel))
    assumption

theorem execMbNext_moves {L : List Part} {x' : Mbx} {s t : State}
    (w : within [.rHp, .rMb, .mbox] L = true) (e : execMbNext x' s = .next t) :
    Moves L s.chip t.chip := by
  unfold execMbNext at e
  refine upd_moves (fun m => ?_) e
  refine Moves.ite ?_ ?_
  · refine Chip.mbNext_moves ?_ (within_sub w (by decide +kernel))
    exact .refl
  · exact .refl

theorem execMbAbort_moves {L : List Part} {x' : Mbx} {s t : State}
    (w : within [.rHp, .rInt, .asleep, .accums, .mbox, .sys, .cyc] L = true) (e : execMbAbort x' s = .next t) :
    Moves L s.chip t.chip := by
  unfold execMbAbort at e
  refine upd_moves (fun m => ?_) e
  refine Moves.ite ?_ ?_
  · refine Chip.mbAbort_moves ?_ (within_sub w (by decide +kernel))
    exact .refl
  · exact .refl

theorem execResponseRead_moves {L : List Part} {x' : Mbx} {s t : State}
    (w : within [.rMb, .rdata] L = true) (e : execResponseRead x' s = .next t) :
    Moves L s.chip t.chip := by
  unfold execResponseRead at e
  refine upd_moves (fun m => ?_) e
  refine Moves.ite ?_ ?_
  · refine Chip.respRead_moves ?_ (within_sub w (by decide +kernel))
    exact .refl
  · exact .refl

theorem execHpQHeadWrite_moves {L : List Part} {p' : Port} {w' : Word} {s t : State}
    (w : within [.rHp, .rInt, .asleep, .accums, .sys, .cyc] L = true) (e : execHpQHeadWrite p' w' s = .next t) :
    Moves L s.chip t.chip := by
  unfold execHpQHeadWrite at e
  refine upd_moves (fun m => ?_) e
  refine Moves.ite ?_ ?_
  · refine Chip.headWrite_moves ?_ (within_sub w (by decide +kernel))
    exact .refl
  · exact .refl

theorem execRegisterWrite_moves {L : List Part} {who' : Writer} {addr' : BitVec 24} {w' : Word} {s t : State}
    (w : within [.rHp, .rMb, .rCh, .rTr, .rLat, .rDrv, .rAx, .rWhl, .rMdl, .rBk, .rBst, .rPwr, .rDg, .rDgb, .rCap, .rBcap, .rAdc, .rAs, .rCmp, .rSds, .rAin, .rFe, .rFio, .rTim, .rInt, .rSys, .rSup, .rProt, .rMap, .rNc, .tb, .mem, .isl, .stamps, .frees, .rdata, .asleep, .accums, .holdEnd, .coreV, .coreC, .whl, .mdl, .axes, .pool, .poolLast, .orderNo, .chans, .banks, .boost, .capReq, .capTb, .copies, .wear, .bcap, .jour, .recs, .fe, .fio, .tim, .adc, .assay, .cmp, .sds, .map, .saved, .nand, .mbox, .port, .gelow, .sys, .sup, .link, .refetch, .cyc] L = true) (e : execRegisterWrite who' addr' w' s = .next t) :
    Moves L s.chip t.chip := by
  unfold execRegisterWrite at e
  refine upd_moves (fun m => ?_) e
  refine Chip.busWrite_moves ?_ (within_sub w (by decide +kernel))
  exact .refl

theorem execMbDoor_moves {L : List Part} {x' : Mbx} {seq' : Byte} {s t : State}
    (w : within [.rHp, .rMb, .rInt, .asleep, .accums, .mbox, .sys, .cyc] L = true) (e : execMbDoor x' seq' s = .next t) :
    Moves L s.chip t.chip := by
  unfold execMbDoor at e
  refine upd_moves (fun m => ?_) e
  refine Moves.ite ?_ ?_
  · refine Chip.door_moves ?_ (within_sub w (by decide +kernel))
    exact .refl
  · exact .refl

theorem execRcRead_moves {L : List Part} {addr' : BitVec 24} {s t : State}
    (w : within [.rHp, .rMb, .rCh, .rTr, .rLat, .rDrv, .rAx, .rWhl, .rMdl, .rBk, .rBst, .rPwr, .rDg, .rDgb, .rCap, .rBcap, .rAdc, .rAs, .rCmp, .rSds, .rAin, .rFe, .rFio, .rTim, .rInt, .rSys, .rSup, .rProt, .rMap, .rNc, .stamps, .frees, .rdata, .asleep, .accums, .whl, .boost, .fe, .sys, .cyc] L = true) (e : execRcRead addr' s = .next t) :
    Moves L s.chip t.chip := by
  unfold execRcRead at e
  refine upd_moves (fun m => ?_) e
  refine Moves.ite ?_ ?_
  · refine Chip.hostRead_moves ?_ (within_sub w (by decide +kernel))
    exact .refl
  · exact .refl

end Sys2Proof.Machine
end

