-- ==== Sys2Proof/Laws/MovesFrames.lean ====
section
/-! SUPPORT. Each operation of Machine/Frames.lean moves the block within the parts it names. -/

-- Theorem by theorem: many at once each take a thread's stack, and the package as one text ran out of them.
set_option Elab.async false

namespace Sys2Proof.Machine

theorem Chip.setPort_moves {L : List Part} {b m : Chip} {p' : Nat} {x' : HostPort} (h : Moves L b m)
    (w : within [.port] L = true) :
    Moves L b (Chip.setPort m p' x') := by
  unfold Chip.setPort
  refine Moves.port ?_ (within_sub w (by decide +kernel))
  assumption

theorem Chip.drives_moves {L : List Part} {b m : Chip} {p' : Nat} {bs' : List Byte} (h : Moves L b m)
    (w : within [.port] L = true) :
    Moves L b (Chip.drives m p' bs') := by
  unfold Chip.drives
  extract_lets +onlyGivenNames x1
  clear_value x1
  refine Chip.setPort_moves ?_ (within_sub w (by decide +kernel))
  assumption

theorem Chip.cut_moves {L : List Part} {b m : Chip} {p' : Nat} (h : Moves L b m)
    (w : within [.rHp, .rInt, .asleep, .accums, .sys, .cyc] L = true) :
    Moves L b (Chip.cut m p') := by
  unfold Chip.cut
  refine Chip.hpFlag_moves ?_ (within_sub w (by decide +kernel))
  refine Chip.count_moves ?_ (within_sub w (by decide +kernel))
  assumption

theorem Chip.header_moves {L : List Part} {b m : Chip} {p' : Nat} {h' : Header} (h : Moves L b m)
    (w : within [.rHp, .rInt, .asleep, .accums, .sys, .cyc] L = true) :
    Moves L b (Chip.header m p' h').2 := by
  unfold Chip.header
  split
  · refine Moves.pair ?_
    refine Chip.hpFlag_moves ?_ (within_sub w (by decide +kernel))
    refine Chip.count_moves ?_ (within_sub w (by decide +kernel))
    assumption
  · split
    · refine Moves.pair ?_
      refine Chip.hpFlag_moves ?_ (within_sub w (by decide +kernel))
      assumption
    · refine Moves.pair ?_
      assumption

theorem Chip.writeWords_moves {L : List Part} {b m : Chip} {who : Writer} {a : Nat} {ws : List Nat} (h : Moves L b m)
    (w : within [.rHp, .rMb, .rCh, .rTr, .rLat, .rDrv, .rAx, .rWhl, .rMdl, .rBk, .rBst, .rPwr, .rDg, .rDgb, .rCap, .rBcap, .rAdc, .rAs, .rCmp, .rSds, .rAin, .rFe, .rFio, .rTim, .rInt, .rSys, .rSup, .rProt, .rMap, .rNc, .tb, .mem, .isl, .stamps, .frees, .rdata, .asleep, .accums, .holdEnd, .coreV, .coreC, .whl, .mdl, .axes, .pool, .poolLast, .orderNo, .chans, .banks, .boost, .capReq, .capTb, .copies, .wear, .bcap, .jour, .recs, .fe, .fio, .tim, .adc, .assay, .cmp, .sds, .map, .saved, .nand, .mbox, .port, .gelow, .sys, .sup, .link, .refetch, .cyc] L = true) : Moves L b (m.writeWords who a ws) := by
  induction ws generalizing m a with
  | nil => exact h
  | cons v r ih => exact ih (Chip.busWrite_moves h w)

theorem Chip.writeData_moves {L : List Part} {b m : Chip} {p' : Nat} {bs' : List Byte} (h : Moves L b m)
    (w : within [.rHp, .rMb, .rCh, .rTr, .rLat, .rDrv, .rAx, .rWhl, .rMdl, .rBk, .rBst, .rPwr, .rDg, .rDgb, .rCap, .rBcap, .rAdc, .rAs, .rCmp, .rSds, .rAin, .rFe, .rFio, .rTim, .rInt, .rSys, .rSup, .rProt, .rMap, .rNc, .tb, .mem, .isl, .stamps, .frees, .rdata, .asleep, .accums, .holdEnd, .coreV, .coreC, .whl, .mdl, .axes, .pool, .poolLast, .orderNo, .chans, .banks, .boost, .capReq, .capTb, .copies, .wear, .bcap, .jour, .recs, .fe, .fio, .tim, .adc, .assay, .cmp, .sds, .map, .saved, .nand, .mbox, .port, .gelow, .sys, .sup, .link, .refetch, .cyc] L = true) :
    Moves L b (Chip.writeData m p' bs').2 := by
  unfold Chip.writeData
  extract_lets +onlyGivenNames x1
  clear_value x1
  extract_lets +onlyGivenNames x2
  clear_value x2
  extract_lets +onlyGivenNames x3
  clear_value x3
  extract_lets +onlyGivenNames x4
  clear_value x4
  extract_lets +onlyGivenNames x5
  unfold x5
  clear_value x5
  split
  · rename_i y6 y7 y8 q9
    have h10 : Moves L b ((some y7 : Option Nat), y8).2 := by
      rw [← q9]
      refine Chip.header_moves ?_ (within_sub w (by decide +kernel))
      assumption
    extract_lets +onlyGivenNames x11
    clear_value x11
    split
    · split
      · refine Moves.pair ?_
        refine Chip.hpFlag_moves ?_ (within_sub w (by decide +kernel))
        assumption
      · refine Moves.pair ?_
        refine Chip.setPort_moves ?_ (within_sub w (by decide +kernel))
        assumption
    · refine Moves.pair ?_
      assumption
  · rename_i y12 y13 q14
    have h15 : Moves L b ((none : Option Nat), y13).2 := by
      rw [← q14]
      refine Chip.header_moves ?_ (within_sub w (by decide +kernel))
      assumption
    split
    · refine Moves.pair ?_
      refine Chip.hpFlag_moves ?_ (within_sub w (by decide +kernel))
      refine Chip.count_moves ?_ (within_sub w (by decide +kernel))
      assumption
    · split
      · refine Moves.pair ?_
        refine Chip.hpFlag_moves ?_ (within_sub w (by decide +kernel))
        assumption
      · extract_lets +onlyGivenNames x16
        have h17 : Moves L b x16 := by
          unfold x16
          refine Chip.writeWords_moves ?_ (within_sub w (by decide +kernel))
          assumption
        clear_value x16
        extract_lets +onlyGivenNames x18
        clear_value x18
        refine Moves.pair ?_
        refine Chip.setPort_moves ?_ (within_sub w (by decide +kernel))
        assumption

theorem Chip.readWords_moves {L : List Part} {b m : Chip} {a n : Nat} (h : Moves L b m) (w : within [.rHp, .rMb, .rCh, .rTr, .rLat, .rDrv, .rAx, .rWhl, .rMdl, .rBk, .rBst, .rPwr, .rDg, .rDgb, .rCap, .rBcap, .rAdc, .rAs, .rCmp, .rSds, .rAin, .rFe, .rFio, .rTim, .rInt, .rSys, .rSup, .rProt, .rMap, .rNc, .stamps, .frees, .rdata, .asleep, .accums, .whl, .boost, .fe, .sys, .cyc] L = true) :
    Moves L b (m.readWords a n).2 := by
  induction n generalizing m a with
  | zero => exact h
  | succ k ih => exact ih (Chip.hostRead_moves h w)

theorem Chip.readData_moves {L : List Part} {b m : Chip} {p' : Nat} {bs' : List Byte} (h : Moves L b m)
    (w : within [.rHp, .rMb, .rCh, .rTr, .rLat, .rDrv, .rAx, .rWhl, .rMdl, .rBk, .rBst, .rPwr, .rDg, .rDgb, .rCap, .rBcap, .rAdc, .rAs, .rCmp, .rSds, .rAin, .rFe, .rFio, .rTim, .rInt, .rSys, .rSup, .rProt, .rMap, .rNc, .stamps, .frees, .rdata, .asleep, .accums, .whl, .boost, .fe, .port, .sys, .cyc] L = true) :
    Moves L b (Chip.readData m p' bs').2.2 := by
  unfold Chip.readData
  extract_lets +onlyGivenNames x1
  clear_value x1
  extract_lets +onlyGivenNames x2
  unfold x2
  clear_value x2
  split
  · rename_i y3 y4 y5 q6
    have h7 : Moves L b ((some y4 : Option Nat), y5).2 := by
      rw [← q6]
      refine Chip.header_moves ?_ (within_sub w (by decide +kernel))
      assumption
    extract_lets +onlyGivenNames x8
    clear_value x8
    extract_lets +onlyGivenNames x9
    clear_value x9
    split
    · split
      · refine Moves.pair ?_
        refine Chip.hpFlag_moves ?_ (within_sub w (by decide +kernel))
        assumption
      · refine Moves.pair ?_
        refine Chip.setPort_moves ?_ (within_sub w (by decide +kernel))
        assumption
    · refine Moves.pair ?_
      assumption
  · rename_i y10 y11 q12
    have h13 : Moves L b ((none : Option Nat), y11).2 := by
      rw [← q12]
      refine Chip.header_moves ?_ (within_sub w (by decide +kernel))
      assumption
    split
    · refine Moves.pair ?_
      refine Chip.hpFlag_moves ?_ (within_sub w (by decide +kernel))
      assumption
    · split
      · rename_i y14 y15 y16 q17
        have h18 : Moves L b ((y15 : List Byte), y16).2 := by
          rw [← q17]
          refine Chip.readWords_moves ?_ (within_sub w (by decide +kernel))
          assumption
        extract_lets +onlyGivenNames x19
        clear_value x19
        refine Moves.pair ?_
        refine Chip.setPort_moves ?_ (within_sub w (by decide +kernel))
        assumption

theorem Chip.cutFrame_moves {L : List Part} {b m : Chip} {p' : Nat} {bs' : List Byte} {turned' : Bool} (h : Moves L b m)
    (w : within [.rHp, .rMb, .rCh, .rTr, .rLat, .rDrv, .rAx, .rWhl, .rMdl, .rBk, .rBst, .rPwr, .rDg, .rDgb, .rCap, .rBcap, .rAdc, .rAs, .rCmp, .rSds, .rAin, .rFe, .rFio, .rTim, .rInt, .rSys, .rSup, .rProt, .rMap, .rNc, .tb, .mem, .isl, .stamps, .frees, .rdata, .asleep, .accums, .holdEnd, .coreV, .coreC, .whl, .mdl, .axes, .pool, .poolLast, .orderNo, .chans, .banks, .boost, .capReq, .capTb, .copies, .wear, .bcap, .jour, .recs, .fe, .fio, .tim, .adc, .assay, .cmp, .sds, .map, .saved, .nand, .mbox, .port, .gelow, .sys, .sup, .link, .refetch, .cyc] L = true) :
    Moves L b (Chip.cutFrame m p' bs' turned') := by
  unfold Chip.cutFrame
  extract_lets +onlyGivenNames x1
  clear_value x1
  extract_lets +onlyGivenNames x2
  have h3 : Moves L b x2 := by
    unfold x2
    refine Chip.drives_moves ?_ (within_sub w (by decide +kernel))
    assumption
  clear_value x2
  refine Moves.ite ?_ ?_
  · refine Chip.cut_moves ?_ (within_sub w (by decide +kernel))
    assumption
  · refine Moves.ite ?_ ?_
    · refine Chip.writeData_moves ?_ (within_sub w (by decide +kernel))
      assumption
    · refine Moves.ite ?_ ?_
      · refine Chip.readData_moves ?_ (within_sub w (by decide +kernel))
        assumption
      · refine Moves.ite ?_ ?_
        · refine Chip.cut_moves ?_ (within_sub w (by decide +kernel))
          refine Chip.header_moves ?_ (within_sub w (by decide +kernel))
          assumption
        · refine Chip.header_moves ?_ (within_sub w (by decide +kernel))
          assumption

theorem Chip.sync_moves {L : List Part} {b m : Chip} {p' : Nat} {bs' : List Byte} {t' : Nat} (h : Moves L b m)
    (w : within [.rHp, .rInt, .rSys, .asleep, .accums, .sys, .cyc] L = true) :
    Moves L b (Chip.sync m p' bs' t') := by
  unfold Chip.sync
  split
  · rename_i y1 y2 y3 q4
    have h5 : Moves L b ((some y2 : Option Nat), y3).2 := by
      rw [← q4]
      refine Chip.header_moves ?_ (within_sub w (by decide +kernel))
      assumption
    assumption
  · rename_i y6 y7 q8
    have h9 : Moves L b ((none : Option Nat), y7).2 := by
      rw [← q8]
      refine Chip.header_moves ?_ (within_sub w (by decide +kernel))
      assumption
    extract_lets +onlyGivenNames x10
    have h11 : Moves L b x10 := by
      unfold x10
      refine Chip.wrTb_moves ?_ (within_sub w (by decide +kernel))
      assumption
    clear_value x10
    refine Moves.ite ?_ ?_
    · refine Chip.trimMark_moves ?_ (within_sub w (by decide +kernel))
      assumption
    · assumption

theorem Chip.frame_moves {L : List Part} {b m : Chip} {p' : Nat} {bs' : List Byte} {t' : Nat} (h : Moves L b m)
    (w : within [.rHp, .rMb, .rCh, .rTr, .rLat, .rDrv, .rAx, .rWhl, .rMdl, .rBk, .rBst, .rPwr, .rDg, .rDgb, .rCap, .rBcap, .rAdc, .rAs, .rCmp, .rSds, .rAin, .rFe, .rFio, .rTim, .rInt, .rSys, .rSup, .rProt, .rMap, .rNc, .tb, .mem, .isl, .stamps, .frees, .rdata, .asleep, .accums, .holdEnd, .coreV, .coreC, .whl, .mdl, .axes, .pool, .poolLast, .orderNo, .chans, .banks, .boost, .capReq, .capTb, .copies, .wear, .bcap, .jour, .recs, .fe, .fio, .tim, .adc, .assay, .cmp, .sds, .map, .saved, .nand, .mbox, .port, .gelow, .sys, .sup, .link, .refetch, .cyc] L = true) :
    Moves L b (Chip.frame m p' bs' t') := by
  unfold Chip.frame
  extract_lets +onlyGivenNames x1
  clear_value x1
  refine Moves.ite ?_ ?_
  · refine Chip.cutFrame_moves ?_ (within_sub w (by decide +kernel))
    assumption
  · refine Moves.ite ?_ ?_
    · refine Chip.drives_moves ?_ (within_sub w (by decide +kernel))
      refine Chip.header_moves ?_ (within_sub w (by decide +kernel))
      assumption
    · refine Moves.ite ?_ ?_
      · refine Moves.ite ?_ ?_
        · refine Chip.cutFrame_moves ?_ (within_sub w (by decide +kernel))
          assumption
        · split
          · rename_i y2 y3 y4 q5
            have h6 : Moves L b ((y3 : Nat), y4).2 := by
              rw [← q5]
              refine Chip.writeData_moves ?_ (within_sub w (by decide +kernel))
              assumption
            refine Chip.drives_moves ?_ (within_sub w (by decide +kernel))
            assumption
      · refine Moves.ite ?_ ?_
        · split
          · rename_i y7 y8 y9 y10 q11
            have h12 : Moves L b ((y8 : Nat), ((y9 : List Byte), y10)).2.2 := by
              rw [← q11]
              refine Chip.readData_moves ?_ (within_sub w (by decide +kernel))
              assumption
            refine Chip.drives_moves ?_ (within_sub w (by decide +kernel))
            assumption
        · refine Moves.ite ?_ ?_
          · refine Chip.drives_moves ?_ (within_sub w (by decide +kernel))
            refine Chip.sync_moves ?_ (within_sub w (by decide +kernel))
            assumption
          · refine Chip.drives_moves ?_ (within_sub w (by decide +kernel))
            refine Chip.header_moves ?_ (within_sub w (by decide +kernel))
            assumption

theorem execSyncFrame_moves {L : List Part} {p' : Port} {bytes' : List Byte} {csTb' : Nat} {s t : State}
    (w : within [.rHp, .rMb, .rCh, .rTr, .rLat, .rDrv, .rAx, .rWhl, .rMdl, .rBk, .rBst, .rPwr, .rDg, .rDgb, .rCap, .rBcap, .rAdc, .rAs, .rCmp, .rSds, .rAin, .rFe, .rFio, .rTim, .rInt, .rSys, .rSup, .rProt, .rMap, .rNc, .tb, .mem, .isl, .stamps, .frees, .rdata, .asleep, .accums, .holdEnd, .coreV, .coreC, .whl, .mdl, .axes, .pool, .poolLast, .orderNo, .chans, .banks, .boost, .capReq, .capTb, .copies, .wear, .bcap, .jour, .recs, .fe, .fio, .tim, .adc, .assay, .cmp, .sds, .map, .saved, .nand, .mbox, .port, .gelow, .sys, .sup, .link, .refetch, .cyc] L = true) (e : execSyncFrame p' bytes' csTb' s = .next t) :
    Moves L s.chip t.chip := by
  unfold execSyncFrame at e
  refine upd_moves (fun m => ?_) e
  refine Moves.ite ?_ ?_
  · refine Chip.frame_moves ?_ (within_sub w (by decide +kernel))
    exact .refl
  · exact .refl

theorem execReadFrame_moves {L : List Part} {p' : Port} {bytes' : List Byte} {s t : State}
    (w : within [.rHp, .rMb, .rCh, .rTr, .rLat, .rDrv, .rAx, .rWhl, .rMdl, .rBk, .rBst, .rPwr, .rDg, .rDgb, .rCap, .rBcap, .rAdc, .rAs, .rCmp, .rSds, .rAin, .rFe, .rFio, .rTim, .rInt, .rSys, .rSup, .rProt, .rMap, .rNc, .tb, .mem, .isl, .stamps, .frees, .rdata, .asleep, .accums, .holdEnd, .coreV, .coreC, .whl, .mdl, .axes, .pool, .poolLast, .orderNo, .chans, .banks, .boost, .capReq, .capTb, .copies, .wear, .bcap, .jour, .recs, .fe, .fio, .tim, .adc, .assay, .cmp, .sds, .map, .saved, .nand, .mbox, .port, .gelow, .sys, .sup, .link, .refetch, .cyc] L = true) (e : execReadFrame p' bytes' s = .next t) :
    Moves L s.chip t.chip := by
  unfold execReadFrame at e
  refine upd_moves (fun m => ?_) e
  refine Moves.ite ?_ ?_
  · refine Chip.frame_moves ?_ (within_sub w (by decide +kernel))
    exact .refl
  · exact .refl

theorem execFrameCut_moves {L : List Part} {p' : Port} {bytes' : List Byte} {afterTurnaround' : Bool} {s t : State}
    (w : within [.rHp, .rMb, .rCh, .rTr, .rLat, .rDrv, .rAx, .rWhl, .rMdl, .rBk, .rBst, .rPwr, .rDg, .rDgb, .rCap, .rBcap, .rAdc, .rAs, .rCmp, .rSds, .rAin, .rFe, .rFio, .rTim, .rInt, .rSys, .rSup, .rProt, .rMap, .rNc, .tb, .mem, .isl, .stamps, .frees, .rdata, .asleep, .accums, .holdEnd, .coreV, .coreC, .whl, .mdl, .axes, .pool, .poolLast, .orderNo, .chans, .banks, .boost, .capReq, .capTb, .copies, .wear, .bcap, .jour, .recs, .fe, .fio, .tim, .adc, .assay, .cmp, .sds, .map, .saved, .nand, .mbox, .port, .gelow, .sys, .sup, .link, .refetch, .cyc] L = true) (e : execFrameCut p' bytes' afterTurnaround' s = .next t) :
    Moves L s.chip t.chip := by
  unfold execFrameCut at e
  refine upd_moves (fun m => ?_) e
  refine Moves.ite ?_ ?_
  · refine Chip.cutFrame_moves ?_ (within_sub w (by decide +kernel))
    exact .refl
  · exact .refl

theorem execWriteFrame_moves {L : List Part} {p' : Port} {bytes' : List Byte} {s t : State}
    (w : within [.rHp, .rMb, .rCh, .rTr, .rLat, .rDrv, .rAx, .rWhl, .rMdl, .rBk, .rBst, .rPwr, .rDg, .rDgb, .rCap, .rBcap, .rAdc, .rAs, .rCmp, .rSds, .rAin, .rFe, .rFio, .rTim, .rInt, .rSys, .rSup, .rProt, .rMap, .rNc, .tb, .mem, .isl, .stamps, .frees, .rdata, .asleep, .accums, .holdEnd, .coreV, .coreC, .whl, .mdl, .axes, .pool, .poolLast, .orderNo, .chans, .banks, .boost, .capReq, .capTb, .copies, .wear, .bcap, .jour, .recs, .fe, .fio, .tim, .adc, .assay, .cmp, .sds, .map, .saved, .nand, .mbox, .port, .gelow, .sys, .sup, .link, .refetch, .cyc] L = true) (e : execWriteFrame p' bytes' s = .next t) :
    Moves L s.chip t.chip := by
  unfold execWriteFrame at e
  refine upd_moves (fun m => ?_) e
  refine Moves.ite ?_ ?_
  · refine Chip.frame_moves ?_ (within_sub w (by decide +kernel))
    exact .refl
  · exact .refl

end Sys2Proof.Machine
end

