-- ==== Sys2Proof/Laws/MovesGelowOps.lean ====
section
/-! SUPPORT. Each operation of Machine/GelowOps.lean moves the block within the parts it names. -/

-- Theorem by theorem: many at once each take a thread's stack, and the package as one text ran out of them.
set_option Elab.async false

namespace Sys2Proof.Machine

theorem Chip.mbLong_moves {L : List Part} {b m : Chip} {x' : Nat} {r' : LongRun} (h : Moves L b m)
    (w : within [.mbox, .gelow] L = true) :
    Moves L b (Chip.mbLong m x' r') := by
  unfold Chip.mbLong
  extract_lets +onlyGivenNames x1
  clear_value x1
  extract_lets +onlyGivenNames x2
  have h3 : Moves L b x2 := by
    unfold x2
    refine Chip.setMb_moves ?_ (within_sub w (by decide +kernel))
    assumption
  clear_value x2
  extract_lets +onlyGivenNames x4
  clear_value x4
  refine Moves.gelow ?_ (within_sub w (by decide +kernel))
  assumption

theorem Chip.upTake_moves {L : List Part} {b m : Chip} {x' : Nat} {due' : Nat} (h : Moves L b m)
    (w : within [.rHp, .rMb, .rInt, .mem, .accums, .mbox, .gelow, .cyc] L = true) :
    Moves L b (Chip.upTake m x' due') := by
  unfold Chip.upTake
  split
  · assumption
  · extract_lets +onlyGivenNames x1
    have h2 : Moves L b x1 := by
      unfold x1
      refine Chip.wr_moves ?_ (within_sub w (by decide +kernel))
      refine Chip.wr_moves ?_ (within_sub w (by decide +kernel))
      refine Chip.wr_moves ?_ (within_sub w (by decide +kernel))
      assumption
    clear_value x1
    refine Moves.ite ?_ ?_
    · refine Chip.mbFail_moves ?_ (within_sub w (by decide +kernel))
      assumption
    · refine Chip.mbLong_moves ?_ (within_sub w (by decide +kernel))
      assumption

theorem Chip.unstageDiag_moves {L : List Part} {b m : Chip} {jsn' : Nat} (h : Moves L b m)
    (w : within [.jour] L = true) :
    Moves L b (Chip.unstageDiag m jsn') := by
  unfold Chip.unstageDiag
  extract_lets +onlyGivenNames x1
  unfold x1
  clear_value x1
  refine Moves.upd (x := m) ?_ (by constructor <;> first | rfl | exact .inl rfl | exact .inr (within_mem w (by decide +kernel)))
  assumption

theorem Chip.runDone_moves {L : List Part} {b m : Chip} {x' : Nat} {r' : LongRun} {resp' : List Byte} (h : Moves L b m)
    (w : within [.rHp, .rMb, .rInt, .mem, .accums, .mbox, .gelow, .cyc] L = true) :
    Moves L b (Chip.runDone m x' r' resp') := by
  unfold Chip.runDone
  refine Chip.mbEnd_moves ?_ (within_sub w (by decide +kernel))
  assumption

theorem Chip.gelowWrite_moves {L : List Part} {b m : Chip} {who' : Writer} {a' : Nat} {w' : Nat} (h : Moves L b m)
    (w : within [.rHp, .rMb, .rCh, .rTr, .rLat, .rDrv, .rAx, .rWhl, .rMdl, .rBk, .rBst, .rPwr, .rDg, .rDgb, .rCap, .rBcap, .rAdc, .rAs, .rCmp, .rSds, .rAin, .rFe, .rFio, .rTim, .rInt, .rSys, .rSup, .rProt, .rMap, .rNc, .tb, .mem, .isl, .stamps, .frees, .rdata, .asleep, .accums, .holdEnd, .coreV, .coreC, .whl, .mdl, .axes, .pool, .poolLast, .orderNo, .chans, .banks, .boost, .capReq, .capTb, .copies, .wear, .bcap, .jour, .recs, .fe, .fio, .tim, .adc, .assay, .cmp, .sds, .map, .saved, .nand, .mbox, .port, .gelow, .sys, .sup, .link, .refetch, .cyc] L = true) :
    Moves L b (Chip.gelowWrite m who' a' w') := by
  unfold Chip.gelowWrite
  split
  · refine Moves.ite ?_ ?_
    · refine Chip.regWrite_moves ?_ (within_sub w (by decide +kernel))
      assumption
    · assumption
  · assumption

theorem Chip.stage_moves {L : List Part} {b m : Chip} {s' : Staged} (h : Moves L b m)
    (w : within [.jour] L = true) :
    Moves L b (Chip.stage m s') := by
  unfold Chip.stage
  extract_lets +onlyGivenNames x1
  unfold x1
  clear_value x1
  refine Moves.upd (x := m) ?_ (by constructor <;> first | rfl | exact .inl rfl | exact .inr (within_mem w (by decide +kernel)))
  assumption

theorem Chip.runResolve_moves {L : List Part} {b m : Chip} {r' : LongRun} {out' : Nat} {cause' : Nat} (h : Moves L b m)
    (w : within [.rInt, .asleep, .accums, .jour, .recs, .sys, .cyc] L = true) :
    Moves L b (Chip.runResolve m r' out' cause') := by
  unfold Chip.runResolve
  refine Moves.ite ?_ ?_
  · assumption
  · refine Chip.jourResolve_moves ?_ (within_sub w (by decide +kernel))
    refine Chip.unstageDiag_moves ?_ (within_sub w (by decide +kernel))
    assumption

theorem Chip.setRun_moves {L : List Part} {b m : Chip} {x' : Nat} {r' : LongRun} (h : Moves L b m)
    (w : within [.mbox] L = true) :
    Moves L b (Chip.setRun m x' r') := by
  unfold Chip.setRun
  extract_lets +onlyGivenNames x1
  clear_value x1
  refine Chip.setMb_moves ?_ (within_sub w (by decide +kernel))
  assumption

theorem Chip.chunk_moves {L : List Part} {b m : Chip} {x' : Nat} {r' : LongRun} (h : Moves L b m)
    (w : within [.rHp, .rMb, .rInt, .mem, .asleep, .accums, .jour, .recs, .mbox, .gelow, .sys, .cyc] L = true) :
    Moves L b (Chip.chunk m x' r') := by
  unfold Chip.chunk
  extract_lets +onlyGivenNames x1
  clear_value x1
  extract_lets +onlyGivenNames x2
  clear_value x2
  extract_lets +onlyGivenNames x3
  have h4 : Moves L b x3 := by
    unfold x3
    refine Chip.mbState_moves ?_ (within_sub w (by decide +kernel))
    assumption
  clear_value x3
  extract_lets +onlyGivenNames x5
  have h6 : Moves L b x5 := by
    unfold x5
    refine Chip.store_moves ?_ (within_sub w (by decide +kernel))
    assumption
  clear_value x5
  extract_lets +onlyGivenNames x7
  have h8 : Moves L b x7 := by
    unfold x7
    refine Chip.mbChunk_moves ?_ (within_sub w (by decide +kernel))
    assumption
  clear_value x7
  extract_lets +onlyGivenNames x9
  have h10 : Moves L b x9 := by
    unfold x9
    refine Chip.mbState_moves ?_ (within_sub w (by decide +kernel))
    refine Chip.setRun_moves ?_ (within_sub w (by decide +kernel))
    assumption
  clear_value x9
  extract_lets +onlyGivenNames x11
  clear_value x11
  refine Moves.ite ?_ ?_
  · refine Chip.runDone_moves ?_ (within_sub w (by decide +kernel))
    refine Chip.runResolve_moves ?_ (within_sub w (by decide +kernel))
    assumption
  · refine Moves.ite ?_ ?_
    · refine Chip.setMb_moves ?_ (within_sub w (by decide +kernel))
      refine Chip.wr_moves ?_ (within_sub w (by decide +kernel))
      assumption
    · assumption

theorem Chip.calPulse_moves {L : List Part} {b m : Chip} {o' : Nat} {ch' : Nat} {width' : Nat} (h : Moves L b m)
    (w : within [.rCh, .rTr, .rDrv, .rBk, .rBst, .rDg, .rDgb, .rCap, .rInt, .rMap, .frees, .asleep, .accums, .pool, .poolLast, .orderNo, .chans, .banks, .boost, .bcap, .jour, .sys, .cyc] L = true) :
    Moves L b (Chip.calPulse m o' ch' width') := by
  unfold Chip.calPulse
  extract_lets +onlyGivenNames x1
  have h2 : Moves L b x1 := by
    unfold x1
    refine Chip.touch_moves ?_ (within_sub w (by decide +kernel))
    assumption
  clear_value x1
  extract_lets +onlyGivenNames x3
  clear_value x3
  refine Moves.ite ?_ ?_
  · refine Chip.chFlag_moves ?_ (within_sub w (by decide +kernel))
    assumption
  · refine Moves.ite ?_ ?_
    · assumption
    · split
      · rename_i y4 y5 y6 q7
        have h8 : Moves L b ((y5 : Nat), y6).2 := by
          rw [← q7]
          refine Chip.takeSlot_moves ?_ (within_sub w (by decide +kernel))
          assumption
        split
        · assumption
        · refine Chip.armCase_moves ?_ (within_sub w (by decide +kernel))
          assumption

theorem Chip.calStep_moves {L : List Part} {b m : Chip} {o width : Nat} {done todo : List Cal} (h : Moves L b m)
    (w : within [.rCh, .rTr, .rDrv, .rBk, .rBst, .rDg, .rDgb, .rCap, .rInt, .rMap, .frees, .asleep, .accums, .pool, .poolLast, .orderNo, .chans, .banks, .boost, .bcap, .jour, .sys, .cyc] L = true) : Moves L b (m.calStep o width done todo).2.2 := by
  induction todo generalizing done with
  | nil => exact h
  | cons c r ih =>
    unfold Chip.calStep
    extract_lets x1
    clear_value x1
    split
    · exact ih
    · split
      · exact ih
      · exact Chip.calPulse_moves h (within_sub w (by decide +kernel))

theorem Chip.countTake_moves {L : List Part} {b m : Chip} {key : Nat} {f : Field} {i : Nat} (h : Moves L b m)
    (w : within (f.part :: [.gelow, .cyc]) L = true) : Moves L b (m.countTake key f i) :=
  Moves.ite h (Chip.rcClear_moves (Moves.gelow h (within_sub (within_tail w) (by decide +kernel)))
    (within_cons (within_head w) (within_sub (within_tail w) (by decide +kernel))))

theorem Chip.unitTake_moves {L : List Part} {b m : Chip} {k u : Nat} (h : Moves L b m) (w : within [.rHp, .rMb, .rCh, .rTr, .rLat, .rDrv, .rAx, .rWhl, .rMdl, .rBk, .rBst, .rPwr, .rDg, .rDgb, .rCap, .rBcap, .rAdc, .rAs, .rCmp, .rSds, .rAin, .rFe, .rFio, .rTim, .rInt, .rSys, .rSup, .rProt, .rMap, .rNc, .gelow, .cyc] L = true) :
    Moves L b (m.unitTake k u) := by
  unfold Chip.unitTake
  refine Moves.foldl h fun _ _ g => ?_
  exact Chip.countTake_moves g (within_cons (within_field _ (within_sub w (by decide +kernel))) (within_sub w (by decide +kernel)))

theorem Chip.mountDone_moves {L : List Part} {b m : Chip} {x' : Nat} {r' : LongRun} (h : Moves L b m)
    (w : within [.rHp, .rMb, .rInt, .mem, .accums, .mbox, .gelow, .cyc] L = true) :
    Moves L b (Chip.mountDone m x' r') := by
  unfold Chip.mountDone
  refine Chip.runDone_moves ?_ (within_sub w (by decide +kernel))
  refine Chip.wr_moves ?_ (within_sub w (by decide +kernel))
  assumption

theorem Chip.accept_moves {L : List Part} {b m : Chip} {x entry ch target handle : Nat} {first : Option Nat} (h : Moves L b m)
    (w : within [.jour, .recs] L = true) : Moves L b (m.accept x first entry ch target handle).2 := by
  unfold Chip.accept
  refine .upd (.recs _ _ (within_mem w (by decide +kernel)) h (.accept _ _ _ _ rfl ?_))
    (by constructor <;> first | rfl | exact .inl rfl | exact .inr (within_mem w (by decide +kernel)))
  exact fun e => nomatch (e : (0 : Nat) = 3)

theorem Chip.snapsTake_moves {L : List Part} {b m : Chip} {jsn' : Nat} (h : Moves L b m)
    (w : within [.gelow] L = true) :
    Moves L b (Chip.snapsTake m jsn') := by
  unfold Chip.snapsTake
  extract_lets +onlyGivenNames x1
  clear_value x1
  extract_lets +onlyGivenNames x2
  clear_value x2
  refine Moves.gelow ?_ (within_sub w (by decide +kernel))
  assumption

theorem Chip.jourCollect_moves {L : List Part} {b m : Chip} {o upto : Nat} (h : Moves L b m) (w : within [.collect, .gelow] L = true) :
    Moves L b (m.jourCollect o upto).2 :=
  .collect o upto (within_mem w (by decide +kernel)) (Moves.foldl h fun _ _ k => Chip.snapsTake_moves k (within_sub w (by decide +kernel)))

theorem Chip.holdEnd60_moves {L : List Part} {b m : Chip} {x' : Nat} (h : Moves L b m)
    (w : within [.rHp, .rMb, .rInt, .mem, .asleep, .accums, .jour, .recs, .mbox, .gelow, .sys, .cyc] L = true) :
    Moves L b (Chip.holdEnd60 m x') := by
  unfold Chip.holdEnd60
  split
  · assumption
  · refine Moves.ite ?_ ?_
    · refine Chip.mbAborted_moves ?_ (within_sub w (by decide +kernel))
      refine Chip.runResolve_moves ?_ (within_sub w (by decide +kernel))
      assumption
    · assumption

theorem Chip.deliver_moves {L : List Part} {b m : Chip} {x' : Nat} (h : Moves L b m)
    (w : within [.rHp, .rMb, .rInt, .mem, .asleep, .accums, .jour, .recs, .mbox, .gelow, .sys, .cyc] L = true) :
    Moves L b (Chip.deliver m x') := by
  unfold Chip.deliver
  split
  · assumption
  · refine Moves.ite ?_ ?_
    · refine Chip.chunk_moves ?_ (within_sub w (by decide +kernel))
      assumption
    · assumption

theorem Chip.unmountTick_moves {L : List Part} {b m : Chip} {x' : Nat} {r' : LongRun} (h : Moves L b m)
    (w : within [.rHp, .rMb, .rInt, .rNc, .mem, .asleep, .accums, .nand, .mbox, .gelow, .sys, .cyc] L = true) :
    Moves L b (Chip.unmountTick m x' r') := by
  unfold Chip.unmountTick
  refine Moves.ite ?_ ?_
  · refine Chip.mountDone_moves ?_ (within_sub w (by decide +kernel))
    refine Chip.nandUnmount_moves ?_ (within_sub w (by decide +kernel))
    assumption
  · assumption

theorem Chip.calTick_moves {L : List Part} {b m : Chip} {x' : Nat} {r' : LongRun} (h : Moves L b m)
    (w : within [.rMb, .rCh, .rTr, .rDrv, .rBk, .rBst, .rDg, .rDgb, .rCap, .rInt, .rMap, .frees, .asleep, .accums, .pool, .poolLast, .orderNo, .chans, .banks, .boost, .bcap, .jour, .mbox, .sys, .cyc] L = true) :
    Moves L b (Chip.calTick m x' r') := by
  unfold Chip.calTick
  refine Moves.ite ?_ ?_
  · assumption
  · split
    · rename_i y1 y2 y3 y4 q5
      have h6 : Moves L b ((y2 : List Cal), ((y3 : Bool), y4)).2.2 := by
        rw [← q5]
        refine Chip.calStep_moves ?_ (within_sub w (by decide +kernel))
        assumption
      extract_lets +onlyGivenNames x7
      have h8 : Moves L b x7 := by
        unfold x7
        refine Moves.ite ?_ ?_
        · refine Moves.foldl ?_ fun y9 a10 h11 => ?_
          · assumption
          · refine Moves.ite ?_ ?_
            · refine Chip.wr_moves ?_ (within_sub w (by decide +kernel))
              assumption
            · assumption
        · assumption
      clear_value x7
      refine Moves.ite ?_ ?_
      · refine Chip.setRun_moves ?_ (within_sub w (by decide +kernel))
        assumption
      · refine Chip.wr_moves ?_ (within_sub w (by decide +kernel))
        refine Chip.setRun_moves ?_ (within_sub w (by decide +kernel))
        assumption

theorem Chip.runAbort_moves {L : List Part} {b m : Chip} {x' : Nat} {r' : LongRun} {reason' : Nat} (h : Moves L b m)
    (w : within [.rHp, .rMb, .rInt, .mem, .asleep, .accums, .jour, .recs, .mbox, .gelow, .sys, .cyc] L = true) :
    Moves L b (Chip.runAbort m x' r' reason') := by
  unfold Chip.runAbort
  refine Moves.ite ?_ ?_
  · refine Chip.runDone_moves ?_ (within_sub w (by decide +kernel))
    refine Chip.mbFlag_moves ?_ (within_sub w (by decide +kernel))
    assumption
  · refine Chip.mbAborted_moves ?_ (within_sub w (by decide +kernel))
    refine Chip.runResolve_moves ?_ (within_sub w (by decide +kernel))
    assumption

theorem Chip.longTick_moves {L : List Part} {b m : Chip} {x : Nat} (h : Moves L b m) (w : within [.rHp, .rMb, .rCh, .rTr, .rDrv, .rBk, .rBst, .rDg, .rDgb, .rCap, .rInt, .rMap, .rNc, .mem, .frees, .asleep, .accums, .pool, .poolLast, .orderNo, .chans, .banks, .boost, .bcap, .jour, .recs, .nand, .mbox, .gelow, .sys, .cyc] L = true) :
    Moves L b (m.longTick x) := by
  have s : ∀ (f : Chip → Nat → LongRun → Chip), (∀ y r, Moves L b y → Moves L b (f y x r)) → ∀ y, Moves L b y →
      Moves L b (match (y.mb x).run with | some r => f y x r | none => y) := by
    intro f hf y g
    split
    · exact hf _ _ g
    · exact g
  unfold Chip.longTick
  refine s (fun y z r => if (y.mb z).abort then y.runAbort z r 1 else y) (fun y r g => ?_) _ ?_
  · exact show Moves L b (if (y.mb x).abort then y.runAbort x r 1 else y) from Moves.ite (Chip.runAbort_moves g (within_sub w (by decide +kernel))) g
  refine s _ (fun y r g => Chip.unmountTick_moves g (within_sub w (by decide +kernel))) _ ?_
  exact s _ (fun y r g => Chip.calTick_moves g (within_sub w (by decide +kernel))) _ h

theorem Chip.setAcc_moves {L : List Part} {b m : Chip} {first n : Nat} (h : Moves L b m) (w : within [.recs] L = true) :
    Moves L b (m.setAcc first n) :=
  .recs _ _ (within_mem w (by simp)) h (.acc _ _ first n)

theorem Chip.mountsDone_moves {L : List Part} {b m : Chip} (h : Moves L b m)
    (w : within [.rHp, .rMb, .rInt, .mem, .accums, .mbox, .gelow, .cyc] L = true) :
    Moves L b (Chip.mountsDone m) := by
  unfold Chip.mountsDone
  refine Moves.foldl ?_ fun y1 a2 h3 => ?_
  · assumption
  · split
    · refine Moves.ite ?_ ?_
      · refine Chip.mountDone_moves ?_ (within_sub w (by decide +kernel))
        assumption
      · assumption
    · assumption

theorem Chip.abortsTake_moves {L : List Part} {b m : Chip} (h : Moves L b m)
    (w : within [.rHp, .rMb, .rInt, .mem, .accums, .mbox, .gelow, .cyc] L = true) :
    Moves L b (Chip.abortsTake m) := by
  unfold Chip.abortsTake
  refine Moves.foldl ?_ fun y1 a2 h3 => ?_
  · assumption
  · refine Moves.ite ?_ ?_
    · refine Chip.mbAborted_moves ?_ (within_sub w (by decide +kernel))
      assumption
    · assumption

theorem Chip.laneCopy_moves {L : List Part} {b m : Chip} {c' : Nat} {l' : Nat} (h : Moves L b m)
    (w : within [.rCap, .rInt, .asleep, .accums, .chans, .capReq, .capTb, .copies, .sys, .cyc] L = true) :
    Moves L b (Chip.laneCopy m c' l') := by
  unfold Chip.laneCopy
  extract_lets +onlyGivenNames x1
  clear_value x1
  extract_lets +onlyGivenNames x2
  clear_value x2
  extract_lets +onlyGivenNames x3
  clear_value x3
  extract_lets +onlyGivenNames x4
  clear_value x4
  refine Moves.ite ?_ ?_
  · refine Chip.laneFree_moves ?_ (within_sub w (by decide +kernel))
    refine Moves.copies ?_ (within_sub w (by decide +kernel))
    assumption
  · assumption

theorem Chip.diagTick_moves {L : List Part} {b m : Chip} (h : Moves L b m)
    (w : within [.rDg, .rCap, .rInt, .asleep, .accums, .chans, .capReq, .capTb, .copies, .wear, .sys, .cyc] L = true) :
    Moves L b (Chip.diagTick m) := by
  unfold Chip.diagTick
  extract_lets +onlyGivenNames x1
  have h2 : Moves L b x1 := by
    unfold x1
    refine Moves.foldl ?_ fun y3 a4 h5 => ?_
    · assumption
    · refine Moves.foldl ?_ fun y6 a7 h8 => ?_
      · assumption
      · refine Chip.laneCopy_moves ?_ (within_sub w (by decide +kernel))
        assumption
  clear_value x1
  extract_lets +onlyGivenNames x9
  have h10 : Moves L b x9 := by
    unfold x9
    refine Moves.foldl ?_ fun y11 a12 h13 => ?_
    · assumption
    · refine Chip.wearTake_moves ?_ (within_sub w (by decide +kernel))
      assumption
  clear_value x9
  refine Moves.foldl ?_ fun y14 a15 h16 => ?_
  · assumption
  · refine Moves.ite ?_ ?_
    · refine Chip.wearPublish_moves ?_ (within_sub w (by decide +kernel))
      assumption
    · assumption

theorem Chip.collectTick_moves {L : List Part} {b m : Chip} (h : Moves L b m)
    (w : within [.rHp, .rMb, .rCh, .rTr, .rLat, .rDrv, .rAx, .rWhl, .rMdl, .rBk, .rBst, .rPwr, .rDg, .rDgb, .rCap, .rBcap, .rAdc, .rAs, .rCmp, .rSds, .rAin, .rFe, .rFio, .rTim, .rInt, .rSys, .rSup, .rProt, .rMap, .rNc, .gelow, .cyc] L = true) :
    Moves L b (Chip.collectTick m) := by
  unfold Chip.collectTick
  extract_lets +onlyGivenNames x1
  have h2 : Moves L b x1 := by
    unfold x1
    refine Moves.foldl ?_ fun y3 a4 h5 => ?_
    · assumption
    · refine Moves.foldl ?_ fun y6 a7 h8 => ?_
      · assumption
      · refine Chip.unitTake_moves ?_ (within_sub w (by decide +kernel))
        assumption
  clear_value x1
  extract_lets +onlyGivenNames x9
  clear_value x9
  refine Moves.ite ?_ ?_
  · refine Moves.gelow ?_ (within_sub w (by decide +kernel))
    assumption
  · assumption

theorem Chip.mapTick_moves {L : List Part} {b m : Chip} (h : Moves L b m)
    (w : within [.rHp, .rMb, .rCh, .rTr, .rLat, .rDrv, .rAx, .rWhl, .rMdl, .rBk, .rBst, .rPwr, .rDg, .rDgb, .rCap, .rBcap, .rAdc, .rAs, .rCmp, .rSds, .rAin, .rFe, .rFio, .rTim, .rInt, .rSys, .rSup, .rProt, .rMap, .rNc, .mem, .asleep, .accums, .map, .saved, .sys, .cyc] L = true) :
    Moves L b (Chip.mapTick m) := by
  unfold Chip.mapTick
  refine Moves.ite ?_ ?_
  · refine Chip.cacheTick_moves ?_ (within_sub w (by decide +kernel))
    refine Chip.loadsApply_moves ?_ (within_sub w (by decide +kernel))
    refine Chip.mapRestore_moves ?_ (within_sub w (by decide +kernel))
    assumption
  · assumption

theorem Chip.takeCmds_moves {L : List Part} {b m : Chip} {l : List Nat} {n : Nat} (h : Moves L b m) (w : within [.rHp, .rMb, .rInt, .mem, .accums, .mbox, .gelow, .cyc] L = true) :
    Moves L b (m.takeCmds l n) := by
  induction l generalizing m n with
  | nil => exact h
  | cons x r ih =>
    unfold Chip.takeCmds
    refine Moves.ite (ih (Chip.mbFail_moves h (within_sub w (by decide +kernel)))) (Moves.ite h (ih ?_))
    exact Chip.mbState_moves (Moves.gelow h (within_sub w (by decide +kernel))) (within_sub w (by decide +kernel))

theorem Chip.gelowTick_moves {L : List Part} {b m : Chip} (h : Moves L b m)
    (w : within [.rHp, .rMb, .rCh, .rTr, .rLat, .rDrv, .rAx, .rWhl, .rMdl, .rBk, .rBst, .rPwr, .rDg, .rDgb, .rCap, .rBcap, .rAdc, .rAs, .rCmp, .rSds, .rAin, .rFe, .rFio, .rTim, .rInt, .rSys, .rSup, .rProt, .rMap, .rNc, .mem, .stamps, .frees, .asleep, .accums, .pool, .poolLast, .orderNo, .chans, .banks, .boost, .capReq, .capTb, .copies, .wear, .bcap, .jour, .recs, .map, .saved, .nand, .mbox, .gelow, .sys, .cyc] L = true) :
    Moves L b (Chip.gelowTick m) := by
  unfold Chip.gelowTick
  extract_lets +onlyGivenNames x1
  have h2 : Moves L b x1 := by
    unfold x1
    refine Chip.stamp_moves ?_ (within_sub w (by decide +kernel))
    assumption
  clear_value x1
  extract_lets +onlyGivenNames x3
  clear_value x3
  extract_lets +onlyGivenNames x4
  have h5 : Moves L b x4 := by
    unfold x4
    refine Moves.sys ?_ (within_sub w (by decide +kernel))
    assumption
  clear_value x4
  extract_lets +onlyGivenNames x6
  have h7 : Moves L b x6 := by
    unfold x6
    refine Chip.collectTick_moves ?_ (within_sub w (by decide +kernel))
    refine Chip.diagTick_moves ?_ (within_sub w (by decide +kernel))
    refine Chip.mapTick_moves ?_ (within_sub w (by decide +kernel))
    assumption
  clear_value x6
  extract_lets +onlyGivenNames x8
  have h9 : Moves L b x8 := by
    unfold x8
    refine Moves.foldl ?_ fun y10 a11 h12 => ?_
    · assumption
    · refine Chip.longTick_moves ?_ (within_sub w (by decide +kernel))
      assumption
  clear_value x8
  extract_lets +onlyGivenNames x13
  have h14 : Moves L b x13 := by
    unfold x13
    refine Chip.abortsTake_moves ?_ (within_sub w (by decide +kernel))
    assumption
  clear_value x13
  refine Moves.ite ?_ ?_
  · refine Chip.nap_moves ?_ (within_sub w (by decide +kernel))
    refine Chip.takeCmds_moves ?_ (within_sub w (by decide +kernel))
    assumption
  · assumption

theorem Chip.runCmd_moves {L : List Part} {b m : Chip} {x op : Nat} {f : Chip → List Byte → Chip} (h : Moves L b m)
    (w : within [] L = true) (hf : ∀ y p, Moves L b y → Moves L b (f y p)) : Moves L b (m.runCmd x op f) :=
  Moves.ite (hf _ _ h) h

end Sys2Proof.Machine
end

