-- ==== Sys2Proof/Laws/MovesMailbox.lean ====
section
/-! SUPPORT. Each operation of Machine/Mailbox.lean moves the block within the parts it names. -/

-- Theorem by theorem: many at once each take a thread's stack, and the package as one text ran out of them.
set_option Elab.async false

namespace Sys2Proof.Machine

theorem Chip.inhibitApply_moves {L : List Part} {b m : Chip} {jsn' : Nat} {o' : Nat} {set' : Bool} {chs' : List Nat} (h : Moves L b m)
    (w : within [.rCh, .rTr, .rDrv, .rBk, .rBst, .rDg, .rDgb, .rCap, .rInt, .rMap, .frees, .asleep, .accums, .pool, .poolLast, .chans, .banks, .boost, .bcap, .jour, .recs, .sys, .cyc] L = true) :
    Moves L b (Chip.inhibitApply m jsn' o' set' chs') := by
  unfold Chip.inhibitApply
  extract_lets +onlyGivenNames x1
  have h2 : Moves L b x1 := by
    unfold x1
    refine Chip.jourResolve_moves ?_ (within_sub w (by decide +kernel))
    assumption
  clear_value x1
  refine Moves.foldl ?_ fun y3 a4 h5 => ?_
  · assumption
  · refine Moves.ite ?_ ?_
    · refine Chip.inhSet_moves ?_ (within_sub w (by decide +kernel))
      assumption
    · refine Chip.inhClear_moves ?_ (within_sub w (by decide +kernel))
      assumption

theorem Chip.eventGet_moves {L : List Part} {b m : Chip} {x' : Nat} {p' : List Byte} (h : Moves L b m)
    (w : within [.rHp, .rMb, .rInt, .mem, .accums, .mbox, .gelow, .cyc] L = true) :
    Moves L b (Chip.eventGet m x' p') := by
  unfold Chip.eventGet
  split
  · refine Chip.mbDone_moves ?_ (within_sub w (by decide +kernel))
    assumption
  · refine Chip.mbDone_moves ?_ (within_sub w (by decide +kernel))
    assumption

theorem Chip.eachEntry_moves {L : List Part} {b m : Chip} {f : Chip → List Byte → Nat × Chip} {l : List (List Byte)} (h : Moves L b m)
    (w : within [] L = true) (hf : ∀ y e, Moves L b y → Moves L b (f y e).2) : Moves L b (m.eachEntry f l).2 := by
  induction l generalizing m with
  | nil => exact h
  | cons e r ih => exact ih (hf m e h)

theorem Chip.latticeEntry_moves {L : List Part} {b m : Chip} {x' : Nat} {e' : List Byte} (h : Moves L b m)
    (w : within [.rHp, .rMb, .rCh, .rTr, .rLat, .rDrv, .rAx, .rWhl, .rMdl, .rBk, .rBst, .rPwr, .rDg, .rDgb, .rCap, .rBcap, .rAdc, .rAs, .rCmp, .rSds, .rAin, .rFe, .rFio, .rTim, .rInt, .rSys, .rSup, .rProt, .rMap, .rNc, .tb, .mem, .isl, .stamps, .frees, .rdata, .asleep, .accums, .holdEnd, .coreV, .coreC, .whl, .mdl, .axes, .pool, .poolLast, .orderNo, .chans, .banks, .boost, .capReq, .capTb, .copies, .wear, .bcap, .jour, .recs, .fe, .fio, .tim, .adc, .assay, .cmp, .sds, .map, .saved, .nand, .mbox, .port, .gelow, .sys, .sup, .link, .refetch, .cyc] L = true) :
    Moves L b (Chip.latticeEntry m x' e').2 := by
  unfold Chip.latticeEntry
  extract_lets +onlyGivenNames x1
  clear_value x1
  extract_lets +onlyGivenNames x2
  clear_value x2
  extract_lets +onlyGivenNames x3
  clear_value x3
  extract_lets +onlyGivenNames x4
  have h5 : Moves L b x4 := by
    unfold x4
    refine Chip.gelowWrite_moves ?_ (within_sub w (by decide +kernel))
    assumption
  clear_value x4
  extract_lets +onlyGivenNames x6
  have h7 : Moves L b x6 := by
    unfold x6
    refine Moves.foldl ?_ fun y8 a9 h10 => ?_
    · assumption
    · refine Chip.gelowWrite_moves ?_ (within_sub w (by decide +kernel))
      assumption
  clear_value x6
  extract_lets +onlyGivenNames x11
  have h12 : Moves L b x11 := by
    unfold x11
    refine Chip.gelowWrite_moves ?_ (within_sub w (by decide +kernel))
    assumption
  clear_value x11
  split
  · refine Moves.pair ?_
    assumption
  · split
    · refine Moves.pair ?_
      assumption
    · refine Moves.pair ?_
      assumption

theorem Chip.latticeSet_moves {L : List Part} {b m : Chip} {x' : Nat} {p' : List Byte} (h : Moves L b m)
    (w : within [.rHp, .rMb, .rCh, .rTr, .rLat, .rDrv, .rAx, .rWhl, .rMdl, .rBk, .rBst, .rPwr, .rDg, .rDgb, .rCap, .rBcap, .rAdc, .rAs, .rCmp, .rSds, .rAin, .rFe, .rFio, .rTim, .rInt, .rSys, .rSup, .rProt, .rMap, .rNc, .tb, .mem, .isl, .stamps, .frees, .rdata, .asleep, .accums, .holdEnd, .coreV, .coreC, .whl, .mdl, .axes, .pool, .poolLast, .orderNo, .chans, .banks, .boost, .capReq, .capTb, .copies, .wear, .bcap, .jour, .recs, .fe, .fio, .tim, .adc, .assay, .cmp, .sds, .map, .saved, .nand, .mbox, .port, .gelow, .sys, .sup, .link, .refetch, .cyc] L = true) :
    Moves L b (Chip.latticeSet m x' p') := by
  unfold Chip.latticeSet
  extract_lets +onlyGivenNames x1
  clear_value x1
  split
  · rename_i y2 y3 y4 q5
    have h6 : Moves L b ((y3 : List Nat), y4).2 := by
      rw [← q5]
      refine Chip.eachEntry_moves ?_ (within_sub w (by decide +kernel)) fun y7 e8 h9 => ?_
      · assumption
      · refine Chip.latticeEntry_moves ?_ (within_sub w (by decide +kernel))
        assumption
    extract_lets +onlyGivenNames x10
    clear_value x10
    refine Chip.mbDone_moves ?_ (within_sub w (by decide +kernel))
    assumption

theorem Chip.axisGet_moves {L : List Part} {b m : Chip} {x' : Nat} {p' : List Byte} (h : Moves L b m)
    (w : within [.rHp, .rMb, .rInt, .mem, .accums, .mbox, .gelow, .cyc] L = true) :
    Moves L b (Chip.axisGet m x' p') := by
  unfold Chip.axisGet
  refine Chip.mbDone_moves ?_ (within_sub w (by decide +kernel))
  assumption

theorem Chip.options_moves {L : List Part} {b m : Chip} {x' : Nat} {p' : List Byte} (h : Moves L b m)
    (w : within [.rHp, .rMb, .rInt, .mem, .accums, .mbox, .gelow, .cyc] L = true) :
    Moves L b (Chip.options m x' p') := by
  unfold Chip.options
  extract_lets +onlyGivenNames x1
  clear_value x1
  extract_lets +onlyGivenNames x2
  clear_value x2
  refine Chip.mbDone_moves ?_ (within_sub w (by decide +kernel))
  refine Moves.gelow ?_ (within_sub w (by decide +kernel))
  assumption

theorem Chip.cancelEntry_moves {L : List Part} {b m : Chip} {o' : Nat} {e' : List Byte} (h : Moves L b m)
    (w : within [.rCh, .rTr, .rDrv, .rBk, .rBst, .rDg, .rDgb, .rCap, .rInt, .rMap, .frees, .asleep, .accums, .pool, .poolLast, .chans, .banks, .boost, .bcap, .jour, .sys, .cyc] L = true) :
    Moves L b (Chip.cancelEntry m o' e').2 := by
  unfold Chip.cancelEntry
  extract_lets +onlyGivenNames x1
  clear_value x1
  extract_lets +onlyGivenNames x2
  have h3 : Moves L b x2 := by
    unfold x2
    split
    · refine Chip.fireDue_moves ?_ (within_sub w (by decide +kernel))
      assumption
    · assumption
  clear_value x2
  split
  · split
    · rename_i y4 y5 y6 q7
      have h8 : Moves L b ((y5 : Bool), y6).2 := by
        rw [← q7]
        refine Chip.cancelSlot_moves ?_ (within_sub w (by decide +kernel))
        assumption
      refine Moves.pair ?_
      assumption
  · refine Moves.pair ?_
    assumption

theorem Chip.cancelCmd_moves {L : List Part} {b m : Chip} {x' : Nat} {p' : List Byte} (h : Moves L b m)
    (w : within [.rHp, .rMb, .rCh, .rTr, .rDrv, .rBk, .rBst, .rDg, .rDgb, .rCap, .rInt, .rMap, .mem, .frees, .asleep, .accums, .pool, .poolLast, .chans, .banks, .boost, .bcap, .jour, .mbox, .gelow, .sys, .cyc] L = true) :
    Moves L b (Chip.cancelCmd m x' p') := by
  unfold Chip.cancelCmd
  split
  · rename_i y1 y2 y3 q4
    have h5 : Moves L b ((y2 : List Nat), y3).2 := by
      rw [← q4]
      refine Chip.eachEntry_moves ?_ (within_sub w (by decide +kernel)) fun y6 e7 h8 => ?_
      · assumption
      · refine Chip.cancelEntry_moves ?_ (within_sub w (by decide +kernel))
        assumption
    refine Chip.mbDone_moves ?_ (within_sub w (by decide +kernel))
    assumption

theorem Chip.resetCmd_moves {L : List Part} {b m : Chip} {x' : Nat} {kind' : Nat} {p' : List Byte} (h : Moves L b m)
    (w : within [.rHp, .rMb, .rInt, .mem, .accums, .mbox, .gelow, .sys, .cyc] L = true) :
    Moves L b (Chip.resetCmd m x' kind' p') := by
  unfold Chip.resetCmd
  extract_lets +onlyGivenNames x1
  clear_value x1
  extract_lets +onlyGivenNames x2
  have h3 : Moves L b x2 := by
    unfold x2
    refine Chip.mbDone_moves ?_ (within_sub w (by decide +kernel))
    assumption
  clear_value x2
  extract_lets +onlyGivenNames x4
  clear_value x4
  refine Moves.ite ?_ ?_
  · assumption
  · refine Moves.sys ?_ (within_sub w (by decide +kernel))
    assumption

theorem Chip.flagsClear_moves {L : List Part} {b m : Chip} {f : Field} {chs : List Nat} (h : Moves L b m)
    (w : within [f.part] L = true) : Moves L b (m.flagsClear f chs) :=
  Moves.foldl h fun _ _ g => Chip.clearFlags_moves g w

theorem Chip.trainReport_moves {L : List Part} {b m : Chip} {x' : Nat} {p' : List Byte} (h : Moves L b m)
    (w : within [.rHp, .rMb, .rTr, .rInt, .mem, .accums, .mbox, .gelow, .cyc] L = true) :
    Moves L b (Chip.trainReport m x' p') := by
  unfold Chip.trainReport
  extract_lets +onlyGivenNames x1
  clear_value x1
  extract_lets +onlyGivenNames x2
  clear_value x2
  refine Moves.ite ?_ ?_
  · refine Chip.mbFail_moves ?_ (within_sub w (by decide +kernel))
    assumption
  · refine Chip.mbDone_moves ?_ (within_sub w (by decide +kernel))
    refine Moves.ite ?_ ?_
    · refine Chip.flagsClear_moves ?_ (within_sub w (by decide +kernel))
      assumption
    · assumption

theorem Chip.armAccept_moves {L : List Part} {b m : Chip} {x' : Nat} {first' : Option Nat} {k' : Nat} {e' : Ev} (h : Moves L b m)
    (w : within [.rCh, .frees, .pool, .poolLast, .orderNo, .jour, .recs] L = true) :
    Moves L b (Chip.armAccept m x' first' k' e').2.2 := by
  unfold Chip.armAccept
  split
  · rename_i y1 y2 y3 q4
    have h5 : Moves L b ((y2 : Nat), y3).2 := by
      rw [← q4]
      refine Chip.takeSlot_moves ?_ (within_sub w (by decide +kernel))
      assumption
    extract_lets +onlyGivenNames x6
    clear_value x6
    split
    · rename_i y7 y8 y9 q10
      have h11 : Moves L b ((y8 : Nat), y9).2 := by
        rw [← q10]
        refine Chip.accept_moves ?_ (within_sub w (by decide +kernel))
        assumption
      refine Moves.pair ?_
      refine Chip.stage_moves ?_ (within_sub w (by decide +kernel))
      assumption

theorem Chip.armAll_moves {L : List Part} {b m : Chip} {x : Nat} {train : Bool} {k : Nat} {first : Option Nat} {l : List Ev}
    (h : Moves L b m) (w : within [.rCh, .rInt, .frees, .asleep, .accums, .pool, .poolLast, .orderNo, .jour, .recs, .sys, .cyc] L = true) : Moves L b (m.armAll x train k first l).2.2.2 := by
  induction l generalizing m k first with
  | nil => exact h
  | cons e r ih =>
    unfold Chip.armAll
    extract_lets x1
    split
    · exact ih (Chip.armAccept_moves h (within_sub w (by decide +kernel)))
    · exact ih (Moves.ite (Chip.chFlag_moves h (within_sub w (by decide +kernel))) h)

theorem Chip.journalRead_moves {L : List Part} {b m : Chip} {x' : Nat} {p' : List Byte} (h : Moves L b m)
    (w : within [.rHp, .rMb, .rInt, .mem, .accums, .mbox, .gelow, .cyc] L = true) :
    Moves L b (Chip.journalRead m x' p') := by
  unfold Chip.journalRead
  extract_lets +onlyGivenNames x1
  clear_value x1
  extract_lets +onlyGivenNames x2
  clear_value x2
  refine Chip.mbDone_moves ?_ (within_sub w (by decide +kernel))
  assumption

theorem Chip.statusCmd_moves {L : List Part} {b m : Chip} {x' : Nat} (h : Moves L b m)
    (w : within [.rHp, .rMb, .rInt, .mem, .accums, .mbox, .gelow, .cyc] L = true) :
    Moves L b (Chip.statusCmd m x') := by
  unfold Chip.statusCmd
  extract_lets +onlyGivenNames x1
  clear_value x1
  refine Chip.mbDone_moves ?_ (within_sub w (by decide +kernel))
  assumption

theorem Chip.journalCollect_moves {L : List Part} {b m : Chip} {x' : Nat} {p' : List Byte} (h : Moves L b m)
    (w : within [.rHp, .rMb, .rInt, .mem, .accums, .collect, .mbox, .gelow, .cyc] L = true) :
    Moves L b (Chip.journalCollect m x' p') := by
  unfold Chip.journalCollect
  extract_lets +onlyGivenNames x1
  clear_value x1
  extract_lets +onlyGivenNames x2
  clear_value x2
  refine Moves.ite ?_ ?_
  · refine Chip.mbFail_moves ?_ (within_sub w (by decide +kernel))
    assumption
  · split
    · rename_i y3 y4 y5 q6
      have h7 : Moves L b ((y4 : Nat), y5).2 := by
        rw [← q6]
        refine Chip.jourCollect_moves ?_ (within_sub w (by decide +kernel))
        assumption
      refine Chip.mbDone_moves ?_ (within_sub w (by decide +kernel))
      assumption

theorem Chip.latticeReport_moves {L : List Part} {b m : Chip} {x' : Nat} {p' : List Byte} (h : Moves L b m)
    (w : within [.rHp, .rMb, .rLat, .rInt, .mem, .accums, .mbox, .gelow, .cyc] L = true) :
    Moves L b (Chip.latticeReport m x' p') := by
  unfold Chip.latticeReport
  extract_lets +onlyGivenNames x1
  clear_value x1
  extract_lets +onlyGivenNames x2
  clear_value x2
  refine Moves.ite ?_ ?_
  · refine Chip.mbFail_moves ?_ (within_sub w (by decide +kernel))
    assumption
  · refine Chip.mbDone_moves ?_ (within_sub w (by decide +kernel))
    refine Moves.ite ?_ ?_
    · refine Chip.flagsClear_moves ?_ (within_sub w (by decide +kernel))
      assumption
    · assumption

theorem Chip.journalFind_moves {L : List Part} {b m : Chip} {x' : Nat} {p' : List Byte} (h : Moves L b m)
    (w : within [.rHp, .rMb, .rInt, .mem, .accums, .mbox, .gelow, .cyc] L = true) :
    Moves L b (Chip.journalFind m x' p') := by
  unfold Chip.journalFind
  split
  · refine Chip.mbDone_moves ?_ (within_sub w (by decide +kernel))
    assumption

theorem Chip.trainUpdEntry_moves {L : List Part} {b m : Chip} {o' : Nat} {e' : List Byte} (h : Moves L b m)
    (w : within [.rTr, .chans, .cyc] L = true) :
    Moves L b (Chip.trainUpdEntry m o' e').2 := by
  unfold Chip.trainUpdEntry
  extract_lets +onlyGivenNames x1
  clear_value x1
  extract_lets +onlyGivenNames x2
  clear_value x2
  extract_lets +onlyGivenNames x3
  clear_value x3
  split
  · refine Moves.pair ?_
    assumption
  · split
    · refine Moves.pair ?_
      assumption
    · refine Moves.pair ?_
      refine Chip.trainUpdate_moves ?_ (within_sub w (by decide +kernel))
      assumption

theorem Chip.trainUpd_moves {L : List Part} {b m : Chip} {x' : Nat} {p' : List Byte} (h : Moves L b m)
    (w : within [.rHp, .rMb, .rTr, .rInt, .mem, .accums, .chans, .mbox, .gelow, .cyc] L = true) :
    Moves L b (Chip.trainUpd m x' p') := by
  unfold Chip.trainUpd
  split
  · rename_i y1 y2 y3 q4
    have h5 : Moves L b ((y2 : List Nat), y3).2 := by
      rw [← q4]
      refine Chip.eachEntry_moves ?_ (within_sub w (by decide +kernel)) fun y6 e7 h8 => ?_
      · assumption
      · refine Chip.trainUpdEntry_moves ?_ (within_sub w (by decide +kernel))
        assumption
    refine Chip.mbDone_moves ?_ (within_sub w (by decide +kernel))
    assumption

theorem Chip.armCmds_moves {L : List Part} {b m : Chip} {x' : Nat} {train' : Bool} {l' : List Ev} (h : Moves L b m)
    (w : within [.rHp, .rMb, .rCh, .rInt, .mem, .frees, .asleep, .accums, .pool, .poolLast, .orderNo, .jour, .recs, .mbox, .gelow, .sys, .cyc] L = true) :
    Moves L b (Chip.armCmds m x' train' l') := by
  unfold Chip.armCmds
  split
  · rename_i y1 y2 y3 y4 y5 q6
    have h7 : Moves L b ((y2 : List Nat), ((y3 : Option Nat), ((y4 : List Byte), y5))).2.2.2 := by
      rw [← q6]
      refine Chip.armAll_moves ?_ (within_sub w (by decide +kernel))
      assumption
    split
    · refine Chip.mbEnd_moves ?_ (within_sub w (by decide +kernel))
      assumption
    · extract_lets +onlyGivenNames x8
      clear_value x8
      refine Chip.mbDone_moves ?_ (within_sub w (by decide +kernel))
      refine Chip.setAcc_moves ?_ (within_sub w (by decide +kernel))
      assumption

theorem Chip.identify_moves {L : List Part} {b m : Chip} {x' : Nat} (h : Moves L b m)
    (w : within [.rHp, .rMb, .rInt, .mem, .accums, .mbox, .gelow, .cyc] L = true) :
    Moves L b (Chip.identify m x') := by
  unfold Chip.identify
  refine Chip.mbDone_moves ?_ (within_sub w (by decide +kernel))
  assumption

theorem Chip.inhibitCmd_moves {L : List Part} {b m : Chip} {x' : Nat} {set' : Bool} {p' : List Byte} (h : Moves L b m)
    (w : within [.rHp, .rMb, .rCh, .rTr, .rDrv, .rBk, .rBst, .rDg, .rDgb, .rCap, .rInt, .rMap, .mem, .frees, .asleep, .accums, .pool, .poolLast, .chans, .banks, .boost, .bcap, .jour, .recs, .mbox, .gelow, .sys, .cyc] L = true) :
    Moves L b (Chip.inhibitCmd m x' set' p') := by
  unfold Chip.inhibitCmd
  extract_lets +onlyGivenNames x1
  clear_value x1
  extract_lets +onlyGivenNames x2
  clear_value x2
  refine Moves.ite ?_ ?_
  · assumption
  · refine Moves.ite ?_ ?_
    · refine Chip.mbFail_moves ?_ (within_sub w (by decide +kernel))
      assumption
    · refine Moves.ite ?_ ?_
      · refine Chip.mbFail_moves ?_ (within_sub w (by decide +kernel))
        assumption
      · split
        · rename_i y3 y4 y5 q6
          have h7 : Moves L b ((y4 : Nat), y5).2 := by
            rw [← q6]
            refine Chip.accept_moves ?_ (within_sub w (by decide +kernel))
            assumption
          refine Chip.mbDone_moves ?_ (within_sub w (by decide +kernel))
          refine Chip.inhibitApply_moves ?_ (within_sub w (by decide +kernel))
          assumption

theorem Chip.axisEntry_moves {L : List Part} {b m : Chip} {x' : Nat} {e' : List Byte} (h : Moves L b m)
    (w : within [.rHp, .rMb, .rCh, .rTr, .rLat, .rDrv, .rAx, .rWhl, .rMdl, .rBk, .rBst, .rPwr, .rDg, .rDgb, .rCap, .rBcap, .rAdc, .rAs, .rCmp, .rSds, .rAin, .rFe, .rFio, .rTim, .rInt, .rSys, .rSup, .rProt, .rMap, .rNc, .tb, .mem, .isl, .stamps, .frees, .rdata, .asleep, .accums, .holdEnd, .coreV, .coreC, .whl, .mdl, .axes, .pool, .poolLast, .orderNo, .chans, .banks, .boost, .capReq, .capTb, .copies, .wear, .bcap, .jour, .recs, .fe, .fio, .tim, .adc, .assay, .cmp, .sds, .map, .saved, .nand, .mbox, .port, .gelow, .sys, .sup, .link, .refetch, .cyc] L = true) :
    Moves L b (Chip.axisEntry m x' e').2 := by
  unfold Chip.axisEntry
  extract_lets +onlyGivenNames x1
  clear_value x1
  extract_lets +onlyGivenNames x2
  clear_value x2
  extract_lets +onlyGivenNames x3
  have h4 : Moves L b x3 := by
    unfold x3
    refine Chip.gelowWrite_moves ?_ (within_sub w (by decide +kernel))
    assumption
  clear_value x3
  extract_lets +onlyGivenNames x5
  have h6 : Moves L b x5 := by
    unfold x5
    refine Chip.gelowWrite_moves ?_ (within_sub w (by decide +kernel))
    refine Chip.gelowWrite_moves ?_ (within_sub w (by decide +kernel))
    assumption
  clear_value x5
  split
  · refine Moves.pair ?_
    assumption
  · refine Moves.pair ?_
    refine Chip.gelowWrite_moves ?_ (within_sub w (by decide +kernel))
    assumption

theorem Chip.axisSet_moves {L : List Part} {b m : Chip} {x' : Nat} {p' : List Byte} (h : Moves L b m)
    (w : within [.rHp, .rMb, .rCh, .rTr, .rLat, .rDrv, .rAx, .rWhl, .rMdl, .rBk, .rBst, .rPwr, .rDg, .rDgb, .rCap, .rBcap, .rAdc, .rAs, .rCmp, .rSds, .rAin, .rFe, .rFio, .rTim, .rInt, .rSys, .rSup, .rProt, .rMap, .rNc, .tb, .mem, .isl, .stamps, .frees, .rdata, .asleep, .accums, .holdEnd, .coreV, .coreC, .whl, .mdl, .axes, .pool, .poolLast, .orderNo, .chans, .banks, .boost, .capReq, .capTb, .copies, .wear, .bcap, .jour, .recs, .fe, .fio, .tim, .adc, .assay, .cmp, .sds, .map, .saved, .nand, .mbox, .port, .gelow, .sys, .sup, .link, .refetch, .cyc] L = true) :
    Moves L b (Chip.axisSet m x' p') := by
  unfold Chip.axisSet
  split
  · rename_i y1 y2 y3 q4
    have h5 : Moves L b ((y2 : List Nat), y3).2 := by
      rw [← q4]
      refine Chip.eachEntry_moves ?_ (within_sub w (by decide +kernel)) fun y6 e7 h8 => ?_
      · assumption
      · refine Chip.axisEntry_moves ?_ (within_sub w (by decide +kernel))
        assumption
    refine Chip.mbDone_moves ?_ (within_sub w (by decide +kernel))
    assumption

theorem execInhibitRelease_moves {L : List Part} {x' : Mbx} {s t : State}
    (w : within [.rHp, .rMb, .rCh, .rTr, .rDrv, .rBk, .rBst, .rDg, .rDgb, .rCap, .rInt, .rMap, .mem, .frees, .asleep, .accums, .pool, .poolLast, .chans, .banks, .boost, .bcap, .jour, .recs, .mbox, .gelow, .sys, .cyc] L = true) (e : execInhibitRelease x' s = .next t) :
    Moves L s.chip t.chip := by
  unfold execInhibitRelease at e
  refine upd_moves (fun m => ?_) e
  refine Chip.runCmd_moves ?_ (within_sub w (by decide +kernel)) fun y1 p2 h3 => ?_
  · exact .refl
  · refine Chip.inhibitCmd_moves ?_ (within_sub w (by decide +kernel))
    assumption

theorem execLatticeReport_moves {L : List Part} {x' : Mbx} {s t : State}
    (w : within [.rHp, .rMb, .rLat, .rInt, .mem, .accums, .mbox, .gelow, .cyc] L = true) (e : execLatticeReport x' s = .next t) :
    Moves L s.chip t.chip := by
  unfold execLatticeReport at e
  refine upd_moves (fun m => ?_) e
  refine Chip.runCmd_moves ?_ (within_sub w (by decide +kernel)) fun y1 p2 h3 => ?_
  · exact .refl
  · refine Chip.latticeReport_moves ?_ (within_sub w (by decide +kernel))
    assumption

theorem execStatus_moves {L : List Part} {x' : Mbx} {s t : State}
    (w : within [.rHp, .rMb, .rInt, .mem, .accums, .mbox, .gelow, .cyc] L = true) (e : execStatus x' s = .next t) :
    Moves L s.chip t.chip := by
  unfold execStatus at e
  refine upd_moves (fun m => ?_) e
  refine Chip.runCmd_moves ?_ (within_sub w (by decide +kernel)) fun y1 p2 h3 => ?_
  · exact .refl
  · refine Chip.statusCmd_moves ?_ (within_sub w (by decide +kernel))
    assumption

theorem execLatticeSet_moves {L : List Part} {x' : Mbx} {s t : State}
    (w : within [.rHp, .rMb, .rCh, .rTr, .rLat, .rDrv, .rAx, .rWhl, .rMdl, .rBk, .rBst, .rPwr, .rDg, .rDgb, .rCap, .rBcap, .rAdc, .rAs, .rCmp, .rSds, .rAin, .rFe, .rFio, .rTim, .rInt, .rSys, .rSup, .rProt, .rMap, .rNc, .tb, .mem, .isl, .stamps, .frees, .rdata, .asleep, .accums, .holdEnd, .coreV, .coreC, .whl, .mdl, .axes, .pool, .poolLast, .orderNo, .chans, .banks, .boost, .capReq, .capTb, .copies, .wear, .bcap, .jour, .recs, .fe, .fio, .tim, .adc, .assay, .cmp, .sds, .map, .saved, .nand, .mbox, .port, .gelow, .sys, .sup, .link, .refetch, .cyc] L = true) (e : execLatticeSet x' s = .next t) :
    Moves L s.chip t.chip := by
  unfold execLatticeSet at e
  refine upd_moves (fun m => ?_) e
  refine Chip.runCmd_moves ?_ (within_sub w (by decide +kernel)) fun y1 p2 h3 => ?_
  · exact .refl
  · refine Chip.latticeSet_moves ?_ (within_sub w (by decide +kernel))
    assumption

theorem execJournalCollect_moves {L : List Part} {x' : Mbx} {s t : State}
    (w : within [.rHp, .rMb, .rInt, .mem, .accums, .collect, .mbox, .gelow, .cyc] L = true) (e : execJournalCollect x' s = .next t) :
    Moves L s.chip t.chip := by
  unfold execJournalCollect at e
  refine upd_moves (fun m => ?_) e
  refine Chip.runCmd_moves ?_ (within_sub w (by decide +kernel)) fun y1 p2 h3 => ?_
  · exact .refl
  · refine Chip.journalCollect_moves ?_ (within_sub w (by decide +kernel))
    assumption

theorem execJournalFind_moves {L : List Part} {x' : Mbx} {s t : State}
    (w : within [.rHp, .rMb, .rInt, .mem, .accums, .mbox, .gelow, .cyc] L = true) (e : execJournalFind x' s = .next t) :
    Moves L s.chip t.chip := by
  unfold execJournalFind at e
  refine upd_moves (fun m => ?_) e
  refine Chip.runCmd_moves ?_ (within_sub w (by decide +kernel)) fun y1 p2 h3 => ?_
  · exact .refl
  · refine Chip.journalFind_moves ?_ (within_sub w (by decide +kernel))
    assumption

theorem execResetAnvilC_moves {L : List Part} {x' : Mbx} {s t : State}
    (w : within [.rHp, .rMb, .rInt, .mem, .accums, .mbox, .gelow, .sys, .cyc] L = true) (e : execResetAnvilC x' s = .next t) :
    Moves L s.chip t.chip := by
  unfold execResetAnvilC at e
  refine upd_moves (fun m => ?_) e
  refine Chip.runCmd_moves ?_ (within_sub w (by decide +kernel)) fun y1 p2 h3 => ?_
  · exact .refl
  · refine Chip.resetCmd_moves ?_ (within_sub w (by decide +kernel))
    assumption

theorem execArm_moves {L : List Part} {x' : Mbx} {s t : State}
    (w : within [.rHp, .rMb, .rCh, .rInt, .mem, .frees, .asleep, .accums, .pool, .poolLast, .orderNo, .jour, .recs, .mbox, .gelow, .sys, .cyc] L = true) (e : execArm x' s = .next t) :
    Moves L s.chip t.chip := by
  unfold execArm at e
  refine upd_moves (fun m => ?_) e
  refine Chip.runCmd_moves ?_ (within_sub w (by decide +kernel)) fun y1 p2 h3 => ?_
  · exact .refl
  · refine Chip.armCmds_moves ?_ (within_sub w (by decide +kernel))
    assumption

theorem execTrainUpd_moves {L : List Part} {x' : Mbx} {s t : State}
    (w : within [.rHp, .rMb, .rTr, .rInt, .mem, .accums, .chans, .mbox, .gelow, .cyc] L = true) (e : execTrainUpd x' s = .next t) :
    Moves L s.chip t.chip := by
  unfold execTrainUpd at e
  refine upd_moves (fun m => ?_) e
  refine Chip.runCmd_moves ?_ (within_sub w (by decide +kernel)) fun y1 p2 h3 => ?_
  · exact .refl
  · refine Chip.trainUpd_moves ?_ (within_sub w (by decide +kernel))
    assumption

theorem execResetModule_moves {L : List Part} {x' : Mbx} {s t : State}
    (w : within [.rHp, .rMb, .rInt, .mem, .accums, .mbox, .gelow, .sys, .cyc] L = true) (e : execResetModule x' s = .next t) :
    Moves L s.chip t.chip := by
  unfold execResetModule at e
  refine upd_moves (fun m => ?_) e
  refine Chip.runCmd_moves ?_ (within_sub w (by decide +kernel)) fun y1 p2 h3 => ?_
  · exact .refl
  · refine Chip.resetCmd_moves ?_ (within_sub w (by decide +kernel))
    assumption

theorem execJournalRead_moves {L : List Part} {x' : Mbx} {s t : State}
    (w : within [.rHp, .rMb, .rInt, .mem, .accums, .mbox, .gelow, .cyc] L = true) (e : execJournalRead x' s = .next t) :
    Moves L s.chip t.chip := by
  unfold execJournalRead at e
  refine upd_moves (fun m => ?_) e
  refine Chip.runCmd_moves ?_ (within_sub w (by decide +kernel)) fun y1 p2 h3 => ?_
  · exact .refl
  · refine Chip.journalRead_moves ?_ (within_sub w (by decide +kernel))
    assumption

theorem execAxisGet_moves {L : List Part} {x' : Mbx} {s t : State}
    (w : within [.rHp, .rMb, .rInt, .mem, .accums, .mbox, .gelow, .cyc] L = true) (e : execAxisGet x' s = .next t) :
    Moves L s.chip t.chip := by
  unfold execAxisGet at e
  refine upd_moves (fun m => ?_) e
  refine Chip.runCmd_moves ?_ (within_sub w (by decide +kernel)) fun y1 p2 h3 => ?_
  · exact .refl
  · refine Chip.axisGet_moves ?_ (within_sub w (by decide +kernel))
    assumption

theorem execTrainReport_moves {L : List Part} {x' : Mbx} {s t : State}
    (w : within [.rHp, .rMb, .rTr, .rInt, .mem, .accums, .mbox, .gelow, .cyc] L = true) (e : execTrainReport x' s = .next t) :
    Moves L s.chip t.chip := by
  unfold execTrainReport at e
  refine upd_moves (fun m => ?_) e
  refine Chip.runCmd_moves ?_ (within_sub w (by decide +kernel)) fun y1 p2 h3 => ?_
  · exact .refl
  · refine Chip.trainReport_moves ?_ (within_sub w (by decide +kernel))
    assumption

theorem execAxisSet_moves {L : List Part} {x' : Mbx} {s t : State}
    (w : within [.rHp, .rMb, .rCh, .rTr, .rLat, .rDrv, .rAx, .rWhl, .rMdl, .rBk, .rBst, .rPwr, .rDg, .rDgb, .rCap, .rBcap, .rAdc, .rAs, .rCmp, .rSds, .rAin, .rFe, .rFio, .rTim, .rInt, .rSys, .rSup, .rProt, .rMap, .rNc, .tb, .mem, .isl, .stamps, .frees, .rdata, .asleep, .accums, .holdEnd, .coreV, .coreC, .whl, .mdl, .axes, .pool, .poolLast, .orderNo, .chans, .banks, .boost, .capReq, .capTb, .copies, .wear, .bcap, .jour, .recs, .fe, .fio, .tim, .adc, .assay, .cmp, .sds, .map, .saved, .nand, .mbox, .port, .gelow, .sys, .sup, .link, .refetch, .cyc] L = true) (e : execAxisSet x' s = .next t) :
    Moves L s.chip t.chip := by
  unfold execAxisSet at e
  refine upd_moves (fun m => ?_) e
  refine Chip.runCmd_moves ?_ (within_sub w (by decide +kernel)) fun y1 p2 h3 => ?_
  · exact .refl
  · refine Chip.axisSet_moves ?_ (within_sub w (by decide +kernel))
    assumption

theorem execInhibitSet_moves {L : List Part} {x' : Mbx} {s t : State}
    (w : within [.rHp, .rMb, .rCh, .rTr, .rDrv, .rBk, .rBst, .rDg, .rDgb, .rCap, .rInt, .rMap, .mem, .frees, .asleep, .accums, .pool, .poolLast, .chans, .banks, .boost, .bcap, .jour, .recs, .mbox, .gelow, .sys, .cyc] L = true) (e : execInhibitSet x' s = .next t) :
    Moves L s.chip t.chip := by
  unfold execInhibitSet at e
  refine upd_moves (fun m => ?_) e
  refine Chip.runCmd_moves ?_ (within_sub w (by decide +kernel)) fun y1 p2 h3 => ?_
  · exact .refl
  · refine Chip.inhibitCmd_moves ?_ (within_sub w (by decide +kernel))
    assumption

theorem execArmTrain_moves {L : List Part} {x' : Mbx} {s t : State}
    (w : within [.rHp, .rMb, .rCh, .rInt, .mem, .frees, .asleep, .accums, .pool, .poolLast, .orderNo, .jour, .recs, .mbox, .gelow, .sys, .cyc] L = true) (e : execArmTrain x' s = .next t) :
    Moves L s.chip t.chip := by
  unfold execArmTrain at e
  refine upd_moves (fun m => ?_) e
  refine Chip.runCmd_moves ?_ (within_sub w (by decide +kernel)) fun y1 p2 h3 => ?_
  · exact .refl
  · refine Chip.armCmds_moves ?_ (within_sub w (by decide +kernel))
    assumption

theorem execEventGet_moves {L : List Part} {x' : Mbx} {s t : State}
    (w : within [.rHp, .rMb, .rInt, .mem, .accums, .mbox, .gelow, .cyc] L = true) (e : execEventGet x' s = .next t) :
    Moves L s.chip t.chip := by
  unfold execEventGet at e
  refine upd_moves (fun m => ?_) e
  refine Chip.runCmd_moves ?_ (within_sub w (by decide +kernel)) fun y1 p2 h3 => ?_
  · exact .refl
  · refine Chip.eventGet_moves ?_ (within_sub w (by decide +kernel))
    assumption

theorem execIdentify_moves {L : List Part} {x' : Mbx} {s t : State}
    (w : within [.rHp, .rMb, .rInt, .mem, .accums, .mbox, .gelow, .cyc] L = true) (e : execIdentify x' s = .next t) :
    Moves L s.chip t.chip := by
  unfold execIdentify at e
  refine upd_moves (fun m => ?_) e
  refine Chip.runCmd_moves ?_ (within_sub w (by decide +kernel)) fun y1 p2 h3 => ?_
  · exact .refl
  · refine Chip.identify_moves ?_ (within_sub w (by decide +kernel))
    assumption

theorem execOptions_moves {L : List Part} {x' : Mbx} {s t : State}
    (w : within [.rHp, .rMb, .rInt, .mem, .accums, .mbox, .gelow, .cyc] L = true) (e : execOptions x' s = .next t) :
    Moves L s.chip t.chip := by
  unfold execOptions at e
  refine upd_moves (fun m => ?_) e
  refine Chip.runCmd_moves ?_ (within_sub w (by decide +kernel)) fun y1 p2 h3 => ?_
  · exact .refl
  · refine Chip.options_moves ?_ (within_sub w (by decide +kernel))
    assumption

theorem execCancel_moves {L : List Part} {x' : Mbx} {s t : State}
    (w : within [.rHp, .rMb, .rCh, .rTr, .rDrv, .rBk, .rBst, .rDg, .rDgb, .rCap, .rInt, .rMap, .mem, .frees, .asleep, .accums, .pool, .poolLast, .chans, .banks, .boost, .bcap, .jour, .mbox, .gelow, .sys, .cyc] L = true) (e : execCancel x' s = .next t) :
    Moves L s.chip t.chip := by
  unfold execCancel at e
  refine upd_moves (fun m => ?_) e
  refine Chip.runCmd_moves ?_ (within_sub w (by decide +kernel)) fun y1 p2 h3 => ?_
  · exact .refl
  · refine Chip.cancelCmd_moves ?_ (within_sub w (by decide +kernel))
    assumption

end Sys2Proof.Machine
end

