-- ==== Sys2Proof/Laws/MovesMaintain.lean ====
section
/-! SUPPORT. Each operation of Machine/Maintain.lean moves the block within the parts it names. -/

-- Theorem by theorem: many at once each take a thread's stack, and the package as one text ran out of them.
set_option Elab.async false

namespace Sys2Proof.Machine

theorem Chip.fwUpdate_moves {L : List Part} {b m : Chip} {x' : Nat} {p' : List Byte} (h : Moves L b m)
    (w : within [.rHp, .rMb, .rInt, .mem, .accums, .mbox, .gelow, .cyc] L = true) :
    Moves L b (Chip.fwUpdate m x' p') := by
  unfold Chip.fwUpdate
  refine Moves.ite ?_ ?_
  · refine Chip.mbFail_moves ?_ (within_sub w (by decide +kernel))
    assumption
  · refine Chip.upTake_moves ?_ (within_sub w (by decide +kernel))
    assumption

theorem Chip.wearClear_moves {L : List Part} {b m : Chip} {ch' : Nat} (h : Moves L b m)
    (w : within [.rDg, .wear] L = true) :
    Moves L b (Chip.wearClear m ch') := by
  unfold Chip.wearClear
  extract_lets +onlyGivenNames x1
  clear_value x1
  refine Chip.wearPublish_moves ?_ (within_sub w (by decide +kernel))
  refine Moves.wear ?_ (within_sub w (by decide +kernel))
  assumption

theorem Chip.bcapClear_moves {L : List Part} {b m : Chip} (h : Moves L b m)
    (w : within [.bcap] L = true) :
    Moves L b (Chip.bcapClear m) := by
  unfold Chip.bcapClear
  extract_lets +onlyGivenNames x1
  clear_value x1
  refine Moves.bcap ?_ (within_sub w (by decide +kernel))
  assumption

theorem Chip.wearReset_moves {L : List Part} {b m : Chip} {x' : Nat} {p' : List Byte} (h : Moves L b m)
    (w : within [.rHp, .rMb, .rDg, .rInt, .mem, .accums, .wear, .bcap, .mbox, .gelow, .cyc] L = true) :
    Moves L b (Chip.wearReset m x' p') := by
  unfold Chip.wearReset
  extract_lets +onlyGivenNames x1
  clear_value x1
  extract_lets +onlyGivenNames x2
  clear_value x2
  extract_lets +onlyGivenNames x3
  have h4 : Moves L b x3 := by
    unfold x3
    refine Moves.foldl ?_ fun y5 a6 h7 => ?_
    · assumption
    · refine Chip.wearClear_moves ?_ (within_sub w (by decide +kernel))
      assumption
  clear_value x3
  refine Moves.ite ?_ ?_
  · refine Chip.mbFail_moves ?_ (within_sub w (by decide +kernel))
    assumption
  · refine Chip.mbDone_moves ?_ (within_sub w (by decide +kernel))
    refine Moves.ite ?_ ?_
    · refine Chip.bcapClear_moves ?_ (within_sub w (by decide +kernel))
      assumption
    · assumption

theorem Chip.wearParam_moves {L : List Part} {b m : Chip} {x' : Nat} {p' : List Byte} (h : Moves L b m)
    (w : within [.rHp, .rMb, .rDg, .rInt, .mem, .accums, .wear, .mbox, .gelow, .cyc] L = true) :
    Moves L b (Chip.wearParam m x' p') := by
  unfold Chip.wearParam
  extract_lets +onlyGivenNames x1
  clear_value x1
  extract_lets +onlyGivenNames x2
  have h3 : Moves L b x2 := by
    unfold x2
    refine Moves.foldl ?_ fun y4 a5 h6 => ?_
    · assumption
    · extract_lets +onlyGivenNames x7
      clear_value x7
      refine Chip.wearPublish_moves ?_ (within_sub w (by decide +kernel))
      refine Moves.wear ?_ (within_sub w (by decide +kernel))
      assumption
  clear_value x2
  refine Moves.ite ?_ ?_
  · refine Chip.mbFail_moves ?_ (within_sub w (by decide +kernel))
    assumption
  · refine Chip.mbDone_moves ?_ (within_sub w (by decide +kernel))
    assumption

theorem Chip.rateSet_moves {L : List Part} {b m : Chip} {x' : Nat} {p' : List Byte} (h : Moves L b m)
    (w : within [.rHp, .rMb, .rCh, .rTr, .rLat, .rDrv, .rAx, .rWhl, .rMdl, .rBk, .rBst, .rPwr, .rDg, .rDgb, .rCap, .rBcap, .rAdc, .rAs, .rCmp, .rSds, .rAin, .rFe, .rFio, .rTim, .rInt, .rSys, .rSup, .rProt, .rMap, .rNc, .tb, .mem, .isl, .stamps, .frees, .rdata, .asleep, .accums, .holdEnd, .coreV, .coreC, .whl, .mdl, .axes, .pool, .poolLast, .orderNo, .chans, .banks, .boost, .capReq, .capTb, .copies, .wear, .bcap, .jour, .recs, .fe, .fio, .tim, .adc, .assay, .cmp, .sds, .map, .saved, .nand, .mbox, .port, .gelow, .sys, .sup, .link, .refetch, .cyc] L = true) :
    Moves L b (Chip.rateSet m x' p') := by
  unfold Chip.rateSet
  extract_lets +onlyGivenNames x1
  have h2 : Moves L b x1 := by
    unfold x1
    refine Moves.foldl ?_ fun y3 a4 h5 => ?_
    · assumption
    · refine Chip.gelowWrite_moves ?_ (within_sub w (by decide +kernel))
      assumption
  clear_value x1
  refine Chip.mbDone_moves ?_ (within_sub w (by decide +kernel))
  assumption

theorem Chip.tileLoadEnd_moves {L : List Part} {b m : Chip} {x' : Nat} {r' : LongRun} (h : Moves L b m)
    (w : within [.rHp, .rMb, .rInt, .mem, .frees, .accums, .map, .nand, .mbox, .gelow, .cyc] L = true) :
    Moves L b (Chip.tileLoadEnd m x' r') := by
  unfold Chip.tileLoadEnd
  extract_lets +onlyGivenNames x1
  clear_value x1
  extract_lets +onlyGivenNames x2
  clear_value x2
  extract_lets +onlyGivenNames x3
  clear_value x3
  extract_lets +onlyGivenNames x4
  clear_value x4
  extract_lets +onlyGivenNames x5
  clear_value x5
  extract_lets +onlyGivenNames x6
  clear_value x6
  refine Moves.ite ?_ ?_
  · refine Chip.mbFail_moves ?_ (within_sub w (by decide +kernel))
    assumption
  · refine Moves.ite ?_ ?_
    · refine Chip.mbFail_moves ?_ (within_sub w (by decide +kernel))
      assumption
    · split
      · rename_i y7 y8 y9 q10
        have h11 : Moves L b ((y8 : Nat), y9).2 := by
          rw [← q10]
          refine Chip.tileCommit_moves ?_ (within_sub w (by decide +kernel))
          assumption
        extract_lets +onlyGivenNames x12
        clear_value x12
        extract_lets +onlyGivenNames x13
        unfold x13
        clear_value x13
        refine Chip.runDone_moves ?_ (within_sub w (by decide +kernel))
        refine Moves.upd (x := y9) ?_ (by constructor <;> first | rfl | exact .inl rfl | exact .inr (within_mem w (by decide +kernel)))
        assumption

theorem Chip.bankTest_moves {L : List Part} {b m : Chip} {b' : Nat} {t' : BankTest} (h : Moves L b m)
    (w : within [.rCh, .rTr, .rDrv, .rBk, .rBst, .rDg, .rDgb, .rCap, .rInt, .rMap, .frees, .asleep, .accums, .pool, .poolLast, .chans, .banks, .boost, .capReq, .capTb, .bcap, .jour, .sys, .cyc] L = true) :
    Moves L b (Chip.bankTest m b' t').2 := by
  unfold Chip.bankTest
  extract_lets +onlyGivenNames x1
  clear_value x1
  extract_lets +onlyGivenNames x2
  have h3 : Moves L b x2 := by
    unfold x2
    refine Chip.wr_moves ?_ (within_sub w (by decide +kernel))
    refine Chip.setBank_moves ?_ (within_sub w (by decide +kernel))
    assumption
  clear_value x2
  extract_lets +onlyGivenNames x4
  have h5 : Moves L b x4 := by
    unfold x4
    refine Moves.ite ?_ ?_
    · refine Chip.supNodeHi_moves ?_ (within_sub w (by decide +kernel))
      assumption
    · refine Chip.supEnd_moves ?_ (within_sub w (by decide +kernel))
      assumption
  clear_value x4
  extract_lets +onlyGivenNames x6
  clear_value x6
  extract_lets +onlyGivenNames x7
  have h8 : Moves L b x7 := by
    unfold x7
    refine Chip.bankCtl_moves ?_ (within_sub w (by decide +kernel))
    assumption
  clear_value x7
  extract_lets +onlyGivenNames x9
  have h10 : Moves L b x9 := by
    unfold x9
    refine Moves.foldl ?_ fun y11 a12 h13 => ?_
    · assumption
    · extract_lets +onlyGivenNames x14
      clear_value x14
      extract_lets +onlyGivenNames x15
      clear_value x15
      extract_lets +onlyGivenNames x16
      clear_value x16
      refine Chip.nodeEnd_moves ?_ (within_sub w (by decide +kernel))
      refine Chip.setDrv_moves ?_ (within_sub w (by decide +kernel))
      assumption
  clear_value x9
  extract_lets +onlyGivenNames x17
  clear_value x17
  refine Moves.pair ?_
  refine Chip.bankCtl_moves ?_ (within_sub w (by decide +kernel))
  assumption

theorem Chip.bankTests_moves {L : List Part} {b m : Chip} {k : Nat} {l : List BankTest} (h : Moves L b m) (w : within [.rCh, .rTr, .rDrv, .rBk, .rBst, .rDg, .rDgb, .rCap, .rInt, .rMap, .frees, .asleep, .accums, .pool, .poolLast, .chans, .banks, .boost, .capReq, .capTb, .bcap, .jour, .sys, .cyc] L = true) :
    Moves L b (m.bankTests k l).2 := by
  induction l generalizing m k with
  | nil => exact h
  | cons t r ih => exact ih (Chip.bankTest_moves h w)

theorem Chip.fwEnd_moves {L : List Part} {b m : Chip} {x' : Nat} {r' : LongRun} (h : Moves L b m)
    (w : within [.rHp, .rMb, .rInt, .mem, .accums, .nand, .mbox, .gelow, .cyc] L = true) :
    Moves L b (Chip.fwEnd m x' r') := by
  unfold Chip.fwEnd
  extract_lets +onlyGivenNames x1
  clear_value x1
  extract_lets +onlyGivenNames x2
  clear_value x2
  extract_lets +onlyGivenNames x3
  clear_value x3
  extract_lets +onlyGivenNames x4
  clear_value x4
  extract_lets +onlyGivenNames x5
  have h6 : Moves L b x5 := by
    unfold x5
    refine Moves.nand ?_ (within_sub w (by decide +kernel))
    assumption
  clear_value x5
  extract_lets +onlyGivenNames x7
  have h8 : Moves L b x7 := by
    unfold x7
    refine Chip.nandDay_moves ?_ (within_sub w (by decide +kernel))
    assumption
  clear_value x7
  extract_lets +onlyGivenNames x9
  clear_value x9
  extract_lets +onlyGivenNames x10
  have h11 : Moves L b x10 := by
    unfold x10
    refine Moves.nand ?_ (within_sub w (by decide +kernel))
    assumption
  clear_value x10
  refine Moves.ite ?_ ?_
  · refine Chip.mbFail_moves ?_ (within_sub w (by decide +kernel))
    assumption
  · refine Moves.ite ?_ ?_
    · refine Chip.mbFail_moves ?_ (within_sub w (by decide +kernel))
      assumption
    · refine Chip.runDone_moves ?_ (within_sub w (by decide +kernel))
      assumption

theorem Chip.mapChEntry_moves {L : List Part} {b m : Chip} {o' : Nat} {e' : List Byte} (h : Moves L b m)
    (w : within [.rHp, .rMb, .rCh, .rTr, .rLat, .rDrv, .rAx, .rWhl, .rMdl, .rBk, .rBst, .rPwr, .rDg, .rDgb, .rCap, .rBcap, .rAdc, .rAs, .rCmp, .rSds, .rAin, .rFe, .rFio, .rTim, .rInt, .rSys, .rSup, .rProt, .rMap, .rNc, .tb, .mem, .isl, .stamps, .frees, .rdata, .asleep, .accums, .holdEnd, .coreV, .coreC, .whl, .mdl, .axes, .pool, .poolLast, .orderNo, .chans, .banks, .boost, .capReq, .capTb, .copies, .wear, .bcap, .jour, .recs, .fe, .fio, .tim, .adc, .assay, .cmp, .sds, .map, .saved, .nand, .mbox, .port, .gelow, .sys, .sup, .link, .refetch, .cyc] L = true) :
    Moves L b (Chip.mapChEntry m o' e').2 := by
  unfold Chip.mapChEntry
  extract_lets +onlyGivenNames x1
  clear_value x1
  split
  · refine Moves.pair ?_
    assumption
  · split
    · refine Moves.pair ?_
      assumption
    · refine Moves.pair ?_
      refine Chip.gelowWrite_moves ?_ (within_sub w (by decide +kernel))
      assumption

theorem Chip.diagDone_moves {L : List Part} {b m : Chip} {x' : Nat} {pay' : List Byte} {window' : List Byte} (h : Moves L b m)
    (w : within [.rHp, .rMb, .rInt, .mem, .asleep, .accums, .jour, .recs, .mbox, .gelow, .sys, .cyc] L = true) :
    Moves L b (Chip.diagDone m x' pay' window').2 := by
  unfold Chip.diagDone
  split
  · rename_i y1 y2 y3 q4
    have h5 : Moves L b ((y2 : Nat), y3).2 := by
      rw [← q4]
      refine Chip.accept_moves ?_ (within_sub w (by decide +kernel))
      assumption
    refine Moves.pair ?_
    refine Chip.mbDone_moves ?_ (within_sub w (by decide +kernel))
    refine Chip.jourResolve_moves ?_ (within_sub w (by decide +kernel))
    assumption

theorem Chip.countersCmd_moves {L : List Part} {b m : Chip} {x' : Nat} {p' : List Byte} (h : Moves L b m)
    (w : within [.rHp, .rMb, .rInt, .mem, .asleep, .accums, .jour, .recs, .mbox, .gelow, .sys, .cyc] L = true) :
    Moves L b (Chip.countersCmd m x' p') := by
  unfold Chip.countersCmd
  extract_lets +onlyGivenNames x1
  clear_value x1
  extract_lets +onlyGivenNames x2
  clear_value x2
  extract_lets +onlyGivenNames x3
  clear_value x3
  extract_lets +onlyGivenNames x4
  clear_value x4
  extract_lets +onlyGivenNames x5
  clear_value x5
  extract_lets +onlyGivenNames x6
  clear_value x6
  refine Moves.ite ?_ ?_
  · refine Chip.mbFail_moves ?_ (within_sub w (by decide +kernel))
    assumption
  · refine Moves.ite ?_ ?_
    · refine Chip.mbFail_moves ?_ (within_sub w (by decide +kernel))
      assumption
    · refine Moves.ite ?_ ?_
      · refine Chip.mbFail_moves ?_ (within_sub w (by decide +kernel))
        assumption
      · split
        · rename_i y7 y8 y9 q10
          have h11 : Moves L b ((y8 : Nat), y9).2 := by
            rw [← q10]
            refine Chip.diagDone_moves ?_ (within_sub w (by decide +kernel))
            assumption
          extract_lets +onlyGivenNames x12
          clear_value x12
          extract_lets +onlyGivenNames x13
          clear_value x13
          refine Moves.gelow ?_ (within_sub w (by decide +kernel))
          assumption

theorem Chip.selfTestOne_moves {L : List Part} {b m : Chip} {bit' : Nat} {n' : Nat} {nvs' : List Int} {banks' : List BankTest} (h : Moves L b m)
    (w : within [.rCh, .rTr, .rDrv, .rBk, .rBst, .rDg, .rDgb, .rCap, .rInt, .rMap, .rNc, .frees, .asleep, .accums, .pool, .poolLast, .chans, .banks, .boost, .capReq, .capTb, .bcap, .jour, .sys, .cyc] L = true) :
    Moves L b (Chip.selfTestOne m bit' n' nvs' banks').2 := by
  unfold Chip.selfTestOne
  extract_lets +onlyGivenNames x1
  clear_value x1
  extract_lets +onlyGivenNames x2
  clear_value x2
  extract_lets +onlyGivenNames x3
  unfold x3
  clear_value x3
  split
  · refine Moves.pair ?_
    assumption
  · split
    · split
      · refine Chip.bankTests_moves ?_ (within_sub w (by decide +kernel))
        assumption
      · refine Moves.pair ?_
        assumption
    · split
      · refine Moves.pair ?_
        refine Moves.ite ?_ ?_
        · refine Moves.upd (x := m) ?_ (by constructor <;> first | rfl | exact .inl rfl | exact .inr (within_mem w (by decide +kernel)))
          assumption
        · assumption
      · split
        · split
          · refine Moves.pair ?_
            assumption
          · split
            · rename_i y4 y5 y6 q7
              have h8 : Moves L b ((y5 : Int), y6).2 := by
                rw [← q7]
                refine Chip.free_moves ?_ (within_sub w (by decide +kernel))
                assumption
              refine Moves.pair ?_
              refine Chip.ncFlag_moves ?_ (within_sub w (by decide +kernel))
              refine Chip.wr_moves ?_ (within_sub w (by decide +kernel))
              refine Chip.wr_moves ?_ (within_sub w (by decide +kernel))
              assumption
        · split
          · refine Moves.pair ?_
            assumption
          · refine Moves.pair ?_
            assumption

theorem Chip.tileLoadCmd_moves {L : List Part} {b m : Chip} {x' : Nat} {p' : List Byte} (h : Moves L b m)
    (w : within [.rHp, .rMb, .rInt, .mem, .accums, .mbox, .gelow, .cyc] L = true) :
    Moves L b (Chip.tileLoadCmd m x' p') := by
  unfold Chip.tileLoadCmd
  refine Moves.ite ?_ ?_
  · refine Chip.mbFail_moves ?_ (within_sub w (by decide +kernel))
    assumption
  · refine Chip.upTake_moves ?_ (within_sub w (by decide +kernel))
    assumption

theorem Chip.mapConfig_moves {L : List Part} {b m : Chip} {x' : Nat} {p' : List Byte} (h : Moves L b m)
    (w : within [.rHp, .rMb, .rCh, .rTr, .rLat, .rDrv, .rAx, .rWhl, .rMdl, .rBk, .rBst, .rPwr, .rDg, .rDgb, .rCap, .rBcap, .rAdc, .rAs, .rCmp, .rSds, .rAin, .rFe, .rFio, .rTim, .rInt, .rSys, .rSup, .rProt, .rMap, .rNc, .tb, .mem, .isl, .stamps, .frees, .rdata, .asleep, .accums, .holdEnd, .coreV, .coreC, .whl, .mdl, .axes, .pool, .poolLast, .orderNo, .chans, .banks, .boost, .capReq, .capTb, .copies, .wear, .bcap, .jour, .recs, .fe, .fio, .tim, .adc, .assay, .cmp, .sds, .map, .saved, .nand, .mbox, .port, .gelow, .sys, .sup, .link, .refetch, .cyc] L = true) :
    Moves L b (Chip.mapConfig m x' p') := by
  unfold Chip.mapConfig
  extract_lets +onlyGivenNames x1
  have h2 : Moves L b x1 := by
    unfold x1
    refine Chip.gelowWrite_moves ?_ (within_sub w (by decide +kernel))
    refine Chip.gelowWrite_moves ?_ (within_sub w (by decide +kernel))
    assumption
  clear_value x1
  refine Moves.ite ?_ ?_
  · refine Chip.mbFail_moves ?_ (within_sub w (by decide +kernel))
    assumption
  · refine Chip.mbDone_moves ?_ (within_sub w (by decide +kernel))
    assumption

theorem Chip.coverageExport_moves {L : List Part} {b m : Chip} {x' : Nat} {p' : List Byte} (h : Moves L b m)
    (w : within [.rHp, .rMb, .rInt, .mem, .accums, .mbox, .gelow, .cyc] L = true) :
    Moves L b (Chip.coverageExport m x' p') := by
  unfold Chip.coverageExport
  extract_lets +onlyGivenNames x1
  clear_value x1
  extract_lets +onlyGivenNames x2
  clear_value x2
  extract_lets +onlyGivenNames x3
  clear_value x3
  extract_lets +onlyGivenNames x4
  clear_value x4
  extract_lets +onlyGivenNames x5
  have h6 : Moves L b x5 := by
    unfold x5
    refine Chip.wr_moves ?_ (within_sub w (by decide +kernel))
    assumption
  clear_value x5
  refine Moves.ite ?_ ?_
  · refine Chip.mbFail_moves ?_ (within_sub w (by decide +kernel))
    assumption
  · refine Moves.ite ?_ ?_
    · refine Chip.mbFail_moves ?_ (within_sub w (by decide +kernel))
      assumption
    · refine Chip.mbLong_moves ?_ (within_sub w (by decide +kernel))
      assumption

theorem Chip.wearReport_moves {L : List Part} {b m : Chip} {x' : Nat} {p' : List Byte} (h : Moves L b m)
    (w : within [.rHp, .rMb, .rInt, .mem, .accums, .jour, .recs, .mbox, .gelow, .cyc] L = true) :
    Moves L b (Chip.wearReport m x' p') := by
  unfold Chip.wearReport
  extract_lets +onlyGivenNames x1
  clear_value x1
  extract_lets +onlyGivenNames x2
  clear_value x2
  refine Moves.ite ?_ ?_
  · refine Chip.mbFail_moves ?_ (within_sub w (by decide +kernel))
    assumption
  · split
    · rename_i y3 y4 y5 q6
      have h7 : Moves L b ((y4 : Nat), y5).2 := by
        rw [← q6]
        refine Chip.accept_moves ?_ (within_sub w (by decide +kernel))
        assumption
      refine Chip.mbLong_moves ?_ (within_sub w (by decide +kernel))
      refine Chip.wr_moves ?_ (within_sub w (by decide +kernel))
      refine Chip.stage_moves ?_ (within_sub w (by decide +kernel))
      assumption

theorem Chip.selfTests_moves {L : List Part} {b m : Chip} {mask : Nat} {res : List Nat} {nvs : List Int} {banks : List BankTest}
    {bits : List Nat} (h : Moves L b m) (w : within [.rCh, .rTr, .rDrv, .rBk, .rBst, .rDg, .rDgb, .rCap, .rInt, .rMap, .rNc, .frees, .asleep, .accums, .pool, .poolLast, .chans, .banks, .boost, .capReq, .capTb, .bcap, .jour, .sys, .cyc] L = true) : Moves L b (m.selfTests mask res nvs banks bits).2 := by
  induction bits generalizing m with
  | nil => exact h
  | cons k r ih =>
    unfold Chip.selfTests
    split
    · exact ih (Chip.selfTestOne_moves h w)
    · exact ih h

theorem Chip.selfTest_moves {L : List Part} {b m : Chip} {x' : Nat} {t0' : List Int} {t2' : Nat} {t3' : Nat} {t4' : Nat} {banks' : List BankTest} {p' : List Byte} (h : Moves L b m)
    (w : within [.rMb, .rCh, .rTr, .rDrv, .rBk, .rBst, .rDg, .rDgb, .rCap, .rInt, .rMap, .rNc, .frees, .asleep, .accums, .pool, .poolLast, .chans, .banks, .boost, .capReq, .capTb, .bcap, .jour, .mbox, .gelow, .sys, .cyc] L = true) :
    Moves L b (Chip.selfTest m x' t0' t2' t3' t4' banks' p') := by
  unfold Chip.selfTest
  refine Moves.ite ?_ ?_
  · assumption
  · split
    · rename_i y1 y2 y3 q4
      have h5 : Moves L b ((y2 : List Nat), y3).2 := by
        rw [← q4]
        refine Chip.selfTests_moves ?_ (within_sub w (by decide +kernel))
        assumption
      refine Chip.mbLong_moves ?_ (within_sub w (by decide +kernel))
      refine Chip.wr_moves ?_ (within_sub w (by decide +kernel))
      assumption

theorem Chip.mountEnd_moves {L : List Part} {b m : Chip} {p0' : Option NandPage} {p1' : Option NandPage} {cut' : List NandCut} (h : Moves L b m)
    (w : within [.rHp, .rMb, .rDg, .rBcap, .rInt, .rNc, .mem, .asleep, .accums, .wear, .bcap, .nand, .mbox, .gelow, .sys, .cyc] L = true) :
    Moves L b (Chip.mountEnd m p0' p1' cut') := by
  unfold Chip.mountEnd
  refine Moves.ite ?_ ?_
  · assumption
  · refine Chip.mountsDone_moves ?_ (within_sub w (by decide +kernel))
    refine Chip.nandMount_moves ?_ (within_sub w (by decide +kernel))
    assumption

theorem Chip.captureGet_moves {L : List Part} {b m : Chip} {x' : Nat} {p' : List Byte} (h : Moves L b m)
    (w : within [.rHp, .rMb, .rInt, .mem, .asleep, .accums, .jour, .recs, .mbox, .gelow, .sys, .cyc] L = true) :
    Moves L b (Chip.captureGet m x' p') := by
  unfold Chip.captureGet
  extract_lets +onlyGivenNames x1
  clear_value x1
  split
  · refine Chip.mbFail_moves ?_ (within_sub w (by decide +kernel))
    assumption
  · extract_lets +onlyGivenNames x2
    clear_value x2
    refine Moves.ite ?_ ?_
    · refine Chip.mbFail_moves ?_ (within_sub w (by decide +kernel))
      assumption
    · refine Chip.diagDone_moves ?_ (within_sub w (by decide +kernel))
      assumption

theorem Chip.upEnd_moves {L : List Part} {b m : Chip} {x' : Nat} {r' : LongRun} (h : Moves L b m)
    (w : within [.rHp, .rMb, .rInt, .mem, .frees, .accums, .map, .nand, .mbox, .gelow, .cyc] L = true) :
    Moves L b (Chip.upEnd m x' r') := by
  unfold Chip.upEnd
  extract_lets +onlyGivenNames x1
  have h2 : Moves L b x1 := by
    unfold x1
    refine Chip.wr_moves ?_ (within_sub w (by decide +kernel))
    assumption
  clear_value x1
  refine Moves.ite ?_ ?_
  · refine Chip.tileLoadEnd_moves ?_ (within_sub w (by decide +kernel))
    assumption
  · refine Chip.fwEnd_moves ?_ (within_sub w (by decide +kernel))
    assumption

theorem Chip.calSweep_moves {L : List Part} {b m : Chip} {x' : Nat} {p' : List Byte} (h : Moves L b m)
    (w : within [.mbox, .gelow] L = true) :
    Moves L b (Chip.calSweep m x' p') := by
  unfold Chip.calSweep
  refine Chip.mbLong_moves ?_ (within_sub w (by decide +kernel))
  assumption

theorem Chip.upCopy_moves {L : List Part} {b m : Chip} {p' : Nat} (h : Moves L b m)
    (w : within [.rHp, .rMb, .rInt, .mem, .frees, .accums, .map, .nand, .mbox, .gelow, .cyc] L = true) :
    Moves L b (Chip.upCopy m p') := by
  unfold Chip.upCopy
  split
  · assumption
  · extract_lets +onlyGivenNames x1
    clear_value x1
    extract_lets +onlyGivenNames x2
    clear_value x2
    extract_lets +onlyGivenNames x3
    clear_value x3
    extract_lets +onlyGivenNames x4
    have h5 : Moves L b x4 := by
      unfold x4
      refine Chip.setMb_moves ?_ (within_sub w (by decide +kernel))
      refine Chip.wr_moves ?_ (within_sub w (by decide +kernel))
      assumption
    clear_value x4
    extract_lets +onlyGivenNames x6
    have h7 : Moves L b x6 := by
      unfold x6
      refine Chip.wr_moves ?_ (within_sub w (by decide +kernel))
      assumption
    clear_value x6
    refine Moves.ite ?_ ?_
    · assumption
    · refine Moves.ite ?_ ?_
      · refine Chip.mbFail_moves ?_ (within_sub w (by decide +kernel))
        assumption
      · refine Moves.ite ?_ ?_
        · refine Chip.upEnd_moves ?_ (within_sub w (by decide +kernel))
          assumption
        · assumption

theorem Chip.mapChSet_moves {L : List Part} {b m : Chip} {x' : Nat} {p' : List Byte} (h : Moves L b m)
    (w : within [.rHp, .rMb, .rCh, .rTr, .rLat, .rDrv, .rAx, .rWhl, .rMdl, .rBk, .rBst, .rPwr, .rDg, .rDgb, .rCap, .rBcap, .rAdc, .rAs, .rCmp, .rSds, .rAin, .rFe, .rFio, .rTim, .rInt, .rSys, .rSup, .rProt, .rMap, .rNc, .tb, .mem, .isl, .stamps, .frees, .rdata, .asleep, .accums, .holdEnd, .coreV, .coreC, .whl, .mdl, .axes, .pool, .poolLast, .orderNo, .chans, .banks, .boost, .capReq, .capTb, .copies, .wear, .bcap, .jour, .recs, .fe, .fio, .tim, .adc, .assay, .cmp, .sds, .map, .saved, .nand, .mbox, .port, .gelow, .sys, .sup, .link, .refetch, .cyc] L = true) :
    Moves L b (Chip.mapChSet m x' p') := by
  unfold Chip.mapChSet
  split
  · rename_i y1 y2 y3 q4
    have h5 : Moves L b ((y2 : List Nat), y3).2 := by
      rw [← q4]
      refine Chip.eachEntry_moves ?_ (within_sub w (by decide +kernel)) fun y6 e7 h8 => ?_
      · assumption
      · refine Chip.mapChEntry_moves ?_ (within_sub w (by decide +kernel))
        assumption
    refine Chip.mbDone_moves ?_ (within_sub w (by decide +kernel))
    assumption

theorem Chip.mountCmd_moves {L : List Part} {b m : Chip} {x' : Nat} {p' : List Byte} (h : Moves L b m)
    (w : within [.rHp, .rMb, .rCh, .rTr, .rDrv, .rBk, .rBst, .rDg, .rDgb, .rCap, .rInt, .rMap, .rNc, .mem, .frees, .asleep, .accums, .pool, .poolLast, .orderNo, .chans, .banks, .boost, .bcap, .jour, .recs, .nand, .mbox, .gelow, .sys, .cyc] L = true) :
    Moves L b (Chip.mountCmd m x' p') := by
  unfold Chip.mountCmd
  extract_lets +onlyGivenNames x1
  clear_value x1
  extract_lets +onlyGivenNames x2
  clear_value x2
  extract_lets +onlyGivenNames x3
  have h4 : Moves L b x3 := by
    unfold x3
    refine Chip.wr_moves ?_ (within_sub w (by decide +kernel))
    refine Chip.wr_moves ?_ (within_sub w (by decide +kernel))
    assumption
  clear_value x3
  extract_lets +onlyGivenNames x5
  have h6 : Moves L b x5 := by
    unfold x5
    refine Moves.ite ?_ ?_
    · assumption
    · refine Chip.wr_moves ?_ (within_sub w (by decide +kernel))
      refine Chip.wr_moves ?_ (within_sub w (by decide +kernel))
      refine Chip.wr_moves ?_ (within_sub w (by decide +kernel))
      assumption
  clear_value x5
  extract_lets +onlyGivenNames x7
  have h8 : Moves L b x7 := by
    unfold x7
    refine Chip.mbLong_moves ?_ (within_sub w (by decide +kernel))
    assumption
  clear_value x7
  refine Moves.ite ?_ ?_
  · assumption
  · refine Moves.ite ?_ ?_
    · split
      · refine Chip.mountDone_moves ?_ (within_sub w (by decide +kernel))
        assumption
      · assumption
    · refine Chip.longTick_moves ?_ (within_sub w (by decide +kernel))
      assumption

theorem execCaptureGet_moves {L : List Part} {x' : Mbx} {s t : State}
    (w : within [.rHp, .rMb, .rInt, .mem, .asleep, .accums, .jour, .recs, .mbox, .gelow, .sys, .cyc] L = true) (e : execCaptureGet x' s = .next t) :
    Moves L s.chip t.chip := by
  unfold execCaptureGet at e
  refine upd_moves (fun m => ?_) e
  refine Chip.runCmd_moves ?_ (within_sub w (by decide +kernel)) fun y1 p2 h3 => ?_
  · exact .refl
  · refine Chip.captureGet_moves ?_ (within_sub w (by decide +kernel))
    assumption

theorem execCounters_moves {L : List Part} {x' : Mbx} {s t : State}
    (w : within [.rHp, .rMb, .rInt, .mem, .asleep, .accums, .jour, .recs, .mbox, .gelow, .sys, .cyc] L = true) (e : execCounters x' s = .next t) :
    Moves L s.chip t.chip := by
  unfold execCounters at e
  refine upd_moves (fun m => ?_) e
  refine Chip.runCmd_moves ?_ (within_sub w (by decide +kernel)) fun y1 p2 h3 => ?_
  · exact .refl
  · refine Chip.countersCmd_moves ?_ (within_sub w (by decide +kernel))
    assumption

theorem execWearParam_moves {L : List Part} {x' : Mbx} {s t : State}
    (w : within [.rHp, .rMb, .rDg, .rInt, .mem, .accums, .wear, .mbox, .gelow, .cyc] L = true) (e : execWearParam x' s = .next t) :
    Moves L s.chip t.chip := by
  unfold execWearParam at e
  refine upd_moves (fun m => ?_) e
  refine Chip.runCmd_moves ?_ (within_sub w (by decide +kernel)) fun y1 p2 h3 => ?_
  · exact .refl
  · refine Chip.wearParam_moves ?_ (within_sub w (by decide +kernel))
    assumption

theorem execChunkHoldTimeout_moves {L : List Part} {x' : Mbx} {s t : State}
    (w : within [.rHp, .rMb, .rInt, .mem, .asleep, .accums, .jour, .recs, .mbox, .gelow, .sys, .cyc] L = true) (e : execChunkHoldTimeout x' s = .next t) :
    Moves L s.chip t.chip := by
  unfold execChunkHoldTimeout at e
  refine upd_moves (fun m => ?_) e
  refine Chip.holdEnd60_moves ?_ (within_sub w (by decide +kernel))
  exact .refl

theorem execWearReset_moves {L : List Part} {x' : Mbx} {s t : State}
    (w : within [.rHp, .rMb, .rDg, .rInt, .mem, .accums, .wear, .bcap, .mbox, .gelow, .cyc] L = true) (e : execWearReset x' s = .next t) :
    Moves L s.chip t.chip := by
  unfold execWearReset at e
  refine upd_moves (fun m => ?_) e
  refine Chip.runCmd_moves ?_ (within_sub w (by decide +kernel)) fun y1 p2 h3 => ?_
  · exact .refl
  · refine Chip.wearReset_moves ?_ (within_sub w (by decide +kernel))
    assumption

theorem execSelfTest_moves {L : List Part} {x' : Mbx} {t0' : List NanoVolt} {t2' : Nat} {t3' : Nat} {t4' : Nat} {banks' : List BankTest} {s t : State}
    (w : within [.rMb, .rCh, .rTr, .rDrv, .rBk, .rBst, .rDg, .rDgb, .rCap, .rInt, .rMap, .rNc, .frees, .asleep, .accums, .pool, .poolLast, .chans, .banks, .boost, .capReq, .capTb, .bcap, .jour, .mbox, .gelow, .sys, .cyc] L = true) (e : execSelfTest x' t0' t2' t3' t4' banks' s = .next t) :
    Moves L s.chip t.chip := by
  unfold execSelfTest at e
  refine upd_moves (fun m => ?_) e
  refine Chip.runCmd_moves ?_ (within_sub w (by decide +kernel)) fun y1 p2 h3 => ?_
  · exact .refl
  · refine Chip.selfTest_moves ?_ (within_sub w (by decide +kernel))
    assumption

theorem execCoverageExport_moves {L : List Part} {x' : Mbx} {s t : State}
    (w : within [.rHp, .rMb, .rInt, .mem, .accums, .mbox, .gelow, .cyc] L = true) (e : execCoverageExport x' s = .next t) :
    Moves L s.chip t.chip := by
  unfold execCoverageExport at e
  refine upd_moves (fun m => ?_) e
  refine Chip.runCmd_moves ?_ (within_sub w (by decide +kernel)) fun y1 p2 h3 => ?_
  · exact .refl
  · refine Chip.coverageExport_moves ?_ (within_sub w (by decide +kernel))
    assumption

theorem execRateSet_moves {L : List Part} {x' : Mbx} {s t : State}
    (w : within [.rHp, .rMb, .rCh, .rTr, .rLat, .rDrv, .rAx, .rWhl, .rMdl, .rBk, .rBst, .rPwr, .rDg, .rDgb, .rCap, .rBcap, .rAdc, .rAs, .rCmp, .rSds, .rAin, .rFe, .rFio, .rTim, .rInt, .rSys, .rSup, .rProt, .rMap, .rNc, .tb, .mem, .isl, .stamps, .frees, .rdata, .asleep, .accums, .holdEnd, .coreV, .coreC, .whl, .mdl, .axes, .pool, .poolLast, .orderNo, .chans, .banks, .boost, .capReq, .capTb, .copies, .wear, .bcap, .jour, .recs, .fe, .fio, .tim, .adc, .assay, .cmp, .sds, .map, .saved, .nand, .mbox, .port, .gelow, .sys, .sup, .link, .refetch, .cyc] L = true) (e : execRateSet x' s = .next t) :
    Moves L s.chip t.chip := by
  unfold execRateSet at e
  refine upd_moves (fun m => ?_) e
  refine Chip.runCmd_moves ?_ (within_sub w (by decide +kernel)) fun y1 p2 h3 => ?_
  · exact .refl
  · refine Chip.rateSet_moves ?_ (within_sub w (by decide +kernel))
    assumption

theorem execNandMount_moves {L : List Part} {t0' : Option NandPage} {t1' : Option NandPage} {cuts' : List NandCut} {s t : State}
    (w : within [.rHp, .rMb, .rDg, .rBcap, .rInt, .rNc, .mem, .asleep, .accums, .wear, .bcap, .nand, .mbox, .gelow, .sys, .cyc] L = true) (e : execNandMount t0' t1' cuts' s = .next t) :
    Moves L s.chip t.chip := by
  unfold execNandMount at e
  refine upd_moves (fun m => ?_) e
  refine Chip.mountEnd_moves ?_ (within_sub w (by decide +kernel))
  exact .refl

theorem execMapConfig_moves {L : List Part} {x' : Mbx} {s t : State}
    (w : within [.rHp, .rMb, .rCh, .rTr, .rLat, .rDrv, .rAx, .rWhl, .rMdl, .rBk, .rBst, .rPwr, .rDg, .rDgb, .rCap, .rBcap, .rAdc, .rAs, .rCmp, .rSds, .rAin, .rFe, .rFio, .rTim, .rInt, .rSys, .rSup, .rProt, .rMap, .rNc, .tb, .mem, .isl, .stamps, .frees, .rdata, .asleep, .accums, .holdEnd, .coreV, .coreC, .whl, .mdl, .axes, .pool, .poolLast, .orderNo, .chans, .banks, .boost, .capReq, .capTb, .copies, .wear, .bcap, .jour, .recs, .fe, .fio, .tim, .adc, .assay, .cmp, .sds, .map, .saved, .nand, .mbox, .port, .gelow, .sys, .sup, .link, .refetch, .cyc] L = true) (e : execMapConfig x' s = .next t) :
    Moves L s.chip t.chip := by
  unfold execMapConfig at e
  refine upd_moves (fun m => ?_) e
  refine Chip.runCmd_moves ?_ (within_sub w (by decide +kernel)) fun y1 p2 h3 => ?_
  · exact .refl
  · refine Chip.mapConfig_moves ?_ (within_sub w (by decide +kernel))
    assumption

theorem execMount_moves {L : List Part} {x' : Mbx} {s t : State}
    (w : within [.rHp, .rMb, .rCh, .rTr, .rDrv, .rBk, .rBst, .rDg, .rDgb, .rCap, .rInt, .rMap, .rNc, .mem, .frees, .asleep, .accums, .pool, .poolLast, .orderNo, .chans, .banks, .boost, .bcap, .jour, .recs, .nand, .mbox, .gelow, .sys, .cyc] L = true) (e : execMount x' s = .next t) :
    Moves L s.chip t.chip := by
  unfold execMount at e
  refine upd_moves (fun m => ?_) e
  refine Chip.runCmd_moves ?_ (within_sub w (by decide +kernel)) fun y1 p2 h3 => ?_
  · exact .refl
  · refine Chip.mountCmd_moves ?_ (within_sub w (by decide +kernel))
    assumption

theorem execMapChSet_moves {L : List Part} {x' : Mbx} {s t : State}
    (w : within [.rHp, .rMb, .rCh, .rTr, .rLat, .rDrv, .rAx, .rWhl, .rMdl, .rBk, .rBst, .rPwr, .rDg, .rDgb, .rCap, .rBcap, .rAdc, .rAs, .rCmp, .rSds, .rAin, .rFe, .rFio, .rTim, .rInt, .rSys, .rSup, .rProt, .rMap, .rNc, .tb, .mem, .isl, .stamps, .frees, .rdata, .asleep, .accums, .holdEnd, .coreV, .coreC, .whl, .mdl, .axes, .pool, .poolLast, .orderNo, .chans, .banks, .boost, .capReq, .capTb, .copies, .wear, .bcap, .jour, .recs, .fe, .fio, .tim, .adc, .assay, .cmp, .sds, .map, .saved, .nand, .mbox, .port, .gelow, .sys, .sup, .link, .refetch, .cyc] L = true) (e : execMapChSet x' s = .next t) :
    Moves L s.chip t.chip := by
  unfold execMapChSet at e
  refine upd_moves (fun m => ?_) e
  refine Chip.runCmd_moves ?_ (within_sub w (by decide +kernel)) fun y1 p2 h3 => ?_
  · exact .refl
  · refine Chip.mapChSet_moves ?_ (within_sub w (by decide +kernel))
    assumption

theorem execChunkDelivery_moves {L : List Part} {x' : Mbx} {s t : State}
    (w : within [.rHp, .rMb, .rInt, .mem, .asleep, .accums, .jour, .recs, .mbox, .gelow, .sys, .cyc] L = true) (e : execChunkDelivery x' s = .next t) :
    Moves L s.chip t.chip := by
  unfold execChunkDelivery at e
  refine upd_moves (fun m => ?_) e
  refine Chip.deliver_moves ?_ (within_sub w (by decide +kernel))
  exact .refl

theorem execWearReport_moves {L : List Part} {x' : Mbx} {s t : State}
    (w : within [.rHp, .rMb, .rInt, .mem, .accums, .jour, .recs, .mbox, .gelow, .cyc] L = true) (e : execWearReport x' s = .next t) :
    Moves L s.chip t.chip := by
  unfold execWearReport at e
  refine upd_moves (fun m => ?_) e
  refine Chip.runCmd_moves ?_ (within_sub w (by decide +kernel)) fun y1 p2 h3 => ?_
  · exact .refl
  · refine Chip.wearReport_moves ?_ (within_sub w (by decide +kernel))
    assumption

theorem execTileLoad_moves {L : List Part} {x' : Mbx} {s t : State}
    (w : within [.rHp, .rMb, .rInt, .mem, .accums, .mbox, .gelow, .cyc] L = true) (e : execTileLoad x' s = .next t) :
    Moves L s.chip t.chip := by
  unfold execTileLoad at e
  refine upd_moves (fun m => ?_) e
  refine Chip.runCmd_moves ?_ (within_sub w (by decide +kernel)) fun y1 p2 h3 => ?_
  · exact .refl
  · refine Chip.tileLoadCmd_moves ?_ (within_sub w (by decide +kernel))
    assumption

theorem execUploadChunkCopy_moves {L : List Part} {p' : Port} {s t : State}
    (w : within [.rHp, .rMb, .rInt, .mem, .frees, .accums, .map, .nand, .mbox, .gelow, .cyc] L = true) (e : execUploadChunkCopy p' s = .next t) :
    Moves L s.chip t.chip := by
  unfold execUploadChunkCopy at e
  refine upd_moves (fun m => ?_) e
  refine Chip.upCopy_moves ?_ (within_sub w (by decide +kernel))
  exact .refl

theorem execFwUpdate_moves {L : List Part} {x' : Mbx} {s t : State}
    (w : within [.rHp, .rMb, .rInt, .mem, .accums, .mbox, .gelow, .cyc] L = true) (e : execFwUpdate x' s = .next t) :
    Moves L s.chip t.chip := by
  unfold execFwUpdate at e
  refine upd_moves (fun m => ?_) e
  refine Chip.runCmd_moves ?_ (within_sub w (by decide +kernel)) fun y1 p2 h3 => ?_
  · exact .refl
  · refine Chip.fwUpdate_moves ?_ (within_sub w (by decide +kernel))
    assumption

theorem execCalSweep_moves {L : List Part} {x' : Mbx} {s t : State}
    (w : within [.mbox, .gelow] L = true) (e : execCalSweep x' s = .next t) :
    Moves L s.chip t.chip := by
  unfold execCalSweep at e
  refine upd_moves (fun m => ?_) e
  refine Chip.runCmd_moves ?_ (within_sub w (by decide +kernel)) fun y1 p2 h3 => ?_
  · exact .refl
  · refine Chip.calSweep_moves ?_ (within_sub w (by decide +kernel))
    assumption

end Sys2Proof.Machine
end

