-- ==== Sys2Proof/Laws/MovesGelow.lean ====
section
/-! SUPPORT. Each operation of Machine/Gelow.lean moves the block within the parts it names. -/

-- Theorem by theorem: many at once each take a thread's stack, and the package as one text ran out of them.
set_option Elab.async false

namespace Sys2Proof.Machine

theorem Chip.orphansFree_moves {L : List Part} {b m : Chip} (h : Moves L b m)
    (w : within [.pool, .poolLast, .chans] L = true) :
    Moves L b (Chip.orphansFree m) := by
  unfold Chip.orphansFree
  refine Moves.foldl ?_ fun y1 a2 h3 => ?_
  · assumption
  · split
    · refine Moves.ite ?_ ?_
      · refine Chip.freeSlot_moves ?_ (within_sub w (by decide +kernel))
        assumption
      · assumption
    · assumption

theorem Chip.stagedResume_moves {L : List Part} {b m : Chip} {s' : Staged} (h : Moves L b m)
    (w : within [.rCh, .rTr, .rDrv, .rBk, .rBst, .rDg, .rDgb, .rCap, .rInt, .rMap, .frees, .asleep, .accums, .pool, .poolLast, .chans, .banks, .boost, .bcap, .jour, .recs, .sys, .cyc] L = true) :
    Moves L b (Chip.stagedResume m s') := by
  unfold Chip.stagedResume
  split
  · refine Chip.install_moves ?_ (within_sub w (by decide +kernel))
    assumption
  · split
    · refine Moves.ite ?_ ?_
      · refine Chip.inhibitApply_moves ?_ (within_sub w (by decide +kernel))
        assumption
      · assumption
    · assumption
  · refine Chip.jourResolve_moves ?_ (within_sub w (by decide +kernel))
    refine Chip.unstageDiag_moves ?_ (within_sub w (by decide +kernel))
    assumption

theorem Chip.restartV_moves {L : List Part} {b m : Chip} (h : Moves L b m)
    (w : within [.rCh, .rTr, .rDrv, .rBk, .rBst, .rDg, .rDgb, .rCap, .rInt, .rMap, .frees, .asleep, .accums, .coreV, .pool, .poolLast, .chans, .banks, .boost, .bcap, .jour, .recs, .sys, .cyc] L = true) :
    Moves L b (Chip.restartV m) := by
  unfold Chip.restartV
  extract_lets +onlyGivenNames x1
  have h2 : Moves L b x1 := by
    unfold x1
    refine Chip.orphansFree_moves ?_ (within_sub w (by decide +kernel))
    assumption
  clear_value x1
  extract_lets +onlyGivenNames x3
  clear_value x3
  extract_lets +onlyGivenNames x4
  have h5 : Moves L b x4 := by
    unfold x4
    refine Moves.foldl ?_ fun y6 a7 h8 => ?_
    · assumption
    · refine Chip.stagedResume_moves ?_ (within_sub w (by decide +kernel))
      assumption
  clear_value x4
  extract_lets +onlyGivenNames x9
  have h10 : Moves L b x9 := by
    unfold x9
    refine Moves.foldl ?_ fun y11 a12 h13 => ?_
    · assumption
    · refine Chip.stagedResume_moves ?_ (within_sub w (by decide +kernel))
      assumption
  clear_value x9
  extract_lets +onlyGivenNames x14
  clear_value x14
  extract_lets +onlyGivenNames x15
  clear_value x15
  refine Moves.ite ?_ ?_
  · refine Moves.upd (x := x9) ?_ (by constructor <;> first | rfl | exact .inl rfl | exact .inr (within_mem w (by decide +kernel)))
    assumption
  · assumption

theorem Chip.mbResume_moves {L : List Part} {b m : Chip} {x' : Nat} (h : Moves L b m)
    (w : within [.rHp, .rMb, .rInt, .mem, .accums, .mbox, .gelow, .cyc] L = true) :
    Moves L b (Chip.mbResume m x') := by
  unfold Chip.mbResume
  refine Moves.ite ?_ ?_
  · assumption
  · split
    · refine Chip.runDone_moves ?_ (within_sub w (by decide +kernel))
      assumption
    · split
      · extract_lets +onlyGivenNames x1
        clear_value x1
        refine Chip.mbEnd_moves ?_ (within_sub w (by decide +kernel))
        assumption
      · refine Chip.mbAborted_moves ?_ (within_sub w (by decide +kernel))
        assumption

theorem Chip.resumeV_moves {L : List Part} {b m : Chip} (h : Moves L b m)
    (w : within [.rHp, .rMb, .rInt, .mem, .asleep, .accums, .mbox, .gelow, .sys, .cyc] L = true) :
    Moves L b (Chip.resumeV m) := by
  unfold Chip.resumeV
  extract_lets +onlyGivenNames x1
  have h2 : Moves L b x1 := by
    unfold x1
    refine Moves.foldl ?_ fun y3 a4 h5 => ?_
    · assumption
    · refine Chip.mbResume_moves ?_ (within_sub w (by decide +kernel))
      assumption
  clear_value x1
  extract_lets +onlyGivenNames x6
  clear_value x6
  extract_lets +onlyGivenNames x7
  clear_value x7
  refine Moves.ite ?_ ?_
  · refine Chip.gelowUp_moves ?_ (within_sub w (by decide +kernel))
    refine Moves.upd (x := x1) ?_ (by constructor <;> first | rfl | exact .inl rfl | exact .inr (within_mem w (by decide +kernel)))
    assumption
  · assumption

theorem execGelowTick_moves {L : List Part} {s t : State}
    (w : within [.rHp, .rMb, .rCh, .rTr, .rLat, .rDrv, .rAx, .rWhl, .rMdl, .rBk, .rBst, .rPwr, .rDg, .rDgb, .rCap, .rBcap, .rAdc, .rAs, .rCmp, .rSds, .rAin, .rFe, .rFio, .rTim, .rInt, .rSys, .rSup, .rProt, .rMap, .rNc, .mem, .stamps, .frees, .asleep, .accums, .pool, .poolLast, .orderNo, .chans, .banks, .boost, .capReq, .capTb, .copies, .wear, .bcap, .jour, .recs, .map, .saved, .nand, .mbox, .gelow, .sys, .cyc] L = true) (e : execGelowTick s = .next t) :
    Moves L s.chip t.chip := by
  unfold execGelowTick at e
  refine upd_moves (fun m => ?_) e
  refine Chip.gelowTick_moves ?_ (within_sub w (by decide +kernel))
  exact .refl

theorem execGelowResume_moves {L : List Part} {s t : State}
    (w : within [.rHp, .rMb, .rInt, .mem, .asleep, .accums, .mbox, .gelow, .sys, .cyc] L = true) (e : execGelowResume s = .next t) :
    Moves L s.chip t.chip := by
  unfold execGelowResume at e
  refine upd_moves (fun m => ?_) e
  refine Chip.resumeV_moves ?_ (within_sub w (by decide +kernel))
  exact .refl

theorem execAnvilVRestart_moves {L : List Part} {s t : State}
    (w : within [.rCh, .rTr, .rDrv, .rBk, .rBst, .rDg, .rDgb, .rCap, .rInt, .rMap, .frees, .asleep, .accums, .coreV, .pool, .poolLast, .chans, .banks, .boost, .bcap, .jour, .recs, .sys, .cyc] L = true) (e : execAnvilVRestart s = .next t) :
    Moves L s.chip t.chip := by
  unfold execAnvilVRestart at e
  refine upd_moves (fun m => ?_) e
  refine Chip.restartV_moves ?_ (within_sub w (by decide +kernel))
  exact .refl

end Sys2Proof.Machine
end

