-- ==== Sys2Proof/Laws/MovesJournal.lean ====
section
/-! SUPPORT. Each operation of Machine/Journal.lean moves the block within the parts it names. -/

-- Theorem by theorem: many at once each take a thread's stack, and the package as one text ran out of them.
set_option Elab.async false

namespace Sys2Proof.Machine

theorem Chip.heartbeat_moves {L : List Part} {b m : Chip} (h : Moves L b m)
    (w : within [.stamps, .jour] L = true) :
    Moves L b (Chip.heartbeat m) := by
  unfold Chip.heartbeat
  extract_lets +onlyGivenNames x1
  unfold x1
  clear_value x1
  refine Moves.ite ?_ ?_
  · refine Chip.stamp_moves ?_ (within_sub w (by decide +kernel))
    refine Moves.upd (x := m) ?_ (by constructor <;> first | rfl | exact .inl rfl | exact .inr (within_mem w (by decide +kernel)))
    assumption
  · assumption

theorem Chip.crucible_moves {L : List Part} {b m : Chip} {a' : Nat} (h : Moves L b m)
    (w : within [.rInt, .rSys, .asleep, .accums, .jour, .sys, .cyc] L = true) :
    Moves L b (Chip.crucible m a') := by
  unfold Chip.crucible
  extract_lets +onlyGivenNames x1
  have h2 : Moves L b x1 := by
    unfold x1
    refine Chip.wr_moves ?_ (within_sub w (by decide +kernel))
    assumption
  clear_value x1
  extract_lets +onlyGivenNames x3
  unfold x3
  clear_value x3
  refine Moves.ite ?_ ?_
  · refine Chip.sysFlag_moves ?_ (within_sub w (by decide +kernel))
    refine Moves.upd (x := x1) ?_ (by constructor <;> first | rfl | exact .inl rfl | exact .inr (within_mem w (by decide +kernel)))
    assumption
  · assumption

theorem execCrucibleUncorrectable_moves {L : List Part} {addr' : BitVec 21} {s t : State}
    (w : within [.rInt, .rSys, .asleep, .accums, .jour, .sys, .cyc] L = true) (e : execCrucibleUncorrectable addr' s = .next t) :
    Moves L s.chip t.chip := by
  unfold execCrucibleUncorrectable at e
  refine upd_moves (fun m => ?_) e
  refine Chip.crucible_moves ?_ (within_sub w (by decide +kernel))
  exact .refl

theorem execJournalPhaseWord_moves {L : List Part} {s t : State}
    (w : within [.rInt, .asleep, .accums, .jour, .recs, .sys, .cyc] L = true) (e : execJournalPhaseWord s = .next t) :
    Moves L s.chip t.chip := by
  unfold execJournalPhaseWord at e
  refine upd_moves (fun m => ?_) e
  refine Moves.ite ?_ ?_
  · refine Chip.jourWord_moves ?_ (within_sub w (by decide +kernel))
    exact .refl
  · exact .refl

theorem execJournalHeartbeat_moves {L : List Part} {s t : State}
    (w : within [.stamps, .jour] L = true) (e : execJournalHeartbeat s = .next t) :
    Moves L s.chip t.chip := by
  unfold execJournalHeartbeat at e
  refine upd_moves (fun m => ?_) e
  refine Chip.heartbeat_moves ?_ (within_sub w (by decide +kernel))
  exact .refl

end Sys2Proof.Machine
end

