-- ==== Sys2Proof/Laws/State.lean ====
section
/-! SUPPORT. The laws of a state's updates: the queue, the register file, and the components that a setter leaves alone. -/

namespace Sys2Proof.Machine

@[simp] theorem State.upd_eq (s : State) (f : Chip → Chip) : s.upd f = .next { s with chip := f s.chip } := rfl

/-! ## A register after a write -/

theorem Chip.rd_wr (m : Chip) (f g : Field) (i j v : Nat) :
    (m.wr f i v).rd g j = if g.id = f.id then (if j = i then v % 2 ^ f.w else tabGet (tabGet m.regs f.id []) j (g.reset j)) else m.rd g j := by
  unfold Chip.rd Chip.wr
  simp only [tabGet_put]
  split
  · rw [tabGet_put]
  · rfl

/-- The value written is the value read, cut to the field's width. -/
theorem Chip.rd_wr_same (m : Chip) (f : Field) (i v : Nat) : (m.wr f i v).rd f i = v % 2 ^ f.w := by
  rw [Chip.rd_wr, if_pos rfl, if_pos rfl]

/-- Another field reads as before. -/
theorem Chip.rd_wr_ne (m : Chip) (f g : Field) (i j v : Nat) (h : g.id ≠ f.id) : (m.wr f i v).rd g j = m.rd g j := by
  rw [Chip.rd_wr, if_neg h]

/-- Another instance reads as before. -/
theorem Chip.rd_wr_at (m : Chip) (f g : Field) (i j v : Nat) (h : j ≠ i) : (m.wr f i v).rd g j = m.rd g j := by
  rw [Chip.rd_wr, if_neg h]
  split
  · next e => unfold Chip.rd; rw [e]
  · rfl

/-- A field of another block of registers reads as before. -/
theorem rd_wr_part (m : Chip) (f g : Field) (i j v : Nat) (h : g.part ≠ f.part) : (m.wr f i v).rd g j = m.rd g j :=
  Chip.rd_wr_ne m f g i j v fun e => h (by unfold Field.part; rw [e])

theorem rd_drop_part (m : Chip) (f g : Field) (j : Nat) (p : Nat → Bool) (h : g.part ≠ f.part) :
    Chip.rd { m with regs := tabPut m.regs f.id (tabDrop (tabGet m.regs f.id []) p) } g j = m.rd g j := by
  have : g.id ≠ f.id := fun e => h (by unfold Field.part; rw [e])
  unfold Chip.rd
  rw [tabGet_put_ne _ _ _ _ _ this]

/-! ## What a write of a register leaves alone -/

@[simp] theorem Chip.wr_mem (m : Chip) (f : Field) (i v : Nat) : (m.wr f i v).mem = m.mem := rfl
@[simp] theorem Chip.wr_tb (m : Chip) (f : Field) (i v : Nat) : (m.wr f i v).tb = m.tb := rfl
@[simp] theorem Chip.wr_isl (m : Chip) (f : Field) (i v : Nat) : (m.wr f i v).isl = m.isl := rfl
@[simp] theorem Chip.wr_stamps (m : Chip) (f : Field) (i v : Nat) : (m.wr f i v).stamps = m.stamps := rfl
@[simp] theorem Chip.wr_frees (m : Chip) (f : Field) (i v : Nat) : (m.wr f i v).frees = m.frees := rfl
@[simp] theorem Chip.wr_rdata (m : Chip) (f : Field) (i v : Nat) : (m.wr f i v).rdata = m.rdata := rfl
@[simp] theorem Chip.wr_asleep (m : Chip) (f : Field) (i v : Nat) : (m.wr f i v).asleep = m.asleep := rfl
@[simp] theorem Chip.wr_accums (m : Chip) (f : Field) (i v : Nat) : (m.wr f i v).accums = m.accums := rfl
@[simp] theorem Chip.wr_holdEnd (m : Chip) (f : Field) (i v : Nat) : (m.wr f i v).holdEnd = m.holdEnd := rfl
@[simp] theorem Chip.wr_coreV (m : Chip) (f : Field) (i v : Nat) : (m.wr f i v).coreV = m.coreV := rfl
@[simp] theorem Chip.wr_coreC (m : Chip) (f : Field) (i v : Nat) : (m.wr f i v).coreC = m.coreC := rfl
@[simp] theorem Chip.wr_whl (m : Chip) (f : Field) (i v : Nat) : (m.wr f i v).whl = m.whl := rfl
@[simp] theorem Chip.wr_mdl (m : Chip) (f : Field) (i v : Nat) : (m.wr f i v).mdl = m.mdl := rfl
@[simp] theorem Chip.wr_axes (m : Chip) (f : Field) (i v : Nat) : (m.wr f i v).axes = m.axes := rfl
@[simp] theorem Chip.wr_pool (m : Chip) (f : Field) (i v : Nat) : (m.wr f i v).pool = m.pool := rfl
@[simp] theorem Chip.wr_poolLast (m : Chip) (f : Field) (i v : Nat) : (m.wr f i v).poolLast = m.poolLast := rfl
@[simp] theorem Chip.wr_orderNo (m : Chip) (f : Field) (i v : Nat) : (m.wr f i v).orderNo = m.orderNo := rfl
@[simp] theorem Chip.wr_chans (m : Chip) (f : Field) (i v : Nat) : (m.wr f i v).chans = m.chans := rfl
@[simp] theorem Chip.wr_banks (m : Chip) (f : Field) (i v : Nat) : (m.wr f i v).banks = m.banks := rfl
@[simp] theorem Chip.wr_boost (m : Chip) (f : Field) (i v : Nat) : (m.wr f i v).boost = m.boost := rfl
@[simp] theorem Chip.wr_capReq (m : Chip) (f : Field) (i v : Nat) : (m.wr f i v).capReq = m.capReq := rfl
@[simp] theorem Chip.wr_capTb (m : Chip) (f : Field) (i v : Nat) : (m.wr f i v).capTb = m.capTb := rfl
@[simp] theorem Chip.wr_copies (m : Chip) (f : Field) (i v : Nat) : (m.wr f i v).copies = m.copies := rfl
@[simp] theorem Chip.wr_wear (m : Chip) (f : Field) (i v : Nat) : (m.wr f i v).wear = m.wear := rfl
@[simp] theorem Chip.wr_bcap (m : Chip) (f : Field) (i v : Nat) : (m.wr f i v).bcap = m.bcap := rfl
@[simp] theorem Chip.wr_jour (m : Chip) (f : Field) (i v : Nat) : (m.wr f i v).jour = m.jour := rfl
@[simp] theorem Chip.wr_fe (m : Chip) (f : Field) (i v : Nat) : (m.wr f i v).fe = m.fe := rfl
@[simp] theorem Chip.wr_fio (m : Chip) (f : Field) (i v : Nat) : (m.wr f i v).fio = m.fio := rfl
@[simp] theorem Chip.wr_tim (m : Chip) (f : Field) (i v : Nat) : (m.wr f i v).tim = m.tim := rfl
@[simp] theorem Chip.wr_adc (m : Chip) (f : Field) (i v : Nat) : (m.wr f i v).adc = m.adc := rfl
@[simp] theorem Chip.wr_assay (m : Chip) (f : Field) (i v : Nat) : (m.wr f i v).assay = m.assay := rfl
@[simp] theorem Chip.wr_cmp (m : Chip) (f : Field) (i v : Nat) : (m.wr f i v).cmp = m.cmp := rfl
@[simp] theorem Chip.wr_sds (m : Chip) (f : Field) (i v : Nat) : (m.wr f i v).sds = m.sds := rfl
@[simp] theorem Chip.wr_map (m : Chip) (f : Field) (i v : Nat) : (m.wr f i v).map = m.map := rfl
@[simp] theorem Chip.wr_nand (m : Chip) (f : Field) (i v : Nat) : (m.wr f i v).nand = m.nand := rfl
@[simp] theorem Chip.wr_mbox (m : Chip) (f : Field) (i v : Nat) : (m.wr f i v).mbox = m.mbox := rfl
@[simp] theorem Chip.wr_port (m : Chip) (f : Field) (i v : Nat) : (m.wr f i v).port = m.port := rfl
@[simp] theorem Chip.wr_gelow (m : Chip) (f : Field) (i v : Nat) : (m.wr f i v).gelow = m.gelow := rfl
@[simp] theorem Chip.wr_sys (m : Chip) (f : Field) (i v : Nat) : (m.wr f i v).sys = m.sys := rfl
@[simp] theorem Chip.wr_sup (m : Chip) (f : Field) (i v : Nat) : (m.wr f i v).sup = m.sup := rfl
@[simp] theorem Chip.wr_link (m : Chip) (f : Field) (i v : Nat) : (m.wr f i v).link = m.link := rfl
@[simp] theorem Chip.wr_refetch (m : Chip) (f : Field) (i v : Nat) : (m.wr f i v).refetch = m.refetch := rfl
@[simp] theorem Chip.wr_cyc (m : Chip) (f : Field) (i v : Nat) : (m.wr f i v).cyc = m.cyc := rfl

/-! ## The registers after an update of a component -/

@[simp] theorem Chip.setChan_rd (m : Chip) (k : Nat) (x : Chan) (f : Field) (i : Nat) : (m.setChan k x).rd f i = m.rd f i := rfl
@[simp] theorem Chip.setDrv_rd (m : Chip) (k : Nat) (x : Drv) (f : Field) (i : Nat) : (m.setDrv k x).rd f i = m.rd f i := rfl
@[simp] theorem Chip.setBank_rd (m : Chip) (k : Nat) (x : BankSt) (f : Field) (i : Nat) : (m.setBank k x).rd f i = m.rd f i := rfl
@[simp] theorem Chip.setEv_rd (m : Chip) (k : Nat) (x : Ev) (f : Field) (i : Nat) : (m.setEv k x).rd f i = m.rd f i := rfl
@[simp] theorem Chip.setEng_rd (m : Chip) (k : Nat) (x : Engine) (f : Field) (i : Nat) : (m.setEng k x).rd f i = m.rd f i := rfl
@[simp] theorem Chip.setPort_rd (m : Chip) (k : Nat) (x : HostPort) (f : Field) (i : Nat) : (m.setPort k x).rd f i = m.rd f i := rfl
@[simp] theorem Chip.setMb_rd (m : Chip) (k : Nat) (x : Mbox) (f : Field) (i : Nat) : (m.setMb k x).rd f i = m.rd f i := rfl
@[simp] theorem Chip.setRun_rd (m : Chip) (k : Nat) (x : LongRun) (f : Field) (i : Nat) : (m.setRun k x).rd f i = m.rd f i := rfl
@[simp] theorem Chip.setLat_rd (m : Chip) (k : Nat) (x : Lat) (f : Field) (i : Nat) : (m.setLat k x).rd f i = m.rd f i := rfl
@[simp] theorem Chip.setSlot_rd (m : Chip) (k : Nat) (x : Slot) (f : Field) (i : Nat) : (m.setSlot k x).rd f i = m.rd f i := rfl
@[simp] theorem Chip.setTileSt_rd (m : Chip) (k : Nat) (x : TileSt) (f : Field) (i : Nat) : (m.setTileSt k x).rd f i = m.rd f i := rfl
@[simp] theorem Chip.setIsland_rd (m : Chip) (k : Nat) (x : Island) (f : Field) (i : Nat) : (m.setIsland k x).rd f i = m.rd f i := rfl
@[simp] theorem Chip.setSupply_rd (m : Chip) (k : Nat) (x : Supply) (f : Field) (i : Nat) : (m.setSupply k x).rd f i = m.rd f i := rfl
@[simp] theorem Chip.setTmr_rd (m : Chip) (k : Nat) (x : Tmr) (f : Field) (i : Nat) : (m.setTmr k x).rd f i = m.rd f i := rfl
@[simp] theorem Chip.setWheel_rd (m : Chip) (k : Nat) (x : Wheel) (f : Field) (i : Nat) : (m.setWheel k x).rd f i = m.rd f i := rfl
@[simp] theorem Chip.setAdc_rd (m : Chip) (k : Nat) (x : AdcUnit) (f : Field) (i : Nat) : (m.setAdc k x).rd f i = m.rd f i := rfl
@[simp] theorem Chip.setCmp_rd (m : Chip) (k : Nat) (x : Cmpr) (f : Field) (i : Nat) : (m.setCmp k x).rd f i = m.rd f i := rfl
@[simp] theorem Chip.setSds_rd (m : Chip) (k : Nat) (x : Cmpr) (f : Field) (i : Nat) : (m.setSds k x).rd f i = m.rd f i := rfl
@[simp] theorem Chip.setCycle_rd (m : Chip) (c : Cycle) (f : Field) (i : Nat) : (m.setCycle c).rd f i = m.rd f i := rfl
@[simp] theorem Chip.setCycle_tb (m : Chip) (c : Cycle) : (m.setCycle c).tb = m.tb := rfl
@[simp] theorem Chip.setCycle_cyc (m : Chip) (c : Cycle) : (m.setCycle c).cyc = c := rfl
@[simp] theorem Chip.setRec_rd (m : Chip) (r : Rec) (f : Field) (i : Nat) : (m.setRec r).rd f i = m.rd f i := rfl
@[simp] theorem Chip.setAccum_rd (m : Chip) (p k : Nat) (a : Accum) (f : Field) (i : Nat) : (m.setAccum p k a).rd f i = m.rd f i := rfl
@[simp] theorem Chip.stamp_rd (m : Chip) (p : Period) (k : Nat) (f : Field) (i : Nat) : (m.stamp p k).rd f i = m.rd f i := rfl
@[simp] theorem Chip.free_rd (m : Chip) (f : Field) (i : Nat) : m.free.2.rd f i = m.rd f i := rfl

end Sys2Proof.Machine
end

