-- ==== Sys2Proof/Laws/Exec.lean ====
section
/-! SUPPORT. What every command does to a state, said once: its effect is made of basic moves within its parts. From that, the frame of every
command, the canonical forms, and what happens to a record of the journal. -/

-- Theorem by theorem: many at once each take a thread's stack, and the package as one text ran out of them.
set_option Elab.async false

namespace Sys2Proof.Machine

/-- A command's effect is made of basic moves within its parts, and its queue stays as it was. -/
theorem exec_moves {i : Instr} {s t : State} (e : exec i s = .next t) : Moves (partsOf i) s.chip t.chip := by
  cases i with
  | fabricWord _ _ _ => exact execFabricWord_moves (Eq.refl true) e
  | tbBroadcast => exact execTbBroadcast_moves (Eq.refl true) e
  | sramParityRead _ _ _ _ => exact execSramParityRead_moves (Eq.refl true) e
  | sramRefetchDone => exact execSramRefetchDone_moves (Eq.refl true) e
  | lockstepFault => exact execLockstepFault_moves (Eq.refl true) e
  | anvilCProtectionTrap _ _ => exact execAnvilCProtectionTrap_moves (Eq.refl true) e
  | anvilAccessFault _ _ _ => exact execAnvilAccessFault_moves (Eq.refl true) e
  | registerWrite _ _ _ => exact execRegisterWrite_moves (Eq.refl true) e
  | rcRead _ => exact execRcRead_moves (Eq.refl true) e
  | vrArm _ _ => exact execVrArm_moves (Eq.refl true) e
  | wheelEdge _ _ _ _ => exact execWheelEdge_moves (Eq.refl true) e
  | whlMissingReference _ => exact execWhlMissingReference_moves (Eq.refl true) e
  | whlDiagEvaluation _ _ => exact execWhlDiagEvaluation_moves (Eq.refl true) e
  | whlPullTest _ _ _ => exact execWhlPullTest_moves (Eq.refl true) e
  | whlFaultExit _ => exact execWhlFaultExit_moves (Eq.refl true) e
  | whlStopTimeout _ => exact execWhlStopTimeout_moves (Eq.refl true) e
  | whlDirPulseTimeout _ => exact execWhlDirPulseTimeout_moves (Eq.refl true) e
  | whlInterpolationTick _ => exact execWhlInterpolationTick_moves (Eq.refl true) e
  | whlCfgWrite _ _ _ => exact execWhlCfgWrite_moves (Eq.refl true) e
  | whlResync _ _ => exact execWhlResync_moves (Eq.refl true) e
  | whlFaultClr _ _ => exact execWhlFaultClr_moves (Eq.refl true) e
  | whlEdgeSnapshotRead _ => exact execWhlEdgeSnapshotRead_moves (Eq.refl true) e
  | whlIdxSnapshotRead _ => exact execWhlIdxSnapshotRead_moves (Eq.refl true) e
  | predictionTick => exact execPredictionTick_moves (Eq.refl true) e
  | slotMeasurement _ => exact execSlotMeasurement_moves (Eq.refl true) e
  | slotWordTimeout _ => exact execSlotWordTimeout_moves (Eq.refl true) e
  | slipEvaluation => exact execSlipEvaluation_moves (Eq.refl true) e
  | mdlSrcEnable _ _ _ => exact execMdlSrcEnable_moves (Eq.refl true) e
  | mdlEnable _ _ => exact execMdlEnable_moves (Eq.refl true) e
  | stillTimer => exact execStillTimer_moves (Eq.refl true) e
  | coastTimeout => exact execCoastTimeout_moves (Eq.refl true) e
  | mdlHistoryEntry => exact execMdlHistoryEntry_moves (Eq.refl true) e
  | poseCommit _ => exact execPoseCommit_moves (Eq.refl true) e
  | poseProcessed => exact execPoseProcessed_moves (Eq.refl true) e
  | poseTimeout => exact execPoseTimeout_moves (Eq.refl true) e
  | fieldSet _ => exact execFieldSet_moves (Eq.refl true) e
  | learnClr _ => exact execLearnClr_moves (Eq.refl true) e
  | yawHostWrite _ _ => exact execYawHostWrite_moves (Eq.refl true) e
  | yawSourceTimeout => exact execYawSourceTimeout_moves (Eq.refl true) e
  | deflectionSample _ => exact execDeflectionSample_moves (Eq.refl true) e
  | deflectionTimeout _ => exact execDeflectionTimeout_moves (Eq.refl true) e
  | axCfgWrite _ _ _ => exact execAxCfgWrite_moves (Eq.refl true) e
  | mdlSnapshotRead => exact execMdlSnapshotRead_moves (Eq.refl true) e
  | axSnapshotRead _ => exact execAxSnapshotRead_moves (Eq.refl true) e
  | chArm _ _ => exact execChArm_moves (Eq.refl true) e
  | chCancel _ _ _ => exact execChCancel_moves (Eq.refl true) e
  | chCancelAll _ _ => exact execChCancelAll_moves (Eq.refl true) e
  | eventInstall _ => exact execEventInstall_moves (Eq.refl true) e
  | compareFire _ => exact execCompareFire_moves (Eq.refl true) e
  | pulseEnd _ => exact execPulseEnd_moves (Eq.refl true) e
  | eventDeadline _ => exact execEventDeadline_moves (Eq.refl true) e
  | lateWindowExceeded _ => exact execLateWindowExceeded_moves (Eq.refl true) e
  | standingSpanEnd _ => exact execStandingSpanEnd_moves (Eq.refl true) e
  | chLastRead _ => exact execChLastRead_moves (Eq.refl true) e
  | chHeadRead _ => exact execChHeadRead_moves (Eq.refl true) e
  | chSlotInfoRead _ => exact execChSlotInfoRead_moves (Eq.refl true) e
  | trainPulseFire _ => exact execTrainPulseFire_moves (Eq.refl true) e
  | trainRateLimitFire _ => exact execTrainRateLimitFire_moves (Eq.refl true) e
  | trainPulseOff _ => exact execTrainPulseOff_moves (Eq.refl true) e
  | trainUpdate _ _ => exact execTrainUpdate_moves (Eq.refl true) e
  | trainLengthEnd _ => exact execTrainLengthEnd_moves (Eq.refl true) e
  | latticeUpdate _ => exact execLatticeUpdate_moves (Eq.refl true) e
  | latticePwmPeriod _ => exact execLatticePwmPeriod_moves (Eq.refl true) e
  | latticePwmOff _ => exact execLatticePwmOff_moves (Eq.refl true) e
  | latticeEnable _ _ _ => exact execLatticeEnable_moves (Eq.refl true) e
  | latticeStall _ => exact execLatticeStall_moves (Eq.refl true) e
  | latticeFaultExit _ => exact execLatticeFaultExit_moves (Eq.refl true) e
  | tubeClr _ _ => exact execTubeClr_moves (Eq.refl true) e
  | trimClr _ _ => exact execTrimClr_moves (Eq.refl true) e
  | dropWindowEnd _ => exact execDropWindowEnd_moves (Eq.refl true) e
  | landingEvaluation _ => exact execLandingEvaluation_moves (Eq.refl true) e
  | boostGrant _ => exact execBoostGrant_moves (Eq.refl true) e
  | boostDeferTimeout _ => exact execBoostDeferTimeout_moves (Eq.refl true) e
  | boostCurrentReached _ _ => exact execBoostCurrentReached_moves (Eq.refl true) e
  | boostTimeout _ => exact execBoostTimeout_moves (Eq.refl true) e
  | peakTimeout _ => exact execPeakTimeout_moves (Eq.refl true) e
  | maxonTimeout _ => exact execMaxonTimeout_moves (Eq.refl true) e
  | windowCrossing _ _ => exact execWindowCrossing_moves (Eq.refl true) e
  | decayEnd _ => exact execDecayEnd_moves (Eq.refl true) e
  | bankEnableWrite _ _ _ => exact execBankEnableWrite_moves (Eq.refl true) e
  | clusterSilence _ => exact execClusterSilence_moves (Eq.refl true) e
  | boostCtlEnable _ _ => exact execBoostCtlEnable_moves (Eq.refl true) e
  | boostReady _ => exact execBoostReady_moves (Eq.refl true) e
  | boostStartTimeout => exact execBoostStartTimeout_moves (Eq.refl true) e
  | boostIlim _ => exact execBoostIlim_moves (Eq.refl true) e
  | railClampOn _ _ => exact execRailClampOn_moves (Eq.refl true) e
  | boostOvIn _ => exact execBoostOvIn_moves (Eq.refl true) e
  | boostOvOut _ => exact execBoostOvOut_moves (Eq.refl true) e
  | chDrvWindowWrite _ _ _ _ => exact execChDrvWindowWrite_moves (Eq.refl true) e
  | dutyCheck _ => exact execDutyCheck_moves (Eq.refl true) e
  | channelTemperature _ _ => exact execChannelTemperature_moves (Eq.refl true) e
  | dieLossBudget _ _ => exact execDieLossBudget_moves (Eq.refl true) e
  | vbkUndervoltage _ _ _ => exact execVbkUndervoltage_moves (Eq.refl true) e
  | vbkLost _ _ _ => exact execVbkLost_moves (Eq.refl true) e
  | vbkBack _ _ _ => exact execVbkBack_moves (Eq.refl true) e
  | nodeTestStart _ => exact execNodeTestStart_moves (Eq.refl true) e
  | nodeTestRequest _ _ => exact execNodeTestRequest_moves (Eq.refl true) e
  | nodeTestResult _ _ _ => exact execNodeTestResult_moves (Eq.refl true) e
  | supplyTestStart _ => exact execSupplyTestStart_moves (Eq.refl true) e
  | supplyTestRequest _ _ => exact execSupplyTestRequest_moves (Eq.refl true) e
  | supplyTestResult _ _ => exact execSupplyTestResult_moves (Eq.refl true) e
  | supplyTestNodeHi _ => exact execSupplyTestNodeHi_moves (Eq.refl true) e
  | shortCircuitTrip _ _ => exact execShortCircuitTrip_moves (Eq.refl true) e
  | tooFast _ _ => exact execTooFast_moves (Eq.refl true) e
  | noRise _ _ => exact execNoRise_moves (Eq.refl true) e
  | heldLowAtTurnOff _ _ => exact execHeldLowAtTurnOff_moves (Eq.refl true) e
  | diagClear _ _ => exact execDiagClear_moves (Eq.refl true) e
  | notchFound _ _ => exact execNotchFound_moves (Eq.refl true) e
  | notchTimeout _ => exact execNotchTimeout_moves (Eq.refl true) e
  | dgNotchRead _ => exact execDgNotchRead_moves (Eq.refl true) e
  | captureLaneDone _ _ _ => exact execCaptureLaneDone_moves (Eq.refl true) e
  | captureRelease _ _ _ => exact execCaptureRelease_moves (Eq.refl true) e
  | captureRequest _ _ _ => exact execCaptureRequest_moves (Eq.refl true) e
  | captureArmTimeout _ _ => exact execCaptureArmTimeout_moves (Eq.refl true) e
  | gelowTick => exact execGelowTick_moves (Eq.refl true) e
  | wearSave => exact execWearSave_moves (Eq.refl true) e
  | bcapCompute _ => exact execBcapCompute_moves (Eq.refl true) e
  | tileLoadDone _ _ _ => exact execTileLoadDone_moves (Eq.refl true) e
  | tileFlushStart _ => exact execTileFlushStart_moves (Eq.refl true) e
  | tileFlushCommit _ _ => exact execTileFlushCommit_moves (Eq.refl true) e
  | mapScan => exact execMapScan_moves (Eq.refl true) e
  | gateActionsCommit _ => exact execGateActionsCommit_moves (Eq.refl true) e
  | gateActionFire _ => exact execGateActionFire_moves (Eq.refl true) e
  | mapGateDisable _ => exact execMapGateDisable_moves (Eq.refl true) e
  | coverageWriteback => exact execCoverageWriteback_moves (Eq.refl true) e
  | nandMount _ _ _ => exact execNandMount_moves (Eq.refl true) e
  | nandOperationDone _ _ => exact execNandOperationDone_moves (Eq.refl true) e
  | nandRefresh _ _ => exact execNandRefresh_moves (Eq.refl true) e
  | nandPatrolRead _ _ _ _ => exact execNandPatrolRead_moves (Eq.refl true) e
  | nandWearLevelMove _ => exact execNandWearLevelMove_moves (Eq.refl true) e
  | nandTargetFail _ => exact execNandTargetFail_moves (Eq.refl true) e
  | nandEolCompute => exact execNandEolCompute_moves (Eq.refl true) e
  | writeFrame _ _ => exact execWriteFrame_moves (Eq.refl true) e
  | readFrame _ _ => exact execReadFrame_moves (Eq.refl true) e
  | syncFrame _ _ _ => exact execSyncFrame_moves (Eq.refl true) e
  | frameCut _ _ _ => exact execFrameCut_moves (Eq.refl true) e
  | mbDoor _ _ => exact execMbDoor_moves (Eq.refl true) e
  | mbAbort _ => exact execMbAbort_moves (Eq.refl true) e
  | mbNext _ => exact execMbNext_moves (Eq.refl true) e
  | responseRead _ => exact execResponseRead_moves (Eq.refl true) e
  | hpQHeadWrite _ _ => exact execHpQHeadWrite_moves (Eq.refl true) e
  | uploadChunkCopy _ => exact execUploadChunkCopy_moves (Eq.refl true) e
  | chunkHoldTimeout _ => exact execChunkHoldTimeout_moves (Eq.refl true) e
  | chunkDelivery _ => exact execChunkDelivery_moves (Eq.refl true) e
  | identify _ => exact execIdentify_moves (Eq.refl true) e
  | status _ => exact execStatus_moves (Eq.refl true) e
  | options _ => exact execOptions_moves (Eq.refl true) e
  | resetAnvilC _ => exact execResetAnvilC_moves (Eq.refl true) e
  | resetModule _ => exact execResetModule_moves (Eq.refl true) e
  | axisSet _ => exact execAxisSet_moves (Eq.refl true) e
  | axisGet _ => exact execAxisGet_moves (Eq.refl true) e
  | arm _ => exact execArm_moves (Eq.refl true) e
  | cancel _ => exact execCancel_moves (Eq.refl true) e
  | inhibitSet _ => exact execInhibitSet_moves (Eq.refl true) e
  | inhibitRelease _ => exact execInhibitRelease_moves (Eq.refl true) e
  | eventGet _ => exact execEventGet_moves (Eq.refl true) e
  | armTrain _ => exact execArmTrain_moves (Eq.refl true) e
  | trainUpd _ => exact execTrainUpd_moves (Eq.refl true) e
  | trainReport _ => exact execTrainReport_moves (Eq.refl true) e
  | latticeSet _ => exact execLatticeSet_moves (Eq.refl true) e
  | latticeReport _ => exact execLatticeReport_moves (Eq.refl true) e
  | mount _ => exact execMount_moves (Eq.refl true) e
  | mapConfig _ => exact execMapConfig_moves (Eq.refl true) e
  | rateSet _ => exact execRateSet_moves (Eq.refl true) e
  | mapChSet _ => exact execMapChSet_moves (Eq.refl true) e
  | tileLoad _ => exact execTileLoad_moves (Eq.refl true) e
  | coverageExport _ => exact execCoverageExport_moves (Eq.refl true) e
  | journalRead _ => exact execJournalRead_moves (Eq.refl true) e
  | journalCollect _ => exact execJournalCollect_moves (Eq.refl true) e
  | journalFind _ => exact execJournalFind_moves (Eq.refl true) e
  | counters _ => exact execCounters_moves (Eq.refl true) e
  | captureGet _ => exact execCaptureGet_moves (Eq.refl true) e
  | wearReport _ => exact execWearReport_moves (Eq.refl true) e
  | wearParam _ => exact execWearParam_moves (Eq.refl true) e
  | wearReset _ => exact execWearReset_moves (Eq.refl true) e
  | calSweep _ => exact execCalSweep_moves (Eq.refl true) e
  | selfTest _ _ _ _ _ _ => exact execSelfTest_moves (Eq.refl true) e
  | fwUpdate _ => exact execFwUpdate_moves (Eq.refl true) e
  | gelowResume => exact execGelowResume_moves (Eq.refl true) e
  | anvilVRestart => exact execAnvilVRestart_moves (Eq.refl true) e
  | journalPhaseWord => exact execJournalPhaseWord_moves (Eq.refl true) e
  | journalHeartbeat => exact execJournalHeartbeat_moves (Eq.refl true) e
  | crucibleUncorrectable _ => exact execCrucibleUncorrectable_moves (Eq.refl true) e
  | clusterRetry _ => exact execClusterRetry_moves (Eq.refl true) e
  | interruptEntry _ _ => exact execInterruptEntry_moves (Eq.refl true) e
  | handlerMret _ => exact execHandlerMret_moves (Eq.refl true) e
  | queueRecordWrite _ => exact execQueueRecordWrite_moves (Eq.refl true) e
  | holdoffExpire _ => exact execHoldoffExpire_moves (Eq.refl true) e
  | intSwset _ _ => exact execIntSwset_moves (Eq.refl true) e
  | intClrpend _ _ => exact execIntClrpend_moves (Eq.refl true) e
  | wakeSource _ => exact execWakeSource_moves (Eq.refl true) e
  | adcResult _ _ => exact execAdcResult_moves (Eq.refl true) e
  | adcStart _ _ => exact execAdcStart_moves (Eq.refl true) e
  | adcCtlWrite _ _ _ => exact execAdcCtlWrite_moves (Eq.refl true) e
  | adcResRead _ => exact execAdcResRead_moves (Eq.refl true) e
  | assayStart _ _ => exact execAssayStart_moves (Eq.refl true) e
  | assayEntryStart => exact execAssayEntryStart_moves (Eq.refl true) e
  | assayEntryStore _ => exact execAssayEntryStore_moves (Eq.refl true) e
  | comparatorChange _ _ _ => exact execComparatorChange_moves (Eq.refl true) e
  | comparatorFirstEval _ _ => exact execComparatorFirstEval_moves (Eq.refl true) e
  | cmpTbRead _ => exact execCmpTbRead_moves (Eq.refl true) e
  | sdsExcursionEnd _ => exact execSdsExcursionEnd_moves (Eq.refl true) e
  | sdsBlocked _ => exact execSdsBlocked_moves (Eq.refl true) e
  | sdsDiagEvaluation _ _ => exact execSdsDiagEvaluation_moves (Eq.refl true) e
  | sdsDropRead _ => exact execSdsDropRead_moves (Eq.refl true) e
  | jump _ _ => exact execJump_moves (Eq.refl true) e
  | waitfor _ _ => exact execWaitfor_moves (Eq.refl true) e
  | xfer _ _ => exact execXfer_moves (Eq.refl true) e
  | swap _ => exact execSwap_moves (Eq.refl true) e
  | move _ _ => exact execMove_moves (Eq.refl true) e
  | loadk _ => exact execLoadk_moves (Eq.refl true) e
  | addk _ => exact execAddk_moves (Eq.refl true) e
  | drive _ => exact execDrive_moves (Eq.refl true) e
  | gsig _ => exact execGsig_moves (Eq.refl true) e
  | illegalInstruction _ => exact execIllegalInstruction_moves (Eq.refl true) e
  | feStallClear _ _ => exact execFeStallClear_moves (Eq.refl true) e
  | feHoldEnd _ => exact execFeHoldEnd_moves (Eq.refl true) e
  | feTxWrite _ _ _ => exact execFeTxWrite_moves (Eq.refl true) e
  | feRxRead _ => exact execFeRxRead_moves (Eq.refl true) e
  | feProgWrite _ _ _ _ => exact execFeProgWrite_moves (Eq.refl true) e
  | feEnableWrite _ _ _ => exact execFeEnableWrite_moves (Eq.refl true) e
  | feSyncHalt _ => exact execFeSyncHalt_moves (Eq.refl true) e
  | feSyncReset _ => exact execFeSyncReset_moves (Eq.refl true) e
  | feSyncPhase _ => exact execFeSyncPhase_moves (Eq.refl true) e
  | feSyncRun _ => exact execFeSyncRun_moves (Eq.refl true) e
  | timerTick _ => exact execTimerTick_moves (Eq.refl true) e
  | timerCapture _ _ => exact execTimerCapture_moves (Eq.refl true) e
  | timCapRead _ => exact execTimCapRead_moves (Eq.refl true) e
  | timerFreeze _ _ => exact execTimerFreeze_moves (Eq.refl true) e
  | clockSwitchStart _ _ _ => exact execClockSwitchStart_moves (Eq.refl true) e
  | clockSwitchDone _ => exact execClockSwitchDone_moves (Eq.refl true) e
  | clockSwitchTimeout _ => exact execClockSwitchTimeout_moves (Eq.refl true) e
  | clockStop _ => exact execClockStop_moves (Eq.refl true) e
  | clockAutoRecover _ => exact execClockAutoRecover_moves (Eq.refl true) e
  | xtalLoss _ => exact execXtalLoss_moves (Eq.refl true) e
  | xtalRestore => exact execXtalRestore_moves (Eq.refl true) e
  | trimMark _ => exact execTrimMark_moves (Eq.refl true) e
  | trimHoldTimeout => exact execTrimHoldTimeout_moves (Eq.refl true) e
  | moduleReset _ => exact execModuleReset_moves (Eq.refl true) e
  | islandReset _ _ => exact execIslandReset_moves (Eq.refl true) e
  | wdtVExpire => exact execWdtVExpire_moves (Eq.refl true) e
  | wdtCExpire => exact execWdtCExpire_moves (Eq.refl true) e
  | anvilCRestart => exact execAnvilCRestart_moves (Eq.refl true) e
  | sleepRequest _ => exact execSleepRequest_moves (Eq.refl true) e
  | wakeRequest _ => exact execWakeRequest_moves (Eq.refl true) e
  | bootRom _ => exact execBootRom_moves (Eq.refl true) e
  | gelowStart => exact execGelowStart_moves (Eq.refl true) e
  | bootRcvGo _ _ => exact execBootRcvGo_moves (Eq.refl true) e
  | keyProgGo _ _ => exact execKeyProgGo_moves (Eq.refl true) e
  | keyProgRevoke _ _ => exact execKeyProgRevoke_moves (Eq.refl true) e
  | keyProgDone => exact execKeyProgDone_moves (Eq.refl true) e
  | protSeal _ => exact execProtSeal_moves (Eq.refl true) e
  | powerUp _ _ => exact execPowerUp_moves (Eq.refl true) e
  | powerLoss _ => exact execPowerLoss_moves (Eq.refl true) e
  | supplyMonitorChange _ _ _ => exact execSupplyMonitorChange_moves (Eq.refl true) e
  | lossDetectArm _ _ => exact execLossDetectArm_moves (Eq.refl true) e
  | supplyLossDetection _ _ _ => exact execSupplyLossDetection_moves (Eq.refl true) e
  | boostDisconnectOpen _ => exact execBoostDisconnectOpen_moves (Eq.refl true) e
  | boostDisconnectClose _ _ => exact execBoostDisconnectClose_moves (Eq.refl true) e
  | supFaultDetect _ _ _ _ => exact execSupFaultDetect_moves (Eq.refl true) e
  | supReclose _ _ _ => exact execSupReclose_moves (Eq.refl true) e
  | supCtlWrite _ _ _ => exact execSupCtlWrite_moves (Eq.refl true) e
  | islandClockReturn _ => exact execIslandClockReturn_moves (Eq.refl true) e
  | islandResetRelease _ => exact execIslandResetRelease_moves (Eq.refl true) e
  | sdsPullTest _ _ _ => exact execSdsPullTest_moves (Eq.refl true) e
  | supFltClear _ _ _ => exact execSupFltClear_moves (Eq.refl true) e
  | adcSelWrite _ _ _ => exact execAdcSelWrite_moves (Eq.refl true) e
  | comparatorCfgWrite _ _ _ _ => exact execComparatorCfgWrite_moves (Eq.refl true) e
  | timerCtlWrite _ _ _ _ => exact execTimerCtlWrite_moves (Eq.refl true) e
  | blankingExpiry _ _ => exact execBlankingExpiry_moves (Eq.refl true) e
  | channelConfigWrite _ _ _ _ => exact execChannelConfigWrite_moves (Eq.refl true) e

/-- Every command completes: its effect is a change of the block. -/
theorem exec_upd (i : Instr) : ∃ f : Chip → Chip, ∀ s, exec i s = s.upd f := by
  cases i with
  | fabricWord l w rx => exact (by unfold execFabricWord; exact ⟨_, fun _ => rfl⟩ : ∃ f : Chip → Chip, ∀ s, execFabricWord l w rx s = s.upd f)
  | tbBroadcast => exact (by unfold execTbBroadcast; exact ⟨_, fun _ => rfl⟩ : ∃ f : Chip → Chip, ∀ s, execTbBroadcast s = s.upd f)
  | sramParityRead reader place addr held => exact (by unfold execSramParityRead; exact ⟨_, fun _ => rfl⟩ : ∃ f : Chip → Chip, ∀ s, execSramParityRead reader place addr held s = s.upd f)
  | sramRefetchDone => exact (by unfold execSramRefetchDone; exact ⟨_, fun _ => rfl⟩ : ∃ f : Chip → Chip, ∀ s, execSramRefetchDone s = s.upd f)
  | lockstepFault => exact (by unfold execLockstepFault; exact ⟨_, fun _ => rfl⟩ : ∃ f : Chip → Chip, ∀ s, execLockstepFault s = s.upd f)
  | anvilCProtectionTrap addr k => exact (by unfold execAnvilCProtectionTrap; exact ⟨_, fun _ => rfl⟩ : ∃ f : Chip → Chip, ∀ s, execAnvilCProtectionTrap addr k s = s.upd f)
  | anvilAccessFault core addr k => exact (by unfold execAnvilAccessFault; exact ⟨_, fun _ => rfl⟩ : ∃ f : Chip → Chip, ∀ s, execAnvilAccessFault core addr k s = s.upd f)
  | registerWrite who addr w => exact (by unfold execRegisterWrite; exact ⟨_, fun _ => rfl⟩ : ∃ f : Chip → Chip, ∀ s, execRegisterWrite who addr w s = s.upd f)
  | rcRead addr => exact (by unfold execRcRead; exact ⟨_, fun _ => rfl⟩ : ∃ f : Chip → Chip, ∀ s, execRcRead addr s = s.upd f)
  | vrArm n mv => exact (by unfold execVrArm; exact ⟨_, fun _ => rfl⟩ : ∃ f : Chip → Chip, ∀ s, execVrArm n mv s = s.upd f)
  | wheelEdge n x steepOther both => exact (by unfold execWheelEdge; exact ⟨_, fun _ => rfl⟩ : ∃ f : Chip → Chip, ∀ s, execWheelEdge n x steepOther both s = s.upd f)
  | whlMissingReference n => exact (by unfold execWhlMissingReference; exact ⟨_, fun _ => rfl⟩ : ∃ f : Chip → Chip, ∀ s, execWhlMissingReference n s = s.upd f)
  | whlDiagEvaluation n p => exact (by unfold execWhlDiagEvaluation; exact ⟨_, fun _ => rfl⟩ : ∃ f : Chip → Chip, ∀ s, execWhlDiagEvaluation n p s = s.upd f)
  | whlPullTest n up down => exact (by unfold execWhlPullTest; exact ⟨_, fun _ => rfl⟩ : ∃ f : Chip → Chip, ∀ s, execWhlPullTest n up down s = s.upd f)
  | whlFaultExit n => exact (by unfold execWhlFaultExit; exact ⟨_, fun _ => rfl⟩ : ∃ f : Chip → Chip, ∀ s, execWhlFaultExit n s = s.upd f)
  | whlStopTimeout n => exact (by unfold execWhlStopTimeout; exact ⟨_, fun _ => rfl⟩ : ∃ f : Chip → Chip, ∀ s, execWhlStopTimeout n s = s.upd f)
  | whlDirPulseTimeout n => exact (by unfold execWhlDirPulseTimeout; exact ⟨_, fun _ => rfl⟩ : ∃ f : Chip → Chip, ∀ s, execWhlDirPulseTimeout n s = s.upd f)
  | whlInterpolationTick n => exact (by unfold execWhlInterpolationTick; exact ⟨_, fun _ => rfl⟩ : ∃ f : Chip → Chip, ∀ s, execWhlInterpolationTick n s = s.upd f)
  | whlCfgWrite who n w => exact (by unfold execWhlCfgWrite; exact ⟨_, fun _ => rfl⟩ : ∃ f : Chip → Chip, ∀ s, execWhlCfgWrite who n w s = s.upd f)
  | whlResync who n => exact (by unfold execWhlResync; exact ⟨_, fun _ => rfl⟩ : ∃ f : Chip → Chip, ∀ s, execWhlResync who n s = s.upd f)
  | whlFaultClr who n => exact (by unfold execWhlFaultClr; exact ⟨_, fun _ => rfl⟩ : ∃ f : Chip → Chip, ∀ s, execWhlFaultClr who n s = s.upd f)
  | whlEdgeSnapshotRead n => exact (by unfold execWhlEdgeSnapshotRead; exact ⟨_, fun _ => rfl⟩ : ∃ f : Chip → Chip, ∀ s, execWhlEdgeSnapshotRead n s = s.upd f)
  | whlIdxSnapshotRead n => exact (by unfold execWhlIdxSnapshotRead; exact ⟨_, fun _ => rfl⟩ : ∃ f : Chip → Chip, ∀ s, execWhlIdxSnapshotRead n s = s.upd f)
  | predictionTick => exact (by unfold execPredictionTick; exact ⟨_, fun _ => rfl⟩ : ∃ f : Chip → Chip, ∀ s, execPredictionTick s = s.upd f)
  | slotMeasurement k => exact (by unfold execSlotMeasurement; exact ⟨_, fun _ => rfl⟩ : ∃ f : Chip → Chip, ∀ s, execSlotMeasurement k s = s.upd f)
  | slotWordTimeout k => exact (by unfold execSlotWordTimeout; exact ⟨_, fun _ => rfl⟩ : ∃ f : Chip → Chip, ∀ s, execSlotWordTimeout k s = s.upd f)
  | slipEvaluation => exact (by unfold execSlipEvaluation; exact ⟨_, fun _ => rfl⟩ : ∃ f : Chip → Chip, ∀ s, execSlipEvaluation s = s.upd f)
  | mdlSrcEnable who k w => exact (by unfold execMdlSrcEnable; exact ⟨_, fun _ => rfl⟩ : ∃ f : Chip → Chip, ∀ s, execMdlSrcEnable who k w s = s.upd f)
  | mdlEnable who w => exact (by unfold execMdlEnable; exact ⟨_, fun _ => rfl⟩ : ∃ f : Chip → Chip, ∀ s, execMdlEnable who w s = s.upd f)
  | stillTimer => exact (by unfold execStillTimer; exact ⟨_, fun _ => rfl⟩ : ∃ f : Chip → Chip, ∀ s, execStillTimer s = s.upd f)
  | coastTimeout => exact (by unfold execCoastTimeout; exact ⟨_, fun _ => rfl⟩ : ∃ f : Chip → Chip, ∀ s, execCoastTimeout s = s.upd f)
  | mdlHistoryEntry => exact (by unfold execMdlHistoryEntry; exact ⟨_, fun _ => rfl⟩ : ∃ f : Chip → Chip, ∀ s, execMdlHistoryEntry s = s.upd f)
  | poseCommit who => exact (by unfold execPoseCommit; exact ⟨_, fun _ => rfl⟩ : ∃ f : Chip → Chip, ∀ s, execPoseCommit who s = s.upd f)
  | poseProcessed => exact (by unfold execPoseProcessed; exact ⟨_, fun _ => rfl⟩ : ∃ f : Chip → Chip, ∀ s, execPoseProcessed s = s.upd f)
  | poseTimeout => exact (by unfold execPoseTimeout; exact ⟨_, fun _ => rfl⟩ : ∃ f : Chip → Chip, ∀ s, execPoseTimeout s = s.upd f)
  | fieldSet who => exact (by unfold execFieldSet; exact ⟨_, fun _ => rfl⟩ : ∃ f : Chip → Chip, ∀ s, execFieldSet who s = s.upd f)
  | learnClr who => exact (by unfold execLearnClr; exact ⟨_, fun _ => rfl⟩ : ∃ f : Chip → Chip, ∀ s, execLearnClr who s = s.upd f)
  | yawHostWrite who w => exact (by unfold execYawHostWrite; exact ⟨_, fun _ => rfl⟩ : ∃ f : Chip → Chip, ∀ s, execYawHostWrite who w s = s.upd f)
  | yawSourceTimeout => exact (by unfold execYawSourceTimeout; exact ⟨_, fun _ => rfl⟩ : ∃ f : Chip → Chip, ∀ s, execYawSourceTimeout s = s.upd f)
  | deflectionSample d => exact (by unfold execDeflectionSample; exact ⟨_, fun _ => rfl⟩ : ∃ f : Chip → Chip, ∀ s, execDeflectionSample d s = s.upd f)
  | deflectionTimeout d => exact (by unfold execDeflectionTimeout; exact ⟨_, fun _ => rfl⟩ : ∃ f : Chip → Chip, ∀ s, execDeflectionTimeout d s = s.upd f)
  | axCfgWrite who a w => exact (by unfold execAxCfgWrite; exact ⟨_, fun _ => rfl⟩ : ∃ f : Chip → Chip, ∀ s, execAxCfgWrite who a w s = s.upd f)
  | mdlSnapshotRead => exact (by unfold execMdlSnapshotRead; exact ⟨_, fun _ => rfl⟩ : ∃ f : Chip → Chip, ∀ s, execMdlSnapshotRead s = s.upd f)
  | axSnapshotRead a => exact (by unfold execAxSnapshotRead; exact ⟨_, fun _ => rfl⟩ : ∃ f : Chip → Chip, ∀ s, execAxSnapshotRead a s = s.upd f)
  | chArm who ch => exact (by unfold execChArm; exact ⟨_, fun _ => rfl⟩ : ∃ f : Chip → Chip, ∀ s, execChArm who ch s = s.upd f)
  | chCancel who ch handle => exact (by unfold execChCancel; exact ⟨_, fun _ => rfl⟩ : ∃ f : Chip → Chip, ∀ s, execChCancel who ch handle s = s.upd f)
  | chCancelAll who ch => exact (by unfold execChCancelAll; exact ⟨_, fun _ => rfl⟩ : ∃ f : Chip → Chip, ∀ s, execChCancelAll who ch s = s.upd f)
  | eventInstall jsn => exact (by unfold execEventInstall; exact ⟨_, fun _ => rfl⟩ : ∃ f : Chip → Chip, ∀ s, execEventInstall jsn s = s.upd f)
  | compareFire ch => exact (by unfold execCompareFire; exact ⟨_, fun _ => rfl⟩ : ∃ f : Chip → Chip, ∀ s, execCompareFire ch s = s.upd f)
  | pulseEnd ch => exact (by unfold execPulseEnd; exact ⟨_, fun _ => rfl⟩ : ∃ f : Chip → Chip, ∀ s, execPulseEnd ch s = s.upd f)
  | eventDeadline di => exact (by unfold execEventDeadline; exact ⟨_, fun _ => rfl⟩ : ∃ f : Chip → Chip, ∀ s, execEventDeadline di s = s.upd f)
  | lateWindowExceeded di => exact (by unfold execLateWindowExceeded; exact ⟨_, fun _ => rfl⟩ : ∃ f : Chip → Chip, ∀ s, execLateWindowExceeded di s = s.upd f)
  | standingSpanEnd di => exact (by unfold execStandingSpanEnd; exact ⟨_, fun _ => rfl⟩ : ∃ f : Chip → Chip, ∀ s, execStandingSpanEnd di s = s.upd f)
  | chLastRead ch => exact (by unfold execChLastRead; exact ⟨_, fun _ => rfl⟩ : ∃ f : Chip → Chip, ∀ s, execChLastRead ch s = s.upd f)
  | chHeadRead ch => exact (by unfold execChHeadRead; exact ⟨_, fun _ => rfl⟩ : ∃ f : Chip → Chip, ∀ s, execChHeadRead ch s = s.upd f)
  | chSlotInfoRead ch => exact (by unfold execChSlotInfoRead; exact ⟨_, fun _ => rfl⟩ : ∃ f : Chip → Chip, ∀ s, execChSlotInfoRead ch s = s.upd f)
  | trainPulseFire ch => exact (by unfold execTrainPulseFire; exact ⟨_, fun _ => rfl⟩ : ∃ f : Chip → Chip, ∀ s, execTrainPulseFire ch s = s.upd f)
  | trainRateLimitFire ch => exact (by unfold execTrainRateLimitFire; exact ⟨_, fun _ => rfl⟩ : ∃ f : Chip → Chip, ∀ s, execTrainRateLimitFire ch s = s.upd f)
  | trainPulseOff ch => exact (by unfold execTrainPulseOff; exact ⟨_, fun _ => rfl⟩ : ∃ f : Chip → Chip, ∀ s, execTrainPulseOff ch s = s.upd f)
  | trainUpdate who ch => exact (by unfold execTrainUpdate; exact ⟨_, fun _ => rfl⟩ : ∃ f : Chip → Chip, ∀ s, execTrainUpdate who ch s = s.upd f)
  | trainLengthEnd ch => exact (by unfold execTrainLengthEnd; exact ⟨_, fun _ => rfl⟩ : ∃ f : Chip → Chip, ∀ s, execTrainLengthEnd ch s = s.upd f)
  | latticeUpdate ch => exact (by unfold execLatticeUpdate; exact ⟨_, fun _ => rfl⟩ : ∃ f : Chip → Chip, ∀ s, execLatticeUpdate ch s = s.upd f)
  | latticePwmPeriod ch => exact (by unfold execLatticePwmPeriod; exact ⟨_, fun _ => rfl⟩ : ∃ f : Chip → Chip, ∀ s, execLatticePwmPeriod ch s = s.upd f)
  | latticePwmOff ch => exact (by unfold execLatticePwmOff; exact ⟨_, fun _ => rfl⟩ : ∃ f : Chip → Chip, ∀ s, execLatticePwmOff ch s = s.upd f)
  | latticeEnable who ch w => exact (by unfold execLatticeEnable; exact ⟨_, fun _ => rfl⟩ : ∃ f : Chip → Chip, ∀ s, execLatticeEnable who ch w s = s.upd f)
  | latticeStall ch => exact (by unfold execLatticeStall; exact ⟨_, fun _ => rfl⟩ : ∃ f : Chip → Chip, ∀ s, execLatticeStall ch s = s.upd f)
  | latticeFaultExit ch => exact (by unfold execLatticeFaultExit; exact ⟨_, fun _ => rfl⟩ : ∃ f : Chip → Chip, ∀ s, execLatticeFaultExit ch s = s.upd f)
  | tubeClr who ch => exact (by unfold execTubeClr; exact ⟨_, fun _ => rfl⟩ : ∃ f : Chip → Chip, ∀ s, execTubeClr who ch s = s.upd f)
  | trimClr who ch => exact (by unfold execTrimClr; exact ⟨_, fun _ => rfl⟩ : ∃ f : Chip → Chip, ∀ s, execTrimClr who ch s = s.upd f)
  | dropWindowEnd ch => exact (by unfold execDropWindowEnd; exact ⟨_, fun _ => rfl⟩ : ∃ f : Chip → Chip, ∀ s, execDropWindowEnd ch s = s.upd f)
  | landingEvaluation ch => exact (by unfold execLandingEvaluation; exact ⟨_, fun _ => rfl⟩ : ∃ f : Chip → Chip, ∀ s, execLandingEvaluation ch s = s.upd f)
  | boostGrant b => exact (by unfold execBoostGrant; exact ⟨_, fun _ => rfl⟩ : ∃ f : Chip → Chip, ∀ s, execBoostGrant b s = s.upd f)
  | boostDeferTimeout ch => exact (by unfold execBoostDeferTimeout; exact ⟨_, fun _ => rfl⟩ : ∃ f : Chip → Chip, ∀ s, execBoostDeferTimeout ch s = s.upd f)
  | boostCurrentReached ch code => exact (by unfold execBoostCurrentReached; exact ⟨_, fun _ => rfl⟩ : ∃ f : Chip → Chip, ∀ s, execBoostCurrentReached ch code s = s.upd f)
  | boostTimeout ch => exact (by unfold execBoostTimeout; exact ⟨_, fun _ => rfl⟩ : ∃ f : Chip → Chip, ∀ s, execBoostTimeout ch s = s.upd f)
  | peakTimeout ch => exact (by unfold execPeakTimeout; exact ⟨_, fun _ => rfl⟩ : ∃ f : Chip → Chip, ∀ s, execPeakTimeout ch s = s.upd f)
  | maxonTimeout ch => exact (by unfold execMaxonTimeout; exact ⟨_, fun _ => rfl⟩ : ∃ f : Chip → Chip, ∀ s, execMaxonTimeout ch s = s.upd f)
  | windowCrossing ch code => exact (by unfold execWindowCrossing; exact ⟨_, fun _ => rfl⟩ : ∃ f : Chip → Chip, ∀ s, execWindowCrossing ch code s = s.upd f)
  | decayEnd ch => exact (by unfold execDecayEnd; exact ⟨_, fun _ => rfl⟩ : ∃ f : Chip → Chip, ∀ s, execDecayEnd ch s = s.upd f)
  | bankEnableWrite who b w => exact (by unfold execBankEnableWrite; exact ⟨_, fun _ => rfl⟩ : ∃ f : Chip → Chip, ∀ s, execBankEnableWrite who b w s = s.upd f)
  | clusterSilence c => exact (by unfold execClusterSilence; exact ⟨_, fun _ => rfl⟩ : ∃ f : Chip → Chip, ∀ s, execClusterSilence c s = s.upd f)
  | boostCtlEnable who w => exact (by unfold execBoostCtlEnable; exact ⟨_, fun _ => rfl⟩ : ∃ f : Chip → Chip, ∀ s, execBoostCtlEnable who w s = s.upd f)
  | boostReady mv => exact (by unfold execBoostReady; exact ⟨_, fun _ => rfl⟩ : ∃ f : Chip → Chip, ∀ s, execBoostReady mv s = s.upd f)
  | boostStartTimeout => exact (by unfold execBoostStartTimeout; exact ⟨_, fun _ => rfl⟩ : ∃ f : Chip → Chip, ∀ s, execBoostStartTimeout s = s.upd f)
  | boostIlim shuntMv => exact (by unfold execBoostIlim; exact ⟨_, fun _ => rfl⟩ : ∃ f : Chip → Chip, ∀ s, execBoostIlim shuntMv s = s.upd f)
  | railClampOn d mv => exact (by unfold execRailClampOn; exact ⟨_, fun _ => rfl⟩ : ∃ f : Chip → Chip, ∀ s, execRailClampOn d mv s = s.upd f)
  | boostOvIn mv => exact (by unfold execBoostOvIn; exact ⟨_, fun _ => rfl⟩ : ∃ f : Chip → Chip, ∀ s, execBoostOvIn mv s = s.upd f)
  | boostOvOut mv => exact (by unfold execBoostOvOut; exact ⟨_, fun _ => rfl⟩ : ∃ f : Chip → Chip, ∀ s, execBoostOvOut mv s = s.upd f)
  | chDrvWindowWrite who ch hold w => exact (by unfold execChDrvWindowWrite; exact ⟨_, fun _ => rfl⟩ : ∃ f : Chip → Chip, ∀ s, execChDrvWindowWrite who ch hold w s = s.upd f)
  | dutyCheck ch => exact (by unfold execDutyCheck; exact ⟨_, fun _ => rfl⟩ : ∃ f : Chip → Chip, ∀ s, execDutyCheck ch s = s.upd f)
  | channelTemperature ch celsius => exact (by unfold execChannelTemperature; exact ⟨_, fun _ => rfl⟩ : ∃ f : Chip → Chip, ∀ s, execChannelTemperature ch celsius s = s.upd f)
  | dieLossBudget d lossMw => exact (by unfold execDieLossBudget; exact ⟨_, fun _ => rfl⟩ : ∃ f : Chip → Chip, ∀ s, execDieLossBudget d lossMw s = s.upd f)
  | vbkUndervoltage b mv heldUs => exact (by unfold execVbkUndervoltage; exact ⟨_, fun _ => rfl⟩ : ∃ f : Chip → Chip, ∀ s, execVbkUndervoltage b mv heldUs s = s.upd f)
  | vbkLost b mv heldUs => exact (by unfold execVbkLost; exact ⟨_, fun _ => rfl⟩ : ∃ f : Chip → Chip, ∀ s, execVbkLost b mv heldUs s = s.upd f)
  | vbkBack b mv heldUs => exact (by unfold execVbkBack; exact ⟨_, fun _ => rfl⟩ : ∃ f : Chip → Chip, ∀ s, execVbkBack b mv heldUs s = s.upd f)
  | nodeTestStart ch => exact (by unfold execNodeTestStart; exact ⟨_, fun _ => rfl⟩ : ∃ f : Chip → Chip, ∀ s, execNodeTestStart ch s = s.upd f)
  | nodeTestRequest who ch => exact (by unfold execNodeTestRequest; exact ⟨_, fun _ => rfl⟩ : ∃ f : Chip → Chip, ∀ s, execNodeTestRequest who ch s = s.upd f)
  | nodeTestResult ch voutMv vbkMv => exact (by unfold execNodeTestResult; exact ⟨_, fun _ => rfl⟩ : ∃ f : Chip → Chip, ∀ s, execNodeTestResult ch voutMv vbkMv s = s.upd f)
  | supplyTestStart b => exact (by unfold execSupplyTestStart; exact ⟨_, fun _ => rfl⟩ : ∃ f : Chip → Chip, ∀ s, execSupplyTestStart b s = s.upd f)
  | supplyTestRequest who b => exact (by unfold execSupplyTestRequest; exact ⟨_, fun _ => rfl⟩ : ∃ f : Chip → Chip, ∀ s, execSupplyTestRequest who b s = s.upd f)
  | supplyTestResult b above => exact (by unfold execSupplyTestResult; exact ⟨_, fun _ => rfl⟩ : ∃ f : Chip → Chip, ∀ s, execSupplyTestResult b above s = s.upd f)
  | supplyTestNodeHi b => exact (by unfold execSupplyTestNodeHi; exact ⟨_, fun _ => rfl⟩ : ∃ f : Chip → Chip, ∀ s, execSupplyTestNodeHi b s = s.upd f)
  | shortCircuitTrip ch ma => exact (by unfold execShortCircuitTrip; exact ⟨_, fun _ => rfl⟩ : ∃ f : Chip → Chip, ∀ s, execShortCircuitTrip ch ma s = s.upd f)
  | tooFast ch code => exact (by unfold execTooFast; exact ⟨_, fun _ => rfl⟩ : ∃ f : Chip → Chip, ∀ s, execTooFast ch code s = s.upd f)
  | noRise ch code => exact (by unfold execNoRise; exact ⟨_, fun _ => rfl⟩ : ∃ f : Chip → Chip, ∀ s, execNoRise ch code s = s.upd f)
  | heldLowAtTurnOff ch voutMv => exact (by unfold execHeldLowAtTurnOff; exact ⟨_, fun _ => rfl⟩ : ∃ f : Chip → Chip, ∀ s, execHeldLowAtTurnOff ch voutMv s = s.upd f)
  | diagClear who ch => exact (by unfold execDiagClear; exact ⟨_, fun _ => rfl⟩ : ∃ f : Chip → Chip, ∀ s, execDiagClear who ch s = s.upd f)
  | notchFound ch samples => exact (by unfold execNotchFound; exact ⟨_, fun _ => rfl⟩ : ∃ f : Chip → Chip, ∀ s, execNotchFound ch samples s = s.upd f)
  | notchTimeout ch => exact (by unfold execNotchTimeout; exact ⟨_, fun _ => rfl⟩ : ∃ f : Chip → Chip, ∀ s, execNotchTimeout ch s = s.upd f)
  | dgNotchRead ch => exact (by unfold execDgNotchRead; exact ⟨_, fun _ => rfl⟩ : ∃ f : Chip → Chip, ∀ s, execDgNotchRead ch s = s.upd f)
  | captureLaneDone c lane samples => exact (by unfold execCaptureLaneDone; exact ⟨_, fun _ => rfl⟩ : ∃ f : Chip → Chip, ∀ s, execCaptureLaneDone c lane samples s = s.upd f)
  | captureRelease who c lanes => exact (by unfold execCaptureRelease; exact ⟨_, fun _ => rfl⟩ : ∃ f : Chip → Chip, ∀ s, execCaptureRelease who c lanes s = s.upd f)
  | captureRequest who c idx => exact (by unfold execCaptureRequest; exact ⟨_, fun _ => rfl⟩ : ∃ f : Chip → Chip, ∀ s, execCaptureRequest who c idx s = s.upd f)
  | captureArmTimeout c lane => exact (by unfold execCaptureArmTimeout; exact ⟨_, fun _ => rfl⟩ : ∃ f : Chip → Chip, ∀ s, execCaptureArmTimeout c lane s = s.upd f)
  | gelowTick => exact (by unfold execGelowTick; exact ⟨_, fun _ => rfl⟩ : ∃ f : Chip → Chip, ∀ s, execGelowTick s = s.upd f)
  | wearSave => exact (by unfold execWearSave; exact ⟨_, fun _ => rfl⟩ : ∃ f : Chip → Chip, ∀ s, execWearSave s = s.upd f)
  | bcapCompute vbatMv => exact (by unfold execBcapCompute; exact ⟨_, fun _ => rfl⟩ : ∃ f : Chip → Chip, ∀ s, execBcapCompute vbatMv s = s.upd f)
  | tileLoadDone presc slot uncorrectable => exact (by unfold execTileLoadDone; exact ⟨_, fun _ => rfl⟩ : ∃ f : Chip → Chip, ∀ s, execTileLoadDone presc slot uncorrectable s = s.upd f)
  | tileFlushStart slot => exact (by unfold execTileFlushStart; exact ⟨_, fun _ => rfl⟩ : ∃ f : Chip → Chip, ∀ s, execTileFlushStart slot s = s.upd f)
  | tileFlushCommit slot r => exact (by unfold execTileFlushCommit; exact ⟨_, fun _ => rfl⟩ : ∃ f : Chip → Chip, ∀ s, execTileFlushCommit slot r s = s.upd f)
  | mapScan => exact (by unfold execMapScan; exact ⟨_, fun _ => rfl⟩ : ∃ f : Chip → Chip, ∀ s, execMapScan s = s.upd f)
  | gateActionsCommit ch => exact (by unfold execGateActionsCommit; exact ⟨_, fun _ => rfl⟩ : ∃ f : Chip → Chip, ∀ s, execGateActionsCommit ch s = s.upd f)
  | gateActionFire ch => exact (by unfold execGateActionFire; exact ⟨_, fun _ => rfl⟩ : ∃ f : Chip → Chip, ∀ s, execGateActionFire ch s = s.upd f)
  | mapGateDisable ch => exact (by unfold execMapGateDisable; exact ⟨_, fun _ => rfl⟩ : ∃ f : Chip → Chip, ∀ s, execMapGateDisable ch s = s.upd f)
  | coverageWriteback => exact (by unfold execCoverageWriteback; exact ⟨_, fun _ => rfl⟩ : ∃ f : Chip → Chip, ∀ s, execCoverageWriteback s = s.upd f)
  | nandMount t0 t1 cuts => exact (by unfold execNandMount; exact ⟨_, fun _ => rfl⟩ : ∃ f : Chip → Chip, ∀ s, execNandMount t0 t1 cuts s = s.upd f)
  | nandOperationDone t e => exact (by unfold execNandOperationDone; exact ⟨_, fun _ => rfl⟩ : ∃ f : Chip → Chip, ∀ s, execNandOperationDone t e s = s.upd f)
  | nandRefresh t uncorrectable => exact (by unfold execNandRefresh; exact ⟨_, fun _ => rfl⟩ : ∃ f : Chip → Chip, ∀ s, execNandRefresh t uncorrectable s = s.upd f)
  | nandPatrolRead t block corrected roundEnd => exact (by unfold execNandPatrolRead; exact ⟨_, fun _ => rfl⟩ : ∃ f : Chip → Chip, ∀ s, execNandPatrolRead t block corrected roundEnd s = s.upd f)
  | nandWearLevelMove t => exact (by unfold execNandWearLevelMove; exact ⟨_, fun _ => rfl⟩ : ∃ f : Chip → Chip, ∀ s, execNandWearLevelMove t s = s.upd f)
  | nandTargetFail t => exact (by unfold execNandTargetFail; exact ⟨_, fun _ => rfl⟩ : ∃ f : Chip → Chip, ∀ s, execNandTargetFail t s = s.upd f)
  | nandEolCompute => exact (by unfold execNandEolCompute; exact ⟨_, fun _ => rfl⟩ : ∃ f : Chip → Chip, ∀ s, execNandEolCompute s = s.upd f)
  | writeFrame p bytes => exact (by unfold execWriteFrame; exact ⟨_, fun _ => rfl⟩ : ∃ f : Chip → Chip, ∀ s, execWriteFrame p bytes s = s.upd f)
  | readFrame p bytes => exact (by unfold execReadFrame; exact ⟨_, fun _ => rfl⟩ : ∃ f : Chip → Chip, ∀ s, execReadFrame p bytes s = s.upd f)
  | syncFrame p bytes csTb => exact (by unfold execSyncFrame; exact ⟨_, fun _ => rfl⟩ : ∃ f : Chip → Chip, ∀ s, execSyncFrame p bytes csTb s = s.upd f)
  | frameCut p bytes afterTurnaround => exact (by unfold execFrameCut; exact ⟨_, fun _ => rfl⟩ : ∃ f : Chip → Chip, ∀ s, execFrameCut p bytes afterTurnaround s = s.upd f)
  | mbDoor m seq => exact (by unfold execMbDoor; exact ⟨_, fun _ => rfl⟩ : ∃ f : Chip → Chip, ∀ s, execMbDoor m seq s = s.upd f)
  | mbAbort m => exact (by unfold execMbAbort; exact ⟨_, fun _ => rfl⟩ : ∃ f : Chip → Chip, ∀ s, execMbAbort m s = s.upd f)
  | mbNext m => exact (by unfold execMbNext; exact ⟨_, fun _ => rfl⟩ : ∃ f : Chip → Chip, ∀ s, execMbNext m s = s.upd f)
  | responseRead m => exact (by unfold execResponseRead; exact ⟨_, fun _ => rfl⟩ : ∃ f : Chip → Chip, ∀ s, execResponseRead m s = s.upd f)
  | hpQHeadWrite p w => exact (by unfold execHpQHeadWrite; exact ⟨_, fun _ => rfl⟩ : ∃ f : Chip → Chip, ∀ s, execHpQHeadWrite p w s = s.upd f)
  | uploadChunkCopy p => exact (by unfold execUploadChunkCopy; exact ⟨_, fun _ => rfl⟩ : ∃ f : Chip → Chip, ∀ s, execUploadChunkCopy p s = s.upd f)
  | chunkHoldTimeout m => exact (by unfold execChunkHoldTimeout; exact ⟨_, fun _ => rfl⟩ : ∃ f : Chip → Chip, ∀ s, execChunkHoldTimeout m s = s.upd f)
  | chunkDelivery m => exact (by unfold execChunkDelivery; exact ⟨_, fun _ => rfl⟩ : ∃ f : Chip → Chip, ∀ s, execChunkDelivery m s = s.upd f)
  | identify m => exact (by unfold execIdentify; exact ⟨_, fun _ => rfl⟩ : ∃ f : Chip → Chip, ∀ s, execIdentify m s = s.upd f)
  | status m => exact (by unfold execStatus; exact ⟨_, fun _ => rfl⟩ : ∃ f : Chip → Chip, ∀ s, execStatus m s = s.upd f)
  | options m => exact (by unfold execOptions; exact ⟨_, fun _ => rfl⟩ : ∃ f : Chip → Chip, ∀ s, execOptions m s = s.upd f)
  | resetAnvilC m => exact (by unfold execResetAnvilC; exact ⟨_, fun _ => rfl⟩ : ∃ f : Chip → Chip, ∀ s, execResetAnvilC m s = s.upd f)
  | resetModule m => exact (by unfold execResetModule; exact ⟨_, fun _ => rfl⟩ : ∃ f : Chip → Chip, ∀ s, execResetModule m s = s.upd f)
  | axisSet m => exact (by unfold execAxisSet; exact ⟨_, fun _ => rfl⟩ : ∃ f : Chip → Chip, ∀ s, execAxisSet m s = s.upd f)
  | axisGet m => exact (by unfold execAxisGet; exact ⟨_, fun _ => rfl⟩ : ∃ f : Chip → Chip, ∀ s, execAxisGet m s = s.upd f)
  | arm m => exact (by unfold execArm; exact ⟨_, fun _ => rfl⟩ : ∃ f : Chip → Chip, ∀ s, execArm m s = s.upd f)
  | cancel m => exact (by unfold execCancel; exact ⟨_, fun _ => rfl⟩ : ∃ f : Chip → Chip, ∀ s, execCancel m s = s.upd f)
  | inhibitSet m => exact (by unfold execInhibitSet; exact ⟨_, fun _ => rfl⟩ : ∃ f : Chip → Chip, ∀ s, execInhibitSet m s = s.upd f)
  | inhibitRelease m => exact (by unfold execInhibitRelease; exact ⟨_, fun _ => rfl⟩ : ∃ f : Chip → Chip, ∀ s, execInhibitRelease m s = s.upd f)
  | eventGet m => exact (by unfold execEventGet; exact ⟨_, fun _ => rfl⟩ : ∃ f : Chip → Chip, ∀ s, execEventGet m s = s.upd f)
  | armTrain m => exact (by unfold execArmTrain; exact ⟨_, fun _ => rfl⟩ : ∃ f : Chip → Chip, ∀ s, execArmTrain m s = s.upd f)
  | trainUpd m => exact (by unfold execTrainUpd; exact ⟨_, fun _ => rfl⟩ : ∃ f : Chip → Chip, ∀ s, execTrainUpd m s = s.upd f)
  | trainReport m => exact (by unfold execTrainReport; exact ⟨_, fun _ => rfl⟩ : ∃ f : Chip → Chip, ∀ s, execTrainReport m s = s.upd f)
  | latticeSet m => exact (by unfold execLatticeSet; exact ⟨_, fun _ => rfl⟩ : ∃ f : Chip → Chip, ∀ s, execLatticeSet m s = s.upd f)
  | latticeReport m => exact (by unfold execLatticeReport; exact ⟨_, fun _ => rfl⟩ : ∃ f : Chip → Chip, ∀ s, execLatticeReport m s = s.upd f)
  | mount m => exact (by unfold execMount; exact ⟨_, fun _ => rfl⟩ : ∃ f : Chip → Chip, ∀ s, execMount m s = s.upd f)
  | mapConfig m => exact (by unfold execMapConfig; exact ⟨_, fun _ => rfl⟩ : ∃ f : Chip → Chip, ∀ s, execMapConfig m s = s.upd f)
  | rateSet m => exact (by unfold execRateSet; exact ⟨_, fun _ => rfl⟩ : ∃ f : Chip → Chip, ∀ s, execRateSet m s = s.upd f)
  | mapChSet m => exact (by unfold execMapChSet; exact ⟨_, fun _ => rfl⟩ : ∃ f : Chip → Chip, ∀ s, execMapChSet m s = s.upd f)
  | tileLoad m => exact (by unfold execTileLoad; exact ⟨_, fun _ => rfl⟩ : ∃ f : Chip → Chip, ∀ s, execTileLoad m s = s.upd f)
  | coverageExport m => exact (by unfold execCoverageExport; exact ⟨_, fun _ => rfl⟩ : ∃ f : Chip → Chip, ∀ s, execCoverageExport m s = s.upd f)
  | journalRead m => exact (by unfold execJournalRead; exact ⟨_, fun _ => rfl⟩ : ∃ f : Chip → Chip, ∀ s, execJournalRead m s = s.upd f)
  | journalCollect m => exact (by unfold execJournalCollect; exact ⟨_, fun _ => rfl⟩ : ∃ f : Chip → Chip, ∀ s, execJournalCollect m s = s.upd f)
  | journalFind m => exact (by unfold execJournalFind; exact ⟨_, fun _ => rfl⟩ : ∃ f : Chip → Chip, ∀ s, execJournalFind m s = s.upd f)
  | counters m => exact (by unfold execCounters; exact ⟨_, fun _ => rfl⟩ : ∃ f : Chip → Chip, ∀ s, execCounters m s = s.upd f)
  | captureGet m => exact (by unfold execCaptureGet; exact ⟨_, fun _ => rfl⟩ : ∃ f : Chip → Chip, ∀ s, execCaptureGet m s = s.upd f)
  | wearReport m => exact (by unfold execWearReport; exact ⟨_, fun _ => rfl⟩ : ∃ f : Chip → Chip, ∀ s, execWearReport m s = s.upd f)
  | wearParam m => exact (by unfold execWearParam; exact ⟨_, fun _ => rfl⟩ : ∃ f : Chip → Chip, ∀ s, execWearParam m s = s.upd f)
  | wearReset m => exact (by unfold execWearReset; exact ⟨_, fun _ => rfl⟩ : ∃ f : Chip → Chip, ∀ s, execWearReset m s = s.upd f)
  | calSweep m => exact (by unfold execCalSweep; exact ⟨_, fun _ => rfl⟩ : ∃ f : Chip → Chip, ∀ s, execCalSweep m s = s.upd f)
  | selfTest m t0 t2 t3 t4 banks => exact (by unfold execSelfTest; exact ⟨_, fun _ => rfl⟩ : ∃ f : Chip → Chip, ∀ s, execSelfTest m t0 t2 t3 t4 banks s = s.upd f)
  | fwUpdate m => exact (by unfold execFwUpdate; exact ⟨_, fun _ => rfl⟩ : ∃ f : Chip → Chip, ∀ s, execFwUpdate m s = s.upd f)
  | gelowResume => exact (by unfold execGelowResume; exact ⟨_, fun _ => rfl⟩ : ∃ f : Chip → Chip, ∀ s, execGelowResume s = s.upd f)
  | anvilVRestart => exact (by unfold execAnvilVRestart; exact ⟨_, fun _ => rfl⟩ : ∃ f : Chip → Chip, ∀ s, execAnvilVRestart s = s.upd f)
  | journalPhaseWord => exact (by unfold execJournalPhaseWord; exact ⟨_, fun _ => rfl⟩ : ∃ f : Chip → Chip, ∀ s, execJournalPhaseWord s = s.upd f)
  | journalHeartbeat => exact (by unfold execJournalHeartbeat; exact ⟨_, fun _ => rfl⟩ : ∃ f : Chip → Chip, ∀ s, execJournalHeartbeat s = s.upd f)
  | crucibleUncorrectable addr => exact (by unfold execCrucibleUncorrectable; exact ⟨_, fun _ => rfl⟩ : ∃ f : Chip → Chip, ∀ s, execCrucibleUncorrectable addr s = s.upd f)
  | clusterRetry c => exact (by unfold execClusterRetry; exact ⟨_, fun _ => rfl⟩ : ∃ f : Chip → Chip, ∀ s, execClusterRetry c s = s.upd f)
  | interruptEntry core arrivals => exact (by unfold execInterruptEntry; exact ⟨_, fun _ => rfl⟩ : ∃ f : Chip → Chip, ∀ s, execInterruptEntry core arrivals s = s.upd f)
  | handlerMret core => exact (by unfold execHandlerMret; exact ⟨_, fun _ => rfl⟩ : ∃ f : Chip → Chip, ∀ s, execHandlerMret core s = s.upd f)
  | queueRecordWrite p => exact (by unfold execQueueRecordWrite; exact ⟨_, fun _ => rfl⟩ : ∃ f : Chip → Chip, ∀ s, execQueueRecordWrite p s = s.upd f)
  | holdoffExpire g => exact (by unfold execHoldoffExpire; exact ⟨_, fun _ => rfl⟩ : ∃ f : Chip → Chip, ∀ s, execHoldoffExpire g s = s.upd f)
  | intSwset who n => exact (by unfold execIntSwset; exact ⟨_, fun _ => rfl⟩ : ∃ f : Chip → Chip, ∀ s, execIntSwset who n s = s.upd f)
  | intClrpend who w => exact (by unfold execIntClrpend; exact ⟨_, fun _ => rfl⟩ : ∃ f : Chip → Chip, ∀ s, execIntClrpend who w s = s.upd f)
  | wakeSource n => exact (by unfold execWakeSource; exact ⟨_, fun _ => rfl⟩ : ∃ f : Chip → Chip, ∀ s, execWakeSource n s = s.upd f)
  | adcResult u v => exact (by unfold execAdcResult; exact ⟨_, fun _ => rfl⟩ : ∃ f : Chip → Chip, ∀ s, execAdcResult u v s = s.upd f)
  | adcStart who u => exact (by unfold execAdcStart; exact ⟨_, fun _ => rfl⟩ : ∃ f : Chip → Chip, ∀ s, execAdcStart who u s = s.upd f)
  | adcCtlWrite who u w => exact (by unfold execAdcCtlWrite; exact ⟨_, fun _ => rfl⟩ : ∃ f : Chip → Chip, ∀ s, execAdcCtlWrite who u w s = s.upd f)
  | adcResRead u => exact (by unfold execAdcResRead; exact ⟨_, fun _ => rfl⟩ : ∃ f : Chip → Chip, ∀ s, execAdcResRead u s = s.upd f)
  | assayStart who w => exact (by unfold execAssayStart; exact ⟨_, fun _ => rfl⟩ : ∃ f : Chip → Chip, ∀ s, execAssayStart who w s = s.upd f)
  | assayEntryStart => exact (by unfold execAssayEntryStart; exact ⟨_, fun _ => rfl⟩ : ∃ f : Chip → Chip, ∀ s, execAssayEntryStart s = s.upd f)
  | assayEntryStore results => exact (by unfold execAssayEntryStore; exact ⟨_, fun _ => rfl⟩ : ∃ f : Chip → Chip, ∀ s, execAssayEntryStore results s = s.upd f)
  | comparatorChange u code firstTb => exact (by unfold execComparatorChange; exact ⟨_, fun _ => rfl⟩ : ∃ f : Chip → Chip, ∀ s, execComparatorChange u code firstTb s = s.upd f)
  | comparatorFirstEval u code => exact (by unfold execComparatorFirstEval; exact ⟨_, fun _ => rfl⟩ : ∃ f : Chip → Chip, ∀ s, execComparatorFirstEval u code s = s.upd f)
  | cmpTbRead n => exact (by unfold execCmpTbRead; exact ⟨_, fun _ => rfl⟩ : ∃ f : Chip → Chip, ∀ s, execCmpTbRead n s = s.upd f)
  | sdsExcursionEnd n => exact (by unfold execSdsExcursionEnd; exact ⟨_, fun _ => rfl⟩ : ∃ f : Chip → Chip, ∀ s, execSdsExcursionEnd n s = s.upd f)
  | sdsBlocked n => exact (by unfold execSdsBlocked; exact ⟨_, fun _ => rfl⟩ : ∃ f : Chip → Chip, ∀ s, execSdsBlocked n s = s.upd f)
  | sdsDiagEvaluation n pinMv => exact (by unfold execSdsDiagEvaluation; exact ⟨_, fun _ => rfl⟩ : ∃ f : Chip → Chip, ∀ s, execSdsDiagEvaluation n pinMv s = s.upd f)
  | sdsDropRead n => exact (by unfold execSdsDropRead; exact ⟨_, fun _ => rfl⟩ : ∃ f : Chip → Chip, ∀ s, execSdsDropRead n s = s.upd f)
  | jump e pins => exact (by unfold execJump; exact ⟨_, fun _ => rfl⟩ : ∃ f : Chip → Chip, ∀ s, execJump e pins s = s.upd f)
  | waitfor e pins => exact (by unfold execWaitfor; exact ⟨_, fun _ => rfl⟩ : ∃ f : Chip → Chip, ∀ s, execWaitfor e pins s = s.upd f)
  | xfer e pins => exact (by unfold execXfer; exact ⟨_, fun _ => rfl⟩ : ∃ f : Chip → Chip, ∀ s, execXfer e pins s = s.upd f)
  | swap e => exact (by unfold execSwap; exact ⟨_, fun _ => rfl⟩ : ∃ f : Chip → Chip, ∀ s, execSwap e s = s.upd f)
  | move e pins => exact (by unfold execMove; exact ⟨_, fun _ => rfl⟩ : ∃ f : Chip → Chip, ∀ s, execMove e pins s = s.upd f)
  | loadk e => exact (by unfold execLoadk; exact ⟨_, fun _ => rfl⟩ : ∃ f : Chip → Chip, ∀ s, execLoadk e s = s.upd f)
  | addk e => exact (by unfold execAddk; exact ⟨_, fun _ => rfl⟩ : ∃ f : Chip → Chip, ∀ s, execAddk e s = s.upd f)
  | drive e => exact (by unfold execDrive; exact ⟨_, fun _ => rfl⟩ : ∃ f : Chip → Chip, ∀ s, execDrive e s = s.upd f)
  | gsig e => exact (by unfold execGsig; exact ⟨_, fun _ => rfl⟩ : ∃ f : Chip → Chip, ∀ s, execGsig e s = s.upd f)
  | illegalInstruction e => exact (by unfold execIllegalInstruction; exact ⟨_, fun _ => rfl⟩ : ∃ f : Chip → Chip, ∀ s, execIllegalInstruction e s = s.upd f)
  | feStallClear e pins => exact (by unfold execFeStallClear; exact ⟨_, fun _ => rfl⟩ : ∃ f : Chip → Chip, ∀ s, execFeStallClear e pins s = s.upd f)
  | feHoldEnd e => exact (by unfold execFeHoldEnd; exact ⟨_, fun _ => rfl⟩ : ∃ f : Chip → Chip, ∀ s, execFeHoldEnd e s = s.upd f)
  | feTxWrite who e w => exact (by unfold execFeTxWrite; exact ⟨_, fun _ => rfl⟩ : ∃ f : Chip → Chip, ∀ s, execFeTxWrite who e w s = s.upd f)
  | feRxRead e => exact (by unfold execFeRxRead; exact ⟨_, fun _ => rfl⟩ : ∃ f : Chip → Chip, ∀ s, execFeRxRead e s = s.upd f)
  | feProgWrite who e di w => exact (by unfold execFeProgWrite; exact ⟨_, fun _ => rfl⟩ : ∃ f : Chip → Chip, ∀ s, execFeProgWrite who e di w s = s.upd f)
  | feEnableWrite who e en => exact (by unfold execFeEnableWrite; exact ⟨_, fun _ => rfl⟩ : ∃ f : Chip → Chip, ∀ s, execFeEnableWrite who e en s = s.upd f)
  | feSyncHalt who => exact (by unfold execFeSyncHalt; exact ⟨_, fun _ => rfl⟩ : ∃ f : Chip → Chip, ∀ s, execFeSyncHalt who s = s.upd f)
  | feSyncReset who => exact (by unfold execFeSyncReset; exact ⟨_, fun _ => rfl⟩ : ∃ f : Chip → Chip, ∀ s, execFeSyncReset who s = s.upd f)
  | feSyncPhase who => exact (by unfold execFeSyncPhase; exact ⟨_, fun _ => rfl⟩ : ∃ f : Chip → Chip, ∀ s, execFeSyncPhase who s = s.upd f)
  | feSyncRun who => exact (by unfold execFeSyncRun; exact ⟨_, fun _ => rfl⟩ : ∃ f : Chip → Chip, ∀ s, execFeSyncRun who s = s.upd f)
  | timerTick n => exact (by unfold execTimerTick; exact ⟨_, fun _ => rfl⟩ : ∃ f : Chip → Chip, ∀ s, execTimerTick n s = s.upd f)
  | timerCapture n rising => exact (by unfold execTimerCapture; exact ⟨_, fun _ => rfl⟩ : ∃ f : Chip → Chip, ∀ s, execTimerCapture n rising s = s.upd f)
  | timCapRead n => exact (by unfold execTimCapRead; exact ⟨_, fun _ => rfl⟩ : ∃ f : Chip → Chip, ∀ s, execTimCapRead n s = s.upd f)
  | timerFreeze core halt => exact (by unfold execTimerFreeze; exact ⟨_, fun _ => rfl⟩ : ∃ f : Chip → Chip, ∀ s, execTimerFreeze core halt s = s.upd f)
  | clockSwitchStart who di sel => exact (by unfold execClockSwitchStart; exact ⟨_, fun _ => rfl⟩ : ∃ f : Chip → Chip, ∀ s, execClockSwitchStart who di sel s = s.upd f)
  | clockSwitchDone di => exact (by unfold execClockSwitchDone; exact ⟨_, fun _ => rfl⟩ : ∃ f : Chip → Chip, ∀ s, execClockSwitchDone di s = s.upd f)
  | clockSwitchTimeout di => exact (by unfold execClockSwitchTimeout; exact ⟨_, fun _ => rfl⟩ : ∃ f : Chip → Chip, ∀ s, execClockSwitchTimeout di s = s.upd f)
  | clockStop di => exact (by unfold execClockStop; exact ⟨_, fun _ => rfl⟩ : ∃ f : Chip → Chip, ∀ s, execClockStop di s = s.upd f)
  | clockAutoRecover di => exact (by unfold execClockAutoRecover; exact ⟨_, fun _ => rfl⟩ : ∃ f : Chip → Chip, ∀ s, execClockAutoRecover di s = s.upd f)
  | xtalLoss cycles => exact (by unfold execXtalLoss; exact ⟨_, fun _ => rfl⟩ : ∃ f : Chip → Chip, ∀ s, execXtalLoss cycles s = s.upd f)
  | xtalRestore => exact (by unfold execXtalRestore; exact ⟨_, fun _ => rfl⟩ : ∃ f : Chip → Chip, ∀ s, execXtalRestore s = s.upd f)
  | trimMark pps => exact (by unfold execTrimMark; exact ⟨_, fun _ => rfl⟩ : ∃ f : Chip → Chip, ∀ s, execTrimMark pps s = s.upd f)
  | trimHoldTimeout => exact (by unfold execTrimHoldTimeout; exact ⟨_, fun _ => rfl⟩ : ∃ f : Chip → Chip, ∀ s, execTrimHoldTimeout s = s.upd f)
  | moduleReset cause => exact (by unfold execModuleReset; exact ⟨_, fun _ => rfl⟩ : ∃ f : Chip → Chip, ∀ s, execModuleReset cause s = s.upd f)
  | islandReset who di => exact (by unfold execIslandReset; exact ⟨_, fun _ => rfl⟩ : ∃ f : Chip → Chip, ∀ s, execIslandReset who di s = s.upd f)
  | wdtVExpire => exact (by unfold execWdtVExpire; exact ⟨_, fun _ => rfl⟩ : ∃ f : Chip → Chip, ∀ s, execWdtVExpire s = s.upd f)
  | wdtCExpire => exact (by unfold execWdtCExpire; exact ⟨_, fun _ => rfl⟩ : ∃ f : Chip → Chip, ∀ s, execWdtCExpire s = s.upd f)
  | anvilCRestart => exact (by unfold execAnvilCRestart; exact ⟨_, fun _ => rfl⟩ : ∃ f : Chip → Chip, ∀ s, execAnvilCRestart s = s.upd f)
  | sleepRequest who => exact (by unfold execSleepRequest; exact ⟨_, fun _ => rfl⟩ : ∃ f : Chip → Chip, ∀ s, execSleepRequest who s = s.upd f)
  | wakeRequest who => exact (by unfold execWakeRequest; exact ⟨_, fun _ => rfl⟩ : ∃ f : Chip → Chip, ∀ s, execWakeRequest who s = s.upd f)
  | bootRom p => exact (by unfold execBootRom; exact ⟨_, fun _ => rfl⟩ : ∃ f : Chip → Chip, ∀ s, execBootRom p s = s.upd f)
  | gelowStart => exact (by unfold execGelowStart; exact ⟨_, fun _ => rfl⟩ : ∃ f : Chip → Chip, ∀ s, execGelowStart s = s.upd f)
  | bootRcvGo p w => exact (by unfold execBootRcvGo; exact ⟨_, fun _ => rfl⟩ : ∃ f : Chip → Chip, ∀ s, execBootRcvGo p w s = s.upd f)
  | keyProgGo who slot => exact (by unfold execKeyProgGo; exact ⟨_, fun _ => rfl⟩ : ∃ f : Chip → Chip, ∀ s, execKeyProgGo who slot s = s.upd f)
  | keyProgRevoke who slot => exact (by unfold execKeyProgRevoke; exact ⟨_, fun _ => rfl⟩ : ∃ f : Chip → Chip, ∀ s, execKeyProgRevoke who slot s = s.upd f)
  | keyProgDone => exact (by unfold execKeyProgDone; exact ⟨_, fun _ => rfl⟩ : ∃ f : Chip → Chip, ∀ s, execKeyProgDone s = s.upd f)
  | protSeal who => exact (by unfold execProtSeal; exact ⟨_, fun _ => rfl⟩ : ∃ f : Chip → Chip, ∀ s, execProtSeal who s = s.upd f)
  | powerUp r nrstHigh => exact (by unfold execPowerUp; exact ⟨_, fun _ => rfl⟩ : ∃ f : Chip → Chip, ∀ s, execPowerUp r nrstHigh s = s.upd f)
  | powerLoss r => exact (by unfold execPowerLoss; exact ⟨_, fun _ => rfl⟩ : ∃ f : Chip → Chip, ∀ s, execPowerLoss r s = s.upd f)
  | supplyMonitorChange bit mv heldUs => exact (by unfold execSupplyMonitorChange; exact ⟨_, fun _ => rfl⟩ : ∃ f : Chip → Chip, ∀ s, execSupplyMonitorChange bit mv heldUs s = s.upd f)
  | lossDetectArm vbsnsMv heldUs => exact (by unfold execLossDetectArm; exact ⟨_, fun _ => rfl⟩ : ∃ f : Chip → Chip, ∀ s, execLossDetectArm vbsnsMv heldUs s = s.upd f)
  | supplyLossDetection vbsnsMv vbatMv heldUs => exact (by unfold execSupplyLossDetection; exact ⟨_, fun _ => rfl⟩ : ∃ f : Chip → Chip, ∀ s, execSupplyLossDetection vbsnsMv vbatMv heldUs s = s.upd f)
  | boostDisconnectOpen vbsnsMv => exact (by unfold execBoostDisconnectOpen; exact ⟨_, fun _ => rfl⟩ : ∃ f : Chip → Chip, ∀ s, execBoostDisconnectOpen vbsnsMv s = s.upd f)
  | boostDisconnectClose vbsnsMv heldUs => exact (by unfold execBoostDisconnectClose; exact ⟨_, fun _ => rfl⟩ : ∃ f : Chip → Chip, ∀ s, execBoostDisconnectClose vbsnsMv heldUs s = s.upd f)
  | supFaultDetect n c level heldUs => exact (by unfold execSupFaultDetect; exact ⟨_, fun _ => rfl⟩ : ∃ f : Chip → Chip, ∀ s, execSupFaultDetect n c level heldUs s = s.upd f)
  | supReclose n level heldUs => exact (by unfold execSupReclose; exact ⟨_, fun _ => rfl⟩ : ∃ f : Chip → Chip, ∀ s, execSupReclose n level heldUs s = s.upd f)
  | supCtlWrite who w pinsOut => exact (by unfold execSupCtlWrite; exact ⟨_, fun _ => rfl⟩ : ∃ f : Chip → Chip, ∀ s, execSupCtlWrite who w pinsOut s = s.upd f)
  | islandClockReturn di => exact (by unfold execIslandClockReturn; exact ⟨_, fun _ => rfl⟩ : ∃ f : Chip → Chip, ∀ s, execIslandClockReturn di s = s.upd f)
  | islandResetRelease di => exact (by unfold execIslandResetRelease; exact ⟨_, fun _ => rfl⟩ : ∃ f : Chip → Chip, ∀ s, execIslandResetRelease di s = s.upd f)
  | sdsPullTest n up down => exact (by unfold execSdsPullTest; exact ⟨_, fun _ => rfl⟩ : ∃ f : Chip → Chip, ∀ s, execSdsPullTest n up down s = s.upd f)
  | supFltClear n ua heldUs => exact (by unfold execSupFltClear; exact ⟨_, fun _ => rfl⟩ : ∃ f : Chip → Chip, ∀ s, execSupFltClear n ua heldUs s = s.upd f)
  | adcSelWrite who u w => exact (by unfold execAdcSelWrite; exact ⟨_, fun _ => rfl⟩ : ∃ f : Chip → Chip, ∀ s, execAdcSelWrite who u w s = s.upd f)
  | comparatorCfgWrite who u thr w => exact (by unfold execComparatorCfgWrite; exact ⟨_, fun _ => rfl⟩ : ∃ f : Chip → Chip, ∀ s, execComparatorCfgWrite who u thr w s = s.upd f)
  | timerCtlWrite who n cnt w => exact (by unfold execTimerCtlWrite; exact ⟨_, fun _ => rfl⟩ : ∃ f : Chip → Chip, ∀ s, execTimerCtlWrite who n cnt w s = s.upd f)
  | blankingExpiry ch code => exact (by unfold execBlankingExpiry; exact ⟨_, fun _ => rfl⟩ : ∃ f : Chip → Chip, ∀ s, execBlankingExpiry ch code s = s.upd f)
  | channelConfigWrite who ch reg w => exact (by unfold execChannelConfigWrite; exact ⟨_, fun _ => rfl⟩ : ∃ f : Chip → Chip, ∀ s, execChannelConfigWrite who ch reg w s = s.upd f)

theorem exec_next (i : Instr) (s : State) : ∃ t, exec i s = .next t := by
  obtain ⟨f, e⟩ := exec_upd i
  exact ⟨_, e s⟩

theorem exec_pending {i : Instr} {s t : State} (e : exec i s = .next t) : t.pending = s.pending := by
  obtain ⟨f, g⟩ := exec_upd i
  rw [g s] at e
  cases e
  rfl

/-! ## The frame -/

theorem rd_regs {x y : Chip} (h : y.regs = x.regs) (f : Field) (i : Nat) : y.rd f i = x.rd f i := by
  unfold Chip.rd; rw [h]

theorem KeptOutside.rfl (L : List Part) (x : Chip) : KeptOutside L x x := by
  constructor <;> intros <;> first | exact Eq.refl _

theorem KeptOutside.trans {L : List Part} {x y z : Chip} (h : KeptOutside L x y) (g : KeptOutside L y z) : KeptOutside L x z := by
  constructor
  · exact fun f i p => (g.regs f i p).trans (h.regs f i p)
  · exact fun a p => (g.mem a p).trans (h.mem a p)
  · exact fun p q => (g.records p q).trans (h.records p q)
  · exact fun p => (g.nextJsn p).trans (h.nextJsn p)
  · exact fun p => (g.jour p).trans (h.jour p)
  · exact fun p => (g.saved p).trans (h.saved p)
  · exact fun p => (g.map p).trans (h.map p)
  · exact fun p => (g.tb p).trans (h.tb p)
  · exact fun p => (g.isl p).trans (h.isl p)
  · exact fun p => (g.stamps p).trans (h.stamps p)
  · exact fun p => (g.frees p).trans (h.frees p)
  · exact fun p => (g.rdata p).trans (h.rdata p)
  · exact fun p => (g.asleep p).trans (h.asleep p)
  · exact fun p => (g.accums p).trans (h.accums p)
  · exact fun p => (g.holdEnd p).trans (h.holdEnd p)
  · exact fun p => (g.coreV p).trans (h.coreV p)
  · exact fun p => (g.coreC p).trans (h.coreC p)
  · exact fun p => (g.whl p).trans (h.whl p)
  · exact fun p => (g.mdl p).trans (h.mdl p)
  · exact fun p => (g.axes p).trans (h.axes p)
  · exact fun p => (g.pool p).trans (h.pool p)
  · exact fun p => (g.poolLast p).trans (h.poolLast p)
  · exact fun p => (g.orderNo p).trans (h.orderNo p)
  · exact fun p => (g.chans p).trans (h.chans p)
  · exact fun p => (g.banks p).trans (h.banks p)
  · exact fun p => (g.boost p).trans (h.boost p)
  · exact fun p => (g.capReq p).trans (h.capReq p)
  · exact fun p => (g.capTb p).trans (h.capTb p)
  · exact fun p => (g.copies p).trans (h.copies p)
  · exact fun p => (g.wear p).trans (h.wear p)
  · exact fun p => (g.bcap p).trans (h.bcap p)
  · exact fun p => (g.fe p).trans (h.fe p)
  · exact fun p => (g.fio p).trans (h.fio p)
  · exact fun p => (g.tim p).trans (h.tim p)
  · exact fun p => (g.adc p).trans (h.adc p)
  · exact fun p => (g.assay p).trans (h.assay p)
  · exact fun p => (g.cmp p).trans (h.cmp p)
  · exact fun p => (g.sds p).trans (h.sds p)
  · exact fun p => (g.nand p).trans (h.nand p)
  · exact fun p => (g.mbox p).trans (h.mbox p)
  · exact fun p => (g.port p).trans (h.port p)
  · exact fun p => (g.gelow p).trans (h.gelow p)
  · exact fun p => (g.sys p).trans (h.sys p)
  · exact fun p => (g.sup p).trans (h.sup p)
  · exact fun p => (g.link p).trans (h.link p)
  · exact fun p => (g.refetch p).trans (h.refetch p)
  · exact fun p => (g.cyc p).trans (h.cyc p)

theorem Upd.kept {L : List Part} {x y : Chip} (u : Upd L x y) : KeptOutside L x y := by
  constructor
  · exact fun f i _ => rd_regs u.regs f i
  · intro a _; unfold Chip.byte; rw [u.mem]
  · exact fun _ _ => u.recs
  · exact fun _ => u.next
  · intro p; rw [u.jour.resolve_right p]
  · exact fun _ => u.saved
  · intro p; rw [u.map.resolve_right p]
  · exact fun p => u.tb.resolve_right p
  · exact fun p => u.isl.resolve_right p
  · exact fun p => u.stamps.resolve_right p
  · exact fun p => u.frees.resolve_right p
  · exact fun p => u.rdata.resolve_right p
  · exact fun p => u.asleep.resolve_right p
  · exact fun p => u.accums.resolve_right p
  · exact fun p => u.holdEnd.resolve_right p
  · exact fun p => u.coreV.resolve_right p
  · exact fun p => u.coreC.resolve_right p
  · exact fun p => u.whl.resolve_right p
  · exact fun p => u.mdl.resolve_right p
  · exact fun p => u.axes.resolve_right p
  · exact fun p => u.pool.resolve_right p
  · exact fun p => u.poolLast.resolve_right p
  · exact fun p => u.orderNo.resolve_right p
  · exact fun p => u.chans.resolve_right p
  · exact fun p => u.banks.resolve_right p
  · exact fun p => u.boost.resolve_right p
  · exact fun p => u.capReq.resolve_right p
  · exact fun p => u.capTb.resolve_right p
  · exact fun p => u.copies.resolve_right p
  · exact fun p => u.wear.resolve_right p
  · exact fun p => u.bcap.resolve_right p
  · exact fun p => u.fe.resolve_right p
  · exact fun p => u.fio.resolve_right p
  · exact fun p => u.tim.resolve_right p
  · exact fun p => u.adc.resolve_right p
  · exact fun p => u.assay.resolve_right p
  · exact fun p => u.cmp.resolve_right p
  · exact fun p => u.sds.resolve_right p
  · exact fun p => u.nand.resolve_right p
  · exact fun p => u.mbox.resolve_right p
  · exact fun p => u.port.resolve_right p
  · exact fun p => u.gelow.resolve_right p
  · exact fun p => u.sys.resolve_right p
  · exact fun p => u.sup.resolve_right p
  · exact fun p => u.link.resolve_right p
  · exact fun p => u.refetch.resolve_right p
  · exact fun p => u.cyc.resolve_right p

theorem Moves.kept {L : List Part} {m x : Chip} (h : Moves L m x) : KeptOutside L m x := by
  induction h with
  | refl => exact .rfl _ _
  | wr f i v hp _ ih =>
    refine ih.trans ?_
    constructor
    · exact fun g j q => rd_wr_part _ f g i j v (fun e => q (e ▸ hp))
    all_goals intros; exact Eq.refl _
  | drop f p hp _ ih =>
    refine ih.trans ?_
    constructor
    · intro g j q
      refine rd_drop_part _ f g j p (fun e => q (e ▸ hp))
    all_goals intros; exact Eq.refl _
  | byte a b hp _ ih =>
    refine ih.trans ?_
    constructor
    · exact fun _ _ _ => Eq.refl _
    · exact fun _ q => absurd hp q
    all_goals intros; exact Eq.refl _
  | clear lo n hp _ ih =>
    refine ih.trans ?_
    constructor
    · exact fun _ _ _ => Eq.refl _
    · exact fun _ q => absurd hp q
    all_goals intros; exact Eq.refl _
  | wipe hp _ ih =>
    refine ih.trans ?_
    constructor
    · exact fun _ _ _ => Eq.refl _
    · exact fun _ q => absurd hp q
    all_goals intros; exact Eq.refl _
  | upd _ u ih => exact ih.trans u.kept
  | recs rs n hp _ r ih =>
    refine ih.trans ?_
    constructor
    · exact fun _ _ _ => Eq.refl _
    · exact fun _ _ => Eq.refl _
    · exact fun q => absurd hp q
    · exact fun q => absurd hp q
    all_goals intros; exact Eq.refl _
  | collect o u hp _ ih =>
    refine ih.trans ?_
    constructor
    · exact fun _ _ _ => Eq.refl _
    · exact fun _ _ => Eq.refl _
    · exact fun _ q => absurd hp q
    all_goals intros; exact Eq.refl _
  | save fs hp _ ih =>
    refine ih.trans ?_
    constructor
    · exact fun _ _ _ => Eq.refl _
    · exact fun _ _ => Eq.refl _
    · exact fun _ _ => Eq.refl _
    · exact fun _ => Eq.refl _
    · exact fun _ => Eq.refl _
    · exact fun q => absurd hp q
    all_goals intros; exact Eq.refl _
  | restore rows hp hr _ hs ih =>
    refine ih.trans ?_
    constructor
    · exact fun f _ q => absurd (hr _ f.part_mem) q
    · exact fun _ _ => Eq.refl _
    · exact fun _ _ => Eq.refl _
    · exact fun _ => Eq.refl _
    · exact fun _ => Eq.refl _
    · exact fun q => absurd hp q
    all_goals intros; exact Eq.refl _
  | reboot fs hr _ h1 h2 h3 h4 h5 ih =>
    have a : ∀ p, p ∈ regParts ++ [.mem, .saved] ++ restParts → p ∈ L := hr
    refine ih.trans ?_
    constructor
    · exact fun f _ q => absurd (a _ (List.mem_append_left _ (List.mem_append_left _ f.part_mem))) q
    · exact fun _ q => absurd (a _ (by simp)) q
    · exact fun _ _ => h3
    · exact fun _ => h4
    · exact fun q => absurd (a _ (by simp [restParts])) q
    · exact fun q => absurd (a _ (by simp)) q
    · exact fun q => absurd (a _ (by simp [restParts])) q
    · exact fun q => absurd (a _ (by simp [restParts])) q
    · exact fun q => absurd (a _ (by simp [restParts])) q
    · exact fun q => absurd (a _ (by simp [restParts])) q
    · exact fun q => absurd (a _ (by simp [restParts])) q
    · exact fun q => absurd (a _ (by simp [restParts])) q
    · exact fun q => absurd (a _ (by simp [restParts])) q
    · exact fun q => absurd (a _ (by simp [restParts])) q
    · exact fun q => absurd (a _ (by simp [restParts])) q
    · exact fun q => absurd (a _ (by simp [restParts])) q
    · exact fun q => absurd (a _ (by simp [restParts])) q
    · exact fun q => absurd (a _ (by simp [restParts])) q
    · exact fun q => absurd (a _ (by simp [restParts])) q
    · exact fun q => absurd (a _ (by simp [restParts])) q
    · exact fun q => absurd (a _ (by simp [restParts])) q
    · exact fun q => absurd (a _ (by simp [restParts])) q
    · exact fun q => absurd (a _ (by simp [restParts])) q
    · exact fun q => absurd (a _ (by simp [restParts])) q
    · exact fun q => absurd (a _ (by simp [restParts])) q
    · exact fun q => absurd (a _ (by simp [restParts])) q
    · exact fun q => absurd (a _ (by simp [restParts])) q
    · exact fun q => absurd (a _ (by simp [restParts])) q
    · exact fun q => absurd (a _ (by simp [restParts])) q
    · exact fun q => absurd (a _ (by simp [restParts])) q
    · exact fun q => absurd (a _ (by simp [restParts])) q
    · exact fun q => absurd (a _ (by simp [restParts])) q
    · exact fun q => absurd (a _ (by simp [restParts])) q
    · exact fun q => absurd (a _ (by simp [restParts])) q
    · exact fun q => absurd (a _ (by simp [restParts])) q
    · exact fun q => absurd (a _ (by simp [restParts])) q
    · exact fun q => absurd (a _ (by simp [restParts])) q
    · exact fun q => absurd (a _ (by simp [restParts])) q
    · exact fun q => absurd (a _ (by simp [restParts])) q
    · exact fun q => absurd (a _ (by simp [restParts])) q
    · exact fun q => absurd (a _ (by simp [restParts])) q
    · exact fun q => absurd (a _ (by simp [restParts])) q
    · exact fun q => absurd (a _ (by simp [restParts])) q
    · exact fun q => absurd (a _ (by simp [restParts])) q
    · exact fun q => absurd (a _ (by simp [restParts])) q
    · exact fun q => absurd (a _ (by simp [restParts])) q
    · exact fun q => absurd (a _ (by simp [restParts])) q

/-- A register of a block that a chain of moves does not name reads as before. -/
theorem Moves.rd {L : List Part} {m x : Chip} (h : Moves L m x) (f : Field) (i : Nat) (q : f.part ∉ L) : x.rd f i = m.rd f i :=
  h.kept.regs f i q

/-! ## Canonical forms -/

theorem regsWf_put {t : Tab (Tab Nat)} {k : Nat} {r : Tab Nat} (h : regsWf t = true) (w : tabWf r = true)
    (v : ∀ q, q ∈ r → q.2 < 2 ^ (32 - k % 32)) : regsWf (tabPut t k r) = true := by
  simp only [regsWf, Bool.and_eq_true, List.all_eq_true, decide_eq_true_eq] at h ⊢
  refine ⟨tabWf_put _ _ _ h.1, fun p hp => ?_⟩
  rcases mem_tabPut hp with e | e
  · subst e; exact ⟨w, v⟩
  · exact h.2 p e

theorem regsWf_row {t : Tab (Tab Nat)} (k : Nat) (h : regsWf t = true) :
    tabWf (tabGet t k []) = true ∧ ∀ q, q ∈ tabGet t k [] → q.2 < 2 ^ (32 - k % 32) := by
  simp only [regsWf, Bool.and_eq_true, List.all_eq_true, decide_eq_true_eq] at h
  rcases tabGet_cases t k ([] : Tab Nat) with e | e
  · rw [e]; exact ⟨rfl, by simp⟩
  · exact h.2 _ e

theorem Field.id_mod (f : Field) (h : f.w ≠ 0) : f.id % 32 = f.lsb := by
  have := f.fits
  unfold Field.id; omega

theorem wr_value (f : Field) (v : Nat) : v % 2 ^ f.w < 2 ^ (32 - f.id % 32) := by
  by_cases h : f.w = 0
  · rw [h, Nat.pow_zero, Nat.mod_one]; exact Nat.two_pow_pos _
  · rw [f.id_mod h]
    have := f.fits
    exact Nat.lt_of_lt_of_le (Nat.mod_lt _ (Nat.two_pow_pos _)) (Nat.pow_le_pow_right (by omega) (by omega))

theorem wr_wf (m : Chip) (f : Field) (i v : Nat) (h : regsWf m.regs = true) : regsWf (m.wr f i v).regs = true := by
  have r := regsWf_row f.id h
  refine regsWf_put h (tabWf_put _ _ _ r.1) fun q hq => ?_
  rcases mem_tabPut hq with e | e
  · subst e; exact wr_value f v
  · exact r.2 q e

theorem keepRows_wf (fs : List Field) (t : Tab (Tab Nat)) (h : regsWf t = true) : regsWf (keepRows fs t) = true := by
  unfold keepRows
  simp only [regsWf, Bool.and_eq_true, List.all_eq_true, decide_eq_true_eq] at h ⊢
  refine ⟨tabRising_filter t 0 _ h.1, fun p hp => h.2 p (List.mem_filter.1 hp).1⟩

theorem restore_wf (rows t : Tab (Tab Nat)) (h : regsWf t = true) (g : regsWf rows = true) :
    regsWf (rows.foldl (fun t p => tabPut t p.1 p.2) t) = true := by
  simp only [regsWf, Bool.and_eq_true, List.all_eq_true, decide_eq_true_eq] at g
  replace g := g.2
  induction rows generalizing t with
  | nil => exact h
  | cons p r ih =>
    exact ih _ (regsWf_put h (g p (by simp)).1 (g p (by simp)).2) fun q hq => g q (by simp [hq])

/-- Moves keep the canonical forms. -/
theorem Moves.wf {L : List Part} {m x : Chip} (h : Moves L m x)
    (w : Memory.wf m.mem = true ∧ regsWf m.regs = true ∧ ∀ rows, m.map.saved = some rows → regsWf rows = true) :
    Memory.wf x.mem = true ∧ regsWf x.regs = true ∧ ∀ rows, x.map.saved = some rows → regsWf rows = true := by
  induction h with
  | refl => exact w
  | wr f i v _ _ ih => exact ⟨ih.1, wr_wf _ f i v ih.2.1, ih.2.2⟩
  | drop f p _ _ ih =>
    have r := regsWf_row f.id ih.2.1
    exact ⟨ih.1, regsWf_put ih.2.1 (tabWf_drop _ p r.1) (fun q hq => r.2 q (mem_tabDrop hq)), ih.2.2⟩
  | byte a b _ _ ih => exact ⟨memRising_put _ 0 a b ih.1 (Nat.zero_le _), ih.2⟩
  | clear lo n _ _ ih => exact ⟨memRising_clear _ 0 lo n ih.1, ih.2⟩
  | wipe _ _ ih => exact ⟨Eq.refl _, ih.2⟩
  | upd _ u ih => rw [u.mem, u.regs, u.saved]; exact ih
  | recs _ _ _ _ _ ih => exact ih
  | collect _ _ _ _ ih => exact ih
  | @save x fs _ _ ih =>
    refine ⟨ih.1, ih.2.1, fun rows e => ?_⟩
    simp only [Option.some.injEq] at e
    cases h : x.map.saved with
    | none => rw [h] at e; exact e ▸ keepRows_wf fs _ ih.2.1
    | some r => rw [h] at e; exact e ▸ ih.2.2 r h
  | restore rows _ _ _ hs ih => exact ⟨ih.1, restore_wf _ _ ih.2.1 (ih.2.2 _ hs), fun _ e => nomatch e⟩
  | reboot fs _ _ h1 h2 _ _ h5 ih =>
    rw [h1, h2, h5]
    exact ⟨Eq.refl _, keepRows_wf fs _ ih.2.1, fun _ e => nomatch e⟩

/-! ## Records -/

/-- The record under a JSN. -/
theorem find_map {rs : List Rec} {j : Nat} {r : Rec} (f : Rec → Rec) (h : rs.find? (·.jsn == j) = some r)
    (k : ∀ x, x ∈ rs → ((f x).jsn == j) = (x.jsn == j)) : (rs.map f).find? (·.jsn == j) = some (f r) := by
  induction rs with
  | nil => simp at h
  | cons y t ih =>
    have e := k y (by simp)
    rw [List.find?_cons] at h
    rw [List.map_cons, List.find?_cons, e]
    split at h
    · cases h; rfl
    · exact ih h fun x hx => k x (by simp [hx])

/-- The record of a resolved event stays under its JSN, and says what it said, through every move of the records. -/
theorem RecMove.resolved {rs rs' : List Rec} {k n : Nat} (h : RecMove (rs, k) (rs', n)) {j : Nat} {r : Rec}
    (hr : rs.find? (·.jsn == j) = some r) (hp : r.phase = 3) :
    ∃ r', rs'.find? (·.jsn == j) = some r' ∧ r'.phase = 3 ∧ r'.said = r.said := by
  have hj : r.jsn = j := by simpa using List.find?_some hr
  cases h with
  | accept _ _ _ x e p => exact ⟨r, by rw [List.find?_append, hr]; rfl, hp, rfl⟩
  | acc _ _ first k =>
    refine ⟨_, find_map _ hr (fun x _ => by split <;> rfl), ?_⟩
    split <;> exact ⟨hp, rfl⟩
  | commit _ _ old new f p =>
    have ne : new.jsn ≠ j := by
      intro e; rw [e, hr] at f; cases f; exact p hp
    refine ⟨_, find_map _ hr (fun x _ => ?_), ?_⟩
    · split
      · next e => rw [e]
      · rfl
    · rw [if_neg (fun e => ne (e.symm.trans hj))]; exact ⟨hp, rfl⟩
  | restart _ _ t =>
    refine ⟨_, find_map _ hr (fun x _ => by split <;> rfl), ?_⟩
    rw [if_pos hp]; exact ⟨hp, rfl⟩

/-- The record of a resolved event stays under its JSN, and says what it said, where no command collects records. -/
theorem Moves.resolved {L : List Part} {m x : Chip} (h : Moves L m x) (c : Part.collect ∉ L) {j : Nat} {r : Rec}
    (hr : m.jour.recs.find? (·.jsn == j) = some r) (hp : r.phase = 3) :
    ∃ r', x.jour.recs.find? (·.jsn == j) = some r' ∧ r'.phase = 3 ∧ r'.said = r.said := by
  induction h with
  | refl => exact ⟨r, hr, hp, rfl⟩
  | recs rs n _ _ mv ih =>
    obtain ⟨r', a, b, e⟩ := ih
    obtain ⟨r2, a2, b2, e2⟩ := mv.resolved a b
    exact ⟨r2, a2, b2, e2.trans e⟩
  | collect _ _ hp _ _ => exact absurd hp c
  | upd _ u ih => rw [u.recs]; exact ih
  | reboot _ _ _ _ _ h3 _ _ ih => rw [h3]; exact ih
  | wr _ _ _ _ _ ih => exact ih
  | drop _ _ _ _ ih => exact ih
  | byte _ _ _ _ ih => exact ih
  | clear _ _ _ _ ih => exact ih
  | wipe _ _ ih => exact ih
  | save _ _ _ ih => exact ih
  | restore _ _ _ _ _ ih => exact ih

end Sys2Proof.Machine
end

