-- ==== Sys2Proof/Laws/Ops.lean ====
section
/-! SUPPORT. The laws of the shared operations: bits, flags with their notice, and the registers that a chain of operations leaves alone. -/

namespace Sys2Proof.Machine

/-! ## Bits -/

theorem bitAt_setBit (n b : Nat) : bitAt (setBit n b) b = true := by
  simp [bitAt, setBit, Nat.testBit_or]

theorem bitAt_setBit_mod (n b w : Nat) (h : b < w) : bitAt (setBit n b % 2 ^ w) b = true := by
  simp [bitAt, setBit, Nat.testBit_mod_two_pow, Nat.testBit_or, h]

theorem bitAt_clrBit (n b : Nat) : bitAt (clrBit n b) b = false := by
  unfold bitAt clrBit
  by_cases h : n.testBit b
  · rw [if_pos h, Nat.one_shiftLeft, Nat.testBit_eq_decide_div_mod_eq] at *
    have h : n / 2 ^ b % 2 = 1 := by simpa using h
    have p := Nat.two_pow_pos b
    have e : (n - 2 ^ b) / 2 ^ b = n / 2 ^ b - 1 := by
      rw [show n - 2 ^ b = n - 2 ^ b * 1 by omega, Nat.sub_mul_div]
    rw [e]
    simp only [decide_eq_false_iff_not]
    omega
  · rw [if_neg h]; simpa using h

/-! ## Registers under a chain of operations -/

theorem SameRegs.rfl (b : List (Field × Nat)) (p : List Part) (x : Chip) : SameRegs b p x x := fun _ _ _ _ => Eq.refl _

theorem SameRegs.trans {b : List (Field × Nat)} {p : List Part} {x y z : Chip} (h : SameRegs b p x y) (g : SameRegs b p y z) :
    SameRegs b p x z := fun f i q r => (g f i q r).trans (h f i q r)

/-- A write of a named field. -/
theorem SameRegs.wr {b : List (Field × Nat)} {p : List Part} {x y : Chip} {f : Field} {i v : Nat} (h : SameRegs b p x y)
    (hm : f.part ∈ p ∨ (f, i) ∈ b) : SameRegs b p x (y.wr f i v) := by
  intro g j q r
  refine Eq.trans ?_ (h g j q r)
  rcases hm with k | k
  · exact rd_wr_part _ _ _ _ _ _ fun e => q (e ▸ k)
  · by_cases e : g.id = f.id
    · exact Chip.rd_wr_at _ _ _ _ _ _ (r _ k e)
    · exact Chip.rd_wr_ne _ _ _ _ _ _ e

/-- Operations on named blocks. -/
theorem SameRegs.moves {b : List (Field × Nat)} {p L : List Part} {x y z : Chip} (h : SameRegs b p x y) (m : Moves L y z)
    (w : (L.all fun q => p.contains q || !regParts.contains q) = true) : SameRegs b p x z := by
  intro f i q r
  refine Eq.trans (m.rd f i fun k => ?_) (h f i q r)
  have := List.all_eq_true.1 w f.part k
  simp only [Bool.or_eq_true, Bool.not_eq_true', List.contains_eq_mem, decide_eq_true_eq, decide_eq_false_iff_not] at this
  exact this.elim q fun e => e f.part_mem

theorem SameRegs.regs {b : List (Field × Nat)} {p : List Part} {x y z : Chip} (h : SameRegs b p x y) (e : z.regs = y.regs) :
    SameRegs b p x z := fun f i q r => (rd_regs e f i).trans (h f i q r)

theorem Chip.rd_ite (c : Prop) [Decidable c] (x y : Chip) (f : Field) (i : Nat) :
    Chip.rd (if c then x else y) f i = if c then x.rd f i else y.rd f i := by
  split <;> exact Eq.refl _

/-! ## Flags (R386) -/

/-- The registers outside the interrupt block are as before an occurrence. -/
theorem Chip.occur_rd (m : Chip) (n : Nat) (f : Field) (i : Nat) (h : f.part ≠ .rInt) : (m.occur n).rd f i = m.rd f i := by
  refine (Chip.occur_moves .refl (within_refl _)).rd f i ?_
  have := f.part_mem
  intro k
  simp only [List.mem_cons, List.not_mem_nil, or_false] at k
  rcases k with k | k | k | k | k
  · exact h k
  all_goals rw [k] at this; revert this; decide

theorem Chip.setFlag_rd_ne (m : Chip) (fl : Field) (i b : Nat) (f : Field) (j : Nat) (g : f.id ≠ fl.id) :
    (m.setFlag fl i b).rd f j = m.rd f j := Chip.rd_wr_ne _ _ _ _ _ _ g

theorem Chip.setFlag_rd_at (m : Chip) (fl : Field) (i b : Nat) (f : Field) (j : Nat) (g : j ≠ i) :
    (m.setFlag fl i b).rd f j = m.rd f j := Chip.rd_wr_at _ _ _ _ _ _ g

theorem Chip.setFlag_rd_same (m : Chip) (fl : Field) (i b : Nat) :
    (m.setFlag fl i b).rd fl i = setBit (m.rd fl i) b % 2 ^ fl.w := Chip.rd_wr_same _ _ _ _

theorem Chip.raise_rd_ne (m : Chip) (fl ie : Field) (i b src : Nat) (f : Field) (j : Nat) (h : f.part ≠ .rInt) (g : f.id ≠ fl.id) :
    (m.raise fl ie i b src).rd f j = m.rd f j := by
  unfold Chip.raise
  dsimp only
  split
  · rw [Chip.occur_rd _ _ _ _ h, Chip.setFlag_rd_ne _ _ _ _ _ _ g]
  · exact Chip.setFlag_rd_ne _ _ _ _ _ _ g

theorem Chip.raise_rd_at (m : Chip) (fl ie : Field) (i b src : Nat) (f : Field) (j : Nat) (h : f.part ≠ .rInt) (g : j ≠ i) :
    (m.raise fl ie i b src).rd f j = m.rd f j := by
  unfold Chip.raise
  dsimp only
  split
  · rw [Chip.occur_rd _ _ _ _ h, Chip.setFlag_rd_at _ _ _ _ _ _ g]
  · exact Chip.setFlag_rd_at _ _ _ _ _ _ g

theorem Chip.raise_rd_same (m : Chip) (fl ie : Field) (i b src : Nat) (h : fl.part ≠ .rInt) :
    (m.raise fl ie i b src).rd fl i = setBit (m.rd fl i) b % 2 ^ fl.w := by
  unfold Chip.raise
  dsimp only
  split
  · rw [Chip.occur_rd _ _ _ _ h, Chip.setFlag_rd_same]
  · exact Chip.setFlag_rd_same _ _ _ _

/-- A bit that hardware sets in a cycle stands through a write of 1 in the same cycle (R10). -/
theorem Chip.setNow_setFlag (m : Chip) (f : Field) (i b : Nat) : bitAt ((m.setFlag f i b).setNow f i) b = true := by
  have keep : ∀ (l : List (Nat × Nat × Nat)) (a : Nat), bitAt a b = true →
      bitAt (l.foldl (fun a x => if x.1 = f.id ∧ x.2.1 = i then setBit a x.2.2 else a) a) b = true := by
    intro l
    induction l with
    | nil => exact fun _ h => h
    | cons x r ih =>
      intro a h
      refine ih _ ?_
      dsimp only
      split
      · simp only [bitAt, setBit, Nat.testBit_or] at h ⊢
        simp [h]
      · exact h
  have e : (m.setFlag f i b).cycle.sets = (f.id, i, b) :: m.cycle.sets := by
    have t : m.cycle.tb = m.tb := by unfold Chip.cycle; split <;> simp_all
    show (Chip.cycle ((m.wr f i _).setCycle _)).sets = _
    unfold Chip.cycle Chip.setCycle at *
    simp_all
  unfold Chip.setNow
  rw [e, List.foldl_cons]
  exact keep _ _ (by rw [if_pos ⟨rfl, rfl⟩]; exact bitAt_setBit 0 b)

/-- The flag stands after it was raised. -/
theorem Chip.raise_bit (m : Chip) (fl ie : Field) (i b src : Nat) (h : fl.part ≠ .rInt) (w : b < fl.w) :
    bitAt ((m.raise fl ie i b src).rd fl i) b = true := by
  rw [Chip.raise_rd_same _ _ _ _ _ _ h, bitAt_setBit_mod _ _ _ w]

theorem SameRegs.setFlag {b : List (Field × Nat)} {p : List Part} {x y : Chip} {f : Field} {i k : Nat} (h : SameRegs b p x y)
    (hm : f.part ∈ p ∨ (f, i) ∈ b) : SameRegs b p x (y.setFlag f i k) := (h.wr hm).regs (Eq.refl _)

theorem SameRegs.raise {b : List (Field × Nat)} {p : List Part} {x y : Chip} {fl ie : Field} {i k src : Nat} (h : SameRegs b p x y)
    (hi : Part.rInt ∈ p) (hm : fl.part ∈ p ∨ (fl, i) ∈ b) : SameRegs b p x (y.raise fl ie i k src) := by
  unfold Chip.raise
  dsimp only
  split
  · exact (h.setFlag hm).moves (Chip.occur_moves .refl (within_refl _)) (by simp [hi, regParts])
  · exact h.setFlag hm

end Sys2Proof.Machine
end

