-- ==== Sys2Proof/WellFormed.lean ====
section
/-! DEFINITION. Well-formed commands: operands within the bounds that the manual gives and no type states. -/

namespace Sys2Proof

/-- A word address of the host view. -/
def wordAligned (a : Nat) : Bool := a % 4 == 0

/-- A codeword corrects at most 40 bit errors (R290). -/
def correctable (c : Option Nat) : Bool := c.all fun n => decide (n ≤ 40)

/-- An end of a NAND operation. -/
def NandEnd.wf : NandEnd → Bool
  | .read _ c => correctable c
  | _ => true

/-- What a target announces: factory defect marks name its own blocks (R288). -/
def NandPage.wf (p : NandPage) : Bool := p.factoryBad.all fun b => decide (b < p.blocks)

/-- The bytes of a whole write frame: header, data, DCRC (R309, R311). -/
def writeFrameLen (n : Nat) : Bool := decide (14 ≤ n) && decide (n ≤ 4106) && (n - 10) % 4 == 0

/-- Arrivals of an interrupt entry come in cycle order (R393). -/
def cycleOrder (l : List (Fin 6 × Src)) : Bool :=
  match l with
  | [] => true
  | (c, _) :: r => r.all (fun x => decide (c.val ≤ x.1.val)) && cycleOrder r

/-- A command's operands are in their bounds. -/
def Instr.wf : Instr → Bool
  | .sramParityRead _ _ addr _ => wordAligned addr && decide (addr < 0x1000000)
  | .registerWrite _ addr _ => wordAligned addr.toNat
  | .rcRead addr => wordAligned addr.toNat
  | .captureLaneDone _ _ samples => decide (samples.length ≤ 262144)
  | .tileLoadDone presc slot _ => decide (slot < if presc then 64 else 24)
  | .nandMount t0 t1 _ => t0.all NandPage.wf && t1.all NandPage.wf
  | .nandOperationDone _ e => e.wf
  | .nandPatrolRead _ _ c _ => correctable c
  | .writeFrame _ bytes => writeFrameLen bytes.length
  | .readFrame _ bytes => bytes.length == 8
  | .syncFrame _ bytes _ => bytes.length == 8
  | .selfTest _ t0 _ _ _ banks => t0.length == 616 && banks.length == 24 && banks.all fun t => t.nodes.length == 8
  | .interruptEntry _ arrivals => cycleOrder arrivals
  | _ => true

end Sys2Proof
end

