-- ==== Sys2Proof/Tests/Slice0.lean ====
section
/-! SUPPORT. Tests: the bounds that Instr.wf refuses; values that the manual's own examples give; for every statement with hypotheses, a
state and operands that meet them. -/

-- One theorem at a time: each elaboration thread reserves a stack of its own.
set_option Elab.async false

namespace Sys2Proof.Machine

/-- A state with some fields set. -/
def st (l : List (Field × Nat × Nat)) (s : State := State.reset) : State := { s with chip := l.foldl (fun m p => m.wr p.1 p.2.1 p.2.2) s.chip }

/-- A state with its block changed. -/
def State.on (s : State) (f : Chip → Chip) : State := { s with chip := f s.chip }

/-- What a command leaves shows a property. -/
def after (i : Instr) (s : State) (p : Chip → Bool) : Bool :=
  match exec i s with
  | .next t => p t.chip
  | _ => false

end Sys2Proof.Machine

open Sys2Proof Sys2Proof.Machine

/-! ## Ill-formed commands -/

theorem test_wf_refuses_parity_address_aligned : Instr.wf (.sramParityRead .hostA .window 0x800002 0) = false := by decide
theorem test_wf_refuses_parity_address_in_space : Instr.wf (.sramParityRead .hostA .window 0x1000000 0) = false := by decide
theorem test_wf_refuses_write_aligned : Instr.wf (.registerWrite .hostA 0x680001 0) = false := by decide
theorem test_wf_refuses_read_aligned : Instr.wf (.rcRead 0x680003) = false := by decide
theorem test_wf_refuses_capture_length : Instr.wf (.captureLaneDone 0 0 (List.replicate 262145 0)) = false := by
  simp only [Instr.wf, List.length_replicate]; decide
theorem test_wf_refuses_tile_slot : Instr.wf (.tileLoadDone false 24 false) = false := by decide
theorem test_wf_refuses_tile_slot_presc : Instr.wf (.tileLoadDone true 64 false) = false := by decide
theorem test_wf_refuses_mount_t0 : Instr.wf (.nandMount (some ⟨true, 1, 1, 8, 4096, 290, 25, 300, 3000, 5, 6, 2048, 60000, [2048]⟩) none []) = false := by decide
theorem test_wf_refuses_mount_t1 : Instr.wf (.nandMount none (some ⟨true, 1, 1, 8, 4096, 290, 25, 300, 3000, 5, 6, 2048, 60000, [2048]⟩) []) = false := by decide
theorem test_wf_refuses_read_corrected : Instr.wf (.nandOperationDone 0 (.read 1 (some 41))) = false := by decide
theorem test_wf_refuses_patrol_corrected : Instr.wf (.nandPatrolRead 0 1 (some 41) false) = false := by decide
theorem test_wf_refuses_write_frame_short : Instr.wf (.writeFrame .a (List.replicate 13 0)) = false := by decide
theorem test_wf_refuses_write_frame_ragged : Instr.wf (.writeFrame .a (List.replicate 15 0)) = false := by decide
theorem test_wf_refuses_write_frame_long : Instr.wf (.writeFrame .a (List.replicate 4110 0)) = false := by
  simp only [Instr.wf, List.length_replicate]; decide
theorem test_wf_refuses_read_frame : Instr.wf (.readFrame .a [0]) = false := by decide
theorem test_wf_refuses_sync_frame : Instr.wf (.syncFrame .a [] 0) = false := by decide
theorem test_wf_refuses_test_banks : Instr.wf (.selfTest 0 (List.replicate 616 0) 0 0 0 []) = false := by
  simp only [Instr.wf, List.length_replicate]; decide
theorem test_wf_refuses_test_cells : Instr.wf (.selfTest 0 [] 0 0 0 (List.replicate 24 ⟨0, false, List.replicate 8 (0, 0)⟩)) = false := by
  simp only [Instr.wf, List.length_replicate]; decide
theorem test_wf_refuses_test_nodes : Instr.wf (.selfTest 0 (List.replicate 616 0) 0 0 0 (List.replicate 24 ⟨0, false, []⟩)) = false := by
  simp only [Instr.wf, List.length_replicate]; decide
theorem test_wf_refuses_arrival_order : Instr.wf (.interruptEntry .v [(1, 3), (0, 4)]) = false := by decide

/-! ## Values of the manual's examples -/

/-- R310: the CRC of the nine ASCII bytes 123456789. -/
theorem test_crc16 : crc16 [0x31, 0x32, 0x33, 0x34, 0x35, 0x36, 0x37, 0x38, 0x39] = 0x29B1 := by decide +kernel

/-- 08: the point E = 412,345, N = 64,600 lies in tile (6, 1), byte 1030, bits [7:6]; its prescription byte at offset 28. -/
theorem test_cells : (412345 / 64000, 64600 / 64000) = ((6, 1) : Int × Int) ∧ covByte (cellOf 64600 100) (cellOf 412345 100) = 1030 ∧
    covBit (cellOf 412345 100) = 6 ∧ cellOf 64600 1000 * 64 + cellOf 412345 1000 = 28 := by decide

/-- 04: t_meas moves from 840,000 to 844,000 TB on a measurement of 856,000 TB with SHIFT = 2. -/
theorem test_t_meas : (((State.reset.on fun m => (m.wr CH_ADV_SHIFT 40 2).setChan 40 { m.chan 40 with tMeas := 840000 }).chip.measure 40 856000).chan 40).tMeas =
    844000 := by decide

/-- 12: +1.2345 mV gives 4142, right-aligned 0x102E; -1.2345 mV gives 0xFFFF_EFD2 and, left-aligned, 0xFFEF_D200. -/
theorem test_adc_codes : adcCode true 1234500 = 4142 ∧ adcWord false 4142 = 0x102E ∧ adcWord false (adcCode true (-1234500)) = 0xFFFFEFD2 ∧
    adcWord true (adcCode true (-1234500)) = 0xFFEFD200 := by decide

/-- 07: a mean of 4380 us against 4200 us is a drift of 180 us, 30 % of the limit of 600 us. -/
theorem test_wear_drift : ({ inputs := 10000, sum0 := 10000 * 840000, last := [876000, 876000] } : Wear).index = 30 := by decide +kernel

/-- 07: C_NODE = 100 nF, 48 V against 24 V and a step of 60 mV give 50 mOhm. -/
theorem test_esr : ((st [(BCAP_CFG_C_NODE, 0, 100), (BST_V, 0, 4800), (BK_V_VBK, 5, 2400)]).on fun m =>
    { m with bcap := { phase := some (5, 6) } }).chip.esrNow = some 50 := by decide

/-- 12: with LO = 400, HI = 600, HYS = 8 a comparator that is INSIDE stays so at 395, leaves below 392 and above 607. -/
theorem test_bands : windowNext 1 400 600 8 395 = 1 ∧ windowNext 1 400 600 8 391 = 0 ∧ windowNext 1 400 600 8 608 = 2 := by decide

/-- R36, R130: HOST-B ranks above HOST-A, HOST-A above Anvil-C. -/
theorem test_ranks : ownerRank 0 < ownerRank 1 ∧ ownerRank 1 < ownerRank 2 := by decide

/-! ## One step of some commands, with values worked out from the rules -/

/-- R351: with HEAD = TAIL the queue is empty, so a head of 1 is refused. -/
theorem test_head_refused : after (.hpQHeadWrite .a 1) State.reset (fun m => m.rd HP_Q_HEAD 0 == 0 && bitAt (m.rd HP_FLAGS 0) 10) = true := by decide

/-- R326: a door while Gelow is down answers 0xE4. -/
theorem test_door_down : after (.mbDoor 0 1) State.reset (fun m => m.rd MB_INFO_DOOR_RES 0 == 0xE4) = true := by decide

/-- R314: a frame cut within its header counts. -/
theorem test_cut : after (.frameCut .b [0, 0] false) State.reset (fun m => m.rd HP_CNT_CUT 1 == 1) = true := by decide

/-- R376: the heartbeat takes the TB. -/
theorem test_heartbeat : after .journalHeartbeat (State.reset.on fun m => { m with tb := 77 }) (fun m => m.jour.heartbeat == 77) = true := by decide

/-- R7: a write of 1 clears a W1C bit and leaves the others. -/
theorem test_w1c : after (.registerWrite .hostA 0x8 1) (st [(HP_FLAGS, 0, 3)]) (fun m => m.rd HP_FLAGS 0 == 2) = true := by decide

/-- R38: an address that no block decodes ignores writes. -/
theorem test_undecoded : after (.registerWrite .hostA 0x1C0000 5) State.reset (fun m => decide (m = State.reset.chip)) = true := by
  decide +kernel

/-- R7: a read of an RC field clears it. -/
theorem test_rc : after (.rcRead 0x10) (st [(HP_CNT_CRC, 0, 9)]) (fun m => m.rdata == 9 && m.rd HP_CNT_CRC 0 == 0) = true := by decide

/-- A step on an empty queue counts TB. -/
theorem test_idle : (match step State.reset with
  | .next t => t.chip.tb == State.reset.chip.tb + 1
  | _ => false) = true := by decide

/-! ## The statements' hypotheses can be met -/

theorem witness_StepKeepsForm : ∃ s t : State, Wf s ∧ step s = .next t :=
  ⟨State.reset, _, ⟨by decide, by decide, fun _ h => nomatch h⟩, rfl⟩

theorem witness_ResolvedRecordStands : ∃ (s t : State) (j : Nat) (r : Rec), (∀ x, s.pending.head? ≠ some (.journalCollect x)) ∧
    s.chip.rec? j = some r ∧ r.phase = 3 ∧ step s = .next t :=
  let r : Rec := { jsn := 9, owner := 1, opcode := 0x301, ch := 3, tag := 0, target := 77, mbx := 0, seq := 0, first := 9, slot := 0, phase := 3 }
  ⟨{ (State.reset.on fun m => { m with jour := { recs := [r] } }) with pending := [.journalHeartbeat] }, _, 9, r, by decide, by decide, rfl, rfl⟩

theorem witness_CollectionFreesRecords : (∃ (x : Mbx) (s : State), s.chip.isNext x.val 0x0702 = true ∧
      payNat (s.chip.mbPay x.val) 0 6 ≤ tabGet s.chip.jour.newest (mbOwner x.val) 0) ∧
    ∃ (i : Instr) (s t : State) (j : Nat), (∀ x, i ≠ .journalCollect x) ∧ exec i s = .next t ∧ ∃ r, r ∈ s.chip.jour.recs ∧ r.jsn = j :=
  let r : Rec := { jsn := 9, owner := 1, opcode := 0x301, ch := 3, tag := 0, target := 77, mbx := 0, seq := 0, first := 9, slot := 0, phase := 3 }
  ⟨⟨0, State.reset.on fun m => ({ m with gelow := { up := true, batch := [0] }, jour := { newest := [(1, 9)] } }.store (mbBase 0)
      [2, 7, 6, 0, 1, 0, 0, 0, 9, 0, 0, 0, 0, 0]), by decide⟩,
    .journalHeartbeat, State.reset.on fun m => { m with jour := { recs := [r] } }, _, 9, (by intro x h; cases h), rfl, r, by decide, rfl⟩

theorem witness_StepTakesTheFront : ∃ s : State, s.pending = [] := ⟨State.reset, rfl⟩

theorem witness_WheelFrontEndArms : ∃ (n : Fin 16) (mv : Nat) (s : State), (s.chip.rd WHL_FE_FE n.val = 0) ∧ (thrEighths (s.chip.rd
  WHL_FE_THR_FRAC n.val) * (s.chip.wheel n.val).peak * 10 < mv * 8) ∧ (s.chip.rd WHL_FE_VR_MIN n.val * 10 < mv) :=
  ⟨3, 501, st [(WHL_FE_FE, 3, 0), (WHL_FE_VR_MIN, 3, 50)], by decide⟩

theorem witness_WheelStates :
    (∃ (n : Whl) (s : State), (s.chip.rd WHL_STAT_STATE n.val ≠ 0) ∧ (s.chip.rd WHL_TIMEOUT_STOP_TMO n.val ≠ 0) ∧ (s.chip.rd WHL_STAT_STOP
      n.val = 0) ∧ ((s.chip.wheel n.val).idleFrom + s.chip.rd WHL_TIMEOUT_STOP_TMO n.val * msTb ≤ s.chip.tb)) ∧
    (∃ (n : Whl) (s : State), (s.chip.rd WHL_STAT_STATE n.val = 3) ∧ (s.chip.whlRef n.val ≠ 0) ∧ ((s.chip.wheel n.val).idxPend = none) ∧
      (s.chip.whlRefPassed n.val = true)) ∧
    (∃ (n : Whl) (s : State), (s.chip.whlMayExit n.val = true) ∧ (s.chip.rd WHL_CFG_LATCH_FLT n.val = 0)) ∧
    (∃ (n : Whl) (s : State), (s.chip.rd WHL_CFG_LATCH_FLT n.val = 1)) ∧
    (∃ (who : Writer) (n : Whl) (s : State), (s.chip.geomOk who = true) ∧ (s.chip.whlMayExit n.val = true)) ∧
    (∃ (who : Writer) (n : Whl) (s : State), (s.chip.geomOk who = true) ∧ (s.chip.rd WHL_STAT_STATE n.val = 3 ∨ s.chip.rd WHL_STAT_STATE
      n.val = 4) ∧ ((s.chip.wheel n.val).idxPend = none) ∧ ((s.chip.wheel n.val).undo = none)) :=
  ⟨⟨63, (st [(WHL_STAT_STATE, 63, 2), (WHL_TIMEOUT_STOP_TMO, 63, 1)]).on fun m => { m with tb := 200000 }, by decide⟩,
    ⟨0, st [(WHL_STAT_STATE, 0, 3), (WHL_CFG_REF, 0, 1), (WHL_TEETH_TEETH, 0, 60), (WHL_TEETH_IDX_TOL, 0, 2), (WHL_CNT, 0, 63)], by decide⟩,
    ⟨5, st [(WHL_STAT_STATE, 5, 1)], by decide⟩,
    ⟨5, st [(WHL_STAT_STATE, 5, 1), (WHL_CFG_LATCH_FLT, 5, 1)], by decide⟩,
    ⟨.hostA, 5, st [(PROT_ROLE_GEOM, 0, 1), (PROT_DW, 0, 7), (WHL_STAT_STATE, 5, 1), (WHL_CFG_LATCH_FLT, 5, 1)], by decide⟩,
    ⟨.hostB, 1, st [(PROT_ROLE_GEOM, 0, 2), (PROT_DW, 0, 7), (WHL_STAT_STATE, 1, 4), (WHL_CNT, 1, 77)], by decide⟩⟩

theorem witness_WheelCommandsAndSnapshots :
    (∃ (who : Writer) (n : Whl) (w : Word) (s : State), (s.chip.geomOk who = false)) ∧
    (∃ (who : Writer) (n : Whl) (w : Word) (s : State), (s.chip.geomOk who = true) ∧ (s.chip.rd WHL_STAT_STATE n.val ≠ 0) ∧ (wordField
      WHL_CFG_MODE w.toNat = 0)) ∧
    (∃ (who : Writer) (n : Whl) (w : Word) (s : State), (s.chip.geomOk who = true) ∧ (s.chip.rd WHL_STAT_STATE n.val = 0) ∧ (wordField
      WHL_CFG_MODE w.toNat = 1) ∧ (s.chip.rd WHL_TEETH_TEETH n.val < 2)) ∧
    (∃ (who : Writer) (n : Whl) (w : Word) (s : State), (s.chip.geomOk who = true) ∧ (s.chip.rd WHL_STAT_STATE n.val = 0) ∧ (wordField
      WHL_CFG_MODE w.toNat = 5) ∧ (wordField WHL_CFG_REF w.toNat = 0) ∧ (wordField WHL_CFG_DIR_SRC w.toNat = 0) ∧ (s.chip.whlHome n.val =
      n.val) ∧ (s.chip.rd WHL_STAT_COND n.val = 0) ∧ ((s.chip.wheel n.val).revSlope = false)) ∧
    (∃ (n : Whl) (s : State), ((s.chip.wheel n.val).idxPend = none)) :=
  ⟨⟨.hostA, 0, 1, st [(PROT_ROLE_GEOM, 0, 2), (PROT_DW, 0, 7)], by decide⟩,
    ⟨.hostA, 2, 0xFFF8, st [(PROT_ROLE_GEOM, 0, 1), (PROT_DW, 0, 7), (WHL_CFG_MODE, 2, 1), (WHL_STAT_STATE, 2, 3), (WHL_CNT, 2, 9)], by decide⟩,
    ⟨.hostA, 2, 1, st [(PROT_ROLE_GEOM, 0, 1), (PROT_DW, 0, 7), (WHL_TEETH_TEETH, 2, 1)], by decide⟩,
    ⟨.hostA, 2, 5, st [(PROT_ROLE_GEOM, 0, 1), (PROT_DW, 0, 7), (WHL_CNT, 2, 9)], by decide⟩,
    ⟨3, (st [(WHL_IDX_LATCH, 3, 7)]).on fun m => m.setWheel 3 { idxTb := 0x500000009 }, by decide⟩⟩

theorem witness_WheelEdgesAndTests :
    (∃ (n : Whl) (x : Int) (held : Nat) (steep both : Bool) (s : State), (s.chip.clockOk islObserver = true) ∧ (s.chip.whlHome n.val =
      n.val) ∧ (s.chip.rd WHL_CFG_MODE n.val = 1) ∧ (s.chip.rd WHL_CFG_REF n.val = 0) ∧ (s.chip.rd WHL_CFG_DIR_SRC n.val = 0) ∧ (s.chip.rd
      WHL_FE_FE n.val = 1) ∧ (s.chip.whlHeldLine n.val = false) ∧ ((s.chip.whlComp n.val x != s.chip.rdB WHL_FE_INV n.val) = (s.chip.rd
      WHL_CFG_EDGE n.val == 0)) ∧ ((s.chip.wheel n.val).line = !(s.chip.rd WHL_CFG_EDGE n.val == 0)) ∧ (s.chip.rd WHL_FE_FILT n.val * 8 ≤
      held) ∧ ((s.chip.wheel n.val).lastTb = none) ∧ ((s.chip.wheel n.val).idxPend = none) ∧ ((s.chip.wheel n.val).dirPend = none)) ∧
    (∃ (n : Whl) (t0 : Nat) (s : State), ((s.chip.wheel n.val).leadTb = some t0) ∧ (s.chip.rd WHL_CFG_DIR_SRC n.val = 2) ∧ (t0 + 4096 *
      usTb ≤ s.chip.tbOf islObserver) ∧ ((s.chip.wheel n.val).lastTb = none) ∧ (s.chip.rd WHL_CFG_REF n.val = 0)) ∧
    (∃ (n : Whl) (up down : Bool) (s : State), (s.chip.due .whlPull n.val = true) ∧ (s.chip.rd WHL_FE_FE n.val = 1) ∧ (s.chip.rd
      WHL_FE_PULL n.val = 3) ∧ (s.chip.whlHeldLine n.val = false)) ∧
    (∃ (n : Whl) (p : WhlPins) (s : State), (s.chip.due .whlDiag n.val = true) ∧ (s.chip.clockOk islObserver = true) ∧ (s.chip.rd
      WHL_FE_DIAG_EN n.val = 0)) ∧
    (∃ (n : Whl) (p : WhlPins) (i : Fin 8) (s : State), (s.chip.due .whlDiag n.val = true) ∧ (s.chip.clockOk islObserver = true) ∧
      (s.chip.rd WHL_FE_DIAG_EN n.val = 1) ∧ (s.chip.whlHome n.val = n.val) ∧ (quadMode (s.chip.whlMode n.val) = false) ∧ ((s.chip.wheel
      n.val).present.length = 8) ∧ ((s.chip.wheel n.val).stands.length = 8) ∧ ((s.chip.whlTests n.val p).getD i.val false = true) ∧ (1 ≤
      (s.chip.wheel n.val).present.getD i.val 0)) ∧
    (∃ (n : Whl) (p : WhlPins) (s : State), (s.chip.due .whlDiag n.val = true) ∧ (s.chip.clockOk islObserver = true) ∧ (s.chip.rd
      WHL_FE_DIAG_EN n.val = 1) ∧ (s.chip.whlHome n.val = n.val) ∧ (quadMode (s.chip.whlMode n.val) = false) ∧ ((s.chip.wheel
      n.val).stands = List.replicate 8 false) ∧ ((s.chip.wheel n.val).present.length = 8) ∧ (s.chip.whlTests n.val p = List.replicate 8
      false) ∧ ((s.chip.wheel n.val).revSlope = false)) ∧
    (∃ (n : Whl) (term : Int) (s : State), (s.chip.due .whlInterp n.val = true) ∧ (s.chip.rd WHL_STAT_STATE n.val ≠ 0) ∧ (s.chip.whlTc
      n.val ≠ 0) ∧ (s.chip.rd WHL_STAT_STOP n.val = 0) ∧ ((s.chip.wheel n.val).lastStart = false) ∧ ((s.chip.wheel n.val).idxPend = none)
      ∧ ((s.chip.wheel n.val).dirPend = none) ∧ (term = minI (s.chip.whlRoom n.val) (4294967296 * ((s.chip.tbOf islObserver : Int) -
      (s.chip.wheel n.val).edgeTb) / (max 1 (s.chip.rd WHL_IVL n.val) * s.chip.whlTc n.val : Nat)))) :=
  ⟨⟨4, 5000, 80, false, false, (st [(WHL_CFG_MODE, 4, 1), (WHL_FE_FE, 4, 1), (WHL_FE_FILT, 4, 10), (WHL_DIRSET_DIR, 4, 1), (WHL_STAT_STATE, 4, 2), (WHL_STAT_STOP, 4, 1)]).on fun m => { m with tb := 5000 }, by decide⟩,
    ⟨4, 100, (st [(WHL_CFG_DIR_SRC, 4, 2), (WHL_CFG_MODE, 4, 1), (WHL_STAT_STATE, 4, 2)]).on fun m => { m.setWheel 4 { leadTb := some 100 } with tb := 819300 }, by decide⟩,
    ⟨9, true, true, st [(WHL_FE_FE, 9, 1), (WHL_FE_PULL, 9, 3)], by decide⟩,
    ⟨9, ⟨0, 0, -40000, 0, 500⟩, st [(WHL_FE_FE, 9, 2), (WHL_FE_DIAG_EN, 9, 0)], by decide⟩,
    ⟨9, ⟨0, 0, 7000, 0, 0⟩, 5, (st [(WHL_FE_FE, 9, 1), (WHL_FE_DIAG_EN, 9, 1), (WHL_CFG_MODE, 9, 1), (WHL_STAT_STATE, 9, 2)]).on fun m => m.setWheel 9 { present := [0, 0, 0, 0, 0, 1, 0, 0] }, by decide⟩,
    ⟨20, ⟨0, 0, 1000, 0, 0⟩, (st [(WHL_FE_FE, 20, 1), (WHL_FE_DIAG_EN, 20, 1), (WHL_CFG_MODE, 20, 1), (WHL_STAT_STATE, 20, 2)]).on fun m => m.setWheel 20 { present := [0, 0, 0, 0, 0, 1, 0, 0] }, by decide⟩,
    ⟨0, 42949672, (st [(WHL_STAT_STATE, 0, 3), (WHL_TEETH_TEETH, 0, 10), (WHL_IVL, 0, 1000)]).on fun m => { m.setWheel 0 { edgeTb := 0, lastStart := false } with tb := 100 }, by decide⟩⟩

theorem witness_MandrelSlots :
    (∃ (k : Ds) (r : EdgeRec) (rs : List EdgeRec) (s : State), ((s.chip.slot k.val).inbox = r :: rs) ∧ (r.stop = false) ∧ (r.start = true)
      ∧ (s.chip.rd MDL_SRC_STAT_STATE k.val ≠ 0) ∧ (s.chip.rd MDL_SRC_STAT_STATE k.val ≠ 5)) ∧
    (∃ (k : Ds) (s : State), (s.chip.rd MDL_SRC_CFG_EN k.val ≠ 0) ∧ (s.chip.rd MDL_SRC_CFG_TYPE k.val = 1) ∧ ((s.chip.slot k.val).wordTb +
      100 * msTb ≤ s.chip.tb) ∧ (s.chip.rd MDL_SRC_STAT_STATE k.val ≠ 0) ∧ (s.chip.rd MDL_SRC_STAT_STATE k.val ≠ 5)) ∧
    (∃ (k : Ds) (r : Int) (s : State), (s.chip.due .slip = true) ∧ (s.chip.chassisSlot k.val = true) ∧ (s.chip.rd MDL_SRC_STAT_STATE k.val
      = 2) ∧ (s.chip.vOthers k.val = some r) ∧ (slipFloor ≤ absI r)) ∧
    (∃ (who : Writer) (k : Ds) (w : Word) (s : State), (s.chip.geomOk who = true) ∧ (s.chip.rd MDL_SRC_CFG_EN k.val = 0) ∧ (wordField
      MDL_SRC_CFG_EN w.toNat = 1) ∧ (wordField MDL_SRC_CFG_TYPE w.toNat = 1) ∧ (s.chip.rd MDL_SRC_SCALE k.val ≠ 0)) ∧
    (∃ (who : Writer) (k : Ds) (w : Word) (s : State), (s.chip.geomOk who = true) ∧ (s.chip.rd MDL_SRC_CFG_EN k.val = 0) ∧ (wordField
      MDL_SRC_CFG_EN w.toNat = 1) ∧ (s.chip.rd MDL_SRC_SCALE k.val = 0)) ∧
    (∃ (who : Writer) (k : Ds) (w : Word) (s : State), (s.chip.geomOk who = true) ∧ (s.chip.rd MDL_SRC_CFG_EN k.val ≠ 0) ∧ (wordField
      MDL_SRC_CFG_EN w.toNat = 0)) :=
  ⟨⟨2, ⟨0, 50, 3, false, true, false, false, false, false, 2⟩, [], (st [(MDL_SRC_STAT_STATE, 2, 2), (MDL_SRC_SCALE, 2, 500), (MDL_SRC_CFG_SIGN, 2, 1)]).on fun m => m.setSlot 2 { inbox := [⟨0, 50, 3, false, true, false, false, false, false, 2⟩], v := 5 }, by decide⟩,
    ⟨7, (st [(MDL_SRC_CFG_EN, 7, 1), (MDL_SRC_CFG_TYPE, 7, 1), (MDL_SRC_STAT_STATE, 7, 2)]).on fun m => { m with tb := 20000000 }, by decide⟩,
    ⟨0, fx 300000, (st [(MDL_SRC_CFG_EN, 0, 1), (MDL_SRC_CFG_EN, 1, 1), (MDL_SRC_STAT_STATE, 0, 2), (MDL_SRC_STAT_STATE, 1, 2), (MDL_SRC_CFG_WEIGHT, 0, 1), (MDL_SRC_CFG_WEIGHT, 1, 1)]).on fun m => (m.setSlot 0 { v := fx 330000 }).setSlot 1 { v := fx 300000 }, by decide⟩,
    ⟨.hostA, 3, 3, st [(PROT_ROLE_GEOM, 0, 1), (PROT_ROLE_POSE, 0, 1), (PROT_DW, 0, 7), (MDL_SRC_SCALE, 3, 7)], by decide⟩,
    ⟨.hostA, 3, 3, st [(PROT_ROLE_GEOM, 0, 1), (PROT_ROLE_POSE, 0, 1), (PROT_DW, 0, 7), (MDL_SRC_SCALE, 3, 0)], by decide⟩,
    ⟨.hostA, 3, 0, st [(PROT_ROLE_GEOM, 0, 1), (PROT_ROLE_POSE, 0, 1), (PROT_DW, 0, 7), (MDL_SRC_CFG_EN, 3, 1), (MDL_SRC_V, 3, 1)], by decide⟩⟩

theorem witness_ChassisStates :
    (∃ (who : Writer) (w : Word) (s : State), (s.chip.geomOk who = true) ∧ (s.chip.rd MDL_CFG_EN = 0) ∧ (wordField MDL_CFG_EN w.toNat =
      1)) ∧
    (∃ (who : Writer) (w : Word) (s : State), (s.chip.geomOk who = true) ∧ (s.chip.rd MDL_CFG_EN = 1) ∧ (wordField MDL_CFG_EN w.toNat =
      0)) ∧
    (∃ (t0 : Nat) (s : State), (s.chip.mdl.lowSince = some t0) ∧ (s.chip.rd MDL_STAT_STATE = 2 ∨ s.chip.rd MDL_STAT_STATE = 3) ∧ (t0 +
      s.chip.rd MDL_STILL_STILL_MS * msTb ≤ s.chip.tb)) ∧
    (∃ (s : State), (s.chip.rd MDL_STAT_STATE = 5) ∧ (s.chip.mdl.coastAt + s.chip.rd MDL_CFG_COAST_MS * msTb ≤ s.chip.tb)) ∧
    (∃ (s : State), (s.chip.due .history = true) ∧ (s.chip.rd MDL_CFG_EN ≠ 0)) ∧
    (∃ (s : State), (s.chip.due .prediction = true) ∧ (s.chip.tb % 200 = 0) ∧ (s.chip.runs islObserver = true) ∧ (s.chip.rd MDL_CFG_EN ≠
      0) ∧ (s.chip.rd MDL_STAT_STATE = 5) ∧ (s.chip.slotsOn = [])) :=
  ⟨⟨.hostA, 1, (st [(PROT_ROLE_GEOM, 0, 1), (PROT_ROLE_POSE, 0, 1), (PROT_DW, 0, 7), (MDL_STAT_FIELD_OK, 0, 1)]).on fun m => { m with mdl := { m.mdl with s := 9 } }, by decide⟩,
    ⟨.hostA, 0, st [(PROT_ROLE_GEOM, 0, 1), (PROT_ROLE_POSE, 0, 1), (PROT_DW, 0, 7), (MDL_CFG_EN, 0, 1), (MDL_STAT_STATE, 0, 3)], by decide⟩,
    ⟨10, (st [(MDL_STAT_STATE, 0, 3), (MDL_STILL_STILL_MS, 0, 1)]).on fun m => { m with tb := 200010, mdl := { m.mdl with lowSince := some 10 } }, by decide⟩,
    ⟨(st [(MDL_STAT_STATE, 0, 5), (MDL_CFG_COAST_MS, 0, 2)]).on fun m => { m with tb := 400000, mdl := { m.mdl with v := 7 } }, by decide⟩,
    ⟨(st [(MDL_CFG_EN, 0, 1)]).on fun m => { m with tb := 7 }, by decide⟩,
    ⟨(st [(MDL_CFG_EN, 0, 1), (MDL_STAT_STATE, 0, 5)]).on fun m => { m with tb := 400, mdl := { m.mdl with v := 77000000 } }, by decide⟩⟩

theorem witness_PosesAndField :
    (∃ (who : Writer) (s : State), (s.chip.poseOk who = true) ∧ (s.chip.poseTest s.chip.staged = 0)) ∧
    (∃ (who : Writer) (c : Nat) (s : State), (s.chip.poseOk who = true) ∧ (s.chip.poseTest s.chip.staged = c) ∧ (c ≠ 0)) ∧
    (∃ (p : Pose) (s : State), (s.chip.mdl.pose = some p) ∧ (s.chip.mdl.firstPose = true)) ∧
    (∃ (p : Pose) (dE dN : Int) (s : State), (s.chip.mdl.pose = some p) ∧ (s.chip.mdl.firstPose = false) ∧ (s.chip.mdl.fieldSet = false) ∧
      (s.chip.mdl.poseRejects < s.chip.rd MDL_POSE_CFG_REJ_MAX) ∧ (dE = fx p.e - (s.chip.histAtTb p.tb).e) ∧ (dN = fx p.n -
      (s.chip.histAtTb p.tb).n) ∧ (dE * dE + dN * dN ≤ fx (s.chip.rd MDL_POSE_CFG_GATE * max p.sigma 10) * fx (s.chip.rd MDL_POSE_CFG_GATE
      * max p.sigma 10))) ∧
    (∃ (s : State), (s.chip.rd MDL_STAT_POSE_CUR ≠ 0) ∧ (s.chip.mdl.acceptTb + s.chip.rd MDL_POSE_TMO_TMO * msTb ≤ s.chip.tb) ∧ (s.chip.rd
      MDL_POSE_STAT_LOOP ≠ 0) ∧ (s.chip.rd MDL_POSE_STAT_LOOP ≠ 5)) ∧
    (∃ (who : Writer) (s : State), (s.chip.geomOk who = true)) :=
  ⟨⟨.hostA, st [(PROT_ROLE_GEOM, 0, 1), (PROT_ROLE_POSE, 0, 1), (PROT_DW, 0, 7)], by decide⟩,
    ⟨.hostA, 3, st [(PROT_ROLE_GEOM, 0, 1), (PROT_ROLE_POSE, 0, 1), (PROT_DW, 0, 7), (MDL_POSE_STAT_BUSY, 0, 1)], by decide⟩,
    ⟨⟨5000, -70, 0, 0, 100, 20, false, false⟩, (st [(MDL_CFG_EN, 0, 1), (MDL_POSE_STAT_BUSY, 0, 1)]).on fun m => { m with tb := 200, mdl := { m.mdl with firstPose := true, pose := some ⟨5000, -70, 0, 0, 100, 20, false, false⟩ } }, by decide⟩,
    ⟨⟨30, -40, 0, 0, 100, 10, false, false⟩, fx 30, fx (-40), (st [(MDL_CFG_EN, 0, 1), (MDL_POSE_STAT_BUSY, 0, 1), (MDL_POSE_CFG_GATE, 0, 5), (MDL_POSE_CFG_REJ_MAX, 0, 3)]).on fun m => { m with tb := 200, mdl := { m.mdl with firstPose := false, pose := some ⟨30, -40, 0, 0, 100, 10, false, false⟩ } }, by decide⟩,
    ⟨(st [(MDL_STAT_POSE_CUR, 0, 1), (MDL_POSE_TMO_TMO, 0, 1), (MDL_POSE_STAT_LOOP, 0, 2)]).on fun m => { m with tb := 200000 }, by decide⟩,
    ⟨.hostA, st [(PROT_ROLE_GEOM, 0, 1), (PROT_ROLE_POSE, 0, 1), (PROT_DW, 0, 7)], by decide⟩⟩

theorem witness_YawDeflectionLearning :
    (∃ (who : Writer) (w : Word) (s : State), (s.chip.poseOk who = true) ∧ (s.chip.rd MDL_YAW_CFG_PRI = 2)) ∧
    (∃ (s : State), (s.chip.yawLive (yawCode (s.chip.rd MDL_YAW_CFG_PRI)) = false) ∧ (s.chip.yawLive (yawCode (s.chip.rd MDL_YAW_CFG_SEC))
      = false) ∧ (s.chip.rd MDL_STAT_YAW_ACT ≠ 0)) ∧
    (∃ (d : Df) (r : Int) (rs : List Int) (s : State), ((s.chip.dfl d.val).inbox = r :: rs) ∧ (s.chip.rd MDL_DF_CFG_SRC d.val ≠ 0)) ∧
    (∃ (d : Df) (s : State), (s.chip.rd MDL_DF_CFG_SRC d.val ≠ 0) ∧ ((s.chip.dfl d.val).lost = false) ∧ ((s.chip.dfl d.val).tb.getD 0 +
      s.chip.rd MDL_DF_CFG_TMO d.val * msTb ≤ s.chip.tb)) ∧
    (∃ (who : Writer) (k : Ds) (s : State), (s.chip.geomOk who = true)) :=
  ⟨⟨.hostA, 0xFFFFFFF0, st [(PROT_ROLE_GEOM, 0, 1), (PROT_ROLE_POSE, 0, 1), (PROT_DW, 0, 7), (MDL_YAW_CFG_PRI, 0, 2)], by decide⟩,
    ⟨st [(MDL_STAT_YAW_ACT, 0, 2), (MDL_YAW_CFG_PRI, 0, 2)], by decide⟩,
    ⟨5, 40, [], (st [(MDL_DF_CFG_SRC, 5, 1), (MDL_DF_SCALE, 5, 3)]).on fun m => { m with mdl := { m.mdl with defl := [(5, { inbox := [40], lost := true })] } }, by decide⟩,
    ⟨0, (st [(MDL_DF_CFG_SRC, 0, 1), (MDL_DF_CFG_TMO, 0, 1)]).on fun m => { m with tb := 200000 }, by decide⟩,
    ⟨.hostA, 7, st [(PROT_ROLE_GEOM, 0, 1), (PROT_ROLE_POSE, 0, 1), (PROT_DW, 0, 7), (MDL_SRC_SCALE, 7, 99)], by decide⟩⟩

theorem witness_AxesAndSnapshots :
    (∃ (who : Writer) (a : Ax) (w : Word) (s : State), ((s.chip.isOwner who (s.chip.axOwner a.val) && s.chip.runs islAxis) = true) ∧
      (s.chip.axKind a.val = 0) ∧ (wordField AX_CFG_KIND w.toNat = 1)) ∧
    (∃ (who : Writer) (a : Ax) (w : Word) (s : State), ((s.chip.isOwner who (s.chip.axOwner a.val) && s.chip.runs islAxis) = true) ∧
      (s.chip.axKind a.val ≠ 0) ∧ (wordField AX_CFG_KIND w.toNat = 0)) ∧
    (∃ (s : State), (s.chip.mdl.tickTb < s.chip.tb)) ∧
    (∃ (s : State), (s.chip.mdl.tickTb = s.chip.tb)) ∧
    (∃ (a : Ax) (s : State), (s.chip.tickAt < s.chip.tb)) ∧
    (∃ (a : Ax) (s : State), (s.chip.tickAt = s.chip.tb)) :=
  ⟨⟨.hostA, 15, 1, (st [(PROT_AX_OWN, 0, 0x55555555), (PROT_DW, 0, 7)]).on fun m => { m with axes := [(15, { pos := 77 })] }, by decide⟩,
    ⟨.hostA, 15, 0, st [(PROT_AX_OWN, 0, 0x55555555), (PROT_DW, 0, 7), (AX_CFG_KIND, 15, 1), (AX_STAT_STATE, 15, 2)], by decide⟩,
    ⟨State.reset.on fun m => { m with tb := 0x300000009, mdl := { m.mdl with tickTb := 0x300000005, pub := { tb := 0x300000005, s := fx (-9), psi := 7, e := fx (-3) } } }, by decide⟩,
    ⟨State.reset.on fun m => { m with tb := 600, mdl := { m.mdl with tickTb := 600, pub := { s := 1 }, pubOld := { tb := 400, s := fx (-9) } } }, by decide⟩,
    ⟨4, State.reset.on fun m => { m with tb := 5, axes := [(4, { pos := 65536 * 12345 })] }, by decide⟩,
    ⟨4, State.reset.on fun m => { m with axes := [(4, { pos := 1, old := { pos := 65536 * 12345 } })] }, by decide⟩⟩

theorem witness_DirectArming :
    (∃ (who : Writer) (ch : Ch) (c : Nat) (s : State), (s.chip.chOk who ch.val = true) ∧ (s.chip.armRefusal ch.val = c) ∧ (c ≠ 0)) ∧
    (∃ (who : Writer) (ch : Ch) (i : Nat) (s : State), (s.chip.chOk who ch.val = true) ∧ (s.chip.armRefusal ch.val = 0) ∧ ((s.chip.chAxis
      ch.val).v = 0) ∧ ((s.chip.chAxis ch.val).a = 0) ∧ (0 < axDist (s.chip.chAxis ch.val) (s.chip.armTarget ch.val)) ∧ (i = firstFree
      s.chip.pool (Config.poolChoice s.chip.frees % 16384) 16384)) :=
  ⟨⟨.hostA, 3, 8, st [(PROT_CH_OWN, 0, 0x55555555), (PROT_DW, 0, 7)], by decide⟩,
    ⟨.hostA, 3, _, st [(PROT_CH_OWN, 0, 0x55555555), (PROT_DW, 0, 7), (CH_CTL_MODE, 3, 1), (CH_ARM_P_KIND, 3, 1), (AX_CFG_KIND, 3, 1), (CH_ARM_T_LO, 3, 500)], by decide, by decide, by decide, by decide, by decide, rfl⟩⟩

theorem witness_Cancelling :
    (∃ (who : Writer) (ch : Ch) (h : BitVec 22) (e : Ev) (s : State), (s.chip.chOk who ch.val = true) ∧ (s.chip.ev (h.toNat % 16384) =
      some e) ∧ (handleOf (h.toNat % 16384) e.gen = h.toNat) ∧ (e.owner = writerCode who) ∧ (e.jsn = none) ∧ (e.life = .armed) ∧
      (s.chip.dueHead e.ch = none)) ∧
    (∃ (who : Writer) (ch : Ch) (h : BitVec 22) (s : State), (s.chip.chOk who ch.val = true) ∧ (s.chip.ev (h.toNat % 16384) = none) ∧
      (tabGet s.chip.poolLast (h.toNat % 16384) {} = {})) ∧
    (∃ (who : Writer) (ch : Ch) (i : Nat) (e : Ev) (s : State), (s.chip.chOk who ch.val = true) ∧ (s.chip.dueHead ch.val = none) ∧
      (s.chip.chEvs ch.val = [(i, e)]) ∧ (s.chip.ev i = some e) ∧ (e.owner = writerCode who) ∧ (e.jsn = none) ∧ (e.life = .armed)) :=
  ⟨⟨.hostA, 5, 5 + 16384 * 7, { gen := 7, ch := 3, owner := 1, kind := 5, noadv := false, bidir := false, width := 0, target := 1000, deadline := 0, jsn := none, life := .armed, order := 4 }, (st [(PROT_CH_OWN, 0, 0x55555555), (PROT_DW, 0, 7)]).on fun m => { m with pool := [(5, { gen := 7, ch := 3, owner := 1, kind := 5, noadv := false, bidir := false, width := 0, target := 1000, deadline := 0, jsn := none, life := .armed, order := 4 })] }, by decide⟩,
    ⟨.hostA, 5, 77, st [(PROT_CH_OWN, 0, 0x55555555), (PROT_DW, 0, 7)], by decide⟩,
    ⟨.hostA, 3, 5, { gen := 7, ch := 3, owner := 1, kind := 5, noadv := false, bidir := false, width := 0, target := 1000, deadline := 0, jsn := none, life := .armed, order := 4 }, (st [(PROT_CH_OWN, 0, 0x55555555), (PROT_DW, 0, 7)]).on fun m => { m with pool := [(5, { gen := 7, ch := 3, owner := 1, kind := 5, noadv := false, bidir := false, width := 0, target := 1000, deadline := 0, jsn := none, life := .armed, order := 4 })] }, by decide⟩⟩

theorem witness_Installation :
    (∃ (jsn : BitVec 48) (i : Nat) (e : Ev) (s : State), (stagedIdx s.chip.jour.staged jsn.toNat = some i) ∧ (s.chip.ev i = some e) ∧
      (e.life = .reserved) ∧ (s.chip.runs islAxis = true) ∧ (s.chip.installRefused e = false) ∧ (e.deadline = 0) ∧ ((s.chip.chAxis e.ch).v
      = 0) ∧ ((s.chip.chAxis e.ch).a = 0) ∧ (0 < axDist (s.chip.chAxis e.ch) e.target) ∧ (posDiff e.target (s.chip.chAxis e.ch).posInt ≠
      -549755813888)) ∧
    (∃ (jsn : BitVec 48) (i : Nat) (e : Ev) (s : State), (stagedIdx s.chip.jour.staged jsn.toNat = some i) ∧ (s.chip.ev i = some e) ∧
      (e.life = .reserved) ∧ (s.chip.runs islAxis = true) ∧ (s.chip.axKind (s.chip.rd CH_AXIS_AX e.ch) = 0) ∧ (e.jsn = some jsn.toNat)) :=
  ⟨⟨9, 5, { gen := 7, ch := 3, owner := 1, kind := 5, noadv := false, bidir := false, width := 0, target := 1000, deadline := 0, jsn := some 9, life := .reserved, order := 4 }, (st [(AX_CFG_KIND, 3, 1)]).on fun m => { m with pool := [(5, { gen := 7, ch := 3, owner := 1, kind := 5, noadv := false, bidir := false, width := 0, target := 1000, deadline := 0, jsn := some 9, life := .reserved, order := 4 })], jour := { m.jour with staged := [.event 9 5] } }, by decide⟩,
    ⟨9, 5, { gen := 7, ch := 3, owner := 1, kind := 5, noadv := false, bidir := false, width := 0, target := 1000, deadline := 0, jsn := some 9, life := .reserved, order := 4 }, State.reset.on fun m => { m with pool := [(5, { gen := 7, ch := 3, owner := 1, kind := 5, noadv := false, bidir := false, width := 0, target := 1000, deadline := 0, jsn := some 9, life := .reserved, order := 4 })], jour := { m.jour with staged := [.event 9 5] } }, by decide⟩⟩

theorem witness_EventEnds :
    (∃ (ch : Ch) (h : Head) (e : Ev) (s : State), (s.chip.dueHead ch.val = some h) ∧ (h.key < 16384) ∧ (s.chip.ev h.key = some e) ∧ (e.ch
      = ch.val) ∧ (e.life = .armed) ∧ (e.kind = 5) ∧ (e.bidir = false) ∧ (e.jsn = none) ∧ (e.deadline = 0) ∧ (h.bunch = false) ∧ (h.load =
      false) ∧ (s.chip.dgSafe ch.val = false) ∧ (h.lateness h.tb ≤ s.chip.lateWin ch.val) ∧ (h.lateness h.tb ≤ fx (s.chip.rd CH_TOL_TOL
      ch.val))) ∧
    (∃ (ch : Ch) (p : Pulse) (e : Ev) (s : State), ((s.chip.chan ch.val).pulses = [p]) ∧ (p.endTb ≤ s.chip.chTb ch.val) ∧ (s.chip.runs
      (clusterOf ch.val) = true) ∧ (p.stays = false) ∧ (p.taken = false) ∧ (s.chip.ev p.idx = some e) ∧ (e.ch = ch.val) ∧ (e.outcome = 1)
      ∧ (e.cause = 0)) ∧
    (∃ (i : Pool) (e : Ev) (s : State), (s.chip.ev i.val = some e) ∧ (e.life = .armed) ∧ (e.deadline ≠ 0) ∧ (e.deadline < s.chip.chTb
      e.ch) ∧ ((s.chip.chan e.ch).heads = [])) ∧
    (∃ (i : Pool) (e : Ev) (s : State), (s.chip.ev i.val = some e) ∧ (s.chip.overrun e = true)) ∧
    (∃ (i : Pool) (e : Ev) (s : State), (s.chip.ev i.val = some e) ∧ (e.life = .standing) ∧ (e.fwd = false) ∧ ((s.chip.chan e.ch).span ≠
      0) ∧ (axDist (s.chip.chAxis e.ch) e.target < -(fx ((s.chip.chan e.ch).span * 256)))) :=
  ⟨⟨3, ⟨5, 40, false, false, 2, 4, 0, 0, 0, 0, 0⟩, { gen := 7, ch := 3, owner := 1, kind := 5, noadv := false, bidir := false, width := 0, target := 1000, deadline := 0, jsn := none, life := .armed, order := 4 }, (st [(AX_STAT_STATE, 3, 1)]).on fun m => ({ m with tb := 50, pool := [(5, { gen := 7, ch := 3, owner := 1, kind := 5, noadv := false, bidir := false, width := 0, target := 1000, deadline := 0, jsn := none, life := .armed, order := 4 })] }).setChan 3 { heads := [⟨5, 40, false, false, 2, 4, 0, 0, 0, 0, 0⟩] }, by decide⟩,
    ⟨3, { idx := 5, endTb := 40 }, { gen := 7, ch := 3, owner := 1, kind := 3, noadv := false, bidir := false, width := 0, target := 1000, deadline := 0, jsn := none, life := .flying, order := 4, outcome := 1 }, (st [(MAP_CH_STAT_OWN_ON, 3, 1), (CH_STAT_OUT, 3, 1)]).on fun m => ({ m with tb := 50, pool := [(5, { gen := 7, ch := 3, owner := 1, kind := 3, noadv := false, bidir := false, width := 0, target := 1000, deadline := 0, jsn := none, life := .flying, order := 4, outcome := 1 })] }).setChan 3 { pulses := [{ idx := 5, endTb := 40 }] }, by decide⟩,
    ⟨5, { gen := 7, ch := 3, owner := 1, kind := 5, noadv := false, bidir := false, width := 0, target := 1000, deadline := 30, jsn := none, life := .armed, order := 4 }, State.reset.on fun m => { m with tb := 50, pool := [(5, { gen := 7, ch := 3, owner := 1, kind := 5, noadv := false, bidir := false, width := 0, target := 1000, deadline := 30, jsn := none, life := .armed, order := 4 })] }, by decide⟩,
    ⟨5, { gen := 7, ch := 3, owner := 1, kind := 5, noadv := false, bidir := false, width := 0, target := 1000, deadline := 0, jsn := none, life := .armed, order := 4 }, State.reset.on fun m => { m with axes := [(3, { pos := 65536 * 60000 })], pool := [(5, { gen := 7, ch := 3, owner := 1, kind := 5, noadv := false, bidir := false, width := 0, target := 1000, deadline := 0, jsn := none, life := .armed, order := 4 })] }, by decide⟩,
    ⟨5, { gen := 7, ch := 3, owner := 1, kind := 1, noadv := false, bidir := true, width := 0, target := 1000, deadline := 0, jsn := none, life := .standing, order := 4, fwd := false }, State.reset.on fun m => ({ m with axes := [(3, { pos := 65536 * 60000 })], pool := [(5, { gen := 7, ch := 3, owner := 1, kind := 1, noadv := false, bidir := true, width := 0, target := 1000, deadline := 0, jsn := none, life := .standing, order := 4, fwd := false })] }).setChan 3 { span := 4 }, by decide⟩⟩

theorem witness_ChannelReads :
    (∃ (ch : Ch) (z f h : Nat) (s : State), (s.chip.nearSeen ch.val = some (some z, f, h))) ∧
    (∃ (ch : Ch) (s : State), (s.chip.nearSeen ch.val = none)) ∧
    (∃ (ch : Ch) (i : Nat) (e : Ev) (s : State), ((s.chip.slotOrder ch.val)[s.chip.rd CH_SLOT_SEL_IDX ch.val]? = some (i, e)) ∧ (e.life ≠
      .reserved)) ∧
    (∃ (ch : Ch) (s : State), ((s.chip.slotOrder ch.val)[s.chip.rd CH_SLOT_SEL_IDX ch.val]? = none)) :=
  ⟨⟨3, 0x500000002, 77, 9, (st [(AX_STAT_STATE, 3, 1)]).on fun m => ({ m with tb := 7 }).setChan 3 { near := some (some 0x500000002, 77, 9) }, by decide⟩,
    ⟨3, State.reset, by decide⟩,
    ⟨3, 5, { gen := 7, ch := 3, owner := 1, kind := 5, noadv := false, bidir := false, width := 0, target := 1000, deadline := 0, jsn := none, life := .armed, order := 4 }, State.reset.on fun m => { m with pool := [(5, { gen := 7, ch := 3, owner := 1, kind := 5, noadv := false, bidir := false, width := 0, target := 1000, deadline := 0, jsn := none, life := .armed, order := 4 })] }, by decide⟩,
    ⟨3, State.reset, by decide⟩⟩

theorem witness_ChannelSettings :
    (∃ (who : Writer) (ch : Ch) (w : Word) (s : State), (s.chip.chOk who ch.val = true) ∧ (s.chip.pend ch.val ≠ 0) ∧ (wordField
      CH_CTL_MODE w.toNat = 0)) ∧
    (∃ (who : Writer) (ch : Ch) (w : Word) (s : State), (s.chip.chOk who ch.val = true) ∧ (s.chip.pend ch.val ≠ 0)) ∧
    (∃ (who : Writer) (ch : Ch) (w : Word) (s : State), (s.chip.chOk who ch.val = true) ∧ (s.chip.pend ch.val = 0)) ∧
    (∃ (who : Writer) (ch : Ch) (w : Word) (s : State), (s.chip.chOk who ch.val = true)) :=
  ⟨⟨.hostA, 3, 0, (st [(PROT_CH_OWN, 0, 0x55555555), (PROT_DW, 0, 7), (CH_CTL_MODE, 3, 1)]).on fun m => { m with pool := [(5, { gen := 7, ch := 3, owner := 1, kind := 5, noadv := false, bidir := false, width := 0, target := 1000, deadline := 0, jsn := none, life := .armed, order := 4 })] }, by decide⟩,
    ⟨.hostA, 3, 0, (st [(PROT_CH_OWN, 0, 0x55555555), (PROT_DW, 0, 7)]).on fun m => { m with pool := [(5, { gen := 7, ch := 3, owner := 1, kind := 5, noadv := false, bidir := false, width := 0, target := 1000, deadline := 0, jsn := none, life := .armed, order := 4 })] }, by decide⟩,
    ⟨.hostA, 3, 15, st [(PROT_CH_OWN, 0, 0x55555555), (PROT_DW, 0, 7)], by decide⟩,
    ⟨.hostA, 3, 0x31, st [(PROT_CH_OWN, 0, 0x55555555), (PROT_DW, 0, 7)], by decide⟩⟩

theorem witness_Trains :
    (∃ (ch : Ch) (h : Head) (z : Train) (s : State), (s.chip.dueHead ch.val = some h) ∧ (h.key = 16384) ∧ ((s.chip.chan ch.val).train =
      some z) ∧ (z.tPrev = none) ∧ (z.nextWidth = none) ∧ (h.bunch = false) ∧ (h.lateness h.tb ≤ s.chip.trainLate ch.val z) ∧
      (s.chip.trainBarred ch.val z = false) ∧ (s.chip.gateOpen ch.val = true)) ∧
    (∃ (ch : Ch) (h : Head) (z : Train) (k p : Nat) (s : State), ((s.chip.chan ch.val).train = some z) ∧ (z.tPrev = some p) ∧
      (s.chip.dueHead ch.val = some h) ∧ (h.key = 16384) ∧ (h.tb < s.chip.trainCapTb ch.val z) ∧ (h.bunch = false) ∧ (z.nextWidth = none)
      ∧ (s.chip.trainBarred ch.val z = false) ∧ (s.chip.gateOpen ch.val = true) ∧ (k = s.chip.lastReached ch.val z (travel (s.chip.chAxis
      ch.val).v (s.chip.chAxis ch.val).a ((s.chip.trainCapTb ch.val z : Int) - s.chip.tickAt)) z.n (2 * ((travel (s.chip.chAxis ch.val).v
      (s.chip.chAxis ch.val).a ((s.chip.trainCapTb ch.val z : Int) - s.chip.tickAt) - axDist (s.chip.chAxis ch.val) (z.point z.n)) / fx
      (max 1 z.pitch)).toNat + 64))) ∧
    (∃ (ch : Ch) (z : Nat) (s : State), ((s.chip.chan ch.val).trainOff = some z) ∧ (z ≤ s.chip.chTb ch.val) ∧ (s.chip.runs (clusterOf
      ch.val) = true)) ∧
    (∃ (who : Writer) (ch : Ch) (s : State), (s.chip.chOk who ch.val = true) ∧ ((s.chip.chan ch.val).train = none)) ∧
    (∃ (who : Writer) (ch : Ch) (z : Train) (s : State), (s.chip.chOk who ch.val = true) ∧ ((s.chip.chan ch.val).train = some z) ∧ (256 ≤
      s.chip.rd TR_PITCH ch.val) ∧ (s.chip.rd TR_WIDTH ch.val ≠ 0) ∧ (s.chip.rd TR_CFG_PRX ch.val = 0)) ∧
    (∃ (ch : Ch) (z : Train) (s : State), ((s.chip.chan ch.val).train = some z) ∧ (z.len ≠ 0) ∧ (axDist (s.chip.chAxis ch.val) z.tgt + fx
      (z.len * 256) < 0)) :=
  ⟨⟨3, ⟨16384, 40, false, false, 2, 4, 0, 0, 0, 0, 0⟩, { idx := 5, owner := 1, order := 4, tgt := 0, ph := 0, pitch := 300, width := 10, noadv := true, len := 0 }, (st [(MAP_CH_STAT_GATE, 3, 1), (BK_CTL_EN, 0, 1), (AX_STAT_STATE, 3, 1)]).on fun m => ({ m with tb := 50 }).setChan 3 { heads := [⟨16384, 40, false, false, 2, 4, 0, 0, 0, 0, 0⟩], train := some { idx := 5, owner := 1, order := 4, tgt := 0, ph := 0, pitch := 300, width := 10, noadv := true, len := 0 } }, by decide⟩,
    ⟨3, ⟨16384, 40, false, false, 2, 4, 0, 0, 0, 0, 0⟩, { idx := 5, owner := 1, order := 4, tgt := 0, ph := 0, pitch := 300, width := 10, noadv := true, len := 0, tPrev := some 30, n := 1 }, 1, 30, (st [(MAP_CH_STAT_GATE, 3, 1), (BK_CTL_EN, 0, 1), (AX_STAT_STATE, 3, 1), (TR_CFG_FMAX, 3, 100)]).on fun m => ({ m with tb := 2000030 }).setChan 3 { heads := [⟨16384, 40, false, false, 2, 4, 0, 0, 0, 0, 0⟩], train := some { idx := 5, owner := 1, order := 4, tgt := 0, ph := 0, pitch := 300, width := 10, noadv := true, len := 0, tPrev := some 30, n := 1 } }, by decide +kernel⟩,
    ⟨3, 40, (st [(MAP_CH_STAT_OWN_ON, 3, 1), (CH_STAT_OUT, 3, 1)]).on fun m => ({ m with tb := 50 }).setChan 3 { trainOff := some 40 }, by decide⟩,
    ⟨.hostA, 3, st [(PROT_CH_OWN, 0, 0x55555555), (PROT_DW, 0, 7)], by decide⟩,
    ⟨.hostA, 3, { idx := 5, owner := 1, order := 4, tgt := 0, ph := 0, pitch := 300, width := 10, noadv := true, len := 0 }, (st [(PROT_CH_OWN, 0, 0x55555555), (PROT_DW, 0, 7), (TR_PITCH, 3, 777), (TR_WIDTH, 3, 8)]).on fun m => m.setChan 3 { train := some { idx := 5, owner := 1, order := 4, tgt := 0, ph := 0, pitch := 300, width := 10, noadv := true, len := 0 } }, by decide⟩,
    ⟨3, { idx := 5, owner := 1, order := 4, tgt := 0, ph := 0, pitch := 300, width := 10, noadv := true, len := 2 }, (st [(TR_STAT_RUN, 3, 1)]).on fun m => ({ m with axes := [(3, { pos := 65536 * 60000 })] }).setChan 3 { train := some { idx := 5, owner := 1, order := 4, tgt := 0, ph := 0, pitch := 300, width := 10, noadv := true, len := 2 } }, by decide⟩⟩

theorem witness_LatticeLoop :
    (∃ (ch : Ch) (x : Chip) (c k : Int) (s : State), (s.chip.latState ch.val = 2) ∧ (s.chip.due .lattice ch.val = true) ∧ (s.chip.tb %
      200000 = 0) ∧ (s.chip.latLive ch.val = true) ∧ (s.chip.rd LAT_CFG_OUTSEL ch.val = 1) ∧ ((s.chip.lat ch.val).clampDir = 0) ∧ (x =
      (s.chip.stamp .lattice ch.val).latAdopt ch.val) ∧ (x.latCommand ch.val = (c, k))) ∧
    (∃ (ch : Ch) (o on : Nat) (s : State), (s.chip.latPwm ch.val = some o) ∧ (s.chip.latState ch.val = 2) ∧ ((s.chip.lat ch.val).periodTb
      = none) ∧ (s.chip.latLive ch.val = true) ∧ (s.chip.safe (clusterOf o) = false) ∧ (on = (2 * (s.chip.lat ch.val).pwmOut.toNat *
      s.chip.latPeriod ch.val + 65536) / 131072) ∧ (on ≠ 0)) ∧
    (∃ (ch : Ch) (o z : Nat) (s : State), (s.chip.latPwm ch.val = some o) ∧ ((s.chip.lat ch.val).offTb = some z) ∧ (z ≤ s.chip.tb)) :=
  ⟨⟨3, _, _, _, (st [(LAT_STAT_STATE, 3, 2), (LAT_CFG_OUTSEL, 3, 1), (LAT_CFG_EN, 3, 1), (LAT_PITCH_A, 3, 1500), (LAT_LOOP_SLEW, 3, 10), (LAT_LOOP_BW, 3, 5), (LAT_OSCALE, 3, 65536)]).on fun m => m.setLat 3 { vu := fx 90000, e := 7000 }, by decide, by decide, by decide, by decide, by decide, by decide, rfl, rfl⟩,
    ⟨3, 5, 100000, (st [(LAT_STAT_STATE, 3, 2), (LAT_CFG_OUTSEL, 3, 1), (LAT_CFG_EN, 3, 1), (LAT_OUT_UNIT, 3, 5), (LAT_OUT_CARRIER, 3, 100)]).on fun m => m.setLat 3 { pwmOut := 32768 }, by decide⟩,
    ⟨3, 5, 0, (st [(LAT_CFG_OUTSEL, 3, 1), (LAT_CFG_EN, 3, 1), (LAT_OUT_UNIT, 3, 5), (CH_STAT_OUT, 5, 1)]).on fun m => m.setLat 3 { offTb := some 0 }, by decide⟩⟩

theorem witness_LatticeStates :
    (∃ (who : Writer) (ch : Ch) (w : Word) (s : State), (s.chip.chOk who ch.val = true) ∧ (s.chip.rd LAT_CFG_EN ch.val = 0) ∧ (bitAt
      w.toNat 0 = true) ∧ ((latCfgFields.foldl (fun x f => x.wrFrom f ch.val w.toNat) s.chip).latRefused ch.val = false)) ∧
    (∃ (who : Writer) (ch : Ch) (w : Word) (s : State), (s.chip.chOk who ch.val = true) ∧ (s.chip.rd LAT_CFG_EN ch.val = 0) ∧ (bitAt
      w.toNat 0 = true) ∧ ((latCfgFields.foldl (fun x f => x.wrFrom f ch.val w.toNat) s.chip).latRefused ch.val = true)) ∧
    (∃ (who : Writer) (ch : Ch) (w : Word) (s : State), (s.chip.chOk who ch.val = true) ∧ (s.chip.rd LAT_CFG_EN ch.val ≠ 0) ∧ (bitAt
      w.toNat 0 = false)) ∧
    (∃ (ch : Ch) (s : State), (s.chip.latState ch.val = 2 ∨ s.chip.latState ch.val = 3) ∧ (0 < (s.chip.lat ch.val).c) ∧ (800000000 * fxOne
      * (s.chip.rd LAT_CFG_CELLS ch.val : Int) ≤ ((s.chip.tb : Int) - (s.chip.lat ch.val).edgeTb) * (s.chip.lat ch.val).c * (s.chip.whlTc
      (s.chip.rd LAT_CFG_WHL ch.val) : Int))) ∧
    (∃ (ch : Ch) (s : State), (s.chip.latState ch.val = 4) ∧ ((s.chip.lat ch.val).stalled = true) ∧ ((s.chip.lat ch.val).faultTb + 1000 *
      msTb ≤ s.chip.tb)) ∧
    (∃ (who : Writer) (ch : Ch) (s : State), (s.chip.chOk who ch.val = true)) ∧
    (∃ (who : Writer) (ch : Ch) (s : State), (s.chip.chOk who ch.val = true) ∧ (s.chip.latState ch.val = 0)) ∧
    (∃ (who : Writer) (ch : Ch) (s : State), (s.chip.chOk who ch.val = true)) :=
  ⟨⟨.hostA, 3, 1 + 16 * 1 + 2 ^ 8 * 20, st [(PROT_CH_OWN, 0, 0x55555555), (PROT_DW, 0, 7), (LAT_PITCH_A, 3, 1500), (LAT_PITCH_B, 3, 750), (WHL_CFG_MODE, 0, 2)], by decide⟩,
    ⟨.hostA, 3, 1, st [(PROT_CH_OWN, 0, 0x55555555), (PROT_DW, 0, 7)], by decide⟩,
    ⟨.hostA, 3, 0, st [(PROT_CH_OWN, 0, 0x55555555), (PROT_DW, 0, 7), (LAT_CFG_EN, 3, 1), (LAT_STAT_STATE, 3, 3), (LAT_C, 3, 9)], by decide⟩,
    ⟨3, (st [(LAT_STAT_STATE, 3, 3), (LAT_CFG_CELLS, 3, 20), (WHL_TEETH_TEETH, 0, 60)]).on fun m => ({ m with tb := 100000000 }).setLat 3 { c := fx 50 }, by decide⟩,
    ⟨3, (st [(LAT_STAT_STATE, 3, 4)]).on fun m => ({ m with tb := 200000000 }).setLat 3 { stalled := true }, by decide⟩,
    ⟨.hostA, 3, st [(PROT_CH_OWN, 0, 0x55555555), (PROT_DW, 0, 7), (LAT_TUBE_T0, 3, 900)], by decide⟩,
    ⟨.hostA, 3, (st [(PROT_CH_OWN, 0, 0x55555555), (PROT_DW, 0, 7), (LAT_TRIM, 3, 9)]).on fun m => m.setLat 3 { trim := 5 }, by decide⟩,
    ⟨.hostA, 3, (st [(PROT_CH_OWN, 0, 0x55555555), (PROT_DW, 0, 7), (LAT_TRIM, 3, 9), (LAT_STAT_STATE, 3, 3)]).on fun m => m.setLat 3 { trim := 5 }, by decide⟩⟩

theorem witness_LatticeDrops :
    (∃ (ch : Ch) (r : Release) (s : State), ((s.chip.lat ch.val).releases = [r]) ∧ (r.closed = false) ∧ (r.upto < s.chip.tb) ∧ (r.drops =
      0)) ∧
    (∃ (ch : Ch) (r : Release) (d : Nat) (s : State), ((s.chip.lat ch.val).releases = [r]) ∧ (r.closed = false) ∧ (r.drops = 1) ∧ (r.eps =
      none) ∧ (r.firstDrop = some d) ∧ (d + s.chip.rd LAT_FALL ch.val * usTb < (s.chip.lat ch.val).tick)) :=
  ⟨⟨3, { tr := 0, from_ := 5, upto := 9 }, State.reset.on fun m => ({ m with tb := 10 }).setLat 3 { releases := [{ tr := 0, from_ := 5, upto := 9 }], skips := 15 }, by decide⟩,
    ⟨3, { tr := 0, from_ := 5, upto := 9, drops := 1, firstDrop := some 7 }, 7, State.reset.on fun m => ({ m with tb := 10 }).setLat 3 { releases := [{ tr := 0, from_ := 5, upto := 9, drops := 1, firstDrop := some 7 }], tick := 100000, phi := 77 }, by decide⟩⟩

theorem witness_BoostSwitch :
    (∃ (b : Bank) (w : Nat) (ws : List Nat) (s : State), (s.chip.waiting b.val = w :: ws) ∧ (s.chip.boostFree b.val = true) ∧
      (s.chip.phase w = 1) ∧ (bankOf w = b.val) ∧ (s.chip.iNow w < (s.chip.drv w).iBst)) ∧
    (∃ (ch : Ch) (s : State), (s.chip.phase ch.val = 1) ∧ ((s.chip.drv ch.val).reqTb + s.chip.defer (bankOf ch.val) * usTb ≤ s.chip.tb)) ∧
    (∃ (ch : Ch) (code : Nat) (s : State), (s.chip.phase ch.val = 2) ∧ ((s.chip.drv ch.val).iBst ≤ code) ∧ (s.chip.waiting (bankOf ch.val)
      = [])) ∧
    (∃ (ch : Ch) (s : State), (s.chip.phase ch.val = 2) ∧ ((s.chip.drv ch.val).hsbTb + (s.chip.drv ch.val).tBst * usTb ≤ s.chip.tb) ∧
      (s.chip.waiting (bankOf ch.val) = [])) :=
  ⟨⟨0, 3, [], st [(CH_DRV_STAT_PHASE, 3, 1), (BK_CTL_EN, 0, 1), (BST_STAT_READY, 0, 1)], by decide⟩,
    ⟨3, (st [(CH_DRV_STAT_PHASE, 3, 1), (BK_CTL_EN, 0, 1)]).on fun m => { m with tb := 200000 }, by decide⟩,
    ⟨3, 250, st [(CH_DRV_STAT_PHASE, 3, 2), (BK_CTL_EN, 0, 1), (BK_STAT_HSB, 0, 1), (CH_DRV_STAT_HSB_OWN, 3, 1)], by decide⟩,
    ⟨3, (st [(CH_DRV_STAT_PHASE, 3, 2), (BK_CTL_EN, 0, 1), (BK_STAT_HSB, 0, 1)]).on fun m => { m with tb := 60000 }, by decide⟩⟩

theorem witness_DrivePhases :
    (∃ (ch : Ch) (s : State), (s.chip.phase ch.val = 3) ∧ ((s.chip.drv ch.val).phaseTb + (s.chip.drv ch.val).tPk * usTb ≤ s.chip.tb)) ∧
    (∃ (ch : Ch) (s : State), (s.chip.phase ch.val = 4) ∧ ((s.chip.drv ch.val).maxon ≠ 0) ∧ ((s.chip.drv ch.val).startTb + (s.chip.drv
      ch.val).maxon * 20000000 ≤ s.chip.tb)) ∧
    (∃ (ch : Ch) (code : Nat) (s : State), (s.chip.phase ch.val = 3) ∧ ((s.chip.drv ch.val).blankTb ≤ s.chip.tb) ∧ ((s.chip.drv
      ch.val).step = none) ∧ (s.chip.rd CH_DRV_STAT_LS ch.val = 1) ∧ (s.chip.rd CH_DRV_PK_PK_HI ch.val ≤ code) ∧ (code < 1024)) ∧
    (∃ (ch : Ch) (code : Nat) (s : State), (s.chip.phase ch.val = 3) ∧ ((s.chip.drv ch.val).blankTb ≤ s.chip.tb) ∧ ((s.chip.drv
      ch.val).step = none) ∧ (s.chip.rd CH_DRV_STAT_LS ch.val = 0) ∧ (code ≤ s.chip.rd CH_DRV_PK_PK_LO ch.val) ∧ (code < 1024)) ∧
    (∃ (ch : Ch) (s : State), (s.chip.phase ch.val = 5) ∧ ((s.chip.drv ch.val).phaseTb + 2 * usTb ≤ s.chip.tb)) :=
  ⟨⟨3, (st [(CH_DRV_STAT_PHASE, 3, 3), (BK_CTL_EN, 0, 1)]).on fun m => { m with tb := 200000 }, by decide⟩,
    ⟨3, (st [(CH_DRV_STAT_PHASE, 3, 4), (BK_CTL_EN, 0, 1), (CH_STAT_OUT, 3, 1)]).on fun m => ({ m with tb := 20000000 }).setDrv 3 { maxon := 1 }, by decide⟩,
    ⟨3, 1023, st [(CH_DRV_STAT_PHASE, 3, 3), (BK_CTL_EN, 0, 1), (CH_DRV_STAT_LS, 3, 1), (CH_DRV_PK_PK_HI, 3, 300)], by decide⟩,
    ⟨3, 7, st [(CH_DRV_STAT_PHASE, 3, 3), (BK_CTL_EN, 0, 1), (CH_DRV_PK_PK_LO, 3, 300)], by decide⟩,
    ⟨3, (st [(CH_DRV_STAT_PHASE, 3, 5), (BK_CTL_EN, 0, 1)]).on fun m => { m with tb := 400 }, by decide⟩⟩

theorem witness_BankSupplies :
    (∃ (who : Writer) (b : Bank) (w : Word) (s : State), (s.chip.driveOk who = true) ∧ (bitAt w.toNat 0 = true) ∧ (s.chip.rd BK_CTL_EN
      b.val = 0)) ∧
    (∃ (who : Writer) (b : Bank) (w : Word) (s : State), (s.chip.driveOk who = true) ∧ (bitAt w.toNat 0 = false) ∧ (s.chip.rd BK_CTL_EN
      b.val = 1) ∧ ((bankChs b.val).all (fun c => s.chip.phase c == 0) = true)) ∧
    (∃ (c : Cl) (s : State), (s.chip.safe c.val = false)) ∧
    (∃ (b : Bank) (mv us : Nat) (s : State), (mv < 7000) ∧ (1000 ≤ us)) ∧
    (∃ (b : Bank) (mv us : Nat) (s : State), (mv < 4500) ∧ (10 ≤ us) ∧ (s.chip.rd BK_STAT_LOST b.val = 0)) ∧
    (∃ (b : Bank) (mv us : Nat) (s : State), (6000 ≤ mv) ∧ (1000 ≤ us) ∧ ((s.chip.bank b.val).tooHigh = false) ∧ (s.chip.rd BK_STAT_LOST
      b.val = 1)) :=
  ⟨⟨.hostA, 1, 0x101, st [(PROT_ROLE_DRIVE, 0, 1), (PROT_DW, 0, 7)], by decide⟩,
    ⟨.hostA, 1, 0, st [(PROT_ROLE_DRIVE, 0, 1), (PROT_DW, 0, 7), (BK_CTL_EN, 1, 1), (BK_STAT_HSS, 1, 1)], by decide⟩,
    ⟨0, st [(CH_STAT_OUT, 3, 1), (MAP_CH_STAT_OWN_ON, 3, 1)], by decide⟩,
    ⟨2, 6999, 1000, State.reset, by decide⟩,
    ⟨2, 4499, 10, State.reset, by decide⟩,
    ⟨2, 6000, 1000, st [(BK_STAT_LOST, 2, 1)], by decide⟩⟩

theorem witness_BoostController :
    (∃ (who : Writer) (w : Word) (s : State), (s.chip.driveOk who = true) ∧ (bitAt w.toNat 0 = true) ∧ (s.chip.rd BST_STAT_STATE = 0) ∧
      (s.chip.boost.mv < (s.chip.wrFrom BST_CTL_VB_SET 0 w.toNat).vbReady)) ∧
    (∃ (who : Writer) (w : Word) (s : State), (s.chip.driveOk who = true) ∧ (bitAt w.toNat 0 = false)) ∧
    (∃ (mv : Nat) (s : State), (s.chip.rd BST_STAT_STATE = 1) ∧ (s.chip.vbReady ≤ mv)) ∧
    (∃ (s : State), (s.chip.rd BST_STAT_STATE = 1) ∧ (s.chip.boost.startTb + 200 * msTb ≤ s.chip.tb)) ∧
    (∃ (mv : Nat) (s : State), (s.chip.boost.swKhz ≠ 0) ∧ (s.chip.discClosed = true) ∧ (clampN 10 150 (s.chip.rd BST_CTL_ILIM) ≤ mv)) ∧
    (∃ (mv : Nat) (s : State), (s.chip.vbClamp < mv) ∧ (s.chip.boost.clampA = false)) ∧
    (∃ (mv : Nat) (s : State), (70000 ≤ mv) ∧ (s.chip.rd BST_STAT_OV = 0)) ∧
    (∃ (mv : Nat) (s : State), (mv < 68000) ∧ (s.chip.rd BST_STAT_OV = 1)) ∧
    (∃ (d : Die) (mv : Nat) (s : State), (s.chip.vbClamp < mv) ∧ ((if d.val = 0 then s.chip.boost.clampA else s.chip.boost.clampB) =
      false)) :=
  ⟨⟨.hostA, 0x4001, st [(PROT_ROLE_DRIVE, 0, 1), (PROT_DW, 0, 7)], by decide⟩,
    ⟨.hostA, 0, st [(PROT_ROLE_DRIVE, 0, 1), (PROT_DW, 0, 7), (BST_STAT_STATE, 0, 2)], by decide⟩,
    ⟨64000, st [(BST_STAT_STATE, 0, 1), (BST_CTL_VB_SET, 0, 60)], by decide⟩,
    ⟨(st [(BST_STAT_STATE, 0, 1)]).on fun m => { m with tb := 40000000 }, by decide⟩,
    ⟨150, (st [(BST_STAT_STATE, 0, 2)]).on fun m => { m with sys := { m.sys with disc := true }, boost := { m.boost with swKhz := 250 } }, by decide⟩,
    ⟨69000, st [(BST_CTL_VB_SET, 0, 60)], by decide⟩,
    ⟨70000, State.reset, by decide⟩,
    ⟨67999, st [(BST_STAT_OV, 0, 1)], by decide⟩,
    ⟨1, 69000, st [(BST_CTL_VB_SET, 0, 60)], by decide⟩⟩

theorem witness_DriveLimits :
    (∃ (who : Writer) (ch : Ch) (w : Word) (s : State), (s.chip.chOk who ch.val = true) ∧ (w.toNat % 1024 < w.toNat / 65536 % 1024) ∧
      (w.toNat / 65536 % 1024 ≤ s.chip.capPeak ch.val)) ∧
    (∃ (who : Writer) (ch : Ch) (w : Word) (s : State), (s.chip.chOk who ch.val = true) ∧ (w.toNat / 65536 % 1024 ≤ w.toNat % 1024) ∧
      (w.toNat / 65536 % 1024 ≤ s.chip.capPeak ch.val)) ∧
    (∃ (ch : Ch) (s : State), (s.chip.due .duty ch.val = true) ∧ ((s.chip.drv ch.val).onIv = [(0, none)]) ∧ (200000000 ≤ s.chip.tb) ∧
      (s.chip.rd BK_LIM0_DUTY_MAX (bankOf ch.val) < 1000) ∧ (s.chip.rd CH_DRV_STAT_DUTY_LIM ch.val = 0)) ∧
    (∃ (ch : Ch) (z : Int) (s : State), (s.chip.due .temperature ch.val = true) ∧ (175 ≤ z) ∧ (z < 2 ^ (CH_DRV_TJ.w - 1)) ∧ (s.chip.rd
      CH_DRV_STAT_THERM_OFF ch.val = 0)) ∧
    (∃ (mw : Nat) (s : State), (s.chip.due .dieLoss 0 = true)) ∧
    (∃ (d : Die) (mw : Nat) (z : Int) (s : State), (s.chip.due .dieLoss d.val = true) ∧ (z = (if d.val = 0 then s.chip.boost.pEstA else
      s.chip.boost.pEstB))) ∧
    (∃ (who : Writer) (ch : Ch) (w : Word) (s : State), (s.chip.chOk who ch.val = true) ∧ (w.toNat % 1024 < w.toNat / 65536 % 1024) ∧
      (w.toNat / 65536 % 1024 ≤ s.chip.capHold ch.val)) :=
  ⟨⟨.hostA, 3, 0x00640032, st [(PROT_CH_OWN, 0, 0x55555555), (PROT_DW, 0, 7), (BK_LIM0_IPK_MAX, 0, 500)], by decide⟩,
    ⟨.hostA, 3, 0x00320032, st [(PROT_CH_OWN, 0, 0x55555555), (PROT_DW, 0, 7), (BK_LIM0_IPK_MAX, 0, 500)], by decide⟩,
    ⟨3, (st [(CH_DRV_STAT_PHASE, 3, 4), (BK_CTL_EN, 0, 1), (BK_LIM0_DUTY_MAX, 0, 500), (CH_STAT_OUT, 3, 1)]).on fun m => ({ m with tb := 200000000 }).setDrv 3 { onIv := [(0, none)] }, by decide⟩,
    ⟨3, 175, st [(CH_DRV_STAT_PHASE, 3, 4), (BK_CTL_EN, 0, 1), (CH_STAT_OUT, 3, 1)], by decide⟩,
    ⟨7000, State.reset, by decide⟩,
    ⟨1, 7000, 0, State.reset, by decide⟩,
    ⟨.hostA, 3, 0x00640032, st [(PROT_CH_OWN, 0, 0x55555555), (PROT_DW, 0, 7), (BK_LIM0_IPK_MAX, 0, 500)], by decide⟩⟩

theorem witness_NodeTests :
    (∃ (ch : Ch) (s : State), (s.chip.nodeReady ch.val = true) ∧ ((s.chip.drv ch.val).nodeReq = true)) ∧
    (∃ (who : Writer) (ch : Ch) (s : State), ((s.chip.isOwner who (s.chip.chOwner ch.val) && s.chip.runs (clusterOf ch.val)) = true)) ∧
    (∃ (ch : Ch) (v b : Int) (z : Nat) (s : State), ((s.chip.drv ch.val).nodeTb = some z) ∧ (z + 200 * usTb ≤ s.chip.tb) ∧ (b - 3000 ≤ v)
      ∧ (s.chip.rd DG_STAT_STATE ch.val = 1)) ∧
    (∃ (ch : Ch) (v b : Int) (z : Nat) (s : State), ((s.chip.drv ch.val).nodeTb = some z) ∧ (z + 200 * usTb ≤ s.chip.tb) ∧ (v < b - 3000)
      ∧ (1500 ≤ v) ∧ ((s.chip.drv ch.val).nodePrev = 2) ∧ ((s.chip.drv ch.val).det = none) ∧ (s.chip.rd DG_STAT_COND ch.val = 0) ∧
      (s.chip.rd DG_STAT_STATE ch.val ≠ 2) ∧ (s.chip.rd DG_CFG_OL_SAFE ch.val = 0)) ∧
    (∃ (ch : Ch) (v b : Int) (z : Nat) (s : State), ((s.chip.drv ch.val).nodeTb = some z) ∧ (z + 200 * usTb ≤ s.chip.tb) ∧ (v < b - 3000)
      ∧ (v < 1500) ∧ ((s.chip.drv ch.val).nodePrev = 3) ∧ (s.chip.rd DG_STAT_COND ch.val = 0) ∧ (s.chip.rd DG_STAT_STATE ch.val ≠ 2) ∧
      (s.chip.rd DG_CFG_SG_BANK ch.val = 0)) :=
  ⟨⟨3, (st [(CH_DRV_STAT_PHASE, 3, 0), (BK_CTL_EN, 0, 1)]).on fun m => ({ m with tb := 900000 }).setDrv 3 { nodeReq := true }, by decide⟩,
    ⟨.hostA, 3, st [(PROT_CH_OWN, 0, 0x55555555), (PROT_DW, 0, 7)], by decide⟩,
    ⟨3, 12000, 12000, 100, (st [(CH_DRV_STAT_PHASE, 3, 0), (BK_CTL_EN, 0, 1), (DG_STAT_STATE, 3, 1), (DG_STAT_COND, 3, 8)]).on fun m => ({ m with tb := 900000 }).setDrv 3 { nodeTb := some 100 }, by decide⟩,
    ⟨3, 4000, 12000, 100, (st [(CH_DRV_STAT_PHASE, 3, 0), (BK_CTL_EN, 0, 1), (DG_CFG_OL_SAFE, 3, 0)]).on fun m => ({ m with tb := 900000 }).setDrv 3 { nodeTb := some 100, nodePrev := 2 }, by decide⟩,
    ⟨3, 400, 12000, 100, (st [(CH_DRV_STAT_PHASE, 3, 0), (BK_CTL_EN, 0, 1)]).on fun m => ({ m with tb := 900000 }).setDrv 3 { nodeTb := some 100, nodePrev := 3 }, by decide⟩⟩

theorem witness_SupplyTests :
    (∃ (b : Bank) (s : State), (s.chip.supReady b.val = true) ∧ ((s.chip.bank b.val).supReq = true)) ∧
    (∃ (who : Writer) (b : Bank) (s : State), (s.chip.driveOk who = true)) ∧
    (∃ (b : Bank) (x : BitVec 8) (z : Nat) (s : State), ((s.chip.bank b.val).supTb = some z) ∧ (z + 100 * usTb ≤ s.chip.tb)) ∧
    (∃ (b : Bank) (z : Nat) (s : State), ((s.chip.bank b.val).supTb = some z) ∧ (z + 5 * msTb ≤ s.chip.tb)) :=
  ⟨⟨5, State.reset.on fun m => ({ m with tb := 900001 }).setBank 5 { supReq := true }, by decide⟩,
    ⟨.hostA, 5, st [(PROT_ROLE_DRIVE, 0, 1), (PROT_DW, 0, 7)], by decide⟩,
    ⟨5, 0xFF, 7, (st [(DGB_STAT_BUSY, 5, 1)]).on fun m => ((({ m with tb := 900001 }).setBank 5 { supTb := some 7 }).setDrv 41 { supPrev := some true }).setDrv 42 { supPrev := some true }, by decide⟩,
    ⟨5, 7, (st [(DGB_STAT_BUSY, 5, 1)]).on fun m => ({ m with tb := 2000001 }).setBank 5 { supTb := some 7 }, by decide⟩⟩

theorem witness_OnStateFaults :
    (∃ (ch : Ch) (ma : Nat) (s : State), (6000 ≤ ma) ∧ (s.chip.rd DG_STAT_STATE ch.val ≠ 2)) ∧
    (∃ (ch : Ch) (code z : Nat) (s : State), (s.chip.onTest ch.val = some z) ∧ (s.chip.rd DG_ON0_I_FAST ch.val ≤ code) ∧ (s.chip.tb ≤ z +
      max 1 (s.chip.rd DG_ON0_T_FAST ch.val) * usTb) ∧ (s.chip.rd DG_STAT_STATE ch.val ≠ 2)) ∧
    (∃ (ch : Ch) (code z : Nat) (s : State), (s.chip.onTest ch.val = some z) ∧ ((s.chip.drv ch.val).plain = false) ∧ ((s.chip.drv
      ch.val).noRiseDone = false) ∧ (z + max 1 (s.chip.rd DG_ON1_T_NORISE ch.val) * usTb ≤ s.chip.tb) ∧ (s.chip.phase ch.val = 3) ∧ (code
      < s.chip.rd DG_ON1_I_NORISE ch.val) ∧ (s.chip.rd DG_STAT_STATE ch.val = 0)) ∧
    (∃ (ch : Ch) (v : Int) (z : Nat) (s : State), ((s.chip.drv ch.val).offTb = some z) ∧ (z + 20 * usTb ≤ s.chip.tb) ∧ (s.chip.acting
      ch.val = false) ∧ (s.chip.rd DG_CFG_ON_EN ch.val = 1) ∧ ((s.chip.drv ch.val).fromOff = true) ∧ (s.chip.rd DG_ON1_I_NORISE ch.val ≤
      (s.chip.drv ch.val).offCode) ∧ (v < 1500) ∧ (s.chip.cond ch.val 1 = false) ∧ (s.chip.rd DG_CFG_SG_BANK ch.val = 0) ∧ (s.chip.rd
      DG_STAT_STATE ch.val ≠ 2)) ∧
    (∃ (who : Writer) (ch : Ch) (s : State), ((s.chip.isOwner who (s.chip.chOwner ch.val) && s.chip.runs (clusterOf ch.val)) = true) ∧
      (s.chip.rd DG_STAT_STATE ch.val = 2) ∧ ((s.chip.drv ch.val).det = none) ∧ (s.chip.cond ch.val 0 = false) ∧ (s.chip.cond ch.val 1 =
      false) ∧ ((s.chip.drv ch.val).sbSup = false)) ∧
    (∃ (who : Writer) (ch : Ch) (s : State), ((s.chip.isOwner who (s.chip.chOwner ch.val) && s.chip.runs (clusterOf ch.val)) = true) ∧
      (s.chip.rd DG_STAT_STATE ch.val = 2) ∧ (s.chip.cond ch.val 1 = true)) :=
  ⟨⟨3, 6000, st [(CH_DRV_STAT_PHASE, 3, 3), (BK_CTL_EN, 0, 1), (CH_STAT_OUT, 3, 1)], by decide⟩,
    ⟨3, 500, 0, (st [(CH_DRV_STAT_PHASE, 3, 3), (BK_CTL_EN, 0, 1), (DG_CFG_ON_EN, 3, 1)]).on fun m => m.setDrv 3 { fromOff := true, onTb := some 0 }, by decide⟩,
    ⟨3, 5, 0, (st [(CH_DRV_STAT_PHASE, 3, 3), (BK_CTL_EN, 0, 1), (DG_CFG_ON_EN, 3, 1), (DG_ON1_I_NORISE, 3, 50)]).on fun m => ({ m with tb := 900000 }).setDrv 3 { fromOff := true, onTb := some 0 }, by decide⟩,
    ⟨3, 5, 0, (st [(CH_DRV_STAT_PHASE, 3, 0), (BK_CTL_EN, 0, 1), (DG_CFG_ON_EN, 3, 1)]).on fun m => ({ m with tb := 900000 }).setDrv 3 { fromOff := true, offTb := some 0, offCode := 900 }, by decide⟩,
    ⟨.hostA, 3, st [(PROT_CH_OWN, 0, 0x55555555), (PROT_DW, 0, 7), (DG_STAT_STATE, 3, 2), (DG_STAT_COND, 3, 4)], by decide⟩,
    ⟨.hostA, 3, st [(PROT_CH_OWN, 0, 0x55555555), (PROT_DW, 0, 7), (DG_STAT_STATE, 3, 2), (DG_STAT_COND, 3, 2)], by decide⟩⟩

theorem witness_NotchAndCapture :
    (∃ (ch : Ch) (xs : List (Nat × Nat)) (z : Nat) (s : State), ((s.chip.drv ch.val).notch = true) ∧ (s.chip.acting ch.val = true) ∧
      (s.chip.tb ≤ (s.chip.drv ch.val).fireTb + (s.chip.drv ch.val).nMax * 2000) ∧ (s.chip.notchIn ch.val xs = some z)) ∧
    (∃ (ch : Ch) (s : State), ((s.chip.drv ch.val).notch = true) ∧ ((s.chip.drv ch.val).fireTb + (s.chip.drv ch.val).nMax * 2000 ≤
      s.chip.tb)) ∧
    (∃ (ch : Ch) (s : State), ((s.chip.drv ch.val).notchAt ≠ some s.chip.tb)) ∧
    (∃ (c : Cap) (l : Fin 4) (xs : List (BitVec 12)) (s : State), (Memory.wf s.chip.mem = true) ∧ (s.chip.lane c.val l.val = 2) ∧
      (xs.length = s.chip.laneLen c.val * s.chip.lanePer c.val) ∧ (s.chip.laneTb c.val l.val + s.chip.laneLen c.val * s.chip.laneStep
      c.val ≤ s.chip.tb) ∧ (s.chip.rd CAP_CFG_EN c.val = 0) ∧ (tabGet s.chip.capReq c.val [] = [])) ∧
    (∃ (who : Writer) (c : Cap) (s : State), (s.chip.driveOk who = true) ∧ (s.chip.lane c.val 0 = 3) ∧ (s.chip.rd CAP_CFG_EN c.val = 0) ∧
      (tabGet s.chip.capReq c.val [] = [])) ∧
    (∃ (who : Writer) (c : Cap) (i : Fin 24) (s : State), (s.chip.driveOk who = true) ∧ (s.chip.lane c.val 0 = 0) ∧ (tabGet s.chip.capReq
      c.val [] = [])) ∧
    (∃ (c : Cap) (l : Fin 4) (s : State), (s.chip.lane c.val l.val = 1) ∧ (tabGet s.chip.capTb (laneIx c.val l.val) 0 + 100 * msTb ≤
      s.chip.tb) ∧ (s.chip.rd CAP_CFG_EN c.val = 0) ∧ (tabGet s.chip.capReq c.val [] = [])) :=
  ⟨⟨3, [], 2500, (st [(CH_DRV_STAT_PHASE, 3, 3), (BK_CTL_EN, 0, 1)]).on fun m => ({ m with tb := 10000 }).setDrv 3 { notch := true, fromOff := true, nMin := 0, nMax := 200, nDrop := 10, ons := [⟨0, some 1000, false, 100⟩, ⟨2000, some 3000, false, 50⟩, ⟨4000, some 5000, false, 100⟩] }, by decide, by decide, by decide, by decide +kernel⟩,
    ⟨3, (st [(CH_DRV_STAT_PHASE, 3, 3), (BK_CTL_EN, 0, 1)]).on fun m => ({ m with tb := 9000000 }).setDrv 3 { notch := true }, by decide⟩,
    ⟨3, State.reset.on fun m => m.setDrv 3 { notchTb := 0x500000009 }, by decide⟩,
    ⟨2, 0, 0x234 :: List.replicate 8191 0, (st [(CAP_CFG_LANES, 2, 2), (CAP_CFG_EN, 2, 0), (CAP_CFG_DEC, 2, 0), (CAP_L_CH_LSTATE, 8, 2)]).on fun m => { m with tb := 99999999 }, by decide, by decide, by simp only [List.length_cons, List.length_replicate]; decide, by decide, by decide, by decide⟩,
    ⟨.hostA, 2, st [(PROT_ROLE_DRIVE, 0, 1), (PROT_DW, 0, 7), (CAP_L_CH_LSTATE, 8, 3), (CAP_CFG_EN, 2, 0)], by decide⟩,
    ⟨.hostA, 2, 5, st [(PROT_ROLE_DRIVE, 0, 1), (PROT_DW, 0, 7)], by decide⟩,
    ⟨2, 1, (st [(CAP_L_CH_LSTATE, 9, 1), (CAP_CFG_EN, 2, 0)]).on fun m => { m with tb := 99999999 }, by decide⟩⟩

theorem witness_Modulators :
    (∃ (u : Adc) (v : NanoVolt) (s : State), (s.chip.rd ADC_CTL_MODE u.val = 1) ∧ (s.chip.rd ADC_STAT_PAIRED u.val = 0) ∧ (s.chip.adcClock
      u.val = true) ∧ ((s.chip.adcU u.val).next ≤ s.chip.tb) ∧ (s.chip.adcPair u.val = false) ∧ (adcClip (inDiff (s.chip.adcU
      u.val).input) (adcCode (inDiff (s.chip.adcU u.val).input) v) = adcCode (inDiff (s.chip.adcU u.val).input) v)) ∧
    (∃ (who : Writer) (u : Adc) (s : State), (s.chip.sysOk who = true) ∧ (s.chip.adcClock u.val = true) ∧ (s.chip.rd ADC_STAT_PAIRED u.val
      = 0) ∧ (s.chip.rd ADC_CTL_MODE u.val = 2) ∧ (s.chip.rd ADC_STAT_BUSY u.val = 0)) ∧
    (∃ (who : Writer) (u : Adc) (s : State), (s.chip.sysOk who = true) ∧ (s.chip.adcClock u.val = true) ∧ (s.chip.rd ADC_STAT_BUSY u.val =
      1)) ∧
    (∃ (who : Writer) (u : Adc) (w : Word) (s : State), (s.chip.sysOk who = true) ∧ (s.chip.adcClock u.val = true) ∧ (s.chip.rd
      ADC_STAT_PAIRED u.val = 0) ∧ (s.chip.adcPair u.val = false) ∧ (bitAt w.toNat 6 = false) ∧ (s.chip.rd ADC_CTL_MODE u.val ≠ wordField
      ADC_CTL_MODE w.toNat)) ∧
    (∃ (who : Writer) (u : Adc) (w : Word) (s : State), (s.chip.sysOk who = true) ∧ (s.chip.adcClock u.val = true) ∧ (s.chip.rd
      ADC_STAT_PAIRED u.val = 1)) ∧
    (∃ (who : Writer) (u : Adc) (w : Word) (s : State), (s.chip.sysOk who = true) ∧ (s.chip.adcClock u.val = true) ∧ (s.chip.rd
      ADC_STAT_PAIRED u.val = 0) ∧ (adcReach u.val (w.toNat % 1024) = true)) ∧
    (∃ (u : Adc) (s : State), (s.chip.adcClock u.val = true)) :=
  ⟨⟨1, 2500000000, (st [(CLK_GATE0, 0, 0xFFFFFFFF), (CLK_GATE1, 0, 0xFFFFFFFF), (ADC_CTL_MODE, 1, 1)]), by decide⟩,
    ⟨.hostA, 1, st [(PROT_ROLE_SYSTEM, 0, 1), (PROT_DW, 0, 7), (CLK_GATE0, 0, 0xFFFFFFFF), (CLK_GATE1, 0, 0xFFFFFFFF), (ADC_CTL_MODE, 1, 2)], by decide⟩,
    ⟨.hostA, 1, st [(PROT_ROLE_SYSTEM, 0, 1), (PROT_DW, 0, 7), (CLK_GATE0, 0, 0xFFFFFFFF), (CLK_GATE1, 0, 0xFFFFFFFF), (ADC_CTL_MODE, 1, 2), (ADC_STAT_BUSY, 1, 1)], by decide⟩,
    ⟨.hostA, 1, 0x2D, st [(PROT_ROLE_SYSTEM, 0, 1), (PROT_DW, 0, 7), (CLK_GATE0, 0, 0xFFFFFFFF), (CLK_GATE1, 0, 0xFFFFFFFF)], by decide⟩,
    ⟨.hostA, 1, 0x2D, st [(PROT_ROLE_SYSTEM, 0, 1), (PROT_DW, 0, 7), (CLK_GATE0, 0, 0xFFFFFFFF), (CLK_GATE1, 0, 0xFFFFFFFF), (ADC_STAT_PAIRED, 1, 1)], by decide⟩,
    ⟨.hostA, 1, 23, st [(PROT_ROLE_SYSTEM, 0, 1), (PROT_DW, 0, 7), (CLK_GATE0, 0, 0xFFFFFFFF), (CLK_GATE1, 0, 0xFFFFFFFF)], by decide⟩,
    ⟨1, (st [(CLK_GATE0, 0, 0xFFFFFFFF), (CLK_GATE1, 0, 0xFFFFFFFF), (ADC_STAT_NEW, 1, 1), (ADC_RES, 1, 77)]).on fun m => m.setAdc 1 { resTb := 0x100000003 }, by decide⟩⟩

theorem witness_AssayEntries :
    (∃ (who : Writer) (w : Word) (s : State), (s.chip.sysOk who = true) ∧ (s.chip.asClock = true) ∧ (bitAt w.toNat 0 = true) ∧ (s.chip.rd
      AS_CTL_EN = 0)) ∧
    (∃ (s : State), (s.chip.rd AS_CTL_EN = 1) ∧ (s.chip.asClock = true) ∧ (s.chip.assay.run = none) ∧ (s.chip.rd AS_E0_EN s.chip.assay.pos
      = 1) ∧ (s.chip.rd ADC_CTL_MODE (s.chip.asEntry s.chip.assay.pos).unit = 3) ∧ (adcReach (s.chip.asEntry s.chip.assay.pos).unit
      (s.chip.asEntry s.chip.assay.pos).input = true)) ∧
    (∃ (r : AsRun) (v : Int) (s : State), (s.chip.assay.run = some r) ∧ (s.chip.asClock = true) ∧ (s.chip.rd ADC_CTL_MODE r.unit = 3) ∧
      (r.rep = 0) ∧ (r.start + asSpan r ≤ s.chip.tb) ∧ (asOut r (adcWord false (meanAway [adcClip (inDiff r.input) (adcCode (inDiff
      r.input) v)])) = false) ∧ (r.last = false) ∧ (r.entry < 63)) :=
  ⟨⟨.hostA, 1, st [(PROT_ROLE_SYSTEM, 0, 1), (PROT_DW, 0, 7), (CLK_GATE0, 0, 0xFFFFFFFF), (CLK_GATE1, 0, 0xFFFFFFFF)], by decide⟩,
    ⟨st [(CLK_GATE0, 0, 0xFFFFFFFF), (CLK_GATE1, 0, 0xFFFFFFFF), (AS_CTL_EN, 0, 1), (AS_E0_EN, 0, 1), (AS_E0_INPUT, 0, 5), (ADC_CTL_MODE, 0, 3)], by decide⟩,
    ⟨⟨2, 5, 0, 6, 0, 0, 0, 1, 0, false, 0⟩, 1000000000, (st [(CLK_GATE0, 0, 0xFFFFFFFF), (CLK_GATE1, 0, 0xFFFFFFFF), (AS_CTL_EN, 0, 1), (ADC_CTL_MODE, 0, 3)]).on fun m => { m with tb := 99999, assay := { run := some ⟨2, 5, 0, 6, 0, 0, 0, 1, 0, false, 0⟩ } }, by decide⟩⟩

theorem witness_Comparators :
    (∃ (n : Cmp) (code z k : Nat) (s : State), (s.chip.rd CMP_STAT_VALID n.val = 1) ∧ (s.chip.cmpClock n.val = true) ∧ (s.chip.stable z
      (s.chip.rd CMP_CFG_FILT n.val) = true) ∧ (k = windowNext (s.chip.rd CMP_STAT_STATE n.val) (s.chip.rd CMP_THR_LO n.val) (s.chip.rd
      CMP_THR_HI n.val) (s.chip.rd CMP_CFG_HYS n.val) code) ∧ (k ≠ s.chip.rd CMP_STAT_STATE n.val)) ∧
    (∃ (n : Cmp) (code : Nat) (s : State), (s.chip.rd CMP_CFG_EN n.val = 1) ∧ (s.chip.rd CMP_STAT_VALID n.val = 0) ∧ (s.chip.cmpClock
      n.val = true) ∧ ((s.chip.cmpU n.val).enTb + usTb ≤ s.chip.tb)) ∧
    (∃ (who : Writer) (n : Cmp) (w : Word) (s : State), (s.chip.sysOk who = true) ∧ (s.chip.cmpClock n.val = true) ∧ (w.toNat % 1024 <
      w.toNat / 65536 % 1024)) ∧
    (∃ (who : Writer) (n : Cmp) (w : Word) (s : State), (s.chip.sysOk who = true) ∧ (s.chip.cmpClock n.val = true) ∧ (w.toNat / 65536 %
      1024 ≤ w.toNat % 1024)) ∧
    (∃ (n : Cmp) (s : State), (s.chip.cmpClock n.val = true)) ∧
    (∃ (n : Sds) (code z k : Nat) (s : State), (s.chip.rd SDS_STAT_VALID n.val = 1) ∧ (s.chip.sdsClock n.val = true) ∧ (s.chip.sdsForced
      n.val = false) ∧ (s.chip.stable z (s.chip.rd SDS_CFG_FILT n.val) = true) ∧ (k = windowNext (s.chip.rd SDS_STAT_STATE n.val)
      (s.chip.rd SDS_THR_LO n.val) (s.chip.rd SDS_THR_HI n.val) (s.chip.rd SDS_CFG_HYS n.val) code) ∧ (k ≠ s.chip.rd SDS_STAT_STATE
      n.val)) ∧
    (∃ (n : Sds) (code : Nat) (s : State), (s.chip.rd SDS_CFG_EN n.val = 1) ∧ (s.chip.rd SDS_STAT_VALID n.val = 0) ∧ (s.chip.sdsClock
      n.val = true) ∧ ((s.chip.sdsU n.val).enTb + usTb ≤ s.chip.tb) ∧ (s.chip.sdsForced n.val = false)) ∧
    (∃ (who : Writer) (n : Cmp) (w : Word) (s : State), (s.chip.sysOk who = true) ∧ (s.chip.cmpClock n.val = true) ∧ (s.chip.rd CMP_CFG_EN
      n.val = 0) ∧ (bitAt w.toNat 0 = true) ∧ (wordField CMP_CFG_AIN w.toNat / 24 = n.val / 8)) ∧
    (∃ (who : Writer) (n : Sds) (w : Word) (s : State), (s.chip.sysOk who = true) ∧ (s.chip.sdsClock n.val = true) ∧ (s.chip.rd SDS_CFG_EN
      n.val = 0) ∧ (bitAt w.toNat 0 = true)) :=
  ⟨⟨3, 900, 5, 2, (st [(CLK_GATE0, 0, 0xFFFFFFFF), (CLK_GATE1, 0, 0xFFFFFFFF), (CMP_STAT_VALID, 3, 1), (CMP_THR_LO, 3, 100), (CMP_THR_HI, 3, 500)]).on fun m => { m with tb := 9999 }, by decide⟩,
    ⟨3, 900, (st [(CLK_GATE0, 0, 0xFFFFFFFF), (CLK_GATE1, 0, 0xFFFFFFFF), (CMP_CFG_EN, 3, 1), (CMP_THR_LO, 3, 100), (CMP_THR_HI, 3, 500)]).on fun m => { m with tb := 9999 }, by decide⟩,
    ⟨.hostA, 3, 0x00640032, st [(PROT_ROLE_SYSTEM, 0, 1), (PROT_DW, 0, 7), (CLK_GATE0, 0, 0xFFFFFFFF), (CLK_GATE1, 0, 0xFFFFFFFF)], by decide⟩,
    ⟨.hostA, 3, 0x00320032, st [(PROT_ROLE_SYSTEM, 0, 1), (PROT_DW, 0, 7), (CLK_GATE0, 0, 0xFFFFFFFF), (CLK_GATE1, 0, 0xFFFFFFFF)], by decide⟩,
    ⟨3, (st [(CLK_GATE0, 0, 0xFFFFFFFF), (CLK_GATE1, 0, 0xFFFFFFFF)]).on fun m => m.setCmp 3 { tb := 0x700000001 }, by decide⟩,
    ⟨3, 900, 5, 2, (st [(CLK_GATE0, 0, 0xFFFFFFFF), (CLK_GATE1, 0, 0xFFFFFFFF), (SDS_STAT_VALID, 3, 1), (SDS_STAT_STATE, 3, 1), (SDS_CFG_FILT, 3, 0), (SDS_CFG_POL, 3, 1), (SDS_THR_LO, 3, 100), (SDS_THR_HI, 3, 500)]).on fun m => { m with tb := 9999 }, by decide⟩,
    ⟨3, 900, (st [(CLK_GATE0, 0, 0xFFFFFFFF), (CLK_GATE1, 0, 0xFFFFFFFF), (SDS_CFG_EN, 3, 1), (SDS_THR_LO, 3, 100), (SDS_THR_HI, 3, 500)]).on fun m => { m with tb := 9999 }, by decide⟩,
    ⟨.hostA, 3, 1, st [(PROT_ROLE_SYSTEM, 0, 1), (PROT_DW, 0, 7), (CLK_GATE0, 0, 0xFFFFFFFF), (CLK_GATE1, 0, 0xFFFFFFFF)], by decide⟩,
    ⟨.hostA, 3, 1, st [(PROT_ROLE_SYSTEM, 0, 1), (PROT_DW, 0, 7), (CLK_GATE0, 0, 0xFFFFFFFF), (CLK_GATE1, 0, 0xFFFFFFFF)], by decide⟩⟩

theorem witness_SeedSensors :
    (∃ (n : Sds) (a b : Nat) (r : List (Nat × Nat × Bool)) (s : State), ((s.chip.sdsU n.val).ended = (a, b, false) :: r) ∧ (s.chip.rd
      SDS_WID_W_MIN n.val * usTb ≤ b - a) ∧ (b - a ≤ s.chip.rd SDS_WID_W_MAX n.val * 10 * usTb)) ∧
    (∃ (n : Sds) (a : Nat) (s : State), ((s.chip.sdsU n.val).exc = some a) ∧ ((s.chip.sdsU n.val).blocked = false) ∧ (s.chip.sdsClock
      n.val = true) ∧ (a + s.chip.rd SDS_WID_W_MAX n.val * 10 * usTb < s.chip.tbOf islObserver)) ∧
    (∃ (n : Sds) (mv : Int) (s : State), (s.chip.rd SDS_CFG_DIAG_EN n.val = 1) ∧ (s.chip.due .sdsDiag n.val = true) ∧ (s.chip.sdsClock
      n.val = true) ∧ ((s.chip.sdsU n.val).present = [0, 1, 0]) ∧ ((s.chip.sdsU n.val).absent = [0, 0, 0]) ∧ (6000 < mv) ∧ (bitAt
      (s.chip.rd SDS_STAT_COND n.val) 1 = false)) ∧
    (∃ (n : Sds) (p q : Bool) (s : State), (s.chip.rd SDS_CFG_DIAG_EN n.val = 1) ∧ (s.chip.rd SDS_CFG_PULL n.val = 3) ∧ (s.chip.due
      .sdsPull n.val = true) ∧ (s.chip.sdsClock n.val = true) ∧ (s.chip.sdsForced n.val = false)) ∧
    (∃ (n : Sds) (s : State), (s.chip.sdsClock n.val = true)) ∧
    (∃ (n : Sds) (mv : Int) (s : State), (s.chip.rd SDS_CFG_DIAG_EN n.val = 1) ∧ (s.chip.due .sdsDiag n.val = true) ∧ (s.chip.sdsClock
      n.val = true) ∧ (mv ≤ 6000) ∧ (-500 ≤ mv) ∧ ((s.chip.sdsU n.val).pullOpen = false) ∧ (s.chip.rd SDS_STAT_COND n.val = 0) ∧
      ((s.chip.sdsU n.val).present.length = 3) ∧ ((s.chip.sdsU n.val).absent.length = 3)) :=
  ⟨⟨3, 1000, 101000, [], (st [(CLK_GATE0, 0, 0xFFFFFFFF), (CLK_GATE1, 0, 0xFFFFFFFF), (SDS_WID_W_MIN, 3, 1), (SDS_WID_W_MAX, 3, 100)]).on fun m => m.setSds 3 { ended := [(1000, 101000, false)] }, by decide⟩,
    ⟨3, 1000, (st [(CLK_GATE0, 0, 0xFFFFFFFF), (CLK_GATE1, 0, 0xFFFFFFFF), (SDS_WID_W_MAX, 3, 1)]).on fun m => ({ m with tb := 9999 }).setSds 3 { exc := some 1000 }, by decide⟩,
    ⟨3, 6001, (st [(CLK_GATE0, 0, 0xFFFFFFFF), (CLK_GATE1, 0, 0xFFFFFFFF), (SDS_CFG_DIAG_EN, 3, 1)]).on fun m => ({ m with tb := 9999 }).setSds 3 { exc := some 1000, present := [0, 1, 0] }, by decide⟩,
    ⟨3, true, true, st [(CLK_GATE0, 0, 0xFFFFFFFF), (CLK_GATE1, 0, 0xFFFFFFFF), (SDS_CFG_DIAG_EN, 3, 1), (SDS_CFG_PULL, 3, 3)], by decide⟩,
    ⟨3, (st [(CLK_GATE0, 0, 0xFFFFFFFF), (CLK_GATE1, 0, 0xFFFFFFFF)]).on fun m => m.setSds 3 { dropTb := 0x700000001, dropW := 9 }, by decide⟩,
    ⟨3, 1000, (st [(CLK_GATE0, 0, 0xFFFFFFFF), (CLK_GATE1, 0, 0xFFFFFFFF), (SDS_CFG_DIAG_EN, 3, 1)]).on fun m => ({ m with tb := 9999 }).setSds 3 { present := [0, 1, 0] }, by decide⟩⟩

theorem witness_Timers :
    (∃ (n : Tim) (s : State), (s.chip.rd TIM_CTL_EN n.val = 1) ∧ (s.chip.timClock n.val = true) ∧ (s.chip.rd TIM_STAT_FROZEN n.val = 0) ∧
      (s.chip.rd TIM_CTL_CLK n.val = 0) ∧ ((s.chip.tmr n.val).last + (s.chip.rd TIM_CTL_PRESC n.val + 1) ≤ s.chip.tb) ∧ (s.chip.rd
      TIM_CTL_MODE n.val = 0)) ∧
    (∃ (n : Tim) (s : State), (s.chip.rd TIM_CTL_EN n.val = 1) ∧ (s.chip.timClock n.val = true) ∧ (s.chip.rd TIM_STAT_FROZEN n.val = 0) ∧
      (s.chip.rd TIM_CTL_CLK n.val = 0) ∧ ((s.chip.tmr n.val).last + (s.chip.rd TIM_CTL_PRESC n.val + 1) ≤ s.chip.tb) ∧ (s.chip.rd
      TIM_CTL_MODE n.val = 1) ∧ (s.chip.rd TIM_CNT n.val = s.chip.rd TIM_PER n.val)) ∧
    (∃ (n : Tim) (r : Bool) (s : State), (s.chip.rd TIM_CTL_EN n.val = 1) ∧ (s.chip.timClock n.val = true) ∧ (bitAt (s.chip.rd
      TIM_SRC_CAP_EDGE n.val) (if r then 0 else 1) = true)) ∧
    (∃ (n : Tim) (s : State), (s.chip.timClock n.val = true)) ∧
    (∃ (n : Tim) (s : State), (s.chip.rd PROT_DBG_C = 1) ∧ (bitAt (s.chip.rd TIM_CTL_DBG_FRZ n.val) 1 = true) ∧ (s.chip.rd TIM_STAT_FROZEN
      n.val = 0)) ∧
    (∃ (who : Writer) (n : Tim) (w : Word) (s : State), (s.chip.sysOk who = true) ∧ (s.chip.timClock n.val = true)) ∧
    (∃ (n : Tim) (s : State), (s.chip.rd PROT_DBG_V = 1) ∧ (s.chip.rd KEY_STAT_LIFE = 0) ∧ (bitAt (s.chip.rd TIM_CTL_DBG_FRZ n.val) 0 =
      true) ∧ (s.chip.rd TIM_STAT_FROZEN n.val = 0)) ∧
    (∃ (k : Core) (n : Tim) (s : State), (s.chip.rd TIM_STAT_FROZEN n.val = 1) ∧ ((s.chip.core (1 - coreNo k)).halted = false)) ∧
    (∃ (who : Writer) (n : Tim) (w : Word) (s : State), (s.chip.sysOk who = true) ∧ (s.chip.timClock n.val = true) ∧ (wordField
      TIM_CTL_MODE w.toNat ≠ 2)) :=
  ⟨⟨3, (st [(CLK_GATE0, 0, 0xFFFFFFFF), (CLK_GATE1, 0, 0xFFFFFFFF), (TIM_CTL_EN, 3, 1), (TIM_CNT, 3, 0xFFFFFFFF)]).on fun m => { m with tb := 9999 }, by decide⟩,
    ⟨3, (st [(CLK_GATE0, 0, 0xFFFFFFFF), (CLK_GATE1, 0, 0xFFFFFFFF), (TIM_CTL_EN, 3, 1), (TIM_CTL_MODE, 3, 1), (TIM_CNT, 3, 8), (TIM_PER, 3, 8)]).on fun m => { m with tb := 9999 }, by decide⟩,
    ⟨3, false, st [(CLK_GATE0, 0, 0xFFFFFFFF), (CLK_GATE1, 0, 0xFFFFFFFF), (TIM_CTL_EN, 3, 1), (TIM_SRC_CAP_EDGE, 3, 2), (TIM_CNT, 3, 8)], by decide⟩,
    ⟨3, st [(CLK_GATE0, 0, 0xFFFFFFFF), (CLK_GATE1, 0, 0xFFFFFFFF), (TIM_STAT_NEW, 3, 1), (TIM_CAP, 3, 5)], by decide⟩,
    ⟨15, st [(PROT_DBG_C, 0, 1), (TIM_CTL_DBG_FRZ, 15, 2)], by decide⟩,
    ⟨.hostA, 3, 77, st [(PROT_ROLE_SYSTEM, 0, 1), (PROT_DW, 0, 7), (CLK_GATE0, 0, 0xFFFFFFFF), (CLK_GATE1, 0, 0xFFFFFFFF)], by decide⟩,
    ⟨15, st [(PROT_DBG_V, 0, 1), (TIM_CTL_DBG_FRZ, 15, 1)], by decide⟩,
    ⟨.c, 15, (st [(TIM_STAT_FROZEN, 15, 1), (TIM_CTL_DBG_FRZ, 15, 2)]).on fun m => { m with tb := 700, coreC := { halted := true } }, by decide⟩,
    ⟨.hostA, 3, 0x103, st [(PROT_ROLE_SYSTEM, 0, 1), (PROT_DW, 0, 7), (CLK_GATE0, 0, 0xFFFFFFFF), (CLK_GATE1, 0, 0xFFFFFFFF), (TIM_CNT, 3, 9)], by decide⟩⟩

theorem witness_EngineFlow :
    (∃ (e : Fe) (p : BitVec 64) (s : State), (s.chip.feReady e.val = true) ∧ (opOf (s.chip.feWord e.val) = 0) ∧ (feIllegal (s.chip.feWord
      e.val) = false) ∧ ((s.chip.feWord e.val) / 256 % 16 = 0)) ∧
    (∃ (e : Fe) (p : BitVec 64) (s : State), (s.chip.feReady e.val = true) ∧ (opOf (s.chip.feWord e.val) = 1) ∧ (feIllegal (s.chip.feWord
      e.val) = false) ∧ ((s.chip.sample p).feSig e.val ((s.chip.feWord e.val) / 512 % 4) = bitAt (s.chip.feWord e.val) 11) ∧ (bitAt
      (s.chip.feWord e.val) 8 = false)) ∧
    (∃ (e : Fe) (p : BitVec 64) (s : State), (s.chip.feReady e.val = true) ∧ (opOf (s.chip.feWord e.val) = 1) ∧ (feIllegal (s.chip.feWord
      e.val) = false) ∧ ((s.chip.sample p).feSig e.val ((s.chip.feWord e.val) / 512 % 4) = !bitAt (s.chip.feWord e.val) 11) ∧ (bitAt
      (s.chip.feWord e.val) 8 = true)) ∧
    (∃ (e : Fe) (s : State), (s.chip.feReady e.val = true) ∧ (opOf (s.chip.feWord e.val) = 5) ∧ (feIllegal (s.chip.feWord e.val) = false)
      ∧ (bitAt (s.chip.feWord e.val) 11 = false)) ∧
    (∃ (e : Fe) (s : State), (s.chip.feReady e.val = true) ∧ (opOf (s.chip.feWord e.val) = 6) ∧ (feIllegal (s.chip.feWord e.val) = false)
      ∧ (bitAt (s.chip.feWord e.val) 11 = true)) ∧
    (∃ (e : Fe) (p : BitVec 64) (s : State), (s.chip.feReady e.val = true) ∧ (opOf (s.chip.feWord e.val) = 4) ∧ (feIllegal (s.chip.feWord
      e.val) = false) ∧ ((s.chip.feWord e.val) / 256 % 16 = 1)) ∧
    (∃ (e : Fe) (s : State), (s.chip.feReady e.val = true) ∧ (opOf (s.chip.feWord e.val) = 7) ∧ (feIllegal (s.chip.feWord e.val) = false)
      ∧ (bitAt (s.chip.feWord e.val) 8 = false) ∧ (patOf (s.chip.feWord e.val) = 0)) ∧
    (∃ (e : Fe) (p : BitVec 64) (b : Bool) (s : State), (s.chip.feReady e.val = true) ∧ (opOf (s.chip.feWord e.val) = 0) ∧ (feIllegal
      (s.chip.feWord e.val) = false) ∧ (((s.chip.sample p).jumpTest e.val ((s.chip.feWord e.val) / 256 % 16)).1 = b)) ∧
    (∃ (e : Fe) (s : State), (s.chip.feReady e.val = true) ∧ (opOf (s.chip.feWord e.val) = 5) ∧ (feIllegal (s.chip.feWord e.val) = false)
      ∧ (bitAt (s.chip.feWord e.val) 11 = true)) ∧
    (∃ (e : Fe) (s : State), (s.chip.feReady e.val = true) ∧ (opOf (s.chip.feWord e.val) = 6) ∧ (feIllegal (s.chip.feWord e.val) = false)
      ∧ (bitAt (s.chip.feWord e.val) 11 = false)) ∧
    (∃ (e : Fe) (p : BitVec 64) (s : State), (s.chip.feReady e.val = true) ∧ (opOf (s.chip.feWord e.val) = 4) ∧ (feIllegal (s.chip.feWord
      e.val) = false) ∧ ((s.chip.feWord e.val) / 256 % 16 = 2)) ∧
    (∃ (e : Fe) (p : BitVec 64) (s : State), (s.chip.feReady e.val = true) ∧ (opOf (s.chip.feWord e.val) = 4) ∧ (feIllegal (s.chip.feWord
      e.val) = false) ∧ ((s.chip.feWord e.val) / 256 % 16 = 3)) ∧
    (∃ (e : Fe) (p : BitVec 64) (s : State), (s.chip.feReady e.val = true) ∧ (opOf (s.chip.feWord e.val) = 4) ∧ (feIllegal (s.chip.feWord
      e.val) = false) ∧ ((s.chip.feWord e.val) / 256 % 16 = 4)) ∧
    (∃ (e : Fe) (s : State), (s.chip.feReady e.val = true) ∧ (opOf (s.chip.feWord e.val) = 7) ∧ (feIllegal (s.chip.feWord e.val) = false)
      ∧ (bitAt (s.chip.feWord e.val) 8 = true)) :=
  ⟨⟨9, 0, st [(CLK_GATE0, 0, 0xFFFFFFFF), (CLK_GATE1, 0, 0xFFFFFFFF), (FE_CTL_EN, 9, 1), (FE_PROG, 576, 0 * 2 ^ 20 + 42)], by decide⟩,
    ⟨9, 0, st [(CLK_GATE0, 0, 0xFFFFFFFF), (CLK_GATE1, 0, 0xFFFFFFFF), (FE_CTL_EN, 9, 1), (FE_PROG, 576, 1 * 2 ^ 20 + 0)], by decide⟩,
    ⟨9, 0, st [(CLK_GATE0, 0, 0xFFFFFFFF), (CLK_GATE1, 0, 0xFFFFFFFF), (FE_CTL_EN, 9, 1), (FE_PROG, 576, 1 * 2 ^ 20 + 2 ^ 11 + 256)], by decide⟩,
    ⟨9, st [(CLK_GATE0, 0, 0xFFFFFFFF), (CLK_GATE1, 0, 0xFFFFFFFF), (FE_CTL_EN, 9, 1), (FE_PROG, 576, 5 * 2 ^ 20 + 1234)], by decide⟩,
    ⟨9, st [(CLK_GATE0, 0, 0xFFFFFFFF), (CLK_GATE1, 0, 0xFFFFFFFF), (FE_CTL_EN, 9, 1), (FE_PROG, 576, 6 * 2 ^ 20 + 4095)], by decide⟩,
    ⟨9, 0, st [(CLK_GATE0, 0, 0xFFFFFFFF), (CLK_GATE1, 0, 0xFFFFFFFF), (FE_CTL_EN, 9, 1), (FE_PROG, 576, 4 * 2 ^ 20 + 256 + 16 * 6 + 4)], by decide⟩,
    ⟨9, st [(CLK_GATE0, 0, 0xFFFFFFFF), (CLK_GATE1, 0, 0xFFFFFFFF), (FE_CTL_EN, 9, 1), (FE_PROG, 576, 7 * 2 ^ 20 + 0xA5), (FE_PINS_SET_N, 9, 8), (FE_PINS_SET_BASE, 9, 60)], by decide⟩,
    ⟨9, 0, true, st [(CLK_GATE0, 0, 0xFFFFFFFF), (CLK_GATE1, 0, 0xFFFFFFFF), (FE_CTL_EN, 9, 1), (FE_PROG, 576, 0 * 2 ^ 20 + 2 * 256 + 42), (FE_A, 9, 5)], by decide⟩,
    ⟨9, st [(CLK_GATE0, 0, 0xFFFFFFFF), (CLK_GATE1, 0, 0xFFFFFFFF), (FE_CTL_EN, 9, 1), (FE_PROG, 576, 5 * 2 ^ 20 + 2048 + 1234)], by decide⟩,
    ⟨9, st [(CLK_GATE0, 0, 0xFFFFFFFF), (CLK_GATE1, 0, 0xFFFFFFFF), (FE_CTL_EN, 9, 1), (FE_PROG, 576, 6 * 2 ^ 20 + 2047)], by decide⟩,
    ⟨9, 0, st [(CLK_GATE0, 0, 0xFFFFFFFF), (CLK_GATE1, 0, 0xFFFFFFFF), (FE_CTL_EN, 9, 1), (FE_PROG, 576, 4 * 2 ^ 20 + 2 * 256 + 16 * 6 + 4)], by decide⟩,
    ⟨9, 0, st [(CLK_GATE0, 0, 0xFFFFFFFF), (CLK_GATE1, 0, 0xFFFFFFFF), (FE_CTL_EN, 9, 1), (FE_PROG, 576, 4 * 2 ^ 20 + 3 * 256 + 16 * 6 + 4)], by decide⟩,
    ⟨9, 0, st [(CLK_GATE0, 0, 0xFFFFFFFF), (CLK_GATE1, 0, 0xFFFFFFFF), (FE_CTL_EN, 9, 1), (FE_PROG, 576, 4 * 2 ^ 20 + 4 * 256 + 16 * 6 + 4)], by decide⟩,
    ⟨9, st [(CLK_GATE0, 0, 0xFFFFFFFF), (CLK_GATE1, 0, 0xFFFFFFFF), (FE_CTL_EN, 9, 1), (FE_PROG, 576, 7 * 2 ^ 20 + 0x1A5), (FE_PINS_SET_N, 9, 8), (FE_PINS_SET_BASE, 9, 60)], by decide⟩⟩

theorem witness_EngineTransfers :
    (∃ (e : Fe) (p : BitVec 64) (s : State), (s.chip.feReady e.val = true) ∧ (opOf (s.chip.feWord e.val) = 2) ∧ (feIllegal (s.chip.feWord
      e.val) = false) ∧ ((s.chip.feWord e.val) / 1024 % 4 = 1) ∧ ((s.chip.feWord e.val) / 256 % 4 = 2) ∧ (s.chip.rd FE_LANE_AUTO e.val =
      0) ∧ (s.chip.rd FE_LANE_DIR e.val = 0)) ∧
    (∃ (e : Fe) (x : Nat) (r : List Nat) (s : State), (s.chip.feReady e.val = true) ∧ (opOf (s.chip.feWord e.val) = 3) ∧ (feIllegal
      (s.chip.feWord e.val) = false) ∧ (bitAt (s.chip.feWord e.val) 11 = false) ∧ (bitAt (s.chip.feWord e.val) 10 = true) ∧ ((s.chip.eng
      e.val).tx = x :: r)) ∧
    (∃ (e : Fe) (s : State), (s.chip.feReady e.val = true) ∧ (opOf (s.chip.feWord e.val) = 3) ∧ (feIllegal (s.chip.feWord e.val) = false)
      ∧ (bitAt (s.chip.feWord e.val) 11 = false) ∧ (bitAt (s.chip.feWord e.val) 10 = true) ∧ (bitAt (s.chip.feWord e.val) 9 = true) ∧
      ((s.chip.eng e.val).tx = [])) ∧
    (∃ (e : Fe) (s : State), (s.chip.feReady e.val = true) ∧ (opOf (s.chip.feWord e.val) = 8) ∧ (feIllegal (s.chip.feWord e.val) = false)
      ∧ ((s.chip.feWord e.val) / 1024 % 4 = 0)) ∧
    (∃ (e : Fe) (s : State), (s.chip.feReady e.val = true) ∧ (opOf (s.chip.feWord e.val) = 8) ∧ (feIllegal (s.chip.feWord e.val) = false)
      ∧ ((s.chip.feWord e.val) / 1024 % 4 = 3)) ∧
    (∃ (e : Fe) (s : State), (s.chip.feReady e.val = true) ∧ (feIllegal (s.chip.feWord e.val) = true)) ∧
    (∃ (e : Fe) (p : BitVec 64) (s : State), (s.chip.rd FE_CTL_EN e.val = 1) ∧ (s.chip.feClock e.val = true) ∧ (s.chip.rd FE_STAT_STALL
      e.val = 1) ∧ ((s.chip.eng e.val).next ≤ s.chip.tb) ∧ (s.chip.rd FE_STAT_CAUSE e.val = 5) ∧ (s.chip.groupFlag e.val ((s.chip.eng
      e.val).word % 8) = false) ∧ ((s.chip.eng e.val).replaced = false)) ∧
    (∃ (e : Fe) (s : State), (s.chip.rd FE_CTL_EN e.val = 1) ∧ (s.chip.feClock e.val = true) ∧ ((s.chip.eng e.val).hold ≠ 0) ∧
      ((s.chip.feStart e.val (s.chip.eng e.val).hold).1 ≤ s.chip.tb)) ∧
    (∃ (e : Fe) (p : BitVec 64) (x k : Nat) (s : State), (s.chip.feReady e.val = true) ∧ (opOf (s.chip.feWord e.val) = 2) ∧ (feIllegal
      (s.chip.feWord e.val) = false) ∧ (s.chip.rd FE_LANE_AUTO e.val = 0) ∧ (k = orThirtyTwo ((s.chip.feWord e.val) % 32)) ∧ (x =
      (s.chip.sample p).xferIn e.val ((s.chip.feWord e.val) / 1024 % 4) k)) ∧
    (∃ (e : Fe) (r : List Nat) (s : State), (s.chip.feReady e.val = true) ∧ (opOf (s.chip.feWord e.val) = 3) ∧ (feIllegal (s.chip.feWord
      e.val) = false) ∧ (bitAt (s.chip.feWord e.val) 11 = true) ∧ (bitAt (s.chip.feWord e.val) 10 = false) ∧ ((s.chip.eng e.val).rx = r) ∧
      (r.length < 8)) ∧
    (∃ (e : Fe) (p : BitVec 64) (s : State), (s.chip.rd FE_CTL_EN e.val = 1) ∧ (s.chip.feClock e.val = true) ∧ (s.chip.rd FE_STAT_STALL
      e.val = 1) ∧ ((s.chip.eng e.val).next ≤ s.chip.tb) ∧ (s.chip.rd FE_STAT_CAUSE e.val = 1) ∧ ((s.chip.eng e.val).replaced = false) ∧
      ((s.chip.sample p).feCleared e.val = true)) :=
  ⟨⟨9, 0, st [(CLK_GATE0, 0, 0xFFFFFFFF), (CLK_GATE1, 0, 0xFFFFFFFF), (FE_CTL_EN, 9, 1), (FE_PROG, 576, 2 * 2 ^ 20 + 1024 + 512 + 8), (FE_SR, 9, 0xABCDEF01)], by decide⟩,
    ⟨9, 77, [8], (st [(CLK_GATE0, 0, 0xFFFFFFFF), (CLK_GATE1, 0, 0xFFFFFFFF), (FE_CTL_EN, 9, 1), (FE_PROG, 576, 3 * 2 ^ 20 + 1024)]).on fun m => m.setEng 9 { tx := [77, 8] }, by decide⟩,
    ⟨9, st [(CLK_GATE0, 0, 0xFFFFFFFF), (CLK_GATE1, 0, 0xFFFFFFFF), (FE_CTL_EN, 9, 1), (FE_PROG, 576, 3 * 2 ^ 20 + 1024 + 512)], by decide⟩,
    ⟨9, st [(CLK_GATE0, 0, 0xFFFFFFFF), (CLK_GATE1, 0, 0xFFFFFFFF), (FE_CTL_EN, 9, 1), (FE_PROG, 576, 8 * 2 ^ 20 + 6)], by decide⟩,
    ⟨9, st [(CLK_GATE0, 0, 0xFFFFFFFF), (CLK_GATE1, 0, 0xFFFFFFFF), (FE_CTL_EN, 9, 1), (FE_PROG, 576, 8 * 2 ^ 20 + 3072)], by decide⟩,
    ⟨9, st [(CLK_GATE0, 0, 0xFFFFFFFF), (CLK_GATE1, 0, 0xFFFFFFFF), (FE_CTL_EN, 9, 1), (FE_PROG, 576, 9 * 2 ^ 20 + 0)], by decide⟩,
    ⟨9, 0, (st [(CLK_GATE0, 0, 0xFFFFFFFF), (CLK_GATE1, 0, 0xFFFFFFFF), (FE_CTL_EN, 9, 1), (FE_STAT_STALL, 9, 1), (FE_STAT_CAUSE, 9, 5)]).on fun m => m.setEng 9 { word := 8 * 2 ^ 20 + 2048 + 3 }, by decide⟩,
    ⟨9, (st [(CLK_GATE0, 0, 0xFFFFFFFF), (CLK_GATE1, 0, 0xFFFFFFFF), (FE_CTL_EN, 9, 1)]).on fun m => ({ m with tb := 9999 }).setEng 9 { hold := 7 }, by decide⟩,
    ⟨9, 0x100, 0, 8, st [(CLK_GATE0, 0, 0xFFFFFFFF), (CLK_GATE1, 0, 0xFFFFFFFF), (FE_CTL_EN, 9, 1), (FE_PROG, 576, 2 * 2 ^ 20 + 8), (FE_SR, 9, 0xABCDEF01)], by decide⟩,
    ⟨9, [8], (st [(CLK_GATE0, 0, 0xFFFFFFFF), (CLK_GATE1, 0, 0xFFFFFFFF), (FE_CTL_EN, 9, 1), (FE_PROG, 576, 3 * 2 ^ 20 + 2048), (FE_SR, 9, 77)]).on fun m => m.setEng 9 { rx := [8] }, by decide⟩,
    ⟨9, 0, (st [(CLK_GATE0, 0, 0xFFFFFFFF), (CLK_GATE1, 0, 0xFFFFFFFF), (FE_CTL_EN, 9, 1), (FE_STAT_STALL, 9, 1), (FE_STAT_CAUSE, 9, 1)]).on fun m => m.setEng 9 { word := 1 * 2 ^ 20 }, by decide⟩⟩

theorem witness_EngineRegisters :
    (∃ (who : Writer) (e : Fe) (w : Word) (s : State), (s.chip.sysOk who = true) ∧ (s.chip.feClock e.val = true) ∧ ((s.chip.eng
      e.val).tx.length < 8)) ∧
    (∃ (who : Writer) (e : Fe) (w : Word) (s : State), (s.chip.sysOk who = true) ∧ (s.chip.feClock e.val = true) ∧ ((s.chip.eng
      e.val).tx.length = 8)) ∧
    (∃ (e : Fe) (x : Nat) (r : List Nat) (s : State), (s.chip.feClock e.val = true) ∧ ((s.chip.eng e.val).rx = x :: r)) ∧
    (∃ (who : Writer) (e : Fe) (i : Fin 64) (w : Word) (s : State), (s.chip.sysOk who = true) ∧ (s.chip.feClock e.val = true)) ∧
    (∃ (who : Writer) (e : Fe) (b : Bool) (s : State), (s.chip.sysOk who = true) ∧ (s.chip.feClock e.val = true)) ∧
    (∃ (who : Writer) (e : Fe) (s : State), (s.chip.sysOk who = true) ∧ (s.chip.runs islObserver = true) ∧ (bitAt (s.chip.rd FE_SYNC_MASK)
      e.val = true) ∧ (s.chip.feClock e.val = true)) ∧
    (∃ (who : Writer) (e : Fe) (s : State), (s.chip.sysOk who = true) ∧ (s.chip.runs islObserver = true) ∧ (bitAt (s.chip.rd FE_SYNC_MASK)
      e.val = true) ∧ (s.chip.feClock e.val = true)) ∧
    (∃ (who : Writer) (e : Fe) (s : State), (s.chip.sysOk who = true) ∧ (s.chip.runs islObserver = true) ∧ (bitAt (s.chip.rd FE_SYNC_MASK)
      e.val = true) ∧ (s.chip.feClock e.val = true)) ∧
    (∃ (who : Writer) (e : Fe) (s : State), (s.chip.sysOk who = true) ∧ (s.chip.runs islObserver = true) ∧ (bitAt (s.chip.rd FE_SYNC_MASK)
      e.val = true) ∧ (s.chip.feClock e.val = true)) :=
  ⟨⟨.hostA, 9, 77, (st [(PROT_ROLE_SYSTEM, 0, 1), (PROT_DW, 0, 7), (CLK_GATE0, 0, 0xFFFFFFFF), (CLK_GATE1, 0, 0xFFFFFFFF)]).on fun m => m.setEng 9 { tx := [1, 2, 3, 4, 5, 6, 7] }, by decide⟩,
    ⟨.hostA, 9, 77, (st [(PROT_ROLE_SYSTEM, 0, 1), (PROT_DW, 0, 7), (CLK_GATE0, 0, 0xFFFFFFFF), (CLK_GATE1, 0, 0xFFFFFFFF)]).on fun m => m.setEng 9 { tx := [1, 2, 3, 4, 5, 6, 7, 8] }, by decide⟩,
    ⟨9, 5, [6], (st [(CLK_GATE0, 0, 0xFFFFFFFF), (CLK_GATE1, 0, 0xFFFFFFFF)]).on fun m => m.setEng 9 { rx := [5, 6] }, by decide⟩,
    ⟨.hostA, 9, 63, 0x123456, st [(PROT_ROLE_SYSTEM, 0, 1), (PROT_DW, 0, 7), (CLK_GATE0, 0, 0xFFFFFFFF), (CLK_GATE1, 0, 0xFFFFFFFF)], by decide⟩,
    ⟨.hostA, 9, true, st [(PROT_ROLE_SYSTEM, 0, 1), (PROT_DW, 0, 7), (CLK_GATE0, 0, 0xFFFFFFFF), (CLK_GATE1, 0, 0xFFFFFFFF)], by decide⟩,
    ⟨.hostA, 9, st [(PROT_ROLE_SYSTEM, 0, 1), (PROT_DW, 0, 7), (CLK_GATE0, 0, 0xFFFFFFFF), (CLK_GATE1, 0, 0xFFFFFFFF), (FE_SYNC_MASK, 0, 0x80000200), (FE_CTL_EN, 9, 1)], by decide⟩,
    ⟨.hostA, 31, st [(PROT_ROLE_SYSTEM, 0, 1), (PROT_DW, 0, 7), (CLK_GATE0, 0, 0xFFFFFFFF), (CLK_GATE1, 0, 0xFFFFFFFF), (FE_SYNC_MASK, 0, 0x80000200), (FE_A, 31, 7), (FE_EXEC_ENTRY, 31, 9)], by decide⟩,
    ⟨.hostA, 9, (st [(PROT_ROLE_SYSTEM, 0, 1), (PROT_DW, 0, 7), (CLK_GATE0, 0, 0xFFFFFFFF), (CLK_GATE1, 0, 0xFFFFFFFF), (FE_SYNC_MASK, 0, 0x80000200)]).on fun m => m.setEng 9 { residue := 99 }, by decide⟩,
    ⟨.hostA, 9, st [(PROT_ROLE_SYSTEM, 0, 1), (PROT_DW, 0, 7), (CLK_GATE0, 0, 0xFFFFFFFF), (CLK_GATE1, 0, 0xFFFFFFFF), (FE_SYNC_MASK, 0, 0x80000200)], by decide⟩⟩

theorem witness_ClockSwitches :
    (∃ (who : Writer) (i : Isl) (v : BitVec 2) (s : State), (s.chip.sysWr who = true) ∧ (bitAt (s.chip.rd CLK_SWBUSY) i.val = false) ∧
      (s.chip.sel i.val ≠ v.toNat)) ∧
    (∃ (i : Isl) (z o : Nat) (s : State), ((s.chip.island i.val).switchAt = some (z, o)) ∧ ((s.chip.island i.val).hung = false) ∧
      ((s.chip.island i.val).stoppedAt = none) ∧ ((s.chip.island i.val).resetEnd = none) ∧ (s.chip.srcRuns o = true) ∧ (s.chip.srcRuns
      (s.chip.sel i.val) = true)) ∧
    (∃ (i : Isl) (z o : Nat) (s : State), ((s.chip.island i.val).switchAt = some (z, o)) ∧ ((s.chip.island i.val).hung = false) ∧
      ((s.chip.island i.val).resetEnd = none) ∧ (z + 10 * usTb ≤ s.chip.tb)) ∧
    (∃ (i : Isl) (s : State), ((s.chip.island i.val).stoppedAt = none) ∧ ((s.chip.island i.val).resetEnd = none) ∧ (s.chip.asleep =
      false)) ∧
    (∃ (i : Isl) (z : Nat) (s : State), ((s.chip.island i.val).stoppedAt = some z) ∧ ((s.chip.island i.val).hung = false) ∧
      ((s.chip.island i.val).resetEnd = none)) :=
  ⟨⟨.hostA, 17, 0, st [(PROT_ROLE_SYSTEM, 0, 1), (PROT_DW, 0, 7)], by decide⟩,
    ⟨5, 7, 1, (State.reset.on fun m => ({ m with tb := 99999 }).setIsland 5 { switchAt := some (7, 1) }).on fun m => (m.wr CLK_SWBUSY 0 32).wr CLK_SEL0 0 0xFFFFFFFF, by decide⟩,
    ⟨5, 7, 1, State.reset.on fun m => ({ m with tb := 99999 }).setIsland 5 { switchAt := some (7, 1) }, by decide⟩,
    ⟨12, State.reset, by decide⟩,
    ⟨12, 7, State.reset.on fun m => ({ m with tb := 99999 }).setIsland 12 { stoppedAt := some 7 }, by decide⟩⟩

theorem witness_IslandResets :
    (∃ (i : Isl) (s : State), (s.chip.sysWr .anvilV = true) ∧ (i.val ≠ 17)) ∧
    (∃ (i : Isl) (s : State), ((s.chip.island i.val).resetEnd = none) ∧ ((s.chip.island i.val).hung = true) ∧ (bitAt (s.chip.rd CLK_AUTO)
      i.val = true) ∧ (i.val ≠ 17)) ∧
    (∃ (c : Cl) (z : Nat) (s : State), ((s.chip.island c.val).safeSince = some z) ∧ (s.chip.rd RST_CFG_CL_RETRY = 1) ∧ (s.chip.gelow.up =
      true) ∧ (s.chip.runs islMgmt = true) ∧ ((s.chip.island c.val).resetEnd = none) ∧ ((s.chip.island c.val).retries < 3) ∧ (z + 1000 *
      msTb ≤ s.chip.tb)) ∧
    (∃ (c : Cl) (z : Nat) (s : State), ((s.chip.island c.val).resetEnd = some z) ∧ (z ≤ s.chip.tb) ∧ (s.chip.sys.holdTb = 0) ∧
      ((s.chip.island islAxis).resetEnd = none)) ∧
    (∃ (i : Isl) (z : Nat) (s : State), ((s.chip.island i.val).resetEnd = some z) ∧ (z ≤ s.chip.tb) ∧ (s.chip.sys.holdTb = 0)) :=
  ⟨⟨3, st [(PROT_ROLE_SYSTEM, 0, 1), (PROT_DW, 0, 7)], by decide⟩,
    ⟨14, (State.reset.on fun m => ({ m with tb := 99999 }).setIsland 14 { hung := true }).on fun m => m.wr CLK_AUTO 0 0x4000, by decide⟩,
    ⟨3, 0, (st [(RST_CFG_CL_RETRY, 0, 1)]).on fun m => ({ m with tb := 200000000, gelow := { m.gelow with up := true } }).setIsland 3 { safeSince := some 0 }, by decide⟩,
    ⟨3, 7, State.reset.on fun m => ({ m with tb := 99999 }).setIsland 3 { resetEnd := some 7, safeSince := some 1 }, by decide⟩,
    ⟨16, 7, State.reset.on fun m => ({ m with tb := 99999 }).setIsland 16 { resetEnd := some 7 }, by decide⟩⟩

theorem witness_TrimAndCrystal :
    (∃ (n : Nat) (s : State), (n < 24) ∧ (s.chip.rd CLK_STAT_XTAL_OK = 1) ∧ (s.chip.rd CLK_CFG_HOLD_EN = 1)) ∧
    (∃ (s : State), (s.chip.rd CLK_STAT_XTAL_OK = 1) ∧ (s.chip.rd CLK_STAT_HOLDOVER = 1) ∧ (s.chip.sys.xtalTb + 100 * msTb ≤ s.chip.tb)) ∧
    (∃ (s : State), (s.chip.trimRef = 1) ∧ (s.chip.sys.mark = none)) ∧
    (∃ (p n : Nat) (s : State), (s.chip.trimRef = 1) ∧ (s.chip.sys.mark = some p) ∧ (s.chip.trimFit (s.chip.tbOf islObserver - p) = some
      n)) ∧
    (∃ (s : State), (s.chip.trimRef ≠ 0) ∧ (s.chip.sys.markOk.getD 0 + 10 * s.chip.trimIvl ≤ s.chip.tb)) ∧
    (∃ (b : Bool) (z : Nat) (s : State), (s.chip.trimRef = (if b then 1 else 2)) ∧ (s.chip.sys.mark = none) ∧ (z = (if b then s.chip.tbOf
      islObserver else s.chip.rd HP_SYNC_TB_LO + 2 ^ 32 * s.chip.rd HP_SYNC_TB_HI))) :=
  ⟨⟨23, st [(CLK_STAT_XTAL_OK, 0, 1), (CLK_CFG_HOLD_EN, 0, 1)], by decide⟩,
    ⟨(st [(CLK_STAT_XTAL_OK, 0, 1), (CLK_STAT_HOLDOVER, 0, 1)]).on fun m => { m with tb := 20000000 }, by decide⟩,
    ⟨st [(CLK_TRIM_REF, 0, 1)], by decide⟩,
    ⟨5, 200000000, (st [(CLK_TRIM_REF, 0, 1)]).on fun m => { m with tb := 200000105, sys := { m.sys with mark := some 5 } }, by decide⟩,
    ⟨(st [(CLK_TRIM_REF, 0, 1)]).on fun m => { m with tb := 2000000000 }, by decide⟩,
    ⟨false, 77, st [(CLK_TRIM_REF, 0, 2), (HP_SYNC_TB_LO, 0, 77)], by decide⟩⟩

theorem witness_ModuleResets :
    (∃ (k : Nat) (s : State), (s.chip.sys.off = false)) ∧
    (∃ (s : State), (s.chip.coreV.running = true) ∧ (s.chip.runs islMgmt = true) ∧ (s.chip.sys.holdTb = 0) ∧ (s.chip.sys.wdtV + max 1
      (s.chip.rd WDT_V_TMO) * msTb ≤ s.chip.tb) ∧ (s.chip.sys.vRestarts = []) ∧ (s.chip.gelow.up = true)) ∧
    (∃ (s : State), (s.chip.coreC.running = true) ∧ (s.chip.runs islMgmt = true) ∧ (s.chip.rd PROT_WDTC_TMO ≠ 0) ∧ (s.chip.sys.wdtC +
      s.chip.rd PROT_WDTC_TMO * msTb ≤ s.chip.tb)) ∧
    (∃ (z : Nat) (s : State), (s.chip.gelow.up = true) ∧ (s.chip.runs islMgmt = true) ∧ (s.chip.sys.cAt = none) ∧ (s.chip.sys.cDown = some
      z)) ∧
    (∃ (who : Writer) (s : State), (s.chip.sysWr who = true)) ∧
    (∃ (who : Writer) (p : Nat) (s : State), (writerPort who = some p) ∧ (s.chip.asleep = true) ∧ (s.chip.sysOk who = true) ∧ (s.chip.runs
      (islHostA + p) = true)) ∧
    (∃ (c : ResetCause) (k : Nat) (s : State), (s.chip.sys.off = false) ∧ (s.chip.resetDue c = true) ∧ (k < 32)) :=
  ⟨⟨3, (st [(KEY_HASH, 3, 9), (BOOT_STAT_STAGE, 0, 4)]).on fun m => { m with tb := 8 }, by decide⟩,
    ⟨(st [(WDT_V_TMO, 0, 1), (HP_STAT_GELOW_UP, 0, 1)]).on fun m => { m with tb := 200000, coreV := { running := true }, gelow := { m.gelow with up := true } }, by decide⟩,
    ⟨(st [(PROT_WDTC_TMO, 0, 1)]).on fun m => { m with tb := 200000, coreC := { running := true } }, by decide⟩,
    ⟨7, State.reset.on fun m => { m with gelow := { m.gelow with up := true }, sys := { m.sys with cDown := some 7 } }, by decide⟩,
    ⟨.hostA, st [(PROT_ROLE_SYSTEM, 0, 1), (PROT_DW, 0, 7)], by decide⟩,
    ⟨.hostA, 0, (st [(PROT_ROLE_SYSTEM, 0, 1), (PROT_DW, 0, 7)]).on fun m => { m with asleep := true }, by decide⟩,
    ⟨.pin, 3, (st [(KEY_HASH, 3, 9), (BOOT_STAT_STAGE, 0, 4)]).on fun m => { m with tb := 8 }, by decide⟩⟩

theorem witness_BootAndKeys :
    (∃ (t0 t1 : Bool) (s : State), (s.chip.rd BOOT_STAT_STAGE = 0) ∧ (s.chip.sys.off = false) ∧ (s.chip.sys.holdTb ≤ s.chip.tb)) ∧
    (∃ (t1 : Bool) (s : State), (s.chip.rd BOOT_STAT_STAGE = 0) ∧ (s.chip.sys.off = false) ∧ (s.chip.sys.holdTb ≤ s.chip.tb) ∧ (s.chip.rd
      KEY_STAT_LIFE = 1)) ∧
    (∃ (t1 : Bool) (s : State), (s.chip.rd BOOT_STAT_STAGE = 0) ∧ (s.chip.sys.off = false) ∧ (s.chip.sys.holdTb ≤ s.chip.tb) ∧ (s.chip.rd
      KEY_STAT_LIFE = 1)) ∧
    (∃ (s : State), (s.chip.rd BOOT_STAT_STAGE = 1) ∧ (s.chip.rd PROT_SEAL_SEAL = 0)) ∧
    (∃ (s : State), (s.chip.rd BOOT_STAT_STAGE = 2) ∧ (s.chip.rd PROT_SEAL_SEAL = 1)) ∧
    (∃ (w : Word) (n : Nat) (s : State), (s.chip.runs islHostA = true) ∧ (s.chip.rd PROT_SEAL_SEAL = 0) ∧ (s.chip.rd BOOT_STAT_STAGE = 8)
      ∧ (wordField BOOT_RCV_GO w.toNat = 1) ∧ (n = wordField BOOT_RCV_LEN w.toNat) ∧ (n ≤ 65536) ∧ (s.chip.rd KEY_STAT_LIFE = 0) ∧
      (imgHead (s.chip.load 0x40000 n) 0 = true)) ∧
    (∃ (who : Writer) (k : Fin 4) (s : State), (s.chip.setupOk who = true) ∧ (s.chip.rd KEY_STAT_BUSY = 0) ∧ (bitAt (s.chip.rd
      KEY_STAT_PROG) k.val = false)) ∧
    (∃ (who : Writer) (k : Fin 4) (s : State), (s.chip.setupOk who = true) ∧ (s.chip.rd KEY_STAT_BUSY = 0) ∧ (bitAt (s.chip.rd
      KEY_STAT_PROG) k.val = true)) ∧
    (∃ (who : Writer) (k j : Fin 4) (s : State), (s.chip.setupOk who = true) ∧ (j ≠ k) ∧ (s.chip.keyLive j.val = true)) ∧
    (∃ (k z i : Nat) (s : State), (s.chip.sys.key = some (k, z)) ∧ (k < 4) ∧ (i < 8)) ∧
    (∃ (who : Writer) (s : State), (s.chip.setupOk who = true) ∧ (s.chip.rd BOOT_STAT_STAGE = 1)) ∧
    (∃ (p : Port) (w : Word) (n : Nat) (s : State), (s.chip.runs (islHostA + portNo p) = true) ∧ (s.chip.rd PROT_SEAL_SEAL = 0) ∧
      (s.chip.rd BOOT_STAT_STAGE = 8) ∧ (wordField BOOT_RCV_GO w.toNat = 1) ∧ (n = wordField BOOT_RCV_LEN w.toNat) ∧ (n ≤ 65536) ∧
      (s.chip.rd KEY_STAT_LIFE = 0) ∧ (imgHead (s.chip.load (0x40000 + portNo p * 0x10000) n) 0 = true)) ∧
    (∃ (p : Port) (w : Word) (s : State), (s.chip.runs (islHostA + portNo p) = true) ∧ (s.chip.rd PROT_SEAL_SEAL = 0) ∧ (s.chip.rd
      BOOT_STAT_STAGE ≠ 8)) :=
  ⟨⟨true, false, State.reset, by decide⟩,
    ⟨true, st [(KEY_STAT_LIFE, 0, 1)], by decide⟩,
    ⟨true, st [(KEY_STAT_LIFE, 0, 1)], by decide⟩,
    ⟨st [(BOOT_STAT_STAGE, 0, 1)], by decide⟩,
    ⟨st [(BOOT_STAT_STAGE, 0, 2), (PROT_SEAL_SEAL, 0, 1)], by decide⟩,
    ⟨2 ^ 31 + 24, 24, (st [(BOOT_STAT_STAGE, 0, 8)]).on fun m => { m with mem := [(0x40000, 0x4B), (0x40001, 0x46), (0x40002, 0x49), (0x40003, 0x4D), (0x40014, 5)] }, by decide⟩,
    ⟨.anvilV, 2, State.reset.on fun m => { m with coreV := { mode := 3 } }, by decide⟩,
    ⟨.anvilV, 2, st [(KEY_STAT_PROG, 0, 4)], by decide⟩,
    ⟨.anvilV, 2, 1, st [(KEY_STAT_PROG, 0, 6)], by decide⟩,
    ⟨3, 7, 7, (st [(KEY_STAT_BUSY, 0, 1), (KEY_DATA, 7, 0x1234)]).on fun m => { m with sys := { m.sys with key := some (3, 7) } }, by decide⟩,
    ⟨.anvilV, st [(BOOT_STAT_STAGE, 0, 1)], by decide⟩,
    ⟨.b, 2 ^ 31 + 24, 24, (st [(BOOT_STAT_STAGE, 0, 8)]).on fun m => { m with mem := [(0x50000, 0x4B), (0x50001, 0x46), (0x50002, 0x49), (0x50003, 0x4D), (0x50014, 5)] }, by decide⟩,
    ⟨.b, 24, st [(BOOT_STAT_STAGE, 0, 1)], by decide⟩⟩

theorem witness_SuppliesAndLoss :
    (∃ (r : Rails) (s : State), (s.chip.sys.off = true) ∧ (780 ≤ r.vcore) ∧ (1440 ≤ r.vio) ∧ (4400 ≤ r.vana) ∧ (6000 ≤ r.vbat)) ∧
    (∃ (r : Rails) (s : State), (s.chip.sys.off = false) ∧ (r.vcore < 780)) ∧
    (∃ (mv us : Nat) (s : State), (s.chip.powered = true) ∧ (bitAt (s.chip.rd SUPM_STAT) 0 = false) ∧ (mv < 7800) ∧ (100 ≤ us)) ∧
    (∃ (mv us : Nat) (s : State), (s.chip.powered = true) ∧ (8000 ≤ mv) ∧ (1000 ≤ us) ∧ (us * usTb ≤ s.chip.tb)) ∧
    (∃ (a b us : Nat) (s : State), (s.chip.powered = true) ∧ (s.chip.sys.armed = true) ∧ (2 ≤ us) ∧ (a < 7000)) ∧
    (∃ (a : Nat) (s : State), (a < 6000)) ∧
    (∃ (a us : Nat) (s : State), (s.chip.powered = true) ∧ (6500 ≤ a) ∧ (a ≤ 38000) ∧ (1000 ≤ us)) ∧
    (∃ (n : Sup) (v : Int) (us : Nat) (s : State), (s.chip.powered = true) ∧ (bitAt (s.chip.rd SUP_CTL_EN) n.val = true) ∧ (5600 < v) ∧
      (20 ≤ us)) ∧
    (∃ (n : Sup) (v : Int) (us : Nat) (s : State), (s.chip.powered = true) ∧ (bitAt (s.chip.rd SUP_CTL_EN) n.val = true) ∧ ((s.chip.supply
      n.val).closed = false) ∧ ((s.chip.supply n.val).cond = some 1) ∧ (v < 5300) ∧ (10000 ≤ us)) ∧
    (∃ (n : Sup) (ua us : Nat) (s : State), ((s.chip.supply n.val).cond = some 4) ∧ (1000 ≤ ua) ∧ (10000 ≤ us)) ∧
    (∃ (who : Writer) (n : Sup) (w : Word) (p : BitVec 8) (s : State), (s.chip.sysWr who = true) ∧ (bitAt (s.chip.rd SUP_CTL_EN) n.val =
      false) ∧ (bitAt w.toNat n.val = true) ∧ (bitAt p.toNat n.val = false)) ∧
    (∃ (who : Writer) (n : Sup) (w : Word) (p : BitVec 8) (s : State), (s.chip.sysWr who = true) ∧ (bitAt w.toNat n.val = false)) ∧
    (∃ (b : Fin 6) (mv us : Nat) (s : State), (s.chip.powered = true) ∧ (bitAt (s.chip.rd SUPM_STAT) b.val = false) ∧ (s.chip.supmSets
      b.val mv us = true)) ∧
    (∃ (b : Fin 6) (mv us : Nat) (s : State), (s.chip.powered = true) ∧ (bitAt (s.chip.rd SUPM_STAT) b.val = true) ∧ (s.chip.supmClears
      b.val mv us = true)) ∧
    (∃ (n : Sup) (c : SupCond) (v : Int) (us : Nat) (s : State), (s.chip.powered = true) ∧ (bitAt (s.chip.rd SUP_CTL_EN) n.val = true) ∧
      (condMet (s.chip.supply n.val) c v us = true)) :=
  ⟨⟨⟨850, 1800, 5000, 12000⟩, State.reset.on fun m => { m with sys := { m.sys with off := true } }, by decide⟩,
    ⟨⟨700, 1800, 5000, 12000⟩, State.reset, by decide⟩,
    ⟨7799, 100, State.reset, by decide⟩,
    ⟨8000, 1000, State.reset.on fun m => { m with tb := 200000 }, by decide⟩,
    ⟨6999, 12000, 2, State.reset.on fun m => { m with tb := 77, sys := { m.sys with armed := true } }, by decide⟩,
    ⟨5999, State.reset, by decide⟩,
    ⟨38000, 1000, State.reset.on fun m => { m with sys := { m.sys with disc := false } }, by decide⟩,
    ⟨3, 5601, 20, (st [(SUP_CTL_EN, 0, 0xFF)]).on fun m => ({ m with tb := 99999999 }).setSupply 3 { closed := true }, by decide⟩,
    ⟨3, 5299, 10000, (st [(SUP_CTL_EN, 0, 0xFF)]).on fun m => ({ m with tb := 99999999 }).setSupply 3 { cond := some 1 }, by decide⟩,
    ⟨3, 1000, 10000, (st [(SUP_CTL_EN, 0, 0xFF)]).on fun m => ({ m with tb := 99999999 }).setSupply 3 { closed := true, cond := some 4 }, by decide⟩,
    ⟨.hostA, 7, 0xFF, 0, st [(PROT_ROLE_SYSTEM, 0, 1), (PROT_DW, 0, 7)], by decide⟩,
    ⟨.hostA, 3, 0xF7, 0, (st [(PROT_ROLE_SYSTEM, 0, 1), (PROT_DW, 0, 7), (SUP_STAT_FLT, 0, 255)]).on fun m => m.setSupply 3 { closed := true }, by decide⟩,
    ⟨0, 7799, 100, State.reset, by decide⟩,
    ⟨0, 20000, 100000, (st [(SUPM_STAT, 0, 1)]).on fun m => { m with tb := 10 ^ 12 }, by decide⟩,
    ⟨3, .battery, 5601, 20, (st [(SUP_CTL_EN, 0, 0xFF)]).on fun m => ({ m with tb := 99999999 }).setSupply 3 { closed := true }, by decide⟩⟩

theorem witness_Interrupts :
    (∃ (n : Nat) (s : State), (s.chip.accepts 0 = true) ∧ (s.chip.winner 0 (fun _ => true) = some n) ∧ (s.chip.mayEnter n 0 = true)) ∧
    (∃ (f : Frame) (r : List Frame) (s : State), (s.chip.coreV.frames = f :: r) ∧ (s.chip.coreRuns 0 = true) ∧ (s.chip.rd INT_SRC_LVL
      f.src = 0) ∧ (s.chip.pendingSrcs = [])) ∧
    (∃ (a : Accum) (s : State), (Memory.wf s.chip.mem = true) ∧ (s.chip.runs islMgmt = true) ∧ (s.chip.runs islHostA = true) ∧
      (s.chip.queueFull 0 = false) ∧ (s.chip.due .queueRecord 0 = true) ∧ (s.chip.accum 0 accPort = a) ∧ (a.cnt ≠ 0)) ∧
    (∃ (g : Grp) (s : State), (s.chip.rd INT_GRP_RUN g.val = 1) ∧ (tabGet s.chip.holdEnd g.val 0 ≤ s.chip.tb)) ∧
    (∃ (who : Writer) (n : Src) (s : State), (s.chip.sysWr who = true) ∧ (416 ≤ n.val) ∧ (s.chip.rd INT_SRC_LVL n.val = 0) ∧ (bitAt
      (s.chip.rd INT_SRC_TGT n.val) 0 = true)) ∧
    (∃ (who : Writer) (w : Word) (s : State), (s.chip.sysWr who = true)) ∧
    (∃ (n : Src) (s : State), (s.chip.asleep = true) ∧ (srcWakes n.val = true) ∧ (bitAt (s.chip.rd INT_WAKE (n.val / 32)) (n.val % 32) =
      true) ∧ (s.chip.srcGated n.val = false)) ∧
    (∃ (k : Core) (n : Nat) (l : List (Fin 6 × Src)) (s : State), (s.chip.accepts (coreNo k) = true) ∧ (s.chip.winner (coreNo k) (fun i =>
      !(l.map (·.2.val)).contains i) = some n) ∧ (s.chip.mayEnter n (coreNo k) = true) ∧ ((l.all fun (a : Fin 6 × Src) => decide
      (s.chip.rd INT_SRC_URG n ≤ s.chip.rd INT_SRC_URG a.2.val)) = true)) ∧
    (∃ (k : Core) (f : Frame) (r : List Frame) (s : State), ((s.chip.core (coreNo k)).frames = f :: r) ∧ (s.chip.coreRuns (coreNo k) =
      true) ∧ (s.chip.rd INT_SRC_LVL f.src = 0) ∧ (s.chip.pendingSrcs = [])) ∧
    (∃ (p : Port) (a : Accum) (s : State), (Memory.wf s.chip.mem = true) ∧ (s.chip.runs islMgmt = true) ∧ (s.chip.runs (islHostA + portNo
      p) = true) ∧ (s.chip.queueFull (portNo p) = false) ∧ (s.chip.due .queueRecord (portNo p) = true) ∧ (s.chip.accum (portNo p) accPort
      = a) ∧ (a.cnt ≠ 0)) ∧
    (∃ (p : Port) (a : Accum) (s : State), (Memory.wf s.chip.mem = true) ∧ (s.chip.runs islMgmt = true) ∧ (s.chip.runs (islHostA + portNo
      p) = true) ∧ (s.chip.queueFull (portNo p) = false) ∧ (s.chip.due .queueRecord (portNo p) = true) ∧ ((s.chip.accum (portNo p)
      accPort).cnt = 0) ∧ (s.chip.accum (portNo p) accHallmark = a) ∧ (a.cnt ≠ 0)) :=
  ⟨⟨5, (st [(INT_SRC_PEND, 5, 1), (INT_SRC_TGT, 5, 1), (INT_TCTL_GEN, 0, 1)]).on fun m => { m with coreV := { running := true, mstatus := 8, mtvec := 0x40001001, pc := 0x40000020 } }, by decide⟩,
    ⟨⟨List.replicate 16 3 ++ [0x40000020, 8], 5⟩, [], (st [(INT_SRC_ACT, 5, 1)]).on fun m => { m with coreV := { running := true, mepc := 0x40000020, frames := [⟨List.replicate 16 3 ++ [0x40000020, 8], 5⟩] } }, by decide⟩,
    ⟨⟨1, 77, false, 6⟩, State.reset.on fun m => m.setAccum 0 accPort ⟨1, 77, false, 6⟩, by decide⟩,
    ⟨31, st [(INT_GRP_RUN, 31, 1)], by decide⟩,
    ⟨.hostA, 511, st [(PROT_ROLE_SYSTEM, 0, 1), (PROT_DW, 0, 7), (INT_SRC_TGT, 511, 1)], by decide⟩,
    ⟨.hostA, 0x5005, st [(PROT_ROLE_SYSTEM, 0, 1), (PROT_DW, 0, 7), (INT_SRC_PEND, 5, 7)], by decide⟩,
    ⟨200, (st [(INT_WAKE, 6, 0x100)]).on fun m => { m with asleep := true }, by decide⟩,
    ⟨.c, 5, [(2, 9)], (st [(INT_SRC_PEND, 5, 2), (INT_SRC_TGT, 5, 2), (INT_TCTL_GEN, 1, 1)]).on fun m => { m with coreC := { running := true, mstatus := 8, mtvec := 0x40001001, pc := 0x40000020 } }, by decide⟩,
    ⟨.c, ⟨List.replicate 16 3 ++ [0x40000020, 8], 5⟩, [], (st [(INT_SRC_ACT, 5, 2)]).on fun m => { m with coreC := { running := true, mepc := 0x40000020, frames := [⟨List.replicate 16 3 ++ [0x40000020, 8], 5⟩] } }, by decide⟩,
    ⟨.b, ⟨1, 77, false, 6⟩, State.reset.on fun m => m.setAccum 1 accPort ⟨1, 77, false, 6⟩, by decide⟩,
    ⟨.b, ⟨1, 77, false, 6⟩, State.reset.on fun m => m.setAccum 1 accHallmark ⟨1, 77, false, 6⟩, by decide⟩⟩

theorem witness_FabricAndParity :
    (∃ (l : Link) (w : Word) (x : BitVec 33) (rx : List (BitVec 33)) (s : State), (s.chip.powered = true) ∧ ((linkEnds l.val).all
      s.chip.runs = true) ∧ (s.chip.linkFaulty l.val = false) ∧ (oddParity x = true)) ∧
    (∃ (l : Link) (w : Word) (a b c d : BitVec 33) (s : State), (s.chip.powered = true) ∧ ((linkEnds l.val).all s.chip.runs = true) ∧
      (s.chip.linkFaulty l.val = false) ∧ (l.val < 12) ∧ (oddParity a = false) ∧ (oddParity b = false) ∧ (oddParity c = false) ∧
      (oddParity d = false)) ∧
    (∃ (i : Isl) (s : State), (s.chip.runs islObserver = true) ∧ (s.chip.due .broadcast = true) ∧ (i.val ≠ 12) ∧ (s.chip.runs i.val =
      true)) ∧
    (∃ (a : Nat) (x : Word) (s : State), (s.chip.powered = true) ∧ (a < 0x80000) ∧ (a % 4 = 0)) ∧
    (∃ (a : Nat) (x : Word) (c : Cl) (s : State), (s.chip.powered = true) ∧ (s.chip.runs (c.val) = true) ∧ (s.chip.safe c.val = false)) ∧
    (∃ (r : Refetch) (rs : List Refetch) (bs : List Byte) (s : State), (s.chip.refetch = r :: rs) ∧ (s.chip.backing r.addr = some bs)) ∧
    (∃ (s : State), (s.chip.coreV.running = true) ∧ (s.chip.runs islMgmt = true) ∧ (s.chip.sys.holdTb = 0) ∧ (s.chip.sys.vRestarts = [])) ∧
    (∃ (a : Word) (k : Access) (s : State), (s.chip.coreRuns 1 = true) ∧ (s.chip.mpuOk a.toNat k = false)) ∧
    (∃ (a : Word) (k : Access) (s : State), (s.chip.coreRuns 0 = true) ∧ (coreSees 0 a.toNat k = false)) :=
  ⟨⟨5, 3, 0x100000003, [], State.reset, by decide⟩,
    ⟨5, 3, 3, 3, 3, 3, State.reset, by decide⟩,
    ⟨17, State.reset, by decide⟩,
    ⟨0x7FFFC, 5, State.reset, by decide⟩,
    ⟨8, 5, 4, State.reset, by decide⟩,
    ⟨⟨.hostA, 0x9A0000, 7⟩, [], [9, 9, 9, 9], (st [(MAP_PT_STAT_STATE, 0, 2), (MAP_DEF_DEF_RATE, 0, 9)]).on fun m => { m with refetch := [⟨.hostA, 0x9A0000, 7⟩] }, by decide⟩,
    ⟨State.reset.on fun m => { m with coreV := { running := true } }, by decide⟩,
    ⟨0x40001000, .write, State.reset.on fun m => { m with coreC := { running := true, mtvec := 0x20000003, mode := 0 } }, by decide⟩,
    ⟨0x80000000, .read, State.reset.on fun m => { m with coreV := { running := true } }, by decide⟩⟩

theorem witness_TilesAndGates :
    (∃ (b : Bool) (k n : Nat) (s : State), (layerSlot b n = some k) ∧ (s.chip.runs islMap = true) ∧ (s.chip.tileState k = 1) ∧
      (s.chip.nandTile (s.chip.tileKeyOf k) = none) ∧ (Memory.wf s.chip.mem = true)) ∧
    (∃ (b : Bool) (k n : Nat) (s : State), (layerSlot b n = some k) ∧ (s.chip.runs islMap = true) ∧ (s.chip.tileState k = 1)) ∧
    (∃ (k : Fin 24) (s : State), (s.chip.gelow.up = true) ∧ (s.chip.runs islMap = true) ∧ (s.chip.tileState k.val = 3) ∧ ((s.chip.tileSt
      k.val).flushTb + s.chip.flushTb ≤ s.chip.tb)) ∧
    (∃ (k : Fin 24) (s : State), (s.chip.gelow.up = true) ∧ (s.chip.runs islMap = true) ∧ (s.chip.tileState k.val = 4) ∧ (s.chip.writable
      = true) ∧ (tabFind s.chip.nand.tiles (s.chip.tileKeyOf k.val) = none)) ∧
    (∃ (k : Fin 24) (s : State), (s.chip.gelow.up = true) ∧ (s.chip.runs islMap = true) ∧ (s.chip.tileState k.val = 4)) ∧
    (∃ (s : State), (s.chip.runs islMap = true) ∧ (s.chip.runs islObserver = true) ∧ (s.chip.rd MAP_CFG_EN = 1) ∧ (s.chip.due .writeback =
      true) ∧ (∀ c : Ch, s.chip.rd MAP_CH_CFG_WB_EN c.val = 0)) ∧
    (∃ (s : State), (s.chip.runs islMap = true) ∧ (s.chip.runs islObserver = true) ∧ (s.chip.rd MAP_CFG_EN = 1) ∧ (s.chip.due .mapScan =
      true) ∧ (s.chip.tb % 1000000 = 0) ∧ (s.chip.tickAt = s.chip.tb)) ∧
    (∃ (ch : Ch) (k : Scan) (s : State), (tabFind s.chip.map.scans ch.val = some k) ∧ (k.gates = []) ∧ (s.chip.runs islMap = true) ∧
      (s.chip.runs islAxis = true)) ∧
    (∃ (ch : Ch) (g : Gate) (s : State), (s.chip.canFire ch.val = true) ∧ (s.chip.gateable ch.val = true) ∧ (s.chip.gateDue ch.val = some
      g) ∧ (s.chip.ownerNext ch.val (g.fireTb.getD s.chip.tb) = none) ∧ (g.opens = false) ∧ (g.late = false)) ∧
    (∃ (ch : Ch) (s : State), (s.chip.runs islMap = true)) ∧
    (∃ (b : Bool) (k n : Nat) (x : NTile) (s : State), (layerSlot b n = some k) ∧ (s.chip.runs islMap = true) ∧ (s.chip.tileState k = 1) ∧
      (s.chip.nandTile (s.chip.tileKeyOf k) = some x) ∧ (s.chip.tileGone (s.chip.tileKeyOf k) = false)) ∧
    (∃ (k : Fin 24) (s : State), (s.chip.gelow.up = true) ∧ (s.chip.runs islMap = true) ∧ (s.chip.tileState k.val = 3) ∧ ((s.chip.tileSt
      k.val).flushTb + s.chip.flushTb ≤ s.chip.tb ∨ (s.chip.wanted 0).contains (s.chip.tileTe k.val, s.chip.tileTn k.val) = false ∨
      s.chip.unmounting = true)) ∧
    (∃ (k : Fin 24) (v : Nat) (s : State), (s.chip.runs islMap = true) ∧ (s.chip.gelow.up = true) ∧ (s.chip.tileState k.val = 4) ∧
      (s.chip.writable = true) ∧ (v = (match tabFind s.chip.nand.tiles (s.chip.tileKeyOf k.val) with | some x => x.ver + 1 | none => 1))) ∧
    (∃ (ch : Ch) (k : Scan) (s : State), (tabFind s.chip.map.scans ch.val = some k) ∧ (s.chip.runs islMap = true) ∧ (s.chip.runs islAxis =
      true)) ∧
    (∃ (ch : Ch) (k : Scan) (g : Gate) (s : State), (tabFind s.chip.map.scans ch.val = some k) ∧ (k.gates = [g]) ∧ (g.fireTb = none) ∧
      (g.late = false) ∧ (s.chip.runs islMap = true) ∧ (s.chip.runs islAxis = true) ∧ ((s.chip.chan ch.val).gateDone = []) ∧
      ((s.chip.chAxis ch.val).v = 0) ∧ ((s.chip.chAxis ch.val).a = 0) ∧ (0 < axDist (s.chip.chAxis ch.val) g.at_)) ∧
    (∃ (ch : Ch) (s : State), (s.chip.runs islMap = true) ∧ (s.chip.runs islObserver = true) ∧ (s.chip.rd MAP_CFG_EN = 1) ∧ (s.chip.due
      .writeback = true) ∧ (s.chip.rd MAP_CH_CFG_WB_EN ch.val = 1) ∧ (s.chip.axKind (s.chip.rd CH_AXIS_AX ch.val) = 1) ∧ (s.chip.rd
      MDL_STAT_FIELD_OK = 1)) ∧
    (∃ (ch : Ch) (p b : WbPoint) (k : Stroke) (s : State), (s.chip.runs islMap = true) ∧ (s.chip.runs islObserver = true) ∧ (s.chip.rd
      MAP_CFG_EN = 1) ∧ (s.chip.due .writeback = true) ∧ (s.chip.gelow.up = false) ∧ (∀ c : Ch, s.chip.rd MAP_CH_CFG_WB_EN c.val = (if c =
      ch then 1 else 0)) ∧ (s.chip.axKind (s.chip.rd CH_AXIS_AX ch.val) = 1) ∧ (s.chip.rd MDL_STAT_FIELD_OK = 1) ∧ (s.chip.rd AX_STAT_DIR
      (s.chip.rd CH_AXIS_AX ch.val) = 0) ∧ (tabFind s.chip.map.points ch.val = some p) ∧ (p.axis = s.chip.rd CH_AXIS_AX ch.val) ∧
      ((s.chip.chan ch.val).strokes = []) ∧ ((s.chip.chan ch.val).stroke = some k) ∧ (b = (⟨(s.chip.chAxis ch.val).fe, (s.chip.chAxis
      ch.val).fn, s.chip.psiPub, (s.chip.chAxis ch.val).posInt, s.chip.rd CH_AXIS_AX ch.val⟩ : WbPoint))) :=
  ⟨⟨true, 87, 63, st [(MAP_PT_STAT_STATE, 63, 1)], by decide⟩,
    ⟨false, 23, 23, st [(MAP_CT_STAT_STATE, 23, 1)], by decide⟩,
    ⟨5, (st [(MAP_CT_STAT_STATE, 5, 3)]).on fun m => { m with tb := 10 ^ 12, gelow := { up := true } }, by decide⟩,
    ⟨5, (st [(MAP_CT_STAT_STATE, 5, 4), (NC_STAT_MSTATE, 0, 1)]).on fun m => { m with gelow := { up := true } }, by decide⟩,
    ⟨5, (st [(MAP_CT_STAT_STATE, 5, 4)]).on fun m => { m with gelow := { up := true } }, by decide⟩,
    ⟨st [(MAP_CFG_EN, 0, 1)], by decide +kernel⟩,
    ⟨(st [(MAP_CFG_EN, 0, 1)]).on fun m => ({ m with tb := 5000000000 }).stamp .prediction, by decide⟩,
    ⟨9, { tb := 4 }, State.reset.on fun m => { m with map := { m.map with scans := [(9, { tb := 4 })] } }, by decide⟩,
    ⟨9, { at_ := 100, opens := false, fireTb := some 0 }, (st [(MAP_CH_STAT_GATE, 9, 1), (MAP_CH_STAT_QN, 9, 1), (AX_STAT_STATE, 9, 1)]).on fun m => m.setChan 9 { m.chan 9 with gates := [{ at_ := 100, opens := false, fireTb := some 0 }] }, by decide⟩,
    ⟨191, State.reset, by decide⟩,
    ⟨false, 3, 3, ⟨7, [(5, 2)], 0⟩, (st [(MAP_CT_STAT_STATE, 3, 1), (NC_STAT_T0_OK, 0, 1)]).on fun m => { m with nand := { m.nand with tiles := [(m.tileKeyOf 3, ⟨7, [(5, 2)], 0⟩)] } }, by decide⟩,
    ⟨5, (st [(MAP_CT_STAT_STATE, 5, 3)]).on fun m => { m with gelow := { up := true } }, by decide⟩,
    ⟨5, 8, (st [(MAP_CT_STAT_STATE, 5, 4), (NC_STAT_MSTATE, 0, 1)]).on fun m => { m with gelow := { up := true }, nand := { m.nand with tiles := [(m.tileKeyOf 5, ⟨7, [], 0⟩)] } }, by decide⟩,
    ⟨9, { tb := 4, gates := [{ at_ := 70000, opens := false }] }, State.reset.on fun m => { m with map := { m.map with scans := [(9, { tb := 4, gates := [{ at_ := 70000, opens := false }] })] } }, by decide⟩,
    ⟨9, { tb := 4, gates := [{ at_ := 70000, opens := false }] }, { at_ := 70000, opens := false }, State.reset.on fun m => { m with map := { m.map with scans := [(9, { tb := 4, gates := [{ at_ := 70000, opens := false }] })] } }, by decide⟩,
    ⟨9, (st [(MAP_CFG_EN, 0, 1), (MAP_CH_CFG_WB_EN, 9, 1), (AX_CFG_KIND, 9, 1), (MDL_STAT_FIELD_OK, 0, 1)]).on fun m => { m with axes := [(9, { pos := 65536 * 77, fe := 5 })] }, by decide⟩,
    ⟨9, { axis := 9 }, ⟨5, 0, 0, 77, 9⟩, { start := 0 }, (st [(MAP_CFG_EN, 0, 1), (MAP_CH_CFG_WB_EN, 9, 1), (AX_CFG_KIND, 9, 1), (MDL_STAT_FIELD_OK, 0, 1)]).on fun m => ({ m with axes := [(9, { pos := 65536 * 77, fe := 5 })], map := { m.map with points := [(9, { axis := 9 })] } }).setChan 9 { stroke := some { start := 0 } }, by decide +kernel⟩⟩

theorem witness_Medium :
    (∃ (p : NandPage) (s : State), (s.chip.rd NC_STAT_MSTATE = 0) ∧ (s.chip.gelow.up = true) ∧ (s.chip.runs islMgmt = true) ∧
      (s.chip.inUse 1 = false) ∧ (NandPage.accepted p = true) ∧ (s.chip.rd NC_CFG_EN = 1)) ∧
    (∃ (u : Fin 2) (b c : Nat) (s : State), (s.chip.runs islMgmt = true) ∧ (s.chip.blockOk u.val b = true) ∧ (c ≤ 40) ∧ (s.chip.refreshThr
      < c)) ∧
    (∃ (u : Fin 2) (b : Nat) (s : State), (s.chip.runs islMgmt = true) ∧ (s.chip.blockOk u.val b = true)) ∧
    (∃ (u : Fin 2) (b : Nat) (r : List Nat) (s : State), ((s.chip.target u.val).queue = b :: r) ∧ (s.chip.blockOk u.val b = true) ∧
      (s.chip.writable = true) ∧ (s.chip.runs islMgmt = true)) ∧
    (∃ (u : Fin 2) (b : Nat) (s : State), (s.chip.runs islMgmt = true) ∧ (s.chip.blockOk u.val b = true) ∧ (s.chip.patrolMay u.val b =
      true) ∧ (s.chip.nand.roundTb + s.chip.roundLen ≤ s.chip.tb)) ∧
    (∃ (u : Fin 2) (b c : Nat) (e : Bool) (s : State), (s.chip.runs islMgmt = true) ∧ (s.chip.blockOk u.val b = true) ∧ (s.chip.patrolMay
      u.val b = true) ∧ (c ≤ 40)) ∧
    (∃ (u : Fin 2) (c : Nat) (s : State), ((s.chip.targets.contains u.val) = true) ∧ (s.chip.writable = true) ∧ (s.chip.runs islMgmt =
      true) ∧ (s.chip.due .nandWear = true) ∧ (max 1 (s.chip.rd NC_CFG_WL_DELTA) < (s.chip.target u.val).spread) ∧ ((s.chip.target
      u.val).highest = some c)) ∧
    (∃ (u : Fin 2) (s : State), ((s.chip.targets.contains u.val) = true) ∧ (s.chip.runs islMgmt = true)) ∧
    (∃ (s : State), (s.chip.targets ≠ []) ∧ (s.chip.gelow.up = true) ∧ (s.chip.runs islMgmt = true) ∧ (s.chip.due .nandEol = true)) ∧
    (∃ (s : State), (s.chip.gelow.up = true) ∧ (s.chip.runs islMgmt = true) ∧ (s.chip.writable = true) ∧ (s.chip.due .wearSave = true)) ∧
    (∃ (v : Nat) (s : State), (s.chip.gelow.up = true) ∧ (s.chip.runs islMgmt = true) ∧ (s.chip.bcap.last + minuteTb ≤ s.chip.boostOp) ∧
      (s.chip.rd BST_DROOP_DROOP = 0)) ∧
    (∃ (u : Fin 2) (b c : Nat) (s : State), (s.chip.runs islMgmt = true) ∧ (s.chip.blockOk u.val b = true) ∧ (c ≤ s.chip.refreshThr) ∧ (c
      ≤ 40)) ∧
    (∃ (u : Fin 2) (b : Nat) (s : State), (s.chip.runs islMgmt = true) ∧ (s.chip.blockOk u.val b = true) ∧ (((s.chip.target
      u.val).unsure.contains b) = false)) ∧
    (∃ (u : Fin 2) (b : Nat) (s : State), (s.chip.runs islMgmt = true) ∧ (s.chip.blockOk u.val b = true) ∧ (((s.chip.target
      u.val).torn.contains b) = false) ∧ ((s.chip.target u.val).mayProgram b = true)) ∧
    (∃ (u : Fin 2) (b : Nat) (s : State), (s.chip.runs islMgmt = true) ∧ (s.chip.blockOk u.val b = true) ∧ (((s.chip.target
      u.val).torn.contains b) = false) ∧ ((s.chip.target u.val).mayProgram b = true)) ∧
    (∃ (u : Fin 2) (s : State), (s.chip.runs islMgmt = true) ∧ ((s.chip.targets.contains u.val) = true)) :=
  ⟨⟨⟨true, 1, 1, 8, 4096, 290, 25, 300, 3000, 5, 6, 2048, 60000, [3]⟩, (st [(NC_CFG_EN, 0, 1)]).on fun m => { m with gelow := { up := true } }, by decide⟩,
    ⟨0, 7, 40, State.reset.on fun m => { m with nand := { m.nand with t0 := { ok := true, blocks := 8 } } }, by decide⟩,
    ⟨0, 7, State.reset.on fun m => { m with nand := { m.nand with t0 := { ok := true, blocks := 8 } } }, by decide⟩,
    ⟨0, 7, [3], (State.reset.on fun m => { m with nand := { m.nand with t0 := { ok := true, blocks := 8, queue := [7, 3] } } }).on fun m => m.wr NC_STAT_MSTATE 0 1, by decide⟩,
    ⟨0, 7, (State.reset.on fun m => { m with nand := { m.nand with t0 := { ok := true, blocks := 8 } } }).on fun m => { m with tb := 10 ^ 15 }, by decide⟩,
    ⟨0, 7, 40, false, State.reset.on fun m => { m with nand := { m.nand with t0 := { ok := true, blocks := 8 } } }, by decide⟩,
    ⟨0, 7, (State.reset.on fun m => { m with nand := { m.nand with t0 := { ok := true, blocks := 8, ec := [(7, 60000)] } } }).on fun m => m.wr NC_STAT_MSTATE 0 1, by decide⟩,
    ⟨0, State.reset.on fun m => { m with nand := { m.nand with t0 := { ok := true, blocks := 8 } } }, by decide⟩,
    ⟨(State.reset.on fun m => { m with nand := { m.nand with t0 := { ok := true, blocks := 8 } } }).on fun m => { m with gelow := { up := true } }, by decide⟩,
    ⟨(st [(NC_STAT_MSTATE, 0, 1)]).on fun m => { m with gelow := { up := true } }, by decide⟩,
    ⟨12600, State.reset.on fun m => { m with gelow := { up := true }, bcap := { runAcc := 10 ^ 12 } }, by decide⟩,
    ⟨0, 7, 3, State.reset.on fun m => { m with nand := { m.nand with t0 := { ok := true, blocks := 8 } } }, by decide⟩,
    ⟨0, 7, State.reset.on fun m => { m with nand := { m.nand with t0 := { ok := true, blocks := 8 } } }, by decide⟩,
    ⟨0, 7, State.reset.on fun m => { m with nand := { m.nand with t0 := { ok := true, blocks := 8 } } }, by decide⟩,
    ⟨0, 7, State.reset.on fun m => { m with nand := { m.nand with t0 := { ok := true, blocks := 8 } } }, by decide⟩,
    ⟨0, State.reset.on fun m => { m with nand := { m.nand with t0 := { ok := true, blocks := 8 } } }, by decide⟩⟩

theorem witness_BusAndFrames :
    (∃ (p : Port) (w : Word) (s : State), (s.chip.onBus (portOwner (portNo p)) = true)) ∧
    (∃ (q : Writer) (a : BitVec 24) (w : Word) (g : Reg) (s : State), (regAt a.toNat = some g) ∧ (s.chip.mayWrite q a.toNat = false) ∧ (q
      ≠ .anvilC) ∧ (g.base ≠ SYS_SLEEP_REQ.addr)) ∧
    (∃ (p : Port) (s : State), (s.chip.powered = true) ∧ (s.chip.reaches (HP_CNT_CRC.addrOf (portNo p)) = true)) ∧
    (∃ (p : Port) (l : List Byte) (s : State), (s.chip.onBus (portOwner (portNo p)) = true) ∧ ((headerOf l).crcOk = true) ∧ ((headerOf
      l).reserved = false) ∧ ((headerOf l).type = 1) ∧ ((headerOf l).rpt = false) ∧ ((headerOf l).words = 1) ∧ ((headerOf l).addr =
      0x40000 + (portNo p) * 0x10000) ∧ (14 ≤ l.length) ∧ (crc16 ((l.drop 8).take 4) = beNat ((l.drop 12).take 2)) ∧ (s.chip.rd
      HP_STAT_UP_BUSY (portNo p) = 0) ∧ (Memory.wf s.chip.mem = true)) ∧
    (∃ (p : Port) (l : List Byte) (s : State), (s.chip.onBus (portOwner (portNo p)) = true) ∧ ((headerOf l).crcOk = true) ∧ ((headerOf
      l).bad (portNo p) = false) ∧ ((headerOf l).type = 1) ∧ (writeNeeds (headerOf l) ≤ l.length) ∧ (crc16 ((l.drop 8).take (4 * (headerOf
      l).words)) ≠ beNat ((l.drop (8 + 4 * (headerOf l).words)).take 2))) ∧
    (∃ (p : Port) (l : List Byte) (s : State), (s.chip.onBus (portOwner (portNo p)) = true) ∧ (8 ≤ l.length) ∧ ((headerOf l).crcOk = true)
      ∧ ((headerOf l).bad (portNo p) = false) ∧ ((headerOf l).type = 0) ∧ ((headerOf l).rpt = false) ∧ ((headerOf l).words = 1)) ∧
    (∃ (l : List Byte) (c : Nat) (s : State), (s.chip.onBus .hostA = true) ∧ (c ≤ s.chip.tbOf islHostA) ∧ (8 ≤ l.length) ∧ ((headerOf
      l).crcOk = true) ∧ ((headerOf l).bad 0 = false) ∧ ((headerOf l).type = 2) ∧ (s.chip.trimRef ≠ 2)) ∧
    (∃ (p : Port) (l : List Byte) (k : Bool) (s : State), (s.chip.onBus (portOwner (portNo p)) = true) ∧ (l.length < 8)) ∧
    (∃ (x : Mbx) (q : Byte) (s : State), (s.chip.mbRuns x.val = true) ∧ (s.chip.mbUp x.val = true) ∧ (s.chip.mbSt x.val = 0) ∧ (s.chip.rd
      MB_INFO_RESP_RD x.val = 1)) ∧
    (∃ (x : Mbx) (q : Byte) (s : State), (s.chip.mbRuns x.val = true) ∧ (s.chip.mbUp x.val = false)) ∧
    (∃ (x : Mbx) (s : State), (s.chip.mbRuns x.val = true) ∧ (s.chip.mbSt x.val = 1)) ∧
    (∃ (x : Mbx) (s : State), (s.chip.mbRuns x.val = true) ∧ (s.chip.rd MB_INFO_HELD x.val = 1)) ∧
    (∃ (x : Mbx) (s : State), (s.chip.mbRuns x.val = true) ∧ (4 ≤ s.chip.mbSt x.val)) :=
  ⟨⟨.b, 0xFFFFFFFF, State.reset, by decide⟩,
    ⟨.hostA, 0x700000, 0, ⟨0x700000, 0, (regAt 0x700000).elim [] Reg.fields⟩, State.reset, by decide⟩,
    ⟨.a, st [(HP_CNT_CRC, 0, 5), (HP_CNT_CUT, 0, 65535)], by decide⟩,
    ⟨.b, [64, 5, 0, 0, 0, 0, 71, 87, 1, 2, 3, 4, 137, 195], State.reset, by decide +kernel⟩,
    ⟨.b, [64, 5, 0, 0, 0, 0, 71, 87, 1, 2, 3, 4, 137, 194], State.reset, by decide +kernel⟩,
    ⟨.a, [0, 104, 0, 0, 0, 0, 21, 225], State.reset, by decide +kernel⟩,
    ⟨[128, 0, 0, 0, 0, 0, 218, 48], 0, State.reset, by decide +kernel⟩,
    ⟨.a, [1, 2], false, State.reset, by decide⟩,
    ⟨19, 255, (st [(MB_INFO_RESP_RD, 19, 1)]).on fun m => { m with gelow := { up := true } }, by decide⟩,
    ⟨0, 1, st [(HP_STAT_GELOW_UP, 0, 0)], by decide⟩,
    ⟨7, st [(MB_STATUS_STATE, 7, 1)], by decide⟩,
    ⟨7, st [(MB_INFO_HELD, 7, 1)], by decide⟩,
    ⟨7, st [(MB_STATUS_STATE, 7, 4)], by decide⟩⟩

theorem witness_QueueHeadWrite : ∃ (p : Port) (w : Word) (s : State), (s.chip.runs (islHostA + portNo p) = true) :=
  ⟨.b, 8191, st [(HP_Q_TAIL, 1, 8191)], by decide⟩

theorem witness_JournalAndGelow :
    (∃ (w : JWord) (r : List JWord) (x : Rec) (s : State), (s.chip.writerRuns = true) ∧ (s.chip.jour.words = w :: r) ∧ (w.phase = 2) ∧
      (s.chip.rec? w.jsn = some x) ∧ (x.phase < 2)) ∧
    (∃ (w : JWord) (r : List JWord) (x : Rec) (s : State), (s.chip.writerRuns = true) ∧ (s.chip.jour.words = w :: r) ∧ (s.chip.rec? w.jsn
      = some x) ∧ (x.phase = 3)) ∧
    (∃ (s : State), (s.chip.writerRuns = true) ∧ (s.chip.due .heartbeat = true)) ∧
    (∃ (a : BitVec 21) (s : State), (s.chip.writerRuns = true) ∧ (a.toNat < 0x110000)) ∧
    (∃ (x : Mbx) (s : State), (s.chip.gelow.up = true) ∧ (s.chip.runs islMgmt = true) ∧ (s.chip.due .gelow = true) ∧ (s.chip.runs islMap =
      false) ∧ (s.chip.chans = []) ∧ (s.chip.gelow.collect = false) ∧ (s.chip.mbox = []) ∧ (s.chip.sys.sleepReq = false) ∧
      (s.chip.gelow.batch = []) ∧ (∀ c : Cap, ∀ l : Fin 4, s.chip.lane c.val l.val ≠ 3) ∧ (∀ y : Mbx, s.chip.mbSt y.val = (if y = x then 1
      else 0)) ∧ (s.chip.mbRuns x.val = true) ∧ (s.chip.cmdCode x.val = 0) ∧ (opEntries (s.chip.mbOp x.val) (s.chip.mbPay x.val) ≤ 160)) ∧
    (∃ (d : Nat) (s : State), (s.chip.sys.vDown = some d) ∧ (s.chip.sys.vReady = false) ∧ (s.chip.runs islMgmt = true) ∧
      (s.chip.jour.staged = []) ∧ (s.chip.pool = [])) ∧
    (∃ (p : Port) (s : State), (s.chip.sys.vReady = true) ∧ (s.chip.runs islMgmt = true) ∧ (s.chip.gelow.up = false) ∧ (∀ y : Mbx,
      s.chip.mbBusy y.val = false)) ∧
    (∃ (p : Port) (x n : Nat) (r : LongRun) (s : State), (s.chip.upOwner (portNo p) = some (x, r)) ∧ (s.chip.gelow.up = true) ∧
      (s.chip.runs islMgmt = true) ∧ (s.chip.mbRuns x = true) ∧ (n = min 65536 (s.chip.rd HP_UP_LEN (portNo p))) ∧ (0 < n) ∧ (n < r.due)) ∧
    (∃ (x : Mbx) (r : LongRun) (s : State), ((s.chip.mb x.val).run = some r) ∧ (s.chip.gelow.up = true) ∧ (s.chip.runs islMgmt = true) ∧
      (s.chip.mbRuns x.val = true) ∧ (r.full = true) ∧ (s.chip.rd MB_INFO_HELD x.val = 0) ∧ (r.out.length ≤ 65536) ∧ (r.jsn = 0) ∧
      (Memory.wf s.chip.mem = true)) ∧
    (∃ (x : Mbx) (r : LongRun) (s : State), ((s.chip.mb x.val).run = some r) ∧ (s.chip.gelow.up = true) ∧ (s.chip.runs islMgmt = true) ∧
      (s.chip.rd MB_INFO_HELD x.val = 1) ∧ ((s.chip.mb x.val).heldTb + 60000 * msTb ≤ s.chip.tb)) ∧
    (∃ (s : State), (s.chip.gelow.up = true) ∧ (s.chip.runs islMgmt = true) ∧ (s.chip.due .gelow = true) ∧ (s.chip.sys.sleepReq = false)) ∧
    (∃ (d : Nat) (s : State), (s.chip.sys.vDown = some d) ∧ (s.chip.sys.vReady = false) ∧ (s.chip.runs islMgmt = true)) ∧
    (∃ (p : Port) (s : State), (s.chip.sys.vReady = true) ∧ (s.chip.runs islMgmt = true) ∧ (s.chip.gelow.up = false)) ∧
    (∃ (x : Mbx) (r : LongRun) (s : State), ((s.chip.mb x.val).run = some r) ∧ (s.chip.gelow.up = true) ∧ (s.chip.runs islMgmt = true) ∧
      (s.chip.mbRuns x.val = true) ∧ (r.full = true) ∧ (s.chip.rd MB_INFO_HELD x.val = 0) ∧ (65536 < r.out.length) ∧ (r.hold = true) ∧
      (Memory.wf s.chip.mem = true)) :=
  ⟨⟨{ jsn := 9, phase := 2, tb := 77 }, [], { jsn := 9, owner := 1, opcode := 0x301, ch := 3, tag := 0, target := 0, mbx := 0, seq := 0, first := 9, slot := 0 }, State.reset.on fun m => { m with jour := { m.jour with words := [{ jsn := 9, phase := 2, tb := 77 }], recs := [{ jsn := 9, owner := 1, opcode := 0x301, ch := 3, tag := 0, target := 0, mbx := 0, seq := 0, first := 9, slot := 0 }] } }, by decide⟩,
    ⟨{ jsn := 9, phase := 3, outcome := 5 }, [], { jsn := 9, owner := 1, opcode := 0x301, ch := 3, tag := 0, target := 0, mbx := 0, seq := 0, first := 9, slot := 0, phase := 3, outcome := 1 }, State.reset.on fun m => { m with jour := { m.jour with words := [{ jsn := 9, phase := 3, outcome := 5 }], recs := [{ jsn := 9, owner := 1, opcode := 0x301, ch := 3, tag := 0, target := 0, mbx := 0, seq := 0, first := 9, slot := 0, phase := 3, outcome := 1 }] } }, by decide⟩,
    ⟨State.reset, by decide⟩,
    ⟨0x10FFFF, State.reset, by decide⟩,
    ⟨3, (st [(MB_STATUS_STATE, 3, 1)]).on fun m => ({ m with gelow := { up := true }, isl := tabPut m.isl islMap { m.island islMap with hung := true } }.store 0x1C00 [1, 1]), by decide⟩,
    ⟨0, State.reset.on fun m => { m with sys := { m.sys with vDown := some 0 } }, by decide⟩,
    ⟨.b, State.reset.on fun m => { m with sys := { m.sys with vDown := some 0, vReady := true } }, by decide⟩,
    ⟨.a, 2, 4, { op := 0x605, due := 100 }, (st [(HP_STAT_UP_TAKEN, 0, 1), (HP_STAT_UP_BUSY, 0, 1), (HP_STAT_UP_MB, 0, 2), (MB_INFO_UP_WAIT, 2, 1), (HP_UP_LEN, 0, 4)]).on fun m => { m with gelow := { up := true }, mbox := [(2, { nextTb := some 0, run := some { op := 0x605, due := 100 } })] }, by decide⟩,
    ⟨3, { op := 0x606, full := true, out := [1, 2, 3] }, State.reset.on fun m => { m with gelow := { up := true }, mbox := [(3, { run := some { op := 0x606, full := true, out := [1, 2, 3] } })] }, by decide⟩,
    ⟨3, { op := 0x606 }, (st [(MB_INFO_HELD, 3, 1)]).on fun m => { m with tb := 10 ^ 15, gelow := { up := true }, mbox := [(3, { run := some { op := 0x606 } })] }, by decide⟩,
    ⟨State.reset.on fun m => { m with tb := 9000000, gelow := { up := true } }, by decide⟩,
    ⟨0, State.reset.on fun m => { m with sys := { m.sys with vDown := some 0 } }, by decide⟩,
    ⟨.b, State.reset.on fun m => { m with sys := { m.sys with vDown := some 0, vReady := true } }, by decide⟩,
    ⟨3, { op := 0x606, full := true, hold := true, out := List.replicate 65537 7 }, State.reset.on fun m => { m with gelow := { up := true }, mbox := [(3, { run := some { op := 0x606, full := true, hold := true, out := List.replicate 65537 7 } })] }, rfl, by decide, by decide, by decide, rfl, by decide, by simp only [List.length_replicate]; decide, rfl, by decide⟩⟩

theorem witness_SystemAndGeometryCommands :
    (∃ (x : Mbx) (s : State), (s.chip.isNext x.val 0x0101 = true) ∧ (Memory.wf s.chip.mem = true)) ∧
    (∃ (x : Mbx) (s : State), (s.chip.isNext x.val 0x0102 = true) ∧ (Memory.wf s.chip.mem = true)) ∧
    (∃ (x : Mbx) (b : Bool) (s : State), (s.chip.isNext x.val 0x0103 = true) ∧ (payNat (s.chip.mbPay x.val) 0 1 = (if b then 1 else 0))) ∧
    (∃ (x : Mbx) (s : State), (s.chip.isNext x.val 0x0104 = true) ∧ (payNat (s.chip.mbPay x.val) 0 1 = 0)) ∧
    (∃ (x : Mbx) (s : State), (s.chip.isNext x.val 0x0104 = true) ∧ (payNat (s.chip.mbPay x.val) 0 1 = 1)) ∧
    (∃ (x : Mbx) (a : Nat) (s : State), (s.chip.isNext x.val 0x0202 = true) ∧ (Memory.wf s.chip.mem = true) ∧ (payNat (s.chip.mbPay x.val)
      0 1 = a) ∧ (payNat (s.chip.mbPay x.val) 1 1 = 1)) ∧
    (∃ (x : Mbx) (a : Nat) (s : State), (s.chip.isNext x.val 0x0201 = true) ∧ (Memory.wf s.chip.mem = true) ∧ (payNat (s.chip.mbPay x.val)
      0 1 = 1) ∧ (payNat (s.chip.mbPay x.val) 8 1 = a) ∧ (s.chip.axOwner a = mbOwner x.val) ∧ (s.chip.runs islAxis = true)) ∧
    (∃ (x : Mbx) (s : State), (s.chip.isNext x.val 0x0602 = true) ∧ (s.chip.rd PROT_ROLE_GEOM = mbOwner x.val) ∧ (s.chip.runs islMap =
      true)) ∧
    (∃ (x : Mbx) (a : Nat) (s : State), (s.chip.isNext x.val 0x0603 = true) ∧ (payNat (s.chip.mbPay x.val) 0 1 = a) ∧ (payNat
      (s.chip.mbPay x.val) 1 1 = 1) ∧ (s.chip.runs islMap = true)) ∧
    (∃ (x : Mbx) (a : Nat) (s : State), (s.chip.isNext x.val 0x0604 = true) ∧ (Memory.wf s.chip.mem = true) ∧ (payNat (s.chip.mbPay x.val)
      0 1 = 1) ∧ (payNat (s.chip.mbPay x.val) 4 2 = a) ∧ (a < 192) ∧ (s.chip.chOwner a = mbOwner x.val) ∧ (s.chip.runs islMap = true)) :=
  ⟨⟨8, State.reset.on fun m => ({ m with gelow := { up := true, batch := [8] } }.store (mbBase 8) [1, 1, 0, 0, 1, 0, 0, 0]), by decide⟩,
    ⟨19, State.reset.on fun m => ({ m with gelow := { up := true, batch := [19] } }.store (mbBase 19) [2, 1, 0, 0, 1, 0, 0, 0]), by decide⟩,
    ⟨0, true, State.reset.on fun m => ({ m with gelow := { up := true, batch := [0] } }.store (mbBase 0) [3, 1, 1, 0, 1, 0, 0, 0, 1]), by decide⟩,
    ⟨0, State.reset.on fun m => ({ m with gelow := { up := true, batch := [0] } }.store (mbBase 0) [4, 1, 1, 0, 1, 0, 0, 0, 0]), by decide⟩,
    ⟨0, State.reset.on fun m => ({ m with gelow := { up := true, batch := [0] } }.store (mbBase 0) [4, 1, 1, 0, 1, 0, 0, 0, 1]), by decide⟩,
    ⟨3, 255, State.reset.on fun m => ({ m with gelow := { up := true, batch := [3] } }.store (mbBase 3) [2, 2, 2, 0, 1, 0, 0, 0, 255, 1]), by decide⟩,
    ⟨3, 7, (st [(PROT_AX_OWN, 0, 16384)]).on fun m => ({ m with gelow := { up := true, batch := [3] } }.store (mbBase 3) [1, 2, 24, 0, 1, 0, 0, 0, 1, 0, 0, 0, 0, 0, 0, 0, 7, 1, 3, 0, 196, 9, 0, 0, 247, 255, 255, 255, 5, 0, 0, 0]), by decide⟩,
    ⟨3, (st [(PROT_ROLE_GEOM, 0, 1)]).on fun m => ({ m with gelow := { up := true, batch := [3] } }.store (mbBase 3) [2, 6, 5, 0, 1, 0, 0, 0, 1, 0, 0, 0, 200]), by decide⟩,
    ⟨8, 255, State.reset.on fun m => ({ m with gelow := { up := true, batch := [8] } }.store (mbBase 8) [3, 6, 8, 0, 1, 0, 0, 0, 255, 1, 0, 0, 1, 2, 3, 4]), by decide⟩,
    ⟨8, 191, (st [(PROT_CH_OWN, 11, 2147483648)]).on fun m => ({ m with gelow := { up := true, batch := [8] } }.store (mbBase 8) [4, 6, 12, 0, 1, 0, 0, 0, 1, 0, 0, 0, 191, 0, 0, 0, 255, 255, 255, 255]), by decide⟩⟩

theorem witness_EventCommands :
    (∃ (x : Mbx) (s : State), (s.chip.isNext x.val 0x0301 = true) ∧ (Memory.wf s.chip.mem = true) ∧ (payNat (s.chip.mbPay x.val) 0 1 = 1)
      ∧ (s.chip.armCode false (armEntry (mbOwner x.val) (((s.chip.mbPay x.val).drop 8).take 24)) = 0)) ∧
    (∃ (x : Mbx) (s : State), (s.chip.isNext x.val 0x0401 = true) ∧ (Memory.wf s.chip.mem = true) ∧ (payNat (s.chip.mbPay x.val) 0 1 = 1)
      ∧ (s.chip.armCode true (trainEntry (mbOwner x.val) (((s.chip.mbPay x.val).drop 8).take 32)) = 0)) ∧
    (∃ (x : Mbx) (i : Nat) (v : Ev) (s : State), (s.chip.isNext x.val 0x0302 = true) ∧ (Memory.wf s.chip.mem = true) ∧ (payNat
      (s.chip.mbPay x.val) 0 1 = 1) ∧ (s.chip.slotOf (mbOwner x.val) (payNat (s.chip.mbPay x.val) 8 6) = some (i, v)) ∧ (v.life = .armed)
      ∧ (s.chip.dueHead v.ch = none)) ∧
    (∃ (x : Mbx) (ch : Nat) (s : State), (s.chip.isNext x.val 0x0303 = true) ∧ (bitAt (payNat (s.chip.mbPay x.val) 24 1) 0 = true) ∧
      (bitmapChs (s.chip.mbPay x.val) = [ch]) ∧ (ownerRank (s.chip.chOwner ch) < ownerRank (mbOwner x.val)) ∧ (s.chip.jourFree (mbOwner
      x.val) ≠ 0)) ∧
    (∃ (x : Mbx) (ch : Nat) (s : State), (s.chip.isNext x.val 0x0303 = true) ∧ (bitAt (payNat (s.chip.mbPay x.val) 24 1) 0 = false) ∧
      (bitmapChs (s.chip.mbPay x.val) = [ch]) ∧ (ownerRank (s.chip.chOwner ch) < ownerRank (mbOwner x.val)) ∧ (s.chip.jourFree (mbOwner
      x.val) ≠ 0)) ∧
    (∃ (x : Mbx) (r : Rec) (s : State), (s.chip.isNext x.val 0x0304 = true) ∧ (Memory.wf s.chip.mem = true) ∧ (s.chip.eventRec (mbOwner
      x.val) (payNat (s.chip.mbPay x.val) 0 6) = some r)) ∧
    (∃ (x : Mbx) (ch : Nat) (k : Train) (s : State), (s.chip.isNext x.val 0x0402 = true) ∧ (Memory.wf s.chip.mem = true) ∧ (payNat
      (s.chip.mbPay x.val) 0 1 = 1) ∧ (payNat (s.chip.mbPay x.val) 8 2 = ch) ∧ (ch < 192) ∧ (s.chip.chOwner ch = mbOwner x.val) ∧
      ((s.chip.chan ch).train = some k) ∧ (256 ≤ payNat (s.chip.mbPay x.val) 12 4 % 2 ^ TR_PITCH.w) ∧ (payNat (s.chip.mbPay x.val) 16 4 %
      2 ^ TR_WIDTH.w ≠ 0)) ∧
    (∃ (x : Mbx) (ch : Nat) (s : State), (s.chip.isNext x.val 0x0403 = true) ∧ (Memory.wf s.chip.mem = true) ∧ (payNat (s.chip.mbPay
      x.val) 0 1 = ch) ∧ (payNat (s.chip.mbPay x.val) 1 1 = 1) ∧ (s.chip.clearBarred x.val (bitAt (payNat (s.chip.mbPay x.val) 2 1) 0)
      [ch] = false)) ∧
    (∃ (x : Mbx) (ch : Nat) (s : State), (s.chip.isNext x.val 0x0501 = true) ∧ (Memory.wf s.chip.mem = true) ∧ (payNat (s.chip.mbPay
      x.val) 0 1 = 1) ∧ (payNat (s.chip.mbPay x.val) 8 2 = ch) ∧ (ch < 192) ∧ (s.chip.chOwner ch = mbOwner x.val) ∧ (s.chip.runs
      (clusterOf ch) = true) ∧ (bitAt (payNat (s.chip.mbPay x.val) 12 1) 0 = false)) ∧
    (∃ (x : Mbx) (ch : Nat) (s : State), (s.chip.isNext x.val 0x0502 = true) ∧ (Memory.wf s.chip.mem = true) ∧ (payNat (s.chip.mbPay
      x.val) 0 1 = ch) ∧ (payNat (s.chip.mbPay x.val) 1 1 = 1) ∧ (s.chip.clearBarred x.val (bitAt (payNat (s.chip.mbPay x.val) 2 1) 0)
      [ch] = false)) :=
  ⟨⟨0, (st [(PROT_CH_OWN, 0, 1024), (CH_CTL_MODE, 5, 1), (AX_CFG_KIND, 5, 1)]).on fun m => ({ m with gelow := { up := true, batch := [0] } }.store (mbBase 0) [1, 3, 32, 0, 1, 0, 0, 0, 1, 0, 0, 0, 0, 0, 0, 0, 5, 0, 1, 0, 112, 17, 1, 0, 0, 0, 0, 0, 0, 0, 0, 0, 0, 0, 0, 0, 0, 0, 0, 0]), by decide⟩,
    ⟨0, (st [(PROT_CH_OWN, 0, 1024), (CH_CTL_MODE, 5, 1), (AX_CFG_KIND, 5, 1)]).on fun m => ({ m with gelow := { up := true, batch := [0] } }.store (mbBase 0) [1, 4, 40, 0, 1, 0, 0, 0, 1, 0, 0, 0, 0, 0, 0, 0, 5, 0, 0, 0, 112, 17, 1, 0, 0, 232, 3, 0, 0, 100, 0, 0, 0, 0, 0, 0, 0, 0, 0, 0, 0, 0, 0, 0, 0, 0, 0, 0]), by decide⟩,
    ⟨0, 3, { gen := 0, ch := 5, owner := 1, kind := 1, noadv := false, bidir := false, width := 0, target := 0, deadline := 0, jsn := some 9, life := .armed, order := 0 }, State.reset.on fun m => ({ m with gelow := { up := true, batch := [0] }, pool := [(3, { gen := 0, ch := 5, owner := 1, kind := 1, noadv := false, bidir := false, width := 0, target := 0, deadline := 0, jsn := some 9, life := .armed, order := 0 })] }.store (mbBase 0) [2, 3, 16, 0, 1, 0, 0, 0, 1, 0, 0, 0, 0, 0, 0, 0, 9, 0, 0, 0, 0, 0, 0, 0]), by decide⟩,
    ⟨0, 7, State.reset.on fun m => ({ m with gelow := { up := true, batch := [0] } }.store (mbBase 0) [3, 3, 25, 0, 1, 0, 0, 0, 128, 0, 0, 0, 0, 0, 0, 0, 0, 0, 0, 0, 0, 0, 0, 0, 0, 0, 0, 0, 0, 0, 0, 0, 1]), by decide⟩,
    ⟨0, 7, State.reset.on fun m => ({ m with gelow := { up := true, batch := [0] } }.store (mbBase 0) [3, 3, 25, 0, 1, 0, 0, 0, 128, 0, 0, 0, 0, 0, 0, 0, 0, 0, 0, 0, 0, 0, 0, 0, 0, 0, 0, 0, 0, 0, 0, 0, 0]), by decide⟩,
    ⟨0, { jsn := 9, owner := 1, opcode := 0x301, ch := 3, tag := 0, target := 77, mbx := 0, seq := 0, first := 9, slot := 0, phase := 3, outcome := 1 }, State.reset.on fun m => ({ m with gelow := { up := true, batch := [0] }, jour := { m.jour with recs := [{ jsn := 9, owner := 1, opcode := 0x301, ch := 3, tag := 0, target := 77, mbx := 0, seq := 0, first := 9, slot := 0, phase := 3, outcome := 1 }] } }.store (mbBase 0) [4, 3, 6, 0, 1, 0, 0, 0, 9, 0, 0, 0, 0, 0]), by decide⟩,
    ⟨0, 5, { idx := 0, owner := 1, order := 0, tgt := 0, ph := 0, pitch := 300, width := 5, len := 0, noadv := false }, (st [(PROT_CH_OWN, 0, 1024)]).on fun m => ({ m with gelow := { up := true, batch := [0] }, chans := [(5, { m.chan 5 with train := some { idx := 0, owner := 1, order := 0, tgt := 0, ph := 0, pitch := 300, width := 5, len := 0, noadv := false } })] }.store (mbBase 0) [2, 4, 20, 0, 1, 0, 0, 0, 1, 0, 0, 0, 0, 0, 0, 0, 5, 0, 0, 0, 48, 117, 0, 0, 132, 3, 0, 0]), by decide⟩,
    ⟨0, 5, (st [(PROT_CH_OWN, 0, 1024)]).on fun m => ({ m with gelow := { up := true, batch := [0] } }.store (mbBase 0) [3, 4, 3, 0, 1, 0, 0, 0, 5, 1, 1]), by decide⟩,
    ⟨0, 191, (st [(PROT_CH_OWN, 11, 1073741824)]).on fun m => ({ m with gelow := { up := true, batch := [0] } }.store (mbBase 0) [1, 5, 68, 0, 1, 0, 0, 0, 1, 0, 0, 0, 0, 0, 0, 0, 191, 0, 0, 0, 0, 0, 0, 0, 1, 2, 3, 4, 5, 6, 7, 8, 9, 10, 11, 12, 13, 14, 15, 16, 17, 18, 19, 20, 21, 22, 23, 24, 25, 26, 27, 28, 29, 30, 31, 32, 33, 34, 35, 36, 37, 38, 39, 40, 41, 42, 43, 44, 45, 46, 47, 48, 49, 50, 51, 52]), by decide⟩,
    ⟨0, 191, (st [(PROT_CH_OWN, 11, 1073741824)]).on fun m => ({ m with gelow := { up := true, batch := [0] } }.store (mbBase 0) [2, 5, 3, 0, 1, 0, 0, 0, 191, 1, 1]), by decide⟩⟩

theorem witness_JournalAndDiagnosticsCommands :
    (∃ (x : Mbx) (l : List Rec) (s : State), (s.chip.isNext x.val 0x0701 = true) ∧ (Memory.wf s.chip.mem = true) ∧ (l = s.chip.jourRead
      (mbOwner x.val) (payNat (s.chip.mbPay x.val) 0 6) (payNat (s.chip.mbPay x.val) 6 2)) ∧ (l ≠ [])) ∧
    (∃ (x : Mbx) (s : State), (s.chip.isNext x.val 0x0702 = true) ∧ (Memory.wf s.chip.mem = true) ∧ (payNat (s.chip.mbPay x.val) 0 6 ≤
      tabGet s.chip.jour.newest (mbOwner x.val) 0)) ∧
    (∃ (x : Mbx) (j n : Nat) (s : State), (s.chip.isNext x.val 0x0703 = true) ∧ (Memory.wf s.chip.mem = true) ∧ (s.chip.jourFind (mbOwner
      x.val) (payNat (s.chip.mbPay x.val) 0 4) = (j, n))) ∧
    (∃ (x : Mbx) (k u : Nat) (s : State), (s.chip.isNext x.val 0x0801 = true) ∧ (Memory.wf s.chip.mem = true) ∧ (payNat (s.chip.mbPay
      x.val) 0 1 = k) ∧ (payNat (s.chip.mbPay x.val) 1 1 = u) ∧ (payNat (s.chip.mbPay x.val) 2 1 = 1) ∧ (u < counterUnits k) ∧
      (s.chip.gelow.collect = true) ∧ (s.chip.jourFree (mbOwner x.val) ≠ 0)) ∧
    (∃ (x : Mbx) (c : Copy) (s : State), (s.chip.isNext x.val 0x0802 = true) ∧ (Memory.wf s.chip.mem = true) ∧ (tabFind s.chip.copies
      (payNat (s.chip.mbPay x.val) 0 1) = some c) ∧ (c.samples ≠ []) ∧ (s.chip.jourFree (mbOwner x.val) ≠ 0)) ∧
    (∃ (x : Mbx) (a : Nat) (s : State), (s.chip.isNext x.val 0x0803 = true) ∧ (payNat (s.chip.mbPay x.val) 0 1 = a) ∧ (payNat
      (s.chip.mbPay x.val) 1 1 = 1) ∧ (s.chip.jourFree (mbOwner x.val) ≠ 0)) ∧
    (∃ (x : Mbx) (a : Nat) (s : State), (s.chip.isNext x.val 0x0901 = true) ∧ (payNat (s.chip.mbPay x.val) 0 1 = a) ∧ (payNat
      (s.chip.mbPay x.val) 1 1 = 1) ∧ (s.chip.chOwner a = mbOwner x.val)) ∧
    (∃ (x : Mbx) (a : Nat) (s : State), (s.chip.isNext x.val 0x0902 = true) ∧ (bitmapChs (s.chip.mbPay x.val) = [a]) ∧ (bitAt (payNat
      (s.chip.mbPay x.val) 24 1) 0 = false) ∧ (s.chip.chOwner a = mbOwner x.val)) :=
  ⟨⟨0, [{ jsn := 9, owner := 1, opcode := 0x301, ch := 3, tag := 0, target := 77, mbx := 0, seq := 0, first := 9, slot := 0, phase := 3, outcome := 1 }], State.reset.on fun m => ({ m with gelow := { up := true, batch := [0] }, jour := { m.jour with recs := [{ jsn := 9, owner := 1, opcode := 0x301, ch := 3, tag := 0, target := 77, mbx := 0, seq := 0, first := 9, slot := 0, phase := 3, outcome := 1 }] } }.store (mbBase 0) [1, 7, 8, 0, 1, 0, 0, 0, 0, 0, 0, 0, 0, 0, 4, 0]), by decide⟩,
    ⟨0, State.reset.on fun m => ({ m with gelow := { up := true, batch := [0] }, jour := { m.jour with newest := [(1, 9)], recs := [{ jsn := 9, owner := 1, opcode := 0x301, ch := 3, tag := 0, target := 77, mbx := 0, seq := 0, first := 9, slot := 0, phase := 3, outcome := 1 }] } }.store (mbBase 0) [2, 7, 6, 0, 1, 0, 0, 0, 9, 0, 0, 0, 0, 0]), by decide⟩,
    ⟨0, 0, 0, State.reset.on fun m => ({ m with gelow := { up := true, batch := [0] } }.store (mbBase 0) [3, 7, 4, 0, 1, 0, 0, 0, 9, 0, 0, 0]), by decide⟩,
    ⟨0, 5, 1, State.reset.on fun m => ({ m with gelow := { up := true, batch := [0], collect := true, totals := [(5 * 65536 + 64, 700)] } }.store (mbBase 0) [1, 8, 3, 0, 1, 0, 0, 0, 5, 1, 1]), by decide⟩,
    ⟨0, ⟨9, 3, 1, 2, [700, 65535]⟩, State.reset.on fun m => ({ m with gelow := { up := true, batch := [0] }, copies := [(7, ⟨9, 3, 1, 2, [700, 65535]⟩)] }.store (mbBase 0) [2, 8, 1, 0, 1, 0, 0, 0, 7]), by decide⟩,
    ⟨0, 191, State.reset.on fun m => ({ m with gelow := { up := true, batch := [0] } }.store (mbBase 0) [3, 8, 2, 0, 1, 0, 0, 0, 191, 1]), by decide⟩,
    ⟨0, 191, (st [(PROT_CH_OWN, 11, 1073741824)]).on fun m => ({ m with gelow := { up := true, batch := [0] } }.store (mbBase 0) [1, 9, 6, 0, 1, 0, 0, 0, 191, 1, 244, 1, 90, 0]), by decide⟩,
    ⟨0, 7, (st [(PROT_CH_OWN, 0, 16384)]).on fun m => ({ m with gelow := { up := true, batch := [0] } }.store (mbBase 0) [2, 9, 25, 0, 1, 0, 0, 0, 128, 0, 0, 0, 0, 0, 0, 0, 0, 0, 0, 0, 0, 0, 0, 0, 0, 0, 0, 0, 0, 0, 0, 0, 0]), by decide⟩⟩

theorem witness_LongCommands :
    (∃ (x : Mbx) (s : State), (s.chip.isNext x.val 0x0601 = true) ∧ (Memory.wf s.chip.mem = true) ∧ (s.chip.rd NC_CFG_EN = 1) ∧ (s.chip.rd
      NC_STAT_MSTATE ≠ 0) ∧ (bitAt (payNat (s.chip.mbPay x.val) 0 1) 0 = true)) ∧
    (∃ (x : Mbx) (s : State), (s.chip.isNext x.val 0x0601 = true) ∧ (s.chip.rd NC_CFG_EN = 0) ∧ (bitAt (payNat (s.chip.mbPay x.val) 0 1) 0
      = true)) ∧
    (∃ (x : Mbx) (p : Nat) (s : State), (s.chip.isNext x.val 0x0605 = true) ∧ (mbPort x.val = some p) ∧ (s.chip.writable = true) ∧
      (s.chip.rd HP_STAT_UP_TAKEN p = 0)) ∧
    (∃ (x : Mbx) (p : Nat) (s : State), (s.chip.isNext x.val 0x0905 = true) ∧ (mbPort x.val = some p) ∧ (s.chip.writable = true) ∧
      (s.chip.rd HP_STAT_UP_TAKEN p = 0)) ∧
    (∃ (x : Mbx) (e n : Int) (s : State), (s.chip.isNext x.val 0x0606 = true) ∧ (toSigned 16 (payNat (s.chip.mbPay x.val) 0 2) = e) ∧
      (toSigned 16 (payNat (s.chip.mbPay x.val) 4 2) = e) ∧ (toSigned 16 (payNat (s.chip.mbPay x.val) 2 2) = n) ∧ (toSigned 16 (payNat
      (s.chip.mbPay x.val) 6 2) = n) ∧ (s.chip.tileSlot 0 e n = none) ∧ (s.chip.nandTile (tileKey 0 e n) = none)) ∧
    (∃ (x : Mbx) (l : List Nat) (s : State), (s.chip.isNext x.val 0x0903 = true) ∧ (l = bitmapChs (s.chip.mbPay x.val))) ∧
    (∃ (x : Mbx) (a : List Int) (t2 t3 t4 : Nat) (l : List BankTest) (s : State), (s.chip.isNext x.val 0x0904 = true) ∧ (payNat
      (s.chip.mbPay x.val) 0 4 = 16) ∧ (a.length = 616) ∧ (l.length = 24) ∧ ((l.all fun (b : BankTest) => b.nodes.length == 8) = true)) ∧
    (∃ (x : Mbx) (l : List (Int × Int)) (s : State), (s.chip.isNext x.val 0x0606 = true) ∧ (l = rectTiles (toSigned 16 (payNat
      (s.chip.mbPay x.val) 0 2)) (toSigned 16 (payNat (s.chip.mbPay x.val) 2 2)) (toSigned 16 (payNat (s.chip.mbPay x.val) 4 2)) (toSigned
      16 (payNat (s.chip.mbPay x.val) 6 2))) ∧ (toSigned 16 (payNat (s.chip.mbPay x.val) 0 2) ≤ toSigned 16 (payNat (s.chip.mbPay x.val) 4
      2)) ∧ (toSigned 16 (payNat (s.chip.mbPay x.val) 2 2) ≤ toSigned 16 (payNat (s.chip.mbPay x.val) 6 2)) ∧ (l.length ≤ 64) ∧ (l.any
      s.chip.exportLost = false)) ∧
    (∃ (x : Mbx) (a : List Int) (t2 t3 t4 : Nat) (l : List BankTest) (ws : List Nat) (s : State), (s.chip.isNext x.val 0x0904 = true) ∧
      (a.length = 616) ∧ (l.length = 24) ∧ ((l.all fun (b : BankTest) => b.nodes.length == 8) = true) ∧ ((s.chip.selfTests (payNat
      (s.chip.mbPay x.val) 0 4) [0, 0, t2, t3, t4] a l (List.range 32)).1 = ws)) :=
  ⟨⟨0, (st [(NC_CFG_EN, 0, 1), (NC_STAT_MSTATE, 0, 1)]).on fun m => ({ m with gelow := { up := true, batch := [0] } }.store (mbBase 0) [1, 6, 3, 0, 1, 0, 0, 0, 1, 3, 9]), by decide⟩,
    ⟨0, State.reset.on fun m => ({ m with gelow := { up := true, batch := [0] } }.store (mbBase 0) [1, 6, 3, 0, 1, 0, 0, 0, 7, 3, 9]), by decide⟩,
    ⟨15, 1, (st [(NC_STAT_MSTATE, 0, 1)]).on fun m => ({ m with gelow := { up := true, batch := [15] } }.store (mbBase 15) [5, 6, 6, 0, 1, 0, 0, 0, 1, 0, 0, 0, 0, 0]), by decide⟩,
    ⟨15, 1, (st [(NC_STAT_MSTATE, 0, 1)]).on fun m => ({ m with gelow := { up := true, batch := [15] } }.store (mbBase 15) [5, 9, 8, 0, 1, 0, 0, 0, 1, 0, 0, 0, 0, 16, 0, 0]), by decide⟩,
    ⟨0, -1, 2, State.reset.on fun m => ({ m with gelow := { up := true, batch := [0] } }.store (mbBase 0) [6, 6, 8, 0, 1, 0, 0, 0, 255, 255, 2, 0, 255, 255, 2, 0]), by decide⟩,
    ⟨0, [0, 7], State.reset.on fun m => ({ m with gelow := { up := true, batch := [0] } }.store (mbBase 0) [3, 9, 33, 0, 1, 0, 0, 0, 129, 0, 0, 0, 0, 0, 0, 0, 0, 0, 0, 0, 0, 0, 0, 0, 0, 0, 0, 0, 0, 0, 0, 0, 3, 0, 50, 0, 132, 3, 0, 0, 0]), by decide⟩,
    ⟨0, List.replicate 616 0, 0, 0, 7, List.replicate 24 ⟨0, false, List.replicate 8 (0, 0)⟩, State.reset.on fun m => ({ m with gelow := { up := true, batch := [0] } }.store (mbBase 0) [4, 9, 4, 0, 1, 0, 0, 0, 16, 0, 0, 0]), by decide +kernel⟩,
    ⟨0, [(-1, 2)], State.reset.on fun m => ({ m with gelow := { up := true, batch := [0] } }.store (mbBase 0) [6, 6, 8, 0, 1, 0, 0, 0, 255, 255, 2, 0, 255, 255, 2, 0]), by decide⟩,
    ⟨0, List.replicate 616 0, 0, 0, 7, List.replicate 24 ⟨0, false, List.replicate 8 (0, 0)⟩, [7], State.reset.on fun m => ({ m with gelow := { up := true, batch := [0] } }.store (mbBase 0) [4, 9, 4, 0, 1, 0, 0, 0, 16, 0, 0, 0]), by decide +kernel⟩⟩
end

section
/-! PROOFS. The canonical forms: they hold after reset, and every step keeps them. -/

namespace Sys2Proof.Machine

/-! ## What a step does to the block -/

/-- The parts of the block that a step may change: those of the command at the front of the queue, and TB alone where none waits. -/
def stepParts (s : State) : List Part :=
  match s.pending with
  | [] => [.tb]
  | i :: _ => partsOf i

theorem stepParts_nil {s : State} (h : s.pending = []) : stepParts s = [.tb] := by
  simp [stepParts, h]

theorem stepParts_cons {s : State} {i : Instr} {r : List Instr} (h : s.pending = i :: r) : stepParts s = partsOf i := by
  simp [stepParts, h]

/-- On an empty queue a step is one cycle of the timebase. -/
theorem step_nil {s : State} (h : s.pending = []) : step s = .next { s with chip := s.chip.idle } := by
  simp [step, h]

/-- With a command waiting a step executes it on the rest of the queue. -/
theorem step_cons {s : State} {i : Instr} {r : List Instr} (h : s.pending = i :: r) :
    step s = exec i { s with pending := r } := by
  simp [step, h]

/-- A step's effect on the block is made of basic moves within its parts. -/
theorem step_moves {s t : State} (e : step s = .next t) : Moves (stepParts s) s.chip t.chip := by
  cases h : s.pending with
  | nil =>
    rw [step_nil h] at e
    cases e
    rw [stepParts_nil h]
    exact Chip.idle_moves .refl (within_refl _)
  | cons i r =>
    rw [step_cons h] at e
    have m := exec_moves e
    rw [stepParts_cons h]
    exact m

/-! ## The canonical forms -/

/-- The form of a state is a matter of its block alone, and every chain of basic moves keeps it. -/
theorem Wf.of_moves {L : List Part} {s t : State} (w : Wf s) (h : Moves L s.chip t.chip) : Wf t := h.wf w

/-- No byte is written after reset, no map reset has saved rows, and the reset values are listed in canonical form. -/
theorem wf_reset : Wf State.reset := by
  have mem : Memory.wf State.reset.chip.mem = true := rfl
  have regs : regsWf State.reset.chip.regs = true := by decide
  have saved : State.reset.chip.map.saved = none := rfl
  exact ⟨mem, regs, fun rows e => by simp [saved] at e⟩

/-- Settles O2: a step is a chain of basic moves, each of which keeps the canonical forms. -/
theorem stepKeepsForm : Obligations.StepKeepsForm := by
  intro s t w e
  exact w.of_moves (step_moves e)

/-- Settles O3: the block is fresh and the queue is empty. -/
theorem resetHasForm : Obligations.ResetHasForm := ⟨wf_reset, rfl⟩

end Sys2Proof.Machine
end

section
/-! PROOFS. What a refetch gives the reader (R30), and the excluded cells that it keeps (R270). -/

namespace Sys2Proof.Machine

/-! ## The end of a refetch -/

/-- The queue of refetches has no part in the backing copy of a word. -/
@[simp] theorem Chip.backing_refetch (m : Chip) (q : List Refetch) (a : Nat) : { m with refetch := q }.backing a = m.backing a := rfl

@[simp] theorem Chip.refetched_refetch (m : Chip) (q : List Refetch) (a : Nat) (bs : List Byte) :
    { m with refetch := q }.refetched a bs = m.refetched a bs := rfl

/-- The read completes with the committed word, but for the excluded cells that the cache holds (R30, R270). -/
theorem Chip.refetchDone_rdata {m : Chip} {r : Refetch} {rest : List Refetch} {bs : List Byte} (hq : m.refetch = r :: rest)
    (hb : m.backing r.addr = some bs) : m.refetchDone.rdata = leNat (m.refetched r.addr bs) := by
  simp [Chip.refetchDone, hq, hb]

theorem exec_sramRefetchDone (s : State) : exec .sramRefetchDone s = .next { s with chip := s.chip.refetchDone } := rfl

/-! ## A coverage word with excluded cells -/

/-- Coverage slot 0 is DIRTY and its tile has no committed version; the first byte of the slot holds four excluded cells, and the read of
its word waits for a refetch. -/
def excludedWord : State :=
  { chip := { Chip.fresh.wr MAP_CT_STAT_STATE 0 3 with mem := [(0x9E0000, 255)], refetch := [⟨.anvilV, 0x9E0000, 0⟩] }, pending := [] }

/-- The backing copy is the creation content of the tile (R31). -/
theorem excludedWord_backing : excludedWord.chip.backing 0x9E0000 = some [0, 0, 0, 0] := by decide

/-- The excluded cells do not revert to it (R270). -/
theorem excludedWord_refetched : excludedWord.chip.refetched 0x9E0000 [0, 0, 0, 0] = [255, 0, 0, 0] := by decide

/-- Refutes O51: its sixth clause lets every refetch answer the backing copy as it stands, but in a coverage slot the excluded cells that the
cache holds stay (R270). The copy of `excludedWord` reads 0, and its refetch answers 255. -/
theorem not_fabricAndParity : ¬ Obligations.FabricAndParity := by
  unfold Obligations.FabricAndParity
  rintro ⟨-, -, -, -, -, refetchGivesCopy, -⟩
  obtain ⟨t, ht, copyRead, -⟩ := refetchGivesCopy ⟨.anvilV, 0x9E0000, 0⟩ [] [0, 0, 0, 0] excludedWord rfl excludedWord_backing
  have heldRead : excludedWord.chip.refetchDone.rdata = leNat [255, 0, 0, 0] := by
    rw [Chip.refetchDone_rdata rfl excludedWord_backing, excludedWord_refetched]
  rw [exec_sramRefetchDone] at ht
  cases ht
  exact absurd (heldRead.symm.trans copyRead) (by decide)

end Sys2Proof.Machine
end

section
/-! PROOFS. Direct arming: the flags of a channel, a refusal, a slot taken, and the case "ahead" of R150. -/

namespace Sys2Proof.Machine

/-! ## Flags of a channel -/

@[simp] theorem Chip.chFlag_pool (m : Chip) (ch b : Nat) : (m.chFlag ch b).pool = m.pool :=
  (Chip.chFlag_moves .refl (within_refl _)).kept.pool (by decide)

theorem Chip.chFlag_rd_ne (m : Chip) (ch b : Nat) (f : Field) (j : Nat) (hp : f.part ≠ .rInt) (hf : f.id ≠ CH_FLAGS.id) :
    (m.chFlag ch b).rd f j = m.rd f j := Chip.raise_rd_ne _ _ _ _ _ _ _ _ hp hf

/-- A channel's flag stands once it has been raised. -/
theorem Chip.chFlag_bit (m : Chip) (ch b : Nat) (h : b < CH_FLAGS.w) : bitAt ((m.chFlag ch b).rd CH_FLAGS ch) b = true :=
  Chip.raise_bit _ _ _ _ _ _ (by decide) h

theorem SameRegs.chFlag {l : List (Field × Nat)} {p : List Part} {x y : Chip} {ch b : Nat} (h : SameRegs l p x y)
    (hi : Part.rInt ∈ p) (hm : (CH_FLAGS, ch) ∈ l) : SameRegs l p x (y.chFlag ch b) := SameRegs.raise h hi (.inr hm)

/-! ## A refused arming (R168, R171) -/

theorem exec_chArm {who : Writer} {ch : Ch} {s : State} (ok : s.chip.chOk who ch.val = true) :
    exec (.chArm who ch) s = .next { s with chip := s.chip.armDirect ch.val } := by
  change execChArm who ch s = _
  simp [execChArm, ok]

theorem Chip.armDirect_refused {m : Chip} {ch : Nat} (h : m.armRefusal ch ≠ 0) :
    m.armDirect ch = m.armRefuse ch (m.armRefusal ch) := if_neg h

/-- The codes of R171 fit CH_ARM_RES.CODE. -/
theorem Chip.armRefusal_lt (m : Chip) (ch : Nat) : m.armRefusal ch < 2 ^ CH_ARM_RES_CODE.w := by
  unfold Chip.armRefusal
  repeat' split
  all_goals decide

theorem Chip.armRefuse_code (m : Chip) (ch c : Nat) : (m.armRefuse ch c).rd CH_ARM_RES_CODE ch = c % 2 ^ CH_ARM_RES_CODE.w := by
  unfold Chip.armRefuse
  rw [Chip.chFlag_rd_ne _ _ _ _ _ (by decide) (by decide), Chip.rd_wr_same]

theorem Chip.armRefuse_flag (m : Chip) (ch c : Nat) :
    bitAt ((m.armRefuse ch c).rd CH_FLAGS ch) CH_FLAGS_ARM_REFUSED = true := Chip.chFlag_bit _ _ _ (by decide)

theorem Chip.armRefuse_pool (m : Chip) (ch c : Nat) : (m.armRefuse ch c).pool = m.pool := by
  unfold Chip.armRefuse
  dsimp only
  split <;> simp

/-- A refusal writes its code and the flags alone. -/
theorem SameRegs.armRefuse (m : Chip) (ch c : Nat) :
    SameRegs [(CH_ARM_RES_CODE, ch), (CH_FLAGS, ch)] [.rInt] m (m.armRefuse ch c) := by
  have emptied : SameRegs [(CH_ARM_RES_CODE, ch), (CH_FLAGS, ch)] [.rInt] m
      (if m.poolFree = 0 then m.chFlag ch CH_FLAGS_POOL_EMPTY else m) := by
    split
    · exact (SameRegs.rfl _ _ _).chFlag (by simp) (by simp)
    · exact SameRegs.rfl _ _ _
  exact (emptied.wr (.inr (by simp))).chFlag (by simp) (by simp)

/-! ## A slot taken (R134) -/

theorem firstFree_lt (p : Tab Ev) (c fuel : Nat) (h : c < 16384) : firstFree p c fuel < 16384 := by
  induction fuel generalizing c with
  | zero => exact h
  | succ k ih =>
    unfold firstFree
    split
    · exact h
    · exact ih _ (Nat.mod_lt _ (by decide))

/-- The pool index that the next slot takes. -/
def Chip.nextIndex (m : Chip) : Nat := firstFree m.pool (Config.poolChoice m.frees % 16384) 16384

theorem Chip.nextIndex_lt (m : Chip) : m.nextIndex < 16384 := firstFree_lt _ _ _ (Nat.mod_lt _ (by decide))

/-- The event as its slot holds it: with the tag of the index, and the next acceptance order. -/
def Chip.slotted (m : Chip) (e : Ev) : Ev := { e with gen := (tabGet m.poolLast m.nextIndex {}).gen, order := m.orderNo + 1 }

theorem Chip.takeSlot_ev (m : Chip) (e : Ev) : (m.takeSlot e).2.ev m.nextIndex = some (m.slotted e) := tabFind_put_same _ _ _

theorem SameRegs.takeSlot {l : List (Field × Nat)} {p : List Part} {x : Chip} (m : Chip) (e : Ev) (h : SameRegs l p x m)
    (hm : (CH_POOL_LOW, 0) ∈ l) : SameRegs l p x (m.takeSlot e).2 := (h.regs (Eq.refl _)).wr (.inr hm)

/-! ## Arming short of the target (R141, R150) -/

theorem sqrtBits_zero (k : Nat) : sqrtBits 0 k 0 = 0 := by
  induction k with
  | zero => rfl
  | succ j ih =>
    have large : ¬ (0 + 2 ^ (j + 1)) * (0 + 2 ^ (j + 1)) ≤ 0 :=
      Nat.not_le.2 (Nat.mul_pos (Nat.add_pos_right 0 (Nat.two_pow_pos _)) (Nat.add_pos_right 0 (Nat.two_pow_pos _)))
    rw [sqrtBits, if_neg large]
    exact ih

/-- An axis that stands still has no fire point for a target ahead of it. -/
theorem fireDist_still {d : Int} (h : 0 < d) (adv : Nat) : fireDist 0 0 d adv = none := by
  have root : rootOf 0 0 d = some 0 := by simp [rootOf, isqrt, sqrtBits_zero]
  simp [fireDist, tauOf, root, Int.not_le.2 h]

/-- The case "ahead" of R150: the event is armed, and its code is 1. -/
theorem Chip.armCase_ahead {m : Chip} {i : Nat} {e : Ev} {x : Axis} (hx : m.chAxis e.ch = x) (hv : x.v = 0) (ha : x.a = 0)
    (hd : 0 < axDist x e.target) (hr : posDiff e.target x.posInt ≠ -549755813888) :
    m.armCase i e = (1, m.setEv i { e with life := .armed }) := by
  simp [Chip.armCase, hx, hv, ha, hr, fireDist_still hd]

@[simp] theorem Chip.touch_nextIndex (m : Chip) (ch : Nat) : (m.touch ch).nextIndex = m.nextIndex := rfl

@[simp] theorem Chip.touch_slotted (m : Chip) (ch : Nat) (e : Ev) : (m.touch ch).slotted e = m.slotted e := rfl

/-- The arming that has no ground of refusal, in its slot. -/
theorem Chip.armDirect_taken {m : Chip} {ch : Nat} (h : m.armRefusal ch = 0) :
    m.armDirect ch = ((m.touch ch).takeSlot (m.armEvent ch)).2.armTaken ch (m.touch ch).nextIndex := if_pos h

/-- With no ground of refusal the target is not at half the range from the axis (R136, R150). -/
theorem Chip.posDiff_of_armRefusal {m : Chip} {ch : Nat} (h : m.armRefusal ch = 0) :
    posDiff (m.armTarget ch) (m.chAxis ch).posInt ≠ -549755813888 := by
  intro out
  unfold Chip.armRefusal at h
  rw [if_pos out] at h
  repeat' split at h
  all_goals exact absurd h (by decide)

theorem Chip.wr_chAxis (m : Chip) (f : Field) (i v ch : Nat) (h : CH_AXIS_AX.id ≠ f.id) : (m.wr f i v).chAxis ch = m.chAxis ch := by
  unfold Chip.chAxis
  rw [Chip.rd_wr_ne _ _ _ _ _ _ h]
  rfl

/-- A slot taken does not move the axis that a channel is bound to. -/
theorem Chip.takeSlot_chAxis (m : Chip) (e : Ev) (ch : Nat) : (m.takeSlot e).2.chAxis ch = m.chAxis ch :=
  Chip.wr_chAxis _ _ _ _ _ (by decide)

/-- A slot taken short of the target: the handle, the armed event, code 1. -/
theorem Chip.armTaken_ahead {m : Chip} {ch i : Nat} {e : Ev} {x : Axis} (he : m.ev i = some e) (hx : m.chAxis e.ch = x)
    (hv : x.v = 0) (ha : x.a = 0) (hd : 0 < axDist x e.target) (hr : posDiff e.target x.posInt ≠ -549755813888) :
    m.armTaken ch i =
      ((m.wr CH_ARM_RES_HANDLE ch (handleOf i e.gen)).setEv i { e with life := .armed }).wr CH_ARM_RES_CODE ch 1 := by
  have axis : (m.wr CH_ARM_RES_HANDLE ch (handleOf i e.gen)).chAxis e.ch = x := (Chip.wr_chAxis _ _ _ _ _ (by decide)).trans hx
  simp only [Chip.armTaken, he, Chip.armCoded]
  rw [Chip.armCase_ahead axis hv ha hd hr]

/-- A direct arming short of the target (R150): what it leaves of the block. -/
theorem Chip.armDirect_ahead {m : Chip} {ch : Nat} (h : m.armRefusal ch = 0) (hv : (m.chAxis ch).v = 0) (ha : (m.chAxis ch).a = 0)
    (hd : 0 < axDist (m.chAxis ch) (m.armTarget ch)) :
    m.armDirect ch =
      (((((m.touch ch).takeSlot (m.armEvent ch)).2.wr CH_ARM_RES_HANDLE ch
        (handleOf m.nextIndex (tabGet m.poolLast m.nextIndex {}).gen)).setEv m.nextIndex (m.slotted (m.armEvent ch))).wr
          CH_ARM_RES_CODE ch 1) := by
  have held : ((m.touch ch).takeSlot (m.armEvent ch)).2.ev m.nextIndex = some (m.slotted (m.armEvent ch)) := by
    simpa using Chip.takeSlot_ev (m.touch ch) (m.armEvent ch)
  have axis : ((m.touch ch).takeSlot (m.armEvent ch)).2.chAxis ch = m.chAxis ch := Chip.takeSlot_chAxis _ _ _
  rw [Chip.armDirect_taken h, Chip.touch_nextIndex]
  exact Chip.armTaken_ahead (e := m.slotted (m.armEvent ch)) held axis hv ha hd (Chip.posDiff_of_armRefusal h)

theorem handleOf_lt {i : Nat} (h : i < 16384) (gen : Nat) : handleOf i gen < 2 ^ CH_ARM_RES_HANDLE.w := by
  change i + 16384 * (gen % 256) < 2 ^ 22
  omega

/-- Settles O17: a refusal writes its code and flags, and an arming short of the target is the case "ahead" of R150 in the slot taken. -/
theorem directArming : Obligations.DirectArming := by
  unfold Obligations.DirectArming
  constructor
  · rintro who ch c s ok rfl refused
    refine ⟨_, exec_chArm ok, ?_⟩
    rw [Chip.armDirect_refused refused]
    refine ⟨?_, Chip.armRefuse_flag _ _ _, Chip.armRefuse_pool _ _ _, SameRegs.armRefuse _ _ _⟩
    exact (Chip.armRefuse_code _ _ _).trans (Nat.mod_eq_of_lt (Chip.armRefusal_lt _ _))
  · rintro who ch i s ok free hv ha hd rfl
    refine ⟨_, exec_chArm ok, ?_⟩
    rw [Chip.armDirect_ahead free hv ha hd]
    refine ⟨tabFind_put_same _ _ _, Chip.rd_wr_same _ _ _ _, ?_, rfl, ?_⟩
    · calc _ = (((s.chip.touch ch.val).takeSlot (s.chip.armEvent ch.val)).2.wr CH_ARM_RES_HANDLE ch.val _).rd CH_ARM_RES_HANDLE ch.val :=
            Chip.rd_wr_ne _ _ _ _ _ _ (by decide)
        _ = _ := (Chip.rd_wr_same _ _ _ _).trans (Nat.mod_eq_of_lt (handleOf_lt (Chip.nextIndex_lt _) _))
    · have slot := SameRegs.takeSlot (l := [(CH_ARM_RES_CODE, ch.val), (CH_ARM_RES_HANDLE, ch.val), (CH_POOL_LOW, 0)]) (p := [])
        (s.chip.touch ch.val) (s.chip.armEvent ch.val) ((SameRegs.rfl _ _ _).regs rfl) (by simp)
      exact ((slot.wr (.inr (by simp))).regs rfl).wr (.inr (by simp))

end Sys2Proof.Machine
end

section
/-! PROOFS. The settings of a channel: CH_CTL, CH_AXIS and CH_ADV (R135, R140, R167). -/

namespace Sys2Proof.Machine

theorem exec_channelConfigWrite {who : Writer} {ch : Ch} {reg : Fin 3} {w : Word} {s : State} (ok : s.chip.chOk who ch.val = true) :
    exec (.channelConfigWrite who ch reg w) s = .next { s with chip := s.chip.chCfgWrite ch.val reg.val w.toNat } := by
  change execChannelConfigWrite who ch reg w s = _
  simp [execChannelConfigWrite, ok]

theorem wordField_lt (f : Field) (w : Nat) : wordField f w < 2 ^ f.w := Nat.mod_lt _ (Nat.two_pow_pos _)

theorem Chip.wrFrom_rd_same (m : Chip) (f : Field) (i w : Nat) : (m.wrFrom f i w).rd f i = wordField f w :=
  (Chip.rd_wr_same _ _ _ _).trans (Nat.mod_eq_of_lt (wordField_lt _ _))

theorem Chip.wrFrom_rd_ne (m : Chip) (f g : Field) (i j w : Nat) (h : g.id ≠ f.id) : (m.wrFrom f i w).rd g j = m.rd g j :=
  Chip.rd_wr_ne _ _ _ _ _ _ h

/-- A channel with pending events is not taken out of its mode (R167). -/
theorem Chip.chCtlWrite_pending {m : Chip} {ch w : Nat} (h : m.pend ch ≠ 0) (off : wordField CH_CTL_MODE w = 0) :
    m.chCtlWrite ch w = m.chFlag ch CH_FLAGS_CFG_ERR := by
  simp [Chip.chCtlWrite, off, h]

/-- A channel with pending events keeps its axis (R135). -/
theorem Chip.chAxisWrite_pending {m : Chip} {ch : Nat} (h : m.pend ch ≠ 0) (w : Nat) :
    m.chAxisWrite ch w = m.chFlag ch CH_FLAGS_CFG_ERR := if_pos h

theorem Chip.chAxisWrite_free {m : Chip} {ch : Nat} (h : m.pend ch = 0) (w : Nat) :
    m.chAxisWrite ch w = (m.wrFrom CH_AXIS_AX ch w).touch ch := if_neg (not_not_intro h)

/-- A write of CH_ADV writes its two fields; the beginning of the measured mode is in the channel, not in a register (R140). -/
theorem Chip.chAdvWrite_regs (m : Chip) (ch w : Nat) :
    (m.chAdvWrite ch w).regs = ((m.wrFrom CH_ADV_MODE ch w).wrFrom CH_ADV_SHIFT ch w).regs := by
  unfold Chip.chAdvWrite
  dsimp only
  split <;> rfl

/-- Settles O22: the flag is raised and nothing else moves where the write is refused, and the named fields take the word where it is not. -/
theorem channelSettings : Obligations.ChannelSettings := by
  unfold Obligations.ChannelSettings
  refine ⟨?_, ?_, ?_, ?_⟩
  · intro who ch w s ok pending off
    refine ⟨_, exec_channelConfigWrite ok, ?_⟩
    have refused : s.chip.chCfgWrite ch.val 0 w.toNat = s.chip.chFlag ch.val CH_FLAGS_CFG_ERR := Chip.chCtlWrite_pending pending off
    rw [Fin.val_zero, refused]
    exact ⟨Chip.chFlag_bit _ _ _ (by decide), Chip.chFlag_rd_ne _ _ _ _ _ (by decide) (by decide), Chip.chFlag_pool _ _ _⟩
  · intro who ch w s ok pending
    refine ⟨_, exec_channelConfigWrite ok, ?_⟩
    have refused : s.chip.chCfgWrite ch.val 1 w.toNat = s.chip.chFlag ch.val CH_FLAGS_CFG_ERR := Chip.chAxisWrite_pending pending _
    rw [Fin.val_one, refused]
    exact ⟨Chip.chFlag_bit _ _ _ (by decide), (SameRegs.rfl _ _ _).chFlag (by simp) (by simp)⟩
  · intro who ch w s ok free
    refine ⟨_, exec_channelConfigWrite ok, ?_⟩
    have taken : s.chip.chCfgWrite ch.val 1 w.toNat = (s.chip.wrFrom CH_AXIS_AX ch.val w.toNat).touch ch.val :=
      Chip.chAxisWrite_free free _
    rw [Fin.val_one, taken]
    exact ⟨Chip.wrFrom_rd_same _ _ _ _, ((SameRegs.rfl _ _ _).wr (.inr (by simp))).regs rfl⟩
  · intro who ch w s ok
    refine ⟨_, exec_channelConfigWrite ok, ?_⟩
    have written : (s.chip.chCfgWrite ch.val 2 w.toNat).regs = _ := Chip.chAdvWrite_regs _ _ _
    refine ⟨?_, ?_, ?_⟩
    · exact (rd_regs written _ _).trans ((Chip.wrFrom_rd_ne _ _ _ _ _ _ (by decide)).trans (Chip.wrFrom_rd_same _ _ _ _))
    · exact (rd_regs written _ _).trans (Chip.wrFrom_rd_same _ _ _ _)
    · exact (((SameRegs.rfl _ _ _).wr (.inr (by simp))).wr (.inr (by simp))).regs written

end Sys2Proof.Machine
end

section
/-! PROOFS. What else falls due at the TB of a cancel: the end of a pulse in flight (R161, R129). -/

namespace Sys2Proof.Machine

theorem exec_chCancel {who : Writer} {ch : Ch} {h : BitVec 22} {s : State} (ok : s.chip.chOk who ch.val = true) :
    exec (.chCancel who ch h) s = .next { s with chip := s.chip.cancelDirect who ch.val h.toNat } := by
  change execChCancel who ch h s = _
  simp [execChCancel, ok]

/-- A cancel of an armed event: what is due on its channel comes first (R161), then the event resolves CANCELLED with cause 10. -/
theorem Chip.cancelHandle_armed {m : Chip} {i h : Nat} {e : Ev} (index : h % 16384 = i) (found : m.ev i = some e)
    (named : handleOf i e.gen = h) (left : (m.fireDue e.ch 200).ev i = some e) (direct : e.jsn = none)
    (life : e.life = .armed) :
    m.cancelHandle e.owner h false = (11, (m.fireDue e.ch 200).finish i e 4 10) := by
  simp [Chip.cancelHandle, index, found, named, left, direct, Chip.cancelSlot, life]

/-- The cancel itself leaves the owner state: it is as what was due has left it. -/
theorem Chip.cancelDirect_ownOn {m : Chip} {who : Writer} {ch i h c : Nat} {e : Ev} (index : h % 16384 = i)
    (found : m.ev i = some e) (named : handleOf i e.gen = h) (left : (m.fireDue e.ch 200).ev i = some e)
    (owner : e.owner = writerCode who) (direct : e.jsn = none) (life : e.life = .armed) :
    (m.cancelDirect who ch h).rd MAP_CH_STAT_OWN_ON c = (m.fireDue e.ch 200).rd MAP_CH_STAT_OWN_ON c := by
  have cancelled := Chip.cancelHandle_armed index found named left direct life
  rw [owner] at cancelled
  simp only [Chip.cancelDirect, cancelled]
  rw [Chip.rd_wr_ne _ _ _ _ _ _ (by decide)]
  exact (Chip.finish_moves .refl (within_refl _)).rd _ _ (by decide)

/-- A MARK that waits for its fire point on channel 3. -/
def waitingMark : Ev :=
  { gen := 7, ch := 3, owner := 1, kind := 5, noadv := false, bidir := false, width := 0, target := 1000, deadline := 0, jsn := none
    life := .armed, order := 4 }

/-- A pulse in flight on channel 3. -/
def flyingPulse : Ev :=
  { gen := 2, ch := 3, owner := 1, kind := 3, noadv := false, bidir := false, width := 1, target := 500, deadline := 0, jsn := none
    life := .flying, order := 3, outcome := 1 }

/-- Channel 3 of HOST-A at TB 50: its owner state is on by a pulse whose width has just run out, its gate is closed, and the MARK
in slot 5 is to be cancelled. -/
def pulseOver : State :=
  (st [(PROT_CH_OWN, 0, 0x55555555), (PROT_DW, 0, 7), (MAP_CH_STAT_OWN_ON, 3, 1)]).on fun m =>
    ({ m with tb := 50, pool := [(5, waitingMark), (6, flyingPulse)] }).setChan 3 { pulses := [{ idx := 6, endTb := 50 }] }

theorem pulseOver_ownOn : pulseOver.chip.rd MAP_CH_STAT_OWN_ON 3 = 1 := by decide

theorem pulseOver_dueHead : pulseOver.chip.dueHead 3 = none := by decide

/-- The pulse ends, and turns the owner state off (R129). -/
theorem pulseOver_fireDue : (pulseOver.chip.fireDue 3 200).rd MAP_CH_STAT_OWN_ON 3 = 0 := by decide

theorem pulseOver_left : (pulseOver.chip.fireDue 3 200).ev 5 = some waitingMark := by decide

/-- Refutes O18: its first clause keeps every register but the result and the channel's outcome, but all that is due on the channel comes
before the cancel (R161), and the end of a pulse is due without being an action of the compare. In `pulseOver` no action is due, and the
owner state is off after the cancel. -/
theorem not_cancelling : ¬ Obligations.Cancelling := by
  unfold Obligations.Cancelling
  rintro ⟨cancelByHandle, -, -⟩
  obtain ⟨t, ht, -, -, -, -, -, -, same⟩ := cancelByHandle .hostA 3 (5 + 16384 * 7) waitingMark pulseOver (by decide) (by decide) (by decide)
    rfl rfl rfl pulseOver_dueHead
  rw [exec_chCancel (by decide)] at ht
  cases ht
  have kept := same MAP_CH_STAT_OWN_ON 3 (by decide) (by decide)
  have off := Chip.cancelDirect_ownOn (m := pulseOver.chip) (who := .hostA) (ch := 3) (i := 5) (h := 5 + 16384 * 7) (c := 3) (e := waitingMark)
    (by decide) (by decide) (by decide) pulseOver_left rfl rfl rfl
  rw [pulseOver_ownOn] at kept
  exact absurd (pulseOver_fireDue.symm.trans (off.symm.trans kept)) (by decide)

end Sys2Proof.Machine
end

section
/-! PROOFS. The hallmark of an event that installation refuses (R366, R368). -/

namespace Sys2Proof.Machine

theorem exec_eventInstall (jsn : BitVec 48) (s : State) :
    exec (.eventInstall jsn) s = .next { s with chip := s.chip.install jsn.toNat } := rfl

@[simp] theorem Chip.freeSlot_jour (m : Chip) (i : Nat) : (m.freeSlot i).jour = m.jour := by
  unfold Chip.freeSlot
  split <;> rfl

/-- REFUSED leaves its word alone, with the TB of the axis island (R22). -/
theorem Chip.finish_refused_words {m : Chip} {i j : Nat} {e : Ev} (hj : e.jsn = some j) (cause : Nat) :
    (m.finish i e 7 cause).jour.words =
      m.jour.words ++ ([{ jsn := j, phase := 3, outcome := 7, cause := cause, tb := m.tbOf islAxis }] : List JWord) := by
  simp [Chip.finish, Chip.resolve, hj, Chip.jpush]

/-- The refusal at installation: its word bears the TB of the axis island. -/
theorem Chip.install_refused_words {m : Chip} {i jsn : Nat} {e : Ev} (staged : stagedIdx m.jour.staged jsn = some i) (held : m.ev i = some e)
    (life : e.life = .reserved) (runs : m.runs islAxis = true) (off : m.axKind (m.rd CH_AXIS_AX e.ch) = 0) (hj : e.jsn = some jsn) :
    (m.install jsn).jour.words =
      m.jour.words ++ ([{ jsn := jsn, phase := 3, outcome := 7, cause := 12, tb := m.tbOf islAxis }] : List JWord) := by
  have refused : (m.touch e.ch).installRefused e = true := by
    have kind : (m.touch e.ch).axKind ((m.touch e.ch).rd CH_AXIS_AX e.ch) = 0 := off
    simp [Chip.installRefused, kind]
  have ended : m.install jsn = ((m.touch e.ch).finish i e 7 12).unstage i := by
    simp [Chip.install, staged, held, life, runs, refused]
  rw [ended]
  exact Chip.finish_refused_words hj 12

/-- A MARK of record 9, accepted and not yet installed. -/
def acceptedMark : Ev := { waitingMark with jsn := some 9, life := .reserved }

/-- An accepted event of channel 3, whose axis is off; the replica of the axis island is one count ahead. -/
def aheadReplica : State :=
  State.reset.on fun m =>
    { m with
      pool := [(5, acceptedMark)], jour := { m.jour with staged := [.event 9 5] }
      isl := [(islAxis, { skew := true })] }

/-- Refutes O19: its second clause gives the refusal the TB count of the observer island, but the axis island resolves the event on its own
replica (R22), which may differ by 1 (R21). In `aheadReplica` the hallmark bears TB 1, where the count is 0. -/
theorem not_installation : ¬ Obligations.Installation := by
  unfold Obligations.Installation
  rintro ⟨-, refusedAtCount⟩
  obtain ⟨t, ht, -, words, -⟩ := refusedAtCount 9 5 acceptedMark aheadReplica (by decide) (by decide) rfl (by decide)
    (by decide) rfl
  rw [exec_eventInstall] at ht
  cases ht
  have resolved := Chip.install_refused_words (m := aheadReplica.chip) (i := 5) (jsn := 9) (e := acceptedMark) (by decide)
    (by decide) rfl (by decide) (by decide) rfl
  exact absurd (resolved.symm.trans words) (by decide)

end Sys2Proof.Machine
end

section
/-! PROOFS. A standing event whose reverse action the compare holds (R153, R155). -/

namespace Sys2Proof.Machine

theorem exec_standingSpanEnd (i : Pool) (s : State) :
    exec (.standingSpanEnd i) s = .next { s with chip := s.chip.spanEnd i.val } := rfl

/-- The compare of its channel drops the actions of a slot that is freed. -/
theorem Chip.freeSlot_heads {m : Chip} {i : Nat} {e : Ev} (held : m.ev i = some e) :
    ((m.freeSlot i).chan e.ch).heads = (m.chan e.ch).heads.filter (·.key != i) := by
  simp only [Chip.freeSlot, held]
  exact congrArg Chan.heads (tabGet_put_same _ _ _ _)

theorem Chip.spanEnd_over {m : Chip} {i : Nat} {e : Ev} (held : m.ev i = some e) (life : e.life = .standing) (back : e.fwd = false)
    (span : (m.chan e.ch).span ≠ 0) (past : axDist (m.chAxis e.ch) e.target < -(fx ((m.chan e.ch).span * 256))) :
    m.spanEnd i = m.freeSlot i := by
  simp [Chip.spanEnd, held, life, back, span, past]

/-- A bidirectional ON on channel 3 that has fired forward; its next action is the reverse one. -/
def standingOn : Ev :=
  { gen := 7, ch := 3, owner := 1, kind := 1, noadv := false, bidir := true, width := 0, target := 1000, deadline := 0, jsn := none
    life := .standing, order := 4, fwd := false }

/-- The axis of channel 3 runs in reverse, still beyond the span of the standing event in slot 5, whose reverse action the compare holds. -/
def reverseHeld : State :=
  (st [(AX_STAT_STATE, 3, 1), (AX_STAT_DIR, 3, 1)]).on fun m =>
    ({ m with axes := [(3, { pos := 65536 * 60000, v := -4294967296000 })], pool := [(5, standingOn)] }).setChan 3
      { span := 4, heads := [⟨5, 11800000000, false, false, 2, 4, 253403070464000, 4294967296000, 0, 0, 1000⟩] }

/-- Refutes O20: its last clause keeps the channel whole at the end of a standing event, but the compare may hold the event's reverse action,
and holds none of a freed slot. `reverseHeld` holds one. -/
theorem not_eventEnds : ¬ Obligations.EventEnds := by
  unfold Obligations.EventEnds
  rintro ⟨-, -, -, -, spanEndKeepsChannel⟩
  obtain ⟨t, ht, -, channel, -⟩ := spanEndKeepsChannel 5 standingOn reverseHeld (by decide) rfl rfl (by decide) (by decide)
  rw [exec_standingSpanEnd, Chip.spanEnd_over (e := standingOn) (by decide) rfl rfl (by decide) (by decide)] at ht
  cases ht
  have dropped := Chip.freeSlot_heads (m := reverseHeld.chip) (i := 5) (e := standingOn) (by decide)
  exact absurd (dropped.symm.trans (congrArg Chan.heads channel)) (by decide)

end Sys2Proof.Machine
end

section
/-! PROOFS. A read of CH_LAST_O in the cycle of a resolution (R170). -/

namespace Sys2Proof.Machine

theorem exec_chLastRead (ch : Ch) (s : State) : exec (.chLastRead ch) s = .next { s with chip := s.chip.chLastRead ch.val } := rfl

/-- In the cycle of a resolution the read still loads the one before it. -/
theorem Chip.chLastRead_sameCycle {m : Chip} {ch : Nat} (now : (m.chan ch).lastAt = some m.tb) :
    (m.chLastRead ch).rd CH_LAST_TB_LO ch = (m.chan ch).lastWas.tb % 2 ^ 32 := by
  simp only [Chip.chLastRead, now, if_true]
  exact (Chip.rd_wr_ne _ _ _ _ _ _ (by decide)).trans (Chip.rd_wr_same _ _ _ _)

/-- An event of channel 3 resolves at TB 50; the one before it resolved at TB 40. -/
def resolvesNow : State :=
  State.reset.on fun m =>
    ({ m with tb := 50 }).setChan 3 { lastTb := 50, lastAt := some 50, lastWas := ⟨0, 0, 40⟩ }

/-- Refutes O21: its first clause lets every read load the last resolution, but one that commits in the cycle of the read is not seen yet
(R170). In `resolvesNow` the read loads TB 40, where the last resolution is of TB 50. -/
theorem not_channelReads : ¬ Obligations.ChannelReads := by
  unfold Obligations.ChannelReads
  rintro ⟨readsLast, -⟩
  obtain ⟨t, ht, low, -⟩ := readsLast 3 resolvesNow
  rw [exec_chLastRead] at ht
  cases ht
  have before := Chip.chLastRead_sameCycle (m := resolvesNow.chip) (ch := 3) (by decide)
  exact absurd (before.symm.trans low) (by decide)

end Sys2Proof.Machine
end

section
/-! PROOFS. The drive of a channel keeps the lattices: what an actuation and its end leave of them (R191). -/

namespace Sys2Proof.Machine

/-! ## Operations of the drive keep the lattices -/

/-- Every lattice is as before. -/
theorem Chip.lat_of_chans {x y : Chip} (h : y.chans = x.chans) (c : Nat) : y.lat c = x.lat c := by
  unfold Chip.lat Chip.chan
  rw [h]

theorem Moves.lat {L : List Part} {x y : Chip} (h : Moves L x y) (p : Part.chans ∉ L) (c : Nat) : y.lat c = x.lat c :=
  Chip.lat_of_chans (h.kept.chans p) c

theorem Chip.lat_ite (p : Prop) [Decidable p] (x y : Chip) (c : Nat) :
    (if p then x else y).lat c = if p then x.lat c else y.lat c := apply_ite (fun m : Chip => m.lat c) p x y

theorem Chip.setChan_lat (m : Chip) (ch c : Nat) (x : Chan) : (m.setChan ch x).lat c = if c = ch then x.lat else m.lat c := by
  unfold Chip.lat Chip.chan Chip.setChan
  dsimp only
  rw [tabGet_put]
  exact apply_ite Chan.lat _ _ _

/-- A channel set with its lattice as it stands. -/
theorem Chip.setChan_lat_kept {m : Chip} {ch : Nat} {x : Chan} (h : x.lat = m.lat ch) (c : Nat) : (m.setChan ch x).lat c = m.lat c := by
  rw [Chip.setChan_lat]
  split
  · next e => rw [h, e]
  · rfl

@[simp] theorem Chip.setDrv_lat (m : Chip) (ch c : Nat) (d : Drv) : (m.setDrv ch d).lat c = m.lat c :=
  Chip.setChan_lat_kept (by rfl) c

@[simp] theorem Chip.wr_lat (m : Chip) (f : Field) (i v c : Nat) : (m.wr f i v).lat c = m.lat c := rfl
@[simp] theorem Chip.wrB_lat (m : Chip) (f : Field) (i c : Nat) (b : Bool) : (m.wrB f i b).lat c = m.lat c := rfl
@[simp] theorem Chip.count_lat (m : Chip) (f : Field) (i n c : Nat) : (m.count f i n).lat c = m.lat c := rfl
@[simp] theorem Chip.setBank_lat (m : Chip) (b c : Nat) (x : BankSt) : (m.setBank b x).lat c = m.lat c := rfl
@[simp] theorem Chip.bankStat_lat (m : Chip) (b c : Nat) : (m.bankStat b).lat c = m.lat c := rfl
@[simp] theorem Chip.boostFigures_lat (m : Chip) (ch c : Nat) : (m.boostFigures ch).lat c = m.lat c := rfl

@[simp] theorem Chip.bkFlag_lat (m : Chip) (b k c : Nat) : (m.bkFlag b k).lat c = m.lat c :=
  (Chip.bkFlag_moves .refl (within_refl _)).lat (by decide) c

@[simp] theorem Chip.drvFlag_lat (m : Chip) (ch b c : Nat) : (m.drvFlag ch b).lat c = m.lat c :=
  (Chip.drvFlag_moves .refl (within_refl _)).lat (by decide) c

@[simp] theorem Chip.dgFlag_lat (m : Chip) (ch b c : Nat) : (m.dgFlag ch b).lat c = m.lat c :=
  (Chip.dgFlag_moves .refl (within_refl _)).lat (by decide) c

@[simp] theorem Chip.supAbort_lat (m : Chip) (b c : Nat) : (m.supAbort b).lat c = m.lat c :=
  (Chip.supAbort_moves .refl (within_refl _)).lat (by decide) c

@[simp] theorem Chip.decayAs_lat (m : Chip) (ch c : Nat) (fast : Bool) : (m.decayAs ch fast).2.lat c = m.lat c :=
  (Chip.decayAs_moves .refl (within_refl _)).lat (by decide) c

@[simp] theorem Chip.capNote_lat (m : Chip) (ch c : Nat) : (m.capNote ch).lat c = m.lat c := by
  simp [Chip.capNote, Chip.lat_ite]

@[simp] theorem Chip.setPhase_lat (m : Chip) (ch ph c : Nat) : (m.setPhase ch ph).lat c = m.lat c := by
  simp [Chip.setPhase]

@[simp] theorem Chip.setSw_lat (m : Chip) (ch c : Nat) (ls fw : Bool) : (m.setSw ch ls fw).lat c = m.lat c := by
  simp [Chip.setSw]

@[simp] theorem Chip.stepTo_lat (m : Chip) (ch ph c : Nat) (fast : Bool) : (m.stepTo ch ph fast).lat c = m.lat c := by
  simp [Chip.stepTo, Chip.lat_ite]

@[simp] theorem Chip.startWindow_lat (m : Chip) (ch ph c : Nat) : (m.startWindow ch ph).lat c = m.lat c := by
  simp [Chip.startWindow, Chip.lat_ite]

@[simp] theorem Chip.waitDone_lat (m : Chip) (ch c : Nat) : (m.waitDone ch).lat c = m.lat c := by
  simp [Chip.waitDone]

/-- The boost controller is no part of a channel. -/
@[simp] theorem Chip.boost_lat (m : Chip) (b : BoostSt) (c : Nat) : { m with boost := b }.lat c = m.lat c := rfl

@[simp] theorem Chip.boostTake_lat (m : Chip) (ch c : Nat) : (m.boostTake ch).lat c = m.lat c := by
  simp [Chip.boostTake, Chip.lat_ite]

@[simp] theorem Chip.boostStart_lat (m : Chip) (ch c : Nat) : (m.boostStart ch).lat c = m.lat c := by
  simp [Chip.boostStart]

@[simp] theorem Chip.boostPass_lat (m : Chip) (b fuel c : Nat) : (m.boostPass b fuel).lat c = m.lat c := by
  induction fuel generalizing m with
  | zero => rfl
  | succ k ih =>
    unfold Chip.boostPass
    split <;> simp [Chip.lat_ite, ih]

@[simp] theorem Chip.boostEnd_lat (m : Chip) (ch c : Nat) : (m.boostEnd ch).lat c = m.lat c := by
  simp [Chip.boostEnd]

@[simp] theorem Chip.boostFull_lat (m : Chip) (ch c : Nat) : (m.boostFull ch).lat c = m.lat c := by
  simp [Chip.boostFull, Chip.lat_ite]

@[simp] theorem Chip.boostDeny_lat (m : Chip) (ch c : Nat) : (m.boostDeny ch).lat c = m.lat c := by
  simp [Chip.boostDeny]

@[simp] theorem Chip.grantYield_lat (m : Chip) (g : Grant) (c : Nat) : (m.grantYield g).lat c = m.lat c := by
  simp [Chip.grantYield, Chip.lat_ite]

@[simp] theorem Chip.grantAtOnce_lat (m : Chip) (ch c : Nat) : (m.grantAtOnce ch).lat c = m.lat c := by
  simp [Chip.grantAtOnce, Chip.boostGrant]

@[simp] theorem Chip.boostRequest_lat (m : Chip) (ch c : Nat) : (m.boostRequest ch).lat c = m.lat c := by
  unfold Chip.boostRequest
  extract_lets +onlyGivenNames b drive asked tooHigh flagged
  have kept : flagged.lat c = m.lat c := by simp [flagged, asked, Chip.lat_ite]
  clear_value flagged
  split
  · simp [kept]
  · split <;> simp [Chip.lat_ite, kept]

@[simp] theorem Chip.nodeAbort_lat (m : Chip) (ch c : Nat) : (m.nodeAbort ch).lat c = m.lat c := by
  simp [Chip.nodeAbort, Chip.lat_ite]

@[simp] theorem Chip.capStart_lat (m : Chip) (ch t c : Nat) : (m.capStart ch t).lat c = m.lat c := by
  simp [Chip.capStart, Chip.lat_ite]

/-- A loop of an operation that keeps the lattices. -/
theorem Chip.foldl_lat {α : Type} {f : Chip → α → Chip} {c : Nat} (hf : ∀ y a, (f y a).lat c = y.lat c) (l : List α) (m : Chip) :
    (l.foldl f m).lat c = m.lat c := by
  induction l generalizing m with
  | nil => rfl
  | cons a r ih => exact (ih _).trans (hf m a)

@[simp] theorem Chip.laneRecord_lat (m : Chip) (ch t c : Nat) : (m.laneRecord ch t).lat c = m.lat c := by
  refine (Chip.capStart_lat _ _ _ _).trans (Chip.foldl_lat (fun y l => ?_) _ _)
  simp [Chip.lat_ite, Chip.wrTb]

/-- The start of an actuation. -/
@[simp] theorem Chip.drvStart_lat (m : Chip) (ch t c : Nat) : (m.drvStart ch t).lat c = m.lat c := by
  simp [Chip.drvStart, Chip.lat_ite]

@[simp] theorem Chip.setStrokes_lat (m : Chip) (ch c : Nat) (k : Option Stroke) (l : List Stroke) :
    (m.setChan ch { m.chan ch with stroke := k, strokes := l }).lat c = m.lat c := Chip.setChan_lat_kept (by rfl) c

@[simp] theorem Chip.strokeBegin_lat (m : Chip) (ch t c : Nat) : (m.strokeBegin ch t).lat c = m.lat c := by
  unfold Chip.strokeBegin
  dsimp only
  split
  · rfl
  · split <;> simp [Chip.lat_ite]

@[simp] theorem Chip.strokeOff_lat (m : Chip) (ch c : Nat) : (m.strokeOff ch).lat c = m.lat c := by
  unfold Chip.strokeOff
  dsimp only
  split
  · rfl
  · simp [Chip.lat_ite]

@[simp] theorem Chip.noNotch_lat (m : Chip) (ch c : Nat) : (m.noNotch ch).lat c = m.lat c := by
  simp [Chip.noNotch, Chip.lat_ite]

/-- A turn-off, whatever decay is picked. -/
theorem Chip.drvOffBy_lat (m : Chip) (ch c : Nat) (pick : Chip → Bool × Chip) (hp : ∀ y, (pick y).2.lat c = y.lat c) :
    (m.drvOffBy ch pick).lat c = m.lat c := by
  unfold Chip.drvOffBy
  extract_lets +onlyGivenNames ph waited drive ended cut boosted
  have waits : ended.lat c = m.lat c := by simp [ended, waited, Chip.lat_ite]
  have cuts : (pick boosted).2.lat c = m.lat c := by simp [hp, boosted, cut, Chip.lat_ite]
  clear_value ended boosted
  split
  · rfl
  · split
    · simp [waits]
    · split
      next fast picked e =>
      rw [e] at cuts
      simp [Chip.lat_ite, cuts]

@[simp] theorem Chip.drvOff_lat (m : Chip) (ch c : Nat) : (m.drvOff ch).lat c = m.lat c := by
  unfold Chip.drvOff Chip.drvOffAs
  exact Chip.drvOffBy_lat _ _ _ _ fun y => Chip.decayAs_lat y ch c _

end Sys2Proof.Machine
end

section
/-! PROOFS. The 1 ms update of a lattice and its PWM output (R190, R191). -/

namespace Sys2Proof.Machine

/-! ## The lattice of a channel under the lattice operations -/

theorem Chip.setLat_lat (m : Chip) (ch c : Nat) (x : Lat) : (m.setLat ch x).lat c = if c = ch then x else m.lat c :=
  Chip.setChan_lat _ _ _ _

@[simp] theorem Chip.setLat_lat_same (m : Chip) (ch : Nat) (x : Lat) : (m.setLat ch x).lat ch = x := by simp [Chip.setLat_lat]

@[simp] theorem Chip.wrFit_lat (m : Chip) (f : Field) (i c : Nat) (v : Int) : (m.wrFit f i v).lat c = m.lat c := by
  unfold Chip.wrFit
  split <;> rfl

@[simp] theorem Chip.stamp_lat (m : Chip) (p : Period) (i c : Nat) : (m.stamp p i).lat c = m.lat c := rfl

/-- The commands that are noted, with the present one (R195). -/
def Chip.latCmds (m : Chip) (ch : Nat) : List (Nat × Int × Bool) :=
  (m.tb, (m.lat ch).c, m.latState ch == latAcq || m.latState ch == latLock) :: (m.lat ch).cmds

@[simp] theorem Chip.latNote_lat (m : Chip) (ch : Nat) : (m.latNote ch).lat ch = { m.lat ch with cmds := m.latCmds ch } := by
  simp [Chip.latNote, Chip.latCmds]

/-- A field that is not among the changed ones, wherever it stands. -/
theorem SameRegs.rd {l : List (Field × Nat)} {p : List Part} {x y : Chip} (h : SameRegs l p x y) {f : Field} (hp : f.part ∉ p)
    (hl : (l.all fun q => q.1.id != f.id) = true) (i : Nat) : y.rd f i = x.rd f i := by
  refine h f i hp fun q hq e => absurd (List.all_eq_true.1 hl q hq) ?_
  simp [e]

/-- The PWM output acts on its own drive alone. -/
@[simp] theorem Chip.pwmSet_lat (m : Chip) (o c : Nat) (on : Bool) : (m.pwmSet o on).lat c = m.lat c := by
  simp [Chip.pwmSet, Chip.lat_ite]

/-- CH_STAT.OUT shows the PWM output as it was set (R191). -/
theorem Chip.pwmSet_out (m : Chip) (o : Nat) (on : Bool) : (m.pwmSet o on).rd CH_STAT_OUT o = b2n on := by
  have written : (m.wrB CH_STAT_OUT o on).rd CH_STAT_OUT o = b2n on := by
    refine (Chip.rd_wr_same _ _ _ _).trans ?_
    cases on <;> rfl
  unfold Chip.pwmSet
  dsimp only
  split
  · exact ((Chip.drvStart_moves .refl (within_refl _)).rd _ _ (by decide)).trans written
  · split
    · exact ((Chip.drvOff_moves .refl (within_refl _)).rd _ _ (by decide)).trans written
    · exact written

/-! ## The 1 ms update (R190, R191) -/

theorem exec_latticeUpdate (ch : Ch) (s : State) : exec (.latticeUpdate ch) s = .next { s with chip := s.chip.latUpdate ch.val } := rfl

/-- In ACQ and LOCK the written settings take effect, then the command is formed. -/
theorem Chip.latUpdate_drives {m : Chip} {ch : Nat} (st : m.latState ch = latAcq ∨ m.latState ch = latLock)
    (due : m.due .lattice ch = true) (ms : m.tb % 200000 = 0) (live : m.latLive ch = true) :
    m.latUpdate ch = ((m.stamp .lattice ch).latAdopt ch).latDrive ch := by
  have on : m.latState ch ≠ latOff := by
    rcases st with st | st <;> rw [st] <;> decide
  obtain ⟨runs, safe⟩ : m.runs (clusterOf ch) = true ∧ m.safe (clusterOf ch) = false := by simpa [Chip.latLive] using live
  have safe' : ((m.stamp .lattice ch).latAdopt ch).safe (clusterOf ch) = false := safe
  simp [Chip.latUpdate, on, due, ms, runs, safe', st]

/-- The lattice with the command k, formed as c: its integral advances unless the clamp before it held (R190). -/
def Lat.commanded (x : Lat) (c k : Int) : Lat :=
  { x with
    c := k, integ := if (x.clampDir = -1 ∧ 0 < x.e) ∨ (x.clampDir = 1 ∧ x.e < 0) then x.integ else x.integ + x.e / 1000
    clampDir := if c < k then -1 else if k < c then 1 else 0 }

/-- The block with its command shown in LAT_C and LAT_STAT.SAT, before the output value goes its way. -/
def Chip.latShown (m : Chip) (ch : Nat) (c k : Int) : Chip :=
  (((m.setLat ch ((m.lat ch).commanded c k)).latNote ch).wrFit LAT_C ch (k / 65536)).wrB LAT_STAT_SAT ch (c != k)

theorem Chip.latDrive_eq {m : Chip} {ch : Nat} {c k : Int} (h : m.latCommand ch = (c, k)) :
    m.latDrive ch = (m.latShown ch c k).latEmit ch ((m.latShown ch c k).latOut ch k) := by
  unfold Chip.latDrive
  rw [h]
  rfl

theorem Chip.latShown_lat (m : Chip) (ch : Nat) (c k : Int) :
    (m.latShown ch c k).lat ch =
      { (m.lat ch).commanded c k with cmds := (m.setLat ch ((m.lat ch).commanded c k)).latCmds ch } := by
  simp [Chip.latShown]

/-- The output value depends on the adopted settings alone. -/
theorem Chip.latOut_of_acts {m y : Chip} {ch : Nat} (h : (y.lat ch).acts = (m.lat ch).acts) (k : Int) : y.latOut ch k = m.latOut ch k := by
  unfold Chip.latOut
  rw [h]

theorem Chip.latEmit_pwm {m : Chip} {ch : Nat} (h : m.rd LAT_CFG_OUTSEL ch = 1) (o : Int) :
    m.latEmit ch o = m.setLat ch { m.lat ch with pwmOut := clampI 0 65535 o } := by
  simp [Chip.latEmit, Chip.rdB, h]

theorem SameRegs.wrFit {l : List (Field × Nat)} {p : List Part} {x y : Chip} {f : Field} {i : Nat} {v : Int} (h : SameRegs l p x y)
    (hm : (f, i) ∈ l) : SameRegs l p x (y.wrFit f i v) := by
  unfold Chip.wrFit
  split
  · exact h.wr (.inr hm)
  · exact (SameRegs.regs h (Eq.refl _)).wr (.inr hm)

theorem SameRegs.latShown (m : Chip) (ch : Nat) (c k : Int) :
    SameRegs [(LAT_C, ch), (LAT_STAT_SAT, ch)] [] m (m.latShown ch c k) :=
  SameRegs.wr (SameRegs.wrFit ((SameRegs.rfl _ _ _).regs (Eq.refl _)) (by simp)) (.inr (by simp))

theorem Chip.latShown_sat (m : Chip) (ch : Nat) (c k : Int) : (m.latShown ch c k).rd LAT_STAT_SAT ch = b2n (c != k) := by
  refine (Chip.rd_wr_same _ _ _ _).trans ?_
  cases c != k <;> rfl

/-! ## The PWM output (R191) -/

theorem exec_latticePwmPeriod (ch : Ch) (s : State) :
    exec (.latticePwmPeriod ch) s = .next { s with chip := s.chip.pwmPeriod ch.val } := rfl

theorem exec_latticePwmOff (ch : Ch) (s : State) : exec (.latticePwmOff ch) s = .next { s with chip := s.chip.pwmEnd ch.val } := rfl

/-- The first carrier period of a lattice in ACQ or LOCK starts now, with the output on for its share. -/
theorem Chip.pwmPeriod_first {m : Chip} {ch o on : Nat} (pwm : m.latPwm ch = some o)
    (st : m.latState ch = latAcq ∨ m.latState ch = latLock) (first : (m.lat ch).periodTb = none) (live : m.latLive ch = true)
    (safe : m.safe (clusterOf o) = false) (share : on = (2 * (m.lat ch).pwmOut.toNat * m.latPeriod ch + 65536) / 131072)
    (some_ : on ≠ 0) :
    m.pwmPeriod ch = (m.setLat ch { m.lat ch with periodTb := some m.tb, offTb := some (m.tb + on) }).pwmSet o true := by
  have drives : ¬ (m.latState ch ≠ latAcq ∧ m.latState ch ≠ latLock) := fun neither => st.elim neither.1 neither.2
  subst share
  simp [Chip.pwmPeriod, pwm, first, live, safe, drives, some_]

theorem Chip.pwmEnd_past {m : Chip} {ch o z : Nat} (pwm : m.latPwm ch = some o) (ends : (m.lat ch).offTb = some z) (past : z ≤ m.tb) :
    m.pwmEnd ch = (m.setLat ch { m.lat ch with offTb := none }).pwmSet o false := by
  simp [Chip.pwmEnd, pwm, ends, past]

/-- Settles O24: the update is the adopted settings, the command shown and its value handed on; a period and its end set the output. -/
theorem latticeLoop : Obligations.LatticeLoop := by
  unfold Obligations.LatticeLoop
  refine ⟨?_, ?_, ?_⟩
  · rintro ch x c k s acq due ms live outsel free rfl command
    refine ⟨_, exec_latticeUpdate ch s, ?_⟩
    rw [Chip.latUpdate_drives (.inl acq) due ms live, Chip.latDrive_eq command]
    generalize adopted : (s.chip.stamp .lattice ch.val).latAdopt ch.val = x
    have kept : x.lat ch.val = { s.chip.lat ch.val with acts := (x.lat ch.val).acts } := by
      subst adopted
      simp [Chip.latAdopt]
    have regs : x.regs = s.chip.regs := by subst adopted; rfl
    have shown := x.latShown_lat ch.val c k
    have same : SameRegs [(LAT_C, ch.val), (LAT_STAT_SAT, ch.val)] [] s.chip (x.latShown ch.val c k) :=
      ((SameRegs.rfl _ _ _).regs regs).trans (SameRegs.latShown _ _ _ _)
    have out : (x.latShown ch.val c k).latOut ch.val k = x.latOut ch.val k := Chip.latOut_of_acts (by rw [shown]; rfl) k
    have pwm : (x.latShown ch.val c k).rd LAT_CFG_OUTSEL ch.val = 1 := (same.rd (by decide) rfl _).trans outsel
    rw [Chip.latEmit_pwm pwm, out]
    have clampDir : (x.lat ch.val).clampDir = 0 := by rw [kept]; exact free
    refine ⟨?_, ?_, ?_, ?_, ?_, same.regs rfl⟩
    · simp [shown, Lat.commanded]
    · simp [shown, Lat.commanded, clampDir, congrArg Lat.integ kept, congrArg Lat.e kept]
    · simp
    · simp [shown, Lat.commanded]
    · exact Chip.latShown_sat _ _ _ _
  · intro ch o on s pwm acq first live safe share some_
    refine ⟨_, exec_latticePwmPeriod ch s, ?_⟩
    rw [Chip.pwmPeriod_first pwm (.inl acq) first live safe share some_]
    exact ⟨by simp, by simp, Chip.pwmSet_out _ _ _⟩
  · intro ch o z s pwm ends past
    refine ⟨_, exec_latticePwmOff ch s, ?_⟩
    rw [Chip.pwmEnd_past pwm ends past]
    exact ⟨by simp, Chip.pwmSet_out _ _ _⟩

end Sys2Proof.Machine
end

section
/-! PROOFS. The states of a lattice: what an entry into one shows and clears, and what a target step leaves (R193, R194). -/

namespace Sys2Proof.Machine

/-! ## What a change of state leaves of the registers -/

/-- The register blocks that the drive of a PWM output reaches. -/
def outParts : List Part := [.rCh, .rDrv, .rBk, .rBst, .rDg, .rDgb, .rCap, .rInt, .rMap]

theorem SameRegs.pwmStop {l : List (Field × Nat)} {x y : Chip} (ch : Nat) (h : SameRegs l outParts x y) :
    SameRegs l outParts x (y.pwmStop ch) :=
  h.moves (Chip.pwmStop_moves .refl (within_refl _)) (by decide)

/-- The stop of a PWM output is none of the lattice's registers. -/
theorem Chip.pwmStop_rd (m : Chip) (ch : Nat) {f : Field} (hp : f.part ∉ outParts) (i : Nat) : (m.pwmStop ch).rd f i = m.rd f i :=
  (SameRegs.pwmStop ch (SameRegs.rfl [] _ m)).rd hp rfl i

/-- The fields that an entry into a state clears. -/
def clearedFields (ch : Nat) : List (Field × Nat) := [(LAT_C, ch), (LAT_STAT_SAT, ch), (LAT_ERR, ch)]

/-- The fields that a change of state writes. -/
def stateFields (ch : Nat) : List (Field × Nat) := (LAT_STAT_STATE, ch) :: clearedFields ch

theorem Chip.latGo_wait (m : Chip) (ch : Nat) :
    m.latGo ch latWait =
      ((((m.wr LAT_STAT_STATE ch latWait).setLat ch { m.lat ch with integ := 0, c := 0, clampDir := 0 }).wr LAT_C ch 0).pwmStop ch).wr
        LAT_STAT_SAT ch 0 := rfl

theorem Chip.latGo_fault (m : Chip) (ch : Nat) :
    m.latGo ch latFault =
      ((((m.wr LAT_STAT_STATE ch latFault).setLat ch { m.lat ch with c := 0, clampDir := 0, faultTb := m.tb }).wr LAT_C ch 0).pwmStop
        ch).wr LAT_STAT_SAT ch 0 := rfl

/-- Beside the state itself an entry only clears. -/
theorem SameRegs.latGo_entered (m : Chip) (ch st : Nat) :
    SameRegs (clearedFields ch) outParts (m.wr LAT_STAT_STATE ch st) (m.latGo ch st) := by
  have cleared (x : Lat) : SameRegs (clearedFields ch) outParts (m.wr LAT_STAT_STATE ch st)
      (((((m.wr LAT_STAT_STATE ch st).setLat ch x).wr LAT_C ch 0).pwmStop ch).wr LAT_STAT_SAT ch 0) :=
    SameRegs.wr (SameRegs.pwmStop ch (SameRegs.wr ((SameRegs.rfl _ _ _).regs (Eq.refl _)) (.inr (by simp [clearedFields]))))
      (.inr (by simp [clearedFields]))
  unfold Chip.latGo
  dsimp only
  split
  · exact cleared _
  · split
    · exact cleared _
    · split
      · split
        · exact (SameRegs.rfl _ _ _).regs (Eq.refl _)
        · exact SameRegs.wr ((SameRegs.rfl _ _ _).regs (Eq.refl _)) (.inr (by simp [clearedFields]))
      · exact (SameRegs.rfl _ _ _).regs (Eq.refl _)

theorem SameRegs.mono {l l' : List (Field × Nat)} {p : List Part} {x y : Chip} (h : SameRegs l p x y) (sub : l ⊆ l') :
    SameRegs l' p x y := fun f i q r => h f i q fun g hg => r g (sub hg)

theorem SameRegs.latGo (m : Chip) (ch st : Nat) : SameRegs (stateFields ch) outParts m (m.latGo ch st) := by
  have entered : SameRegs (stateFields ch) outParts m (m.wr LAT_STAT_STATE ch st) :=
    (SameRegs.rfl _ _ _).wr (.inr (by simp [stateFields]))
  exact entered.trans ((SameRegs.latGo_entered m ch st).mono (List.subset_cons_self _ _))

/-- The state entered is the one shown. -/
theorem Chip.latGo_state (m : Chip) (ch st : Nat) : (m.latGo ch st).rd LAT_STAT_STATE ch = st % 2 ^ LAT_STAT_STATE.w :=
  ((SameRegs.latGo_entered m ch st).rd (by decide) rfl _).trans (Chip.rd_wr_same _ _ _ _)

/-! ## Drops that fall in no window -/

/-- The fields that a drop in no window counts in. -/
def looseFields (ch : Nat) : List (Field × Nat) := [(LAT_FLAGS, ch), (LAT_SKIP_CNT_DBL, ch), (LAT_SEEDS, ch)]

/-- A loop of an operation on named fields. -/
theorem SameRegs.foldl {α : Type} {l : List (Field × Nat)} {p : List Part} {f : Chip → α → Chip}
    (hf : ∀ y a, SameRegs l p y (f y a)) (as : List α) (m : Chip) : SameRegs l p m (as.foldl f m) := by
  induction as generalizing m with
  | nil => exact SameRegs.rfl _ _ _
  | cons a r ih => exact (hf m a).trans (ih _)

theorem SameRegs.count {l : List (Field × Nat)} {p : List Part} {x y : Chip} {f : Field} {i n : Nat} (h : SameRegs l p x y)
    (hm : (f, i) ∈ l) : SameRegs l p x (y.count f i n) := (h.regs (Eq.refl _)).wr (.inr hm)

theorem SameRegs.latLoose (p : List Part) (m : Chip) (ch : Nat) : SameRegs (looseFields ch) p m (m.latLoose ch) :=
  SameRegs.wr (SameRegs.count ((SameRegs.rfl _ _ _).setFlag (.inr (by simp [looseFields]))) (by simp [looseFields]))
    (.inr (by simp [looseFields]))

theorem SameRegs.latLooseAll (p : List Part) (m : Chip) (ch : Nat) : SameRegs (looseFields ch) p m (m.latLooseAll ch) :=
  ((SameRegs.rfl _ _ _).regs (Eq.refl _)).trans (SameRegs.foldl (fun y _ => SameRegs.latLoose p y ch) _ _)

@[simp] theorem Chip.latLooseAll_lat (m : Chip) (ch : Nat) : (m.latLooseAll ch).lat ch = { m.lat ch with loose := [] } :=
  (Chip.foldl_lat (f := fun m _ => m.latLoose ch) (fun _ _ => rfl) _ _).trans (Chip.setLat_lat_same _ _ _)

/-- A flag that stands stays where another is set. -/
theorem bitAt_setBit_of {n b c w : Nat} (h : bitAt n c = true) (hc : c < w) : bitAt (setBit n b % 2 ^ w) c = true := by
  unfold bitAt at h
  simp [bitAt, setBit, Nat.testBit_mod_two_pow, Nat.testBit_or, hc, h]

theorem Chip.latFlag_stands {m : Chip} {ch b c : Nat} (h : bitAt (m.rd LAT_FLAGS ch) c = true) (hc : c < LAT_FLAGS.w) :
    bitAt ((m.latFlag ch b).rd LAT_FLAGS ch) c = true := by
  unfold Chip.latFlag
  rw [Chip.setFlag_rd_same]
  exact bitAt_setBit_of h hc

theorem Chip.latFlag_bit (m : Chip) (ch b : Nat) (hb : b < LAT_FLAGS.w) : bitAt ((m.latFlag ch b).rd LAT_FLAGS ch) b = true := by
  unfold Chip.latFlag
  rw [Chip.setFlag_rd_same]
  exact bitAt_setBit_mod _ _ _ hb

theorem Chip.latLoose_flags (m : Chip) (ch : Nat) : (m.latLoose ch).rd LAT_FLAGS ch = (m.latFlag ch LAT_FLAGS_DOUBLE).rd LAT_FLAGS ch := by
  unfold Chip.latLoose Chip.count
  dsimp only
  rw [Chip.rd_wr_ne _ _ _ _ _ _ (by decide), Chip.rd_wr_ne _ _ _ _ _ _ (by decide)]
  rfl

theorem Chip.latLooseAll_stands {m : Chip} {ch c : Nat} (h : bitAt (m.rd LAT_FLAGS ch) c = true) (hc : c < LAT_FLAGS.w) :
    bitAt ((m.latLooseAll ch).rd LAT_FLAGS ch) c = true := by
  have loop (as : List Nat) (y : Chip) (hy : bitAt (y.rd LAT_FLAGS ch) c = true) :
      bitAt ((as.foldl (fun m _ => m.latLoose ch) y).rd LAT_FLAGS ch) c = true := by
    induction as generalizing y with
    | nil => exact hy
    | cons a r ih =>
      refine ih _ ?_
      rw [Chip.latLoose_flags]
      exact Chip.latFlag_stands hy hc
  exact loop _ _ h

/-! ## Entry into a state (R193) -/

theorem Chip.latTo_moving {st : Nat} (h : st ≠ latFault) (m : Chip) (ch : Nat) : m.latTo ch st = (m.latGo ch st).latNote ch := if_neg h

theorem Chip.latTo_fault (m : Chip) (ch : Nat) : m.latTo ch latFault = ((m.latGo ch latFault).latNote ch).latLooseAll ch := rfl

theorem SameRegs.latTo {st : Nat} (h : st ≠ latFault) (m : Chip) (ch : Nat) : SameRegs (stateFields ch) outParts m (m.latTo ch st) := by
  rw [Chip.latTo_moving h]
  exact (SameRegs.latGo m ch st).regs (Eq.refl _)

theorem Chip.latTo_state (m : Chip) (ch st : Nat) : (m.latTo ch st).rd LAT_STAT_STATE ch = st % 2 ^ LAT_STAT_STATE.w := by
  by_cases h : st = latFault
  · subst h
    rw [Chip.latTo_fault]
    exact ((SameRegs.latLooseAll [] _ ch).rd (by decide) rfl _).trans (Chip.latGo_state m ch latFault)
  · rw [Chip.latTo_moving h]
    exact Chip.latGo_state m ch st

/-- The stop of a PWM output leaves the rest of its lattice. -/
theorem Chip.pwmStop_lat (m : Chip) (ch : Nat) :
    ∃ p t o, (m.pwmStop ch).lat ch = { m.lat ch with periodTb := p, offTb := t, pwmOut := o } := by
  unfold Chip.pwmStop
  split
  · exact ⟨none, none, 0, by simp⟩
  · exact ⟨_, _, _, rfl⟩

/-- I is 0 on each entry into WAIT (R190). -/
theorem Chip.latTo_wait_integ (m : Chip) (ch : Nat) : ((m.latTo ch latWait).lat ch).integ = 0 := by
  rw [Chip.latTo_moving (by decide), Chip.latGo_wait]
  obtain ⟨p, t, o, h⟩ :=
    (((m.wr LAT_STAT_STATE ch latWait).setLat ch { m.lat ch with integ := 0, c := 0, clampDir := 0 }).wr LAT_C ch 0).pwmStop_lat ch
  simp [h]

/-- In FAULT c = 0 (R190); the entry is noted. -/
theorem Chip.latTo_fault_lat (m : Chip) (ch : Nat) :
    ((m.latTo ch latFault).lat ch).c = 0 ∧ ((m.latTo ch latFault).lat ch).stalled = (m.lat ch).stalled ∧
      ((m.latTo ch latFault).lat ch).faultTb = m.tb := by
  rw [Chip.latTo_fault, Chip.latGo_fault]
  obtain ⟨p, t, o, h⟩ :=
    (((m.wr LAT_STAT_STATE ch latFault).setLat ch { m.lat ch with c := 0, clampDir := 0, faultTb := m.tb }).wr LAT_C ch 0).pwmStop_lat ch
  simp [h]

theorem Chip.latTo_fault_C (m : Chip) (ch : Nat) : (m.latTo ch latFault).rd LAT_C ch = 0 := by
  rw [Chip.latTo_fault]
  refine ((SameRegs.latLooseAll [] _ ch).rd (by decide) rfl _).trans ?_
  change (m.latGo ch latFault).rd LAT_C ch = 0
  rw [Chip.latGo_fault, Chip.rd_wr_ne _ _ _ _ _ _ (by decide), Chip.pwmStop_rd _ _ (by decide), Chip.rd_wr_same]
  rfl

theorem Chip.latTo_fault_stands {m : Chip} {ch c : Nat} (h : bitAt (m.rd LAT_FLAGS ch) c = true) (hc : c < LAT_FLAGS.w) :
    bitAt ((m.latTo ch latFault).rd LAT_FLAGS ch) c = true := by
  rw [Chip.latTo_fault]
  refine Chip.latLooseAll_stands ?_ hc
  have kept : (m.latGo ch latFault).rd LAT_FLAGS ch = m.rd LAT_FLAGS ch := (SameRegs.latGo m ch latFault).rd (by decide) rfl _
  change bitAt ((m.latGo ch latFault).rd LAT_FLAGS ch) c = true
  rw [kept, h]

/-- The learned tube delay and the trim are no matter of ACQ. -/
theorem Chip.latTo_acq_learned (m : Chip) (ch : Nat) :
    ((m.latTo ch latAcq).lat ch).tube = (m.lat ch).tube ∧ ((m.latTo ch latAcq).lat ch).trim = (m.lat ch).trim := by
  have going : m.latGo ch latAcq =
      if m.latState ch = latLock then (m.wr LAT_STAT_STATE ch latAcq).setLat ch { m.lat ch with inRow := 0, outRow := 0 }
      else ((m.wr LAT_STAT_STATE ch latAcq).setLat ch
        { m.lat ch with e := 0, inRow := 0, outRow := 0, edgeTb := m.tb, hadEdge := false }).wr LAT_ERR ch 0 := rfl
  rw [Chip.latTo_moving (by decide), going]
  split <;> simp

/-! ## A target step (R194) -/

theorem Chip.latStep_learned (m : Chip) (ch : Nat) (d : Int) :
    ((m.latStep ch d).lat ch).tube = (m.lat ch).tube ∧ ((m.latStep ch d).lat ch).trim = (m.lat ch).trim := by
  unfold Chip.latStep
  dsimp only
  split
  · split
    · exact Chip.latTo_acq_learned _ _
    · exact ⟨rfl, rfl⟩
  · exact ⟨rfl, rfl⟩

/-- A target step sets flags and may enter ACQ. -/
theorem SameRegs.latStep (m : Chip) (ch : Nat) (d : Int) :
    SameRegs ((LAT_FLAGS, ch) :: stateFields ch) outParts m (m.latStep ch d) := by
  have flagged : SameRegs ((LAT_FLAGS, ch) :: stateFields ch) outParts m (m.latFlag ch LAT_FLAGS_TGT_STEP) :=
    (SameRegs.rfl _ _ _).setFlag (.inr (by simp))
  unfold Chip.latStep
  dsimp only
  split
  · split
    · exact (flagged.setFlag (.inr (by simp))).trans ((SameRegs.latTo (by decide) _ ch).mono (List.subset_cons_self _ _))
    · exact flagged
  · exact SameRegs.rfl _ _ _

end Sys2Proof.Machine
end

section
/-! PROOFS. Enabling a lattice, its stall, its way out of FAULT, the clears (R192-R197). -/

namespace Sys2Proof.Machine

/-! ## Enabling and turning off (R192, R193) -/

theorem exec_latticeEnable {who : Writer} {ch : Ch} {w : Word} {s : State} (ok : s.chip.chOk who ch.val = true) :
    exec (.latticeEnable who ch w) s = .next { s with chip := s.chip.latCfg ch.val w.toNat } := by
  change execLatticeEnable who ch w s = _
  simp [execLatticeEnable, ok]

/-- The fields of a word written one after another leave the others. -/
theorem Chip.foldl_wrFrom_rd_ne (l : List Field) (m : Chip) (i w : Nat) (g : Field) (j : Nat) (h : (l.all fun f => g.id != f.id) = true) :
    (l.foldl (fun m f => m.wrFrom f i w) m).rd g j = m.rd g j := by
  induction l generalizing m with
  | nil => rfl
  | cons f r ih =>
    simp only [List.all_cons, Bool.and_eq_true, bne_iff_ne, ne_eq] at h
    exact (ih _ h.2).trans (Chip.wrFrom_rd_ne _ _ _ _ _ _ h.1)

/-- Of the fields of a word, one that no later one overwrites reads what the word spells. -/
theorem Chip.foldl_wrFrom_rd (pre post : List Field) (m : Chip) (i w : Nat) (g : Field) (h : (post.all fun f => g.id != f.id) = true) :
    ((pre ++ g :: post).foldl (fun m f => m.wrFrom f i w) m).rd g i = wordField g w := by
  rw [List.foldl_append, List.foldl_cons, Chip.foldl_wrFrom_rd_ne _ _ _ _ _ _ h]
  exact Chip.wrFrom_rd_same _ _ _ _

/-- LAT_CFG but EN, as a write of w leaves it. -/
def Chip.latWritten (m : Chip) (ch w : Nat) : Chip := latCfgFields.foldl (fun m f => m.wrFrom f ch w) m

/-- The lattice as the enable finds it in OFF: new, with the initial tube delay, and its settings adopted. -/
def Chip.latFresh (m : Chip) (ch : Nat) : Chip :=
  (m.setLat ch { errors := (m.lat ch).errors, tube := fx (m.rd LAT_TUBE_T0 ch) }).latAdopt ch

/-- The enable shown, before WAIT is entered. -/
def Chip.latEnabled (m : Chip) (ch : Nat) : Chip :=
  (((m.latFresh ch).wr LAT_CFG_EN ch 1).wr LAT_TUBE_L ch (m.rd LAT_TUBE_T0 ch)).wr LAT_TRIM ch 0

/-- R192: while EN = 1 a write examines EN alone. -/
theorem Chip.latCfg_eq (m : Chip) (ch w : Nat) :
    m.latCfg ch w =
    if m.rdB LAT_CFG_EN ch then (if bitAt w 0 then m else m.latDisable ch)
    else if !bitAt w 0 then m.latWritten ch w
    else if (m.latWritten ch w).latRefused ch then (m.latWritten ch w).latFlag ch LAT_FLAGS_CFG_ERR
    else (((m.latWritten ch w).latEnabled ch).latTo ch latWait).pwmTaken ch := rfl

theorem Chip.latCfg_accepted {m : Chip} {ch w : Nat} (off : m.rd LAT_CFG_EN ch = 0) (en : bitAt w 0 = true)
    (free : (m.latWritten ch w).latRefused ch = false) :
    m.latCfg ch w = (((m.latWritten ch w).latEnabled ch).latTo ch latWait).pwmTaken ch := by
  simp [Chip.latCfg_eq, Chip.rdB, off, en, free]

theorem Chip.latCfg_refused {m : Chip} {ch w : Nat} (off : m.rd LAT_CFG_EN ch = 0) (en : bitAt w 0 = true)
    (refused : (m.latWritten ch w).latRefused ch = true) :
    m.latCfg ch w = (m.latWritten ch w).latFlag ch LAT_FLAGS_CFG_ERR := by
  simp [Chip.latCfg_eq, Chip.rdB, off, en, refused]

theorem Chip.latCfg_off {m : Chip} {ch w : Nat} (on : m.rd LAT_CFG_EN ch ≠ 0) (en : bitAt w 0 = false) :
    m.latCfg ch w = m.latDisable ch := by
  simp [Chip.latCfg_eq, Chip.rdB, on, en]

/-- Of the lattice's own registers the entry into WAIT at the enable writes the state and the command alone. -/
theorem Chip.latTo_wait_taken_rd (m : Chip) (ch : Nat) {f : Field} (hp : f.part = .rLat)
    (hf : ((stateFields ch).all fun q => q.1.id != f.id) = true) (i : Nat) :
    ((m.latTo ch latWait).pwmTaken ch).rd f i = m.rd f i := by
  refine ((Chip.pwmTaken_moves .refl (within_refl _)).rd f i ?_).trans ((SameRegs.latTo (by decide) m ch).rd ?_ hf i)
  · rw [hp]; decide
  · rw [hp]; decide

/-- A lattice in OFF shows no command (R191). -/
theorem Chip.latDisable_rd (m : Chip) (ch : Nat) :
    (m.latDisable ch).rd LAT_CFG_EN ch = 0 ∧ (m.latDisable ch).rd LAT_STAT_STATE ch = 0 ∧ (m.latDisable ch).rd LAT_C ch = 0 ∧
      (m.latDisable ch).rd LAT_STAT_SAT ch = 0 := by
  unfold Chip.latDisable
  dsimp only
  refine ⟨?_, ?_, ?_, ?_⟩
  · iterate 3 rw [Chip.rd_wr_ne _ _ _ _ _ _ (by decide)]
    exact Chip.rd_wr_same _ _ _ _
  · iterate 2 rw [Chip.rd_wr_ne _ _ _ _ _ _ (by decide)]
    exact Chip.rd_wr_same _ _ _ _
  · rw [Chip.rd_wr_ne _ _ _ _ _ _ (by decide)]
    exact Chip.rd_wr_same _ _ _ _
  · exact Chip.rd_wr_same _ _ _ _

/-! ## A stall and the way out of FAULT (R193) -/

theorem exec_latticeStall (ch : Ch) (s : State) : exec (.latticeStall ch) s = .next { s with chip := s.chip.latStallEnd ch.val } := rfl

theorem exec_latticeFaultExit (ch : Ch) (s : State) :
    exec (.latticeFaultExit ch) s = .next { s with chip := s.chip.latFaultEnd ch.val } := rfl

theorem Chip.latStallEnd_stalls {m : Chip} {ch : Nat} (st : m.latState ch = 2 ∨ m.latState ch = 3) (c : 0 < (m.lat ch).c)
    (late : 800000000 * fxOne * (m.rd LAT_CFG_CELLS ch : Int) ≤
      ((m.tb : Int) - (m.lat ch).edgeTb) * (m.lat ch).c * (m.whlTc (m.rd LAT_CFG_WHL ch) : Int)) :
    m.latStallEnd ch = m.latFail ch true := if_pos ⟨st, c, late⟩

/-- The flags of an entry into FAULT, with how it came. -/
def Chip.latFailing (m : Chip) (ch : Nat) (stall : Bool) : Chip :=
  let m := (m.latFlag ch LAT_FLAGS_WHL_LOST).latFlag ch LAT_FLAGS_FAULT_IN
  m.setLat ch { m.lat ch with stalled := stall }

theorem Chip.latFail_eq (m : Chip) (ch : Nat) (stall : Bool) : m.latFail ch stall = (m.latFailing ch stall).latTo ch latFault := rfl

/-- A stall counts as a loss of the wheel (R193). -/
theorem Chip.latFailing_whlLost (m : Chip) (ch : Nat) (stall : Bool) :
    bitAt ((m.latFailing ch stall).rd LAT_FLAGS ch) LAT_FLAGS_WHL_LOST = true :=
  Chip.latFlag_stands (Chip.latFlag_bit _ _ _ (by decide)) (by decide)

theorem Chip.latFailing_faultIn (m : Chip) (ch : Nat) (stall : Bool) :
    bitAt ((m.latFailing ch stall).rd LAT_FLAGS ch) LAT_FLAGS_FAULT_IN = true := Chip.latFlag_bit _ _ _ (by decide)

theorem Chip.latFailing_stalled (m : Chip) (ch : Nat) (stall : Bool) : ((m.latFailing ch stall).lat ch).stalled = stall := by
  simp [Chip.latFailing]

theorem Chip.latFaultEnd_afterStall {m : Chip} {ch : Nat} (st : m.latState ch = 4) (stalled : (m.lat ch).stalled = true)
    (second : (m.lat ch).faultTb + 1000 * msTb ≤ m.tb) :
    m.latFaultEnd ch = (m.latFlag ch LAT_FLAGS_FAULT_OUT).latTo ch latWait := by
  have fault : m.latState ch = latFault := st
  simp [Chip.latFaultEnd, fault, stalled, second]

/-! ## The clears (R194, R196) -/

theorem exec_tubeClr {who : Writer} {ch : Ch} {s : State} (ok : s.chip.chOk who ch.val = true) :
    exec (.tubeClr who ch) s = .next { s with chip := s.chip.tubeClear ch.val } := by
  change execTubeClr who ch s = _
  simp [execTubeClr, ok]

theorem exec_trimClr {who : Writer} {ch : Ch} {s : State} (ok : s.chip.chOk who ch.val = true) :
    exec (.trimClr who ch) s = .next { s with chip := s.chip.trimClear ch.val } := by
  change execTrimClr who ch s = _
  simp [execTrimClr, ok]

/-- The tube delay returned to T0, before the target step that this may be. -/
def Chip.tubeInitial (m : Chip) (ch : Nat) : Chip :=
  (m.setLat ch { m.lat ch with tube := fx (m.rd LAT_TUBE_T0 ch) }).wr LAT_TUBE_L ch (m.rd LAT_TUBE_T0 ch)

theorem Chip.tubeClear_cases (m : Chip) (ch : Nat) :
    m.tubeClear ch = m.tubeInitial ch ∨ ∃ d, m.tubeClear ch = (m.tubeInitial ch).latStep ch d := by
  by_cases off : (m.tubeInitial ch).latState ch = latOff
  · exact .inl (if_pos off)
  · exact .inr ⟨_, if_neg off⟩

theorem Chip.tubeClear_tube (m : Chip) (ch : Nat) : ((m.tubeClear ch).lat ch).tube = fx (m.rd LAT_TUBE_T0 ch) := by
  have initial : ((m.tubeInitial ch).lat ch).tube = fx (m.rd LAT_TUBE_T0 ch) := by simp [Chip.tubeInitial]
  rcases m.tubeClear_cases ch with e | ⟨d, e⟩
  · rw [e, initial]
  · rw [e, (Chip.latStep_learned _ ch d).1, initial]

theorem Chip.tubeClear_shown (m : Chip) (ch : Nat) :
    (m.tubeClear ch).rd LAT_TUBE_L ch = m.rd LAT_TUBE_T0 ch % 2 ^ LAT_TUBE_L.w := by
  have initial : (m.tubeInitial ch).rd LAT_TUBE_L ch = m.rd LAT_TUBE_T0 ch % 2 ^ LAT_TUBE_L.w := Chip.rd_wr_same _ _ _ _
  rcases m.tubeClear_cases ch with e | ⟨d, e⟩
  · rw [e, initial]
  · rw [e, (SameRegs.latStep _ ch d).rd (by decide) rfl, initial]

/-- The trim cleared, before the target step that this may be. -/
def Chip.trimZero (m : Chip) (ch : Nat) : Chip := (m.setLat ch { m.lat ch with trim := 0 }).wr LAT_TRIM ch 0

theorem Chip.trimZero_state (m : Chip) (ch : Nat) : (m.trimZero ch).latState ch = m.latState ch := Chip.rd_wr_ne _ _ _ _ _ _ (by decide)

theorem Chip.trimClear_off {m : Chip} {ch : Nat} (off : m.latState ch = 0) : m.trimClear ch = m.trimZero ch :=
  if_pos ((Chip.trimZero_state m ch).trans off)

theorem Chip.trimClear_on {m : Chip} {ch : Nat} (on : m.latState ch ≠ 0) :
    m.trimClear ch = (m.trimZero ch).latStep ch (-(m.lat ch).trim) :=
  if_neg fun off => on ((Chip.trimZero_state m ch).symm.trans off)

theorem Chip.trimZero_trim (m : Chip) (ch : Nat) : ((m.trimZero ch).lat ch).trim = 0 := by simp [Chip.trimZero]

theorem Chip.trimZero_shown (m : Chip) (ch : Nat) : (m.trimZero ch).rd LAT_TRIM ch = 0 := Chip.rd_wr_same _ _ _ _

theorem Chip.trimClear_trim (m : Chip) (ch : Nat) : ((m.trimClear ch).lat ch).trim = 0 ∧ (m.trimClear ch).rd LAT_TRIM ch = 0 := by
  by_cases off : m.latState ch = 0
  · rw [Chip.trimClear_off off]
    exact ⟨Chip.trimZero_trim _ _, Chip.trimZero_shown _ _⟩
  · rw [Chip.trimClear_on off, (Chip.latStep_learned _ ch _).2, (SameRegs.latStep _ ch _).rd (by decide) rfl]
    exact ⟨Chip.trimZero_trim _ _, Chip.trimZero_shown _ _⟩

/-- Settles O25: each command is an entry into a state, or a target step, after the fields that it sets. -/
theorem latticeStates : Obligations.LatticeStates := by
  unfold Obligations.LatticeStates
  refine ⟨?_, ?_, ?_, ?_, ?_, ?_, ?_, ?_⟩
  · intro who ch w s ok off en free
    refine ⟨_, exec_latticeEnable ok, ?_⟩
    rw [Chip.latCfg_accepted off en free]
    generalize written : s.chip.latWritten ch.val w.toNat = m
    have t0 : m.rd LAT_TUBE_T0 ch.val = s.chip.rd LAT_TUBE_T0 ch.val := by
      rw [← written]
      exact Chip.foldl_wrFrom_rd_ne _ _ _ _ _ _ (by decide)
    have cells : m.rd LAT_CFG_CELLS ch.val = wordField LAT_CFG_CELLS w.toNat := by
      rw [← written]
      exact Chip.foldl_wrFrom_rd (latCfgFields.take 7) [LAT_CFG_WHL, LAT_CFG_SDS] _ _ _ _ (by decide)
    refine ⟨?_, ?_, ?_, ?_, ?_⟩
    · rw [Chip.latTo_wait_taken_rd _ _ (by decide) rfl]
      unfold Chip.latEnabled
      iterate 2 rw [Chip.rd_wr_ne _ _ _ _ _ _ (by decide)]
      exact Chip.rd_wr_same _ _ _ _
    · rw [(Chip.pwmTaken_moves .refl (within_refl _)).rd _ _ (by decide)]
      exact Chip.latTo_state _ _ _
    · rw [Chip.latTo_wait_taken_rd _ _ (by decide) rfl, ← t0]
      unfold Chip.latEnabled
      rw [Chip.rd_wr_ne _ _ _ _ _ _ (by decide)]
      exact Chip.rd_wr_same _ _ _ _
    · rw [Chip.latTo_wait_taken_rd _ _ (by decide) rfl]
      exact Chip.rd_wr_same _ _ _ _
    · rw [Chip.latTo_wait_taken_rd _ _ (by decide) rfl, ← cells]
      unfold Chip.latEnabled
      iterate 3 rw [Chip.rd_wr_ne _ _ _ _ _ _ (by decide)]
      rfl
  · intro who ch w s ok off en refused
    refine ⟨_, exec_latticeEnable ok, ?_⟩
    rw [Chip.latCfg_refused off en refused]
    refine ⟨?_, Chip.latFlag_bit _ _ _ (by decide), ?_⟩
    · exact (Chip.setFlag_rd_ne _ _ _ _ _ _ (by decide)).trans ((Chip.foldl_wrFrom_rd_ne _ _ _ _ _ _ (by decide)).trans off)
    · exact (Chip.setFlag_rd_ne _ _ _ _ _ _ (by decide)).trans (Chip.foldl_wrFrom_rd_ne _ _ _ _ _ _ (by decide))
  · intro who ch w s ok on en
    refine ⟨_, exec_latticeEnable ok, ?_⟩
    rw [Chip.latCfg_off on en]
    exact Chip.latDisable_rd _ _
  · intro ch s st c late
    refine ⟨_, exec_latticeStall ch s, ?_⟩
    rw [Chip.latStallEnd_stalls st c late, Chip.latFail_eq]
    dsimp only
    obtain ⟨stopped, stalled, at_⟩ := (s.chip.latFailing ch.val true).latTo_fault_lat ch.val
    refine ⟨Chip.latTo_state _ _ _, stopped, stalled.trans (Chip.latFailing_stalled _ _ _), at_, ?_, ?_, Chip.latTo_fault_C _ _⟩
    · exact Chip.latTo_fault_stands (Chip.latFailing_whlLost _ _ _) (by decide)
    · exact Chip.latTo_fault_stands (Chip.latFailing_faultIn _ _ _) (by decide)
  · intro ch s st stalled second
    refine ⟨_, exec_latticeFaultExit ch s, ?_⟩
    rw [Chip.latFaultEnd_afterStall st stalled second]
    refine ⟨Chip.latTo_state _ _ _, ?_, Chip.latTo_wait_integ _ _⟩
    rw [(SameRegs.latTo (by decide) _ _).rd (by decide) rfl]
    exact Chip.latFlag_bit _ _ _ (by decide)
  · intro who ch s ok
    exact ⟨_, exec_tubeClr ok, Chip.tubeClear_tube _ _, Chip.tubeClear_shown _ _⟩
  · intro who ch s ok off
    refine ⟨_, exec_trimClr ok, ?_⟩
    rw [Chip.trimClear_off off]
    refine ⟨Chip.trimZero_trim _ _, Chip.trimZero_shown _ _, ?_⟩
    exact SameRegs.wr ((SameRegs.rfl _ _ _).regs (Eq.refl _)) (.inr (by simp))
  · intro who ch s ok
    exact ⟨_, exec_trimClr ok, Chip.trimClear_trim _ _⟩

end Sys2Proof.Machine
end

section
/-! PROOFS. A train pulse whose channel's gate closes in its own TB (R175, R277). -/

namespace Sys2Proof.Machine

theorem exec_trainPulseFire (ch : Ch) (s : State) : exec (.trainPulseFire ch) s = .next { s with chip := s.chip.trainFire ch.val } := rfl

/-- A train on channel 3 whose first pulse point is still to fire. -/
def waitingTrain : Train :=
  { idx := 5, owner := 1, order := 4, tgt := 0, ph := 0, pitch := 300, width := 10, noadv := true, len := 0 }

/-- Its pulse point as the compare holds it, with firing TB 40. -/
def waitingPoint : Head := ⟨16384, 40, false, false, 2, 4, 0, 0, 0, 0, 0⟩

/-- A gate action that closes, with the same firing TB. -/
def closingGate : Gate := { at_ := 0, opens := false, fireTb := some 40 }

/-- Channel 3 at TB 50, its gate still open and its output off: the pulse point and the closing gate action are both due. -/
def gateCloses40 : State :=
  (st [(MAP_CH_STAT_GATE, 3, 1), (BK_CTL_EN, 0, 1), (AX_STAT_STATE, 3, 1)]).on fun m =>
    ({ m with tb := 50 }).setChan 3 { heads := [waitingPoint], train := some waitingTrain, gates := [closingGate] }

theorem gateCloses40_due : gateCloses40.chip.dueHead 3 = some waitingPoint := by decide

/-- The pulse turns the owner state on, and starts no actuation that the gate action of its TB would stop. -/
theorem gateCloses40_out : (gateCloses40.chip.trainFire 3).rd CH_STAT_OUT 3 = 0 := by decide

/-- Refutes O23: its first clause turns the output on with every pulse fired while the gate is open, but a gate action of the same TB may
close it, and no actuation starts and stops within one TB (R277). In `gateCloses40` the output stays off. -/
theorem not_trains : ¬ Obligations.Trains := by
  unfold Obligations.Trains
  rintro ⟨pulseTurnsOn, -⟩
  obtain ⟨t, ht, -, out, -⟩ := pulseTurnsOn 3 waitingPoint waitingTrain gateCloses40 gateCloses40_due rfl rfl rfl rfl rfl (by decide)
    (by decide) (by decide)
  rw [exec_trainPulseFire] at ht
  cases ht
  exact absurd (gateCloses40_out.symm.trans out) (by decide)

end Sys2Proof.Machine
end

section
/-! PROOFS. The landing error of a seed while a write of LAT_FALL has not taken effect (R192, R197). -/

namespace Sys2Proof.Machine

theorem exec_landingEvaluation (ch : Ch) (s : State) :
    exec (.landingEvaluation ch) s = .next { s with chip := s.chip.landing ch.val } := rfl

/-- Until the seed has fallen for as long as the adopted LAT_FALL says, no landing error is formed (R192, R197). -/
theorem Chip.landing_early {m : Chip} {ch td : Nat} {r : Release} (single : (m.lat ch).releases = [r]) (first : r.firstDrop = some td)
    (falling : (m.lat ch).tick ≤ td + (m.lat ch).acts.fall * usTb) : m.landing ch = m := by
  simp [Chip.landing, single, first, pickRelease, Nat.not_lt.2 falling]

/-- A release whose single drop came at TB 7. -/
def seedFalling : Release := { tr := 0, from_ := 5, upto := 9, drops := 1, firstDrop := some 7 }

/-- A lattice in LOCK at the tick of TB 200, after a write of LAT_FALL from 1 to 0: until the next 1 ms update 1 us acts. -/
def fallWritten : State :=
  (st [(LAT_CFG_EN, 3, 1), (LAT_STAT_STATE, 3, 3), (LAT_FALL, 3, 0)]).on fun m =>
    ({ m with tb := 200 }).setLat 3 { releases := [seedFalling], tick := 200, acts := { fall := 1 } }

theorem fallWritten_releases : (fallWritten.chip.lat 3).releases = [seedFalling] := rfl

theorem fallWritten_landing : ((fallWritten.chip.landing 3).lat 3).releases = [seedFalling] := by
  rw [Chip.landing_early fallWritten_releases rfl (by decide), fallWritten_releases]

/-- Refutes O26: its second clause takes the time of fall from LAT_FALL as it stands, but a write of LAT_FALL while the lattice is on takes
effect at the next 1 ms update (R192). In `fallWritten` the adopted time has not run out, and no landing error is formed. -/
theorem not_latticeDrops : ¬ Obligations.LatticeDrops := by
  unfold Obligations.LatticeDrops
  rintro ⟨-, landsByRegister⟩
  obtain ⟨t, ht, landed, -⟩ := landsByRegister 3 seedFalling 7 fallWritten fallWritten_releases rfl rfl rfl rfl (by decide)
  rw [exec_landingEvaluation] at ht
  cases ht
  exact absurd (fallWritten_landing.symm.trans landed) (by decide)

end Sys2Proof.Machine
end

section
/-! PROOFS. The flags and conditions of a channel's diagnosis, the entry into SAFE and the exit from it (R240-R245). -/

namespace Sys2Proof.Machine

/-! ## The drive of a channel -/

@[simp] theorem Chip.setDrv_drv (m : Chip) (ch : Nat) (d : Drv) : (m.setDrv ch d).drv ch = d :=
  congrArg Chan.drv (tabGet_put_same _ _ _ _)

@[simp] theorem Chip.wr_drv (m : Chip) (f : Field) (i v c : Nat) : (m.wr f i v).drv c = m.drv c := rfl

@[simp] theorem Chip.setCond_drv (m : Chip) (ch b c : Nat) (v : Bool) : (m.setCond ch b v).drv c = m.drv c := rfl

@[simp] theorem Chip.dgFlag_drv (m : Chip) (ch b c : Nat) : (m.dgFlag ch b).drv c = m.drv c := by
  unfold Chip.drv Chip.chan
  rw [(Chip.dgFlag_moves .refl (within_refl _)).kept.chans (by decide)]

theorem SameRegs.setDrv {l : List (Field × Nat)} {p : List Part} {x y : Chip} {ch : Nat} {d : Drv} (h : SameRegs l p x y) :
    SameRegs l p x (y.setDrv ch d) := h.regs (Eq.refl _)

theorem SameRegs.setChan {l : List (Field × Nat)} {p : List Part} {x y : Chip} {ch : Nat} {k : Chan} (h : SameRegs l p x y) :
    SameRegs l p x (y.setChan ch k) := h.regs (Eq.refl _)

/-! ## Flags (R257) -/

/-- What a flag of a channel's diagnosis writes outside the interrupt block. -/
def flagFields (ch : Nat) : List (Field × Nat) := [(DG_FLAGS, ch), (DGB_FLAGS, bankOf ch)]

theorem SameRegs.dgFlag {l : List (Field × Nat)} {p : List Part} {x y : Chip} {ch b : Nat} (h : SameRegs l p x y)
    (hi : Part.rInt ∈ p) (hl : flagFields ch ⊆ l) : SameRegs l p x (y.dgFlag ch b) := by
  have own : SameRegs l p x (y.setFlag DG_FLAGS ch b) := h.setFlag (.inr (hl (by simp [flagFields])))
  unfold Chip.dgFlag
  dsimp only
  split
  · exact own.raise hi (.inr (hl (by simp [flagFields])))
  · exact own

/-- A register that is no flag is as before a flag. -/
theorem Chip.dgFlag_rd (m : Chip) (ch b : Nat) {f : Field} (hp : f.part ∉ [Part.rInt])
    (hf : ((flagFields ch).all fun q => q.1.id != f.id) = true) (i : Nat) : (m.dgFlag ch b).rd f i = m.rd f i :=
  (SameRegs.dgFlag (SameRegs.rfl _ _ m) (by simp) (List.Subset.refl _)).rd hp hf i

theorem Chip.dgFlag_bit (m : Chip) (ch b : Nat) (h : b < DG_FLAGS.w) : bitAt ((m.dgFlag ch b).rd DG_FLAGS ch) b = true := by
  have own : bitAt ((m.setFlag DG_FLAGS ch b).rd DG_FLAGS ch) b = true := by
    rw [Chip.setFlag_rd_same]
    exact bitAt_setBit_mod _ _ _ h
  unfold Chip.dgFlag
  dsimp only
  split
  · exact (congrArg (bitAt · b) (Chip.raise_rd_ne _ _ _ _ _ _ _ _ (by decide) (by decide))).trans own
  · exact own

/-! ## Conditions (R235, R240) -/

theorem Chip.cond_congr {x y : Chip} {ch : Nat} (h : y.rd DG_STAT_COND ch = x.rd DG_STAT_COND ch) (b : Nat) : y.cond ch b = x.cond ch b :=
  congrArg (bitAt · b) h

theorem Chip.cond_none {m : Chip} {ch : Nat} (h : m.rd DG_STAT_COND ch = 0) (b : Nat) : m.cond ch b = false := by
  simp [Chip.cond, bitAt, h]

theorem Chip.cond_setCond (m : Chip) (ch b : Nat) (v : Bool) (h : b < DG_STAT_COND.w) : (m.setCond ch b v).cond ch b = v := by
  unfold Chip.cond Chip.setCond putBit
  rw [Chip.rd_wr_same]
  cases v with
  | true => exact bitAt_setBit_mod _ _ _ h
  | false =>
    have cleared := bitAt_clrBit (m.rd DG_STAT_COND ch) b
    unfold bitAt at cleared ⊢
    simp [Nat.testBit_mod_two_pow, cleared]

theorem SameRegs.setCond {l : List (Field × Nat)} {p : List Part} {x y : Chip} {ch b : Nat} {v : Bool} (h : SameRegs l p x y)
    (hm : (DG_STAT_COND, ch) ∈ l) : SameRegs l p x (y.setCond ch b v) := h.wr (.inr hm)

theorem Chip.ite_cases (c : Prop) [Decidable c] (x y : Chip) : (if c then x else y) = x ∨ (if c then x else y) = y := by
  split
  · exact .inl rfl
  · exact .inr rfl

/-- A detection with its flag. -/
def Chip.detectFlag (m : Chip) (ch b : Nat) : Chip :=
  ((m.setCond ch b true).setDrv ch { m.drv ch with det := some (m.tb, condRank b) }).dgFlag ch b

/-- A detection records its condition, and flags it but where a higher one was flagged in the cycle (R240). -/
theorem Chip.detect_cases (m : Chip) (ch b : Nat) : m.detect ch b = m.setCond ch b true ∨ m.detect ch b = m.detectFlag ch b :=
  Chip.ite_cases _ _ _

/-- With no detection before it a condition is flagged. -/
theorem Chip.detect_first {m : Chip} {ch : Nat} (h : (m.drv ch).det = none) (b : Nat) : m.detect ch b = m.detectFlag ch b := by
  have none : ((m.setCond ch b true).drv ch).det = none := h
  simp only [Chip.detect, none]
  rfl

theorem Chip.detect_flag {m : Chip} {ch b : Nat} (h : (m.drv ch).det = none) (hb : b < DG_FLAGS.w) :
    bitAt ((m.detect ch b).rd DG_FLAGS ch) b = true := by
  rw [Chip.detect_first h]
  exact Chip.dgFlag_bit _ _ _ hb

/-- What a detection writes outside the interrupt block. -/
def condFields (ch : Nat) : List (Field × Nat) := (DG_STAT_COND, ch) :: flagFields ch

theorem SameRegs.detect {l : List (Field × Nat)} {p : List Part} {x y : Chip} {ch b : Nat} (h : SameRegs l p x y)
    (hi : Part.rInt ∈ p) (hl : condFields ch ⊆ l) : SameRegs l p x (y.detect ch b) := by
  have recorded : SameRegs l p x (y.setCond ch b true) := h.setCond (hl (by simp [condFields]))
  rcases y.detect_cases ch b with e | e
  · rw [e]
    exact recorded
  · rw [e]
    exact recorded.setDrv.dgFlag hi fun q hq => hl (List.mem_cons_of_mem _ hq)

theorem Chip.detect_rd (m : Chip) (ch b : Nat) {f : Field} (hp : f.part ∉ [Part.rInt])
    (hf : ((condFields ch).all fun q => q.1.id != f.id) = true) (i : Nat) : (m.detect ch b).rd f i = m.rd f i :=
  (SameRegs.detect (SameRegs.rfl _ _ m) (by simp) (List.Subset.refl _)).rd hp hf i

theorem Chip.detect_cond (m : Chip) (ch b : Nat) (h : b < DG_STAT_COND.w) : (m.detect ch b).cond ch b = true := by
  have recorded : (m.setCond ch b true).cond ch b = true := Chip.cond_setCond _ _ _ _ h
  rcases m.detect_cases ch b with e | e
  · rw [e, recorded]
  · rw [e, ← recorded]
    exact Chip.cond_congr (Chip.dgFlag_rd _ _ _ (by decide) rfl _) b

/-- A detection keeps what the drive holds, but the note of the detection itself. -/
theorem Chip.detect_drv (m : Chip) (ch b : Nat) : ∃ z, (m.detect ch b).drv ch = { m.drv ch with det := z } := by
  rcases m.detect_cases ch b with e | e
  · exact ⟨(m.drv ch).det, by rw [e]; rfl⟩
  · exact ⟨some (m.tb, condRank b), by rw [e]; simp [Chip.detectFlag]⟩

/-! ## The turn-off of a channel (R210, R247) -/

/-- What a turn-off writes beside the drive, its bank and the boost controller: the search for a notch ends, and a stroke may begin. -/
def cutFields (ch : Nat) : List (Field × Nat) := (DG_CNT_NO_NOTCH, ch) :: (MAP_CH_STAT_STROKE, ch) :: flagFields ch

/-- The register blocks that a turn-off and the end of a train move. -/
def cutParts : List Part := [.rDrv, .rBk, .rBst, .rTr, .rInt]

theorem SameRegs.strokeBegin {l : List (Field × Nat)} {p : List Part} {x y : Chip} {ch t : Nat} (h : SameRegs l p x y)
    (hm : (MAP_CH_STAT_STROKE, ch) ∈ l) : SameRegs l p x (y.strokeBegin ch t) := by
  unfold Chip.strokeBegin
  dsimp only
  split
  · exact h
  · split
    · split
      · exact h
      · exact h.setChan.wr (.inr hm)
    · exact h.setChan.wr (.inr hm)

theorem SameRegs.noNotch (m : Chip) (ch : Nat) : SameRegs (cutFields ch) cutParts m (m.noNotch ch) := by
  have ended (d : Drv) : SameRegs (cutFields ch) cutParts m (((m.setDrv ch d).count DG_CNT_NO_NOTCH ch).dgFlag ch DG_FLAGS_NO_NOTCH) :=
    SameRegs.dgFlag (SameRegs.count (SameRegs.rfl _ _ m).setDrv (by simp [cutFields])) (by simp [cutParts])
      fun q hq => by simp [cutFields, hq]
  unfold Chip.noNotch
  dsimp only
  split
  · split
    · exact ended _
    · exact (ended _).strokeBegin (by simp [cutFields])
  · exact SameRegs.rfl _ _ _

theorem SameRegs.setPhase {l : List (Field × Nat)} {x y : Chip} {ch ph : Nat} (h : SameRegs l cutParts x y) :
    SameRegs l cutParts x (y.setPhase ch ph) := h.moves (Chip.setPhase_moves .refl (within_refl _)) (by decide)

theorem SameRegs.setSw {l : List (Field × Nat)} {x y : Chip} {ch : Nat} {ls fw : Bool} (h : SameRegs l cutParts x y) :
    SameRegs l cutParts x (y.setSw ch ls fw) := h.moves (Chip.setSw_moves .refl (within_refl _)) (by decide)

theorem SameRegs.strokeOff {l : List (Field × Nat)} {p : List Part} {x y : Chip} {ch : Nat} (h : SameRegs l p x y) :
    SameRegs l p x (y.strokeOff ch) := h.moves (Chip.strokeOff_moves .refl (within_refl _)) (by simp [regParts])

/-- A turn-off, whatever decay is picked. -/
theorem SameRegs.drvOffBy (m : Chip) (ch : Nat) {pick : Chip → Bool × Chip}
    (picks : ∀ y, SameRegs (cutFields ch) cutParts m y → SameRegs (cutFields ch) cutParts m (pick y).2) :
    SameRegs (cutFields ch) cutParts m (m.drvOffBy ch pick) := by
  have searched : SameRegs (cutFields ch) cutParts m (m.noNotch ch) := SameRegs.noNotch m ch
  unfold Chip.drvOffBy
  extract_lets +onlyGivenNames ph waited drive ended cut boosted
  have waits : SameRegs (cutFields ch) cutParts m ended := by
    have done : SameRegs (cutFields ch) cutParts m waited := searched.moves (Chip.waitDone_moves .refl (within_refl _)) (by decide)
    unfold ended
    split
    · exact done.setDrv.setSw.setPhase
    · exact done.setPhase
  have cuts : SameRegs (cutFields ch) cutParts m (pick boosted).2 := by
    refine picks _ ?_
    unfold boosted
    split
    · exact (searched.strokeOff.moves (Chip.boostFigures_moves .refl (within_refl _)) (by decide)).wr (.inl (by decide))
    · exact searched.strokeOff
  clear_value ended boosted
  split
  · exact SameRegs.rfl _ _ _
  · split
    · exact waits.strokeOff
    · split
      next fast picked e =>
      rw [e] at cuts
      split
      · exact cuts.setDrv.setPhase.setSw.moves (Chip.boostPass_moves .refl (within_refl _)) (by decide)
      · exact cuts.setDrv.setPhase.setSw

/-! ## The entry into SAFE (R241, R243, R244) -/

/-- The channel is commanded off, and its pulses in flight end. -/
def Chip.cmdOff (m : Chip) (ch : Nat) : Chip :=
  let m := ((m.wr MAP_CH_STAT_OWN_ON ch 0).wr CH_STAT_OUT ch 0).cutPulses ch 6
  m.setChan ch { m.chan ch with trainOff := none }

/-- The decay of a channel that goes to SAFE: forced by an on-state SHORT_BAT, else fast as R208 lets it (R241). -/
def Chip.safePick (ch : Nat) (forced : Bool) (m : Chip) : Bool × Chip := if forced then m.decayForced ch else m.decayAs ch true

/-- A decay that goes on becomes the one picked. -/
def Chip.safeDecay (m : Chip) (ch : Nat) (forced : Bool) : Chip :=
  if m.phase ch = phDecay ∧ !(m.drv ch).fast then
    let (fast, m) := m.safePick ch forced
    ((m.setDrv ch { m.drv ch with fast := fast }).setSw ch false (!fast)).bankStat (bankOf ch)
  else m

/-- The drive of a channel that is commanded off for SAFE. -/
def Chip.safeDrive (m : Chip) (ch : Nat) (forced : Bool) : Chip :=
  let m := (if m.phase ch = phDecay then m else m.drvOffBy ch (Chip.safePick ch forced)).safeDecay ch forced
  if forced then m.setDrv ch { m.drv ch with forced := true } else m

theorem Chip.safeOff_eq (m : Chip) (ch : Nat) (forced : Bool) : m.safeOff ch forced = (m.cmdOff ch).safeDrive ch forced := rfl

/-- An entry into SAFE before its state is shown. -/
def Chip.safeEnds (m : Chip) (ch : Nat) (forced : Bool) : Chip := ((m.safeOff ch forced).trainStop ch false).standEndAll ch

theorem Chip.enterSafe_eq {m : Chip} {ch : Nat} (h : m.rd DG_STAT_STATE ch ≠ 2) (forced : Bool) :
    m.enterSafe ch forced = ((m.safeEnds ch forced).wr DG_STAT_STATE ch 2).dgFlag ch DG_FLAGS_SAFE_IN := by
  have out : m.dgSafe ch = false := by simp [Chip.dgSafe, h]
  unfold Chip.enterSafe
  rw [out]
  rfl

theorem SameRegs.safePick {ch : Nat} {x y : Chip} (forced : Bool) (h : SameRegs (cutFields ch) cutParts x y) :
    SameRegs (cutFields ch) cutParts x (y.safePick ch forced).2 := by
  cases forced with
  | true => exact h.moves (Chip.decayForced_moves .refl (within_refl _)) (by decide)
  | false => exact h.moves (Chip.decayAs_moves .refl (within_refl _)) (by decide)

theorem SameRegs.safeDecay {ch : Nat} {x y : Chip} (forced : Bool) (h : SameRegs (cutFields ch) cutParts x y) :
    SameRegs (cutFields ch) cutParts x (y.safeDecay ch forced) := by
  unfold Chip.safeDecay
  split
  · exact (h.safePick forced).setDrv.setSw.moves (Chip.bankStat_moves .refl (within_refl _)) (by decide)
  · exact h

theorem SameRegs.safeDrive (m : Chip) (ch : Nat) (forced : Bool) : SameRegs (cutFields ch) cutParts m (m.safeDrive ch forced) := by
  have off : SameRegs (cutFields ch) cutParts m (if m.phase ch = phDecay then m else m.drvOffBy ch (Chip.safePick ch forced)) := by
    split
    · exact SameRegs.rfl _ _ _
    · exact SameRegs.drvOffBy m ch fun y h => h.safePick forced
  unfold Chip.safeDrive
  dsimp only
  split
  · exact (off.safeDecay forced).setDrv
  · exact off.safeDecay forced

theorem SameRegs.freeSlot {l : List (Field × Nat)} {p : List Part} {x y : Chip} {i : Nat} (h : SameRegs l p x y) :
    SameRegs l p x (y.freeSlot i) := h.moves (Chip.freeSlot_moves .refl (within_refl _)) (by simp [regParts])

/-- A train that ends without a cut leaves the output to what runs. -/
theorem SameRegs.trainStop {l : List (Field × Nat)} {x y : Chip} {ch : Nat} (h : SameRegs l cutParts x y) :
    SameRegs l cutParts x (y.trainStop ch false) := by
  have ended : SameRegs l cutParts x (y.strokeTrainEnd ch) := h.moves (Chip.strokeTrainEnd_moves .refl (within_refl _)) (by decide)
  unfold Chip.trainStop
  simp only [Bool.false_and, Bool.false_eq_true, if_false]
  split
  · exact h
  · refine SameRegs.freeSlot (SameRegs.setFlag ?_ (.inl (by decide)))
    exact ((ended.setChan.wr (.inl (by decide))).wr (.inl (by decide))).wr (.inl (by decide))

/-- After the command the entry into SAFE moves the drive, the train and what a turn-off writes. -/
theorem SameRegs.safeEnds (m : Chip) (ch : Nat) (forced : Bool) :
    SameRegs (cutFields ch) cutParts (m.cmdOff ch) (m.safeEnds ch forced) := by
  unfold Chip.safeEnds
  rw [Chip.safeOff_eq]
  exact (SameRegs.safeDrive _ ch forced).trainStop.moves (Chip.standEndAll_moves .refl (within_refl _)) (by decide)

/-- An interrupted event leaves the output: it writes the last outcome of its channel alone. -/
theorem Chip.resolve_interrupted_out (m : Chip) (i : Nat) (e : Ev) (cause : Nat) (lat : Int) (tb htb : Nat) (stand : Bool) (c : Nat) :
    (m.resolve i e 6 cause lat tb htb stand).rd CH_STAT_OUT c = m.rd CH_STAT_OUT c := by
  unfold Chip.resolve
  extract_lets +onlyGivenNames ch told
  have word : told.rd CH_STAT_OUT c = m.rd CH_STAT_OUT c := by
    unfold told
    split <;> rfl
  refine Eq.trans ?_ word
  simp only [Chip.outcomeFlag, Chip.wrB, Nat.reduceEqDiff, if_false]
  iterate 5 rw [Chip.rd_wr_ne _ _ _ _ _ _ (by decide)]
  rfl

/-- The cut of the pulses in flight leaves the output as it is commanded. -/
theorem Chip.cutPulses_out (m : Chip) (ch cause c : Nat) : (m.cutPulses ch cause).rd CH_STAT_OUT c = m.rd CH_STAT_OUT c := by
  refine List.foldlRecOn (motive := fun y : Chip => y.rd CH_STAT_OUT c = m.rd CH_STAT_OUT c) _ _ rfl fun y kept p _ => ?_
  refine Eq.trans ?_ kept
  unfold Chip.pulseResolve
  split
  · rfl
  · exact ((SameRegs.freeSlot (SameRegs.rfl [] [] _)).rd (by decide) rfl _).trans (Chip.resolve_interrupted_out _ _ _ _ _ _ _ _ _)

theorem Chip.cmdOff_out (m : Chip) (ch : Nat) : (m.cmdOff ch).rd CH_STAT_OUT ch = 0 :=
  (Chip.cutPulses_out _ _ _ _).trans (Chip.rd_wr_same _ _ _ _)

/-- Outside the channel blocks the command writes the owner state alone. -/
theorem SameRegs.cmdOff (m : Chip) (ch : Nat) : SameRegs [(MAP_CH_STAT_OWN_ON, ch)] [.rCh, .rInt] m (m.cmdOff ch) :=
  ((((SameRegs.rfl _ _ m).wr (.inr (by simp))).wr (.inl (by decide))).moves (Chip.cutPulses_moves .refl (within_refl _))
    (by decide)).setChan

theorem Chip.cmdOff_own (m : Chip) (ch : Nat) : (m.cmdOff ch).rd MAP_CH_STAT_OWN_ON ch = 0 := by
  have kept (y : Chip) : (y.cutPulses ch 6).rd MAP_CH_STAT_OWN_ON ch = y.rd MAP_CH_STAT_OWN_ON ch :=
    (Chip.cutPulses_moves .refl (within_refl _)).rd _ _ (by decide)
  exact (kept _).trans <| (Chip.rd_wr_ne _ _ _ _ _ _ (by decide)).trans (Chip.rd_wr_same _ _ _ _)

/-- What an entry into SAFE writes after the command. -/
def enterFields (ch : Nat) : List (Field × Nat) := (DG_STAT_STATE, ch) :: cutFields ch

theorem SameRegs.enterSafe_after {m : Chip} {ch : Nat} (h : m.rd DG_STAT_STATE ch ≠ 2) (forced : Bool) :
    SameRegs (enterFields ch) cutParts (m.cmdOff ch) (m.enterSafe ch forced) := by
  rw [Chip.enterSafe_eq h]
  exact SameRegs.dgFlag (((SameRegs.safeEnds m ch forced).mono (List.subset_cons_self _ _)).wr (.inr (by simp)))
    (by decide) fun q hq => by simp [enterFields, cutFields, hq]

/-- R241, R244: the output of a channel that enters SAFE is off, and commanded off. -/
theorem Chip.enterSafe_off {m : Chip} {ch : Nat} (h : m.rd DG_STAT_STATE ch ≠ 2) (forced : Bool) :
    (m.enterSafe ch forced).rd CH_STAT_OUT ch = 0 ∧ (m.enterSafe ch forced).rd MAP_CH_STAT_OWN_ON ch = 0 :=
  ⟨((SameRegs.enterSafe_after h forced).rd (by decide) rfl _).trans (Chip.cmdOff_out _ _),
    ((SameRegs.enterSafe_after h forced).rd (by decide) rfl _).trans (Chip.cmdOff_own _ _)⟩

/-- R243: the state of SAFE, and its flag. -/
theorem Chip.enterSafe_state {m : Chip} {ch : Nat} (h : m.rd DG_STAT_STATE ch ≠ 2) (forced : Bool) :
    (m.enterSafe ch forced).rd DG_STAT_STATE ch = 2 ∧ bitAt ((m.enterSafe ch forced).rd DG_FLAGS ch) DG_FLAGS_SAFE_IN = true := by
  rw [Chip.enterSafe_eq h]
  exact ⟨(Chip.dgFlag_rd _ _ _ (by decide) rfl _).trans (Chip.rd_wr_same _ _ _ _), Chip.dgFlag_bit _ _ _ (by decide)⟩

/-- Every field that an entry into SAFE may write, wherever it begins. -/
def safeFields (ch : Nat) : List (Field × Nat) := (MAP_CH_STAT_OWN_ON, ch) :: enterFields ch

/-- The register blocks that an entry into SAFE moves. -/
def safeParts : List Part := .rCh :: cutParts

theorem SameRegs.weaken {l l' : List (Field × Nat)} {p p' : List Part} {x y : Chip} (h : SameRegs l p x y) (hl : l ⊆ l') (hp : p ⊆ p') :
    SameRegs l' p' x y := fun f i q r => h f i (fun k => q (hp k)) fun g hg => r g (hl hg)

theorem SameRegs.enterSafe (m : Chip) (ch : Nat) (forced : Bool) : SameRegs (safeFields ch) safeParts m (m.enterSafe ch forced) := by
  by_cases h : m.rd DG_STAT_STATE ch = 2
  · have safe : m.dgSafe ch = true := by simp [Chip.dgSafe, h]
    unfold Chip.enterSafe
    rw [safe]
    exact SameRegs.rfl _ _ _
  · exact ((SameRegs.cmdOff m ch).weaken (by simp [safeFields]) (by decide)).trans
      ((SameRegs.enterSafe_after h forced).weaken (List.subset_cons_self _ _) (List.subset_cons_self _ _))

/-- An entry into SAFE keeps the conditions. -/
theorem Chip.enterSafe_cond (m : Chip) (ch b : Nat) (forced : Bool) : (m.enterSafe ch forced).cond ch b = m.cond ch b :=
  Chip.cond_congr ((SameRegs.enterSafe m ch forced).rd (by decide) rfl _) b

/-! ## The reactions to a detection (R241-R243) -/

/-- What a detection that leads to SAFE writes. -/
def reactFields (ch : Nat) : List (Field × Nat) := (DG_STAT_COND, ch) :: safeFields ch

theorem condFields_subset (ch : Nat) : condFields ch ⊆ reactFields ch := by
  simp [condFields, flagFields, reactFields, safeFields, enterFields, cutFields]

theorem SameRegs.detect_enterSafe (m : Chip) (ch b : Nat) (forced : Bool) :
    SameRegs (reactFields ch) safeParts m ((m.detect ch b).enterSafe ch forced) :=
  SameRegs.trans (SameRegs.detect (SameRegs.rfl _ _ m) (by decide) (condFields_subset ch))
    ((SameRegs.enterSafe _ ch forced).mono (List.subset_cons_self _ _))

/-- A SHORT_GND that does not stand already is detected, and leads to SAFE; with SG_BANK = 0 its bank stays (R242). -/
theorem Chip.groundFound_eq {m : Chip} {ch : Nat} (new : m.cond ch 1 = false) (sg : m.rd DG_CFG_SG_BANK ch = 0) :
    m.groundFound ch = (m.detect ch 1).enterSafe ch false := by
  have kept : ((m.detect ch 1).enterSafe ch false).rd DG_CFG_SG_BANK ch = 0 :=
    ((SameRegs.detect_enterSafe m ch 1 false).rd (by decide) rfl _).trans sg
  simp [Chip.groundFound, new, Chip.rdB, kept]

/-- A detection from outside SAFE enters it, with its condition, the output off, and SAFE_IN. -/
theorem Chip.detect_enterSafe {m : Chip} {ch b : Nat} (st : m.rd DG_STAT_STATE ch ≠ 2) (hb : b < DG_STAT_COND.w) (forced : Bool) :
    ((m.detect ch b).enterSafe ch forced).rd DG_STAT_STATE ch = 2 ∧ ((m.detect ch b).enterSafe ch forced).cond ch b = true ∧
      ((m.detect ch b).enterSafe ch forced).rd CH_STAT_OUT ch = 0 ∧
      bitAt (((m.detect ch b).enterSafe ch forced).rd DG_FLAGS ch) DG_FLAGS_SAFE_IN = true := by
  have out : (m.detect ch b).rd DG_STAT_STATE ch ≠ 2 := by rwa [Chip.detect_rd _ _ _ (by decide) rfl]
  obtain ⟨state, flag⟩ := Chip.enterSafe_state out forced
  exact ⟨state, (Chip.enterSafe_cond _ _ _ _).trans (Chip.detect_cond _ _ _ hb), (Chip.enterSafe_off out forced).1, flag⟩

/-- OPEN is confirmed with OL_SAFE = 0: the condition with its flag, and the state OK (R243). -/
theorem Chip.openFound_flagOnly {m : Chip} {ch : Nat} (new : m.cond ch 0 = false) (st : m.rd DG_STAT_STATE ch ≠ 2)
    (ol : m.rd DG_CFG_OL_SAFE ch = 0) : m.openFound ch = (m.detect ch 0).wr DG_STAT_STATE ch 0 := by
  have out : (m.detect ch 0).dgSafe ch = false := by simp [Chip.dgSafe, Chip.detect_rd _ _ _ (f := DG_STAT_STATE) (by decide) rfl, st]
  have flagOnly : (m.detect ch 0).rdB DG_CFG_OL_SAFE ch = false := by
    simp [Chip.rdB, Chip.detect_rd _ _ _ (f := DG_CFG_OL_SAFE) (by decide) rfl, ol]
  simp [Chip.openFound, new, out, flagOnly]

end Sys2Proof.Machine
end

section
/-! PROOFS. The node test: its request, its start, and what its result confirms (R233, R235, R239, R243). -/

namespace Sys2Proof.Machine

theorem exec_nodeTestStart (ch : Ch) (s : State) : exec (.nodeTestStart ch) s = .next { s with chip := s.chip.nodeStart ch.val } := rfl

theorem exec_nodeTestRequest {who : Writer} {ch : Ch} {s : State}
    (ok : (s.chip.isOwner who (s.chip.chOwner ch.val) && s.chip.runs (clusterOf ch.val)) = true) :
    exec (.nodeTestRequest who ch) s =
      .next { s with chip := s.chip.setDrv ch.val { s.chip.drv ch.val with nodeReq := true } } := by
  change execNodeTestRequest who ch s = _
  simp only [execNodeTestRequest, State.upd_eq, ok, if_true]

theorem exec_nodeTestResult (ch : Ch) (v b : Int) (s : State) :
    exec (.nodeTestResult ch v b) s = .next { s with chip := s.chip.nodeEnd ch.val v b } := rfl

theorem Chip.nodeStart_requested {m : Chip} {ch : Nat} (ready : m.nodeReady ch = true) (req : (m.drv ch).nodeReq = true) :
    m.nodeStart ch = m.setDrv ch { m.drv ch with nodeTb := some m.tb, nodeReq := false } := by
  simp [Chip.nodeStart, ready, req]

/-! ## The result of a test -/

/-- A result is taken: the test is over, and the result is kept and shown. -/
def Chip.nodeTaken (m : Chip) (ch r : Nat) : Chip :=
  (m.setDrv ch { m.drv ch with nodeTb := none, nodePrev := r }).wr DG_STAT_OFF_RES ch r

/-- A result judged by the one before it: what it clears, then what it confirms (R235). -/
def Chip.nodeJudged (m : Chip) (ch prev r : Nat) : Chip := ((m.nodeTaken ch r).nodeClear ch prev r).nodeConfirm ch prev r

/-- The result of a test whose dwell is over is judged; a channel that it clears may be retried (R243). -/
theorem Chip.nodeEnd_over {m : Chip} {ch z : Nat} {v b : Int} (started : (m.drv ch).nodeTb = some z) (dwelt : z + 200 * usTb ≤ m.tb) :
    m.nodeEnd ch v b =
      let r := nodeResult v b
      let judged := m.nodeJudged ch (m.drv ch).nodePrev r
      if ((m.nodeTaken ch r).clearsOpen ch (m.drv ch).nodePrev r || (m.nodeTaken ch r).clearsGround ch (m.drv ch).nodePrev r) = true then
        judged.nodeRetry ch
      else judged := by
  simp only [Chip.nodeEnd, started, Nat.not_lt.2 dwelt, if_false]
  rfl

/-- No retry of a channel outside SAFE. -/
theorem Chip.nodeRetry_outside {m : Chip} {ch : Nat} (h : m.rd DG_STAT_STATE ch ≠ 2) : m.nodeRetry ch = m := by
  simp [Chip.nodeRetry, Chip.dgSafe, h]

/-- Where the channel stands outside SAFE once its result is judged, that is the end of the test. -/
theorem Chip.nodeEnd_outside {m : Chip} {ch z : Nat} {v b : Int} (started : (m.drv ch).nodeTb = some z) (dwelt : z + 200 * usTb ≤ m.tb)
    (out : (m.nodeJudged ch (m.drv ch).nodePrev (nodeResult v b)).rd DG_STAT_STATE ch ≠ 2) :
    m.nodeEnd ch v b = m.nodeJudged ch (m.drv ch).nodePrev (nodeResult v b) := by
  rw [Chip.nodeEnd_over started dwelt]
  dsimp only
  rw [Chip.nodeRetry_outside out, ite_self]

theorem SameRegs.nodeClear (m : Chip) (ch prev r : Nat) : SameRegs [(DG_STAT_COND, ch)] [] m (m.nodeClear ch prev r) := by
  have opened : SameRegs [(DG_STAT_COND, ch)] [] m (if m.clearsOpen ch prev r then m.setCond ch 0 false else m) := by
    split
    · exact (SameRegs.rfl _ _ m).setCond (by simp)
    · exact SameRegs.rfl _ _ _
  unfold Chip.nodeClear
  dsimp only
  split
  · exact opened.setCond (by simp)
  · exact opened

@[simp] theorem Chip.nodeClear_drv (m : Chip) (ch prev r c : Nat) : (m.nodeClear ch prev r).drv c = m.drv c := by
  unfold Chip.nodeClear
  dsimp only
  split <;> split <;> rfl

/-- With no condition present a result clears none. -/
theorem Chip.nodeClear_none {m : Chip} {ch : Nat} (h : m.rd DG_STAT_COND ch = 0) (prev r : Nat) : m.nodeClear ch prev r = m := by
  simp [Chip.nodeClear, Chip.clearsOpen, Chip.clearsGround, Chip.cond_none h]

theorem Chip.clears_none {m : Chip} {ch : Nat} (h : m.rd DG_STAT_COND ch = 0) (prev r : Nat) :
    (m.clearsOpen ch prev r || m.clearsGround ch prev r) = false := by
  simp [Chip.clearsOpen, Chip.clearsGround, Chip.cond_none h]

theorem nodeResult_high {v b : Int} (h : b - 3000 ≤ v) : nodeResult v b = 1 := if_pos h

theorem nodeResult_mid {v b : Int} (h : v < b - 3000) (g : 1500 ≤ v) : nodeResult v b = 2 := by
  simp [nodeResult, Int.not_le.2 h, g]

theorem nodeResult_low {v b : Int} (h : v < b - 3000) (g : v < 1500) : nodeResult v b = 3 := by
  simp [nodeResult, Int.not_le.2 h, Int.not_le.2 g]

theorem Chip.setCond_none {m : Chip} {ch : Nat} (h : m.rd DG_STAT_COND ch = 0) (b : Nat) :
    (m.setCond ch b false).rd DG_STAT_COND ch = 0 := by
  unfold Chip.setCond
  rw [Chip.rd_wr_same, h]
  simp [putBit, clrBit]

/-- A high result of a SUSPECT channel: NO_RISE leaves COND, and the state is OK. -/
theorem Chip.nodeJudged_high {m : Chip} {ch : Nat} (st : m.rd DG_STAT_STATE ch = 1) (prev : Nat) :
    m.nodeJudged ch prev 1 = (((m.nodeTaken ch 1).nodeClear ch prev 1).setCond ch 3 false).wr DG_STAT_STATE ch 0 := by
  have suspect : (((m.nodeTaken ch 1).nodeClear ch prev 1).setCond ch 3 false).rd DG_STAT_STATE ch = 1 := by
    rw [Chip.setCond, Chip.rd_wr_ne _ _ _ _ _ _ (by decide), (SameRegs.nodeClear _ _ _ _).rd (by decide) rfl, Chip.nodeTaken,
      Chip.rd_wr_ne _ _ _ _ _ _ (by decide), Chip.setDrv_rd, st]
  simp [Chip.nodeJudged, Chip.nodeConfirm, suspect]

/-- A result with no condition present, before what it confirms. -/
def Chip.nodeSettled (m : Chip) (ch r : Nat) : Chip := (m.nodeTaken ch r).setCond ch 3 false

theorem Chip.nodeSettled_cond {m : Chip} {ch : Nat} (h : m.rd DG_STAT_COND ch = 0) (r : Nat) :
    (m.nodeSettled ch r).rd DG_STAT_COND ch = 0 := Chip.setCond_none ((Chip.rd_wr_ne _ _ _ _ _ _ (by decide)).trans h) 3

theorem SameRegs.nodeSettled (m : Chip) (ch r : Nat) :
    SameRegs [(DG_STAT_OFF_RES, ch), (DG_STAT_COND, ch)] [] m (m.nodeSettled ch r) :=
  ((SameRegs.rfl _ _ m).setDrv.wr (.inr (by simp))).setCond (by simp)

theorem Chip.nodeSettled_res (m : Chip) (ch r : Nat) : (m.nodeSettled ch r).rd DG_STAT_OFF_RES ch = r % 2 ^ DG_STAT_OFF_RES.w :=
  (Chip.rd_wr_ne _ _ _ _ _ _ (by decide)).trans (Chip.rd_wr_same _ _ _ _)

theorem Chip.nodeSettled_drv (m : Chip) (ch r : Nat) :
    (m.nodeSettled ch r).drv ch = { m.drv ch with nodeTb := none, nodePrev := r } := Chip.setDrv_drv _ _ _

/-- A second mid result finds OPEN (R235). -/
theorem Chip.nodeJudged_mid {m : Chip} {ch : Nat} (h : m.rd DG_STAT_COND ch = 0) :
    m.nodeJudged ch 2 2 = (m.nodeSettled ch 2).openFound ch := by
  have none : (m.nodeTaken ch 2).rd DG_STAT_COND ch = 0 := (Chip.rd_wr_ne _ _ _ _ _ _ (by decide)).trans h
  simp [Chip.nodeJudged, Chip.nodeClear_none none, Chip.nodeConfirm, Chip.nodeSettled]

/-- A second low result finds SHORT_GND (R235). -/
theorem Chip.nodeJudged_low {m : Chip} {ch : Nat} (h : m.rd DG_STAT_COND ch = 0) :
    m.nodeJudged ch 3 3 = (m.nodeSettled ch 3).groundFound ch := by
  have none : (m.nodeTaken ch 3).rd DG_STAT_COND ch = 0 := (Chip.rd_wr_ne _ _ _ _ _ _ (by decide)).trans h
  simp [Chip.nodeJudged, Chip.nodeClear_none none, Chip.nodeConfirm, Chip.nodeSettled]

/-- The end of a test with no condition present: the result clears none, so there is no retry. -/
theorem Chip.nodeEnd_kept {m : Chip} {ch z : Nat} {v b : Int} (started : (m.drv ch).nodeTb = some z) (dwelt : z + 200 * usTb ≤ m.tb)
    (h : m.rd DG_STAT_COND ch = 0) : m.nodeEnd ch v b = m.nodeJudged ch (m.drv ch).nodePrev (nodeResult v b) := by
  have none : (m.nodeTaken ch (nodeResult v b)).rd DG_STAT_COND ch = 0 := (Chip.rd_wr_ne _ _ _ _ _ _ (by decide)).trans h
  rw [Chip.nodeEnd_over started dwelt]
  exact if_neg (Bool.eq_false_iff.1 (Chip.clears_none none _ _))

/-- Settles O32: a high result leaves COND and SUSPECT behind, a second mid one finds OPEN, a second low one SHORT_GND. -/
theorem nodeTests : Obligations.NodeTests := by
  unfold Obligations.NodeTests
  refine ⟨?_, ?_, ?_, ?_, ?_⟩
  · intro ch s ready req
    refine ⟨_, exec_nodeTestStart ch s, ?_⟩
    rw [Chip.nodeStart_requested ready req]
    exact ⟨Chip.setDrv_drv _ _ _, (SameRegs.rfl _ _ _).setDrv⟩
  · intro who ch s ok
    exact ⟨_, exec_nodeTestRequest ok, Chip.setDrv_drv _ _ _, (SameRegs.rfl _ _ _).setDrv⟩
  · intro ch v b z s started dwelt high st
    refine ⟨_, exec_nodeTestResult ch v b s, ?_⟩
    have judged := Chip.nodeJudged_high st (s.chip.drv ch.val).nodePrev
    have ended := Chip.nodeEnd_outside (v := v) (b := b) started dwelt (by
      rw [nodeResult_high high, judged, Chip.rd_wr_same]
      decide)
    rw [nodeResult_high high, judged] at ended
    rw [ended]
    refine ⟨?_, Chip.rd_wr_same _ _ _ _, ?_, ?_, ?_⟩
    · rw [Chip.rd_wr_ne _ _ _ _ _ _ (by decide), Chip.setCond, Chip.rd_wr_ne _ _ _ _ _ _ (by decide),
        (SameRegs.nodeClear _ _ _ _).rd (by decide) rfl]
      exact Chip.rd_wr_same _ _ _ _
    · exact (Chip.cond_congr (Chip.rd_wr_ne _ _ _ _ _ _ (by decide)) 3).trans (Chip.cond_setCond _ _ _ _ (by decide))
    · simp [Chip.nodeTaken]
    · simp [Chip.nodeTaken]
  · intro ch v b z s started dwelt notHigh notLow prev det cond st ol
    refine ⟨_, exec_nodeTestResult ch v b s, ?_⟩
    have settled := SameRegs.nodeSettled s.chip ch.val 2
    have ended : s.chip.nodeEnd ch.val v b = ((s.chip.nodeSettled ch.val 2).detect ch.val 0).wr DG_STAT_STATE ch.val 0 := by
      rw [Chip.nodeEnd_kept started dwelt cond, nodeResult_mid notHigh notLow, prev, Chip.nodeJudged_mid cond]
      refine Chip.openFound_flagOnly (Chip.cond_none (Chip.nodeSettled_cond cond _) 0) ?_ ?_
      · rwa [settled.rd (by decide) rfl]
      · rwa [settled.rd (by decide) rfl]
    rw [ended]
    refine ⟨?_, ?_, Chip.rd_wr_same _ _ _ _, ?_, ?_⟩
    · rw [Chip.rd_wr_ne _ _ _ _ _ _ (by decide), Chip.detect_rd _ _ _ (by decide) rfl]
      exact Chip.nodeSettled_res _ _ _
    · exact (Chip.cond_congr (Chip.rd_wr_ne _ _ _ _ _ _ (by decide)) 0).trans (Chip.detect_cond _ _ _ (by decide))
    · rw [Chip.rd_wr_ne _ _ _ _ _ _ (by decide)]
      refine Chip.detect_flag ?_ (by decide)
      rw [Chip.nodeSettled_drv]
      exact det
    · rw [Chip.rd_wr_ne _ _ _ _ _ _ (by decide), Chip.detect_rd _ _ _ (by decide) rfl]
      exact settled.rd (by decide) rfl _
  · intro ch v b z s started dwelt notHigh low prev cond st sg
    refine ⟨_, exec_nodeTestResult ch v b s, ?_⟩
    have settled := SameRegs.nodeSettled s.chip ch.val 3
    have ended : s.chip.nodeEnd ch.val v b = ((s.chip.nodeSettled ch.val 3).detect ch.val 1).enterSafe ch.val false := by
      rw [Chip.nodeEnd_kept started dwelt cond, nodeResult_low notHigh low, prev, Chip.nodeJudged_low cond]
      refine Chip.groundFound_eq (Chip.cond_none (Chip.nodeSettled_cond cond _) 1) ?_
      rwa [settled.rd (by decide) rfl]
    rw [ended]
    have outside : (s.chip.nodeSettled ch.val 3).rd DG_STAT_STATE ch.val ≠ 2 := by rwa [settled.rd (by decide) rfl]
    obtain ⟨state, short, out, flag⟩ := Chip.detect_enterSafe (b := 1) outside (by decide) false
    refine ⟨?_, short, state, out, flag⟩
    exact ((SameRegs.detect_enterSafe _ _ _ _).rd (by decide) rfl _).trans (Chip.nodeSettled_res _ _ _)

end Sys2Proof.Machine
end

section
/-! PROOFS. The supply test of a bank: its request, its start, its results, and a node that stays high (R234, R235). -/

namespace Sys2Proof.Machine

theorem exec_supplyTestStart (b : Bank) (s : State) : exec (.supplyTestStart b) s = .next { s with chip := s.chip.supStart b.val } := rfl

theorem exec_supplyTestRequest {who : Writer} {b : Bank} {s : State} (ok : s.chip.driveOk who = true) :
    exec (.supplyTestRequest who b) s =
      .next { s with chip := s.chip.setBank b.val { s.chip.bank b.val with supReq := true } } := by
  change execSupplyTestRequest who b s = _
  simp only [execSupplyTestRequest, State.upd_eq, ok, if_true]

theorem exec_supplyTestResult (b : Bank) (x : BitVec 8) (s : State) :
    exec (.supplyTestResult b x) s = .next { s with chip := s.chip.supEnd b.val x.toNat } := rfl

theorem exec_supplyTestNodeHi (b : Bank) (s : State) :
    exec (.supplyTestNodeHi b) s = .next { s with chip := s.chip.supNodeHi b.val } := rfl

theorem Chip.setBank_bank (m : Chip) (b : Nat) (x : BankSt) : (m.setBank b x).bank b = x := tabGet_put_same _ _ _ _

theorem SameRegs.setBank {l : List (Field × Nat)} {p : List Part} {x y : Chip} {b : Nat} {k : BankSt} (h : SameRegs l p x y) :
    SameRegs l p x (y.setBank b k) := h.regs (Eq.refl _)

theorem Chip.supStart_requested {m : Chip} {b : Nat} (ready : m.supReady b = true) (req : (m.bank b).supReq = true) :
    m.supStart b = (m.setBank b { m.bank b with supTb := some m.tb, supReq := false }).wr DGB_STAT_BUSY b 1 := by
  simp [Chip.supStart, ready, req]

/-! ## What a channel's result leaves of the bank -/

theorem Moves.bank {L : List Part} {x y : Chip} (h : Moves L x y) (p : Part.banks ∉ L) (b : Nat) : y.bank b = x.bank b := by
  unfold Chip.bank
  rw [h.kept.banks p]

theorem Chip.trainStop_bank (m : Chip) (ch b : Nat) : (m.trainStop ch false).bank b = m.bank b := by
  unfold Chip.trainStop
  simp only [Bool.false_and, Bool.false_eq_true, if_false]
  split
  · rfl
  · rw [(Chip.freeSlot_moves .refl (within_refl _)).bank (by decide)]
    exact (Chip.strokeTrainEnd_moves .refl (within_refl _)).bank (by decide) b

/-- An entry into SAFE leaves the supply test of the bank as it is. -/
theorem Chip.enterSafe_bank (m : Chip) (ch b : Nat) (forced : Bool) : (m.enterSafe ch forced).bank b = m.bank b := by
  have shown (y : Chip) : ((y.wr DG_STAT_STATE ch 2).dgFlag ch DG_FLAGS_SAFE_IN).bank b = y.bank b :=
    (Chip.dgFlag_moves .refl (within_refl _)).bank (by decide) b
  unfold Chip.enterSafe
  split
  · rfl
  · dsimp only
    rw [shown, (Chip.standEndAll_moves .refl (within_refl _)).bank (by decide), Chip.trainStop_bank]
    exact (Chip.safeOff_moves .refl (within_refl _)).bank (by decide) b

/-- What the supply test writes for a channel. -/
theorem SameRegs.supplyFoundOff (m : Chip) (ch : Nat) : SameRegs (reactFields ch) safeParts m (m.supplyFoundOff ch) := by
  have found : SameRegs (reactFields ch) safeParts m (if (m.drv ch).sbSup then m else m.detect ch 2) := by
    split
    · exact SameRegs.rfl _ _ _
    · exact SameRegs.detect (SameRegs.rfl _ _ _) (by decide) (condFields_subset ch)
  exact SameRegs.trans found.setDrv ((SameRegs.enterSafe _ ch false).mono (List.subset_cons_self _ _))

theorem Chip.supplyFoundOff_bank (m : Chip) (ch b : Nat) : (m.supplyFoundOff ch).bank b = m.bank b := by
  refine (Chip.enterSafe_bank _ _ _ _).trans ?_
  split
  · rfl
  · exact (Chip.detect_moves .refl (within_refl _)).bank (by decide) b

theorem SameRegs.supChannel (m : Chip) (ch : Nat) (r : Bool) : SameRegs (reactFields ch) safeParts m (m.supChannel ch r) := by
  have kept : SameRegs (reactFields ch) safeParts m (m.setDrv ch { m.drv ch with supPrev := some r }) := (SameRegs.rfl _ _ m).setDrv
  unfold Chip.supChannel
  dsimp only
  split
  · exact kept.trans (SameRegs.supplyFoundOff _ _)
  · split
    · exact kept.setDrv.setCond (by simp [reactFields])
    · exact kept

theorem Chip.supChannel_bank (m : Chip) (ch b : Nat) (r : Bool) : (m.supChannel ch r).bank b = m.bank b := by
  unfold Chip.supChannel
  dsimp only
  split
  · exact Chip.supplyFoundOff_bank _ _ _
  · split <;> rfl

/-! ## The end of a test -/

/-- A test is over: what the bank shows of it. -/
def Chip.supShown (m : Chip) (b hi : Nat) : Chip :=
  ((m.setBank b { m.bank b with supTb := none }).wr DGB_STAT_BUSY b 0).wr DGB_STAT_NODE_HI b hi

/-- The results of the channels of a bank. -/
def Chip.supResults (m : Chip) (b bits : Nat) : Chip :=
  (List.range 8).foldl (fun m k => m.supChannel (8 * b + k) (bitAt bits k)) m

theorem Chip.supEnd_over {m : Chip} {b z : Nat} (started : (m.bank b).supTb = some z) (waited : z + 100 * usTb ≤ m.tb) (bits : Nat) :
    m.supEnd b bits = (((m.supShown b 0).wr DGB_STAT_SB_CH b bits).supResults b bits).dgbFlag b DGB_FLAGS_TEST_DONE := by
  simp only [Chip.supEnd, started, Nat.not_lt.2 waited, if_false]
  rfl

theorem Chip.supNodeHi_over {m : Chip} {b z : Nat} (started : (m.bank b).supTb = some z) (waited : z + 5 * msTb ≤ m.tb) :
    m.supNodeHi b = (m.supShown b 1).dgbFlag b DGB_FLAGS_NODE_HI := by
  simp only [Chip.supNodeHi, started, Nat.not_lt.2 waited, if_false]
  rfl

/-- The results leave a register that no channel's result writes. -/
theorem Chip.supResults_rd (m : Chip) (b bits : Nat) {f : Field} (hp : f.part ∉ safeParts)
    (hf : ∀ ch, ((reactFields ch).all fun q => q.1.id != f.id) = true) (i : Nat) : (m.supResults b bits).rd f i = m.rd f i :=
  List.foldlRecOn (motive := fun y : Chip => y.rd f i = m.rd f i) _ _ rfl fun y kept k _ =>
    ((SameRegs.supChannel y (8 * b + k) (bitAt bits k)).rd hp (hf _) i).trans kept

theorem Chip.supResults_bank (m : Chip) (b bits c : Nat) : (m.supResults b bits).bank c = m.bank c :=
  List.foldlRecOn (motive := fun y : Chip => y.bank c = m.bank c) _ _ rfl fun y kept _ _ => (Chip.supChannel_bank y _ _ _).trans kept

theorem Chip.dgbFlag_rd (m : Chip) (b k : Nat) {f : Field} (hp : f.part ≠ .rInt) (hf : f.id ≠ DGB_FLAGS.id) (i : Nat) :
    (m.dgbFlag b k).rd f i = m.rd f i := Chip.raise_rd_ne _ _ _ _ _ _ _ _ hp hf

theorem Chip.dgbFlag_bit (m : Chip) (b k : Nat) (h : k < DGB_FLAGS.w) : bitAt ((m.dgbFlag b k).rd DGB_FLAGS b) k = true :=
  Chip.raise_bit _ _ _ _ _ _ (by decide) h

theorem Chip.dgbFlag_bank (m : Chip) (b k c : Nat) : (m.dgbFlag b k).bank c = m.bank c :=
  (Chip.dgbFlag_moves .refl (within_refl _)).bank (by decide) c

theorem Chip.supShown_busy (m : Chip) (b hi : Nat) : (m.supShown b hi).rd DGB_STAT_BUSY b = 0 :=
  (Chip.rd_wr_ne _ _ _ _ _ _ (by decide)).trans (Chip.rd_wr_same _ _ _ _)

theorem Chip.supShown_nodeHi (m : Chip) (b hi : Nat) : (m.supShown b hi).rd DGB_STAT_NODE_HI b = hi % 2 ^ DGB_STAT_NODE_HI.w :=
  Chip.rd_wr_same _ _ _ _

/-- Settles O33: what the bank shows of a test stands through the results of its channels. -/
theorem supplyTests : Obligations.SupplyTests := by
  unfold Obligations.SupplyTests
  refine ⟨?_, ?_, ?_, ?_⟩
  · intro b s ready req
    refine ⟨_, exec_supplyTestStart b s, ?_⟩
    rw [Chip.supStart_requested ready req]
    exact ⟨Chip.rd_wr_same _ _ _ _, Chip.setBank_bank _ _ _, (SameRegs.rfl _ _ _).setBank.wr (.inr (by simp))⟩
  · intro who b s ok
    exact ⟨_, exec_supplyTestRequest ok, Chip.setBank_bank _ _ _, (SameRegs.rfl _ _ _).setBank⟩
  · intro b x z s started waited
    refine ⟨_, exec_supplyTestResult b x s, ?_⟩
    rw [Chip.supEnd_over started waited]
    refine ⟨?_, ?_, ?_, Chip.dgbFlag_bit _ _ _ (by decide), ?_⟩
    · rw [Chip.dgbFlag_rd _ _ _ (by decide) (by decide), Chip.supResults_rd _ _ _ (by decide) (fun _ => rfl),
        Chip.rd_wr_ne _ _ _ _ _ _ (by decide)]
      exact Chip.supShown_busy _ _ _
    · rw [Chip.dgbFlag_rd _ _ _ (by decide) (by decide), Chip.supResults_rd _ _ _ (by decide) (fun _ => rfl),
        Chip.rd_wr_ne _ _ _ _ _ _ (by decide)]
      exact Chip.supShown_nodeHi _ _ _
    · rw [Chip.dgbFlag_rd _ _ _ (by decide) (by decide), Chip.supResults_rd _ _ _ (by decide) (fun _ => rfl), Chip.rd_wr_same]
      exact Nat.mod_eq_of_lt x.isLt
    · rw [Chip.dgbFlag_bank, Chip.supResults_bank]
      exact congrArg BankSt.supTb (Chip.setBank_bank _ _ _)
  · intro b z s started waited
    refine ⟨_, exec_supplyTestNodeHi b s, ?_⟩
    rw [Chip.supNodeHi_over started waited]
    refine ⟨?_, ?_, Chip.dgbFlag_bit _ _ _ (by decide), ?_⟩
    · exact (Chip.dgbFlag_rd _ _ _ (by decide) (by decide) _).trans (Chip.supShown_busy _ _ _)
    · exact (Chip.dgbFlag_rd _ _ _ (by decide) (by decide) _).trans (Chip.supShown_nodeHi _ _ _)
    · exact (((SameRegs.rfl _ _ _).setBank.wr (.inr (by simp))).wr (.inr (by simp))).raise (by simp) (.inr (by simp))

end Sys2Proof.Machine
end

section
/-! PROOFS. The signatures of an actuation and the clear of SAFE (R237-R239, R241-R243, R245). -/

namespace Sys2Proof.Machine

theorem exec_shortCircuitTrip (ch : Ch) (ma : Nat) (s : State) :
    exec (.shortCircuitTrip ch ma) s = .next { s with chip := s.chip.tripShort ch.val ma } := rfl

theorem exec_tooFast (ch : Ch) (code : Nat) (s : State) :
    exec (.tooFast ch code) s = .next { s with chip := s.chip.tooFastAt ch.val code } := rfl

theorem exec_noRise (ch : Ch) (code : Nat) (s : State) :
    exec (.noRise ch code) s = .next { s with chip := s.chip.noRiseAt ch.val code } := rfl

theorem exec_heldLowAtTurnOff (ch : Ch) (v : Int) (s : State) :
    exec (.heldLowAtTurnOff ch v) s = .next { s with chip := s.chip.heldLow ch.val v } := rfl

theorem exec_diagClear {who : Writer} {ch : Ch} {s : State}
    (ok : (s.chip.isOwner who (s.chip.chOwner ch.val) && s.chip.runs (clusterOf ch.val)) = true) :
    exec (.diagClear who ch) s = .next { s with chip := s.chip.diagClr ch.val } := by
  change execDiagClear who ch s = _
  simp only [execDiagClear, State.upd_eq, ok, if_true]

/-! ## SHORT_BAT (R237, R238, R241) -/

theorem Chip.count_rd (m : Chip) (f : Field) (i : Nat) : (m.count f i).rd f i = min (m.rd f i + 1) (2 ^ f.w - 1) := by
  refine (Chip.rd_wr_same _ _ _ _).trans (Nat.mod_eq_of_lt ?_)
  have := Nat.two_pow_pos f.w
  omega

/-- An on-state SHORT_BAT before the entry into SAFE: counted, detected, and held against a retry. -/
def Chip.supplySeen (m : Chip) (ch : Nat) : Chip :=
  let m := (m.count DG_CNT_TRIPS ch).detect ch 2
  m.setDrv ch { m.drv ch with sbOn := true, sbHold := true }

theorem Chip.supplySeen_cond (m : Chip) (ch : Nat) : (m.supplySeen ch).cond ch 2 = true := Chip.detect_cond _ _ _ (by decide)

theorem Chip.supplySeen_state (m : Chip) (ch : Nat) : (m.supplySeen ch).rd DG_STAT_STATE ch = m.rd DG_STAT_STATE ch :=
  (Chip.detect_rd _ _ _ (by decide) rfl _).trans (Chip.rd_wr_ne _ _ _ _ _ _ (by decide))

theorem Chip.supplySeen_trips (m : Chip) (ch : Nat) :
    (m.supplySeen ch).rd DG_CNT_TRIPS ch = min (m.rd DG_CNT_TRIPS ch + 1) (2 ^ DG_CNT_TRIPS.w - 1) :=
  (Chip.detect_rd _ _ _ (by decide) rfl _).trans (Chip.count_rd _ _ _)

/-- From outside SAFE it leads to SAFE with the switches opened (R241). -/
theorem Chip.supplyFoundOn_eq {m : Chip} {ch : Nat} (st : m.rd DG_STAT_STATE ch ≠ 2) :
    m.supplyFoundOn ch = (m.supplySeen ch).enterSafe ch true := by
  have out : (m.supplySeen ch).dgSafe ch = false := by simp [Chip.dgSafe, Chip.supplySeen_state, st]
  exact if_neg (Bool.eq_false_iff.1 out)

theorem Chip.supplyFoundOn_cond {m : Chip} {ch : Nat} (st : m.rd DG_STAT_STATE ch ≠ 2) : (m.supplyFoundOn ch).cond ch 2 = true := by
  rw [Chip.supplyFoundOn_eq st, Chip.enterSafe_cond, Chip.supplySeen_cond]

/-- The state of SAFE with its flag, and the output off and commanded off. -/
theorem Chip.supplyFoundOn_safe {m : Chip} {ch : Nat} (st : m.rd DG_STAT_STATE ch ≠ 2) :
    ((m.supplyFoundOn ch).rd DG_STAT_STATE ch = 2 ∧ bitAt ((m.supplyFoundOn ch).rd DG_FLAGS ch) DG_FLAGS_SAFE_IN = true) ∧
      (m.supplyFoundOn ch).rd CH_STAT_OUT ch = 0 ∧ (m.supplyFoundOn ch).rd MAP_CH_STAT_OWN_ON ch = 0 := by
  have out : (m.supplySeen ch).rd DG_STAT_STATE ch ≠ 2 := by rwa [Chip.supplySeen_state]
  rw [Chip.supplyFoundOn_eq st]
  exact ⟨Chip.enterSafe_state out _, Chip.enterSafe_off out _⟩

theorem Chip.supplyFoundOn_trips {m : Chip} {ch : Nat} (st : m.rd DG_STAT_STATE ch ≠ 2) :
    (m.supplyFoundOn ch).rd DG_CNT_TRIPS ch = min (m.rd DG_CNT_TRIPS ch + 1) (2 ^ DG_CNT_TRIPS.w - 1) := by
  rw [Chip.supplyFoundOn_eq st, (SameRegs.enterSafe _ _ _).rd (by decide) rfl, Chip.supplySeen_trips]

theorem Chip.tooFastAt_fast {m : Chip} {ch code z : Nat} (test : m.onTest ch = some z) (high : m.rd DG_ON0_I_FAST ch ≤ code)
    (early : m.tb ≤ z + max 1 (m.rd DG_ON0_T_FAST ch) * usTb) : m.tooFastAt ch code = (m.wr CH_DRV_I_NOW ch code).supplyFoundOn ch := by
  simp only [Chip.tooFastAt, test, high, early, and_self, if_true]

/-! ## NO_RISE (R238, R239) -/

/-- The current at T_NORISE is taken: the test is done. -/
def Chip.noRiseTaken (m : Chip) (ch code : Nat) : Chip := (m.wr CH_DRV_I_NOW ch code).setDrv ch { m.drv ch with noRiseDone := true }

/-- NO_RISE is recorded. -/
def Chip.noRiseSeen (m : Chip) (ch code : Nat) : Chip :=
  ((m.noRiseTaken ch code).setDrv ch { (m.noRiseTaken ch code).drv ch with noRise := true }).detect ch 3

theorem Chip.noRiseTaken_rd (m : Chip) (ch code : Nat) {f : Field} (h : f.id ≠ CH_DRV_I_NOW.id) (i : Nat) :
    (m.noRiseTaken ch code).rd f i = m.rd f i := (Chip.setDrv_rd _ _ _ _ _).trans (Chip.rd_wr_ne _ _ _ _ _ _ h)

theorem Chip.noRiseSeen_rd (m : Chip) (ch code : Nat) {f : Field} (hp : f.part ∉ [Part.rInt])
    (hf : ((condFields ch).all fun q => q.1.id != f.id) = true) (h : f.id ≠ CH_DRV_I_NOW.id) (i : Nat) :
    (m.noRiseSeen ch code).rd f i = m.rd f i := (Chip.detect_rd _ _ _ hp hf _).trans (Chip.noRiseTaken_rd _ _ _ h _)

/-- A current below I_NORISE in PEAK at its time makes an OK channel SUSPECT (R239). -/
theorem Chip.noRiseAt_low {m : Chip} {ch code z : Nat} (test : m.onTest ch = some z) (shaped : (m.drv ch).plain = false)
    (first : (m.drv ch).noRiseDone = false) (late : z + max 1 (m.rd DG_ON1_T_NORISE ch) * usTb ≤ m.tb) (peak : m.phase ch = 3)
    (low : code < m.rd DG_ON1_I_NORISE ch) (st : m.rd DG_STAT_STATE ch = 0) :
    m.noRiseAt ch code = (m.noRiseSeen ch code).wr DG_STAT_STATE ch 1 := by
  have below : code < (m.noRiseTaken ch code).rd DG_ON1_I_NORISE ch := by rwa [Chip.noRiseTaken_rd _ _ _ (by decide)]
  have ok : (m.noRiseSeen ch code).rd DG_STAT_STATE ch = 0 := (Chip.noRiseSeen_rd _ _ _ (by decide) rfl (by decide) _).trans st
  unfold Chip.noRiseAt
  rw [test]
  dsimp only
  rw [if_neg (by simp [shaped, first, Nat.not_lt.2 late, peak, phPeak])]
  exact (if_pos below).trans (if_pos ok)

theorem Chip.noRiseSeen_noRise (m : Chip) (ch code : Nat) : ((m.noRiseSeen ch code).drv ch).noRise = true := by
  obtain ⟨z, kept⟩ := Chip.detect_drv ((m.noRiseTaken ch code).setDrv ch { (m.noRiseTaken ch code).drv ch with noRise := true }) ch 3
  rw [Chip.noRiseSeen, kept, Chip.setDrv_drv]

/-! ## SHORT_GND at a turn-off (R238) -/

/-- The test of a turn-off is over. -/
def Chip.offTested (m : Chip) (ch : Nat) : Chip := m.setDrv ch { m.drv ch with offTb := none }

theorem Chip.heldLow_low {m : Chip} {ch z : Nat} {v : Int} (off : (m.drv ch).offTb = some z) (waited : z + 20 * usTb ≤ m.tb)
    (idle : m.acting ch = false) (on : m.rd DG_CFG_ON_EN ch = 1) (start : (m.drv ch).fromOff = true)
    (strong : m.rd DG_ON1_I_NORISE ch ≤ (m.drv ch).offCode) (low : v < 1500) :
    m.heldLow ch v = (m.offTested ch).groundFound ch := by
  have tested : ¬ (m.tb < z + 20 * usTb ∨ m.acting ch) := by simp [idle, Nat.not_lt.2 waited]
  simp [Chip.heldLow, off, tested, Chip.rdB, on, start, strong, low, Chip.offTested]

/-! ## The clear (R243, R245) -/

/-- An on-state SHORT_BAT is removed. -/
def Chip.supplyCleared (m : Chip) (ch : Nat) : Chip := (m.setDrv ch { m.drv ch with sbOn := false }).setCond ch 2 false

theorem Chip.diagClr_leaves {m : Chip} {ch : Nat} (st : m.rd DG_STAT_STATE ch = 2) (det : (m.drv ch).det = none)
    (closed : m.cond ch 0 = false) (free : m.cond ch 1 = false) (sup : (m.drv ch).sbSup = false) :
    m.diagClr ch = (m.supplyCleared ch).leaveSafe ch := by
  simp [Chip.diagClr, det, Chip.dgSafe, st, closed, free, sup, Chip.supplyCleared]

theorem Chip.leaveSafe_state (m : Chip) (ch : Nat) :
    (m.leaveSafe ch).rd DG_STAT_STATE ch = 0 ∧ bitAt ((m.leaveSafe ch).rd DG_FLAGS ch) DG_FLAGS_SAFE_OUT = true :=
  ⟨(Chip.dgFlag_rd _ _ _ (by decide) rfl _).trans (Chip.rd_wr_same _ _ _ _), Chip.dgFlag_bit _ _ _ (by decide)⟩

theorem Chip.leaveSafe_cond (m : Chip) (ch b : Nat) : (m.leaveSafe ch).cond ch b = m.cond ch b :=
  Chip.cond_congr ((Chip.dgFlag_rd _ _ _ (by decide) rfl _).trans (Chip.rd_wr_ne _ _ _ _ _ _ (by decide))) b

/-- A SHORT_GND that stands refuses the clear, in the cycle of a detection as in a later one. -/
theorem Chip.diagClr_ground {m : Chip} {ch : Nat} (st : m.rd DG_STAT_STATE ch = 2) (short : m.cond ch 1 = true) :
    m.diagClr ch = m.dgFlag ch DG_FLAGS_CLR_REF := by
  have safe : m.dgSafe ch = true := by simp [Chip.dgSafe, st]
  simp [Chip.diagClr, safe, short]

/-- Settles O34: the detections lead to SAFE or to SUSPECT, and a clear leaves SAFE but where a condition stands. -/
theorem onStateFaults : Obligations.OnStateFaults := by
  unfold Obligations.OnStateFaults
  refine ⟨?_, ?_, ?_, ?_, ?_, ?_⟩
  · intro ch ma s strong st
    refine ⟨_, exec_shortCircuitTrip ch ma s, ?_⟩
    have tripped : s.chip.tripShort ch.val ma = s.chip.supplyFoundOn ch.val := if_pos strong
    obtain ⟨⟨state, flag⟩, out, own⟩ := Chip.supplyFoundOn_safe st
    rw [tripped]
    exact ⟨state, Chip.supplyFoundOn_cond st, out, own, Chip.supplyFoundOn_trips st, flag⟩
  · intro ch code z s test high early st
    refine ⟨_, exec_tooFast ch code s, ?_⟩
    have outside : (s.chip.wr CH_DRV_I_NOW ch.val code).rd DG_STAT_STATE ch.val ≠ 2 := by rwa [Chip.rd_wr_ne _ _ _ _ _ _ (by decide)]
    obtain ⟨⟨state, -⟩, out, -⟩ := Chip.supplyFoundOn_safe outside
    rw [Chip.tooFastAt_fast test high early]
    exact ⟨state, Chip.supplyFoundOn_cond outside, out⟩
  · intro ch code z s test shaped first late peak low st
    refine ⟨_, exec_noRise ch code s, ?_⟩
    rw [Chip.noRiseAt_low test shaped first late peak low st]
    refine ⟨Chip.rd_wr_same _ _ _ _, ?_, Chip.noRiseSeen_noRise _ _ _, ?_⟩
    · exact (Chip.cond_congr (Chip.rd_wr_ne _ _ _ _ _ _ (by decide)) 3).trans (Chip.detect_cond _ _ _ (by decide))
    · refine Eq.trans ?_ peak
      exact (Chip.rd_wr_ne _ _ _ _ _ _ (by decide)).trans (Chip.noRiseSeen_rd _ _ _ (by decide) rfl (by decide) _)
  · intro ch v z s off waited idle on start strong low free sg st
    refine ⟨_, exec_heldLowAtTurnOff ch v s, ?_⟩
    rw [Chip.heldLow_low off waited idle on start strong low, Chip.groundFound_eq (m := s.chip.offTested ch.val) free sg]
    obtain ⟨state, short, -, -⟩ := Chip.detect_enterSafe (m := s.chip.offTested ch.val) (b := 1) st (by decide) false
    exact ⟨state, short⟩
  · intro who ch s ok st det closed free sup
    refine ⟨_, exec_diagClear ok, ?_⟩
    rw [Chip.diagClr_leaves st det closed free sup]
    obtain ⟨state, flag⟩ := Chip.leaveSafe_state (s.chip.supplyCleared ch.val) ch.val
    exact ⟨state, (Chip.leaveSafe_cond _ _ _).trans (Chip.cond_setCond _ _ _ _ (by decide)), flag⟩
  · intro who ch s ok st short
    refine ⟨_, exec_diagClear ok, ?_⟩
    rw [Chip.diagClr_ground st short]
    refine ⟨(Chip.dgFlag_rd _ _ _ (by decide) rfl _).trans st, Chip.dgFlag_rd _ _ _ (by decide) rfl _, Chip.dgFlag_bit _ _ _ (by decide)⟩

end Sys2Proof.Machine
end

section
/-! PROOFS. A capture requested in the cycle in which its channel's actuation starts (R251). -/

namespace Sys2Proof.Machine

theorem exec_captureRequest {who : Writer} {c : Cap} {i : Fin 24} {s : State} (ok : s.chip.driveOk who = true) :
    exec (.captureRequest who c i) s = .next { s with chip := s.chip.capCmd c.val (some i.val) 0 } := by
  change execCaptureRequest who c i s = _
  simp [execCaptureRequest, ok]

/-- Channel 53, index 5 of converter 2, in PEAK at TB 40, which is the TB its actuation started at; no lane is in use, the rota is off. -/
def startsNow : State :=
  (st [(PROT_ROLE_DRIVE, 0, 1), (PROT_DW, 0, 7), (CAP_CFG_EN, 2, 0), (BK_CTL_EN, 6, 1), (CH_DRV_STAT_PHASE, 53, 3)]).on fun m =>
    ({ m with tb := 40 }).setDrv 53 { startTb := 40, fireTb := 40, fromOff := true }

/-- The lane that the request arms records at once: LSTATE is 2. -/
theorem startsNow_lane : (startsNow.chip.capCmd 2 (some 5) 0).lane 2 0 = 2 := by decide

/-- Refutes O35: its sixth clause leaves the requested lane armed, but a lane armed in the cycle in which its channel's actuation starts
records that actuation (R251). In `startsNow` the actuation of the requested channel starts at the TB of the request. -/
theorem not_notchAndCapture : ¬ Obligations.NotchAndCapture := by
  unfold Obligations.NotchAndCapture
  rintro ⟨-, -, -, -, -, requestArms, -⟩
  obtain ⟨t, ht, armed, -⟩ := requestArms .hostA 2 5 startsNow (by decide) (by decide) (by decide)
  rw [exec_captureRequest (by decide)] at ht
  cases ht
  exact absurd (startsNow_lane.symm.trans armed) (by decide)

end Sys2Proof.Machine
end

section
/-! PROOFS. The targets of the medium, its flags and its figures: what an operation of the manager leaves of them (R299, R300, R307). -/

namespace Sys2Proof.Machine

/-! ## A target in its place -/

theorem Chip.target_of_nand {x y : Chip} (h : y.nand = x.nand) (t : Nat) : y.target t = x.target t := by
  simp [Chip.target, h]

theorem Moves.target {L : List Part} {x y : Chip} (h : Moves L x y) (p : Part.nand ∉ L) (t : Nat) : y.target t = x.target t :=
  Chip.target_of_nand (h.kept.nand p) t

@[simp] theorem Chip.setTarget_target (m : Chip) (t : Nat) (x : NTarget) : (m.setTarget t x).target t = x := by
  by_cases h : t = 0 <;> simp [Chip.setTarget, Chip.target, h]

@[simp] theorem Chip.setTarget_regs (m : Chip) (t : Nat) (x : NTarget) : (m.setTarget t x).regs = m.regs := by
  unfold Chip.setTarget
  split <;> rfl

@[simp] theorem Chip.setTarget_rd (m : Chip) (t : Nat) (x : NTarget) (f : Field) (i : Nat) : (m.setTarget t x).rd f i = m.rd f i :=
  rd_regs (m.setTarget_regs t x) f i

theorem SameRegs.setTarget {l : List (Field × Nat)} {p : List Part} {x y : Chip} {t : Nat} {k : NTarget} (h : SameRegs l p x y) :
    SameRegs l p x (y.setTarget t k) := h.regs (y.setTarget_regs t k)

/-- The patrol round is no part of a target. -/
theorem Chip.setTarget_round (m : Chip) (t : Nat) (x : NTarget) :
    (m.setTarget t x).nand.roundMax = m.nand.roundMax ∧ (m.setTarget t x).nand.roundTb = m.nand.roundTb ∧ (m.setTarget t x).tb = m.tb := by
  unfold Chip.setTarget
  split <;> exact ⟨rfl, rfl, rfl⟩

@[simp] theorem Chip.wr_target (m : Chip) (f : Field) (i v t : Nat) : (m.wr f i v).target t = m.target t := rfl

@[simp] theorem Chip.count_target (m : Chip) (f : Field) (i n t : Nat) : (m.count f i n).target t = m.target t := rfl

@[simp] theorem Chip.stamp_target (m : Chip) (p : Period) (i t : Nat) : (m.stamp p i).target t = m.target t := rfl

@[simp] theorem Chip.nandDay_target (m : Chip) (er bad n t : Nat) : (m.nandDay er bad n).target t = m.target t := rfl

@[simp] theorem Chip.nandDay_rd (m : Chip) (er bad n : Nat) (f : Field) (i : Nat) : (m.nandDay er bad n).rd f i = m.rd f i := rfl

@[simp] theorem Chip.ncFlag_nand (m : Chip) (b : Nat) : (m.ncFlag b).nand = m.nand :=
  (Chip.ncFlag_moves .refl (within_refl _)).kept.nand (by decide)

@[simp] theorem Chip.ncFlag_target (m : Chip) (b t : Nat) : (m.ncFlag b).target t = m.target t := Chip.target_of_nand (m.ncFlag_nand b) t

@[simp] theorem Chip.medium_nand (m : Chip) : m.medium.nand = m.nand := (Chip.medium_moves .refl (within_refl _)).kept.nand (by decide)

@[simp] theorem Chip.medium_target (m : Chip) (t : Nat) : m.medium.target t = m.target t := Chip.target_of_nand m.medium_nand t

/-- Which targets are in use and hold is a matter of the medium and NC_CFG.T1_EN. -/
theorem Chip.targets_congr {x y : Chip} (hn : y.nand = x.nand) (he : y.rd NC_CFG_T1_EN = x.rd NC_CFG_T1_EN) : y.targets = x.targets := by
  simp [Chip.targets, Chip.inUse, Chip.rdB, he, Chip.target_of_nand hn]

/-- A target that has failed is none of them. -/
theorem Chip.targets_failed {m : Chip} {t : Nat} (h : (m.target t).ok = false) : m.targets.contains t = false := by
  simp [Chip.targets, h]

/-! ## Flags of the NAND controller (R303) -/

theorem Chip.ncFlag_rd (m : Chip) (b : Nat) {f : Field} (hp : f.part ≠ .rInt) (hf : f.id ≠ NC_FLAGS.id) (i : Nat) :
    (m.ncFlag b).rd f i = m.rd f i := Chip.raise_rd_ne _ _ _ _ _ _ _ _ hp hf

theorem Chip.ncFlag_bit (m : Chip) (b : Nat) (h : b < NC_FLAGS.w) : bitAt ((m.ncFlag b).rd NC_FLAGS) b = true :=
  Chip.raise_bit _ _ _ _ _ _ (by decide) h

/-- A flag stands while others are raised. -/
theorem Chip.ncFlag_stands {m : Chip} {b c : Nat} (h : bitAt (m.rd NC_FLAGS) c = true) (hc : c < NC_FLAGS.w) :
    bitAt ((m.ncFlag b).rd NC_FLAGS) c = true := by
  unfold Chip.ncFlag
  rw [Chip.raise_rd_same _ _ _ _ _ _ (by decide)]
  exact bitAt_setBit_of h hc

/-! ## The state of the medium (R300) -/

/-- The fields that a change of state writes. -/
def mstateFields : List (Field × Nat) := [(NC_STAT_MSTATE, 0), (NC_FLAGS, 0)]

theorem SameRegs.mstate {l : List (Field × Nat)} {p : List Part} {x y : Chip} {v : Nat} (h : SameRegs l p x y) (hi : Part.rInt ∈ p)
    (hl : mstateFields ⊆ l) : SameRegs l p x (y.mstate v) := by
  unfold Chip.mstate
  split
  · exact h
  · exact (h.wr (.inr (hl (by simp [mstateFields])))).raise hi (.inr (hl (by simp [mstateFields])))

/-- A register that is neither the state nor a flag is as before. -/
theorem Chip.mstate_rd_ne (m : Chip) (v : Nat) {f : Field} (hp : f.part ∉ [Part.rInt])
    (hf : (mstateFields.all fun q => q.1.id != f.id) = true) (i : Nat) : (m.mstate v).rd f i = m.rd f i :=
  (SameRegs.mstate (SameRegs.rfl _ _ m) (by simp) (List.Subset.refl _)).rd hp hf i

theorem Chip.mstate_stands {m : Chip} {v c : Nat} (h : bitAt (m.rd NC_FLAGS) c = true) (hc : c < NC_FLAGS.w) :
    bitAt ((m.mstate v).rd NC_FLAGS) c = true := by
  unfold Chip.mstate
  split
  · exact h
  · exact Chip.ncFlag_stands (by rwa [Chip.rd_wr_ne _ _ _ _ _ _ (by decide)]) hc

theorem Chip.mstate_rd (m : Chip) {v : Nat} (h : v < 2 ^ NC_STAT_MSTATE.w) : (m.mstate v).rd NC_STAT_MSTATE = v := by
  unfold Chip.mstate
  split
  · next same => exact same
  · rw [Chip.ncFlag_rd _ _ (by decide) (by decide), Chip.rd_wr_same, Nat.mod_eq_of_lt h]

/-- A mounted medium is in one of the states 1 to 5. -/
theorem Chip.mstateNow_range (m : Chip) : m.mstateNow ≠ 0 ∧ m.mstateNow < 2 ^ NC_STAT_MSTATE.w := by
  unfold Chip.mstateNow
  dsimp only
  repeat' split
  all_goals decide

/-! ## The figures of the medium -/

/-- The figures shown, before the state is formed. -/
def Chip.figures (m : Chip) : Chip :=
  let m := (m.wrB NC_STAT_T0_OK 0 (m.targets.contains 0)).wrB NC_STAT_T1_OK 0 (m.targets.contains 1)
  let m := (m.wr NC_BLK_GOOD 0 (m.sumLive NTarget.good)).wr NC_SPARE 0 (m.sumLive NTarget.spare)
  let m := m.wr NC_EC_MAX 0 ((m.targets.flatMap fun t => (m.target t).goodEc).foldl max 0)
  m.wr NC_EC_MEAN 0 m.ecMean

theorem Chip.medium_eq (m : Chip) :
    m.medium = if m.figures.rdB NC_CFG_EN ∧ m.figures.rd NC_STAT_MSTATE ≠ 0 then m.figures.mstate m.figures.mstateNow else m.figures := rfl

/-- The fields that the figures and the state write. -/
def mediumFields : List (Field × Nat) :=
  [(NC_STAT_T0_OK, 0), (NC_STAT_T1_OK, 0), (NC_BLK_GOOD, 0), (NC_SPARE, 0), (NC_EC_MAX, 0), (NC_EC_MEAN, 0)] ++ mstateFields

theorem SameRegs.figures {l : List (Field × Nat)} {p : List Part} {x y : Chip} (h : SameRegs l p x y) (hl : mediumFields ⊆ l) :
    SameRegs l p x y.figures := by
  unfold Chip.figures Chip.wrB
  dsimp only
  iterate 6 refine SameRegs.wr ?_ (.inr (hl (by simp [mediumFields])))
  exact h

theorem SameRegs.medium {l : List (Field × Nat)} {p : List Part} {x y : Chip} (h : SameRegs l p x y) (hi : Part.rInt ∈ p)
    (hl : mediumFields ⊆ l) : SameRegs l p x y.medium := by
  rw [Chip.medium_eq]
  split
  · exact (h.figures hl).mstate hi fun _ q => hl (List.mem_append_right _ q)
  · exact h.figures hl

/-- A register that is no figure of the medium is as before. -/
theorem Chip.medium_rd (m : Chip) {f : Field} (hp : f.part ∉ [Part.rInt]) (hf : (mediumFields.all fun q => q.1.id != f.id) = true)
    (i : Nat) : m.medium.rd f i = m.rd f i :=
  (SameRegs.medium (SameRegs.rfl _ _ m) (by simp) (List.Subset.refl _)).rd hp hf i

theorem Chip.medium_stands {m : Chip} {c : Nat} (h : bitAt (m.rd NC_FLAGS) c = true) (hc : c < NC_FLAGS.w) :
    bitAt (m.medium.rd NC_FLAGS) c = true := by
  have shown : m.figures.rd NC_FLAGS = m.rd NC_FLAGS := by
    unfold Chip.figures Chip.wrB
    iterate 6 refine (Chip.rd_wr_ne _ _ _ _ _ _ (by decide)).trans ?_
    rfl
  rw [Chip.medium_eq]
  split
  · exact Chip.mstate_stands (by rwa [shown]) hc
  · rwa [shown]

theorem b2n_lt (b : Bool) : b2n b < 2 := by cases b <;> decide

theorem Chip.figures_ok (m : Chip) :
    m.figures.rd NC_STAT_T0_OK = b2n (m.targets.contains 0) ∧ m.figures.rd NC_STAT_T1_OK = b2n (m.targets.contains 1) := by
  unfold Chip.figures Chip.wrB
  constructor
  · iterate 5 refine (Chip.rd_wr_ne _ _ _ _ _ _ (by decide)).trans ?_
    exact (Chip.rd_wr_same _ _ _ _).trans (Nat.mod_eq_of_lt (b2n_lt _))
  · iterate 4 refine (Chip.rd_wr_ne _ _ _ _ _ _ (by decide)).trans ?_
    exact (Chip.rd_wr_same _ _ _ _).trans (Nat.mod_eq_of_lt (b2n_lt _))

/-- T0_OK and T1_OK show the targets in use that hold (R299). -/
theorem Chip.medium_ok (m : Chip) :
    m.medium.rd NC_STAT_T0_OK = b2n (m.targets.contains 0) ∧ m.medium.rd NC_STAT_T1_OK = b2n (m.targets.contains 1) := by
  have kept : ∀ f : Field, f.part ∉ [Part.rInt] → (mstateFields.all fun q => q.1.id != f.id) = true → m.medium.rd f = m.figures.rd f := by
    intro f hp hf
    rw [Chip.medium_eq]
    split
    · exact Chip.mstate_rd_ne _ _ hp hf 0
    · rfl
  obtain ⟨t0, t1⟩ := m.figures_ok
  exact ⟨(kept _ (by decide) rfl).trans t0, (kept _ (by decide) rfl).trans t1⟩

theorem Chip.medium_targetOk (m : Chip) (u : Fin 2) : m.medium.targetOk u.val = m.targets.contains u.val := by
  obtain ⟨t0, t1⟩ := m.medium_ok
  have shown (b : Bool) : (b2n b != 0) = b := by cases b <;> rfl
  match u with
  | 0 => simp only [Chip.targetOk, Chip.rdB, t0, shown]; rfl
  | 1 => simp only [Chip.targetOk, Chip.rdB, t1, shown]; rfl

end Sys2Proof.Machine
end

section
/-! PROOFS. Blocks of the medium: a read, a codeword, a program, an erase, a block grown bad (R291, R292, R294, R295). -/

namespace Sys2Proof.Machine

/-! ## A page read (R295) -/

theorem tabDrop_put {α : Type} (t : Tab α) (k : Nat) (v : α) (p : Nat → Bool) (h : p k = true) : tabDrop (tabPut t k v) p = tabDrop t p := by
  induction t with
  | nil => simp [tabPut, tabDrop, h]
  | cons q r ih =>
    obtain ⟨j, w⟩ := q
    unfold tabPut
    split
    · simp [tabDrop, h]
    · split
      · next e => subst e; simp [tabDrop, h]
      · simp [tabDrop, ih]

/-- A target with one read more of a block. -/
def Chip.readOnce (m : Chip) (t b : Nat) : NTarget :=
  let x := m.target t
  let n := tabGet x.reads b 0 + 1
  { x with reads := tabPut x.reads b n, hot := if n = m.readLimit + 1 then tabPut x.hot b m.tb else x.hot }

@[simp] theorem Chip.blockRead_target (m : Chip) (t b : Nat) : (m.blockRead t b).target t = m.readOnce t b := m.setTarget_target _ _

@[simp] theorem Chip.blockRead_rd (m : Chip) (t b : Nat) (f : Field) (i : Nat) : (m.blockRead t b).rd f i = m.rd f i := m.setTarget_rd _ _ _ _

@[simp] theorem Chip.readOnce_reads (m : Chip) (t b : Nat) :
    tabGet (m.readOnce t b).reads b 0 = tabGet (m.target t).reads b 0 + 1 := tabGet_put_same _ _ _ _

/-- Without the block itself, the blocks read too often are as before. -/
theorem Chip.readOnce_hot (m : Chip) (t b : Nat) :
    tabDrop (m.readOnce t b).hot (· == b) = tabDrop (m.target t).hot (· == b) := by
  unfold Chip.readOnce
  dsimp only
  split
  · exact tabDrop_put _ _ _ _ (by simp)
  · rfl

/-! ## A codeword read (R291) -/

/-- The highest corrected count takes a codeword's. -/
def Chip.maxSeen (m : Chip) (c : Nat) : Chip := m.wr NC_ECC_MAXC_ALL 0 (max (m.rd NC_ECC_MAXC_ALL) c)

theorem Chip.maxSeen_all (m : Chip) (c : Nat) :
    (m.maxSeen c).rd NC_ECC_MAXC_ALL = max (m.rd NC_ECC_MAXC_ALL) c % 2 ^ NC_ECC_MAXC_ALL.w := Chip.rd_wr_same _ _ _ _

@[simp] theorem Chip.maxSeen_target (m : Chip) (c t : Nat) : (m.maxSeen c).target t = m.target t := rfl

theorem Chip.maxSeen_rd (m : Chip) (c : Nat) {f : Field} (h : f.id ≠ NC_ECC_MAXC_ALL.id) (i : Nat) : (m.maxSeen c).rd f i = m.rd f i :=
  Chip.rd_wr_ne _ _ _ _ _ _ h

/-- A target with a block in its queue for refresh. -/
def NTarget.queued (x : NTarget) (b : Nat) : NTarget := if x.queue.contains b then x else { x with queue := x.queue ++ [b] }

theorem NTarget.queued_contains (x : NTarget) (b : Nat) : (x.queued b).queue.contains b = true := by
  unfold NTarget.queued
  split
  · assumption
  · simp

theorem NTarget.queued_reads (x : NTarget) (b : Nat) : (x.queued b).reads = x.reads := by
  unfold NTarget.queued
  split <;> rfl

/-- A codeword over the threshold: its block is queued, counted and flagged. -/
def Chip.refreshAsked (m : Chip) (t b : Nat) : Chip :=
  ((if (m.target t).queue.contains b then m else m.setTarget t { m.target t with queue := (m.target t).queue ++ [b] }).count
    NC_CNT_REFRESH 0).ncFlag NC_FLAGS_REFRESH

@[simp] theorem Chip.refreshAsked_target (m : Chip) (t b : Nat) : (m.refreshAsked t b).target t = (m.target t).queued b := by
  unfold Chip.refreshAsked NTarget.queued
  split <;> simp

theorem Chip.refreshAsked_rd (m : Chip) (t b : Nat) {f : Field} (hp : f.part ≠ .rInt) (hf : f.id ≠ NC_FLAGS.id) (hc : f.id ≠ NC_CNT_REFRESH.id)
    (i : Nat) : (m.refreshAsked t b).rd f i = m.rd f i := by
  unfold Chip.refreshAsked
  rw [Chip.ncFlag_rd _ _ hp hf]
  refine (Chip.rd_wr_ne _ _ _ _ _ _ hc).trans ?_
  change Chip.rd (ite _ _ _) f i = _
  rw [Chip.rd_ite, Chip.setTarget_rd, ite_self]

theorem Chip.refreshAsked_flag (m : Chip) (t b : Nat) : bitAt ((m.refreshAsked t b).rd NC_FLAGS) NC_FLAGS_REFRESH = true :=
  Chip.ncFlag_bit _ _ (by decide)

theorem Chip.codeword_corrected {m : Chip} {t b c : Nat} (h : c ≤ 40) :
    m.codeword t b (some c) = if c ≤ m.refreshThr then m.maxSeen c else (m.maxSeen c).refreshAsked t b := by
  have thr : (m.maxSeen c).refreshThr = m.refreshThr := by simp only [Chip.refreshThr, Chip.maxSeen_rd _ _ (f := NC_CFG_REFRESH_THR) (by decide)]
  simp only [Chip.codeword, Option.filter, h, decide_true, if_true]
  change (if c ≤ (m.maxSeen c).refreshThr then m.maxSeen c else _) = _
  rw [thr]
  rfl

theorem Chip.codeword_over {m : Chip} {t b c : Nat} (h : c ≤ 40) (above : m.refreshThr < c) :
    m.codeword t b (some c) = (m.maxSeen c).refreshAsked t b := by
  rw [Chip.codeword_corrected h, if_neg (Nat.not_le.2 above)]

theorem Chip.codeword_maxAll {m : Chip} {t b c : Nat} (h : c ≤ 40) :
    (m.codeword t b (some c)).rd NC_ECC_MAXC_ALL = max (m.rd NC_ECC_MAXC_ALL) c % 2 ^ NC_ECC_MAXC_ALL.w := by
  rw [Chip.codeword_corrected h, Chip.rd_ite, Chip.refreshAsked_rd _ _ _ (by decide) (by decide) (by decide), ite_self, Chip.maxSeen_all]

/-- A corrected codeword changes nothing of its target but the queue. -/
theorem Chip.codeword_target {m : Chip} {t b c : Nat} (h : c ≤ 40) :
    ∃ q, (m.codeword t b (some c)).target t = { m.target t with queue := q } := by
  rw [Chip.codeword_corrected h]
  split
  · exact ⟨(m.target t).queue, rfl⟩
  · rw [Chip.refreshAsked_target, Chip.maxSeen_target]
    unfold NTarget.queued
    split
    · exact ⟨(m.target t).queue, rfl⟩
    · exact ⟨_, rfl⟩

theorem Chip.codeword_rd {m : Chip} {t b c : Nat} (h : c ≤ 40) {f : Field} (hp : f.part ≠ .rInt) (hf : f.id ≠ NC_FLAGS.id)
    (hc : f.id ≠ NC_CNT_REFRESH.id) (hm : f.id ≠ NC_ECC_MAXC_ALL.id) (i : Nat) : (m.codeword t b (some c)).rd f i = m.rd f i := by
  rw [Chip.codeword_corrected h, Chip.rd_ite, Chip.refreshAsked_rd _ _ _ hp hf hc, ite_self, Chip.maxSeen_rd _ _ hm]

/-- The patrol round goes on. -/
theorem Chip.codeword_round {m : Chip} {t b c : Nat} (h : c ≤ 40) :
    (m.codeword t b (some c)).nand.roundMax = m.nand.roundMax ∧ (m.codeword t b (some c)).nand.roundTb = m.nand.roundTb ∧
      (m.codeword t b (some c)).tb = m.tb := by
  have tb : (m.codeword t b (some c)).tb = m.tb := (Chip.codeword_moves .refl (within_refl _)).kept.tb (by decide)
  rw [Chip.codeword_corrected h] at tb ⊢
  split
  · exact ⟨rfl, rfl, rfl⟩
  · next above =>
    rw [if_neg above] at tb
    have asked : ((m.maxSeen c).refreshAsked t b).nand.roundMax = m.nand.roundMax ∧
        ((m.maxSeen c).refreshAsked t b).nand.roundTb = m.nand.roundTb := by
      unfold Chip.refreshAsked
      rw [Chip.ncFlag_nand]
      split
      · exact ⟨rfl, rfl⟩
      · obtain ⟨max, begun, -⟩ := (m.maxSeen c).setTarget_round t
          { (m.maxSeen c).target t with queue := ((m.maxSeen c).target t).queue ++ [b] }
        exact ⟨max, begun⟩
    exact ⟨asked.1, asked.2, tb⟩

/-! ## A block that takes data (R294) -/

theorem Chip.blockUse_used (m : Chip) (t b : Nat) : ((m.blockUse t (some b)).target t).used.contains b = true := by
  unfold Chip.blockUse
  dsimp only
  split
  · assumption
  · simp

theorem Chip.blockUse_target (m : Chip) (t : Nat) (o : Option Nat) : ∃ l, (m.blockUse t o).target t = { m.target t with used := l } := by
  unfold Chip.blockUse
  split
  · exact ⟨(m.target t).used, rfl⟩
  · dsimp only
    split
    · exact ⟨(m.target t).used, rfl⟩
    · exact ⟨_, m.setTarget_target _ _⟩

theorem SameRegs.blockUse {l : List (Field × Nat)} {p : List Part} {x y : Chip} {t : Nat} {o : Option Nat} (h : SameRegs l p x y) :
    SameRegs l p x (y.blockUse t o) := by
  unfold Chip.blockUse
  split
  · exact h
  · dsimp only
    split
    · exact h
    · exact h.setTarget

/-! ## A block grown bad (R292) -/

theorem Chip.grownBad_target (m : Chip) (t b : Nat) :
    ((m.grownBad t b).target t).bad = b :: (m.target t).bad ∧ ((m.grownBad t b).target t).grown = (m.target t).grown + 1 := by
  simp [Chip.grownBad]

theorem Chip.grownBad_flag (m : Chip) (t b : Nat) : bitAt ((m.grownBad t b).rd NC_FLAGS) NC_FLAGS_GROWN_BAD = true :=
  Chip.medium_stands (Chip.ncFlag_bit _ _ (by decide)) (by decide)

theorem Chip.grownBad_stands {m : Chip} {c : Nat} (h : bitAt (m.rd NC_FLAGS) c = true) (hc : c < NC_FLAGS.w) (t b : Nat) :
    bitAt ((m.grownBad t b).rd NC_FLAGS) c = true := by
  refine Chip.medium_stands (Chip.ncFlag_stands ?_ hc) hc
  rwa [Chip.nandDay_rd, Chip.setTarget_rd]

/-! ## The end of an operation (R291, R292) -/

theorem exec_nandOperationDone {u : Fin 2} {e : NandEnd} {s : State} (run : s.chip.runs islMgmt = true) :
    exec (.nandOperationDone u e) s = .next { s with chip := s.chip.nandDone u.val e } := by
  change execNandOperationDone u e s = _
  simp only [execNandOperationDone, State.upd_eq, run, if_true]

theorem Chip.nandDone_read {m : Chip} {t b c : Nat} (good : m.blockOk t b = true) (h : c ≤ 40) (above : m.refreshThr < c) :
    m.nandDone t (.read b (some c)) = ((m.blockRead t b).maxSeen c).refreshAsked t b := by
  have thr : (m.blockRead t b).refreshThr = m.refreshThr := by simp [Chip.refreshThr]
  simp only [Chip.nandDone, good, if_true]
  exact Chip.codeword_over h (by rwa [thr])

theorem Chip.nandDone_verifyGood {m : Chip} {t b c : Nat} (good : m.blockOk t b = true) (under : c ≤ m.refreshThr) (h : c ≤ 40) :
    m.nandDone t (.verify b (some c)) = (m.blockRead t b).maxSeen c := by
  have thr : ((m.blockRead t b).maxSeen c).refreshThr = m.refreshThr := by
    simp only [Chip.refreshThr, Chip.maxSeen_rd _ _ (f := NC_CFG_REFRESH_THR) (by decide), Chip.blockRead_rd]
  simp only [Chip.nandDone, good, if_true, Chip.verifyEnd, Option.filter, h, decide_true]
  change (if (some c).any (fun x => decide (x ≤ ((m.blockRead t b).maxSeen c).refreshThr)) = true then (m.blockRead t b).maxSeen c else _) = _
  rw [thr]
  exact if_pos (by simpa using under)

/-- A codeword that cannot be verified makes its block unsure. -/
theorem Chip.nandDone_verifyFails {m : Chip} {t b : Nat} (good : m.blockOk t b = true) (sure : (m.target t).unsure.contains b = false) :
    m.nandDone t (.verify b none) =
      (m.blockRead t b).setTarget t { m.readOnce t b with unsure := b :: (m.target t).unsure } := by
  have first : ¬ (((m.blockRead t b).target t).unsure.contains b = true) := by
    rw [Chip.blockRead_target]
    exact Bool.eq_false_iff.1 sure
  simp only [Chip.nandDone, good, if_true, Chip.verifyEnd, Option.filter, Option.any]
  rw [if_neg (by decide), if_neg first, Chip.blockRead_target]
  rfl

theorem Chip.nandDone_program {m : Chip} {t b : Nat} (good : m.blockOk t b = true) (whole : (m.target t).torn.contains b = false)
    (may : (m.target t).mayProgram b = true) (failed : Bool) :
    m.nandDone t (.program b failed) =
      if failed then ((m.blockUse t (some b)).ncFlag NC_FLAGS_PROG_FAIL).grownBad t b else m.blockUse t (some b) := by
  simp only [Chip.nandDone, good, whole, may]
  rfl

/-- A program that fails: its block has grown bad, and both flags stand. -/
theorem Chip.programFailed_shows (m : Chip) (t b : Nat) {y : Chip} (ends : ((m.blockUse t (some b)).ncFlag NC_FLAGS_PROG_FAIL).grownBad t b = y) :
    (y.target t).bad = b :: (m.target t).bad ∧ (y.target t).grown = (m.target t).grown + 1 ∧
      bitAt (y.rd NC_FLAGS) NC_FLAGS_PROG_FAIL = true ∧ bitAt (y.rd NC_FLAGS) NC_FLAGS_GROWN_BAD = true := by
  obtain ⟨l, kept⟩ := m.blockUse_target t (some b)
  obtain ⟨bad, grown⟩ := ((m.blockUse t (some b)).ncFlag NC_FLAGS_PROG_FAIL).grownBad_target t b
  have raised := Chip.grownBad_stands ((m.blockUse t (some b)).ncFlag_bit NC_FLAGS_PROG_FAIL (by decide)) (by decide) t b
  have flag := ((m.blockUse t (some b)).ncFlag NC_FLAGS_PROG_FAIL).grownBad_flag t b
  rw [Chip.ncFlag_target, kept] at bad grown
  rw [ends] at bad grown raised flag
  exact ⟨bad, grown, raised, flag⟩

/-- A target with a block erased once more. -/
def NTarget.erasedOnce (x : NTarget) (b : Nat) : NTarget :=
  { x with
    torn := x.torn.filter (· != b), ec := tabPut x.ec b (x.ecOf b + 1), reads := tabDrop x.reads (· == b), used := x.used.filter (· != b)
    hot := tabDrop x.hot (· == b) }

theorem Chip.nandDone_erase {m : Chip} {t b : Nat} (good : m.blockOk t b = true) :
    m.nandDone t (.erase b false) = ((m.setTarget t ((m.target t).erasedOnce b)).nandDay 1 0 0).medium := by
  simp only [Chip.nandDone, good]
  rfl

theorem Chip.nandDone_logFails {m : Chip} {t : Nat} (held : m.targets.contains t = true) :
    m.nandDone t (.log true) = { m with nand := { m.nand with logFail := true } }.medium := by
  simp only [Chip.nandDone, held]
  rfl

end Sys2Proof.Machine
end

section
/-! PROOFS. The manager's own work on the medium: refresh, patrol, levelling, a target that fails, the daily figures (R291-R295, R299, R301). -/

namespace Sys2Proof.Machine

theorem Period.length_pos (p : Period) : 0 < p.length := by cases p <;> decide

/-- A happening that has come now is not due before its period has passed. -/
@[simp] theorem Chip.due_stamp (m : Chip) (p : Period) (i : Nat) : (m.stamp p i).due p i = false := by
  have := p.length_pos
  have held : tabGet (m.stamp p i).stamps (p.no * 1024 + i) 0 = m.tb + 1 := tabGet_put_same _ _ _ _
  have tb : (m.stamp p i).tb = m.tb := rfl
  simp [Chip.due, held, tb]
  omega

/-! ## Refresh (R291, R294) -/

theorem exec_nandRefresh (u : Fin 2) (e : Bool) (s : State) :
    exec (.nandRefresh u e) s = .next { s with chip := s.chip.nandRefresh u.val e } := rfl

/-- The block queued first leaves the queue, and the erased block with the lowest erase count takes its data. -/
theorem Chip.nandRefresh_first {m : Chip} {t b : Nat} {r : List Nat} (first : (m.target t).queue = b :: r) (good : m.blockOk t b = true)
    (w : m.writable = true) (run : m.runs islMgmt = true) :
    m.nandRefresh t false = (m.setTarget t { m.target t with queue := r }).blockUse t (m.target t).lowest := by
  simp [Chip.nandRefresh, first, good, w, run]

theorem Chip.blockUse_all (m : Chip) (t : Nat) (o : Option Nat) :
    (o.all fun c => ((m.blockUse t o).target t).used.contains c) = true := by
  cases o with
  | none => rfl
  | some c => exact m.blockUse_used t c

/-! ## Patrol (R295) -/

theorem exec_nandPatrolRead (u : Fin 2) (b : Nat) (c : Option Nat) (e : Bool) (s : State) :
    exec (.nandPatrolRead u b c e) s = .next { s with chip := s.chip.patrol u.val b c e } := rfl

/-- The patrol has read a page of a block and found so many corrected bits; the round is not looked at yet. -/
def Chip.patrolled (m : Chip) (t b c : Nat) : Chip :=
  let m := (m.blockRead t b).codeword t b (some c)
  let m := m.setTarget t { m.target t with hot := tabDrop (m.target t).hot (· == b) }
  { m with nand := { m.nand with roundMax := max m.nand.roundMax c } }

/-- The round of the patrol is shown, and the next begins. -/
def Chip.roundShown (m : Chip) : Chip :=
  let m := (m.wr NC_ECC_MAXC_ROUND 0 m.nand.roundMax).wr NC_PROG_ROUND 0 0
  { m with nand := { m.nand with roundMax := 0, roundTb := m.tb } }.ncFlag NC_FLAGS_PATROL_DONE

theorem Chip.patrol_corrected {m : Chip} {t b c : Nat} {e : Bool} (run : m.runs islMgmt = true) (good : m.blockOk t b = true)
    (may : m.patrolMay t b = true) (h : c ≤ 40) :
    m.patrol t b (some c) e =
      if e ∧ (m.patrolled t b c).nand.roundTb + (m.patrolled t b c).roundLen ≤ (m.patrolled t b c).tb then (m.patrolled t b c).roundShown
      else (m.patrolled t b c).free.2.wr NC_PROG_ROUND 0 ((m.patrolled t b c).free.1 % 10001).toNat := by
  simp only [Chip.patrol, run, good, may, Option.filter, h, decide_true]
  rfl

theorem Chip.patrolled_target (m : Chip) {t b c : Nat} (h : c ≤ 40) :
    ∃ q, (m.patrolled t b c).target t = { m.readOnce t b with queue := q, hot := tabDrop (m.target t).hot (· == b) } := by
  obtain ⟨q, kept⟩ := Chip.codeword_target (m := m.blockRead t b) (t := t) (b := b) h
  refine ⟨q, ?_⟩
  refine (Chip.setTarget_target ((m.blockRead t b).codeword t b (some c)) t _).trans ?_
  rw [kept, Chip.blockRead_target, Chip.readOnce_hot]

theorem Chip.patrolled_regs (m : Chip) (t b c : Nat) : (m.patrolled t b c).regs = ((m.blockRead t b).codeword t b (some c)).regs :=
  Chip.setTarget_regs _ _ _

theorem Chip.patrolled_maxAll (m : Chip) {t b c : Nat} (h : c ≤ 40) :
    (m.patrolled t b c).rd NC_ECC_MAXC_ALL = max (m.rd NC_ECC_MAXC_ALL) c % 2 ^ NC_ECC_MAXC_ALL.w := by
  rw [rd_regs (m.patrolled_regs t b c), Chip.codeword_maxAll h, Chip.blockRead_rd]

theorem Chip.patrolled_roundLen (m : Chip) {t b c : Nat} (h : c ≤ 40) : (m.patrolled t b c).roundLen = m.roundLen := by
  have hours : (m.patrolled t b c).rd NC_PATROL_HOURS = m.rd NC_PATROL_HOURS := by
    rw [rd_regs (m.patrolled_regs t b c), Chip.codeword_rd h (by decide) (by decide) (by decide) (by decide), Chip.blockRead_rd]
  unfold Chip.roundLen
  rw [hours]

/-- The round's highest count takes that of the page, and its start stands. -/
theorem Chip.patrolled_round (m : Chip) {t b c : Nat} (h : c ≤ 40) :
    (m.patrolled t b c).nand.roundMax = max m.nand.roundMax c ∧ (m.patrolled t b c).nand.roundTb = m.nand.roundTb ∧
      (m.patrolled t b c).tb = m.tb := by
  obtain ⟨readMax, readTb, readNow⟩ := m.setTarget_round t (m.readOnce t b)
  obtain ⟨codeMax, codeTb, codeNow⟩ := Chip.codeword_round (m := m.blockRead t b) (t := t) (b := b) h
  obtain ⟨dropMax, dropTb, dropNow⟩ := ((m.blockRead t b).codeword t b (some c)).setTarget_round t
    { ((m.blockRead t b).codeword t b (some c)).target t with
      hot := tabDrop (((m.blockRead t b).codeword t b (some c)).target t).hot (· == b) }
  exact ⟨congrArg (max · c) (dropMax.trans (codeMax.trans readMax)), dropTb.trans (codeTb.trans readTb), dropNow.trans (codeNow.trans readNow)⟩

@[simp] theorem Chip.roundShown_target (m : Chip) (t : Nat) : m.roundShown.target t = m.target t := Chip.ncFlag_target _ _ _

theorem Chip.roundShown_rd (m : Chip) {f : Field} (hp : f.part ≠ .rInt) (hf : f.id ≠ NC_FLAGS.id) (hr : f.id ≠ NC_ECC_MAXC_ROUND.id)
    (hg : f.id ≠ NC_PROG_ROUND.id) (i : Nat) : m.roundShown.rd f i = m.rd f i :=
  (Chip.ncFlag_rd _ _ hp hf _).trans ((Chip.rd_wr_ne _ _ _ _ _ _ hg).trans (Chip.rd_wr_ne _ _ _ _ _ _ hr))

/-- What the end of a round shows. -/
theorem Chip.roundShown_shows (m : Chip) :
    m.roundShown.rd NC_ECC_MAXC_ROUND = m.nand.roundMax % 2 ^ NC_ECC_MAXC_ROUND.w ∧ m.roundShown.rd NC_PROG_ROUND = 0 ∧
      m.roundShown.nand.roundMax = 0 ∧ bitAt (m.roundShown.rd NC_FLAGS) NC_FLAGS_PATROL_DONE = true := by
  refine ⟨?_, ?_, ?_, Chip.ncFlag_bit _ _ (by decide)⟩
  · refine (Chip.ncFlag_rd _ _ (by decide) (by decide) _).trans ?_
    exact (Chip.rd_wr_ne _ _ _ _ _ _ (by decide)).trans (Chip.rd_wr_same _ _ _ _)
  · exact (Chip.ncFlag_rd _ _ (by decide) (by decide) _).trans (Chip.rd_wr_same _ _ _ _)
  · unfold Chip.roundShown
    rw [Chip.ncFlag_nand]

/-- Where a round ends, the patrol shows it. -/
theorem Chip.patrol_roundEnds {m : Chip} {t b c : Nat} (run : m.runs islMgmt = true) (good : m.blockOk t b = true)
    (may : m.patrolMay t b = true) (h : c ≤ 40) (hours : m.nand.roundTb + m.roundLen ≤ m.tb) :
    m.patrol t b (some c) true = (m.patrolled t b c).roundShown := by
  obtain ⟨-, begun, now⟩ := m.patrolled_round (t := t) (b := b) h
  rw [Chip.patrol_corrected run good may h, begun, now, Chip.patrolled_roundLen _ h, if_pos ⟨rfl, hours⟩]

/-- Whether a round ends or not, the target is as the page left it, and so is a register that shows no round. -/
theorem Chip.patrol_page {m : Chip} {t b c : Nat} {e : Bool} (run : m.runs islMgmt = true) (good : m.blockOk t b = true)
    (may : m.patrolMay t b = true) (h : c ≤ 40) :
    (m.patrol t b (some c) e).target t = (m.patrolled t b c).target t ∧
      (m.patrol t b (some c) e).rd NC_ECC_MAXC_ALL = (m.patrolled t b c).rd NC_ECC_MAXC_ALL := by
  rw [Chip.patrol_corrected run good may h]
  split
  · exact ⟨Chip.roundShown_target _ _, Chip.roundShown_rd _ (by decide) (by decide) (by decide) (by decide) _⟩
  · exact ⟨rfl, Chip.rd_wr_ne _ _ _ _ _ _ (by decide)⟩

/-! ## Levelling (R294) -/

theorem exec_nandWearLevelMove (u : Fin 2) (s : State) :
    exec (.nandWearLevelMove u) s = .next { s with chip := s.chip.levelMove u.val } := rfl

/-- The most-erased erased block takes data, once a second. -/
theorem Chip.levelMove_due {m : Chip} {t c : Nat} (held : m.targets.contains t = true) (w : m.writable = true) (run : m.runs islMgmt = true)
    (due : m.due .nandWear = true) (wide : max 1 (m.rd NC_CFG_WL_DELTA) < (m.target t).spread) (most : (m.target t).highest = some c) :
    m.levelMove t = (m.blockUse t (some c)).stamp .nandWear := by
  rw [← most]
  exact if_pos ⟨held, w, run, due, wide, by rw [most]; rfl⟩

/-! ## A target that fails (R299) -/

theorem exec_nandTargetFail (u : Fin 2) (s : State) :
    exec (.nandTargetFail u) s = .next { s with chip := s.chip.targetFail u.val } := rfl

/-- The target is out of use, before the loads from it end. -/
def Chip.targetDown (m : Chip) (t : Nat) : Chip := ((m.setTarget t { m.target t with ok := false }).ncFlag NC_FLAGS_TARGET_FAIL).medium

/-- The loads from failed targets end. -/
def Chip.loadsLost (m : Chip) : Chip :=
  (List.range 88).foldl (fun m k => if m.tileState k = 1 ∧ m.tileGone (m.tileKeyOf k) then m.loadDone k true else m) m

theorem Chip.targetFail_held {m : Chip} {t : Nat} (held : m.targets.contains t = true) (run : m.runs islMgmt = true) :
    m.targetFail t = (m.targetDown t).loadsLost := if_pos ⟨held, run⟩

/-- The loads are the map engine's: the medium and its registers stand. -/
theorem Chip.loadsLost_moves (m : Chip) : Moves [.rInt, .rMap, .mem, .asleep, .accums, .map, .sys, .cyc] m m.loadsLost := by
  refine Moves.foldl .refl fun y k h => Moves.ite ?_ h
  exact Chip.loadDone_moves h (within_refl _)

theorem Chip.targetDown_target (m : Chip) (t : Nat) : ((m.targetDown t).target t).ok = false := by simp [Chip.targetDown]

theorem Chip.targetDown_flag (m : Chip) (t : Nat) : bitAt ((m.targetDown t).rd NC_FLAGS) NC_FLAGS_TARGET_FAIL = true :=
  Chip.medium_stands (Chip.ncFlag_bit _ _ (by decide)) (by decide)

theorem Chip.targetDown_targetOk (m : Chip) (u : Fin 2) : (m.targetDown u.val).targetOk u.val = false :=
  (Chip.medium_targetOk _ u).trans (Chip.targets_failed (by simp))

theorem Chip.targetOk_congr {x y : Chip} (h : ∀ f : Field, f.part = .rNc → y.rd f = x.rd f) (t : Nat) : y.targetOk t = x.targetOk t := by
  simp only [Chip.targetOk, Chip.rdB, h NC_STAT_T0_OK (by decide), h NC_STAT_T1_OK (by decide)]

/-- A target that fails is out of use, with its flag. -/
theorem Chip.targetFail_shows {m : Chip} {u : Fin 2} (held : m.targets.contains u.val = true) (run : m.runs islMgmt = true) :
    ((m.targetFail u.val).target u.val).ok = false ∧ (m.targetFail u.val).targets.contains u.val = false ∧
      (m.targetFail u.val).targetOk u.val = false ∧ bitAt ((m.targetFail u.val).rd NC_FLAGS) NC_FLAGS_TARGET_FAIL = true := by
  rw [Chip.targetFail_held held run]
  have moves := (m.targetDown u.val).loadsLost_moves
  have regs (f : Field) (hp : f.part = .rNc) : (m.targetDown u.val).loadsLost.rd f = (m.targetDown u.val).rd f :=
    moves.rd f 0 (by rw [hp]; decide)
  have down : ((m.targetDown u.val).loadsLost.target u.val).ok = false := by
    rw [moves.target (by decide), Chip.targetDown_target]
  refine ⟨down, Chip.targets_failed down, ?_, ?_⟩
  · rw [Chip.targetOk_congr regs, Chip.targetDown_targetOk]
  · rw [regs NC_FLAGS (by decide), Chip.targetDown_flag]

/-! ## The daily figures (R301) -/

theorem exec_nandEolCompute (s : State) : exec (.nandEolCompute) s = .next { s with chip := s.chip.nandEol } := rfl

/-- The mean erase count is a matter of the medium and the targets in use. -/
theorem Chip.ecMean_congr {x y : Chip} (hn : y.nand = x.nand) (he : y.rd NC_CFG_T1_EN = x.rd NC_CFG_T1_EN) : y.ecMean = x.ecMean := by
  have total (f : NTarget → Nat) : y.sumLive f = x.sumLive f := by
    simp only [Chip.sumLive, Chip.targets_congr hn he, Chip.target_of_nand hn]
  simp only [Chip.ecMean, total]

/-- The endurance used, in %. -/
def Chip.usedNow (m : Chip) : Nat := min 255 (100 * m.ecMean / max 1 m.endurance)

/-- The end of life, the endurance used and the writes shown. -/
def Chip.eolShown (m : Chip) (eol writes : Nat) : Chip :=
  ((m.wr NC_EOL_EOL_DAYS 0 eol).wr NC_EOL_USED 0 m.usedNow).wr NC_WRITES 0 writes

theorem Chip.nandEol_due {m : Chip} (live : m.targets ≠ []) (up : m.gelow.up = true) (run : m.runs islMgmt = true)
    (due : m.due .nandEol = true) : ∃ eol writes, m.nandEol = ((m.stamp .nandEol).eolShown eol writes).medium := by
  unfold Chip.nandEol
  rw [if_pos ⟨live, up, run, due⟩]
  exact ⟨_, _, rfl⟩

theorem Chip.stamp_usedNow (m : Chip) (p : Period) (i : Nat) : (m.stamp p i).usedNow = m.usedNow := by
  have mean : (m.stamp p i).ecMean = m.ecMean := Chip.ecMean_congr rfl rfl
  have rated : (m.stamp p i).endurance = m.endurance := rfl
  simp only [Chip.usedNow, mean, rated]

theorem Chip.eolShown_used (m : Chip) (eol writes : Nat) : (m.eolShown eol writes).rd NC_EOL_USED = m.usedNow := by
  refine (Chip.rd_wr_ne _ _ _ _ _ _ (by decide)).trans ((Chip.rd_wr_same _ _ _ _).trans ?_)
  exact Nat.mod_eq_of_lt (Nat.lt_of_le_of_lt (Nat.min_le_left _ _) (by decide))

theorem Chip.medium_due (m : Chip) (p : Period) (i : Nat) : m.medium.due p i = m.due p i := by
  have kept := (Chip.medium_moves (m := m) .refl (within_refl _)).kept
  simp only [Chip.due, kept.stamps (by decide), kept.tb (by decide)]

end Sys2Proof.Machine
end

section
/-! PROOFS. The mount of the medium: the target accepted, the geometry shown, the state formed, the mailboxes answered (R288, R289, R300). -/

namespace Sys2Proof.Machine

/-! ## Mount (R288, R289) -/

/-- A target that is accepted is in use with the geometry of its parameter page. -/
theorem Chip.mountTarget_accepted {m : Chip} {p : NandPage} (t : Nat) (ok : NandPage.accepted p = true) (cut : List NandCut) :
    ∃ x : NTarget, m.mountTarget t (some p) cut = m.setTarget t x ∧ x.ok = true ∧ x.blocks = p.blocks := by
  simp only [Chip.mountTarget, Option.filter, ok, if_true]
  exact ⟨_, rfl, rfl, rfl⟩

/-- The geometry of a parameter page shown. -/
def Chip.pageShown (m : Chip) (p : NandPage) : Chip :=
  (((m.wr NC_GEOM_PAGE 0 (p.pageBytes / 8192)).wr NC_GEOM_PPB 0 p.log2Ppb).wr NC_GEOM2_BLOCKS 0 p.blocks).wr NC_ENDUR 0 p.endurance

theorem Chip.geometry_accepted {m : Chip} {p : NandPage} (ok : NandPage.accepted p = true) : m.geometry [some p] = m.pageShown p := by
  simp only [Chip.geometry, List.findSome?, Option.filter, ok, if_true]
  rfl

/-- The target stands in its place with its geometry shown. -/
def Chip.placed (m : Chip) (x : NTarget) (p : NandPage) : Chip := ((m.wr NC_ECC_MAXC_ALL 0 0).setTarget 0 x).pageShown p

/-- The figures of the medium are shown with it; its state is not formed yet. -/
def Chip.mounting (m : Chip) (x : NTarget) (p : NandPage) : Chip := (m.placed x p).medium

/-- The mount ends: the patrol round begins, and Gelow takes what the medium keeps. -/
def Chip.mounted (m : Chip) : Chip :=
  { m with nand := { m.nand with roundTb := m.tb, roundMax := 0 } }.wearRestore.ncFlag NC_FLAGS_MOUNTED

theorem Chip.mounting_target (m : Chip) (x : NTarget) (p : NandPage) : (m.mounting x p).target 0 = x :=
  (Chip.medium_target _ _).trans (Chip.setTarget_target _ _ _)

/-- The fields that show a mounted target. -/
def mountFields : List (Field × Nat) :=
  [(NC_ECC_MAXC_ALL, 0), (NC_GEOM_PAGE, 0), (NC_GEOM_PPB, 0), (NC_GEOM2_BLOCKS, 0), (NC_ENDUR, 0)] ++ mediumFields

/-- A register that the mount of a target does not show. -/
theorem Chip.mounting_rd (m : Chip) (x : NTarget) (p : NandPage) {f : Field} (hp : f.part ∉ [Part.rInt])
    (hf : (mountFields.all fun q => q.1.id != f.id) = true) (i : Nat) : (m.mounting x p).rd f i = m.rd f i := by
  refine SameRegs.rd (l := mountFields) (p := [.rInt]) ?_ hp hf i
  refine SameRegs.medium ?_ (by simp) (List.subset_append_right _ _)
  iterate 4 refine SameRegs.wr ?_ (.inr (by simp [mountFields]))
  exact SameRegs.setTarget ((SameRegs.rfl _ _ _).wr (.inr (by simp [mountFields])))

/-- The mount shows the target's geometry and that it holds. -/
theorem Chip.mounting_shows {m : Chip} {x : NTarget} (p : NandPage) (ok : x.ok = true) (alone : m.inUse 1 = false) :
    (m.mounting x p).rd NC_STAT_T0_OK = 1 ∧ (m.mounting x p).rd NC_STAT_T1_OK = 0 ∧
      (m.mounting x p).rd NC_GEOM2_BLOCKS = p.blocks % 2 ^ NC_GEOM2_BLOCKS.w ∧
      (m.mounting x p).rd NC_ENDUR = p.endurance % 2 ^ NC_ENDUR.w ∧ (m.mounting x p).targets ≠ [] := by
  have page : (m.placed x p).targets = [0] := by
    have en : (m.placed x p).inUse 1 = false := by
      refine Eq.trans (congrArg (fun n : Nat => n != 0) ?_) alone
      unfold Chip.placed Chip.pageShown
      iterate 4 refine (Chip.rd_wr_ne _ _ _ _ _ _ (by decide)).trans ?_
      exact (Chip.setTarget_rd _ _ _ _ _).trans (Chip.rd_wr_ne _ _ _ _ _ _ (by decide))
    have held : (m.placed x p).target 0 = x := Chip.setTarget_target _ _ _
    have first : (m.placed x p).inUse 0 = true := rfl
    simp [Chip.targets, en, held, first, ok]
  obtain ⟨t0, t1⟩ := (m.placed x p).medium_ok
  rw [page] at t0 t1
  refine ⟨t0, t1, ?_, ?_, ?_⟩
  · exact (Chip.medium_rd _ (by decide) rfl _).trans ((Chip.rd_wr_ne _ _ _ _ _ _ (by decide)).trans (Chip.rd_wr_same _ _ _ _))
  · exact (Chip.medium_rd _ (by decide) rfl _).trans (Chip.rd_wr_same _ _ _ _)
  · rw [Chip.mounting, Chip.targets_congr (Chip.medium_nand _) (Chip.medium_rd _ (by decide) rfl _), page]
    simp

/-- The medium is mounted with its one target in use. -/
theorem Chip.nandMount_accepted {m : Chip} {p : NandPage}
    (ready : ¬ (!m.rdB NC_CFG_EN ∨ m.rd NC_STAT_MSTATE ≠ 0 ∨ !m.gelow.up ∨ !m.runs islMgmt)) (alone : m.inUse 1 = false)
    (ok : NandPage.accepted p = true) :
    ∃ x : NTarget, x.ok = true ∧ x.blocks = p.blocks ∧
      m.nandMount (some p) none [] = ((m.mounting x p).mstate (m.mounting x p).mstateNow).mounted := by
  obtain ⟨x, put, held, blocks⟩ := Chip.mountTarget_accepted (m := m.wr NC_ECC_MAXC_ALL 0 0) 0 ok []
  refine ⟨x, held, blocks, ?_⟩
  have placed : ((m.wr NC_ECC_MAXC_ALL 0 0).setTarget 0 x).inUse 1 = false := by
    rw [← alone]
    exact congrArg (fun n : Nat => n != 0) ((Chip.setTarget_rd _ _ _ _ _).trans (Chip.rd_wr_ne _ _ _ _ _ _ (by decide)))
  have live : ((m.mounting x p).mstate (m.mounting x p).mstateNow).targets ≠ [] := by
    obtain ⟨-, -, -, -, one⟩ := Chip.mounting_shows p held alone
    rwa [Chip.targets_congr ((Chip.mstate_moves .refl (within_refl _)).kept.nand (by decide))
      (Chip.mstate_rd_ne _ _ (by decide) rfl 0)]
  unfold Chip.nandMount
  rw [if_neg ready]
  extract_lets cleared first both shown formed uncut
  have hfirst : first = cleared.setTarget 0 x := put
  have hboth : both = first := if_neg (by rw [hfirst, placed]; decide)
  have hshown : shown = m.mounting x p := by
    change Chip.medium (both.geometry (ite _ _ _)) = _
    rw [hboth, hfirst, if_neg (by rw [placed]; decide), Chip.geometry_accepted ok]
    rfl
  have hformed : formed = (m.mounting x p).mstate (m.mounting x p).mstateNow := by rw [← hshown]
  have huncut : uncut = formed := if_neg Bool.false_ne_true
  rw [← hformed, ← huncut] at live ⊢
  exact if_neg live

/-- What a mounted medium keeps goes to the wear and capacitor models; its targets and its registers stand. -/
theorem Chip.mounted_target (m : Chip) : m.mounted.target 0 = m.target 0 :=
  (Chip.ncFlag_target _ _ _).trans (((Chip.wearRestore_moves .refl (within_refl _)).target (by decide) 0).trans rfl)

theorem Chip.mounted_rd (m : Chip) {f : Field} (hp : f.part = .rNc) (hf : f.id ≠ NC_FLAGS.id) (i : Nat) : m.mounted.rd f i = m.rd f i := by
  refine (Chip.ncFlag_rd _ _ (by rw [hp]; decide) hf i).trans ?_
  exact (Chip.wearRestore_moves .refl (within_refl _)).rd f i (by rw [hp]; decide)

/-! ## The mount and the mailboxes that wait for it -/

theorem exec_nandMount (p0 p1 : Option NandPage) (cut : List NandCut) (s : State) :
    exec (.nandMount p0 p1 cut) s = .next { s with chip := s.chip.mountEnd p0 p1 cut } := rfl

/-- The answers to the waiting mailboxes leave the medium and its registers. -/
theorem Chip.mountsDone_moves_self (m : Chip) : Moves replyParts m m.mountsDone := Chip.mountsDone_moves .refl (within_refl _)

theorem Chip.mountEnd_accepted {m : Chip} {p : NandPage} (en : m.rd NC_CFG_EN = 1) (blank : m.rd NC_STAT_MSTATE = 0)
    (up : m.gelow.up = true) (run : m.runs islMgmt = true) (alone : m.inUse 1 = false) (ok : NandPage.accepted p = true) :
    ∃ x : NTarget, x.ok = true ∧ x.blocks = p.blocks ∧
      m.mountEnd (some p) none [] = ((m.mounting x p).mstate (m.mounting x p).mstateNow).mounted.mountsDone := by
  have ready : ¬ (!m.rdB NC_CFG_EN ∨ m.rd NC_STAT_MSTATE ≠ 0 ∨ !m.gelow.up ∨ !m.runs islMgmt) := by simp [Chip.rdB, en, blank, up, run]
  obtain ⟨x, held, blocks, mount⟩ := Chip.nandMount_accepted ready alone ok
  exact ⟨x, held, blocks, (if_neg ready).trans (congrArg Chip.mountsDone mount)⟩

/-- What stands of a medium once its mount has ended and been answered. -/
theorem Chip.mounted_answered (m : Chip) :
    (∀ f : Field, f.part = .rNc → f.id ≠ NC_FLAGS.id → m.mounted.mountsDone.rd f = m.rd f) ∧
      m.mounted.mountsDone.target 0 = m.target 0 ∧ bitAt (m.mounted.mountsDone.rd NC_FLAGS) NC_FLAGS_MOUNTED = true := by
  have moves := m.mounted.mountsDone_moves_self
  have regs (f : Field) (hp : f.part = .rNc) : m.mounted.mountsDone.rd f = m.mounted.rd f := moves.rd f 0 (by rw [hp]; decide)
  refine ⟨fun f hp hf => (regs f hp).trans (m.mounted_rd hp hf 0), ?_, ?_⟩
  · exact (moves.target (by decide) 0).trans m.mounted_target
  · rw [regs NC_FLAGS (by decide)]
    exact Chip.ncFlag_bit _ _ (by decide)

theorem Chip.target_zero (m : Chip) : m.target 0 = m.nand.t0 := rfl

/-- A mount of an accepted target alone: what it leaves of the medium, and what it shows. -/
theorem Chip.mountEnd_shows {m : Chip} {p : NandPage} (en : m.rd NC_CFG_EN = 1) (blank : m.rd NC_STAT_MSTATE = 0)
    (up : m.gelow.up = true) (run : m.runs islMgmt = true) (alone : m.inUse 1 = false) (ok : NandPage.accepted p = true) {y : Chip}
    (ends : m.mountEnd (some p) none [] = y) :
    y.nand.t0.ok = true ∧ y.nand.t0.blocks = p.blocks ∧ y.rd NC_CFG_EN = 1 ∧ y.rd NC_STAT_T0_OK = 1 ∧ y.rd NC_STAT_T1_OK = 0 ∧
      y.rd NC_GEOM2_BLOCKS = p.blocks % 2 ^ NC_GEOM2_BLOCKS.w ∧ y.rd NC_ENDUR = p.endurance % 2 ^ NC_ENDUR.w ∧
      bitAt (y.rd NC_FLAGS) NC_FLAGS_MOUNTED = true ∧ y.rd NC_STAT_MSTATE ≠ 0 := by
  obtain ⟨x, held, blocks, mount⟩ := Chip.mountEnd_accepted en blank up run alone ok
  obtain ⟨t0, t1, geometry, endurance, -⟩ := Chip.mounting_shows p held alone
  obtain ⟨regs, target, flag⟩ := ((m.mounting x p).mstate (m.mounting x p).mstateNow).mounted_answered
  have shown (f : Field) (hp : f.part = .rNc) (hf : f.id ≠ NC_FLAGS.id) (hs : (mstateFields.all fun q => q.1.id != f.id) = true) :=
    (regs f hp hf).trans (Chip.mstate_rd_ne _ _ (by rw [hp]; decide) hs 0)
  have stands := target.trans (((Chip.mstate_moves .refl (within_refl _)).target (by decide) 0).trans (m.mounting_target x p))
  rw [← mount.symm.trans ends]
  rw [← Chip.target_zero, stands]
  refine ⟨held, blocks, ?_, ?_, ?_, ?_, ?_, flag, ?_⟩
  · exact (shown _ (by decide) (by decide) rfl).trans ((Chip.mounting_rd _ _ _ (by decide) rfl _).trans en)
  · exact (shown _ (by decide) (by decide) rfl).trans t0
  · exact (shown _ (by decide) (by decide) rfl).trans t1
  · exact (shown _ (by decide) (by decide) rfl).trans geometry
  · exact (shown _ (by decide) (by decide) rfl).trans endurance
  · obtain ⟨formed, fits⟩ := (m.mounting x p).mstateNow_range
    rw [regs NC_STAT_MSTATE (by decide) (by decide), Chip.mstate_rd _ fits]
    exact formed

end Sys2Proof.Machine
end

section
/-! PROOFS. The statement of the medium, from its parts; what the medium keeps of the models of wear and of the capacitor bank (R255, R256). -/

namespace Sys2Proof.Machine

/-! ## Wear and the capacitor bank -/

theorem exec_wearSave (s : State) : exec (.wearSave) s = .next { s with chip := s.chip.wearSave } := rfl

/-- The medium takes the wear states and the capacitor baseline. -/
def Chip.wearKept (m : Chip) : Chip := { m with nand := { m.nand with wear := m.wear, bcap := m.bcap.base } }.nandDay 0 0 65536

theorem Chip.wearSave_due {m : Chip} (up : m.gelow.up = true) (run : m.runs islMgmt = true) (w : m.writable = true)
    (due : m.due .wearSave = true) : m.wearSave = m.wearKept.stamp .wearSave := if_pos ⟨up, run, w, due⟩

theorem exec_bcapCompute (v : Nat) (s : State) : exec (.bcapCompute v) s = .next { s with chip := s.chip.bcapCompute v } := rfl

/-- Without a droop there is no ratio: only the ESR is kept. -/
theorem Chip.bcapCompute_noDroop {m : Chip} (up : m.gelow.up = true) (run : m.runs islMgmt = true)
    (minute : m.bcap.last + minuteTb ≤ m.boostOp) (flat : m.rd BST_DROOP_DROOP = 0) (v : Nat) :
    m.bcapCompute v =
      { m.wr BCAP_ESR_ESR 0 (min 65535 (m.esrNow.getD (m.rd BCAP_ESR_ESR))) with bcap := { m.bcap with last := m.boostOp } } := by
  have ratio (x : Nat) : (m.wr BCAP_ESR_ESR 0 x).ratioNow = none := if_pos ((Chip.rd_wr_ne _ _ _ _ _ _ (by decide)).trans flat)
  refine (if_pos ⟨up, run, minute⟩).trans ?_
  simp only [Chip.bcapStep, ratio]

/-- Settles O53: each command of the manager is the move of one block, or of one target, with the flags and figures that follow from it. -/
theorem medium : Obligations.Medium := by
  unfold Obligations.Medium
  refine ⟨?_, ?_, ?_, ?_, ?_, ?_, ?_, ?_, ?_, ?_, ?_, ?_, ?_, ?_, ?_, ?_⟩
  · intro p s blank up run alone ok en
    exact ⟨_, exec_nandMount _ _ _ s, Chip.mountEnd_shows en blank up run alone ok rfl⟩
  · intro u b c s run good h above
    refine ⟨_, exec_nandOperationDone run, ?_⟩
    rw [Chip.nandDone_read good h above]
    refine ⟨?_, Chip.refreshAsked_flag _ _ _, ?_, ?_⟩
    · rw [Chip.refreshAsked_target]
      exact NTarget.queued_contains _ _
    · rw [Chip.refreshAsked_rd _ _ _ (by decide) (by decide) (by decide), Chip.maxSeen_all, Chip.blockRead_rd]
    · rw [Chip.refreshAsked_target, NTarget.queued_reads, Chip.maxSeen_target, Chip.blockRead_target, Chip.readOnce_reads]
  · intro u b s run good
    refine ⟨_, exec_nandOperationDone run, ?_⟩
    rw [Chip.nandDone_erase good]
    simp only [Chip.medium_target, Chip.nandDay_target, Chip.setTarget_target]
    exact ⟨tabGet_put_same _ _ _ _, rfl, rfl⟩
  · intro u b r s first good w run
    refine ⟨_, exec_nandRefresh u false s, ?_⟩
    rw [Chip.nandRefresh_first first good w run]
    obtain ⟨l, kept⟩ := (s.chip.setTarget u.val { s.chip.target u.val with queue := r }).blockUse_target u.val (s.chip.target u.val).lowest
    refine ⟨?_, Chip.blockUse_all _ _ _, ?_, ?_, (SameRegs.rfl _ _ _).setTarget.blockUse⟩ <;> rw [kept, Chip.setTarget_target]
  · intro u b s run good may hours
    refine ⟨_, exec_nandPatrolRead u b _ true s, ?_⟩
    obtain ⟨shownMax, progress, cleared, flag⟩ := (s.chip.patrolled u.val b 0).roundShown_shows
    rw [Chip.patrol_roundEnds run good may (by decide) hours]
    rw [(s.chip.patrolled_round (by decide)).1, Nat.max_zero] at shownMax
    exact ⟨shownMax, progress, cleared, flag⟩
  · intro u b c e s run good may h
    refine ⟨_, exec_nandPatrolRead u b _ e s, ?_⟩
    obtain ⟨target, maxAll⟩ := Chip.patrol_page (e := e) run good may h
    obtain ⟨q, page⟩ := s.chip.patrolled_target (t := u.val) (b := b) h
    rw [target, maxAll, page, Chip.patrolled_maxAll _ h]
    exact ⟨Chip.readOnce_reads _ _ _, rfl, rfl, rfl⟩
  · intro u c s held w run due wide most
    refine ⟨_, exec_nandWearLevelMove u s, ?_⟩
    rw [Chip.levelMove_due held w run due wide most]
    obtain ⟨l, kept⟩ := s.chip.blockUse_target u.val (some c)
    refine ⟨Chip.due_stamp _ _ _, Chip.blockUse_used _ _ _, ?_, (SameRegs.rfl _ _ _).blockUse.regs rfl⟩
    rw [Chip.stamp_target, kept]
  · intro u s held run
    exact ⟨_, exec_nandTargetFail u s, Chip.targetFail_shows held run⟩
  · intro s live up run due
    refine ⟨_, exec_nandEolCompute s, ?_⟩
    obtain ⟨eol, writes, shown⟩ := Chip.nandEol_due live up run due
    rw [shown]
    refine ⟨?_, ?_, Chip.medium_nand _⟩
    · rw [Chip.medium_rd _ (by decide) rfl, Chip.eolShown_used, Chip.stamp_usedNow]
      rfl
    · rw [Chip.medium_due]
      exact Chip.due_stamp s.chip _ _
  · intro s up run w due
    refine ⟨_, exec_wearSave s, ?_⟩
    rw [Chip.wearSave_due up run w due]
    exact ⟨rfl, rfl, Chip.due_stamp _ _ _, (SameRegs.rfl _ _ _).regs rfl⟩
  · intro v s up run minute flat
    refine ⟨_, exec_bcapCompute v s, ?_⟩
    rw [Chip.bcapCompute_noDroop up run minute flat]
    refine ⟨rfl, ?_, SameRegs.regs ((SameRegs.rfl _ _ _).wr (.inr (by simp))) rfl⟩
    exact (Chip.rd_wr_same _ _ _ _).trans (Nat.mod_eq_of_lt (Nat.lt_of_le_of_lt (Nat.min_le_left _ _) (by decide)))
  · intro u b c s run good under h
    refine ⟨_, exec_nandOperationDone run, ?_⟩
    rw [Chip.nandDone_verifyGood good under h, Chip.maxSeen_target, Chip.blockRead_target, Chip.maxSeen_all, Chip.blockRead_rd]
    exact ⟨Chip.readOnce_reads _ _ _, rfl, rfl, rfl⟩
  · intro u b s run good sure
    refine ⟨_, exec_nandOperationDone run, ?_⟩
    rw [Chip.nandDone_verifyFails good sure, Chip.setTarget_target]
    exact ⟨rfl, rfl, (SameRegs.rfl _ _ _).setTarget.setTarget⟩
  · intro u b s run good whole may
    refine ⟨_, exec_nandOperationDone run, ?_⟩
    obtain ⟨l, kept⟩ := s.chip.blockUse_target u.val (some b)
    rw [Chip.nandDone_program good whole may, if_neg Bool.false_ne_true]
    refine ⟨Chip.blockUse_used _ _ _, ?_, ?_, (SameRegs.rfl _ _ _).blockUse⟩ <;> rw [kept]
  · intro u b s run good whole may
    refine ⟨_, exec_nandOperationDone run, ?_⟩
    rw [Chip.nandDone_program good whole may, if_pos rfl]
    exact Chip.programFailed_shows s.chip u.val b (Eq.refl _)
  · intro u s run held
    refine ⟨_, exec_nandOperationDone run, ?_⟩
    rw [Chip.nandDone_logFails held, Chip.medium_nand, Chip.medium_target]
    exact ⟨rfl, rfl⟩

end Sys2Proof.Machine
end

section
/-! PROOFS. The records of the journal: a resolved record stands, and a collection alone frees one (R357, R364, R369, R372). -/

namespace Sys2Proof.Machine

/-! ## The commands that collect -/

/-- JOURNAL_COLLECT is the one command that collects records. -/
theorem collect_notMem_partsOf {i : Instr} (h : ∀ x, i ≠ .journalCollect x) : Part.collect ∉ partsOf i := by
  have absent : (partsOf i).contains .collect = false := by
    cases i with
    | journalCollect x => exact absurd rfl (h x)
    | _ => rfl
  simpa using absent

theorem collect_notMem_stepParts {s : State} (h : ∀ x, s.pending.head? ≠ some (.journalCollect x)) : Part.collect ∉ stepParts s := by
  cases queue : s.pending with
  | nil => rw [stepParts_nil queue]; decide
  | cons i r =>
    rw [stepParts_cons queue]
    exact collect_notMem_partsOf fun x e => h x (by rw [queue, e, List.head?_cons])

/-- Settles O4: a step is a chain of basic moves, none of them a collection, and each other move of the records keeps a resolved one. -/
theorem resolvedRecordStands : Obligations.ResolvedRecordStands := by
  unfold Obligations.ResolvedRecordStands
  intro s t j r front found resolved e
  exact (step_moves e).resolved (collect_notMem_stepParts front) found resolved

/-! ## The JSNs that have a record -/

theorem jsns_prefix_map {f : Rec → Rec} (keeps : ∀ r, (f r).jsn = r.jsn) (rs : List Rec) :
    rs.map Rec.jsn <+: (rs.map f).map Rec.jsn := by
  have same : (rs.map f).map Rec.jsn = rs.map Rec.jsn := List.map_map.trans (List.map_congr_left fun r _ => keeps r)
  exact ⟨[], (List.append_nil _).trans same.symm⟩

/-- A move of the records adds a JSN at the end, or leaves the JSNs as they are. -/
theorem RecMove.jsns_prefix {rs rs' : List Rec} {k n : Nat} (h : RecMove (rs, k) (rs', n)) :
    rs.map Rec.jsn <+: rs'.map Rec.jsn := by
  cases h with
  | accept _ _ _ r => exact (List.prefix_append rs [r]).map _
  | acc _ _ first k =>
    refine jsns_prefix_map (fun r => ?_) rs
    split <;> rfl
  | commit _ _ old new =>
    refine jsns_prefix_map (fun r => ?_) rs
    split
    · next same => exact same.symm
    · rfl
  | restart _ _ t =>
    refine jsns_prefix_map (fun r => ?_) rs
    split <;> rfl

/-- The JSNs stay where no command collects records. -/
theorem Moves.jsns_prefix {L : List Part} {m x : Chip} (h : Moves L m x) (c : Part.collect ∉ L) :
    m.jour.recs.map Rec.jsn <+: x.jour.recs.map Rec.jsn := by
  induction h with
  | refl => exact List.prefix_rfl
  | recs rs n _ _ mv ih => exact ih.trans mv.jsns_prefix
  | collect _ _ hp _ _ => exact absurd hp c
  | upd _ u ih => rw [u.recs]; exact ih
  | reboot _ _ _ _ _ h3 _ _ ih => rw [h3]; exact ih
  | wr _ _ _ _ _ ih => exact ih
  | drop _ _ _ _ ih => exact ih
  | byte _ _ _ _ ih => exact ih
  | clear _ _ _ _ ih => exact ih
  | wipe _ _ ih => exact ih
  | save _ _ _ ih => exact ih
  | restore _ _ _ _ _ ih => exact ih

/-! ## The collection (R372) -/

/-- The records that a collection frees: the resolved ones of an owner up to a JSN. -/
def Rec.collectedBy (o upto : Nat) (r : Rec) : Prop := r.owner = o ∧ r.phase = 3 ∧ r.jsn ≤ upto

theorem Chip.jourCollect_recs (m : Chip) (o upto : Nat) (r : Rec) :
    r ∈ (m.jourCollect o upto).2.jour.recs ↔ r ∈ m.jour.recs ∧ ¬ r.collectedBy o upto := by
  have totals (gone : List Rec) : (gone.foldl (fun y g => y.snapsTake g.jsn) m).jour.recs = m.jour.recs :=
    (Moves.foldl (L := [.gelow]) .refl fun _ _ k => Chip.snapsTake_moves k (within_refl _)).kept.records (by decide) (by decide)
  have stays : (!(r.owner == o && r.phase == 3 && decide (r.jsn ≤ upto))) = true ↔ ¬ r.collectedBy o upto := by
    rw [Bool.not_eq_true', ← Bool.not_eq_true, Bool.and_eq_true, Bool.and_eq_true, beq_iff_eq, beq_iff_eq, decide_eq_true_eq, and_assoc]
    exact Iff.rfl
  unfold Chip.jourCollect
  rw [List.mem_filter, totals, stays]

theorem Chip.mbDone_recs (m : Chip) (x reason nacc jsn : Nat) (pay window : List Byte) :
    (m.mbDone x reason nacc jsn pay window).jour.recs = m.jour.recs :=
  (Chip.mbDone_moves .refl (within_refl _)).kept.records (by decide) (by decide)

/-- A JSN up to the newest of its writer is collected. -/
theorem Chip.journalCollect_recs {m : Chip} {x : Nat} {p : List Byte} (known : payNat p 0 6 ≤ tabGet m.jour.newest (mbOwner x) 0)
    (r : Rec) : r ∈ (m.journalCollect x p).jour.recs ↔ r ∈ m.jour.recs ∧ ¬ r.collectedBy (mbOwner x) (payNat p 0 6) := by
  unfold Chip.journalCollect
  rw [if_neg (Nat.not_lt.2 known), Chip.mbDone_recs]
  exact Chip.jourCollect_recs _ _ _ r

theorem exec_journalCollect {x : Mbx} {s : State} (next : s.chip.isNext x.val 0x0702 = true) :
    exec (.journalCollect x) s = .next { s with chip := s.chip.journalCollect x.val (s.chip.mbPay x.val) } := by
  have run : s.chip.runCmd x.val 0x0702 (fun m p => m.journalCollect x.val p) = s.chip.journalCollect x.val (s.chip.mbPay x.val) :=
    if_pos next
  rw [← run]
  rfl

/-- Settles O5: a collection keeps the records that it does not free, and the basic moves of any other command keep every JSN. -/
theorem collectionFreesRecords : Obligations.CollectionFreesRecords := by
  unfold Obligations.CollectionFreesRecords
  constructor
  · intro x s next known
    exact ⟨_, exec_journalCollect next, Chip.journalCollect_recs known⟩
  · intro i s t j other e held
    have keeps := (exec_moves e).jsns_prefix (collect_notMem_partsOf other)
    exact List.mem_map.1 (keeps.subset (List.mem_map.2 held))

end Sys2Proof.Machine
end

section
/-! PROOFS. The frame of every command, and the queue. -/

namespace Sys2Proof.Machine

/-- Settles O1: the effect of a command is made of basic moves within its parts, and every such chain keeps what lies outside them. -/
theorem everyCommandKeepsTheRest : Obligations.EveryCommandKeepsTheRest := by
  intro i s
  obtain ⟨t, e⟩ := exec_next i s
  exact ⟨t, e, exec_pending e, (exec_moves e).kept⟩

/-- Settles O6, by the two cases of a step. -/
theorem stepTakesTheFront : Obligations.StepTakesTheFront :=
  ⟨fun _ _ _ => step_cons rfl, fun _ h => step_nil h⟩

/-- A command commutes with a change of the queue: it reads and writes the block alone. -/
theorem exec_withQueue {i : Instr} {s t : State} (e : exec i s = .next t) (q : List Instr) :
    exec i { s with pending := q } = .next { t with pending := q } := by
  obtain ⟨f, hf⟩ := exec_upd i
  rw [hf, State.upd_eq] at e ⊢
  cases e
  rfl

/-- A run takes a step that answers a next state, and goes on from it. -/
theorem core_run_succ {s t : State} (h : step s = .next t) (k : Nat) : Sys2Proof.core.run (k + 1) s = Sys2Proof.core.run k t := by
  have stepped : Sys2Proof.core.step s = .next t := h
  simp only [Host.Core.run, stepped]

theorem execAll_cons {i : Instr} {s t : State} (h : exec i s = .next t) (cs : List Instr) : execAll (i :: cs) s = execAll cs t := by
  rw [execAll, h]

/-- Settles O7, by induction on the commands that wait: each step executes the one in front and leaves the others with what stands behind. -/
theorem queueIsFirstInFirstOut : Obligations.QueueIsFirstInFirstOut := by
  intro cs r
  induction cs with
  | nil => exact fun _ => rfl
  | cons c cs ih =>
    intro s
    obtain ⟨t, e⟩ := exec_next c s
    have stepped : step { s with pending := c :: cs ++ r } = .next { t with pending := cs ++ r } :=
      (step_cons rfl).trans (exec_withQueue e _)
    rw [List.length_cons, core_run_succ stepped, execAll_cons (exec_withQueue e r)]
    exact ih t

end Sys2Proof.Machine
end

section
/-! PROOFS. Reads that meet a landing in their own cycle: a result, a comparator's change, a seed sensor's drop, a timer's capture
(R417, R434, R458). -/

namespace Sys2Proof.Machine

/-! ## A result that lands in the cycle of a read (R417) -/

theorem exec_adcResRead (u : Adc) (s : State) : exec (.adcResRead u) s = .next { s with chip := s.chip.adcRead u.val } := rfl

/-- A read in the cycle of a result returns the one before it. -/
theorem Chip.adcRead_sameCycle {m : Chip} {u : Nat} {o : AdcOld} (run : m.adcClock u = true) (landed : tabFind m.cycle.adcs u = some o) :
    (m.adcRead u).rdata = o.word := by
  simp [Chip.adcRead, run, landed, Chip.adcReadOld]

/-- ADC1 holds the result 77, which has landed in this cycle on the result 5. -/
def resultLandsNow : State :=
  (st [(ADC_RES, 1, 77), (ADC_STAT_NEW, 1, 1)]).on fun m => m.setCycle { adcs := [(1, ⟨5, 0, 1, false, 0, false⟩)] }

/-- Refutes O36: its last clause lets every read of ADC_RES return the result that stands, but one that lands in the cycle of the read is not
seen yet (R417). In `resultLandsNow` the read returns 5. -/
theorem not_modulators : ¬ Obligations.Modulators := by
  unfold Obligations.Modulators
  rintro ⟨-, -, -, -, -, -, readsLast⟩
  obtain ⟨t, ht, word, -⟩ := readsLast 1 resultLandsNow (by decide)
  rw [exec_adcResRead] at ht
  cases ht
  have before := Chip.adcRead_sameCycle (m := resultLandsNow.chip) (u := 1) (o := ⟨5, 0, 1, false, 0, false⟩) (by decide) (by decide)
  exact absurd (before.symm.trans word) (by decide)

/-! ## A change in the cycle of a read (R434) -/

theorem exec_cmpTbRead (n : Cmp) (s : State) : exec (.cmpTbRead n) s = .next { s with chip := s.chip.cmpRead n.val } := rfl

/-- A read in the cycle of a change takes the TB of the change before it. -/
theorem Chip.cmpRead_sameCycle {m : Chip} {n z : Nat} (run : m.cmpClock n = true) (changed : tabFind m.cycle.changes n = some z) :
    (m.cmpRead n).rdata = z % 2 ^ 32 := by
  simp only [Chip.cmpRead, run, changed, if_true, Option.getD_some, Chip.wrTb]
  exact (Chip.rd_wr_ne _ _ _ _ _ _ (by decide)).trans (Chip.rd_wr_same _ _ _ _)

/-- Comparator 3 has changed in this cycle, with TB 9; its change before that was of TB 4. -/
def changesNow : State := State.reset.on fun m => (m.setCmp 3 { tb := 9 }).setCycle { changes := [(3, 4)] }

/-- Refutes O38: its fifth clause lets every read of CMP_TB_LO take the TB of the last change, but of a change of its own cycle it takes the
earlier TB (R434). In `changesNow` the read returns 4, where the last change is of TB 9. -/
theorem not_comparators : ¬ Obligations.Comparators := by
  unfold Obligations.Comparators
  rintro ⟨-, -, -, -, readsLast, -⟩
  obtain ⟨t, ht, low, -⟩ := readsLast 3 changesNow (by decide)
  rw [exec_cmpTbRead] at ht
  cases ht
  have before := Chip.cmpRead_sameCycle (m := changesNow.chip) (n := 3) (z := 4) (by decide) (by decide)
  exact absurd (before.symm.trans low) (by decide)

/-! ## A drop in the cycle of a read (R434) -/

theorem exec_sdsDropRead (n : Sds) (s : State) : exec (.sdsDropRead n) s = .next { s with chip := s.chip.sdsRead n.val } := rfl

/-- A read in the cycle of a drop takes the drop before it. -/
theorem Chip.sdsRead_sameCycle {m : Chip} {n z w : Nat} (run : m.sdsClock n = true) (dropped : tabFind m.cycle.drops n = some (z, w)) :
    (m.sdsRead n).rdata = z % 2 ^ 32 := by
  simp only [Chip.sdsRead, run, dropped, if_true, Option.getD_some, Chip.wrTb]
  exact (Chip.rd_wr_ne _ _ _ _ _ _ (by decide)).trans <| (Chip.rd_wr_ne _ _ _ _ _ _ (by decide)).trans (Chip.rd_wr_same _ _ _ _)

/-- Seed sensor 3 has found a drop at TB 9 in this cycle; its drop before that was at TB 4. -/
def dropsNow : State := State.reset.on fun m => (m.setSds 3 { dropTb := 9 }).setCycle { drops := [(3, 4, 0)] }

/-- Refutes O39: its fifth clause lets every read of SDS_DROP_TB_LO take the last drop, but of a drop of its own cycle it takes the earlier
values (R434). In `dropsNow` the read returns 4, where the last drop is at TB 9. -/
theorem not_seedSensors : ¬ Obligations.SeedSensors := by
  unfold Obligations.SeedSensors
  rintro ⟨-, -, -, -, readsLast, -⟩
  obtain ⟨t, ht, low, -⟩ := readsLast 3 dropsNow (by decide)
  rw [exec_sdsDropRead] at ht
  cases ht
  have before := Chip.sdsRead_sameCycle (m := dropsNow.chip) (n := 3) (z := 4) (w := 0) (by decide) (by decide)
  exact absurd (before.symm.trans low) (by decide)

/-! ## A capture in the cycle of a read (R458) -/

theorem exec_timCapRead (n : Tim) (s : State) : exec (.timCapRead n) s = .next { s with chip := s.chip.timRead n.val } := rfl

/-- A read in the cycle of a capture returns the value before it. -/
theorem Chip.timRead_sameCycle {m : Chip} {n v z : Nat} {ovr : Bool} (run : m.timClock n = true)
    (captured : tabFind m.cycle.captures n = some (v, z, ovr)) : (m.timRead n).rdata = v := by
  simp [Chip.timRead, run, captured]

/-- Timer 3 has captured 77 in this cycle, over the value 5. -/
def capturesNow : State :=
  (st [(TIM_CAP, 3, 77), (TIM_STAT_NEW, 3, 1)]).on fun m => m.setCycle { captures := [(3, 5, 0, false)] }

/-- Refutes O40: its fourth clause lets every read of TIM_CAP return the value that stands, but a capture of its own cycle is not seen yet
(R458). In `capturesNow` the read returns 5. -/
theorem not_timers : ¬ Obligations.Timers := by
  unfold Obligations.Timers
  rintro ⟨-, -, -, readsLast, -⟩
  obtain ⟨t, ht, value, -⟩ := readsLast 3 capturesNow (by decide)
  rw [exec_timCapRead] at ht
  cases ht
  have before := Chip.timRead_sameCycle (m := capturesNow.chip) (n := 3) (v := 5) (z := 0) (ovr := false) (by decide) (by decide)
  exact absurd (before.symm.trans value) (by decide)

end Sys2Proof.Machine
end

section
/-! PROOFS. The filigree engines: the pattern of a DRIVE of directions (R439), a group flag raised and lowered in one cycle (R443), a write of
FE_CTL in the cycle of a synchronous command (R450). -/

namespace Sys2Proof.Machine

/-! ## The pattern of a DRIVE (R439) -/

theorem exec_drive (e : Fe) (s : State) : exec (.drive e) s = .next { s with chip := s.chip.feDrive e.val } := rfl

/-- Engine 9 is at a DRIVE of its directions with pattern 1, which drives its one pattern pin high; every output latch is 0. -/
def drivesPattern : State :=
  st [(FE_CTL_EN, 9, 1), (FE_PROG, 576, 7 * 2 ^ 20 + 2 ^ 17 + 0x100), (FE_PAT_N, 9, 1), (FE_PATTAB, 9, 1)]

theorem drivesPattern_out : ((drivesPattern.chip.feDrive 9).eng 9).out = 1 := by decide

/-- Refutes O41: its last clause lets a DRIVE of the directions leave the output latches, whatever its pattern, but a pattern is written with
every instruction (R439). The DRIVE of `drivesPattern` sets output latch 0. -/
theorem not_engineFlow : ¬ Obligations.EngineFlow := by
  unfold Obligations.EngineFlow
  rintro ⟨-, -, -, -, -, -, -, -, -, -, -, -, -, drivesDirections⟩
  obtain ⟨t, ht, -, out, -⟩ := drivesDirections 9 drivesPattern (by decide) (by decide) (by decide) (by decide)
  rw [exec_drive] at ht
  cases ht
  exact absurd (drivesPattern_out.symm.trans out) (by decide)

/-! ## A group flag in one cycle (R443) -/

theorem exec_gsig (e : Fe) (s : State) : exec (.gsig e) s = .next { s with chip := s.chip.feGsig e.val } := rfl

/-- Engine 9 is at a GSIG that raises flag 6 of its group, in a cycle in which another engine has lowered that flag. -/
def loweredNow : State :=
  (st [(FE_CTL_EN, 9, 1), (FE_PROG, 576, 8 * 2 ^ 20 + 6)]).on fun m => m.setCycle { lowers := [(1, 6)] }

/-- The lower wins over the raise. -/
theorem loweredNow_groupFlag : (loweredNow.chip.feGsig 9).groupFlag 9 6 = false := by decide

/-- Refutes O42: its fourth clause lets every GSIG with operation 0 leave its flag set, but of a raise and a lower in one cycle the lower wins
(R443). After the GSIG of `loweredNow` the flag is clear. -/
theorem not_engineTransfers : ¬ Obligations.EngineTransfers := by
  unfold Obligations.EngineTransfers
  rintro ⟨-, -, -, raises, -⟩
  obtain ⟨t, ht, raised, -⟩ := raises 9 loweredNow (by decide) (by decide) (by decide) (by decide)
  rw [exec_gsig] at ht
  cases ht
  exact absurd (loweredNow_groupFlag.symm.trans raised) (by decide)

/-! ## A write of FE_CTL beside a synchronous command (R450) -/

theorem exec_feEnableWrite {who : Writer} {e : Fe} {b : Bool} {s : State} (ok : (s.chip.sysOk who && s.chip.feClock e.val) = true) :
    exec (.feEnableWrite who e b) s = .next { s with chip := s.chip.feCtl e.val b } := by
  change execFeEnableWrite who e b s = _
  simp only [execFeEnableWrite, State.upd_eq, ok, if_true]

/-- A synchronous command of the same cycle acts after the write. -/
theorem Chip.feCtl_synced {m : Chip} {e : Nat} (synced : m.cycle.synced.contains e = true) (b : Bool) : m.feCtl e b = m := by
  simp only [Chip.feCtl, synced, if_true]

/-- A synchronous HALT has cleared the enable of engine 9 in this cycle. -/
def haltedNow : State := State.reset.on fun m => m.setCycle { synced := [9] }

/-- Refutes O43: its fifth clause lets every write of FE_CTL set the enable, but a synchronous command of the same cycle acts after the write
(R450). In `haltedNow` a write of 1 leaves the engine disabled. -/
theorem not_engineRegisters : ¬ Obligations.EngineRegisters := by
  unfold Obligations.EngineRegisters
  rintro ⟨-, -, -, -, enables, -⟩
  obtain ⟨t, ht, enabled, -⟩ := enables .anvilV 9 true haltedNow (by decide) (by decide)
  rw [exec_feEnableWrite (by decide), Chip.feCtl_synced (by decide)] at ht
  cases ht
  exact absurd enabled (by decide)

end Sys2Proof.Machine
end

section
/-! PROOFS. An interrupt entry on a source that has become pending again in the cycle of its clearing (R397, R407). -/

namespace Sys2Proof.Machine

theorem exec_interruptEntry (k : Core) (l : List (Fin 6 × Src)) (s : State) :
    exec (.interruptEntry k l) s = .next { s with chip := s.chip.intEntry (coreNo k) (l.map (·.2.val)) } := rfl

/-- Anvil-V accepts entries. A write of INT_CLRPEND has cleared the pending bit of source 5 in this cycle, and after it the source has
occurred again. -/
def pendingAgain : State :=
  (st [(INT_SRC_PEND, 5, 1), (INT_SRC_TGT, 5, 1)]).on fun m =>
    { m with coreV := { running := true, mstatus := 8, mtvec := 0x40001001, pc := 0x40000020 } }.setCycle { pends := [(5, 1)] }

/-- The entry takes the occurrence before the write, and leaves the pending bit of the one after it. -/
theorem pendingAgain_entry : bitAt ((pendingAgain.chip.intEntry 0 []).rd INT_SRC_PEND 5) 0 = true := by decide

/-- Refutes O50: its first clause lets every entry clear the pending bit of its source, but a selection takes the pending state that a write of
its cycle has cleared (R397, R407), and an occurrence after that write stays pending. The entry of `pendingAgain` leaves the bit set. -/
theorem not_interrupts : ¬ Obligations.Interrupts := by
  unfold Obligations.Interrupts
  rintro ⟨entryTakes, -⟩
  obtain ⟨t, ht, -, -, -, -, -, -, taken, -⟩ := entryTakes 5 pendingAgain (by decide) (by decide) (by decide)
  rw [exec_interruptEntry] at ht
  cases ht
  exact absurd (pendingAgain_entry.symm.trans taken) (by decide)

end Sys2Proof.Machine
end

section
/-! PROOFS. The crystal's loss and return, the marks of a trim reference, the trim's hold (R463, R470, R471). -/

namespace Sys2Proof.Machine

/-! ## The crystal (R463) -/

theorem exec_xtalLoss (n : Nat) (s : State) : exec (.xtalLoss n) s = .next { s with chip := s.chip.xtalEval n } := rfl

theorem exec_xtalRestore (s : State) : exec .xtalRestore s = .next { s with chip := s.chip.xtalBack } := rfl

/-- Fewer than 24 cycles of XIN take XTAL_OK away, and the holdover begins. -/
theorem Chip.xtalEval_lost {m : Chip} {n : Nat} (few : n < 24) (was : m.rd CLK_STAT_XTAL_OK = 1) (hold : m.rd CLK_CFG_HOLD_EN = 1) :
    m.xtalEval n = ((m.wrB CLK_STAT_XTAL_OK 0 false).wr CLK_STAT_HOLDOVER 0 1).pllaLock := by
  have out : ¬ 24 ≤ n := Nat.not_le.2 few
  have kept : (m.wrB CLK_STAT_XTAL_OK 0 false).rd CLK_CFG_HOLD_EN = 1 := (Chip.rd_wr_ne _ _ _ _ _ _ (by decide)).trans hold
  simp [Chip.xtalEval, Chip.rdB, was, out, kept]

theorem Chip.xtalBack_stood {m : Chip} (ok : m.rd CLK_STAT_XTAL_OK = 1) (held : m.rd CLK_STAT_HOLDOVER = 1)
    (stood : m.sys.xtalTb + 100 * msTb ≤ m.tb) : m.xtalBack = (m.wr CLK_STAT_HOLDOVER 0 0).pllaLock := by
  simp [Chip.xtalBack, Chip.rdB, ok, held, stood]

theorem Chip.pllaLock_rd_ne (m : Chip) {f : Field} (h : f.id ≠ CLK_STAT_PLLA_LOCK.id) (i : Nat) : m.pllaLock.rd f i = m.rd f i :=
  Chip.rd_wr_ne _ _ _ _ _ _ h

/-! ## Marks (R470, R471) -/

theorem exec_trimMark (pps : Bool) (s : State) : exec (.trimMark pps) s = .next { s with chip := s.chip.markOf pps } := rfl

theorem exec_trimHoldTimeout (s : State) : exec .trimHoldTimeout s = .next { s with chip := s.chip.trimHold } := rfl

/-- The TB of a mark: of a rising edge of PPS, or the latch of the last sync frame. -/
def Chip.markTb (m : Chip) (pps : Bool) : Nat :=
  if pps then m.tbOf islObserver else m.rd HP_SYNC_TB_LO + 2 ^ 32 * m.rd HP_SYNC_TB_HI

/-- A mark of the selected reference counts. -/
theorem Chip.markOf_selected {m : Chip} {pps : Bool} (ref : m.trimRef = if pps then 1 else 2) : m.markOf pps = m.trimMark (m.markTb pps) := by
  cases pps <;> simp_all [Chip.markOf, Chip.markTb]

/-- The first mark only starts an interval. -/
theorem Chip.trimMark_first {m : Chip} (first : m.sys.mark = none) (t : Nat) :
    m.trimMark t = { m with sys := { m.sys with mark := some t } } := by
  simp [Chip.trimMark, first]

theorem Chip.trimMark_fits {m : Chip} {p n t : Nat} (last : m.sys.mark = some p) (fits : m.trimFit (t - p) = some n) :
    m.trimMark t = m.trimApply t (t - p) n := by
  simp [Chip.trimMark, last, fits]

/-- The error of an accepted mark in ppb. -/
def trimErr (d n : Nat) : Int := roundDiv (((d : Int) - n) * 1000000000) n

theorem ofSigned_lt (w : Nat) (i : Int) : ofSigned w i < 2 ^ w := by
  have pos : (0 : Int) < (2 ^ w : Nat) := Int.natCast_pos.2 (Nat.two_pow_pos w)
  have low := Int.emod_nonneg i (Int.ne_of_gt pos)
  have high := Int.emod_lt_of_pos i pos
  unfold ofSigned
  omega

/-- An accepted mark shows its error. -/
theorem Chip.trimApply_err (m : Chip) (t d n : Nat) : (m.trimApply t d n).rd CLK_TRIM_ERR = ofSigned CLK_TRIM_ERR.w (trimErr d n) := by
  refine (Chip.rd_wr_ne _ _ _ _ _ _ (by decide)).trans <| (Chip.rd_wr_ne _ _ _ _ _ _ (by decide)).trans <| (Chip.rd_wr_same _ _ _ _).trans ?_
  exact Nat.mod_eq_of_lt (ofSigned_lt _ _)

/-- What an accepted mark writes. -/
def trimFields : List (Field × Nat) := [(CLK_TRIM_ERR, 0), (CLK_CORR, 0), (CLK_STAT_TRIM, 0)]

theorem SameRegs.trimApply (m : Chip) (t d n : Nat) : SameRegs trimFields [] m (m.trimApply t d n) := by
  have shown (v c : Int) : SameRegs trimFields [] m ((m.wrI CLK_TRIM_ERR 0 v).wrI CLK_CORR 0 c) :=
    ((SameRegs.rfl _ _ m).wr (.inr (by simp [trimFields]))).wr (.inr (by simp [trimFields]))
  exact ((shown _ _).regs (Eq.refl _)).wr (.inr (by simp [trimFields]))

theorem Chip.trimHold_due {m : Chip} (ref : m.trimRef ≠ 0) (long : m.sys.markOk.getD 0 + 10 * m.trimIvl ≤ m.tb) :
    m.trimHold = { m.wr CLK_STAT_TRIM 0 3 with sys := { m.sys with near := 0 } } := if_pos ⟨ref, long⟩

/-- Settles O46: each clause is one case of the evaluation of XIN, of a mark, or of the trim's hold. -/
theorem trimAndCrystal : Obligations.TrimAndCrystal := by
  unfold Obligations.TrimAndCrystal
  refine ⟨?_, ?_, ?_, ?_, ?_, ?_⟩
  · intro n s few was hold
    refine ⟨_, exec_xtalLoss n s, ?_⟩
    rw [Chip.xtalEval_lost few was hold]
    refine ⟨?_, ?_, ?_⟩
    · rw [Chip.pllaLock_rd_ne _ (by decide), Chip.rd_wr_ne _ _ _ _ _ _ (by decide)]
      exact Chip.rd_wr_same _ _ _ _
    · rw [Chip.pllaLock_rd_ne _ (by decide)]
      exact Chip.rd_wr_same _ _ _ _
    · exact (((SameRegs.rfl _ _ _).wr (.inr (by simp))).wr (.inr (by simp))).wr (.inr (by simp))
  · intro s ok held stood
    refine ⟨_, exec_xtalRestore s, ?_⟩
    rw [Chip.xtalBack_stood ok held stood]
    refine ⟨?_, ((SameRegs.rfl _ _ _).wr (.inr (by simp))).wr (.inr (by simp))⟩
    rw [Chip.pllaLock_rd_ne _ (by decide)]
    exact Chip.rd_wr_same _ _ _ _
  · intro s ref first
    refine ⟨_, exec_trimMark true s, ?_⟩
    rw [Chip.markOf_selected (pps := true) ref, Chip.trimMark_first first]
    exact ⟨rfl, SameRegs.rfl _ _ _⟩
  · intro p n s ref last fits
    refine ⟨_, exec_trimMark true s, ?_⟩
    rw [Chip.markOf_selected (pps := true) ref, Chip.trimMark_fits (t := s.chip.markTb true) last fits]
    exact ⟨Chip.trimApply_err _ _ _ _, rfl, SameRegs.trimApply _ _ _ _⟩
  · intro s ref long
    refine ⟨_, exec_trimHoldTimeout s, ?_⟩
    rw [Chip.trimHold_due ref long]
    exact ⟨Chip.rd_wr_same _ _ _ _, rfl, Chip.rd_wr_ne _ _ _ _ _ _ (by decide)⟩
  · intro b z s ref first hz
    refine ⟨_, exec_trimMark b s, ?_⟩
    rw [Chip.markOf_selected ref, Chip.trimMark_first first, hz]
    exact ⟨rfl, SameRegs.rfl _ _ _⟩

end Sys2Proof.Machine
end

section
/-! PROOFS. Assay: its start, the start of an entry, the store of its mean (R419-R422). -/

namespace Sys2Proof.Machine

/-! ## The start (R419, R421) -/

theorem exec_assayStart {who : Writer} {w : Word} {s : State} (ok : s.chip.sysOk who = true) (run : s.chip.asClock = true) :
    exec (.assayStart who w) s = .next { s with chip := s.chip.asCtl w.toNat } := by
  change execAssayStart who w s = _
  simp [execAssayStart, ok, run]

theorem exec_assayEntryStart (s : State) : exec .assayEntryStart s = .next { s with chip := s.chip.asStart } := rfl

theorem exec_assayEntryStore (vs : List NanoVolt) (s : State) : exec (.assayEntryStore vs) s = .next { s with chip := s.chip.asEnd vs } := rfl

/-- A write of EN = 1 to an Assay that is off starts it at entry 0. -/
theorem Chip.asCtl_starts {m : Chip} {w : Nat} (on : bitAt w 0 = true) (off : m.rd AS_CTL_EN = 0) :
    m.asCtl w =
      { ((m.wrFrom AS_CTL_STOP_LIM 0 w).wr AS_CTL_EN 0 1).wr AS_STAT_RUN 0 1 with assay := {} }.wr AS_STAT_ENTRY 0 0 := by
  have kept : (m.wrFrom AS_CTL_STOP_LIM 0 w).rd AS_CTL_EN = 0 := (Chip.rd_wr_ne _ _ _ _ _ _ (by decide)).trans off
  simp [Chip.asCtl, Chip.rdB, on, kept]

/-! ## An entry (R419) -/

/-- Assay runs entry e. -/
def Chip.asRunning (m : Chip) (e : AsRun) : Chip :=
  let m := m.setAdc e.unit
    { m.adcU e.unit with start := m.tb + e.delay * usTb, input := e.input, rate := e.rate, other := false, restart := none }
  { (m.wr AS_STAT_ENTRY 0 e.entry).wr ADC_STAT_BUSY e.unit 1 with assay := { m.assay with run := some e, ran := true } }

/-- An enabled entry whose modulator is free for it and reaches its input runs. -/
theorem Chip.asTake_runs {m : Chip} {fuel : Nat} (on : m.rd AS_CTL_EN = 1) (en : m.rd AS_E0_EN m.assay.pos = 1)
    (mode : m.rd ADC_CTL_MODE (m.asEntry m.assay.pos).unit = 3)
    (reach : adcReach (m.asEntry m.assay.pos).unit (m.asEntry m.assay.pos).input = true) :
    m.asTake (fuel + 1) = m.asRunning (m.asEntry m.assay.pos) := by
  have on' : m.rdB AS_CTL_EN = true := by simp [Chip.rdB, on]
  have en' : m.rdB AS_E0_EN m.assay.pos = true := by simp [Chip.rdB, en]
  simp only [Chip.asTake, on', en', mode, reach]
  rfl

theorem Chip.asStart_takes {m : Chip} (on : m.rd AS_CTL_EN = 1) (run : m.asClock = true) (free : m.assay.run = none) :
    m.asStart = m.asTake 130 := by
  simp [Chip.asStart, Chip.rdB, on, run, free]

/-! ## The store (R420-R422) -/

@[simp] theorem Chip.adcFlag_assay (m : Chip) (u b : Nat) : (m.adcFlag u b).assay = m.assay :=
  (Chip.adcFlag_moves .refl (within_refl _)).kept.assay (by decide)

/-- An entry's mean and its result: what Assay stores. -/
def AsRun.mean (r : AsRun) (vs : List Int) : Nat :=
  adcWord false (meanAway ((vs.map (adcCode (inDiff r.input))).map (adcClip (inDiff r.input))))

/-- A store before the limits are tested: the mean in AS_RES, and the modulator free. -/
def Chip.asStored (m : Chip) (r : AsRun) (vs : List Int) : Chip :=
  let m := m.setCycle { m.cycle with results := tabPut m.cycle.results r.entry (m.rd AS_RES r.entry) }
  { (m.wr AS_RES r.entry (r.mean vs)).wr ADC_STAT_BUSY r.unit 0 with assay := { m.assay with run := none } }

/-- A store with its range flag. -/
def Chip.asRanged (m : Chip) (r : AsRun) (vs : List Int) : Chip :=
  let raws := vs.map (adcCode (inDiff r.input))
  if raws.map (adcClip (inDiff r.input)) = raws then m.asStored r vs else (m.asStored r vs).adcFlag r.unit ADC_FLAGS_RANGE

/-- A mean within the limits: Assay moves on. -/
theorem Chip.asStore_within {m : Chip} {r : AsRun} {vs : List Int} (lim : asOut r (r.mean vs) = false) :
    m.asStore r vs = (m.asRanged r vs).asAdvance r.entry r.last := by
  unfold Chip.asStore
  dsimp only
  rw [show asOut r (adcWord false (meanAway ((vs.map (adcCode (inDiff r.input))).map (adcClip (inDiff r.input))))) = false from lim]
  rfl

/-- Short of the last entry Assay moves on to the next. -/
theorem Chip.asAdvance_next (m : Chip) {i : Nat} (h : i < 63) : m.asAdvance i false = { m with assay := { m.assay with pos := i + 1 } } := by
  simp [Chip.asAdvance, Nat.not_le.2 h]

theorem Chip.asEnd_stores {m : Chip} {r : AsRun} {vs : List Int} (running : m.assay.run = some r) (run : m.asClock = true)
    (mode : m.rd ADC_CTL_MODE r.unit = 3) (len : vs.length = r.rep + 1) (ended : r.start + asSpan r ≤ m.tb) :
    m.asEnd vs = m.asStore r vs := by
  simp only [Chip.asEnd, running, run, mode, len, ended, and_self, if_true]

theorem Chip.asRanged_cases (m : Chip) (r : AsRun) (vs : List Int) :
    m.asRanged r vs = m.asStored r vs ∨ m.asRanged r vs = (m.asStored r vs).adcFlag r.unit ADC_FLAGS_RANGE := Chip.ite_cases _ _ _

/-- The range flag leaves what the store wrote. -/
theorem Chip.asRanged_rd (m : Chip) (r : AsRun) (vs : List Int) {f : Field} (hp : f.part ≠ .rInt) (hf : f.id ≠ ADC_FLAGS.id) (i : Nat) :
    (m.asRanged r vs).rd f i = (m.asStored r vs).rd f i := by
  rcases m.asRanged_cases r vs with e | e
  · rw [e]
  · rw [e]
    exact Chip.raise_rd_ne _ _ _ _ _ _ _ _ hp hf

theorem Chip.asRanged_assay (m : Chip) (r : AsRun) (vs : List Int) : (m.asRanged r vs).assay = { m.assay with run := none } := by
  rcases m.asRanged_cases r vs with e | e
  · rw [e]
    rfl
  · rw [e, Chip.adcFlag_assay]
    rfl

/-- Settles O37: a store within the limits moves on from the entry, with or without its range flag. -/
theorem assayEntries : Obligations.AssayEntries := by
  unfold Obligations.AssayEntries
  refine ⟨?_, ?_, ?_⟩
  · intro who w s ok run on off
    refine ⟨_, exec_assayStart ok run, ?_⟩
    rw [Chip.asCtl_starts on off]
    refine ⟨?_, ?_, Chip.rd_wr_same _ _ _ _, rfl⟩
    · exact (Chip.rd_wr_ne _ _ _ _ _ _ (by decide)).trans <| (Chip.rd_wr_ne _ _ _ _ _ _ (by decide)).trans (Chip.rd_wr_same _ _ _ _)
    · exact (Chip.rd_wr_ne _ _ _ _ _ _ (by decide)).trans (Chip.rd_wr_same _ _ _ _)
  · intro s on run free en mode reach
    refine ⟨_, exec_assayEntryStart s, ?_⟩
    rw [Chip.asStart_takes on run free, Chip.asTake_runs on en mode reach]
    exact ⟨rfl, rfl, (Chip.rd_wr_ne _ _ _ _ _ _ (by decide)).trans (Chip.rd_wr_same _ _ _ _), Chip.rd_wr_same _ _ _ _⟩
  · intro r v s running run mode rep ended lim last more
    refine ⟨_, exec_assayEntryStore _ s, ?_⟩
    have mean : r.mean [v] = adcWord false (meanAway [adcClip (inDiff r.input) (adcCode (inDiff r.input) v)]) := rfl
    rw [Chip.asEnd_stores running run mode (by simp [rep]) ended, Chip.asStore_within (by rw [mean, lim]), last, Chip.asAdvance_next _ more]
    refine ⟨?_, ?_, ?_⟩
    · refine (Chip.asRanged_rd _ _ _ (by decide) (by decide) _).trans ?_
      exact (Chip.rd_wr_ne _ _ _ _ _ _ (by decide)).trans (Chip.rd_wr_same _ _ _ _)
    · exact (Chip.asRanged_rd _ _ _ (by decide) (by decide) _).trans (Chip.rd_wr_same _ _ _ _)
    · rw [Chip.asRanged_assay]

end Sys2Proof.Machine
end

section
/-! PROOFS. Clock switches and the stopped clocks of an island (R464-R468). -/

namespace Sys2Proof.Machine

/-! ## The select fields -/

/-- A number with its base-4 digit at P put to v. -/
theorem digit_put (x v : Nat) {P : Nat} (pos : 0 < P) (hv : v < 4) : (x - x / P % 4 * P + v * P) / P % 4 = v := by
  have parts : x = x % P + (x / P / 4 * 4 + x / P % 4) * P := by
    rw [Nat.div_add_mod' (x / P) 4, Nat.mul_comm, Nat.mod_add_div]
  have put : x - x / P % 4 * P + v * P = x % P + (x / P / 4 * 4 + v) * P := by
    have split : (x / P / 4 * 4 + x / P % 4) * P = x / P / 4 * 4 * P + x / P % 4 * P := Nat.add_mul _ _ _
    have again : (x / P / 4 * 4 + v) * P = x / P / 4 * 4 * P + v * P := Nat.add_mul _ _ _
    omega
  rw [put, Nat.add_mul_div_right _ _ pos, Nat.div_eq_of_lt (Nat.mod_lt _ pos), Nat.zero_add]
  omega

/-- A base-4 digit of a number that a register of k digits holds. -/
theorem digit_mod (x : Nat) {i k : Nat} (h : i < k) : x % 4 ^ k / 4 ^ i % 4 = x / 4 ^ i % 4 := by
  obtain ⟨d, rfl⟩ := Nat.exists_eq_add_of_lt h
  rw [Nat.add_assoc, Nat.pow_add, Nat.mod_mul_right_div_self]
  exact Nat.mod_mod_of_dvd _ ⟨4 ^ d, by rw [Nat.pow_succ, Nat.mul_comm]⟩

/-- The select value of an island is the one last set. -/
theorem Chip.setSel_sel (m : Chip) {i v : Nat} (hi : i < 18) (hv : v < 4) : (m.setSel i v).sel i = v := by
  unfold Chip.sel Chip.setSel
  by_cases low : i < 16
  · simp only [if_pos low, Chip.rd_wr_same, Chip.sel]
    exact (digit_mod (k := 16) _ low).trans (digit_put _ _ (Nat.pow_pos (by decide)) hv)
  · simp only [if_neg low, Chip.rd_wr_same, Chip.sel]
    exact (digit_mod (k := 2) _ (by omega)).trans (digit_put _ _ (Nat.pow_pos (by decide)) hv)

theorem Chip.setSel_cases (m : Chip) (i v : Nat) : ∃ x, m.setSel i v = m.wr CLK_SEL0 0 x ∨ m.setSel i v = m.wr CLK_SEL1 0 x := by
  unfold Chip.setSel
  split
  · exact ⟨_, .inl rfl⟩
  · exact ⟨_, .inr rfl⟩

@[simp] theorem Chip.setSel_island (m : Chip) (i v j : Nat) : (m.setSel i v).island j = m.island j := by
  obtain ⟨x, e | e⟩ := m.setSel_cases i v <;> rw [e] <;> rfl

theorem SameRegs.setSel {l : List (Field × Nat)} {p : List Part} {x y : Chip} (h : SameRegs l p x y) (h0 : (CLK_SEL0, 0) ∈ l)
    (h1 : (CLK_SEL1, 0) ∈ l) (i v : Nat) : SameRegs l p x (y.setSel i v) := by
  obtain ⟨a, e | e⟩ := y.setSel_cases i v <;> rw [e]
  · exact h.wr (.inr h0)
  · exact h.wr (.inr h1)

/-- The select fields are as they were where only other fields are written. -/
theorem Chip.sel_wr (m : Chip) {f : Field} (h0 : CLK_SEL0.id ≠ f.id) (h1 : CLK_SEL1.id ≠ f.id) (j v i : Nat) :
    (m.wr f j v).sel i = m.sel i := by
  unfold Chip.sel
  rw [Chip.rd_wr_ne _ _ _ _ _ _ h0, Chip.rd_wr_ne _ _ _ _ _ _ h1]

/-! ## Islands -/

theorem Chip.setIsland_same (m : Chip) (i : Nat) (x : Island) : (m.setIsland i x).island i = x := tabGet_put_same _ _ _ _

/-- An operation that leaves the islands. -/
theorem Moves.island {L : List Part} {x y : Chip} (h : Moves L x y) (p : Part.isl ∉ L) (i : Nat) : y.island i = x.island i := by
  unfold Chip.island
  rw [h.kept.isl p]

theorem Chip.sysFlag_island (m : Chip) (b i : Nat) : (m.sysFlag b).island i = m.island i :=
  (Chip.sysFlag_moves .refl (within_refl _)).island (by decide) i

/-- A safe state changes of an island only when it began. -/
theorem Chip.clusterSafe_island (m : Chip) (c : Nat) : ∃ z, (m.clusterSafe c).island c = { m.island c with safeSince := z } := by
  unfold Chip.clusterSafe
  split
  · exact ⟨_, rfl⟩
  · have quiet := (Moves.foldl (f := fun m ch => m.chanSafe ch true) (x := (m.hsbOpen (2 * c)).hsbOpen (2 * c + 1))
      (l := ((m.hsbOpen (2 * c)).hsbOpen (2 * c + 1)).clusterOrder c)
      (Chip.hsbOpen_moves (Chip.hsbOpen_moves .refl (by decide)) (by decide))
      fun _ _ h => Chip.chanSafe_moves h (within_refl _)).island (by decide) c
    rw [Chip.setIsland_same, quiet]
    exact ⟨_, rfl⟩

theorem Chip.clusterStop_island (m : Chip) (c : Nat) : ∃ z, (m.clusterStop c).island c = { m.island c with safeSince := z } := by
  obtain ⟨z, e⟩ := m.clusterSafe_island c
  have lats := (Moves.foldl (f := fun m ch => if m.rdB LAT_CFG_EN ch then m.pwmStop ch else m) (l := clusterChs c)
    (m := m.clusterSafe c) .refl fun _ _ h => .ite (Chip.pwmStop_moves h (within_refl _)) h).island (by decide) c
  exact ⟨z, lats.trans e⟩

/-- A cluster's safe state reaches no register of the clocks. -/
theorem Chip.clusterStop_rd (m : Chip) (c : Nat) {f : Field} (hp : f.part = .rSys) (i : Nat) : (m.clusterStop c).rd f i = m.rd f i :=
  (Chip.clusterStop_moves .refl (within_refl _)).rd f i (by rw [hp]; decide)

theorem Chip.islFault_island (m : Chip) (i : Nat) : ∃ z, (m.islFault i).island i = { m.island i with safeSince := z } := by
  unfold Chip.islFault
  dsimp only
  rw [Chip.sysFlag_island]
  split
  · exact (m.setFlag CLK_ISL_FLT 0 i).clusterStop_island i
  · exact ⟨_, rfl⟩

theorem Chip.islFault_rd (m : Chip) (i : Nat) {f : Field} (hp : f.part = .rSys) (hf : f.id ≠ SYS_FLT_FLAGS.id) (j : Nat) :
    (m.islFault i).rd f j = (m.setFlag CLK_ISL_FLT 0 i).rd f j := by
  unfold Chip.islFault
  refine (Chip.raise_rd_ne _ _ _ _ _ _ _ _ (by rw [hp]; decide) hf).trans ?_
  split
  · exact Chip.clusterStop_rd _ _ hp _
  · rfl

theorem Chip.islFault_flt (m : Chip) {i : Nat} (hi : i < 18) : bitAt ((m.islFault i).rd CLK_ISL_FLT) i = true := by
  rw [Chip.islFault_rd _ _ (by decide) (by decide), Chip.setFlag_rd_same]
  exact bitAt_setBit_mod _ _ _ hi

theorem Chip.islFault_clk (m : Chip) (i : Nat) : bitAt ((m.islFault i).rd SYS_FLT_FLAGS) SYS_FLT_FLAGS_CLK = true :=
  Chip.raise_bit _ _ _ _ _ _ (by decide) (by decide)

/-! ## Switches (R465, R467) -/

theorem exec_clockSwitchStart {who : Writer} {i : Isl} {v : BitVec 2} {s : State} (ok : s.chip.sysWr who = true) :
    exec (.clockSwitchStart who i v) s = .next { s with chip := s.chip.switchStart i.val v.toNat } := by
  change execClockSwitchStart who i v s = _
  simp [execClockSwitchStart, State.upd, ok]

theorem exec_clockSwitchDone (i : Isl) (s : State) : exec (.clockSwitchDone i) s = .next { s with chip := s.chip.switchDone i.val } := rfl

theorem exec_clockSwitchTimeout (i : Isl) (s : State) :
    exec (.clockSwitchTimeout i) s = .next { s with chip := s.chip.switchTimeout i.val } := rfl

theorem exec_clockStop (i : Isl) (s : State) : exec (.clockStop i) s = .next { s with chip := s.chip.clockStop i.val } := rfl

theorem exec_islandClockReturn (i : Isl) (s : State) :
    exec (.islandClockReturn i) s = .next { s with chip := s.chip.clockReturn i.val } := rfl

/-- An island whose switch has begun. -/
def Chip.switching (m : Chip) (i v : Nat) : Chip :=
  (m.setIsland i { m.island i with switchAt := some (m.tb, m.sel i) }).setSel i v

theorem Chip.switchStart_starts {m : Chip} {i v : Nat} (idle : bitAt (m.rd CLK_SWBUSY) i = false) (other : m.sel i ≠ v) :
    m.switchStart i v = (m.switching i v).wr CLK_SWBUSY 0 (setBit (m.rd CLK_SWBUSY) i) := by
  simp [Chip.switchStart, Chip.switching, idle, other]

theorem Chip.switchDone_ends {m : Chip} {i z o : Nat} (at' : (m.island i).switchAt = some (z, o)) (well : (m.island i).hung = false)
    (clock : (m.island i).stoppedAt = none) (up : (m.island i).resetEnd = none) (old : m.srcRuns o = true)
    (new : m.srcRuns (m.sel i) = true) :
    m.switchDone i = (m.setIsland i { m.island i with switchAt := none }).wr CLK_SWBUSY 0 (clrBit (m.rd CLK_SWBUSY) i) := by
  simp [Chip.switchDone, at', well, clock, up, old, new]

theorem Chip.switchTimeout_hangs {m : Chip} {i z o : Nat} (at' : (m.island i).switchAt = some (z, o)) (well : (m.island i).hung = false)
    (up : (m.island i).resetEnd = none) (late : z + 10 * usTb ≤ m.tb) :
    m.switchTimeout i = (m.setIsland i { m.island i with hung := true }).islFault i := by
  simp [Chip.switchTimeout, at', well, up, late]

/-- A bit of a number is no more after the clear of that bit in a register of w bits. -/
theorem bitAt_clrBit_mod (n b w : Nat) : bitAt (clrBit n b % 2 ^ w) b = false := by
  have clear := bitAt_clrBit n b
  unfold bitAt at clear ⊢
  rw [Nat.testBit_mod_two_pow, clear, Bool.and_false]

/-! ## Stopped clocks (R468) -/

theorem Chip.clockStop_stops {m : Chip} {i : Nat} (ran : (m.island i).stoppedAt = none) (up : (m.island i).resetEnd = none)
    (awake : m.asleep = false) :
    m.clockStop i =
      ((m.setIsland i { m.island i with stoppedAt := some m.tb }).wr CLK_STOPPED 0 (setBit (m.rd CLK_STOPPED) i)).islFault i := by
  simp [Chip.clockStop, ran, up, awake]

theorem Chip.clockReturn_returns {m : Chip} {i z : Nat} (stood : (m.island i).stoppedAt = some z) (well : (m.island i).hung = false)
    (up : (m.island i).resetEnd = none) :
    m.clockReturn i = (m.setIsland i { m.island i with stoppedAt := none }).wr CLK_STOPPED 0 (clrBit (m.rd CLK_STOPPED) i) := by
  simp [Chip.clockReturn, stood, well, up]

/-- Settles O44: each clause is one case of a switch or of a stopped clock; a fault of an island leaves what was set of it. -/
theorem clockSwitches : Obligations.ClockSwitches := by
  unfold Obligations.ClockSwitches
  refine ⟨?_, ?_, ?_, ?_, ?_⟩
  · intro who i v s ok idle other
    refine ⟨_, exec_clockSwitchStart ok, ?_⟩
    rw [Chip.switchStart_starts idle other]
    refine ⟨?_, ?_, ?_, ?_⟩
    · rw [Chip.rd_wr_same]
      exact bitAt_setBit_mod _ _ _ i.isLt
    · rw [Chip.sel_wr _ (by decide) (by decide)]
      exact Chip.setSel_sel _ i.isLt v.isLt
    · exact congrArg Island.switchAt ((Chip.setSel_island _ _ _ _).trans (Chip.setIsland_same _ _ _))
    · exact (((SameRegs.rfl _ _ _).regs rfl).setSel (by simp) (by simp) _ _).wr (.inr (by simp))
  · intro i z o s at' well clock up old new
    refine ⟨_, exec_clockSwitchDone i s, ?_⟩
    rw [Chip.switchDone_ends at' well clock up old new]
    refine ⟨?_, Chip.setIsland_same _ _ _, ((SameRegs.rfl _ _ _).regs rfl).wr (.inr (by simp))⟩
    rw [Chip.rd_wr_same]
    exact bitAt_clrBit_mod _ _ _
  · intro i z o s at' well up late
    refine ⟨_, exec_clockSwitchTimeout i s, ?_⟩
    rw [Chip.switchTimeout_hangs at' well up late]
    refine ⟨?_, Chip.islFault_flt _ i.isLt, Chip.islFault_clk _ _⟩
    obtain ⟨z, e⟩ := (s.chip.setIsland i.val { s.chip.island i.val with hung := true }).islFault_island i.val
    rw [e, Chip.setIsland_same]
  · intro i s ran up awake
    refine ⟨_, exec_clockStop i s, ?_⟩
    rw [Chip.clockStop_stops ran up awake]
    refine ⟨?_, ?_, Chip.islFault_flt _ i.isLt, Chip.islFault_clk _ _⟩
    · obtain ⟨z, e⟩ := Chip.islFault_island (((s.chip.setIsland i.val { s.chip.island i.val with stoppedAt := some s.chip.tb }).wr CLK_STOPPED 0
        (setBit (s.chip.rd CLK_STOPPED) i.val))) i.val
      rw [e]
      exact congrArg Island.stoppedAt (Chip.setIsland_same _ _ _)
    · rw [Chip.islFault_rd _ _ (by decide) (by decide), Chip.setFlag_rd_ne _ _ _ _ _ _ (by decide), Chip.rd_wr_same]
      exact bitAt_setBit_mod _ _ _ i.isLt
  · intro i z s stood well up
    refine ⟨_, exec_islandClockReturn i s, ?_⟩
    rw [Chip.clockReturn_returns stood well up]
    refine ⟨Chip.setIsland_same _ _ _, ?_, ((SameRegs.rfl _ _ _).regs rfl).wr (.inr (by simp))⟩
    rw [Chip.rd_wr_same]
    exact bitAt_clrBit_mod _ _ _

end Sys2Proof.Machine
end

section
/-! PROOFS. The resets of an island: by command, by the always-on domain, by Gelow, and their end (R469, R473-R476). -/

namespace Sys2Proof.Machine

theorem exec_islandReset {i : Isl} {s : State} (ok : s.chip.sysWr .anvilV = true) :
    exec (.islandReset .anvilV i) s = .next { s with chip := s.chip.islandReset i.val false } := by
  change execIslandReset .anvilV i s = _
  simp [execIslandReset, State.upd, ok]

theorem exec_clockAutoRecover (i : Isl) (s : State) : exec (.clockAutoRecover i) s = .next { s with chip := s.chip.autoRecover i.val } := rfl

theorem exec_clusterRetry (c : Cl) (s : State) : exec (.clusterRetry c) s = .next { s with chip := s.chip.clusterRetry c.val } := rfl

theorem exec_islandResetRelease (i : Isl) (s : State) :
    exec (.islandResetRelease i) s = .next { s with chip := s.chip.islandRelease i.val } := rfl

/-! ## A reset begins (R473, R474) -/

/-- The faults of the links that end at an island are forgotten. -/
def Chip.linksDown (m : Chip) (i : Nat) : Chip :=
  (List.range 38).foldl (fun m l => if m.linkFaulty l && (linkEnds l).contains i then m.setLinkFaulty l false else m) m

theorem Chip.linksDown_moves (m : Chip) (i : Nat) : Moves [.rSys] m (m.linksDown i) :=
  .foldl .refl fun _ _ h => .ite (Chip.setLinkFaulty_moves h (within_refl _)) h

/-- An island in reset. -/
def Chip.inReset (m : Chip) (i : Nat) : Island :=
  let x := { (m.islandReach i).island i with resetEnd := some (m.tb + islandResetTb) }
  if i = islObserver then { x with stoppedAt := none, hung := false } else x

theorem Chip.islandReset_begins (m : Chip) {i : Nat} (other : i ≠ islMgmt) (auto : Bool) :
    m.islandReset i auto = ((((m.islandReach i).linksDown i).setIsland i (m.inReset i)).wr RST_LAST_ISL 0 i).wrB RST_LAST_AUTO 0 auto := by
  have tb : ((m.islandReach i).linksDown i).tb = m.tb :=
    ((Chip.linksDown_moves _ _).kept.tb (by decide)).trans ((Chip.islandReach_moves .refl (within_refl _)).kept.tb (by decide))
  have isl : ((m.islandReach i).linksDown i).island i = (m.islandReach i).island i := (Chip.linksDown_moves _ _).island (by decide) i
  unfold Chip.inReset
  rw [← tb, ← isl]
  exact if_neg other

theorem Chip.islandReset_island (m : Chip) {i : Nat} (other : i ≠ islMgmt) (auto : Bool) :
    (m.islandReset i auto).island i = m.inReset i := by
  rw [Chip.islandReset_begins m other]
  exact Chip.setIsland_same _ _ _

theorem Chip.inReset_end (m : Chip) (i : Nat) : (m.inReset i).resetEnd = some (m.tb + 2000) := by
  unfold Chip.inReset
  dsimp only
  split <;> rfl

/-- RST_LAST names the island. -/
theorem Chip.islandReset_last (m : Chip) {i : Nat} (hi : i < 18) (other : i ≠ islMgmt) (auto : Bool) :
    (m.islandReset i auto).rd RST_LAST_ISL = i := by
  rw [Chip.islandReset_begins m other]
  refine (Chip.rd_wr_ne _ _ _ _ _ _ (by decide)).trans <| (Chip.rd_wr_same _ _ _ _).trans ?_
  exact Nat.mod_eq_of_lt (Nat.lt_trans hi (by decide))

theorem Chip.islandReset_auto (m : Chip) {i : Nat} (other : i ≠ islMgmt) (auto : Bool) :
    (m.islandReset i auto).rd RST_LAST_AUTO = b2n auto := by
  rw [Chip.islandReset_begins m other]
  exact (Chip.rd_wr_same _ _ _ _).trans (Nat.mod_eq_of_lt (b2n_lt auto))

/-- A hung island whose CLK_AUTO bit is set is reset by the always-on domain. -/
theorem Chip.autoRecover_hung {m : Chip} {i : Nat} (up : (m.island i).resetEnd = none) (hung : (m.island i).hung = true)
    (auto : bitAt (m.rd CLK_AUTO) i = true) : m.autoRecover i = m.islandReset i true := by
  simp [Chip.autoRecover, up, hung, auto]

/-! ## A cluster (R475) -/

theorem Chip.clusterQuiet_island (m : Chip) (c i : Nat) : (m.clusterQuiet c).island i = m.island i :=
  (Chip.clusterQuiet_moves .refl (within_refl _)).island (by decide) i

theorem Chip.drain_island (m : Chip) (i : Nat) : m.drain.island i = m.island i :=
  (Chip.drain_moves .refl (within_refl _)).island (by decide) i

/-- The reset of a cluster changes of its island only when the safe state began. -/
theorem Chip.clusterReset_island (m : Chip) (c : Nat) : ∃ z, (m.clusterReset c).island c = { m.island c with safeSince := z } := by
  have quiet : ∃ z, (if m.clockOk c then (m.clusterQuiet c).drain else if m.safe c then m.clusterQuiet c else m.clusterStop c).island c =
      { m.island c with safeSince := z } := by
    split
    · exact ⟨_, (Chip.drain_island _ _).trans (Chip.clusterQuiet_island _ _ _)⟩
    · split
      · exact ⟨_, Chip.clusterQuiet_island _ _ _⟩
      · exact m.clusterStop_island c
  obtain ⟨z, e⟩ := quiet
  unfold Chip.clusterReset
  dsimp only
  rw [Chip.setIsland_same, (Chip.clusterClear_moves .refl (within_refl _)).island (by decide) c, e]
  exact ⟨_, rfl⟩

theorem Chip.inReset_cluster_retries (m : Chip) {c : Nat} (hc : c < 12) : (m.inReset c).retries = (m.island c).retries := by
  obtain ⟨z, e⟩ := m.clusterReset_island c
  have reach : m.islandReach c = m.clusterReset c := if_pos hc
  unfold Chip.inReset
  rw [reach, e]
  dsimp only
  split <;> rfl

/-- Gelow resets a cluster that has stood in its safe state for a second. -/
theorem Chip.clusterRetry_resets {m : Chip} {c z : Nat} (safe : (m.island c).safeSince = some z) (on : m.rd RST_CFG_CL_RETRY = 1)
    (up : m.gelow.up = true) (run : m.runs islMgmt = true) (idle : (m.island c).resetEnd = none) (few : (m.island c).retries < 3)
    (due : z + 1000 * msTb ≤ m.tb) :
    m.clusterRetry c = (m.setIsland c { m.island c with retries := (m.island c).retries + 1 }).islandReset c false := by
  simp [Chip.clusterRetry, Chip.rdB, safe, on, up, run, idle, few, due]

/-! ## A reset ends (R474, R476) -/

/-- An island after its reset; a cluster leaves its safe state unless the axis island is in reset. -/
def Chip.released (m : Chip) (i : Nat) : Island :=
  let x := { m.island i with resetEnd := none, switchAt := none, hung := false, stoppedAt := none }
  if i < 12 then
    if (m.island islAxis).resetEnd.isSome then { x with safeSince := some m.tb, byAxis := true } else { x with safeSince := none, byAxis := false }
  else x

/-- The end of a reset on the island itself. -/
def Chip.releaseHere (m : Chip) (i : Nat) : Chip :=
  let m := m.setIsland i (m.released i)
  (m.wr CLK_SWBUSY 0 (clrBit (m.rd CLK_SWBUSY) i)).wr CLK_STOPPED 0 (clrBit (m.rd CLK_STOPPED) i)

/-- A cluster that a reset of the axis island put in its safe state leaves it. -/
def Chip.clusterBack (m : Chip) (c : Nat) : Chip :=
  if (m.island c).byAxis then m.setIsland c { m.island c with byAxis := false, safeSince := none } else m

def Chip.clustersBack (m : Chip) : Chip := (List.range 12).foldl Chip.clusterBack m

/-- Gelow's notice of a host island that is back. -/
def Chip.hostBack (m : Chip) (p : Nat) : Chip :=
  if m.gelow.up then (m.wr HP_STAT_GELOW_UP p 1).jourNotice p
  else { m with gelow := if p = 0 then { m.gelow with noticeA := true } else { m.gelow with noticeB := true } }

/-- A reset that has run its time ends: on the island itself, and on what waits for the island. -/
theorem Chip.islandRelease_ends {m : Chip} {i z : Nat} (held : (m.island i).resetEnd = some z) (due : z ≤ m.tb)
    (free : m.sys.holdTb = 0) :
    m.islandRelease i =
      if i = islAxis then (m.releaseHere i).clustersBack
      else if i = islHostA ∨ i = islHostB then (m.releaseHere i).hostBack (i - islHostA) else m.releaseHere i := by
  have open' : ¬ (m.tb < z ∨ m.sys.holdTb ≠ 0) := fun h => h.elim (Nat.not_lt.2 due) (· free)
  unfold Chip.islandRelease
  dsimp only
  rw [held]
  dsimp only
  rw [if_neg open']
  rfl

theorem Chip.setIsland_ne (m : Chip) (c : Nat) (x : Island) {i : Nat} (h : i ≠ c) : (m.setIsland c x).island i = m.island i :=
  tabGet_put_ne _ _ _ _ _ h

theorem Chip.clusterBack_island (m : Chip) {c i : Nat} (h : i ≠ c) : (m.clusterBack c).island i = m.island i := by
  unfold Chip.clusterBack
  split
  · exact Chip.setIsland_ne _ _ _ h
  · rfl

theorem Chip.clustersBack_island (m : Chip) {i : Nat} (h : 12 ≤ i) : m.clustersBack.island i = m.island i := by
  have walk : ∀ (l : List Nat) (m : Chip), (∀ c ∈ l, i ≠ c) → (l.foldl Chip.clusterBack m).island i = m.island i := by
    intro l
    induction l with
    | nil => exact fun _ _ => rfl
    | cons c r ih =>
      intro m away
      exact (ih _ fun x hx => away x (List.mem_cons_of_mem _ hx)).trans (Chip.clusterBack_island _ (away c List.mem_cons_self))
  refine walk _ _ fun c hc e => ?_
  have := List.mem_range.1 hc
  omega

theorem Chip.clustersBack_moves (m : Chip) : Moves [.isl] m m.clustersBack :=
  .foldl .refl fun _ _ h => .ite (Chip.setIsland_moves h (within_refl _)) h

theorem Chip.hostBack_moves (m : Chip) (p : Nat) : Moves [.rHp, .gelow, .rInt, .accums, .cyc] m (m.hostBack p) :=
  .ite (Chip.jourNotice_moves (.wr _ _ _ (by decide) .refl) (by decide)) (.gelow .refl (by decide))

/-- What waits for an island leaves the island itself, and the clocks' registers, as its release set them. -/
theorem Chip.islandRelease_here {m : Chip} {i z : Nat} (held : (m.island i).resetEnd = some z) (due : z ≤ m.tb) (free : m.sys.holdTb = 0) :
    (m.islandRelease i).island i = m.released i ∧
      ∀ f : Field, f.part = .rSys → ∀ j, (m.islandRelease i).rd f j = (m.releaseHere i).rd f j := by
  have here : (m.releaseHere i).island i = m.released i := Chip.setIsland_same _ _ _
  rw [Chip.islandRelease_ends held due free]
  split
  case isTrue axis =>
    refine ⟨(Chip.clustersBack_island _ (axis ▸ show 12 ≤ islAxis by decide)).trans here, fun f hp j => ?_⟩
    exact (Chip.clustersBack_moves _).rd f j (by rw [hp]; decide)
  case isFalse =>
    split
    · exact ⟨((Chip.hostBack_moves _ _).island (by decide) i).trans here,
        fun f hp j => (Chip.hostBack_moves _ _).rd f j (by rw [hp]; decide)⟩
    · exact ⟨here, fun _ _ _ => rfl⟩

theorem Chip.releaseHere_swbusy (m : Chip) (i : Nat) : bitAt ((m.releaseHere i).rd CLK_SWBUSY) i = false := by
  refine (congrArg (bitAt · i) ((Chip.rd_wr_ne _ _ _ _ _ _ (by decide)).trans (Chip.rd_wr_same _ _ _ _))).trans ?_
  exact bitAt_clrBit_mod _ _ _

theorem Chip.releaseHere_stopped (m : Chip) (i : Nat) : bitAt ((m.releaseHere i).rd CLK_STOPPED) i = false :=
  (congrArg (bitAt · i) (Chip.rd_wr_same _ _ _ _)).trans (bitAt_clrBit_mod _ _ _)

theorem Chip.released_runs (m : Chip) (i : Nat) :
    (m.released i).resetEnd = none ∧ (m.released i).hung = false ∧ (m.released i).stoppedAt = none := by
  unfold Chip.released
  dsimp only
  split
  · split
    · exact ⟨rfl, rfl, rfl⟩
    · exact ⟨rfl, rfl, rfl⟩
  · exact ⟨rfl, rfl, rfl⟩

/-- With the axis island in service a cluster leaves its safe state. -/
theorem Chip.released_cluster {m : Chip} {c : Nat} (hc : c < 12) (axis : (m.island islAxis).resetEnd = none) :
    (m.released c).safeSince = none := by
  unfold Chip.released
  simp [hc, axis]

/-- Settles O45: a reset by command, by the always-on domain and by Gelow is one operation, and so is its end for every island. -/
theorem islandResets : Obligations.IslandResets := by
  unfold Obligations.IslandResets
  refine ⟨?_, ?_, ?_, ?_, ?_⟩
  · intro i s ok other
    refine ⟨_, exec_islandReset ok, ?_, Chip.islandReset_last _ i.isLt other _, Chip.islandReset_auto _ other _⟩
    exact (congrArg Island.resetEnd (Chip.islandReset_island _ other _)).trans (Chip.inReset_end _ _)
  · intro i s up hung auto other
    refine ⟨_, exec_clockAutoRecover i s, ?_⟩
    rw [Chip.autoRecover_hung up hung auto, Chip.islandReset_island _ other]
    exact ⟨Chip.inReset_end _ _, Chip.islandReset_last _ i.isLt other _, Chip.islandReset_auto _ other _⟩
  · intro c z s safe on up run idle few due
    have other : c.val ≠ islMgmt := Nat.ne_of_lt (Nat.lt_of_lt_of_le c.isLt (show 12 ≤ islMgmt by decide))
    refine ⟨_, exec_clusterRetry c s, ?_⟩
    rw [Chip.clusterRetry_resets safe on up run idle few due, Chip.islandReset_island _ other]
    refine ⟨?_, Chip.inReset_end _ _, Chip.islandReset_last _ (Nat.lt_of_lt_of_le c.isLt (by decide)) other _⟩
    rw [Chip.inReset_cluster_retries _ c.isLt, Chip.setIsland_same]
  · intro c z s held due free axis
    obtain ⟨isl, regs⟩ := Chip.islandRelease_here held due free
    obtain ⟨up, well, -⟩ := s.chip.released_runs c.val
    refine ⟨_, exec_islandResetRelease _ s, ?_⟩
    change ((s.chip.islandRelease c.val).island c.val).resetEnd = none ∧ _ ∧ _ ∧ bitAt ((s.chip.islandRelease c.val).rd CLK_SWBUSY) c.val = false
    rw [isl, regs _ (by decide)]
    exact ⟨up, (congrArg Island.safeSince isl).trans (Chip.released_cluster c.isLt axis), (congrArg Island.hung isl).trans well,
      Chip.releaseHere_swbusy _ _⟩
  · intro i z s held due free
    obtain ⟨isl, regs⟩ := Chip.islandRelease_here held due free
    obtain ⟨up, well, clock⟩ := s.chip.released_runs i.val
    refine ⟨_, exec_islandResetRelease i s, ?_⟩
    dsimp only
    rw [isl, regs _ (by decide), regs _ (by decide)]
    exact ⟨up, well, clock, Chip.releaseHere_swbusy _ _, Chip.releaseHere_stopped _ _⟩

end Sys2Proof.Machine
end

section
/-! PROOFS. The resets of the module, the watchdogs, the restarts of the Anvil cores, sleep (R473, R477-R481). -/

namespace Sys2Proof.Machine

/-! ## What outlives a reset of the module (R473) -/

theorem tabGet_filter {α : Type} (t : Tab α) (p : Nat → Bool) (i : Nat) (d : α) (h : p i = true) :
    tabGet (t.filter fun x => p x.1) i d = tabGet t i d := by
  induction t with
  | nil => rfl
  | cons x r ih =>
    obtain ⟨j, v⟩ := x
    rw [List.filter_cons]
    by_cases e : j = i
    · subst e
      simp [tabGet, h]
    · split <;> simp [tabGet, e, ih]

theorem tabGet_filter_gone {α : Type} (t : Tab α) (p : Nat → Bool) (i : Nat) (d : α) (h : p i = false) :
    tabGet (t.filter fun x => p x.1) i d = d := by
  induction t with
  | nil => rfl
  | cons x r ih =>
    obtain ⟨j, v⟩ := x
    rw [List.filter_cons]
    split
    case isTrue k =>
      have e : j ≠ i := fun e => by simp [e, h] at k
      simp [tabGet, e, ih]
    case isFalse => exact ih

/-- A kept field reads as before. -/
theorem Chip.durable_rd (m : Chip) {fs : List Field} {f : Field} (h : (fs.any fun g => g.id == f.id) = true) (i : Nat) :
    (m.durable fs).rd f i = m.rd f i :=
  congrArg (tabGet · i (f.reset i)) (tabGet_filter m.regs (fun k => fs.any fun g => g.id == k) f.id [] h)

/-- Every other field reads its reset value. -/
theorem Chip.durable_rd_reset (m : Chip) {fs : List Field} {f : Field} (h : (fs.any fun g => g.id == f.id) = false) (i : Nat) :
    (m.durable fs).rd f i = f.reset i :=
  congrArg (tabGet · i (f.reset i)) (tabGet_filter_gone m.regs (fun k => fs.any fun g => g.id == k) f.id [] h)

/-- The machine that a module reset finds. -/
def Chip.ordered (m : Chip) (c : ResetCause) : Chip := if causeOrdered c then m.drain else m

theorem Chip.ordered_moves (m : Chip) (c : ResetCause) : Moves [.rInt, .asleep, .accums, .jour, .recs, .sys, .cyc] m (m.ordered c) :=
  .ite (Chip.drain_moves .refl (within_refl _)) .refl

/-- A fuse reads the same after a module reset. -/
theorem Chip.moduleReset_kept (m : Chip) (c : ResetCause) {f : Field} (hp : f.part = .rProt)
    (other : f.id ≠ RST_CAUSE.id) (h : (keptFields.any fun g => g.id == f.id) = true) (i : Nat) :
    (m.moduleReset c).rd f i = m.rd f i := by
  refine (Chip.rd_wr_ne _ _ _ _ _ _ other).trans <| (Chip.durable_rd (m.ordered c) h i).trans ?_
  exact (m.ordered_moves c).rd f i (by rw [hp]; decide)

theorem Chip.moduleReset_stage (m : Chip) (c : ResetCause) : (m.moduleReset c).rd BOOT_STAT_STAGE = 0 :=
  (Chip.rd_wr_ne _ _ _ _ _ _ (by decide)).trans (Chip.durable_rd_reset (m.ordered c) (by decide) 0)

/-- RST_CAUSE shows the cause beside the ones it held. -/
theorem Chip.moduleReset_cause (m : Chip) (c : ResetCause) : bitAt ((m.moduleReset c).rd RST_CAUSE) (causeBit c) = true := by
  refine (congrArg (bitAt · (causeBit c)) (Chip.rd_wr_same _ _ _ _)).trans (bitAt_setBit_mod _ _ _ ?_)
  cases c <;> decide

theorem exec_moduleReset {c : ResetCause} {s : State} (due : s.chip.resetDue c = true) :
    exec (.moduleReset c) s = .next { s with chip := s.chip.moduleReset c } := by
  change execModuleReset c s = _
  simp [execModuleReset, State.upd, due]

/-! ## Gelow goes (R350, R377) -/

/-- Nothing of the system's state but the watchdogs' times. -/
def SameSys (x y : Chip) : Prop := ∃ v c, y.sys = { x.sys with wdtV := v, wdtC := c }

theorem SameSys.of_eq {x y : Chip} (h : y.sys = x.sys) : SameSys x y := ⟨_, _, h⟩

theorem SameSys.trans {x y z : Chip} (h : SameSys x y) (g : SameSys y z) : SameSys x z := by
  obtain ⟨a, b, h⟩ := h
  obtain ⟨c, d, g⟩ := g
  exact ⟨c, d, by rw [g, h]⟩

theorem Moves.sameSys {L : List Part} {x y : Chip} (h : Moves L x y) (p : Part.sys ∉ L) : SameSys x y := .of_eq (h.kept.sys p)

theorem SameSys.occur (m : Chip) (n : Nat) : SameSys m (m.occur n) := by
  unfold Chip.occur
  split
  · exact .of_eq rfl
  · have woken : SameSys m (if m.asleep && m.canWake n then m.wakeBy n else m.noteWake n) := by
      split
      · exact ⟨_, _, rfl⟩
      · exact (Chip.noteWake_moves .refl (within_refl _)).sameSys (by decide)
    have pends (x : Chip) (t : Nat) : SameSys x ((((x.pendCore n 0).pendCore n 1).pendHost n 0 t).pendHost n 1 t) :=
      (Chip.pendHost_moves (Chip.pendHost_moves (Chip.pendCore_moves (Chip.pendCore_moves .refl (by decide)) (by decide)) (by decide))
        (within_refl _)).sameSys (by decide)
    exact woken.trans (pends _ _)

theorem SameSys.setFlag (m : Chip) (f : Field) (i b : Nat) : SameSys m (m.setFlag f i b) := .of_eq (Eq.refl _)

theorem SameSys.raise (m : Chip) (fl ie : Field) (i b src : Nat) : SameSys m (m.raise fl ie i b src) := by
  unfold Chip.raise
  dsimp only
  split
  · exact (SameSys.setFlag _ _ _ _).trans (.occur _ _)
  · exact .of_eq rfl

theorem SameSys.portChange (m : Chip) (p b : Nat) : SameSys m (m.portChange p b) :=
  ((Chip.collect_moves (m := m) .refl (within_refl _)).sameSys (by decide)).trans (.raise _ _ _ _ _ _)

/-- A port change writes of its port's registers only the flags. -/
theorem Chip.portChange_rd (m : Chip) (p b : Nat) {f : Field} (hp : f.part ≠ .rInt) (hf : f.id ≠ HP_FLAGS.id)
    (i : Nat) : (m.portChange p b).rd f i = m.rd f i := by
  refine (Chip.raise_rd_ne _ _ _ _ _ _ _ _ hp hf).trans ((Chip.collect_moves .refl (within_refl _)).rd f i ?_)
  have := f.part_mem
  intro k
  simp only [List.mem_cons, List.not_mem_nil, or_false] at k
  rcases k with k | k | k
  · exact hp k
  all_goals rw [k] at this; revert this; decide

/-- GELOW_UP of a port falls. -/
def Chip.portDown (m : Chip) (p : Nat) : Chip := (m.wr HP_STAT_GELOW_UP p 0).portChange p HP_FLAGS_GELOW_DOWN

theorem Chip.portDown_moves {L : List Part} {b m : Chip} (h : Moves L b m) (p : Nat)
    (w : within [.rHp, .rInt, .asleep, .accums, .sys, .cyc] L = true) : Moves L b (m.portDown p) :=
  Chip.portChange_moves (Chip.wr_moves h (within_sub w (by decide))) w

theorem SameSys.portDown (m : Chip) (p : Nat) : SameSys m (m.portDown p) :=
  (SameSys.of_eq (Eq.refl (m.wr HP_STAT_GELOW_UP p 0).sys)).trans (.portChange _ _ _)

theorem Chip.portDown_rd (m : Chip) (p i : Nat) :
    (m.portDown p).rd HP_STAT_GELOW_UP i = if i = p then 0 else m.rd HP_STAT_GELOW_UP i := by
  refine (Chip.portChange_rd _ _ _ (by decide) (by decide) i).trans ?_
  split
  case isTrue e => exact e ▸ Chip.rd_wr_same _ _ _ _
  case isFalse e => exact Chip.rd_wr_at _ _ _ _ _ _ e

/-- Gelow stops taking doors at both ports. -/
theorem Chip.gelowDown_up {m : Chip} (up : m.gelow.up = true) :
    m.gelowDown = (Chip.portDown { m with gelow := { m.gelow with up := false } } 0).portDown 1 := if_pos up

theorem Chip.gelowDown_shows {m : Chip} (up : m.gelow.up = true) :
    m.gelowDown.gelow.up = false ∧ m.gelowDown.rd HP_STAT_GELOW_UP 0 = 0 ∧ m.gelowDown.rd HP_STAT_GELOW_UP 1 = 0 := by
  rw [Chip.gelowDown_up up]
  refine ⟨?_, ?_, ?_⟩
  · have down := (Chip.portDown_moves (Chip.portDown_moves (b := { m with gelow := { m.gelow with up := false } }) .refl 0 (within_refl _)) 1
      (within_refl _)).kept.gelow (by decide)
    exact congrArg Gelow.up down
  · rw [Chip.portDown_rd, Chip.portDown_rd]
    rfl
  · rw [Chip.portDown_rd]
    rfl

theorem SameSys.gelowDown {m : Chip} (up : m.gelow.up = true) : SameSys m m.gelowDown := by
  rw [Chip.gelowDown_up up]
  exact ((SameSys.portDown { m with gelow := { m.gelow with up := false } } 0).trans (.portDown _ 1))

/-! ## The watchdogs (R477) -/

theorem exec_wdtVExpire (s : State) : exec .wdtVExpire s = .next { s with chip := s.chip.wdtV } := rfl

theorem exec_wdtCExpire (s : State) : exec .wdtCExpire s = .next { s with chip := s.chip.wdtC } := rfl

/-- Anvil-V stopped, before the restart is noted. -/
def Chip.vHalted (m : Chip) : Chip := ((m.count SYS_VRST_CNT 0).coreReset 0).gelowDown

theorem Chip.vHalt_moves (m : Chip) : Moves [.rSys, .rInt, .coreV, .coreC, .cyc] m ((m.count SYS_VRST_CNT 0).coreReset 0) :=
  Chip.coreReset_moves (Chip.count_moves .refl (by decide)) (by decide)

theorem Chip.vHalted_moves (m : Chip) : Moves [.rSys, .rHp, .rInt, .coreV, .coreC, .asleep, .accums, .gelow, .sys, .cyc] m m.vHalted :=
  Chip.gelowDown_moves (m.vHalt_moves.mono (by decide)) (by decide)

theorem SameSys.vHalted {m : Chip} (up : m.gelow.up = true) : SameSys m m.vHalted := by
  have gelow : ((m.count SYS_VRST_CNT 0).coreReset 0).gelow = m.gelow := m.vHalt_moves.kept.gelow (by decide)
  exact (m.vHalt_moves.sameSys (by decide)).trans (.gelowDown (gelow ▸ up))

/-- The restarts of Anvil-V in the last 10 s, this one first. -/
def Chip.restarts (m : Chip) : List Nat := m.tb :: m.sys.vRestarts.filter fun t => decide (m.tb < t + 10000 * msTb)

/-- A stopped Anvil-V whose restart is noted. -/
def Chip.vNoted (m : Chip) : Chip :=
  { m with sys := { m.sys with vRestarts := m.restarts, vDown := some m.tb, vReady := false, wdtV := m.tb } }

theorem Chip.vRestart_cases (m : Chip) :
    m.vRestart = if 3 ≤ m.vHalted.restarts.length then m.vHalted.moduleReset .vrestart else m.vHalted.vNoted := rfl

/-- A restart of Anvil-V that is the first in 10 s. -/
theorem Chip.vRestart_first {m : Chip} (up : m.gelow.up = true) (first : m.sys.vRestarts = []) : m.vRestart = m.vHalted.vNoted := by
  have noted : m.vHalted.restarts = [m.vHalted.tb] := by
    obtain ⟨_, _, e⟩ := SameSys.vHalted up
    rw [Chip.restarts, e, first]
    rfl
  rw [Chip.vRestart_cases, noted]
  exact if_neg (show ¬ 3 ≤ 1 by decide)

theorem Chip.vNoted_rd (m : Chip) (f : Field) (i : Nat) : m.vNoted.rd f i = m.rd f i := rfl

theorem Chip.coreReset_v (m : Chip) : (m.coreReset 0).coreV = {} := rfl

theorem Chip.coreReset_c (m : Chip) : (m.coreReset 1).coreC = {} := rfl

/-- The reset of Anvil-C leaves Anvil-V. -/
theorem Chip.coreReset_c_v (m : Chip) : (m.coreReset 1).coreV = m.coreV := by
  have acts : Moves [.rInt] m ((m.coreC.frames.foldl (fun m f => m.wr INT_SRC_ACT f.src (clrBit (m.rd INT_SRC_ACT f.src) 1)) m).resetFields
      [INT_TSTAT_ACTIVE, INT_TSTAT_NEST, INT_TSTAT_RUNURG, INT_TSTAT_RUNTIE] (· == 1)) :=
    Chip.resetFields_moves (.foldl .refl fun _ _ h => Chip.wr_moves h (by decide)) (by decide)
  exact acts.kept.coreV (by decide)

theorem Chip.vHalted_stopped (m : Chip) : m.vHalted.coreV = {} := by
  refine ((Chip.gelowDown_moves (m := (m.count SYS_VRST_CNT 0).coreReset 0) .refl (within_refl _)).kept.coreV (by decide)).trans ?_
  exact Chip.coreReset_v _

theorem Chip.vHalted_cnt (m : Chip) : m.vHalted.rd SYS_VRST_CNT = min (m.rd SYS_VRST_CNT + 1) (2 ^ SYS_VRST_CNT.w - 1) := by
  refine ((Chip.gelowDown_moves .refl (within_refl _)).rd _ _ (by decide)).trans ?_
  refine ((Chip.coreReset_moves .refl (within_refl _)).rd _ _ (by decide)).trans ?_
  exact Chip.count_rd _ _ _

theorem Chip.wdtV_expires {m : Chip} (on : m.coreV.running = true) (run : m.runs islMgmt = true) (free : m.sys.holdTb = 0)
    (due : m.sys.wdtV + max 1 (m.rd WDT_V_TMO) * msTb ≤ m.tb) : m.wdtV = m.vRestart := if_pos ⟨on, run, free, due⟩

theorem Chip.wdtC_expires {m : Chip} (on : m.coreC.running = true) (run : m.runs islMgmt = true) (set : m.rd PROT_WDTC_TMO ≠ 0)
    (due : m.sys.wdtC + m.rd PROT_WDTC_TMO * msTb ≤ m.tb) : m.wdtC = m.cRestart := if_pos ⟨on, run, set, due⟩

theorem Chip.cRestart_stops (m : Chip) : m.cRestart.coreC = {} ∧ m.cRestart.sys.cDown = some m.tb := by
  refine ⟨Chip.coreReset_c m, ?_⟩
  have tb : (m.coreReset 1).tb = m.tb := (Chip.coreReset_moves .refl (within_refl _)).kept.tb (by decide)
  exact congrArg some tb

/-! ## Anvil-C starts again (R477) -/

theorem exec_anvilCRestart (s : State) : exec .anvilCRestart s = .next { s with chip := s.chip.restartC } := rfl

theorem Chip.restartC_starts {m : Chip} {z : Nat} (up : m.gelow.up = true) (run : m.runs islMgmt = true) (idle : m.sys.cAt = none)
    (down : m.sys.cDown = some z) : m.restartC = m.startC !(m.imageGone m.nand.activeC) := by
  simp [Chip.restartC, up, run, idle, down]

/-- Anvil-C runs where its image can be read and passes. -/
theorem Chip.startC_shows (m : Chip) (reads : Bool) :
    (m.startC reads).coreC.running = (reads && m.imgPass (m.image m.nand.activeC) 2) ∧ (m.startC reads).sys.cDown = none := by
  unfold Chip.startC
  dsimp only
  have same : Chip.imgPass { m with sys := { m.sys with cDown := none, cAt := none } } (m.image m.nand.activeC) 2 =
    m.imgPass (m.image m.nand.activeC) 2 := rfl
  rw [same]
  split
  case isTrue go =>
    refine ⟨go.symm, ?_⟩
    exact congrArg SysSt.cDown ((Chip.imgLoad_moves (m := { m with sys := { m.sys with cDown := none, cAt := none } }) .refl
      (within_refl _)).kept.sys (by decide))
  case isFalse stop => exact ⟨(Bool.eq_false_iff.2 stop).symm, rfl⟩

/-! ## Sleep (R480, R481) -/

theorem exec_sleepRequest {who : Writer} {s : State} (ok : s.chip.sysWr who = true) :
    exec (.sleepRequest who) s = .next { s with chip := { s.chip with sys := { s.chip.sys with sleepReq := true } } } := by
  change execSleepRequest who s = _
  simp [execSleepRequest, State.upd, ok]

theorem exec_wakeRequest (who : Writer) (s : State) : exec (.wakeRequest who) s = .next { s with chip := s.chip.wakeReq who } := rfl

theorem Chip.wakeReq_wakes {m : Chip} {who : Writer} {p : Nat} (port : writerPort who = some p) (sleeps : m.asleep = true)
    (ok : m.sysOk who = true) (run : m.runs (islHostA + p) = true) : m.wakeReq who = m.awake := by
  simp [Chip.wakeReq, port, sleeps, ok, run]

/-- Settles O47: what a reset of the module keeps, and the restarts of the two cores, part by part. -/
theorem moduleResets : Obligations.ModuleResets := by
  unfold Obligations.ModuleResets
  refine ⟨?_, ?_, ?_, ?_, ?_, ?_, ?_⟩
  · intro k s on
    refine ⟨_, exec_moduleReset (by simp [Chip.resetDue, on]), Chip.moduleReset_cause _ .pin, rfl, Chip.moduleReset_stage _ _, ?_, ?_, rfl, rfl⟩
    · exact Chip.moduleReset_kept _ _ (by decide) (by decide) (by decide) k
    · exact Chip.moduleReset_kept _ _ (by decide) (by decide) (by decide) 0
  · intro s on run free due first up
    refine ⟨_, exec_wdtVExpire s, ?_⟩
    rw [Chip.wdtV_expires on run free due, Chip.vRestart_first up first]
    have gelow : ((s.chip.count SYS_VRST_CNT 0).coreReset 0).gelow = s.chip.gelow := s.chip.vHalt_moves.kept.gelow (by decide)
    obtain ⟨down, portA, portB⟩ := Chip.gelowDown_shows (m := (s.chip.count SYS_VRST_CNT 0).coreReset 0) (gelow ▸ up)
    have tb : s.chip.vHalted.tb = s.chip.tb := s.chip.vHalted_moves.kept.tb (by decide)
    rw [Chip.vNoted_rd, Chip.vNoted_rd, Chip.vNoted_rd]
    exact ⟨congrArg CoreSt.running s.chip.vHalted_stopped, congrArg some tb, s.chip.vHalted_cnt, down, portA, portB⟩
  · intro s on run set due
    refine ⟨_, exec_wdtCExpire s, ?_⟩
    rw [Chip.wdtC_expires on run set due]
    obtain ⟨stopped, down⟩ := s.chip.cRestart_stops
    exact ⟨congrArg CoreSt.running stopped, down, Chip.coreReset_c_v _⟩
  · intro z s up run idle down
    refine ⟨_, exec_anvilCRestart s, ?_⟩
    rw [Chip.restartC_starts up run idle down]
    obtain ⟨runs, done⟩ := s.chip.startC_shows !(s.chip.imageGone s.chip.nand.activeC)
    have moved := Chip.startC_moves (m := s.chip) (reads' := !(s.chip.imageGone s.chip.nand.activeC)) .refl (within_refl _)
    exact ⟨runs, done, moved.kept.coreV (by decide), (SameRegs.rfl _ _ _).moves moved (by decide)⟩
  · intro who s ok
    exact ⟨_, exec_sleepRequest ok, rfl, SameRegs.rfl _ _ _⟩
  · intro who p s port sleeps ok run
    refine ⟨_, exec_wakeRequest who s, ?_⟩
    rw [Chip.wakeReq_wakes port sleeps ok run]
    exact ⟨rfl, rfl, SameRegs.rfl _ _ _⟩
  · intro c k s on due hk
    refine ⟨_, exec_moduleReset due, Chip.moduleReset_cause _ _, rfl, Chip.moduleReset_stage _ _, ?_, ?_, rfl⟩
    · exact Chip.moduleReset_kept _ _ (by decide) (by decide) (by decide) k
    · exact Chip.moduleReset_kept _ _ (by decide) (by decide) (by decide) 0

end Sys2Proof.Machine
end

section
/-! PROOFS. The boot ROM, the start of Gelow, the recovery upload, the keys and the seal (R482-R486). -/

namespace Sys2Proof.Machine

theorem exec_bootRom (p : BootPins) (s : State) :
    exec (.bootRom p) s = .next { s with chip := s.chip.rom p.recoveryLow p.t0Ready p.t1Ready } := rfl

theorem exec_gelowStart (s : State) : exec .gelowStart s = .next { s with chip := s.chip.gelowStart } := rfl

/-! ## Images (R483) -/

/-- An image passes by the key slots alone. -/
theorem Chip.imgPass_congr {x y : Chip} (hash : ∀ i, y.rd KEY_HASH i = x.rd KEY_HASH i) (prog : y.rd KEY_STAT_PROG = x.rd KEY_STAT_PROG)
    (rev : y.rd KEY_STAT_REV = x.rd KEY_STAT_REV) (img : List Byte) (ty : Nat) : y.imgPass img ty = x.imgPass img ty := by
  unfold Chip.imgPass Chip.keyKnown Chip.keyLive Chip.keyHash
  simp only [hash, prog, rev]

theorem Chip.recovery_shows (m : Chip) {e : Nat} (h : e < 16) :
    (m.recovery e).rd BOOT_STAT_STAGE = 8 ∧ (m.recovery e).rd BOOT_STAT_ERR = e := by
  refine ⟨(Chip.rd_wr_ne _ _ _ _ _ _ (by decide)).trans (Chip.rd_wr_same _ _ _ _), ?_⟩
  exact (Chip.rd_wr_same _ _ _ _).trans (Nat.mod_eq_of_lt h)

theorem Chip.stageOne_shows (m : Chip) (img : List Byte) :
    (m.stageOne img).rd BOOT_STAT_STAGE = 1 ∧ (m.stageOne img).coreV.running = true ∧ (m.stageOne img).coreV.mode = 3 ∧
      (m.stageOne img).coreV.pc = imgWord img 20 := ⟨Chip.rd_wr_same _ _ _ _, rfl, rfl, rfl⟩

/-! ## The ROM (R482) -/

/-- What the ROM does before it looks for an image. -/
def Chip.romUp (m : Chip) (t0 t1 : Bool) : Chip :=
  { m with
    mem := [], coreV := { m.coreV with running := true, mode := 3 }, sys := { m.sys with holdTb := 0, t0Ready := t0, t1Ready := t1 }
    isl := m.isl.map fun (p : Nat × Island) => (p.1, { p.2 with resetEnd := none }) }.wr CLK_STAT_PLLB_LOCK 0 1

/-- The ROM's search for the first stage. -/
def Chip.romSearch (m : Chip) : Chip :=
  match m.nand.boot.find? fun b => m.imgPass b 0 with
  | some b => m.stageOne b
  | none => m.recovery 1

section
variable {m : Chip} (fresh : m.rd BOOT_STAT_STAGE = 0) (on : m.sys.off = false) (free : m.sys.holdTb ≤ m.tb)

include fresh on free

theorem Chip.rom_runs (pinLow t0 t1 : Bool) :
    m.rom pinLow t0 t1 =
      if pinLow || !(m.romUp t0 t1).rdB KEY_STAT_LIFE then (m.romUp t0 t1).recovery 0
      else if !t0 then (m.romUp t0 t1).recovery 5 else (m.romUp t0 t1).romSearch := by
  have go : ¬ (m.rd BOOT_STAT_STAGE ≠ 0 ∨ m.sys.off = true ∨ m.tb < m.sys.holdTb) := by
    simp [fresh, on, free]
  exact if_neg go

theorem Chip.rom_pin (t0 t1 : Bool) : m.rom true t0 t1 = (m.romUp t0 t1).recovery 0 := by
  rw [Chip.rom_runs fresh on free]
  rfl

theorem Chip.rom_production (life : m.rd KEY_STAT_LIFE = 1) (t0 t1 : Bool) :
    m.rom false t0 t1 = if !t0 then (m.romUp t0 t1).recovery 5 else (m.romUp t0 t1).romSearch := by
  have same : (m.romUp t0 t1).rd KEY_STAT_LIFE = 1 := (Chip.rd_wr_ne _ _ _ _ _ _ (by decide)).trans life
  rw [Chip.rom_runs fresh on free]
  simp [Chip.rdB, same]

end

theorem Chip.romUp_imgPass (m : Chip) (t0 t1 : Bool) (img : List Byte) (ty : Nat) : (m.romUp t0 t1).imgPass img ty = m.imgPass img ty :=
  Chip.imgPass_congr (fun _ => Chip.rd_wr_ne _ _ _ _ _ _ (by decide)) (Chip.rd_wr_ne _ _ _ _ _ _ (by decide))
    (Chip.rd_wr_ne _ _ _ _ _ _ (by decide)) _ _

theorem Chip.romSearch_found {m : Chip} (found : (m.nand.boot.any fun b => m.imgPass b 0) = true) : ∃ b, m.romSearch = m.stageOne b := by
  unfold Chip.romSearch
  cases e : m.nand.boot.find? fun b => m.imgPass b 0 with
  | some b => exact ⟨b, rfl⟩
  | none =>
    obtain ⟨b, mem, pass⟩ := List.any_eq_true.1 found
    exact absurd pass (List.find?_eq_none.1 e b mem)

theorem Chip.romSearch_none {m : Chip} (lost : (m.nand.boot.any fun b => m.imgPass b 0) = false) : m.romSearch = m.recovery 1 := by
  have e : (m.nand.boot.find? fun b => m.imgPass b 0) = none :=
    List.find?_eq_none.2 fun b mem pass => Bool.false_ne_true (lost.symm.trans (List.any_eq_true.2 ⟨b, mem, pass⟩))
  unfold Chip.romSearch
  rw [e]

theorem Chip.romSearch_cases (m : Chip) : (∃ b, m.romSearch = m.stageOne b) ∨ m.romSearch = m.recovery 1 := by
  cases found : m.nand.boot.any fun b => m.imgPass b 0 with
  | true => exact .inl (Chip.romSearch_found found)
  | false => exact .inr (Chip.romSearch_none found)

/-- Whatever the search finds, Anvil-V runs in machine mode and PLLB is locked. -/
theorem Chip.romSearch_core {m : Chip} (runs : m.coreV.running = true) (mode : m.coreV.mode = 3) (lock : m.rd CLK_STAT_PLLB_LOCK = 1) :
    m.romSearch.coreV.running = true ∧ m.romSearch.coreV.mode = 3 ∧ m.romSearch.rd CLK_STAT_PLLB_LOCK = 1 := by
  rcases m.romSearch_cases with ⟨b, e⟩ | e
  · rw [e]
    refine ⟨rfl, rfl, (Chip.rd_wr_ne _ _ _ _ _ _ (by decide)).trans ?_⟩
    exact ((Chip.imgLoad_moves .refl (within_refl _)).rd _ _ (by decide)).trans lock
  · rw [e]
    exact ⟨runs, mode, (Chip.rd_wr_ne _ _ _ _ _ _ (by decide)).trans ((Chip.rd_wr_ne _ _ _ _ _ _ (by decide)).trans lock)⟩

/-! ## The start of Gelow (R477, R483) -/

/-- A slot's image can be read and passes. -/
def Chip.slotGood (m : Chip) (k : Nat) : Bool := m.slotReads k m.sys.t0Ready m.sys.t1Ready && m.imgPass (m.image k) 1

/-- The image of a slot loaded and named in BOOT_STAT. -/
def Chip.slotLoad (m : Chip) (k : Nat) : Chip :=
  ((m.imgLoad (m.image k) 1).wr BOOT_STAT_STAGE 0 4).wrB BOOT_STAT_FALLBACK 0 (k != m.nand.activeV)

/-- Anvil-V runs the image of a slot. -/
def Chip.slotRun (m : Chip) (k : Nat) : Chip :=
  { m with
    coreV := { m.coreV with pc := imgWord (m.image k) 20 }
    sys := { m.sys with wdtV := m.tb, vVersion := imgWord (m.image k) 8, vEntry := imgWord (m.image k) 20 } }

/-- Gelow's first acts. -/
def Chip.firstActs (m : Chip) (t0 t1 : Bool) : Chip :=
  [0, 1].foldl (fun m p => if m.clockOk (islHostA + p) then m.jourNotice p else m)
    ((m.jourRestart.startC (m.slotReads m.nand.activeC t0 t1)).gelowUp)

theorem Chip.gelowStart_unsealed {m : Chip} (stage : m.rd BOOT_STAT_STAGE = 1) (open' : m.rd PROT_SEAL_SEAL = 0) :
    m.gelowStart = (m.wr BOOT_STAT_STAGE 0 9).wr BOOT_STAT_ERR 0 3 := by
  simp [Chip.gelowStart, Chip.rdB, stage, open']

section
variable {m : Chip} (stage : m.rd BOOT_STAT_STAGE = 2) (sealed : m.rd PROT_SEAL_SEAL = 1)

include stage sealed

theorem Chip.gelowStart_sealed :
    m.gelowStart = match [m.nand.activeV, 1 - m.nand.activeV].find? m.slotGood with
      | none => (m.wr BOOT_STAT_STAGE 0 9).wr BOOT_STAT_ERR 0 4
      | some k => ((m.slotLoad k).slotRun k).firstActs m.sys.t0Ready m.sys.t1Ready := by
  have go : ¬ (m.rd BOOT_STAT_STAGE ≠ 1 ∧ m.rd BOOT_STAT_STAGE ≠ 2) := fun h => h.2 stage
  have shut : ¬ (!m.rdB PROT_SEAL_SEAL) = true := by simp [Chip.rdB, sealed]
  exact (if_neg go).trans (if_neg shut)

theorem Chip.gelowStart_active (good : m.slotGood m.nand.activeV = true) :
    m.gelowStart = ((m.slotLoad m.nand.activeV).slotRun m.nand.activeV).firstActs m.sys.t0Ready m.sys.t1Ready := by
  rw [Chip.gelowStart_sealed stage sealed, List.find?_cons_of_pos good]

theorem Chip.gelowStart_other (bad : m.slotGood m.nand.activeV = false) (good : m.slotGood (1 - m.nand.activeV) = true) :
    m.gelowStart = ((m.slotLoad (1 - m.nand.activeV)).slotRun (1 - m.nand.activeV)).firstActs m.sys.t0Ready m.sys.t1Ready := by
  rw [Chip.gelowStart_sealed stage sealed, List.find?_cons_of_neg (by simp [bad]), List.find?_cons_of_pos good]

theorem Chip.gelowStart_neither (bad : m.slotGood m.nand.activeV = false) (worse : m.slotGood (1 - m.nand.activeV) = false) :
    m.gelowStart = (m.wr BOOT_STAT_STAGE 0 9).wr BOOT_STAT_ERR 0 4 := by
  rw [Chip.gelowStart_sealed stage sealed, List.find?_cons_of_neg (by simp [bad]), List.find?_cons_of_neg (by simp [worse])]
  rfl

end

theorem Chip.jourNotices_moves (m : Chip) :
    Moves [.rInt, .accums, .cyc] m ([0, 1].foldl (fun m p => if m.clockOk (islHostA + p) then m.jourNotice p else m) m) :=
  .foldl .refl fun _ _ h => .ite (Chip.jourNotice_moves h (within_refl _)) h

theorem Chip.firstActs_moves (m : Chip) (t0 t1 : Bool) :
    Moves [.rHp, .rInt, .asleep, .accums, .gelow, .sys, .cyc, .mem, .coreC, .jour, .recs] m (m.firstActs t0 t1) :=
  .trans (Chip.gelowUp_moves (Chip.startC_moves (Chip.jourRestart_moves .refl (by decide)) (by decide)) (by decide))
    ((Chip.jourNotices_moves _).mono (by decide))

/-- The notices that a port waited for. -/
def Chip.noticesTaken (m : Chip) : Chip :=
  let m := if m.gelow.noticeA then m.jourNotice 0 else m
  if m.gelow.noticeB then m.jourNotice 1 else m

/-- The ports are told that Gelow takes doors. -/
def Chip.portsUp (m : Chip) : Chip := [0, 1].foldl (fun m p => (m.wr HP_STAT_GELOW_UP p 1).portChange p HP_FLAGS_GELOW_UP_IN) m

theorem Chip.portsUp_gelow (m : Chip) : m.portsUp.noticesTaken.gelow = m.gelow := by
  have ports : Moves [.rHp, .rInt, .asleep, .accums, .sys, .cyc] m m.portsUp :=
    .foldl .refl fun _ _ h => Chip.portChange_moves (Chip.wr_moves h (by decide)) (within_refl _)
  have notices (x : Chip) : Moves [.rInt, .accums, .cyc] x x.noticesTaken :=
    .ite (Chip.jourNotice_moves (.ite (Chip.jourNotice_moves .refl (within_refl _)) .refl) (within_refl _))
      (.ite (Chip.jourNotice_moves .refl (within_refl _)) .refl)
  exact ((notices _).kept.gelow (by decide)).trans (ports.kept.gelow (by decide))

/-- Gelow takes doors. -/
theorem Chip.gelowUp_up (m : Chip) : m.gelowUp.gelow.up = true := by
  unfold Chip.gelowUp
  split
  case isTrue up => exact up
  case isFalse =>
    exact congrArg Gelow.up (Chip.portsUp_gelow { m with gelow := { m.gelow with up := true } })

theorem Chip.firstActs_up (m : Chip) (t0 t1 : Bool) : (m.firstActs t0 t1).gelow.up = true :=
  (congrArg Gelow.up ((Chip.jourNotices_moves _).kept.gelow (by decide))).trans (Chip.gelowUp_up _)

/-- A start from a slot. -/
theorem Chip.slotStart_shows (m : Chip) (k : Nat) (t0 t1 : Bool) :
    (((m.slotLoad k).slotRun k).firstActs t0 t1).rd BOOT_STAT_STAGE = 4 ∧
      (((m.slotLoad k).slotRun k).firstActs t0 t1).rd BOOT_STAT_FALLBACK = b2n (k != m.nand.activeV) ∧
      (((m.slotLoad k).slotRun k).firstActs t0 t1).coreV.pc = imgWord (m.image k) 20 ∧
      (((m.slotLoad k).slotRun k).firstActs t0 t1).gelow.up = true := by
  have acts := ((m.slotLoad k).slotRun k).firstActs_moves t0 t1
  have nand : (m.slotLoad k).nand = m.nand := (Chip.imgLoad_moves (m := m) .refl (within_refl _)).kept.nand (by decide)
  refine ⟨?_, ?_, ?_, Chip.firstActs_up _ _ _⟩
  · exact (acts.rd _ _ (by decide)).trans ((Chip.rd_wr_ne _ _ _ _ _ _ (by decide)).trans (Chip.rd_wr_same _ _ _ _))
  · exact (acts.rd _ _ (by decide)).trans ((Chip.rd_wr_same _ _ _ _).trans (Nat.mod_eq_of_lt (b2n_lt _)))
  · refine (congrArg CoreSt.pc (acts.kept.coreV (by decide))).trans ?_
    exact congrArg (fun n => imgWord (tabGet n.images k []) 20) nand

/-! ## The recovery upload (R485) -/

theorem exec_bootRcvGo {p : Port} {w : Word} {s : State} (run : s.chip.runs (islHostA + portNo p) = true) :
    exec (.bootRcvGo p w) s = .next { s with chip := s.chip.bootRcv (portNo p) w.toNat } := by
  cases p
  · exact congrArg (fun c => Host.Outcome.next { s with chip := c }) (if_pos run)
  · exact congrArg (fun c => Host.Outcome.next { s with chip := c }) (if_pos run)

/-- Outside recovery, and without GO, only LEN is stored. -/
theorem Chip.bootRcv_len {m : Chip} {p w : Nat} (open' : m.rd PROT_SEAL_SEAL = 0) (stage : m.rd BOOT_STAT_STAGE ≠ 8) :
    m.bootRcv p w = m.wrFrom BOOT_RCV_LEN 0 w := by
  have kept : (m.wrFrom BOOT_RCV_LEN 0 w).rd BOOT_STAT_STAGE ≠ 8 := by rwa [Chip.wrFrom_rd_ne _ _ _ _ _ _ (by decide)]
  simp [Chip.bootRcv, Chip.rdB, open', kept]

@[simp] theorem Chip.wrFrom_load (m : Chip) (f : Field) (i w a n : Nat) : (m.wrFrom f i w).load a n = m.load a n := by
  induction n generalizing a with
  | zero => rfl
  | succ n ih => exact congrArg (m.byte a :: ·) (ih _)

/-- In recovery of a device in development GO runs an upload of the first stage. -/
theorem Chip.bootRcv_runs {m : Chip} {p w : Nat} (open' : m.rd PROT_SEAL_SEAL = 0) (stage : m.rd BOOT_STAT_STAGE = 8)
    (go : wordField BOOT_RCV_GO w = 1) (len : wordField BOOT_RCV_LEN w ≤ 65536) (life : m.rd KEY_STAT_LIFE = 0)
    (head : imgHead (m.load (0x40000 + p * 0x10000) (wordField BOOT_RCV_LEN w)) 0 = true) :
    m.bootRcv p w = (m.wrFrom BOOT_RCV_LEN 0 w).stageOne (m.load (0x40000 + p * 0x10000) (wordField BOOT_RCV_LEN w)) := by
  have stage' : (m.wrFrom BOOT_RCV_LEN 0 w).rd BOOT_STAT_STAGE = 8 := (Chip.wrFrom_rd_ne _ _ _ _ _ _ (by decide)).trans stage
  have life' : (m.wrFrom BOOT_RCV_LEN 0 w).rd KEY_STAT_LIFE = 0 := (Chip.wrFrom_rd_ne _ _ _ _ _ _ (by decide)).trans life
  simp only [Chip.bootRcv, Chip.rdB, open', stage', go, life', Chip.wrFrom_rd_same, Chip.wrFrom_load, head, len]
  rfl

/-! ## Keys (R484) -/

/-- A write of KEY_PROG takes its fields. -/
def Chip.keyWritten (m : Chip) (w : Nat) : Chip := ((m.wrFrom KEY_PROG_SLOT 0 w).wrFrom KEY_PROG_GO 0 w).wrFrom KEY_PROG_REVOKE 0 w

theorem Chip.keyWritten_rd (m : Chip) (w : Nat) {f : Field} (h0 : f.id ≠ KEY_PROG_SLOT.id) (h1 : f.id ≠ KEY_PROG_GO.id)
    (h2 : f.id ≠ KEY_PROG_REVOKE.id) (i : Nat) : (m.keyWritten w).rd f i = m.rd f i :=
  (Chip.wrFrom_rd_ne _ _ _ _ _ _ h2).trans <| (Chip.wrFrom_rd_ne _ _ _ _ _ _ h1).trans (Chip.wrFrom_rd_ne _ _ _ _ _ _ h0)

theorem Chip.keyProg_go (m : Chip) {k : Nat} (hk : k < 4) : m.keyProg (k + 256) = (m.keyWritten (k + 256)).keyGo k := by
  have slot : wordField KEY_PROG_SLOT (k + 256) = k := by simp only [wordField, KEY_PROG_SLOT]; omega
  have go : wordField KEY_PROG_GO (k + 256) = 1 := by simp only [wordField, KEY_PROG_GO]; omega
  have revoke : wordField KEY_PROG_REVOKE (k + 256) ≠ 1 := by simp only [wordField, KEY_PROG_REVOKE]; omega
  unfold Chip.keyProg
  simp only [slot, if_pos go, if_neg revoke]
  rfl

theorem Chip.keyProg_revoke (m : Chip) {k : Nat} (hk : k < 4) : m.keyProg (k + 512) = (m.keyWritten (k + 512)).keyRevoke k := by
  have slot : wordField KEY_PROG_SLOT (k + 512) = k := by simp only [wordField, KEY_PROG_SLOT]; omega
  have go : wordField KEY_PROG_GO (k + 512) ≠ 1 := by simp only [wordField, KEY_PROG_GO]; omega
  have revoke : wordField KEY_PROG_REVOKE (k + 512) = 1 := by simp only [wordField, KEY_PROG_REVOKE]; omega
  unfold Chip.keyProg
  simp only [slot, if_neg go, if_pos revoke]
  rfl

theorem exec_keyProgGo {who : Writer} {k : Fin 4} {s : State} (ok : s.chip.setupOk who = true) :
    exec (.keyProgGo who k) s = .next { s with chip := (s.chip.keyWritten (k.val + 256)).keyGo k.val } := by
  rw [← Chip.keyProg_go _ k.isLt]
  exact congrArg (fun c => Host.Outcome.next { s with chip := c }) (if_pos ok)

theorem exec_keyProgRevoke {who : Writer} {k : Fin 4} {s : State} (ok : s.chip.setupOk who = true) :
    exec (.keyProgRevoke who k) s = .next { s with chip := (s.chip.keyWritten (k.val + 512)).keyRevoke k.val } := by
  rw [← Chip.keyProg_revoke _ k.isLt]
  exact congrArg (fun c => Host.Outcome.next { s with chip := c }) (if_pos ok)

theorem exec_keyProgDone (s : State) : exec .keyProgDone s = .next { s with chip := s.chip.keyDone } := rfl

theorem Chip.keyGo_starts {m : Chip} {k : Nat} (idle : m.rd KEY_STAT_BUSY = 0) (blank : bitAt (m.rd KEY_STAT_PROG) k = false) :
    m.keyGo k = { m.wr KEY_STAT_BUSY 0 1 with sys := { m.sys with key := some (k, m.tb) } } := by
  simp [Chip.keyGo, Chip.rdB, idle, blank]

theorem Chip.keyGo_programmed {m : Chip} {k : Nat} (idle : m.rd KEY_STAT_BUSY = 0) (full : bitAt (m.rd KEY_STAT_PROG) k = true) :
    m.keyGo k = m.wr KEY_STAT_PERR 0 1 := by
  simp [Chip.keyGo, Chip.rdB, idle, full]

/-- A slot is revoked while another one is live. -/
theorem Chip.keyRevoke_revokes {m : Chip} {k j : Nat} (hj : j < 4) (other : j ≠ k) (live : m.keyLive j = true) :
    m.keyRevoke k = m.wr KEY_STAT_REV 0 (setBit (m.rd KEY_STAT_REV) k) := by
  refine if_neg fun h => ?_
  obtain ⟨-, last⟩ := Bool.and_eq_true_iff.1 h
  have := List.all_eq_true.1 last j (List.mem_range.2 hj)
  simp [other, live] at this

/-- The words of the key's hash stored in a slot. -/
def Chip.hashStored (m : Chip) (k : Nat) (l : List Nat) : Chip := l.foldl (fun m i => m.wr KEY_HASH (8 * k + i) (m.rd KEY_DATA i)) m

theorem Chip.hashStored_rd_at (m : Chip) (k : Nat) {l : List Nat} {i : Nat} (h : i ∉ l) :
    (m.hashStored k l).rd KEY_HASH (8 * k + i) = m.rd KEY_HASH (8 * k + i) := by
  induction l generalizing m with
  | nil => rfl
  | cons j r ih =>
    obtain ⟨ne, rest⟩ := not_or.1 (mt List.mem_cons.2 h)
    exact (ih _ rest).trans (Chip.rd_wr_at _ _ _ _ _ _ (by omega))

theorem Chip.hashStored_rd (m : Chip) (k : Nat) {l : List Nat} {i : Nat} (h : i ∈ l) :
    (m.hashStored k l).rd KEY_HASH (8 * k + i) = m.rd KEY_DATA i % 2 ^ KEY_HASH.w := by
  induction l generalizing m with
  | nil => exact absurd h List.not_mem_nil
  | cons j r ih =>
    by_cases rest : i ∈ r
    · exact (ih _ rest).trans (congrArg (· % 2 ^ KEY_HASH.w) (Chip.rd_wr_ne _ _ _ _ _ _ (by decide)))
    · obtain rfl := (List.mem_cons.1 h).resolve_right rest
      exact (Chip.hashStored_rd_at _ _ rest).trans (Chip.rd_wr_same _ _ _ _)

/-- A slot programmed; the device is in production. -/
def Chip.keyStored (m : Chip) (k : Nat) : Chip :=
  let n := m.hashStored k (List.range 8)
  ((n.wr KEY_STAT_PROG 0 (setBit (n.rd KEY_STAT_PROG) k)).wr KEY_STAT_LIFE 0 1).wr KEY_STAT_BUSY 0 0

theorem Chip.keyDone_regs {m : Chip} {k z : Nat} (busy : m.sys.key = some (k, z)) : m.keyDone.regs = (m.keyStored k).regs := by
  unfold Chip.keyDone
  rw [busy]
  rfl

theorem Chip.keyStored_prog (m : Chip) {k : Nat} (hk : k < 4) : bitAt ((m.keyStored k).rd KEY_STAT_PROG) k = true := by
  unfold Chip.keyStored
  rw [Chip.rd_wr_ne _ _ _ _ _ _ (by decide), Chip.rd_wr_ne _ _ _ _ _ _ (by decide), Chip.rd_wr_same]
  exact bitAt_setBit_mod _ _ _ hk

theorem Chip.keyStored_life (m : Chip) (k : Nat) : (m.keyStored k).rd KEY_STAT_LIFE = 1 := by
  unfold Chip.keyStored
  rw [Chip.rd_wr_ne _ _ _ _ _ _ (by decide), Chip.rd_wr_same]
  rfl

theorem Chip.keyStored_busy (m : Chip) (k : Nat) : (m.keyStored k).rd KEY_STAT_BUSY = 0 := Chip.rd_wr_same _ _ _ _

theorem Chip.keyStored_hash (m : Chip) (k : Nat) {i : Nat} (hi : i < 8) :
    (m.keyStored k).rd KEY_HASH (8 * k + i) = m.rd KEY_DATA i % 2 ^ KEY_HASH.w := by
  unfold Chip.keyStored
  rw [Chip.rd_wr_ne _ _ _ _ _ _ (by decide), Chip.rd_wr_ne _ _ _ _ _ _ (by decide), Chip.rd_wr_ne _ _ _ _ _ _ (by decide)]
  exact Chip.hashStored_rd _ _ (List.mem_range.2 hi)

/-! ## The seal (R486) -/

theorem exec_protSeal {who : Writer} {s : State} (ok : s.chip.setupOk who = true) :
    exec (.protSeal who) s = .next { s with chip := s.chip.seal } := by
  change execProtSeal who s = _
  simp [execProtSeal, State.upd, ok]

theorem Chip.seal_stageOne {m : Chip} (stage : m.rd BOOT_STAT_STAGE = 1) :
    m.seal = ((m.setCycle { m.cycle with sealed := true }).wr PROT_SEAL_SEAL 0 1).wr BOOT_STAT_STAGE 0 2 :=
  if_pos ((Chip.rd_wr_ne _ _ _ _ _ _ (by decide)).trans stage)

/-- Settles O48: the ROM, the start from a slot, the upload, the keys and the seal, each by its own case. -/
theorem bootAndKeys : Obligations.BootAndKeys := by
  unfold Obligations.BootAndKeys
  refine ⟨?_, ?_, ?_, ?_, ?_, ?_, ?_, ?_, ?_, ?_, ?_, ?_, ?_⟩
  · intro t0 t1 s fresh on free
    refine ⟨_, exec_bootRom _ s, ?_⟩
    rw [Chip.rom_pin fresh on free]
    obtain ⟨stage, err⟩ := (s.chip.romUp t0 t1).recovery_shows (e := 0) (by decide)
    refine ⟨stage, err, rfl, rfl, rfl, rfl, rfl, ?_⟩
    exact ((((SameRegs.rfl _ _ s.chip).regs rfl).wr (.inr (by simp))).wr (.inr (by simp))).wr (.inr (by simp))
  · intro t1 s fresh on free life
    refine ⟨_, exec_bootRom _ s, ?_⟩
    rw [Chip.rom_production fresh on free life]
    exact Chip.recovery_shows _ (by decide)
  · intro t1 s fresh on free life
    refine ⟨_, exec_bootRom _ s, ?_⟩
    rw [Chip.rom_production fresh on free life]
    have same : ((s.chip.romUp true t1).nand.boot.any fun b => (s.chip.romUp true t1).imgPass b 0) =
        s.chip.nand.boot.any fun b => s.chip.imgPass b 0 :=
      congrArg s.chip.nand.boot.any (funext fun b => s.chip.romUp_imgPass true t1 b 0)
    refine ⟨fun found => ?_, fun lost => ?_, Chip.romSearch_core rfl rfl (Chip.rd_wr_same _ _ _ _)⟩
    · obtain ⟨b, e⟩ := Chip.romSearch_found (same.trans found)
      exact (congrArg (Chip.rd · BOOT_STAT_STAGE) e).trans (Chip.stageOne_shows _ b).1
    · exact Chip.romSearch_none (same.trans lost) ▸ Chip.recovery_shows _ (by decide)
  · intro s stage open'
    refine ⟨_, exec_gelowStart s, ?_⟩
    rw [Chip.gelowStart_unsealed stage open']
    refine ⟨(Chip.rd_wr_ne _ _ _ _ _ _ (by decide)).trans (Chip.rd_wr_same _ _ _ _), Chip.rd_wr_same _ _ _ _, ?_⟩
    exact ((SameRegs.rfl _ _ _).wr (.inr (by simp))).wr (.inr (by simp))
  · intro s stage sealed
    refine ⟨_, exec_gelowStart s, fun good => ?_, fun ⟨bad, good⟩ => ?_, fun ⟨bad, worse⟩ => ?_⟩
    · dsimp only
      rw [Chip.gelowStart_active stage sealed good]
      obtain ⟨st, fb, pc, up⟩ := s.chip.slotStart_shows s.chip.nand.activeV s.chip.sys.t0Ready s.chip.sys.t1Ready
      exact ⟨st, fb.trans (by simp [b2n]), pc, up⟩
    · dsimp only
      rw [Chip.gelowStart_other stage sealed bad good]
      obtain ⟨st, fb, pc, up⟩ := s.chip.slotStart_shows (1 - s.chip.nand.activeV) s.chip.sys.t0Ready s.chip.sys.t1Ready
      have ne : (1 - s.chip.nand.activeV != s.chip.nand.activeV) = true := by
        rw [bne_iff_ne]
        omega
      exact ⟨st, fb.trans (by rw [ne]; rfl), pc, up⟩
    · dsimp only
      rw [Chip.gelowStart_neither stage sealed bad worse]
      exact ⟨(Chip.rd_wr_ne _ _ _ _ _ _ (by decide)).trans (Chip.rd_wr_same _ _ _ _), Chip.rd_wr_same _ _ _ _⟩
  · intro w n s run open' stage go len fits life head
    subst len
    refine ⟨_, exec_bootRcvGo run, ?_⟩
    rw [Chip.bootRcv_runs open' stage go fits life head]
    obtain ⟨st, runs, -, pc⟩ := (s.chip.wrFrom BOOT_RCV_LEN 0 w.toNat).stageOne_shows (s.chip.load 0x40000 (wordField BOOT_RCV_LEN w.toNat))
    exact ⟨st, runs, pc⟩
  · intro who k s ok idle blank
    refine ⟨_, exec_keyProgGo ok, ?_⟩
    rw [Chip.keyGo_starts ((Chip.keyWritten_rd _ _ (by decide) (by decide) (by decide) _).trans idle)
      (by rwa [Chip.keyWritten_rd _ _ (by decide) (by decide) (by decide)])]
    exact ⟨Chip.rd_wr_same _ _ _ _, rfl⟩
  · intro who k s ok idle full
    have idle' := (s.chip.keyWritten_rd (k.val + 256) (f := KEY_STAT_BUSY) (by decide) (by decide) (by decide) 0).trans idle
    refine ⟨_, exec_keyProgGo ok, ?_⟩
    rw [Chip.keyGo_programmed idle' (by rwa [Chip.keyWritten_rd _ _ (by decide) (by decide) (by decide)])]
    exact ⟨Chip.rd_wr_same _ _ _ _, rfl, (Chip.rd_wr_ne _ _ _ _ _ _ (by decide)).trans idle'⟩
  · intro who k j s ok other live
    have live' : (s.chip.keyWritten (k.val + 512)).keyLive j.val = true := by
      unfold Chip.keyLive at live ⊢
      rwa [Chip.keyWritten_rd _ _ (by decide) (by decide) (by decide), Chip.keyWritten_rd _ _ (by decide) (by decide) (by decide)]
    refine ⟨_, exec_keyProgRevoke ok, ?_⟩
    rw [Chip.keyRevoke_revokes j.isLt (Fin.val_ne_of_ne other) live']
    refine ⟨?_, (Chip.rd_wr_ne _ _ _ _ _ _ (by decide)).trans (Chip.keyWritten_rd _ _ (by decide) (by decide) (by decide) _)⟩
    rw [Chip.rd_wr_same]
    exact bitAt_setBit_mod _ _ _ k.isLt
  · intro k z i s busy hk hi
    refine ⟨_, exec_keyProgDone s, ?_⟩
    have stored := rd_regs (Chip.keyDone_regs busy)
    dsimp only
    rw [stored, stored, stored, stored]
    exact ⟨Chip.keyStored_prog _ hk, Chip.keyStored_life _ _, Chip.keyStored_busy _ _, Chip.keyStored_hash _ _ hi⟩
  · intro who s ok stage
    refine ⟨_, exec_protSeal ok, ?_⟩
    rw [Chip.seal_stageOne stage]
    refine ⟨(Chip.rd_wr_ne _ _ _ _ _ _ (by decide)).trans (Chip.rd_wr_same _ _ _ _), Chip.rd_wr_same _ _ _ _, ?_⟩
    exact (((SameRegs.rfl _ _ s.chip).regs rfl).wr (.inr (by simp))).wr (.inr (by simp))
  · intro p w n s run open' stage go len fits life head
    subst len
    refine ⟨_, exec_bootRcvGo run, ?_⟩
    rw [Chip.bootRcv_runs open' stage go fits life head]
    obtain ⟨st, runs, -, pc⟩ := (s.chip.wrFrom BOOT_RCV_LEN 0 w.toNat).stageOne_shows
      (s.chip.load (0x40000 + portNo p * 0x10000) (wordField BOOT_RCV_LEN w.toNat))
    exact ⟨st, runs, pc⟩
  · intro p w s run open' stage
    refine ⟨_, exec_bootRcvGo run, ?_⟩
    rw [Chip.bootRcv_len open' stage]
    exact ⟨Chip.wrFrom_rd_same _ _ _ _, (SameRegs.rfl _ _ _).wr (.inr (by simp))⟩

end Sys2Proof.Machine
end

section
/-! PROOFS. The rails, the supply monitor, the loss of supply, the boost disconnect, the sensor supplies (R505-R519, R379). -/

namespace Sys2Proof.Machine

/-! ## Rails (R505, R508) -/

theorem exec_powerUp (r : Rails) (nrst : Bool) (s : State) : exec (.powerUp r nrst) s = .next { s with chip := s.chip.railsUp r nrst } := rfl

theorem exec_powerLoss (r : Rails) (s : State) : exec (.powerLoss r) s = .next { s with chip := s.chip.railsDown r } := rfl

theorem Chip.railsUp_up {m : Chip} {r : Rails} (off : m.sys.off = true) (core : 780 ≤ r.vcore) (io : 1440 ≤ r.vio) (ana : 4400 ≤ r.vana)
    (bat : 6000 ≤ r.vbat) : m.railsUp r true = m.powerUp (decide (2500 < r.vio)) := if_pos ⟨off, rfl, core, io, ana, bat⟩

theorem Chip.railsDown_core {m : Chip} {r : Rails} (on : m.sys.off = false) (low : r.vcore < 780) : m.railsDown r = m.powerOff :=
  if_pos ⟨by simp [on], .inl low⟩

/-! ## The supply monitor (R507) -/

theorem exec_supplyMonitorChange (b : Fin 6) (mv us : Nat) (s : State) :
    exec (.supplyMonitorChange b mv us) s = .next { s with chip := s.chip.supmChange b.val mv us } := rfl

theorem Chip.supmChange_sets {m : Chip} {b mv us : Nat} (on : m.powered = true) (clear : bitAt (m.rd SUPM_STAT) b = false)
    (sets : m.supmSets b mv us = true) : m.supmChange b mv us = (m.wr SUPM_STAT 0 (setBit (m.rd SUPM_STAT) b)).supmFlag b := by
  simp [Chip.supmChange, on, clear, sets]

theorem Chip.supmChange_clears {m : Chip} {b mv us : Nat} (on : m.powered = true) (set' : bitAt (m.rd SUPM_STAT) b = true)
    (clears : m.supmClears b mv us = true) : m.supmChange b mv us = m.wr SUPM_STAT 0 (clrBit (m.rd SUPM_STAT) b) := by
  simp [Chip.supmChange, on, set', clears]

/-- A bit of the monitor that sets, with its flag. -/
theorem supmSet (m : Chip) {b : Nat} (hb : b < 6) :
    bitAt (((m.wr SUPM_STAT 0 (setBit (m.rd SUPM_STAT) b)).supmFlag b).rd SUPM_STAT) b = true ∧
      bitAt (((m.wr SUPM_STAT 0 (setBit (m.rd SUPM_STAT) b)).supmFlag b).rd SUPM_FLAGS) b = true ∧
      SameRegs [(SUPM_STAT, 0), (SUPM_FLAGS, 0)] [.rInt] m ((m.wr SUPM_STAT 0 (setBit (m.rd SUPM_STAT) b)).supmFlag b) := by
  refine ⟨?_, Chip.raise_bit _ _ _ _ _ _ (by decide) hb, ?_⟩
  · have shown := (Chip.raise_rd_ne (m.wr SUPM_STAT 0 (setBit (m.rd SUPM_STAT) b)) SUPM_FLAGS SUPM_IE 0 b 330 SUPM_STAT 0 (by decide)
      (by decide)).trans (Chip.rd_wr_same _ _ _ _)
    exact (congrArg (bitAt · b) shown).trans (bitAt_setBit_mod _ _ _ hb)
  · exact ((SameRegs.rfl _ _ m).wr (.inr (by simp))).raise (by simp) (.inr (by simp))

/-! ## The loss of supply (R379, R510) -/

theorem exec_lossDetectArm {mv us : Nat} {s : State} (on : s.chip.powered = true) (level : 8000 ≤ mv) (held : 1000 ≤ us)
    (since : us * usTb ≤ s.chip.tb) :
    exec (.lossDetectArm mv us) s = .next { s with chip := { s.chip with sys := { s.chip.sys with armed := true } } } := by
  change execLossDetectArm mv us s = _
  simp [execLossDetectArm, State.upd, on, level, held, since]

theorem exec_supplyLossDetection {a b us : Nat} {s : State} (on : s.chip.powered = true) (armed : s.chip.sys.armed = true) (held : 2 ≤ us)
    (low : a < 7000) : exec (.supplyLossDetection a b us) s = .next { s with chip := s.chip.supplyLoss } := by
  change execSupplyLossDetection a b us s = _
  simp [execSupplyLossDetection, State.upd, on, armed, held, low]

/-- A resolution leaves the marker. -/
theorem Chip.jourResolve_marker (m : Chip) (j o c : Nat) (st : Bool) (tb : Nat) (lat : Int) :
    (m.jourResolve j o c st tb lat).jour.marker = m.jour.marker := by
  have noted (x : Chip) (w j : Nat) : (x.noteHallmark w j).jour.marker = x.jour.marker := by
    have kept := (Chip.noteHallmark_moves (m := x) (owner' := w) (jsn' := j) .refl (within_refl _)).kept.jour (by decide)
    have marker := congrArg Journal.marker kept
    exact marker
  unfold Chip.jourResolve
  split
  · rfl
  · split
    · rfl
    · exact noted _ _ _

/-- A committed word leaves the marker. -/
theorem Chip.jourWord_marker (m : Chip) : m.jourWord.jour.marker = m.jour.marker := by
  unfold Chip.jourWord
  split
  · rfl
  · dsimp only
    split
    · exact Chip.jourResolve_marker _ _ _ _ _ _ _
    · split
      · rfl
      · split <;> rfl

theorem Chip.jourDrain_marker (m : Chip) (n : Nat) : (m.jourDrain n).jour.marker = m.jour.marker := by
  induction n generalizing m with
  | zero => rfl
  | succ n ih =>
    unfold Chip.jourDrain
    split
    · rfl
    · exact (ih _).trans m.jourWord_marker

/-- What the sequence of R379 does before the marker. -/
def Chip.lossSeen (m : Chip) : Chip :=
  let m := { m with sys := { m.sys with lossTb := some m.tb } }
  let m := (m.wr SUPM_STAT 0 (setBit (m.rd SUPM_STAT) 2)).supmFlag 2
  { m with sup := m.sup.map fun (p : Nat × Supply) => (p.1, { p.2 with closed := false }) }.drain

theorem Chip.lossSeen_moves (m : Chip) : Moves [.rSys, .rInt, .asleep, .accums, .jour, .recs, .sys, .sup, .cyc] m m.lossSeen :=
  Chip.drain_moves (.sup (Chip.supmFlag_moves (Chip.wr_moves (.sys .refl (by decide)) (by decide)) (by decide)) (by decide)) (by decide)

theorem Chip.lossSeen_tbOf (m : Chip) (i : Nat) : m.lossSeen.tbOf i = m.tbOf i := by
  unfold Chip.tbOf
  rw [m.lossSeen_moves.kept.tb (by decide), m.lossSeen_moves.island (by decide)]

theorem Chip.supplyLoss_eq (m : Chip) :
    m.supplyLoss = Chip.moduleReset { m.lossSeen with jour := { m.lossSeen.jour with marker := some (m.lossSeen.tbOf islMgmt) } } .supply := rfl

/-- The marker outlives a module reset. -/
theorem Chip.moduleReset_marker {m : Chip} {t : Nat} (marked : m.jour.marker = some t) : (m.moduleReset .supply).jour.marker = some t := by
  have drained : m.drain.jour.marker = some t := (m.jourDrain_marker _).trans marked
  exact congrArg (fun o : Option Nat => some (o.getD m.drain.jour.heartbeat)) drained

/-! ## The boost disconnect (R515) -/

theorem exec_boostDisconnectOpen {a : Nat} {s : State} (low : a < 6000) :
    exec (.boostDisconnectOpen a) s = .next { s with chip := { s.chip with sys := { s.chip.sys with disc := false } } } := by
  change execBoostDisconnectOpen a s = _
  simp [execBoostDisconnectOpen, State.upd, low]

theorem exec_boostDisconnectClose {a us : Nat} {s : State} (on : s.chip.powered = true) (lo : 6500 ≤ a) (hi : a ≤ 38000) (held : 1000 ≤ us) :
    exec (.boostDisconnectClose a us) s = .next { s with chip := { s.chip with sys := { s.chip.sys with disc := true } } } := by
  change execBoostDisconnectClose a us s = _
  simp [execBoostDisconnectClose, State.upd, on, lo, hi, held]

/-! ## Sensor supplies (R517-R519) -/

theorem exec_supFaultDetect (n : Sup) (c : SupCond) (v : Int) (us : Nat) (s : State) :
    exec (.supFaultDetect n c v us) s = .next { s with chip := s.chip.supDetect n.val c v us } := rfl

theorem exec_supReclose (n : Sup) (v : Int) (us : Nat) (s : State) :
    exec (.supReclose n v us) s = .next { s with chip := s.chip.supReclose n.val v us } := rfl

theorem exec_supFltClear (n : Sup) (ua us : Nat) (s : State) :
    exec (.supFltClear n ua us) s = .next { s with chip := s.chip.supFltClear n.val ua us } := rfl

theorem exec_supCtlWrite {who : Writer} {w : Word} {p : BitVec 8} {s : State} (ok : s.chip.sysWr who = true) :
    exec (.supCtlWrite who w p) s = .next { s with chip := s.chip.supCtl w.toNat p.toNat } := by
  change execSupCtlWrite who w p s = _
  simp [execSupCtlWrite, State.upd, ok]

theorem Chip.setSupply_same (m : Chip) (n : Nat) (x : Supply) : (m.setSupply n x).supply n = x := tabGet_put_same _ _ _ _

theorem Chip.setSupply_ne (m : Chip) {n i : Nat} (h : i ≠ n) (x : Supply) : (m.setSupply n x).supply i = m.supply i :=
  tabGet_put_ne _ _ _ _ _ h

/-- A supply with a condition; every one but open opens the switch. -/
def Chip.supFault (m : Chip) (n : Nat) (c : SupCond) : Supply :=
  let x := { m.supply n with cond := some (condNo c) }
  if c = .openLoad then x else { x with closed := false, openTb := m.tb, backTb := none }

/-- A condition with its FLT bit, before its flag. -/
def Chip.supHeld (m : Chip) (n : Nat) (c : SupCond) : Chip := (m.setSupply n (m.supFault n c)).wr SUP_STAT_FLT 0 (setBit (m.rd SUP_STAT_FLT) n)

theorem Chip.supDetect_met {m : Chip} {n us : Nat} {c : SupCond} {v : Int} (on : m.powered = true) (en : bitAt (m.rd SUP_CTL_EN) n = true)
    (met : condMet (m.supply n) c v us = true) :
    m.supDetect n c v us =
      if bitAt (m.rd SUP_STAT_FLT) n then m.supHeld n c
      else if bitAt ((m.supHeld n c).rd SUP_FLAGS) n then (m.supHeld n c).supFlag n
      else ((m.supHeld n c).setCycle { (m.supHeld n c).cycle with sups := n :: (m.supHeld n c).cycle.sups }).supFlag n :=
  if_pos ⟨on, en, met⟩

/-- The flag leaves the supply and its FLT bit. -/
theorem Chip.supDetect_shows {m : Chip} {n us : Nat} {c : SupCond} {v : Int} (hn : n < 8) (on : m.powered = true)
    (en : bitAt (m.rd SUP_CTL_EN) n = true) (met : condMet (m.supply n) c v us = true) :
    (m.supDetect n c v us).supply n = m.supFault n c ∧ bitAt ((m.supDetect n c v us).rd SUP_STAT_FLT) n = true := by
  have held : (m.supHeld n c).supply n = m.supFault n c := Chip.setSupply_same _ _ _
  have flt : bitAt ((m.supHeld n c).rd SUP_STAT_FLT) n = true :=
    (congrArg (bitAt · n) (Chip.rd_wr_same _ _ _ _)).trans (bitAt_setBit_mod _ _ _ hn)
  have flag (x : Chip) : (x.supFlag n).supply n = x.supply n ∧ (x.supFlag n).rd SUP_STAT_FLT = x.rd SUP_STAT_FLT :=
    ⟨congrArg (fun t => tabGet t n ({} : Supply)) ((Chip.supFlag_moves .refl (within_refl _)).kept.sup (by decide)),
      Chip.raise_rd_ne _ _ _ _ _ _ _ _ (by decide) (by decide)⟩
  rw [Chip.supDetect_met on en met]
  split
  · exact ⟨held, flt⟩
  · split
    · exact ⟨(flag _).1.trans held, (congrArg (bitAt · n) (flag _).2).trans flt⟩
    · exact ⟨(flag _).1.trans held, (congrArg (bitAt · n) (flag _).2).trans flt⟩

theorem Chip.supFault_cond (m : Chip) (n : Nat) (c : SupCond) : (m.supFault n c).cond = some (condNo c) := by
  unfold Chip.supFault
  dsimp only
  split <;> rfl

/-- Only an open load leaves the switch closed. -/
theorem Chip.supFault_closed (m : Chip) (n : Nat) (c : SupCond) : (m.supFault n c).closed = ((m.supply n).closed && (c == .openLoad)) := by
  unfold Chip.supFault
  cases c <;> simp

theorem Chip.supReclose_battery {m : Chip} {n us : Nat} {v : Int} (on : m.powered = true) (en : bitAt (m.rd SUP_CTL_EN) n = true)
    (opened : (m.supply n).closed = false) (cond : (m.supply n).cond = some 1) (low : v < 5300) (held : 10000 ≤ us) :
    m.supReclose n v us = m.setSupply n { m.supply n with closed := true, backTb := some m.tb } := by
  simp [Chip.supReclose, recloses, on, en, opened, cond, low, held]

theorem Chip.supFltClear_open {m : Chip} {n ua us : Nat} (cond : (m.supply n).cond = some 4) (load : 1000 ≤ ua) (held : 10000 ≤ us) :
    m.supFltClear n ua us =
      (m.setSupply n { m.supply n with cond := none, backTb := none }).wr SUP_STAT_FLT 0 (clrBit (m.rd SUP_STAT_FLT) n) := by
  simp [Chip.supFltClear, cond, load, held]

/-! ## A write of SUP_CTL (R519) -/

/-- The clear of one bit of a number leaves a clear bit clear. -/
theorem bitAt_clrBit_clear {n b i : Nat} (clear : bitAt n i = false) : bitAt (clrBit n b) i = false := by
  have off := bitAt_clrBit n b
  unfold bitAt clrBit at *
  split at off
  case isFalse h => rwa [if_neg h]
  case isTrue h =>
    rw [if_pos h, Nat.one_shiftLeft]
    rw [Nat.one_shiftLeft] at off
    have sum : n = 2 ^ b + (n - 2 ^ b) := (Nat.add_sub_cancel' (Nat.ge_two_pow_of_testBit h)).symm
    rcases Nat.lt_trichotomy i b with lt | rfl | gt
    · rw [sum, Nat.testBit_two_pow_add_gt lt] at clear
      exact clear
    · exact off
    · have high : (n - 2 ^ b) / 2 ^ (b + 1) = n / 2 ^ (b + 1) := by
        have up : n / 2 ^ b = (n - 2 ^ b) / 2 ^ b + 1 := by
          have add := Nat.add_div_right (n - 2 ^ b) (Nat.two_pow_pos b)
          rwa [Nat.add_comm, ← sum] at add
        have even : (n - 2 ^ b) / 2 ^ b % 2 = 0 := by
          rw [Nat.testBit_eq_decide_div_mod_eq, decide_eq_false_iff_not] at off
          omega
        rw [Nat.pow_succ, ← Nat.div_div_eq_div_mul, ← Nat.div_div_eq_div_mul, up]
        omega
      obtain ⟨d, rfl⟩ := Nat.exists_eq_add_of_lt gt
      rw [show b + d + 1 = d + (b + 1) by omega, Nat.testBit_add] at clear ⊢
      rwa [high]

theorem bitAt_clrBit_clear_mod {n b i w : Nat} (clear : bitAt n i = false) : bitAt (clrBit n b % 2 ^ w) i = false := by
  have kept := bitAt_clrBit_clear (b := b) clear
  unfold bitAt at kept ⊢
  rw [Nat.testBit_mod_two_pow, kept, Bool.and_false]

theorem Chip.supUndo_rd (m : Chip) (n : Nat) {f : Field} (h : f.id ≠ SUP_FLAGS.id) (i : Nat) : (m.supUndo n).rd f i = m.rd f i := by
  unfold Chip.supUndo
  split
  · exact Chip.rd_wr_ne _ _ _ _ _ _ h
  · rfl

/-- A switch that is told off. -/
theorem Chip.supSwitch_off (m : Chip) (n : Nat) {on : Bool} (off : on = false) (out : Bool) :
    (m.supSwitch n on out).supply n = {} ∧ bitAt ((m.supSwitch n on out).rd SUP_STAT_FLT) n = false := by
  subst off
  exact ⟨Chip.setSupply_same _ _ _, (congrArg (bitAt · n) (Chip.rd_wr_same _ _ _ _)).trans (bitAt_clrBit_mod _ _ _)⟩

/-- A switch that is told on while it was off, with its pin in range. -/
theorem Chip.supSwitch_on {m : Chip} {n : Nat} (was : bitAt (m.rd SUP_CTL_EN) n = false) :
    m.supSwitch n true false = m.setSupply n { closed := true } := by
  simp [Chip.supSwitch, was]

section
variable (m : Chip) (n : Nat) (on out : Bool)

theorem Chip.supSwitch_en : (m.supSwitch n on out).rd SUP_CTL_EN = m.rd SUP_CTL_EN := by
  unfold Chip.supSwitch
  split
  · exact (Chip.rd_wr_ne _ _ _ _ _ _ (by decide)).trans (Chip.supUndo_rd _ _ (by decide) _)
  · split <;> rfl

theorem Chip.supSwitch_ne {i : Nat} (h : i ≠ n) : (m.supSwitch n on out).supply i = m.supply i := by
  unfold Chip.supSwitch
  split
  · exact (Chip.setSupply_ne _ h _).trans (congrArg (fun t => tabGet t i ({} : Supply)) ((Chip.supUndo_moves (m := m) .refl (within_refl _)).kept.sup (by decide)))
  · split
    · rfl
    · exact Chip.setSupply_ne _ h _

theorem Chip.supSwitch_flt {i : Nat} (clear : bitAt (m.rd SUP_STAT_FLT) i = false) :
    bitAt ((m.supSwitch n on out).rd SUP_STAT_FLT) i = false := by
  unfold Chip.supSwitch
  split
  · exact (congrArg (bitAt · i) (Chip.rd_wr_same _ _ _ _)).trans (bitAt_clrBit_clear_mod clear)
  · split
    · exact clear
    · exact clear

end

/-- Switches told by the bits of two words. -/
def Chip.supSwitches (m : Chip) (w p : Nat) (l : List Nat) : Chip := l.foldl (fun m n => m.supSwitch n (bitAt w n) (bitAt p n)) m

section
variable (m : Chip) (w p : Nat)

theorem Chip.supSwitches_ne {l : List Nat} {i : Nat} (h : i ∉ l) : (m.supSwitches w p l).supply i = m.supply i := by
  induction l generalizing m with
  | nil => rfl
  | cons n r ih =>
    obtain ⟨ne, rest⟩ := not_or.1 (mt List.mem_cons.2 h)
    exact (ih _ rest).trans (Chip.supSwitch_ne _ _ _ _ ne)

theorem Chip.supSwitches_flt (l : List Nat) {i : Nat} (clear : bitAt (m.rd SUP_STAT_FLT) i = false) :
    bitAt ((m.supSwitches w p l).rd SUP_STAT_FLT) i = false := by
  induction l generalizing m with
  | nil => exact clear
  | cons n r ih => exact ih _ (Chip.supSwitch_flt _ _ _ _ clear)

end

/-- A supply told off is empty, and its FLT bit clear. -/
theorem Chip.supSwitches_off (m : Chip) {w : Nat} (p : Nat) {l : List Nat} {n : Nat} (mem : n ∈ l) (off : bitAt w n = false) :
    (m.supSwitches w p l).supply n = {} ∧ bitAt ((m.supSwitches w p l).rd SUP_STAT_FLT) n = false := by
  induction l generalizing m with
  | nil => exact absurd mem List.not_mem_nil
  | cons j r ih =>
    by_cases rest : n ∈ r
    · exact ih _ rest
    · obtain rfl := (List.mem_cons.1 mem).resolve_right rest
      obtain ⟨empty, clear⟩ := m.supSwitch_off n off (bitAt p n)
      exact ⟨(Chip.supSwitches_ne _ _ _ rest).trans empty, Chip.supSwitches_flt (m.supSwitch n _ _) w p r clear⟩

/-- A supply told on while it was off is closed. -/
theorem Chip.supSwitches_on (m : Chip) {w p : Nat} {l : List Nat} {n : Nat} (mem : n ∈ l) (was : bitAt (m.rd SUP_CTL_EN) n = false)
    (on : bitAt w n = true) (inside : bitAt p n = false) : ((m.supSwitches w p l).supply n).closed = true := by
  induction l generalizing m with
  | nil => exact absurd mem List.not_mem_nil
  | cons j r ih =>
    by_cases rest : n ∈ r
    · exact ih _ rest ((congrArg (bitAt · n) (Chip.supSwitch_en _ _ _ _)).trans was)
    · obtain rfl := (List.mem_cons.1 mem).resolve_right rest
      have closed : (m.supSwitch n (bitAt w n) (bitAt p n)).supply n = { closed := true } := by
        rw [on, inside, Chip.supSwitch_on was, Chip.setSupply_same]
      exact congrArg Supply.closed ((Chip.supSwitches_ne _ _ _ rest).trans closed)

theorem Chip.supCtl_eq (m : Chip) (w p : Nat) : m.supCtl w p = (m.supSwitches w p (List.range 8)).wrFrom SUP_CTL_EN 0 w := rfl

/-- Settles O49: rails, monitor, loss, disconnect and sensor supplies, each by its own case. -/
theorem suppliesAndLoss : Obligations.SuppliesAndLoss := by
  unfold Obligations.SuppliesAndLoss
  refine ⟨?_, ?_, ?_, ?_, ?_, ?_, ?_, ?_, ?_, ?_, ?_, ?_, ?_, ?_, ?_⟩
  · intro r s off core io ana bat
    refine ⟨_, exec_powerUp r true s, ?_⟩
    rw [Chip.railsUp_up off core io ana bat]
    exact ⟨rfl, rfl, rfl, rfl, Chip.durable_rd _ (by decide) 0⟩
  · intro r s on low
    refine ⟨_, exec_powerLoss r s, ?_⟩
    rw [Chip.railsDown_core on low]
    exact ⟨rfl, rfl, rfl⟩
  · intro mv us s on clear low held
    refine ⟨_, exec_supplyMonitorChange 0 mv us s, ?_⟩
    dsimp only
    rw [Chip.supmChange_sets (b := (0 : Fin 6).val) on clear (decide_eq_true ⟨low, held⟩)]
    exact supmSet _ (by decide)
  · intro mv us s on level held since
    exact ⟨_, exec_lossDetectArm on level held since, rfl, SameRegs.rfl _ _ _⟩
  · intro a b us s on armed held low
    refine ⟨_, exec_supplyLossDetection on armed held low, ?_⟩
    rw [Chip.supplyLoss_eq, Chip.lossSeen_tbOf]
    exact ⟨Chip.moduleReset_marker rfl, Chip.moduleReset_cause _ .supply, rfl, rfl⟩
  · intro a s low
    exact ⟨_, exec_boostDisconnectOpen low, rfl, SameRegs.rfl _ _ _⟩
  · intro a us s on lo hi held
    exact ⟨_, exec_boostDisconnectClose on lo hi held, rfl, SameRegs.rfl _ _ _⟩
  · intro n v us s on en high held
    obtain ⟨shown, flt⟩ := Chip.supDetect_shows (c := .battery) (v := v) (us := us) n.isLt on en (decide_eq_true ⟨high, held⟩)
    refine ⟨_, exec_supFaultDetect n .battery v us s, ?_⟩
    dsimp only
    rw [shown]
    exact ⟨rfl, rfl, rfl, flt⟩
  · intro n v us s on en opened cond low held
    refine ⟨_, exec_supReclose n v us s, ?_⟩
    rw [Chip.supReclose_battery on en opened cond low held]
    exact ⟨Chip.setSupply_same _ _ _, SameRegs.rfl _ _ _⟩
  · intro n ua us s cond load held
    refine ⟨_, exec_supFltClear n ua us s, ?_⟩
    rw [Chip.supFltClear_open cond load held]
    refine ⟨?_, congrArg Supply.cond (Chip.setSupply_same _ _ _), ((SameRegs.rfl _ _ s.chip).regs rfl).wr (.inr (by simp))⟩
    rw [Chip.rd_wr_same]
    exact bitAt_clrBit_mod _ _ _
  · intro who n w p s ok was on inside
    refine ⟨_, exec_supCtlWrite ok, ?_⟩
    rw [Chip.supCtl_eq]
    exact ⟨Chip.supSwitches_on _ (List.mem_range.2 n.isLt) was on inside, Chip.wrFrom_rd_same _ _ _ _⟩
  · intro who n w p s ok off
    obtain ⟨empty, clear⟩ := s.chip.supSwitches_off p.toNat (List.mem_range.2 n.isLt) off
    refine ⟨_, exec_supCtlWrite ok, ?_⟩
    rw [Chip.supCtl_eq]
    exact ⟨empty, (congrArg (bitAt · n.val) (Chip.wrFrom_rd_ne _ _ _ _ _ _ (by decide))).trans clear⟩
  · intro b mv us s on clear sets
    refine ⟨_, exec_supplyMonitorChange b mv us s, ?_⟩
    rw [Chip.supmChange_sets on clear sets]
    exact supmSet _ b.isLt
  · intro b mv us s on set' clears
    refine ⟨_, exec_supplyMonitorChange b mv us s, ?_⟩
    rw [Chip.supmChange_clears on set' clears]
    refine ⟨?_, (SameRegs.rfl _ _ _).wr (.inr (by simp))⟩
    rw [Chip.rd_wr_same]
    exact bitAt_clrBit_mod _ _ _
  · intro n c v us s on en met
    obtain ⟨shown, flt⟩ := Chip.supDetect_shows n.isLt on en met
    refine ⟨_, exec_supFaultDetect n c v us s, ?_⟩
    dsimp only
    rw [shown]
    exact ⟨Chip.supFault_cond _ _ _, flt, Chip.supFault_closed _ _ _⟩

end Sys2Proof.Machine
end

section
/-! PROOFS. The front end of a wheel input (R45) and a write of HP_Q_HEAD (R351). -/

namespace Sys2Proof.Machine

/-! ## Wheels after an update -/

@[simp] theorem Chip.setWheel_same (m : Chip) (n : Nat) (w : Wheel) : (m.setWheel n w).wheel n = w := tabGet_put_same _ _ _ _

theorem Chip.setWheel_ne (m : Chip) {n k : Nat} (h : k ≠ n) (w : Wheel) : (m.setWheel n w).wheel k = m.wheel k := tabGet_put_ne _ _ _ _ _ h

@[simp] theorem Chip.wr_wheel (m : Chip) (f : Field) (i v k : Nat) : (m.wr f i v).wheel k = m.wheel k := rfl

/-! ## Arming (R45) -/

theorem exec_vrArm (n : Fin 16) (mv : Nat) (s : State) : exec (.vrArm n mv) s = .next { s with chip := s.chip.vrArm n.val mv } := rfl

/-- An input whose voltage is above the arming level. -/
theorem Chip.vrArm_arms {m : Chip} {n mv : Nat} (fe : m.rd WHL_FE_FE n = 0)
    (peak : thrEighths (m.rd WHL_FE_THR_FRAC n) * (m.wheel n).peak * 10 < mv * 8) (low : m.rd WHL_FE_VR_MIN n * 10 < mv) :
    m.vrArm n mv = (m.setWheel n { m.wheel n with armed := true, peak := mv / 10 }).wr WHL_VR_PEAK n (min 65535 (mv / 10)) := by
  have reads : m.whlFe n = 0 := by simp [Chip.whlFe, fe]
  have positive : 0 < mv := Nat.zero_lt_of_lt low
  simp [Chip.vrArm, reads, positive, peak, low]

/-- Settles O8: the arming branch of R45, its register and its wheel each written once. -/
theorem wheelFrontEndArms : Obligations.WheelFrontEndArms := by
  unfold Obligations.WheelFrontEndArms
  intro n mv s fe peak low
  refine ⟨_, exec_vrArm n mv s, ?_⟩
  rw [Chip.vrArm_arms fe peak low]
  refine ⟨?_, Chip.setWheel_same _ _ _, fun k other => Chip.setWheel_ne _ other _, ((SameRegs.rfl _ _ s.chip).regs rfl).wr (.inr (by simp))⟩
  rw [Chip.rd_wr_same]
  exact Nat.mod_eq_of_lt (Nat.lt_of_le_of_lt (Nat.min_le_left _ _) (by decide))

/-! ## The head of a queue (R351) -/

theorem exec_hpQHeadWrite {p : Port} {w : Word} {s : State} (runs : s.chip.runs (islHostA + portNo p) = true) :
    exec (.hpQHeadWrite p w) s = .next { s with chip := s.chip.headWrite (portNo p) w.toNat } := by
  change execHpQHeadWrite p w s = _
  simp [execHpQHeadWrite, runs]

/-- The distance of two places of the queue. -/
theorem ofSigned_sub_queue (x y : Nat) : ofSigned 13 ((x : Int) - (y : Int)) = (x + 8192 - y % 8192) % 8192 := by
  unfold ofSigned
  omega

/-- The value lies in the filled part of a port's queue. -/
def Chip.headFits (m : Chip) (p w : Nat) : Prop :=
  (w % 8192 + 8192 - m.rd HP_Q_HEAD p % 8192) % 8192 ≤ (m.rd HP_Q_TAIL p + 8192 - m.rd HP_Q_HEAD p % 8192) % 8192

theorem Chip.headWrite_fits {m : Chip} {p w : Nat} (fits : m.headFits p w) : m.headWrite p w = m.wr HP_Q_HEAD p (w % 8192) := by
  unfold Chip.headWrite Chip.queueLen
  simp only [ofSigned_sub_queue]
  exact if_pos fits

theorem Chip.headWrite_outside {m : Chip} {p w : Nat} (outside : ¬ m.headFits p w) : m.headWrite p w = m.hpFlag p HP_FLAGS_HEAD_REF := by
  unfold Chip.headWrite Chip.queueLen
  simp only [ofSigned_sub_queue]
  exact if_neg outside

/-- Settles O55: a value within the filled part is written, any other sets the flag. -/
theorem queueHeadWrite : Obligations.QueueHeadWrite := by
  unfold Obligations.QueueHeadWrite
  intro p w s runs
  refine ⟨_, exec_hpQHeadWrite runs, ?_⟩
  by_cases fits : s.chip.headFits (portNo p) w.toNat
  · rw [if_pos (show _ ≤ _ from fits), if_pos (show _ ≤ _ from fits), Chip.headWrite_fits fits]
    refine ⟨?_, congrArg (bitAt · _) (Chip.rd_wr_ne _ _ _ _ _ _ (by decide)), (SameRegs.rfl _ _ _).wr (.inr (by simp))⟩
    rw [Chip.rd_wr_same]
    exact Nat.mod_eq_of_lt (Nat.mod_lt _ (by decide))
  · rw [if_neg (show ¬ _ ≤ _ from fits), if_neg (show ¬ _ ≤ _ from fits), Chip.headWrite_outside fits]
    exact ⟨Chip.raise_rd_ne _ _ _ _ _ _ _ _ (by decide) (by decide), Chip.raise_bit _ _ _ _ _ _ (by decide) (by decide),
      (SameRegs.rfl _ _ _).raise (by simp) (.inr (by simp))⟩

end Sys2Proof.Machine
end

section
/-! PROOFS. Three statements that fail: a count in the cycle of a read (R11), a cancel behind a pulse that ends (R161), a mount that is
told on while the medium is mounted (R340). -/

namespace Sys2Proof.Machine

/-! ## A counter that counts in the cycle of its read (R11) -/

theorem exec_rcRead {a : BitVec 24} {s : State} (on : s.chip.powered = true) :
    exec (.rcRead a) s = .next { s with chip := s.chip.hostRead a.toNat } := by
  change execRcRead a s = _
  simp [execRcRead, on]

/-- HOST-A has counted its first frame with a bad CRC in this cycle. -/
def crcCounts : State :=
  (st [(HP_CNT_CRC, 0, 1)]).on fun m => m.setCycle { counts := [(HP_CNT_CRC.id, 0, 0, 1)] }

/-- The count of the cycle stays for the next read (R11). -/
theorem crcCounts_kept : (crcCounts.chip.hostRead 0x10).rd HP_CNT_CRC 0 = 1 := by decide

/-- Refutes O54: its third clause clears HP_CNT at every read, but what is counted in the cycle of the read stays (R11). In `crcCounts` a count
falls on that cycle. -/
theorem not_busAndFrames : ¬ Obligations.BusAndFrames := by
  unfold Obligations.BusAndFrames
  rintro ⟨-, -, readClears, -⟩
  obtain ⟨t, ht, -, cleared, -⟩ := readClears .a crcCounts (by decide) (by decide)
  rw [exec_rcRead (by decide)] at ht
  cases ht
  exact absurd (crcCounts_kept.symm.trans cleared) (by decide)

/-! ## A cancel whose event ends with a pulse (R161) -/

theorem exec_cancel (x : Mbx) (s : State) :
    exec (.cancel x) s = .next { s with chip := s.chip.runCmd x.val 0x0302 fun m p => m.cancelCmd x.val p } := rfl

/-- An armed event of channel 5 with record 9. -/
def journaledMark : Ev := { waitingMark with ch := 5, jsn := some 9 }

/-- HOST-A cancels record 9, whose slot also stands for a pulse of channel 5 that ends now. -/
def cancelsAtPulseEnd : State :=
  State.reset.on fun m =>
    ({ m with gelow := { up := true, batch := [0] }, pool := [(3, journaledMark)] }.setChan 5 { pulses := [{ idx := 3, endTb := 0 }] }).store
      (mbBase 0) [2, 3, 16, 0, 1, 0, 0, 0, 1, 0, 0, 0, 0, 0, 0, 0, 9, 0, 0, 0, 0, 0, 0, 0]

/-- The pulse ends before the cancel and takes the slot with it: result 2. -/
theorem cancelsAtPulseEnd_result :
    (cancelsAtPulseEnd.chip.runCmd 0 0x0302 fun m p => m.cancelCmd 0 p).load (mbBase 0 + 0x110) 1 = [2] := by decide

/-- Refutes O58: its cancel clause excludes a due action of the channel, not a pulse that ends; what is due comes first (R161), and the end of a
pulse frees its slot. In `cancelsAtPulseEnd` the slot is that of the event to cancel. -/
theorem not_eventCommands : ¬ Obligations.EventCommands := by
  unfold Obligations.EventCommands
  rintro ⟨-, -, cancels, -⟩
  obtain ⟨t, ht, -, -, -, -, result⟩ := cancels 0 3 journaledMark cancelsAtPulseEnd (by decide) (by decide) (by decide) (by decide) rfl (by decide)
  rw [exec_cancel] at ht
  cases ht
  exact absurd (cancelsAtPulseEnd_result.symm.trans result) (by decide)

/-! ## A mount of a medium that is mounted with NC_CFG.EN = 0 (R340) -/

theorem exec_mount (x : Mbx) (s : State) :
    exec (.mount x) s = .next { s with chip := s.chip.runCmd x.val 0x0601 fun m p => m.mountCmd x.val p } := rfl

/-- A MOUNT with ENABLE of HOST-A; NC_STAT shows a mounted medium though NC_CFG.EN is 0. -/
def mountsMounted : State :=
  (st [(NC_STAT_MSTATE, 0, 1)]).on fun m =>
    { m with gelow := { up := true, batch := [0] } }.store (mbBase 0) [1, 6, 3, 0, 1, 0, 0, 0, 7, 3, 9]

/-- The command is complete at once. -/
theorem mountsMounted_done : ((mountsMounted.chip.runCmd 0 0x0601 fun m p => m.mountCmd 0 p).mb 0).run = none := by decide

/-- Refutes O60: its second clause lets every MOUNT with ENABLE wait where NC_CFG.EN is 0, but whether it waits goes by NC_STAT.MSTATE, of which
the clause says nothing. `mountsMounted` shows a medium. -/
theorem not_longCommands : ¬ Obligations.LongCommands := by
  unfold Obligations.LongCommands
  rintro ⟨-, enables, -⟩
  obtain ⟨t, ht, waits, -⟩ := enables 0 mountsMounted (by decide) (by decide) (by decide)
  rw [exec_mount] at ht
  cases ht
  exact absurd ((congrArg (Option.map LongRun.op) mountsMounted_done).symm.trans waits) (by decide)

end Sys2Proof.Machine
end

section
/-! PROOFS. States of a wheel input: stop, missing reference, fault exit, resync (R52, R58, R71, R72, R74). -/

namespace Sys2Proof.Machine

/-! ## Rules of the operations of a wheel -/

theorem Chip.wheel_of_whl {x y : Chip} (h : y.whl = x.whl) (k : Nat) : y.wheel k = x.wheel k := congrArg (fun t => tabGet t k ({} : Wheel)) h

theorem Moves.wheel {L : List Part} {x y : Chip} (h : Moves L x y) (p : Part.whl ∉ L) (k : Nat) : y.wheel k = x.wheel k :=
  Chip.wheel_of_whl (h.kept.whl p) k

@[simp] theorem Chip.whlFlag_wheel (m : Chip) (n b k : Nat) : (m.whlFlag n b).wheel k = m.wheel k :=
  (Chip.whlFlag_moves .refl (within_refl _)).wheel (by decide) k

theorem Chip.whlFlag_rd_ne (m : Chip) (n b : Nat) (f : Field) (i : Nat) (hp : f.part ≠ .rInt) (hf : f.id ≠ WHL_FLAGS.id) :
    (m.whlFlag n b).rd f i = m.rd f i := Chip.raise_rd_ne _ _ _ _ _ _ _ _ hp hf

theorem Chip.whlFlag_bit (m : Chip) (n b : Nat) (h : b < WHL_FLAGS.w) : bitAt ((m.whlFlag n b).rd WHL_FLAGS n) b = true :=
  Chip.raise_bit _ _ _ _ _ _ (by decide) h

theorem Chip.whlTo_state (m : Chip) (n st : Nat) : (m.whlTo n st).rd WHL_STAT_STATE n = st % 8 := by
  unfold Chip.whlTo Chip.wrB
  rw [Chip.rd_wr_ne _ _ _ _ _ _ (by decide), Chip.rd_wr_same]
  rfl

theorem Chip.whlTo_valid (m : Chip) (n st : Nat) : (m.whlTo n st).rd WHL_STAT_ANGLE_VALID n = b2n (st == whlSync || st == whlSuspect) := by
  unfold Chip.whlTo Chip.wrB
  rw [Chip.rd_wr_same]
  exact Nat.mod_eq_of_lt (b2n_lt _)

theorem Chip.whlTo_rd_ne (m : Chip) (n st : Nat) (f : Field) (i : Nat) (hs : f.id ≠ WHL_STAT_STATE.id) (hv : f.id ≠ WHL_STAT_ANGLE_VALID.id) :
    (m.whlTo n st).rd f i = m.rd f i := (Chip.rd_wr_ne _ _ _ _ _ _ hv).trans (Chip.rd_wr_ne _ _ _ _ _ _ hs)

theorem Chip.count_rd_ne (m : Chip) (f g : Field) (i j : Nat) (h : g.id ≠ f.id) : (m.count f i).rd g j = m.rd g j :=
  Chip.rd_wr_ne _ _ _ _ _ _ h

theorem Chip.whlAngle_rd_ne (m : Chip) (n : Nat) (base : Int) (f : Field) (i : Nat) (ha : f.id ≠ WHL_ANGLE.id) (ht : f.id ≠ WHL_TURN.id) :
    (m.whlAngle n base).rd f i = m.rd f i := (Chip.rd_wr_ne _ _ _ _ _ _ ht).trans (Chip.rd_wr_ne _ _ _ _ _ _ ha)

@[simp] theorem Chip.whlAngle_wheel (m : Chip) (n k : Nat) (base : Int) : (m.whlAngle n base).wheel k = m.wheel k := rfl

/-- A frame moves the angle and the turn alone. -/
theorem Chip.whlFrame_rd_ne (m : Chip) (n ref : Nat) (f : Field) (i : Nat) (ha : f.id ≠ WHL_ANGLE.id) (ht : f.id ≠ WHL_TURN.id) :
    (m.whlFrame n ref).rd f i = m.rd f i := by
  unfold Chip.whlFrame
  dsimp only
  split
  · rfl
  · exact Chip.whlAngle_rd_ne _ _ _ _ _ ha ht

theorem Chip.whlFrame_wheel (m : Chip) (n ref : Nat) : (m.whlFrame n ref).wheel n = { m.wheel n with refCnt := ref } := by
  unfold Chip.whlFrame
  dsimp only
  split
  · exact Chip.setWheel_same _ _ _
  · exact Chip.setWheel_same _ _ _

/-! ## Records to the consumers (R76) -/

theorem Chip.whlSend_rd (m : Chip) (n : Nat) (r : EdgeRec) {f : Field} (hp : f.part = .rWhl) (i : Nat) : (m.whlSend n r).rd f i = m.rd f i :=
  (Chip.whlSend_moves .refl (within_refl _)).rd f i (by rw [hp]; decide)

@[simp] theorem Chip.whlSend_wheel (m : Chip) (n : Nat) (r : EdgeRec) (k : Nat) : (m.whlSend n r).wheel k = m.wheel k :=
  (Chip.whlSend_moves .refl (within_refl _)).wheel (by decide) k

/-! ## Stop (R58) -/

theorem exec_whlStopTimeout (n : Whl) (s : State) : exec (.whlStopTimeout n) s = .next { s with chip := s.chip.whlStop n.val } := rfl

/-- STOP with its flag. -/
def Chip.whlStopped (m : Chip) (n : Nat) : Chip := (m.wr WHL_STAT_STOP n 1).whlFlag n WHL_FLAGS_STOP_IN

theorem Chip.whlStop_due {m : Chip} {n : Nat} (on : m.rd WHL_STAT_STATE n ≠ 0) (tmo : m.rd WHL_TIMEOUT_STOP_TMO n ≠ 0)
    (moves : m.rd WHL_STAT_STOP n = 0) (idle : (m.wheel n).idleFrom + m.rd WHL_TIMEOUT_STOP_TMO n * msTb ≤ m.tb) :
    ∃ r, m.whlStop n = (m.whlStopped n).whlSend n r :=
  ⟨_, if_pos ⟨on, tmo, by simp [Chip.rdB, moves], idle⟩⟩

theorem Chip.whlStopped_rd (m : Chip) (n : Nat) (f : Field) (i : Nat) (hp : f.part ≠ .rInt) (hf : f.id ≠ WHL_FLAGS.id)
    (hs : f.id ≠ WHL_STAT_STOP.id) : (m.whlStopped n).rd f i = m.rd f i :=
  (Chip.whlFlag_rd_ne _ _ _ _ _ hp hf).trans (Chip.rd_wr_ne _ _ _ _ _ _ hs)

theorem Chip.whlStopped_stop (m : Chip) (n : Nat) : (m.whlStopped n).rd WHL_STAT_STOP n = 1 :=
  (Chip.whlFlag_rd_ne _ _ _ _ _ (by decide) (by decide)).trans (Chip.rd_wr_same _ _ _ _)

/-! ## A missing reference (R71, R72) -/

theorem Chip.whlIdxSettle_none {m : Chip} {n : Nat} (none_ : (m.wheel n).idxPend = none) (upto : Nat) : m.whlIdxSettle n upto = m := by
  simp [Chip.whlIdxSettle, none_]

theorem exec_whlMissingReference {n : Whl} {s : State} (settled : (s.chip.wheel n.val).idxPend = none) :
    exec (.whlMissingReference n) s = .next { s with chip := s.chip.whlMissing n.val } := by
  change execWhlMissingReference n s = _
  simp [execWhlMissingReference, Chip.whlIdxSettle_none settled]

/-- The search for missing references goes on from the next expected one. -/
def Chip.whlChecked (m : Chip) (n : Nat) : Chip := m.setWheel n { m.wheel n with chk := m.whlNextRef n }

theorem Chip.whlMissing_sync {m : Chip} {n : Nat} (sync : m.rd WHL_STAT_STATE n = 3) (ref : m.whlRef n ≠ 0)
    (passed : m.whlRefPassed n = true) : m.whlMissing n = (m.whlChecked n).whlSuspectBy n none 1 := by
  unfold Chip.whlMissing Chip.whlState
  rw [sync]
  simp [whlSync, ref, passed, Chip.whlChecked]

/-- SUSPECT with its count and flag. -/
def Chip.whlSuspected (m : Chip) (n : Nat) : Chip := ((m.whlTo n whlSuspect).count WHL_MISM_CNT n).whlFlag n WHL_FLAGS_IDX_MISMATCH

theorem Chip.whlSuspectBy_rd (m : Chip) (n : Nat) (mism : Option Nat) (missing : Nat) (f : Field) (i : Nat) :
    (m.whlSuspectBy n mism missing).rd f i = (m.whlSuspected n).rd f i := rfl

theorem Chip.whlSuspectBy_wheel (m : Chip) (n : Nat) (mism : Option Nat) (missing : Nat) :
    (m.whlSuspectBy n mism missing).wheel n = { m.wheel n with mismRef := mism, missing := missing } :=
  (Chip.setWheel_same _ _ _).trans (congrArg (fun w : Wheel => { w with mismRef := mism, missing := missing }) (Chip.whlFlag_wheel _ _ _ _))

section
variable (m : Chip) (n : Nat)

theorem Chip.whlSuspected_rd (f : Field) (i : Nat) (hp : f.part ≠ .rInt) (hf : f.id ≠ WHL_FLAGS.id) (hc : f.id ≠ WHL_MISM_CNT.id) :
    (m.whlSuspected n).rd f i = (m.whlTo n whlSuspect).rd f i :=
  (Chip.whlFlag_rd_ne _ _ _ _ _ hp hf).trans (Chip.count_rd_ne _ _ _ _ _ hc)

theorem Chip.whlSuspected_count : (m.whlSuspected n).rd WHL_MISM_CNT n = min (m.rd WHL_MISM_CNT n + 1) (2 ^ WHL_MISM_CNT.w - 1) := by
  unfold Chip.whlSuspected
  rw [Chip.whlFlag_rd_ne _ _ _ _ _ (by decide) (by decide), Chip.count_rd, Chip.whlTo_rd_ne _ _ _ _ _ (by decide) (by decide)]

end

/-! ## The exit of FAULT (R52, R72) -/

theorem exec_whlFaultExit (n : Whl) (s : State) :
    exec (.whlFaultExit n) s =
      .next { s with chip := if s.chip.whlMayExit n.val ∧ !s.chip.rdB WHL_CFG_LATCH_FLT n.val then s.chip.whlExit n.val else s.chip } := rfl

theorem exec_whlFaultClr {who : Writer} {n : Whl} {s : State} (ok : s.chip.geomOk who = true) :
    exec (.whlFaultClr who n) s = .next { s with chip := s.chip.whlFaultClear n.val } := by
  change execWhlFaultClr who n s = _
  simp [execWhlFaultClr, ok]

/-- COUNTING in the frame of reference count 0, with a flag. -/
def Chip.whlRecount (m : Chip) (n flag : Nat) : Chip := ((m.whlTo n whlCounting).whlFrame n 0).whlFlag n flag

theorem Chip.whlExit_rd (m : Chip) (n : Nat) (f : Field) (i : Nat) : (m.whlExit n).rd f i = (m.whlRecount n WHL_FLAGS_FAULT_OUT).rd f i := rfl

section
variable (m : Chip) (n flag : Nat)

theorem Chip.whlRecount_rd (f : Field) (i : Nat) (hp : f.part ≠ .rInt) (hf : f.id ≠ WHL_FLAGS.id) (ha : f.id ≠ WHL_ANGLE.id)
    (ht : f.id ≠ WHL_TURN.id) : (m.whlRecount n flag).rd f i = (m.whlTo n whlCounting).rd f i :=
  (Chip.whlFlag_rd_ne _ _ _ _ _ hp hf).trans (Chip.whlFrame_rd_ne _ _ _ _ _ ha ht)

theorem Chip.whlRecount_state : (m.whlRecount n flag).rd WHL_STAT_STATE n = 2 :=
  (Chip.whlRecount_rd _ _ _ _ _ (by decide) (by decide) (by decide) (by decide)).trans (Chip.whlTo_state _ _ _)

theorem Chip.whlRecount_valid : (m.whlRecount n flag).rd WHL_STAT_ANGLE_VALID n = 0 :=
  (Chip.whlRecount_rd _ _ _ _ _ (by decide) (by decide) (by decide) (by decide)).trans (Chip.whlTo_valid _ _ _)

theorem Chip.whlRecount_cnt : (m.whlRecount n flag).rd WHL_CNT n = m.rd WHL_CNT n :=
  (Chip.whlRecount_rd _ _ _ _ _ (by decide) (by decide) (by decide) (by decide)).trans
    (Chip.whlTo_rd_ne _ _ _ _ _ (by decide) (by decide))

theorem Chip.whlRecount_wheel : (m.whlRecount n flag).wheel n = { m.wheel n with refCnt := 0 } :=
  (Chip.whlFlag_wheel _ _ _ _).trans (Chip.whlFrame_wheel _ _ _)

end

/-! ## RESYNC (R72, R74) -/

theorem exec_whlResync {who : Writer} {n : Whl} {s : State} (ok : s.chip.geomOk who = true) :
    exec (.whlResync who n) s = .next { s with chip := s.chip.whlResync n.val } := by
  change execWhlResync who n s = _
  simp [execWhlResync, ok]

/-- COUNTING with nothing known of a reference. -/
def Chip.whlRestart (m : Chip) (n : Nat) : Chip :=
  (m.whlRecount n WHL_FLAGS_SYNC_LOST).setWheel n { (m.whlRecount n WHL_FLAGS_SYNC_LOST).wheel n with prevRef := none, mismRef := none, missing := 0 }

theorem Chip.whlResync_now {m : Chip} {n : Nat} (state : m.rd WHL_STAT_STATE n = 3 ∨ m.rd WHL_STAT_STATE n = 4)
    (settled : (m.wheel n).idxPend = none) (before : (m.wheel n).undo = none) : m.whlResync n = m.whlRestart n := by
  simp only [Chip.whlResync, Chip.whlIdxSettle_none settled, before, Option.filter_none]
  exact if_pos state

theorem Chip.whlRestart_refCnt (m : Chip) (n : Nat) : ((m.whlRestart n).wheel n).refCnt = 0 :=
  (congrArg Wheel.refCnt (Chip.setWheel_same _ _ _)).trans (congrArg Wheel.refCnt (Chip.whlRecount_wheel _ _ _))

/-- Settles O9: each clause by the branch of its command, the registers by the rules of the operations. -/
theorem wheelStates : Obligations.WheelStates := by
  unfold Obligations.WheelStates
  refine ⟨?_, ?_, ?_, ?_, ?_, ?_⟩
  · intro n s on tmo moves idle
    obtain ⟨r, sent⟩ := Chip.whlStop_due on tmo moves idle
    refine ⟨_, exec_whlStopTimeout n s, ?_⟩
    dsimp only
    rw [sent, Chip.whlSend_rd _ _ _ rfl, Chip.whlSend_rd _ _ _ rfl, Chip.whlSend_rd _ _ _ rfl, Chip.whlSend_rd _ _ _ rfl]
    exact ⟨Chip.whlStopped_stop _ _, Chip.whlFlag_bit _ _ _ (by decide), Chip.whlStopped_rd _ _ _ _ (by decide) (by decide) (by decide),
      Chip.whlStopped_rd _ _ _ _ (by decide) (by decide) (by decide)⟩
  · intro n s sync ref settled passed
    refine ⟨_, exec_whlMissingReference settled, ?_⟩
    dsimp only
    rw [Chip.whlMissing_sync sync ref passed]
    simp only [Chip.whlSuspectBy_rd, Chip.whlSuspectBy_wheel]
    refine ⟨?_, ?_, Chip.whlFlag_bit _ _ _ (by decide), Chip.whlSuspected_count _ _, trivial, ?_⟩
    · rw [Chip.whlSuspected_rd _ _ _ _ (by decide) (by decide) (by decide), Chip.whlTo_state]
      rfl
    · rw [Chip.whlSuspected_rd _ _ _ _ (by decide) (by decide) (by decide), Chip.whlTo_valid]
      rfl
    · rw [Chip.whlSuspected_rd _ _ _ _ (by decide) (by decide) (by decide), Chip.whlTo_rd_ne _ _ _ _ _ (by decide) (by decide)]
      rfl
  · intro n s may unlatched
    refine ⟨_, exec_whlFaultExit n s, ?_⟩
    dsimp only
    rw [if_pos ⟨may, by simp [Chip.rdB, unlatched]⟩]
    simp only [Chip.whlExit_rd]
    exact ⟨Chip.whlRecount_state _ _ _, Chip.whlRecount_valid _ _ _, Chip.whlFlag_bit _ _ _ (by decide), Chip.whlRecount_cnt _ _ _⟩
  · intro n s latched
    rw [exec_whlFaultExit, if_neg]
    simp [Chip.rdB, latched]
  · intro who n s ok may
    refine ⟨_, exec_whlFaultClr ok, ?_⟩
    dsimp only [Chip.whlFaultClear]
    rw [if_pos may]
    simp only [Chip.whlExit_rd]
    exact ⟨Chip.whlRecount_state _ _ _, Chip.whlFlag_bit _ _ _ (by decide)⟩
  · intro who n s ok state settled before
    refine ⟨_, exec_whlResync ok, ?_⟩
    dsimp only
    rw [Chip.whlResync_now state settled before]
    exact ⟨Chip.whlRecount_state _ _ _, Chip.whlRecount_valid _ _ _, Chip.whlFlag_bit _ _ _ (by decide), Chip.whlRestart_refCnt _ _,
      Chip.whlRecount_cnt _ _ _⟩

end Sys2Proof.Machine
end

section
/-! PROOFS. Writes of WHL_CFG and the snapshot reads of a wheel input (R54, R55, R72, R77). -/

namespace Sys2Proof.Machine

/-! ## Writes of WHL_CFG (R54) -/

theorem exec_whlCfgWrite {who : Writer} {n : Whl} {w : Word} {s : State} (ok : s.chip.geomOk who = true) :
    exec (.whlCfgWrite who n w) s = .next { s with chip := s.chip.whlCfgWrite n.val w.toNat } := by
  change execWhlCfgWrite who n w s = _
  simp [execWhlCfgWrite, ok]

theorem exec_whlCfgWrite_barred {who : Writer} {n : Whl} {w : Word} {s : State} (barred : s.chip.geomOk who = false) :
    exec (.whlCfgWrite who n w) s = .next s := by
  change execWhlCfgWrite who n w s = _
  simp [execWhlCfgWrite, barred]

/-- WHL_CFG but MODE, as a write of w leaves it. -/
def Chip.whlWritten (m : Chip) (n w : Nat) : Chip := whlCfgFields.foldl (fun m f => m.wrFrom f n w) m

theorem Chip.whlWritten_rd_ne (m : Chip) (n w : Nat) (g : Field) (j : Nat) (h : (whlCfgFields.all fun f => g.id != f.id) = true) :
    (m.whlWritten n w).rd g j = m.rd g j := Chip.foldl_wrFrom_rd_ne _ _ _ _ _ _ h

theorem Chip.whlWritten_ref (m : Chip) (n w : Nat) : (m.whlWritten n w).rd WHL_CFG_REF n = wordField WHL_CFG_REF w :=
  Chip.foldl_wrFrom_rd [] (whlCfgFields.drop 1) _ _ _ _ (by decide)

theorem Chip.whlWritten_dirSrc (m : Chip) (n w : Nat) : (m.whlWritten n w).rd WHL_CFG_DIR_SRC n = wordField WHL_CFG_DIR_SRC w :=
  Chip.foldl_wrFrom_rd (whlCfgFields.take 3) (whlCfgFields.drop 4) _ _ _ _ (by decide)

theorem Chip.whlCfgWrite_on {m : Chip} {n w : Nat} (on : m.rd WHL_STAT_STATE n ≠ 0) (off : wordField WHL_CFG_MODE w = 0) :
    m.whlCfgWrite n w = m.whlTurnOff n := by
  unfold Chip.whlCfgWrite
  simp only [off]
  exact (if_pos on).trans (if_pos (by decide))

/-- A write to an input that is off, with a mode that is not reserved. -/
theorem Chip.whlCfgWrite_off {m : Chip} {n w md : Nat} (off : m.rd WHL_STAT_STATE n = 0) (mode : wordField WHL_CFG_MODE w = md)
    (known : md ≤ 5) (on : md ≠ 0) :
    m.whlCfgWrite n w =
      if (m.whlWritten n w).whlRefused n md then (m.whlWritten n w).whlFlag n WHL_FLAGS_CFG_ERR else (m.whlWritten n w).whlEnable n md := by
  unfold Chip.whlCfgWrite
  simp only [mode, if_neg (Nat.not_lt.2 known)]
  exact (if_neg (not_not_intro off)).trans (if_neg on)

/-! ## The end of an input (R72) -/

/-- The registers of a wheel that turns off; Mandrel's slots lose it. -/
theorem Chip.whlTurnOff_rd (m : Chip) (n : Nat) {f : Field} (hp : f.part = .rWhl) (i : Nat) :
    (m.whlTurnOff n).rd f i = ((m.wr WHL_CFG_MODE n 0).whlTo n whlOff).rd f i := by
  unfold Chip.whlTurnOff
  dsimp only
  split
  · exact (Chip.slotsLoseWheel_moves .refl (within_refl _)).rd f i (by rw [hp]; decide)
  · rfl

theorem Chip.whlTurnOff_held (m : Chip) (n : Nat) {f : Field} (hp : f.part = .rWhl) (hm : f.id ≠ WHL_CFG_MODE.id)
    (hs : f.id ≠ WHL_STAT_STATE.id) (hv : f.id ≠ WHL_STAT_ANGLE_VALID.id) (i : Nat) : (m.whlTurnOff n).rd f i = m.rd f i :=
  (Chip.whlTurnOff_rd _ _ hp _).trans ((Chip.whlTo_rd_ne _ _ _ _ _ hs hv).trans (Chip.rd_wr_ne _ _ _ _ _ _ hm))

/-! ## The enable of an input (R55, R72) -/

theorem Chip.whlRefused_teeth {m : Chip} {n md : Nat} (wheel : md ≠ 5) (few : m.rd WHL_TEETH_TEETH n < 2) : m.whlRefused n md = true := by
  simp [Chip.whlRefused, wheel, few]

theorem Chip.whlRefused_aux {m : Chip} {n : Nat} (ref : m.rd WHL_CFG_REF n = 0) (dir : m.rd WHL_CFG_DIR_SRC n = 0) :
    m.whlRefused n 5 = false := by
  simp [Chip.whlRefused, quadMode, Chip.whlRef, Chip.whlDirSrc, ref, dir]

/-- The registers of an input that is enabled. -/
def Chip.whlStarted (m : Chip) (n md : Nat) : Chip :=
  ((((((((m.wr WHL_CFG_MODE n md).wr WHL_CNT n 0).wr WHL_TURN n 0).whlTo n whlCounting).wr WHL_STAT_STOP n 0).wr WHL_STAT_EFLT_WIN n 0).wr
    WHL_STAT_DIR n 0).wr WHL_ANGLE n 0)

/-- An enabled input, with what it keeps beside its registers. -/
def Chip.whlEnabled (m : Chip) (n md : Nat) (w : Wheel) : Chip := ((m.whlStarted n md).setWheel n w).whlAdopt n

theorem Chip.whlEnabled_rd (m : Chip) (n md : Nat) (w : Wheel) (f : Field) (i : Nat) :
    (m.whlEnabled n md w).rd f i = (m.whlStarted n md).rd f i := rfl

theorem Chip.whlEnabled_revSlope (m : Chip) (n md : Nat) (w : Wheel) : ((m.whlEnabled n md w).wheel n).revSlope = w.revSlope := by
  simp only [Chip.whlEnabled, Chip.whlAdopt, Chip.setWheel_same]

/-- What an enable keeps of a wheel beside its registers. -/
def Wheel.enabled (w : Wheel) (tb : Nat) : Wheel where
  armed := w.armed
  peak := w.peak
  steep := w.steep
  revSlope := w.revSlope
  present := w.present
  absent := w.absent
  stands := w.stands
  pullOpen := w.pullOpen
  condTb := w.condTb
  comp := w.comp
  line := w.line
  past := w.past
  idxTb := w.idxTb
  edgeTb := w.edgeTb
  edgeCnt := w.edgeCnt
  startNext := true
  firstNext := true
  idleFrom := tb

theorem Chip.whlEnable_eq (m : Chip) (n md : Nat) :
    m.whlEnable n md = (m.whlEnabled n md ((m.wheel n).enabled m.tb)).whlCondFault n false := by
  unfold Chip.whlEnable Chip.whlEnabled Wheel.enabled Chip.whlStarted
  rfl

section
variable (m : Chip) (n md : Nat)

theorem Chip.whlStarted_rd_at (f : Field) {j : Nat} (h : j ≠ n) : (m.whlStarted n md).rd f j = m.rd f j := by
  simp only [Chip.whlStarted, Chip.whlTo, Chip.wrB, Chip.rd_wr_at _ _ _ _ _ _ h]

theorem Chip.whlStarted_rd_ne {f : Field} (h : ([WHL_CFG_MODE, WHL_CNT, WHL_TURN, WHL_STAT_STATE, WHL_STAT_ANGLE_VALID, WHL_STAT_STOP,
    WHL_STAT_EFLT_WIN, WHL_STAT_DIR, WHL_ANGLE].all fun g => f.id != g.id) = true) (i : Nat) : (m.whlStarted n md).rd f i = m.rd f i := by
  simp only [List.all_cons, List.all_nil, Bool.and_true, Bool.and_eq_true, bne_iff_ne] at h
  obtain ⟨mode, cnt, turn, state, valid, stop, window, dir, angle⟩ := h
  simp only [Chip.whlStarted, Chip.whlTo, Chip.wrB, Chip.rd_wr_ne _ _ _ _ _ _ mode, Chip.rd_wr_ne _ _ _ _ _ _ cnt,
    Chip.rd_wr_ne _ _ _ _ _ _ turn, Chip.rd_wr_ne _ _ _ _ _ _ state, Chip.rd_wr_ne _ _ _ _ _ _ valid, Chip.rd_wr_ne _ _ _ _ _ _ stop,
    Chip.rd_wr_ne _ _ _ _ _ _ window, Chip.rd_wr_ne _ _ _ _ _ _ dir, Chip.rd_wr_ne _ _ _ _ _ _ angle]

/-- What an enabled input shows: its mode, COUNTING, and 0 for count, angle, turn, stop and direction. -/
theorem Chip.whlStarted_shows : (m.whlStarted n md).rd WHL_CFG_MODE n = md % 8 ∧ (m.whlStarted n md).rd WHL_STAT_STATE n = 2 ∧
    (m.whlStarted n md).rd WHL_CNT n = 0 ∧ (m.whlStarted n md).rd WHL_ANGLE n = 0 ∧ (m.whlStarted n md).rd WHL_TURN n = 0 ∧
    (m.whlStarted n md).rd WHL_STAT_STOP n = 0 ∧ (m.whlStarted n md).rd WHL_STAT_DIR n = 0 := by
  unfold Chip.whlStarted Chip.whlTo Chip.wrB
  refine ⟨?_, ?_, ?_, ?_, ?_, ?_, ?_⟩ <;> simp (disch := decide) only [Chip.rd_wr_ne, Chip.rd_wr_same] <;> rfl

end

/-! ## Conditions of FAULT (R52) -/

/-- Whether a line is line B of a pair goes by the mode of the input below alone. -/
theorem Chip.whlHome_congr {x y : Chip} {n : Nat} (h : n % 2 = 1 → y.rd WHL_CFG_MODE (n - 1) = x.rd WHL_CFG_MODE (n - 1)) :
    y.whlHome n = x.whlHome n := by
  unfold Chip.whlHome Chip.whlMode
  by_cases odd : n % 2 = 1
  · rw [h odd]
  · simp [odd]

theorem Chip.whlBad_calm {m : Chip} {n : Nat} (single : quadMode (m.whlMode n) = false) (cond : m.rd WHL_STAT_COND n = 0)
    (slope : (m.wheel n).revSlope = false) : m.whlBad n = false := by
  simp [Chip.whlBad, Chip.whlFaultCond, single, cond, slope, clrBit]

theorem Chip.whlCondFault_calm {m : Chip} {n : Nat} (home : m.whlHome n = n) (calm : m.whlBad n = false) : m.whlCondFault n false = m := by
  simp [Chip.whlCondFault, home, calm]

/-- An auxiliary input without a condition is enabled as it starts. -/
theorem Chip.whlEnable_aux {m : Chip} {n : Nat} (home : m.whlHome n = n) (cond : m.rd WHL_STAT_COND n = 0)
    (slope : (m.wheel n).revSlope = false) : m.whlEnable n 5 = m.whlEnabled n 5 ((m.wheel n).enabled m.tb) := by
  obtain ⟨mode, -⟩ := m.whlStarted_shows n 5
  refine (m.whlEnable_eq n 5).trans (Chip.whlCondFault_calm ?_ (Chip.whlBad_calm ?_ ?_ ?_))
  · refine (Chip.whlHome_congr fun odd => ?_).trans home
    rw [Chip.whlEnabled_rd]
    exact Chip.whlStarted_rd_at _ _ _ _ (by omega)
  · simp [Chip.whlMode, Chip.whlEnabled_rd, mode, quadMode]
  · rw [Chip.whlEnabled_rd, Chip.whlStarted_rd_ne _ _ _ (by decide), cond]
  · rw [Chip.whlEnabled_revSlope]
    exact slope

/-! ## Snapshots (R77) -/

theorem exec_whlEdgeSnapshotRead (n : Whl) (s : State) :
    exec (.whlEdgeSnapshotRead n) s = .next { s with chip := s.chip.whlEdgeSnap n.val } := rfl

theorem exec_whlIdxSnapshotRead (n : Whl) (s : State) :
    exec (.whlIdxSnapshotRead n) s = .next { s with chip := s.chip.whlIdxSnap n.val } := rfl

theorem Chip.wrTb_lo (m : Chip) (lo hi : Field) (i t : Nat) (h : lo.id ≠ hi.id) : (m.wrTb lo hi i t).rd lo i = t % 2 ^ lo.w :=
  (Chip.rd_wr_ne _ _ _ _ _ _ h).trans (Chip.rd_wr_same _ _ _ _)

theorem Chip.wrTb_hi (m : Chip) (lo hi : Field) (i t : Nat) : (m.wrTb lo hi i t).rd hi i = t / 2 ^ 32 % 2 ^ hi.w := Chip.rd_wr_same _ _ _ _

theorem SameRegs.wrTb {l : List (Field × Nat)} {p : List Part} {x y : Chip} {lo hi : Field} {i t : Nat} (h : SameRegs l p x y)
    (hl : (lo, i) ∈ l) (hh : (hi, i) ∈ l) : SameRegs l p x (y.wrTb lo hi i t) := (h.wr (.inr hl)).wr (.inr hh)

/-- The registers of a snapshot of the last qualified edge. -/
def Chip.whlSnapped (m : Chip) (n : Nat) : Chip :=
  let e := (m.wrTb WHL_EDGE_TB_LO WHL_EDGE_TB_HI n (m.wheel n).edgeTb).wr WHL_SNAP_CNT n (m.wheel n).edgeCnt
  e.wr WHL_SNAP_IVL n (e.rd WHL_IVL n)

theorem Chip.whlEdgeSnap_eq (m : Chip) (n : Nat) : m.whlEdgeSnap n = { m.whlSnapped n with rdata := (m.whlSnapped n).rd WHL_EDGE_TB_LO n } := rfl

theorem Chip.whlSnapped_shows (m : Chip) (n : Nat) : (m.whlSnapped n).rd WHL_EDGE_TB_LO n = (m.wheel n).edgeTb % 2 ^ 32 ∧
    (m.whlSnapped n).rd WHL_EDGE_TB_HI n = (m.wheel n).edgeTb / 2 ^ 32 % 2 ^ 32 ∧
    (m.whlSnapped n).rd WHL_SNAP_CNT n = (m.wheel n).edgeCnt % 2 ^ WHL_SNAP_CNT.w ∧
    (m.whlSnapped n).rd WHL_SNAP_IVL n = m.rd WHL_IVL n % 2 ^ WHL_SNAP_IVL.w := by
  unfold Chip.whlSnapped Chip.wrTb
  refine ⟨?_, ?_, ?_, ?_⟩ <;> simp (disch := decide) only [Chip.rd_wr_ne, Chip.rd_wr_same] <;> rfl

theorem Chip.whlIdxSnap_settled {m : Chip} {n : Nat} (settled : (m.wheel n).idxPend = none) :
    m.whlIdxSnap n =
      { m.wrTb WHL_IDX_TB_LO WHL_IDX_TB_HI n (m.wheel n).idxTb with
        rdata := (m.wrTb WHL_IDX_TB_LO WHL_IDX_TB_HI n (m.wheel n).idxTb).rd WHL_IDX_LATCH n } := by
  unfold Chip.whlIdxSnap
  rw [Chip.whlIdxSettle_none settled]

/-- Settles O10: the branches of a write of WHL_CFG, and the two snapshots. -/
theorem wheelCommandsAndSnapshots : Obligations.WheelCommandsAndSnapshots := by
  unfold Obligations.WheelCommandsAndSnapshots
  refine ⟨?_, ?_, ?_, ?_, ?_, ?_⟩
  · intro who n w s barred
    exact exec_whlCfgWrite_barred barred
  · intro who n w s ok on off
    refine ⟨_, exec_whlCfgWrite ok, ?_⟩
    dsimp only
    rw [Chip.whlCfgWrite_on on off]
    refine ⟨?_, ?_, ?_, Chip.whlTurnOff_held _ _ rfl (by decide) (by decide) (by decide) _,
      Chip.whlTurnOff_held _ _ rfl (by decide) (by decide) (by decide) _, Chip.whlTurnOff_held _ _ rfl (by decide) (by decide) (by decide) _⟩
    · rw [Chip.whlTurnOff_rd _ _ rfl, Chip.whlTo_rd_ne _ _ _ _ _ (by decide) (by decide), Chip.rd_wr_same]
      rfl
    · rw [Chip.whlTurnOff_rd _ _ rfl, Chip.whlTo_state]
      rfl
    · rw [Chip.whlTurnOff_rd _ _ rfl, Chip.whlTo_valid]
      rfl
  · intro who n w s ok off mode few
    have teeth : (s.chip.whlWritten n.val w.toNat).rd WHL_TEETH_TEETH n.val < 2 := by rwa [Chip.whlWritten_rd_ne _ _ _ _ _ (by decide)]
    refine ⟨_, exec_whlCfgWrite ok, ?_⟩
    dsimp only
    rw [Chip.whlCfgWrite_off off mode (by decide) (by decide), if_pos (Chip.whlRefused_teeth (by decide) teeth)]
    refine ⟨Chip.whlFlag_bit _ _ _ (by decide), ?_, ?_⟩
    · rw [Chip.whlFlag_rd_ne _ _ _ _ _ (by decide) (by decide), Chip.whlWritten_rd_ne _ _ _ _ _ (by decide)]
    · rw [Chip.whlFlag_rd_ne _ _ _ _ _ (by decide) (by decide), Chip.whlWritten_rd_ne _ _ _ _ _ (by decide), off]
  · intro who n w s ok off mode ref dir home cond slope
    have taken : (s.chip.whlWritten n.val w.toNat).whlRefused n.val 5 = false :=
      Chip.whlRefused_aux ((Chip.whlWritten_ref _ _ _).trans ref) ((Chip.whlWritten_dirSrc _ _ _).trans dir)
    have enabled := Chip.whlEnable_aux (m := s.chip.whlWritten n.val w.toNat)
      ((Chip.whlHome_congr fun _ => Chip.whlWritten_rd_ne _ _ _ _ _ (by decide)).trans home)
      ((Chip.whlWritten_rd_ne _ _ _ _ _ (by decide)).trans cond) slope
    refine ⟨_, exec_whlCfgWrite ok, ?_⟩
    dsimp only
    rw [Chip.whlCfgWrite_off off mode (by decide) (by decide), if_neg (by simp [taken]), enabled]
    simp only [Chip.whlEnabled_rd]
    exact Chip.whlStarted_shows _ _ _
  · intro n s
    obtain ⟨lo, hi, cnt, ivl⟩ := s.chip.whlSnapped_shows n.val
    refine ⟨_, exec_whlEdgeSnapshotRead n s, ?_⟩
    dsimp only
    rw [Chip.whlEdgeSnap_eq]
    refine ⟨lo, hi, cnt, ivl, lo, SameRegs.regs ?_ rfl⟩
    exact (((SameRegs.rfl _ _ _).wrTb (by simp) (by simp)).wr (.inr (by simp))).wr (.inr (by simp))
  · intro n s settled
    refine ⟨_, exec_whlIdxSnapshotRead n s, ?_⟩
    dsimp only
    rw [Chip.whlIdxSnap_settled settled]
    exact ⟨Chip.wrTb_lo _ _ _ _ _ (by decide), Chip.wrTb_hi _ _ _ _ _,
      (Chip.rd_wr_ne _ _ _ _ _ _ (by decide)).trans (Chip.rd_wr_ne _ _ _ _ _ _ (by decide)),
      ((SameRegs.rfl _ _ _).wrTb (by simp) (by simp)).regs rfl⟩

end Sys2Proof.Machine
end

section
/-! PROOFS. Qualified edges of a single-line wheel and its direction pulses (R48, R59, R60, R62, R63). -/

namespace Sys2Proof.Machine

/-! ## A qualified edge (R59, R60) -/

theorem Chip.whlWindow_rd_ne (m : Chip) (n : Nat) (f : Field) (i : Nat) (h : f.id ≠ WHL_STAT_EFLT_WIN.id) :
    (m.whlWindow n).rd f i = m.rd f i := by
  unfold Chip.whlWindow
  dsimp only
  split
  · exact Chip.rd_wr_ne _ _ _ _ _ _ h
  · rfl

/-- What a qualified edge shows before it counts: direction and motion, each change of them with its flag. -/
def Chip.whlMotion (m : Chip) (n : Nat) (rev : Bool) : Chip :=
  let m := (m.whlWindow n).whlAdopt n
  let turned := rev != m.rdB WHL_STAT_DIR n
  let stopped := m.rdB WHL_STAT_STOP n
  let m := (m.wrB WHL_STAT_DIR n rev).wr WHL_STAT_STOP n 0
  let m := if turned then m.whlFlag n WHL_FLAGS_DIR_CHG else m
  if stopped then m.whlFlag n WHL_FLAGS_START else m

/-- A flag or none. -/
theorem Chip.whlFlag_if_rd (c : Bool) (m : Chip) (n b : Nat) (f : Field) (i : Nat) (hp : f.part ≠ .rInt) (hf : f.id ≠ WHL_FLAGS.id) :
    (if c then m.whlFlag n b else m).rd f i = m.rd f i := by
  split
  · exact Chip.whlFlag_rd_ne _ _ _ _ _ hp hf
  · rfl

section
variable (m : Chip) (n : Nat) (rev : Bool)

theorem Chip.whlMotion_rd (f : Field) (i : Nat) (hp : f.part ≠ .rInt) (hf : f.id ≠ WHL_FLAGS.id) :
    (m.whlMotion n rev).rd f i = (((m.whlWindow n).wrB WHL_STAT_DIR n rev).wr WHL_STAT_STOP n 0).rd f i :=
  (Chip.whlFlag_if_rd _ _ _ _ _ _ hp hf).trans (Chip.whlFlag_if_rd _ _ _ _ _ _ hp hf)

theorem Chip.whlMotion_rd_ne (f : Field) (i : Nat) (hp : f.part ≠ .rInt) (hf : f.id ≠ WHL_FLAGS.id) (hw : f.id ≠ WHL_STAT_EFLT_WIN.id)
    (hd : f.id ≠ WHL_STAT_DIR.id) (hs : f.id ≠ WHL_STAT_STOP.id) : (m.whlMotion n rev).rd f i = m.rd f i :=
  (Chip.whlMotion_rd _ _ _ _ _ hp hf).trans ((Chip.rd_wr_ne _ _ _ _ _ _ hs).trans ((Chip.rd_wr_ne _ _ _ _ _ _ hd).trans
    (Chip.whlWindow_rd_ne _ _ _ _ hw)))

theorem Chip.whlMotion_stop : (m.whlMotion n rev).rd WHL_STAT_STOP n = 0 :=
  (Chip.whlMotion_rd _ _ _ _ _ (by decide) (by decide)).trans (Chip.rd_wr_same _ _ _ _)

theorem Chip.whlMotion_dir : (m.whlMotion n rev).rd WHL_STAT_DIR n = b2n rev := by
  rw [Chip.whlMotion_rd _ _ _ _ _ (by decide) (by decide), Chip.rd_wr_ne _ _ _ _ _ _ (by decide)]
  exact (Chip.rd_wr_same _ _ _ _).trans (Nat.mod_eq_of_lt (b2n_lt _))

end

/-- The change of count of an edge that ends no gap. -/
def edgeStep (rev : Bool) : Int := if rev then -1 else 1

/-- The registers of a qualified edge that ends no gap. -/
def Chip.whlCounted (m : Chip) (n : Nat) (rev : Bool) (w : Wheel) (ivl : Nat) (base : Int) : Chip :=
  let m := (m.whlMotion n rev).setWheel n w
  ((m.wrI WHL_CNT n (m.rdI WHL_CNT n + edgeStep rev)).wr WHL_IVL n ivl).whlAngle n base

/-- Where no gap is looked for, an edge counts one (R59); what follows it goes to the consumers. -/
theorem Chip.whlQualified_single {m : Chip} {n : Nat} (ref : m.rd WHL_CFG_REF n = 0) (te : Nat) (rev : Bool) :
    ∃ (w v : Wheel) (ivl : Nat) (base : Int) (r : EdgeRec), v.edgeTb = te ∧
      m.whlQualified n te rev = ((m.whlCounted n rev w ivl base).setWheel n v).whlSend n r := by
  have none_ : ((m.whlMotion n rev).whlRef n == 1) = false := by
    have kept := (m.whlMotion_rd_ne n rev WHL_CFG_REF n (by decide) (by decide) (by decide) (by decide) (by decide)).trans ref
    simp [Chip.whlRef, kept]
  unfold Chip.whlQualified
  extract_lets m1 w turned stopped start m2 m3 m4 ivl gap size d before tc base k after m5 m6 m7 l m8 x m9
  have single : gap = false := by
    have motion : m4 = m.whlMotion n rev := rfl
    simp only [gap, motion, none_, Bool.false_and]
  have step : d = edgeStep rev := by simp [d, size, single, edgeStep]
  have counted : m8 = m.whlCounted n rev (m5.wheel n) ivl (base + if tc = 0 then 0 else (k + d) / tc) := by
    unfold Chip.whlCounted
    rw [← step, show m5.wheel n = _ from Chip.setWheel_same _ _ _]
    exact if_neg (by simp [single])
  have placed : x.edgeTb = te := by
    have same : m8 = m7 := if_neg (by simp [single])
    have held : m7.wheel n = _ := Chip.setWheel_same m4 n _
    simp only [x, same, held]
  exact ⟨_, { x with tcntMark := false }, ivl, _, _, placed,
    congrArg (fun y : Chip => (y.setWheel n { x with tcntMark := false }).whlSend n _) counted⟩

/-- What a qualified edge that ends no gap shows, on a single-line wheel. -/
theorem Chip.whlQualified_shows {m : Chip} {n : Nat} (ref : m.rd WHL_CFG_REF n = 0) (te : Nat) (rev : Bool) :
    (m.whlQualified n te rev).rd WHL_STAT_DIR n = b2n rev ∧ (m.whlQualified n te rev).rd WHL_STAT_STOP n = 0 ∧
      (m.whlQualified n te rev).rd WHL_CNT n = ofSigned 32 (m.rdI WHL_CNT n + edgeStep rev) ∧
      (m.whlQualified n te rev).rd WHL_STAT_STATE n = m.rd WHL_STAT_STATE n ∧
      (m.whlQualified n te rev).rd WHL_STAT_LINE n = m.rd WHL_STAT_LINE n ∧ ((m.whlQualified n te rev).wheel n).edgeTb = te := by
  obtain ⟨w, v, ivl, base, r, placed, eq⟩ := Chip.whlQualified_single ref te rev
  have shown {f : Field} (hp : f.part = .rWhl) : (m.whlQualified n te rev).rd f n = (m.whlCounted n rev w ivl base).rd f n := by
    rw [eq, Chip.whlSend_rd _ _ _ hp, Chip.setWheel_rd]
  have kept {f : Field} (hf : ([WHL_ANGLE, WHL_TURN, WHL_IVL, WHL_CNT].all fun g => f.id != g.id) = true) :
      (m.whlCounted n rev w ivl base).rd f n = (m.whlMotion n rev).rd f n := by
    simp only [List.all_cons, List.all_nil, Bool.and_true, Bool.and_eq_true, bne_iff_ne] at hf
    obtain ⟨angle, turn, time, cnt⟩ := hf
    exact (Chip.whlAngle_rd_ne _ _ _ _ _ angle turn).trans ((Chip.rd_wr_ne _ _ _ _ _ _ time).trans (Chip.rd_wr_ne _ _ _ _ _ _ cnt))
  have cnt : (m.whlCounted n rev w ivl base).rd WHL_CNT n = ofSigned 32 (m.rdI WHL_CNT n + edgeStep rev) := by
    have before : ((m.whlMotion n rev).setWheel n w).rdI WHL_CNT n = m.rdI WHL_CNT n :=
      congrArg (toSigned 32) (Chip.whlMotion_rd_ne _ _ _ _ _ (by decide) (by decide) (by decide) (by decide) (by decide))
    unfold Chip.whlCounted Chip.wrI
    rw [Chip.whlAngle_rd_ne _ _ _ _ _ (by decide) (by decide), Chip.rd_wr_ne _ _ _ _ _ _ (by decide), Chip.rd_wr_same, before]
    exact Nat.mod_eq_of_lt (ofSigned_lt _ _)
  refine ⟨(shown rfl).trans ((kept (by decide)).trans (Chip.whlMotion_dir _ _ _)),
    (shown rfl).trans ((kept (by decide)).trans (Chip.whlMotion_stop _ _ _)), (shown rfl).trans cnt, ?_, ?_, ?_⟩
  · rw [shown rfl, kept (by decide)]
    exact Chip.whlMotion_rd_ne _ _ _ _ _ (by decide) (by decide) (by decide) (by decide) (by decide)
  · rw [shown rfl, kept (by decide)]
    exact Chip.whlMotion_rd_ne _ _ _ _ _ (by decide) (by decide) (by decide) (by decide) (by decide)
  · rw [eq, Chip.whlSend_wheel, Chip.setWheel_same, placed]

/-- The first edge on a line is never too soon (R56). -/
theorem Chip.whlCandidate_first {m : Chip} {n : Nat} (first : (m.wheel n).lastTb = none) (te : Nat) (rev : Bool) :
    m.whlCandidate n te rev = (m.setWheel n { m.wheel n with lastTb := some te }).whlQualified n te rev := by
  simp [Chip.whlCandidate, Chip.whlTooSoon, first]

theorem Chip.whlCandidate_shows {m : Chip} {n : Nat} (ref : m.rd WHL_CFG_REF n = 0) (first : (m.wheel n).lastTb = none) (te : Nat)
    (rev : Bool) :
    (m.whlCandidate n te rev).rd WHL_STAT_DIR n = b2n rev ∧ (m.whlCandidate n te rev).rd WHL_STAT_STOP n = 0 ∧
      (m.whlCandidate n te rev).rd WHL_CNT n = ofSigned 32 (m.rdI WHL_CNT n + edgeStep rev) ∧
      (m.whlCandidate n te rev).rd WHL_STAT_STATE n = m.rd WHL_STAT_STATE n ∧
      (m.whlCandidate n te rev).rd WHL_STAT_LINE n = m.rd WHL_STAT_LINE n ∧ ((m.whlCandidate n te rev).wheel n).edgeTb = te := by
  rw [Chip.whlCandidate_first first]
  exact Chip.whlQualified_shows (m := m.setWheel n { m.wheel n with lastTb := some te }) ref te rev

/-! ## A direction pulse (R63) -/

theorem exec_whlDirPulseTimeout (n : Whl) (s : State) :
    exec (.whlDirPulseTimeout n) s = .next { s with chip := s.chip.whlPulseLong n.val } := rfl

theorem Chip.whlPulseLong_reverse {m : Chip} {n t : Nat} (lead : (m.wheel n).leadTb = some t) (src : m.rd WHL_CFG_DIR_SRC n = 2)
    (long : t + 4096 * usTb ≤ m.tbOf islObserver) :
    m.whlPulseLong n = (m.setWheel n { m.wheel n with leadTb := none }).whlCandidate n t true := by
  have pulse : m.whlDirSrc n = 2 := by simp [Chip.whlDirSrc, src]
  simp [Chip.whlPulseLong, lead, pulse, long]

/-! ## The change of a single line (R45, R48, R51) -/

theorem exec_wheelEdge (n : Whl) (x : Int) (held : Nat) (steep both : Bool) (s : State) :
    exec (.wheelEdge n ⟨x, held⟩ steep both) s = .next { s with chip := s.chip.whlEdge n.val x held steep both } := rfl

/-- A line that is its own wheel and is not held. -/
structure Chip.FreeLine (m : Chip) (n : Nat) : Prop where
  home : m.whlHome n = n
  mode : m.rd WHL_CFG_MODE n = 1
  fe : m.rd WHL_FE_FE n = 1
  free : m.whlHeldLine n = false

section
variable {m : Chip} {n : Nat} (line : m.FreeLine n)
include line

theorem Chip.FreeLine.single : m.whlMode n = 1 := by simp [Chip.whlMode, line.mode]

theorem Chip.FreeLine.digital : m.whlFe n = 1 := by simp [Chip.whlFe, line.fe]

theorem Chip.FreeLine.notHeld : m.whlHeld n = false := by
  simp [Chip.whlHeld, line.home, line.single, quadMode, line.free]

/-- The registers alone say that a line is free. -/
theorem Chip.FreeLine.congr {x : Chip} (h : ∀ f ∈ [WHL_CFG_MODE, WHL_FE_FE, WHL_STAT_COND], ∀ i, x.rd f i = m.rd f i) : x.FreeLine n where
  home := (Chip.whlHome_congr fun _ => h _ (by simp) _).trans line.home
  mode := (h _ (by simp) _).trans line.mode
  fe := (h _ (by simp) _).trans line.fe
  free := by
    have free := line.free
    unfold Chip.whlHeldLine at free ⊢
    rwa [h _ (by simp)]

theorem Chip.FreeLine.setWheel (w : Wheel) : (m.setWheel n w).FreeLine n := line.congr fun _ _ _ => rfl

end

/-- The level that a free line takes shows. -/
theorem Chip.FreeLine.pass {m : Chip} {n : Nat} (line : m.FreeLine n) (te : Nat) (level : Bool) :
    m.whlPass n te level = (m.setWheel n { m.wheel n with line := level, past := keepRecent te ((te, level) :: (m.wheel n).past) }).wrB
      WHL_STAT_LINE n level := by
  unfold Chip.whlPass Chip.whlLine
  rw [(line.setWheel _).notHeld, Chip.setWheel_same]
  rfl

/-- A single line whose direction is set: its selected edge, not too soon and with nothing that waits, counts (R62). -/
theorem Chip.whlSingleEdge_selected {m : Chip} {n te : Nat} {level : Bool} (selected : level = m.whlActive n)
    (src : m.rd WHL_CFG_DIR_SRC n = 0) (settled : (m.wheel n).dirPend = none) :
    m.whlSingleEdge n te level true = m.whlCandidate n te (m.rdB WHL_DIRSET_DIR n) := by
  have set' : m.whlDirSrc n = 0 := by simp [Chip.whlDirSrc, src]
  simp [Chip.whlSingleEdge, selected, set', Chip.whlDirSettle, settled, Chip.whlLevelEdge, Chip.whlDirection]

/-- The filtered line of a free line takes a level and gives its edge. -/
theorem Chip.FreeLine.change {m : Chip} {n : Nat} (line : m.FreeLine n) (te : Nat) (level steep both : Bool)
    (settled : (m.wheel n).idxPend = none) : m.whlChange n te level steep both = (m.whlPass n te level).whlSingleEdge n te level true := by
  have passed : (m.whlPass n te level).FreeLine n := by
    rw [line.pass]
    exact (line.setWheel _).congr fun f hf i => Chip.rd_wr_ne _ _ _ _ _ _ (by simp at hf; rcases hf with rfl | rfl | rfl <;> decide)
  have gives : (m.whlPass n te level).whlPasses n level steep = (true, m.whlPass n te level) := by
    simp [Chip.whlPasses, passed.digital]
  unfold Chip.whlChange
  simp [line.home, line.single, quadMode, Chip.whlIdxSettle_none settled, gives]

/-- A free line whose reading differs from its filtered level for the filter time. -/
theorem Chip.FreeLine.edge {m : Chip} {n : Nat} (line : m.FreeLine n) {x : Int} {held : Nat} {level : Bool} (steep both : Bool)
    (clock : m.clockOk islObserver = true) (reads : (m.whlComp n x != m.rdB WHL_FE_INV n) = level) (differs : (m.wheel n).line = !level)
    (stable : m.rd WHL_FE_FILT n * 8 ≤ held) :
    m.whlEdge n x held steep both =
      (m.setWheel n { m.wheel n with comp := m.whlComp n x }).whlChange n (m.tbOf islObserver - held) level steep both := by
  unfold Chip.whlEdge
  rw [if_neg (by simp [clock])]
  extract_lets comp read te w m' h
  have level_ : read = level := reads
  have sampled : (m'.wheel n).line = !level := (congrArg Wheel.line (Chip.setWheel_same _ _ _)).trans differs
  have passes : ¬ (level = (m'.wheel n).line ∨ held < m'.rd WHL_FE_FILT n * 8) := by
    rw [sampled]
    exact not_or.2 ⟨by cases level <;> simp, Nat.not_lt.2 stable⟩
  rw [level_, if_neg passes, if_neg (by simp only [m', (line.setWheel _).notHeld, Bool.false_eq_true, not_false_eq_true])]

/-- What a selected edge of a free line with a settable direction shows. -/
theorem Chip.FreeLine.edge_shows {m : Chip} {n : Nat} (line : m.FreeLine n) {x : Int} {held : Nat} (steep both : Bool)
    (clock : m.clockOk islObserver = true) (ref : m.rd WHL_CFG_REF n = 0) (src : m.rd WHL_CFG_DIR_SRC n = 0)
    (reads : (m.whlComp n x != m.rdB WHL_FE_INV n) = (m.rd WHL_CFG_EDGE n == 0))
    (differs : (m.wheel n).line = !(m.rd WHL_CFG_EDGE n == 0)) (stable : m.rd WHL_FE_FILT n * 8 ≤ held)
    (first : (m.wheel n).lastTb = none) (noIdx : (m.wheel n).idxPend = none) (noDir : (m.wheel n).dirPend = none) :
    let t := m.whlEdge n x held steep both
    t.rd WHL_STAT_LINE n = b2n (m.rd WHL_CFG_EDGE n == 0) ∧ t.rd WHL_STAT_DIR n = b2n (m.rdB WHL_DIRSET_DIR n) ∧
      t.rd WHL_STAT_STOP n = 0 ∧ (t.wheel n).edgeTb = m.tbOf islObserver - held ∧
      t.rd WHL_CNT n = ofSigned 32 (m.rdI WHL_CNT n + edgeStep (m.rdB WHL_DIRSET_DIR n)) ∧ t.rd WHL_STAT_STATE n = m.rd WHL_STAT_STATE n := by
  intro t
  have sampled := line.setWheel { m.wheel n with comp := m.whlComp n x }
  have same : ((m.setWheel n { m.wheel n with comp := m.whlComp n x }).wheel n) = { m.wheel n with comp := m.whlComp n x } :=
    Chip.setWheel_same _ _ _
  have shown : t = _ := (line.edge steep both clock reads differs stable).trans
    (sampled.change _ _ steep both ((congrArg Wheel.idxPend same).trans noIdx))
  rw [sampled.pass] at shown
  generalize passed : Chip.wrB _ WHL_STAT_LINE n _ = y at shown
  have regs {f : Field} (h : f.id ≠ WHL_STAT_LINE.id) (i : Nat) : y.rd f i = m.rd f i := by
    rw [← passed]
    exact Chip.rd_wr_ne _ _ _ _ _ _ h
  have level : y.rd WHL_STAT_LINE n = b2n (m.rd WHL_CFG_EDGE n == 0) := by
    rw [← passed]
    exact (Chip.rd_wr_same _ _ _ _).trans (Nat.mod_eq_of_lt (b2n_lt _))
  have beside : (y.wheel n).lastTb = none ∧ (y.wheel n).dirPend = none := by
    have held := Chip.setWheel_same (m.setWheel n { m.wheel n with comp := m.whlComp n x }) n
    rw [← passed, Chip.wrB, Chip.wr_wheel, held, same]
    exact ⟨first, noDir⟩
  obtain ⟨fresh, settled⟩ := beside
  have free : y.FreeLine n := line.congr fun f hf i => regs (by simp at hf; rcases hf with rfl | rfl | rfl <;> decide) i
  have selected : (m.rd WHL_CFG_EDGE n == 0) = y.whlActive n := by
    have edge : y.rdB WHL_CFG_EDGE n = (m.rd WHL_CFG_EDGE n != 0) := congrArg (· != 0) (regs (by decide) n)
    simp [Chip.whlActive, free.digital, edge, bne]
  obtain ⟨dir, stop, cnt, state, shows, at_⟩ := Chip.whlCandidate_shows ((regs (by decide) _).trans ref) fresh (m.tbOf islObserver - held)
    (m.rdB WHL_DIRSET_DIR n)
  have set' : y.rdB WHL_DIRSET_DIR n = m.rdB WHL_DIRSET_DIR n := congrArg (· != 0) (regs (by decide) n)
  have counts : y.rdI WHL_CNT n = m.rdI WHL_CNT n := congrArg (toSigned 32) (regs (by decide) n)
  rw [Chip.whlSingleEdge_selected selected ((regs (by decide) _).trans src) settled, set'] at shown
  rw [← shown] at dir stop cnt state shows at_
  exact ⟨shows.trans level, dir, stop, at_, by rw [cnt, counts], state.trans (regs (by decide) n)⟩

end Sys2Proof.Machine
end

section
/-! PROOFS. Wiring tests and interpolation of a wheel input (R50, R52, R65, R66). -/

namespace Sys2Proof.Machine

/-! ## The rows of the table (R50) -/

/-- One row of the table over an evaluation, on what a wheel holds beside its registers. -/
def Wheel.row (w : Wheel) (ts : List Bool) (i : Nat) : Wheel :=
  let c := condStep (w.present.getD i 0) (w.absent.getD i 0) (w.stands.getD i false) (ts.getD i false)
  { w with present := w.present.set i c.1, absent := w.absent.set i c.2.1, stands := w.stands.set i c.2.2 }

/-- The same on the block, with the flag of a condition that begins to stand. -/
def Chip.whlRow (m : Chip) (n : Nat) (ts : List Bool) (i : Nat) : Chip :=
  let v := (m.wheel n).row ts i
  if (condStep ((m.wheel n).present.getD i 0) ((m.wheel n).absent.getD i 0) ((m.wheel n).stands.getD i false) (ts.getD i false)).2.2 &&
      !(m.wheel n).stands.getD i false
  then (m.setWheel n v).whlFlag n (WHL_FLAGS_OPEN + condBits.getD i 0) else m.setWheel n v

def Chip.whlRows (m : Chip) (n : Nat) (ts : List Bool) (l : List Nat) : Chip := l.foldl (fun m i => m.whlRow n ts i) m

theorem Chip.whlConds_eq (m : Chip) (n : Nat) (ts : List Bool) :
    m.whlConds n ts =
      (m.whlRows n ts (List.range 8)).wr WHL_STAT_COND n (condWord ((m.whlRows n ts (List.range 8)).wheel n).stands) := rfl

theorem Chip.whlRow_wheel (m : Chip) (n : Nat) (ts : List Bool) (i : Nat) : (m.whlRow n ts i).wheel n = (m.wheel n).row ts i := by
  unfold Chip.whlRow
  dsimp only
  split
  · exact (Chip.whlFlag_wheel _ _ _ _).trans (Chip.setWheel_same _ _ _)
  · exact Chip.setWheel_same _ _ _

theorem Chip.whlRow_rd (m : Chip) (n : Nat) (ts : List Bool) (i : Nat) (f : Field) (j : Nat) (hp : f.part ≠ .rInt) (hf : f.id ≠ WHL_FLAGS.id) :
    (m.whlRow n ts i).rd f j = m.rd f j := Chip.whlFlag_if_rd _ _ _ _ _ _ hp hf

theorem Chip.whlRows_wheel (m : Chip) (n : Nat) (ts : List Bool) (l : List Nat) :
    (m.whlRows n ts l).wheel n = l.foldl (fun w i => w.row ts i) (m.wheel n) := by
  induction l generalizing m with
  | nil => rfl
  | cons i r ih => exact (ih _).trans (congrArg (fun w => r.foldl (fun w i => Wheel.row w ts i) w) (m.whlRow_wheel n ts i))

theorem Chip.whlRows_rd (m : Chip) (n : Nat) (ts : List Bool) (l : List Nat) (f : Field) (j : Nat) (hp : f.part ≠ .rInt)
    (hf : f.id ≠ WHL_FLAGS.id) : (m.whlRows n ts l).rd f j = m.rd f j := by
  induction l generalizing m with
  | nil => rfl
  | cons i r ih => exact (ih _).trans (m.whlRow_rd n ts i f j hp hf)

/-! ### Flags stand -/

theorem Chip.whlFlag_stands {m : Chip} {n b c : Nat} (h : bitAt (m.rd WHL_FLAGS n) c = true) (hc : c < WHL_FLAGS.w) :
    bitAt ((m.whlFlag n b).rd WHL_FLAGS n) c = true := by
  unfold Chip.whlFlag
  rw [Chip.raise_rd_same _ _ _ _ _ _ (by decide)]
  exact bitAt_setBit_of h hc

theorem Chip.whlRow_stands {m : Chip} {n i c : Nat} {ts : List Bool} (h : bitAt (m.rd WHL_FLAGS n) c = true) (hc : c < WHL_FLAGS.w) :
    bitAt ((m.whlRow n ts i).rd WHL_FLAGS n) c = true := by
  unfold Chip.whlRow
  dsimp only
  split
  · exact Chip.whlFlag_stands h hc
  · exact h

theorem Chip.whlRows_stands {m : Chip} {n c : Nat} {ts : List Bool} (l : List Nat) (h : bitAt (m.rd WHL_FLAGS n) c = true)
    (hc : c < WHL_FLAGS.w) : bitAt ((m.whlRows n ts l).rd WHL_FLAGS n) c = true := by
  induction l generalizing m with
  | nil => exact h
  | cons i r ih => exact ih (Chip.whlRow_stands h hc)

/-! ### A row that is present a second time -/

section
variable {w : Wheel} {ts : List Bool}

theorem Wheel.row_others {i j : Nat} (h : j ≠ i) :
    (w.row ts i).present.getD j 0 = w.present.getD j 0 ∧ (w.row ts i).stands.getD j false = w.stands.getD j false := by
  simp [Wheel.row, List.getD_eq_getElem?_getD, List.getElem?_set_ne h.symm]

theorem Wheel.rows_others {j : Nat} (l : List Nat) (h : j ∉ l) :
    (l.foldl (fun w i => w.row ts i) w).present.getD j 0 = w.present.getD j 0 ∧
      (l.foldl (fun w i => w.row ts i) w).stands.getD j false = w.stands.getD j false := by
  induction l generalizing w with
  | nil => exact ⟨rfl, rfl⟩
  | cons i r ih =>
    obtain ⟨ne, rest⟩ := not_or.1 (mt List.mem_cons.2 h)
    obtain ⟨present, stands⟩ := ih (w := w.row ts i) rest
    obtain ⟨present', stands'⟩ := Wheel.row_others (w := w) (ts := ts) ne
    exact ⟨present.trans present', stands.trans stands'⟩

theorem Wheel.row_lengths {i : Nat} : (w.row ts i).present.length = w.present.length ∧ (w.row ts i).stands.length = w.stands.length := by
  simp [Wheel.row]

theorem Wheel.rows_lengths (l : List Nat) :
    (l.foldl (fun w i => w.row ts i) w).present.length = w.present.length ∧
      (l.foldl (fun w i => w.row ts i) w).stands.length = w.stands.length := by
  induction l generalizing w with
  | nil => exact ⟨rfl, rfl⟩
  | cons i r ih => exact ⟨ih.1.trans Wheel.row_lengths.1, ih.2.trans Wheel.row_lengths.2⟩

/-- Present now and at the evaluation before: the condition stands. -/
theorem condStep_second {pres abs : Nat} (stands : Bool) (before : 1 ≤ pres) : (condStep pres abs stands true).2.2 = true := by
  cases stands
  · simp only [condStep]
    exact decide_eq_true (by simp; omega)
  · rfl

theorem Wheel.row_second {i : Nat} (inside : i < w.stands.length) (now : ts.getD i false = true) (before : 1 ≤ w.present.getD i 0) :
    (w.row ts i).stands.getD i false = true := by
  have stands := condStep_second (abs := w.absent.getD i 0) (w.stands.getD i false) before
  simp only [Wheel.row, now, List.getD_eq_getElem?_getD, List.getElem?_set_self inside]
  simpa [List.getD_eq_getElem?_getD] using stands

end

/-- Each row of the table is looked at once. -/
theorem row_once (i : Fin 8) : ∃ pre post, List.range 8 = pre ++ i.val :: post ∧ i.val ∉ pre ∧ i.val ∉ post := by
  obtain ⟨pre, post, split⟩ := List.append_of_mem (List.mem_range.2 i.isLt)
  have nodup : (pre ++ i.val :: post).Nodup := split ▸ List.nodup_range
  obtain ⟨-, once, apart⟩ := List.nodup_append.1 nodup
  exact ⟨pre, post, split, fun h => apart _ h _ (List.mem_cons_self) rfl, (List.nodup_cons.1 once).1⟩

theorem condBits_flag : ∀ i : Fin 8, WHL_FLAGS_OPEN + condBits.getD i.val 0 < WHL_FLAGS.w := by decide

/-- A row that is present a second time stands after the evaluation, with its flag where it did not stand before. -/
theorem Chip.whlRows_second {m : Chip} {n : Nat} {ts : List Bool} (i : Fin 8) (length : (m.wheel n).stands.length = 8)
    (now : ts.getD i.val false = true) (before : 1 ≤ (m.wheel n).present.getD i.val 0) :
    ((m.whlRows n ts (List.range 8)).wheel n).stands.getD i.val false = true ∧
      ((m.wheel n).stands.getD i.val false = false →
        bitAt ((m.whlRows n ts (List.range 8)).rd WHL_FLAGS n) (WHL_FLAGS_OPEN + condBits.getD i.val 0) = true) := by
  obtain ⟨pre, post, split, fresh, rest⟩ := row_once i
  have cut : m.whlRows n ts (List.range 8) = (((m.whlRows n ts pre).whlRow n ts i.val).whlRows n ts post) := by
    rw [split]
    simp only [Chip.whlRows, List.foldl_append, List.foldl_cons]
  obtain ⟨present, stands⟩ := Wheel.rows_others (w := m.wheel n) (ts := ts) pre fresh
  rw [← Chip.whlRows_wheel] at present stands
  have inside : i.val < ((m.whlRows n ts pre).wheel n).stands.length := by
    rw [Chip.whlRows_wheel, (Wheel.rows_lengths pre).2, length]
    exact i.isLt
  have second := condStep_second (abs := ((m.whlRows n ts pre).wheel n).absent.getD i.val 0) ((m.wheel n).stands.getD i.val false) before
  constructor
  · rw [cut, Chip.whlRows_wheel, (Wheel.rows_others post rest).2, Chip.whlRow_wheel]
    exact Wheel.row_second inside now (present ▸ before)
  · intro was
    have bit := condBits_flag i
    have raised : (m.whlRows n ts pre).whlRow n ts i.val =
        ((m.whlRows n ts pre).setWheel n (((m.whlRows n ts pre).wheel n).row ts i.val)).whlFlag n (WHL_FLAGS_OPEN + condBits.getD i.val 0) := by
      unfold Chip.whlRow
      rw [present, stands, now, second, was]
      rfl
    rw [cut, raised]
    exact Chip.whlRows_stands _ (Chip.whlFlag_bit _ _ _ bit) bit

/-! ### The word of COND -/

/-- COND with the bits of the rows of a list. -/
def condRows (stands : List Bool) (a : Nat) (l : List Nat) : Nat :=
  l.foldl (fun a i => if stands.getD i false then setBit a (condBits.getD i 0) else a) a

theorem condRows_stands {stands : List Bool} {a c : Nat} (l : List Nat) (h : bitAt a c = true) : bitAt (condRows stands a l) c = true := by
  induction l generalizing a with
  | nil => exact h
  | cons i r ih =>
    refine ih ?_
    dsimp only
    split
    · simp only [bitAt, setBit, Nat.testBit_or] at h ⊢
      simp [h]
    · exact h

/-- The word of COND has the bit of a row that stands. -/
theorem condWord_bit {stands : List Bool} (i : Fin 8) (h : stands.getD i.val false = true) :
    bitAt (condWord stands) (condBits.getD i.val 0) = true := by
  obtain ⟨pre, post, split, -, -⟩ := row_once i
  have cut : condWord stands = condRows stands (setBit (condRows stands 0 pre) (condBits.getD i.val 0)) post := by
    unfold condWord condRows
    rw [split, List.foldl_append, List.foldl_cons, if_pos h]
  rw [cut]
  exact condRows_stands post (bitAt_setBit _ _)

/-- A bit of COND but that of REV is a condition of FAULT whether or not REV counts. -/
theorem clrBit_ne_zero {c b : Nat} (h : bitAt c b = true) (other : b ≠ 3) : clrBit c 3 ≠ 0 := by
  unfold clrBit bitAt at *
  intro zero
  split at zero
  · next three =>
    have le : 2 ^ 3 ≤ c := Nat.ge_two_pow_of_testBit three
    have eq : c = 2 ^ 3 := by simp at zero; omega
    rw [eq, Nat.testBit_two_pow] at h
    exact other (of_decide_eq_true h).symm
  · rw [zero] at h
    simp at h

/-! ## Conditions of FAULT (R52) -/

/-- A condition but REV puts an input into FAULT. -/
theorem Chip.whlBad_of_cond {m : Chip} {n b : Nat} (h : bitAt (m.rd WHL_STAT_COND n) b = true) (other : b ≠ 3) : m.whlBad n = true := by
  have some_ : m.rd WHL_STAT_COND n ≠ 0 := by
    intro zero
    rw [zero] at h
    simp [bitAt] at h
  simp only [Chip.whlBad, Chip.whlFaultCond, Bool.or_eq_true]
  left; left
  split
  · simpa using clrBit_ne_zero h other
  · simpa using some_

theorem Chip.whlFail_wheel (m : Chip) (n k : Nat) : (m.whlFail n).wheel k = m.wheel k :=
  (Chip.whlFail_moves .refl (within_refl _)).wheel (by decide) k

/-- FAULT of an input: what its slots lose shows elsewhere. -/
theorem Chip.whlFail_shown (m : Chip) (n : Nat) {f : Field} (hp : f.part = .rWhl) (i : Nat) :
    (m.whlFail n).rd f i = if m.whlForwards n then ((m.whlTo n whlFault).whlFlag n WHL_FLAGS_FAULT_IN).rd f i else m.rd f i := by
  have part : f.part ∉ [Part.rMdl, .rInt, .asleep, .accums, .sys, .cyc] := by rw [hp]; decide
  unfold Chip.whlFail
  dsimp only
  split
  · split
    · exact (Chip.slotsLoseWheel_moves .refl (within_refl _)).rd f i part
    · rfl
  · rfl

theorem Chip.whlFail_rd (m : Chip) (n : Nat) {f : Field} (hp : f.part = .rWhl) (hs : f.id ≠ WHL_STAT_STATE.id)
    (hv : f.id ≠ WHL_STAT_ANGLE_VALID.id) (hf : f.id ≠ WHL_FLAGS.id) (i : Nat) : (m.whlFail n).rd f i = m.rd f i := by
  rw [Chip.whlFail_shown _ _ hp]
  split
  · exact (Chip.whlFlag_rd_ne _ _ _ _ _ (by rw [hp]; decide) hf).trans (Chip.whlTo_rd_ne _ _ _ _ _ hs hv)
  · rfl

theorem Chip.whlFail_state {m : Chip} {n : Nat} (on : m.whlForwards n = true) : (m.whlFail n).rd WHL_STAT_STATE n = 1 := by
  rw [Chip.whlFail_shown _ _ rfl, if_pos on, Chip.whlFlag_rd_ne _ _ _ _ _ (by decide) (by decide), Chip.whlTo_state]
  rfl

theorem Chip.whlFail_stands {m : Chip} {n c : Nat} (h : bitAt (m.rd WHL_FLAGS n) c = true) (hc : c < WHL_FLAGS.w) :
    bitAt ((m.whlFail n).rd WHL_FLAGS n) c = true := by
  rw [Chip.whlFail_shown _ _ rfl]
  split
  · exact Chip.whlFlag_stands ((congrArg (bitAt · c) (Chip.whlTo_rd_ne _ _ _ _ _ (by decide) (by decide))).trans h) hc
  · exact h

/-- The TB of a condition of FAULT is noted, or not. -/
def Chip.whlNoted (m : Chip) (n : Nat) (c : Bool) : Chip := if c then m.setWheel n { m.wheel n with condTb := some m.tb } else m

theorem Chip.whlNoted_rd (m : Chip) (n : Nat) (c : Bool) (f : Field) (i : Nat) : (m.whlNoted n c).rd f i = m.rd f i := by
  unfold Chip.whlNoted
  split <;> rfl

theorem Chip.whlNoted_rows (m : Chip) (n : Nat) (c : Bool) : ((m.whlNoted n c).wheel n).stands = (m.wheel n).stands ∧
    ((m.whlNoted n c).wheel n).present = (m.wheel n).present ∧ ((m.whlNoted n c).wheel n).revSlope = (m.wheel n).revSlope := by
  unfold Chip.whlNoted
  split
  · simp only [Chip.setWheel_same, and_self]
  · exact ⟨rfl, rfl, rfl⟩

theorem Chip.whlBad_congr {x y : Chip} {n : Nat} (regs : ∀ f i, y.rd f i = x.rd f i) (single : quadMode (x.whlMode n) = false)
    (slope : (y.wheel n).revSlope = (x.wheel n).revSlope) : y.whlBad n = x.whlBad n := by
  have mode : y.whlMode n = x.whlMode n := by simp only [Chip.whlMode, regs]
  have auto : y.whlAutoPol n = x.whlAutoPol n := by simp only [Chip.whlAutoPol, Chip.whlFe, Chip.rdB, regs]
  simp only [Chip.whlBad, Chip.whlFaultCond, regs, mode, single, auto, slope, Bool.false_and]

theorem Chip.whlCondFault_single {m : Chip} {n : Nat} (home : m.whlHome n = n) (single : quadMode (m.whlMode n) = false) (was : Bool) :
    m.whlCondFault n was =
      if m.whlBad n then (m.whlNoted n (was || m.whlBad n)).whlFail n else m.whlNoted n (was || m.whlBad n) := by
  have bad : (m.whlNoted n (was || m.whlBad n)).whlBad n = m.whlBad n :=
    Chip.whlBad_congr (Chip.whlNoted_rd _ _ _) single (m.whlNoted_rows n _).2.2
  unfold Chip.whlCondFault
  simp only [home]
  change (if (m.whlNoted n (was || m.whlBad n)).whlBad n = true then _ else _) = _
  rw [bad]
  rfl

/-! ## The evaluation (R50) -/

theorem exec_whlDiagEvaluation (n : Whl) (p : WhlPins) (s : State) :
    exec (.whlDiagEvaluation n p) s = .next { s with chip := s.chip.whlDiag n.val p } := rfl

/-- What an evaluation measures. -/
def Chip.whlMeasured (m : Chip) (n : Nat) (p : WhlPins) : Chip :=
  ((m.stamp .whlDiag n).wrSat WHL_DIAG_PIN_MV n p.pinMv).wr WHL_DIAG_PIN_CUR n
    (if (m.stamp .whlDiag n).whlFe n = 2 then min 65535 p.cur10uA.toNat else 0)

theorem Chip.whlMeasured_rd_ne (m : Chip) (n : Nat) (p : WhlPins) (f : Field) (i : Nat) (hv : f.id ≠ WHL_DIAG_PIN_MV.id)
    (hc : f.id ≠ WHL_DIAG_PIN_CUR.id) : (m.whlMeasured n p).rd f i = m.rd f i :=
  (Chip.rd_wr_ne _ _ _ _ _ _ hc).trans (Chip.rd_wr_ne _ _ _ _ _ _ hv)

@[simp] theorem Chip.whlMeasured_wheel (m : Chip) (n k : Nat) (p : WhlPins) : (m.whlMeasured n p).wheel k = m.wheel k := rfl

theorem Chip.wrSat_rd_same (m : Chip) (f : Field) (i : Nat) (v : Int) :
    (m.wrSat f i v).rd f i = ofSigned f.w (clampI (-(2 ^ (f.w - 1) : Nat)) ((2 ^ (f.w - 1) : Nat) - 1) v) :=
  (Chip.rd_wr_same _ _ _ _).trans (Nat.mod_eq_of_lt (ofSigned_lt _ _))

theorem Chip.whlMeasured_mv (m : Chip) (n : Nat) (p : WhlPins) :
    (m.whlMeasured n p).rd WHL_DIAG_PIN_MV n = ofSigned 16 (clampI (-32768) 32767 p.pinMv) :=
  (Chip.rd_wr_ne _ _ _ _ _ _ (by decide)).trans (Chip.wrSat_rd_same _ _ _ _)

theorem Chip.whlFe_congr {x y : Chip} {n : Nat} (h : y.rd WHL_FE_FE n = x.rd WHL_FE_FE n) : y.whlFe n = x.whlFe n := by
  unfold Chip.whlFe
  rw [h]

theorem Chip.whlMeasured_cur (m : Chip) (n : Nat) (p : WhlPins) :
    (m.whlMeasured n p).rd WHL_DIAG_PIN_CUR n = if m.whlFe n = 2 then min 65535 p.cur10uA.toNat else 0 := by
  have fe : (m.stamp .whlDiag n).whlFe n = m.whlFe n := rfl
  unfold Chip.whlMeasured
  rw [fe, Chip.rd_wr_same]
  refine Nat.mod_eq_of_lt ?_
  split
  · exact Nat.lt_of_le_of_lt (Nat.min_le_left _ _) (by decide)
  · decide

/-- The tests go by what the evaluation does not measure into a register. -/
theorem Chip.whlMeasured_tests (m : Chip) (n : Nat) (p : WhlPins) : (m.whlMeasured n p).whlTests n p = m.whlTests n p := by
  have kept (f : Field) (i : Nat) (hv : f.id ≠ WHL_DIAG_PIN_MV.id) (hc : f.id ≠ WHL_DIAG_PIN_CUR.id) := m.whlMeasured_rd_ne n p f i hv hc
  have fe : (m.whlMeasured n p).whlFe n = m.whlFe n := Chip.whlFe_congr (kept _ _ (by decide) (by decide))
  have sup : (m.whlMeasured n p).whlSupFault n = m.whlSupFault n := by
    have state : (m.whlMeasured n p).whlState n = m.whlState n := kept WHL_STAT_STATE _ (by decide) (by decide)
    simp only [Chip.whlSupFault, state, Chip.rdB, Chip.whlMeasured_wheel,
      kept WHL_SRC_SUP_EN _ (by decide) (by decide), kept SUP_STAT_FLT _ (by decide) (by decide), kept WHL_SRC_SUP _ (by decide) (by decide)]
  simp only [Chip.whlTests, fe, sup, Chip.whlMeasured_wheel]
  rw [kept WHL_FE_PULL _ (by decide) (by decide)]

/-- The line that shows after an evaluation, with line B of a pair. -/
def Chip.whlShown (m : Chip) (n : Nat) : Chip :=
  let h := m.whlHome n
  let m := (m.whlLine n).whlLine h
  if quadMode (m.whlMode h) then m.whlLine (h + 1) else m

theorem Chip.whlDiag_due {m : Chip} {n : Nat} (p : WhlPins) (due : m.due .whlDiag n = true) (clock : m.clockOk islObserver = true) :
    m.whlDiag n p =
      if (m.whlMeasured n p).rdB WHL_FE_DIAG_EN n then
        ((((m.whlMeasured n p).whlConds n ((m.whlMeasured n p).whlTests n p)).whlHold n).whlShown n).whlCondFault n
          ((m.whlMeasured n p).whlBad ((m.whlMeasured n p).whlHome n))
      else m.whlMeasured n p := by
  unfold Chip.whlDiag
  rw [if_pos ⟨due, clock⟩]
  rfl

theorem Chip.whlMeasured_en (m : Chip) (n : Nat) (p : WhlPins) : (m.whlMeasured n p).rdB WHL_FE_DIAG_EN n = m.rdB WHL_FE_DIAG_EN n :=
  congrArg (· != 0) (m.whlMeasured_rd_ne _ _ _ _ (by decide) (by decide))

theorem Chip.whlDiag_off {m : Chip} {n : Nat} {p : WhlPins} (due : m.due .whlDiag n = true) (clock : m.clockOk islObserver = true)
    (off : m.rd WHL_FE_DIAG_EN n = 0) : m.whlDiag n p = m.whlMeasured n p := by
  rw [Chip.whlDiag_due p due clock, Chip.whlMeasured_en, if_neg (by simp [Chip.rdB, off])]

/-- The conditions of a single line after an evaluation, its pulse given up and its line shown. -/
def Chip.whlJudged (m : Chip) (n : Nat) (p : WhlPins) : Chip :=
  ((((m.whlMeasured n p).whlConds n (m.whlTests n p)).whlHold n).whlLine n).whlLine n

theorem Chip.whlHold_rd (m : Chip) (n : Nat) (f : Field) (i : Nat) : (m.whlHold n).rd f i = m.rd f i := by
  unfold Chip.whlHold
  dsimp only
  split <;> rfl

theorem Chip.whlHold_rows {m : Chip} {n : Nat} (home : m.whlHome n = n) : ((m.whlHold n).wheel n).stands = (m.wheel n).stands ∧
    ((m.whlHold n).wheel n).present = (m.wheel n).present ∧ ((m.whlHold n).wheel n).revSlope = (m.wheel n).revSlope := by
  unfold Chip.whlHold
  simp only [home]
  split
  · simp only [Chip.setWheel_same, and_self]
  · exact ⟨rfl, rfl, rfl⟩

theorem Chip.whlLine_rd (m : Chip) (n : Nat) (f : Field) (i : Nat) (h : f.id ≠ WHL_STAT_LINE.id) : (m.whlLine n).rd f i = m.rd f i :=
  Chip.rd_wr_ne _ _ _ _ _ _ h

theorem Chip.whlConds_rd (m : Chip) (n : Nat) (ts : List Bool) (f : Field) (i : Nat) (hp : f.part ≠ .rInt) (hf : f.id ≠ WHL_FLAGS.id)
    (hc : f.id ≠ WHL_STAT_COND.id) : (m.whlConds n ts).rd f i = m.rd f i := by
  rw [Chip.whlConds_eq, Chip.rd_wr_ne _ _ _ _ _ _ hc, Chip.whlRows_rd _ _ _ _ _ _ hp hf]

theorem Chip.whlConds_flags (m : Chip) (n : Nat) (ts : List Bool) (i : Nat) :
    (m.whlConds n ts).rd WHL_FLAGS i = (m.whlRows n ts (List.range 8)).rd WHL_FLAGS i := Chip.rd_wr_ne _ _ _ _ _ _ (by decide)

theorem Chip.whlConds_cond (m : Chip) (n : Nat) (ts : List Bool) :
    (m.whlConds n ts).rd WHL_STAT_COND n = condWord ((m.whlRows n ts (List.range 8)).wheel n).stands % 2 ^ 5 := Chip.rd_wr_same _ _ _ _

@[simp] theorem Chip.whlLine_wheel (m : Chip) (n k : Nat) : (m.whlLine n).wheel k = m.wheel k := rfl

theorem Chip.whlConds_wheel (m : Chip) (n k : Nat) (ts : List Bool) :
    (m.whlConds n ts).wheel k = (m.whlRows n ts (List.range 8)).wheel k := by rw [Chip.whlConds_eq, Chip.wr_wheel]

section
variable (m : Chip) (n : Nat) (p : WhlPins)

theorem Chip.whlJudged_rd (f : Field) (i : Nat) (h : f.id ≠ WHL_STAT_LINE.id) :
    (m.whlJudged n p).rd f i = ((m.whlMeasured n p).whlConds n (m.whlTests n p)).rd f i := by
  rw [Chip.whlJudged, Chip.whlLine_rd _ _ _ _ h, Chip.whlLine_rd _ _ _ _ h, Chip.whlHold_rd]

/-- The registers that neither a measurement nor a condition writes. -/
theorem Chip.whlJudged_rd_ne (f : Field) (i : Nat) (hp : f.part ≠ .rInt)
    (h : ([WHL_STAT_LINE, WHL_FLAGS, WHL_STAT_COND, WHL_DIAG_PIN_MV, WHL_DIAG_PIN_CUR].all fun g => f.id != g.id) = true) :
    (m.whlJudged n p).rd f i = m.rd f i := by
  simp only [List.all_cons, List.all_nil, Bool.and_true, Bool.and_eq_true, bne_iff_ne] at h
  obtain ⟨line, flags, cond, mv, cur⟩ := h
  rw [m.whlJudged_rd n p f i line, Chip.whlConds_rd _ _ _ _ _ hp flags cond, m.whlMeasured_rd_ne n p f i mv cur]

variable {m n}

theorem Chip.whlJudged_home (home : m.whlHome n = n) : ((m.whlMeasured n p).whlConds n (m.whlTests n p)).whlHome n = n := by
  refine (Chip.whlHome_congr fun _ => ?_).trans home
  rw [Chip.whlConds_rd _ _ _ _ _ (by decide) (by decide) (by decide), m.whlMeasured_rd_ne n p _ _ (by decide) (by decide)]

theorem Chip.whlJudged_rows (home : m.whlHome n = n) :
    ((m.whlJudged n p).wheel n).stands = (((m.whlMeasured n p).whlRows n (m.whlTests n p) (List.range 8)).wheel n).stands ∧
      ((m.whlJudged n p).wheel n).present = (((m.whlMeasured n p).whlRows n (m.whlTests n p) (List.range 8)).wheel n).present ∧
      ((m.whlJudged n p).wheel n).revSlope = (((m.whlMeasured n p).whlRows n (m.whlTests n p) (List.range 8)).wheel n).revSlope := by
  have held := Chip.whlHold_rows (Chip.whlJudged_home p home)
  rw [Chip.whlConds_wheel] at held
  rw [Chip.whlJudged, Chip.whlLine_wheel, Chip.whlLine_wheel]
  exact held

theorem Chip.whlDiag_on (due : m.due .whlDiag n = true) (clock : m.clockOk islObserver = true) (on : m.rd WHL_FE_DIAG_EN n = 1)
    (home : m.whlHome n = n) (single : quadMode (m.whlMode n) = false) :
    ∃ was, m.whlDiag n p = (m.whlJudged n p).whlCondFault n was := by
  have held : (((m.whlMeasured n p).whlConds n (m.whlTests n p)).whlHold n).whlHome n = n :=
    (Chip.whlHome_congr fun _ => Chip.whlHold_rd _ _ _ _).trans (Chip.whlJudged_home p home)
  have mode : (m.whlJudged n p).whlMode n = m.whlMode n := by
    simp only [Chip.whlMode, m.whlJudged_rd_ne n p WHL_CFG_MODE n (by decide) (by decide)]
  have shown : ((((m.whlMeasured n p).whlConds n (m.whlTests n p)).whlHold n).whlShown n) = m.whlJudged n p := by
    unfold Chip.whlShown
    simp only [held]
    rw [← Chip.whlJudged, mode, if_neg (by simp [single])]
  refine ⟨(m.whlMeasured n p).whlBad ((m.whlMeasured n p).whlHome n), ?_⟩
  rw [Chip.whlDiag_due p due clock, Chip.whlMeasured_en, if_pos (by simp [Chip.rdB, on]), Chip.whlMeasured_tests, shown]

end

end Sys2Proof.Machine
end

section
/-! PROOFS. Edges, direction pulses, interpolation and wiring tests of a wheel input (R48-R66): the clauses put together. -/

namespace Sys2Proof.Machine

/-! ## What a condition of FAULT leaves (R52) -/

section
variable {m : Chip} {n : Nat} (home : m.whlHome n = n) (single : quadMode (m.whlMode n) = false) (was : Bool)
include home single

theorem Chip.whlCondFault_rd {f : Field} (hp : f.part = .rWhl) (hs : f.id ≠ WHL_STAT_STATE.id) (hv : f.id ≠ WHL_STAT_ANGLE_VALID.id)
    (hf : f.id ≠ WHL_FLAGS.id) (i : Nat) : (m.whlCondFault n was).rd f i = m.rd f i := by
  rw [Chip.whlCondFault_single home single]
  split
  · rw [Chip.whlFail_rd _ _ hp hs hv hf, Chip.whlNoted_rd]
  · rw [Chip.whlNoted_rd]

theorem Chip.whlCondFault_stands {c : Nat} (h : bitAt (m.rd WHL_FLAGS n) c = true) (hc : c < WHL_FLAGS.w) :
    bitAt ((m.whlCondFault n was).rd WHL_FLAGS n) c = true := by
  rw [Chip.whlCondFault_single home single]
  split
  · exact Chip.whlFail_stands (by rwa [Chip.whlNoted_rd]) hc
  · rwa [Chip.whlNoted_rd]

theorem Chip.whlCondFault_rows : ((m.whlCondFault n was).wheel n).stands = (m.wheel n).stands ∧
    ((m.whlCondFault n was).wheel n).present = (m.wheel n).present := by
  obtain ⟨stands, present, -⟩ := m.whlNoted_rows n (was || m.whlBad n)
  rw [Chip.whlCondFault_single home single]
  split
  · rw [Chip.whlFail_wheel]
    exact ⟨stands, present⟩
  · exact ⟨stands, present⟩

theorem Chip.whlCondFault_fault (bad : m.whlBad n = true) (on : m.whlForwards n = true) :
    (m.whlCondFault n was).rd WHL_STAT_STATE n = 1 := by
  rw [Chip.whlCondFault_single home single, if_pos bad]
  refine Chip.whlFail_state ?_
  unfold Chip.whlForwards Chip.whlState at on ⊢
  rwa [Chip.whlNoted_rd]

theorem Chip.whlCondFault_none (calm : m.whlBad n = false) (f : Field) (i : Nat) : (m.whlCondFault n was).rd f i = m.rd f i := by
  rw [Chip.whlCondFault_single home single, if_neg (by simp [calm]), Chip.whlNoted_rd]

end

/-! ## An evaluation at which no row is present (R50) -/

section
variable {w : Wheel}

/-- An absent row that did not stand: it still does not. -/
theorem Wheel.row_absent (i : Nat) (stands : w.stands = List.replicate 8 false) :
    (w.row (List.replicate 8 false) i).stands = List.replicate 8 false ∧
      (w.row (List.replicate 8 false) i).present = w.present.set i 0 := by
  have absent : (List.replicate 8 false).getD i false = false := by
    rw [List.getD_eq_getElem?_getD, List.getElem?_replicate]
    split <;> rfl
  simp only [Wheel.row, stands, absent, condStep]
  exact ⟨List.set_replicate_self, rfl⟩

theorem Wheel.rows_absent (l : List Nat) (stands : w.stands = List.replicate 8 false) :
    (l.foldl (fun w i => w.row (List.replicate 8 false) i) w).stands = List.replicate 8 false ∧
      (l.foldl (fun w i => w.row (List.replicate 8 false) i) w).present = l.foldl (fun p i => p.set i 0) w.present := by
  induction l generalizing w with
  | nil => exact ⟨stands, rfl⟩
  | cons i r ih =>
    obtain ⟨stands', present'⟩ := Wheel.row_absent i stands
    obtain ⟨rest, counts⟩ := ih stands'
    exact ⟨rest, counts.trans (congrArg (fun p => r.foldl (fun (p : List Nat) i => p.set i 0) p) present')⟩

theorem Wheel.rows_revSlope (ts : List Bool) (l : List Nat) : (l.foldl (fun w i => w.row ts i) w).revSlope = w.revSlope := by
  induction l generalizing w with
  | nil => rfl
  | cons i r ih => exact ih

/-- Every count of a table of eight rows is set. -/
theorem foldl_set_rows {l : List Nat} (h : l.length = 8) : (List.range 8).foldl (fun p i => p.set i 0) l = List.replicate 8 0 := by
  match l, h with
  | [_, _, _, _, _, _, _, _], _ => rfl

end

/-! ## The pull test (R50) -/

theorem exec_whlPullTest (n : Whl) (up down : Bool) (s : State) :
    exec (.whlPullTest n up down) s = .next { s with chip := s.chip.whlPull n.val up down } := rfl

theorem Chip.whlPull_due {m : Chip} {n : Nat} (up down : Bool) (due : m.due .whlPull n = true) (fe : m.rd WHL_FE_FE n = 1)
    (pull : m.rd WHL_FE_PULL n = 3) (free : m.whlHeldLine n = false) :
    m.whlPull n up down = (m.stamp .whlPull n).setWheel n { m.wheel n with pullOpen := up && down } := by
  have digital : m.whlFe n = 1 := by simp [Chip.whlFe, fe]
  simp [Chip.whlPull, due, digital, pull, free]

/-! ## Interpolation (R65, R66) -/

theorem exec_whlInterpolationTick (n : Whl) (s : State) :
    exec (.whlInterpolationTick n) s = .next { s with chip := s.chip.whlInterp n.val } := rfl

/-- The interpolation term that a tick gives, without its sign. -/
def Chip.whlTerm (m : Chip) (n : Nat) : Int :=
  minI (m.whlRoom n) (4294967296 * ((m.tbOf islObserver : Int) - (m.wheel n).edgeTb) / (max 1 (m.rd WHL_IVL n) * m.whlTc n : Nat))

/-- A wheel with a term. -/
def Chip.whlTermed (m : Chip) (n : Nat) (k : Int) : Chip := (m.stamp .whlInterp n).setWheel n { m.wheel n with interp := k }

theorem Chip.whlTermed_frac (m : Chip) (n : Nat) (k v : Int) : (m.whlTermed n k).whlFrac n v = m.whlFrac n v := by
  have frame : ((m.whlTermed n k).wheel n).refCnt = (m.wheel n).refCnt := by
    rw [Chip.whlTermed, Chip.setWheel_same]
  unfold Chip.whlFrac Chip.whlInTurn
  rw [frame]
  rfl

theorem Chip.whlInterp_due {m : Chip} {n : Nat} (due : m.due .whlInterp n = true) (on : m.rd WHL_STAT_STATE n ≠ 0) (teeth : m.whlTc n ≠ 0)
    (moves : m.rd WHL_STAT_STOP n = 0) (regular : (m.wheel n).lastStart = false) (noIdx : (m.wheel n).idxPend = none)
    (noDir : (m.wheel n).dirPend = none) :
    m.whlInterp n = (m.whlTermed n (if m.rdB WHL_STAT_DIR n then -m.whlTerm n else m.whlTerm n)).whlAngle n (m.whlTurnBase n) := by
  have settled : (m.whlDirSettle n 0).whlIdxSettle n 0 = m := by
    simp [Chip.whlDirSettle, noDir, Chip.whlIdxSettle_none noIdx]
  unfold Chip.whlInterp
  rw [settled]
  exact if_pos ⟨due, on, teeth, by simp [Chip.rdB, moves], by simp [regular]⟩

theorem Chip.whlAngle_angle (m : Chip) (n : Nat) (base : Int) :
    (m.whlAngle n base).rd WHL_ANGLE n = ofSigned 32 (m.whlFrac n (m.wheel n).interp) :=
  (Chip.rd_wr_ne _ _ _ _ _ _ (by decide)).trans ((Chip.rd_wr_same _ _ _ _).trans (Nat.mod_eq_of_lt (ofSigned_lt _ _)))

theorem SameRegs.whlAngle {l : List (Field × Nat)} {p : List Part} {x y : Chip} {n : Nat} {base : Int} (h : SameRegs l p x y)
    (ha : (WHL_ANGLE, n) ∈ l) (ht : (WHL_TURN, n) ∈ l) : SameRegs l p x (y.whlAngle n base) := (h.wr (.inr ha)).wr (.inr ht)

/-! ## Bits of COND -/

theorem bitAt_mod {a b w : Nat} (h : bitAt a b = true) (hb : b < w) : bitAt (a % 2 ^ w) b = true := by
  unfold bitAt at *
  simp [Nat.testBit_mod_two_pow, h, hb]

theorem condBits_cond : ∀ i : Fin 8, condBits.getD i.val 0 < 5 := by decide

theorem condBits_other : ∀ i : Fin 8, i.val ≠ 6 → condBits.getD i.val 0 ≠ 3 := by decide

/-- A single line is judged as one. -/
theorem Chip.whlJudged_single (m : Chip) {n : Nat} (p : WhlPins) (home : m.whlHome n = n) (single : quadMode (m.whlMode n) = false) :
    (m.whlJudged n p).whlHome n = n ∧ quadMode ((m.whlJudged n p).whlMode n) = false := by
  refine ⟨(Chip.whlHome_congr fun _ => m.whlJudged_rd_ne _ _ _ _ (by decide) (by decide)).trans home, ?_⟩
  unfold Chip.whlMode at single ⊢
  rwa [m.whlJudged_rd_ne _ _ _ _ (by decide) (by decide)]

/-- Settles O11: an edge and a pulse count through the rules of a qualified edge; an evaluation through its rows, each looked at once. -/
theorem wheelEdgesAndTests : Obligations.WheelEdgesAndTests := by
  unfold Obligations.WheelEdgesAndTests
  refine ⟨?_, ?_, ?_, ?_, ?_, ?_, ?_⟩
  · intro n x held steep both s clock home mode ref src fe free reads differs stable first noIdx noDir
    exact ⟨_, exec_wheelEdge n x held steep both s,
      (Chip.FreeLine.mk home mode fe free).edge_shows steep both clock ref src reads differs stable first noIdx noDir⟩
  · intro n t0 s lead src long first ref
    refine ⟨_, exec_whlDirPulseTimeout n s, ?_⟩
    dsimp only
    rw [Chip.whlPulseLong_reverse lead src long]
    obtain ⟨dir, -, cnt, -⟩ := Chip.whlCandidate_shows (m := s.chip.setWheel n.val { s.chip.wheel n.val with leadTb := none }) (n := n.val)
      ref ((congrArg Wheel.lastTb (Chip.setWheel_same _ _ _)).trans first) t0 true
    exact ⟨dir, cnt⟩
  · intro n up down s due fe pull free
    refine ⟨_, exec_whlPullTest n up down s, ?_⟩
    dsimp only
    rw [Chip.whlPull_due up down due fe pull free]
    exact ⟨Chip.setWheel_same _ _ _, (SameRegs.rfl _ _ s.chip).regs rfl⟩
  · intro n p s due clock off
    refine ⟨_, exec_whlDiagEvaluation n p s, ?_⟩
    dsimp only
    rw [Chip.whlDiag_off due clock off]
    exact ⟨Chip.whlMeasured_mv _ _ _, Chip.whlMeasured_cur _ _ _,
      (((SameRegs.rfl _ _ s.chip).regs rfl).wr (.inr (by simp))).wr (.inr (by simp))⟩
  · intro n p i s due clock on home single _ length now before
    obtain ⟨was, judged⟩ := Chip.whlDiag_on p due clock on home single
    obtain ⟨home', single'⟩ := s.chip.whlJudged_single p home single
    obtain ⟨second, flagged⟩ := Chip.whlRows_second (m := s.chip.whlMeasured n.val p) i length now before
    obtain ⟨stands, -, -⟩ := Chip.whlJudged_rows p home
    have cond : bitAt ((s.chip.whlJudged n.val p).rd WHL_STAT_COND n.val) (condBits.getD i.val 0) = true := by
      rw [Chip.whlJudged_rd _ _ _ _ _ (by decide), Chip.whlConds_cond]
      exact bitAt_mod (condWord_bit i second) (condBits_cond i)
    refine ⟨_, exec_whlDiagEvaluation n p s, ?_⟩
    dsimp only
    rw [judged]
    refine ⟨?_, ?_, ?_, ?_, ?_⟩
    · rw [Chip.whlCondFault_rd home' single' _ rfl (by decide) (by decide) (by decide)]
      exact cond
    · rw [(Chip.whlCondFault_rows home' single' was).1, stands]
      exact second
    · intro fresh
      refine Chip.whlCondFault_stands home' single' was ?_ (condBits_flag i)
      rw [Chip.whlJudged_rd _ _ _ _ _ (by decide), Chip.whlConds_flags]
      exact flagged fresh
    · rintro ⟨other, forwards⟩
      refine Chip.whlCondFault_fault home' single' was (Chip.whlBad_of_cond cond (condBits_other i other)) ?_
      unfold Chip.whlForwards Chip.whlState at forwards ⊢
      rwa [Chip.whlJudged_rd_ne _ _ _ _ _ (by decide) (by decide)]
    · rw [Chip.whlCondFault_rd home' single' _ rfl (by decide) (by decide) (by decide), Chip.whlJudged_rd _ _ _ _ _ (by decide),
        Chip.whlConds_rd _ _ _ _ _ (by decide) (by decide) (by decide), Chip.whlMeasured_mv]
  · intro n p s due clock on home single stands length absent slope
    obtain ⟨was, judged⟩ := Chip.whlDiag_on p due clock on home single
    obtain ⟨home', single'⟩ := s.chip.whlJudged_single p home single
    obtain ⟨stands', present', slope'⟩ := Chip.whlJudged_rows p home
    rw [absent, Chip.whlRows_wheel] at stands' present' slope'
    obtain ⟨none_, counts⟩ := Wheel.rows_absent (w := s.chip.wheel n.val) (List.range 8) stands
    have cond : (s.chip.whlJudged n.val p).rd WHL_STAT_COND n.val = 0 := by
      rw [Chip.whlJudged_rd _ _ _ _ _ (by decide), Chip.whlConds_cond, absent, Chip.whlRows_wheel, Chip.whlMeasured_wheel, none_]
      decide
    have calm : (s.chip.whlJudged n.val p).whlBad n.val = false :=
      Chip.whlBad_calm single' cond (slope'.trans ((Wheel.rows_revSlope _ _).trans slope))
    refine ⟨_, exec_whlDiagEvaluation n p s, ?_⟩
    dsimp only
    rw [judged]
    refine ⟨?_, ?_, ?_⟩
    · rw [Chip.whlCondFault_none home' single' _ calm, cond]
    · rw [(Chip.whlCondFault_rows home' single' was).2, present']
      exact counts.trans (foldl_set_rows length)
    · rw [Chip.whlCondFault_none home' single' _ calm, Chip.whlJudged_rd_ne _ _ _ _ _ (by decide) (by decide)]
  · intro n term s due on teeth moves regular noIdx noDir held
    have term_ : term = s.chip.whlTerm n.val := held
    have value : (if s.chip.rdB WHL_STAT_DIR n.val then -s.chip.whlTerm n.val else s.chip.whlTerm n.val) =
        if s.chip.rd WHL_STAT_DIR n.val = 0 then term else -term := by
      rw [term_]
      simp [Chip.rdB, ite_not]
    refine ⟨_, exec_whlInterpolationTick n s, ?_⟩
    dsimp only
    rw [Chip.whlInterp_due due on teeth moves regular noIdx noDir, value, Chip.whlAngle_wheel, Chip.whlAngle_angle, Chip.whlTermed_frac]
    refine ⟨congrArg Wheel.interp (Chip.setWheel_same _ _ _), rfl, SameRegs.whlAngle ?_ (by simp) (by simp)⟩
    exact (SameRegs.rfl _ _ s.chip).regs rfl

end Sys2Proof.Machine
end

section
/-! PROOFS. Slots of Mandrel: a start measurement, a lost source, the slip ratio, enable and disable (R83-R94). -/

namespace Sys2Proof.Machine

/-! ## Rules of the operations of Mandrel -/

@[simp] theorem Chip.setSlot_same (m : Chip) (k : Nat) (x : Slot) : (m.setSlot k x).slot k = x := tabGet_put_same _ _ _ _

theorem Chip.setSlot_ne (m : Chip) {k j : Nat} (h : j ≠ k) (x : Slot) : (m.setSlot k x).slot j = m.slot j := tabGet_put_ne _ _ _ _ _ h

@[simp] theorem Chip.wr_slot (m : Chip) (f : Field) (i v k : Nat) : (m.wr f i v).slot k = m.slot k := rfl

/-! ### Flags -/

@[simp] theorem Chip.mdlFlag_mdl (m : Chip) (b : Nat) : (m.mdlFlag b).mdl = m.mdl :=
  (Chip.mdlFlag_moves .refl (within_refl _)).kept.mdl (by decide)

theorem Chip.mdlFlag_rd_ne (m : Chip) (b : Nat) (f : Field) (i : Nat) (hp : f.part ≠ .rInt) (hf : f.id ≠ MDL_FLAGS.id) :
    (m.mdlFlag b).rd f i = m.rd f i := Chip.raise_rd_ne _ _ _ _ _ _ _ _ hp hf

theorem Chip.mdlFlag_bit (m : Chip) (b : Nat) (h : b < MDL_FLAGS.w) : bitAt ((m.mdlFlag b).rd MDL_FLAGS) b = true :=
  Chip.raise_bit _ _ _ _ _ _ (by decide) h

theorem Chip.mdlFlag_stands {m : Chip} {b c : Nat} (h : bitAt (m.rd MDL_FLAGS) c = true) (hc : c < MDL_FLAGS.w) :
    bitAt ((m.mdlFlag b).rd MDL_FLAGS) c = true := by
  unfold Chip.mdlFlag
  rw [Chip.raise_rd_same _ _ _ _ _ _ (by decide)]
  exact bitAt_setBit_of h hc

theorem SameRegs.mdlFlag {l : List (Field × Nat)} {p : List Part} {x y : Chip} {b : Nat} (h : SameRegs l p x y) (hi : Part.rInt ∈ p)
    (hm : (MDL_FLAGS, 0) ∈ l) : SameRegs l p x (y.mdlFlag b) := h.raise hi (.inr hm)

/-! ### States of a slot -/

section
variable (m : Chip) {k : Nat} (slot : k ≠ poseSlot)
include slot

theorem Chip.slotState_slot : m.slotState k = m.rd MDL_SRC_STAT_STATE k := if_neg slot

theorem Chip.setSlotState_slot (st : Nat) : m.setSlotState k st = m.wr MDL_SRC_STAT_STATE k st := if_neg slot

theorem Chip.srcFlag_slot (b : Nat) : m.srcFlag k b = (m.setFlag MDL_SRC_FLAGS k b).mdlFlag MDL_FLAGS_SRC_EVT := if_neg slot

end

theorem Chip.setSlotState_rd_ne (m : Chip) (k st : Nat) (f : Field) (i : Nat) (hs : f.id ≠ MDL_SRC_STAT_STATE.id)
    (hl : f.id ≠ MDL_POSE_STAT_LOOP.id) : (m.setSlotState k st).rd f i = m.rd f i := by
  unfold Chip.setSlotState
  split
  · exact Chip.rd_wr_ne _ _ _ _ _ _ hl
  · exact Chip.rd_wr_ne _ _ _ _ _ _ hs

theorem Chip.srcFlag_rd_ne (m : Chip) (k b : Nat) (f : Field) (i : Nat) (hp : f.part ≠ .rInt) (hs : f.id ≠ MDL_SRC_FLAGS.id)
    (hf : f.id ≠ MDL_FLAGS.id) : (m.srcFlag k b).rd f i = m.rd f i := by
  unfold Chip.srcFlag
  split
  · rfl
  · exact (Chip.mdlFlag_rd_ne _ _ _ _ hp hf).trans (Chip.setFlag_rd_ne _ _ _ _ _ _ hs)

theorem Chip.foldl_rd {α : Type} {g : Chip → α → Chip} {f : Field} {i : Nat} (hg : ∀ y a, (g y a).rd f i = y.rd f i) (l : List α) (m : Chip) :
    (l.foldl g m).rd f i = m.rd f i := by
  induction l generalizing m with
  | nil => rfl
  | cons a r ih => exact (ih _).trans (hg m a)

/-! ## A start measurement (R83, R90) -/

theorem exec_slotMeasurement (k : Ds) (s : State) : exec (.slotMeasurement k) s = .next { s with chip := s.chip.slotNext k.val } := rfl

theorem Ds.slot (k : Ds) : k.val ≠ poseSlot := Nat.ne_of_lt k.isLt

/-- The counts of the chassis in STILL leave the slots. -/
theorem Chip.stillCount_slot (m : Chip) (k : Nat) (d : Int) (j : Nat) : (m.stillCount k d).slot j = m.slot j := by
  unfold Chip.stillCount
  dsimp only
  split <;> rfl

theorem Chip.stillCount_regs (m : Chip) (k : Nat) (d : Int) : (m.stillCount k d).regs = m.regs := by
  unfold Chip.stillCount
  dsimp only
  split <;> rfl

/-- A slot after a measurement that starts it at a change of position. -/
def Slot.started (x : Slot) (c : Int) (te : Nat) : Slot :=
  { x with meas := x.meas + c, s := x.meas + c, v := 0, startPend := false, speedPend := true, lastTb := some te, rejects := 0 }

theorem Chip.slotMeasure_start {m : Chip} {k : Nat} (slot : k ≠ poseSlot) (on : m.rd MDL_SRC_STAT_STATE k ≠ 0)
    (live : m.rd MDL_SRC_STAT_STATE k ≠ 5) (c : Int) (te : Nat) (gate count : Int) :
    m.slotMeasure k c te true gate count = (m.setSlot k ((m.slot k).started c te)).stillCount k c := by
  have enabled : ¬ m.slotState k = slotOff := by rwa [m.slotState_slot slot]
  have sourced : ¬ m.slotState k = slotLost := by rwa [m.slotState_slot slot]
  unfold Chip.slotMeasure
  simp only [if_neg enabled, if_neg sourced, Bool.true_or, if_true]
  rfl

/-- The change of position of a record. -/
def Chip.slotChange (m : Chip) (k : Nat) (r : EdgeRec) : Int := (if m.rdB MDL_SRC_CFG_SIGN k then -r.dcnt else r.dcnt) * m.slotScale k

/-- The inbox is no part of the scale. -/
theorem Chip.slotScale_inbox (m : Chip) (k : Nat) (rs : List EdgeRec) : (m.setSlot k { m.slot k with inbox := rs }).slotScale k = m.slotScale k := by
  unfold Chip.slotScale
  rw [Chip.setSlot_same]
  rfl

theorem Chip.slotNext_start {m : Chip} {k : Nat} {r : EdgeRec} {rs : List EdgeRec} (slot : k ≠ poseSlot) (front : (m.slot k).inbox = r :: rs)
    (moves : r.stop = false) (start : r.start = true) (on : m.rd MDL_SRC_STAT_STATE k ≠ 0) (live : m.rd MDL_SRC_STAT_STATE k ≠ 5) :
    m.slotNext k =
      ((m.setSlot k { m.slot k with inbox := rs }).setSlot k
        (({ m.slot k with inbox := rs } : Slot).started (m.slotChange k r) r.tb)).stillCount k (m.slotChange k r) := by
  have change : (m.setSlot k { m.slot k with inbox := rs }).slotChange k r = m.slotChange k r := by
    unfold Chip.slotChange
    rw [Chip.slotScale_inbox]
    rfl
  unfold Chip.slotNext Chip.slotTake
  simp only [front, moves, start, Bool.false_eq_true, if_false]
  have taken := Chip.slotMeasure_start (m := m.setSlot k { m.slot k with inbox := rs }) slot on live
    ((m.setSlot k { m.slot k with inbox := rs }).slotChange k r) r.tb ((m.setSlot k { m.slot k with inbox := rs }).slotGate k)
    ((m.setSlot k { m.slot k with inbox := rs }).slotScale k)
  rw [change, Chip.setSlot_same] at taken
  rw [← taken, ← change]
  rfl

/-! ## A lost source (R85, R91) -/

theorem exec_slotWordTimeout (k : Ds) (s : State) : exec (.slotWordTimeout k) s = .next { s with chip := s.chip.wordTimeout k.val } := rfl

theorem Chip.slotLose_live {m : Chip} {k : Nat} (slot : k ≠ poseSlot) (on : m.rd MDL_SRC_STAT_STATE k ≠ 0)
    (live : m.rd MDL_SRC_STAT_STATE k ≠ 5) :
    m.slotLose k = ((m.wr MDL_SRC_STAT_STATE k 5).setFlag MDL_SRC_FLAGS k 3).mdlFlag MDL_FLAGS_SRC_EVT := by
  unfold Chip.slotLose
  simp only [m.slotState_slot slot, Chip.setSlotState_slot _ slot, Chip.srcFlag_slot _ slot]
  exact if_neg (not_or.2 ⟨on, live⟩)

theorem Chip.wordTimeout_due {m : Chip} {k : Nat} (en : m.rd MDL_SRC_CFG_EN k ≠ 0) (words : m.rd MDL_SRC_CFG_TYPE k = 1)
    (late : (m.slot k).wordTb + 100 * msTb ≤ m.tb) : m.wordTimeout k = m.slotLose k := if_pos ⟨by simp [Chip.rdB, en], words, late⟩

/-! ## The slip ratio (R92) -/

theorem exec_slipEvaluation (s : State) : exec .slipEvaluation s = .next { s with chip := s.chip.slipEval } := rfl

/-- Two blocks that the fusion of the slots cannot tell apart: the same registers but the ratios, and the same speeds. -/
structure Chip.SameFusion (x y : Chip) : Prop where
  regs : ∀ f : Field, f.id ≠ MDL_SRC_RATIO.id → ∀ i, y.rd f i = x.rd f i
  speed : ∀ k, (y.slot k).v = (x.slot k).v

namespace Chip.SameFusion

theorem rfl' (x : Chip) : x.SameFusion x := ⟨fun _ _ _ => rfl, fun _ => rfl⟩

theorem trans {x y z : Chip} (h : x.SameFusion y) (g : y.SameFusion z) : x.SameFusion z :=
  ⟨fun f hf i => (g.regs f hf i).trans (h.regs f hf i), fun k => (g.speed k).trans (h.speed k)⟩

theorem setSlot {x y : Chip} (h : x.SameFusion y) {k : Nat} {v : Slot} (hv : v.v = (y.slot k).v) : x.SameFusion (y.setSlot k v) where
  regs := h.regs
  speed j := by
    by_cases e : j = k
    · rw [e, Chip.setSlot_same, hv, h.speed]
    · rw [Chip.setSlot_ne _ e, h.speed]

theorem ratio {x y : Chip} (h : x.SameFusion y) (k v : Nat) : x.SameFusion (y.wr MDL_SRC_RATIO k v) where
  regs f hf i := (Chip.rd_wr_ne _ _ _ _ _ _ hf).trans (h.regs f hf i)
  speed := h.speed

variable {x y : Chip} (h : x.SameFusion y)
include h

theorem slotState (k : Nat) : y.slotState k = x.slotState k := by
  simp only [Chip.slotState, h.regs MDL_POSE_STAT_LOOP (by decide), h.regs MDL_SRC_STAT_STATE (by decide)]

theorem chassisSlot (k : Nat) : y.chassisSlot k = x.chassisSlot k := by
  simp only [Chip.chassisSlot, Chip.rdB, h.regs MDL_SRC_CFG_EN (by decide), h.regs MDL_SRC_CFG_NOCH (by decide)]

theorem activeSet : y.activeSet = x.activeSet := by
  have live : ∀ k, y.live k = x.live k := fun k => by simp only [Chip.live, h.slotState]
  have first : y.set1 = x.set1 := by simp only [Chip.set1, live, h.chassisSlot, h.regs MDL_SRC_CFG_WEIGHT (by decide)]
  have second : y.set2 = x.set2 := by
    unfold Chip.set2
    rw [live]
    simp only [live, h.chassisSlot, h.regs MDL_SRC_CFG_WEIGHT (by decide)]
  have third : y.set3 = x.set3 := by simp only [Chip.set3, h.slotState, h.chassisSlot]
  unfold Chip.activeSet
  rw [first, second, third]

theorem slotV : y.slotV = x.slotV := by
  funext k
  unfold Chip.slotV
  rw [h.slotState, h.speed]

theorem vOthers (k : Nat) : y.vOthers k = x.vOthers k := by
  simp only [Chip.vOthers, h.activeSet, Chip.wmean, h.slotV, h.regs MDL_SRC_CFG_WEIGHT (by decide)]

end Chip.SameFusion

/-- The evaluation of one slot changes nothing that the fusion sees. -/
theorem Chip.slipOne_fusion (m : Chip) (k : Nat) : m.SameFusion (m.slipOne k) := by
  unfold Chip.slipOne
  dsimp only
  split
  · split
    · exact ((SameFusion.rfl' m).ratio _ _).setSlot rfl
    · split
      · exact ((SameFusion.rfl' m).ratio _ _).setSlot rfl
      · exact ((SameFusion.rfl' m).ratio _ _).setSlot rfl
  · exact ((SameFusion.rfl' m).ratio _ _).setSlot rfl

theorem Chip.slipOnes_fusion (m : Chip) (l : List Nat) : m.SameFusion (l.foldl Chip.slipOne m) := by
  induction l generalizing m with
  | nil => exact SameFusion.rfl' m
  | cons k r ih => exact (m.slipOne_fusion k).trans (ih _)

/-- The ratio of another slot stands. -/
theorem Chip.slipOne_other (m : Chip) {k j : Nat} (h : j ≠ k) : (m.slipOne k).rd MDL_SRC_RATIO j = m.rd MDL_SRC_RATIO j := by
  unfold Chip.slipOne
  dsimp only
  split
  · split
    · exact Chip.rd_wr_at _ _ _ _ _ _ h
    · split
      · exact Chip.rd_wr_at _ _ _ _ _ _ h
      · exact Chip.rd_wr_at _ _ _ _ _ _ h
  · exact Chip.rd_wr_at _ _ _ _ _ _ h

theorem Chip.slipOnes_other (m : Chip) {l : List Nat} {j : Nat} (h : j ∉ l) :
    (l.foldl Chip.slipOne m).rd MDL_SRC_RATIO j = m.rd MDL_SRC_RATIO j := by
  induction l generalizing m with
  | nil => rfl
  | cons k r ih =>
    obtain ⟨ne, rest⟩ := not_or.1 (mt List.mem_cons.2 h)
    exact (ih _ rest).trans (m.slipOne_other ne)

/-- The ratio of a slot in TRACK, in per mille. -/
theorem Chip.slipOne_ratio {m : Chip} {k : Nat} {r : Int} (slot : k ≠ poseSlot) (member : m.chassisSlot k = true)
    (track : m.rd MDL_SRC_STAT_STATE k = 2) (others : m.vOthers k = some r) (fast : slipFloor ≤ absI r) :
    (m.slipOne k).rd MDL_SRC_RATIO k =
      ofSigned MDL_SRC_RATIO.w (clampI (-(2 ^ (MDL_SRC_RATIO.w - 1) : Nat)) ((2 ^ (MDL_SRC_RATIO.w - 1) : Nat) - 1)
        (((m.slot k).v - r) * 1000 / r)) := by
  unfold Chip.slipOne
  simp only [m.slotState_slot slot, others]
  rw [if_pos ⟨member, .inl track⟩, if_neg (Int.not_lt.2 fast)]
  exact Chip.wrSat_rd_same _ _ _ _

/-! ### What follows the ratios leaves them -/

theorem Chip.srcFlag_ratio (m : Chip) (k b j : Nat) : (m.srcFlag k b).rd MDL_SRC_RATIO j = m.rd MDL_SRC_RATIO j :=
  Chip.srcFlag_rd_ne _ _ _ MDL_SRC_RATIO _ (by decide) (by decide) (by decide)

theorem Chip.setSlotState_ratio (m : Chip) (k st j : Nat) : (m.setSlotState k st).rd MDL_SRC_RATIO j = m.rd MDL_SRC_RATIO j :=
  Chip.setSlotState_rd_ne _ _ _ MDL_SRC_RATIO _ (by decide) (by decide)

theorem Chip.slipEnter_ratio (m : Chip) (j : Nat) : m.slipEnter.rd MDL_SRC_RATIO j = m.rd MDL_SRC_RATIO j := by
  unfold Chip.slipEnter
  dsimp only
  refine (Chip.foldl_rd (fun y k => ?_) _ _).trans ?_
  · rw [Chip.srcFlag_ratio, Chip.setSlot_rd, Chip.setSlotState_ratio]
  · rw [apply_ite (fun y : Chip => y.rd MDL_SRC_RATIO j), Chip.mdlFlag_rd_ne _ _ MDL_SRC_RATIO _ (by decide) (by decide), ite_self]

theorem Chip.slipRejoin_ratio (m : Chip) (k j : Nat) : (m.slipRejoin k).rd MDL_SRC_RATIO j = m.rd MDL_SRC_RATIO j := by
  unfold Chip.slipRejoin
  split
  · rw [Chip.srcFlag_ratio, Chip.setSlot_rd, Chip.setSlotState_ratio]
  · rfl

theorem Chip.learnOne_ratio (m : Chip) (k j : Nat) : (m.learnOne k).rd MDL_SRC_RATIO j = m.rd MDL_SRC_RATIO j := by
  unfold Chip.learnOne
  dsimp only
  split
  · split
    · rfl
    · split
      · exact Chip.rd_wr_ne _ _ MDL_SRC_RATIO _ _ _ (by decide)
      · exact (Chip.srcFlag_ratio _ _ _ _).trans (Chip.rd_wr_ne _ _ MDL_SRC_RATIO _ _ _ (by decide))
  · rfl

/-- The ratios of an evaluation. -/
theorem Chip.slipEval_ratio {m : Chip} (due : m.due .slip = true) (j : Nat) :
    m.slipEval.rd MDL_SRC_RATIO j = ((List.range 8).foldl Chip.slipOne (m.stamp .slip)).rd MDL_SRC_RATIO j := by
  unfold Chip.slipEval
  rw [if_pos due]
  exact (Chip.foldl_rd (fun y k => y.learnOne_ratio k j) _ _).trans ((Chip.foldl_rd (fun y k => y.slipRejoin_ratio k j) _ _).trans
    (Chip.slipEnter_ratio _ _))

/-! ## Enable and disable (R84, R91) -/

theorem exec_mdlSrcEnable {who : Writer} {k : Ds} {w : Word} {s : State} (ok : s.chip.geomOk who = true) :
    exec (.mdlSrcEnable who k w) s = .next { s with chip := s.chip.srcCfgWrite k.val w.toNat } := by
  change execMdlSrcEnable who k w s = _
  simp [execMdlSrcEnable, ok]

/-- MDL_SRC_CFG but EN, as a write of w leaves it. -/
def Chip.srcWritten (m : Chip) (k w : Nat) : Chip := srcCfgFields.foldl (fun m f => m.wrFrom f k w) m

theorem Chip.srcWritten_rd_ne (m : Chip) (k w : Nat) (g : Field) (j : Nat) (h : (srcCfgFields.all fun f => g.id != f.id) = true) :
    (m.srcWritten k w).rd g j = m.rd g j := Chip.foldl_wrFrom_rd_ne _ _ _ _ _ _ h

theorem Chip.srcWritten_type (m : Chip) (k w : Nat) : (m.srcWritten k w).rd MDL_SRC_CFG_TYPE k = wordField MDL_SRC_CFG_TYPE w :=
  Chip.foldl_wrFrom_rd [] (srcCfgFields.drop 1) _ _ _ _ (by decide)

theorem Chip.srcCfgWrite_on {m : Chip} {k w : Nat} (off : m.rd MDL_SRC_CFG_EN k = 0) (en : wordField MDL_SRC_CFG_EN w = 1) :
    m.srcCfgWrite k w =
      if (m.srcWritten k w).srcRefused k w then (m.srcWritten k w).mdlFlag MDL_FLAGS_CFG_ERR else (m.srcWritten k w).srcOn k := by
  unfold Chip.srcCfgWrite
  simp only [en]
  exact (if_neg (by simp [Chip.rdB, off])).trans (if_neg (by decide))

theorem Chip.srcCfgWrite_off {m : Chip} {k w : Nat} (on : m.rd MDL_SRC_CFG_EN k ≠ 0) (en : wordField MDL_SRC_CFG_EN w = 0) :
    m.srcCfgWrite k w = m.srcOff k := by
  unfold Chip.srcCfgWrite
  simp only [en]
  exact (if_pos (by simp [Chip.rdB, on])).trans (if_pos trivial)

theorem Chip.srcRefused_scale {m : Chip} {k w : Nat} (none_ : m.rd MDL_SRC_SCALE k = 0) : m.srcRefused k w = true := by
  simp [Chip.srcRefused, none_]

theorem Chip.srcRefused_word {m : Chip} {k w : Nat} (words : wordField MDL_SRC_CFG_TYPE w = 1) (scale : m.rd MDL_SRC_SCALE k ≠ 0) :
    m.srcRefused k w = false := by
  simp [Chip.srcRefused, words, scale]

/-- A slot that is turned on, before the test of its source: EN, its settings, and ACQ. -/
def Chip.srcStarted (m : Chip) (k : Nat) : Chip :=
  ((((m.setSlot k { wordTb := m.tb }).wr MDL_SRC_CFG_EN k 1).slotAdopt k).learnClear k).slotAcquire k

theorem Chip.srcOn_word {m : Chip} {k : Nat} (words : (m.srcStarted k).rd MDL_SRC_CFG_TYPE k = 1) : m.srcOn k = m.srcStarted k := by
  unfold Chip.srcOn
  refine if_neg ?_
  rw [← Chip.srcStarted]
  simp [Chip.srcDead, words]

section
variable (m : Chip) {k : Nat} (slot : k ≠ poseSlot)
include slot

theorem Chip.slotAcquire_slot :
    m.slotAcquire k =
      (((m.wr MDL_SRC_STAT_STATE k 1).setSlot k
        { m.slot k with s := (m.slot k).meas, sTick := (m.slot k).meas, v := 0, startPend := true, speedPend := false, accepted := 0, rejects := 0
                        jitter := [] }).wr MDL_SRC_JIT k 0).wr MDL_SRC_SIGMA k 0 := by
  unfold Chip.slotAcquire
  simp only [Chip.setSlotState_slot _ slot]
  exact if_neg slot

theorem Chip.srcStarted_shows : (m.srcStarted k).rd MDL_SRC_CFG_EN k = 1 ∧ (m.srcStarted k).rd MDL_SRC_STAT_STATE k = 1 ∧
    (m.srcStarted k).rd MDL_SRC_SCALE_L k = m.rd MDL_SRC_SCALE k % 2 ^ MDL_SRC_SCALE_L.w ∧
    (m.srcStarted k).rd MDL_SRC_CFG_TYPE k = m.rd MDL_SRC_CFG_TYPE k := by
  unfold Chip.srcStarted
  rw [Chip.slotAcquire_slot _ slot]
  unfold Chip.learnClear Chip.slotAdopt
  refine ⟨?_, ?_, ?_, ?_⟩ <;> simp (disch := decide) only [Chip.rd_wr_ne, Chip.rd_wr_same, Chip.setSlot_rd] <;> rfl

theorem Chip.srcStarted_inbox : ((m.srcStarted k).slot k).inbox = [] := by
  unfold Chip.srcStarted
  rw [Chip.slotAcquire_slot _ slot]
  simp only [Chip.wr_slot, Chip.setSlot_same, Chip.learnClear, Chip.slotAdopt]

theorem Chip.srcOff_shows : (m.srcOff k).rd MDL_SRC_CFG_EN k = 0 ∧ (m.srcOff k).rd MDL_SRC_STAT_STATE k = 0 ∧
    (m.srcOff k).rd MDL_SRC_V k = 0 := by
  unfold Chip.srcOff Chip.wrB
  simp only [Chip.setSlotState_slot _ slot]
  refine ⟨?_, ?_, ?_⟩ <;> simp (disch := decide) only [Chip.rd_wr_ne, Chip.rd_wr_same, Chip.setSlot_rd] <;> rfl

end

/-- Settles O12: each clause by the branch of its command; the ratio of a slot is evaluated on a fusion that the other ratios leave as it was. -/
theorem mandrelSlots : Obligations.MandrelSlots := by
  unfold Obligations.MandrelSlots
  refine ⟨?_, ?_, ?_, ?_, ?_, ?_⟩
  · intro k r rs s front moves start on live
    refine ⟨_, exec_slotMeasurement k s, ?_⟩
    dsimp only
    rw [Chip.slotNext_start (Ds.slot k) front moves start on live, Chip.stillCount_slot, Chip.setSlot_same]
    exact ⟨rfl, rfl, rfl, rfl, rfl, (SameRegs.rfl _ _ s.chip).regs (Chip.stillCount_regs _ _ _)⟩
  · intro k s en words late on live
    refine ⟨_, exec_slotWordTimeout k s, ?_⟩
    dsimp only
    rw [Chip.wordTimeout_due en words late, Chip.slotLose_live (Ds.slot k) on live]
    refine ⟨?_, ?_, Chip.mdlFlag_bit _ _ (by decide), ((((SameRegs.rfl _ _ _).wr (.inr (by simp))).setFlag (.inr (by simp))).mdlFlag (by simp) (by simp))⟩
    · rw [Chip.mdlFlag_rd_ne _ _ _ _ (by decide) (by decide), Chip.setFlag_rd_ne _ _ _ _ _ _ (by decide), Chip.rd_wr_same]
      rfl
    · rw [Chip.mdlFlag_rd_ne _ _ _ _ (by decide) (by decide), Chip.setFlag_rd_same]
      exact bitAt_setBit_mod _ _ _ (by decide)
  · intro k r s due member track others fast
    obtain ⟨pre, post, split, -, rest⟩ := row_once k
    have seen := Chip.slipOnes_fusion (s.chip.stamp .slip) pre
    refine ⟨_, exec_slipEvaluation s, ?_⟩
    dsimp only
    rw [Chip.slipEval_ratio due, split, List.foldl_append, List.foldl_cons, Chip.slipOnes_other _ rest,
      Chip.slipOne_ratio (Ds.slot k) ((seen.chassisSlot _).trans member) ((seen.regs _ (by decide) _).trans track) ((seen.vOthers _).trans others) fast,
      seen.speed]
    rfl
  · intro who k w s ok off en words scale
    have taken : (s.chip.srcWritten k.val w.toNat).srcRefused k.val w.toNat = false :=
      Chip.srcRefused_word words (by rwa [Chip.srcWritten_rd_ne _ _ _ _ _ (by decide)])
    obtain ⟨enabled, state, learned, type⟩ := (s.chip.srcWritten k.val w.toNat).srcStarted_shows (Ds.slot k)
    rw [Chip.srcWritten_rd_ne _ _ _ _ _ (by decide)] at learned
    refine ⟨_, exec_mdlSrcEnable ok, ?_⟩
    dsimp only
    rw [Chip.srcCfgWrite_on off en, if_neg (by simp [taken]), Chip.srcOn_word (type.trans ((Chip.srcWritten_type _ _ _).trans words))]
    exact ⟨enabled, state, Chip.srcStarted_inbox _ (Ds.slot k), learned⟩
  · intro who k w s ok off en none_
    refine ⟨_, exec_mdlSrcEnable ok, ?_⟩
    dsimp only
    rw [Chip.srcCfgWrite_on off en, if_pos (Chip.srcRefused_scale ((Chip.srcWritten_rd_ne _ _ _ _ _ (by decide)).trans none_)),
      Chip.mdlFlag_rd_ne _ _ _ _ (by decide) (by decide), Chip.srcWritten_rd_ne _ _ _ _ _ (by decide)]
    exact ⟨off, Chip.mdlFlag_bit _ _ (by decide)⟩
  · intro who k w s ok on en
    refine ⟨_, exec_mdlSrcEnable ok, ?_⟩
    dsimp only
    rw [Chip.srcCfgWrite_off on en]
    exact Chip.srcOff_shows _ (Ds.slot k)

end Sys2Proof.Machine
end

section
/-! PROOFS. The chassis: its states, the history, and a prediction tick in COAST (R82, R96-R100). -/

namespace Sys2Proof.Machine

/-! ## The chassis enters a state (R98) -/

/-- The flags of a change of the chassis from one state into another. -/
def Chip.chassisFlags (m : Chip) (old st : Nat) : Chip :=
  let m := m.mdlFlag MDL_FLAGS_STATE_CHG
  let m := if old = 4 then m.mdlFlag MDL_FLAGS_STILL_OUT else m
  if st = 4 then m.mdlFlag MDL_FLAGS_STILL_IN
  else if st = 5 then m.mdlFlag MDL_FLAGS_COAST_IN
  else if st = 6 then m.mdlFlag MDL_FLAGS_INVALID_IN
  else m

/-- Mandrel after the entry into a state, at a TB. -/
def Mandrel.entered (x : Mandrel) (st tb : Nat) : Mandrel :=
  { x with a := 0, coastAt := tb, v := if st = 5 ∨ st = 2 ∨ st = 3 then x.v else 0 }

theorem SameRegs.ite {l : List (Field × Nat)} {p : List Part} {x y z : Chip} {c : Prop} [Decidable c] (h : SameRegs l p x y)
    (g : SameRegs l p x z) : SameRegs l p x (if c then y else z) := by
  split
  · exact h
  · exact g

theorem SameRegs.chassisFlags {l : List (Field × Nat)} {p : List Part} {x y : Chip} {old st : Nat} (h : SameRegs l p x y)
    (hi : Part.rInt ∈ p) (hm : (MDL_FLAGS, 0) ∈ l) : SameRegs l p x (y.chassisFlags old st) := by
  have changed := h.mdlFlag (b := MDL_FLAGS_STATE_CHG) hi hm
  have left := SameRegs.ite (c := old = 4) (changed.mdlFlag (b := MDL_FLAGS_STILL_OUT) hi hm) changed
  exact (left.mdlFlag hi hm).ite ((left.mdlFlag hi hm).ite ((left.mdlFlag hi hm).ite left))

theorem Chip.chassisTo_same {m : Chip} {st : Nat} (h : m.rd MDL_STAT_STATE = st) : m.chassisTo st = m := if_pos h

/-- The chip after a change of state, but for Mandrel's own figures. -/
def Chip.chassisShown (m : Chip) (st : Nat) : Chip := (m.wr MDL_STAT_STATE 0 st).chassisFlags (m.rd MDL_STAT_STATE) st

theorem Chip.chassisTo_ne {m : Chip} {st : Nat} (h : m.rd MDL_STAT_STATE ≠ st) :
    m.chassisTo st = { m.chassisShown st with mdl := (m.chassisShown st).mdl.entered st (m.chassisShown st).tb } := if_neg h

/-- The fields that show a change of state of the chassis. -/
def chassisFields : List (Field × Nat) := [(MDL_STAT_STATE, 0), (MDL_FLAGS, 0)]

theorem SameRegs.chassisShown (m : Chip) (st : Nat) : SameRegs chassisFields [.rInt] m (m.chassisShown st) :=
  SameRegs.chassisFlags ((SameRegs.rfl _ _ m).wr (.inr (by simp [chassisFields]))) (by simp) (by simp [chassisFields])

theorem SameRegs.chassisTo (m : Chip) (st : Nat) : SameRegs chassisFields [.rInt] m (m.chassisTo st) := by
  by_cases h : m.rd MDL_STAT_STATE = st
  · rw [Chip.chassisTo_same h]
    exact SameRegs.rfl _ _ m
  · rw [Chip.chassisTo_ne h]
    exact (SameRegs.chassisShown m st).regs (Eq.refl _)

theorem Chip.chassisTo_state (m : Chip) (st : Nat) (h : st < 2 ^ MDL_STAT_STATE.w) : (m.chassisTo st).rd MDL_STAT_STATE = st := by
  by_cases e : m.rd MDL_STAT_STATE = st
  · rw [Chip.chassisTo_same e, e]
  · have flags : SameRegs [(MDL_FLAGS, 0)] [.rInt] (m.wr MDL_STAT_STATE 0 st) (m.chassisShown st) :=
      (SameRegs.rfl _ _ _).chassisFlags (by simp) (by simp)
    rw [Chip.chassisTo_ne e]
    exact (flags.rd (f := MDL_STAT_STATE) (by decide) (by decide) 0).trans ((Chip.rd_wr_same _ _ _ _).trans (Nat.mod_eq_of_lt h))

theorem Chip.chassisTo_rd (m : Chip) (st : Nat) {f : Field} (hp : f.part ≠ .rInt) (hf : (chassisFields.all fun q => q.1.id != f.id) = true)
    (i : Nat) : (m.chassisTo st).rd f i = m.rd f i := (SameRegs.chassisTo m st).rd (by simpa using hp) hf i

/-! ## Enable and disable (R98) -/

theorem exec_mdlEnable {who : Writer} {w : Word} {s : State} (ok : s.chip.geomOk who = true) :
    exec (.mdlEnable who w) s = .next { s with chip := s.chip.mdlCfgWrite w.toNat } := by
  change execMdlEnable who w s = _
  simp [execMdlEnable, ok]

/-- MDL_CFG as a write of w leaves it. -/
def Chip.mdlWritten (m : Chip) (w : Nat) : Chip :=
  ((m.wr MDL_CFG_EN 0 (wordField MDL_CFG_EN w)).wrFrom MDL_CFG_ACC_BW 0 w).wrFrom MDL_CFG_COAST_MS 0 w

theorem Chip.mdlWritten_en (m : Chip) (w : Nat) : (m.mdlWritten w).rd MDL_CFG_EN = wordField MDL_CFG_EN w := by
  unfold Chip.mdlWritten Chip.wrFrom
  rw [Chip.rd_wr_ne _ _ _ _ _ _ (by decide), Chip.rd_wr_ne _ _ _ _ _ _ (by decide), Chip.rd_wr_same]
  exact Nat.mod_eq_of_lt (Nat.mod_lt _ (by decide))

/-- Mandrel as an enable leaves it: distance 0, no pose yet. -/
def Mandrel.begun (x : Mandrel) : Mandrel :=
  { x with s := 0, firstPose := true, fieldSet := false, poseRejects := 0, pose := none, last := none, lastHdg := none, lowSince := none
           lowHeld := false }

/-- The chip when the chassis waits for a source, before the pose loop acquires. -/
def Chip.chassisWaits (m : Chip) : Chip :=
  ((({ m.chassisTo 1 with mdl := (m.chassisTo 1).mdl.begun }.wr MDL_STAT_FIELD_OK 0 0).wr MDL_POSE_STAT_LAST 0 0).wr MDL_POSE_STAT_BUSY 0 0).setSlot
    poseSlot {}

theorem Chip.mdlCfgWrite_on {m : Chip} {w : Nat} (off : m.rd MDL_CFG_EN = 0) (en : wordField MDL_CFG_EN w = 1) :
    m.mdlCfgWrite w = (m.mdlWritten w).chassisWaits.slotAcquire poseSlot := by
  unfold Chip.mdlCfgWrite
  simp only [off, en]
  rw [if_neg (by decide), if_neg (by decide)]
  unfold Chip.mdlWritten
  rw [en]
  rfl

theorem Chip.mdlCfgWrite_off {m : Chip} {w : Nat} (on : m.rd MDL_CFG_EN = 1) (en : wordField MDL_CFG_EN w = 0) :
    m.mdlCfgWrite w = (((m.mdlWritten w).chassisTo 0).setSlotState poseSlot slotOff).chassisStatus := by
  unfold Chip.mdlCfgWrite
  simp only [on, en]
  rw [if_neg (by decide), if_pos trivial]
  unfold Chip.mdlWritten
  rw [en]

/-- The pose loop enters ACQ. -/
theorem Chip.slotAcquire_pose (m : Chip) :
    m.slotAcquire poseSlot =
      (m.wr MDL_POSE_STAT_LOOP 0 1).setSlot poseSlot
        { m.slot poseSlot with s := (m.slot poseSlot).meas, sTick := (m.slot poseSlot).meas, v := 0, startPend := true, speedPend := false,
                               accepted := 0, rejects := 0, jitter := [] } := rfl

theorem Chip.chassisWaits_rd (m : Chip) {f : Field}
    (hf : ([MDL_STAT_FIELD_OK, MDL_POSE_STAT_LAST, MDL_POSE_STAT_BUSY].all fun g => f.id != g.id) = true) (i : Nat) :
    m.chassisWaits.rd f i = (m.chassisTo 1).rd f i := by
  obtain ⟨ok, last, busy⟩ : f.id ≠ MDL_STAT_FIELD_OK.id ∧ f.id ≠ MDL_POSE_STAT_LAST.id ∧ f.id ≠ MDL_POSE_STAT_BUSY.id := by simpa using hf
  unfold Chip.chassisWaits
  rw [Chip.setSlot_rd, Chip.rd_wr_ne _ _ _ _ _ _ busy, Chip.rd_wr_ne _ _ _ _ _ _ last, Chip.rd_wr_ne _ _ _ _ _ _ ok]
  rfl

/-- What the chassis shows after its enable. -/
theorem Chip.chassisWaits_shows (m : Chip) :
    m.chassisWaits.rd MDL_STAT_STATE = 1 ∧ m.chassisWaits.rd MDL_CFG_EN = m.rd MDL_CFG_EN ∧ m.chassisWaits.mdl.s = 0 ∧
    m.chassisWaits.rd MDL_STAT_FIELD_OK = 0 ∧ m.chassisWaits.rd MDL_POSE_STAT_LAST = 0 := by
  refine ⟨(m.chassisWaits_rd (by decide) 0).trans (m.chassisTo_state 1 (by decide)),
    (m.chassisWaits_rd (by decide) 0).trans (m.chassisTo_rd 1 (by decide) (by decide) 0), rfl, ?_, ?_⟩ <;> unfold Chip.chassisWaits
  · rw [Chip.setSlot_rd, Chip.rd_wr_ne _ _ _ _ _ _ (by decide), Chip.rd_wr_ne _ _ _ _ _ _ (by decide), Chip.rd_wr_same]
    rfl
  · rw [Chip.setSlot_rd, Chip.rd_wr_ne _ _ _ _ _ _ (by decide), Chip.rd_wr_same]
    rfl

/-- The fields of the status of a tick. -/
def statusFields : List (Field × Nat) := [(MDL_FLAGS, 0), (MDL_STAT_NTRACK, 0), (MDL_STAT_BEST, 0), (MDL_YAW_BIAS, 0)]

theorem SameRegs.chassisStatus (m : Chip) : SameRegs statusFields [.rInt] m m.chassisStatus := by
  unfold Chip.chassisStatus
  extract_lets +onlyGivenNames tr all flagged _fig counted
  have raised : SameRegs statusFields [.rInt] m flagged := SameRegs.ite ((SameRegs.rfl _ _ m).mdlFlag (by simp) (by simp [statusFields])) (SameRegs.rfl _ _ m)
  have seen : SameRegs statusFields [.rInt] m counted := raised.regs (Eq.refl _)
  exact SameRegs.wrFit ((seen.wr (.inr (by simp [statusFields]))).wr (.inr (by simp [statusFields]))) (by simp [statusFields])


/-! ## Still timer, end of COAST, history (R98-R100) -/

theorem exec_stillTimer (s : State) : exec .stillTimer s = .next { s with chip := s.chip.stillTimeout } := rfl

theorem exec_coastTimeout (s : State) : exec .coastTimeout s = .next { s with chip := s.chip.coastEnd } := rfl

theorem exec_mdlHistoryEntry (s : State) : exec .mdlHistoryEntry s = .next { s with chip := s.chip.histPush } := rfl

theorem Chip.stillTimeout_due {m : Chip} {t0 : Nat} (low : m.mdl.lowSince = some t0) (st : m.rd MDL_STAT_STATE = 2 ∨ m.rd MDL_STAT_STATE = 3)
    (late : t0 + m.rd MDL_STILL_STILL_MS * msTb ≤ m.tb) : m.stillTimeout = { m with mdl := { m.mdl with lowHeld := true } } := by
  unfold Chip.stillTimeout
  rw [low]
  exact if_pos ⟨st, late⟩

theorem Chip.coastEnd_due {m : Chip} (st : m.rd MDL_STAT_STATE = 5) (late : m.mdl.coastAt + m.rd MDL_CFG_COAST_MS * msTb ≤ m.tb) :
    m.coastEnd = m.chassisTo 6 := if_pos ⟨st, late⟩

theorem Chip.histPush_due {m : Chip} (due : m.due .history = true) :
    m.histPush =
      { m.stamp .history with mdl := { m.mdl with hist := ({ m.histNow with tb := m.tb } :: m.mdl.hist).take 256 } } := if_pos due

/-- The entry into INVALID from COAST: no speed, with its flags. -/
theorem Chip.chassisTo_invalid {m : Chip} (st : m.rd MDL_STAT_STATE = 5) :
    (m.chassisTo 6).mdl.v = 0 ∧ bitAt ((m.chassisTo 6).rd MDL_FLAGS) MDL_FLAGS_STATE_CHG = true ∧
    bitAt ((m.chassisTo 6).rd MDL_FLAGS) MDL_FLAGS_INVALID_IN = true := by
  have flags : m.chassisShown 6 = ((m.wr MDL_STAT_STATE 0 6).mdlFlag MDL_FLAGS_STATE_CHG).mdlFlag MDL_FLAGS_INVALID_IN := by
    unfold Chip.chassisShown
    rw [st]
    rfl
  rw [Chip.chassisTo_ne (by rw [st]; decide), flags]
  exact ⟨rfl, Chip.mdlFlag_stands (Chip.mdlFlag_bit _ _ (by decide)) (by decide), Chip.mdlFlag_bit _ _ (by decide)⟩

/-! ## A prediction tick in COAST (R82, R98)

Without a slot that is on, a tick leaves the chassis in COAST: the distance goes on at the speed held. -/

/-- The states of the chassis and of the slots. -/
def courseRegs : List Field := [MDL_STAT_STATE, MDL_SRC_STAT_STATE, MDL_POSE_STAT_LOOP]

/-- The chassis goes on as it was: its distance, speed, tick and states, and the states of the slots. -/
structure Chip.SameCourse (x y : Chip) : Prop where
  s : y.mdl.s = x.mdl.s
  v : y.mdl.v = x.mdl.v
  tick : y.mdl.tickTb = x.mdl.tickTb
  regs : ∀ f, f ∈ courseRegs → ∀ i, y.rd f i = x.rd f i

namespace Chip.SameCourse

theorem refl (x : Chip) : x.SameCourse x := ⟨rfl, rfl, rfl, fun _ _ _ => rfl⟩

theorem trans {x y z : Chip} (h : x.SameCourse y) (g : y.SameCourse z) : x.SameCourse z :=
  ⟨g.s.trans h.s, g.v.trans h.v, g.tick.trans h.tick, fun f hf i => (g.regs f hf i).trans (h.regs f hf i)⟩

/-- Other figures of Mandrel, and what is no register. -/
theorem figures {x y z : Chip} (h : x.SameCourse y) (s : z.mdl.s = y.mdl.s) (v : z.mdl.v = y.mdl.v) (tick : z.mdl.tickTb = y.mdl.tickTb)
    (regs : z.regs = y.regs) : x.SameCourse z := h.trans ⟨s, v, tick, fun f _ i => rd_regs regs f i⟩

theorem wr {x y : Chip} (h : x.SameCourse y) {g : Field} (hg : (courseRegs.all fun f => f.id != g.id) = true) (i v : Nat) :
    x.SameCourse (y.wr g i v) :=
  h.trans ⟨rfl, rfl, rfl, fun f hf _ => Chip.rd_wr_ne _ _ _ _ _ _ (by simpa using List.all_eq_true.1 hg f hf)⟩

theorem wrFit {x y : Chip} (h : x.SameCourse y) {g : Field} (hg : (courseRegs.all fun f => f.id != g.id) = true) (i : Nat) (v : Int) :
    x.SameCourse (y.wrFit g i v) := by
  unfold Chip.wrFit
  split
  · exact h.wr hg _ _
  · exact (h.figures (z := { y with frees := y.frees + 1 }) rfl rfl rfl rfl).wr hg _ _

theorem mdlFlag {x y : Chip} (h : x.SameCourse y) (b : Nat) : x.SameCourse (y.mdlFlag b) := by
  have other : ∀ f, f ∈ courseRegs → f.part ≠ .rInt ∧ f.id ≠ MDL_FLAGS.id := by decide
  refine h.trans ⟨by rw [Chip.mdlFlag_mdl], by rw [Chip.mdlFlag_mdl], by rw [Chip.mdlFlag_mdl], fun f hf i => ?_⟩
  exact Chip.mdlFlag_rd_ne _ _ _ _ (other f hf).1 (other f hf).2

theorem ite {x y z : Chip} {c : Prop} [Decidable c] (h : x.SameCourse y) (g : x.SameCourse z) : x.SameCourse (if c then y else z) := by
  split
  · exact h
  · exact g

theorem foldl {α : Type} {f : Chip → α → Chip} (hf : ∀ (y : Chip) a, y.SameCourse (f y a)) (as : List α) (m : Chip) : m.SameCourse (as.foldl f m) := by
  induction as generalizing m with
  | nil => exact refl m
  | cons a r ih => exact (hf m a).trans (ih _)

theorem slotState {x y : Chip} (h : x.SameCourse y) (k : Nat) : y.slotState k = x.slotState k := by
  simp only [Chip.slotState, h.regs MDL_POSE_STAT_LOOP (by decide), h.regs MDL_SRC_STAT_STATE (by decide)]

theorem slotsOn {x y : Chip} (h : x.SameCourse y) : y.slotsOn = x.slotsOn := by
  simp only [Chip.slotsOn, h.slotState]

end Chip.SameCourse

open Chip (SameCourse)

theorem Chip.deflTick_course (m : Chip) (d : Nat) : m.SameCourse (m.deflTick d) := by
  unfold Chip.deflTick
  dsimp only
  refine SameCourse.wrFit ?_ (g := MDL_DF_VAL) (by decide) _ _
  exact (SameCourse.refl m).figures rfl rfl rfl rfl

theorem Chip.slotAdopt_course (m : Chip) (k : Nat) : m.SameCourse (m.slotAdopt k) := (SameCourse.refl m).figures rfl rfl rfl rfl

theorem Chip.yawPair_course (m : Chip) : m.SameCourse m.yawPair := by
  unfold Chip.yawPair
  dsimp only
  split
  · split <;> exact (SameCourse.refl m).figures rfl rfl rfl rfl
  · exact SameCourse.refl m

theorem Chip.yawSelect_course (m : Chip) : m.SameCourse m.yawSelect := by
  unfold Chip.yawSelect
  extract_lets p q was now shown fallen lost
  have s1 : m.SameCourse shown := (SameCourse.refl m).wr (by decide) _ _
  have s2 : m.SameCourse fallen := (s1.mdlFlag _).ite s1
  have s3 : m.SameCourse lost := (s2.mdlFlag _).ite s2
  exact s3.figures rfl rfl rfl rfl

theorem Chip.yawMove_course (m : Chip) : m.SameCourse m.yawMove := by
  unfold Chip.yawMove
  dsimp only
  split <;> exact (SameCourse.refl m).figures rfl rfl rfl rfl

theorem Chip.fieldTo_course (m : Chip) (e n : Int) : m.SameCourse (m.fieldTo e n) := by
  have flagged := ((SameCourse.refl m).mdlFlag MDL_FLAGS_FIELD_RANGE).ite (c := fieldClamp e ≠ e ∨ fieldClamp n ≠ n) (SameCourse.refl m)
  exact flagged.figures rfl rfl rfl rfl

theorem Chip.fieldMove_course (m : Chip) : m.SameCourse m.fieldMove := by
  unfold Chip.fieldMove
  exact (m.fieldTo_course _ _).figures rfl rfl rfl rfl

theorem Chip.lowClock_course (m : Chip) : m.SameCourse m.lowClock := by
  unfold Chip.lowClock
  split <;> exact (SameCourse.refl m).figures rfl rfl rfl rfl

theorem Chip.chassisStatus_course (m : Chip) : m.SameCourse m.chassisStatus := by
  unfold Chip.chassisStatus
  extract_lets +onlyGivenNames tr all flagged _fig counted
  have raised : m.SameCourse flagged := ((SameCourse.refl m).mdlFlag _).ite (SameCourse.refl m)
  have seen : m.SameCourse counted := raised.figures rfl rfl rfl rfl
  exact ((seen.wr (by decide) _ _).wr (by decide) _ _).wrFit (by decide) _ _

theorem Chip.publish_course (m : Chip) : m.SameCourse m.publish := (SameCourse.refl m).figures rfl rfl rfl rfl

/-- Without a slot that is on, no slot is in the active set. -/
theorem Chip.slotState_off {m : Chip} (off : m.slotsOn = []) {k : Nat} (h : k < 9) : m.slotState k = slotOff := by
  have := List.filter_eq_nil_iff.1 off k (List.mem_range.2 h)
  simpa using this

theorem Chip.activeSet_off {m : Chip} (off : m.slotsOn = []) : m.activeSet.2 = [] := by
  have state : ∀ k, k < 8 → m.slotState k = slotOff := fun k h => Chip.slotState_off off (Nat.lt_succ_of_lt h)
  have dead : ∀ k, k ∈ List.range 8 → m.live k = false := fun k h => by
    unfold Chip.live
    rw [state k (List.mem_range.1 h)]
    rfl
  have first : m.set1 = [] := List.filter_eq_nil_iff.2 fun k h => by simp [dead k h]
  have second : m.set2 = [] := by
    have pose : m.live poseSlot = false := by
      unfold Chip.live
      rw [Chip.slotState_off off (by decide)]
      rfl
    unfold Chip.set2
    rw [pose, List.filter_eq_nil_iff.2 fun k h => by simp [dead k h]]
    rfl
  have third : m.set3 = [] := List.filter_eq_nil_iff.2 fun k h => by simp [state k (List.mem_range.1 h), slotOff, slotSlip]
  unfold Chip.activeSet
  rw [first, second, third]
  rfl

theorem Chip.chassisStep_coast {m : Chip} (st : m.rd MDL_STAT_STATE = 5) (off : m.slotsOn = []) : m.chassisStep = m := by
  unfold Chip.chassisStep
  simp only [st, Chip.activeSet_off off]
  rfl

/-- The chassis after a tick in COAST. -/
def Chip.coasted (m : Chip) : Chip :=
  { m with mdl := { m.mdl with ds := m.mdl.v / 1000000, s := m.mdl.s + m.mdl.v / 1000000, a := 0 } }

theorem Chip.coasted_shows (m : Chip) :
    m.coasted.mdl.s = m.mdl.s + m.mdl.v / 1000000 ∧ m.coasted.mdl.tickTb = m.mdl.tickTb ∧ ∀ f i, m.coasted.rd f i = m.rd f i :=
  ⟨rfl, rfl, fun _ _ => rfl⟩

/-- A tick in COAST: the distance goes on at the speed held. -/
theorem Chip.chassisMove_coast {m : Chip} (st : m.rd MDL_STAT_STATE = 5) (was : Nat) :
    m.chassisMove was = m.coasted := by
  unfold Chip.chassisMove
  simp only [st]
  rfl

/-- A tick has begun: it is the latest. -/
def Chip.ticked (m : Chip) : Chip := { m with mdl := { m.mdl with tickTb := m.tb } }

/-- Mandrel before the chassis moves: the sources of a tick are in, no slot being on. -/
def Chip.tickIn (m : Chip) : Chip :=
  let m := m.ticked
  let m := (m.mdl.defl.map (·.1)).foldl Chip.deflTick m
  let m := ((List.range 8).filter fun k => m.rdB MDL_SRC_CFG_EN k).foldl Chip.slotAdopt m
  m.yawPair.yawSelect

theorem Chip.tickIn_course (m : Chip) : m.ticked.SameCourse m.tickIn := by
  unfold Chip.tickIn
  extract_lets stamped filtered adopted
  have d : stamped.SameCourse filtered := SameCourse.foldl Chip.deflTick_course _ _
  have a : filtered.SameCourse adopted := SameCourse.foldl Chip.slotAdopt_course _ _
  exact ((d.trans a).trans adopted.yawPair_course).trans adopted.yawPair.yawSelect_course

/-- What follows the move of the chassis in a tick. -/
def Chip.tickOut (m : Chip) : Chip := m.yawMove.fieldMove.lowClock.chassisStatus.publish

theorem Chip.tickOut_course (m : Chip) : m.SameCourse m.tickOut :=
  ((((m.yawMove_course).trans (Chip.fieldMove_course _)).trans (Chip.lowClock_course _)).trans (Chip.chassisStatus_course _)).trans
    (Chip.publish_course _)

theorem Chip.mandrelTick_off {m : Chip} (off : m.slotsOn = []) :
    m.mandrelTick = (m.tickIn.chassisStep.chassisMove (m.tickIn.rd MDL_STAT_STATE)).tickOut := by
  unfold Chip.mandrelTick
  extract_lets +onlyGivenNames _fig stamped filtered adopted moved
  have d : stamped.SameCourse filtered := SameCourse.foldl Chip.deflTick_course _ _
  have a : filtered.SameCourse adopted := SameCourse.foldl Chip.slotAdopt_course _ _
  have none_ : adopted.slotsOn = [] := (d.trans a).slotsOn.trans off
  have same : moved = adopted := congrArg (fun l => l.foldl Chip.slotTick adopted) none_
  rw [same]
  rfl

/-- A tick of Mandrel in COAST without a source. -/
theorem Chip.mandrelTick_coast {m : Chip} (st : m.rd MDL_STAT_STATE = 5) (off : m.slotsOn = []) :
    m.mandrelTick.mdl.tickTb = m.tb ∧ m.mandrelTick.mdl.s = m.mdl.s + m.mdl.v / 1000000 ∧ m.mandrelTick.rd MDL_STAT_STATE = 5 := by
  have seen := m.tickIn_course
  have coast : m.tickIn.rd MDL_STAT_STATE = 5 := (seen.regs _ (by decide) _).trans st
  obtain ⟨dist, tick, regs⟩ := m.tickIn.coasted_shows
  have out := m.tickIn.coasted.tickOut_course
  rw [Chip.mandrelTick_off off, Chip.chassisStep_coast coast (seen.slotsOn.trans off), Chip.chassisMove_coast coast]
  refine ⟨out.tick.trans (tick.trans seen.tick), out.s.trans (dist.trans ?_), (out.regs _ (by decide) _).trans ((regs _ _).trans coast)⟩
  have speed : m.tickIn.mdl.v = m.mdl.v := seen.v
  have start : m.tickIn.mdl.s = m.mdl.s := seen.s
  rw [speed, start]

theorem exec_predictionTick (s : State) : exec .predictionTick s = .next { s with chip := s.chip.predictionTick } := rfl

/-- The axes and the channels follow Mandrel in a tick and leave it as it is. -/
theorem Chip.predictionTick_mandrel {m : Chip} (due : m.due .prediction = true) (cycle : m.tb % 200 = 0) (runs : m.runs islObserver = true) :
    m.predictionTick.mdl = (m.stamp .prediction).mandrelTick.mdl ∧
    ∀ f : Field, f.part = .rMdl → ∀ i, m.predictionTick.rd f i = (m.stamp .prediction).mandrelTick.rd f i := by
  have moved : Moves [.rCh, .rTr, .rLat, .rDrv, .rAx, .rBk, .rBst, .rDg, .rDgb, .rCap, .rInt, .rMap, .frees, .asleep, .accums, .axes, .pool, .poolLast,
      .chans, .banks, .boost, .bcap, .jour, .sys, .cyc] (m.stamp .prediction).mandrelTick m.predictionTick := by
    unfold Chip.predictionTick
    rw [if_pos ⟨due, cycle⟩]
    dsimp only
    rw [if_pos (show (m.stamp .prediction).runs islObserver = true from runs)]
    refine Chip.chansTick_moves (Moves.ite (Chip.axesTick_moves .refl (by decide)) .refl) (by decide)
  exact ⟨moved.kept.mdl (by decide), fun f hf i => moved.rd f i (by rw [hf]; decide)⟩

/-- Settles O13: the entry into a state by its own frame, and a tick in COAST by the figures that the tick's other parts leave as they are. -/
theorem chassisStates : Obligations.ChassisStates := by
  unfold Obligations.ChassisStates
  refine ⟨?_, ?_, ?_, ?_, ?_, ?_⟩
  · intro who w s ok off en
    obtain ⟨state, on, dist, field, last⟩ := (s.chip.mdlWritten w.toNat).chassisWaits_shows
    refine ⟨_, exec_mdlEnable ok, ?_⟩
    dsimp only
    rw [Chip.mdlCfgWrite_on off en, Chip.slotAcquire_pose]
    simp (disch := decide) only [Chip.setSlot_rd, Chip.rd_wr_ne, Chip.rd_wr_same, state, on, field, last, Chip.mdlWritten_en, en, true_and]
    exact ⟨dist, rfl⟩
  · intro who w s ok on en
    refine ⟨_, exec_mdlEnable ok, ?_⟩
    have keeps := SameRegs.chassisStatus (((s.chip.mdlWritten w.toNat).chassisTo 0).setSlotState poseSlot slotOff)
    dsimp only
    rw [Chip.mdlCfgWrite_off on en]
    refine ⟨?_, ?_, ?_⟩
    · rw [keeps.rd (f := MDL_CFG_EN) (by decide) (by decide), Chip.setSlotState_rd_ne _ _ _ _ _ (by decide) (by decide),
        Chip.chassisTo_rd _ _ (by decide) (by decide), Chip.mdlWritten_en, en]
    · rw [keeps.rd (f := MDL_STAT_STATE) (by decide) (by decide), Chip.setSlotState_rd_ne _ _ _ _ _ (by decide) (by decide),
        Chip.chassisTo_state _ _ (by decide)]
    · rw [keeps.rd (f := MDL_POSE_STAT_LOOP) (by decide) (by decide)]
      exact Chip.rd_wr_same _ _ _ _
  · intro t0 s low st late
    refine ⟨_, exec_stillTimer s, ?_⟩
    dsimp only
    rw [Chip.stillTimeout_due low st late]
    exact ⟨rfl, (SameRegs.rfl _ _ _).regs rfl⟩
  · intro s st late
    obtain ⟨still, changed, invalid⟩ := Chip.chassisTo_invalid st
    refine ⟨_, exec_coastTimeout s, ?_⟩
    dsimp only
    rw [Chip.coastEnd_due st late]
    exact ⟨Chip.chassisTo_state _ _ (by decide), still, changed, invalid, SameRegs.chassisTo _ _⟩
  · intro s due _
    refine ⟨_, exec_mdlHistoryEntry s, ?_⟩
    dsimp only
    rw [Chip.histPush_due due]
    exact ⟨rfl, (SameRegs.rfl _ _ _).regs rfl⟩
  · intro s due cycle runs _ st off
    obtain ⟨mdl, regs⟩ := Chip.predictionTick_mandrel due cycle runs
    obtain ⟨tick, dist, state⟩ := Chip.mandrelTick_coast (m := s.chip.stamp .prediction) st off
    refine ⟨_, exec_predictionTick s, ?_⟩
    dsimp only
    rw [mdl, regs MDL_STAT_STATE rfl]
    exact ⟨tick, dist, state⟩

end Sys2Proof.Machine
end

section
/-! PROOFS. Poses: commit, jump, correction, loss; FIELD_SET (R102-R106). -/

namespace Sys2Proof.Machine

/-! ## What processing a pose leaves

The pose loop and the heading of an accepted pose leave the field position, its correction, the pose in process, BUSY, and every flag that stands. -/

/-- The field position goes on as it was, and what is in process with it. -/
structure Chip.SameField (x y : Chip) : Prop where
  pose : y.mdl.pose = x.mdl.pose
  e : y.mdl.e = x.mdl.e
  n : y.mdl.n = x.mdl.n
  corrE : y.mdl.corrE = x.mdl.corrE
  corrN : y.mdl.corrN = x.mdl.corrN
  busy : y.rd MDL_POSE_STAT_BUSY = x.rd MDL_POSE_STAT_BUSY
  flags : ∀ b, b < MDL_FLAGS.w → bitAt (x.rd MDL_FLAGS) b = true → bitAt (y.rd MDL_FLAGS) b = true

namespace Chip.SameField

theorem refl (x : Chip) : x.SameField x := ⟨rfl, rfl, rfl, rfl, rfl, rfl, fun _ _ h => h⟩

theorem trans {x y z : Chip} (h : x.SameField y) (g : y.SameField z) : x.SameField z :=
  ⟨g.pose.trans h.pose, g.e.trans h.e, g.n.trans h.n, g.corrE.trans h.corrE, g.corrN.trans h.corrN, g.busy.trans h.busy,
    fun b hb on => g.flags b hb (h.flags b hb on)⟩

/-- Registers other than BUSY and the flags, Mandrel as it was. -/
theorem regs {x y z : Chip} (h : x.SameField y) (mdl : z.mdl = y.mdl) (busy : z.rd MDL_POSE_STAT_BUSY = y.rd MDL_POSE_STAT_BUSY)
    (flags : z.rd MDL_FLAGS = y.rd MDL_FLAGS) : x.SameField z :=
  h.trans ⟨by rw [mdl], by rw [mdl], by rw [mdl], by rw [mdl], by rw [mdl], busy, fun b _ on => by rw [flags]; exact on⟩

theorem wr {x y : Chip} (h : x.SameField y) {g : Field} (hg : ([MDL_POSE_STAT_BUSY, MDL_FLAGS].all fun f => f.id != g.id) = true) (i v : Nat) :
    x.SameField (y.wr g i v) := by
  obtain ⟨busy, flags⟩ : MDL_POSE_STAT_BUSY.id ≠ g.id ∧ MDL_FLAGS.id ≠ g.id := by simpa using hg
  exact h.regs rfl (Chip.rd_wr_ne _ _ _ _ _ _ busy) (Chip.rd_wr_ne _ _ _ _ _ _ flags)

theorem mdlFlag {x y : Chip} (h : x.SameField y) (b : Nat) : x.SameField (y.mdlFlag b) := by
  have mdl := y.mdlFlag_mdl b
  exact h.trans ⟨by rw [mdl], by rw [mdl], by rw [mdl], by rw [mdl], by rw [mdl], Chip.mdlFlag_rd_ne _ _ _ _ (by decide) (by decide),
    fun c hc on => Chip.mdlFlag_stands on hc⟩

theorem ite {x y z : Chip} {c : Prop} [Decidable c] (h : x.SameField y) (g : x.SameField z) : x.SameField (if c then y else z) := by
  split
  · exact h
  · exact g

/-- Other figures of Mandrel. -/
theorem figures {x y : Chip} (h : x.SameField y) {k : Mandrel} (pose : k.pose = y.mdl.pose) (e : k.e = y.mdl.e) (n : k.n = y.mdl.n)
    (corrE : k.corrE = y.mdl.corrE) (corrN : k.corrN = y.mdl.corrN) : x.SameField { y with mdl := k } :=
  h.trans ⟨pose, e, n, corrE, corrN, rfl, fun _ _ on => on⟩

theorem setSlot {x y : Chip} (h : x.SameField y) (k : Nat) (v : Slot) : x.SameField (y.setSlot k v) := h.figures rfl rfl rfl rfl rfl

theorem setSlotState {x y : Chip} (h : x.SameField y) (k st : Nat) : x.SameField (y.setSlotState k st) :=
  (h.wr (by decide) _ _).ite (h.wr (by decide) _ _)

theorem srcFlag {x y : Chip} (h : x.SameField y) (k b : Nat) : x.SameField (y.srcFlag k b) := by
  refine SameField.ite h (SameField.mdlFlag ?_ _)
  exact h.regs rfl (Chip.setFlag_rd_ne _ _ _ _ _ _ (by decide)) (Chip.setFlag_rd_ne _ _ _ _ _ _ (by decide))

theorem count {x y : Chip} (h : x.SameField y) {g : Field} (hg : ([MDL_POSE_STAT_BUSY, MDL_FLAGS].all fun f => f.id != g.id) = true) (i : Nat) :
    x.SameField (y.count g i) := by
  obtain ⟨busy, flags⟩ : MDL_POSE_STAT_BUSY.id ≠ g.id ∧ MDL_FLAGS.id ≠ g.id := by simpa using hg
  exact h.regs rfl (Chip.count_rd_ne _ _ _ _ _ busy) (Chip.count_rd_ne _ _ _ _ _ flags)

theorem stillCount {x y : Chip} (h : x.SameField y) (k : Nat) (d : Int) : x.SameField (y.stillCount k d) := by
  unfold Chip.stillCount
  dsimp only
  split
  · exact h.figures rfl rfl rfl rfl rfl
  · exact h

theorem slotLose {x y : Chip} (h : x.SameField y) (k : Nat) : x.SameField (y.slotLose k) := h.ite ((h.setSlotState _ _).srcFlag _ _)

theorem slotAcquire {x y : Chip} (h : x.SameField y) (k : Nat) : x.SameField (y.slotAcquire k) := by
  have acq := (h.setSlotState k slotAcq).setSlot k
    { y.slot k with s := (y.slot k).meas, sTick := (y.slot k).meas, v := 0, startPend := true, speedPend := false, accepted := 0, rejects := 0
                    jitter := [] }
  exact acq.ite ((acq.wr (by decide) _ _).wr (by decide) _ _)

theorem slotPull {x y : Chip} (h : x.SameField y) (k : Nat) : x.SameField (y.slotPull k) := by
  unfold Chip.slotPull
  refine SameField.setSlotState ?_ k slotTrack
  exact h.figures rfl rfl rfl rfl rfl

theorem acqEnd {x y : Chip} (h : x.SameField y) (k : Nat) : x.SameField (y.acqEnd k) := by
  unfold Chip.acqEnd
  split
  · exact (h.setSlotState _ _).srcFlag _ _
  · exact (((h.setSlotState _ _).srcFlag _ _).srcFlag _ _).ite ((h.setSlotState _ _).srcFlag _ _)

theorem slotAccept {x y : Chip} (h : x.SameField y) (k : Nat) (v : Slot) (e : Int) (te : Nat) : x.SameField (y.slotAccept k v e te) := by
  unfold Chip.slotAccept
  extract_lets +onlyGivenNames t w g1 g2 speed j filtered set need ended
  have s1 : x.SameField set := h.setSlot _ _
  have s2 : x.SameField ended := (s1.acqEnd _).ite s1
  exact s2.ite ((s2.wr (by decide) _ _).wr (by decide) _ _)

end Chip.SameField

open Chip (SameField)

/-- The counts of a rejected measurement; the pose loop has none. -/
theorem Chip.slotMeasure_field (m : Chip) (k : Nat) (c : Int) (te : Nat) (start : Bool) (gate count : Int) :
    m.SameField (m.slotMeasure k c te start gate count) := by
  unfold Chip.slotMeasure
  extract_lets st acq x0 x t v set moved e corrected flagged rejected kept lim
  have s : m.SameField acq := ((SameField.refl m).slotAcquire k).ite (SameField.refl m)
  split
  · exact SameField.refl m
  split
  · exact (s.setSlot _ _).stillCount _ _
  split
  · have s2 : m.SameField moved := (s.setSlot _ _).stillCount _ _
    exact (s2.slotPull _).ite s2
  split
  · exact (s.slotAccept _ _ _ _).stillCount _ _
  split
  · exact (((s.count (by decide) _).srcFlag _ _).slotAccept _ _ _ _).stillCount _ _
  · have s2 : m.SameField rejected := s.ite ((s.count (by decide) _).srcFlag _ _)
    have s3 : m.SameField kept := s2.setSlot _ _
    exact (s3.slotLose _).ite s3

theorem Chip.poseLoop_field (m : Chip) (p : Pose) (sigma : Nat) (psiH : Int) : m.SameField (m.poseLoop p sigma psiH) := by
  have measured := fun c gate => m.slotMeasure_field poseSlot c p.tb false gate 0
  exact ((measured _ _).setSlot _ _).ite (measured _ _)

theorem Chip.yawSelect_field (m : Chip) : m.SameField m.yawSelect := by
  unfold Chip.yawSelect
  extract_lets p q was now shown fallen lost
  have s1 : m.SameField shown := (SameField.refl m).wr (by decide) _ _
  have s2 : m.SameField fallen := (s1.mdlFlag _).ite s1
  have s3 : m.SameField lost := (s2.mdlFlag _).ite s2
  exact s3.figures rfl rfl rfl rfl rfl

theorem Chip.yawSample_field (m : Chip) (c : Nat) (rate : Int) (ts : Nat) : m.SameField (m.yawSample c rate ts) := by
  unfold Chip.yawSample
  extract_lets +onlyGivenNames _fig kept old chosen
  have s1 : m.SameField kept := (SameField.refl m).figures rfl rfl rfl rfl rfl
  have s2 : m.SameField chosen := s1.trans kept.yawSelect_field
  split
  · exact s2.figures rfl rfl rfl rfl rfl
  · exact s2

theorem Chip.headingSample_field (m : Chip) (p : Pose) : m.SameField (m.headingSample p) := by
  unfold Chip.headingSample
  split
  · extract_lets sampled
    have s : m.SameField sampled := by
      unfold sampled
      split
      · exact SameField.refl m
      · exact (SameField.refl m).ite (m.yawSample_field _ _ _)
    exact s.figures rfl rfl rfl rfl rfl
  · exact SameField.refl m

theorem Chip.headingLoop_field (m : Chip) (p : Pose) (psiH : Int) : m.SameField (m.headingLoop p psiH) := by
  unfold Chip.headingLoop
  split
  · exact SameField.refl m
  · exact (SameField.refl m).figures rfl rfl rfl rfl rfl

theorem Chip.poseAccept_field (m : Chip) (p : Pose) (sigma : Nat) (psiH : Int) (code : Nat) : m.SameField (m.poseAccept p sigma psiH code) := by
  have fed := (m.poseLoop_field p sigma psiH).trans (Chip.headingSample_field _ p)
  unfold Chip.poseAccept
  refine SameField.wr (SameField.wr (SameField.wr (SameField.wr ?_ (g := MDL_STAT_FIELD_OK) (by decide) 0 1) (g := MDL_STAT_POSE_CUR) (by decide) 0 1)
    (g := MDL_STAT_FIELD_DR) (by decide) 0 0) (g := MDL_POSE_STAT_LAST) (by decide) 0 code
  exact fed.figures rfl rfl rfl rfl rfl

/-- What an accepted pose shows. -/
theorem Chip.poseAccept_shows (m : Chip) (p : Pose) (sigma : Nat) (psiH : Int) (code : Nat) :
    (m.poseAccept p sigma psiH code).rd MDL_POSE_STAT_LAST = code % 2 ^ MDL_POSE_STAT_LAST.w ∧
    (m.poseAccept p sigma psiH code).rd MDL_STAT_FIELD_OK = 1 ∧ (m.poseAccept p sigma psiH code).rd MDL_STAT_POSE_CUR = 1 ∧
    (m.poseAccept p sigma psiH code).rd MDL_STAT_FIELD_DR = 0 ∧ (m.poseAccept p sigma psiH code).mdl.last = some p := by
  unfold Chip.poseAccept
  refine ⟨Chip.rd_wr_same _ _ _ _, ?_, ?_, ?_, rfl⟩ <;> simp (disch := decide) only [Chip.rd_wr_ne, Chip.rd_wr_same] <;> rfl

/-! ## Commit (R102) -/

theorem exec_poseCommit {who : Writer} {s : State} (ok : s.chip.poseOk who = true) :
    exec (.poseCommit who) s = .next { s with chip := s.chip.poseCommit } := by
  change execPoseCommit who s = _
  simp [execPoseCommit, ok]

theorem Chip.poseCommit_taken {m : Chip} (pass : m.poseTest m.staged = 0) :
    m.poseCommit = { m with mdl := { m.mdl with pose := some m.staged } }.wr MDL_POSE_STAT_BUSY 0 1 := if_pos pass

theorem Chip.poseCommit_refused {m : Chip} (fail : m.poseTest m.staged ≠ 0) :
    m.poseCommit = (m.wr MDL_POSE_STAT_LAST 0 (m.poseTest m.staged)).mdlFlag MDL_FLAGS_POSE_REFUSED := if_neg fail

/-- The codes of a commit fit LAST. -/
theorem Chip.poseTest_lt (m : Chip) (p : Pose) : m.poseTest p < 2 ^ MDL_POSE_STAT_LAST.w := by
  unfold Chip.poseTest
  dsimp only
  split
  · decide
  split
  · decide
  split
  · decide
  split
  · split <;> decide
  · decide

/-! ## Processing (R103) -/

theorem exec_poseProcessed (s : State) : exec .poseProcessed s = .next { s with chip := s.chip.posesDone } := rfl

/-- The target steps of the lattices leave Mandrel. -/
theorem Chip.posesDone_mandrel (m : Chip) :
    m.posesDone.mdl = m.poseProcess.mdl ∧ ∀ f : Field, f.part = .rMdl → ∀ i, m.posesDone.rd f i = m.poseProcess.rd f i := by
  have moved : Moves [.rCh, .rLat, .rDrv, .rBk, .rBst, .rDg, .rDgb, .rCap, .rInt, .rMap, .frees, .asleep, .accums, .chans, .banks, .boost, .bcap,
      .sys, .cyc] m.poseProcess m.posesDone := Moves.ite (Chip.jumpSteps_moves .refl (by decide)) .refl
  exact ⟨moved.kept.mdl (by decide), fun f hf i => moved.rd f i (by rw [hf]; decide)⟩

/-- The pose in process is taken out. -/
def Chip.poseTaken (m : Chip) : Chip := { m with mdl := { m.mdl with pose := none } }.wr MDL_POSE_STAT_BUSY 0 0

theorem Chip.poseTaken_shows (m : Chip) : m.poseTaken.mdl.pose = none ∧ m.poseTaken.rd MDL_POSE_STAT_BUSY = 0 :=
  ⟨rfl, Chip.rd_wr_same _ _ _ _⟩

/-- The field position at a pose that jumps. -/
def Chip.poseJumped (m : Chip) (p : Pose) (dE dN : Int) : Chip :=
  let m := m.poseTaken
  let m := m.fieldTo (m.mdl.e + dE) (m.mdl.n + dN)
  let m := { m with mdl := { m.mdl with corrE := 0, corrN := 0, psi := if p.hdgValid then fx p.hdg else m.mdl.psi } }
  m.mdlFlag MDL_FLAGS_FIELD_JUMP

theorem Chip.poseProcess_jump {m : Chip} {p : Pose} (front : m.mdl.pose = some p) (first : m.mdl.firstPose = true) :
    m.poseProcess =
      ((m.poseJumped p (fx p.e - (m.histAtTb p.tb).e) (fx p.n - (m.histAtTb p.tb).n)).slotAcquire poseSlot).poseAccept p (max p.sigma 10)
        (m.histAtTb p.tb).psi 2 := by
  unfold Chip.poseProcess
  rw [front]
  exact if_pos (.inl first)

theorem Chip.fieldTo_mdl (m : Chip) (e n : Int) : (m.fieldTo e n).mdl = { m.mdl with e := fieldClamp e, n := fieldClamp n } := by
  unfold Chip.fieldTo
  dsimp only
  split
  · rw [Chip.mdlFlag_mdl]
  · rfl

theorem Chip.fieldTo_rd (m : Chip) (e n : Int) (f : Field) (i : Nat) (hp : f.part ≠ .rInt) (hf : f.id ≠ MDL_FLAGS.id) :
    (m.fieldTo e n).rd f i = m.rd f i := by
  refine (rd_regs (y := if fieldClamp e ≠ e ∨ fieldClamp n ≠ n then m.mdlFlag MDL_FLAGS_FIELD_RANGE else m) rfl f i).trans ?_
  split
  · exact Chip.mdlFlag_rd_ne _ _ _ _ hp hf
  · rfl

theorem Chip.poseJumped_shows (m : Chip) (p : Pose) (dE dN : Int) :
    (m.poseJumped p dE dN).mdl.pose = none ∧ (m.poseJumped p dE dN).rd MDL_POSE_STAT_BUSY = 0 ∧
    bitAt ((m.poseJumped p dE dN).rd MDL_FLAGS) MDL_FLAGS_FIELD_JUMP = true ∧
    (m.poseJumped p dE dN).mdl.e = fieldClamp (m.mdl.e + dE) ∧ (m.poseJumped p dE dN).mdl.n = fieldClamp (m.mdl.n + dN) := by
  unfold Chip.poseJumped
  extract_lets taken moved _fig uncorrected
  have figures : moved.mdl = { taken.mdl with e := fieldClamp (taken.mdl.e + dE), n := fieldClamp (taken.mdl.n + dN) } := taken.fieldTo_mdl _ _
  have busy : uncorrected.rd MDL_POSE_STAT_BUSY = 0 :=
    (taken.fieldTo_rd _ _ MDL_POSE_STAT_BUSY 0 (by decide) (by decide)).trans m.poseTaken_shows.2
  simp only [Chip.mdlFlag_mdl]
  refine ⟨?_, (Chip.mdlFlag_rd_ne _ _ _ _ (by decide) (by decide)).trans busy, Chip.mdlFlag_bit _ _ (by decide), ?_, ?_⟩
  · exact congrArg Mandrel.pose figures
  · exact congrArg Mandrel.e figures
  · exact congrArg Mandrel.n figures

/-- A correction towards a pose within the gate. -/
def Chip.poseCorrected (m : Chip) (p : Pose) (dE dN : Int) (psiH : Int) : Chip :=
  let m := m.poseTaken
  let m := { m with mdl := { m.mdl with corrE := dE, corrN := dN } }
  if p.hdgValid then m.headingLoop p psiH else m

theorem Chip.poseProcess_correct {m : Chip} {p : Pose} {dE dN : Int} (front : m.mdl.pose = some p) (later : m.mdl.firstPose = false)
    (unset : m.mdl.fieldSet = false) (few : m.mdl.poseRejects < m.rd MDL_POSE_CFG_REJ_MAX) (hE : dE = fx p.e - (m.histAtTb p.tb).e)
    (hN : dN = fx p.n - (m.histAtTb p.tb).n)
    (near : dE * dE + dN * dN ≤ fx (m.rd MDL_POSE_CFG_GATE * max p.sigma 10) * fx (m.rd MDL_POSE_CFG_GATE * max p.sigma 10)) :
    m.poseProcess = (m.poseCorrected p dE dN (m.histAtTb p.tb).psi).poseAccept p (max p.sigma 10) (m.histAtTb p.tb).psi 1 := by
  have gate : m.poseTaken.rd MDL_POSE_CFG_GATE = m.rd MDL_POSE_CFG_GATE := Chip.rd_wr_ne _ _ _ _ _ _ (by decide)
  have rejMax : m.poseTaken.rd MDL_POSE_CFG_REJ_MAX = m.rd MDL_POSE_CFG_REJ_MAX := Chip.rd_wr_ne _ _ _ _ _ _ (by decide)
  have stays : ¬ (m.poseTaken.mdl.firstPose = true ∨ m.poseTaken.mdl.fieldSet = true ∨
      m.poseTaken.rd MDL_POSE_CFG_REJ_MAX ≤ m.poseTaken.mdl.poseRejects) := by
    rw [rejMax]
    exact fun h => h.elim (fun h => absurd (later.symm.trans h) (by decide))
      fun h => h.elim (fun h => absurd (unset.symm.trans h) (by decide)) (Nat.not_le_of_lt few)
  unfold Chip.poseProcess
  rw [front]
  subst hE hN
  rw [← gate] at near
  exact (if_neg stays).trans (if_neg (Int.not_lt.2 near))

theorem Chip.poseCorrected_shows (m : Chip) (p : Pose) (dE dN psiH : Int) :
    (m.poseCorrected p dE dN psiH).mdl.corrE = dE ∧ (m.poseCorrected p dE dN psiH).mdl.corrN = dN ∧
    (m.poseCorrected p dE dN psiH).mdl.e = m.mdl.e ∧ (m.poseCorrected p dE dN psiH).mdl.n = m.mdl.n ∧
    (m.poseCorrected p dE dN psiH).rd MDL_POSE_STAT_BUSY = 0 := by
  unfold Chip.poseCorrected
  extract_lets taken _fig corrected
  have kept : corrected.SameField (if p.hdgValid then corrected.headingLoop p psiH else corrected) :=
    (corrected.headingLoop_field p psiH).ite (SameField.refl corrected)
  exact ⟨kept.corrE, kept.corrN, kept.e, kept.n, kept.busy.trans m.poseTaken_shows.2⟩

/-! ## Loss and FIELD_SET (R103, R106) -/

theorem exec_poseTimeout (s : State) : exec .poseTimeout s = .next { s with chip := s.chip.poseTimeout } := rfl

theorem exec_fieldSet {who : Writer} {s : State} (ok : s.chip.geomOk who = true) :
    exec (.fieldSet who) s = .next { s with chip := s.chip.fieldSetCmd } := by
  change execFieldSet who s = _
  simp [execFieldSet, ok]

theorem Chip.slotLose_pose {m : Chip} (on : m.rd MDL_POSE_STAT_LOOP ≠ 0) (live : m.rd MDL_POSE_STAT_LOOP ≠ 5) :
    m.slotLose poseSlot = m.wr MDL_POSE_STAT_LOOP 0 5 := if_neg (not_or.2 ⟨on, live⟩)

theorem Chip.poseTimeout_due {m : Chip} (cur : m.rd MDL_STAT_POSE_CUR ≠ 0) (late : m.mdl.acceptTb + m.rd MDL_POSE_TMO_TMO * msTb ≤ m.tb)
    (on : m.rd MDL_POSE_STAT_LOOP ≠ 0) (live : m.rd MDL_POSE_STAT_LOOP ≠ 5) :
    m.poseTimeout =
      (((m.wr MDL_STAT_POSE_CUR 0 0).wr MDL_STAT_FIELD_DR 0 1).mdlFlag MDL_FLAGS_POSE_LOST).wr MDL_POSE_STAT_LOOP 0 5 := by
  have same : (((m.wr MDL_STAT_POSE_CUR 0 0).wr MDL_STAT_FIELD_DR 0 1).mdlFlag MDL_FLAGS_POSE_LOST).rd MDL_POSE_STAT_LOOP = m.rd MDL_POSE_STAT_LOOP := by
    rw [Chip.mdlFlag_rd_ne _ _ _ _ (by decide) (by decide), Chip.rd_wr_ne _ _ _ _ _ _ (by decide), Chip.rd_wr_ne _ _ _ _ _ _ (by decide)]
  exact (if_pos ⟨by simp [Chip.rdB, cur], late⟩).trans (Chip.slotLose_pose (by rwa [same]) (by rwa [same]))

/-- Settles O14: each clause by the branch of its command; the pose loop and the heading leave the field position. -/
theorem posesAndField : Obligations.PosesAndField := by
  unfold Obligations.PosesAndField
  refine ⟨?_, ?_, ?_, ?_, ?_, ?_⟩
  · intro who s ok pass
    refine ⟨_, exec_poseCommit ok, ?_⟩
    dsimp only
    rw [Chip.poseCommit_taken pass]
    exact ⟨rfl, Chip.rd_wr_same _ _ _ _, ((SameRegs.rfl _ _ s.chip).regs rfl).wr (.inr (by simp))⟩
  · intro who c s ok fail ne
    subst fail
    refine ⟨_, exec_poseCommit ok, ?_⟩
    dsimp only
    rw [Chip.poseCommit_refused ne]
    refine ⟨by rw [Chip.mdlFlag_mdl]; rfl, ?_, Chip.mdlFlag_bit _ _ (by decide),
      ((SameRegs.rfl _ _ _).wr (.inr (by simp))).mdlFlag (by simp) (by simp)⟩
    rw [Chip.mdlFlag_rd_ne _ _ _ _ (by decide) (by decide), Chip.rd_wr_same]
    exact Nat.mod_eq_of_lt (s.chip.poseTest_lt _)
  · intro p s front first
    obtain ⟨mdl, regs⟩ := s.chip.posesDone_mandrel
    obtain ⟨taken, idle, flag, e, n⟩ := s.chip.poseJumped_shows p (fx p.e - (s.chip.histAtTb p.tb).e) (fx p.n - (s.chip.histAtTb p.tb).n)
    have kept := ((SameField.refl (s.chip.poseJumped p (fx p.e - (s.chip.histAtTb p.tb).e) (fx p.n - (s.chip.histAtTb p.tb).n))).slotAcquire
      poseSlot).trans (Chip.poseAccept_field _ p (max p.sigma 10) (s.chip.histAtTb p.tb).psi 2)
    rw [Chip.poseProcess_jump front first] at mdl regs
    obtain ⟨last, ok, cur, dr, -⟩ := Chip.poseAccept_shows
      ((s.chip.poseJumped p (fx p.e - (s.chip.histAtTb p.tb).e) (fx p.n - (s.chip.histAtTb p.tb).n)).slotAcquire poseSlot) p (max p.sigma 10)
      (s.chip.histAtTb p.tb).psi 2
    refine ⟨_, exec_poseProcessed s, ?_⟩
    dsimp only
    rw [mdl, regs _ rfl, regs _ rfl, regs _ rfl, regs _ rfl, regs _ rfl, regs _ rfl]
    exact ⟨kept.pose.trans taken, kept.busy.trans idle, last, ok, cur, dr, kept.flags _ (by decide) flag, kept.e.trans e, kept.n.trans n⟩
  · intro p dE dN s front later unset few hE hN near
    obtain ⟨mdl, regs⟩ := s.chip.posesDone_mandrel
    obtain ⟨corrE, corrN, e, n, idle⟩ := s.chip.poseCorrected_shows p dE dN (s.chip.histAtTb p.tb).psi
    have kept := (s.chip.poseCorrected p dE dN (s.chip.histAtTb p.tb).psi).poseAccept_field p (max p.sigma 10) (s.chip.histAtTb p.tb).psi 1
    obtain ⟨last, -, cur, -, pose⟩ := Chip.poseAccept_shows (s.chip.poseCorrected p dE dN (s.chip.histAtTb p.tb).psi) p (max p.sigma 10)
      (s.chip.histAtTb p.tb).psi 1
    rw [Chip.poseProcess_correct front later unset few hE hN near] at mdl regs
    refine ⟨_, exec_poseProcessed s, ?_⟩
    dsimp only
    rw [mdl, regs _ rfl, regs _ rfl, regs _ rfl]
    exact ⟨kept.corrE.trans corrE, kept.corrN.trans corrN, kept.e.trans e, kept.n.trans n, last, cur, kept.busy.trans idle, pose⟩
  · intro s cur late on live
    refine ⟨_, exec_poseTimeout s, ?_⟩
    dsimp only
    rw [Chip.poseTimeout_due cur late on live]
    refine ⟨?_, ?_, Chip.rd_wr_same _ _ _ _, ?_,
      ((((SameRegs.rfl _ _ _).wr (.inr (by simp))).wr (.inr (by simp))).mdlFlag (by simp) (by simp)).wr (.inr (by simp))⟩
    · rw [Chip.rd_wr_ne _ _ _ _ _ _ (by decide), Chip.mdlFlag_rd_ne _ _ _ _ (by decide) (by decide), Chip.rd_wr_ne _ _ _ _ _ _ (by decide)]
      exact Chip.rd_wr_same _ _ _ _
    · rw [Chip.rd_wr_ne _ _ _ _ _ _ (by decide), Chip.mdlFlag_rd_ne _ _ _ _ (by decide) (by decide)]
      exact Chip.rd_wr_same _ _ _ _
    · rw [Chip.rd_wr_ne _ _ _ _ _ _ (by decide)]
      exact Chip.mdlFlag_bit _ _ (by decide)
  · intro who s ok
    exact ⟨_, exec_fieldSet ok, rfl, (SameRegs.rfl _ _ _).regs rfl⟩

end Sys2Proof.Machine
end

section
/-! PROOFS. Host yaw, loss of the yaw source, deflection values, clearing the learned scales (R94, R107-R111). -/

namespace Sys2Proof.Machine

/-! ## Yaw (R107, R108) -/

theorem exec_yawHostWrite {who : Writer} {w : Word} {s : State} (ok : s.chip.poseOk who = true) :
    exec (.yawHostWrite who w) s = .next { s with chip := s.chip.yawHost w.toNat } := by
  change execYawHostWrite who w s = _
  simp [execYawHostWrite, ok]

theorem exec_yawSourceTimeout (s : State) : exec .yawSourceTimeout s = .next { s with chip := s.chip.yawSelect } := rfl

/-- The flags of a choice of the active yaw source: from `was` to `now`, the two sources of MDL_YAW_CFG given. -/
def Chip.yawFlags (m : Chip) (p q was now : Nat) : Chip :=
  let m := if was ≠ 0 ∧ was = p ∧ now = q ∧ p ≠ q ∧ now ≠ 0 then m.mdlFlag MDL_FLAGS_YAW_FALLBACK else m
  if was ≠ 0 ∧ now = 0 then m.mdlFlag MDL_FLAGS_YAW_LOST else m

theorem Chip.yawFlags_mdl (m : Chip) (p q was now : Nat) : (m.yawFlags p q was now).mdl = m.mdl := by
  unfold Chip.yawFlags
  dsimp only
  split
  · rw [Chip.mdlFlag_mdl]
    split <;> simp only [Chip.mdlFlag_mdl]
  · split <;> simp only [Chip.mdlFlag_mdl]

theorem SameRegs.yawFlags {l : List (Field × Nat)} {pt : List Part} {x y : Chip} {p q was now : Nat} (h : SameRegs l pt x y)
    (hi : Part.rInt ∈ pt) (hm : (MDL_FLAGS, 0) ∈ l) : SameRegs l pt x (y.yawFlags p q was now) := by
  have fallen : SameRegs l pt x (if was ≠ 0 ∧ was = p ∧ now = q ∧ p ≠ q ∧ now ≠ 0 then y.mdlFlag MDL_FLAGS_YAW_FALLBACK else y) :=
    (h.mdlFlag hi hm).ite h
  exact (fallen.mdlFlag hi hm).ite fallen

/-- The active yaw source that a choice gives. -/
def Chip.yawNow (m : Chip) : Nat :=
  if m.yawLive (yawCode (m.rd MDL_YAW_CFG_PRI)) then yawCode (m.rd MDL_YAW_CFG_PRI)
  else if m.yawLive (yawCode (m.rd MDL_YAW_CFG_SEC)) then yawCode (m.rd MDL_YAW_CFG_SEC)
  else 0

/-- The chip after a choice of the yaw source, but for the rate. -/
def Chip.yawShown (m : Chip) : Chip :=
  (m.wr MDL_STAT_YAW_ACT 0 m.yawNow).yawFlags (yawCode (m.rd MDL_YAW_CFG_PRI)) (yawCode (m.rd MDL_YAW_CFG_SEC)) (m.rd MDL_STAT_YAW_ACT) m.yawNow

theorem Chip.yawSelect_eq (m : Chip) :
    m.yawSelect = { m.yawShown with mdl := { m.yawShown.mdl with
      omega := if m.yawNow = 0 then 0 else (m.yawShown.yawSrc m.yawNow).rate } } := rfl

theorem Chip.yawShown_mdl (m : Chip) : m.yawShown.mdl = m.mdl := Chip.yawFlags_mdl _ _ _ _ _

theorem Chip.yawSelect_mdl (m : Chip) :
    m.yawSelect.mdl = { m.mdl with omega := if m.yawNow = 0 then 0 else (m.yawSrc m.yawNow).rate } := by
  rw [Chip.yawSelect_eq]
  unfold Chip.yawSrc
  rw [Chip.yawShown_mdl]

theorem Chip.yawSelect_still {m : Chip} (none_ : m.yawNow = 0) : m.yawSelect.mdl.omega = 0 := by
  rw [Chip.yawSelect_mdl, if_pos none_]

theorem Chip.yawSelect_regs (m : Chip) : SameRegs [(MDL_STAT_YAW_ACT, 0), (MDL_FLAGS, 0)] [.rInt] m m.yawSelect := by
  rw [Chip.yawSelect_eq]
  exact SameRegs.regs (((SameRegs.rfl _ _ m).wr (.inr (by simp))).yawFlags (by simp) (by simp)) rfl

theorem Chip.yawSelect_act (m : Chip) : m.yawSelect.rd MDL_STAT_YAW_ACT = m.yawNow % 2 ^ MDL_STAT_YAW_ACT.w := by
  have flags : SameRegs [(MDL_FLAGS, 0)] [.rInt] (m.wr MDL_STAT_YAW_ACT 0 m.yawNow) m.yawShown := (SameRegs.rfl _ _ _).yawFlags (by simp) (by simp)
  rw [Chip.yawSelect_eq]
  exact (flags.rd (f := MDL_STAT_YAW_ACT) (by decide) (by decide) 0).trans (Chip.rd_wr_same _ _ _ _)

/-- The yaw source is lost: the rate is 0. -/
theorem Chip.yawSelect_lost {m : Chip} (none_ : m.yawNow = 0) (had : m.rd MDL_STAT_YAW_ACT ≠ 0) :
    bitAt (m.yawSelect.rd MDL_FLAGS) MDL_FLAGS_YAW_LOST = true := by
  rw [Chip.yawSelect_eq]
  change bitAt (m.yawShown.rd MDL_FLAGS) MDL_FLAGS_YAW_LOST = true
  unfold Chip.yawShown Chip.yawFlags
  dsimp only
  rw [if_pos (⟨had, none_⟩ : _ ∧ _)]
  exact Chip.mdlFlag_bit _ _ (by decide)

/-- A source of the host has a new rate. -/
def Chip.yawFed (m : Chip) (c : Nat) (rate : Int) : Chip := { m with mdl := { m.mdl with yaw := tabPut m.mdl.yaw c ⟨rate, some m.tb⟩ } }

theorem Chip.yawFed_src (m : Chip) (c : Nat) (rate : Int) : (m.yawFed c rate).yawSrc c = ⟨rate, some m.tb⟩ := tabGet_put_same _ _ _ _

theorem Chip.yawFed_live (m : Chip) {c : Nat} (h : c ≠ 0) (rate : Int) : (m.yawFed c rate).yawLive c = true := by
  unfold Chip.yawLive
  rw [Chip.yawFed_src]
  exact (if_neg h).trans (decide_eq_true (Nat.le_add_right _ _))

/-- What a sample leaves of the choice it brings. -/
theorem Chip.yawSample_keeps (m : Chip) (c : Nat) (rate : Int) (ts : Nat) :
    (m.yawSample c rate ts).regs = (m.yawFed c rate).yawSelect.regs ∧ (m.yawSample c rate ts).mdl.yaw = (m.yawFed c rate).yawSelect.mdl.yaw ∧
    (m.yawSample c rate ts).mdl.omega = (m.yawFed c rate).yawSelect.mdl.omega := by
  have eq : m.yawSample c rate ts =
      if (m.yawFed c rate).yawSelect.rd MDL_STAT_YAW_ACT = c then
        { (m.yawFed c rate).yawSelect with mdl := { (m.yawFed c rate).yawSelect.mdl with
          rateAcc := (m.yawFed c rate).yawSelect.mdl.rateAcc + (rate - (m.yawFed c rate).mdl.omega)
          rateTbAcc := (m.yawFed c rate).yawSelect.mdl.rateTbAcc + (rate - (m.yawFed c rate).mdl.omega) * ts } }
      else (m.yawFed c rate).yawSelect := rfl
  rw [eq]
  split <;> exact ⟨rfl, rfl, rfl⟩

/-- A sample of the primary source acts at once. -/
theorem Chip.yawSample_primary {m : Chip} {c : Nat} (h : c ≠ 0) (small : c < 2 ^ MDL_STAT_YAW_ACT.w) (pri : yawCode (m.rd MDL_YAW_CFG_PRI) = c)
    (rate : Int) (ts : Nat) :
    (m.yawSample c rate ts).yawSrc c = ⟨rate, some m.tb⟩ ∧ (m.yawSample c rate ts).rd MDL_STAT_YAW_ACT = c ∧
    (m.yawSample c rate ts).mdl.omega = rate := by
  obtain ⟨regs, yaw, omega⟩ := m.yawSample_keeps c rate ts
  have pri' : yawCode ((m.yawFed c rate).rd MDL_YAW_CFG_PRI) = c := pri
  have now : (m.yawFed c rate).yawNow = c := by
    unfold Chip.yawNow
    rw [pri', if_pos (m.yawFed_live h rate)]
  refine ⟨?_, ?_, ?_⟩
  · unfold Chip.yawSrc
    rw [yaw, Chip.yawSelect_mdl]
    exact m.yawFed_src c rate
  · rw [rd_regs regs, Chip.yawSelect_act, now]
    exact Nat.mod_eq_of_lt small
  · rw [omega, Chip.yawSelect_mdl, now, Chip.yawFed_src]
    exact if_neg h

/-! ## Deflection (R110, R111) -/

theorem exec_deflectionSample (d : Df) (s : State) : exec (.deflectionSample d) s = .next { s with chip := s.chip.deflNext d.val } := rfl

theorem exec_deflectionTimeout (d : Df) (s : State) : exec (.deflectionTimeout d) s = .next { s with chip := s.chip.deflTimeout d.val } := rfl

def Chip.setDfl (m : Chip) (d : Nat) (x : Defl) : Chip := { m with mdl := { m.mdl with defl := tabPut m.mdl.defl d x } }

@[simp] theorem Chip.setDfl_same (m : Chip) (d : Nat) (x : Defl) : (m.setDfl d x).dfl d = x := tabGet_put_same _ _ _ _

theorem Chip.deflTake_eq (m : Chip) (d : Nat) (raw : Int) :
    m.deflTake d raw = m.setDfl d { m.dfl d with target := (raw - m.rdI MDL_DF_OFS d) * m.rdI MDL_DF_SCALE d * 65536, tb := some m.tb, lost := false } :=
  rfl

theorem Chip.deflNext_on {m : Chip} {d : Nat} {r : Int} {rs : List Int} (front : (m.dfl d).inbox = r :: rs) (on : m.rd MDL_DF_CFG_SRC d ≠ 0) :
    m.deflNext d = (m.setDfl d { m.dfl d with inbox := rs }).deflTake d r := by
  unfold Chip.deflNext
  simp only [front]
  exact if_neg on

theorem Chip.deflTimeout_due {m : Chip} {d : Nat} (on : m.rd MDL_DF_CFG_SRC d ≠ 0) (live : (m.dfl d).lost = false)
    (late : (m.dfl d).tb.getD 0 + m.rd MDL_DF_CFG_TMO d * msTb ≤ m.tb) :
    m.deflTimeout d = (m.setDfl d { m.dfl d with lost := true, rate := 0 }).mdlFlag MDL_FLAGS_DEFL_LOST :=
  if_pos ⟨on, by rw [live]; rfl, late⟩

theorem Chip.mdlFlag_dfl (m : Chip) (b d : Nat) : (m.mdlFlag b).dfl d = m.dfl d := by
  unfold Chip.dfl
  rw [Chip.mdlFlag_mdl]

/-! ## Clearing the learned scales (R94) -/

theorem exec_learnClr {who : Writer} {s : State} (ok : s.chip.geomOk who = true) :
    exec (.learnClr who) s = .next { s with chip := s.chip.learnClearAll } := by
  change execLearnClr who s = _
  simp [execLearnClr, ok]

theorem Chip.learnClear_rd_ne (m : Chip) (k : Nat) (f : Field) (i : Nat) (h : f.id ≠ MDL_SRC_SCALE_L.id) : (m.learnClear k).rd f i = m.rd f i :=
  Chip.rd_wr_ne _ _ _ _ _ _ h

theorem Chip.learnClear_same (m : Chip) (k : Nat) : (m.learnClear k).rd MDL_SRC_SCALE_L k = m.rd MDL_SRC_SCALE k % 2 ^ MDL_SRC_SCALE_L.w :=
  Chip.rd_wr_same _ _ _ _

theorem Chip.learnClears_scale (m : Chip) (l : List Nat) (i : Nat) : (l.foldl Chip.learnClear m).rd MDL_SRC_SCALE i = m.rd MDL_SRC_SCALE i :=
  Chip.foldl_rd (fun y k => y.learnClear_rd_ne k _ _ (by decide)) _ _

theorem Chip.learnClears_other (m : Chip) {l : List Nat} {j : Nat} (h : j ∉ l) :
    (l.foldl Chip.learnClear m).rd MDL_SRC_SCALE_L j = m.rd MDL_SRC_SCALE_L j := by
  induction l generalizing m with
  | nil => rfl
  | cons k r ih =>
    obtain ⟨ne, rest⟩ := not_or.1 (mt List.mem_cons.2 h)
    exact (ih _ rest).trans (Chip.rd_wr_at _ _ _ _ _ _ ne)

theorem Chip.learnClearAll_shows (m : Chip) (k : Fin 8) :
    m.learnClearAll.rd MDL_SRC_SCALE_L k.val = m.rd MDL_SRC_SCALE k.val % 2 ^ MDL_SRC_SCALE_L.w := by
  obtain ⟨pre, post, split, -, rest⟩ := row_once k
  unfold Chip.learnClearAll
  rw [split, List.foldl_append, List.foldl_cons, Chip.learnClears_other _ rest, Chip.learnClear_same, Chip.learnClears_scale]

/-- Settles O15: each clause by the branch of its command; a sample of the primary source is the choice of that source. -/
theorem yawDeflectionLearning : Obligations.YawDeflectionLearning := by
  unfold Obligations.YawDeflectionLearning
  refine ⟨?_, ?_, ?_, ?_, ?_⟩
  · intro who w s ok pri
    have pri' : yawCode ((s.chip.wr MDL_YAW_HOST 0 w.toNat).rd MDL_YAW_CFG_PRI) = 2 := by
      rw [Chip.rd_wr_ne _ _ _ _ _ _ (by decide), pri]
      rfl
    obtain ⟨src, act, omega⟩ := Chip.yawSample_primary (by decide) (by decide) pri' (fx (toSigned 32 w.toNat)) s.chip.tb
    obtain ⟨regs, -⟩ := (s.chip.wr MDL_YAW_HOST 0 w.toNat).yawSample_keeps 2 (fx (toSigned 32 w.toNat)) s.chip.tb
    have host : (s.chip.yawHost w.toNat).rd MDL_YAW_HOST = w.toNat := by
      refine (rd_regs regs _ _).trans (((Chip.yawSelect_regs _).rd (by decide) (by decide) 0).trans ((Chip.rd_wr_same _ _ _ _).trans ?_))
      exact Nat.mod_eq_of_lt w.isLt
    exact ⟨_, exec_yawHostWrite ok, host, congrArg YawSrc.rate src, congrArg YawSrc.tb src, act, omega⟩
  · intro s pri sec had
    have none_ : s.chip.yawNow = 0 := by
      unfold Chip.yawNow
      rw [pri, sec]
      rfl
    have idle : s.chip.yawSelect.rd MDL_STAT_YAW_ACT = 0 := by
      rw [Chip.yawSelect_act, none_]
      rfl
    exact ⟨_, exec_yawSourceTimeout s, idle, Chip.yawSelect_still none_, Chip.yawSelect_lost none_ had, Chip.yawSelect_regs _⟩
  · intro d r rs s front on
    refine ⟨_, exec_deflectionSample d s, ?_⟩
    dsimp only
    rw [Chip.deflNext_on front on, Chip.deflTake_eq, Chip.setDfl_same, Chip.setDfl_same]
    exact ⟨rfl, rfl, rfl, rfl, rfl, (SameRegs.rfl _ _ _).regs rfl⟩
  · intro d s on live late
    refine ⟨_, exec_deflectionTimeout d s, ?_⟩
    dsimp only
    rw [Chip.deflTimeout_due on live late, Chip.mdlFlag_dfl, Chip.setDfl_same]
    refine ⟨rfl, rfl, rfl, Chip.mdlFlag_bit _ _ (by decide), SameRegs.mdlFlag ?_ (by simp) (by simp)⟩
    exact (SameRegs.rfl _ _ _).regs rfl
  · intro who k s ok
    exact ⟨_, exec_learnClr ok, s.chip.learnClearAll_shows k, s.chip.learnClears_scale _ _⟩

end Sys2Proof.Machine
end

section
/-! PROOFS. AX_CFG, and the snapshots of Mandrel and of an axis (R114, R117, R120). -/

namespace Sys2Proof.Machine

theorem Chip.wrFit_rd_ne (m : Chip) (f : Field) (i : Nat) (v : Int) (g : Field) (j : Nat) (h : g.id ≠ f.id) :
    (m.wrFit f i v).rd g j = m.rd g j := by
  unfold Chip.wrFit
  split
  · exact Chip.rd_wr_ne _ _ _ _ _ _ h
  · exact Chip.rd_wr_ne _ _ _ _ _ _ h

/-! ## The state of an axis (R115) -/

theorem Chip.axState_le (m : Chip) (i : Nat) : m.axState i ≤ 2 := by
  unfold Chip.axState
  dsimp only
  split
  · decide
  split
  · split <;> decide
  · split <;> decide

/-- The flags of an axis that changes its state. -/
def Chip.axFlags (m : Chip) (i old new : Nat) : Chip :=
  let m := if new = 2 ∧ old ≠ 2 then m.axFlag i 2 else m
  if old = 2 ∧ new ≠ 2 then m.axFlag i 3 else m

theorem Chip.axEnter_eq (m : Chip) (i : Nat) : m.axEnter i = (m.wr AX_STAT_STATE i (m.axState i)).axFlags i (m.rd AX_STAT_STATE i) (m.axState i) := rfl

theorem Chip.axFlags_axes (m : Chip) (i old new : Nat) : (m.axFlags i old new).axes = m.axes := by
  unfold Chip.axFlags
  dsimp only
  split <;> split <;> rfl

theorem Chip.axFlags_rd (m : Chip) (i old new : Nat) (f : Field) (j : Nat) (h : f.id ≠ AX_FLAGS.id) : (m.axFlags i old new).rd f j = m.rd f j := by
  have flag : ∀ (y : Chip) b, (y.axFlag i b).rd f j = y.rd f j := fun y b => Chip.setFlag_rd_ne _ _ _ _ _ _ h
  unfold Chip.axFlags
  dsimp only
  split
  · rw [flag]
    split
    · exact flag _ _
    · rfl
  · split
    · exact flag _ _
    · rfl

theorem Chip.axEnter_rd (m : Chip) (i : Nat) (f : Field) (j : Nat) (hs : f.id ≠ AX_STAT_STATE.id) (hf : f.id ≠ AX_FLAGS.id) :
    (m.axEnter i).rd f j = m.rd f j := (Chip.axFlags_rd _ _ _ _ _ _ hf).trans (Chip.rd_wr_ne _ _ _ _ _ _ hs)

theorem Chip.axEnter_axis (m : Chip) (i j : Nat) : (m.axEnter i).axis j = m.axis j := by
  unfold Chip.axis
  rw [Chip.axEnter_eq, Chip.axFlags_axes]
  rfl

theorem Chip.axEnter_axState (m : Chip) (i j : Nat) : (m.axEnter i).axState j = m.axState j := by
  have same : ∀ f ∈ [AX_CFG_KIND, AX_CFG_SLOT, MDL_STAT_STATE, MDL_POSE_STAT_LOOP, MDL_SRC_STAT_STATE], ∀ k, (m.axEnter i).rd f k = m.rd f k := by
    have other : ∀ f ∈ [AX_CFG_KIND, AX_CFG_SLOT, MDL_STAT_STATE, MDL_POSE_STAT_LOOP, MDL_SRC_STAT_STATE],
        f.id ≠ AX_STAT_STATE.id ∧ f.id ≠ AX_FLAGS.id := by decide
    exact fun f hf k => m.axEnter_rd i f k (other f hf).1 (other f hf).2
  have kind : (m.axEnter i).axKind j = m.axKind j := by
    unfold Chip.axKind
    rw [same AX_CFG_KIND (by decide)]
  have slot : ∀ k, (m.axEnter i).slotState k = m.slotState k := fun k => by
    unfold Chip.slotState
    rw [same MDL_POSE_STAT_LOOP (by decide), same MDL_SRC_STAT_STATE (by decide)]
  unfold Chip.axState
  rw [kind, same MDL_STAT_STATE (by decide), same AX_CFG_SLOT (by decide), slot]

/-- The state shown is the state the axis stands in. -/
theorem Chip.axEnter_state (m : Chip) (i : Nat) : (m.axEnter i).rd AX_STAT_STATE i = (m.axEnter i).axState i := by
  rw [Chip.axEnter_axState, Chip.axEnter_eq, Chip.axFlags_rd _ _ _ _ _ _ (by decide), Chip.rd_wr_same]
  exact Nat.mod_eq_of_lt (Nat.lt_of_le_of_lt (m.axState_le i) (by decide))

/-! ## AX_CFG (R114, R117) -/

theorem exec_axCfgWrite {who : Writer} {a : Ax} {w : Word} {s : State}
    (ok : (s.chip.isOwner who (s.chip.axOwner a.val) && s.chip.runs islAxis) = true) :
    exec (.axCfgWrite who a w) s = .next { s with chip := s.chip.axCfgWrite a.val w.toNat } := by
  change execAxCfgWrite who a w s = _
  unfold execAxCfgWrite State.upd
  dsimp only
  rw [if_pos ok]

/-- The kind and the slot of an axis, as a write of w leaves them. -/
def Chip.axWritten (m : Chip) (a w : Nat) : Chip := (m.wrFrom AX_CFG_KIND a w).wrFrom AX_CFG_SLOT a w

theorem Chip.axWritten_kind (m : Chip) (a w : Nat) : (m.axWritten a w).rd AX_CFG_KIND a = wordField AX_CFG_KIND w := by
  unfold Chip.axWritten Chip.wrFrom
  rw [Chip.rd_wr_ne _ _ _ _ _ _ (by decide), Chip.rd_wr_same]
  exact Nat.mod_eq_of_lt (Nat.mod_lt _ (by decide))

/-- An axis that is turned on, at position 0; what it published last stays readable. -/
def Chip.axBegun (m : Chip) (a : Nat) : Chip := { m with axes := tabPut m.axes a { old := m.axPub a, offOrder := (m.axis a).offOrder } }

theorem Chip.axBegun_axis (m : Chip) (a : Nat) : (m.axBegun a).axis a = { old := m.axPub a, offOrder := (m.axis a).offOrder } := tabGet_put_same _ _ _ _

theorem Chip.axCfgWrite_on {m : Chip} {a w : Nat} (off : m.axKind a = 0) (kind : wordField AX_CFG_KIND w = 1) :
    m.axCfgWrite a w = ((m.axWritten a w).axBegun a).axEnter a := by
  have on : (m.axWritten a w).axKind a ≠ 0 := by
    unfold Chip.axKind
    rw [Chip.axWritten_kind, kind]
    decide
  unfold Chip.axCfgWrite
  rw [if_neg (not_not_intro off)]
  exact if_neg on

theorem Chip.axCfgWrite_off {m : Chip} {a w : Nat} (on : m.axKind a ≠ 0) (kind : wordField AX_CFG_KIND w = 0) : m.axCfgWrite a w = m.axOff a := by
  unfold Chip.axCfgWrite
  rw [if_pos on, if_pos kind]

theorem Chip.axOff_shows (m : Chip) (a : Nat) : (m.axOff a).rd AX_CFG_KIND a = 0 ∧ (m.axOff a).rd AX_STAT_STATE a = 0 := by
  unfold Chip.axOff
  have kind : ∀ x : Chip, (x.wr AX_CFG_KIND a 0).rd AX_CFG_KIND a = 0 := fun x => Chip.rd_wr_same _ _ _ _
  constructor
  · rw [Chip.axEnter_rd _ _ _ _ (by decide) (by decide), kind]
  · rw [Chip.axEnter_state, Chip.axEnter_axState]
    unfold Chip.axState Chip.axKind
    rw [kind]
    rfl

/-! ## Snapshots (R120) -/

theorem exec_mdlSnapshotRead (s : State) : exec .mdlSnapshotRead s = .next { s with chip := s.chip.mdlSnapshot } := rfl

theorem exec_axSnapshotRead (a : Ax) (s : State) : exec (.axSnapshotRead a) s = .next { s with chip := s.chip.axSnapshot a.val } := rfl

/-- The registers of a snapshot of Mandrel. -/
def Chip.mdlShown (m : Chip) (x : ChassisPub) : Chip :=
  let m := m.wrTb MDL_TB_LO MDL_TB_HI 0 x.tb
  let m := (m.wr MDL_S_LO 0 (ofSigned 40 (fxInt x.s))).wr MDL_S_HI 0 (ofSigned 40 (fxInt x.s) / 2 ^ 32)
  let m := (m.wrFit MDL_V 0 (fxInt x.v)).wrFit MDL_A 0 (fxInt x.a)
  let m := (m.wr MDL_YAW 0 x.psi).wrFit MDL_YAWRATE 0 (fxInt x.rate)
  (m.wrI MDL_E 0 (fxInt x.e)).wrI MDL_N 0 (fxInt x.n)

theorem Chip.mdlSnapshot_eq (m : Chip) : m.mdlSnapshot = { m.mdlShown m.pubSeen with rdata := (m.mdlShown m.pubSeen).rd MDL_TB_LO } := rfl

theorem Chip.mdlShown_shows (m : Chip) (x : ChassisPub) :
    (m.mdlShown x).rd MDL_TB_LO = x.tb % 2 ^ 32 ∧ (m.mdlShown x).rd MDL_TB_HI = x.tb / 2 ^ 32 % 2 ^ 32 ∧
    (m.mdlShown x).rd MDL_S_LO = ofSigned 40 (fxInt x.s) % 2 ^ 32 ∧ (m.mdlShown x).rd MDL_S_HI = ofSigned 40 (fxInt x.s) / 2 ^ 32 ∧
    (m.mdlShown x).rd MDL_YAW = x.psi % 2 ^ MDL_YAW.w ∧ (m.mdlShown x).rd MDL_E = ofSigned MDL_E.w (fxInt x.e) := by
  have high : ofSigned 40 (fxInt x.s) / 2 ^ 32 < 2 ^ MDL_S_HI.w := Nat.div_lt_of_lt_mul (ofSigned_lt 40 _)
  unfold Chip.mdlShown Chip.wrI Chip.wrTb
  refine ⟨?_, ?_, ?_, ?_, ?_, ?_⟩ <;> simp (disch := decide) only [Chip.rd_wr_ne, Chip.wrFit_rd_ne, Chip.rd_wr_same]
  · rfl
  · rfl
  · rfl
  · exact Nat.mod_eq_of_lt high
  · exact Nat.mod_eq_of_lt (ofSigned_lt _ _)

/-- The fields of a snapshot of Mandrel. -/
def mdlFields : List (Field × Nat) :=
  [MDL_TB_LO, MDL_TB_HI, MDL_S_LO, MDL_S_HI, MDL_V, MDL_A, MDL_YAW, MDL_YAWRATE, MDL_E, MDL_N].map fun f => (f, 0)

theorem SameRegs.mdlShown (m : Chip) (x : ChassisPub) : SameRegs mdlFields [] m (m.mdlShown x) := by
  have time := (SameRegs.rfl mdlFields [] m).wrTb (lo := MDL_TB_LO) (hi := MDL_TB_HI) (i := 0) (t := x.tb) (by simp [mdlFields]) (by simp [mdlFields])
  have dist := (time.wr (f := MDL_S_LO) (i := 0) (v := ofSigned 40 (fxInt x.s)) (.inr (by simp [mdlFields]))).wr (f := MDL_S_HI) (i := 0)
    (v := ofSigned 40 (fxInt x.s) / 2 ^ 32) (.inr (by simp [mdlFields]))
  have speed := (dist.wrFit (f := MDL_V) (i := 0) (v := fxInt x.v) (by simp [mdlFields])).wrFit (f := MDL_A) (i := 0) (v := fxInt x.a)
    (by simp [mdlFields])
  have yaw := (speed.wr (f := MDL_YAW) (i := 0) (v := x.psi) (.inr (by simp [mdlFields]))).wrFit (f := MDL_YAWRATE) (i := 0) (v := fxInt x.rate)
    (by simp [mdlFields])
  exact (yaw.wr (.inr (by simp [mdlFields]))).wr (.inr (by simp [mdlFields]))

/-- A read of MDL_TB_LO, whichever tick it finds. -/
theorem mdlSnapshotRead_shows (s : State) (x : ChassisPub) (h : s.chip.pubSeen = x) :
    ∃ t, exec .mdlSnapshotRead s = .next t ∧ t.chip.rd MDL_TB_LO = x.tb % 2 ^ 32 ∧ t.chip.rd MDL_TB_HI = x.tb / 2 ^ 32 % 2 ^ 32 ∧
    t.chip.rd MDL_S_LO = ofSigned 40 (fxInt x.s) % 2 ^ 32 ∧ t.chip.rd MDL_S_HI = ofSigned 40 (fxInt x.s) / 2 ^ 32 ∧
    t.chip.rd MDL_YAW = x.psi % 2 ^ MDL_YAW.w ∧ t.chip.rd MDL_E = ofSigned MDL_E.w (fxInt x.e) ∧ t.chip.rdata = x.tb % 2 ^ 32 ∧
    SameRegs mdlFields [] s.chip t.chip := by
  obtain ⟨lo, hi, sLo, sHi, yaw, e⟩ := s.chip.mdlShown_shows x
  have kept := SameRegs.mdlShown s.chip x
  refine ⟨_, exec_mdlSnapshotRead s, ?_⟩
  dsimp only
  rw [Chip.mdlSnapshot_eq, h]
  exact ⟨lo, hi, sLo, sHi, yaw, e, lo, kept.regs rfl⟩

/-- The registers of a snapshot of an axis, at a TB. -/
def Chip.axShown (m : Chip) (a : Nat) (x : AxisPub) (t : Nat) : Chip :=
  let m := (m.wr AX_POS_LO a (x.pos / 65536)).wr AX_POS_HI a (x.pos / 65536 / 2 ^ 32)
  let m := m.wrTb AX_TB_LO AX_TB_HI a t
  let m := (m.wrFit AX_V a (fxInt x.v)).wrFit AX_A a (fxInt x.a)
  (m.wrFit AX_FE a (fxInt x.fe)).wrFit AX_FN a (fxInt x.fn)

theorem Chip.axSnapshot_eq {m : Chip} {a : Nat} {x : AxisPub} {t : Nat} (seen : (if m.tickAt = m.tb then (m.axis a).old else m.axPub a) = x)
    (time : (if m.tickAt = m.tb then m.tickAt - 200 else m.tickAt) = t) :
    m.axSnapshot a = { m.axShown a x t with rdata := (m.axShown a x t).rd AX_POS_LO a } := by
  subst seen time
  rfl

theorem Chip.axShown_shows (m : Chip) (a : Nat) (x : AxisPub) (t : Nat) :
    (m.axShown a x t).rd AX_POS_LO a = x.pos / 65536 % 2 ^ 32 ∧ (m.axShown a x t).rd AX_TB_LO a = t % 2 ^ 32 := by
  unfold Chip.axShown Chip.wrTb
  constructor <;> simp (disch := decide) only [Chip.rd_wr_ne, Chip.wrFit_rd_ne, Chip.rd_wr_same] <;> rfl

/-- The fields of a snapshot of an axis. -/
def axFields (a : Nat) : List (Field × Nat) := [AX_POS_LO, AX_POS_HI, AX_TB_LO, AX_TB_HI, AX_V, AX_A, AX_FE, AX_FN].map fun f => (f, a)

theorem SameRegs.axShown (m : Chip) (a : Nat) (x : AxisPub) (t : Nat) : SameRegs (axFields a) [] m (m.axShown a x t) := by
  have pos := ((SameRegs.rfl (axFields a) [] m).wr (f := AX_POS_LO) (i := a) (v := x.pos / 65536) (.inr (by simp [axFields]))).wr (f := AX_POS_HI)
    (i := a) (v := x.pos / 65536 / 2 ^ 32) (.inr (by simp [axFields]))
  have time := pos.wrTb (lo := AX_TB_LO) (hi := AX_TB_HI) (i := a) (t := t) (by simp [axFields]) (by simp [axFields])
  have speed := (time.wrFit (f := AX_V) (i := a) (v := fxInt x.v) (by simp [axFields])).wrFit (f := AX_A) (i := a) (v := fxInt x.a)
    (by simp [axFields])
  exact (speed.wrFit (by simp [axFields])).wrFit (by simp [axFields])

/-- A read of AX_POS_LO, whichever tick it finds. -/
theorem axSnapshotRead_shows (a : Ax) (s : State) (x : AxisPub) (t : Nat)
    (seen : (if s.chip.tickAt = s.chip.tb then (s.chip.axis a.val).old else s.chip.axPub a.val) = x)
    (time : (if s.chip.tickAt = s.chip.tb then s.chip.tickAt - 200 else s.chip.tickAt) = t) :
    ∃ u, exec (.axSnapshotRead a) s = .next u ∧ u.chip.rd AX_POS_LO a.val = x.pos / 65536 % 2 ^ 32 ∧ u.chip.rd AX_TB_LO a.val = t % 2 ^ 32 ∧
    u.chip.rdata = x.pos / 65536 % 2 ^ 32 ∧ SameRegs (axFields a.val) [] s.chip u.chip := by
  obtain ⟨pos, tb⟩ := s.chip.axShown_shows a.val x t
  have kept := SameRegs.axShown s.chip a.val x t
  refine ⟨_, exec_axSnapshotRead a s, ?_⟩
  dsimp only
  rw [Chip.axSnapshot_eq seen time]
  exact ⟨pos, tb, pos, kept.regs rfl⟩

/-- Settles O16: an axis enters its state as it is turned on or off, and a snapshot shows the publication that its tick leaves readable. -/
theorem axesAndSnapshots : Obligations.AxesAndSnapshots := by
  unfold Obligations.AxesAndSnapshots
  refine ⟨?_, ?_, ?_, ?_, ?_, ?_⟩
  · intro who a w s ok off kind
    refine ⟨_, exec_axCfgWrite ok, ?_⟩
    dsimp only
    rw [Chip.axCfgWrite_on off kind]
    refine ⟨?_, ?_, ?_, ?_, Chip.axEnter_state _ _⟩
    · rw [Chip.axEnter_rd _ _ _ _ (by decide) (by decide)]
      exact (Chip.axWritten_kind _ _ _).trans kind
    · rw [Chip.axEnter_axis, Chip.axBegun_axis]
    · rw [Chip.axEnter_axis, Chip.axBegun_axis]
    · rw [Chip.axEnter_axis, Chip.axBegun_axis]
      rfl
  · intro who a w s ok on kind
    refine ⟨_, exec_axCfgWrite ok, ?_⟩
    dsimp only
    rw [Chip.axCfgWrite_off on kind]
    exact Chip.axOff_shows _ _
  · intro s before
    exact mdlSnapshotRead_shows s _ (if_neg (Nat.ne_of_lt before))
  · intro s now
    exact mdlSnapshotRead_shows s _ (if_pos now)
  · intro a s before
    exact axSnapshotRead_shows a s _ _ (if_neg (Nat.ne_of_lt before)) (if_neg (Nat.ne_of_lt before))
  · intro a s now
    exact axSnapshotRead_shows a s _ _ (if_pos now) (if_pos now)

end Sys2Proof.Machine
end

section
/-! PROOFS. Rules of the drive's operations: what each leaves of the registers and of a channel's drive (R210-R217). -/

namespace Sys2Proof.Machine

/-- A field that is listed for one unit only is left of the others. -/
theorem SameRegs.rd_other {l : List (Field × Nat)} {p : List Part} {x y : Chip} (h : SameRegs l p x y) {f : Field} {k i : Nat} (hp : f.part ∉ p)
    (hl : (l.all fun q => q.1.id != f.id || q.2 == k) = true) (ne : i ≠ k) : y.rd f i = x.rd f i := by
  refine h f i hp fun q hq e => ?_
  have at_ := List.all_eq_true.1 hl q hq
  simp only [e, bne_self_eq_false, Bool.false_or, beq_iff_eq] at at_
  exact at_ ▸ ne

/-! ## A channel's drive -/

theorem Chip.drv_of_chans {x y : Chip} (h : y.chans = x.chans) (c : Nat) : y.drv c = x.drv c := by
  unfold Chip.drv Chip.chan
  rw [h]

/-- Two states of a channel's drive that a record of it for a lane may part. -/
def Drv.Agrees (x y : Drv) : Prop := ∃ log, x = { y with capLog := log }

theorem Drv.agrees_refl (x : Drv) : x.Agrees x := ⟨x.capLog, rfl⟩

theorem Chip.capNote_regs (m : Chip) (ch : Nat) : (m.capNote ch).regs = m.regs := by
  unfold Chip.capNote
  dsimp only
  split <;> rfl

theorem Chip.capNote_drv (m : Chip) (ch : Nat) : ((m.capNote ch).drv ch).Agrees (m.drv ch) := by
  unfold Chip.capNote
  dsimp only
  split
  · exact Drv.agrees_refl _
  · exact ⟨_, Chip.setDrv_drv _ _ _⟩

/-! ## The status of a bank -/

/-- The counts of a bank's status. -/
def bankFields (b : Nat) : List (Field × Nat) := [(BK_STAT_DECAY, b), (BK_STAT_WAITING, b)]

theorem Chip.bankStat_regs (m : Chip) (b : Nat) : SameRegs (bankFields b) [] m (m.bankStat b) :=
  ((SameRegs.rfl _ _ m).wr (.inr (by simp [bankFields]))).wr (.inr (by simp [bankFields]))

@[simp] theorem Chip.bankStat_drv (m : Chip) (b c : Nat) : (m.bankStat b).drv c = m.drv c := rfl

/-! ## Flags -/

/-- The fields of a drive flag. -/
def drvFlagFields (ch : Nat) : List (Field × Nat) := [(CH_DRV_FLAGS, ch), (BK_FLAGS, bankOf ch)]

theorem Chip.drvFlag_regs (m : Chip) (ch b : Nat) : SameRegs (drvFlagFields ch) [.rInt] m (m.drvFlag ch b) := by
  have flagged : SameRegs (drvFlagFields ch) [.rInt] m (m.setFlag CH_DRV_FLAGS ch b) :=
    (SameRegs.rfl _ _ m).setFlag (.inr (by simp [drvFlagFields]))
  exact (flagged.raise (by simp) (.inr (by simp [drvFlagFields]))).ite flagged

theorem Chip.drvFlag_flags (m : Chip) (ch b : Nat) : (m.drvFlag ch b).rd CH_DRV_FLAGS ch = setBit (m.rd CH_DRV_FLAGS ch) b % 2 ^ CH_DRV_FLAGS.w := by
  unfold Chip.drvFlag
  dsimp only
  split
  · exact (Chip.raise_rd_ne _ _ _ _ _ _ _ _ (by decide) (by decide)).trans (Chip.setFlag_rd_same _ _ _ _)
  · exact Chip.setFlag_rd_same _ _ _ _

theorem Chip.drvFlag_bit (m : Chip) (ch b : Nat) (h : b < CH_DRV_FLAGS.w) : bitAt ((m.drvFlag ch b).rd CH_DRV_FLAGS ch) b = true := by
  rw [Chip.drvFlag_flags]
  exact bitAt_setBit_mod _ _ _ h

theorem Chip.drvFlag_stands {m : Chip} {ch c : Nat} (h : bitAt (m.rd CH_DRV_FLAGS ch) c = true) (hc : c < CH_DRV_FLAGS.w) (b : Nat) :
    bitAt ((m.drvFlag ch b).rd CH_DRV_FLAGS ch) c = true := by
  rw [Chip.drvFlag_flags]
  exact bitAt_setBit_of h hc

theorem Chip.drvFlag_chans (m : Chip) (ch b : Nat) : (m.drvFlag ch b).chans = m.chans :=
  (Chip.drvFlag_moves .refl (within_refl _)).kept.chans (by decide)

@[simp] theorem Chip.drvFlag_drv (m : Chip) (ch b c : Nat) : (m.drvFlag ch b).drv c = m.drv c := Chip.drv_of_chans (m.drvFlag_chans ch b) c

theorem Chip.bkFlag_rd_ne (m : Chip) (n b : Nat) (f : Field) (i : Nat) (hp : f.part ≠ .rInt) (hf : f.id ≠ BK_FLAGS.id) :
    (m.bkFlag n b).rd f i = m.rd f i := Chip.raise_rd_ne _ _ _ _ _ _ _ _ hp hf

theorem Chip.bkFlag_bit (m : Chip) (n b : Nat) (h : b < BK_FLAGS.w) : bitAt ((m.bkFlag n b).rd BK_FLAGS n) b = true :=
  Chip.raise_bit _ _ _ _ _ _ (by decide) h

/-! ## Phases -/

/-- The fields of a channel that enters a phase. -/
def phaseFields (ch : Nat) : List (Field × Nat) := (CH_DRV_STAT_PHASE, ch) :: bankFields (bankOf ch)

theorem Chip.setPhase_regs (m : Chip) (ch ph : Nat) : SameRegs (phaseFields ch) [] m (m.setPhase ch ph) := by
  unfold Chip.setPhase
  extract_lets +onlyGivenNames old d iv shown kept
  have written : SameRegs (phaseFields ch) [] m shown := (SameRegs.rfl _ _ m).wr (.inr (by simp [phaseFields]))
  have noted : SameRegs (phaseFields ch) [] m (kept.capNote ch) := (written.setDrv).regs (Chip.capNote_regs _ _)
  exact noted.trans ((Chip.bankStat_regs _ _).mono (by simp [phaseFields]))

theorem Chip.setPhase_phase (m : Chip) (ch : Nat) {ph : Nat} (h : ph < 2 ^ CH_DRV_STAT_PHASE.w) : (m.setPhase ch ph).phase ch = ph := by
  unfold Chip.setPhase
  extract_lets +onlyGivenNames old d iv shown kept
  have written : (kept.capNote ch).rd CH_DRV_STAT_PHASE ch = ph % 2 ^ CH_DRV_STAT_PHASE.w :=
    (rd_regs (Chip.capNote_regs _ _) _ _).trans (Chip.rd_wr_same _ _ _ _)
  exact ((Chip.bankStat_regs _ _).rd (by decide) (by simp [bankFields]; decide) ch).trans (written.trans (Nat.mod_eq_of_lt h))

/-- A channel's drive after it enters a phase: since when it stands in it, and since when it is off. -/
theorem Chip.setPhase_drv (m : Chip) (ch ph : Nat) :
    ∃ iv, ((m.setPhase ch ph).drv ch).Agrees
      { m.drv ch with phaseTb := m.tb, onIv := iv, offSince := if ph = phOff ∧ m.phase ch ≠ phOff then m.tb else (m.drv ch).offSince } := by
  unfold Chip.setPhase
  extract_lets +onlyGivenNames old d iv shown kept
  have set : kept.drv ch =
      { m.drv ch with phaseTb := m.tb, onIv := iv, offSince := if ph = phOff ∧ m.phase ch ≠ phOff then m.tb else (m.drv ch).offSince } :=
    Chip.setDrv_drv _ _ _
  obtain ⟨log, eq⟩ := kept.capNote_drv ch
  exact ⟨iv, log, eq.trans (by rw [set])⟩

theorem Chip.setPhase_iBst (m : Chip) (ch ph : Nat) : ((m.setPhase ch ph).drv ch).iBst = (m.drv ch).iBst := by
  obtain ⟨_, _, eq⟩ := m.setPhase_drv ch ph
  rw [eq]

/-! ## The switches of a channel -/

/-- The fields of a channel's switches. -/
def swFields (ch : Nat) : List (Field × Nat) := [(CH_DRV_STAT_LS, ch), (CH_DRV_STAT_FW, ch)]

theorem Chip.setSw_regs (m : Chip) (ch : Nat) (ls fw : Bool) : SameRegs (swFields ch) [] m (m.setSw ch ls fw) := by
  unfold Chip.setSw
  extract_lets +onlyGivenNames d was ons pk shown on
  have written : SameRegs (swFields ch) [] m shown := ((SameRegs.rfl _ _ m).wr (.inr (by simp [swFields]))).wr (.inr (by simp [swFields]))
  exact written.setDrv.regs (Chip.capNote_regs _ _)

theorem Chip.setSw_shows (m : Chip) (ch : Nat) (ls fw : Bool) :
    (m.setSw ch ls fw).rd CH_DRV_STAT_LS ch = b2n ls ∧ (m.setSw ch ls fw).rd CH_DRV_STAT_FW ch = b2n fw := by
  have bit : ∀ b : Bool, b2n b % 2 ^ 1 = b2n b := by decide
  unfold Chip.setSw
  extract_lets +onlyGivenNames d was ons pk shown on
  refine ⟨(rd_regs (Chip.capNote_regs _ _) _ _).trans ?_, (rd_regs (Chip.capNote_regs _ _) _ _).trans ?_⟩
  · exact ((Chip.rd_wr_ne _ _ _ _ _ _ (by decide)).trans (Chip.rd_wr_same _ _ _ _)).trans (bit ls)
  · exact (Chip.rd_wr_same _ _ _ _).trans (bit fw)

/-- What the switches leave of a channel's drive. -/
theorem Chip.setSw_drv (m : Chip) (ch : Nat) (ls fw : Bool) :
    ∃ blank on ons pk, ((m.setSw ch ls fw).drv ch).Agrees { m.drv ch with blankTb := blank, onTb := on, ons := ons, pkOn := pk } := by
  unfold Chip.setSw
  extract_lets +onlyGivenNames d was ons pk shown on
  obtain ⟨log, eq⟩ := (shown.setDrv ch
    { d with blankTb := if was = ls then d.blankTb else shown.tb + max 1 d.blank * 50, onTb := on, ons := ons, pkOn := pk }).capNote_drv ch
  exact ⟨_, _, _, _, log, eq.trans (by rw [Chip.setDrv_drv])⟩

theorem Chip.setSw_tb (m : Chip) (ch : Nat) (ls fw : Bool) : (m.setSw ch ls fw).tb = m.tb :=
  (Chip.setSw_moves .refl (within_refl _)).kept.tb (by decide)

/-! ## A decay, and the entry into PEAK or HOLD -/

theorem Chip.decayAs_regs (m : Chip) (ch : Nat) (fast : Bool) : SameRegs (drvFlagFields ch) [.rInt] m (m.decayAs ch fast).2 := by
  unfold Chip.decayAs
  split
  · exact m.drvFlag_regs _ _
  split
  · exact m.drvFlag_regs _ _
  · exact SameRegs.rfl _ _ m

@[simp] theorem Chip.decayAs_drv (m : Chip) (ch c : Nat) (fast : Bool) : (m.decayAs ch fast).2.drv c = m.drv c := by
  unfold Chip.decayAs
  split
  · exact m.drvFlag_drv _ _ _
  split
  · exact m.drvFlag_drv _ _ _
  · rfl

theorem Chip.decayAs_stands {m : Chip} {ch c : Nat} (h : bitAt (m.rd CH_DRV_FLAGS ch) c = true) (hc : c < CH_DRV_FLAGS.w) (fast : Bool) :
    bitAt ((m.decayAs ch fast).2.rd CH_DRV_FLAGS ch) c = true := by
  unfold Chip.decayAs
  split
  · exact Chip.drvFlag_stands h hc _
  split
  · exact Chip.drvFlag_stands h hc _
  · exact h

/-- The step decay with which a channel enters a window. -/
def Chip.stepDecay (m : Chip) (ch : Nat) (fastStep : Bool) : Chip :=
  ((((m.decayAs ch fastStep).2.setSw ch false (!(m.decayAs ch fastStep).1)).setDrv ch
    { ((m.decayAs ch fastStep).2.setSw ch false (!(m.decayAs ch fastStep).1)).drv ch with step := some (m.decayAs ch fastStep).1 })).bankStat (bankOf ch)

theorem Chip.stepTo_eq (m : Chip) (ch ph : Nat) (fastStep : Bool) :
    m.stepTo ch ph fastStep =
      if ((m.setPhase ch ph).window ch ph).2 < (m.setPhase ch ph).iNow ch then (m.setPhase ch ph).stepDecay ch fastStep
      else if (m.setPhase ch ph).iNow ch ≤ ((m.setPhase ch ph).window ch ph).1 then (m.setPhase ch ph).setSw ch true false
      else m.setPhase ch ph := rfl

/-- The fields of a window's entry, but for the phase. -/
def windowFields (ch : Nat) : List (Field × Nat) := swFields ch ++ drvFlagFields ch ++ bankFields (bankOf ch)

theorem Chip.stepDecay_regs (m : Chip) (ch : Nat) (fastStep : Bool) : SameRegs (windowFields ch) [.rInt] m (m.stepDecay ch fastStep) := by
  have picked : SameRegs (windowFields ch) [.rInt] m (m.decayAs ch fastStep).2 := (m.decayAs_regs ch fastStep).mono (by simp [windowFields])
  have opened := picked.trans (((m.decayAs ch fastStep).2.setSw_regs ch false (!(m.decayAs ch fastStep).1)).weaken (by simp [windowFields]) (by simp))
  exact opened.setDrv.trans ((Chip.bankStat_regs _ _).weaken (by simp [windowFields]) (by simp))

theorem Chip.stepTo_after (m : Chip) (ch ph : Nat) (fastStep : Bool) :
    SameRegs (windowFields ch) [.rInt] (m.setPhase ch ph) (m.stepTo ch ph fastStep) := by
  rw [Chip.stepTo_eq]
  exact SameRegs.ite (Chip.stepDecay_regs _ _ _)
    (SameRegs.ite ((Chip.setSw_regs _ _ _ _).weaken (by simp [windowFields]) (by simp)) (SameRegs.rfl _ _ _))

theorem Chip.stepTo_regs (m : Chip) (ch ph : Nat) (fastStep : Bool) :
    SameRegs (phaseFields ch ++ windowFields ch) [.rInt] m (m.stepTo ch ph fastStep) :=
  ((m.setPhase_regs ch ph).weaken (by simp) (by simp)).trans ((m.stepTo_after ch ph fastStep).mono (by simp))

theorem Chip.stepTo_phase (m : Chip) (ch : Nat) {ph : Nat} (h : ph < 2 ^ CH_DRV_STAT_PHASE.w) (fastStep : Bool) :
    (m.stepTo ch ph fastStep).phase ch = ph :=
  ((m.stepTo_after ch ph fastStep).rd (f := CH_DRV_STAT_PHASE) (by decide)
    (by simp [windowFields, swFields, drvFlagFields, bankFields]; decide) ch).trans (m.setPhase_phase ch h)

/-- A flag of the drive that stands goes on standing. -/
theorem Chip.stepTo_stands {m : Chip} {ch c : Nat} (h : bitAt (m.rd CH_DRV_FLAGS ch) c = true) (hc : c < CH_DRV_FLAGS.w) (ph : Nat)
    (fastStep : Bool) : bitAt ((m.stepTo ch ph fastStep).rd CH_DRV_FLAGS ch) c = true := by
  have entered : bitAt ((m.setPhase ch ph).rd CH_DRV_FLAGS ch) c = true := by
    rw [(m.setPhase_regs ch ph).rd (by decide) (by simp [phaseFields, bankFields]; decide)]
    exact h
  have switched : ∀ (y : Chip) ls fw, (y.setSw ch ls fw).rd CH_DRV_FLAGS ch = y.rd CH_DRV_FLAGS ch := fun y ls fw =>
    (y.setSw_regs ch ls fw).rd (by decide) (by simp [swFields]; decide) ch
  rw [Chip.stepTo_eq]
  split
  · unfold Chip.stepDecay
    rw [(Chip.bankStat_regs _ _).rd (by decide) (by simp [bankFields]; decide), Chip.setDrv_rd, switched]
    exact Chip.decayAs_stands entered hc _
  split
  · rw [switched]
    exact entered
  · exact entered

/-- The start of a phase stands through what its entry does to the switches. -/
theorem Chip.setSw_phaseTb (m : Chip) (ch : Nat) (ls fw : Bool) : ((m.setSw ch ls fw).drv ch).phaseTb = (m.drv ch).phaseTb := by
  obtain ⟨_, _, _, _, _, eq⟩ := m.setSw_drv ch ls fw
  rw [eq]

theorem Chip.setSw_iBst (m : Chip) (ch : Nat) (ls fw : Bool) : ((m.setSw ch ls fw).drv ch).iBst = (m.drv ch).iBst := by
  obtain ⟨_, _, _, _, _, eq⟩ := m.setSw_drv ch ls fw
  rw [eq]

theorem Chip.stepTo_phaseTb (m : Chip) (ch ph : Nat) (fastStep : Bool) : ((m.stepTo ch ph fastStep).drv ch).phaseTb = m.tb := by
  have entered : ((m.setPhase ch ph).drv ch).phaseTb = m.tb := by
    obtain ⟨_, _, eq⟩ := m.setPhase_drv ch ph
    rw [eq]
  rw [Chip.stepTo_eq]
  split
  · unfold Chip.stepDecay
    rw [Chip.bankStat_drv, Chip.setDrv_drv]
    dsimp only
    rw [Chip.setSw_phaseTb, Chip.decayAs_drv, entered]
  split
  · rw [Chip.setSw_phaseTb, entered]
  · exact entered

end Sys2Proof.Machine
end

section
/-! PROOFS. Phases of an actuation and the window regulator (R210-R213). -/

namespace Sys2Proof.Machine

/-! ## T_PK (R213) -/

theorem exec_peakTimeout (ch : Ch) (s : State) : exec (.peakTimeout ch) s = .next { s with chip := s.chip.peakEnd ch.val } := rfl

theorem Chip.peakEnd_due {m : Chip} {ch : Nat} (peak : m.phase ch = 3) (late : (m.drv ch).phaseTb + (m.drv ch).tPk * usTb ≤ m.tb) :
    m.peakEnd ch = m.stepTo ch phHold (m.drv ch).stepPh := if_pos ⟨peak, late⟩

/-! ## The turn-off of a channel that is on (R210) -/

/-- A turn-off out of PEAK, HOLD or PLAIN, before its decay is chosen. -/
def Chip.offBegun (m : Chip) (ch : Nat) : Chip := (m.noNotch ch).strokeOff ch

/-- The decay of a turn-off, fast or slow as asked for, and the flag that says it was changed. -/
def Chip.offDecay (m : Chip) (ch : Nat) (fast : Bool) : Chip :=
  let p := m.decayAs ch fast
  ((p.2.setDrv ch { p.2.drv ch with fast := p.1, step := none, offTb := some p.2.tb, offCode := p.2.iNow ch }).setPhase ch phDecay).setSw ch false (!p.1)

theorem Chip.drvOffAs_on {m : Chip} {ch : Nat} (on : m.phase ch = 3 ∨ m.phase ch = 4 ∨ m.phase ch = 6) (fast : Bool) :
    m.drvOffAs ch fast = (m.offBegun ch).offDecay ch fast := by
  have running : ¬ (m.phase ch = phOff ∨ m.phase ch = phDecay) := by rcases on with ph | ph | ph <;> rw [ph] <;> decide
  have granted : ¬ m.phase ch = phWait := by rcases on with ph | ph | ph <;> rw [ph] <;> decide
  have alone : ¬ m.phase ch = phBoost := by rcases on with ph | ph | ph <;> rw [ph] <;> decide
  unfold Chip.drvOffAs Chip.drvOffBy
  simp only [if_neg running, if_neg granted, if_neg alone]
  rfl

/-- What is found when a turn-off begins leaves the drive registers. -/
theorem Chip.offBegun_rd (m : Chip) (ch : Nat) {f : Field} (h : f.part = .rDrv) (i : Nat) : (m.offBegun ch).rd f i = m.rd f i := by
  have moved : Moves [.rDg, .rDgb, .rInt, .rMap, .asleep, .accums, .chans, .sys, .cyc] m (m.offBegun ch) :=
    Chip.strokeOff_moves (Chip.noNotch_moves .refl (by decide)) (by decide)
  exact moved.rd f i (by rw [h]; decide)

theorem Chip.offDecay_shows {m : Chip} {ch b : Nat} (flag : bitAt (m.rd CH_DRV_FLAGS ch) b = true) (hb : b < CH_DRV_FLAGS.w) (fast : Bool) :
    (m.offDecay ch fast).phase ch = 5 ∧ (m.offDecay ch fast).rd CH_DRV_STAT_LS ch = 0 ∧
    bitAt ((m.offDecay ch fast).rd CH_DRV_FLAGS ch) b = true := by
  unfold Chip.offDecay
  extract_lets p
  refine ⟨?_, (Chip.setSw_shows _ _ _ _).1, ?_⟩
  · exact ((Chip.setSw_regs _ _ _ _).rd (f := CH_DRV_STAT_PHASE) (by decide) (by simp [swFields]; decide) ch).trans
      (Chip.setPhase_phase _ _ (by decide))
  · rw [(Chip.setSw_regs _ _ _ _).rd (by decide) (by simp [swFields]; decide),
      (Chip.setPhase_regs _ _ _).rd (by decide) (by simp [phaseFields, bankFields]; decide), Chip.setDrv_rd]
    exact Chip.decayAs_stands flag hb fast

theorem Chip.driveCut_eq (m : Chip) (ch : Nat) (fast : Bool) : m.driveCut ch fast = (m.cmdOff ch).drvOffAs ch fast := rfl

/-- The end of the pulses and of the commands of a channel leaves its drive. -/
theorem Chip.cmdOff_phase (m : Chip) (ch c : Nat) : (m.cmdOff ch).phase c = m.phase c :=
  (SameRegs.cmdOff m ch).rd (f := CH_DRV_STAT_PHASE) (by decide) (by simp; decide) c

/-- A turn-off leaves the commands of every channel and the others' gates. -/
theorem Chip.drvOffAs_regs (m : Chip) (ch : Nat) (fast : Bool) : SameRegs (cutFields ch) cutParts m (m.drvOffAs ch fast) :=
  SameRegs.drvOffBy m ch fun _ h => h.moves (Chip.decayAs_moves .refl (within_refl _)) (by decide)

/-- A channel that is cut: its commands are off. -/
theorem Chip.driveCut_commands (m : Chip) (ch : Nat) (fast : Bool) :
    (m.driveCut ch fast).rd CH_STAT_OUT ch = 0 ∧ (m.driveCut ch fast).rd MAP_CH_STAT_OWN_ON ch = 0 := by
  rw [Chip.driveCut_eq]
  constructor
  · rw [(Chip.drvOffAs_regs _ _ _).rd (by decide) (by simp [cutFields, flagFields]; decide), Chip.cmdOff_out]
  · rw [(Chip.drvOffAs_regs _ _ _).rd (by decide) (by simp [cutFields, flagFields]; decide), Chip.cmdOff_own]

/-- A channel that is on and is cut: its decay begins, and a flag that stands goes on standing. -/
theorem Chip.driveCut_on {m : Chip} {ch b : Nat} (on : m.phase ch = 3 ∨ m.phase ch = 4 ∨ m.phase ch = 6)
    (flag : bitAt (m.rd CH_DRV_FLAGS ch) b = true) (hb : b < CH_DRV_FLAGS.w) (fast : Bool) :
    (m.driveCut ch fast).phase ch = 5 ∧ (m.driveCut ch fast).rd CH_DRV_STAT_LS ch = 0 ∧
    bitAt ((m.driveCut ch fast).rd CH_DRV_FLAGS ch) b = true := by
  have kept : ((m.cmdOff ch).offBegun ch).rd CH_DRV_FLAGS ch = m.rd CH_DRV_FLAGS ch :=
    (Chip.offBegun_rd _ _ rfl _).trans ((SameRegs.cmdOff m ch).rd (by decide) (by simp; decide) ch)
  rw [Chip.driveCut_eq, Chip.drvOffAs_on (by rwa [Chip.cmdOff_phase])]
  exact Chip.offDecay_shows (by rwa [kept]) hb fast

/-! ## MAXON (R213) -/

theorem exec_maxonTimeout (ch : Ch) (s : State) : exec (.maxonTimeout ch) s = .next { s with chip := s.chip.maxonEnd ch.val } := rfl

theorem Chip.maxonEnd_due {m : Chip} {ch : Nat} (hold : m.phase ch = 4) (set : (m.drv ch).maxon ≠ 0)
    (late : (m.drv ch).startTb + (m.drv ch).maxon * 20000000 ≤ m.tb) :
    m.maxonEnd ch = (m.drvFlag ch CH_DRV_FLAGS_MAXON).driveCutOwn ch := if_pos ⟨.inl hold, set, late⟩

/-! ## The window regulator (R211-R213) -/

theorem exec_windowCrossing (ch : Ch) (code : Nat) (s : State) :
    exec (.windowCrossing ch code) s = .next { s with chip := s.chip.currentAt ch.val code } := rfl

theorem exec_blankingExpiry (ch : Ch) (code : Nat) (s : State) :
    exec (.blankingExpiry ch code) s = .next { s with chip := s.chip.blankEnd ch.val code } := rfl

section
variable {m : Chip} {ch code : Nat} (peak : m.phase ch = 3) (seen : (m.drv ch).blankTb ≤ m.tb) (steady : (m.drv ch).step = none)
  (code_lt : code < 1024)
include peak seen steady code_lt

/-- The regulator meets the current while the channel is in PEAK and not blanked. -/
theorem Chip.currentAt_peak :
    m.currentAt ch code =
      if m.rdB CH_DRV_STAT_LS ch then
        if m.rd CH_DRV_PK_PK_HI ch ≤ code then
          (m.wr CH_DRV_I_NOW ch code).setSw ch false (!((m.drv ch).chopFast && !m.rdB BK_STAT_HSB (bankOf ch) && !m.rdB BST_STAT_OV))
        else m.wr CH_DRV_I_NOW ch code
      else if code ≤ m.rd CH_DRV_PK_PK_LO ch then (m.wr CH_DRV_I_NOW ch code).setSw ch true false
      else m.wr CH_DRV_I_NOW ch code := by
  have ne : ∀ (f : Field) (i : Nat), f.id ≠ CH_DRV_I_NOW.id → (m.wr CH_DRV_I_NOW ch code).rd f i = m.rd f i := fun f i h =>
    Chip.rd_wr_ne _ _ _ _ _ _ h
  have ph : (m.wr CH_DRV_I_NOW ch code).phase ch = 3 := (ne _ _ (by decide)).trans peak
  have now : (m.wr CH_DRV_I_NOW ch code).iNow ch = code := (Chip.rd_wr_same _ _ _ _).trans (Nat.mod_eq_of_lt code_lt)
  have window : (m.wr CH_DRV_I_NOW ch code).window ch 3 = (m.rd CH_DRV_PK_PK_LO ch, m.rd CH_DRV_PK_PK_HI ch) :=
    Prod.ext (ne _ _ (by decide)) (ne _ _ (by decide))
  have tb : (m.wr CH_DRV_I_NOW ch code).tb = m.tb := rfl
  unfold Chip.currentAt Chip.regulate
  rw [if_neg (by rw [peak]; decide)]
  simp only [ph, now, window, tb, steady, Chip.wr_drv, Chip.rdB, ne CH_DRV_STAT_LS _ (by decide), ne BK_STAT_HSB _ (by decide),
    ne BST_STAT_OV _ (by decide)]
  rw [if_neg (by decide), if_neg (Nat.not_lt.2 seen)]
  rfl

end

/-- The registers that the regulator changes. -/
def currentFields (ch : Nat) : List (Field × Nat) := [CH_DRV_I_NOW, CH_DRV_STAT_LS, CH_DRV_STAT_FW].map fun f => (f, ch)

theorem Chip.currentSw_shows (m : Chip) {ch code : Nat} (h : code < 1024) (ls fw : Bool) :
    ((m.wr CH_DRV_I_NOW ch code).setSw ch ls fw).rd CH_DRV_STAT_LS ch = b2n ls ∧
    ((m.wr CH_DRV_I_NOW ch code).setSw ch ls fw).rd CH_DRV_STAT_FW ch = b2n fw ∧
    ((m.wr CH_DRV_I_NOW ch code).setSw ch ls fw).rd CH_DRV_I_NOW ch = code ∧
    ((m.wr CH_DRV_I_NOW ch code).setSw ch ls fw).phase ch = m.phase ch ∧
    SameRegs (currentFields ch) [] m ((m.wr CH_DRV_I_NOW ch code).setSw ch ls fw) := by
  obtain ⟨low, free⟩ := (m.wr CH_DRV_I_NOW ch code).setSw_shows ch ls fw
  have kept := (m.wr CH_DRV_I_NOW ch code).setSw_regs ch ls fw
  refine ⟨low, free, ?_, ?_, SameRegs.trans ((SameRegs.rfl _ _ m).wr (.inr (by simp [currentFields]))) (kept.mono (by simp [swFields, currentFields]))⟩
  · exact (kept.rd (by decide) (by simp [swFields]; decide) ch).trans ((Chip.rd_wr_same _ _ _ _).trans (Nat.mod_eq_of_lt h))
  · exact (kept.rd (f := CH_DRV_STAT_PHASE) (by decide) (by simp [swFields]; decide) ch).trans (Chip.rd_wr_ne _ _ _ _ _ _ (by decide))

theorem Chip.blankEnd_seen {m : Chip} {ch : Nat} (seen : (m.drv ch).blankTb ≤ m.tb) (code : Nat) : m.blankEnd ch code = m.currentAt ch code := if_pos seen

/-! ## The end of a decay (R210, R211) -/

theorem exec_decayEnd (ch : Ch) (s : State) : exec (.decayEnd ch) s = .next { s with chip := s.chip.decayOver ch.val } := rfl

/-- The current of a decay is over: no current, both switches open. -/
def Chip.decayed (m : Chip) (ch : Nat) : Chip := ((m.wr CH_DRV_I_NOW ch 0).setDrv ch { m.drv ch with fast := false }).setSw ch false false

theorem Chip.decayOver_due {m : Chip} {ch : Nat} (decay : m.phase ch = 5) (late : (m.drv ch).phaseTb + 2 * usTb ≤ m.tb) :
    m.decayOver ch = ((m.decayed ch).setPhase ch phOff).hssIdle (bankOf ch) := if_pos ⟨decay, late⟩

theorem Chip.decayed_rd (m : Chip) (ch : Nat) {f : Field} (hf : ((currentFields ch).all fun q => q.1.id != f.id) = true) (i : Nat) :
    (m.decayed ch).rd f i = m.rd f i := by
  obtain ⟨now, ls, fw⟩ : CH_DRV_I_NOW.id ≠ f.id ∧ CH_DRV_STAT_LS.id ≠ f.id ∧ CH_DRV_STAT_FW.id ≠ f.id := by simpa [currentFields] using hf
  unfold Chip.decayed
  rw [(Chip.setSw_regs _ _ _ _).rd (by simp) (by simp [swFields, ls, fw]), Chip.setDrv_rd]
  exact Chip.rd_wr_ne _ _ _ _ _ _ now.symm

theorem Chip.decayed_shows (m : Chip) (ch : Nat) :
    (m.decayed ch).rd CH_DRV_I_NOW ch = 0 ∧ (m.decayed ch).rd CH_DRV_STAT_LS ch = 0 ∧ (m.decayed ch).rd CH_DRV_STAT_FW ch = 0 := by
  obtain ⟨low, free⟩ := ((m.wr CH_DRV_I_NOW ch 0).setDrv ch { m.drv ch with fast := false }).setSw_shows ch false false
  refine ⟨?_, low, free⟩
  exact ((Chip.setSw_regs _ _ _ _).rd (by decide) (by simp [swFields]; decide) ch).trans (Chip.rd_wr_same _ _ _ _)

/-- HSS is no register of a channel. -/
theorem Chip.hssIdle_rd (m : Chip) (b : Nat) {f : Field} (h : f.id ≠ BK_STAT_HSS.id) (i : Nat) : (m.hssIdle b).rd f i = m.rd f i := by
  unfold Chip.hssIdle
  split
  · exact Chip.rd_wr_ne _ _ _ _ _ _ h
  · rfl

theorem Chip.hssIdle_drv (m : Chip) (b c : Nat) : (m.hssIdle b).drv c = m.drv c :=
  Chip.drv_of_chans ((Chip.hssIdle_moves .refl (within_refl _)).kept.chans (by decide)) c

/-- Settles O28: each clause by the entry into the next phase, or by what the regulator does with the switches. -/
theorem drivePhases : Obligations.DrivePhases := by
  unfold Obligations.DrivePhases
  refine ⟨?_, ?_, ?_, ?_, ?_⟩
  · intro ch s peak late
    refine ⟨_, exec_peakTimeout ch s, ?_⟩
    dsimp only
    rw [Chip.peakEnd_due peak late]
    exact ⟨Chip.stepTo_phase _ _ (by decide) _, Chip.stepTo_phaseTb _ _ _ _⟩
  · intro ch s hold set late
    have flagged : (s.chip.drvFlag ch.val CH_DRV_FLAGS_MAXON).phase ch.val = 4 :=
      ((s.chip.drvFlag_regs _ _).rd (f := CH_DRV_STAT_PHASE) (by decide) (by simp [drvFlagFields]; decide) _).trans hold
    obtain ⟨phase, ls, flag⟩ := Chip.driveCut_on (.inr (.inl flagged)) (Chip.drvFlag_bit s.chip _ _ (by decide)) (by decide)
      (!((s.chip.drvFlag ch.val CH_DRV_FLAGS_MAXON).drv ch.val).offSlow)
    obtain ⟨out, own⟩ := (s.chip.drvFlag ch.val CH_DRV_FLAGS_MAXON).driveCut_commands ch.val
      (!((s.chip.drvFlag ch.val CH_DRV_FLAGS_MAXON).drv ch.val).offSlow)
    refine ⟨_, exec_maxonTimeout ch s, ?_⟩
    dsimp only
    rw [Chip.maxonEnd_due hold set late]
    exact ⟨phase, out, own, ls, flag⟩
  · intro ch code s peak seen steady closed high code_lt
    refine ⟨_, exec_windowCrossing ch code s, ?_⟩
    dsimp only
    rw [Chip.currentAt_peak peak seen steady code_lt, if_pos (by simp [Chip.rdB, closed]), if_pos high]
    obtain ⟨ls, -, now, phase, kept⟩ := s.chip.currentSw_shows code_lt false
      (!((s.chip.drv ch.val).chopFast && !s.chip.rdB BK_STAT_HSB (bankOf ch.val) && !s.chip.rdB BST_STAT_OV))
    exact ⟨ls, now, phase.trans peak, kept⟩
  · intro ch code s peak seen steady open_ low code_lt
    refine ⟨_, exec_blankingExpiry ch code s, ?_⟩
    dsimp only
    rw [Chip.blankEnd_seen seen, Chip.currentAt_peak peak seen steady code_lt, if_neg (by simp [Chip.rdB, open_]), if_pos low]
    obtain ⟨ls, fw, now, -, kept⟩ := s.chip.currentSw_shows code_lt true false
    exact ⟨ls, fw, now, kept⟩
  · intro ch s decay late
    obtain ⟨now, ls, fw⟩ := s.chip.decayed_shows ch.val
    have before : (s.chip.decayed ch.val).phase ch.val = 5 := (s.chip.decayed_rd ch.val (f := CH_DRV_STAT_PHASE) (by simp [currentFields]; decide) _).trans decay
    have tb : (s.chip.decayed ch.val).tb = s.chip.tb := Chip.setSw_tb _ _ _ _
    obtain ⟨iv, log, drv⟩ := (s.chip.decayed ch.val).setPhase_drv ch.val phOff
    have kept := (s.chip.decayed ch.val).setPhase_regs ch.val phOff
    refine ⟨_, exec_decayEnd ch s, ?_⟩
    dsimp only
    rw [Chip.decayOver_due decay late]
    refine ⟨?_, ?_, ?_, ?_, ?_⟩
    · exact (Chip.hssIdle_rd _ _ (by decide) _).trans (Chip.setPhase_phase _ _ (by decide))
    · rw [Chip.hssIdle_rd _ _ (by decide), kept.rd (by decide) (by simp [phaseFields, bankFields]; decide), now]
    · rw [Chip.hssIdle_rd _ _ (by decide), kept.rd (by decide) (by simp [phaseFields, bankFields]; decide), ls]
    · rw [Chip.hssIdle_rd _ _ (by decide), kept.rd (by decide) (by simp [phaseFields, bankFields]; decide), fw]
    · rw [Chip.hssIdle_drv, drv]
      dsimp only
      rw [if_pos ⟨rfl, by rw [before]; decide⟩, tb]

end Sys2Proof.Machine
end

section
/-! PROOFS. The boost switch: grant, denial, end of a boost phase (R210, R215-R217). -/

namespace Sys2Proof.Machine

/-! ## Who waits (R216) -/

theorem insertBy_ne_nil {α : Type} (le : α → α → Bool) (x : α) (l : List α) : insertBy le x l ≠ [] := by
  cases l with
  | nil => exact List.cons_ne_nil _ _
  | cons y r =>
    unfold insertBy
    split <;> exact List.cons_ne_nil _ _

theorem sortBy_eq_nil {α : Type} {le : α → α → Bool} {l : List α} : sortBy le l = [] ↔ l = [] := by
  cases l with
  | nil => exact Iff.rfl
  | cons x r => exact ⟨fun h => absurd h (insertBy_ne_nil le x _), fun h => absurd h (List.cons_ne_nil _ _)⟩

theorem Chip.waiting_nil {m : Chip} {b : Nat} : m.waiting b = [] ↔ ∀ c ∈ bankChs b, m.phase c ≠ phWait := by
  unfold Chip.waiting
  rw [sortBy_eq_nil, List.filter_eq_nil_iff]
  simp

/-- No channel begins to wait where every channel keeps its phase but one, which does not wait. -/
theorem Chip.waiting_nil_of {x y : Chip} {b ch : Nat} (none_ : x.waiting b = []) (now : y.phase ch ≠ phWait)
    (others : ∀ c, c ≠ ch → y.phase c = x.phase c) : y.waiting b = [] := by
  rw [Chip.waiting_nil] at none_ ⊢
  intro c hc
  by_cases e : c = ch
  · rw [e]
    exact now
  · rw [others c e]
    exact none_ c hc

/-! ## A wait ends, a channel takes HSB -/

theorem exec_boostGrant (b : Bank) (s : State) : exec (.boostGrant b) s = .next { s with chip := s.chip.grantFirst b.val } := rfl

theorem Chip.waitDone_regs (m : Chip) (ch : Nat) : SameRegs [(CH_DRV_LAST_WAIT, ch)] [] m (m.waitDone ch) :=
  ((SameRegs.rfl _ _ m).wr (.inr (by simp))).setDrv

theorem Chip.waitDone_drv (m : Chip) (ch : Nat) : (m.waitDone ch).drv ch = { m.drv ch with waited := m.waitUs ch } := Chip.setDrv_drv _ _ _

theorem Chip.waitDone_iBst (m : Chip) (ch : Nat) : ((m.waitDone ch).drv ch).iBst = (m.drv ch).iBst := by rw [Chip.waitDone_drv]

/-- HSB is a channel's: the registers of its bank, and its drive. -/
def Chip.hsbTaken (m : Chip) (ch : Nat) : Chip :=
  let n := m.waitDone ch
  let d := { n.drv ch with passed := n.rdB BK_STAT_HSB (bankOf ch) }
  let k := (((n.wr BK_STAT_HSB (bankOf ch) 1).wr BK_STAT_HSS (bankOf ch) 0).wr BK_STAT_HOLDER (bankOf ch) (ch % 8)).wr CH_DRV_STAT_HSB_OWN ch 1
  k.setDrv ch { d with hsbTb := k.tb, fast := false }

/-- The channel that took HSB is in BOOST with its low-side switch closed. -/
def Chip.boostOn (m : Chip) (ch : Nat) : Chip :=
  let n := (m.hsbTaken ch).setPhase ch phBoost
  { n with boost := { n.boost with rchgFrom := none } }.setSw ch true false

theorem Chip.boostTake_waited {m : Chip} {ch : Nat} (waits : m.phase ch = 1) : m.boostTake ch = (m.boostOn ch).drvFlag ch CH_DRV_FLAGS_BST_WAIT := by
  refine (if_pos ?_ : m.boostTake ch = _)
  rw [waits]
  rfl

theorem Chip.hsbTaken_shows (m : Chip) (ch : Nat) :
    (m.hsbTaken ch).rd BK_STAT_HSB (bankOf ch) = 1 ∧ (m.hsbTaken ch).rd BK_STAT_HSS (bankOf ch) = 0 ∧
    (m.hsbTaken ch).rd BK_STAT_HOLDER (bankOf ch) = ch % 8 ∧ (m.hsbTaken ch).rd CH_DRV_STAT_HSB_OWN ch = 1 ∧
    (m.hsbTaken ch).rd CH_DRV_I_NOW ch = m.rd CH_DRV_I_NOW ch ∧ ((m.hsbTaken ch).drv ch).iBst = (m.drv ch).iBst := by
  have now : (m.waitDone ch).rd CH_DRV_I_NOW ch = m.rd CH_DRV_I_NOW ch := (m.waitDone_regs ch).rd (by decide) (by simp; decide) ch
  unfold Chip.hsbTaken
  extract_lets n d k
  refine ⟨?_, ?_, ?_, ?_, ?_, ?_⟩
  · rw [Chip.setDrv_rd, Chip.rd_wr_ne _ _ _ _ _ _ (by decide), Chip.rd_wr_ne _ _ _ _ _ _ (by decide), Chip.rd_wr_ne _ _ _ _ _ _ (by decide),
      Chip.rd_wr_same]
    rfl
  · rw [Chip.setDrv_rd, Chip.rd_wr_ne _ _ _ _ _ _ (by decide), Chip.rd_wr_ne _ _ _ _ _ _ (by decide), Chip.rd_wr_same]
    rfl
  · rw [Chip.setDrv_rd, Chip.rd_wr_ne _ _ _ _ _ _ (by decide), Chip.rd_wr_same]
    exact Nat.mod_eq_of_lt (Nat.mod_lt _ (by decide))
  · rw [Chip.setDrv_rd, Chip.rd_wr_same]
    rfl
  · rw [Chip.setDrv_rd, Chip.rd_wr_ne _ _ _ _ _ _ (by decide), Chip.rd_wr_ne _ _ _ _ _ _ (by decide), Chip.rd_wr_ne _ _ _ _ _ _ (by decide),
      Chip.rd_wr_ne _ _ _ _ _ _ (by decide), now]
  · rw [Chip.setDrv_drv]
    exact m.waitDone_iBst ch

/-- The fields that a channel in BOOST shows anew. -/
def boostFields (ch : Nat) : List (Field × Nat) := phaseFields ch ++ swFields ch

theorem Chip.boostOn_regs (m : Chip) (ch : Nat) : SameRegs (boostFields ch) [] (m.hsbTaken ch) (m.boostOn ch) := by
  have entered := ((m.hsbTaken ch).setPhase_regs ch phBoost).mono (l' := boostFields ch) (by simp [boostFields])
  unfold Chip.boostOn
  extract_lets n
  refine SameRegs.trans (y := { n with boost := { n.boost with rchgFrom := none } }) (entered.regs rfl) ?_
  exact (Chip.setSw_regs _ _ _ _).mono (by simp [boostFields])

theorem Chip.boostOn_shows (m : Chip) (ch : Nat) :
    (m.boostOn ch).phase ch = 2 ∧ (m.boostOn ch).rd CH_DRV_STAT_LS ch = 1 ∧ ((m.boostOn ch).drv ch).iBst = ((m.hsbTaken ch).drv ch).iBst := by
  unfold Chip.boostOn
  extract_lets n
  refine ⟨?_, (Chip.setSw_shows _ _ _ _).1, ?_⟩
  · exact ((Chip.setSw_regs _ _ _ _).rd (f := CH_DRV_STAT_PHASE) (by decide) (by simp [swFields]; decide) ch).trans
      (Chip.setPhase_phase _ _ (by decide))
  · exact (Chip.setSw_iBst _ _ _ _).trans ((m.hsbTaken ch).setPhase_iBst ch phBoost)

/-- What a grant leaves of the fields of a channel in BOOST. -/
theorem Chip.boostStart_rd {m : Chip} {ch : Nat} (waits : m.phase ch = 1) {f : Field} (hp : f.part ≠ .rInt)
    (hf : ([CH_DRV_FLAGS, BK_FLAGS, BK_CNT_GRANTS].all fun g => g.id != f.id) = true) (i : Nat) :
    (m.boostStart ch).rd f i = (m.boostOn ch).rd f i := by
  obtain ⟨drv, bk, grants⟩ : CH_DRV_FLAGS.id ≠ f.id ∧ BK_FLAGS.id ≠ f.id ∧ BK_CNT_GRANTS.id ≠ f.id := by simpa using hf
  unfold Chip.boostStart
  rw [Chip.boostTake_waited waits, Chip.count_rd_ne _ _ _ _ _ grants.symm]
  exact (Chip.drvFlag_regs _ _ _).rd (by simpa using hp) (by simp [drvFlagFields, drv, bk]) i

theorem Chip.boostStart_drv {m : Chip} {ch : Nat} (waits : m.phase ch = 1) : (m.boostStart ch).drv ch = (m.boostOn ch).drv ch := by
  unfold Chip.boostStart
  rw [Chip.boostTake_waited waits]
  have counted : (((m.boostOn ch).drvFlag ch CH_DRV_FLAGS_BST_WAIT).count BK_CNT_GRANTS (bankOf ch)).chans =
      ((m.boostOn ch).drvFlag ch CH_DRV_FLAGS_BST_WAIT).chans := (Chip.count_moves .refl (within_refl _)).kept.chans (by decide)
  exact (Chip.drv_of_chans counted ch).trans (Chip.drvFlag_drv _ _ _ _)

/-- The fields of a bank and of a channel that boosts. -/
theorem Chip.boostOn_rd (m : Chip) (ch : Nat) {f : Field} (hf : ((boostFields ch).all fun q => q.1.id != f.id) = true) (i : Nat) :
    (m.boostOn ch).rd f i = (m.hsbTaken ch).rd f i := (m.boostOn_regs ch).rd (by simp) hf i

/-- A grant whose current is below the boost level: the channel boosts. -/
theorem Chip.boostGrant_low {m : Chip} {ch : Nat} (waits : m.phase ch = 1) (low : m.iNow ch < (m.drv ch).iBst) :
    m.boostGrant ch = m.boostStart ch := by
  obtain ⟨-, -, -, -, now, level⟩ := m.hsbTaken_shows ch
  obtain ⟨-, -, kept⟩ := m.boostOn_shows ch
  have current : (m.boostStart ch).iNow ch = m.iNow ch :=
    (Chip.boostStart_rd waits (by decide) (by decide) ch).trans
      ((m.boostOn_rd ch (by simp [boostFields, phaseFields, bankFields, swFields]; decide) ch).trans now)
  refine if_neg ?_
  rw [Chip.boostStart_drv waits, kept, level, current]
  exact Nat.not_le.2 low

theorem Chip.grantFirst_free {m : Chip} {b w : Nat} {ws : List Nat} (front : m.waiting b = w :: ws) (free : m.boostFree b = true) :
    m.grantFirst b = m.boostGrant w := by
  unfold Chip.grantFirst
  rw [front]
  exact if_pos free

/-! ## A denial (R217) -/

theorem exec_boostDeferTimeout (ch : Ch) (s : State) : exec (.boostDeferTimeout ch) s = .next { s with chip := s.chip.deferEnd ch.val } := rfl

theorem Chip.deferEnd_due {m : Chip} {ch : Nat} (waits : m.phase ch = 1) (late : (m.drv ch).reqTb + m.defer (bankOf ch) * usTb ≤ m.tb) :
    m.deferEnd ch = m.boostDeny ch := if_pos ⟨waits, late⟩

/-- The fields of an entry into PEAK at the start of an actuation. -/
theorem Chip.startWindow_after (m : Chip) (ch ph : Nat) : SameRegs (swFields ch ++ bankFields (bankOf ch)) [] (m.setPhase ch ph) (m.startWindow ch ph) := by
  have open_ : ∀ y : Chip, ∀ d : Drv, SameRegs (swFields ch ++ bankFields (bankOf ch)) [] y (((y.setDrv ch d).setSw ch true false).bankStat (bankOf ch)) :=
    fun y d => (SameRegs.setDrv (SameRegs.rfl _ _ y)).trans
      (((Chip.setSw_regs _ _ _ _).mono (by simp)).trans ((Chip.bankStat_regs _ _).mono (by simp)))
  have decays : ∀ y : Chip, ∀ d : Drv, SameRegs (swFields ch ++ bankFields (bankOf ch)) [] y ((y.setDrv ch d).bankStat (bankOf ch)) :=
    fun y d => (SameRegs.setDrv (SameRegs.rfl _ _ y)).trans ((Chip.bankStat_regs _ _).mono (by simp))
  exact SameRegs.ite (open_ _ _) (decays _ _)

/-- What a denial shows before the channel enters PEAK. -/
def Chip.deniedShown (m : Chip) (ch : Nat) : Chip :=
  let n := ((m.waitDone ch).count CH_DRV_DENY ch).count BK_CNT_DENIES (bankOf ch)
  (n.drvFlag ch CH_DRV_FLAGS_BST_DENIED).bkFlag (bankOf ch) BK_FLAGS_BST_DENIED

theorem Chip.boostDeny_eq (m : Chip) (ch : Nat) :
    m.boostDeny ch = ((m.deniedShown ch).setDrv ch { (m.deniedShown ch).drv ch with denied := true }).startWindow ch phPeak := rfl

theorem Chip.boostDeny_after (m : Chip) (ch : Nat) : SameRegs (phaseFields ch ++ swFields ch) [] (m.deniedShown ch) (m.boostDeny ch) := by
  rw [Chip.boostDeny_eq]
  have noted : SameRegs (phaseFields ch ++ swFields ch) [] (m.deniedShown ch)
      ((m.deniedShown ch).setDrv ch { (m.deniedShown ch).drv ch with denied := true }) := (SameRegs.rfl _ _ _).setDrv
  exact noted.trans (((Chip.setPhase_regs _ ch phPeak).mono (by simp)).trans ((Chip.startWindow_after _ ch phPeak).mono (by simp [phaseFields])))

theorem Chip.boostDeny_rd (m : Chip) (ch : Nat) {f : Field} (hf : ((phaseFields ch ++ swFields ch).all fun q => q.1.id != f.id) = true) (i : Nat) :
    (m.boostDeny ch).rd f i = (m.deniedShown ch).rd f i := (m.boostDeny_after ch).rd (by simp) hf i

theorem Chip.boostDeny_phase (m : Chip) (ch : Nat) : (m.boostDeny ch).phase ch = 3 := by
  rw [Chip.boostDeny_eq]
  exact ((Chip.startWindow_after _ ch phPeak).rd (f := CH_DRV_STAT_PHASE) (by decide) (by simp [swFields, bankFields]; decide) ch).trans
    (Chip.setPhase_phase _ ch (by decide))

theorem Chip.count_rd_same (m : Chip) (f : Field) (i n : Nat) :
    (m.count f i n).rd f i = min (m.rd f i + n) (2 ^ f.w - 1) := by
  refine (Chip.rd_wr_same _ _ _ _).trans (Nat.mod_eq_of_lt ?_)
  have := Nat.two_pow_pos f.w
  omega

theorem Chip.deniedShown_shows (m : Chip) (ch : Nat) :
    bitAt ((m.deniedShown ch).rd CH_DRV_FLAGS ch) CH_DRV_FLAGS_BST_DENIED = true ∧
    bitAt ((m.deniedShown ch).rd BK_FLAGS (bankOf ch)) BK_FLAGS_BST_DENIED = true ∧
    (m.deniedShown ch).rd CH_DRV_DENY ch = min (m.rd CH_DRV_DENY ch + 1) (2 ^ CH_DRV_DENY.w - 1) ∧
    (m.deniedShown ch).rd BK_STAT_HSB (bankOf ch) = m.rd BK_STAT_HSB (bankOf ch) := by
  unfold Chip.deniedShown
  extract_lets n
  have flag : ∀ f i, f.part ≠ .rInt → f.id ≠ CH_DRV_FLAGS.id → f.id ≠ BK_FLAGS.id →
      ((n.drvFlag ch CH_DRV_FLAGS_BST_DENIED).bkFlag (bankOf ch) BK_FLAGS_BST_DENIED).rd f i = n.rd f i := fun f i hp hd hb =>
    (Chip.bkFlag_rd_ne _ _ _ _ _ hp hb).trans
      ((Chip.drvFlag_regs _ _ _).rd (by simpa using hp) (by simp [drvFlagFields, hd.symm, hb.symm]) i)
  refine ⟨?_, Chip.bkFlag_bit _ _ _ (by decide), ?_, ?_⟩
  · rw [Chip.bkFlag_rd_ne _ _ _ _ _ (by decide) (by decide)]
    exact Chip.drvFlag_bit _ _ _ (by decide)
  · rw [flag _ _ (by decide) (by decide) (by decide), Chip.count_rd_ne _ _ _ _ _ (by decide), Chip.count_rd_same,
      (m.waitDone_regs ch).rd (by decide) (by simp; decide)]
  · rw [flag _ _ (by decide) (by decide) (by decide), Chip.count_rd_ne _ _ _ _ _ (by decide), Chip.count_rd_ne _ _ _ _ _ (by decide),
      (m.waitDone_regs ch).rd (by decide) (by simp; decide)]

/-! ## The end of a boost phase (R210, R216) -/

theorem exec_boostCurrentReached (ch : Ch) (code : Nat) (s : State) :
    exec (.boostCurrentReached ch code) s = .next { s with chip := s.chip.boostReached ch.val code } := rfl

theorem exec_boostTimeout (ch : Ch) (s : State) : exec (.boostTimeout ch) s = .next { s with chip := s.chip.boostLimit ch.val } := rfl

theorem Chip.boostReached_due {m : Chip} {ch code : Nat} (boosts : m.phase ch = 2) (full : (m.drv ch).iBst ≤ code) :
    m.boostReached ch code = (m.wr CH_DRV_I_NOW ch code).boostEnd ch := if_pos ⟨boosts, full⟩

theorem Chip.boostLimit_due {m : Chip} {ch : Nat} (boosts : m.phase ch = 2) (late : (m.drv ch).hsbTb + (m.drv ch).tBst * usTb ≤ m.tb) :
    m.boostLimit ch = (m.drvFlag ch CH_DRV_FLAGS_BST_TMO).boostEnd ch := if_pos ⟨boosts, late⟩

/-- The fields of R209 after a boost phase. -/
def figureFields (ch : Nat) : List (Field × Nat) := [(CH_DRV_LAST_BST, ch), (BST_DROOP_STEP, 0), (BST_DROOP_DROOP, 0)]

theorem Chip.boostFigures_regs (m : Chip) (ch : Nat) : SameRegs (figureFields ch) [] m (m.boostFigures ch) := by
  have shown : ∀ v x y, SameRegs (figureFields ch) [] m (((m.wr CH_DRV_LAST_BST ch v).wrI BST_DROOP_STEP 0 x).wrI BST_DROOP_DROOP 0 y) :=
    fun v x y => (((SameRegs.rfl _ _ m).wr (.inr (by simp [figureFields]))).wr (.inr (by simp [figureFields]))).wr (.inr (by simp [figureFields]))
  exact (shown (min 4095 ((m.tb - (m.drv ch).hsbTb) / usTb)) (Config.freeInt m.frees) (Config.freeInt (m.frees + 1))).regs rfl

/-- The channel has left BOOST: HSB is no longer its own. -/
def Chip.boostLeft (m : Chip) (ch : Nat) : Chip :=
  ((m.boostFigures ch).wr CH_DRV_STAT_HSB_OWN ch 0).stepTo ch phPeak (((m.boostFigures ch).wr CH_DRV_STAT_HSB_OWN ch 0).drv ch).stepBp

theorem Chip.boostEnd_eq (m : Chip) (ch : Nat) : m.boostEnd ch = (m.boostLeft ch).boostPass (bankOf ch) 9 := rfl

/-- The fields of a channel that leaves BOOST. -/
def leftFields (ch : Nat) : List (Field × Nat) := (CH_DRV_STAT_HSB_OWN, ch) :: (figureFields ch ++ (phaseFields ch ++ windowFields ch))

theorem Chip.boostLeft_regs (m : Chip) (ch : Nat) : SameRegs (leftFields ch) [.rInt] m (m.boostLeft ch) := by
  have opened : SameRegs (leftFields ch) [.rInt] m ((m.boostFigures ch).wr CH_DRV_STAT_HSB_OWN ch 0) :=
    ((m.boostFigures_regs ch).weaken (by simp [leftFields]) (by simp)).wr (.inr (by simp [leftFields]))
  exact opened.trans ((Chip.stepTo_regs _ ch phPeak _).mono (by simp [leftFields]))

theorem Chip.boostLeft_phase (m : Chip) (ch : Nat) : (m.boostLeft ch).phase ch = 3 := Chip.stepTo_phase _ ch (by decide) _

theorem Chip.boostLeft_others (m : Chip) {ch c : Nat} (h : c ≠ ch) : (m.boostLeft ch).phase c = m.phase c := by
  refine (m.boostLeft_regs ch).rd_other (f := CH_DRV_STAT_PHASE) (k := ch) (by decide) ?_ h
  simp [leftFields, figureFields, phaseFields, windowFields, swFields, drvFlagFields, bankFields]
  refine ⟨.inl ?_, .inl ?_, .inl ?_, .inl ?_, .inl ?_, .inl ?_, .inl ?_⟩ <;> decide

theorem Chip.boostLeft_owner (m : Chip) (ch : Nat) : (m.boostLeft ch).rd CH_DRV_STAT_HSB_OWN ch = 0 :=
  ((Chip.stepTo_regs _ ch phPeak _).rd (by decide) (by simp [phaseFields, windowFields, swFields, drvFlagFields, bankFields]; decide) ch).trans
    (Chip.rd_wr_same _ _ _ _)

theorem Chip.boostLeft_stands {m : Chip} {ch c : Nat} (h : bitAt (m.rd CH_DRV_FLAGS ch) c = true) (hc : c < CH_DRV_FLAGS.w) :
    bitAt ((m.boostLeft ch).rd CH_DRV_FLAGS ch) c = true := by
  refine Chip.stepTo_stands ?_ hc _ _
  rw [Chip.rd_wr_ne _ _ _ _ _ _ (by decide), (m.boostFigures_regs ch).rd (by decide) (by simp [figureFields]; decide)]
  exact h

/-- HSB opens when nobody waits: HSS closes in an enabled bank that is not lost. -/
def Chip.hsbFreed (m : Chip) (b : Nat) : Chip := (m.wr BK_STAT_HSB b 0).wrB BK_STAT_HSS b (m.rdB BK_CTL_EN b && !m.rdB BK_STAT_LOST b)

theorem Chip.boostPass_none {m : Chip} {b : Nat} (none_ : m.waiting b = []) (k : Nat) : m.boostPass b (k + 1) = m.hsbFreed b := by
  unfold Chip.boostPass
  rw [none_]
  rfl

theorem Chip.hsbFreed_shows (m : Chip) (b : Nat) :
    (m.hsbFreed b).rd BK_STAT_HSB b = 0 ∧ (m.hsbFreed b).rd BK_STAT_HSS b = b2n (m.rdB BK_CTL_EN b && !m.rdB BK_STAT_LOST b) := by
  have bit : ∀ v : Bool, b2n v % 2 ^ 1 = b2n v := by decide
  exact ⟨(Chip.rd_wr_ne _ _ _ _ _ _ (by decide)).trans (Chip.rd_wr_same _ _ _ _), (Chip.rd_wr_same _ _ _ _).trans (bit _)⟩

theorem Chip.hsbFreed_rd (m : Chip) (b : Nat) {f : Field} (hsb : f.id ≠ BK_STAT_HSB.id) (hss : f.id ≠ BK_STAT_HSS.id) (i : Nat) :
    (m.hsbFreed b).rd f i = m.rd f i := (Chip.rd_wr_ne _ _ _ _ _ _ hss).trans (Chip.rd_wr_ne _ _ _ _ _ _ hsb)

/-- The end of a boost phase with nobody waiting. -/
theorem Chip.boostEnd_alone {m : Chip} {ch : Nat} (none_ : m.waiting (bankOf ch) = []) : m.boostEnd ch = (m.boostLeft ch).hsbFreed (bankOf ch) := by
  rw [Chip.boostEnd_eq]
  exact Chip.boostPass_none (Chip.waiting_nil_of none_ (by rw [Chip.boostLeft_phase]; decide) fun c h => m.boostLeft_others h) 8

theorem Chip.boostEnd_shows {m : Chip} {ch : Nat} (none_ : m.waiting (bankOf ch) = []) :
    (m.boostEnd ch).phase ch = 3 ∧ (m.boostEnd ch).rd BK_STAT_HSB (bankOf ch) = 0 ∧ (m.boostEnd ch).rd CH_DRV_STAT_HSB_OWN ch = 0 ∧
    (m.boostEnd ch).rd BK_STAT_HSS (bankOf ch) = b2n (m.rdB BK_CTL_EN (bankOf ch) && !m.rdB BK_STAT_LOST (bankOf ch)) := by
  have kept : ∀ f i, f.part ≠ .rInt → ((leftFields ch).all fun q => q.1.id != f.id) = true → (m.boostLeft ch).rd f i = m.rd f i :=
    fun f i hp hf => (m.boostLeft_regs ch).rd (by simpa using hp) hf i
  obtain ⟨hsb, hss⟩ := (m.boostLeft ch).hsbFreed_shows (bankOf ch)
  have enabled : (m.boostLeft ch).rdB BK_CTL_EN (bankOf ch) = m.rdB BK_CTL_EN (bankOf ch) := congrArg (· != 0)
    (kept BK_CTL_EN _ (by decide) (by simp [leftFields, figureFields, phaseFields, windowFields, swFields, drvFlagFields, bankFields]; decide))
  have lost : (m.boostLeft ch).rdB BK_STAT_LOST (bankOf ch) = m.rdB BK_STAT_LOST (bankOf ch) := congrArg (· != 0)
    (kept BK_STAT_LOST _ (by decide) (by simp [leftFields, figureFields, phaseFields, windowFields, swFields, drvFlagFields, bankFields]; decide))
  rw [enabled, lost] at hss
  rw [Chip.boostEnd_alone none_]
  exact ⟨(Chip.hsbFreed_rd _ _ (f := CH_DRV_STAT_PHASE) (by decide) (by decide) _).trans (m.boostLeft_phase ch), hsb,
    (Chip.hsbFreed_rd _ _ (by decide) (by decide) _).trans (m.boostLeft_owner ch), hss⟩

theorem Chip.boostEnd_stands {m : Chip} {ch c : Nat} (none_ : m.waiting (bankOf ch) = []) (h : bitAt (m.rd CH_DRV_FLAGS ch) c = true)
    (hc : c < CH_DRV_FLAGS.w) : bitAt ((m.boostEnd ch).rd CH_DRV_FLAGS ch) c = true := by
  rw [Chip.boostEnd_alone none_, Chip.hsbFreed_rd _ _ (by decide) (by decide)]
  exact Chip.boostLeft_stands h hc

/-- Settles O27: a grant and a denial by what the channel and its bank then show; the end of a boost phase finds nobody waiting. -/
theorem boostSwitch : Obligations.BoostSwitch := by
  unfold Obligations.BoostSwitch
  refine ⟨?_, ?_, ?_, ?_⟩
  · intro b w ws s front free waits bank low
    obtain ⟨hsb, hss, holder, owner, -, -⟩ := s.chip.hsbTaken_shows w
    obtain ⟨phase, ls, -⟩ := s.chip.boostOn_shows w
    have flag : bitAt ((s.chip.boostStart w).rd CH_DRV_FLAGS w) CH_DRV_FLAGS_BST_WAIT = true := by
      unfold Chip.boostStart
      rw [Chip.boostTake_waited waits, Chip.count_rd_ne _ _ _ _ _ (by decide)]
      exact Chip.drvFlag_bit _ _ _ (by decide)
    have bankKept : ∀ f, f.part ≠ .rInt → ([CH_DRV_FLAGS, BK_FLAGS, BK_CNT_GRANTS].all fun g => g.id != f.id) = true →
        ((boostFields w).all fun q => q.1.id != f.id) = true → ∀ i, (s.chip.boostStart w).rd f i = (s.chip.hsbTaken w).rd f i :=
      fun f hp hf hb i => (Chip.boostStart_rd waits hp hf i).trans (s.chip.boostOn_rd w hb i)
    refine ⟨_, exec_boostGrant b s, ?_⟩
    dsimp only
    rw [Chip.grantFirst_free front free, Chip.boostGrant_low waits low, ← bank,
      bankKept BK_STAT_HSB (by decide) (by decide) (by simp [boostFields, phaseFields, bankFields, swFields]; decide),
      bankKept BK_STAT_HSS (by decide) (by decide) (by simp [boostFields, phaseFields, bankFields, swFields]; decide),
      bankKept BK_STAT_HOLDER (by decide) (by decide) (by simp [boostFields, phaseFields, bankFields, swFields]; decide),
      bankKept CH_DRV_STAT_HSB_OWN (by decide) (by decide) (by simp [boostFields, phaseFields, bankFields, swFields]; decide),
      Chip.boostStart_rd waits (f := CH_DRV_STAT_LS) (by decide) (by decide)]
    exact ⟨(Chip.boostStart_rd waits (f := CH_DRV_STAT_PHASE) (by decide) (by decide) _).trans phase, hsb, hss, holder, owner, ls, flag⟩
  · intro ch s waits late
    obtain ⟨denied, bank, count, hsb⟩ := s.chip.deniedShown_shows ch.val
    have kept : ∀ f, ((phaseFields ch.val ++ swFields ch.val).all fun q => q.1.id != f.id) = true → ∀ i,
      (s.chip.boostDeny ch.val).rd f i = (s.chip.deniedShown ch.val).rd f i := fun f hf i => s.chip.boostDeny_rd ch.val hf i
    refine ⟨_, exec_boostDeferTimeout ch s, ?_⟩
    dsimp only
    rw [Chip.deferEnd_due waits late, kept CH_DRV_FLAGS (by simp [phaseFields, bankFields, swFields]; decide),
      kept BK_FLAGS (by simp [phaseFields, bankFields, swFields]; decide), kept CH_DRV_DENY (by simp [phaseFields, bankFields, swFields]; decide),
      kept BK_STAT_HSB (by simp [phaseFields, bankFields, swFields]; decide)]
    exact ⟨s.chip.boostDeny_phase ch.val, denied, bank, count, hsb⟩
  · intro ch code s boosts full none_
    have waits : (s.chip.wr CH_DRV_I_NOW ch.val code).waiting (bankOf ch.val) = [] :=
      Chip.waiting_nil.2 fun c hc => by
        rw [Chip.phase, Chip.rd_wr_ne _ _ _ _ _ _ (by decide)]
        exact Chip.waiting_nil.1 none_ c hc
    obtain ⟨phase, hsb, owner, hss⟩ := Chip.boostEnd_shows waits
    refine ⟨_, exec_boostCurrentReached ch code s, ?_⟩
    dsimp only
    rw [Chip.boostReached_due boosts full]
    refine ⟨phase, hsb, owner, hss.trans ?_⟩
    unfold Chip.rdB
    rw [Chip.rd_wr_ne _ _ _ _ _ _ (by decide), Chip.rd_wr_ne _ _ _ _ _ _ (by decide)]
  · intro ch s boosts late none_
    have waits : (s.chip.drvFlag ch.val CH_DRV_FLAGS_BST_TMO).waiting (bankOf ch.val) = [] :=
      Chip.waiting_nil.2 fun c hc => by
        rw [Chip.phase, (s.chip.drvFlag_regs _ _).rd (by decide) (by simp [drvFlagFields]; decide)]
        exact Chip.waiting_nil.1 none_ c hc
    obtain ⟨phase, hsb, -, -⟩ := Chip.boostEnd_shows waits
    refine ⟨_, exec_boostTimeout ch s, ?_⟩
    dsimp only
    rw [Chip.boostLimit_due boosts late]
    exact ⟨phase, hsb, Chip.boostEnd_stands waits (Chip.drvFlag_bit _ _ _ (by decide)) (by decide)⟩

end Sys2Proof.Machine
end

section
/-! PROOFS. Banks: enable, disable, supply limits, cluster silence (R202, R204, R225, R27). -/

namespace Sys2Proof.Machine

/-! ## Enable (R202) -/

theorem exec_bankEnableWrite {who : Writer} {b : Bank} {w : Word} {s : State} (ok : s.chip.driveOk who = true) :
    exec (.bankEnableWrite who b w) s = .next { s with chip := s.chip.bankCtl b.val w.toNat } := by
  change execBankEnableWrite who b w s = _
  simp [execBankEnableWrite, ok]

/-- A bank whose supply test, if any, is abandoned, and that is enabled. -/
def Chip.bankOn (m : Chip) (b : Nat) : Chip :=
  let n := (m.supAbort b).wr BK_CTL_EN b 1
  n.wrB BK_STAT_HSS b (!n.rdB BK_STAT_HSB b && !n.rdB BK_STAT_LOST b)

theorem Chip.bankCtl_on {m : Chip} {b w : Nat} (en : bitAt w 0 = true) (off : m.rd BK_CTL_EN b = 0) :
    m.bankCtl b w = ((m.wrFrom BK_CTL_DEFER b w).bankOn b).capFill (b / 3) := by
  have disabled : (m.wrFrom BK_CTL_DEFER b w).rdB BK_CTL_EN b = false := by
    unfold Chip.rdB Chip.wrFrom
    rw [Chip.rd_wr_ne _ _ _ _ _ _ (by decide), off]
    rfl
  unfold Chip.bankCtl
  simp only [en, disabled, if_true, Bool.false_eq_true, if_false]
  rfl

theorem Chip.supAbort_rd (m : Chip) (b : Nat) {f : Field} (h : f.part = .rBk) (i : Nat) : (m.supAbort b).rd f i = m.rd f i :=
  (Chip.supAbort_moves .refl (within_refl _)).rd f i (by rw [h]; decide)

theorem Chip.capFill_rd (m : Chip) (c : Nat) {f : Field} (h : f.part = .rBk) (i : Nat) : (m.capFill c).rd f i = m.rd f i :=
  (Chip.capFill_moves .refl (within_refl _)).rd f i (by rw [h]; decide)

theorem b2n_mod (v : Bool) : b2n v % 2 ^ 1 = b2n v := by cases v <;> rfl

theorem Chip.bankOn_shows (m : Chip) (b : Nat) :
    (m.bankOn b).rd BK_CTL_EN b = 1 ∧ (m.bankOn b).rd BK_STAT_HSS b = b2n (!m.rdB BK_STAT_HSB b && !m.rdB BK_STAT_LOST b) ∧
    (m.bankOn b).rd BK_CTL_DEFER b = m.rd BK_CTL_DEFER b := by
  have ne : ∀ f : Field, f.part = .rBk → f.id ≠ BK_CTL_EN.id → ((m.supAbort b).wr BK_CTL_EN b 1).rd f b = m.rd f b := fun f hp hf =>
    (Chip.rd_wr_ne _ _ _ _ _ _ hf).trans (m.supAbort_rd b hp b)
  unfold Chip.bankOn
  extract_lets n
  refine ⟨(Chip.rd_wr_ne _ _ _ _ _ _ (by decide)).trans (Chip.rd_wr_same _ _ _ _), ?_,
    (Chip.rd_wr_ne _ _ _ _ _ _ (by decide)).trans (ne _ rfl (by decide))⟩
  refine (Chip.rd_wr_same _ _ _ _).trans ((b2n_mod _).trans ?_)
  unfold Chip.rdB
  rw [ne BK_STAT_HSB rfl (by decide), ne BK_STAT_LOST rfl (by decide)]

/-! ## Disable with every channel OFF (R202) -/

/-- The drive and the bank go on as they were. -/
def Chip.SameDrive (x y : Chip) : Prop := ∀ f : Field, f.part = .rDrv ∨ f.part = .rBk → ∀ i, y.rd f i = x.rd f i

theorem Chip.SameDrive.moves {L : List Part} {x y : Chip} (h : Moves L x y) (drv : Part.rDrv ∉ L) (bk : Part.rBk ∉ L) : x.SameDrive y :=
  fun f hf i => h.rd f i (hf.elim (fun e => e ▸ drv) fun e => e ▸ bk)

theorem Chip.SameDrive.trans {x y z : Chip} (h : x.SameDrive y) (g : y.SameDrive z) : x.SameDrive z :=
  fun f hf i => (g f hf i).trans (h f hf i)

theorem Chip.SameDrive.phase {x y : Chip} (h : x.SameDrive y) (c : Nat) : y.phase c = x.phase c := h _ (.inl rfl) _

theorem Chip.cmdOff_drive (m : Chip) (ch : Nat) : m.SameDrive (m.cmdOff ch) := by
  have moved : Moves [.rCh, .rMap, .rInt, .asleep, .accums, .pool, .poolLast, .chans, .jour, .sys, .cyc] m (m.cmdOff ch) :=
    Chip.setChan_moves (Chip.cutPulses_moves (Chip.wr_moves (Chip.wr_moves .refl (by decide)) (by decide)) (by decide)) (by decide)
  exact .moves moved (by decide) (by decide)

theorem Chip.driveCutOwn_off {m : Chip} {ch : Nat} (off : m.phase ch = 0) : m.SameDrive (m.driveCutOwn ch) := by
  have stays : m.driveCutOwn ch = m.cmdOff ch := by
    refine (Chip.driveCut_eq _ _ _).trans ?_
    unfold Chip.drvOffAs Chip.drvOffBy
    exact if_pos (.inl (by rw [Chip.cmdOff_phase, off]; rfl))
  rw [stays]
  exact m.cmdOff_drive ch

theorem Chip.driveCutOwns_off (m : Chip) {l : List Nat} (off : ∀ c ∈ l, m.phase c = 0) : m.SameDrive (l.foldl Chip.driveCutOwn m) := by
  induction l generalizing m with
  | nil => exact fun _ _ _ => rfl
  | cons c r ih =>
    have first := Chip.driveCutOwn_off (off c List.mem_cons_self)
    exact first.trans (ih _ fun d hd => (first.phase d).trans (off d (List.mem_cons_of_mem _ hd)))

theorem Chip.offOrder_mem {m : Chip} {b c : Nat} : c ∈ m.offOrder b ↔ c ∈ bankChs b := by
  unfold Chip.offOrder
  rw [List.mem_append, List.mem_filter, List.mem_filter, ← and_or_left]
  refine and_iff_left ?_
  by_cases h : m.phase c = phWait <;> simp [h]

theorem Chip.nodeAborts_drive (m : Chip) (l : List Nat) : m.SameDrive (l.foldl Chip.nodeAbort m) :=
  .moves (L := [.rDg, .rDgb, .rInt, .asleep, .accums, .chans, .sys, .cyc])
    (Moves.foldl .refl fun _ _ h => Chip.nodeAbort_moves h (within_refl _)) (by decide) (by decide)

theorem Chip.bankCut_off {m : Chip} {b : Nat} (off : ∀ c ∈ bankChs b, m.phase c = 0) : m.SameDrive (m.bankCut b) :=
  (m.driveCutOwns_off fun c hc => off c (Chip.offOrder_mem.1 hc)).trans (Chip.nodeAborts_drive _ _)

theorem Chip.bankCtl_off {m : Chip} {b w : Nat} (en : bitAt w 0 = false) (on : m.rd BK_CTL_EN b = 1) :
    m.bankCtl b w = (((m.wrFrom BK_CTL_DEFER b w).bankCut b).wr BK_CTL_EN b 0).hssIdle b := by
  have enabled : (m.wrFrom BK_CTL_DEFER b w).rdB BK_CTL_EN b = true := by
    unfold Chip.rdB Chip.wrFrom
    rw [Chip.rd_wr_ne _ _ _ _ _ _ (by decide), on]
    rfl
  unfold Chip.bankCtl
  simp only [en, enabled, if_true, Bool.false_eq_true, if_false]

/-- A bank that is disabled with every channel OFF opens HSS. -/
theorem Chip.hssIdle_open {m : Chip} {b : Nat} (en : m.rd BK_CTL_EN b = 0) (off : ∀ c ∈ bankChs b, m.phase c = 0) :
    m.hssIdle b = m.wr BK_STAT_HSS b 0 := by
  refine if_pos ⟨by simp [Chip.rdB, en], List.all_eq_true.2 fun c hc => ?_⟩
  exact decide_eq_true (off c hc)

/-! ## Supply limits (R225) -/

theorem exec_vbkUndervoltage (b : Bank) (mv us : Nat) (s : State) :
    exec (.vbkUndervoltage b mv us) s = .next { s with chip := s.chip.vbkUv b.val mv us } := rfl

theorem exec_vbkLost (b : Bank) (mv us : Nat) (s : State) : exec (.vbkLost b mv us) s = .next { s with chip := s.chip.bankLose b.val mv us } := rfl

theorem exec_vbkBack (b : Bank) (mv us : Nat) (s : State) : exec (.vbkBack b mv us) s = .next { s with chip := s.chip.bankBack b.val mv us } := rfl

theorem Chip.vbkUv_low {m : Chip} {b mv us : Nat} (low : mv < 7000) (held : 1000 ≤ us) :
    m.vbkUv b mv us = ((m.wr BK_V_VBK b (mv / 10)).wr BK_STAT_UV b 1).bkFlag b BK_FLAGS_UV := if_pos ⟨low, held⟩

/-- A bank that is lost stands with HSS open. -/
def Chip.Dark (m : Chip) (b : Nat) : Prop := m.rd BK_STAT_LOST b = 1 ∧ m.rd BK_STAT_HSS b = 0

namespace Chip.Dark
variable {m : Chip} {b : Nat}

theorem moves {L : List Part} {y : Chip} (h : m.Dark b) (k : Moves L m y) (hp : Part.rBk ∉ L) : y.Dark b :=
  ⟨(k.rd BK_STAT_LOST _ hp).trans h.1, (k.rd BK_STAT_HSS _ hp).trans h.2⟩

theorem regs {l : List (Field × Nat)} {p : List Part} {y : Chip} (h : m.Dark b) (k : SameRegs l p m y) (hp : Part.rBk ∉ p)
    (lost : (l.all fun q => q.1.id != BK_STAT_LOST.id) = true) (hss : (l.all fun q => q.1.id != BK_STAT_HSS.id) = true) : y.Dark b :=
  ⟨(k.rd (f := BK_STAT_LOST) hp lost b).trans h.1, (k.rd (f := BK_STAT_HSS) hp hss b).trans h.2⟩

theorem wr {f : Field} (h : m.Dark b) (lost : BK_STAT_LOST.id ≠ f.id) (hss : BK_STAT_HSS.id ≠ f.id) (i v : Nat) : (m.wr f i v).Dark b :=
  ⟨(Chip.rd_wr_ne _ _ _ _ _ _ lost).trans h.1, (Chip.rd_wr_ne _ _ _ _ _ _ hss).trans h.2⟩

/-- HSS of any bank opens. -/
theorem open_ (h : m.Dark b) (i : Nat) : (m.wr BK_STAT_HSS i 0).Dark b := by
  refine ⟨(Chip.rd_wr_ne _ _ _ _ _ _ (by decide)).trans h.1, ?_⟩
  by_cases e : b = i
  · subst e
    exact Chip.rd_wr_same _ _ _ _
  · exact (Chip.rd_wr_at _ _ _ _ _ _ e).trans h.2

/-- HSB of a bank opens; HSS stays open in a bank that is lost. -/
theorem hsbFreed (h : m.Dark b) (i : Nat) : (m.hsbFreed i).Dark b := by
  refine ⟨(Chip.hsbFreed_rd _ _ (by decide) (by decide) _).trans h.1, ?_⟩
  by_cases e : b = i
  · subst e
    rw [(m.hsbFreed_shows b).2]
    have lost : m.rdB BK_STAT_LOST b = true := by
      unfold Chip.rdB
      rw [h.1]
      rfl
    rw [lost, Bool.not_true, Bool.and_false]
    rfl
  · exact (Chip.rd_wr_at _ _ _ _ _ _ e).trans ((Chip.rd_wr_ne _ _ _ _ _ _ (by decide)).trans h.2)

theorem setPhase (h : m.Dark b) (ch ph : Nat) : (m.setPhase ch ph).Dark b :=
  h.regs (m.setPhase_regs ch ph) (by decide) (by simp [phaseFields, bankFields]; decide) (by simp [phaseFields, bankFields]; decide)

theorem setSw (h : m.Dark b) (ch : Nat) (ls fw : Bool) : (m.setSw ch ls fw).Dark b := h.moves (Chip.setSw_moves .refl (within_refl _)) (by decide)

theorem drvFlag (h : m.Dark b) (ch k : Nat) : (m.drvFlag ch k).Dark b :=
  h.regs (m.drvFlag_regs ch k) (by decide) (by simp [drvFlagFields]; decide) (by simp [drvFlagFields]; decide)

theorem decayAs (h : m.Dark b) (ch : Nat) (fast : Bool) : (m.decayAs ch fast).2.Dark b :=
  h.regs (m.decayAs_regs ch fast) (by decide) (by simp [drvFlagFields]; decide) (by simp [drvFlagFields]; decide)

theorem stepTo (h : m.Dark b) (ch ph : Nat) (fast : Bool) : (m.stepTo ch ph fast).Dark b :=
  h.regs (m.stepTo_regs ch ph fast) (by decide) (by simp [phaseFields, windowFields, swFields, drvFlagFields, bankFields]; decide)
    (by simp [phaseFields, windowFields, swFields, drvFlagFields, bankFields]; decide)

theorem waitDone (h : m.Dark b) (ch : Nat) : (m.waitDone ch).Dark b := h.moves (Chip.waitDone_moves .refl (within_refl _)) (by decide)

theorem hsbTaken (h : m.Dark b) (ch : Nat) : (m.hsbTaken ch).Dark b :=
  ((((h.waitDone ch).wr (f := BK_STAT_HSB) (by decide) (by decide) (bankOf ch) 1).open_ (bankOf ch)).wr (f := BK_STAT_HOLDER) (by decide) (by decide)
    (bankOf ch) (ch % 8)).wr (f := CH_DRV_STAT_HSB_OWN) (by decide) (by decide) ch 1

theorem boostOn (h : m.Dark b) (ch : Nat) : (m.boostOn ch).Dark b :=
  (h.hsbTaken ch).regs (m.boostOn_regs ch) (by decide) (by simp [boostFields, phaseFields, bankFields, swFields]; decide)
    (by simp [boostFields, phaseFields, bankFields, swFields]; decide)

theorem boostStart (h : m.Dark b) (ch : Nat) : (m.boostStart ch).Dark b := by
  have taken : (m.boostTake ch).Dark b := by
    change Chip.Dark (if m.phase ch == phWait then (m.boostOn ch).drvFlag ch CH_DRV_FLAGS_BST_WAIT else m.boostOn ch) b
    split
    · exact (h.boostOn ch).drvFlag _ _
    · exact h.boostOn ch
  exact ⟨(Chip.count_rd_ne _ _ _ _ _ (by decide)).trans taken.1, (Chip.count_rd_ne _ _ _ _ _ (by decide)).trans taken.2⟩

theorem boostFigures (h : m.Dark b) (ch : Nat) : (m.boostFigures ch).Dark b := h.moves (Chip.boostFigures_moves .refl (within_refl _)) (by decide)

/-- HSB passes on: HSS stays open, whoever is granted. -/
theorem boostPass (h : m.Dark b) (i fuel : Nat) : (m.boostPass i fuel).Dark b := by
  induction fuel generalizing m with
  | zero => exact h
  | succ k ih =>
    unfold Chip.boostPass
    split
    · split
      · have started := h.boostStart
        dsimp only
        split
        · exact ih ((((started _).boostFigures _).wr (by decide) (by decide) _ _).stepTo _ _ _)
        · exact started _
      · exact h.hsbFreed i
    · exact h.hsbFreed i

theorem offBegun (h : m.Dark b) (ch : Nat) : (m.offBegun ch).Dark b :=
  (h.moves (Chip.noNotch_moves .refl (within_refl _)) (by decide)).moves (Chip.strokeOff_moves .refl (within_refl _)) (by decide)

theorem ite {x y : Chip} {c : Prop} [Decidable c] (h : x.Dark b) (g : y.Dark b) : (if c then x else y).Dark b := by
  split
  · exact h
  · exact g

theorem strokeOff (h : m.Dark b) (ch : Nat) : (m.strokeOff ch).Dark b := h.moves (Chip.strokeOff_moves .refl (within_refl _)) (by decide)

theorem setDrv (h : m.Dark b) (ch : Nat) (d : Drv) : (m.setDrv ch d).Dark b := h

theorem drvOffAs (h : m.Dark b) (ch : Nat) (fast : Bool) : (m.drvOffAs ch fast).Dark b := by
  unfold Chip.drvOffAs Chip.drvOffBy
  extract_lets ph waited _d ended begun left
  split
  · exact h
  split
  · have waits : waited.Dark b := (h.moves (Chip.noNotch_moves .refl (within_refl _)) (by decide)).waitDone ch
    have done_ : ended.Dark b := ((((waits.setDrv _ _).setSw _ _ _).setPhase _ _)).ite (waits.setPhase _ _)
    exact done_.strokeOff ch
  · have off : begun.Dark b := h.offBegun ch
    have gone : left.Dark b := ((off.boostFigures ch).wr (by decide) (by decide) _ _).ite off
    have cut := ((((gone.decayAs ch fast).setDrv ch { (left.decayAs ch fast).2.drv ch with
      fast := (left.decayAs ch fast).1, step := none, offTb := some (left.decayAs ch fast).2.tb, offCode := (left.decayAs ch fast).2.iNow ch }).setPhase
        ch phDecay).setSw ch false (!(left.decayAs ch fast).1))
    exact (cut.boostPass _ _).ite cut

theorem driveCutOwn (h : m.Dark b) (ch : Nat) : (m.driveCutOwn ch).Dark b := by
  have off : (m.cmdOff ch).Dark b := ⟨(m.cmdOff_drive ch _ (.inr rfl) _).trans h.1, (m.cmdOff_drive ch _ (.inr rfl) _).trans h.2⟩
  exact off.drvOffAs ch _

theorem driveCutOwns (h : m.Dark b) (l : List Nat) : (l.foldl Chip.driveCutOwn m).Dark b := by
  induction l generalizing m with
  | nil => exact h
  | cons c r ih => exact ih (h.driveCutOwn c)

theorem bankCut (h : m.Dark b) (i : Nat) : (m.bankCut i).Dark b :=
  ⟨(Chip.nodeAborts_drive _ _ _ (.inr rfl) _).trans (h.driveCutOwns _).1, (Chip.nodeAborts_drive _ _ _ (.inr rfl) _).trans (h.driveCutOwns _).2⟩

end Chip.Dark

/-- The bank is lost: marked, and HSS open. -/
def Chip.bankDark (m : Chip) (b mv : Nat) : Chip :=
  let n := m.wr BK_V_VBK b (mv / 10)
  ((n.setBank b { n.bank b with tooHigh := false }).wr BK_STAT_LOST b 1).wr BK_STAT_HSS b 0

theorem Chip.bankDark_dark (m : Chip) (b mv : Nat) : (m.bankDark b mv).Dark b :=
  ⟨(Chip.rd_wr_ne _ _ _ _ _ _ (by decide)).trans (Chip.rd_wr_same _ _ _ _), Chip.rd_wr_same _ _ _ _⟩

theorem Chip.bankDark_bank (m : Chip) (b mv : Nat) : ((m.bankDark b mv).bank b).tooHigh = false := congrArg BankSt.tooHigh (tabGet_put_same _ _ _ _)

theorem Chip.bankLose_low {m : Chip} {b mv us : Nat} (low : mv < 4500) (held : 10 ≤ us) (had : m.rd BK_STAT_LOST b = 0) :
    m.bankLose b mv us = ((m.bankDark b mv).bankCut b).bkFlag b BK_FLAGS_VBK_LOST := by
  unfold Chip.bankLose
  extract_lets n lost _old k
  have gone : lost = true := by simp [lost, held, low]
  have notHigh : decide (40000 < mv) = false := decide_eq_false (by omega)
  have set : k = n.setBank b { n.bank b with tooHigh := false } := by
    unfold k
    rw [if_pos gone, notHigh]
  have fresh : k.rdB BK_STAT_LOST b = false := by
    rw [set]
    unfold Chip.rdB
    rw [Chip.setBank_rd, Chip.rd_wr_ne _ _ _ _ _ _ (by decide), had]
    rfl
  rw [if_pos ⟨gone, by rw [fresh]; rfl⟩, set]
  rfl

theorem Chip.bankCut_bank (m : Chip) (b i : Nat) : (m.bankCut b).bank i = m.bank i :=
  Moves.bank (Chip.bankCut_moves .refl (within_refl _)) (by decide) i

theorem Chip.bkFlag_bank (m : Chip) (b k i : Nat) : (m.bkFlag b k).bank i = m.bank i :=
  Moves.bank (Chip.bkFlag_moves .refl (within_refl _)) (by decide) i

/-- The bank's supply as a measurement leaves it: VBK, and UV cleared where it is high enough. -/
def Chip.vbkSeen (m : Chip) (b mv us : Nat) : Chip :=
  let n := m.wr BK_V_VBK b (mv / 10)
  if 7500 ≤ mv ∧ 1000 ≤ us then n.wr BK_STAT_UV b 0 else n

theorem Chip.vbkSeen_rd (m : Chip) (b mv us : Nat) {f : Field} (vbk : f.id ≠ BK_V_VBK.id) (uv : f.id ≠ BK_STAT_UV.id) (i : Nat) :
    (m.vbkSeen b mv us).rd f i = m.rd f i := by
  unfold Chip.vbkSeen
  dsimp only
  split
  · exact (Chip.rd_wr_ne _ _ _ _ _ _ uv).trans (Chip.rd_wr_ne _ _ _ _ _ _ vbk)
  · exact Chip.rd_wr_ne _ _ _ _ _ _ vbk

theorem Chip.vbkSeen_bank (m : Chip) (b mv us i : Nat) : (m.vbkSeen b mv us).bank i = m.bank i := by
  unfold Chip.vbkSeen
  dsimp only
  split <;> rfl

/-- The bank returns: HSS closes where it is enabled and HSB is open. -/
def Chip.bankReturned (m : Chip) (b : Nat) : Chip := (m.wr BK_STAT_LOST b 0).wrB BK_STAT_HSS b (m.rdB BK_CTL_EN b && !m.rdB BK_STAT_HSB b)

theorem Chip.bankBack_due {m : Chip} {b mv us : Nat} (back : 6000 ≤ mv) (held : 1000 ≤ us) (notHigh : (m.bank b).tooHigh = false)
    (lost : m.rd BK_STAT_LOST b = 1) : m.bankBack b mv us = ((m.vbkSeen b mv us).bankReturned b).bkFlag b BK_FLAGS_VBK_BACK := by
  have gone : (m.vbkSeen b mv us).rdB BK_STAT_LOST b = true := by
    unfold Chip.rdB
    rw [m.vbkSeen_rd b mv us (by decide) (by decide), lost]
    rfl
  refine (if_pos ⟨?_, held, gone⟩ : m.bankBack b mv us = _)
  rw [← Chip.vbkSeen, m.vbkSeen_bank, notHigh]
  exact decide_eq_true back

theorem Chip.bankReturned_shows (m : Chip) (b : Nat) :
    (m.bankReturned b).rd BK_STAT_LOST b = 0 ∧ (m.bankReturned b).rd BK_STAT_HSS b = b2n (m.rdB BK_CTL_EN b && !m.rdB BK_STAT_HSB b) :=
  ⟨(Chip.rd_wr_ne _ _ _ _ _ _ (by decide)).trans (Chip.rd_wr_same _ _ _ _), (Chip.rd_wr_same _ _ _ _).trans (b2n_mod _)⟩

/-! ## Silence of a cluster (R27, R204) -/

theorem exec_clusterSilence (c : Cl) (s : State) : exec (.clusterSilence c) s = .next { s with chip := s.chip.clusterStop c.val } := rfl

/-- An event of a channel resolves: the output goes on as commanded. -/
theorem Chip.resolve_out (m : Chip) (i : Nat) (e : Ev) (out cause : Nat) (lat : Int) (tb htb : Nat) (stand : Bool) (c : Nat) :
    (m.resolve i e out cause lat tb htb stand).rd CH_STAT_OUT c = m.rd CH_STAT_OUT c := by
  have flagged : ∀ (y : Chip) ch b, (y.chFlag ch b).rd CH_STAT_OUT c = y.rd CH_STAT_OUT c := fun y ch b =>
    Chip.raise_rd_ne _ _ _ _ _ _ _ _ (by decide) (by decide)
  have outcome : ∀ (y : Chip) ch, (y.outcomeFlag ch out).rd CH_STAT_OUT c = y.rd CH_STAT_OUT c := fun y ch => by
    unfold Chip.outcomeFlag
    split
    · exact (flagged _ _ _).trans (Chip.count_rd_ne _ _ _ _ _ (by decide))
    split
    · exact (flagged _ _ _).trans (Chip.count_rd_ne _ _ _ _ _ (by decide))
    split
    · exact (flagged _ _ _).trans (Chip.count_rd_ne _ _ _ _ _ (by decide))
    split
    · exact flagged _ _ _
    split
    · exact (flagged _ _ _).trans (Chip.count_rd_ne _ _ _ _ _ (by decide))
    · rfl
  unfold Chip.resolve
  extract_lets +onlyGivenNames ch told
  have word : told.rd CH_STAT_OUT c = m.rd CH_STAT_OUT c := by
    unfold told
    split <;> rfl
  split
  · exact word
  · refine (outcome _ _).trans ?_
    unfold Chip.wrB
    iterate 5 rw [Chip.rd_wr_ne _ _ _ _ _ _ (by decide)]
    exact word

theorem Chip.freeSlot_out (m : Chip) (i c : Nat) : (m.freeSlot i).rd CH_STAT_OUT c = m.rd CH_STAT_OUT c :=
  ((SameRegs.rfl [] [] m).freeSlot).rd (by decide) rfl c

theorem Chip.finish_out (m : Chip) (i : Nat) (e : Ev) (out cause c : Nat) : (m.finish i e out cause).rd CH_STAT_OUT c = m.rd CH_STAT_OUT c :=
  (Chip.freeSlot_out _ _ _).trans (Chip.resolve_out _ _ _ _ _ _ _ _ _ _)

theorem Chip.pulseResolve_out (m : Chip) (ch i out cause htb c : Nat) :
    (m.pulseResolve ch i out cause htb).rd CH_STAT_OUT c = m.rd CH_STAT_OUT c := by
  unfold Chip.pulseResolve
  split
  · rfl
  · exact (Chip.freeSlot_out _ _ _).trans (Chip.resolve_out _ _ _ _ _ _ _ _ _ _)

/-- A channel that enters its safe state has its output off; the others' outputs go on. -/
theorem Chip.chanSafe_out (m : Chip) (ch : Nat) (fast : Bool) (c : Nat) :
    (m.chanSafe ch fast).rd CH_STAT_OUT c = if c = ch then 0 else m.rd CH_STAT_OUT c := by
  unfold Chip.chanSafe
  extract_lets due ended stopped _old cleared
  have ends : ended.rd CH_STAT_OUT c = m.rd CH_STAT_OUT c := by
    refine Chip.foldl_rd (fun y p => ?_) _ _
    dsimp only
    split
    · exact Chip.pulseResolve_out _ _ _ _ _ _ _
    · exact Chip.freeSlot_out _ _ _
    · rfl
    · exact Chip.finish_out _ _ _ _ _ _
    · exact Chip.finish_out _ _ _ _ _ _
  have stops : cleared.rd CH_STAT_OUT c = m.rd CH_STAT_OUT c :=
    (SameRegs.trainStop (SameRegs.rfl [] cutParts ended)).rd (f := CH_STAT_OUT) (by decide) rfl c |>.trans ends
  have kept := (Chip.drvOffAs_regs ((cleared.wr MAP_CH_STAT_OWN_ON ch 0).wr CH_STAT_OUT ch 0) ch fast).rd (f := CH_STAT_OUT) (by decide)
    (by simp [cutFields, flagFields]; decide) c
  refine kept.trans ?_
  split
  case isTrue e =>
    subst e
    exact Chip.rd_wr_same _ _ _ _
  case isFalse e => exact (Chip.rd_wr_at _ _ _ _ _ _ e).trans ((Chip.rd_wr_ne _ _ _ _ _ _ (by decide)).trans stops)

/-- An output that is off stays off while other channels enter their safe states; that of a channel among them is off after. -/
theorem Chip.chanSafes_out (m : Chip) (l : List Nat) {c : Nat} (h : c ∈ l ∨ m.rd CH_STAT_OUT c = 0) :
    (l.foldl (fun m ch => m.chanSafe ch true) m).rd CH_STAT_OUT c = 0 := by
  induction l generalizing m with
  | nil => exact h.elim (fun h => absurd h List.not_mem_nil) id
  | cons k r ih =>
    refine ih _ ?_
    rw [Chip.chanSafe_out]
    by_cases e : c = k
    · exact .inr (if_pos e)
    · rw [if_neg e]
      exact h.imp (fun h => (List.mem_cons.1 h).resolve_left e) id

theorem Chip.pwmStop_out {m : Chip} {ch c : Nat} (h : m.rd CH_STAT_OUT c = 0) : (m.pwmStop ch).rd CH_STAT_OUT c = 0 := by
  unfold Chip.pwmStop
  split
  case h_2 => exact h
  case h_1 o _ =>
    by_cases e : c = o
    · rw [e, Chip.pwmSet_out]
      rfl
    · have written : ((m.setLat ch { m.lat ch with periodTb := none, offTb := none, pwmOut := 0 }).wrB CH_STAT_OUT o false).rd CH_STAT_OUT c = 0 :=
        (Chip.rd_wr_at _ _ _ _ _ _ e).trans h
      unfold Chip.pwmSet
      dsimp only
      rw [if_neg (by simp)]
      split
      · exact (Chip.drvOffAs_regs _ _ _).rd (f := CH_STAT_OUT) (by decide) (by simp [cutFields, flagFields]; decide) c |>.trans written
      · exact written

theorem Chip.clusterOrder_mem (m : Chip) {c k : Nat} (h : k ∈ clusterChs c) : k ∈ m.clusterOrder c := by
  unfold Chip.clusterOrder
  rw [List.mem_append, Chip.offOrder_mem, Chip.offOrder_mem]
  simp only [clusterChs, bankChs, List.mem_map, List.mem_range] at h ⊢
  obtain ⟨i, hi, rfl⟩ := h
  by_cases low : i < 8
  · exact .inl ⟨i, low, by omega⟩
  · exact .inr ⟨i - 8, by omega, by omega⟩

/-- The chip of a cluster whose every channel has entered its safe state. -/
def Chip.clusterAsleep (m : Chip) (c : Nat) : Chip :=
  let n := (m.hsbOpen (2 * c)).hsbOpen (2 * c + 1)
  (n.clusterOrder c).foldl (fun m ch => m.chanSafe ch true) n

theorem Chip.clusterSafe_eq {m : Chip} {c : Nat} (h : m.safe c = false) :
    m.clusterSafe c = (m.clusterAsleep c).setIsland c { (m.clusterAsleep c).island c with safeSince := some (m.clusterAsleep c).tb } := by
  unfold Chip.clusterSafe
  rw [h]
  rfl

theorem Chip.clusterAsleep_out (m : Chip) {c k : Nat} (h : k ∈ clusterChs c) : (m.clusterAsleep c).rd CH_STAT_OUT k = 0 :=
  Chip.chanSafes_out _ _ (.inl (Chip.clusterOrder_mem _ h))

theorem Chip.clusterAsleep_tb (m : Chip) (c : Nat) : (m.clusterAsleep c).tb = m.tb := by
  have moved : Moves [.rCh, .rTr, .rDrv, .rBk, .rBst, .rDg, .rDgb, .rCap, .rInt, .rMap, .frees, .asleep, .accums, .pool, .poolLast, .chans, .banks,
      .boost, .bcap, .jour, .sys, .cyc] m (m.clusterAsleep c) :=
    Moves.foldl (Chip.hsbOpen_moves (Chip.hsbOpen_moves .refl (by decide)) (by decide)) fun _ _ h => Chip.chanSafe_moves h (within_refl _)
  exact moved.kept.tb (by decide)

/-- The lattice outputs of a cluster stop. -/
def Chip.clusterPwm (m : Chip) (c : Nat) : Chip := (clusterChs c).foldl (fun m ch => if m.rdB LAT_CFG_EN ch then m.pwmStop ch else m) m

theorem Chip.clusterPwm_out {m : Chip} {k : Nat} (h : m.rd CH_STAT_OUT k = 0) (c : Nat) : (m.clusterPwm c).rd CH_STAT_OUT k = 0 := by
  refine List.foldlRecOn (motive := fun y : Chip => y.rd CH_STAT_OUT k = 0) _ _ h fun y off ch _ => ?_
  split
  · exact Chip.pwmStop_out off
  · exact off

theorem Chip.clusterPwm_island (m : Chip) (c i : Nat) : (m.clusterPwm c).island i = m.island i := by
  have moved : Moves [.rCh, .rDrv, .rBk, .rBst, .rDg, .rDgb, .rCap, .rInt, .rMap, .frees, .asleep, .accums, .chans, .banks, .boost, .bcap, .sys, .cyc]
      m (m.clusterPwm c) := Moves.foldl .refl fun _ _ h => Moves.ite (Chip.pwmStop_moves h (within_refl _)) h
  unfold Chip.island
  rw [moved.kept.isl (by decide)]

theorem Chip.clusterSafe_out {m : Chip} {c k : Nat} (h : m.safe c = false) (hk : k ∈ clusterChs c) : (m.clusterSafe c).rd CH_STAT_OUT k = 0 := by
  rw [Chip.clusterSafe_eq h, Chip.setIsland_rd]
  exact m.clusterAsleep_out hk

theorem Chip.clusterSafe_since {m : Chip} {c : Nat} (h : m.safe c = false) : ((m.clusterSafe c).island c).safeSince = some m.tb := by
  rw [Chip.clusterSafe_eq h, Chip.clusterAsleep_tb]
  exact congrArg Island.safeSince (tabGet_put_same _ _ _ _)

/-- Settles O29: a bank that is cut stays dark while it is lost, and a cluster's outputs are off once each channel has entered its safe state. -/
theorem bankSupplies : Obligations.BankSupplies := by
  unfold Obligations.BankSupplies
  refine ⟨?_, ?_, ?_, ?_, ?_, ?_⟩
  · intro who b w s ok en off
    obtain ⟨enabled, hss, defer⟩ := (s.chip.wrFrom BK_CTL_DEFER b.val w.toNat).bankOn_shows b.val
    refine ⟨_, exec_bankEnableWrite ok, ?_⟩
    dsimp only
    rw [Chip.bankCtl_on en off, Chip.capFill_rd _ _ rfl, Chip.capFill_rd _ _ rfl, Chip.capFill_rd _ _ rfl]
    refine ⟨enabled, hss.trans ?_, defer.trans ?_⟩
    · unfold Chip.rdB Chip.wrFrom
      rw [Chip.rd_wr_ne _ _ _ _ _ _ (by decide), Chip.rd_wr_ne _ _ _ _ _ _ (by decide)]
    · exact (Chip.rd_wr_same _ _ _ _).trans (Nat.mod_eq_of_lt (Nat.mod_lt _ (by decide)))
  · intro who b w s ok en on off
    have offs : ∀ c ∈ bankChs b.val, (s.chip.wrFrom BK_CTL_DEFER b.val w.toNat).phase c = 0 := fun c hc =>
      (Chip.rd_wr_ne _ _ _ _ _ _ (by decide)).trans (beq_iff_eq.1 (List.all_eq_true.1 off c hc) : s.chip.phase c = 0)
    have cut := Chip.bankCut_off offs
    have disabled : (((s.chip.wrFrom BK_CTL_DEFER b.val w.toNat).bankCut b.val).wr BK_CTL_EN b.val 0).rd BK_CTL_EN b.val = 0 := Chip.rd_wr_same _ _ _ _
    refine ⟨_, exec_bankEnableWrite ok, ?_⟩
    dsimp only
    rw [Chip.bankCtl_off en on, Chip.hssIdle_open disabled fun c hc =>
      (Chip.rd_wr_ne _ _ _ _ _ _ (by decide)).trans ((cut.phase c).trans (offs c hc))]
    exact ⟨(Chip.rd_wr_ne _ _ _ _ _ _ (by decide)).trans disabled, Chip.rd_wr_same _ _ _ _⟩
  · intro c s awake
    have safe : (s.chip.clusterStop c.val) = (s.chip.clusterSafe c.val).clusterPwm c.val := rfl
    refine ⟨_, exec_clusterSilence c s, ?_⟩
    dsimp only
    rw [safe, Chip.clusterPwm_island]
    refine ⟨Chip.clusterSafe_since awake, List.all_eq_true.2 fun k hk => ?_⟩
    exact beq_iff_eq.2 (Chip.clusterPwm_out (Chip.clusterSafe_out awake hk) _)
  · intro b mv us s low held
    refine ⟨_, exec_vbkUndervoltage b mv us s, ?_⟩
    dsimp only
    rw [Chip.vbkUv_low low held]
    refine ⟨?_, ?_, Chip.bkFlag_bit _ _ _ (by decide), SameRegs.raise ?_ (by simp) (.inr (by simp))⟩
    rotate_left 2
    · exact ((SameRegs.rfl _ _ _).wr (.inr (by simp))).wr (.inr (by simp))
    · rw [Chip.bkFlag_rd_ne _ _ _ _ _ (by decide) (by decide)]
      exact Chip.rd_wr_same _ _ _ _
    · rw [Chip.bkFlag_rd_ne _ _ _ _ _ (by decide) (by decide), Chip.rd_wr_ne _ _ _ _ _ _ (by decide)]
      exact Chip.rd_wr_same _ _ _ _
  · intro b mv us s low held had
    obtain ⟨lost, hss⟩ := (s.chip.bankDark_dark b.val mv).bankCut b.val
    refine ⟨_, exec_vbkLost b mv us s, ?_⟩
    dsimp only
    rw [Chip.bankLose_low low held had, Chip.bkFlag_rd_ne _ _ _ _ _ (by decide) (by decide), Chip.bkFlag_rd_ne _ _ _ _ _ (by decide) (by decide),
      Chip.bkFlag_bank, Chip.bankCut_bank]
    exact ⟨lost, hss, Chip.bkFlag_bit _ _ _ (by decide), s.chip.bankDark_bank b.val mv⟩
  · intro b mv us s back held notHigh lost
    obtain ⟨had, hss⟩ := (s.chip.vbkSeen b.val mv us).bankReturned_shows b.val
    refine ⟨_, exec_vbkBack b mv us s, ?_⟩
    dsimp only
    rw [Chip.bankBack_due back held notHigh lost, Chip.bkFlag_rd_ne _ _ _ _ _ (by decide) (by decide),
      Chip.bkFlag_rd_ne _ _ _ _ _ (by decide) (by decide)]
    refine ⟨had, hss.trans ?_, Chip.bkFlag_bit _ _ _ (by decide)⟩
    unfold Chip.rdB
    rw [s.chip.vbkSeen_rd _ _ _ (by decide) (by decide), s.chip.vbkSeen_rd _ _ _ (by decide) (by decide)]

end Sys2Proof.Machine
end

section
/-! PROOFS. The boost controller: start, READY, time limit, shunt limit, clamps, overvoltage (R205-R208). -/

namespace Sys2Proof.Machine

theorem exec_boostCtlEnable {who : Writer} {w : Word} {s : State} (ok : s.chip.driveOk who = true) :
    exec (.boostCtlEnable who w) s = .next { s with chip := s.chip.bstCtl w.toNat } := by
  change execBoostCtlEnable who w s = _
  simp [execBoostCtlEnable, ok]

theorem exec_boostReady (mv : Nat) (s : State) : exec (.boostReady mv) s = .next { s with chip := s.chip.boostV mv } := rfl

theorem exec_boostStartTimeout (s : State) : exec .boostStartTimeout s = .next { s with chip := s.chip.boostStartEnd } := rfl

theorem exec_boostIlim (mv : Nat) (s : State) : exec (.boostIlim mv) s = .next { s with chip := s.chip.boostCycle mv } := rfl

theorem exec_railClampOn (d : Die) (mv : Nat) (s : State) : exec (.railClampOn d mv) s = .next { s with chip := s.chip.clampStart d.val mv } := rfl

theorem exec_boostOvIn (mv : Nat) (s : State) : exec (.boostOvIn mv) s = .next { s with chip := s.chip.ovIn mv } := rfl

theorem exec_boostOvOut (mv : Nat) (s : State) : exec (.boostOvOut mv) s = .next { s with chip := s.chip.ovOut mv } := rfl

/-! ## Rules -/

theorem Chip.bstFlag_rd_ne (m : Chip) (b : Nat) (f : Field) (i : Nat) (hp : f.part ≠ .rInt) (hf : f.id ≠ BST_FLAGS.id) :
    (m.bstFlag b).rd f i = m.rd f i := Chip.raise_rd_ne _ _ _ _ _ _ _ _ hp hf

theorem Chip.bstFlag_bit (m : Chip) (b : Nat) (h : b < BST_FLAGS.w) : bitAt ((m.bstFlag b).rd BST_FLAGS) b = true :=
  Chip.raise_bit _ _ _ _ _ _ (by decide) h

theorem Chip.bstFlag_boost (m : Chip) (b : Nat) : (m.bstFlag b).boost = m.boost :=
  (Chip.bstFlag_moves .refl (within_refl _)).kept.boost (by decide)

theorem SameRegs.bstFlag {l : List (Field × Nat)} {p : List Part} {x y : Chip} {b : Nat} (h : SameRegs l p x y) (hi : Part.rInt ∈ p)
    (hm : (BST_FLAGS, 0) ∈ l) : SameRegs l p x (y.bstFlag b) := h.raise hi (.inr hm)

theorem Chip.bstSet_regs (m : Chip) (st : Nat) : SameRegs [(BST_STAT_STATE, 0)] [] m (m.bstSet st) := by
  unfold Chip.bstSet
  refine SameRegs.wr ?_ (.inr (by simp))
  exact (SameRegs.rfl _ _ m).regs rfl

theorem Chip.bstSet_state (m : Chip) (st : Nat) : (m.bstSet st).rd BST_STAT_STATE = st % 2 ^ BST_STAT_STATE.w := Chip.rd_wr_same _ _ _ _

/-- The levels of VBOOST follow VB_SET and the margins. -/
theorem Chip.vbSet_of {x y : Chip} (h : y.rd BST_CTL_VB_SET = x.rd BST_CTL_VB_SET) : y.vbSet = x.vbSet := by
  unfold Chip.vbSet
  rw [h]

theorem Chip.vbReady_of {x y : Chip} (set : y.rd BST_CTL_VB_SET = x.rd BST_CTL_VB_SET) (rdy : y.rd BST_MARG_RDY = x.rd BST_MARG_RDY) :
    y.vbReady = x.vbReady := by
  unfold Chip.vbReady
  rw [Chip.vbSet_of set, rdy]

theorem Chip.vbClamp_of {x y : Chip} (set : y.rd BST_CTL_VB_SET = x.rd BST_CTL_VB_SET) (ofs : y.rd BST_MARG_CL_OFS = x.rd BST_MARG_CL_OFS) :
    y.vbClamp = x.vbClamp := by
  unfold Chip.vbClamp
  rw [Chip.vbSet_of set, ofs]

/-! ## What a level brings (R205-R207) -/

theorem Chip.boostState_ready {m : Chip} {mv : Nat} (st : m.rd BST_STAT_STATE = 1) (ready : m.vbReady ≤ mv) :
    m.boostState mv = ((m.bstSet 2).wr BST_STAT_READY 0 1).bstFlag BST_FLAGS_READY_IN := if_pos ⟨st, decide_eq_true ready⟩

theorem Chip.boostState_early {m : Chip} {mv : Nat} (st : m.rd BST_STAT_STATE = 1) (low : mv < m.vbReady) : m.boostState mv = m := by
  unfold Chip.boostState
  simp only [st, Nat.not_le.2 low, decide_false]
  rfl

theorem Chip.boostState_off {m : Chip} (st : m.rd BST_STAT_STATE = 0) (mv : Nat) : m.boostState mv = m := by
  unfold Chip.boostState
  simp only [st]
  rfl

/-- The fields of the controller's state. -/
def stateFieldsBst : List (Field × Nat) := [(BST_STAT_STATE, 0), (BST_STAT_READY, 0), (BST_FLAGS, 0)]

theorem Chip.boostState_regs (m : Chip) (mv : Nat) : SameRegs stateFieldsBst [.rInt] m (m.boostState mv) := by
  have state : SameRegs stateFieldsBst [.rInt] m (m.bstSet 2) := (m.bstSet_regs 2).weaken (by simp [stateFieldsBst]) (by simp)
  have shown : ∀ y b v, SameRegs stateFieldsBst [.rInt] m y → SameRegs stateFieldsBst [.rInt] m ((y.wr BST_STAT_READY 0 v).bstFlag b) :=
    fun y b v h => (h.wr (.inr (by simp [stateFieldsBst]))).bstFlag (by simp) (by simp [stateFieldsBst])
  unfold Chip.boostState
  dsimp only
  split
  · exact shown _ _ _ state
  split
  · split
    · exact shown _ _ _ (SameRegs.rfl _ _ m)
    split
    · exact shown _ _ _ (SameRegs.rfl _ _ m)
    · exact SameRegs.rfl _ _ m
  · exact SameRegs.rfl _ _ m

theorem Chip.boostState_boost (m : Chip) (mv : Nat) : (m.boostState mv).boost = m.boost :=
  (Chip.boostState_moves .refl (within_refl _)).kept.boost (by decide)

/-- The controller switches at its frequency. -/
def Chip.bstSwitching (m : Chip) : Chip := { m with boost := { m.boost with swKhz := clampN 20 100 (m.rd BST_CTL_FREQ) * 5 } }

theorem Chip.boostSwitch_low {m : Chip} (st : m.rd BST_STAT_STATE = 1) (low : m.boost.mv < m.vbSet) :
    m.boostSwitch = m.bstSwitching := by
  unfold Chip.boostSwitch
  simp only [st, low, if_true]
  rfl

/-- The clamps at the level as last measured: their energy is taken, and they end below their threshold. -/
def Chip.clampEnd (m : Chip) : Chip :=
  let m := m.clampTake
  if m.boost.mv ≤ m.vbClamp then { m with boost := { m.boost with clampA := false, clampB := false } }.wr BST_STAT_CLAMP 0 0 else m

theorem Chip.boostEval_eq (m : Chip) : m.boostEval = (m.boostState m.boost.mv).boostSwitch.clampEnd := rfl

/-- The fields of the clamps. -/
def clampFields : List (Field × Nat) := [(BST_CLAMP_E, 0), (BST_STAT_CLAMP, 0)]

theorem Chip.clampTake_regs (m : Chip) : SameRegs clampFields [] m m.clampTake := by
  unfold Chip.clampTake
  split
  · refine SameRegs.wr ?_ (.inr (by simp [clampFields]))
    exact (SameRegs.rfl _ _ m).regs rfl
  · exact SameRegs.rfl _ _ m

/-- Taking the energy of the clamps leaves the rest of the controller. -/
theorem Chip.clampTake_figures (m : Chip) :
    m.clampTake.boost.startTb = m.boost.startTb ∧ m.clampTake.boost.swKhz = m.boost.swKhz ∧ m.clampTake.boost.mv = m.boost.mv ∧
    m.clampTake.boost.clampA = m.boost.clampA ∧ m.clampTake.boost.clampB = m.boost.clampB := by
  unfold Chip.clampTake
  split <;> exact ⟨rfl, rfl, rfl, rfl, rfl⟩

theorem Chip.clampEnd_regs (m : Chip) : SameRegs clampFields [] m m.clampEnd := by
  unfold Chip.clampEnd
  extract_lets taken
  have took : SameRegs clampFields [] m taken := m.clampTake_regs
  split
  · refine SameRegs.wr ?_ (.inr (by simp [clampFields]))
    exact took.regs rfl
  · exact took

/-- The clamps' end leaves the controller's figures. -/
theorem Chip.clampEnd_figures (m : Chip) : m.clampEnd.boost.startTb = m.boost.startTb ∧ m.clampEnd.boost.swKhz = m.boost.swKhz := by
  obtain ⟨start, sw, -, -, -⟩ := m.clampTake_figures
  unfold Chip.clampEnd
  extract_lets taken
  split <;> exact ⟨start, sw⟩

/-- Above their threshold the clamps go on as they were. -/
theorem Chip.clampEnd_high {m : Chip} (high : m.vbClamp < m.boost.mv) :
    m.clampEnd.boost.clampA = m.boost.clampA ∧ m.clampEnd.boost.clampB = m.boost.clampB := by
  obtain ⟨-, -, mv, clampA, clampB⟩ := m.clampTake_figures
  have level : m.clampTake.vbClamp = m.vbClamp := Chip.vbClamp_of (m.clampTake_regs.rd (by decide) (by decide) 0) (m.clampTake_regs.rd (by decide) (by decide) 0)
  unfold Chip.clampEnd
  rw [if_neg (by rw [level, mv]; exact Nat.not_le.2 high)]
  exact ⟨clampA, clampB⟩

/-- The fields of what a level brings. -/
def evalFields : List (Field × Nat) := stateFieldsBst ++ clampFields

theorem Chip.boostEval_regs (m : Chip) : SameRegs evalFields [.rInt] m m.boostEval := by
  rw [Chip.boostEval_eq]
  have state : SameRegs evalFields [.rInt] m (m.boostState m.boost.mv).boostSwitch :=
    ((m.boostState_regs m.boost.mv).mono (by simp [evalFields])).regs (Eq.refl _)
  exact state.trans ((Chip.clampEnd_regs _).weaken (by simp [evalFields]) (by simp))

/-! ## BST_CTL (R205, R231) -/

/-- BST_CTL as a write of w leaves it. -/
def Chip.bstWritten (m : Chip) (w : Nat) : Chip :=
  (((m.wrFrom BST_CTL_VB_SET 0 w).wrFrom BST_CTL_FREQ 0 w).wrFrom BST_CTL_ILIM 0 w).wrB BST_CTL_EN 0 (bitAt w 0)

/-- A field of a written word reads as it was written. -/
theorem wordField_mod (f : Field) (w : Nat) : wordField f w % 2 ^ f.w = wordField f w :=
  Nat.mod_eq_of_lt (Nat.mod_lt _ (Nat.two_pow_pos _))

theorem Chip.bstWritten_shows (m : Chip) (w : Nat) :
    (m.bstWritten w).rd BST_CTL_EN = b2n (bitAt w 0) ∧ (m.bstWritten w).rd BST_CTL_FREQ = wordField BST_CTL_FREQ w ∧
    (m.bstWritten w).rd BST_CTL_VB_SET = wordField BST_CTL_VB_SET w ∧ (m.bstWritten w).rd BST_STAT_STATE = m.rd BST_STAT_STATE ∧
    (m.bstWritten w).rd BST_MARG_RDY = m.rd BST_MARG_RDY := by
  unfold Chip.bstWritten Chip.wrB Chip.wrFrom
  refine ⟨(Chip.rd_wr_same _ _ _ _).trans (b2n_mod _), ?_, ?_, ?_, ?_⟩ <;>
    simp (disch := decide) only [Chip.rd_wr_ne, Chip.rd_wr_same, wordField_mod]

/-- The controller starts. -/
def Chip.bstStarted (m : Chip) : Chip := { m with boost := { m.boost with startTb := m.tb } }.bstSet 1

theorem Chip.bstStarted_rd (m : Chip) {f : Field} (h : f.id ≠ BST_STAT_STATE.id) (i : Nat) : m.bstStarted.rd f i = m.rd f i :=
  Chip.rd_wr_ne _ _ _ _ _ _ h

theorem Chip.bstCtl_on {m : Chip} {w : Nat} (en : bitAt w 0 = true) (off : m.rd BST_STAT_STATE = 0) :
    m.bstCtl w = (m.bstWritten w).bstStarted.boostEval := by
  have state : (m.bstWritten w).rd BST_STAT_STATE = 0 := (m.bstWritten_shows w).2.2.2.1.trans off
  unfold Chip.bstWritten at state ⊢
  unfold Chip.bstCtl
  simp only [en, Bool.not_true, Bool.false_eq_true, if_false] at state ⊢
  rw [if_pos state]
  rfl

theorem Chip.bstCtl_off {m : Chip} {w : Nat} (en : bitAt w 0 = false) : m.bstCtl w = (((m.bstWritten w).bstSet 0).wr BST_STAT_READY 0 0).boostEval := by
  unfold Chip.bstCtl Chip.bstWritten
  simp only [en, Bool.not_false, if_true]

/-- A controller that stands in START below its READY level: it switches, and stays in START. -/
theorem Chip.boostEval_start {m : Chip} (st : m.rd BST_STAT_STATE = 1) (low : m.boost.mv < m.vbReady) :
    m.boostEval = m.bstSwitching.clampEnd := by
  rw [Chip.boostEval_eq, Chip.boostState_early st low, Chip.boostSwitch_low st (Nat.lt_of_lt_of_le low (Nat.sub_le _ _))]

/-- A controller that stands in START at its READY level enters RUN. -/
theorem Chip.boostEval_ready {m : Chip} (st : m.rd BST_STAT_STATE = 1) (ready : m.vbReady ≤ m.boost.mv) :
    m.boostEval.rd BST_STAT_STATE = 2 ∧ m.boostEval.rd BST_STAT_READY = 1 ∧ bitAt (m.boostEval.rd BST_FLAGS) BST_FLAGS_READY_IN = true := by
  have kept : ∀ f, ((clampFields).all fun q => q.1.id != f.id) = true → ∀ i,
      m.boostEval.rd f i = (((m.bstSet 2).wr BST_STAT_READY 0 1).bstFlag BST_FLAGS_READY_IN).rd f i := fun f hf i => by
    rw [Chip.boostEval_eq, Chip.boostState_ready st ready, (Chip.clampEnd_regs _).rd (by simp) hf]
    rfl
  rw [kept _ (by decide), kept _ (by decide), kept _ (by decide), Chip.bstFlag_rd_ne _ _ _ _ (by decide) (by decide),
    Chip.bstFlag_rd_ne _ _ _ _ (by decide) (by decide)]
  exact ⟨(Chip.rd_wr_ne _ _ _ _ _ _ (by decide)).trans (Chip.bstSet_state _ _), Chip.rd_wr_same _ _ _ _, Chip.bstFlag_bit _ _ (by decide)⟩

theorem Chip.boostEval_off {m : Chip} (st : m.rd BST_STAT_STATE = 0) : SameRegs clampFields [] m m.boostEval := by
  rw [Chip.boostEval_eq, Chip.boostState_off st]
  exact SameRegs.trans ((SameRegs.rfl _ _ m).regs (z := m.boostSwitch) (Eq.refl _)) (Chip.clampEnd_regs _)

/-! ## VBOOST is measured (R205-R208) -/

/-- VBOOST as measured, before what it brings. -/
def Chip.boostSeen (m : Chip) (mv : Nat) : Chip :=
  let n := { m with boost := { m.boost with mv := mv } }.wr BST_V 0 (mv / 10)
  match n.boost.rchgFrom with
  | some t => if n.vbSet ≤ mv then { n with boost := { n.boost with rchgFrom := none } }.wr BST_RCHG 0 (min 1048575 ((n.tb - t) / usTb)) else n
  | none => n

theorem Chip.boostV_eq (m : Chip) (mv : Nat) : m.boostV mv = (m.boostSeen mv).boostEval := rfl

theorem Chip.boostSeen_regs (m : Chip) (mv : Nat) : SameRegs [(BST_V, 0), (BST_RCHG, 0)] [] m (m.boostSeen mv) := by
  unfold Chip.boostSeen
  extract_lets _b n
  have shown : SameRegs [(BST_V, 0), (BST_RCHG, 0)] [] m n := by
    refine SameRegs.wr ?_ (.inr (by simp))
    exact (SameRegs.rfl _ _ m).regs (Eq.refl _)
  split
  · split
    · refine SameRegs.wr ?_ (.inr (by simp))
      exact shown.regs (Eq.refl _)
    · exact shown
  · exact shown

theorem Chip.boostSeen_v (m : Chip) (mv : Nat) : (m.boostSeen mv).rd BST_V = mv / 10 % 2 ^ BST_V.w := by
  unfold Chip.boostSeen
  dsimp only
  split
  · split
    · exact (Chip.rd_wr_ne _ _ _ _ _ _ (by decide)).trans (Chip.rd_wr_same _ _ _ _)
    · exact Chip.rd_wr_same _ _ _ _
  · exact Chip.rd_wr_same _ _ _ _

theorem Chip.boostSeen_figures (m : Chip) (mv : Nat) :
    (m.boostSeen mv).boost.mv = mv ∧ (m.boostSeen mv).boost.clampA = m.boost.clampA ∧ (m.boostSeen mv).boost.clampB = m.boost.clampB := by
  unfold Chip.boostSeen
  dsimp only
  split
  · split <;> exact ⟨rfl, rfl, rfl⟩
  · exact ⟨rfl, rfl, rfl⟩

/-- A measurement leaves the registers it is no part of. -/
theorem Chip.boostV_rd (m : Chip) (mv : Nat) {f : Field} (hp : f.part ≠ .rInt)
    (hf : ((evalFields ++ [(BST_V, 0), (BST_RCHG, 0)]).all fun q => q.1.id != f.id) = true) (i : Nat) : (m.boostV mv).rd f i = m.rd f i := by
  rw [List.all_append, Bool.and_eq_true] at hf
  rw [Chip.boostV_eq, (Chip.boostEval_regs _).rd (by simpa using hp) hf.1, (m.boostSeen_regs mv).rd (by simp) hf.2]

theorem Chip.boostV_vbClamp (m : Chip) (mv : Nat) : (m.boostV mv).vbClamp = m.vbClamp :=
  Chip.vbClamp_of (m.boostV_rd mv (by decide) (by decide) 0) (m.boostV_rd mv (by decide) (by decide) 0)

/-- Above the clamps' threshold a measurement leaves the clamps. -/
theorem Chip.boostV_clamps {m : Chip} {mv : Nat} (high : m.vbClamp < mv) :
    (m.boostV mv).boost.clampA = m.boost.clampA ∧ (m.boostV mv).boost.clampB = m.boost.clampB := by
  obtain ⟨level, a, b⟩ := m.boostSeen_figures mv
  have kept : ((m.boostSeen mv).boostState (m.boostSeen mv).boost.mv).boost = (m.boostSeen mv).boost := Chip.boostState_boost _ _
  have threshold : ((m.boostSeen mv).boostState (m.boostSeen mv).boost.mv).boostSwitch.vbClamp = m.vbClamp :=
    Chip.vbClamp_of (((Chip.boostState_regs _ _).rd (f := BST_CTL_VB_SET) (by decide) (by decide) 0).trans ((m.boostSeen_regs mv).rd (by decide) (by decide) 0))
      (((Chip.boostState_regs _ _).rd (f := BST_MARG_CL_OFS) (by decide) (by decide) 0).trans ((m.boostSeen_regs mv).rd (by decide) (by decide) 0))
  have now : ((m.boostSeen mv).boostState (m.boostSeen mv).boost.mv).boostSwitch.boost.mv = mv := (congrArg BoostSt.mv kept).trans level
  obtain ⟨endA, endB⟩ := Chip.clampEnd_high (by rwa [threshold, now])
  exact ⟨endA.trans ((congrArg BoostSt.clampA kept).trans a), endB.trans ((congrArg BoostSt.clampB kept).trans b)⟩

/-- A clamp that starts to conduct. -/
def Chip.clampOn (m : Chip) (d : Nat) : Chip :=
  ({ m with boost := if d = 0 then { m.boost with clampA := true } else { m.boost with clampB := true } }.wr BST_STAT_CLAMP 0 1).bstFlag
    BST_FLAGS_CLAMP_ON

theorem Chip.clampStart_due {m : Chip} {d mv : Nat} (high : m.vbClamp < mv) (open_ : (if d = 0 then m.boost.clampA else m.boost.clampB) = false) :
    m.clampStart d mv = (m.boostV mv).clampOn d := by
  obtain ⟨a, b⟩ := Chip.boostV_clamps high
  refine if_pos ⟨by rwa [Chip.boostV_vbClamp], ?_⟩
  rw [a, b, open_]
  rfl

theorem Chip.clampOn_shows (m : Chip) (d : Nat) :
    (m.clampOn d).rd BST_STAT_CLAMP = 1 ∧ (if d = 0 then (m.clampOn d).boost.clampA else (m.clampOn d).boost.clampB) = true ∧
    bitAt ((m.clampOn d).rd BST_FLAGS) BST_FLAGS_CLAMP_ON = true := by
  unfold Chip.clampOn
  rw [Chip.bstFlag_boost]
  refine ⟨(Chip.bstFlag_rd_ne _ _ _ _ (by decide) (by decide)).trans (Chip.rd_wr_same _ _ _ _), ?_, Chip.bstFlag_bit _ _ (by decide)⟩
  by_cases h : d = 0
  · simp only [if_pos h]
    rfl
  · simp only [if_neg h]
    rfl

theorem Chip.clampOn_other (m : Chip) : (m.clampOn 0).boost.clampB = m.boost.clampB := by
  unfold Chip.clampOn
  rw [Chip.bstFlag_boost]
  rfl

/-! ## Overvoltage, the time limit, the shunt limit -/

theorem Chip.ovIn_due {m : Chip} {mv : Nat} (high : 70000 ≤ mv) (clear : m.rd BST_STAT_OV = 0) :
    m.ovIn mv = ((m.boostV mv).chans.map (·.1)).foldl Chip.decaySlow (((m.boostV mv).wr BST_STAT_OV 0 1).bstFlag BST_FLAGS_OV_IN) := by
  refine if_pos ⟨high, ?_⟩
  unfold Chip.rdB
  rw [m.boostV_rd mv (by decide) (by decide), clear]
  rfl

theorem Chip.ovOut_due {m : Chip} {mv : Nat} (low : mv < 68000) (set : m.rd BST_STAT_OV = 1) :
    m.ovOut mv = ((m.boostV mv).wr BST_STAT_OV 0 0).bstFlag BST_FLAGS_OV_OUT := by
  refine if_pos ⟨low, ?_⟩
  unfold Chip.rdB
  rw [m.boostV_rd mv (by decide) (by decide), set]
  rfl

/-- The channels that go on by a slow decay leave the controller. -/
theorem Chip.decaySlows_rd (m : Chip) (l : List Nat) {f : Field} (h : f.part = .rBst) (i : Nat) : (l.foldl Chip.decaySlow m).rd f i = m.rd f i :=
  Chip.foldl_rd (fun _ _ => (Chip.decaySlow_moves .refl (within_refl _)).rd f i (by rw [h]; decide)) _ _

theorem Chip.boostStartEnd_due {m : Chip} (st : m.rd BST_STAT_STATE = 1) (late : m.boost.startTb + 200 * msTb ≤ m.tb) :
    m.boostStartEnd = (m.bstSet 3).boostSwitch.bstFlag BST_FLAGS_START_TMO := if_pos ⟨st, late⟩

theorem Chip.boostCycle_due {m : Chip} {mv : Nat} (on : m.boost.swKhz ≠ 0) (closed : m.discClosed = true)
    (high : clampN 10 150 (m.rd BST_CTL_ILIM) ≤ mv) : m.boostCycle mv = m.bstFlag BST_FLAGS_ILIM := if_pos ⟨on, closed, high⟩

/-- Settles O30: each clause by what a level brings in the state the controller stands in. -/
theorem boostController : Obligations.BoostController := by
  unfold Obligations.BoostController
  refine ⟨?_, ?_, ?_, ?_, ?_, ?_, ?_, ?_, ?_⟩
  · intro who w s ok en off low
    obtain ⟨enabled, freq, set, -, rdy⟩ := s.chip.bstWritten_shows w.toNat
    have level : (s.chip.bstWritten w.toNat).bstStarted.vbReady = (s.chip.wrFrom BST_CTL_VB_SET 0 w.toNat).vbReady :=
      Chip.vbReady_of ((Chip.bstStarted_rd _ (by decide) 0).trans (set.trans ((Chip.rd_wr_same _ _ _ _).trans (wordField_mod _ _)).symm))
        ((Chip.bstStarted_rd _ (by decide) 0).trans (rdy.trans (Chip.rd_wr_ne _ _ _ _ _ _ (by decide)).symm))
    have st : (s.chip.bstWritten w.toNat).bstStarted.rd BST_STAT_STATE = 1 := Chip.bstSet_state _ 1
    have eval := Chip.boostEval_start st (by rwa [level])
    obtain ⟨start, khz⟩ := ((s.chip.bstWritten w.toNat).bstStarted.bstSwitching).clampEnd_figures
    have kept := ((s.chip.bstWritten w.toNat).bstStarted.bstSwitching).clampEnd_regs
    refine ⟨_, exec_boostCtlEnable ok, ?_⟩
    dsimp only
    rw [Chip.bstCtl_on en off, eval, kept.rd (by decide) (by decide), kept.rd (by decide) (by decide), kept.rd (by decide) (by decide), start, khz]
    refine ⟨(Chip.bstStarted_rd _ (by decide) 0).trans (enabled.trans (by rw [en]; rfl)), st, rfl, ?_, (Chip.bstStarted_rd _ (by decide) 0).trans set⟩
    exact congrArg (fun f => clampN 20 100 f * 5) ((Chip.bstStarted_rd _ (by decide) 0).trans freq)
  · intro who w s ok en
    have st : (((s.chip.bstWritten w.toNat).bstSet 0).wr BST_STAT_READY 0 0).rd BST_STAT_STATE = 0 :=
      (Chip.rd_wr_ne _ _ _ _ _ _ (by decide)).trans (Chip.bstSet_state _ _)
    have kept := Chip.boostEval_off st
    obtain ⟨enabled, -⟩ := s.chip.bstWritten_shows w.toNat
    refine ⟨_, exec_boostCtlEnable ok, ?_⟩
    dsimp only
    rw [Chip.bstCtl_off en, kept.rd (by decide) (by decide), kept.rd (by decide) (by decide), kept.rd (by decide) (by decide), st]
    refine ⟨?_, rfl, Chip.rd_wr_same _ _ _ _⟩
    rw [Chip.rd_wr_ne _ _ _ _ _ _ (by decide), (Chip.bstSet_regs _ _).rd (by decide) (by decide), enabled, en]
    rfl
  · intro mv s st ready
    obtain ⟨state, shown, flag⟩ := Chip.boostEval_ready (m := s.chip.boostSeen mv) (by rw [(s.chip.boostSeen_regs mv).rd (by decide) (by decide), st])
      (by rw [(s.chip.boostSeen_figures mv).1, Chip.vbReady_of ((s.chip.boostSeen_regs mv).rd (by decide) (by decide) 0)
        ((s.chip.boostSeen_regs mv).rd (by decide) (by decide) 0)]; exact ready)
    refine ⟨_, exec_boostReady mv s, ?_⟩
    dsimp only
    rw [Chip.boostV_eq]
    refine ⟨state, shown, flag, ?_⟩
    rw [(Chip.boostEval_regs _).rd (by decide) (by decide), Chip.boostSeen_v]
  · intro s st late
    refine ⟨_, exec_boostStartTimeout s, ?_⟩
    dsimp only
    rw [Chip.boostStartEnd_due st late]
    refine ⟨(Chip.bstFlag_rd_ne _ _ _ _ (by decide) (by decide)).trans (Chip.bstSet_state _ _), Chip.bstFlag_bit _ _ (by decide),
      SameRegs.bstFlag ?_ (by simp) (by simp)⟩
    exact ((s.chip.bstSet_regs 3).weaken (by simp) (by simp)).regs (Eq.refl _)
  · intro mv s on closed high
    refine ⟨_, exec_boostIlim mv s, ?_⟩
    dsimp only
    rw [Chip.boostCycle_due on closed high]
    exact ⟨Chip.bstFlag_bit _ _ (by decide), (SameRegs.rfl _ _ _).bstFlag (by simp) (by simp)⟩
  · intro mv s high open_
    obtain ⟨clamp, a, flag⟩ := (s.chip.boostV mv).clampOn_shows 0
    obtain ⟨-, b⟩ := Chip.boostV_clamps high
    refine ⟨_, exec_railClampOn 0 mv s, ?_⟩
    dsimp only
    rw [show (0 : Die).val = 0 from rfl, Chip.clampStart_due high (d := 0) open_]
    exact ⟨clamp, a, ((s.chip.boostV mv).clampOn_other).trans b, flag⟩
  · intro mv s high clear
    refine ⟨_, exec_boostOvIn mv s, ?_⟩
    dsimp only
    rw [Chip.ovIn_due high clear, Chip.decaySlows_rd _ _ rfl, Chip.decaySlows_rd _ _ rfl]
    exact ⟨(Chip.bstFlag_rd_ne _ _ _ _ (by decide) (by decide)).trans (Chip.rd_wr_same _ _ _ _), Chip.bstFlag_bit _ _ (by decide)⟩
  · intro mv s low set
    refine ⟨_, exec_boostOvOut mv s, ?_⟩
    dsimp only
    rw [Chip.ovOut_due low set]
    exact ⟨(Chip.bstFlag_rd_ne _ _ _ _ (by decide) (by decide)).trans (Chip.rd_wr_same _ _ _ _), Chip.bstFlag_bit _ _ (by decide)⟩
  · intro d mv s high open_
    refine ⟨_, exec_railClampOn d mv s, ?_⟩
    dsimp only
    rw [Chip.clampStart_due high open_]
    exact (s.chip.boostV mv).clampOn_shows d.val

end Sys2Proof.Machine
end

section
/-! PROOFS. Limits of the drive: windows, duty, temperature, loss budget (R219-R224). -/

namespace Sys2Proof.Machine

/-! ## Windows (R219) -/

theorem exec_chDrvWindowWrite {who : Writer} {ch : Ch} {hold : Bool} {w : Word} {s : State} (ok : s.chip.chOk who ch.val = true) :
    exec (.chDrvWindowWrite who ch hold w) s = .next { s with chip := s.chip.windowWrite ch.val w.toNat hold } := by
  change execChDrvWindowWrite who ch hold w s = _
  simp [execChDrvWindowWrite, ok]

section
variable {m : Chip} {ch w : Nat}

theorem Chip.windowWrite_peak (order : w % 1024 < w / 65536 % 1024) (within : w / 65536 % 1024 ≤ m.capPeak ch) :
    m.windowWrite ch w false = (m.wr CH_DRV_PK_PK_LO ch (w % 1024)).wr CH_DRV_PK_PK_HI ch (w / 65536 % 1024) := by
  have hi : min (w / 65536 % 1024) (m.capPeak ch) = w / 65536 % 1024 := Nat.min_eq_left within
  have lo : min (w % 1024) (m.capPeak ch) = w % 1024 := Nat.min_eq_left (Nat.le_trans (Nat.le_of_lt order) within)
  unfold Chip.windowWrite
  simp only [Bool.false_eq_true, if_false, if_neg (Nat.not_lt.2 within), hi, lo]
  rw [if_neg (Nat.not_le.2 order), if_neg (by simp)]

theorem Chip.windowWrite_hold (order : w % 1024 < w / 65536 % 1024) (within : w / 65536 % 1024 ≤ m.capHold ch) :
    m.windowWrite ch w true = (((m.wr CH_DRV_HD_HD_LO ch (w % 1024)).wr CH_DRV_HD_HD_HI ch (w / 65536 % 1024)).holdEff ch).trimStat (dieOf ch) := by
  have hi : min (w / 65536 % 1024) (m.capHold ch) = w / 65536 % 1024 := Nat.min_eq_left within
  have lo : min (w % 1024) (m.capHold ch) = w % 1024 := Nat.min_eq_left (Nat.le_trans (Nat.le_of_lt order) within)
  unfold Chip.windowWrite
  simp only [if_true, if_neg (Nat.not_lt.2 within), hi, lo]
  rw [if_neg (Nat.not_le.2 order), if_neg (by simp)]

theorem Chip.windowWrite_refused (order : w / 65536 % 1024 ≤ w % 1024) (within : w / 65536 % 1024 ≤ m.capPeak ch) :
    m.windowWrite ch w false = m.drvFlag ch CH_DRV_FLAGS_CFG_ERR := by
  have hi : min (w / 65536 % 1024) (m.capPeak ch) = w / 65536 % 1024 := Nat.min_eq_left within
  unfold Chip.windowWrite
  simp only [Bool.false_eq_true, if_false, if_neg (Nat.not_lt.2 within), hi]
  exact if_pos (Nat.le_min.2 ⟨order, within⟩)

end

theorem Chip.holdEff_rd (m : Chip) (ch : Nat) {f : Field}
    (hf : ([CH_DRV_HD_EFF_LO_EFF, CH_DRV_HD_EFF_HI_EFF, CH_DRV_STAT_TRIM].all fun g => g.id != f.id) = true) (i : Nat) :
    (m.holdEff ch).rd f i = m.rd f i := by
  obtain ⟨lo, hi, trim⟩ : CH_DRV_HD_EFF_LO_EFF.id ≠ f.id ∧ CH_DRV_HD_EFF_HI_EFF.id ≠ f.id ∧ CH_DRV_STAT_TRIM.id ≠ f.id := by simpa using hf
  unfold Chip.holdEff Chip.wrB
  dsimp only
  rw [Chip.rd_wr_ne _ _ _ _ _ _ trim.symm, Chip.rd_wr_ne _ _ _ _ _ _ hi.symm, Chip.rd_wr_ne _ _ _ _ _ _ lo.symm, Chip.setDrv_rd]

theorem Chip.trimStat_rd (m : Chip) (d : Nat) {f : Field} (h : f.part = .rDrv) (i : Nat) : (m.trimStat d).rd f i = m.rd f i :=
  (Chip.trimStat_moves .refl (within_refl _)).rd f i (by rw [h]; decide)

/-! ## A cut leaves the other registers of the drive -/

/-- The registers of a channel that a turn-off, or HSB passing on, changes. -/
def offRegs : List Field :=
  [CH_DRV_STAT_PHASE, CH_DRV_STAT_LS, CH_DRV_STAT_FW, CH_DRV_STAT_HSB_OWN, CH_DRV_FLAGS, CH_DRV_LAST_WAIT, CH_DRV_LAST_BST]

/-- A register of the drive that no turn-off changes. -/
structure OffKept (f : Field) : Prop where
  drv : f.part = .rDrv
  other : (offRegs.all fun g => g.id != f.id) = true

theorem Field.id_ne_of_part {f g : Field} (h : f.part ≠ g.part) : f.id ≠ g.id := fun e => h (congrArg (fun n => partOfAddr (n / 32)) e)

/-- It is left by what changes those registers, and registers outside the drive. -/
theorem SameRegs.rd_kept {l : List (Field × Nat)} {p : List Part} {x y : Chip} (h : SameRegs l p x y) {f : Field} (k : OffKept f)
    (hp : Part.rDrv ∉ p) (hl : (l.all fun q => q.1.part != .rDrv || offRegs.any fun g => g.id == q.1.id) = true) (i : Nat) :
    y.rd f i = x.rd f i := by
  refine h.rd (by rwa [k.drv]) (List.all_eq_true.2 fun q hq => bne_iff_ne.2 fun e => ?_) i
  rcases Bool.or_eq_true_iff.1 (List.all_eq_true.1 hl q hq) with part | off
  · exact Field.id_ne_of_part (by rw [k.drv]; exact bne_iff_ne.1 part) e
  · obtain ⟨g, hg, eq⟩ := List.any_eq_true.1 off
    exact bne_iff_ne.1 (List.all_eq_true.1 k.other g hg) ((beq_iff_eq.1 eq).trans e)

namespace OffKept
variable {f : Field} (k : OffKept f)
include k

theorem wr (m : Chip) {g : Field} (h : (g.part != .rDrv || offRegs.any fun a => a.id == g.id) = true) (j v i : Nat) :
    (m.wr g j v).rd f i = m.rd f i := ((SameRegs.rfl [(g, j)] [] m).wr (.inr (by simp))).rd_kept k (by decide) (by simpa using h) i

theorem setPhase (m : Chip) (ch ph i : Nat) : (m.setPhase ch ph).rd f i = m.rd f i :=
  (m.setPhase_regs ch ph).rd_kept k (by decide) (by simp [phaseFields, bankFields]; decide) i

theorem setSw (m : Chip) (ch : Nat) (ls fw : Bool) (i : Nat) : (m.setSw ch ls fw).rd f i = m.rd f i :=
  (m.setSw_regs ch ls fw).rd_kept k (by decide) (by simp [swFields]; decide) i

theorem drvFlag (m : Chip) (ch b i : Nat) : (m.drvFlag ch b).rd f i = m.rd f i :=
  (m.drvFlag_regs ch b).rd_kept k (by decide) (by simp [drvFlagFields]; decide) i

theorem decayAs (m : Chip) (ch : Nat) (fast : Bool) (i : Nat) : (m.decayAs ch fast).2.rd f i = m.rd f i :=
  (m.decayAs_regs ch fast).rd_kept k (by decide) (by simp [drvFlagFields]; decide) i

theorem stepTo (m : Chip) (ch ph : Nat) (fast : Bool) (i : Nat) : (m.stepTo ch ph fast).rd f i = m.rd f i :=
  (m.stepTo_regs ch ph fast).rd_kept k (by decide) (by simp [phaseFields, windowFields, swFields, drvFlagFields, bankFields]; decide) i

theorem waitDone (m : Chip) (ch i : Nat) : (m.waitDone ch).rd f i = m.rd f i :=
  (m.waitDone_regs ch).rd_kept k (by decide) (by simp; decide) i

theorem boostFigures (m : Chip) (ch i : Nat) : (m.boostFigures ch).rd f i = m.rd f i :=
  (m.boostFigures_regs ch).rd_kept k (by decide) (by simp [figureFields]; decide) i

theorem hsbTaken (m : Chip) (ch i : Nat) : (m.hsbTaken ch).rd f i = m.rd f i := by
  unfold Chip.hsbTaken
  dsimp only
  rw [Chip.setDrv_rd, k.wr _ (by decide), k.wr _ (by decide), k.wr _ (by decide), k.wr _ (by decide), k.waitDone]

theorem boostStart (m : Chip) (ch i : Nat) : (m.boostStart ch).rd f i = m.rd f i := by
  have on : (m.boostOn ch).rd f i = m.rd f i :=
    ((m.boostOn_regs ch).rd_kept k (by decide) (by simp [boostFields, phaseFields, bankFields, swFields]; decide) i).trans (k.hsbTaken m ch i)
  refine (Chip.count_rd_ne _ _ _ _ _ (Field.id_ne_of_part (by rw [k.drv]; decide))).trans ?_
  change Chip.rd (if m.phase ch == phWait then (m.boostOn ch).drvFlag ch CH_DRV_FLAGS_BST_WAIT else m.boostOn ch) f i = _
  split
  · rw [k.drvFlag, on]
  · exact on

theorem hsbFreed (m : Chip) (b i : Nat) : (m.hsbFreed b).rd f i = m.rd f i :=
  Chip.hsbFreed_rd _ _ (Field.id_ne_of_part (by rw [k.drv]; decide)) (Field.id_ne_of_part (by rw [k.drv]; decide)) _

theorem boostPass (m : Chip) (b fuel i : Nat) : (m.boostPass b fuel).rd f i = m.rd f i := by
  induction fuel generalizing m with
  | zero => rfl
  | succ n ih =>
    unfold Chip.boostPass
    split
    · split
      · dsimp only
        split
        · rw [ih, k.stepTo, k.wr _ (by decide), k.boostFigures, k.boostStart]
        · exact k.boostStart _ _ _
      · exact k.hsbFreed _ _ _
    · exact k.hsbFreed _ _ _

theorem drvOffAs (m : Chip) (ch : Nat) (fast : Bool) (i : Nat) : (m.drvOffAs ch fast).rd f i = m.rd f i := by
  have strokeOff : ∀ y : Chip, (y.strokeOff ch).rd f i = y.rd f i := fun y =>
    (Chip.strokeOff_moves .refl (within_refl _)).rd f i (by rw [k.drv]; decide)
  have noNotch : (m.noNotch ch).rd f i = m.rd f i := (Chip.noNotch_moves .refl (within_refl _)).rd f i (by rw [k.drv]; decide)
  unfold Chip.drvOffAs Chip.drvOffBy
  extract_lets ph waited _d ended begun left
  split
  · rfl
  split
  · have waits : waited.rd f i = m.rd f i := (k.waitDone _ _ _).trans noNotch
    rw [strokeOff]
    unfold ended
    split
    · rw [k.setPhase, k.setSw, Chip.setDrv_rd, waits]
    · rw [k.setPhase, waits]
  · have gone : left.rd f i = m.rd f i := by
      unfold left begun
      split
      · rw [k.wr _ (by decide), k.boostFigures, strokeOff, noNotch]
      · rw [strokeOff, noNotch]
    have cut : ((left.offDecay ch fast)).rd f i = m.rd f i := by
      unfold Chip.offDecay
      dsimp only
      rw [k.setSw, k.setPhase, Chip.setDrv_rd, k.decayAs, gone]
    change Chip.rd (if ph = phBoost then (left.offDecay ch fast).boostPass (bankOf ch) 9 else left.offDecay ch fast) f i = _
    split
    · rw [k.boostPass, cut]
    · exact cut

theorem driveCut (m : Chip) (ch : Nat) (fast : Bool) (i : Nat) : (m.driveCut ch fast).rd f i = m.rd f i :=
  (k.drvOffAs _ _ _ _).trans (m.cmdOff_drive ch f (.inl k.drv) i)

end OffKept

/-! ## Duty (R221) -/

theorem exec_dutyCheck (ch : Ch) (s : State) : exec (.dutyCheck ch) s = .next { s with chip := s.chip.dutyStep ch.val } := rfl

theorem onTime_full {now : Nat} (h : 200000000 ≤ now) : onTime [(0, none)] now = 200000000 := by
  have span := Nat.sub_sub_self h
  unfold onTime
  generalize now - 200000000 = lo at span ⊢
  simp only [List.foldl_cons, List.foldl_nil, Option.getD_none, Nat.zero_max, Nat.zero_add, span]

/-- A channel that has been on for the last second shows a duty of 1000. -/
def Chip.dutyShown (m : Chip) (ch : Nat) : Chip := ((m.stamp .duty ch).setDrv ch (m.drv ch)).wr CH_DRV_DUTY ch 1000

/-- A time that goes on stays among those of the last second. -/
theorem Drv.onIv_open {d : Drv} {p : Nat → Bool} (on : d.onIv = [(0, none)]) :
    { d with onIv := d.onIv.filter fun q => match q.2 with
      | some t => p t
      | none => true } = d := by
  cases d
  subst on
  rfl

theorem Chip.dutyStep_full {m : Chip} {ch : Nat} (due : m.due .duty ch = true) (on : (m.drv ch).onIv = [(0, none)]) (late : 200000000 ≤ m.tb)
    (lim : m.rd BK_LIM0_DUTY_MAX (bankOf ch) < 1000) (free : m.rd CH_DRV_STAT_DUTY_LIM ch = 0) :
    m.dutyStep ch = (((m.dutyShown ch).driveCutOwn ch).wr CH_DRV_STAT_DUTY_LIM ch 1).drvFlag ch CH_DRV_FLAGS_DUTY_LIM := by
  unfold Chip.dutyStep
  rw [if_neg (by simp [due])]
  extract_lets stamped d kept time shown limit
  have same : kept = stamped.setDrv ch (m.drv ch) := by
    refine congrArg (stamped.setDrv ch) (Drv.onIv_open ?_)
    exact on
  have full : time = 200000000 := by
    unfold time
    rw [same, Chip.setDrv_drv, on]
    exact onTime_full late
  have duty : shown = m.dutyShown ch := by
    unfold shown
    rw [full, same]
    rfl
  have limited : limit = m.rd BK_LIM0_DUTY_MAX (bankOf ch) := by
    unfold limit
    rw [duty]
    exact Chip.rd_wr_ne _ _ _ _ _ _ (by decide)
  have unset : shown.rdB CH_DRV_STAT_DUTY_LIM ch = false := by
    unfold Chip.rdB
    rw [duty, show (m.dutyShown ch).rd CH_DRV_STAT_DUTY_LIM ch = _ from Chip.rd_wr_ne _ _ _ _ _ _ (by decide), Chip.setDrv_rd]
    exact bne_eq_false_iff_eq.2 free
  rw [if_neg (by simp [unset]), if_pos (by rw [limited, full]; omega), duty]

/-! ## Temperature (R222) -/

theorem exec_channelTemperature (ch : Ch) (z : Int) (s : State) :
    exec (.channelTemperature ch z) s = .next { s with chip := s.chip.temperature ch.val z } := rfl

theorem Chip.pwrFlag_rd_ne (m : Chip) (d b : Nat) {f : Field} (hp : f.part ≠ .rInt) (hf : f.id ≠ PWR_FLAGS.id) (i : Nat) :
    (m.pwrFlag d b).rd f i = m.rd f i := Chip.raise_rd_ne _ _ _ _ _ _ _ _ hp hf

theorem Chip.pwrFlag_boost (m : Chip) (d b : Nat) : (m.pwrFlag d b).boost = m.boost := (Chip.pwrFlag_moves .refl (within_refl _)).kept.boost (by decide)

theorem toSigned_ofSigned {w : Nat} {z : Int} (nonneg : 0 ≤ z) (fits : z < 2 ^ (w - 1)) : toSigned w (ofSigned w z % 2 ^ w) = z := by
  obtain ⟨n, rfl⟩ := Int.eq_ofNat_of_zero_le nonneg
  have small : n < 2 ^ (w - 1) := by exact_mod_cast fits
  have whole : n < 2 ^ w := Nat.lt_of_lt_of_le small (Nat.pow_le_pow_right (by decide) (Nat.sub_le _ _))
  have kept : ofSigned w (n : Int) = n := by
    unfold ofSigned
    rw [← Int.natCast_emod, Int.toNat_natCast, Nat.mod_eq_of_lt whole]
  unfold toSigned
  rw [kept, Nat.mod_eq_of_lt whole, Nat.mod_eq_of_lt whole, if_pos small]

/-- The temperature as measured is shown, with the warning and the hottest channel. -/
def Chip.tempShown (m : Chip) (ch : Nat) (z : Int) : Chip :=
  let n := ((m.stamp .temperature ch).wrFit CH_DRV_TJ ch z).hottest (dieOf ch)
  let warn : Int := n.rd PWR_CTL_TJ_WARN (dieOf ch)
  if warn ≤ z ∧ (m.stamp .temperature ch).rdI CH_DRV_TJ ch < warn then (n.drvFlag ch CH_DRV_FLAGS_THERM_WARN).pwrFlag (dieOf ch) PWR_FLAGS_THERM_WARN
  else n

theorem Chip.tempShown_rd (m : Chip) (ch : Nat) (z : Int) {f : Field} (k : OffKept f) (i : Nat) :
    (m.tempShown ch z).rd f i = ((m.stamp .temperature ch).wrFit CH_DRV_TJ ch z).rd f i := by
  have hot : (((m.stamp .temperature ch).wrFit CH_DRV_TJ ch z).hottest (dieOf ch)).rd f i = ((m.stamp .temperature ch).wrFit CH_DRV_TJ ch z).rd f i :=
    (Chip.hottest_moves .refl (within_refl _)).rd f i (by rw [k.drv]; decide)
  unfold Chip.tempShown
  dsimp only
  split
  · rw [Chip.pwrFlag_rd_ne _ _ _ (by rw [k.drv]; decide) (Field.id_ne_of_part (by rw [k.drv]; decide)), k.drvFlag, hot]
  · exact hot

theorem Chip.temperature_hot {m : Chip} {ch : Nat} {z : Int} (due : m.due .temperature ch = true) (hot : 175 ≤ z)
    (cool : m.rd CH_DRV_STAT_THERM_OFF ch = 0) :
    m.temperature ch z = ((((m.tempShown ch z).driveCut ch true).wr CH_DRV_STAT_THERM_OFF ch 1).drvFlag ch CH_DRV_FLAGS_THERM_OFF).pwrFlag (dieOf ch)
      PWR_FLAGS_THERM_OFF := by
  have clear : (m.tempShown ch z).rdB CH_DRV_STAT_THERM_OFF ch = false := by
    unfold Chip.rdB
    rw [Chip.tempShown_rd _ _ _ ⟨rfl, by decide⟩, Chip.wrFit_rd_ne _ _ _ _ _ _ (by decide)]
    exact bne_eq_false_iff_eq.2 cool
  unfold Chip.temperature
  rw [if_neg (by simp [due])]
  exact if_pos ⟨hot, by change (!(m.tempShown ch z).rdB CH_DRV_STAT_THERM_OFF ch) = true; rw [clear]; rfl⟩

/-- The temperature that is shown is the one measured, where the register holds it. -/
theorem Chip.tempShown_tj (m : Chip) (ch : Nat) {z : Int} (nonneg : 0 ≤ z) (fits : z < 2 ^ (CH_DRV_TJ.w - 1)) :
    toSigned CH_DRV_TJ.w ((m.tempShown ch z).rd CH_DRV_TJ ch) = z := by
  have held : (m.stamp .temperature ch).wrFit CH_DRV_TJ ch z = (m.stamp .temperature ch).wrI CH_DRV_TJ ch z :=
    if_pos ⟨Int.le_trans (by decide) nonneg, by exact_mod_cast fits⟩
  rw [Chip.tempShown_rd _ _ _ ⟨rfl, by decide⟩, held]
  unfold Chip.wrI
  rw [Chip.rd_wr_same]
  exact toSigned_ofSigned nonneg fits

/-! ## The loss budget of a die (R224) -/

theorem exec_dieLossBudget (d : Die) (mw : Nat) (s : State) : exec (.dieLossBudget d mw) s = .next { s with chip := s.chip.lossStep d.val mw } := rfl

/-- What the trim of the holding currents leaves: the controller, and a die's estimate. -/
def SameEst (x y : Chip) : Prop := y.boost = x.boost ∧ ∀ i, y.rd PWR_STAT_P_EST i = x.rd PWR_STAT_P_EST i

theorem SameEst.refl (x : Chip) : SameEst x x := ⟨rfl, fun _ => rfl⟩

theorem SameEst.wr {x y : Chip} (h : SameEst x y) {f : Field} (hf : PWR_STAT_P_EST.id ≠ f.id) (i v : Nat) : SameEst x (y.wr f i v) :=
  ⟨h.1, fun j => (Chip.rd_wr_ne _ _ _ _ _ _ hf).trans (h.2 j)⟩

theorem SameEst.pwrFlag {x y : Chip} (h : SameEst x y) (d b : Nat) : SameEst x (y.pwrFlag d b) :=
  ⟨(Chip.pwrFlag_boost _ _ _).trans h.1, fun j => (Chip.pwrFlag_rd_ne _ _ _ (by decide) (by decide) j).trans (h.2 j)⟩

theorem SameEst.ite {x y z : Chip} {c : Prop} [Decidable c] (h : SameEst x y) (g : SameEst x z) : SameEst x (if c then y else z) := by
  split
  · exact h
  · exact g

/-- A change of the trims shows in the holding windows. -/
theorem SameEst.holdEff {x y : Chip} (h : SameEst x y) (c : Nat) (d : Drv) : SameEst x ((y.setDrv c d).holdEff c) := by
  have moved : Moves [.rDrv, .chans] y ((y.setDrv c d).holdEff c) := Chip.holdEff_moves (Chip.setDrv_moves .refl (by decide)) (within_refl _)
  exact ⟨(moved.kept.boost (by decide)).trans h.1, fun i => (moved.rd PWR_STAT_P_EST i (by decide)).trans (h.2 i)⟩

theorem SameEst.trims {x : Chip} (g : Chip → Nat → Drv) (cs : List Nat) :
    ∀ {y : Chip}, SameEst x y → SameEst x (cs.foldl (fun m c => (m.setDrv c (g m c)).holdEff c) y) := by
  induction cs with
  | nil => exact fun h => h
  | cons c cs ih => exact fun h => ih (h.holdEff c _)

theorem Chip.trimDown_est (m : Chip) (d step : Nat) : SameEst m (m.trimDown d step) := by
  have trimmed := (SameEst.refl m).trims (fun m c => { m.drv c with trim := (m.drv c).trim + step }) ((dieChs d).filter m.trimmable)
  exact ((trimmed.wr (by decide) d 1).pwrFlag d _).ite trimmed

theorem Chip.trimUp_est (m : Chip) (d step : Nat) : SameEst m (m.trimUp d step) := by
  have trimmed := (SameEst.refl m).trims (fun m c => { m.drv c with trim := (m.drv c).trim - step }) ((dieChs d).filter fun c => (m.drv c).trim != 0)
  exact ((trimmed.wr (by decide) d 0).pwrFlag d _).ite trimmed

/-- The loss estimate of a die. -/
def Chip.pEst (m : Chip) (d : Nat) : Int := if d = 0 then m.boost.pEstA else m.boost.pEstB

/-- The estimate of a die moves by a hundredth of the difference, and is shown; the other die's stands. -/
theorem Chip.lossStep_est {m : Chip} {d mw : Nat} (due : m.due .dieLoss d = true) :
    (m.lossStep d mw).pEst d = m.pEst d + (fx mw - m.pEst d) / 100 ∧
    (m.lossStep d mw).rd PWR_STAT_P_EST d = (clampI 0 65535 (fxInt (m.pEst d + (fx mw - m.pEst d) / 100))).toNat ∧
    (d = 0 → (m.lossStep d mw).boost.pEstB = m.boost.pEstB) := by
  unfold Chip.lossStep
  rw [if_neg (by simp [due])]
  extract_lets stamped old p b since above _bs bs shown step trimmed floor long
  have moved : SameEst shown trimmed := by
    unfold trimmed
    split
    · exact Chip.trimDown_est _ _ _
    · exact (Chip.trimUp_est _ _ _).ite (SameEst.refl _)
  have ended : SameEst shown (if (floor && long) = true then
      if trimmed.rdB PWR_STAT_FLOOR d = true then trimmed else (trimmed.wr PWR_STAT_FLOOR d 1).pwrFlag d PWR_FLAGS_FLOOR
      else if floor = true then trimmed else trimmed.wr PWR_STAT_FLOOR d 0) :=
    (moved.ite ((moved.wr (by decide) d 1).pwrFlag d _)).ite (moved.ite (moved.wr (by decide) d 0))
  obtain ⟨boost, est⟩ := ended
  have was : old = m.pEst d := rfl
  refine ⟨?_, (est d).trans ?_, fun first => (congrArg BoostSt.pEstB boost).trans ?_⟩
  · unfold Chip.pEst
    rw [boost]
    change (if d = 0 then bs.pEstA else bs.pEstB) = old + (fx mw - old) / 100
    by_cases h : d = 0
    · simp only [bs, h, if_true, p]
    · simp only [bs, h, if_false, p]
  · unfold shown
    rw [Chip.rd_wr_same, ← was]
    refine Nat.mod_eq_of_lt ?_
    unfold clampI
    split
    · decide
    split
    · decide
    · change _ < 65536
      omega
  · change bs.pEstB = _
    simp only [bs, first, if_true]
    rfl

/-- Settles O31: each clause by what the limit brings in the state the channel or the die stands in. -/
theorem driveLimits : Obligations.DriveLimits := by
  unfold Obligations.DriveLimits
  refine ⟨?_, ?_, ?_, ?_, ?_, ?_, ?_⟩
  · intro who ch w s ok order within
    refine ⟨_, exec_chDrvWindowWrite ok, ?_⟩
    dsimp only
    rw [Chip.windowWrite_peak order within]
    refine ⟨?_, ?_, ?_⟩
    · rw [Chip.rd_wr_ne _ _ _ _ _ _ (by decide), Chip.rd_wr_same]
      exact Nat.mod_mod _ _
    · rw [Chip.rd_wr_same]
      exact Nat.mod_mod _ _
    · exact ((SameRegs.rfl _ _ _).wr (.inr (by simp))).wr (.inr (by simp))
  · intro who ch w s ok order within
    refine ⟨_, exec_chDrvWindowWrite ok, ?_⟩
    dsimp only
    rw [Chip.windowWrite_refused order within]
    have kept := s.chip.drvFlag_regs ch.val CH_DRV_FLAGS_CFG_ERR
    exact ⟨Chip.drvFlag_bit _ _ _ (by decide), kept.rd (by decide) (by simp [drvFlagFields]; decide) _,
      kept.rd (by decide) (by simp [drvFlagFields]; decide) _⟩
  · intro ch s due on late lim free
    have duty : OffKept CH_DRV_DUTY := ⟨rfl, by decide⟩
    have kept := fun m : Chip => m.drvFlag_regs ch.val CH_DRV_FLAGS_DUTY_LIM
    refine ⟨_, exec_dutyCheck ch s, ?_⟩
    dsimp only
    rw [Chip.dutyStep_full due on late lim free]
    refine ⟨?_, ?_, ?_, Chip.drvFlag_bit _ _ _ (by decide)⟩
    · rw [duty.drvFlag, Chip.rd_wr_ne _ _ _ _ _ _ (by decide)]
      exact (duty.driveCut _ _ _ _).trans (Chip.rd_wr_same _ _ _ _)
    · rw [(kept _).rd (by decide) (by simp [drvFlagFields]; decide), Chip.rd_wr_same]
      rfl
    · rw [(kept _).rd (by decide) (by simp [drvFlagFields]; decide), Chip.rd_wr_ne _ _ _ _ _ _ (by decide)]
      exact (Chip.driveCut_commands _ _ _).1
  · intro ch z s due hot fits cool
    have tj : OffKept CH_DRV_TJ := ⟨rfl, by decide⟩
    have kept := fun m : Chip => m.drvFlag_regs ch.val CH_DRV_FLAGS_THERM_OFF
    refine ⟨_, exec_channelTemperature ch z s, ?_⟩
    dsimp only
    rw [Chip.temperature_hot due hot cool]
    unfold Chip.rdI
    rw [Chip.pwrFlag_rd_ne _ _ _ (by decide) (by decide), Chip.pwrFlag_rd_ne _ _ _ (by decide) (by decide), Chip.pwrFlag_rd_ne _ _ _ (by decide) (by decide),
      Chip.pwrFlag_rd_ne _ _ _ (by decide) (by decide)]
    refine ⟨?_, ?_, ?_, Chip.drvFlag_bit _ _ _ (by decide)⟩
    · rw [tj.drvFlag, Chip.rd_wr_ne _ _ _ _ _ _ (by decide), tj.driveCut]
      exact Chip.tempShown_tj _ _ (by omega) fits
    · rw [(kept _).rd (by decide) (by simp [drvFlagFields]; decide), Chip.rd_wr_same]
      rfl
    · rw [(kept _).rd (by decide) (by simp [drvFlagFields]; decide), Chip.rd_wr_ne _ _ _ _ _ _ (by decide)]
      exact (Chip.driveCut_commands _ _ _).1
  · intro mw s due
    obtain ⟨est, shown, other⟩ := Chip.lossStep_est (mw := mw) due
    exact ⟨_, exec_dieLossBudget 0 mw s, est, shown, other rfl⟩
  · intro d mw z s due was
    obtain ⟨est, shown, -⟩ := Chip.lossStep_est (mw := mw) due
    refine ⟨_, exec_dieLossBudget d mw s, ?_, ?_⟩
    · rw [was]
      exact est
    · rw [was]
      exact shown
  · intro who ch w s ok order within
    refine ⟨_, exec_chDrvWindowWrite ok, ?_⟩
    dsimp only
    rw [Chip.windowWrite_hold order within, Chip.trimStat_rd _ _ rfl, Chip.trimStat_rd _ _ rfl, Chip.holdEff_rd _ _ (by decide),
      Chip.holdEff_rd _ _ (by decide)]
    refine ⟨?_, ?_⟩
    · rw [Chip.rd_wr_ne _ _ _ _ _ _ (by decide), Chip.rd_wr_same]
      exact Nat.mod_mod _ _
    · rw [Chip.rd_wr_same]
      exact Nat.mod_mod _ _

end Sys2Proof.Machine
end

section
/-! PROOFS. The end of a command of a mailbox: its state, its response and its window (R322-R324, R328, R546). -/

namespace Sys2Proof.Machine

/-! ## Memory -/

theorem Chip.load_eq_ofFn (m : Chip) (a n : Nat) : m.load a n = List.ofFn fun i : Fin n => m.byte (a + i) := by
  induction n generalizing a with
  | zero => rfl
  | succ k ih =>
    rw [Chip.load, ih, List.ofFn_succ]
    simp [Nat.add_assoc, Nat.add_comm 1]

theorem Chip.load_of_bytes {x y : Chip} {a n : Nat} (h : ∀ i, i < n → y.byte (a + i) = x.byte (a + i)) : y.load a n = x.load a n := by
  rw [Chip.load_eq_ofFn, Chip.load_eq_ofFn]
  exact congrArg List.ofFn (funext fun i => h i i.2)

theorem Moves.load {L : List Part} {m x : Chip} (h : Moves L m x) (hp : Part.mem ∉ L) (a n : Nat) : x.load a n = m.load a n :=
  Chip.load_of_bytes fun _ _ => h.kept.mem _ hp

/-- What moves no byte leaves the memory as it is, form and all. -/
theorem Moves.mem_eq {L : List Part} {m x : Chip} (h : Moves L m x) (hp : Part.mem ∉ L) : x.mem = m.mem := by
  induction h with
  | refl => rfl
  | byte _ _ q => exact absurd q hp
  | clear _ _ q => exact absurd q hp
  | wipe q => exact absurd q hp
  | upd _ u ih => exact u.mem.trans ih
  | reboot _ hr => exact absurd (hr _ (by simp)) hp
  | wr _ _ _ _ _ ih => exact ih
  | drop _ _ _ _ ih => exact ih
  | recs _ _ _ _ _ ih => exact ih
  | collect _ _ _ _ ih => exact ih
  | save _ _ _ ih => exact ih
  | restore _ _ _ _ _ ih => exact ih

theorem Chip.load_store {m : Chip} (w : Memory.wf m.mem) (a : Nat) {k n : Nat} {bs : List Byte} (h : k + n ≤ bs.length) :
    (m.store a bs).load (a + k) n = (bs.drop k).take n := by
  rw [Chip.load_eq_ofFn]
  refine List.ext_getElem (by simp; omega) fun i hi _ => ?_
  have inside : k + i < bs.length := by
    have : i < n := by simpa using hi
    omega
  simp [Nat.add_assoc, byte_store_inside m a (k + i) bs w inside]

theorem Chip.load_store_outside (m : Chip) {a b n : Nat} {bs : List Byte} (h : b + n ≤ a ∨ a + bs.length ≤ b) :
    (m.store a bs).load b n = m.load b n := Chip.load_of_bytes fun _ _ => byte_store_outside _ _ _ _ (by omega)

theorem Chip.load_clearMem_outside (m : Chip) {a b n k : Nat} (h : b + n ≤ a ∨ a + k ≤ b) : (m.clearMem a k).load b n = m.load b n :=
  Chip.load_of_bytes fun i _ => (memGet_clear _ _ _ _).trans (if_neg (by omega))

/-! ## The response -/

/-- The 16 bytes before the payload of a response (R324). -/
def Chip.respHead (m : Chip) (x result nacc jsn len : Nat) : List Byte :=
  leBytes 2 (m.mbOp x) ++ leBytes 1 len ++ leBytes 1 (m.rd MB_STATUS_SEQ x) ++ leBytes 1 result ++ leBytes 1 nacc ++ leBytes 2 0 ++ leBytes 6 jsn ++
    leBytes 2 0

theorem Chip.respHead_length (m : Chip) (x result nacc jsn len : Nat) : (m.respHead x result nacc jsn len).length = 16 := by
  simp [Chip.respHead, leBytes_length]

theorem Chip.respWrite_load {m : Chip} (w : Memory.wf m.mem) (x result nacc jsn : Nat) {pay : List Byte} {n : Nat} (h : n ≤ pay.length) :
    (m.respWrite x result nacc jsn pay).load (mbBase x + 0x110) n = pay.take n := by
  have len := m.respHead_length x result nacc jsn pay.length
  have at_ : mbBase x + 0x110 = mbBase x + 0x100 + 16 := rfl
  change ((m.clearMem (mbBase x + 0x100) 0x100).store (mbBase x + 0x100) (m.respHead x result nacc jsn pay.length ++ pay)).load _ _ = _
  rw [at_, Chip.load_store (clearMem_wf _ _ _ w) _ (by rw [List.length_append, len]; omega), List.drop_append_of_le_length (by omega),
    List.drop_of_length_le (by omega), List.nil_append]

theorem Chip.respWrite_load_outside (m : Chip) (x result nacc jsn : Nat) {pay : List Byte} {a n : Nat} (short : pay.length ≤ 240)
    (h : mbBase x + 0x200 ≤ a) : (m.respWrite x result nacc jsn pay).load a n = m.load a n := by
  have len := m.respHead_length x result nacc jsn pay.length
  change ((m.clearMem (mbBase x + 0x100) 0x100).store (mbBase x + 0x100) (m.respHead x result nacc jsn pay.length ++ pay)).load _ _ = _
  rw [Chip.load_store_outside _ (.inr (by rw [List.length_append, len]; omega)), Chip.load_clearMem_outside _ (.inr (by omega))]

/-! ## The state -/

theorem Chip.mbState_shows (m : Chip) (x st reason : Nat) :
    (m.mbState x st reason).rd MB_STATUS_STATE x = st % 2 ^ MB_STATUS_STATE.w ∧
    (m.mbState x st reason).rd MB_STATUS_REASON x = reason % 2 ^ MB_STATUS_REASON.w := by
  have written : ((m.wr MB_STATUS_STATE x st).wr MB_STATUS_REASON x reason).rd MB_STATUS_STATE x = st % 2 ^ MB_STATUS_STATE.w ∧
      ((m.wr MB_STATUS_STATE x st).wr MB_STATUS_REASON x reason).rd MB_STATUS_REASON x = reason % 2 ^ MB_STATUS_REASON.w :=
    ⟨(Chip.rd_wr_ne _ _ _ _ _ _ (by decide)).trans (Chip.rd_wr_same _ _ _ _), Chip.rd_wr_same _ _ _ _⟩
  have noted : ∀ (y : Chip) p k t data f i, f.part ≠ .rInt → (y.collect p k t data).rd f i = y.rd f i := fun _ _ _ _ _ f i hp =>
    (SameRegs.rfl [] [.rInt] _ |>.moves (Chip.collect_moves .refl (within_refl _)) (by decide)).rd (by simpa using hp) rfl i
  unfold Chip.mbState
  dsimp only
  split
  · exact written
  · split
    · rwa [noted _ _ _ _ _ _ _ (by decide), noted _ _ _ _ _ _ _ (by decide)]
    · exact written

/-! ## The end of a command -/

theorem Chip.mbEnd_shows (m : Chip) (x st reason nacc jsn : Nat) (pay : List Byte) :
    (m.mbEnd x st reason nacc jsn pay).rd MB_STATUS_STATE x = st % 2 ^ MB_STATUS_STATE.w ∧
    (m.mbEnd x st reason nacc jsn pay).rd MB_STATUS_REASON x = reason % 2 ^ MB_STATUS_REASON.w := Chip.mbState_shows _ _ _ _

/-- A command that ends leaves the batch, and Gelow's other state. -/
theorem Chip.mbEnd_gelow (m : Chip) (x st reason nacc jsn : Nat) (pay : List Byte) :
    (m.mbEnd x st reason nacc jsn pay).gelow = { m.gelow with batch := m.gelow.batch.filter (· != x) } := by
  have answered : ((m.upFree x).respWrite x reason nacc jsn pay).gelow = m.gelow :=
    (Chip.respWrite_moves (L := [.rHp, .mem]) (Chip.upFree_moves .refl (by decide)) (by decide)).kept.gelow (by decide)
  refine ((Chip.mbState_moves .refl (within_refl _)).kept.gelow (by decide)).trans ?_
  exact congrArg (fun g : Gelow => { g with batch := g.batch.filter (· != x) }) answered

/-- The memory of a command that ends is its response. -/
theorem Chip.mbEnd_load (m : Chip) (x st reason nacc jsn : Nat) (pay : List Byte) (a n : Nat) :
    (m.mbEnd x st reason nacc jsn pay).load a n = ((m.upFree x).respWrite x reason nacc jsn pay).load a n := by
  unfold Chip.mbEnd
  extract_lets answered _b free _g left
  have ended : Moves [.rMb, .rInt, .accums, .mbox, .gelow, .cyc] answered (left.mbState x st reason) :=
    Chip.mbState_moves (Moves.gelow (Chip.setMb_moves (Chip.wr_moves (Chip.wr_moves .refl (by decide)) (by decide)) (by decide)) (by decide)) (by decide)
  exact ended.load (by decide) a n

theorem Chip.upFree_mem (m : Chip) (x : Nat) : (m.upFree x).mem = m.mem := (Chip.upFree_moves .refl (within_refl _)).mem_eq (by decide)

/-- A window of a command, filled up to a word. -/
def Chip.windowed (m : Chip) (x : Nat) (window : List Byte) : Chip :=
  (if window = [] then m else m.store (mbWindow x) (window ++ List.replicate ((4 - window.length % 4) % 4) 0)).mbChunk x 0 ((window.length + 3) / 4) true

theorem Chip.mbDone_eq (m : Chip) (x reason nacc jsn : Nat) (pay window : List Byte) :
    m.mbDone x reason nacc jsn pay window = (m.windowed x window).mbEnd x 4 reason nacc jsn pay := rfl

theorem Chip.windowed_moves (m : Chip) (x : Nat) (window : List Byte) : Moves [.rMb, .mem] m (m.windowed x window) := by
  refine Chip.mbChunk_moves ?_ (by decide)
  exact Moves.ite .refl (Chip.store_moves .refl (by decide))

theorem Chip.windowed_wf {m : Chip} (w : Memory.wf m.mem) (x : Nat) (window : List Byte) : Memory.wf (m.windowed x window).mem := by
  unfold Chip.windowed
  rw [(Chip.mbChunk_moves .refl (within_refl _)).mem_eq (by decide)]
  split
  · exact w
  · exact store_wf _ _ _ w

theorem Chip.windowed_load {m : Chip} (w : Memory.wf m.mem) (x : Nat) (window : List Byte) :
    (m.windowed x window).load (mbWindow x) window.length = window := by
  unfold Chip.windowed
  rw [(Chip.mbChunk_moves .refl (within_refl _)).load (by decide)]
  split
  · next none_ => subst none_; rfl
  · have stored := Chip.load_store w (mbWindow x) (k := 0) (n := window.length) (bs := window ++ List.replicate ((4 - window.length % 4) % 4) 0) (by simp)
    rw [Nat.add_zero] at stored
    rw [stored, List.drop_zero, List.take_left']
    rfl

/-- A command that is done: STATE 4, the reason, and the batch without its mailbox. -/
theorem Chip.mbDone_shows (m : Chip) (x reason nacc jsn : Nat) (pay window : List Byte) :
    (m.mbDone x reason nacc jsn pay window).rd MB_STATUS_STATE x = 4 ∧
    (m.mbDone x reason nacc jsn pay window).rd MB_STATUS_REASON x = reason % 2 ^ MB_STATUS_REASON.w := Chip.mbEnd_shows _ _ _ _ _ _ _

theorem Chip.mbDone_gelow (m : Chip) (x reason nacc jsn : Nat) (pay window : List Byte) :
    (m.mbDone x reason nacc jsn pay window).gelow = { m.gelow with batch := m.gelow.batch.filter (· != x) } := by
  rw [Chip.mbDone_eq, Chip.mbEnd_gelow, (m.windowed_moves x window).kept.gelow (by decide)]

/-- The payload of its response. -/
theorem Chip.mbDone_load {m : Chip} (w : Memory.wf m.mem) (x reason nacc jsn : Nat) {pay : List Byte} (window : List Byte) {n : Nat}
    (h : n ≤ pay.length) : (m.mbDone x reason nacc jsn pay window).load (mbBase x + 0x110) n = pay.take n := by
  rw [Chip.mbDone_eq, Chip.mbEnd_load]
  exact Chip.respWrite_load (by rw [Chip.upFree_mem]; exact Chip.windowed_wf w x window) _ _ _ _ h

theorem mbWindow_far {x : Nat} (h : x < 20) : mbBase x + 0x200 ≤ mbWindow x := by
  unfold mbBase mbWindow
  split <;> omega

/-- Its window. -/
theorem Chip.mbDone_window {m : Chip} (w : Memory.wf m.mem) {x : Nat} (hx : x < 20) (reason nacc jsn : Nat) {pay : List Byte} (short : pay.length ≤ 240)
    (window : List Byte) : (m.mbDone x reason nacc jsn pay window).load (mbWindow x) window.length = window := by
  rw [Chip.mbDone_eq, Chip.mbEnd_load, Chip.respWrite_load_outside _ _ _ _ _ short (mbWindow_far hx),
    (Chip.upFree_moves .refl (within_refl _)).load (by decide), Chip.windowed_load w]

/-- What a command that is done leaves. -/
theorem Chip.mbDone_kept (m : Chip) (x reason nacc jsn : Nat) (pay window : List Byte) :
    KeptOutside [.rHp, .rMb, .rInt, .mem, .accums, .mbox, .gelow, .cyc] m (m.mbDone x reason nacc jsn pay window) :=
  (Chip.mbDone_moves .refl (within_refl _)).kept

/-! ## Commands -/

/-- The command that Gelow executes next takes effect. -/
theorem upd_runCmd {x op : Nat} {f : Chip → List Byte → Chip} {s : State} (next : s.chip.isNext x op = true) :
    (s.upd (·.runCmd x op f) : Host.Outcome State Fault Refusal) = .next { s with chip := f s.chip (s.chip.mbPay x) } :=
  congrArg (fun c => (.next { s with chip := c } : Host.Outcome State Fault Refusal)) (if_pos next)

/-- A field of an entry, as a field of the payload. -/
theorem payNat_entry (p : List Byte) (b n : Nat) {o k : Nat} (h : o + k ≤ n) : payNat ((p.drop b).take n) o k = payNat p (b + o) k := by
  unfold payNat
  rw [List.drop_take, List.take_take, List.drop_drop, Nat.min_eq_left (by omega)]

theorem leNat_lt (bs : List Byte) : leNat bs < 256 ^ bs.length := by
  induction bs with
  | nil => decide
  | cons b r ih =>
    have := b.isLt
    rw [leNat, List.length_cons, Nat.pow_succ]
    omega

theorem payNat_lt (p : List Byte) (o n : Nat) : payNat p o n < 256 ^ n :=
  Nat.lt_of_lt_of_le (leNat_lt _) (Nat.pow_le_pow_right (by decide) (List.length_take_le _ _))

/-- A list of one entry. -/
theorem payEntries_one (p : List Byte) (base size : Nat) : payEntries p base size 1 = [(p.drop base).take size] := rfl

theorem Chip.eachEntry_one (m : Chip) (f : Chip → List Byte → Nat × Chip) (e : List Byte) : m.eachEntry f [e] = ([(f m e).1], (f m e).2) := rfl

end Sys2Proof.Machine
end

section
/-! PROOFS. JOURNAL_READ, JOURNAL_COLLECT, JOURNAL_FIND and the commands of diagnostics and wear (R342-R345, R371, R372). -/

namespace Sys2Proof.Machine

theorem exec_journalRead {x : Mbx} {s : State} (next : s.chip.isNext x.val 0x0701 = true) :
    exec (.journalRead x) s = .next { s with chip := s.chip.journalRead x.val (s.chip.mbPay x.val) } := upd_runCmd next

theorem exec_journalFind {x : Mbx} {s : State} (next : s.chip.isNext x.val 0x0703 = true) :
    exec (.journalFind x) s = .next { s with chip := s.chip.journalFind x.val (s.chip.mbPay x.val) } := upd_runCmd next

theorem exec_counters {x : Mbx} {s : State} (next : s.chip.isNext x.val 0x0801 = true) :
    exec (.counters x) s = .next { s with chip := s.chip.countersCmd x.val (s.chip.mbPay x.val) } := upd_runCmd next

theorem exec_captureGet {x : Mbx} {s : State} (next : s.chip.isNext x.val 0x0802 = true) :
    exec (.captureGet x) s = .next { s with chip := s.chip.captureGet x.val (s.chip.mbPay x.val) } := upd_runCmd next

theorem exec_wearReport {x : Mbx} {s : State} (next : s.chip.isNext x.val 0x0803 = true) :
    exec (.wearReport x) s = .next { s with chip := s.chip.wearReport x.val (s.chip.mbPay x.val) } := upd_runCmd next

theorem exec_wearParam {x : Mbx} {s : State} (next : s.chip.isNext x.val 0x0901 = true) :
    exec (.wearParam x) s = .next { s with chip := s.chip.wearParam x.val (s.chip.mbPay x.val) } := upd_runCmd next

theorem exec_wearReset {x : Mbx} {s : State} (next : s.chip.isNext x.val 0x0902 = true) :
    exec (.wearReset x) s = .next { s with chip := s.chip.wearReset x.val (s.chip.mbPay x.val) } := upd_runCmd next

/-! ## The journal -/

theorem Chip.mbDone_jour (m : Chip) (x reason nacc jsn : Nat) (pay window : List Byte) : (m.mbDone x reason nacc jsn pay window).jour = m.jour := by
  have kept := m.mbDone_kept x reason nacc jsn pay window
  have rest := kept.jour (by decide)
  have recs := kept.records (by decide) (by decide)
  have next := kept.nextJsn (by decide)
  generalize (m.mbDone x reason nacc jsn pay window).jour = j at rest recs next ⊢
  generalize m.jour = k at rest recs next ⊢
  cases j
  cases k
  simp only at recs next
  subst recs next
  simpa using rest

theorem hallmarkBytes_length (r : Rec) : (hallmarkBytes r).length = 32 := by simp [hallmarkBytes, leBytes_length]

/-- Entries of one size in a row. -/
theorem flatMap_length {α : Type} {f : α → List Byte} {k : Nat} (h : ∀ a, (f a).length = k) (l : List α) : (l.flatMap f).length = k * l.length := by
  induction l with
  | nil => rfl
  | cons a l ih => rw [List.flatMap_cons, List.length_append, h, ih, List.length_cons, Nat.mul_succ, Nat.add_comm]

theorem take_append_leBytes (n v : Nat) (l : List Byte) : (leBytes n v ++ l).take n = leBytes n v := List.take_left' (leBytes_length _ _)

/-- The collection takes totals, and leaves the batch and the memory. -/
theorem Chip.snapsTakes_batch (m : Chip) (l : List Rec) : (l.foldl (fun m r => m.snapsTake r.jsn) m).gelow.batch = m.gelow.batch := by
  induction l generalizing m with
  | nil => rfl
  | cons r l ih => exact (ih _).trans rfl

theorem Chip.snapsTakes_moves (m : Chip) (l : List Rec) : Moves [.gelow] m (l.foldl (fun m r => m.snapsTake r.jsn) m) :=
  Moves.foldl .refl fun _ _ k => Chip.snapsTake_moves k (within_refl _)

/-- What a collection leaves. -/
theorem Chip.jourCollect_shows (m : Chip) (o upto : Nat) :
    (m.jourCollect o upto).2.gelow.batch = m.gelow.batch ∧ (m.jourCollect o upto).2.mem = m.mem ∧
    (m.jourCollect o upto).2.jour.recs = m.jour.recs.filter fun r => !(r.owner == o && r.phase == 3 && decide (r.jsn ≤ upto)) := by
  refine ⟨m.snapsTakes_batch _, (m.snapsTakes_moves _).mem_eq (by decide), ?_⟩
  exact congrArg _ ((m.snapsTakes_moves _).kept.records (by decide) (by decide))

/-! ## The commands of diagnostics -/

/-- A resolution changes a record, and drops none. -/
theorem Chip.jourResolve_count (m : Chip) (j out cause tb : Nat) (stand : Bool) (lat : Int) :
    (m.jourResolve j out cause stand tb lat).jour.recs.length = m.jour.recs.length := by
  unfold Chip.jourResolve
  split
  · rfl
  · split
    · rfl
    · have noted : ∀ (y : Chip) o k, (y.noteHallmark o k).jour.recs = y.jour.recs := fun _ _ _ =>
        (Chip.noteHallmark_moves .refl (within_refl _)).kept.records (by decide) (by decide)
      rw [noted]
      exact List.length_map _

/-- The command's record, resolved at once. -/
def Chip.diagTaken (m : Chip) (x : Nat) : Chip := (m.accept x none 0 0xFFFF 0 0).2.jourResolve m.jour.nextJsn 1 14 false (m.tbOf islMgmt) 0

theorem Chip.diagDone_eq (m : Chip) (x : Nat) (pay window : List Byte) :
    m.diagDone x pay window = (m.jour.nextJsn, (m.diagTaken x).mbDone x 0 1 m.jour.nextJsn pay window) := rfl

theorem Chip.diagTaken_moves (m : Chip) (x : Nat) : Moves [.rInt, .asleep, .accums, .jour, .recs, .sys, .cyc] m (m.diagTaken x) :=
  Chip.jourResolve_moves (Chip.accept_moves .refl (by decide)) (within_refl _)

theorem Chip.diagTaken_count (m : Chip) (x : Nat) : (m.diagTaken x).jour.recs.length = m.jour.recs.length + 1 :=
  (Chip.jourResolve_count _ _ _ _ _ _ _).trans List.length_append

/-- A diagnostics command that delivers its result at once: its end, its result, and one record more. -/
theorem Chip.diagDone_shows {m t : Chip} {x : Nat} {pay window : List Byte} (e : t = (m.diagDone x pay window).2) (hx : x < 20)
    (w : Memory.wf m.mem) (short : pay.length ≤ 240) :
    t.rd MB_STATUS_STATE x = 4 ∧ t.rd MB_STATUS_REASON x = 0 ∧ t.gelow = { m.gelow with batch := m.gelow.batch.filter (· != x) } ∧
    t.load (mbWindow x) window.length = window ∧ (∀ n, n ≤ pay.length → t.load (mbBase x + 0x110) n = pay.take n) ∧
    t.copies = m.copies ∧ t.jour.recs.length = m.jour.recs.length + 1 := by
  subst e
  rw [Chip.diagDone_eq]
  have taken := m.diagTaken_moves x
  have wf : Memory.wf (m.diagTaken x).mem := by rwa [taken.mem_eq (by decide)]
  obtain ⟨state, reason⟩ := (m.diagTaken x).mbDone_shows x 0 1 m.jour.nextJsn pay window
  have kept := (m.diagTaken x).mbDone_kept x 0 1 m.jour.nextJsn pay window
  refine ⟨state, reason, ?_, Chip.mbDone_window wf hx _ _ _ short window, fun n h => Chip.mbDone_load wf x _ _ _ window h,
    (kept.copies (by decide)).trans (taken.kept.copies (by decide)), ?_⟩
  · rw [Chip.mbDone_gelow, taken.kept.gelow (by decide)]
  · rw [Chip.mbDone_jour, Chip.diagTaken_count]

/-- The totals of units kept for the collection. -/
def Chip.snapsKept (m : Chip) (l : List Snap) : Chip := { m with gelow := { m.gelow with snaps := m.gelow.snaps ++ l } }

theorem Chip.snapsKept_load (m : Chip) (l : List Snap) (a n : Nat) : (m.snapsKept l).load a n = m.load a n := Chip.load_of_bytes fun _ _ => rfl

/-- The counts of one unit, and its totals kept. -/
theorem Chip.countersCmd_one {m t : Chip} {x k u : Nat} {p : List Byte} (class_ : payNat p 0 1 = k) (unit : payNat p 1 1 = u) (one : payNat p 2 1 = 1)
    (has : u < counterUnits k) (on : m.gelow.collect = true) (free : m.jourFree (mbOwner x) ≠ 0)
    (e : t = (m.diagDone x [] ((m.counts (mbOwner x) k u).flatMap (leBytes 4))).2) :
    m.countersCmd x p = t.snapsKept [⟨m.jour.nextJsn, mbOwner x, k * 256 + u, t.totalsOf k u⟩] := by
  have single : (List.range 1).map (u + ·) = [u] := rfl
  unfold Chip.countersCmd
  rw [class_, unit, one, if_neg (by omega), on, if_neg (by simp), if_neg free, single]
  simp only [List.flatMap_cons, List.flatMap_nil, List.append_nil, List.map_cons, List.map_nil, ← e]
  rfl

/-- What a CAPTURE_GET answers before the samples. -/
def captureHead (ch : Nat) (c : Copy) : List Byte :=
  leBytes 1 ch ++ leBytes 1 c.lanes ++ leBytes 2 c.dec ++ leBytes 4 c.samples.length ++ leBytes 8 c.tb ++ leBytes 2 c.notch ++ leBytes 14 0

theorem captureHead_length (ch : Nat) (c : Copy) : (captureHead ch c).length = 32 := by simp [captureHead, leBytes_length]

theorem captureHead_take (ch : Nat) (c : Copy) :
    (captureHead ch c).take 8 = leBytes 1 ch ++ leBytes 1 c.lanes ++ leBytes 2 c.dec ++ leBytes 4 c.samples.length := by
  unfold captureHead
  rw [List.append_assoc _ (leBytes 8 c.tb), List.append_assoc _ (leBytes 8 c.tb ++ leBytes 2 c.notch)]
  exact List.take_left' (by simp [leBytes_length])

theorem Chip.captureGet_found {m : Chip} {x : Nat} {p : List Byte} {c : Copy} (copy : tabFind m.copies (payNat p 0 1) = some c)
    (free : m.jourFree (mbOwner x) ≠ 0) :
    m.captureGet x p = (m.diagDone x (captureHead (payNat p 0 1) c) (c.samples.flatMap (leBytes 2))).2 := by
  unfold Chip.captureGet
  simp only [copy, if_neg free]
  rfl

/-- The command's record, staged, and its progress. -/
def Chip.wearStaged (m : Chip) (x n : Nat) : Chip :=
  ((m.accept x none 0 0xFFFF 0 0).2.stage (.diag m.jour.nextJsn)).wr MB_STATUS_PROGRESS x n

theorem Chip.wearReport_one {m : Chip} {x a : Nat} {p : List Byte} (chan : payNat p 0 1 = a) (one : payNat p 1 1 = 1)
    (free : m.jourFree (mbOwner x) ≠ 0) :
    m.wearReport x p = (m.wearStaged x 1).mbLong x { op := 0, jsn := m.jour.nextJsn, out := m.wearBytes a ++ m.eolBytes, full := true } := by
  have single : ((List.range 1).flatMap fun i => m.wearBytes (a + i)) = m.wearBytes a := by
    rw [show List.range 1 = [0] from rfl, List.flatMap_singleton]
    rfl
  unfold Chip.wearReport
  rw [if_neg free, chan, one]
  dsimp only
  rw [single]
  rfl

/-! ## Wear -/

/-- A wear model that is set is shown. -/
def Chip.wearSet (m : Chip) (ch : Nat) (w : Wear) : Chip := { m with wear := tabPut m.wear ch w }.wearPublish ch

theorem Chip.wearSet_wearOf (m : Chip) (ch : Nat) (w : Wear) : (m.wearSet ch w).wearOf ch = w := by
  have kept : (m.wearSet ch w).wear = tabPut m.wear ch w := (Chip.wearPublish_moves .refl (within_refl _)).kept.wear (by decide)
  unfold Chip.wearOf
  rw [kept]
  exact tabGet_put_same _ _ _ _

theorem Chip.wearPublish_state (m : Chip) (ch : Nat) (fresh : (m.wearOf ch).mu0 = none) : (m.wearPublish ch).rd DG_WEAR0_WSTATE ch = 0 := by
  unfold Chip.wearPublish
  extract_lets w x st cap worn timed
  have unset : st = 0 := by
    unfold st
    rw [fresh]
    rfl
  rw [Chip.rd_wr_ne _ _ _ _ _ _ (by decide), Chip.rd_wr_ne _ _ _ _ _ _ (by decide), Chip.rd_wr_ne _ _ _ _ _ _ (by decide),
    Chip.rd_wr_ne _ _ _ _ _ _ (by decide), Chip.rd_wr_ne _ _ _ _ _ _ (by decide), Chip.rd_wr_same, unset]
  rfl

theorem Chip.wearSet_state (m : Chip) (ch : Nat) {w : Wear} (fresh : w.mu0 = none) : (m.wearSet ch w).rd DG_WEAR0_WSTATE ch = 0 := by
  refine Chip.wearPublish_state _ _ ?_
  unfold Chip.wearOf
  rw [tabGet_put_same, fresh]

theorem Chip.wearSet_bcap (m : Chip) (ch : Nat) (w : Wear) : (m.wearSet ch w).bcap = m.bcap :=
  (Chip.wearPublish_moves .refl (within_refl _)).kept.bcap (by decide)

theorem Chip.wearSet_gelow (m : Chip) (ch : Nat) (w : Wear) : (m.wearSet ch w).gelow = m.gelow :=
  (Chip.wearPublish_moves .refl (within_refl _)).kept.gelow (by decide)

theorem Chip.mbDone_wearOf (m : Chip) (x reason nacc jsn : Nat) (pay window : List Byte) (i : Nat) :
    (m.mbDone x reason nacc jsn pay window).wearOf i = m.wearOf i := by
  unfold Chip.wearOf
  rw [(m.mbDone_kept x reason nacc jsn pay window).wear (by decide)]

/-- A channel's limits are set. -/
theorem Chip.wearParam_one {m : Chip} {x a : Nat} {p : List Byte} (chan : payNat p 0 1 = a) (one : payNat p 1 1 = 1) (owner : m.chOwner a = mbOwner x) :
    m.wearParam x p = (m.wearSet a { m.wearOf a with dLim := payNat p 2 2, sLim := payNat p 4 2 }).mbDone x 0 0 0 [] [] := by
  unfold Chip.wearParam
  rw [chan, one]
  have owned : m.ownsAll (mbOwner x) [a] = true := by simp [Chip.ownsAll, owner]
  exact if_neg (by rw [show ((List.range 1).map (a + ·)) = [a] from rfl, owned]; simp)

/-- A channel's wear model starts anew. -/
theorem Chip.wearReset_one {m : Chip} {x a : Nat} {p : List Byte} (chan : bitmapChs p = [a]) (noCap : bitAt (payNat p 24 1) 0 = false)
    (owner : m.chOwner a = mbOwner x) : m.wearReset x p = (m.wearSet a { dLim := (m.wearOf a).dLim, sLim := (m.wearOf a).sLim, cleared := true }).mbDone x 0 0 0 [] [] := by
  have owned : m.ownsAll (mbOwner x) [a] = true := by simp [Chip.ownsAll, owner]
  unfold Chip.wearReset
  rw [chan, noCap]
  exact if_neg (by rw [owned]; simp)

/-- Settles O59: each command by what it leaves and by its end. -/
theorem journalAndDiagnosticsCommands : Obligations.JournalAndDiagnosticsCommands := by
  unfold Obligations.JournalAndDiagnosticsCommands
  refine ⟨?_, ?_, ?_, ?_, ?_, ?_, ?_, ?_⟩
  · intro x l s next wf read _
    refine ⟨_, exec_journalRead next, ?_⟩
    dsimp only
    unfold Chip.journalRead
    rw [← read]
    dsimp only
    refine ⟨(Chip.mbDone_shows _ _ _ _ _ _ _).1, (Chip.mbDone_shows _ _ _ _ _ _ _).2, congrArg Gelow.batch (Chip.mbDone_gelow _ _ _ _ _ _ _), ?_, ?_,
      Chip.mbDone_jour _ _ _ _ _ _ _⟩
    · rw [← flatMap_length hallmarkBytes_length]
      exact Chip.mbDone_window wf x.isLt _ _ _ (by simp [leBytes_length]) _
    · rw [Chip.mbDone_load wf _ _ _ _ _ (by simp [leBytes_length]), take_append_leBytes]
  · intro x s next wf known
    obtain ⟨batch, mem, recs⟩ := s.chip.jourCollect_shows (mbOwner x.val) (payNat (s.chip.mbPay x.val) 0 6)
    refine ⟨_, exec_journalCollect next, ?_⟩
    dsimp only
    unfold Chip.journalCollect
    rw [if_neg (Nat.not_lt.2 known)]
    dsimp only
    refine ⟨(Chip.mbDone_shows _ _ _ _ _ _ _).1, (Chip.mbDone_shows _ _ _ _ _ _ _).2, ?_, ?_, ?_⟩
    · rw [Chip.mbDone_gelow, batch]
    · rw [Chip.mbDone_recs, recs]
    · rw [Chip.mbDone_load (by rwa [mem]) _ _ _ _ _ (by simp [leBytes_length]), take_append_leBytes]
      rfl
  · intro x j n s next wf found
    refine ⟨_, exec_journalFind next, ?_⟩
    dsimp only
    unfold Chip.journalFind
    rw [found]
    dsimp only
    refine ⟨(Chip.mbDone_shows _ _ _ _ _ _ _).1, (Chip.mbDone_shows _ _ _ _ _ _ _).2, congrArg Gelow.batch (Chip.mbDone_gelow _ _ _ _ _ _ _), ?_,
      Chip.mbDone_jour _ _ _ _ _ _ _⟩
    rw [Chip.mbDone_load wf _ _ _ _ _ (by simp [leBytes_length])]
    exact List.take_of_length_le (by simp [leBytes_length])
  · intro x k u s next wf class_ unit one has on free
    obtain ⟨state, reason, gelow, window, -, -, count⟩ :=
      Chip.diagDone_shows (x := x.val) (pay := []) (window := (s.chip.counts (mbOwner x.val) k u).flatMap (leBytes 4)) rfl x.isLt wf (by decide)
    refine ⟨_, exec_counters next, ?_⟩
    dsimp only
    rw [Chip.countersCmd_one class_ unit one has on free rfl]
    refine ⟨state, reason, congrArg Gelow.batch gelow, ?_, count, ?_⟩
    · rw [← flatMap_length (leBytes_length 4), Chip.snapsKept_load, window]
    · have snaps := congrArg (fun g : Gelow => g.snaps.length) gelow
      exact List.length_append.trans (congrArg (· + 1) snaps)
  · intro x c s next wf copy _ free
    obtain ⟨state, reason, gelow, window, pay, copies, count⟩ := Chip.diagDone_shows (x := x.val) (pay := captureHead (payNat (s.chip.mbPay x.val) 0 1) c)
      (window := c.samples.flatMap (leBytes 2)) rfl x.isLt wf (by rw [captureHead_length]; decide)
    refine ⟨_, exec_captureGet next, ?_⟩
    dsimp only
    rw [Chip.captureGet_found copy free]
    refine ⟨state, reason, congrArg Gelow.batch gelow, ?_, ?_, copies, count⟩
    · rw [← flatMap_length (leBytes_length 2)]
      exact window
    · rw [pay 8 (by rw [captureHead_length]; decide), captureHead_take]
  · intro x a s next chan one free
    refine ⟨_, exec_wearReport next, ?_⟩
    dsimp only
    rw [Chip.wearReport_one chan one free]
    refine ⟨rfl, List.length_append, ?_, Chip.rd_wr_same _ _ _ _, rfl⟩
    exact congrArg (fun b : Mbox => b.run.map fun r : LongRun => (r.jsn, r.full, r.out)) (tabGet_put_same _ _ _ _)
  · intro x a s next chan one owner
    refine ⟨_, exec_wearParam next, ?_⟩
    dsimp only
    rw [Chip.wearParam_one chan one owner]
    refine ⟨(Chip.mbDone_shows _ _ _ _ _ _ _).1, (Chip.mbDone_shows _ _ _ _ _ _ _).2, ?_, ?_⟩
    · rw [Chip.mbDone_gelow, Chip.wearSet_gelow]
    · rw [Chip.mbDone_wearOf, Chip.wearSet_wearOf]
      exact ⟨rfl, rfl, rfl⟩
  · intro x a s next chan noCap owner
    refine ⟨_, exec_wearReset next, ?_⟩
    dsimp only
    rw [Chip.wearReset_one chan noCap owner]
    have kept := (s.chip.wearSet a { dLim := (s.chip.wearOf a).dLim, sLim := (s.chip.wearOf a).sLim, cleared := true }).mbDone_kept x.val 0 0 0 [] []
    refine ⟨(Chip.mbDone_shows _ _ _ _ _ _ _).1, (Chip.mbDone_shows _ _ _ _ _ _ _).2, ?_, ?_, ?_, ?_, ?_, ?_⟩
    · rw [Chip.mbDone_gelow, Chip.wearSet_gelow]
    · rw [Chip.mbDone_wearOf, Chip.wearSet_wearOf]
    · rw [Chip.mbDone_wearOf, Chip.wearSet_wearOf]
    · rw [Chip.mbDone_wearOf, Chip.wearSet_wearOf]
    · rw [kept.regs _ _ (by decide)]
      exact Chip.wearSet_state _ _ rfl
    · rw [kept.bcap (by decide), Chip.wearSet_bcap]

end Sys2Proof.Machine
end

section
/-! PROOFS. Disabling gating leaves the settings of the map engine, and the block awake (R271, R275, R276). -/

namespace Sys2Proof.Machine

/-- What the map engine shows of a channel's gate. -/
def gateShown : List Field := [MAP_CH_STAT_QN, MAP_CH_STAT_GATE, MAP_CH_STAT_STROKE]

/-- The settings of the map engine stand, no island's clock changes, and a block that is awake stays awake. -/
structure MapStands (x y : Chip) : Prop where
  awake : x.asleep = false → y.asleep = false
  isl : y.isl = x.isl
  settings (f : Field) (i : Nat) : f.part = .rMap → (gateShown.all fun g => g.id != f.id) = true → y.rd f i = x.rd f i

/-- The part of a field is one of the registers'. -/
theorem Field.part_ne (f : Field) {p : Part} (h : p ∉ regParts) : p ≠ f.part := fun e => h (e ▸ f.part_mem)

/-- An occurrence wakes a block, and never lays it to sleep. -/
theorem Chip.occur_awake {m : Chip} (h : m.asleep = false) (n : Nat) : (m.occur n).asleep = false := by
  have host : ∀ (y : Chip) p t, (y.pendHost n p t).asleep = y.asleep := fun _ _ _ => (Chip.pendHost_moves .refl (within_refl _)).kept.asleep (by decide)
  have core : ∀ (y : Chip) t, (y.pendCore n t).asleep = y.asleep := fun _ _ => (Chip.pendCore_moves .refl (within_refl _)).kept.asleep (by decide)
  have note : (m.noteWake n).asleep = m.asleep := (Chip.noteWake_moves .refl (within_refl _)).kept.asleep (by decide)
  unfold Chip.occur
  split
  · exact h
  · rw [host, host, core, core, h, Bool.false_and, if_neg (by simp), note, h]

namespace MapStands
variable {x y z : Chip} (h : MapStands x y)

theorem rfl (x : Chip) : MapStands x x := ⟨id, Eq.refl _, fun _ _ _ _ => Eq.refl _⟩

include h

theorem trans (g : MapStands y z) : MapStands x z :=
  ⟨fun a => g.awake (h.awake a), g.isl.trans h.isl, fun f i p q => (g.settings f i p q).trans (h.settings f i p q)⟩

/-- What is no part of the map engine and no occurrence leaves them. -/
theorem moves {L : List Part} (k : Moves L y z) (asleep : Part.asleep ∉ L) (isl : Part.isl ∉ L) (map : Part.rMap ∉ L) : MapStands x z :=
  h.trans ⟨fun a => (k.kept.asleep asleep).trans a, k.kept.isl isl, fun f i p _ => k.rd f i (by rwa [p])⟩

theorem ite {c : Prop} [Decidable c] (g : MapStands x z) : MapStands x (if c then y else z) := by
  split
  · exact h
  · exact g

theorem wr {f : Field} (hf : f.part ≠ .rMap ∨ f ∈ gateShown) (i v : Nat) : MapStands x (y.wr f i v) := by
  refine h.trans ⟨id, Eq.refl _, fun g j p q => Chip.rd_wr_ne _ _ _ _ _ _ ?_⟩
  rcases hf with part | shown
  · exact Field.id_ne_of_part (by rw [p]; exact part.symm)
  · exact (bne_iff_ne.1 (List.all_eq_true.1 q f shown)).symm

theorem setFlag {f : Field} (hf : f.part ≠ .rMap) (i b : Nat) : MapStands x (y.setFlag f i b) :=
  h.moves (Chip.setFlag_moves .refl (within_refl _)) (by simpa using f.part_ne (by decide)) (by simpa using f.part_ne (by decide)) (by simpa using hf.symm)

theorem raise {fl ie : Field} (hf : fl.part ≠ .rMap) (i b src : Nat) : MapStands x (y.raise fl ie i b src) := by
  have flagged := h.setFlag hf i b
  have moved : Moves [.rInt, .asleep, .accums, .sys, .cyc] (y.setFlag fl i b) ((y.setFlag fl i b).occur src) := Chip.occur_moves .refl (within_refl _)
  exact (flagged.trans ⟨fun a => Chip.occur_awake a src, moved.kept.isl (by decide), fun f i p _ => moved.rd f i (by rw [p]; decide)⟩).ite flagged

theorem bkFlag (b k : Nat) : MapStands x (y.bkFlag b k) := h.raise (by decide) _ _ _

theorem drvFlag (ch b : Nat) : MapStands x (y.drvFlag ch b) := by
  have flagged := h.setFlag (f := CH_DRV_FLAGS) (by decide) ch b
  exact (flagged.bkFlag _ _).ite flagged

theorem dgbFlag (b k : Nat) : MapStands x (y.dgbFlag b k) := h.raise (by decide) _ _ _

theorem dgFlag (ch b : Nat) : MapStands x (y.dgFlag ch b) := by
  have flagged := h.setFlag (f := DG_FLAGS) (by decide) ch b
  exact (flagged.dgbFlag _ _).ite flagged

theorem count {f : Field} (hf : f.part ≠ .rMap) (i : Nat) : MapStands x (y.count f i) :=
  h.moves (Chip.count_moves .refl (within_refl _)) (by simpa using f.part_ne (by decide)) (by simpa using f.part_ne (by decide)) (by simpa using hf.symm)

theorem setDrv (ch : Nat) (d : Drv) : MapStands x (y.setDrv ch d) := h.moves (Chip.setDrv_moves .refl (within_refl _)) (by decide) (by decide) (by decide)

theorem setChan (ch : Nat) (k : Chan) : MapStands x (y.setChan ch k) :=
  h.moves (Chip.setChan_moves .refl (within_refl _)) (by decide) (by decide) (by decide)

theorem setBank (b : Nat) (k : BankSt) : MapStands x (y.setBank b k) :=
  h.moves (Chip.setBank_moves .refl (within_refl _)) (by decide) (by decide) (by decide)

theorem setPhase (ch ph : Nat) : MapStands x (y.setPhase ch ph) :=
  h.moves (Chip.setPhase_moves .refl (within_refl _)) (by decide) (by decide) (by decide)

theorem setSw (ch : Nat) (ls fw : Bool) : MapStands x (y.setSw ch ls fw) :=
  h.moves (Chip.setSw_moves .refl (within_refl _)) (by decide) (by decide) (by decide)

theorem waitDone (ch : Nat) : MapStands x (y.waitDone ch) :=
  h.moves (Chip.waitDone_moves .refl (within_refl _)) (by decide) (by decide) (by decide)

theorem startWindow (ch ph : Nat) : MapStands x (y.startWindow ch ph) :=
  h.moves (Chip.startWindow_moves .refl (within_refl _)) (by decide) (by decide) (by decide)

theorem boostFigures (ch : Nat) : MapStands x (y.boostFigures ch) :=
  h.moves (Chip.boostFigures_moves .refl (within_refl _)) (by decide) (by decide) (by decide)

theorem strokeOff (ch : Nat) : MapStands x (y.strokeOff ch) :=
  h.moves (Chip.strokeOff_moves .refl (within_refl _)) (by decide) (by decide) (by decide)

theorem bankStat (b : Nat) : MapStands x (y.bankStat b) :=
  h.moves (Chip.bankStat_moves .refl (within_refl _)) (by decide) (by decide) (by decide)

theorem decayAs (ch : Nat) (fast : Bool) : MapStands x (y.decayAs ch fast).2 := by
  unfold Chip.decayAs
  split
  · exact h.drvFlag _ _
  · split
    · exact h.drvFlag _ _
    · exact h

theorem stepTo (ch ph : Nat) (fast : Bool) : MapStands x (y.stepTo ch ph fast) := by
  have set := h.setPhase ch ph
  unfold Chip.stepTo
  dsimp only
  split
  · exact (((set.decayAs ch fast).setSw _ _ _).setDrv _ _).bankStat _
  · exact (set.setSw _ _ _).ite set

/-! HSB. -/

theorem hsbTaken (ch : Nat) : MapStands x (y.hsbTaken ch) :=
  (((((h.waitDone ch).wr (.inl (by decide)) _ _).wr (.inl (by decide)) _ _).wr (.inl (by decide)) _ _).wr (.inl (by decide)) _ _).setDrv _ _

theorem hsbFreed (b : Nat) : MapStands x (y.hsbFreed b) := (h.wr (.inl (by decide)) b 0).wr (.inl (by decide)) b _

theorem boostOn (ch : Nat) : MapStands x (y.boostOn ch) := by
  have phased := (h.hsbTaken ch).setPhase ch phBoost
  have idle : MapStands x { (y.hsbTaken ch).setPhase ch phBoost with boost := { ((y.hsbTaken ch).setPhase ch phBoost).boost with rchgFrom := none } } :=
    phased.trans ⟨id, Eq.refl _, fun _ _ _ _ => Eq.refl _⟩
  exact idle.setSw ch true false

theorem boostTake (ch : Nat) : MapStands x (y.boostTake ch) := ((h.boostOn ch).drvFlag ch CH_DRV_FLAGS_BST_WAIT).ite (h.boostOn ch)

theorem boostStart (ch : Nat) : MapStands x (y.boostStart ch) := (h.boostTake ch).count (by decide) _

theorem boostPass (b fuel : Nat) : MapStands x (y.boostPass b fuel) := by
  induction fuel generalizing y with
  | zero => exact h
  | succ k ih =>
    unfold Chip.boostPass
    split
    · split
      · have started := h.boostStart
        dsimp only
        split
        · exact ih ((((started _).boostFigures _).wr (.inl (by decide)) _ _).stepTo _ _ _)
        · exact started _
      · exact h.hsbFreed b
    · exact h.hsbFreed b

theorem boostEnd (ch : Nat) : MapStands x (y.boostEnd ch) :=
  (((h.boostFigures ch).wr (f := CH_DRV_STAT_HSB_OWN) (.inl (by decide)) ch 0).stepTo _ _ _).boostPass _ _

theorem boostFull (ch : Nat) : MapStands x (y.boostFull ch) := (h.boostEnd ch).ite h

theorem boostGrant (ch : Nat) : MapStands x (y.boostGrant ch) := (h.boostStart ch).boostFull ch

theorem boostDeny (ch : Nat) : MapStands x (y.boostDeny ch) :=
  ((((((h.waitDone ch).count (f := CH_DRV_DENY) (by decide) ch).count (f := BK_CNT_DENIES) (by decide) (bankOf ch)).drvFlag ch
    CH_DRV_FLAGS_BST_DENIED).bkFlag (bankOf ch) BK_FLAGS_BST_DENIED).setDrv ch _).startWindow ch phPeak

theorem grantYield (g : Grant) : MapStands x (y.grantYield g) := by
  have given : MapStands x (((y.wr CH_DRV_STAT_HSB_OWN g.ch 0).wr CH_DRV_LAST_WAIT g.ch g.wait).wr BK_STAT_HSB (bankOf g.ch) 0) :=
    ((h.wr (.inl (by decide)) _ _).wr (.inl (by decide)) _ _).wr (.inl (by decide)) _ _
  have back := (((given.setPhase g.ch g.phase).wr (f := CH_DRV_STAT_LS) (.inl (by decide)) g.ch (b2n g.ls)).wr (f := CH_DRV_STAT_FW) (.inl (by decide)) g.ch
    (b2n g.fw)).setDrv g.ch g.drv
  exact (back.boostDeny _).ite (back.setPhase _ _)

theorem boostRequest (ch : Nat) : MapStands x (y.boostRequest ch) := by
  unfold Chip.boostRequest
  extract_lets b _d asked tooHigh told
  have said : MapStands x told := ((h.setDrv _ _).bkFlag _ _).ite (h.setDrv _ _)
  split
  · exact said.boostDeny ch
  · split
    · exact (((said.grantYield _).boostTake ch).setBank b _).boostFull ch
    · split
      · exact (said.boostGrant ch).setBank _ _
      · exact (said.boostDeny ch).ite (said.setPhase ch _)

/-! The output of a channel. -/

theorem nodeAbort (ch : Nat) : MapStands x (y.nodeAbort ch) := ((h.setDrv ch _).dgFlag ch DG_FLAGS_TEST_ABORT).ite h

theorem supAbort (b : Nat) : MapStands x (y.supAbort b) := by
  have ended := h.setBank b { y.bank b with supTb := none }
  exact ((ended.wr (f := DGB_STAT_BUSY) (.inl (by decide)) b 0).dgbFlag b DGB_FLAGS_TEST_ABORT).ite h

theorem drvStart (ch t : Nat) : MapStands x (y.drvStart ch t) := by
  unfold Chip.drvStart
  extract_lets ph begun d re set flagged acted
  have start : MapStands x begun := ((h.nodeAbort ch).supAbort (bankOf ch)).moves (Chip.laneRecord_moves .refl (within_refl _)) (by decide) (by decide) (by decide)
  have told : MapStands x flagged := ((start.setDrv _ _).drvFlag _ _).ite (start.setDrv _ _)
  have counted : MapStands x acted := told.wr (.inl (by decide)) _ _
  exact h.ite ((told.startWindow ch _).ite ((counted.boostRequest ch).ite (counted.startWindow ch _)))

theorem strokeBegin (ch t : Nat) : MapStands x (y.strokeBegin ch t) := by
  have begun : ∀ k : Chan, MapStands x ((y.setChan ch k).wr MAP_CH_STAT_STROKE ch 1) := fun k =>
    (h.setChan ch _).wr (.inr (by decide)) ch 1
  unfold Chip.strokeBegin
  dsimp only
  split
  · exact h
  · split
    · exact h.ite (begun _)
    · exact begun _

theorem noNotch (ch : Nat) : MapStands x (y.noNotch ch) := by
  have told := ((h.setDrv ch { y.drv ch with notch := false }).count (f := DG_CNT_NO_NOTCH) (by decide) ch).dgFlag ch DG_FLAGS_NO_NOTCH
  exact (told.ite (told.strokeBegin ch _)).ite h

theorem drvOff (ch : Nat) : MapStands x (y.drvOff ch) := by
  unfold Chip.drvOff Chip.drvOffAs Chip.drvOffBy
  extract_lets ph waited _d ended begun left
  have begins : MapStands x begun := (h.noNotch ch).strokeOff ch
  have leaves : MapStands x left := ((begins.boostFigures ch).wr (.inl (by decide)) _ _).ite begins
  have waits : MapStands x waited := (h.noNotch ch).waitDone ch
  have ends : MapStands x ended := (((waits.setDrv _ _).setSw _ _ _).setPhase _ _).ite (waits.setPhase _ _)
  have decays : ∀ d : Drv, MapStands x ((((left.decayAs ch (!(y.drv ch).offSlow)).2.setDrv ch d).setPhase ch phDecay).setSw ch false
      (!(left.decayAs ch (!(y.drv ch).offSlow)).1)) := fun d => (((leaves.decayAs ch _).setDrv ch d).setPhase ch phDecay).setSw ch _ _
  exact h.ite ((ends.strokeOff ch).ite (((decays _).boostPass _ _).ite (decays _)))

theorem outApply (ch t : Nat) : MapStands x (y.outApply ch t) := by
  have out := h.wr (f := CH_STAT_OUT) (.inl (by decide)) ch
  exact ((out _).drvStart ch t).ite (((out _).drvOff ch).ite (out _))

/-! Gates. -/

theorem gateDrop (ch : Nat) (opens : Bool) : MapStands x (y.gateDrop ch opens) := by
  have pend : MapStands x (y.gatePend ch []) :=
    (h.setChan ch _).wr (.inr (by decide)) ch 0
  have none_ := pend.setChan ch { (y.gatePend ch []).chan ch with gateDone := [] }
  unfold Chip.gateDrop
  extract_lets p _k n
  have scans : MapStands x { n with map := { n.map with scans := tabDrop n.map.scans (· == ch) } } :=
    none_.trans ⟨id, Eq.refl _, fun _ _ _ _ => Eq.refl _⟩
  have set := ((scans.wr (f := MAP_CH_STAT_GATE) (.inr (by decide)) ch (b2n opens)).outApply ch n.tb)
  exact set.ite (set.moves (Chip.strokeCut_moves .refl (within_refl _)) (by decide) (by decide) (by decide))

theorem gateDisable (ch : Nat) : MapStands x (y.gateDisable ch) := (h.gateDrop ch true).ite h

theorem gatesOff : MapStands x y.gatesOff := by
  have each : ∀ (l : List Nat) {n : Chip}, MapStands x n →
      MapStands x (l.foldl (fun m c => if m.rdB MAP_CH_CFG_GATE_EN c then m.gateDisable c else m) n) := by
    intro l
    induction l with
    | nil => exact fun g => g
    | cons c l ih => exact fun g => ih ((g.gateDisable c).ite g)
  exact each _ (h.trans ⟨id, Eq.refl _, fun _ _ _ _ => Eq.refl _⟩)

end MapStands

end Sys2Proof.Machine
end

section
/-! PROOFS. IDENTIFY, STATUS, OPTIONS, RESET, AXIS_SET, AXIS_GET and the settings of the map engine (R323, R324, R333, R334, R340). -/

namespace Sys2Proof.Machine

/-! ## Registers at their addresses (R37) -/

/-- The last address of a field's register. -/
def Field.lastAddr (f : Field) : Nat := f.addr + (f.geo.n1 - 1) * f.geo.stride1 + (f.geo.n2 - 1) * f.geo.stride2

/-- A field in the register of another. -/
def Field.sharesWith (g f : Field) : Bool := g.addr == f.addr && g.geo == f.geo

/-- A field whose register never stands at an address of another's: beside it in each row of one block, or in another range. -/
def Field.besides (g f : Field) : Bool :=
  (g.geo == f.geo && g.addr != f.addr && decide (g.addr < f.addr + f.geo.stride1) && decide (f.addr < g.addr + f.geo.stride1)) ||
    decide (f.lastAddr < g.addr) || decide (g.lastAddr < f.addr)

theorem Field.at_some {f : Field} {a : Nat} (h : (f.at a).isSome = true) :
    ∃ i j, i < f.geo.n1 ∧ j < f.geo.n2 ∧ f.addr + i * f.geo.stride1 + j * f.geo.stride2 = a := by
  unfold Field.at at h
  extract_lets o i r j at h
  split at h
  · next c => exact ⟨i, j, c.2⟩
  · exact absurd h (by simp)

theorem Field.addrOf_flat {f : Field} (flat : f.geo.n2 = 1) (i : Nat) : f.addrOf i = f.addr + i * f.geo.stride1 := by
  unfold Field.addrOf
  rw [flat, Nat.div_one, Nat.mod_one, Nat.zero_mul, Nat.add_zero]

/-- A field stands at the addresses of its registers. -/
theorem Field.at_addrOf {f : Field} (flat : f.geo.n2 = 1) (step : 0 < f.geo.stride1 ∨ f.geo.n1 = 1) {i : Nat} (hi : i < f.geo.n1) :
    f.at (f.addrOf i) = some i := by
  rw [Field.addrOf_flat flat]
  unfold Field.at
  by_cases one : f.geo.n1 = 1
  · have first : i = 0 := by omega
    simp [flat, one, first]
  · have pos : 0 < f.geo.stride1 := step.resolve_right one
    simp [flat, one, hi, Nat.mul_div_cancel _ pos]

theorem Field.at_of_sharesWith {g f : Field} (h : g.sharesWith f = true) (a : Nat) : g.at a = f.at a := by
  obtain ⟨addr, geo⟩ : g.addr = f.addr ∧ g.geo = f.geo := by simpa [Field.sharesWith] using h
  unfold Field.at
  rw [addr, geo]

/-- Rows of one stride are apart. -/
theorem row_eq_of_near {s i k a b : Nat} (e : b + k * s = a + i * s) (hb : b < a + s) (ha : a < b + s) : b = a := by
  rcases Nat.lt_trichotomy k i with lt | eq | gt
  · have := Nat.mul_le_mul_right s lt
    rw [Nat.succ_mul] at this
    omega
  · subst eq
    omega
  · have := Nat.mul_le_mul_right s gt
    rw [Nat.succ_mul] at this
    omega

theorem Field.at_of_besides {g f : Field} (flat : f.geo.n2 = 1) (h : g.besides f = true) {i : Nat} (hi : i < f.geo.n1) :
    (g.at (f.addrOf i)).isSome = false := by
  refine Bool.eq_false_iff.2 fun some_ => ?_
  obtain ⟨k, j, hk, hj, e⟩ := Field.at_some some_
  rw [Field.addrOf_flat flat] at e
  have high : i * f.geo.stride1 ≤ (f.geo.n1 - 1) * f.geo.stride1 := Nat.mul_le_mul_right _ (by omega)
  have highK : k * g.geo.stride1 ≤ (g.geo.n1 - 1) * g.geo.stride1 := Nat.mul_le_mul_right _ (by omega)
  have highJ : j * g.geo.stride2 ≤ (g.geo.n2 - 1) * g.geo.stride2 := Nat.mul_le_mul_right _ (by omega)
  simp only [Field.besides, Field.lastAddr, Bool.or_eq_true, Bool.and_eq_true, decide_eq_true_eq, beq_iff_eq, bne_iff_ne] at h
  rcases h with (⟨⟨⟨geo, ne⟩, below⟩, above⟩ | past) | before
  · have first : j = 0 := by
      rw [geo, flat] at hj
      omega
    rw [geo, first, Nat.zero_mul, Nat.add_zero] at e
    exact ne (row_eq_of_near e below above)
  · have := of_decide_eq_true past
    omega
  · have := of_decide_eq_true before
    omega

/-- The register of a field at one of its addresses: the fields of its block that share its address. -/
theorem regAt_addrOf {f : Field} {i : Nat} {l r : List Field} (block : blockFields (f.addrOf i) = l) (hi : i < f.geo.n1)
    (flat : f.geo.n2 = 1) (step : 0 < f.geo.stride1 ∨ f.geo.n1 = 1) (apart : (l.all fun g => g.sharesWith f || g.besides f) = true)
    (fields : l.filter (·.sharesWith f) = f :: r) : regAt (f.addrOf i) = some ⟨f.addr, i, f :: r⟩ := by
  have at_ := Field.at_addrOf flat step hi
  have stands : l.filter (fun g => (g.at (f.addrOf i)).isSome) = l.filter (·.sharesWith f) := by
    refine List.filter_congr fun g hg => ?_
    rcases Bool.or_eq_true_iff.1 (List.all_eq_true.1 apart g hg) with shares | beside
    · rw [Field.at_of_sharesWith shares, at_, shares]
      rfl
    · rw [Field.at_of_besides flat beside hi]
      refine (Bool.eq_false_iff.2 fun shares => ?_).symm
      have none_ := Field.at_of_besides flat beside hi
      rw [Field.at_of_sharesWith shares, at_] at none_
      exact absurd none_ (by simp)
  unfold regAt
  rw [block, stands, fields]
  simp only [at_, Option.getD_some]

theorem blockFields_axis {a : Nat} (h : a / 65536 = 0x20) : blockFields a = fieldsAX := by
  unfold blockFields
  rw [if_neg (by omega), if_neg (by omega), if_neg (by omega), if_pos h]

/-- The fields of the map engine's block. -/
def fieldsMapBlock : List Field := fieldsMAP ++ fieldsMAPCH ++ fieldsRATE ++ fieldsCT ++ fieldsPT

theorem blockFields_map {a : Nat} (h : a / 65536 = 0x70) : blockFields a = fieldsMapBlock := by
  unfold blockFields
  rw [if_neg (by omega), if_neg (by omega), if_neg (by omega), if_neg (by omega), if_neg (by omega), if_neg (by omega), if_neg (by omega),
    if_neg (by omega), if_neg (by omega), if_neg (by omega), if_neg (by omega), if_neg (by omega), if_neg (by omega), if_neg (by omega), if_pos h]
  rfl

section
variable {a : Nat}

theorem regAt_axCfg (h : a < 256) : regAt (AX_CFG_KIND.addrOf a) = some ⟨AX_CFG_KIND.addr, a, [AX_CFG_KIND, AX_CFG_SLOT]⟩ :=
  regAt_addrOf (blockFields_axis (by rw [Field.addrOf_flat rfl]; simp [AX_CFG_KIND, geoAX]; omega)) h rfl (by decide) (by decide) (by decide)

theorem regAt_axY (h : a < 256) : regAt (AX_Y.addrOf a) = some ⟨AX_Y.addr, a, [AX_Y]⟩ :=
  regAt_addrOf (blockFields_axis (by rw [Field.addrOf_flat rfl]; simp [AX_Y, geoAX]; omega)) h rfl (by decide) (by decide) (by decide)

theorem regAt_axX (h : a < 256) : regAt (AX_X.addrOf a) = some ⟨AX_X.addr, a, [AX_X]⟩ :=
  regAt_addrOf (blockFields_axis (by rw [Field.addrOf_flat rfl]; simp [AX_X, geoAX]; omega)) h rfl (by decide) (by decide) (by decide)

theorem regAt_axDefl (h : a < 256) : regAt (AX_DEFL_DSEL.addrOf a) = some ⟨AX_DEFL_DSEL.addr, a, [AX_DEFL_DSEL, AX_DEFL_DEN, AX_DEFL_K]⟩ :=
  regAt_addrOf (blockFields_axis (by rw [Field.addrOf_flat rfl]; simp [AX_DEFL_DSEL, geoAX]; omega)) h rfl (by decide) (by decide) (by decide)

theorem regAt_mapRate (h : a < 256) : regAt (MAP_RATE_WIDTH.addrOf a) = some ⟨MAP_RATE_WIDTH.addr, a, [MAP_RATE_WIDTH, MAP_RATE_OFF]⟩ :=
  regAt_addrOf (blockFields_map (by rw [Field.addrOf_flat rfl]; simp [MAP_RATE_WIDTH, geoRATE]; omega)) h rfl (by decide) (by decide) (by decide)

/-- The settings of a channel. -/
def mapChReg (a : Nat) : Reg :=
  ⟨MAP_CH_CFG_GATE_EN.addr, a, [MAP_CH_CFG_GATE_EN, MAP_CH_CFG_WB_EN, MAP_CH_CFG_PRX_EN, MAP_CH_CFG_OVL_N, MAP_CH_CFG_WSCALE, MAP_CH_CFG_SWATH]⟩

theorem regAt_mapCh (h : a < 192) : regAt (MAP_CH_CFG_GATE_EN.addrOf a) = some (mapChReg a) :=
  regAt_addrOf (blockFields_map (by rw [Field.addrOf_flat rfl]; simp [MAP_CH_CFG_GATE_EN, geoMAPCH]; omega)) h rfl (by decide) (by decide) (by decide)

end

/-- MAP_CFG. -/
def mapCfgReg : Reg := ⟨MAP_CFG_EN.addr, 0, [MAP_CFG_EN, MAP_CFG_UNK, MAP_CFG_NOFIELD, MAP_CFG_FLUSH_S, MAP_CFG_LOOK]⟩

theorem regAt_mapCfg : regAt MAP_CFG_EN.addr = some mapCfgReg :=
  regAt_addrOf (f := MAP_CFG_EN) (i := 0) (blockFields_map rfl) (by decide) rfl (by decide) (by decide) (by decide)

theorem regAt_mapDef : regAt MAP_DEF_DEF_RATE.addr = some ⟨MAP_DEF_DEF_RATE.addr, 0, [MAP_DEF_DEF_RATE]⟩ :=
  regAt_addrOf (f := MAP_DEF_DEF_RATE) (i := 0) (blockFields_map rfl) (by decide) rfl (by decide) (by decide) (by decide)

/-! ## Writes by Gelow -/

theorem Chip.gelowWrite_at {m : Chip} {who : Writer} {a w : Nat} {r : Reg} (at_ : regAt a = some r) (run : m.runs (islandAt a) = true)
    (gate : m.gateAt a = true) : m.gelowWrite who a w = m.regWrite who r w := by
  unfold Chip.gelowWrite
  rw [at_]
  exact if_pos (by simp [Chip.reaches, run, gate])

theorem Chip.runs_of {x y : Chip} (isl : y.isl = x.isl) (asleep : y.asleep = x.asleep) (i : Nat) : y.runs i = x.runs i := by
  unfold Chip.runs Chip.clockOk Chip.island
  rw [isl, asleep]

theorem Chip.plainWrite_of_noSource {r : Reg} (h : ieSource r = none) (m : Chip) (w : Nat) : m.plainWrite r w = m.regPut r w := by
  unfold Chip.plainWrite
  rw [h]
  rfl

theorem Chip.regPut_runs (m : Chip) (r : Reg) (w i : Nat) : (m.regPut r w).runs i = m.runs i :=
  have kept := (Chip.regPut_moves (m := m) (r := r) (v := w) .refl (within_refl _)).kept
  Chip.runs_of (kept.isl (by decide)) (kept.asleep (by decide)) i

theorem Chip.fieldWrite_rd_ne (m : Chip) {f g : Field} (h : f.id ≠ g.id) (i w j : Nat) : (m.fieldWrite i w g).rd f j = m.rd f j := by
  unfold Chip.fieldWrite
  split
  · exact Chip.rd_wr_ne _ _ _ _ _ _ h
  · exact Chip.rd_wr_ne _ _ _ _ _ _ h
  · exact Chip.rd_wr_ne _ _ _ _ _ _ h
  · rfl

theorem Chip.fieldWrites_rd (m : Chip) {l : List Field} {f : Field} (hf : (l.all fun g => g.id != f.id) = true) (i w j : Nat) :
    (l.foldl (fun m g => m.fieldWrite i w g) m).rd f j = m.rd f j := by
  induction l generalizing m with
  | nil => rfl
  | cons g l ih =>
    obtain ⟨ne, rest⟩ : g.id ≠ f.id ∧ (l.all fun g => g.id != f.id) = true := by simpa using hf
    rw [List.foldl_cons, ih _ (by simpa using rest), Chip.fieldWrite_rd_ne _ ne.symm]

/-- A field that is written shows its part of the word. -/
theorem Chip.regPut_rd {r : Reg} {f : Field} {before after : List Field} (fields : r.fields = before ++ f :: after) (acc : f.acc = .rw)
    (others : (after.all fun g => g.id != f.id) = true) (m : Chip) (w : Nat) : (m.regPut r w).rd f r.inst = wordField f w := by
  unfold Chip.regPut
  rw [fields, List.foldl_append, List.foldl_cons, Chip.fieldWrites_rd _ others]
  unfold Chip.fieldWrite
  rw [acc]
  exact (Chip.rd_wr_same _ _ _ _).trans (wordField_mod _ _)

/-- A field of another register stands. -/
theorem Chip.regPut_rd_ne {r : Reg} {f : Field} (others : (r.fields.all fun g => g.id != f.id) = true) (m : Chip) (w i : Nat) :
    (m.regPut r w).rd f i = m.rd f i := Chip.fieldWrites_rd _ others _ _ _

/-! ## The axes (R334) -/

theorem islandAt_axis {a : Nat} (h : a / 65536 = 0x20) : islandAt a = islAxis := by
  unfold islandAt
  rw [if_neg (by omega), if_neg (by omega), if_pos h]

theorem Chip.gateAt_axis (m : Chip) {a : Nat} (h : a / 65536 = 0x20) : m.gateAt a = true := by
  unfold Chip.gateAt
  iterate 9 rw [if_neg (by omega)]

/-- The block of a field of the axes. -/
theorem axis_addr {f : Field} (geo : f.geo = geoAX) (low : f.addr < 0x200000 + 0x100) (high : 0x200000 ≤ f.addr) {a : Nat} (h : a < 256) :
    f.addrOf a / 65536 = 0x20 := by
  have flat : f.geo.n2 = 1 := by rw [geo]; rfl
  have step : f.geo.stride1 = 0x100 := by rw [geo]; rfl
  rw [Field.addrOf_flat flat, step]
  omega

theorem Chip.regWrite_axis {r : Reg} (block : r.base / 65536 = 0x20) (m : Chip) (who : Writer) (w : Nat) :
    m.regWrite who r w = if r.base = AX_CFG_KIND.addr then m.axCfgWrite r.inst w else m.plainWrite r w := by
  unfold Chip.regWrite
  dsimp only
  rw [block, if_neg (by decide), if_neg (by decide), if_pos rfl]

section
variable {m : Chip} {who : Writer} {a : Nat} (run : m.runs islAxis = true)
include run

theorem Chip.gelowWrite_axCfg (h : a < 256) (w : Nat) : m.gelowWrite who (AX_CFG_KIND.addrOf a) w = m.axCfgWrite a w := by
  have block := axis_addr (f := AX_CFG_KIND) rfl (by decide) (by decide) h
  have low : AX_CFG_KIND.addr / 65536 = 0x20 := by decide
  rw [Chip.gelowWrite_at (regAt_axCfg h) (by rwa [islandAt_axis block]) (m.gateAt_axis block), Chip.regWrite_axis low, if_pos rfl]

theorem Chip.gelowWrite_axis {f : Field} {l : List Field} (at_ : regAt (f.addrOf a) = some ⟨f.addr, a, l⟩) (block : f.addrOf a / 65536 = 0x20)
    (low : f.addr / 65536 = 0x20) (ne : f.addr ≠ AX_CFG_KIND.addr) (source : ieSource ⟨f.addr, a, l⟩ = none) (w : Nat) :
    m.gelowWrite who (f.addrOf a) w = m.regPut ⟨f.addr, a, l⟩ w := by
  rw [Chip.gelowWrite_at at_ (by rwa [islandAt_axis block]) (m.gateAt_axis block), Chip.regWrite_axis low, if_neg ne,
    Chip.plainWrite_of_noSource source]

end

/-- An axis as an entry of AXIS_SET leaves it. -/
def Chip.axisWritten (m : Chip) (a : Nat) (e : List Byte) : Chip :=
  (((m.axCfgWrite a (payNat e 1 1 % 32)).regPut ⟨AX_Y.addr, a, [AX_Y]⟩ (payNat e 4 4)).regPut ⟨AX_X.addr, a, [AX_X]⟩ (payNat e 8 4)).regPut
    ⟨AX_DEFL_DSEL.addr, a, [AX_DEFL_DSEL, AX_DEFL_DEN, AX_DEFL_K]⟩ (payNat e 2 1 % 16 + 65536 * payNat e 12 2)

theorem Chip.axisEntry_owned {m : Chip} {x a : Nat} {e : List Byte} (axis : payNat e 0 1 = a) (owner : m.axOwner a = mbOwner x)
    (run : m.runs islAxis = true) : m.axisEntry x e = (0, m.axisWritten a e) := by
  have h : a < 256 := axis ▸ payNat_lt e 0 1
  have kept := (Chip.axCfgWrite_moves (m := m) (a' := a) (w' := payNat e 1 1 % 32) .refl (within_refl _)).kept
  have run1 : (m.axCfgWrite a (payNat e 1 1 % 32)).runs islAxis = true := (Chip.runs_of (kept.isl (by decide)) (kept.asleep (by decide)) _).trans run
  unfold Chip.axisEntry
  rw [axis, if_neg (by simp [owner])]
  dsimp only
  rw [Chip.gelowWrite_axCfg run h, Chip.gelowWrite_axis run1 (regAt_axY h) (axis_addr rfl (by decide) (by decide) h) (by decide) (by decide) rfl,
    Chip.gelowWrite_axis (by rwa [Chip.regPut_runs]) (regAt_axX h) (axis_addr rfl (by decide) (by decide) h) (by decide) (by decide) rfl,
    Chip.gelowWrite_axis (by rwa [Chip.regPut_runs, Chip.regPut_runs]) (regAt_axDefl h) (axis_addr rfl (by decide) (by decide) h) (by decide)
      (by decide) rfl]
  rfl

theorem Chip.axisWritten_shows (m : Chip) (a : Nat) (e : List Byte) :
    (m.axisWritten a e).rd AX_Y a = payNat e 4 4 % 2 ^ AX_Y.w ∧ (m.axisWritten a e).rd AX_X a = payNat e 8 4 % 2 ^ AX_X.w ∧
    (m.axisWritten a e).rd AX_DEFL_K a = payNat e 12 2 % 2 ^ AX_DEFL_K.w := by
  refine ⟨?_, ?_, ?_⟩
  · unfold Chip.axisWritten
    rw [Chip.regPut_rd_ne rfl, Chip.regPut_rd_ne rfl]
    exact (Chip.regPut_rd (before := []) rfl rfl rfl _ _).trans (by simp [wordField, AX_Y])
  · unfold Chip.axisWritten
    rw [Chip.regPut_rd_ne rfl]
    exact (Chip.regPut_rd (before := []) rfl rfl rfl _ _).trans (by simp [wordField, AX_X])
  · refine (Chip.regPut_rd (before := [AX_DEFL_DSEL, AX_DEFL_DEN]) rfl rfl rfl _ _).trans ?_
    unfold wordField
    change (payNat e 2 1 % 16 + 65536 * payNat e 12 2) / 65536 % 65536 = payNat e 12 2 % 65536
    omega

theorem Chip.axisWritten_moves (m : Chip) (a : Nat) (e : List Byte) : Moves (.axes :: .cyc :: regParts) m (m.axisWritten a e) :=
  Chip.regPut_moves (Chip.regPut_moves (Chip.regPut_moves (Chip.axCfgWrite_moves .refl (by decide)) (by decide)) (by decide)) (by decide)

/-! ## The map engine (R340) -/

theorem islandAt_map {a : Nat} (h : a / 65536 = 0x70) : islandAt a = islMap := by
  unfold islandAt
  rw [if_neg (by omega), if_neg (by omega), if_neg (by omega), if_neg (by omega), if_neg (by omega), if_neg (by omega), if_pos (by omega)]

theorem Chip.gateAt_map (m : Chip) {a : Nat} (h : a / 65536 = 0x70) : m.gateAt a = true := by
  unfold Chip.gateAt
  iterate 9 rw [if_neg (by omega)]

theorem Chip.regWrite_map {r : Reg} (block : r.base / 65536 = 0x70) (m : Chip) (who : Writer) (w : Nat) : m.regWrite who r w = m.mapWrite r w := by
  unfold Chip.regWrite
  dsimp only
  rw [block]
  rfl

theorem Chip.gelowWrite_map {m : Chip} {who : Writer} {a w : Nat} {r : Reg} (run : m.runs islMap = true) (at_ : regAt a = some r)
    (block : a / 65536 = 0x70) (base : r.base / 65536 = 0x70) : m.gelowWrite who a w = m.mapWrite r w := by
  rw [Chip.gelowWrite_at at_ (by rwa [islandAt_map block]) (m.gateAt_map block), Chip.regWrite_map base]

/-- A block that is awake and whose clocks stand goes on running. -/
theorem MapStands.runs {x y : Chip} (h : MapStands x y) (run : x.runs islMap = true) : y.runs islMap = true := by
  have awake : x.asleep = false := by
    unfold Chip.runs at run
    simpa [islMap] using (Bool.and_eq_true_iff.1 run).2
  rw [← run]
  exact Chip.runs_of h.isl ((h.awake awake).trans awake.symm) _

/-- A write of MAP_CFG is taken; one that clears EN ends gating too. -/
theorem Chip.mapWrite_cfg (m : Chip) (w : Nat) : MapStands (m.regPut mapCfgReg w) (m.mapWrite mapCfgReg w) :=
  (MapStands.rfl _).ite (MapStands.rfl _).gatesOff

theorem Chip.mapWrite_ch (m : Chip) (a w : Nat) : MapStands (m.regPut (mapChReg a) w) (m.mapWrite (mapChReg a) w) :=
  (MapStands.rfl _).ite ((MapStands.rfl _).gateDisable a)

/-- The map engine's settings as MAP_CONFIG leaves them. -/
def Chip.mapConfigured (m : Chip) (cfg rate : Nat) : Chip := (m.mapWrite mapCfgReg cfg).regPut ⟨MAP_DEF_DEF_RATE.addr, 0, [MAP_DEF_DEF_RATE]⟩ rate

theorem Chip.mapConfig_owned {m : Chip} {x : Nat} {p : List Byte} (owner : m.rd PROT_ROLE_GEOM = mbOwner x) (run : m.runs islMap = true) :
    m.mapConfig x p = (m.mapConfigured (payNat p 0 4) (payNat p 4 1)).mbDone x 0 0 0 [] [] := by
  have runs : (m.mapWrite mapCfgReg (payNat p 0 4)).runs islMap = true := (m.mapWrite_cfg _).runs (by rwa [Chip.regPut_runs])
  unfold Chip.mapConfig
  rw [if_neg (by simp [owner]), Chip.gelowWrite_map run regAt_mapCfg rfl rfl]
  dsimp only
  rw [Chip.gelowWrite_map runs regAt_mapDef rfl rfl]
  rfl

theorem Chip.mapConfigured_shows (m : Chip) (cfg rate : Nat) :
    (m.mapConfigured cfg rate).rd MAP_DEF_DEF_RATE = rate % 2 ^ MAP_DEF_DEF_RATE.w ∧ (m.mapConfigured cfg rate).rd MAP_CFG_EN = cfg % 2 := by
  constructor
  · exact (Chip.regPut_rd (before := []) rfl rfl rfl _ _).trans (by simp [wordField, MAP_DEF_DEF_RATE])
  · refine (Chip.regPut_rd_ne rfl _ _ _).trans (((m.mapWrite_cfg cfg).settings MAP_CFG_EN 0 rfl (by decide)).trans ?_)
    exact (Chip.regPut_rd (r := mapCfgReg) (before := []) rfl rfl rfl _ _).trans (by simp [wordField, MAP_CFG_EN])

theorem Chip.mapConfigured_moves (m : Chip) (cfg rate : Nat) :
    Moves (regParts ++ [.frees, .asleep, .accums, .chans, .banks, .boost, .bcap, .map, .nand, .sys, .cyc]) m (m.mapConfigured cfg rate) :=
  Chip.regPut_moves (Chip.mapWrite_moves .refl (by decide)) (by decide)

theorem Chip.rateSet_one {m : Chip} {x a : Nat} {p : List Byte} (entry : payNat p 0 1 = a) (one : payNat p 1 1 = 1) (run : m.runs islMap = true) :
    m.rateSet x p = (m.regPut ⟨MAP_RATE_WIDTH.addr, a, [MAP_RATE_WIDTH, MAP_RATE_OFF]⟩ (payNat p 4 4)).mbDone x 0 0 0 [] [] := by
  have h : a < 256 := entry ▸ payNat_lt p 0 1
  have block : MAP_RATE_WIDTH.addrOf a / 65536 = 0x70 := by
    rw [Field.addrOf_flat rfl]
    change (0x704000 + a * 4) / 65536 = 0x70
    omega
  have base : MAP_RATE_WIDTH.addr / 65536 = 0x70 := by decide
  unfold Chip.rateSet
  rw [one, entry]
  change ((m.gelowWrite .anvilV (MAP_RATE_WIDTH.addrOf a) (payNat p 4 4)).mbDone x 0 0 0 [] []) = _
  rw [Chip.gelowWrite_map run (regAt_mapRate h) block base]
  rfl

theorem Chip.mapChEntry_owned {m : Chip} {o a : Nat} {e : List Byte} (chan : payNat e 0 2 = a) (low : a < 192) (owner : m.chOwner a = o)
    (run : m.runs islMap = true) : m.mapChEntry o e = (0, m.mapWrite (mapChReg a) (payNat e 4 4)) := by
  have block : MAP_CH_CFG_GATE_EN.addrOf a / 65536 = 0x70 := by
    rw [Field.addrOf_flat rfl]
    change (0x701000 + a * 16) / 65536 = 0x70
    omega
  have base : (mapChReg a).base / 65536 = 0x70 := by
    change 0x701000 / 65536 = 0x70
    decide
  unfold Chip.mapChEntry
  rw [chan, if_neg (Nat.not_le.2 low), if_neg (by simp [owner]), Chip.gelowWrite_map run (regAt_mapCh low) block base]

theorem Chip.mapCh_shows (m : Chip) (a w : Nat) :
    (m.mapWrite (mapChReg a) w).rd MAP_CH_CFG_GATE_EN a = wordField MAP_CH_CFG_GATE_EN w ∧
    (m.mapWrite (mapChReg a) w).rd MAP_CH_CFG_SWATH a = wordField MAP_CH_CFG_SWATH w :=
  ⟨((m.mapWrite_ch a w).settings _ _ rfl (by decide)).trans (Chip.regPut_rd (r := mapChReg a) (before := []) rfl rfl rfl _ _),
    ((m.mapWrite_ch a w).settings _ _ rfl (by decide)).trans
      (Chip.regPut_rd (r := mapChReg a) (before := [MAP_CH_CFG_GATE_EN, MAP_CH_CFG_WB_EN, MAP_CH_CFG_PRX_EN, MAP_CH_CFG_OVL_N, MAP_CH_CFG_WSCALE])
        rfl rfl rfl _ _)⟩

/-! ## The commands -/

section
variable {x : Mbx} {s : State}

theorem exec_identify (next : s.chip.isNext x.val 0x0101 = true) : exec (.identify x) s = .next { s with chip := s.chip.identify x.val } :=
  upd_runCmd next

theorem exec_status (next : s.chip.isNext x.val 0x0102 = true) : exec (.status x) s = .next { s with chip := s.chip.statusCmd x.val } :=
  upd_runCmd next

theorem exec_options (next : s.chip.isNext x.val 0x0103 = true) :
    exec (.options x) s = .next { s with chip := s.chip.options x.val (s.chip.mbPay x.val) } := upd_runCmd next

theorem exec_resetAnvilC (next : s.chip.isNext x.val 0x0104 = true) :
    exec (.resetAnvilC x) s = .next { s with chip := s.chip.resetCmd x.val 0 (s.chip.mbPay x.val) } := upd_runCmd next

theorem exec_resetModule (next : s.chip.isNext x.val 0x0104 = true) :
    exec (.resetModule x) s = .next { s with chip := s.chip.resetCmd x.val 1 (s.chip.mbPay x.val) } := upd_runCmd next

theorem exec_axisGet (next : s.chip.isNext x.val 0x0202 = true) :
    exec (.axisGet x) s = .next { s with chip := s.chip.axisGet x.val (s.chip.mbPay x.val) } := upd_runCmd next

theorem exec_axisSet (next : s.chip.isNext x.val 0x0201 = true) :
    exec (.axisSet x) s = .next { s with chip := s.chip.axisSet x.val (s.chip.mbPay x.val) } := upd_runCmd next

theorem exec_mapConfig (next : s.chip.isNext x.val 0x0602 = true) :
    exec (.mapConfig x) s = .next { s with chip := s.chip.mapConfig x.val (s.chip.mbPay x.val) } := upd_runCmd next

theorem exec_rateSet (next : s.chip.isNext x.val 0x0603 = true) :
    exec (.rateSet x) s = .next { s with chip := s.chip.rateSet x.val (s.chip.mbPay x.val) } := upd_runCmd next

theorem exec_mapChSet (next : s.chip.isNext x.val 0x0604 = true) :
    exec (.mapChSet x) s = .next { s with chip := s.chip.mapChSet x.val (s.chip.mbPay x.val) } := upd_runCmd next

end

/-- A command whose work leaves Gelow's state ends the batch's first entry. -/
theorem Chip.mbDone_batch {m y : Chip} {L : List Part} (h : Moves L m y) (hg : Part.gelow ∉ L) (x reason nacc jsn : Nat) (pay window : List Byte) :
    (y.mbDone x reason nacc jsn pay window).gelow.batch = m.gelow.batch.filter (· != x) := by
  rw [Chip.mbDone_gelow, h.kept.gelow hg]

theorem Chip.axisSet_one {m : Chip} {x a : Nat} {p : List Byte} (one : payNat p 0 1 = 1) (axis : payNat p 8 1 = a) (owner : m.axOwner a = mbOwner x)
    (run : m.runs islAxis = true) : m.axisSet x p = (m.axisWritten a ((p.drop 8).take 16)).mbDone x 0 0 0 [0] [] := by
  have entry : payNat ((p.drop 8).take 16) 0 1 = a := (payNat_entry p 8 16 (by decide)).trans axis
  unfold Chip.axisSet
  rw [one, payEntries_one, Chip.eachEntry_one, Chip.axisEntry_owned entry owner run]
  rfl

theorem Chip.mapChSet_one {m : Chip} {x a : Nat} {p : List Byte} (one : payNat p 0 1 = 1) (chan : payNat p 4 2 = a) (low : a < 192)
    (owner : m.chOwner a = mbOwner x) (run : m.runs islMap = true) :
    m.mapChSet x p = (m.mapWrite (mapChReg a) (payNat p 8 4)).mbDone x 0 0 0 [0] [] := by
  have entry : payNat ((p.drop 4).take 8) 0 2 = a := (payNat_entry p 4 8 (by decide)).trans chan
  have word : payNat ((p.drop 4).take 8) 4 4 = payNat p 8 4 := payNat_entry p 4 8 (by decide)
  unfold Chip.mapChSet
  rw [one, payEntries_one, Chip.eachEntry_one, Chip.mapChEntry_owned entry low owner run, word]
  rfl

theorem Chip.axisGet_one {m : Chip} {x a : Nat} {p : List Byte} (axis : payNat p 0 1 = a) (one : payNat p 1 1 = 1) :
    m.axisGet x p = m.mbDone x 0 0 0 (m.axisBytes a) [] := by
  have single : ((List.range 1).flatMap fun i => m.axisBytes (a + i)) = m.axisBytes a := by
    rw [show List.range 1 = [0] from rfl, List.flatMap_singleton]
    rfl
  unfold Chip.axisGet
  rw [axis, one, single]

theorem Chip.axisBytes_length (m : Chip) (a : Nat) : (m.axisBytes a).length = 16 := by simp [Chip.axisBytes, leBytes_length]

/-- A reset is arranged as its command ends. -/
theorem Chip.resetCmd_of {m : Chip} {x kind : Nat} {p : List Byte} (h : payNat p 0 1 = kind) :
    m.resetCmd x kind p = { m.mbDone x 0 0 0 [] [] with
      sys := if kind = 0 then { m.sys with cAt := some (m.tb + msTb) } else { m.sys with modAt := some (m.tb + msTb) } } := by
  unfold Chip.resetCmd
  rw [if_neg (by simp [h])]
  dsimp only
  rw [(m.mbDone_kept x 0 0 0 [] []).sys (by decide)]

/-- Settles O57: each command by what it writes and by its end. -/
theorem systemAndGeometryCommands : Obligations.SystemAndGeometryCommands := by
  unfold Obligations.SystemAndGeometryCommands
  refine ⟨?_, ?_, ?_, ?_, ?_, ?_, ?_, ?_, ?_, ?_⟩
  · intro x s next wf
    refine ⟨_, exec_identify next, ?_⟩
    dsimp only
    unfold Chip.identify
    refine ⟨(Chip.mbDone_shows _ _ _ _ _ _ _).1, (Chip.mbDone_shows _ _ _ _ _ _ _).2, congrArg Gelow.batch (Chip.mbDone_gelow _ _ _ _ _ _ _), ?_⟩
    rw [Chip.mbDone_load wf _ _ _ _ _ (by simp [leBytes_length])]
    exact List.take_of_length_le (by simp [leBytes_length])
  · intro x s next wf
    refine ⟨_, exec_status next, ?_⟩
    dsimp only
    unfold Chip.statusCmd
    refine ⟨(Chip.mbDone_shows _ _ _ _ _ _ _).1, (Chip.mbDone_shows _ _ _ _ _ _ _).2, congrArg Gelow.batch (Chip.mbDone_gelow _ _ _ _ _ _ _), ?_⟩
    rw [Chip.mbDone_load wf _ _ _ _ _ (by simp [leBytes_length])]
    iterate 4 rw [List.take_append_of_le_length (by simp [leBytes_length])]
    exact List.take_of_length_le (by simp [leBytes_length])
  · intro x b s next on
    refine ⟨_, exec_options next, ?_⟩
    dsimp only
    unfold Chip.options
    refine ⟨(Chip.mbDone_shows _ _ _ _ _ _ _).1, (Chip.mbDone_shows _ _ _ _ _ _ _).2, ?_, ?_⟩
    · rw [Chip.mbDone_gelow]
    · rw [Chip.mbDone_gelow]
      dsimp only
      rw [on]
      cases b <;> rfl
  · intro x s next kind
    refine ⟨_, exec_resetAnvilC next, ?_⟩
    dsimp only
    rw [Chip.resetCmd_of kind]
    exact ⟨(Chip.mbDone_shows _ _ _ _ _ _ _).1, (Chip.mbDone_shows _ _ _ _ _ _ _).2, congrArg Gelow.batch (Chip.mbDone_gelow _ _ _ _ _ _ _), rfl⟩
  · intro x s next kind
    refine ⟨_, exec_resetModule next, ?_⟩
    dsimp only
    rw [Chip.resetCmd_of kind]
    exact ⟨(Chip.mbDone_shows _ _ _ _ _ _ _).1, (Chip.mbDone_shows _ _ _ _ _ _ _).2, congrArg Gelow.batch (Chip.mbDone_gelow _ _ _ _ _ _ _), rfl⟩
  · intro x a s next wf axis one
    refine ⟨_, exec_axisGet next, ?_⟩
    dsimp only
    rw [Chip.axisGet_one axis one]
    refine ⟨(Chip.mbDone_shows _ _ _ _ _ _ _).1, (Chip.mbDone_shows _ _ _ _ _ _ _).2, congrArg Gelow.batch (Chip.mbDone_gelow _ _ _ _ _ _ _), ?_⟩
    rw [Chip.mbDone_load wf _ _ _ _ _ (by rw [Chip.axisBytes_length]), List.take_of_length_le (by rw [Chip.axisBytes_length])]
    rfl
  · intro x a s next wf one axis owner run
    refine ⟨_, exec_axisSet next, ?_⟩
    dsimp only
    rw [Chip.axisSet_one one axis owner run]
    have moved := s.chip.axisWritten_moves a (((s.chip.mbPay x.val).drop 8).take 16)
    have kept := (s.chip.axisWritten a (((s.chip.mbPay x.val).drop 8).take 16)).mbDone_kept x.val 0 0 0 [0] []
    obtain ⟨y, x', k⟩ := s.chip.axisWritten_shows a (((s.chip.mbPay x.val).drop 8).take 16)
    rw [payNat_entry _ _ _ (by decide)] at y x' k
    refine ⟨(Chip.mbDone_shows _ _ _ _ _ _ _).1, (Chip.mbDone_shows _ _ _ _ _ _ _).2, Chip.mbDone_batch moved (by decide) _ _ _ _ _ _,
      (kept.regs _ _ (by decide)).trans y, (kept.regs _ _ (by decide)).trans x', (kept.regs _ _ (by decide)).trans k, ?_⟩
    exact Chip.mbDone_load (by rwa [moved.mem_eq (by decide)]) _ _ _ _ _ (by decide)
  · intro x s next owner run
    refine ⟨_, exec_mapConfig next, ?_⟩
    dsimp only
    rw [Chip.mapConfig_owned owner run]
    have moved := s.chip.mapConfigured_moves (payNat (s.chip.mbPay x.val) 0 4) (payNat (s.chip.mbPay x.val) 4 1)
    have kept := (s.chip.mapConfigured (payNat (s.chip.mbPay x.val) 0 4) (payNat (s.chip.mbPay x.val) 4 1)).mbDone_kept x.val 0 0 0 [] []
    obtain ⟨rate, en⟩ := s.chip.mapConfigured_shows (payNat (s.chip.mbPay x.val) 0 4) (payNat (s.chip.mbPay x.val) 4 1)
    exact ⟨(Chip.mbDone_shows _ _ _ _ _ _ _).1, (Chip.mbDone_shows _ _ _ _ _ _ _).2, Chip.mbDone_batch moved (by decide) _ _ _ _ _ _,
      (kept.regs _ _ (by decide)).trans rate, (kept.regs _ _ (by decide)).trans en⟩
  · intro x a s next entry one run
    refine ⟨_, exec_rateSet next, ?_⟩
    dsimp only
    rw [Chip.rateSet_one entry one run]
    refine ⟨(Chip.mbDone_shows _ _ _ _ _ _ _).1, (Chip.mbDone_shows _ _ _ _ _ _ _).2,
      Chip.mbDone_batch (Chip.regPut_moves .refl (within_refl _)) (by decide) _ _ _ _ _ _, ?_⟩
    exact ((Chip.mbDone_kept _ _ _ _ _ _ _).regs _ _ (by decide)).trans (Chip.regPut_rd (before := []) rfl rfl rfl _ _)
  · intro x a s next wf one chan low owner run
    refine ⟨_, exec_mapChSet next, ?_⟩
    dsimp only
    rw [Chip.mapChSet_one one chan low owner run]
    have moved := Chip.mapWrite_moves (m := s.chip) (r' := mapChReg a) (w' := payNat (s.chip.mbPay x.val) 8 4) .refl (within_refl _)
    have kept := (s.chip.mapWrite (mapChReg a) (payNat (s.chip.mbPay x.val) 8 4)).mbDone_kept x.val 0 0 0 [0] []
    obtain ⟨gate, swath⟩ := s.chip.mapCh_shows a (payNat (s.chip.mbPay x.val) 8 4)
    refine ⟨(Chip.mbDone_shows _ _ _ _ _ _ _).1, (Chip.mbDone_shows _ _ _ _ _ _ _).2, Chip.mbDone_batch moved (by decide) _ _ _ _ _ _,
      (kept.regs _ _ (by decide)).trans gate, (kept.regs _ _ (by decide)).trans swath, ?_⟩
    exact Chip.mbDone_load (by rwa [moved.mem_eq (by decide)]) _ _ _ _ _ (by decide)

end Sys2Proof.Machine
end
